-- ==== Sys2Proof/Word.lean ====
section
/-! DEFINITION. The word types of the device: 32-bit registers (R9), bytes, and berth numbers (R8). -/
namespace Sys2Proof

/-- A register (R9): every register is 32 bits wide. -/
abbrev Word := BitVec 32

/-- A byte of a memory or of a binary format (R3). -/
abbrev Byte := BitVec 8

/-- A berth number, B0 to B7 (R8); slot Sn is served by berth Bn. -/
abbrev BId := Fin 8

/-- A requester identity (R38): 0–7 pilots, 8 DMA, 9 USB, A two-wire, B harbour command engine. -/
abbrev ReqId := Fin 16

end Sys2Proof
end

