-- ==== Sys2Proof/Syntax.lean ====
section
/-! DEFINITION. The commands of the block, one constructor for each row of the table of operations and events, with the
types of their operands (R8, R36, R38; the rule of each row stands in its comment). -/
namespace Sys2Proof
/-- A log record before it is written to flash (R161): its CRC and MAGIC are computed when it is programmed. -/
structure LogRec where
  ty : Nat
  origin : Nat
  seq : Nat
  tide : Nat
  mark : Nat
  sub : Nat
  p0 : Word
  p1 : Word
  p2 : Word
deriving DecidableEq, Repr, Inhabited
/-- A condition on one ADC input (R146, R150): below LOW, above HIGH, below HARD_LOW, above HARD_HIGH, or, for a
RAMPING rail without power-good wait, at or above LOW (R143). -/
inductive Cond where
  | softLow | softHigh | hardLow | hardHigh | rise
deriving DecidableEq, Repr, Inhabited
/-- A transition of TIDE_IN of a berth to high or low (R48). -/
structure TideEdge where
  berth : BId
  high : Bool
deriving DecidableEq, Repr, Inhabited
/-- An array of a berth (R239, R250). -/
structure ArrayId where
  berth : BId
  arr : Fin 8
deriving DecidableEq, Repr, Inhabited
/-- State of a leak rope (LK_STAT, R229). -/
inductive RopeState where
  | notFitted | pending | dry | wet | openCircuit | retired
deriving DecidableEq, Repr, Inhabited

/-- An accepted change of a pump's quadrature lines (R215). -/
inductive EncChange where
  | forward | reverse | both
deriving DecidableEq, Repr, Inhabited

/-- Slot state (R139). -/
inductive SlotState where
  | down | powering | up | shutting | faultHold | retired
deriving DecidableEq, Repr, Inhabited

/-- State of the service engine (HW_SVC_STAT.STATE, R341). -/
inductive SvcState where
  | off | mgmt | firmware | clocks | memory | links | cores | service | resetting | failed
deriving DecidableEq, Repr, Inhabited

/-- A slot flit (R357), also the harbour's held copy of a slot (R358). -/
structure SlotFlit where
  slot : SlotState := .down
  svc : SvcState := .off
  ready : Nat := 0
  units : Nat := 0
  hwRetired : Bool := false
deriving DecidableEq, Repr, Inhabited

/-- Boundary-scan instructions (R120). -/
inductive TapInstr where
  | bypass | idcode | sample | extest | clamp | highz
deriving DecidableEq, Repr, Inhabited

/-- An acknowledgement of the chart (R96): the first one, with digest octets, CHART_VER, ROLLBACK and fuse count, or the
second one with the key and signature result. -/
inductive ChartAck where
  | first (digest : List Byte) (ver : Word) (rollback fuse : Nat)
  | sig (ok : Bool)
deriving DecidableEq, Repr, Inhabited

/-- Whose pass a pass slot runs (R245): the policy's, the dummy's, or a diagnostic pass. -/
inductive PassOf where
  | policy | dummy | diag
deriving DecidableEq, Repr, Inhabited

/-- The outcome of a Host Notify attempt (R415, R416). -/
inductive NotifyEnd where
  | delivered | refused | lost | edge
deriving DecidableEq, Repr, Inhabited

/-- The shape of a two-wire transaction with a command byte (R402): the bytes written after it (a block's without its
count), whether a PEC followed and was right, or a read. -/
inductive TwXact where
  | writeWord (w : BitVec 16) (pec : Option Bool)
  | readWord
  | blockWrite (bs : List Byte) (pec : Option Bool)
  | blockRead
  | call (bs : List Byte)
deriving DecidableEq, Repr, Inhabited

/-- A TIDE flit on the ring (R59): that of a mark boundary, or the second one of mark 0. -/
inductive TideFlit where
  | mark (w : BitVec 64)
  | period (w : BitVec 64)
deriving DecidableEq, Repr, Inhabited

/-- Whose access no reply reaches in time (R22): the oldest of a pilot, the running burst of a DMA engine, or one of the harbour
command engine. -/
inductive LateAccess where
  | pilot
  | dma (e : Fin 2)
  | engine (write : Bool) (addr data : Word)
deriving DecidableEq, Repr, Inhabited

/-- The commands: one constructor for each row of the table of operations and events. `b`, `n`, `h` name berths, `h` the one
that acts as harbour; `req` is a requester code (R38). -/
inductive Instr where
  /-- MAIN_SUPPLY_GOOD (R112). -/
  | mainSupplyGood
  /-- MAIN_RESET_RELEASE (R112). -/
  | mainResetRelease (b : BId)
  /-- MAIN_SUPPLY_LOSS (R113). -/
  | mainSupplyLoss
  /-- VDD_STBY_RESET (R114). -/
  | vddStbyReset
  /-- RESET_N_ASSERT (R118). -/
  | resetNAssert
  /-- TAP_INSTRUCTION_LOAD (R120). -/
  | tapInstructionLoad (i : TapInstr)
  /-- TAP_TEST_LOGIC_RESET (R120). -/
  | tapTestLogicReset
  /-- STRAP_SAMPLE_DONE (R124): `addr`, `boot`, `inh`, `unstable`: the straps as sampled; `reach`: the berths that a claim made now reaches. -/
  | strapSampleDone (b : BId) (addr : Fin 8) (boot : Fin 4) (inh unstable : Bool) (reach : BitVec 8)
  /-- PLL_LOCK (R126): `reach`: the berths that the claim reaches. -/
  | pllLock (b : BId) (reach : BitVec 8)
  /-- B4_CLAIM_WAIT_EXPIRY (R127): `reach`: the berths that the claim reaches. -/
  | b4ClaimWaitExpiry (reach : BitVec 8)
  /-- CLAIM_COLLISION (R127). -/
  | claimCollision
  /-- TRAINING_WINDOW_END (R128): `present`: berths that have trained; `segs`, `chords`: healthy segments and chords, by their lower berth. -/
  | trainingWindowEnd (present segs chords : BitVec 8)
  /-- ELECTION_REPEAT (R130): `noClock`: for want of a valid clock, else of heartbeats. -/
  | electionRepeat (b : BId) (noClock : Bool)
  /-- LATE_BERTH_JOIN (R131): `segs`, `chords`: healthy segments and chords, by their lower berth. -/
  | lateBerthJoin (b : BId) (segs chords : BitVec 8)
  /-- MARK_BOUNDARY (R65). -/
  | markBoundary (b : BId)
  /-- MARK_AVERAGE_RECEIVE (R182): `n`: the slot; `w`: its mark average in W. -/
  | markAverageReceive (n : BId) (w : BitVec 16)
  /-- FLOOR_OVER_SET (R182). -/
  | floorOverSet
  /-- SILENT_MARKS_TAKEOVER (R18). -/
  | silentMarksTakeover (b : BId)
  /-- FLIT_RECEIVE (R20): `p`: the port; `seq`, `crcOk`: the flit's sequence number and whether its CRC matches. -/
  | flitReceive (b : BId) (p : Fin 4) (seq : BitVec 8) (crcOk : Bool)
  /-- REPLAY_REQUEST (R21): `p`: the port; `seq`: the first flit asked for. -/
  | replayRequest (b : BId) (p : Fin 4) (seq : BitVec 8)
  /-- RING_TIMEOUT (R22): of an access of berth b, one of its pilot to berth t. -/
  | ringTimeout (b t : BId) (who : LateAccess)
  /-- REMOTE_REPLY_RECEIVE (R22): of berth b's pilot from berth t; `late`: the requester whose timed-out access reaches berth t after all. -/
  | remoteReplyReceive (b t : BId) (late : Option ReqId)
  /-- BERTH_RETIRE_ORDER (R24). -/
  | berthRetireOrder (b : BId)
  /-- BYPASS_NOTICE (R24). -/
  | bypassNotice (b : BId)
  /-- SHUTDOWN_BOUND_EXPIRY (R24). -/
  | shutdownBoundExpiry (b : BId)
  /-- BYPASS_SWITCH (R24). -/
  | bypassSwitch (b : BId)
  /-- SILENT_BERTH_DETECT (R25): neighbour b of berth n. -/
  | silentBerthDetect (b n : BId)
  /-- SILENT_BERTH_REPORT (R25): at berth h, of berth n. -/
  | silentBerthReport (h n : BId)
  /-- SILENT_MARKS_ISOLATE (R27). -/
  | silentMarksIsolate (b : BId)
  /-- NO_CLOCK_ISOLATE (R27). -/
  | noClockIsolate (b : BId)
  /-- ISOLATED_REPORT (R462): at harbour h, of berth n. -/
  | isolatedReport (h n : BId)
  /-- RELEASE_ORDER (R27). -/
  | releaseOrder (b : BId)
  /-- CLOCK_INPUT_LOSS (R29): `edges`: the inputs that carry edges, by code. -/
  | clockInputLoss (b : BId) (edges : BitVec 4)
  /-- CLOCK_SWITCHOVER_DONE (R29). -/
  | clockSwitchoverDone (b : BId)
  /-- STANDBY_CLOCK_SOURCE (R31). -/
  | standbyClockSource (b : BId)
  /-- REGISTER_WRITE (R10): `req`: the requester; `own`: the berth of a DMA engine. -/
  | registerWrite (req : ReqId) (own : BId) (addr val : Word)
  /-- COUNTER_LOW_READ (R43): `req`: the requester; `own`: the berth of a DMA engine. -/
  | counterLowRead (req : ReqId) (own : BId) (addr : Word)
  /-- COUNTER_HIGH_READ (R43): `req`: the requester; `own`: the berth of a DMA engine. -/
  | counterHighRead (req : ReqId) (own : BId) (addr : Word)
  /-- ACC_ERR_READ (R39): `req`: the requester; `own`: the berth of a DMA engine. -/
  | accErrRead (req : ReqId) (own : BId) (addr : Word)
  /-- SNAP_TAKE (R44): `n`: the berth window, or none for the tray-wide space. -/
  | snapTake (req : ReqId) (own : BId) (n : Option BId)
  /-- SNAP_RELEASE (R45): `n`: the berth window, or none for the tray-wide space. -/
  | snapRelease (req : ReqId) (own : BId) (n : Option BId)
  /-- SNAPSHOT_EXPIRY (R45). -/
  | snapshotExpiry (b : BId)
  /-- TIDE_IN_TRANSITION (R48). -/
  | tideInTransition (e : TideEdge)
  /-- TIDE_CANDIDATE (R49). -/
  | tideCandidate (b : BId)
  /-- TIDE_MISS (R49). -/
  | tideMiss (b : BId)
  /-- TIDE_HOLD_EXPIRY (R52). -/
  | tideHoldExpiry (b : BId)
  /-- TIDE_FLIT_RECEIVE (R60): `sub`: the RING cycle of the present REF cycle in which it arrives. -/
  | tideFlitReceive (b : BId) (f : TideFlit) (sub : Fin 16)
  /-- CHART_SLOT_CHECK_DONE (R94): `unreadA`, `unreadB`: a header that could not be read; `rdErr`: a read of the slot failed. -/
  | chartSlotCheckDone (h : BId) (unreadA unreadB rdErr : Bool)
  /-- CHART_DISTRIBUTE (R96). -/
  | chartDistribute (h : BId)
  /-- CHART_STREAM_RECEIVE (R96): `bs`: the stream. -/
  | chartStreamReceive (b : BId) (bs : List Byte)
  /-- BERTH_SIGNATURE_CHECK_DONE (R96). -/
  | berthSignatureCheckDone (b : BId)
  /-- CHART_ACK (R96): of berth n. -/
  | chartAck (h n : BId) (a : ChartAck)
  /-- CHART_ACK_TIMEOUT (R97): of berth n. -/
  | chartAckTimeout (h n : BId)
  /-- CHART_LOCK (R98). -/
  | chartLock (h : BId)
  /-- RELOAD (R107): `arg`: CH_CMD.ARG. -/
  | reload (req : ReqId) (arg : Fin 16)
  /-- REDISTRIBUTE (R100): `arg`: the berth. -/
  | redistribute (req : ReqId) (arg : Fin 16)
  /-- COMMIT_RB (R104): `arg`: the class. -/
  | commitRb (req : ReqId) (arg : Fin 16) (guard : BitVec 16)
  /-- REVOKE_KEY (R106): `arg`: the key slot. -/
  | revokeKey (req : ReqId) (arg : Fin 16) (guard : BitVec 16)
  /-- PROG_KEY (R106): `arg`: the key slot. -/
  | progKey (req : ReqId) (arg : Fin 16) (guard : BitVec 16)
  /-- FUSE_BURN_DONE (R104): `ok`: the fuse reads back burned. -/
  | fuseBurnDone (h : BId) (ok : Bool)
  /-- CONTROLLER_RESET (R119). -/
  | controllerReset (req : ReqId) (guard : BitVec 16)
  /-- CONTROLLER_RESET_FIRE (R119). -/
  | controllerResetFire
  /-- SLEEP (R115). -/
  | sleep (req : ReqId) (guard : BitVec 16)
  /-- SLEEP_WAKE (R116). -/
  | sleepWake
  /-- PILOT_START (R365). -/
  | pilotStart (b : BId)
  /-- POWER_UP (R141). -/
  | powerUp (b : BId) (req : ReqId)
  /-- SHUTDOWN (R140). -/
  | shutdown (b : BId) (req : ReqId)
  /-- RAIL_ON_DELAY_EXPIRY (R141): rail r. -/
  | railOnDelayExpiry (b : BId) (r : Fin 13)
  /-- AVS_SET_TIMEOUT (R142). -/
  | avsSetTimeout (b : BId) (r : Fin 13)
  /-- POWER_GOOD_RISE (R143). -/
  | powerGoodRise (b : BId) (r : Fin 12)
  /-- POWER_GOOD_DROP (R149). -/
  | powerGoodDrop (b : BId) (r : Fin 12)
  /-- PG_TIMEOUT (R143). -/
  | pgTimeout (b : BId) (r : Fin 12)
  /-- RAMP_TIMEOUT (R143). -/
  | rampTimeout (b : BId) (r : Fin 13)
  /-- ADC_CONVERSION (R145): `code`: the reading of input i. -/
  | adcConversion (b : BId) (i : Fin 24) (code : Fin 4096)
  /-- THRESHOLD_CONFIRM (R146). -/
  | thresholdConfirm (b : BId) (i : Fin 24) (c : Cond)
  /-- RAIL_TRUMP_RECEIVE (R177). -/
  | railTrumpReceive (n : BId)
  /-- RAIL_OFF_CONFIRM (R155). -/
  | railOffConfirm (b : BId) (r : Fin 13)
  /-- RAIL_OFF_TIMEOUT (R156). -/
  | railOffTimeout (b : BId) (r : Fin 13)
  /-- FAULT_HOLD_END (R159). -/
  | faultHoldEnd (b : BId)
  /-- THRESHOLD_WRITE (R152). -/
  | thresholdWrite (b : BId) (req : ReqId) (i : Fin 24) (w : Word)
  /-- SETPOINT_TRANSITION_END (R153). -/
  | setpointTransitionEnd (b : BId) (k : Fin 4)
  /-- LOG_BUFFER_ARRIVE (R165): at harbour h from berth o. -/
  | logBufferArrive (h o : BId) (recs : List LogRec)
  /-- LOG_PROGRAM_DONE (R167). -/
  | logProgramDone (h : BId)
  /-- LOG_ERASE_DONE (R167). -/
  | logEraseDone (h : BId)
  /-- LOG_HEAD_FOUND (R169): `failed`: sectors whose header could not be read. -/
  | logHeadFound (h : BId) (failed : List Nat)
  /-- PW_BUDGET_WRITE (R173). -/
  | pwBudgetWrite (req : ReqId) (w : BitVec 16)
  /-- ADMIT_REQ (R175). -/
  | admitReq (b : BId) (req : ReqId)
  /-- ADMIT_CANCEL (R177). -/
  | admitCancel (b : BId) (req : ReqId)
  /-- AVS_RESPONSE (R186): of controller c; `ack`: the acknowledge code. -/
  | avsResponse (b : BId) (c : Fin 2) (crcOk : Bool) (ack : Fin 4)
  /-- AVS_RESPONSE_TIMEOUT (R186). -/
  | avsResponseTimeout (b : BId) (c : Fin 2)
  /-- VOLTAGE_SETTLE (R187): partition k. -/
  | voltageSettle (b : BId) (k : Fin 4)
  /-- SETTLE_TIMEOUT (R187). -/
  | settleTimeout (b : BId) (k : Fin 4)
  /-- VOLTAGE_TRIM_TICK (R196). -/
  | voltageTrimTick (b : BId)
  /-- THERMAL_LOOP_STEP (R198): partition k; `temp`: the temperature loop, else the current loop. -/
  | thermalLoopStep (b : BId) (k : Fin 4) (temp : Bool)
  /-- THERMAL_CAP_RELEASE (R198): partition k; `temp`: the temperature loop, else the current loop. -/
  | thermalCapRelease (b : BId) (k : Fin 4) (temp : Bool)
  /-- SCAN_COMPLETE (R200). -/
  | scanComplete (b : BId)
  /-- OVER_GRANT_LOWER (R201). -/
  | overGrantLower (b : BId)
  /-- UNDER_GRANT_RAISE (R201). -/
  | underGrantRaise (b : BId)
  /-- DUTY_COMMAND_WRITE (R212). -/
  | dutyCommandWrite (b : BId) (c : Fin 3) (req : ReqId) (w : Word)
  /-- TACH_EDGE (R214): `t`: COOL cycles since the edge before. -/
  | tachEdge (b : BId) (c : Fin 3) (t : BitVec 32)
  /-- ENCODER_CHANGE (R215). -/
  | encoderChange (b : BId) (c : Fin 3) (e : EncChange)
  /-- INDEX_EDGE (R216). -/
  | indexEdge (b : BId) (c : Fin 3)
  /-- PUMP_SPEED_GATE (R217). -/
  | pumpSpeedGate (b : BId)
  /-- KICK_TIMEOUT (R219): `e`: COOL cycles since the last edge. -/
  | kickTimeout (b : BId) (c : Fin 3) (e : BitVec 32)
  /-- STALL_DETECT (R220): `e`: COOL cycles since the last edge. -/
  | stallDetect (b : BId) (c : Fin 3) (e : BitVec 32)
  /-- STALL_RETRY (R221). -/
  | stallRetry (b : BId) (c : Fin 3)
  /-- RETRY_OFF_END (R221). -/
  | retryOffEnd (b : BId) (c : Fin 3)
  /-- ZONE_BOOST_NOTICE (R223): at berth b from berth m; `z`: its boosted zones. -/
  | zoneBoostNotice (b m : BId) (z : Word)
  /-- HOST_ACT_NOTICE (R225). -/
  | hostActNotice (b : BId)
  /-- HOST_SILENCE_EXPIRY (R226). -/
  | hostSilenceExpiry (b : BId) (c : Fin 3)
  /-- LEAK_TRUMP (R232): rope r. -/
  | leakTrump (b : BId) (r : Fin 2)
  /-- LEAK_TRUMP_RECEIVE (R232): at berth n from berth m; `mask`: SHUT_MASK. -/
  | leakTrumpReceive (n m : BId) (mask : BitVec 8)
  /-- ROPE_OPEN (R231). -/
  | ropeOpen (b : BId) (r : Fin 2)
  /-- ROPE_DRY (R229). -/
  | ropeDry (b : BId) (r : Fin 2)
  /-- ROPE_STATE_NOTICE (R230): at berth n from berth m. -/
  | ropeStateNotice (n m : BId) (r : Fin 2) (st : RopeState) (latch : Bool)
  /-- LK_CLEAR (R233). -/
  | lkClear (b : BId) (req : ReqId) (w : Word)
  /-- PROG (R252): array k; `first`: the first row. -/
  | prog (b : BId) (req : ReqId) (k : Fin 8) (first : Fin 256)
  /-- VERIFY (R256). -/
  | verify (b : BId) (req : ReqId) (k : Fin 8)
  /-- REPAIR (R257). -/
  | repair (b : BId) (req : ReqId) (k : Fin 8)
  /-- CAL (R260). -/
  | cal (b : BId) (req : ReqId) (k : Fin 8)
  /-- PASS (R250). -/
  | pass (b : BId) (req : ReqId) (k : Fin 8)
  /-- ABORT (R255). -/
  | abort (a : ArrayId) (req : ReqId)
  /-- ROW_SENSE_DONE (R252): `w`: the levels sensed; `mid`: the cells whose reading lies between two levels. -/
  | rowSenseDone (b : BId) (w : BitVec 640) (mid : BitVec 160)
  /-- PROG_ROUND_DONE (R253): `w`: the levels reached; `mid`: the cells between two levels. -/
  | progRoundDone (b : BId) (w : BitVec 640) (mid : BitVec 160)
  /-- CELL_WINDOW_READ (R249): word w of row r of array k; `v`: the levels sensed. -/
  | cellWindowRead (b : BId) (req : ReqId) (k : Fin 8) (r : Fin 256) (w : Fin 20) (v : Word)
  /-- ARRAY_PASS_DONE (R245): `w`: whose pass; `codes`: the raw codes of up to four arrays, 9 bits each. -/
  | arrayPassDone (b : BId) (w : PassOf) (ds : Vector (BitVec 11520) 4)
  /-- CALIBRATION_DONE (R259): `m`: the mean reference codes in sixteenths. -/
  | calibrationDone (b : BId) (k : Fin 8) (ds : BitVec 9216)
  /-- TEST_SLOT (R263): `cs`: the raw codes, 9 bits each, of column c under mask m at place 4c + m. -/
  | testSlot (b : BId) (k : Fin 8) (cs : BitVec 5760)
  /-- STAGE_OUTPUT_RECEIVE (R272). -/
  | stageOutputReceive (b : BId) (g : Fin 2)
  /-- FEATURE_RECEIVE (R289). -/
  | featureReceive (h : BId) (g : Fin 2)
  /-- BINDINGS_FORMED (R274). -/
  | bindingsFormed (h : BId) (g : Fin 2)
  /-- FALLBACK_ENTRY (R291). -/
  | fallbackEntry (h : BId) (g : Fin 2)
  /-- POLICY_LOAD_DONE (R288). -/
  | policyLoadDone (h : BId) (g : Fin 2)
  /-- UNLOAD (R296). -/
  | unload (h : BId) (req : ReqId) (g : Fin 2) (guard : BitVec 16)
  /-- PROMOTE (R297). -/
  | promote (h : BId) (req : ReqId) (guard : BitVec 16)
  /-- STATS_CLEAR (R296). -/
  | statsClear (h : BId) (req : ReqId)
  /-- REPLACE (R293). -/
  | replace (h : BId) (req : ReqId) (g : Fin 2)
  /-- PROMOTE_SWAP (R297). -/
  | promoteSwap (h : BId)
  /-- DUMMY_COMPARE (R295). -/
  | dummyCompare (h : BId)
  /-- START (R330). -/
  | start (b : BId) (req : ReqId)
  /-- STOP (R329). -/
  | stop (b : BId) (req : ReqId)
  /-- RETRAIN (R327). -/
  | retrain (b : BId) (req : ReqId)
  /-- RX_LOCK (R307): `d` and `ds`: the bit that the lane carries next while the receiver searches, and the bits after it, up to the
  end of the frame whose marker completes the lock. -/
  | rxLock (b : BId) (d : Bool) (ds : List Bool)
  /-- FALSE_LOCK (R308). -/
  | falseLock (b : BId)
  /-- FALSE_LOCK_EXCLUSION_END (R308). -/
  | falseLockExclusionEnd (b : BId)
  /-- LOCK_LOST (R309). -/
  | lockLost (b : BId)
  /-- FRAME_RECEIVE (R315): `raw`: nine words as received; `fill`: elastic-buffer insertions and deletions. -/
  | frameReceive (b : BId) (raw : Vector Word 9) (fill : Fin 5)
  /-- TX_FRAME_BOUNDARY (R319). -/
  | txFrameBoundary (b : BId)
  /-- ACK_TIMEOUT (R317). -/
  | ackTimeout (b : BId)
  /-- TRAIN_TIMEOUT (R313). -/
  | trainTimeout (b : BId)
  /-- REPLY_RECEIVE (R323). -/
  | replyReceive (b : BId)
  /-- EVENT_RECEIVE (R332). -/
  | eventReceive (b : BId)
  /-- REPLY_TIMEOUT (R325): tag. -/
  | replyTimeout (b : BId) (tag : Fin 64)
  /-- FREQ_RESEND (R326): partition k. -/
  | freqResend (b : BId) (k : Fin 4)
  /-- MAILBOX_READ (R331). -/
  | mailboxRead (b : BId) (req : ReqId) (len : Fin 512)
  /-- MAILBOX_WRITE (R331). -/
  | mailboxWrite (b : BId) (req : ReqId) (len : Fin 512)
  /-- MAILBOX_CTRL (R331). -/
  | mailboxCtrl (b : BId) (req : ReqId) (len : Fin 512)
  /-- MAILBOX_FREQ (R331). -/
  | mailboxFreq (b : BId) (req : ReqId) (len : Fin 512)
  /-- HW_CPL_READ (R331). -/
  | hwCplRead (b : BId) (req : ReqId)
  /-- HW_EVQ_READ (R332). -/
  | hwEvqRead (b : BId) (req : ReqId)
  /-- BRING_UP (R340). -/
  | bringUp (b : BId) (req : ReqId)
  /-- SERVICE_RESET (R349): `level`, `unit`, `absorb`: fields of HW_SVC_CMD. -/
  | serviceReset (b : BId) (req : ReqId) (level : Fin 4) (unit : Fin 1024) (absorb : Bool)
  /-- SERVICE_ABORT (R340). -/
  | serviceAbort (b : BId) (req : ReqId)
  /-- MGMT_START (R341). -/
  | mgmtStart (b : BId)
  /-- STATUS_POLL (R339). -/
  | statusPoll (b : BId)
  /-- BUSY_REISSUE (R339). -/
  | busyReissue (b : BId)
  /-- STAGE_TIMEOUT (R348). -/
  | stageTimeout (b : BId)
  /-- DRAIN_ESCALATE (R349). -/
  | drainEscalate (b : BId)
  /-- RESET_HOLD_END (R351). -/
  | resetHoldEnd (b : BId)
  /-- RESET_TIMEOUT (R351). -/
  | resetTimeout (b : BId)
  /-- REPORT_POLL (R354). -/
  | reportPoll (b : BId)
  /-- SLOT_FLIT_RECEIVE (R358): of berth n, at every berth. -/
  | slotFlitReceive (n : BId) (f : SlotFlit)
  /-- PILOT_INSTRUCTION (R362). -/
  | pilotInstruction (b : BId)
  /-- CSR_ACCESS (R363). -/
  | csrAccess (b : BId)
  /-- FENCE (R23). -/
  | fence (b : BId)
  /-- WFI (R362). -/
  | wfi (b : BId)
  /-- WFI_TIMEOUT (R362). -/
  | wfiTimeout (b : BId)
  /-- INTERRUPT_TAKEN (R366). -/
  | interruptTaken (b : BId)
  /-- MSIP_WRITE (R366). -/
  | msipWrite (b : BId) (req : ReqId) (set : Bool)
  /-- WATCHDOG_KICK (R368). -/
  | watchdogKick (b : BId) (req : ReqId) (key : BitVec 16)
  /-- PILOT_WATCHDOG_EXPIRY (R368). -/
  | pilotWatchdogExpiry (b : BId)
  /-- RESTART (R371). -/
  | restart (b : BId) (req : ReqId) (guard : BitVec 16)
  /-- RESTART_STREAM_DONE (R369): `rdErr`: a flash read failed. -/
  | restartStreamDone (b : BId) (rdErr : Bool)
  /-- IMAGE_CHECK_DONE (R375): `unreadA`, `unreadB`: regions whose first bytes could not be read; `rdErr`: a read of the checked region failed. -/
  | imageCheckDone (h : BId) (unreadA unreadB rdErr : Bool)
  /-- IMAGE_COPY_RECEIVE (R376): `bytes`: header and body. -/
  | imageCopyReceive (b : BId) (bytes : List Byte)
  /-- LOAD (R378). -/
  | load (h : BId) (req : ReqId) (role : Fin 4) (slotB : Bool) (guard : BitVec 16)
  /-- DK_ALLOC_ANY (R381). -/
  | dkAllocAny (b : BId) (req : ReqId)
  /-- DK_ALLOC_LOCAL (R381). -/
  | dkAllocLocal (b : BId) (req : ReqId)
  /-- DK_FREE (R385): `g`: the buffer. -/
  | dkFree (b : BId) (req : ReqId) (g : Fin 4096)
  /-- DM_TAIL_WRITE (R390): engine e. -/
  | dmTailWrite (b : BId) (e : Fin 2) (req : ReqId) (tail : Fin 32)
  /-- DMA_BURST_DONE (R392). -/
  | dmaBurstDone (b : BId) (e : Fin 2)
  /-- DMA_HAND_TIMEOUT (R395). -/
  | dmaHandTimeout (b : BId) (e : Fin 2)
  /-- DMA_RESUME (R396). -/
  | dmaResume (b : BId) (e : Fin 2) (req : ReqId)
  /-- SKIP (R396). -/
  | skip (b : BId) (e : Fin 2) (req : ReqId)
  /-- FLUSH (R396). -/
  | flush (b : BId) (e : Fin 2) (req : ReqId)
  /-- PREEMPT (R394): engine e. -/
  | preempt (b : BId) (e : Fin 2) (req : ReqId) (slot : Fin 32)
  /-- IDENT (R406). -/
  | ident (b : BId) (x : TwXact)
  /-- RD32 (R409): `late`: berths whose replies do not come in time. -/
  | rd32 (b : BId) (late : BitVec 8) (x : TwXact)
  /-- WR32 (R409): `late`: berths whose replies do not come in time. -/
  | wr32 (b : BId) (late : BitVec 8) (x : TwXact)
  /-- RDN (R409): `late`: berths whose replies do not come in time. -/
  | rdn (b : BId) (late : BitVec 8) (x : TwXact)
  /-- WRN (R409): `late`: berths whose replies do not come in time. -/
  | wrn (b : BId) (late : BitVec 8) (x : TwXact)
  /-- LAST (R406). -/
  | last (b : BId) (x : TwXact)
  /-- ATTN (R406). -/
  | attn (b : BId) (x : TwXact)
  /-- ATTN_CLR (R406). -/
  | attnClr (b : BId) (x : TwXact)
  /-- RECEIVE_BYTE (R406). -/
  | receiveByte (b : BId)
  /-- QUICK_COMMAND (R402). -/
  | quickCommand (b : BId)
  /-- UNSUPPORTED_COMMAND (R406): `kind`: the transaction is of a kind the port does not support. -/
  | unsupportedCommand (b : BId) (code : BitVec 8) (kind : Bool)
  /-- TRANSACTION_CUT (R424): `mid`: the bus stays within the transaction. -/
  | transactionCut (b : BId) (code : BitVec 8) (mid : Bool)
  /-- TW_ATTN_SET (R412). -/
  | twAttnSet (req : ReqId) (fw : Bool)
  /-- BEACON (R414). -/
  | beacon (b : BId)
  /-- BEACON_END (R414). -/
  | beaconEnd (b : BId)
  /-- BEACON_CUT (R414). -/
  | beaconCut (b : BId)
  /-- BEACON_REPEAT (R414). -/
  | beaconRepeat (b : BId)
  /-- HOST_NOTIFY (R415): `e`: how the attempt ends. -/
  | hostNotify (b : BId) (e : NotifyEnd)
  /-- NOTIFY_RETRY (R415). -/
  | notifyRetry (b : BId)
  /-- BACKOFF_END (R416). -/
  | backoffEnd (b : BId)
  /-- SLEEP_ADDRESS_MATCH (R418). -/
  | sleepAddressMatch (b : BId)
  /-- STRETCH_TIMEOUT (R418). -/
  | stretchTimeout (b : BId)
  /-- BUS_HANG (R422): `sda`: SDA is low, else SCL; `ms`: for how long. -/
  | busHang (b : BId) (sda : Bool) (ms : BitVec 16)
  /-- VENDOR_READ (R432): `len`: wLength; `finished`: the data stage completes. -/
  | vendorRead (b : BId) (addr : Word) (len : BitVec 16) (late : BitVec 8) (finished : Bool)
  /-- VENDOR_WRITE (R432): `odd`: bytes beyond the words; `started`: the status stage starts. -/
  | vendorWrite (b : BId) (addr : Word) (words : List Word) (odd : Fin 4) (late : BitVec 8) (started : Bool)
  /-- VENDOR_LAST (R431): or another request in its place; `breq`, `a`, `len`: bRequest, wIndex and wValue, wLength. -/
  | vendorLast (b : BId) (breq : BitVec 8) (a : Word) (len : BitVec 16)
  /-- GET_STATUS (R430): `recip`: device, interface, endpoint. -/
  | getStatus (b : BId) (recip : Fin 4) (idx : BitVec 8)
  /-- CLEAR_FEATURE (R430): `recip`: device, interface, endpoint. -/
  | clearFeature (b : BId) (feature recip : Fin 4) (idx : BitVec 8)
  /-- SET_FEATURE (R430): `recip`: device, interface, endpoint. -/
  | setFeature (b : BId) (feature recip : Fin 4) (idx : BitVec 8)
  /-- SET_ADDRESS (R430). -/
  | setAddress (b : BId) (a : Fin 128)
  /-- GET_DESCRIPTOR (R429): type, index and length. -/
  | getDescriptor (b : BId) (ty i : BitVec 8) (len : BitVec 16)
  /-- GET_CONFIGURATION (R430). -/
  | getConfiguration (b : BId)
  /-- SET_CONFIGURATION (R446). -/
  | setConfiguration (b : BId) (v : BitVec 8)
  /-- GET_INTERFACE (R430). -/
  | getInterface (b : BId) (i : BitVec 8)
  /-- SET_INTERFACE (R430). -/
  | setInterface (b : BId) (i alt : BitVec 8)
  /-- SET_DESCRIPTOR (R430). -/
  | setDescriptor (b : BId)
  /-- SYNCH_FRAME (R430). -/
  | synchFrame (b : BId)
  /-- DFU_DNLOAD (R439): `num`: block number; `rdErr`: a flash read failed. -/
  | dfuDnload (b : BId) (num : BitVec 16) (data : List Byte) (rdErr : Bool)
  /-- DFU_UPLOAD (R442): `rdErr`: a flash read failed. -/
  | dfuUpload (b : BId) (len : BitVec 16) (rdErr : Bool)
  /-- DFU_GETSTATUS (R435). -/
  | dfuGetstatus (b : BId)
  /-- DFU_CLRSTATUS (R438). -/
  | dfuClrstatus (b : BId)
  /-- DFU_GETSTATE (R435). -/
  | dfuGetstate (b : BId)
  /-- DFU_ABORT (R439). -/
  | dfuAbort (b : BId)
  /-- DFU_DETACH (R435). -/
  | dfuDetach (b : BId)
  /-- DFU_ERASE_DONE (R439): `ok`: it succeeded. -/
  | dfuEraseDone (b : BId) (ok : Bool)
  /-- DFU_PROGRAM_DONE (R439): `ok`: it succeeded. -/
  | dfuProgramDone (b : BId) (ok : Bool)
  /-- MANIFESTATION_DONE (R440): `progOk`: the program succeeded; `same`: the read-back agrees; `rdErr`: a flash read failed. -/
  | manifestationDone (b : BId) (progOk same rdErr : Bool)
  /-- USB_BUS_RESET (R449): `hs`: the handshake gives high speed. -/
  | usbBusReset (b : BId) (hs : Bool)
  /-- USB_SUSPEND (R448). -/
  | usbSuspend (b : BId)
  /-- USB_RESUME (R448). -/
  | usbResume (b : BId)
  /-- VBUS_CHANGE (R427). -/
  | vbusChange (b : BId) (valid : Bool)
  /-- REMOTE_WAKEUP (R448). -/
  | remoteWakeup (b : BId)
  /-- TELEMETRY_IN (R446). -/
  | telemetryIn (b : BId)
  /-- TELEMETRY_PACKET_ACK (R446). -/
  | telemetryPacketAck (b : BId)
  /-- US_TEL_PUSH (R447). -/
  | usTelPush (req : ReqId) (w : Word)
  /-- RETIREMENT_NOTICE (R457): at harbour h from berth n: the unit, the rule and the events in the window. -/
  | retirementNotice (h n : BId) (kind : Fin 32) (index : Fin 1280) (rule events : BitVec 8)
  /-- UNRETIRE_RING_PORT (R460). -/
  | unretireRingPort (req : ReqId) (n : BId) (guard : BitVec 16)
  /-- UNRETIRE_TIDE_IN (R460). -/
  | unretireTideIn (req : ReqId) (n : BId) (guard : BitVec 16)
  /-- UNRETIRE_BERTH (R461). -/
  | unretireBerth (req : ReqId) (n : BId) (guard : BitVec 16)
  /-- UNRETIRE_SLOT (R460). -/
  | unretireSlot (req : ReqId) (n : BId) (guard : BitVec 16)
  /-- UNRETIRE_AVSBUS (R460). -/
  | unretireAvsbus (req : ReqId) (n : BId) (guard : BitVec 16)
  /-- UNRETIRE_COOL (R460). -/
  | unretireCool (req : ReqId) (n : BId) (guard : BitVec 16)
  /-- UNRETIRE_ROPE (R460). -/
  | unretireRope (req : ReqId) (n : BId) (guard : BitVec 16)
  /-- UNRETIRE_COLUMN (R460). -/
  | unretireColumn (req : ReqId) (n : BId) (guard : BitVec 16)
  /-- UNRETIRE_ARRAY (R460). -/
  | unretireArray (req : ReqId) (n : BId) (guard : BitVec 16)
  /-- UNRETIRE_DMA (R460). -/
  | unretireDma (req : ReqId) (n : BId) (guard : BitVec 16)
  /-- UNRETIRE_TWI_CTRL (R460). -/
  | unretireTwiCtrl (req : ReqId) (n : BId) (guard : BitVec 16)
  /-- UNRETIRE_PILOT (R460). -/
  | unretirePilot (req : ReqId) (n : BId) (guard : BitVec 16)
  /-- UNRETIRE_CORE (R460). -/
  | unretireCore (req : ReqId) (n : BId) (guard : BitVec 16)
  /-- UNRETIRE_ACK (R459). -/
  | unretireAck (h : BId)
  /-- UNRETIRE_ACK_TIMEOUT (R459). -/
  | unretireAckTimeout (h : BId)
  /-- BERTH_ADMIT_TIMEOUT (R461). -/
  | berthAdmitTimeout (h : BId)
  /-- SOUNDING_ARRIVE (R468): at harbour h from berth n. -/
  | soundingArrive (h n : BId) (bytes : List Byte)
  /-- SOUNDING_DROP_NOTICE (R468). -/
  | soundingDropNotice (b : BId)
  /-- RESET_N_RELEASE (R118). -/
  | resetNRelease
  /-- WRITE_GUARD_CHANGE (R168): `below`: the supply is below its guard level. -/
  | writeGuardChange (below : Bool)
  /-- MTIMECMP_MATCH (R366). -/
  | mtimecmpMatch (b : BId)
  /-- PWM_PERIOD_START (R211): channel c. -/
  | pwmPeriodStart (b : BId) (c : Fin 3)
  /-- RING_PORT_TRAINED (R460): port p. -/
  | ringPortTrained (b : BId) (p : Fin 4)
  /-- VDD_STBY_LOSS (R114). -/
  | vddStbyLoss
deriving DecidableEq, Repr

end Sys2Proof
end

