-- ==== Sys2Proof/Decode.lean ====
section
/-! DEFINITION. Words of the command table. No row of the table gives bits: the block's commands are no encoded words. -/
namespace Sys2Proof

/-- The command that a word of `nbits` bits spells: none, for no row of the command table has bits. -/
def decodeTableWord (_nbits _w : Nat) : Option Instr := none

end Sys2Proof
end

