-- ==== Sys2Proof/Config.lean ====
section
/-! DEFINITION. What an implementation fixes, what the fuses and the package hold, and the free values: opaque
constants, so that nothing proved can rest on a value of theirs. -/
namespace Sys2Proof.Config

/-- The free values of the model, in the order the steps draw them (State.freeCtr counts). Notes entry 3. -/
opaque freeValue : Nat → BitVec 64

/-- The device's 8-byte unique identifier (R72 UID_BIND): burned at manufacture. Notes entry 5. -/
opaque uid : BitVec 64

/-- The USB vendor identifier fuse (US_DEVID[15:0]): burned at manufacture. Notes entry 5. -/
opaque usbVid : BitVec 16

/-- The flits that a message or access of some kind and payload length in bytes fills, TIDE flits apart: not stated. Notes
entry 45. -/
opaque flitCount : Nat → Nat → Nat

/-- What the boundary cell of a ball drives under EXTEST and CLAMP (R120), by the number drawn when the instruction was loaded and the
ball's number: a level, or nothing. It is shifted in outside the table's commands. Notes entry 3. -/
opaque cellDrive : Nat → Nat → Option Bool

end Sys2Proof.Config
end

