-- ==== Sys2Proof/Machine/State.lean ====
section
/-! DEFINITION. The state of the PT8 as plain data: every register, FIFO, buffer, counter, mode and pin the
spec gives the block, plus the queue of waiting commands. Default values of the fields are the values at
main reset and power-on (R46, R172, R209 and the start-up sections of each chapter). -/
namespace Sys2Proof.Machine

/-- An N-in-W history of one retirable unit: the harbour tides of its most recent events, newest first (R455). -/
abbrev Hist := List Nat

/-- A sparse memory in canonical form: strictly rising addresses, no entry equal to the default byte of its
space (0x00 for TCM and deck share, 0xFF for flash). -/
abbrev Mem := List Host.Cell

/-- A 64-bit high-word latch of one requester (R43): which counter it belongs to and the latched high word. -/
structure Latch where
  ctr : Nat
  hi : Word
deriving DecidableEq, Repr, Inhabited

/-- A register value frozen by a snapshot (R44, R475): its offset within the register blocks, and its value. -/
structure Frozen where
  off : Nat
  val : Word
deriving DecidableEq, Repr, Inhabited

/-- State of a berth (SY_BERTH.STATE). -/
inductive BerthState where
  | inert | training | moored | active | isolated | retired
deriving DecidableEq, Repr, Inhabited

/-! ### System block, ring and clock (chapters 01 and 04) -/

/-- Source of a clock input (SY_CLK_STAT.INPUT codes, R28). -/
inductive ClkIn where
  | lowNbr | highNbr | lowChord | highChord
deriving DecidableEq, Repr, Inhabited

/-- Messages between berths whose arrival is a command of its own. -/
inductive Msg where
  | logBuffer (recs : List LogRec)
  | retireNotice (kind index rule events : Nat)
  | railTrump (slot : BId)
  /-- the zones boosted by the channels of the sending berth (R223) -/
  | zoneBoost (zones : Word)
  /-- a leak trump of the sending berth, with its SHUT_MASK (R232) -/
  | leakTrump (mask : Nat)
  /-- state and latch of a rope of the sending berth (R230) -/
  | ropeState (rope : Nat) (st : RopeState) (latch : Bool)
  | chart (stream : List Byte)
  | chartAck (a : ChartAck)
  | image (bytes : List Byte)
  | retireOrder
  | bypassNotice
  | silentBerth (b : BId)
  | releaseOrder
  | isolatedReport
  /-- a TIDE flit (R59); the heartbeat -/
  | tide (flit : BitVec 64)
  | slotFlit (f : SlotFlit)
  | markAverage (watts : Nat)
  | hostAct
  | sounding (bytes : List Byte)
  | dropNotice
  | unretire (kind index : Nat)
  | unretireAck
deriving DecidableEq, Repr

/-- A flit that a port has sent (R20): the berth it comes from, the berth it goes to (none: to every berth), and the content of a
TIDE flit, the only kind whose content is stated (R59). -/
structure Flit where
  src : BId
  dst : Option BId
  tide : Option (BitVec 64) := none
deriving DecidableEq, Repr, Inhabited

/-- A ring or chord port of a berth (R20, R21, R458, R460). Sequence numbers count modulo 256 (their width is not stated). -/
structure RingPort where
  /-- the link carries traffic as far as this end is concerned -/
  trained : Bool := false
  retired : Bool := false
  /-- un-retired: the port trains, and, once trained, is used from the next mark boundary (R460) -/
  training : Bool := false
  ready : Bool := false
  txSeq : Nat := 0
  rxSeq : Nat := 0
  /-- the last flits sent, oldest first (at most 32) -/
  replay : List Flit := []
  /-- a replay has been requested from the other end -/
  asked : Bool := false
  hist : Hist := []
deriving DecidableEq, Repr, Inhabited

/-- What the ring side of a berth holds: its ports, and the messages that wait while it is in holdover (R29), oldest first. -/
structure Rp where
  ports : Vector RingPort 4 := .replicate 4 {}
  held : List (Option BId × Msg) := []
deriving DecidableEq, Repr, Inhabited

/-- A remote access that waits for its reply (R22): requester, address, width in bytes, and the data of a write. -/
structure Remote where
  req : ReqId
  addr : Nat
  size : Nat
  write : Bool
  data : Word
  /-- a pilot's access: its instruction's address and length, and for a read the register it loads and whether it extends the sign -/
  pc : Word := 0
  len : Nat := 4
  rd : Nat := 0
  signed : Bool := false
deriving DecidableEq, Repr, Inhabited

/-- SY_STRAP (R124, R125). -/
structure Straps where
  addr : Nat := 0
  boot : Nat := 0
  inh : Bool := false
  unstable : Bool := false
  valid : Bool := false
deriving DecidableEq, Repr, Inhabited

/-- The SY_ block of one berth: state, ring, clock, snapshot and access errors. -/
structure Sy where
  st : BerthState := .inert
  harbour : BId := 0
  isHarbour : Bool := false
  clkSrc : BId := 0
  /-- this berth has once held and lost the harbour role (R19) -/
  lostRole : Bool := false
  clkIn : ClkIn := .lowNbr
  isSrc : Bool := false
  holdover : Bool := false
  clkLocked : Bool := false
  order : List ClkIn := [.lowNbr, .lowNbr, .lowNbr, .lowNbr]
  /-- input selected for the switchover in progress (R29) -/
  switchTo : Option ClkIn := none
  clkSwitch : Nat := 0
  /-- REF time at which the last holdover ended -/
  holdEnd : Option Nat := none
  ringRetry : Nat := 0
  /-- held in main reset (R112) -/
  inReset : Bool := true
  /-- SY_START.STEP before lock (0 RESET, 1 CLOCKING, 2 TRAINING, 3 CHART), and FAIL -/
  step : Nat := 0
  fail : Nat := 0
  /-- B0 and B4: straps (R124, R125), PLL lock (R126), claim (R127) -/
  straps : Straps := {}
  pll : Bool := false
  claims : Bool := false
  /-- B0 and B4: SY_RST_CAUSE in the standby island, and the REF time at which its RTC counter was last cleared (R114) -/
  cause : Nat := 0
  rtcFrom : Nat := 0
  /-- trains alone, or is un-retired, and joins at the harbour's next mark boundary (R131, R460) -/
  joining : Bool := false
  silentMarks : Nat := 0
  /-- a heartbeat arrived during the running mark -/
  heard : Bool := false
  /-- a retirement order runs; the boundary named by the bypass notice, in marks since tide 0 (R24) -/
  retireOrder : Bool := false
  bypassAt : Option Nat := none
  /-- silent berths that this berth has detected, and those that a report or the last state copy names (R25) -/
  silentSeen : Nat := 0
  silentKnown : Nat := 0
  /-- harbour: a host has acted since the last mark boundary (R225) -/
  hostAct : Bool := false
  /-- remote accesses of this berth's pilot that wait for their reply -/
  remotes : List Remote := []
  /-- accesses that completed with RING_TIMEOUT and that their target may still carry out (R22) -/
  timedOut : List Remote := []
  errCause : Nat := 0
  errReq : Nat := 0
  errWrite : Bool := false
  errOver : Bool := false
  errOrigin : Nat := 0
  errAddr : Word := 0
  /-- B0 and B4: the flash controller drives the QSPI balls (R129, R134) -/
  qspi : Bool := false
  /-- SY_START.IMAGES: image roles loaded on this berth (R133) -/
  images : Nat := 0
  snapPend : Bool := false
  snapFrozen : Bool := false
  snapExpired : Bool := false
  snapBerths : Nat := 0
  /-- the boundary, in marks since tide 0, at which a tray-wide snapshot freezes (R44); none: the next one -/
  snapAt : Option Nat := none
  snapMark : Nat := 0
  snapTide : Nat := 0
  /-- a tray-wide TAKE armed the snapshot: the harbour reports BERTHS -/
  snapTray : Bool := false
  frozen : List Frozen := []
  latch : Vector (Option Latch) 16 := .replicate 16 none
deriving DecidableEq, Repr, Inhabited


/-! ### The tide timebase (chapter 02) -/

/-- State of the tide loop (TD_STAT.STATE, R52). -/
inductive Loop where
  | free | acquire | locked | hold | inputRetired
deriving DecidableEq, Repr, Inhabited

/-- The tide generator and, on B0 and B4, the tide loop (TD_ block). Periods are in 2⁻³² REF cycles (R55). -/
structure Td where
  ctrl : Word := 0x00000001
  filt : Word := 0x000A2864
  slew : Word := 0x00320010
  ofs : Word := 0
  ditherCfg : Word := 0
  stepWin : Word := 0x00001040
  /-- the generator runs (R70) -/
  running : Bool := false
  tide : Nat := 0
  mark : Nat := 0
  /-- the running mark began at REF cycle `markStart` and `markFrac` further units of 2⁻⁴⁰ REF cycles, the fraction that the
  generator's accumulator keeps (R55); it lasts `markLen` such units, of which `slewNow` are a correction (R56) -/
  markStart : Nat := 0
  markFrac : Nat := 0
  markLen : Nat := 0
  slewNow : Int := 0
  /-- nominal period; period estimate -/
  pn : Nat := 1789569706666667
  p : Nat := 1789569706666667
  loop : Loop := .free
  /-- the loop entered ACQUIRE from HOLD -/
  fromHold : Bool := false
  /-- reference point (R49): REF time in 2⁻³² REF cycles -/
  ref : Option Nat := none
  /-- no miss since the reference point: it is an accepted edge -/
  clean : Bool := false
  /-- accepted periods of ACQUIRE, newest first (R52) -/
  periods : List Nat := []
  /-- consecutive misses or rejections -/
  losses : Nat := 0
  /-- tides since entry into HOLD -/
  holdTides : Nat := 0
  /-- first transition of an edge under the glitch filter (R48) -/
  edgeAt : Option Nat := none
  /-- correction that marks to come still take, in 2⁻⁴⁰ REF cycles, lengthening positive, and the SLEW in use (R56, R60) -/
  slewLeft : Int := 0
  slewBy : Nat := 16
  phaseErr : Int := 0
  lfsr : Nat := 0
  /-- dither offset d of the tide, and of the tide before it (R67, R68) -/
  dith : Nat := 0
  dithPrev : Nat := 0
  /-- the offset of the tide whose mark 0 is still to come, where its flit arrived before it -/
  dithNext : Option Nat := none
  flitSeq : Nat := 0
  synced : Bool := false
  /-- held at its boundary until the harbour's count reaches its own (R61) -/
  held : Bool := false
  /-- tide and mark to load at the next mark boundary (R61) -/
  load : Option (Nat × Nat) := none
  /-- nominal period from the mark-0 flit, for the next mark-0 boundary (R60) -/
  pnNext : Option Nat := none
  /-- the nominal period that a new harbour's loop holds in HOLD: the one last received from the former harbour (R64) -/
  pnHold : Option Nat := none
  skew : Int := 0
  edgeOk : Nat := 0
  edgeRej : Nat := 0
  resync : Nat := 0
  lockLoss : Nat := 0
  inHist : Hist := []
  syncHist : Hist := []
deriving DecidableEq, Repr, Inhabited

/-! ### The chart (chapter 03) -/

/-- CH_STAT.STATE. -/
inductive ChartState where
  | none | reading | distributing | locked | failed
deriving DecidableEq, Repr, Inhabited

/-- One record of a chart: type, instance, body words (R73). -/
structure ChartRec where
  ty : Nat
  inst : Nat
  body : List Word
deriving DecidableEq, Repr, Inhabited

/-- What the harbour's chart loader does (R93, R100): `false` is slot A. -/
inductive ChartLoad where
  | idle
  /-- both headers are read; the first slot is chosen next -/
  | start
  /-- a slot is checked; the other follows if it fails -/
  | check (slot : Bool) (other : Bool)
  /-- the locked slot is read again for a berth; the other slot follows -/
  | reread (b : BId) (slot : Bool) (other : Bool)
deriving DecidableEq, Repr, Inhabited

/-- A fuse order in progress: the berths still to burn, the present one first (R104, R106). -/
inductive FuseJob where
  | count (cls target : Nat) (bs : List BId)
  | key (slot : Nat) (data : BitVec 384) (bs : List BId)
  | revoke (slot : Nat) (bs : List BId)
deriving DecidableEq, Repr, Inhabited

/-- The chart copy of one berth, its fuses and keys, and, on the harbour, the loader and CH_CMD (CH_ block). -/
structure Ch where
  state : ChartState := .none
  /-- locked slot -/
  slot : Option Bool := none
  agree : Bool := false
  ver : Word := 0
  rollback : Nat := 0
  keyIdx : Nat := 0
  trayId : Word := 0
  digest : List Byte := List.replicate 48 0
  recs : List ChartRec := []
  locked : Bool := false
  errCode : Nat := 0
  errSlot : Bool := false
  errIndex : Nat := 0
  loadFail : Nat := 0
  /-- blown fuses of CHART, PILOT_FW, POLICY, ACCEL_FW -/
  fuse : Vector Nat 4 := .replicate 4 0
  /-- B0 and B4: burned fuses of the key slots (octet i of the hash in bits [8i + 7:8i]), and revocation fuses -/
  keys : Vector (BitVec 384) 4 := .replicate 4 0
  revoked : Nat := 0
  /-- the stream received and not yet checked by the berth's own engine (R96) -/
  stream : List Byte := []
  sigDue : Bool := false
  load : ChartLoad := .idle
  /-- REF time at which the slot in reading started -/
  readSince : Nat := 0
  lastCmd : Nat := 0
  busy : Bool := false
  result : Nat := 0
  cmdReq : Nat := 0
  keyData : Vector Word 12 := .replicate 12 0
  fuseJob : Option FuseJob := none
  /-- a burn of the running order failed (FUSE_FAIL) -/
  fuseShort : Bool := false
  /-- berth whose distribution ends the running REDISTRIBUTE -/
  redistFor : Option BId := none
deriving DecidableEq, Repr, Inhabited

/-- Distribution to one berth (R96, R97), in the harbour's view. -/
inductive Dist where
  | none
  /-- the locked slot is to be read again first (R100) -/
  | reread
  /-- to be sent at the next mark boundary, from slot B or A -/
  | due (slotB : Bool)
  /-- sent; `first`: its first acknowledgement has met its conditions and the key and signature result is awaited -/
  | sent (slotB first : Bool)
  | agreed
  | held
deriving DecidableEq, Repr, Inhabited
/-! ### Rails and the log (chapter 05) -/

/-- Rail state (R139). -/
inductive RailState where
  | off | waiting | ramping | up | falling
deriving DecidableEq, Repr, Inhabited

/-- One rail of the graph: its state, the enable pin, and the running waits of R141–R143 and R155–R156. -/
structure Rail where
  st : RailState := .off
  en : Bool := false
  /-- the ON_DELAY of a WAITING rail has ended (R141) -/
  delayDone : Bool := false
  /-- the power-up setpoint write of an AVS rail is acknowledged (R142) -/
  setAck : Bool := false
  /-- power-good input level as sampled (RL_PGIN.PG) -/
  pg : Bool := false
  /-- confirmed below OFF since its release (RL_PGIN.OFF_OK, R155) -/
  offOk : Bool := false
  /-- released before its position in the walk (RAIL_OFF.OUT_OF_ORDER) -/
  early : Bool := false
  /-- the rail stuck (R156) -/
  timedOff : Bool := false
  /-- the scan in which a threshold condition of the rail was confirmed (R160) -/
  trip : Option Nat := none
deriving DecidableEq, Repr, Inhabited

/-- One ADC input: last reading and the run of each condition (R145, R146). A run counts consecutive
readings that meet the condition; `…Done` records that the confirmed condition has been answered. -/
structure AdcIn where
  code : Nat := 0
  valid : Bool := false
  softLow : Nat := 0
  softHigh : Nat := 0
  hardLow : Nat := 0
  hardHigh : Nat := 0
  /-- readings below OFF since release (R155) -/
  offRun : Nat := 0
  /-- readings at or above LOW of a RAMPING rail without power-good wait (R143) -/
  riseRun : Nat := 0
  /-- readings inside every limit, for ending a trump (R151) -/
  clearRun : Nat := 0
  softLowDone : Bool := false
  softHighDone : Bool := false
  hardLowDone : Bool := false
  hardHighDone : Bool := false
deriving DecidableEq, Repr, Inhabited

/-- Event counters of one ADC input (RL_EVT), 8-bit and saturating. -/
structure InEvt where
  low : Nat := 0
  high : Nat := 0
  hard : Nat := 0
  offTo : Nat := 0
deriving DecidableEq, Repr, Inhabited

/-- Event counters of one rail (RL_PG_EVT), 8-bit and saturating. -/
structure PgEvt where
  drop : Nat := 0
  timeout : Nat := 0
  ramp : Nat := 0
  avs : Nat := 0
deriving DecidableEq, Repr, Inhabited

/-- What raised a rail trump (R151): an input's threshold, a power-good line, or a rail's timing. -/
inductive TrumpSrc where
  | input (i : Nat)
  | pg (r : Nat)
  | rail (r : Nat)
deriving DecidableEq, Repr, Inhabited

/-- The rail sequencer and supervision of one berth (RL_ block, 0x000–0x3D0). -/
structure Rl where
  slot : SlotState := .down
  kindFault : Bool := false
  cause : Nat := 0
  firstRail : Nat := 15
  result : Nat := 0
  pos : Nat := 0
  rails : Vector Rail 13 := .replicate 13 {}
  ins : Vector AdcIn 24 := .replicate 24 {}
  thr : Vector Word 24 := .replicate 24 0x3FFF0000
  hard : Vector Word 24 := .replicate 24 0x0FFF0000
  incfg : Vector Word 24 := .replicate 24 0x000F0000
  graph0 : Vector Word 13 := .replicate 13 0x0000FF00
  graph1 : Vector Word 13 := .replicate 13 0
  /-- RL_FAULT: code, rail, input and overrun since the last read -/
  fltCode : Nat := 0
  fltRail : Nat := 0
  fltInput : Nat := 0
  fltOver : Bool := false
  /-- rail trumps raised and not yet cleared (R151) -/
  trumps : List TrumpSrc := []
  evt : Vector InEvt 24 := .replicate 24 {}
  pgEvt : Vector PgEvt 13 := .replicate 13 {}
  scans : Nat := 0
  /-- the input that the ADC converts next (R145); 24: the scan is about to end -/
  scanAt : Nat := 0
  powerups : Nat := 0
  faultShut : Nat := 0
  restarts : Nat := 0
  restartHist : Hist := []
  /-- a fault shutdown has happened since the last orderly completed power-up (R159) -/
  faultSince : Bool := false
  /-- a rail stuck during the walk (R156): the slot retires at its end -/
  stuck : Bool := false
  /-- the slot is to be RETIRED at the end of the walk by another rule (R328) -/
  retireAtEnd : Bool := false
  /-- REF time of the slot's last state change (ELAPSED of R163) -/
  since : Nat := 0
  /-- soft thresholds of PARTk widened during a setpoint change (R153): LOW and HIGH in use -/
  wide : Vector (Option (Nat × Nat)) 4 := .replicate 4 none
deriving DecidableEq, Repr, Inhabited

/-- A flash operation of the log region writer (R167): an erase of a sector, the SECTOR record of a sector being
opened with its generation, or the program of a record at a flash offset. -/
inductive LogOp where
  | erase (off : Nat)
  | sector (off gen : Nat) (r : LogRec)
  | record (off : Nat) (r : LogRec)
deriving DecidableEq, Repr, Inhabited

/-- A berth's log writer (R165) and, on the harbour, the log region writer (R166–R169). -/
structure LogSt where
  /-- the writer runs: the berth has locked the chart -/
  on : Bool := false
  seq : Nat := 0
  drop : Nat := 0
  /-- records of this berth dropped since its last record that fitted -/
  lossDue : Nat := 0
  /-- the part-filled buffer: its records, oldest first, and its deck buffer -/
  cur : List LogRec := []
  curBuf : Option Nat := none
  /-- harbour: records waiting for the flash, by deck buffer, oldest first (R167) -/
  queue : List (List LogRec × Option Nat) := []
  /-- harbour: records of each origin dropped on arrival since its last appended record -/
  originDrop : Vector Nat 8 := .replicate 8 0
  /-- harbour: the RESET record still has to join the queue, ahead of every record (R169) -/
  awaitReset : Bool := false
  /-- harbour: the head search runs (R169) -/
  finding : Bool := false
  /-- harbour: the head is found (RL_LOG_STAT.READY) -/
  ready : Bool := false
  /-- harbour: the current sector (flash offset), its generation, its next slot, torn slots found -/
  sector : Option Nat := none
  gen : Nat := 0
  slotN : Nat := 0
  torn : Nat := 0
  /-- harbour: the flash operation in progress, and those that open a sector and wait -/
  busy : Option LogOp := none
  ops : List LogOp := []
  /-- the write guard holds (R168) -/
  guard : Bool := false
deriving DecidableEq, Repr, Inhabited

/-! ### Power (chapter 06) -/

/-- Admission of a slot (PW_ADMIT.STATE, R175). -/
inductive Admit where
  | none | waiting | admitted | unadmitted
deriving DecidableEq, Repr, Inhabited

/-- One core partition: request, caps (31 = no cap), applied step, and its setpoint (R183–R194). -/
structure Part where
  reqStep : Nat := 0
  margin : Nat := 0
  applied : Nat := 0
  /-- ready for frequency orders (R195) -/
  ready : Bool := false
  /-- a frequency order awaits acknowledgement: the highest step it or the step before it stands for (R190) -/
  orderPend : Option Nat := none
  sTherm : Nat := 31
  sCurr : Nat := 31
  sPwr : Nat := 31
  sPin : Nat := 31
  sBw : Nat := 31
  pwrBudget : Bool := false
  /-- PW_VSET: setpoint in mV as R186 takes it, and target -/
  setpoint : Nat := 0
  target : Nat := 0
  /-- last acknowledged setpoint -/
  acked : Nat := 0
  /-- a setpoint write is queued or in progress -/
  writing : Bool := false
  /-- the last write of the target has settled (R187) -/
  settled : Bool := true
  /-- REF time of the last settling (R196) -/
  settledAt : Nat := 0
  /-- failed attempts of the present target's write, settling failures included (R186, R187) -/
  tries : Nat := 0
  /-- the step whose target is written for a raise under R194 -/
  raiseTo : Option Nat := none
  /-- the value of an acknowledged write that has not settled yet (R187) -/
  settling : Option Nat := none
  /-- thermal and current loops (R198): the inputs that act on the cap, and the boundary count of its last lowering -/
  thermIns : List Nat := []
  thermLow : Nat := 0
  currIns : List Nat := []
  currLow : Nat := 0
  /-- applied step at the last mark boundary (STEP_FROM of R206) -/
  lastApplied : Nat := 0
  /-- REF time of the last lowering on a cap, and the applied step before it (R202) -/
  lowAt : Option Nat := none
  lowFrom : Nat := 0
deriving DecidableEq, Repr, Inhabited

/-- A setpoint write in an AVSBus controller's queue (R186). -/
structure AvsWrite where
  rail : Nat
  mv : Nat
  /-- power-up setpoint of R142 -/
  powerUp : Bool
  attempts : Nat
  /-- AVSBus Status is read before this repeat (R186) -/
  statusFirst : Bool
deriving DecidableEq, Repr, Inhabited

/-- An AVSBus controller (PW_AVS_STAT, PW_AVS_TXN, PW_AVS_FAIL). -/
structure Avs where
  retired : Bool := false
  /-- the controller drives its AVS_CLK and AVS_MDATA balls (R122, R134) -/
  drv : Bool := false
  queue : List AvsWrite := []
  /-- the transaction in progress reads AVSBus Status after a failed attempt -/
  statusRead : Bool := false
  /-- rail whose Target Rail Voltage is read after that, or is being read, to confirm its setpoint (R185) -/
  confirm : Option Nat := none
  lastAck : Nat := 0
  txn : Nat := 0
  fail : Nat := 0
  hist : Hist := []
deriving DecidableEq, Repr, Inhabited

/-- A throttle-ledger entry (R206). -/
structure LedgerEnt where
  reason : Nat := 0
  parts : Nat := 0
  /-- applied steps at the boundary before the opening one, and lowest during the entry, by partition -/
  stepFrom : Vector Nat 4 := .replicate 4 0
  stepTo : Vector Nat 4 := .replicate 4 0
  isOpen : Bool := false
  tide : Nat := 0
  mark : Nat := 0
  dur : Nat := 0
deriving DecidableEq, Repr, Inhabited

/-- The throttle ledger of one slot (R204–R206). -/
structure Ledger where
  act : Nat := 0
  next : Nat := 0
  overwrites : Nat := 0
  sum : Vector Nat 12 := .replicate 12 0
  ent : Vector LedgerEnt 32 := .replicate 32 {}
deriving DecidableEq, Repr, Inhabited

/-- The berth-local power block (PW_ 0x100 and up). -/
structure Pw where
  /-- the berth's copies of its grant and admission -/
  grant : Nat := 0
  admis : Admit := .none
  parts : Vector Part 4 := .replicate 4 {}
  trim : Word := 0x00001900
  track : Word := 0x00001E1E
  vfs : Vector Word 13 := .replicate 13 0x000004B0
  iscale : Vector Word 7 := .replicate 7 0
  therm : Word := 0x00005040
  og : Word := 0x00000002
  stepLim : Word := 0x00000001
  avg : Nat := 0
  peak : Nat := 0
  partialPwr : Bool := false
  binv : Vector Nat 8 := .replicate 8 0
  /-- PW_CLFMAX: ceiling code of cluster c in bin b at index 8c + b -/
  clfmax : Vector Nat 512 := .replicate 512 0
  avs : Vector Avs 2 := .replicate 2 {}
  /-- estimates of the scans ended within the running mark: sum and count (R200) -/
  estSum : Nat := 0
  estCnt : Nat := 0
  /-- consecutive boundaries over the grant, and well below it (R201) -/
  overRun : Nat := 0
  underRun : Nat := 0
  /-- the power loop acted at the coming boundary: its counts restart there -/
  ogDone : Bool := false
  /-- mark boundaries counted by the loops, and per input the boundaries in a row that meet R198's release test -/
  bnd : Nat := 0
  clear : Vector Nat 24 := .replicate 24 0
  /-- the grant was cut under R180 since the last slot mark -/
  cutSince : Bool := false
  /-- the window clamped this slot's grant (BREAKWATER charge of R204) -/
  grantClamped : Bool := false
  /-- admission was withdrawn and the slot is not yet DOWN (TRUMP charge) -/
  trumped : Bool := false
  /-- the slot is being shed -/
  shedding : Bool := false
  ledger : Ledger := {}
deriving DecidableEq, Repr, Inhabited

/-- Tray-wide power state, held on the harbour and copied to the standby (PW_ 0x000–0x0FF). -/
structure TrayPw where
  budget : Nat := 0
  trayStep : Nat := 0x7D0
  rot : Nat := 0
  shedSlot : Option Nat := none
  floorOver : Bool := false
  floorRun : Nat := 0
  grant : Vector Nat 8 := .replicate 8 0
  lastReq : Vector Nat 8 := .replicate 8 0
  grantReq : Vector Nat 8 := .replicate 8 0
  admis : Vector Admit 8 := .replicate 8 .none
  shed : Vector Bool 8 := .replicate 8 false
  /-- grants computed at the window opening, waiting for each slot's mark -/
  newGrant : Vector (Option Nat) 8 := .replicate 8 none
  clamped : Vector Bool 8 := .replicate 8 false
  markAvg : Vector Nat 8 := .replicate 8 0
  budgetCut : Nat := 0
  shedCnt : Nat := 0
deriving DecidableEq, Repr, Inhabited

/-! ### Cooling and leaks (chapter 07) -/

/-- State of a cooling channel (CL_STAT.STATE, R218). -/
inductive CoolState where
  | unused | kick | run | stalled | retired
deriving DecidableEq, Repr, Inhabited

/-- One cooling channel. -/
structure Cool where
  cfg0 : Word := 0
  cfg1 : Word := 0x0000000A
  dmin : Word := 0
  cmd : Nat := 1000
  st : CoolState := .unused
  /-- off phase of a retry (R221) -/
  offPhase : Bool := false
  reached : Bool := false
  wdog : Bool := false
  hold : Nat := 0
  /-- duty in force on the output since the last PWM period start (R211); none: released under R122 -/
  pwm : Option Nat := none
  /-- fan: T of the last measurement in COOL cycles, REF time of the last accepted edge, edges since the kick -/
  lastT : Nat := 0
  edgeAt : Nat := 0
  edges : Nat := 0
  valid : Bool := false
  /-- pump: speed of the last gate, direction, position, counts of the running gate -/
  rpm : Nat := 0
  reverse : Bool := false
  pos : Nat := 0
  revs : Nat := 0
  fwd : Nat := 0
  rev : Nat := 0
  indexSeen : Nat := 0
  stallCnt : Nat := 0
  encErr : Nat := 0
  idxErr : Nat := 0
  kicks : Nat := 0
  stallHist : Hist := []
  encHist : Hist := []
deriving DecidableEq, Repr, Inhabited

/-- One leak rope: its configuration, state, latch, and the run of each condition (R229). -/
structure Rope where
  cfg : Word := 0x0FFF0000
  st : RopeState := .notFitted
  latch : Bool := false
  wetRun : Nat := 0
  openRun : Nat := 0
  dryRun : Nat := 0
  /-- the confirmed condition has been answered; the scan in which the latch was set (R236) -/
  wetDone : Bool := false
  openDone : Bool := false
  latchScan : Nat := 0
  wetCnt : Nat := 0
  openCnt : Nat := 0
  hist : Hist := []
deriving DecidableEq, Repr, Inhabited

/-- The cooling and leak blocks of one berth (CL_ and LK_). -/
structure Cl where
  ch : Vector Cool 3 := .replicate 3 {}
  /-- REF time of the silence timer's last restart, and its value while suspended in SLEEP (R225) -/
  silenceFrom : Nat := 0
  /-- REF time of the last HOST_ACT notice (R236) -/
  noticeAt : Option Nat := none
  silenceHeld : Option Nat := none
  /-- zones boosted by each berth's channels, as this berth knows (R223) -/
  boost : Vector Word 8 := .replicate 8 0
  rope : Vector Rope 2 := .replicate 2 {}
  valve : Word := 0
  /-- VALVE output: none released, some level driven (R234) -/
  valveOut : Option Bool := none
  /-- states and latches of every berth's ropes as this berth holds them (R230) -/
  ropeView : Vector RopeState 16 := .replicate 16 .notFitted
  latchView : Vector Bool 16 := .replicate 16 false
deriving DecidableEq, Repr, Inhabited

/-! ### The hawser link (chapter 10) -/

/-- Link state (HW_STAT.STATE). -/
inductive LinkState where
  | off | train | up | retrain | retired
deriving DecidableEq, Repr, Inhabited

/-- Opcode of an order (R321). -/
inductive OrdOp where
  | read | write | freq | ctrl
deriving DecidableEq, Repr, Inhabited

/-- Who issued an order: the mailbox of a requester, a DMA engine, the power block's FREQ orders, the
service engine's sequence, or its report poll (R323). -/
inductive OrdOwner where
  | mailbox (req : ReqId)
  | dma (engine : Fin 2)
  | freq (part : Nat) (step : Nat)
  /-- the engine's order number: a reply to an order the engine has given up is ignored -/
  | service (num : Nat)
  | report
  /-- a mailbox order of a pilot that has restarted: its completion is discarded (R369) -/
  | discarded
deriving DecidableEq, Repr, Inhabited

/-- An order in the making or outstanding: its message fields (R321) and, for READ and WRITE by the
mailbox, its local deck buffer (R331). `args` are the payload words P2–P6 of CTRL and FREQ orders. -/
structure Order where
  op : OrdOp
  owner : OrdOwner
  addr : Nat := 0
  len : Nat := 0
  buf : Nat := 0
  data : List Byte := []
  args : List Word := []
deriving DecidableEq, Repr, Inhabited

/-- State of one tag (R323, R325). -/
inductive TagSt where
  | free
  | used (o : Order)
  /-- completed mailbox order whose completion entry waits in HW_CPL -/
  | done (req : ReqId)
  /-- timed out (R325); with the requester whose completion entry is still unread -/
  | quarantined (unread : Option ReqId)
deriving DecidableEq, Repr, Inhabited

/-- A sequenced frame kept in the replay buffer: FTYPE, FSEQ and payload words P1–P6 (R314). -/
structure TxFrame where
  ftype : Nat
  fseq : Nat
  words : List Word
deriving DecidableEq, Repr, Inhabited

/-- A queued message: its tag, and its frames (FTYPE and P1–P6), header first (R320). -/
structure TxMsg where
  tag : Nat
  frames : List (Nat × List Word)
deriving DecidableEq, Repr, Inhabited

/-- A message received or under assembly (R320): kind 0x3 REPLY or 0x4 EVENT, header fields, data so far,
and the frames it occupies in the receive queue (R318). -/
structure RxMsg where
  kind : Nat
  tag : Nat
  op : Nat
  len : Nat
  status : Nat
  data : List Byte
  frames : Nat
deriving DecidableEq, Repr, Inhabited

/-- The mailbox staging registers of one requester (R331, R478). -/
structure Mailbox where
  addrLo : Word := 0
  addrHi : Word := 0
  buf : Word := 0
  arg : Vector Word 5 := .replicate 5 0
  resTag : Nat := 0
  resAcc : Bool := false
  resCode : Nat := 0
deriving DecidableEq, Repr, Inhabited

/-- A completion entry (HW_CPL). -/
structure Cpl where
  tag : Nat
  status : Nat
  len : Nat
  req : ReqId
deriving DecidableEq, Repr, Inhabited

/-- An event entry (HW_EVQ): the local deck buffer holds its data. -/
structure Evt where
  code : Nat
  buf : Nat
  len : Nat
deriving DecidableEq, Repr, Inhabited

/-- The counters of the link (HW_ 0x080–0x0CC). -/
structure HwCnt where
  crcErr : Nat := 0
  resent : Nat := 0
  nakSent : Nat := 0
  retrains : Nat := 0
  trainFail : Nat := 0
  timeouts : Nat := 0
  late : Nat := 0
  falseLock : Nat := 0
  proto : Nat := 0
  elastic : Nat := 0
  freqFail : Nat := 0
  txf : Nat := 0
  rxf : Nat := 0
deriving DecidableEq, Repr, Inhabited

/-- Receiver alignment and training (R305, R307–R313). -/
structure HwRx where
  /-- the search (R307): the 32 most recent bits, the newest in bit 31, how many of them (at most 32) have been received, the offset
  of the newest, and the hit counts that are not 0 -/
  recent : Word := 0
  seen : Nat := 0
  pos : Nat := 0
  hits : List (Nat × Nat) := []
  lock : Bool := false
  offset : Nat := 0
  /-- offset excluded after a false lock (R308) -/
  excluded : Option Nat := none
  /-- a frame has passed its CRC since lock: the lock stands -/
  proven : Bool := false
  /-- frames examined since lock, up to 8, while not proven -/
  sinceLock : Nat := 0
  badMarkers : Nat := 0
  hist : BitVec 58 := BitVec.allOnes 58
  validTrain : Nat := 0
  readyTrain : Nat := 0
  localReady : Bool := false
  remoteReady : Bool := false
  nakOut : Bool := false
  /-- ACKSEQ of this end: last frame received in order -/
  last : Nat := 0xFF
  /-- message under assembly, and complete messages waiting, oldest first -/
  asm : Option RxMsg := none
  queue : List RxMsg := []
deriving DecidableEq, Repr, Inhabited

/-- Transmitter, retry and replay (R310, R314–R317). -/
structure HwTx where
  on : Bool := false
  hist : BitVec 58 := BitVec.allOnes 58
  /-- trailing TRAIN frames still to send after entering UP -/
  trailing : Nat := 0
  trainId : Nat := 0
  next : Nat := 0
  acked : Nat := 0xFF
  remoteWin : Nat := 0
  /-- unacknowledged frames, oldest first -/
  replayBuf : List TxFrame := []
  /-- index into the replay buffer of the next frame to resend -/
  replayPos : Option Nat := none
  /-- NAK of the last frame received, and ACKSEQ of the NAK that started the current replay -/
  nakSeen : Bool := false
  nakAck : Nat := 0xFF
  /-- resends of the oldest unacknowledged frame -/
  resends : Nat := 0
  /-- frame whose retries caused the last training (R313) -/
  blame : Option Nat := none
  freqQ : List TxMsg := []
  ctrlQ : List TxMsg := []
  rwQ : List TxMsg := []
  /-- frames still to send of the message on the lane -/
  cur : List (Nat × List Word) := []
  /-- consecutive frames sent that were not IDLE (R319) -/
  nonIdle : Nat := 0
deriving DecidableEq, Repr, Inhabited

/-- The hawser link of one berth (HW_ 0x000–0x0CC). -/
structure Hw where
  cfg : Word := 0x00034008
  tmo : Word := 0x00C803E8
  link : LinkState := .off
  lastCmd : Nat := 0
  cmdResult : Nat := 0
  cmdReq : Nat := 0
  rx : HwRx := {}
  tx : HwTx := {}
  tags : Vector TagSt 64 := .replicate 64 .free
  /-- FREQ orders waiting for their resend (R326): partition and step -/
  freqRetry : List (Nat × Nat) := []
  /-- hardware orders waiting for a free tag, oldest first (R323) -/
  waiting : List Order := []
  remoteVer : Nat := 0
  remoteCap : Nat := 0
  limit : Nat := 0
  lastCause : Nat := 0
  mbox : Vector Mailbox 16 := .replicate 16 {}
  cpl : List Cpl := []
  evq : List Evt := []
  cnt : HwCnt := {}
  hist : Hist := []
  /-- the running training began within 20 µs after a holdover: its failure counts no event (R333) -/
  grace : Bool := false
deriving DecidableEq, Repr, Inhabited

/-! ### The service engine (chapter 11) -/

/-- The CTRL functions (R338). -/
inductive CtrlFn where
  | fwCheck | fwStart | clocks | memRepair | links | coresGo | quiesce | resetAssert | resetRelease | unquiesce
deriving DecidableEq, Repr, Inhabited

/-- Where the engine stands within its stage or reset: the order whose reply it awaits, or the wait it is in. -/
inductive SvcStep where
  | idle
  /-- BRING_UP accepted, waiting for the slot to be UP -/
  | waitSlot
  | waitLink
  | ident
  | push (off : Nat)
  | fwCrc
  /-- CTRL order of the function outstanding -/
  | ctrl (f : CtrlFn)
  /-- step running; next status read due -/
  | poll (f : CtrlFn)
  /-- status READ outstanding -/
  | status (f : CtrlFn)
  | repairRead
  | fuseRead
  /-- the piece at byte offset `off` of the table's read number `tries` -/
  | tableRead (off : Nat) (tries : Nat)
  | enableWrite
  | limitWrite (off : Nat)
  | enableBack
  | limitBack (off : Nat)
  /-- the reset hold runs -/
  | holding
deriving DecidableEq, Repr, Inhabited

/-- Comparison runs of one unit (R354). -/
structure Disp where
  disputed : Bool := false
  bad : Nat := 0
  good : Nat := 0
deriving DecidableEq, Repr, Inhabited

/-- The service engine of one berth (HW_ 0x200–0x320). -/
structure Svc where
  st : SvcState := .off
  step : SvcStep := .idle
  /-- number of the engine's last order, and a BUSY reply waiting for its reissue (R339) -/
  num : Nat := 0
  busy : Bool := false
  /-- READ and WRITE orders waiting for a buffer of the hawser hand (R384) -/
  want : List Order := []
  lastCmd : Nat := 0
  cmdResult : Nat := 0
  cmdReq : Nat := 0
  fail : Nat := 0
  detail : Nat := 0
  id : Word := 0
  rom : Word := 0
  lim : Word := 0x02580004
  dispCfg : Word := 0x01021E08
  dispLast : Nat := 0
  fenced : Nat := 0
  stageT : Vector Nat 7 := .replicate 7 0
  /-- REF time of the running reset's, and of the running stage's start -/
  since : Nat := 0
  stageSince : Nat := 0
  /-- HW_SVC_CORES as the last CORES stage or disablement left it -/
  cores : Word := 0
  /-- the push in progress: firmware slot B, body length, entry, digest checked at load (R342) -/
  pushB : Bool := false
  pushLen : Nat := 0
  pushEntry : Nat := 0
  pushDigest : List Byte := []
  fuse : BitVec 1024 := 0
  repair : BitVec 1024 := 0
  tableInvalid : BitVec 1024 := 0
  runtimeOff : BitVec 1024 := 0
  defect : BitVec 1024 := 0
  /-- run-time disablements an un-retire order clears at the next CORES stage (R460) -/
  reenable : BitVec 1024 := 0
  /-- frequency table bytes read so far, then its 8,192 codes -/
  tableBuf : List Byte := []
  codes : List Byte := []
  edges : Vector Nat 8 := .replicate 8 0
  /-- enable map and enforced limits as written, compared with the read-backs -/
  enMap : List Byte := []
  limits : List Byte := []
  /-- reset in progress: level, unit, mode ordered, escalated, sub-step -/
  rstLevel : Nat := 0
  rstUnit : Nat := 0
  rstAbsorb : Bool := false
  escalated : Bool := false
  /-- within a CHIP reset: the stage that runs again, else OFF -/
  chipStage : SvcState := .off
  linksPend : Bool := false
  disp : Vector Disp 5 := .replicate 5 {}
  /-- service state in the latest slot flit of each slot, as this berth holds it (R357) -/
  peer : Vector (Option SvcState) 8 := .replicate 8 none
  /-- SEQ of the previous report block, and mark boundaries since the last poll -/
  lastSeq : Option Word := none
  pollMarks : Nat := 0
  reporting : Bool := false
  coreHist : List (Nat × Hist) := []
  runs : Nat := 0
  fails : Nat := 0
  rst : Vector Nat 4 := .replicate 4 0
  drainEsc : Nat := 0
  disputes : Nat := 0
  stateFix : Nat := 0
deriving DecidableEq, Repr, Inhabited

/-! ### Pilot cores, images, the deck and DMA (chapter 12) -/

/-- State of a pilot (PL_STAT.STATE). -/
inductive PilotState where
  | off | loading | running | halted
deriving DecidableEq, Repr, Inhabited

/-- The machine-mode CSRs that hold state (R363). -/
structure Csrs where
  mie : Bool := false
  mpie : Bool := false
  /-- mstatus.MPP: true is machine (0b11), false user (0b00) -/
  mppM : Bool := false
  mprv : Bool := false
  mtvec : Word := 0x20000000
  /-- mie: software, timer, external enables -/
  msie : Bool := false
  mtie : Bool := false
  meie : Bool := false
  mepc : Word := 0
  mcause : Word := 0
  mtval : Word := 0
  mscratch : Word := 0
  mcycle : Nat := 0
  minstret : Nat := 0
  mcounteren : Nat := 0
  mcountinhibit : Nat := 0
  pmpcfg : Vector Byte 16 := .replicate 16 0
  pmpaddr : Vector Word 16 := .replicate 16 0
deriving DecidableEq, Repr, Inhabited

/-- One pilot core (PL_ block 0x000–0x064 and R362–R371). -/
structure Pilot where
  st : PilotState := .off
  lastResult : Nat := 0
  lastCause : Nat := 0
  /-- x1 to x31 at index 0 to 30 -/
  regs : Vector Word 31 := .replicate 31 0
  pc : Word := 0
  machine : Bool := true
  csr : Csrs := {}
  /-- word address reserved by LR.W (R364) -/
  resv : Option Nat := none
  waiting : Bool := false
  wdog : Nat := 1000
  mtime : Nat := 0
  mtimecmp : Nat := 0xFFFFFFFFFFFFFFFF
  msip : Bool := false
  irqPend : Word := 0
  irqEn : Word := 0
  crash : Word := 0
  crashPc : Word := 0
  restarts : Nat := 0
  wdogExp : Nat := 0
  /-- harbour tides of WDOG and ORDER restarts (R370) -/
  hist : Hist := []
  failedStreams : Nat := 0
  /-- the copy or restart stream has passed; start at the next mark boundary (R365, R369) -/
  startDue : Bool := false
  entry : Nat := 0
  bodyLen : Nat := 0
  /-- a restart stream runs -/
  stream : Bool := false
  /-- the stream failed and is repeated at the next tide (R370) -/
  retry : Bool := false
  /-- REF time of the last kick (R368) -/
  kickAt : Nat := 0
deriving DecidableEq, Repr, Inhabited

/-- State of an image role (PL_IMG_STAT.STATE). -/
inductive ImgState where
  | none | loading | loaded | failed
deriving DecidableEq, Repr, Inhabited

/-- One image role on the harbour (PL_IMG_ registers, R372–R379). -/
structure ImgRole where
  st : ImgState := .none
  slotB : Bool := false
  store : Bool := false
  rollback : Nat := 0
  keyIdx : Nat := 0
  ver : Nat := 0
  digest : List Byte := []
  entry : Nat := 0
  bodyLen : Nat := 0
deriving DecidableEq, Repr, Inhabited

/-- The region check that the image loader runs (R374): the role's regions not ranked yet, or a region with the one that
follows if it fails; `order`: a LOAD order names the region. -/
inductive ImgJob where
  | idle
  | role (r : Nat)
  | region (r : Nat) (slotB : Bool) (rest : List Bool) (order : Bool)
deriving DecidableEq, Repr, Inhabited

/-- The image loader of the harbour. -/
structure Img where
  roles : Vector ImgRole 4 := .replicate 4 {}
  lastCmd : Nat := 0
  busy : Bool := false
  result : Nat := 0
  cmdReq : Nat := 0
  errCode : Nat := 0
  errRole : Nat := 0
  errSlot : Bool := false
  errBerth : Nat := 0
  job : ImgJob := .idle
  /-- roles still to load at lock, in order, and the LOAD order that waits: role and slot B -/
  todo : List Nat := []
  order : Option (Nat × Bool) := none
  /-- every pilot restarts at the next mark boundary (R378) -/
  loadDue : Bool := false
deriving DecidableEq, Repr, Inhabited

/-- A hand instance: a class of R83 on one berth. -/
structure Hand where
  berth : BId
  cls : Nat
deriving DecidableEq, Repr, Inhabited

/-- The deck share and hands of one berth (DK_ block). -/
structure Dk where
  /-- the share forms part of the deck (R380) -/
  inDeck : Bool := false
  /-- held local buffers, rising, with the hand each is charged to -/
  held : List (Nat × Hand) := []
  /-- buffers drawn on this berth's lend quota by the harbour's classes 6 and 7 (R383) -/
  drawn : List Nat := []
  /-- buffers handed over, with the requester that may release each (R385) -/
  handed : List (Nat × ReqId) := []
  lent : Nat := 0
  hand : Vector Word 8 := .replicate 8 0
  peak : Vector Nat 8 := .replicate 8 0
  deny : Vector Nat 8 := .replicate 8 0
  badFree : Nat := 0
  /-- mark boundaries counted since main-reset release (R387) -/
  rot : Nat := 0
  ownSel : Vector Nat 16 := .replicate 16 0
deriving DecidableEq, Repr, Inhabited

/-- State of a DMA engine (DM_STAT.STATE). -/
inductive DmaState where
  | idle | running | halted | retired
deriving DecidableEq, Repr, Inhabited

/-- One DMA engine with its 32 descriptor slots of 8 words (slot i word w at index 8i + w). -/
structure Dma where
  st : DmaState := .idle
  cur : Nat := 0
  susp : Option Nat := none
  pre : Option Nat := none
  /-- the running slot is the pre-emptor (R394) -/
  preRun : Bool := false
  head : Nat := 0
  tail : Nat := 0
  /-- hawser orders outstanding: offset, length, staging buffer, tag if issued -/
  out : List (Nat × Nat × Nat × Nat) := []
  /-- offsets completed OK beyond RESUME -/
  doneOff : List (Nat × Nat) := []
  /-- next offset to issue -/
  nextOff : Nat := 0
  /-- fault waiting for outstanding orders: code, access cause, hawser status -/
  flt : Option (Nat × Nat × Nat) := none
  /-- a PILOT_RESET halt waits for the burst boundary (R369) -/
  haltDue : Bool := false
  done : Nat := 0
  faults : Nat := 0
  bytes : Nat := 0
  lastCmd : Nat := 0
  cmdResult : Nat := 0
  cmdReq : Nat := 0
  desc : Vector Word 256 := .replicate 256 0
  hist : Hist := []
deriving DecidableEq, Repr, Inhabited

/-! ### The two-wire port (chapter 13) -/

/-- What the port does on the bus (TW_STAT.PHASE): nothing, other traffic since a takeover, a beacon, an arbitration backoff. -/
inductive TwPhase where
  | idle | busy | beacon | backoff
deriving DecidableEq, Repr, Inhabited

/-- Counters of the two-wire port (TW_ 0x040–0x070). -/
structure TwCnt where
  xfer : Nat := 0
  nack : Nat := 0
  pecErr : Nat := 0
  lenErr : Nat := 0
  arbLost : Nat := 0
  arbEdge : Nat := 0
  notify : Nat := 0
  notifyNak : Nat := 0
  beacon : Nat := 0
  beaconCut : Nat := 0
  wake : Nat := 0
  stretchTo : Nat := 0
  hang : Nat := 0
deriving DecidableEq, Repr, Inhabited

/-- The two-wire port of B0 or B4 (TW_ block). -/
structure Tw where
  cfg : Word := 0x006400C1
  /-- the port belongs to the harbour (R401) -/
  active : Bool := false
  phase : TwPhase := .idle
  /-- the bus state that the standby island holds: a transaction with this port has not ended (R422) -/
  busMid : Bool := false
  ctrlRetired : Bool := false
  /-- a signal is due (R413) -/
  sigDue : Bool := false
  /-- a notify was refused, and its 100 ms have not passed (R415) -/
  notifyWait : Bool := false
  edgeRun : Nat := 0
  attn : Nat := 0
  attnEn : Nat := 0x7FF
  lastResult : Nat := 0
  lastIndex : Nat := 0
  lastCmd : Nat := 0
  cnt : TwCnt := {}
  arbHist : Hist := []
  /-- SDA held low by a beacon; SCL held low by a STRETCH match; an address match wakes the device -/
  sdaLow : Bool := false
  sclLow : Bool := false
  waking : Bool := false
deriving DecidableEq, Repr, Inhabited

/-! ### The USB port (chapter 14) -/

/-- USB device state (US_STAT.DEVSTATE). -/
inductive UsbDev where
  | detached | powered | default | address | configured
deriving DecidableEq, Repr, Inhabited

/-- DFU state (US_DFU_STAT.STATE). -/
inductive DfuState where
  | idle | dnloadSync | dnBusy | dnloadIdle | manifestSync | uploadIdle | error
deriving DecidableEq, Repr, Inhabited

/-- A queued telemetry record (R444–R446): its bytes, the buffers it occupies, and a pushed buffer. -/
structure TelRec where
  bytes : List Byte
  bufs : List Nat
  pushed : Bool
deriving DecidableEq, Repr, Inhabited

/-- A flash operation of a download in progress: flash berth, flash offset, and the bytes of a program. -/
inductive DfuOp where
  | erase (f : BId) (off : Nat)
  | program (f : BId) (off : Nat) (bs : List Byte)
deriving DecidableEq, Repr, Inhabited

/-- The DFU interface (R435–R443). -/
structure Dfu where
  st : DfuState := .idle
  status : Nat := 0
  refuse : Nat := 0
  check : Nat := 0
  /-- a download runs, up to the end of its manifestation -/
  active : Bool := false
  /-- next block number expected, and bytes received -/
  block : Nat := 0
  len : Nat := 0
  /-- the region's first 256 bytes, held until manifestation (R439) -/
  held : List Byte := []
  /-- bytes received and not yet programmed, their place in the region, and their deck buffers -/
  staged : List Byte := []
  stagedAt : Nat := 256
  bufs : List Nat := []
  /-- the region is erased below this offset -/
  erasedTo : Nat := 0
  /-- the last block started a sector erase -/
  eraseBlk : Bool := false
  op : Option DfuOp := none
  /-- next offset of an upload -/
  upPos : Nat := 0
deriving DecidableEq, Repr, Inhabited

/-- The USB port of B0 or B4 (US_ block). -/
structure Us where
  cfg : Word := 0x0000000F
  active : Bool := false
  vbus : Bool := false
  attached : Bool := false
  hs : Bool := false
  dev : UsbDev := .detached
  susp : Bool := false
  rwake : Bool := false
  addr : Nat := 0
  halt81 : Bool := false
  config : Nat := 0
  testMode : Nat := 0
  /-- alternate setting of the DFU interface: the target region (R436) -/
  alt : Nat := 0
  lastResult : Nat := 0
  lastIndex : Nat := 0
  lastReq : Nat := 0
  lastCount : Nat := 0
  dfu : Dfu := {}
  dfuPoll : Word := 0x00050190
  telCfg : Nat := 0x1F
  telSeq : Nat := 0
  telQueue : List TelRec := []
  telDrop : Nat := 0
  /-- records dropped since the last LOSS record -/
  telLoss : Nat := 0
  /-- bytes of the front record already delivered, and the length of a packet sent and not acknowledged -/
  telSent : Nat := 0
  telFlight : Option Nat := none
  /-- the last packet filled a packet and the queue is empty: a zero-length packet is due -/
  zlpDue : Bool := false
  pushStat : Vector Nat 16 := .replicate 16 0
  ctrlXfer : Nat := 0
  cut : Nat := 0
  busReset : Nat := 0
  suspends : Nat := 0
  telRec : Nat := 0
  dfuDone : Nat := 0
  dfuFail : Nat := 0
  /-- an ATTN record has made a remote wakeup due (R448) -/
  wakeReq : Bool := false
deriving DecidableEq, Repr, Inhabited

/-! ### The arrays (chapter 08) -/

/-- State of an array (AR_STAT.STATE, R248). -/
inductive ArrSt where
  | unverified | busy | valid | degraded | invalid | retired
deriving DecidableEq, Repr, Inhabited

/-- One array: its cells as last sensed or programmed, its pair map, calibration, tests and retirements. -/
structure Arr where
  st : ArrSt := .unverified
  /-- mode of its group: false AVERAGE, true CALIBRATE -/
  calMode : Bool := false
  /-- level of the cell in row r, column c at address 160 r + c, as last sensed or programmed; 0 where absent -/
  cells : Mem := []
  /-- the pair map (R241): copy j of logical output i at index 3 i + j; 76 where the mode has no such copy -/
  map : Vector Nat 192 := Vector.ofFn fun i => if i.val / 3 < 24 then i.val / 3 + 24 * (i.val % 3) else 76
  /-- retired columns -/
  ret : BitVec 160 := 0
  /-- retirements decided during a run, taking effect at its end (R247): columns, and the array itself -/
  retPend : List Nat := []
  gone : Bool := false
  /-- columns whose un-retirement waits for the order that runs on the array (R267) -/
  unret : List Nat := []
  /-- a PROG or REPAIR stopped within its rows: only a PROG or VERIFY takes the array out of INVALID (R255) -/
  halfDone : Bool := false
  gain : Nat := 0x4000
  offs : Nat := 0
  calOk : Bool := false
  calTide : Nat := 0
  /-- a calibration waits for the next idle mark, or has started; rejected candidates of it so far (R259, R260) -/
  calDue : Bool := false
  calRun : Bool := false
  calTries : Nat := 0
  /-- a mass mismatch asks for the calibration before the next test slot; such a calibration has ended since the last one (R264) -/
  massDue : Bool := false
  massDone : Bool := false
  /-- idle marks whose test slot has still to run (R263) -/
  testDue : Nat := 0
  /-- expected codes: mask m of column c at index 4 c + m (R262) -/
  expect : Vector Nat 640 := .replicate 640 0
  /-- test slots in a row in which each column mismatched (R264) -/
  seqRun : Vector Nat 160 := .replicate 160 0
  colHist : List (Nat × Hist) := []
  hist : Hist := []
  tests : Nat := 0
  mismatch : Nat := 0
  colEvt : Nat := 0
  arrEvt : Nat := 0
  cals : Nat := 0
  calFail : Nat := 0
deriving DecidableEq, Repr, Inhabited

/-- What the array engine of a berth waits for. -/
inductive ArPhase where
  | idle
  /-- the order waits for the end of the run that uses its array (R247) -/
  | start
  /-- a row is being sensed -/
  | sense
  /-- a program round runs; rounds done in this row -/
  | round (n : Nat)
  /-- the closing calibration, the closing test slot (R254) -/
  | closeCal
  | closeTest
  /-- a diagnostic pass -/
  | pass
deriving DecidableEq, Repr, Inhabited

/-- A copy that REPAIR makes (R257): output, copy index, spare pair, source pair. -/
structure Repair where
  out : Nat
  copy : Nat
  pair : Nat
  src : Nat
deriving DecidableEq, Repr, Inhabited

/-- The array engine of one berth (AR_ 0x000–0x044): its registers, the running order, and the accumulator. -/
structure Ar where
  group : Word := 0
  gcfg : Vector Word 4 := .replicate 4 0
  src : Word := 0
  dst : Word := 0
  mapSel : Vector Word 16 := .replicate 16 0
  arr : Vector Arr 8 := .replicate 8 {}
  lastCmd : Nat := 0
  cmdArr : Nat := 0
  result : Nat := 0
  rowReg : Nat := 0
  cmdReq : Nat := 0
  sat : Bool := false
  passes : Nat := 0
  phase : ArPhase := .idle
  /-- the running order: its CMD code and requester -/
  cmd : Nat := 0
  ordReq : Nat := 0
  rowFirst : Nat := 0
  row : Nat := 0
  /-- the order runs its sweep, or re-verifies the rows below ROW_FIRST -/
  sweep : Bool := false
  low : Bool := false
  abort : Bool := false
  since : Nat := 0
  /-- source rows as read, byte i of row r at address 64 r + i (R251) -/
  copy : Mem := []
  /-- target levels of the row: column and level -/
  target : List (Nat × Nat) := []
  plan : List Repair := []
  /-- pairs that PROG's sweep programs -/
  newPairs : List Nat := []
  noSpare : Bool := false
  failed : Bool := false
  /-- input bytes of the diagnostic pass -/
  input : List Byte := []
  acc : Vector Nat 64 := .replicate 64 0
  xsum : Nat := 0
deriving DecidableEq, Repr, Inhabited

/-! ### Policy graphs (chapter 09) -/

/-- A feature entry (R279). -/
structure Feature where
  src : Nat
  berth : Nat
  index : Nat
  shift : Nat
  offset : Int
  scale : Nat
deriving DecidableEq, Repr, Inhabited

/-- A stage entry (R280). -/
structure Stage where
  first : Nat
  last : Nat
  arrays : Nat
  calMode : Bool
deriving DecidableEq, Repr, Inhabited

/-- A layer entry (R281). -/
structure Layer where
  inN : Nat
  outN : Nat
  act : Nat
  fmt : Nat
  sh : Nat
  m : Nat
  lo : Int
  hi : Int
deriving DecidableEq, Repr, Inhabited

/-- A tile entry (R282). -/
structure Tile where
  layer : Nat
  rowBlk : Nat
  colBlk : Nat
deriving DecidableEq, Repr, Inhabited

/-- A binding entry (R283). -/
structure Binding where
  kind : Nat
  berth : Nat
  index : Nat
  srcOut : Nat
  oscale : Nat
  oshift : Nat
  obase : Int
  safe : Nat
  min : Nat
  max : Nat
deriving DecidableEq, Repr, Inhabited

/-- A policy image as loaded: header fields and tables (R277 to R283), and its digest. -/
structure GImage where
  ver : Nat
  rollback : Nat
  keyIdx : Nat
  roleOk : Nat
  slotScope : Bool
  cadence : Nat
  phase : Nat
  feats : List Feature
  stages : List Stage
  layers : List Layer
  biases : List Int
  tiles : List Tile
  binds : List Binding
  /-- offset of the first weight block from the start of the image, and the digest of header and body -/
  weights : Nat
  digest : List Byte
deriving DecidableEq, Repr, Inhabited

/-- State of a graph instance (R291). -/
inductive GSt where
  | empty | loading | running | stalled | fallback | failed
deriving DecidableEq, Repr, Inhabited

/-- Where an inference stands. -/
inductive InfStep where
  /-- waiting for remote features -/
  | gather
  /-- running the passes of column block c of layer j -/
  | pass (j c : Nat)
  /-- the output vector travels to the berth of layer j's stage -/
  | travel (j : Nat)
  /-- graph outputs ready -/
  | outputs
  /-- every value formed -/
  | complete
deriving DecidableEq, Repr, Inhabited

/-- An inference in progress (R289): raw features or the running layer's input, and its outputs so far. -/
structure Infer where
  step : InfStep
  feats : List Nat
  input : List Nat
  outs : List Int
  sat : Bool
  /-- features whose source was not ACTIVE at the start (R273) -/
  miss : List Bool := []
deriving DecidableEq, Repr, Inhabited

/-- A formed value (PG_OUT_DATA). -/
structure OutVal where
  value : Nat := 0
  soft : Bool := false
  bw : Bool := false
  supp : Bool := false
  valid : Bool := false
deriving DecidableEq, Repr, Inhabited

/-- A tile's array and how far its programming is. -/
structure Place where
  berth : BId
  arr : Nat
  /-- 0 waiting, 1 ordered, 2 done -/
  prog : Nat
  /-- a re-placement has kept the tile on its array: it is verified, not programmed (R293) -/
  keep : Bool := false
deriving DecidableEq, Repr, Inhabited

/-- One graph instance homed on a berth: index 0 the policy, 1 the dummy. -/
structure Graph where
  st : GSt := .empty
  img : Option GImage := none
  /-- flash offset of the image on the harbour's flash: its store (R376, R379); none where no region holds it -/
  store : Option Nat := none
  place : List Place := []
  /-- arrays that failed an order of this load (R287), and the arrays programmed and verified so far -/
  bad : List (Nat × Nat) := []
  progN : Nat := 0
  verN : Nat := 0
  stallMarks : Nat := 0
  inf : Option Infer := none
  outs : List OutVal := []
  /-- last committed value of each binding (LAST features) -/
  committed : List Nat := []
  /-- dummy: a complete inference waits for its comparison (R295) -/
  cmpDue : Bool := false
  runs : Nat := 0
  incomplete : Nat := 0
  overrun : Nat := 0
  satCnt : Nat := 0
deriving DecidableEq, Repr, Inhabited

/-- A programming order of the loader that runs on a berth (R287): graph, home berth, tile, buffers held. -/
structure LoadOrd where
  g : Nat
  home : BId
  tile : Nat
  bufs : List Nat
  verify : Bool
deriving DecidableEq, Repr, Inhabited

/-- The policy block of one berth (PG_). -/
structure Pg where
  lastCmd : Nat := 0
  result : Nat := 0
  cmdReq : Nat := 0
  /-- a promotion waits for the dummy's start boundary -/
  swapDue : Bool := false
  swapped : Bool := false
  promotions : Nat := 0
  errCode : Nat := 0
  errTarget : Nat := 0
  errBerth : Nat := 0
  errIndex : Nat := 0
  crit : Word := 0x040003E0
  tol : Word := 0x21008294
  outSel : Vector Word 16 := .replicate 16 0
  graph : Vector Graph 2 := .replicate 2 {}
  ord : Option LoadOrd := none
  featMiss : Nat := 0
  suppress : Nat := 0
  wfail : Nat := 0
  clamp : Vector Nat 6 := .replicate 6 0
  dcmp : Nat := 0
  dagree : Nat := 0
  dinc : Nat := 0
  ddis : Vector Nat 6 := .replicate 6 0
  dmaxdev : Vector Nat 6 := .replicate 6 0
deriving DecidableEq, Repr, Inhabited
/-! ### The whole machine -/

/-- The health block of one berth (HL_ 0x100 to 0x1FF) and its sounding logic. -/
structure Hl where
  sndSeq : Nat := 0
  sndDrop : Nat := 0
  annexLen : Nat := 0
  annexCommit : Bool := false
  annex : Vector Word 16 := .replicate 16 0
  /-- highest mark average since the previous capture (R464) -/
  peak : Nat := 0
  /-- the DELTA sources at the previous capture, in a fixed order (R465) -/
  prev : List Nat := []
deriving DecidableEq, Repr, Inhabited

/-- The tray-wide health block (HL_ 0x000 to 0x0FF and HL_SND). -/
structure TrayHl where
  cfg : Word := 0x00010032
  /-- berths expected in and arrived of the last round; SOUNDING attention has been given -/
  expect : Nat := 0
  arrived : Nat := 0
  attnDone : Bool := true
  /-- HL_BERTH_RET.RETIRED -/
  retired : Nat := 0
  ret : Vector Word 8 := .replicate 8 0
  arg : Vector Nat 16 := .replicate 16 0
  /-- HL_UNRET_STAT, and the INDEX of the order -/
  kind : Nat := 0
  berth : Nat := 0
  index : Nat := 0
  result : Nat := 0
  req : Nat := 0
  busy : Bool := false
  retires : Nat := 0
  unretires : Nat := 0
  /-- the stored soundings, empty where none is stored, and the copies held at the freeze (R469) -/
  snd : Vector (List Byte) 8 := .replicate 8 []
  frozen : Vector (List Byte) 8 := .replicate 8 []
deriving DecidableEq, Repr, Inhabited

/-- Tray-wide state that the harbour keeps and copies to the standby (R18). -/
structure Tray where
  pw : TrayPw := {}
  slots : Vector SlotFlit 8 := .replicate 8 {}
  /-- CH_AGREE and CH_MOOR: distribution, causes and attempts by berth (R97) -/
  dist : Vector Dist 8 := .replicate 8 .none
  moor : Vector Nat 8 := .replicate 8 0
  attempts : Vector Nat 8 := .replicate 8 0
  img : Img := {}
  hl : TrayHl := {}
  /-- isolated berths that have reported and wait for the release order (R462) -/
  release : Nat := 0
  /-- standby: TRAY graphs of the harbour as last copied (R18, R293) -/
  pg : Vector Graph 2 := .replicate 2 {}
deriving DecidableEq, Repr, Inhabited

/-- What a command sends out of the block or answers (State.out holds those of the last command). -/
inductive Output where
  /-- a ring message from a berth to a berth, or to every berth -/
  | ring (src : BId) (dst : Option BId) (m : Msg)
  /-- a ring port requests a replay from a sequence number, and resends flits from its replay buffer (R20, R21) -/
  | replayReq (b : BId) (port seq : Nat)
  | resend (b : BId) (port seq count : Nat) (flits : List Flit)
  /-- a hawser frame: nine words as sent on the lane (R303) -/
  | frame (b : BId) (words : List Word)
  /-- an AVSBus frame of a controller: setpoint write of a rail select in mV, or a Status read -/
  | avsWrite (b : BId) (ctl sel mv : Nat)
  | avsStatus (b : BId) (ctl : Nat)
  /-- a Target Rail Voltage read of an AVSBus controller (R185) -/
  | avsTarget (b : BId) (ctl sel : Nat)
  /-- the value a register read returns -/
  | value (w : Word)
  /-- bytes a host transaction returns -/
  | reply (bs : List Byte)
  /-- a host transaction is acknowledged without data; not acknowledged or put off (NACK, NAK); stalled -/
  | ack
  | nack
  | stall
  /-- the USB port signals resume (R448) -/
  | resume (b : BId)
deriving DecidableEq, Repr

/-- One berth (R3): its blocks, its TCM, its shared deck and its flash. -/
structure Berth where
  sy : Sy := {}
  rp : Rp := {}
  td : Td := {}
  ch : Ch := {}
  rl : Rl := {}
  log : LogSt := {}
  pw : Pw := {}
  hw : Hw := {}
  svc : Svc := {}
  cl : Cl := {}
  pl : Pilot := {}
  dk : Dk := {}
  dm : Vector Dma 2 := .replicate 2 {}
  tw : Tw := {}
  us : Us := {}
  ar : Ar := {}
  pg : Pg := {}
  hl : Hl := {}
  tray : Tray := {}
  tcm : Mem := []
  deck : Mem := []
  flash : Mem := []
deriving DecidableEq, Repr

/-- State of the device as a whole: supplies, test port, ring membership, and the tray-wide reset registers. -/
structure Dev where
  sleep : Bool := false
  /-- VDD_STBY is good; RESET_N is low past its filter -/
  stby : Bool := true
  pinLow : Bool := false
  /-- all four main supplies are good (R109) -/
  supplies : Bool := false
  tap : TapInstr := .idcode
  /-- while EXTEST or CLAMP is loaded: the number of the free value that the boundary cells hold (R120) -/
  cells : Option Nat := none
  /-- the 500 µs training window runs (R128) -/
  window : Bool := false
  /-- berths that take part in the ring: SY_RING_STAT.PRESENT -/
  present : Nat := 0
  /-- berths that the ring's chords skip (R24, R26) -/
  skip : Nat := 0
  /-- SY_ELECT -/
  elections : Nat := 0
  excluded : Nat := 0
  candidates : Nat := 0
  /-- SY_RST_STAT -/
  rstCmd : Nat := 0
  rstBusy : Bool := false
  rstResult : Nat := 0
  rstReq : Nat := 0
deriving DecidableEq, Repr

/-- The whole tray: the waiting commands, the outputs of the last command, and the eight berths of the ring. -/
structure State where
  /-- the commands that wait, first in, first out -/
  pending : List Instr := []
  /-- what the last command sent or answered; cleared when the next one begins -/
  out : List Output := []
  /-- REF cycles since the VDD_STBY reset -/
  now : Nat := 0
  /-- the model's own field: the next free value's number (notes/assumptions/3.md) -/
  freeCtr : Nat := 0
  dev : Dev := {}
  /-- berths B0 to B7 (R3) -/
  berths : Vector Berth 8 := .replicate 8 {}
deriving DecidableEq, Repr

/-- Faults of the block. The spec names no condition that stops the block, so no command raises one. -/
inductive Fault where
  /-- Raised by no command; if one raised it, that would be safe: it would only lose behaviours. -/
  | stuck
deriving DecidableEq, Repr

/-- Refusals of the model. -/
inductive Refusal where
  /-- Raised by the dispatch of a command without a meaning; no arm does so now. Safe: nothing can be proved of it. -/
  | notModelled (mnemonic : String)
deriving DecidableEq, Repr

/-- The machine right after the VDD_STBY reset at power-on: every main block in main reset, SY_RST_CAUSE.STBY_POR set. -/
def State.reset : State :=
  { berths := Vector.ofFn fun i => if i.val % 4 == 0 then { sy := { cause := 1 } } else {} }

end Sys2Proof.Machine
end

