-- ==== Sys2Proof/Machine/Ops.lean ====
section
/-! DEFINITION. The named operations over registers, fields, memories and the state: one home for each access. -/
namespace Sys2Proof.Machine

/-! ### Fields of words (R2) -/

/-- Field [hi:lo] of a word, as a number. -/
def fld (w : Word) (hi lo : Nat) : Nat := (w.toNat / 2 ^ lo) % 2 ^ (hi + 1 - lo)

/-- Bit i of a word. -/
def bitAt (w : Word) (i : Nat) : Bool := w.getLsbD i

/-- A number's bit i. -/
def nbit (n i : Nat) : Bool := n.testBit i

def b2n (b : Bool) : Nat := if b then 1 else 0

/-- A word from fields given as (value, lowest bit, width), each value cut to its width. -/
def pack (fs : List (Nat × Nat × Nat)) : Word :=
  BitVec.ofNat 32 (fs.foldl (fun acc f => acc + (f.1 % 2 ^ f.2.2) * 2 ^ f.2.1) 0)

/-- The word `w` with field [hi:lo] replaced by the same field of `n`. -/
def mergeFld (w n : Word) (hi lo : Nat) : Word :=
  BitVec.ofNat 32 (w.toNat - fld w hi lo * 2 ^ lo + fld n hi lo * 2 ^ lo)

/-- A word from a number, modulo 2^32. -/
def wordOf (n : Nat) : Word := BitVec.ofNat 32 n

/-- The low and high word of a 64-bit counter (R42: it wraps modulo 2^64). -/
def lo64 (n : Nat) : Word := BitVec.ofNat 32 n
def hi64 (n : Nat) : Word := BitVec.ofNat 32 (n / 2 ^ 32)

/-- A 32-bit event counter goes up by n and saturates (R42). -/
def sadd (c n : Nat) : Nat := min (c + n) 0xFFFFFFFF
def sinc (c : Nat) : Nat := sadd c 1

/-- An 8-bit event counter goes up by one and saturates (R477). -/
def sinc8 (c : Nat) : Nat := min (c + 1) 0xFF

/-- round(a / b), half-up (R516). -/
def rdiv (a b : Nat) : Nat := (2 * a + b) / (2 * b)

/-! ### Vectors by number -/

/-- Entry i of a vector, or the default where i is outside it. -/
def vget {α : Type} [Inhabited α] {n : Nat} (v : Vector α n) (i : Nat) : α := v[i]?.getD default

/-- The vector with entry i replaced; unchanged where i is outside it. -/
def vset {α : Type} {n : Nat} (v : Vector α n) (i : Nat) (x : α) : Vector α n := v.setIfInBounds i x

/-- The vector with entry i changed by f. -/
def vmod {α : Type} [Inhabited α] {n : Nat} (v : Vector α n) (i : Nat) (f : α → α) : Vector α n :=
  vset v i (f (vget v i))

/-- The numbers 0 to n − 1, rising. -/
def upto (n : Nat) : List Nat := List.range n

/-- Every berth, rising. -/
def allB : List BId := [0, 1, 2, 3, 4, 5, 6, 7]

/-- A berth number from any number, modulo 8. -/
def bid (n : Nat) : BId := Fin.ofNat 8 n

/-- A set of berths or bits as a mask: bit i set where `p i`. -/
def maskOf (n : Nat) (p : Nat → Bool) : Nat := (upto n).foldl (fun acc i => acc + b2n (p i) * 2 ^ i) 0

/-! ### Sparse memories in canonical form -/

/-- A byte of a memory whose unlisted addresses read `d`. -/
def memGet (d : Byte) : Mem → Nat → Byte
  | [], _ => d
  | (k, v) :: m, a => if k = a then v else memGet d m a

/-- The memory with byte v at address a, in canonical form: rising addresses, no entry equal to `d`. -/
def memSet (d : Byte) : Mem → Nat → Byte → Mem
  | [], a, v => if v = d then [] else [(a, v)]
  | (k, w) :: m, a, v =>
    if a < k then (if v = d then (k, w) :: m else (a, v) :: (k, w) :: m)
    else if a = k then (if v = d then m else (a, v) :: m)
    else (k, w) :: memSet d m a v

/-- Bytes a to a + n − 1. -/
def memRead (d : Byte) (m : Mem) (a n : Nat) : List Byte := (upto n).map fun i => memGet d m (a + i)

/-- The memory with the bytes stored from address a upwards. -/
def memWrite (d : Byte) (m : Mem) (a : Nat) : List Byte → Mem
  | [] => m
  | v :: vs => memWrite d (memSet d m a v) (a + 1) vs

/-- The canonical form of a memory with default byte d (entries below `bound` are absent). -/
def memWf (d : Byte) : Option Nat → Mem → Bool
  | _, [] => true
  | none, (k, v) :: m => (v != d) && memWf d (some k) m
  | some b, (k, v) :: m => decide (b < k) && (v != d) && memWf d (some k) m

/-- The default byte of TCM and deck share (undefined after reset, R400; DESIGN CHOICE, unsafe, notes entry 6). -/
abbrev ramD : Byte := 0

/-- The default byte of flash: the erased state (R169; DESIGN CHOICE, notes entry 7). -/
abbrev flashD : Byte := 0xFF

/-! ### Bytes and words (R3) -/

/-- A little-endian number from bytes. -/
def leNat : List Byte → Nat
  | [] => 0
  | b :: bs => b.toNat + 256 * leNat bs

/-- The n little-endian bytes of a number. -/
def leBytes : Nat → Nat → List Byte
  | 0, _ => []
  | k + 1, n => BitVec.ofNat 8 n :: leBytes k (n / 256)

/-- A word from bytes o to o + 3 of a byte string. -/
def wordAt (bs : List Byte) (o : Nat) : Word := BitVec.ofNat 32 (leNat ((bs.drop o).take 4))

/-- The little-endian number in bytes o to o + n − 1. -/
def natAt (bs : List Byte) (o n : Nat) : Nat := leNat ((bs.drop o).take n)

/-- Words as bytes, low byte first. -/
def wordsBytes (ws : List Word) : List Byte := ws.flatMap fun w => leBytes 4 w.toNat

/-- Bytes as words, the last padded with zeros. -/
def bytesWords (bs : List Byte) (n : Nat) : List Word := (upto n).map fun i => wordAt bs (4 * i)

/-- The 48 octets of a digest, first octet first (R3: the FIPS 180-4 string). -/
def digestBytes (d : BitVec 384) : List Byte := (leBytes 48 d.toNat).reverse

/-! ### CRC-32 (R4) -/

def crcStep : Nat → BitVec 32 → BitVec 32
  | 0, c => c
  | k + 1, c => crcStep k (if c.getLsbD 0 then (c >>> 1) ^^^ 0xEDB88320#32 else c >>> 1)

def crcByte (c : BitVec 32) (b : Byte) : BitVec 32 := crcStep 8 (c ^^^ b.setWidth 32)

/-- CRC-32: polynomial 0x04C11DB7 reflected, initial value and final XOR all ones (R4). -/
def crc32 (bs : List Byte) : BitVec 32 := (bs.foldl crcByte 0xFFFFFFFF#32) ^^^ 0xFFFFFFFF#32

/-! ### Berths -/

/-- Berth b of the state. -/
def State.at (s : State) (b : BId) : Berth := s.berths[b]

/-- The state with berth b changed by f. -/
def State.upd (s : State) (b : BId) (f : Berth → Berth) : State :=
  { s with berths := s.berths.set b (f (s.at b)) }

/-- The state with every berth changed. -/
def State.updAll (s : State) (f : BId → Berth → Berth) : State :=
  allB.foldl (fun t b => t.upd b (f b)) s

/-- A step over a list of items, left to right. -/
def iter {α : Type} (xs : List α) (f : α → State → State) (s : State) : State := xs.foldl (fun t x => f x t) s

def State.updRl (s : State) (b : BId) (f : Rl → Rl) : State := s.upd b fun x => { x with rl := f x.rl }
def State.updLog (s : State) (b : BId) (f : LogSt → LogSt) : State := s.upd b fun x => { x with log := f x.log }
def State.updPw (s : State) (b : BId) (f : Pw → Pw) : State := s.upd b fun x => { x with pw := f x.pw }
def State.updHw (s : State) (b : BId) (f : Hw → Hw) : State := s.upd b fun x => { x with hw := f x.hw }
def State.updSvc (s : State) (b : BId) (f : Svc → Svc) : State := s.upd b fun x => { x with svc := f x.svc }
def State.updCl (s : State) (b : BId) (f : Cl → Cl) : State := s.upd b fun x => { x with cl := f x.cl }
def State.updPl (s : State) (b : BId) (f : Pilot → Pilot) : State := s.upd b fun x => { x with pl := f x.pl }
def State.updDk (s : State) (b : BId) (f : Dk → Dk) : State := s.upd b fun x => { x with dk := f x.dk }
def State.updDm (s : State) (b : BId) (e : Nat) (f : Dma → Dma) : State :=
  s.upd b fun x => { x with dm := vmod x.dm e f }

/-- Rail r of berth b, changed. -/
def State.updRail (s : State) (b : BId) (r : Nat) (f : Rail → Rail) : State :=
  s.updRl b fun x => { x with rails := vmod x.rails r f }

/-- Partition k of berth b, changed. -/
def State.updPart (s : State) (b : BId) (k : Nat) (f : Part → Part) : State :=
  s.updPw b fun x => { x with parts := vmod x.parts k f }

/-- A berth's memory is written by a party other than its pilot at window offset o: a reservation of a word there ends (R364). -/
def Berth.breakResv (x : Berth) (o n : Nat) : Berth :=
  match x.pl.resv with
  | some a => if a < o + n && o < a + 4 then { x with pl := { x.pl with resv := none } } else x
  | none => x

/-- Bytes stored in berth b's TCM, and in its deck share, by a party other than its pilot. -/
def State.tcmWrite (s : State) (b : BId) (o : Nat) (bs : List Byte) : State :=
  s.upd b fun x => { x with tcm := memWrite ramD x.tcm o bs }.breakResv o bs.length
def State.deckWrite (s : State) (b : BId) (o : Nat) (bs : List Byte) : State :=
  s.upd b fun x => { x with deck := memWrite ramD x.deck o bs }.breakResv (0x100000 + o) bs.length

/-- Adds an output to those of this command. -/
def State.emit (s : State) (o : Output) : State := { s with out := s.out ++ [o] }

/-- The state at the start of a command: the outputs of the command before are gone. -/
def State.begin (s : State) : State := { s with out := [] }

/-- Draws a free value (DESIGN CHOICE, notes entry 3). -/
def State.draw (s : State) : BitVec 64 × State :=
  (Config.freeValue s.freeCtr, { s with freeCtr := s.freeCtr + 1 })

/-- The outcome of every meaning: the command's effect, begun in state s, ended in state t; the queue is not its business. -/
def ran (s t : State) : Host.Outcome State Fault Refusal := .next { t with pending := s.pending }

/-! ### The harbour and tide time -/

/-- The berth that holds the harbour role, if any (R17). -/
def State.harbour (s : State) : Option BId :=
  if (s.at 0).sy.isHarbour then some 0 else if (s.at 4).sy.isHarbour then some 4 else none

/-- Whether berth b holds the harbour role. -/
def State.isHbr (s : State) (b : BId) : Bool := (s.at b).sy.isHarbour

/-- The harbour's tide counter, which N-in-W windows count (R62); the berth's own where there is no harbour. -/
def State.hTide (s : State) (b : BId) : Nat :=
  match s.harbour with
  | some h => (s.at h).td.tide
  | none => (s.at b).td.tide

/-- The tray-wide state of berth h changed. -/
def State.updTray (s : State) (h : BId) (f : Tray → Tray) : State := s.upd h fun x => { x with tray := f x.tray }

/-- The harbour's tray-wide state changed; nothing where there is no harbour. -/
def State.onTray (s : State) (f : Tray → Tray) : State :=
  match s.harbour with
  | some h => s.updTray h f
  | none => s

/-- The harbour's tray-wide state. -/
def State.tray (s : State) : Tray :=
  match s.harbour with
  | some h => (s.at h).tray
  | none => {}

/-! ### Chart records (R74) -/

/-- Word w of the body of record (type, instance) in a berth's chart copy; 0 where absent. -/
def Berth.recWord (x : Berth) (ty inst w : Nat) : Word :=
  match x.ch.recs.find? (fun r => r.ty == ty && r.inst == inst) with
  | some r => (r.body[w]?).getD 0
  | none => 0

/-- Whether a berth's chart copy has record (type, instance). -/
def Berth.hasRec (x : Berth) (ty inst : Nat) : Bool := x.ch.recs.any fun r => r.ty == ty && r.inst == inst

/-- TRAY.POPULATED of a berth's chart copy (R76). -/
def Berth.populated (x : Berth) : Nat := fld (x.recWord 1 0 0) 7 0

/-- N and W of a fault class: the chart's RETIRE word, or the default of R87. -/
def retireNW (x : Berth) (cls : Nat) : Nat × Nat :=
  let dflt : Nat × Nat := match cls with
    | 1 => (8, 3600) | 2 => (4, 3600) | 3 => (3, 1000) | 4 => (2, 10) | 5 => (8, 600) | 6 => (2, 3600)
    | 7 => (5, 6000) | 8 => (16, 600) | 9 => (3, 3600) | 10 => (3, 1000) | 11 => (3, 1000) | 12 => (8, 600)
    | 13 => (8, 600) | _ => (0, 0)
  match x.ch.recs.find? (fun r => r.ty == 12) with
  | some r => match r.body.find? (fun w => fld w 7 0 == cls) with
    | some w => (fld w 15 8, fld w 31 16)
    | none => dflt
  | none => dflt

/-- Events of a history within the W tides that end with tide t (R455). -/
def inWindow (h : Hist) (t w : Nat) : Nat := (h.filter fun x => x + w > t && x ≤ t).length

/-- One event in tide t (R455): whether the unit retires, and its history afterwards. -/
def histEvent (h : Hist) (t n w : Nat) : Bool × Hist :=
  if inWindow h t w ≥ n then (true, h) else (false, (t :: h).take n)

end Sys2Proof.Machine
end

