-- ==== Sys2Proof/Machine/Topology.lean ====
section
/-! DEFINITION. The topology of the ring as ports, missing berths and chords give it (R20, R21, R26), and which berths can be
reached. -/
namespace Sys2Proof.Machine

/-- The berth at the other end of port p of berth b (R458): 0 lower neighbour, 1 higher neighbour, 2 lower chord, 3 higher
chord. -/
def portPeer (b : BId) (p : Nat) : BId :=
  match p with
  | 0 => bid (b.val + 7)
  | 1 => bid (b.val + 1)
  | 2 => bid (b.val + 6)
  | _ => bid (b.val + 2)

/-- The number of the port at the other end. -/
def portBack (p : Nat) : Nat :=
  match p with
  | 0 => 1
  | 1 => 0
  | 2 => 3
  | _ => 2

/-- Berth n takes part in the ring (SY_RING_STAT.PRESENT). -/
def inRing (s : State) (n : BId) : Bool := nbit s.dev.present n.val

def portOf (s : State) (b : BId) (p : Nat) : RingPort := vget (s.at b).rp.ports p

/-- A port that carries traffic. -/
def portOk (q : RingPort) : Bool := q.trained && !q.retired

/-- The segment or chord at port p of berth b is healthy: both berths take part and both ports carry traffic (R21). -/
def linkOk (s : State) (b : BId) (p : Nat) : Bool :=
  let m := portPeer b p
  inRing s b && inRing s m && portOk (portOf s b p) && portOk (portOf s m (portBack p))

/-- Berth m is skipped by a chord that is in use (SY_RING_STAT.CHORD_USE, R26). -/
def chordUsed (s : State) (m : BId) : Bool := nbit s.dev.skip m.val && linkOk s (bid (m.val + 7)) 3

/-- The port on which berth x sends traffic for berth d that travels upward (`up`) or downward, and the next berth on that way:
the neighbour where its segment is healthy and it is the target or takes part, else the chord past it (R20, R26). -/
def hopTo (s : State) (up : Bool) (d x : BId) : Option (Nat × BId) :=
  let p := if up then 1 else 0
  let m := portPeer x p
  if linkOk s x p && (m == d || !nbit s.dev.skip m.val) then some (p, m)
  else if chordUsed s m && linkOk s x (p + 2) then some (p + 2, portPeer x (p + 2))
  else none

/-- The way from berth x to berth d in one direction, as the berths that send on it and their ports; at most k hops. -/
def wayTo (s : State) (up : Bool) (d : BId) : Nat → BId → Option (List (BId × Nat))
  | 0, x => if x == d then some [] else none
  | k + 1, x =>
    if x == d then some []
    else match hopTo s up d x with
      | some (p, m) => (wayTo s up d k m).map fun w => (x, p) :: w
      | none => none

/-- The route of traffic from berth a to berth b (R20): the direction with fewer hops, upward where both have as many, and the
only direction that reaches b where there is one. -/
def route (s : State) (a b : BId) : Option (List (BId × Nat)) :=
  match wayTo s true b 7 a, wayTo s false b 7 a with
  | some u, some d => some (if d.length < u.length then d else u)
  | some u, none => some u
  | none, d => d

/-- Hops from berth a to berth b by the route of R20, where there is one. -/
def hops (s : State) (a b : BId) : Option Nat := (route s a b).map (·.length)

/-- Traffic passes directly between berths a and b. -/
def adjacent (s : State) (a b : BId) : Bool := hops s a b == some 1

/-- The ports on which berth x sends a flit from `src` to `dst` (none: to every berth), whether it starts there or is relayed. -/
def outPorts (s : State) (src : BId) (dst : Option BId) (x : BId) : List Nat :=
  let goals := match dst with
    | some d => [d]
    | none => allB
  (upto 4).filter fun p => goals.any fun d =>
    match route s src d with
    | some w => w.contains (x, p)
    | none => false

/-- Berth b is reached from the harbour. -/
def reached (s : State) (b : BId) : Bool :=
  match s.harbour with
  | some h => h == b || (hops s h b).isSome
  | none => false

/-- The ring does not close (SY_RING_STAT.LINE): some berth of it lacks its way up. -/
def isLine (s : State) : Bool :=
  allB.any fun n => inRing s n && !nbit s.dev.skip n.val
    && !(linkOk s n 1 && !nbit s.dev.skip ((n.val + 1) % 8)) && !chordUsed s (bid (n.val + 1))

/-- Berth b is ACTIVE and takes part in the ring. -/
def live (s : State) (b : BId) : Bool := (s.at b).sy.st == .active && inRing s b

/-- Berth b is ACTIVE or MOORED and takes part in the ring: an order can reach it. -/
def reachable (s : State) (b : BId) : Bool :=
  ((s.at b).sy.st == .active || (s.at b).sy.st == .moored) && inRing s b

/-! ### Sending flits (R20, R29) -/

def updRp (b : BId) (f : Rp → Rp) (s : State) : State := s.upd b fun x => { x with rp := f x.rp }
def updPort (b : BId) (p : Nat) (f : RingPort → RingPort) (s : State) : State :=
  updRp b (fun y => { y with ports := vmod y.ports p f }) s

/-- A port that sends flits: each takes the next sequence number and a place among the last 32 (R20). -/
def portSends (fs : List Flit) (q : RingPort) : RingPort :=
  let r := q.replay ++ fs
  { q with txSeq := (q.txSeq + fs.length) % 256, replay := r.drop (r.length - 32) }

/-- Berth x sends flits from `src` to `dst`, its own or relayed ones, on the ports of their routes. -/
def sendFlits (src : BId) (dst : Option BId) (fs : List Flit) (x : BId) (s : State) : State :=
  iter (outPorts s src dst x) (fun p t => updPort x p (portSends fs) t) s

/-- Kind and payload length in bytes of a message. -/
def msgSize (m : Msg) : Nat × Nat :=
  match m with
  | .logBuffer recs => (1, 32 * recs.length)
  | .retireNotice _ _ _ _ => (2, 4)
  | .railTrump _ => (3, 0)
  | .zoneBoost _ => (4, 4)
  | .leakTrump _ => (5, 1)
  | .ropeState _ _ _ => (6, 1)
  | .chart bs => (7, bs.length)
  | .chartAck _ => (8, 60)
  | .image bs => (9, bs.length)
  | .retireOrder => (10, 0)
  | .bypassNotice => (11, 0)
  | .silentBerth _ => (12, 1)
  | .releaseOrder => (13, 0)
  | .isolatedReport => (14, 0)
  | .tide _ => (15, 8)
  | .slotFlit _ => (16, 8)
  | .markAverage _ => (17, 2)
  | .hostAct => (18, 0)
  | .sounding bs => (19, bs.length)
  | .dropNotice => (20, 0)
  | .unretire _ _ => (21, 4)
  | .unretireAck => (22, 0)

/-- n flits of other content than a TIDE flit's, at least one. -/
def plainFlits (n : Nat) (src : BId) (dst : Option BId) : List Flit := List.replicate (max 1 n) { src := src, dst := dst }

/-- The flits of data of n bytes: 64 bits each (R20; DEDUCED, notes entry 45). -/
def dataFlits (n : Nat) : Nat := (n + 7) / 8

/-- The flits of a message: one for a TIDE flit, and those of the data that a message of the BUF class carries; for others their number
is not stated (notes entry 45). -/
def msgFlits (src : BId) (dst : Option BId) (m : Msg) : List Flit :=
  match m with
  | .tide w => [{ src := src, dst := dst, tide := some w }]
  | .logBuffer _ | .chart _ | .image _ | .sounding _ => plainFlits (dataFlits (msgSize m).2) src dst
  | _ => plainFlits (Config.flitCount (msgSize m).1 (msgSize m).2) src dst

/-- Berth src puts a message on the ring. -/
def ringPut (src : BId) (dst : Option BId) (m : Msg) (s : State) : State :=
  (sendFlits src dst (msgFlits src dst m) src s).emit (.ring src dst m)

/-- Berth src sends a message; in holdover it sends no flit, and the message waits (R29). -/
def ringSend (src : BId) (dst : Option BId) (m : Msg) (s : State) : State :=
  if (s.at src).sy.holdover then updRp src (fun y => { y with held := y.held ++ [(dst, m)] }) s else ringPut src dst m s

/-- The messages that waited for the end of holdover go out, oldest first. -/
def ringRelease (b : BId) (s : State) : State :=
  (s.at b).rp.held.foldl (fun t e => ringPut b e.1 e.2 t) (updRp b (fun y => { y with held := [] }) s)

/-- The flits of an access (kind 100), or of its reply (101), from berth a to berth b (R22); none within a berth. -/
def accessSend (kind : Nat) (a b : BId) (s : State) : State :=
  if a == b then s else sendFlits a (some b) (plainFlits (Config.flitCount kind 4) a (some b)) a s

/-- Berth a sends n bytes of data to berth b in the ACT or BUF class (R272, R287); nothing within a berth. -/
def dataSend (n : Nat) (a b : BId) (s : State) : State :=
  if a == b then s else sendFlits a (some b) (plainFlits (dataFlits n) a (some b)) a s

/-- The flits of an access from berth a to berth b and of its reply. -/
def accessFlits (a b : BId) (s : State) : State := accessSend 101 b a (accessSend 100 a b s)

end Sys2Proof.Machine
end

