-- ==== Sys2Proof/Machine/Deck.lean ====
section
/-! DEFINITION. The deck: hands, reserves, allocation and release of buffers (R380–R386). -/
namespace Sys2Proof.Machine

/-- Buffers of berth b's share that are held (R380). -/
def heldOf (s : State) (b : BId) : List (Nat × Hand) := (s.at b).dk.held

/-- Number of free buffers of berth b's share. -/
def freeCount (s : State) (b : BId) : Nat := 512 - (heldOf s b).length

/-- Local numbers of the free buffers of berth b's share, rising. -/
def freeBufs (s : State) (b : BId) : List Nat :=
  (upto 512).filter fun i => !(heldOf s b).any fun h => h.1 == i

/-- Holding of a hand instance over every share (R381). -/
def holding (s : State) (h : Hand) : Nat :=
  allB.foldl (fun acc b => acc + ((heldOf s b).filter fun e => e.2 == h).length) 0

def handMin (s : State) (h : Hand) : Nat := fld (vget (s.at h.berth).dk.hand h.cls) 15 0
def handCeil (s : State) (h : Hand) : Nat := fld (vget (s.at h.berth).dk.hand h.cls) 31 16

/-- The classes that live on berth b: 0–5, and 6 and 7 on the harbour (R83). -/
def classesOf (s : State) (b : BId) : List Nat := if s.isHbr b then upto 8 else upto 6

/-- The part of berth b's lend quota not drawn (R383). -/
def openQuota (s : State) (b : BId) : Nat := (s.at b).dk.lent - (s.at b).dk.drawn.length

/-- The reserve of berth b (R381): MIN minus holding over its hands below MIN, plus its open lend quota. -/
def reserve (s : State) (b : BId) : Nat :=
  (classesOf s b).foldl (fun acc c => acc + (handMin s ⟨b, c⟩ - holding s ⟨b, c⟩)) 0 + openQuota s b

/-- What berth b protects in its share (R381): the harbour's reserve less the open quotas of lenders. -/
def protects (s : State) (b : BId) : Nat :=
  if s.isHbr b then reserve s b - allB.foldl (fun acc l => acc + openQuota s l) 0 else reserve s b

/-- Spare buffers of berth b's share (R381). -/
def spare (s : State) (b : BId) : Nat := freeCount s b - protects s b

/-- Hops between two berths the shorter way around the ring. -/
def ringDist (a b : BId) : Nat := min ((b.val + 8 - a.val) % 8) ((a.val + 8 - b.val) % 8)

/-- The other berths of the deck in the order of R382: ring distance, lower number first at equal distance. -/
def deckOrder (s : State) (b : BId) : List BId :=
  ([1, 2, 3, 4].flatMap fun d => allB.filter fun n => ringDist b n == d).filter fun n => (s.at n).dk.inDeck

/-- Inserts a held buffer in rising order. -/
def insHeld (i : Nat) (h : Hand) : List (Nat × Hand) → List (Nat × Hand)
  | [] => [(i, h)]
  | e :: l => if i < e.1 then (i, h) :: e :: l else e :: insHeld i h l

/-- Takes one free buffer of share n for a hand: which of the free buffers is a free value (DESIGN CHOICE, notes entry 8).
Answers the device-wide number. -/
def takeFrom (s : State) (n : BId) (h : Hand) (draw : Bool) : Option Nat × State :=
  match freeBufs s n with
  | [] => (none, s)
  | f :: fs =>
    let (v, s) := s.draw
    let i := ((f :: fs)[v.toNat % (fs.length + 1)]?).getD f
    let s := s.updDk n fun d =>
      { d with held := insHeld i h d.held, drawn := if draw then i :: d.drawn else d.drawn }
    let s := s.updDk h.berth fun d => { d with peak := vmod d.peak h.cls fun p => max p (holding s h) }
    (some (512 * n.val + i), s)

/-- The share a request is served from, and whether it draws on a lend quota (R381–R383). -/
def chooseShare (s : State) (h : Hand) (any : Bool) : Option (BId × Bool) :=
  let hold := holding s h
  if hold ≥ handCeil s h then none
  else
    let g := decide (hold < handMin s h)
    let own := (s.at h.berth).dk.inDeck && (if g then freeCount s h.berth > 0 else spare s h.berth > 0)
    if own then some (h.berth, false)
    else if !any then none
    else
      let lender := (deckOrder s h.berth).find? fun n => openQuota s n > 0 && freeCount s n > 0
      match (if g && h.cls ≥ 6 && freeCount s h.berth == 0 then lender else none) with
      | some n => some (n, true)
      | none => ((deckOrder s h.berth).find? fun n => spare s n > 0).map fun n => (n, false)

/-- One request of a hand for a buffer (R381): a device-wide buffer number, or refused. -/
def deckAlloc (b : BId) (cls : Nat) (any : Bool) (s : State) : Option Nat × State :=
  match chooseShare s ⟨b, cls⟩ any with
  | some (n, dr) => takeFrom s n ⟨b, cls⟩ dr
  | none => (none, s)

/-- Releases device-wide buffer g. -/
def deckRelease (g : Nat) (s : State) : State :=
  s.updDk (bid (g / 512)) fun d =>
    { d with held := d.held.filter fun e => e.1 != g % 512
             drawn := d.drawn.filter fun i => i != g % 512
             handed := d.handed.filter fun e => e.1 != g % 512 }

/-- The hand that holds device-wide buffer g, if any. -/
def holderOf (s : State) (g : Nat) : Option Hand :=
  ((heldOf s (bid (g / 512))).find? fun e => e.1 == g % 512).map (·.2)

/-- Releases every buffer charged to a hand instance (R369, R386). -/
def releaseHand (h : Hand) (s : State) : State :=
  iter allB (fun n t => t.updDk n fun d =>
    let gone := (d.held.filter fun e => e.2 == h).map (·.1)
    { d with held := d.held.filter fun e => e.2 != h
             drawn := d.drawn.filter fun i => !gone.contains i
             handed := d.handed.filter fun e => !gone.contains e.1 }) s

/-- MIN summed over the classes of berth b. -/
def minSum (s : State) (b : BId) : Nat := (classesOf s b).foldl (fun acc c => acc + handMin s ⟨b, c⟩) 0

/-- The lend quotas of the harbour's excess over its 512 buffers (R383). -/
def setQuotas (s : State) : State :=
  let s := iter allB (fun n t => t.updDk n fun d => { d with lent := 0 }) s
  match s.harbour with
  | none => s
  | some h =>
    let lenders := ((upto 7).map fun i => bid (h.val + 1 + i)).filter fun n => (s.at n).dk.inDeck
    (lenders.foldl (fun (acc : Nat × State) n =>
      let q := min acc.1 (512 - minSum acc.2 n)
      (acc.1 - q, acc.2.updDk n fun d => { d with lent := q })) (minSum s h - 512, s)).2

/-- Berth b leaves the deck (R386): its share is lost and its hands' buffers elsewhere are freed. -/
def deckLeave (b : BId) (s : State) : State :=
  let s := s.updDk b fun d => { d with inDeck := false, held := [], drawn := [], handed := [] }
  let s := iter (upto 8) (fun c t => releaseHand ⟨b, c⟩ t) s
  setQuotas s

/-- The bytes of device-wide buffer g's first n bytes. -/
def bufRead (s : State) (g n : Nat) : List Byte :=
  memRead ramD (s.at (bid (g / 512))).deck (g % 512 * 256) n

/-- Stores bytes at the start of device-wide buffer g. -/
def bufWrite (g : Nat) (bs : List Byte) (s : State) : State :=
  s.deckWrite (bid (g / 512)) (g % 512 * 256) (bs.take 256)

/-- The hand class of a requester that reads DK_ALLOC_… on berth b (DK_ALLOC_ANY): the own pilot class 5; on
the harbour, USB class 6 and two-wire class 7. -/
def allocClass (s : State) (b : BId) (req : ReqId) : Option Nat :=
  if req.val == b.val then some 5
  else if s.isHbr b && req == 9 then some 6
  else if s.isHbr b && req == 10 then some 7
  else none

/-- The value a DK_ALLOC_… read returns for device-wide buffer g. -/
def allocWord (g : Nat) : Word := pack [(g, 0, 12), (1, 15, 1)]

/-- A register allocation (R381–R384): the word read, and the state. -/
def allocRead (b : BId) (req : ReqId) (any : Bool) (s : State) : Word × State :=
  match allocClass s b req with
  | none => (0, s)
  | some c =>
    match deckAlloc b c any s with
    | (some g, s) => (allocWord g, s)
    | (none, s) => (0, s.updDk b fun d => { d with deny := vmod d.deny c sinc })

/-- The hands a requester releases for: the pilot of berth n class 5 there; USB class 6 and two-wire class 7 of
the harbour. -/
def reqHand (s : State) (req : ReqId) : Option Hand :=
  if req.val < 8 then some ⟨bid req.val, 5⟩
  else match s.harbour with
    | some h => if req == 9 then some ⟨h, 6⟩ else if req == 10 then some ⟨h, 7⟩ else none
    | none => none

/-- Whether a requester may release device-wide buffer g (R385): it was handed the buffer, or its own hand
instance holds it and it has not been handed to another. -/
def mayRelease (s : State) (req : ReqId) (g : Nat) : Bool :=
  match ((s.at (bid (g / 512))).dk.handed.find? fun e => e.1 == g % 512) with
  | some e => e.2 == req
  | none => (holderOf s g).isSome && holderOf s g == reqHand s req

/-- A write to DK_FREE of berth b (R385): releases the buffer, or counts a bad free. -/
def freeWrite (b : BId) (req : ReqId) (g : Nat) (s : State) : State :=
  if g / 512 == b.val && mayRelease s req g then deckRelease g s
  else s.updDk b fun d => { d with badFree := sinc d.badFree }

end Sys2Proof.Machine
end

