-- ==== Sys2Proof/Machine/Report.lean ====
section
/-! DEFINITION. Reports every block makes: pilot interrupts (PL_IRQ_PEND), attention (R412), telemetry (R444–R446),
log records (R161–R167), and retirement notices (R455–R457). -/
namespace Sys2Proof.Machine

/-- Sets a bit of PL_IRQ_PEND of berth b. -/
def irq (b : BId) (bit : Nat) (s : State) : State :=
  s.updPl b fun p => { p with irqPend := p.irqPend ||| (1#32 <<< bit) }

/-- Whether telemetry records of a kind are generated at berth h (R445, R446). -/
def telOn (s : State) (h : BId) (kind : Nat) : Bool :=
  let u := (s.at h).us
  u.active && u.dev == .configured && bitAt u.cfg 2 && !u.halt81 && nbit u.telCfg (kind - 1)

/-- The bytes of a telemetry record (R444). -/
def telBytes (s : State) (h : BId) (kind chan : Nat) (payload : List Byte) : List Byte :=
  let u := (s.at h).us
  let body := leBytes 2 0x7E1A ++ [BitVec.ofNat 8 kind, BitVec.ofNat 8 chan] ++ leBytes 2 payload.length ++ [0, 0]
    ++ leBytes 4 u.telSeq ++ leBytes 5 (s.at h).td.tide ++ leBytes 1 (s.at h).td.mark ++ [0, 0]
    ++ payload ++ List.replicate ((4 - payload.length % 4) % 4) 0
  body ++ leBytes 4 (crc32 body).toNat

/-- Takes n buffers of a class (all or none). -/
def allocMany (b : BId) (cls : Nat) (any : Bool) : Nat → State → Option (List Nat) × State
  | 0, s => (some [], s)
  | k + 1, s =>
    match deckAlloc b cls any s with
    | (none, t) => (none, t)
    | (some g, t) =>
      match allocMany b cls any k t with
      | (some gs, u) => (some (g :: gs), u)
      | (none, u) => (none, deckRelease g u)

/-- Queues one telemetry record at berth h, its bytes copied into class-6 buffers; drops it where none can be
taken (R446). -/
def telPut (h : BId) (kind : Nat) (payload : List Byte) (s : State) : State :=
  let bytes := telBytes s h kind 0 payload
  match allocMany h 6 true ((bytes.length + 255) / 256) s with
  | (some gs, t) => t.upd h fun x => { x with us := { x.us with
      telQueue := x.us.telQueue ++ [⟨bytes, gs, false⟩], telSeq := (x.us.telSeq + 1) % 2 ^ 32 } }
  | (none, t) => t.upd h fun x => { x with us := { x.us with
      telDrop := sinc x.us.telDrop, telLoss := x.us.telLoss + 1 } }

/-- A LOSS record before the next record queued after a drop (R445, R446). -/
def telLossFirst (h : BId) (s : State) : State :=
  let n := (s.at h).us.telLoss
  if n == 0 || !telOn s h 5 then s
  else
    let bytes := telBytes s h 5 0 (leBytes 4 n)
    match allocMany h 6 true 1 s with
    | (some gs, t) => t.upd h fun x => { x with us := { x.us with
        telQueue := x.us.telQueue ++ [⟨bytes, gs, false⟩], telSeq := (x.us.telSeq + 1) % 2 ^ 32, telLoss := 0 } }
    | (none, t) => t

/-- Generates one telemetry record on the harbour where its kind is enabled. -/
def telemetry (kind : Nat) (payload : List Byte) (s : State) : State :=
  match s.harbour with
  | none => s
  | some h => if telOn s h kind then telPut h kind payload (telLossFirst h s) else s

/-- Sets attention bits on the harbour (R412). A bit that becomes pending after lock makes a signal due (R413)
and generates an ATTN record (R445). -/
def attnAt (h : BId) (bit : Nat) (s : State) : State :=
  let tw := (s.at h).tw
  let fresh := !nbit tw.attn bit && nbit tw.attnEn bit
  let s := s.upd h fun x => { x with tw := { x.tw with
    attn := x.tw.attn ||| 2 ^ bit
    sigDue := x.tw.sigDue || (fresh && x.ch.locked && x.tw.active) } }
  if fresh && (s.at h).ch.locked then
    let s := telemetry 4 (leBytes 4 ((s.at h).tw.attn &&& (s.at h).tw.attnEn)) s
    s.upd h fun x => { x with us := { x.us with wakeReq := x.us.wakeReq || (x.us.susp && x.us.rwake) } }
  else s

/-- Sets an attention bit on the harbour, where there is one. -/
def attn (bit : Nat) (s : State) : State :=
  match s.harbour with
  | some h => attnAt h bit s
  | none => s

/-! ### Log records -/

/-- The record berth b would write now (R161). -/
def mkRec (s : State) (b : BId) (ty : Nat) (p0 p1 p2 : Word) : LogRec :=
  let x := s.at b
  { ty := ty, origin := b.val + 8 * b2n x.sy.isHarbour, seq := x.log.seq, tide := x.td.tide, mark := x.td.mark
    sub := min (s.now - x.td.markStart) 0xFFFF, p0 := p0, p1 := p1, p2 := p2 }

/-- The 32 bytes of a record in the log (R161). -/
def recBytes (r : LogRec) : List Byte :=
  let body := [0x3C, 0x5A] ++ leBytes 1 r.ty ++ leBytes 1 r.origin ++ leBytes 4 r.seq ++ leBytes 5 r.tide
    ++ leBytes 1 r.mark ++ leBytes 2 r.sub ++ wordsBytes [r.p0, r.p1, r.p2]
  body ++ leBytes 4 (crc32 body).toNat

/-- The log region (R166): its first flash offset, and its 496 sectors of 64 KiB on a 64 MiB flash (DESIGN CHOICE, notes entry 7). -/
abbrev logBase : Nat := 0x02100000
abbrev logSectors : Nat := 496

/-- The flash offset of the log sector after `off`, wrapping (R167). -/
def nextSector (off : Nat) : Nat :=
  if off + 0x10000 ≥ logBase + 0x10000 * logSectors then logBase else off + 0x10000

/-- Whether every byte of the sector at `off` reads 0xFF. -/
def sectorErased (m : Mem) (off : Nat) : Bool := m.all fun c => !(off ≤ c.1 && c.1 < off + 0x10000)

/-- The harbour opens a log sector (R166, R167): the sector is erased first where it is not erased, its SECTOR
record follows, and the sector after it is erased. The SECTOR record takes the harbour's next SEQ. -/
def logOpenSector (h : BId) (off gen : Nat) (s : State) : State :=
  let r := mkRec s h 0x01 (wordOf gen) (wordOf logSectors) 0
  let first := if sectorErased (s.at h).flash off then [] else [LogOp.erase off]
  s.updLog h fun l => { l with seq := (l.seq + 1) % 2 ^ 32
                               ops := l.ops ++ first ++ [.sector off gen r, .erase (nextSector off)] }

/-- Starts the first waiting flash operation of the log region. -/
def logStartOp (h : BId) (s : State) : State :=
  s.updLog h fun l => match l.ops with
    | [] => l
    | o :: os => { l with busy := some o, ops := os }

/-- A chart or image read runs on the harbour's flash: it comes before every program and erase there (R167, R443). -/
def flashReads (x : Berth) : Bool := x.ch.load != .idle || x.tray.img.job != .idle

/-- A flash operation of a download runs on flash f (R443). -/
def dfuHolds (x : Berth) (f : BId) : Bool :=
  match x.us.dfu.op with
  | some (.erase g _) | some (.program g _ _) => g == f
  | none => false

/-- Starts the harbour's next log program or erase where one may start (R167–R169): the QSPI controller has its clock and no other
work. -/
def logPump (h : BId) (s : State) : State :=
  let l := (s.at h).log
  if l.busy.isSome || l.guard || s.dev.sleep || flashReads (s.at h) || dfuHolds (s.at h) h then s
  else if !l.ops.isEmpty then logStartOp h s
  else if !l.ready || l.awaitReset then s
  else match l.queue, l.sector with
    | (r :: _, _) :: _, some off =>
      if l.slotN ≥ 2048 then logStartOp h (logOpenSector h (nextSector off) (l.gen + 1) s)
      else s.updLog h fun l => { l with busy := some (.record (off + 32 * l.slotN) r), slotN := l.slotN + 1 }
    | _, _ => s

/-- The harbour's log writer takes a buffer of records into its queue; each goes out as LOG telemetry too (R445).
The buffer with the RESET record goes ahead of every other (R169). -/
def logTake (h : BId) (own : Bool) (recs : List LogRec) (buf : Option Nat) (s : State) : State :=
  let s := s.updLog h fun l =>
    if l.awaitReset && own then { l with queue := (recs, buf) :: l.queue, awaitReset := false }
    else { l with queue := l.queue ++ [(recs, buf)] }
  logPump h (iter recs (fun r t => telemetry 1 (recBytes r) t) s)

/-- Berth b sends its buffer: to the harbour's queue where b is the harbour, else over the ring (R165). -/
def logSend (b : BId) (s : State) : State :=
  let l := (s.at b).log
  if l.cur.isEmpty then s
  else
    let t := s.updLog b fun l => { l with cur := [], curBuf := none }
    if s.isHbr b then logTake b true l.cur l.curBuf t
    else
      let t := ringSend b (some (s.at b).sy.harbour) (.logBuffer l.cur) t
      match l.curBuf with
      | some g => deckRelease g t
      | none => t

/-- Numbers a record and puts it in the part-filled buffer; a full buffer is sent. -/
def logPush (b : BId) (ty : Nat) (p0 p1 p2 : Word) (s : State) : State :=
  let r := mkRec s b ty p0 p1 p2
  let s := s.updLog b fun l => { l with seq := (l.seq + 1) % 2 ^ 32, cur := l.cur ++ [r] }
  if (s.at b).log.cur.length ≥ 8 then logSend b s else s

/-- Makes sure berth b has an open log buffer of its log-writer hand (class 3). -/
def logOpen (b : BId) (s : State) : Bool × State :=
  match (s.at b).log.curBuf with
  | some _ => (true, s)
  | none =>
    match deckAlloc b 3 false s with
    | (some g, t) => (true, t.updLog b fun l => { l with curBuf := some g })
    | (none, t) => (false, t)

/-- Drops the record: it takes a SEQ and is counted (R165). -/
def logDropOne (b : BId) (s : State) : State :=
  s.updLog b fun l => { l with seq := (l.seq + 1) % 2 ^ 32, drop := sinc l.drop, lossDue := l.lossDue + 1 }

/-- The LOSS record that precedes the first record after a drop (R165). -/
def logLoss (b : BId) (s : State) : State :=
  let n := (s.at b).log.lossDue
  if n == 0 then s
  else logPush b 0x04 (wordOf n) (wordOf b.val) 0 (s.updLog b fun l => { l with lossDue := 0 })

/-- Berth b generates a log record (R161–R165): nothing before lock; dropped where its hand has no buffer. -/
def logRec (b : BId) (ty : Nat) (p0 p1 p2 : Word) (s : State) : State :=
  if !(s.at b).log.on then s
  else
    match logOpen b s with
    | (false, t) => logDropOne b t
    | (true, t) =>
      match logOpen b (logLoss b t) with
      | (true, u) => logPush b ty p0 p1 p2 u
      | (false, u) => logDropOne b u

/-! ### Retirement -/

/-- One event of a fault class in a unit's history (R455): retire or not, the history after it, and the number
of events in the window before it. -/
def classEvent (s : State) (b : BId) (cls : Nat) (h : Hist) : Bool × Hist × Nat :=
  let nw := retireNW (s.at b) cls
  let t := s.hTide b
  let e := histEvent h t nw.1 nw.2
  (e.1, e.2, inWindow h t nw.2)

/-- A retirement notice of berth b to the harbour (R457): KIND, INDEX, rule code, events in the window. -/
def notice (b : BId) (kind index rule events : Nat) (s : State) : State :=
  ringSend b (some (s.at b).sy.harbour) (.retireNotice kind index rule events) s

end Sys2Proof.Machine
end

