-- ==== Sys2Proof/Machine/Log.lean ====
section
/-! DEFINITION. The log region of the harbour's flash: arrivals, programs, erases and the head search (R165–R171). -/
namespace Sys2Proof.Machine

/-- The bits a record type's payload words may set (R162, R163 and the record tables of the chapters); none for a
type that is not written. -/
def recMasks (ty : Nat) : Option (Nat × Nat × Nat) :=
  let all := 0xFFFFFFFF
  match ty with
  | 0x01 => some (all, all, 0)
  | 0x02 => some (0x1F, 7, 0)
  | 0x03 => some (7, 0, 0)
  | 0x04 => some (all, 7, 0)
  | 0x08 | 0x09 | 0x0A | 0x0B | 0x0C | 0x0D | 0x0E | 0x0F | 0x10 | 0x11 => some (0x0FFF01FF, 0x0FFF0FFF, 0x03FFFFFF)
  | 0x20 => some (0x0007FFFF, all, all)
  | 0x21 => some (0xFFFF00F1, 0x0003FFFF, 0xFF)
  | 0x22 => some (all, 0xFFFF, 0xF)
  | 0x23 => some (0xF, 0xFFFF, 0xFFFF)
  | 0x28 => some (0xFF1F, 0x03FFFFFF, 0xFFFF)
  | 0x29 => some (0xFF03, 0xFF, 0)
  | 0x2A => some (0x1FF01, 0x0FFF0FFF, 0)
  | 0x2B => some (0x101, 0x0FFF0FFF, 0xFF)
  | 0x2C => some (0xF01, 0, 0)
  | 0x2D => some (0xF, 0xFFFF, 0x3FF)
  | 0x30 => some (0x0FFFFF7F, all, 7)
  | 0x31 => some (0x3FF07, 0x01FF01FF, 0xFFF)
  | 0x32 => some (0xF107, 0xFF, 0)
  | 0x33 => some (7, 0xFFFF, 0xFFFF)
  | 0x38 => some (0x7FF03, all, 0xFFFFFF)
  | 0x39 => some (0x177, 0xFF, 0)
  | 0x3A => some (all, all, all)
  | 0x40 => some (0x1F77, 0xFFFFFF, all)
  | 0x41 => some (0xFFF3F, all, 0xFF)
  | 0x48 => some (0xFFFFFF1F, all, 0x3FFFFF)
  | 0x49 => some (0x03FF001F, all, 0xFF)
  | 0x4A => some (0xF3FF, 0xFF, 0)
  | 0x4B => some (0x1F1F, all, 0xFF)
  | 0x4C => some (0xFFF7, 0, 0)
  | 0x50 => some (0x7FF0F, all, 0xFF)
  | 0x51 => some (0xFF0F, all, all)
  | 0x52 => some (0xFFFF3F, all, 0xFF)
  | 0x58 => some (0x17F, 0xFFFF00FF, 0xFFFF)
  | 0x60 => some (0x07FFFF1F, all, all)
  | 0x68 => some (0xFFFF00FF, 0xFFFF, 0)
  | 0x69 => some (0xFFFF00FF, 0xFF0F, 0)
  | _ => none

/-- Whether the 32 bytes of a slot are a valid record under R170. A record of a type that this spec does not list
has no reserved payload bit it could set (R162). -/
def recValid (bs : List Byte) : Bool :=
  let masks := (recMasks (natAt bs 2 1)).getD (0xFFFFFFFF, 0xFFFFFFFF, 0xFFFFFFFF)
  let inMask (n m : Nat) : Bool := n &&& m == n
  natAt bs 0 2 == 0x5A3C && natAt bs 0x1C 4 == (crc32 (bs.take 0x1C)).toNat && natAt bs 3 1 < 16
    && inMask (natAt bs 0x10 4) masks.1 && inMask (natAt bs 0x14 4) masks.2.1 && inMask (natAt bs 0x18 4) masks.2.2

/-- The 32 bytes of a log slot; none where its read fails (R169, R170). -/
def slotBytes (m : Mem) (failed : List Nat) (off : Nat) : Option (List Byte) :=
  if failed.contains off then none else some (memRead flashD m off 32)

/-- Whether a slot is erased: all of its 32 bytes read 0xFF (R169). -/
def slotErased (o : Option (List Byte)) : Bool := o == some (List.replicate 32 0xFF)

/-- Whether a slot is torn (R170). -/
def slotTorn (o : Option (List Byte)) : Bool :=
  !slotErased o && match o with
  | some bs => !recValid bs
  | none => true

/-- The generation of the sector at `off`, where its slot 0 holds a valid SECTOR record. -/
def sectorGen (m : Mem) (failed : List Nat) (off : Nat) : Option Nat :=
  match slotBytes m failed off with
  | some bs => if recValid bs && natAt bs 2 1 == 1 then some (natAt bs 0x10 4) else none
  | none => none

/-- The sector with the highest generation and that generation (R169 step 2). -/
def bestSector (m : Mem) (failed : List Nat) : Option (Nat × Nat) :=
  (upto logSectors).foldl (fun acc i =>
    let off := logBase + 0x10000 * i
    match sectorGen m failed off, acc with
    | some g, some (_, h) => if g > h then some (off, g) else acc
    | some g, none => some (off, g)
    | none, _ => acc) none

/-- The slot after the last slot of a sector that is not erased (R169 step 3). -/
def headSlot (m : Mem) (failed : List Nat) (off : Nat) : Nat :=
  (upto 2048).foldl (fun acc i => if slotErased (slotBytes m failed (off + 32 * i)) then acc else i + 1) 0

/-- Torn slots of a sector (R169). -/
def tornSlots (m : Mem) (failed : List Nat) (off : Nat) : Nat :=
  ((upto 2048).filter fun i => slotTorn (slotBytes m failed (off + 32 * i))).length

/-- The harbour has read the sector headers and finds the head (R169); slots whose read failed are named. -/
def logHeadFound (h : BId) (failed : List Nat) (s : State) : State :=
  if !(s.isHbr h && (s.at h).log.finding) then s
  else
    let m := (s.at h).flash
    let s := s.updLog h fun l => { l with finding := false, ready := true }
    match bestSector m failed with
    | none => logPump h (logOpenSector h logBase 1 s)
    | some (off, g) =>
      let n := headSlot m failed off
      let s := s.updLog h fun l => { l with sector := some off, gen := g, slotN := n, torn := tornSlots m failed off }
      logPump h (if n ≥ 2048 then logOpenSector h (nextSector off) (g + 1) s else s)

/-- LOG_HEAD_FOUND (R169). -/
def execLogHeadFound (h : BId) (failed : List Nat) (s : State) : Host.Outcome State Fault Refusal :=
  ran s (logHeadFound h failed s.begin)

/-- Programs bytes into a flash: a program only clears bits (R169: a slot not erased is never rewritten). -/
def flashProgram (off : Nat) (bs : List Byte) (m : Mem) : Mem :=
  ((upto bs.length).zip bs).foldl (fun m e => memSet flashD m (off + e.1) (memGet flashD m (off + e.1) &&& e.2)) m

/-- Erases n bytes of flash from `off`. -/
def flashErase (off n : Nat) (m : Mem) : Mem := m.filter fun c => !(off ≤ c.1 && c.1 < off + n)

/-- The front record of the queue is in the log: its buffer is released once empty (R167, R168). -/
def logRetireRecord (h : BId) (s : State) : State :=
  match (s.at h).log.queue with
  | (_ :: r :: rs, g) :: q => s.updLog h fun l => { l with queue := (r :: rs, g) :: q }
  | (_, g) :: q =>
    let s := s.updLog h fun l => { l with queue := q }
    match g with
    | some g => deckRelease g s
    | none => s
  | [] => s

/-- The harbour drops the arriving records of berth o (R165). -/
def logArriveDrop (h o : BId) (n : Nat) (s : State) : State :=
  s.updLog h fun l => { l with drop := sadd l.drop n, originDrop := vmod l.originDrop o.val fun k => k + n }

/-- The LOSS record the harbour generates, in a buffer of its own, before the next record of an origin whose records it dropped; its
own waiting records go before it (R165, R167). Whether nothing is left to tell. -/
def logOriginLoss (h o : BId) (s : State) : Bool × State :=
  let n := vget (s.at h).log.originDrop o.val
  if n == 0 then (true, s)
  else
    let s := logRec h 0x04 (wordOf n) (wordOf o.val) 0 s
    if (s.at h).log.lossDue != 0 then (false, s)
    else (true, logSend h (s.updLog h fun l => { l with originDrop := vset l.originDrop o.val 0 }))

/-- A buffer of records of berth o arrives at harbour h (R165, R167): queued, or dropped where the harbour's
log-writer hand has no buffer. A berth that is not the harbour takes none (R171). -/
def logBufferArrive (h o : BId) (recs : List LogRec) (s : State) : State :=
  if !(s.isHbr h && (s.at h).log.on) then s
  else
    match deckAlloc h 3 false s with
    | (none, s) => logArriveDrop h o recs.length s
    | (some g, s) => match logOriginLoss h o s with
      | (true, s) => logTake h false recs (some g) s
      | (false, s) => logArriveDrop h o recs.length (deckRelease g s)

/-- LOG_BUFFER_ARRIVE (R165). -/
def execLogBufferArrive (h o : BId) (recs : List LogRec) (s : State) : Host.Outcome State Fault Refusal :=
  ran s (logBufferArrive h o recs s.begin)

/-- A main supply crosses its write guard (R168): `below` while any supply is below its level. -/
def writeGuardChange (below : Bool) (s : State) : State :=
  let s := s.updAll fun _ x => { x with log := { x.log with guard := below } }
  iter allB (fun b t => if t.isHbr b then logPump b t else t) s

/-- WRITE_GUARD_CHANGE (R168). -/
def execWriteGuardChange (below : Bool) (s : State) : Host.Outcome State Fault Refusal :=
  ran s (writeGuardChange below s.begin)

/-- n free bytes (DESIGN CHOICE, notes entry 3). -/
def freeBytes : Nat → State → List Byte × State
  | 0, s => ([], s)
  | k + 1, s =>
    let d := s.draw
    let r := freeBytes k d.2
    (BitVec.ofNat 8 d.1.toNat :: r.1, r.2)

/-- A program of a flash that does not complete: any of its bits may stay erased (free values; DESIGN CHOICE, notes entry 12). -/
def tornProgram (f : BId) (off : Nat) (bs : List Byte) (s : State) : State :=
  let v := freeBytes bs.length s
  v.2.upd f fun x => { x with flash := flashProgram off ((bs.zip v.1).map fun e => e.1 ||| e.2) x.flash }

/-- An erase of a flash that does not complete: any part of the sector may stay as it was (free values; DESIGN CHOICE, notes entry 12). -/
def tornErase (f : BId) (off : Nat) (s : State) : State :=
  let part := (s.at f).flash.filter fun c => off ≤ c.1 && c.1 < off + 0x10000
  let v := freeBytes part.length s
  v.2.upd f fun x => { x with flash := (part.zip v.1).foldl (fun m e => memSet flashD m e.1.1 (e.1.2 ||| e.2)) x.flash }

/-- A supply collapse during a flash operation of the log (R168): a record under program may be torn, an erase may leave
any part of its sector. -/
def logCollapse (h : BId) (s : State) : State :=
  match (s.at h).log.busy with
  | none => s
  | some (.erase off) => tornErase h off s
  | some (.sector off _ r) | some (.record off r) => tornProgram h off (recBytes r) s

/-- The log writer of berth b starts at lock (R165, R169): SEQ 0. -/
def logStart (b : BId) (s : State) : State :=
  s.updLog b fun l => if l.on then l else { on := true, guard := l.guard }

/-- The harbour's log region writer starts: it searches for the head, and its first record (RESET at lock, TAKEOVER
after a takeover) follows (R169, R171). -/
def logServe (h : BId) (ty : Nat) (p0 p1 : Word) (first : Bool) (s : State) : State :=
  let s := s.updLog h fun l => { l with finding := true, awaitReset := first }
  logRec h ty p0 p1 0 s

end Sys2Proof.Machine
end

