-- ==== Sys2Proof/Machine/Crypto.lean ====
section
/-! DEFINITION. The published algorithms that the spec names (R15): SHA-384 (FIPS 180-4) and ECDSA verification on curve P-384
(FIPS 186-5), with the byte orders of R3 and R91. -/
namespace Sys2Proof.Machine

/-! ### SHA-384 (FIPS 180-4) -/

abbrev W64 := BitVec 64

/-- The initial hash value of SHA-384. -/
def shaInit : List W64 := [
  0xcbbb9d5dc1059ed8, 0x629a292a367cd507, 0x9159015a3070dd17, 0x152fecd8f70e5939,
  0x67332667ffc00b31, 0x8eb44a8768581511, 0xdb0c2e0d64f98fa7, 0x47b5481dbefa4fa4]

/-- The round constants of SHA-512. -/
def shaK1 : List W64 := [
  0x428a2f98d728ae22, 0x7137449123ef65cd, 0xb5c0fbcfec4d3b2f, 0xe9b5dba58189dbbc,
  0x3956c25bf348b538, 0x59f111f1b605d019, 0x923f82a4af194f9b, 0xab1c5ed5da6d8118,
  0xd807aa98a3030242, 0x12835b0145706fbe, 0x243185be4ee4b28c, 0x550c7dc3d5ffb4e2,
  0x72be5d74f27b896f, 0x80deb1fe3b1696b1, 0x9bdc06a725c71235, 0xc19bf174cf692694,
  0xe49b69c19ef14ad2, 0xefbe4786384f25e3, 0x0fc19dc68b8cd5b5, 0x240ca1cc77ac9c65]
def shaK2 : List W64 := [
  0x2de92c6f592b0275, 0x4a7484aa6ea6e483, 0x5cb0a9dcbd41fbd4, 0x76f988da831153b5,
  0x983e5152ee66dfab, 0xa831c66d2db43210, 0xb00327c898fb213f, 0xbf597fc7beef0ee4,
  0xc6e00bf33da88fc2, 0xd5a79147930aa725, 0x06ca6351e003826f, 0x142929670a0e6e70,
  0x27b70a8546d22ffc, 0x2e1b21385c26c926, 0x4d2c6dfc5ac42aed, 0x53380d139d95b3df,
  0x650a73548baf63de, 0x766a0abb3c77b2a8, 0x81c2c92e47edaee6, 0x92722c851482353b]
def shaK3 : List W64 := [
  0xa2bfe8a14cf10364, 0xa81a664bbc423001, 0xc24b8b70d0f89791, 0xc76c51a30654be30,
  0xd192e819d6ef5218, 0xd69906245565a910, 0xf40e35855771202a, 0x106aa07032bbd1b8,
  0x19a4c116b8d2d0c8, 0x1e376c085141ab53, 0x2748774cdf8eeb99, 0x34b0bcb5e19b48a8,
  0x391c0cb3c5c95a63, 0x4ed8aa4ae3418acb, 0x5b9cca4f7763e373, 0x682e6ff3d6b2b8a3,
  0x748f82ee5defb2fc, 0x78a5636f43172f60, 0x84c87814a1f0ab72, 0x8cc702081a6439ec]
def shaK4 : List W64 := [
  0x90befffa23631e28, 0xa4506cebde82bde9, 0xbef9a3f7b2c67915, 0xc67178f2e372532b,
  0xca273eceea26619c, 0xd186b8c721c0c207, 0xeada7dd6cde0eb1e, 0xf57d4f7fee6ed178,
  0x06f067aa72176fba, 0x0a637dc5a2c898a6, 0x113f9804bef90dae, 0x1b710b35131c471b,
  0x28db77f523047d84, 0x32caab7b40c72493, 0x3c9ebe0a15c9bebc, 0x431d67c49c100d4c,
  0x4cc5d4becb3e42b6, 0x597f299cfc657e2a, 0x5fcb6fab3ad6faec, 0x6c44198c4a475817]
def shaK : List W64 := shaK1 ++ shaK2 ++ shaK3 ++ shaK4

/-- A big-endian number from bytes, and the n big-endian bytes of a number. -/
def beNat (bs : List Byte) : Nat := leNat bs.reverse
def beBytes (n v : Nat) : List Byte := (leBytes n v).reverse

/-- The padded message: bit 1, zeros up to a multiple of 128 bytes, the length in bits. -/
def shaPad (bs : List Byte) : List Byte :=
  bs ++ 0x80 :: List.replicate ((239 - bs.length % 128) % 128) 0 ++ beBytes 16 (8 * bs.length)

/-- The message schedule, newest word first: k words more after those given. -/
def shaSchedule : Nat → List W64 → List W64
  | 0, ws => ws
  | k + 1, ws =>
    let w (i : Nat) : W64 := (ws[i - 1]?).getD 0
    let s0 := (w 15).rotateRight 1 ^^^ (w 15).rotateRight 8 ^^^ (w 15 >>> 7)
    let s1 := (w 2).rotateRight 19 ^^^ (w 2).rotateRight 61 ^^^ (w 2 >>> 6)
    shaSchedule k ((s1 + w 7 + s0 + w 16) :: ws)

/-- One round on the working variables a to h, with round constant plus message word `kw`. -/
def shaRound (v : List W64) (kw : W64) : List W64 :=
  match v with
  | [a, b, c, d, e, f, g, h] =>
    let t1 := h + (e.rotateRight 14 ^^^ e.rotateRight 18 ^^^ e.rotateRight 41) + ((e &&& f) ^^^ (~~~e &&& g)) + kw
    let t2 := (a.rotateRight 28 ^^^ a.rotateRight 34 ^^^ a.rotateRight 39) + ((a &&& b) ^^^ (a &&& c) ^^^ (b &&& c))
    [t1 + t2, a, b, c, d + t1, e, f, g]
  | _ => v

/-- One block of 128 bytes. -/
def shaBlock (h : List W64) (blk : List Byte) : List W64 :=
  let m := ((upto 16).map fun i => BitVec.ofNat 64 (beNat ((blk.drop (8 * i)).take 8))).reverse
  let w := (shaSchedule 64 m).reverse
  List.zipWith (· + ·) h (List.foldl shaRound h (List.zipWith (· + ·) shaK w))

/-- n blocks of a padded message. -/
def shaBlocks : Nat → List W64 → List Byte → List W64
  | 0, h, _ => h
  | n + 1, h, bs => shaBlocks n (shaBlock h (bs.take 128)) (bs.drop 128)

/-- SHA-384 of a byte string, its first octet in the highest bits. -/
@[irreducible] def sha384 (bs : List Byte) : BitVec 384 :=
  let m := shaPad bs
  BitVec.ofNat 384 (((shaBlocks (m.length / 128) shaInit m).take 6).foldl (fun acc w => acc * 2 ^ 64 + w.toNat) 0)

/-! ### Curve P-384 -/

abbrev ecP : Nat := 2 ^ 384 - 2 ^ 128 - 2 ^ 96 + 2 ^ 32 - 1
abbrev ecN : Nat := 0xffffffffffffffffffffffffffffffffffffffffffffffffc7634d81f4372ddf581a0db248b0a77aecec196accc52973
abbrev ecB : Nat := 0xb3312fa7e23ee7e4988e056be3f82d19181d9c6efe8141120314088f5013875ac656398d8a2ed19d2a85c8edd3ec2aef
abbrev ecGx : Nat := 0xaa87ca22be8b05378eb1c71ef320ad746e1d3b628ba79b9859f741e082542a385502f25dbf55296c3a545e3872760ab7
abbrev ecGy : Nat := 0x3617de4a96262c6f5d9e98bf9292dc29f8f41dbd289a147ce9da3113b5f0b8c00a60b1ce1d7e819d7a431d7c90ea0e5f

/-- b to the power e modulo m; e has at most k bits. -/
def powMod (m b : Nat) : Nat → Nat → Nat
  | 0, _ => 1
  | k + 1, e =>
    let h := powMod m b k (e / 2)
    h * h % m * (if e % 2 == 1 then b else 1) % m

/-- The inverse modulo a prime m below 2^384. -/
def invMod (m a : Nat) : Nat := powMod m a 384 (m - 2)

def subMod (a b : Nat) : Nat := (a + ecP - b % ecP) % ecP

/-- Sum of two points of the curve; none is the point at infinity. -/
def ecAdd (a b : Option (Nat × Nat)) : Option (Nat × Nat) :=
  match a, b with
  | none, q => q
  | p, none => p
  | some (x1, y1), some (x2, y2) =>
    if x1 == x2 && (y1 + y2) % ecP == 0 then none
    else
      let l := if x1 == x2 then (3 * x1 * x1 + ecP - 3) * invMod ecP (2 * y1 % ecP) % ecP
        else subMod y2 y1 * invMod ecP (subMod x2 x1) % ecP
      let x := subMod (l * l) (x1 + x2)
      some (x, subMod (l * subMod x1 x) y1)

/-- A point's multiple by e, which has at most k bits. -/
def ecMul (p : Option (Nat × Nat)) : Nat → Nat → Option (Nat × Nat)
  | 0, _ => none
  | k + 1, e =>
    let h := ecMul p k (e / 2)
    let d := ecAdd h h
    if e % 2 == 1 then ecAdd d p else d

/-- A pair is a point of the curve. -/
def ecOn (x y : Nat) : Bool := x < ecP && y < ecP && y * y % ecP == (x * x * x + (ecP - 3) * x + ecB) % ecP

/-- ECDSA verification (FIPS 186-5, 6.4.2) over a digest: key octets X and Y, signature octets r and s (R91). A key that is no point
of the curve verifies nothing (DEDUCED, notes entry 4). -/
@[irreducible] def ecdsaVerify (key sig : List Byte) (digest : BitVec 384) : Bool :=
  let x := beNat (key.take 48)
  let y := beNat ((key.drop 48).take 48)
  let r := beNat (sig.take 48)
  let s := beNat ((sig.drop 48).take 48)
  if !(ecOn x y && 0 < r && r < ecN && 0 < s && s < ecN) then false
  else
    let w := invMod ecN s
    match ecAdd (ecMul (some (ecGx, ecGy)) 384 (digest.toNat * w % ecN)) (ecMul (some (x, y)) 384 (r * w % ecN)) with
    | none => false
    | some (vx, _) => vx % ecN == r

end Sys2Proof.Machine
end

