-- ==== Sys2Proof/Machine/HwOps.lean ====
section
/-! DEFINITION. Hawser orders: messages, tags and queues (R320–R323, R326, R331), shared by the mailbox, DMA, the
power block and the service engine. -/
namespace Sys2Proof.Machine

def opCode : OrdOp → Nat
  | .read => 1 | .write => 2 | .freq => 3 | .ctrl => 4

/-- The frames of an order's message (R320, R321): header first, then DATA frames of 24 bytes. -/
def orderFrames (tag : Nat) (o : Order) : List (Nat × List Word) :=
  let p1 := pack [(tag, 0, 6), (opCode o.op, 8, 8), (match o.op with | .read => o.len | .write => o.len | _ => 0, 16, 9)]
  let adr := [wordOf o.addr, wordOf (o.addr / 2 ^ 32 % 256)]
  match o.op with
  | .read => [(2, p1 :: adr ++ [0, 0, 0])]
  | .write =>
    let rest := o.data.drop 12
    (2, p1 :: adr ++ bytesWords (o.data.take 12) 3) ::
      (upto ((rest.length + 23) / 24)).map fun i => (5, bytesWords ((rest.drop (24 * i)).take 24) 6)
  | .freq => [(2, p1 :: o.args)]
  | .ctrl => [(2, p1 :: o.args)]

/-- Tags that are not free: in use, waiting to be read, or quarantined. -/
def tagBusy (t : TagSt) : Bool := match t with
  | .free => false
  | _ => true

/-- Tags in use (HW_STAT.TAGS_USED): held by an order until its completion is taken (R323). -/
def tagsUsed (h : Hw) : Nat := (h.tags.toList.filter fun t => match t with
  | .used _ => true
  | .done _ => true
  | .quarantined (some _) => true
  | _ => false).length

def quarantinedTags (h : Hw) : Nat := (h.tags.toList.filter fun t => match t with
  | .quarantined _ => true
  | _ => false).length

/-- Free tags under the effective outstanding limit (R312, R323). -/
def freeTags (h : Hw) : Nat := h.limit - (h.tags.toList.filter tagBusy).length

/-- Tags reserved to hardware orders (R323). -/
def hwRsv (h : Hw) : Nat := min 8 (h.limit - 1)

/-- Whether an owner's orders are hardware orders (R323). -/
def isHardware : OrdOwner → Bool
  | .freq _ _ => true
  | .service _ => true
  | .report => true
  | _ => false

/-- Whether orders may be issued: the link is UP, or in RETRAIN, where they are queued (R327). -/
def linkOpen (h : Hw) : Bool := h.link == .up || h.link == .retrain

/-- The lowest free tag, if the order may take one now (R323, R327). -/
def tagFor (h : Hw) (w : OrdOwner) : Option Nat :=
  if linkOpen h && decide (freeTags h > (if isHardware w then 0 else hwRsv h)) then
    (upto 64).find? fun i => !tagBusy (vget h.tags i)
  else none

/-- Queues the message of an order under its tag, by precedence class (R326). -/
def enqueue (tag : Nat) (o : Order) (h : Hw) : Hw :=
  let m : TxMsg := ⟨tag, orderFrames tag o⟩
  let h := { h with tags := vset h.tags tag (.used o) }
  match o.op with
  | .freq => { h with tx := { h.tx with freqQ := h.tx.freqQ ++ [m] } }
  | .ctrl => { h with tx := { h.tx with ctrlQ := h.tx.ctrlQ ++ [m] } }
  | _ => { h with tx := { h.tx with rwQ := h.tx.rwQ ++ [m] } }

/-- Issues an order on berth b's link: the tag it took, or none. -/
def issue (b : BId) (o : Order) (s : State) : Option Nat × State :=
  match tagFor (s.at b).hw o.owner with
  | some t => (some t, s.updHw b (enqueue t o))
  | none => (none, s)

/-- Issues a hardware order, or keeps it waiting for a free tag. -/
def issueHw (b : BId) (o : Order) (s : State) : State :=
  match issue b o s with
  | (some _, t) => t
  | (none, t) => t.updHw b fun h => { h with waiting := h.waiting ++ [o] }

/-- Issues the hardware orders that wait, as tags allow. -/
def issueWaiting (b : BId) (s : State) : State :=
  let w := (s.at b).hw.waiting
  iter w (fun o t => issueHw b o t) (s.updHw b fun h => { h with waiting := [] })

/-- Whether an order of the service engine holds a buffer of the hawser hand. -/
def svcBuffer (o : Order) : Bool :=
  (o.op == .read || o.op == .write) && match o.owner with
    | .service _ => true
    | .report => true
    | _ => false

/-- Releases the hawser-hand buffer of a service engine's order that ends. -/
def freeSvcBuf (o : Order) (s : State) : State := if svcBuffer o then deckRelease o.buf s else s

/-- Frees a tag. -/
def freeTag (b : BId) (tag : Nat) (s : State) : State :=
  s.updHw b fun h => { h with tags := vset h.tags tag .free }

/-- Adds a completion entry to HW_CPL (R331); its tag stays in use until the entry is read. -/
def pushCpl (b : BId) (c : Cpl) (s : State) : State :=
  irq b 2 (s.updHw b fun h => { h with cpl := h.cpl ++ [c] })

/-- Code of a link state in HW_STAT. -/
def linkCode : LinkState → Nat
  | .off => 0 | .train => 1 | .up => 2 | .retrain => 3 | .retired => 4

/-- HAWSER_RETRAIN events in the window. -/
def hwEvents (s : State) (b : BId) : Nat :=
  inWindow (s.at b).hw.hist (s.hTide b) (retireNW (s.at b) 4).2

/-- The HW_LINK record (R334). -/
def logLink (b : BId) (old new : LinkState) (cause : Nat) (failed : Bool) (s : State) : State :=
  let h := (s.at b).hw
  logRec b 0x40 (pack [(linkCode new, 0, 3), (linkCode old, 4, 3), (cause, 8, 4), (b2n failed, 12, 1)])
    (pack [(hwEvents s b, 0, 8), (h.tx.acked, 8, 8), (h.rx.last, 16, 8)]) (wordOf h.tx.trainId) s

/-- Changes the link state: the LINK interrupt, and a HW_LINK record for UP, RETRAIN, OFF and RETIRED. -/
def setLink (b : BId) (new : LinkState) (cause : Nat) (s : State) : State :=
  let old := (s.at b).hw.link
  let s := s.updHw b fun h => { h with link := new }
  if old == new then s
  else
    let s := irq b 14 s
    if new == .train then s else logLink b old new cause false s

/-- The effective outstanding limit (R312): the smaller of MAX_OUT and the accelerator's CAP. -/
def effLimit (h : Hw) : Nat := min (fld h.cfg 14 8) h.remoteCap

end Sys2Proof.Machine
end

