-- ==== Sys2Proof/Machine/DmaOps.lean ====
section
/-! DEFINITION. The DMA engines' descriptors, starts, ends and faults (R389–R395). Bursts are in Dma.lean. -/
namespace Sys2Proof.Machine

def dmaOf (s : State) (b : BId) (e : Nat) : Dma := vget (s.at b).dm e

/-- Word w of descriptor slot i. -/
def descW (d : Dma) (i w : Nat) : Word := vget d.desc (8 * i + w)

def setDescW (i w : Nat) (v : Word) (d : Dma) : Dma := { d with desc := vset d.desc (8 * i + w) v }

/-- STATE of a slot (word 7 [2:0]). -/
def slotSt (d : Dma) (i : Nat) : Nat := fld (descW d i 7) 2 0

/-- Writes STATE, FAULT, ACC_CAUSE and STATUS of a slot. -/
def setSlot (i st flt acc status : Nat) (d : Dma) : Dma :=
  setDescW i 7 (pack [(st, 0, 3), (flt, 8, 4), (acc, 12, 4), (status, 16, 8)]) d

def dLen (d : Dma) (i : Nat) : Nat := fld (descW d i 3) 23 0
def dResume (d : Dma) (i : Nat) : Nat := fld (descW d i 6) 23 0
def setResume (i n : Nat) (d : Dma) : Dma := setDescW i 6 (pack [(n, 0, 24)]) d
def dOp (d : Dma) (i : Nat) : Nat := fld (descW d i 0) 3 0
def isHws (d : Dma) (i : Nat) : Bool := dOp d i == 3 || dOp d i == 4

/-- Where a local range of a descriptor lies: TCM or deck of a berth, or own registers (R391). -/
inductive DmaRegion where
  | tcm (off : Nat)
  | deck (b : BId) (off : Nat)
  | regs (off : Nat)
deriving DecidableEq, Repr

/-- The region that holds [a, a + n) in berth b's view (R36, R391), if one does. -/
def dmaRegion (b : BId) (a n : Nat) : Option DmaRegion :=
  let inR (lo size : Nat) : Bool := lo ≤ a && a + n ≤ lo + size
  let win (k : Nat) := 0x40000000 + k * 0x1000000
  if inR 0x20000000 0x40000 then some (.tcm (a - 0x20000000))
  else if inR (win b.val) 0x40000 then some (.tcm (a - win b.val))
  else if inR 0x20100000 0x20000 then some (.deck b (a - 0x20100000))
  else if inR 0x20F00000 0x10000 then some (.regs (a - 0x20000000))
  else if inR 0x30100000 0x100000 then
    (if (a - 0x30100000) / 0x20000 == (a + n - 1 - 0x30100000) / 0x20000
      then some (.deck (bid ((a - 0x30100000) / 0x20000)) ((a - 0x30100000) % 0x20000)) else none)
  else (allB.find? fun k => inR (win k.val + 0x100000) 0x20000).map fun k => .deck k (a - win k.val - 0x100000)

def isOwn (b : BId) : DmaRegion → Bool
  | .tcm _ => true
  | .deck k _ => k == b
  | .regs _ => false

def noRegs : DmaRegion → Bool
  | .regs _ => false
  | _ => true

/-- The check of a descriptor at its start (R389, R395): a fault code, or none. Order of the checks: DESIGN CHOICE, notes entry 9. -/
def descCheck (b : BId) (d : Dma) (i : Nat) : Option Nat :=
  let op := dOp d i
  let src := (descW d i 1).toNat
  let dst := (descW d i 2).toNat
  let len := dLen d i
  let hws := isHws d i
  let needZero := (op == 2 || op == 4) && src != 0 || op == 3 && dst != 0
    || op == 1 && descW d i 4 != 0 || !hws && descW d i 5 != 0
  let resv := fld (descW d i 0) 31 5 != 0 || fld (descW d i 3) 31 24 != 0 || fld (descW d i 5) 31 8 != 0
    || fld (descW d i 6) 31 24 != 0
  if op == 0 || op > 4 || resv || needZero then some 4
  else if len == 0 || len > 16777212 || dResume d i ≥ len then some 3
  else if src % 4 != 0 || dst % 4 != 0 || len % 4 != 0 then some 2
  else
    let srcR := dmaRegion b src len
    let dstR := dmaRegion b dst len
    let ok := match op with
      | 1 => srcR.isSome && dstR.any noRegs
      | 2 => dstR.any noRegs
      | 3 => srcR.any (isOwn b)
      | _ => dstR.any (isOwn b)
    if ok then none else some 1

/-- DMA events of an engine in the window. -/
def dmaEvents (s : State) (b : BId) (e : Nat) : Nat :=
  inWindow (dmaOf s b e).hist (s.hTide b) (retireNW (s.at b) 12).2

/-- The fault of the current slot takes effect (R395): the slot is FAULT, the engine HALTED or RETIRED. -/
def dmaHalt (b : BId) (e : Nat) (code acc status : Nat) (s : State) : State :=
  let i := (dmaOf s b e).cur
  let counts := code == 5 || code == 7 || code == 8 || code == 9
  let ev := classEvent s b 12 (dmaOf s b e).hist
  let retire := counts && ev.1
  let s := s.updDm b e fun d =>
    { setSlot i 5 code acc status d with
      st := if retire then .retired else .halted, flt := none, haltDue := false, doneOff := []
      faults := sinc d.faults, hist := if counts then ev.2.1 else d.hist }
  let s := irq b (5 + 2 * e) s
  let s := logRec b 0x52 (pack [(e, 0, 1), (i, 1, 5), (code, 8, 4), (acc, 12, 4), (status, 16, 8)])
    (wordOf (dResume (dmaOf s b e) i)) (wordOf (min (dmaEvents s b e + b2n retire) 255)) s
  if retire then notice b 0x0A e 0x0C ev.2.2 s else s

/-- A descriptor faults (R395): at once where no order is outstanding, else once they complete. -/
def dmaFault (b : BId) (e : Nat) (code acc status : Nat) (s : State) : State :=
  if (dmaOf s b e).out.isEmpty then dmaHalt b e code acc status s
  else s.updDm b e fun d => if d.flt.isSome then d else { d with flt := some (code, acc, status) }

/-- The bytes of an own local range (R391 HWS local side). -/
def ownRead (s : State) (b : BId) (r : DmaRegion) (n : Nat) : List Byte :=
  match r with
  | .tcm o => memRead ramD (s.at b).tcm o n
  | .deck k o => memRead ramD (s.at k).deck o n
  | .regs _ => []

def localWrite (b : BId) (r : DmaRegion) (bs : List Byte) (s : State) : State :=
  match r with
  | .tcm o => s.tcmWrite b o bs
  | .deck k o => s.deckWrite k o bs
  | .regs _ => s

/-- Issues one more hawser order of the running HWS descriptor where R393 allows; answers whether it did. -/
def dmaIssue (b : BId) (e : Nat) (s : State) : Bool × State :=
  let d := dmaOf s b e
  let i := d.cur
  let len := min 256 (dLen d i - d.nextOff)
  let link := (s.at b).hw.link
  if d.st != .running || !isHws d i || d.out.length ≥ 8 || d.nextOff ≥ dLen d i || d.flt.isSome || d.pre.isSome
      || d.haltDue then (false, s)
  else if link == .off || link == .train || link == .retired then
    (false, dmaFault b e 6 0 0x11 s)
  else if (tagFor (s.at b).hw (.dma (Fin.ofNat 2 e))).isNone then (false, s)
  else
    match deckAlloc b (1 + e) false s with
    | (none, t) => (false, t)
    | (some g, t) =>
      let acc := (descW d i 4).toNat + 2 ^ 32 * fld (descW d i 5) 7 0 + d.nextOff
      let data := match dmaRegion b ((descW d i 1).toNat + d.nextOff) len with
        | some r => if dOp d i == 3 then ownRead t b r len else []
        | none => []
      let t := if dOp d i == 3 then bufWrite g data t else t
      let o : Order := { op := if dOp d i == 3 then .write else .read, owner := .dma (Fin.ofNat 2 e)
                         addr := acc % 2 ^ 40, len := len, buf := g, data := data }
      match issue b o t with
      | (some tag, u) => (true, u.updDm b e fun d =>
          { d with out := d.out ++ [(d.nextOff, len, g, tag)], nextOff := d.nextOff + len })
      | (none, u) => (false, deckRelease g u)

/-- Issues orders until none may be issued (at most 8 outstanding). -/
def dmaPump (b : BId) (e : Nat) : Nat → State → State
  | 0, s => s
  | k + 1, s =>
    match dmaIssue b e s with
    | (true, t) => dmaPump b e k t
    | (false, t) => t

/-- The engine starts a slot (R390): QUEUED slots are checked and run; a slot at HEAD in another state faults. -/
def dmaStart (b : BId) (e i : Nat) (s : State) : State :=
  let s := s.updDm b e fun d => { d with cur := i, st := .running, flt := none, doneOff := [] }
  let d := dmaOf s b e
  if slotSt d i != 1 then dmaFault b e 0xA 0 0 s
  else
    match descCheck b d i with
    | some c => dmaFault b e c 0 0 s
    | none =>
      let s := s.updDm b e fun d => { setSlot i 2 0 0 0 d with nextOff := dResume d i }
      dmaPump b e 8 s

/-- A suspended or faulted slot runs again from its RESUME (R394, R396). -/
def dmaResumeSlot (b : BId) (e i : Nat) (s : State) : State :=
  let s := s.updDm b e fun d =>
    { d with cur := i, st := .running, flt := none, doneOff := [] }
  match descCheck b (dmaOf s b e) i with
  | some c => dmaFault b e c 0 0 s
  | none =>
    let s := s.updDm b e fun d => { setSlot i 2 0 0 0 d with nextOff := dResume d i }
    dmaPump b e 8 s

/-- The engine takes what runs next: a pending pre-emption, a suspended descriptor, the queue; else it idles. -/
def dmaNext (b : BId) (e : Nat) (s : State) : State :=
  let d := dmaOf s b e
  match d.pre with
  | some p => dmaStart b e p (s.updDm b e fun d => { d with pre := none, preRun := true })
  | none =>
    match d.susp with
    | some q => dmaResumeSlot b e q (s.updDm b e fun d => { d with susp := none })
    | none => if d.head == d.tail then s.updDm b e fun d => { d with st := .idle } else dmaStart b e d.head s

/-- The running descriptor ends DONE (R390, R394). A halt that is due takes the descriptor that follows, if one does. -/
def dmaDone (b : BId) (e : Nat) (s : State) : State :=
  let i := (dmaOf s b e).cur
  let want := bitAt (descW (dmaOf s b e) i 0) 4
  let s := s.updDm b e fun d =>
    { setSlot i 4 0 0 0 d with
      done := sinc d.done, doneOff := [], preRun := false
      head := if d.preRun then d.head else (d.head + 1) % 32 }
  let s := if want then irq b (4 + 2 * e) s else s
  let s := dmaNext b e s
  let d := dmaOf s b e
  if !d.haltDue then s
  else if d.st == .running && d.out.isEmpty then dmaHalt b e 0xB 0 0 s
  else s.updDm b e fun d => { d with haltDue := false }

/-- The burst boundary (R394): a pending pilot-reset halt, then a pending pre-emption, takes effect. Answers
whether one did. -/
def dmaBoundary (b : BId) (e : Nat) (s : State) : Bool × State :=
  let d := dmaOf s b e
  if d.haltDue then (true, dmaHalt b e 0xB 0 0 s)
  else if d.pre.isSome && !d.preRun then
    (true, dmaNext b e (s.updDm b e fun d => { setSlot d.cur 3 0 0 0 d with susp := some d.cur }))
  else (false, s)

/-- RESUME moves over the ranges completed OK (R393). -/
def advanceResume (i : Nat) : Nat → Dma → Dma
  | 0, d => d
  | k + 1, d =>
    match d.doneOff.find? fun x => x.1 == dResume d i with
    | some x => advanceResume i k { setResume i (dResume d i + x.2) d with
        doneOff := d.doneOff.filter fun y => y.1 != x.1 }
    | none => d

/-- A hawser order of engine e completes (R393, R395): its buffer is released, its tag freed, RESUME moves. -/
def dmaOrderDone (b : BId) (e tag status : Nat) (data : List Byte) (s : State) : State :=
  match (dmaOf s b e).out.find? fun o => o.2.2.2 == tag with
  | none => s
  | some (off, len, g, _) =>
    let i := (dmaOf s b e).cur
    let s := s.updDm b e fun d => { d with out := d.out.filter fun o => o.2.2.2 != tag }
    let s := match (status == 0 && dOp (dmaOf s b e) i == 4), dmaRegion b ((descW (dmaOf s b e) i 2).toNat + off) len with
      | true, some r => localWrite b r (data.take len) s
      | _, _ => s
    let s := deckRelease g s
    let s := if status == 0 then
        s.updDm b e fun d => advanceResume i 16 { d with doneOff := d.doneOff ++ [(off, len)], bytes := d.bytes + len }
      else if (dmaOf s b e).flt.isSome then s
      else s.updDm b e fun d => { d with flt := some (if status == 0x11 then 6 else if status == 0x10 then 7 else 8, 0, status) }
    let d := dmaOf s b e
    if !d.out.isEmpty then dmaPump b e 8 s
    else match d.flt with
      | some (c, a, st) => dmaHalt b e c a st s
      | none =>
        if dResume d i ≥ dLen d i then dmaDone b e s
        else match dmaBoundary b e s with
          | (true, t) => t
          | (false, t) => dmaPump b e 8 t

end Sys2Proof.Machine
end

