-- ==== Sys2Proof/Machine/Link.lean ====
section
/-! DEFINITION. Starting a training, retraining and stopping a hawser link (R310, R327, R329). -/
namespace Sys2Proof.Machine

/-- A training starts (R305, R310): the scrambler history is all ones, training counts restart. -/
def startTraining (b : BId) (s : State) : State :=
  let grace := match (s.at b).sy.holdEnd with
    | some t => decide (s.now - t ≤ 500)
    | none => false
  s.updHw b fun h =>
    { h with grace := grace
             tx := { h.tx with on := true, hist := BitVec.allOnes 58, trailing := 0, replayPos := none
                               trainId := (h.tx.trainId + 1) % 2 ^ 32 }
             rx := { h.rx with validTrain := 0, readyTrain := 0, localReady := false, remoteReady := false } }

/-- The link retrains with a cause (R327): sequence numbers, replay buffer, tags and quarantines stay. -/
def hwRetrain (b : BId) (cause : Nat) (s : State) : State :=
  let s := s.updHw b fun h => { h with lastCause := cause, cnt := { h.cnt with retrains := sinc h.cnt.retrains } }
  startTraining b (setLink b .retrain cause s)

/-- One outstanding order completes with LINK_DOWN when the link stops (R329), by its owner. -/
def linkDownTag (b : BId) (tag : Nat) (s : State) : State :=
  match vget (s.at b).hw.tags tag with
  | .used o =>
    match o.owner with
    | .mailbox r =>
      pushCpl b ⟨tag, 0x11, 0, r⟩ (s.updHw b fun h => { h with tags := vset h.tags tag (.done r) })
    | .dma e => dmaOrderDone b e.val tag 0x11 [] (freeTag b tag s)
    | .freq k st =>
      (freeTag b tag s).updHw b fun h =>
        { h with cnt := { h.cnt with freqFail := sinc h.cnt.freqFail }
                 freqRetry := h.freqRetry.filter (fun x => x.1 != k) ++ [(k, st)] }
    | _ => freeSvcBuf o (freeTag b tag s)
  | .quarantined (some r) => s.updHw b fun h => { h with tags := vset h.tags tag (.done r) }
  | .quarantined none => freeTag b tag s
  | _ => s

/-- Whether an order is a FREQ order: it outlives a link stop while its slot is UP (R326). -/
def isFreq (o : Order) : Bool := o.op == .freq

/-- The link stops (R329): the driver turns off, every outstanding order completes with LINK_DOWN, sequence
numbers, quarantines and the replay buffer are cleared, and the link enters `dst` (OFF, or RETIRED under R328). -/
def linkStop (b : BId) (dst : LinkState) (s : State) : State :=
  let h := (s.at b).hw
  if h.link == .off || h.link == .retired then
    (if dst == .retired && h.link == .off then setLink b .retired 0 s else s)
  else
    let s := setLink b dst 0 s
    let s := iter (upto 64) (linkDownTag b) s
    let gone := (s.at b).hw.waiting.filter fun o => !isFreq o
    let s := s.updHw b fun h =>
      { h with tx := { trainId := h.tx.trainId }, rx := {}, waiting := h.waiting.filter isFreq }
    let s := s.updSvc b fun v => { v with reporting := false, want := [] }
    iter gone freeSvcBuf s

/-- Code of START's result (R330): 0 accepted, 1 state, 2 configuration, 3 slot. -/
def startResult (s : State) (b : BId) : Nat :=
  let x := s.at b
  if x.hw.link != .off then 1
  else if !bitAt x.hw.cfg 0 then 2
  else if x.rl.slot != .up then 3
  else 0

/-- START (R330, R305): the driver turns on and training begins. -/
def linkStart (b : BId) (s : State) : State :=
  if startResult s b == 0 then startTraining b (setLink b .train 0 s) else s

end Sys2Proof.Machine
end

