-- ==== Sys2Proof/Machine/PowerOps.lean ====
section
/-! DEFINITION. Operating points, setpoints, frequency orders, thresholds and grants: the operations that the rail,
power and service commands share (R152, R177, R183–R197). -/
namespace Sys2Proof.Machine

/-! ### The chart's limits of a slot -/

/-- Number of steps of partition k (OPTABLE word 0, R89); 0 for an unused partition. -/
def stepCount (x : Berth) (slot k : Nat) : Nat := fld (x.recWord 14 slot 0) (8 * k + 7) (8 * k)

/-- FREQ in MHz and VMIN in mV of step st of partition k (R89). -/
def stepFreq (x : Berth) (slot k st : Nat) : Nat := fld (x.recWord 14 slot (1 + 32 * k + st)) 15 0
def stepVmin (x : Berth) (slot k st : Nat) : Nat := fld (x.recWord 14 slot (1 + 32 * k + st)) 27 16

/-- VMAX and FMAX of partition k (R80). -/
def partVmax (x : Berth) (slot k : Nat) : Nat := fld (x.recWord 5 slot (2 + k)) 15 0
def partFmax (x : Berth) (slot k : Nat) : Nat := fld (x.recWord 5 slot (2 + k)) 31 16

def grantMin (x : Berth) (slot : Nat) : Nat := fld (x.recWord 5 slot 0) 15 0
def grantMax (x : Berth) (slot : Nat) : Nat := fld (x.recWord 5 slot 0) 31 16
def stepMax (x : Berth) (slot : Nat) : Nat := fld (x.recWord 5 slot 1) 15 0

/-- The guard floor of step st (R183). -/
def guardFloor (x : Berth) (slot k st : Nat) : Nat := stepVmin x slot k st + 50

/-- The target voltage of step st with the partition's margin (R183). -/
def targetOf (x : Berth) (slot k st margin : Nat) : Nat :=
  min (guardFloor x slot k st + 5 * margin) (partVmax x slot k)

/-- The breakwater cap s_bw (R184): the highest step with FREQ ≤ FMAX and VMIN + 50 ≤ VMAX. -/
def bwCap (x : Berth) (slot k : Nat) : Nat :=
  (upto (stepCount x slot k)).foldl (fun acc st =>
    if stepFreq x slot k st ≤ partFmax x slot k && guardFloor x slot k st ≤ partVmax x slot k then st else acc) 0

/-! ### Millivolts and codes (R188) -/

def fullScale (x : Berth) (r : Nat) : Nat := fld (vget x.pw.vfs r) 15 0
def mvToCode (x : Berth) (r mv : Nat) : Nat := min (rdiv (mv * 4095) (fullScale x r)) 4095
def codeToMv (x : Berth) (r code : Nat) : Nat := rdiv (code * fullScale x r) 4095

/-! ### Rail graph and thresholds -/

def railUsed (x : Berth) (r : Nat) : Bool := bitAt (vget x.rl.graph0 r) 0
def railPgWait (x : Berth) (r : Nat) : Bool := bitAt (vget x.rl.graph0 r) 1
def railAvs (x : Berth) (r : Nat) : Bool := bitAt (vget x.rl.graph0 r) 2
def railAvsCtl (x : Berth) (r : Nat) : Nat := fld (vget x.rl.graph0 r) 3 3
def railAvsSel (x : Berth) (r : Nat) : Nat := fld (vget x.rl.graph0 r) 7 4

def thrLow (x : Berth) (i : Nat) : Nat := fld (vget x.rl.thr i) 11 0
def thrHigh (x : Berth) (i : Nat) : Nat := fld (vget x.rl.thr i) 27 16
def thrFilter (x : Berth) (i : Nat) : Nat := fld (vget x.rl.thr i) 15 12
def thrKind (x : Berth) (i : Nat) : Nat := fld (vget x.rl.thr i) 31 28
def hardLow (x : Berth) (i : Nat) : Nat := fld (vget x.rl.hard i) 11 0
def hardHigh (x : Berth) (i : Nat) : Nat := fld (vget x.rl.hard i) 27 16
def inOff (x : Berth) (i : Nat) : Nat := fld (vget x.rl.incfg i) 11 0
def inAssoc (x : Berth) (i : Nat) : Nat := fld (vget x.rl.incfg i) 19 16

/-- LOW and HIGH that the soft tests of input i use: widened while PARTi's setpoint moves (R153). -/
def softLimits (x : Berth) (i : Nat) : Nat × Nat :=
  match (if i < 4 then vget x.rl.wide i else none) with
  | some w => (min w.1 (thrLow x i), max w.2 (thrHigh x i))
  | none => (thrLow x i, thrHigh x i)

/-- Limits a threshold to the input's hard range (R152). -/
def clampThr (x : Berth) (i v : Nat) : Nat := min (max v (hardLow x i)) (hardHigh x i)

/-- LOW and HIGH through the breakwater clamp (R152); nothing changes where the clamped pair is not in order. -/
def thrSet (b : BId) (i low high : Nat) (s : State) : State :=
  let x := s.at b
  let l := clampThr x i low
  let h := clampThr x i high
  let w := pack [(l, 0, 12), (thrFilter x i, 12, 4), (h, 16, 12), (thrKind x i, 28, 4)]
  if l < h then s.updRl b fun r => { r with thr := vset r.thr i w } else s

/-! ### AVSBus writes (R185, R186) -/

/-- The next queued write of a controller goes on the bus; a repeat after a settling failure follows the reads of R186. -/
def avsSend (b : BId) (c : Nat) (s : State) : State :=
  match (vget (s.at b).pw.avs c).queue with
  | [] => s
  | w :: ws =>
    if w.statusFirst then
      (s.updPw b fun p => { p with avs := vmod p.avs c fun a =>
        { a with queue := { w with statusFirst := false } :: ws, statusRead := true, confirm := some w.rail } }).emit (.avsStatus b c)
    else
    (s.updPw b fun p => { p with avs := vmod p.avs c fun a => { a with txn := sinc a.txn } }).emit
      (.avsWrite b c (railAvsSel (s.at b) w.rail) w.mv)

/-- Queues a setpoint write of rail r; a retired controller takes none (R208). -/
def avsWrite (b : BId) (r mv : Nat) (powerUp : Bool) (tries : Nat) (s : State) : State :=
  let c := railAvsCtl (s.at b) r
  let a := vget (s.at b).pw.avs c
  if a.retired then s
  else
    let idle := a.queue.isEmpty && !a.statusRead && a.confirm.isNone
    let s := s.updPw b fun p => { p with avs := vmod p.avs c fun a => { a with queue := a.queue ++ [⟨r, mv, powerUp, tries, false⟩] } }
    let s := if powerUp then s else s.updPart b r fun q => { q with writing := true }
    if idle then avsSend b c s else s

/-! ### Steps (R189–R195) -/

def partOf (s : State) (b : BId) (k : Nat) : Part := vget (s.at b).pw.parts k

/-- A partition is used when its OPTABLE entry has steps. -/
def partUsed (x : Berth) (slot k : Nat) : Bool := stepCount x slot k > 0

/-- Whether any unit of the slot is disputed (R355). -/
def anyDisputed (x : Berth) : Bool := x.svc.disp.toList.any (·.disputed)

/-- REQ limited to the partition's last step (R191). -/
def reqOf (x : Berth) (slot k : Nat) : Nat := min (vget x.pw.parts k).reqStep (stepCount x slot k - 1)

/-- The lowest cap other than REQ (R191). -/
def capOf (x : Berth) (k : Nat) : Nat :=
  let p := vget x.pw.parts k
  min (min (min p.sBw p.sTherm) (min p.sCurr p.sPwr)) (min p.sPin (if anyDisputed x then p.applied else 31))

/-- The effective step (R191). -/
def effective (x : Berth) (slot k : Nat) : Nat := min (reqOf x slot k) (capOf x k)

/-- The voltage bin of step st (R189). -/
def binOf (x : Berth) (slot k st : Nat) : Nat :=
  (upto 8).foldl (fun acc b => if vget x.pw.binv b ≤ guardFloor x slot k st then b else acc) 0

/-- The frequency code of cluster c (0–63) at step st of its partition (R189). -/
def clusterCode (x : Berth) (slot k st c : Nat) : Nat :=
  min (stepFreq x slot k st * 2 / 25) (vget x.pw.clfmax (8 * c + binOf x slot k st))

/-- Whether a cluster of partition k runs below its step's frequency (CORE_FMAX, R189). -/
def coreLimited (x : Berth) (slot k : Nat) : Bool :=
  let st := (vget x.pw.parts k).applied
  (upto 16).any fun i => clusterCode x slot k st (16 * k + i) < stepFreq x slot k st * 2 / 25

/-- Sends a FREQ order of partition k for step st (R326); a later order supersedes a resend that waits. -/
def sendFreq (b : BId) (k st : Nat) (s : State) : State :=
  let x := s.at b
  let codes : List Byte := (upto 16).map fun i => BitVec.ofNat 8 (clusterCode x b.val k st (16 * k + i))
  let s := s.updHw b fun h => { h with freqRetry := h.freqRetry.filter fun y => y.1 != k }
  issueHw b { op := .freq, owner := .freq k st, args := wordOf k :: bytesWords codes 4 } s

/-- Threshold tracking of PARTk at a new target (R197). A write of the target it has is no change of it. -/
def track (b : BId) (k old t : Nat) (s : State) : State :=
  let x := s.at b
  let a := vget x.pw.avs (railAvsCtl x k)
  if t != old && bitAt x.pw.track (16 + k) && !a.retired then
    thrSet b k (mvToCode x k (t - fld x.pw.track 7 0)) (mvToCode x k (t + fld x.pw.track 15 8)) s
  else s

/-- A new target voltage of partition k: the setpoint write is issued, the soft thresholds widen for the
transition (R153) and tracking writes follow (R197). -/
def writeTarget (b : BId) (k t : Nat) (raise : Option Nat) (s : State) : State :=
  let x := s.at b
  let w := softLimits x k
  let s := s.updPart b k fun p => { p with target := t, settled := false, tries := 0, raiseTo := raise }
  let s := s.updRl b fun r => { r with wide := vset r.wide k (some w) }
  avsWrite b k t false 0 (track b k (vget x.pw.parts k).target t s)

/-- The step whose target the partition's voltage should stand at: the next raise of R194, and never below the
step an unacknowledged order counts as (R190). -/
def voltageStep (x : Berth) (slot k : Nat) : Nat :=
  let p := vget x.pw.parts k
  let e := effective x slot k
  let up := if e > p.applied then min e (p.applied + fld x.pw.stepLim 4 0) else p.applied
  max up (p.orderPend.getD 0)

/-- Brings the target of partition k to where R194 and R190 want it while its slot is UP. A partition not ready
stands at the setpoint of R142, once its last order is acknowledged (R195, R347). -/
def retarget (b : BId) (k : Nat) (s : State) : State :=
  let x := s.at b
  let p := vget x.pw.parts k
  let st := if p.ready then voltageStep x b.val k else p.orderPend.getD 0
  let t := targetOf x b.val k st (if p.ready then p.margin else 0)
  let a := vget x.pw.avs (railAvsCtl x k)
  let up := if p.ready && st > p.applied then some st else none
  if !partUsed x b.val k || x.rl.slot != .up || a.retired then s
  else if t == p.target then s.updPart b k fun p => { p with raiseTo := up }
  else writeTarget b k t up s

/-- Sends partition k's order for step st: the applied step changes when the order is sent (DESIGN CHOICE, notes entry 10), and
until its acknowledgement the partition counts as at the higher step (R190). -/
def orderStep (b : BId) (k st : Nat) (s : State) : State :=
  let p := partOf s b k
  let high := max (max p.applied st) (p.orderPend.getD 0)
  let s := s.updPart b k fun p => { p with applied := st, orderPend := some high, raiseTo := none }
  sendFreq b k st s

/-- The applied step that a falling cap counts from: where the partition has been lowered within the same cycle, the step before, so
that two caps make one lowering and both are charged (R202). The cycle is one of `now`. -/
def stepFrom (s : State) (p : Part) : Nat := if p.lowAt == some s.now then p.lowFrom else p.applied

/-- A change of caps or of REQ: a cap below the applied step lowers the partition at once (R192); the target
follows (R194). A partition not ready keeps step 0 (R195). The lowering goes to the effective step, REQ included: a REQ that waits for
the window below the cap is applied with it (R192 leaves it open; DESIGN CHOICE, notes entry 85). -/
def capsChanged (b : BId) (k : Nat) (s : State) : State :=
  let x := s.at b
  let p := vget x.pw.parts k
  if !p.ready then s
  else if capOf x k < p.applied then
    let s := s.updPart b k fun q => { q with lowAt := some s.now, lowFrom := stepFrom s p }
    retarget b k (orderStep b k (effective x b.val k) s)
  else retarget b k s

/-- An acknowledged frequency order (R190): the partition is at its step, and its voltage may follow. -/
def freqAcked (b : BId) (k st : Nat) (s : State) : State :=
  if (partOf s b k).applied == st then
    retarget b k (s.updPart b k fun p => { p with orderPend := none })
  else s

/-- Readiness of the partitions in a mask is withdrawn (R347): each is lowered to step 0 and sends no further
orders. -/
def withdrawReady (b : BId) (mask : Nat) (s : State) : State :=
  iter (upto 4) (fun k t =>
    if nbit mask k && (partOf t b k).ready then
      let t := if (partOf t b k).applied > 0 then orderStep b k 0 t else t
      t.updPart b k fun p => { p with ready := false, raiseTo := none }
    else t) s

/-! ### Grants (R174–R177) -/

/-- Sum of the grants of all slots. -/
def grantSum (t : Tray) : Nat := t.pw.grant.toList.foldl (· + ·) 0

/-- The harbour sets a slot's admission state and its berth's copy. -/
def setAdmit (n : BId) (a : Admit) (s : State) : State :=
  let s := s.onTray fun t => { t with pw := { t.pw with admis := vset t.pw.admis n.val a } }
  s.updPw n fun p => { p with admis := a }

/-- The harbour sets a slot's grant and the berth applies it. -/
def setGrant (n : BId) (g : Nat) (s : State) : State :=
  let s := s.onTray fun t => { t with pw := { t.pw with grant := vset t.pw.grant n.val g } }
  s.updPw n fun p => { p with grant := g }

/-- Slot states that end a withdrawal (R177). -/
def downish (st : SlotState) : Bool := st == .down || st == .faultHold || st == .retired

/-- The harbour withdraws a slot's admission and sets its grant to 0 (R177). After a trump, TRUMP is charged until
the slot is down. -/
def withdraw (n : BId) (trump : Bool) (s : State) : State :=
  if vget s.tray.pw.admis n.val == .none && vget s.tray.pw.grant n.val == 0 then s
  else
    let s := s.onTray fun t => { t with pw := { t.pw with newGrant := vset t.pw.newGrant n.val none } }
    let s := setGrant n 0 (setAdmit n .none s)
    if trump && !downish (s.at n).rl.slot then s.updPw n fun p => { p with trumped := true } else s

/-! ### The throttle ledger's entries (R206) -/

/-- The lowest-numbered partition of a PARTS mask. -/
def lowPart (parts : Nat) : Nat := ((upto 4).find? fun k => nbit parts k).getD 0

/-- Word 0 of a ledger entry (R206); 0 while the position is unused. -/
def ledgerW0 (e : LedgerEnt) : Word :=
  pack [(e.reason, 0, 4), (e.parts, 4, 4), (vget e.stepFrom (lowPart e.parts), 8, 5),
    (vget e.stepTo (lowPart e.parts), 13, 5), (b2n e.isOpen, 18, 1)]

/-- The ring position of the open entry of a reason. -/
def openEntry (l : Ledger) (r : Nat) : Option Nat :=
  (upto 32).find? fun i => (vget l.ent i).isOpen && (vget l.ent i).reason == r

/-- The open entry of reason r closes: a THROTTLE record (R206, R207). -/
def ledgerClose (b : BId) (r : Nat) (s : State) : State :=
  match openEntry (s.at b).pw.ledger r with
  | none => s
  | some i =>
    let e := { vget (s.at b).pw.ledger.ent i with isOpen := false }
    let s := s.updPw b fun p => { p with ledger := { p.ledger with ent := vset p.ledger.ent i e } }
    logRec b 0x20 (ledgerW0 e) (wordOf e.dur) (pack [(e.mark, 0, 8), (e.tide, 8, 24)]) s

/-- Every open entry closes when the slot enters DOWN, FAULT_HOLD or RETIRED (R206). -/
def ledgerCloseAll (b : BId) (s : State) : State :=
  let s := iter (upto 12) (fun r t => ledgerClose b r t) s
  s.updPw b fun p => { p with ledger := { p.ledger with act := 0 } }

/-- The partitions' values at the start or end of a power-up: step 0, not ready, nothing pending (R195, R209). The target stays the
last one written. -/
def partsRestart (b : BId) (s : State) : State :=
  s.updPw b fun p => { p with parts := p.parts.map fun q =>
    { q with applied := 0, orderPend := none, ready := false, raiseTo := none, writing := false, settling := none
             settled := true, lastApplied := 0, lowAt := none } }

end Sys2Proof.Machine
end

