-- ==== Sys2Proof/Machine/SvcOps.lean ====
section
/-! DEFINITION. Stops and failures of the service engine (R347, R348): what other blocks do to it. -/
namespace Sys2Proof.Machine

/-- Code of a service state (R341). -/
def svcCode : SvcState → Nat
  | .off => 0 | .mgmt => 1 | .firmware => 2 | .clocks => 3 | .memory => 4 | .links => 5 | .cores => 6
  | .service => 7 | .resetting => 8 | .failed => 9

/-- Whether the state is one of the six stages. -/
def isStage : SvcState → Bool
  | .mgmt | .firmware | .clocks | .memory | .links | .cores => true
  | _ => false

/-- Changes the service state: the SVC interrupt, and attention when it becomes FAILED (R412). -/
def setSvc (b : BId) (st : SvcState) (s : State) : State :=
  let old := (s.at b).svc.st
  let s := s.updSvc b fun v => { v with st := st }
  let s := if old == st then s else irq b 13 s
  if st == .failed && old != .failed then attn 7 s else s

/-- Microseconds since a REF time, saturating (HW_SVC_STAGE_T). -/
def usSince (s : State) (t : Nat) : Nat := min ((s.now - t) / 25) 0xFFFFFFFF

/-- The stage that runs: the state itself, or within a CHIP reset the stage that runs again (R349); else OFF. -/
def stageOf (v : Svc) : SvcState :=
  if isStage v.st then v.st else if v.st == .resetting then v.chipStage else .off

/-- Index of a stage in HW_SVC_STAGE_T (s − 1). -/
def stageIx (st : SvcState) : Nat := svcCode st - 1

/-- Number of set bits of a core map. -/
def popCount (m : BitVec 1024) : Nat := (upto 1024).foldl (fun acc i => acc + b2n (m.getLsbD i)) 0

/-- A stage ends or fails: its duration and the SVC_STAGE record (R360). -/
def stageDone (b : BId) (fail : Nat) (s : State) : State :=
  let v := (s.at b).svc
  let st := stageOf v
  let us := usSince s v.stageSince
  let p2 := if st == .cores && fail == 0 then
      pack [(popCount (~~~ v.defect), 0, 11), (popCount (~~~ (v.fuse &&& v.repair)), 11, 11)] else 0
  let s := s.updSvc b fun v => { v with stageT := vset v.stageT (stageIx st) us }
  logRec b 0x48 (pack [(svcCode st, 0, 4), (b2n (fail != 0), 4, 1), (fail, 8, 8), (v.detail, 16, 16)])
    (wordOf (min ((s.now - v.stageSince) / 250) 0xFFFFFFFF)) p2 s

/-- Core resets of the unit of a CORE reset within HW_SVC_LIM's window (R352). -/
def coreEvents (s : State) (b : BId) (c : Nat) : Nat :=
  match (s.at b).svc.coreHist.find? fun x => x.1 == c with
  | some x => inWindow x.2 (s.hTide b) (fld (s.at b).svc.lim 31 16)
  | none => 0

/-- The SVC_RESET record when a reset ends (R360). -/
def logReset (b : BId) (failed : Bool) (s : State) : State :=
  let v := (s.at b).svc
  logRec b 0x49
    (pack [(v.rstLevel, 0, 2), (b2n v.rstAbsorb, 2, 1), (b2n v.escalated, 3, 1), (b2n failed, 4, 1), (v.rstUnit, 16, 10)])
    (wordOf (usSince s v.since))
    (if v.rstLevel == 0 then wordOf (min (coreEvents s b v.rstUnit) 255) else 0) s

/-- The engine fails with a code (R348): the link has stopped, readiness is withdrawn, FAILED is set. -/
def svcFailed (b : BId) (code : Nat) (s : State) : State :=
  let v := (s.at b).svc
  let s := withdrawReady b 15 s
  let s := if isStage (stageOf v) then stageDone b code s else s
  let s := if v.st == .resetting then logReset b true s else s
  let s := s.updSvc b fun v =>
    { v with fail := code, fails := sinc v.fails, step := .idle, busy := false, chipStage := .off, want := []
             pushLen := 0 }
  setSvc b .failed s

/-- A stage or reset fails (R348): the hawser stops first. -/
def svcFail (b : BId) (code : Nat) (s : State) : State :=
  svcFailed b code (linkStop b .off s)

/-- The slot leaves UP or POWERING (R348, R359): the engine's work ends. The link has stopped. -/
def svcSlotDown (b : BId) (s : State) : State :=
  let v := (s.at b).svc
  if isStage v.st || v.st == .resetting then svcFailed b 0x0B s
  else
    let s := s.updSvc b fun v => { v with step := .idle, busy := false, want := [] }
    if v.st == .service || v.st == .failed || v.step == .waitSlot then setSvc b .off (withdrawReady b 15 s) else s

end Sys2Proof.Machine
end

