-- ==== Sys2Proof/Machine/RailOps.lean ====
section
/-! DEFINITION. The rail sequencer: power-up walk, conditions, trumps and the shutdown walk (R139–R160). -/
namespace Sys2Proof.Machine

def railDepA (x : Berth) (r : Nat) : Nat := fld (vget x.rl.graph0 r) 11 8
def railDepB (x : Berth) (r : Nat) : Nat := fld (vget x.rl.graph0 r) 15 12
def railOffPos (x : Berth) (r : Nat) : Nat := fld (vget x.rl.graph1 r) 19 16

def railOf (s : State) (b : BId) (r : Nat) : Rail := vget (s.at b).rl.rails r
def inOf (s : State) (b : BId) (i : Nat) : AdcIn := vget (s.at b).rl.ins i

/-- The used rails, rising. -/
def usedRails (x : Berth) : List Nat := (upto 13).filter (railUsed x)

/-- Whether the voltage input of rail r is monitored (FILTER ≠ 0). -/
def monitored (x : Berth) (i : Nat) : Bool := thrFilter x i != 0

/-- RAIL_RESTART events in the window. -/
def restartEvents (s : State) (b : BId) : Nat :=
  inWindow (s.at b).rl.restartHist (s.hTide b) (retireNW (s.at b) 6).2

/-- Word P2 of the rail payload (R163): ELAPSED since the slot's last state change, RESTARTS and flags. -/
def railP2 (s : State) (b : BId) (timeout early : Bool) : Word :=
  pack [(min ((s.now - (s.at b).rl.since) / 250) 0xFFFF, 0, 16), (min (restartEvents s b) 255, 16, 8),
    (b2n timeout, 24, 1), (b2n early, 25, 1)]

/-- A log record with the rail payload (R163). -/
def logRail (b : BId) (ty rail input code : Nat) (kind : Bool) (reading limit : Nat) (timeout early : Bool)
    (s : State) : State :=
  logRec b ty (pack [(rail, 0, 4), (input, 4, 5), (code, 16, 8), (b2n kind, 24, 1)])
    (pack [(reading, 0, 12), (limit, 16, 12)]) (railP2 s b timeout early) s

/-- Last reading of rail r's input. -/
def lastReading (s : State) (b : BId) (r : Nat) : Nat := (inOf s b r).code

/-- Changes the slot state: RAIL interrupt and the start of ELAPSED. A record that goes with a state change counts ELAPSED from that
change, so it carries 0 (R163 leaves it open; DESIGN CHOICE, notes entry 79). -/
def setSlotState (b : BId) (st : SlotState) (s : State) : State :=
  if (s.at b).rl.slot == st then s
  else irq b 8 (s.updRl b fun r => { r with slot := st, since := s.now })

/-- The SLOT_DOWN record of a slot that enters DOWN, FAULT_HOLD or RETIRED (R162), with the cause the slot holds. -/
def logSlotDown (b : BId) (kind : Bool) (s : State) : State := logRail b 0x0D 15 31 (s.at b).rl.cause kind 0 0 false false s

/-- A RETIRED slot, or one whose fault hold has ended, becomes DOWN (R139, R159): the record is outside a shutdown, KIND 0. -/
def slotDown (b : BId) (s : State) : State := logSlotDown b false (setSlotState b .down s)

/-! ### Trumps (R151) -/

/-- Whether a trump's own line reads inside its limits (R151). -/
def trumpClear (x : Berth) : TrumpSrc → Bool
  | .input i => decide ((vget x.rl.ins i).clearRun ≥ thrFilter x i)
  | .pg r => (vget x.rl.rails r).pg || (vget x.rl.rails r).st == .off
  | .rail r => (vget x.rl.rails r).st == .off

/-- Trumps end when the slot is DOWN and their line reads inside its limits (R151). -/
def clearTrumps (b : BId) (s : State) : State :=
  let x := s.at b
  if x.rl.slot == .down then s.updRl b fun r => { r with trumps := r.trumps.filter fun t => !trumpClear x t }
  else s

/-- A leak latch that holds a trump on slot n, as berth n sees it (R233). -/
def leakHeld (s : State) (n : BId) : Bool :=
  (upto 16).any fun i =>
    vget (s.at n).cl.latchView i && nbit (fld (s.at (bid (i / 2))).cl.valve 15 8) n.val

/-- Whether a trump is active for the slot (R136, R151, R233). -/
def trumpActive (s : State) (b : BId) : Bool := !(s.at b).rl.trumps.isEmpty || leakHeld s b

/-! ### Rails up -/

/-- The slot enters UP when every used rail is UP (R144). -/
def slotUpCheck (b : BId) (s : State) : State :=
  let x := s.at b
  if x.rl.slot == .powering && (usedRails x).all (fun r => (vget x.rl.rails r).st == .up) then
    let s := setSlotState b .up s
    let s := s.updRl b fun r => { r with faultSince := false }
    logRail b 0x0A 15 31 0 false 0 0 false false s
  else s

def depUp (x : Berth) (d : Nat) : Bool := d == 15 || (vget x.rl.rails d).st == .up

/-- Power-up setpoint of a PART rail (R142): VMIN of step 0 plus 50 mV. -/
def powerUpMv (x : Berth) (slot r : Nat) : Nat := stepVmin x slot r 0 + 50

/-- Rail r starts (R141, R142): WAITING, and its power-up setpoint is written where it has one; the soft thresholds widen for that
change too (R153), and threshold tracking follows the new target (R197). -/
def startRail (b : BId) (r : Nat) (s : State) : State :=
  let x := s.at b
  let s := s.updRail b r fun _ => { st := .waiting, pg := (railOf s b r).pg }
  let s := s.updRl b fun l => { l with ins := vmod l.ins r fun i => { i with riseRun := 0 } }
  if railAvs x r then
    let mv := powerUpMv x b.val r
    let s := s.updRl b fun l => { l with wide := vset l.wide r (some (softLimits x r)) }
    avsWrite b r mv true 0 (track b r (vget x.pw.parts r).target mv (s.updPart b r fun p => { p with target := mv }))
  else s

/-- Every used rail that is OFF and whose named rails are UP starts (R141). -/
def startRails (b : BId) (s : State) : State :=
  if (s.at b).rl.slot != .powering then s
  else iter (upto 13) (fun r t =>
    let x := t.at b
    if railUsed x r && (vget x.rl.rails r).st == .off && depUp x (railDepA x r) && depUp x (railDepB x r)
    then startRail b r t else t) s

/-- LIMIT of rail r's RAIL_UP record (R143, R163): LOW, where the rail is UP by crossing it. -/
def railUpLimit (x : Berth) (r : Nat) : Nat := if railPgWait x r || !monitored x r then 0 else thrLow x r

/-- Rail r is UP (R143): a RAIL_UP record, the rails that waited for it start, the slot may be UP. -/
def railUp (b : BId) (r : Nat) (s : State) : State :=
  let s := s.updRail b r fun l => { l with st := .up }
  let s := logRail b 0x09 r (if r < 13 then r else 31) 0 false (lastReading s b r) (railUpLimit (s.at b) r) false false s
  slotUpCheck b (startRails b s)

/-- The enable of a WAITING rail is driven (R141–R143); an unmonitored rail without power-good wait is UP at once. -/
def driveRail (b : BId) (r : Nat) (s : State) : State :=
  let x := s.at b
  let s := s.updRail b r fun l => { l with st := .ramping, en := true, offOk := false, timedOff := false, trip := none }
  let s := s.updRl b fun l => { l with ins := vmod l.ins r fun i => { i with riseRun := 0, offRun := 0 } }
  if !railPgWait x r && !monitored x r then railUp b r s else s

/-- Drives a WAITING rail once its delay has ended and any setpoint write is acknowledged (R142). -/
def driveIfReady (b : BId) (r : Nat) (s : State) : State :=
  let l := railOf s b r
  if (s.at b).rl.slot == .powering && l.st == .waiting && l.delayDone && (!railAvs (s.at b) r || l.setAck) then
    driveRail b r s
  else s

/-! ### The shutdown walk (R155) -/

/-- Releases the enable of rail r; `early` where its position has not been reached. -/
def releaseRail (b : BId) (r : Nat) (early : Bool) (s : State) : State :=
  let l := railOf s b r
  if l.en then
    let s := s.updRail b r fun l => { l with en := false, st := .falling, early := early, offOk := false, timedOff := false }
    s.updRl b fun x => { x with ins := vmod x.ins r fun i => { i with offRun := 0 } }
  else s

/-- Whether rail r counts as off for the walk: never enabled, confirmed below OFF, or timed out (R155, R156). -/
def countsOff (s : State) (b : BId) (r : Nat) : Bool :=
  let l := railOf s b r
  !l.en && (l.st != .falling || l.offOk || l.timedOff)

/-- The slot is to be retired when the walk ends. -/
def walkRetires (s : State) (b : BId) : Bool := (s.at b).rl.stuck || (s.at b).rl.retireAtEnd

/-- The slot outputs of berth b other than its rail enables go inert: the valve and the AVSBus lines (R122, R135); the hawser driver
is off with its link. -/
def slotInert (b : BId) (s : State) : State :=
  (s.updCl b fun c => { c with valveOut := none }).updPw b fun p => { p with avs := p.avs.map fun a => { a with drv := false } }

/-- The shutdown ends (R155, R156): DOWN, FAULT_HOLD or RETIRED; admission is withdrawn (R177);
the slot outputs of a berth that is not ACTIVE, or retires, go inert (R135). -/
def shutdownEnd (b : BId) (s : State) : State :=
  let x := s.at b
  let st := if walkRetires s b then SlotState.retired else if x.rl.kindFault then .faultHold else .down
  let stuck := x.rl.stuck
  let s := s.updRl b fun r => if stuck then { r with cause := 0x0C } else r
  let s := setSlotState b st s
  let s := logSlotDown b (s.at b).rl.kindFault s
  let s := s.updRl b fun r => { r with stuck := false, retireAtEnd := false }
  let s := withdraw b false (ledgerCloseAll b s)
  let s := partsRestart b (s.updPw b fun p => { p with trumped := false, shedding := false })
  let s := s.onTray fun t => { t with pw := { t.pw with
    shed := vset t.pw.shed b.val false, shedSlot := if t.pw.shedSlot == some b.val then none else t.pw.shedSlot } }
  let s := if stuck then notice b 4 0 0x20 0 s else s
  let away := (s.at b).sy.st != .active || (s.at b).sy.retireOrder
  clearTrumps b (if away then slotInert b s else s)

/-- Walks the shutdown order from the current position until a rail must fall (R155). -/
def walk (b : BId) : Nat → State → State
  | 0, s => s
  | n + 1, s =>
    let x := s.at b
    match (usedRails x).find? fun r => railOffPos x r == x.rl.pos with
    | none => shutdownEnd b s
    | some r =>
      let s := releaseRail b r false s
      if countsOff s b r then
        let l := railOf s b r
        let s := logRail b 0x0C r r 0 (s.at b).rl.kindFault (lastReading s b r) (if l.offOk && !l.timedOff then inOff x r else 0)
          l.timedOff l.early s
        let last := (usedRails x).all fun q => railOffPos x q ≤ x.rl.pos
        if last then shutdownEnd b s
        else walk b n (s.updRl b fun l => { l with pos := l.pos + 1 })
      else s

/-- Whether the slot walks or runs, so that a trump condition starts or joins a shutdown (R150). -/
def powered (st : SlotState) : Bool := st == .powering || st == .up || st == .shutting

/-- A shutdown starts (R154–R158): WAITING rails return to OFF, setpoint writes and frequency orders are abandoned,
the link stops, the service engine ends, and the walk begins. A first rail is released before its position is reached, so its
RAIL_OFF record is OUT_OF_ORDER even where its position is the first (R163 leaves it open; DESIGN CHOICE, notes entry 80). -/
def startShutdown (b : BId) (fault : Bool) (cause first : Nat) (s : State) : State :=
  let s := s.updRl b fun r =>
    { r with kindFault := fault, cause := cause, firstRail := if fault then first else r.firstRail, pos := 0
             rails := r.rails.map fun l => if l.st == .waiting then { l with st := .off } else l
             faultShut := if fault then sinc r.faultShut else r.faultShut
             faultSince := r.faultSince || fault }
  let s := setSlotState b .shutting s
  let s := logRail b 0x0B first 31 cause fault 0 0 false false s
  let s := linkStop b .off s
  let s := s.updHw b fun h => { h with freqRetry := [], waiting := h.waiting.filter fun o => !isFreq o }
  let s := svcSlotDown b s
  let s := s.updPw b fun p =>
    { p with avs := p.avs.map fun a => { a with queue := [], statusRead := false, confirm := none }
             parts := p.parts.map fun q => { q with orderPend := none, writing := false, ready := false, raiseTo := none, settling := none } }
  let s := if first < 13 then releaseRail b first true s else s
  walk b 14 s

/-- An order or event asks for a shutdown (R154, R160): it starts one from POWERING or UP; a FAULT request during an
ORDERLY shutdown changes its kind and cause; a first rail is released at once. -/
def shutdown (b : BId) (fault : Bool) (cause first : Nat) (s : State) : State :=
  match (s.at b).rl.slot with
  | .powering | .up => startShutdown b fault cause first s
  | .shutting =>
    if !fault then s
    else
      let was := (s.at b).rl.kindFault
      let s := if was then s
        else
          let s := s.updRl b fun r => { r with kindFault := true, cause := cause, firstRail := first
                                               faultShut := sinc r.faultShut, faultSince := true }
          logRail b 0x0B first 31 cause true 0 0 false false s
      let s := if first < 13 then releaseRail b first true s else s
      walk b 14 s
  | _ => s

/-- A confirmed trump condition (R150, R151, R160): RL_FAULT, the active trump, the RAIL_FAULT record, the trump
message, and the fault shutdown. The record's KIND is 0 where the slot has nothing to shut down (R163). -/
def railFault (b : BId) (src : TrumpSrc) (code rail input reading limit first : Nat) (respond : Bool)
    (s : State) : State :=
  let s := s.updRl b fun r =>
    { r with fltCode := if r.fltCode == 0 then code else r.fltCode
             fltRail := if r.fltCode == 0 then rail else r.fltRail
             fltInput := if r.fltCode == 0 then input else r.fltInput
             fltOver := r.fltOver || r.fltCode != 0
             trumps := r.trumps ++ [src]
             ins := match src with
               | .input i => vmod r.ins i fun x => { x with clearRun := 0 }
               | _ => r.ins }
  let s := irq b 8 s
  let s := logRail b 0x0E rail input code (respond && powered (s.at b).rl.slot) reading limit false false s
  let s := ringSend b (some (s.at b).sy.harbour) (.railTrump b) s
  if respond then shutdown b true code first s else s

/-- A slot is retired by an order or rule while its walk may run (R159, R328): at once when nothing walks. -/
def retireSlot (b : BId) (cause rule events : Nat) (s : State) : State :=
  let s := notice b 4 0 rule events s
  match (s.at b).rl.slot with
  | .powering | .up | .shutting =>
    let s := s.updRl b fun r => { r with retireAtEnd := true }
    shutdown b false 0x13 15 s
  | .retired => s
  | _ =>
    let s := setSlotState b .retired (s.updRl b fun r => { r with cause := cause })
    withdraw b false (logSlotDown b false s)

/-! ### The start gate (R136) -/

/-- Every IMAGE role with REQUIRED = 1 has loaded on the berth (R136). -/
def imagesLoaded (s : State) (b : BId) : Bool :=
  (upto 4).all fun role =>
    !bitAt ((s.at b).recWord 13 role 0) 2 || nbit (s.at b).sy.images role

/-- Every used cooling channel has reached MIN_RPM since lock (R136). -/
def coolReached (x : Berth) : Bool := x.cl.ch.toList.all fun c => fld c.cfg0 1 0 == 0 || c.reached

/-- Rope i of the tray is fitted (FILTER ≠ 0), and covers slot n: it is of the slot's berth, or of one whose SHUT_MASK
covers the slot. -/
def ropeCovers (s : State) (n : BId) (i : Nat) : Bool :=
  let x := s.at (bid (i / 2))
  fld (vget x.cl.rope (i % 2)).cfg 31 28 != 0 && (i / 2 == n.val || nbit (fld x.cl.valve 15 8) n.val)

/-- Every fitted rope of the berth, and of every berth whose SHUT_MASK covers the slot, is DRY (R136, R230). -/
def ropesDry (s : State) (n : BId) : Bool :=
  (upto 16).all fun i => !ropeCovers s n i || vget (s.at n).cl.ropeView i == .dry

/-- The start gate of slot b (R136). -/
def startGate (s : State) (b : BId) : Bool :=
  let x := s.at b
  x.ch.locked && x.sy.st == .active && imagesLoaded s b && coolReached x && ropesDry s b && !trumpActive s b
    && x.rl.slot != .retired && x.hw.link != .retired

/-- A start-gate condition fails during POWERING or UP: orderly shutdown (R136, R154). -/
def gateCheck (b : BId) (s : State) : State :=
  match (s.at b).rl.slot with
  | .powering | .up => if startGate s b then s else shutdown b false 0x11 15 s
  | _ => s

end Sys2Proof.Machine
end

