-- ==== Sys2Proof/Machine/Rails.lean ====
section
/-! DEFINITION. The rail commands: orders, sequencer events, conversions and conditions (chapter 05). -/
namespace Sys2Proof.Machine

/-- Who may order the slot (R140): the berth's own pilot and the harbour command engine. -/
def ownOrHce (b : BId) (req : ReqId) : Bool := req.val == b.val || req == 11

/-- The result code of a POWER_UP order (R140): state first, then the start gate, then the restart limit
(DEDUCED, notes entry 11). -/
def powerUpResult (s : State) (b : BId) : Nat :=
  match (s.at b).rl.slot with
  | .powering | .up | .shutting => 2
  | .faultHold => 3
  | .retired => 4
  | .down =>
    if !startGate s b then 1
    else if (s.at b).rl.faultSince && (classEvent s b 6 (s.at b).rl.restartHist).1 then 5
    else 0

/-- UNADMITTED_POWER_UP (R176): the harbour marks a slot powered without admission. -/
def unadmitted (b : BId) (s : State) : State :=
  let a := vget s.tray.pw.admis b.val
  if a == .admitted || a == .unadmitted then s
  else setGrant b (grantMin (s.at b) b.val) (setAdmit b .unadmitted s)

/-- An accepted POWER_UP (R141, R159): the valve opens, the AVSBus lines are driven (R134), the walk starts, a restart is counted. A slot that uses no rail is UP at once
(R144). -/
def powerUpAccept (b : BId) (s : State) : State :=
  let ev := classEvent s b 6 (s.at b).rl.restartHist
  let since := (s.at b).rl.faultSince
  let s := s.updRl b fun r =>
    { r with result := 0, powerups := sinc r.powerups
             restarts := if since then sinc r.restarts else r.restarts
             restartHist := if since then ev.2.1 else r.restartHist
             rails := r.rails.map fun l => { pg := l.pg } }
  let s := s.updCl b fun c =>
    { c with valveOut := if bitAt c.valve 0 then some (!bitAt c.valve 1) else c.valveOut }
  let s := partsRestart b (s.updPw b fun p => { p with avs := p.avs.map fun a => { a with drv := true } })
  let s := setSlotState b .powering s
  let s := logRail b 0x08 15 31 0 false 0 0 false false s
  slotUpCheck b (startRails b (unadmitted b s))

/-- A POWER_UP order from a requester (R140, R159). -/
def powerUp (b : BId) (req : ReqId) (s : State) : State :=
  if !ownOrHce b req then s
  else
    let code := powerUpResult s b
    if code == 0 then powerUpAccept b s
    else
      let s := s.updRl b fun r => { r with result := code }
      let s := logRail b 0x11 15 31 code false 0 0 false false s
      if code == 5 then retireSlot b 0x17 6 (restartEvents s b) s else s

/-- A SHUTDOWN order from a requester (R140): orderly, cause PILOT_ORDER. RL_SLOT_STAT.RESULT, "result of the last POWER_UP order", is
left as it is (DESIGN CHOICE, notes entry 82). -/
def slotShutdown (b : BId) (req : ReqId) (s : State) : State :=
  if ownOrHce b req then shutdown b false 0x10 15 s else s

/-- The ON_DELAY of rail r ends (R141, R142). -/
def onDelayEnd (b : BId) (r : Nat) (s : State) : State :=
  if (s.at b).rl.slot == .powering && (railOf s b r).st == .waiting then
    driveIfReady b r (s.updRail b r fun l => { l with delayDone := true })
  else s

/-- RAIL_ON_DELAY_EXPIRY (R141). -/
def execRailOnDelayExpiry (b : BId) (r : Fin 13) (s : State) : Host.Outcome State Fault Refusal :=
  ran s (onDelayEnd b r.val s.begin)

/-- No setpoint acknowledgement within 1 ms of the rail's start (R142). -/
def avsSetTimeout (b : BId) (r : Nat) (s : State) : State :=
  let l := railOf s b r
  if (s.at b).rl.slot == .powering && l.st == .waiting && railAvs (s.at b) r && !l.setAck then
    let s := s.updRl b fun x => { x with pgEvt := vmod x.pgEvt r fun e => { e with avs := sinc8 e.avs } }
    railFault b (.rail r) 0x0B r 31 0 0 15 true s
  else s

/-- AVS_SET_TIMEOUT (R142). -/
def execAvsSetTimeout (b : BId) (r : Fin 13) (s : State) : Host.Outcome State Fault Refusal :=
  ran s (avsSetTimeout b r.val s.begin)

/-- Power-good reads high on 4 consecutive samples (R143, R151). -/
def powerGoodRise (b : BId) (r : Nat) (s : State) : State :=
  let x := s.at b
  let s := s.updRail b r fun l => { l with pg := true }
  let s := if x.rl.slot == .powering && railUsed x r && railPgWait x r && (railOf s b r).st == .ramping
    then railUp b r s else s
  clearTrumps b s

/-- POWER_GOOD_RISE (R143): rails 0 to 11 have a power-good line. -/
def execPowerGoodRise (b : BId) (r : Fin 12) (s : State) : Host.Outcome State Fault Refusal :=
  ran s (powerGoodRise b r.val s.begin)

/-- Power-good reads low on 4 consecutive samples (R149, R150): counted too where a threshold condition of the same rail was confirmed
within the running scan and has released it (R160). -/
def powerGoodDrop (b : BId) (r : Nat) (s : State) : State :=
  let x := s.at b
  let l := railOf s b r
  let s := s.updRail b r fun l => { l with pg := false, trip := none }
  if railUsed x r && railPgWait x r && ((l.st == .up && x.rl.slot != .shutting) || l.trip == some x.rl.scans) then
    let s := s.updRl b fun y => { y with pgEvt := vmod y.pgEvt r fun e => { e with drop := sinc8 e.drop } }
    railFault b (.pg r) 0x08 r r (lastReading s b r) 0 r true s
  else s

/-- POWER_GOOD_DROP (R149). -/
def execPowerGoodDrop (b : BId) (r : Fin 12) (s : State) : Host.Outcome State Fault Refusal :=
  ran s (powerGoodDrop b r.val s.begin)

/-- PG_TIMEOUT passes without power good (R143). -/
def pgTimeout (b : BId) (r : Nat) (s : State) : State :=
  let x := s.at b
  if x.rl.slot == .powering && railPgWait x r && (railOf s b r).st == .ramping then
    let s := s.updRl b fun y => { y with pgEvt := vmod y.pgEvt r fun e => { e with timeout := sinc8 e.timeout } }
    railFault b (.pg r) 0x09 r r (lastReading s b r) 0 r true s
  else s

/-- PG_TIMEOUT (R143). -/
def execPgTimeout (b : BId) (r : Fin 12) (s : State) : Host.Outcome State Fault Refusal :=
  ran s (pgTimeout b r.val s.begin)

/-- 20 ms pass without the rail reading at or above LOW (R143). -/
def rampTimeout (b : BId) (r : Nat) (s : State) : State :=
  let x := s.at b
  if x.rl.slot == .powering && !railPgWait x r && monitored x r && (railOf s b r).st == .ramping then
    let s := s.updRl b fun y => { y with pgEvt := vmod y.pgEvt r fun e => { e with ramp := sinc8 e.ramp } }
    railFault b (.rail r) 0x0A r r (lastReading s b r) 0 r true s
  else s

/-- RAMP_TIMEOUT (R143). -/
def execRampTimeout (b : BId) (r : Fin 13) (s : State) : Host.Outcome State Fault Refusal :=
  ran s (rampTimeout b r.val s.begin)

/-! ### The scan -/

/-- Whether comparisons run: chart locked on an ACTIVE berth (R145). An ISOLATED berth compares too: R27 keeps its rail supervision
running, where R145 compares nothing on a berth that is not ACTIVE (DESIGN CHOICE, notes entry 87). -/
def comparing (x : Berth) : Bool := x.ch.locked && (x.sy.st == .active || x.sy.st == .isolated)

/-- The run of a condition after one reading (R146): it grows to FILTER while met, else restarts. -/
def runNext (armedMet : Bool) (run filter : Nat) : Nat := if armedMet then min (run + 1) filter else 0

def lowArmed (x : Berth) (i : Nat) : Bool :=
  if i ≤ 12 then (vget x.rl.rails i).st == .up && x.rl.slot != .shutting else true

def softHighArmed (x : Berth) (i : Nat) : Bool := if i ≤ 12 then (vget x.rl.rails i).en else true

def hardHighArmed (x : Berth) (i : Nat) : Bool :=
  if i ≤ 12 then (vget x.rl.rails i).en || x.rl.slot != .down
  else if thrKind x i == 1 then
    (if inAssoc x i ≤ 12 then (vget x.rl.rails (inAssoc x i)).en else x.rl.slot != .down)
  else true

/-- One reading of input i, with every count it moves (R145, R146, R150, R155). An input above 12 ends its trump inside its hard limits
whatever LOW and HIGH are, since crossing those raises an alert and no trump (R151 leaves it open; DESIGN CHOICE, notes entry 83). -/
def adcNext (x : Berth) (i code : Nat) : AdcIn :=
  let n := vget x.rl.ins i
  let n := { n with code := code, valid := true }
  let f := thrFilter x i
  if !comparing x || f == 0 || i == 20 || i == 21 then
    { n with softLow := 0, softHigh := 0, hardLow := 0, hardHigh := 0, riseRun := 0, clearRun := 0
             softLowDone := false, softHighDone := false, hardLowDone := false, hardHighDone := false }
  else
    let soft := softLimits x i
    let mSL := lowArmed x i && decide (code < soft.1)
    let mSH := softHighArmed x i && decide (code > soft.2)
    let mHL := lowArmed x i && decide (code < hardLow x i)
    let mHH := hardHighArmed x i && decide (code > hardHigh x i)
    let inside := !mHL && !decide (code > hardHigh x i) && (decide (i > 12) || (!mSL && !decide (code > soft.2)))
    let l := vget x.rl.rails i
    { n with
      softLow := runNext mSL n.softLow f, softHigh := runNext mSH n.softHigh f
      hardLow := runNext mHL n.hardLow f, hardHigh := runNext mHH n.hardHigh f
      softLowDone := n.softLowDone && mSL, softHighDone := n.softHighDone && mSH
      hardLowDone := n.hardLowDone && mHL, hardHighDone := n.hardHighDone && mHH
      offRun := if i ≤ 12 && !l.en then runNext (decide (code < inOff x i)) n.offRun f else 0
      riseRun := if i ≤ 12 && l.st == .ramping && !railPgWait x i then runNext (decide (code ≥ thrLow x i)) n.riseRun f else 0
      clearRun := runNext inside n.clearRun f }

/-- The runs of a leak rope after one reading (R229). -/
def ropeNext (r : Rope) (code : Nat) : Rope :=
  let f := fld r.cfg 31 28
  if r.st == .notFitted || r.st == .retired || f == 0 then r
  else
    let wet := decide (code < fld r.cfg 11 0)
    let opn := decide (code > fld r.cfg 27 16)
    { r with wetRun := runNext wet r.wetRun f, openRun := runNext opn r.openRun f
             wetDone := r.wetDone && wet, openDone := r.openDone && opn
             dryRun := runNext (!wet && !opn) r.dryRun f }

/-- The ADC completes the reading of one input (R145). It converts the inputs in index order from main-reset release on: a reading out
of that order is none of its. -/
def adcConversion (b : BId) (i code : Nat) (s : State) : State :=
  let x := s.at b
  if x.sy.inReset || i != x.rl.scanAt then s
  else
  let s := s.updRl b fun r => { r with ins := vset r.ins i (adcNext x i code), scanAt := i + 1 }
  let s := if (i == 20 || i == 21) && comparing x then
      s.updCl b fun c => { c with rope := vmod c.rope (i - 20) fun r => ropeNext r code } else s
  clearTrumps b s

/-- ADC_CONVERSION (R145). -/
def execAdcConversion (b : BId) (i : Fin 24) (code : Fin 4096) (s : State) : Host.Outcome State Fault Refusal :=
  ran s (adcConversion b i.val code.val s.begin)

/-- The cap of one partition falls on a thermal or current trump (R198). -/
def trumpCap (b : BId) (i k : Nat) (temp : Bool) (s : State) : State :=
  let n := (s.at b).pw.bnd
  let s := s.updPart b k fun p =>
    let c := min (if temp then p.sTherm else p.sCurr) (stepFrom s p - 1)
    if temp then { p with sTherm := c, thermLow := n, thermIns := i :: p.thermIns.filter fun j => j != i }
    else { p with sCurr := c, currLow := n, currIns := i :: p.currIns.filter fun j => j != i }
  capsChanged b k s

/-- The partitions an input's alert affects (R198): PARTk's own, else every used partition. -/
def alertParts (x : Berth) (slot i : Nat) : List Nat :=
  if inAssoc x i < 4 then [inAssoc x i] else (upto 4).filter (partUsed x slot)

/-- THERMAL_TRUMP (R198): an ALERT_HIGH of KIND temperature or current lowers s_therm or s_curr. -/
def thermalTrump (b : BId) (i : Nat) (s : State) : State :=
  let x := s.at b
  let s := s.updPw b fun p => { p with clear := vset p.clear i 0 }
  match thrKind x i with
  | 2 => iter (alertParts x b.val i) (fun k t => trumpCap b i k true t) s
  | 1 => iter (alertParts x b.val i) (fun k t => trumpCap b i k false t) s
  | _ => s

/-- Counts a condition in RL_EVT. -/
def countEvt (b : BId) (i : Nat) (f : InEvt → InEvt) (s : State) : State :=
  s.updRl b fun r => { r with evt := vmod r.evt i f }

/-- An alert (R150, R198, R199). -/
def alert (b : BId) (i code limit : Nat) (s : State) : State :=
  let x := s.at b
  let rail := if inAssoc x i ≤ 12 then inAssoc x i else 15
  let kind := x.rl.slot == .shutting && x.rl.kindFault
  let s := logRail b 0x0F rail i code kind (inOf s b i).code limit false false s
  if code == 0x0D then thermalTrump b i s else s

/-- A threshold condition of rail i has been confirmed in the running scan (R160). -/
def railTrip (b : BId) (i : Nat) (s : State) : State := s.updRail b i fun l => { l with trip := some (s.at b).rl.scans }

/-- A confirmed soft or hard condition and its response (R150). -/
def confirmed (b : BId) (i : Nat) (c : Cond) (s : State) : State :=
  let x := s.at b
  let code := (inOf s b i).code
  let assoc := if inAssoc x i ≤ 12 then inAssoc x i else 15
  let notDown := x.rl.slot != .down
  match c with
  | .softLow =>
    let s := s.updRl b fun r => { r with ins := vmod r.ins i fun n => { n with softLowDone := true } }
    let s := countEvt b i (fun e => { e with low := sinc8 e.low }) s
    if i ≤ 12 then railFault b (.input i) 0x01 i i code (softLimits x i).1 i true (railTrip b i s)
    else alert b i 0x0E (softLimits x i).1 s
  | .softHigh =>
    let s := s.updRl b fun r => { r with ins := vmod r.ins i fun n => { n with softHighDone := true } }
    let s := countEvt b i (fun e => { e with high := sinc8 e.high }) s
    if i ≤ 12 then railFault b (.input i) 0x02 i i code (softLimits x i).2 i true (railTrip b i s)
    else alert b i 0x0D (softLimits x i).2 s
  | .hardLow =>
    let s := s.updRl b fun r => { r with ins := vmod r.ins i fun n => { n with hardLowDone := true } }
    let s := countEvt b i (fun e => { e with hard := sinc8 e.hard }) s
    if i ≤ 12 then railFault b (.input i) 0x03 i i code (hardLow x i) i true (railTrip b i s)
    else railFault b (.input i) 0x07 assoc i code (hardLow x i) 15 notDown s
  | .hardHigh =>
    let s := s.updRl b fun r => { r with ins := vmod r.ins i fun n => { n with hardHighDone := true } }
    let s := countEvt b i (fun e => { e with hard := sinc8 e.hard }) s
    if i ≤ 12 then railFault b (.input i) 0x04 i i code (hardHigh x i) i true (railTrip b i s)
    else match thrKind x i with
      | 1 => railFault b (.input i) 0x05 assoc i code (hardHigh x i) assoc true s
      | 2 => railFault b (.input i) 0x06 assoc i code (hardHigh x i) assoc notDown s
      | _ => railFault b (.input i) 0x07 assoc i code (hardHigh x i) 15 notDown s
  | .rise => railUp b i s

/-- Whether condition c of input i stands confirmed and unanswered (R146). -/
def condReady (x : Berth) (i : Nat) (c : Cond) : Bool :=
  let n := vget x.rl.ins i
  let f := thrFilter x i
  f != 0 && match c with
  | .softLow => n.softLow ≥ f && !n.softLowDone
  | .softHigh => n.softHigh ≥ f && !n.softHighDone
  | .hardLow => n.hardLow ≥ f && !n.hardLowDone
  | .hardHigh => n.hardHigh ≥ f && !n.hardHighDone && (i ≤ 12 || thrKind x i != 0)
  | .rise => i ≤ 12 && n.riseRun ≥ f && (vget x.rl.rails i).st == .ramping && x.rl.slot == .powering

/-- Confirms condition c of input i where it stands. -/
def confirmOne (b : BId) (i : Nat) (c : Cond) (s : State) : State :=
  if condReady (s.at b) i c then confirmed b i c s else s

/-- FILTER consecutive readings meet a condition (R146, R150). What stands confirmed on lower inputs comes first, so that the records
of one scan come in input order and RL_FAULT holds the lowest input (R160). -/
def thresholdConfirm (b : BId) (i : Nat) (c : Cond) (s : State) : State :=
  if condReady (s.at b) i c then
    confirmOne b i c (iter (upto i) (fun j => iter [.softLow, .softHigh, .hardLow, .hardHigh] (confirmOne b j)) s)
  else s

/-- THRESHOLD_CONFIRM (R146). -/
def execThresholdConfirm (b : BId) (i : Fin 24) (c : Cond) (s : State) : Host.Outcome State Fault Refusal :=
  ran s (thresholdConfirm b i.val c s.begin)

/-- The harbour receives a rail trump of slot n (R151, R177, R412). -/
def railTrumpReceive (n : BId) (s : State) : State := attn 1 (withdraw n true s)

/-- RAIL_TRUMP_RECEIVE (R177). -/
def execRailTrumpReceive (n : BId) (s : State) : Host.Outcome State Fault Refusal :=
  ran s (railTrumpReceive n s.begin)

/-- A released rail reads below OFF on FILTER scans (R155). -/
def railOffConfirm (b : BId) (r : Nat) (s : State) : State :=
  let x := s.at b
  let l := railOf s b r
  if l.st == .falling && monitored x r && (inOf s b r).offRun ≥ thrFilter x r then
    let s := s.updRail b r fun l => { l with st := .off, offOk := true }
    if x.rl.slot == .shutting then walk b 14 s else clearTrumps b s
  else s

/-- RAIL_OFF_CONFIRM (R155). -/
def execRailOffConfirm (b : BId) (r : Fin 13) (s : State) : Host.Outcome State Fault Refusal :=
  ran s (railOffConfirm b r.val s.begin)

/-- OFF_TIMEOUT passes after a release (R155, R156). -/
def railOffTimeout (b : BId) (r : Nat) (s : State) : State :=
  let x := s.at b
  let l := railOf s b r
  if l.st == .falling && !l.offOk && !l.timedOff then
    let s := if monitored x r then
        let s := s.updRail b r fun l => { l with timedOff := true }
        countEvt b r (fun e => { e with offTo := sinc8 e.offTo }) (s.updRl b fun y => { y with stuck := true })
      else s.updRail b r fun l => { l with st := .off }
    if x.rl.slot == .shutting then walk b 14 s else s
  else s

/-- RAIL_OFF_TIMEOUT (R156). -/
def execRailOffTimeout (b : BId) (r : Fin 13) (s : State) : Host.Outcome State Fault Refusal :=
  ran s (railOffTimeout b r.val s.begin)

/-- The 1.000 s fault hold ends (R159, R151). -/
def faultHoldEnd (b : BId) (s : State) : State :=
  if (s.at b).rl.slot == .faultHold then clearTrumps b (slotDown b s) else s

/-- FAULT_HOLD_END (R159). -/
def execFaultHoldEnd (b : BId) (s : State) : Host.Outcome State Fault Refusal :=
  ran s (faultHoldEnd b s.begin)

/-- Whether input i is tracked (R197): writes to its LOW and HIGH have no effect. -/
def tracked (x : Berth) (i : Nat) : Bool :=
  i < 4 && bitAt x.pw.track (16 + i) && !(vget x.pw.avs (railAvsCtl x i)).retired

/-- A write to RL_THR[i] (R10, R11, R13, R152): before lock it sets the fields; after lock, on a berth that was isolated and released
too (R27), only a write that carries the held FILTER and KIND moves LOW and HIGH, through the clamp. -/
def thresholdWrite (b : BId) (req : ReqId) (i : Nat) (w : Word) (s : State) : State :=
  let x := s.at b
  let old := vget x.rl.thr i
  if !x.log.on then
    let k := if fld w 31 28 ≤ 3 then w else old
    let n := pack [(fld w 11 0, 0, 12), (fld w 15 12, 12, 4), (fld w 27 16, 16, 12), (fld k 31 28, 28, 4)]
    s.updRl b fun r => { r with thr := vset r.thr i n }
  else if fld w 15 12 != fld old 15 12 || fld w 31 28 != fld old 31 28 || !ownOrHce b req || tracked x i then s
  else
    let s' := thrSet b i (fld w 11 0) (fld w 27 16) s
    let lo := thrLow (s'.at b) i
    let hi := thrHigh (s'.at b) i
    let s' := if i < 4 then
        s'.updRl b fun r => { r with wide := vmod r.wide i (Option.map fun v => (min v.1 lo, max v.2 hi)) }
      else s'
    if clampThr x i (fld w 11 0) < clampThr x i (fld w 27 16) then
      logRail b 0x10 (if i ≤ 12 then i else 15) i 0 false (thrLow (s'.at b) i) (thrHigh (s'.at b) i) false false s'
    else s'

/-- 200 µs after a setpoint acknowledgement the widened thresholds return (R153). -/
def transitionEnd (b : BId) (k : Nat) (s : State) : State :=
  let l := railOf s b k
  if (partOf s b k).writing || (l.st == .waiting && railAvs (s.at b) k && !l.setAck) then s else s.updRl b fun r => { r with wide := vset r.wide k none }

/-- SETPOINT_TRANSITION_END (R153). -/
def execSetpointTransitionEnd (b : BId) (k : Fin 4) (s : State) : Host.Outcome State Fault Refusal :=
  ran s (transitionEnd b k.val s.begin)

end Sys2Proof.Machine
end

