-- ==== Sys2Proof/Machine/Cooling.lean ====
section
/-! DEFINITION. The cooling and leak commands (chapter 07). -/
namespace Sys2Proof.Machine

def coolOf (s : State) (b : BId) (c : Nat) : Cool := vget (s.at b).cl.ch c

def updCool (b : BId) (c : Nat) (f : Cool → Cool) (s : State) : State :=
  s.updCl b fun x => { x with ch := vmod x.ch c f }

/-! ### Channels -/

def coolMode (c : Cool) : Nat := fld c.cfg0 1 0
def minRpm (c : Cool) : Nat := fld c.cfg0 31 16
def coolPpr (c : Cool) : Nat := fld c.cfg0 15 8
def coolZone (c : Cool) : Nat := fld c.cfg1 15 8
def dutyFloor (c : Cool) : Nat := 10 * fld c.dmin 7 0

/-- Zones boosted as berth b sees them (CL_BOOST, R223). -/
def boosted (x : Berth) : Word := x.cl.boost.toList.foldl (· ||| ·) 0

/-- The applied duty of a channel (R213). -/
def appliedDuty (s : State) (b : BId) (c : Nat) : Nat :=
  let x := s.at b
  let k := vget x.cl.ch c
  let base := max (dutyFloor k) k.cmd
  if coolMode k == 0 || !(x.sy.st == .active || x.sy.st == .isolated) then 1000
  else if k.st == .retired then 1000
  else if k.st == .stalled && k.offPhase then 0
  else if k.st == .kick || k.st == .stalled then 1000
  else if x.sy.st == .isolated || bitAt (boosted x) (coolZone k) || (k.wdog && !bitAt k.cfg0 2) then 1000
  else if s.dev.sleep then max 300 (dutyFloor k)
  else if k.wdog then max base k.hold
  else base

/-- A new PWM period takes the applied duty in force (R211); an output that is not used, or whose berth is not ACTIVE,
stays released (R213). -/
def pwmPeriodStart (b : BId) (c : Nat) (s : State) : State :=
  let on := coolMode (coolOf s b c) != 0 && ((s.at b).sy.st == .active || (s.at b).sy.st == .isolated)
  let d := appliedDuty s b c
  updCool b c (fun k => { k with pwm := if on then some d else none }) s

/-- PWM_PERIOD_START (R211). -/
def execPwmPeriodStart (b : BId) (c : Fin 3) (s : State) : Host.Outcome State Fault Refusal :=
  ran s (pwmPeriodStart b c.val s.begin)

/-- COOL cycles for which the output is released in a period of duty D (R211). -/
def pwmCycles (d : Nat) : Nat := rdiv (d * 1920) 1000

/-- A write to CL_DUTY.CMD (R212). -/
def dutyWrite (b : BId) (c : Nat) (req : ReqId) (w : Word) (s : State) : State :=
  let v := fld w 9 0
  if !(req.val == b.val || req == 11) || v > 1000 then s
  else updCool b c (fun k => { k with cmd := max v (dutyFloor k) }) s

/-- Channels in KICK, RUN and STALLED measure (R218, R222). -/
def measuring (k : Cool) : Bool := k.st == .kick || k.st == .run || k.st == .stalled

/-- Fan speed for a count of COOL cycles between falling edges (R214). -/
def fanRpm (k : Cool) (t : Nat) : Nat := min 65535 (2880000000 / (max 1 (coolPpr k) * max 1 t))

/-- COOL cycles since a fan's last accepted falling edge: 48 MHz against REF's 25 MHz. -/
def edgeElapsed (s : State) (k : Cool) : Nat := (s.now - k.edgeAt) * 48 / 25

/-- The reported speed of a channel when `e` COOL cycles have passed since a fan's last edge (R214, R217, R222). -/
def speedAt (k : Cool) (e : Nat) : Nat :=
  if !measuring k then 0
  else if coolMode k == 2 then k.rpm
  else if !k.valid then 0
  else fanRpm k (max k.lastT e)

/-- The reported speed now. -/
def speedNow (s : State) (k : Cool) : Nat := speedAt k (edgeElapsed s k)

/-- The zones that berth b's channels boost (R223). -/
def ownZones (x : Berth) : Word :=
  x.cl.ch.toList.foldl (fun acc k =>
    if coolMode k != 0 && (k.st == .stalled || k.st == .retired) then acc ||| (1#32 <<< coolZone k) else acc) 0

/-- Berth b's zone state after a change of a channel's state: a change is sent to every berth (R223). -/
def zoneUpdate (b : BId) (s : State) : State :=
  let z := ownZones (s.at b)
  if vget (s.at b).cl.boost b.val == z then s
  else ringSend b none (.zoneBoost z) (s.updCl b fun x => { x with boost := vset x.boost b.val z })

/-- A kick starts (R219). -/
def kickStart (b : BId) (c : Nat) (s : State) : State :=
  zoneUpdate b (updCool b c (fun k =>
    { k with st := .kick, offPhase := false, valid := false, edges := 0, lastT := 0, indexSeen := 0, fwd := 0, rev := 0
             kicks := sinc k.kicks }) s)

/-- A speed measurement at or above MIN_RPM (R218, R219, R221). -/
def speedMeasured (b : BId) (c speed : Nat) (s : State) : State :=
  let k := coolOf s b c
  if speed ≥ minRpm k && !k.reverse then
    zoneUpdate b (updCool b c (fun k =>
      { k with reached := true
               st := if k.st == .kick || (k.st == .stalled && !k.offPhase) then .run else k.st }) s)
  else s

/-- An accepted falling edge of a fan's tachometer, T COOL cycles after the previous one (R214). -/
def tachEdge (b : BId) (c t : Nat) (s : State) : State :=
  let k := coolOf s b c
  if coolMode k != 1 || !measuring k then s
  else
    let s := updCool b c (fun k =>
      { k with edges := k.edges + 1, edgeAt := s.now
               lastT := if k.edges ≥ 1 then max 1 t else 0, valid := k.valid || k.edges ≥ 1 }) s
    if (coolOf s b c).valid then speedMeasured b c (fanRpm (coolOf s b c) t) s else s

/-- TACH_EDGE (R214). -/
def execTachEdge (b : BId) (c : Fin 3) (t : BitVec 32) (s : State) : Host.Outcome State Fault Refusal :=
  ran s (tachEdge b c.val t.toNat s.begin)

/-- A channel is retired (R222). -/
def coolRetire (b : BId) (c cls events : Nat) (s : State) : State :=
  let s := updCool b c (fun k =>
    { k with st := .retired, offPhase := false, valid := false, lastT := 0, rpm := 0, reverse := false, fwd := 0, rev := 0 }) s
  let s := logRec b 0x29 (pack [(c, 0, 2), (cls, 8, 8)]) (wordOf (min (events + 1) 255)) 0 s
  notice b 0x06 c cls events (zoneUpdate b s)

/-- One ENCODER event of a pump (R215, R216, R222). -/
def encoderEvent (b : BId) (c : Nat) (s : State) : State :=
  let ev := classEvent s b 8 (coolOf s b c).encHist
  let s := updCool b c (fun k => { k with encHist := ev.2.1 }) s
  if ev.1 then coolRetire b c 8 ev.2.2 s else s

/-- An accepted change of a pump's quadrature lines (R215). -/
def encoderChange (b : BId) (c : Nat) (e : EncChange) (s : State) : State :=
  let k := coolOf s b c
  if coolMode k != 2 || !measuring k then s
  else match e with
    | .forward => updCool b c (fun k => { k with pos := (k.pos + 1) % 1024, fwd := k.fwd + 1 }) s
    | .reverse => updCool b c (fun k => { k with pos := (k.pos + 1023) % 1024, rev := k.rev + 1 }) s
    | .both => encoderEvent b c (updCool b c (fun k => { k with encErr := sinc k.encErr }) s)

/-- ENCODER_CHANGE (R215). -/
def execEncoderChange (b : BId) (c : Fin 3) (e : EncChange) (s : State) : Host.Outcome State Fault Refusal :=
  ran s (encoderChange b c.val e s.begin)

/-- An accepted index edge of a pump (R216). -/
def indexEdge (b : BId) (c : Nat) (s : State) : State :=
  let k := coolOf s b c
  if coolMode k != 2 || !measuring k then s
  else
    let bad := k.indexSeen ≥ 1 && 4 < k.pos && k.pos < 1020
    let s := updCool b c (fun k =>
      { k with pos := 0, revs := (k.revs + 1) % 65536, indexSeen := k.indexSeen + 1
               idxErr := if bad then sinc k.idxErr else k.idxErr }) s
    if bad then encoderEvent b c s else s

/-- INDEX_EDGE (R216). -/
def execIndexEdge (b : BId) (c : Fin 3) (s : State) : Host.Outcome State Fault Refusal :=
  ran s (indexEdge b c.val s.begin)

/-- Speed of a pump whose gate counted f forward and r reverse changes (R217). -/
def pumpRpm (f r : Nat) : Nat := (max f r - min f r) * 600 / 1024

/-- A pump's 100 ms gate ends (R217). -/
def pumpGate (b : BId) (c : Nat) (s : State) : State :=
  let k := coolOf s b c
  if coolMode k != 2 || !measuring k then s
  else
    let s := updCool b c (fun k =>
      { k with rpm := pumpRpm k.fwd k.rev, reverse := k.rev > k.fwd, valid := true, fwd := 0, rev := 0 }) s
    speedMeasured b c (pumpRpm k.fwd k.rev) s

/-- PUMP_SPEED_GATE (R217): every pump of the berth. -/
def execPumpSpeedGate (b : BId) (s : State) : Host.Outcome State Fault Refusal :=
  ran s (iter (upto 3) (pumpGate b) s.begin)

/-- A stall detection (R220, R222, R237); `e` is a fan's count of COOL cycles since its last accepted edge. -/
def stall (b : BId) (c : Nat) (failed : Bool) (e : Nat) (s : State) : State :=
  let k := coolOf s b c
  let ev := classEvent s b 7 k.stallHist
  let duty := appliedDuty s b c
  let s := updCool b c (fun k => { k with stallCnt := sinc k.stallCnt, stallHist := ev.2.1 }) s
  let s := logRec b 0x28 (pack [(c, 0, 2), (coolMode k, 2, 2), (b2n failed, 4, 1), (min (ev.2.2 + 1) 255, 8, 8)])
    (pack [(speedAt k e, 0, 16), (duty, 16, 10)]) (wordOf (minRpm k)) s
  if ev.1 then coolRetire b c 7 ev.2.2 s
  else zoneUpdate b (updCool b c (fun k => { k with st := .stalled, offPhase := false }) s)

/-- 3.0 s of a kick pass without MIN_RPM (R219). -/
def kickTimeout (b : BId) (c e : Nat) (s : State) : State :=
  if (coolOf s b c).st == .kick then stall b c true e s else s

/-- KICK_TIMEOUT (R219). -/
def execKickTimeout (b : BId) (c : Fin 3) (e : BitVec 32) (s : State) : Host.Outcome State Fault Refusal :=
  ran s (kickTimeout b c.val e.toNat s.begin)

/-- The speed has stayed below MIN_RPM for 1.0 s (R220); a pump in reverse counts as below (R217). -/
def stallDetect (b : BId) (c e : Nat) (s : State) : State :=
  let k := coolOf s b c
  if k.st == .run && (speedAt k e < minRpm k || k.reverse) then stall b c false e s else s

/-- STALL_DETECT (R220). -/
def execStallDetect (b : BId) (c : Fin 3) (e : BitVec 32) (s : State) : Host.Outcome State Fault Refusal :=
  ran s (stallDetect b c.val e.toNat s.begin)

/-- STALL_RETRY seconds after a stall detection the off phase starts (R221). -/
def stallRetry (b : BId) (c : Nat) (s : State) : State :=
  if (coolOf s b c).st == .stalled then updCool b c (fun k => { k with offPhase := true }) s else s

/-- STALL_RETRY (R221). -/
def execStallRetry (b : BId) (c : Fin 3) (s : State) : Host.Outcome State Fault Refusal :=
  ran s (stallRetry b c.val s.begin)

/-- The 250 ms off phase ends: a kick starts (R221). -/
def retryOffEnd (b : BId) (c : Nat) (s : State) : State :=
  if (coolOf s b c).st == .stalled && (coolOf s b c).offPhase then kickStart b c s else s

/-- RETRY_OFF_END (R221). -/
def execRetryOffEnd (b : BId) (c : Fin 3) (s : State) : Host.Outcome State Fault Refusal :=
  ran s (retryOffEnd b c.val s.begin)

/-- Berth b receives the boosted zones of berth m (R223). -/
def zoneNotice (b m : BId) (z : Word) (s : State) : State :=
  if b == m then s else s.updCl b fun x => { x with boost := vset x.boost m.val z }

/-- ZONE_BOOST_NOTICE (R223). -/
def execZoneBoostNotice (b m : BId) (z : Word) (s : State) : Host.Outcome State Fault Refusal :=
  ran s (zoneNotice b m z s.begin)

/-! ### The host-silence watchdog (R225, R226) -/

/-- Whole seconds on the silence timer (CL_HOST.SILENCE). -/
def silenceSec (s : State) (b : BId) : Nat :=
  min (((s.at b).cl.silenceHeld.getD (s.now - (s.at b).cl.silenceFrom)) / 25000000) 0xFFFF

/-- The watchdog of one channel ends (R225, R226). -/
def wdogEnd (b : BId) (c : Nat) (s : State) : State :=
  let k := coolOf s b c
  if !k.wdog then s
  else
    let s := logRec b 0x2D (pack [(c, 0, 2), (b2n (bitAt k.cfg0 2), 2, 1), (0, 3, 1)]) (wordOf (silenceSec s b))
      (pack [(k.hold, 0, 10)]) s
    updCool b c (fun k => { k with wdog := false, hold := 0 }) s

/-- A HOST_ACT notice reaches berth b (R225): expired watchdogs end, the silence timer restarts. -/
def hostActNotice (b : BId) (s : State) : State :=
  let s := iter (upto 3) (wdogEnd b) s
  s.updCl b fun x => { x with silenceFrom := s.now, noticeAt := some s.now, silenceHeld := x.silenceHeld.map fun _ => 0 }

/-- HOST_ACT_NOTICE (R225). -/
def execHostActNotice (b : BId) (s : State) : Host.Outcome State Fault Refusal := ran s (hostActNotice b s.begin)

/-- The silence timer reaches a channel's WDOG_S (R225, R226); it does not run in SLEEP, and a notice in the same REF cycle has
restarted it (R236). -/
def silenceExpiry (b : BId) (c : Nat) (s : State) : State :=
  let k := coolOf s b c
  if coolMode k == 0 || !(s.at b).ch.locked || k.wdog || (s.at b).cl.silenceHeld.isSome
      || (s.at b).cl.noticeAt == some s.now then s
  else
    let hold := if bitAt k.cfg0 2 then max (dutyFloor k) k.cmd else 0
    let s := updCool b c (fun k => { k with wdog := true, hold := hold }) s
    let s := logRec b 0x2D (pack [(c, 0, 2), (b2n (bitAt k.cfg0 2), 2, 1), (1, 3, 1)]) (wordOf (fld k.cfg1 31 16))
      (pack [(hold, 0, 10)]) s
    attn 10 s

/-- HOST_SILENCE_EXPIRY (R226). -/
def execHostSilenceExpiry (b : BId) (c : Fin 3) (s : State) : Host.Outcome State Fault Refusal :=
  ran s (silenceExpiry b c.val s.begin)

/-! ### Leak ropes (R229–R234) -/

def ropeOf (s : State) (b : BId) (r : Nat) : Rope := vget (s.at b).cl.rope r

def updRope (b : BId) (r : Nat) (f : Rope → Rope) (s : State) : State :=
  s.updCl b fun x => { x with rope := vmod x.rope r f }

/-- A change of a rope's state or latch: the own copy follows and every berth is told (R230). -/
def ropeTell (b : BId) (r : Nat) (s : State) : State :=
  let p := ropeOf s b r
  let s := s.updCl b fun x =>
    { x with ropeView := vset x.ropeView (2 * b.val + r) p.st, latchView := vset x.latchView (2 * b.val + r) p.latch }
  ringSend b none (.ropeState r p.st p.latch) s

/-- The rope's condition is compared: fitted and not retired (R229, R231). -/
def ropeLive (p : Rope) : Bool := p.st != .notFitted && p.st != .retired && fld p.cfg 31 28 != 0

/-- The LEAK record (R237). -/
def leakRecord (b : BId) (r : Nat) (s : State) : State :=
  let v := (s.at b).cl.valve
  let closed := (s.at b).cl.valveOut == some (bitAt v 1)
  logRec b 0x2A (pack [(r, 0, 1), (fld v 15 8, 8, 8), (b2n closed, 16, 1)])
    (pack [((inOf s b (20 + r)).code, 0, 12), (fld (ropeOf s b r).cfg 11 0, 16, 12)]) 0 s

/-- What the harbour does on a leak trump with a SHUT_MASK (R177, R232, R412). -/
def leakAtHarbour (mask : Nat) (s : State) : State :=
  attn 0 (iter allB (fun n t => if nbit mask n.val then withdraw n true t else t) s)

/-- A wet rope is confirmed (R232, R233, R236). -/
def leakTrump (b : BId) (r : Nat) (s : State) : State :=
  let p := ropeOf s b r
  if !ropeLive p || p.wetRun < fld p.cfg 31 28 || p.wetDone then s
  else
    let x := s.at b
    let mask := fld x.cl.valve 15 8
    let s := updRope b r (fun p => { p with st := .wet, wetDone := true, wetCnt := sinc8 p.wetCnt }) s
    if p.latch then leakRecord b r (ropeTell b r s)
    else
      let other := ropeOf s b (1 - r)
      let once := other.latch && other.latchScan == x.rl.scans
      let s := updRope b r (fun p => { p with latch := true, latchScan := x.rl.scans }) s
      let s := s.updCl b fun c =>
        { c with valveOut := if bitAt c.valve 0 then some (bitAt c.valve 1) else c.valveOut }
      let s := ropeTell b r s
      if once then leakRecord b r s
      else
        let s := shutdown b true 0x15 15 s
        let s := leakRecord b r (ringSend b none (.leakTrump mask) s)
        if s.isHbr b then leakAtHarbour mask s else s

/-- LEAK_TRUMP (R232). -/
def execLeakTrump (b : BId) (r : Fin 2) (s : State) : Host.Outcome State Fault Refusal :=
  ran s (leakTrump b r.val s.begin)

/-- Berth n receives a leak trump of berth m with its SHUT_MASK (R232). -/
def leakTrumpReceive (n m : BId) (mask : Nat) (s : State) : State :=
  if n == m then s
  else
    let s := if nbit mask n.val then shutdown n true 0x15 15 s else s
    if s.isHbr n then leakAtHarbour mask s else s

/-- LEAK_TRUMP_RECEIVE (R232). -/
def execLeakTrumpReceive (n m : BId) (mask : BitVec 8) (s : State) : Host.Outcome State Fault Refusal :=
  ran s (leakTrumpReceive n m mask.toNat s.begin)

/-- An open rope is confirmed (R231, R237). -/
def ropeOpen (b : BId) (r : Nat) (s : State) : State :=
  let p := ropeOf s b r
  if !ropeLive p || p.openRun < fld p.cfg 31 28 || p.openDone then s
  else
    let ev := classEvent s b 9 p.hist
    let s := updRope b r (fun p =>
      { p with st := if ev.1 then .retired else .openCircuit, openDone := true, openCnt := sinc8 p.openCnt
               hist := ev.2.1 }) s
    let s := logRec b 0x2B (pack [(r, 0, 1), (b2n ev.1, 8, 1)])
      (pack [((inOf s b (20 + r)).code, 0, 12), (fld p.cfg 27 16, 16, 12)]) (wordOf (min (ev.2.2 + 1) 255)) s
    let s := if ev.1 then notice b 0x07 r 0x09 ev.2.2 s else s
    gateCheck b (ropeTell b r s)

/-- ROPE_OPEN (R231). -/
def execRopeOpen (b : BId) (r : Fin 2) (s : State) : Host.Outcome State Fault Refusal :=
  ran s (ropeOpen b r.val s.begin)

/-- A dry reading is confirmed (R229). -/
def ropeDry (b : BId) (r : Nat) (s : State) : State :=
  let p := ropeOf s b r
  if !ropeLive p || p.dryRun < fld p.cfg 31 28 || p.st == .dry then s
  else ropeTell b r (updRope b r (fun p => { p with st := .dry }) s)

/-- ROPE_DRY (R229). -/
def execRopeDry (b : BId) (r : Fin 2) (s : State) : Host.Outcome State Fault Refusal :=
  ran s (ropeDry b r.val s.begin)

/-- Berth n receives the state and latch of rope r of berth m (R230). -/
def ropeNotice (n m : BId) (r : Nat) (st : RopeState) (latch : Bool) (s : State) : State :=
  if n == m then s
  else gateCheck n (s.updCl n fun x =>
    { x with ropeView := vset x.ropeView (2 * m.val + r) st, latchView := vset x.latchView (2 * m.val + r) latch })

/-- ROPE_STATE_NOTICE (R230). -/
def execRopeStateNotice (n m : BId) (r : Fin 2) (st : RopeState) (latch : Bool) (s : State) :
    Host.Outcome State Fault Refusal :=
  ran s (ropeNotice n m r.val st latch s.begin)

/-- A write to LK_CLEAR (R233). -/
def lkClear (b : BId) (req : ReqId) (w : Word) (s : State) : State :=
  let r := fld w 0 0
  let p := ropeOf s b r
  if !(req == 9 || req == 10) || fld w 31 16 != 0x1EAC || !p.latch || p.st != .dry then s
  else
    let s := updRope b r (fun p => { p with latch := false }) s
    ropeTell b r (logRec b 0x2C (pack [(r, 0, 1), (req.val, 8, 4)]) 0 0 s)

end Sys2Proof.Machine
end

