-- ==== Sys2Proof/Machine/Power.lean ====
section
/-! DEFINITION. The power commands: budget, admission, AVSBus, settling, trim, the loops and the power estimate
(chapter 06). -/
namespace Sys2Proof.Machine

/-! ### Budget and admission -/

/-- BUDGET_MAX of the locked chart (R76, PW_BUDGET_MAX). -/
def budgetMax (x : Berth) : Nat := if x.ch.locked then fld (x.recWord 1 0 1) 15 0 else 0

/-- The grant of slot n after a budget trump (R180). -/
def cutGrant (x : Berth) (n grant budget sum : Nat) : Nat := max (grantMin x n) (grant * budget / sum)

/-- A budget trump at harbour h (R180): every admitted slot's grant is recomputed, at once. -/
def budgetTrump (h : BId) (budget : Nat) (s : State) : State :=
  let sum := grantSum (s.at h).tray
  let s := iter allB (fun n t =>
    let p := (s.at h).tray.pw
    let a := vget p.admis n.val
    let g := vget p.grant n.val
    if a == .admitted || a == .unadmitted then
      let c := cutGrant (s.at h) n.val g budget sum
      let t := t.updTray h fun y => { y with pw := { y.pw with
        newGrant := vmod y.pw.newGrant n.val (Option.map fun v => min v c) } }
      let t := if c < g then t.updPw n fun q => { q with cutSince := true } else t
      setGrant n c t
    else t) s
  let s := s.updTray h fun y => { y with pw := { y.pw with budgetCut := sinc y.pw.budgetCut } }
  attn 2 s

/-- A write of PW_BUDGET (R173): from the host paths only, after lock, within BUDGET_MAX. A change of it and a budget trump are logged
(R180, R207). -/
def budgetWrite (req : ReqId) (w : Nat) (s : State) : State :=
  match s.harbour with
  | none => s
  | some h =>
    let x := s.at h
    if !(req == 9 || req == 10) || !x.ch.locked || w > budgetMax x then s
    else
      let old := x.tray.pw.budget
      let sum := grantSum x.tray
      let s := s.updTray h fun y => { y with pw := { y.pw with budget := w } }
      let s := if w < sum then budgetTrump h w s else s
      if w == old && !(w < sum) then s
      else logRec h 0x22 (pack [(w, 0, 16), (old, 16, 16)]) (pack [(grantSum (s.at h).tray, 0, 16)]) (wordOf req.val) s

/-- The pilot requests admission (R175): the slot becomes WAITING. -/
def admitReq (b : BId) (req : ReqId) (s : State) : State :=
  match s.harbour with
  | none => s
  | some h =>
    if (req.val == b.val || req == 11) && (s.at h).ch.locked && nbit (s.at h).populated b.val
        && vget s.tray.pw.admis b.val == .none
    then setAdmit b .waiting s else s

/-- The pilot withdraws the admission of its DOWN slot (R177). -/
def admitCancel (b : BId) (req : ReqId) (s : State) : State :=
  if (req.val == b.val || req == 11) && (s.at b).rl.slot == .down then withdraw b false s else s

/-- The harbour takes berth n's mark average (R182). -/
def markAverageReceive (n : BId) (w : Nat) (s : State) : State :=
  s.onTray fun t => { t with pw := { t.pw with markAvg := vset t.pw.markAvg n.val w } }

/-- MARK_AVERAGE_RECEIVE (R182). -/
def execMarkAverageReceive (n : BId) (w : BitVec 16) (s : State) : Host.Outcome State Fault Refusal :=
  ran s (markAverageReceive n w.toNat s.begin)

/-- Tray power is over the budget, and every used partition of every powered slot is at step 0 (R182). -/
def overAtFloor (s : State) : Bool :=
  decide (s.tray.pw.markAvg.toList.foldl (· + ·) 0 > s.tray.pw.budget) && allB.all fun n =>
    let x := s.at n
    downish x.rl.slot || (upto 4).all fun k => !partUsed x n.val k || (vget x.pw.parts k).applied == 0

/-- The 256th consecutive boundary over the budget at the floor sets FLOOR_OVER (R182). The runs are counted at the
harbour's mark boundaries. -/
def floorOverSet (s : State) : State :=
  if s.tray.pw.floorRun ≥ 256 then s.onTray fun t => { t with pw := { t.pw with floorOver := true } } else s

/-- FLOOR_OVER_SET (R182). -/
def execFloorOverSet (s : State) : Host.Outcome State Fault Refusal := ran s (floorOverSet s.begin)

/-! ### AVSBus -/

def avsOf (s : State) (b : BId) (c : Nat) : Avs := vget (s.at b).pw.avs c

def updAvs (b : BId) (c : Nat) (f : Avs → Avs) (s : State) : State :=
  s.updPw b fun p => { p with avs := vmod p.avs c f }

/-- AVSBUS events of a controller in the window. -/
def avsEvents (s : State) (b : BId) (c : Nat) : Nat :=
  inWindow (avsOf s b c).hist (s.hTide b) (retireNW (s.at b) 5).2

/-- The used partitions whose rails controller c drives. -/
def partsOn (x : Berth) (slot c : Nat) : List Nat :=
  (upto 4).filter fun k => partUsed x slot k && railAvsCtl x k == c

/-- The highest step whose guard floor is at or below a setpoint, or 0 (R208). -/
def pinCap (x : Berth) (slot k sp : Nat) : Nat :=
  (upto (stepCount x slot k)).foldl (fun acc st => if guardFloor x slot k st ≤ sp then st else acc) 0

/-- An AVSBus controller is retired (R208): no further frames; s_pin of its partitions holds them. -/
def avsRetire (b : BId) (c events : Nat) (s : State) : State :=
  let s := updAvs b c (fun a => { a with retired := true, queue := [], statusRead := false, confirm := none }) s
  let s := notice b 0x05 c 0x05 events s
  iter (partsOn (s.at b) b.val c) (fun k t =>
    capsChanged b k (t.updPart b k fun p =>
      { p with sPin := pinCap (t.at b) b.val k p.setpoint, writing := false, settling := none })) s

/-- Three failed attempts (R186, R207): the setpoint is uncertain, an AVSBUS event, perhaps the retirement. -/
def avsGiveUp (b : BId) (c : Nat) (w : AvsWrite) (s : State) : State :=
  let last := (partOf s b w.rail).acked
  let s := s.updPart b w.rail fun p =>
    { p with setpoint := if last == 0 then w.mv else min last w.mv, raiseTo := none
             writing := (avsOf s b c).queue.any fun v => v.rail == w.rail && !v.powerUp }
  let ev := classEvent s b 5 (avsOf s b c).hist
  let s := updAvs b c (fun a => { a with hist := ev.2.1 }) s
  let s := logRec b 0x21 (pack [(c, 0, 1), (railAvsSel (s.at b) w.rail, 4, 4), (w.mv, 16, 16)])
    (pack [(last, 0, 16), ((avsOf s b c).lastAck, 16, 2)]) (wordOf (min (ev.2.2 + 1) 255)) s
  if ev.1 then avsRetire b c ev.2.2 s else s

/-- An attempt of the write at the front fails (R185, R186): Status is read, then the rail's Target Rail Voltage; after the third
failure the write is given up. -/
def avsFailed (b : BId) (c : Nat) (s : State) : State :=
  match (avsOf s b c).queue with
  | [] => s
  | w :: ws =>
    let n := w.attempts + 1
    let s := updAvs b c (fun a =>
      { a with fail := sinc a.fail, statusRead := true, confirm := some w.rail
               queue := if n ≥ 3 then ws else { w with attempts := n } :: ws }) s
    let s := if n ≥ 3 then avsGiveUp b c w s else s
    if (avsOf s b c).retired then s else s.emit (.avsStatus b c)

/-- The write at the front is acknowledged (R142, R186, R187). -/
def avsAcked (b : BId) (c : Nat) (s : State) : State :=
  match (avsOf s b c).queue with
  | [] => s
  | w :: ws =>
    let s := updAvs b c (fun a => { a with queue := ws }) s
    let more := ws.any fun v => v.rail == w.rail
    let s := s.updPart b w.rail fun p =>
      { p with setpoint := w.mv, acked := w.mv, writing := more && !w.powerUp, tries := w.attempts + 1
               settling := if w.powerUp then none else some w.mv }
    let s := if w.powerUp then driveIfReady b w.rail (s.updRail b w.rail fun l => { l with setAck := true }) else s
    avsSend b c s

/-- A controller reads after a failed attempt. -/
def avsReads (a : Avs) : Bool := a.statusRead || a.confirm.isSome

/-- A read after a failed attempt ends (R185, R186): AVSBus Status, then Target Rail Voltage, then the next write. -/
def avsReadDone (b : BId) (c : Nat) (s : State) : State :=
  let a := avsOf s b c
  match a.statusRead, a.confirm with
  | true, some r => (updAvs b c (fun a => { a with statusRead := false }) s).emit (.avsTarget b c (railAvsSel (s.at b) r))
  | _, _ => avsSend b c (updAvs b c (fun a => { a with statusRead := false, confirm := none }) s)

/-- An AVSBus response frame arrives (R186): whether its CRC is right, and its acknowledgement field. -/
def avsResponse (b : BId) (c : Nat) (crcOk : Bool) (ack : Nat) (s : State) : State :=
  let a := avsOf s b c
  if a.retired || s.dev.sleep then s
  else if avsReads a then avsReadDone b c (updAvs b c (fun a => { a with lastAck := ack }) s)
  else if a.queue.isEmpty then s
  else
    let s := updAvs b c (fun a => { a with lastAck := ack }) s
    if crcOk && ack == 0 then avsAcked b c s else avsFailed b c s

/-- AVS_RESPONSE (R186). -/
def execAvsResponse (b : BId) (c : Fin 2) (crcOk : Bool) (ack : Fin 4) (s : State) : Host.Outcome State Fault Refusal :=
  ran s (avsResponse b c.val crcOk ack.val s.begin)

/-- No response frame within 10 µs (R186). -/
def avsTimeout (b : BId) (c : Nat) (s : State) : State :=
  let a := avsOf s b c
  if a.retired || s.dev.sleep then s
  else if avsReads a then avsReadDone b c s
  else if a.queue.isEmpty then s
  else avsFailed b c s

/-- AVS_RESPONSE_TIMEOUT (R186). -/
def execAvsResponseTimeout (b : BId) (c : Fin 2) (s : State) : Host.Outcome State Fault Refusal :=
  ran s (avsTimeout b c.val s.begin)

/-- PARTk's voltage input in millivolts (R188). -/
def partMv (s : State) (b : BId) (k : Nat) : Nat := codeToMv (s.at b) k (inOf s b k).code

/-- The reading test of R187 for a target. -/
def readingOk (s : State) (b : BId) (k mv : Nat) : Bool := !monitored (s.at b) k || partMv s b k + 10 ≥ mv

/-- A voltage change settles (R187) where its reading test holds. -/
def voltageSettle (b : BId) (k : Nat) (s : State) : State :=
  match (partOf s b k).settling with
  | none => s
  | some mv =>
    if readingOk s b k mv then
      s.updPart b k fun p => { p with settling := none, settledAt := s.now, settled := p.settled || (mv == p.target && !p.writing) }
    else s

/-- VOLTAGE_SETTLE (R187). -/
def execVoltageSettle (b : BId) (k : Fin 4) (s : State) : Host.Outcome State Fault Refusal :=
  ran s (voltageSettle b k.val s.begin)

/-- The reading test fails 1 ms after acknowledgement (R187): a failed write under R186. -/
def settleTimeout (b : BId) (k : Nat) (s : State) : State :=
  match (partOf s b k).settling with
  | none => s
  | some mv =>
    if readingOk s b k mv then s
    else
      let c := railAvsCtl (s.at b) k
      let n := (partOf s b k).tries
      let s := updAvs b c (fun a => { a with fail := sinc a.fail }) (s.updPart b k fun p => { p with settling := none })
      if (avsOf s b c).retired then s
      else if n ≥ 3 then avsGiveUp b c ⟨k, mv, false, n, false⟩ s
      else
        let idle := (avsOf s b c).queue.isEmpty && !avsReads (avsOf s b c)
        let s := updAvs b c (fun a => { a with queue := a.queue ++ [⟨k, mv, false, n, true⟩] }) s
        let s := s.updPart b k fun p => { p with writing := true }
        if idle then avsSend b c s else s

/-- SETTLE_TIMEOUT (R187). -/
def execSettleTimeout (b : BId) (k : Fin 4) (s : State) : Host.Outcome State Fault Refusal :=
  ran s (settleTimeout b k.val s.begin)

/-! ### Voltage trim (R196) -/

/-- The highest step that is applied or ordered and not acknowledged (R183). -/
def guardStep (p : Part) : Nat := max p.applied (p.orderPend.getD 0)

/-- The trimmed setpoint of PARTk (R196): 5 mV up or down, unless that step leaves the range of the target, the guard floor or VMAX. -/
def trimTo (s : State) (b : BId) (k : Nat) : Nat :=
  let x := s.at b
  let p := partOf s b k
  let lim := fld x.pw.trim 14 8
  let v := partMv s b k
  if v + 5 ≤ p.target then
    (if p.setpoint + 5 ≤ min (p.target + lim) (partVmax x b.val k) then p.setpoint + 5 else p.setpoint)
  else if p.target + 10 ≤ v then
    (if p.setpoint ≥ 5 + max (p.target - lim) (guardFloor x b.val k (guardStep p)) then p.setpoint - 5 else p.setpoint)
  else p.setpoint

/-- Whether trim skips PARTk (R196, R202, R208); a partition not ready keeps the setpoint of R142 (R195; DEDUCED, notes entry 13). -/
def trimSkips (s : State) (b : BId) (k : Nat) : Bool :=
  let p := partOf s b k
  !partUsed (s.at b) b.val k || !p.ready || !monitored (s.at b) k || (avsOf s b (railAvsCtl (s.at b) k)).retired
    || p.writing || p.settling.isSome || p.orderPend.isSome || p.raiseTo.isSome || s.now - p.settledAt < 25000

/-- One trim of every monitored PART rail of an UP slot (R196). -/
def trimTick (b : BId) (s : State) : State :=
  if !bitAt (s.at b).pw.trim 0 || (s.at b).rl.slot != .up then s
  else iter (upto 4) (fun k t =>
    if trimSkips t b k || trimTo t b k == (partOf t b k).setpoint then t
    else
      let w := softLimits (t.at b) k
      avsWrite b k (trimTo t b k) false 0 (t.updRl b fun r => { r with wide := vset r.wide k (some w) })) s

/-- VOLTAGE_TRIM_TICK (R196). -/
def execVoltageTrimTick (b : BId) (s : State) : Host.Outcome State Fault Refusal := ran s (trimTick b s.begin)

/-! ### The thermal and current loops (R198) -/

/-- The inputs that act on a cap of partition k. -/
def capIns (p : Part) (temp : Bool) : List Nat := if temp then p.thermIns else p.currIns

/-- The loop's interval has passed since the last lowering and an acting input still reads above HIGH, at the
boundary that is about to be processed (R198). -/
def loopDue (s : State) (b : BId) (k : Nat) (temp : Bool) : Bool :=
  let x := s.at b
  let p := partOf s b k
  decide (x.pw.bnd + 1 ≥ (if temp then p.thermLow else p.currLow) + fld x.pw.therm 7 0)
    && (capIns p temp).any fun i => (inOf s b i).code > thrHigh x i

/-- One step of the loop: the cap falls by one (R198). -/
def thermalLoopStep (b : BId) (k : Nat) (temp : Bool) (s : State) : State :=
  if loopDue s b k temp then
    let n := (s.at b).pw.bnd + 1
    capsChanged b k (s.updPart b k fun p =>
      if temp then { p with sTherm := p.sTherm - 1, thermLow := n } else { p with sCurr := p.sCurr - 1, currLow := n })
  else s

/-- THERMAL_LOOP_STEP (R198): partition k, and whether the cap is s_therm or s_curr. -/
def execThermalLoopStep (b : BId) (k : Fin 4) (temp : Bool) (s : State) : Host.Outcome State Fault Refusal :=
  ran s (thermalLoopStep b k.val temp s.begin)

/-- Input i reads at or below HIGH − HYST. -/
def readsClear (s : State) (b : BId) (i : Nat) : Bool :=
  (inOf s b i).code + fld (s.at b).pw.therm 19 8 ≤ thrHigh (s.at b) i

/-- Every input that acts on the cap reads clear at the boundary about to be processed and did at INT − 1
boundaries before it (R198). -/
def releaseDue (s : State) (b : BId) (k : Nat) (temp : Bool) : Bool :=
  let ins := capIns (partOf s b k) temp
  !ins.isEmpty && ins.all fun i => readsClear s b i && vget (s.at b).pw.clear i + 1 ≥ fld (s.at b).pw.therm 7 0

/-- The cap is released (R198); the target follows at once (R194). -/
def thermalCapRelease (b : BId) (k : Nat) (temp : Bool) (s : State) : State :=
  if releaseDue s b k temp then
    capsChanged b k (s.updPart b k fun p =>
      if temp then { p with sTherm := 31, thermIns := [] } else { p with sCurr := 31, currIns := [] })
  else s

/-- THERMAL_CAP_RELEASE (R198). -/
def execThermalCapRelease (b : BId) (k : Fin 4) (temp : Bool) (s : State) : Host.Outcome State Fault Refusal :=
  ran s (thermalCapRelease b k.val temp s.begin)

/-! ### The power estimate and the power loop (R200, R201) -/

/-- Whether current input i (13–19) contributes to the estimate (R200). -/
def contributes (x : Berth) (i : Nat) : Bool := inAssoc x i ≤ 12 && monitored x (inAssoc x i)

/-- The current inputs of the berth. -/
def currentIns (x : Berth) : List Nat := ((upto 7).map (· + 13)).filter fun i => thrKind x i == 1

/-- The power estimate of one scan in µW: mA times mV (R200). -/
def powerEstimate (x : Berth) : Nat :=
  (currentIns x).foldl (fun acc i =>
    if contributes x i then
      acc + (vget x.rl.ins i).code * fld (vget x.pw.iscale (i - 13)) 15 0
        * codeToMv x (inAssoc x i) (vget x.rl.ins (inAssoc x i)).code
    else acc) 0

/-- A scan ends (R145, R200), all its inputs converted: it is counted, and its estimate joins the mark's. -/
def scanComplete (b : BId) (s : State) : State :=
  if (s.at b).rl.scanAt != 24 then s
  else
  let e := powerEstimate (s.at b)
  let part := (currentIns (s.at b)).any fun i => !contributes (s.at b) i
  let s := s.updRl b fun r => { r with scans := (r.scans + 1) % 2 ^ 64, scanAt := 0 }
  s.updPw b fun p => { p with estSum := p.estSum + e, estCnt := p.estCnt + 1, partialPwr := part }

/-- SCAN_COMPLETE (R200). -/
def execScanComplete (b : BId) (s : State) : Host.Outcome State Fault Refusal := ran s (scanComplete b s.begin)

/-- The average of the mark that ends at the coming boundary, in W (R200). Where no scan ends within the mark the mean is of nothing, and
the last average stands (DESIGN CHOICE, notes entry 86). -/
def markAverage (p : Pw) : Nat := if p.estCnt == 0 then p.avg else p.estSum / p.estCnt / 1000000

/-- The mark average is over the grant (R201). -/
def overGrant (p : Pw) : Bool := markAverage p > p.grant

/-- The mark average is at or below grant − floor(grant / 16) (R201). -/
def underGrant (p : Pw) : Bool := markAverage p ≤ p.grant - p.grant / 16

/-- PW_OG.MARKS boundaries in a row over the grant: s_pwr falls by one (R201). -/
def overGrantLower (b : BId) (s : State) : State :=
  let p := (s.at b).pw
  if overGrant p && !p.ogDone && p.overRun + 1 ≥ fld p.og 7 0 then
    let s := s.updPw b fun p => { p with ogDone := true }
    iter ((upto 4).filter (partUsed (s.at b) b.val)) (fun k t =>
      capsChanged b k (t.updPart b k fun q =>
        { q with sPwr := min q.sPwr (stepFrom t q - 1), pwrBudget := p.cutSince })) s
  else s

/-- OVER_GRANT_LOWER (R201). -/
def execOverGrantLower (b : BId) (s : State) : Host.Outcome State Fault Refusal := ran s (overGrantLower b s.begin)

/-- 16 boundaries in a row well below the grant: s_pwr rises by one (R201). -/
def underGrantRaise (b : BId) (s : State) : State :=
  let p := (s.at b).pw
  if underGrant p && !p.ogDone && p.underRun + 1 ≥ 16 then
    let s := s.updPw b fun p => { p with ogDone := true }
    iter ((upto 4).filter (partUsed (s.at b) b.val)) (fun k t =>
      capsChanged b k (t.updPart b k fun q => { q with sPwr := min 31 (q.sPwr + 1) })) s
  else s

/-- UNDER_GRANT_RAISE (R201). -/
def execUnderGrantRaise (b : BId) (s : State) : Host.Outcome State Fault Refusal := ran s (underGrantRaise b s.begin)

end Sys2Proof.Machine
end

