-- ==== Sys2Proof/Machine/Service.lean ====
section
/-! DEFINITION. The service engine: bring-up, resets, report comparisons and slot flits (chapter 11). The engine keeps
one order of its sequence outstanding at a time (DEDUCED, notes entry 14). -/
namespace Sys2Proof.Machine

/-! ### The engine's orders -/

/-- Where the ACCEL_FW image starts in firmware slot A or B (R92, R372). -/
def accelStore (slotB : Bool) : Nat := (if slotB then 0x01100000 else 0x00100000) + 0x300000

/-- n bytes of the harbour's flash (erased bytes where there is no harbour). -/
def hbrFlash (s : State) (off n : Nat) : List Byte :=
  match s.harbour with
  | some h => memRead flashD (s.at h).flash off n
  | none => List.replicate n flashD

/-- Bytes of the body being pushed. -/
def pushPiece (s : State) (b : BId) (off : Nat) : List Byte :=
  let v := (s.at b).svc
  hbrFlash s (accelStore v.pushB + 64 + off) (min 256 (v.pushLen - off))

/-- First core and number of cores of a unit (R338). -/
def unitCores (level unit : Nat) : Nat × Nat :=
  match level with
  | 0 => (unit, 1) | 1 => (16 * unit, 16) | 2 => (256 * unit, 256) | _ => (0, 1024)

/-- Bytes of the enforced limits that the engine writes: the unit's during a reset, else all (R345, R349). -/
def limitRange (v : Svc) : Nat × Nat :=
  let u := if v.st == .resetting && v.chipStage == .off then unitCores v.rstLevel v.rstUnit else (0, 1024)
  (8 * u.1, 8 * (u.1 + u.2))

/-- The peers of LINKS (R341, R355): populated slots not retired, other than its own, less the fenced ones. -/
def linksMask (s : State) (b : BId) : Nat :=
  let x := s.at b
  maskOf 8 fun n => nbit x.populated n && n != b.val && (s.at (bid n)).rl.slot != .retired
    && !nbit s.tray.hl.retired n && !nbit x.svc.fenced n

def coreOn (v : Svc) (c : Nat) : Bool := !v.defect.getLsbD c

/-- A used partition with an enabled core (R346). -/
def servable (x : Berth) (slot k : Nat) : Bool :=
  partUsed x slot k && (upto 256).any fun i => coreOn x.svc (256 * k + i)

/-- The partitions CORES_GO names: every servable one, or that of a PARTITION reset if it is servable (R346, R349). -/
def goMask (x : Berth) (slot : Nat) : Nat :=
  let v := x.svc
  maskOf 4 fun k => servable x slot k && !(v.st == .resetting && v.chipStage == .off && k != v.rstUnit)

def fnCode : CtrlFn → Nat
  | .fwCheck => 1 | .fwStart => 2 | .clocks => 3 | .memRepair => 4 | .links => 5 | .coresGo => 6
  | .quiesce => 7 | .resetAssert => 8 | .resetRelease => 8 | .unquiesce => 9

/-- ARG0 of a CTRL order (R338). -/
def fnArg0 (s : State) (b : BId) (f : CtrlFn) : Nat :=
  let v := (s.at b).svc
  match f with
  | .links => linksMask s b
  | .coresGo => goMask (s.at b) b.val
  | .quiesce => v.rstLevel + 4 * b2n (v.rstAbsorb || v.escalated)
  | .resetAssert => v.rstLevel + 4
  | .resetRelease => v.rstLevel
  | .unquiesce => v.rstLevel
  | _ => 0

/-- The first argument word of a CTRL order (R338). -/
def fnArg (v : Svc) : CtrlFn → Nat
  | .fwCheck => v.pushLen
  | .fwStart => v.pushEntry
  | .quiesce | .resetAssert | .resetRelease | .unquiesce => v.rstUnit
  | _ => 0

def readOrder (num addr len : Nat) : Order := { op := .read, owner := .service num, addr := addr, len := len }
def writeOrder (num addr : Nat) (data : List Byte) : Order :=
  { op := .write, owner := .service num, addr := addr, len := data.length, data := data }

/-- Length of the piece at offset `off` of a range that ends at `hi`. -/
def pieceLen (off hi : Nat) : Nat := min 256 (hi - off)

/-- The order of a step, numbered `num` (R336, R338, R341 to R346, R349). -/
def stepOrder (s : State) (b : BId) (num : Nat) : Option Order :=
  let v := (s.at b).svc
  match v.step with
  | .ident => some (readOrder num 0 32)
  | .push off => some (writeOrder num (0x1000000 + off) (pushPiece s b off))
  | .fwCrc => some (readOrder num 0x18 4)
  | .ctrl f => some { op := .ctrl, owner := .service num
                      args := [pack [(fnCode f, 0, 16), (fnArg0 s b f, 16, 16)], wordOf (fnArg v f), 0, 0, 0] }
  | .status _ => some (readOrder num 0x10 4)
  | .repairRead => some (readOrder num 0x10080 128)
  | .fuseRead => some (readOrder num 0x10000 128)
  | .tableRead off _ => some (readOrder num (0x20000 + off) (pieceLen off 8224))
  | .enableWrite => some (writeOrder num 0x30000 v.enMap)
  | .limitWrite off => some (writeOrder num (0x40000 + off)
      ((v.limits.drop off).take (pieceLen off (limitRange v).2)))
  | .enableBack => some (readOrder num 0x30000 128)
  | .limitBack off => some (readOrder num (0x40000 + off) (pieceLen off (limitRange v).2))
  | _ => none

/-- Issues an order of the engine; READ and WRITE take a buffer of the hawser hand, or wait for one (R342, R384). -/
def svcIssue (b : BId) (o : Order) (s : State) : State :=
  if o.op == .read || o.op == .write then
    match deckAlloc b 0 false s with
    | (some g, t) =>
      let t := if o.op == .write then bufWrite g o.data t else t
      issueHw b { o with buf := g } t
    | (none, t) => t.updSvc b fun v => { v with want := v.want ++ [o] }
  else issueHw b o s

/-- Retries the orders that wait for a buffer (R384). -/
def svcRetry (b : BId) (s : State) : State :=
  let w := (s.at b).svc.want
  iter w (svcIssue b) (s.updSvc b fun v => { v with want := [] })

/-- Issues the order of the engine's present step, under the next order number. -/
def svcSend (b : BId) (s : State) : State :=
  let s := s.updSvc b fun v => { v with num := v.num + 1, busy := false }
  match stepOrder s b (s.at b).svc.num with
  | some o => svcIssue b o s
  | none => s

/-- The engine goes to a step and issues its order. -/
def svcGo (b : BId) (st : SvcStep) (s : State) : State :=
  svcSend b (s.updSvc b fun v => { v with step := st })

/-! ### Deriving the enabled set (R343, R344) -/

/-- A map of the cores for which p holds. -/
def coreMap (p : Nat → Bool) : BitVec 1024 := BitVec.ofNat 1024 (maskOf 1024 p)

/-- CODE(c, b) of a frequency table. -/
def codeOf (codes : List Byte) (c bin : Nat) : Nat := ((codes[8 * c + bin]?).getD 0).toNat

/-- A core whose code is 0 in a bin or falls from a bin to the next (R343). -/
def tableBad (codes : List Byte) (c : Nat) : Bool :=
  (upto 8).any (fun i => codeOf codes c i == 0) || (upto 7).any fun i => codeOf codes c (i + 1) < codeOf codes c i

/-- The checks of R343 on a table as read. -/
def tableOk (t : List Byte) : Bool :=
  natAt t 0 4 == 0x54584D46 && natAt t 4 2 == 1 && natAt t 6 2 == 0x400
    && (upto 7).all (fun i => natAt t (8 + 2 * i) 2 < natAt t (10 + 2 * i) 2)
    && natAt t 0x18 4 == (crc32 (t.take 0x18 ++ (t.drop 0x20).take 8192)).toNat

/-- Ceiling of cluster cl in a bin (R189): the lowest code of its enabled cores; 0 where none is enabled. -/
def ceiling (v : Svc) (cl bin : Nat) : Nat :=
  let cs := ((upto 16).map fun i => 16 * cl + i).filter (coreOn v)
  match cs with
  | [] => 0
  | c :: cs => cs.foldl (fun acc c => min acc (codeOf v.codes c bin)) (codeOf v.codes c bin)

/-- The enforced limit of core c in a bin (R344). -/
def enforced (x : Berth) (slot c bin : Nat) : Nat :=
  if coreOn x.svc c then min (codeOf x.svc.codes c bin) (partFmax x slot (c / 256) * 2 / 25) else 0

/-- The cluster codes of a partition at its applied step. -/
def partCodes (x : Berth) (slot k : Nat) : List Nat :=
  (upto 16).map fun i => clusterCode x slot k (vget x.pw.parts k).applied (16 * k + i)

/-- The enabled set and all that derives from it (R344); a ready partition whose codes change is sent them (R326). -/
def deriveCores (b : BId) (s : State) : State :=
  let old := s.at b
  let v := old.svc
  let off := ~~~ (v.fuse &&& v.repair) ||| v.tableInvalid ||| v.runtimeOff
  let s := s.updSvc b fun v => { v with defect := off }
  let s := s.updSvc b fun v => { v with
    cores := pack [(popCount (~~~ off), 0, 11), (popCount (~~~ (v.fuse &&& v.repair)), 11, 11),
      (min (popCount (v.tableInvalid ||| v.runtimeOff)) 1023, 22, 10)]
    enMap := leBytes 128 (~~~ off).toNat
    limits := (upto 8192).map fun i => BitVec.ofNat 8 (enforced (s.at b) b.val (i / 8) (i % 8)) }
  let s := s.updPw b fun p => { p with
    binv := v.edges, clfmax := Vector.ofFn fun i => ceiling (s.at b).svc (i.val / 8) (i.val % 8) }
  iter (upto 4) (fun k t =>
    if (partOf t b k).ready && partCodes (t.at b) b.val k != partCodes old b.val k then
      sendFreq b k (partOf t b k).applied t else t) s

/-- A valid table is taken (R343): its edges, codes and table-invalid cores, each with an SVC_DEFECT record. -/
def takeTable (b : BId) (t : List Byte) (s : State) : State :=
  let codes := (t.drop 0x20).take 8192
  let bad := coreMap (tableBad codes)
  let was := (s.at b).svc.tableInvalid
  let s := iter ((upto 1024).filter fun c => bad.getLsbD c && !was.getLsbD c)
    (fun c t => logRec b 0x4A (pack [(c, 0, 10), (3, 12, 4)]) 0 0 t) s
  let s := s.updSvc b fun v => { v with
    tableInvalid := bad, codes := codes, edges := Vector.ofFn fun i => natAt t (8 + 2 * i.val) 2
    runtimeOff := v.runtimeOff &&& ~~~ v.reenable, reenable := 0, tableBuf := [] }
  deriveCores b s

/-! ### Stages (R341) -/

/-- A stage starts: its clock runs, and the state, or within a CHIP reset the stage within it, changes. -/
def stageStart (b : BId) (st : SvcState) (s : State) : State :=
  let s := s.updSvc b fun v => { v with stageSince := s.now, detail := 0 }
  if (s.at b).svc.st == .resetting then s.updSvc b fun v => { v with chipStage := st } else setSvc b st s

/-- The engine rests in SERVICE; a LINKS order that a PEER dispute asked for is issued now (R355). -/
def svcRest (b : BId) (s : State) : State :=
  let s := s.updSvc b fun v => { v with step := .idle }
  if (s.at b).svc.linksPend && (s.at b).svc.st == .service then
    svcGo b (.ctrl .links) (s.updSvc b fun v => { v with linksPend := false })
  else s

/-- A reset ends (R349, R351): the SVC_RESET record; the engine is in SERVICE again. -/
def resetEnd (b : BId) (s : State) : State :=
  let s := s.updSvc b fun v => { v with chipStage := .off }
  svcRest b (setSvc b .service (logReset b false s))

/-- Marks the partitions of a mask ready for frequency orders (R346): the hold of R195 ends. -/
def markReady (b : BId) (mask : Nat) (s : State) : State :=
  iter (upto 4) (fun k t =>
    if nbit mask k then retarget b k (t.updPart b k fun p => { p with ready := true }) else t) s

/-- CORES ends (R346). -/
def endCores (b : BId) (s : State) : State :=
  let s := stageDone b 0 (markReady b (goMask (s.at b) b.val) s)
  if (s.at b).svc.st == .resetting then resetEnd b s else svcRest b (setSvc b .service s)

def startCores (b : BId) (s : State) : State := svcGo b .fuseRead (stageStart b .cores s)

def startLinks (b : BId) (s : State) : State :=
  let s := s.updSvc b fun v => { v with fenced := 0, linksPend := false }
  svcGo b (.ctrl .links) (stageStart b .links s)

def startMemory (b : BId) (s : State) : State := svcGo b (.ctrl .memRepair) (stageStart b .memory s)

def startClocks (b : BId) (s : State) : State := svcGo b (.ctrl .clocks) (stageStart b .clocks s)

/-- FIRMWARE ends: report polls begin (R354), CLOCKS starts. -/
def endFirmware (b : BId) (s : State) : State :=
  let s := (stageDone b 0 s).updSvc b fun v =>
    { v with reporting := true, pollMarks := 0, lastSeq := none, pushLen := 0 }
  startClocks b s

/-- FIRMWARE (R342): skipped without an ACCEL_FW record; NO_IMAGE where the image has not loaded or has no store. -/
def startFirmware (b : BId) (s : State) : State :=
  let s := stageStart b .firmware s
  let r := vget s.tray.img.roles 3
  if !(s.at b).hasRec 13 3 then endFirmware b s
  else if r.st != .loaded || !r.store then svcFail b 0x0D s
  else svcGo b (.push 0) (s.updSvc b fun v =>
    { v with pushB := r.slotB, pushLen := r.bodyLen, pushEntry := r.entry, pushDigest := r.digest })

/-- MGMT (R341): START under R330, then the identity block once the link is UP. -/
def startMgmt (b : BId) (s : State) : State :=
  let s := linkStart b (stageStart b .mgmt s)
  if (s.at b).hw.link == .up then svcGo b .ident s else s.updSvc b fun v => { v with step := .waitLink }

/-- The link has entered UP: a MGMT stage that waits for it goes on. -/
def svcLinkUp (b : BId) (s : State) : State := if (s.at b).svc.step == .waitLink then svcGo b .ident s else s

/-! ### Replies -/

/-- Identity checks (R337, R341). -/
def identReply (b : BId) (d : List Byte) (s : State) : State :=
  let s := s.updSvc b fun v => { v with id := wordAt d 0, rom := wordAt d 20 }
  if natAt d 2 2 != 0x5351 || natAt d 0 2 != 0x400 || natAt d 5 1 != 1 then svcFail b 0x02 s
  else startFirmware b (stageDone b 0 s)

/-- Header and body of the image being pushed, as its store holds them. -/
def pushImage (s : State) (b : BId) : List Byte :=
  hbrFlash s (accelStore (s.at b).svc.pushB) (64 + (s.at b).svc.pushLen)

/-- A piece of the push is written (R342): the next piece, or after the last the digest test and FW_CHECK. -/
def pushReply (b : BId) (off : Nat) (s : State) : State :=
  let v := (s.at b).svc
  if off + 256 < v.pushLen then svcGo b (.push (off + 256)) s
  else if digestBytes (sha384 (pushImage s b)) != v.pushDigest then svcFail b 0x06 s
  else svcGo b (.ctrl .fwCheck) s

/-- FW_CRC (R342). -/
def fwCrcReply (b : BId) (d : List Byte) (s : State) : State :=
  if wordAt d 0 != crc32 ((pushImage s b).drop 64) then svcFail b 0x07 s else svcGo b (.ctrl .fwStart) s

/-- A core that exceeds HW_SVC_LIM is disabled at run time (R352). -/
def disableCheck (b : BId) (s : State) : State :=
  let v := (s.at b).svc
  let c := v.rstUnit
  let n := coreEvents s b c
  if v.rstLevel == 0 && n > fld v.lim 7 0 && !v.runtimeOff.getLsbD c then
    let s := s.updSvc b fun v => { v with runtimeOff := v.runtimeOff ||| (1#1024 <<< c) }
    let s := logRec b 0x4A (pack [(c, 0, 10), (4, 12, 4)]) (wordOf (min n 255)) 0 (deriveCores b s)
    notice b 0x0D c 0x23 (n - 1) s
  else s

/-- The unit's configuration is written and read back (R349). -/
def writeBack (b : BId) (s : State) : State := svcGo b .enableWrite (disableCheck b s)

/-- Read-backs agree: CORES_GO, or in a reset UNQUIESCE (R346, R349). -/
def verified (b : BId) (s : State) : State :=
  let v := (s.at b).svc
  if v.st == .resetting && v.chipStage == .off then svcGo b (.ctrl .unquiesce) s
  else if goMask (s.at b) b.val == 0 then svcFail b 0x0A s
  else svcGo b (.ctrl .coresGo) s

/-- A step of a CTRL function is DONE. -/
def fnDone (b : BId) (f : CtrlFn) (s : State) : State :=
  let v := (s.at b).svc
  match f with
  | .fwCheck => svcGo b .fwCrc s
  | .fwStart => endFirmware b s
  | .clocks => startMemory b (stageDone b 0 s)
  | .memRepair => svcGo b .repairRead s
  | .links => if stageOf v == .links then startCores b (stageDone b 0 s) else svcRest b s
  | .coresGo =>
    if stageOf v == .cores then endCores b s
    else resetEnd b (markReady b (goMask (s.at b) b.val) s)
  | .quiesce => svcGo b (.ctrl .resetAssert) s
  | .resetAssert => s.updSvc b fun v => { v with step := .holding }
  | .resetRelease => if v.rstLevel == 3 then startClocks b s else writeBack b s
  | .unquiesce =>
    if v.rstLevel == 2 && goMask (s.at b) b.val != 0 then svcGo b (.ctrl .coresGo) s else resetEnd b s

/-- A step of the engine cannot go on with a code: the stage or reset fails; a LINKS order outside them ends. -/
def svcStuck (b : BId) (code : Nat) (s : State) : State :=
  let v := (s.at b).svc
  if isStage v.st || v.st == .resetting then svcFail b code s else svcRest b s

/-- The status word is read (R339). A word of another function, or IDLE, is no end of the step. -/
def statusReply (b : BId) (f : CtrlFn) (d : List Byte) (s : State) : State :=
  let st := natAt d 1 1 % 4
  if natAt d 0 1 == fnCode f && st == 2 then fnDone b f s
  else if natAt d 0 1 == fnCode f && st == 3 then
    svcStuck b 0x04 (s.updSvc b fun v => { v with detail := natAt d 2 2 })
  else s.updSvc b fun v => { v with step := .poll f }

/-- A piece of the frequency table is read (R343). -/
def tableReply (b : BId) (off tries : Nat) (d : List Byte) (s : State) : State :=
  let t := (if off == 0 then [] else (s.at b).svc.tableBuf) ++ d
  let s := s.updSvc b fun v => { v with tableBuf := t }
  if off + 256 < 8224 then svcGo b (.tableRead (off + 256) tries) s
  else if tableOk t then svcGo b .enableWrite (takeTable b t s)
  else if tries < 3 then svcGo b (.tableRead 0 (tries + 1)) s
  else svcFail b 0x08 s

/-- A piece of the limits is written, or read back (R345). -/
def limitWritten (b : BId) (off : Nat) (s : State) : State :=
  if off + 256 < (limitRange (s.at b).svc).2 then svcGo b (.limitWrite (off + 256)) s else svcGo b .enableBack s

def limitReply (b : BId) (off : Nat) (d : List Byte) (s : State) : State :=
  let v := (s.at b).svc
  let hi := (limitRange v).2
  if d != (v.limits.drop off).take (pieceLen off hi) then svcFail b 0x09 s
  else if off + 256 < hi then svcGo b (.limitBack (off + 256)) s
  else verified b s

/-- Fills a READ's data up to the length asked for: bytes the reply leaves out are free values. -/
def padFree : Nat → List Byte → State → List Byte × State
  | 0, _, s => ([], s)
  | n + 1, [], s =>
    let (f, s) := s.draw
    let r := padFree n [] s
    (f.truncate 8 :: r.1, r.2)
  | n + 1, d :: ds, s =>
    let r := padFree n ds s
    (d :: r.1, r.2)

/-- An order of the engine completes OK. -/
def svcOk (b : BId) (d : List Byte) (s : State) : State :=
  match (s.at b).svc.step with
  | .ident => identReply b d s
  | .push off => pushReply b off s
  | .fwCrc => fwCrcReply b d s
  | .ctrl f => s.updSvc b fun v => { v with step := .poll f }
  | .status f => statusReply b f d s
  | .repairRead =>
    startLinks b (stageDone b 0 (s.updSvc b fun v => { v with repair := BitVec.ofNat 1024 (leNat d) }))
  | .fuseRead => svcGo b (.tableRead 0 1) (s.updSvc b fun v => { v with fuse := BitVec.ofNat 1024 (leNat d) })
  | .tableRead off tries => tableReply b off tries d s
  | .enableWrite => svcGo b (.limitWrite (limitRange (s.at b).svc).1) s
  | .limitWrite off => limitWritten b off s
  | .enableBack =>
    if d != (s.at b).svc.enMap then svcFail b 0x09 s
    else svcGo b (.limitBack (limitRange (s.at b).svc).1) s
  | .limitBack off => limitReply b off d s
  | _ => s

/-- An order of the engine's sequence completes (R339, R348): a reply to an order given up is ignored; BUSY waits for
its reissue; any other status fails the stage or reset. -/
def svcReply (b : BId) (o : Order) (num status : Nat) (d : List Byte) (s : State) : State :=
  if num != (s.at b).svc.num then s
  else if status == 0 then
    let r := if o.op == .read then padFree o.len d s else (d, s)
    svcOk b r.1 r.2
  else if status == 3 then s.updSvc b fun v => { v with busy := true }
  else svcStuck b 0x05 s

/-! ### Commands to the engine (R340) -/

/-- Records the order and its result. -/
def svcResult (b : BId) (cmd res : Nat) (req : ReqId) (s : State) : State :=
  s.updSvc b fun v => { v with lastCmd := cmd, cmdResult := res, cmdReq := req.val }

/-- Whether HW_SVC_CMD accepts a write of this requester now (R340): own pilot or 0xB, and not BUSY. -/
def svcOpen (s : State) (b : BId) (req : ReqId) : Bool :=
  (req.val == b.val || req == 11) && (s.at b).svc.st != .resetting

def svcAbort (b : BId) (req : ReqId) (s : State) : State :=
  let v := (s.at b).svc
  if !(req.val == b.val || req == 11) then s
  else if isStage v.st then svcResult b 3 0 req (svcFail b 0x0C s)
  else if v.st == .resetting then svcResult b 3 0 req (svcFail b 0x0C s)
  else svcResult b 3 1 req s

def bringUp (b : BId) (req : ReqId) (s : State) : State :=
  let x := s.at b
  if !svcOpen s b req then s
  else if (x.svc.st == .off || x.svc.st == .failed) && (x.rl.slot == .powering || x.rl.slot == .up)
      && bitAt x.hw.cfg 0 && x.hw.link == .off then
    let s := s.updSvc b fun v => { v with runs := sinc v.runs, fail := 0, step := .waitSlot }
    svcResult b 1 0 req (setSvc b .off s)
  else svcResult b 1 1 req s

/-- Number of units of a level (R338). -/
def unitCount : Nat → Nat
  | 0 => 1024 | 1 => 64 | 2 => 4 | _ => 1

/-- A CORE reset is an event of its core (R352). -/
def coreEvent (b : BId) (c : Nat) (s : State) : State :=
  let t := s.hTide b
  s.updSvc b fun v =>
    let h := match v.coreHist.find? fun x => x.1 == c with
      | some x => x.2
      | none => []
    { v with coreHist := (c, (t :: h).take 256) :: v.coreHist.filter fun x => x.1 != c }

/-- The reset sequence starts (R349). -/
def resetStart (b : BId) (level unit : Nat) (absorb : Bool) (s : State) : State :=
  let s := s.updSvc b fun v => { v with
    rst := vmod v.rst level sinc, rstLevel := level, rstUnit := unit, rstAbsorb := absorb, escalated := false
    since := s.now, detail := 0, chipStage := .off }
  let s := if level == 0 then coreEvent b unit s else s
  let s := setSvc b .resetting s
  let s := if level == 2 then withdrawReady b (2 ^ unit) s else if level == 3 then withdrawReady b 15 s else s
  svcGo b (.ctrl .quiesce) s

def serviceReset (b : BId) (req : ReqId) (level unit : Nat) (absorb : Bool) (s : State) : State :=
  if !svcOpen s b req then s
  else if (s.at b).svc.st != .service then svcResult b 2 1 req s
  else if unit ≥ unitCount level then svcResult b 2 3 req s
  else resetStart b level unit absorb (svcResult b 2 0 req s)

/-! ### Waits of the engine that end -/

def mgmtStart (b : BId) (s : State) : State :=
  if (s.at b).svc.step == .waitSlot && (s.at b).rl.slot == .up then startMgmt b s else s

/-- MGMT_START (R341): the slot is UP after BRING_UP. -/
def execMgmtStart (b : BId) (s : State) : Host.Outcome State Fault Refusal := ran s (mgmtStart b s.begin)

def statusPoll (b : BId) (s : State) : State :=
  match (s.at b).svc.step with
  | .poll f => svcGo b (.status f) s
  | _ => s

/-- STATUS_POLL (R339). -/
def execStatusPoll (b : BId) (s : State) : Host.Outcome State Fault Refusal := ran s (statusPoll b s.begin)

def busyReissue (b : BId) (s : State) : State := if (s.at b).svc.busy then svcSend b s else s

/-- BUSY_REISSUE (R339). -/
def execBusyReissue (b : BId) (s : State) : Host.Outcome State Fault Refusal := ran s (busyReissue b s.begin)

/-- A stage passes its bound (R348): LINK where the hawser is not UP, else TIMEOUT. -/
def stageTimeout (b : BId) (s : State) : State :=
  if isStage (stageOf (s.at b).svc) then svcFail b (if (s.at b).hw.link == .up then 0x03 else 0x01) s else s

/-- STAGE_TIMEOUT (R348). -/
def execStageTimeout (b : BId) (s : State) : Host.Outcome State Fault Refusal := ran s (stageTimeout b s.begin)

/-- Whether the engine is within QUIESCE. -/
def inQuiesce : SvcStep → Bool
  | .ctrl .quiesce | .poll .quiesce | .status .quiesce => true
  | _ => false

def drainEscalate (b : BId) (s : State) : State :=
  let v := (s.at b).svc
  if v.st == .resetting && inQuiesce v.step && !v.rstAbsorb && !v.escalated then
    svcGo b (.ctrl .quiesce) (s.updSvc b fun v => { v with escalated := true, drainEsc := sinc v.drainEsc })
  else s

/-- DRAIN_ESCALATE (R349). -/
def execDrainEscalate (b : BId) (s : State) : Host.Outcome State Fault Refusal := ran s (drainEscalate b s.begin)

def resetHoldEnd (b : BId) (s : State) : State :=
  if (s.at b).svc.step == .holding then svcGo b (.ctrl .resetRelease) s else s

/-- RESET_HOLD_END (R351). -/
def execResetHoldEnd (b : BId) (s : State) : Host.Outcome State Fault Refusal := ran s (resetHoldEnd b s.begin)

def resetTimeout (b : BId) (s : State) : State := if (s.at b).svc.st == .resetting then svcFail b 0x03 s else s

/-- RESET_TIMEOUT (R351). -/
def execResetTimeout (b : BId) (s : State) : Host.Outcome State Fault Refusal := ran s (resetTimeout b s.begin)

/-! ### Reports and disputes (R353 to R355) -/

def reportPoll (b : BId) (s : State) : State :=
  let v := (s.at b).svc
  if v.reporting && v.pollMarks ≥ fld v.dispCfg 7 0 then
    svcIssue b { op := .read, owner := .report, addr := 0x1000, len := 64 } (s.updSvc b fun v => { v with pollMarks := 0 })
  else s

/-- REPORT_POLL (R354). -/
def execReportPoll (b : BId) (s : State) : Host.Outcome State Fault Refusal := ran s (reportPoll b s.begin)

/-- Mask of the disputed units. -/
def dispUnits (v : Svc) : Nat := maskOf 5 fun u => (vget v.disp u).disputed

/-- A condition of R150 on the partition's inputs is confirmed. -/
def partCond (x : Berth) (k : Nat) : Bool :=
  (upto 24).any fun i =>
    let a := vget x.rl.ins i
    (i == k || inAssoc x i == k) && (a.softLowDone || a.softHighDone || a.hardLowDone || a.hardHighDone)

/-- The ground on which partition k's report disagrees, lowest code first (R354); 0 where it agrees. -/
def partGround (s : State) (b : BId) (k : Nat) (w : Word) : Nat :=
  let x := s.at b
  let up := (vget x.rl.rails k).st == .up
  let rep := fld w 15 0
  let mv := partMv s b k
  let tol := fld x.svc.dispCfg 15 8
  if up && monitored x k && (rep > mv + tol || mv > rep + tol) then 1
  else if bitAt w 24 != up then 2
  else if bitAt w 25 && !partCond x k then 3
  else 0

/-- PEER bits in disagreement (R354): the slot's latest flit shows a service state before LINKS, or FAILED or OFF. -/
def peerBad (v : Svc) (bits : Nat) : Nat :=
  maskOf 8 fun m => nbit bits m && match vget v.peer m with
    | some st => svcCode st < 5 || svcCode st == 9
    | none => false

/-- A change of dispute of a unit: its record, the counter on entry, and the caps of the partitions (R355). -/
def dispChange (b : BId) (entry : Bool) (cause rep mv peers : Nat) (s : State) : State :=
  let s := s.updSvc b fun v =>
    if entry then { v with disputes := sinc v.disputes, dispLast := cause } else v
  let s := logRec b 0x4B (pack [(dispUnits (s.at b).svc, 0, 5), (cause, 8, 4), (b2n entry, 12, 1)])
    (pack [(rep, 0, 16), (mv, 16, 16)]) (wordOf peers) s
  iter (upto 4) (capsChanged b) s

/-- One comparison of a unit (R354): `cause` is its ground, 0 for agreement. -/
def compareUnit (b : BId) (u cause rep mv peers : Nat) (s : State) : State :=
  let v := (s.at b).svc
  let d := vget v.disp u
  let n : Disp := if cause != 0 then { d with bad := d.bad + 1, good := 0 } else { d with bad := 0, good := d.good + 1 }
  let enter := !d.disputed && n.bad ≥ fld v.dispCfg 19 16
  let leave := d.disputed && n.good ≥ fld v.dispCfg 27 20
  let n := { n with disputed := (d.disputed || enter) && !leave }
  let s := s.updSvc b fun v => { v with disp := vset v.disp u n }
  if enter then
    let s := dispChange b true cause rep mv peers s
    if peers != 0 then
      let s := s.updSvc b fun v => { v with fenced := v.fenced ||| peers, linksPend := true }
      if (s.at b).svc.step == .idle then svcRest b s else s
    else s
  else if leave then dispChange b false v.dispLast rep mv peers s
  else s

/-- A report READ completes (R354). -/
def reportReply (b : BId) (o : Order) (status : Nat) (d : List Byte) (s : State) : State :=
  if !(s.at b).svc.reporting then s
  else if status != 0 then compareUnit b 4 4 0 0 0 s
  else
    let (d, s) := padFree o.len d s
    let s := iter (upto 4) (fun k t =>
      compareUnit b k (partGround t b k (wordAt d (4 * (k + 1)))) (natAt d (4 * (k + 1)) 2) (partMv t b k) 0 t) s
    let v := (s.at b).svc
    let peers := peerBad v (natAt d 20 1)
    let stale := v.lastSeq == some (wordAt d 0)
    let s := s.updSvc b fun v => { v with lastSeq := some (wordAt d 0) }
    compareUnit b 4 (if stale then 4 else if peers != 0 then 5 else 0) 0 0 peers s

/-! ### Slot flits (R356 to R358) -/

/-- The slot flit of berth b (R357). -/
def slotFlit (x : Berth) : SlotFlit :=
  { slot := x.rl.slot, svc := x.svc.st, ready := maskOf 4 fun k => (vget x.pw.parts k).ready
    units := dispUnits x.svc, hwRetired := x.hw.link == .retired }

def slotStCode : SlotState → Nat
  | .down => 0 | .powering => 1 | .up => 2 | .shutting => 3 | .faultHold => 4 | .retired => 5

def admitCode : Admit → Nat
  | .none => 0 | .waiting => 1 | .admitted => 2 | .unadmitted => 3

/-- A correction of the harbour's state (R358). -/
def stateFix (h n : BId) (f : SlotFlit) (held : Admit) (action : Nat) (s : State) : State :=
  logRec h 0x4C (pack [(n.val, 0, 3), (slotStCode f.slot, 4, 4), (admitCode held, 8, 4), (action, 12, 4)]) 0 0
    (s.updSvc h fun v => { v with stateFix := sinc v.stateFix })

/-- The harbour compares a slot flit with the state it holds (R358). -/
def flitCompare (h n : BId) (f : SlotFlit) (s : State) : State :=
  let a := vget (s.at h).tray.pw.admis n.val
  let c := vget (s.at h).tray.slots n.val
  let powered := f.slot == .powering || f.slot == .up || f.slot == .shutting
  let s := if powered && (a == .none || a == .waiting) then
      stateFix h n f a 1 (setGrant n (grantMin (s.at h) n.val) (setAdmit n .unadmitted s))
    else if !powered && (a == .admitted || a == .unadmitted) then stateFix h n f a 2 (withdraw n false s)
    else s
  let differs := c.units != f.units || c.svc != f.svc || c.ready != f.ready || c.hwRetired != f.hwRetired
  let s := if differs then stateFix h n f a 3 s else s
  s.updTray h fun t => { t with slots := vset t.slots n.val f }

def slotFlitReceive (n : BId) (f : SlotFlit) (s : State) : State :=
  let s := s.updAll fun _ x => { x with svc := { x.svc with peer := vset x.svc.peer n.val (some f.svc) } }
  match s.harbour with
  | some h => if (s.at n).sy.st == .active then flitCompare h n f s else s
  | none => s

/-- SLOT_FLIT_RECEIVE (R358): the flit of berth n arrives at every berth. -/
def execSlotFlitReceive (n : BId) (f : SlotFlit) (s : State) : Host.Outcome State Fault Refusal :=
  ran s (slotFlitReceive n f s.begin)

end Sys2Proof.Machine
end

