-- ==== Sys2Proof/Machine/Hawser.lean ====
section
/-! DEFINITION. The hawser link (chapter 10): lock, training, frames, retry, messages, orders and the mailbox. -/
namespace Sys2Proof.Machine

/-! ### Frames (R303 to R306) -/

/-- The marker of a frame (R303). -/
abbrev marker : Word := 0x6B27D1E4

/-- One word through the scrambler (`tx`) or the descrambler (R305): history bit k − 1 is the scrambled payload bit
of k bits before. -/
def scramble (tx : Bool) (w : Word) (h : BitVec 58) : Word × BitVec 58 :=
  (upto 32).foldl (fun acc j =>
    let i := w.getLsbD j
    let o := i ^^ acc.2.getLsbD 38 ^^ acc.2.getLsbD 57
    let s := if tx then o else i
    (if o then acc.1 ||| (1#32 <<< j) else acc.1, (acc.2 <<< 1) ||| (if s then 1#58 else 0#58))) (0#32, h)

/-- Payload words through the scrambler or descrambler, in order. -/
def scrambleAll (tx : Bool) : List Word → BitVec 58 → List Word × BitVec 58
  | [], h => ([], h)
  | w :: ws, h =>
    let a := scramble tx w h
    let r := scrambleAll tx ws a.2
    (a.1 :: r.1, r.2)

/-- Polarity of a pair, applied to every bit (R301). -/
def invert (inv : Bool) (ws : List Word) : List Word := if inv then ws.map fun w => ~~~ w else ws

/-- Frames waiting in the receive queue (R318): those of complete messages and of the one under assembly. -/
def rxFrames (r : HwRx) : Nat :=
  r.queue.foldl (fun a m => a + m.frames) 0 + (match r.asm with
    | some m => m.frames
    | none => 0)

/-- The WINDOW this end advertises (R318). -/
def window (r : HwRx) : Nat := 64 - rxFrames r

/-! ### Retry (R316, R317) and failed trainings (R313) -/

def hwOf (s : State) (b : BId) : Hw := (s.at b).hw

def cntHw (b : BId) (f : HwCnt → HwCnt) (s : State) : State := s.updHw b fun h => { h with cnt := f h.cnt }
def updRx (b : BId) (f : HwRx → HwRx) (s : State) : State := s.updHw b fun h => { h with rx := f h.rx }
def updTx (b : BId) (f : HwTx → HwTx) (s : State) : State := s.updHw b fun h => { h with tx := f h.tx }

/-- The link is retired (R328): it stops, the slot shuts down and retires, admission is withdrawn. -/
def hwRetire (b : BId) (events : Nat) (s : State) : State :=
  let s := linkStop b .retired s
  withdraw b true (retireSlot b 0x13 4 events s)

/-- A training fails (R313): an event of the link unless a holdover excuses it (R333); the link retires, or a new
training starts at once with cause FAILED, or with the retry cause that ended it. -/
def trainFailed (b : BId) (cause : Nat) (s : State) : State :=
  let s := cntHw b (fun c => { c with trainFail := sinc c.trainFail }) s
  let grace := (hwOf s b).grace
  let ev := classEvent s b 4 (hwOf s b).hist
  let s := if grace then s else s.updHw b fun h => { h with hist := ev.2.1 }
  let old := (hwOf s b).link
  let retire := ev.1 && !grace
  let s := logLink b old (if retire then .retired else .retrain) cause true s
  if retire then hwRetire b ev.2.2 s
  else
    let s := if old == .retrain then s else irq b 14 (s.updHw b fun h => { h with link := .retrain })
    startTraining b (s.updHw b fun h =>
      { h with lastCause := cause, cnt := { h.cnt with retrains := sinc h.cnt.retrains } })

/-- A replay starts (R316): from the oldest unacknowledged frame, counted against it; past CRC_RETRY the link
retrains, and where that frame had already caused a training, the training failed (R313). -/
def replayStart (b : BId) (s : State) : State :=
  let h := hwOf s b
  match h.tx.replayBuf with
  | [] => s
  | f :: _ =>
    if h.tx.resends + 1 > fld h.cfg 17 16 then
      if h.tx.blame == some f.fseq then trainFailed b 2 s
      else hwRetrain b 2 (updTx b (fun t => { t with blame := some f.fseq }) s)
    else updTx b (fun t => { t with resends := t.resends + 1, replayPos := some 0 }) s

/-- The far end's ACKSEQ is taken (R314): acknowledged frames leave the replay buffer. -/
def ackTo (b : BId) (ack : Nat) (s : State) : State :=
  updTx b (fun t =>
    let keep := t.replayBuf.filter fun f => (ack + 256 - f.fseq) % 256 ≥ 128
    let gone := t.replayBuf.length - keep.length
    let blamed := match t.blame with
      | some q => keep.any fun f => f.fseq == q
      | none => false
    { t with acked := ack, replayBuf := keep
             resends := if gone > 0 then 0 else t.resends
             blame := if blamed then t.blame else none
             replayPos := match t.replayPos with
               | some i => if i - gone < keep.length then some (i - gone) else none
               | none => none }) s

/-- The header fields of a CRC-valid frame (R314, R316). -/
def takeHeader (b : BId) (p0 : Word) (s : State) : State :=
  let ack := fld p0 23 16
  let nak := bitAt p0 4
  let s := ackTo b ack (updTx b (fun t => { t with remoteWin := fld p0 30 24 }) s)
  let h := hwOf s b
  let go := nak && !h.tx.replayBuf.isEmpty && h.link == .up && h.tx.trailing == 0
    && (!h.tx.nakSeen || h.tx.nakAck != ack)
  let s := updTx b (fun t =>
    { t with nakSeen := nak, nakAck := if go || !nak || !t.nakSeen then ack else t.nakAck }) s
  if go then replayStart b s else s

/-! ### UP (R311, R312) -/

/-- Both engines issue what the tags now allow, and waiting hardware orders are issued (R323). -/
def tagsMoved (b : BId) (s : State) : State :=
  dmaPump b 1 8 (dmaPump b 0 8 (issueWaiting b s))

/-- The link enters UP (R311, R312): quarantines end, the effective limit is set, 16 trailing frames follow and then
every unacknowledged frame is resent. -/
def enterUp (b : BId) (s : State) : State :=
  let s := setLink b .up 0 s
  let s := s.updHw b fun h => { h with
    limit := effLimit h
    tags := h.tags.map fun t => match t with
      | .quarantined none => .free
      | .quarantined (some r) => .done r
      | t => t
    tx := { h.tx with trailing := 16, resends := 0, nakSeen := false
                      replayPos := if h.tx.replayBuf.isEmpty then none else some 0 } }
  svcLinkUp b (tagsMoved b s)

/-- A valid TRAIN frame outside UP (R311): counts towards local readiness and UP. -/
def trainCount (b : BId) (p0 p1 : Word) (s : State) : State :=
  let ready := bitAt p0 5
  let s := s.updHw b fun h => { h with
    remoteVer := fld p1 7 0, remoteCap := fld p1 22 16
    rx := { h.rx with remoteReady := ready, validTrain := h.rx.validTrain + 1
                      readyTrain := if ready then h.rx.readyTrain + 1 else 0
                      localReady := h.rx.localReady || h.rx.validTrain + 1 ≥ 4 } }
  let r := (hwOf s b).rx
  if r.localReady && r.readyTrain ≥ 4 then enterUp b s else s

/-- The counts of consecutive TRAIN frames restart. -/
def trainBreak (b : BId) (s : State) : State := updRx b (fun r => { r with validTrain := 0, readyTrain := 0 }) s

/-- A CRC-valid TRAIN frame (R310, R311). -/
def trainFrame (b : BId) (p0 p1 : Word) (s : State) : State :=
  let valid := fld p1 7 0 == 1 && bitAt p1 8
  let s := if valid then s else cntHw b (fun c => { c with proto := sinc c.proto }) s
  if (hwOf s b).link == .up then
    if valid && !bitAt p0 5 then hwRetrain b 3 s
    else if valid then s.updHw b fun h =>
      { h with remoteVer := fld p1 7 0, remoteCap := fld p1 22 16, rx := { h.rx with remoteReady := true } }
    else s
  else if valid then trainCount b p0 p1 s
  else trainBreak b s

/-! ### Received messages (R320, R321) -/

def protoErr (b : BId) (s : State) : State := cntHw b (fun c => { c with proto := sinc c.proto }) s

/-- Data bytes that a header frame of a kind carries: REPLY 16, EVENT 20 (R321). -/
def headBytes (kind : Nat) : Nat := if kind == 3 then 16 else 20

/-- A complete message joins the receive queue. -/
def rxComplete (m : RxMsg) (r : HwRx) : HwRx :=
  if m.data.length ≥ m.len then { r with asm := none, queue := r.queue ++ [{ m with data := m.data.take m.len }] }
  else { r with asm := some m }

/-- A header frame starts a message; a malformed one is discarded (R320, R321). -/
def rxHeader (b : BId) (kind : Nat) (ps : List Word) (s : State) : State :=
  let p (i : Nat) : Word := (ps[i]?).getD 0
  let s := if (hwOf s b).rx.asm.isSome then protoErr b (updRx b (fun r => { r with asm := none }) s) else s
  let m : RxMsg :=
    { kind := kind, tag := fld (p 1) 5 0, op := fld (p 1) 15 8, len := fld (p 1) 24 16
      status := if kind == 3 then fld (p 2) 7 0 else 0
      data := wordsBytes (ps.drop (if kind == 3 then 3 else 2)), frames := 1 }
  if m.len > 256 then protoErr b s
  else updRx b (rxComplete m) s

/-- A DATA frame continues the message under assembly (R320). -/
def rxData (b : BId) (ps : List Word) (s : State) : State :=
  match (hwOf s b).rx.asm with
  | none => protoErr b s
  | some m => updRx b (rxComplete { m with data := m.data ++ wordsBytes (ps.drop 1), frames := m.frames + 1 }) s

/-- NAK is set unless it already is (R315). -/
def setNak (b : BId) (s : State) : State :=
  if (hwOf s b).rx.nakOut then s
  else cntHw b (fun c => { c with nakSent := sinc c.nakSent }) (updRx b (fun r => { r with nakOut := true }) s)

/-- A CRC-valid sequenced frame (R315). An ORDER frame never reaches this end: its message is discarded. -/
def seqFrame (b : BId) (ps : List Word) (s : State) : State :=
  let p0 := (ps[0]?).getD 0
  let fseq := fld p0 15 8
  let r := (hwOf s b).rx
  let d := (fseq + 511 - r.last) % 256
  if d == 0 && window r > 0 then
    let s := updRx b (fun r => { r with last := fseq, nakOut := false }) s
    match fld p0 3 0 with
    | 5 => rxData b ps s
    | 2 => protoErr b (updRx b (fun r => { r with asm := none }) s)
    | k => rxHeader b k ps s
  else if d ≥ 128 then s
  else if d ≥ window r then setNak b (protoErr b s)
  else setNak b s

/-- A CRC-valid frame with a known FTYPE (R311, R314, R315). -/
def goodFrame (b : BId) (ps : List Word) (s : State) : State :=
  let p0 := (ps[0]?).getD 0
  let s := takeHeader b p0 s
  if fld p0 3 0 == 1 then trainFrame b p0 ((ps[1]?).getD 0) s
  else
    let h := hwOf s b
    let s := if h.link != .up && h.link != .off && h.link != .retired then
        (if h.rx.localReady then enterUp b s else trainBreak b s) else s
    if fld p0 3 0 == 0 then s else seqFrame b ps s

/-- A frame that is discarded unexamined or fails its CRC (R308, R309, R315). -/
def badFrame (b : BId) (s : State) : State :=
  setNak b (trainBreak b s)

/-- HW_ELASTIC (R319): an IDLE deleted at 3 frames, an IDLE inserted at a read with 1. -/
def elastic (b : BId) (idle : Bool) (fill : Nat) (s : State) : State :=
  if (idle && fill == 3) || fill == 1 then cntHw b (fun c => { c with elastic := sinc c.elastic }) s else s

/-- A reserved FTYPE, or a reserved bit set in P0, or in P1 of a TRAIN frame or of a message header (R306, R310, R321). -/
def frameReserved (p0 p1 : Word) : Bool :=
  let ty := fld p0 3 0
  ty > 5 || fld p0 7 6 != 0 || bitAt p0 31
    || (ty == 1 && (fld p1 15 9 != 0 || fld p1 31 23 != 0))
    || ((ty == 2 || ty == 3 || ty == 4) && (fld p1 7 6 != 0 || fld p1 31 25 != 0))

/-- A frame at the locked offset (R304, R305, R309, R315): nine words as the lane carries them, and the fill of the
elastic buffer. -/
def frameReceive (b : BId) (raw : List Word) (fill : Nat) (s : State) : State :=
  let h := hwOf s b
  if !h.rx.lock || h.link == .off || h.link == .retired || s.dev.sleep then s
  else
    let ws := invert (bitAt h.cfg 2) raw
    let dp := scrambleAll false ((ws.drop 1).take 7) h.rx.hist
    let ps := dp.1
    let p0 := (ps[0]?).getD 0
    let s := updRx b (fun r => { r with hist := dp.2, sinceLock := if r.proven then r.sinceLock else r.sinceLock + 1 }) s
    if (ws[0]?).getD 0 != marker then
      badFrame b (updRx b (fun r => { r with badMarkers := r.badMarkers + 1 }) s)
    else
      let s := updRx b (fun r => { r with badMarkers := 0 }) s
      if (ws[8]?).getD 0 != crc32 (wordsBytes ps) then
        badFrame b (cntHw b (fun c => { c with crcErr := sinc c.crcErr }) s)
      else
        let s := cntHw b (fun c => { c with rxf := (c.rxf + 1) % 2 ^ 64 }) (updRx b (fun r => { r with proven := true }) s)
        let s := elastic b (fld p0 3 0 == 0) fill s
        if frameReserved p0 ((ps[1]?).getD 0) then badFrame b (protoErr b s)
        else goodFrame b ps s

/-- FRAME_RECEIVE (R315). -/
def execFrameReceive (b : BId) (raw : Vector Word 9) (fill : Fin 5) (s : State) : Host.Outcome State Fault Refusal :=
  ran s (frameReceive b raw.toList fill.val s.begin)

/-! ### Lock (R307 to R309) -/

/-- The receiver's lane is in use. -/
def lane (h : Hw) : Bool := h.link == .train || h.link == .up || h.link == .retrain

/-- The hit count of an offset. -/
def hitsOf (r : HwRx) (off : Nat) : Nat := ((r.hits.find? fun h => h.1 == off).map (·.2)).getD 0

/-- One bit of the search (R307): the marker in the 32 most recent bits adds a hit to the bit's offset, anything else clears its count;
an excluded offset counts nothing (R308). -/
def searchBit (r : HwRx) (d : Bool) : HwRx :=
  let w := (r.recent >>> 1) ||| (if d then 0x80000000#32 else 0)
  let n := min (r.seen + 1) 32
  let rest := r.hits.filter fun h => h.1 != r.pos
  let hit := w == marker && n == 32 && r.excluded != some r.pos
  { r with recent := w, seen := n, pos := (r.pos + 1) % 288, hits := if hit then (r.pos, hitsOf r r.pos + 1) :: rest else rest }

/-- Lock at an offset (R307, R308): the rest of the frame is discarded, and its payload fills the descrambler's history. -/
def lockAt (off : Nat) (rest : List Bool) (r : HwRx) : HwRx :=
  { r with lock := true, offset := off, proven := false, sinceLock := 0, badMarkers := 0, hits := [], seen := 0
           pos := (off + 257) % 288
           hist := (rest.take 224).foldl (fun h d => (h <<< 1) ||| (if d then 1#58 else 0#58)) r.hist }

/-- The search over received bits: lock at the first offset whose count reaches 4. A bit belongs to one offset, so no two offsets reach
4 at the same bit. -/
def rxSearch : List Bool → HwRx → HwRx
  | [], r => r
  | d :: ds, r =>
    let r' := searchBit r d
    if hitsOf r' r.pos ≥ 4 then lockAt r.pos ds r' else rxSearch ds r'

/-- The receiver searches bits of the lane, after RX_INV (R307). -/
def rxLock (b : BId) (bits : List Bool) (s : State) : State :=
  let h := hwOf s b
  if lane h && !h.rx.lock && !s.dev.sleep then updRx b (rxSearch (bits.map fun d => d != bitAt h.cfg 2)) s else s

/-- RX_LOCK (R307). -/
def execRxLock (b : BId) (d : Bool) (ds : List Bool) (s : State) : Host.Outcome State Fault Refusal := ran s (rxLock b (d :: ds) s.begin)

def falseLock (b : BId) (s : State) : State :=
  let r := (hwOf s b).rx
  if r.lock && !r.proven && r.sinceLock ≥ 8 then
    cntHw b (fun c => { c with falseLock := sinc c.falseLock })
      (updRx b (fun r => { r with lock := false, excluded := some r.offset, sinceLock := 0, badMarkers := 0, hits := [] }) s)
  else s

/-- FALSE_LOCK (R308). -/
def execFalseLock (b : BId) (s : State) : Host.Outcome State Fault Refusal := ran s (falseLock b s.begin)

/-- FALSE_LOCK_EXCLUSION_END (R308). -/
def execFalseLockExclusionEnd (b : BId) (s : State) : Host.Outcome State Fault Refusal :=
  ran s (updRx b (fun r => { r with excluded := none }) s.begin)

def lockLost (b : BId) (s : State) : State :=
  let h := hwOf s b
  if h.rx.lock && h.rx.badMarkers ≥ 8 then
    let s := trainBreak b (updRx b (fun r => { r with lock := false, badMarkers := 0, proven := false }) s)
    if h.link == .up then hwRetrain b 1 s else s
  else s

/-- LOCK_LOST (R309). -/
def execLockLost (b : BId) (s : State) : Host.Outcome State Fault Refusal := ran s (lockLost b s.begin)

/-! ### The transmitter (R314, R316, R319, R326) -/

/-- P0 of a frame this end sends (R306). -/
def txP0 (h : Hw) (ftype fseq : Nat) (ready : Bool) : Word :=
  pack [(ftype, 0, 4), (b2n h.rx.nakOut, 4, 1), (b2n ready, 5, 1), (fseq, 8, 8), (h.rx.last, 16, 8), (window h.rx, 24, 7)]

/-- Sends one frame: marker, scrambled payload, CRC, polarity (R303 to R305). -/
def sendFrame (b : BId) (ftype fseq : Nat) (ready : Bool) (body : List Word) (s : State) : State :=
  let h := hwOf s b
  let ps := txP0 h ftype fseq ready :: body
  let sc := scrambleAll true ps h.tx.hist
  let s := updTx b (fun t => { t with hist := sc.2, nonIdle := if ftype == 0 then 0 else min (t.nonIdle + 1) 1024 }) s
  let s := cntHw b (fun c => { c with txf := (c.txf + 1) % 2 ^ 64 }) s
  s.emit (.frame b (invert (bitAt h.cfg 1) (marker :: sc.1 ++ [crc32 (wordsBytes ps)])))

/-- A TRAIN frame (R310). -/
def sendTrain (b : BId) (s : State) : State :=
  let h := hwOf s b
  sendFrame b 1 h.tx.next h.rx.localReady [pack [(1, 0, 8), (fld h.cfg 14 8, 16, 7)], wordOf h.tx.trainId, 0, 0, 0, 0] s

def sendIdle (b : BId) (s : State) : State := sendFrame b 0 (hwOf s b).tx.next false [0, 0, 0, 0, 0, 0] s

/-- Whether FSEQ f lies within the far end's ACKSEQ + WINDOW (R314). -/
def inWin (t : HwTx) (f : Nat) : Bool := (f + 511 - t.acked) % 256 < t.remoteWin

/-- The next queued message goes on the lane, by precedence (R326). -/
def pickMsg (t : HwTx) : HwTx :=
  if !t.cur.isEmpty then t
  else match t.freqQ, t.ctrlQ, t.rwQ with
    | m :: ms, _, _ => { t with cur := m.frames, freqQ := ms }
    | [], m :: ms, _ => { t with cur := m.frames, ctrlQ := ms }
    | [], [], m :: ms => { t with cur := m.frames, rwQ := ms }
    | [], [], [] => t

/-- A new sequenced frame, where one waits and R314 allows it; else IDLE. -/
def sendNew (b : BId) (s : State) : State :=
  let t0 := (hwOf s b).tx
  if t0.replayBuf.length ≥ 64 || !inWin t0 t0.next then sendIdle b s
  else
    let t := pickMsg t0
    match t.cur with
    | [] => sendIdle b s
    | (ft, body) :: rest =>
      let s := updTx b (fun _ => { t with cur := rest, next := (t.next + 1) % 256
                                          replayBuf := t.replayBuf ++ [⟨ft, t.next, body⟩] }) s
      sendFrame b ft t.next false body s

/-- The frame at the replay position (R316), or a new one where the replay has ended. -/
def sendReplay (b : BId) (i : Nat) (s : State) : State :=
  let t := (hwOf s b).tx
  match t.replayBuf[i]? with
  | none => sendNew b (updTx b (fun t => { t with replayPos := none }) s)
  | some f =>
    if !inWin t f.fseq then sendIdle b s
    else
      let s := updTx b (fun t => { t with replayPos := if i + 1 < t.replayBuf.length then some (i + 1) else none }) s
      sendFrame b f.ftype f.fseq false f.words (cntHw b (fun c => { c with resent := sinc c.resent }) s)

/-- One frame boundary of the transmitter (R310, R311, R316, R319). -/
def txBoundary (b : BId) (s : State) : State :=
  let h := hwOf s b
  if !h.tx.on || s.dev.sleep then s
  else if h.link != .up then sendTrain b s
  else if h.tx.trailing > 0 then sendTrain b (updTx b (fun t => { t with trailing := t.trailing - 1 }) s)
  else if h.tx.nonIdle ≥ 1023 then sendIdle b s
  else match h.tx.replayPos with
    | some i => sendReplay b i s
    | none => sendNew b s

/-- TX_FRAME_BOUNDARY (R319). -/
def execTxFrameBoundary (b : BId) (s : State) : Host.Outcome State Fault Refusal := ran s (txBoundary b s.begin)

def ackTimeout (b : BId) (s : State) : State := if (hwOf s b).link == .up then replayStart b s else s

/-- ACK_TIMEOUT (R317). -/
def execAckTimeout (b : BId) (s : State) : Host.Outcome State Fault Refusal := ran s (ackTimeout b s.begin)

def trainTimeout (b : BId) (s : State) : State :=
  let l := (hwOf s b).link
  if l == .train || l == .retrain then trainFailed b 6 s else s

/-- TRAIN_TIMEOUT (R313). -/
def execTrainTimeout (b : BId) (s : State) : Host.Outcome State Fault Refusal := ran s (trainTimeout b s.begin)

/-! ### Orders to the link (R329, R330) -/

def hwResult (b : BId) (cmd res : Nat) (req : ReqId) (s : State) : State :=
  s.updHw b fun h => { h with lastCmd := cmd, cmdResult := res, cmdReq := req.val }

/-- Whether HW_CMD takes a write of this requester (R330). -/
def ownOrEngine (b : BId) (req : ReqId) : Bool := req.val == b.val || req == 11

def hwStart (b : BId) (req : ReqId) (s : State) : State :=
  if ownOrEngine b req then hwResult b 1 (startResult s b) req (linkStart b s) else s

def hwStop (b : BId) (req : ReqId) (s : State) : State :=
  if !ownOrEngine b req then s
  else if lane (hwOf s b) then
    let s := linkStop b .off s
    let v := (s.at b).svc
    let s := if isStage v.st || v.st == .resetting then svcFailed b 0x01 s else s
    hwResult b 2 0 req s
  else hwResult b 2 1 req s

def hwRetrainCmd (b : BId) (req : ReqId) (s : State) : State :=
  if !ownOrEngine b req then s
  else if (hwOf s b).link == .up then hwResult b 3 0 req (hwRetrain b 5 s)
  else hwResult b 3 1 req s

/-! ### Completions (R323, R325, R326, R331) -/

/-- Whether an order is a FREQ order of partition k. -/
def freqOf (k : Nat) (o : Order) : Bool := match o.owner with
  | .freq j _ => j == k
  | _ => false

/-- Whether a FREQ order of partition k is outstanding or waits for a tag. -/
def freqLater (h : Hw) (k : Nat) : Bool :=
  h.waiting.any (freqOf k) || h.tags.toList.any fun t => match t with
    | .used o => freqOf k o
    | _ => false

/-- A FREQ order completes (R190, R326): any status but OK sends it again, unless a later order supersedes it. -/
def freqDone (b : BId) (k st status : Nat) (s : State) : State :=
  if status == 0 then freqAcked b k st s
  else
    let s := cntHw b (fun c => { c with freqFail := sinc c.freqFail }) s
    if freqLater (hwOf s b) k then s
    else s.updHw b fun h => { h with freqRetry := h.freqRetry.filter (fun x => x.1 != k) ++ [(k, st)] }

/-- Sets the tag of an order that completes: a mailbox order keeps it until its entry is read; after a timeout the
tag is quarantined (R323, R325). -/
def endTag (b : BId) (tag : Nat) (o : Order) (timeout : Bool) (s : State) : State :=
  let st := match o.owner, timeout with
    | .mailbox r, false => TagSt.done r
    | .mailbox r, true => .quarantined (some r)
    | _, true => .quarantined none
    | _, false => .free
  s.updHw b fun h => { h with tags := vset h.tags tag st }

/-- An order completes with a status and reply data, by its owner; `timeout` where no REPLY came. -/
def complete (b : BId) (tag : Nat) (o : Order) (timeout : Bool) (status : Nat) (d : List Byte) (s : State) : State :=
  let s := freeSvcBuf o (endTag b tag o timeout s)
  match o.owner with
  | .mailbox r =>
    let s := if status == 0 && o.op == .read then bufWrite (512 * b.val + o.buf) d s else s
    pushCpl b ⟨tag, status, if status == 0 then d.length else 0, r⟩ s
  | .dma e => dmaOrderDone b e.val tag status d s
  | .freq k st => freqDone b k st status s
  | .service n => svcReply b o n status d s
  | .report => reportReply b o status d s
  | .discarded => s

/-- Whether a REPLY's OP, LEN and STATUS fit the order (R321, R322). -/
def replyFits (o : Order) (m : RxMsg) : Bool :=
  m.op == opCode o.op && (m.len == 0 || (m.status == 0 && match o.op with
    | .read => m.len == o.len
    | .ctrl => m.len ≤ 16
    | _ => false))

/-- A REPLY is matched to its tag (R323, R325). -/
def replyTo (b : BId) (m : RxMsg) (s : State) : State :=
  match vget (hwOf s b).tags m.tag with
  | .used o => if replyFits o m then tagsMoved b (complete b m.tag o false m.status m.data s) else protoErr b s
  | .quarantined u =>
    let st := match u with
      | some r => TagSt.done r
      | none => .free
    tagsMoved b (cntHw b (fun c => { c with late := sinc c.late }) (s.updHw b fun h => { h with tags := vset h.tags m.tag st }))
  | _ => protoErr b s

/-- The message at the front of the receive queue, where it is of a kind. -/
def rxFront (h : Hw) (kind : Nat) : Option RxMsg :=
  match h.rx.queue with
  | m :: _ => if m.kind == kind then some m else none
  | [] => none

def rxPop (b : BId) (s : State) : State := updRx b (fun r => { r with queue := r.queue.drop 1 }) s

def replyReceive (b : BId) (s : State) : State :=
  match rxFront (hwOf s b) 3 with
  | some m => replyTo b m (rxPop b s)
  | none => s

/-- REPLY_RECEIVE (R323): the REPLY at the front of the receive queue completes its order. -/
def execReplyReceive (b : BId) (s : State) : Host.Outcome State Fault Refusal := ran s (replyReceive b s.begin)

/-- An EVENT drains into a buffer of the hawser hand (R318, R332); it waits while HW_EVQ is full or no buffer is free. -/
def eventReceive (b : BId) (s : State) : State :=
  match rxFront (hwOf s b) 4 with
  | none => s
  | some m =>
    if (hwOf s b).evq.length ≥ 32 then s
    else match deckAlloc b 0 false s with
      | (none, t) => t
      | (some g, t) =>
        let t := bufWrite g m.data (rxPop b t)
        irq b 3 (t.updHw b fun h => { h with evq := h.evq ++ [⟨m.op, g % 512, m.len⟩] })

/-- EVENT_RECEIVE (R332). -/
def execEventReceive (b : BId) (s : State) : Host.Outcome State Fault Refusal := ran s (eventReceive b s.begin)

/-- Whether a tag's message still waits in a queue: its header has not been sent (R325). -/
def headerWaits (t : HwTx) (tag : Nat) : Bool :=
  t.freqQ.any (fun m => m.tag == tag) || t.ctrlQ.any (fun m => m.tag == tag) || t.rwQ.any fun m => m.tag == tag

/-- Requester shown in HW_TIMEOUT (R334): the mailbox's, 8 for a DMA engine, 0xB for the PT8's own orders. -/
def timeoutReq : OrdOwner → Nat
  | .mailbox r => r.val
  | .dma _ => 8
  | _ => 11

/-- An order times out (R325): its record, the quarantine of its tag, TAG_EXHAUST at 16 quarantined tags. -/
def replyTimeout (b : BId) (tag : Nat) (s : State) : State :=
  let h := hwOf s b
  match vget h.tags tag with
  | .used o =>
    if h.link != .up || headerWaits h.tx tag then s
    else
      let s := cntHw b (fun c => { c with timeouts := sinc c.timeouts }) s
      let s := logRec b 0x41 (pack [(tag, 0, 6), (opCode o.op, 8, 8), (timeoutReq o.owner, 16, 4)])
        (wordOf o.addr) (pack [(o.addr / 2 ^ 32, 0, 8)]) s
      let s := complete b tag o true 0x10 [] s
      if quarantinedTags (hwOf s b) ≥ 16 && (hwOf s b).link == .up then hwRetrain b 4 s else tagsMoved b s
  | _ => s

/-- REPLY_TIMEOUT (R325). -/
def execReplyTimeout (b : BId) (tag : Fin 64) (s : State) : Host.Outcome State Fault Refusal :=
  ran s (replyTimeout b tag.val s.begin)

/-- A FREQ order that did not complete OK is sent again (R326). -/
def freqResend (b : BId) (k : Nat) (s : State) : State :=
  match (hwOf s b).freqRetry.find? fun x => x.1 == k with
  | some x => if (s.at b).rl.slot == .up then sendFreq b k x.2 s else s
  | none => s

/-- FREQ_RESEND (R326). -/
def execFreqResend (b : BId) (k : Fin 4) (s : State) : Host.Outcome State Fault Refusal :=
  ran s (freqResend b k.val s.begin)

/-! ### The mailbox (R331) -/

def mboxOf (s : State) (b : BId) (req : ReqId) : Mailbox := vget (hwOf s b).mbox req.val

/-- HW_ORD_RES of the requester. -/
def ordResult (b : BId) (req : ReqId) (tag : Option Nat) (code : Nat) (s : State) : State :=
  s.updHw b fun h => { h with mbox := vmod h.mbox req.val fun m =>
    { m with resTag := tag.getD 0, resAcc := tag.isSome, resCode := code } }

/-- One order built from the requester's staging registers (R331): refused with NOT_UP, ARG or NO_TAG, or issued. -/
def mailboxOrder (b : BId) (req : ReqId) (op : OrdOp) (len : Nat) (s : State) : State :=
  let m := mboxOf s b req
  let rw := op == .read || op == .write
  let lenOk := if rw then decide (1 ≤ len ∧ len ≤ 256) else len == 0
  if !linkOpen (hwOf s b) then ordResult b req none 2 s
  else if !lenOk || op == .freq || (rw && !(s.at b).dk.inDeck) then ordResult b req none 3 s
  else
    let buf := fld m.buf 8 0
    let o : Order :=
      { op := op, owner := .mailbox req, addr := if rw then m.addrLo.toNat + 2 ^ 32 * fld m.addrHi 7 0 else 0
        len := if rw then len else 0, buf := buf
        data := if op == .write then bufRead s (512 * b.val + buf) len else []
        args := if op == .ctrl then m.arg.toList else [] }
    match issue b o s with
    | (some t, u) => ordResult b req (some t) 0 u
    | (none, u) => ordResult b req none 1 u

/-- A tag whose completion entry is read is free, unless it is quarantined (R323, R325). -/
def entryRead (t : TagSt) : TagSt := match t with
  | .done _ => .free
  | .quarantined _ => .quarantined none
  | t => t

/-- A read of HW_CPL (R331): the word, and the state. -/
def cplRead (b : BId) (s : State) : Word × State :=
  match (hwOf s b).cpl with
  | [] => (0, s)
  | c :: cs =>
    let s := s.updHw b fun h => { h with cpl := cs, tags := vmod h.tags c.tag entryRead }
    (pack [(c.tag, 0, 6), (1, 6, 1), (c.status, 8, 8), (c.len, 16, 9), (c.req.val, 28, 4)], tagsMoved b s)

/-- A read of HW_EVQ (R332): the reader owns the event's buffer (R385). -/
def evqRead (b : BId) (req : ReqId) (s : State) : Word × State :=
  match (hwOf s b).evq with
  | [] => (0, s)
  | e :: es =>
    let s := s.updHw b fun h => { h with evq := es }
    (pack [(e.code, 0, 8), (1, 8, 1), (e.buf, 9, 9), (e.len, 18, 9)],
      s.updDk b fun d => { d with handed := (e.buf, req) :: d.handed.filter fun x => x.1 != e.buf })

end Sys2Proof.Machine
end

