-- ==== Sys2Proof/Machine/Arrays.lean ====
section
/-! DEFINITION. The compute-in-memory arrays (chapter 08): pair maps, the pass and its arithmetic, programming,
verification, repair, calibration, tests and retirements. What is analog arrives as operands of the commands: sensed levels, and
the deviation of each raw code from the nominal transfer (DESIGN CHOICE, notes entry 15). -/
namespace Sys2Proof.Machine

def arrOf (s : State) (b : BId) (k : Nat) : Arr := vget (s.at b).ar.arr k
def updAr (b : BId) (f : Ar → Ar) (s : State) : State := s.upd b fun x => { x with ar := f x.ar }
def updArr (b : BId) (k : Nat) (f : Arr → Arr) (s : State) : State :=
  updAr b (fun a => { a with arr := vmod a.arr k f }) s

/-! ### Groups and the pair map (R84, R241) -/

def arrGroup (x : Berth) (k : Nat) : Nat := fld x.ar.group (2 * k + 1) (2 * k)
def groupMode (x : Berth) (g : Nat) : Bool := bitAt x.ar.group (24 + g)
def testTol (x : Berth) (k : Nat) : Nat := fld (vget x.ar.gcfg (arrGroup x k)) 19 16
def testRetry (x : Berth) (k : Nat) : Nat := fld (vget x.ar.gcfg (arrGroup x k)) 23 20
def calTides (x : Berth) (k : Nat) : Nat := fld (vget x.ar.gcfg (arrGroup x k)) 15 0

/-- Logical outputs of a mode, and copies of each (R241). -/
def logicalN (cal : Bool) : Nat := if cal then 64 else 24
def copyN (cal : Bool) : Nat := if cal then 1 else 3

/-- The pair map of R241; 76 stands for no copy. -/
def resetMap (cal : Bool) : Vector Nat 192 :=
  Vector.ofFn fun i =>
    let o := i.val / 3
    let j := i.val % 3
    if cal then (if j == 0 then o else 76) else if o < 24 then o + 24 * j else 76

def mapPair (a : Arr) (o j : Nat) : Nat := vget a.map (3 * o + j)

def colRetired (a : Arr) (c : Nat) : Bool := a.ret.getLsbD c

/-- A pair without a retired column (R241). -/
def pairOk (a : Arr) (p : Nat) : Bool := p < 76 && !colRetired a (2 * p) && !colRetired a (2 * p + 1)

/-- The live copies of logical output o, in copy order. -/
def liveCopies (a : Arr) (o : Nat) : List Nat :=
  ((upto (copyN a.calMode)).map (mapPair a o)).filter (pairOk a)

/-- The short outputs (R257). -/
def shortOuts (a : Arr) : List Nat :=
  (upto (logicalN a.calMode)).filter fun o => (liveCopies a o).length < copyN a.calMode

/-- Whether pair p stands in the map. -/
def inMap (a : Arr) (p : Nat) : Bool :=
  (upto (logicalN a.calMode)).any fun o => (upto (copyN a.calMode)).any fun j => mapPair a o j == p

/-- The free spare pairs, rising. -/
def spares (a : Arr) : List Nat := (upto 76).filter fun p => pairOk a p && !inMap a p

/-- The state that the live copies allow (R248, R265). -/
def liveState (a : Arr) : ArrSt :=
  if (shortOuts a).isEmpty then .valid
  else if a.calMode then .invalid
  else if (upto 24).all fun o => !(liveCopies a o).isEmpty then .degraded else .invalid

/-- Level of a reference column (R258). -/
def refLevel (c : Nat) : Nat := 5 * ((c - 152) / 2)

/-- The reference columns with their levels (R258). -/
def refTarget : List (Nat × Nat) := (upto 8).map fun i => (152 + i, refLevel (152 + i))

/-- The tested columns (R262): both columns of every live copy, and the reference columns; a column whose retirement has been
decided takes no further test (R265). -/
def testedCols (a : Arr) : List Nat :=
  (((upto (logicalN a.calMode)).flatMap fun o => (liveCopies a o).flatMap fun p => [2 * p, 2 * p + 1]).filter fun c =>
    !a.retPend.contains c) ++ refTarget.map (·.1)

/-! ### The pass (R242 to R246) -/

/-- Level of column c in a sensed row: bits [4c + 3:4c] (R249). -/
def levelAt (w : BitVec 640) (c : Nat) : Nat := w.toNat / 16 ^ c % 16

/-- Level of the cell in row r, column c. -/
def cellAt (a : Arr) (r c : Nat) : Nat := (memGet 0 a.cells (160 * r + c)).toNat

/-- The column sum of column c over the driven rows (R242). -/
def colSum (a : Arr) (drive : Nat → Bool) (c : Nat) : Nat :=
  (upto 256).foldl (fun t r => if drive r then t + cellAt a r c else t) 0

/-- The nominal transfer (R242). -/
def nominalCode (sum : Nat) : Nat := (sum + 4) / 8

/-- The raw code of column c with the driven rows: the nominal one and the analog deviation `dev`, modulo 512. -/
def rawCode (a : Arr) (drive : Nat → Bool) (c dev : Nat) : Nat := (nominalCode (colSum a drive c) + dev) % 512

/-- Number i of nine bits each. -/
def nine (w i : Nat) : Nat := w / 2 ^ (9 * i) % 512

/-- Raw code of column c in phase p of a pass over the inputs x (R242); `ds` holds the deviation of column c in phase p as
number 8c + p. -/
def passCode (a : Arr) (x : List Nat) (ds : BitVec 11520) (c p : Nat) : Nat :=
  rawCode a (fun r => nbit ((x[r]?).getD 0) p) c (nine ds.toNat (8 * c + p))

/-- The corrected code (R243). -/
def corrected (a : Arr) (c : Nat) : Nat :=
  let v := ((16 * (c : Int) - a.offs) * a.gain * 2 + 2 ^ 18) / 2 ^ 19
  min 511 v.toNat

/-- The average of corrected codes over n live copies (R243). -/
def avgCode (s n : Nat) : Nat := if n == 0 then 0 else (2 * s + n) / (2 * n)

/-- The array result of logical output o over the inputs x (R244). -/
def arrayResult (a : Arr) (x : List Nat) (ds : BitVec 11520) (o : Nat) : Nat :=
  let ps := liveCopies a o
  let code (h p : Nat) : Nat :=
    avgCode (ps.foldl (fun t q => t + corrected a (passCode a x ds (2 * q + h) p)) 0) ps.length
  (upto 8).foldl (fun t p => t + (16 * code 1 p + code 0 p) * 2 ^ p) 0

/-- A value limited to [lo, hi], and whether the limit changed it. -/
def satI (v lo hi : Int) : Int × Bool := if v < lo then (lo, true) else if v > hi then (hi, true) else (v, false)

def sat32 (v : Int) : Int × Bool := satI v (-(2 ^ 31)) (2 ^ 31 - 1)
def sat48 (v : Int) : Int × Bool := satI v (-(2 ^ 47)) (2 ^ 47 - 1)

/-- Step 1 of the post-unit (R246). -/
def postD (acc x : Nat) : Int × Bool := sat32 (8 * (acc : Int) - 128 * (x : Int))

/-- The post-unit (R246): its output, and whether steps 1 to 3 saturated. -/
def postUnit (acc x : Nat) (bias : Int) (m sh act fmt : Nat) (lo hi : Int) : Int × Bool :=
  let d := postD acc x
  let z := sat32 (d.1 + bias)
  let y := sat48 (if sh == 0 then z.1 * m else (z.1 * m + 2 ^ (sh - 1)) / 2 ^ sh)
  let a := if act == 1 then max 0 y.1 else if act == 2 then (satI y.1 lo hi).1 else y.1
  let o := if fmt == 0 then satI a 0 255 else if fmt == 1 then satI a (-32768) 32767 else sat32 a
  (o.1, d.2 || z.2 || y.2)

/-! ### Runs -/

/-- An inference that stands at a step has still to run the pass of a tile (R271). -/
def passAhead (st : InfStep) (t : Tile) : Bool :=
  match st with
  | .gather => true
  | .pass j c => t.layer > j || (t.layer == j && t.colBlk ≥ c)
  | .travel j => t.layer ≥ j
  | .outputs | .complete => false

/-- A run of array k of berth b is in progress: from the start of an inference to its last pass on the array (R247). -/
def inRun (s : State) (b : BId) (k : Nat) : Bool :=
  allB.any fun h => (s.at h).pg.graph.toList.any fun g =>
    match g.inf, g.img with
    | some i, some img => (g.place.zip img.tiles).any fun e => e.1.berth == b && e.1.arr == k && passAhead i.step e.2
    | _, _ => false

/-- The graph that holds array k of berth b, if any. -/
def assigned (s : State) (b : BId) (k : Nat) : Bool :=
  allB.any fun h => (s.at h).pg.graph.toList.any fun g => g.place.any fun p => p.berth == b && p.arr == k

/-! ### Events and retirement (R264 to R266) -/

/-- Events of a history in a class's window. -/
def classEvents (s : State) (b : BId) (cls : Nat) (h : Hist) : Nat :=
  inWindow h (s.hTide b) (retireNW (s.at b) cls).2

/-- Array k is retired (R266): it takes no further tests or calibrations. -/
def arrRetire (b : BId) (k : Nat) (s : State) : State :=
  updArr b k (fun a => { a with st := .retired, gone := false, calDue := false, calRun := false, testDue := 0 }) s

/-- One ARRAY event (R265, R266, R268): the array is INVALID unless an order runs on it, or it is retired, at once or at the end of
the run in progress (R247). -/
def arrEvent (b : BId) (k cause : Nat) (s : State) : State :=
  let a := arrOf s b k
  let ev := classEvent s b 11 a.hist
  let late := ev.1 && inRun s b k
  let s := updArr b k (fun a => { a with
    arrEvt := sinc a.arrEvt, hist := ev.2.1, gone := a.gone || late, st := if a.st == .busy || late then a.st else .invalid }) s
  let s := logRec b 0x32 (pack [(k, 0, 3), (b2n ev.1, 8, 1), (cause, 12, 4)])
    (wordOf (min (ev.2.2 + 1) 255)) 0 s
  if !ev.1 then s else notice b 0x09 k 0x0B ev.2.2 (if late then s else arrRetire b k s)

/-- A retired column leaves the map (R265). -/
def applyRetire (b : BId) (k c : Nat) (s : State) : State :=
  let s := updArr b k (fun a => { a with ret := a.ret ||| (1#160 <<< c), retPend := a.retPend.filter (· != c) }) s
  let a := arrOf s b k
  if !(a.st == .valid || a.st == .degraded) || !inMap a (c / 2) then s
  else if liveState a == .invalid && !a.calMode then arrEvent b k 1 s
  else updArr b k (fun a => { a with st := liveState a }) s

/-- A column is retired: at once, or at the end of the run in progress (R247). -/
def retireCol (b : BId) (k c events : Nat) (s : State) : State :=
  let s := notice b 0x08 (160 * k + c) 0x0A events s
  if inRun s b k then updArr b k (fun a => { a with retPend := a.retPend ++ [c] }) s else applyRetire b k c s

def colHistOf (a : Arr) (c : Nat) : Hist := match a.colHist.find? fun x => x.1 == c with
  | some x => x.2
  | none => []

/-- One ARRAY_COLUMN event (R253, R264, R265, R268); `force` retires the column at once (R253). -/
def colEvent (b : BId) (k c : Nat) (force : Bool) (e code masks : Nat) (s : State) : State :=
  let a := arrOf s b k
  let ev := classEvent s b 10 (colHistOf a c)
  let retire := ev.1 || force
  let s := updArr b k (fun a => { a with
    colEvt := sinc a.colEvt, colHist := (c, ev.2.1) :: a.colHist.filter fun x => x.1 != c }) s
  let s := logRec b 0x31 (pack [(k, 0, 3), (c, 8, 8), (b2n retire, 16, 1), (b2n force, 17, 1)])
    (pack [(e, 0, 9), (code, 16, 9)]) (pack [(min (ev.2.2 + 1) 255, 0, 8), (masks, 8, 4)]) s
  if retire then retireCol b k c ev.2.2 s else s

/-! ### The running order -/

/-- Column c is no longer retired (R460). -/
def unretCol (c : Nat) (a : Arr) : Arr :=
  { a with ret := a.ret &&& ~~~(1#160 <<< c), colHist := a.colHist.filter fun x => x.1 != c }

/-- The un-retire orders that waited for the order on the array take effect (R267). -/
def unretCols (a : Arr) : Arr := { a.unret.foldl (fun a c => unretCol c a) a with unret := [] }

/-- The running order ends with a result; the array takes a state, unless it has been retired (R268). -/
def arEnd (b : BId) (result : Nat) (st : ArrSt) (s : State) : State :=
  let e := (s.at b).ar
  let s := if (arrOf s b e.cmdArr).st == .busy then updArr b e.cmdArr (fun a => { unretCols a with st := st }) s else s
  let s := updAr b (fun e => { e with phase := .idle, result := result, abort := false, copy := [], target := [], plan := []
                                      newPairs := [], input := [] }) s
  irq b 11 <| logRec b 0x30 (pack [(e.cmd, 0, 4), (e.cmdArr, 4, 3), (result, 8, 8), (e.rowReg, 16, 8), (e.ordReq, 24, 4)])
    (wordOf (min ((s.now - e.since) / 250) 0xFFFFFFFF))
    (wordOf (match (arrOf s b e.cmdArr).st with
      | .unverified => 0 | .busy => 1 | .valid => 2 | .degraded => 3 | .invalid => 4 | .retired => 5)) s

/-- The regions a source or destination may lie in (R251): TCM or deck share of the own-berth alias. -/
def arRange (a n : Nat) : Bool :=
  (0x20000000 ≤ a && a + n ≤ 0x20040000) || (0x20100000 ≤ a && a + n ≤ 0x20120000)

/-- A source (R251): 4-byte aligned, and within one region. -/
def arSource (a n : Nat) : Bool := a % 4 == 0 && arRange a n

/-- Bytes of a source. -/
def arRead (s : State) (b : BId) (a n : Nat) : List Byte :=
  if a < 0x20100000 then memRead ramD (s.at b).tcm (a - 0x20000000) n
  else memRead ramD (s.at b).deck (a - 0x20100000) n

def arWrite (b : BId) (a : Nat) (bs : List Byte) (s : State) : State :=
  if a < 0x20100000 then s.tcmWrite b (a - 0x20000000) bs
  else s.deckWrite b (a - 0x20100000) bs

/-- Target levels of a pair that holds u (R240). -/
def pairTarget (p u : Nat) : List (Nat × Nat) := [(2 * p, u % 16), (2 * p + 1, u / 16)]

/-- Target levels of row r from the source copy (R252, R258): the reference columns, and every live copy, or in the sweep the new
pairs only. -/
def rowTarget (a : Arr) (e : Ar) (r : Nat) : List (Nat × Nat) :=
  let u (o : Nat) : Nat := (memGet 0 e.copy (64 * r + o)).toNat
  let cols := (upto (logicalN a.calMode)).flatMap fun o =>
    ((liveCopies a o).filter fun p => !e.sweep || e.newPairs.contains p).flatMap fun p => pairTarget p (u o)
  cols ++ refTarget

/-- The running order stops with a result and the array INVALID (R255 to R257); `half`: within the rows of a PROG or REPAIR. -/
def arFail (b : BId) (half : Bool) (result : Nat) (s : State) : State :=
  let e := (s.at b).ar
  let within := half && (e.cmd == 1 || e.cmd == 3) && match e.phase with
    | .sense | .round _ => true
    | _ => false
  arEnd b result .invalid (if within then updArr b e.cmdArr (fun a => { a with halfDone := true }) s else s)

/-- The engine turns to row r: it reads the source row where it has not yet, and senses the row (R252, R256). The source register is
read row by row, and a row outside the regions of R251 is an access error (R255; DESIGN CHOICE, notes entry 77). -/
def startRow (b : BId) (r : Nat) (s : State) : State :=
  let e := (s.at b).ar
  let a := arrOf s b e.cmdArr
  let fresh := e.cmd != 3 && (!e.sweep && !e.low || e.sweep && r < e.rowFirst || e.low && e.newPairs.isEmpty)
  let n := logicalN a.calMode
  let src := e.src.toNat + n * r
  if fresh && !arRange src n then arFail b true 0x0B (updAr b (fun e => { e with phase := .sense }) s)
  else
    let bytes := arRead s b src n
    let s := if fresh then updAr b (fun e => { e with copy := memWrite 0 e.copy (64 * r) bytes }) s else s
    updAr b (fun e => { e with row := r, phase := .sense, target := rowTarget a e r }) s

/-- Expected codes of mask m on column c (R262), from the levels sensed. -/
def maskRow (m r : Nat) : Bool :=
  match m with
  | 0 => true | 1 => r % 2 == 0 | 2 => r < 128 | _ => r / 2 % 2 == 1

def expectCode (a : Arr) (c m : Nat) : Nat := nominalCode (colSum a (maskRow m) c)

/-- Every row is done (R254): expected sums are computed and the closing calibration runs. -/
def arClosing (b : BId) (s : State) : State :=
  let k := (s.at b).ar.cmdArr
  let s := updArr b k (fun a => { a with
    expect := Vector.ofFn fun i => expectCode a (i.val / 4) (i.val % 4), seqRun := .replicate 160 0, calTries := 0, calRun := true }) s
  updAr b (fun e => { e with phase := .closeCal }) s

/-- The map takes the copies that REPAIR made (R257). -/
def applyPlan (b : BId) (s : State) : State :=
  let e := (s.at b).ar
  updArr b e.cmdArr (fun a => { a with
    map := e.plan.foldl (fun m p => vset m (3 * p.out + p.copy) p.pair) a.map }) s

/-- The re-verification of the rows below ROW_FIRST, or the closing acts (R254). -/
def arLow (b : BId) (s : State) : State :=
  if (s.at b).ar.rowFirst > 0 then startRow b 0 (updAr b (fun e => { e with sweep := false, low := true }) s)
  else arClosing b s

/-- A row is complete (R252 to R257): the next row, the sweep, the rows below ROW_FIRST, or the closing acts. -/
def nextRow (b : BId) (s : State) : State :=
  let e := (s.at b).ar
  let s := if e.cmd == 1 && !e.low then updAr b (fun e => { e with rowReg := (e.row + 1) % 256 }) s else s
  if e.low then (if e.row + 1 < e.rowFirst then startRow b (e.row + 1) s else arClosing b s)
  else if e.row < 255 then startRow b (e.row + 1) s
  else if e.cmd == 3 then arClosing b (applyPlan b s)
  else if e.cmd == 1 && !e.sweep && !e.newPairs.isEmpty then
    startRow b 0 (updAr b (fun e => { e with sweep := true }) s)
  else if e.cmd == 1 then arLow b s
  else arClosing b s

/-- Cells of a target that are not at their level, or sense between bands. -/
def offTarget (t : List (Nat × Nat)) (w : BitVec 640) (mid : BitVec 160) : List Nat :=
  (t.filter fun x => levelAt w x.1 != x.2 || mid.getLsbD x.1).map (·.1)

/-- The sensed levels of a row are taken. -/
def takeRow (b : BId) (w : BitVec 640) (s : State) : State :=
  let e := (s.at b).ar
  updArr b e.cmdArr (fun a => { a with
    cells := memWrite 0 a.cells (160 * e.row) ((upto 160).map fun c => BitVec.ofNat 8 (levelAt w c)) }) s

/-- A row sense completes during PROG: finished cells are skipped (R252). -/
def progSense (b : BId) (w : BitVec 640) (mid : BitVec 160) (s : State) : State :=
  if (offTarget (s.at b).ar.target w mid).isEmpty then nextRow b s
  else updAr b (fun e => { e with phase := .round 0 }) s

/-- A row sense completes during REPAIR (R257, R258): the sources give the target levels of the new copies. -/
def repairSense (b : BId) (w : BitVec 640) (mid : BitVec 160) (s : State) : State :=
  let e := (s.at b).ar
  if e.plan.any fun p => mid.getLsbD (2 * p.src) || mid.getLsbD (2 * p.src + 1) then arFail b false 0x07 s
  else
    let t := (e.plan.flatMap fun p =>
      [(2 * p.pair, levelAt w (2 * p.src)), (2 * p.pair + 1, levelAt w (2 * p.src + 1))]) ++ refTarget
    progSense b w mid (updAr b (fun e => { e with target := t }) s)

/-- A row sense completes (R252, R256, R257): levels, and the columns that sense between bands. In SLEEP the order is suspended
(R267). -/
def rowSenseDone (b : BId) (w : BitVec 640) (mid : BitVec 160) (s : State) : State :=
  let e := (s.at b).ar
  if e.phase != .sense || s.dev.sleep then s
  else
    let s := takeRow b w s
    if e.abort then arFail b true 0x09 s
    else if e.cmd == 3 then repairSense b w mid s
    else if e.cmd == 2 || e.low then
      (if (offTarget e.target w mid).isEmpty then nextRow b s
       else arFail b false 0x06 (updAr b (fun e => { e with rowReg := e.row }) s))
    else progSense b w mid s

/-- The output of the map's entry i has lost its last live copy, or has found no spare pair (R265). -/
def copyLost (b : BId) (k i : Nat) (noSpare : Bool) (s : State) : State :=
  let a := arrOf s b k
  if a.calMode then (if noSpare then arrEvent b k 2 s else s)
  else if (liveCopies a (i / 3)).isEmpty then arrEvent b k 1 s else s

/-- The pair of a column that has failed leaves its place in the map: outside the sweep its copy is placed on a spare pair (R253). -/
def progPlace (b : BId) (p : Nat) (s : State) : State :=
  let e := (s.at b).ar
  let k := e.cmdArr
  let a := arrOf s b k
  let at' := (upto (3 * logicalN a.calMode)).find? fun i => vget a.map i == p
  if e.cmd != 1 || e.sweep then
    let s := updAr b (fun e => { e with failed := true, plan := e.plan.filter fun q => q.pair != p }) s
    match at' with
    | some i => copyLost b k i false s
    | none => s
  else match at', spares a with
    | some i, q :: _ =>
      updAr b (fun e => { e with newPairs := e.newPairs.filter (· != p) ++ [q] })
        (updArr b k (fun a => { a with map := vset a.map i q }) s)
    | some i, [] => copyLost b k i true (updAr b (fun e => { e with noSpare := true }) s)
    | none, _ => s

/-- A data or redundant column fails both series (R253): it is retired at once, with its event and record; the first column of a
pair takes the pair's copy with it. -/
def progRetire (b : BId) (c : Nat) (s : State) : State :=
  let k := (s.at b).ar.cmdArr
  let live := pairOk (arrOf s b k) (c / 2)
  let (f, s) := s.draw
  let s := colEvent b k c true (f.toNat % 512) (f.toNat / 512 % 512) 0 s
  if live then progPlace b (c / 2) s else s

/-- Columns that fail both series of a row (R253). A reference column ends the order with PROG_FAIL. -/
def progFailed (b : BId) (cols : List Nat) (s : State) : State :=
  let k := (s.at b).ar.cmdArr
  let s := iter (cols.filter fun c => c < 152) (fun c t => if colRetired (arrOf t b k) c then t else progRetire b c t) s
  if cols.any fun c => c ≥ 152 then arFail b true 0x05 (arrEvent b k 3 s)
  else if (arrOf s b k).st == .retired then arEnd b 0x08 .retired s else nextRow b s

/-- A program round completes (R252, R253): 16 rounds, then a second series of 16. -/
def progRoundDone (b : BId) (w : BitVec 640) (mid : BitVec 160) (s : State) : State :=
  let e := (s.at b).ar
  match e.phase with
  | .round n =>
    if s.dev.sleep then s else
    let s := takeRow b w s
    let bad := offTarget e.target w mid
    if e.abort then arFail b true 0x09 s
    else if bad.isEmpty then nextRow b s
    else if n + 1 < 32 then updAr b (fun e => { e with phase := .round (n + 1) }) s
    else progFailed b bad s
  | _ => s

/-! ### Orders (R250) -/

def arrSt (s : State) (b : BId) (k : Nat) : ArrSt := (arrOf s b k).st

/-- AR_CMD_STAT of an order. -/
def arResult (b : BId) (cmd k res : Nat) (req : ReqId) (s : State) : State :=
  updAr b (fun e => { e with lastCmd := cmd, cmdArr := k, result := res, cmdReq := req.val }) s

/-- Whether an order is refused, and with which result (R250, R251): lock, state, argument. -/
def arRefuse (s : State) (b : BId) (cmd k : Nat) : Nat :=
  let x := s.at b
  let st := arrSt s b k
  let n := logicalN (arrOf s b k).calMode
  let stOk := match cmd with
    | 1 | 2 => st != .busy && st != .retired
    | 3 => st == .degraded || st == .invalid
    | 4 => st == .valid || st == .degraded
    | _ => (st == .valid || st == .degraded) && !assigned s b k
  let argOk := match cmd with
    | 1 | 2 => arSource x.ar.src.toNat (256 * n)
    | 5 => arSource x.ar.src.toNat 256 && arRange x.ar.dst.toNat (4 * n)
    | _ => true
  if !x.ch.locked || x.sy.st != .active then 3 else if !stOk then 1 else if !argOk then 2 else 0

/-- The engine starts an order on array k; PROG, VERIFY and REPAIR make the array BUSY. -/
def arBegin (b : BId) (cmd k first : Nat) (req : ReqId) (s : State) : State :=
  let s := updAr b (fun e => { e with
    cmd := cmd, ordReq := req.val, rowFirst := first, sweep := false, low := false, abort := false, since := s.now
    copy := [], target := [], plan := [], newPairs := [], noSpare := false, failed := false }) s
  if cmd == 5 then s
  else updArr b k (fun a => { a with
    st := .busy, seqRun := .replicate 160 0, calDue := false, calRun := false, massDue := false, massDone := false, testDue := 0 }) s

/-- Copies for the short outputs on the lowest free spares (R257): those planned, and whether spares ran out. -/
def planCopies (a : Arr) : List Repair × Bool :=
  let need := (shortOuts a).flatMap fun o =>
    ((upto (copyN a.calMode)).filter fun j => !pairOk a (mapPair a o j)).map fun j => (o, j)
  let sp := spares a
  let src (o j : Nat) : Nat := if a.calMode then mapPair a o j else ((liveCopies a o)[0]?).getD 76
  ((need.zip sp).map fun x => ⟨x.1.1, x.1.2, x.2, src x.1.1 x.1.2⟩, decide (sp.length < need.length))

/-- PROG starts (R252, R265): short outputs take spare pairs first. -/
def startProg (b : BId) (k first : Nat) (s : State) : State :=
  let pl := planCopies (arrOf s b k)
  let s := updArr b k (fun a => { a with map := pl.1.foldl (fun m p => vset m (3 * p.out + p.copy) p.pair) a.map }) s
  let s := updAr b (fun e => { e with noSpare := pl.2, rowReg := first, newPairs := if first == 0 then [] else pl.1.map (·.pair) }) s
  let s := if pl.2 && (arrOf s b k).calMode then arrEvent b k 2 s else s
  if arrSt s b k == .retired then arEnd b 0x08 .retired s else startRow b first s

/-- REPAIR starts (R257). -/
def startRepair (b : BId) (k : Nat) (s : State) : State :=
  let a := arrOf s b k
  let pl := planCopies a
  let s := updAr b (fun e => { e with plan := pl.1, noSpare := pl.2, rowReg := 0 }) s
  let s := if pl.2 && a.calMode then arrEvent b k 2 s else s
  if arrSt s b k == .retired then arEnd b 0x08 .retired s
  else if pl.1.any fun p => p.src ≥ 76 then arFail b false 0x07 s
  else if pl.1.isEmpty then arEnd b 0x08 (liveState a) s
  else startRow b 0 s

/-- PROG, VERIFY or REPAIR starts on its array, once no run uses it (R247). -/
def orderStart (b : BId) (s : State) : State :=
  let e := (s.at b).ar
  if e.phase != .start || inRun s b e.cmdArr then s
  else match e.cmd with
    | 1 => startProg b e.cmdArr e.rowFirst s
    | 2 => startRow b 0 s
    | _ => startRepair b e.cmdArr s

/-- A calibration of array k is due at its next idle mark (R260, R264). -/
def calOrder (a : Arr) : Arr := { a with calDue := true, calTries := if a.calDue || a.calRun then a.calTries else 0 }

/-- A write of AR_CMD other than ABORT (R250). -/
def arOrder (b : BId) (req : ReqId) (cmd k first : Nat) (s : State) : State :=
  if !ownOrEngine b req || (s.at b).ar.phase != .idle then s
  else
    let r := arRefuse s b cmd k
    if r != 0 then arResult b cmd k r req s
    else if cmd == 3 && (shortOuts (arrOf s b k)).isEmpty then
      arEnd b 0x0C (arrSt s b k) (updAr b (fun e => { e with cmd := 3, ordReq := req.val, since := s.now })
        (arResult b cmd k 0 req s))
    else
      let s := arResult b cmd k 0 req s
      if cmd == 4 then updArr b k calOrder s
      else
        let s := arBegin b cmd k (if cmd == 1 then first else 0) req s
        if cmd == 5 then updAr b (fun e => { e with phase := .pass, input := arRead s b e.src.toNat 256 }) s
        else orderStart b (updAr b (fun e => { e with phase := .start }) s)

/-- ABORT (R250, R255): the order that runs on a BUSY array stops at the end of its current round; no effect on another array. -/
def arAbort (b : BId) (req : ReqId) (k : Nat) (s : State) : State :=
  if !ownOrEngine b req || arrSt s b k != .busy then s
  else updAr b (fun e => { e with lastCmd := 6, cmdReq := req.val, abort := true }) s

/-- Running orders of a berth that leaves end under R255; its tests and calibrations stop (R267). -/
def arLeave (b : BId) (s : State) : State :=
  let s := match (s.at b).ar.phase with
    | .idle => s
    | _ => arFail b true 0x09 s
  updAr b (fun e => { e with arr := e.arr.map fun a => { a with calDue := false, calRun := false, massDue := false, testDue := 0 } }) s

/-- In SLEEP tests and calibrations wait for the first idle mark after wake (R267). -/
def arSleep (b : BId) (s : State) : State :=
  updAr b (fun e => { e with arr := e.arr.map fun a => { a with calDue := a.calDue || a.calRun, calRun := false, testDue := 0 } }) s

/-! ### Calibration (R259, R260) -/

/-- Result and state of an order whose closing acts pass (R253, R254, R257). A REPAIR does not take a partly written array out of
INVALID (R255). -/
def arPassed (b : BId) (s : State) : State :=
  let e := (s.at b).ar
  let s := if e.cmd == 3 then s else updArr b e.cmdArr (fun a => { a with halfDone := false }) s
  let a := arrOf s b e.cmdArr
  arEnd b (if e.failed then 0x05 else if e.noSpare then 0x08 else 0) (if a.halfDone then .invalid else liveState a) s

/-- The mean of the 256 raw codes of a level's two reference columns in 16 passes with every row driven, in 1/16 code, half-up (R259;
DESIGN CHOICE, notes entry 78); `ds` holds the deviation of code n of level l as number 256 l + n, the lower column's first. -/
def calMean (a : Arr) (ds : BitVec 9216) (l : Nat) : Nat :=
  let lower := nominalCode (colSum a (fun _ => true) (152 + 2 * l))
  let upper := nominalCode (colSum a (fun _ => true) (153 + 2 * l))
  rdiv ((upto 256).foldl (fun t n =>
    t + ((if n < 128 then lower else upper) + nine ds.toNat (256 * l + n)) % 512) 0) 16

/-- The means of levels 0, 5, 10 and 15. -/
def calMeans (a : Arr) (ds : BitVec 9216) : Vector Nat 4 := Vector.ofFn fun l => calMean a ds l.val

/-- The candidate G and O from the means; no G where M(15) ≤ O. -/
def calCandidate (m : Vector Nat 4) : Option Nat × Nat :=
  let o := m[0]
  let hi := m[3]
  (if hi ≤ o then none else some (rdiv (2 ^ 14 * 7680) (hi - o)), o)

/-- A level's corrected mean lies within tolerance of its code (R259). -/
def calWithin (m o g want tol : Nat) : Bool :=
  let v : Int := (((m : Int) - o) * g * 2 + 2 ^ 18) / 2 ^ 19
  decide (v ≤ ((want + tol : Nat) : Int)) && decide ((want : Int) ≤ v + tol)

def calAccepts (m : Vector Nat 4) (tol : Nat) : Bool :=
  match calCandidate m with
  | (some g, o) => decide (0x3000 ≤ g) && decide (g ≤ 0x5000) && decide (o ≤ 256)
      && calWithin m[1] o g 160 tol && calWithin m[2] o g 320 tol
  | (none, _) => false

/-- A calibration's candidate is accepted (R259). -/
def calAccepted (x : Berth) (c : Option Nat × Nat) (a : Arr) : Arr :=
  { a with gain := c.1.getD 0, offs := c.2, calOk := true, calTide := x.td.tide % 2 ^ 32, cals := sinc a.cals, calRun := false
           calTries := 0, massDue := false, massDone := a.massDone || a.massDue }

/-- A candidate is rejected: the calibration is tried again at the next idle mark, up to TEST_RETRY times (R259). -/
def calRejected (closing : Bool) (retry : Nat) (a : Arr) : Arr :=
  let again := decide (a.calTries + 1 ≤ retry)
  { a with calFail := sinc a.calFail, calTries := if again then a.calTries + 1 else 0, calRun := false
           calDue := a.calDue || (again && !closing)
           massDue := false, massDone := a.massDone || a.massDue }

/-- CALIBRATION_DONE of array k (R259, R260, R267): within an order's closing acts, or started at an idle mark or by the schedule, once
no run uses the array; the test slot of its mark comes first, unless a mass mismatch asks for the calibration before it (R65, R264). -/
def calibrationDone (b : BId) (k : Nat) (ds : BitVec 9216) (s : State) : State :=
  let x := s.at b
  let a := arrOf s b k
  let closing := x.ar.phase == .closeCal && x.ar.cmdArr == k
  let c := calCandidate (calMeans a ds)
  let free := (a.st == .valid || a.st == .degraded) && (a.massDue || a.testDue == 0) && !inRun s b k
  if s.dev.sleep || !a.calRun || !(closing || free) then s
  else if closing && x.ar.abort then arFail b true 0x09 s
  else if x.sy.holdover then (if closing then s else updArr b k (fun a => { a with calDue := true, calRun := false }) s)
  else if calAccepts (calMeans a ds) (testTol x k) then
    let s := updArr b k (calAccepted x c) s
    if closing then updAr b (fun e => { e with phase := .closeTest }) s else s
  else
    let (f, s) := s.draw
    let s := updArr b k (calRejected closing (testRetry x k)) s
    let s := logRec b 0x33 (wordOf k) (pack [(c.1.getD f.toNat, 0, 16)]) (pack [(c.2, 0, 16)]) s
    if a.calTries + 1 ≤ testRetry x k then s
    else
      let s := arrEvent b k 4 s
      if closing then arFail b false 0x0A s else s

/-- An array at a mark boundary (R259, R260, R263, R267): an idle mark brings a test slot and the calibration that waits for it, in an
order's closing acts its repetition; a scheduled calibration starts, after SLEEP at the first idle mark. -/
def arrAtMark (idle cal closing awake : Bool) (a : Arr) : Arr :=
  let ready := a.st == .valid || a.st == .degraded
  { a with
    testDue := a.testDue + b2n (idle && ready)
    calTries := if cal && !a.calDue && !a.calRun then 0 else a.calTries
    calRun := a.calRun || (idle && (closing || (ready && a.calDue))) || (cal && awake)
    calDue := (a.calDue && !(idle && ready)) || (cal && !awake) }

/-! ### Test slots (R263, R264) -/

/-- Raw code of column c under mask m in a test slot; `ds` holds its deviation as number 4c + m. -/
def testCode (a : Arr) (ds : BitVec 5760) (c m : Nat) : Nat := rawCode a (maskRow m) c (nine ds.toNat (4 * c + m))

/-- Masks on which column c mismatches (R263), as a mask. -/
def badMasks (a : Arr) (tol : Nat) (cs : BitVec 5760) (c : Nat) : Nat :=
  maskOf 4 fun m =>
    let d := corrected a (testCode a cs c m)
    let e := vget a.expect (4 * c + m)
    decide (d > e + tol) || decide (e > d + tol)

def bits4 (n : Nat) : Nat := b2n (nbit n 0) + b2n (nbit n 1) + b2n (nbit n 2) + b2n (nbit n 3)

/-- The sequence of a column goes on (R264): after TEST_RETRY retests one event, and a new sequence. In a mass mismatch no column is
counted before the calibration that it asks for. -/
def testCol (b : BId) (k : Nat) (cs : BitVec 5760) (wait : Bool) (c : Nat) (s : State) : State :=
  let x := s.at b
  let a := arrOf s b k
  let masks := badMasks a (testTol x k) cs c
  let m0 := ((upto 4).find? fun m => nbit masks m).getD 0
  let n := vget a.seqRun c + 1
  if masks == 0 then updArr b k (fun a => { a with seqRun := vset a.seqRun c 0 }) s
  else if n ≤ testRetry x k then updArr b k (fun a => { a with seqRun := vset a.seqRun c n }) s
  else if wait then updArr b k (fun a => { a with seqRun := vset a.seqRun c (testRetry x k) }) s
  else
    let s := updArr b k (fun a => { a with seqRun := vset a.seqRun c 0 }) s
    if c ≥ 152 then arrEvent b k 3 s
    else colEvent b k c false (vget a.expect (4 * c + m0)) (corrected a (testCode a cs c m0)) masks s

/-- A test slot of array k (R263): its mismatches are counted. -/
def testCount (b : BId) (k : Nat) (bad : List Nat) (s : State) : State :=
  updArr b k (fun a => { a with
    tests := sinc a.tests, mismatch := sadd a.mismatch (bad.foldl (fun t m => t + bits4 m) 0), testDue := a.testDue - 1 }) s

/-- TEST_SLOT of array k: within an order's closing acts, or at an idle mark (R254, R263, R264). -/
def testSlot (b : BId) (k : Nat) (cs : BitVec 5760) (s : State) : State :=
  let x := s.at b
  let a := arrOf s b k
  let tol := testTol x k
  let cols := testedCols a
  let bad := (cols.map (badMasks a tol cs)).filter (· != 0)
  if s.dev.sleep then s
  else if x.ar.phase == .closeTest && x.ar.cmdArr == k then
    if x.ar.abort then arFail b true 0x09 s
    else if x.sy.holdover then s
    else
      let s := testCount b k bad s
      if bad.isEmpty then arPassed b s else arFail b false (if x.ar.cmd == 1 then 0x05 else 0x06) s
  else if a.testDue == 0 || !(a.st == .valid || a.st == .degraded) || a.massDue then s
  else if x.sy.holdover then updArr b k (fun a => { a with testDue := a.testDue - 1 }) s
  else
    let s := testCount b k bad s
    let mass := a.calMode && bad.length ≥ 8
    let s := updArr b k (fun a => { (if mass then calOrder a else a) with massDue := mass, massDone := false }) s
    let wait := mass && !a.massDone
    let s := iter (cols.filter (· < 152)) (testCol b k cs wait) s
    iter (cols.filter (· ≥ 152)) (fun c t => if (arrOf t b k).st == .retired then t else testCol b k cs wait c t) s

/-! ### Diagnostic passes and cell reads -/

/-- An array of a pass, with its inputs and the deviations of its raw codes. -/
abbrev PassArr := Arr × List Nat × BitVec 11520

/-- A pass runs only on a VALID or DEGRADED array (R248). -/
def passesOn (a : Arr) : Bool := a.st == .valid || a.st == .degraded

/-- The lanes after a pass over arrays (R245): sums of array results over those it runs on, on top of the lanes before it where it is
chained, saturating. -/
def laneSums (chained : Bool) (old : Vector Nat 64) (arrs : List PassArr) : Vector Nat 64 :=
  Vector.ofFn fun i => min 0xFFFFFFFF (arrs.foldl (fun t p =>
    if i.val < logicalN p.1.calMode && passesOn p.1 then t + arrayResult p.1 p.2.1 p.2.2 i.val else t)
    (if chained then vget old i.val else 0))

/-- The input bytes of a pass (R245). -/
def inputSum (arrs : List PassArr) : Nat := arrs.foldl (fun t p => t + p.2.1.foldl (· + ·) 0) 0

/-- A pass on berth b ends: the accumulator, the input sum and the pass counter, which counts the arrays it ran on (R245, R248). -/
def takePass (b : BId) (chained : Bool) (arrs : List PassArr) (s : State) : State :=
  updAr b (fun e => { e with
    acc := laneSums chained e.acc arrs, xsum := (if chained then e.xsum else 0) + inputSum arrs
    passes := (e.passes + (arrs.filter fun p => passesOn p.1).length) % 2 ^ 64 }) s

/-- A diagnostic pass ends (R250): its raw lane values go to AR_CMD_DST. It names one array, and no pass precedes it. -/
def passDone (b : BId) (ds : BitVec 11520) (s : State) : State :=
  let e := (s.at b).ar
  if e.phase != .pass || s.dev.sleep then s
  else
    let a := arrOf s b e.cmdArr
    let s := takePass b false [(a, e.input.map (·.toNat), ds)] s
    let lanes := (upto (logicalN a.calMode)).map fun i => vget (s.at b).ar.acc i
    let s := arWrite b e.dst.toNat (lanes.flatMap (leBytes 4)) s
    let sat := lanes.any fun v => (postD v (s.at b).ar.xsum).2
    arEnd b 0 a.st (updAr b (fun e => { e with sat := sat }) s)

/-- A read of word w of row r of array k's cell window (R249), with the word as sensed. -/
def cellRead (b : BId) (k r w : Nat) (v : Word) (s : State) : Word × State :=
  let a := arrOf s b k
  if a.st == .busy || a.st == .retired then (0, s)
  else (v, updArr b k (fun a => { a with
    cells := memWrite 0 a.cells (160 * r + 8 * w) ((upto 8).map fun j => BitVec.ofNat 8 (fld v (4 * j + 3) (4 * j))) }) s)

end Sys2Proof.Machine
end

