-- ==== Sys2Proof/Machine/PolicyImage.lean ====
section
/-! DEFINITION. Policy images: their tables and the checks of R285 on them (R277 to R283). -/
namespace Sys2Proof.Machine

/-- The two's complement value of an n-bit number. -/
def signed (n v : Nat) : Int := if v ≥ 2 ^ (n - 1) then (v : Int) - 2 ^ n else v

/-- A feature entry at offset o (R279). -/
def readFeature (bs : List Byte) (o : Nat) : Feature :=
  let w := wordAt bs o
  let v := wordAt bs (o + 4)
  { src := fld w 7 0, berth := fld w 10 8, index := fld w 18 11, shift := fld w 22 19
    offset := signed 16 (fld v 15 0), scale := fld v 31 16 }

/-- A stage entry (R280). -/
def readStage (bs : List Byte) (o : Nat) : Stage :=
  let w := wordAt bs o
  { first := fld w 4 0, last := fld w 9 5, arrays := fld w 13 10, calMode := bitAt w 14 }

/-- A layer entry (R281). -/
def readLayer (bs : List Byte) (o : Nat) : Layer :=
  let w := wordAt bs o
  { inN := fld w 10 0, outN := fld w 19 11, act := fld w 21 20, fmt := fld w 23 22, sh := fld w 28 24
    m := natAt bs (o + 4) 2, lo := signed 32 (natAt bs (o + 8) 4), hi := signed 32 (natAt bs (o + 12) 4) }

/-- A tile entry (R282). -/
def readTile (bs : List Byte) (o : Nat) : Tile :=
  let w := wordAt bs o
  { layer := fld w 7 0, rowBlk := fld w 9 8, colBlk := fld w 13 10 }

/-- A binding entry (R283). -/
def readBinding (bs : List Byte) (o : Nat) : Binding :=
  let w := wordAt bs o
  let v := wordAt bs (o + 4)
  { kind := fld w 3 0, berth := fld w 6 4, index := fld w 11 7, srcOut := fld w 23 16
    oscale := fld v 15 0, oshift := fld v 20 16, obase := signed 16 (natAt bs (o + 8) 2)
    safe := natAt bs (o + 10) 2, min := natAt bs (o + 12) 2, max := natAt bs (o + 14) 2 }

/-- Offsets of the sections (R278) of an image with the header's counts. -/
structure Sections where
  stages : Nat
  layers : Nat
  biases : Nat
  nBias : Nat
  tiles : Nat
  binds : Nat
  weights : Nat
deriving DecidableEq, Repr, Inhabited

def hFeat (bs : List Byte) : Nat := natAt bs 0x18 2
def hBind (bs : List Byte) : Nat := natAt bs 0x1A 2
def hTile (bs : List Byte) : Nat := natAt bs 0x1C 2
def hStage (bs : List Byte) : Nat := natAt bs 0x16 1
def hLayer (bs : List Byte) : Nat := natAt bs 0x17 1

def sections (bs : List Byte) : Sections :=
  let st := 64 + 8 * hFeat bs
  let la := st + 4 * hStage bs
  let bi := la + 16 * hLayer bs
  let n := (upto (hLayer bs)).foldl (fun t j => t + (readLayer bs (la + 16 * j)).outN) 0
  let ti := bi + 4 * n
  let bd := ti + 4 * hTile bs
  { stages := st, layers := la, biases := bi, nBias := n, tiles := ti, binds := bd, weights := bd + 16 * hBind bs }

/-- The tables of an image. -/
def readImage (bs : List Byte) : GImage :=
  let c := sections bs
  { ver := natAt bs 0x0C 4, rollback := natAt bs 0x10 1, keyIdx := natAt bs 0x11 1, roleOk := natAt bs 0x12 1
    slotScope := natAt bs 0x13 1 == 1, cadence := natAt bs 0x14 1, phase := natAt bs 0x15 1
    feats := (upto (hFeat bs)).map fun i => readFeature bs (64 + 8 * i)
    stages := (upto (hStage bs)).map fun i => readStage bs (c.stages + 4 * i)
    layers := (upto (hLayer bs)).map fun i => readLayer bs (c.layers + 16 * i)
    biases := (upto c.nBias).map fun i => signed 32 (natAt bs (c.biases + 4 * i) 4)
    tiles := (upto (hTile bs)).map fun i => readTile bs (c.tiles + 4 * i)
    binds := (upto (hBind bs)).map fun i => readBinding bs (c.binds + 16 * i)
    weights := c.weights, digest := [] }

/-! ### Shape of a graph (R270) -/

def layerAt (g : GImage) (j : Nat) : Layer := (g.layers[j]?).getD default
def stageOfLayer (g : GImage) (j : Nat) : Nat := (g.stages.findIdx? fun s => s.first ≤ j && j ≤ s.last).getD 0
def stageAt (g : GImage) (i : Nat) : Stage := (g.stages[i]?).getD default
def layerMode (g : GImage) (j : Nat) : Bool := (stageAt g (stageOfLayer g j)).calMode

/-- Row blocks and column blocks of layer j. -/
def rowBlks (g : GImage) (j : Nat) : Nat := ((layerAt g j).inN + 255) / 256
def colBlks (g : GImage) (j : Nat) : Nat :=
  let l := logicalN (layerMode g j)
  ((layerAt g j).outN + l - 1) / l

/-- The tiles in the order of R282. -/
def wantTiles (g : GImage) : List Tile :=
  (upto g.layers.length).flatMap fun j => (upto (colBlks g j)).flatMap fun c => (upto (rowBlks g j)).map fun r => ⟨j, r, c⟩

/-- Length of a tile's weight block, and offset of tile t's block in the image (R278). -/
def blockLen (g : GImage) (t : Tile) : Nat := 256 * logicalN (layerMode g t.layer)
def blockAt (g : GImage) (t : Nat) : Nat := g.weights + (g.tiles.take t).foldl (fun a x => a + blockLen g x) 0

/-- Index of the first bias of layer j. -/
def biasAt (g : GImage) (j : Nat) : Nat := (g.layers.take j).foldl (fun a l => a + l.outN) 0

/-! ### Checks (R285) -/

/-- The first index for which a test fails. -/
def firstBad {α : Type} (xs : List α) (ok : Nat → α → Bool) : Option Nat := xs.zipIdx.findSome? fun x => if ok x.2 x.1 then none else some x.2

def featOk (_ : GImage) (_ : Nat) (f : Feature) : Bool :=
  match f.src with
  | 1 => f.index ≤ 23 | 2 | 3 => f.index ≤ 2 | 5 | 6 => f.index ≤ 3 | 7 => 1 ≤ f.index && f.index ≤ 11
  | 14 => f.index ≤ 31 | 16 => f.index ≤ 255
  | 4 | 8 | 9 | 10 | 11 | 12 | 13 | 15 => f.index == 0
  | _ => false

def stageOk (g : GImage) (i : Nat) (s : Stage) : Bool :=
  s.first ≤ s.last && s.first == (if i == 0 then 0 else (stageAt g (i - 1)).last + 1)
    && (if i + 1 == g.stages.length then s.last + 1 == g.layers.length else s.last < g.layers.length)
    && 1 ≤ s.arrays && s.arrays ≤ 8
    && s.arrays == (g.tiles.filter fun t => s.first ≤ t.layer && t.layer ≤ s.last).length

def layerOk (g : GImage) (j : Nat) (l : Layer) : Bool :=
  1 ≤ l.inN && l.inN ≤ 1024 && 1 ≤ l.outN && l.outN ≤ 256
    && l.inN == (if j == 0 then g.feats.length else (layerAt g (j - 1)).outN)
    && (if j + 1 == g.layers.length then l.fmt == 1 || l.fmt == 2 else l.fmt == 0)
    && (match l.act with
      | 2 => decide (l.lo ≤ l.hi)
      | 3 => false
      | _ => l.lo == 0 && l.hi == 0)

def bindOk (g : GImage) (i : Nat) (b : Binding) : Bool :=
  (match b.kind with
    | 1 => b.index == 0 | 2 => b.index ≤ 2 | 3 | 4 => b.index ≤ 3
    | 5 | 6 => b.index ≤ 19 || b.index == 22 || b.index == 23
    | _ => false)
    && b.srcOut < (layerAt g (g.layers.length - 1)).outN && b.min ≤ b.max && b.min ≤ b.safe && b.safe ≤ b.max
    && !((g.binds.take i).any fun c => c.kind == b.kind && c.berth == b.berth && c.index == b.index)

/-- Every reserved bit of the header and the tables is 0 (R277 to R283). -/
def reservedOk (bs : List Byte) : Bool :=
  let c := sections bs
  natAt bs 0x1E 2 == 0 && ((bs.drop 0x28).take 24).all (· == 0) && natAt bs 0x12 1 < 4
    && (upto (hFeat bs)).all (fun i => fld (wordAt bs (64 + 8 * i)) 31 23 == 0)
    && (upto (hStage bs)).all (fun i => fld (wordAt bs (c.stages + 4 * i)) 31 15 == 0)
    && (upto (hLayer bs)).all (fun i => fld (wordAt bs (c.layers + 16 * i)) 31 29 == 0 && natAt bs (c.layers + 16 * i + 6) 2 == 0)
    && (upto (hTile bs)).all (fun i => fld (wordAt bs (c.tiles + 4 * i)) 31 14 == 0)
    && (upto (hBind bs)).all fun i => fld (wordAt bs (c.binds + 16 * i)) 15 12 == 0
      && fld (wordAt bs (c.binds + 16 * i)) 31 24 == 0 && fld (wordAt bs (c.binds + 16 * i + 4)) 31 21 == 0

/-- Step 2, FORMAT: header constants, BODY_LEN as the exact sum of the sections, reserved bits. -/
def formatOk (bs : List Byte) : Bool :=
  let g := readImage bs
  natAt bs 0 4 == 0x47505450 && natAt bs 4 2 == 1 && natAt bs 6 2 == 0x40
    && natAt bs 8 4 + 64 == blockAt g g.tiles.length && reservedOk bs

/-- Step 3, ROLE: ROLE_OK permits the target. -/
def roleOk (bs : List Byte) (target : Nat) : Bool := nbit (natAt bs 0x12 1) target

/-- Header fields in range (R277). -/
def headOk (bs : List Byte) : Bool :=
  let slot := natAt bs 0x13 1 == 1
  let n := natAt bs 0x14 1
  natAt bs 0x10 1 ≤ 64 && natAt bs 0x11 1 ≤ 3 && natAt bs 0x12 1 != 0 && natAt bs 0x13 1 ≤ 1 && 1 ≤ n && n ≤ 8
    && natAt bs 0x15 1 < 2 ^ n && 1 ≤ hStage bs && hStage bs ≤ (if slot then 1 else 32) && 1 ≤ hLayer bs && hLayer bs ≤ 32
    && 1 ≤ hFeat bs && hFeat bs ≤ 1024 && 1 ≤ hBind bs && hBind bs ≤ 256 && 1 ≤ hTile bs
    && hTile bs ≤ (if slot then 8 else 32)

/-- The cells of tile i's weight block beyond its inputs, and beyond OUT in the last column block, hold u = 128 (R282). -/
def padOk (bs : List Byte) (g : GImage) (i : Nat) (t : Tile) : Bool :=
  let n := logicalN (layerMode g t.layer)
  let l := layerAt g t.layer
  let blk := (bs.drop (blockAt g i)).take (256 * n)
  blk.zipIdx.all fun e => (256 * t.rowBlk + e.2 / n < l.inN && n * t.colBlk + e.2 % n < l.outN) || e.1 == 128

/-- Step 4, TABLE: the first failing entry; 0xFFFF for the header. -/
def tableFail (bs : List Byte) : Option Nat :=
  let g := readImage bs
  if !headOk bs then some 0xFFFF
  else (firstBad g.feats (featOk g)).or <| (firstBad g.stages (stageOk g)).or <| (firstBad g.layers (layerOk g)).or <|
    (firstBad g.tiles fun i t => (wantTiles g)[i]? == some t).or <| (firstBad g.binds (bindOk g)).or <|
    if g.tiles.length == (wantTiles g).length then firstBad g.tiles (padOk bs g) else some 0xFFFF

/-- A tray-wide source (R273). -/
def traySrc (n : Nat) : Bool := 10 ≤ n && n ≤ 15

/-- Step 5, SCOPE: the first failing entry. -/
def scopeFail (g : GImage) : Option Nat :=
  match firstBad g.feats (fun _ f => f.berth == 0 || !(g.slotScope || traySrc f.src)),
      firstBad g.binds (fun _ b => !g.slotScope || (b.kind != 1 && b.berth == 0)) with
    | some i, _ => some i
    | none, r => r

end Sys2Proof.Machine
end

