-- ==== Sys2Proof/Machine/PolicyUnit.lean ====
section
/-! DEFINITION. The features and the output unit of a policy graph (R273 to R276): raw values, the clamps of R274 and
the writes of R275. -/
namespace Sys2Proof.Machine

def graphOf (s : State) (h : BId) (g : Nat) : Graph := vget (s.at h).pg.graph g
def updPg (b : BId) (f : Pg → Pg) (s : State) : State := s.upd b fun x => { x with pg := f x.pg }
def updGraph (h : BId) (g : Nat) (f : Graph → Graph) (s : State) : State :=
  updPg h (fun p => { p with graph := vmod p.graph g f }) s

def imgOf (gr : Graph) : GImage := gr.img.getD default

/-- Code of a graph state (R291). -/
def gstCode : GSt → Nat
  | .empty => 0 | .loading => 1 | .running => 2 | .stalled => 3 | .fallback => 4 | .failed => 5

/-! ### Features (R273) -/

/-- The berth that an entry's BERTH names: itself in a TRAY graph, the instance's own in a SLOT graph. -/
def entryBerth (h : BId) (gr : Graph) (n : Nat) : BId := if (imgOf gr).slotScope then h else bid n

/-- PW_TRAY_PWR.WATTS: the sum of the last mark averages, cut to its 16 bits. -/
def trayWatts (s : State) : Nat := s.tray.pw.markAvg.toList.foldl (· + ·) 0 % 65536

/-- Raw value of a feature of the graph homed on h, with the mark of the start boundary (R273). -/
def rawFeature (s : State) (h : BId) (gr : Graph) (mark : Nat) (f : Feature) : Nat :=
  let b := entryBerth h gr f.berth
  let x := s.at b
  match f.src with
  | 1 => (vget x.rl.ins f.index).code
  | 2 => speedNow s (vget x.cl.ch f.index)
  | 3 => appliedDuty s b f.index
  | 4 => x.pw.avg
  | 5 => (vget x.pw.parts f.index).applied
  | 6 => effective x b.val f.index
  | 7 => b2n (nbit x.pw.ledger.act f.index)
  | 8 => slotStCode x.rl.slot
  | 9 => vget s.tray.pw.grant b.val
  | 10 => s.tray.pw.budget
  | 11 => trayWatts s
  | 12 => mark
  | 13 => (s.at h).td.dith
  | 14 => b2n (bitAt (boosted (s.at h)) f.index)
  | 16 => (gr.committed[f.index]?).getD 0
  | _ => 0

/-- Whether the feature's source is a berth's register (SRC 0x01 to 0x09). -/
def berthSrc (f : Feature) : Bool := f.src ≤ 9

/-- Whether the source berth of a feature is not ACTIVE (R273). -/
def featMissed (s : State) (h : BId) (gr : Graph) (f : Feature) : Bool :=
  berthSrc f && !live s (entryBerth h gr f.berth)

/-- Whether some feature's source is on another berth (R289). -/
def anyRemote (h : BId) (gr : Graph) : Bool := (imgOf gr).feats.any fun f => berthSrc f && entryBerth h gr f.berth != h

/-- The feature's value from its raw value (R273). -/
def featValue (f : Feature) (raw : Nat) : Nat :=
  let v : Int := (((raw : Int) - f.offset) * f.scale) / 2 ^ f.shift
  (min 255 (max 0 v)).toNat

/-! ### The output unit (R274, R275) -/

/-- The breakwater range of a binding (R274). -/
def bwRange (s : State) (h : BId) (gr : Graph) (bd : Binding) : Nat × Nat :=
  let b := entryBerth h gr bd.berth
  let x := s.at b
  match bd.kind with
  | 1 => (grantMin (s.at h) b.val, grantMax (s.at h) b.val)
  | 2 => (dutyFloor (vget x.cl.ch bd.index), 1000)
  | 3 => (0, bwCap x b.val bd.index)
  | 4 => (0, 40)
  | _ => (hardLow x bd.index, hardHigh x bd.index)

/-- The suppression test (R274). -/
def suppressed (s : State) (h : BId) (gr : Graph) (bd : Binding) : Bool :=
  let b := entryBerth h gr bd.berth
  let x := s.at b
  match bd.kind with
  | 1 => !nbit (s.at h).populated b.val
  | 2 => coolMode (vget x.cl.ch bd.index) == 0 || (vget x.cl.ch bd.index).st == .retired
  | 3 | 4 => !partUsed x b.val bd.index
  | _ => thrFilter x bd.index == 0 || tracked x bd.index

def clampI (v lo hi : Int) : Int := min (max v lo) hi

/-- Steps 2 to 4 of R274 on a value. -/
def clampVal (s : State) (h : BId) (gr : Graph) (bd : Binding) (v : Int) : OutVal :=
  let r := bwRange s h gr bd
  let a := clampI v bd.min bd.max
  let c := clampI a r.1 r.2
  { value := c.toNat % 65536, soft := decide (a ≠ v), bw := decide (c ≠ a), supp := suppressed s h gr bd, valid := true }

/-- Step 1 of R274: a graph output scaled. -/
def scaleOut (bd : Binding) (y : Int) : Int := (y * bd.oscale) / 2 ^ bd.oshift + bd.obase

/-- Stores a formed value of binding i and counts its clamp and suppression. -/
def putOut (h : BId) (g i : Nat) (kind : Nat) (o : OutVal) (s : State) : State :=
  let s := updGraph h g (fun gr => { gr with outs := gr.outs.set i o }) s
  updPg h (fun p => { p with
    suppress := sadd p.suppress (b2n o.supp), clamp := vmod p.clamp (kind - 1) fun c => sadd c (b2n o.bw) }) s

/-- A write of PW_OP_REQ fields of partition k of berth b (R191): MARGIN above 40 is reserved. -/
def opReqSet (b : BId) (k : Nat) (step margin : Option Nat) (s : State) : State :=
  let s := s.updPart b k fun p => { p with reqStep := step.getD p.reqStep, margin := margin.getD p.margin }
  capsChanged b k s

/-- PW_GRANT_REQ[n] (R177). -/
def grantReqSet (n v : Nat) (s : State) : State :=
  s.onTray fun t => { t with pw := { t.pw with grantReq := vset t.pw.grantReq n v } }

/-- Index of the binding that shares its register: STEP with MARGIN, THR_LOW with THR_HIGH (R275). -/
def partnerOf (g : GImage) (bd : Binding) : Option Nat :=
  let k := match bd.kind with
    | 3 => 4 | 4 => 3 | 5 => 6 | 6 => 5 | _ => 0
  g.binds.findIdx? fun c => c.kind == k && c.berth == bd.berth && c.index == bd.index

/-- One access of the output unit: binding i with value v, and its partner's value (R275). -/
def unitWrite (h : BId) (gr : Graph) (bd : Binding) (v : Nat) (w : Option Nat) (s : State) : State :=
  let b := entryBerth h gr bd.berth
  let x := s.at b
  let k := bd.index
  let thr (l u : Nat) := pack [(l, 0, 12), (thrFilter x k, 12, 4), (u, 16, 12), (thrKind x k, 28, 4)]
  match bd.kind with
  | 1 => grantReqSet b.val v s
  | 2 => dutyWrite b k 11 (wordOf v) s
  | 3 => opReqSet b k (some v) w s
  | 4 => opReqSet b k w (some v) s
  | 5 => thresholdWrite b 11 k (thr v (w.getD (thrHigh x k))) s
  | _ => thresholdWrite b 11 k (thr (w.getD (thrLow x k)) v) s

/-- The pair rule of R152 drops a joint threshold write. -/
def pairFails (s : State) (h : BId) (gr : Graph) (bd : Binding) (v : Nat) (w : Option Nat) : Bool :=
  let x := s.at (entryBerth h gr bd.berth)
  let k := bd.index
  match bd.kind with
  | 5 => !decide (clampThr x k v < clampThr x k (w.getD (thrHigh x k)))
  | 6 => !decide (clampThr x k (w.getD (thrLow x k)) < clampThr x k v)
  | _ => false

/-- Whether a write to the target ends in an access error (R276). -/
def targetGone (s : State) (h : BId) (gr : Graph) (bd : Binding) : Bool :=
  let b := entryBerth h gr bd.berth
  bd.kind != 1 && b != h && !live s b

def setCommitted (h : BId) (g i v : Nat) (s : State) : State :=
  updGraph h g (fun gr => { gr with committed := gr.committed.set i v }) s

/-- The write of binding i of graph (h, 0) with the formed values (R275, R276). A binding whose partner comes first is
written with it. `keep`: the values become the last committed values (R273 LAST). -/
def writeBinding (h : BId) (keep : Bool) (i : Nat) (s : State) : State :=
  let gr := graphOf s h 0
  match (imgOf gr).binds[i]?, gr.outs[i]? with
  | some bd, some o =>
    let partner := partnerOf (imgOf gr) bd
    let w := (partner.bind fun j => gr.outs[j]?).map (·.value)
    if partner.any (· < i) || o.supp then s
    else if targetGone s h gr bd then updPg h (fun p => { p with wfail := sinc p.wfail }) s
    else if pairFails s h gr bd o.value w then updPg h (fun p => { p with suppress := sinc p.suppress }) s
    else
      let s := unitWrite h gr bd o.value w s
      if !keep then s
      else
        let s := setCommitted h 0 i o.value s
        match partner, w with
        | some j, some v => setCommitted h 0 j v s
        | _, _ => s
  | _, _ => s

/-- Writes every binding in order (R290). -/
def writeAll (h : BId) (keep : Bool) (s : State) : State :=
  iter (upto (imgOf (graphOf s h 0)).binds.length) (writeBinding h keep) s

/-- Forms one value for every binding: the scaled outputs, or the SAFE values. -/
def formAll (h : BId) (g : Nat) (v : Binding → Int) (s : State) : State :=
  iter (imgOf (graphOf s h g)).binds.zipIdx (fun e t =>
    putOut h g e.2 e.1.kind (clampVal t h (graphOf t h g) e.1 (v e.1)) t) s

/-- SAFE values through the clamps and the write path (R291); a dummy writes nothing. -/
def writeSafe (h : BId) (g : Nat) (s : State) : State :=
  if g == 0 then writeAll h false (formAll h 0 (fun b => b.safe) s) else s

/-- The value a binding's target field holds (R295). -/
def targetNow (s : State) (h : BId) (gr : Graph) (bd : Binding) : Nat :=
  let b := entryBerth h gr bd.berth
  let x := s.at b
  match bd.kind with
  | 1 => vget s.tray.pw.grantReq b.val
  | 2 => (vget x.cl.ch bd.index).cmd
  | 3 => (vget x.pw.parts bd.index).reqStep
  | 4 => (vget x.pw.parts bd.index).margin
  | 5 => thrLow x bd.index
  | _ => thrHigh x bd.index

/-! ### Graph states (R291) -/

/-- A graph instance changes state: PG_STATE and the GRAPH interrupt. -/
def setGst (h : BId) (g : Nat) (st : GSt) (cause : Nat) (s : State) : State :=
  let old := (graphOf s h g).st
  let s := updGraph h g (fun gr => { gr with st := st }) s
  if old == st then s
  else
    let s := if g == 0 && (st == .fallback || st == .failed) then attn 6 s else s
    irq h 12 (logRec h 0x39 (pack [(gstCode st, 0, 3), (gstCode old, 4, 3), (g, 8, 1)]) (pack [(cause, 0, 8)]) 0 s)

/-- What was decided during a run takes effect at its end (R247): retirements, and an order that waits for the array. -/
def runEnds (pl : List Place) (s : State) : State :=
  iter pl (fun p t =>
    if inRun t p.berth p.arr then t
    else
      let t := iter (arrOf t p.berth p.arr).retPend (fun c u => applyRetire p.berth p.arr c u) t
      orderStart p.berth (if (arrOf t p.berth p.arr).gone then arrRetire p.berth p.arr t else t)) s

/-- The inference in progress ends without a commit. -/
def dropInf (h : BId) (g : Nat) (s : State) : State :=
  runEnds (graphOf s h g).place (updGraph h g (fun gr => { gr with inf := none }) s)

/-- The graph instance becomes EMPTY and releases its arrays (R296); its counters stay. -/
def emptyGraph (h : BId) (g : Nat) (cause : Nat) (s : State) : State :=
  let s := setGst h g .empty cause (dropInf h g s)
  updGraph h g (fun gr => { gr with
    img := none, store := none, place := [], bad := [], stallMarks := 0, outs := [], committed := [], cmpDue := false }) s

/-- Berths with an instance of graph g. -/
def homes (s : State) (g : Nat) : List BId := allB.filter fun h => (graphOf s h g).st != .empty

/-- Clears the dummy statistics (R295). -/
def clearStats (s : State) : State :=
  iter allB (fun b t => updPg b (fun p => { p with
    dcmp := 0, dagree := 0, dinc := 0, ddis := .replicate 6 0, dmaxdev := .replicate 6 0 }) t) s

end Sys2Proof.Machine
end

