-- ==== Sys2Proof/Machine/PolicyLoad.lean ====
section
/-! DEFINITION. Loading, placement and re-placement of policy graphs (R284 to R288, R293), and the loader that programs
their arrays. -/
namespace Sys2Proof.Machine

/-! ### Role sets and availability (R284, R286) -/

def dummyMask (x : Berth) : Nat := fld x.ar.group 23 16

/-- Whether array k of a berth is in the set of target g. -/
def inSet (x : Berth) (g k : Nat) : Bool := (nbit (dummyMask x) k != x.pg.swapped) == (g == 1)

/-- The set of target g on a berth as a mask. -/
def setMask (x : Berth) (g : Nat) : Nat := maskOf 8 (inSet x g)

/-- Whether array k of berth b holds a tile of graph g. -/
def holdsTile (s : State) (g : Nat) (b : BId) (k : Nat) : Bool :=
  allB.any fun h => (graphOf s h g).place.any fun p => p.berth == b && p.arr == k

/-- The available arrays of berth b for a stage's mode (R286), rising, without those that failed an order (R287). -/
def availArrs (s : State) (g : Nat) (bad : List (Nat × Nat)) (b : BId) (cal : Bool) : List Nat :=
  let x := s.at b
  (upto 8).filter fun k =>
    inSet x g k && (vget x.ar.arr k).st != .retired && groupMode x (arrGroup x k) == cal
      && !holdsTile s (1 - g) b k && !bad.contains (b.val, k)

/-- Arrays of a berth in the target's set with the stage's mode (R285 step 6). -/
def setArrs (s : State) (g : Nat) (b : BId) (cal : Bool) : Nat :=
  ((upto 8).filter fun k => inSet (s.at b) g k && groupMode (s.at b) (arrGroup (s.at b) k) == cal).length

/-- Free arrays for a stage after those already used. -/
def freeArrs (avail : BId → Bool → List Nat) (used : List Place) (b : BId) (cal : Bool) : List Nat :=
  (avail b cal).filter fun k => !used.any fun p => p.berth == b && p.arr == k

/-- The placement of R286 over a placement order; none where some stage finds no berth. -/
def placeStages (avail : BId → Bool → List Nat) : List Stage → List BId → List Place → Option (List Place)
  | [], _, used => some used
  | st :: sts, order, used =>
    let left := order.dropWhile fun b => (freeArrs avail used b st.calMode).length < st.arrays
    match left with
    | [] => none
    | b :: _ =>
      placeStages avail sts left
        (used ++ ((freeArrs avail used b st.calMode).take st.arrays).map fun k => { berth := b, arr := k, prog := 0 })

/-- The placement order: the harbour, then every other ACTIVE berth ascending modulo 8. -/
def placeOrder (s : State) (h : BId) : List BId :=
  ((upto 8).map fun i => bid (h.val + i)).filter fun b => live s b

/-- Berths that hold a stage, as a mask. -/
def berthsOf (pl : List Place) : Nat := maskOf 8 fun n => pl.any fun p => p.berth.val == n

def popCount8 (m : Nat) : Nat := ((upto 8).filter fun i => nbit m i).length

/-- SPLIT and MAX_BERTHS of the role's IMAGE record (R88). -/
def roleSplit (x : Berth) (role : Nat) : Bool := bitAt (x.recWord 13 role 0) 3
def roleMax (x : Berth) (role : Nat) : Nat := if roleSplit x role then fld (x.recWord 13 role 0) 18 16 else 1

/-- TRAY placement, or the code of R285 that refuses it. -/
def placeTray (s : State) (h : BId) (g : Nat) (img : GImage) (bad : List (Nat × Nat)) : Option (List Place) × Nat :=
  let split := roleSplit (s.at h) (g + 1)
  let order := if split then placeOrder s h else [h]
  match placeStages (availArrs s g bad) img.stages order [] with
  | some pl => if popCount8 (berthsOf pl) ≤ roleMax (s.at h) (g + 1) then (some pl, 0) else (none, if split then 7 else 6)
  | none => (none, if split then 7 else 6)

/-- SLOT placement on one berth. -/
def placeSlot (s : State) (b : BId) (g : Nat) (img : GImage) (bad : List (Nat × Nat)) : Option (List Place) :=
  placeStages (availArrs s g bad) img.stages [b] []

/-- ACTIVE populated berths. -/
def activePop (s : State) (h : BId) : List BId :=
  allB.filter fun b => live s b && nbit (s.at h).populated b.val

/-! ### Load results -/

/-- PG_LOAD (R299). -/
def logLoad (b : BId) (g code berth : Nat) (gr : Graph) (img : GImage) (s : State) : State :=
  logRec b 0x38 (pack [(g, 0, 1), (b2n img.slotScope, 1, 1), (code, 8, 8), (berth, 16, 3)]) (wordOf img.ver)
    (pack [(popCount8 (berthsOf gr.place), 0, 8), (gr.progN, 8, 8), (gr.verN, 16, 8)]) s

/-- The image role's state on the harbour (PL_IMG_STAT). -/
def setImgSt (role : Nat) (st : ImgState) (s : State) : State :=
  s.onTray fun t => { t with img := { t.img with roles := vmod t.img.roles role fun r => { r with st := st } } }

/-- A REQUIRED role fails: SY_START.FAIL of the ACTIVE berths (R137). -/
def startFail (role : Nat) (s : State) : State :=
  iter allB (fun b t =>
    if (t.at b).sy.st == .active && bitAt ((t.at b).recWord 13 role 0) 2 && !nbit (t.at b).sy.images role then
      t.upd b fun x => { x with sy := { x.sy with fail := if role == 0 then 3 else 4 } }
    else t) s

/-- The image of a role has loaded on berth b (SY_START.IMAGES); a failed start ends once every REQUIRED image has. -/
def imageOn (b : BId) (role : Nat) (s : State) : State :=
  let s := s.upd b fun x => { x with sy := { x.sy with images := x.sy.images ||| 2 ^ role } }
  if (s.at b).sy.fail ≥ 3 && imagesLoaded s b then s.upd b fun x => { x with sy := { x.sy with fail := 0 } } else s

/-- A refused image leaves a loaded image of its role untouched (R378); else the role has FAILED (R376). -/
def roleFails (role : Nat) (s : State) : State :=
  if (vget s.tray.img.roles role).st == .loaded then s else startFail role (setImgSt role .failed s)

/-- The role takes an accepted image. -/
def roleTakes (role : Nat) (r : ImgRole) (s : State) : State :=
  s.onTray fun t => { t with img := { t.img with roles := vset t.img.roles role r } }

/-- A load is refused with a code of R285. -/
def loadRefused (h : BId) (g code berth index : Nat) (img : GImage) (s : State) : State :=
  let s := updPg h (fun p => { p with errCode := code, errTarget := g, errBerth := berth, errIndex := index }) s
  logLoad h g code berth {} img s

/-- A load that was accepted fails at PROG: every instance becomes EMPTY. -/
def loadAborted (g berth : Nat) (home : BId) (s : State) : State :=
  let gr := graphOf s home g
  let h := s.harbour.getD home
  let (f, s) := s.draw
  let s := updPg h (fun p => { p with errCode := 8, errTarget := g, errBerth := berth, errIndex := 0xFFFF }) s
  let s := logLoad h g 8 berth gr (imgOf gr) s
  startFail (g + 1) (setImgSt (g + 1) .failed (iter (homes s g) (fun b t => emptyGraph b g (f.toNat % 256) t) s))

/-- A re-placement is impossible: FAILED, and SAFE values (R291, R293). -/
def replaceFails (h : BId) (g cause : Nat) (s : State) : State :=
  let s := updGraph h g (fun gr => { gr with place := [] }) (dropInf h g s)
  writeSafe h g (setGst h g .failed cause s)

/-! ### The loader (R287) -/

/-- Takes one particular free buffer for berth b's policy-engine hand, where a request may be granted. -/
def takeExact (b : BId) (i : Nat) (s : State) : Option State :=
  match chooseShare s ⟨b, 4⟩ false with
  | some _ => some <| (s.updDk b fun d => { d with held := insHeld i ⟨b, 4⟩ d.held }).updDk b fun d =>
      { d with peak := vmod d.peak 4 fun p => max p (holding s ⟨b, 4⟩ + 1) }
  | none => none

/-- The lowest run of n consecutive free local buffers. -/
def freeRun (s : State) (b : BId) (n : Nat) : Option Nat :=
  let fr := freeBufs s b
  fr.find? fun i => (upto n).all fun j => fr.contains (i + j)

/-- Takes n consecutive local buffers for the policy-engine hand: the first one, or none. -/
def takeRun (b : BId) (n : Nat) (s : State) : Option (Nat × State) :=
  match freeRun s b n with
  | none => none
  | some i => ((upto n).foldl (fun t j => t.bind (takeExact b (i + j))) (some s)).map fun t => (i, t)

/-- The bytes of the harbour's flash. -/
def hbrFlashAt (s : State) (off n : Nat) : List Byte :=
  match s.harbour with
  | some h => memRead flashD (s.at h).flash off n
  | none => []

/-- A tile's weight block in the store. -/
def tileBlock (s : State) (gr : Graph) (t : Nat) : List Byte :=
  let g := imgOf gr
  match gr.store, g.tiles[t]? with
  | some base, some tile => hbrFlashAt s (base + blockAt g t) (blockLen g tile)
  | _, _ => []

/-- The store still carries the digest of the load (R376). -/
def storeOk (s : State) (gr : Graph) : Bool :=
  let g := imgOf gr
  match gr.store with
  | some base => digestBytes (sha384 (hbrFlashAt s base (blockAt g g.tiles.length))) == g.digest
  | none => false

/-- Whether an array already holds exactly a block (R287): every live copy at its level, as last sensed or programmed. -/
def holdsBlock (a : Arr) (bs : List Byte) : Bool :=
  let n := logicalN a.calMode
  bs.length == 256 * n && (upto 256).all fun r => (upto n).all fun o =>
    let u := ((bs[n * r + o]?).getD 0).toNat
    (liveCopies a o).all fun p => cellAt a r (2 * p) == u % 16 && cellAt a r (2 * p + 1) == u / 16

def setProg (home : BId) (g t n : Nat) (s : State) : State :=
  updGraph home g (fun gr => { gr with place := gr.place.modify t fun p => { p with prog := n } }) s

/-- A graph whose tiles the loader programs. -/
def wantsLoad (gr : Graph) : Bool := gr.st == .loading || gr.st == .stalled || gr.st == .fallback

/-- The next tile for berth b: home, graph and tile, in the order of the homes, policy first. -/
def nextTile (s : State) (b : BId) : Option (BId × Nat × Nat) :=
  (allB.flatMap fun h => [(h, 0), (h, 1)]).findSome? fun hg =>
    let gr := graphOf s hg.1 hg.2
    if wantsLoad gr then
      (gr.place.findIdx? fun p => p.berth == b && p.prog == 0).map fun t => (hg.1, hg.2, t)
    else none

/-- The place of a failed tile on the next available array of its berth, or, where the role's image may span berths, of its stage and
the later ones on later berths (R286, R287). -/
def moveTile (s : State) (home : BId) (g t : Nat) (gr : Graph) : Option (List Place) :=
  let img := imgOf gr
  let p := (gr.place[t]?).getD default
  let si := stageOfLayer img ((img.tiles[t]?).getD default).layer
  let avail := availArrs s g gr.bad
  match freeArrs avail gr.place p.berth (stageAt img si).calMode with
  | k :: _ => some (gr.place.set t { berth := p.berth, arr := k, prog := 0 })
  | [] =>
    let n := (img.stages.take si).foldl (fun a st => a + st.arrays) 0
    let order := (placeOrder s home).dropWhile (· != p.berth) |>.drop 1
    let later := if img.slotScope || !roleSplit (s.at home) (g + 1) then [] else order
    let pl := placeStages avail (img.stages.drop si) later (gr.place.take n)
    pl.bind fun q => if popCount8 (berthsOf q) ≤ roleMax (s.at home) (g + 1) then some q else none

/-- An order of the load ended in another result than OK (R287). -/
def tileFailed (home : BId) (g t : Nat) (s : State) : State :=
  let gr := graphOf s home g
  match gr.place[t]? with
  | none => s
  | some p =>
    let s := updGraph home g (fun gr => { gr with bad := (p.berth.val, p.arr) :: gr.bad }) s
    match moveTile s home g t (graphOf s home g) with
    | some pl => updGraph home g (fun gr => { gr with place := pl }) s
    | none => if gr.st == .loading then loadAborted g p.berth.val home s else replaceFails home g 3 s

/-- The berth's load order has ended: its buffers are free and its tile has passed or failed. -/
def loaderDone (b : BId) (s : State) : State :=
  match (s.at b).pg.ord with
  | none => s
  | some o =>
    if (s.at b).ar.phase != .idle then s
    else
      let s := iter o.bufs (fun i t => deckRelease (512 * b.val + i) t) (updPg b (fun p => { p with ord := none }) s)
      let gr := graphOf s o.home o.g
      match gr.place[o.tile]? with
      | none => s
      | some p =>
        if p.berth != b || p.arr != (s.at b).ar.cmdArr || p.prog != 1 then s
        else if (s.at b).ar.result != 0 then tileFailed o.home o.g o.tile s
        else setProg o.home o.g o.tile 2 (updGraph o.home o.g (fun gr => { gr with
          progN := gr.progN + b2n (!o.verify), verN := gr.verN + b2n o.verify }) s)

/-- Sends tile t of graph (home, g) to berth b and orders PROG or VERIFY (R287). -/
def loaderStart (b home : BId) (g t : Nat) (s : State) : State :=
  let gr := graphOf s home g
  let k := ((gr.place[t]?).getD default).arr
  let n := logicalN (arrOf s b k).calMode
  let bs := tileBlock s gr t
  if !storeOk s gr then tileFailed home g t s
  else
    match takeRun b n s with
    | none => s
    | some (i, s) =>
      let s := (dataSend bs.length (s.harbour.getD b) b s).deckWrite b (256 * i) bs
      let verify := ((gr.place[t]?).getD default).keep || holdsBlock (arrOf s b k) bs
      let s := updAr b (fun e => { e with src := wordOf (0x20100000 + 256 * i) }) s
      let s := updPg b (fun p => { p with ord := some ⟨g, home, t, (upto n).map (i + ·), verify⟩ }) (setProg home g t 1 s)
      loaderDone b (arOrder b 11 (if verify then 2 else 1) k 0 s)

/-- The loader of berth b: it goes on while its engine is idle and a tile waits. -/
def loaderPump (b : BId) : Nat → State → State
  | 0, s => s
  | n + 1, s =>
    if (s.at b).pg.ord.isSome || (s.at b).ar.phase != .idle then s
    else match nextTile s b with
      | none => s
      | some (h, g, t) =>
        let s' := loaderStart b h g t s
        if (s'.at b).pg.ord.isSome then s' else loaderPump b n s'

/-- Every berth's loader. -/
def loadersPump (s : State) : State := iter allB (fun b t => loaderPump b 64 t) s

/-- After any act of berth b's array engine. -/
def afterArray (b : BId) (s : State) : State :=
  match (s.at b).pg.ord with
  | none => loaderPump b 64 s
  | some _ => loadersPump (loaderDone b s)

/-! ### Loading an image (R285, R288) -/

/-- The graph instance starts to load. -/
def startLoad (h : BId) (g : Nat) (img : GImage) (base : Option Nat) (pl : List Place) (cause : Nat) (s : State) : State :=
  let n := img.binds.length
  let s := updGraph h g (fun gr => { gr with
    img := some img, store := base, place := pl, bad := [], progN := 0, verN := 0, stallMarks := 0, inf := none
    outs := List.replicate n {}, committed := List.replicate n 0, cmpDue := false }) s
  setGst h g .loading cause s

/-- Unloads a target before its new load, as UNLOAD does (R288, R296). -/
def unloadTarget (g : Nat) (s : State) : State :=
  let s := iter (homes s g) (fun h t => emptyGraph h g 4 (writeSafe h g t)) s
  if g == 1 then clearStats s else s

/-- Step 6 of R285: the first stage that fits on no berth. -/
def stageFail (s : State) (g : Nat) (img : GImage) : Option Nat :=
  firstBad img.stages fun _ st => allB.any fun b => setArrs s g b st.calMode ≥ st.arrays

/-- Steps 2 to 6 of R285: a failing code and index. -/
def loadCheck (s : State) (g : Nat) (bs : List Byte) : Option (Nat × Nat) :=
  let img := readImage bs
  if !formatOk bs then some (1, 0xFFFF)
  else if !roleOk bs g then some (2, 0xFFFF)
  else match tableFail bs with
    | some i => some (3, i)
    | none => match scopeFail img with
      | some i => some (4, i)
      | none => (stageFail s g img).map fun i => (5, i)

/-- The last placement before a load keeps the target's own arrays available: they are released first (R288). -/
def released (s : State) (g : Nat) : State :=
  iter allB (fun h t => updGraph h g (fun gr => { gr with place := [] }) t) s

/-- A policy-side image that has passed the image checks (R285): `bs` its header and body at flash offset `base`, and
`r` its role's registers. -/
def policyLoad (h : BId) (g : Nat) (base : Nat) (r : ImgRole) (bs : List Byte) (s : State) : State :=
  let img := { readImage bs with digest := digestBytes (sha384 bs) }
  let busy := (allB.any fun b => (graphOf s b g).st == .loading) || (g == 1 && (s.at h).pg.swapDue)
  if busy then loadRefused h g 9 0 0xFFFF img s
  else match loadCheck s g bs with
    | some (c, i) => roleFails (g + 1) (loadRefused h g c 0 i img s)
    | none =>
      let v := released s g
      let (f, s) := s.draw
      let cause := f.toNat % 256
      if img.slotScope then
        let bs := activePop s h
        match bs.find? fun b => (placeSlot v b g img []).isNone with
        | some b => roleFails (g + 1) (loadRefused h g 6 b.val 0xFFFF img s)
        | none =>
          let s := unloadTarget g s
          let s := iter bs (fun b t => startLoad b g img (some base) ((placeSlot v b g img []).getD []) cause t) s
          loadersPump (roleTakes (g + 1) { r with st := .loading } s)
      else match placeTray v h g img [] with
        | (none, c) => roleFails (g + 1) (loadRefused h g c (if c == 6 then h.val else 0) 0xFFFF img s)
        | (some pl, _) =>
          let s := startLoad h g img (some base) pl cause (unloadTarget g s)
          loadersPump (roleTakes (g + 1) { r with st := .loading } s)

/-- Every tile has passed (R288). -/
def loadComplete (h : BId) (g : Nat) (s : State) : State :=
  let gr := graphOf s h g
  if gr.st != .loading || !gr.place.all (·.prog == 2) then s
  else
    let (f, s) := s.draw
    let s := logLoad h g 0 0 gr (imgOf gr) (setGst h g .running (f.toNat % 256) s)
    let s := if (imgOf gr).slotScope then imageOn h (g + 1) s else iter allB (fun b t => imageOn b (g + 1) t) s
    if (homes s g).all fun b => (graphOf s b g).st != .loading then setImgSt (g + 1) .loaded s else s

/-! ### Re-placement (R293) -/

/-- The placement of a graph anew. -/
def placeAgain (s : State) (h : BId) (g : Nat) : Option (List Place) :=
  let gr := graphOf s h g
  let img := imgOf gr
  let v := updGraph h g (fun gr => { gr with place := [] }) s
  if gr.store.isNone then none
  else if img.slotScope then (if live s h then placeSlot v h g img [] else none)
  else (placeTray v h g img []).1

/-- Re-placement of the graph homed on h (R293): cause 3 REPLACE or 7 TAKEOVER. -/
def rePlace (h : BId) (g cause : Nat) (s : State) : State :=
  let gr := graphOf s h g
  match placeAgain s h g with
  | none => if gr.st == .loading then loadAborted g h.val h s else replaceFails h g cause s
  | some pl =>
    let s := dropInf h g s
    let old := gr.place
    let kept (i : Nat) (p : Place) : Bool := (old[i]?).any fun q => q.berth == p.berth && q.arr == p.arr && q.prog == 2
    let s := updGraph h g (fun gr => { gr with
      place := pl.zipIdx.map fun e => { e.1 with keep := kept e.2 e.1 }, bad := [], progN := 0, verN := 0
      stallMarks := if gr.st == .stalled then gr.stallMarks else 0 }) s
    let st := if gr.st == .loading || gr.st == .failed then GSt.loading else GSt.stalled
    loadersPump (setGst h g st cause s)

/-- A placed array or a stage's berth has gone (R293). -/
def placeGone (s : State) (gr : Graph) : Bool :=
  gr.place.any fun p => !live s p.berth || (arrOf s p.berth p.arr).st == .retired

/-- Flash offset of a role's region in firmware slot A or B (R92, R372). -/
def regionBase (slotB : Bool) (role : Nat) : Nat := (if slotB then 0x01100000 else 0x00100000) + 0x00100000 * role

/-- The store of an image with a digest on the harbour's own flash (R379). -/
def findStore (s : State) (g : GImage) : Option Nat :=
  [regionBase false 1, regionBase true 1, regionBase false 2, regionBase true 2].find? fun o =>
    digestBytes (sha384 (hbrFlashAt s o (blockAt g g.tiles.length))) == g.digest

/-- A load that a harbour takeover interrupts starts again on the new harbour from step 1 of R285 (R298): a TRAY graph homed on it, or a
SLOT graph some instance of which still loads. -/
def reload (h : BId) (g : Nat) (s : State) : State :=
  match allB.find? fun b => (graphOf s b g).st == .loading with
  | none => s
  | some b =>
    let gr := graphOf s b g
    match gr.store with
    | none => loadAborted g h.val b s
    | some base =>
      let img := imgOf gr
      let s := iter (allB.filter fun n => (graphOf s n g).st == .loading) (fun n t => emptyGraph n g 7 t) s
      policyLoad h g base (vget s.tray.img.roles (g + 1)) (hbrFlashAt s base (blockAt img img.tiles.length)) s

/-- After a harbour takeover (R293, R298, R379): TRAY graphs move to the new harbour, and every graph finds its store on
the new harbour's flash. -/
def policyTakeover (h : BId) (s : State) : State :=
  let copy := (s.at h).tray.pg
  let s := iter [0, 1] (fun g t => iter (allB.filter (· != h)) (fun b u =>
    updGraph b g (fun gr => if (imgOf gr).slotScope then gr else {}) u) t) s
  let s := iter [0, 1] (fun g t =>
    let c := vget copy g
    if (imgOf c).slotScope || c.st == .empty then t else updGraph h g (fun _ => { c with inf := none }) t) s
  let s := iter [0, 1] (fun g t => iter allB (fun b u =>
    updGraph b g (fun gr => { gr with store := gr.img.bind (findStore u) }) u) t) s
  iter [0, 1] (fun g t =>
    let gr := graphOf t h g
    if !(imgOf gr).slotScope && (gr.st == .running || gr.st == .stalled || gr.st == .fallback) then rePlace h g 7 t
    else reload h g t) s

end Sys2Proof.Machine
end

