-- ==== Sys2Proof/Machine/Policy.lean ====
section
/-! DEFINITION. Running policy graphs (R289 to R293), the dummy and promotion (R295 to R297), and the commands of the
array engine with what they mean to the loader. -/
namespace Sys2Proof.Machine

/-! ### An inference (R289, R290) -/

/-- Every stage's berth is ACTIVE and reached from the home (R290). -/
def stagesReached (s : State) (h : BId) (gr : Graph) : Bool :=
  gr.place.all fun p => live s p.berth && (hops s h p.berth).isSome

/-- Whether every placed array is ready and every stage's berth reached (R290). -/
def canInfer (s : State) (h : BId) (gr : Graph) : Bool :=
  stagesReached s h gr && gr.place.all fun p => p.prog == 2 && passesOn (arrOf s p.berth p.arr)

/-- An incomplete inference (R290, R291, R295). -/
def incomplete (h : BId) (g : Nat) (late : Bool) (s : State) : State :=
  let s := updGraph h g (fun gr => { gr with
    incomplete := sinc gr.incomplete, overrun := sadd gr.overrun (b2n late) }) (dropInf h g s)
  let s := if g == 1 then updPg h (fun p => { p with dinc := sinc p.dinc }) s else s
  if (graphOf s h g).st == .running then
    setGst h g .stalled 1 (updGraph h g (fun gr => { gr with stallMarks := 0 }) s)
  else s

/-- Features computed from their raw values; a source that has left ACTIVE since the start reads 0 and is counted too (R273, R298). -/
def gatherDone (h : BId) (g : Nat) (s : State) : State :=
  let gr := graphOf s h g
  match gr.inf with
  | none => s
  | some i =>
    let fs := (imgOf gr).feats.zip (i.feats.zip i.miss)
    let gone := fs.filter fun e => featMissed s h gr e.1 && !e.2.2
    let input := fs.map fun e => featValue e.1 (if featMissed s h gr e.1 then 0 else e.2.1)
    let s := updPg h (fun p => { p with featMiss := sadd p.featMiss gone.length }) s
    updGraph h g (fun gr => { gr with inf := some { i with step := .pass 0 0, input := input } }) s

/-- Features are sampled at a start boundary (R273): `s0` is the state before the boundary's acts. A source that is not ACTIVE gives 0
and is counted; remote ones travel to the home (R289). -/
def sample (s0 : State) (h : BId) (g mark : Nat) (s : State) : State :=
  let gr := graphOf s h g
  let fs := (imgOf gr).feats
  let miss := fs.map (featMissed s0 h gr)
  let raws := fs.map fun f => if featMissed s0 h gr f then 0 else rawFeature s0 h gr mark f
  let s := updPg h (fun p => { p with featMiss := sadd p.featMiss (miss.filter id).length }) s
  let s := iter (allB.filter fun b => fs.any fun f => berthSrc f && entryBerth h gr f.berth == b) (fun b t => accessSend 102 b h t) s
  updGraph h g (fun gr => { gr with inf := some ⟨.gather, raws, [], [], false, miss⟩ }) s

/-- A sampled inference starts (R289): it counts, and goes on at once where no feature comes from another berth. -/
def begun (h : BId) (g : Nat) (s : State) : State :=
  let gr := graphOf s h g
  let s := updGraph h g (fun gr => { gr with runs := sinc gr.runs }) s
  if !canInfer s h gr then incomplete h g false s
  else if anyRemote h gr then s else gatherDone h g s

/-- The start of an inference (R289). -/
def startInference (s0 : State) (h : BId) (g mark : Nat) (s : State) : State := begun h g (sample s0 h g mark s)

/-- Whether graph g of home h starts an inference at mark m (R289, R292). -/
def startsAt (s : State) (h : BId) (g m : Nat) : Bool :=
  let gr := graphOf s h g
  (gr.st == .running || gr.st == .stalled || gr.st == .fallback) && !s.dev.sleep
    && m % 2 ^ (imgOf gr).cadence == (imgOf gr).phase

/-- The commit of a complete inference, or the end of one that is not complete (R290). -/
def commit (h : BId) (g : Nat) (s : State) : State :=
  let gr := graphOf s h g
  match gr.inf with
  | none => s
  | some i =>
    if !stagesReached s h gr then incomplete h g false s
    else if i.step != .complete then incomplete h g true s
    else
      let s := if g == 0 then writeAll h true s
        else updGraph h g (fun gr => { gr with committed := gr.outs.map (·.value), cmpDue := true }) s
      updGraph h g (fun gr => { gr with inf := none }) s

/-- The mark m is the boundary at which a promotion's swap takes place (R297): the dummy's next start. -/
def swapAt (s : State) (m : Nat) : Bool :=
  match s.harbour, (homes s 1).head? with
  | some h, some b =>
    let img := imgOf (graphOf s b 1)
    (s.at h).pg.swapDue && m % 2 ^ img.cadence == img.phase
  | _, _ => false

/-- Graph g of home h at mark m (R289, R297): it starts an inference; where the swap takes place, the old policy starts none, and the
dummy's features are sampled for its first inference as policy. -/
def startMark' (s0 : State) (h : BId) (m g : Nat) (s : State) : State :=
  if !startsAt s h g m then s
  else if !swapAt s m then startInference s0 h g m s
  else if g == 1 then sample s0 h 1 m s else s

/-- A mark goes by in STALLED (R291, R292). -/
def stallCount (sleep : Bool) (gr : Graph) : Graph :=
  { gr with stallMarks := if gr.st == .stalled && !sleep then gr.stallMarks + 1 else gr.stallMarks }

/-- The policy-and-dummy acts of a mark boundary on berth h (R65, R289 to R293): the stall count of the mark that ends, commits,
re-placement of graphs whose place has gone, and the starts of mark m. -/
def policyMark (s0 : State) (h : BId) (m : Nat) (s : State) : State :=
  let each (f : Nat → State → State) (s : State) : State := iter [0, 1] f s
  let s := each (fun g t => updGraph h g (stallCount t.dev.sleep) t) s
  let s := each (commit h) s
  let s := each (fun g t => if placeGone t (graphOf t h g) then rePlace h g 3 t else t) s
  each (startMark' s0 h m) s

/-- FEATURE_RECEIVE (R289): the remote features of graph g homed on h have arrived. -/
def featureReceive (h : BId) (g : Nat) (s : State) : State :=
  match (graphOf s h g).inf with
  | some i => if i.step == .gather then gatherDone h g s else s
  | none => s

def execFeatureReceive (h : BId) (g : Fin 2) (s : State) : Host.Outcome State Fault Refusal :=
  ran s (featureReceive h g.val s.begin)

/-! ### Passes (R271, R272) -/

/-- Indexes in the tile table of the tiles of (layer j, column block c), in row order. -/
def passTiles (g : GImage) (j c : Nat) : List Nat :=
  (upto g.tiles.length).filter fun t => (g.tiles[t]?).any fun x => x.layer == j && x.colBlk == c

/-- The berth of a stage: that of its layer's tiles. -/
def layerBerth (gr : Graph) (j : Nat) : Option BId :=
  ((passTiles (imgOf gr) j 0)[0]?).bind fun t => (gr.place[t]?).map (·.berth)

/-- The home whose graph g waits for a pass on berth b. -/
def passHome (s : State) (b : BId) (g : Nat) : Option BId :=
  allB.find? fun h => match (graphOf s h g).inf with
    | some i => (match i.step with
      | .pass j _ => layerBerth (graphOf s h g) j == some b
      | _ => false)
    | none => false

/-- The outputs of a pass: lanes within the layer, through the post-unit (R271, R246). -/
def passOuts (g : GImage) (j c : Nat) (acc : Vector Nat 64) (x : Nat) : List (Int × Bool) :=
  let l := layerAt g j
  let w := logicalN (layerMode g j)
  ((upto w).filter fun i => c * w + i < l.outN).map fun i =>
    postUnit (vget acc i) x ((g.biases[biasAt g j + c * w + i]?).getD 0) l.m l.sh l.act l.fmt l.lo l.hi

/-- Where the inference stands after layer j's column block c. -/
def afterPass (gr : Graph) (j c : Nat) : InfStep :=
  let g := imgOf gr
  if c + 1 < colBlks g j then .pass j (c + 1)
  else if j + 1 ≥ g.layers.length then .outputs
  else if layerBerth gr j == layerBerth gr (j + 1) then .pass (j + 1) 0
  else .travel (j + 1)

/-- The arrays of column block c of layer j with their inputs: row block r takes inputs 256r to 256r + 255, those beyond IN as 0
(R271); `ds` holds the deviations of the raw codes in row-block order. -/
def passArrs (s : State) (b : BId) (gr : Graph) (input : List Nat) (j c : Nat) (ds : Vector (BitVec 11520) 4) : List PassArr :=
  (passTiles (imgOf gr) j c).zipIdx.map fun t =>
    (arrOf s b ((gr.place[t.1]?).getD default).arr, (input.drop (256 * t.2)).take 256, ds.toList.getD t.2 0)

/-- A pass of graph (h, g) on berth b ends (R245, R271): the pass names every array of the column block, so that none is chained. -/
def graphPass (b h : BId) (g j c : Nat) (ds : Vector (BitVec 11520) 4) (s : State) : State :=
  let gr := graphOf s h g
  match gr.inf with
  | none => s
  | some i =>
    if !stagesReached s h gr then incomplete h g false s
    else
      let img := imgOf gr
      let s := takePass b false (passArrs s b gr i.input j c ds) s
      let outs := passOuts img j c (s.at b).ar.acc (s.at b).ar.xsum
      let sat := outs.any (·.2)
      let new := (if c == 0 then [] else i.outs) ++ outs.map (·.1)
      let st := afterPass gr j c
      let done := c + 1 == colBlks img j
      let last := j + 1 == img.layers.length
      let inf : Infer := { i with
        step := st, outs := new, sat := i.sat || sat
        input := if done && !last then new.map (·.toNat) else i.input }
      let s := updGraph h g (fun gr => { gr with
        inf := some inf, satCnt := sadd gr.satCnt (b2n (sat && !i.sat)) }) s
      let s := match st with
        | .travel k => dataSend inf.input.length b ((layerBerth gr k).getD b) s
        | _ => s
      runEnds gr.place s

/-- ARRAY_PASS_DONE (R245): a pass slot of berth b ends, with the deviations of the raw codes of up to four arrays. In SLEEP the array
clocks stand (R115). -/
def arrayPassDone (b : BId) (w : PassOf) (ds : Vector (BitVec 11520) 4) (s : State) : State :=
  let run (g : Nat) : State := match passHome s b g with
    | some h => (match (graphOf s h g).inf with
      | some i => (match i.step with
        | .pass j c => graphPass b h g j c ds s
        | _ => s)
      | none => s)
    | none => s
  if s.dev.sleep then s
  else match w with
    | .policy => run 0
    | .dummy => run 1
    | .diag => afterArray b (passDone b (ds.toList.getD 0 0) s)

def execArrayPassDone (b : BId) (w : PassOf) (ds : Vector (BitVec 11520) 4) (s : State) :
    Host.Outcome State Fault Refusal := ran s (arrayPassDone b w ds s.begin)

/-- STAGE_OUTPUT_RECEIVE (R272): a stage's output vector of graph g arrives on berth b and its passes start. -/
def stageReceive (b : BId) (g : Nat) (s : State) : State :=
  iter allB (fun h t =>
    match (graphOf t h g).inf with
    | some i => (match i.step with
      | .travel j =>
        if layerBerth (graphOf t h g) j == some b then
          updGraph h g (fun gr => { gr with inf := some { i with step := .pass j 0 } }) t
        else t
      | _ => t)
    | none => t) s

def execStageOutputReceive (b : BId) (g : Fin 2) (s : State) : Host.Outcome State Fault Refusal :=
  ran s (stageReceive b g.val s.begin)

/-- BINDINGS_FORMED (R274, R290, R291): every value is formed, and a stalled graph runs again. -/
def bindingsFormed (h : BId) (g : Nat) (s : State) : State :=
  let gr := graphOf s h g
  match gr.inf with
  | some i =>
    if i.step != .outputs then s
    else if !stagesReached s h gr then incomplete h g false s
    else
      let s := formAll h g (fun bd => scaleOut bd ((i.outs[bd.srcOut]?).getD 0)) s
      let s := updGraph h g (fun gr => { gr with inf := some { i with step := .complete } }) s
      if gr.st == .stalled || gr.st == .fallback then setGst h g .running 6 s else s
  | none => s

def execBindingsFormed (h : BId) (g : Fin 2) (s : State) : Host.Outcome State Fault Refusal :=
  ran s (bindingsFormed h g.val s.begin)

/-- FALLBACK_ENTRY (R291). -/
def fallbackEntry (h : BId) (g : Nat) (s : State) : State :=
  let gr := graphOf s h g
  if gr.st == .stalled && gr.stallMarks ≥ 256 then writeSafe h g (setGst h g .fallback 2 s) else s

def execFallbackEntry (h : BId) (g : Fin 2) (s : State) : Host.Outcome State Fault Refusal :=
  ran s (fallbackEntry h g.val s.begin)

/-- POLICY_LOAD_DONE (R288). -/
def execPolicyLoadDone (h : BId) (g : Fin 2) (s : State) : Host.Outcome State Fault Refusal :=
  ran s (loadComplete h g.val s.begin)

/-! ### The dummy's comparison (R295) -/

/-- Tolerance of a kind (PG_AGREE_TOL). -/
def tolOf (p : Pg) (kind : Nat) : Nat := fld p.tol (5 * kind - 1) (5 * kind - 5)

def absDiff (a b : Nat) : Nat := max a b - min a b

/-- The compared bindings of a dummy: kind and absolute deviation. -/
def deviations (s : State) (h : BId) : List (Nat × Nat) :=
  let gr := graphOf s h 1
  ((imgOf gr).binds.zip gr.outs).filterMap fun e =>
    if e.2.supp || targetGone s h gr e.1 then none
    else some (e.1.kind, absDiff e.2.value (targetNow s h gr e.1))

/-- DUMMY_COMPARE (R295). -/
def dummyCompare (h : BId) (s : State) : State :=
  if !(graphOf s h 1).cmpDue then s
  else
    let ds := deviations s h
    let bad (p : Pg) (k : Nat) : Bool := ds.any fun d => d.1 == k && d.2 > tolOf p k
    let s := updGraph h 1 (fun gr => { gr with cmpDue := false }) s
    updPg h (fun p => { p with
      dcmp := sinc p.dcmp
      dagree := sadd p.dagree (b2n (ds.all fun d => d.2 ≤ tolOf p d.1))
      ddis := Vector.ofFn fun i => sadd (vget p.ddis i.val) (b2n (bad p (i.val + 1)))
      dmaxdev := Vector.ofFn fun i =>
        ds.foldl (fun t d => if d.1 == i.val + 1 then max t d.2 else t) (vget p.dmaxdev i.val) }) s

def execDummyCompare (h : BId) (s : State) : Host.Outcome State Fault Refusal := ran s (dummyCompare h s.begin)

/-! ### Orders (R296, R297) -/

/-- PG_CMD_STAT of an order. -/
def pgResult (h : BId) (cmd res : Nat) (req : ReqId) (s : State) : State :=
  updPg h (fun p => { p with lastCmd := cmd, result := res, cmdReq := req.val }) s

/-- An order in berth h's window: refused with its result, or carried out. Outside the harbour's window, and while
BUSY, it has no effect. -/
def pgOrder (h : BId) (req : ReqId) (cmd : Nat) (pilotToo : Bool) (refuse : Nat) (act : State → State) (s : State) : State :=
  if !s.isHbr h || (s.at h).pg.swapDue then s
  else if !(req == 9 || req == 10 || (pilotToo && req.val == h.val)) then pgResult h cmd 4 req s
  else if refuse != 0 then pgResult h cmd refuse req s
  else act (pgResult h cmd 0 req s)

/-- UNLOAD (R296). -/
def unload (h : BId) (req : ReqId) (g guard : Nat) (s : State) : State :=
  pgOrder h req 1 true (if guard != 0x9A6D then 2 else if (homes s g).isEmpty then 1 else 0)
    (fun t => iter (homes t g) (fun b u => emptyGraph b g 4 (writeSafe b g u)) t) s

/-- REPLACE (R293, R296). -/
def replaceable (s : State) (g : Nat) (h : BId) : Bool :=
  let st := (graphOf s h g).st
  st == .stalled || st == .fallback || st == .failed

def replaceOrder (h : BId) (req : ReqId) (g : Nat) (s : State) : State :=
  pgOrder h req 4 true (if allB.any (replaceable s g) then 0 else 1)
    (fun t => iter (allB.filter (replaceable t g)) (fun b u => rePlace b g 3 u) t) s

/-- The statistics of a berth's dummy instance pass (R297). -/
def statsPass (s : State) (h b : BId) : Bool :=
  let p := (s.at b).pg
  let crit := (s.at h).pg.crit
  p.dcmp ≥ max 1024 (fld crit 31 16) && p.dagree * 1024 ≥ fld crit 10 0 * p.dcmp && p.dinc == 0

/-- The dummy image meets the POLICY IMAGE record (R88, R297). -/
def bindPass (s : State) (h : BId) : Bool :=
  match (homes s 1).head? with
  | none => false
  | some b =>
    let img := imgOf (graphOf s b 1)
    let x := s.at h
    let w := x.recWord 13 1 0
    let meets := if fld w 1 0 == 0 then
        wordsBytes ((upto 12).map fun i => x.recWord 13 1 (1 + i)) == img.digest
      else bitAt w (4 + img.keyIdx) && img.rollback ≥ fld w 15 8
    nbit img.roleOk 0 && x.hasRec 13 1 && meets && img.rollback ≥ vget x.ch.fuse 2

/-- PROMOTE (R297): the order is accepted and the swap waits for the dummy's start boundary. -/
def promote (h : BId) (req : ReqId) (guard : Nat) (s : State) : State :=
  let hs := homes s 1
  pgOrder h req 2 false
    (if guard != 0x9A6D then 2
     else if hs.isEmpty || hs.any (fun b => (graphOf s b 1).st != .running) then 1
     else if hs.any (fun b => !statsPass s h b) then 6
     else if !bindPass s h then 7 else 0)
    (updPg h fun p => { p with swapDue := true }) s

/-- The swap on one berth (R297): the dummy takes the policy's place in state RUNNING and starts its first inference as policy where its
features have been sampled at this boundary; counters stay. -/
def swapBerth (b : BId) (s : State) : State :=
  let s := dropInf b 0 s
  let p := graphOf s b 0
  let d := graphOf s b 1
  let new : Graph := { d with
    st := p.st, cmpDue := false, runs := p.runs, incomplete := p.incomplete, overrun := p.overrun, satCnt := p.satCnt }
  let old : Graph := { st := d.st, runs := d.runs, incomplete := d.incomplete, overrun := d.overrun, satCnt := d.satCnt }
  let s := updGraph b 0 (fun _ => new) s
  let s := updGraph b 1 (fun _ => old) s
  let s := setGst b 1 .empty 5 (setGst b 0 (if d.st == .empty then .empty else .running) 5 s)
  let s := updPg b (fun p => { p with swapped := !p.swapped, promotions := sinc8 p.promotions }) s
  if d.inf.isSome then begun b 0 s else s

/-- PROMOTE_SWAP (R297): at the dummy's start boundary, after that boundary's commits. -/
def promoteSwap (h : BId) (s : State) : State :=
  let d := (homes s 1).head?.map fun b => imgOf (graphOf s b 1)
  if !s.isHbr h || !(s.at h).pg.swapDue then s
  else match d with
    | none => s
    | some img =>
      if (s.at h).td.mark % 2 ^ img.cadence != img.phase then s
      else
        let s := iter allB swapBerth (updPg h (fun p => { p with swapDue := false }) s)
        logRec h 0x3A (wordOf img.ver) (wordOf (s.at h).pg.dcmp) (wordOf (s.at h).pg.dagree) s

def execPromoteSwap (h : BId) (s : State) : Host.Outcome State Fault Refusal := ran s (promoteSwap h s.begin)

/-! ### Commands of the array engine (chapter 08) -/

/-- ROW_SENSE_DONE (R252): sensed levels of the row, four bits a column, and the columns between bands. -/
def execRowSenseDone (b : BId) (w : BitVec 640) (mid : BitVec 160) (s : State) : Host.Outcome State Fault Refusal :=
  ran s (afterArray b (rowSenseDone b w mid s.begin))

/-- PROG_ROUND_DONE (R253). -/
def execProgRoundDone (b : BId) (w : BitVec 640) (mid : BitVec 160) (s : State) : Host.Outcome State Fault Refusal :=
  ran s (afterArray b (progRoundDone b w mid s.begin))

/-- CALIBRATION_DONE (R259): the deviations of the 256 raw codes of each of the levels 0, 5, 10 and 15. -/
def execCalibrationDone (b : BId) (k : Fin 8) (ds : BitVec 9216) (s : State) : Host.Outcome State Fault Refusal :=
  ran s (afterArray b (calibrationDone b k.val ds s.begin))

/-- TEST_SLOT (R263): the deviations of the raw codes of the four masks, nine bits each. -/
def execTestSlot (b : BId) (k : Fin 8) (cs : BitVec 5760) (s : State) : Host.Outcome State Fault Refusal :=
  ran s (afterArray b (testSlot b k.val cs s.begin))

end Sys2Proof.Machine
end

