-- ==== Sys2Proof/Machine/Images.lean ====
section
/-! DEFINITION. Images (R372 to R379): their regions, checks and loading; pilot starts and restarts (R365, R368 to
R371). -/
namespace Sys2Proof.Machine

/-! ### Keys (R91) -/

/-- Key slot j of a berth is programmed with the hash of the key octets, and not revoked. -/
def keyMatches (x : Berth) (j : Nat) (key : List Byte) : Bool :=
  j ≤ 3 && vget x.ch.keys j != 0 && !nbit x.ch.revoked j
    && leBytes 48 (vget x.ch.keys j).toNat == digestBytes (sha384 key)

/-- The signature over the bytes verifies with the key. -/
def sigVerifies (key sig bytes : List Byte) : Bool := ecdsaVerify key sig (sha384 bytes)

/-- REQ_ID admits this part and stepping (R72). -/
def reqIdOk (n : Nat) : Bool := n / 65536 == 0x7438 && (n % 65536 == 0 || n % 65536 == 0x4201)

/-! ### Regions and checks (R372 to R375) -/

/-- Size of a role's region (R372). -/
def regionSize (role : Nat) : Nat := if role == 3 then 0x00D00000 else 0x00100000

def roleMagic (role : Nat) : Nat := if role == 1 || role == 2 then 0x47505450 else 0x57465450

def flashAt (s : State) (h : BId) (off n : Nat) : List Byte := memRead flashD (s.at h).flash off n

/-- A role's region holds an image (R372). -/
def holdsImage (s : State) (h : BId) (role : Nat) (slotB : Bool) : Bool :=
  leNat (flashAt s h (regionBase slotB role) 4) == roleMagic role

/-- ROLLBACK and IMG_VER of a region, for ranking. -/
def regionRank (s : State) (h : BId) (role : Nat) (slotB : Bool) : Nat × Nat :=
  let bs := flashAt s h (regionBase slotB role) 64
  (natAt bs 0x10 1, natAt bs 0x0C 4)

/-- The regions to check, best first (R374); `unread`: regions whose first bytes cannot be read. -/
def rankRegions (s : State) (h : BId) (role : Nat) (unreadA unreadB : Bool) : List Bool :=
  let a := !unreadA && holdsImage s h role false
  let b := !unreadB && holdsImage s h role true
  let ra := regionRank s h role false
  let rb := regionRank s h role true
  let good := if a && b then
      (if rb.1 > ra.1 || (rb.1 == ra.1 && rb.2 > ra.2) then [true, false] else [false, true])
    else (if a then [false] else []) ++ (if b then [true] else [])
  good ++ (if unreadA then [false] else []) ++ (if unreadB then [true] else [])

/-- BODY_LEN of the image in a region. -/
def bodyLenAt (s : State) (h : BId) (role : Nat) (slotB : Bool) : Nat :=
  natAt (flashAt s h (regionBase slotB role) 64) 8 4

/-- Header and body of the image in a region. -/
def imageBytes (s : State) (h : BId) (role : Nat) (slotB : Bool) : List Byte :=
  flashAt s h (regionBase slotB role) (64 + min (bodyLenAt s h role slotB) (regionSize role))

/-- Its trailer (R91). -/
def imageTrailer (s : State) (h : BId) (role : Nat) (slotB : Bool) : List Byte :=
  flashAt s h (regionBase slotB role + 64 + bodyLenAt s h role slotB) 192

/-- Step 2 of R375 on the header bytes. -/
def imageHeaderOk (role : Nat) (bs : List Byte) : Bool :=
  let len := natAt bs 8 4
  let common := natAt bs 0 4 == roleMagic role && natAt bs 4 2 == 1 && natAt bs 6 2 == 0x40 && natAt bs 0x10 1 ≤ 64
    && 64 + len + 192 ≤ regionSize role
  if role == 1 || role == 2 then
    common && natAt bs 0x1E 2 == 0 && ((bs.drop 0x28).take 24).all (· == 0) && natAt bs 0x12 1 < 4
  else
    common && natAt bs 0x12 1 == role && natAt bs 0x13 1 == 0 && ((bs.drop 0x1C).take 36).all (· == 0)
      && len % 4 == 0 && 4 ≤ len && len ≤ (if role == 0 then 262144 else 13631232)
      && natAt bs 0x14 4 < len && (role != 0 || natAt bs 0x14 4 % 2 == 0)

/-- Fuse class of a role (R375). -/
def fuseClass (role : Nat) : Nat := if role == 0 then 1 else if role == 3 then 3 else 2

/-- Step 3 of R375: REQ_ID. -/
def imageDevOk (role : Nat) (bs : List Byte) : Bool :=
  reqIdOk (natAt bs (if role == 1 || role == 2 then 0x20 else 0x18) 4)

/-- Steps 4 and 5 of R375 on header and body against berth x's chart and keys: 0, or the code of the first failure. -/
def imageBound (x : Berth) (role : Nat) (bs tr : List Byte) : Nat :=
  let w := x.recWord 13 role 0
  let key := natAt bs 0x11 1
  let byKey := fld w 1 0 == 1
  if !(if byKey then bitAt w (4 + key) && keyMatches x key (tr.take 96)
      else digestBytes (sha384 bs) == wordsBytes ((upto 12).map fun i => x.recWord 13 role (1 + i))) then 4
  else if byKey && !sigVerifies (tr.take 96) (tr.drop 96) bs then 5
  else 0

/-- The check of a region by the harbour (R375): 0, or the code of the first failure. -/
def imageCheck (s : State) (h : BId) (role : Nat) (slotB : Bool) (rdErr : Bool) : Nat :=
  let x := s.at h
  let bs := imageBytes s h role slotB
  let w := x.recWord 13 role 0
  let rb := natAt bs 0x10 1
  let bound := imageBound x role bs (imageTrailer s h role slotB)
  if rdErr then 1
  else if !imageHeaderOk role (bs.take 64) then 2
  else if !imageDevOk role bs then 3
  else if bound != 0 then bound
  else if rb < vget x.ch.fuse (fuseClass role) || (fld w 1 0 == 1 && rb < fld w 15 8) then 6
  else 0

/-- PL_IMAGE (R399). -/
def logImage (b : BId) (role : Nat) (slotB : Bool) (code : Nat) (berth ver rb : Nat) (s : State) : State :=
  logRec b 0x50 (pack [(role, 0, 2), (b2n slotB, 2, 1), (b2n (code == 0), 3, 1), (code, 8, 8), (berth, 16, 3)])
    (wordOf ver) (pack [(rb, 0, 8)]) s

def onImg (f : Img → Img) (s : State) : State := s.onTray fun t => { t with img := f t.img }

/-- The registers of a role whose region has passed. -/
def roleRec (s : State) (h : BId) (role : Nat) (slotB : Bool) (st : ImgState) : ImgRole :=
  let bs := imageBytes s h role slotB
  { st := st, slotB := slotB, store := true, rollback := natAt bs 0x10 1, keyIdx := natAt bs 0x11 1
    ver := natAt bs 0x0C 4, digest := digestBytes (sha384 bs), entry := natAt bs 0x14 4, bodyLen := natAt bs 8 4 }

/-! ### The pilot's image on a berth (R365, R376) -/

/-- Berths that receive PILOT_FW: ACTIVE and populated. -/
def pilotBerths (s : State) : List BId := match s.harbour with
  | some h => activePop s h
  | none => []

/-- Berth b has the stream of header and body in its TCM: its copy passes or fails (R376). -/
def pilotCopy (b : BId) (bytes : List Byte) (s : State) : Bool × State :=
  let r := vget s.tray.img.roles 0
  let ok := digestBytes (sha384 bytes) == r.digest && vget (s.at b).ch.fuse 1 ≤ r.rollback
  let s := s.tcmWrite b 0 ((bytes.drop 64).take 262144)
  if ok then
    (true, imageOn b 0 (s.updPl b fun p => { p with
      entry := r.entry, bodyLen := r.bodyLen, startDue := true, stream := false, retry := false, failedStreams := 0 }))
  else (false, s)

/-- A berth's copy fails: COPY (R376). -/
def copyFails (b : BId) (s : State) : State :=
  let r := vget s.tray.img.roles 0
  let s := onImg (fun i => { i with errCode := 8, errRole := 0, errSlot := r.slotB, errBerth := b.val }) s
  let s := logImage b 0 r.slotB 8 b.val r.ver r.rollback (s.updPl b fun p => { p with st := .off })
  s.upd b fun x => { x with sy := { x.sy with fail := 3 } }

/-- IMAGE_COPY_RECEIVE (R376): the broadcast of header and body arrives on berth b. -/
def imageCopyReceive (b : BId) (bytes : List Byte) (s : State) : State :=
  if !(s.at b).ch.locked || (s.at b).sy.st != .active || (s.at b).pl.st != .loading || (s.at b).pl.stream then s
  else
    let r := pilotCopy b bytes s
    if r.1 then r.2 else copyFails b r.2

def execImageCopyReceive (b : BId) (bytes : List Byte) (s : State) : Host.Outcome State Fault Refusal :=
  ran s (imageCopyReceive b bytes s.begin)

/-- PILOT_START (R365): at the mark boundary after the copy has passed. -/
def pilotStart (b : BId) (s : State) : State :=
  let x := s.at b
  if !x.pl.startDue || s.dev.sleep then s
  else
    let regs : Vector Word 31 := ((Vector.replicate 31 (0 : Word)).set 9 (wordOf b.val)).set 10 (wordOf (b2n x.sy.isHarbour))
    let regs := regs.set 11 (wordOf x.pl.bodyLen)
    let s := s.upd b fun x => { x with tcm := x.tcm.filter fun c => c.1 < x.pl.bodyLen }
    s.updPl b fun p => { p with
      st := .running, startDue := false, regs := regs, pc := wordOf (0x20000000 + p.entry), machine := true, csr := {}
      resv := none, waiting := false, wdog := 1000, kickAt := s.now }

def execPilotStart (b : BId) (s : State) : Host.Outcome State Fault Refusal := ran s (pilotStart b s.begin)

/-! ### Restarts (R369, R370) -/

/-- A DMA engine halts at its next burst boundary with PILOT_RESET (R369). -/
def dmaPilotReset (b : BId) (e : Nat) (s : State) : State :=
  let d := dmaOf s b e
  if d.st != .running then s
  else
    let s := s.updDm b e fun d => { d with haltDue := true }
    if isHws d d.cur && d.out.isEmpty then (dmaBoundary b e s).2 else s

/-- Orders of pilot b on any hawser whose completions are discarded when they arrive (R369). -/
def discardOrders (b : BId) (s : State) : State :=
  s.updAll fun _ x => { x with hw := { x.hw with tags := x.hw.tags.map fun t => match t with
    | .used o => if o.owner == .mailbox (Fin.ofNat 16 b.val) then .used { o with owner := .discarded } else t
    | t => t } }

/-- The pilot is halted and so retired (R370). -/
def pilotHalt (b : BId) (rule events : Nat) (s : State) : State :=
  let p := (s.at b).pl
  let s := s.updPl b fun p => { p with
    st := .halted, lastCause := 4, startDue := false, stream := false, retry := false }
  notice b 0x0C 0 rule events
    (logRec b 0x51 (pack [(4, 0, 4), (min (events + 1) 255, 8, 8)]) p.crash p.crashPc s)

/-- Counted restarts in the current window (PL_STAT.WINDOW). -/
def restartWindow (s : State) (b : BId) : Nat := inWindow (s.at b).pl.hist (s.hTide b) 600

/-- A restart of pilot b (R369): cause 1 WDOG, 2 ORDER, 3 LOAD. -/
def pilotRestart (b : BId) (cause : Nat) (s : State) : State :=
  let p := (s.at b).pl
  let counted := cause != 3
  let before := restartWindow s b
  let ev := histEvent p.hist (s.hTide b) 4 600
  let s := s.updPl b fun p => { p with
    st := .loading, lastCause := cause, crash := p.csr.mcause, crashPc := p.csr.mepc, restarts := sinc p.restarts
    hist := if counted then ev.2 else p.hist, irqEn := 0, msip := false, mtimecmp := 0xFFFFFFFFFFFFFFFF, csr := {}
    resv := none, waiting := false, startDue := false, failedStreams := 0, stream := true, retry := false }
  let s := s.upd b fun x => { x with sy := { x.sy with remotes := [], timedOut := x.sy.timedOut ++ x.sy.remotes } }
  let s := discardOrders b (releaseHand ⟨b, 5⟩ (dmaPilotReset b 1 (dmaPilotReset b 0 s)))
  if counted && ev.1 then pilotHalt b 0x21 before s
  else logRec b 0x51 (pack [(cause, 0, 4), (min (restartWindow s b) 255, 8, 8)]) p.csr.mcause p.csr.mepc s

/-- PILOT_WATCHDOG_EXPIRY (R368). -/
def watchdogExpiry (b : BId) (s : State) : State :=
  if (s.at b).pl.st != .running || s.dev.sleep then s
  else pilotRestart b 1 (s.updPl b fun p => { p with wdogExp := sinc p.wdogExp })

def execPilotWatchdogExpiry (b : BId) (s : State) : Host.Outcome State Fault Refusal := ran s (watchdogExpiry b s.begin)

/-- A write to PL_WDOG_KICK (R368): the berth's own pilot restarts the count with the key. -/
def watchdogKick (b : BId) (req : ReqId) (key : Nat) (s : State) : State :=
  if req.val == b.val && key == 0x4B1C then s.updPl b fun p => { p with kickAt := s.now } else s

/-- RESTART (R371): a write to PL_CMD. -/
def restartOrder (b : BId) (req : ReqId) (guard : Nat) (s : State) : State :=
  let res := if !(req == 9 || req == 10 || req == 11) then 3 else if guard != 0x7E57 then 2
    else if (s.at b).pl.st != .running then 1 else 0
  let s := s.updPl b fun p => { p with lastResult := res }
  if res == 0 then pilotRestart b 2 s else s

/-- RESTART_STREAM_DONE (R369, R370): the stream of the PILOT_FW region into berth b's TCM ends; `rdErr`: a flash read
failed. -/
def streamDone (b : BId) (rdErr : Bool) (s : State) : State :=
  if !(s.at b).pl.stream || s.dev.sleep then s
  else
    let r := vget s.tray.img.roles 0
    let bytes := match s.harbour with
      | some h => if r.store && !rdErr then imageBytes s h 0 r.slotB else []
      | none => []
    let c := pilotCopy b bytes s
    if !bytes.isEmpty && c.1 then c.2
    else
      let s := (if bytes.isEmpty then s else c.2).updPl b fun p => { p with
        stream := false, retry := true, failedStreams := p.failedStreams + 1 }
      if (s.at b).pl.failedStreams ≥ 3 then pilotHalt b 0x22 (restartWindow s b) s else s

def execRestartStreamDone (b : BId) (rdErr : Bool) (s : State) : Host.Outcome State Fault Refusal :=
  ran s (streamDone b rdErr s.begin)

/-- A write to PL_MSIP of berth b (R366). -/
def msipWrite (b : BId) (req : ReqId) (set : Bool) (s : State) : State :=
  if req.val < 8 || req == 11 then s.updPl b fun p => { p with msip := set } else s

/-! ### Loading (R374, R376, R378) -/

/-- The loader turns to its next job: a role of lock, then the LOAD order that waits. -/
def imgNext (s : State) : State :=
  onImg (fun i => match i.todo, i.order with
    | r :: rs, _ => { i with job := .role r, todo := rs, roles := vmod i.roles r fun q => { q with st := .loading } }
    | [], some (r, b) => { i with job := .region r b [] true, order := none }
    | [], none => { i with job := .idle }) s

/-- At lock (R133, R376): the roles with IMAGE records load in order. -/
def startImages (h : BId) (s : State) : State :=
  let roles := [0, 3, 1, 2].filter fun r => (s.at h).hasRec 13 r
  let s := iter (activePop s h) (fun b t => t.updPl b fun p => { p with st := .loading }) s
  imgNext (onImg (fun i => { i with todo := roles }) s)

/-- A role has no region left to try: FAILED, unless its loaded image stays (R376, R378). -/
def roleFailed (role code : Nat) (slotB order : Bool) (s : State) : State :=
  let s := onImg (fun i => { i with
    errCode := code, errRole := role, errSlot := slotB, errBerth := 0
    busy := if order then false else i.busy, result := if order then 8 else i.result }) s
  if order then s
  else
    let s := startFail role (setImgSt role .failed s)
    if role == 0 then iter (pilotBerths s) (fun b t => t.updPl b fun p => { p with st := .off }) s else s

/-- A region has passed: the role's effect (R376, R378). -/
def rolePassed (h : BId) (role : Nat) (slotB order : Bool) (s : State) : State :=
  let r := roleRec s h role slotB .loaded
  let bs := imageBytes s h role slotB
  let s := if order then onImg (fun i => { i with busy := false, result := 0 }) s else s
  if role == 1 || role == 2 then policyLoad h (role - 1) (regionBase slotB role) r bs s
  else
    let s := roleTakes role r s
    if role == 3 then iter (pilotBerths s) (fun b t => imageOn b 3 t) s
    else if order then onImg (fun i => { i with loadDue := true }) s
    else imageCopyReceive h bs (ringSend h none (.image bs) s)

/-- IMAGE_CHECK_DONE (R374, R375): the harbour finishes checking a region. `unreadA`, `unreadB`: regions of the role whose
first bytes could not be read; `rdErr`: a read of the checked region failed. -/
def imageCheckDone (h : BId) (unreadA unreadB rdErr : Bool) (s : State) : State :=
  if !s.isHbr h then s
  else
    let check (role : Nat) (slotB : Bool) (rest : List Bool) (order unread : Bool) (s : State) : State :=
      let code := imageCheck s h role slotB (rdErr || unread)
      let rk := roleRec s h role slotB .loaded
      let s := logImage h role slotB code 0 rk.ver rk.rollback s
      if code == 0 then imgNext (rolePassed h role slotB order s)
      else match rest with
        | b :: bs => onImg (fun i => { i with
            errCode := code, errRole := role, errSlot := slotB, errBerth := 0, job := .region role b bs order }) s
        | [] => imgNext (roleFailed role code slotB order s)
    match s.tray.img.job with
    | .idle => s
    | .role r => (match rankRegions s h r unreadA unreadB with
      | [] => imgNext (roleFailed r 7 false false s)
      | b :: bs => check r b bs false (if b then unreadB else unreadA) s)
    | .region r b rest order => check r b rest order (if b then unreadB else unreadA) s

/-- LOAD (R378): a write to PL_IMG_CMD in berth h's window. -/
def loadOrder (h : BId) (req : ReqId) (role : Nat) (slotB : Bool) (guard : Nat) (s : State) : State :=
  if !s.isHbr h || s.tray.img.busy then s
  else
    let res := if !(req == 9 || req == 10) then 4 else if guard != 0x71A6 then 2
      else if !(s.at h).ch.locked || !(s.at h).hasRec 13 role then 1 else 0
    let s := onImg (fun i => { i with lastCmd := 1, result := res, cmdReq := req.val }) s
    if res != 0 then s
    else
      let s := onImg (fun i => { i with busy := true, order := some (role, slotB) }) s
      if s.tray.img.job == .idle then imgNext s else s

/-- Image acts of a mark boundary: pilots restart for a LOAD of PILOT_FW (R378); failed streams start again at a tide
(R370). -/
def imagesMark (b : BId) (tideStart : Bool) (s : State) : State :=
  let s := if s.isHbr b && s.tray.img.loadDue then
      iter (pilotBerths s) (fun n t => if (t.at n).pl.st == .halted then t else pilotRestart n 3 t)
        (onImg (fun i => { i with loadDue := false }) s)
    else s
  if tideStart && (s.at b).pl.retry && (s.at b).pl.st == .loading then
    s.updPl b fun p => { p with stream := true, retry := false }
  else s

/-- The store of a role on the harbour's own flash after a takeover (R379). -/
def findRole (s : State) (h : BId) (role : Nat) (r : ImgRole) : Option Bool :=
  [false, true].find? fun b => digestBytes (sha384 (imageBytes s h role b)) == r.digest

/-- After a harbour takeover (R379): stores are sought on the new harbour's flash, and its order registers start afresh. -/
def imagesTakeover (h : BId) (s : State) : State :=
  let old := s.tray.img
  let roles : Vector ImgRole 4 := Vector.ofFn fun i =>
    let r := vget old.roles i.val
    if r.st != .loaded then r
    else match findRole s h i.val r with
      | some b => { r with slotB := b, store := true }
      | none => { r with store := false }
  onImg (fun _ => { roles := roles }) s

end Sys2Proof.Machine
end

