-- ==== Sys2Proof/Machine/ChartCheck.lean ====
section
/-! DEFINITION. The chart as bytes: its header, its records and the checks of R94 (R71 to R91, R517). -/
namespace Sys2Proof.Machine

/-! ### Slots, header and records (R71 to R73, R92) -/

/-- Flash offset of a chart slot (R92). -/
def chartBase (slotB : Bool) : Nat := if slotB then 0x40000 else 0

/-- BODY_LEN of a chart, cut to what a slot can hold. -/
def chartBody (bs : List Byte) : Nat := min (natAt bs 8 4) 261824

/-- Header and record area of a chart: the bytes its digest covers (R91). -/
def chartCore (bs : List Byte) : List Byte := bs.take (128 + chartBody bs)

/-- The trailer (R91). -/
def chartTrailer (bs : List Byte) : List Byte := (bs.drop (128 + chartBody bs)).take 192

/-- The bytes of a chart slot, from its header to its trailer. -/
def slotChart (s : State) (h : BId) (slotB : Bool) : List Byte :=
  let hd := flashAt s h (chartBase slotB) 128
  flashAt s h (chartBase slotB) (128 + chartBody hd + 192)

def chartDigest (bs : List Byte) : List Byte := digestBytes (sha384 (chartCore bs))

/-- Step 2 of R94 on the header (R72). -/
def chartHeaderOk (bs : List Byte) : Bool :=
  let len := natAt bs 8 4
  natAt bs 0 4 == 0x48435450 && natAt bs 4 2 == 1 && natAt bs 6 2 == 0x80 && len % 4 == 0 && 8 ≤ len && len ≤ 261824
    && natAt bs 0x10 1 ≤ 64 && natAt bs 0x12 2 == 0 && ((bs.drop 0x40).take 64).all (· == 0)
    && 1 ≤ natAt bs 0x18 4 && natAt bs 0x18 4 ≤ 4096

/-- The bits that word w of a record body may set (R5, R76 to R89). -/
def recMask (ty w : Nat) : Nat :=
  let all := 0xFFFFFFFF
  match ty with
  | 1 => if w == 0 then 0xFFFF else all
  | 2 => match w with | 0 => 0xF | 1 => 0xFFFFFF | 2 => 0xFFFF007F | 3 => 0xFFFF | 4 => 0xFFFF003F | _ => 0x7FFF
  | 3 => if w % 2 == 0 then all else 0xFF0FFFFF
  | 4 => if w % 2 == 0 then all else 0x000F0FFF
  | 5 => if w == 1 then 0xFFFF else if w == 6 then 0xFFFFFF else if w ≥ 7 then 0x0FFF0FFF else all
  | 6 => if w % 2 == 0 then 0xFFFFFF07 else all
  | 7 => if w == 2 then 0xFF03 else 0xFFFF0FFF
  | 9 => if w == 0 then 0x0FFFFFFF else 0x00FFFFFF
  | 10 => if w == 0 then 0x00037F1F else all
  | 11 => if w == 0 then 0x00FF07FF else 0xF
  | 13 => if w == 0 then 0x0007FFFF else all
  | 14 => if w == 0 then all else 0x0FFFFFFF
  | _ => all

/-- Body length of a device record type where it is fixed (R74). -/
def recLen (ty : Nat) : Nat :=
  match ty with
  | 1 => 8 | 2 => 24 | 3 => 104 | 4 => 192 | 5 => 124 | 6 => 24 | 7 => 12 | 8 => 32 | 9 => 20 | 10 => 8 | 11 => 8
  | 13 => 52 | 14 => 516 | _ => 0

/-- Tray-wide record types: INST is 0 (R74). -/
def trayType (ty : Nat) : Bool := ty == 1 || ty == 2 || ty == 8 || ty == 11 || ty == 12

/-- Record types of one slot or berth (R74). -/
def unitType (ty : Nat) : Bool := (3 ≤ ty && ty ≤ 7) || ty == 9 || ty == 10 || ty == 14

/-- The RECORD rules on one record header (R73 to R75). -/
def recHeaderOk (w0 w1 : Word) : Bool :=
  let ty := fld w0 7 0
  let len := fld w0 31 16
  let inst := fld w1 7 0
  let lenOk := if ty ≥ 0x80 then len % 4 == 0 else if ty == 12 then 4 ≤ len && len ≤ 52 && len % 4 == 0 else len == recLen ty
  let instOk := if ty ≥ 0x80 then true else if trayType ty then inst == 0 else if ty == 13 then inst ≤ 3 else inst ≤ 7
  (ty ≥ 0x80 || (1 ≤ ty && ty ≤ 14)) && fld w0 15 8 == 1 && fld w1 31 8 == 0 && lenOk && instOk

/-- The first record of a record area, and what follows it; none where it breaks a RECORD rule. -/
def parseRec (bs : List Byte) : Option (ChartRec × List Byte) :=
  let w0 := wordAt bs 0
  let w1 := wordAt bs 4
  let ty := fld w0 7 0
  let len := fld w0 31 16
  let body := bytesWords ((bs.drop 8).take len) (len / 4)
  let bits := ty ≥ 0x80 || ((upto body.length).zip body).all fun e => e.2.toNat &&& recMask ty e.1 == e.2.toNat
  if bs.length ≥ 8 + len && recHeaderOk w0 w1 && bits then some (⟨ty, fld w1 7 0, body⟩, bs.drop (8 + len)) else none

/-- n records from record number i on; the number of the first that breaks a RECORD rule (R517). The last record ends at
BODY_LEN (R73). -/
def parseRecs : Nat → Nat → List Byte → Except Nat (List ChartRec)
  | 0, i, bs => if bs.isEmpty then .ok [] else .error (i - 1)
  | n + 1, i, bs =>
    match parseRec bs with
    | none => .error i
    | some (r, rest) =>
      match parseRecs n (i + 1) rest with
      | .ok rs => .ok (r :: rs)
      | .error e => .error e

/-- The records of a chart. -/
def chartRecs (bs : List Byte) : Except Nat (List ChartRec) :=
  parseRecs (min (natAt bs 0x18 4) 4096) 0 ((bs.drop 128).take (chartBody bs))

/-- Word w of a record. -/
def rw (r : ChartRec) (w : Nat) : Word := (r.body[w]?).getD 0

def recFind (rs : List ChartRec) (ty inst : Nat) : Option ChartRec := rs.find? fun r => r.ty == ty && r.inst == inst

/-- Word w of record (type, instance), 0 where absent. -/
def recW (rs : List ChartRec) (ty inst w : Nat) : Word :=
  match recFind rs ty inst with
  | some r => rw r w
  | none => 0

/-- The number of record (type, instance), 0xFFFF where absent. -/
def recIndex (rs : List ChartRec) (ty inst : Nat) : Nat := (rs.findIdx? fun r => r.ty == ty && r.inst == inst).getD 0xFFFF

/-! ### ORDER and SET (R73, R74) -/

/-- The first record that does not follow its predecessor in TYPE and INST. -/
def orderBreak : List ChartRec → Nat → Option Nat
  | a :: b :: rs, i => if 256 * a.ty + a.inst < 256 * b.ty + b.inst then orderBreak (b :: rs) (i + 1) else some (i + 1)
  | _, _ => none

/-- A chart's set bits of POPULATED. -/
def popMask (rs : List ChartRec) : Nat := fld (recW rs 1 0 0) 7 0

def popSlots (rs : List ChartRec) : List Nat := (upto 8).filter (nbit (popMask rs))

/-- The SET step (R74, R517): a record of an unpopulated slot or berth, else a missing record. A chart without a TRAY
record names no unit unpopulated. -/
def setBreak (rs : List ChartRec) : Option Nat :=
  let has (ty inst : Nat) : Bool := (recFind rs ty inst).isSome
  let missing := !has 1 0 || !has 2 0 || !has 8 0 || !has 11 0 || !has 13 0
    || (popSlots rs).any fun n => [3, 4, 5, 6, 7, 9, 10, 14].any fun ty => !has ty n
  match (if has 1 0 then rs.findIdx? fun r => unitType r.ty && !nbit (popMask rs) r.inst else none) with
  | some i => some i
  | none => if missing then some 0xFFFF else none

/-! ### VALUE (R76 to R90) -/

def between (lo hi n : Nat) : Bool := lo ≤ n && n ≤ hi

/-- Rail e of slot n is used. -/
def usedIn (rs : List ChartRec) (n e : Nat) : Bool := bitAt (recW rs 3 n (2 * e)) 0

/-- R78 for entry e. -/
def railsOk (r : ChartRec) (e : Nat) : Bool :=
  let w := rw r (2 * e)
  let v := rw r (2 * e + 1)
  let dep (d : Nat) : Bool := d ≤ 12 || d == 15
  if !bitAt w 0 then w == 0xFF00 && v == 0
  else !(e == 12 && bitAt w 1) && bitAt w 2 == decide (e < 4) && dep (fld w 11 8) && dep (fld w 15 12)
    && (fld v 15 0 != 0) == bitAt w 1 && fld v 31 24 != 0

/-- R79 for input i. -/
def threshOk (rs : List ChartRec) (r : ChartRec) (i : Nat) : Bool :=
  let w := rw r (2 * i)
  let v := rw r (2 * i + 1)
  let filt := fld w 15 12
  let unused := i ≤ 12 && !usedIn rs r.inst i
  if i == 20 || i == 21 then w == 0 && v == 0
  else fld w 31 28 ≤ 3 && (filt == 0 || fld w 11 0 < fld w 27 16) && !(filt != 0 && i > 12 && fld w 31 28 == 0)
    && (i ≤ 12 || fld v 11 0 == 0) && (fld v 19 16 ≤ 12 || fld v 19 16 == 15) && !(unused && filt != 0)
    && !(unused && fld w 27 0 == 0 && fld w 31 28 != 0)

/-- R80. -/
def breakwaterOk (rs : List ChartRec) (r : ChartRec) : Bool :=
  let gmin := fld (rw r 0) 15 0
  let gmax := fld (rw r 0) 31 16
  between 1 2000 gmax && gmin ≤ gmax && between 1 2000 (fld (rw r 1) 15 0)
    && ((upto 4).all fun k => usedIn rs r.inst k || rw r (2 + k) == 0)
    && ((upto 3).all fun c => fld (rw r 6) (8 * c + 7) (8 * c) ≤ 100)
    && (upto 24).all fun i => rw r (7 + i) == 0 || !(i == 20 || i == 21 || fld (recW rs 4 r.inst (2 * i)) 15 12 == 0)

/-- R81 for channel c. -/
def coolOk (r : ChartRec) (c : Nat) : Bool :=
  let w := rw r (2 * c)
  let v := rw r (2 * c + 1)
  match fld w 1 0 with
  | 0 => w == 0 && v == 0
  | 3 => false
  | m => (if m == 1 then between 1 8 (fld w 15 8) else fld w 15 8 == 0) && fld w 31 16 != 0 && fld v 7 0 != 0
    && fld v 15 8 ≤ 31 && fld v 31 16 != 0

/-- R82 for rope k. -/
def ropeOk (w : Word) : Bool := if fld w 31 28 == 0 then w == 0 else fld w 11 0 < fld w 27 16

/-- R84. -/
def arrayOk (r : ChartRec) : Bool :=
  let w := rw r 0
  let members := (upto 8).map fun k => fld w (2 * k + 1) (2 * k)
  fld w 23 16 != 0xFF && (upto 4).all fun g =>
    let v := rw r (1 + g)
    if !members.contains g then v == 0 && !bitAt w (24 + g)
    else (fld v 15 0 != 0) == bitAt w (24 + g) && fld v 19 16 != 0

/-- R88. -/
def imageOk (r : ChartRec) : Bool :=
  let w := rw r 0
  let digest := (r.body.drop 1).all (· == 0)
  let split := bitAt w 3
  (match fld w 1 0 with
    | 0 => fld w 7 4 == 0
    | 1 => fld w 7 4 != 0 && digest
    | _ => false)
  && (r.inst != 0 || bitAt w 2) && !(split && (r.inst == 0 || r.inst == 3)) && fld w 15 8 ≤ 64
  && (if split then between 1 4 (fld w 18 16) else fld w 18 16 == 0)

/-- R89 for partition k. -/
def optableOk (rs : List ChartRec) (r : ChartRec) (k : Nat) : Bool :=
  let n := fld (rw r 0) (8 * k + 7) (8 * k)
  let e (i : Nat) : Word := rw r (1 + 32 * k + i)
  n ≤ 32 && (usedIn rs r.inst k == decide (n > 0)) && (upto 32).all fun i =>
    if i ≥ n then e i == 0
    else fld (e i) 27 16 % 5 == 0
      && (i == 0 || (fld (e (i - 1)) 15 0 < fld (e i) 15 0 && fld (e (i - 1)) 27 16 ≤ fld (e i) 27 16))

/-- R77: the ranges of the TD_ fields (R65, R68 and the TD_ registers). -/
def tideOk (r : ChartRec) : Bool :=
  fld (rw r 0) 3 2 ≤ 2 && fld (rw r 1) 11 8 ≥ 2 && fld (rw r 1) 15 12 != 0 && fld (rw r 1) 23 16 != 0
    && between 1 64 (fld (rw r 2) 6 0) && fld (rw r 2) 31 16 != 0 && between 1 64 (fld (rw r 5) 14 8)

/-- R85. -/
def hawserOk (r : ChartRec) : Bool :=
  between 1 64 (fld (rw r 0) 14 8) && fld (rw r 0) 17 16 != 0 && fld (rw r 1) 15 0 != 0 && fld (rw r 1) 31 16 != 0

/-- R86. -/
def hostportOk (r : ChartRec) : Bool :=
  let b := fld (rw r 0) 23 16
  fld (rw r 0) 2 1 ≤ 2 && (if bitAt (rw r 0) 4 then b == 0 else between 20 200 b)

/-- R87. -/
def retireOk (r : ChartRec) : Bool :=
  (r.body.all fun w => between 1 13 (fld w 7 0) && fld w 15 8 != 0 && fld w 31 16 != 0)
    && (upto 14).all fun c => (r.body.filter fun w => fld w 7 0 == c).length ≤ 1

/-- The VALUE step on one record (R76 to R90). -/
def valueOk (rs : List ChartRec) (r : ChartRec) : Bool :=
  match r.ty with
  | 1 => between 1 12000 (fld (rw r 1) 15 0) && fld (rw r 1) 31 16 ≤ fld (rw r 1) 15 0
  | 2 => tideOk r
  | 3 => (upto 13).all (railsOk r)
  | 4 => (upto 24).all (threshOk rs r)
  | 5 => breakwaterOk rs r
  | 6 => (upto 3).all (coolOk r)
  | 7 => ropeOk (rw r 0) && ropeOk (rw r 1) && nbit (fld (rw r 2) 15 8) r.inst
  | 8 => r.body.all fun w => fld w 15 0 ≤ fld w 31 16 && between 1 4096 (fld w 31 16)
  | 9 => arrayOk r
  | 10 => hawserOk r
  | 11 => hostportOk r
  | 12 => retireOk r
  | 13 => imageOk r
  | 14 => (upto 4).all (optableOk rs r)
  | _ => true

/-! ### The consistency rules of step 11 (R90) -/

/-- Rails of slot n that can be up after k more rounds of the graph, given those that can. -/
def graphRounds (rs : List ChartRec) (n : Nat) : Nat → List Nat → List Nat
  | 0, done => done
  | k + 1, done =>
    let ready (e : Nat) : Bool :=
      let w := recW rs 3 n (2 * e)
      usedIn rs n e && [fld w 11 8, fld w 15 12].all fun d => d == 15 || done.contains d
    graphRounds rs n k ((upto 13).filter ready)

/-- The rail graph has no cycle and depends only on used rails. -/
def graphOk (rs : List ChartRec) (n : Nat) : Bool :=
  let up := graphRounds rs n 13 []
  (upto 13).all fun e => !usedIn rs n e || up.contains e

/-- OFF_POS is a permutation. -/
def offPosOk (rs : List ChartRec) (n : Nat) : Bool :=
  let used := (upto 13).filter (usedIn rs n)
  let pos := used.map fun e => fld (recW rs 3 n (2 * e + 1)) 19 16
  (upto used.length).all pos.contains

/-- The hand sums of R83. -/
def handSumOk (rs : List ChartRec) : Bool :=
  let m (c : Nat) : Nat := fld (recW rs 8 0 c) 15 0
  (popSlots rs).length * ((upto 6).foldl (fun a c => a + m c) 0) + m 6 + m 7 ≤ 512 * (popSlots rs).length

/-- HARD_LOW ≤ LOW < HIGH ≤ HARD_HIGH on every monitored input of slot n. -/
def hardOk (rs : List ChartRec) (n : Nat) : Bool :=
  (upto 24).all fun i =>
    let w := recW rs 4 n (2 * i)
    let h := recW rs 5 n (7 + i)
    fld w 15 12 == 0 || (fld h 11 0 ≤ fld w 11 0 && fld w 11 0 < fld w 27 16 && fld w 27 16 ≤ fld h 27 16)

/-- The points of every used partition stay below VMAX, and FMAX admits step 0. -/
def pointsOk (rs : List ChartRec) (n : Nat) : Bool :=
  (upto 4).all fun k =>
    let steps := fld (recW rs 14 n 0) (8 * k + 7) (8 * k)
    let lim := recW rs 5 n (2 + k)
    let e (i : Nat) : Word := recW rs 14 n (1 + 32 * k + i)
    steps == 0 || (fld (e 0) 15 0 ≤ fld lim 31 16 && (upto steps).all fun i => fld (e i) 27 16 + 50 ≤ fld lim 15 0)

/-- HBR_CAP under R76, for a chart loaded by berth h. -/
def harbourOk (rs : List ChartRec) (h : BId) : Bool :=
  let cap := fld (recW rs 1 0 0) 15 8
  cap &&& 0x11 == cap && cap &&& popMask rs == cap && nbit cap h.val

/-- Step 11 (R90): the code and the record it names. -/
def consistency (rs : List ChartRec) (h : BId) : Option (Nat × Nat) :=
  let bad (p : Nat → Bool) : Option Nat := (popSlots rs).find? fun n => !p n
  let gmin := (popSlots rs).foldl (fun a n => a + fld (recW rs 5 n 0) 15 0) 0
  match bad (graphOk rs), bad (offPosOk rs) with
  | some n, _ => some (0xB, recIndex rs 3 n)
  | none, some n => some (0xB, recIndex rs 3 n)
  | none, none =>
    if gmin > fld (recW rs 1 0 1) 31 16 then some (0xC, recIndex rs 1 0)
    else if !handSumOk rs then some (0xC, recIndex rs 8 0)
    else match bad (hardOk rs), bad (pointsOk rs) with
      | some n, _ => some (0xD, recIndex rs 5 n)
      | none, some n => some (0xD, recIndex rs 5 n)
      | none, none => if harbourOk rs h then none else some (0xE, recIndex rs 1 0)

/-! ### The check of a slot (R94) -/

/-- Steps 7 to 11 on the records. -/
def recordsCheck (bs : List Byte) (h : BId) : Option (Nat × Nat) :=
  match chartRecs bs with
  | .error i => some (7, i)
  | .ok rs =>
    match orderBreak rs 0, setBreak rs, rs.findIdx? fun r => !valueOk rs r with
    | some i, _, _ => some (8, i)
    | none, some i, _ => some (9, i)
    | none, none, some i => some (10, i)
    | none, none, none => consistency rs h

/-- The key and signature of a chart against a berth's own key slots (R91). -/
def chartAuthentic (x : Berth) (bs : List Byte) : Bool :=
  let tr := chartTrailer bs
  keyMatches x (natAt bs 0x11 1) (tr.take 96) && sigVerifies (tr.take 96) (tr.drop 96) (chartCore bs)

/-- Steps 1 to 5 of R94 on a chart's bytes, with berth x's key slots: 0, or the code of the first failure. -/
def chartHead (x : Berth) (bs : List Byte) (rdErr : Bool) : Nat :=
  let tr := chartTrailer bs
  let bind := natAt bs 0x20 8
  if rdErr then 1
  else if !chartHeaderOk bs then 2
  else if !reqIdOk (natAt bs 0x1C 4) || !(bind == 0 || bind == Config.uid.toNat) then 3
  else if !keyMatches x (natAt bs 0x11 1) (tr.take 96) then 4
  else if !sigVerifies (tr.take 96) (tr.drop 96) (chartCore bs) then 5
  else 0

/-- The check of a slot by harbour h (R94): the code and record index of the first failure; none where it passes. -/
def chartCheck (s : State) (h : BId) (slotB rdErr : Bool) : Option (Nat × Nat) :=
  let bs := slotChart s h slotB
  let c := chartHead (s.at h) bs rdErr
  if c != 0 then some (c, 0xFFFF)
  else if natAt bs 0x10 1 < vget (s.at h).ch.fuse 0 then some (6, 0xFFFF)
  else recordsCheck bs h

end Sys2Proof.Machine
end

