-- ==== Sys2Proof/Machine/UsbPort.lean ====
section
/-! DEFINITION. The USB port: attachment, bus events, standard requests and telemetry (R427 to R430, R444 to R450). -/
namespace Sys2Proof.Machine

def usOf (s : State) (b : BId) : Us := (s.at b).us
def updUs (b : BId) (f : Us → Us) (s : State) : State := s.upd b fun x => { x with us := f x.us }
def updDfu (b : BId) (f : Dfu → Dfu) (s : State) : State := updUs b (fun u => { u with dfu := f u.dfu }) s

/-! ### Ends of a download (R439, R441, R452) -/

/-- The US_DFU record (R452): the download's version where manifestation ran. -/
def logDfu (b : BId) (ver : Nat) (s : State) : State :=
  let u := usOf s b
  logRec b 0x60 (pack [(u.alt, 0, 5), (u.dfu.status, 8, 8), (u.dfu.check, 16, 8), (u.dfu.refuse, 24, 3)])
    (wordOf u.dfu.len) (wordOf ver) s

def releaseAll (gs : List Nat) (s : State) : State := iter gs (fun g t => deckRelease g t) s

/-- A running download ends without passing: the interface is in dfuERROR with a status, or in dfuIDLE with status 0. -/
def dfuEnd (b : BId) (status ver : Nat) (s : State) : State :=
  let gs := (usOf s b).dfu.bufs
  let s := updUs b (fun u => { u with
    dfuFail := sinc u.dfuFail
    dfu := { u.dfu with st := if status == 0 then .idle else .error, status := status, active := false, held := []
                        staged := [], bufs := [] } }) s
  logDfu b ver (releaseAll gs s)

/-- A download before manifestation is cut (R449): by a bus reset with errUSBR, by a detach or DFU_ABORT with no error. -/
def dfuCut (b : BId) (status : Nat) (s : State) : State :=
  let d := (usOf s b).dfu
  if d.st == .manifestSync then s
  else if d.active then dfuEnd b status 0 s
  else if d.st == .uploadIdle then updDfu b (fun d => { d with st := .idle }) s
  else s

/-! ### Attachment (R427, R450) -/

/-- The telemetry queue is discarded; SEQ starts at 0 (R446). -/
def telClear (b : BId) (s : State) : State :=
  let gs := (usOf s b).telQueue.flatMap (·.bufs)
  releaseAll gs (updUs b (fun u => { u with telQueue := [], telSeq := 0, telSent := 0, telFlight := none, zlpDue := false }) s)

/-- The state of the device on the bus: detached, powered, or default after a bus reset. -/
def busState (b : BId) (attached : Bool) (dev : UsbDev) (s : State) : State :=
  updUs b (fun u => { u with attached := attached, dev := dev, susp := false, rwake := false, addr := 0, config := 0
                             halt81 := false, testMode := 0, hs := false, wakeReq := false }) s

/-- The port releases its pull-up (R427, R449). -/
def usbDetach (b : BId) (s : State) : State :=
  if (usOf s b).attached then telClear b (busState b false .detached (dfuCut b 0 s)) else s

/-- The pull-up follows the active state, USB_EN and VBUS (R427). -/
def usbFollow (b : BId) (s : State) : State :=
  let u := usOf s b
  let on := u.active && bitAt u.cfg 0 && u.vbus
  if on then (if u.attached then s else busState b true .powered s) else usbDetach b s

/-- USB_VBUS becomes valid or invalid (R427). Only B0 and B4 have the ball. -/
def vbusChange (b : BId) (valid : Bool) (s : State) : State :=
  if b == 0 || b == 4 then usbFollow b (updUs b (fun u => { u with vbus := valid }) s) else s

/-- VBUS_CHANGE (R427). -/
def execVbusChange (b : BId) (valid : Bool) (s : State) : Host.Outcome State Fault Refusal :=
  ran s (vbusChange b valid s.begin)

/-! ### Bus reset, suspend and wake (R116, R448, R449) -/

/-- The device leaves SLEEP (R116): every silence timer restarts (R225), the two-wire target takes over from the matcher
(R418, R419), log programs go on (R115). -/
def wake (s : State) : State :=
  if s.dev.sleep then
    let s := { s with dev := { s.dev with sleep := false } }
    iter allB logPump (s.updAll fun _ x => { x with
      cl := { x.cl with silenceFrom := s.now, silenceHeld := none }, tw := { x.tw with sclLow := false, waking := false } })
  else s

/-- A USB bus reset (R449): the speed that the handshake gives. -/
def usbReset (b : BId) (hs : Bool) (s : State) : State :=
  if !(usOf s b).attached then s
  else
    let s := telClear b (dfuCut b 0x0C (wake s))
    updUs b (fun u => { u with hs := hs, busReset := sinc u.busReset }) (busState b true .default s)

/-- USB_BUS_RESET (R449). -/
def execUsbBusReset (b : BId) (hs : Bool) (s : State) : Host.Outcome State Fault Refusal := ran s (usbReset b hs s.begin)

/-- 3 ms of bus idle (R448). -/
def usbSuspend (b : BId) (s : State) : State :=
  if (usOf s b).attached && !(usOf s b).susp then updUs b (fun u => { u with susp := true, suspends := sinc u.suspends }) s else s

/-- USB_SUSPEND (R448). -/
def execUsbSuspend (b : BId) (s : State) : Host.Outcome State Fault Refusal := ran s (usbSuspend b s.begin)

/-- Resume signalling (R448, R116). -/
def usbResume (b : BId) (s : State) : State :=
  if (usOf s b).susp then wake (updUs b (fun u => { u with susp := false, wakeReq := false }) s) else s

/-- USB_RESUME (R448). -/
def execUsbResume (b : BId) (s : State) : Host.Outcome State Fault Refusal := ran s (usbResume b s.begin)

/-- A suspended port with remote wakeup enabled signals resume (R448). -/
def remoteWakeup (b : BId) (s : State) : State :=
  let u := usOf s b
  if u.susp && u.rwake && u.wakeReq then (updUs b (fun u => { u with wakeReq := false }) s).emit (.resume b) else s

/-- REMOTE_WAKEUP (R448). -/
def execRemoteWakeup (b : BId) (s : State) : Host.Outcome State Fault Refusal := ran s (remoteWakeup b s.begin)

/-! ### Standard requests (R429, R430) -/

/-- The port answers on the bus: attached, reset by the host, and not suspended. -/
def onBus (s : State) (b : BId) : Bool :=
  let u := usOf s b
  u.attached && !u.susp && !s.dev.sleep && (u.dev == .default || u.dev == .address || u.dev == .configured)

def isConf (s : State) (b : BId) : Bool := onBus s b && (usOf s b).dev == .configured

/-- Answers data cut to the requested length. -/
def answer (bs : List Byte) (len : Nat) (s : State) : State := s.emit (.reply (bs.take len))

/-- Runs a request where the port answers on the bus; `none` is a stall. -/
def request (b : BId) (r : Option State) (s : State) : State :=
  if !onBus s b then s
  else match r with
    | some t => t
    | none => s.emit .stall

/-- GET_STATUS (R430) of the device (recipient 0), an interface (1) or an endpoint (2). -/
def getStatus (b : BId) (recip idx : Nat) (s : State) : State :=
  let u := usOf s b
  let r (v : Nat) : Option State := some (answer (leBytes 2 v) 2 s)
  request b (match recip with
    | 0 => r (1 + 2 * b2n u.rwake)
    | 1 => if isConf s b && idx ≤ 2 then r 0 else none
    | 2 => if idx == 0 || idx == 0x80 then r 0 else if idx == 0x81 && isConf s b then r (b2n u.halt81) else none
    | _ => none) s

def execGetStatus (b : BId) (recip : Fin 4) (idx : BitVec 8) (s : State) : Host.Outcome State Fault Refusal :=
  ran s (getStatus b recip.val idx.toNat s.begin)

/-- CLEAR_FEATURE and SET_FEATURE (R430): ENDPOINT_HALT (0) of endpoint 0x81, DEVICE_REMOTE_WAKEUP (1), and, set only,
TEST_MODE (2) with its selector in `idx`. A halt discards the telemetry queue (R446). -/
def setFeature (b : BId) (on : Bool) (feature recip idx : Nat) (s : State) : State :=
  request b (match feature, recip with
    | 0, 2 => if idx == 0x81 && isConf s b then
        (let t := updUs b (fun u => { u with halt81 := on }) s
        some ((if on then telClear b t else t).emit .ack)) else none
    | 1, 0 => some ((updUs b (fun u => { u with rwake := on }) s).emit .ack)
    | 2, 0 => if on && between 1 5 idx then some ((updUs b (fun u => { u with testMode := idx }) s).emit .ack) else none
    | _, _ => none) s

def execClearFeature (b : BId) (feature recip : Fin 4) (idx : BitVec 8) (s : State) : Host.Outcome State Fault Refusal :=
  ran s (setFeature b false feature.val recip.val idx.toNat s.begin)

def execSetFeature (b : BId) (feature recip : Fin 4) (idx : BitVec 8) (s : State) : Host.Outcome State Fault Refusal :=
  ran s (setFeature b true feature.val recip.val idx.toNat s.begin)

/-- SET_ADDRESS (R430), at its status stage. -/
def setAddress (b : BId) (a : Nat) (s : State) : State :=
  request b (some ((updUs b (fun u => { u with
    addr := a, dev := if u.dev == .configured then .configured else if a == 0 then .default else .address }) s).emit .ack)) s

def execSetAddress (b : BId) (a : Fin 128) (s : State) : Host.Outcome State Fault Refusal := ran s (setAddress b a.val s.begin)

/-- A string's bytes. -/
def chars (t : String) : List Byte := t.toList.map fun c => BitVec.ofNat 8 c.toNat

/-- A string descriptor of USB 2.0: UTF-16. -/
def strDesc (cs : List Byte) : List Byte := BitVec.ofNat 8 (2 + 2 * cs.length) :: 3 :: cs.flatMap fun c => [c, 0]

def hexDigit (n : Nat) : Byte := BitVec.ofNat 8 (if n < 10 then 48 + n else 55 + n)

/-- The serial string (R429): the identifier, most significant first, and the active berth. -/
def serial (b : BId) : List Byte :=
  ((upto 16).map fun i => hexDigit (Config.uid.toNat / 16 ^ (15 - i) % 16)) ++ [45, hexDigit b.val]

/-- The names of the download targets (R436). -/
def targetName (t : Nat) : String :=
  match t with
  | 0 => "Chart A" | 1 => "Chart B" | 2 => "PILOT_FW A" | 3 => "POLICY A" | 4 => "DUMMY A" | 5 => "ACCEL_FW A"
  | 6 => "PILOT_FW B" | 7 => "POLICY B" | 8 => "DUMMY B" | 9 => "ACCEL_FW B" | _ => "Log region"

/-- String descriptor i (R429); string 0 names US English (0x0409). -/
def stringOf (b : BId) (i : Nat) : Option (List Byte) :=
  match i with
  | 0 => some [4, 3, 0x09, 0x04]
  | 1 => some (strDesc (chars "Tajan Semiconductor"))
  | 2 => some (strDesc (chars "Parern PT8"))
  | 3 => some (strDesc (serial b))
  | 4 => some (strDesc (chars "PT8 registers"))
  | 27 => some (strDesc (chars "PT8 telemetry"))
  | _ => if between 5 26 i then
      some (strDesc (chars ((if i < 16 then "B0 " else "B4 ") ++ targetName ((i - 5) % 11)))) else none

/-- The device descriptor (R429). -/
def deviceDesc : List Byte :=
  [18, 1] ++ leBytes 2 0x0200 ++ [0, 0, 0, 64] ++ leBytes 2 Config.usbVid.toNat ++ leBytes 2 0x7438 ++ leBytes 2 0x0B01
    ++ [1, 2, 3, 1]

/-- An interface descriptor. -/
def ifaceDesc (n alt eps cls sub proto str : Nat) : List Byte :=
  [9, 4, BitVec.ofNat 8 n, BitVec.ofNat 8 alt, BitVec.ofNat 8 eps, BitVec.ofNat 8 cls, BitVec.ofNat 8 sub
  , BitVec.ofNat 8 proto, BitVec.ofNat 8 str]

/-- The configuration descriptor (type 2) or the other-speed one (7), for a bulk packet size (R429). -/
def configDesc (ty : Byte) (packet : Nat) : List Byte :=
  let dfu := ifaceDesc 1 0 0 0xFE 1 2 5 ++ [9, 0x21, 7, 0, 0] ++ leBytes 2 4096 ++ leBytes 2 0x0110
  [9, ty] ++ leBytes 2 241 ++ [3, 1, 0, 0xE0, 0] ++ ifaceDesc 0 0 0 0xFF 0 0 4 ++ dfu
    ++ ((upto 21).flatMap fun i => ifaceDesc 1 (i + 1) 0 0xFE 1 2 (6 + i))
    ++ ifaceDesc 2 0 1 0xFF 1 0 27 ++ [7, 5, 0x81, 2] ++ leBytes 2 packet ++ [0]

/-- Bulk packet size (R429). -/
def bulkSize (s : State) (b : BId) : Nat := if (usOf s b).hs then 512 else 64

/-- A descriptor by type and index (R429). -/
def descriptor (s : State) (b : BId) (ty i : Nat) : Option (List Byte) :=
  match ty with
  | 1 => if i == 0 then some deviceDesc else none
  | 2 => if i == 0 then some (configDesc 2 (bulkSize s b)) else none
  | 3 => stringOf b i
  | 6 => if i == 0 then some ([10, 6] ++ leBytes 2 0x0200 ++ [0, 0, 0, 64, 1, 0]) else none
  | 7 => if i == 0 then some (configDesc 7 (576 - bulkSize s b)) else none
  | _ => none

/-- GET_DESCRIPTOR (R429). -/
def getDescriptor (b : BId) (ty i len : Nat) (s : State) : State :=
  request b ((descriptor s b ty i).map fun d => answer d len s) s

def execGetDescriptor (b : BId) (ty i : BitVec 8) (len : BitVec 16) (s : State) : Host.Outcome State Fault Refusal :=
  ran s (getDescriptor b ty.toNat i.toNat len.toNat s.begin)

/-- GET_CONFIGURATION (R430). -/
def execGetConfiguration (b : BId) (s : State) : Host.Outcome State Fault Refusal :=
  let s := s.begin
  ran s (request b (some (answer [BitVec.ofNat 8 (usOf s b).config] 1 s)) s)

/-- SET_CONFIGURATION (R430, R446). -/
def setConfiguration (b : BId) (v : Nat) (s : State) : State :=
  request b (if v ≤ 1 && (usOf s b).dev != .default then
    some ((telClear b (updUs b (fun u => { u with
      config := v, dev := if v == 1 then .configured else .address, halt81 := false }) s)).emit .ack) else none) s

def execSetConfiguration (b : BId) (v : BitVec 8) (s : State) : Host.Outcome State Fault Refusal :=
  ran s (setConfiguration b v.toNat s.begin)

/-- GET_INTERFACE (R430). -/
def getInterface (b : BId) (i : Nat) (s : State) : State :=
  request b (if isConf s b && i ≤ 2 then
    some (answer [BitVec.ofNat 8 (if i == 1 then (usOf s b).alt else 0)] 1 s) else none) s

def execGetInterface (b : BId) (i : BitVec 8) (s : State) : Host.Outcome State Fault Refusal :=
  ran s (getInterface b i.toNat s.begin)

/-- SET_INTERFACE (R430). -/
def setInterface (b : BId) (i alt : Nat) (s : State) : State :=
  let u := usOf s b
  request b (if !isConf s b then none
    else if i == 1 then (if u.dfu.st == .idle && alt ≤ 21 then some ((updUs b (fun u => { u with alt := alt }) s).emit .ack) else none)
    else if i ≤ 2 && alt == 0 then some (s.emit .ack) else none) s

def execSetInterface (b : BId) (i alt : BitVec 8) (s : State) : Host.Outcome State Fault Refusal :=
  ran s (setInterface b i.toNat alt.toNat s.begin)

/-- SET_DESCRIPTOR is stalled (R430). -/
def execSetDescriptor (b : BId) (s : State) : Host.Outcome State Fault Refusal := ran s (request b none s.begin)

/-- SYNCH_FRAME is stalled (R430). -/
def execSynchFrame (b : BId) (s : State) : Host.Outcome State Fault Refusal := ran s (request b none s.begin)

/-! ### Telemetry (R446, R447) -/

/-- Bytes waiting on endpoint 0x81. -/
def telBytesDue (u : Us) : List Byte := (u.telQueue.flatMap (·.bytes)).drop u.telSent

/-- An IN token on endpoint 0x81 (R446). An unacknowledged packet is sent again. -/
def telemetryIn (b : BId) (s : State) : State :=
  let u := usOf s b
  if !isConf s b then s
  else if !bitAt u.cfg 2 || u.halt81 then s.emit .stall
  else
    let due := telBytesDue u
    let n := u.telFlight.getD (min (bulkSize s b) due.length)
    if due.isEmpty && !u.zlpDue then s.emit .nack
    else (updUs b (fun u => { u with telFlight := some n }) s).emit (.reply (due.take n))

/-- TELEMETRY_IN (R446). -/
def execTelemetryIn (b : BId) (s : State) : Host.Outcome State Fault Refusal := ran s (telemetryIn b s.begin)

/-- Releases the records that `n` delivered bytes cover, oldest first. -/
def telPop (b : BId) : Nat → State → State
  | 0, s => s
  | k + 1, s =>
    match (usOf s b).telQueue with
    | r :: rs =>
      if (usOf s b).telSent ≥ r.bytes.length then
        telPop b k (releaseAll r.bufs (updUs b (fun u => { u with
          telQueue := rs, telSent := u.telSent - r.bytes.length, telRec := sinc u.telRec }) s))
      else s
    | [] => s

/-- The host acknowledges a packet (R446). -/
def telemetryAck (b : BId) (s : State) : State :=
  match (usOf s b).telFlight with
  | none => s
  | some n =>
    let full := n == bulkSize s b
    let s := updUs b (fun u => { u with telFlight := none, telSent := u.telSent + n }) s
    let s := telPop b (usOf s b).telQueue.length s
    updUs b (fun u => { u with zlpDue := u.telQueue.isEmpty && full }) s

/-- TELEMETRY_PACKET_ACK (R446). -/
def execTelemetryPacketAck (b : BId) (s : State) : Host.Outcome State Fault Refusal := ran s (telemetryAck b s.begin)

/-- Pushes queued (US_TEL_PUSH_STAT.QUEUED). -/
def pushesQueued (u : Us) : Nat := (u.telQueue.filter (·.pushed)).length

/-- The hand a pusher's buffers are charged to: its pilot's, or, for the harbour command engine, the policy engine's on the
harbour. -/
def pushHand (h : BId) (req : ReqId) : Hand := if req.val < 8 then ⟨bid req.val, 5⟩ else ⟨h, 4⟩

/-- A write to US_TEL_PUSH (R447). -/
def telPush (req : ReqId) (w : Word) (s : State) : State :=
  match s.harbour with
  | none => s
  | some h =>
    let g := fld w 11 0
    let len := fld w 20 12
    let bad := !(holderOf s g == some (pushHand h req) && (s.at (bid (g / 512))).dk.inDeck
      && !((s.at (bid (g / 512))).dk.handed.any fun e => e.1 == g % 512))
    let res := if pushesQueued (usOf s h) ≥ 16 then 1 else if !telOn s h 3 then 2 else if bad then 3 else 0
    if !(req.val < 8 || req == 11) || !between 1 256 len then s
    else
      let s := updUs h (fun u => { u with pushStat := vset u.pushStat req.val res }) s
      if res != 0 then s
      else
        let s := telLossFirst h s
        let bytes := telBytes s h 3 (fld w 27 24) (bufRead s g len)
        let s := s.updDk (bid (g / 512)) fun d => { d with handed := (g % 512, 11) :: d.handed }
        updUs h (fun u => { u with telQueue := u.telQueue ++ [⟨bytes, [g], true⟩], telSeq := (u.telSeq + 1) % 2 ^ 32 }) s

end Sys2Proof.Machine
end

