-- ==== Sys2Proof/Machine/Dfu.lean ====
section
/-! DEFINITION. Device Firmware Upgrade over the USB port (R435 to R443). -/
namespace Sys2Proof.Machine

def dfuOf (s : State) (b : BId) : Dfu := (usOf s b).dfu

/-! ### Targets (R436) -/

/-- Flash of an alternate setting: B0's or B4's. -/
def altFlash (a : Nat) : BId := if a / 11 == 0 then 0 else 4

/-- Flash offset of a target. -/
def targetOff (t : Nat) : Nat :=
  match t with
  | 0 => 0 | 1 => 0x40000 | 10 => logBase
  | t => if t ≤ 5 then regionBase false (t - 2) else regionBase true (t - 6)

/-- Size of a target; the log region ends with a 64 MiB flash (DESIGN CHOICE, notes entry 7). -/
def targetSize (t : Nat) : Nat :=
  match t with
  | 0 => 0x40000 | 1 => 0x40000 | 10 => 0x04000000 - logBase
  | t => regionSize (if t ≤ 5 then t - 2 else t - 6)

/-- Role and slot of an image target. -/
def targetRole (t : Nat) : Nat × Bool := if t ≤ 5 then (t - 2, false) else (t - 6, true)

/-- The flash of a target can be reached (R438 FLASH_ABSENT). -/
def flashThere (s : State) (f : BId) : Bool := reachable s f

/-- An image region is held (R377): loaded in its role, or read by a push or a placement. -/
def regionHeld (s : State) (role : Nat) (slotB : Bool) : Bool :=
  let r := vget s.tray.img.roles role
  let pushing := role == 3 && allB.any fun b => (s.at b).svc.pushB == slotB && match (s.at b).svc.step with
    | .push _ => true
    | _ => false
  let placing := allB.any fun b => (upto 2).any fun g =>
    wantsLoad (graphOf s b g) && (graphOf s b g).store == some (regionBase slotB role)
  (r.st == .loaded && r.slotB == slotB) || pushing || placing

/-- The reason to refuse the first block of a download (R438); 0 for none. -/
def refuseOf (s : State) (b : BId) (rdErr : Bool) : Nat :=
  let a := (usOf s b).alt
  let t := a % 11
  let ch := (s.at b).ch
  let chart := t ≤ 1
  if chart && (ch.state == .reading || ch.state == .distributing) then 1
  else if chart && ch.locked && ch.slot == some (t == 1) then 2
  else if !chart && t != 10 && regionHeld s (targetRole t).1 (targetRole t).2 then 3
  else if !bitAt (usOf s b).cfg 1 then 4
  else if !flashThere s (altFlash a) || rdErr then 5
  else if t == 10 then 6
  else 0

/-! ### Erase and program (R439) -/

/-- Starts the next flash operation of a download, once the flash is free of reads and log programs (R443): the first sector at once,
then each sector before its first byte. -/
def dfuPump (b : BId) (s : State) : State :=
  let u := usOf s b
  let d := u.dfu
  let base := targetOff (u.alt % 11)
  let f := altFlash u.alt
  if !d.active || d.op.isSome || d.st == .manifestSync || s.dev.sleep then s
  else if !flashThere s f then dfuEnd b 3 0 s
  else if f == b && ((s.at b).log.busy.isSome || flashReads (s.at b)) then s
  else if d.erasedTo == 0 || (!d.staged.isEmpty && d.stagedAt ≥ d.erasedTo) then
    updDfu b (fun d => { d with op := some (.erase f (base + d.erasedTo)), eraseBlk := true }) s
  else if d.staged.isEmpty then s
  else
    let n := 256 - d.stagedAt % 256
    updDfu b (fun d => { d with
      op := some (.program f (base + d.stagedAt) (d.staged.take n)), staged := d.staged.drop n
      stagedAt := d.stagedAt + (d.staged.take n).length }) s

/-- A finished block's deck buffers are released. -/
def dfuBlockDone (b : BId) (s : State) : State :=
  let d := dfuOf s b
  if d.op.isNone && d.staged.isEmpty then releaseAll d.bufs (updDfu b (fun d => { d with bufs := [] }) s) else s

/-- The QSPI controller of the harbour's flash is free: the download and the log take turns (R443), the log second after a flash
operation of its own (`logLast`). -/
def flashFree (logLast : Bool) (h : BId) (s : State) : State :=
  let dfu (s : State) : State := dfuBlockDone h (dfuPump h s)
  if logLast then logPump h (dfu s) else dfu (logPump h s)

/-! ### Log programs and erases (R167, R115) -/

/-- A page program of the log region completes (R167). -/
def logProgramDone (h : BId) (s : State) : State :=
  if s.dev.sleep then s
  else match (s.at h).log.busy with
  | some (.record off r) =>
    let s := s.upd h fun x => { x with flash := flashProgram off (recBytes r) x.flash }
    let s := s.updLog h fun l => { l with busy := none }
    flashFree true h (logRetireRecord h s)
  | some (.sector off g r) =>
    let s := s.upd h fun x => { x with flash := flashProgram off (recBytes r) x.flash }
    flashFree true h (s.updLog h fun l => { l with busy := none, sector := some off, gen := g, slotN := 1, torn := 0 })
  | _ => s

/-- LOG_PROGRAM_DONE (R167). -/
def execLogProgramDone (h : BId) (s : State) : Host.Outcome State Fault Refusal := ran s (logProgramDone h s.begin)

/-- A log sector erase completes, and the harbour goes on with the SECTOR record (R167). -/
def logEraseDone (h : BId) (s : State) : State :=
  if s.dev.sleep then s
  else match (s.at h).log.busy with
  | some (.erase off) =>
    let s := s.upd h fun x => { x with flash := flashErase off 0x10000 x.flash }
    flashFree true h (s.updLog h fun l => { l with busy := none })
  | _ => s

/-- LOG_ERASE_DONE (R167). -/
def execLogEraseDone (h : BId) (s : State) : Host.Outcome State Fault Refusal := ran s (logEraseDone h s.begin)

/-! ### Flash operations of a download -/

/-- DFU_ERASE_DONE (R439, R441): a sector erase completes, or does not. -/
def dfuEraseDone (b : BId) (ok : Bool) (s : State) : State :=
  if s.dev.sleep then s
  else match (dfuOf s b).op with
  | some (.erase f off) =>
    let s := updDfu b (fun d => { d with op := none }) s
    let s := if ok then s.upd f fun x => { x with flash := flashErase off 0x10000 x.flash } else tornErase f off s
    if !(dfuOf s b).active then logPump b s
    else if !ok then logPump b (dfuEnd b 4 0 s)
    else flashFree false b (updDfu b (fun d => { d with erasedTo := d.erasedTo + 0x10000 }) s)
  | _ => s

def execDfuEraseDone (b : BId) (ok : Bool) (s : State) : Host.Outcome State Fault Refusal := ran s (dfuEraseDone b ok s.begin)

/-- DFU_PROGRAM_DONE (R439, R441): a page program completes, or does not. -/
def dfuProgramDone (b : BId) (ok : Bool) (s : State) : State :=
  if s.dev.sleep then s
  else match (dfuOf s b).op with
  | some (.program f off bs) =>
    let s := updDfu b (fun d => { d with op := none }) s
    let s := if ok then s.upd f fun x => { x with flash := flashProgram off bs x.flash } else tornProgram f off bs s
    if !(dfuOf s b).active then logPump b s
    else if !ok then logPump b (dfuEnd b 6 0 s)
    else flashFree false b s
  | _ => s

def execDfuProgramDone (b : BId) (ok : Bool) (s : State) : Host.Outcome State Fault Refusal := ran s (dfuProgramDone b ok s.begin)

/-! ### Requests (R435, R438 to R442) -/

/-- A request that the state does not allow is stalled: DFU 1.1 gives dfuERROR with errSTALLEDPKT, and a running download
ends; manifestation and an interface in error stay. -/
def dfuUnexpected (b : BId) (s : State) : State :=
  let d := dfuOf s b
  let s := if d.st == .manifestSync || d.st == .error then s
    else if d.active then dfuEnd b 0x0F 0 s
    else updDfu b (fun d => { d with st := .error, status := 0x0F }) s
  s.emit .stall

/-- A block's bytes join the download (R439): the first 256 of the region are held, the rest is staged. -/
def dfuTake (b : BId) (data : List Byte) (gs : List Nat) (s : State) : State :=
  let n := 256 - (dfuOf s b).held.length
  let s := updDfu b (fun d => { d with
    active := true, st := .dnloadSync, block := (d.block + 1) % 65536, len := d.len + data.length
    held := d.held ++ data.take n, staged := d.staged ++ data.drop n, bufs := d.bufs ++ gs, eraseBlk := false }) s
  (dfuBlockDone b (dfuPump b s)).emit .ack

/-- A block of data (R439): out of sequence, past the end, put off for want of a buffer, or taken. -/
def dfuBlock (b : BId) (num : Nat) (data : List Byte) (s : State) : State :=
  let d := dfuOf s b
  if num != d.block then (dfuEnd b 0x0F 0 s).emit .stall
  else if d.len + data.length > targetSize ((usOf s b).alt % 11) then (dfuEnd b 8 0 s).emit .stall
  else match allocMany b 6 true ((data.length + 255) / 256) s with
    | (some gs, t) => dfuTake b data gs t
    | (none, t) => t.emit .nack

/-- The first block of a download (R438): refused, or the download starts. -/
def dfuFirst (b : BId) (num : Nat) (data : List Byte) (rdErr : Bool) (s : State) : State :=
  let r := refuseOf s b rdErr
  let op := (dfuOf s b).op
  let s := updDfu b (fun _ => { refuse := r, op := op }) s
  if r != 0 then (dfuEnd b 1 0 s).emit .stall
  else dfuBlock b num data s

/-- DFU_DNLOAD (R439): block number and data; `rdErr`: a QSPI read of the target flash fails. -/
def dfuDnload (b : BId) (num : Nat) (data : List Byte) (rdErr : Bool) (s : State) : State :=
  if !isConf s b then s
  else match (dfuOf s b).st with
    | .idle => if data.isEmpty || data.length > 4096 then dfuUnexpected b s else dfuFirst b num data rdErr s
    | .dnloadIdle =>
      if !bitAt (usOf s b).cfg 1 then s.emit .stall
      else if data.length > 4096 then dfuUnexpected b s
      else if data.isEmpty then (updDfu b (fun d => { d with st := .manifestSync }) s).emit .ack
      else dfuBlock b num data s
    | _ => dfuUnexpected b s

def execDfuDnload (b : BId) (num : BitVec 16) (data : List Byte) (rdErr : Bool) (s : State) : Host.Outcome State Fault Refusal :=
  ran s (dfuDnload b num.toNat data rdErr s.begin)

/-- DFU_UPLOAD (R442): a request for `len` bytes. -/
def dfuUpload (b : BId) (len : Nat) (rdErr : Bool) (s : State) : State :=
  let u := usOf s b
  let t := u.alt % 11
  let pos := if u.dfu.st == .uploadIdle then u.dfu.upPos else 0
  let n := min (min len 4096) (targetSize t - pos)
  if !isConf s b then s
  else if !bitAt u.cfg 1 then s.emit .stall
  else if u.dfu.st != .idle && u.dfu.st != .uploadIdle then dfuUnexpected b s
  else if !flashThere s (altFlash u.alt) || rdErr then
    (updDfu b (fun d => { d with st := .error, status := 1, refuse := 5 }) s).emit .stall
  else
    (updDfu b (fun d => { d with st := if n < min len 4096 then .idle else .uploadIdle, upPos := pos + n }) s).emit
      (.reply (flashAt s (altFlash u.alt) (targetOff t + pos) n))

def execDfuUpload (b : BId) (len : BitVec 16) (rdErr : Bool) (s : State) : Host.Outcome State Fault Refusal :=
  ran s (dfuUpload b len.toNat rdErr s.begin)

def dfuCode : DfuState → Nat
  | .idle => 2 | .dnloadSync => 3 | .dnBusy => 4 | .dnloadIdle => 5 | .manifestSync => 6 | .uploadIdle => 9 | .error => 10

/-- The state a GETSTATUS leads to: a block's flash work makes dfuDNBUSY, its end dfuDNLOAD-IDLE. -/
def dfuAfterStatus (d : Dfu) : DfuState :=
  if d.st == .dnloadSync || d.st == .dnBusy then
    (if d.op.isSome || !d.staged.isEmpty then .dnBusy else .dnloadIdle)
  else d.st

/-- bwPollTimeout in ms (R441). -/
def dfuPollMs (u : Us) (st : DfuState) : Nat :=
  match st with
  | .dnBusy => if u.dfu.eraseBlk then fld u.dfuPoll 15 0 else fld u.dfuPoll 31 16
  | .manifestSync => 20
  | _ => 0

/-- DFU_GETSTATUS (R435); with DFU_EN 0 it reports errTARGET in dfuERROR (R434). -/
def dfuGetStatus (b : BId) (s : State) : State :=
  let u := usOf s b
  if !isConf s b then s
  else if !bitAt u.cfg 1 then s.emit (.reply [1, 0, 0, 0, 10, 0])
  else
    let st := dfuAfterStatus u.dfu
    (updDfu b (fun d => { d with st := st }) s).emit
      (.reply (BitVec.ofNat 8 u.dfu.status :: leBytes 3 (dfuPollMs u st) ++ [BitVec.ofNat 8 (dfuCode st), 0]))

def execDfuGetstatus (b : BId) (s : State) : Host.Outcome State Fault Refusal := ran s (dfuGetStatus b s.begin)

/-- DFU_CLRSTATUS (R438). -/
def dfuClrStatus (b : BId) (s : State) : State :=
  if !isConf s b then s
  else if !bitAt (usOf s b).cfg 1 then s.emit .stall
  else if (dfuOf s b).st == .error then (updDfu b (fun d => { d with st := .idle, status := 0 }) s).emit .ack
  else dfuUnexpected b s

def execDfuClrstatus (b : BId) (s : State) : Host.Outcome State Fault Refusal := ran s (dfuClrStatus b s.begin)

/-- DFU_GETSTATE (R435). -/
def dfuGetState (b : BId) (s : State) : State :=
  if !isConf s b then s
  else s.emit (.reply [BitVec.ofNat 8 (if bitAt (usOf s b).cfg 1 then dfuCode (dfuOf s b).st else 10)])

def execDfuGetstate (b : BId) (s : State) : Host.Outcome State Fault Refusal := ran s (dfuGetState b s.begin)

/-- DFU_ABORT (R439, R451): ends a download before manifestation; ignored in manifestation. -/
def dfuAbort (b : BId) (s : State) : State :=
  if !isConf s b then s
  else if !bitAt (usOf s b).cfg 1 then s.emit .stall
  else if (dfuOf s b).st == .error then s.emit .stall
  else (dfuCut b 0 s).emit .ack

def execDfuAbort (b : BId) (s : State) : Host.Outcome State Fault Refusal := ran s (dfuAbort b s.begin)

/-- DFU_DETACH is stalled (R435). -/
def execDfuDetach (b : BId) (s : State) : Host.Outcome State Fault Refusal :=
  let s := s.begin
  ran s (if isConf s b then s.emit .stall else s)

/-! ### Manifestation (R440) -/

/-- The download check (R440): 0, or the code of the failing step. -/
def downloadCheck (s : State) (h f : BId) (t : Nat) (rdErr : Bool) : Nat :=
  let base := targetOff t
  if t ≤ 1 then
    let hd := flashAt s f base 128
    chartHead (s.at h) (flashAt s f base (128 + chartBody hd + 192)) rdErr
  else
    let role := (targetRole t).1
    let hd := flashAt s f base 64
    let len := min (natAt hd 8 4) (targetSize t)
    let bs := flashAt s f base (64 + len)
    let tr := flashAt s f (base + 64 + len) 192
    let graph := role == 1 || role == 2
    if rdErr then 1
    else if graph && !formatOk bs then 1
    else if !graph && !imageHeaderOk role hd then 2
    else if !imageDevOk role bs then 3
    else if (s.at h).ch.locked && (s.at h).hasRec 13 role then imageBound (s.at h) role bs tr
    else 0

/-- The download has passed (R440). -/
def dfuPass (b : BId) (ver : Nat) (s : State) : State :=
  let s := updUs b (fun u => { u with
    dfuDone := sinc u.dfuDone, dfu := { u.dfu with st := .idle, status := 0, active := false, held := [] } }) s
  logDfu b ver s

/-- MANIFESTATION_DONE (R440): the held bytes are programmed (`progOk`), read back (`same`) and checked (`rdErr`: a read of
the region failed). -/
def manifestationDone (b : BId) (progOk same rdErr : Bool) (s : State) : State :=
  let u := usOf s b
  let f := altFlash u.alt
  let t := u.alt % 11
  let base := targetOff t
  let ver := natAt u.dfu.held 0x0C 4
  if u.dfu.st != .manifestSync || u.dfu.op.isSome || s.dev.sleep then s
  else if !flashThere s f then dfuEnd b 3 ver s
  else if !progOk then dfuEnd b 6 ver (tornProgram f base u.dfu.held s)
  else
    let s := s.upd f fun x => { x with flash := flashProgram base u.dfu.held x.flash }
    if !same then dfuEnd b 7 ver s
    else
      let c := downloadCheck s b f t rdErr
      if c == 0 then dfuPass b ver s
      else
        let s := s.upd f fun x => { x with flash := flashErase base 0x10000 x.flash }
        dfuEnd b 2 ver (updDfu b (fun d => { d with check := c }) s)

def execManifestationDone (b : BId) (progOk same rdErr : Bool) (s : State) : Host.Outcome State Fault Refusal :=
  ran s (manifestationDone b progOk same rdErr s.begin)

/-- A chart download into the slot that the loader starts to check ends with errWRITE (R451). -/
def dfuChartCut (h : BId) (slotB : Bool) (s : State) : State :=
  let u := usOf s h
  if u.dfu.active && u.dfu.st != .manifestSync && altFlash u.alt == h && u.alt % 11 == b2n slotB then dfuEnd h 3 0 s else s

/-- The image loader's check of a region ends (R374, R375), and the flash may be free (R443); in SLEEP its clock stands (R115). -/
def imageChecked (h : BId) (unreadA unreadB rdErr : Bool) (s : State) : State :=
  if s.dev.sleep then s else flashFree true h (imageCheckDone h unreadA unreadB rdErr s)

def execImageCheckDone (h : BId) (unreadA unreadB rdErr : Bool) (s : State) : Host.Outcome State Fault Refusal :=
  ran s (imageChecked h unreadA unreadB rdErr s.begin)

end Sys2Proof.Machine
end

