-- ==== Sys2Proof/Machine/Chart.lean ====
section
/-! DEFINITION. Loading, distributing and locking the chart, and the CH_CMD orders (R93 to R108). -/
namespace Sys2Proof.Machine

def chOf (s : State) (b : BId) : Ch := (s.at b).ch
def updCh (b : BId) (f : Ch → Ch) (s : State) : State := s.upd b fun x => { x with ch := f x.ch }

/-- The other populated berths of the harbour's chart (R96). -/
def chartBerths (s : State) (h : BId) : List BId := allB.filter fun n => n != h && nbit (s.at h).populated n.val

def distOf (s : State) (n : BId) : Dist := vget s.tray.dist n.val

def setDist (h n : BId) (d : Dist) (s : State) : State := s.updTray h fun t => { t with dist := vset t.dist n.val d }

def setStartFail (b : BId) (code : Nat) (s : State) : State := s.upd b fun x => { x with sy := { x.sy with fail := code } }

/-- A CH_CMD order that runs ends (R107). -/
def chCmdEnd (h : BId) (cmd result : Nat) (s : State) : State :=
  let c := chOf s h
  if c.busy && c.lastCmd == cmd then updCh h (fun c => { c with busy := false, result := result, redistFor := none }) s else s

/-! ### The slot checks (R93, R94) -/

/-- The harbour starts to load the chart (R93, R132). -/
def chartLoad (h : BId) (s : State) : State :=
  let s := iter allB (fun b t => if (t.at b).sy.fail == 1 then setStartFail b 0 t else t) s
  updCh h (fun c => { c with state := .reading, load := .start, readSince := s.now }) s

/-- Whether slot B is tried first (R93). -/
def slotBFirst (s : State) (h : BId) (unreadA unreadB : Bool) : Bool :=
  let a := flashAt s h 0 128
  let b := flashAt s h 0x40000 128
  let okA := !unreadA && chartHeaderOk a
  let okB := !unreadB && chartHeaderOk b
  let ra := natAt a 0x10 1
  let rb := natAt b 0x10 1
  okB && (!okA || rb > ra || (rb == ra && natAt b 0x0C 4 > natAt a 0x0C 4))

/-- The fields a berth parses from a chart (R96), with the records it keeps. -/
def chartFields (bs : List Byte) (keep : ChartRec → Bool) (c : Ch) : Ch :=
  let rs := match chartRecs bs with
    | .ok rs => rs
    | .error _ => []
  { c with ver := wordAt bs 0x0C, rollback := natAt bs 0x10 1, keyIdx := natAt bs 0x11 1 % 4, trayId := wordAt bs 0x14
           digest := chartDigest bs, recs := rs.filter keep }

/-- A slot has passed: the harbour holds the chart and every populated berth is due (R96). -/
def chartPassed (h : BId) (slotB : Bool) (s : State) : State :=
  let bs := slotChart s h slotB
  let s := updCh h (fun c => { chartFields bs (fun _ => true) c with state := .distributing, load := .idle, slot := some slotB }) s
  s.updTray h fun t => { t with
    dist := Vector.ofFn fun i => if i.val != h.val && nbit (s.at h).populated i.val then .due slotB else .none
    moor := .replicate 8 0, attempts := .replicate 8 0 }

/-- Both slots have failed (R93, R137, R412). -/
def chartBothFail (h : BId) (s : State) : State :=
  let s := updCh h (fun c => { c with state := .failed, load := .idle }) s
  let s := iter allB (fun b t => if (t.at b).sy.st == .moored then setStartFail b 1 t else t) s
  attn 5 (chCmdEnd h 1 0 s)

/-- The check of one slot ends (R94). -/
def chartSlot (h : BId) (slotB other rdErr : Bool) (s : State) : State :=
  let s := dfuChartCut h slotB s
  match chartCheck s h slotB rdErr with
  | none => chartPassed h slotB s
  | some (code, idx) =>
    let s := updCh h (fun c => { c with
      errCode := code, errSlot := slotB, errIndex := idx, loadFail := sinc c.loadFail, readSince := s.now
      load := .check (!slotB) false }) s
    if other then s else chartBothFail h s

/-! ### Reading a slot again (R100) -/

/-- A berth is held moored (R97). -/
def holdMoored (h n : BId) (cause : Nat) (s : State) : State :=
  let s := s.updTray h fun t => { t with dist := vset t.dist n.val .held, moor := vset t.moor n.val cause }
  let s := setStartFail n 2 (updCh n (fun c => { c with agree := false }) s)
  let s := if (chOf s h).redistFor == some n then chCmdEnd h 2 0 s else s
  attn 5 s

/-- The idle loader turns to the lowest berth that waits for a distribution under R100. -/
def rereadNext (h : BId) (s : State) : State :=
  if (chOf s h).load != .idle then s
  else match allB.find? fun n => distOf s n == .reread with
    | none => s
    | some n =>
      let b := (chOf s h).slot.getD false
      updCh h (fun c => { c with load := .reread n b true }) s

/-- Berth n is to receive the locked chart (R100); before lock it is due again (R131). -/
def redistribute (h n : BId) (s : State) : State :=
  if n == h || !nbit (s.at h).populated n.val then s
  else
    let s := s.updTray h fun t => { t with attempts := vset t.attempts n.val 0, moor := vset t.moor n.val 0 }
    if (chOf s h).state == .distributing then setDist h n (.due ((chOf s h).slot.getD false)) s
    else if (chOf s h).locked then rereadNext h (setDist h n .reread s)
    else s

/-- A slot has been read again (R100): sent only if its digest is the locked digest. -/
def reread (h n : BId) (slotB other rdErr : Bool) (s : State) : State :=
  let hit := !rdErr && chartDigest (slotChart s h slotB) == (chOf s h).digest
  if distOf s n != .reread then rereadNext h (updCh h (fun c => { c with load := .idle }) s)
  else if hit then rereadNext h (setDist h n (.due slotB) (updCh h (fun c => { c with load := .idle }) s))
  else if other then updCh h (fun c => { c with load := .reread n (!slotB) false }) s
  else rereadNext h (holdMoored h n 5 (updCh h (fun c => { c with load := .idle }) s))

/-- CHART_SLOT_CHECK_DONE (R94, R100): `unreadA`, `unreadB`: headers whose read failed; `rdErr`: a read of the slot failed. -/
def slotCheckDone (h : BId) (unreadA unreadB rdErr : Bool) (s : State) : State :=
  if !s.isHbr h || s.dev.sleep then s
  else flashFree true h <| match (chOf s h).load with
    | .idle => s
    | .start =>
      let b := slotBFirst s h unreadA unreadB
      chartSlot h b true (rdErr || (if b then unreadB else unreadA)) s
    | .check b other => chartSlot h b other (rdErr || (if b then unreadB else unreadA)) s
    | .reread n b other => reread h n b other rdErr s

def execChartSlotCheckDone (h : BId) (unreadA unreadB rdErr : Bool) (s : State) : Host.Outcome State Fault Refusal :=
  ran s (slotCheckDone h unreadA unreadB rdErr s.begin)

/-! ### Distribution and agreement (R96, R97) -/

/-- CHART_DISTRIBUTE (R96): every berth that is due is sent the chart of the passing slot. -/
def chartDistribute (h : BId) (s : State) : State :=
  let c := chOf s h
  if !s.isHbr h || !(c.state == .distributing || c.locked) then s
  else iter allB (fun n t => match distOf t n with
    | .due b =>
      let t := t.updTray h fun y => { y with
        dist := vset y.dist n.val (.sent b false), attempts := vset y.attempts n.val (vget y.attempts n.val + 1) }
      ringSend h (some n) (.chart (slotChart t h b)) t
    | _ => t) s

def execChartDistribute (h : BId) (s : State) : Host.Outcome State Fault Refusal := ran s (chartDistribute h s.begin)

/-- The records a berth keeps (R96): the tray-wide ones, the image roles, and its own; B0 and B4 keep all, so that either
can hold the harbour role. -/
def keepsRec (b : BId) (r : ChartRec) : Bool :=
  b == 0 || b == 4 || (trayType r.ty && r.ty != 11) || r.ty == 13 || (unitType r.ty && r.inst == b.val)

/-- Berth b holds a chart under whose HBR_CAP it is harbour-capable. -/
def hbrCap (x : Berth) (b : BId) : Bool := nbit (fld (x.recWord 1 0 0) 15 8) b.val

/-- CHART_STREAM_RECEIVE (R96): a moored berth hashes the stream, keeps its records and acknowledges. -/
def chartStream (b : BId) (bs : List Byte) (s : State) : State :=
  if (s.at b).sy.st != .moored || s.isHbr b then s
  else
    let s := updCh b (fun c => { chartFields bs (keepsRec b) c with state := .distributing, stream := bs }) s
    let c := chOf s b
    let s := updCh b (fun c => { c with sigDue := hbrCap (s.at b) b }) s
    ringSend b (some (s.at b).sy.harbour) (.chartAck (.first c.digest c.ver c.rollback (vget c.fuse 0))) s

def execChartStreamReceive (b : BId) (bs : List Byte) (s : State) : Host.Outcome State Fault Refusal :=
  ran s (chartStream b bs s.begin)

/-- BERTH_SIGNATURE_CHECK_DONE (R96): a harbour-capable berth's own check of key and signature. -/
def berthSignature (b : BId) (s : State) : State :=
  if !(chOf s b).sigDue then s
  else
    let ok := chartAuthentic (s.at b) (chOf s b).stream
    ringSend b (some (s.at b).sy.harbour) (.chartAck (.sig ok)) (updCh b (fun c => { c with sigDue := false, stream := [] }) s)

def execBerthSignatureCheckDone (b : BId) (s : State) : Host.Outcome State Fault Refusal := ran s (berthSignature b s.begin)

/-- An attempt to berth n has failed (R97): sent again, or held moored after 3 attempts. -/
def attemptFails (h n : BId) (slotB : Bool) (cause : Nat) (s : State) : State :=
  if vget (s.at h).tray.attempts n.val ≥ 3 then holdMoored h n cause s else setDist h n (.due slotB) s

/-- CHART_ACK (R96): the harbour judges an acknowledgement of berth n. -/
def chartAck (h n : BId) (a : ChartAck) (s : State) : State :=
  let c := chOf s h
  if !s.isHbr h then s
  else match distOf s n, a with
    | .sent b false, .first dg ver rb fuse =>
      if dg != c.digest || ver != c.ver || rb != c.rollback then attemptFails h n b 1 s
      else if fuse > rb then attemptFails h n b 2 s
      else setDist h n (if hbrCap (s.at h) n then .sent b true else .agreed) s
    | .sent b true, .sig ok => if ok then setDist h n .agreed s else attemptFails h n b 3 s
    | _, _ => s

def execChartAck (h n : BId) (a : ChartAck) (s : State) : Host.Outcome State Fault Refusal := ran s (chartAck h n a s.begin)

/-- CHART_ACK_TIMEOUT (R97): NO_ACK only where no acknowledgement of the attempt has arrived. -/
def chartAckTimeout (h n : BId) (s : State) : State :=
  if !s.isHbr h then s
  else match distOf s n with
    | .sent b first => attemptFails h n b (if first then 3 else 4) s
    | _ => s

def execChartAckTimeout (h n : BId) (s : State) : Host.Outcome State Fault Refusal := ran s (chartAckTimeout h n s.begin)

/-! ### Lock (R69, R70, R98) -/

/-- Word w of record (ty, inst) of a berth's chart copy, or a reset value where the chart has no such record. -/
def lockWord (x : Berth) (ty inst w : Nat) (dflt : Word) : Word := if x.hasRec ty inst then x.recWord ty inst w else dflt

/-- The dither state at lock (R69). -/
def ditherSeed (cfg : Word) : Nat :=
  let v := (crc32 (leBytes 8 Config.uid.toNat)).toNat % 65536 ^^^ fld cfg 31 16
  if v == 0 then 0xACE1 else v

/-- The dither offset d for a state of the LFSR (R68). -/
def ditherOf (t : Td) (lfsr : Nat) : Nat :=
  if fld t.ctrl 3 2 == 0 then 0 else lfsr * (fld t.ditherCfg 5 0 + 1) / 65536

/-- The TIDE record takes effect (R70); a loop whose input is not enabled is FREE. -/
def lockTd (x : Berth) : Td :=
  let w (i : Nat) (d : Word) : Word := lockWord x 2 0 i d
  let t := { x.td with ctrl := w 0 1, filt := w 1 0x000A2864, slew := w 2 0x00320010, ofs := w 3 0, ditherCfg := w 4 0
                       stepWin := w 5 0x1040 }
  if bitAt t.ctrl 0 || t.loop == .inputRetired then t
  else { t with loop := .free, ref := none, edgeAt := none, clean := false, losses := 0, periods := [], pnHold := none
                slewLeft := if x.sy.isHarbour && t.loop == .locked then 0 else t.slewLeft }

def lockRl (x : Berth) (b : Nat) : Rl :=
  { x.rl with
    thr := Vector.ofFn fun i => lockWord x 4 b (2 * i.val) 0x3FFF0000
    incfg := Vector.ofFn fun i => lockWord x 4 b (2 * i.val + 1) 0x000F0000
    hard := Vector.ofFn fun i => lockWord x 5 b (7 + i.val) 0x0FFF0000
    graph0 := Vector.ofFn fun i => lockWord x 3 b (2 * i.val) 0xFF00
    graph1 := Vector.ofFn fun i => lockWord x 3 b (2 * i.val + 1) 0 }

def lockCl (x : Berth) (b : Nat) : Cl :=
  { x.cl with
    ch := Vector.ofFn fun i => { vget x.cl.ch i.val with
      cfg0 := lockWord x 6 b (2 * i.val) 0, cfg1 := lockWord x 6 b (2 * i.val + 1) 0xA
      dmin := wordOf (fld (lockWord x 5 b 6 0) (8 * i.val + 7) (8 * i.val)) }
    rope := Vector.ofFn fun i =>
      let w := lockWord x 7 b i.val 0x0FFF0000
      { vget x.cl.rope i.val with cfg := w, st := if fld w 31 28 == 0 then .notFitted else .pending }
    valve := lockWord x 7 b 2 0 }

def lockAr (x : Berth) (b : Nat) : Ar :=
  let g := lockWord x 9 b 0 0
  { x.ar with
    group := g, gcfg := Vector.ofFn fun i => lockWord x 9 b (1 + i.val) 0
    arr := Vector.ofFn fun i =>
      let cal := bitAt g (24 + fld g (2 * i.val + 1) (2 * i.val))
      { vget x.ar.arr i.val with calMode := cal, map := resetMap cal } }

/-- Every RWL field of a berth takes the chart's value (R98), and the values that follow from the chart are fixed (R184). -/
def lockFields (b : BId) (x : Berth) : Berth :=
  let n := b.val
  let port := b == 0 || b == 4
  { x with
    td := lockTd x, rl := lockRl x n, cl := lockCl x n, ar := lockAr x n
    dk := { x.dk with hand := Vector.ofFn fun i => lockWord x 8 0 i.val 0, inDeck := true }
    hw := { x.hw with cfg := lockWord x 10 n 0 0x00034008, tmo := lockWord x 10 n 1 0x00C803E8 }
    tw := if port then { x.tw with cfg := lockWord x 11 0 0 0x006400C1 } else x.tw
    us := if port then { x.us with cfg := lockWord x 11 0 1 0xF } else x.us
    pw := { x.pw with parts := Vector.ofFn fun i =>
      { vget x.pw.parts i.val with sBw := if stepCount x n i.val > 0 then bwCap x n i.val else 31 } } }

/-- A fitted rope from lock on (R229, R238): PENDING until a condition is confirmed anew. -/
def ropePending (p : Rope) : Rope :=
  if p.st == .notFitted || p.st == .retired then p
  else { p with st := .pending, wetRun := 0, openRun := 0, dryRun := 0, wetDone := false, openDone := false }

/-- Berth b writes its RWL fields, locks and becomes ACTIVE (R98, R134, R225): cooling starts at CMD 1,000 (R212), ropes are supervised, the log
writer runs, on the harbour with its RESET record first (R169). A berth released from isolation keeps the RWL values it locked
(R27). -/
def lockBerth (h b : BId) (s : State) : State :=
  let first := b == h && !(s.at b).log.on
  let s := if (s.at b).log.on then s else s.upd b (lockFields b)
  let s := updCh b (fun c => { c with
    state := .locked, locked := true, agree := true, slot := (chOf s h).slot, stream := [], sigDue := false }) s
  let s := s.upd b fun x => { x with sy := { x.sy with st := .active, fail := if x.sy.fail ≤ 2 then 0 else x.sy.fail } }
  let s := s.updCl b fun c => { c with
    silenceFrom := s.now, silenceHeld := none, ch := c.ch.map (fun k => { k with cmd := 1000 }), rope := c.rope.map ropePending }
  let s := logStart b s
  let s := if first then logServe h 0x02 (wordOf (s.at h).sy.cause) (wordOf h.val) true s else s
  let s := iter (upto 3) (fun c t =>
    if coolMode (coolOf t b c) != 0 && (coolOf t b c).st != .retired then kickStart b c t else t) s
  let s := iter (upto 2) (fun r t => if (ropeOf t b r).st == .pending then ropeTell b r t else t) s
  usbFollow b s

/-- What the harbour does at the first lock: the dither seed, the budget, which writes no BUDGET record since no
requester changed it (R207 leaves it open; DESIGN CHOICE, notes entry 88), the images and pending attention. -/
def lockHarbour (h : BId) (bs : List BId) (s : State) : State :=
  let x := s.at h
  let lfsr := ditherSeed x.td.ditherCfg
  let d := ditherOf x.td lfsr
  let s := iter bs (fun b t => t.upd b fun y => { y with td := { y.td with lfsr := lfsr, dith := d } }) s
  let s := s.updTray h fun t => { t with pw := { t.pw with budget := fld (x.recWord 1 0 1) 31 16 } }
  let s := s.upd h fun y => { y with tw := { y.tw with sigDue := y.tw.sigDue || (y.tw.attn &&& y.tw.attnEn) != 0 } }
  startImages h (setQuotas s)

/-- A berth that locks after the first lock joins (R98, R369): its pilot loads by a restart stream. -/
def lockLate (h b : BId) (s : State) : State :=
  let d := (s.at h).td.dith
  let s := lockBerth h b s
  let s := s.upd b fun y => { y with td := { y.td with dith := d, lfsr := (s.at h).td.lfsr } }
  let s := setQuotas s
  let ready (r : Nat) : Bool := (vget s.tray.img.roles r).st == .loaded
  let s := if ready 0 && (s.at b).pl.st == .off then s.updPl b fun p => { p with st := .loading, stream := true } else s
  let s := iter [3, 1, 2] (fun r t => if ready r then imageOn b r t else t) s
  if (chOf s h).redistFor == some b then chCmdEnd h 2 0 s else s

/-- CHART_LOCK (R98): the first lock, once every populated berth agrees or is held; then each berth that agrees later. -/
def chartLock (h : BId) (s : State) : State :=
  let c := chOf s h
  let agreed := allB.filter fun n => distOf s n == .agreed && (s.at n).sy.st == .moored && !(chOf s n).locked
  if !s.isHbr h then s
  else if c.locked then iter agreed (lockLate h) s
  else if c.state == .distributing && (chartBerths s h).all fun n => distOf s n == .agreed || distOf s n == .held then
    let s := iter (h :: agreed) (lockBerth h) s
    chCmdEnd h 1 0 (lockHarbour h (h :: agreed) s)
  else s

def execChartLock (h : BId) (s : State) : Host.Outcome State Fault Refusal := ran s (chartLock h s.begin)

/-! ### Fuses (R104 to R106) -/

/-- The next fuse of a key slot to burn. -/
def keyBit (s : State) (b : BId) (slot : Nat) (data : BitVec 384) : Option Nat :=
  (upto 384).find? fun i => data.getLsbD i && !(vget (chOf s b).keys slot).getLsbD i

def fuseOrder : FuseJob → Nat
  | .count _ _ _ => 3 | .key _ _ _ => 5 | .revoke _ _ => 4

/-- Whether berth b still has a fuse to burn for a job. -/
def fuseOpen (s : State) (j : FuseJob) (b : BId) : Bool :=
  match j with
  | .count cls target _ => vget (chOf s b).fuse cls < target
  | .key slot data _ => (keyBit s b slot data).isSome
  | .revoke slot _ => !nbit (chOf s b).revoked slot

def fuseBerths : FuseJob → List BId
  | .count _ _ bs => bs | .key _ _ bs => bs | .revoke _ bs => bs

def withBerths (j : FuseJob) (bs : List BId) : FuseJob :=
  match j with
  | .count c t _ => .count c t bs | .key k d _ => .key k d bs | .revoke k _ => .revoke k bs

/-- The order goes on with the first berth that has a fuse to burn, or ends; a counter that stays short makes FUSE_FAIL
(R105). -/
def fuseNext (h : BId) (j : FuseJob) (s : State) : State :=
  let rest := (fuseBerths j).dropWhile fun b => !reachable s b || !fuseOpen s j b
  let skipped := (fuseBerths j).takeWhile fun b => !reachable s b || !fuseOpen s j b
  let short := (skipped.any fun b => fuseOpen s j b) && fuseOrder j == 3
  let s := updCh h (fun c => { c with fuseShort := c.fuseShort || short }) s
  if rest.isEmpty then
    chCmdEnd h (fuseOrder j) (if (chOf s h).fuseShort then 5 else 0) (updCh h (fun c => { c with fuseJob := none }) s)
  else updCh h (fun c => { c with fuseJob := some (withBerths j rest) }) s

/-- One fuse of berth b burns. -/
def burn (j : FuseJob) (b : BId) (s : State) : State :=
  match j with
  | .count cls _ _ => updCh b (fun c => { c with fuse := vmod c.fuse cls (· + 1) }) s
  | .key slot data _ =>
    match keyBit s b slot data with
    | some i => updCh b (fun c => { c with keys := vmod c.keys slot fun k => k ||| (1#384 <<< i) }) s
    | none => s
  | .revoke slot _ => updCh b (fun c => { c with revoked := c.revoked ||| 2 ^ slot }) s

/-- FUSE_BURN_DONE (R104): one fuse has burned, or has not and its berth is given up. -/
def fuseBurnDone (h : BId) (ok : Bool) (s : State) : State :=
  match (chOf s h).fuseJob with
  | none => s
  | some j => match fuseBerths j with
    | [] => s
    | b :: bs =>
      if ok then fuseNext h j (if reachable s b then burn j b s else s)
      else fuseNext h (withBerths j bs) (updCh h (fun c => { c with fuseShort := true }) s)

def execFuseBurnDone (h : BId) (ok : Bool) (s : State) : Host.Outcome State Fault Refusal := ran s (fuseBurnDone h ok s.begin)

/-! ### CH_CMD (R104 to R107) -/

/-- The rollback value of the image running in a class (R104). -/
def commitTarget (s : State) (h : BId) (cls : Nat) : Option Nat :=
  let role (r : Nat) : Option Nat :=
    let q := vget s.tray.img.roles r
    if q.st == .loaded then some q.rollback else none
  match cls with
  | 0 => some (chOf s h).rollback
  | 1 => role 0
  | 2 => (allB.find? fun b =>
      let g := (graphOf s b 0).st
      g == .running || g == .stalled || g == .fallback).map fun b => (imgOf (graphOf s b 0)).rollback
  | 3 => role 3
  | _ => none

/-- The harbour-capable berths that a key order reaches, B4 before B0 (R106). -/
def keyBerths (s : State) : List BId := [4, 0].filter (reachable s)

/-- A key slot is blank on every reachable harbour-capable berth. -/
def keyBlank (s : State) (slot : Nat) : Bool := (keyBerths s).all fun b => vget (chOf s b).keys slot == 0

/-- Argument of an order cannot be used (R107). -/
def chArgBad (s : State) (h : BId) (cmd arg : Nat) : Bool :=
  match cmd with
  | 1 => arg != 0
  | 2 => arg > 7 || arg == h.val || !nbit (s.at h).populated arg
  | 3 => arg > 3 || (commitTarget s h arg).isNone
  | 4 => arg > 3 || keyBlank s arg || ((chOf s h).locked && (chOf s h).keyIdx == arg)
  | _ => arg > 3 || !keyBlank s arg

/-- The result of a write to CH_CMD (R107): the first test that fails. -/
def chRefuse (s : State) (h : BId) (cmd arg guard : Nat) (req : ReqId) : Nat :=
  let c := chOf s h
  let stateOk := match cmd with
    | 1 => c.state == .none || c.state == .failed
    | 2 => c.locked
    | 3 => c.locked
    | _ => true
  if !(req == 9 || (req == 10 && cmd != 5)) then 4
  else if cmd ≥ 3 && guard != 0xC4A7 then 2
  else if !stateOk then 1
  else if chArgBad s h cmd arg then 3
  else 0

/-- The effect of an accepted order. -/
def chAct (h : BId) (cmd arg : Nat) (s : State) : State :=
  let c := chOf s h
  let n := bid arg
  match cmd with
  | 1 => chartLoad h s
  | 2 => if distOf s n == .agreed then chCmdEnd h 2 0 s
    else
      let s := updCh h (fun c => { c with redistFor := some n }) s
      if distOf s n == .none || distOf s n == .held then redistribute h n s else s
  | 3 =>
    let bs := (allB.reverse.filter fun b => b != h && distOf s b == .agreed) ++ [h]
    fuseNext h (.count arg ((commitTarget s h arg).getD 0) bs) s
  | 4 => fuseNext h (.revoke arg (keyBerths s)) s
  | _ =>
    let data := BitVec.ofNat 384 (leNat (wordsBytes c.keyData.toList))
    fuseNext h (.key arg data (keyBerths s)) s

/-- A write to CH_CMD (R107): no effect while an order runs. -/
def chCmd (cmd : Nat) (req : ReqId) (arg guard : Nat) (s : State) : State :=
  match s.harbour with
  | none => s
  | some h =>
    if (chOf s h).busy then s
    else
      let r := chRefuse s h cmd arg guard req
      let s := updCh h (fun c => { c with
        lastCmd := cmd, cmdReq := req.val, result := r, busy := r == 0, fuseShort := false }) s
      if r == 0 then chAct h cmd arg s else s

/-! ### Loss of the harbour (R101) -/

/-- A berth's chart state is discarded before lock (R101): slot errors, fuses and keys stay. -/
def chartDiscard (c : Ch) : Ch :=
  { errCode := c.errCode, errSlot := c.errSlot, errIndex := c.errIndex, loadFail := c.loadFail, fuse := c.fuse, keys := c.keys
    revoked := c.revoked }

/-- After a takeover (R101): distributions in progress run again from the new harbour's flash, and the CH_CMD registers
start afresh. -/
def chartTakeover (old h : BId) (s : State) : State :=
  let s := updCh h (fun c => { c with
    load := .idle, lastCmd := 0, busy := false, result := 0, cmdReq := 0, keyData := .replicate 12 0, fuseJob := none
    fuseShort := false, redistFor := none }) s
  let again (d : Dist) : Bool := match d with
    | .reread => true
    | .due _ => true
    | .sent _ _ => true
    | _ => false
  let s := s.updTray h fun t => { t with
    attempts := Vector.ofFn fun i => if again (vget t.dist i.val) then 0 else vget t.attempts i.val
    dist := Vector.ofFn fun i => if again (vget t.dist i.val) then .reread else vget t.dist i.val }
  rereadNext h (setDist h h .none (setDist h old .agreed s))

end Sys2Proof.Machine
end

