-- ==== Sys2Proof/Machine/Tide.lean ====
section
/-! DEFINITION. The tide timebase: the mark generator, the tide loop, and alignment on TIDE flits (R47 to R70). Periods and
phases count in units of 2⁻³² REF cycles (R55); the generator's boundaries fall on REF cycles. -/
namespace Sys2Proof.Machine

def tdOf (s : State) (b : BId) : Td := (s.at b).td
def updTd (b : BId) (f : Td → Td) (s : State) : State := s.upd b fun x => { x with td := f x.td }

/-- The period of 60.000 Hz, and the bounds 1/65 s and 1/45 s (R49, R54). -/
abbrev pn60 : Nat := 1789569706666667
abbrev pnMin : Nat := 384615 * 2 ^ 32
abbrev pnMax : Nat := 555556 * 2 ^ 32

/-- Fields of the loop's registers: before the berth has locked, their reset values (R70). -/
def loopCtrl (x : Berth) : Word := if x.log.on then x.td.ctrl else 0x00000001
def loopFilt (x : Berth) : Word := if x.log.on then x.td.filt else 0x000A2864
def loopSlew (x : Berth) : Word := if x.log.on then x.td.slew else 0x00320010
def loopOfs (x : Berth) : Nat := if x.log.on then fld x.td.ofs 15 0 else 0

/-- A berth's count of marks. -/
def markCount (t : Td) : Nat := t.tide * 256 + t.mark

/-! ### The mark generator (R55 to R57) -/

/-- The most by which one mark may differ from Pn/256, in units of 2⁻⁴⁰ REF cycles (R56). Pn/256 is `pn` such units. -/
def slewMax (t : Td) : Nat := t.slewBy * t.pn / 1024

/-- The bounds of every mark, 56.34 µs and 92.23 µs (R57), in units of 2⁻⁴⁰ REF cycles. -/
abbrev markMin : Nat := 2817 * 2 ^ 39
abbrev markMax : Nat := 9223 * 2 ^ 38

/-- The part of the correction still to apply that the next mark takes (R56, R57). -/
def slewPart (t : Td) : Int :=
  let m : Int := slewMax t
  let c := max (-m) (min m t.slewLeft)
  max ((markMin : Int) - t.pn) (min ((markMax : Int) - t.pn) c)

/-- The running mark starts at REF cycle `at0` and a fraction: its length is Pn/256 with the part of the correction that it
takes (R55, R56). -/
def startMark (at0 frac : Nat) (t : Td) : Td :=
  { t with markStart := at0, markFrac := frac, markLen := ((t.pn : Int) + slewPart t).toNat
           slewLeft := t.slewLeft - slewPart t, slewNow := slewPart t }

/-- A mark follows another: the accumulator keeps the fraction at which the mark before it ends, so that the marks of a tide sum
to Pn and no error builds up (R55). -/
def beginMark (at0 : Nat) (t : Td) : Td := startMark at0 ((t.markFrac + t.markLen) % 2 ^ 40) t

/-- A berth's generator starts in FREE with tide 0 and mark 0 (R70). -/
def tideStart (b : BId) (s : State) : State :=
  if (tdOf s b).running then s else updTd b (fun t => startMark s.now 0 { t with running := true }) s

/-- The period toward which the harbour's nominal period moves (R52, R54). -/
def periodTarget (t : Td) : Nat :=
  match t.loop with
  | .locked => t.p
  | .hold => t.pnHold.getD t.pn
  | .acquire => if t.fromHold then t.pnHold.getD t.pn else pn60
  | .free | .inputRetired => pn60

/-- The nominal period one tide later (R54). -/
def nextPeriod (t : Td) : Nat :=
  let goal := min (max (periodTarget t) pnMin) pnMax
  if goal ≥ t.pn then min goal (t.pn + t.pn / 256) else max goal (t.pn - t.pn / 256)

/-- One step of the dither LFSR (R69). -/
def lfsrStep (l : Nat) : Nat := if l % 2 == 1 then (l / 2) ^^^ 0xB400 else l / 2

/-- The boundary of mark 0 (R65): the tide counter, the nominal period, and, on the harbour, the dither. -/
def tideZero (harbour : Bool) (locked : Bool) (t : Td) : Td :=
  let t := { t with tide := (t.tide + 1) % 2 ^ 40, holdTides := t.holdTides + 1, dithPrev := t.dith }
  if harbour then
    let t := { t with pn := nextPeriod t }
    if locked then
      let l := lfsrStep t.lfsr
      { t with lfsr := l, dith := if fld t.ctrl 3 2 == 2 then ditherOf t l else t.dith }
    else t
  else { t with pn := t.pnNext.getD t.pn, pnNext := none, dith := t.dithNext.getD t.dith, dithNext := none }

/-- The count of marks goes up by one at a boundary; mark 0 opens a tide. -/
def countUp (harbour locked : Bool) (t : Td) : Td :=
  if t.mark == 255 then tideZero harbour locked { t with mark := 0 } else { t with mark := t.mark + 1 }

/-- First mark of the load-step window of a tide with dither offset d, and its width (R67). -/
def stepBase (t : Td) (d : Nat) : Nat := (fld t.stepWin 7 0 + d) % 256
def stepWidth (t : Td) : Nat := fld t.stepWin 14 8

/-- The place of the running mark within a load-step window (R67): that of this tide, or the end of the one that opened in the
tide before and wraps past mark 255. -/
def windowPos (t : Td) : Option Nat :=
  let b := stepBase t t.dith
  let p := stepBase t t.dithPrev
  if b ≤ t.mark && t.mark < b + stepWidth t then some (t.mark - b)
  else if t.mark + 256 < p + stepWidth t then some (t.mark + 256 - p)
  else none

/-! ### The tide loop (R48 to R53) -/

/-- Whether berth b carries a tide loop. -/
def hasLoop (b : BId) : Bool := b == 0 || b == 4

/-- The loop leaves for FREE, HOLD or INPUT_RETIRED: the reference point is discarded (R49). The harbour's loop corrects the
phase only in LOCKED (R56); a berth that is not the harbour slews after the harbour's flits alone (R51, R60). -/
def loopDrop (hbr : Bool) (st : Loop) (t : Td) : Td :=
  { t with loop := st, ref := none, losses := 0, periods := [], clean := false
           slewLeft := if hbr && t.loop == .locked then 0 else t.slewLeft
           pnHold := if t.loop == .locked then none else t.pnHold }

/-- A miss or a rejection (R52, R53): LOSS_COUNT of them in a row end LOCKED or ACQUIRE. -/
def loopLoss (b : BId) (s : State) : State :=
  let s := updTd b (fun t => { t with losses := t.losses + 1 }) s
  let t := tdOf s b
  if t.losses < fld (loopFilt (s.at b)) 15 12 then s
  else match t.loop with
    | .acquire => updTd b (loopDrop (s.isHbr b) (if t.fromHold then .hold else .free)) s
    | .locked =>
      let ev := classEvent s b 2 t.inHist
      let st : Loop := if ev.1 then .inputRetired else .hold
      let s := updTd b (fun t => { loopDrop (s.isHbr b) st t with lockLoss := sinc t.lockLoss, inHist := ev.2.1, holdTides := 0 }) s
      if ev.1 then notice b 2 0 2 ev.2.2 s else s
    | _ => s

/-- The acceptance window, as distances from the reference point (R49). -/
def loopWindow (x : Berth) : Nat × Nat :=
  let tol := fld (loopFilt x) 23 16
  match x.td.loop with
  | .locked => (max pnMin (x.td.p * (1024 - tol) / 1024), min pnMax (x.td.p * (1024 + tol) / 1024))
  | _ => (pnMin, pnMax)

/-- The test of R52 over the last ACQ_COUNT periods: their mean, where each lies within the tolerance of it. -/
def acquired (x : Berth) (ps : List Nat) : Option Nat :=
  let n := fld (loopFilt x) 11 8
  let mean := ps.foldl (· + ·) 0 / max 1 ps.length
  let tol := fld (loopFilt x) 23 16
  if ps.length == n && n > 0 && ps.all fun p => (max p mean - min p mean) * 1024 ≤ mean * tol then some mean else none

/-- An accepted period of length e (R52, R53). -/
def loopPeriod (x : Berth) (e : Nat) (t : Td) : Td :=
  match t.loop with
  | .acquire =>
    let ps := (e :: t.periods).take (fld (loopFilt x) 11 8)
    match acquired x ps with
    | some m => { t with loop := .locked, p := m, periods := [], fromHold := false, pnHold := none }
    | none => { t with periods := ps }
  | .locked => { t with p := (7 * t.p + e) / 8 }
  | _ => t

/-- The position of the target boundary of an edge at REF time `at0` in the local tide, in 2⁻⁴⁰ REF cycles (R56): before the
half tide it lies ahead, from it on behind. -/
def targetPos (x : Berth) (at0 : Nat) (t : Td) : Int :=
  let pos : Int := t.pn * t.mark + ((at0 : Int) - t.markStart) * 2 ^ 40 - t.markFrac + loopOfs x * t.pn / 256
  let m := pos % (256 * t.pn)
  if m < 128 * t.pn then m else m - 256 * t.pn

/-- The phase error of the harbour's LOCKED loop after an edge at REF time `at0`, and the correction (R56): an error below one REF
cycle is left, and the running mark's own part counts toward it. PHASE_ERR is cut to a whole 1/256 mark, downward, so that it
stays within ±128 marks (DESIGN CHOICE, notes entry 72). -/
def phaseCorrect (x : Berth) (at0 : Nat) (t : Td) : Td :=
  let err := targetPos x at0 t
  { t with phaseErr := err * 256 / t.pn, slewLeft := if err.natAbs < 2 ^ 40 then 0 else err - t.slewNow, slewBy := fld (loopSlew x) 6 0 }

/-- An accepted candidate at REF time `at0` (R49). -/
def loopEdge (b : BId) (at0 : Nat) (s : State) : State :=
  let x := s.at b
  let hbr := s.isHbr b
  updTd b (fun t =>
    let t := { t with edgeOk := sinc t.edgeOk }
    match t.ref with
    | none => { t with ref := some (at0 * 2 ^ 32), clean := true, losses := 0, periods := [], fromHold := t.loop == .hold
                       loop := .acquire }
    | some r =>
      let t := if t.clean then loopPeriod x (at0 * 2 ^ 32 - r) t else t
      let t := { t with ref := some (at0 * 2 ^ 32), clean := true, losses := 0 }
      if t.loop == .locked && hbr then phaseCorrect x at0 t else t) s

/-- Whether TIDE_IN of berth b is qualified (R51, R53). -/
def inputOn (s : State) (b : BId) : Bool := hasLoop b && bitAt (loopCtrl (s.at b)) 0 && (tdOf s b).running

/-- A transition of TIDE_IN to high or low (R48): one of the selected polarity starts the glitch filter, one that reverts it
within the filter time ends it. -/
def tideTransition (b : BId) (high : Bool) (s : State) : State :=
  if !inputOn s b then s
  else if high == !bitAt (loopCtrl (s.at b)) 1 then updTd b (fun t => { t with edgeAt := t.edgeAt.or (some s.now) }) s
  else updTd b (fun t => { t with edgeAt := none }) s

def execTideInTransition (e : TideEdge) (s : State) : Host.Outcome State Fault Refusal :=
  ran s (tideTransition e.berth e.high s.begin)

/-- The filter time in REF cycles (R48). -/
def glitchTime (x : Berth) : Nat := 25 * fld (loopFilt x) 7 0

/-- TIDE_CANDIDATE (R49): the level has held for the filter time. -/
def tideCandidate (b : BId) (s : State) : State :=
  match (tdOf s b).edgeAt with
  | none => s
  | some at0 => if s.now < at0 + glitchTime (s.at b) then s else
    let s := updTd b (fun t => { t with edgeAt := none }) s
    let t := tdOf s b
    if !inputOn s b then s
    else if t.loop == .inputRetired then updTd b (fun t => { t with edgeOk := sinc t.edgeOk }) s
    else
      let w := loopWindow (s.at b)
      let ok := match t.ref with
        | none => true
        | some r => r + w.1 ≤ at0 * 2 ^ 32 && at0 * 2 ^ 32 ≤ r + w.2
      if ok then loopEdge b at0 s else loopLoss b (updTd b (fun t => { t with edgeRej := sinc t.edgeRej }) s)

def execTideCandidate (b : BId) (s : State) : Host.Outcome State Fault Refusal := ran s (tideCandidate b s.begin)

/-- TIDE_MISS (R49): a window closes without an accepted edge. -/
def tideMiss (b : BId) (s : State) : State :=
  let t := tdOf s b
  match t.ref with
  | none => s
  | some r =>
    let step := if t.loop == .locked then t.p else t.pn
    loopLoss b (updTd b (fun t => { t with ref := some (r + step), clean := false, periods := [] }) s)

def execTideMiss (b : BId) (s : State) : Host.Outcome State Fault Refusal := ran s (tideMiss b s.begin)

/-- TIDE_HOLD_EXPIRY (R52): HOLD_TIDES tides since entry into HOLD. -/
def holdExpiry (b : BId) (s : State) : State :=
  let t := tdOf s b
  if t.holdTides < fld (loopSlew (s.at b)) 31 16 then s
  else match t.loop with
    | .hold => updTd b (loopDrop (s.isHbr b) .free) s
    | .acquire => updTd b (fun t => { t with fromHold := false }) s
    | _ => s

def execTideHoldExpiry (b : BId) (s : State) : Host.Outcome State Fault Refusal := ran s (holdExpiry b s.begin)

/-- The new harbour's loop at a takeover (R64). `on`: its TIDE_IN is qualified; a loop whose IN_EN is 0 stays in FREE, as R51 says
(DESIGN CHOICE, notes entry 73: R64 read alone puts it into HOLD). -/
def tideTakeover (on : Bool) (t : Td) : Td :=
  let t := { t with pnNext := none, pnHold := t.pnNext, slewLeft := 0 }
  match t.loop with
  | .locked | .inputRetired => { t with pnHold := none }
  | _ => if on then { loopDrop true .hold t with pnHold := t.pnHold, holdTides := 0 } else { t with pnHold := none }

/-! ### TIDE flits (R59 to R61) -/

/-- The TIDE flit of harbour h at its mark boundary (R59). -/
def tideFlit (s : State) (h : BId) : BitVec 64 :=
  let t := tdOf s h
  BitVec.ofNat 64 (t.tide + t.mark * 2 ^ 40 + t.flitSeq * 2 ^ 48 + h.val * 2 ^ 56 + b2n (t.loop == .locked) * 2 ^ 59)

/-- The second flit of mark 0: Pn with 16 fractional bits, and the dither offset (R59). -/
def periodFlit (s : State) (h : BId) : BitVec 64 :=
  let t := tdOf s h
  BitVec.ofNat 64 (t.pn / 65536 % 2 ^ 40 + t.dith % 64 * 2 ^ 40)

/-! Times of a flit's arrival count in RING cycles of 2.5 ns, 16 to a REF cycle; a hop takes 3 of them (R20, R34). -/

/-- The running mark's boundary, and the boundary that ends it, in 2⁻⁴⁰ REF cycles. -/
def boundaryAt (t : Td) : Nat := t.markStart * 2 ^ 40 + t.markFrac
def nextBoundary (t : Td) : Nat := boundaryAt t + t.markLen

/-- The harbour's boundary as a flit tells it that arrives `sub` RING cycles into the present REF cycle over `hops` hops: its
arrival less the travel (R60, R61). -/
def flitBoundary (now sub hops : Nat) : Int := ((16 * now + sub : Nat) - 3 * (hops : Int)) * 2 ^ 36

/-- A time in 2⁻⁴⁰ REF cycles as nanoseconds, to the nearest one. -/
def toNs (d : Int) : Int := (d * 80 + 2 ^ 40) / 2 ^ 41

/-- A resynchronisation is counted, and is one event of the TIDE_SYNC class (R61): whether the berth retires, and the
events in the window. -/
def resyncCount (b : BId) (s : State) : Bool × Nat × State :=
  let ev := classEvent s b 3 (tdOf s b).syncHist
  (ev.1, ev.2.2, updTd b (fun t => { t with resync := sinc t.resync, syncHist := ev.2.1 }) s)

/-- The generator takes the boundary `h` as that of its running mark: one mark is lengthened or shortened by the skew (R61). -/
def takeBoundary (h : Int) (t : Td) : Td :=
  startMark (h.toNat / 2 ^ 40) (h.toNat % 2 ^ 40) { t with slewLeft := 0, held := false, load := none }

/-- The count that a berth loads at its next boundary (R61): the harbour's count advanced to that boundary, by the nearest whole
number of nominal marks since the harbour's boundary h. -/
def loadCount (count : Nat) (h : Int) (t : Td) : Nat × Nat :=
  let c := count + (2 * ((nextBoundary t : Int) - h) + t.pn).toNat / (2 * t.pn)
  (c / 256 % 2 ^ 40, c % 256)

/-- What a berth does whose count or boundary differs from the flit's (R61): `h` is the harbour's boundary. -/
def resyncAct (count : Nat) (h : Int) (t : Td) : Td :=
  if count == markCount t then takeBoundary h t
  else if count > markCount t then { t with load := some (loadCount count h t), held := false }
  else { t with held := true, load := none }

/-- What a flit asks of a berth: nothing, a slew, a resynchronisation, or retirement (R60, R61). -/
inductive Align where
  | none | slew | resync | far
deriving DecidableEq, Repr

/-- A flit's boundary h against the berth's own boundary of that mark, in 2⁻⁴⁰ REF cycles (R60): the boundary that has passed, or,
where the flit announces the mark that comes next, the coming one. -/
def skewOf (t : Td) (count : Nat) (h : Int) : Int :=
  h - (if count == markCount t + 1 then nextBoundary t else boundaryAt t)

/-- The table of R60 for a flit of mark `count` with boundary h. A flit that arrives within 1/8 mark before the berth's own boundary
of the same mark is early by that skew and no different mark (DEDUCED, notes entry 74). -/
def alignOf (t : Td) (count : Nat) (h : Int) : Align :=
  let d := skewOf t count h
  let own := markCount t
  let near := d.natAbs * 8 ≤ t.pn
  if count == own || (count == own + 1 && near) then
    if (toNs d).natAbs ≤ 40 then .none else if near then .slew else .resync
  else if own > count + 256 then .far
  else .resync

/-- The slew that a skew asks for (R60): all of it, less what the running mark, whose boundary has passed, takes already. -/
def slewFor (t : Td) (count : Nat) (d : Int) : Td :=
  { t with slewLeft := if count == markCount t then d - t.slewNow else d, slewBy := 64 }

end Sys2Proof.Machine
end

