-- ==== Sys2Proof/Machine/TwPort.lean ====
section
/-! DEFINITION. The two-wire port: attention signals, sleep recognition and bus hang-ups (R412 to R422). -/
namespace Sys2Proof.Machine

def twOf (s : State) (b : BId) : Tw := (s.at b).tw
def updTw (b : BId) (f : Tw → Tw) (s : State) : State := s.upd b fun x => { x with tw := f x.tw }
def twCount (b : BId) (f : TwCnt → TwCnt) (s : State) : State := updTw b (fun t => { t with cnt := f t.cnt }) s

/-- The port is active (R401): the harbour's, and, after lock, with TW_EN. -/
def twActive (s : State) (b : BId) : Bool :=
  let t := twOf s b
  t.active && (bitAt t.cfg 0 || !(s.at b).ch.locked)

/-- The port's own address (R125). -/
def twAddr (s : State) (b : BId) : Nat := 0x40 + (s.at b).sy.straps.addr

/-- Pending attention causes (R412). -/
def attnPending (t : Tw) : Nat := t.attn &&& t.attnEn

/-- A signal may be sent now (R413, R417): after lock, awake, on an idle bus, in the mode given. -/
def signalReady (s : State) (b : BId) (notify : Bool) : Bool :=
  let t := twOf s b
  twActive s b && (s.at b).ch.locked && !s.dev.sleep && t.sigDue && bitAt t.cfg 4 == notify && !t.ctrlRetired && !t.busMid
    && (t.phase == .idle || t.phase == .busy)

/-- TWI_ARB events in the window. -/
def arbEvents (s : State) (b : BId) : Nat := inWindow (twOf s b).arbHist (s.hTide b) (retireNW (s.at b) 13).2

/-- The TW_EVENT record (R425). -/
def logTw (b : BId) (kind : Nat) (sda : Bool) (events ms data : Nat) (s : State) : State :=
  logRec b 0x58 (pack [(kind, 0, 4), ((twOf s b).edgeRun, 4, 3), (b2n sda, 8, 1)])
    (pack [(min events 255, 0, 8), (min ms 65535, 16, 16)]) (pack [(data, 0, 16)]) s

/-- BEACON (R414): SDA goes low. -/
def beacon (b : BId) (s : State) : State :=
  if signalReady s b false then updTw b (fun t => { t with phase := .beacon, sdaLow := true }) s else s

def execBeacon (b : BId) (s : State) : Host.Outcome State Fault Refusal := ran s (beacon b s.begin)

/-- BEACON_END (R414): a beacon completes. -/
def beaconEnd (b : BId) (s : State) : State :=
  if (twOf s b).phase != .beacon then s
  else updTw b (fun t => { t with
    phase := .idle, sdaLow := false, sigDue := false, cnt := { t.cnt with beacon := sinc t.cnt.beacon } }) s

def execBeaconEnd (b : BId) (s : State) : Host.Outcome State Fault Refusal := ran s (beaconEnd b s.begin)

/-- BEACON_CUT (R414): a controller pulls SCL low; the beacon stays due. -/
def beaconCut (b : BId) (s : State) : State :=
  if (twOf s b).phase != .beacon then s
  else updTw b (fun t => { t with
    phase := .idle, sdaLow := false, cnt := { t.cnt with beaconCut := sinc t.cnt.beaconCut } }) s

def execBeaconCut (b : BId) (s : State) : Host.Outcome State Fault Refusal := ran s (beaconCut b s.begin)

/-- BEACON_REPEAT (R414): every 100 ms while a bit is pending. -/
def beaconRepeat (b : BId) (s : State) : State :=
  let t := twOf s b
  if twActive s b && (s.at b).ch.locked && !bitAt t.cfg 4 && attnPending t != 0 then
    updTw b (fun t => { t with sigDue := true }) s else s

def execBeaconRepeat (b : BId) (s : State) : Host.Outcome State Fault Refusal := ran s (beaconRepeat b s.begin)

/-- TW_ERR_ARB_EDGE (R416, R417). -/
def arbEdge (b : BId) (data : Nat) (s : State) : State :=
  let ev := classEvent s b 13 (twOf s b).arbHist
  let s := updTw b (fun t => { t with
    phase := .backoff, edgeRun := min (t.edgeRun + 1) 7, cnt := { t.cnt with arbEdge := sinc t.cnt.arbEdge }, arbHist := ev.2.1 }) s
  let s := logTw b 1 false (ev.2.2 + 1) 0 data s
  if ev.1 then
    let s := updTw b (fun t => { t with ctrlRetired := true, phase := .idle }) s
    notice b 0x0B 0 0x0D ev.2.2 (logTw b 2 false (ev.2.2 + 1) 0 0 s)
  else s

/-- HOST_NOTIFY (R415): an attempt and how it ends. -/
def hostNotify (b : BId) (e : NotifyEnd) (s : State) : State :=
  let t := twOf s b
  if !signalReady s b true || t.notifyWait then s
  else
    let data := attnPending t
    let s := s.emit (.reply ([0x10, BitVec.ofNat 8 (2 * twAddr s b)] ++ leBytes 2 data))
    match e with
    | .delivered => updTw b (fun t => { t with
        sigDue := false, edgeRun := 0, phase := .idle, cnt := { t.cnt with notify := sinc t.cnt.notify } }) s
    | .refused => updTw b (fun t => { t with
        notifyWait := true, phase := .idle, cnt := { t.cnt with notifyNak := sinc t.cnt.notifyNak } }) s
    | .lost => twCount b (fun c => { c with arbLost := sinc c.arbLost }) s
    | .edge => arbEdge b data s

def execHostNotify (b : BId) (e : NotifyEnd) (s : State) : Host.Outcome State Fault Refusal := ran s (hostNotify b e s.begin)

/-- NOTIFY_RETRY (R415): 100 ms after a refused notify. -/
def notifyRetry (b : BId) (s : State) : State := updTw b (fun t => { t with notifyWait := false }) s

def execNotifyRetry (b : BId) (s : State) : Host.Outcome State Fault Refusal := ran s (notifyRetry b s.begin)

/-- BACKOFF_END (R416). -/
def backoffEnd (b : BId) (s : State) : State :=
  if (twOf s b).phase == .backoff then updTw b (fun t => { t with phase := .idle }) s else s

def execBackoffEnd (b : BId) (s : State) : Host.Outcome State Fault Refusal := ran s (backoffEnd b s.begin)

/-- SLEEP_ADDRESS_MATCH (R418): the island matcher sees the port's address. -/
def addressMatch (b : BId) (s : State) : State :=
  let t := twOf s b
  if !(s.dev.sleep && twActive s b) then s
  else
    let first := !t.waking
    let s := updTw b (fun t => { t with
      waking := true, sclLow := t.sclLow || !bitAt t.cfg 5
      cnt := if first then { t.cnt with wake := sinc t.cnt.wake } else t.cnt }) s
    if bitAt t.cfg 5 then s.emit .nack else s

def execSleepAddressMatch (b : BId) (s : State) : Host.Outcome State Fault Refusal := ran s (addressMatch b s.begin)

/-- STRETCH_TIMEOUT (R418): the matcher releases SCL and refuses the address; the wake continues. -/
def stretchTimeout (b : BId) (s : State) : State :=
  if !(twOf s b).sclLow then s
  else
    let s := updTw b (fun t => { t with sclLow := false, cnt := { t.cnt with stretchTo := sinc t.cnt.stretchTo } }) s
    (logTw b 4 false (arbEvents s b) 0 0 s).emit .nack

def execStretchTimeout (b : BId) (s : State) : Host.Outcome State Fault Refusal := ran s (stretchTimeout b s.begin)

/-- SLEEP_WAKE (R116). -/
def execSleepWake (s : State) : Host.Outcome State Fault Refusal := ran s (wake s.begin)

/-- BUS_HANG (R422): a line stays low for more than 35 ms; nothing else follows. -/
def busHang (b : BId) (sda : Bool) (ms : Nat) (s : State) : State :=
  if !twActive s b then s
  else logTw b 3 sda (arbEvents s b) ms 0 (twCount b (fun c => { c with hang := sinc c.hang }) s)

def execBusHang (b : BId) (sda : Bool) (ms : BitVec 16) (s : State) : Host.Outcome State Fault Refusal :=
  ran s (busHang b sda ms.toNat s.begin)

/-- TW_ATTN_SET (R412): the harbour's pilot or the harbour command engine sets FIRMWARE. -/
def twAttnSet (req : ReqId) (fw : Bool) (s : State) : State :=
  match s.harbour with
  | none => s
  | some h => if fw && (req.val == h.val || req == 11) then attnAt h 9 s else s

/-- The port after a main reset (R426): registers at reset, the bus state kept (R422). -/
def twReset (t : Tw) : Tw := { busMid := t.busMid }

end Sys2Proof.Machine
end

