-- ==== Sys2Proof/Machine/Ring.lean ====
section
/-! DEFINITION. The ring, the forwarded clock, retirement, isolation and the harbour takeover (R17 to R31, R60, R61, R457,
R462). -/
namespace Sys2Proof.Machine

def syOf (s : State) (b : BId) : Sy := (s.at b).sy
def updSy (b : BId) (f : Sy → Sy) (s : State) : State := s.upd b fun x => { x with sy := f x.sy }
def updDev (f : Dev → Dev) (s : State) : State := { s with dev := f s.dev }

/-- Whether the tray has locked its chart. -/
def trayLocked (s : State) : Bool := allB.any fun b => (s.at b).log.on

/-! ### Retirement at the harbour (R457, R465) -/

/-- Bit of the RET word of a unit (R465); none for a column, a core and a berth. -/
def retBit (kind index : Nat) : Option Nat :=
  match kind with
  | 1 => some (19 + index)
  | 2 => some 23
  | 4 => some 0
  | 5 => some (1 + index)
  | 6 => some (3 + index)
  | 7 => some (6 + index)
  | 9 => some (11 + index)
  | 10 => some (9 + index)
  | 11 => some 24
  | 12 => some 8
  | _ => none

/-- P0 of the HL_ records (R472). -/
def unitWord (kind n index : Nat) : Word := pack [(kind, 0, 5), (n, 5, 3), (index, 16, 16)]

/-- The harbour learns that a unit of berth n has retired (R457). -/
def hlRetire (h n : BId) (kind index rule events : Nat) (s : State) : State :=
  let s := s.updTray h fun t => { t with hl := { t.hl with
    retires := sinc t.hl.retires
    retired := if kind == 3 then t.hl.retired ||| 2 ^ n.val else t.hl.retired
    ret := match retBit kind index with
      | some i => vmod t.hl.ret n.val fun w => w ||| (1#32 <<< i)
      | none => t.hl.ret } }
  let s := logRec h 0x68 (unitWord kind n.val index) (pack [(rule, 0, 8), (min events 255, 8, 8)]) 0 s
  attnAt h 3 s

/-- RETIREMENT_NOTICE (R457). -/
def execRetirementNotice (h n : BId) (kind : Fin 32) (index : Fin 1280) (rule : BitVec 8) (events : BitVec 8) (s : State) :
    Host.Outcome State Fault Refusal :=
  let s := s.begin
  ran s (if s.isHbr h then hlRetire h n kind.val index.val rule.toNat events.toNat s else s)

/-! ### Flits and replay (R20, R21) -/

/-- The flit numbered `seq` that a port has sent, where its replay buffer still holds it. -/
def flitAt (q : RingPort) (seq : Nat) : Option Flit :=
  let n := (q.txSeq + 256 - seq) % 256
  if 0 < n && n ≤ q.replay.length then q.replay[q.replay.length - n]? else none

/-- Berth b sends on what it received for another berth (R20). -/
def relay (b : BId) (f : Option Flit) (s : State) : State :=
  match f with
  | some f => if f.src == b || f.dst == some b then s else sendFlits f.src f.dst [f] b s
  | none => s

/-- A segment or chord carries flits: it is healthy (R21), and neither of its berths is in holdover (R29). -/
def carries (s : State) (b : BId) (p : Nat) : Bool :=
  linkOk s b p && !(syOf s b).holdover && !(syOf s (portPeer b p)).holdover

/-- FLIT_RECEIVE (R20): the flit is accepted in sequence and relayed; otherwise a replay is requested from the first bad flit. -/
def flitReceive (b : BId) (p seq : Nat) (crcOk : Bool) (s : State) : State :=
  let q := portOf s b p
  if !carries s b p then s
  else if crcOk && seq == q.rxSeq then
    let f := flitAt (portOf s (portPeer b p) (portBack p)) seq
    relay b f (updSy b (fun y => { y with silentSeen := y.silentSeen &&& (255 - 2 ^ (portPeer b p).val) })
      (updPort b p (fun q => { q with rxSeq := (q.rxSeq + 1) % 256, asked := false }) s))
  else if q.asked then s
  else (updPort b p (fun q => { q with asked := true }) s).emit (.replayReq b p q.rxSeq)

def execFlitReceive (b : BId) (p : Fin 4) (seq : BitVec 8) (crcOk : Bool) (s : State) : Host.Outcome State Fault Refusal :=
  ran s (flitReceive b p.val seq.toNat crcOk s.begin)

/-- REPLAY_REQUEST (R21): the sending port resends its flits from number `seq`, which it still holds, and counts one RING_SEG
event. -/
def replayRequest (b : BId) (p seq : Nat) (s : State) : State :=
  let q := portOf s b p
  let n := (q.txSeq + 256 - seq) % 256
  if !carries s b p || n == 0 || n > q.replay.length then s
  else
    let ev := classEvent s b 1 q.hist
    let s := updSy b (fun y => { y with ringRetry := (y.ringRetry + n) % 2 ^ 64 }) s
    let s := s.emit (.resend b p seq n (q.replay.drop (q.replay.length - n)))
    let s := updPort b p (fun q => { q with hist := ev.2.1, retired := q.retired || ev.1 }) s
    if ev.1 then notice b 1 p 1 ev.2.2 s else s

def execReplayRequest (b : BId) (p : Fin 4) (seq : BitVec 8) (s : State) : Host.Outcome State Fault Refusal :=
  ran s (replayRequest b p.val seq.toNat s.begin)

/-- RING_PORT_TRAINED (R460): an un-retired port and its partner have trained. -/
def portTrained (b : BId) (p : Nat) (s : State) : State :=
  if !(portOf s b p).training then s
  else
    let done (q : RingPort) : RingPort := { q with training := false, ready := true, replay := [], txSeq := 0, rxSeq := 0, asked := false }
    updPort (portPeer b p) (portBack p) (fun q => if q.retired then q else done q) (updPort b p done s)

def execRingPortTrained (b : BId) (p : Fin 4) (s : State) : Host.Outcome State Fault Refusal :=
  ran s (portTrained b p.val s.begin)

/-- At a mark boundary, ports that have trained carry traffic again, and the chord around a berth is released once both of
its segments do (R460, R461). -/
def portsJoin (b : BId) (s : State) : State :=
  let s := updRp b (fun y => { y with ports := y.ports.map fun q => if q.ready then { q with ready := false, trained := true } else q }) s
  if nbit s.dev.skip b.val && linkOk s b 0 && linkOk s b 1 then
    updDev (fun d => { d with skip := d.skip &&& (255 - 2 ^ b.val) }) s else s

/-- The harbour sends its TIDE flits, the heartbeat (R18, R59). -/
def sendTide (h : BId) (s : State) : State :=
  let fs := tideFlit s h :: (if (tdOf s h).mark == 0 then [periodFlit s h] else [])
  let s := updTd h (fun t => { t with flitSeq := (t.flitSeq + 1) % 256 }) s
  fs.foldl (fun t f => ringSend h none (.tide f) t) s

/-- Berth n has left the ring: its neighbours send the flits they hold that do not end at it over the chord that skips it (R24, R25);
each counts in SY_RING_RETRY. -/
def chordResend (n : BId) (s : State) : State :=
  iter [(bid (n.val + 7), 1, 3), (bid (n.val + 1), 0, 2)] (fun e t =>
    let fs := (portOf t e.1 e.2.1).replay.filter fun f => f.dst != some n
    if fs.isEmpty || !linkOk t e.1 e.2.2 then t
    else
      let q := portOf t e.1 e.2.2
      let t := updPort e.1 e.2.1 (fun q => { q with replay := [] }) (updPort e.1 e.2.2 (portSends fs) t)
      (updSy e.1 (fun y => { y with ringRetry := (y.ringRetry + fs.length) % 2 ^ 64 }) t).emit
        (.resend e.1 e.2.2 q.txSeq fs.length fs)) s

/-! ### The forwarded clock (R28 to R31) -/

/-- The berth that drives a clock input of berth b. -/
def clkSender (b : BId) (i : ClkIn) : BId :=
  match i with
  | .lowNbr => portPeer b 0
  | .highNbr => portPeer b 1
  | .lowChord => portPeer b 2
  | .highChord => portPeer b 3

/-- Code of a clock input (SY_CLK_STAT.INPUT). -/
def clkCode : ClkIn → Nat
  | .lowNbr => 0
  | .highNbr => 1
  | .lowChord => 2
  | .highChord => 3

/-- The ordered list of clock inputs of berth b for source berth src (R28). -/
def clkOrder (b src : BId) : List ClkIn :=
  if (b.val + 8 - src.val) % 8 ≤ 4 then [.lowNbr, .lowChord, .highNbr, .highChord] else [.highNbr, .highChord, .lowNbr, .lowChord]

/-- A clock input is marked source-locked in the flits it carries (R28): its berth drives its ports, has a locked clock and is not
in holdover, and the segment or chord carries flits, which before the end of training it does not yet show as trained. -/
def inputMarked (s : State) (b : BId) (i : ClkIn) : Bool :=
  let y := syOf s (clkSender b i)
  let q := portOf s b (clkCode i)
  y.st != .inert && y.st != .retired && y.clkLocked && !y.holdover && !q.retired && (q.trained || (syOf s b).st == .training)

/-- The first valid input in the list of berth b, skipping its current one (R28, R29); `edges`: the inputs that carry edges, by
code. -/
def pickInput (s : State) (b : BId) (edges : Nat) : Option ClkIn :=
  let y := syOf s b
  y.order.find? fun i => i != y.clkIn && nbit edges (clkCode i) && inputMarked s b i

/-- CLOCK_INPUT_LOSS (R29): holdover, and the first valid input; `edges`: the inputs that carry edges, by code. -/
def clockLoss (b : BId) (edges : Nat) (s : State) : State :=
  let y := syOf s b
  if y.isSrc || y.st == .inert then s
  else
    let pick := pickInput s b edges
    updSy b (fun y => { y with holdover := true, clkLocked := false, switchTo := pick }) s

def execClockInputLoss (b : BId) (edges : BitVec 4) (s : State) : Host.Outcome State Fault Refusal :=
  ran s (clockLoss b edges.toNat s.begin)

/-- CLOCK_SWITCHOVER_DONE (R29). -/
def switchDone (b : BId) (s : State) : State :=
  match (syOf s b).switchTo with
  | none => s
  | some i => ringRelease b (updSy b (fun y => { y with
      clkIn := i, switchTo := none, holdover := false, clkLocked := true, clkSwitch := sinc y.clkSwitch, holdEnd := some s.now }) s)

def execClockSwitchoverDone (b : BId) (s : State) : Host.Outcome State Fault Refusal := ran s (switchDone b s.begin)

/-- Berth b is the standby harbour (R17, R97): B4, harbour-capable by the chart and ACTIVE, while B0 is harbour. -/
def isStandby (s : State) (b : BId) : Bool :=
  b == 4 && !s.isHbr b && !(syOf s b).lostRole && (s.at b).ch.locked && (syOf s b).st == .active && hbrCap (s.at b) b

/-- STANDBY_CLOCK_SOURCE (R31). -/
def standbySource (b : BId) (s : State) : State :=
  let y := syOf s b
  if !(isStandby s b && y.pll && !y.isSrc && y.holdover) then s
  else
    let s := s.updAll fun n x => { x with sy := { x.sy with
      clkSrc := b, isSrc := false, order := if n == b then x.sy.order else clkOrder n b } }
    ringRelease b (updSy b (fun y => { y with isSrc := true, holdover := false, clkLocked := true, switchTo := none, holdEnd := some s.now }) s)

def execStandbyClockSource (b : BId) (s : State) : Host.Outcome State Fault Refusal := ran s (standbySource b s.begin)

/-- Every berth that takes its clock from berth n turns to its next valid input at once (R30). A berth that has already lost it and
is switching over goes on with that, and picks again where it was to take the clock from n (R29). -/
def clockBypass (n : BId) (s : State) : State :=
  iter allB (fun b t =>
    let y := syOf t b
    if y.isSrc || y.st == .inert || b == n then t
    else if y.holdover then
      (if (y.switchTo.map (clkSender b)) == some n then updSy b (fun y => { y with switchTo := pickInput t b 15 }) t else t)
    else if clkSender b y.clkIn != n then t
    else match pickInput t b 15 with
      | some i => updSy b (fun y => { y with clkIn := i, clkSwitch := sinc y.clkSwitch }) t
      | none => updSy b (fun y => { y with holdover := true, clkLocked := false, switchTo := none }) t) s

/-! ### Leaving the ring (R24, R25) -/

/-- A channel of a berth that is neither ACTIVE nor ISOLATED: UNUSED, its output released (R213, R218; DEDUCED, notes entry 89). -/
def coolInert (k : Cool) : Cool :=
  if k.st == .retired then { k with pwm := none }
  else { k with st := .unused, offPhase := false, valid := false, lastT := 0, rpm := 0, reverse := false, fwd := 0, rev := 0, pwm := none }

/-- The outputs of berth b go inert (R122, R135). -/
def inertOutputs (b : BId) (s : State) : State :=
  let s := slotInert b (s.updRl b fun r => { r with rails := r.rails.map fun l => { l with en := false } })
  zoneUpdate b (s.updCl b fun c => { c with ch := c.ch.map coolInert })

/-- Berth n leaves the ring: its chord closes around it, its neighbours resend over it, and its share leaves the deck. -/
def leaveRing (n : BId) (s : State) : State :=
  let s := updDev (fun d => { d with present := d.present &&& (255 - 2 ^ n.val), skip := d.skip ||| 2 ^ n.val }) s
  deckLeave n (clockBypass n (chordResend n s))

/-- The engines of a berth that is isolated or retired stop (R253, R255). -/
def enginesEnd (b : BId) (s : State) : State := afterArray b (arLeave b s)

/-- A retiring berth is out of the ring: it drives no port, and its outputs are inert. -/
def retired (b : BId) (s : State) : State :=
  let s := enginesEnd b (inertOutputs b s)
  let s := updSy b (fun y => { y with st := .retired, retireOrder := false, bypassAt := none }) s
  updRp b (fun y => { y with held := [], ports := y.ports.map fun q => { q with trained := false, training := false, ready := false } }) s

/-- The slot has completed its shutdown (R24). -/
def slotDone (s : State) (b : BId) : Bool := downish (s.at b).rl.slot

/-- The harbour retires berth n (R24, R25, R61): it needs no notice. -/
def harbourRetire (h n : BId) (rule events : Nat) (s : State) : State :=
  if n == h || nbit (s.at h).tray.hl.retired n.val then s
  else ringSend h (some n) .retireOrder (hlRetire h n 3 0 rule events s)

/-- BERTH_RETIRE_ORDER (R24): the slot shutdown starts. -/
def retireOrder (b : BId) (s : State) : State :=
  let y := syOf s b
  if y.retireOrder || !(y.st == .moored || y.st == .active || y.st == .isolated) then s
  else shutdown b false 0x13 15 (updSy b (fun y => { y with retireOrder := true }) s)

def execBerthRetireOrder (b : BId) (s : State) : Host.Outcome State Fault Refusal := ran s (retireOrder b s.begin)

/-- The bypass notice names the first mark boundary at least 2 full marks later (R24). -/
def sendBypass (b : BId) (s : State) : State :=
  ringSend b none .bypassNotice (updSy b (fun y => { y with bypassAt := some (markCount (tdOf s b) + 3) }) s)

/-- BYPASS_NOTICE (R24): the shutdown is complete. A silent berth, which its neighbours already bypass, goes inert (R25). -/
def bypassNotice (b : BId) (s : State) : State :=
  let y := syOf s b
  if !y.retireOrder || y.bypassAt.isSome || !slotDone s b then s
  else if inRing s b then sendBypass b s else retired b s

def execBypassNotice (b : BId) (s : State) : Host.Outcome State Fault Refusal := ran s (bypassNotice b s.begin)

/-- SHUTDOWN_BOUND_EXPIRY (R24): the notice goes out at once, and the outputs go inert. -/
def boundExpiry (b : BId) (s : State) : State :=
  let y := syOf s b
  if !y.retireOrder || y.bypassAt.isSome || slotDone s b then s
  else
    let s := s.updRl b fun r => { r with rails := r.rails.map fun l => { l with st := .off, en := false } }
    bypassNotice b (inertOutputs b (shutdownEnd b s))

def execShutdownBoundExpiry (b : BId) (s : State) : Host.Outcome State Fault Refusal := ran s (boundExpiry b s.begin)

/-- BYPASS_SWITCH (R24): at the named boundary. -/
def bypassSwitch (b : BId) (s : State) : State :=
  match (syOf s b).bypassAt with
  | none => s
  | some k => if markCount (tdOf s b) < k then s else retired b (leaveRing b s)

def execBypassSwitch (b : BId) (s : State) : Host.Outcome State Fault Refusal := ran s (bypassSwitch b s.begin)

/-- SILENT_BERTH_DETECT (R25): neighbour b of berth n reports it. -/
def silentDetect (b n : BId) (s : State) : State :=
  if !(inRing s b && inRing s n && adjacent s b n) then s
  else ringSend b (some (syOf s b).harbour) (.silentBerth n) (updSy b (fun y => { y with silentSeen := y.silentSeen ||| 2 ^ n.val }) s)

def execSilentBerthDetect (b n : BId) (s : State) : Host.Outcome State Fault Refusal := ran s (silentDetect b n s.begin)

/-- The harbour retires a silent berth at once (R25). -/
def retireSilent (h n : BId) (s : State) : State :=
  if n == h || !inRing s n then s else leaveRing n (harbourRetire h n 0x24 0 s)

/-- SILENT_BERTH_REPORT (R25): at the harbour; the standby keeps the report for its takeover. -/
def silentReport (h n : BId) (s : State) : State :=
  if s.isHbr h then retireSilent h n s
  else updSy h (fun y => { y with silentKnown := y.silentKnown ||| 2 ^ n.val }) s

def execSilentBerthReport (h n : BId) (s : State) : Host.Outcome State Fault Refusal := ran s (silentReport h n s.begin)

/-! ### Isolation (R27, R462) -/

/-- The host ports of a berth that loses the harbour role go inert (R27, R420, R450). -/
def portsInert (b : BId) (s : State) : State :=
  let s := usbDetach b s
  let s := updUs b (fun u => { u with active := false }) s
  let s := updSy b (fun y => { y with qspi := false }) s
  updTw b (fun t => { t with active := false, phase := .idle, sdaLow := false, sclLow := false, notifyWait := false }) s

/-- Berth b gives up the harbour role (R19, R27). -/
def giveUpRole (b : BId) (s : State) : State :=
  if !s.isHbr b then s
  else
    let s := updSy b (fun y => { y with isHarbour := false, lostRole := true }) (portsInert b s)
    let s := updCh b (fun c => { c with busy := false, fuseJob := none, redistFor := none, load := .idle }) s
    let bufs := (s.at b).log.queue.filterMap (·.2)
    let s := s.updLog b fun l => { l with queue := [], ops := [], ready := false, finding := false, awaitReset := false }
    let s := iter bufs deckRelease s
    s.updTray b fun t => { t with hl := if t.hl.busy then { t.hl with busy := false, result := 1 } else t.hl }

/-- Berth b enters ISOLATED (R27): its slot shuts down, and once it is down its slot outputs are inert. -/
def isolate (b : BId) (s : State) : State :=
  let s := updSy b (fun y => { y with st := .isolated }) (giveUpRole b s)
  let s := shutdown b false 0x14 15 (enginesEnd b s)
  if slotDone s b then slotInert b s else s

/-- A berth that takes part in the tray. -/
def serving (s : State) (b : BId) : Bool := (syOf s b).st == .moored || (syOf s b).st == .active

/-- SILENT_MARKS_ISOLATE (R27): 16 silent marks. -/
def silentIsolate (b : BId) (s : State) : State :=
  if trayLocked s && serving s b && !s.isHbr b && (syOf s b).silentMarks ≥ 16 then isolate b s else s

def execSilentMarksIsolate (b : BId) (s : State) : Host.Outcome State Fault Refusal := ran s (silentIsolate b s.begin)

/-- NO_CLOCK_ISOLATE (R27): 20 µs without a valid clock input, or, on the clock source, with its PLL out of lock. -/
def noClockIsolate (b : BId) (s : State) : State :=
  let y := syOf s b
  if !(trayLocked s && serving s b && (y.isSrc || y.holdover)) then s
  else isolate b (updSy b (fun y => { y with clkLocked := false, pll := y.pll && !y.isSrc }) s)

def execNoClockIsolate (b : BId) (s : State) : Host.Outcome State Fault Refusal := ran s (noClockIsolate b s.begin)

/-- ISOLATED_REPORT (R462): berth n's report arrives at the harbour; the release order follows at its next boundary. -/
def isolatedReport (h n : BId) (s : State) : State :=
  if s.isHbr h && !nbit (s.at h).tray.hl.retired n.val then s.updTray h fun t => { t with release := t.release ||| 2 ^ n.val } else s

def execIsolatedReport (h n : BId) (s : State) : Host.Outcome State Fault Refusal := ran s (isolatedReport h n s.begin)

/-- RELEASE_ORDER (R27): back to MOORED with the RWL values kept; the chart follows (R100). -/
def releaseOrder (b : BId) (s : State) : State :=
  match s.harbour with
  | none => s
  | some h =>
    if (syOf s b).st != .isolated then s
    else
      let s := updSy b (fun y => { y with st := .moored, silentMarks := 0, harbour := h }) (inertOutputs b s)
      let s := updCh b (fun c => { c with state := .none, locked := false, agree := false, slot := none }) s
      redistribute h b s

def execReleaseOrder (b : BId) (s : State) : Host.Outcome State Fault Refusal := ran s (releaseOrder b s.begin)

/-! ### TIDE flits at a berth (R60, R61) -/

/-- Berth b resynchronises on a flit of mark `count` with boundary h (R61): it is counted, and a berth that counts too many is
retired by the harbour. -/
def resync (b : BId) (count : Nat) (h : Int) (s : State) : State :=
  let r := resyncCount b s
  let s := updTd b (resyncAct count h) r.2.2
  match r.1, s.harbour with
  | true, some n => harbourRetire n b 3 r.2.1 s
  | _, _ => s

/-- Berth b aligns to a flit of mark `count` with boundary h (R60, R61). -/
def align (b : BId) (count : Nat) (h : Int) (s : State) : State :=
  let t := tdOf s b
  match alignOf t count h with
  | .none => s
  | .slew => updTd b (fun t => slewFor t count (skewOf t count h)) s
  | .far => match s.harbour with
    | some n => harbourRetire n b 0x24 0 s
    | none => s
  | .resync => resync b count h s

/-- A mark flit at a berth of the ring that is not the harbour, `sub` RING cycles into the present REF cycle. A held generator goes on
once the harbour's count has reached its own; until then each flit finds the same resynchronisation (R61). -/
def markFlit (b : BId) (w : BitVec 64) (sub : Nat) (s : State) : State :=
  let n := w.toNat
  let tide := n % 2 ^ 40
  let mark := n / 2 ^ 40 % 256
  let count := tide * 256 + mark
  let src := bid (n / 2 ^ 56 % 8)
  let h := flitBoundary s.now sub ((hops s src b).getD 0)
  let s := updSy b (fun y => { y with heard := true, harbour := src }) s
  let s := updTd b (fun t => { t with skew := toNs (skewOf t count h) }) s
  let t := tdOf s b
  if !t.synced then
    updTd b (fun t => takeBoundary h { t with tide := tide, mark := mark, synced := true }) s
  else if !t.held then align b count h s
  else if count == markCount t then updTd b (takeBoundary h) s
  else if count > markCount t then align b count h (updTd b (takeBoundary h) s)
  else if markCount t > count + 256 then align b count h s
  else s

/-- A TIDE flit with a reserved bit set is rejected (R5, R59). -/
def tideFlitOk (f : TideFlit) : Bool :=
  match f with
  | .mark w => w.toNat / 2 ^ 60 == 0
  | .period w => w.toNat / 2 ^ 46 == 0

/-- The dither offset of a tide reaches a berth (R59, R69): it holds from the tide's mark 0, where that has begun here. -/
def takeDither (d : Nat) (t : Td) : Td := if t.mark < 128 then { t with dith := d } else { t with dithNext := some d }

/-- TIDE_FLIT_RECEIVE (R60): the flit arrives `sub` RING cycles into the present REF cycle. -/
def tideFlitReceive (b : BId) (f : TideFlit) (sub : Nat) (s : State) : State :=
  let y := syOf s b
  if s.isHbr b || !(serving s b || y.st == .isolated) || !tideFlitOk f then s
  else match f with
    | .mark w => markFlit b w sub s
    | .period w => updTd b (fun t => takeDither (w.toNat / 2 ^ 40 % 64) { t with pnNext := some (w.toNat % 2 ^ 40 * 65536) }) s

def execTideFlitReceive (b : BId) (f : TideFlit) (sub : Fin 16) (s : State) : Host.Outcome State Fault Refusal :=
  ran s (tideFlitReceive b f sub.val s.begin)

/-! ### The state copy and the takeover (R18, R64, R101, R203, R379, R420, R450, R470) -/

/-- The harbour copies its tray-wide state to the standby harbour. -/
def stateCopy (h : BId) (s : State) : State :=
  if h != 0 || !isStandby s 4 || !live s 4 then s
  else
    let x := s.at h
    s.upd 4 fun y => { y with
      tray := { x.tray with pg := x.pg.graph }
      sy := { y.sy with silentKnown := y.sy.silentKnown ||| x.sy.silentKnown }
      td := { y.td with lfsr := x.td.lfsr }
      tw := { y.tw with attn := x.tw.attn, attnEn := x.tw.attnEn }
      us := { y.us with telCfg := x.us.telCfg, dfuPoll := x.us.dfuPoll } }

/-- The tray-wide state that a new harbour starts from (R203, R470). -/
def trayTaken (t : Tray) : Tray :=
  { t with
    pw := { t.pw with budgetCut := 0, shedCnt := 0, newGrant := .replicate 8 none }
    hl := { cfg := t.hl.cfg, retired := t.hl.retired, ret := t.hl.ret, arg := t.hl.arg } }

/-- SILENT_MARKS_TAKEOVER (R18): the standby takes the role at the boundary that ends its fourth silent mark. -/
def takeover (b : BId) (s : State) : State :=
  if !(isStandby s b && (syOf s b).silentMarks ≥ 4) then s
  else
    let old := (syOf s b).harbour
    let s := giveUpRole old s
    let s := updSy b (fun y => { y with isHarbour := true, harbour := b, silentMarks := 0, qspi := true }) s
    let s := s.updTray b trayTaken
    let on := inputOn s b
    let s := updTd b (fun t => { tideTakeover on t with skew := 0, held := false, load := none, dithNext := none }) s
    let s := updTw b (fun t => { t with active := true, phase := .busy }) s
    let s := updUs b (fun u => { u with active := true, dfu := {}, lastResult := 0, lastIndex := 0, lastReq := 0, lastCount := 0 }) s
    let s := usbFollow b (telClear b s)
    let s := logServe b 0x03 (wordOf old.val) 0 false s
    let s := attnAt b 4 s
    let s := setQuotas (policyTakeover b (imagesTakeover b (chartTakeover old b s)))
    let known := (syOf s b).silentKnown
    let s := iter (allB.filter fun n => nbit known n.val) (retireSilent b) s
    sendTide b s

def execSilentMarksTakeover (b : BId) (s : State) : Host.Outcome State Fault Refusal := ran s (takeover b s.begin)

end Sys2Proof.Machine
end

