-- ==== Sys2Proof/Machine/RegsA.lean ====
section
/-! DEFINITION. The read values of the SY_, TD_, CH_ and DK_ registers (chapters 01–04 and 12, R474). An offset that names
no register answers none. Values that a read changes are those before the change. -/
namespace Sys2Proof.Machine

/-- Entry i of an indexed register at `base`, its entries `stride` bytes apart and n of them. -/
def regIx (off base stride n : Nat) : Option Nat :=
  if base ≤ off && (off - base) % stride == 0 && (off - base) / stride < n then some ((off - base) / stride) else none

def berthCode : BerthState → Nat
  | .inert => 0
  | .training => 1
  | .moored => 2
  | .active => 3
  | .isolated => 4
  | .retired => 5

/-- SY_START.STEP (R137). -/
def startStep (s : State) (b : BId) : Nat :=
  let y := (s.at b).sy
  if s.dev.sleep then 7 else if y.inReset then 0 else if y.fail != 0 then 6
  else if (s.at b).ch.locked then (if imagesLoaded s b then 5 else 4) else y.step

/-- Berths that carry the harbour blocks (SY_BERTH.HBR_CAP). -/
def capable (b : BId) : Bool := b.val % 4 == 0

def readSy (s : State) (b : BId) (tray : Bool) (off : Nat) : Option Word :=
  let x := s.at b
  let y := x.sy
  let up := y.st != .inert && y.st != .training
  match off with
  | 0x000 => some 0x74384201
  | 0x004 => some (pack [(b.val, 0, 3), (b2n (capable b), 3, 1), (y.harbour.val, 8, 3), (b2n y.isHarbour, 11, 1),
      (y.clkSrc.val, 12, 3), (berthCode y.st, 16, 4)])
  | 0x010 => some (if up then pack [(s.dev.present, 0, 8),
      (maskOf 8 fun n => chordUsed s (bid n), 8, 8), (b2n (linkOk s b 1), 16, 1), (b2n (linkOk s b 0), 17, 1),
      (b2n (isLine s), 18, 1)] else 0)
  | 0x018 => some (pack [(if y.isSrc then 0 else clkCode y.clkIn, 0, 2), (b2n y.isSrc, 2, 1), (b2n y.holdover, 3, 1),
      (b2n y.clkLocked, 4, 1), (((if up then hops s b y.clkSrc else none).getD 0), 5, 3),
      (clkCode ((y.order[0]?).getD .lowNbr), 8, 2), (clkCode ((y.order[1]?).getD .lowNbr), 10, 2),
      (clkCode ((y.order[2]?).getD .lowNbr), 12, 2), (clkCode ((y.order[3]?).getD .lowNbr), 14, 2)])
  | 0x020 => some 0
  | 0x024 => some (pack [(b2n y.snapPend, 0, 1), (b2n y.snapFrozen, 1, 1), (b2n y.snapExpired, 2, 1),
      (if tray then y.snapBerths else 0, 8, 8), (y.snapMark, 16, 8)])
  | 0x028 => some (wordOf y.snapTide)
  | 0x030 => some (lo64 y.ringRetry)
  | 0x034 => some (hi64 y.ringRetry)
  | 0x038 => some (wordOf y.clkSwitch)
  | 0x040 => some (pack [(y.errCause, 0, 4), (y.errReq, 4, 4), (b2n y.errWrite, 8, 1), (b2n y.errOver, 9, 1),
      (y.errOrigin, 10, 3)])
  | 0x044 => some y.errAddr
  | 0x080 => some (if capable b then wordOf y.cause else 0)
  | 0x084 => some (if capable b then pack [(y.straps.addr, 0, 3), (y.straps.boot, 3, 2), (b2n y.straps.inh, 5, 1),
      (b2n y.straps.unstable, 6, 1), (b2n (y.straps.valid && y.straps.boot ≥ 2), 7, 1), (b2n y.straps.valid, 8, 1)] else 0)
  | 0x088 => some (pack [(startStep s b, 0, 4), (y.fail, 4, 4), (y.images, 8, 4)])
  | 0x08C => if tray then some (pack [(min s.dev.elections 15, 0, 4), (s.dev.excluded, 8, 8), (s.dev.candidates, 16, 8)])
      else none
  | 0x090 => if tray then some 0 else none
  | 0x094 => if tray then some (pack [(s.dev.rstCmd, 0, 4), (b2n s.dev.rstBusy, 4, 1), (s.dev.rstResult, 8, 8),
      (s.dev.rstReq, 16, 4)]) else none
  | _ => none

def loopCode : Loop → Nat
  | .free => 0
  | .acquire => 1
  | .locked => 2
  | .hold => 3
  | .inputRetired => 4

/-- A number of either sign in n bits, two's complement. -/
def twos (n : Nat) (v : Int) : Nat := (v % (2 ^ n : Nat)).toNat

def readTd (s : State) (b : BId) (off : Nat) : Option Word :=
  let x := s.at b
  let t := x.td
  match off with
  | 0x000 => some t.ctrl
  | 0x004 => some (pack [(loopCode t.loop, 0, 4), (b2n x.sy.isHarbour, 4, 1), (b2n t.synced, 5, 1),
      (b2n (t.slewLeft != 0 || t.slewNow != 0), 6, 1), (b2n t.held, 7, 1)])
  | 0x008 => some (pack [(t.mark, 0, 8), (t.tide, 8, 24)])
  | 0x010 => some (lo64 t.tide)
  | 0x014 => some (wordOf (t.tide / 2 ^ 32 % 256))
  | 0x018 => some (pack [(rdiv t.pn (2 ^ 28), 0, 24)])
  | 0x01C => some (pack [(rdiv (25000000000 * 2 ^ 32) t.pn, 0, 16)])
  | 0x020 => some t.filt
  | 0x024 => some t.slew
  | 0x028 => some t.ofs
  | 0x02C => some t.ditherCfg
  | 0x030 => some (pack [(t.lfsr, 0, 16), (t.dith, 16, 6)])
  | 0x034 => some t.stepWin
  | 0x040 => some (wordOf t.edgeOk)
  | 0x044 => some (wordOf t.edgeRej)
  | 0x048 => some (wordOf t.resync)
  | 0x04C => some (wordOf t.lockLoss)
  | 0x050 => some (if x.sy.isHarbour then pack [(twos 16 t.phaseErr, 16, 16)]
      else pack [(twos 16 (max (-32767) (min 32767 t.skew)), 0, 16)])
  | _ => none

/-- CH_STAT.STATE: VERIFYING once the 256 KiB of a slot have been read, at 2 bytes a REF cycle. DESIGN CHOICE, notes entry 21. -/
def chState (s : State) (b : BId) : Nat :=
  let c := (s.at b).ch
  match c.state with
  | .none => 0
  | .reading => if s.now - c.readSince ≥ 131072 then 2 else 1
  | .distributing => 3
  | .locked => 4
  | .failed => 5

def readCh (s : State) (b : BId) (tray : Bool) (off : Nat) : Option Word :=
  let x := s.at b
  let c := x.ch
  let t := x.tray
  let onTray (w : Word) : Option Word := if tray then some w else none
  match off with
  | 0x000 => some (pack [(chState s b, 0, 4), (match c.slot with
      | some false => 0
      | some true => 1
      | none => 3, 4, 2), (b2n c.agree, 6, 1)])
  | 0x004 => some c.ver
  | 0x008 => some (pack [(c.rollback, 0, 8), (c.keyIdx, 8, 2), (x.populated, 16, 8), (fld (x.recWord 1 0 0) 15 8, 24, 8)])
  | 0x00C => some c.trayId
  | 0x040 => some (pack [(c.errCode, 0, 8), (b2n c.errSlot, 8, 1), (c.errIndex, 16, 16)])
  | 0x048 => onTray (pack [(maskOf 8 fun n => (n == b.val && c.agree) || vget t.dist n == .agreed, 0, 8),
      (maskOf 8 fun n => vget t.dist n == .held, 8, 8)])
  | 0x070 => some (pack [(vget c.fuse 0, 0, 8), (vget c.fuse 1, 8, 8), (vget c.fuse 2, 16, 8), (vget c.fuse 3, 24, 8)])
  | 0x074 => some (if capable b then pack [(maskOf 4 fun j => vget c.keys j != 0, 0, 4), (c.revoked, 4, 4)] else 0)
  | 0x078 => onTray 0
  | 0x07C => onTray (pack [(c.lastCmd, 0, 4), (b2n c.busy, 4, 1), (c.result, 8, 8), (c.cmdReq, 16, 4)])
  | 0x0C0 => some (wordOf c.loadFail)
  | _ =>
    match regIx off 0x010 4 12, regIx off 0x050 4 8, regIx off 0x080 4 12 with
    | some k, _, _ => some (wordAt c.digest (4 * k))
    | _, some n, _ => onTray (pack [(vget t.moor n, 0, 4), (vget t.attempts n, 8, 2)])
    | _, _, some k => onTray (vget c.keyData k)
    | _, _, _ => none

def readDk (s : State) (b : BId) (req : ReqId) (off : Nat) : Option Word :=
  let d := (s.at b).dk
  match off with
  | 0x000 | 0x004 | 0x008 => some 0
  | 0x010 => some (if d.inDeck then pack [(freeCount s b, 0, 10), (min (reserve s b) 1023, 10, 10), (d.lent, 20, 10)] else 0)
  | 0x014 => some (wordOf (d.rot % 256))
  | 0x080 => some (wordOf d.badFree)
  | 0x090 => some (wordOf (vget d.ownSel req.val % 4096))
  | 0x094 => some (match holderOf s (vget d.ownSel req.val) with
      | some h => pack [(h.cls, 0, 3), (1, 3, 1), (h.berth.val, 4, 3)]
      | none => 0)
  | _ =>
    match regIx off 0x020 4 8, regIx off 0x040 4 8, regIx off 0x060 4 8 with
    | some c, _, _ => some (vget d.hand c)
    | _, some c, _ => some (pack [(holding s ⟨b, c⟩, 0, 13), (vget d.peak c, 16, 13)])
    | _, _, some c => some (wordOf (vget d.deny c))
    | _, _, _ => none

end Sys2Proof.Machine
end

