-- ==== Sys2Proof/Machine/RegsB.lean ====
section
/-! DEFINITION. The read values of the HW_, RL_, PW_, CL_ and LK_ registers (chapters 05–07, 10, 11, R474). -/
namespace Sys2Proof.Machine

/-- The counters at HW_ 0x080 to 0x0A8, in order. -/
def hwCounters (c : HwCnt) : List Nat :=
  [c.crcErr, c.resent, c.nakSent, c.retrains, c.trainFail, c.timeouts, c.late, c.falseLock, c.proto, c.elastic, c.freqFail]

/-- The service part of the HW_ block, from 0x200. -/
def readSvc (s : State) (b : BId) (off : Nat) : Option Word :=
  let x := s.at b
  let v := x.svc
  match off with
  | 0x200 => some 0
  | 0x204 => some (pack [(v.lastCmd, 0, 4), (b2n (v.st == .resetting), 4, 1), (v.cmdResult, 8, 8), (v.cmdReq, 16, 4)])
  | 0x208 => some (pack [(svcCode v.st, 0, 4), (maskOf 4 fun k => (vget x.pw.parts k).ready, 4, 4), (v.fail, 8, 8),
      (v.rstLevel, 16, 2), (v.rstUnit, 18, 10)])
  | 0x20C => some v.id
  | 0x210 => some v.rom
  | 0x214 => some v.cores
  | 0x218 => some v.lim
  | 0x21C => some v.dispCfg
  | 0x220 => some (pack [(maskOf 5 fun u => (vget v.disp u).disputed, 0, 5), (v.dispLast, 8, 4), (v.fenced, 16, 8)])
  | 0x300 => some (wordOf v.runs)
  | 0x304 => some (wordOf v.fails)
  | 0x318 => some (wordOf v.drainEsc)
  | 0x31C => some (wordOf v.disputes)
  | 0x320 => some (if x.sy.isHarbour then wordOf v.stateFix else 0)
  | _ =>
    match regIx off 0x244 4 6, regIx off 0x280 4 32, regIx off 0x308 4 4 with
    | some i, _, _ => some (wordOf (vget v.stageT i))
    | _, some w, _ => some (BitVec.extractLsb' (32 * w) 32 v.defect)
    | _, _, some l => some (wordOf (vget v.rst l))
    | _, _, _ => none

def readHw (s : State) (b : BId) (req : ReqId) (off : Nat) : Option Word :=
  let h := (s.at b).hw
  let m := vget h.mbox req.val
  match off with
  | 0x000 => some h.cfg
  | 0x004 => some h.tmo
  | 0x008 => some 0
  | 0x00C => some (pack [(h.lastCmd, 0, 2), (h.cmdResult, 4, 4), (h.cmdReq, 8, 4)])
  | 0x010 => some (pack [(linkCode h.link, 0, 3), (b2n h.rx.lock, 3, 1), (b2n h.rx.localReady, 4, 1),
      (b2n h.rx.remoteReady, 5, 1), (b2n h.tx.on, 6, 1), (b2n h.rx.nakOut, 7, 1), (tagsUsed h, 24, 7)])
  | 0x014 => some (pack [(h.tx.next, 0, 8), (h.tx.acked, 8, 8), (h.rx.last, 16, 8), (h.tx.remoteWin, 24, 7)])
  | 0x018 => some (pack [(h.remoteVer, 0, 8), (h.remoteCap, 8, 7), (h.limit, 16, 7), (h.lastCause, 24, 3),
      (min (quarantinedTags h) 16, 27, 5)])
  | 0x01C => some (wordOf h.tx.trainId)
  | 0x020 => some m.addrLo
  | 0x024 => some m.addrHi
  | 0x028 => some m.buf
  | 0x044 => some 0
  | 0x048 => some (pack [(m.resTag, 0, 6), (b2n m.resAcc, 6, 1), (m.resCode, 8, 4)])
  | 0x050 => some (cplRead b s).1
  | 0x054 => some (evqRead b req s).1
  | 0x0C0 => some (lo64 h.cnt.txf)
  | 0x0C4 => some (hi64 h.cnt.txf)
  | 0x0C8 => some (lo64 h.cnt.rxf)
  | 0x0CC => some (hi64 h.cnt.rxf)
  | _ =>
    match regIx off 0x030 4 5, regIx off 0x080 4 11 with
    | some i, _ => some (vget m.arg i)
    | _, some i => some (wordOf (((hwCounters h.cnt)[i]?).getD 0))
    | _, _ => readSvc s b off

/-- RL_READ.RUN: the highest count of a condition that is not confirmed yet. -/
def adcRun (a : AdcIn) : Nat :=
  let live (done : Bool) (n : Nat) := if done then 0 else n
  max (max (live a.softLowDone a.softLow) (live a.softHighDone a.softHigh))
    (max (live a.hardLowDone a.hardLow) (live a.hardHighDone a.hardHigh))

/-- The flash offset of the head slot (RL_LOG_HEAD). -/
def logHead (l : LogSt) : Nat :=
  match l.sector with
  | some off => if l.slotN ≥ 2048 then nextSector off else off + 32 * l.slotN
  | none => 0

def erasing (l : LogSt) : Bool :=
  match l.busy with
  | some (.erase _) => true
  | _ => false

def readRl (s : State) (b : BId) (off : Nat) : Option Word :=
  let x := s.at b
  let r := x.rl
  let l := x.log
  let hbr := x.sy.isHarbour
  match off with
  | 0x000 => some 0
  | 0x004 => some (pack [(slotStCode r.slot, 0, 4), (b2n r.kindFault, 4, 1), (r.cause, 8, 8), (r.firstRail, 16, 4),
      (r.result, 20, 4), (r.pos, 24, 4)])
  | 0x008 => some (pack [(maskOf 13 fun i => (vget r.rails i).en, 0, 13), (maskOf 13 fun i => (vget r.rails i).st == .up, 16, 13)])
  | 0x00C => some (pack [(maskOf 12 fun i => (vget r.rails i).pg, 0, 12), (maskOf 13 fun i => (vget r.rails i).offOk, 16, 13)])
  | 0x010 => some (pack [(r.fltCode, 0, 8), (r.fltRail, 8, 4), (r.fltInput, 12, 5), (b2n r.fltOver, 17, 1),
      (b2n (!r.trumps.isEmpty), 18, 1)])
  | 0x3C0 => some (lo64 r.scans)
  | 0x3C4 => some (hi64 r.scans)
  | 0x3C8 => some (wordOf r.powerups)
  | 0x3CC => some (wordOf r.faultShut)
  | 0x3D0 => some (wordOf r.restarts)
  | 0x400 => some (wordOf l.seq)
  | 0x404 => some (wordOf l.drop)
  | 0x408 => some (if hbr then wordOf (logHead l) else 0)
  | 0x40C => some (if hbr then wordOf l.gen else 0)
  | 0x410 => some (if hbr then wordOf l.torn else 0)
  | 0x414 => some (pack [(b2n (hbr && l.ready), 0, 1), (b2n (hbr && erasing l), 1, 1), (b2n l.guard, 2, 1)])
  | _ =>
    match regIx off 0x020 4 24, regIx off 0x080 4 24, regIx off 0x0E0 4 24, regIx off 0x140 4 24 with
    | some i, _, _, _ =>
      let a := vget r.ins i
      some (pack [(a.code, 0, 12), (b2n a.valid, 12, 1), (adcRun a, 16, 4)])
    | _, some i, _, _ => some (vget r.thr i)
    | _, _, some i, _ => some (vget r.hard i)
    | _, _, _, some i => some (vget r.incfg i)
    | _, _, _, _ =>
      match regIx off 0x200 8 13, regIx off 0x204 8 13, regIx off 0x300 4 24, regIx off 0x380 4 13 with
      | some i, _, _, _ => some (vget r.graph0 i)
      | _, some i, _, _ => some (vget r.graph1 i)
      | _, _, some i, _ =>
        let e := vget r.evt i
        some (pack [(e.low, 0, 8), (e.high, 8, 8), (e.hard, 16, 8), (e.offTo, 24, 8)])
      | _, _, _, some i =>
        let e := vget r.pgEvt i
        some (pack [(e.drop, 0, 8), (e.timeout, 8, 8), (e.ramp, 16, 8), (e.avs, 24, 8)])
      | _, _, _, _ => none


/-- The tray-wide part of the PW_ block, as berth b (the harbour) holds it. -/
def readPwTray (s : State) (b : BId) (off : Nat) : Option Word :=
  let x := s.at b
  let t := x.tray.pw
  match off with
  | 0x000 => some (wordOf t.budget)
  | 0x004 => some (wordOf (budgetMax x))
  | 0x008 => some (pack [(grantSum x.tray, 0, 16), (t.rot, 16, 3), (b2n t.shedSlot.isSome, 19, 1)])
  | 0x00C => some (pack [(t.markAvg.toList.foldl (· + ·) 0, 0, 16), (b2n t.floorOver, 16, 1)])
  | 0x010 => some (wordOf t.trayStep)
  | 0x080 => some (wordOf t.budgetCut)
  | 0x084 => some (wordOf t.shedCnt)
  | _ =>
    match regIx off 0x020 4 8, regIx off 0x040 4 8, regIx off 0x060 4 8 with
    | some n, _, _ => some (pack [(vget t.grant n, 0, 16), (vget t.lastReq n, 16, 16)])
    | _, some n, _ => some (wordOf (vget t.grantReq n))
    | _, _, some n => some (pack [(admitCode (vget t.admis n), 0, 2), (b2n (vget t.shed n), 2, 1)])
    | _, _, _ => none

/-- Word w of a ledger entry (R206). -/
def ledgerWord (e : LedgerEnt) (w : Nat) : Word :=
  match w with
  | 0 => ledgerW0 e
  | 1 => wordOf e.tide
  | 2 => pack [(e.tide / 2 ^ 32, 0, 8), (e.mark, 8, 8)]
  | _ => wordOf e.dur

/-- PW_SLOT_STAT.FLOOR (R201): s_pwr of a used partition is 0 and the slot is over its grant. -/
def slotFloor (x : Berth) (n : Nat) : Bool :=
  decide (x.pw.avg > x.pw.grant) && (upto 4).any fun k => partUsed x n k && (vget x.pw.parts k).sPwr == 0

/-- The ceiling codes of four bins of cluster c, from bin `lo` (PW_CLFMAX). -/
def clfWord (p : Pw) (c lo : Nat) : Word :=
  pack ((upto 4).map fun i => (vget p.clfmax (8 * c + lo + i), 8 * i, 8))

/-- The berth-local part of the PW_ block. -/
def readPw (s : State) (b : BId) (off : Nat) : Option Word :=
  let x := s.at b
  let p := x.pw
  let n := b.val
  match off with
  | 0x100 => some 0
  | 0x104 => some (pack [(admitCode p.admis, 0, 2), (b2n (anyDisputed x), 2, 1), (b2n (slotFloor x n), 3, 1),
      (b2n p.partialPwr, 4, 1)])
  | 0x150 => some p.trim
  | 0x154 => some p.track
  | 0x1C0 => some p.therm
  | 0x1C4 => some p.og
  | 0x1C8 => some p.stepLim
  | 0x1D0 => some (pack [(p.avg, 0, 16), (p.peak, 16, 16)])
  | 0x240 => some (wordOf p.ledger.act)
  | 0x244 => some (pack [(p.ledger.next, 0, 5), (p.ledger.overwrites, 16, 16)])
  | _ =>
    match regIx off 0x110 4 4, regIx off 0x120 4 4, regIx off 0x130 4 4, regIx off 0x140 4 4 with
    | some k, _, _, _ => some (pack [((vget p.parts k).reqStep, 0, 5), ((vget p.parts k).margin, 8, 6)])
    | _, some k, _, _ =>
      let q := vget p.parts k
      let e := effective x n k
      some (pack [(q.applied, 0, 5), (e, 5, 5), (b2n (q.ready && decide (e > q.applied)), 10, 1), (b2n q.orderPend.isSome, 11, 1),
        (if partUsed x n k then stepFreq x n k q.applied else 0, 16, 16)])
    | _, _, some k, _ => some (pack [((vget p.parts k).setpoint, 0, 16), ((vget p.parts k).target, 16, 16)])
    | _, _, _, some k =>
      let q := vget p.parts k
      some (pack [(q.sTherm, 0, 5), (q.sCurr, 5, 5), (q.sPwr, 10, 5), (q.sPin, 15, 5), (q.sBw, 20, 5), (b2n q.pwrBudget, 25, 1)])
    | _, _, _, _ =>
      match regIx off 0x160 4 13, regIx off 0x1A0 4 7, regIx off 0x1E0 4 8, regIx off 0x200 4 2 with
      | some r, _, _, _ => some (vget p.vfs r)
      | _, some j, _, _ => some (vget p.iscale j)
      | _, _, some i, _ => some (wordOf (vget p.binv i))
      | _, _, _, some c =>
        let a := vget p.avs c
        some (pack [(b2n a.retired, 0, 1), (b2n (!a.queue.isEmpty), 1, 1), (a.lastAck, 2, 2)])
      | _, _, _, _ =>
        match regIx off 0x208 4 2, regIx off 0x210 4 2, regIx off 0x280 4 12, regIx off 0x400 4 128, regIx off 0x800 4 128 with
        | some c, _, _, _, _ => some (wordOf (vget p.avs c).txn)
        | _, some c, _, _, _ => some (wordOf (vget p.avs c).fail)
        | _, _, some r, _, _ => some (wordOf (vget p.ledger.sum r))
        | _, _, _, some i, _ => some (ledgerWord (vget p.ledger.ent (i / 4)) (i % 4))
        | _, _, _, _, some i => some (clfWord p (i / 2) (4 * (i % 2)))
        | _, _, _, _, _ => none

def coolCode : CoolState → Nat
  | .unused => 0
  | .kick => 1
  | .run => 2
  | .stalled => 3
  | .retired => 4

def readCl (s : State) (b : BId) (off : Nat) : Option Word :=
  let x := s.at b
  match off with
  | 0x200 => some (wordOf (silenceSec s b))
  | 0x204 => some (boosted x)
  | _ =>
    if off ≥ 0xC0 then none
    else
      let c := off / 0x40
      let k := vget x.cl.ch c
      match off % 0x40 with
      | 0x000 => some k.cfg0
      | 0x004 => some k.cfg1
      | 0x008 => some k.dmin
      | 0x00C => some (wordOf k.cmd)
      | 0x010 => some (pack [(coolCode k.st, 0, 3), (b2n k.offPhase, 3, 1), (b2n k.reached, 4, 1), (b2n k.wdog, 5, 1),
          (b2n (coolMode k != 0 && bitAt (boosted x) (coolZone k)), 6, 1), (appliedDuty s b c, 16, 10)])
      | 0x014 => some (pack [(min (speedNow s k) 65535, 0, 16), (b2n k.valid, 16, 1), (b2n k.reverse, 17, 1)])
      | 0x018 => some (if coolMode k == 2 then pack [(k.pos, 0, 10), (k.revs, 16, 16)] else 0)
      | 0x020 => some (wordOf k.stallCnt)
      | 0x024 => some (wordOf k.encErr)
      | 0x028 => some (wordOf k.idxErr)
      | 0x02C => some (wordOf k.kicks)
      | _ => none

def ropeCode : RopeState → Nat
  | .notFitted => 0
  | .pending => 1
  | .dry => 2
  | .wet => 3
  | .openCircuit => 4
  | .retired => 5

/-- A latch of berth m holds a trump on slot n, as berth `by` sees the latches (R233). -/
def latchHolds (s : State) (seer m : BId) (n : Nat) : Bool :=
  (vget (s.at seer).cl.latchView (2 * m.val) || vget (s.at seer).cl.latchView (2 * m.val + 1))
    && nbit (fld (s.at m).cl.valve 15 8) n

def readLk (s : State) (b : BId) (off : Nat) : Option Word :=
  let c := (s.at b).cl
  let r0 := vget c.rope 0
  let r1 := vget c.rope 1
  match off with
  | 0x000 => some r0.cfg
  | 0x004 => some r1.cfg
  | 0x008 => some (pack [((c.valve.toNat % 65536), 0, 16), (b2n c.valveOut.isSome, 16, 1),
      (b2n (c.valveOut == some (bitAt c.valve 1)), 17, 1)])
  | 0x00C => some (pack [(ropeCode r0.st, 0, 3), (ropeCode r1.st, 4, 3), (b2n r0.latch, 8, 1), (b2n r1.latch, 9, 1),
      (if r0.latch || r1.latch then fld c.valve 15 8 else 0, 16, 8), (maskOf 8 fun m => latchHolds s b (bid m) b.val, 24, 8)])
  | 0x010 => some 0
  | 0x014 => some (pack [(r0.wetCnt, 0, 8), (r1.wetCnt, 8, 8), (r0.openCnt, 16, 8), (r1.openCnt, 24, 8)])
  | _ => none

end Sys2Proof.Machine
end

