-- ==== Sys2Proof/Machine/RegsC.lean ====
section
/-! DEFINITION. The read values of the AR_, PG_, PL_, DM_, TW_, US_ and HL_ registers (chapters 08, 09, 12–15, R474). -/
namespace Sys2Proof.Machine

def arrStCode : ArrSt → Nat
  | .unverified => 0
  | .busy => 1
  | .valid => 2
  | .degraded => 3
  | .invalid => 4
  | .retired => 5

/-- The map entry of logical output o of an array (AR_MAP_DATA). -/
def mapEntry (a : Arr) (o : Nat) : Word :=
  if o ≥ logicalN a.calMode then 0
  else pack ((upto (copyN a.calMode)).flatMap fun j =>
    [(mapPair a o j, 8 * j, 7), (b2n (pairOk a (mapPair a o j)), 8 * j + 7, 1)])

def readAr (s : State) (b : BId) (req : ReqId) (off : Nat) : Option Word :=
  let x := s.at b
  let e := x.ar
  match off with
  | 0x000 => some e.group
  | 0x020 => some 0
  | 0x024 => some e.src
  | 0x028 => some e.dst
  | 0x02C => some (pack [(e.lastCmd, 0, 4), (b2n (e.phase != .idle), 4, 1), (e.cmdArr, 5, 3), (e.result, 8, 8),
      (e.rowReg, 16, 8), (e.cmdReq, 24, 4), (b2n e.sat, 28, 1)])
  | 0x030 => some (lo64 e.passes)
  | 0x034 => some (hi64 e.passes)
  | 0x040 => some (vget e.mapSel req.val)
  | 0x044 =>
    let sel := vget e.mapSel req.val
    some (mapEntry (vget e.arr (fld sel 2 0)) (fld sel 13 8))
  | _ =>
    match regIx off 0x010 4 4 with
    | some g => some (vget e.gcfg g)
    | none =>
      if off < 0x100 || off ≥ 0x300 then none
      else
        let k := (off - 0x100) / 0x40
        let a := vget e.arr k
        match off % 0x40 with
        | 0x00 => some (pack [(arrStCode a.st, 0, 3), (b2n a.calMode, 3, 1), (arrGroup x k, 4, 2),
            (b2n (nbit (dummyMask x) k), 6, 1), (b2n a.calOk, 7, 1), (logicalN a.calMode, 8, 7), ((spares a).length, 16, 4),
            ((shortOuts a).length, 24, 7)])
        | 0x04 => some (pack [(a.gain, 0, 16), (a.offs, 16, 16)])
        | 0x1C => some (wordOf a.calTide)
        | 0x20 => some (wordOf a.tests)
        | 0x24 => some (wordOf a.mismatch)
        | 0x28 => some (wordOf a.colEvt)
        | 0x2C => some (wordOf a.arrEvt)
        | 0x30 => some (wordOf a.cals)
        | 0x34 => some (wordOf a.calFail)
        | o => (regIx o 0x08 4 5).map fun w => BitVec.extractLsb' (32 * w) 32 a.ret

/-- The berths that hold a stage of a graph (PG_GSTAT.BERTHS). -/
def graphBerths (gr : Graph) : Nat := maskOf 8 fun b => gr.place.any fun p => p.berth.val == b

def gstatWord (gr : Graph) : Word :=
  match gr.img with
  | some g => pack [(gstCode gr.st, 0, 3), (b2n g.slotScope, 3, 1), (g.cadence, 4, 4), (graphBerths gr, 8, 8), (g.phase, 16, 8)]
  | none => pack [(gstCode gr.st, 0, 3)]

/-- The PG_ registers. PG_ARRAYS.SET reads 0 before the chart lock, as its reset value does. -/
def readPg (s : State) (b : BId) (req : ReqId) (off : Nat) : Option Word :=
  let x := s.at b
  let p := x.pg
  let two (i : Nat) : Graph := vget p.graph i
  match off with
  | 0x000 => some 0
  | 0x004 => some (pack [(p.lastCmd, 0, 4), (b2n p.swapDue, 4, 1), (p.result, 8, 8), (p.cmdReq, 16, 4)])
  | 0x008 => some (pack [(b2n p.swapped, 0, 1), (p.promotions, 8, 8)])
  | 0x00C => some (pack [(p.errCode, 0, 8), (p.errTarget, 8, 1), (p.errBerth, 9, 3), (p.errIndex, 16, 16)])
  | 0x020 => some (pack [(maskOf 8 fun k => holdsTile s 0 b k, 0, 8), (maskOf 8 fun k => holdsTile s 1 b k, 8, 8),
      (if x.ch.locked then setMask x 0 else 0, 16, 8)])
  | 0x024 => some p.crit
  | 0x028 => some p.tol
  | 0x030 => some (vget p.outSel req.val)
  | 0x034 =>
    let sel := vget p.outSel req.val
    let o : OutVal := ((two (fld sel 0 0)).outs[fld sel 15 8]?).getD {}
    some (pack [(o.value, 0, 16), (b2n o.soft, 16, 1), (b2n o.bw, 17, 1), (b2n o.supp, 18, 1), (b2n o.valid, 19, 1)])
  | 0x060 => some (wordOf p.featMiss)
  | 0x064 => some (wordOf p.suppress)
  | 0x068 => some (wordOf p.wfail)
  | 0x090 => some (wordOf p.dcmp)
  | 0x094 => some (wordOf p.dagree)
  | 0x098 => some (wordOf p.dinc)
  | _ =>
    match regIx off 0x010 4 2, regIx off 0x018 4 2, regIx off 0x040 4 2, regIx off 0x048 4 2 with
    | some g, _, _, _ => some (gstatWord (two g))
    | _, some g, _, _ => some (wordOf (((two g).img.map (·.ver)).getD 0))
    | _, _, some g, _ => some (wordOf (two g).runs)
    | _, _, _, some g => some (wordOf (two g).incomplete)
    | _, _, _, _ =>
      match regIx off 0x050 4 2, regIx off 0x058 4 2, regIx off 0x070 4 6, regIx off 0x0A0 4 6, regIx off 0x0C0 4 6 with
      | some g, _, _, _, _ => some (wordOf (two g).overrun)
      | _, some g, _, _, _ => some (wordOf (two g).satCnt)
      | _, _, some k, _, _ => some (wordOf (vget p.clamp k))
      | _, _, _, some k, _ => some (wordOf (vget p.ddis k))
      | _, _, _, _, some k => some (wordOf (vget p.dmaxdev k))
      | _, _, _, _, _ => none

def pilotCode : PilotState → Nat
  | .off => 0
  | .loading => 1
  | .running => 2
  | .halted => 3

def imgCode : ImgState → Nat
  | .none => 0
  | .loading => 1
  | .loaded => 2
  | .failed => 3

def readImg (s : State) (b : BId) (off : Nat) : Option Word :=
  let g := (s.at b).tray.img
  match off with
  | 0x100 => some 0
  | 0x104 => some (pack [(g.lastCmd, 0, 4), (b2n g.busy, 4, 1), (g.result, 8, 8), (g.cmdReq, 16, 4)])
  | 0x200 => some (pack [(g.errCode, 0, 8), (g.errRole, 8, 2), (b2n g.errSlot, 10, 1), (g.errBerth, 11, 3)])
  | _ =>
    match regIx off 0x110 4 4, regIx off 0x120 4 4, regIx off 0x140 4 48 with
    | some r, _, _ =>
      let i := vget g.roles r
      some (pack [(imgCode i.st, 0, 2), (b2n i.slotB, 2, 1), (b2n (regionHeld s r i.slotB), 3, 1), (b2n i.store, 4, 1),
        (i.rollback, 8, 8), (i.keyIdx, 16, 2)])
    | _, some r, _ => some (wordOf (vget g.roles r).ver)
    | _, _, some i => some (wordAt (vget g.roles (i / 12)).digest (4 * (i % 12)))
    | _, _, _ => none

def readPl (s : State) (b : BId) (off : Nat) : Option Word :=
  let p := (s.at b).pl
  match off with
  | 0x000 => some (pack [(pilotCode p.st, 0, 2), (p.lastResult, 2, 2), (p.lastCause, 4, 4), (restartWindow s b, 8, 8)])
  | 0x004 => some 0
  | 0x008 => some (wordOf p.wdog)
  | 0x00C => some 0
  | 0x020 => some (lo64 p.mtime)
  | 0x024 => some (hi64 p.mtime)
  | 0x028 => some (lo64 p.mtimecmp)
  | 0x02C => some (hi64 p.mtimecmp)
  | 0x030 => some (pack [(b2n p.msip, 0, 1)])
  | 0x040 => some p.irqPend
  | 0x044 => some p.irqEn
  | 0x050 => some p.crash
  | 0x054 => some p.crashPc
  | 0x060 => some (wordOf p.restarts)
  | 0x064 => some (wordOf p.wdogExp)
  | _ => if off < 0x100 then none
    else if (s.at b).sy.isHarbour then readImg s b off else (readImg s b off).map fun _ => 0

def dmaCode : DmaState → Nat
  | .idle => 0
  | .running => 1
  | .halted => 2
  | .retired => 3

def readDm (s : State) (b : BId) (off : Nat) : Option Word :=
  if off < 0x80 then
    let d := dmaOf s b (off / 0x40)
    match off % 0x40 with
    | 0x00 => some (pack [(dmaCode d.st, 0, 2), (d.cur, 2, 5), (b2n d.susp.isSome, 7, 1), (d.susp.getD 0, 8, 5),
        (b2n d.pre.isSome, 13, 1), (d.out.length, 16, 4)])
    | 0x04 => some 0
    | 0x08 => some (wordOf d.head)
    | 0x0C => some (wordOf d.tail)
    | 0x10 => some (wordOf d.done)
    | 0x14 => some (wordOf d.faults)
    | 0x18 => some (lo64 d.bytes)
    | 0x1C => some (hi64 d.bytes)
    | 0x20 => some (pack [(d.lastCmd, 0, 3), (d.cmdResult, 4, 4), (d.cmdReq, 8, 4)])
    | _ => none
  else (regIx off 0x400 4 512).map fun i => vget (dmaOf s b (i / 256)).desc (i % 256)

def twPhaseCode (s : State) (t : Tw) : Nat :=
  if s.dev.sleep then 6 else match t.phase with
    | .idle => 0
    | .busy => 1
    | .beacon => 4
    | .backoff => 5

/-- The counters at TW_ 0x040 to 0x070, in order. -/
def twCounters (c : TwCnt) : List Nat :=
  [c.xfer, c.nack, c.pecErr, c.lenErr, c.arbLost, c.arbEdge, c.notify, c.notifyNak, c.beacon, c.beaconCut, c.wake,
    c.stretchTo, c.hang]

/-- TW_LAST. -/
def twLastWord (t : Tw) : Word := pack [(t.lastResult, 0, 8), (t.lastIndex, 8, 8), (t.lastCmd, 16, 8)]

def readTw (s : State) (b : BId) (off : Nat) : Option Word :=
  let t := (s.at b).tw
  match off with
  | 0x000 => some t.cfg
  | 0x004 => some (pack [(if (s.at b).sy.straps.valid then twAddr s b else 0, 0, 7), (b2n t.active, 7, 1), (twPhaseCode s t, 8, 3),
      (b2n t.ctrlRetired, 11, 1), (b2n t.sigDue, 12, 1), (t.edgeRun, 16, 3)])
  | 0x008 => some (wordOf t.attn)
  | 0x00C => some (wordOf t.attnEn)
  | 0x010 => some 0
  | 0x014 => some (twLastWord t)
  | _ => (regIx off 0x040 4 13).map fun i => wordOf (((twCounters t.cnt)[i]?).getD 0)

def usbDevCode : UsbDev → Nat
  | .detached => 0
  | .powered => 1
  | .default => 2
  | .address => 3
  | .configured => 4

/-- US_LAST. -/
def usLastWord (u : Us) : Word := pack [(u.lastResult, 0, 8), (u.lastIndex, 8, 8), (u.lastReq, 16, 8), (u.lastCount, 24, 8)]

def readUs (s : State) (b : BId) (req : ReqId) (off : Nat) : Option Word :=
  let u := (s.at b).us
  match off with
  | 0x000 => some u.cfg
  | 0x004 => some (pack [(b2n u.vbus, 0, 1), (b2n u.attached, 1, 1), (b2n u.hs, 2, 1), (usbDevCode u.dev, 3, 3),
      (b2n u.susp, 6, 1), (b2n u.rwake, 7, 1), (u.addr, 8, 7), (b2n u.halt81, 15, 1), (u.telQueue.length, 16, 16)])
  | 0x008 => some (pack [(Config.usbVid.toNat, 0, 16), (0x7438, 16, 16)])
  | 0x00C => some (usLastWord u)
  | 0x010 => some (pack [(dfuCode u.dfu.st, 0, 8), (u.dfu.status, 8, 8), (u.alt, 16, 5), (u.dfu.refuse, 21, 3), (u.dfu.check, 24, 8)])
  | 0x014 => some (wordOf u.dfu.len)
  | 0x018 => some u.dfuPoll
  | 0x020 => some (wordOf u.telCfg)
  | 0x024 => some 0
  | 0x028 => some (pack [(vget u.pushStat req.val, 0, 2), (pushesQueued u, 4, 5)])
  | 0x02C => some (wordOf u.telSeq)
  | 0x040 => some (wordOf u.ctrlXfer)
  | 0x044 => some (wordOf u.cut)
  | 0x048 => some (wordOf u.busReset)
  | 0x04C => some (wordOf u.suspends)
  | 0x050 => some (wordOf u.telRec)
  | 0x054 => some (wordOf u.telDrop)
  | 0x058 => some (wordOf u.dfuDone)
  | 0x05C => some (wordOf u.dfuFail)
  | _ => none

/-- The tray-wide part of the HL_ block, as berth b (the harbour) holds it. HL_SND freezes under R469. -/
def readHlTray (s : State) (b : BId) (req : ReqId) (off : Nat) : Option Word :=
  let t := (s.at b).tray.hl
  let inSt (st : BerthState) : Nat := maskOf 8 fun n => (s.at (bid n)).sy.st == st
  match off with
  | 0x000 => some t.cfg
  | 0x004 => some (pack [(t.expect, 0, 8), (t.arrived, 8, 8)])
  | 0x008 => some (pack [(t.retired, 0, 8), (inSt .isolated, 8, 8), (inSt .moored, 16, 8)])
  | 0x040 => some (wordOf (vget t.arg req.val % 65536))
  | 0x044 => some 0
  | 0x048 => some (pack [(t.kind, 0, 5), (t.berth, 5, 3), (t.result, 8, 8), (t.req, 16, 4), (b2n t.busy, 20, 1)])
  | 0x060 => some (wordOf t.retires)
  | 0x064 => some (wordOf t.unretires)
  | _ =>
    match regIx off 0x020 4 8, regIx off 0x800 4 512 with
    | some n, _ => some (vget t.ret n)
    | _, some i => some (wordAt (vget (if (s.at b).sy.snapFrozen then t.frozen else t.snd) (i / 64)) (4 * (i % 64)))
    | _, _ => none

/-- The berth-local part of the HL_ block. -/
def readHl (s : State) (b : BId) (off : Nat) : Option Word :=
  let h := (s.at b).hl
  match off with
  | 0x100 => some (wordOf h.sndSeq)
  | 0x104 => some (wordOf h.sndDrop)
  | 0x108 => some (pack [(h.annexLen, 0, 7), (b2n h.annexCommit, 7, 1)])
  | _ => (regIx off 0x140 4 16).map fun i => vget h.annex i

end Sys2Proof.Machine
end

