-- ==== Sys2Proof/Machine/RegMap.lean ====
section
/-! DEFINITION. The register map (R36, R37), what a register read returns and does (R10, R39, R43), the freeze of
snapshots (R44, R45, R475), and the outcomes of accesses (R36, R39). -/
namespace Sys2Proof.Machine

/-! ### Reads of registers -/

/-- The live value of the register at offset `off` of block `blk` (0x0 SY_ to 0xF HL_), in the window of berth b or, with
`tray`, in the tray-wide space that b answers as the harbour; none where nothing is mapped. -/
def liveReg (s : State) (b : BId) (tray : Bool) (req : ReqId) (blk off : Nat) : Option Word :=
  match blk, tray with
  | 0x0, _ => readSy s b tray off
  | 0x1, _ => readTd s b off
  | 0x2, _ => readCh s b tray off
  | 0x3, false => readDk s b req off
  | 0x4, false => readHw s b req off
  | 0x5, false => readRl s b off
  | 0x6, false => if off < 0x100 then none else readPw s b off
  | 0x6, true => if off < 0x100 then readPwTray s b off else none
  | 0x7, false => readCl s b off
  | 0x8, false => readLk s b off
  | 0x9, false => readAr s b req off
  | 0xA, false => readPg s b req off
  | 0xB, false => readPl s b off
  | 0xC, false => readDm s b off
  | 0xD, _ => if capable b then readTw s b off else none
  | 0xE, _ => if capable b then readUs s b req off else none
  | 0xF, false => if off < 0x100 || off ≥ 0x800 then none else readHl s b off
  | 0xF, true => if off < 0x100 || off ≥ 0x800 then readHlTray s b req off else none
  | _, _ => none

/-- n offsets from `base` on, `stride` apart. -/
def offs (base stride n : Nat) : List Nat := (upto n).map fun i => base + stride * i

/-- The registers of a berth's window marked F (R474), as 0x1000 × block + offset. -/
def frozenOffs : List Nat :=
  [0x0030, 0x0034, 0x0038] ++ offs 0x1040 4 4 ++ [0x20C0] ++ offs 0x3060 4 8 ++ [0x3080] ++ [0x401C] ++ offs 0x4080 4 11
    ++ offs 0x40C0 4 4 ++ offs 0x4300 4 9 ++ offs 0x5300 4 24 ++ offs 0x5380 4 13 ++ offs 0x53C0 4 5
    ++ [0x5400, 0x5404, 0x5410] ++ offs 0x6208 4 4 ++ offs 0x6280 4 12 ++ (upto 3).flatMap (fun c => offs (0x7020 + 0x40 * c) 4 4)
    ++ [0x8014] ++ [0x9030, 0x9034] ++ (upto 8).flatMap (fun k => offs (0x9120 + 0x40 * k) 4 6) ++ offs 0xA040 4 11
    ++ offs 0xA070 4 6 ++ offs 0xA090 4 3 ++ offs 0xA0A0 4 6 ++ offs 0xA0C0 4 6 ++ [0xB060, 0xB064]
    ++ (upto 2).flatMap (fun e => offs (0xC010 + 0x40 * e) 4 4) ++ offs 0xD040 4 13 ++ [0xE02C] ++ offs 0xE040 4 8
    ++ [0xF100, 0xF104]

/-- The tray-wide registers marked F, HL_SND apart (R475). -/
def frozenTray : List Nat := [0x6080, 0x6084, 0xF060, 0xF064]

/-- The set that berth b freezes (R44). -/
def frozenSet (s : State) (b : BId) : List Frozen :=
  let take (tray : Bool) (os : List Nat) : List Frozen :=
    os.filterMap fun o => (liveReg s b tray 0 (o / 4096) (o % 4096)).map fun w => { off := o, val := w }
  take false frozenOffs ++ (if s.isHbr b then take true frozenTray else [])

/-- The value a read finds: the frozen one while the berth's snapshot is frozen and holds the register (R44, R475). -/
def regValue (s : State) (b : BId) (tray : Bool) (req : ReqId) (blk off : Nat) : Option Word :=
  (liveReg s b tray req blk off).map fun w =>
    if (s.at b).sy.snapFrozen then
      ((((s.at b).sy.frozen.find? fun f => f.off == 4096 * blk + off).map (·.val)).getD w)
    else w

/-- The low words of the 64-bit counters (R477), as 0x1000 × block + offset. -/
def lowWords : List Nat := [0x0030, 0x1010, 0x53C0, 0x9030, 0x40C0, 0x40C8, 0xB020, 0xC018, 0xC058]

def updSnap (b : BId) (f : Sy → Sy) (s : State) : State := s.upd b fun x => { x with sy := f x.sy }

/-- COUNTER_LOW_READ: the low word, and the high word of the same value into the requester's latch (R43). -/
def counterLow (b : BId) (tray : Bool) (req : ReqId) (blk off : Nat) (s : State) : Word × State :=
  let hi := (regValue s b tray req blk (off + 4)).getD 0
  ((regValue s b tray req blk off).getD 0,
    updSnap b (fun y => { y with latch := vset y.latch req.val (some { ctr := 4096 * blk + off, hi := hi }) }) s)

/-- COUNTER_HIGH_READ: the latched word, which empties the latch, or the value's own high word (R43). -/
def counterHigh (b : BId) (tray : Bool) (req : ReqId) (blk off : Nat) (s : State) : Word × State :=
  match vget (s.at b).sy.latch req.val with
  | some l =>
    if l.ctr == 4096 * blk + off - 4 then (l.hi, updSnap b (fun y => { y with latch := vset y.latch req.val none }) s)
    else ((regValue s b tray req blk off).getD 0, s)
  | none => ((regValue s b tray req blk off).getD 0, s)

/-- ACC_ERR_READ: the record of the first error, which the read clears (R39). -/
def accErrRead (b : BId) (s : State) : Word × State :=
  ((liveReg s b false 0 0x0 0x040).getD 0,
    updSnap b (fun y => { y with errCause := 0, errReq := 0, errWrite := false, errOver := false, errOrigin := 0 }) s)

/-- A read of RL_FAULT clears its RC fields. -/
def faultRead (b : BId) (s : State) : Word × State :=
  ((liveReg s b false 0 0x5 0x010).getD 0,
    s.updRl b fun r => { r with fltCode := 0, fltRail := 0, fltInput := 0, fltOver := false })

/-- A read of PW_PWR clears PEAK. -/
def pwrRead (b : BId) (s : State) : Word × State :=
  ((liveReg s b false 0 0x6 0x1D0).getD 0, s.updPw b fun p => { p with peak := 0 })

/-- A read of a mapped register: the word, and what the read does (R10, R43, R476). -/
def regRead (b : BId) (tray : Bool) (req : ReqId) (blk off : Nat) (s : State) : Word × State :=
  let key := 4096 * blk + off
  if key == 0x0040 then accErrRead b s
  else if key == 0x3000 then allocRead b req true s
  else if key == 0x3004 then allocRead b req false s
  else if key == 0x4050 then cplRead b s
  else if key == 0x4054 then evqRead b req s
  else if key == 0x5010 then faultRead b s
  else if key == 0x61D0 then pwrRead b s
  else if lowWords.contains key then counterLow b tray req blk off s
  else if lowWords.contains (key - 4) then counterHigh b tray req blk off s
  else ((regValue s b tray req blk off).getD 0, s)

/-! ### Accesses (R36, R39) -/

/-- What an address reaches: a register, a byte of TCM or deck share, a word of an array's cell window. -/
inductive Reach where
  | reg (tray : Bool) (blk off : Nat)
  | tcm (off : Nat)
  | deck (off : Nat)
  | cell (k row word : Nat)
deriving DecidableEq, Repr

/-- Who accesses: its requester code, its own berth where it has one, and for a DMA engine the same. -/
structure Who where
  req : ReqId
  own : Option BId
deriving DecidableEq, Repr

/-- Who a pilot, a DMA engine of a berth, a host path or the harbour command engine is. -/
def pilotWho (b : BId) : Who := { req := ⟨b.val, by omega⟩, own := some b }
def dmaWho (b : BId) : Who := { req := 8, own := some b }
def hostWho (req : ReqId) : Who := { req := req, own := none }

/-- The berth at which an access's own errors are recorded: the requester's own, or the harbour. -/
def errHome (s : State) (w : Who) : BId := w.own.getD (s.harbour.getD 0)

/-- The region of R36 that an address lies in: its target berth, and its offset within the window; `tray` for the
tray-wide space, whose deck view is answered by the berth that holds the buffer. None: no mapped region, or a tray-wide
register while there is no harbour. -/
def addrWindow (s : State) (w : Who) (a : Nat) : Option (Option BId × Bool × Nat) :=
  let off := a % 0x1000000
  match a / 0x1000000 with
  | 0x20 => w.own.map fun b => (some b, false, off)
  | 0x30 => some (if 0x100000 ≤ off && off < 0x200000 then some (bid ((off - 0x100000) / 0x20000)) else s.harbour, true, off)
  | r => if 0x40 ≤ r && r < 0x48 then some (some (bid (r - 0x40)), false, off) else none

/-- The unit at an offset of the window of berth b (R36, R37, R249). -/
def reachAt (s : State) (b : BId) (tray : Bool) (req : ReqId) (off : Nat) : Option Reach :=
  if 0xF00000 ≤ off && off < 0xF10000 then
    let blk := (off - 0xF00000) / 4096
    (liveReg s b tray req blk (off % 4096 / 4 * 4)).map fun _ => .reg tray blk (off % 4096 / 4 * 4)
  else if tray then (if 0x100000 ≤ off && off < 0x200000 then some (.deck ((off - 0x100000) % 0x20000)) else none)
  else if off < 0x40000 then some (.tcm off)
  else if 0x100000 ≤ off && off < 0x120000 then some (.deck (off - 0x100000))
  else if 0x800000 ≤ off && off < 0x840000 then
    let o := off - 0x800000
    if o % 0x80 < 0x50 then some (.cell (o / 0x8000) (o % 0x8000 / 0x80) (o % 0x80 / 4)) else none
  else none

/-- Whether the target berth answers accesses from `w` (R39): it is neither retired nor isolated, and it is the requester's own, or
takes part in the ring and is reached from the requester's berth, or for a host path from the harbour. -/
def answers (s : State) (w : Who) (b : BId) : Bool :=
  (s.at b).sy.st != .isolated && (s.at b).sy.st != .retired &&
    (match w.own.or s.harbour with
      | some f => f == b || (reachable s b && (hops s f b).isSome)
      | none => false)

/-- POPULATED of the locked chart, which outlasts the harbour that locked it; every berth before lock (R99). -/
def trayPopulated (s : State) : Nat :=
  match (s.harbour.toList ++ allB).find? fun b => (s.at b).ch.locked with
  | some b => (s.at b).populated
  | none => 255

/-- The outcome of the tests of R39 in their order: the target and what is reached, or a cause and the berth that
records it. -/
def access (s : State) (w : Who) (write : Bool) (a size : Nat) : Except (Nat × BId) (BId × Reach) :=
  match addrWindow s w a with
  | none => .error (1, errHome s w)
  | some (none, _, _) => .error (4, errHome s w)
  | some (some b, tray, off) =>
    if !answers s w b then .error (4, errHome s w)
    else match reachAt s b tray w.req off with
      | none => .error (1, b)
      | some r =>
        let isSy := match r with
          | .reg _ 0 _ => true
          | _ => false
        let wide := match r with
          | .reg _ _ _ => true
          | .cell _ _ _ => true
          | _ => false
        let pop := nbit (trayPopulated s) b.val
        let shareOut := tray && !wide && !(s.at b).dk.inDeck
        if wide && size != 4 then .error (2, b)
        else if a % size != 0 then .error (3, b)
        else if shareOut || (!pop && !(isSy && !write)) then .error (4, b)
        else if write && (s.at b).sy.st == .moored && w.req.val < 9 then .error (6, b)
        else .ok (b, r)

/-- Records an access error at a berth: the first since SY_ACC_ERR was read, then OVERRUN (R39). -/
def recordErr (b : BId) (cause : Nat) (w : Who) (write : Bool) (a : Nat) (s : State) : State :=
  updSnap b (fun y =>
    if y.errCause != 0 then { y with errOver := true }
    else { y with errCause := cause, errReq := w.req.val, errWrite := write, errAddr := wordOf a
                  errOrigin := if w.req == 8 then (w.own.getD 0).val else 0 }) s

/-- A read that has passed the tests: the value, low byte first in it, and what it does. A cell window's levels are
those sensed, a free value (DESIGN CHOICE, notes entry 3). -/
def readAt (w : Who) (b : BId) (r : Reach) (size : Nat) (s : State) : Word × State :=
  match r with
  | .reg tray blk off => regRead b tray w.req blk off s
  | .tcm o => (wordOf (leNat (memRead ramD (s.at b).tcm o size)), s)
  | .deck o => (wordOf (leNat (memRead ramD (s.at b).deck o size)), s)
  | .cell k row word =>
    let d := s.draw
    cellRead b k row word (d.1.setWidth 32) d.2

/-- A write of memory that has passed the tests. One by the berth's own pilot leaves its own reservation (R364). -/
def memAt (w : Who) (b : BId) (r : Reach) (size : Nat) (v : Word) (s : State) : State :=
  let bs := leBytes size v.toNat
  if w.req.val == b.val then
    match r with
    | .tcm o => s.upd b fun x => { x with tcm := memWrite ramD x.tcm o bs }
    | .deck o => s.upd b fun x => { x with deck := memWrite ramD x.deck o bs }
    | _ => s
  else
    match r with
    | .tcm o => s.tcmWrite b o bs
    | .deck o => s.deckWrite b o bs
    | _ => s

/-- A whole read: the value, or the cause of its error, which is recorded (R39). -/
def readAccess (w : Who) (a size : Nat) (s : State) : Except Nat Word × State :=
  match access s w false a size with
  | .error (c, h) => (.error c, recordErr h c w false a s)
  | .ok (b, r) =>
    let v := readAt w b r size s
    (.ok v.1, v.2)

/-! ### Remote accesses (R22, R23) -/

/-- The party with a requester code; `own` is the berth of a DMA engine. Codes 0xC–0xF name no party (R38). -/
def whoOf (req : ReqId) (own : BId) : Option Who :=
  if req.val < 8 then some (pilotWho (bid req.val))
  else if req == 8 then some (dmaWho own)
  else if req.val < 12 then some (hostWho req)
  else none

/-- The target berth of a party's access, where the address names one. -/
def accessTarget (s : State) (w : Who) (a : Nat) : Option BId :=
  match addrWindow s w a with
  | some (some t, _, _) => some t
  | _ => none

/-- The access leaves the berth of the party on the ring; a host path's leaves the harbour. -/
def isRemote (s : State) (w : Who) (a : Nat) : Bool :=
  match accessTarget s w a with
  | some t => w.own.or s.harbour != some t && answers s w t
  | none => false

/-- The target of a remote access that a party of berth b issued. -/
def lateTarget (s : State) (b : BId) (r : Remote) : Option BId := (whoOf r.req b).bind fun w => accessTarget s w r.addr

/-- A later access of requester req of berth b takes effect at berth t: those of its accesses to t that timed out before it cannot
take effect any more (R23). -/
def dropLate (b : BId) (req : ReqId) (t : BId) (s : State) : State :=
  updSnap b (fun y => { y with timedOut := y.timedOut.filter fun r => !(r.req == req && lateTarget s b r == some t) }) s

end Sys2Proof.Machine
end

