-- ==== Sys2Proof/Machine/Dma.lean ====
section
/-! DEFINITION. The DMA engines' commands: queue, bursts, hand timeouts and DM_CMD orders (R390–R396). -/
namespace Sys2Proof.Machine

/-- The engine runs the slot at HEAD where it is idle and the queue is not empty (R390). -/
def dmaKick (b : BId) (e : Nat) (s : State) : State :=
  let d := dmaOf s b e
  if d.st == .idle && d.head != d.tail then dmaStart b e d.head s else s

/-- A write to DM_TAIL (R390): it may not shrink the queue. -/
def tailWrite (b : BId) (e : Nat) (req : ReqId) (tail : Nat) (s : State) : State :=
  let d := dmaOf s b e
  if ownOrHce b req && (tail + 32 - d.head) % 32 ≥ (d.tail + 32 - d.head) % 32
  then dmaKick b e (s.updDm b e fun d => { d with tail := tail % 32 }) else s

/-- Reads n words from address a as an engine of berth b: the bytes, or the cause of the first access error. -/
def burstRead (b : BId) : Nat → Nat → State → Except Nat (List Byte) × State
  | _, 0, s => (.ok [], s)
  | a, n + 1, s =>
    match readAccess (dmaWho b) a 4 s with
    | (.error c, t) => (.error c, t)
    | (.ok w, t) =>
      match burstRead b (a + 4) n t with
      | (.ok bs, u) => (.ok (leBytes 4 w.toNat ++ bs), u)
      | (.error c, u) => (.error c, u)

/-- Writes bytes word by word to address a as an engine of berth b; a cause where an access fails. -/
def burstWrite (b : BId) : Nat → List Word → State → Option Nat × State
  | _, [], s => (none, s)
  | a, w :: ws, s =>
    match access s (dmaWho b) true a 4 with
    | .error (c, h) => (some c, recordErr h c (dmaWho b) true a s)
    | .ok (n, r) => burstWrite b (a + 4) ws (memAt (dmaWho b) n r 4 w s)

/-- Length of the running burst: to the next multiple of 256 from the descriptor's start, or to its end (R392). -/
def burstLen (d : Dma) (i : Nat) : Nat := min (256 - dResume d i % 256) (dLen d i - dResume d i)

/-- The engine runs a COPY or FILL whose burst is in progress. -/
def bursting (d : Dma) : Bool := d.st == .running && !isHws d d.cur && slotSt d d.cur == 2 && d.flt.isNone

/-- The source words of the running burst. -/
def burstWords (b : BId) (e : Nat) (s : State) : Except Nat (List Byte) × State :=
  let d := dmaOf s b e
  let n := burstLen d d.cur / 4
  if dOp d d.cur == 2 then (.ok ((upto n).flatMap fun _ => leBytes 4 (descW d d.cur 4).toNat), s)
  else burstRead b ((descW d d.cur 1).toNat + dResume d d.cur) n s

/-- The flits of the running burst's access to another berth, whose share it reads or writes (R391); it takes effect after every
earlier access of the engine to that berth (R23). -/
def burstFlits (b : BId) (e : Nat) (s : State) : State :=
  let d := dmaOf s b e
  let far (a : Word) : Option BId := match addrWindow s (dmaWho b) a.toNat with
    | some (some t, _, _) => if t == b then none else some t
    | _ => none
  match (far (descW d d.cur 1)).or (far (descW d d.cur 2)) with
  | some t => accessFlits b t (dropLate b 8 t s)
  | none => s

/-- A burst completes (R392): RESUME advances, and at the boundary the descriptor goes on, ends, or gives way. -/
def burstDone (b : BId) (e : Nat) (s : State) : State :=
  let d := dmaOf s b e
  let i := d.cur
  if !bursting d || s.dev.sleep then s
  else
    let n := burstLen d i
    match burstWords b e (burstFlits b e s) with
    | (.error c, t) => dmaFault b e 5 c 0 t
    | (.ok bs, t) =>
      match burstWrite b ((descW d i 2).toNat + dResume d i) (bytesWords bs (bs.length / 4)) t with
      | (some c, u) => dmaFault b e 5 c 0 u
      | (none, u) =>
        let u := u.updDm b e fun d => { setResume i (dResume d i + n) d with bytes := d.bytes + n }
        if dResume (dmaOf u b e) i ≥ dLen d i then dmaDone b e u else (dmaBoundary b e u).2

/-- DMA_BURST_DONE (R392). -/
def execDmaBurstDone (b : BId) (e : Fin 2) (s : State) : Host.Outcome State Fault Refusal :=
  ran s (burstDone b e.val s.begin)

/-- The engine waits for a buffer of its hand: an order may be issued, and none is to be had. -/
def handWaits (s : State) (b : BId) (e : Nat) : Bool :=
  let d := dmaOf s b e
  d.st == .running && isHws d d.cur && slotSt d d.cur == 2 && d.out.length < 8 && decide (d.nextOff < dLen d d.cur)
    && d.flt.isNone && (deckAlloc b (1 + e) false s).1.isNone

/-- DMA_HAND_TIMEOUT (R395): no hand buffer within 10 ms. -/
def handTimeout (b : BId) (e : Nat) (s : State) : State := if handWaits s b e then dmaFault b e 9 0 0 s else s

def execDmaHandTimeout (b : BId) (e : Fin 2) (s : State) : Host.Outcome State Fault Refusal :=
  ran s (handTimeout b e.val s.begin)

/-! ### DM_CMD (R396) -/

def dmResult (b : BId) (e cmd res : Nat) (req : ReqId) (s : State) : State :=
  s.updDm b e fun d => { d with lastCmd := cmd, cmdResult := res, cmdReq := req.val }

/-- An order of DM_CMD: writers, the refusal, and what it does where it is accepted. -/
def dmOrder (b : BId) (e : Nat) (req : ReqId) (cmd refuse : Nat) (act : State → State) (s : State) : State :=
  if !ownOrHce b req then s
  else if refuse != 0 then dmResult b e cmd refuse req s
  else act (dmResult b e cmd 0 req s)

/-- RESUME: the faulted slot goes on from its RESUME; a pending pre-emption runs first. -/
def dmResume (b : BId) (e : Nat) (s : State) : State :=
  let d := dmaOf s b e
  if d.pre.isSome then dmaNext b e (s.updDm b e fun d => { setSlot d.cur 3 0 0 0 d with susp := some d.cur })
  else dmaResumeSlot b e d.cur s

/-- SKIP: the faulted slot stays FAULT, and the engine takes what runs next. -/
def dmSkip (b : BId) (e : Nat) (s : State) : State :=
  dmaNext b e (s.updDm b e fun d =>
    { d with head := if !d.preRun && d.cur == d.head && d.head != d.tail then (d.head + 1) % 32 else d.head, preRun := false })

/-- FLUSH: QUEUED and SUSPENDED slots are FREE, with RESUME kept; the engine idles with an empty queue. -/
def dmFlush (b : BId) (e : Nat) (s : State) : State :=
  s.updDm b e fun d =>
    let d := (upto 32).foldl (fun d i => if slotSt d i == 1 || slotSt d i == 3 then setSlot i 0 0 0 0 d else d) d
    { d with st := .idle, pre := none, preRun := false, susp := none, head := d.tail, flt := none, haltDue := false }

/-- Slot i lies in the queue: from HEAD up to TAIL − 1 (R390). -/
def inQueue (d : Dma) (i : Nat) : Bool := (i + 32 - d.head) % 32 < (d.tail + 32 - d.head) % 32

/-- PREEMPT's refusal (R394). -/
def preemptRefuse (d : Dma) (i : Nat) : Nat :=
  if d.st != .idle && d.st != .running then 1
  else if d.pre.isSome || d.preRun then 1
  else if inQueue d i || slotSt d i != 1 then 2 else 0

/-- PREEMPT: at once on an idle engine, else at the running descriptor's burst boundary. -/
def dmPreempt (b : BId) (e i : Nat) (s : State) : State :=
  let s := s.updDm b e fun d => { d with pre := some i }
  let d := dmaOf s b e
  if d.st == .idle then dmaNext b e s
  else if isHws d d.cur && d.out.isEmpty then (dmaBoundary b e s).2 else s

def dmaResume (b : BId) (e : Nat) (req : ReqId) (s : State) : State :=
  dmOrder b e req 1 (if (dmaOf s b e).st == .halted then 0 else 1) (dmResume b e) s

def dmaSkip (b : BId) (e : Nat) (req : ReqId) (s : State) : State :=
  dmOrder b e req 2 (if (dmaOf s b e).st == .halted then 0 else 1) (dmSkip b e) s

def dmaFlush (b : BId) (e : Nat) (req : ReqId) (s : State) : State :=
  let st := (dmaOf s b e).st
  dmOrder b e req 3 (if st == .halted || st == .idle then 0 else 1) (dmFlush b e) s

def dmaPreempt (b : BId) (e : Nat) (req : ReqId) (i : Nat) (s : State) : State :=
  dmOrder b e req 4 (preemptRefuse (dmaOf s b e) i) (dmPreempt b e i) s

end Sys2Proof.Machine
end

