-- ==== Sys2Proof/Machine/Start.lean ====
section
/-! DEFINITION. Supplies, resets, straps, clocking, election, SLEEP and late joining (R109 to R138). -/
namespace Sys2Proof.Machine

/-! ### Reset (R112 to R120, R138) -/

/-- A berth right after main reset: flash, fuses, keys and the standby island keep what they hold, and so do the supply
monitors' levels. -/
def resetBerth (now : Nat) (x : Berth) : Berth :=
  { sy := { cause := x.sy.cause, rtcFrom := x.sy.rtcFrom }
    ch := { fuse := x.ch.fuse, keys := x.ch.keys, revoked := x.ch.revoked }
    log := { guard := x.log.guard }
    cl := { silenceFrom := now }
    tw := twReset x.tw
    us := { vbus := x.us.vbus }
    flash := x.flash }

/-- What a reset does to the flash operations in progress on the harbour and of a download (R168; DESIGN CHOICE, notes entry 12). -/
def flashCut (b : BId) (s : State) : State :=
  let u := usOf s b
  let s := logCollapse b s
  let s := match u.dfu.op with
    | some (.erase f off) => tornErase f off s
    | some (.program f off bs) => tornProgram f off bs s
    | none => s
  if u.dfu.st == .manifestSync && u.dfu.op.isNone then tornProgram (altFlash u.alt) (targetOff (u.alt % 11)) u.dfu.held s else s

/-- Every main block of every berth goes to main reset; the device keeps its supplies, its pins and its test port. -/
def mainBlocks (s : State) : State :=
  let s := iter allB flashCut s
  let s := s.updAll fun _ x => resetBerth s.now x
  { s with dev := { stby := s.dev.stby, pinLow := s.dev.pinLow, supplies := s.dev.supplies, tap := s.dev.tap, cells := s.dev.cells } }

/-- A main reset with its bit of SY_RST_CAUSE (R117). -/
def mainReset (bit : Nat) (s : State) : State :=
  iter [0, 4] (fun b t => updSy b (fun y => { y with cause := y.cause ||| 2 ^ bit }) t) (mainBlocks s)

/-- MAIN_SUPPLY_GOOD (R112): the hold starts on each berth. -/
def execMainSupplyGood (s : State) : Host.Outcome State Fault Refusal :=
  let s := s.begin
  ran s (if s.dev.stby then updDev (fun d => { d with supplies := true }) s else s)

/-- MAIN_RESET_RELEASE (R112, R70, R138): the berth leaves main reset; B0 and B4 start their tide generators from REF. -/
def resetRelease (b : BId) (s : State) : State :=
  if !(s.dev.supplies && !s.dev.pinLow && (syOf s b).inReset) then s
  else
    let s := updSy b (fun y => { y with inReset := false, step := 1 }) s
    if hasLoop b then tideStart b s else s

def execMainResetRelease (b : BId) (s : State) : Host.Outcome State Fault Refusal := ran s (resetRelease b s.begin)

/-- MAIN_SUPPLY_LOSS (R113). -/
def execMainSupplyLoss (s : State) : Host.Outcome State Fault Refusal :=
  let s := s.begin
  ran s (if s.dev.stby then mainReset 1 (updDev (fun d => { d with supplies := false }) s) else s)

/-- The standby island loses its state (R114). -/
def islandClear (cause : Nat) (s : State) : State :=
  let s := s.updAll fun _ x => { x with sy := { x.sy with cause := 0, rtcFrom := s.now }, tw := { x.tw with busMid := false } }
  iter [0, 4] (fun b t => updSy b (fun y => { y with cause := cause }) t) s

/-- VDD_STBY_LOSS (R114): below 0.80 V the whole device is unpowered. -/
def execVddStbyLoss (s : State) : Host.Outcome State Fault Refusal :=
  ran s (updDev (fun d => { d with stby := false, supplies := false }) (islandClear 0 (mainBlocks s.begin)))

/-- VDD_STBY_RESET (R114, R117): VDD_STBY rises; STBY_POR is set and every other cause bit is clear. -/
def execVddStbyReset (s : State) : Host.Outcome State Fault Refusal :=
  ran s (updDev (fun d => { d with stby := true }) (islandClear 1 (mainBlocks s.begin)))

/-- RESET_N_ASSERT (R118): a low that passes the filter resets the whole device and holds it. -/
def execResetNAssert (s : State) : Host.Outcome State Fault Refusal :=
  let s := s.begin
  ran s (if s.dev.stby then mainReset 2 (updDev (fun d => { d with pinLow := true }) s) else s)

/-- RESET_N_RELEASE (R118): the 1.0 ms hold starts. -/
def execResetNRelease (s : State) : Host.Outcome State Fault Refusal :=
  ran s (updDev (fun d => { d with pinLow := false }) s.begin)

/-- The test port takes an instruction (R120). Under EXTEST and CLAMP the boundary cells drive the balls; what they hold, which is
shifted in outside the table's commands, is a free value (notes entry 3). Leaving EXTEST, CLAMP or HIGHZ causes a main reset. -/
def tapLoad (i : TapInstr) (s : State) : State :=
  let old := s.dev.tap
  let leaves := (old == .extest || old == .clamp || old == .highz) && old != i
  let s := if leaves then mainReset 4 s else s
  let s := updDev (fun d => { d with tap := i, cells := if leaves then none else d.cells }) s
  if (i == .extest || i == .clamp) && s.dev.cells.isNone then
    updDev (fun d => { d with cells := some s.freeCtr }) s.draw.2
  else s

/-- TAP_INSTRUCTION_LOAD (R120). -/
def execTapInstructionLoad (i : TapInstr) (s : State) : Host.Outcome State Fault Refusal := ran s (tapLoad i s.begin)

/-- TAP_TEST_LOGIC_RESET (R120): IDCODE is selected, as IEEE 1149.1 has it. -/
def execTapTestLogicReset (s : State) : Host.Outcome State Fault Refusal := ran s (tapLoad .idcode s.begin)

/-! ### Straps, clocking and claims (R124 to R128) -/

/-- A candidate (R126). -/
def candidate (s : State) (b : BId) : Bool :=
  let y := syOf s b
  hasLoop b && !y.inReset && y.pll && y.straps.valid && !y.straps.unstable && !y.straps.inh && !nbit s.dev.excluded b.val

/-- Berth n trains under another claimant than b, from which it took its first clock. -/
def follows (s : State) (n b : BId) : Bool :=
  (syOf s n).st == .training && (syOf s n).clkSrc != b && (syOf s (syOf s n).clkSrc).claims

/-- Berth n takes its first clock from the claimant b and trains (R127, R128). -/
def trainUnder (b n : BId) (s : State) : State :=
  let o := clkOrder n b
  tideStart n (updSy n (fun y => { y with
    st := .training, step := 2, clkSrc := b, isSrc := false, claims := false, order := o, clkIn := o.headD .lowNbr
    clkLocked := true, holdover := false }) s)

/-- Berth b claims: it becomes clock source, and the 500 µs window runs. The berths of `reach` have a clock from it, and train under
it where none of another claimant reached them before. -/
def claim (b : BId) (reach : Nat) (s : State) : State :=
  let s := updDev (fun d => { d with window := true }) s
  let s := iter (allB.filter fun n => n != b && nbit reach n.val) (fun n t =>
    let y := syOf t n
    if y.inReset || !(y.st == .inert || y.st == .training) || y.claims || follows t n b then t else trainUnder b n t) s
  updSy b (fun y => { y with claims := true, isSrc := true }) (trainUnder b b s)

/-- A candidate B0 claims unless a window runs or an election has been held. -/
def claimB0 (reach : Nat) (s : State) : State :=
  if candidate s 0 && !(syOf s 0).claims && s.harbour.isNone then claim 0 reach s else s

/-- STRAP_SAMPLE_DONE (R124, R125). -/
def strapDone (b : BId) (addr boot : Nat) (inh unstable : Bool) (reach : Nat) (s : State) : State :=
  if !(hasLoop b) || (syOf s b).inReset || (syOf s b).straps.valid then s
  else
    let s := updSy b (fun y => { y with straps := ⟨addr, boot, inh, unstable, true⟩ }) s
    if b == 0 then claimB0 reach s else s

def execStrapSampleDone (b : BId) (addr : Fin 8) (boot : Fin 4) (inh unstable : Bool) (reach : BitVec 8) (s : State) :
    Host.Outcome State Fault Refusal := ran s (strapDone b addr.val boot.val inh unstable reach.toNat s.begin)

/-- PLL_LOCK (R126, R127, R130): B0 claims at once where it is a candidate, and so does B4 in a repeated election. -/
def pllLock (b : BId) (reach : Nat) (s : State) : State :=
  if !(hasLoop b) || (syOf s b).inReset then s
  else
    let s := updSy b (fun y => { y with pll := true, clkLocked := y.clkLocked || y.isSrc }) s
    if b == 0 then claimB0 reach s
    else if nbit s.dev.excluded 0 && s.harbour.isNone && candidate s 4 && !(syOf s 4).claims then claim 4 reach s
    else s

def execPllLock (b : BId) (reach : BitVec 8) (s : State) : Host.Outcome State Fault Refusal :=
  ran s (pllLock b reach.toNat s.begin)

/-- B4_CLAIM_WAIT_EXPIRY (R127): no valid clock input of B4 has carried a claim. -/
def b4Wait (reach : Nat) (s : State) : State :=
  let y := syOf s 4
  if candidate s 4 && y.st == .inert && !y.claims && s.harbour.isNone then claim 4 reach s else s

def execB4ClaimWaitExpiry (reach : BitVec 8) (s : State) : Host.Outcome State Fault Refusal := ran s (b4Wait reach.toNat s.begin)

/-- CLAIM_COLLISION (R127): the claim of B0 stands; B4 stops driving its clock, switches to the incoming one under R29 and trains
again as an ordinary berth; so do the berths that B4 clocked. -/
def collision (s : State) : State :=
  if !((syOf s 0).claims && (syOf s 4).claims) then s
  else
    let s := iter (allB.filter fun n => n != 4 && (syOf s n).st == .training && (syOf s n).clkSrc == 4) (trainUnder 0) s
    updSy 4 (fun y => { y with holdover := true, clkLocked := false, switchTo := some y.clkIn }) (trainUnder 0 4 s)

def execClaimCollision (s : State) : Host.Outcome State Fault Refusal := ran s (collision s.begin)

/-! ### The election (R128 to R132) -/

/-- The ports of berth b after training: those of the segments and chords that trained. `segs` bit n: the segment between
n and n + 1; `chords` bit n: the chord past berth n. -/
def trainPorts (segs chords : Nat) (b : BId) : Vector RingPort 4 :=
  let ok (p : Nat) : Bool := match p with
    | 0 => nbit segs ((b.val + 7) % 8)
    | 1 => nbit segs b.val
    | 2 => nbit chords ((b.val + 7) % 8)
    | _ => nbit chords ((b.val + 1) % 8)
  Vector.ofFn fun p => { trained := ok p.val }

/-- The claimant becomes harbour (R129): it drives its QSPI balls. TD_STAT.SYNCED reads 1 on it as the berth that the others align to,
though it aligns to no flit itself (DESIGN CHOICE, notes entry 75). -/
def elect (h : BId) (s : State) : State :=
  let s := s.updAll fun b x => if inRing s b then { x with sy := { x.sy with harbour := h, isHarbour := b == h } } else x
  let s := updTd h (fun t => { t with synced := true }) s
  let s := updSy h (fun y => { y with qspi := true }) s
  let s := updTw h (fun t => { t with active := true }) s
  usbFollow h (updUs h (fun u => { u with active := true }) s)

/-- TRAINING_WINDOW_END (R128, R129, R132): `present`: the berths that have reported; then the election and, with BOOT_MODE
NORMAL, chart loading. -/
def windowEnd (present segs chords : Nat) (s : State) : State :=
  match [0, 4].find? fun b => (syOf s b).claims with
  | none => s
  | some h =>
    if !s.dev.window then s
    else
      let here (b : BId) : Bool := (syOf s b).st == .training && (b == h || nbit present b.val)
      let mask := maskOf 8 fun n => here (bid n)
      let cands := maskOf 8 fun n => candidate s (bid n)
      let s := updDev (fun d => { d with
        window := false, present := mask, skip := 255 - mask, elections := min 15 (d.elections + 1), candidates := cands }) s
      let s := s.updAll fun b x =>
        if inRing s b then { x with
          rp := { x.rp with ports := trainPorts segs chords b }
          sy := { x.sy with st := .moored, step := 3, claims := false, silentMarks := 0 } }
        else if x.sy.st == .training then { x with sy := { x.sy with st := .inert, step := 1, clkLocked := false } }
        else x
      let s := elect h s
      if (syOf s h).straps.boot == 0 then chartLoad h s else s

def execTrainingWindowEnd (present segs chords : BitVec 8) (s : State) : Host.Outcome State Fault Refusal :=
  ran s (windowEnd present.toNat segs.toNat chords.toNat s.begin)

/-- Berth b returns to TRAINING and discards its chart (R101, R130); one that held the harbour role loses it, and its host ports go
inert. -/
def backToTraining (b : BId) (s : State) : State :=
  if !(serving s b || (syOf s b).st == .training) then s
  else
    let hbr := s.isHbr b
    let s := if hbr then (portsInert b s).updTray b fun _ => {} else s
    let s := updDev (fun d => { d with present := d.present &&& (255 - 2 ^ b.val) }) s
    s.upd b fun x => { x with
      sy := { x.sy with st := .training, step := 2, fail := 0, isHarbour := false, silentMarks := 0, joining := false, claims := false
                        lostRole := x.sy.lostRole || hbr }
      td := { x.td with synced := false, held := false, load := none }
      ch := chartDiscard x.ch }

/-- ELECTION_REPEAT (R130): before lock berth b judges the harbour lost, by 4 silent marks or, `noClock`, by 20 µs without a
valid clock input; it returns to TRAINING, and the former harbour is excluded. A candidate B4 claims at once, and every other berth
returns on its claim; without one each returns at its own judgement. -/
def electionRepeat (b : BId) (noClock : Bool) (s : State) : State :=
  let y := syOf s b
  let h := y.harbour
  if trayLocked s || y.st != .moored || b == h && !noClock || !(noClock || y.silentMarks ≥ 4) then s
  else
    let s := updDev (fun d => { d with excluded := d.excluded ||| 2 ^ h.val }) (backToTraining b s)
    if candidate s 4 then claim 4 0xFF (updDev (fun d => { d with skip := 0 }) (iter allB backToTraining s)) else s

def execElectionRepeat (b : BId) (noClock : Bool) (s : State) : Host.Outcome State Fault Refusal :=
  ran s (electionRepeat b noClock s.begin)

/-- LATE_BERTH_JOIN (R128, R131, R461): a berth gets a valid clock. While the training window runs it takes part in that; after it, an
absent or un-retired berth trains alone. -/
def lateJoin (b : BId) (segs chords : Nat) (s : State) : State :=
  match s.harbour, [0, 4].find? fun c => (syOf s c).claims with
  | none, some c =>
    if s.dev.window && !(syOf s b).inReset && (syOf s b).st == .inert then trainUnder c b s else s
  | none, none => s
  | some h, _ =>
    let y := syOf s b
    if y.inReset || y.st != .inert || s.dev.window || nbit (s.at h).tray.hl.retired b.val && !y.joining then s
    else
      let src := (syOf s h).clkSrc
      let o := clkOrder b src
      let s := updRp b (fun y => { y with ports := trainPorts segs chords b }) s
      let s := updSy b (fun y => { y with
        st := .training, step := 2, joining := true, clkSrc := src, order := o, clkIn := o.headD .lowNbr, clkLocked := true
        holdover := false }) s
      let open' (p : Nat) (t : State) : State :=
        updPort (portPeer b p) (portBack p) (fun q => if q.retired then q else { q with trained := (portOf t b p).trained }) t
      tideStart b (iter (upto 4) open' s)

def execLateBerthJoin (b : BId) (segs chords : BitVec 8) (s : State) : Host.Outcome State Fault Refusal :=
  ran s (lateJoin b segs.toNat chords.toNat s.begin)

/-! ### SY_RST_CMD (R115, R119) -/

/-- The result of an order to SY_RST_CMD: the first test that fails. The spec gives these tests no order; the model asks for the
requester, the guard and the state, as R104 does for CH_CMD (DESIGN CHOICE, notes entry 76). -/
def rstResult (s : State) (cmd guard : Nat) (req : ReqId) : Nat :=
  let h := s.harbour.getD 0
  let ch := chOf s h
  let driven := allB.any fun b => (s.at b).rl.rails.toList.any (·.en)
  let usb := (usOf s h).dev == .configured && !(usOf s h).susp
  if !(req == 9 || req == 10) then 4
  else if guard != 0x5E7A then 2
  else if cmd == 2 && (!(ch.locked || ch.state == .failed) || driven || usb) then 1
  else 0

/-- A write to SY_RST_CMD: no effect while BUSY. -/
def rstOrder (cmd : Nat) (req : ReqId) (guard : Nat) (act : State → State) (s : State) : State :=
  if s.harbour.isNone || s.dev.rstBusy then s
  else
    let r := rstResult s cmd guard req
    let s := updDev (fun d => { d with rstCmd := cmd, rstReq := req.val, rstResult := r }) s
    if r == 0 then act s else s

/-- CONTROLLER_RESET (R119): every ACTIVE berth shuts its slot down. -/
def controllerReset (req : ReqId) (guard : Nat) (s : State) : State :=
  rstOrder 1 req guard (fun s =>
    iter allB (fun b t => if (syOf t b).st == .active then shutdown b false 0x12 15 t else t)
      (updDev (fun d => { d with rstBusy := true }) s)) s

/-- CONTROLLER_RESET_FIRE (R119): every slot has completed its shutdown, or 500 ms have passed. -/
def execControllerResetFire (s : State) : Host.Outcome State Fault Refusal :=
  let s := s.begin
  ran s (if s.dev.rstBusy then mainReset 3 s else s)

/-- SLEEP (R115): the silence timers stand still (R225), tests and calibrations wait (R267). -/
def sleepOrder (req : ReqId) (guard : Nat) (s : State) : State :=
  rstOrder 2 req guard (fun s =>
    let t := (updDev (fun d => { d with sleep := true }) s).updAll fun _ x => { x with cl := { x.cl with
      silenceHeld := some (s.now - x.cl.silenceFrom) } }
    iter allB arSleep t) s

end Sys2Proof.Machine
end

