-- ==== Sys2Proof/Machine/Unretire.lean ====
section
/-! DEFINITION. Un-retire orders (R459–R461). The order acts on its target at once; its acknowledgement, or the want of one, ends
it (DESIGN CHOICE, notes entry 22). -/
namespace Sys2Proof.Machine

def hlOf (s : State) (h : BId) : TrayHl := (s.at h).tray.hl
def updHl (h : BId) (f : TrayHl → TrayHl) (s : State) : State := s.updTray h fun t => { t with hl := f t.hl }

/-- The number of INDEX values of a kind (R458); none for a reserved kind. -/
def kindCount (kind : Nat) : Option Nat :=
  match kind with
  | 1 => some 4
  | 2 | 3 | 4 | 11 | 12 => some 1
  | 5 | 7 | 10 => some 2
  | 6 => some 3
  | 8 => some 1280
  | 9 => some 8
  | 13 => some 1024
  | _ => none

/-- Whether a unit of berth n is retired (R458). -/
def unitRetired (s : State) (h n : BId) (kind index : Nat) : Bool :=
  let x := s.at n
  match kind with
  | 1 => (portOf s n index).retired
  | 2 => x.td.loop == .inputRetired
  | 3 => nbit (hlOf s h).retired n.val
  | 4 => x.rl.slot == .retired
  | 5 => (vget x.pw.avs index).retired
  | 6 => (vget x.cl.ch index).st == .retired
  | 7 => (vget x.cl.rope index).st == .retired
  | 8 => (vget x.ar.arr (index / 160)).ret.getLsbD (index % 160)
  | 9 => (vget x.ar.arr index).st == .retired
  | 10 => (dmaOf s n index).st == .retired
  | 11 => x.tw.ctrlRetired
  | 12 => x.pl.st == .halted
  | 13 => x.svc.runtimeOff.getLsbD index && !x.svc.reenable.getLsbD index
  | _ => false

/-- The refusal of an un-retire order (R459), the tests in their order; 0 where it is accepted. -/
def unretRefuse (s : State) (h n : BId) (kind index : Nat) (req : ReqId) (guard : Nat) : Nat :=
  let arg := match kindCount kind with
    | some c => decide (index ≥ c) || !nbit (s.at h).populated n.val || ((kind == 2 || kind == 11) && !capable n)
    | none => true
  if req != 9 && req != 10 then 4
  else if guard != 0x6B3D then 2
  else if arg then 3
  else if !(s.at h).ch.locked || (kind != 3 && !(n == h || reachable s n))
      || (kind == 8 && (vget (s.at n).ar.arr (index / 160)).st == .retired) then 1
  else if !unitRetired s h n kind index then 8 else 0

/-- The HL_UNRETIRE record (R472). -/
def logUnret (h : BId) (result : Nat) (s : State) : State :=
  let t := hlOf s h
  logRec h 0x69 (unitWord t.kind t.berth t.index) (pack [(t.req, 0, 4), (result, 8, 8)]) 0 s

/-- An accepted order ends: its result, HL_UNRETIRES where it is OK, and its record. -/
def unretEnd (h : BId) (result : Nat) (s : State) : State :=
  let s := updHl h (fun t => { t with
    busy := false, result := result, unretires := if result == 0 then sinc t.unretires else t.unretires }) s
  logUnret h result s

/-! ### What each kind returns as (R460) -/

/-- RING_PORT: the port and its partner train; they carry traffic once they have. -/
def unretPort (n : BId) (p : Nat) (s : State) : State :=
  let s := updPort n p (fun q => { q with retired := false, hist := [], trained := false, ready := false, training := true }) s
  updPort (portPeer n p) (portBack p) (fun q => { q with trained := false, ready := false }) s

/-- TIDE_IN: the loop is FREE. -/
def unretTideIn (n : BId) (s : State) : State := updTd n (fun t => { loopDrop (s.isHbr n) .free t with inHist := [] }) s

/-- BERTH: its blocks go to their main-reset state, and it waits to train and to be admitted (R461). B0 and B4 have REF at once, from
which their tide generators start (R70). -/
def unretBerth (n : BId) (s : State) : State :=
  let s := flashCut n s
  let s := s.upd n fun x =>
    let y := resetBerth s.now x
    { y with sy := { y.sy with inReset := false, step := 1, joining := true, lostRole := x.sy.lostRole } }
  if hasLoop n then tideStart n s else s

/-- SLOT: DOWN, its hawser OFF. -/
def unretSlot (n : BId) (s : State) : State :=
  let s := s.updRl n fun r => { r with restartHist := [], stuck := false, retireAtEnd := false }
  let s := s.updHw n fun w => { w with hist := [] }
  slotDown n (if (s.at n).hw.link == .retired then setLink n .off 0 s else s)

/-- AVSBUS: the controller writes the current target of each of its rails. -/
def unretAvs (n : BId) (c : Nat) (s : State) : State :=
  let s := updAvs n c (fun a => { a with retired := false, hist := [] }) s
  iter (partsOn (s.at n) n.val c) (fun k t =>
    let t := t.updPart n k fun p => { p with sPin := 31 }
    let t := if (vget (t.at n).rl.rails k).st == .up then writeTarget n k (partOf t n k).target none t else t
    capsChanged n k t) s

/-- COOL: the channel passes to KICK. -/
def unretCool (n : BId) (c : Nat) (s : State) : State :=
  irq n 10 (kickStart n c (updCool n c (fun k => { k with stallHist := [], encHist := [] }) s))

/-- ROPE: PENDING; a latch stays. -/
def unretRope (n : BId) (r : Nat) (s : State) : State :=
  irq n 9 (ropeTell n r (updRope n r (fun p => { p with
    st := .pending, hist := [], wetRun := 0, openRun := 0, dryRun := 0, wetDone := false, openDone := false }) s))

/-- COLUMN: column `i % 160` of array `i / 160` is no longer retired, where the array is BUSY once its order completes (R267). -/
def unretColumn (n : BId) (i : Nat) (s : State) : State :=
  updArr n (i / 160) (fun a => if a.st == .busy then { a with unret := a.unret ++ [i % 160] } else unretCol (i % 160) a) s

/-- ARRAY: UNVERIFIED, with the pair map of R241 and no retired column. -/
def unretArray (n : BId) (k : Nat) (s : State) : State :=
  updArr n k (fun a => { a with st := .unverified, map := resetMap a.calMode, ret := 0, retPend := [], gone := false, unret := [], colHist := [], hist := [] }) s

/-- DMA: IDLE with its queue flushed. -/
def unretDma (n : BId) (e : Nat) (s : State) : State := (dmFlush n e s).updDm n e fun d => { d with hist := [] }

/-- TWI_CTRL: the controller role returns. -/
def unretTwi (n : BId) (s : State) : State := updTw n (fun t => { t with ctrlRetired := false, edgeRun := 0, arbHist := [] }) s

/-- PILOT: its window clears, and a restart stream runs. -/
def unretPilot (n : BId) (s : State) : State :=
  s.updPl n fun p => { p with st := .loading, hist := [], failedStreams := 0, stream := true, retry := false, startDue := false }

/-- CORE: the next CORES stage enables it again. -/
def unretCore (n : BId) (c : Nat) (s : State) : State :=
  s.updSvc n fun v => { v with reenable := v.reenable ||| (1#1024 <<< c), coreHist := v.coreHist.filter fun x => x.1 != c }

/-- What an accepted order does at its target (R460). -/
def unretAct (n : BId) (kind index : Nat) (s : State) : State :=
  match kind with
  | 1 => unretPort n index s
  | 2 => unretTideIn n s
  | 3 => unretBerth n s
  | 4 => unretSlot n s
  | 5 => unretAvs n index s
  | 6 => unretCool n index s
  | 7 => unretRope n index s
  | 8 => unretColumn n index s
  | 9 => unretArray n index s
  | 10 => unretDma n index s
  | 11 => unretTwi n s
  | 12 => unretPilot n s
  | _ => unretCore n index s

/-- A write to HL_UNRET_CMD (R459): refused, or taken and sent to its target. -/
def unretire (kind : Nat) (req : ReqId) (n : BId) (guard : Nat) (s : State) : State :=
  match s.harbour with
  | none => s
  | some h =>
    if (hlOf s h).busy then s
    else
      let index := vget (hlOf s h).arg req.val % 65536
      let r := unretRefuse s h n kind index req guard
      let s := updHl h (fun t => { t with
        kind := kind, berth := n.val, index := index, result := r, req := req.val, busy := r == 0 }) s
      if r == 0 then unretAct n kind index s
      else if r == 4 || r == 2 then s else logUnret h r s

/-- The unit's bit leaves HL_RET of its berth. -/
def clearRet (h : BId) (s : State) : State :=
  updHl h (fun t => { t with ret := match retBit t.kind t.index with
    | some i => vmod t.ret t.berth fun w => w &&& ~~~(1#32 <<< i)
    | none => t.ret }) s

/-- UNRETIRE_ACK (R459): the target's acknowledgement of an order other than a BERTH's. -/
def unretAck (h : BId) (s : State) : State :=
  if s.isHbr h && (hlOf s h).busy && (hlOf s h).kind != 3 then unretEnd h 0 (clearRet h s) else s

def execUnretireAck (h : BId) (s : State) : Host.Outcome State Fault Refusal := ran s (unretAck h s.begin)

/-- UNRETIRE_ACK_TIMEOUT (R459). -/
def unretAckTimeout (h : BId) (s : State) : State :=
  if s.isHbr h && (hlOf s h).busy && (hlOf s h).kind != 3 then unretEnd h 1 s else s

def execUnretireAckTimeout (h : BId) (s : State) : Host.Outcome State Fault Refusal := ran s (unretAckTimeout h s.begin)

/-- BERTH_ADMIT_TIMEOUT (R461): the berth stays retired. -/
def admitTimeout (h : BId) (s : State) : State :=
  if s.isHbr h && (hlOf s h).busy && (hlOf s h).kind == 3 then
    unretEnd h 1 (updSy (bid (hlOf s h).berth) (fun y => { y with st := .retired, joining := false }) s)
  else s

def execBerthAdmitTimeout (h : BId) (s : State) : Host.Outcome State Fault Refusal := ran s (admitTimeout h s.begin)

/-- A joining berth is admitted at the harbour's mark boundary (R131, R461): MOORED, with the chart still to come. -/
def admitBerth (h n : BId) (s : State) : State :=
  if !((syOf s n).joining && (syOf s n).st == .training) then s
  else
    let s := updSy n (fun y => { y with st := .moored, step := 3, joining := false, harbour := h, isHarbour := false }) s
    let s := updDev (fun d => { d with present := d.present ||| 2 ^ n.val }) s
    let back := nbit (hlOf s h).retired n.val
    let s := if back then updHl h (fun t => { t with
        retired := t.retired &&& (255 - 2 ^ n.val), ret := vset t.ret n.val 0 }) s else s
    let s := if back && (hlOf s h).busy && (hlOf s h).kind == 3 && (hlOf s h).berth == n.val then unretEnd h 0 s else s
    redistribute h n s

end Sys2Proof.Machine
end

