-- ==== Sys2Proof/Machine/RegWrite.lean ====
section
/-! DEFINITION. Writes of registers, field by field under their access codes (R10–R13), with the writers each chapter
names; a register whose write is an order of its own runs that order. -/
namespace Sys2Proof.Machine

/-! ### Fields -/

/-- A field [hi:lo] of a register and the values it takes; others are reserved (R13). -/
structure Fld where
  hi : Nat
  lo : Nat
  ok : Nat → Bool

/-- A field that takes every value, and one that takes the values from a to z. -/
def anyFld (hi lo : Nat) : Fld := ⟨hi, lo, fun _ => true⟩
def rangeFld (hi lo a z : Nat) : Fld := ⟨hi, lo, fun v => a ≤ v && v ≤ z⟩

/-- A rail index 0–12, or 0xF for none (R78, R79). -/
def railFld (hi lo : Nat) : Fld := ⟨hi, lo, fun v => v ≤ 12 || v == 15⟩

/-- The register after a write of `w`: each field takes its value unless that is reserved; the other bits stay (R12, R13). -/
def setFlds (fs : List Fld) (old w : Word) : Word :=
  fs.foldl (fun acc f => if f.ok (fld w f.hi f.lo) then mergeFld acc w f.hi f.lo else acc) old

/-- An RWL register is writable until its berth has locked the chart (R10, R11). -/
def open' (s : State) (b : BId) : Bool := !(s.at b).log.on

/-- The requester is a host path. -/
def isHost (req : ReqId) : Bool := req == 9 || req == 10

/-! ### Snapshots (R44, R45) -/

/-- The berths that a snapshot order reaches: berth b's own, or those that are ACTIVE or MOORED. -/
def snapBerths (s : State) (b : BId) (tray : Bool) : List BId := if tray then allB.filter (reachable s) else [b]

/-- A write to SY_SNAP of berth b's window, or of the tray-wide space that b answers (R44, R45): TAKE arms, RELEASE releases;
both together have no effect. -/
def snapWrite (b : BId) (tray take release : Bool) (s : State) : State :=
  if take == release then s
  else if take then
    let at' := if tray then some (markCount (tdOf s b) + 1) else none
    iter (snapBerths s b tray) (fun n t => updSnap n (fun y => { y with
      snapPend := true, snapExpired := false, snapAt := at', snapTray := if n == b then tray else y.snapTray
      snapBerths := if n == b then 0 else y.snapBerths }) t) s
  else
    iter (if tray then allB else [b]) (fun n t => updSnap n (fun y => { y with snapFrozen := false, frozen := [] }) t) s

/-! ### The blocks -/

def writeSy (b : BId) (tray : Bool) (req : ReqId) (off : Nat) (w : Word) (s : State) : State :=
  match off with
  | 0x020 => snapWrite b tray (bitAt w 0) (bitAt w 1) s
  | 0x080 => if capable b then updSnap b (fun y => { y with cause := y.cause &&& (31 - fld w 4 0) }) s else s
  | 0x090 => match fld w 3 0 with
    | 1 => controllerReset req (fld w 31 16) s
    | 2 => sleepOrder req (fld w 31 16) s
    | _ => s
  | _ => s

def writeTd (b : BId) (off : Nat) (w : Word) (s : State) : State :=
  if !open' s b then s
  else
    let t := tdOf s b
    let put (f : Td) : State := updTd b (fun _ => f) s
    match off with
    | 0x000 => put { t with ctrl := setFlds [anyFld 0 0, anyFld 1 1, rangeFld 3 2 0 2] t.ctrl w }
    | 0x020 => put { t with filt := setFlds [anyFld 7 0, rangeFld 11 8 2 15, rangeFld 15 12 1 15, rangeFld 23 16 1 255] t.filt w }
    | 0x024 => put { t with slew := setFlds [rangeFld 6 0 1 64, rangeFld 31 16 1 65535] t.slew w }
    | 0x028 => put { t with ofs := setFlds [anyFld 15 0] t.ofs w }
    | 0x02C => put { t with ditherCfg := setFlds [anyFld 5 0, anyFld 31 16] t.ditherCfg w }
    | 0x034 => put { t with stepWin := setFlds [anyFld 7 0, rangeFld 14 8 1 64] t.stepWin w }
    | _ => s

def writeCh (b : BId) (tray : Bool) (req : ReqId) (off : Nat) (w : Word) (s : State) : State :=
  if !tray then s
  else if off == 0x078 then
    (if 1 ≤ fld w 3 0 && fld w 3 0 ≤ 5 then chCmd (fld w 3 0) req (fld w 7 4) (fld w 31 16) s else s)
  else match regIx off 0x080 4 12 with
    | some k => updCh b (fun c => { c with keyData := vset c.keyData k w }) s
    | none => s

def writeDk (b : BId) (req : ReqId) (off : Nat) (w : Word) (s : State) : State :=
  match off with
  | 0x008 => freeWrite b req (fld w 11 0) s
  | 0x090 => s.updDk b fun d => { d with ownSel := vset d.ownSel req.val (fld w 11 0) }
  | _ => match regIx off 0x020 4 8 with
    | some c => if open' s b then s.updDk b fun d => { d with hand := vset d.hand c w } else s
    | none => s

/-- A write to HW_ORD (R331): opcodes other than READ, WRITE, FREQ and CTRL are reserved, as is a LEN above 256. -/
def ordWrite (b : BId) (req : ReqId) (w : Word) (s : State) : State :=
  let len := fld w 16 8
  match fld w 7 0 with
  | 1 => mailboxOrder b req .read len s
  | 2 => mailboxOrder b req .write len s
  | 3 => mailboxOrder b req .freq len s
  | 4 => mailboxOrder b req .ctrl len s
  | _ => ordResult b req none (if linkOpen (hwOf s b) then 3 else 2) s

def writeSvc (b : BId) (req : ReqId) (off : Nat) (w : Word) (s : State) : State :=
  match off with
  | 0x200 => match fld w 3 0 with
    | 1 => bringUp b req s
    | 2 => serviceReset b req (fld w 5 4) (fld w 17 8) (bitAt w 6) s
    | 3 => svcAbort b req s
    | _ => s
  | 0x218 => if ownOrHce b req then
      s.updSvc b fun v => { v with lim := setFlds [rangeFld 7 0 1 255, rangeFld 31 16 1 65535] v.lim w } else s
  | 0x21C => if ownOrHce b req then
      s.updSvc b fun v => { v with dispCfg := setFlds [rangeFld 7 0 1 255, rangeFld 15 8 5 100, rangeFld 19 16 1 15, rangeFld 27 20 1 255] v.dispCfg w } else s
  | _ => s

def writeHw (b : BId) (req : ReqId) (off : Nat) (w : Word) (s : State) : State :=
  let mbox (f : Mailbox → Mailbox) : State := s.updHw b fun h => { h with mbox := vmod h.mbox req.val f }
  match off with
  | 0x000 => if open' s b then s.updHw b fun h => { h with cfg := setFlds [anyFld 0 0, anyFld 1 1, anyFld 2 2, anyFld 4 3, rangeFld 14 8 1 64, rangeFld 17 16 1 3] h.cfg w } else s
  | 0x004 => if open' s b then s.updHw b fun h => { h with tmo := setFlds [rangeFld 15 0 1 65535, rangeFld 31 16 1 65535] h.tmo w } else s
  | 0x008 => match fld w 1 0 with
    | 1 => hwStart b req s
    | 2 => hwStop b req s
    | 3 => hwRetrainCmd b req s
    | _ => s
  | 0x020 => mbox fun m => { m with addrLo := w }
  | 0x024 => mbox fun m => { m with addrHi := pack [(fld w 7 0, 0, 8)] }
  | 0x028 => mbox fun m => { m with buf := pack [(fld w 8 0, 0, 9)] }
  | 0x044 => ordWrite b req w s
  | _ => match regIx off 0x030 4 5 with
    | some i => mbox fun m => { m with arg := vset m.arg i w }
    | none => writeSvc b req off w s

def writeRl (b : BId) (req : ReqId) (off : Nat) (w : Word) (s : State) : State :=
  match off with
  | 0x000 => match fld w 1 0 with
    | 1 => powerUp b req s
    | 2 => slotShutdown b req s
    | _ => s
  | _ =>
    match regIx off 0x080 4 24 with
    | some i => thresholdWrite b req i w s
    | none =>
      if !open' s b then s
      else match regIx off 0x0E0 4 24, regIx off 0x140 4 24, regIx off 0x200 8 13, regIx off 0x204 8 13 with
        | some i, _, _, _ => s.updRl b fun r => { r with hard := vmod r.hard i fun o => setFlds [anyFld 11 0, anyFld 27 16] o w }
        | _, some i, _, _ => s.updRl b fun r => { r with incfg := vmod r.incfg i fun o => setFlds [anyFld 11 0, railFld 19 16] o w }
        | _, _, some i, _ => s.updRl b fun r => { r with graph0 := vmod r.graph0 i fun o => setFlds [anyFld 7 0, railFld 11 8, railFld 15 12, anyFld 31 16] o w }
        | _, _, _, some i => s.updRl b fun r => { r with graph1 := vmod r.graph1 i fun o => setFlds [anyFld 15 0, anyFld 19 16, anyFld 31 24] o w }
        | _, _, _, _ => s

/-- Writes of the tray-wide part of PW_, which the harbour h answers. -/
def writePwTray (h : BId) (req : ReqId) (off : Nat) (w : Word) (s : State) : State :=
  match off with
  | 0x000 => budgetWrite req (fld w 15 0) s
  | 0x010 => if isHost req || req.val == h.val then s.updTray h fun t => { t with pw := { t.pw with trayStep := fld w 15 0 } } else s
  | _ => match regIx off 0x040 4 8 with
    | some n => if req.val == h.val || req == 11 then grantReqSet n (fld w 15 0) s else s
    | none => s

/-- Writes of the berth-local part of PW_: the berth's own pilot and the harbour command engine. -/
def writePw (b : BId) (req : ReqId) (off : Nat) (w : Word) (s : State) : State :=
  let put (f : Pw → Pw) : State := s.updPw b f
  if !ownOrHce b req then s
  else match off with
    | 0x100 => let t := if bitAt w 1 then admitCancel b req s else s
      if bitAt w 0 then admitReq b req t else t
    | 0x150 => put fun p => { p with trim := setFlds [anyFld 0 0, rangeFld 14 8 0 100] p.trim w }
    | 0x154 => put fun p => { p with track := setFlds [anyFld 7 0, anyFld 15 8, anyFld 19 16] p.track w }
    | 0x1C0 => put fun p => { p with therm := setFlds [rangeFld 7 0 1 255, anyFld 19 8] p.therm w }
    | 0x1C4 => put fun p => { p with og := setFlds [rangeFld 7 0 1 255] p.og w }
    | 0x1C8 => iter (upto 4) (fun k t => retarget b k t) (put fun p => { p with stepLim := setFlds [rangeFld 4 0 1 31] p.stepLim w })
    | _ => match regIx off 0x110 4 4, regIx off 0x160 4 13, regIx off 0x1A0 4 7 with
      | some k, _, _ => opReqSet b k (some (fld w 4 0)) (if fld w 13 8 ≤ 40 then some (fld w 13 8) else none) s
      | _, some r, _ => put fun p => { p with vfs := vmod p.vfs r fun o => setFlds [rangeFld 15 0 1 65535] o w }
      | _, _, some j => put fun p => { p with iscale := vmod p.iscale j fun o => setFlds [anyFld 15 0] o w }
      | _, _, _ => s

def writeCl (b : BId) (req : ReqId) (off : Nat) (w : Word) (s : State) : State :=
  if off ≥ 0xC0 then s
  else
    let c := off / 0x40
    match off % 0x40 with
    | 0x000 => if open' s b then updCool b c (fun k => { k with cfg0 := setFlds [rangeFld 1 0 0 2, anyFld 2 2, rangeFld 15 8 0 8, anyFld 31 16] k.cfg0 w }) s else s
    | 0x004 => if open' s b then updCool b c (fun k => { k with cfg1 := setFlds [anyFld 7 0, rangeFld 15 8 0 31, anyFld 31 16] k.cfg1 w }) s else s
    | 0x008 => if open' s b then updCool b c (fun k => { k with dmin := setFlds [rangeFld 7 0 0 100] k.dmin w }) s else s
    | 0x00C => dutyWrite b c req w s
    | _ => s

def writeLk (b : BId) (req : ReqId) (off : Nat) (w : Word) (s : State) : State :=
  if off == 0x010 then lkClear b req w s
  else if !open' s b then s
  else match off with
    | 0x000 => updRope b 0 (fun p => { p with cfg := setFlds [anyFld 11 0, anyFld 27 16, anyFld 31 28] p.cfg w }) s
    | 0x004 => updRope b 1 (fun p => { p with cfg := setFlds [anyFld 11 0, anyFld 27 16, anyFld 31 28] p.cfg w }) s
    | 0x008 => s.updCl b fun c => { c with valve := setFlds [anyFld 0 0, anyFld 1 1, anyFld 15 8] c.valve w }
    | _ => s

def writeAr (b : BId) (req : ReqId) (off : Nat) (w : Word) (s : State) : State :=
  match off with
  | 0x000 => if open' s b then updAr b (fun e => { e with group := setFlds [anyFld 27 0] e.group w }) s else s
  | 0x020 => match fld w 3 0 with
    | 0 => s
    | 6 => afterArray b (arAbort b req (fld w 6 4) s)
    | c => if c ≤ 5 then afterArray b (arOrder b req c (fld w 6 4) (fld w 15 8) s) else s
  | 0x024 => updAr b (fun e => { e with src := w }) s
  | 0x028 => updAr b (fun e => { e with dst := w }) s
  | 0x040 => updAr b (fun e => { e with mapSel := vmod e.mapSel req.val fun o => setFlds [anyFld 2 0, anyFld 13 8] o w }) s
  | _ => match regIx off 0x010 4 4 with
    | some g => if open' s b then updAr b (fun e => { e with gcfg := vmod e.gcfg g fun o => setFlds [anyFld 23 0] o w }) s else s
    | none => s

def writePg (b : BId) (req : ReqId) (off : Nat) (w : Word) (s : State) : State :=
  match off with
  | 0x000 => match fld w 3 0 with
    | 1 => unload b req (fld w 4 4) (fld w 31 16) s
    | 2 => promote b req (fld w 31 16) s
    | 3 => pgOrder b req 3 true 0 clearStats s
    | 4 => replaceOrder b req (fld w 4 4) s
    | _ => s
  | 0x024 => if isHost req then updPg b (fun p => { p with crit := setFlds [rangeFld 10 0 0 1024, anyFld 31 16] p.crit w }) s else s
  | 0x028 => if isHost req then updPg b (fun p => { p with tol := setFlds [anyFld 29 0] p.tol w }) s else s
  | 0x030 => updPg b (fun p => { p with outSel := vmod p.outSel req.val fun o => setFlds [anyFld 0 0, anyFld 15 8] o w }) s
  | _ => s

def writePl (b : BId) (req : ReqId) (off : Nat) (w : Word) (s : State) : State :=
  let own := req.val == b.val
  match off with
  | 0x004 => if fld w 1 0 == 1 then restartOrder b req (fld w 31 16) s else s
  | 0x008 => if own && 1 ≤ fld w 15 0 && fld w 15 0 ≤ 60000 then s.updPl b fun p => { p with wdog := fld w 15 0, kickAt := s.now } else s
  | 0x00C => watchdogKick b req (fld w 15 0) s
  | 0x028 => if own then s.updPl b fun p => { p with mtimecmp := p.mtimecmp / 2 ^ 32 * 2 ^ 32 + w.toNat } else s
  | 0x02C => if own then s.updPl b fun p => { p with mtimecmp := p.mtimecmp % 2 ^ 32 + w.toNat * 2 ^ 32 } else s
  | 0x030 => msipWrite b req (bitAt w 0) s
  | 0x040 => s.updPl b fun p => { p with irqPend := p.irqPend &&& ~~~w }
  | 0x044 => if own then s.updPl b fun p => { p with irqEn := pack [(fld w 15 0, 0, 16)] } else s
  | 0x100 => if fld w 3 0 == 1 then loadOrder b req (fld w 5 4) (bitAt w 6) (fld w 31 16) s else s
  | _ => s

/-- A write of a descriptor word (R389): while the slot is FREE, DONE or FAULT; a reserved STATE leaves STATE as it is. -/
def descWrite (b : BId) (e i k : Nat) (req : ReqId) (w : Word) (s : State) : State :=
  let st := slotSt (dmaOf s b e) i
  if !ownOrHce b req || !(st == 0 || st == 4 || st == 5) then s
  else s.updDm b e fun d => setDescW i k (if k == 7 && fld w 2 0 > 5 then mergeFld w (descW d i 7) 2 0 else w) d

def writeDm (b : BId) (req : ReqId) (off : Nat) (w : Word) (s : State) : State :=
  if off < 0x80 then
    let e := off / 0x40
    match off % 0x40 with
    | 0x04 => match fld w 2 0 with
      | 1 => dmaResume b e req s
      | 2 => dmaSkip b e req s
      | 3 => dmaFlush b e req s
      | 4 => dmaPreempt b e req (fld w 12 8) s
      | _ => s
    | 0x0C => tailWrite b e req (fld w 4 0) s
    | _ => s
  else match regIx off 0x400 4 512 with
    | some i => descWrite b (i / 256) (i % 256 / 8) (i % 8) req w s
    | none => s

def writeTw (b : BId) (req : ReqId) (off : Nat) (w : Word) (s : State) : State :=
  match off with
  | 0x000 => if open' s b && req == 9 then updTw b (fun t => { t with cfg := setFlds [anyFld 0 0, rangeFld 2 1 0 2, anyFld 10 3, anyFld 23 16] t.cfg w }) s else s
  | 0x008 => if isHost req then updTw b (fun t => { t with attn := t.attn - (t.attn &&& fld w 10 0) }) s else s
  | 0x00C => if isHost req then updTw b (fun t => { t with attnEn := fld w 10 0 }) s else s
  | 0x010 => if s.isHbr b then twAttnSet req (bitAt w 0) s else s
  | _ => s

def writeUs (b : BId) (req : ReqId) (off : Nat) (w : Word) (s : State) : State :=
  match off with
  | 0x000 => if open' s b && isHost req then usbFollow b (updUs b (fun u => { u with cfg := setFlds [anyFld 3 0] u.cfg w }) s) else s
  | 0x018 => if isHost req || (s.isHbr b && req.val == b.val) then updUs b (fun u => { u with dfuPoll := setFlds [rangeFld 15 0 1 65535, rangeFld 31 16 1 65535] u.dfuPoll w }) s else s
  | 0x020 => updUs b (fun u => { u with telCfg := fld w 4 0 }) s
  | 0x024 => if s.isHbr b then telPush req w s else s
  | _ => s

def writeHlTray (h : BId) (req : ReqId) (off : Nat) (w : Word) (s : State) : State :=
  match off with
  | 0x000 => if isHost req || req.val == h.val then
      updHl h (fun t => { t with cfg := setFlds [rangeFld 15 0 1 65535, anyFld 16 16] t.cfg w }) s else s
  | 0x040 => updHl h (fun t => { t with arg := vset t.arg req.val (fld w 15 0) }) s
  | 0x044 => unretire (fld w 4 0) req (bid (fld w 7 5)) (fld w 31 16) s
  | _ => s

/-- HL_ANNEX and HL_ANNEX_CTL of berth b: its own pilot. -/
def writeHl (b : BId) (req : ReqId) (off : Nat) (w : Word) (s : State) : State :=
  let put (f : Hl → Hl) : State := s.upd b fun x => { x with hl := f x.hl }
  if req.val != b.val then s
  else if off == 0x108 then put fun h => { h with annexLen := if fld w 6 0 ≤ 64 then fld w 6 0 else h.annexLen, annexCommit := bitAt w 7 }
  else match regIx off 0x140 4 16 with
    | some i => put fun h => { h with annex := vset h.annex i w }
    | none => s

/-- A write of a mapped register of berth b's window, or of the tray-wide space that b answers (R10). -/
def regWrite (b : BId) (tray : Bool) (req : ReqId) (blk off : Nat) (w : Word) (s : State) : State :=
  match blk with
  | 0x0 => writeSy b tray req off w s
  | 0x1 => writeTd b off w s
  | 0x2 => writeCh b tray req off w s
  | 0x3 => writeDk b req off w s
  | 0x4 => writeHw b req off w s
  | 0x5 => writeRl b req off w s
  | 0x6 => if tray then writePwTray b req off w s else writePw b req off w s
  | 0x7 => writeCl b req off w s
  | 0x8 => writeLk b req off w s
  | 0x9 => writeAr b req off w s
  | 0xA => writePg b req off w s
  | 0xB => writePl b req off w s
  | 0xC => writeDm b req off w s
  | 0xD => writeTw b req off w s
  | 0xE => writeUs b req off w s
  | _ => if tray then writeHlTray b req off w s else writeHl b req off w s

/-- A write that has passed the tests of R39. Writes to a cell window have no effect (R249). -/
def writeAt (w : Who) (b : BId) (r : Reach) (size : Nat) (v : Word) (s : State) : State :=
  match r with
  | .reg tray blk off => regWrite b tray w.req blk off v s
  | _ => memAt w b r size v s

/-- A whole write: none, or the cause of its error, which is recorded (R39). -/
def writeAccess (w : Who) (a size : Nat) (v : Word) (s : State) : Option Nat × State :=
  match access s w true a size with
  | .error (c, h) => (some c, recordErr h c w true a s)
  | .ok (b, r) => (none, writeAt w b r size v s)

end Sys2Proof.Machine
end

