-- ==== Sys2Proof/Machine/Access.lean ====
section
/-! DEFINITION. Accesses as commands: register writes, the reads that do more than return a value, and snapshots (R10, R39,
R43–R45); host activity (R225). -/
namespace Sys2Proof.Machine

/-- An access of a host path has completed without an error: host activity (R225). -/
def hostDid (req : ReqId) (s : State) : State :=
  if isHost req then match s.harbour with
    | some h => updSnap h (fun y => { y with hostAct := true }) s
    | none => s
  else s

/-- A write as a party issues it, with what its completion does. -/
def partyWrite (w : Who) (a : Nat) (v : Word) (s : State) : State :=
  match writeAccess w a 4 v s with
  | (none, t) => hostDid w.req t
  | (some _, t) => t

/-- REGISTER_WRITE (R10): any party writes a word. -/
def registerWrite (req : ReqId) (own : BId) (addr val : Word) (s : State) : State :=
  match whoOf req own with
  | some w => partyWrite w addr.toNat val s
  | none => s

def execRegisterWrite (req : ReqId) (own : BId) (addr val : Word) (s : State) : Host.Outcome State Fault Refusal :=
  ran s (registerWrite req own addr val s.begin)

/-- A read of a register among those that `sel` picks by 0x1000 × block + offset; `rd` is what the read does. A failed read
returns 0 (R39). -/
def partyRead (req : ReqId) (own : BId) (addr : Word) (sel : Nat → Bool)
    (rd : BId → Bool → Nat → Nat → State → Word × State) (s : State) : State :=
  match whoOf req own with
  | none => s
  | some w =>
    match access s w false addr.toNat 4 with
    | .error (c, h) => (recordErr h c w false addr.toNat s).emit (.value 0)
    | .ok (b, .reg tray blk off) =>
      if sel (4096 * blk + off) then
        let r := rd b tray blk off s
        (hostDid req r.2).emit (.value r.1)
      else s
    | .ok _ => s

/-- COUNTER_LOW_READ (R43). -/
def execCounterLowRead (req : ReqId) (own : BId) (addr : Word) (s : State) : Host.Outcome State Fault Refusal :=
  ran s (partyRead req own addr lowWords.contains (fun b tray blk off t => counterLow b tray req blk off t) s.begin)

/-- COUNTER_HIGH_READ (R43). -/
def execCounterHighRead (req : ReqId) (own : BId) (addr : Word) (s : State) : Host.Outcome State Fault Refusal :=
  ran s (partyRead req own addr (fun k => lowWords.contains (k - 4))
    (fun b tray blk off t => counterHigh b tray req blk off t) s.begin)

/-- ACC_ERR_READ (R39). -/
def execAccErrRead (req : ReqId) (own : BId) (addr : Word) (s : State) : Host.Outcome State Fault Refusal :=
  ran s (partyRead req own addr (fun k => k == 0x0040) (fun b _ _ _ t => accErrRead b t) s.begin)

/-- The address of SY_SNAP in a berth's window, or in the tray-wide space. -/
def snapAddr (n : Option BId) : Nat :=
  match n with
  | some b => 0x40F00020 + 0x1000000 * b.val
  | none => 0x30F00020

/-- SNAP_TAKE (R44): a write of 1 to TAKE, in a berth's window or tray-wide. -/
def snapTake (req : ReqId) (own : BId) (n : Option BId) (s : State) : State :=
  match whoOf req own with
  | some w => partyWrite w (snapAddr n) 1 s
  | none => s

def execSnapTake (req : ReqId) (own : BId) (n : Option BId) (s : State) : Host.Outcome State Fault Refusal :=
  ran s (snapTake req own n s.begin)

/-- SNAP_RELEASE (R45): a write of 1 to RELEASE. -/
def snapRelease (req : ReqId) (own : BId) (n : Option BId) (s : State) : State :=
  match whoOf req own with
  | some w => partyWrite w (snapAddr n) 2 s
  | none => s

def execSnapRelease (req : ReqId) (own : BId) (n : Option BId) (s : State) : Host.Outcome State Fault Refusal :=
  ran s (snapRelease req own n s.begin)

/-- SNAPSHOT_EXPIRY (R45): 256 tides after the freeze. -/
def snapExpiry (b : BId) (s : State) : State :=
  if (s.at b).sy.snapFrozen && (s.at b).sy.snapTide + 256 ≤ (s.at b).td.tide then
    updSnap b (fun y => { y with snapFrozen := false, frozen := [], snapExpired := true }) s
  else s

def execSnapshotExpiry (b : BId) (s : State) : Host.Outcome State Fault Refusal := ran s (snapExpiry b s.begin)

/-! ### Remote accesses of a pilot (R22, R23) -/

/-- Carries out a remote access at its target, as any access it receives: the value read, or the cause of its error.
`b` is the berth whose pilot or DMA engine issued it. -/
def carryOut (b : BId) (r : Remote) (s : State) : Except Nat Word × State :=
  match whoOf r.req b with
  | none => (.ok 0, s)
  | some w =>
    if r.write then
      match writeAccess w r.addr r.size r.data s with
      | (none, t) => (.ok 0, t)
      | (some c, t) => (.error c, t)
    else readAccess w r.addr r.size s

end Sys2Proof.Machine
end

