-- ==== Sys2Proof/Machine/HostPaths.lean ====
section
/-! DEFINITION. The host paths: the two-wire port's commands (R402–R410, R424) and the vendor requests of interface 0 (R431–R433). -/
namespace Sys2Proof.Machine

/-! ### Accesses of a host path -/

/-- One access of a host path; `late`: the berths whose replies do not come within 10 µs (R22). -/
def hostAccess (req : ReqId) (late : BitVec 8) (write : Bool) (a : Nat) (v : Word) (s : State) : Except Nat Word × State :=
  let w := hostWho req
  let slow := match accessTarget s w a, access s w write a 4 with
    | some t, .ok _ => isRemote s w a && late.getLsbD t.val
    | _, _ => false
  if slow then
    let h := s.harbour.getD 0
    let r : Remote := { req := req, addr := a, size := 4, write := write, data := v }
    (.error 5, updSnap h (fun y => { y with timedOut := y.timedOut ++ [r] }) (recordErr h 5 w write a s))
  else
    let s := match accessTarget s w a with
      | some t => if isRemote s w a then accessFlits (s.harbour.getD 0) t (dropLate (s.harbour.getD 0) req t s) else s
      | none => s
    if write then
    match writeAccess w a 4 v s with
    | (none, t) => (.ok 0, hostDid req t)
    | (some c, t) => (.error c, t)
  else
    match readAccess w a 4 s with
    | (.ok x, t) => (.ok x, hostDid req t)
    | (.error c, t) => (.error c, t)

/-- What a series of accesses came to: the words read, and the cause and index of the access that failed, 0 and 0 if none. -/
structure Series where
  words : List Word
  cause : Nat
  index : Nat
deriving DecidableEq, Repr

/-- Reads of n words from address a upwards, the first of index i; the words from a failed one on read 0 (R409, R432). -/
def hostReads (req : ReqId) (late : BitVec 8) : Nat → Nat → Nat → State → Series × State
  | 0, _, _, s => (⟨[], 0, 0⟩, s)
  | n + 1, a, i, s =>
    match hostAccess req late false a 0 s with
    | (.ok w, t) =>
      let r := hostReads req late n (a + 4) (i + 1) t
      ({ r.1 with words := w :: r.1.words }, r.2)
    | (.error c, t) => (⟨List.replicate (n + 1) 0, c, i⟩, t)

/-- Writes of words from address a upwards; the first that fails stops the rest. -/
def hostWrites (req : ReqId) (late : BitVec 8) : List Word → Nat → Nat → State → Series × State
  | [], _, _, s => (⟨[], 0, 0⟩, s)
  | w :: ws, a, i, s =>
    match hostAccess req late true a w s with
    | (.ok _, t) => hostWrites req late ws (a + 4) (i + 1) t
    | (.error c, t) => (⟨[], c, i⟩, t)

/-! ### The two-wire port -/

def crc8Step : Nat → BitVec 8 → BitVec 8
  | 0, c => c
  | k + 1, c => crc8Step k (if c.getLsbD 7 then (c <<< 1) ^^^ 0x07#8 else c <<< 1)

/-- The PEC of the bytes on the bus: CRC-8, x⁸ + x² + x + 1, initial value 0 (R405). -/
def pecOf (bs : List Byte) : Byte := bs.foldl (fun c b => crc8Step 8 (c ^^^ b)) 0

/-- The port answers a controller: active, and awake (R401, R418). -/
def twOnBus (s : State) (b : BId) : Bool := twActive s b && !s.dev.sleep && (s.at b).sy.straps.valid

/-- The address byte of the port, for writing (0) or reading (1). -/
def twByte (s : State) (b : BId) (rw : Nat) : Byte := BitVec.ofNat 8 (2 * twAddr s b + rw)

/-- The end of a transaction: TW_LAST, and TW_XFER where its RESULT is OK (R408). The bus is no longer within one (R422). -/
def twEnd (b : BId) (cmd result index : Nat) (s : State) : State :=
  updTw b (fun t => { t with
    lastCmd := cmd, lastResult := result, lastIndex := index, busMid := false
    phase := if t.phase == .busy then .idle else t.phase
    cnt := if result == 0 then { t.cnt with xfer := sinc t.cnt.xfer } else t.cnt }) s

/-- The bytes before the data of a read: what the controller wrote, and the repeated START's address byte. -/
def twHead (s : State) (b : BId) (cmd : Nat) (x : TwXact) : List Byte :=
  let start := [twByte s b 0, BitVec.ofNat 8 cmd]
  match x with
  | .call bs => start ++ [BitVec.ofNat 8 bs.length] ++ bs ++ [twByte s b 1]
  | _ => start ++ [twByte s b 1]

/-- The port sends bytes of a read, then the PEC of the transaction (R405). -/
def twSend (b : BId) (cmd : Nat) (x : TwXact) (bs : List Byte) (s : State) : State :=
  s.emit (.reply (bs ++ [pecOf (twHead s b cmd x ++ bs)]))

/-- A shape error, or a count out of range (R407): nothing is accessed, and bytes that must be sent read 0xFF. -/
def twShape (b : BId) (cmd code : Nat) (x : TwXact) (s : State) : State :=
  let s := twEnd b cmd code 0 (twCount b (fun c => { c with lenErr := sinc c.lenErr }) s)
  match x with
  | .readWord => twSend b cmd x (List.replicate 2 0xFF) s
  | .blockRead => twSend b cmd x (List.replicate 256 0xFF) s
  | .call _ => twSend b cmd x (List.replicate 256 0xFF) s
  | _ => s

/-- A write under the PEC rules of R405: what it does where they are met. -/
def twWrite (b : BId) (cmd : Nat) (pec : Option Bool) (act : State → State) (s : State) : State :=
  match pec with
  | some false =>
    (twEnd b cmd 0x11 0 (twCount b (fun c => { c with pecErr := sinc c.pecErr }) s)).emit .nack
  | some true => act s
  | none => if bitAt (twOf s b).cfg 3 then twEnd b cmd 0x12 0 s else act s

/-- A transaction that the port answers. -/
def twRun (b : BId) (act : State → State) (s : State) : State := if twOnBus s b then act s else s

/-- A read command without operands that returns fixed bytes: by Block Read with a count, or by Read Word. -/
def twRead (b : BId) (cmd : Nat) (block : Bool) (bs : List Byte) (x : TwXact) (s : State) : State :=
  let ok := match x with
    | .blockRead => block
    | .readWord => !block
    | _ => false
  if ok then twEnd b cmd 0 0 (twSend b cmd x ((if block then [BitVec.ofNat 8 bs.length] else []) ++ bs) s)
  else twShape b cmd 0x10 x s

/-- IDENT (R406): the harbour's SY_ID, SY_BERTH and CH_STAT. -/
def twIdent (b : BId) (x : TwXact) (s : State) : State :=
  twRead b 0x01 true (wordsBytes [(liveReg s b false 10 0 0).getD 0, (liveReg s b false 10 0 4).getD 0, (liveReg s b false 10 2 0).getD 0]) x s

def execIdent (b : BId) (x : TwXact) (s : State) : Host.Outcome State Fault Refusal := ran s (twRun b (twIdent b x) s.begin)

/-- LAST (R406): TW_LAST bits [15:0]. -/
def execLast (b : BId) (x : TwXact) (s : State) : Host.Outcome State Fault Refusal :=
  ran s (twRun b (fun t => twRead b 0x1F false (leBytes 2 (twLastWord (twOf t b)).toNat) x t) s.begin)

/-- ATTN (R406): TW_ATTN AND TW_ATTN_EN. -/
def execAttn (b : BId) (x : TwXact) (s : State) : Host.Outcome State Fault Refusal :=
  ran s (twRun b (fun t => twRead b 0x20 false (leBytes 2 (attnPending (twOf t b))) x t) s.begin)

/-- ATTN_CLR (R406): each set bit of the mask is written 1 to TW_ATTN. -/
def twAttnClr (b : BId) (x : TwXact) (s : State) : State :=
  match x with
  | .writeWord m pec => twWrite b 0x21 pec (fun t =>
      twEnd b 0x21 0 0 (updTw b (fun u => { u with attn := u.attn - (u.attn &&& (m.toNat % 2048)) }) t)) s
  | _ => twShape b 0x21 0x10 x s

def execAttnClr (b : BId) (x : TwXact) (s : State) : Host.Outcome State Fault Refusal := ran s (twRun b (twAttnClr b x) s.begin)

/-- A window read of n words: STATUS, then the words, by a process call (R409). -/
def twWindowRead (b : BId) (cmd a n : Nat) (late : BitVec 8) (x : TwXact) (s : State) : State :=
  let r := hostReads 10 late n a 0 s
  let bs := BitVec.ofNat 8 (1 + 4 * n) :: BitVec.ofNat 8 r.1.cause :: wordsBytes r.1.words
  twEnd b cmd r.1.cause r.1.index (twSend b cmd x bs r.2)

/-- RD32 (R409). -/
def twRd32 (b : BId) (late : BitVec 8) (x : TwXact) (s : State) : State :=
  match x with
  | .call bs => if bs.length == 4 then twWindowRead b 0x10 (natAt bs 0 4) 1 late x s else twShape b 0x10 0x10 x s
  | _ => twShape b 0x10 0x10 x s

def execRd32 (b : BId) (late : BitVec 8) (x : TwXact) (s : State) : Host.Outcome State Fault Refusal :=
  ran s (twRun b (twRd32 b late x) s.begin)

/-- RDN (R407, R409). -/
def twRdn (b : BId) (late : BitVec 8) (x : TwXact) (s : State) : State :=
  match x with
  | .call bs =>
    let n := natAt bs 4 1
    if bs.length != 5 then twShape b 0x12 0x10 x s
    else if n == 0 || n > 32 then twShape b 0x12 0x13 x s
    else twWindowRead b 0x12 (natAt bs 0 4) n late x s
  | _ => twShape b 0x12 0x10 x s

def execRdn (b : BId) (late : BitVec 8) (x : TwXact) (s : State) : Host.Outcome State Fault Refusal :=
  ran s (twRun b (twRdn b late x) s.begin)

/-- A window write: an address and words, at the STOP or repeated START that ends it (R409). -/
def twWindowWrite (b : BId) (cmd : Nat) (late : BitVec 8) (bs : List Byte) (pec : Option Bool) (s : State) : State :=
  twWrite b cmd pec (fun t =>
    let r := hostWrites 10 late (bytesWords (bs.drop 4) (bs.length / 4 - 1)) (natAt bs 0 4) 0 t
    twEnd b cmd r.1.cause r.1.index r.2) s

/-- WR32 (R409). -/
def twWr32 (b : BId) (late : BitVec 8) (x : TwXact) (s : State) : State :=
  match x with
  | .blockWrite bs pec => if bs.length == 8 then twWindowWrite b 0x11 late bs pec s else twShape b 0x11 0x10 x s
  | _ => twShape b 0x11 0x10 x s

def execWr32 (b : BId) (late : BitVec 8) (x : TwXact) (s : State) : Host.Outcome State Fault Refusal :=
  ran s (twRun b (twWr32 b late x) s.begin)

/-- WRN (R409). -/
def twWrn (b : BId) (late : BitVec 8) (x : TwXact) (s : State) : State :=
  match x with
  | .blockWrite bs pec =>
    if bs.length % 4 == 0 && 8 ≤ bs.length && bs.length ≤ 128 then twWindowWrite b 0x13 late bs pec s
    else twShape b 0x13 0x10 x s
  | _ => twShape b 0x13 0x10 x s

def execWrn (b : BId) (late : BitVec 8) (x : TwXact) (s : State) : Host.Outcome State Fault Refusal :=
  ran s (twRun b (twWrn b late x) s.begin)

/-- RECEIVE_BYTE (R406): TW_LAST.RESULT. -/
def twReceive (b : BId) (s : State) : State :=
  let v := BitVec.ofNat 8 (twOf s b).lastResult
  twEnd b 0 0 0 (s.emit (.reply [v, pecOf [twByte s b 1, v]]))

def execReceiveByte (b : BId) (s : State) : Host.Outcome State Fault Refusal := ran s (twRun b (twReceive b) s.begin)

/-- QUICK_COMMAND (R402): the address is acknowledged; no effect. -/
def execQuickCommand (b : BId) (s : State) : Host.Outcome State Fault Refusal := ran s (twRun b (fun t => t.emit .ack) s.begin)

/-- The command codes of R406. -/
def twCodes : List Nat := [0x01, 0x10, 0x11, 0x12, 0x13, 0x1F, 0x20, 0x21]

/-- UNSUPPORTED_COMMAND (R402, R406): a code that is not listed, or (`kind`) a transaction the port does not support, is not
acknowledged. -/
def twUnsupported (b : BId) (code : Nat) (kind : Bool) (s : State) : State :=
  if kind || !twCodes.contains code then (twCount b (fun c => { c with nack := sinc c.nack }) s).emit .nack else s

def execUnsupportedCommand (b : BId) (code : BitVec 8) (kind : Bool) (s : State) : Host.Outcome State Fault Refusal :=
  ran s (twRun b (twUnsupported b code.toNat kind) s.begin)

/-- TRANSACTION_CUT (R424): a write transaction ends other than by STOP or repeated START; `mid`: the bus stays within it
(R422). -/
def twCut (b : BId) (code : Nat) (mid : Bool) (s : State) : State :=
  let s := twEnd b code 0x14 0 s
  if mid then updTw b (fun t => { t with busMid := true, phase := if t.phase == .idle then .busy else t.phase }) s else s

def execTransactionCut (b : BId) (code : BitVec 8) (mid : Bool) (s : State) : Host.Outcome State Fault Refusal :=
  ran s (twRun b (twCut b code.toNat mid) s.begin)

/-! ### Vendor requests -/

/-- US_LAST of a vendor READ or WRITE; COUNT advances where the transfer reached its accesses (R433). -/
def usLast (b : BId) (breq result index : Nat) (reached : Bool) (s : State) : State :=
  updUs b (fun u => { u with
    lastReq := breq, lastResult := result, lastIndex := index, lastCount := if reached then (u.lastCount + 1) % 256 else u.lastCount }) s

/-- A vendor transfer completes (US_CTRL_XFER). -/
def usDone (b : BId) (s : State) : State := updUs b (fun u => { u with ctrlXfer := sinc u.ctrlXfer }) s

/-- A vendor request of the wrong shape is stalled in its setup stage (R431). -/
def usShape (b : BId) (breq : Nat) (s : State) : State := (usLast b breq 0x10 0 false s).emit .stall

/-- VENDOR_READ (R431, R432): a READ of `len` bytes. `finished`: its data stage completes. -/
def vendorRead (b : BId) (a len : Nat) (late : BitVec 8) (finished : Bool) (s : State) : State :=
  if !isConf s b then request b none s
  else if len % 4 != 0 || len < 8 || len > 512 then usShape b 1 s
  else
    let r := hostReads 9 late (len / 4 - 1) a 0 s
    let s := usLast b 1 r.1.cause r.1.index true r.2
    if finished then usDone b (s.emit (.reply (wordsBytes (usLastWord (usOf s b) :: r.1.words)))) else s

def execVendorRead (b : BId) (addr : Word) (len : BitVec 16) (late : BitVec 8) (finished : Bool) (s : State) :
    Host.Outcome State Fault Refusal := ran s (vendorRead b addr.toNat len.toNat late finished s.begin)

/-- VENDOR_WRITE (R431, R432): a WRITE of some words and `odd` bytes more; `started`: its status stage starts. -/
def vendorWrite (b : BId) (a : Nat) (ws : List Word) (odd : Nat) (late : BitVec 8) (started : Bool) (s : State) : State :=
  if !isConf s b then request b none s
  else if odd != 0 || ws.isEmpty || ws.length > 128 then usShape b 2 s
  else if !bitAt (usOf s b).cfg 3 then (usLast b 2 0x15 0 false s).emit .stall
  else if !started then updUs b (fun u => { u with cut := sinc u.cut }) (usLast b 2 0x14 0 false s)
  else
    let r := hostWrites 9 late ws a 0 s
    (usDone b (usLast b 2 r.1.cause r.1.index true r.2)).emit .ack

def execVendorWrite (b : BId) (addr : Word) (words : List Word) (odd : Fin 4) (late : BitVec 8) (started : Bool) (s : State) :
    Host.Outcome State Fault Refusal := ran s (vendorWrite b addr.toNat words odd.val late started s.begin)

/-- VENDOR_LAST (R431): a vendor request other than READ and WRITE; only LAST, with wValue and wIndex 0, is answered. -/
def vendorLast (b : BId) (breq : Nat) (a : Word) (len : Nat) (s : State) : State :=
  if !isConf s b then request b none s
  else if breq == 3 && a == 0 && len == 4 then usDone b (answer (leBytes 4 (usLastWord (usOf s b)).toNat) 4 s)
  else if breq == 1 || breq == 2 then s
  else usShape b breq s

def execVendorLast (b : BId) (breq : BitVec 8) (a : Word) (len : BitVec 16) (s : State) : Host.Outcome State Fault Refusal :=
  ran s (vendorLast b breq.toNat a len.toNat s.begin)

end Sys2Proof.Machine
end

