-- ==== Sys2Proof/Machine/Rv.lean ====
section
/-! DEFINITION. The instructions of the pilot core, RV32IMAC with Zicsr (R362): their decoding from a 32-bit or a 16-bit word,
and their arithmetic. -/
namespace Sys2Proof.Machine

/-- Register–register and register–immediate operations of RV32I and M. -/
inductive RvAlu where
  | add | sub | sll | slt | sltu | xor | srl | sra | or | and
  | mul | mulh | mulhsu | mulhu | div | divu | rem | remu
deriving DecidableEq, Repr

/-- Conditions of branches. -/
inductive RvCond where
  | eq | ne | lt | ge | ltu | geu
deriving DecidableEq, Repr

/-- Atomic read-modify-write operations. -/
inductive RvAmo where
  | swap | add | xor | and | or | min | max | minu | maxu
deriving DecidableEq, Repr

/-- CSR operations: write, set, clear. -/
inductive RvCsr where
  | write | set | clear
deriving DecidableEq, Repr

/-- A decoded instruction. Register numbers are 0–31; immediates are extended to 32 bits. -/
inductive Rv where
  | lui (rd : Nat) (imm : Word)
  | auipc (rd : Nat) (imm : Word)
  | jal (rd : Nat) (off : Word)
  | jalr (rd rs1 : Nat) (imm : Word)
  | branch (c : RvCond) (rs1 rs2 : Nat) (off : Word)
  | load (size : Nat) (signed : Bool) (rd rs1 : Nat) (imm : Word)
  | store (size : Nat) (rs1 rs2 : Nat) (imm : Word)
  | aluImm (op : RvAlu) (rd rs1 : Nat) (imm : Word)
  | alu (op : RvAlu) (rd rs1 rs2 : Nat)
  | lr (rd rs1 : Nat)
  | sc (rd rs1 rs2 : Nat)
  | amo (op : RvAmo) (rd rs1 rs2 : Nat)
  | csr (op : RvCsr) (useImm : Bool) (rd rs1 csr : Nat)
  | fence
  | ecall
  | ebreak
  | mret
  | wfi
deriving DecidableEq, Repr

/-! ### Arithmetic -/

def sltWord (x y : Word) : Word := if x.toInt < y.toInt then 1 else 0
def sltuWord (x y : Word) : Word := if x.toNat < y.toNat then 1 else 0

/-- The result of an operation. Division by zero and signed overflow give what the unprivileged specification states. -/
def rvAlu (op : RvAlu) (x y : Word) : Word :=
  let sh := y.toNat % 32
  match op with
  | .add => x + y
  | .sub => x - y
  | .sll => x <<< sh
  | .slt => sltWord x y
  | .sltu => sltuWord x y
  | .xor => x ^^^ y
  | .srl => x >>> sh
  | .sra => x.sshiftRight sh
  | .or => x ||| y
  | .and => x &&& y
  | .mul => x * y
  | .mulh => BitVec.ofInt 32 (x.toInt * y.toInt / 2 ^ 32)
  | .mulhsu => BitVec.ofInt 32 (x.toInt * y.toNat / 2 ^ 32)
  | .mulhu => BitVec.ofNat 32 (x.toNat * y.toNat / 2 ^ 32)
  | .div => if y == 0 then 0xFFFFFFFF else BitVec.ofInt 32 (x.toInt.tdiv y.toInt)
  | .divu => if y == 0 then 0xFFFFFFFF else BitVec.ofNat 32 (x.toNat / y.toNat)
  | .rem => if y == 0 then x else BitVec.ofInt 32 (x.toInt.tmod y.toInt)
  | .remu => if y == 0 then x else BitVec.ofNat 32 (x.toNat % y.toNat)

def rvCond (c : RvCond) (x y : Word) : Bool :=
  match c with
  | .eq => x == y
  | .ne => x != y
  | .lt => decide (x.toInt < y.toInt)
  | .ge => decide (y.toInt ≤ x.toInt)
  | .ltu => decide (x.toNat < y.toNat)
  | .geu => decide (y.toNat ≤ x.toNat)

/-- What an AMO stores: `old` is the word in memory. -/
def rvAmo (op : RvAmo) (old y : Word) : Word :=
  match op with
  | .swap => y
  | .add => old + y
  | .xor => old ^^^ y
  | .and => old &&& y
  | .or => old ||| y
  | .min => if old.toInt ≤ y.toInt then old else y
  | .max => if y.toInt ≤ old.toInt then old else y
  | .minu => if old.toNat ≤ y.toNat then old else y
  | .maxu => if y.toNat ≤ old.toNat then old else y

/-! ### Decoding of 32-bit words -/

/-- A number of n bits, extended by its sign to 32 bits. -/
def sextN (n v : Nat) : Word := if v < 2 ^ (n - 1) then wordOf v else wordOf (v + 2 ^ 32 - 2 ^ n)

def immI (w : Word) : Word := sextN 12 (fld w 31 20)
def immS (w : Word) : Word := sextN 12 (fld w 31 25 * 32 + fld w 11 7)
def immB (w : Word) : Word :=
  sextN 13 (fld w 31 31 * 4096 + fld w 7 7 * 2048 + fld w 30 25 * 32 + fld w 11 8 * 2)
def immU (w : Word) : Word := wordOf (fld w 31 12 * 4096)
def immJ (w : Word) : Word :=
  sextN 21 (fld w 31 31 * 1048576 + fld w 19 12 * 4096 + fld w 20 20 * 2048 + fld w 30 21 * 2)

def condOf (f3 : Nat) : Option RvCond :=
  match f3 with
  | 0 => some .eq
  | 1 => some .ne
  | 4 => some .lt
  | 5 => some .ge
  | 6 => some .ltu
  | 7 => some .geu
  | _ => none

def decodeLoad (w : Word) : Option Rv :=
  let l (size : Nat) (sg : Bool) : Option Rv := some (.load size sg (fld w 11 7) (fld w 19 15) (immI w))
  match fld w 14 12 with
  | 0 => l 1 true
  | 1 => l 2 true
  | 2 => l 4 false
  | 4 => l 1 false
  | 5 => l 2 false
  | _ => none

def decodeStore (w : Word) : Option Rv :=
  if fld w 14 12 ≤ 2 then some (.store (2 ^ fld w 14 12) (fld w 19 15) (fld w 24 20) (immS w)) else none

def decodeOpImm (w : Word) : Option Rv :=
  let o (op : RvAlu) : Option Rv := some (.aluImm op (fld w 11 7) (fld w 19 15) (immI w))
  let sh (op : RvAlu) : Option Rv := some (.aluImm op (fld w 11 7) (fld w 19 15) (wordOf (fld w 24 20)))
  match fld w 14 12, fld w 31 25 with
  | 0, _ => o .add
  | 1, 0 => sh .sll
  | 2, _ => o .slt
  | 3, _ => o .sltu
  | 4, _ => o .xor
  | 5, 0 => sh .srl
  | 5, 0x20 => sh .sra
  | 6, _ => o .or
  | 7, _ => o .and
  | _, _ => none

def decodeOp (w : Word) : Option Rv :=
  let o (op : RvAlu) : Option Rv := some (.alu op (fld w 11 7) (fld w 19 15) (fld w 24 20))
  match fld w 31 25, fld w 14 12 with
  | 0x00, 0 => o .add
  | 0x20, 0 => o .sub
  | 0x00, 1 => o .sll
  | 0x00, 2 => o .slt
  | 0x00, 3 => o .sltu
  | 0x00, 4 => o .xor
  | 0x00, 5 => o .srl
  | 0x20, 5 => o .sra
  | 0x00, 6 => o .or
  | 0x00, 7 => o .and
  | 0x01, 0 => o .mul
  | 0x01, 1 => o .mulh
  | 0x01, 2 => o .mulhsu
  | 0x01, 3 => o .mulhu
  | 0x01, 4 => o .div
  | 0x01, 5 => o .divu
  | 0x01, 6 => o .rem
  | 0x01, 7 => o .remu
  | _, _ => none

def decodeAmo (w : Word) : Option Rv :=
  let rd := fld w 11 7
  let rs1 := fld w 19 15
  let rs2 := fld w 24 20
  if fld w 14 12 != 2 then none
  else match fld w 31 27 with
    | 0x02 => if rs2 == 0 then some (.lr rd rs1) else none
    | 0x03 => some (.sc rd rs1 rs2)
    | 0x01 => some (.amo .swap rd rs1 rs2)
    | 0x00 => some (.amo .add rd rs1 rs2)
    | 0x04 => some (.amo .xor rd rs1 rs2)
    | 0x0C => some (.amo .and rd rs1 rs2)
    | 0x08 => some (.amo .or rd rs1 rs2)
    | 0x10 => some (.amo .min rd rs1 rs2)
    | 0x14 => some (.amo .max rd rs1 rs2)
    | 0x18 => some (.amo .minu rd rs1 rs2)
    | 0x1C => some (.amo .maxu rd rs1 rs2)
    | _ => none

def decodeSystem (w : Word) : Option Rv :=
  let c (op : RvCsr) (im : Bool) : Option Rv := some (.csr op im (fld w 11 7) (fld w 19 15) (fld w 31 20))
  match fld w 14 12 with
  | 0 => if fld w 11 7 != 0 || fld w 19 15 != 0 then none
    else match fld w 31 20 with
      | 0x000 => some .ecall
      | 0x001 => some .ebreak
      | 0x302 => some .mret
      | 0x105 => some .wfi
      | _ => none
  | 1 => c .write false
  | 2 => c .set false
  | 3 => c .clear false
  | 5 => c .write true
  | 6 => c .set true
  | 7 => c .clear true
  | _ => none

/-- The instruction of a 32-bit word; none is an illegal instruction. FENCE.I is one (R362). -/
def decode32 (w : Word) : Option Rv :=
  let rd := fld w 11 7
  let rs1 := fld w 19 15
  match fld w 6 0 with
  | 0x37 => some (.lui rd (immU w))
  | 0x17 => some (.auipc rd (immU w))
  | 0x6F => some (.jal rd (immJ w))
  | 0x67 => if fld w 14 12 == 0 then some (.jalr rd rs1 (immI w)) else none
  | 0x63 => (condOf (fld w 14 12)).map fun c => .branch c rs1 (fld w 24 20) (immB w)
  | 0x03 => decodeLoad w
  | 0x23 => decodeStore w
  | 0x13 => decodeOpImm w
  | 0x33 => decodeOp w
  | 0x0F => if fld w 14 12 == 0 then some .fence else none
  | 0x2F => decodeAmo w
  | 0x73 => decodeSystem w
  | _ => none

/-! ### Decoding of 16-bit words (C) -/

def cImm6 (w : Word) : Nat := fld w 12 12 * 32 + fld w 6 2
def cImmJ (w : Word) : Word :=
  sextN 12 (fld w 12 12 * 2048 + fld w 8 8 * 1024 + fld w 10 9 * 256 + fld w 6 6 * 128 + fld w 7 7 * 64 + fld w 2 2 * 32
    + fld w 11 11 * 16 + fld w 5 3 * 2)
def cImmB (w : Word) : Word :=
  sextN 9 (fld w 12 12 * 256 + fld w 6 5 * 64 + fld w 2 2 * 32 + fld w 11 10 * 8 + fld w 4 3 * 2)
def cOffW (w : Word) : Word := wordOf (fld w 5 5 * 64 + fld w 12 10 * 8 + fld w 6 6 * 4)

def decodeC0 (w : Word) : Option Rv :=
  let rdp := 8 + fld w 4 2
  let rs1p := 8 + fld w 9 7
  match fld w 15 13 with
  | 0 =>
    let imm := fld w 10 7 * 64 + fld w 12 11 * 16 + fld w 5 5 * 8 + fld w 6 6 * 4
    if imm == 0 then none else some (.aluImm .add rdp 2 (wordOf imm))
  | 2 => some (.load 4 false rdp rs1p (cOffW w))
  | 6 => some (.store 4 rs1p rdp (cOffW w))
  | _ => none

def decodeC1Alu (w : Word) : Option Rv :=
  let rd := 8 + fld w 9 7
  let rs2 := 8 + fld w 4 2
  match fld w 11 10 with
  | 0 => if fld w 12 12 == 0 then some (.aluImm .srl rd rd (wordOf (fld w 6 2))) else none
  | 1 => if fld w 12 12 == 0 then some (.aluImm .sra rd rd (wordOf (fld w 6 2))) else none
  | 2 => some (.aluImm .and rd rd (sextN 6 (cImm6 w)))
  | _ =>
    if fld w 12 12 != 0 then none
    else match fld w 6 5 with
      | 0 => some (.alu .sub rd rd rs2)
      | 1 => some (.alu .xor rd rd rs2)
      | 2 => some (.alu .or rd rd rs2)
      | _ => some (.alu .and rd rd rs2)

def decodeC1 (w : Word) : Option Rv :=
  let rd := fld w 11 7
  match fld w 15 13 with
  | 0 => some (.aluImm .add rd rd (sextN 6 (cImm6 w)))
  | 1 => some (.jal 1 (cImmJ w))
  | 2 => some (.aluImm .add rd 0 (sextN 6 (cImm6 w)))
  | 3 =>
    if rd == 2 then
      let imm := fld w 12 12 * 512 + fld w 4 3 * 128 + fld w 5 5 * 64 + fld w 2 2 * 32 + fld w 6 6 * 16
      if imm == 0 then none else some (.aluImm .add 2 2 (sextN 10 imm))
    else if cImm6 w == 0 then none
    else some (.lui rd (sextN 18 (cImm6 w * 4096)))
  | 4 => decodeC1Alu w
  | 5 => some (.jal 0 (cImmJ w))
  | 6 => some (.branch .eq (8 + fld w 9 7) 0 (cImmB w))
  | _ => some (.branch .ne (8 + fld w 9 7) 0 (cImmB w))

def decodeC2 (w : Word) : Option Rv :=
  let rd := fld w 11 7
  let rs2 := fld w 6 2
  match fld w 15 13 with
  | 0 => if fld w 12 12 == 0 then some (.aluImm .sll rd rd (wordOf rs2)) else none
  | 2 =>
    if rd == 0 then none
    else some (.load 4 false rd 2 (wordOf (fld w 3 2 * 64 + fld w 12 12 * 32 + fld w 6 4 * 4)))
  | 4 =>
    if fld w 12 12 == 0 then
      (if rs2 != 0 then some (.alu .add rd 0 rs2) else if rd == 0 then none else some (.jalr 0 rd 0))
    else if rs2 != 0 then some (.alu .add rd rd rs2)
    else if rd == 0 then some .ebreak
    else some (.jalr 1 rd 0)
  | 6 => some (.store 4 2 rs2 (wordOf (fld w 8 7 * 64 + fld w 12 9 * 4)))
  | _ => none

/-- The instruction of a 16-bit word whose low two bits are not 11. -/
def decode16 (w : Word) : Option Rv :=
  match fld w 1 0 with
  | 0 => decodeC0 w
  | 1 => decodeC1 w
  | 2 => decodeC2 w
  | _ => none

end Sys2Proof.Machine
end

