-- ==== Sys2Proof/Machine/Pilot.lean ====
section
/-! DEFINITION. The pilot core: fetch, execution, traps, CSRs, PMP, remote accesses, WFI and interrupts (R362–R367, R22, R23). -/
namespace Sys2Proof.Machine

/-! ### Registers, privilege and traps -/

/-- Register x_i; x0 reads 0. -/
def getX (p : Pilot) (i : Nat) : Word := if i == 0 then 0 else vget p.regs (i - 1)

/-- Register x_i written; writes of x0 are discarded. -/
def setX (i : Nat) (v : Word) (p : Pilot) : Pilot := if i == 0 then p else { p with regs := vset p.regs (i - 1) v }

/-- Takes a trap into machine mode (the privileged specification, with the CSRs of R363): the reservation ends (R364). -/
def trap (interrupt : Bool) (code : Nat) (tval : Word) (p : Pilot) : Pilot :=
  let c := p.csr
  let base := wordOf (c.mtvec.toNat / 4 * 4)
  { p with
    pc := if interrupt && bitAt c.mtvec 0 then base + wordOf (4 * code) else base
    machine := true, resv := none, waiting := false
    csr := { c with mepc := p.pc, mcause := wordOf (code + if interrupt then 2 ^ 31 else 0), mtval := tval
                    mpie := c.mie, mie := false, mppM := p.machine } }

/-- A synchronous exception of berth b's pilot. -/
def raise (b : BId) (code : Nat) (tval : Word) (s : State) : State := s.updPl b (trap false code tval)

/-- Return from a trap: MRET. -/
def doMret (p : Pilot) : Pilot :=
  let c := p.csr
  { p with pc := c.mepc, machine := c.mppM
           csr := { c with mie := c.mpie, mpie := true, mppM := false, mprv := c.mprv && c.mppM } }

/-- The retired-instruction counter counts one, unless mcountinhibit stops it. -/
def countRetired (p : Pilot) : Pilot :=
  if nbit p.csr.mcountinhibit 2 then p
  else { p with csr := { p.csr with minstret := (p.csr.minstret + 1) % 2 ^ 64 } }

/-- An instruction of `len` bytes retires, and the next follows it. -/
def retire (len : Nat) (p : Pilot) : Pilot := { countRetired p with pc := p.pc + wordOf len }

/-! ### Physical memory protection (R367) -/

/-- Bytes from lo up to hi that PMP entry i covers. -/
def pmpRange (c : Csrs) (i : Nat) : Nat × Nat :=
  let cfg := (vget c.pmpcfg i).toNat
  let a := (vget c.pmpaddr i).toNat
  match cfg / 8 % 4 with
  | 1 => (if i == 0 then 0 else 4 * (vget c.pmpaddr (i - 1)).toNat, 4 * a)
  | 2 => (4 * a, 4 * a + 4)
  | 3 =>
    let k := ((upto 33).find? fun k => !nbit a k).getD 32
    (a / 2 ^ (k + 1) * 2 ^ (k + 1) * 4, a / 2 ^ (k + 1) * 2 ^ (k + 1) * 4 + 2 ^ (k + 3))
  | _ => (0, 0)

/-- An access of `size` bytes at a is permitted: `need` is the permission's bit in pmpcfg (0 R, 1 W, 2 X). -/
def pmpOk (c : Csrs) (machine : Bool) (a size need : Nat) : Bool :=
  match (upto 16).find? fun i => let r := pmpRange c i
                                 decide (r.1 < a + size) && decide (a < r.2) with
  | none => machine
  | some i =>
    let r := pmpRange c i
    let cfg := (vget c.pmpcfg i).toNat
    decide (r.1 ≤ a) && decide (a + size ≤ r.2) && ((machine && !nbit cfg 7) || nbit cfg need)

/-- The privilege of loads and stores: MPRV takes MPP's. -/
def dataPriv (p : Pilot) : Bool := if p.machine && p.csr.mprv then p.csr.mppM else p.machine

/-! ### Fetch -/

/-- What the core finds at its pc. -/
inductive Fetched where
  | fault (a : Word)
  | illegal
  | op (i : Rv) (len : Nat)
deriving DecidableEq, Repr

/-- The TCM offset of an address of the own TCM, by the alias or the own window (R364). -/
def ownTcm (b : BId) (a : Nat) : Option Nat :=
  if 0x20000000 ≤ a && a < 0x20040000 then some (a - 0x20000000)
  else if 0x40000000 + 0x1000000 * b.val ≤ a && a < 0x40040000 + 0x1000000 * b.val then some (a - 0x40000000 - 0x1000000 * b.val)
  else none

/-- A 16-bit parcel at address a, where it may be fetched. -/
def parcel (x : Berth) (b : BId) (a : Nat) : Option Nat :=
  match ownTcm b a with
  | some o => if pmpOk x.pl.csr x.pl.machine a 2 2 then some (leNat (memRead ramD x.tcm o 2)) else none
  | none => none

/-- The instruction at the pc. -/
def fetch (x : Berth) (b : BId) : Fetched :=
  let a := x.pl.pc.toNat
  match parcel x b a with
  | none => .fault x.pl.pc
  | some lo =>
    if lo % 4 != 3 then
      match decode16 (wordOf lo) with
      | some i => .op i 2
      | none => .illegal
    else match parcel x b (a + 2) with
      | none => .fault (x.pl.pc + 2)
      | some hi =>
        match decode32 (wordOf (lo + 65536 * hi)) with
        | some i => .op i 4
        | none => .illegal

/-! ### Interrupts (R366) -/

/-- mip: MSIP bit 3, MTIP bit 7, MEIP bit 11. -/
def mipOf (p : Pilot) : Nat :=
  b2n p.msip * 8 + b2n (decide (p.mtimecmp ≤ p.mtime)) * 128 + b2n ((p.irqPend &&& p.irqEn) != 0) * 2048

def mieOf (c : Csrs) : Nat := b2n c.msie * 8 + b2n c.mtie * 128 + b2n c.meie * 2048

/-- The enabled pending interrupt that is taken first: external, software, timer. -/
def pendingIrq (p : Pilot) : Option Nat :=
  let m := mipOf p &&& mieOf p.csr
  if nbit m 11 then some 11 else if nbit m 3 then some 3 else if nbit m 7 then some 7 else none

/-! ### The core at work -/

/-- The core has a load outstanding on the ring. -/
def loadOut (x : Berth) : Bool := x.sy.remotes.any fun r => !r.write

/-- The core may execute its next instruction: it runs, no load is outstanding, and WFI does not stall it. -/
def coreReady (s : State) (b : BId) : Bool :=
  let x := s.at b
  x.pl.st == .running && !s.dev.sleep && !x.sy.inReset && !loadOut x
    && (!x.pl.waiting || (pendingIrq x.pl).isSome)

/-- Window offset of an address in the own TCM or deck share, by any of their names (R36). -/
def ownMem (s : State) (b : BId) (a : Nat) : Option Nat :=
  match addrWindow s (pilotWho b) a with
  | some (some t, tray, o) =>
    if t == b then match reachAt s b tray (pilotWho b).req o with
      | some (.tcm o) => some o
      | some (.deck o) => some (0x100000 + o)
      | _ => none
    else none
  | _ => none

/-- A word of the own TCM or deck share at a window offset. -/
def ownWord (x : Berth) (o : Nat) : Word :=
  if o < 0x100000 then wordOf (leNat (memRead ramD x.tcm o 4)) else wordOf (leNat (memRead ramD x.deck (o - 0x100000) 4))

/-- The value that a load of `size` bytes puts into its register. -/
def loadValue (size : Nat) (signed : Bool) (w : Word) : Word := if signed then sextN (8 * size) (w.toNat % 2 ^ (8 * size)) else w

/-- A remote access leaves the core: its flits go out (R20), and it waits for its reply (R22). -/
def remoteIssue (b : BId) (r : Remote) (s : State) : State :=
  let s := match accessTarget s (pilotWho b) r.addr with
    | some t => accessSend 100 b t s
    | none => s
  updSnap b (fun y => { y with remotes := y.remotes ++ [r] }) s

/-- A load: alignment, PMP, then the access (R364); a remote one waits for its reply (R22). -/
def doLoad (b : BId) (len size : Nat) (signed : Bool) (rd : Nat) (a : Word) (s : State) : State :=
  let p := (s.at b).pl
  if a.toNat % size != 0 then raise b 4 a s
  else if !pmpOk p.csr (dataPriv p) a.toNat size 0 then raise b 5 a s
  else if isRemote s (pilotWho b) a.toNat then
    let r : Remote := { req := (pilotWho b).req, addr := a.toNat, size := size, write := false, data := 0
                        pc := p.pc, len := len, rd := rd, signed := signed }
    remoteIssue b r s
  else match readAccess (pilotWho b) a.toNat size s with
    | (.ok w, t) => t.updPl b fun p => retire len (setX rd (loadValue size signed w) p)
    | (.error _, t) => raise b 5 a t

/-- A store: alignment, PMP, then the access; a remote one leaves the core and is acknowledged later (R23). -/
def doStore (b : BId) (len size : Nat) (a v : Word) (s : State) : State :=
  let p := (s.at b).pl
  if a.toNat % size != 0 then raise b 6 a s
  else if !pmpOk p.csr (dataPriv p) a.toNat size 1 then raise b 7 a s
  else if isRemote s (pilotWho b) a.toNat then
    let r : Remote := { req := (pilotWho b).req, addr := a.toNat, size := size, write := true, data := v, pc := p.pc, len := len }
    (remoteIssue b r s).updPl b (retire len)
  else match writeAccess (pilotWho b) a.toNat size v s with
    | (none, t) => t.updPl b (retire len)
    | (some _, t) => raise b 7 a t

/-- LR.W, SC.W or an AMO at address a: only in the own TCM and deck share (R364). `need`: the permissions it needs;
`mis`: its misaligned exception. -/
def doAtomic (b : BId) (mis : Nat) (need : List Nat) (a : Word) (act : Nat → State → State) (s : State) : State :=
  let p := (s.at b).pl
  if a.toNat % 4 != 0 then raise b mis a s
  else if !(need.all fun n => pmpOk p.csr (dataPriv p) a.toNat 4 n) then raise b (if need == [0] then 5 else 7) a s
  else match ownMem s b a.toNat with
    | some o =>
      match access s (pilotWho b) (need != [0]) a.toNat 4 with
      | .ok _ => act o s
      | .error (c, h) => raise b 7 a (recordErr h c (pilotWho b) (need != [0]) a.toNat s)
    | none => raise b 7 a s

/-- Stores a word at a window offset of the own TCM or deck share. -/
def putOwn (b : BId) (o : Nat) (v : Word) (s : State) : State :=
  memAt (pilotWho b) b (if o < 0x100000 then .tcm o else .deck (o - 0x100000)) 4 v s

def doLr (b : BId) (len rd : Nat) (o : Nat) (s : State) : State :=
  s.upd b fun x => { x with pl := retire len (setX rd (ownWord x o) { x.pl with resv := some o }) }

def doSc (b : BId) (len rd rs2 : Nat) (o : Nat) (s : State) : State :=
  let x := s.at b
  let hit := x.pl.resv == some o
  let t := if hit then putOwn b o (getX x.pl rs2) s else s
  t.updPl b fun p => retire len (setX rd (if hit then 0 else 1) { p with resv := none })

def doAmo (b : BId) (len : Nat) (op : RvAmo) (rd rs2 : Nat) (o : Nat) (s : State) : State :=
  let x := s.at b
  let old := ownWord x o
  (putOwn b o (rvAmo op old (getX x.pl rs2)) s).updPl b fun p => retire len (setX rd old p)

/-- Executes an instruction other than a CSR instruction, FENCE and WFI, which are commands of their own. -/
def rvExec (b : BId) (i : Rv) (len : Nat) (s : State) : State :=
  let p := (s.at b).pl
  let next := p.pc + wordOf len
  let put (rd : Nat) (v : Word) : State := s.updPl b fun p => retire len (setX rd v p)
  match i with
  | .lui rd imm => put rd imm
  | .auipc rd imm => put rd (p.pc + imm)
  | .jal rd off => s.updPl b fun p => { setX rd next (countRetired p) with pc := p.pc + off }
  | .jalr rd rs1 imm =>
    s.updPl b fun p => { setX rd next (countRetired p) with pc := (getX p rs1 + imm) &&& 0xFFFFFFFE }
  | .branch c rs1 rs2 off =>
    if rvCond c (getX p rs1) (getX p rs2) then s.updPl b fun p => { countRetired p with pc := p.pc + off }
    else s.updPl b (retire len)
  | .load size signed rd rs1 imm => doLoad b len size signed rd (getX p rs1 + imm) s
  | .store size rs1 rs2 imm => doStore b len size (getX p rs1 + imm) (getX p rs2) s
  | .aluImm op rd rs1 imm => put rd (rvAlu op (getX p rs1) imm)
  | .alu op rd rs1 rs2 => put rd (rvAlu op (getX p rs1) (getX p rs2))
  | .lr rd rs1 => doAtomic b 4 [0] (getX p rs1) (doLr b len rd) s
  | .sc rd rs1 rs2 => doAtomic b 6 [1] (getX p rs1) (doSc b len rd rs2) s
  | .amo op rd rs1 rs2 => doAtomic b 6 [0, 1] (getX p rs1) (doAmo b len op rd rs2) s
  | .ecall => raise b (if p.machine then 11 else 8) 0 s
  | .ebreak => raise b 3 0 s
  | .mret => if p.machine then s.updPl b fun p => doMret (countRetired p) else raise b 2 0 s
  | .csr _ _ _ _ _ => s
  | .fence => s
  | .wfi => s

/-- The core goes on after WFI where an enabled interrupt is pending. -/
def awake (b : BId) (s : State) : State := s.updPl b fun p => { p with waiting := false }

/-- PILOT_INSTRUCTION (R362, R364): the core of berth b executes the instruction at its pc, if that has no command of its
own. -/
def pilotInstruction (b : BId) (s : State) : State :=
  if !coreReady s b then s
  else match fetch (s.at b) b with
    | .fault a => raise b 1 a (awake b s)
    | .illegal => raise b 2 0 (awake b s)
    | .op (.csr _ _ _ _ _) _ => s
    | .op .fence _ => s
    | .op .wfi _ => s
    | .op i len => rvExec b i len (awake b s)

def execPilotInstruction (b : BId) (s : State) : Host.Outcome State Fault Refusal := ran s (pilotInstruction b s.begin)

/-! ### CSRs (R363) -/

def mstatusOf (c : Csrs) : Word :=
  pack [(b2n c.mie, 3, 1), (b2n c.mpie, 7, 1), (if c.mppM then 3 else 0, 11, 2), (b2n c.mprv, 17, 1)]

def pmpcfgWord (c : Csrs) (k : Nat) : Word := wordOf (leNat ((upto 4).map fun i => vget c.pmpcfg (4 * k + i)))

/-- User-mode counter CSRs by their number within 0x00–0x1F and 0x80–0x9F: the counter's whole value. -/
def shadow (p : Pilot) (k : Nat) : Nat :=
  match k with
  | 0 => p.csr.mcycle
  | 1 => p.mtime
  | 2 => p.csr.minstret
  | _ => 0

/-- The value of CSR n of berth b's pilot; none is an illegal instruction. -/
def csrGet (b : BId) (p : Pilot) (n : Nat) : Option Word :=
  let c := p.csr
  match n with
  | 0x301 => some 0x40101105
  | 0xF11 => some 0
  | 0xF12 => some 0
  | 0xF13 => some 0x00000B01
  | 0xF14 => some (wordOf b.val)
  | 0x300 => some (mstatusOf c)
  | 0x304 => some (wordOf (mieOf c))
  | 0x305 => some c.mtvec
  | 0x306 => some (wordOf c.mcounteren)
  | 0x320 => some (wordOf c.mcountinhibit)
  | 0x340 => some c.mscratch
  | 0x341 => some c.mepc
  | 0x342 => some c.mcause
  | 0x343 => some c.mtval
  | 0x344 => some (wordOf (mipOf p))
  | 0xB00 => some (lo64 c.mcycle)
  | 0xB02 => some (lo64 c.minstret)
  | 0xB80 => some (hi64 c.mcycle)
  | 0xB82 => some (hi64 c.minstret)
  | _ =>
    if 0x3A0 ≤ n && n ≤ 0x3A3 then some (pmpcfgWord c (n - 0x3A0))
    else if 0x3B0 ≤ n && n ≤ 0x3BF then some (vget c.pmpaddr (n - 0x3B0))
    else if (0xB03 ≤ n && n ≤ 0xB1F) || (0xB83 ≤ n && n ≤ 0xB9F) || (0x323 ≤ n && n ≤ 0x33F) then some 0
    else if (0xC00 ≤ n && n ≤ 0xC1F) || (0xC80 ≤ n && n ≤ 0xC9F) then
      let k := n % 0x80
      if p.machine || (k < 3 && nbit c.mcounteren k) then
        some (if n < 0xC80 then lo64 (shadow p k) else hi64 (shadow p k))
      else none
    else none

/-- The entry's address register is locked: by its own L, or by that of a TOR entry above it (R367). -/
def addrLocked (c : Csrs) (i : Nat) : Bool :=
  let cfg (k : Nat) : Nat := (vget c.pmpcfg k).toNat
  nbit (cfg i) 7 || (decide (i < 15) && nbit (cfg (i + 1)) 7 && cfg (i + 1) / 8 % 4 == 1)

/-- A byte of pmpcfg after a write: locked entries stay, bits 6 and 5 read 0, and W without R is reserved. -/
def cfgByte (old : Byte) (v : Nat) : Byte :=
  if old.getLsbD 7 || (nbit v 1 && !nbit v 0) then old else BitVec.ofNat 8 (v % 32 + v / 128 % 2 * 128)

/-- mtvec after a write: reserved modes leave the mode, and a vectored base is aligned to 64 bytes. -/
def mtvecPut (old v : Word) : Word :=
  let mode := if v.toNat % 4 < 2 then v.toNat % 4 else old.toNat % 4
  wordOf ((if mode == 1 then v.toNat / 64 * 64 else v.toNat / 4 * 4) + mode)

/-- CSR n written with v. -/
def csrPut (n : Nat) (v : Word) (c : Csrs) : Csrs :=
  match n with
  | 0x300 => { c with mie := bitAt v 3, mpie := bitAt v 7, mppM := fld v 12 11 == 3, mprv := bitAt v 17 }
  | 0x304 => { c with msie := bitAt v 3, mtie := bitAt v 7, meie := bitAt v 11 }
  | 0x305 => { c with mtvec := mtvecPut c.mtvec v }
  | 0x306 => { c with mcounteren := fld v 2 0 }
  | 0x320 => { c with mcountinhibit := fld v 0 0 + 4 * fld v 2 2 }
  | 0x340 => { c with mscratch := v }
  | 0x341 => { c with mepc := v &&& 0xFFFFFFFE }
  | 0x342 => { c with mcause := v }
  | 0x343 => { c with mtval := v }
  | 0xB00 => { c with mcycle := c.mcycle / 2 ^ 32 * 2 ^ 32 + v.toNat }
  | 0xB02 => { c with minstret := c.minstret / 2 ^ 32 * 2 ^ 32 + v.toNat }
  | 0xB80 => { c with mcycle := c.mcycle % 2 ^ 32 + v.toNat * 2 ^ 32 }
  | 0xB82 => { c with minstret := c.minstret % 2 ^ 32 + v.toNat * 2 ^ 32 }
  | _ =>
    if 0x3A0 ≤ n && n ≤ 0x3A3 then
      { c with pmpcfg := (upto 4).foldl (fun g i => vmod g (4 * (n - 0x3A0) + i) fun o => cfgByte o (fld v (8 * i + 7) (8 * i))) c.pmpcfg }
    else if 0x3B0 ≤ n && n ≤ 0x3BF then
      (if addrLocked c (n - 0x3B0) then c else { c with pmpaddr := vset c.pmpaddr (n - 0x3B0) v })
    else c

/-- What a CSR instruction writes, where it writes. -/
def csrNew (op : RvCsr) (old v : Word) : Word :=
  match op with
  | .write => v
  | .set => old ||| v
  | .clear => old &&& ~~~v

/-- A CSR instruction of the core: illegal for a CSR that does not exist, a write of a read-only one, or a lack of
privilege. -/
def csrExec (b : BId) (op : RvCsr) (useImm : Bool) (rd rs1 n len : Nat) (s : State) : State :=
  let p := (s.at b).pl
  let writes := op == .write || rs1 != 0
  let v := if useImm then wordOf rs1 else getX p rs1
  let bad := (n / 256 % 4 != 0 && !p.machine) || (writes && n / 1024 == 3)
  match csrGet b p n with
  | some old =>
    if bad then raise b 2 0 s
    else s.updPl b fun p =>
      let q := retire len (setX rd old p)
      if writes then { q with csr := csrPut n (csrNew op old v) q.csr } else q
  | none => raise b 2 0 s

/-- CSR_ACCESS (R363): the instruction at the pc is a CSR instruction. -/
def csrAccess (b : BId) (s : State) : State :=
  if !coreReady s b then s
  else match fetch (s.at b) b with
    | .op (.csr op useImm rd rs1 n) len => csrExec b op useImm rd rs1 n len (awake b s)
    | _ => s

def execCsrAccess (b : BId) (s : State) : Host.Outcome State Fault Refusal := ran s (csrAccess b s.begin)

/-- A remote write of berth b's pilot that its target has not acknowledged: it waits for its reply, or has timed out and may still
be carried out (R22, R23). -/
def unacked (s : State) (b : BId) : Bool :=
  let y := (s.at b).sy
  (y.remotes ++ y.timedOut).any fun r => r.write && r.req == (pilotWho b).req

/-- FENCE (R23): it completes once no earlier remote write is unacknowledged. -/
def fenceOp (b : BId) (s : State) : State :=
  if !coreReady s b || unacked s b then s
  else match fetch (s.at b) b with
    | .op .fence len => (awake b s).updPl b (retire len)
    | _ => s

def execFence (b : BId) (s : State) : Host.Outcome State Fault Refusal := ran s (fenceOp b s.begin)

/-- WFI (R362): the core stalls until an enabled interrupt is pending. -/
def wfiOp (b : BId) (s : State) : State :=
  if !coreReady s b then s
  else match fetch (s.at b) b with
    | .op .wfi len => s.updPl b fun p => { retire len p with waiting := (pendingIrq p).isNone }
    | _ => s

def execWfi (b : BId) (s : State) : Host.Outcome State Fault Refusal := ran s (wfiOp b s.begin)

/-- WFI_TIMEOUT (R362): after at most 1 ms the core goes on. -/
def wfiTimeout (b : BId) (s : State) : State := if (s.at b).pl.st == .running && !s.dev.sleep then awake b s else s

def execWfiTimeout (b : BId) (s : State) : Host.Outcome State Fault Refusal := ran s (wfiTimeout b s.begin)

/-- INTERRUPT_TAKEN (R366). -/
def interruptTaken (b : BId) (s : State) : State :=
  let p := (s.at b).pl
  match pendingIrq p with
  | some k => if coreReady s b && (!p.machine || p.csr.mie) then s.updPl b (trap true k 0) else s
  | none => s

def execInterruptTaken (b : BId) (s : State) : Host.Outcome State Fault Refusal := ran s (interruptTaken b s.begin)

/-- MTIMECMP_MATCH (R366): PL_MTIME has reached PL_MTIMECMP; MTIP ends a WFI that it is enabled for. -/
def mtimecmpMatch (b : BId) (s : State) : State :=
  let p := (s.at b).pl
  if p.st == .running && !s.dev.sleep && decide (p.mtimecmp ≤ p.mtime) && p.csr.mtie then awake b s else s

def execMtimecmpMatch (b : BId) (s : State) : Host.Outcome State Fault Refusal := ran s (mtimecmpMatch b s.begin)

/-! ### Remote accesses (R22, R23) -/

/-- The pilot's access r ends: its load completes, or it takes an access fault with r's instruction as mepc. -/
def remoteEnd (b : BId) (r : Remote) (res : Except Nat Word) (s : State) : State :=
  match res with
  | .ok w => if r.write then s else s.updPl b fun p => retire r.len (setX r.rd (loadValue r.size r.signed w) p)
  | .error _ => s.updPl b fun p => trap false (if r.write then 7 else 5) (wordOf r.addr) { p with pc := r.pc }

/-- REMOTE_REPLY_RECEIVE (R22, R23): `late` none: the oldest outstanding access of berth b's pilot to berth t is carried out and its
reply completes it. With some requester: the oldest of its accesses from berth b to berth t that timed out reaches t after all, and
its reply is discarded. -/
def remoteReply (b t : BId) (late : Option ReqId) (s : State) : State :=
  match late with
  | some req =>
    match (s.at b).sy.timedOut.find? fun r => r.req == req && lateTarget s b r == some t with
    | some r => accessSend 101 t b (carryOut b r (updSnap b (fun y => { y with timedOut := y.timedOut.erase r }) s)).2
    | none => s
  | none =>
    match (s.at b).sy.remotes.find? fun r => lateTarget s b r == some t with
    | some r =>
      let c := carryOut b r (updSnap b (fun y => { y with remotes := y.remotes.erase r }) (dropLate b r.req t s))
      remoteEnd b r c.1 (accessSend 101 t b c.2)
    | none => s

def execRemoteReplyReceive (b t : BId) (late : Option ReqId) (s : State) : Host.Outcome State Fault Refusal :=
  ran s (remoteReply b t late s.begin)

/-- An access completes with RING_TIMEOUT: recorded at the requester's own berth, and kept, as it may reach its target yet. -/
def timeOut (b : BId) (rs : List Remote) (s : State) : State :=
  match rs with
  | [] => s
  | r :: _ =>
    match whoOf r.req b with
    | some w => updSnap b (fun y => { y with timedOut := y.timedOut ++ rs }) (recordErr b 5 w r.write r.addr s)
    | none => s

/-- The running burst of engine e as remote accesses of its words: the writes of a known source, or the reads. -/
def burstRemotes (b : BId) (e : Nat) (s : State) : List Remote :=
  let d := dmaOf s b e
  let i := d.cur
  let n := burstLen d i / 4
  let src := (descW d i 1).toNat + dResume d i
  let dst := (descW d i 2).toNat + dResume d i
  let far (a : Nat) : Bool := isRemote s (dmaWho b) a
  let mk (wr : Bool) (a : Nat) (v : Word) : Remote := { req := 8, addr := a, size := 4, write := wr, data := v }
  if dOp d i == 1 && far src then (upto n).map fun k => mk false (src + 4 * k) 0
  else if far dst then
    match (burstWords b e s).1 with
    | .ok bs => (upto n).map fun k => mk true (dst + 4 * k) (wordAt bs (4 * k))
    | .error _ => []
  else []

/-- RING_TIMEOUT (R22): no reply within 10 µs to an access of berth b: the oldest of its pilot to berth t, the running burst of one of
its DMA engines, or, where b is the harbour, an access of the harbour command engine. -/
def ringTimeout (b t : BId) (who : LateAccess) (s : State) : State :=
  match who with
  | .pilot =>
    match (s.at b).sy.remotes.find? fun r => lateTarget s b r == some t with
    | some r => remoteEnd b r (.error 5) (timeOut b [r] (updSnap b (fun y => { y with remotes := y.remotes.erase r }) s))
    | none => s
  | .dma e =>
    let rs := burstRemotes b e.val s
    if bursting (dmaOf s b e.val) && !s.dev.sleep && !rs.isEmpty then dmaFault b e.val 5 5 0 (timeOut b rs s) else s
  | .engine write addr data =>
    if s.isHbr b && isRemote s (hostWho 11) addr.toNat then
      timeOut b [{ req := 11, addr := addr.toNat, size := 4, write := write, data := data }] s
    else s

def execRingTimeout (b t : BId) (who : LateAccess) (s : State) : Host.Outcome State Fault Refusal :=
  ran s (ringTimeout b t who s.begin)

end Sys2Proof.Machine
end

