-- ==== Sys2Proof/Machine/PowerMark.lean ====
section
/-! DEFINITION. What the power block does at mark boundaries: the load-step window, slot marks, shedding, mark averages and
the throttle ledger (R175, R178, R181, R182, R193, R200, R201, R204 to R206). -/
namespace Sys2Proof.Machine

/-! ### The load-step window (R67, R175, R178) -/

/-- The running mark is slot n's mark of a load-step window (R193). -/
def atSlotMark (t : Td) (n : Nat) : Bool := windowPos t == some (n * stepWidth t / 8)

/-- Whether the running mark lies in a load-step window (R67). -/
def inStepWindow (t : Td) : Bool := (windowPos t).isSome

/-- Slots in rotating order. -/
def rotOrder (s : State) (h : BId) : List BId := (upto 8).map fun i => bid ((s.at h).tray.pw.rot + i)

/-- The window's running figures: slots admitted, the sum of grants with the increases so far, and what is left of the
tray-wide increase. -/
structure Win where
  fresh : List BId := []
  total : Nat
  avail : Nat

/-- The harbour considers one WAITING slot (R175). -/
def admitOne (h n : BId) (ws : Win × State) : Win × State :=
  let w := ws.1
  let p := (ws.2.at h).tray.pw
  let g := grantMin (ws.2.at h) n.val
  if vget p.admis n.val == .waiting && w.total + g ≤ p.budget && (w.fresh.isEmpty || w.avail ≥ g) then
    ({ fresh := w.fresh ++ [n], total := w.total + g, avail := if w.fresh.isEmpty then w.avail else w.avail - g },
      (setAdmit n .admitted ws.2).updTray h fun t => { t with pw := { t.pw with newGrant := vset t.pw.newGrant n.val (some g) } })
  else ws

/-- The target of R178 for slot n: a disputed slot's is limited to its grant (R355). -/
def grantTarget (s : State) (h n : BId) (grant : Nat) : Nat :=
  let x := s.at h
  let t := min (max (vget x.tray.pw.grantReq n.val) (grantMin x n.val)) (grantMax x n.val)
  if (vget x.tray.slots n.val).units != 0 then min t (max grant (grantMin x n.val)) else t

/-- The harbour computes one admitted slot's new grant (R178). A slot admitted in this window counts as admitted at GRANT_MIN, so that it
may rise above it in the same window, where R175 says GRANT_MIN at the slot mark (DESIGN CHOICE, notes entry 84). -/
def grantOne (h n : BId) (ws : Win × State) : Win × State :=
  let w := ws.1
  let x := ws.2.at h
  let p := x.tray.pw
  if vget p.admis n.val != .admitted then ws
  else
    let g := if w.fresh.contains n then grantMin x n.val else vget p.grant n.val
    let t := grantTarget ws.2 h n g
    let m := stepMax x n.val
    let clamped := vget p.grantReq n.val > grantMax x n.val || t > g + m || t + m < g
    let up := min (min (min (t - g) m) w.avail) (p.budget - w.total)
    let v := if t ≥ g then g + up else g - min (g - t) m
    let s := ws.2.updTray h fun y => { y with pw := { y.pw with
      newGrant := vset y.pw.newGrant n.val (some v), lastReq := vset y.pw.lastReq n.val (vget p.grantReq n.val)
      clamped := vset y.pw.clamped n.val clamped } }
    let s := s.updPw n fun q => { q with grantClamped := clamped }
    ({ w with total := w.total + (v - g), avail := w.avail - (v - g) }, s)

/-- LOAD_STEP_WINDOW_OPEN (R175, R178): admissions, then new grants. -/
def windowOpen (h : BId) (s : State) : State :=
  let p := (s.at h).tray.pw
  let s := s.updAll fun _ x => { x with pw := { x.pw with grantClamped := false } }
  let s := s.updTray h fun t => { t with pw := { t.pw with clamped := .replicate 8 false } }
  let w : Win := { total := grantSum (s.at h).tray, avail := p.trayStep }
  let a := (rotOrder s h).foldl (fun ws n => admitOne h n ws) (w, s)
  ((rotOrder s h).foldl (fun ws n => grantOne h n ws) a).2

/-- The grant that slot n takes at its mark: the one computed at the window's opening, or what a budget written since leaves of it
(R174). A fresh slot that no longer fits has none. -/
def grantNow (h n : BId) (g : Nat) (s : State) : Option Nat :=
  let t := (s.at h).tray
  let cur := vget t.pw.grant n.val
  let v := min g (cur + (t.pw.budget - grantSum t))
  if g ≤ cur then some g else if cur == 0 && v < grantMin (s.at h) n.val then none else some v

/-- New grants take effect at each slot's mark (R178, R193); a fresh slot that no longer fits waits again. -/
def grantsApply (h : BId) (s : State) : State :=
  iter allB (fun n t =>
    match vget (t.at h).tray.pw.newGrant n.val with
    | some g =>
      if !atSlotMark (tdOf t h) n.val then t
      else
        let u := t.updTray h fun y => { y with pw := { y.pw with newGrant := vset y.pw.newGrant n.val none } }
        match grantNow h n g t with
        | some v => setGrant n v u
        | none => setAdmit n .waiting u
    | none => t) s

/-- PW_TRAY_STAT.ROT goes on by a slot at every mark 0 (R175). -/
def rotMark (h : BId) (s : State) : State :=
  if (tdOf s h).mark != 0 then s
  else s.updTray h fun t => { t with pw := { t.pw with rot := (t.pw.rot + 1) % 8 } }

/-! ### Slot marks (R193) -/

/-- One partition at its slot's mark: a lowering, or a raise whose target voltage has settled. -/
def partMark (b : BId) (k : Nat) (s : State) : State :=
  let x := s.at b
  let p := partOf s b k
  let e := effective x b.val k
  if !partUsed x b.val k || !p.ready then s
  else if e < p.applied then retarget b k (orderStep b k e s)
  else if e > p.applied && p.raiseTo == some (voltageStep x b.val k) && p.settled && !p.writing && p.settling.isNone
      && p.orderPend.isNone then
    retarget b k (orderStep b k (voltageStep x b.val k) s)
  else s

/-- SLOT_MARK (R193) on berth b. -/
def slotMarkActs (b : BId) (s : State) : State :=
  iter (upto 4) (partMark b) (s.updPw b fun p => { p with cutSince := false })

/-! ### Shedding and tray power (R181, R182) -/

/-- The slot to shed (R181). -/
def shedChoice (p : TrayPw) : Option BId :=
  match allB.find? fun n => vget p.admis n.val == .unadmitted with
  | some n => some n
  | none => allB.reverse.find? fun n => vget p.admis n.val == .admitted

/-- SHED (R181): the grants exceed the budget and no shed is in progress. -/
def shedTest (h : BId) (s : State) : State :=
  let p := (s.at h).tray.pw
  if grantSum (s.at h).tray ≤ p.budget || p.shedSlot.isSome then s
  else match shedChoice p with
    | none => s
    | some n =>
      let s := logRec h 0x23 (pack [(n.val, 0, 3), (b2n (vget p.admis n.val == .unadmitted), 3, 1)]) (wordOf p.budget)
        (wordOf (grantSum (s.at h).tray)) s
      let s := attn 2 (s.updTray h fun t => { t with pw := { t.pw with shedCnt := sinc t.pw.shedCnt } })
      if downish (s.at n).rl.slot then withdraw n false s
      else
        let s := s.updTray h fun t => { t with pw := { t.pw with shedSlot := some n, shed := vset t.pw.shed n.val true } }
        shutdown n false 0x10 15 (s.updPw n fun q => { q with shedding := true })

/-- The run of boundaries over the budget at the floor (R182). -/
def floorTest (s : State) : State :=
  let above := overAtFloor s
  s.onTray fun t => { t with pw := { t.pw with
    floorRun := if above then t.pw.floorRun + 1 else 0, floorOver := t.pw.floorOver && above } }

/-! ### Mark averages and the loops' counts (R198, R200, R201) -/

/-- MARK_AVERAGE_SEND (R200): the mark's average, and the counts of the loops. -/
def averageSend (b : BId) (s : State) : State :=
  let avg := min (markAverage (s.at b).pw) 65535
  let above := overGrant (s.at b).pw
  let under := underGrant (s.at b).pw
  let clear : Vector Nat 24 := Vector.ofFn fun i => if readsClear s b i.val then vget (s.at b).pw.clear i.val + 1 else 0
  let s := s.updPw b fun p => { p with
    avg := avg, peak := max p.peak avg, estSum := 0, estCnt := 0
    overRun := if !p.ogDone && above then p.overRun + 1 else 0
    underRun := if !p.ogDone && under then p.underRun + 1 else 0
    ogDone := false, bnd := p.bnd + 1, clear := clear }
  let s := s.upd b fun x => { x with hl := { x.hl with peak := max x.hl.peak avg } }
  if s.isHbr b then markAverageReceive b avg s else ringSend b (some (s.at b).sy.harbour) (.markAverage avg) s

/-! ### The throttle ledger (R204 to R206) -/

/-- Whether a cap is charged: below REQ, and the effective step. -/
def capCharged (x : Berth) (slot k cap : Nat) : Bool := cap < reqOf x slot k && cap == effective x slot k

/-- Whether reason r is charged to partition k (R204). -/
def partCharged (x : Berth) (slot k r : Nat) : Bool :=
  let p := vget x.pw.parts k
  partUsed x slot k && match r with
    | 1 => capCharged x slot k p.sBw
    | 2 => coreLimited x slot k
    | 3 => capCharged x slot k p.sTherm
    | 4 => capCharged x slot k p.sCurr
    | 5 => !p.pwrBudget && capCharged x slot k p.sPwr
    | 6 => p.pwrBudget && capCharged x slot k p.sPwr
    | 7 => p.applied < effective x slot k
    | 8 => capCharged x slot k p.sPin
    | 9 => anyDisputed x && p.applied < reqOf x slot k
    | _ => false

/-- The partitions charged with reason r; a reason of the slot as a whole is recorded for all four. -/
def chargedParts (x : Berth) (slot r : Nat) : Nat :=
  let whole := match r with
    | 1 => x.pw.grantClamped && inStepWindow x.td
    | 10 => x.pw.trumped
    | 11 => x.pw.shedding
    | _ => false
  if whole then 15 else maskOf 4 fun k => partCharged x slot k r

/-- Applied steps by partition. -/
def appliedSteps (p : Pw) : Vector Nat 4 := Vector.ofFn fun k => (vget p.parts k.val).applied

/-- Opens an entry of reason r in the next ring position (R206). -/
def ledgerOpen (x : Berth) (r parts : Nat) (l : Ledger) : Ledger :=
  let e : LedgerEnt := { reason := r, parts := parts, stepFrom := Vector.ofFn fun k => (vget x.pw.parts k.val).lastApplied
                         stepTo := appliedSteps x.pw, isOpen := true, tide := x.td.tide, mark := x.td.mark, dur := 1 }
  { l with ent := vset l.ent l.next e, next := (l.next + 1) % 32
           overwrites := if (vget l.ent l.next).reason == 0 then l.overwrites else min (l.overwrites + 1) 0xFFFF }

/-- A further boundary of the open entry of reason r. -/
def ledgerMore (x : Berth) (r parts : Nat) (l : Ledger) : Ledger :=
  match openEntry l r with
  | none => l
  | some i => { l with ent := vmod l.ent i fun e => { e with
      parts := e.parts ||| parts, dur := sinc e.dur
      stepTo := Vector.ofFn fun k => min (vget e.stepTo k.val) (vget x.pw.parts k.val).applied } }

/-- Reason r at a boundary (R205, R206). -/
def ledgerReason (b : BId) (r : Nat) (s : State) : State :=
  let x := s.at b
  let parts := chargedParts x b.val r
  let was := nbit x.pw.ledger.act r
  if parts == 0 then
    if was then ledgerClose b r (s.updPw b fun p => { p with ledger := { p.ledger with act := p.ledger.act - 2 ^ r } }) else s
  else
    s.updPw b fun p =>
      let l := if was then ledgerMore x r parts p.ledger else ledgerOpen x r parts p.ledger
      { p with ledger := { l with act := l.act ||| 2 ^ r, sum := vmod l.sum r sinc } }

/-- LEDGER_EVALUATION (R205). -/
def ledgerEval (b : BId) (s : State) : State :=
  let on := match (s.at b).rl.slot with
    | .powering | .up | .shutting => true
    | _ => false
  let s := if on then iter ((upto 11).map (· + 1)) (ledgerReason b) s else s
  s.updPw b fun p => { p with parts := p.parts.map fun q => { q with lastApplied := q.applied } }

end Sys2Proof.Machine
end

