-- ==== Sys2Proof/Machine/Sounding.lean ====
section
/-! DEFINITION. Soundings: capture, delivery, and the SOUNDING attention (R463–R469). -/
namespace Sys2Proof.Machine

/-- The RET word of berth b (R465), from its units as they stand. -/
def retNow (s : State) (b : BId) : Word :=
  let u (kind i : Nat) : Bool := unitRetired s b b kind i
  wordOf (maskOf 25 fun i =>
    if i == 0 then u 4 0 else if i < 3 then u 5 (i - 1) else if i < 6 then u 6 (i - 3) else if i < 8 then u 7 (i - 6)
    else if i == 8 then u 12 0 else if i < 11 then u 10 (i - 9) else if i < 19 then u 9 (i - 11)
    else if i < 23 then u 1 (i - 19) else if i == 23 then u 2 0 else u 11 0)

/-- A counter as a DELTA source: its value, and the value at which it saturates; 0 for one that wraps at 2³² (R42). -/
abbrev DeltaCtr := Nat × Nat

/-- The 20 DELTA sources of R465, in the order of their bytes. -/
def deltaSources (s : State) (b : BId) : List (List DeltaCtr) :=
  let x := s.at b
  let c (n : Nat) : DeltaCtr := (n, 0xFFFFFFFF)
  let ch (f : Cool → Nat) : List DeltaCtr := x.cl.ch.toList.map fun k => c (f k)
  let ar (f : Arr → Nat) : List DeltaCtr := x.ar.arr.toList.map fun a => c (f a)
  [ [c x.rl.faultShut], x.rl.evt.toList.flatMap (fun e => [(e.low, 255), (e.high, 255)]),
    ch (·.stallCnt), ch (·.encErr) ++ ch (·.idxErr),
    [c x.hw.cnt.retrains], [c x.hw.cnt.crcErr], [c x.hw.cnt.timeouts], x.dm.toList.map (fun d => c d.faults),
    ar (·.mismatch), ar (·.colEvt), ar (·.calFail), x.pw.avs.toList.map (fun a => c a.fail),
    x.pg.graph.toList.map (fun g => c g.incomplete), x.pg.clamp.toList.map c, [c x.pl.restarts], [c x.log.drop],
    [(x.sy.ringRetry % 2 ^ 32, 0)], [c x.sy.clkSwitch], [c x.td.resync], [c x.svc.disputes] ]

/-- The increase of a counter since its previous capture; a saturated counter contributes 0 (R465). -/
def deltaOf (cur : DeltaCtr) (prev : Nat) : Nat :=
  if cur.2 == 0 then (cur.1 + 2 ^ 32 - prev) % 2 ^ 32 else if cur.1 ≥ cur.2 then 0 else cur.1 - prev

/-- The DELTA bytes: one per source, from the values of the previous capture. -/
def deltaBytes : List (List DeltaCtr) → List Nat → List Byte
  | [], _ => []
  | src :: rest, prev =>
    let inc := (upto src.length).foldl (fun n i => n + deltaOf ((src[i]?).getD (0, 1)) ((prev[i]?).getD 0)) 0
    BitVec.ofNat 8 (min inc 255) :: deltaBytes rest (prev.drop src.length)

/-- Puts an open entry into its place: descending DURATION, then ascending REASON (R466). -/
def insOpen (e : LedgerEnt) : List LedgerEnt → List LedgerEnt
  | [] => [e]
  | f :: fs => if e.dur > f.dur || (e.dur == f.dur && e.reason < f.reason) then e :: f :: fs else f :: insOpen e fs

/-- The open entries of a ledger, in the order of R466. -/
def openEntries (l : Ledger) : List LedgerEnt :=
  (l.ent.toList.filter (·.isOpen)).foldl (fun acc e => insOpen e acc) []

/-- A register of berth b's window as a little-endian word. -/
def regBytes (s : State) (b : BId) (blk off : Nat) : List Byte := leBytes 4 ((liveReg s b false 0 blk off).getD 0).toNat

def packBytes (fs : List (Nat × Nat × Nat)) : List Byte := leBytes 4 (pack fs).toNat

/-- Bytes 0xB0 to 0xEF: the committed annex, or zeros (R467). -/
def annexBytes (h : Hl) : List Byte :=
  let n := if h.annexCommit then h.annexLen else 0
  (wordsBytes h.annex.toList).take n ++ List.replicate (64 - n) 0

/-- The sounding of berth b without its CRC: bytes 0x00 to 0xFB (R464). -/
def soundingBody (s : State) (b : BId) : List Byte :=
  let x := s.at b
  let n := b.val
  let es := openEntries x.pw.ledger
  let part (f : Nat → Nat) : List Byte := (upto 4).map fun k => BitVec.ofNat 8 (f k)
  let opens := (es.take 4).flatMap fun e => leBytes 4 (ledgerW0 e).toNat ++ leBytes 4 e.dur
  let retCols := (upto 8).foldl (fun a k => a + ((upto 160).filter fun c => (vget x.ar.arr k).ret.getLsbD c).length) 0
  let speed (c : Nat) : Nat := fld ((readCl s b (0x40 * c + 0x14)).getD 0) 15 0
  let duty (c : Nat) : Nat := fld ((readCl s b (0x40 * c + 0x10)).getD 0) 25 16
  leBytes 2 0x53D1 ++ [1, BitVec.ofNat 8 (n + 8 * b2n x.sy.isHarbour)] ++ leBytes 4 x.hl.sndSeq ++ leBytes 5 (s.hTide b)
    ++ [0, BitVec.ofNat 8 (if x.hl.annexCommit then x.hl.annexLen else 0),
        BitVec.ofNat 8 (b2n x.hl.annexCommit + 2 * b2n x.pw.partialPwr + 16 * es.length)]
    ++ regBytes s b 5 0x004 ++ regBytes s b 4 0x208 ++ regBytes s b 4 0x010
    ++ packBytes [(berthCode x.sy.st, 0, 4), (pilotCode x.pl.st, 4, 2), (dmaCode (dmaOf s b 0).st, 6, 2),
        (dmaCode (dmaOf s b 1).st, 8, 2), (maskOf 5 (fun u => (vget x.svc.disp u).disputed), 10, 5), (admitCode x.pw.admis, 16, 2)]
    ++ packBytes [(vget s.tray.pw.grant n, 0, 16), (x.pw.avg, 16, 16)] ++ packBytes [(x.hl.peak, 0, 16)]
    ++ part (fun k => (vget x.pw.parts k).applied) ++ part (fun k => effective x n k)
    ++ (upto 11).flatMap (fun r => leBytes 4 (vget x.pw.ledger.sum (r + 1))) ++ leBytes 4 x.pw.ledger.act
    ++ opens ++ List.replicate (32 - opens.length) 0 ++ leBytes 4 (retNow s b).toNat
    ++ packBytes [(retCols, 0, 11), (fld x.svc.cores 31 22, 11, 10), (fld x.svc.cores 10 0, 21, 11)]
    ++ deltaBytes (deltaSources s b) x.hl.prev
    ++ packBytes [(speed 0, 0, 16), (speed 1, 16, 16)] ++ packBytes [(speed 2, 0, 16)]
    ++ packBytes [(duty 0, 0, 10), (duty 1, 10, 10), (duty 2, 20, 10)]
    ++ regBytes s b 8 0x00C ++ leBytes 4 0 ++ annexBytes x.hl ++ List.replicate 12 0

/-- The sealed sounding: 256 bytes with the CRC last. -/
def soundingBytes (s : State) (b : BId) : List Byte :=
  let body := soundingBody s b
  body ++ leBytes 4 (crc32 body).toNat

def updHlB (b : BId) (f : Hl → Hl) (s : State) : State := s.upd b fun x => { x with hl := f x.hl }

/-- The sounding is dropped and counted at berth b (R468). -/
def soundDrop (b : BId) (s : State) : State := updHlB b (fun h => { h with sndDrop := sinc h.sndDrop }) s

/-- The harbour h stores a sounding that has arrived, sends it on as telemetry, and marks it (R468). -/
def soundStore (h n : BId) (bytes : List Byte) (s : State) : State :=
  let s := telemetry 2 bytes (updHl h (fun t => { t with snd := vset t.snd n.val bytes }) s)
  updHl h (fun t => { t with arrived := t.arrived ||| 2 ^ n.val }) s

/-- SOUNDING_ARRIVE (R468): the sounding of berth n reaches the harbour h; one of a moored berth needs a buffer there. -/
def soundingArrive (h n : BId) (bytes : List Byte) (s : State) : State :=
  if !s.isHbr h then s
  else if (s.at n).sy.st == .moored then
    match deckAlloc h 3 false s with
    | (some g, t) => deckRelease g (soundStore h n bytes t)
    | (none, t) => ringSend h (some n) .dropNotice t
  else soundStore h n bytes s

def execSoundingArrive (h n : BId) (bytes : List Byte) (s : State) : Host.Outcome State Fault Refusal :=
  ran s (soundingArrive h n bytes s.begin)

/-- SOUNDING_DROP_NOTICE (R468): a moored berth counts the dropped sounding. -/
def execSoundingDropNotice (b : BId) (s : State) : Host.Outcome State Fault Refusal :=
  ran s (if (s.at b).sy.st == .moored then soundDrop b s.begin else s.begin)

/-- A berth's sounding leaves for the harbour: from a buffer of its log-writer hand, or, moored, as flits (R468). -/
def soundSend (h b : BId) (bytes : List Byte) (s : State) : State :=
  let away (t : State) : State :=
    if b == h then soundingArrive h b bytes t else ringSend b (some h) (.sounding bytes) t
  if (s.at b).sy.st == .moored then away s
  else match deckAlloc b 3 false s with
    | (some g, t) => deckRelease g (away t)
    | (none, t) => soundDrop b t

/-- The boundary at which it is counted opens a round: mark 0 of a tide that CADENCE divides, with EN and the chart LOCKED
(R463). -/
def soundingDue (s : State) (h b : BId) : Bool :=
  let cfg := (hlOf s h).cfg
  (s.at h).ch.locked && bitAt cfg 16 && (s.at b).td.mark == 0 && (s.at b).td.tide % max 1 (fld cfg 15 0) == 0

/-- The harbour opens a round: the berths expected (R468). -/
def soundingRound (h : BId) (s : State) : State :=
  if soundingDue s h h then
    updHl h (fun t => { t with
      expect := maskOf 8 fun n => (s.at (bid n)).sy.st == .active || (s.at (bid n)).sy.st == .moored, arrived := 0, attnDone := false }) s
  else s

/-- The capture of berth b at its mark boundary (R463): the sounding is sealed and sent, and the capture's own records start
afresh. -/
def soundingMark (b : BId) (s : State) : State :=
  match s.harbour with
  | none => s
  | some h =>
    if !soundingDue s h b || !((s.at b).sy.st == .active || (s.at b).sy.st == .moored) then s
    else
      let bytes := soundingBytes s b
      let prev := (deltaSources s b).flatMap fun src => src.map (·.1)
      let s := updHlB b (fun x => { x with
        sndSeq := (x.sndSeq + 1) % 2 ^ 32, peak := 0, prev := prev, annexCommit := false }) s
      soundSend h b bytes s

/-- The SOUNDING attention, once a round: all expected soundings have arrived, or mark 64 of the capture tide with any
arrived (R468). -/
def soundingAttn (h : BId) (s : State) : State :=
  let t := hlOf s h
  let d := (s.at h).td
  let late := d.mark == 64 && d.tide % max 1 (fld t.cfg 15 0) == 0
  if !t.attnDone && t.arrived != 0 && (t.arrived == t.expect || late) then
    attnAt h 8 (updHl h (fun t => { t with attnDone := true }) s)
  else s

end Sys2Proof.Machine
end

