-- ==== Sys2Proof/Machine/Mark.lean ====
section
/-! DEFINITION. The mark boundary of a berth: the acts of R65 in their order, and what every mark does besides. -/
namespace Sys2Proof.Machine

/-! ### What ends a mark -/

/-- The mark that ends is silent or not (R18); the report of an isolated berth that hears a heartbeat (R462). -/
def heartbeatCount (b : BId) (s : State) : State :=
  let y := syOf s b
  let s := if y.st == .isolated && y.heard then ringSend b (some y.harbour) .isolatedReport s else s
  if s.isHbr b then updSy b (fun y => { y with silentMarks := 0, heard := false }) s
  else updSy b (fun y => { y with silentMarks := if y.heard then 0 else y.silentMarks + 1, heard := false }) s

/-- Silent berths that berth b still sees are reported again (R25). -/
def silentRepeat (b : BId) (s : State) : State :=
  iter (allB.filter fun n => nbit (syOf s b).silentSeen n.val && !nbit (hlOf s (syOf s b).harbour).retired n.val)
    (fun n t => ringSend b (some (syOf t b).harbour) (.silentBerth n) t) s

/-- HOST_ACT_SEND (R225): the harbour tells every berth of host activity in the mark that ends. -/
def hostActSend (h : BId) (s : State) : State :=
  if (syOf s h).hostAct then hostActNotice h (ringSend h none .hostAct (updSy h (fun y => { y with hostAct := false }) s)) else s

/-- What a berth sends at every boundary: its part-filled log buffer while its writer runs (R165), its mark average (R200) while its
power loops run, which on an ISOLATED berth is until its slot is down (R203), and, ACTIVE, its slot flit (R357). -/
def activeSends (b : BId) (s : State) : State :=
  let st := (syOf s b).st
  let s := logSend b s
  let s := if st == .active || (st == .isolated && !downish (s.at b).rl.slot) then averageSend b s else s
  if st == .active then ringSend b none (.slotFlit (slotFlit (s.at b))) s else s

/-- The counts that every boundary advances: rotating priority (R387), the report period (R354). -/
def boundaryCounts (b : BId) (s : State) : State :=
  (s.updDk b fun d => { d with rot := d.rot + 1 }).updSvc b fun v => { v with pollMarks := v.pollMarks + 1 }

/-- The acts of a boundary that do not belong to a scheduled mark. -/
def boundaryOnce (b : BId) (s : State) : State :=
  let s := portsJoin b (silentRepeat b (heartbeatCount b (boundaryCounts b s)))
  let s := if s.isHbr b then soundingAttn b (hostActSend b s) else s
  irq b 0 (activeSends b s)

/-! ### The snapshot freeze (R44, R469) -/

/-- SNAPSHOT_FREEZE: an armed berth freezes its counters, under a tray-wide TAKE at the one boundary that every berth counts as the
next after it; a tray-wide snapshot's BERTHS are kept by the harbour. -/
def snapFreeze (b : BId) (s : State) : State :=
  if !(syOf s b).snapPend || markCount (tdOf s b) < (syOf s b).snapAt.getD 0 then s
  else
    let set := frozenSet s b
    let t := tdOf s b
    let s := updSy b (fun y => { y with
      snapPend := false, snapAt := none, snapFrozen := true, frozen := set, snapMark := t.mark, snapTide := t.tide }) s
    let s := match s.harbour with
      | some h => if (syOf s h).snapTray then updSy h (fun y => { y with snapBerths := y.snapBerths ||| 2 ^ b.val }) s else s
      | none => s
    let s := if s.isHbr b then updHl b (fun t => { t with frozen := t.snd }) s else s
    irq b 15 s

/-! ### The harbour's acts -/

/-- The harbour releases isolated berths that have reported (R462) and admits berths that have trained alone (R131, R461). -/
def harbourAdmits (h : BId) (s : State) : State :=
  let rel := (s.at h).tray.release
  let s := s.updTray h fun t => { t with release := 0 }
  let s := iter (allB.filter fun n => nbit rel n.val) (fun n t => ringSend h (some n) .releaseOrder t) s
  iter allB (fun n t => admitBerth h n t) s

/-- The load-step window's acts on the harbour (R67, R175, R178, R181, R182), once the chart is LOCKED. -/
def harbourPower (h : BId) (s : State) : State :=
  if !(s.at h).ch.locked then s
  else
    let t := tdOf s h
    let s := if windowPos t == some 0 then windowOpen h s else s
    floorTest (shedTest h (grantsApply h s))

/-- The harbour's heartbeat and state copy (R18, R59), which come before the bypass switch of a retiring berth (R65). -/
def harbourActs (h : BId) (s : State) : State := if s.isHbr h then stateCopy h (sendTide h (harbourAdmits h s)) else s

/-- The harbour's acts of the load-step window, which come after it. -/
def harbourWindow (h : BId) (s : State) : State := if s.isHbr h then harbourPower h (rotMark h s) else s

/-! ### Arrays (R260, R263) -/

/-- A run of array k of berth b starts at mark m: an inference of a graph placed on it. -/
def runStarts (s : State) (b : BId) (k m : Nat) : Bool :=
  allB.any fun h => [0, 1].any fun g =>
    startsAt s h g m && (graphOf s h g).place.any fun p => p.berth == b && p.arr == k

/-- Array k at a boundary (R260, R263, R267). -/
def arrayMark (b : BId) (k : Nat) (s : State) : State :=
  let t := tdOf s b
  let x := s.at b
  let a := arrOf s b k
  let here := x.sy.st == .active
  let n := calTides x k
  let cal := here && (a.st == .valid || a.st == .degraded) && a.calMode && t.mark == 0 && n != 0 && t.tide % n == 0
  let idle := here && !s.dev.sleep && !runStarts s b k t.mark
  updArr b k (arrAtMark idle cal (x.ar.phase == .closeCal && x.ar.cmdArr == k) (!s.dev.sleep)) s

/-! ### The boundary -/

/-- The acts scheduled at one mark of berth b (R65), after the count has gone up; `s0` is the state before the boundary's acts, which
features are sampled from (R273). -/
def scheduledActs (s0 : State) (b : BId) (s : State) : State :=
  let t := tdOf s b
  let s := harbourWindow b (bypassSwitch b (harbourActs b s))
  let s := if t.mark == 0 then irq b 1 s else s
  let s := if (syOf s b).st == .active && atSlotMark t b.val then slotMarkActs b s else s
  let s := imagesMark b (t.mark == 0) (policyMark s0 b t.mark s)
  let s := iter (upto 8) (arrayMark b) s
  let s := ledgerEval b s
  let s := if s.isHbr b then soundingRound b s else s
  soundingMark b s

/-- The count of berth b goes up by a mark. -/
def countMark (b : BId) (s : State) : State := updTd b (countUp (s.isHbr b) (s.at b).log.on) s

/-- A further mark goes by on berth b: the count, then the mark's acts. -/
def oneMark (b : BId) (s : State) : State := scheduledActs s b (countMark b s)

def manyMarks (b : BId) : Nat → State → State
  | 0, s => s
  | k + 1, s => manyMarks b k (oneMark b s)

/-- The marks that a boundary passes: one, or, where the berth loads the harbour's count, all up to that (R61, R62). -/
def marksPassed (t : Td) : Nat :=
  match t.load with
  | some (tide, mark) => max 1 ((tide * 256 + mark) - markCount t)
  | none => 1

/-- MARK_BOUNDARY (R65): a generator that does not run, or is held (R61), ends no mark. -/
def markBoundary (b : BId) (s : State) : State :=
  let t := tdOf s b
  if !t.running || t.held then s
  else
    let n := marksPassed t
    let s0 := s
    let s := snapFreeze b (countMark b (updTd b (fun t => { t with load := none }) s))
    let s := scheduledActs s0 b (boundaryOnce b s)
    updTd b (beginMark s.now) (manyMarks b (n - 1) s)

def execMarkBoundary (b : BId) (s : State) : Host.Outcome State Fault Refusal := ran s (markBoundary b s.begin)

end Sys2Proof.Machine
end

