-- ==== Sys2Proof/Machine/Orders.lean ====
section
/-! DEFINITION. Orders and reads that a requester makes through a register of their own: the access first passes the tests of
R39, as every access does, and then the register's rule acts. -/
namespace Sys2Proof.Machine

/-- The address of a register, 0x1000 × block + offset, in berth n's window or in the tray-wide space (R36). -/
def regAddr (n : Option BId) (off : Nat) : Nat :=
  match n with
  | some b => 0x40F00000 + 0x1000000 * b.val + off
  | none => 0x30F00000 + off

/-- A write of a register that acts by a rule of its own: nothing but a record where the access fails (R39). -/
def viaBus (req : ReqId) (n : Option BId) (off : Nat) (act : State → State) (s : State) : State :=
  match whoOf req (n.getD 0) with
  | none => s
  | some w =>
    match access s w true (regAddr n off) 4 with
    | .error (c, h) => recordErr h c w true (regAddr n off) s
    | .ok _ => hostDid req (act s)

/-- A read at an address that acts by a rule of its own; a failed read returns 0 (R39). -/
def readBus (req : ReqId) (own : BId) (a : Nat) (rd : State → Word × State) (s : State) : State :=
  match whoOf req own with
  | none => s
  | some w =>
    match access s w false a 4 with
    | .error (c, h) => (recordErr h c w false a s).emit (.value 0)
    | .ok _ => (hostDid req (rd s).2).emit (.value (rd s).1)

/-- RELOAD (R107). -/
def execReload (req : ReqId) (arg : Fin 16) (s : State) : Host.Outcome State Fault Refusal :=
  ran s (viaBus req none 0x2078 (chCmd 1 req arg.val 0) s.begin)

/-- REDISTRIBUTE (R100). -/
def execRedistribute (req : ReqId) (arg : Fin 16) (s : State) : Host.Outcome State Fault Refusal :=
  ran s (viaBus req none 0x2078 (chCmd 2 req arg.val 0) s.begin)

/-- COMMIT_RB (R104). -/
def execCommitRb (req : ReqId) (arg : Fin 16) (guard : BitVec 16) (s : State) : Host.Outcome State Fault Refusal :=
  ran s (viaBus req none 0x2078 (chCmd 3 req arg.val guard.toNat) s.begin)

/-- REVOKE_KEY (R106). -/
def execRevokeKey (req : ReqId) (arg : Fin 16) (guard : BitVec 16) (s : State) : Host.Outcome State Fault Refusal :=
  ran s (viaBus req none 0x2078 (chCmd 4 req arg.val guard.toNat) s.begin)

/-- PROG_KEY (R106). -/
def execProgKey (req : ReqId) (arg : Fin 16) (guard : BitVec 16) (s : State) : Host.Outcome State Fault Refusal :=
  ran s (viaBus req none 0x2078 (chCmd 5 req arg.val guard.toNat) s.begin)

/-- CONTROLLER_RESET (R119). -/
def execControllerReset (req : ReqId) (guard : BitVec 16) (s : State) : Host.Outcome State Fault Refusal :=
  ran s (viaBus req none 0x0090 (controllerReset req guard.toNat) s.begin)

/-- SLEEP (R115). -/
def execSleep (req : ReqId) (guard : BitVec 16) (s : State) : Host.Outcome State Fault Refusal :=
  ran s (viaBus req none 0x0090 (sleepOrder req guard.toNat) s.begin)

/-- POWER_UP (R141). -/
def execPowerUp (b : BId) (req : ReqId) (s : State) : Host.Outcome State Fault Refusal :=
  ran s (viaBus req (some b) 0x5000 (powerUp b req) s.begin)

/-- SHUTDOWN (R140). -/
def execShutdown (b : BId) (req : ReqId) (s : State) : Host.Outcome State Fault Refusal :=
  ran s (viaBus req (some b) 0x5000 (slotShutdown b req) s.begin)

/-- THRESHOLD_WRITE (R152). -/
def execThresholdWrite (b : BId) (req : ReqId) (i : Fin 24) (w : Word) (s : State) : Host.Outcome State Fault Refusal :=
  ran s (viaBus req (some b) (0x5080 + 4 * i.val) (thresholdWrite b req i.val w) s.begin)

/-- PW_BUDGET_WRITE (R173): requester and WATTS. -/
def execPwBudgetWrite (req : ReqId) (w : BitVec 16) (s : State) : Host.Outcome State Fault Refusal :=
  ran s (viaBus req none 0x6000 (budgetWrite req w.toNat) s.begin)

/-- ADMIT_REQ (R175). -/
def execAdmitReq (b : BId) (req : ReqId) (s : State) : Host.Outcome State Fault Refusal :=
  ran s (viaBus req (some b) 0x6100 (admitReq b req) s.begin)

/-- ADMIT_CANCEL (R177). -/
def execAdmitCancel (b : BId) (req : ReqId) (s : State) : Host.Outcome State Fault Refusal :=
  ran s (viaBus req (some b) 0x6100 (admitCancel b req) s.begin)

/-- DUTY_COMMAND_WRITE (R212): the word written to CL_DUTY[c]. -/
def execDutyCommandWrite (b : BId) (c : Fin 3) (req : ReqId) (w : Word) (s : State) : Host.Outcome State Fault Refusal :=
  ran s (viaBus req (some b) (0x700C + 0x40 * c.val) (dutyWrite b c.val req w) s.begin)

/-- LK_CLEAR (R233): the word written. -/
def execLkClear (b : BId) (req : ReqId) (w : Word) (s : State) : Host.Outcome State Fault Refusal :=
  ran s (viaBus req (some b) 0x8010 (lkClear b req w) s.begin)

/-- PROG (R250, R252): a write of AR_CMD in berth b's window. -/
def execProg (b : BId) (req : ReqId) (k : Fin 8) (first : Fin 256) (s : State) : Host.Outcome State Fault Refusal :=
  ran s (viaBus req (some b) 0x9020 (fun t => afterArray b (arOrder b req 1 k.val first.val t)) s.begin)

/-- VERIFY (R256). -/
def execVerify (b : BId) (req : ReqId) (k : Fin 8) (s : State) : Host.Outcome State Fault Refusal :=
  ran s (viaBus req (some b) 0x9020 (fun t => afterArray b (arOrder b req 2 k.val 0 t)) s.begin)

/-- REPAIR (R257). -/
def execRepair (b : BId) (req : ReqId) (k : Fin 8) (s : State) : Host.Outcome State Fault Refusal :=
  ran s (viaBus req (some b) 0x9020 (fun t => afterArray b (arOrder b req 3 k.val 0 t)) s.begin)

/-- CAL (R260). -/
def execCal (b : BId) (req : ReqId) (k : Fin 8) (s : State) : Host.Outcome State Fault Refusal :=
  ran s (viaBus req (some b) 0x9020 (fun t => afterArray b (arOrder b req 4 k.val 0 t)) s.begin)

/-- PASS (R250). -/
def execPass (b : BId) (req : ReqId) (k : Fin 8) (s : State) : Host.Outcome State Fault Refusal :=
  ran s (viaBus req (some b) 0x9020 (fun t => afterArray b (arOrder b req 5 k.val 0 t)) s.begin)

/-- ABORT (R255). -/
def execAbort (a : ArrayId) (req : ReqId) (s : State) : Host.Outcome State Fault Refusal :=
  ran s (viaBus req (some a.berth) 0x9020 (fun t => afterArray a.berth (arAbort a.berth req a.arr.val t)) s.begin)

/-- UNLOAD (R296). -/
def execUnload (h : BId) (req : ReqId) (g : Fin 2) (guard : BitVec 16) (s : State) : Host.Outcome State Fault Refusal :=
  ran s (viaBus req (some h) 0xA000 (unload h req g.val guard.toNat) s.begin)

/-- PROMOTE (R297). -/
def execPromote (h : BId) (req : ReqId) (guard : BitVec 16) (s : State) : Host.Outcome State Fault Refusal :=
  ran s (viaBus req (some h) 0xA000 (promote h req guard.toNat) s.begin)

/-- STATS_CLEAR (R296). -/
def execStatsClear (h : BId) (req : ReqId) (s : State) : Host.Outcome State Fault Refusal :=
  ran s (viaBus req (some h) 0xA000 (pgOrder h req 3 true 0 clearStats) s.begin)

/-- REPLACE (R293). -/
def execReplace (h : BId) (req : ReqId) (g : Fin 2) (s : State) : Host.Outcome State Fault Refusal :=
  ran s (viaBus req (some h) 0xA000 (replaceOrder h req g.val) s.begin)

/-- START (R330). -/
def execStart (b : BId) (req : ReqId) (s : State) : Host.Outcome State Fault Refusal :=
  ran s (viaBus req (some b) 0x4008 (hwStart b req) s.begin)

/-- STOP (R329): a stage or reset whose link is stopped fails with LINK (R348). -/
def execStop (b : BId) (req : ReqId) (s : State) : Host.Outcome State Fault Refusal :=
  ran s (viaBus req (some b) 0x4008 (hwStop b req) s.begin)

/-- RETRAIN (R327). -/
def execRetrain (b : BId) (req : ReqId) (s : State) : Host.Outcome State Fault Refusal :=
  ran s (viaBus req (some b) 0x4008 (hwRetrainCmd b req) s.begin)

/-- MAILBOX_READ (R331). -/
def execMailboxRead (b : BId) (req : ReqId) (len : Fin 512) (s : State) : Host.Outcome State Fault Refusal :=
  ran s (viaBus req (some b) 0x4044 (mailboxOrder b req .read len.val) s.begin)

/-- MAILBOX_WRITE (R331). -/
def execMailboxWrite (b : BId) (req : ReqId) (len : Fin 512) (s : State) : Host.Outcome State Fault Refusal :=
  ran s (viaBus req (some b) 0x4044 (mailboxOrder b req .write len.val) s.begin)

/-- MAILBOX_CTRL (R331). -/
def execMailboxCtrl (b : BId) (req : ReqId) (len : Fin 512) (s : State) : Host.Outcome State Fault Refusal :=
  ran s (viaBus req (some b) 0x4044 (mailboxOrder b req .ctrl len.val) s.begin)

/-- MAILBOX_FREQ (R331): refused with ARG. -/
def execMailboxFreq (b : BId) (req : ReqId) (len : Fin 512) (s : State) : Host.Outcome State Fault Refusal :=
  ran s (viaBus req (some b) 0x4044 (mailboxOrder b req .freq len.val) s.begin)

/-- BRING_UP (R340). -/
def execBringUp (b : BId) (req : ReqId) (s : State) : Host.Outcome State Fault Refusal :=
  ran s (viaBus req (some b) 0x4200 (bringUp b req) s.begin)

/-- SERVICE_RESET (R349): level, unit and mode (ABSORB). -/
def execServiceReset (b : BId) (req : ReqId) (level : Fin 4) (unit : Fin 1024) (absorb : Bool) (s : State) : Host.Outcome State Fault Refusal :=
  ran s (viaBus req (some b) 0x4200 (serviceReset b req level.val unit.val absorb) s.begin)

/-- SERVICE_ABORT (R340). -/
def execServiceAbort (b : BId) (req : ReqId) (s : State) : Host.Outcome State Fault Refusal :=
  ran s (viaBus req (some b) 0x4200 (svcAbort b req) s.begin)

/-- MSIP_WRITE (R366). -/
def execMsipWrite (b : BId) (req : ReqId) (set : Bool) (s : State) : Host.Outcome State Fault Refusal :=
  ran s (viaBus req (some b) 0xB030 (msipWrite b req set) s.begin)

/-- WATCHDOG_KICK (R368). -/
def execWatchdogKick (b : BId) (req : ReqId) (key : BitVec 16) (s : State) : Host.Outcome State Fault Refusal :=
  ran s (viaBus req (some b) 0xB00C (watchdogKick b req key.toNat) s.begin)

/-- RESTART (R371). -/
def execRestart (b : BId) (req : ReqId) (guard : BitVec 16) (s : State) : Host.Outcome State Fault Refusal :=
  ran s (viaBus req (some b) 0xB004 (restartOrder b req guard.toNat) s.begin)

/-- LOAD (R378). -/
def execLoad (h : BId) (req : ReqId) (role : Fin 4) (slotB : Bool) (guard : BitVec 16) (s : State) : Host.Outcome State Fault Refusal :=
  ran s (viaBus req (some h) 0xB100 (loadOrder h req role.val slotB guard.toNat) s.begin)

/-- DK_FREE (R385): a write naming device-wide buffer g to DK_FREE of berth b. -/
def execDkFree (b : BId) (req : ReqId) (g : Fin 4096) (s : State) : Host.Outcome State Fault Refusal :=
  ran s (viaBus req (some b) 0x3008 (freeWrite b req g.val) s.begin)

/-- DM_TAIL_WRITE (R390). -/
def execDmTailWrite (b : BId) (e : Fin 2) (req : ReqId) (tail : Fin 32) (s : State) : Host.Outcome State Fault Refusal :=
  ran s (viaBus req (some b) (0xC00C + 0x40 * e.val) (tailWrite b e.val req tail.val) s.begin)

/-- DMA_RESUME (R396). -/
def execDmaResume (b : BId) (e : Fin 2) (req : ReqId) (s : State) : Host.Outcome State Fault Refusal :=
  ran s (viaBus req (some b) (0xC004 + 0x40 * e.val) (dmaResume b e.val req) s.begin)

/-- SKIP (R396). -/
def execSkip (b : BId) (e : Fin 2) (req : ReqId) (s : State) : Host.Outcome State Fault Refusal :=
  ran s (viaBus req (some b) (0xC004 + 0x40 * e.val) (dmaSkip b e.val req) s.begin)

/-- FLUSH (R396). -/
def execFlush (b : BId) (e : Fin 2) (req : ReqId) (s : State) : Host.Outcome State Fault Refusal :=
  ran s (viaBus req (some b) (0xC004 + 0x40 * e.val) (dmaFlush b e.val req) s.begin)

/-- PREEMPT (R394). -/
def execPreempt (b : BId) (e : Fin 2) (req : ReqId) (slot : Fin 32) (s : State) : Host.Outcome State Fault Refusal :=
  ran s (viaBus req (some b) (0xC004 + 0x40 * e.val) (dmaPreempt b e.val req slot.val) s.begin)

/-- TW_ATTN_SET (R412). -/
def execTwAttnSet (req : ReqId) (fw : Bool) (s : State) : Host.Outcome State Fault Refusal :=
  ran s (viaBus req none 0xD010 (twAttnSet req fw) s.begin)

/-- US_TEL_PUSH (R447): the word written. -/
def execUsTelPush (req : ReqId) (w : Word) (s : State) : Host.Outcome State Fault Refusal :=
  ran s (viaBus req none 0xE024 (telPush req w) s.begin)

/-- UNRETIRE_RING_PORT (R460). -/
def execUnretireRingPort (req : ReqId) (n : BId) (guard : BitVec 16) (s : State) : Host.Outcome State Fault Refusal :=
  ran s (viaBus req none 0xF044 (unretire 1 req n guard.toNat) s.begin)

/-- UNRETIRE_TIDE_IN (R460). -/
def execUnretireTideIn (req : ReqId) (n : BId) (guard : BitVec 16) (s : State) : Host.Outcome State Fault Refusal :=
  ran s (viaBus req none 0xF044 (unretire 2 req n guard.toNat) s.begin)

/-- UNRETIRE_BERTH (R461). -/
def execUnretireBerth (req : ReqId) (n : BId) (guard : BitVec 16) (s : State) : Host.Outcome State Fault Refusal :=
  ran s (viaBus req none 0xF044 (unretire 3 req n guard.toNat) s.begin)

/-- UNRETIRE_SLOT (R460). -/
def execUnretireSlot (req : ReqId) (n : BId) (guard : BitVec 16) (s : State) : Host.Outcome State Fault Refusal :=
  ran s (viaBus req none 0xF044 (unretire 4 req n guard.toNat) s.begin)

/-- UNRETIRE_AVSBUS (R460). -/
def execUnretireAvsbus (req : ReqId) (n : BId) (guard : BitVec 16) (s : State) : Host.Outcome State Fault Refusal :=
  ran s (viaBus req none 0xF044 (unretire 5 req n guard.toNat) s.begin)

/-- UNRETIRE_COOL (R460). -/
def execUnretireCool (req : ReqId) (n : BId) (guard : BitVec 16) (s : State) : Host.Outcome State Fault Refusal :=
  ran s (viaBus req none 0xF044 (unretire 6 req n guard.toNat) s.begin)

/-- UNRETIRE_ROPE (R460). -/
def execUnretireRope (req : ReqId) (n : BId) (guard : BitVec 16) (s : State) : Host.Outcome State Fault Refusal :=
  ran s (viaBus req none 0xF044 (unretire 7 req n guard.toNat) s.begin)

/-- UNRETIRE_COLUMN (R460). -/
def execUnretireColumn (req : ReqId) (n : BId) (guard : BitVec 16) (s : State) : Host.Outcome State Fault Refusal :=
  ran s (viaBus req none 0xF044 (unretire 8 req n guard.toNat) s.begin)

/-- UNRETIRE_ARRAY (R460). -/
def execUnretireArray (req : ReqId) (n : BId) (guard : BitVec 16) (s : State) : Host.Outcome State Fault Refusal :=
  ran s (viaBus req none 0xF044 (unretire 9 req n guard.toNat) s.begin)

/-- UNRETIRE_DMA (R460). -/
def execUnretireDma (req : ReqId) (n : BId) (guard : BitVec 16) (s : State) : Host.Outcome State Fault Refusal :=
  ran s (viaBus req none 0xF044 (unretire 10 req n guard.toNat) s.begin)

/-- UNRETIRE_TWI_CTRL (R460). -/
def execUnretireTwiCtrl (req : ReqId) (n : BId) (guard : BitVec 16) (s : State) : Host.Outcome State Fault Refusal :=
  ran s (viaBus req none 0xF044 (unretire 11 req n guard.toNat) s.begin)

/-- UNRETIRE_PILOT (R460). -/
def execUnretirePilot (req : ReqId) (n : BId) (guard : BitVec 16) (s : State) : Host.Outcome State Fault Refusal :=
  ran s (viaBus req none 0xF044 (unretire 12 req n guard.toNat) s.begin)

/-- UNRETIRE_CORE (R460). -/
def execUnretireCore (req : ReqId) (n : BId) (guard : BitVec 16) (s : State) : Host.Outcome State Fault Refusal :=
  ran s (viaBus req none 0xF044 (unretire 13 req n guard.toNat) s.begin)

/-- HW_CPL_READ (R331). -/
def execHwCplRead (b : BId) (req : ReqId) (s : State) : Host.Outcome State Fault Refusal :=
  ran s (readBus req b (regAddr (some b) 0x4050) (cplRead b) s.begin)

/-- HW_EVQ_READ (R332). -/
def execHwEvqRead (b : BId) (req : ReqId) (s : State) : Host.Outcome State Fault Refusal :=
  ran s (readBus req b (regAddr (some b) 0x4054) (evqRead b req) s.begin)

/-- DK_ALLOC_ANY (R381). -/
def execDkAllocAny (b : BId) (req : ReqId) (s : State) : Host.Outcome State Fault Refusal :=
  ran s (readBus req b (regAddr (some b) 0x3000) (allocRead b req true) s.begin)

/-- DK_ALLOC_LOCAL (R381). -/
def execDkAllocLocal (b : BId) (req : ReqId) (s : State) : Host.Outcome State Fault Refusal :=
  ran s (readBus req b (regAddr (some b) 0x3004) (allocRead b req false) s.begin)

/-- CELL_WINDOW_READ (R249): word w of row r of array k; `v`: the levels sensed. -/
def execCellWindowRead (b : BId) (req : ReqId) (k : Fin 8) (r : Fin 256) (w : Fin 20) (v : Word) (s : State) :
    Host.Outcome State Fault Refusal :=
  ran s (readBus req b (0x40800000 + 0x1000000 * b.val + 0x8000 * k.val + 0x80 * r.val + 4 * w.val)
    (cellRead b k.val r.val w.val v) s.begin)

end Sys2Proof.Machine
end

