-- ==== Sys2Proof/Machine/Dispatch.lean ====
section
/-! DEFINITION. The meaning of every command. -/
namespace Sys2Proof.Machine

def exec (i : Instr) (s : State) : Host.Outcome State Fault Refusal :=
  match i with
  | .mainSupplyGood => Sys2Proof.Machine.execMainSupplyGood s
  | .mainResetRelease b => Sys2Proof.Machine.execMainResetRelease b s
  | .mainSupplyLoss => Sys2Proof.Machine.execMainSupplyLoss s
  | .vddStbyReset => Sys2Proof.Machine.execVddStbyReset s
  | .resetNAssert => Sys2Proof.Machine.execResetNAssert s
  | .tapInstructionLoad t => Sys2Proof.Machine.execTapInstructionLoad t s
  | .tapTestLogicReset => Sys2Proof.Machine.execTapTestLogicReset s
  | .strapSampleDone b addr boot inh unstable reach => Sys2Proof.Machine.execStrapSampleDone b addr boot inh unstable reach s
  | .pllLock b reach => Sys2Proof.Machine.execPllLock b reach s
  | .b4ClaimWaitExpiry reach => Sys2Proof.Machine.execB4ClaimWaitExpiry reach s
  | .claimCollision => Sys2Proof.Machine.execClaimCollision s
  | .trainingWindowEnd present segs chords => Sys2Proof.Machine.execTrainingWindowEnd present segs chords s
  | .electionRepeat b noClock => Sys2Proof.Machine.execElectionRepeat b noClock s
  | .lateBerthJoin b segs chords => Sys2Proof.Machine.execLateBerthJoin b segs chords s
  | .markBoundary b => Sys2Proof.Machine.execMarkBoundary b s
  | .markAverageReceive n w => Sys2Proof.Machine.execMarkAverageReceive n w s
  | .floorOverSet => Sys2Proof.Machine.execFloorOverSet s
  | .silentMarksTakeover b => Sys2Proof.Machine.execSilentMarksTakeover b s
  | .flitReceive b p seq crcOk => Sys2Proof.Machine.execFlitReceive b p seq crcOk s
  | .replayRequest b p seq => Sys2Proof.Machine.execReplayRequest b p seq s
  | .ringTimeout b t who => Sys2Proof.Machine.execRingTimeout b t who s
  | .remoteReplyReceive b t late => Sys2Proof.Machine.execRemoteReplyReceive b t late s
  | .berthRetireOrder b => Sys2Proof.Machine.execBerthRetireOrder b s
  | .bypassNotice b => Sys2Proof.Machine.execBypassNotice b s
  | .shutdownBoundExpiry b => Sys2Proof.Machine.execShutdownBoundExpiry b s
  | .bypassSwitch b => Sys2Proof.Machine.execBypassSwitch b s
  | .silentBerthDetect b n => Sys2Proof.Machine.execSilentBerthDetect b n s
  | .silentBerthReport h n => Sys2Proof.Machine.execSilentBerthReport h n s
  | .silentMarksIsolate b => Sys2Proof.Machine.execSilentMarksIsolate b s
  | .noClockIsolate b => Sys2Proof.Machine.execNoClockIsolate b s
  | .isolatedReport h n => Sys2Proof.Machine.execIsolatedReport h n s
  | .releaseOrder b => Sys2Proof.Machine.execReleaseOrder b s
  | .clockInputLoss b edges => Sys2Proof.Machine.execClockInputLoss b edges s
  | .clockSwitchoverDone b => Sys2Proof.Machine.execClockSwitchoverDone b s
  | .standbyClockSource b => Sys2Proof.Machine.execStandbyClockSource b s
  | .registerWrite req own addr val => Sys2Proof.Machine.execRegisterWrite req own addr val s
  | .counterLowRead req own addr => Sys2Proof.Machine.execCounterLowRead req own addr s
  | .counterHighRead req own addr => Sys2Proof.Machine.execCounterHighRead req own addr s
  | .accErrRead req own addr => Sys2Proof.Machine.execAccErrRead req own addr s
  | .snapTake req own n => Sys2Proof.Machine.execSnapTake req own n s
  | .snapRelease req own n => Sys2Proof.Machine.execSnapRelease req own n s
  | .snapshotExpiry b => Sys2Proof.Machine.execSnapshotExpiry b s
  | .tideInTransition e => Sys2Proof.Machine.execTideInTransition e s
  | .tideCandidate b => Sys2Proof.Machine.execTideCandidate b s
  | .tideMiss b => Sys2Proof.Machine.execTideMiss b s
  | .tideHoldExpiry b => Sys2Proof.Machine.execTideHoldExpiry b s
  | .tideFlitReceive b f sub => Sys2Proof.Machine.execTideFlitReceive b f sub s
  | .chartSlotCheckDone h unreadA unreadB rdErr => Sys2Proof.Machine.execChartSlotCheckDone h unreadA unreadB rdErr s
  | .chartDistribute h => Sys2Proof.Machine.execChartDistribute h s
  | .chartStreamReceive b bs => Sys2Proof.Machine.execChartStreamReceive b bs s
  | .berthSignatureCheckDone b => Sys2Proof.Machine.execBerthSignatureCheckDone b s
  | .chartAck h n a => Sys2Proof.Machine.execChartAck h n a s
  | .chartAckTimeout h n => Sys2Proof.Machine.execChartAckTimeout h n s
  | .chartLock h => Sys2Proof.Machine.execChartLock h s
  | .reload req arg => Sys2Proof.Machine.execReload req arg s
  | .redistribute req arg => Sys2Proof.Machine.execRedistribute req arg s
  | .commitRb req arg guard => Sys2Proof.Machine.execCommitRb req arg guard s
  | .revokeKey req arg guard => Sys2Proof.Machine.execRevokeKey req arg guard s
  | .progKey req arg guard => Sys2Proof.Machine.execProgKey req arg guard s
  | .fuseBurnDone h ok => Sys2Proof.Machine.execFuseBurnDone h ok s
  | .controllerReset req guard => Sys2Proof.Machine.execControllerReset req guard s
  | .controllerResetFire => Sys2Proof.Machine.execControllerResetFire s
  | .sleep req guard => Sys2Proof.Machine.execSleep req guard s
  | .sleepWake => Sys2Proof.Machine.execSleepWake s
  | .pilotStart b => Sys2Proof.Machine.execPilotStart b s
  | .powerUp b req => Sys2Proof.Machine.execPowerUp b req s
  | .shutdown b req => Sys2Proof.Machine.execShutdown b req s
  | .railOnDelayExpiry b r => Sys2Proof.Machine.execRailOnDelayExpiry b r s
  | .avsSetTimeout b r => Sys2Proof.Machine.execAvsSetTimeout b r s
  | .powerGoodRise b r => Sys2Proof.Machine.execPowerGoodRise b r s
  | .powerGoodDrop b r => Sys2Proof.Machine.execPowerGoodDrop b r s
  | .pgTimeout b r => Sys2Proof.Machine.execPgTimeout b r s
  | .rampTimeout b r => Sys2Proof.Machine.execRampTimeout b r s
  | .adcConversion b ix code => Sys2Proof.Machine.execAdcConversion b ix code s
  | .thresholdConfirm b ix c => Sys2Proof.Machine.execThresholdConfirm b ix c s
  | .railTrumpReceive n => Sys2Proof.Machine.execRailTrumpReceive n s
  | .railOffConfirm b r => Sys2Proof.Machine.execRailOffConfirm b r s
  | .railOffTimeout b r => Sys2Proof.Machine.execRailOffTimeout b r s
  | .faultHoldEnd b => Sys2Proof.Machine.execFaultHoldEnd b s
  | .thresholdWrite b req ix w => Sys2Proof.Machine.execThresholdWrite b req ix w s
  | .setpointTransitionEnd b k => Sys2Proof.Machine.execSetpointTransitionEnd b k s
  | .logBufferArrive h o recs => Sys2Proof.Machine.execLogBufferArrive h o recs s
  | .logProgramDone h => Sys2Proof.Machine.execLogProgramDone h s
  | .logEraseDone h => Sys2Proof.Machine.execLogEraseDone h s
  | .logHeadFound h failed => Sys2Proof.Machine.execLogHeadFound h failed s
  | .pwBudgetWrite req w => Sys2Proof.Machine.execPwBudgetWrite req w s
  | .admitReq b req => Sys2Proof.Machine.execAdmitReq b req s
  | .admitCancel b req => Sys2Proof.Machine.execAdmitCancel b req s
  | .avsResponse b c crcOk ack => Sys2Proof.Machine.execAvsResponse b c crcOk ack s
  | .avsResponseTimeout b c => Sys2Proof.Machine.execAvsResponseTimeout b c s
  | .voltageSettle b k => Sys2Proof.Machine.execVoltageSettle b k s
  | .settleTimeout b k => Sys2Proof.Machine.execSettleTimeout b k s
  | .voltageTrimTick b => Sys2Proof.Machine.execVoltageTrimTick b s
  | .thermalLoopStep b k temp => Sys2Proof.Machine.execThermalLoopStep b k temp s
  | .thermalCapRelease b k temp => Sys2Proof.Machine.execThermalCapRelease b k temp s
  | .scanComplete b => Sys2Proof.Machine.execScanComplete b s
  | .overGrantLower b => Sys2Proof.Machine.execOverGrantLower b s
  | .underGrantRaise b => Sys2Proof.Machine.execUnderGrantRaise b s
  | .dutyCommandWrite b c req w => Sys2Proof.Machine.execDutyCommandWrite b c req w s
  | .tachEdge b c t => Sys2Proof.Machine.execTachEdge b c t s
  | .encoderChange b c e => Sys2Proof.Machine.execEncoderChange b c e s
  | .indexEdge b c => Sys2Proof.Machine.execIndexEdge b c s
  | .pumpSpeedGate b => Sys2Proof.Machine.execPumpSpeedGate b s
  | .kickTimeout b c e => Sys2Proof.Machine.execKickTimeout b c e s
  | .stallDetect b c e => Sys2Proof.Machine.execStallDetect b c e s
  | .stallRetry b c => Sys2Proof.Machine.execStallRetry b c s
  | .retryOffEnd b c => Sys2Proof.Machine.execRetryOffEnd b c s
  | .zoneBoostNotice b m z => Sys2Proof.Machine.execZoneBoostNotice b m z s
  | .hostActNotice b => Sys2Proof.Machine.execHostActNotice b s
  | .hostSilenceExpiry b c => Sys2Proof.Machine.execHostSilenceExpiry b c s
  | .leakTrump b r => Sys2Proof.Machine.execLeakTrump b r s
  | .leakTrumpReceive n m mask => Sys2Proof.Machine.execLeakTrumpReceive n m mask s
  | .ropeOpen b r => Sys2Proof.Machine.execRopeOpen b r s
  | .ropeDry b r => Sys2Proof.Machine.execRopeDry b r s
  | .ropeStateNotice n m r st latch => Sys2Proof.Machine.execRopeStateNotice n m r st latch s
  | .lkClear b req w => Sys2Proof.Machine.execLkClear b req w s
  | .prog b req k first => Sys2Proof.Machine.execProg b req k first s
  | .verify b req k => Sys2Proof.Machine.execVerify b req k s
  | .repair b req k => Sys2Proof.Machine.execRepair b req k s
  | .cal b req k => Sys2Proof.Machine.execCal b req k s
  | .pass b req k => Sys2Proof.Machine.execPass b req k s
  | .abort a req => Sys2Proof.Machine.execAbort a req s
  | .rowSenseDone b w mid => Sys2Proof.Machine.execRowSenseDone b w mid s
  | .progRoundDone b w mid => Sys2Proof.Machine.execProgRoundDone b w mid s
  | .cellWindowRead b req k r w v => Sys2Proof.Machine.execCellWindowRead b req k r w v s
  | .arrayPassDone b w ds => Sys2Proof.Machine.execArrayPassDone b w ds s
  | .calibrationDone b k ds => Sys2Proof.Machine.execCalibrationDone b k ds s
  | .testSlot b k cs => Sys2Proof.Machine.execTestSlot b k cs s
  | .stageOutputReceive b g => Sys2Proof.Machine.execStageOutputReceive b g s
  | .featureReceive h g => Sys2Proof.Machine.execFeatureReceive h g s
  | .bindingsFormed h g => Sys2Proof.Machine.execBindingsFormed h g s
  | .fallbackEntry h g => Sys2Proof.Machine.execFallbackEntry h g s
  | .policyLoadDone h g => Sys2Proof.Machine.execPolicyLoadDone h g s
  | .unload h req g guard => Sys2Proof.Machine.execUnload h req g guard s
  | .promote h req guard => Sys2Proof.Machine.execPromote h req guard s
  | .statsClear h req => Sys2Proof.Machine.execStatsClear h req s
  | .replace h req g => Sys2Proof.Machine.execReplace h req g s
  | .promoteSwap h => Sys2Proof.Machine.execPromoteSwap h s
  | .dummyCompare h => Sys2Proof.Machine.execDummyCompare h s
  | .start b req => Sys2Proof.Machine.execStart b req s
  | .stop b req => Sys2Proof.Machine.execStop b req s
  | .retrain b req => Sys2Proof.Machine.execRetrain b req s
  | .rxLock b d ds => Sys2Proof.Machine.execRxLock b d ds s
  | .falseLock b => Sys2Proof.Machine.execFalseLock b s
  | .falseLockExclusionEnd b => Sys2Proof.Machine.execFalseLockExclusionEnd b s
  | .lockLost b => Sys2Proof.Machine.execLockLost b s
  | .frameReceive b raw fill => Sys2Proof.Machine.execFrameReceive b raw fill s
  | .txFrameBoundary b => Sys2Proof.Machine.execTxFrameBoundary b s
  | .ackTimeout b => Sys2Proof.Machine.execAckTimeout b s
  | .trainTimeout b => Sys2Proof.Machine.execTrainTimeout b s
  | .replyReceive b => Sys2Proof.Machine.execReplyReceive b s
  | .eventReceive b => Sys2Proof.Machine.execEventReceive b s
  | .replyTimeout b tag => Sys2Proof.Machine.execReplyTimeout b tag s
  | .freqResend b k => Sys2Proof.Machine.execFreqResend b k s
  | .mailboxRead b req len => Sys2Proof.Machine.execMailboxRead b req len s
  | .mailboxWrite b req len => Sys2Proof.Machine.execMailboxWrite b req len s
  | .mailboxCtrl b req len => Sys2Proof.Machine.execMailboxCtrl b req len s
  | .mailboxFreq b req len => Sys2Proof.Machine.execMailboxFreq b req len s
  | .hwCplRead b req => Sys2Proof.Machine.execHwCplRead b req s
  | .hwEvqRead b req => Sys2Proof.Machine.execHwEvqRead b req s
  | .bringUp b req => Sys2Proof.Machine.execBringUp b req s
  | .serviceReset b req level unit absorb => Sys2Proof.Machine.execServiceReset b req level unit absorb s
  | .serviceAbort b req => Sys2Proof.Machine.execServiceAbort b req s
  | .mgmtStart b => Sys2Proof.Machine.execMgmtStart b s
  | .statusPoll b => Sys2Proof.Machine.execStatusPoll b s
  | .busyReissue b => Sys2Proof.Machine.execBusyReissue b s
  | .stageTimeout b => Sys2Proof.Machine.execStageTimeout b s
  | .drainEscalate b => Sys2Proof.Machine.execDrainEscalate b s
  | .resetHoldEnd b => Sys2Proof.Machine.execResetHoldEnd b s
  | .resetTimeout b => Sys2Proof.Machine.execResetTimeout b s
  | .reportPoll b => Sys2Proof.Machine.execReportPoll b s
  | .slotFlitReceive n f => Sys2Proof.Machine.execSlotFlitReceive n f s
  | .pilotInstruction b => Sys2Proof.Machine.execPilotInstruction b s
  | .csrAccess b => Sys2Proof.Machine.execCsrAccess b s
  | .fence b => Sys2Proof.Machine.execFence b s
  | .wfi b => Sys2Proof.Machine.execWfi b s
  | .wfiTimeout b => Sys2Proof.Machine.execWfiTimeout b s
  | .interruptTaken b => Sys2Proof.Machine.execInterruptTaken b s
  | .msipWrite b req set => Sys2Proof.Machine.execMsipWrite b req set s
  | .watchdogKick b req key => Sys2Proof.Machine.execWatchdogKick b req key s
  | .pilotWatchdogExpiry b => Sys2Proof.Machine.execPilotWatchdogExpiry b s
  | .restart b req guard => Sys2Proof.Machine.execRestart b req guard s
  | .restartStreamDone b rdErr => Sys2Proof.Machine.execRestartStreamDone b rdErr s
  | .imageCheckDone h unreadA unreadB rdErr => Sys2Proof.Machine.execImageCheckDone h unreadA unreadB rdErr s
  | .imageCopyReceive b bytes => Sys2Proof.Machine.execImageCopyReceive b bytes s
  | .load h req role slotB guard => Sys2Proof.Machine.execLoad h req role slotB guard s
  | .dkAllocAny b req => Sys2Proof.Machine.execDkAllocAny b req s
  | .dkAllocLocal b req => Sys2Proof.Machine.execDkAllocLocal b req s
  | .dkFree b req g => Sys2Proof.Machine.execDkFree b req g s
  | .dmTailWrite b e req tail => Sys2Proof.Machine.execDmTailWrite b e req tail s
  | .dmaBurstDone b e => Sys2Proof.Machine.execDmaBurstDone b e s
  | .dmaHandTimeout b e => Sys2Proof.Machine.execDmaHandTimeout b e s
  | .dmaResume b e req => Sys2Proof.Machine.execDmaResume b e req s
  | .skip b e req => Sys2Proof.Machine.execSkip b e req s
  | .flush b e req => Sys2Proof.Machine.execFlush b e req s
  | .preempt b e req slot => Sys2Proof.Machine.execPreempt b e req slot s
  | .ident b x => Sys2Proof.Machine.execIdent b x s
  | .rd32 b late x => Sys2Proof.Machine.execRd32 b late x s
  | .wr32 b late x => Sys2Proof.Machine.execWr32 b late x s
  | .rdn b late x => Sys2Proof.Machine.execRdn b late x s
  | .wrn b late x => Sys2Proof.Machine.execWrn b late x s
  | .last b x => Sys2Proof.Machine.execLast b x s
  | .attn b x => Sys2Proof.Machine.execAttn b x s
  | .attnClr b x => Sys2Proof.Machine.execAttnClr b x s
  | .receiveByte b => Sys2Proof.Machine.execReceiveByte b s
  | .quickCommand b => Sys2Proof.Machine.execQuickCommand b s
  | .unsupportedCommand b code kind => Sys2Proof.Machine.execUnsupportedCommand b code kind s
  | .transactionCut b code mid => Sys2Proof.Machine.execTransactionCut b code mid s
  | .twAttnSet req fw => Sys2Proof.Machine.execTwAttnSet req fw s
  | .beacon b => Sys2Proof.Machine.execBeacon b s
  | .beaconEnd b => Sys2Proof.Machine.execBeaconEnd b s
  | .beaconCut b => Sys2Proof.Machine.execBeaconCut b s
  | .beaconRepeat b => Sys2Proof.Machine.execBeaconRepeat b s
  | .hostNotify b e => Sys2Proof.Machine.execHostNotify b e s
  | .notifyRetry b => Sys2Proof.Machine.execNotifyRetry b s
  | .backoffEnd b => Sys2Proof.Machine.execBackoffEnd b s
  | .sleepAddressMatch b => Sys2Proof.Machine.execSleepAddressMatch b s
  | .stretchTimeout b => Sys2Proof.Machine.execStretchTimeout b s
  | .busHang b sda ms => Sys2Proof.Machine.execBusHang b sda ms s
  | .vendorRead b addr len late finished => Sys2Proof.Machine.execVendorRead b addr len late finished s
  | .vendorWrite b addr words odd late started => Sys2Proof.Machine.execVendorWrite b addr words odd late started s
  | .vendorLast b breq a len => Sys2Proof.Machine.execVendorLast b breq a len s
  | .getStatus b recip idx => Sys2Proof.Machine.execGetStatus b recip idx s
  | .clearFeature b feature recip idx => Sys2Proof.Machine.execClearFeature b feature recip idx s
  | .setFeature b feature recip idx => Sys2Proof.Machine.execSetFeature b feature recip idx s
  | .setAddress b a => Sys2Proof.Machine.execSetAddress b a s
  | .getDescriptor b ty ix len => Sys2Proof.Machine.execGetDescriptor b ty ix len s
  | .getConfiguration b => Sys2Proof.Machine.execGetConfiguration b s
  | .setConfiguration b v => Sys2Proof.Machine.execSetConfiguration b v s
  | .getInterface b ix => Sys2Proof.Machine.execGetInterface b ix s
  | .setInterface b ix alt => Sys2Proof.Machine.execSetInterface b ix alt s
  | .setDescriptor b => Sys2Proof.Machine.execSetDescriptor b s
  | .synchFrame b => Sys2Proof.Machine.execSynchFrame b s
  | .dfuDnload b num data rdErr => Sys2Proof.Machine.execDfuDnload b num data rdErr s
  | .dfuUpload b len rdErr => Sys2Proof.Machine.execDfuUpload b len rdErr s
  | .dfuGetstatus b => Sys2Proof.Machine.execDfuGetstatus b s
  | .dfuClrstatus b => Sys2Proof.Machine.execDfuClrstatus b s
  | .dfuGetstate b => Sys2Proof.Machine.execDfuGetstate b s
  | .dfuAbort b => Sys2Proof.Machine.execDfuAbort b s
  | .dfuDetach b => Sys2Proof.Machine.execDfuDetach b s
  | .dfuEraseDone b ok => Sys2Proof.Machine.execDfuEraseDone b ok s
  | .dfuProgramDone b ok => Sys2Proof.Machine.execDfuProgramDone b ok s
  | .manifestationDone b progOk same rdErr => Sys2Proof.Machine.execManifestationDone b progOk same rdErr s
  | .usbBusReset b hs => Sys2Proof.Machine.execUsbBusReset b hs s
  | .usbSuspend b => Sys2Proof.Machine.execUsbSuspend b s
  | .usbResume b => Sys2Proof.Machine.execUsbResume b s
  | .vbusChange b valid => Sys2Proof.Machine.execVbusChange b valid s
  | .remoteWakeup b => Sys2Proof.Machine.execRemoteWakeup b s
  | .telemetryIn b => Sys2Proof.Machine.execTelemetryIn b s
  | .telemetryPacketAck b => Sys2Proof.Machine.execTelemetryPacketAck b s
  | .usTelPush req w => Sys2Proof.Machine.execUsTelPush req w s
  | .retirementNotice h n kind index rule events => Sys2Proof.Machine.execRetirementNotice h n kind index rule events s
  | .unretireRingPort req n guard => Sys2Proof.Machine.execUnretireRingPort req n guard s
  | .unretireTideIn req n guard => Sys2Proof.Machine.execUnretireTideIn req n guard s
  | .unretireBerth req n guard => Sys2Proof.Machine.execUnretireBerth req n guard s
  | .unretireSlot req n guard => Sys2Proof.Machine.execUnretireSlot req n guard s
  | .unretireAvsbus req n guard => Sys2Proof.Machine.execUnretireAvsbus req n guard s
  | .unretireCool req n guard => Sys2Proof.Machine.execUnretireCool req n guard s
  | .unretireRope req n guard => Sys2Proof.Machine.execUnretireRope req n guard s
  | .unretireColumn req n guard => Sys2Proof.Machine.execUnretireColumn req n guard s
  | .unretireArray req n guard => Sys2Proof.Machine.execUnretireArray req n guard s
  | .unretireDma req n guard => Sys2Proof.Machine.execUnretireDma req n guard s
  | .unretireTwiCtrl req n guard => Sys2Proof.Machine.execUnretireTwiCtrl req n guard s
  | .unretirePilot req n guard => Sys2Proof.Machine.execUnretirePilot req n guard s
  | .unretireCore req n guard => Sys2Proof.Machine.execUnretireCore req n guard s
  | .unretireAck h => Sys2Proof.Machine.execUnretireAck h s
  | .unretireAckTimeout h => Sys2Proof.Machine.execUnretireAckTimeout h s
  | .berthAdmitTimeout h => Sys2Proof.Machine.execBerthAdmitTimeout h s
  | .soundingArrive h n bytes => Sys2Proof.Machine.execSoundingArrive h n bytes s
  | .soundingDropNotice b => Sys2Proof.Machine.execSoundingDropNotice b s
  | .resetNRelease => Sys2Proof.Machine.execResetNRelease s
  | .writeGuardChange below => Sys2Proof.Machine.execWriteGuardChange below s
  | .mtimecmpMatch b => Sys2Proof.Machine.execMtimecmpMatch b s
  | .pwmPeriodStart b c => Sys2Proof.Machine.execPwmPeriodStart b c s
  | .ringPortTrained b p => Sys2Proof.Machine.execRingPortTrained b p s
  | .vddStbyLoss => Sys2Proof.Machine.execVddStbyLoss s

end Sys2Proof.Machine
end

