-- ==== Sys2Proof/Machine/Tick.lean ====
section
/-! DEFINITION. One REF cycle without a command: the counters that time moves, and the orders that wait for a buffer
(notes/assumptions/2.md). -/
namespace Sys2Proof.Machine

/-- PL_MTIME counts REF cycles from main-reset release (R366); mcycle counts cycles of the pilot clock, 16 for each REF
cycle, while the core runs outside SLEEP and mcountinhibit lets it (R360, R115). -/
def pilotTick (sleep : Bool) (p : Pilot) : Pilot :=
  let p := { p with mtime := (p.mtime + 1) % 2 ^ 64 }
  if p.st == .running && !sleep && !nbit p.csr.mcountinhibit 0 then
    { p with csr := { p.csr with mcycle := (p.csr.mcycle + 16) % 2 ^ 64 } }
  else p

/-- A berth out of main reset counts. -/
def berthTick (sleep : Bool) (x : Berth) : Berth :=
  if x.sy.inReset then x else { x with pl := pilotTick sleep x.pl }

/-- What waits for a free buffer is tried again (R384): orders of the run-time engine, DMA bursts. -/
def berthRetry (b : BId) (s : State) : State := dmaPump b 1 8 (dmaPump b 0 8 (svcRetry b s))

/-- The harbour's flash takes what waits for it (R167, R443). -/
def flashRetry (b : BId) (s : State) : State := if s.isHbr b then flashFree true b s else s

/-- One REF cycle passes. In SLEEP the clocks of the hawser, the arrays and the pilots stand (R115). -/
def tick (s : State) : State :=
  let s : State := { s with out := [], now := s.now + 1, berths := s.berths.map (berthTick s.dev.sleep) }
  if s.dev.sleep then s else iter allB flashRetry (loadersPump (iter allB berthRetry s))

end Sys2Proof.Machine
end

