-- ==== Sys2Proof/WellFormed.lean ====
section
/-! DEFINITION. Which commands can be sent: the bounds of the spec on operands that their types do not carry. The meanings do not
test them; a command that is not well formed stands for no event of the hardware. -/
namespace Sys2Proof

/-- A record as R161 lays it out: its field widths, and a type that R162 lets a berth write. -/
def LogRec.wellFormed (r : LogRec) : Bool :=
  decide (0 < r.ty) && decide (r.ty < 0xF0) && !(decide (0x12 ≤ r.ty) && decide (r.ty ≤ 0x1F)) && decide (r.origin < 16)
    && decide (r.seq < 2 ^ 32) && decide (r.tide < 2 ^ 40) && decide (r.mark < 256) && decide (r.sub < 2 ^ 16)

/-- A slot flit's fields in their widths (R357). -/
def SlotFlit.wellFormed (f : SlotFlit) : Bool := decide (f.ready < 16) && decide (f.units < 32)

/-- The reserved bits of a TIDE flit are 0 (R59). -/
def TideFlit.wellFormed : TideFlit → Bool
  | .mark w => (w >>> 60) == 0
  | .period w => (w >>> 46) == 0

/-- A block's byte count is one byte (SMBus 3.1, R402). -/
def TwXact.wellFormed : TwXact → Bool
  | .blockWrite bs _ | .call bs => decide (bs.length < 256)
  | .writeWord _ _ | .readWord | .blockRead => true

/-- A digest has 48 octets; ROLLBACK and the fuse count are bytes (R96). -/
def ChartAck.wellFormed : ChartAck → Bool
  | .first digest _ rollback fuse => decide (digest.length = 48) && decide (rollback < 256) && decide (fuse < 256)
  | .sig _ => true

/-- How many units of a kind a berth has (R458); 0 for a code that names no kind. -/
def unitsOfKind : Nat → Nat
  | 1 => 4 | 2 => 1 | 3 => 1 | 4 => 1 | 5 => 2 | 6 => 3 | 7 => 2 | 8 => 1280 | 9 => 8 | 10 => 2 | 11 => 1 | 12 => 1
  | 13 => 1024 | _ => 0

/-- Sectors of 64 KiB in the log region (R166, with the flash size of notes/assumptions/7.md). -/
def logRegionSectors : Nat := 496

/-- The operands of a command lie within the spec's bounds. -/
def Instr.wellFormed : Instr → Bool
  | .tideFlitReceive _ f _ => f.wellFormed
  | .chartAck _ _ a => a.wellFormed
  | .logBufferArrive _ _ recs => decide (0 < recs.length) && decide (recs.length ≤ 8) && recs.all LogRec.wellFormed
  | .logHeadFound _ failed => failed.all fun n => decide (n < logRegionSectors)
  | .slotFlitReceive _ f => f.wellFormed
  | .ident _ x | .last _ x | .attn _ x | .attnClr _ x => x.wellFormed
  | .rd32 _ _ x | .wr32 _ _ x | .rdn _ _ x | .wrn _ _ x => x.wellFormed
  | .vendorWrite _ _ words odd _ _ => decide (4 * words.length + odd.val < 2 ^ 16)
  | .dfuDnload _ _ data _ => decide (data.length < 2 ^ 16)
  | .retirementNotice _ _ kind index _ _ => decide (index.val < unitsOfKind kind.val)
  | .soundingArrive _ _ bytes => decide (bytes.length = 256)
  | _ => true

end Sys2Proof
end

