-- ==== Sys2Proof/Safety.lean ====
section
/-! DEFINITION. The terms that statements about the block use: completing, what a command leaves alone, canonical memory. -/
namespace Sys2Proof.Machine

/-- The command completes, in a state of which P holds. -/
def Answers (c : Instr) (s : State) (P : State → Prop) : Prop := ∃ t, exec c s = .next t ∧ P t

/-- Nothing outside the berths of bs differs, but for what the command sent out. -/
def Keeps (bs : List BId) (s t : State) : Prop :=
  t.pending = s.pending ∧ t.now = s.now ∧ t.freeCtr = s.freeCtr ∧ t.dev = s.dev ∧ ∀ c, c ∉ bs → t.at c = s.at c

/-- The parts of the state: those of the whole machine, then those that every berth has. -/
inductive Piece where
  | out | now | freeCtr | dev
  | sy | rp | td | ch | rl | log | pw | hw | svc | cl | pl | dk | dm | tw | us | ar | pg | hl | tray | tcm | deck | flash
deriving DecidableEq, Repr

/-- Two berths agree in a part. -/
def Piece.sameB (f : Piece) (x y : Berth) : Prop :=
  match f with
  | .out | .now | .freeCtr | .dev => True
  | .sy => y.sy = x.sy | .rp => y.rp = x.rp | .td => y.td = x.td | .ch => y.ch = x.ch | .rl => y.rl = x.rl | .log => y.log = x.log
  | .pw => y.pw = x.pw | .hw => y.hw = x.hw | .svc => y.svc = x.svc | .cl => y.cl = x.cl | .pl => y.pl = x.pl
  | .dk => y.dk = x.dk | .dm => y.dm = x.dm | .tw => y.tw = x.tw | .us => y.us = x.us | .ar => y.ar = x.ar
  | .pg => y.pg = x.pg | .hl => y.hl = x.hl | .tray => y.tray = x.tray | .tcm => y.tcm = x.tcm | .deck => y.deck = x.deck
  | .flash => y.flash = x.flash

/-- Two states agree in a part. -/
def Piece.same (f : Piece) (s t : State) : Prop :=
  match f with
  | .out => t.out = s.out
  | .now => t.now = s.now
  | .freeCtr => t.freeCtr = s.freeCtr
  | .dev => t.dev = s.dev
  | f => ∀ c, f.sameB (s.at c) (t.at c)

/-- Two states agree outside the parts fs. -/
def AgreeOff (fs : List Piece) (s t : State) : Prop := ∀ f, f ∉ fs → f.same s t

/-- Every berth of t is as a main reset with cause `bit` leaves it after s: nothing but flash, fuses, keys and the standby island
outlasts it (R112, R113, R117). -/
def InMainReset (bit : Nat) (s t : State) : Prop :=
  (∀ b, (t.at b).sy.inReset = true ∧ (t.at b).sy.st = .inert ∧ (t.at b).rl = {} ∧ (t.at b).pl = {} ∧ (t.at b).tray = {}
    ∧ (t.at b).tcm = [] ∧ (t.at b).deck = []
    ∧ (t.at b).ch = { fuse := (s.at b).ch.fuse, keys := (s.at b).ch.keys, revoked := (s.at b).ch.revoked })
  ∧ nbit (t.at 0).sy.cause bit = true ∧ nbit (t.at 4).sy.cause bit = true

/-- A word access of a requester passes the tests of R39; `own` is the berth of a DMA engine. -/
def passes (s : State) (req : ReqId) (own : BId) (write : Bool) (a : Nat) : Bool :=
  match whoOf req own with
  | some w => match access s w write a 4 with
    | .ok _ => true
    | .error _ => false
  | none => false

/-- A requester's write of the register at `off` (0x1000 × block + offset) of berth n's window, or of the tray-wide space, passes the
tests of R39. -/
abbrev WritePasses (s : State) (req : ReqId) (n : Option BId) (off : Nat) : Prop :=
  passes s req (n.getD 0) true (regAddr n off) = true

/-- A requester's read at an address passes the tests of R39; `own` is the berth of a DMA engine. -/
abbrev ReadPasses (s : State) (req : ReqId) (own : BId) (a : Nat) : Prop := passes s req own false a = true

/-- TCM, deck share and flash of a berth in canonical form. -/
def Berth.memCanonical (x : Berth) : Bool :=
  memWf ramD none x.tcm && memWf ramD none x.deck && memWf flashD none x.flash

/-- Every memory of every berth in canonical form. -/
def State.memCanonical (s : State) : Bool := allB.all fun b => (s.at b).memCanonical

end Sys2Proof.Machine
end

