-- ==== Sys2Proof/Frames.lean ====
section
/-! DEFINITION. The parts of the state that each command can change. -/
namespace Sys2Proof.Machine

/-- The parts of the state that a command may change: its row's effect reaches no other block's registers and no other memory. -/
def touches (c : Instr) : List Piece :=
  match c with
  | .mainSupplyGood | .resetNRelease => [.out, .dev]
  | .mainResetRelease _ | .claimCollision => [.out, .sy, .td]
  | .mainSupplyLoss | .vddStbyReset | .resetNAssert | .tapInstructionLoad _ | .tapTestLogicReset | .remoteReplyReceive _ _ _
    | .registerWrite _ _ _ _ | .snapTake _ _ _ | .snapRelease _ _ _ | .controllerResetFire | .pilotInstruction _
    | .rd32 _ _ _ | .wr32 _ _ _ | .rdn _ _ _ | .wrn _ _ _ | .vendorRead _ _ _ _ _ | .vendorWrite _ _ _ _ _ _ | .vddStbyLoss =>
    [.out, .freeCtr, .dev, .sy, .rp, .td, .ch, .rl, .log, .pw, .hw, .svc, .cl, .pl, .dk, .dm, .tw, .us, .ar, .pg, .hl, .tray,
     .tcm, .deck, .flash]
  | .strapSampleDone _ _ _ _ _ _ | .pllLock _ _ | .b4ClaimWaitExpiry _ => [.out, .dev, .sy, .td]
  | .trainingWindowEnd _ _ _ => [.out, .freeCtr, .dev, .sy, .rp, .td, .ch, .log, .dk, .tw, .us]
  | .electionRepeat _ _ => [.out, .freeCtr, .dev, .sy, .rp, .td, .ch, .log, .dk, .tw, .us, .tray]
  | .lateBerthJoin _ _ _ => [.out, .sy, .rp, .td]
  | .markBoundary _ =>
    [.out, .freeCtr, .dev, .sy, .rp, .td, .ch, .rl, .log, .pw, .hw, .svc, .cl, .pl, .dk, .dm, .tw, .us, .ar, .pg, .hl, .tray,
     .tcm, .deck]
  | .markAverageReceive _ _ | .floorOverSet | .isolatedReport _ _ => [.out, .tray]
  | .silentMarksTakeover _ =>
    [.out, .freeCtr, .dev, .sy, .rp, .td, .ch, .rl, .log, .pw, .hw, .cl, .pl, .dk, .tw, .us, .ar, .pg, .tray, .deck]
  | .flitReceive _ _ _ _ | .replayRequest _ _ _ | .silentBerthDetect _ _ | .clockSwitchoverDone _ | .standbyClockSource _ =>
    [.out, .sy, .rp]
  | .ringTimeout _ _ _ => [.out, .freeCtr, .sy, .rp, .log, .pl, .dk, .dm, .us]
  | .berthRetireOrder _ | .powerUp _ _ | .shutdown _ _ =>
    [.out, .freeCtr, .sy, .rp, .rl, .log, .pw, .hw, .svc, .cl, .pl, .dk, .dm, .tw, .us, .tray, .tcm, .deck]
  | .bypassNotice _ | .shutdownBoundExpiry _ | .prog _ _ _ _ | .verify _ _ _ | .repair _ _ _ | .cal _ _ _ | .pass _ _ _
    | .abort _ _ | .rowSenseDone _ _ _ | .progRoundDone _ _ _ | .calibrationDone _ _ _ | .testSlot _ _ _ | .replace _ _ _ =>
    [.out, .freeCtr, .sy, .rp, .rl, .log, .pw, .hw, .cl, .pl, .dk, .tw, .us, .ar, .pg, .tray, .deck]
  | .bypassSwitch _ => [.out, .freeCtr, .dev, .sy, .rp, .rl, .log, .pw, .hw, .cl, .pl, .dk, .tw, .us, .ar, .pg, .tray, .deck]
  | .silentBerthReport _ _ => [.out, .freeCtr, .dev, .sy, .rp, .log, .dk, .tw, .us, .tray]
  | .silentMarksIsolate _ | .noClockIsolate _ =>
    [.out, .freeCtr, .sy, .rp, .ch, .rl, .log, .pw, .hw, .svc, .cl, .pl, .dk, .dm, .tw, .us, .ar, .pg, .tray, .tcm, .deck]
  | .releaseOrder _ => [.out, .sy, .rp, .ch, .rl, .pw, .cl, .tray]
  | .clockInputLoss _ _ | .counterLowRead _ _ _ | .counterHighRead _ _ _ | .accErrRead _ _ _ | .snapshotExpiry _ => [.out, .sy]
  | .tideInTransition _ | .tideHoldExpiry _ => [.out, .td]
  | .tideCandidate _ | .tideMiss _ => [.out, .rp, .td]
  | .tideFlitReceive _ _ _ => [.out, .freeCtr, .sy, .rp, .td, .log, .dk, .tw, .us, .tray]
  | .chartSlotCheckDone _ _ _ _ => [.out, .freeCtr, .sy, .rp, .ch, .log, .dk, .tw, .us, .tray]
  | .chartDistribute _ => [.out, .rp, .tray]
  | .chartStreamReceive _ _ | .berthSignatureCheckDone _ => [.out, .rp, .ch]
  | .chartAck _ _ _ | .chartAckTimeout _ _ => [.out, .freeCtr, .sy, .ch, .dk, .tw, .us, .tray]
  | .chartLock _ => [.out, .freeCtr, .sy, .rp, .td, .ch, .rl, .log, .pw, .hw, .cl, .pl, .dk, .tw, .us, .ar, .tray]
  | .reload _ _ | .redistribute _ _ | .commitRb _ _ _ | .revokeKey _ _ _ | .progKey _ _ _ => [.out, .sy, .ch, .tray]
  | .fuseBurnDone _ _ => [.out, .ch]
  | .controllerReset _ _ =>
    [.out, .freeCtr, .dev, .sy, .rp, .rl, .log, .pw, .hw, .svc, .cl, .pl, .dk, .dm, .tw, .us, .tray, .tcm, .deck]
  | .sleep _ _ => [.out, .dev, .sy, .cl, .ar]
  | .sleepWake => [.out, .dev, .log, .cl, .tw]
  | .pilotStart _ => [.out, .pl, .tcm]
  | .railOnDelayExpiry _ _ | .powerGoodRise _ _ => [.out, .freeCtr, .rp, .rl, .log, .pw, .pl, .dk, .us]
  | .avsSetTimeout _ _ | .powerGoodDrop _ _ | .pgTimeout _ _ | .rampTimeout _ _ | .thresholdConfirm _ _ _ | .leakTrump _ _
    | .leakTrumpReceive _ _ _ | .ropeOpen _ _ | .ropeStateNotice _ _ _ _ _ | .frameReceive _ _ _ | .ackTimeout _
    | .trainTimeout _ => [.out, .freeCtr, .rp, .rl, .log, .pw, .hw, .svc, .cl, .pl, .dk, .dm, .tw, .us, .tray, .tcm, .deck]
  | .adcConversion _ _ _ => [.out, .rl, .cl]
  | .railTrumpReceive _ => [.out, .freeCtr, .pw, .dk, .tw, .us, .tray]
  | .railOffConfirm _ _ | .railOffTimeout _ _ => [.out, .freeCtr, .rp, .rl, .log, .pw, .cl, .pl, .dk, .us, .tray]
  | .faultHoldEnd _ => [.out, .freeCtr, .rp, .rl, .log, .pl, .dk, .us]
  | .thresholdWrite _ _ _ _ => [.out, .freeCtr, .sy, .rp, .rl, .log, .dk, .us]
  | .setpointTransitionEnd _ _ => [.out, .rl]
  | .logBufferArrive _ _ _ | .dfuDnload _ _ _ _ | .dfuUpload _ _ _ | .dfuClrstatus _ | .dfuAbort _ | .vbusChange _ _ =>
    [.out, .freeCtr, .rp, .log, .dk, .us]
  | .logProgramDone _ | .logEraseDone _ | .dfuEraseDone _ _ | .dfuProgramDone _ _ | .manifestationDone _ _ _ _ =>
    [.out, .freeCtr, .rp, .log, .dk, .us, .flash]
  | .logHeadFound _ _ | .writeGuardChange _ => [.out, .log]
  | .pwBudgetWrite _ _ => [.out, .freeCtr, .sy, .rp, .log, .pw, .dk, .tw, .us, .tray]
  | .admitReq _ _ | .admitCancel _ _ => [.out, .sy, .pw, .tray]
  | .avsResponse _ _ _ _ => [.out, .freeCtr, .rp, .rl, .log, .pw, .hw, .pl, .dk, .us]
  | .avsResponseTimeout _ _ | .settleTimeout _ _ => [.out, .freeCtr, .rp, .rl, .log, .pw, .hw, .dk, .us]
  | .voltageSettle _ _ => [.out, .pw]
  | .voltageTrimTick _ | .scanComplete _ => [.out, .rl, .pw]
  | .thermalLoopStep _ _ _ | .thermalCapRelease _ _ _ | .overGrantLower _ | .underGrantRaise _ => [.out, .rl, .pw, .hw]
  | .dutyCommandWrite _ _ _ _ => [.out, .sy, .cl]
  | .tachEdge _ _ _ | .pumpSpeedGate _ | .retryOffEnd _ _ | .ropeDry _ _ => [.out, .rp, .cl]
  | .encoderChange _ _ _ | .indexEdge _ _ | .kickTimeout _ _ _ | .stallDetect _ _ _ | .hostActNotice _ =>
    [.out, .freeCtr, .rp, .log, .cl, .dk, .us]
  | .stallRetry _ _ | .zoneBoostNotice _ _ _ | .pwmPeriodStart _ _ => [.out, .cl]
  | .hostSilenceExpiry _ _ => [.out, .freeCtr, .rp, .log, .cl, .dk, .tw, .us]
  | .lkClear _ _ _ => [.out, .freeCtr, .sy, .rp, .log, .cl, .dk, .us]
  | .cellWindowRead _ _ _ _ _ _ => [.out, .sy, .ar]
  | .arrayPassDone _ _ _ | .imageCheckDone _ _ _ _ =>
    [.out, .freeCtr, .sy, .rp, .rl, .log, .pw, .hw, .cl, .pl, .dk, .tw, .us, .ar, .pg, .tray, .tcm, .deck]
  | .stageOutputReceive _ _ | .featureReceive _ _ | .dummyCompare _ => [.out, .pg]
  | .bindingsFormed _ _ | .promoteSwap _ => [.out, .freeCtr, .rp, .log, .pl, .dk, .tw, .us, .ar, .pg]
  | .fallbackEntry _ _ => [.out, .freeCtr, .rp, .rl, .log, .pw, .hw, .cl, .pl, .dk, .tw, .us, .pg, .tray]
  | .policyLoadDone _ _ => [.out, .freeCtr, .sy, .rp, .log, .pl, .dk, .tw, .us, .pg, .tray]
  | .unload _ _ _ _ => [.out, .freeCtr, .sy, .rp, .rl, .log, .pw, .hw, .cl, .pl, .dk, .tw, .us, .ar, .pg, .tray]
  | .promote _ _ _ | .statsClear _ _ => [.out, .sy, .pg]
  | .start _ _ | .retrain _ _ => [.out, .freeCtr, .sy, .rp, .log, .hw, .pl, .dk, .us]
  | .stop _ _ | .serviceAbort _ _ => [.out, .freeCtr, .sy, .rp, .log, .pw, .hw, .svc, .pl, .dk, .dm, .tw, .us, .tcm, .deck]
  | .rxLock _ _ _ | .falseLock _ | .falseLockExclusionEnd _ | .txFrameBoundary _ | .freqResend _ _ => [.out, .hw]
  | .lockLost _ => [.out, .freeCtr, .rp, .log, .hw, .pl, .dk, .us]
  | .replyReceive _ | .replyTimeout _ _ => [.out, .freeCtr, .rp, .rl, .log, .pw, .hw, .svc, .pl, .dk, .dm, .tw, .us, .tcm, .deck]
  | .eventReceive _ => [.out, .freeCtr, .hw, .pl, .dk, .deck]
  | .mailboxRead _ _ _ | .mailboxWrite _ _ _ | .mailboxCtrl _ _ _ | .mailboxFreq _ _ _ => [.out, .sy, .hw]
  | .hwCplRead _ _ | .pilotWatchdogExpiry _ | .restart _ _ _ | .dmTailWrite _ _ _ _ | .dmaResume _ _ _ | .skip _ _ _
    | .preempt _ _ _ _ => [.out, .freeCtr, .sy, .rp, .log, .hw, .pl, .dk, .dm, .us, .deck]
  | .hwEvqRead _ _ => [.out, .sy, .hw, .dk]
  | .bringUp _ _ => [.out, .freeCtr, .sy, .svc, .pl, .dk, .tw, .us]
  | .serviceReset _ _ _ _ _ => [.out, .freeCtr, .sy, .pw, .hw, .svc, .pl, .dk, .tw, .us, .deck]
  | .mgmtStart _ => [.out, .freeCtr, .rp, .log, .hw, .svc, .pl, .dk, .tw, .us, .deck]
  | .statusPoll _ | .busyReissue _ | .drainEscalate _ | .resetHoldEnd _ | .reportPoll _ =>
    [.out, .freeCtr, .hw, .svc, .pl, .dk, .deck]
  | .stageTimeout _ | .resetTimeout _ => [.out, .freeCtr, .rp, .log, .pw, .hw, .svc, .pl, .dk, .dm, .tw, .us, .tcm, .deck]
  | .slotFlitReceive _ _ => [.out, .freeCtr, .rp, .log, .pw, .svc, .dk, .us, .tray]
  | .csrAccess _ | .fence _ | .wfi _ | .wfiTimeout _ | .interruptTaken _ | .mtimecmpMatch _ => [.out, .pl]
  | .msipWrite _ _ _ | .watchdogKick _ _ _ => [.out, .sy, .pl]
  | .restartStreamDone _ _ => [.out, .freeCtr, .sy, .rp, .log, .pl, .dk, .us, .tcm]
  | .imageCopyReceive _ _ => [.out, .freeCtr, .sy, .rp, .log, .pl, .dk, .us, .tray, .tcm]
  | .load _ _ _ _ _ => [.out, .sy, .tray]
  | .dkAllocAny _ _ | .dkAllocLocal _ _ => [.out, .freeCtr, .sy, .dk]
  | .dkFree _ _ _ => [.out, .sy, .dk]
  | .dmaBurstDone _ _ => [.out, .freeCtr, .sy, .rp, .rl, .log, .pw, .hw, .pl, .dk, .dm, .us, .ar, .tcm, .deck]
  | .dmaHandTimeout _ _ => [.out, .freeCtr, .rp, .log, .pl, .dk, .dm, .us]
  | .flush _ _ _ => [.out, .sy, .dm]
  | .ident _ _ | .last _ _ | .attn _ _ | .attnClr _ _ | .receiveByte _ | .unsupportedCommand _ _ _ | .transactionCut _ _ _
    | .beacon _ | .beaconEnd _ | .beaconCut _ | .beaconRepeat _ | .notifyRetry _ | .backoffEnd _ | .sleepAddressMatch _ =>
    [.out, .tw]
  | .quickCommand _ | .getStatus _ _ _ | .getDescriptor _ _ _ _ | .getConfiguration _ | .getInterface _ _ | .setDescriptor _
    | .synchFrame _ | .dfuGetstate _ | .dfuDetach _ => [.out]
  | .twAttnSet _ _ => [.out, .freeCtr, .sy, .dk, .tw, .us]
  | .hostNotify _ _ | .stretchTimeout _ | .busHang _ _ _ => [.out, .freeCtr, .rp, .log, .dk, .tw, .us]
  | .vendorLast _ _ _ _ | .setAddress _ _ | .setInterface _ _ _ | .dfuGetstatus _ | .usbSuspend _ | .remoteWakeup _
    | .telemetryIn _ => [.out, .us]
  | .clearFeature _ _ _ _ | .setFeature _ _ _ _ | .setConfiguration _ _ | .telemetryPacketAck _ => [.out, .dk, .us]
  | .usbBusReset _ _ => [.out, .freeCtr, .dev, .rp, .log, .cl, .dk, .tw, .us]
  | .usbResume _ => [.out, .dev, .log, .cl, .tw, .us]
  | .usTelPush _ _ => [.out, .freeCtr, .sy, .dk, .us]
  | .retirementNotice _ _ _ _ _ _ => [.out, .freeCtr, .rp, .log, .dk, .tw, .us, .tray]
  | .unretireRingPort _ _ _ | .berthAdmitTimeout _ => [.out, .freeCtr, .sy, .rp, .log, .dk, .us, .tray]
  | .unretireTideIn _ _ _ => [.out, .freeCtr, .sy, .rp, .td, .log, .dk, .us, .tray]
  | .unretireBerth _ _ _ =>
    [.out, .freeCtr, .sy, .rp, .td, .ch, .rl, .log, .pw, .hw, .svc, .cl, .pl, .dk, .dm, .tw, .us, .ar, .pg, .hl, .tray, .tcm,
     .deck, .flash]
  | .unretireSlot _ _ _ => [.out, .freeCtr, .sy, .rp, .rl, .log, .hw, .pl, .dk, .us, .tray]
  | .unretireAvsbus _ _ _ => [.out, .freeCtr, .sy, .rp, .rl, .log, .pw, .hw, .dk, .us, .tray]
  | .unretireCool _ _ _ | .unretireRope _ _ _ => [.out, .freeCtr, .sy, .rp, .log, .cl, .pl, .dk, .us, .tray]
  | .unretireColumn _ _ _ | .unretireArray _ _ _ => [.out, .freeCtr, .sy, .rp, .log, .dk, .us, .ar, .tray]
  | .unretireDma _ _ _ => [.out, .freeCtr, .sy, .rp, .log, .dk, .dm, .us, .tray]
  | .unretireTwiCtrl _ _ _ => [.out, .freeCtr, .sy, .rp, .log, .dk, .tw, .us, .tray]
  | .unretirePilot _ _ _ => [.out, .freeCtr, .sy, .rp, .log, .pl, .dk, .us, .tray]
  | .unretireCore _ _ _ => [.out, .freeCtr, .sy, .rp, .log, .svc, .dk, .us, .tray]
  | .unretireAck _ | .unretireAckTimeout _ => [.out, .freeCtr, .rp, .log, .dk, .us, .tray]
  | .soundingArrive _ _ _ => [.out, .freeCtr, .rp, .dk, .us, .tray]
  | .soundingDropNotice _ => [.out, .hl]
  | .ringPortTrained _ _ => [.out, .rp]

end Sys2Proof.Machine
end

