-- ==== Sys2Proof/Certificates/Slice0/Obligations.lean ====
section
/-! DEFINITION. The statements about the model that are to be proved. -/

open Sys2Proof Sys2Proof.Machine

/-! ### Supplies, resets, straps and the election -/

/-- R112, R113, R117 to R120: what starts and ends a main reset, with its bit of SY_RST_CAUSE.
R114: the standby island. VDD_STBY below its level unpowers the device; its rise leaves STBY_POR as the one cause. -/
def Obligations.MainResets : Prop :=
  (∀ s : State,
      (s.dev.stby = true → Answers .mainSupplyGood s fun t => t.dev = { s.dev with supplies := true } ∧ AgreeOff [.out, .dev] s t)
      ∧ (s.dev.stby = true → Answers .mainSupplyLoss s fun t => InMainReset 1 s t ∧ t.dev.supplies = false)
      ∧ (s.dev.stby = true → Answers .resetNAssert s fun t => InMainReset 2 s t ∧ t.dev.pinLow = true)
      ∧ Answers .resetNRelease s (fun t => t.dev = { s.dev with pinLow := false } ∧ AgreeOff [.out, .dev] s t)
      ∧ (s.dev.rstBusy = true → Answers .controllerResetFire s fun t => InMainReset 3 s t ∧ t.dev.rstBusy = false)
      ∧ (∀ i, (s.dev.tap = .extest ∨ s.dev.tap = .clamp ∨ s.dev.tap = .highz) ∧ s.dev.tap ≠ i →
          Answers (.tapInstructionLoad i) s fun t => InMainReset 4 s t ∧ t.dev.tap = i)
      ∧ (∀ i, s.dev.tap = .bypass ∨ s.dev.tap = .idcode ∨ s.dev.tap = .sample ∨ s.dev.tap = i →
          ((i ≠ .extest ∧ i ≠ .clamp ∨ s.dev.cells ≠ none) →
            Answers (.tapInstructionLoad i) s fun t => t.dev = { s.dev with tap := i } ∧ AgreeOff [.out, .dev] s t)
          ∧ ((i = .extest ∨ i = .clamp) ∧ s.dev.cells = none → Answers (.tapInstructionLoad i) s fun t =>
            t.dev = { s.dev with tap := i, cells := some s.freeCtr } ∧ AgreeOff [.out, .dev, .freeCtr] s t))
      ∧ (s.dev.tap = .extest ∨ s.dev.tap = .clamp ∨ s.dev.tap = .highz →
          Answers .tapTestLogicReset s fun t => InMainReset 4 s t)
      ∧ (s.dev.tap = .bypass ∨ s.dev.tap = .idcode ∨ s.dev.tap = .sample →
          Answers .tapTestLogicReset s fun t => AgreeOff [.out, .dev] s t))
  ∧ (∀ s : State,
      Answers .vddStbyLoss s (fun t => t.dev.stby = false ∧ t.dev.supplies = false ∧ ∀ b, (t.at b).sy.inReset = true)
      ∧ Answers .vddStbyReset s (fun t => t.dev.stby = true ∧ (t.at 0).sy.cause = 1 ∧ (t.at 4).sy.cause = 1
          ∧ ∀ b, (t.at b).sy.inReset = true ∧ (t.at b).ch.fuse = (s.at b).ch.fuse ∧ (t.at b).ch.keys = (s.at b).ch.keys))

/-- R112, R124 to R127: the release of a berth, its straps, its PLL and the claims.
R128 to R131: the end of the training window, a repeated election, a berth that joins late.
Readings of the model in it: notes entries 46 and 75. -/
def Obligations.StartAndElection : Prop :=
  (∀ s : State,
      (∀ b, s.dev.supplies = true ∧ s.dev.pinLow = false ∧ (s.at b).sy.inReset = true →
        Answers (.mainResetRelease b) s fun t =>
          (t.at b).sy = { (s.at b).sy with inReset := false, step := 1 } ∧ Keeps [b] s t)
      ∧ (∀ b addr boot inh unstable reach, (b = 0 ∨ b = 4) ∧ (s.at b).sy.inReset = false ∧ (s.at b).sy.straps.valid = false →
        Answers (.strapSampleDone b addr boot inh unstable reach) s fun t =>
          (t.at b).sy.straps = ⟨addr.val, boot.val, inh, unstable, true⟩)
      ∧ (∀ b reach, (b = 0 ∨ b = 4) ∧ (s.at b).sy.inReset = false → Answers (.pllLock b reach) s fun t => (t.at b).sy.pll = true)
      ∧ (∀ reach, candidate s 4 = true ∧ (s.at 4).sy.st = .inert ∧ (s.at 4).sy.claims = false ∧ s.harbour = none →
        Answers (.b4ClaimWaitExpiry reach) s fun t => t.dev = { s.dev with window := true } ∧ (t.at 4).sy.claims = true
          ∧ (t.at 4).sy.isSrc = true ∧ (t.at 4).sy.st = .training)
      ∧ ((s.at 0).sy.claims = true ∧ (s.at 4).sy.claims = true → Answers .claimCollision s fun t =>
          (t.at 4).sy.claims = false ∧ (t.at 4).sy.isSrc = false ∧ (t.at 4).sy.clkSrc = 0 ∧ (t.at 4).sy.st = .training
          ∧ AgreeOff [.out, .sy, .td] s t ∧ ∀ n, n ≠ 4 →
            if (s.at n).sy.st = .training ∧ (s.at n).sy.clkSrc = 4 then (t.at n).sy.clkSrc = 0 ∧ (t.at n).sy.st = .training
            else t.at n = s.at n))
  ∧ (∀ s : State,
      (∀ present segs chords h, s.dev.window = true ∧ (h = 0 ∨ h = 4 ∧ (s.at 0).sy.claims = false) ∧ (s.at h).sy.claims = true
          ∧ (s.at h).sy.st = .training →
        Answers (.trainingWindowEnd present segs chords) s fun t => t.dev.window = false
          ∧ t.dev.elections = min 15 (s.dev.elections + 1) ∧ nbit t.dev.present h.val = true ∧ (t.at h).tw.active = true)
      ∧ (∀ b, trayLocked s = false ∧ (s.at b).sy.st = .moored →
        Answers (.electionRepeat b true) s fun t => nbit t.dev.excluded (s.at b).sy.harbour.val = true
          ∧ (t.at b).sy.st = .training ∧ (t.at b).sy.isHarbour = false ∧ nbit t.dev.present b.val = false
          ∧ (candidate s 4 = true ∧ (s.at b).sy.harbour ≠ 4 → t.dev.window = true ∧ (t.at 4).sy.claims = true))
      ∧ (∀ b h segs chords, s.harbour = some h ∧ (s.at b).sy.inReset = false ∧ (s.at b).sy.st = .inert ∧ s.dev.window = false
          ∧ nbit (s.at h).tray.hl.retired b.val = false →
        Answers (.lateBerthJoin b segs chords) s fun t => (t.at b).sy.st = .training ∧ (t.at b).sy.joining = true
          ∧ (t.at b).sy.clkSrc = (s.at h).sy.clkSrc ∧ AgreeOff [.out, .sy, .rp, .td] s t)
      ∧ (∀ b c segs chords, s.harbour = none ∧ (c = 0 ∨ c = 4 ∧ (s.at 0).sy.claims = false) ∧ (s.at c).sy.claims = true
          ∧ s.dev.window = true ∧ (s.at b).sy.inReset = false ∧ (s.at b).sy.st = .inert →
        Answers (.lateBerthJoin b segs chords) s fun t => (t.at b).sy.st = .training ∧ (t.at b).sy.clkSrc = c
          ∧ AgreeOff [.out, .sy, .td] s t))

/-! ### The ring, the forwarded clock, retirement and isolation -/

/-- R20, R21: flits in sequence are accepted, one out of sequence or with a wrong CRC asks for a replay once, and a replay request
is served from the replay buffer.
R29: none of this passes at a berth in holdover.
R460: an un-retired port and its partner that have trained are ready for the next mark boundary.
Readings of the model in it: notes entry 45. -/
def Obligations.RingTransport : Prop :=
  (∀ (s : State) (b : BId) (p : Fin 4) (seq : BitVec 8), carries s b p.val = true →
      (seq.toNat = (portOf s b p.val).rxSeq → Answers (.flitReceive b p seq true) s fun t =>
        (portOf t b p.val).rxSeq = ((portOf s b p.val).rxSeq + 1) % 256 ∧ (portOf t b p.val).asked = false ∧ t.out = []
          ∧ Keeps [b] s t ∧ AgreeOff [.out, .sy, .rp] s t)
      ∧ (∀ crcOk, (crcOk = false ∨ seq.toNat ≠ (portOf s b p.val).rxSeq) ∧ (portOf s b p.val).asked = false →
        Answers (.flitReceive b p seq crcOk) s fun t => t.out = [.replayReq b p.val (portOf s b p.val).rxSeq]
          ∧ (portOf t b p.val).rxSeq = (portOf s b p.val).rxSeq ∧ (portOf t b p.val).asked = true ∧ Keeps [b] s t)
      ∧ (∀ n, n = ((portOf s b p.val).txSeq + 256 - seq.toNat) % 256 ∧ 0 < n ∧ n ≤ (portOf s b p.val).replay.length →
        Answers (.replayRequest b p seq) s fun t =>
          .resend b p.val seq.toNat n ((portOf s b p.val).replay.drop ((portOf s b p.val).replay.length - n)) ∈ t.out
            ∧ (t.at b).sy.ringRetry = ((s.at b).sy.ringRetry + n) % 2 ^ 64 ∧ AgreeOff [.out, .sy, .rp] s t))
  ∧ (∀ (s : State) (b : BId) (p : Fin 4) (seq : BitVec 8) (crcOk : Bool), (s.at b).sy.holdover = true →
      Answers (.flitReceive b p seq crcOk) s (fun t => t = s.begin) ∧ Answers (.replayRequest b p seq) s (fun t => t = s.begin))
  ∧ (∀ (s : State) (b : BId) (p : Fin 4), (portOf s b p.val).training = true →
      Answers (.ringPortTrained b p) s fun t =>
        (portOf t b p.val).training = false ∧ (portOf t b p.val).ready = true ∧ (portOf t b p.val).replay = []
          ∧ (portOf t b p.val).retired = (portOf s b p.val).retired ∧ Keeps [b, portPeer b p.val] s t)

/-- R24, R25: an ordered retirement from the order to the switch of the bypass, and a silent berth.
Readings of the model in it: notes entries 48 and 81. -/
def Obligations.BerthRetirement : Prop :=
  ∀ (s : State) (b : BId),
    ((s.at b).sy.retireOrder = false ∧ ((s.at b).sy.st = .moored ∨ (s.at b).sy.st = .active ∨ (s.at b).sy.st = .isolated) →
      Answers (.berthRetireOrder b) s fun t => (t.at b).sy = { (s.at b).sy with retireOrder := true })
    ∧ ((s.at b).sy.retireOrder = true ∧ (s.at b).sy.bypassAt = none ∧ slotDone s b = true ∧ inRing s b = true →
      Answers (.bypassNotice b) s fun t => ((s.at b).sy.holdover = false → t.out = [.ring b none .bypassNotice])
        ∧ (t.at b).sy = { (s.at b).sy with bypassAt := some (markCount (s.at b).td + 3) } ∧ Keeps [b] s t)
    ∧ ((s.at b).sy.retireOrder = true ∧ (s.at b).sy.bypassAt = none ∧ slotDone s b = false ∧ inRing s b = true →
      Answers (.shutdownBoundExpiry b) s fun t => ∀ r : Fin 13, (vget (t.at b).rl.rails r.val).en = false)
    ∧ (∀ k, (s.at b).sy.bypassAt = some k ∧ k ≤ markCount (s.at b).td →
      Answers (.bypassSwitch b) s fun t => (t.at b).sy.st = .retired ∧ (t.at b).sy.bypassAt = none
        ∧ nbit t.dev.present b.val = false ∧ nbit t.dev.skip b.val = true)
    ∧ (∀ n, inRing s b = true ∧ inRing s n = true ∧ adjacent s b n = true →
      Answers (.silentBerthDetect b n) s fun t =>
        ((s.at b).sy.holdover = false → t.out = [.ring b (some (s.at b).sy.harbour) (.silentBerth n)])
        ∧ (t.at b).sy = { (s.at b).sy with silentSeen := (s.at b).sy.silentSeen ||| 2 ^ n.val } ∧ Keeps [b] s t)
    ∧ (∀ n, (s.at b).sy.isHarbour = true ∧ n ≠ b ∧ inRing s n = true →
      Answers (.silentBerthReport b n) s fun t => nbit t.dev.present n.val = false)
    ∧ (∀ n, (s.at b).sy.isHarbour = false →
      Answers (.silentBerthReport b n) s fun t =>
        (t.at b).sy = { (s.at b).sy with silentKnown := (s.at b).sy.silentKnown ||| 2 ^ n.val } ∧ Keeps [b] s t)

/-- R27, R462: isolation, the report of an isolated berth, and its release.
R18: the standby harbour that has counted four silent marks takes the role and sends the next heartbeat, in holdover once that
ends (R29). Readings of the model in it: notes entries 49 and 73. -/
def Obligations.IsolationAndTakeover : Prop :=
  (∀ (s : State) (b : BId),
      (trayLocked s = true ∧ serving s b = true ∧ (s.at b).sy.isHarbour = false ∧ 16 ≤ (s.at b).sy.silentMarks →
        Answers (.silentMarksIsolate b) s fun t => (t.at b).sy.st = .isolated)
      ∧ (trayLocked s = true ∧ serving s b = true ∧ ((s.at b).sy.isSrc = true ∨ (s.at b).sy.holdover = true) →
        Answers (.noClockIsolate b) s fun t => (t.at b).sy.st = .isolated ∧ (t.at b).sy.isHarbour = false
          ∧ (t.at b).sy.clkLocked = false)
      ∧ (∀ n, (s.at b).sy.isHarbour = true ∧ nbit (s.at b).tray.hl.retired n.val = false →
        Answers (.isolatedReport b n) s fun t =>
          (t.at b).tray = { (s.at b).tray with release := (s.at b).tray.release ||| 2 ^ n.val } ∧ Keeps [b] s t)
      ∧ (∀ h, s.harbour = some h ∧ (s.at b).sy.st = .isolated →
        Answers (.releaseOrder b) s fun t => (t.at b).sy.st = .moored ∧ (t.at b).sy.harbour = h ∧ (t.at b).ch.locked = false
          ∧ AgreeOff [.out, .sy, .rp, .ch, .rl, .pw, .cl, .tray] s t))
  ∧ (∀ (s : State) (b : BId), isStandby s b = true ∧ 4 ≤ (s.at b).sy.silentMarks →
      Answers (.silentMarksTakeover b) s fun t => (t.at b).sy.isHarbour = true ∧ (t.at b).sy.harbour = b
        ∧ ∃ w, if (t.at b).sy.holdover then (none, .tide w) ∈ (t.at b).rp.held else Output.ring b none (.tide w) ∈ t.out)

/-- R29 to R31: the loss of a clock input, the switchover, and the standby harbour as clock source.
Readings of the model in it: notes entries 45 and 46. -/
def Obligations.ForwardedClock : Prop :=
  ∀ (s : State) (b : BId),
    (∀ edges, (s.at b).sy.isSrc = false ∧ (s.at b).sy.st ≠ .inert →
      Answers (.clockInputLoss b edges) s fun t => Keeps [b] s t ∧ (t.at b).sy = { (s.at b).sy with
        holdover := true, clkLocked := false
        switchTo := (s.at b).sy.order.find? fun i => i != (s.at b).sy.clkIn && nbit edges.toNat (clkCode i) && inputMarked s b i })
    ∧ (∀ i, (s.at b).sy.switchTo = some i →
      Answers (.clockSwitchoverDone b) s fun t => Keeps [b] s t ∧ (t.at b).sy = { (s.at b).sy with
        clkIn := i, switchTo := none, holdover := false, clkLocked := true, clkSwitch := sinc (s.at b).sy.clkSwitch
        holdEnd := some s.now } ∧ (t.at b).rp.held = [])
    ∧ (isStandby s b = true ∧ (s.at b).sy.pll = true ∧ (s.at b).sy.isSrc = false ∧ (s.at b).sy.holdover = true →
      Answers (.standbyClockSource b) s fun t => (t.at b).sy.isSrc = true ∧ (t.at b).sy.clkLocked = true
        ∧ (∀ n, (t.at n).sy.clkSrc = b ∧ (n ≠ b → (t.at n).sy.isSrc = false)) ∧ AgreeOff [.out, .sy, .rp] s t)

/-! ### Accesses, registers, snapshots -/

/-- R39: an access error is recorded at the berth that the tests name, the first with its details, later ones as OVERRUN; the write
has no effect, and the read returns 0. Readings of the model in it: notes entry 20. -/
def Obligations.AccessErrors : Prop :=
  ∀ (s : State) (req : ReqId) (own h : BId) (addr : Word) (w : Who) (c : Nat), whoOf req own = some w →
    (∀ val, access s w true addr.toNat 4 = .error (c, h) → Answers (.registerWrite req own addr val) s fun t =>
      Keeps [h] s t ∧ AgreeOff [.out, .sy] s t ∧ t.out = []
        ∧ ((s.at h).sy.errCause = 0 → (t.at h).sy = { (s.at h).sy with
            errCause := c, errReq := req.val, errWrite := true, errAddr := addr, errOrigin := if req = 8 then own.val else 0 })
        ∧ ((s.at h).sy.errCause ≠ 0 → (t.at h).sy = { (s.at h).sy with errOver := true }))
    ∧ (access s w false addr.toNat 4 = .error (c, h) → ∀ i ∈ [Instr.counterLowRead req own addr, .counterHighRead req own addr,
        .accErrRead req own addr], Answers i s fun t =>
      Keeps [h] s t ∧ AgreeOff [.out, .sy] s t ∧ t.out = [.value 0]
        ∧ ((s.at h).sy.errCause = 0 → (t.at h).sy = { (s.at h).sy with
            errCause := c, errReq := req.val, errWrite := false, errAddr := addr, errOrigin := if req = 8 then own.val else 0 })
        ∧ ((s.at h).sy.errCause ≠ 0 → (t.at h).sy = { (s.at h).sy with errOver := true }))

/-- R10, R12, R13, R47: a write that passes the tests, shown on TD_FILT: before the chart lock each field takes its value unless
that is reserved; afterwards the register stays. Nothing else changes but the harbour's host activity.
Readings of the model in it: notes entry 28. -/
def Obligations.RegisterWriteFields : Prop :=
  ∀ (s : State) (req : ReqId) (own b : BId) (addr val : Word) (w : Who) (tray : Bool), whoOf req own = some w →
    access s w true addr.toNat 4 = .ok (b, .reg tray 1 0x020) → Answers (.registerWrite req own addr val) s fun t =>
      AgreeOff [.out, .sy, .td] s t ∧ t.out = [] ∧ (∀ n, n ≠ b → (t.at n).td = (s.at n).td)
        ∧ (t.at b).td = { (s.at b).td with filt := (t.at b).td.filt }
        ∧ ((s.at b).log.on = true → (t.at b).td.filt = (s.at b).td.filt)
        ∧ ((s.at b).log.on = false →
            fld (t.at b).td.filt 7 0 = fld val 7 0
            ∧ fld (t.at b).td.filt 11 8 = (if 2 ≤ fld val 11 8 then fld val 11 8 else fld (s.at b).td.filt 11 8)
            ∧ fld (t.at b).td.filt 15 12 = (if 1 ≤ fld val 15 12 then fld val 15 12 else fld (s.at b).td.filt 15 12)
            ∧ fld (t.at b).td.filt 23 16 = (if 1 ≤ fld val 23 16 then fld val 23 16 else fld (s.at b).td.filt 23 16)
            ∧ fld (t.at b).td.filt 31 24 = fld (s.at b).td.filt 31 24)

/-- R36, R39, R364: a word written to TCM or deck share stores its four bytes there, low byte first, and no other byte. The premise that
the berth's memories are canonical is an invariant of every step (MemoryStaysCanonical). -/
def Obligations.MemoryWrite : Prop :=
  ∀ (s : State) (req : ReqId) (own b : BId) (addr val : Word) (w : Who) (o : Nat), whoOf req own = some w ∧ (s.at b).memCanonical = true →
    (access s w true addr.toNat 4 = .ok (b, .tcm o) → Answers (.registerWrite req own addr val) s fun t =>
      memRead ramD (t.at b).tcm o 4 = leBytes 4 val.toNat
        ∧ (∀ a, a < o ∨ o + 4 ≤ a → memGet ramD (t.at b).tcm a = memGet ramD (s.at b).tcm a)
        ∧ (∀ n, n ≠ b → (t.at n).tcm = (s.at n).tcm ∧ (t.at n).pl = (s.at n).pl)
        ∧ (t.at b).pl = { (s.at b).pl with resv := (t.at b).pl.resv }
        ∧ ((t.at b).pl.resv = (s.at b).pl.resv ∨ (t.at b).pl.resv = none)
        ∧ (∀ a, req.val ≠ b.val ∧ (s.at b).pl.resv = some a ∧ a < o + 4 ∧ o < a + 4 → (t.at b).pl.resv = none)
        ∧ AgreeOff [.out, .sy, .tcm, .pl] s t)
    ∧ (access s w true addr.toNat 4 = .ok (b, .deck o) → Answers (.registerWrite req own addr val) s fun t =>
      memRead ramD (t.at b).deck o 4 = leBytes 4 val.toNat
        ∧ (∀ a, a < o ∨ o + 4 ≤ a → memGet ramD (t.at b).deck a = memGet ramD (s.at b).deck a)
        ∧ (∀ n, n ≠ b → (t.at n).deck = (s.at n).deck ∧ (t.at n).pl = (s.at n).pl)
        ∧ AgreeOff [.out, .sy, .deck, .pl] s t)

/-- R39, R43: the reads that do more than return a value, once they pass the tests: a counter's low word latches its high word for the
requester, a high word returns and empties the latch or is live, and SY_ACC_ERR is cleared.
R44, R45: snapshots. TAKE arms the berth, or every berth of the ring that is ACTIVE or MOORED for one mark, RELEASE releases the berth or
every one, and a freeze ends after 256 tides. Readings of the model in it: notes entry 26. -/
def Obligations.ReadsAndSnapshots : Prop :=
  (∀ (s : State) (req : ReqId) (own b : BId) (addr : Word) (w : Who) (tray : Bool) (blk off : Nat), whoOf req own = some w →
      access s w false addr.toNat 4 = .ok (b, .reg tray blk off) →
        (lowWords.contains (4096 * blk + off) = true → Answers (.counterLowRead req own addr) s fun t =>
          t.out = [.value ((regValue s b tray req blk off).getD 0)] ∧ AgreeOff [.out, .sy] s t
            ∧ vget (t.at b).sy.latch req.val = some ⟨4096 * blk + off, (regValue s b tray req blk (off + 4)).getD 0⟩
            ∧ ∀ q : ReqId, q ≠ req → vget (t.at b).sy.latch q.val = vget (s.at b).sy.latch q.val)
        ∧ (∀ l, lowWords.contains (4096 * blk + off - 4) = true ∧ vget (s.at b).sy.latch req.val = some l
            ∧ l.ctr = 4096 * blk + off - 4 →
          Answers (.counterHighRead req own addr) s fun t =>
            t.out = [.value l.hi] ∧ AgreeOff [.out, .sy] s t ∧ vget (t.at b).sy.latch req.val = none)
        ∧ (lowWords.contains (4096 * blk + off - 4) = true ∧ vget (s.at b).sy.latch req.val = none →
          Answers (.counterHighRead req own addr) s fun t =>
            t.out = [.value ((regValue s b tray req blk off).getD 0)] ∧ AgreeOff [.out, .sy] s t)
        ∧ (4096 * blk + off = 0x0040 → Answers (.accErrRead req own addr) s fun t =>
          t.out = [.value ((liveReg s b false 0 0x0 0x040).getD 0)] ∧ AgreeOff [.out, .sy] s t
            ∧ (t.at b).sy.errCause = 0 ∧ (t.at b).sy.errOver = false))
  ∧ (∀ (s : State) (req : ReqId) (own b : BId) (w : Who), whoOf req own = some w →
      (access s w true (snapAddr (some b)) 4 = .ok (b, .reg false 0 0x020) →
        (Answers (.snapTake req own (some b)) s fun t =>
          (t.at b).sy.snapPend = true ∧ (t.at b).sy.snapExpired = false ∧ (t.at b).sy.snapFrozen = (s.at b).sy.snapFrozen
            ∧ AgreeOff [.out, .sy] s t)
        ∧ (Answers (.snapRelease req own (some b)) s fun t =>
          (t.at b).sy.snapFrozen = false ∧ (t.at b).sy.frozen = [] ∧ (t.at b).sy.snapPend = (s.at b).sy.snapPend
            ∧ AgreeOff [.out, .sy] s t))
      ∧ (access s w true (snapAddr none) 4 = .ok (b, .reg true 0 0x020) →
        (Answers (.snapTake req own none) s fun t => AgreeOff [.out, .sy] s t
          ∧ ∀ n, reachable s n = true → (t.at n).sy.snapPend = true ∧ (t.at n).sy.snapAt = some (markCount (s.at b).td + 1))
        ∧ (Answers (.snapRelease req own none) s fun t => AgreeOff [.out, .sy] s t
          ∧ ∀ n, (t.at n).sy.snapFrozen = false ∧ (t.at n).sy.frozen = []))
      ∧ ((s.at b).sy.snapFrozen = true ∧ (s.at b).sy.snapTide + 256 ≤ (s.at b).td.tide →
        Answers (.snapshotExpiry b) s fun t => Keeps [b] s t ∧ AgreeOff [.out, .sy] s t
          ∧ (t.at b).sy = { (s.at b).sy with snapFrozen := false, frozen := [], snapExpired := true }))

/-! ### The tide -/

/-- R48 to R53: an edge on TIDE_IN, the candidate it becomes, a window without one, and the end of HOLD.
Readings of the model in it: notes entry 72. -/
def Obligations.TideLoop : Prop :=
  ∀ (s : State) (b : BId),
    (∀ high, inputOn s b = true → Answers (.tideInTransition ⟨b, high⟩) s fun t =>
      Keeps [b] s t ∧ AgreeOff [.out, .td] s t ∧ (t.at b).td = { (s.at b).td with
        edgeAt := if high = !bitAt (loopCtrl (s.at b)) 1 then (s.at b).td.edgeAt.or (some s.now) else none })
    ∧ (∀ at0, (s.at b).td.edgeAt = some at0 ∧ s.now < at0 + 25 * fld (loopFilt (s.at b)) 7 0 →
      Answers (.tideCandidate b) s (fun t => t = s.begin))
    ∧ (∀ at0, (s.at b).td.edgeAt = some at0 ∧ at0 + 25 * fld (loopFilt (s.at b)) 7 0 ≤ s.now ∧ inputOn s b = true →
      ((s.at b).td.loop = .inputRetired → Answers (.tideCandidate b) s fun t =>
        (t.at b).td = { (s.at b).td with edgeAt := none, edgeOk := sinc (s.at b).td.edgeOk } ∧ Keeps [b] s t)
      ∧ ((s.at b).td.loop ≠ .inputRetired ∧ (s.at b).td.ref = none → Answers (.tideCandidate b) s fun t =>
        Keeps [b] s t ∧ (t.at b).td = { (s.at b).td with
          edgeAt := none, edgeOk := sinc (s.at b).td.edgeOk, ref := some (at0 * 2 ^ 32), clean := true, losses := 0, periods := []
          fromHold := (s.at b).td.loop == .hold, loop := .acquire })
      ∧ (∀ r, (s.at b).td.loop = .locked ∧ (s.at b).td.ref = some r ∧ (s.at b).td.clean = true
          ∧ r + (loopWindow (s.at b)).1 ≤ at0 * 2 ^ 32 ∧ at0 * 2 ^ 32 ≤ r + (loopWindow (s.at b)).2 →
        Answers (.tideCandidate b) s fun t => Keeps [b] s t ∧ (t.at b).td.loop = .locked ∧ (t.at b).td.ref = some (at0 * 2 ^ 32)
          ∧ (t.at b).td.losses = 0 ∧ (t.at b).td.edgeOk = sinc (s.at b).td.edgeOk
          ∧ (t.at b).td.p = (7 * (s.at b).td.p + (at0 * 2 ^ 32 - r)) / 8)
      ∧ (∀ r, (s.at b).td.loop ≠ .inputRetired ∧ (s.at b).td.ref = some r
          ∧ (at0 * 2 ^ 32 < r + (loopWindow (s.at b)).1 ∨ r + (loopWindow (s.at b)).2 < at0 * 2 ^ 32)
          ∧ (s.at b).td.losses + 1 < fld (loopFilt (s.at b)) 15 12 →
        Answers (.tideCandidate b) s fun t => Keeps [b] s t ∧ (t.at b).td = { (s.at b).td with
          edgeAt := none, edgeRej := sinc (s.at b).td.edgeRej, losses := (s.at b).td.losses + 1 }))
    ∧ (∀ r, (s.at b).td.ref = some r →
      ((s.at b).td.losses + 1 < fld (loopFilt (s.at b)) 15 12 → Answers (.tideMiss b) s fun t =>
        Keeps [b] s t ∧ (t.at b).td = { (s.at b).td with
          ref := some (r + if (s.at b).td.loop = .locked then (s.at b).td.p else (s.at b).td.pn), clean := false, periods := []
          losses := (s.at b).td.losses + 1 })
      ∧ (fld (loopFilt (s.at b)) 15 12 ≤ (s.at b).td.losses + 1 ∧ (s.at b).td.loop = .acquire → Answers (.tideMiss b) s fun t =>
        Keeps [b] s t ∧ (t.at b).td.ref = none ∧ (t.at b).td.loop = if (s.at b).td.fromHold then .hold else .free)
      ∧ (fld (loopFilt (s.at b)) 15 12 ≤ (s.at b).td.losses + 1 ∧ (s.at b).td.loop = .locked → Answers (.tideMiss b) s fun t =>
        Keeps [b] s t ∧ (t.at b).td.ref = none ∧ (t.at b).td.lockLoss = sinc (s.at b).td.lockLoss
          ∧ (t.at b).td.loop = if (classEvent s b 2 (s.at b).td.inHist).1 then .inputRetired else .hold))
    ∧ (fld (loopSlew (s.at b)) 31 16 ≤ (s.at b).td.holdTides ∧ (s.at b).td.loop = .hold → Answers (.tideHoldExpiry b) s fun t =>
        Keeps [b] s t ∧ (t.at b).td.loop = .free ∧ (t.at b).td.ref = none)

/-- R60, R61: a TIDE flit at a berth that is not the harbour. `h` is the harbour's boundary as the flit tells it, and `d` its distance from
the berth's own. The first flit of a mark loads the count; later ones leave a skew of 40 ns alone, slew up to an eighth of a mark, load a
count ahead of the berth's own at its next boundary, hold a generator that is ahead, and retire a berth more than 256 marks ahead of the
harbour. The second flit of mark 0 brings the period and the dither offset. R5, R59: a flit with a reserved bit set does nothing.
Readings of the model in it: notes entries 47 and 74. -/
def Obligations.TideFlits : Prop :=
  ∀ (s : State) (b : BId) (w : BitVec 64) (sub : Fin 16) (count : Nat) (h d : Int), (s.at b).sy.isHarbour = false
      ∧ (serving s b = true ∨ (s.at b).sy.st = .isolated) ∧ count = w.toNat % 2 ^ 40 * 256 + w.toNat / 2 ^ 40 % 256
      ∧ h = flitBoundary s.now sub.val ((hops s (bid (w.toNat / 2 ^ 56 % 8)) b).getD 0) ∧ d = skewOf (s.at b).td count h →
    (∀ f, tideFlitOk f = false → Answers (.tideFlitReceive b f sub) s fun t => t = s.begin)
    ∧ (tideFlitOk (.period w) = true → Answers (.tideFlitReceive b (.period w) sub) s fun t => Keeps [b] s t ∧ AgreeOff [.out, .td] s t
      ∧ (t.at b).td.pnNext = some (w.toNat % 2 ^ 40 * 65536)
      ∧ if (s.at b).td.mark < 128 then (t.at b).td.dith = w.toNat / 2 ^ 40 % 64 else (t.at b).td.dithNext = some (w.toNat / 2 ^ 40 % 64))
    ∧ (tideFlitOk (.mark w) = true →
      ((s.at b).td.synced = false → Answers (.tideFlitReceive b (.mark w) sub) s fun t => Keeps [b] s t
        ∧ (t.at b).td.synced = true ∧ markCount (t.at b).td = count ∧ (t.at b).sy.heard = true
        ∧ (t.at b).sy.harbour = bid (w.toNat / 2 ^ 56 % 8) ∧ (t.at b).td.markStart = h.toNat / 2 ^ 40)
      ∧ ((s.at b).td.synced = true ∧ (s.at b).td.held = false ∧ markCount (s.at b).td = count ∧ (toNs d).natAbs ≤ 40 →
        Answers (.tideFlitReceive b (.mark w) sub) s fun t => Keeps [b] s t
          ∧ (t.at b).td = { (s.at b).td with skew := toNs d } ∧ (t.at b).sy.heard = true)
      ∧ ((s.at b).td.synced = true ∧ (s.at b).td.held = false ∧ markCount (s.at b).td = count ∧ 40 < (toNs d).natAbs
          ∧ d.natAbs * 8 ≤ (s.at b).td.pn →
        Answers (.tideFlitReceive b (.mark w) sub) s fun t => Keeps [b] s t
          ∧ (t.at b).td = { (s.at b).td with skew := toNs d, slewLeft := d - (s.at b).td.slewNow, slewBy := 64 })
      ∧ ((s.at b).td.synced = true ∧ (s.at b).td.held = false ∧ markCount (s.at b).td + 1 < count
          ∧ (classEvent s b 3 (s.at b).td.syncHist).1 = false →
        Answers (.tideFlitReceive b (.mark w) sub) s fun t => Keeps [b] s t ∧ (t.at b).td.held = false
          ∧ (t.at b).td.resync = sinc (s.at b).td.resync ∧ (t.at b).td.load = some (loadCount count h (s.at b).td))
      ∧ ((s.at b).td.synced = true ∧ (s.at b).td.held = false ∧ count < markCount (s.at b).td ∧ markCount (s.at b).td ≤ count + 256
          ∧ (classEvent s b 3 (s.at b).td.syncHist).1 = false →
        Answers (.tideFlitReceive b (.mark w) sub) s fun t => Keeps [b] s t ∧ (t.at b).td.held = true
          ∧ (t.at b).td.resync = sinc (s.at b).td.resync ∧ markCount (t.at b).td = markCount (s.at b).td)
      ∧ (∀ n, s.harbour = some n ∧ (s.at b).td.synced = true ∧ count + 256 < markCount (s.at b).td
          ∧ nbit (s.at n).tray.hl.retired b.val = false ∧ (s.at n).sy.holdover = false →
        Answers (.tideFlitReceive b (.mark w) sub) s fun t => .ring n (some b) .retireOrder ∈ t.out))

/-! ### The chart -/

/-- R93, R94, R96: the check of a slot ends: a passing slot is distributed, a failing one is recorded and the other slot follows, and
after both the chart has FAILED. Readings of the model in it: notes entry 51. -/
def Obligations.ChartSlotCheck : Prop :=
  ∀ (s : State) (h : BId) (unA unB rdErr slotB other : Bool) (u : State), s.harbour = some h ∧ s.dev.sleep = false
      ∧ (s.at h).ch.load = .check slotB other ∧ u = dfuChartCut h slotB s.begin →
    Answers (.chartSlotCheckDone h unA unB rdErr) s fun t =>
      match chartCheck u h slotB (rdErr || (if slotB then unB else unA)) with
      | none => (t.at h).ch.state = .distributing ∧ (t.at h).ch.load = .idle ∧ (t.at h).ch.slot = some slotB
        ∧ (t.at h).ch.digest = chartDigest (slotChart u h slotB)
        ∧ (∀ n : BId, vget (t.at h).tray.dist n.val = if n ≠ h ∧ nbit (t.at h).populated n.val = true then .due slotB else .none)
        ∧ AgreeOff [.out, .freeCtr, .rp, .ch, .log, .dk, .us, .tray] s t
      | some (code, idx) => (t.at h).ch.errCode = code ∧ (t.at h).ch.errSlot = slotB ∧ (t.at h).ch.errIndex = idx
        ∧ (t.at h).ch.loadFail = sinc (s.at h).ch.loadFail
        ∧ (other = true → (t.at h).ch.load = .check (!slotB) false ∧ (t.at h).ch.state = (s.at h).ch.state)
        ∧ (other = false → (t.at h).ch.load = .idle ∧ (t.at h).ch.state = .failed ∧ nbit (t.at h).tw.attn 5 = true)

/-- R96: the chart goes to every berth that is due; a moored berth keeps its records and acknowledges with digest, versions and its
fuse; a harbour-capable berth's own check of key and signature follows. Readings of the model in it: notes entry 52. -/
def Obligations.ChartStream : Prop :=
  ∀ (s : State) (h b : BId) (bs : List Byte),
    (s.harbour = some h ∧ ((s.at h).ch.state = .distributing ∨ (s.at h).ch.locked = true) → Answers (.chartDistribute h) s fun t =>
      AgreeOff [.out, .rp, .tray] s t ∧ ∀ n : BId,
        (∀ sl, vget (s.at h).tray.dist n.val = .due sl → vget (t.at h).tray.dist n.val = .sent sl false
          ∧ vget (t.at h).tray.attempts n.val = vget (s.at h).tray.attempts n.val + 1
          ∧ ((s.at h).sy.holdover = false → .ring h (some n) (.chart (slotChart s h sl)) ∈ t.out))
        ∧ ((∀ sl, vget (s.at h).tray.dist n.val ≠ .due sl) → vget (t.at h).tray.dist n.val = vget (s.at h).tray.dist n.val))
    ∧ ((s.at b).sy.st = .moored ∧ (s.at b).sy.isHarbour = false → Answers (.chartStreamReceive b bs) s fun t =>
      Keeps [b] s t ∧ AgreeOff [.out, .rp, .ch] s t ∧ (t.at b).ch.state = .distributing ∧ (t.at b).ch.stream = bs
        ∧ (t.at b).ch.digest = chartDigest bs ∧ (∀ rs, chartRecs bs = .ok rs → (t.at b).ch.recs = rs.filter (keepsRec b))
        ∧ (t.at b).ch.sigDue = hbrCap (t.at b) b
        ∧ ((s.at b).sy.holdover = false → t.out = [.ring b (some (s.at b).sy.harbour) (.chartAck
            (.first (chartDigest bs) (wordAt bs 0x0C) (natAt bs 0x10 1) (vget (s.at b).ch.fuse 0)))]))
    ∧ ((s.at b).ch.sigDue = true → Answers (.berthSignatureCheckDone b) s fun t => Keeps [b] s t
        ∧ (t.at b).ch = { (s.at b).ch with sigDue := false, stream := [] }
        ∧ ((s.at b).sy.holdover = false →
            t.out = [.ring b (some (s.at b).sy.harbour) (.chartAck (.sig (chartAuthentic (s.at b) (s.at b).ch.stream)))]))

/-- R96, R97: the harbour judges acknowledgements: a berth agrees, is sent the chart again, or after three attempts is held moored.
R98: the lock. Once every other populated berth agrees or is held, the harbour and the agreeing moored berths lock the chart and
become ACTIVE; afterwards each berth that agrees does. Readings of the model in it: notes entries 49 and 52. -/
def Obligations.ChartAgreementAndLock : Prop :=
  (∀ (s : State) (h n : BId) (sl : Bool), s.harbour = some h →
      (∀ dg ver rb fuse, vget (s.at h).tray.dist n.val = .sent sl false ∧ dg = (s.at h).ch.digest ∧ ver = (s.at h).ch.ver
          ∧ rb = (s.at h).ch.rollback ∧ fuse ≤ rb → Answers (.chartAck h n (.first dg ver rb fuse)) s fun t =>
        Keeps [h] s t ∧ AgreeOff [.out, .tray] s t
          ∧ vget (t.at h).tray.dist n.val = if hbrCap (s.at h) n = true then .sent sl true else .agreed)
      ∧ (∀ dg ver rb fuse, vget (s.at h).tray.dist n.val = .sent sl false
          ∧ (dg ≠ (s.at h).ch.digest ∨ ver ≠ (s.at h).ch.ver ∨ rb ≠ (s.at h).ch.rollback ∨ rb < fuse) →
        Answers (.chartAck h n (.first dg ver rb fuse)) s fun t =>
          (vget (s.at h).tray.attempts n.val < 3 → vget (t.at h).tray.dist n.val = .due sl ∧ AgreeOff [.out, .tray] s t)
          ∧ (3 ≤ vget (s.at h).tray.attempts n.val → vget (t.at h).tray.dist n.val = .held ∧ (t.at n).sy.fail = 2
              ∧ vget (t.at h).tray.moor n.val = if dg = (s.at h).ch.digest ∧ ver = (s.at h).ch.ver ∧ rb = (s.at h).ch.rollback
                  then 2 else 1))
      ∧ (vget (s.at h).tray.dist n.val = .sent sl true → Answers (.chartAck h n (.sig true)) s fun t =>
          vget (t.at h).tray.dist n.val = .agreed ∧ Keeps [h] s t ∧ AgreeOff [.out, .tray] s t)
      ∧ (∀ first, vget (s.at h).tray.dist n.val = .sent sl first → Answers (.chartAckTimeout h n) s fun t =>
          (vget (s.at h).tray.attempts n.val < 3 → vget (t.at h).tray.dist n.val = .due sl ∧ AgreeOff [.out, .tray] s t)
          ∧ (3 ≤ vget (s.at h).tray.attempts n.val → vget (t.at h).tray.dist n.val = .held ∧ (t.at n).sy.fail = 2
              ∧ vget (t.at h).tray.moor n.val = if first then 3 else 4)))
  ∧ (∀ (s : State) (h : BId), s.harbour = some h →
      ((s.at h).ch.locked = false ∧ (s.at h).ch.state = .distributing
          ∧ (∀ n, n ≠ h ∧ nbit (s.at h).populated n.val = true →
              vget (s.at h).tray.dist n.val = .agreed ∨ vget (s.at h).tray.dist n.val = .held) →
        Answers (.chartLock h) s fun t => (t.at h).ch.locked = true ∧ (t.at h).ch.state = .locked ∧ (t.at h).sy.st = .active
          ∧ ∀ n, vget (s.at h).tray.dist n.val = .agreed ∧ (s.at n).sy.st = .moored ∧ (s.at n).ch.locked = false →
            (t.at n).ch.locked = true ∧ (t.at n).sy.st = .active)
      ∧ ((s.at h).ch.locked = true → Answers (.chartLock h) s fun t =>
          ∀ n, vget (s.at h).tray.dist n.val = .agreed ∧ (s.at n).sy.st = .moored ∧ (s.at n).ch.locked = false →
            (t.at n).ch.locked = true ∧ (t.at n).sy.st = .active))

/-- R100, R104 to R107: orders to CH_CMD: a refused order leaves its result; RELOAD starts the loader, REDISTRIBUTE reads the locked slot
again for a held berth, and the fuse orders set out on their berths.
R104 to R106: one fuse burns, of a counter, a key slot or a revocation; a burn that fails makes the order short.
Readings of the model in it: notes entry 53. -/
def Obligations.ChartOrdersAndFuses : Prop :=
  (∀ (s : State) (h : BId) (req : ReqId) (arg : Fin 16) (guard : BitVec 16), WritePasses s req none 0x2078 ∧ s.harbour = some h
        ∧ (s.at h).ch.busy = false →
      (∀ cmd i, (cmd, i) ∈ [(1, Instr.reload req arg), (2, .redistribute req arg)] ∧ chRefuse s h cmd arg.val 0 req ≠ 0 →
        Answers i s fun t => AgreeOff [.out, .ch, .sy] s t ∧ (t.at h).ch = { (s.at h).ch with
          lastCmd := cmd, cmdReq := req.val, result := chRefuse s h cmd arg.val 0 req, busy := false, fuseShort := false })
      ∧ (∀ cmd i, (cmd, i) ∈ [(3, Instr.commitRb req arg guard), (4, .revokeKey req arg guard), (5, .progKey req arg guard)]
          ∧ chRefuse s h cmd arg.val guard.toNat req ≠ 0 →
        Answers i s fun t => AgreeOff [.out, .ch, .sy] s t ∧ (t.at h).ch = { (s.at h).ch with
          lastCmd := cmd, cmdReq := req.val, result := chRefuse s h cmd arg.val guard.toNat req, busy := false, fuseShort := false })
      ∧ (chRefuse s h 1 arg.val 0 req = 0 → Answers (.reload req arg) s fun t => AgreeOff [.out, .ch, .sy] s t
          ∧ (t.at h).ch.state = .reading ∧ (t.at h).ch.load = .start ∧ (t.at h).ch.busy = true ∧ (t.at h).ch.lastCmd = 1)
      ∧ (chRefuse s h 2 arg.val 0 req = 0 ∧ vget (s.at h).tray.dist arg.val = .held ∧ (s.at h).ch.state = .locked →
        Answers (.redistribute req arg) s fun t => AgreeOff [.out, .ch, .sy, .tray] s t
          ∧ vget (t.at h).tray.dist arg.val = .reread ∧ vget (t.at h).tray.moor arg.val = 0
          ∧ vget (t.at h).tray.attempts arg.val = 0 ∧ (t.at h).ch.busy = true ∧ (t.at h).ch.redistFor = some (bid arg.val))
      ∧ (∀ k, chRefuse s h 3 arg.val guard.toNat req = 0 ∧ commitTarget s h arg.val = some k ∧ vget (s.at h).ch.fuse arg.val < k
          ∧ reachable s h = true → Answers (.commitRb req arg guard) s fun t => AgreeOff [.out, .ch, .sy] s t
            ∧ (t.at h).ch.busy = true ∧ ∃ bs, (t.at h).ch.fuseJob = some (.count arg.val k bs) ∧ h ∈ bs)
      ∧ (∀ b, chRefuse s h 4 arg.val guard.toNat req = 0 ∧ b ∈ keyBerths s ∧ nbit (s.at b).ch.revoked arg.val = false →
        Answers (.revokeKey req arg guard) s fun t => AgreeOff [.out, .ch, .sy] s t
          ∧ (t.at h).ch.busy = true ∧ ∃ bs, (t.at h).ch.fuseJob = some (.revoke arg.val bs) ∧ b ∈ bs)
      ∧ (∀ b data, chRefuse s h 5 arg.val guard.toNat req = 0 ∧ b ∈ keyBerths s
          ∧ data = BitVec.ofNat 384 (leNat (wordsBytes (s.at h).ch.keyData.toList)) ∧ (keyBit s b arg.val data).isSome = true →
        Answers (.progKey req arg guard) s fun t => AgreeOff [.out, .ch, .sy] s t
          ∧ (t.at h).ch.busy = true ∧ ∃ bs, (t.at h).ch.fuseJob = some (.key arg.val data bs) ∧ b ∈ bs))
  ∧ (∀ (s : State) (h b : BId) (bs : List BId),
      (∀ cls k, (s.at h).ch.fuseJob = some (.count cls k (b :: bs)) ∧ cls < 4 ∧ reachable s b = true →
        Answers (.fuseBurnDone h true) s fun t => AgreeOff [.out, .ch] s t
          ∧ vget (t.at b).ch.fuse cls = vget (s.at b).ch.fuse cls + 1 ∧ (t.at b).ch.keys = (s.at b).ch.keys
          ∧ ∀ n, n ≠ b → (t.at n).ch.fuse = (s.at n).ch.fuse)
      ∧ (∀ slot data i, (s.at h).ch.fuseJob = some (.key slot data (b :: bs)) ∧ slot < 4 ∧ reachable s b = true
          ∧ keyBit s b slot data = some i → Answers (.fuseBurnDone h true) s fun t => AgreeOff [.out, .ch] s t
          ∧ vget (t.at b).ch.keys slot = vget (s.at b).ch.keys slot ||| (1#384 <<< i) ∧ (t.at b).ch.fuse = (s.at b).ch.fuse)
      ∧ (∀ slot, (s.at h).ch.fuseJob = some (.revoke slot (b :: bs)) ∧ reachable s b = true →
        Answers (.fuseBurnDone h true) s fun t => AgreeOff [.out, .ch] s t ∧ nbit (t.at b).ch.revoked slot = true)
      ∧ (∀ j, (s.at h).ch.fuseJob = some j ∧ fuseBerths j = b :: bs → Answers (.fuseBurnDone h false) s fun t =>
          AgreeOff [.out, .ch] s t ∧ (t.at h).ch.fuseShort = true
            ∧ ∀ n, (t.at n).ch.fuse = (s.at n).ch.fuse ∧ (t.at n).ch.keys = (s.at n).ch.keys))

/-- R115, R116, R119: orders to SY_RST_CMD and the wake from SLEEP. Readings of the model in it: notes entries 35 and 76. -/
def Obligations.ResetOrders : Prop :=
  ∀ (s : State) (req : ReqId) (guard : BitVec 16),
    (∀ cmd i, WritePasses s req none 0x0090 ∧ s.harbour.isSome = true ∧ s.dev.rstBusy = false
        ∧ (cmd, i) ∈ [(1, Instr.controllerReset req guard), (2, .sleep req guard)] ∧ rstResult s cmd guard.toNat req ≠ 0 →
      Answers i s fun t => AgreeOff [.out, .dev, .sy] s t ∧ t.dev = { s.dev with
        rstCmd := cmd, rstReq := req.val, rstResult := rstResult s cmd guard.toNat req })
    ∧ (WritePasses s req none 0x0090 ∧ s.harbour.isSome = true ∧ s.dev.rstBusy = false ∧ rstResult s 1 guard.toNat req = 0 →
      Answers (.controllerReset req guard) s fun t =>
        t.dev = { s.dev with rstCmd := 1, rstReq := req.val, rstResult := 0, rstBusy := true })
    ∧ (WritePasses s req none 0x0090 ∧ s.harbour.isSome = true ∧ s.dev.rstBusy = false ∧ rstResult s 2 guard.toNat req = 0 →
      Answers (.sleep req guard) s fun t => AgreeOff [.out, .dev, .cl, .sy, .ar] s t
        ∧ t.dev = { s.dev with rstCmd := 2, rstReq := req.val, rstResult := 0, sleep := true }
        ∧ ∀ b, (t.at b).cl = { (s.at b).cl with silenceHeld := some (s.now - (s.at b).cl.silenceFrom) })
    ∧ (s.dev.sleep = true → Answers .sleepWake s fun t => AgreeOff [.out, .dev, .log, .cl, .tw] s t
        ∧ t.dev = { s.dev with sleep := false }
        ∧ ∀ b, (t.at b).cl = { (s.at b).cl with silenceFrom := s.now, silenceHeld := none } ∧ (t.at b).tw.sclLow = false)

/-! ### Rails -/

/-- A fault shutdown has begun on berth b for condition `code`, with the rail trump sent unless the berth is in holdover (R29, R150, R151,
R154). -/
def Faulted (b : BId) (code : Nat) (s t : State) : Prop :=
  ((t.at b).rl.slot = .shutting ∨ (t.at b).rl.slot = .faultHold ∨ (t.at b).rl.slot = .retired)
    ∧ (t.at b).rl.kindFault = true ∧ (t.at b).rl.fltCode = (if (s.at b).rl.fltCode = 0 then code else (s.at b).rl.fltCode)
    ∧ ((s.at b).sy.holdover = false → Output.ring b (some (s.at b).sy.harbour) (.railTrump b) ∈ t.out)

/-- No condition stands confirmed and unanswered on an input below i (R160). -/
def NoLower (x : Berth) (i : Nat) : Prop :=
  ∀ j, j < i → ∀ c ∈ [Cond.softLow, .softHigh, .hardLow, .hardHigh], condReady x j c = false

/-- R136, R140, R141, R144, R154, R159: POWER_UP starts the rails whose named rails are none, or leaves its result; SHUTDOWN ends POWERING
and UP in an orderly way. Readings of the model in it: notes entries 11 and 82. -/
def Obligations.SlotOrders : Prop :=
  ∀ (s : State) (b : BId) (req : ReqId), WritePasses s req (some b) 0x5000 ∧ ownOrHce b req = true →
    (powerUpResult s b = 0 → Answers (.powerUp b req) s fun t =>
        (t.at b).rl.slot = (if ∃ r : Fin 13, railUsed (s.at b) r.val = true then .powering else .up) ∧ (t.at b).rl.result = 0
        ∧ (t.at b).rl.powerups = sinc (s.at b).rl.powerups
        ∧ ∀ r : Fin 13, (vget (t.at b).rl.rails r.val).st =
            if railUsed (s.at b) r.val = true ∧ railDepA (s.at b) r.val = 15 ∧ railDepB (s.at b) r.val = 15 then .waiting else .off)
    ∧ (∀ code, powerUpResult s b = code ∧ code ≠ 0 ∧ code ≠ 5 → Answers (.powerUp b req) s fun t =>
        (t.at b).rl = { (s.at b).rl with result := code })
    ∧ (powerUpResult s b = 5 → Answers (.powerUp b req) s fun t => (t.at b).rl.result = 5 ∧ (t.at b).rl.slot = .retired
        ∧ ((s.at b).sy.holdover = false → .ring b (some (s.at b).sy.harbour) (.retireNotice 4 0 6 (restartEvents s b)) ∈ t.out))
    ∧ ((s.at b).rl.slot = .powering ∨ (s.at b).rl.slot = .up → Answers (.shutdown b req) s fun t =>
        ((t.at b).rl.slot = .shutting ∨ (t.at b).rl.slot = .down ∨ (t.at b).rl.slot = .retired)
          ∧ (t.at b).rl.kindFault = false ∧ (t.at b).rl.faultShut = (s.at b).rl.faultShut
          ∧ ((s.at b).rl.stuck = false → (t.at b).rl.cause = 0x10))
    ∧ ((s.at b).rl.slot ≠ .powering ∧ (s.at b).rl.slot ≠ .up →
        Answers (.shutdown b req) s fun t => AgreeOff [.out, .sy] s t)

/-- R141 to R143: the start of a rail: its enable once the delay has ended and its setpoint is acknowledged, and power good. -/
def Obligations.RailStarts : Prop :=
  ∀ (s : State) (b : BId),
    (∀ r : Fin 13, (s.at b).rl.slot = .powering ∧ (vget (s.at b).rl.rails r.val).st = .waiting →
      (railAvs (s.at b) r.val = true ∧ (vget (s.at b).rl.rails r.val).setAck = false →
        Answers (.railOnDelayExpiry b r) s fun t => Keeps [b] s t
          ∧ vget (t.at b).rl.rails r.val = { vget (s.at b).rl.rails r.val with delayDone := true })
      ∧ ((railAvs (s.at b) r.val = false ∨ (vget (s.at b).rl.rails r.val).setAck = true)
          ∧ (railPgWait (s.at b) r.val = true ∨ monitored (s.at b) r.val = true) →
        Answers (.railOnDelayExpiry b r) s fun t => Keeps [b] s t ∧ (vget (t.at b).rl.rails r.val).en = true
          ∧ (vget (t.at b).rl.rails r.val).st = .ramping ∧ (t.at b).rl.slot = .powering)
      ∧ ((railAvs (s.at b) r.val = false ∨ (vget (s.at b).rl.rails r.val).setAck = true)
          ∧ railPgWait (s.at b) r.val = false ∧ monitored (s.at b) r.val = false →
        Answers (.railOnDelayExpiry b r) s fun t => (vget (t.at b).rl.rails r.val).en = true
          ∧ (vget (t.at b).rl.rails r.val).st = .up))
    ∧ (∀ r : Fin 12, (s.at b).rl.slot = .powering ∧ railUsed (s.at b) r.val = true ∧ railPgWait (s.at b) r.val = true
        ∧ (vget (s.at b).rl.rails r.val).st = .ramping →
      Answers (.powerGoodRise b r) s fun t => (vget (t.at b).rl.rails r.val).pg = true ∧ (vget (t.at b).rl.rails r.val).st = .up
        ∧ ((∀ q : Fin 13, q.val ≠ r.val ∧ railUsed (s.at b) q.val = true → (vget (s.at b).rl.rails q.val).st = .up) →
            (t.at b).rl.slot = .up))
    ∧ (∀ (i : Fin 24), condReady (s.at b) i.val .rise = true ∧ NoLower (s.at b) i.val → Answers (.thresholdConfirm b i .rise) s fun t =>
        (vget (t.at b).rl.rails i.val).st = .up)

/-- R142, R143, R149, R150, R154: what faults a rail: no setpoint acknowledgement, no power good, no ramp, a drop of power good, a
soft or hard limit of a rail input.
R160: a drop of power good counts in the scan whose threshold condition has released the rail too.
R155, R156, R159, R177: a released rail below OFF, one that sticks, the end of the fault hold, and a rail trump at the harbour.
Readings of the model in it: notes entries 42, 79 and 80. -/
def Obligations.RailFaultsAndOff : Prop :=
  (∀ (s : State) (b : BId), (s.at b).rl.slot = .powering ∨ (s.at b).rl.slot = .up →
      (∀ r : Fin 13, (s.at b).rl.slot = .powering ∧ (vget (s.at b).rl.rails r.val).st = .waiting ∧ railAvs (s.at b) r.val = true
          ∧ (vget (s.at b).rl.rails r.val).setAck = false → Answers (.avsSetTimeout b r) s (Faulted b 0x0B s))
      ∧ (∀ r : Fin 12, railUsed (s.at b) r.val = true ∧ railPgWait (s.at b) r.val = true ∧ (vget (s.at b).rl.rails r.val).st = .up →
        Answers (.powerGoodDrop b r) s fun t => Faulted b 0x08 s t ∧ (vget (t.at b).rl.rails r.val).en = false)
      ∧ (∀ r : Fin 12, (s.at b).rl.slot = .powering ∧ railPgWait (s.at b) r.val = true
          ∧ (vget (s.at b).rl.rails r.val).st = .ramping →
        Answers (.pgTimeout b r) s fun t => Faulted b 0x09 s t ∧ (vget (t.at b).rl.rails r.val).en = false)
      ∧ (∀ r : Fin 13, (s.at b).rl.slot = .powering ∧ railPgWait (s.at b) r.val = false ∧ monitored (s.at b) r.val = true
          ∧ (vget (s.at b).rl.rails r.val).st = .ramping →
        Answers (.rampTimeout b r) s fun t => Faulted b 0x0A s t ∧ (vget (t.at b).rl.rails r.val).en = false)
      ∧ (∀ (i : Fin 24) (c : Cond) (code : Nat), (c, code) ∈ [(Cond.softLow, 1), (.softHigh, 2), (.hardLow, 3), (.hardHigh, 4)]
          ∧ i.val ≤ 12 ∧ condReady (s.at b) i.val c = true ∧ NoLower (s.at b) i.val →
        Answers (.thresholdConfirm b i c) s fun t => Faulted b code s t ∧ (vget (t.at b).rl.rails i.val).en = false
          ∧ (vget (t.at b).rl.rails i.val).trip = some (s.at b).rl.scans))
  ∧ (∀ (s : State) (b : BId) (r : Fin 12), railUsed (s.at b) r.val = true ∧ railPgWait (s.at b) r.val = true
        ∧ (vget (s.at b).rl.rails r.val).trip = some (s.at b).rl.scans →
      Answers (.powerGoodDrop b r) s fun t =>
        (vget (t.at b).rl.pgEvt r.val).drop = sinc8 (vget (s.at b).rl.pgEvt r.val).drop)
  ∧ (∀ (s : State) (b : BId) (r : Fin 13),
      ((vget (s.at b).rl.rails r.val).st = .falling ∧ (vget (s.at b).rl.rails r.val).en = false ∧ monitored (s.at b) r.val = true
          ∧ thrFilter (s.at b) r.val ≤ (vget (s.at b).rl.ins r.val).offRun →
        Answers (.railOffConfirm b r) s fun t => (vget (t.at b).rl.rails r.val).st = .off
          ∧ (vget (t.at b).rl.rails r.val).offOk = true ∧ (vget (t.at b).rl.rails r.val).en = false)
      ∧ ((vget (s.at b).rl.rails r.val).st = .falling ∧ (vget (s.at b).rl.rails r.val).en = false
          ∧ (vget (s.at b).rl.rails r.val).offOk = false ∧ (vget (s.at b).rl.rails r.val).timedOff = false →
        Answers (.railOffTimeout b r) s fun t =>
          (monitored (s.at b) r.val = true → (vget (t.at b).rl.rails r.val).timedOff = true
            ∧ ((t.at b).rl.stuck = true ∨ (t.at b).rl.slot = .retired)
            ∧ (vget (t.at b).rl.evt r.val).offTo = sinc8 (vget (s.at b).rl.evt r.val).offTo)
          ∧ (monitored (s.at b) r.val = false → (vget (t.at b).rl.rails r.val).st = .off))
      ∧ ((s.at b).rl.slot = .faultHold → Answers (.faultHoldEnd b) s fun t =>
          AgreeOff [.out, .freeCtr, .rp, .rl, .log, .pl, .dk, .us] s t ∧ (t.at b).rl.slot = .down
          ∧ (t.at b).rl.since = s.now ∧ (t.at b).rl.trumps = (s.at b).rl.trumps.filter fun x => !trumpClear (s.at b) x)
      ∧ (∀ h, s.harbour = some h → Answers (.railTrumpReceive b) s fun t => vget (t.at h).tray.pw.admis b.val = .none
          ∧ vget (t.at h).tray.pw.grant b.val = 0 ∧ nbit (t.at h).tw.attn 1 = true))

/-- R145, R146, R150, R152, R153: a reading and its runs, an alert, writes of thresholds after lock, and the end of a widening.
Readings of the model in it: notes entries 42, 83 and 87. -/
def Obligations.ReadingsAndThresholds : Prop :=
  ∀ (s : State) (b : BId) (i : Fin 24),
    (∀ code : Fin 4096, (s.at b).sy.inReset = true ∨ i.val ≠ (s.at b).rl.scanAt →
      Answers (.adcConversion b i code) s fun t => t = s.begin)
    ∧ (∀ code : Fin 4096, (s.at b).sy.inReset = false ∧ i.val = (s.at b).rl.scanAt → Answers (.adcConversion b i code) s fun t =>
      Keeps [b] s t ∧ (t.at b).rl.scanAt = i.val + 1
      ∧ (vget (t.at b).rl.ins i.val).code = code.val ∧ (vget (t.at b).rl.ins i.val).valid = true
      ∧ (comparing (s.at b) = true ∧ thrFilter (s.at b) i.val ≠ 0 ∧ i.val ≠ 20 ∧ i.val ≠ 21 →
          (vget (t.at b).rl.ins i.val).softLow = (if lowArmed (s.at b) i.val = true ∧ code.val < (softLimits (s.at b) i.val).1
            then min ((vget (s.at b).rl.ins i.val).softLow + 1) (thrFilter (s.at b) i.val) else 0)
          ∧ (vget (t.at b).rl.ins i.val).hardHigh = (if hardHighArmed (s.at b) i.val = true ∧ hardHigh (s.at b) i.val < code.val
            then min ((vget (s.at b).rl.ins i.val).hardHigh + 1) (thrFilter (s.at b) i.val) else 0)))
    ∧ (12 < i.val ∧ condReady (s.at b) i.val .softLow = true ∧ NoLower (s.at b) i.val → Answers (.thresholdConfirm b i .softLow) s fun t =>
        (t.at b).rl.slot = (s.at b).rl.slot ∧ (vget (t.at b).rl.ins i.val).softLowDone = true
          ∧ (vget (t.at b).rl.evt i.val).low = sinc8 (vget (s.at b).rl.evt i.val).low)
    ∧ (∀ req (w : Word) l h, WritePasses s req (some b) (0x5080 + 4 * i.val) ∧ ownOrHce b req = true ∧ (s.at b).log.on = true
        ∧ tracked (s.at b) i.val = false ∧ fld w 15 12 = thrFilter (s.at b) i.val ∧ fld w 31 28 = thrKind (s.at b) i.val
        ∧ l = clampThr (s.at b) i.val (fld w 11 0) ∧ h = clampThr (s.at b) i.val (fld w 27 16) →
      Answers (.thresholdWrite b req i w) s fun t =>
        thrLow (t.at b) i.val = (if l < h then l else thrLow (s.at b) i.val)
          ∧ thrHigh (t.at b) i.val = (if l < h then h else thrHigh (s.at b) i.val)
          ∧ thrFilter (t.at b) i.val = thrFilter (s.at b) i.val ∧ thrKind (t.at b) i.val = thrKind (s.at b) i.val)
    ∧ (∀ req (w : Word), WritePasses s req (some b) (0x5080 + 4 * i.val) ∧ (s.at b).log.on = true
        ∧ (ownOrHce b req = false ∨ tracked (s.at b) i.val = true ∨ fld w 15 12 ≠ thrFilter (s.at b) i.val
          ∨ fld w 31 28 ≠ thrKind (s.at b) i.val) →
      Answers (.thresholdWrite b req i w) s fun t => AgreeOff [.out, .sy] s t)
    ∧ (∀ k : Fin 4, (vget (s.at b).pw.parts k.val).writing = false
        ∧ ((vget (s.at b).rl.rails k.val).st = .waiting ∧ railAvs (s.at b) k.val = true → (vget (s.at b).rl.rails k.val).setAck = true) →
      Answers (.setpointTransitionEnd b k) s fun t => Keeps [b] s t
        ∧ (t.at b).rl = { (s.at b).rl with wide := vset (s.at b).rl.wide k.val none })

/-! ### Power -/

/-- R173, R175 to R177, R180, R182: mark averages, the floor-over test, the budget and its trump, and admission.
Readings of the model in it: notes entry 39. -/
def Obligations.BudgetAndAdmission : Prop :=
  ∀ (s : State) (h : BId), s.harbour = some h →
    (∀ n (w : BitVec 16), Answers (.markAverageReceive n w) s fun t => Keeps [h] s t ∧ (t.at h).tray = { (s.at h).tray with
        pw := { (s.at h).tray.pw with markAvg := vset (s.at h).tray.pw.markAvg n.val w.toNat } })
    ∧ (256 ≤ (s.at h).tray.pw.floorRun → Answers .floorOverSet s fun t => Keeps [h] s t ∧ (t.at h).tray = { (s.at h).tray with
        pw := { (s.at h).tray.pw with floorOver := true } })
    ∧ (∀ (req : ReqId) (w : BitVec 16), WritePasses s req none 0x6000 ∧ (req = 9 ∨ req = 10) ∧ (s.at h).ch.locked = true →
      (w.toNat ≤ budgetMax (s.at h) → Answers (.pwBudgetWrite req w) s fun t => (t.at h).tray.pw.budget = w.toNat
        ∧ (grantSum (s.at h).tray ≤ w.toNat → (t.at h).tray.pw.grant = (s.at h).tray.pw.grant)
        ∧ (w.toNat < grantSum (s.at h).tray → ∀ n : BId,
            vget (t.at h).tray.pw.grant n.val = (if vget (s.at h).tray.pw.admis n.val = .admitted
                ∨ vget (s.at h).tray.pw.admis n.val = .unadmitted
              then max (grantMin (s.at h) n.val)
                (vget (s.at h).tray.pw.grant n.val * w.toNat / grantSum (s.at h).tray)
              else vget (s.at h).tray.pw.grant n.val)
            ∧ (t.at h).tray.pw.budgetCut = sinc (s.at h).tray.pw.budgetCut ∧ nbit (t.at h).tw.attn 2 = true))
      ∧ (budgetMax (s.at h) < w.toNat → Answers (.pwBudgetWrite req w) s fun t => AgreeOff [.out, .sy] s t))
    ∧ (∀ (b : BId) (req : ReqId), WritePasses s req (some b) 0x6100 ∧ (req.val = b.val ∨ req = 11) →
      ((s.at h).ch.locked = true ∧ nbit (s.at h).populated b.val = true ∧ vget (s.at h).tray.pw.admis b.val = .none →
        Answers (.admitReq b req) s fun t => AgreeOff [.out, .sy, .pw, .tray] s t
          ∧ vget (t.at h).tray.pw.admis b.val = .waiting ∧ (t.at b).pw = { (s.at b).pw with admis := .waiting })
      ∧ (vget (s.at h).tray.pw.admis b.val ≠ .none → Answers (.admitReq b req) s fun t => AgreeOff [.out, .sy] s t)
      ∧ ((s.at b).rl.slot = .down → Answers (.admitCancel b req) s fun t => AgreeOff [.out, .sy, .pw, .tray] s t
        ∧ vget (t.at h).tray.pw.admis b.val = .none ∧ vget (t.at h).tray.pw.grant b.val = 0)
      ∧ ((s.at b).rl.slot ≠ .down → Answers (.admitCancel b req) s fun t => AgreeOff [.out, .sy] s t))

/-- R185 to R187, R207: answers on AVSBus: an acknowledged setpoint, a failed attempt with the two reads that follow it, and the third,
after which the setpoint is the lower of the two values.
R187, R196: a voltage change settles or fails to settle within 1 ms, and the trim of the partition rails.
Readings of the model in it: notes entries 13 and 40. -/
def Obligations.SetpointsAndTrim : Prop :=
  (∀ (s : State) (b : BId) (c : Fin 2) (w : AvsWrite) (ws : List AvsWrite), (avsOf s b c.val).queue = w :: ws
        ∧ (avsOf s b c.val).retired = false ∧ avsReads (avsOf s b c.val) = false ∧ w.rail < 4 ∧ s.dev.sleep = false →
      (w.powerUp = false → Answers (.avsResponse b c true 0) s fun t => Keeps [b] s t
        ∧ (partOf t b w.rail).setpoint = w.mv ∧ (partOf t b w.rail).acked = w.mv ∧ (partOf t b w.rail).settling = some w.mv
        ∧ (avsOf t b c.val).queue.length = ws.length ∧ (avsOf t b c.val).fail = (avsOf s b c.val).fail)
      ∧ (∀ crcOk ack i, (i = .avsResponse b c crcOk ack ∧ (crcOk = false ∨ ack ≠ 0) ∨ i = .avsResponseTimeout b c) →
        (w.attempts + 1 < 3 → Answers i s fun t => Keeps [b] s t ∧ t.out = [.avsStatus b c.val]
          ∧ (avsOf t b c.val).queue = { w with attempts := w.attempts + 1 } :: ws ∧ (avsOf t b c.val).statusRead = true
          ∧ (avsOf t b c.val).confirm = some w.rail ∧ (avsOf t b c.val).fail = sinc (avsOf s b c.val).fail ∧ (t.at b).pw.parts = (s.at b).pw.parts)
        ∧ (3 ≤ w.attempts + 1 ∧ (classEvent s b 5 (avsOf s b c.val).hist).1 = false → Answers i s fun t =>
          (avsOf t b c.val).queue = ws ∧ (avsOf t b c.val).fail = sinc (avsOf s b c.val).fail
            ∧ (avsOf t b c.val).retired = false ∧ (partOf t b w.rail).setpoint =
              (if (partOf s b w.rail).acked = 0 then w.mv else min (partOf s b w.rail).acked w.mv)
            ∧ .avsStatus b c.val ∈ t.out)
        ∧ (3 ≤ w.attempts + 1 ∧ (classEvent s b 5 (avsOf s b c.val).hist).1 = true → Answers i s fun t =>
          (avsOf t b c.val).retired = true)))
  ∧ (∀ (s : State) (b : BId) (c : Fin 2) r, (avsOf s b c.val).retired = false ∧ (avsOf s b c.val).confirm = some r ∧ s.dev.sleep = false →
      ∀ crcOk ack i, i = .avsResponse b c crcOk ack ∨ i = .avsResponseTimeout b c →
        ((avsOf s b c.val).statusRead = true → Answers i s fun t => Keeps [b] s t ∧ AgreeOff [.out, .pw] s t
          ∧ t.out = [.avsTarget b c.val (railAvsSel (s.at b) r)] ∧ (avsOf t b c.val).queue = (avsOf s b c.val).queue
          ∧ (avsOf t b c.val).statusRead = false ∧ (avsOf t b c.val).confirm = some r)
        ∧ (∀ w ws, (avsOf s b c.val).statusRead = false ∧ (avsOf s b c.val).queue = w :: ws ∧ w.statusFirst = false →
          Answers i s fun t => Keeps [b] s t ∧ t.out = [.avsWrite b c.val (railAvsSel (s.at b) w.rail) w.mv]
            ∧ avsReads (avsOf t b c.val) = false))
  ∧ (∀ (s : State) (b : BId),
      (∀ (k : Fin 4) mv, (partOf s b k.val).settling = some mv ∧ readingOk s b k.val mv = true →
        Answers (.voltageSettle b k) s fun t => Keeps [b] s t ∧ AgreeOff [.out, .pw] s t
          ∧ partOf t b k.val = { partOf s b k.val with
              settling := none, settledAt := s.now
              settled := (partOf s b k.val).settled || (mv == (partOf s b k.val).target && !(partOf s b k.val).writing) })
      ∧ (∀ (k : Fin 4) mv, (partOf s b k.val).settling = some mv ∧ readingOk s b k.val mv = false
          ∧ (avsOf s b (railAvsCtl (s.at b) k.val)).retired = false ∧ (partOf s b k.val).tries < 3 →
        Answers (.settleTimeout b k) s fun t => Keeps [b] s t ∧ (partOf t b k.val).settling = none
          ∧ (partOf t b k.val).writing = true
          ∧ (avsOf t b (railAvsCtl (s.at b) k.val)).fail = sinc (avsOf s b (railAvsCtl (s.at b) k.val)).fail)
      ∧ (bitAt (s.at b).pw.trim 0 = true ∧ (s.at b).rl.slot = .up → Answers (.voltageTrimTick b) s fun t => Keeps [b] s t
          ∧ ∀ k : Fin 4, trimSkips s b k.val = false →
            (partMv s b k.val + 5 ≤ (partOf s b k.val).target ∨ (partOf s b k.val).target + 10 ≤ partMv s b k.val)
              ∧ trimTo s b k.val ≠ (partOf s b k.val).setpoint →
            (partOf t b k.val).writing = true ∧ vget (t.at b).rl.wide k.val = some (softLimits (s.at b) k.val))
      ∧ (bitAt (s.at b).pw.trim 0 = false ∨ (s.at b).rl.slot ≠ .up → Answers (.voltageTrimTick b) s fun t => AgreeOff [.out] s t))

/-- R145, R192, R198, R200, R201: the thermal and current caps, the scan's power estimate, and the power loop. A cap that falls below a
ready partition's step lowers the step at once. Readings of the model in it: notes entries 10 and 85. -/
def Obligations.PowerLoops : Prop :=
  ∀ (s : State) (b : BId),
    (∀ k : Fin 4, loopDue s b k.val true = true → Answers (.thermalLoopStep b k true) s fun t => Keeps [b] s t
      ∧ (partOf t b k.val).sTherm = (partOf s b k.val).sTherm - 1 ∧ (partOf t b k.val).sCurr = (partOf s b k.val).sCurr
      ∧ ((partOf s b k.val).ready = true → (partOf t b k.val).applied ≤ (partOf t b k.val).sTherm))
    ∧ (∀ k : Fin 4, loopDue s b k.val false = true → Answers (.thermalLoopStep b k false) s fun t => Keeps [b] s t
      ∧ (partOf t b k.val).sCurr = (partOf s b k.val).sCurr - 1 ∧ (partOf t b k.val).sTherm = (partOf s b k.val).sTherm
      ∧ ((partOf s b k.val).ready = true → (partOf t b k.val).applied ≤ (partOf t b k.val).sCurr))
    ∧ (∀ k : Fin 4, releaseDue s b k.val true = true → Answers (.thermalCapRelease b k true) s fun t => Keeps [b] s t
      ∧ (partOf t b k.val).sTherm = 31 ∧ (partOf t b k.val).thermIns = [])
    ∧ (∀ k : Fin 4, releaseDue s b k.val false = true → Answers (.thermalCapRelease b k false) s fun t => Keeps [b] s t
      ∧ (partOf t b k.val).sCurr = 31 ∧ (partOf t b k.val).currIns = [])
    ∧ ((s.at b).rl.scanAt ≠ 24 → Answers (.scanComplete b) s fun t => t = s.begin)
    ∧ ((s.at b).rl.scanAt = 24 → Answers (.scanComplete b) s fun t => Keeps [b] s t ∧ AgreeOff [.out, .rl, .pw] s t
      ∧ (t.at b).rl = { (s.at b).rl with scans := ((s.at b).rl.scans + 1) % 2 ^ 64, scanAt := 0 }
      ∧ (t.at b).pw = { (s.at b).pw with
          estSum := (s.at b).pw.estSum + powerEstimate (s.at b), estCnt := (s.at b).pw.estCnt + 1
          partialPwr := (currentIns (s.at b)).any fun i => !contributes (s.at b) i })
    ∧ (overGrant (s.at b).pw = true ∧ (s.at b).pw.ogDone = false ∧ fld (s.at b).pw.og 7 0 ≤ (s.at b).pw.overRun + 1 →
      Answers (.overGrantLower b) s fun t => Keeps [b] s t ∧ ∀ k : Fin 4, partUsed (s.at b) b.val k.val = true →
        (partOf t b k.val).sPwr = min (partOf s b k.val).sPwr (stepFrom s (partOf s b k.val) - 1)
          ∧ ((partOf s b k.val).ready = true → (partOf t b k.val).applied ≤ (partOf t b k.val).sPwr))
    ∧ (underGrant (s.at b).pw = true ∧ (s.at b).pw.ogDone = false ∧ 16 ≤ (s.at b).pw.underRun + 1 →
      Answers (.underGrantRaise b) s fun t => Keeps [b] s t ∧ ∀ k : Fin 4, partUsed (s.at b) b.val k.val = true →
        (partOf t b k.val).sPwr = min 31 ((partOf s b k.val).sPwr + 1))

/-! ### The log -/

/-- R115, R165, R167 to R169: the harbour's log region: a buffer that arrives is queued, after a LOSS record for what the harbour has
dropped of its berth, or dropped and counted; programs and erases complete;
the head is found; the write guard holds programs off. Canonical memory is an invariant
(MemoryStaysCanonical). Readings of the model in it: notes entry 43. -/
def Obligations.LogRegion : Prop :=
  ∀ (s : State) (h : BId),
    (∀ (o : BId) (recs : List LogRec), (s.at h).sy.isHarbour = true ∧ (s.at h).log.on = true →
      ((deckAlloc h 3 false s.begin).1 = none → Answers (.logBufferArrive h o recs) s fun t =>
        (t.at h).log = { (s.at h).log with
          drop := sadd (s.at h).log.drop recs.length
          originDrop := vset (s.at h).log.originDrop o.val (vget (s.at h).log.originDrop o.val + recs.length) })
      ∧ ((deckAlloc h 3 false s.begin).1 ≠ none ∧ vget (s.at h).log.originDrop o.val = 0 →
        Answers (.logBufferArrive h o recs) s fun t => (t.at h).log.drop = (s.at h).log.drop
          ∧ ∃ g, (t.at h).log.queue = (s.at h).log.queue ++ [(recs, some g)])
      ∧ ((deckAlloc h 3 false s.begin).1 ≠ none ∧ vget (s.at h).log.originDrop o.val ≠ 0 ∧ (s.at h).log.lossDue = 0
          ∧ (s.at h).log.curBuf.isSome = true →
        Answers (.logBufferArrive h o recs) s fun t => vget (t.at h).log.originDrop o.val = 0
          ∧ ∃ q g, (t.at h).log.queue = q ++ [(recs, some g)] ∧ ∃ r rs g', (rs, g') ∈ q ∧ r ∈ rs ∧ r.ty = 4
            ∧ r.p0 = wordOf (vget (s.at h).log.originDrop o.val) ∧ r.p1 = wordOf o.val))
    ∧ (∀ off r, (s.at h).log.busy = some (.record off r) ∧ (s.at h).memCanonical = true ∧ s.dev.sleep = false → Answers (.logProgramDone h) s fun t =>
        ((∀ i, i < 32 → memGet flashD (s.at h).flash (off + i) = 0xFF) → memRead flashD (t.at h).flash off 32 = recBytes r)
        ∧ (∀ a, a < off ∨ off + 32 ≤ a → memGet flashD (t.at h).flash a = memGet flashD (s.at h).flash a)
        ∧ ((s.at h).us.dfu.active = false →
            (∀ r0 g q, (s.at h).log.queue = ([r0], g) :: q → (t.at h).log.queue = q)
            ∧ (∀ r0 r1 rs g q, (s.at h).log.queue = (r0 :: r1 :: rs, g) :: q → (t.at h).log.queue = (r1 :: rs, g) :: q)))
    ∧ (∀ off g r, (s.at h).log.busy = some (.sector off g r) ∧ (s.at h).memCanonical = true ∧ s.dev.sleep = false →
      Answers (.logProgramDone h) s fun t =>
        (t.at h).log.sector = some off ∧ (t.at h).log.gen = g ∧ (t.at h).log.torn = 0
          ∧ ((∀ i, i < 32 → memGet flashD (s.at h).flash (off + i) = 0xFF) → memRead flashD (t.at h).flash off 32 = recBytes r))
    ∧ (∀ off, (s.at h).log.busy = some (.erase off) ∧ s.dev.sleep = false → Answers (.logEraseDone h) s fun t =>
        AgreeOff [.out, .freeCtr, .rp, .log, .dk, .us, .flash] s t
        ∧ ∀ a, memGet flashD (t.at h).flash a = if off ≤ a ∧ a < off + 0x10000 then 0xFF else memGet flashD (s.at h).flash a)
    ∧ (∀ failed, (s.at h).sy.isHarbour = true ∧ (s.at h).log.finding = true → Answers (.logHeadFound h failed) s fun t =>
        AgreeOff [.out, .log] s t ∧ (t.at h).log.finding = false ∧ (t.at h).log.ready = true
        ∧ (∀ off g, bestSector (s.at h).flash failed = some (off, g) → (t.at h).log.sector = some off ∧ (t.at h).log.gen = g
            ∧ (t.at h).log.torn = tornSlots (s.at h).flash failed off)
        ∧ (bestSector (s.at h).flash failed = none ∧ (s.at h).log.busy = none ∧ (s.at h).log.ops = [] ∧ (s.at h).log.guard = false
            ∧ s.dev.sleep = false ∧ flashReads (s.at h) = false ∧ dfuHolds (s.at h) h = false →
            (sectorErased (s.at h).flash logBase = false → (t.at h).log.busy = some (.erase logBase))
            ∧ (sectorErased (s.at h).flash logBase = true → ∃ r, (t.at h).log.busy = some (.sector logBase 1 r))))
    ∧ (Answers (.writeGuardChange true) s fun t => AgreeOff [.out, .log] s t
        ∧ ∀ b, (t.at b).log = { (s.at b).log with guard := true })
    ∧ (Answers (.writeGuardChange false) s fun t => AgreeOff [.out, .log] s t ∧ ∀ b, (t.at b).log.guard = false)

/-! ### Cooling and leaks -/

/-- R211 to R217: the duty of a channel and its output, fan speed, and the pump's position and speed. -/
def Obligations.CoolingMeasures : Prop :=
  ∀ (s : State) (b : BId) (c : Fin 3),
    (∀ (req : ReqId) (w : Word), WritePasses s req (some b) (0x700C + 0x40 * c.val) →
      ((req.val = b.val ∨ req = 11) ∧ fld w 9 0 ≤ 1000 → Answers (.dutyCommandWrite b c req w) s fun t => AgreeOff [.out, .sy, .cl] s t
        ∧ coolOf t b c.val = { coolOf s b c.val with cmd := max (fld w 9 0) (dutyFloor (coolOf s b c.val)) })
      ∧ (req.val ≠ b.val ∧ req ≠ 11 ∨ 1000 < fld w 9 0 → Answers (.dutyCommandWrite b c req w) s fun t => AgreeOff [.out, .sy] s t))
    ∧ (∀ d, coolMode (coolOf s b c.val) ≠ 0 ∧ (s.at b).sy.st = .active ∧ ((coolOf s b c.val).st = .kick ∧ d = 1000
          ∨ (coolOf s b c.val).st = .stalled ∧ d = (if (coolOf s b c.val).offPhase then 0 else 1000)
          ∨ (coolOf s b c.val).st = .run ∧ bitAt (boosted (s.at b)) (coolZone (coolOf s b c.val)) = false
            ∧ (coolOf s b c.val).wdog = false ∧ s.dev.sleep = false
            ∧ d = max (dutyFloor (coolOf s b c.val)) (coolOf s b c.val).cmd) →
      Answers (.pwmPeriodStart b c) s fun t => Keeps [b] s t ∧ coolOf t b c.val = { coolOf s b c.val with pwm := some d })
    ∧ (coolMode (coolOf s b c.val) = 0 → Answers (.pwmPeriodStart b c) s fun t => Keeps [b] s t
      ∧ coolOf t b c.val = { coolOf s b c.val with pwm := none })
    ∧ (∀ n : BitVec 32, coolMode (coolOf s b c.val) = 1 ∧ measuring (coolOf s b c.val) = true → Answers (.tachEdge b c n) s fun t =>
        Keeps [b] s t ∧ (coolOf t b c.val).edges = (coolOf s b c.val).edges + 1 ∧ (coolOf t b c.val).edgeAt = s.now
          ∧ (coolOf t b c.val).lastT = (if 1 ≤ (coolOf s b c.val).edges then max 1 n.toNat else 0)
          ∧ ((coolOf s b c.val).st = .kick ∧ 1 ≤ (coolOf s b c.val).edges ∧ (coolOf s b c.val).reverse = false
              ∧ minRpm (coolOf s b c.val) ≤ min 65535 (2880000000 / (max 1 (coolPpr (coolOf s b c.val)) * max 1 n.toNat)) →
            (coolOf t b c.val).st = .run ∧ (coolOf t b c.val).reached = true))
    ∧ (coolMode (coolOf s b c.val) = 2 ∧ measuring (coolOf s b c.val) = true →
      (Answers (.encoderChange b c .forward) s fun t => Keeps [b] s t ∧ coolOf t b c.val = { coolOf s b c.val with
        pos := ((coolOf s b c.val).pos + 1) % 1024, fwd := (coolOf s b c.val).fwd + 1 })
      ∧ (Answers (.encoderChange b c .reverse) s fun t => Keeps [b] s t ∧ coolOf t b c.val = { coolOf s b c.val with
        pos := ((coolOf s b c.val).pos + 1023) % 1024, rev := (coolOf s b c.val).rev + 1 })
      ∧ (Answers (.encoderChange b c .both) s fun t => (coolOf t b c.val).encErr = sinc (coolOf s b c.val).encErr
        ∧ (coolOf t b c.val).pos = (coolOf s b c.val).pos
        ∧ ((classEvent s b 8 (coolOf s b c.val).encHist).1 = true → (coolOf t b c.val).st = .retired))
      ∧ (Answers (.indexEdge b c) s fun t => (coolOf t b c.val).pos = 0
        ∧ (coolOf t b c.val).revs = ((coolOf s b c.val).revs + 1) % 65536
        ∧ (coolOf t b c.val).idxErr = if 1 ≤ (coolOf s b c.val).indexSeen ∧ 4 < (coolOf s b c.val).pos
            ∧ (coolOf s b c.val).pos < 1020 then sinc (coolOf s b c.val).idxErr else (coolOf s b c.val).idxErr)
      ∧ (Answers (.pumpSpeedGate b) s fun t => Keeps [b] s t ∧ (coolOf t b c.val).rpm =
            (max (coolOf s b c.val).fwd (coolOf s b c.val).rev - min (coolOf s b c.val).fwd (coolOf s b c.val).rev) * 600 / 1024
        ∧ ((coolOf t b c.val).reverse = true ↔ (coolOf s b c.val).fwd < (coolOf s b c.val).rev)
        ∧ (coolOf t b c.val).fwd = 0 ∧ (coolOf t b c.val).rev = 0))

/-- R219 to R223: a stall and its retry, and the zones that other berths boost.
R225, R226, R412: host activity restarts the silence timer and ends watchdogs; a silence of WDOG_S seconds expires one.
Readings of the model in it: notes entries 18 and 44. -/
def Obligations.StallsAndWatchdogs : Prop :=
  (∀ (s : State) (b : BId) (c : Fin 3) (e : BitVec 32),
      (∀ i, i = .kickTimeout b c e ∧ (coolOf s b c.val).st = .kick
          ∨ i = .stallDetect b c e ∧ (coolOf s b c.val).st = .run
            ∧ (speedAt (coolOf s b c.val) e.toNat < minRpm (coolOf s b c.val) ∨ (coolOf s b c.val).reverse = true) →
        Answers i s fun t => (coolOf t b c.val).stallCnt = sinc (coolOf s b c.val).stallCnt
          ∧ ((classEvent s b 7 (coolOf s b c.val).stallHist).1 = false → (coolOf t b c.val).st = .stalled
              ∧ (coolOf t b c.val).offPhase = false)
          ∧ ((classEvent s b 7 (coolOf s b c.val).stallHist).1 = true → (coolOf t b c.val).st = .retired
              ∧ ((s.at b).sy.holdover = false → .ring b (some (s.at b).sy.harbour)
                  (.retireNotice 6 c.val 7 (classEvent s b 7 (coolOf s b c.val).stallHist).2.2) ∈ t.out))
          ∧ AgreeOff [.out, .freeCtr, .rp, .cl, .log, .dk, .us] s t)
      ∧ ((coolOf s b c.val).st = .stalled → Answers (.stallRetry b c) s fun t => Keeps [b] s t
          ∧ coolOf t b c.val = { coolOf s b c.val with offPhase := true })
      ∧ ((coolOf s b c.val).st = .stalled ∧ (coolOf s b c.val).offPhase = true → Answers (.retryOffEnd b c) s fun t => Keeps [b] s t
          ∧ (coolOf t b c.val).st = .kick ∧ (coolOf t b c.val).offPhase = false
          ∧ (coolOf t b c.val).kicks = sinc (coolOf s b c.val).kicks)
      ∧ (∀ m z, b ≠ m → Answers (.zoneBoostNotice b m z) s fun t => Keeps [b] s t
          ∧ (t.at b).cl = { (s.at b).cl with boost := vset (s.at b).cl.boost m.val z }))
  ∧ (∀ (s : State) (b : BId),
      (Answers (.hostActNotice b) s fun t => (t.at b).cl.silenceFrom = s.now
        ∧ (∀ c : Fin 3, (coolOf t b c.val).wdog = false) ∧ AgreeOff [.out, .freeCtr, .rp, .cl, .log, .dk, .us] s t)
      ∧ (∀ (c : Fin 3) h, coolMode (coolOf s b c.val) ≠ 0 ∧ (s.at b).ch.locked = true ∧ (coolOf s b c.val).wdog = false
          ∧ (s.at b).cl.silenceHeld = none ∧ (s.at b).cl.noticeAt ≠ some s.now ∧ s.harbour = some h →
          Answers (.hostSilenceExpiry b c) s fun t =>
            coolOf t b c.val = { coolOf s b c.val with
              wdog := true
              hold := if bitAt (coolOf s b c.val).cfg0 2 then max (dutyFloor (coolOf s b c.val)) (coolOf s b c.val).cmd else 0 }
            ∧ nbit (t.at h).tw.attn 10 = true))

/-- R229 to R234: the ropes: a wet one latches, closes the valve, trumps its slots; open and dry ones; the views of the other berths;
and LK_CLEAR. Readings of the model in it: notes entry 44. -/
def Obligations.LeakRopes : Prop :=
  ∀ (s : State) (b : BId) (r : Fin 2),
    (ropeLive (ropeOf s b r.val) = true ∧ fld (ropeOf s b r.val).cfg 31 28 ≤ (ropeOf s b r.val).wetRun
        ∧ (ropeOf s b r.val).wetDone = false →
      ((ropeOf s b r.val).latch = false ∧ (ropeOf s b (1 - r.val)).latch = false → Answers (.leakTrump b r) s fun t =>
        (ropeOf t b r.val).st = .wet ∧ (ropeOf t b r.val).latch = true
          ∧ ((s.at b).sy.holdover = false → .ring b none (.leakTrump (fld (s.at b).cl.valve 15 8)) ∈ t.out)
          ∧ (t.at b).rl.slot ≠ .powering ∧ (t.at b).rl.slot ≠ .up
          ∧ ((s.at b).rl.slot = .powering ∨ (s.at b).rl.slot = .up → (t.at b).rl.kindFault = true)
          ∧ ((s.at b).sy.st = .active ∧ (s.at b).sy.retireOrder = false ∧ bitAt (s.at b).cl.valve 0 = true →
              (t.at b).cl.valveOut = some (bitAt (s.at b).cl.valve 1)))
      ∧ ((ropeOf s b r.val).latch = true → Answers (.leakTrump b r) s fun t => (ropeOf t b r.val).st = .wet
        ∧ (ropeOf t b r.val).latch = true ∧ (t.at b).rl = (s.at b).rl ∧ (t.at b).cl.valveOut = (s.at b).cl.valveOut))
    ∧ (∀ m (mask : BitVec 8), b ≠ m → Answers (.leakTrumpReceive b m mask) s fun t =>
        (nbit mask.toNat b.val = true → (t.at b).rl.slot ≠ .powering ∧ (t.at b).rl.slot ≠ .up)
        ∧ (s.harbour = some b → nbit (t.at b).tw.attn 0 = true ∧ ∀ n : BId, nbit mask.toNat n.val = true →
            vget (t.at b).tray.pw.admis n.val = .none ∧ vget (t.at b).tray.pw.grant n.val = 0))
    ∧ (ropeLive (ropeOf s b r.val) = true ∧ fld (ropeOf s b r.val).cfg 31 28 ≤ (ropeOf s b r.val).openRun
        ∧ (ropeOf s b r.val).openDone = false → Answers (.ropeOpen b r) s fun t =>
        (ropeOf t b r.val).openDone = true ∧ (ropeOf t b r.val).openCnt = sinc8 (ropeOf s b r.val).openCnt
          ∧ (ropeOf t b r.val).st = if (classEvent s b 9 (ropeOf s b r.val).hist).1 then .retired else .openCircuit)
    ∧ (ropeLive (ropeOf s b r.val) = true ∧ fld (ropeOf s b r.val).cfg 31 28 ≤ (ropeOf s b r.val).dryRun
        ∧ (ropeOf s b r.val).st ≠ .dry → Answers (.ropeDry b r) s fun t => Keeps [b] s t
        ∧ ropeOf t b r.val = { ropeOf s b r.val with st := .dry }
        ∧ ((s.at b).sy.holdover = false → t.out = [.ring b none (.ropeState r.val .dry (ropeOf s b r.val).latch)]))
    ∧ (∀ m st latch, b ≠ m → Answers (.ropeStateNotice b m r st latch) s fun t =>
        vget (t.at b).cl.ropeView (2 * m.val + r.val) = st ∧ vget (t.at b).cl.latchView (2 * m.val + r.val) = latch)
    ∧ (∀ (req : ReqId) (w : Word), WritePasses s req (some b) 0x8010 →
      ((req = 9 ∨ req = 10) ∧ fld w 31 16 = 0x1EAC ∧ fld w 0 0 = r.val ∧ (ropeOf s b r.val).latch = true
          ∧ (ropeOf s b r.val).st = .dry → Answers (.lkClear b req w) s fun t =>
        ropeOf t b r.val = { ropeOf s b r.val with latch := false }
          ∧ ((s.at b).sy.holdover = false → .ring b none (.ropeState r.val .dry false) ∈ t.out))
      ∧ (req ≠ 9 ∧ req ≠ 10 ∨ fld w 31 16 ≠ 0x1EAC ∨ fld w 0 0 = r.val ∧ (ropeOf s b r.val).latch = false
          ∨ fld w 0 0 = r.val ∧ (ropeOf s b r.val).st ≠ .dry →
        Answers (.lkClear b req w) s fun t => AgreeOff [.out, .sy] s t))

/-! ### Arrays -/

/-- No graph waits for the loader of berth b, and no order of its runs there (R287). -/
abbrev LoaderQuiet (s : State) (b : BId) : Prop := (s.at b).pg.ord = none ∧ nextTile s b = none

/-- The engine of berth b can read source row r of the order on its array (R251). -/
abbrev SourceRow (s : State) (b : BId) (r : Nat) : Prop :=
  let n := logicalN (arrOf s b (s.at b).ar.cmdArr).calMode
  arRange ((s.at b).ar.src.toNat + n * r) n = true

/-- R250 to R252, R255 to R257, R260: the orders to AR_CMD: refused with their result, or begun; one that waits for a run starts when
the run has ended (R247). ABORT acts on the order that runs on the array it names. Readings of the model in it: notes entry 67. -/
def Obligations.ArrayOrders : Prop :=
  ∀ (s : State) (b : BId) (req : ReqId) (k : Fin 8) (first : Fin 256), WritePasses s req (some b) 0x9020 ∧ LoaderQuiet s b →
    (ownOrEngine b req = false ∨ (s.at b).ar.phase ≠ .idle →
      ∀ i ∈ [Instr.prog b req k first, .verify b req k, .repair b req k, .cal b req k, .pass b req k],
        Answers i s fun t => AgreeOff [.out, .sy] s t)
    ∧ (ownOrEngine b req = true ∧ (arrOf s b k.val).st = .busy → Answers (.abort ⟨b, k⟩ req) s fun t =>
        AgreeOff [.out, .ar, .sy] s t
          ∧ (t.at b).ar = { (s.at b).ar with lastCmd := 6, cmdReq := req.val, abort := true })
    ∧ (ownOrEngine b req = false ∨ (arrOf s b k.val).st ≠ .busy → Answers (.abort ⟨b, k⟩ req) s fun t => AgreeOff [.out, .sy] s t)
    ∧ (ownOrEngine b req = true ∧ (s.at b).ar.phase = .idle →
      (∀ cmd i, (cmd, i) ∈ [(1, Instr.prog b req k first), (2, .verify b req k), (3, .repair b req k), (4, .cal b req k),
          (5, .pass b req k)] ∧ arRefuse s b cmd k.val ≠ 0 → Answers i s fun t => AgreeOff [.out, .ar, .sy] s t
        ∧ (t.at b).ar = { (s.at b).ar with
            lastCmd := cmd, cmdArr := k.val, result := arRefuse s b cmd k.val, cmdReq := req.val })
      ∧ (∀ cmd i, (cmd, i) ∈ [(1, Instr.prog b req k first), (2, .verify b req k)] ∧ arRefuse s b cmd k.val = 0
          ∧ inRun s b k.val = true → Answers i s fun t => AgreeOff [.out, .ar, .sy] s t ∧ (t.at b).ar.phase = .start
        ∧ (t.at b).ar.cmd = cmd ∧ (t.at b).ar.cmdArr = k.val ∧ (t.at b).ar.result = 0 ∧ (arrOf t b k.val).st = .busy)
      ∧ (arRefuse s b 1 k.val = 0 ∧ (planCopies (arrOf s b k.val)).2 = false ∧ inRun s b k.val = false →
        Answers (.prog b req k first) s fun t =>
        (t.at b).ar.phase = .sense ∧ (t.at b).ar.row = first.val ∧ (t.at b).ar.cmd = 1 ∧ (t.at b).ar.cmdArr = k.val
          ∧ (t.at b).ar.result = 0 ∧ (arrOf t b k.val).st = .busy)
      ∧ (arRefuse s b 2 k.val = 0 ∧ inRun s b k.val = false → Answers (.verify b req k) s fun t =>
        (t.at b).ar.phase = .sense ∧ (t.at b).ar.row = 0 ∧ (t.at b).ar.cmd = 2 ∧ (t.at b).ar.cmdArr = k.val
          ∧ (t.at b).ar.result = 0 ∧ (arrOf t b k.val).st = .busy)
      ∧ (arRefuse s b 3 k.val = 0 ∧ shortOuts (arrOf s b k.val) = [] → Answers (.repair b req k) s fun t =>
        (t.at b).ar.phase = .idle ∧ (t.at b).ar.result = 0x0C ∧ (arrOf t b k.val).st = (arrOf s b k.val).st)
      ∧ (∀ plan, arRefuse s b 3 k.val = 0 ∧ planCopies (arrOf s b k.val) = (plan, false) ∧ plan ≠ [] ∧ inRun s b k.val = false
          ∧ shortOuts (arrOf s b k.val) ≠ [] ∧ (∀ p ∈ plan, p.src < 76) → Answers (.repair b req k) s fun t =>
        (t.at b).ar.phase = .sense ∧ (t.at b).ar.row = 0 ∧ (t.at b).ar.plan = plan ∧ (arrOf t b k.val).st = .busy)
      ∧ (arRefuse s b 4 k.val = 0 → Answers (.cal b req k) s fun t => AgreeOff [.out, .ar, .sy] s t
        ∧ (t.at b).ar.result = 0 ∧ arrOf t b k.val = calOrder (arrOf s b k.val) ∧ (arrOf t b k.val).calDue = true)
      ∧ (arRefuse s b 5 k.val = 0 → Answers (.pass b req k) s fun t => AgreeOff [.out, .ar, .sy] s t
        ∧ (t.at b).ar.phase = .pass ∧ (t.at b).ar.input = arRead s b (s.at b).ar.src.toNat 256 ∧ (t.at b).ar.result = 0))

/-- R252, R253, R255, R256: a row senses: finished cells are skipped, others are programmed in rounds; VERIFY goes on or ends with
VERIFY_MISMATCH; ABORT and a source row that cannot be read leave the array INVALID. In SLEEP the order is suspended (R267).
Readings of the model in it: notes entries 67 and 77. -/
def Obligations.ArrayRows : Prop :=
  ∀ (s : State) (b : BId) (w : BitVec 640) (mid : BitVec 160), LoaderQuiet s b →
    (s.dev.sleep = true → ∀ i ∈ [Instr.rowSenseDone b w mid, .progRoundDone b w mid], Answers i s fun t => AgreeOff [.out] s t)
    ∧ (s.dev.sleep = false →
      (∀ i, i = .rowSenseDone b w mid ∧ (s.at b).ar.phase = .sense
          ∨ i = .progRoundDone b w mid ∧ (∃ n, (s.at b).ar.phase = .round n) →
        (s.at b).ar.abort = true → Answers i s fun t => (t.at b).ar.phase = .idle ∧ (t.at b).ar.result = 9
          ∧ ((s.at b).ar.cmdArr < 8 ∧ (arrOf s b (s.at b).ar.cmdArr).st = .busy →
              (arrOf t b (s.at b).ar.cmdArr).st = .invalid))
      ∧ ((s.at b).ar.phase = .sense ∧ (s.at b).ar.abort = false ∧ (s.at b).ar.low = false →
        ((s.at b).ar.cmd = 2 ∧ offTarget (s.at b).ar.target w mid = [] ∧ (s.at b).ar.row < 255
            ∧ SourceRow s b ((s.at b).ar.row + 1) → Answers (.rowSenseDone b w mid) s fun t =>
          (t.at b).ar.phase = .sense ∧ (t.at b).ar.row = (s.at b).ar.row + 1)
        ∧ ((s.at b).ar.cmd ∈ [1, 2] ∧ (s.at b).ar.sweep = false ∧ offTarget (s.at b).ar.target w mid = []
            ∧ (s.at b).ar.row < 255 ∧ ¬ SourceRow s b ((s.at b).ar.row + 1) → Answers (.rowSenseDone b w mid) s fun t =>
          (t.at b).ar.phase = .idle ∧ (t.at b).ar.result = 0x0B)
        ∧ ((s.at b).ar.cmd = 2 ∧ offTarget (s.at b).ar.target w mid = [] ∧ 255 ≤ (s.at b).ar.row →
          Answers (.rowSenseDone b w mid) s fun t => (t.at b).ar.phase = .closeCal
            ∧ ((s.at b).ar.cmdArr < 8 → (arrOf t b (s.at b).ar.cmdArr).calRun = true))
        ∧ ((s.at b).ar.cmd = 2 ∧ offTarget (s.at b).ar.target w mid ≠ [] → Answers (.rowSenseDone b w mid) s fun t =>
          (t.at b).ar.phase = .idle ∧ (t.at b).ar.result = 6 ∧ (t.at b).ar.rowReg = (s.at b).ar.row)
        ∧ ((s.at b).ar.cmd = 1 ∧ offTarget (s.at b).ar.target w mid ≠ [] → Answers (.rowSenseDone b w mid) s fun t =>
          (t.at b).ar.phase = .round 0 ∧ (t.at b).ar.row = (s.at b).ar.row)
        ∧ ((s.at b).ar.cmd = 1 ∧ offTarget (s.at b).ar.target w mid = [] ∧ (s.at b).ar.row < 255
            ∧ SourceRow s b ((s.at b).ar.row + 1) → Answers (.rowSenseDone b w mid) s fun t =>
          (t.at b).ar.phase = .sense ∧ (t.at b).ar.row = (s.at b).ar.row + 1
            ∧ (t.at b).ar.rowReg = (s.at b).ar.row + 1))
      ∧ (∀ n, (s.at b).ar.phase = .round n ∧ (s.at b).ar.abort = false →
        (offTarget (s.at b).ar.target w mid ≠ [] ∧ n + 1 < 32 → Answers (.progRoundDone b w mid) s fun t =>
          (t.at b).ar.phase = .round (n + 1))
        ∧ (offTarget (s.at b).ar.target w mid = [] ∧ (s.at b).ar.cmd = 1 ∧ (s.at b).ar.low = false ∧ (s.at b).ar.row < 255
            ∧ SourceRow s b ((s.at b).ar.row + 1) → Answers (.progRoundDone b w mid) s fun t =>
          (t.at b).ar.phase = .sense ∧ (t.at b).ar.row = (s.at b).ar.row + 1)
        ∧ (∀ c, c ∈ offTarget (s.at b).ar.target w mid ∧ 152 ≤ c ∧ 32 ≤ n + 1 → Answers (.progRoundDone b w mid) s fun t =>
          (t.at b).ar.phase = .idle ∧ (t.at b).ar.result = 5)))

/-- R243, R245, R249, R250, R259, R263, R264: calibrations, test slots, diagnostic passes and reads of a cell window.
Readings of the model in it: notes entries 15, 67 and 78. -/
def Obligations.ArrayMeasures : Prop :=
  ∀ (s : State) (b : BId) (k : Fin 8),
    (∀ (ds : BitVec 9216) (m : Vector Nat 4), LoaderQuiet s b ∧ (arrOf s b k.val).calRun = true ∧ m = calMeans (arrOf s b k.val) ds
        ∧ s.dev.sleep = false ∧ (s.at b).sy.holdover = false →
      ((s.at b).ar.phase = .idle ∧ ((arrOf s b k.val).st = .valid ∨ (arrOf s b k.val).st = .degraded)
          ∧ ((arrOf s b k.val).massDue = true ∨ (arrOf s b k.val).testDue = 0) ∧ inRun s b k.val = false →
        (calAccepts m (testTol (s.at b) k.val) = true → Answers (.calibrationDone b k ds) s fun t => AgreeOff [.out, .ar] s t
          ∧ some (arrOf t b k.val).gain = (calCandidate m).1 ∧ (arrOf t b k.val).offs = m[0]
          ∧ (arrOf t b k.val).calOk = true ∧ (arrOf t b k.val).calRun = false
          ∧ (arrOf t b k.val).calTide = (s.at b).td.tide % 2 ^ 32 ∧ (arrOf t b k.val).cals = sinc (arrOf s b k.val).cals)
        ∧ (calAccepts m (testTol (s.at b) k.val) = false → Answers (.calibrationDone b k ds) s fun t =>
          (arrOf t b k.val).gain = (arrOf s b k.val).gain ∧ (arrOf t b k.val).offs = (arrOf s b k.val).offs
            ∧ (arrOf t b k.val).calFail = sinc (arrOf s b k.val).calFail ∧ (arrOf t b k.val).calRun = false
            ∧ ((arrOf s b k.val).calTries + 1 ≤ testRetry (s.at b) k.val → (arrOf t b k.val).calDue = true
                ∧ (arrOf t b k.val).st = (arrOf s b k.val).st)
            ∧ (testRetry (s.at b) k.val < (arrOf s b k.val).calTries + 1 →
                (arrOf t b k.val).st = .invalid ∨ (arrOf t b k.val).st = .retired)))
      ∧ ((s.at b).ar.phase = .closeCal ∧ (s.at b).ar.cmdArr = k.val ∧ (s.at b).ar.abort = false
          ∧ calAccepts m (testTol (s.at b) k.val) = true → Answers (.calibrationDone b k ds) s fun t =>
        AgreeOff [.out, .ar] s t ∧ (t.at b).ar.phase = .closeTest ∧ some (arrOf t b k.val).gain = (calCandidate m).1))
    ∧ (∀ ds : BitVec 9216, LoaderQuiet s b ∧ ((arrOf s b k.val).calRun = false ∨ s.dev.sleep = true) →
      Answers (.calibrationDone b k ds) s fun t => AgreeOff [.out] s t)
    ∧ (∀ cs : BitVec 5760, LoaderQuiet s b ∧ (s.at b).ar.phase = .idle ∧ (arrOf s b k.val).testDue ≠ 0
        ∧ ((arrOf s b k.val).st = .valid ∨ (arrOf s b k.val).st = .degraded) ∧ (arrOf s b k.val).massDue = false
        ∧ s.dev.sleep = false ∧ (s.at b).sy.holdover = false →
      Answers (.testSlot b k cs) s fun t => (arrOf t b k.val).tests = sinc (arrOf s b k.val).tests
        ∧ ((arrOf t b k.val).testDue = (arrOf s b k.val).testDue - 1 ∨ (arrOf t b k.val).st = .retired)
        ∧ ((∀ c ∈ testedCols (arrOf s b k.val), badMasks (arrOf s b k.val) (testTol (s.at b) k.val) cs c = 0) →
            (arrOf t b k.val).st = (arrOf s b k.val).st ∧ (arrOf t b k.val).mismatch = sadd (arrOf s b k.val).mismatch 0))
    ∧ (∀ ds : Vector (BitVec 11520) 4, LoaderQuiet s b ∧ (s.at b).ar.phase = .pass ∧ (s.at b).ar.cmdArr = k.val
        ∧ s.dev.sleep = false ∧ (s.at b).ar.dst.toNat < 0x20100000 →
      Answers (.arrayPassDone b .diag ds) s fun t => (t.at b).ar.phase = .idle ∧ (t.at b).ar.result = 0
        ∧ (t.at b).ar.acc = laneSums false (s.at b).ar.acc [(arrOf s b k.val, (s.at b).ar.input.map (·.toNat), ds[0])]
        ∧ (t.at b).ar.passes = ((s.at b).ar.passes + b2n (passesOn (arrOf s b k.val))) % 2 ^ 64
        ∧ (∀ a, a < (s.at b).ar.dst.toNat - 0x20000000
            ∨ (s.at b).ar.dst.toNat - 0x20000000 + 4 * logicalN (arrOf s b k.val).calMode ≤ a →
          memGet ramD (t.at b).tcm a = memGet ramD (s.at b).tcm a)
        ∧ (t.at b).deck = (s.at b).deck ∧ (t.at b).flash = (s.at b).flash)
    ∧ (∀ (req : ReqId) (r : Fin 256) (w : Fin 20) (v : Word),
        ReadPasses s req b (0x40800000 + 0x1000000 * b.val + 0x8000 * k.val + 0x80 * r.val + 4 * w.val) →
      Answers (.cellWindowRead b req k r w v) s fun t => AgreeOff [.out, .sy, .ar] s t
        ∧ t.out = [.value (if (arrOf s b k.val).st = .busy ∨ (arrOf s b k.val).st = .retired then 0 else v)])

/-! ### Policy graphs -/

/-- R271, R272, R274, R289 to R291: an inference from its features through its passes and outputs, one whose stages' berths cannot be
reached, and the fallback of a stalled graph. Readings of the model in it: notes entry 65. -/
def Obligations.Inference : Prop :=
  ∀ (s : State) (h b : BId) (g : Fin 2) (i : Infer), (graphOf s h g.val).inf = some i →
    (i.step = .gather → Answers (.featureReceive h g) s fun t => Keeps [h] s t ∧ AgreeOff [.out, .pg] s t
      ∧ (graphOf t h g.val).inf = some { i with
          step := .pass 0 0
          input := ((imgOf (graphOf s h g.val)).feats.zip (i.feats.zip i.miss)).map fun e =>
            featValue e.1 (if featMissed s h (graphOf s h g.val) e.1 then 0 else e.2.1) })
    ∧ (∀ j, i.step = .travel j ∧ layerBerth (graphOf s h g.val) j = some b → Answers (.stageOutputReceive b g) s fun t =>
        AgreeOff [.out, .pg] s t ∧ (graphOf t h g.val).inf = some { i with step := .pass j 0 })
    ∧ (∀ j c ds, i.step = .pass j c ∧ passHome s b g.val = some h ∧ s.dev.sleep = false
          ∧ stagesReached s h (graphOf s h g.val) = true →
        Answers (.arrayPassDone b (if g = 0 then .policy else .dummy) ds) s fun t =>
          (graphOf t h g.val).inf.map (·.step) = some (afterPass (graphOf s h g.val) j c)
            ∧ AgreeOff [.out, .freeCtr, .rp, .log, .pl, .dk, .tw, .us, .ar, .pg] s t)
    ∧ (i.step = .outputs ∧ stagesReached s h (graphOf s h g.val) = true → Answers (.bindingsFormed h g) s fun t =>
        (graphOf t h g.val).inf = some { i with step := .complete }
          ∧ (graphOf t h g.val).st = if (graphOf s h g.val).st = .stalled ∨ (graphOf s h g.val).st = .fallback then .running
              else (graphOf s h g.val).st)
    ∧ (∀ x, stagesReached s h (graphOf s h g.val) = false ∧ (x = .bindingsFormed h g ∧ i.step = .outputs
          ∨ (∃ ds j c, x = .arrayPassDone b (if g = 0 then .policy else .dummy) ds ∧ i.step = .pass j c)
            ∧ passHome s b g.val = some h ∧ s.dev.sleep = false) → Answers x s fun t =>
        (graphOf t h g.val).inf = none ∧ (graphOf t h g.val).incomplete = sinc (graphOf s h g.val).incomplete
          ∧ (graphOf t h g.val).st = if (graphOf s h g.val).st = .running then .stalled else (graphOf s h g.val).st)
    ∧ ((graphOf s h g.val).st = .stalled ∧ 256 ≤ (graphOf s h g.val).stallMarks → Answers (.fallbackEntry h g) s fun t =>
        (graphOf t h g.val).st = .fallback)
    ∧ ((graphOf s h g.val).st = .stalled ∧ (graphOf s h g.val).stallMarks < 256 → Answers (.fallbackEntry h g) s fun t =>
        AgreeOff [.out] s t)

/-- R293, R296, R297: the orders to PG_CMD in the harbour's window.
R287, R288, R295, R297: a load whose tiles have all passed runs; the dummy is compared; and at its start boundary it becomes the
policy. Readings of the model in it: notes entries 64 and 65. -/
def Obligations.PolicyOrdersAndDummy : Prop :=
  (∀ (s : State) (h : BId) (req : ReqId) (g : Fin 2) (guard : BitVec 16), WritePasses s req (some h) 0xA000
        ∧ (s.at h).sy.isHarbour = true ∧ (s.at h).pg.swapDue = false →
      (∀ cmd i, (cmd, i) ∈ [(1, Instr.unload h req g guard), (3, .statsClear h req), (4, .replace h req g)]
          ∧ req ≠ 9 ∧ req ≠ 10 ∧ req.val ≠ h.val ∨ (cmd, i) = (2, .promote h req guard) ∧ req ≠ 9 ∧ req ≠ 10 →
        Answers i s fun t => AgreeOff [.out, .sy, .pg] s t
          ∧ (t.at h).pg = { (s.at h).pg with lastCmd := cmd, result := 4, cmdReq := req.val })
      ∧ (req = 9 ∨ req = 10 →
        (∀ cmd i, (cmd, i) ∈ [(1, Instr.unload h req g guard), (2, .promote h req guard)] ∧ guard ≠ 0x9A6D →
          Answers i s fun t => AgreeOff [.out, .sy, .pg] s t
            ∧ (t.at h).pg = { (s.at h).pg with lastCmd := cmd, result := 2, cmdReq := req.val })
        ∧ (guard = 0x9A6D ∧ homes s g.val ≠ [] → Answers (.unload h req g guard) s fun t =>
          (t.at h).pg.result = 0 ∧ ∀ b, (graphOf t b g.val).st = .empty ∧ (graphOf t b g.val).place = [] ∨ b ∉ homes s g.val)
        ∧ (guard = 0x9A6D ∧ homes s 1 ≠ [] ∧ (∀ b ∈ homes s 1, (graphOf s b 1).st = .running ∧ statsPass s h b = true)
            ∧ bindPass s h = true → Answers (.promote h req guard) s fun t => AgreeOff [.out, .sy, .pg] s t
          ∧ (t.at h).pg = { (s.at h).pg with lastCmd := 2, result := 0, cmdReq := req.val, swapDue := true })
        ∧ (Answers (.statsClear h req) s fun t => AgreeOff [.out, .sy, .pg] s t ∧ (t.at h).pg.result = 0
          ∧ ∀ b, (t.at b).pg.dcmp = 0 ∧ (t.at b).pg.dagree = 0 ∧ (t.at b).pg.dinc = 0)
        ∧ ((∀ b, replaceable s g.val b = false) → Answers (.replace h req g) s fun t => AgreeOff [.out, .sy, .pg] s t
          ∧ (t.at h).pg = { (s.at h).pg with lastCmd := 4, result := 1, cmdReq := req.val })
        ∧ (∀ b, allB.filter (replaceable s g.val) = [b] ∧ placeAgain s b g.val = none → Answers (.replace h req g) s fun t =>
          (t.at h).pg.result = 0 ∧ (graphOf t b g.val).st = .failed ∧ (graphOf t b g.val).place = [])
        ∧ (∀ b pl, allB.filter (replaceable s g.val) = [b] ∧ placeAgain s b g.val = some pl →
          Answers (.replace h req g) s fun t => (t.at h).pg.result = 0 ∧ (t.at h).pg.lastCmd = 4 ∧ (graphOf t b g.val).inf = none
            ∧ ((∀ n, (s.at n).pg.ord ≠ none) →
              (graphOf t b g.val).st = (if (graphOf s b g.val).st = .failed then .loading else .stalled)
                ∧ (graphOf t b g.val).place.map (fun p => (p.berth, p.arr)) = pl.map (fun p => (p.berth, p.arr))
                ∧ (graphOf t b g.val).place.map (·.prog) = pl.map (·.prog)))))
  ∧ (∀ (s : State) (h : BId),
      (∀ g : Fin 2, (graphOf s h g.val).st = .loading ∧ (∀ p ∈ (graphOf s h g.val).place, p.prog = 2) →
        Answers (.policyLoadDone h g) s fun t => (graphOf t h g.val).st = .running
          ∧ nbit (t.at h).sy.images (g.val + 1) = true)
      ∧ ((graphOf s h 1).cmpDue = true → Answers (.dummyCompare h) s fun t => Keeps [h] s t ∧ AgreeOff [.out, .pg] s t
          ∧ (graphOf t h 1).cmpDue = false ∧ (t.at h).pg.dcmp = sinc (s.at h).pg.dcmp
          ∧ (t.at h).pg.dagree = sadd (s.at h).pg.dagree
              (b2n ((deviations s h).all fun d => d.2 ≤ tolOf (s.at h).pg d.1))
          ∧ ∀ k : Fin 6, vget (t.at h).pg.ddis k.val = sadd (vget (s.at h).pg.ddis k.val)
              (b2n ((deviations s h).any fun d => d.1 == k.val + 1 && d.2 > tolOf (s.at h).pg (k.val + 1))))
      ∧ (∀ b, (s.at h).sy.isHarbour = true ∧ (s.at h).pg.swapDue = true ∧ (homes s 1).head? = some b
          ∧ (s.at h).td.mark % 2 ^ (imgOf (graphOf s b 1)).cadence = (imgOf (graphOf s b 1)).phase →
        Answers (.promoteSwap h) s fun t => (t.at h).pg.swapDue = false ∧ ∀ n, (graphOf t n 1).st = .empty
          ∧ (graphOf t n 0).img = (graphOf s n 1).img ∧ (t.at n).pg.swapped = !(s.at n).pg.swapped
          ∧ (t.at n).pg.promotions = sinc8 (s.at n).pg.promotions
          ∧ ((graphOf s n 1).inf = none → (graphOf t n 0).runs = (graphOf s n 0).runs
              ∧ (graphOf t n 0).st = if (graphOf s n 1).st = .empty then .empty else .running)
          ∧ ((graphOf s n 1).inf ≠ none → (graphOf t n 0).runs = sinc (graphOf s n 0).runs)))

/-! ### The hawser link -/

/-- R327, R329, R330: the orders to HW_CMD: START begins training, STOP ends every order, RETRAIN trains an UP link again. -/
def Obligations.LinkOrders : Prop :=
  ∀ (s : State) (b : BId) (req : ReqId), WritePasses s req (some b) 0x4008 →
    (ownOrEngine b req = false → ∀ i ∈ [Instr.start b req, .stop b req, .retrain b req],
      Answers i s fun t => AgreeOff [.out, .sy] s t)
    ∧ (ownOrEngine b req = true →
      (startResult s b = 0 → Answers (.start b req) s fun t => (t.at b).hw.link = .train ∧ (t.at b).hw.tx.on = true
        ∧ (t.at b).hw.tx.trainId = ((s.at b).hw.tx.trainId + 1) % 2 ^ 32 ∧ (t.at b).hw.lastCmd = 1 ∧ (t.at b).hw.cmdResult = 0)
      ∧ (startResult s b ≠ 0 → Answers (.start b req) s fun t => AgreeOff [.out, .sy, .hw] s t
        ∧ (t.at b).hw = { (s.at b).hw with lastCmd := 1, cmdResult := startResult s b, cmdReq := req.val })
      ∧ (lane (s.at b).hw = true → Answers (.stop b req) s fun t => (t.at b).hw.link = .off ∧ (t.at b).hw.tx.on = false
        ∧ (t.at b).hw.rx.lock = false ∧ (t.at b).hw.cmdResult = 0
        ∧ ∀ k : Fin 64, ∀ o, vget (t.at b).hw.tags k.val ≠ .used o)
      ∧ (lane (s.at b).hw = false → Answers (.stop b req) s fun t => AgreeOff [.out, .sy, .hw] s t
        ∧ (t.at b).hw = { (s.at b).hw with lastCmd := 2, cmdResult := 1, cmdReq := req.val })
      ∧ ((s.at b).hw.link = .up → Answers (.retrain b req) s fun t => (t.at b).hw.link = .retrain
        ∧ (t.at b).hw.lastCause = 5 ∧ (t.at b).hw.cmdResult = 0 ∧ (t.at b).hw.cnt.retrains = sinc (s.at b).hw.cnt.retrains
        ∧ (t.at b).hw.tags = (s.at b).hw.tags ∧ (t.at b).hw.tx.replayBuf = (s.at b).hw.tx.replayBuf)
      ∧ ((s.at b).hw.link ≠ .up → Answers (.retrain b req) s fun t => AgreeOff [.out, .sy, .hw] s t
        ∧ (t.at b).hw = { (s.at b).hw with lastCmd := 3, cmdResult := 1, cmdReq := req.val }))

/-- R307 to R309: the search for lock bit by bit, false lock and its exclusion, and the loss of lock.
R313, R316, R317, R325, R326: replays and failed trainings, an order without a reply, and the resend of a FREQ order.
Readings of the model in it: notes entry 61. -/
def Obligations.LockAndTimeouts : Prop :=
  (∀ (s : State) (b : BId),
      (∀ (d : Bool) (r : HwRx) (w : Word), lane (s.at b).hw = true ∧ (s.at b).hw.rx.lock = false ∧ s.dev.sleep = false
          ∧ r = (s.at b).hw.rx
          ∧ w = (r.recent >>> 1) ||| (if (d != bitAt (s.at b).hw.cfg 2) = true then 0x80000000#32 else 0#32) →
        (w = marker ∧ 31 ≤ r.seen ∧ r.excluded ≠ some r.pos ∧ hitsOf r r.pos = 3 → Answers (.rxLock b d []) s fun t =>
          Keeps [b] s t ∧ AgreeOff [.out, .hw] s t ∧ (t.at b).hw.rx.lock = true ∧ (t.at b).hw.rx.offset = r.pos
            ∧ (t.at b).hw.rx.proven = false ∧ (t.at b).hw.rx.sinceLock = 0 ∧ (t.at b).hw.rx.hits = [])
        ∧ (w = marker ∧ 31 ≤ r.seen ∧ r.excluded ≠ some r.pos ∧ hitsOf r r.pos < 3 → Answers (.rxLock b d []) s fun t =>
          Keeps [b] s t ∧ AgreeOff [.out, .hw] s t ∧ (t.at b).hw.rx.lock = false ∧ (t.at b).hw.rx.recent = w
            ∧ (t.at b).hw.rx.pos = (r.pos + 1) % 288 ∧ hitsOf (t.at b).hw.rx r.pos = hitsOf r r.pos + 1)
        ∧ (w ≠ marker ∨ r.seen < 31 ∨ r.excluded = some r.pos → Answers (.rxLock b d []) s fun t =>
          Keeps [b] s t ∧ AgreeOff [.out, .hw] s t ∧ (t.at b).hw.rx.lock = false ∧ (t.at b).hw.rx.recent = w
            ∧ (t.at b).hw.rx.pos = (r.pos + 1) % 288 ∧ hitsOf (t.at b).hw.rx r.pos = 0
            ∧ ∀ o, o ≠ r.pos → hitsOf (t.at b).hw.rx o = hitsOf r o))
      ∧ ((s.at b).hw.rx.lock = true ∧ (s.at b).hw.rx.proven = false ∧ 8 ≤ (s.at b).hw.rx.sinceLock →
        Answers (.falseLock b) s fun t => Keeps [b] s t ∧ (t.at b).hw.rx = { (s.at b).hw.rx with
          lock := false, excluded := some (s.at b).hw.rx.offset, sinceLock := 0, badMarkers := 0, hits := [] }
          ∧ (t.at b).hw.cnt.falseLock = sinc (s.at b).hw.cnt.falseLock)
      ∧ (Answers (.falseLockExclusionEnd b) s fun t => Keeps [b] s t ∧ (t.at b).hw = { (s.at b).hw with
          rx := { (s.at b).hw.rx with excluded := none } })
      ∧ ((s.at b).hw.rx.lock = true ∧ 8 ≤ (s.at b).hw.rx.badMarkers → Answers (.lockLost b) s fun t =>
          (t.at b).hw.rx.lock = false ∧ (t.at b).hw.rx.validTrain = 0 ∧ (t.at b).hw.rx.readyTrain = 0
            ∧ (t.at b).hw.link = (if (s.at b).hw.link = .up then .retrain else (s.at b).hw.link)
            ∧ ((s.at b).hw.link = .up → (t.at b).hw.lastCause = 1)))
  ∧ (∀ (s : State) (b : BId),
      (∀ f fs, (s.at b).hw.link = .up ∧ (s.at b).hw.tx.replayBuf = f :: fs →
        ((s.at b).hw.tx.resends + 1 ≤ fld (s.at b).hw.cfg 17 16 → Answers (.ackTimeout b) s fun t => Keeps [b] s t
          ∧ (t.at b).hw = { (s.at b).hw with tx := { (s.at b).hw.tx with
              resends := (s.at b).hw.tx.resends + 1, replayPos := some 0 } })
        ∧ (fld (s.at b).hw.cfg 17 16 < (s.at b).hw.tx.resends + 1 ∧ (s.at b).hw.tx.blame ≠ some f.fseq →
          Answers (.ackTimeout b) s fun t => (t.at b).hw.link = .retrain ∧ (t.at b).hw.lastCause = 2
            ∧ (t.at b).hw.tx.blame = some f.fseq ∧ (t.at b).hw.tx.replayBuf = f :: fs))
      ∧ ((s.at b).hw.link = .train ∨ (s.at b).hw.link = .retrain → Answers (.trainTimeout b) s fun t =>
          (t.at b).hw.cnt.trainFail = sinc (s.at b).hw.cnt.trainFail
            ∧ ((s.at b).hw.grace = true ∨ (classEvent s b 4 (s.at b).hw.hist).1 = false →
                (t.at b).hw.link = .retrain ∧ (t.at b).hw.lastCause = 6
                  ∧ (t.at b).hw.tx.trainId = ((s.at b).hw.tx.trainId + 1) % 2 ^ 32)
            ∧ ((s.at b).hw.grace = false ∧ (classEvent s b 4 (s.at b).hw.hist).1 = true → (t.at b).hw.link = .retired))
      ∧ (∀ (tag : Fin 64) o r, vget (s.at b).hw.tags tag.val = .used o ∧ o.owner = .mailbox r ∧ (s.at b).hw.link = .up
          ∧ headerWaits (s.at b).hw.tx tag.val = false → Answers (.replyTimeout b tag) s fun t =>
            vget (t.at b).hw.tags tag.val = .quarantined (some r)
              ∧ (t.at b).hw.cpl = (s.at b).hw.cpl ++ [⟨tag.val, 0x10, 0, r⟩]
              ∧ (t.at b).hw.cnt.timeouts = sinc (s.at b).hw.cnt.timeouts)
      ∧ (∀ (k : Fin 4) x, (s.at b).hw.freqRetry.find? (fun y => y.1 == k.val) = some x ∧ (s.at b).rl.slot = .up →
        Answers (.freqResend b k) s fun t => Keeps [b] s t ∧ (∀ y ∈ (t.at b).hw.freqRetry, y.1 ≠ k.val)
          ∧ ∀ g, tagFor (s.at b).hw (.freq k.val x.2) = some g →
            ∃ o, vget (t.at b).hw.tags g = .used o ∧ o.op = .freq ∧ o.owner = .freq k.val x.2))

/-- R303 to R306, R309, R315, R319: a received frame with a wrong marker, a wrong CRC, a reserved code or bit, or the next in
sequence; and one frame sent at each boundary. In SLEEP the link's clocks stand (R115).
Readings of the model in it: notes entries 35 and 61. -/
def Obligations.Frames : Prop :=
  ∀ (s : State) (b : BId) (raw : Vector Word 9) (fill : Fin 5) (ws ps : List Word) (p0 : Word),
    (s.dev.sleep = true → ∀ i ∈ [Instr.frameReceive b raw fill, .txFrameBoundary b], Answers i s fun t => AgreeOff [.out] s t)
    ∧ (s.dev.sleep = false ∧ (s.at b).hw.rx.lock = true ∧ lane (s.at b).hw = true ∧ ws = invert (bitAt (s.at b).hw.cfg 2) raw.toList
        ∧ ps = (scrambleAll false ((ws.drop 1).take 7) (s.at b).hw.rx.hist).1 ∧ p0 = (ps[0]?).getD 0 →
      ((ws[0]?).getD 0 ≠ marker → Answers (.frameReceive b raw fill) s fun t => Keeps [b] s t
        ∧ (t.at b).hw.rx.badMarkers = (s.at b).hw.rx.badMarkers + 1 ∧ (t.at b).hw.rx.nakOut = true
        ∧ (t.at b).hw.rx.last = (s.at b).hw.rx.last ∧ (t.at b).hw.cnt.rxf = (s.at b).hw.cnt.rxf)
      ∧ ((ws[0]?).getD 0 = marker ∧ (ws[8]?).getD 0 ≠ crc32 (wordsBytes ps) → Answers (.frameReceive b raw fill) s fun t =>
        Keeps [b] s t ∧ (t.at b).hw.rx.badMarkers = 0 ∧ (t.at b).hw.rx.nakOut = true
          ∧ (t.at b).hw.rx.last = (s.at b).hw.rx.last ∧ (t.at b).hw.cnt.crcErr = sinc (s.at b).hw.cnt.crcErr
          ∧ (t.at b).hw.cnt.rxf = (s.at b).hw.cnt.rxf)
      ∧ ((ws[0]?).getD 0 = marker ∧ (ws[8]?).getD 0 = crc32 (wordsBytes ps) ∧ frameReserved p0 ((ps[1]?).getD 0) = true →
        Answers (.frameReceive b raw fill) s fun t => Keeps [b] s t ∧ (t.at b).hw.rx.nakOut = true
          ∧ (t.at b).hw.rx.last = (s.at b).hw.rx.last ∧ (t.at b).hw.cnt.proto = sinc (s.at b).hw.cnt.proto
          ∧ (t.at b).hw.tx.acked = (s.at b).hw.tx.acked)
      ∧ ((ws[0]?).getD 0 = marker ∧ (ws[8]?).getD 0 = crc32 (wordsBytes ps) ∧ (s.at b).hw.link = .up
          ∧ 2 ≤ fld p0 3 0 ∧ bitAt p0 4 = false ∧ frameReserved p0 ((ps[1]?).getD 0) = false
          ∧ fld p0 15 8 = ((s.at b).hw.rx.last + 1) % 256 ∧ 0 < window (s.at b).hw.rx →
        Answers (.frameReceive b raw fill) s fun t => Keeps [b] s t ∧ (t.at b).hw.rx.last = fld p0 15 8
          ∧ (t.at b).hw.rx.nakOut = false ∧ (t.at b).hw.rx.proven = true ∧ (t.at b).hw.tx.acked = fld p0 23 16
          ∧ (t.at b).hw.tx.remoteWin = fld p0 30 24 ∧ (t.at b).hw.cnt.rxf = ((s.at b).hw.cnt.rxf + 1) % 2 ^ 64))
    ∧ ((s.at b).hw.tx.on = true ∧ s.dev.sleep = false → Answers (.txFrameBoundary b) s fun t => Keeps [b] s t
        ∧ (t.at b).hw.cnt.txf = ((s.at b).hw.cnt.txf + 1) % 2 ^ 64
        ∧ ∃ fs, t.out = [.frame b fs] ∧ fs.head? = some (if bitAt (s.at b).hw.cfg 1 then ~~~ marker else marker)
          ∧ ((s.at b).hw.link ≠ .up → fs.length = 9))
    ∧ ((s.at b).hw.tx.on = false → Answers (.txFrameBoundary b) s fun t => AgreeOff [.out] s t ∧ t.out = [])

/-- R318, R321 to R323, R325, R332: the message at the front of the receive queue: a REPLY completes a mailbox order or ends a
quarantine, an EVENT enters HW_EVQ with a buffer.
R323, R331, R332: orders of a requester's mailbox, and the reads of HW_CPL and HW_EVQ. Readings of the model in it: notes entry 61. -/
def Obligations.MessagesAndMailbox : Prop :=
  (∀ (s : State) (b : BId) (m : RxMsg),
      (rxFront (s.at b).hw 3 = some m ∧ m.tag < 64 →
        (∀ o r, vget (s.at b).hw.tags m.tag = .used o ∧ o.owner = .mailbox r ∧ replyFits o m = true →
          Answers (.replyReceive b) s fun t => vget (t.at b).hw.tags m.tag = .done r
            ∧ (t.at b).hw.cpl = (s.at b).hw.cpl ++ [⟨m.tag, m.status, if m.status = 0 then m.data.length else 0, r⟩]
            ∧ (t.at b).hw.rx.queue = (s.at b).hw.rx.queue.drop 1)
        ∧ (∀ o, vget (s.at b).hw.tags m.tag = .used o ∧ replyFits o m = false → Answers (.replyReceive b) s fun t => Keeps [b] s t
          ∧ (t.at b).hw = { (s.at b).hw with
              cnt := { (s.at b).hw.cnt with proto := sinc (s.at b).hw.cnt.proto }
              rx := { (s.at b).hw.rx with queue := (s.at b).hw.rx.queue.drop 1 } })
        ∧ (∀ r, vget (s.at b).hw.tags m.tag = .quarantined (some r) → Answers (.replyReceive b) s fun t =>
          vget (t.at b).hw.tags m.tag = .done r ∧ (t.at b).hw.cnt.late = sinc (s.at b).hw.cnt.late
            ∧ (t.at b).hw.cpl = (s.at b).hw.cpl))
      ∧ (rxFront (s.at b).hw 4 = some m →
        (∀ g, (s.at b).hw.evq.length < 32 ∧ (deckAlloc b 0 false s.begin).1 = some g → Answers (.eventReceive b) s fun t =>
          (t.at b).hw.evq = (s.at b).hw.evq ++ [⟨m.op, g % 512, m.len⟩]
            ∧ (t.at b).hw.rx.queue = (s.at b).hw.rx.queue.drop 1 ∧ bitAt (t.at b).pl.irqPend 3 = true)
        ∧ (32 ≤ (s.at b).hw.evq.length → Answers (.eventReceive b) s fun t => AgreeOff [.out] s t)
        ∧ ((s.at b).hw.evq.length < 32 ∧ (deckAlloc b 0 false s.begin).1 = none → Answers (.eventReceive b) s fun t =>
          (t.at b).hw = (s.at b).hw)))
  ∧ (∀ (s : State) (b : BId) (req : ReqId) (len : Fin 512),
      (WritePasses s req (some b) 0x4044 →
        (∀ i ∈ [Instr.mailboxRead b req len, .mailboxWrite b req len, .mailboxCtrl b req len, .mailboxFreq b req len],
          linkOpen (s.at b).hw = false → Answers i s fun t => AgreeOff [.out, .sy, .hw] s t
            ∧ (mboxOf t b req).resCode = 2 ∧ (mboxOf t b req).resAcc = false ∧ (t.at b).hw.tags = (s.at b).hw.tags)
        ∧ (linkOpen (s.at b).hw = true → Answers (.mailboxFreq b req len) s fun t => AgreeOff [.out, .sy, .hw] s t
            ∧ (mboxOf t b req).resCode = 3 ∧ (mboxOf t b req).resAcc = false ∧ (t.at b).hw.tags = (s.at b).hw.tags)
        ∧ (∀ i op, (i, op) ∈ [(Instr.mailboxRead b req len, OrdOp.read), (.mailboxWrite b req len, .write)]
            ∧ linkOpen (s.at b).hw = true ∧ (s.at b).dk.inDeck = true →
          (1 ≤ len.val ∧ len.val ≤ 256 →
            (∀ g, tagFor (s.at b).hw (.mailbox req) = some g → Answers i s fun t => AgreeOff [.out, .sy, .hw] s t
              ∧ (mboxOf t b req).resCode = 0 ∧ (mboxOf t b req).resAcc = true ∧ (mboxOf t b req).resTag = g
              ∧ ∃ o, vget (t.at b).hw.tags g = .used o ∧ o.op = op ∧ o.owner = .mailbox req ∧ o.len = len.val
                ∧ o.addr = (mboxOf s b req).addrLo.toNat + 2 ^ 32 * fld (mboxOf s b req).addrHi 7 0)
            ∧ (tagFor (s.at b).hw (.mailbox req) = none → Answers i s fun t => AgreeOff [.out, .sy, .hw] s t
              ∧ (mboxOf t b req).resCode = 1 ∧ (mboxOf t b req).resAcc = false ∧ (t.at b).hw.tags = (s.at b).hw.tags))
          ∧ (len.val = 0 ∨ 256 < len.val → Answers i s fun t => AgreeOff [.out, .sy, .hw] s t
              ∧ (mboxOf t b req).resCode = 3 ∧ (t.at b).hw.tags = (s.at b).hw.tags))
        ∧ (∀ g, linkOpen (s.at b).hw = true ∧ len.val = 0 ∧ tagFor (s.at b).hw (.mailbox req) = some g →
          Answers (.mailboxCtrl b req len) s fun t => AgreeOff [.out, .sy, .hw] s t
            ∧ (mboxOf t b req).resCode = 0 ∧ (mboxOf t b req).resTag = g
            ∧ ∃ o, vget (t.at b).hw.tags g = .used o ∧ o.op = .ctrl ∧ o.args = (mboxOf s b req).arg.toList))
      ∧ (ReadPasses s req b (regAddr (some b) 0x4050) →
        ((s.at b).hw.cpl = [] → Answers (.hwCplRead b req) s fun t => AgreeOff [.out, .sy] s t ∧ t.out = [.value 0])
        ∧ (∀ c cs, (s.at b).hw.cpl = c :: cs → Answers (.hwCplRead b req) s fun t => (t.at b).hw.cpl = cs
          ∧ .value (pack [(c.tag, 0, 6), (1, 6, 1), (c.status, 8, 8), (c.len, 16, 9), (c.req.val, 28, 4)]) ∈ t.out))
      ∧ (ReadPasses s req b (regAddr (some b) 0x4054) →
        ((s.at b).hw.evq = [] → Answers (.hwEvqRead b req) s fun t => AgreeOff [.out, .sy] s t ∧ t.out = [.value 0])
        ∧ (∀ e es, (s.at b).hw.evq = e :: es → Answers (.hwEvqRead b req) s fun t => AgreeOff [.out, .sy, .hw, .dk] s t
          ∧ (t.at b).hw = { (s.at b).hw with evq := es } ∧ (e.buf, req) ∈ (t.at b).dk.handed
          ∧ t.out = [.value (pack [(e.code, 0, 8), (1, 8, 1), (e.buf, 9, 9), (e.len, 18, 9)])])))

/-! ### The service engine -/

/-- R340: the orders to HW_SVC_CMD: BRING_UP, the reset of a unit, and ABORT, from each requester and in each state; and an accepted
BRING_UP's start of MGMT once the slot is UP. -/
def Obligations.ServiceOrders : Prop :=
  ∀ (s : State) (b : BId) (req : ReqId), WritePasses s req (some b) 0x4200 →
    (ownOrEngine b req = true →
      (((s.at b).svc.st = .off ∨ (s.at b).svc.st = .failed) ∧ ((s.at b).rl.slot = .powering ∨ (s.at b).rl.slot = .up)
          ∧ bitAt (s.at b).hw.cfg 0 = true ∧ (s.at b).hw.link = .off →
        Answers (.bringUp b req) s fun t => AgreeOff [.out, .sy, .svc, .pl] s t ∧ (t.at b).svc = { (s.at b).svc with
          st := .off, fail := 0, step := .waitSlot, runs := sinc (s.at b).svc.runs
          lastCmd := 1, cmdResult := 0, cmdReq := req.val })
      ∧ ((s.at b).svc.st ≠ .resetting ∧ ((s.at b).svc.st ≠ .off ∧ (s.at b).svc.st ≠ .failed
          ∨ (s.at b).rl.slot ≠ .powering ∧ (s.at b).rl.slot ≠ .up ∨ bitAt (s.at b).hw.cfg 0 = false ∨ (s.at b).hw.link ≠ .off) →
        Answers (.bringUp b req) s fun t => AgreeOff [.out, .sy, .svc] s t
          ∧ (t.at b).svc = { (s.at b).svc with lastCmd := 1, cmdResult := 1, cmdReq := req.val })
      ∧ (∀ (level : Fin 4) (unit : Fin 1024) absorb,
        ((s.at b).svc.st = .service ∧ unit.val < unitCount level.val →
          Answers (.serviceReset b req level unit absorb) s fun t => AgreeOff [.out, .sy, .svc, .pl, .hw, .pw] s t
            ∧ (t.at b).svc.st = .resetting ∧ (t.at b).svc.step = .ctrl .quiesce ∧ (t.at b).svc.rstLevel = level.val
            ∧ (t.at b).svc.rstUnit = unit.val ∧ (t.at b).svc.rstAbsorb = absorb ∧ (t.at b).svc.since = s.now
            ∧ (t.at b).svc.rst = vmod (s.at b).svc.rst level.val sinc ∧ (t.at b).svc.lastCmd = 2 ∧ (t.at b).svc.cmdResult = 0
            ∧ ∀ k : Fin 4, level = 3 ∨ level = 2 ∧ unit.val = k.val → (partOf t b k.val).ready = false)
        ∧ ((s.at b).svc.st = .service ∧ unitCount level.val ≤ unit.val →
          Answers (.serviceReset b req level unit absorb) s fun t => AgreeOff [.out, .sy, .svc] s t
            ∧ (t.at b).svc = { (s.at b).svc with lastCmd := 2, cmdResult := 3, cmdReq := req.val })
        ∧ ((s.at b).svc.st ≠ .service ∧ (s.at b).svc.st ≠ .resetting →
          Answers (.serviceReset b req level unit absorb) s fun t => AgreeOff [.out, .sy, .svc] s t
            ∧ (t.at b).svc = { (s.at b).svc with lastCmd := 2, cmdResult := 1, cmdReq := req.val }))
      ∧ (isStage (s.at b).svc.st = true ∨ (s.at b).svc.st = .resetting → Answers (.serviceAbort b req) s fun t =>
        (t.at b).svc.st = .failed ∧ (t.at b).svc.fail = 0x0C ∧ (t.at b).svc.lastCmd = 3 ∧ (t.at b).svc.cmdResult = 0
          ∧ ((t.at b).hw.link = .off ∨ (t.at b).hw.link = .retired) ∧ ∀ k : Fin 4, (partOf t b k.val).ready = false)
      ∧ (isStage (s.at b).svc.st = false ∧ (s.at b).svc.st ≠ .resetting → Answers (.serviceAbort b req) s fun t =>
        AgreeOff [.out, .sy, .svc] s t
          ∧ (t.at b).svc = { (s.at b).svc with lastCmd := 3, cmdResult := 1, cmdReq := req.val }))
    ∧ (ownOrEngine b req = false →
      ∀ level unit absorb, ∀ i ∈ [Instr.bringUp b req, .serviceReset b req level unit absorb, .serviceAbort b req],
        Answers i s fun t => AgreeOff [.out, .sy] s t)
    ∧ ((s.at b).svc.st = .resetting →
      ∀ level unit absorb, ∀ i ∈ [Instr.bringUp b req, .serviceReset b req level unit absorb],
        Answers i s fun t => AgreeOff [.out, .sy] s t)
    ∧ ((s.at b).svc.step = .waitSlot ∧ (s.at b).svc.st = .off ∧ (s.at b).rl.slot = .up ∧ (s.at b).hw.link = .off
        ∧ bitAt (s.at b).hw.cfg 0 = true → Answers (.mgmtStart b) s fun t =>
      (t.at b).svc.st = .mgmt ∧ (t.at b).svc.step = .waitLink ∧ (t.at b).svc.stageSince = s.now ∧ (t.at b).hw.link = .train)

/-- R339, R341, R348, R349, R351: the engine's waits: the slot's rise to UP, the poll of the status word, the reissue after BUSY,
and the bounds of stages and resets.
R354, R356 to R358: the poll of the report block, and the slot flit of berth n at every berth and at the harbour.
Readings of the model in it: notes entries 62 and 63. -/
def Obligations.ServiceWaitsAndReports : Prop :=
  (∀ (s : State) (b : BId),
      (∀ f, (s.at b).svc.step = .poll f → Answers (.statusPoll b) s fun t =>
          AgreeOff [.out, .freeCtr, .hw, .svc, .dk] s t ∧ (t.at b).svc.step = .status f
            ∧ (t.at b).svc.num = (s.at b).svc.num + 1
            ∧ ∃ o : Order, o.op = .read ∧ o.owner = .service ((s.at b).svc.num + 1) ∧ o.addr = 0x10 ∧ o.len = 4
              ∧ (o ∈ (t.at b).svc.want ∨ o ∈ (t.at b).hw.waiting ∨ ∃ k : Fin 64, vget (t.at b).hw.tags k.val = .used o))
      ∧ (∀ f g, (s.at b).svc.busy = true ∧ (s.at b).svc.step = .ctrl f
          ∧ tagFor (s.at b).hw (.service ((s.at b).svc.num + 1)) = some g → Answers (.busyReissue b) s fun t =>
          Keeps [b] s t ∧ (t.at b).svc = { (s.at b).svc with num := (s.at b).svc.num + 1, busy := false }
            ∧ ∃ o, vget (t.at b).hw.tags g = .used o ∧ o.op = .ctrl ∧ o.owner = .service ((s.at b).svc.num + 1)
              ∧ o.args = [pack [(fnCode f, 0, 16), (fnArg0 s b f, 16, 16)], wordOf (fnArg (s.at b).svc f), 0, 0, 0])
      ∧ (isStage (stageOf (s.at b).svc) = true → Answers (.stageTimeout b) s fun t => (t.at b).svc.st = .failed
          ∧ (t.at b).svc.fail = (if (s.at b).hw.link = .up then 3 else 1) ∧ (t.at b).svc.fails = sinc (s.at b).svc.fails
          ∧ ∀ k : Fin 4, (partOf t b k.val).ready = false)
      ∧ ((s.at b).svc.st = .resetting ∧ inQuiesce (s.at b).svc.step = true ∧ (s.at b).svc.rstAbsorb = false
          ∧ (s.at b).svc.escalated = false → Answers (.drainEscalate b) s fun t => Keeps [b] s t
            ∧ (t.at b).svc = { (s.at b).svc with step := .ctrl .quiesce, escalated := true, num := (s.at b).svc.num + 1, busy := false
                                                 drainEsc := sinc (s.at b).svc.drainEsc })
      ∧ ((s.at b).svc.step = .holding → Answers (.resetHoldEnd b) s fun t => Keeps [b] s t
          ∧ (t.at b).svc = { (s.at b).svc with step := .ctrl .resetRelease, num := (s.at b).svc.num + 1, busy := false })
      ∧ ((s.at b).svc.st = .resetting → Answers (.resetTimeout b) s fun t => (t.at b).svc.st = .failed ∧ (t.at b).svc.fail = 3
          ∧ (t.at b).svc.fails = sinc (s.at b).svc.fails ∧ ∀ k : Fin 4, (partOf t b k.val).ready = false))
  ∧ (∀ s : State,
      (∀ b, (s.at b).svc.reporting = true ∧ fld (s.at b).svc.dispCfg 7 0 ≤ (s.at b).svc.pollMarks →
        Answers (.reportPoll b) s fun t => AgreeOff [.out, .freeCtr, .hw, .svc, .dk] s t ∧ (t.at b).svc.pollMarks = 0
          ∧ ∃ o : Order, o.op = .read ∧ o.owner = .report ∧ o.addr = 0x1000 ∧ o.len = 64
            ∧ (o ∈ (t.at b).svc.want ∨ o ∈ (t.at b).hw.waiting ∨ ∃ k : Fin 64, vget (t.at b).hw.tags k.val = .used o))
      ∧ (∀ (n : BId) (f : SlotFlit),
        (Answers (.slotFlitReceive n f) s fun t => ∀ c, vget (t.at c).svc.peer n.val = some f.svc)
        ∧ (∀ h, s.harbour = some h ∧ (s.at n).sy.st = .active →
          (Answers (.slotFlitReceive n f) s fun t => vget (t.at h).tray.slots n.val = f)
          ∧ ((f.slot = .powering ∨ f.slot = .up ∨ f.slot = .shutting)
              ∧ (vget (s.at h).tray.pw.admis n.val = .none ∨ vget (s.at h).tray.pw.admis n.val = .waiting) →
            Answers (.slotFlitReceive n f) s fun t => vget (t.at h).tray.pw.admis n.val = .unadmitted
              ∧ (t.at n).pw.admis = .unadmitted ∧ vget (t.at h).tray.pw.grant n.val = grantMin (s.at h) n.val)
          ∧ ((f.slot = .down ∨ f.slot = .faultHold ∨ f.slot = .retired)
              ∧ (vget (s.at h).tray.pw.admis n.val = .admitted ∨ vget (s.at h).tray.pw.admis n.val = .unadmitted) →
            Answers (.slotFlitReceive n f) s fun t => vget (t.at h).tray.pw.admis n.val = .none
              ∧ vget (t.at h).tray.pw.grant n.val = 0)
          ∧ (vget (s.at h).tray.slots n.val = f ∧ ((f.slot = .powering ∨ f.slot = .up ∨ f.slot = .shutting)
              ↔ (vget (s.at h).tray.pw.admis n.val = .admitted ∨ vget (s.at h).tray.pw.admis n.val = .unadmitted)) →
            Answers (.slotFlitReceive n f) s fun t => AgreeOff [.svc] { s with out := [] } t
              ∧ (t.at h).svc.stateFix = (s.at h).svc.stateFix))))

/-! ### The pilot core -/

/-- R362, R364, R367: the core executes the instruction at its pc: register arithmetic, branches and jumps, environment calls,
misaligned and forbidden accesses, illegal instructions and fetch faults. Readings of the model in it: notes entries 31 and 33. -/
def Obligations.PilotExecution : Prop :=
  ∀ (s : State) (b : BId) (len : Nat), coreReady s b = true →
    (∀ op (rd rs1 rs2 : Fin 32), fetch (s.at b) b = .op (.alu op rd.val rs1.val rs2.val) len →
      Answers (.pilotInstruction b) s fun t => Keeps [b] s t ∧ AgreeOff [.out, .pl] s t
        ∧ (t.at b).pl.pc = (s.at b).pl.pc + wordOf len ∧ (t.at b).pl.machine = (s.at b).pl.machine
        ∧ (rd ≠ 0 → getX (t.at b).pl rd.val = rvAlu op (getX (s.at b).pl rs1.val) (getX (s.at b).pl rs2.val))
        ∧ ∀ j : Fin 32, j ≠ rd ∨ j = 0 → getX (t.at b).pl j.val = getX (s.at b).pl j.val)
    ∧ (∀ c (rs1 rs2 : Fin 32) off, fetch (s.at b) b = .op (.branch c rs1.val rs2.val off) len →
      Answers (.pilotInstruction b) s fun t => AgreeOff [.out, .pl] s t ∧ (t.at b).pl.regs = (s.at b).pl.regs
        ∧ (t.at b).pl.pc = (s.at b).pl.pc
          + (if rvCond c (getX (s.at b).pl rs1.val) (getX (s.at b).pl rs2.val) = true then off else wordOf len))
    ∧ (∀ (rd rs1 : Fin 32) imm, fetch (s.at b) b = .op (.jalr rd.val rs1.val imm) len →
      Answers (.pilotInstruction b) s fun t => AgreeOff [.out, .pl] s t
        ∧ (t.at b).pl.pc = (getX (s.at b).pl rs1.val + imm) &&& 0xFFFFFFFE
        ∧ (rd ≠ 0 → getX (t.at b).pl rd.val = (s.at b).pl.pc + wordOf len)
        ∧ ∀ j : Fin 32, j ≠ rd ∨ j = 0 → getX (t.at b).pl j.val = getX (s.at b).pl j.val)
    ∧ (∀ i cause tval, (fetch (s.at b) b = i)
        ∧ (i = .illegal ∧ cause = 2 ∧ tval = 0
          ∨ i = .fault tval ∧ cause = 1
          ∨ i = .op .ecall len ∧ cause = (if (s.at b).pl.machine = true then 11 else 8) ∧ tval = 0
          ∨ i = .op .ebreak len ∧ cause = 3 ∧ tval = 0
          ∨ i = .op .mret len ∧ (s.at b).pl.machine = false ∧ cause = 2 ∧ tval = 0
          ∨ (∃ size sg rd rs1 imm, i = .op (.load size sg rd rs1 imm) len ∧ tval = getX (s.at b).pl rs1 + imm
            ∧ (tval.toNat % size ≠ 0 ∧ cause = 4
              ∨ tval.toNat % size = 0 ∧ pmpOk (s.at b).pl.csr (dataPriv (s.at b).pl) tval.toNat size 0 = false ∧ cause = 5))
          ∨ (∃ size rs1 rs2 imm, i = .op (.store size rs1 rs2 imm) len ∧ tval = getX (s.at b).pl rs1 + imm
            ∧ (tval.toNat % size ≠ 0 ∧ cause = 6
              ∨ tval.toNat % size = 0 ∧ pmpOk (s.at b).pl.csr (dataPriv (s.at b).pl) tval.toNat size 1 = false ∧ cause = 7))) →
      Answers (.pilotInstruction b) s fun t => AgreeOff [.out, .pl] s t ∧ (t.at b).pl.regs = (s.at b).pl.regs
        ∧ (t.at b).pl.pc = wordOf ((s.at b).pl.csr.mtvec.toNat / 4 * 4) ∧ (t.at b).pl.machine = true ∧ (t.at b).pl.resv = none
        ∧ (t.at b).pl.csr = { (s.at b).pl.csr with
            mepc := (s.at b).pl.pc, mcause := wordOf cause, mtval := tval
            mpie := (s.at b).pl.csr.mie, mie := false, mppM := (s.at b).pl.machine })
    ∧ (fetch (s.at b) b = .op .mret len ∧ (s.at b).pl.machine = true → Answers (.pilotInstruction b) s fun t =>
        AgreeOff [.out, .pl] s t ∧ (t.at b).pl.pc = (s.at b).pl.csr.mepc ∧ (t.at b).pl.machine = (s.at b).pl.csr.mppM
          ∧ (t.at b).pl.csr.mie = (s.at b).pl.csr.mpie ∧ (t.at b).pl.regs = (s.at b).pl.regs)

/-- R22, R23: the reply to an access of the pilot over the ring: a load gets its value and the core goes on, a store takes effect at its
target, an access that its target refuses ends in an access fault; after it no earlier access that timed out takes effect there. An access
that timed out may take effect later, and changes nothing at its requester. -/
abbrev RemoteReplies (s : State) (b n : BId) : Prop :=
  (∀ r, (s.at b).sy.remotes.find? (fun r => lateTarget s b r == some n) = some r ∧ r.req = (pilotWho b).req →
    (∀ c, r.write = false ∧ access s (pilotWho b) false r.addr r.size = .error c →
        Answers (.remoteReplyReceive b n none) s fun t => (t.at b).pl.csr.mcause = 5 ∧ (t.at b).pl.csr.mepc = r.pc
          ∧ (t.at b).sy.remotes = (s.at b).sy.remotes.erase r)
    ∧ (∀ m o (rd : Fin 32) bytes, r.write = false ∧ r.rd = rd.val
          ∧ (access s (pilotWho b) false r.addr r.size = .ok (m, .tcm o) ∧ bytes = memRead ramD (s.at m).tcm o r.size
            ∨ access s (pilotWho b) false r.addr r.size = .ok (m, .deck o) ∧ bytes = memRead ramD (s.at m).deck o r.size) →
        Answers (.remoteReplyReceive b n none) s fun t => AgreeOff [.out, .sy, .rp, .pl] s t
          ∧ (t.at b).sy.remotes = (s.at b).sy.remotes.erase r ∧ (t.at b).pl.pc = (s.at b).pl.pc + wordOf r.len
          ∧ (t.at b).sy.timedOut = ((s.at b).sy.timedOut.filter fun q => !(q.req == r.req && lateTarget s b q == some n))
          ∧ (rd ≠ 0 → getX (t.at b).pl rd.val = loadValue r.size r.signed (wordOf (leNat bytes)))
          ∧ ∀ j : Fin 32, j ≠ rd ∨ j = 0 → getX (t.at b).pl j.val = getX (s.at b).pl j.val)
    ∧ (∀ m reach, r.write = false ∧ access s (pilotWho b) false r.addr r.size = .ok (m, reach) ∧ m ≠ b →
        Answers (.remoteReplyReceive b n none) s fun t => (t.at b).sy.remotes = (s.at b).sy.remotes.erase r
          ∧ (t.at b).pl.pc = (s.at b).pl.pc + wordOf r.len)
    ∧ (∀ m o, r.write = true ∧ access s (pilotWho b) true r.addr r.size = .ok (m, .tcm o) ∧ (s.at m).memCanonical = true →
        Answers (.remoteReplyReceive b n none) s fun t => AgreeOff [.out, .sy, .rp, .tcm, .pl] s t
          ∧ (t.at b).sy.remotes = (s.at b).sy.remotes.erase r ∧ (t.at b).pl.pc = (s.at b).pl.pc
          ∧ memRead ramD (t.at m).tcm o r.size = leBytes r.size r.data.toNat
          ∧ ∀ a, a < o ∨ o + r.size ≤ a → memGet ramD (t.at m).tcm a = memGet ramD (s.at m).tcm a))
  ∧ ((s.at b).sy.remotes.find? (fun r => lateTarget s b r == some n) = none →
      Answers (.remoteReplyReceive b n none) s fun t => AgreeOff [.out] s t)
  ∧ (∀ q w r m o, (s.at b).sy.timedOut.find? (fun r => r.req == q && lateTarget s b r == some n) = some r ∧ whoOf r.req b = some w
        ∧ r.write = true ∧ access s w true r.addr r.size = .ok (m, .tcm o) ∧ (s.at m).memCanonical = true →
      Answers (.remoteReplyReceive b n (some q)) s fun t => AgreeOff [.out, .sy, .rp, .tcm, .pl] s t
        ∧ (t.at b).sy.timedOut = (s.at b).sy.timedOut.erase r ∧ (t.at b).pl.pc = (s.at b).pl.pc
        ∧ (t.at b).pl.regs = (s.at b).pl.regs ∧ memRead ramD (t.at m).tcm o r.size = leBytes r.size r.data.toNat)

/-- R22, R23, R362, R363, R366: CSR instructions, FENCE, WFI, interrupts, and the accesses over the ring that time out or are answered.
Readings of the model in it: notes entries 29, 30 and 32. -/
def Obligations.PilotWaits : Prop :=
  ∀ (s : State) (b : BId) (len : Nat),
    (coreReady s b = true →
      (∀ (rd rs1 : Fin 32) n old, fetch (s.at b) b = .op (.csr .write false rd.val rs1.val n) len
          ∧ csrGet b (s.at b).pl n = some old →
        ((s.at b).pl.machine = true ∧ n / 1024 ≠ 3 → Answers (.csrAccess b) s fun t => AgreeOff [.out, .pl] s t
          ∧ (rd ≠ 0 → getX (t.at b).pl rd.val = old) ∧ (t.at b).pl.pc = (s.at b).pl.pc + wordOf len
          ∧ (t.at b).pl.csr = csrPut n (getX (s.at b).pl rs1.val) (countRetired (s.at b).pl).csr)
        ∧ (n / 1024 = 3 → Answers (.csrAccess b) s fun t => AgreeOff [.out, .pl] s t
          ∧ (t.at b).pl.regs = (s.at b).pl.regs ∧ (t.at b).pl.csr.mcause = 2 ∧ (t.at b).pl.csr.mepc = (s.at b).pl.pc))
      ∧ (fetch (s.at b) b = .op .fence len → Answers (.fence b) s fun t => AgreeOff [.out, .pl] s t
        ∧ (t.at b).pl.regs = (s.at b).pl.regs
        ∧ (t.at b).pl.pc = if unacked s b = false then (s.at b).pl.pc + wordOf len else (s.at b).pl.pc)
      ∧ (fetch (s.at b) b = .op .wfi len → Answers (.wfi b) s fun t => AgreeOff [.out, .pl] s t
        ∧ (t.at b).pl.waiting = (pendingIrq (s.at b).pl).isNone ∧ (t.at b).pl.pc = (s.at b).pl.pc + wordOf len)
      ∧ (∀ k, pendingIrq (s.at b).pl = some k ∧ ((s.at b).pl.machine = false ∨ (s.at b).pl.csr.mie = true) →
        Answers (.interruptTaken b) s fun t => AgreeOff [.out, .pl] s t
          ∧ (t.at b).pl.csr.mcause = wordOf (k + 2 ^ 31) ∧ (t.at b).pl.csr.mepc = (s.at b).pl.pc ∧ (t.at b).pl.csr.mie = false
          ∧ (t.at b).pl.csr.mpie = (s.at b).pl.csr.mie ∧ (t.at b).pl.machine = true ∧ (t.at b).pl.waiting = false
          ∧ (t.at b).pl.pc = wordOf ((s.at b).pl.csr.mtvec.toNat / 4 * 4)
              + if bitAt (s.at b).pl.csr.mtvec 0 = true then wordOf (4 * k) else 0))
    ∧ ((s.at b).pl.st = .running ∧ s.dev.sleep = false → Answers (.wfiTimeout b) s fun t => AgreeOff [.out, .pl] s t
        ∧ (t.at b).pl = { (s.at b).pl with waiting := false })
    ∧ ((s.at b).pl.st = .running ∧ s.dev.sleep = false ∧ (s.at b).pl.csr.mtie = true →
        Answers (.mtimecmpMatch b) s fun t => AgreeOff [.out, .pl] s t ∧ (t.at b).pl = { (s.at b).pl with
          waiting := (s.at b).pl.waiting && decide ((s.at b).pl.mtime < (s.at b).pl.mtimecmp) })
    ∧ (∀ n write addr data, s.isHbr b = true ∧ isRemote s (hostWho 11) addr.toNat = true →
        Answers (.ringTimeout b n (.engine write addr data)) s fun t => AgreeOff [.out, .sy] s t
          ∧ (t.at b).sy.timedOut = (s.at b).sy.timedOut
            ++ [{ req := 11, addr := addr.toNat, size := 4, write := write, data := data }])
    ∧ (∀ n r, (s.at b).sy.remotes.find? (fun r => lateTarget s b r == some n) = some r ∧ r.req = (pilotWho b).req →
      (Answers (.ringTimeout b n .pilot) s fun t => (t.at b).sy.remotes = (s.at b).sy.remotes.erase r
        ∧ (t.at b).sy.timedOut = (s.at b).sy.timedOut ++ [r] ∧ (t.at b).pl.machine = true ∧ (t.at b).pl.csr.mepc = r.pc
        ∧ (t.at b).pl.csr.mcause = (if r.write = true then 7 else 5) ∧ (t.at b).pl.csr.mtval = wordOf r.addr))
    ∧ ∀ n, RemoteReplies s b n

/-- R365, R366, R368 to R370: the start of a pilot, its software interrupt, watchdog and restarts.
Readings of the model in it: notes entry 66. -/
def Obligations.PilotRestarts : Prop :=
  ∀ (s : State) (b : BId),
    ((s.at b).pl.startDue = true ∧ s.dev.sleep = false → Answers (.pilotStart b) s fun t => Keeps [b] s t
      ∧ (t.at b).pl.st = .running ∧ (t.at b).pl.startDue = false ∧ (t.at b).pl.machine = true ∧ (t.at b).pl.csr = {}
      ∧ (t.at b).pl.pc = wordOf (0x20000000 + (s.at b).pl.entry) ∧ (t.at b).pl.kickAt = s.now
      ∧ getX (t.at b).pl 10 = wordOf b.val ∧ getX (t.at b).pl 11 = wordOf (b2n (s.at b).sy.isHarbour)
      ∧ getX (t.at b).pl 12 = wordOf (s.at b).pl.bodyLen
      ∧ ∀ c, c ∈ (t.at b).tcm ↔ c ∈ (s.at b).tcm ∧ c.1 < (s.at b).pl.bodyLen)
    ∧ (∀ (req : ReqId) on, WritePasses s req (some b) 0xB030 → Answers (.msipWrite b req on) s fun t =>
        AgreeOff [.out, .sy, .pl] s t
          ∧ (t.at b).pl = if req.val < 8 ∨ req = 11 then { (s.at b).pl with msip := on } else (s.at b).pl)
    ∧ (∀ (req : ReqId) (key : BitVec 16), WritePasses s req (some b) 0xB00C → Answers (.watchdogKick b req key) s fun t =>
        AgreeOff [.out, .sy, .pl] s t
          ∧ (t.at b).pl = if req.val = b.val ∧ key = 0x4B1C then { (s.at b).pl with kickAt := s.now } else (s.at b).pl)
    ∧ (∀ i cause, (s.at b).pl.st = .running
        ∧ (i = .pilotWatchdogExpiry b ∧ s.dev.sleep = false ∧ cause = 1
          ∨ (∃ req : ReqId, i = .restart b req 0x7E57 ∧ (req = 9 ∨ req = 10 ∨ req = 11) ∧ WritePasses s req (some b) 0xB004
              ∧ cause = 2)) → Answers i s fun t =>
        (t.at b).pl.csr = {} ∧ (t.at b).pl.irqEn = 0 ∧ (t.at b).pl.msip = false ∧ (t.at b).pl.mtimecmp = 2 ^ 64 - 1
          ∧ (t.at b).pl.crash = (s.at b).pl.csr.mcause ∧ (t.at b).pl.crashPc = (s.at b).pl.csr.mepc
          ∧ (t.at b).pl.restarts = sinc (s.at b).pl.restarts ∧ (t.at b).sy.remotes = []
          ∧ (∀ n, ∀ e ∈ (t.at n).dk.held, e.2 ≠ ⟨b, 5⟩)
          ∧ ((histEvent (s.at b).pl.hist (s.hTide b) 4 600).1 = false → (t.at b).pl.st = .loading
              ∧ (t.at b).pl.lastCause = cause ∧ (t.at b).pl.stream = true)
          ∧ ((histEvent (s.at b).pl.hist (s.hTide b) 4 600).1 = true → (t.at b).pl.st = .halted ∧ (t.at b).pl.lastCause = 4
              ∧ (t.at b).pl.stream = false))
    ∧ ((s.at b).pl.stream = true ∧ s.dev.sleep = false →
      ((s.at b).pl.failedStreams + 1 < 3 → Answers (.restartStreamDone b true) s fun t => Keeps [b] s t
        ∧ (t.at b).pl = { (s.at b).pl with
            stream := false, retry := true, failedStreams := (s.at b).pl.failedStreams + 1 })
      ∧ (3 ≤ (s.at b).pl.failedStreams + 1 → Answers (.restartStreamDone b true) s fun t => (t.at b).pl.st = .halted
        ∧ (t.at b).pl.lastCause = 4 ∧ (t.at b).pl.stream = false ∧ (t.at b).pl.retry = false)
      ∧ (∀ h r, s.harbour = some h ∧ r = vget (s.at h).tray.img.roles 0 ∧ r.store = true
          ∧ digestBytes (sha384 (imageBytes s h 0 r.slotB)) = r.digest ∧ vget (s.at b).ch.fuse 1 ≤ r.rollback →
        Answers (.restartStreamDone b false) s fun t => (t.at b).pl.startDue = true ∧ (t.at b).pl.stream = false
          ∧ (t.at b).pl.entry = r.entry ∧ (t.at b).pl.bodyLen = r.bodyLen))

/-- R371: RESTART orders to PL_CMD. From another requester, with another guard, or to a pilot that does not run, the order is refused
and changes LAST_RESULT alone; a running pilot stops at once, to be loaded again or, with too many restarts, halted. -/
def Obligations.RestartOrders : Prop :=
  ∀ (s : State) (b : BId) (req : ReqId) (guard : BitVec 16), WritePasses s req (some b) 0xB004 →
    (∀ res, res = 3 ∧ req ≠ 9 ∧ req ≠ 10 ∧ req ≠ 11 ∨ res = 2 ∧ (req = 9 ∨ req = 10 ∨ req = 11) ∧ guard ≠ 0x7E57
        ∨ res = 1 ∧ (req = 9 ∨ req = 10 ∨ req = 11) ∧ guard = 0x7E57 ∧ (s.at b).pl.st ≠ .running →
      Answers (.restart b req guard) s fun t => AgreeOff [.out, .sy, .pl] s t
        ∧ (t.at b).pl = { (s.at b).pl with lastResult := res }
        ∧ (liveReg t b false req 0xB 0x000).map (fun w => fld w 3 2) = some res
        ∧ ∀ n, n ≠ b → (t.at n).pl = (s.at n).pl)
    ∧ ((req = 9 ∨ req = 10 ∨ req = 11) ∧ guard = 0x7E57 ∧ (s.at b).pl.st = .running →
      Answers (.restart b req guard) s fun t => (t.at b).pl.lastResult = 0 ∧ (t.at b).pl.csr = {}
        ∧ ((t.at b).pl.st = .loading ∧ (t.at b).pl.stream = true ∨ (t.at b).pl.st = .halted ∧ (t.at b).pl.stream = false))

/-! ### Images and the deck -/

/-- R374 to R378: the checks of a region named by a LOAD order, LOAD itself, and the copy of PILOT_FW on a berth.
Readings of the model in it: notes entry 66. -/
def Obligations.ImageLoads : Prop :=
  ∀ (s : State) (h : BId), s.isHbr h = true →
    (∀ (role : Fin 4) slotB ua ub rdErr code, (s.at h).tray.img.job = .region role.val slotB [] true
        ∧ (s.at h).tray.img.todo = [] ∧ (s.at h).tray.img.order = none ∧ s.dev.sleep = false
        ∧ code = imageCheck s h role.val slotB (rdErr || if slotB then ub else ua) →
      Answers (.imageCheckDone h ua ub rdErr) s fun t =>
        (code ≠ 0 → AgreeOff [.out, .freeCtr, .rp, .log, .dk, .us, .tray] s t ∧ (t.at h).tray.img = { (s.at h).tray.img with
            errCode := code, errRole := role.val, errSlot := slotB, errBerth := 0, busy := false, result := 8, job := .idle })
        ∧ (code = 0 ∧ role = 3 → (t.at h).tray.img.busy = false
          ∧ (t.at h).tray.img.result = 0 ∧ vget (t.at h).tray.img.roles 3 = roleRec s h 3 slotB .loaded))
    ∧ (∀ (req : ReqId) (role : Fin 4) slotB (guard : BitVec 16), WritePasses s req (some h) 0xB100
        ∧ (s.at h).tray.img.busy = false →
      (∀ res, res = 4 ∧ req ≠ 9 ∧ req ≠ 10 ∨ res = 2 ∧ (req = 9 ∨ req = 10) ∧ guard ≠ 0x71A6
          ∨ res = 1 ∧ (req = 9 ∨ req = 10) ∧ guard = 0x71A6
            ∧ ((s.at h).ch.locked = false ∨ (s.at h).hasRec 13 role.val = false) →
        Answers (.load h req role slotB guard) s fun t => AgreeOff [.out, .sy, .tray] s t
          ∧ (t.at h).tray.img = { (s.at h).tray.img with lastCmd := 1, result := res, cmdReq := req.val })
      ∧ ((req = 9 ∨ req = 10) ∧ guard = 0x71A6 ∧ (s.at h).ch.locked = true ∧ (s.at h).hasRec 13 role.val = true
          ∧ (s.at h).tray.img.job = .idle ∧ (s.at h).tray.img.todo = [] →
        Answers (.load h req role slotB guard) s fun t => AgreeOff [.out, .sy, .tray] s t
          ∧ (t.at h).tray.img = { (s.at h).tray.img with
              lastCmd := 1, result := 0, cmdReq := req.val, busy := true, job := .region role.val slotB [] true, order := none }))
    ∧ (∀ b bytes r, (s.at b).ch.locked = true ∧ (s.at b).sy.st = .active ∧ (s.at b).pl.st = .loading ∧ (s.at b).pl.stream = false
        ∧ r = vget (s.at h).tray.img.roles 0 →
      (digestBytes (sha384 bytes) = r.digest ∧ vget (s.at b).ch.fuse 1 ≤ r.rollback →
        Answers (.imageCopyReceive b bytes) s fun t => Keeps [b] s t ∧ (t.at b).pl.startDue = true ∧ (t.at b).pl.entry = r.entry
          ∧ (t.at b).pl.bodyLen = r.bodyLen ∧ (t.at b).pl.st = .loading)
      ∧ (digestBytes (sha384 bytes) ≠ r.digest ∨ r.rollback < vget (s.at b).ch.fuse 1 →
        Answers (.imageCopyReceive b bytes) s fun t => (t.at b).pl.st = .off ∧ (t.at b).sy.fail = 3
          ∧ (t.at h).tray.img.errCode = 8 ∧ (t.at h).tray.img.errBerth = b.val))

/-- R380 to R385: allocation reads and the release of a buffer. Which free buffer an allocation takes is a free value (the model's
choice, notes entry 8). -/
def Obligations.DeckBuffers : Prop :=
  ∀ (s : State) (b : BId) (req : ReqId),
    (∀ i any, i = Instr.dkAllocAny b req ∧ any = true ∧ ReadPasses s req b (regAddr (some b) 0x3000)
        ∨ i = .dkAllocLocal b req ∧ any = false ∧ ReadPasses s req b (regAddr (some b) 0x3004) →
      (∀ c n lend, allocClass s b req = some c ∧ chooseShare s ⟨b, c⟩ any = some (n, lend) ∧ freeBufs s n ≠ [] →
        Answers i s fun t => AgreeOff [.out, .freeCtr, .sy, .dk] s t ∧ ∃ k ∈ freeBufs s n,
          t.out = [.value (allocWord (512 * n.val + k))] ∧ holderOf t (512 * n.val + k) = some ⟨b, c⟩
            ∧ k ∉ freeBufs t n)
      ∧ (∀ c, allocClass s b req = some c ∧ chooseShare s ⟨b, c⟩ any = none → Answers i s fun t =>
        AgreeOff [.out, .sy, .dk] s t ∧ t.out = [.value 0]
          ∧ (t.at b).dk = { (s.at b).dk with deny := vmod (s.at b).dk.deny c sinc })
      ∧ (allocClass s b req = none → Answers i s fun t => AgreeOff [.out, .sy] s t ∧ t.out = [.value 0]))
    ∧ (∀ g : Fin 4096, WritePasses s req (some b) 0x3008 →
      (g.val / 512 = b.val ∧ mayRelease s req g.val = true → Answers (.dkFree b req g) s fun t =>
        AgreeOff [.out, .sy, .dk] s t ∧ holderOf t g.val = none ∧ (t.at b).dk.badFree = (s.at b).dk.badFree
          ∧ ∀ k : Fin 4096, k ≠ g → holderOf t k.val = holderOf s k.val)
      ∧ (g.val / 512 ≠ b.val ∨ mayRelease s req g.val = false → Answers (.dkFree b req g) s fun t =>
        AgreeOff [.out, .sy, .dk] s t ∧ (t.at b).dk = { (s.at b).dk with badFree := sinc (s.at b).dk.badFree }))

/-- R389 to R396: the queue of a DMA engine, its bursts, the wait for a buffer, and the orders to DM_CMD.
Readings of the model in it: notes entries 9, 36 and 37. -/
def Obligations.DmaEngines : Prop :=
  ∀ (s : State) (b : BId) (e : Fin 2) (req : ReqId) (d : Dma), d = dmaOf s b e.val →
    (∀ tail : Fin 32, WritePasses s req (some b) (0xC00C + 0x40 * e.val) →
      (ownOrHce b req = false ∨ (tail.val + 32 - d.head) % 32 < (d.tail + 32 - d.head) % 32 →
        Answers (.dmTailWrite b e req tail) s fun t => AgreeOff [.out, .sy] s t)
      ∧ (ownOrHce b req = true ∧ (d.tail + 32 - d.head) % 32 ≤ (tail.val + 32 - d.head) % 32 →
        ((d.st ≠ .idle ∨ d.head = tail.val) → Answers (.dmTailWrite b e req tail) s fun t => AgreeOff [.out, .sy, .dm] s t
          ∧ dmaOf t b e.val = { d with tail := tail.val })
        ∧ (d.st = .idle ∧ d.head ≠ tail.val ∧ slotSt d d.head = 1 ∧ descCheck b d d.head = none ∧ isHws d d.head = false →
          Answers (.dmTailWrite b e req tail) s fun t => AgreeOff [.out, .sy, .dm] s t ∧ (dmaOf t b e.val).st = .running
            ∧ (dmaOf t b e.val).cur = d.head ∧ slotSt (dmaOf t b e.val) d.head = 2 ∧ (dmaOf t b e.val).tail = tail.val)))
    ∧ (bursting d = true ∧ s.dev.sleep = false →
      (∀ bs u v, burstWords b e.val (burstFlits b e.val s.begin) = (.ok bs, u)
          ∧ burstWrite b ((descW d d.cur 2).toNat + dResume d d.cur) (bytesWords bs (bs.length / 4)) u = (none, v)
          ∧ dmaOf v b e.val = d →
        (dResume d d.cur + burstLen d d.cur < dLen d d.cur ∧ d.pre = none ∧ d.haltDue = false →
          Answers (.dmaBurstDone b e) s fun t => dResume (dmaOf t b e.val) d.cur = dResume d d.cur + burstLen d d.cur
            ∧ (dmaOf t b e.val).bytes = d.bytes + burstLen d d.cur ∧ (dmaOf t b e.val).st = .running)
        ∧ (dLen d d.cur ≤ dResume d d.cur + burstLen d d.cur →
          Answers (.dmaBurstDone b e) s fun t => (dmaOf t b e.val).done = sinc d.done))
      ∧ (∀ c u, burstWords b e.val (burstFlits b e.val s.begin) = (.error c, u) ∧ dmaOf u b e.val = d ∧ d.out = [] →
        Answers (.dmaBurstDone b e) s fun t => ((dmaOf t b e.val).st = .halted ∨ (dmaOf t b e.val).st = .retired)
          ∧ (dmaOf t b e.val).faults = sinc d.faults ∧ slotSt (dmaOf t b e.val) d.cur = 5))
    ∧ (handWaits s b e.val = true →
      (d.out = [] → Answers (.dmaHandTimeout b e) s fun t =>
        ((dmaOf t b e.val).st = .halted ∨ (dmaOf t b e.val).st = .retired) ∧ (dmaOf t b e.val).faults = sinc d.faults
          ∧ fld (descW (dmaOf t b e.val) d.cur 7) 11 8 = 9)
      ∧ (d.out ≠ [] → Answers (.dmaHandTimeout b e) s fun t => Keeps [b] s t
        ∧ dmaOf t b e.val = { d with flt := some (9, 0, 0) }))
    ∧ (WritePasses s req (some b) (0xC004 + 0x40 * e.val) ∧ ownOrHce b req = true →
      (∀ i cmd, i = Instr.dmaResume b e req ∧ cmd = 1 ∧ d.st ≠ .halted ∨ i = .skip b e req ∧ cmd = 2 ∧ d.st ≠ .halted
          ∨ i = .flush b e req ∧ cmd = 3 ∧ d.st ≠ .halted ∧ d.st ≠ .idle →
        Answers i s fun t => AgreeOff [.out, .sy, .dm] s t
          ∧ dmaOf t b e.val = { d with lastCmd := cmd, cmdResult := 1, cmdReq := req.val })
      ∧ (d.st = .halted ∧ d.pre = none ∧ descCheck b d d.cur = none ∧ isHws d d.cur = false →
        Answers (.dmaResume b e req) s fun t => AgreeOff [.out, .sy, .dm] s t ∧ (dmaOf t b e.val).st = .running
          ∧ slotSt (dmaOf t b e.val) d.cur = 2 ∧ (dmaOf t b e.val).cmdResult = 0 ∧ (dmaOf t b e.val).lastCmd = 1)
      ∧ (d.st = .halted ∧ d.pre = none ∧ d.susp = none ∧ d.head = d.tail → Answers (.skip b e req) s fun t =>
        AgreeOff [.out, .sy, .dm] s t
          ∧ dmaOf t b e.val = { d with st := .idle, preRun := false, lastCmd := 2, cmdResult := 0, cmdReq := req.val })
      ∧ (d.st = .halted ∨ d.st = .idle → Answers (.flush b e req) s fun t => AgreeOff [.out, .sy, .dm] s t
        ∧ (dmaOf t b e.val).st = .idle ∧ (dmaOf t b e.val).head = d.tail ∧ (dmaOf t b e.val).tail = d.tail
        ∧ (dmaOf t b e.val).cmdResult = 0 ∧ ∀ i : Fin 32, dResume (dmaOf t b e.val) i.val = dResume d i.val
          ∧ slotSt (dmaOf t b e.val) i.val = if slotSt d i.val = 1 ∨ slotSt d i.val = 3 then 0 else slotSt d i.val)
      ∧ (∀ slot : Fin 32, (preemptRefuse d slot.val = 0 ∧ d.st = .running ∧ isHws d d.cur = false →
          Answers (.preempt b e req slot) s fun t => AgreeOff [.out, .sy, .dm] s t ∧ dmaOf t b e.val = { d with
            pre := some slot.val, lastCmd := 4, cmdResult := 0, cmdReq := req.val })
        ∧ (preemptRefuse d slot.val ≠ 0 → Answers (.preempt b e req slot) s fun t => AgreeOff [.out, .sy, .dm] s t
          ∧ dmaOf t b e.val = { d with lastCmd := 4, cmdResult := preemptRefuse d slot.val, cmdReq := req.val })))

/-! ### The two-wire port -/

/-- R402, R405 to R409, R424: the transactions of the port: reads of fixed data, ATTN_CLR with its PEC rules, window reads and writes,
shape errors, and what the port does not support; a port that is not on the bus answers nothing.
Readings of the model in it: notes entry 55. -/
def Obligations.TwoWirePort : Prop :=
  ∀ (s : State) (b : BId),
    (twOnBus s b = true →
      (∀ d, d = wordsBytes [(liveReg s b false 10 0 0).getD 0, (liveReg s b false 10 0 4).getD 0, (liveReg s b false 10 2 0).getD 0] →
        Answers (.ident b .blockRead) s fun t => Keeps [b] s t ∧ AgreeOff [.out, .tw] s t
          ∧ t.out = [.reply (12 :: d ++ [pecOf (twHead s b 1 .blockRead ++ 12 :: d)])]
          ∧ (twOf t b).lastCmd = 1 ∧ (twOf t b).lastResult = 0 ∧ (twOf t b).cnt.xfer = sinc (twOf s b).cnt.xfer)
      ∧ (∀ i cmd d, (i, cmd, d) ∈ [(Instr.last b .readWord, 0x1F, leBytes 2 (twLastWord (twOf s b)).toNat),
          (.attn b .readWord, 0x20, leBytes 2 (attnPending (twOf s b)))] →
        Answers i s fun t => Keeps [b] s t ∧ AgreeOff [.out, .tw] s t
          ∧ t.out = [.reply (d ++ [pecOf (twHead s b cmd .readWord ++ d)])] ∧ (twOf t b).attn = (twOf s b).attn
          ∧ (twOf t b).lastCmd = cmd ∧ (twOf t b).lastResult = 0)
      ∧ (∀ (m : BitVec 16) pec, (pec = some true ∨ pec = none ∧ bitAt (twOf s b).cfg 3 = false) →
        Answers (.attnClr b (.writeWord m pec)) s fun t => Keeps [b] s t ∧ AgreeOff [.out, .tw] s t ∧ (twOf t b).lastResult = 0
          ∧ ∀ i : Fin 11, nbit (twOf t b).attn i.val = (nbit (twOf s b).attn i.val && !m.getLsbD i.val))
      ∧ (∀ (m : BitVec 16), (Answers (.attnClr b (.writeWord m (some false))) s fun t => t.out = [.nack]
          ∧ (twOf t b).attn = (twOf s b).attn ∧ (twOf t b).lastResult = 0x11
          ∧ (twOf t b).cnt.pecErr = sinc (twOf s b).cnt.pecErr)
        ∧ (bitAt (twOf s b).cfg 3 = true → Answers (.attnClr b (.writeWord m none)) s fun t =>
          (twOf t b).attn = (twOf s b).attn ∧ (twOf t b).lastResult = 0x12))
      ∧ (∀ i cmd late bs n r, ((∃ x : List Byte, x = bs ∧ x.length = 4 ∧ n = 1 ∧ i = Instr.rd32 b late (.call x) ∧ cmd = 0x10)
          ∨ (bs.length = 5 ∧ n = natAt bs 4 1 ∧ 1 ≤ n ∧ n ≤ 32 ∧ i = .rdn b late (.call bs) ∧ cmd = 0x12))
          ∧ r = hostReads 10 late n (natAt bs 0 4) 0 s.begin → Answers i s fun t =>
        .reply ((BitVec.ofNat 8 (1 + 4 * n) :: BitVec.ofNat 8 r.1.cause :: wordsBytes r.1.words)
            ++ [pecOf (twHead r.2 b cmd (.call bs) ++ (BitVec.ofNat 8 (1 + 4 * n) :: BitVec.ofNat 8 r.1.cause :: wordsBytes r.1.words))])
            ∈ t.out
          ∧ (twOf t b).lastCmd = cmd ∧ (twOf t b).lastResult = r.1.cause ∧ (twOf t b).lastIndex = r.1.index)
      ∧ (∀ i cmd late (bs : List Byte) r, (bs.length = 8 ∧ i = Instr.wr32 b late (.blockWrite bs (some true)) ∧ cmd = 0x11
          ∨ bs.length % 4 = 0 ∧ 8 ≤ bs.length ∧ bs.length ≤ 128 ∧ i = .wrn b late (.blockWrite bs (some true)) ∧ cmd = 0x13)
          ∧ r = hostWrites 10 late (bytesWords (bs.drop 4) (bs.length / 4 - 1)) (natAt bs 0 4) 0 s.begin → Answers i s fun t =>
        (twOf t b).lastCmd = cmd ∧ (twOf t b).lastResult = r.1.cause ∧ (twOf t b).lastIndex = r.1.index
          ∧ (∀ n, n ≠ b → t.at n = r.2.at n) ∧ (t.at b).sy = (r.2.at b).sy ∧ (t.at b).td = (r.2.at b).td)
      ∧ (∀ i late (bs : List Byte) pec code,
          (i ∈ [Instr.rd32 b late (.call bs)] ∧ bs.length ≠ 4 ∧ code = 0x10
          ∨ i = .rdn b late (.call bs) ∧ bs.length ≠ 5 ∧ code = 0x10
          ∨ i = .rdn b late (.call bs) ∧ bs.length = 5 ∧ (natAt bs 4 1 = 0 ∨ 32 < natAt bs 4 1) ∧ code = 0x13
          ∨ i = .wr32 b late (.blockWrite bs pec) ∧ bs.length ≠ 8 ∧ code = 0x10
          ∨ i = .wrn b late (.blockWrite bs pec) ∧ (bs.length % 4 ≠ 0 ∨ bs.length < 8 ∨ 128 < bs.length) ∧ code = 0x10) →
        Answers i s fun t => Keeps [b] s t ∧ AgreeOff [.out, .tw] s t ∧ (twOf t b).lastResult = code
          ∧ (twOf t b).cnt.lenErr = sinc (twOf s b).cnt.lenErr ∧ (twOf t b).cnt.xfer = (twOf s b).cnt.xfer)
      ∧ (Answers (.receiveByte b) s fun t => Keeps [b] s t ∧ AgreeOff [.out, .tw] s t
          ∧ t.out = [.reply [BitVec.ofNat 8 (twOf s b).lastResult, pecOf [twByte s b 1, BitVec.ofNat 8 (twOf s b).lastResult]]])
      ∧ (Answers (.quickCommand b) s fun t => AgreeOff [.out] s t ∧ t.out = [.ack])
      ∧ (∀ (code : BitVec 8) kind, kind = true ∨ code.toNat ∉ twCodes → Answers (.unsupportedCommand b code kind) s fun t =>
          Keeps [b] s t ∧ t.out = [.nack] ∧ twOf t b = { twOf s b with
            cnt := { (twOf s b).cnt with nack := sinc (twOf s b).cnt.nack } })
      ∧ (∀ (code : BitVec 8) mid, Answers (.transactionCut b code mid) s fun t => Keeps [b] s t ∧ AgreeOff [.out, .tw] s t
          ∧ (twOf t b).lastCmd = code.toNat ∧ (twOf t b).lastResult = 0x14 ∧ (twOf t b).busMid = mid
          ∧ (twOf t b).cnt = (twOf s b).cnt))
    ∧ (twOnBus s b = false → ∀ x late code kind, ∀ i ∈ [Instr.ident b x, .last b x, .attn b x, .attnClr b x, .rd32 b late x,
        .rdn b late x, .wr32 b late x, .wrn b late x, .receiveByte b, .quickCommand b, .unsupportedCommand b code kind,
        .transactionCut b code kind], Answers i s fun t => AgreeOff [.out] s t ∧ t.out = [])

/-- R412 to R418, R422: attention and its signals, the beacon and the notify, the wake from SLEEP by address, and a bus that hangs.
Readings of the model in it: notes entry 35. -/
def Obligations.TwoWireSignals : Prop :=
  ∀ (s : State) (b : BId),
    (∀ (req : ReqId) h fw, WritePasses s req none 0xD010 ∧ s.harbour = some h →
      (fw = true ∧ (req.val = h.val ∨ req = 11) → Answers (.twAttnSet req fw) s fun t =>
        AgreeOff [.out, .freeCtr, .sy, .tw, .us, .dk] s t ∧ (twOf t h).attn = (twOf s h).attn ||| 2 ^ 9)
      ∧ (fw = false ∨ req.val ≠ h.val ∧ req ≠ 11 → Answers (.twAttnSet req fw) s fun t => AgreeOff [.out, .sy] s t))
    ∧ (signalReady s b false = true → Answers (.beacon b) s fun t => Keeps [b] s t
        ∧ twOf t b = { twOf s b with phase := .beacon, sdaLow := true })
    ∧ ((twOf s b).phase = .beacon →
      (Answers (.beaconEnd b) s fun t => Keeps [b] s t ∧ twOf t b = { twOf s b with
        phase := .idle, sdaLow := false, sigDue := false
        cnt := { (twOf s b).cnt with beacon := sinc (twOf s b).cnt.beacon } })
      ∧ (Answers (.beaconCut b) s fun t => Keeps [b] s t ∧ twOf t b = { twOf s b with
        phase := .idle, sdaLow := false, cnt := { (twOf s b).cnt with beaconCut := sinc (twOf s b).cnt.beaconCut } }))
    ∧ (twActive s b = true ∧ (s.at b).ch.locked = true ∧ bitAt (twOf s b).cfg 4 = false ∧ attnPending (twOf s b) ≠ 0 →
      Answers (.beaconRepeat b) s fun t => Keeps [b] s t ∧ twOf t b = { twOf s b with sigDue := true })
    ∧ (signalReady s b true = true ∧ (twOf s b).notifyWait = false →
      (∀ e, Answers (.hostNotify b e) s fun t =>
        .reply ([0x10, BitVec.ofNat 8 (2 * twAddr s b)] ++ leBytes 2 (attnPending (twOf s b))) ∈ t.out)
      ∧ (Answers (.hostNotify b .delivered) s fun t => Keeps [b] s t ∧ twOf t b = { twOf s b with
          sigDue := false, edgeRun := 0, phase := .idle, cnt := { (twOf s b).cnt with notify := sinc (twOf s b).cnt.notify } })
      ∧ (Answers (.hostNotify b .refused) s fun t => Keeps [b] s t ∧ twOf t b = { twOf s b with
          notifyWait := true, phase := .idle, cnt := { (twOf s b).cnt with notifyNak := sinc (twOf s b).cnt.notifyNak } })
      ∧ (Answers (.hostNotify b .lost) s fun t => Keeps [b] s t ∧ twOf t b = { twOf s b with
          cnt := { (twOf s b).cnt with arbLost := sinc (twOf s b).cnt.arbLost } })
      ∧ (Answers (.hostNotify b .edge) s fun t => (twOf t b).edgeRun = min ((twOf s b).edgeRun + 1) 7
          ∧ (twOf t b).cnt.arbEdge = sinc (twOf s b).cnt.arbEdge ∧ (twOf t b).sigDue = true
          ∧ ((classEvent s b 13 (twOf s b).arbHist).1 = false → (twOf t b).phase = .backoff
              ∧ (twOf t b).ctrlRetired = (twOf s b).ctrlRetired)
          ∧ ((classEvent s b 13 (twOf s b).arbHist).1 = true → (twOf t b).ctrlRetired = true ∧ (twOf t b).phase = .idle)))
    ∧ (Answers (.notifyRetry b) s fun t => Keeps [b] s t ∧ twOf t b = { twOf s b with notifyWait := false })
    ∧ ((twOf s b).phase = .backoff → Answers (.backoffEnd b) s fun t => Keeps [b] s t
        ∧ twOf t b = { twOf s b with phase := .idle })
    ∧ (s.dev.sleep = true ∧ twActive s b = true →
      Answers (.sleepAddressMatch b) s fun t => Keeps [b] s t ∧ t.dev.sleep = true ∧ (twOf t b).waking = true
        ∧ (twOf t b).cnt.wake = (if (twOf s b).waking = true then (twOf s b).cnt.wake else sinc (twOf s b).cnt.wake)
        ∧ (bitAt (twOf s b).cfg 5 = true → t.out = [.nack] ∧ (twOf t b).sclLow = (twOf s b).sclLow)
        ∧ (bitAt (twOf s b).cfg 5 = false → t.out = [] ∧ (twOf t b).sclLow = true))
    ∧ ((twOf s b).sclLow = true → Answers (.stretchTimeout b) s fun t => (twOf t b).sclLow = false
        ∧ (twOf t b).cnt.stretchTo = sinc (twOf s b).cnt.stretchTo ∧ (twOf t b).waking = (twOf s b).waking ∧ .nack ∈ t.out)
    ∧ (∀ sda (ms : BitVec 16), (twActive s b = true → Answers (.busHang b sda ms) s fun t =>
          (twOf t b).cnt.hang = sinc (twOf s b).cnt.hang ∧ (twOf t b).phase = (twOf s b).phase
            ∧ AgreeOff [.out, .freeCtr, .rp, .tw, .log, .us, .dk] s t)
        ∧ (twActive s b = false → Answers (.busHang b sda ms) s fun t => AgreeOff [.out] s t ∧ t.out = []))

/-! ### The USB port -/

/-- R116, R427, R448, R449: VBUS, bus reset, suspend, resume and remote wakeup.
R445 to R447: telemetry on endpoint 0x81, and a push of a buffer by US_TEL_PUSH. Readings of the model in it: notes entry 58. -/
def Obligations.UsbBusAndTelemetry : Prop :=
  (∀ (s : State) (b : BId),
      (b = 0 ∨ b = 4 →
        ((usOf s b).active = true ∧ bitAt (usOf s b).cfg 0 = true ∧ (usOf s b).attached = false →
          Answers (.vbusChange b true) s fun t => Keeps [b] s t ∧ (usOf t b).vbus = true ∧ (usOf t b).attached = true
            ∧ (usOf t b).dev = .powered ∧ (usOf t b).addr = 0 ∧ (usOf t b).config = 0)
        ∧ (Answers (.vbusChange b false) s fun t => (usOf t b).vbus = false ∧ (usOf t b).attached = false
          ∧ ((usOf s b).attached = true → (usOf t b).dev = .detached ∧ (usOf t b).telQueue = [] ∧ (usOf t b).telSeq = 0
              ∧ ((usOf s b).dfu.active = true ∧ (usOf s b).dfu.st ≠ .manifestSync → (usOf t b).dfu.active = false
                  ∧ (usOf t b).dfu.st = .idle ∧ (usOf t b).dfuFail = sinc (usOf s b).dfuFail))))
      ∧ (∀ v, b ≠ 0 ∧ b ≠ 4 → Answers (.vbusChange b v) s fun t => AgreeOff [.out] s t)
      ∧ ((usOf s b).attached = true →
        (∀ hs, Answers (.usbBusReset b hs) s fun t => t.dev.sleep = false ∧ (usOf t b).dev = .default ∧ (usOf t b).hs = hs
          ∧ (usOf t b).addr = 0 ∧ (usOf t b).config = 0 ∧ (usOf t b).susp = false ∧ (usOf t b).telQueue = []
          ∧ (usOf t b).telSeq = 0 ∧ (usOf t b).busReset = sinc (usOf s b).busReset
          ∧ ((usOf s b).dfu.active = true ∧ (usOf s b).dfu.st ≠ .manifestSync →
              (usOf t b).dfu.st = .error ∧ (usOf t b).dfu.status = 0x0C ∧ (usOf t b).dfu.active = false))
        ∧ ((usOf s b).susp = false → Answers (.usbSuspend b) s fun t => Keeps [b] s t
          ∧ usOf t b = { usOf s b with susp := true, suspends := sinc (usOf s b).suspends }))
      ∧ ((usOf s b).susp = true → Answers (.usbResume b) s fun t => AgreeOff [.out, .dev, .log, .us, .cl, .tw] s t ∧ t.dev.sleep = false
          ∧ usOf t b = { usOf s b with susp := false, wakeReq := false })
      ∧ ((usOf s b).susp = true ∧ (usOf s b).rwake = true ∧ (usOf s b).wakeReq = true → Answers (.remoteWakeup b) s fun t =>
          Keeps [b] s t ∧ usOf t b = { usOf s b with wakeReq := false } ∧ t.out = [.resume b]))
  ∧ (∀ (s : State) (b : BId),
      (isConf s b = true →
        ((bitAt (usOf s b).cfg 2 = false ∨ (usOf s b).halt81 = true) → Answers (.telemetryIn b) s fun t =>
          AgreeOff [.out] s t ∧ t.out = [.stall])
        ∧ (bitAt (usOf s b).cfg 2 = true ∧ (usOf s b).halt81 = false →
          (telBytesDue (usOf s b) = [] ∧ (usOf s b).zlpDue = false → Answers (.telemetryIn b) s fun t =>
            AgreeOff [.out] s t ∧ t.out = [.nack])
          ∧ (∀ n, (telBytesDue (usOf s b) ≠ [] ∨ (usOf s b).zlpDue = true)
              ∧ n = ((usOf s b).telFlight.getD (min (bulkSize s b) (telBytesDue (usOf s b)).length)) →
            Answers (.telemetryIn b) s fun t => Keeps [b] s t ∧ t.out = [.reply ((telBytesDue (usOf s b)).take n)]
              ∧ usOf t b = { usOf s b with telFlight := some n })))
      ∧ (∀ n r rs, (usOf s b).telFlight = some n ∧ (usOf s b).telQueue = r :: rs →
        ((usOf s b).telSent + n < r.bytes.length → Answers (.telemetryPacketAck b) s fun t => Keeps [b] s t
          ∧ usOf t b = { usOf s b with telFlight := none, telSent := (usOf s b).telSent + n, zlpDue := false })
        ∧ (rs = [] ∧ r.bytes.length = (usOf s b).telSent + n → Answers (.telemetryPacketAck b) s fun t =>
          AgreeOff [.out, .us, .dk] s t ∧ (usOf t b).telQueue = [] ∧ (usOf t b).telSent = 0
            ∧ (usOf t b).telRec = sinc (usOf s b).telRec ∧ (usOf t b).zlpDue = (n == bulkSize s b)
            ∧ ∀ g ∈ r.bufs, holderOf t g = none))
      ∧ (∀ (req : ReqId) (w : Word) h g, WritePasses s req none 0xE024 ∧ s.harbour = some h ∧ g = fld w 11 0 →
        ((8 ≤ req.val ∧ req ≠ 11 ∨ fld w 20 12 = 0 ∨ 256 < fld w 20 12) → Answers (.usTelPush req w) s fun t =>
          AgreeOff [.out, .sy] s t)
        ∧ ((req.val < 8 ∨ req = 11) ∧ 1 ≤ fld w 20 12 ∧ fld w 20 12 ≤ 256 →
          (16 ≤ pushesQueued (usOf s h) → Answers (.usTelPush req w) s fun t => AgreeOff [.out, .sy, .us] s t
            ∧ usOf t h = { usOf s h with pushStat := vset (usOf s h).pushStat req.val 1 })
          ∧ (pushesQueued (usOf s h) < 16 ∧ telOn s h 3 = false → Answers (.usTelPush req w) s fun t =>
            AgreeOff [.out, .sy, .us] s t ∧ usOf t h = { usOf s h with pushStat := vset (usOf s h).pushStat req.val 2 })
          ∧ (pushesQueued (usOf s h) < 16 ∧ telOn s h 3 = true ∧ holderOf s g ≠ some (pushHand h req) →
            Answers (.usTelPush req w) s fun t =>
              AgreeOff [.out, .sy, .us] s t ∧ usOf t h = { usOf s h with pushStat := vset (usOf s h).pushStat req.val 3 })
          ∧ (pushesQueued (usOf s h) < 16 ∧ telOn s h 3 = true ∧ holderOf s g = some (pushHand h req)
              ∧ (s.at (bid (g / 512))).dk.inDeck = true ∧ (∀ e ∈ (s.at (bid (g / 512))).dk.handed, e.1 ≠ g % 512)
              ∧ (usOf s h).telLoss = 0 →
            Answers (.usTelPush req w) s fun t => AgreeOff [.out, .sy, .us, .dk] s t
              ∧ (usOf t h).telQueue = (usOf s h).telQueue ++ [⟨telBytes s h 3 (fld w 27 24) (bufRead s g (fld w 20 12)), [g], true⟩]
              ∧ (usOf t h).telSeq = ((usOf s h).telSeq + 1) % 2 ^ 32 ∧ vget (usOf t h).pushStat req.val = 0
              ∧ (g % 512, (11 : ReqId)) ∈ (t.at (bid (g / 512))).dk.handed))))

/-- R429 to R433: the standard requests and the vendor requests of interface 0. Readings of the model in it: notes entry 57. -/
def Obligations.UsbRequests : Prop :=
  ∀ (s : State) (b : BId), onBus s b = true →
    (Answers (.getStatus b 0 0) s fun t => AgreeOff [.out] s t
      ∧ t.out = [.reply [BitVec.ofNat 8 (1 + 2 * b2n (usOf s b).rwake), 0]])
    ∧ (∀ recip idx, recip = 3 ∨ recip = 2 ∧ idx ≠ 0 ∧ idx ≠ 0x80 ∧ idx ≠ 0x81 ∨ recip = 1 ∧ 2#8 < idx →
        Answers (.getStatus b recip idx) s fun t => AgreeOff [.out] s t ∧ t.out = [.stall])
    ∧ (∀ i on, (i, on) ∈ [(Instr.clearFeature b 1 0 0, false), (.setFeature b 1 0 0, true)] → Answers i s fun t =>
        Keeps [b] s t ∧ t.out = [.ack] ∧ usOf t b = { usOf s b with rwake := on })
    ∧ (isConf s b = true → Answers (.setFeature b 0 2 0x81) s fun t => t.out = [.ack] ∧ (usOf t b).halt81 = true
        ∧ (usOf t b).telQueue = [] ∧ (usOf t b).telSeq = 0)
    ∧ (∀ a : Fin 128, Answers (.setAddress b a) s fun t => Keeps [b] s t ∧ t.out = [.ack] ∧ (usOf t b).addr = a.val
        ∧ ((usOf s b).dev ≠ .configured → (usOf t b).dev = if a = 0 then .default else .address))
    ∧ (∀ (ty i : BitVec 8) (len : BitVec 16), Answers (.getDescriptor b ty i len) s fun t => AgreeOff [.out] s t
        ∧ t.out = match descriptor s b ty.toNat i.toNat with
          | some d => [.reply (d.take len.toNat)]
          | none => [.stall])
    ∧ (Answers (.getConfiguration b) s fun t => AgreeOff [.out] s t ∧ t.out = [.reply [BitVec.ofNat 8 (usOf s b).config]])
    ∧ ((usOf s b).dev ≠ .default →
      (Answers (.setConfiguration b 1) s fun t => t.out = [.ack] ∧ (usOf t b).dev = .configured ∧ (usOf t b).config = 1
        ∧ (usOf t b).halt81 = false ∧ (usOf t b).telQueue = [])
      ∧ (Answers (.setConfiguration b 0) s fun t => t.out = [.ack] ∧ (usOf t b).dev = .address ∧ (usOf t b).config = 0)
      ∧ (∀ v : BitVec 8, 1#8 < v → Answers (.setConfiguration b v) s fun t => AgreeOff [.out] s t ∧ t.out = [.stall]))
    ∧ (∀ i : BitVec 8, Answers (.getInterface b i) s fun t => AgreeOff [.out] s t ∧ t.out =
        if isConf s b = true ∧ i ≤ 2#8 then [.reply [BitVec.ofNat 8 (if i = 1#8 then (usOf s b).alt else 0)]] else [.stall])
    ∧ (∀ alt : BitVec 8, isConf s b = true ∧ (usOf s b).dfu.st = .idle ∧ alt ≤ 21#8 → Answers (.setInterface b 1 alt) s fun t =>
        Keeps [b] s t ∧ t.out = [.ack] ∧ usOf t b = { usOf s b with alt := alt.toNat })
    ∧ (∀ i alt : BitVec 8, isConf s b = false ∨ i = 1#8 ∧ ((usOf s b).dfu.st ≠ .idle ∨ 21#8 < alt) ∨ i ≠ 1#8 ∧ (2#8 < i ∨ alt ≠ 0#8) →
        Answers (.setInterface b i alt) s fun t => AgreeOff [.out] s t ∧ t.out = [.stall])
    ∧ (∀ i ∈ [Instr.setDescriptor b, .synchFrame b], Answers i s fun t => AgreeOff [.out] s t ∧ t.out = [.stall])
    ∧ (isConf s b = true →
      (∀ addr (len : BitVec 16) late fin r, len.toNat % 4 = 0 ∧ 8 ≤ len.toNat ∧ len.toNat ≤ 512
          ∧ r = hostReads 9 late (len.toNat / 4 - 1) (addr : Word).toNat 0 s.begin → Answers (.vendorRead b addr len late fin) s fun t =>
        (usOf t b).lastReq = 1 ∧ (usOf t b).lastResult = r.1.cause ∧ (usOf t b).lastIndex = r.1.index
          ∧ (fin = true → ∃ w, .reply (wordsBytes (w :: r.1.words)) ∈ t.out ∧ w = usLastWord (usOf t b)))
      ∧ (∀ addr (len : BitVec 16) late fin, len.toNat % 4 ≠ 0 ∨ len.toNat < 8 ∨ 512 < len.toNat →
        Answers (.vendorRead b addr len late fin) s fun t => AgreeOff [.out, .us] s t ∧ t.out = [.stall]
          ∧ (usOf t b).lastResult = 0x10)
      ∧ (∀ addr ws late r, ws ≠ [] ∧ ws.length ≤ 128 ∧ bitAt (usOf s b).cfg 3 = true
          ∧ r = hostWrites 9 late ws (addr : Word).toNat 0 s.begin → Answers (.vendorWrite b addr ws 0 late true) s fun t =>
        (usOf t b).lastReq = 2 ∧ (usOf t b).lastResult = r.1.cause ∧ (usOf t b).lastIndex = r.1.index ∧ .ack ∈ t.out)
      ∧ (∀ addr ws late, ws ≠ [] ∧ ws.length ≤ 128 ∧ bitAt (usOf s b).cfg 3 = true →
        Answers (.vendorWrite b addr ws 0 late false) s fun t => AgreeOff [.out, .us] s t ∧ t.out = []
          ∧ (usOf t b).lastResult = 0x14 ∧ (usOf t b).cut = sinc (usOf s b).cut)
      ∧ (∀ addr ws odd late st, odd ≠ 0 ∨ ws = [] ∨ 128 < ws.length → Answers (.vendorWrite b addr ws odd late st) s fun t =>
        AgreeOff [.out, .us] s t ∧ t.out = [.stall] ∧ (usOf t b).lastResult = 0x10)
      ∧ (Answers (.vendorLast b 3 0 4) s fun t => AgreeOff [.out, .us] s t
        ∧ t.out = [.reply (leBytes 4 (usLastWord (usOf s b)).toNat)] ∧ usLastWord (usOf t b) = usLastWord (usOf s b)))

/-- R435, R438 to R442: Device Firmware Upgrade: its requests, its flash operations and manifestation.
Readings of the model in it: notes entries 56 and 57. -/
def Obligations.FirmwareUpgrade : Prop :=
  ∀ (s : State) (b : BId),
    (isConf s b = true ∧ bitAt (usOf s b).cfg 1 = true →
      (∀ num rdErr (data : List Byte), (dfuOf s b).st = .idle ∧ data ≠ [] ∧ data.length ≤ 4096 ∧ refuseOf s b rdErr ≠ 0 →
        Answers (.dfuDnload b num data rdErr) s fun t => .stall ∈ t.out ∧ (dfuOf t b).st = .error ∧ (dfuOf t b).status = 1
          ∧ (dfuOf t b).refuse = refuseOf s b rdErr ∧ (usOf t b).dfuFail = sinc (usOf s b).dfuFail
          ∧ ∀ f, (t.at f).flash = (s.at f).flash)
      ∧ (∀ rdErr, (dfuOf s b).st = .dnloadIdle → Answers (.dfuDnload b 0 [] rdErr) s fun t => Keeps [b] s t ∧ t.out = [.ack]
          ∧ dfuOf t b = { dfuOf s b with st := .manifestSync })
      ∧ (∀ (num : BitVec 16) rdErr (data : List Byte), (dfuOf s b).st = .dnloadIdle ∧ data ≠ [] ∧ data.length ≤ 4096
          ∧ num.toNat ≠ (dfuOf s b).block → Answers (.dfuDnload b num data rdErr) s fun t => .stall ∈ t.out
            ∧ (dfuOf t b).st = .error ∧ (dfuOf t b).status = 0x0F ∧ (dfuOf t b).active = false)
      ∧ (∀ (num : BitVec 16) rdErr (data : List Byte) gs u, (dfuOf s b).st = .dnloadIdle ∧ (dfuOf s b).active = true ∧ data ≠ [] ∧ data.length ≤ 4096
          ∧ num.toNat = (dfuOf s b).block ∧ (dfuOf s b).len + data.length ≤ targetSize ((usOf s b).alt % 11)
          ∧ flashThere s (altFlash (usOf s b).alt) = true
          ∧ allocMany b 6 true ((data.length + 255) / 256) s.begin = (some gs, u) →
        Answers (.dfuDnload b num data rdErr) s fun t => t.out = [.ack] ∧ (dfuOf t b).st = .dnloadSync
          ∧ (dfuOf t b).block = ((dfuOf s b).block + 1) % 65536 ∧ (dfuOf t b).len = (dfuOf s b).len + data.length
          ∧ (dfuOf t b).held = (dfuOf s b).held ++ data.take (256 - (dfuOf s b).held.length)
          ∧ ∀ f, (t.at f).flash = (s.at f).flash)
      ∧ (∀ (len : BitVec 16) n, (dfuOf s b).st = .idle ∧ flashThere s (altFlash (usOf s b).alt) = true
          ∧ n = min (min len.toNat 4096) (targetSize ((usOf s b).alt % 11)) → Answers (.dfuUpload b len false) s fun t =>
        Keeps [b] s t ∧ t.out = [.reply (flashAt s (altFlash (usOf s b).alt) (targetOff ((usOf s b).alt % 11)) n)]
          ∧ (dfuOf t b).upPos = n ∧ (dfuOf t b).st = if n < min len.toNat 4096 then .idle else .uploadIdle)
      ∧ (∀ st, st = dfuAfterStatus (dfuOf s b) → Answers (.dfuGetstatus b) s fun t => Keeps [b] s t
        ∧ dfuOf t b = { dfuOf s b with st := st } ∧ t.out = [.reply (BitVec.ofNat 8 (dfuOf s b).status
            :: leBytes 3 (dfuPollMs (usOf s b) st) ++ [BitVec.ofNat 8 (dfuCode st), 0])])
      ∧ ((dfuOf s b).st = .error →
        (Answers (.dfuClrstatus b) s fun t => Keeps [b] s t ∧ t.out = [.ack]
          ∧ dfuOf t b = { dfuOf s b with st := .idle, status := 0 })
        ∧ (Answers (.dfuAbort b) s fun t => AgreeOff [.out] s t ∧ t.out = [.stall]))
      ∧ (Answers (.dfuGetstate b) s fun t => AgreeOff [.out] s t ∧ t.out = [.reply [BitVec.ofNat 8 (dfuCode (dfuOf s b).st)]])
      ∧ ((dfuOf s b).active = true ∧ ((dfuOf s b).st = .dnloadSync ∨ (dfuOf s b).st = .dnloadIdle ∨ (dfuOf s b).st = .dnBusy) →
        Answers (.dfuAbort b) s fun t => .ack ∈ t.out ∧ (dfuOf t b).st = .idle ∧ (dfuOf t b).status = 0 ∧ (dfuOf t b).active = false
          ∧ (usOf t b).dfuFail = sinc (usOf s b).dfuFail))
    ∧ (isConf s b = true → Answers (.dfuDetach b) s fun t => AgreeOff [.out] s t ∧ t.out = [.stall])
    ∧ (∀ f off, (dfuOf s b).op = some (.erase f off) ∧ s.dev.sleep = false →
      (Answers (.dfuEraseDone b true) s fun t => (t.at f).flash = flashErase off 0x10000 (s.at f).flash)
      ∧ ((dfuOf s b).active = true → Answers (.dfuEraseDone b false) s fun t => (dfuOf t b).st = .error ∧ (dfuOf t b).status = 4
        ∧ (dfuOf t b).active = false))
    ∧ (∀ f off bs, (dfuOf s b).op = some (.program f off bs) ∧ s.dev.sleep = false →
      (Answers (.dfuProgramDone b true) s fun t => (t.at f).flash = flashProgram off bs (s.at f).flash)
      ∧ ((dfuOf s b).active = true → Answers (.dfuProgramDone b false) s fun t => (dfuOf t b).st = .error ∧ (dfuOf t b).status = 6
        ∧ (dfuOf t b).active = false))
    ∧ (∀ f base, (dfuOf s b).st = .manifestSync ∧ (dfuOf s b).op = none ∧ s.dev.sleep = false ∧ f = altFlash (usOf s b).alt ∧ flashThere s f = true
        ∧ base = targetOff ((usOf s b).alt % 11) →
      (∀ rdErr, Answers (.manifestationDone b false false rdErr) s fun t => (dfuOf t b).st = .error ∧ (dfuOf t b).status = 6)
      ∧ (∀ rdErr, Answers (.manifestationDone b true false rdErr) s fun t => (dfuOf t b).st = .error ∧ (dfuOf t b).status = 7
          ∧ (t.at f).flash = flashProgram base (dfuOf s b).held (s.at f).flash)
      ∧ (∀ rdErr u, u = s.upd f (fun x => { x with flash := flashProgram base (dfuOf s b).held x.flash }) →
        Answers (.manifestationDone b true true rdErr) s fun t =>
          (downloadCheck u b f ((usOf s b).alt % 11) rdErr = 0 → (dfuOf t b).st = .idle ∧ (dfuOf t b).status = 0
            ∧ (usOf t b).dfuDone = sinc (usOf s b).dfuDone ∧ (t.at f).flash = (u.at f).flash)
          ∧ (downloadCheck u b f ((usOf s b).alt % 11) rdErr ≠ 0 → (dfuOf t b).st = .error ∧ (dfuOf t b).status = 2
            ∧ (dfuOf t b).check = downloadCheck u b f ((usOf s b).alt % 11) rdErr
            ∧ (t.at f).flash = flashErase base 0x10000 (u.at f).flash)))

/-! ### Health, un-retire orders and soundings -/

/-- The history after events in tides es, oldest first, for a unit that keeps N entries and looks back W tides (R455). -/
def historyAfter (n w : Nat) (es : List Nat) : Hist := es.foldl (fun h e => (histEvent h e n w).2) []

/-- R455: the history rule. Keeping only the N most recent events decides as the full record of events would: where none of the events
so far has retired the unit, its next event, in tide t, retires it exactly if N of those events lie in tides t − W + 1 to t; otherwise
the history holds the N most recent of all events. The classes of R87 take N and W from the chart, or else the table's. -/
def Obligations.RetirementRule : Prop :=
  (∀ (n w t : Nat) (es : List Nat), es.Pairwise (· ≤ ·) ∧ (∀ e ∈ es, e ≤ t)
      ∧ (∀ before e after, es = before ++ e :: after → (histEvent (historyAfter n w before) e n w).1 = false) →
    ((histEvent (historyAfter n w es) t n w).1 = true
        ↔ n ≤ (es.filter fun e => decide (t < e + w ∧ e ≤ t)).length)
    ∧ ((histEvent (historyAfter n w es) t n w).1 = true → (histEvent (historyAfter n w es) t n w).2 = historyAfter n w es)
    ∧ ((histEvent (historyAfter n w es) t n w).1 = false →
        (histEvent (historyAfter n w es) t n w).2 = (t :: es.reverse).take n))
  ∧ ∀ (s : State) (b : BId) (cls : Nat) (h : Hist),
    (classEvent s b cls h).1 = (histEvent h (s.hTide b) (retireNW (s.at b) cls).1 (retireNW (s.at b) cls).2).1
    ∧ (classEvent s b cls h).2.1 = (histEvent h (s.hTide b) (retireNW (s.at b) cls).1 (retireNW (s.at b) cls).2).2

/-- R457, R459 to R461: a retirement notice at the harbour; un-retire orders of every kind, refused or taken; the end of an order. A
taken order acts on its unit at once (the model's choice, notes entry 22).
R468: the arrival of a sounding at the harbour, from a moored berth only with a buffer there, and the notice of a drop.
Readings of the model in it: notes entries 59 and 60. -/
def Obligations.UnretiresAndSoundings : Prop :=
  (∀ (s : State) (h : BId), s.isHbr h = true →
      (∀ (n : BId) (kind : Fin 32) (index : Fin 1280) rule events, Answers (.retirementNotice h n kind index rule events) s fun t =>
        AgreeOff [.out, .freeCtr, .rp, .tray, .log, .tw, .us, .dk] s t ∧ (t.at h).tray.hl.retires = sinc (s.at h).tray.hl.retires
          ∧ nbit (t.at h).tw.attn 3 = true
          ∧ (kind = 3 → nbit (t.at h).tray.hl.retired n.val = true)
          ∧ (∀ i, retBit kind.val index.val = some i → bitAt (vget (t.at h).tray.hl.ret n.val) i = true ∨ 32 ≤ i))
      ∧ (∀ (req : ReqId) (n : BId) (guard : BitVec 16) i kind index r, WritePasses s req none 0xF044 ∧ (s.at h).tray.hl.busy = false
          ∧ (i, kind) ∈ [(Instr.unretireRingPort req n guard, 1), (.unretireTideIn req n guard, 2), (.unretireBerth req n guard, 3),
            (.unretireSlot req n guard, 4), (.unretireAvsbus req n guard, 5), (.unretireCool req n guard, 6),
            (.unretireRope req n guard, 7), (.unretireColumn req n guard, 8), (.unretireArray req n guard, 9),
            (.unretireDma req n guard, 10), (.unretireTwiCtrl req n guard, 11), (.unretirePilot req n guard, 12),
            (.unretireCore req n guard, 13)]
          ∧ index = vget (s.at h).tray.hl.arg req.val % 65536 ∧ r = unretRefuse s h n kind index req guard.toNat →
        (r ≠ 0 → Answers i s fun t => AgreeOff [.out, .freeCtr, .sy, .rp, .tray, .log, .us, .dk] s t
          ∧ (t.at h).tray.hl = { (s.at h).tray.hl with
              kind := kind, berth := n.val, index := index, result := r, req := req.val, busy := false })
        ∧ (r = 0 ∧ kind ≠ 3 ∧ (kind = 8 → (arrOf s n (index / 160)).st ≠ .busy) → Answers i s fun t => unitRetired t h n kind index = false ∧ (t.at h).tray.hl.busy = true
          ∧ (t.at h).tray.hl.result = 0 ∧ (t.at h).tray.hl.kind = kind ∧ (t.at h).tray.hl.berth = n.val
          ∧ (t.at h).tray.hl.index = index ∧ (t.at h).tray.hl.req = req.val)
        ∧ (r = 0 ∧ kind = 8 ∧ (arrOf s n (index / 160)).st = .busy → Answers i s fun t =>
          (arrOf t n (index / 160)).unret = (arrOf s n (index / 160)).unret ++ [index % 160]
            ∧ (arrOf t n (index / 160)).ret = (arrOf s n (index / 160)).ret ∧ (t.at h).tray.hl.busy = true)
        ∧ (r = 0 ∧ kind = 3 ∧ n ≠ h → Answers i s fun t => (t.at n).sy.inReset = false ∧ (t.at n).sy.joining = true
          ∧ (t.at n).sy.st = .inert ∧ (t.at n).rl = {} ∧ (t.at n).pl = {} ∧ (t.at n).cl = { silenceFrom := s.now } ∧ (t.at n).ar = {}
          ∧ (t.at h).tray.hl.busy = true))
      ∧ ((s.at h).tray.hl.busy = true ∧ (s.at h).tray.hl.kind ≠ 3 →
        (Answers (.unretireAck h) s fun t => AgreeOff [.out, .freeCtr, .rp, .tray, .log, .us, .dk] s t
          ∧ (t.at h).tray.hl.busy = false ∧ (t.at h).tray.hl.result = 0
          ∧ (t.at h).tray.hl.unretires = sinc (s.at h).tray.hl.unretires)
        ∧ (Answers (.unretireAckTimeout h) s fun t => AgreeOff [.out, .freeCtr, .rp, .tray, .log, .us, .dk] s t
          ∧ (t.at h).tray.hl = { (s.at h).tray.hl with busy := false, result := 1 }))
      ∧ ((s.at h).tray.hl.busy = true ∧ (s.at h).tray.hl.kind = 3 → Answers (.berthAdmitTimeout h) s fun t =>
        (t.at (bid (s.at h).tray.hl.berth)).sy.st = .retired ∧ (t.at (bid (s.at h).tray.hl.berth)).sy.joining = false
          ∧ (t.at h).tray.hl = { (s.at h).tray.hl with busy := false, result := 1 }))
  ∧ (∀ (s : State) (h n : BId) (bytes : List Byte),
      (s.isHbr h = true →
        ((s.at n).sy.st ≠ .moored ∨ (∃ m lend, chooseShare s ⟨h, 3⟩ false = some (m, lend) ∧ freeBufs s m ≠ []) →
          Answers (.soundingArrive h n bytes) s fun t => AgreeOff [.out, .freeCtr, .rp, .tray, .us, .dk] s t
            ∧ vget (t.at h).tray.hl.snd n.val = bytes ∧ nbit (t.at h).tray.hl.arrived n.val = true)
        ∧ ((s.at n).sy.st = .moored ∧ chooseShare s ⟨h, 3⟩ false = none → Answers (.soundingArrive h n bytes) s fun t =>
          AgreeOff [.out, .rp] s t ∧ ((s.at h).sy.holdover = false → t.out = [.ring h (some n) .dropNotice])))
      ∧ ((s.at n).sy.st = .moored → Answers (.soundingDropNotice n) s fun t => Keeps [n] s t
          ∧ (t.at n).hl = { (s.at n).hl with sndDrop := sinc (s.at n).hl.sndDrop })
      ∧ ((s.at n).sy.st ≠ .moored → Answers (.soundingDropNotice n) s fun t => AgreeOff [.out] s t))

/-! ### Marks, steps and reset -/

/-- R47, R55, R61, R62, R65: a mark boundary: the count of berth b goes up by one, or, where it loads the harbour's count, up to that; the
next mark starts; no other berth's count moves. Readings of the model in it: notes entries 38 and 47. -/
def Obligations.MarkBoundaries : Prop :=
  ∀ (s : State) (b : BId),
    ((s.at b).td.running = false ∨ (s.at b).td.held = true → Answers (.markBoundary b) s fun t => AgreeOff [.out] s t ∧ t.out = [])
    ∧ ((s.at b).td.running = true ∧ (s.at b).td.held = false →
      (∀ n, n ≠ b → Answers (.markBoundary b) s fun t => (t.at n).td.mark = (s.at n).td.mark ∧ (t.at n).td.tide = (s.at n).td.tide
        ∧ (t.at n).td.markStart = (s.at n).td.markStart ∧ (t.at n).td.pn = (s.at n).td.pn)
      ∧ ((s.at b).td.load = none → Answers (.markBoundary b) s fun t => (t.at b).td.markStart = s.now
        ∧ (t.at b).td.mark = (if (s.at b).td.mark = 255 then 0 else (s.at b).td.mark + 1)
        ∧ (t.at b).td.tide = (if (s.at b).td.mark = 255 then ((s.at b).td.tide + 1) % 2 ^ 40 else (s.at b).td.tide)
        ∧ ((s.at b).td.mark = 255 ∧ s.isHbr b = false →
            (t.at b).td.pn = (s.at b).td.pnNext.getD (s.at b).td.pn ∧ (t.at b).td.pnNext = none)
        ∧ ((s.at b).td.mark ≠ 255 → (t.at b).td.pn = (s.at b).td.pn))
      ∧ (∀ tide mark, (s.at b).td.load = some (tide, mark) ∧ mark < 256 ∧ tide < 2 ^ 40 ∧ (s.at b).td.mark < 256
          ∧ markCount (s.at b).td < tide * 256 + mark → Answers (.markBoundary b) s fun t =>
        (t.at b).td.tide = tide ∧ (t.at b).td.mark = mark ∧ (t.at b).td.load = none ∧ (t.at b).td.markStart = s.now))

/-- The state of R46 on every berth: INERT, an untrained ring without chords, no snapshot, empty latches, SY_ counters at 0. -/
def UntrainedRing (t : State) : Prop :=
  ∀ b : BId, (t.at b).sy.st = .inert ∧ liveReg t b false 0 0x0 0x010 = some 0
    ∧ (∀ p : Fin 4, (portOf t b p.val).trained = false) ∧ (t.at b).sy.snapPend = false ∧ (t.at b).sy.snapFrozen = false
    ∧ (∀ q : ReqId, vget (t.at b).sy.latch q.val = none)
    ∧ ∀ off ∈ [0x030, 0x034, 0x038], liveReg t b false 0 0x0 off = some 0

/-- R46: the state that reset leaves on every berth: right after power-on, and after a main reset by any cause. -/
def Obligations.StateAfterReset : Prop :=
  UntrainedRing State.reset
  ∧ ∀ s : State,
    (s.dev.stby = true → Answers .mainSupplyLoss s UntrainedRing)
    ∧ (s.dev.stby = true → Answers .resetNAssert s UntrainedRing)
    ∧ Answers .vddStbyReset s UntrainedRing
    ∧ Answers .vddStbyLoss s UntrainedRing
    ∧ (s.dev.rstBusy = true → Answers .controllerResetFire s UntrainedRing)
    ∧ (s.dev.tap = .extest ∨ s.dev.tap = .clamp ∨ s.dev.tap = .highz → Answers .tapTestLogicReset s UntrainedRing)
    ∧ (∀ i, (s.dev.tap = .extest ∨ s.dev.tap = .clamp ∨ s.dev.tap = .highz) ∧ s.dev.tap ≠ i →
        Answers (.tapInstructionLoad i) s UntrainedRing)

/-- R474: registers of every block read their reset values in the state right after power-on (offset 0x1000 × block + offset); memory
is canonical, no command waits, and no berth is harbour. -/
def Obligations.ResetRegisters : Prop :=
  State.reset.memCanonical = true ∧ State.reset.pending = [] ∧ State.reset.harbour = none
  ∧ (∀ (b : BId) (off v : Nat), (off, v) ∈ [(0x0000, 0x74384201), (0x0024, 0), (0x0040, 0), (0x1000, 1), (0x1004, 0), (0x1018, 0x65B9AB),
      (0x101C, 0xEA60), (0x1020, 0xA2864), (0x1024, 0x320010), (0x1034, 0x1040), (0x2000, 0x30), (0x2040, 0), (0x3020, 0),
      (0x4000, 0x34008), (0x4004, 0xC803E8), (0x4014, 0xFFFF00), (0x4218, 0x2580004), (0x421C, 0x1021E08), (0x4208, 0), (0x5004, 0xF0000),
      (0x5080, 0x3FFF0000), (0x50DC, 0x3FFF0000), (0x50E0, 0xFFF0000), (0x5140, 0xF0000), (0x5200, 0xFF00), (0x5260, 0xFF00), (0x6140, 0x1FFFFFF),
      (0x6150, 0x1900), (0x6154, 0x1E1E), (0x6160, 0x4B0), (0x6190, 0x4B0), (0x61C0, 0x5040), (0x61C4, 2), (0x61C8, 1), (0x7004, 0xA),
      (0x700C, 0x3E8), (0x7010, 0x3E80000), (0x7084, 0xA), (0x8000, 0xFFF0000), (0x8004, 0xFFF0000), (0x9000, 0), (0x902C, 0),
      (0xA008, 0), (0xA020, 0), (0xA024, 0x40003E0), (0xA028, 0x21008294), (0xB000, 0), (0xB008, 0x3E8), (0xB020, 0), (0xB028, 0xFFFFFFFF),
      (0xB02C, 0xFFFFFFFF), (0xC000, 0), (0xC044, 0), (0xF100, 0)] →
    liveReg State.reset b false 0 (off / 4096) (off % 4096) = some (BitVec.ofNat 32 v))
  ∧ ∀ (b : BId) (off v : Nat), (b = 0 ∨ b = 4) ∧ (off, v) ∈ [(0x6010, 0x7D0), (0xD000, 0x6400C1), (0xD008, 0), (0xD00C, 0x7FF), (0xE000, 0xF),
      (0xE010, 2), (0xE018, 0x50190), (0xE020, 0x1F), (0xF000, 0x10032), (0xF020, 0)] →
    liveReg State.reset b true 0 (off / 4096) (off % 4096) = some (BitVec.ofNat 32 v)

/-- A step takes the command at the front of the queue: it is that command's meaning in the state with the queue's rest. -/
def Obligations.StepRunsFront : Prop :=
  ∀ (c : Instr) (rest : List Instr) (s : State), s.pending = c :: rest → step s = exec c { s with pending := rest }

/-- R366: on an empty queue one REF cycle passes (the model's choice, notes entry 2): PL_MTIME counts on every berth out of main reset;
in SLEEP nothing else moves. -/
def Obligations.IdleTick : Prop :=
  ∀ s : State, s.pending = [] → ∃ t, step s = .next t ∧ t.pending = [] ∧ t.now = s.now + 1 ∧ t.dev = s.dev
    ∧ AgreeOff [.out, .now, .freeCtr, .sy, .rp, .rl, .log, .pw, .hw, .svc, .cl, .pl, .dk, .dm, .tw, .us, .ar, .pg, .tray, .deck] s t
    ∧ (s.dev.sleep = true → AgreeOff [.out, .now, .pl] s t)
    ∧ ∀ b, (t.at b).pl.mtime = if (s.at b).sy.inReset = true then (s.at b).pl.mtime else ((s.at b).pl.mtime + 1) % 2 ^ 64

/-- Every command completes, leaves the queue alone, and leaves every part of the state alone that its row does not reach (`touches`): the
registers of the other blocks, and every byte of TCM, deck and flash where it stores none. That a command whose conditions do not hold
completes without effect is the model's choice (notes entry 1). -/
def Obligations.CommandFrames : Prop :=
  ∀ (c : Instr) (s : State), ∃ t, exec c s = .next t ∧ t.pending = s.pending ∧ AgreeOff (touches c) s t

/-- Every step keeps every memory of every berth in canonical form (the model's own form of memory, notes entry 6). -/
def Obligations.MemoryStaysCanonical : Prop :=
  ∀ s t : State, s.memCanonical = true → step s = .next t → t.memCanonical = true
end

