-- ==== Sys2Proof/Laws/Memory.lean ====
section
/-! SUPPORT. The canonical form of sparse memories: every memory operation keeps it, and a read after a write. -/
namespace Sys2Proof.Machine

/-- Whether an address may be listed after bound o. -/
def above (o : Option Nat) (k : Nat) : Bool :=
  match o with
  | none => true
  | some b => decide (b < k)

variable {d v : Byte} {o : Option Nat} {m : Mem} {a : Nat}

theorem memWf_cons {k : Nat} {w : Byte} :
    memWf d o ((k, w) :: m) = (above o k && (w != d) && memWf d (some k) m) := by
  cases o <;> simp [memWf, above]

theorem memWf_mono {o' : Option Nat} (h : memWf d o m = true) (le : ∀ k, above o k = true → above o' k = true) :
    memWf d o' m = true := by
  cases m with
  | nil => cases o' <;> rfl
  | cons e m => obtain ⟨k, v⟩ := e; simp [memWf_cons] at *; exact ⟨⟨le _ h.1.1, h.1.2⟩, h.2⟩

/-- Storing a byte at an address that may be listed keeps the canonical form. -/
theorem memSet_wf (h : memWf d o m = true) (ha : above o a = true) : memWf d o (memSet d m a v) = true := by
  induction m generalizing o with
  | nil => unfold memSet; split <;> simp_all [memWf_cons, memWf]
  | cons e m ih =>
    obtain ⟨k, w⟩ := e
    simp only [memWf_cons, Bool.and_eq_true, bne_iff_ne, ne_eq] at h
    obtain ⟨⟨h1, h2⟩, h3⟩ := h
    unfold memSet
    split
    · rename_i lt
      split
      · simp [memWf_cons, h1, h2, h3]
      · rename_i nv
        simp [memWf_cons, ha, nv, h2, h3, show above (some a) k = true by simp [above, lt]]
    · split
      · rename_i e; subst e
        split
        · exact memWf_mono h3 (fun k hk => by cases o <;> simp_all [above]; omega)
        · rename_i nv; simp [memWf_cons, ha, nv, h3]
      · simp [memWf_cons, h1, h2]; exact ih h3 (by simp [above]; omega)

theorem memWrite_wf {bs : List Byte} (h : memWf d none m = true) : memWf d none (memWrite d m a bs) = true := by
  induction bs generalizing m a with
  | nil => exact h
  | cons v vs ih => exact ih (memSet_wf h rfl)

theorem memFilter_wf {p : Host.Cell → Bool} (h : memWf d o m = true) : memWf d o (m.filter p) = true := by
  induction m generalizing o with
  | nil => exact h
  | cons e m ih =>
    obtain ⟨k, w⟩ := e
    simp only [memWf_cons, Bool.and_eq_true, bne_iff_ne, ne_eq] at h
    obtain ⟨⟨h1, h2⟩, h3⟩ := h
    simp only [List.filter_cons]
    split
    · simp [memWf_cons, h1, h2]; exact ih h3
    · exact memWf_mono (ih h3) (fun j hj => by cases o <;> simp_all [above]; omega)

/-- A fold of steps that each keep the canonical form. -/
theorem memFold_wf {α : Type} {xs : List α} {f : Mem → α → Mem} (h : memWf d none m = true)
    (hf : ∀ m x, memWf d none m = true → memWf d none (f m x) = true) : memWf d none (xs.foldl f m) = true := by
  induction xs generalizing m with
  | nil => exact h
  | cons x xs ih => exact ih (hf m x h)

theorem flashProgram_wf {off : Nat} {bs : List Byte} (h : memWf flashD none m = true) :
    memWf flashD none (flashProgram off bs m) = true := by
  unfold flashProgram
  exact memFold_wf h fun _ _ k => memSet_wf k rfl

theorem flashErase_wf {off n : Nat} (h : memWf flashD none m = true) : memWf flashD none (flashErase off n m) = true :=
  memFilter_wf h

/-- An address below every listed one is not listed. -/
theorem memGet_below (h : memWf d (some a) m = true) : memGet d m a = d := by
  suffices ∀ b, a ≤ b → memWf d (some b) m = true → memGet d m a = d from this a (Nat.le_refl a) h
  clear h
  induction m with
  | nil => intro _ _ _; rfl
  | cons e m ih =>
    intro b le h
    obtain ⟨k, w⟩ := e
    simp [memWf_cons, above] at h
    unfold memGet
    rw [if_neg (by omega)]
    exact ih k (by omega) h.2

/-- Reading back the address just stored to gives the byte stored. -/
theorem memGet_memSet_self (h : memWf d o m = true) : memGet d (memSet d m a v) a = v := by
  induction m generalizing o with
  | nil => unfold memSet; split <;> simp_all [memGet]
  | cons e m ih =>
    obtain ⟨k, w⟩ := e
    simp only [memWf_cons, Bool.and_eq_true] at h
    unfold memSet
    split
    · rename_i lt
      split
      · rename_i e
        subst e
        unfold memGet
        rw [if_neg (by omega)]
        exact memGet_below (memWf_mono h.2 fun j hj => by simp [above] at *; omega)
      · simp [memGet]
    · split
      · rename_i e; subst e
        split
        · rename_i e; subst e; exact memGet_below h.2
        · simp [memGet]
      · unfold memGet
        rw [if_neg (by omega)]
        exact ih h.2

/-- Storing a byte leaves every other address alone. -/
theorem memGet_memSet_ne {c : Nat} (ne : c ≠ a) : memGet d (memSet d m a v) c = memGet d m c := by
  induction m with
  | nil => unfold memSet; split <;> simp [memGet, Ne.symm ne]
  | cons e m ih =>
    obtain ⟨k, w⟩ := e
    unfold memSet
    split
    · split
      · rfl
      · simp [memGet, Ne.symm ne]
    · split
      · rename_i e; subst e
        split <;> simp [memGet, Ne.symm ne]
      · simp only [memGet, ih]

/-- Storing bytes leaves every address outside them alone. -/
theorem memGet_memWrite_out {bs : List Byte} {c : Nat} (out : c < a ∨ a + bs.length ≤ c) :
    memGet d (memWrite d m a bs) c = memGet d m c := by
  induction bs generalizing m a with
  | nil => rfl
  | cons b bs ih =>
    simp only [List.length_cons] at out
    unfold memWrite
    rw [ih (by omega), memGet_memSet_ne (by omega)]

end Sys2Proof.Machine
end

