-- ==== Sys2Proof/Laws/State.lean ====
section
/-! SUPPORT. What reading a field of the state gives after each update of the state. -/
namespace Sys2Proof.Machine

variable {s : State} {b c : BId}

@[simp] theorem State.upd_at_self {f : Berth → Berth} : (s.upd b f).at b = f (s.at b) := by
  simp [State.upd, State.at]

theorem State.upd_at_ne {f : Berth → Berth} (h : b ≠ c) : (s.upd b f).at c = s.at c := by
  have : b.val ≠ c.val := fun q => h (Fin.ext q)
  simp [State.upd, State.at, this]

@[simp] theorem State.upd_at {f : Berth → Berth} : (s.upd b f).at c = if b = c then f (s.at c) else s.at c := by
  split
  · next h => subst h; exact State.upd_at_self
  · next h => exact State.upd_at_ne h

@[simp] theorem State.upd_dev {f : Berth → Berth} : (s.upd b f).dev = s.dev := rfl
@[simp] theorem State.upd_now {f : Berth → Berth} : (s.upd b f).now = s.now := rfl
@[simp] theorem State.upd_out {f : Berth → Berth} : (s.upd b f).out = s.out := rfl
@[simp] theorem State.upd_freeCtr {f : Berth → Berth} : (s.upd b f).freeCtr = s.freeCtr := rfl
@[simp] theorem State.upd_pending {f : Berth → Berth} : (s.upd b f).pending = s.pending := rfl

@[simp] theorem State.updRl_at  {f : Rl → Rl} :
    (s.updRl b f).at c = if b = c then { s.at c with rl := f (s.at c).rl } else s.at c := State.upd_at
@[simp] theorem State.updRl_dev  {f : Rl → Rl} : (s.updRl b f).dev = s.dev := rfl
@[simp] theorem State.updRl_now  {f : Rl → Rl} : (s.updRl b f).now = s.now := rfl
@[simp] theorem State.updRl_out  {f : Rl → Rl} : (s.updRl b f).out = s.out := rfl
@[simp] theorem State.updRl_freeCtr  {f : Rl → Rl} : (s.updRl b f).freeCtr = s.freeCtr := rfl
@[simp] theorem State.updRl_pending  {f : Rl → Rl} : (s.updRl b f).pending = s.pending := rfl

@[simp] theorem State.updLog_at  {f : LogSt → LogSt} :
    (s.updLog b f).at c = if b = c then { s.at c with log := f (s.at c).log } else s.at c := State.upd_at
@[simp] theorem State.updLog_dev  {f : LogSt → LogSt} : (s.updLog b f).dev = s.dev := rfl
@[simp] theorem State.updLog_now  {f : LogSt → LogSt} : (s.updLog b f).now = s.now := rfl
@[simp] theorem State.updLog_out  {f : LogSt → LogSt} : (s.updLog b f).out = s.out := rfl
@[simp] theorem State.updLog_freeCtr  {f : LogSt → LogSt} : (s.updLog b f).freeCtr = s.freeCtr := rfl
@[simp] theorem State.updLog_pending  {f : LogSt → LogSt} : (s.updLog b f).pending = s.pending := rfl

@[simp] theorem State.updPw_at  {f : Pw → Pw} :
    (s.updPw b f).at c = if b = c then { s.at c with pw := f (s.at c).pw } else s.at c := State.upd_at
@[simp] theorem State.updPw_dev  {f : Pw → Pw} : (s.updPw b f).dev = s.dev := rfl
@[simp] theorem State.updPw_now  {f : Pw → Pw} : (s.updPw b f).now = s.now := rfl
@[simp] theorem State.updPw_out  {f : Pw → Pw} : (s.updPw b f).out = s.out := rfl
@[simp] theorem State.updPw_freeCtr  {f : Pw → Pw} : (s.updPw b f).freeCtr = s.freeCtr := rfl
@[simp] theorem State.updPw_pending  {f : Pw → Pw} : (s.updPw b f).pending = s.pending := rfl

@[simp] theorem State.updHw_at  {f : Hw → Hw} :
    (s.updHw b f).at c = if b = c then { s.at c with hw := f (s.at c).hw } else s.at c := State.upd_at
@[simp] theorem State.updHw_dev  {f : Hw → Hw} : (s.updHw b f).dev = s.dev := rfl
@[simp] theorem State.updHw_now  {f : Hw → Hw} : (s.updHw b f).now = s.now := rfl
@[simp] theorem State.updHw_out  {f : Hw → Hw} : (s.updHw b f).out = s.out := rfl
@[simp] theorem State.updHw_freeCtr  {f : Hw → Hw} : (s.updHw b f).freeCtr = s.freeCtr := rfl
@[simp] theorem State.updHw_pending  {f : Hw → Hw} : (s.updHw b f).pending = s.pending := rfl

@[simp] theorem State.updSvc_at  {f : Svc → Svc} :
    (s.updSvc b f).at c = if b = c then { s.at c with svc := f (s.at c).svc } else s.at c := State.upd_at
@[simp] theorem State.updSvc_dev  {f : Svc → Svc} : (s.updSvc b f).dev = s.dev := rfl
@[simp] theorem State.updSvc_now  {f : Svc → Svc} : (s.updSvc b f).now = s.now := rfl
@[simp] theorem State.updSvc_out  {f : Svc → Svc} : (s.updSvc b f).out = s.out := rfl
@[simp] theorem State.updSvc_freeCtr  {f : Svc → Svc} : (s.updSvc b f).freeCtr = s.freeCtr := rfl
@[simp] theorem State.updSvc_pending  {f : Svc → Svc} : (s.updSvc b f).pending = s.pending := rfl

@[simp] theorem State.updCl_at  {f : Cl → Cl} :
    (s.updCl b f).at c = if b = c then { s.at c with cl := f (s.at c).cl } else s.at c := State.upd_at
@[simp] theorem State.updCl_dev  {f : Cl → Cl} : (s.updCl b f).dev = s.dev := rfl
@[simp] theorem State.updCl_now  {f : Cl → Cl} : (s.updCl b f).now = s.now := rfl
@[simp] theorem State.updCl_out  {f : Cl → Cl} : (s.updCl b f).out = s.out := rfl
@[simp] theorem State.updCl_freeCtr  {f : Cl → Cl} : (s.updCl b f).freeCtr = s.freeCtr := rfl
@[simp] theorem State.updCl_pending  {f : Cl → Cl} : (s.updCl b f).pending = s.pending := rfl

@[simp] theorem State.updPl_at  {f : Pilot → Pilot} :
    (s.updPl b f).at c = if b = c then { s.at c with pl := f (s.at c).pl } else s.at c := State.upd_at
@[simp] theorem State.updPl_dev  {f : Pilot → Pilot} : (s.updPl b f).dev = s.dev := rfl
@[simp] theorem State.updPl_now  {f : Pilot → Pilot} : (s.updPl b f).now = s.now := rfl
@[simp] theorem State.updPl_out  {f : Pilot → Pilot} : (s.updPl b f).out = s.out := rfl
@[simp] theorem State.updPl_freeCtr  {f : Pilot → Pilot} : (s.updPl b f).freeCtr = s.freeCtr := rfl
@[simp] theorem State.updPl_pending  {f : Pilot → Pilot} : (s.updPl b f).pending = s.pending := rfl

@[simp] theorem State.updDk_at  {f : Dk → Dk} :
    (s.updDk b f).at c = if b = c then { s.at c with dk := f (s.at c).dk } else s.at c := State.upd_at
@[simp] theorem State.updDk_dev  {f : Dk → Dk} : (s.updDk b f).dev = s.dev := rfl
@[simp] theorem State.updDk_now  {f : Dk → Dk} : (s.updDk b f).now = s.now := rfl
@[simp] theorem State.updDk_out  {f : Dk → Dk} : (s.updDk b f).out = s.out := rfl
@[simp] theorem State.updDk_freeCtr  {f : Dk → Dk} : (s.updDk b f).freeCtr = s.freeCtr := rfl
@[simp] theorem State.updDk_pending  {f : Dk → Dk} : (s.updDk b f).pending = s.pending := rfl

@[simp] theorem State.updTray_at  {f : Tray → Tray} :
    (s.updTray b f).at c = if b = c then { s.at c with tray := f (s.at c).tray } else s.at c := State.upd_at
@[simp] theorem State.updTray_dev  {f : Tray → Tray} : (s.updTray b f).dev = s.dev := rfl
@[simp] theorem State.updTray_now  {f : Tray → Tray} : (s.updTray b f).now = s.now := rfl
@[simp] theorem State.updTray_out  {f : Tray → Tray} : (s.updTray b f).out = s.out := rfl
@[simp] theorem State.updTray_freeCtr  {f : Tray → Tray} : (s.updTray b f).freeCtr = s.freeCtr := rfl
@[simp] theorem State.updTray_pending  {f : Tray → Tray} : (s.updTray b f).pending = s.pending := rfl

@[simp] theorem State.updDm_at {e : Nat} {f : Dma → Dma} :
    (s.updDm b e f).at c = if b = c then { s.at c with dm := vmod (s.at c).dm e f } else s.at c := State.upd_at
@[simp] theorem State.updDm_dev {e : Nat} {f : Dma → Dma} : (s.updDm b e f).dev = s.dev := rfl
@[simp] theorem State.updDm_now {e : Nat} {f : Dma → Dma} : (s.updDm b e f).now = s.now := rfl
@[simp] theorem State.updDm_out {e : Nat} {f : Dma → Dma} : (s.updDm b e f).out = s.out := rfl
@[simp] theorem State.updDm_freeCtr {e : Nat} {f : Dma → Dma} : (s.updDm b e f).freeCtr = s.freeCtr := rfl
@[simp] theorem State.updDm_pending {e : Nat} {f : Dma → Dma} : (s.updDm b e f).pending = s.pending := rfl

@[simp] theorem updSy_at  {f : Sy → Sy} :
    (updSy b f s).at c = if b = c then { s.at c with sy := f (s.at c).sy } else s.at c := State.upd_at
@[simp] theorem updSy_dev  {f : Sy → Sy} : (updSy b f s).dev = s.dev := rfl
@[simp] theorem updSy_now  {f : Sy → Sy} : (updSy b f s).now = s.now := rfl
@[simp] theorem updSy_out  {f : Sy → Sy} : (updSy b f s).out = s.out := rfl
@[simp] theorem updSy_freeCtr  {f : Sy → Sy} : (updSy b f s).freeCtr = s.freeCtr := rfl
@[simp] theorem updSy_pending  {f : Sy → Sy} : (updSy b f s).pending = s.pending := rfl

@[simp] theorem updRp_at  {f : Rp → Rp} :
    (updRp b f s).at c = if b = c then { s.at c with rp := f (s.at c).rp } else s.at c := State.upd_at
@[simp] theorem updRp_dev  {f : Rp → Rp} : (updRp b f s).dev = s.dev := rfl
@[simp] theorem updRp_now  {f : Rp → Rp} : (updRp b f s).now = s.now := rfl
@[simp] theorem updRp_out  {f : Rp → Rp} : (updRp b f s).out = s.out := rfl
@[simp] theorem updRp_freeCtr  {f : Rp → Rp} : (updRp b f s).freeCtr = s.freeCtr := rfl
@[simp] theorem updRp_pending  {f : Rp → Rp} : (updRp b f s).pending = s.pending := rfl

@[simp] theorem updTd_at  {f : Td → Td} :
    (updTd b f s).at c = if b = c then { s.at c with td := f (s.at c).td } else s.at c := State.upd_at
@[simp] theorem updTd_dev  {f : Td → Td} : (updTd b f s).dev = s.dev := rfl
@[simp] theorem updTd_now  {f : Td → Td} : (updTd b f s).now = s.now := rfl
@[simp] theorem updTd_out  {f : Td → Td} : (updTd b f s).out = s.out := rfl
@[simp] theorem updTd_freeCtr  {f : Td → Td} : (updTd b f s).freeCtr = s.freeCtr := rfl
@[simp] theorem updTd_pending  {f : Td → Td} : (updTd b f s).pending = s.pending := rfl

@[simp] theorem updTw_at  {f : Tw → Tw} :
    (updTw b f s).at c = if b = c then { s.at c with tw := f (s.at c).tw } else s.at c := State.upd_at
@[simp] theorem updTw_dev  {f : Tw → Tw} : (updTw b f s).dev = s.dev := rfl
@[simp] theorem updTw_now  {f : Tw → Tw} : (updTw b f s).now = s.now := rfl
@[simp] theorem updTw_out  {f : Tw → Tw} : (updTw b f s).out = s.out := rfl
@[simp] theorem updTw_freeCtr  {f : Tw → Tw} : (updTw b f s).freeCtr = s.freeCtr := rfl
@[simp] theorem updTw_pending  {f : Tw → Tw} : (updTw b f s).pending = s.pending := rfl

@[simp] theorem updUs_at  {f : Us → Us} :
    (updUs b f s).at c = if b = c then { s.at c with us := f (s.at c).us } else s.at c := State.upd_at
@[simp] theorem updUs_dev  {f : Us → Us} : (updUs b f s).dev = s.dev := rfl
@[simp] theorem updUs_now  {f : Us → Us} : (updUs b f s).now = s.now := rfl
@[simp] theorem updUs_out  {f : Us → Us} : (updUs b f s).out = s.out := rfl
@[simp] theorem updUs_freeCtr  {f : Us → Us} : (updUs b f s).freeCtr = s.freeCtr := rfl
@[simp] theorem updUs_pending  {f : Us → Us} : (updUs b f s).pending = s.pending := rfl

@[simp] theorem updAr_at  {f : Ar → Ar} :
    (updAr b f s).at c = if b = c then { s.at c with ar := f (s.at c).ar } else s.at c := State.upd_at
@[simp] theorem updAr_dev  {f : Ar → Ar} : (updAr b f s).dev = s.dev := rfl
@[simp] theorem updAr_now  {f : Ar → Ar} : (updAr b f s).now = s.now := rfl
@[simp] theorem updAr_out  {f : Ar → Ar} : (updAr b f s).out = s.out := rfl
@[simp] theorem updAr_freeCtr  {f : Ar → Ar} : (updAr b f s).freeCtr = s.freeCtr := rfl
@[simp] theorem updAr_pending  {f : Ar → Ar} : (updAr b f s).pending = s.pending := rfl

@[simp] theorem updPg_at  {f : Pg → Pg} :
    (updPg b f s).at c = if b = c then { s.at c with pg := f (s.at c).pg } else s.at c := State.upd_at
@[simp] theorem updPg_dev  {f : Pg → Pg} : (updPg b f s).dev = s.dev := rfl
@[simp] theorem updPg_now  {f : Pg → Pg} : (updPg b f s).now = s.now := rfl
@[simp] theorem updPg_out  {f : Pg → Pg} : (updPg b f s).out = s.out := rfl
@[simp] theorem updPg_freeCtr  {f : Pg → Pg} : (updPg b f s).freeCtr = s.freeCtr := rfl
@[simp] theorem updPg_pending  {f : Pg → Pg} : (updPg b f s).pending = s.pending := rfl

@[simp] theorem updCh_at  {f : Ch → Ch} :
    (updCh b f s).at c = if b = c then { s.at c with ch := f (s.at c).ch } else s.at c := State.upd_at
@[simp] theorem updCh_dev  {f : Ch → Ch} : (updCh b f s).dev = s.dev := rfl
@[simp] theorem updCh_now  {f : Ch → Ch} : (updCh b f s).now = s.now := rfl
@[simp] theorem updCh_out  {f : Ch → Ch} : (updCh b f s).out = s.out := rfl
@[simp] theorem updCh_freeCtr  {f : Ch → Ch} : (updCh b f s).freeCtr = s.freeCtr := rfl
@[simp] theorem updCh_pending  {f : Ch → Ch} : (updCh b f s).pending = s.pending := rfl

@[simp] theorem updSnap_at  {f : Sy → Sy} :
    (updSnap b f s).at c = if b = c then { s.at c with sy := f (s.at c).sy } else s.at c := State.upd_at
@[simp] theorem updSnap_dev  {f : Sy → Sy} : (updSnap b f s).dev = s.dev := rfl
@[simp] theorem updSnap_now  {f : Sy → Sy} : (updSnap b f s).now = s.now := rfl
@[simp] theorem updSnap_out  {f : Sy → Sy} : (updSnap b f s).out = s.out := rfl
@[simp] theorem updSnap_freeCtr  {f : Sy → Sy} : (updSnap b f s).freeCtr = s.freeCtr := rfl
@[simp] theorem updSnap_pending  {f : Sy → Sy} : (updSnap b f s).pending = s.pending := rfl

@[simp] theorem updHlB_at  {f : Hl → Hl} :
    (updHlB b f s).at c = if b = c then { s.at c with hl := f (s.at c).hl } else s.at c := State.upd_at
@[simp] theorem updHlB_dev  {f : Hl → Hl} : (updHlB b f s).dev = s.dev := rfl
@[simp] theorem updHlB_now  {f : Hl → Hl} : (updHlB b f s).now = s.now := rfl
@[simp] theorem updHlB_out  {f : Hl → Hl} : (updHlB b f s).out = s.out := rfl
@[simp] theorem updHlB_freeCtr  {f : Hl → Hl} : (updHlB b f s).freeCtr = s.freeCtr := rfl
@[simp] theorem updHlB_pending  {f : Hl → Hl} : (updHlB b f s).pending = s.pending := rfl

/-! The updates of a part of a block are updates of the block. -/

@[simp] theorem State.updRail_eq {r : Nat} {f : Rail → Rail} : s.updRail b r f =
    s.updRl b fun x => { x with rails := vmod x.rails r f } := rfl
@[simp] theorem State.updPart_eq {k : Nat} {f : Part → Part} : s.updPart b k f =
    s.updPw b fun x => { x with parts := vmod x.parts k f } := rfl
@[simp] theorem updArr_eq {k : Nat} {f : Arr → Arr} : updArr b k f s =
    updAr b (fun a => { a with arr := vmod a.arr k f }) s := rfl
@[simp] theorem updCool_eq {c : Nat} {f : Cool → Cool} : updCool b c f s =
    s.updCl b fun x => { x with ch := vmod x.ch c f } := rfl
@[simp] theorem updRope_eq {r : Nat} {f : Rope → Rope} : updRope b r f s =
    s.updCl b fun x => { x with rope := vmod x.rope r f } := rfl
@[simp] theorem updRx_eq  {f : HwRx → HwRx} : updRx b f s =
    s.updHw b fun h => { h with rx := f h.rx } := rfl
@[simp] theorem updTx_eq  {f : HwTx → HwTx} : updTx b f s =
    s.updHw b fun h => { h with tx := f h.tx } := rfl
@[simp] theorem updGraph_eq {g : Nat} {f : Graph → Graph} : updGraph b g f s =
    updPg b (fun p => { p with graph := vmod p.graph g f }) s := rfl
@[simp] theorem updAvs_eq {c : Nat} {f : Avs → Avs} : updAvs b c f s =
    s.updPw b fun p => { p with avs := vmod p.avs c f } := rfl
@[simp] theorem updPort_eq {p : Nat} {f : RingPort → RingPort} : updPort b p f s =
    updRp b (fun y => { y with ports := vmod y.ports p f }) s := rfl
@[simp] theorem twCount_eq  {f : TwCnt → TwCnt} : twCount b f s =
    updTw b (fun t => { t with cnt := f t.cnt }) s := rfl
@[simp] theorem updHl_eq  {f : TrayHl → TrayHl} : updHl b f s =
    s.updTray b fun t => { t with hl := f t.hl } := rfl
@[simp] theorem updDfu_eq  {f : Dfu → Dfu} : updDfu b f s =
    updUs b (fun u => { u with dfu := f u.dfu }) s := rfl

/-! Outputs, free values, the device state, the start of a command. -/

variable {o : Output}

@[simp] theorem State.emit_at : (s.emit o).at c = s.at c := rfl
@[simp] theorem State.emit_out : (s.emit o).out = s.out ++ [o] := rfl
@[simp] theorem State.emit_dev : (s.emit o).dev = s.dev := rfl
@[simp] theorem State.emit_now : (s.emit o).now = s.now := rfl
@[simp] theorem State.emit_freeCtr : (s.emit o).freeCtr = s.freeCtr := rfl
@[simp] theorem State.emit_pending : (s.emit o).pending = s.pending := rfl
@[simp] theorem State.begin_at : s.begin.at c = s.at c := rfl
@[simp] theorem State.begin_out : s.begin.out = [] := rfl
@[simp] theorem State.begin_dev : s.begin.dev = s.dev := rfl
@[simp] theorem State.begin_now : s.begin.now = s.now := rfl
@[simp] theorem State.begin_freeCtr : s.begin.freeCtr = s.freeCtr := rfl
@[simp] theorem State.begin_pending : s.begin.pending = s.pending := rfl
@[simp] theorem State.draw_fst : s.draw.1 = Config.freeValue s.freeCtr := rfl
@[simp] theorem State.draw_at : s.draw.2.at c = s.at c := rfl
@[simp] theorem State.draw_dev : s.draw.2.dev = s.dev := rfl
@[simp] theorem State.draw_now : s.draw.2.now = s.now := rfl
@[simp] theorem State.draw_out : s.draw.2.out = s.out := rfl
@[simp] theorem State.draw_freeCtr : s.draw.2.freeCtr = s.freeCtr + 1 := rfl
@[simp] theorem State.draw_pending : s.draw.2.pending = s.pending := rfl
@[simp] theorem updDev_at {f : Dev → Dev} : (updDev f s).at c = s.at c := rfl
@[simp] theorem updDev_dev {f : Dev → Dev} : (updDev f s).dev = f s.dev := rfl
@[simp] theorem updDev_now {f : Dev → Dev} : (updDev f s).now = s.now := rfl
@[simp] theorem updDev_out {f : Dev → Dev} : (updDev f s).out = s.out := rfl
@[simp] theorem updDev_freeCtr {f : Dev → Dev} : (updDev f s).freeCtr = s.freeCtr := rfl
@[simp] theorem updDev_pending {f : Dev → Dev} : (updDev f s).pending = s.pending := rfl
@[simp] theorem isHbr_eq : s.isHbr b = (s.at b).sy.isHarbour := rfl

/-! Vectors by number. -/

@[simp] theorem vget_vset_self {α : Type} [Inhabited α] {n i : Nat} {v : Vector α n} {x : α} (h : i < n) :
    vget (vset v i x) i = x := by simp [vget, vset, h]

@[simp] theorem vget_vset_ne {α : Type} [Inhabited α] {n i j : Nat} {v : Vector α n} {x : α} (h : i ≠ j) :
    vget (vset v i x) j = vget v j := by simp [vget, vset, h]

@[simp] theorem vget_vmod_self {α : Type} [Inhabited α] {n i : Nat} {v : Vector α n} {f : α → α} (h : i < n) :
    vget (vmod v i f) i = f (vget v i) := vget_vset_self h

@[simp] theorem vget_vmod_ne {α : Type} [Inhabited α] {n i j : Nat} {v : Vector α n} {f : α → α} (h : i ≠ j) :
    vget (vmod v i f) j = vget v j := vget_vset_ne h

end Sys2Proof.Machine
end

