-- ==== Sys2Proof/Laws/Touch.lean ====
section
/-! SUPPORT. What an operation can do to the state: the relation that two states agree outside some parts, and that the second
has canonical memories where the first has. -/
set_option linter.unusedTactic false
set_option linter.unreachableTactic false
namespace Sys2Proof.Machine

/-- What a change of a berth within the parts fs is. -/
structure TouchB (fs : List Piece) (x y : Berth) : Prop where
  all : ∀ f, f ∉ fs → f.sameB x y
  mem : x.memCanonical = true → y.memCanonical = true

/-- What a change of the state within the parts fs is. -/
structure Touch (fs : List Piece) (s t : State) : Prop where
  all : AgreeOff fs s t
  mem : s.memCanonical = true → t.memCanonical = true

variable {fs gs : List Piece} {s t u : State} {b : BId}

theorem subOf {hs : List Piece} (h : hs ⊆ gs) (sub : gs ⊆ fs) : hs ⊆ fs := List.Subset.trans h sub

theorem memOf {f : Piece} (sub : gs ⊆ fs) (h : f ∈ gs) : f ∈ fs := sub h

theorem memCanonical_at : s.memCanonical = true ↔ ∀ b, (s.at b).memCanonical = true := by
  unfold State.memCanonical allB
  constructor
  · intro h b
    simp only [List.all_cons, List.all_nil, Bool.and_true, Bool.and_eq_true] at h
    obtain ⟨h0, h1, h2, h3, h4, h5, h6, h7⟩ := h
    match b with
    | 0 => exact h0
    | 1 => exact h1
    | 2 => exact h2
    | 3 => exact h3
    | 4 => exact h4
    | 5 => exact h5
    | 6 => exact h6
    | 7 => exact h7
  · intro h; simp [h]

theorem Berth.memCanonical_iff {x : Berth} : x.memCanonical = true ↔
    memWf ramD none x.tcm = true ∧ memWf ramD none x.deck = true ∧ memWf flashD none x.flash = true := by
  simp [Berth.memCanonical, and_assoc]

theorem Berth.memCanonical_same {x y : Berth} (a : y.tcm = x.tcm) (c : y.deck = x.deck) (d : y.flash = x.flash)
    (h : x.memCanonical = true) : y.memCanonical = true := by
  rw [Berth.memCanonical_iff] at *; rw [a, c, d]; exact h

theorem Piece.sameB_refl {f : Piece} {x : Berth} : f.sameB x x := by cases f <;> simp [Piece.sameB]

theorem Piece.sameB_trans {f : Piece} {x y z : Berth} (h : f.sameB x y) (k : f.sameB y z) : f.sameB x z := by
  cases f <;> simp_all [Piece.sameB]

theorem Piece.same_of_berths {f : Piece} (o : t.out = s.out) (n : t.now = s.now) (r : t.freeCtr = s.freeCtr) (d : t.dev = s.dev)
    (h : ∀ c, f.sameB (s.at c) (t.at c)) : f.same s t := by
  cases f <;> first | exact o | exact n | exact r | exact d | exact h

theorem Piece.same_trans {f : Piece} (h : f.same s t) (k : f.same t u) : f.same s u := by
  cases f
  case out => exact Eq.trans k h
  case now => exact Eq.trans k h
  case freeCtr => exact Eq.trans k h
  case dev => exact Eq.trans k h
  all_goals exact fun c => Piece.sameB_trans (h c) (k c)

theorem Piece.same_refl {f : Piece} : f.same s s := by
  cases f <;> first | rfl | exact fun _ => Piece.sameB_refl

theorem Touch.refl : Touch fs s s := ⟨fun _ _ => Piece.same_refl, id⟩

theorem Touch.trans (h : Touch fs s t) (k : Touch fs t u) : Touch fs s u :=
  ⟨fun f nf => Piece.same_trans (h.all f nf) (k.all f nf), fun m => k.mem (h.mem m)⟩

theorem Touch.mono (sub : gs ⊆ fs) (h : Touch gs s t) : Touch fs s t := ⟨fun f nf => h.all f fun m => nf (sub m), h.mem⟩

theorem TouchB.refl {x : Berth} : TouchB fs x x := ⟨fun _ _ => Piece.sameB_refl, id⟩

/-- A change of berths alone. -/
theorem Touch.berths (o : t.out = s.out) (n : t.now = s.now) (r : t.freeCtr = s.freeCtr) (d : t.dev = s.dev)
    (h : ∀ c, TouchB fs (s.at c) (t.at c)) : Touch fs s t :=
  ⟨fun f nf => Piece.same_of_berths o n r d fun c => (h c).all f nf,
    fun m => memCanonical_at.mpr fun c => (h c).mem (memCanonical_at.mp m c)⟩

/-- A change of the parts of the whole machine alone. -/
theorem Touch.frame (h : Touch fs s t) (e : u.berths = t.berths) (o : Piece.out ∉ fs → u.out = t.out)
    (n : Piece.now ∉ fs → u.now = t.now) (r : Piece.freeCtr ∉ fs → u.freeCtr = t.freeCtr)
    (d : Piece.dev ∉ fs → u.dev = t.dev) : Touch fs s u := by
  have at' : ∀ c, u.at c = t.at c := fun c => by simp only [State.at, e]
  refine h.trans ⟨fun f nf => ?_, fun m => memCanonical_at.mpr fun c => (at' c).symm ▸ memCanonical_at.mp m c⟩
  cases f
  case out => exact o nf
  case now => exact n nf
  case freeCtr => exact r nf
  case dev => exact d nf
  all_goals exact fun c => by rw [at']; exact Piece.sameB_refl

/-- An update of one berth. -/
theorem Touch.upd {f : Berth → Berth} (h : Touch fs s t) (hf : ∀ x, TouchB fs x (f x)) : Touch fs s (t.upd b f) :=
  h.trans <| Touch.berths rfl rfl rfl rfl fun c => by
    rw [State.upd_at]
    split
    · exact hf _
    · exact TouchB.refl

/-- An update of a memory of a berth that keeps its canonical form. -/
theorem TouchB.setTcm {x : Berth} {m : Mem} (mem : Piece.tcm ∈ fs) (hm : memWf ramD none x.tcm = true → memWf ramD none m = true) :
    TouchB fs x { x with tcm := m } :=
  ⟨fun f nf => by cases f <;> first | exact absurd mem nf | exact True.intro | exact rfl, fun h => by
    rw [Berth.memCanonical_iff] at *; exact ⟨hm h.1, h.2⟩⟩

theorem TouchB.setDeck {x : Berth} {m : Mem} (mem : Piece.deck ∈ fs) (hm : memWf ramD none x.deck = true → memWf ramD none m = true) :
    TouchB fs x { x with deck := m } :=
  ⟨fun f nf => by cases f <;> first | exact absurd mem nf | exact True.intro | exact rfl, fun h => by
    rw [Berth.memCanonical_iff] at *; exact ⟨h.1, hm h.2.1, h.2.2⟩⟩

theorem TouchB.setFlash {x : Berth} {m : Mem} (mem : Piece.flash ∈ fs)
    (hm : memWf flashD none x.flash = true → memWf flashD none m = true) : TouchB fs x { x with flash := m } :=
  ⟨fun f nf => by cases f <;> first | exact absurd mem nf | exact True.intro | exact rfl, fun h => by
    rw [Berth.memCanonical_iff] at *; exact ⟨h.1, h.2.1, hm h.2.2⟩⟩

/-- The end of a pilot's reservation. -/
theorem TouchB.breakResv {x y : Berth} {o n : Nat} (mem : Piece.pl ∈ fs) (h : TouchB fs x y) : TouchB fs x (y.breakResv o n) := by
  unfold Berth.breakResv
  repeat' first | exact h | split
  exact ⟨fun f nf => Piece.sameB_trans (h.all f nf) (by cases f <;> first | exact absurd mem nf | exact True.intro | exact rfl), h.mem⟩

/-- A fold of steps that touch only fs. -/
theorem Touch.foldl {α : Type} {xs : List α} {f : State → α → State} (hf : ∀ u x, Touch fs s u → Touch fs s (f u x))
    (h : Touch fs s t) : Touch fs s (xs.foldl f t) := by
  induction xs generalizing t with
  | nil => exact h
  | cons x xs ih => exact ih (hf t x h)

theorem Touch.iter {α : Type} {xs : List α} {f : α → State → State} (hf : ∀ x u, Touch fs s u → Touch fs s (f x u))
    (h : Touch fs s t) : Touch fs s (iter xs f t) := Touch.foldl (fun u x => hf x u) h

theorem Touch.updAll {f : BId → Berth → Berth} (hf : ∀ b x, TouchB fs x (f b x)) (h : Touch fs s t) :
    Touch fs s (t.updAll f) := Touch.foldl (fun _ b k => k.upd (hf b)) h

/-- A fold that carries a value beside the state. -/
theorem Touch.foldl2 {α β : Type} {xs : List α} {f : β × State → α → β × State} {a : β × State}
    (hf : ∀ u x, Touch fs s u.2 → Touch fs s (f u x).2) (h : Touch fs s a.2) : Touch fs s (xs.foldl f a).2 := by
  induction xs generalizing a with
  | nil => exact h
  | cons x xs ih => exact ih (hf a x h)

/-- What agreement gives, part by part. -/
theorem Touch.at_sy (h : Touch fs s t) (n : Piece.sy ∉ fs) (c : BId) : (t.at c).sy = (s.at c).sy := h.all .sy n c
theorem Touch.at_rp (h : Touch fs s t) (n : Piece.rp ∉ fs) (c : BId) : (t.at c).rp = (s.at c).rp := h.all .rp n c
theorem Touch.at_td (h : Touch fs s t) (n : Piece.td ∉ fs) (c : BId) : (t.at c).td = (s.at c).td := h.all .td n c
theorem Touch.at_ch (h : Touch fs s t) (n : Piece.ch ∉ fs) (c : BId) : (t.at c).ch = (s.at c).ch := h.all .ch n c
theorem Touch.at_rl (h : Touch fs s t) (n : Piece.rl ∉ fs) (c : BId) : (t.at c).rl = (s.at c).rl := h.all .rl n c
theorem Touch.at_log (h : Touch fs s t) (n : Piece.log ∉ fs) (c : BId) : (t.at c).log = (s.at c).log := h.all .log n c
theorem Touch.at_pw (h : Touch fs s t) (n : Piece.pw ∉ fs) (c : BId) : (t.at c).pw = (s.at c).pw := h.all .pw n c
theorem Touch.at_hw (h : Touch fs s t) (n : Piece.hw ∉ fs) (c : BId) : (t.at c).hw = (s.at c).hw := h.all .hw n c
theorem Touch.at_svc (h : Touch fs s t) (n : Piece.svc ∉ fs) (c : BId) : (t.at c).svc = (s.at c).svc := h.all .svc n c
theorem Touch.at_cl (h : Touch fs s t) (n : Piece.cl ∉ fs) (c : BId) : (t.at c).cl = (s.at c).cl := h.all .cl n c
theorem Touch.at_pl (h : Touch fs s t) (n : Piece.pl ∉ fs) (c : BId) : (t.at c).pl = (s.at c).pl := h.all .pl n c
theorem Touch.at_dk (h : Touch fs s t) (n : Piece.dk ∉ fs) (c : BId) : (t.at c).dk = (s.at c).dk := h.all .dk n c
theorem Touch.at_dm (h : Touch fs s t) (n : Piece.dm ∉ fs) (c : BId) : (t.at c).dm = (s.at c).dm := h.all .dm n c
theorem Touch.at_tw (h : Touch fs s t) (n : Piece.tw ∉ fs) (c : BId) : (t.at c).tw = (s.at c).tw := h.all .tw n c
theorem Touch.at_us (h : Touch fs s t) (n : Piece.us ∉ fs) (c : BId) : (t.at c).us = (s.at c).us := h.all .us n c
theorem Touch.at_ar (h : Touch fs s t) (n : Piece.ar ∉ fs) (c : BId) : (t.at c).ar = (s.at c).ar := h.all .ar n c
theorem Touch.at_pg (h : Touch fs s t) (n : Piece.pg ∉ fs) (c : BId) : (t.at c).pg = (s.at c).pg := h.all .pg n c
theorem Touch.at_hl (h : Touch fs s t) (n : Piece.hl ∉ fs) (c : BId) : (t.at c).hl = (s.at c).hl := h.all .hl n c
theorem Touch.at_tray (h : Touch fs s t) (n : Piece.tray ∉ fs) (c : BId) : (t.at c).tray = (s.at c).tray := h.all .tray n c
theorem Touch.at_tcm (h : Touch fs s t) (n : Piece.tcm ∉ fs) (c : BId) : (t.at c).tcm = (s.at c).tcm := h.all .tcm n c
theorem Touch.at_deck (h : Touch fs s t) (n : Piece.deck ∉ fs) (c : BId) : (t.at c).deck = (s.at c).deck := h.all .deck n c
theorem Touch.at_flash (h : Touch fs s t) (n : Piece.flash ∉ fs) (c : BId) : (t.at c).flash = (s.at c).flash := h.all .flash n c
theorem Touch.at_dev (h : Touch fs s t) (n : Piece.dev ∉ fs) : t.dev = s.dev := h.all .dev n
theorem Touch.at_out (h : Touch fs s t) (n : Piece.out ∉ fs) : t.out = s.out := h.all .out n
theorem Touch.at_now (h : Touch fs s t) (n : Piece.now ∉ fs) : t.now = s.now := h.all .now n
theorem Touch.at_freeCtr (h : Touch fs s t) (n : Piece.freeCtr ∉ fs) : t.freeCtr = s.freeCtr := h.all .freeCtr n

end Sys2Proof.Machine
end

