-- ==== Sys2Proof/Laws/Touch/Ops.lean ====
section
/-! SUPPORT. What each operation of Machine/Ops.lean can touch. -/
set_option linter.unusedTactic false
set_option linter.unreachableTactic false
namespace Sys2Proof.Machine

theorem State.updRl_touch {fs : List Piece} {s0 : State} {s : State} {b : BId} {f : Rl → Rl} (sub : [.rl] ⊆ fs) (h0
    : Touch fs s0 s) : Touch fs s0 (State.updRl s b f) := by
  unfold State.updRl
  try dsimp only
  repeat' first
    | with_reducible assumption | intro _ | split | with_reducible refine Touch.upd ?_ ?_
    | (refine TouchB.mk (fun f nf => ?_) (Berth.memCanonical_same rfl rfl rfl); cases f <;> first | exact absurd (sub (by decide)) nf | exact True.intro | exact rfl)
    | dsimp only

theorem State.updLog_touch {fs : List Piece} {s0 : State} {s : State} {b : BId} {f : LogSt → LogSt} (sub : [.log] ⊆ fs) (h0
    : Touch fs s0 s) : Touch fs s0 (State.updLog s b f) := by
  unfold State.updLog
  try dsimp only
  repeat' first
    | with_reducible assumption | intro _ | split | with_reducible refine Touch.upd ?_ ?_
    | (refine TouchB.mk (fun f nf => ?_) (Berth.memCanonical_same rfl rfl rfl); cases f <;> first | exact absurd (sub (by decide)) nf | exact True.intro | exact rfl)
    | dsimp only

theorem State.updPw_touch {fs : List Piece} {s0 : State} {s : State} {b : BId} {f : Pw → Pw} (sub : [.pw] ⊆ fs) (h0
    : Touch fs s0 s) : Touch fs s0 (State.updPw s b f) := by
  unfold State.updPw
  try dsimp only
  repeat' first
    | with_reducible assumption | intro _ | split | with_reducible refine Touch.upd ?_ ?_
    | (refine TouchB.mk (fun f nf => ?_) (Berth.memCanonical_same rfl rfl rfl); cases f <;> first | exact absurd (sub (by decide)) nf | exact True.intro | exact rfl)
    | dsimp only

theorem State.updHw_touch {fs : List Piece} {s0 : State} {s : State} {b : BId} {f : Hw → Hw} (sub : [.hw] ⊆ fs) (h0
    : Touch fs s0 s) : Touch fs s0 (State.updHw s b f) := by
  unfold State.updHw
  try dsimp only
  repeat' first
    | with_reducible assumption | intro _ | split | with_reducible refine Touch.upd ?_ ?_
    | (refine TouchB.mk (fun f nf => ?_) (Berth.memCanonical_same rfl rfl rfl); cases f <;> first | exact absurd (sub (by decide)) nf | exact True.intro | exact rfl)
    | dsimp only

theorem State.updSvc_touch {fs : List Piece} {s0 : State} {s : State} {b : BId} {f : Svc → Svc} (sub : [.svc] ⊆ fs) (h0
    : Touch fs s0 s) : Touch fs s0 (State.updSvc s b f) := by
  unfold State.updSvc
  try dsimp only
  repeat' first
    | with_reducible assumption | intro _ | split | with_reducible refine Touch.upd ?_ ?_
    | (refine TouchB.mk (fun f nf => ?_) (Berth.memCanonical_same rfl rfl rfl); cases f <;> first | exact absurd (sub (by decide)) nf | exact True.intro | exact rfl)
    | dsimp only

theorem State.updCl_touch {fs : List Piece} {s0 : State} {s : State} {b : BId} {f : Cl → Cl} (sub : [.cl] ⊆ fs) (h0
    : Touch fs s0 s) : Touch fs s0 (State.updCl s b f) := by
  unfold State.updCl
  try dsimp only
  repeat' first
    | with_reducible assumption | intro _ | split | with_reducible refine Touch.upd ?_ ?_
    | (refine TouchB.mk (fun f nf => ?_) (Berth.memCanonical_same rfl rfl rfl); cases f <;> first | exact absurd (sub (by decide)) nf | exact True.intro | exact rfl)
    | dsimp only

theorem State.updPl_touch {fs : List Piece} {s0 : State} {s : State} {b : BId} {f : Pilot → Pilot} (sub : [.pl] ⊆ fs) (h0
    : Touch fs s0 s) : Touch fs s0 (State.updPl s b f) := by
  unfold State.updPl
  try dsimp only
  repeat' first
    | with_reducible assumption | intro _ | split | with_reducible refine Touch.upd ?_ ?_
    | (refine TouchB.mk (fun f nf => ?_) (Berth.memCanonical_same rfl rfl rfl); cases f <;> first | exact absurd (sub (by decide)) nf | exact True.intro | exact rfl)
    | dsimp only

theorem State.updDk_touch {fs : List Piece} {s0 : State} {s : State} {b : BId} {f : Dk → Dk} (sub : [.dk] ⊆ fs) (h0
    : Touch fs s0 s) : Touch fs s0 (State.updDk s b f) := by
  unfold State.updDk
  try dsimp only
  repeat' first
    | with_reducible assumption | intro _ | split | with_reducible refine Touch.upd ?_ ?_
    | (refine TouchB.mk (fun f nf => ?_) (Berth.memCanonical_same rfl rfl rfl); cases f <;> first | exact absurd (sub (by decide)) nf | exact True.intro | exact rfl)
    | dsimp only

theorem State.updDm_touch {fs : List Piece} {s0 : State} {s : State} {b : BId} {e_ : Nat} {f : Dma → Dma} (sub : [.dm] ⊆ fs)
    (h0 : Touch fs s0 s) : Touch fs s0 (State.updDm s b e_ f) := by
  unfold State.updDm
  try dsimp only
  repeat' first
    | with_reducible assumption | intro _ | split | with_reducible refine Touch.upd ?_ ?_
    | (refine TouchB.mk (fun f nf => ?_) (Berth.memCanonical_same rfl rfl rfl); cases f <;> first | exact absurd (sub (by decide)) nf | exact True.intro | exact rfl)
    | dsimp only

theorem State.updRail_touch {fs : List Piece} {s0 : State} {s : State} {b : BId} {r : Nat} {f : Rail → Rail}
    (sub : [.rl] ⊆ fs) (h0 : Touch fs s0 s) : Touch fs s0 (State.updRail s b r f) := by
  unfold State.updRail
  try dsimp only
  repeat' first
    | with_reducible assumption | with_reducible refine State.updRl_touch (subOf (by decide) sub) ?_ | intro _
    | split | dsimp only

theorem State.updPart_touch {fs : List Piece} {s0 : State} {s : State} {b : BId} {k : Nat} {f : Part → Part}
    (sub : [.pw] ⊆ fs) (h0 : Touch fs s0 s) : Touch fs s0 (State.updPart s b k f) := by
  unfold State.updPart
  try dsimp only
  repeat' first
    | with_reducible assumption | with_reducible refine State.updPw_touch (subOf (by decide) sub) ?_ | intro _
    | split | dsimp only

theorem State.tcmWrite_touch {fs : List Piece} {s0 : State} {s : State} {b : BId} {o : Nat} {bs : List Byte}
    (sub : [.pl, .tcm] ⊆ fs) (h0 : Touch fs s0 s) : Touch fs s0 (State.tcmWrite s b o bs) := by
  unfold State.tcmWrite
  try dsimp only
  repeat' first
    | with_reducible assumption | with_reducible refine TouchB.breakResv (memOf sub (by decide)) ?_
    | with_reducible refine TouchB.setTcm (memOf sub (by decide)) ?_ | with_reducible exact flashProgram_wf
    | with_reducible exact flashErase_wf | with_reducible exact memWrite_wf | with_reducible exact memFilter_wf
    | (intro h; with_reducible exact memFold_wf h fun _ _ k => memSet_wf k rfl) | intro _ | split
    | with_reducible refine Touch.upd ?_ ?_
    | (refine TouchB.mk (fun f nf => ?_) (Berth.memCanonical_same rfl rfl rfl); cases f <;> first | exact absurd (sub (by decide)) nf | exact True.intro | exact rfl)
    | dsimp only

theorem State.deckWrite_touch {fs : List Piece} {s0 : State} {s : State} {b : BId} {o : Nat} {bs : List Byte}
    (sub : [.pl, .deck] ⊆ fs) (h0 : Touch fs s0 s) : Touch fs s0 (State.deckWrite s b o bs) := by
  unfold State.deckWrite
  try dsimp only
  repeat' first
    | with_reducible assumption | with_reducible refine TouchB.breakResv (memOf sub (by decide)) ?_
    | with_reducible refine TouchB.setDeck (memOf sub (by decide)) ?_ | with_reducible exact flashProgram_wf
    | with_reducible exact flashErase_wf | with_reducible exact memWrite_wf | with_reducible exact memFilter_wf
    | (intro h; with_reducible exact memFold_wf h fun _ _ k => memSet_wf k rfl) | intro _ | split
    | with_reducible refine Touch.upd ?_ ?_
    | (refine TouchB.mk (fun f nf => ?_) (Berth.memCanonical_same rfl rfl rfl); cases f <;> first | exact absurd (sub (by decide)) nf | exact True.intro | exact rfl)
    | dsimp only

theorem State.emit_touch {fs : List Piece} {s0 : State} {s : State} {o : Output} (sub : [.out] ⊆ fs) (h0 : Touch fs s0 s)
    : Touch fs s0 (State.emit s o) := by
  unfold State.emit
  try dsimp only
  repeat' first
    | with_reducible assumption | intro _ | split
    | (refine Touch.frame (by with_reducible assumption) ?_ ?_ ?_ ?_ ?_ <;> first | with_reducible rfl | (intro nf; first | with_reducible rfl | exact absurd (sub (by decide)) nf))
    | dsimp only

theorem State.begin_touch {fs : List Piece} {s0 : State} {s : State} (sub : [.out] ⊆ fs) (h0 : Touch fs s0 s)
    : Touch fs s0 (State.begin s) := by
  unfold State.begin
  try dsimp only
  repeat' first
    | with_reducible assumption | intro _ | split
    | (refine Touch.frame (by with_reducible assumption) ?_ ?_ ?_ ?_ ?_ <;> first | with_reducible rfl | (intro nf; first | with_reducible rfl | exact absurd (sub (by decide)) nf))
    | dsimp only

theorem State.draw_touch {fs : List Piece} {s0 : State} {s : State} (sub : [.freeCtr] ⊆ fs) (h0 : Touch fs s0 s)
    : Touch fs s0 (State.draw s).2 := by
  unfold State.draw
  try dsimp only
  repeat' first
    | with_reducible assumption | intro _ | split
    | (refine Touch.frame (by with_reducible assumption) ?_ ?_ ?_ ?_ ?_ <;> first | with_reducible rfl | (intro nf; first | with_reducible rfl | exact absurd (sub (by decide)) nf))
    | dsimp only

theorem State.draw_touch_eq {fs : List Piece} {s0 : State} {s : State} {r0} {t : State} (sub : [.freeCtr] ⊆ fs)
    (eq_ : State.draw s = (r0, t)) (h0 : Touch fs s0 s) : Touch fs s0 t := by
  have := @State.draw_touch fs s0 s sub  h0
  rw [eq_] at this; exact this

theorem State.updTray_touch {fs : List Piece} {s0 : State} {s : State} {h : BId} {f : Tray → Tray} (sub : [.tray] ⊆ fs) (h0
    : Touch fs s0 s) : Touch fs s0 (State.updTray s h f) := by
  unfold State.updTray
  try dsimp only
  repeat' first
    | with_reducible assumption | intro _ | split | with_reducible refine Touch.upd ?_ ?_
    | (refine TouchB.mk (fun f nf => ?_) (Berth.memCanonical_same rfl rfl rfl); cases f <;> first | exact absurd (sub (by decide)) nf | exact True.intro | exact rfl)
    | dsimp only

theorem State.onTray_touch {fs : List Piece} {s0 : State} {s : State} {f : Tray → Tray} (sub : [.tray] ⊆ fs) (h0
    : Touch fs s0 s) : Touch fs s0 (State.onTray s f) := by
  unfold State.onTray
  try dsimp only
  repeat' first
    | with_reducible assumption | with_reducible refine State.updTray_touch (subOf (by decide) sub) ?_ | intro _
    | split | dsimp only
end Sys2Proof.Machine
end

