-- ==== Sys2Proof/Laws/Touch/Topology.lean ====
section
/-! SUPPORT. What each operation of Machine/Topology.lean can touch. -/
set_option linter.unusedTactic false
set_option linter.unreachableTactic false
namespace Sys2Proof.Machine

theorem updRp_touch {fs : List Piece} {s0 : State} {b : BId} {f : Rp → Rp} {s : State} (sub : [.rp] ⊆ fs) (h0 : Touch fs s0 s)
    : Touch fs s0 (updRp b f s) := by
  unfold updRp
  try dsimp only
  repeat' first
    | with_reducible assumption | intro _ | split | with_reducible refine Touch.upd ?_ ?_
    | (refine TouchB.mk (fun f nf => ?_) (Berth.memCanonical_same rfl rfl rfl); cases f <;> first | exact absurd (sub (by decide)) nf | exact True.intro | exact rfl)
    | dsimp only

theorem updPort_touch {fs : List Piece} {s0 : State} {b : BId} {p : Nat} {f : RingPort → RingPort} {s : State}
    (sub : [.rp] ⊆ fs) (h0 : Touch fs s0 s) : Touch fs s0 (updPort b p f s) := by
  unfold updPort
  try dsimp only
  repeat' first
    | with_reducible assumption | with_reducible refine updRp_touch (subOf (by decide) sub) ?_ | intro _ | split
    | dsimp only

theorem sendFlits_touch {fs : List Piece} {s0 : State} {src : BId} {dst : Option BId} {fs_ : List Flit} {x : BId} {s : State}
    (sub : [.rp] ⊆ fs) (h0 : Touch fs s0 s) : Touch fs s0 (sendFlits src dst fs_ x s) := by
  unfold sendFlits
  try dsimp only
  repeat' first
    | with_reducible assumption | with_reducible refine updPort_touch (subOf (by decide) sub) ?_
    | with_reducible refine Touch.iter ?_ ?_ | intro _ | split | dsimp only

theorem ringPut_touch {fs : List Piece} {s0 : State} {src : BId} {dst : Option BId} {m : Msg} {s : State}
    (sub : [.out, .rp] ⊆ fs) (h0 : Touch fs s0 s) : Touch fs s0 (ringPut src dst m s) := by
  unfold ringPut
  try dsimp only
  repeat' first
    | with_reducible assumption | with_reducible refine State.emit_touch (subOf (by decide) sub) ?_
    | with_reducible refine sendFlits_touch (subOf (by decide) sub) ?_ | intro _ | split | dsimp only

theorem ringSend_touch {fs : List Piece} {s0 : State} {src : BId} {dst : Option BId} {m : Msg} {s : State}
    (sub : [.out, .rp] ⊆ fs) (h0 : Touch fs s0 s) : Touch fs s0 (ringSend src dst m s) := by
  unfold ringSend
  try dsimp only
  repeat' first
    | with_reducible assumption | with_reducible refine updRp_touch (subOf (by decide) sub) ?_
    | with_reducible refine ringPut_touch (subOf (by decide) sub) ?_ | intro _ | split | dsimp only

theorem ringRelease_touch {fs : List Piece} {s0 : State} {b : BId} {s : State} (sub : [.out, .rp] ⊆ fs) (h0 : Touch fs s0 s)
    : Touch fs s0 (ringRelease b s) := by
  unfold ringRelease
  try dsimp only
  repeat' first
    | with_reducible assumption | with_reducible refine ringPut_touch (subOf (by decide) sub) ?_
    | with_reducible refine updRp_touch (subOf (by decide) sub) ?_ | with_reducible refine Touch.foldl ?_ ?_
    | with_reducible refine Touch.foldl2 ?_ ?_ | intro _ | split | dsimp only

theorem accessSend_touch {fs : List Piece} {s0 : State} {kind : Nat} {a : BId} {b : BId} {s : State} (sub : [.rp] ⊆ fs) (h0
    : Touch fs s0 s) : Touch fs s0 (accessSend kind a b s) := by
  unfold accessSend
  try dsimp only
  repeat' first
    | with_reducible assumption | with_reducible refine sendFlits_touch (subOf (by decide) sub) ?_ | intro _
    | split | dsimp only

theorem dataSend_touch {fs : List Piece} {s0 : State} {n : Nat} {a : BId} {b : BId} {s : State} (sub : [.rp] ⊆ fs) (h0
    : Touch fs s0 s) : Touch fs s0 (dataSend n a b s) := by
  unfold dataSend
  try dsimp only
  repeat' first
    | with_reducible assumption | with_reducible refine sendFlits_touch (subOf (by decide) sub) ?_ | intro _
    | split | dsimp only

theorem accessFlits_touch {fs : List Piece} {s0 : State} {a : BId} {b : BId} {s : State} (sub : [.rp] ⊆ fs) (h0
    : Touch fs s0 s) : Touch fs s0 (accessFlits a b s) := by
  unfold accessFlits
  try dsimp only
  repeat' first
    | with_reducible assumption | with_reducible refine accessSend_touch (subOf (by decide) sub) ?_ | intro _
    | split | dsimp only
end Sys2Proof.Machine
end

