-- ==== Sys2Proof/Laws/Touch/Deck.lean ====
section
/-! SUPPORT. What each operation of Machine/Deck.lean can touch. -/
set_option linter.unusedTactic false
set_option linter.unreachableTactic false
namespace Sys2Proof.Machine

theorem takeFrom_touch {fs : List Piece} {s0 : State} {s : State} {n : BId} {h : Hand} {draw : Bool}
    (sub : [.freeCtr, .dk] ⊆ fs) (h0 : Touch fs s0 s) : Touch fs s0 (takeFrom s n h draw).2 := by
  unfold takeFrom
  try dsimp only
  repeat' first
    | with_reducible assumption | with_reducible refine State.draw_touch (subOf (by decide) sub) ?_
    | with_reducible refine State.updDk_touch (subOf (by decide) sub) ?_ | intro _ | split
    | with_reducible refine State.draw_touch_eq (subOf (by decide) sub) (by with_reducible assumption) ?_
    | dsimp only

theorem takeFrom_touch_eq {fs : List Piece} {s0 : State} {s : State} {n : BId} {h : Hand} {draw : Bool} {r0} {t : State}
    (sub : [.freeCtr, .dk] ⊆ fs) (eq_ : takeFrom s n h draw = (r0, t)) (h0 : Touch fs s0 s) : Touch fs s0 t := by
  have := @takeFrom_touch fs s0 s n h draw sub  h0
  rw [eq_] at this; exact this

theorem deckAlloc_touch {fs : List Piece} {s0 : State} {b : BId} {cls : Nat} {any : Bool} {s : State}
    (sub : [.freeCtr, .dk] ⊆ fs) (h0 : Touch fs s0 s) : Touch fs s0 (deckAlloc b cls any s).2 := by
  unfold deckAlloc
  try dsimp only
  repeat' first
    | with_reducible assumption | with_reducible refine takeFrom_touch (subOf (by decide) sub) ?_ | intro _ | split
    | with_reducible refine takeFrom_touch_eq (subOf (by decide) sub) (by with_reducible assumption) ?_
    | dsimp only

theorem deckAlloc_touch_eq {fs : List Piece} {s0 : State} {b : BId} {cls : Nat} {any : Bool} {s : State} {r0} {t : State}
    (sub : [.freeCtr, .dk] ⊆ fs) (eq_ : deckAlloc b cls any s = (r0, t)) (h0 : Touch fs s0 s) : Touch fs s0 t := by
  have := @deckAlloc_touch fs s0 b cls any s sub  h0
  rw [eq_] at this; exact this

theorem deckRelease_touch {fs : List Piece} {s0 : State} {g : Nat} {s : State} (sub : [.dk] ⊆ fs) (h0 : Touch fs s0 s)
    : Touch fs s0 (deckRelease g s) := by
  unfold deckRelease
  try dsimp only
  repeat' first
    | with_reducible assumption | with_reducible refine State.updDk_touch (subOf (by decide) sub) ?_ | intro _
    | split | dsimp only

theorem releaseHand_touch {fs : List Piece} {s0 : State} {h : Hand} {s : State} (sub : [.dk] ⊆ fs) (h0 : Touch fs s0 s)
    : Touch fs s0 (releaseHand h s) := by
  unfold releaseHand
  try dsimp only
  repeat' first
    | with_reducible assumption | with_reducible refine State.updDk_touch (subOf (by decide) sub) ?_
    | with_reducible refine Touch.iter ?_ ?_ | intro _ | split | dsimp only

theorem setQuotas_touch {fs : List Piece} {s0 : State} {s : State} (sub : [.dk] ⊆ fs) (h0 : Touch fs s0 s)
    : Touch fs s0 (setQuotas s) := by
  unfold setQuotas
  try dsimp only
  repeat' first
    | with_reducible assumption | with_reducible refine State.updDk_touch (subOf (by decide) sub) ?_
    | with_reducible refine Touch.iter ?_ ?_ | with_reducible refine Touch.foldl ?_ ?_
    | with_reducible refine Touch.foldl2 ?_ ?_ | intro _ | split | dsimp only

theorem deckLeave_touch {fs : List Piece} {s0 : State} {b : BId} {s : State} (sub : [.dk] ⊆ fs) (h0 : Touch fs s0 s)
    : Touch fs s0 (deckLeave b s) := by
  unfold deckLeave
  try dsimp only
  repeat' first
    | with_reducible assumption | with_reducible refine State.updDk_touch (subOf (by decide) sub) ?_
    | with_reducible refine releaseHand_touch (subOf (by decide) sub) ?_
    | with_reducible refine setQuotas_touch (subOf (by decide) sub) ?_ | with_reducible refine Touch.iter ?_ ?_
    | intro _ | split | dsimp only

theorem bufWrite_touch {fs : List Piece} {s0 : State} {g : Nat} {bs : List Byte} {s : State} (sub : [.pl, .deck] ⊆ fs) (h0
    : Touch fs s0 s) : Touch fs s0 (bufWrite g bs s) := by
  unfold bufWrite
  try dsimp only
  repeat' first
    | with_reducible assumption | with_reducible refine State.deckWrite_touch (subOf (by decide) sub) ?_ | intro _
    | split | dsimp only

theorem allocRead_touch {fs : List Piece} {s0 : State} {b : BId} {req : ReqId} {any : Bool} {s : State}
    (sub : [.freeCtr, .dk] ⊆ fs) (h0 : Touch fs s0 s) : Touch fs s0 (allocRead b req any s).2 := by
  unfold allocRead
  try dsimp only
  repeat' first
    | with_reducible assumption | with_reducible refine deckAlloc_touch (subOf (by decide) sub) ?_
    | with_reducible refine State.updDk_touch (subOf (by decide) sub) ?_ | intro _ | split
    | with_reducible refine deckAlloc_touch_eq (subOf (by decide) sub) (by with_reducible assumption) ?_
    | dsimp only

theorem allocRead_touch_eq {fs : List Piece} {s0 : State} {b : BId} {req : ReqId} {any : Bool} {s : State} {r0} {t : State}
    (sub : [.freeCtr, .dk] ⊆ fs) (eq_ : allocRead b req any s = (r0, t)) (h0 : Touch fs s0 s) : Touch fs s0 t := by
  have := @allocRead_touch fs s0 b req any s sub  h0
  rw [eq_] at this; exact this

theorem freeWrite_touch {fs : List Piece} {s0 : State} {b : BId} {req : ReqId} {g : Nat} {s : State} (sub : [.dk] ⊆ fs) (h0
    : Touch fs s0 s) : Touch fs s0 (freeWrite b req g s) := by
  unfold freeWrite
  try dsimp only
  repeat' first
    | with_reducible assumption | with_reducible refine deckRelease_touch (subOf (by decide) sub) ?_
    | with_reducible refine State.updDk_touch (subOf (by decide) sub) ?_ | intro _ | split | dsimp only
end Sys2Proof.Machine
end

