-- ==== Sys2Proof/Laws/Touch/Report.lean ====
section
/-! SUPPORT. What each operation of Machine/Report.lean can touch. -/
set_option linter.unusedTactic false
set_option linter.unreachableTactic false
namespace Sys2Proof.Machine

theorem irq_touch {fs : List Piece} {s0 : State} {b : BId} {bit : Nat} {s : State} (sub : [.pl] ⊆ fs) (h0 : Touch fs s0 s)
    : Touch fs s0 (irq b bit s) := by
  unfold irq
  try dsimp only
  repeat' first
    | with_reducible assumption | with_reducible refine State.updPl_touch (subOf (by decide) sub) ?_ | intro _
    | split | dsimp only

theorem allocMany_touch {fs : List Piece} {s0 : State} {b : BId} {cls : Nat} {any : Bool} {y3 : Nat} {y4 : State}
    (sub : [.freeCtr, .dk] ⊆ fs) (h0 : Touch fs s0 y4) : Touch fs s0 (allocMany b cls any y3 y4).2 := by
  induction y3 generalizing cls y4
  case zero => unfold allocMany; exact h0
  rename_i kk ih
  have ihp : ∀ {cls : Nat} {y4 : State} {r} {u : State}, allocMany b cls any kk y4 = (r, u) → Touch fs s0 y4 → Touch fs s0 u := by
    intro cls y4 r u eq h; have := @ih cls y4 h; rw [eq] at this; exact this
  unfold allocMany
  try dsimp only
  repeat' first
    | with_reducible assumption | (with_reducible apply ih)
    | with_reducible refine deckAlloc_touch (subOf (by decide) sub) ?_
    | with_reducible refine deckRelease_touch (subOf (by decide) sub) ?_ | intro _ | split
    | with_reducible refine deckAlloc_touch_eq (subOf (by decide) sub) (by with_reducible assumption) ?_
    | (with_reducible refine ihp (by with_reducible assumption) ?_) | dsimp only

theorem allocMany_touch_eq {fs : List Piece} {s0 : State} {b : BId} {cls : Nat} {any : Bool} {y3 : Nat} {y4 : State} {r0}
    {t : State} (sub : [.freeCtr, .dk] ⊆ fs) (eq_ : allocMany b cls any y3 y4 = (r0, t)) (h0 : Touch fs s0 y4)
    : Touch fs s0 t := by
  have := @allocMany_touch fs s0 b cls any y3 y4 sub  h0
  rw [eq_] at this; exact this

theorem telPut_touch {fs : List Piece} {s0 : State} {h : BId} {kind : Nat} {payload : List Byte} {s : State}
    (sub : [.freeCtr, .dk, .us] ⊆ fs) (h0 : Touch fs s0 s) : Touch fs s0 (telPut h kind payload s) := by
  unfold telPut
  try dsimp only
  repeat' first
    | with_reducible assumption | with_reducible refine allocMany_touch (subOf (by decide) sub) ?_ | intro _
    | split | with_reducible refine allocMany_touch_eq (subOf (by decide) sub) (by with_reducible assumption) ?_
    | with_reducible refine Touch.upd ?_ ?_
    | (refine TouchB.mk (fun f nf => ?_) (Berth.memCanonical_same rfl rfl rfl); cases f <;> first | exact absurd (sub (by decide)) nf | exact True.intro | exact rfl)
    | dsimp only

theorem telLossFirst_touch {fs : List Piece} {s0 : State} {h : BId} {s : State} (sub : [.freeCtr, .dk, .us] ⊆ fs) (h0
    : Touch fs s0 s) : Touch fs s0 (telLossFirst h s) := by
  unfold telLossFirst
  try dsimp only
  repeat' first
    | with_reducible assumption | with_reducible refine allocMany_touch (subOf (by decide) sub) ?_ | intro _
    | split | with_reducible refine allocMany_touch_eq (subOf (by decide) sub) (by with_reducible assumption) ?_
    | with_reducible refine Touch.upd ?_ ?_
    | (refine TouchB.mk (fun f nf => ?_) (Berth.memCanonical_same rfl rfl rfl); cases f <;> first | exact absurd (sub (by decide)) nf | exact True.intro | exact rfl)
    | dsimp only

theorem telemetry_touch {fs : List Piece} {s0 : State} {kind : Nat} {payload : List Byte} {s : State}
    (sub : [.freeCtr, .dk, .us] ⊆ fs) (h0 : Touch fs s0 s) : Touch fs s0 (telemetry kind payload s) := by
  unfold telemetry
  try dsimp only
  repeat' first
    | with_reducible assumption | with_reducible refine telPut_touch (subOf (by decide) sub) ?_
    | with_reducible refine telLossFirst_touch (subOf (by decide) sub) ?_ | intro _ | split | dsimp only

theorem attnAt_touch {fs : List Piece} {s0 : State} {h : BId} {bit : Nat} {s : State} (sub : [.freeCtr, .dk, .tw, .us] ⊆ fs)
    (h0 : Touch fs s0 s) : Touch fs s0 (attnAt h bit s) := by
  unfold attnAt
  try dsimp only
  repeat' first
    | with_reducible assumption | with_reducible refine telemetry_touch (subOf (by decide) sub) ?_ | intro _
    | split | with_reducible refine Touch.upd ?_ ?_
    | (refine TouchB.mk (fun f nf => ?_) (Berth.memCanonical_same rfl rfl rfl); cases f <;> first | exact absurd (sub (by decide)) nf | exact True.intro | exact rfl)
    | dsimp only

theorem attn_touch {fs : List Piece} {s0 : State} {bit : Nat} {s : State} (sub : [.freeCtr, .dk, .tw, .us] ⊆ fs) (h0
    : Touch fs s0 s) : Touch fs s0 (attn bit s) := by
  unfold attn
  try dsimp only
  repeat' first
    | with_reducible assumption | with_reducible refine attnAt_touch (subOf (by decide) sub) ?_ | intro _ | split
    | dsimp only

theorem logOpenSector_touch {fs : List Piece} {s0 : State} {h : BId} {off : Nat} {gen : Nat} {s : State} (sub : [.log] ⊆ fs)
    (h0 : Touch fs s0 s) : Touch fs s0 (logOpenSector h off gen s) := by
  unfold logOpenSector
  try dsimp only
  repeat' first
    | with_reducible assumption | with_reducible refine State.updLog_touch (subOf (by decide) sub) ?_ | intro _
    | split | dsimp only

theorem logStartOp_touch {fs : List Piece} {s0 : State} {h : BId} {s : State} (sub : [.log] ⊆ fs) (h0 : Touch fs s0 s)
    : Touch fs s0 (logStartOp h s) := by
  unfold logStartOp
  try dsimp only
  repeat' first
    | with_reducible assumption | with_reducible refine State.updLog_touch (subOf (by decide) sub) ?_ | intro _
    | split | dsimp only

theorem logPump_touch {fs : List Piece} {s0 : State} {h : BId} {s : State} (sub : [.log] ⊆ fs) (h0 : Touch fs s0 s)
    : Touch fs s0 (logPump h s) := by
  unfold logPump
  try dsimp only
  repeat' first
    | with_reducible assumption | with_reducible refine logStartOp_touch (subOf (by decide) sub) ?_
    | with_reducible refine logOpenSector_touch (subOf (by decide) sub) ?_
    | with_reducible refine State.updLog_touch (subOf (by decide) sub) ?_ | intro _ | split | dsimp only

theorem logTake_touch {fs : List Piece} {s0 : State} {h : BId} {own : Bool} {recs : List LogRec} {buf : Option Nat}
    {s : State} (sub : [.freeCtr, .log, .dk, .us] ⊆ fs) (h0 : Touch fs s0 s) : Touch fs s0 (logTake h own recs buf s) := by
  unfold logTake
  try dsimp only
  repeat' first
    | with_reducible assumption | with_reducible refine State.updLog_touch (subOf (by decide) sub) ?_
    | with_reducible refine logPump_touch (subOf (by decide) sub) ?_
    | with_reducible refine telemetry_touch (subOf (by decide) sub) ?_ | with_reducible refine Touch.iter ?_ ?_
    | intro _ | split | dsimp only

theorem logSend_touch {fs : List Piece} {s0 : State} {b : BId} {s : State} (sub : [.out, .freeCtr, .rp, .log, .dk, .us] ⊆ fs)
    (h0 : Touch fs s0 s) : Touch fs s0 (logSend b s) := by
  unfold logSend
  try dsimp only
  repeat' first
    | with_reducible assumption | with_reducible refine State.updLog_touch (subOf (by decide) sub) ?_
    | with_reducible refine logTake_touch (subOf (by decide) sub) ?_
    | with_reducible refine ringSend_touch (subOf (by decide) sub) ?_
    | with_reducible refine deckRelease_touch (subOf (by decide) sub) ?_ | intro _ | split | dsimp only

theorem logPush_touch {fs : List Piece} {s0 : State} {b : BId} {ty : Nat} {p0 : Word} {p1 : Word} {p2 : Word} {s : State}
    (sub : [.out, .freeCtr, .rp, .log, .dk, .us] ⊆ fs) (h0 : Touch fs s0 s) : Touch fs s0 (logPush b ty p0 p1 p2 s) := by
  unfold logPush
  try dsimp only
  repeat' first
    | with_reducible assumption | with_reducible refine State.updLog_touch (subOf (by decide) sub) ?_
    | with_reducible refine logSend_touch (subOf (by decide) sub) ?_ | intro _ | split | dsimp only

theorem logOpen_touch {fs : List Piece} {s0 : State} {b : BId} {s : State} (sub : [.freeCtr, .log, .dk] ⊆ fs) (h0
    : Touch fs s0 s) : Touch fs s0 (logOpen b s).2 := by
  unfold logOpen
  try dsimp only
  repeat' first
    | with_reducible assumption | with_reducible refine deckAlloc_touch (subOf (by decide) sub) ?_
    | with_reducible refine State.updLog_touch (subOf (by decide) sub) ?_ | intro _ | split
    | with_reducible refine deckAlloc_touch_eq (subOf (by decide) sub) (by with_reducible assumption) ?_
    | dsimp only

theorem logOpen_touch_eq {fs : List Piece} {s0 : State} {b : BId} {s : State} {r0} {t : State}
    (sub : [.freeCtr, .log, .dk] ⊆ fs) (eq_ : logOpen b s = (r0, t)) (h0 : Touch fs s0 s) : Touch fs s0 t := by
  have := @logOpen_touch fs s0 b s sub  h0
  rw [eq_] at this; exact this

theorem logDropOne_touch {fs : List Piece} {s0 : State} {b : BId} {s : State} (sub : [.log] ⊆ fs) (h0 : Touch fs s0 s)
    : Touch fs s0 (logDropOne b s) := by
  unfold logDropOne
  try dsimp only
  repeat' first
    | with_reducible assumption | with_reducible refine State.updLog_touch (subOf (by decide) sub) ?_ | intro _
    | split | dsimp only

theorem logLoss_touch {fs : List Piece} {s0 : State} {b : BId} {s : State} (sub : [.out, .freeCtr, .rp, .log, .dk, .us] ⊆ fs)
    (h0 : Touch fs s0 s) : Touch fs s0 (logLoss b s) := by
  unfold logLoss
  try dsimp only
  repeat' first
    | with_reducible assumption | with_reducible refine logPush_touch (subOf (by decide) sub) ?_
    | with_reducible refine State.updLog_touch (subOf (by decide) sub) ?_ | intro _ | split | dsimp only

theorem logRec_touch {fs : List Piece} {s0 : State} {b : BId} {ty : Nat} {p0 : Word} {p1 : Word} {p2 : Word} {s : State}
    (sub : [.out, .freeCtr, .rp, .log, .dk, .us] ⊆ fs) (h0 : Touch fs s0 s) : Touch fs s0 (logRec b ty p0 p1 p2 s) := by
  unfold logRec
  try dsimp only
  repeat' first
    | with_reducible assumption | with_reducible refine logOpen_touch (subOf (by decide) sub) ?_
    | with_reducible refine logDropOne_touch (subOf (by decide) sub) ?_
    | with_reducible refine logLoss_touch (subOf (by decide) sub) ?_
    | with_reducible refine logPush_touch (subOf (by decide) sub) ?_ | intro _ | split
    | with_reducible refine logOpen_touch_eq (subOf (by decide) sub) (by with_reducible assumption) ?_ | dsimp only

theorem notice_touch {fs : List Piece} {s0 : State} {b : BId} {kind : Nat} {index : Nat} {rule : Nat} {events : Nat}
    {s : State} (sub : [.out, .rp] ⊆ fs) (h0 : Touch fs s0 s) : Touch fs s0 (notice b kind index rule events s) := by
  unfold notice
  try dsimp only
  repeat' first
    | with_reducible assumption | with_reducible refine ringSend_touch (subOf (by decide) sub) ?_ | intro _ | split
    | dsimp only
end Sys2Proof.Machine
end

