-- ==== Sys2Proof/Laws/Touch/HwOps.lean ====
section
/-! SUPPORT. What each operation of Machine/HwOps.lean can touch. -/
set_option linter.unusedTactic false
set_option linter.unreachableTactic false
namespace Sys2Proof.Machine

theorem issue_touch {fs : List Piece} {s0 : State} {b : BId} {o : Order} {s : State} (sub : [.hw] ⊆ fs) (h0 : Touch fs s0 s)
    : Touch fs s0 (issue b o s).2 := by
  unfold issue
  try dsimp only
  repeat' first
    | with_reducible assumption | with_reducible refine State.updHw_touch (subOf (by decide) sub) ?_ | intro _
    | split | dsimp only

theorem issue_touch_eq {fs : List Piece} {s0 : State} {b : BId} {o : Order} {s : State} {r0} {t : State} (sub : [.hw] ⊆ fs)
    (eq_ : issue b o s = (r0, t)) (h0 : Touch fs s0 s) : Touch fs s0 t := by
  have := @issue_touch fs s0 b o s sub  h0
  rw [eq_] at this; exact this

theorem issueHw_touch {fs : List Piece} {s0 : State} {b : BId} {o : Order} {s : State} (sub : [.hw] ⊆ fs) (h0 : Touch fs s0 s)
    : Touch fs s0 (issueHw b o s) := by
  unfold issueHw
  try dsimp only
  repeat' first
    | with_reducible assumption | with_reducible refine issue_touch (subOf (by decide) sub) ?_
    | with_reducible refine State.updHw_touch (subOf (by decide) sub) ?_ | intro _ | split
    | with_reducible refine issue_touch_eq (subOf (by decide) sub) (by with_reducible assumption) ?_ | dsimp only

theorem issueWaiting_touch {fs : List Piece} {s0 : State} {b : BId} {s : State} (sub : [.hw] ⊆ fs) (h0 : Touch fs s0 s)
    : Touch fs s0 (issueWaiting b s) := by
  unfold issueWaiting
  try dsimp only
  repeat' first
    | with_reducible assumption | with_reducible refine issueHw_touch (subOf (by decide) sub) ?_
    | with_reducible refine State.updHw_touch (subOf (by decide) sub) ?_ | with_reducible refine Touch.iter ?_ ?_
    | intro _ | split | dsimp only

theorem freeSvcBuf_touch {fs : List Piece} {s0 : State} {o : Order} {s : State} (sub : [.dk] ⊆ fs) (h0 : Touch fs s0 s)
    : Touch fs s0 (freeSvcBuf o s) := by
  unfold freeSvcBuf
  try dsimp only
  repeat' first
    | with_reducible assumption | with_reducible refine deckRelease_touch (subOf (by decide) sub) ?_ | intro _
    | split | dsimp only

theorem freeTag_touch {fs : List Piece} {s0 : State} {b : BId} {tag : Nat} {s : State} (sub : [.hw] ⊆ fs) (h0 : Touch fs s0 s)
    : Touch fs s0 (freeTag b tag s) := by
  unfold freeTag
  try dsimp only
  repeat' first
    | with_reducible assumption | with_reducible refine State.updHw_touch (subOf (by decide) sub) ?_ | intro _
    | split | dsimp only

theorem pushCpl_touch {fs : List Piece} {s0 : State} {b : BId} {c : Cpl} {s : State} (sub : [.hw, .pl] ⊆ fs) (h0
    : Touch fs s0 s) : Touch fs s0 (pushCpl b c s) := by
  unfold pushCpl
  try dsimp only
  repeat' first
    | with_reducible assumption | with_reducible refine irq_touch (subOf (by decide) sub) ?_
    | with_reducible refine State.updHw_touch (subOf (by decide) sub) ?_ | intro _ | split | dsimp only

theorem logLink_touch {fs : List Piece} {s0 : State} {b : BId} {old : LinkState} {new : LinkState} {cause : Nat}
    {failed : Bool} {s : State} (sub : [.out, .freeCtr, .rp, .log, .dk, .us] ⊆ fs) (h0 : Touch fs s0 s)
    : Touch fs s0 (logLink b old new cause failed s) := by
  unfold logLink
  try dsimp only
  repeat' first
    | with_reducible assumption | with_reducible refine logRec_touch (subOf (by decide) sub) ?_ | intro _ | split
    | dsimp only

theorem setLink_touch {fs : List Piece} {s0 : State} {b : BId} {new : LinkState} {cause : Nat} {s : State}
    (sub : [.out, .freeCtr, .rp, .log, .hw, .pl, .dk, .us] ⊆ fs) (h0 : Touch fs s0 s) : Touch fs s0 (setLink b new cause s)
    := by
  unfold setLink
  try dsimp only
  repeat' first
    | with_reducible assumption | with_reducible refine State.updHw_touch (subOf (by decide) sub) ?_
    | with_reducible refine irq_touch (subOf (by decide) sub) ?_
    | with_reducible refine logLink_touch (subOf (by decide) sub) ?_ | intro _ | split | dsimp only
end Sys2Proof.Machine
end

