-- ==== Sys2Proof/Laws/Touch/DmaOps.lean ====
section
/-! SUPPORT. What each operation of Machine/DmaOps.lean can touch. -/
set_option linter.unusedTactic false
set_option linter.unreachableTactic false
namespace Sys2Proof.Machine

theorem dmaHalt_touch {fs : List Piece} {s0 : State} {b : BId} {e_ : Nat} {code : Nat} {acc : Nat} {status : Nat} {s : State}
    (sub : [.out, .freeCtr, .rp, .log, .pl, .dk, .dm, .us] ⊆ fs) (h0 : Touch fs s0 s)
    : Touch fs s0 (dmaHalt b e_ code acc status s) := by
  unfold dmaHalt
  try dsimp only
  repeat' first
    | with_reducible assumption | with_reducible refine State.updDm_touch (subOf (by decide) sub) ?_
    | with_reducible refine irq_touch (subOf (by decide) sub) ?_
    | with_reducible refine logRec_touch (subOf (by decide) sub) ?_
    | with_reducible refine notice_touch (subOf (by decide) sub) ?_ | intro _ | split | dsimp only

theorem dmaFault_touch {fs : List Piece} {s0 : State} {b : BId} {e_ : Nat} {code : Nat} {acc : Nat} {status : Nat} {s : State}
    (sub : [.out, .freeCtr, .rp, .log, .pl, .dk, .dm, .us] ⊆ fs) (h0 : Touch fs s0 s)
    : Touch fs s0 (dmaFault b e_ code acc status s) := by
  unfold dmaFault
  try dsimp only
  repeat' first
    | with_reducible assumption | with_reducible refine dmaHalt_touch (subOf (by decide) sub) ?_
    | with_reducible refine State.updDm_touch (subOf (by decide) sub) ?_ | intro _ | split | dsimp only

theorem localWrite_touch {fs : List Piece} {s0 : State} {b : BId} {r : DmaRegion} {bs : List Byte} {s : State}
    (sub : [.pl, .tcm, .deck] ⊆ fs) (h0 : Touch fs s0 s) : Touch fs s0 (localWrite b r bs s) := by
  unfold localWrite
  try dsimp only
  repeat' first
    | with_reducible assumption | with_reducible refine State.tcmWrite_touch (subOf (by decide) sub) ?_
    | with_reducible refine State.deckWrite_touch (subOf (by decide) sub) ?_ | intro _ | split | dsimp only

theorem dmaIssue_touch {fs : List Piece} {s0 : State} {b : BId} {e_ : Nat} {s : State}
    (sub : [.out, .freeCtr, .rp, .log, .hw, .pl, .dk, .dm, .us, .deck] ⊆ fs) (h0 : Touch fs s0 s)
    : Touch fs s0 (dmaIssue b e_ s).2 := by
  unfold dmaIssue
  try dsimp only
  repeat' first
    | with_reducible assumption | with_reducible refine dmaFault_touch (subOf (by decide) sub) ?_
    | with_reducible refine deckAlloc_touch (subOf (by decide) sub) ?_
    | with_reducible refine bufWrite_touch (subOf (by decide) sub) ?_
    | with_reducible refine issue_touch (subOf (by decide) sub) ?_
    | with_reducible refine State.updDm_touch (subOf (by decide) sub) ?_
    | with_reducible refine deckRelease_touch (subOf (by decide) sub) ?_ | intro _ | split
    | with_reducible refine deckAlloc_touch_eq (subOf (by decide) sub) (by with_reducible assumption) ?_
    | with_reducible refine issue_touch_eq (subOf (by decide) sub) (by with_reducible assumption) ?_ | dsimp only

theorem dmaIssue_touch_eq {fs : List Piece} {s0 : State} {b : BId} {e_ : Nat} {s : State} {r0} {t : State}
    (sub : [.out, .freeCtr, .rp, .log, .hw, .pl, .dk, .dm, .us, .deck] ⊆ fs) (eq_ : dmaIssue b e_ s = (r0, t)) (h0
    : Touch fs s0 s) : Touch fs s0 t := by
  have := @dmaIssue_touch fs s0 b e_ s sub  h0
  rw [eq_] at this; exact this

theorem dmaPump_touch {fs : List Piece} {s0 : State} {b : BId} {e_ : Nat} {y2 : Nat} {y3 : State}
    (sub : [.out, .freeCtr, .rp, .log, .hw, .pl, .dk, .dm, .us, .deck] ⊆ fs) (h0 : Touch fs s0 y3)
    : Touch fs s0 (dmaPump b e_ y2 y3) := by
  induction y2 generalizing e_ y3
  case zero => unfold dmaPump; exact h0
  rename_i kk ih
  unfold dmaPump
  try dsimp only
  repeat' first
    | with_reducible assumption | (with_reducible apply ih)
    | with_reducible refine dmaIssue_touch (subOf (by decide) sub) ?_ | intro _ | split
    | with_reducible refine dmaIssue_touch_eq (subOf (by decide) sub) (by with_reducible assumption) ?_
    | dsimp only

theorem dmaStart_touch {fs : List Piece} {s0 : State} {b : BId} {e_ : Nat} {i : Nat} {s : State}
    (sub : [.out, .freeCtr, .rp, .log, .hw, .pl, .dk, .dm, .us, .deck] ⊆ fs) (h0 : Touch fs s0 s)
    : Touch fs s0 (dmaStart b e_ i s) := by
  unfold dmaStart
  try dsimp only
  repeat' first
    | with_reducible assumption | with_reducible refine State.updDm_touch (subOf (by decide) sub) ?_
    | with_reducible refine dmaFault_touch (subOf (by decide) sub) ?_
    | with_reducible refine dmaPump_touch (subOf (by decide) sub) ?_ | intro _ | split | dsimp only

theorem dmaResumeSlot_touch {fs : List Piece} {s0 : State} {b : BId} {e_ : Nat} {i : Nat} {s : State}
    (sub : [.out, .freeCtr, .rp, .log, .hw, .pl, .dk, .dm, .us, .deck] ⊆ fs) (h0 : Touch fs s0 s)
    : Touch fs s0 (dmaResumeSlot b e_ i s) := by
  unfold dmaResumeSlot
  try dsimp only
  repeat' first
    | with_reducible assumption | with_reducible refine State.updDm_touch (subOf (by decide) sub) ?_
    | with_reducible refine dmaFault_touch (subOf (by decide) sub) ?_
    | with_reducible refine dmaPump_touch (subOf (by decide) sub) ?_ | intro _ | split | dsimp only

theorem dmaNext_touch {fs : List Piece} {s0 : State} {b : BId} {e_ : Nat} {s : State}
    (sub : [.out, .freeCtr, .rp, .log, .hw, .pl, .dk, .dm, .us, .deck] ⊆ fs) (h0 : Touch fs s0 s)
    : Touch fs s0 (dmaNext b e_ s) := by
  unfold dmaNext
  try dsimp only
  repeat' first
    | with_reducible assumption | with_reducible refine dmaStart_touch (subOf (by decide) sub) ?_
    | with_reducible refine State.updDm_touch (subOf (by decide) sub) ?_
    | with_reducible refine dmaResumeSlot_touch (subOf (by decide) sub) ?_ | intro _ | split | dsimp only

theorem dmaDone_touch {fs : List Piece} {s0 : State} {b : BId} {e_ : Nat} {s : State}
    (sub : [.out, .freeCtr, .rp, .log, .hw, .pl, .dk, .dm, .us, .deck] ⊆ fs) (h0 : Touch fs s0 s)
    : Touch fs s0 (dmaDone b e_ s) := by
  unfold dmaDone
  try dsimp only
  repeat' first
    | with_reducible assumption | with_reducible refine State.updDm_touch (subOf (by decide) sub) ?_
    | with_reducible refine irq_touch (subOf (by decide) sub) ?_
    | with_reducible refine dmaNext_touch (subOf (by decide) sub) ?_
    | with_reducible refine dmaHalt_touch (subOf (by decide) sub) ?_ | intro _ | split | dsimp only

theorem dmaBoundary_touch {fs : List Piece} {s0 : State} {b : BId} {e_ : Nat} {s : State}
    (sub : [.out, .freeCtr, .rp, .log, .hw, .pl, .dk, .dm, .us, .deck] ⊆ fs) (h0 : Touch fs s0 s)
    : Touch fs s0 (dmaBoundary b e_ s).2 := by
  unfold dmaBoundary
  try dsimp only
  repeat' first
    | with_reducible assumption | with_reducible refine dmaHalt_touch (subOf (by decide) sub) ?_
    | with_reducible refine dmaNext_touch (subOf (by decide) sub) ?_
    | with_reducible refine State.updDm_touch (subOf (by decide) sub) ?_ | intro _ | split | dsimp only

theorem dmaBoundary_touch_eq {fs : List Piece} {s0 : State} {b : BId} {e_ : Nat} {s : State} {r0} {t : State}
    (sub : [.out, .freeCtr, .rp, .log, .hw, .pl, .dk, .dm, .us, .deck] ⊆ fs) (eq_ : dmaBoundary b e_ s = (r0, t)) (h0
    : Touch fs s0 s) : Touch fs s0 t := by
  have := @dmaBoundary_touch fs s0 b e_ s sub  h0
  rw [eq_] at this; exact this

theorem dmaOrderDone_touch {fs : List Piece} {s0 : State} {b : BId} {e_ : Nat} {tag : Nat} {status : Nat} {data : List Byte}
    {s : State} (sub : [.out, .freeCtr, .rp, .log, .hw, .pl, .dk, .dm, .us, .tcm, .deck] ⊆ fs) (h0 : Touch fs s0 s)
    : Touch fs s0 (dmaOrderDone b e_ tag status data s) := by
  unfold dmaOrderDone
  try dsimp only
  repeat' first
    | with_reducible assumption | with_reducible refine State.updDm_touch (subOf (by decide) sub) ?_
    | with_reducible refine localWrite_touch (subOf (by decide) sub) ?_
    | with_reducible refine deckRelease_touch (subOf (by decide) sub) ?_
    | with_reducible refine dmaPump_touch (subOf (by decide) sub) ?_
    | with_reducible refine dmaHalt_touch (subOf (by decide) sub) ?_
    | with_reducible refine dmaDone_touch (subOf (by decide) sub) ?_
    | with_reducible refine dmaBoundary_touch (subOf (by decide) sub) ?_ | intro _ | split
    | with_reducible refine dmaBoundary_touch_eq (subOf (by decide) sub) (by with_reducible assumption) ?_
    | dsimp only
end Sys2Proof.Machine
end

