-- ==== Sys2Proof/Laws/Touch/Link.lean ====
section
/-! SUPPORT. What each operation of Machine/Link.lean can touch. -/
set_option linter.unusedTactic false
set_option linter.unreachableTactic false
namespace Sys2Proof.Machine

theorem startTraining_touch {fs : List Piece} {s0 : State} {b : BId} {s : State} (sub : [.hw] ⊆ fs) (h0 : Touch fs s0 s)
    : Touch fs s0 (startTraining b s) := by
  unfold startTraining
  try dsimp only
  repeat' first
    | with_reducible assumption | with_reducible refine State.updHw_touch (subOf (by decide) sub) ?_ | intro _
    | split | dsimp only

theorem hwRetrain_touch {fs : List Piece} {s0 : State} {b : BId} {cause : Nat} {s : State}
    (sub : [.out, .freeCtr, .rp, .log, .hw, .pl, .dk, .us] ⊆ fs) (h0 : Touch fs s0 s) : Touch fs s0 (hwRetrain b cause s)
    := by
  unfold hwRetrain
  try dsimp only
  repeat' first
    | with_reducible assumption | with_reducible refine State.updHw_touch (subOf (by decide) sub) ?_
    | with_reducible refine startTraining_touch (subOf (by decide) sub) ?_
    | with_reducible refine setLink_touch (subOf (by decide) sub) ?_ | intro _ | split | dsimp only

theorem linkDownTag_touch {fs : List Piece} {s0 : State} {b : BId} {tag : Nat} {s : State}
    (sub : [.out, .freeCtr, .rp, .log, .hw, .pl, .dk, .dm, .us, .tcm, .deck] ⊆ fs) (h0 : Touch fs s0 s)
    : Touch fs s0 (linkDownTag b tag s) := by
  unfold linkDownTag
  try dsimp only
  repeat' first
    | with_reducible assumption | with_reducible refine pushCpl_touch (subOf (by decide) sub) ?_
    | with_reducible refine State.updHw_touch (subOf (by decide) sub) ?_
    | with_reducible refine dmaOrderDone_touch (subOf (by decide) sub) ?_
    | with_reducible refine freeTag_touch (subOf (by decide) sub) ?_
    | with_reducible refine freeSvcBuf_touch (subOf (by decide) sub) ?_ | intro _ | split | dsimp only

theorem linkStop_touch {fs : List Piece} {s0 : State} {b : BId} {dst : LinkState} {s : State}
    (sub : [.out, .freeCtr, .rp, .log, .hw, .svc, .pl, .dk, .dm, .us, .tcm, .deck] ⊆ fs) (h0 : Touch fs s0 s)
    : Touch fs s0 (linkStop b dst s) := by
  unfold linkStop
  try dsimp only
  repeat' first
    | with_reducible assumption | with_reducible refine setLink_touch (subOf (by decide) sub) ?_
    | with_reducible refine linkDownTag_touch (subOf (by decide) sub) ?_
    | with_reducible refine State.updHw_touch (subOf (by decide) sub) ?_
    | with_reducible refine State.updSvc_touch (subOf (by decide) sub) ?_
    | with_reducible refine freeSvcBuf_touch (subOf (by decide) sub) ?_ | with_reducible refine Touch.iter ?_ ?_
    | intro _ | split | dsimp only

theorem linkStart_touch {fs : List Piece} {s0 : State} {b : BId} {s : State}
    (sub : [.out, .freeCtr, .rp, .log, .hw, .pl, .dk, .us] ⊆ fs) (h0 : Touch fs s0 s) : Touch fs s0 (linkStart b s) := by
  unfold linkStart
  try dsimp only
  repeat' first
    | with_reducible assumption | with_reducible refine startTraining_touch (subOf (by decide) sub) ?_
    | with_reducible refine setLink_touch (subOf (by decide) sub) ?_ | intro _ | split | dsimp only
end Sys2Proof.Machine
end

