-- ==== Sys2Proof/Laws/Touch/PowerOps.lean ====
section
/-! SUPPORT. What each operation of Machine/PowerOps.lean can touch. -/
set_option linter.unusedTactic false
set_option linter.unreachableTactic false
namespace Sys2Proof.Machine

theorem thrSet_touch {fs : List Piece} {s0 : State} {b : BId} {i : Nat} {low : Nat} {high : Nat} {s : State}
    (sub : [.rl] ⊆ fs) (h0 : Touch fs s0 s) : Touch fs s0 (thrSet b i low high s) := by
  unfold thrSet
  try dsimp only
  repeat' first
    | with_reducible assumption | with_reducible refine State.updRl_touch (subOf (by decide) sub) ?_ | intro _
    | split | dsimp only

theorem avsSend_touch {fs : List Piece} {s0 : State} {b : BId} {c : Nat} {s : State} (sub : [.out, .pw] ⊆ fs) (h0
    : Touch fs s0 s) : Touch fs s0 (avsSend b c s) := by
  unfold avsSend
  try dsimp only
  repeat' first
    | with_reducible assumption | with_reducible refine State.emit_touch (subOf (by decide) sub) ?_
    | with_reducible refine State.updPw_touch (subOf (by decide) sub) ?_ | intro _ | split | dsimp only

theorem avsWrite_touch {fs : List Piece} {s0 : State} {b : BId} {r : Nat} {mv : Nat} {powerUp : Bool} {tries : Nat}
    {s : State} (sub : [.out, .pw] ⊆ fs) (h0 : Touch fs s0 s) : Touch fs s0 (avsWrite b r mv powerUp tries s) := by
  unfold avsWrite
  try dsimp only
  repeat' first
    | with_reducible assumption | with_reducible refine State.updPw_touch (subOf (by decide) sub) ?_
    | with_reducible refine State.updPart_touch (subOf (by decide) sub) ?_
    | with_reducible refine avsSend_touch (subOf (by decide) sub) ?_ | intro _ | split | dsimp only

theorem sendFreq_touch {fs : List Piece} {s0 : State} {b : BId} {k : Nat} {st : Nat} {s : State} (sub : [.hw] ⊆ fs) (h0
    : Touch fs s0 s) : Touch fs s0 (sendFreq b k st s) := by
  unfold sendFreq
  try dsimp only
  repeat' first
    | with_reducible assumption | with_reducible refine State.updHw_touch (subOf (by decide) sub) ?_
    | with_reducible refine issueHw_touch (subOf (by decide) sub) ?_ | intro _ | split | dsimp only

theorem track_touch {fs : List Piece} {s0 : State} {b : BId} {k : Nat} {old : Nat} {t_ : Nat} {s : State} (sub : [.rl] ⊆ fs)
    (h0 : Touch fs s0 s) : Touch fs s0 (track b k old t_ s) := by
  unfold track
  try dsimp only
  repeat' first
    | with_reducible assumption | with_reducible refine thrSet_touch (subOf (by decide) sub) ?_ | intro _ | split
    | dsimp only

theorem writeTarget_touch {fs : List Piece} {s0 : State} {b : BId} {k : Nat} {t_ : Nat} {raise : Option Nat} {s : State}
    (sub : [.out, .rl, .pw] ⊆ fs) (h0 : Touch fs s0 s) : Touch fs s0 (writeTarget b k t_ raise s) := by
  unfold writeTarget
  try dsimp only
  repeat' first
    | with_reducible assumption | with_reducible refine State.updPart_touch (subOf (by decide) sub) ?_
    | with_reducible refine State.updRl_touch (subOf (by decide) sub) ?_
    | with_reducible refine avsWrite_touch (subOf (by decide) sub) ?_
    | with_reducible refine track_touch (subOf (by decide) sub) ?_ | intro _ | split | dsimp only

theorem retarget_touch {fs : List Piece} {s0 : State} {b : BId} {k : Nat} {s : State} (sub : [.out, .rl, .pw] ⊆ fs) (h0
    : Touch fs s0 s) : Touch fs s0 (retarget b k s) := by
  unfold retarget
  try dsimp only
  repeat' first
    | with_reducible assumption | with_reducible refine State.updPart_touch (subOf (by decide) sub) ?_
    | with_reducible refine writeTarget_touch (subOf (by decide) sub) ?_ | intro _ | split | dsimp only

theorem orderStep_touch {fs : List Piece} {s0 : State} {b : BId} {k : Nat} {st : Nat} {s : State} (sub : [.pw, .hw] ⊆ fs) (h0
    : Touch fs s0 s) : Touch fs s0 (orderStep b k st s) := by
  unfold orderStep
  try dsimp only
  repeat' first
    | with_reducible assumption | with_reducible refine State.updPart_touch (subOf (by decide) sub) ?_
    | with_reducible refine sendFreq_touch (subOf (by decide) sub) ?_ | intro _ | split | dsimp only

theorem capsChanged_touch {fs : List Piece} {s0 : State} {b : BId} {k : Nat} {s : State} (sub : [.out, .rl, .pw, .hw] ⊆ fs)
    (h0 : Touch fs s0 s) : Touch fs s0 (capsChanged b k s) := by
  unfold capsChanged
  try dsimp only
  repeat' first
    | with_reducible assumption | with_reducible refine State.updPart_touch (subOf (by decide) sub) ?_
    | with_reducible refine retarget_touch (subOf (by decide) sub) ?_
    | with_reducible refine orderStep_touch (subOf (by decide) sub) ?_ | intro _ | split | dsimp only

theorem freqAcked_touch {fs : List Piece} {s0 : State} {b : BId} {k : Nat} {st : Nat} {s : State}
    (sub : [.out, .rl, .pw] ⊆ fs) (h0 : Touch fs s0 s) : Touch fs s0 (freqAcked b k st s) := by
  unfold freqAcked
  try dsimp only
  repeat' first
    | with_reducible assumption | with_reducible refine retarget_touch (subOf (by decide) sub) ?_
    | with_reducible refine State.updPart_touch (subOf (by decide) sub) ?_ | intro _ | split | dsimp only

theorem withdrawReady_touch {fs : List Piece} {s0 : State} {b : BId} {mask : Nat} {s : State} (sub : [.pw, .hw] ⊆ fs) (h0
    : Touch fs s0 s) : Touch fs s0 (withdrawReady b mask s) := by
  unfold withdrawReady
  try dsimp only
  repeat' first
    | with_reducible assumption | with_reducible refine orderStep_touch (subOf (by decide) sub) ?_
    | with_reducible refine State.updPart_touch (subOf (by decide) sub) ?_ | with_reducible refine Touch.iter ?_ ?_
    | intro _ | split | dsimp only

theorem setAdmit_touch {fs : List Piece} {s0 : State} {n : BId} {a : Admit} {s : State} (sub : [.pw, .tray] ⊆ fs) (h0
    : Touch fs s0 s) : Touch fs s0 (setAdmit n a s) := by
  unfold setAdmit
  try dsimp only
  repeat' first
    | with_reducible assumption | with_reducible refine State.onTray_touch (subOf (by decide) sub) ?_
    | with_reducible refine State.updPw_touch (subOf (by decide) sub) ?_ | intro _ | split | dsimp only

theorem setGrant_touch {fs : List Piece} {s0 : State} {n : BId} {g : Nat} {s : State} (sub : [.pw, .tray] ⊆ fs) (h0
    : Touch fs s0 s) : Touch fs s0 (setGrant n g s) := by
  unfold setGrant
  try dsimp only
  repeat' first
    | with_reducible assumption | with_reducible refine State.onTray_touch (subOf (by decide) sub) ?_
    | with_reducible refine State.updPw_touch (subOf (by decide) sub) ?_ | intro _ | split | dsimp only

theorem withdraw_touch {fs : List Piece} {s0 : State} {n : BId} {trump : Bool} {s : State} (sub : [.pw, .tray] ⊆ fs) (h0
    : Touch fs s0 s) : Touch fs s0 (withdraw n trump s) := by
  unfold withdraw
  try dsimp only
  repeat' first
    | with_reducible assumption | with_reducible refine State.onTray_touch (subOf (by decide) sub) ?_
    | with_reducible refine setGrant_touch (subOf (by decide) sub) ?_
    | with_reducible refine setAdmit_touch (subOf (by decide) sub) ?_
    | with_reducible refine State.updPw_touch (subOf (by decide) sub) ?_ | intro _ | split | dsimp only

theorem ledgerClose_touch {fs : List Piece} {s0 : State} {b : BId} {r : Nat} {s : State}
    (sub : [.out, .freeCtr, .rp, .log, .pw, .dk, .us] ⊆ fs) (h0 : Touch fs s0 s) : Touch fs s0 (ledgerClose b r s) := by
  unfold ledgerClose
  try dsimp only
  repeat' first
    | with_reducible assumption | with_reducible refine State.updPw_touch (subOf (by decide) sub) ?_
    | with_reducible refine logRec_touch (subOf (by decide) sub) ?_ | intro _ | split | dsimp only

theorem ledgerCloseAll_touch {fs : List Piece} {s0 : State} {b : BId} {s : State}
    (sub : [.out, .freeCtr, .rp, .log, .pw, .dk, .us] ⊆ fs) (h0 : Touch fs s0 s) : Touch fs s0 (ledgerCloseAll b s) := by
  unfold ledgerCloseAll
  try dsimp only
  repeat' first
    | with_reducible assumption | with_reducible refine ledgerClose_touch (subOf (by decide) sub) ?_
    | with_reducible refine State.updPw_touch (subOf (by decide) sub) ?_ | with_reducible refine Touch.iter ?_ ?_
    | intro _ | split | dsimp only

theorem partsRestart_touch {fs : List Piece} {s0 : State} {b : BId} {s : State} (sub : [.pw] ⊆ fs) (h0 : Touch fs s0 s)
    : Touch fs s0 (partsRestart b s) := by
  unfold partsRestart
  try dsimp only
  repeat' first
    | with_reducible assumption | with_reducible refine State.updPw_touch (subOf (by decide) sub) ?_ | intro _
    | split | dsimp only
end Sys2Proof.Machine
end

