-- ==== Sys2Proof/Laws/Touch/SvcOps.lean ====
section
/-! SUPPORT. What each operation of Machine/SvcOps.lean can touch. -/
set_option linter.unusedTactic false
set_option linter.unreachableTactic false
namespace Sys2Proof.Machine

theorem setSvc_touch {fs : List Piece} {s0 : State} {b : BId} {st : SvcState} {s : State}
    (sub : [.freeCtr, .svc, .pl, .dk, .tw, .us] ⊆ fs) (h0 : Touch fs s0 s) : Touch fs s0 (setSvc b st s) := by
  unfold setSvc
  try dsimp only
  repeat' first
    | with_reducible assumption | with_reducible refine State.updSvc_touch (subOf (by decide) sub) ?_
    | with_reducible refine irq_touch (subOf (by decide) sub) ?_
    | with_reducible refine attn_touch (subOf (by decide) sub) ?_ | intro _ | split | dsimp only

theorem stageDone_touch {fs : List Piece} {s0 : State} {b : BId} {fail : Nat} {s : State}
    (sub : [.out, .freeCtr, .rp, .log, .svc, .dk, .us] ⊆ fs) (h0 : Touch fs s0 s) : Touch fs s0 (stageDone b fail s) := by
  unfold stageDone
  try dsimp only
  repeat' first
    | with_reducible assumption | with_reducible refine State.updSvc_touch (subOf (by decide) sub) ?_
    | with_reducible refine logRec_touch (subOf (by decide) sub) ?_ | intro _ | split | dsimp only

theorem logReset_touch {fs : List Piece} {s0 : State} {b : BId} {failed : Bool} {s : State}
    (sub : [.out, .freeCtr, .rp, .log, .dk, .us] ⊆ fs) (h0 : Touch fs s0 s) : Touch fs s0 (logReset b failed s) := by
  unfold logReset
  try dsimp only
  repeat' first
    | with_reducible assumption | with_reducible refine logRec_touch (subOf (by decide) sub) ?_ | intro _ | split
    | dsimp only

theorem svcFailed_touch {fs : List Piece} {s0 : State} {b : BId} {code : Nat} {s : State}
    (sub : [.out, .freeCtr, .rp, .log, .pw, .hw, .svc, .pl, .dk, .tw, .us] ⊆ fs) (h0 : Touch fs s0 s)
    : Touch fs s0 (svcFailed b code s) := by
  unfold svcFailed
  try dsimp only
  repeat' first
    | with_reducible assumption | with_reducible refine withdrawReady_touch (subOf (by decide) sub) ?_
    | with_reducible refine stageDone_touch (subOf (by decide) sub) ?_
    | with_reducible refine logReset_touch (subOf (by decide) sub) ?_
    | with_reducible refine State.updSvc_touch (subOf (by decide) sub) ?_
    | with_reducible refine setSvc_touch (subOf (by decide) sub) ?_ | intro _ | split | dsimp only

theorem svcFail_touch {fs : List Piece} {s0 : State} {b : BId} {code : Nat} {s : State}
    (sub : [.out, .freeCtr, .rp, .log, .pw, .hw, .svc, .pl, .dk, .dm, .tw, .us, .tcm, .deck] ⊆ fs) (h0 : Touch fs s0 s)
    : Touch fs s0 (svcFail b code s) := by
  unfold svcFail
  try dsimp only
  repeat' first
    | with_reducible assumption | with_reducible refine svcFailed_touch (subOf (by decide) sub) ?_
    | with_reducible refine linkStop_touch (subOf (by decide) sub) ?_ | intro _ | split | dsimp only

theorem svcSlotDown_touch {fs : List Piece} {s0 : State} {b : BId} {s : State}
    (sub : [.out, .freeCtr, .rp, .log, .pw, .hw, .svc, .pl, .dk, .tw, .us] ⊆ fs) (h0 : Touch fs s0 s)
    : Touch fs s0 (svcSlotDown b s) := by
  unfold svcSlotDown
  try dsimp only
  repeat' first
    | with_reducible assumption | with_reducible refine svcFailed_touch (subOf (by decide) sub) ?_
    | with_reducible refine State.updSvc_touch (subOf (by decide) sub) ?_
    | with_reducible refine setSvc_touch (subOf (by decide) sub) ?_
    | with_reducible refine withdrawReady_touch (subOf (by decide) sub) ?_ | intro _ | split | dsimp only
end Sys2Proof.Machine
end

