-- ==== Sys2Proof/Laws/Touch/RailOps.lean ====
section
/-! SUPPORT. What each operation of Machine/RailOps.lean can touch. -/
set_option linter.unusedTactic false
set_option linter.unreachableTactic false
namespace Sys2Proof.Machine

theorem logRail_touch {fs : List Piece} {s0 : State} {b : BId} {ty : Nat} {rail : Nat} {input : Nat} {code : Nat}
    {kind : Bool} {reading : Nat} {limit : Nat} {timeout : Bool} {early : Bool} {s : State}
    (sub : [.out, .freeCtr, .rp, .log, .dk, .us] ⊆ fs) (h0 : Touch fs s0 s)
    : Touch fs s0 (logRail b ty rail input code kind reading limit timeout early s) := by
  unfold logRail
  try dsimp only
  repeat' first
    | with_reducible assumption | with_reducible refine logRec_touch (subOf (by decide) sub) ?_ | intro _ | split
    | dsimp only

theorem setSlotState_touch {fs : List Piece} {s0 : State} {b : BId} {st : SlotState} {s : State} (sub : [.rl, .pl] ⊆ fs) (h0
    : Touch fs s0 s) : Touch fs s0 (setSlotState b st s) := by
  unfold setSlotState
  try dsimp only
  repeat' first
    | with_reducible assumption | with_reducible refine irq_touch (subOf (by decide) sub) ?_
    | with_reducible refine State.updRl_touch (subOf (by decide) sub) ?_ | intro _ | split | dsimp only

theorem logSlotDown_touch {fs : List Piece} {s0 : State} {b : BId} {kind : Bool} {s : State}
    (sub : [.out, .freeCtr, .rp, .log, .dk, .us] ⊆ fs) (h0 : Touch fs s0 s) : Touch fs s0 (logSlotDown b kind s) := by
  unfold logSlotDown
  try dsimp only
  repeat' first
    | with_reducible assumption | with_reducible refine logRail_touch (subOf (by decide) sub) ?_ | intro _ | split
    | dsimp only

theorem slotDown_touch {fs : List Piece} {s0 : State} {b : BId} {s : State}
    (sub : [.out, .freeCtr, .rp, .rl, .log, .pl, .dk, .us] ⊆ fs) (h0 : Touch fs s0 s) : Touch fs s0 (slotDown b s) := by
  unfold slotDown
  try dsimp only
  repeat' first
    | with_reducible assumption | with_reducible refine logSlotDown_touch (subOf (by decide) sub) ?_
    | with_reducible refine setSlotState_touch (subOf (by decide) sub) ?_ | intro _ | split | dsimp only

theorem clearTrumps_touch {fs : List Piece} {s0 : State} {b : BId} {s : State} (sub : [.rl] ⊆ fs) (h0 : Touch fs s0 s)
    : Touch fs s0 (clearTrumps b s) := by
  unfold clearTrumps
  try dsimp only
  repeat' first
    | with_reducible assumption | with_reducible refine State.updRl_touch (subOf (by decide) sub) ?_ | intro _
    | split | dsimp only

theorem slotUpCheck_touch {fs : List Piece} {s0 : State} {b : BId} {s : State}
    (sub : [.out, .freeCtr, .rp, .rl, .log, .pl, .dk, .us] ⊆ fs) (h0 : Touch fs s0 s) : Touch fs s0 (slotUpCheck b s) := by
  unfold slotUpCheck
  try dsimp only
  repeat' first
    | with_reducible assumption | with_reducible refine setSlotState_touch (subOf (by decide) sub) ?_
    | with_reducible refine State.updRl_touch (subOf (by decide) sub) ?_
    | with_reducible refine logRail_touch (subOf (by decide) sub) ?_ | intro _ | split | dsimp only

theorem startRail_touch {fs : List Piece} {s0 : State} {b : BId} {r : Nat} {s : State} (sub : [.out, .rl, .pw] ⊆ fs) (h0
    : Touch fs s0 s) : Touch fs s0 (startRail b r s) := by
  unfold startRail
  try dsimp only
  repeat' first
    | with_reducible assumption | with_reducible refine State.updRail_touch (subOf (by decide) sub) ?_
    | with_reducible refine State.updRl_touch (subOf (by decide) sub) ?_
    | with_reducible refine avsWrite_touch (subOf (by decide) sub) ?_
    | with_reducible refine track_touch (subOf (by decide) sub) ?_
    | with_reducible refine State.updPart_touch (subOf (by decide) sub) ?_ | intro _ | split | dsimp only

theorem startRails_touch {fs : List Piece} {s0 : State} {b : BId} {s : State} (sub : [.out, .rl, .pw] ⊆ fs) (h0
    : Touch fs s0 s) : Touch fs s0 (startRails b s) := by
  unfold startRails
  try dsimp only
  repeat' first
    | with_reducible assumption | with_reducible refine startRail_touch (subOf (by decide) sub) ?_
    | with_reducible refine Touch.iter ?_ ?_ | intro _ | split | dsimp only

theorem railUp_touch {fs : List Piece} {s0 : State} {b : BId} {r : Nat} {s : State}
    (sub : [.out, .freeCtr, .rp, .rl, .log, .pw, .pl, .dk, .us] ⊆ fs) (h0 : Touch fs s0 s) : Touch fs s0 (railUp b r s) := by
  unfold railUp
  try dsimp only
  repeat' first
    | with_reducible assumption | with_reducible refine State.updRail_touch (subOf (by decide) sub) ?_
    | with_reducible refine logRail_touch (subOf (by decide) sub) ?_
    | with_reducible refine slotUpCheck_touch (subOf (by decide) sub) ?_
    | with_reducible refine startRails_touch (subOf (by decide) sub) ?_ | intro _ | split | dsimp only

theorem driveRail_touch {fs : List Piece} {s0 : State} {b : BId} {r : Nat} {s : State}
    (sub : [.out, .freeCtr, .rp, .rl, .log, .pw, .pl, .dk, .us] ⊆ fs) (h0 : Touch fs s0 s) : Touch fs s0 (driveRail b r s)
    := by
  unfold driveRail
  try dsimp only
  repeat' first
    | with_reducible assumption | with_reducible refine State.updRail_touch (subOf (by decide) sub) ?_
    | with_reducible refine State.updRl_touch (subOf (by decide) sub) ?_
    | with_reducible refine railUp_touch (subOf (by decide) sub) ?_ | intro _ | split | dsimp only

theorem driveIfReady_touch {fs : List Piece} {s0 : State} {b : BId} {r : Nat} {s : State}
    (sub : [.out, .freeCtr, .rp, .rl, .log, .pw, .pl, .dk, .us] ⊆ fs) (h0 : Touch fs s0 s) : Touch fs s0 (driveIfReady b r s)
    := by
  unfold driveIfReady
  try dsimp only
  repeat' first
    | with_reducible assumption | with_reducible refine driveRail_touch (subOf (by decide) sub) ?_ | intro _
    | split | dsimp only

theorem releaseRail_touch {fs : List Piece} {s0 : State} {b : BId} {r : Nat} {early : Bool} {s : State} (sub : [.rl] ⊆ fs) (h0
    : Touch fs s0 s) : Touch fs s0 (releaseRail b r early s) := by
  unfold releaseRail
  try dsimp only
  repeat' first
    | with_reducible assumption | with_reducible refine State.updRail_touch (subOf (by decide) sub) ?_
    | with_reducible refine State.updRl_touch (subOf (by decide) sub) ?_ | intro _ | split | dsimp only

theorem slotInert_touch {fs : List Piece} {s0 : State} {b : BId} {s : State} (sub : [.pw, .cl] ⊆ fs) (h0 : Touch fs s0 s)
    : Touch fs s0 (slotInert b s) := by
  unfold slotInert
  try dsimp only
  repeat' first
    | with_reducible assumption | with_reducible refine State.updPw_touch (subOf (by decide) sub) ?_
    | with_reducible refine State.updCl_touch (subOf (by decide) sub) ?_ | intro _ | split | dsimp only

theorem shutdownEnd_touch {fs : List Piece} {s0 : State} {b : BId} {s : State}
    (sub : [.out, .freeCtr, .rp, .rl, .log, .pw, .cl, .pl, .dk, .us, .tray] ⊆ fs) (h0 : Touch fs s0 s)
    : Touch fs s0 (shutdownEnd b s) := by
  unfold shutdownEnd
  try dsimp only
  repeat' first
    | with_reducible assumption | with_reducible refine State.updRl_touch (subOf (by decide) sub) ?_
    | with_reducible refine setSlotState_touch (subOf (by decide) sub) ?_
    | with_reducible refine logSlotDown_touch (subOf (by decide) sub) ?_
    | with_reducible refine withdraw_touch (subOf (by decide) sub) ?_
    | with_reducible refine ledgerCloseAll_touch (subOf (by decide) sub) ?_
    | with_reducible refine partsRestart_touch (subOf (by decide) sub) ?_
    | with_reducible refine State.updPw_touch (subOf (by decide) sub) ?_
    | with_reducible refine State.onTray_touch (subOf (by decide) sub) ?_
    | with_reducible refine notice_touch (subOf (by decide) sub) ?_
    | with_reducible refine clearTrumps_touch (subOf (by decide) sub) ?_
    | with_reducible refine slotInert_touch (subOf (by decide) sub) ?_ | intro _ | split | dsimp only

theorem walk_touch {fs : List Piece} {s0 : State} {b : BId} {y1 : Nat} {y2 : State}
    (sub : [.out, .freeCtr, .rp, .rl, .log, .pw, .cl, .pl, .dk, .us, .tray] ⊆ fs) (h0 : Touch fs s0 y2)
    : Touch fs s0 (walk b y1 y2) := by
  induction y1 generalizing y2
  case zero => unfold walk; exact h0
  rename_i kk ih
  unfold walk
  try dsimp only
  repeat' first
    | with_reducible assumption | (with_reducible apply ih)
    | with_reducible refine shutdownEnd_touch (subOf (by decide) sub) ?_
    | with_reducible refine releaseRail_touch (subOf (by decide) sub) ?_
    | with_reducible refine logRail_touch (subOf (by decide) sub) ?_
    | with_reducible refine State.updRl_touch (subOf (by decide) sub) ?_ | intro _ | split | dsimp only

theorem startShutdown_touch {fs : List Piece} {s0 : State} {b : BId} {fault : Bool} {cause : Nat} {first : Nat} {s : State}
    (sub : [.out, .freeCtr, .rp, .rl, .log, .pw, .hw, .svc, .cl, .pl, .dk, .dm, .tw, .us, .tray, .tcm, .deck] ⊆ fs) (h0
    : Touch fs s0 s) : Touch fs s0 (startShutdown b fault cause first s) := by
  unfold startShutdown
  try dsimp only
  repeat' first
    | with_reducible assumption | with_reducible refine State.updRl_touch (subOf (by decide) sub) ?_
    | with_reducible refine setSlotState_touch (subOf (by decide) sub) ?_
    | with_reducible refine logRail_touch (subOf (by decide) sub) ?_
    | with_reducible refine linkStop_touch (subOf (by decide) sub) ?_
    | with_reducible refine State.updHw_touch (subOf (by decide) sub) ?_
    | with_reducible refine svcSlotDown_touch (subOf (by decide) sub) ?_
    | with_reducible refine State.updPw_touch (subOf (by decide) sub) ?_
    | with_reducible refine releaseRail_touch (subOf (by decide) sub) ?_
    | with_reducible refine walk_touch (subOf (by decide) sub) ?_ | intro _ | split | dsimp only

theorem shutdown_touch {fs : List Piece} {s0 : State} {b : BId} {fault : Bool} {cause : Nat} {first : Nat} {s : State}
    (sub : [.out, .freeCtr, .rp, .rl, .log, .pw, .hw, .svc, .cl, .pl, .dk, .dm, .tw, .us, .tray, .tcm, .deck] ⊆ fs) (h0
    : Touch fs s0 s) : Touch fs s0 (shutdown b fault cause first s) := by
  unfold shutdown
  try dsimp only
  repeat' first
    | with_reducible assumption | with_reducible refine startShutdown_touch (subOf (by decide) sub) ?_
    | with_reducible refine State.updRl_touch (subOf (by decide) sub) ?_
    | with_reducible refine logRail_touch (subOf (by decide) sub) ?_
    | with_reducible refine releaseRail_touch (subOf (by decide) sub) ?_
    | with_reducible refine walk_touch (subOf (by decide) sub) ?_ | intro _ | split | dsimp only

theorem railFault_touch {fs : List Piece} {s0 : State} {b : BId} {src : TrumpSrc} {code : Nat} {rail : Nat} {input : Nat}
    {reading : Nat} {limit : Nat} {first : Nat} {respond : Bool} {s : State}
    (sub : [.out, .freeCtr, .rp, .rl, .log, .pw, .hw, .svc, .cl, .pl, .dk, .dm, .tw, .us, .tray, .tcm, .deck] ⊆ fs) (h0
    : Touch fs s0 s) : Touch fs s0 (railFault b src code rail input reading limit first respond s) := by
  unfold railFault
  try dsimp only
  repeat' first
    | with_reducible assumption | with_reducible refine State.updRl_touch (subOf (by decide) sub) ?_
    | with_reducible refine irq_touch (subOf (by decide) sub) ?_
    | with_reducible refine logRail_touch (subOf (by decide) sub) ?_
    | with_reducible refine ringSend_touch (subOf (by decide) sub) ?_
    | with_reducible refine shutdown_touch (subOf (by decide) sub) ?_ | intro _ | split | dsimp only

theorem retireSlot_touch {fs : List Piece} {s0 : State} {b : BId} {cause : Nat} {rule : Nat} {events : Nat} {s : State}
    (sub : [.out, .freeCtr, .rp, .rl, .log, .pw, .hw, .svc, .cl, .pl, .dk, .dm, .tw, .us, .tray, .tcm, .deck] ⊆ fs) (h0
    : Touch fs s0 s) : Touch fs s0 (retireSlot b cause rule events s) := by
  unfold retireSlot
  try dsimp only
  repeat' first
    | with_reducible assumption | with_reducible refine notice_touch (subOf (by decide) sub) ?_
    | with_reducible refine State.updRl_touch (subOf (by decide) sub) ?_
    | with_reducible refine shutdown_touch (subOf (by decide) sub) ?_
    | with_reducible refine setSlotState_touch (subOf (by decide) sub) ?_
    | with_reducible refine withdraw_touch (subOf (by decide) sub) ?_
    | with_reducible refine logSlotDown_touch (subOf (by decide) sub) ?_ | intro _ | split | dsimp only

theorem gateCheck_touch {fs : List Piece} {s0 : State} {b : BId} {s : State}
    (sub : [.out, .freeCtr, .rp, .rl, .log, .pw, .hw, .svc, .cl, .pl, .dk, .dm, .tw, .us, .tray, .tcm, .deck] ⊆ fs) (h0
    : Touch fs s0 s) : Touch fs s0 (gateCheck b s) := by
  unfold gateCheck
  try dsimp only
  repeat' first
    | with_reducible assumption | with_reducible refine shutdown_touch (subOf (by decide) sub) ?_ | intro _ | split
    | dsimp only
end Sys2Proof.Machine
end

