-- ==== Sys2Proof/Laws/Touch/Rails.lean ====
section
/-! SUPPORT. What each operation of Machine/Rails.lean can touch. -/
set_option linter.unusedTactic false
set_option linter.unreachableTactic false
namespace Sys2Proof.Machine

theorem unadmitted_touch {fs : List Piece} {s0 : State} {b : BId} {s : State} (sub : [.pw, .tray] ⊆ fs) (h0 : Touch fs s0 s)
    : Touch fs s0 (unadmitted b s) := by
  unfold unadmitted
  try dsimp only
  repeat' first
    | with_reducible assumption | with_reducible refine setGrant_touch (subOf (by decide) sub) ?_
    | with_reducible refine setAdmit_touch (subOf (by decide) sub) ?_ | intro _ | split | dsimp only

theorem powerUpAccept_touch {fs : List Piece} {s0 : State} {b : BId} {s : State}
    (sub : [.out, .freeCtr, .rp, .rl, .log, .pw, .cl, .pl, .dk, .us, .tray] ⊆ fs) (h0 : Touch fs s0 s)
    : Touch fs s0 (powerUpAccept b s) := by
  unfold powerUpAccept
  try dsimp only
  repeat' first
    | with_reducible assumption | with_reducible refine State.updRl_touch (subOf (by decide) sub) ?_
    | with_reducible refine State.updCl_touch (subOf (by decide) sub) ?_
    | with_reducible refine partsRestart_touch (subOf (by decide) sub) ?_
    | with_reducible refine State.updPw_touch (subOf (by decide) sub) ?_
    | with_reducible refine setSlotState_touch (subOf (by decide) sub) ?_
    | with_reducible refine logRail_touch (subOf (by decide) sub) ?_
    | with_reducible refine slotUpCheck_touch (subOf (by decide) sub) ?_
    | with_reducible refine startRails_touch (subOf (by decide) sub) ?_
    | with_reducible refine unadmitted_touch (subOf (by decide) sub) ?_ | intro _ | split | dsimp only

theorem powerUp_touch {fs : List Piece} {s0 : State} {b : BId} {req : ReqId} {s : State}
    (sub : [.out, .freeCtr, .rp, .rl, .log, .pw, .hw, .svc, .cl, .pl, .dk, .dm, .tw, .us, .tray, .tcm, .deck] ⊆ fs) (h0
    : Touch fs s0 s) : Touch fs s0 (powerUp b req s) := by
  unfold powerUp
  try dsimp only
  repeat' first
    | with_reducible assumption | with_reducible refine powerUpAccept_touch (subOf (by decide) sub) ?_
    | with_reducible refine State.updRl_touch (subOf (by decide) sub) ?_
    | with_reducible refine logRail_touch (subOf (by decide) sub) ?_
    | with_reducible refine retireSlot_touch (subOf (by decide) sub) ?_ | intro _ | split | dsimp only

theorem slotShutdown_touch {fs : List Piece} {s0 : State} {b : BId} {req : ReqId} {s : State}
    (sub : [.out, .freeCtr, .rp, .rl, .log, .pw, .hw, .svc, .cl, .pl, .dk, .dm, .tw, .us, .tray, .tcm, .deck] ⊆ fs) (h0
    : Touch fs s0 s) : Touch fs s0 (slotShutdown b req s) := by
  unfold slotShutdown
  try dsimp only
  repeat' first
    | with_reducible assumption | with_reducible refine shutdown_touch (subOf (by decide) sub) ?_ | intro _ | split
    | dsimp only

theorem onDelayEnd_touch {fs : List Piece} {s0 : State} {b : BId} {r : Nat} {s : State}
    (sub : [.out, .freeCtr, .rp, .rl, .log, .pw, .pl, .dk, .us] ⊆ fs) (h0 : Touch fs s0 s) : Touch fs s0 (onDelayEnd b r s)
    := by
  unfold onDelayEnd
  try dsimp only
  repeat' first
    | with_reducible assumption | with_reducible refine driveIfReady_touch (subOf (by decide) sub) ?_
    | with_reducible refine State.updRail_touch (subOf (by decide) sub) ?_ | intro _ | split | dsimp only

theorem avsSetTimeout_touch {fs : List Piece} {s0 : State} {b : BId} {r : Nat} {s : State}
    (sub : [.out, .freeCtr, .rp, .rl, .log, .pw, .hw, .svc, .cl, .pl, .dk, .dm, .tw, .us, .tray, .tcm, .deck] ⊆ fs) (h0
    : Touch fs s0 s) : Touch fs s0 (avsSetTimeout b r s) := by
  unfold avsSetTimeout
  try dsimp only
  repeat' first
    | with_reducible assumption | with_reducible refine State.updRl_touch (subOf (by decide) sub) ?_
    | with_reducible refine railFault_touch (subOf (by decide) sub) ?_ | intro _ | split | dsimp only

theorem powerGoodRise_touch {fs : List Piece} {s0 : State} {b : BId} {r : Nat} {s : State}
    (sub : [.out, .freeCtr, .rp, .rl, .log, .pw, .pl, .dk, .us] ⊆ fs) (h0 : Touch fs s0 s) : Touch fs s0 (powerGoodRise b r s)
    := by
  unfold powerGoodRise
  try dsimp only
  repeat' first
    | with_reducible assumption | with_reducible refine State.updRail_touch (subOf (by decide) sub) ?_
    | with_reducible refine railUp_touch (subOf (by decide) sub) ?_
    | with_reducible refine clearTrumps_touch (subOf (by decide) sub) ?_ | intro _ | split | dsimp only

theorem powerGoodDrop_touch {fs : List Piece} {s0 : State} {b : BId} {r : Nat} {s : State}
    (sub : [.out, .freeCtr, .rp, .rl, .log, .pw, .hw, .svc, .cl, .pl, .dk, .dm, .tw, .us, .tray, .tcm, .deck] ⊆ fs) (h0
    : Touch fs s0 s) : Touch fs s0 (powerGoodDrop b r s) := by
  unfold powerGoodDrop
  try dsimp only
  repeat' first
    | with_reducible assumption | with_reducible refine State.updRail_touch (subOf (by decide) sub) ?_
    | with_reducible refine State.updRl_touch (subOf (by decide) sub) ?_
    | with_reducible refine railFault_touch (subOf (by decide) sub) ?_ | intro _ | split | dsimp only

theorem pgTimeout_touch {fs : List Piece} {s0 : State} {b : BId} {r : Nat} {s : State}
    (sub : [.out, .freeCtr, .rp, .rl, .log, .pw, .hw, .svc, .cl, .pl, .dk, .dm, .tw, .us, .tray, .tcm, .deck] ⊆ fs) (h0
    : Touch fs s0 s) : Touch fs s0 (pgTimeout b r s) := by
  unfold pgTimeout
  try dsimp only
  repeat' first
    | with_reducible assumption | with_reducible refine State.updRl_touch (subOf (by decide) sub) ?_
    | with_reducible refine railFault_touch (subOf (by decide) sub) ?_ | intro _ | split | dsimp only

theorem rampTimeout_touch {fs : List Piece} {s0 : State} {b : BId} {r : Nat} {s : State}
    (sub : [.out, .freeCtr, .rp, .rl, .log, .pw, .hw, .svc, .cl, .pl, .dk, .dm, .tw, .us, .tray, .tcm, .deck] ⊆ fs) (h0
    : Touch fs s0 s) : Touch fs s0 (rampTimeout b r s) := by
  unfold rampTimeout
  try dsimp only
  repeat' first
    | with_reducible assumption | with_reducible refine State.updRl_touch (subOf (by decide) sub) ?_
    | with_reducible refine railFault_touch (subOf (by decide) sub) ?_ | intro _ | split | dsimp only

theorem adcConversion_touch {fs : List Piece} {s0 : State} {b : BId} {i : Nat} {code : Nat} {s : State}
    (sub : [.rl, .cl] ⊆ fs) (h0 : Touch fs s0 s) : Touch fs s0 (adcConversion b i code s) := by
  unfold adcConversion
  try dsimp only
  repeat' first
    | with_reducible assumption | with_reducible refine State.updRl_touch (subOf (by decide) sub) ?_
    | with_reducible refine State.updCl_touch (subOf (by decide) sub) ?_
    | with_reducible refine clearTrumps_touch (subOf (by decide) sub) ?_ | intro _ | split | dsimp only

theorem trumpCap_touch {fs : List Piece} {s0 : State} {b : BId} {i : Nat} {k : Nat} {temp : Bool} {s : State}
    (sub : [.out, .rl, .pw, .hw] ⊆ fs) (h0 : Touch fs s0 s) : Touch fs s0 (trumpCap b i k temp s) := by
  unfold trumpCap
  try dsimp only
  repeat' first
    | with_reducible assumption | with_reducible refine State.updPart_touch (subOf (by decide) sub) ?_
    | with_reducible refine capsChanged_touch (subOf (by decide) sub) ?_ | intro _ | split | dsimp only

theorem thermalTrump_touch {fs : List Piece} {s0 : State} {b : BId} {i : Nat} {s : State} (sub : [.out, .rl, .pw, .hw] ⊆ fs)
    (h0 : Touch fs s0 s) : Touch fs s0 (thermalTrump b i s) := by
  unfold thermalTrump
  try dsimp only
  repeat' first
    | with_reducible assumption | with_reducible refine State.updPw_touch (subOf (by decide) sub) ?_
    | with_reducible refine trumpCap_touch (subOf (by decide) sub) ?_ | with_reducible refine Touch.iter ?_ ?_
    | intro _ | split | dsimp only

theorem countEvt_touch {fs : List Piece} {s0 : State} {b : BId} {i : Nat} {f : InEvt → InEvt} {s : State} (sub : [.rl] ⊆ fs)
    (h0 : Touch fs s0 s) : Touch fs s0 (countEvt b i f s) := by
  unfold countEvt
  try dsimp only
  repeat' first
    | with_reducible assumption | with_reducible refine State.updRl_touch (subOf (by decide) sub) ?_ | intro _
    | split | dsimp only

theorem alert_touch {fs : List Piece} {s0 : State} {b : BId} {i : Nat} {code : Nat} {limit : Nat} {s : State}
    (sub : [.out, .freeCtr, .rp, .rl, .log, .pw, .hw, .dk, .us] ⊆ fs) (h0 : Touch fs s0 s)
    : Touch fs s0 (alert b i code limit s) := by
  unfold alert
  try dsimp only
  repeat' first
    | with_reducible assumption | with_reducible refine logRail_touch (subOf (by decide) sub) ?_
    | with_reducible refine thermalTrump_touch (subOf (by decide) sub) ?_ | intro _ | split | dsimp only

theorem railTrip_touch {fs : List Piece} {s0 : State} {b : BId} {i : Nat} {s : State} (sub : [.rl] ⊆ fs) (h0 : Touch fs s0 s)
    : Touch fs s0 (railTrip b i s) := by
  unfold railTrip
  try dsimp only
  repeat' first
    | with_reducible assumption | with_reducible refine State.updRail_touch (subOf (by decide) sub) ?_ | intro _
    | split | dsimp only

theorem confirmed_touch {fs : List Piece} {s0 : State} {b : BId} {i : Nat} {c : Cond} {s : State}
    (sub : [.out, .freeCtr, .rp, .rl, .log, .pw, .hw, .svc, .cl, .pl, .dk, .dm, .tw, .us, .tray, .tcm, .deck] ⊆ fs) (h0
    : Touch fs s0 s) : Touch fs s0 (confirmed b i c s) := by
  unfold confirmed
  try dsimp only
  repeat' first
    | with_reducible assumption | with_reducible refine State.updRl_touch (subOf (by decide) sub) ?_
    | with_reducible refine countEvt_touch (subOf (by decide) sub) ?_
    | with_reducible refine railFault_touch (subOf (by decide) sub) ?_
    | with_reducible refine railTrip_touch (subOf (by decide) sub) ?_
    | with_reducible refine alert_touch (subOf (by decide) sub) ?_
    | with_reducible refine railUp_touch (subOf (by decide) sub) ?_ | intro _ | split | dsimp only

theorem confirmOne_touch {fs : List Piece} {s0 : State} {b : BId} {i : Nat} {c : Cond} {s : State}
    (sub : [.out, .freeCtr, .rp, .rl, .log, .pw, .hw, .svc, .cl, .pl, .dk, .dm, .tw, .us, .tray, .tcm, .deck] ⊆ fs) (h0
    : Touch fs s0 s) : Touch fs s0 (confirmOne b i c s) := by
  unfold confirmOne
  try dsimp only
  repeat' first
    | with_reducible assumption | with_reducible refine confirmed_touch (subOf (by decide) sub) ?_ | intro _
    | split | dsimp only

theorem thresholdConfirm_touch {fs : List Piece} {s0 : State} {b : BId} {i : Nat} {c : Cond} {s : State}
    (sub : [.out, .freeCtr, .rp, .rl, .log, .pw, .hw, .svc, .cl, .pl, .dk, .dm, .tw, .us, .tray, .tcm, .deck] ⊆ fs) (h0
    : Touch fs s0 s) : Touch fs s0 (thresholdConfirm b i c s) := by
  unfold thresholdConfirm
  try dsimp only
  repeat' first
    | with_reducible assumption | with_reducible refine confirmOne_touch (subOf (by decide) sub) ?_
    | with_reducible refine Touch.iter ?_ ?_ | intro _ | split | dsimp only

theorem railTrumpReceive_touch {fs : List Piece} {s0 : State} {n : BId} {s : State}
    (sub : [.freeCtr, .pw, .dk, .tw, .us, .tray] ⊆ fs) (h0 : Touch fs s0 s) : Touch fs s0 (railTrumpReceive n s) := by
  unfold railTrumpReceive
  try dsimp only
  repeat' first
    | with_reducible assumption | with_reducible refine attn_touch (subOf (by decide) sub) ?_
    | with_reducible refine withdraw_touch (subOf (by decide) sub) ?_ | intro _ | split | dsimp only

theorem railOffConfirm_touch {fs : List Piece} {s0 : State} {b : BId} {r : Nat} {s : State}
    (sub : [.out, .freeCtr, .rp, .rl, .log, .pw, .cl, .pl, .dk, .us, .tray] ⊆ fs) (h0 : Touch fs s0 s)
    : Touch fs s0 (railOffConfirm b r s) := by
  unfold railOffConfirm
  try dsimp only
  repeat' first
    | with_reducible assumption | with_reducible refine State.updRail_touch (subOf (by decide) sub) ?_
    | with_reducible refine walk_touch (subOf (by decide) sub) ?_
    | with_reducible refine clearTrumps_touch (subOf (by decide) sub) ?_ | intro _ | split | dsimp only

theorem railOffTimeout_touch {fs : List Piece} {s0 : State} {b : BId} {r : Nat} {s : State}
    (sub : [.out, .freeCtr, .rp, .rl, .log, .pw, .cl, .pl, .dk, .us, .tray] ⊆ fs) (h0 : Touch fs s0 s)
    : Touch fs s0 (railOffTimeout b r s) := by
  unfold railOffTimeout
  try dsimp only
  repeat' first
    | with_reducible assumption | with_reducible refine State.updRail_touch (subOf (by decide) sub) ?_
    | with_reducible refine countEvt_touch (subOf (by decide) sub) ?_
    | with_reducible refine State.updRl_touch (subOf (by decide) sub) ?_
    | with_reducible refine walk_touch (subOf (by decide) sub) ?_ | intro _ | split | dsimp only

theorem faultHoldEnd_touch {fs : List Piece} {s0 : State} {b : BId} {s : State}
    (sub : [.out, .freeCtr, .rp, .rl, .log, .pl, .dk, .us] ⊆ fs) (h0 : Touch fs s0 s) : Touch fs s0 (faultHoldEnd b s) := by
  unfold faultHoldEnd
  try dsimp only
  repeat' first
    | with_reducible assumption | with_reducible refine clearTrumps_touch (subOf (by decide) sub) ?_
    | with_reducible refine slotDown_touch (subOf (by decide) sub) ?_ | intro _ | split | dsimp only

theorem thresholdWrite_touch {fs : List Piece} {s0 : State} {b : BId} {req : ReqId} {i : Nat} {w : Word} {s : State}
    (sub : [.out, .freeCtr, .rp, .rl, .log, .dk, .us] ⊆ fs) (h0 : Touch fs s0 s) : Touch fs s0 (thresholdWrite b req i w s)
    := by
  unfold thresholdWrite
  try dsimp only
  repeat' first
    | with_reducible assumption | with_reducible refine State.updRl_touch (subOf (by decide) sub) ?_
    | with_reducible refine thrSet_touch (subOf (by decide) sub) ?_
    | with_reducible refine logRail_touch (subOf (by decide) sub) ?_ | intro _ | split | dsimp only

theorem transitionEnd_touch {fs : List Piece} {s0 : State} {b : BId} {k : Nat} {s : State} (sub : [.rl] ⊆ fs) (h0
    : Touch fs s0 s) : Touch fs s0 (transitionEnd b k s) := by
  unfold transitionEnd
  try dsimp only
  repeat' first
    | with_reducible assumption | with_reducible refine State.updRl_touch (subOf (by decide) sub) ?_ | intro _
    | split | dsimp only
end Sys2Proof.Machine
end

