-- ==== Sys2Proof/Laws/Touch/Log.lean ====
section
/-! SUPPORT. What each operation of Machine/Log.lean can touch. -/
set_option linter.unusedTactic false
set_option linter.unreachableTactic false
namespace Sys2Proof.Machine

theorem logHeadFound_touch {fs : List Piece} {s0 : State} {h : BId} {failed : List Nat} {s : State} (sub : [.log] ⊆ fs) (h0
    : Touch fs s0 s) : Touch fs s0 (logHeadFound h failed s) := by
  unfold logHeadFound
  try dsimp only
  repeat' first
    | with_reducible assumption | with_reducible refine State.updLog_touch (subOf (by decide) sub) ?_
    | with_reducible refine logPump_touch (subOf (by decide) sub) ?_
    | with_reducible refine logOpenSector_touch (subOf (by decide) sub) ?_ | intro _ | split | dsimp only

theorem logRetireRecord_touch {fs : List Piece} {s0 : State} {h : BId} {s : State} (sub : [.log, .dk] ⊆ fs) (h0
    : Touch fs s0 s) : Touch fs s0 (logRetireRecord h s) := by
  unfold logRetireRecord
  try dsimp only
  repeat' first
    | with_reducible assumption | with_reducible refine State.updLog_touch (subOf (by decide) sub) ?_
    | with_reducible refine deckRelease_touch (subOf (by decide) sub) ?_ | intro _ | split | dsimp only

theorem logArriveDrop_touch {fs : List Piece} {s0 : State} {h : BId} {o : BId} {n : Nat} {s : State} (sub : [.log] ⊆ fs) (h0
    : Touch fs s0 s) : Touch fs s0 (logArriveDrop h o n s) := by
  unfold logArriveDrop
  try dsimp only
  repeat' first
    | with_reducible assumption | with_reducible refine State.updLog_touch (subOf (by decide) sub) ?_ | intro _
    | split | dsimp only

theorem logOriginLoss_touch {fs : List Piece} {s0 : State} {h : BId} {o : BId} {s : State}
    (sub : [.out, .freeCtr, .rp, .log, .dk, .us] ⊆ fs) (h0 : Touch fs s0 s) : Touch fs s0 (logOriginLoss h o s).2 := by
  unfold logOriginLoss
  try dsimp only
  repeat' first
    | with_reducible assumption | with_reducible refine logRec_touch (subOf (by decide) sub) ?_
    | with_reducible refine logSend_touch (subOf (by decide) sub) ?_
    | with_reducible refine State.updLog_touch (subOf (by decide) sub) ?_ | intro _ | split | dsimp only

theorem logOriginLoss_touch_eq {fs : List Piece} {s0 : State} {h : BId} {o : BId} {s : State} {r0} {t : State}
    (sub : [.out, .freeCtr, .rp, .log, .dk, .us] ⊆ fs) (eq_ : logOriginLoss h o s = (r0, t)) (h0 : Touch fs s0 s)
    : Touch fs s0 t := by
  have := @logOriginLoss_touch fs s0 h o s sub  h0
  rw [eq_] at this; exact this

theorem logBufferArrive_touch {fs : List Piece} {s0 : State} {h : BId} {o : BId} {recs : List LogRec} {s : State}
    (sub : [.out, .freeCtr, .rp, .log, .dk, .us] ⊆ fs) (h0 : Touch fs s0 s) : Touch fs s0 (logBufferArrive h o recs s) := by
  unfold logBufferArrive
  try dsimp only
  repeat' first
    | with_reducible assumption | with_reducible refine deckAlloc_touch (subOf (by decide) sub) ?_
    | with_reducible refine logArriveDrop_touch (subOf (by decide) sub) ?_
    | with_reducible refine logOriginLoss_touch (subOf (by decide) sub) ?_
    | with_reducible refine logTake_touch (subOf (by decide) sub) ?_
    | with_reducible refine deckRelease_touch (subOf (by decide) sub) ?_ | intro _ | split
    | with_reducible refine deckAlloc_touch_eq (subOf (by decide) sub) (by with_reducible assumption) ?_
    | with_reducible refine logOriginLoss_touch_eq (subOf (by decide) sub) (by with_reducible assumption) ?_
    | dsimp only

theorem writeGuardChange_touch {fs : List Piece} {s0 : State} {below : Bool} {s : State} (sub : [.log] ⊆ fs) (h0
    : Touch fs s0 s) : Touch fs s0 (writeGuardChange below s) := by
  unfold writeGuardChange
  try dsimp only
  repeat' first
    | with_reducible assumption | with_reducible refine logPump_touch (subOf (by decide) sub) ?_
    | with_reducible refine Touch.iter ?_ ?_ | intro _ | split | with_reducible refine Touch.updAll ?_ ?_
    | (refine TouchB.mk (fun f nf => ?_) (Berth.memCanonical_same rfl rfl rfl); cases f <;> first | exact absurd (sub (by decide)) nf | exact True.intro | exact rfl)
    | dsimp only

theorem freeBytes_touch {fs : List Piece} {s0 : State} {y0 : Nat} {y1 : State} (sub : [.freeCtr] ⊆ fs) (h0 : Touch fs s0 y1)
    : Touch fs s0 (freeBytes y0 y1).2 := by
  induction y0 generalizing y1
  case zero => unfold freeBytes; exact h0
  rename_i kk ih
  have ihp : ∀ {y1 : State} {r} {u : State}, freeBytes kk y1 = (r, u) → Touch fs s0 y1 → Touch fs s0 u := by
    intro y1 r u eq h; have := @ih y1 h; rw [eq] at this; exact this
  unfold freeBytes
  try dsimp only
  repeat' first
    | with_reducible assumption | (with_reducible apply ih)
    | with_reducible refine State.draw_touch (subOf (by decide) sub) ?_ | intro _ | split
    | with_reducible refine State.draw_touch_eq (subOf (by decide) sub) (by with_reducible assumption) ?_
    | (with_reducible refine ihp (by with_reducible assumption) ?_) | dsimp only

theorem freeBytes_touch_eq {fs : List Piece} {s0 : State} {y0 : Nat} {y1 : State} {r0} {t : State} (sub : [.freeCtr] ⊆ fs)
    (eq_ : freeBytes y0 y1 = (r0, t)) (h0 : Touch fs s0 y1) : Touch fs s0 t := by
  have := @freeBytes_touch fs s0 y0 y1 sub  h0
  rw [eq_] at this; exact this

theorem tornProgram_touch {fs : List Piece} {s0 : State} {f : BId} {off : Nat} {bs : List Byte} {s : State}
    (sub : [.freeCtr, .flash] ⊆ fs) (h0 : Touch fs s0 s) : Touch fs s0 (tornProgram f off bs s) := by
  unfold tornProgram
  try dsimp only
  repeat' first
    | with_reducible assumption | with_reducible refine TouchB.setFlash (memOf sub (by decide)) ?_
    | with_reducible exact flashProgram_wf | with_reducible exact flashErase_wf | with_reducible exact memWrite_wf
    | with_reducible exact memFilter_wf | (intro h; with_reducible exact memFold_wf h fun _ _ k => memSet_wf k rfl)
    | with_reducible refine freeBytes_touch (subOf (by decide) sub) ?_ | intro _ | split
    | with_reducible refine freeBytes_touch_eq (subOf (by decide) sub) (by with_reducible assumption) ?_
    | with_reducible refine Touch.upd ?_ ?_
    | (refine TouchB.mk (fun f nf => ?_) (Berth.memCanonical_same rfl rfl rfl); cases f <;> first | exact absurd (sub (by decide)) nf | exact True.intro | exact rfl)
    | dsimp only

theorem tornErase_touch {fs : List Piece} {s0 : State} {f : BId} {off : Nat} {s : State} (sub : [.freeCtr, .flash] ⊆ fs) (h0
    : Touch fs s0 s) : Touch fs s0 (tornErase f off s) := by
  unfold tornErase
  try dsimp only
  repeat' first
    | with_reducible assumption | with_reducible refine TouchB.setFlash (memOf sub (by decide)) ?_
    | with_reducible exact flashProgram_wf | with_reducible exact flashErase_wf | with_reducible exact memWrite_wf
    | with_reducible exact memFilter_wf | (intro h; with_reducible exact memFold_wf h fun _ _ k => memSet_wf k rfl)
    | with_reducible refine freeBytes_touch (subOf (by decide) sub) ?_ | with_reducible refine Touch.foldl ?_ ?_
    | with_reducible refine Touch.foldl2 ?_ ?_ | intro _ | split
    | with_reducible refine freeBytes_touch_eq (subOf (by decide) sub) (by with_reducible assumption) ?_
    | with_reducible refine Touch.upd ?_ ?_
    | (refine TouchB.mk (fun f nf => ?_) (Berth.memCanonical_same rfl rfl rfl); cases f <;> first | exact absurd (sub (by decide)) nf | exact True.intro | exact rfl)
    | dsimp only

theorem logCollapse_touch {fs : List Piece} {s0 : State} {h : BId} {s : State} (sub : [.freeCtr, .flash] ⊆ fs) (h0
    : Touch fs s0 s) : Touch fs s0 (logCollapse h s) := by
  unfold logCollapse
  try dsimp only
  repeat' first
    | with_reducible assumption | with_reducible refine tornErase_touch (subOf (by decide) sub) ?_
    | with_reducible refine tornProgram_touch (subOf (by decide) sub) ?_ | intro _ | split | dsimp only

theorem logStart_touch {fs : List Piece} {s0 : State} {b : BId} {s : State} (sub : [.log] ⊆ fs) (h0 : Touch fs s0 s)
    : Touch fs s0 (logStart b s) := by
  unfold logStart
  try dsimp only
  repeat' first
    | with_reducible assumption | with_reducible refine State.updLog_touch (subOf (by decide) sub) ?_ | intro _
    | split | dsimp only

theorem logServe_touch {fs : List Piece} {s0 : State} {h : BId} {ty : Nat} {p0 : Word} {p1 : Word} {first : Bool} {s : State}
    (sub : [.out, .freeCtr, .rp, .log, .dk, .us] ⊆ fs) (h0 : Touch fs s0 s) : Touch fs s0 (logServe h ty p0 p1 first s) := by
  unfold logServe
  try dsimp only
  repeat' first
    | with_reducible assumption | with_reducible refine State.updLog_touch (subOf (by decide) sub) ?_
    | with_reducible refine logRec_touch (subOf (by decide) sub) ?_ | intro _ | split | dsimp only
end Sys2Proof.Machine
end

