-- ==== Sys2Proof/Laws/Touch/Power.lean ====
section
/-! SUPPORT. What each operation of Machine/Power.lean can touch. -/
set_option linter.unusedTactic false
set_option linter.unreachableTactic false
namespace Sys2Proof.Machine

theorem budgetTrump_touch {fs : List Piece} {s0 : State} {h : BId} {budget : Nat} {s : State}
    (sub : [.freeCtr, .pw, .dk, .tw, .us, .tray] ⊆ fs) (h0 : Touch fs s0 s) : Touch fs s0 (budgetTrump h budget s) := by
  unfold budgetTrump
  try dsimp only
  repeat' first
    | with_reducible assumption | with_reducible refine State.updTray_touch (subOf (by decide) sub) ?_
    | with_reducible refine State.updPw_touch (subOf (by decide) sub) ?_
    | with_reducible refine setGrant_touch (subOf (by decide) sub) ?_
    | with_reducible refine attn_touch (subOf (by decide) sub) ?_ | with_reducible refine Touch.iter ?_ ?_
    | intro _ | split | dsimp only

theorem budgetWrite_touch {fs : List Piece} {s0 : State} {req : ReqId} {w : Nat} {s : State}
    (sub : [.out, .freeCtr, .rp, .log, .pw, .dk, .tw, .us, .tray] ⊆ fs) (h0 : Touch fs s0 s)
    : Touch fs s0 (budgetWrite req w s) := by
  unfold budgetWrite
  try dsimp only
  repeat' first
    | with_reducible assumption | with_reducible refine State.updTray_touch (subOf (by decide) sub) ?_
    | with_reducible refine budgetTrump_touch (subOf (by decide) sub) ?_
    | with_reducible refine logRec_touch (subOf (by decide) sub) ?_ | intro _ | split | dsimp only

theorem admitReq_touch {fs : List Piece} {s0 : State} {b : BId} {req : ReqId} {s : State} (sub : [.pw, .tray] ⊆ fs) (h0
    : Touch fs s0 s) : Touch fs s0 (admitReq b req s) := by
  unfold admitReq
  try dsimp only
  repeat' first
    | with_reducible assumption | with_reducible refine setAdmit_touch (subOf (by decide) sub) ?_ | intro _ | split
    | dsimp only

theorem admitCancel_touch {fs : List Piece} {s0 : State} {b : BId} {req : ReqId} {s : State} (sub : [.pw, .tray] ⊆ fs) (h0
    : Touch fs s0 s) : Touch fs s0 (admitCancel b req s) := by
  unfold admitCancel
  try dsimp only
  repeat' first
    | with_reducible assumption | with_reducible refine withdraw_touch (subOf (by decide) sub) ?_ | intro _ | split
    | dsimp only

theorem markAverageReceive_touch {fs : List Piece} {s0 : State} {n : BId} {w : Nat} {s : State} (sub : [.tray] ⊆ fs) (h0
    : Touch fs s0 s) : Touch fs s0 (markAverageReceive n w s) := by
  unfold markAverageReceive
  try dsimp only
  repeat' first
    | with_reducible assumption | with_reducible refine State.onTray_touch (subOf (by decide) sub) ?_ | intro _
    | split | dsimp only

theorem floorOverSet_touch {fs : List Piece} {s0 : State} {s : State} (sub : [.tray] ⊆ fs) (h0 : Touch fs s0 s)
    : Touch fs s0 (floorOverSet s) := by
  unfold floorOverSet
  try dsimp only
  repeat' first
    | with_reducible assumption | with_reducible refine State.onTray_touch (subOf (by decide) sub) ?_ | intro _
    | split | dsimp only

theorem updAvs_touch {fs : List Piece} {s0 : State} {b : BId} {c : Nat} {f : Avs → Avs} {s : State} (sub : [.pw] ⊆ fs) (h0
    : Touch fs s0 s) : Touch fs s0 (updAvs b c f s) := by
  unfold updAvs
  try dsimp only
  repeat' first
    | with_reducible assumption | with_reducible refine State.updPw_touch (subOf (by decide) sub) ?_ | intro _
    | split | dsimp only

theorem avsRetire_touch {fs : List Piece} {s0 : State} {b : BId} {c : Nat} {events : Nat} {s : State}
    (sub : [.out, .rp, .rl, .pw, .hw] ⊆ fs) (h0 : Touch fs s0 s) : Touch fs s0 (avsRetire b c events s) := by
  unfold avsRetire
  try dsimp only
  repeat' first
    | with_reducible assumption | with_reducible refine updAvs_touch (subOf (by decide) sub) ?_
    | with_reducible refine notice_touch (subOf (by decide) sub) ?_
    | with_reducible refine capsChanged_touch (subOf (by decide) sub) ?_
    | with_reducible refine State.updPart_touch (subOf (by decide) sub) ?_ | with_reducible refine Touch.iter ?_ ?_
    | intro _ | split | dsimp only

theorem avsGiveUp_touch {fs : List Piece} {s0 : State} {b : BId} {c : Nat} {w : AvsWrite} {s : State}
    (sub : [.out, .freeCtr, .rp, .rl, .log, .pw, .hw, .dk, .us] ⊆ fs) (h0 : Touch fs s0 s) : Touch fs s0 (avsGiveUp b c w s)
    := by
  unfold avsGiveUp
  try dsimp only
  repeat' first
    | with_reducible assumption | with_reducible refine State.updPart_touch (subOf (by decide) sub) ?_
    | with_reducible refine updAvs_touch (subOf (by decide) sub) ?_
    | with_reducible refine logRec_touch (subOf (by decide) sub) ?_
    | with_reducible refine avsRetire_touch (subOf (by decide) sub) ?_ | intro _ | split | dsimp only

theorem avsFailed_touch {fs : List Piece} {s0 : State} {b : BId} {c : Nat} {s : State}
    (sub : [.out, .freeCtr, .rp, .rl, .log, .pw, .hw, .dk, .us] ⊆ fs) (h0 : Touch fs s0 s) : Touch fs s0 (avsFailed b c s)
    := by
  unfold avsFailed
  try dsimp only
  repeat' first
    | with_reducible assumption | with_reducible refine updAvs_touch (subOf (by decide) sub) ?_
    | with_reducible refine avsGiveUp_touch (subOf (by decide) sub) ?_
    | with_reducible refine State.emit_touch (subOf (by decide) sub) ?_ | intro _ | split | dsimp only

theorem avsAcked_touch {fs : List Piece} {s0 : State} {b : BId} {c : Nat} {s : State}
    (sub : [.out, .freeCtr, .rp, .rl, .log, .pw, .pl, .dk, .us] ⊆ fs) (h0 : Touch fs s0 s) : Touch fs s0 (avsAcked b c s)
    := by
  unfold avsAcked
  try dsimp only
  repeat' first
    | with_reducible assumption | with_reducible refine updAvs_touch (subOf (by decide) sub) ?_
    | with_reducible refine State.updPart_touch (subOf (by decide) sub) ?_
    | with_reducible refine driveIfReady_touch (subOf (by decide) sub) ?_
    | with_reducible refine State.updRail_touch (subOf (by decide) sub) ?_
    | with_reducible refine avsSend_touch (subOf (by decide) sub) ?_ | intro _ | split | dsimp only

theorem avsReadDone_touch {fs : List Piece} {s0 : State} {b : BId} {c : Nat} {s : State} (sub : [.out, .pw] ⊆ fs) (h0
    : Touch fs s0 s) : Touch fs s0 (avsReadDone b c s) := by
  unfold avsReadDone
  try dsimp only
  repeat' first
    | with_reducible assumption | with_reducible refine State.emit_touch (subOf (by decide) sub) ?_
    | with_reducible refine updAvs_touch (subOf (by decide) sub) ?_
    | with_reducible refine avsSend_touch (subOf (by decide) sub) ?_ | intro _ | split | dsimp only

theorem avsResponse_touch {fs : List Piece} {s0 : State} {b : BId} {c : Nat} {crcOk : Bool} {ack : Nat} {s : State}
    (sub : [.out, .freeCtr, .rp, .rl, .log, .pw, .hw, .pl, .dk, .us] ⊆ fs) (h0 : Touch fs s0 s)
    : Touch fs s0 (avsResponse b c crcOk ack s) := by
  unfold avsResponse
  try dsimp only
  repeat' first
    | with_reducible assumption | with_reducible refine avsReadDone_touch (subOf (by decide) sub) ?_
    | with_reducible refine updAvs_touch (subOf (by decide) sub) ?_
    | with_reducible refine avsAcked_touch (subOf (by decide) sub) ?_
    | with_reducible refine avsFailed_touch (subOf (by decide) sub) ?_ | intro _ | split | dsimp only

theorem avsTimeout_touch {fs : List Piece} {s0 : State} {b : BId} {c : Nat} {s : State}
    (sub : [.out, .freeCtr, .rp, .rl, .log, .pw, .hw, .dk, .us] ⊆ fs) (h0 : Touch fs s0 s) : Touch fs s0 (avsTimeout b c s)
    := by
  unfold avsTimeout
  try dsimp only
  repeat' first
    | with_reducible assumption | with_reducible refine avsReadDone_touch (subOf (by decide) sub) ?_
    | with_reducible refine avsFailed_touch (subOf (by decide) sub) ?_ | intro _ | split | dsimp only

theorem voltageSettle_touch {fs : List Piece} {s0 : State} {b : BId} {k : Nat} {s : State} (sub : [.pw] ⊆ fs) (h0
    : Touch fs s0 s) : Touch fs s0 (voltageSettle b k s) := by
  unfold voltageSettle
  try dsimp only
  repeat' first
    | with_reducible assumption | with_reducible refine State.updPart_touch (subOf (by decide) sub) ?_ | intro _
    | split | dsimp only

theorem settleTimeout_touch {fs : List Piece} {s0 : State} {b : BId} {k : Nat} {s : State}
    (sub : [.out, .freeCtr, .rp, .rl, .log, .pw, .hw, .dk, .us] ⊆ fs) (h0 : Touch fs s0 s) : Touch fs s0 (settleTimeout b k s)
    := by
  unfold settleTimeout
  try dsimp only
  repeat' first
    | with_reducible assumption | with_reducible refine updAvs_touch (subOf (by decide) sub) ?_
    | with_reducible refine State.updPart_touch (subOf (by decide) sub) ?_
    | with_reducible refine avsGiveUp_touch (subOf (by decide) sub) ?_
    | with_reducible refine avsSend_touch (subOf (by decide) sub) ?_ | intro _ | split | dsimp only

theorem trimTick_touch {fs : List Piece} {s0 : State} {b : BId} {s : State} (sub : [.out, .rl, .pw] ⊆ fs) (h0 : Touch fs s0 s)
    : Touch fs s0 (trimTick b s) := by
  unfold trimTick
  try dsimp only
  repeat' first
    | with_reducible assumption | with_reducible refine avsWrite_touch (subOf (by decide) sub) ?_
    | with_reducible refine State.updRl_touch (subOf (by decide) sub) ?_ | with_reducible refine Touch.iter ?_ ?_
    | intro _ | split | dsimp only

theorem thermalLoopStep_touch {fs : List Piece} {s0 : State} {b : BId} {k : Nat} {temp : Bool} {s : State}
    (sub : [.out, .rl, .pw, .hw] ⊆ fs) (h0 : Touch fs s0 s) : Touch fs s0 (thermalLoopStep b k temp s) := by
  unfold thermalLoopStep
  try dsimp only
  repeat' first
    | with_reducible assumption | with_reducible refine capsChanged_touch (subOf (by decide) sub) ?_
    | with_reducible refine State.updPart_touch (subOf (by decide) sub) ?_ | intro _ | split | dsimp only

theorem thermalCapRelease_touch {fs : List Piece} {s0 : State} {b : BId} {k : Nat} {temp : Bool} {s : State}
    (sub : [.out, .rl, .pw, .hw] ⊆ fs) (h0 : Touch fs s0 s) : Touch fs s0 (thermalCapRelease b k temp s) := by
  unfold thermalCapRelease
  try dsimp only
  repeat' first
    | with_reducible assumption | with_reducible refine capsChanged_touch (subOf (by decide) sub) ?_
    | with_reducible refine State.updPart_touch (subOf (by decide) sub) ?_ | intro _ | split | dsimp only

theorem scanComplete_touch {fs : List Piece} {s0 : State} {b : BId} {s : State} (sub : [.rl, .pw] ⊆ fs) (h0 : Touch fs s0 s)
    : Touch fs s0 (scanComplete b s) := by
  unfold scanComplete
  try dsimp only
  repeat' first
    | with_reducible assumption | with_reducible refine State.updRl_touch (subOf (by decide) sub) ?_
    | with_reducible refine State.updPw_touch (subOf (by decide) sub) ?_ | intro _ | split | dsimp only

theorem overGrantLower_touch {fs : List Piece} {s0 : State} {b : BId} {s : State} (sub : [.out, .rl, .pw, .hw] ⊆ fs) (h0
    : Touch fs s0 s) : Touch fs s0 (overGrantLower b s) := by
  unfold overGrantLower
  try dsimp only
  repeat' first
    | with_reducible assumption | with_reducible refine State.updPw_touch (subOf (by decide) sub) ?_
    | with_reducible refine capsChanged_touch (subOf (by decide) sub) ?_
    | with_reducible refine State.updPart_touch (subOf (by decide) sub) ?_ | with_reducible refine Touch.iter ?_ ?_
    | intro _ | split | dsimp only

theorem underGrantRaise_touch {fs : List Piece} {s0 : State} {b : BId} {s : State} (sub : [.out, .rl, .pw, .hw] ⊆ fs) (h0
    : Touch fs s0 s) : Touch fs s0 (underGrantRaise b s) := by
  unfold underGrantRaise
  try dsimp only
  repeat' first
    | with_reducible assumption | with_reducible refine State.updPw_touch (subOf (by decide) sub) ?_
    | with_reducible refine capsChanged_touch (subOf (by decide) sub) ?_
    | with_reducible refine State.updPart_touch (subOf (by decide) sub) ?_ | with_reducible refine Touch.iter ?_ ?_
    | intro _ | split | dsimp only
end Sys2Proof.Machine
end

