-- ==== Sys2Proof/Laws/Touch/Cooling.lean ====
section
/-! SUPPORT. What each operation of Machine/Cooling.lean can touch. -/
set_option linter.unusedTactic false
set_option linter.unreachableTactic false
namespace Sys2Proof.Machine

theorem updCool_touch {fs : List Piece} {s0 : State} {b : BId} {c : Nat} {f : Cool → Cool} {s : State} (sub : [.cl] ⊆ fs) (h0
    : Touch fs s0 s) : Touch fs s0 (updCool b c f s) := by
  unfold updCool
  try dsimp only
  repeat' first
    | with_reducible assumption | with_reducible refine State.updCl_touch (subOf (by decide) sub) ?_ | intro _
    | split | dsimp only

theorem pwmPeriodStart_touch {fs : List Piece} {s0 : State} {b : BId} {c : Nat} {s : State} (sub : [.cl] ⊆ fs) (h0
    : Touch fs s0 s) : Touch fs s0 (pwmPeriodStart b c s) := by
  unfold pwmPeriodStart
  try dsimp only
  repeat' first
    | with_reducible assumption | with_reducible refine updCool_touch (subOf (by decide) sub) ?_ | intro _ | split
    | dsimp only

theorem dutyWrite_touch {fs : List Piece} {s0 : State} {b : BId} {c : Nat} {req : ReqId} {w : Word} {s : State}
    (sub : [.cl] ⊆ fs) (h0 : Touch fs s0 s) : Touch fs s0 (dutyWrite b c req w s) := by
  unfold dutyWrite
  try dsimp only
  repeat' first
    | with_reducible assumption | with_reducible refine updCool_touch (subOf (by decide) sub) ?_ | intro _ | split
    | dsimp only

theorem zoneUpdate_touch {fs : List Piece} {s0 : State} {b : BId} {s : State} (sub : [.out, .rp, .cl] ⊆ fs) (h0
    : Touch fs s0 s) : Touch fs s0 (zoneUpdate b s) := by
  unfold zoneUpdate
  try dsimp only
  repeat' first
    | with_reducible assumption | with_reducible refine ringSend_touch (subOf (by decide) sub) ?_
    | with_reducible refine State.updCl_touch (subOf (by decide) sub) ?_ | intro _ | split | dsimp only

theorem kickStart_touch {fs : List Piece} {s0 : State} {b : BId} {c : Nat} {s : State} (sub : [.out, .rp, .cl] ⊆ fs) (h0
    : Touch fs s0 s) : Touch fs s0 (kickStart b c s) := by
  unfold kickStart
  try dsimp only
  repeat' first
    | with_reducible assumption | with_reducible refine zoneUpdate_touch (subOf (by decide) sub) ?_
    | with_reducible refine updCool_touch (subOf (by decide) sub) ?_ | intro _ | split | dsimp only

theorem speedMeasured_touch {fs : List Piece} {s0 : State} {b : BId} {c : Nat} {speed : Nat} {s : State}
    (sub : [.out, .rp, .cl] ⊆ fs) (h0 : Touch fs s0 s) : Touch fs s0 (speedMeasured b c speed s) := by
  unfold speedMeasured
  try dsimp only
  repeat' first
    | with_reducible assumption | with_reducible refine zoneUpdate_touch (subOf (by decide) sub) ?_
    | with_reducible refine updCool_touch (subOf (by decide) sub) ?_ | intro _ | split | dsimp only

theorem tachEdge_touch {fs : List Piece} {s0 : State} {b : BId} {c : Nat} {t_ : Nat} {s : State} (sub : [.out, .rp, .cl] ⊆ fs)
    (h0 : Touch fs s0 s) : Touch fs s0 (tachEdge b c t_ s) := by
  unfold tachEdge
  try dsimp only
  repeat' first
    | with_reducible assumption | with_reducible refine updCool_touch (subOf (by decide) sub) ?_
    | with_reducible refine speedMeasured_touch (subOf (by decide) sub) ?_ | intro _ | split | dsimp only

theorem coolRetire_touch {fs : List Piece} {s0 : State} {b : BId} {c : Nat} {cls : Nat} {events : Nat} {s : State}
    (sub : [.out, .freeCtr, .rp, .log, .cl, .dk, .us] ⊆ fs) (h0 : Touch fs s0 s) : Touch fs s0 (coolRetire b c cls events s)
    := by
  unfold coolRetire
  try dsimp only
  repeat' first
    | with_reducible assumption | with_reducible refine updCool_touch (subOf (by decide) sub) ?_
    | with_reducible refine logRec_touch (subOf (by decide) sub) ?_
    | with_reducible refine notice_touch (subOf (by decide) sub) ?_
    | with_reducible refine zoneUpdate_touch (subOf (by decide) sub) ?_ | intro _ | split | dsimp only

theorem encoderEvent_touch {fs : List Piece} {s0 : State} {b : BId} {c : Nat} {s : State}
    (sub : [.out, .freeCtr, .rp, .log, .cl, .dk, .us] ⊆ fs) (h0 : Touch fs s0 s) : Touch fs s0 (encoderEvent b c s) := by
  unfold encoderEvent
  try dsimp only
  repeat' first
    | with_reducible assumption | with_reducible refine updCool_touch (subOf (by decide) sub) ?_
    | with_reducible refine coolRetire_touch (subOf (by decide) sub) ?_ | intro _ | split | dsimp only

theorem encoderChange_touch {fs : List Piece} {s0 : State} {b : BId} {c : Nat} {e_ : EncChange} {s : State}
    (sub : [.out, .freeCtr, .rp, .log, .cl, .dk, .us] ⊆ fs) (h0 : Touch fs s0 s) : Touch fs s0 (encoderChange b c e_ s) := by
  unfold encoderChange
  try dsimp only
  repeat' first
    | with_reducible assumption | with_reducible refine updCool_touch (subOf (by decide) sub) ?_
    | with_reducible refine encoderEvent_touch (subOf (by decide) sub) ?_ | intro _ | split | dsimp only

theorem indexEdge_touch {fs : List Piece} {s0 : State} {b : BId} {c : Nat} {s : State}
    (sub : [.out, .freeCtr, .rp, .log, .cl, .dk, .us] ⊆ fs) (h0 : Touch fs s0 s) : Touch fs s0 (indexEdge b c s) := by
  unfold indexEdge
  try dsimp only
  repeat' first
    | with_reducible assumption | with_reducible refine updCool_touch (subOf (by decide) sub) ?_
    | with_reducible refine encoderEvent_touch (subOf (by decide) sub) ?_ | intro _ | split | dsimp only

theorem pumpGate_touch {fs : List Piece} {s0 : State} {b : BId} {c : Nat} {s : State} (sub : [.out, .rp, .cl] ⊆ fs) (h0
    : Touch fs s0 s) : Touch fs s0 (pumpGate b c s) := by
  unfold pumpGate
  try dsimp only
  repeat' first
    | with_reducible assumption | with_reducible refine updCool_touch (subOf (by decide) sub) ?_
    | with_reducible refine speedMeasured_touch (subOf (by decide) sub) ?_ | intro _ | split | dsimp only

theorem stall_touch {fs : List Piece} {s0 : State} {b : BId} {c : Nat} {failed : Bool} {e_ : Nat} {s : State}
    (sub : [.out, .freeCtr, .rp, .log, .cl, .dk, .us] ⊆ fs) (h0 : Touch fs s0 s) : Touch fs s0 (stall b c failed e_ s) := by
  unfold stall
  try dsimp only
  repeat' first
    | with_reducible assumption | with_reducible refine updCool_touch (subOf (by decide) sub) ?_
    | with_reducible refine logRec_touch (subOf (by decide) sub) ?_
    | with_reducible refine coolRetire_touch (subOf (by decide) sub) ?_
    | with_reducible refine zoneUpdate_touch (subOf (by decide) sub) ?_ | intro _ | split | dsimp only

theorem kickTimeout_touch {fs : List Piece} {s0 : State} {b : BId} {c : Nat} {e_ : Nat} {s : State}
    (sub : [.out, .freeCtr, .rp, .log, .cl, .dk, .us] ⊆ fs) (h0 : Touch fs s0 s) : Touch fs s0 (kickTimeout b c e_ s) := by
  unfold kickTimeout
  try dsimp only
  repeat' first
    | with_reducible assumption | with_reducible refine stall_touch (subOf (by decide) sub) ?_ | intro _ | split
    | dsimp only

theorem stallDetect_touch {fs : List Piece} {s0 : State} {b : BId} {c : Nat} {e_ : Nat} {s : State}
    (sub : [.out, .freeCtr, .rp, .log, .cl, .dk, .us] ⊆ fs) (h0 : Touch fs s0 s) : Touch fs s0 (stallDetect b c e_ s) := by
  unfold stallDetect
  try dsimp only
  repeat' first
    | with_reducible assumption | with_reducible refine stall_touch (subOf (by decide) sub) ?_ | intro _ | split
    | dsimp only

theorem stallRetry_touch {fs : List Piece} {s0 : State} {b : BId} {c : Nat} {s : State} (sub : [.cl] ⊆ fs) (h0
    : Touch fs s0 s) : Touch fs s0 (stallRetry b c s) := by
  unfold stallRetry
  try dsimp only
  repeat' first
    | with_reducible assumption | with_reducible refine updCool_touch (subOf (by decide) sub) ?_ | intro _ | split
    | dsimp only

theorem retryOffEnd_touch {fs : List Piece} {s0 : State} {b : BId} {c : Nat} {s : State} (sub : [.out, .rp, .cl] ⊆ fs) (h0
    : Touch fs s0 s) : Touch fs s0 (retryOffEnd b c s) := by
  unfold retryOffEnd
  try dsimp only
  repeat' first
    | with_reducible assumption | with_reducible refine kickStart_touch (subOf (by decide) sub) ?_ | intro _
    | split | dsimp only

theorem zoneNotice_touch {fs : List Piece} {s0 : State} {b : BId} {m : BId} {z : Word} {s : State} (sub : [.cl] ⊆ fs) (h0
    : Touch fs s0 s) : Touch fs s0 (zoneNotice b m z s) := by
  unfold zoneNotice
  try dsimp only
  repeat' first
    | with_reducible assumption | with_reducible refine State.updCl_touch (subOf (by decide) sub) ?_ | intro _
    | split | dsimp only

theorem wdogEnd_touch {fs : List Piece} {s0 : State} {b : BId} {c : Nat} {s : State}
    (sub : [.out, .freeCtr, .rp, .log, .cl, .dk, .us] ⊆ fs) (h0 : Touch fs s0 s) : Touch fs s0 (wdogEnd b c s) := by
  unfold wdogEnd
  try dsimp only
  repeat' first
    | with_reducible assumption | with_reducible refine logRec_touch (subOf (by decide) sub) ?_
    | with_reducible refine updCool_touch (subOf (by decide) sub) ?_ | intro _ | split | dsimp only

theorem hostActNotice_touch {fs : List Piece} {s0 : State} {b : BId} {s : State}
    (sub : [.out, .freeCtr, .rp, .log, .cl, .dk, .us] ⊆ fs) (h0 : Touch fs s0 s) : Touch fs s0 (hostActNotice b s) := by
  unfold hostActNotice
  try dsimp only
  repeat' first
    | with_reducible assumption | with_reducible refine wdogEnd_touch (subOf (by decide) sub) ?_
    | with_reducible refine State.updCl_touch (subOf (by decide) sub) ?_ | with_reducible refine Touch.iter ?_ ?_
    | intro _ | split | dsimp only

theorem silenceExpiry_touch {fs : List Piece} {s0 : State} {b : BId} {c : Nat} {s : State}
    (sub : [.out, .freeCtr, .rp, .log, .cl, .dk, .tw, .us] ⊆ fs) (h0 : Touch fs s0 s) : Touch fs s0 (silenceExpiry b c s)
    := by
  unfold silenceExpiry
  try dsimp only
  repeat' first
    | with_reducible assumption | with_reducible refine updCool_touch (subOf (by decide) sub) ?_
    | with_reducible refine logRec_touch (subOf (by decide) sub) ?_
    | with_reducible refine attn_touch (subOf (by decide) sub) ?_ | intro _ | split | dsimp only

theorem updRope_touch {fs : List Piece} {s0 : State} {b : BId} {r : Nat} {f : Rope → Rope} {s : State} (sub : [.cl] ⊆ fs) (h0
    : Touch fs s0 s) : Touch fs s0 (updRope b r f s) := by
  unfold updRope
  try dsimp only
  repeat' first
    | with_reducible assumption | with_reducible refine State.updCl_touch (subOf (by decide) sub) ?_ | intro _
    | split | dsimp only

theorem ropeTell_touch {fs : List Piece} {s0 : State} {b : BId} {r : Nat} {s : State} (sub : [.out, .rp, .cl] ⊆ fs) (h0
    : Touch fs s0 s) : Touch fs s0 (ropeTell b r s) := by
  unfold ropeTell
  try dsimp only
  repeat' first
    | with_reducible assumption | with_reducible refine State.updCl_touch (subOf (by decide) sub) ?_
    | with_reducible refine ringSend_touch (subOf (by decide) sub) ?_ | intro _ | split | dsimp only

theorem leakRecord_touch {fs : List Piece} {s0 : State} {b : BId} {r : Nat} {s : State}
    (sub : [.out, .freeCtr, .rp, .log, .dk, .us] ⊆ fs) (h0 : Touch fs s0 s) : Touch fs s0 (leakRecord b r s) := by
  unfold leakRecord
  try dsimp only
  repeat' first
    | with_reducible assumption | with_reducible refine logRec_touch (subOf (by decide) sub) ?_ | intro _ | split
    | dsimp only

theorem leakAtHarbour_touch {fs : List Piece} {s0 : State} {mask : Nat} {s : State}
    (sub : [.freeCtr, .pw, .dk, .tw, .us, .tray] ⊆ fs) (h0 : Touch fs s0 s) : Touch fs s0 (leakAtHarbour mask s) := by
  unfold leakAtHarbour
  try dsimp only
  repeat' first
    | with_reducible assumption | with_reducible refine attn_touch (subOf (by decide) sub) ?_
    | with_reducible refine withdraw_touch (subOf (by decide) sub) ?_ | with_reducible refine Touch.iter ?_ ?_
    | intro _ | split | dsimp only

theorem leakTrump_touch {fs : List Piece} {s0 : State} {b : BId} {r : Nat} {s : State}
    (sub : [.out, .freeCtr, .rp, .rl, .log, .pw, .hw, .svc, .cl, .pl, .dk, .dm, .tw, .us, .tray, .tcm, .deck] ⊆ fs) (h0
    : Touch fs s0 s) : Touch fs s0 (leakTrump b r s) := by
  unfold leakTrump
  try dsimp only
  repeat' first
    | with_reducible assumption | with_reducible refine updRope_touch (subOf (by decide) sub) ?_
    | with_reducible refine leakRecord_touch (subOf (by decide) sub) ?_
    | with_reducible refine ropeTell_touch (subOf (by decide) sub) ?_
    | with_reducible refine State.updCl_touch (subOf (by decide) sub) ?_
    | with_reducible refine shutdown_touch (subOf (by decide) sub) ?_
    | with_reducible refine ringSend_touch (subOf (by decide) sub) ?_
    | with_reducible refine leakAtHarbour_touch (subOf (by decide) sub) ?_ | intro _ | split | dsimp only

theorem leakTrumpReceive_touch {fs : List Piece} {s0 : State} {n : BId} {m : BId} {mask : Nat} {s : State}
    (sub : [.out, .freeCtr, .rp, .rl, .log, .pw, .hw, .svc, .cl, .pl, .dk, .dm, .tw, .us, .tray, .tcm, .deck] ⊆ fs) (h0
    : Touch fs s0 s) : Touch fs s0 (leakTrumpReceive n m mask s) := by
  unfold leakTrumpReceive
  try dsimp only
  repeat' first
    | with_reducible assumption | with_reducible refine shutdown_touch (subOf (by decide) sub) ?_
    | with_reducible refine leakAtHarbour_touch (subOf (by decide) sub) ?_ | intro _ | split | dsimp only

theorem ropeOpen_touch {fs : List Piece} {s0 : State} {b : BId} {r : Nat} {s : State}
    (sub : [.out, .freeCtr, .rp, .rl, .log, .pw, .hw, .svc, .cl, .pl, .dk, .dm, .tw, .us, .tray, .tcm, .deck] ⊆ fs) (h0
    : Touch fs s0 s) : Touch fs s0 (ropeOpen b r s) := by
  unfold ropeOpen
  try dsimp only
  repeat' first
    | with_reducible assumption | with_reducible refine updRope_touch (subOf (by decide) sub) ?_
    | with_reducible refine logRec_touch (subOf (by decide) sub) ?_
    | with_reducible refine notice_touch (subOf (by decide) sub) ?_
    | with_reducible refine gateCheck_touch (subOf (by decide) sub) ?_
    | with_reducible refine ropeTell_touch (subOf (by decide) sub) ?_ | intro _ | split | dsimp only

theorem ropeDry_touch {fs : List Piece} {s0 : State} {b : BId} {r : Nat} {s : State} (sub : [.out, .rp, .cl] ⊆ fs) (h0
    : Touch fs s0 s) : Touch fs s0 (ropeDry b r s) := by
  unfold ropeDry
  try dsimp only
  repeat' first
    | with_reducible assumption | with_reducible refine ropeTell_touch (subOf (by decide) sub) ?_
    | with_reducible refine updRope_touch (subOf (by decide) sub) ?_ | intro _ | split | dsimp only

theorem ropeNotice_touch {fs : List Piece} {s0 : State} {n : BId} {m : BId} {r : Nat} {st : RopeState} {latch : Bool}
    {s : State}
    (sub : [.out, .freeCtr, .rp, .rl, .log, .pw, .hw, .svc, .cl, .pl, .dk, .dm, .tw, .us, .tray, .tcm, .deck] ⊆ fs) (h0
    : Touch fs s0 s) : Touch fs s0 (ropeNotice n m r st latch s) := by
  unfold ropeNotice
  try dsimp only
  repeat' first
    | with_reducible assumption | with_reducible refine gateCheck_touch (subOf (by decide) sub) ?_
    | with_reducible refine State.updCl_touch (subOf (by decide) sub) ?_ | intro _ | split | dsimp only

theorem lkClear_touch {fs : List Piece} {s0 : State} {b : BId} {req : ReqId} {w : Word} {s : State}
    (sub : [.out, .freeCtr, .rp, .log, .cl, .dk, .us] ⊆ fs) (h0 : Touch fs s0 s) : Touch fs s0 (lkClear b req w s) := by
  unfold lkClear
  try dsimp only
  repeat' first
    | with_reducible assumption | with_reducible refine updRope_touch (subOf (by decide) sub) ?_
    | with_reducible refine ropeTell_touch (subOf (by decide) sub) ?_
    | with_reducible refine logRec_touch (subOf (by decide) sub) ?_ | intro _ | split | dsimp only
end Sys2Proof.Machine
end

