-- ==== Sys2Proof/Laws/Touch/Service.lean ====
section
/-! SUPPORT. What each operation of Machine/Service.lean can touch. -/
set_option linter.unusedTactic false
set_option linter.unreachableTactic false
namespace Sys2Proof.Machine

theorem svcIssue_touch {fs : List Piece} {s0 : State} {b : BId} {o : Order} {s : State}
    (sub : [.freeCtr, .hw, .svc, .pl, .dk, .deck] ⊆ fs) (h0 : Touch fs s0 s) : Touch fs s0 (svcIssue b o s) := by
  unfold svcIssue
  try dsimp only
  repeat' first
    | with_reducible assumption | with_reducible refine deckAlloc_touch (subOf (by decide) sub) ?_
    | with_reducible refine bufWrite_touch (subOf (by decide) sub) ?_
    | with_reducible refine issueHw_touch (subOf (by decide) sub) ?_
    | with_reducible refine State.updSvc_touch (subOf (by decide) sub) ?_ | intro _ | split
    | with_reducible refine deckAlloc_touch_eq (subOf (by decide) sub) (by with_reducible assumption) ?_
    | dsimp only

theorem svcRetry_touch {fs : List Piece} {s0 : State} {b : BId} {s : State}
    (sub : [.freeCtr, .hw, .svc, .pl, .dk, .deck] ⊆ fs) (h0 : Touch fs s0 s) : Touch fs s0 (svcRetry b s) := by
  unfold svcRetry
  try dsimp only
  repeat' first
    | with_reducible assumption | with_reducible refine svcIssue_touch (subOf (by decide) sub) ?_
    | with_reducible refine State.updSvc_touch (subOf (by decide) sub) ?_ | with_reducible refine Touch.iter ?_ ?_
    | intro _ | split | dsimp only

theorem svcSend_touch {fs : List Piece} {s0 : State} {b : BId} {s : State} (sub : [.freeCtr, .hw, .svc, .pl, .dk, .deck] ⊆ fs)
    (h0 : Touch fs s0 s) : Touch fs s0 (svcSend b s) := by
  unfold svcSend
  try dsimp only
  repeat' first
    | with_reducible assumption | with_reducible refine State.updSvc_touch (subOf (by decide) sub) ?_
    | with_reducible refine svcIssue_touch (subOf (by decide) sub) ?_ | intro _ | split | dsimp only

theorem svcGo_touch {fs : List Piece} {s0 : State} {b : BId} {st : SvcStep} {s : State}
    (sub : [.freeCtr, .hw, .svc, .pl, .dk, .deck] ⊆ fs) (h0 : Touch fs s0 s) : Touch fs s0 (svcGo b st s) := by
  unfold svcGo
  try dsimp only
  repeat' first
    | with_reducible assumption | with_reducible refine svcSend_touch (subOf (by decide) sub) ?_
    | with_reducible refine State.updSvc_touch (subOf (by decide) sub) ?_ | intro _ | split | dsimp only

theorem deriveCores_touch {fs : List Piece} {s0 : State} {b : BId} {s : State} (sub : [.pw, .hw, .svc] ⊆ fs) (h0
    : Touch fs s0 s) : Touch fs s0 (deriveCores b s) := by
  unfold deriveCores
  try dsimp only
  repeat' first
    | with_reducible assumption | with_reducible refine State.updSvc_touch (subOf (by decide) sub) ?_
    | with_reducible refine State.updPw_touch (subOf (by decide) sub) ?_
    | with_reducible refine sendFreq_touch (subOf (by decide) sub) ?_ | with_reducible refine Touch.iter ?_ ?_
    | intro _ | split | dsimp only

theorem takeTable_touch {fs : List Piece} {s0 : State} {b : BId} {t_ : List Byte} {s : State}
    (sub : [.out, .freeCtr, .rp, .log, .pw, .hw, .svc, .dk, .us] ⊆ fs) (h0 : Touch fs s0 s) : Touch fs s0 (takeTable b t_ s)
    := by
  unfold takeTable
  try dsimp only
  repeat' first
    | with_reducible assumption | with_reducible refine logRec_touch (subOf (by decide) sub) ?_
    | with_reducible refine State.updSvc_touch (subOf (by decide) sub) ?_
    | with_reducible refine deriveCores_touch (subOf (by decide) sub) ?_ | with_reducible refine Touch.iter ?_ ?_
    | intro _ | split | dsimp only

theorem stageStart_touch {fs : List Piece} {s0 : State} {b : BId} {st : SvcState} {s : State}
    (sub : [.freeCtr, .svc, .pl, .dk, .tw, .us] ⊆ fs) (h0 : Touch fs s0 s) : Touch fs s0 (stageStart b st s) := by
  unfold stageStart
  try dsimp only
  repeat' first
    | with_reducible assumption | with_reducible refine State.updSvc_touch (subOf (by decide) sub) ?_
    | with_reducible refine setSvc_touch (subOf (by decide) sub) ?_ | intro _ | split | dsimp only

theorem svcRest_touch {fs : List Piece} {s0 : State} {b : BId} {s : State} (sub : [.freeCtr, .hw, .svc, .pl, .dk, .deck] ⊆ fs)
    (h0 : Touch fs s0 s) : Touch fs s0 (svcRest b s) := by
  unfold svcRest
  try dsimp only
  repeat' first
    | with_reducible assumption | with_reducible refine State.updSvc_touch (subOf (by decide) sub) ?_
    | with_reducible refine svcGo_touch (subOf (by decide) sub) ?_ | intro _ | split | dsimp only

theorem resetEnd_touch {fs : List Piece} {s0 : State} {b : BId} {s : State}
    (sub : [.out, .freeCtr, .rp, .log, .hw, .svc, .pl, .dk, .tw, .us, .deck] ⊆ fs) (h0 : Touch fs s0 s)
    : Touch fs s0 (resetEnd b s) := by
  unfold resetEnd
  try dsimp only
  repeat' first
    | with_reducible assumption | with_reducible refine State.updSvc_touch (subOf (by decide) sub) ?_
    | with_reducible refine svcRest_touch (subOf (by decide) sub) ?_
    | with_reducible refine setSvc_touch (subOf (by decide) sub) ?_
    | with_reducible refine logReset_touch (subOf (by decide) sub) ?_ | intro _ | split | dsimp only

theorem markReady_touch {fs : List Piece} {s0 : State} {b : BId} {mask : Nat} {s : State} (sub : [.out, .rl, .pw] ⊆ fs) (h0
    : Touch fs s0 s) : Touch fs s0 (markReady b mask s) := by
  unfold markReady
  try dsimp only
  repeat' first
    | with_reducible assumption | with_reducible refine retarget_touch (subOf (by decide) sub) ?_
    | with_reducible refine State.updPart_touch (subOf (by decide) sub) ?_ | with_reducible refine Touch.iter ?_ ?_
    | intro _ | split | dsimp only

theorem endCores_touch {fs : List Piece} {s0 : State} {b : BId} {s : State}
    (sub : [.out, .freeCtr, .rp, .rl, .log, .pw, .hw, .svc, .pl, .dk, .tw, .us, .deck] ⊆ fs) (h0 : Touch fs s0 s)
    : Touch fs s0 (endCores b s) := by
  unfold endCores
  try dsimp only
  repeat' first
    | with_reducible assumption | with_reducible refine stageDone_touch (subOf (by decide) sub) ?_
    | with_reducible refine markReady_touch (subOf (by decide) sub) ?_
    | with_reducible refine resetEnd_touch (subOf (by decide) sub) ?_
    | with_reducible refine svcRest_touch (subOf (by decide) sub) ?_
    | with_reducible refine setSvc_touch (subOf (by decide) sub) ?_ | intro _ | split | dsimp only

theorem startCores_touch {fs : List Piece} {s0 : State} {b : BId} {s : State}
    (sub : [.freeCtr, .hw, .svc, .pl, .dk, .tw, .us, .deck] ⊆ fs) (h0 : Touch fs s0 s) : Touch fs s0 (startCores b s) := by
  unfold startCores
  try dsimp only
  repeat' first
    | with_reducible assumption | with_reducible refine svcGo_touch (subOf (by decide) sub) ?_
    | with_reducible refine stageStart_touch (subOf (by decide) sub) ?_ | intro _ | split | dsimp only

theorem startLinks_touch {fs : List Piece} {s0 : State} {b : BId} {s : State}
    (sub : [.freeCtr, .hw, .svc, .pl, .dk, .tw, .us, .deck] ⊆ fs) (h0 : Touch fs s0 s) : Touch fs s0 (startLinks b s) := by
  unfold startLinks
  try dsimp only
  repeat' first
    | with_reducible assumption | with_reducible refine State.updSvc_touch (subOf (by decide) sub) ?_
    | with_reducible refine svcGo_touch (subOf (by decide) sub) ?_
    | with_reducible refine stageStart_touch (subOf (by decide) sub) ?_ | intro _ | split | dsimp only

theorem startMemory_touch {fs : List Piece} {s0 : State} {b : BId} {s : State}
    (sub : [.freeCtr, .hw, .svc, .pl, .dk, .tw, .us, .deck] ⊆ fs) (h0 : Touch fs s0 s) : Touch fs s0 (startMemory b s) := by
  unfold startMemory
  try dsimp only
  repeat' first
    | with_reducible assumption | with_reducible refine svcGo_touch (subOf (by decide) sub) ?_
    | with_reducible refine stageStart_touch (subOf (by decide) sub) ?_ | intro _ | split | dsimp only

theorem startClocks_touch {fs : List Piece} {s0 : State} {b : BId} {s : State}
    (sub : [.freeCtr, .hw, .svc, .pl, .dk, .tw, .us, .deck] ⊆ fs) (h0 : Touch fs s0 s) : Touch fs s0 (startClocks b s) := by
  unfold startClocks
  try dsimp only
  repeat' first
    | with_reducible assumption | with_reducible refine svcGo_touch (subOf (by decide) sub) ?_
    | with_reducible refine stageStart_touch (subOf (by decide) sub) ?_ | intro _ | split | dsimp only

theorem endFirmware_touch {fs : List Piece} {s0 : State} {b : BId} {s : State}
    (sub : [.out, .freeCtr, .rp, .log, .hw, .svc, .pl, .dk, .tw, .us, .deck] ⊆ fs) (h0 : Touch fs s0 s)
    : Touch fs s0 (endFirmware b s) := by
  unfold endFirmware
  try dsimp only
  repeat' first
    | with_reducible assumption | with_reducible refine State.updSvc_touch (subOf (by decide) sub) ?_
    | with_reducible refine stageDone_touch (subOf (by decide) sub) ?_
    | with_reducible refine startClocks_touch (subOf (by decide) sub) ?_ | intro _ | split | dsimp only

theorem startFirmware_touch {fs : List Piece} {s0 : State} {b : BId} {s : State}
    (sub : [.out, .freeCtr, .rp, .log, .pw, .hw, .svc, .pl, .dk, .dm, .tw, .us, .tcm, .deck] ⊆ fs) (h0 : Touch fs s0 s)
    : Touch fs s0 (startFirmware b s) := by
  unfold startFirmware
  try dsimp only
  repeat' first
    | with_reducible assumption | with_reducible refine stageStart_touch (subOf (by decide) sub) ?_
    | with_reducible refine endFirmware_touch (subOf (by decide) sub) ?_
    | with_reducible refine svcFail_touch (subOf (by decide) sub) ?_
    | with_reducible refine svcGo_touch (subOf (by decide) sub) ?_
    | with_reducible refine State.updSvc_touch (subOf (by decide) sub) ?_ | intro _ | split | dsimp only

theorem startMgmt_touch {fs : List Piece} {s0 : State} {b : BId} {s : State}
    (sub : [.out, .freeCtr, .rp, .log, .hw, .svc, .pl, .dk, .tw, .us, .deck] ⊆ fs) (h0 : Touch fs s0 s)
    : Touch fs s0 (startMgmt b s) := by
  unfold startMgmt
  try dsimp only
  repeat' first
    | with_reducible assumption | with_reducible refine linkStart_touch (subOf (by decide) sub) ?_
    | with_reducible refine stageStart_touch (subOf (by decide) sub) ?_
    | with_reducible refine svcGo_touch (subOf (by decide) sub) ?_
    | with_reducible refine State.updSvc_touch (subOf (by decide) sub) ?_ | intro _ | split | dsimp only

theorem svcLinkUp_touch {fs : List Piece} {s0 : State} {b : BId} {s : State}
    (sub : [.freeCtr, .hw, .svc, .pl, .dk, .deck] ⊆ fs) (h0 : Touch fs s0 s) : Touch fs s0 (svcLinkUp b s) := by
  unfold svcLinkUp
  try dsimp only
  repeat' first
    | with_reducible assumption | with_reducible refine svcGo_touch (subOf (by decide) sub) ?_ | intro _ | split
    | dsimp only

theorem identReply_touch {fs : List Piece} {s0 : State} {b : BId} {d : List Byte} {s : State}
    (sub : [.out, .freeCtr, .rp, .log, .pw, .hw, .svc, .pl, .dk, .dm, .tw, .us, .tcm, .deck] ⊆ fs) (h0 : Touch fs s0 s)
    : Touch fs s0 (identReply b d s) := by
  unfold identReply
  try dsimp only
  repeat' first
    | with_reducible assumption | with_reducible refine State.updSvc_touch (subOf (by decide) sub) ?_
    | with_reducible refine svcFail_touch (subOf (by decide) sub) ?_
    | with_reducible refine startFirmware_touch (subOf (by decide) sub) ?_
    | with_reducible refine stageDone_touch (subOf (by decide) sub) ?_ | intro _ | split | dsimp only

theorem pushReply_touch {fs : List Piece} {s0 : State} {b : BId} {off : Nat} {s : State}
    (sub : [.out, .freeCtr, .rp, .log, .pw, .hw, .svc, .pl, .dk, .dm, .tw, .us, .tcm, .deck] ⊆ fs) (h0 : Touch fs s0 s)
    : Touch fs s0 (pushReply b off s) := by
  unfold pushReply
  try dsimp only
  repeat' first
    | with_reducible assumption | with_reducible refine svcGo_touch (subOf (by decide) sub) ?_
    | with_reducible refine svcFail_touch (subOf (by decide) sub) ?_ | intro _ | split | dsimp only

theorem fwCrcReply_touch {fs : List Piece} {s0 : State} {b : BId} {d : List Byte} {s : State}
    (sub : [.out, .freeCtr, .rp, .log, .pw, .hw, .svc, .pl, .dk, .dm, .tw, .us, .tcm, .deck] ⊆ fs) (h0 : Touch fs s0 s)
    : Touch fs s0 (fwCrcReply b d s) := by
  unfold fwCrcReply
  try dsimp only
  repeat' first
    | with_reducible assumption | with_reducible refine svcFail_touch (subOf (by decide) sub) ?_
    | with_reducible refine svcGo_touch (subOf (by decide) sub) ?_ | intro _ | split | dsimp only

theorem disableCheck_touch {fs : List Piece} {s0 : State} {b : BId} {s : State}
    (sub : [.out, .freeCtr, .rp, .log, .pw, .hw, .svc, .dk, .us] ⊆ fs) (h0 : Touch fs s0 s) : Touch fs s0 (disableCheck b s)
    := by
  unfold disableCheck
  try dsimp only
  repeat' first
    | with_reducible assumption | with_reducible refine State.updSvc_touch (subOf (by decide) sub) ?_
    | with_reducible refine logRec_touch (subOf (by decide) sub) ?_
    | with_reducible refine deriveCores_touch (subOf (by decide) sub) ?_
    | with_reducible refine notice_touch (subOf (by decide) sub) ?_ | intro _ | split | dsimp only

theorem writeBack_touch {fs : List Piece} {s0 : State} {b : BId} {s : State}
    (sub : [.out, .freeCtr, .rp, .log, .pw, .hw, .svc, .pl, .dk, .us, .deck] ⊆ fs) (h0 : Touch fs s0 s)
    : Touch fs s0 (writeBack b s) := by
  unfold writeBack
  try dsimp only
  repeat' first
    | with_reducible assumption | with_reducible refine svcGo_touch (subOf (by decide) sub) ?_
    | with_reducible refine disableCheck_touch (subOf (by decide) sub) ?_ | intro _ | split | dsimp only

theorem verified_touch {fs : List Piece} {s0 : State} {b : BId} {s : State}
    (sub : [.out, .freeCtr, .rp, .log, .pw, .hw, .svc, .pl, .dk, .dm, .tw, .us, .tcm, .deck] ⊆ fs) (h0 : Touch fs s0 s)
    : Touch fs s0 (verified b s) := by
  unfold verified
  try dsimp only
  repeat' first
    | with_reducible assumption | with_reducible refine svcGo_touch (subOf (by decide) sub) ?_
    | with_reducible refine svcFail_touch (subOf (by decide) sub) ?_ | intro _ | split | dsimp only

theorem fnDone_touch {fs : List Piece} {s0 : State} {b : BId} {f : CtrlFn} {s : State}
    (sub : [.out, .freeCtr, .rp, .rl, .log, .pw, .hw, .svc, .pl, .dk, .tw, .us, .deck] ⊆ fs) (h0 : Touch fs s0 s)
    : Touch fs s0 (fnDone b f s) := by
  unfold fnDone
  try dsimp only
  repeat' first
    | with_reducible assumption | with_reducible refine svcGo_touch (subOf (by decide) sub) ?_
    | with_reducible refine endFirmware_touch (subOf (by decide) sub) ?_
    | with_reducible refine startMemory_touch (subOf (by decide) sub) ?_
    | with_reducible refine stageDone_touch (subOf (by decide) sub) ?_
    | with_reducible refine startCores_touch (subOf (by decide) sub) ?_
    | with_reducible refine svcRest_touch (subOf (by decide) sub) ?_
    | with_reducible refine endCores_touch (subOf (by decide) sub) ?_
    | with_reducible refine resetEnd_touch (subOf (by decide) sub) ?_
    | with_reducible refine markReady_touch (subOf (by decide) sub) ?_
    | with_reducible refine State.updSvc_touch (subOf (by decide) sub) ?_
    | with_reducible refine startClocks_touch (subOf (by decide) sub) ?_
    | with_reducible refine writeBack_touch (subOf (by decide) sub) ?_ | intro _ | split | dsimp only

theorem svcStuck_touch {fs : List Piece} {s0 : State} {b : BId} {code : Nat} {s : State}
    (sub : [.out, .freeCtr, .rp, .log, .pw, .hw, .svc, .pl, .dk, .dm, .tw, .us, .tcm, .deck] ⊆ fs) (h0 : Touch fs s0 s)
    : Touch fs s0 (svcStuck b code s) := by
  unfold svcStuck
  try dsimp only
  repeat' first
    | with_reducible assumption | with_reducible refine svcFail_touch (subOf (by decide) sub) ?_
    | with_reducible refine svcRest_touch (subOf (by decide) sub) ?_ | intro _ | split | dsimp only

theorem statusReply_touch {fs : List Piece} {s0 : State} {b : BId} {f : CtrlFn} {d : List Byte} {s : State}
    (sub : [.out, .freeCtr, .rp, .rl, .log, .pw, .hw, .svc, .pl, .dk, .dm, .tw, .us, .tcm, .deck] ⊆ fs) (h0 : Touch fs s0 s)
    : Touch fs s0 (statusReply b f d s) := by
  unfold statusReply
  try dsimp only
  repeat' first
    | with_reducible assumption | with_reducible refine fnDone_touch (subOf (by decide) sub) ?_
    | with_reducible refine svcStuck_touch (subOf (by decide) sub) ?_
    | with_reducible refine State.updSvc_touch (subOf (by decide) sub) ?_ | intro _ | split | dsimp only

theorem tableReply_touch {fs : List Piece} {s0 : State} {b : BId} {off : Nat} {tries : Nat} {d : List Byte} {s : State}
    (sub : [.out, .freeCtr, .rp, .log, .pw, .hw, .svc, .pl, .dk, .dm, .tw, .us, .tcm, .deck] ⊆ fs) (h0 : Touch fs s0 s)
    : Touch fs s0 (tableReply b off tries d s) := by
  unfold tableReply
  try dsimp only
  repeat' first
    | with_reducible assumption | with_reducible refine State.updSvc_touch (subOf (by decide) sub) ?_
    | with_reducible refine svcGo_touch (subOf (by decide) sub) ?_
    | with_reducible refine takeTable_touch (subOf (by decide) sub) ?_
    | with_reducible refine svcFail_touch (subOf (by decide) sub) ?_ | intro _ | split | dsimp only

theorem limitWritten_touch {fs : List Piece} {s0 : State} {b : BId} {off : Nat} {s : State}
    (sub : [.freeCtr, .hw, .svc, .pl, .dk, .deck] ⊆ fs) (h0 : Touch fs s0 s) : Touch fs s0 (limitWritten b off s) := by
  unfold limitWritten
  try dsimp only
  repeat' first
    | with_reducible assumption | with_reducible refine svcGo_touch (subOf (by decide) sub) ?_ | intro _ | split
    | dsimp only

theorem limitReply_touch {fs : List Piece} {s0 : State} {b : BId} {off : Nat} {d : List Byte} {s : State}
    (sub : [.out, .freeCtr, .rp, .log, .pw, .hw, .svc, .pl, .dk, .dm, .tw, .us, .tcm, .deck] ⊆ fs) (h0 : Touch fs s0 s)
    : Touch fs s0 (limitReply b off d s) := by
  unfold limitReply
  try dsimp only
  repeat' first
    | with_reducible assumption | with_reducible refine svcFail_touch (subOf (by decide) sub) ?_
    | with_reducible refine svcGo_touch (subOf (by decide) sub) ?_
    | with_reducible refine verified_touch (subOf (by decide) sub) ?_ | intro _ | split | dsimp only

theorem padFree_touch {fs : List Piece} {s0 : State} {y0 : Nat} {y1 : List Byte} {s : State} (sub : [.freeCtr] ⊆ fs) (h0
    : Touch fs s0 s) : Touch fs s0 (padFree y0 y1 s).2 := by
  induction y0 generalizing y1 s with
  | zero => unfold padFree; exact h0
  | succ n ih =>
    cases y1 with
    | nil => exact ih (State.draw_touch sub h0)
    | cons d ds => exact ih h0

theorem padFree_touch_eq {fs : List Piece} {s0 : State} {y0 : Nat} {y1 : List Byte} {y2 : State} {r0} {t : State}
    (sub : [.freeCtr] ⊆ fs) (eq_ : padFree y0 y1 y2 = (r0, t)) (h0 : Touch fs s0 y2) : Touch fs s0 t := by
  have := @padFree_touch fs s0 y0 y1 y2 sub  h0
  rw [eq_] at this; exact this

theorem svcOk_touch {fs : List Piece} {s0 : State} {b : BId} {d : List Byte} {s : State}
    (sub : [.out, .freeCtr, .rp, .rl, .log, .pw, .hw, .svc, .pl, .dk, .dm, .tw, .us, .tcm, .deck] ⊆ fs) (h0 : Touch fs s0 s)
    : Touch fs s0 (svcOk b d s) := by
  unfold svcOk
  try dsimp only
  repeat' first
    | with_reducible assumption | with_reducible refine identReply_touch (subOf (by decide) sub) ?_
    | with_reducible refine pushReply_touch (subOf (by decide) sub) ?_
    | with_reducible refine fwCrcReply_touch (subOf (by decide) sub) ?_
    | with_reducible refine State.updSvc_touch (subOf (by decide) sub) ?_
    | with_reducible refine statusReply_touch (subOf (by decide) sub) ?_
    | with_reducible refine startLinks_touch (subOf (by decide) sub) ?_
    | with_reducible refine stageDone_touch (subOf (by decide) sub) ?_
    | with_reducible refine svcGo_touch (subOf (by decide) sub) ?_
    | with_reducible refine tableReply_touch (subOf (by decide) sub) ?_
    | with_reducible refine limitWritten_touch (subOf (by decide) sub) ?_
    | with_reducible refine svcFail_touch (subOf (by decide) sub) ?_
    | with_reducible refine limitReply_touch (subOf (by decide) sub) ?_ | intro _ | split | dsimp only

theorem svcReply_touch {fs : List Piece} {s0 : State} {b : BId} {o : Order} {num : Nat} {status : Nat} {d : List Byte}
    {s : State} (sub : [.out, .freeCtr, .rp, .rl, .log, .pw, .hw, .svc, .pl, .dk, .dm, .tw, .us, .tcm, .deck] ⊆ fs) (h0
    : Touch fs s0 s) : Touch fs s0 (svcReply b o num status d s) := by
  unfold svcReply
  try dsimp only
  repeat' first
    | with_reducible assumption | with_reducible refine padFree_touch (subOf (by decide) sub) ?_
    | with_reducible refine svcOk_touch (subOf (by decide) sub) ?_
    | with_reducible refine State.updSvc_touch (subOf (by decide) sub) ?_
    | with_reducible refine svcStuck_touch (subOf (by decide) sub) ?_ | intro _ | split
    | with_reducible refine padFree_touch_eq (subOf (by decide) sub) (by with_reducible assumption) ?_ | dsimp only

theorem svcResult_touch {fs : List Piece} {s0 : State} {b : BId} {cmd : Nat} {res : Nat} {req : ReqId} {s : State}
    (sub : [.svc] ⊆ fs) (h0 : Touch fs s0 s) : Touch fs s0 (svcResult b cmd res req s) := by
  unfold svcResult
  try dsimp only
  repeat' first
    | with_reducible assumption | with_reducible refine State.updSvc_touch (subOf (by decide) sub) ?_ | intro _
    | split | dsimp only

theorem svcAbort_touch {fs : List Piece} {s0 : State} {b : BId} {req : ReqId} {s : State}
    (sub : [.out, .freeCtr, .rp, .log, .pw, .hw, .svc, .pl, .dk, .dm, .tw, .us, .tcm, .deck] ⊆ fs) (h0 : Touch fs s0 s)
    : Touch fs s0 (svcAbort b req s) := by
  unfold svcAbort
  try dsimp only
  repeat' first
    | with_reducible assumption | with_reducible refine svcResult_touch (subOf (by decide) sub) ?_
    | with_reducible refine svcFail_touch (subOf (by decide) sub) ?_ | intro _ | split | dsimp only

theorem bringUp_touch {fs : List Piece} {s0 : State} {b : BId} {req : ReqId} {s : State}
    (sub : [.freeCtr, .svc, .pl, .dk, .tw, .us] ⊆ fs) (h0 : Touch fs s0 s) : Touch fs s0 (bringUp b req s) := by
  unfold bringUp
  try dsimp only
  repeat' first
    | with_reducible assumption | with_reducible refine State.updSvc_touch (subOf (by decide) sub) ?_
    | with_reducible refine svcResult_touch (subOf (by decide) sub) ?_
    | with_reducible refine setSvc_touch (subOf (by decide) sub) ?_ | intro _ | split | dsimp only

theorem coreEvent_touch {fs : List Piece} {s0 : State} {b : BId} {c : Nat} {s : State} (sub : [.svc] ⊆ fs) (h0
    : Touch fs s0 s) : Touch fs s0 (coreEvent b c s) := by
  unfold coreEvent
  try dsimp only
  repeat' first
    | with_reducible assumption | with_reducible refine State.updSvc_touch (subOf (by decide) sub) ?_ | intro _
    | split | dsimp only

theorem resetStart_touch {fs : List Piece} {s0 : State} {b : BId} {level : Nat} {unit : Nat} {absorb : Bool} {s : State}
    (sub : [.freeCtr, .pw, .hw, .svc, .pl, .dk, .tw, .us, .deck] ⊆ fs) (h0 : Touch fs s0 s)
    : Touch fs s0 (resetStart b level unit absorb s) := by
  unfold resetStart
  try dsimp only
  repeat' first
    | with_reducible assumption | with_reducible refine State.updSvc_touch (subOf (by decide) sub) ?_
    | with_reducible refine coreEvent_touch (subOf (by decide) sub) ?_
    | with_reducible refine setSvc_touch (subOf (by decide) sub) ?_
    | with_reducible refine withdrawReady_touch (subOf (by decide) sub) ?_
    | with_reducible refine svcGo_touch (subOf (by decide) sub) ?_ | intro _ | split | dsimp only

theorem serviceReset_touch {fs : List Piece} {s0 : State} {b : BId} {req : ReqId} {level : Nat} {unit : Nat} {absorb : Bool}
    {s : State} (sub : [.freeCtr, .pw, .hw, .svc, .pl, .dk, .tw, .us, .deck] ⊆ fs) (h0 : Touch fs s0 s)
    : Touch fs s0 (serviceReset b req level unit absorb s) := by
  unfold serviceReset
  try dsimp only
  repeat' first
    | with_reducible assumption | with_reducible refine svcResult_touch (subOf (by decide) sub) ?_
    | with_reducible refine resetStart_touch (subOf (by decide) sub) ?_ | intro _ | split | dsimp only

theorem mgmtStart_touch {fs : List Piece} {s0 : State} {b : BId} {s : State}
    (sub : [.out, .freeCtr, .rp, .log, .hw, .svc, .pl, .dk, .tw, .us, .deck] ⊆ fs) (h0 : Touch fs s0 s)
    : Touch fs s0 (mgmtStart b s) := by
  unfold mgmtStart
  try dsimp only
  repeat' first
    | with_reducible assumption | with_reducible refine startMgmt_touch (subOf (by decide) sub) ?_ | intro _
    | split | dsimp only

theorem statusPoll_touch {fs : List Piece} {s0 : State} {b : BId} {s : State}
    (sub : [.freeCtr, .hw, .svc, .pl, .dk, .deck] ⊆ fs) (h0 : Touch fs s0 s) : Touch fs s0 (statusPoll b s) := by
  unfold statusPoll
  try dsimp only
  repeat' first
    | with_reducible assumption | with_reducible refine svcGo_touch (subOf (by decide) sub) ?_ | intro _ | split
    | dsimp only

theorem busyReissue_touch {fs : List Piece} {s0 : State} {b : BId} {s : State}
    (sub : [.freeCtr, .hw, .svc, .pl, .dk, .deck] ⊆ fs) (h0 : Touch fs s0 s) : Touch fs s0 (busyReissue b s) := by
  unfold busyReissue
  try dsimp only
  repeat' first
    | with_reducible assumption | with_reducible refine svcSend_touch (subOf (by decide) sub) ?_ | intro _ | split
    | dsimp only

theorem stageTimeout_touch {fs : List Piece} {s0 : State} {b : BId} {s : State}
    (sub : [.out, .freeCtr, .rp, .log, .pw, .hw, .svc, .pl, .dk, .dm, .tw, .us, .tcm, .deck] ⊆ fs) (h0 : Touch fs s0 s)
    : Touch fs s0 (stageTimeout b s) := by
  unfold stageTimeout
  try dsimp only
  repeat' first
    | with_reducible assumption | with_reducible refine svcFail_touch (subOf (by decide) sub) ?_ | intro _ | split
    | dsimp only

theorem drainEscalate_touch {fs : List Piece} {s0 : State} {b : BId} {s : State}
    (sub : [.freeCtr, .hw, .svc, .pl, .dk, .deck] ⊆ fs) (h0 : Touch fs s0 s) : Touch fs s0 (drainEscalate b s) := by
  unfold drainEscalate
  try dsimp only
  repeat' first
    | with_reducible assumption | with_reducible refine svcGo_touch (subOf (by decide) sub) ?_
    | with_reducible refine State.updSvc_touch (subOf (by decide) sub) ?_ | intro _ | split | dsimp only

theorem resetHoldEnd_touch {fs : List Piece} {s0 : State} {b : BId} {s : State}
    (sub : [.freeCtr, .hw, .svc, .pl, .dk, .deck] ⊆ fs) (h0 : Touch fs s0 s) : Touch fs s0 (resetHoldEnd b s) := by
  unfold resetHoldEnd
  try dsimp only
  repeat' first
    | with_reducible assumption | with_reducible refine svcGo_touch (subOf (by decide) sub) ?_ | intro _ | split
    | dsimp only

theorem resetTimeout_touch {fs : List Piece} {s0 : State} {b : BId} {s : State}
    (sub : [.out, .freeCtr, .rp, .log, .pw, .hw, .svc, .pl, .dk, .dm, .tw, .us, .tcm, .deck] ⊆ fs) (h0 : Touch fs s0 s)
    : Touch fs s0 (resetTimeout b s) := by
  unfold resetTimeout
  try dsimp only
  repeat' first
    | with_reducible assumption | with_reducible refine svcFail_touch (subOf (by decide) sub) ?_ | intro _ | split
    | dsimp only

theorem reportPoll_touch {fs : List Piece} {s0 : State} {b : BId} {s : State}
    (sub : [.freeCtr, .hw, .svc, .pl, .dk, .deck] ⊆ fs) (h0 : Touch fs s0 s) : Touch fs s0 (reportPoll b s) := by
  unfold reportPoll
  try dsimp only
  repeat' first
    | with_reducible assumption | with_reducible refine svcIssue_touch (subOf (by decide) sub) ?_
    | with_reducible refine State.updSvc_touch (subOf (by decide) sub) ?_ | intro _ | split | dsimp only

theorem dispChange_touch {fs : List Piece} {s0 : State} {b : BId} {entry : Bool} {cause : Nat} {rep : Nat} {mv : Nat}
    {peers : Nat} {s : State} (sub : [.out, .freeCtr, .rp, .rl, .log, .pw, .hw, .svc, .dk, .us] ⊆ fs) (h0 : Touch fs s0 s)
    : Touch fs s0 (dispChange b entry cause rep mv peers s) := by
  unfold dispChange
  try dsimp only
  repeat' first
    | with_reducible assumption | with_reducible refine State.updSvc_touch (subOf (by decide) sub) ?_
    | with_reducible refine logRec_touch (subOf (by decide) sub) ?_
    | with_reducible refine capsChanged_touch (subOf (by decide) sub) ?_ | with_reducible refine Touch.iter ?_ ?_
    | intro _ | split | dsimp only

theorem compareUnit_touch {fs : List Piece} {s0 : State} {b : BId} {u : Nat} {cause : Nat} {rep : Nat} {mv : Nat}
    {peers : Nat} {s : State} (sub : [.out, .freeCtr, .rp, .rl, .log, .pw, .hw, .svc, .pl, .dk, .us, .deck] ⊆ fs) (h0
    : Touch fs s0 s) : Touch fs s0 (compareUnit b u cause rep mv peers s) := by
  unfold compareUnit
  try dsimp only
  repeat' first
    | with_reducible assumption | with_reducible refine State.updSvc_touch (subOf (by decide) sub) ?_
    | with_reducible refine dispChange_touch (subOf (by decide) sub) ?_
    | with_reducible refine svcRest_touch (subOf (by decide) sub) ?_ | intro _ | split | dsimp only

theorem reportReply_touch {fs : List Piece} {s0 : State} {b : BId} {o : Order} {status : Nat} {d : List Byte} {s : State}
    (sub : [.out, .freeCtr, .rp, .rl, .log, .pw, .hw, .svc, .pl, .dk, .us, .deck] ⊆ fs) (h0 : Touch fs s0 s)
    : Touch fs s0 (reportReply b o status d s) := by
  unfold reportReply
  try dsimp only
  repeat' first
    | with_reducible assumption | with_reducible refine compareUnit_touch (subOf (by decide) sub) ?_
    | with_reducible refine padFree_touch (subOf (by decide) sub) ?_
    | with_reducible refine State.updSvc_touch (subOf (by decide) sub) ?_ | with_reducible refine Touch.iter ?_ ?_
    | intro _ | split
    | with_reducible refine padFree_touch_eq (subOf (by decide) sub) (by with_reducible assumption) ?_ | dsimp only

theorem stateFix_touch {fs : List Piece} {s0 : State} {h : BId} {n : BId} {f : SlotFlit} {held : Admit} {action : Nat}
    {s : State} (sub : [.out, .freeCtr, .rp, .log, .svc, .dk, .us] ⊆ fs) (h0 : Touch fs s0 s)
    : Touch fs s0 (stateFix h n f held action s) := by
  unfold stateFix
  try dsimp only
  repeat' first
    | with_reducible assumption | with_reducible refine logRec_touch (subOf (by decide) sub) ?_
    | with_reducible refine State.updSvc_touch (subOf (by decide) sub) ?_ | intro _ | split | dsimp only

theorem flitCompare_touch {fs : List Piece} {s0 : State} {h : BId} {n : BId} {f : SlotFlit} {s : State}
    (sub : [.out, .freeCtr, .rp, .log, .pw, .svc, .dk, .us, .tray] ⊆ fs) (h0 : Touch fs s0 s)
    : Touch fs s0 (flitCompare h n f s) := by
  unfold flitCompare
  try dsimp only
  repeat' first
    | with_reducible assumption | with_reducible refine stateFix_touch (subOf (by decide) sub) ?_
    | with_reducible refine setGrant_touch (subOf (by decide) sub) ?_
    | with_reducible refine setAdmit_touch (subOf (by decide) sub) ?_
    | with_reducible refine withdraw_touch (subOf (by decide) sub) ?_
    | with_reducible refine State.updTray_touch (subOf (by decide) sub) ?_ | intro _ | split | dsimp only

theorem slotFlitReceive_touch {fs : List Piece} {s0 : State} {n : BId} {f : SlotFlit} {s : State}
    (sub : [.out, .freeCtr, .rp, .log, .pw, .svc, .dk, .us, .tray] ⊆ fs) (h0 : Touch fs s0 s)
    : Touch fs s0 (slotFlitReceive n f s) := by
  unfold slotFlitReceive
  try dsimp only
  repeat' first
    | with_reducible assumption | with_reducible refine flitCompare_touch (subOf (by decide) sub) ?_ | intro _
    | split | with_reducible refine Touch.updAll ?_ ?_
    | (refine TouchB.mk (fun f nf => ?_) (Berth.memCanonical_same rfl rfl rfl); cases f <;> first | exact absurd (sub (by decide)) nf | exact True.intro | exact rfl)
    | dsimp only
end Sys2Proof.Machine
end

