-- ==== Sys2Proof/Laws/Touch/Hawser.lean ====
section
/-! SUPPORT. What each operation of Machine/Hawser.lean can touch. -/
set_option linter.unusedTactic false
set_option linter.unreachableTactic false
namespace Sys2Proof.Machine

theorem cntHw_touch {fs : List Piece} {s0 : State} {b : BId} {f : HwCnt → HwCnt} {s : State} (sub : [.hw] ⊆ fs) (h0
    : Touch fs s0 s) : Touch fs s0 (cntHw b f s) := by
  unfold cntHw
  try dsimp only
  repeat' first
    | with_reducible assumption | with_reducible refine State.updHw_touch (subOf (by decide) sub) ?_ | intro _
    | split | dsimp only

theorem updRx_touch {fs : List Piece} {s0 : State} {b : BId} {f : HwRx → HwRx} {s : State} (sub : [.hw] ⊆ fs) (h0
    : Touch fs s0 s) : Touch fs s0 (updRx b f s) := by
  unfold updRx
  try dsimp only
  repeat' first
    | with_reducible assumption | with_reducible refine State.updHw_touch (subOf (by decide) sub) ?_ | intro _
    | split | dsimp only

theorem updTx_touch {fs : List Piece} {s0 : State} {b : BId} {f : HwTx → HwTx} {s : State} (sub : [.hw] ⊆ fs) (h0
    : Touch fs s0 s) : Touch fs s0 (updTx b f s) := by
  unfold updTx
  try dsimp only
  repeat' first
    | with_reducible assumption | with_reducible refine State.updHw_touch (subOf (by decide) sub) ?_ | intro _
    | split | dsimp only

theorem hwRetire_touch {fs : List Piece} {s0 : State} {b : BId} {events : Nat} {s : State}
    (sub : [.out, .freeCtr, .rp, .rl, .log, .pw, .hw, .svc, .cl, .pl, .dk, .dm, .tw, .us, .tray, .tcm, .deck] ⊆ fs) (h0
    : Touch fs s0 s) : Touch fs s0 (hwRetire b events s) := by
  unfold hwRetire
  try dsimp only
  repeat' first
    | with_reducible assumption | with_reducible refine linkStop_touch (subOf (by decide) sub) ?_
    | with_reducible refine withdraw_touch (subOf (by decide) sub) ?_
    | with_reducible refine retireSlot_touch (subOf (by decide) sub) ?_ | intro _ | split | dsimp only

theorem trainFailed_touch {fs : List Piece} {s0 : State} {b : BId} {cause : Nat} {s : State}
    (sub : [.out, .freeCtr, .rp, .rl, .log, .pw, .hw, .svc, .cl, .pl, .dk, .dm, .tw, .us, .tray, .tcm, .deck] ⊆ fs) (h0
    : Touch fs s0 s) : Touch fs s0 (trainFailed b cause s) := by
  unfold trainFailed
  try dsimp only
  repeat' first
    | with_reducible assumption | with_reducible refine cntHw_touch (subOf (by decide) sub) ?_
    | with_reducible refine State.updHw_touch (subOf (by decide) sub) ?_
    | with_reducible refine logLink_touch (subOf (by decide) sub) ?_
    | with_reducible refine hwRetire_touch (subOf (by decide) sub) ?_
    | with_reducible refine irq_touch (subOf (by decide) sub) ?_
    | with_reducible refine startTraining_touch (subOf (by decide) sub) ?_ | intro _ | split | dsimp only

theorem replayStart_touch {fs : List Piece} {s0 : State} {b : BId} {s : State}
    (sub : [.out, .freeCtr, .rp, .rl, .log, .pw, .hw, .svc, .cl, .pl, .dk, .dm, .tw, .us, .tray, .tcm, .deck] ⊆ fs) (h0
    : Touch fs s0 s) : Touch fs s0 (replayStart b s) := by
  unfold replayStart
  try dsimp only
  repeat' first
    | with_reducible assumption | with_reducible refine trainFailed_touch (subOf (by decide) sub) ?_
    | with_reducible refine hwRetrain_touch (subOf (by decide) sub) ?_
    | with_reducible refine updTx_touch (subOf (by decide) sub) ?_ | intro _ | split | dsimp only

theorem ackTo_touch {fs : List Piece} {s0 : State} {b : BId} {ack : Nat} {s : State} (sub : [.hw] ⊆ fs) (h0 : Touch fs s0 s)
    : Touch fs s0 (ackTo b ack s) := by
  unfold ackTo
  try dsimp only
  repeat' first
    | with_reducible assumption | with_reducible refine updTx_touch (subOf (by decide) sub) ?_ | intro _ | split
    | dsimp only

theorem takeHeader_touch {fs : List Piece} {s0 : State} {b : BId} {p0 : Word} {s : State}
    (sub : [.out, .freeCtr, .rp, .rl, .log, .pw, .hw, .svc, .cl, .pl, .dk, .dm, .tw, .us, .tray, .tcm, .deck] ⊆ fs) (h0
    : Touch fs s0 s) : Touch fs s0 (takeHeader b p0 s) := by
  unfold takeHeader
  try dsimp only
  repeat' first
    | with_reducible assumption | with_reducible refine ackTo_touch (subOf (by decide) sub) ?_
    | with_reducible refine updTx_touch (subOf (by decide) sub) ?_
    | with_reducible refine replayStart_touch (subOf (by decide) sub) ?_ | intro _ | split | dsimp only

theorem tagsMoved_touch {fs : List Piece} {s0 : State} {b : BId} {s : State}
    (sub : [.out, .freeCtr, .rp, .log, .hw, .pl, .dk, .dm, .us, .deck] ⊆ fs) (h0 : Touch fs s0 s)
    : Touch fs s0 (tagsMoved b s) := by
  unfold tagsMoved
  try dsimp only
  repeat' first
    | with_reducible assumption | with_reducible refine dmaPump_touch (subOf (by decide) sub) ?_
    | with_reducible refine issueWaiting_touch (subOf (by decide) sub) ?_ | intro _ | split | dsimp only

theorem enterUp_touch {fs : List Piece} {s0 : State} {b : BId} {s : State}
    (sub : [.out, .freeCtr, .rp, .log, .hw, .svc, .pl, .dk, .dm, .us, .deck] ⊆ fs) (h0 : Touch fs s0 s)
    : Touch fs s0 (enterUp b s) := by
  unfold enterUp
  try dsimp only
  repeat' first
    | with_reducible assumption | with_reducible refine setLink_touch (subOf (by decide) sub) ?_
    | with_reducible refine State.updHw_touch (subOf (by decide) sub) ?_
    | with_reducible refine svcLinkUp_touch (subOf (by decide) sub) ?_
    | with_reducible refine tagsMoved_touch (subOf (by decide) sub) ?_ | intro _ | split | dsimp only

theorem trainCount_touch {fs : List Piece} {s0 : State} {b : BId} {p0 : Word} {p1 : Word} {s : State}
    (sub : [.out, .freeCtr, .rp, .log, .hw, .svc, .pl, .dk, .dm, .us, .deck] ⊆ fs) (h0 : Touch fs s0 s)
    : Touch fs s0 (trainCount b p0 p1 s) := by
  unfold trainCount
  try dsimp only
  repeat' first
    | with_reducible assumption | with_reducible refine State.updHw_touch (subOf (by decide) sub) ?_
    | with_reducible refine enterUp_touch (subOf (by decide) sub) ?_ | intro _ | split | dsimp only

theorem trainBreak_touch {fs : List Piece} {s0 : State} {b : BId} {s : State} (sub : [.hw] ⊆ fs) (h0 : Touch fs s0 s)
    : Touch fs s0 (trainBreak b s) := by
  unfold trainBreak
  try dsimp only
  repeat' first
    | with_reducible assumption | with_reducible refine updRx_touch (subOf (by decide) sub) ?_ | intro _ | split
    | dsimp only

theorem trainFrame_touch {fs : List Piece} {s0 : State} {b : BId} {p0 : Word} {p1 : Word} {s : State}
    (sub : [.out, .freeCtr, .rp, .log, .hw, .svc, .pl, .dk, .dm, .us, .deck] ⊆ fs) (h0 : Touch fs s0 s)
    : Touch fs s0 (trainFrame b p0 p1 s) := by
  unfold trainFrame
  try dsimp only
  repeat' first
    | with_reducible assumption | with_reducible refine cntHw_touch (subOf (by decide) sub) ?_
    | with_reducible refine hwRetrain_touch (subOf (by decide) sub) ?_
    | with_reducible refine State.updHw_touch (subOf (by decide) sub) ?_
    | with_reducible refine trainCount_touch (subOf (by decide) sub) ?_
    | with_reducible refine trainBreak_touch (subOf (by decide) sub) ?_ | intro _ | split | dsimp only

theorem protoErr_touch {fs : List Piece} {s0 : State} {b : BId} {s : State} (sub : [.hw] ⊆ fs) (h0 : Touch fs s0 s)
    : Touch fs s0 (protoErr b s) := by
  unfold protoErr
  try dsimp only
  repeat' first
    | with_reducible assumption | with_reducible refine cntHw_touch (subOf (by decide) sub) ?_ | intro _ | split
    | dsimp only

theorem rxHeader_touch {fs : List Piece} {s0 : State} {b : BId} {kind : Nat} {ps : List Word} {s : State} (sub : [.hw] ⊆ fs)
    (h0 : Touch fs s0 s) : Touch fs s0 (rxHeader b kind ps s) := by
  unfold rxHeader
  try dsimp only
  repeat' first
    | with_reducible assumption | with_reducible refine protoErr_touch (subOf (by decide) sub) ?_
    | with_reducible refine updRx_touch (subOf (by decide) sub) ?_ | intro _ | split | dsimp only

theorem rxData_touch {fs : List Piece} {s0 : State} {b : BId} {ps : List Word} {s : State} (sub : [.hw] ⊆ fs) (h0
    : Touch fs s0 s) : Touch fs s0 (rxData b ps s) := by
  unfold rxData
  try dsimp only
  repeat' first
    | with_reducible assumption | with_reducible refine protoErr_touch (subOf (by decide) sub) ?_
    | with_reducible refine updRx_touch (subOf (by decide) sub) ?_ | intro _ | split | dsimp only

theorem setNak_touch {fs : List Piece} {s0 : State} {b : BId} {s : State} (sub : [.hw] ⊆ fs) (h0 : Touch fs s0 s)
    : Touch fs s0 (setNak b s) := by
  unfold setNak
  try dsimp only
  repeat' first
    | with_reducible assumption | with_reducible refine cntHw_touch (subOf (by decide) sub) ?_
    | with_reducible refine updRx_touch (subOf (by decide) sub) ?_ | intro _ | split | dsimp only

theorem seqFrame_touch {fs : List Piece} {s0 : State} {b : BId} {ps : List Word} {s : State} (sub : [.hw] ⊆ fs) (h0
    : Touch fs s0 s) : Touch fs s0 (seqFrame b ps s) := by
  unfold seqFrame
  try dsimp only
  repeat' first
    | with_reducible assumption | with_reducible refine updRx_touch (subOf (by decide) sub) ?_
    | with_reducible refine rxData_touch (subOf (by decide) sub) ?_
    | with_reducible refine protoErr_touch (subOf (by decide) sub) ?_
    | with_reducible refine rxHeader_touch (subOf (by decide) sub) ?_
    | with_reducible refine setNak_touch (subOf (by decide) sub) ?_ | intro _ | split | dsimp only

theorem goodFrame_touch {fs : List Piece} {s0 : State} {b : BId} {ps : List Word} {s : State}
    (sub : [.out, .freeCtr, .rp, .rl, .log, .pw, .hw, .svc, .cl, .pl, .dk, .dm, .tw, .us, .tray, .tcm, .deck] ⊆ fs) (h0
    : Touch fs s0 s) : Touch fs s0 (goodFrame b ps s) := by
  unfold goodFrame
  try dsimp only
  repeat' first
    | with_reducible assumption | with_reducible refine takeHeader_touch (subOf (by decide) sub) ?_
    | with_reducible refine trainFrame_touch (subOf (by decide) sub) ?_
    | with_reducible refine enterUp_touch (subOf (by decide) sub) ?_
    | with_reducible refine trainBreak_touch (subOf (by decide) sub) ?_
    | with_reducible refine seqFrame_touch (subOf (by decide) sub) ?_ | intro _ | split | dsimp only

theorem badFrame_touch {fs : List Piece} {s0 : State} {b : BId} {s : State} (sub : [.hw] ⊆ fs) (h0 : Touch fs s0 s)
    : Touch fs s0 (badFrame b s) := by
  unfold badFrame
  try dsimp only
  repeat' first
    | with_reducible assumption | with_reducible refine setNak_touch (subOf (by decide) sub) ?_
    | with_reducible refine trainBreak_touch (subOf (by decide) sub) ?_ | intro _ | split | dsimp only

theorem elastic_touch {fs : List Piece} {s0 : State} {b : BId} {idle : Bool} {fill : Nat} {s : State} (sub : [.hw] ⊆ fs) (h0
    : Touch fs s0 s) : Touch fs s0 (elastic b idle fill s) := by
  unfold elastic
  try dsimp only
  repeat' first
    | with_reducible assumption | with_reducible refine cntHw_touch (subOf (by decide) sub) ?_ | intro _ | split
    | dsimp only

theorem frameReceive_touch {fs : List Piece} {s0 : State} {b : BId} {raw : List Word} {fill : Nat} {s : State}
    (sub : [.out, .freeCtr, .rp, .rl, .log, .pw, .hw, .svc, .cl, .pl, .dk, .dm, .tw, .us, .tray, .tcm, .deck] ⊆ fs) (h0
    : Touch fs s0 s) : Touch fs s0 (frameReceive b raw fill s) := by
  unfold frameReceive
  try dsimp only
  repeat' first
    | with_reducible assumption | with_reducible refine updRx_touch (subOf (by decide) sub) ?_
    | with_reducible refine badFrame_touch (subOf (by decide) sub) ?_
    | with_reducible refine cntHw_touch (subOf (by decide) sub) ?_
    | with_reducible refine elastic_touch (subOf (by decide) sub) ?_
    | with_reducible refine protoErr_touch (subOf (by decide) sub) ?_
    | with_reducible refine goodFrame_touch (subOf (by decide) sub) ?_ | intro _ | split | dsimp only

theorem rxLock_touch {fs : List Piece} {s0 : State} {b : BId} {bits : List Bool} {s : State} (sub : [.hw] ⊆ fs) (h0
    : Touch fs s0 s) : Touch fs s0 (rxLock b bits s) := by
  unfold rxLock
  try dsimp only
  repeat' first
    | with_reducible assumption | with_reducible refine updRx_touch (subOf (by decide) sub) ?_ | intro _ | split
    | dsimp only

theorem falseLock_touch {fs : List Piece} {s0 : State} {b : BId} {s : State} (sub : [.hw] ⊆ fs) (h0 : Touch fs s0 s)
    : Touch fs s0 (falseLock b s) := by
  unfold falseLock
  try dsimp only
  repeat' first
    | with_reducible assumption | with_reducible refine cntHw_touch (subOf (by decide) sub) ?_
    | with_reducible refine updRx_touch (subOf (by decide) sub) ?_ | intro _ | split | dsimp only

theorem lockLost_touch {fs : List Piece} {s0 : State} {b : BId} {s : State}
    (sub : [.out, .freeCtr, .rp, .log, .hw, .pl, .dk, .us] ⊆ fs) (h0 : Touch fs s0 s) : Touch fs s0 (lockLost b s) := by
  unfold lockLost
  try dsimp only
  repeat' first
    | with_reducible assumption | with_reducible refine trainBreak_touch (subOf (by decide) sub) ?_
    | with_reducible refine updRx_touch (subOf (by decide) sub) ?_
    | with_reducible refine hwRetrain_touch (subOf (by decide) sub) ?_ | intro _ | split | dsimp only

theorem sendFrame_touch {fs : List Piece} {s0 : State} {b : BId} {ftype : Nat} {fseq : Nat} {ready : Bool} {body : List Word}
    {s : State} (sub : [.out, .hw] ⊆ fs) (h0 : Touch fs s0 s) : Touch fs s0 (sendFrame b ftype fseq ready body s) := by
  unfold sendFrame
  try dsimp only
  repeat' first
    | with_reducible assumption | with_reducible refine updTx_touch (subOf (by decide) sub) ?_
    | with_reducible refine cntHw_touch (subOf (by decide) sub) ?_
    | with_reducible refine State.emit_touch (subOf (by decide) sub) ?_ | intro _ | split | dsimp only

theorem sendTrain_touch {fs : List Piece} {s0 : State} {b : BId} {s : State} (sub : [.out, .hw] ⊆ fs) (h0 : Touch fs s0 s)
    : Touch fs s0 (sendTrain b s) := by
  unfold sendTrain
  try dsimp only
  repeat' first
    | with_reducible assumption | with_reducible refine sendFrame_touch (subOf (by decide) sub) ?_ | intro _
    | split | dsimp only

theorem sendIdle_touch {fs : List Piece} {s0 : State} {b : BId} {s : State} (sub : [.out, .hw] ⊆ fs) (h0 : Touch fs s0 s)
    : Touch fs s0 (sendIdle b s) := by
  unfold sendIdle
  try dsimp only
  repeat' first
    | with_reducible assumption | with_reducible refine sendFrame_touch (subOf (by decide) sub) ?_ | intro _
    | split | dsimp only

theorem sendNew_touch {fs : List Piece} {s0 : State} {b : BId} {s : State} (sub : [.out, .hw] ⊆ fs) (h0 : Touch fs s0 s)
    : Touch fs s0 (sendNew b s) := by
  unfold sendNew
  try dsimp only
  repeat' first
    | with_reducible assumption | with_reducible refine sendIdle_touch (subOf (by decide) sub) ?_
    | with_reducible refine updTx_touch (subOf (by decide) sub) ?_
    | with_reducible refine sendFrame_touch (subOf (by decide) sub) ?_ | intro _ | split | dsimp only

theorem sendReplay_touch {fs : List Piece} {s0 : State} {b : BId} {i : Nat} {s : State} (sub : [.out, .hw] ⊆ fs) (h0
    : Touch fs s0 s) : Touch fs s0 (sendReplay b i s) := by
  unfold sendReplay
  try dsimp only
  repeat' first
    | with_reducible assumption | with_reducible refine sendNew_touch (subOf (by decide) sub) ?_
    | with_reducible refine updTx_touch (subOf (by decide) sub) ?_
    | with_reducible refine sendIdle_touch (subOf (by decide) sub) ?_
    | with_reducible refine sendFrame_touch (subOf (by decide) sub) ?_
    | with_reducible refine cntHw_touch (subOf (by decide) sub) ?_ | intro _ | split | dsimp only

theorem txBoundary_touch {fs : List Piece} {s0 : State} {b : BId} {s : State} (sub : [.out, .hw] ⊆ fs) (h0 : Touch fs s0 s)
    : Touch fs s0 (txBoundary b s) := by
  unfold txBoundary
  try dsimp only
  repeat' first
    | with_reducible assumption | with_reducible refine sendTrain_touch (subOf (by decide) sub) ?_
    | with_reducible refine updTx_touch (subOf (by decide) sub) ?_
    | with_reducible refine sendIdle_touch (subOf (by decide) sub) ?_
    | with_reducible refine sendReplay_touch (subOf (by decide) sub) ?_
    | with_reducible refine sendNew_touch (subOf (by decide) sub) ?_ | intro _ | split | dsimp only

theorem ackTimeout_touch {fs : List Piece} {s0 : State} {b : BId} {s : State}
    (sub : [.out, .freeCtr, .rp, .rl, .log, .pw, .hw, .svc, .cl, .pl, .dk, .dm, .tw, .us, .tray, .tcm, .deck] ⊆ fs) (h0
    : Touch fs s0 s) : Touch fs s0 (ackTimeout b s) := by
  unfold ackTimeout
  try dsimp only
  repeat' first
    | with_reducible assumption | with_reducible refine replayStart_touch (subOf (by decide) sub) ?_ | intro _
    | split | dsimp only

theorem trainTimeout_touch {fs : List Piece} {s0 : State} {b : BId} {s : State}
    (sub : [.out, .freeCtr, .rp, .rl, .log, .pw, .hw, .svc, .cl, .pl, .dk, .dm, .tw, .us, .tray, .tcm, .deck] ⊆ fs) (h0
    : Touch fs s0 s) : Touch fs s0 (trainTimeout b s) := by
  unfold trainTimeout
  try dsimp only
  repeat' first
    | with_reducible assumption | with_reducible refine trainFailed_touch (subOf (by decide) sub) ?_ | intro _
    | split | dsimp only

theorem hwResult_touch {fs : List Piece} {s0 : State} {b : BId} {cmd : Nat} {res : Nat} {req : ReqId} {s : State}
    (sub : [.hw] ⊆ fs) (h0 : Touch fs s0 s) : Touch fs s0 (hwResult b cmd res req s) := by
  unfold hwResult
  try dsimp only
  repeat' first
    | with_reducible assumption | with_reducible refine State.updHw_touch (subOf (by decide) sub) ?_ | intro _
    | split | dsimp only

theorem hwStart_touch {fs : List Piece} {s0 : State} {b : BId} {req : ReqId} {s : State}
    (sub : [.out, .freeCtr, .rp, .log, .hw, .pl, .dk, .us] ⊆ fs) (h0 : Touch fs s0 s) : Touch fs s0 (hwStart b req s) := by
  unfold hwStart
  try dsimp only
  repeat' first
    | with_reducible assumption | with_reducible refine hwResult_touch (subOf (by decide) sub) ?_
    | with_reducible refine linkStart_touch (subOf (by decide) sub) ?_ | intro _ | split | dsimp only

theorem hwStop_touch {fs : List Piece} {s0 : State} {b : BId} {req : ReqId} {s : State}
    (sub : [.out, .freeCtr, .rp, .log, .pw, .hw, .svc, .pl, .dk, .dm, .tw, .us, .tcm, .deck] ⊆ fs) (h0 : Touch fs s0 s)
    : Touch fs s0 (hwStop b req s) := by
  unfold hwStop
  try dsimp only
  repeat' first
    | with_reducible assumption | with_reducible refine linkStop_touch (subOf (by decide) sub) ?_
    | with_reducible refine svcFailed_touch (subOf (by decide) sub) ?_
    | with_reducible refine hwResult_touch (subOf (by decide) sub) ?_ | intro _ | split | dsimp only

theorem hwRetrainCmd_touch {fs : List Piece} {s0 : State} {b : BId} {req : ReqId} {s : State}
    (sub : [.out, .freeCtr, .rp, .log, .hw, .pl, .dk, .us] ⊆ fs) (h0 : Touch fs s0 s) : Touch fs s0 (hwRetrainCmd b req s)
    := by
  unfold hwRetrainCmd
  try dsimp only
  repeat' first
    | with_reducible assumption | with_reducible refine hwResult_touch (subOf (by decide) sub) ?_
    | with_reducible refine hwRetrain_touch (subOf (by decide) sub) ?_ | intro _ | split | dsimp only

theorem freqDone_touch {fs : List Piece} {s0 : State} {b : BId} {k : Nat} {st : Nat} {status : Nat} {s : State}
    (sub : [.out, .rl, .pw, .hw] ⊆ fs) (h0 : Touch fs s0 s) : Touch fs s0 (freqDone b k st status s) := by
  unfold freqDone
  try dsimp only
  repeat' first
    | with_reducible assumption | with_reducible refine freqAcked_touch (subOf (by decide) sub) ?_
    | with_reducible refine cntHw_touch (subOf (by decide) sub) ?_
    | with_reducible refine State.updHw_touch (subOf (by decide) sub) ?_ | intro _ | split | dsimp only

theorem endTag_touch {fs : List Piece} {s0 : State} {b : BId} {tag : Nat} {o : Order} {timeout : Bool} {s : State}
    (sub : [.hw] ⊆ fs) (h0 : Touch fs s0 s) : Touch fs s0 (endTag b tag o timeout s) := by
  unfold endTag
  try dsimp only
  repeat' first
    | with_reducible assumption | with_reducible refine State.updHw_touch (subOf (by decide) sub) ?_ | intro _
    | split | dsimp only

theorem complete_touch {fs : List Piece} {s0 : State} {b : BId} {tag : Nat} {o : Order} {timeout : Bool} {status : Nat}
    {d : List Byte} {s : State}
    (sub : [.out, .freeCtr, .rp, .rl, .log, .pw, .hw, .svc, .pl, .dk, .dm, .tw, .us, .tcm, .deck] ⊆ fs) (h0 : Touch fs s0 s)
    : Touch fs s0 (complete b tag o timeout status d s) := by
  unfold complete
  try dsimp only
  repeat' first
    | with_reducible assumption | with_reducible refine freeSvcBuf_touch (subOf (by decide) sub) ?_
    | with_reducible refine endTag_touch (subOf (by decide) sub) ?_
    | with_reducible refine bufWrite_touch (subOf (by decide) sub) ?_
    | with_reducible refine pushCpl_touch (subOf (by decide) sub) ?_
    | with_reducible refine dmaOrderDone_touch (subOf (by decide) sub) ?_
    | with_reducible refine freqDone_touch (subOf (by decide) sub) ?_
    | with_reducible refine svcReply_touch (subOf (by decide) sub) ?_
    | with_reducible refine reportReply_touch (subOf (by decide) sub) ?_ | intro _ | split | dsimp only

theorem replyTo_touch {fs : List Piece} {s0 : State} {b : BId} {m : RxMsg} {s : State}
    (sub : [.out, .freeCtr, .rp, .rl, .log, .pw, .hw, .svc, .pl, .dk, .dm, .tw, .us, .tcm, .deck] ⊆ fs) (h0 : Touch fs s0 s)
    : Touch fs s0 (replyTo b m s) := by
  unfold replyTo
  try dsimp only
  repeat' first
    | with_reducible assumption | with_reducible refine tagsMoved_touch (subOf (by decide) sub) ?_
    | with_reducible refine complete_touch (subOf (by decide) sub) ?_
    | with_reducible refine protoErr_touch (subOf (by decide) sub) ?_
    | with_reducible refine cntHw_touch (subOf (by decide) sub) ?_
    | with_reducible refine State.updHw_touch (subOf (by decide) sub) ?_ | intro _ | split | dsimp only

theorem rxPop_touch {fs : List Piece} {s0 : State} {b : BId} {s : State} (sub : [.hw] ⊆ fs) (h0 : Touch fs s0 s)
    : Touch fs s0 (rxPop b s) := by
  unfold rxPop
  try dsimp only
  repeat' first
    | with_reducible assumption | with_reducible refine updRx_touch (subOf (by decide) sub) ?_ | intro _ | split
    | dsimp only

theorem replyReceive_touch {fs : List Piece} {s0 : State} {b : BId} {s : State}
    (sub : [.out, .freeCtr, .rp, .rl, .log, .pw, .hw, .svc, .pl, .dk, .dm, .tw, .us, .tcm, .deck] ⊆ fs) (h0 : Touch fs s0 s)
    : Touch fs s0 (replyReceive b s) := by
  unfold replyReceive
  try dsimp only
  repeat' first
    | with_reducible assumption | with_reducible refine replyTo_touch (subOf (by decide) sub) ?_
    | with_reducible refine rxPop_touch (subOf (by decide) sub) ?_ | intro _ | split | dsimp only

theorem eventReceive_touch {fs : List Piece} {s0 : State} {b : BId} {s : State} (sub : [.freeCtr, .hw, .pl, .dk, .deck] ⊆ fs)
    (h0 : Touch fs s0 s) : Touch fs s0 (eventReceive b s) := by
  unfold eventReceive
  try dsimp only
  repeat' first
    | with_reducible assumption | with_reducible refine deckAlloc_touch (subOf (by decide) sub) ?_
    | with_reducible refine bufWrite_touch (subOf (by decide) sub) ?_
    | with_reducible refine rxPop_touch (subOf (by decide) sub) ?_
    | with_reducible refine irq_touch (subOf (by decide) sub) ?_
    | with_reducible refine State.updHw_touch (subOf (by decide) sub) ?_ | intro _ | split
    | with_reducible refine deckAlloc_touch_eq (subOf (by decide) sub) (by with_reducible assumption) ?_
    | dsimp only

theorem replyTimeout_touch {fs : List Piece} {s0 : State} {b : BId} {tag : Nat} {s : State}
    (sub : [.out, .freeCtr, .rp, .rl, .log, .pw, .hw, .svc, .pl, .dk, .dm, .tw, .us, .tcm, .deck] ⊆ fs) (h0 : Touch fs s0 s)
    : Touch fs s0 (replyTimeout b tag s) := by
  unfold replyTimeout
  try dsimp only
  repeat' first
    | with_reducible assumption | with_reducible refine cntHw_touch (subOf (by decide) sub) ?_
    | with_reducible refine logRec_touch (subOf (by decide) sub) ?_
    | with_reducible refine complete_touch (subOf (by decide) sub) ?_
    | with_reducible refine hwRetrain_touch (subOf (by decide) sub) ?_
    | with_reducible refine tagsMoved_touch (subOf (by decide) sub) ?_ | intro _ | split | dsimp only

theorem freqResend_touch {fs : List Piece} {s0 : State} {b : BId} {k : Nat} {s : State} (sub : [.hw] ⊆ fs) (h0
    : Touch fs s0 s) : Touch fs s0 (freqResend b k s) := by
  unfold freqResend
  try dsimp only
  repeat' first
    | with_reducible assumption | with_reducible refine sendFreq_touch (subOf (by decide) sub) ?_ | intro _ | split
    | dsimp only

theorem ordResult_touch {fs : List Piece} {s0 : State} {b : BId} {req : ReqId} {tag : Option Nat} {code : Nat} {s : State}
    (sub : [.hw] ⊆ fs) (h0 : Touch fs s0 s) : Touch fs s0 (ordResult b req tag code s) := by
  unfold ordResult
  try dsimp only
  repeat' first
    | with_reducible assumption | with_reducible refine State.updHw_touch (subOf (by decide) sub) ?_ | intro _
    | split | dsimp only

theorem mailboxOrder_touch {fs : List Piece} {s0 : State} {b : BId} {req : ReqId} {op : OrdOp} {len : Nat} {s : State}
    (sub : [.hw] ⊆ fs) (h0 : Touch fs s0 s) : Touch fs s0 (mailboxOrder b req op len s) := by
  unfold mailboxOrder
  try dsimp only
  repeat' first
    | with_reducible assumption | with_reducible refine ordResult_touch (subOf (by decide) sub) ?_
    | with_reducible refine issue_touch (subOf (by decide) sub) ?_ | intro _ | split
    | with_reducible refine issue_touch_eq (subOf (by decide) sub) (by with_reducible assumption) ?_ | dsimp only

theorem cplRead_touch {fs : List Piece} {s0 : State} {b : BId} {s : State}
    (sub : [.out, .freeCtr, .rp, .log, .hw, .pl, .dk, .dm, .us, .deck] ⊆ fs) (h0 : Touch fs s0 s)
    : Touch fs s0 (cplRead b s).2 := by
  unfold cplRead
  try dsimp only
  repeat' first
    | with_reducible assumption | with_reducible refine State.updHw_touch (subOf (by decide) sub) ?_
    | with_reducible refine tagsMoved_touch (subOf (by decide) sub) ?_ | intro _ | split | dsimp only

theorem cplRead_touch_eq {fs : List Piece} {s0 : State} {b : BId} {s : State} {r0} {t : State}
    (sub : [.out, .freeCtr, .rp, .log, .hw, .pl, .dk, .dm, .us, .deck] ⊆ fs) (eq_ : cplRead b s = (r0, t)) (h0
    : Touch fs s0 s) : Touch fs s0 t := by
  have := @cplRead_touch fs s0 b s sub  h0
  rw [eq_] at this; exact this

theorem evqRead_touch {fs : List Piece} {s0 : State} {b : BId} {req : ReqId} {s : State} (sub : [.hw, .dk] ⊆ fs) (h0
    : Touch fs s0 s) : Touch fs s0 (evqRead b req s).2 := by
  unfold evqRead
  try dsimp only
  repeat' first
    | with_reducible assumption | with_reducible refine State.updHw_touch (subOf (by decide) sub) ?_
    | with_reducible refine State.updDk_touch (subOf (by decide) sub) ?_ | intro _ | split | dsimp only

theorem evqRead_touch_eq {fs : List Piece} {s0 : State} {b : BId} {req : ReqId} {s : State} {r0} {t : State}
    (sub : [.hw, .dk] ⊆ fs) (eq_ : evqRead b req s = (r0, t)) (h0 : Touch fs s0 s) : Touch fs s0 t := by
  have := @evqRead_touch fs s0 b req s sub  h0
  rw [eq_] at this; exact this
end Sys2Proof.Machine
end

