-- ==== Sys2Proof/Laws/Touch/Arrays.lean ====
section
/-! SUPPORT. What each operation of Machine/Arrays.lean can touch. -/
set_option linter.unusedTactic false
set_option linter.unreachableTactic false
namespace Sys2Proof.Machine

theorem updAr_touch {fs : List Piece} {s0 : State} {b : BId} {f : Ar → Ar} {s : State} (sub : [.ar] ⊆ fs) (h0 : Touch fs s0 s)
    : Touch fs s0 (updAr b f s) := by
  unfold updAr
  try dsimp only
  repeat' first
    | with_reducible assumption | intro _ | split | with_reducible refine Touch.upd ?_ ?_
    | (refine TouchB.mk (fun f nf => ?_) (Berth.memCanonical_same rfl rfl rfl); cases f <;> first | exact absurd (sub (by decide)) nf | exact True.intro | exact rfl)
    | dsimp only

theorem updArr_touch {fs : List Piece} {s0 : State} {b : BId} {k : Nat} {f : Arr → Arr} {s : State} (sub : [.ar] ⊆ fs) (h0
    : Touch fs s0 s) : Touch fs s0 (updArr b k f s) := by
  unfold updArr
  try dsimp only
  repeat' first
    | with_reducible assumption | with_reducible refine updAr_touch (subOf (by decide) sub) ?_ | intro _ | split
    | dsimp only

theorem arrRetire_touch {fs : List Piece} {s0 : State} {b : BId} {k : Nat} {s : State} (sub : [.ar] ⊆ fs) (h0 : Touch fs s0 s)
    : Touch fs s0 (arrRetire b k s) := by
  unfold arrRetire
  try dsimp only
  repeat' first
    | with_reducible assumption | with_reducible refine updArr_touch (subOf (by decide) sub) ?_ | intro _ | split
    | dsimp only

theorem arrEvent_touch {fs : List Piece} {s0 : State} {b : BId} {k : Nat} {cause : Nat} {s : State}
    (sub : [.out, .freeCtr, .rp, .log, .dk, .us, .ar] ⊆ fs) (h0 : Touch fs s0 s) : Touch fs s0 (arrEvent b k cause s) := by
  unfold arrEvent
  try dsimp only
  repeat' first
    | with_reducible assumption | with_reducible refine updArr_touch (subOf (by decide) sub) ?_
    | with_reducible refine logRec_touch (subOf (by decide) sub) ?_
    | with_reducible refine notice_touch (subOf (by decide) sub) ?_
    | with_reducible refine arrRetire_touch (subOf (by decide) sub) ?_ | intro _ | split | dsimp only

theorem applyRetire_touch {fs : List Piece} {s0 : State} {b : BId} {k : Nat} {c : Nat} {s : State}
    (sub : [.out, .freeCtr, .rp, .log, .dk, .us, .ar] ⊆ fs) (h0 : Touch fs s0 s) : Touch fs s0 (applyRetire b k c s) := by
  unfold applyRetire
  try dsimp only
  repeat' first
    | with_reducible assumption | with_reducible refine updArr_touch (subOf (by decide) sub) ?_
    | with_reducible refine arrEvent_touch (subOf (by decide) sub) ?_ | intro _ | split | dsimp only

theorem retireCol_touch {fs : List Piece} {s0 : State} {b : BId} {k : Nat} {c : Nat} {events : Nat} {s : State}
    (sub : [.out, .freeCtr, .rp, .log, .dk, .us, .ar] ⊆ fs) (h0 : Touch fs s0 s) : Touch fs s0 (retireCol b k c events s)
    := by
  unfold retireCol
  try dsimp only
  repeat' first
    | with_reducible assumption | with_reducible refine notice_touch (subOf (by decide) sub) ?_
    | with_reducible refine updArr_touch (subOf (by decide) sub) ?_
    | with_reducible refine applyRetire_touch (subOf (by decide) sub) ?_ | intro _ | split | dsimp only

theorem colEvent_touch {fs : List Piece} {s0 : State} {b : BId} {k : Nat} {c : Nat} {force : Bool} {e_ : Nat} {code : Nat}
    {masks : Nat} {s : State} (sub : [.out, .freeCtr, .rp, .log, .dk, .us, .ar] ⊆ fs) (h0 : Touch fs s0 s)
    : Touch fs s0 (colEvent b k c force e_ code masks s) := by
  unfold colEvent
  try dsimp only
  repeat' first
    | with_reducible assumption | with_reducible refine updArr_touch (subOf (by decide) sub) ?_
    | with_reducible refine logRec_touch (subOf (by decide) sub) ?_
    | with_reducible refine retireCol_touch (subOf (by decide) sub) ?_ | intro _ | split | dsimp only

theorem arEnd_touch {fs : List Piece} {s0 : State} {b : BId} {result : Nat} {st : ArrSt} {s : State}
    (sub : [.out, .freeCtr, .rp, .log, .pl, .dk, .us, .ar] ⊆ fs) (h0 : Touch fs s0 s) : Touch fs s0 (arEnd b result st s)
    := by
  unfold arEnd
  try dsimp only
  repeat' first
    | with_reducible assumption | with_reducible refine updArr_touch (subOf (by decide) sub) ?_
    | with_reducible refine updAr_touch (subOf (by decide) sub) ?_
    | with_reducible refine irq_touch (subOf (by decide) sub) ?_
    | with_reducible refine logRec_touch (subOf (by decide) sub) ?_ | intro _ | split | dsimp only

theorem arWrite_touch {fs : List Piece} {s0 : State} {b : BId} {a : Nat} {bs : List Byte} {s : State}
    (sub : [.pl, .tcm, .deck] ⊆ fs) (h0 : Touch fs s0 s) : Touch fs s0 (arWrite b a bs s) := by
  unfold arWrite
  try dsimp only
  repeat' first
    | with_reducible assumption | with_reducible refine State.tcmWrite_touch (subOf (by decide) sub) ?_
    | with_reducible refine State.deckWrite_touch (subOf (by decide) sub) ?_ | intro _ | split | dsimp only

theorem arFail_touch {fs : List Piece} {s0 : State} {b : BId} {half : Bool} {result : Nat} {s : State}
    (sub : [.out, .freeCtr, .rp, .log, .pl, .dk, .us, .ar] ⊆ fs) (h0 : Touch fs s0 s) : Touch fs s0 (arFail b half result s)
    := by
  unfold arFail
  try dsimp only
  repeat' first
    | with_reducible assumption | with_reducible refine arEnd_touch (subOf (by decide) sub) ?_
    | with_reducible refine updArr_touch (subOf (by decide) sub) ?_ | intro _ | split | dsimp only

theorem startRow_touch {fs : List Piece} {s0 : State} {b : BId} {r : Nat} {s : State}
    (sub : [.out, .freeCtr, .rp, .log, .pl, .dk, .us, .ar] ⊆ fs) (h0 : Touch fs s0 s) : Touch fs s0 (startRow b r s) := by
  unfold startRow
  try dsimp only
  repeat' first
    | with_reducible assumption | with_reducible refine arFail_touch (subOf (by decide) sub) ?_
    | with_reducible refine updAr_touch (subOf (by decide) sub) ?_ | intro _ | split | dsimp only

theorem arClosing_touch {fs : List Piece} {s0 : State} {b : BId} {s : State} (sub : [.ar] ⊆ fs) (h0 : Touch fs s0 s)
    : Touch fs s0 (arClosing b s) := by
  unfold arClosing
  try dsimp only
  repeat' first
    | with_reducible assumption | with_reducible refine updArr_touch (subOf (by decide) sub) ?_
    | with_reducible refine updAr_touch (subOf (by decide) sub) ?_ | intro _ | split | dsimp only

theorem applyPlan_touch {fs : List Piece} {s0 : State} {b : BId} {s : State} (sub : [.ar] ⊆ fs) (h0 : Touch fs s0 s)
    : Touch fs s0 (applyPlan b s) := by
  unfold applyPlan
  try dsimp only
  repeat' first
    | with_reducible assumption | with_reducible refine updArr_touch (subOf (by decide) sub) ?_
    | with_reducible refine Touch.foldl ?_ ?_ | with_reducible refine Touch.foldl2 ?_ ?_ | intro _ | split | dsimp only

theorem arLow_touch {fs : List Piece} {s0 : State} {b : BId} {s : State}
    (sub : [.out, .freeCtr, .rp, .log, .pl, .dk, .us, .ar] ⊆ fs) (h0 : Touch fs s0 s) : Touch fs s0 (arLow b s) := by
  unfold arLow
  try dsimp only
  repeat' first
    | with_reducible assumption | with_reducible refine startRow_touch (subOf (by decide) sub) ?_
    | with_reducible refine updAr_touch (subOf (by decide) sub) ?_
    | with_reducible refine arClosing_touch (subOf (by decide) sub) ?_ | intro _ | split | dsimp only

theorem nextRow_touch {fs : List Piece} {s0 : State} {b : BId} {s : State}
    (sub : [.out, .freeCtr, .rp, .log, .pl, .dk, .us, .ar] ⊆ fs) (h0 : Touch fs s0 s) : Touch fs s0 (nextRow b s) := by
  unfold nextRow
  try dsimp only
  repeat' first
    | with_reducible assumption | with_reducible refine updAr_touch (subOf (by decide) sub) ?_
    | with_reducible refine startRow_touch (subOf (by decide) sub) ?_
    | with_reducible refine arClosing_touch (subOf (by decide) sub) ?_
    | with_reducible refine applyPlan_touch (subOf (by decide) sub) ?_
    | with_reducible refine arLow_touch (subOf (by decide) sub) ?_ | intro _ | split | dsimp only

theorem takeRow_touch {fs : List Piece} {s0 : State} {b : BId} {w : BitVec 640} {s : State} (sub : [.ar] ⊆ fs) (h0
    : Touch fs s0 s) : Touch fs s0 (takeRow b w s) := by
  unfold takeRow
  try dsimp only
  repeat' first
    | with_reducible assumption | with_reducible refine updArr_touch (subOf (by decide) sub) ?_ | intro _ | split
    | dsimp only

theorem progSense_touch {fs : List Piece} {s0 : State} {b : BId} {w : BitVec 640} {mid : BitVec 160} {s : State}
    (sub : [.out, .freeCtr, .rp, .log, .pl, .dk, .us, .ar] ⊆ fs) (h0 : Touch fs s0 s) : Touch fs s0 (progSense b w mid s)
    := by
  unfold progSense
  try dsimp only
  repeat' first
    | with_reducible assumption | with_reducible refine nextRow_touch (subOf (by decide) sub) ?_
    | with_reducible refine updAr_touch (subOf (by decide) sub) ?_ | intro _ | split | dsimp only

theorem repairSense_touch {fs : List Piece} {s0 : State} {b : BId} {w : BitVec 640} {mid : BitVec 160} {s : State}
    (sub : [.out, .freeCtr, .rp, .log, .pl, .dk, .us, .ar] ⊆ fs) (h0 : Touch fs s0 s) : Touch fs s0 (repairSense b w mid s)
    := by
  unfold repairSense
  try dsimp only
  repeat' first
    | with_reducible assumption | with_reducible refine arFail_touch (subOf (by decide) sub) ?_
    | with_reducible refine progSense_touch (subOf (by decide) sub) ?_
    | with_reducible refine updAr_touch (subOf (by decide) sub) ?_ | intro _ | split | dsimp only

theorem rowSenseDone_touch {fs : List Piece} {s0 : State} {b : BId} {w : BitVec 640} {mid : BitVec 160} {s : State}
    (sub : [.out, .freeCtr, .rp, .log, .pl, .dk, .us, .ar] ⊆ fs) (h0 : Touch fs s0 s) : Touch fs s0 (rowSenseDone b w mid s)
    := by
  unfold rowSenseDone
  try dsimp only
  repeat' first
    | with_reducible assumption | with_reducible refine takeRow_touch (subOf (by decide) sub) ?_
    | with_reducible refine arFail_touch (subOf (by decide) sub) ?_
    | with_reducible refine repairSense_touch (subOf (by decide) sub) ?_
    | with_reducible refine nextRow_touch (subOf (by decide) sub) ?_
    | with_reducible refine updAr_touch (subOf (by decide) sub) ?_
    | with_reducible refine progSense_touch (subOf (by decide) sub) ?_ | intro _ | split | dsimp only

theorem copyLost_touch {fs : List Piece} {s0 : State} {b : BId} {k : Nat} {i : Nat} {noSpare : Bool} {s : State}
    (sub : [.out, .freeCtr, .rp, .log, .dk, .us, .ar] ⊆ fs) (h0 : Touch fs s0 s) : Touch fs s0 (copyLost b k i noSpare s)
    := by
  unfold copyLost
  try dsimp only
  repeat' first
    | with_reducible assumption | with_reducible refine arrEvent_touch (subOf (by decide) sub) ?_ | intro _ | split
    | dsimp only

theorem progPlace_touch {fs : List Piece} {s0 : State} {b : BId} {p : Nat} {s : State}
    (sub : [.out, .freeCtr, .rp, .log, .dk, .us, .ar] ⊆ fs) (h0 : Touch fs s0 s) : Touch fs s0 (progPlace b p s) := by
  unfold progPlace
  try dsimp only
  repeat' first
    | with_reducible assumption | with_reducible refine updAr_touch (subOf (by decide) sub) ?_
    | with_reducible refine copyLost_touch (subOf (by decide) sub) ?_
    | with_reducible refine updArr_touch (subOf (by decide) sub) ?_ | intro _ | split | dsimp only

theorem progRetire_touch {fs : List Piece} {s0 : State} {b : BId} {c : Nat} {s : State}
    (sub : [.out, .freeCtr, .rp, .log, .dk, .us, .ar] ⊆ fs) (h0 : Touch fs s0 s) : Touch fs s0 (progRetire b c s) := by
  unfold progRetire
  try dsimp only
  repeat' first
    | with_reducible assumption | with_reducible refine State.draw_touch (subOf (by decide) sub) ?_
    | with_reducible refine colEvent_touch (subOf (by decide) sub) ?_
    | with_reducible refine progPlace_touch (subOf (by decide) sub) ?_ | intro _ | split
    | with_reducible refine State.draw_touch_eq (subOf (by decide) sub) (by with_reducible assumption) ?_
    | dsimp only

theorem progFailed_touch {fs : List Piece} {s0 : State} {b : BId} {cols : List Nat} {s : State}
    (sub : [.out, .freeCtr, .rp, .log, .pl, .dk, .us, .ar] ⊆ fs) (h0 : Touch fs s0 s) : Touch fs s0 (progFailed b cols s)
    := by
  unfold progFailed
  try dsimp only
  repeat' first
    | with_reducible assumption | with_reducible refine progRetire_touch (subOf (by decide) sub) ?_
    | with_reducible refine arFail_touch (subOf (by decide) sub) ?_
    | with_reducible refine arrEvent_touch (subOf (by decide) sub) ?_
    | with_reducible refine arEnd_touch (subOf (by decide) sub) ?_
    | with_reducible refine nextRow_touch (subOf (by decide) sub) ?_ | with_reducible refine Touch.iter ?_ ?_
    | intro _ | split | dsimp only

theorem progRoundDone_touch {fs : List Piece} {s0 : State} {b : BId} {w : BitVec 640} {mid : BitVec 160} {s : State}
    (sub : [.out, .freeCtr, .rp, .log, .pl, .dk, .us, .ar] ⊆ fs) (h0 : Touch fs s0 s) : Touch fs s0 (progRoundDone b w mid s)
    := by
  unfold progRoundDone
  try dsimp only
  repeat' first
    | with_reducible assumption | with_reducible refine takeRow_touch (subOf (by decide) sub) ?_
    | with_reducible refine arFail_touch (subOf (by decide) sub) ?_
    | with_reducible refine nextRow_touch (subOf (by decide) sub) ?_
    | with_reducible refine updAr_touch (subOf (by decide) sub) ?_
    | with_reducible refine progFailed_touch (subOf (by decide) sub) ?_ | intro _ | split | dsimp only

theorem arResult_touch {fs : List Piece} {s0 : State} {b : BId} {cmd : Nat} {k : Nat} {res : Nat} {req : ReqId} {s : State}
    (sub : [.ar] ⊆ fs) (h0 : Touch fs s0 s) : Touch fs s0 (arResult b cmd k res req s) := by
  unfold arResult
  try dsimp only
  repeat' first
    | with_reducible assumption | with_reducible refine updAr_touch (subOf (by decide) sub) ?_ | intro _ | split
    | dsimp only

theorem arBegin_touch {fs : List Piece} {s0 : State} {b : BId} {cmd : Nat} {k : Nat} {first : Nat} {req : ReqId} {s : State}
    (sub : [.ar] ⊆ fs) (h0 : Touch fs s0 s) : Touch fs s0 (arBegin b cmd k first req s) := by
  unfold arBegin
  try dsimp only
  repeat' first
    | with_reducible assumption | with_reducible refine updAr_touch (subOf (by decide) sub) ?_
    | with_reducible refine updArr_touch (subOf (by decide) sub) ?_ | intro _ | split | dsimp only

theorem startProg_touch {fs : List Piece} {s0 : State} {b : BId} {k : Nat} {first : Nat} {s : State}
    (sub : [.out, .freeCtr, .rp, .log, .pl, .dk, .us, .ar] ⊆ fs) (h0 : Touch fs s0 s) : Touch fs s0 (startProg b k first s)
    := by
  unfold startProg
  try dsimp only
  repeat' first
    | with_reducible assumption | with_reducible refine updArr_touch (subOf (by decide) sub) ?_
    | with_reducible refine updAr_touch (subOf (by decide) sub) ?_
    | with_reducible refine arrEvent_touch (subOf (by decide) sub) ?_
    | with_reducible refine arEnd_touch (subOf (by decide) sub) ?_
    | with_reducible refine startRow_touch (subOf (by decide) sub) ?_ | with_reducible refine Touch.foldl ?_ ?_
    | with_reducible refine Touch.foldl2 ?_ ?_ | intro _ | split | dsimp only

theorem startRepair_touch {fs : List Piece} {s0 : State} {b : BId} {k : Nat} {s : State}
    (sub : [.out, .freeCtr, .rp, .log, .pl, .dk, .us, .ar] ⊆ fs) (h0 : Touch fs s0 s) : Touch fs s0 (startRepair b k s) := by
  unfold startRepair
  try dsimp only
  repeat' first
    | with_reducible assumption | with_reducible refine updAr_touch (subOf (by decide) sub) ?_
    | with_reducible refine arrEvent_touch (subOf (by decide) sub) ?_
    | with_reducible refine arEnd_touch (subOf (by decide) sub) ?_
    | with_reducible refine arFail_touch (subOf (by decide) sub) ?_
    | with_reducible refine startRow_touch (subOf (by decide) sub) ?_ | intro _ | split | dsimp only

theorem orderStart_touch {fs : List Piece} {s0 : State} {b : BId} {s : State}
    (sub : [.out, .freeCtr, .rp, .log, .pl, .dk, .us, .ar] ⊆ fs) (h0 : Touch fs s0 s) : Touch fs s0 (orderStart b s) := by
  unfold orderStart
  try dsimp only
  repeat' first
    | with_reducible assumption | with_reducible refine startProg_touch (subOf (by decide) sub) ?_
    | with_reducible refine startRow_touch (subOf (by decide) sub) ?_
    | with_reducible refine startRepair_touch (subOf (by decide) sub) ?_ | intro _ | split | dsimp only

theorem arOrder_touch {fs : List Piece} {s0 : State} {b : BId} {req : ReqId} {cmd : Nat} {k : Nat} {first : Nat} {s : State}
    (sub : [.out, .freeCtr, .rp, .log, .pl, .dk, .us, .ar] ⊆ fs) (h0 : Touch fs s0 s)
    : Touch fs s0 (arOrder b req cmd k first s) := by
  unfold arOrder
  try dsimp only
  repeat' first
    | with_reducible assumption | with_reducible refine arResult_touch (subOf (by decide) sub) ?_
    | with_reducible refine arEnd_touch (subOf (by decide) sub) ?_
    | with_reducible refine updAr_touch (subOf (by decide) sub) ?_
    | with_reducible refine updArr_touch (subOf (by decide) sub) ?_
    | with_reducible refine arBegin_touch (subOf (by decide) sub) ?_
    | with_reducible refine orderStart_touch (subOf (by decide) sub) ?_ | intro _ | split | dsimp only

theorem arAbort_touch {fs : List Piece} {s0 : State} {b : BId} {req : ReqId} {k : Nat} {s : State} (sub : [.ar] ⊆ fs) (h0
    : Touch fs s0 s) : Touch fs s0 (arAbort b req k s) := by
  unfold arAbort
  try dsimp only
  repeat' first
    | with_reducible assumption | with_reducible refine updAr_touch (subOf (by decide) sub) ?_ | intro _ | split
    | dsimp only

theorem arLeave_touch {fs : List Piece} {s0 : State} {b : BId} {s : State}
    (sub : [.out, .freeCtr, .rp, .log, .pl, .dk, .us, .ar] ⊆ fs) (h0 : Touch fs s0 s) : Touch fs s0 (arLeave b s) := by
  unfold arLeave
  try dsimp only
  repeat' first
    | with_reducible assumption | with_reducible refine arFail_touch (subOf (by decide) sub) ?_
    | with_reducible refine updAr_touch (subOf (by decide) sub) ?_ | intro _ | split | dsimp only

theorem arSleep_touch {fs : List Piece} {s0 : State} {b : BId} {s : State} (sub : [.ar] ⊆ fs) (h0 : Touch fs s0 s)
    : Touch fs s0 (arSleep b s) := by
  unfold arSleep
  try dsimp only
  repeat' first
    | with_reducible assumption | with_reducible refine updAr_touch (subOf (by decide) sub) ?_ | intro _ | split
    | dsimp only

theorem arPassed_touch {fs : List Piece} {s0 : State} {b : BId} {s : State}
    (sub : [.out, .freeCtr, .rp, .log, .pl, .dk, .us, .ar] ⊆ fs) (h0 : Touch fs s0 s) : Touch fs s0 (arPassed b s) := by
  unfold arPassed
  try dsimp only
  repeat' first
    | with_reducible assumption | with_reducible refine updArr_touch (subOf (by decide) sub) ?_
    | with_reducible refine arEnd_touch (subOf (by decide) sub) ?_ | intro _ | split | dsimp only

theorem calibrationDone_touch {fs : List Piece} {s0 : State} {b : BId} {k : Nat} {ds : BitVec 9216} {s : State}
    (sub : [.out, .freeCtr, .rp, .log, .pl, .dk, .us, .ar] ⊆ fs) (h0 : Touch fs s0 s) : Touch fs s0 (calibrationDone b k ds s)
    := by
  unfold calibrationDone
  try dsimp only
  repeat' first
    | with_reducible assumption | with_reducible refine arFail_touch (subOf (by decide) sub) ?_
    | with_reducible refine updArr_touch (subOf (by decide) sub) ?_
    | with_reducible refine updAr_touch (subOf (by decide) sub) ?_
    | with_reducible refine State.draw_touch (subOf (by decide) sub) ?_
    | with_reducible refine logRec_touch (subOf (by decide) sub) ?_
    | with_reducible refine arrEvent_touch (subOf (by decide) sub) ?_ | intro _ | split
    | with_reducible refine State.draw_touch_eq (subOf (by decide) sub) (by with_reducible assumption) ?_
    | dsimp only

theorem testCol_touch {fs : List Piece} {s0 : State} {b : BId} {k : Nat} {cs : BitVec 5760} {wait : Bool} {c : Nat}
    {s : State} (sub : [.out, .freeCtr, .rp, .log, .dk, .us, .ar] ⊆ fs) (h0 : Touch fs s0 s)
    : Touch fs s0 (testCol b k cs wait c s) := by
  unfold testCol
  try dsimp only
  repeat' first
    | with_reducible assumption | with_reducible refine updArr_touch (subOf (by decide) sub) ?_
    | with_reducible refine arrEvent_touch (subOf (by decide) sub) ?_
    | with_reducible refine colEvent_touch (subOf (by decide) sub) ?_ | intro _ | split | dsimp only

theorem testCount_touch {fs : List Piece} {s0 : State} {b : BId} {k : Nat} {bad : List Nat} {s : State} (sub : [.ar] ⊆ fs) (h0
    : Touch fs s0 s) : Touch fs s0 (testCount b k bad s) := by
  unfold testCount
  try dsimp only
  repeat' first
    | with_reducible assumption | with_reducible refine updArr_touch (subOf (by decide) sub) ?_
    | with_reducible refine Touch.foldl ?_ ?_ | with_reducible refine Touch.foldl2 ?_ ?_ | intro _ | split | dsimp only

theorem testSlot_touch {fs : List Piece} {s0 : State} {b : BId} {k : Nat} {cs : BitVec 5760} {s : State}
    (sub : [.out, .freeCtr, .rp, .log, .pl, .dk, .us, .ar] ⊆ fs) (h0 : Touch fs s0 s) : Touch fs s0 (testSlot b k cs s) := by
  unfold testSlot
  try dsimp only
  repeat' first
    | with_reducible assumption | with_reducible refine arFail_touch (subOf (by decide) sub) ?_
    | with_reducible refine testCount_touch (subOf (by decide) sub) ?_
    | with_reducible refine arPassed_touch (subOf (by decide) sub) ?_
    | with_reducible refine updArr_touch (subOf (by decide) sub) ?_
    | with_reducible refine testCol_touch (subOf (by decide) sub) ?_ | with_reducible refine Touch.iter ?_ ?_
    | intro _ | split | dsimp only

theorem takePass_touch {fs : List Piece} {s0 : State} {b : BId} {chained : Bool} {arrs : List PassArr} {s : State}
    (sub : [.ar] ⊆ fs) (h0 : Touch fs s0 s) : Touch fs s0 (takePass b chained arrs s) := by
  unfold takePass
  try dsimp only
  repeat' first
    | with_reducible assumption | with_reducible refine updAr_touch (subOf (by decide) sub) ?_ | intro _ | split
    | dsimp only

theorem passDone_touch {fs : List Piece} {s0 : State} {b : BId} {ds : BitVec 11520} {s : State}
    (sub : [.out, .freeCtr, .rp, .log, .pl, .dk, .us, .ar, .tcm, .deck] ⊆ fs) (h0 : Touch fs s0 s)
    : Touch fs s0 (passDone b ds s) := by
  unfold passDone
  try dsimp only
  repeat' first
    | with_reducible assumption | with_reducible refine takePass_touch (subOf (by decide) sub) ?_
    | with_reducible refine arWrite_touch (subOf (by decide) sub) ?_
    | with_reducible refine arEnd_touch (subOf (by decide) sub) ?_
    | with_reducible refine updAr_touch (subOf (by decide) sub) ?_ | intro _ | split | dsimp only

theorem cellRead_touch {fs : List Piece} {s0 : State} {b : BId} {k : Nat} {r : Nat} {w : Nat} {v : Word} {s : State}
    (sub : [.ar] ⊆ fs) (h0 : Touch fs s0 s) : Touch fs s0 (cellRead b k r w v s).2 := by
  unfold cellRead
  try dsimp only
  repeat' first
    | with_reducible assumption | with_reducible refine updArr_touch (subOf (by decide) sub) ?_ | intro _ | split
    | dsimp only

theorem cellRead_touch_eq {fs : List Piece} {s0 : State} {b : BId} {k : Nat} {r : Nat} {w : Nat} {v : Word} {s : State} {r0}
    {t : State} (sub : [.ar] ⊆ fs) (eq_ : cellRead b k r w v s = (r0, t)) (h0 : Touch fs s0 s) : Touch fs s0 t := by
  have := @cellRead_touch fs s0 b k r w v s sub  h0
  rw [eq_] at this; exact this
end Sys2Proof.Machine
end

