-- ==== Sys2Proof/Laws/Touch/PolicyUnit.lean ====
section
/-! SUPPORT. What each operation of Machine/PolicyUnit.lean can touch. -/
set_option linter.unusedTactic false
set_option linter.unreachableTactic false
namespace Sys2Proof.Machine

theorem updPg_touch {fs : List Piece} {s0 : State} {b : BId} {f : Pg → Pg} {s : State} (sub : [.pg] ⊆ fs) (h0 : Touch fs s0 s)
    : Touch fs s0 (updPg b f s) := by
  unfold updPg
  try dsimp only
  repeat' first
    | with_reducible assumption | intro _ | split | with_reducible refine Touch.upd ?_ ?_
    | (refine TouchB.mk (fun f nf => ?_) (Berth.memCanonical_same rfl rfl rfl); cases f <;> first | exact absurd (sub (by decide)) nf | exact True.intro | exact rfl)
    | dsimp only

theorem updGraph_touch {fs : List Piece} {s0 : State} {h : BId} {g : Nat} {f : Graph → Graph} {s : State} (sub : [.pg] ⊆ fs)
    (h0 : Touch fs s0 s) : Touch fs s0 (updGraph h g f s) := by
  unfold updGraph
  try dsimp only
  repeat' first
    | with_reducible assumption | with_reducible refine updPg_touch (subOf (by decide) sub) ?_ | intro _ | split
    | dsimp only

theorem putOut_touch {fs : List Piece} {s0 : State} {h : BId} {g : Nat} {i : Nat} {kind : Nat} {o : OutVal} {s : State}
    (sub : [.pg] ⊆ fs) (h0 : Touch fs s0 s) : Touch fs s0 (putOut h g i kind o s) := by
  unfold putOut
  try dsimp only
  repeat' first
    | with_reducible assumption | with_reducible refine updGraph_touch (subOf (by decide) sub) ?_
    | with_reducible refine updPg_touch (subOf (by decide) sub) ?_ | intro _ | split | dsimp only

theorem opReqSet_touch {fs : List Piece} {s0 : State} {b : BId} {k : Nat} {step : Option Nat} {margin : Option Nat}
    {s : State} (sub : [.out, .rl, .pw, .hw] ⊆ fs) (h0 : Touch fs s0 s) : Touch fs s0 (opReqSet b k step margin s) := by
  unfold opReqSet
  try dsimp only
  repeat' first
    | with_reducible assumption | with_reducible refine State.updPart_touch (subOf (by decide) sub) ?_
    | with_reducible refine capsChanged_touch (subOf (by decide) sub) ?_ | intro _ | split | dsimp only

theorem grantReqSet_touch {fs : List Piece} {s0 : State} {n : Nat} {v : Nat} {s : State} (sub : [.tray] ⊆ fs) (h0
    : Touch fs s0 s) : Touch fs s0 (grantReqSet n v s) := by
  unfold grantReqSet
  try dsimp only
  repeat' first
    | with_reducible assumption | with_reducible refine State.onTray_touch (subOf (by decide) sub) ?_ | intro _
    | split | dsimp only

theorem unitWrite_touch {fs : List Piece} {s0 : State} {h : BId} {gr : Graph} {bd : Binding} {v : Nat} {w : Option Nat}
    {s : State} (sub : [.out, .freeCtr, .rp, .rl, .log, .pw, .hw, .cl, .dk, .us, .tray] ⊆ fs) (h0 : Touch fs s0 s)
    : Touch fs s0 (unitWrite h gr bd v w s) := by
  unfold unitWrite
  try dsimp only
  repeat' first
    | with_reducible assumption | with_reducible refine grantReqSet_touch (subOf (by decide) sub) ?_
    | with_reducible refine dutyWrite_touch (subOf (by decide) sub) ?_
    | with_reducible refine opReqSet_touch (subOf (by decide) sub) ?_
    | with_reducible refine thresholdWrite_touch (subOf (by decide) sub) ?_ | intro _ | split | dsimp only

theorem setCommitted_touch {fs : List Piece} {s0 : State} {h : BId} {g : Nat} {i : Nat} {v : Nat} {s : State}
    (sub : [.pg] ⊆ fs) (h0 : Touch fs s0 s) : Touch fs s0 (setCommitted h g i v s) := by
  unfold setCommitted
  try dsimp only
  repeat' first
    | with_reducible assumption | with_reducible refine updGraph_touch (subOf (by decide) sub) ?_ | intro _ | split
    | dsimp only

theorem writeBinding_touch {fs : List Piece} {s0 : State} {h : BId} {keep : Bool} {i : Nat} {s : State}
    (sub : [.out, .freeCtr, .rp, .rl, .log, .pw, .hw, .cl, .dk, .us, .pg, .tray] ⊆ fs) (h0 : Touch fs s0 s)
    : Touch fs s0 (writeBinding h keep i s) := by
  unfold writeBinding
  try dsimp only
  repeat' first
    | with_reducible assumption | with_reducible refine updPg_touch (subOf (by decide) sub) ?_
    | with_reducible refine unitWrite_touch (subOf (by decide) sub) ?_
    | with_reducible refine setCommitted_touch (subOf (by decide) sub) ?_ | intro _ | split | dsimp only

theorem writeAll_touch {fs : List Piece} {s0 : State} {h : BId} {keep : Bool} {s : State}
    (sub : [.out, .freeCtr, .rp, .rl, .log, .pw, .hw, .cl, .dk, .us, .pg, .tray] ⊆ fs) (h0 : Touch fs s0 s)
    : Touch fs s0 (writeAll h keep s) := by
  unfold writeAll
  try dsimp only
  repeat' first
    | with_reducible assumption | with_reducible refine writeBinding_touch (subOf (by decide) sub) ?_
    | with_reducible refine Touch.iter ?_ ?_ | intro _ | split | dsimp only

theorem formAll_touch {fs : List Piece} {s0 : State} {h : BId} {g : Nat} {v : Binding → ℤ} {s : State} (sub : [.pg] ⊆ fs) (h0
    : Touch fs s0 s) : Touch fs s0 (formAll h g v s) := by
  unfold formAll
  try dsimp only
  repeat' first
    | with_reducible assumption | with_reducible refine putOut_touch (subOf (by decide) sub) ?_
    | with_reducible refine Touch.iter ?_ ?_ | intro _ | split | dsimp only

theorem writeSafe_touch {fs : List Piece} {s0 : State} {h : BId} {g : Nat} {s : State}
    (sub : [.out, .freeCtr, .rp, .rl, .log, .pw, .hw, .cl, .dk, .us, .pg, .tray] ⊆ fs) (h0 : Touch fs s0 s)
    : Touch fs s0 (writeSafe h g s) := by
  unfold writeSafe
  try dsimp only
  repeat' first
    | with_reducible assumption | with_reducible refine writeAll_touch (subOf (by decide) sub) ?_
    | with_reducible refine formAll_touch (subOf (by decide) sub) ?_ | intro _ | split | dsimp only

theorem setGst_touch {fs : List Piece} {s0 : State} {h : BId} {g : Nat} {st : GSt} {cause : Nat} {s : State}
    (sub : [.out, .freeCtr, .rp, .log, .pl, .dk, .tw, .us, .pg] ⊆ fs) (h0 : Touch fs s0 s)
    : Touch fs s0 (setGst h g st cause s) := by
  unfold setGst
  try dsimp only
  repeat' first
    | with_reducible assumption | with_reducible refine updGraph_touch (subOf (by decide) sub) ?_
    | with_reducible refine attn_touch (subOf (by decide) sub) ?_
    | with_reducible refine irq_touch (subOf (by decide) sub) ?_
    | with_reducible refine logRec_touch (subOf (by decide) sub) ?_ | intro _ | split | dsimp only

theorem runEnds_touch {fs : List Piece} {s0 : State} {pl : List Place} {s : State}
    (sub : [.out, .freeCtr, .rp, .log, .pl, .dk, .us, .ar] ⊆ fs) (h0 : Touch fs s0 s) : Touch fs s0 (runEnds pl s) := by
  unfold runEnds
  try dsimp only
  repeat' first
    | with_reducible assumption | with_reducible refine applyRetire_touch (subOf (by decide) sub) ?_
    | with_reducible refine orderStart_touch (subOf (by decide) sub) ?_
    | with_reducible refine arrRetire_touch (subOf (by decide) sub) ?_ | with_reducible refine Touch.iter ?_ ?_
    | intro _ | split | dsimp only

theorem dropInf_touch {fs : List Piece} {s0 : State} {h : BId} {g : Nat} {s : State}
    (sub : [.out, .freeCtr, .rp, .log, .pl, .dk, .us, .ar, .pg] ⊆ fs) (h0 : Touch fs s0 s) : Touch fs s0 (dropInf h g s) := by
  unfold dropInf
  try dsimp only
  repeat' first
    | with_reducible assumption | with_reducible refine runEnds_touch (subOf (by decide) sub) ?_
    | with_reducible refine updGraph_touch (subOf (by decide) sub) ?_ | intro _ | split | dsimp only

theorem emptyGraph_touch {fs : List Piece} {s0 : State} {h : BId} {g : Nat} {cause : Nat} {s : State}
    (sub : [.out, .freeCtr, .rp, .log, .pl, .dk, .tw, .us, .ar, .pg] ⊆ fs) (h0 : Touch fs s0 s)
    : Touch fs s0 (emptyGraph h g cause s) := by
  unfold emptyGraph
  try dsimp only
  repeat' first
    | with_reducible assumption | with_reducible refine setGst_touch (subOf (by decide) sub) ?_
    | with_reducible refine dropInf_touch (subOf (by decide) sub) ?_
    | with_reducible refine updGraph_touch (subOf (by decide) sub) ?_ | intro _ | split | dsimp only

theorem clearStats_touch {fs : List Piece} {s0 : State} {s : State} (sub : [.pg] ⊆ fs) (h0 : Touch fs s0 s)
    : Touch fs s0 (clearStats s) := by
  unfold clearStats
  try dsimp only
  repeat' first
    | with_reducible assumption | with_reducible refine updPg_touch (subOf (by decide) sub) ?_
    | with_reducible refine Touch.iter ?_ ?_ | intro _ | split | dsimp only
end Sys2Proof.Machine
end

