-- ==== Sys2Proof/Laws/Touch/PolicyLoad.lean ====
section
/-! SUPPORT. What each operation of Machine/PolicyLoad.lean can touch. -/
set_option linter.unusedTactic false
set_option linter.unreachableTactic false
namespace Sys2Proof.Machine

theorem logLoad_touch {fs : List Piece} {s0 : State} {b : BId} {g : Nat} {code : Nat} {berth : Nat} {gr : Graph}
    {img : GImage} {s : State} (sub : [.out, .freeCtr, .rp, .log, .dk, .us] ⊆ fs) (h0 : Touch fs s0 s)
    : Touch fs s0 (logLoad b g code berth gr img s) := by
  unfold logLoad
  try dsimp only
  repeat' first
    | with_reducible assumption | with_reducible refine logRec_touch (subOf (by decide) sub) ?_ | intro _ | split
    | dsimp only

theorem setImgSt_touch {fs : List Piece} {s0 : State} {role : Nat} {st : ImgState} {s : State} (sub : [.tray] ⊆ fs) (h0
    : Touch fs s0 s) : Touch fs s0 (setImgSt role st s) := by
  unfold setImgSt
  try dsimp only
  repeat' first
    | with_reducible assumption | with_reducible refine State.onTray_touch (subOf (by decide) sub) ?_ | intro _
    | split | dsimp only

theorem startFail_touch {fs : List Piece} {s0 : State} {role : Nat} {s : State} (sub : [.sy] ⊆ fs) (h0 : Touch fs s0 s)
    : Touch fs s0 (startFail role s) := by
  unfold startFail
  try dsimp only
  repeat' first
    | with_reducible assumption | with_reducible refine Touch.iter ?_ ?_ | intro _ | split
    | with_reducible refine Touch.upd ?_ ?_
    | (refine TouchB.mk (fun f nf => ?_) (Berth.memCanonical_same rfl rfl rfl); cases f <;> first | exact absurd (sub (by decide)) nf | exact True.intro | exact rfl)
    | dsimp only

theorem imageOn_touch {fs : List Piece} {s0 : State} {b : BId} {role : Nat} {s : State} (sub : [.sy] ⊆ fs) (h0
    : Touch fs s0 s) : Touch fs s0 (imageOn b role s) := by
  unfold imageOn
  try dsimp only
  repeat' first
    | with_reducible assumption | intro _ | split | with_reducible refine Touch.upd ?_ ?_
    | (refine TouchB.mk (fun f nf => ?_) (Berth.memCanonical_same rfl rfl rfl); cases f <;> first | exact absurd (sub (by decide)) nf | exact True.intro | exact rfl)
    | dsimp only

theorem roleFails_touch {fs : List Piece} {s0 : State} {role : Nat} {s : State} (sub : [.sy, .tray] ⊆ fs) (h0 : Touch fs s0 s)
    : Touch fs s0 (roleFails role s) := by
  unfold roleFails
  try dsimp only
  repeat' first
    | with_reducible assumption | with_reducible refine startFail_touch (subOf (by decide) sub) ?_
    | with_reducible refine setImgSt_touch (subOf (by decide) sub) ?_ | intro _ | split | dsimp only

theorem roleTakes_touch {fs : List Piece} {s0 : State} {role : Nat} {r : ImgRole} {s : State} (sub : [.tray] ⊆ fs) (h0
    : Touch fs s0 s) : Touch fs s0 (roleTakes role r s) := by
  unfold roleTakes
  try dsimp only
  repeat' first
    | with_reducible assumption | with_reducible refine State.onTray_touch (subOf (by decide) sub) ?_ | intro _
    | split | dsimp only

theorem loadRefused_touch {fs : List Piece} {s0 : State} {h : BId} {g : Nat} {code : Nat} {berth : Nat} {index : Nat}
    {img : GImage} {s : State} (sub : [.out, .freeCtr, .rp, .log, .dk, .us, .pg] ⊆ fs) (h0 : Touch fs s0 s)
    : Touch fs s0 (loadRefused h g code berth index img s) := by
  unfold loadRefused
  try dsimp only
  repeat' first
    | with_reducible assumption | with_reducible refine updPg_touch (subOf (by decide) sub) ?_
    | with_reducible refine logLoad_touch (subOf (by decide) sub) ?_ | intro _ | split | dsimp only

theorem loadAborted_touch {fs : List Piece} {s0 : State} {g : Nat} {berth : Nat} {home : BId} {s : State}
    (sub : [.out, .freeCtr, .sy, .rp, .log, .pl, .dk, .tw, .us, .ar, .pg, .tray] ⊆ fs) (h0 : Touch fs s0 s)
    : Touch fs s0 (loadAborted g berth home s) := by
  unfold loadAborted
  try dsimp only
  repeat' first
    | with_reducible assumption | with_reducible refine State.draw_touch (subOf (by decide) sub) ?_
    | with_reducible refine updPg_touch (subOf (by decide) sub) ?_
    | with_reducible refine logLoad_touch (subOf (by decide) sub) ?_
    | with_reducible refine startFail_touch (subOf (by decide) sub) ?_
    | with_reducible refine setImgSt_touch (subOf (by decide) sub) ?_
    | with_reducible refine emptyGraph_touch (subOf (by decide) sub) ?_ | with_reducible refine Touch.iter ?_ ?_
    | intro _ | split
    | with_reducible refine State.draw_touch_eq (subOf (by decide) sub) (by with_reducible assumption) ?_
    | dsimp only

theorem replaceFails_touch {fs : List Piece} {s0 : State} {h : BId} {g : Nat} {cause : Nat} {s : State}
    (sub : [.out, .freeCtr, .rp, .rl, .log, .pw, .hw, .cl, .pl, .dk, .tw, .us, .ar, .pg, .tray] ⊆ fs) (h0 : Touch fs s0 s)
    : Touch fs s0 (replaceFails h g cause s) := by
  unfold replaceFails
  try dsimp only
  repeat' first
    | with_reducible assumption | with_reducible refine updGraph_touch (subOf (by decide) sub) ?_
    | with_reducible refine dropInf_touch (subOf (by decide) sub) ?_
    | with_reducible refine writeSafe_touch (subOf (by decide) sub) ?_
    | with_reducible refine setGst_touch (subOf (by decide) sub) ?_ | intro _ | split | dsimp only

theorem setProg_touch {fs : List Piece} {s0 : State} {home : BId} {g : Nat} {t_ : Nat} {n : Nat} {s : State}
    (sub : [.pg] ⊆ fs) (h0 : Touch fs s0 s) : Touch fs s0 (setProg home g t_ n s) := by
  unfold setProg
  try dsimp only
  repeat' first
    | with_reducible assumption | with_reducible refine updGraph_touch (subOf (by decide) sub) ?_ | intro _ | split
    | dsimp only

theorem tileFailed_touch {fs : List Piece} {s0 : State} {home : BId} {g : Nat} {t_ : Nat} {s : State}
    (sub : [.out, .freeCtr, .sy, .rp, .rl, .log, .pw, .hw, .cl, .pl, .dk, .tw, .us, .ar, .pg, .tray] ⊆ fs) (h0
    : Touch fs s0 s) : Touch fs s0 (tileFailed home g t_ s) := by
  unfold tileFailed
  try dsimp only
  repeat' first
    | with_reducible assumption | with_reducible refine updGraph_touch (subOf (by decide) sub) ?_
    | with_reducible refine loadAborted_touch (subOf (by decide) sub) ?_
    | with_reducible refine replaceFails_touch (subOf (by decide) sub) ?_ | intro _ | split | dsimp only

theorem loaderDone_touch {fs : List Piece} {s0 : State} {b : BId} {s : State}
    (sub : [.out, .freeCtr, .sy, .rp, .rl, .log, .pw, .hw, .cl, .pl, .dk, .tw, .us, .ar, .pg, .tray] ⊆ fs) (h0
    : Touch fs s0 s) : Touch fs s0 (loaderDone b s) := by
  unfold loaderDone
  try dsimp only
  repeat' first
    | with_reducible assumption | with_reducible refine deckRelease_touch (subOf (by decide) sub) ?_
    | with_reducible refine updPg_touch (subOf (by decide) sub) ?_
    | with_reducible refine tileFailed_touch (subOf (by decide) sub) ?_
    | with_reducible refine setProg_touch (subOf (by decide) sub) ?_
    | with_reducible refine updGraph_touch (subOf (by decide) sub) ?_ | with_reducible refine Touch.iter ?_ ?_
    | intro _ | split | dsimp only

theorem takeExact_touch_some {fs : List Piece} {s0 s t : State} {b : BId} {i : Nat} (sub : [.dk] ⊆ fs)
    (eq_ : takeExact b i s = some t) (h0 : Touch fs s0 s) : Touch fs s0 t := by
  unfold takeExact at eq_
  split at eq_
  · cases eq_
    exact State.updDk_touch sub (State.updDk_touch sub h0)
  · cases eq_

theorem takeRun_touch_some {fs : List Piece} {s0 s t : State} {b : BId} {n i : Nat} (sub : [.dk] ⊆ fs)
    (eq_ : takeRun b n s = some (i, t)) (h0 : Touch fs s0 s) : Touch fs s0 t := by
  have key : ∀ (xs : List Nat) (j : Nat) (o : Option State), (∀ u, o = some u → Touch fs s0 u) →
      ∀ u, xs.foldl (fun t k => t.bind (takeExact b (j + k))) o = some u → Touch fs s0 u := by
    intro xs
    induction xs with
    | nil => intro j o h u e; exact h u e
    | cons x xs ih =>
      intro j o h u e
      refine ih j _ (fun v hv => ?_) u e
      cases o with
      | none => cases hv
      | some w => exact takeExact_touch_some sub hv (h w rfl)
  unfold takeRun at eq_
  split at eq_
  · cases eq_
  · rename_i j _
    rw [Option.map_eq_some_iff] at eq_
    obtain ⟨u, hu, e⟩ := eq_
    cases e
    exact key _ _ (some s) (fun v hv => by cases hv; exact h0) _ hu

theorem loaderStart_touch {fs : List Piece} {s0 : State} {b : BId} {home : BId} {g : Nat} {t_ : Nat} {s : State}
    (sub : [.out, .freeCtr, .sy, .rp, .rl, .log, .pw, .hw, .cl, .pl, .dk, .tw, .us, .ar, .pg, .tray, .deck] ⊆ fs) (h0
    : Touch fs s0 s) : Touch fs s0 (loaderStart b home g t_ s) := by
  unfold loaderStart
  try dsimp only
  repeat' first
    | with_reducible assumption
    | with_reducible refine takeRun_touch_some (subOf (by decide) sub) (by with_reducible assumption) ?_
    | with_reducible refine tileFailed_touch (subOf (by decide) sub) ?_
    | with_reducible refine State.deckWrite_touch (subOf (by decide) sub) ?_
    | with_reducible refine dataSend_touch (subOf (by decide) sub) ?_
    | with_reducible refine updAr_touch (subOf (by decide) sub) ?_
    | with_reducible refine updPg_touch (subOf (by decide) sub) ?_
    | with_reducible refine setProg_touch (subOf (by decide) sub) ?_
    | with_reducible refine loaderDone_touch (subOf (by decide) sub) ?_
    | with_reducible refine arOrder_touch (subOf (by decide) sub) ?_ | intro _ | split | dsimp only

theorem loaderPump_touch {fs : List Piece} {s0 : State} {b : BId} {y1 : Nat} {y2 : State}
    (sub : [.out, .freeCtr, .sy, .rp, .rl, .log, .pw, .hw, .cl, .pl, .dk, .tw, .us, .ar, .pg, .tray, .deck] ⊆ fs) (h0
    : Touch fs s0 y2) : Touch fs s0 (loaderPump b y1 y2) := by
  induction y1 generalizing y2
  case zero => unfold loaderPump; exact h0
  rename_i kk ih
  unfold loaderPump
  try dsimp only
  repeat' first
    | with_reducible assumption | (with_reducible apply ih)
    | with_reducible refine loaderStart_touch (subOf (by decide) sub) ?_ | intro _ | split | dsimp only

theorem loadersPump_touch {fs : List Piece} {s0 : State} {s : State}
    (sub : [.out, .freeCtr, .sy, .rp, .rl, .log, .pw, .hw, .cl, .pl, .dk, .tw, .us, .ar, .pg, .tray, .deck] ⊆ fs) (h0
    : Touch fs s0 s) : Touch fs s0 (loadersPump s) := by
  unfold loadersPump
  try dsimp only
  repeat' first
    | with_reducible assumption | with_reducible refine loaderPump_touch (subOf (by decide) sub) ?_
    | with_reducible refine Touch.iter ?_ ?_ | intro _ | split | dsimp only

theorem afterArray_touch {fs : List Piece} {s0 : State} {b : BId} {s : State}
    (sub : [.out, .freeCtr, .sy, .rp, .rl, .log, .pw, .hw, .cl, .pl, .dk, .tw, .us, .ar, .pg, .tray, .deck] ⊆ fs) (h0
    : Touch fs s0 s) : Touch fs s0 (afterArray b s) := by
  unfold afterArray
  try dsimp only
  repeat' first
    | with_reducible assumption | with_reducible refine loaderPump_touch (subOf (by decide) sub) ?_
    | with_reducible refine loadersPump_touch (subOf (by decide) sub) ?_
    | with_reducible refine loaderDone_touch (subOf (by decide) sub) ?_ | intro _ | split | dsimp only

theorem startLoad_touch {fs : List Piece} {s0 : State} {h : BId} {g : Nat} {img : GImage} {base : Option Nat}
    {pl : List Place} {cause : Nat} {s : State} (sub : [.out, .freeCtr, .rp, .log, .pl, .dk, .tw, .us, .pg] ⊆ fs) (h0
    : Touch fs s0 s) : Touch fs s0 (startLoad h g img base pl cause s) := by
  unfold startLoad
  try dsimp only
  repeat' first
    | with_reducible assumption | with_reducible refine updGraph_touch (subOf (by decide) sub) ?_
    | with_reducible refine setGst_touch (subOf (by decide) sub) ?_ | intro _ | split | dsimp only

theorem unloadTarget_touch {fs : List Piece} {s0 : State} {g : Nat} {s : State}
    (sub : [.out, .freeCtr, .rp, .rl, .log, .pw, .hw, .cl, .pl, .dk, .tw, .us, .ar, .pg, .tray] ⊆ fs) (h0 : Touch fs s0 s)
    : Touch fs s0 (unloadTarget g s) := by
  unfold unloadTarget
  try dsimp only
  repeat' first
    | with_reducible assumption | with_reducible refine emptyGraph_touch (subOf (by decide) sub) ?_
    | with_reducible refine writeSafe_touch (subOf (by decide) sub) ?_
    | with_reducible refine clearStats_touch (subOf (by decide) sub) ?_ | with_reducible refine Touch.iter ?_ ?_
    | intro _ | split | dsimp only

theorem released_touch {fs : List Piece} {s0 : State} {s : State} {g : Nat} (sub : [.pg] ⊆ fs) (h0 : Touch fs s0 s)
    : Touch fs s0 (released s g) := by
  unfold released
  try dsimp only
  repeat' first
    | with_reducible assumption | with_reducible refine updGraph_touch (subOf (by decide) sub) ?_
    | with_reducible refine Touch.iter ?_ ?_ | intro _ | split | dsimp only

theorem policyLoad_touch {fs : List Piece} {s0 : State} {h : BId} {g : Nat} {base : Nat} {r : ImgRole} {bs : List Byte}
    {s : State} (sub : [.out, .freeCtr, .sy, .rp, .rl, .log, .pw, .hw, .cl, .pl, .dk, .tw, .us, .ar, .pg, .tray, .deck] ⊆ fs)
    (h0 : Touch fs s0 s) : Touch fs s0 (policyLoad h g base r bs s) := by
  unfold policyLoad
  try dsimp only
  repeat' first
    | with_reducible assumption | with_reducible refine loadRefused_touch (subOf (by decide) sub) ?_
    | with_reducible refine roleFails_touch (subOf (by decide) sub) ?_
    | with_reducible refine released_touch (subOf (by decide) sub) ?_
    | with_reducible refine State.draw_touch (subOf (by decide) sub) ?_
    | with_reducible refine unloadTarget_touch (subOf (by decide) sub) ?_
    | with_reducible refine startLoad_touch (subOf (by decide) sub) ?_
    | with_reducible refine loadersPump_touch (subOf (by decide) sub) ?_
    | with_reducible refine roleTakes_touch (subOf (by decide) sub) ?_ | with_reducible refine Touch.iter ?_ ?_
    | intro _ | split
    | with_reducible refine State.draw_touch_eq (subOf (by decide) sub) (by with_reducible assumption) ?_
    | dsimp only

theorem loadComplete_touch {fs : List Piece} {s0 : State} {h : BId} {g : Nat} {s : State}
    (sub : [.out, .freeCtr, .sy, .rp, .log, .pl, .dk, .tw, .us, .pg, .tray] ⊆ fs) (h0 : Touch fs s0 s)
    : Touch fs s0 (loadComplete h g s) := by
  unfold loadComplete
  try dsimp only
  repeat' first
    | with_reducible assumption | with_reducible refine State.draw_touch (subOf (by decide) sub) ?_
    | with_reducible refine logLoad_touch (subOf (by decide) sub) ?_
    | with_reducible refine setGst_touch (subOf (by decide) sub) ?_
    | with_reducible refine imageOn_touch (subOf (by decide) sub) ?_
    | with_reducible refine setImgSt_touch (subOf (by decide) sub) ?_ | with_reducible refine Touch.iter ?_ ?_
    | intro _ | split
    | with_reducible refine State.draw_touch_eq (subOf (by decide) sub) (by with_reducible assumption) ?_
    | dsimp only

theorem rePlace_touch {fs : List Piece} {s0 : State} {h : BId} {g : Nat} {cause : Nat} {s : State}
    (sub : [.out, .freeCtr, .sy, .rp, .rl, .log, .pw, .hw, .cl, .pl, .dk, .tw, .us, .ar, .pg, .tray, .deck] ⊆ fs) (h0
    : Touch fs s0 s) : Touch fs s0 (rePlace h g cause s) := by
  unfold rePlace
  try dsimp only
  repeat' first
    | with_reducible assumption | with_reducible refine loadAborted_touch (subOf (by decide) sub) ?_
    | with_reducible refine replaceFails_touch (subOf (by decide) sub) ?_
    | with_reducible refine dropInf_touch (subOf (by decide) sub) ?_
    | with_reducible refine updGraph_touch (subOf (by decide) sub) ?_
    | with_reducible refine loadersPump_touch (subOf (by decide) sub) ?_
    | with_reducible refine setGst_touch (subOf (by decide) sub) ?_ | intro _ | split | dsimp only

theorem reload_touch {fs : List Piece} {s0 : State} {h : BId} {g : Nat} {s : State}
    (sub : [.out, .freeCtr, .sy, .rp, .rl, .log, .pw, .hw, .cl, .pl, .dk, .tw, .us, .ar, .pg, .tray, .deck] ⊆ fs) (h0
    : Touch fs s0 s) : Touch fs s0 (reload h g s) := by
  unfold reload
  try dsimp only
  repeat' first
    | with_reducible assumption | with_reducible refine loadAborted_touch (subOf (by decide) sub) ?_
    | with_reducible refine emptyGraph_touch (subOf (by decide) sub) ?_
    | with_reducible refine policyLoad_touch (subOf (by decide) sub) ?_ | with_reducible refine Touch.iter ?_ ?_
    | intro _ | split | dsimp only

theorem policyTakeover_touch {fs : List Piece} {s0 : State} {h : BId} {s : State}
    (sub : [.out, .freeCtr, .sy, .rp, .rl, .log, .pw, .hw, .cl, .pl, .dk, .tw, .us, .ar, .pg, .tray, .deck] ⊆ fs) (h0
    : Touch fs s0 s) : Touch fs s0 (policyTakeover h s) := by
  unfold policyTakeover
  try dsimp only
  repeat' first
    | with_reducible assumption | with_reducible refine updGraph_touch (subOf (by decide) sub) ?_
    | with_reducible refine rePlace_touch (subOf (by decide) sub) ?_
    | with_reducible refine reload_touch (subOf (by decide) sub) ?_ | with_reducible refine Touch.iter ?_ ?_
    | intro _ | split | dsimp only
end Sys2Proof.Machine
end

