-- ==== Sys2Proof/Laws/Touch/Policy.lean ====
section
/-! SUPPORT. What each operation of Machine/Policy.lean can touch. -/
set_option linter.unusedTactic false
set_option linter.unreachableTactic false
namespace Sys2Proof.Machine

theorem incomplete_touch {fs : List Piece} {s0 : State} {h : BId} {g : Nat} {late : Bool} {s : State}
    (sub : [.out, .freeCtr, .rp, .log, .pl, .dk, .tw, .us, .ar, .pg] ⊆ fs) (h0 : Touch fs s0 s)
    : Touch fs s0 (incomplete h g late s) := by
  unfold incomplete
  try dsimp only
  repeat' first
    | with_reducible assumption | with_reducible refine updGraph_touch (subOf (by decide) sub) ?_
    | with_reducible refine dropInf_touch (subOf (by decide) sub) ?_
    | with_reducible refine updPg_touch (subOf (by decide) sub) ?_
    | with_reducible refine setGst_touch (subOf (by decide) sub) ?_ | intro _ | split | dsimp only

theorem gatherDone_touch {fs : List Piece} {s0 : State} {h : BId} {g : Nat} {s : State} (sub : [.pg] ⊆ fs) (h0
    : Touch fs s0 s) : Touch fs s0 (gatherDone h g s) := by
  unfold gatherDone
  try dsimp only
  repeat' first
    | with_reducible assumption | with_reducible refine updPg_touch (subOf (by decide) sub) ?_
    | with_reducible refine updGraph_touch (subOf (by decide) sub) ?_ | intro _ | split | dsimp only

theorem sample_touch {fs : List Piece} {s0 : State} {s0_ : State} {h : BId} {g : Nat} {mark : Nat} {s : State}
    (sub : [.rp, .pg] ⊆ fs) (h0 : Touch fs s0 s0_) (h1 : Touch fs s0 s) : Touch fs s0 (sample s0_ h g mark s) := by
  unfold sample
  try dsimp only
  repeat' first
    | with_reducible assumption | with_reducible refine updPg_touch (subOf (by decide) sub) ?_
    | with_reducible refine accessSend_touch (subOf (by decide) sub) ?_
    | with_reducible refine updGraph_touch (subOf (by decide) sub) ?_ | with_reducible refine Touch.iter ?_ ?_
    | intro _ | split | dsimp only

theorem begun_touch {fs : List Piece} {s0 : State} {h : BId} {g : Nat} {s : State}
    (sub : [.out, .freeCtr, .rp, .log, .pl, .dk, .tw, .us, .ar, .pg] ⊆ fs) (h0 : Touch fs s0 s) : Touch fs s0 (begun h g s)
    := by
  unfold begun
  try dsimp only
  repeat' first
    | with_reducible assumption | with_reducible refine updGraph_touch (subOf (by decide) sub) ?_
    | with_reducible refine incomplete_touch (subOf (by decide) sub) ?_
    | with_reducible refine gatherDone_touch (subOf (by decide) sub) ?_ | intro _ | split | dsimp only

theorem startInference_touch {fs : List Piece} {s0 : State} {s0_ : State} {h : BId} {g : Nat} {mark : Nat} {s : State}
    (sub : [.out, .freeCtr, .rp, .log, .pl, .dk, .tw, .us, .ar, .pg] ⊆ fs) (h0 : Touch fs s0 s0_) (h1 : Touch fs s0 s)
    : Touch fs s0 (startInference s0_ h g mark s) := by
  unfold startInference
  try dsimp only
  repeat' first
    | with_reducible assumption | with_reducible refine begun_touch (subOf (by decide) sub) ?_
    | with_reducible refine sample_touch (subOf (by decide) sub) ?_ ?_ | intro _ | split | dsimp only

theorem commit_touch {fs : List Piece} {s0 : State} {h : BId} {g : Nat} {s : State}
    (sub : [.out, .freeCtr, .rp, .rl, .log, .pw, .hw, .cl, .pl, .dk, .tw, .us, .ar, .pg, .tray] ⊆ fs) (h0 : Touch fs s0 s)
    : Touch fs s0 (commit h g s) := by
  unfold commit
  try dsimp only
  repeat' first
    | with_reducible assumption | with_reducible refine incomplete_touch (subOf (by decide) sub) ?_
    | with_reducible refine writeAll_touch (subOf (by decide) sub) ?_
    | with_reducible refine updGraph_touch (subOf (by decide) sub) ?_ | intro _ | split | dsimp only

theorem startMark'_touch {fs : List Piece} {s0 : State} {s0_ : State} {h : BId} {m : Nat} {g : Nat} {s : State}
    (sub : [.out, .freeCtr, .rp, .log, .pl, .dk, .tw, .us, .ar, .pg] ⊆ fs) (h0 : Touch fs s0 s0_) (h1 : Touch fs s0 s)
    : Touch fs s0 (startMark' s0_ h m g s) := by
  unfold startMark'
  try dsimp only
  repeat' first
    | with_reducible assumption | with_reducible refine startInference_touch (subOf (by decide) sub) ?_ ?_
    | with_reducible refine sample_touch (subOf (by decide) sub) ?_ ?_ | intro _ | split | dsimp only

theorem policyMark_touch {fs : List Piece} {s0 : State} {s0_ : State} {h : BId} {m : Nat} {s : State}
    (sub : [.out, .freeCtr, .sy, .rp, .rl, .log, .pw, .hw, .cl, .pl, .dk, .tw, .us, .ar, .pg, .tray, .deck] ⊆ fs) (h0
    : Touch fs s0 s0_) (h1 : Touch fs s0 s) : Touch fs s0 (policyMark s0_ h m s) := by
  unfold policyMark
  try dsimp only
  repeat' first
    | with_reducible assumption | with_reducible refine updGraph_touch (subOf (by decide) sub) ?_
    | with_reducible refine commit_touch (subOf (by decide) sub) ?_
    | with_reducible refine rePlace_touch (subOf (by decide) sub) ?_
    | with_reducible refine startMark'_touch (subOf (by decide) sub) ?_ ?_ | with_reducible refine Touch.iter ?_ ?_
    | intro _ | split | dsimp only

theorem featureReceive_touch {fs : List Piece} {s0 : State} {h : BId} {g : Nat} {s : State} (sub : [.pg] ⊆ fs) (h0
    : Touch fs s0 s) : Touch fs s0 (featureReceive h g s) := by
  unfold featureReceive
  try dsimp only
  repeat' first
    | with_reducible assumption | with_reducible refine gatherDone_touch (subOf (by decide) sub) ?_ | intro _
    | split | dsimp only

theorem graphPass_touch {fs : List Piece} {s0 : State} {b : BId} {h : BId} {g : Nat} {j : Nat} {c : Nat}
    {ds : Vector (BitVec 11520) 4} {s : State} (sub : [.out, .freeCtr, .rp, .log, .pl, .dk, .tw, .us, .ar, .pg] ⊆ fs) (h0
    : Touch fs s0 s) : Touch fs s0 (graphPass b h g j c ds s) := by
  unfold graphPass
  try dsimp only
  repeat' first
    | with_reducible assumption | with_reducible refine incomplete_touch (subOf (by decide) sub) ?_
    | with_reducible refine takePass_touch (subOf (by decide) sub) ?_
    | with_reducible refine updGraph_touch (subOf (by decide) sub) ?_
    | with_reducible refine dataSend_touch (subOf (by decide) sub) ?_
    | with_reducible refine runEnds_touch (subOf (by decide) sub) ?_ | intro _ | split | dsimp only

theorem arrayPassDone_touch {fs : List Piece} {s0 : State} {b : BId} {w : PassOf} {ds : Vector (BitVec 11520) 4} {s : State}
    (sub : [.out, .freeCtr, .sy, .rp, .rl, .log, .pw, .hw, .cl, .pl, .dk, .tw, .us, .ar, .pg, .tray, .tcm, .deck] ⊆ fs) (h0
    : Touch fs s0 s) : Touch fs s0 (arrayPassDone b w ds s) := by
  unfold arrayPassDone
  try dsimp only
  repeat' first
    | with_reducible assumption | with_reducible refine graphPass_touch (subOf (by decide) sub) ?_
    | with_reducible refine afterArray_touch (subOf (by decide) sub) ?_
    | with_reducible refine passDone_touch (subOf (by decide) sub) ?_ | intro _ | split | dsimp only

theorem stageReceive_touch {fs : List Piece} {s0 : State} {b : BId} {g : Nat} {s : State} (sub : [.pg] ⊆ fs) (h0
    : Touch fs s0 s) : Touch fs s0 (stageReceive b g s) := by
  unfold stageReceive
  try dsimp only
  repeat' first
    | with_reducible assumption | with_reducible refine updGraph_touch (subOf (by decide) sub) ?_
    | with_reducible refine Touch.iter ?_ ?_ | intro _ | split | dsimp only

theorem bindingsFormed_touch {fs : List Piece} {s0 : State} {h : BId} {g : Nat} {s : State}
    (sub : [.out, .freeCtr, .rp, .log, .pl, .dk, .tw, .us, .ar, .pg] ⊆ fs) (h0 : Touch fs s0 s)
    : Touch fs s0 (bindingsFormed h g s) := by
  unfold bindingsFormed
  try dsimp only
  repeat' first
    | with_reducible assumption | with_reducible refine incomplete_touch (subOf (by decide) sub) ?_
    | with_reducible refine formAll_touch (subOf (by decide) sub) ?_
    | with_reducible refine updGraph_touch (subOf (by decide) sub) ?_
    | with_reducible refine setGst_touch (subOf (by decide) sub) ?_ | intro _ | split | dsimp only

theorem fallbackEntry_touch {fs : List Piece} {s0 : State} {h : BId} {g : Nat} {s : State}
    (sub : [.out, .freeCtr, .rp, .rl, .log, .pw, .hw, .cl, .pl, .dk, .tw, .us, .pg, .tray] ⊆ fs) (h0 : Touch fs s0 s)
    : Touch fs s0 (fallbackEntry h g s) := by
  unfold fallbackEntry
  try dsimp only
  repeat' first
    | with_reducible assumption | with_reducible refine writeSafe_touch (subOf (by decide) sub) ?_
    | with_reducible refine setGst_touch (subOf (by decide) sub) ?_ | intro _ | split | dsimp only

theorem dummyCompare_touch {fs : List Piece} {s0 : State} {h : BId} {s : State} (sub : [.pg] ⊆ fs) (h0 : Touch fs s0 s)
    : Touch fs s0 (dummyCompare h s) := by
  unfold dummyCompare
  try dsimp only
  repeat' first
    | with_reducible assumption | with_reducible refine updGraph_touch (subOf (by decide) sub) ?_
    | with_reducible refine updPg_touch (subOf (by decide) sub) ?_ | with_reducible refine Touch.foldl ?_ ?_
    | with_reducible refine Touch.foldl2 ?_ ?_ | intro _ | split | dsimp only

theorem pgResult_touch {fs : List Piece} {s0 : State} {h : BId} {cmd : Nat} {res : Nat} {req : ReqId} {s : State}
    (sub : [.pg] ⊆ fs) (h0 : Touch fs s0 s) : Touch fs s0 (pgResult h cmd res req s) := by
  unfold pgResult
  try dsimp only
  repeat' first
    | with_reducible assumption | with_reducible refine updPg_touch (subOf (by decide) sub) ?_ | intro _ | split
    | dsimp only

theorem pgOrder_touch {fs : List Piece} {s0 : State} {h : BId} {req : ReqId} {cmd : Nat} {pilotToo : Bool} {refuse : Nat}
    {act : State → State} {s : State} (sub : [.pg] ⊆ fs) (hf1 : ∀ t, Touch fs s0 t → Touch fs s0 (act t)) (h0 : Touch fs s0 s)
    : Touch fs s0 (pgOrder h req cmd pilotToo refuse act s) := by
  unfold pgOrder
  try dsimp only
  repeat' first
    | with_reducible assumption | with_reducible refine pgResult_touch (subOf (by decide) sub) ?_
    | with_reducible apply hf1 | intro _ | split | dsimp only

theorem unload_touch {fs : List Piece} {s0 : State} {h : BId} {req : ReqId} {g : Nat} {guard : Nat} {s : State}
    (sub : [.out, .freeCtr, .rp, .rl, .log, .pw, .hw, .cl, .pl, .dk, .tw, .us, .ar, .pg, .tray] ⊆ fs) (h0 : Touch fs s0 s)
    : Touch fs s0 (unload h req g guard s) := by
  unfold unload
  try dsimp only
  repeat' first
    | with_reducible assumption | with_reducible refine pgOrder_touch (subOf (by decide) sub) ?_ ?_
    | with_reducible refine emptyGraph_touch (subOf (by decide) sub) ?_
    | with_reducible refine writeSafe_touch (subOf (by decide) sub) ?_ | with_reducible refine Touch.iter ?_ ?_
    | intro _ | split | dsimp only

theorem replaceOrder_touch {fs : List Piece} {s0 : State} {h : BId} {req : ReqId} {g : Nat} {s : State}
    (sub : [.out, .freeCtr, .sy, .rp, .rl, .log, .pw, .hw, .cl, .pl, .dk, .tw, .us, .ar, .pg, .tray, .deck] ⊆ fs) (h0
    : Touch fs s0 s) : Touch fs s0 (replaceOrder h req g s) := by
  unfold replaceOrder
  try dsimp only
  repeat' first
    | with_reducible assumption | with_reducible refine pgOrder_touch (subOf (by decide) sub) ?_ ?_
    | with_reducible refine rePlace_touch (subOf (by decide) sub) ?_ | with_reducible refine Touch.iter ?_ ?_
    | intro _ | split | dsimp only

theorem promote_touch {fs : List Piece} {s0 : State} {h : BId} {req : ReqId} {guard : Nat} {s : State} (sub : [.pg] ⊆ fs) (h0
    : Touch fs s0 s) : Touch fs s0 (promote h req guard s) := by
  unfold promote
  try dsimp only
  repeat' first
    | with_reducible assumption | with_reducible refine pgOrder_touch (subOf (by decide) sub) ?_ ?_
    | with_reducible refine updPg_touch (subOf (by decide) sub) ?_ | intro _ | split | dsimp only

theorem swapBerth_touch {fs : List Piece} {s0 : State} {b : BId} {s : State}
    (sub : [.out, .freeCtr, .rp, .log, .pl, .dk, .tw, .us, .ar, .pg] ⊆ fs) (h0 : Touch fs s0 s) : Touch fs s0 (swapBerth b s)
    := by
  unfold swapBerth
  try dsimp only
  repeat' first
    | with_reducible assumption | with_reducible refine dropInf_touch (subOf (by decide) sub) ?_
    | with_reducible refine updGraph_touch (subOf (by decide) sub) ?_
    | with_reducible refine setGst_touch (subOf (by decide) sub) ?_
    | with_reducible refine updPg_touch (subOf (by decide) sub) ?_
    | with_reducible refine begun_touch (subOf (by decide) sub) ?_ | intro _ | split | dsimp only

theorem promoteSwap_touch {fs : List Piece} {s0 : State} {h : BId} {s : State}
    (sub : [.out, .freeCtr, .rp, .log, .pl, .dk, .tw, .us, .ar, .pg] ⊆ fs) (h0 : Touch fs s0 s)
    : Touch fs s0 (promoteSwap h s) := by
  unfold promoteSwap
  try dsimp only
  repeat' first
    | with_reducible assumption | with_reducible refine swapBerth_touch (subOf (by decide) sub) ?_
    | with_reducible refine updPg_touch (subOf (by decide) sub) ?_
    | with_reducible refine logRec_touch (subOf (by decide) sub) ?_ | with_reducible refine Touch.iter ?_ ?_
    | intro _ | split | dsimp only
end Sys2Proof.Machine
end

