-- ==== Sys2Proof/Laws/Touch/Images.lean ====
section
/-! SUPPORT. What each operation of Machine/Images.lean can touch. -/
set_option linter.unusedTactic false
set_option linter.unreachableTactic false
namespace Sys2Proof.Machine

theorem logImage_touch {fs : List Piece} {s0 : State} {b : BId} {role : Nat} {slotB : Bool} {code : Nat} {berth : Nat}
    {ver : Nat} {rb : Nat} {s : State} (sub : [.out, .freeCtr, .rp, .log, .dk, .us] ⊆ fs) (h0 : Touch fs s0 s)
    : Touch fs s0 (logImage b role slotB code berth ver rb s) := by
  unfold logImage
  try dsimp only
  repeat' first
    | with_reducible assumption | with_reducible refine logRec_touch (subOf (by decide) sub) ?_ | intro _ | split
    | dsimp only

theorem onImg_touch {fs : List Piece} {s0 : State} {f : Img → Img} {s : State} (sub : [.tray] ⊆ fs) (h0 : Touch fs s0 s)
    : Touch fs s0 (onImg f s) := by
  unfold onImg
  try dsimp only
  repeat' first
    | with_reducible assumption | with_reducible refine State.onTray_touch (subOf (by decide) sub) ?_ | intro _
    | split | dsimp only

theorem pilotCopy_touch {fs : List Piece} {s0 : State} {b : BId} {bytes : List Byte} {s : State} (sub : [.sy, .pl, .tcm] ⊆ fs)
    (h0 : Touch fs s0 s) : Touch fs s0 (pilotCopy b bytes s).2 := by
  unfold pilotCopy
  try dsimp only
  repeat' first
    | with_reducible assumption | with_reducible refine State.tcmWrite_touch (subOf (by decide) sub) ?_
    | with_reducible refine imageOn_touch (subOf (by decide) sub) ?_
    | with_reducible refine State.updPl_touch (subOf (by decide) sub) ?_ | intro _ | split | dsimp only

theorem pilotCopy_touch_eq {fs : List Piece} {s0 : State} {b : BId} {bytes : List Byte} {s : State} {r0} {t : State}
    (sub : [.sy, .pl, .tcm] ⊆ fs) (eq_ : pilotCopy b bytes s = (r0, t)) (h0 : Touch fs s0 s) : Touch fs s0 t := by
  have := @pilotCopy_touch fs s0 b bytes s sub  h0
  rw [eq_] at this; exact this

theorem copyFails_touch {fs : List Piece} {s0 : State} {b : BId} {s : State}
    (sub : [.out, .freeCtr, .sy, .rp, .log, .pl, .dk, .us, .tray] ⊆ fs) (h0 : Touch fs s0 s) : Touch fs s0 (copyFails b s)
    := by
  unfold copyFails
  try dsimp only
  repeat' first
    | with_reducible assumption | with_reducible refine onImg_touch (subOf (by decide) sub) ?_
    | with_reducible refine logImage_touch (subOf (by decide) sub) ?_
    | with_reducible refine State.updPl_touch (subOf (by decide) sub) ?_ | intro _ | split
    | with_reducible refine Touch.upd ?_ ?_
    | (refine TouchB.mk (fun f nf => ?_) (Berth.memCanonical_same rfl rfl rfl); cases f <;> first | exact absurd (sub (by decide)) nf | exact True.intro | exact rfl)
    | dsimp only

theorem imageCopyReceive_touch {fs : List Piece} {s0 : State} {b : BId} {bytes : List Byte} {s : State}
    (sub : [.out, .freeCtr, .sy, .rp, .log, .pl, .dk, .us, .tray, .tcm] ⊆ fs) (h0 : Touch fs s0 s)
    : Touch fs s0 (imageCopyReceive b bytes s) := by
  unfold imageCopyReceive
  try dsimp only
  repeat' first
    | with_reducible assumption | with_reducible refine pilotCopy_touch (subOf (by decide) sub) ?_
    | with_reducible refine copyFails_touch (subOf (by decide) sub) ?_ | intro _ | split
    | with_reducible refine pilotCopy_touch_eq (subOf (by decide) sub) (by with_reducible assumption) ?_
    | dsimp only

theorem pilotStart_touch {fs : List Piece} {s0 : State} {b : BId} {s : State} (sub : [.pl, .tcm] ⊆ fs) (h0 : Touch fs s0 s)
    : Touch fs s0 (pilotStart b s) := by
  unfold pilotStart
  try dsimp only
  repeat' first
    | with_reducible assumption | with_reducible refine TouchB.setTcm (memOf sub (by decide)) ?_
    | with_reducible exact flashProgram_wf | with_reducible exact flashErase_wf | with_reducible exact memWrite_wf
    | with_reducible exact memFilter_wf | (intro h; with_reducible exact memFold_wf h fun _ _ k => memSet_wf k rfl)
    | with_reducible refine State.updPl_touch (subOf (by decide) sub) ?_ | intro _ | split
    | with_reducible refine Touch.upd ?_ ?_
    | (refine TouchB.mk (fun f nf => ?_) (Berth.memCanonical_same rfl rfl rfl); cases f <;> first | exact absurd (sub (by decide)) nf | exact True.intro | exact rfl)
    | dsimp only

theorem dmaPilotReset_touch {fs : List Piece} {s0 : State} {b : BId} {e_ : Nat} {s : State}
    (sub : [.out, .freeCtr, .rp, .log, .hw, .pl, .dk, .dm, .us, .deck] ⊆ fs) (h0 : Touch fs s0 s)
    : Touch fs s0 (dmaPilotReset b e_ s) := by
  unfold dmaPilotReset
  try dsimp only
  repeat' first
    | with_reducible assumption | with_reducible refine State.updDm_touch (subOf (by decide) sub) ?_
    | with_reducible refine dmaBoundary_touch (subOf (by decide) sub) ?_ | intro _ | split
    | with_reducible refine dmaBoundary_touch_eq (subOf (by decide) sub) (by with_reducible assumption) ?_
    | dsimp only

theorem discardOrders_touch {fs : List Piece} {s0 : State} {b : BId} {s : State} (sub : [.hw] ⊆ fs) (h0 : Touch fs s0 s)
    : Touch fs s0 (discardOrders b s) := by
  unfold discardOrders
  try dsimp only
  repeat' first
    | with_reducible assumption | intro _ | split | with_reducible refine Touch.updAll ?_ ?_
    | (refine TouchB.mk (fun f nf => ?_) (Berth.memCanonical_same rfl rfl rfl); cases f <;> first | exact absurd (sub (by decide)) nf | exact True.intro | exact rfl)
    | dsimp only

theorem pilotHalt_touch {fs : List Piece} {s0 : State} {b : BId} {rule : Nat} {events : Nat} {s : State}
    (sub : [.out, .freeCtr, .rp, .log, .pl, .dk, .us] ⊆ fs) (h0 : Touch fs s0 s) : Touch fs s0 (pilotHalt b rule events s)
    := by
  unfold pilotHalt
  try dsimp only
  repeat' first
    | with_reducible assumption | with_reducible refine State.updPl_touch (subOf (by decide) sub) ?_
    | with_reducible refine notice_touch (subOf (by decide) sub) ?_
    | with_reducible refine logRec_touch (subOf (by decide) sub) ?_ | intro _ | split | dsimp only

theorem pilotRestart_touch {fs : List Piece} {s0 : State} {b : BId} {cause : Nat} {s : State}
    (sub : [.out, .freeCtr, .sy, .rp, .log, .hw, .pl, .dk, .dm, .us, .deck] ⊆ fs) (h0 : Touch fs s0 s)
    : Touch fs s0 (pilotRestart b cause s) := by
  unfold pilotRestart
  try dsimp only
  repeat' first
    | with_reducible assumption | with_reducible refine State.updPl_touch (subOf (by decide) sub) ?_
    | with_reducible refine discardOrders_touch (subOf (by decide) sub) ?_
    | with_reducible refine releaseHand_touch (subOf (by decide) sub) ?_
    | with_reducible refine dmaPilotReset_touch (subOf (by decide) sub) ?_
    | with_reducible refine pilotHalt_touch (subOf (by decide) sub) ?_
    | with_reducible refine logRec_touch (subOf (by decide) sub) ?_ | intro _ | split
    | with_reducible refine Touch.upd ?_ ?_
    | (refine TouchB.mk (fun f nf => ?_) (Berth.memCanonical_same rfl rfl rfl); cases f <;> first | exact absurd (sub (by decide)) nf | exact True.intro | exact rfl)
    | dsimp only

theorem watchdogExpiry_touch {fs : List Piece} {s0 : State} {b : BId} {s : State}
    (sub : [.out, .freeCtr, .sy, .rp, .log, .hw, .pl, .dk, .dm, .us, .deck] ⊆ fs) (h0 : Touch fs s0 s)
    : Touch fs s0 (watchdogExpiry b s) := by
  unfold watchdogExpiry
  try dsimp only
  repeat' first
    | with_reducible assumption | with_reducible refine pilotRestart_touch (subOf (by decide) sub) ?_
    | with_reducible refine State.updPl_touch (subOf (by decide) sub) ?_ | intro _ | split | dsimp only

theorem watchdogKick_touch {fs : List Piece} {s0 : State} {b : BId} {req : ReqId} {key : Nat} {s : State} (sub : [.pl] ⊆ fs)
    (h0 : Touch fs s0 s) : Touch fs s0 (watchdogKick b req key s) := by
  unfold watchdogKick
  try dsimp only
  repeat' first
    | with_reducible assumption | with_reducible refine State.updPl_touch (subOf (by decide) sub) ?_ | intro _
    | split | dsimp only

theorem restartOrder_touch {fs : List Piece} {s0 : State} {b : BId} {req : ReqId} {guard : Nat} {s : State}
    (sub : [.out, .freeCtr, .sy, .rp, .log, .hw, .pl, .dk, .dm, .us, .deck] ⊆ fs) (h0 : Touch fs s0 s)
    : Touch fs s0 (restartOrder b req guard s) := by
  unfold restartOrder
  try dsimp only
  repeat' first
    | with_reducible assumption | with_reducible refine State.updPl_touch (subOf (by decide) sub) ?_
    | with_reducible refine pilotRestart_touch (subOf (by decide) sub) ?_ | intro _ | split | dsimp only

theorem streamDone_touch {fs : List Piece} {s0 : State} {b : BId} {rdErr : Bool} {s : State}
    (sub : [.out, .freeCtr, .sy, .rp, .log, .pl, .dk, .us, .tcm] ⊆ fs) (h0 : Touch fs s0 s)
    : Touch fs s0 (streamDone b rdErr s) := by
  unfold streamDone
  try dsimp only
  repeat' first
    | with_reducible assumption | with_reducible refine pilotCopy_touch (subOf (by decide) sub) ?_
    | with_reducible refine State.updPl_touch (subOf (by decide) sub) ?_
    | with_reducible refine pilotHalt_touch (subOf (by decide) sub) ?_ | intro _ | split
    | with_reducible refine pilotCopy_touch_eq (subOf (by decide) sub) (by with_reducible assumption) ?_
    | dsimp only

theorem msipWrite_touch {fs : List Piece} {s0 : State} {b : BId} {req : ReqId} {set : Bool} {s : State} (sub : [.pl] ⊆ fs) (h0
    : Touch fs s0 s) : Touch fs s0 (msipWrite b req set s) := by
  unfold msipWrite
  try dsimp only
  repeat' first
    | with_reducible assumption | with_reducible refine State.updPl_touch (subOf (by decide) sub) ?_ | intro _
    | split | dsimp only

theorem imgNext_touch {fs : List Piece} {s0 : State} {s : State} (sub : [.tray] ⊆ fs) (h0 : Touch fs s0 s)
    : Touch fs s0 (imgNext s) := by
  unfold imgNext
  try dsimp only
  repeat' first
    | with_reducible assumption | with_reducible refine onImg_touch (subOf (by decide) sub) ?_ | intro _ | split
    | dsimp only

theorem startImages_touch {fs : List Piece} {s0 : State} {h : BId} {s : State} (sub : [.pl, .tray] ⊆ fs) (h0 : Touch fs s0 s)
    : Touch fs s0 (startImages h s) := by
  unfold startImages
  try dsimp only
  repeat' first
    | with_reducible assumption | with_reducible refine State.updPl_touch (subOf (by decide) sub) ?_
    | with_reducible refine imgNext_touch (subOf (by decide) sub) ?_
    | with_reducible refine onImg_touch (subOf (by decide) sub) ?_ | with_reducible refine Touch.iter ?_ ?_
    | intro _ | split | dsimp only

theorem roleFailed_touch {fs : List Piece} {s0 : State} {role : Nat} {code : Nat} {slotB : Bool} {order : Bool} {s : State}
    (sub : [.sy, .pl, .tray] ⊆ fs) (h0 : Touch fs s0 s) : Touch fs s0 (roleFailed role code slotB order s) := by
  unfold roleFailed
  try dsimp only
  repeat' first
    | with_reducible assumption | with_reducible refine onImg_touch (subOf (by decide) sub) ?_
    | with_reducible refine startFail_touch (subOf (by decide) sub) ?_
    | with_reducible refine setImgSt_touch (subOf (by decide) sub) ?_
    | with_reducible refine State.updPl_touch (subOf (by decide) sub) ?_ | with_reducible refine Touch.iter ?_ ?_
    | intro _ | split | dsimp only

theorem rolePassed_touch {fs : List Piece} {s0 : State} {h : BId} {role : Nat} {slotB : Bool} {order : Bool} {s : State}
    (sub : [.out, .freeCtr, .sy, .rp, .rl, .log, .pw, .hw, .cl, .pl, .dk, .tw, .us, .ar, .pg, .tray, .tcm, .deck] ⊆ fs) (h0
    : Touch fs s0 s) : Touch fs s0 (rolePassed h role slotB order s) := by
  unfold rolePassed
  try dsimp only
  repeat' first
    | with_reducible assumption | with_reducible refine onImg_touch (subOf (by decide) sub) ?_
    | with_reducible refine policyLoad_touch (subOf (by decide) sub) ?_
    | with_reducible refine roleTakes_touch (subOf (by decide) sub) ?_
    | with_reducible refine imageOn_touch (subOf (by decide) sub) ?_
    | with_reducible refine imageCopyReceive_touch (subOf (by decide) sub) ?_
    | with_reducible refine ringSend_touch (subOf (by decide) sub) ?_ | with_reducible refine Touch.iter ?_ ?_
    | intro _ | split | dsimp only

theorem imageCheckDone_touch {fs : List Piece} {s0 : State} {h : BId} {unreadA : Bool} {unreadB : Bool} {rdErr : Bool}
    {s : State}
    (sub : [.out, .freeCtr, .sy, .rp, .rl, .log, .pw, .hw, .cl, .pl, .dk, .tw, .us, .ar, .pg, .tray, .tcm, .deck] ⊆ fs) (h0
    : Touch fs s0 s) : Touch fs s0 (imageCheckDone h unreadA unreadB rdErr s) := by
  unfold imageCheckDone
  try dsimp only
  repeat' first
    | with_reducible assumption | with_reducible refine logImage_touch (subOf (by decide) sub) ?_
    | with_reducible refine imgNext_touch (subOf (by decide) sub) ?_
    | with_reducible refine rolePassed_touch (subOf (by decide) sub) ?_
    | with_reducible refine onImg_touch (subOf (by decide) sub) ?_
    | with_reducible refine roleFailed_touch (subOf (by decide) sub) ?_ | intro _ | split | dsimp only

theorem loadOrder_touch {fs : List Piece} {s0 : State} {h : BId} {req : ReqId} {role : Nat} {slotB : Bool} {guard : Nat}
    {s : State} (sub : [.tray] ⊆ fs) (h0 : Touch fs s0 s) : Touch fs s0 (loadOrder h req role slotB guard s) := by
  unfold loadOrder
  try dsimp only
  repeat' first
    | with_reducible assumption | with_reducible refine onImg_touch (subOf (by decide) sub) ?_
    | with_reducible refine imgNext_touch (subOf (by decide) sub) ?_ | intro _ | split | dsimp only

theorem imagesMark_touch {fs : List Piece} {s0 : State} {b : BId} {tideStart : Bool} {s : State}
    (sub : [.out, .freeCtr, .sy, .rp, .log, .hw, .pl, .dk, .dm, .us, .tray, .deck] ⊆ fs) (h0 : Touch fs s0 s)
    : Touch fs s0 (imagesMark b tideStart s) := by
  unfold imagesMark
  try dsimp only
  repeat' first
    | with_reducible assumption | with_reducible refine pilotRestart_touch (subOf (by decide) sub) ?_
    | with_reducible refine onImg_touch (subOf (by decide) sub) ?_
    | with_reducible refine State.updPl_touch (subOf (by decide) sub) ?_ | with_reducible refine Touch.iter ?_ ?_
    | intro _ | split | dsimp only

theorem imagesTakeover_touch {fs : List Piece} {s0 : State} {h : BId} {s : State} (sub : [.tray] ⊆ fs) (h0 : Touch fs s0 s)
    : Touch fs s0 (imagesTakeover h s) := by
  unfold imagesTakeover
  try dsimp only
  repeat' first
    | with_reducible assumption | with_reducible refine onImg_touch (subOf (by decide) sub) ?_ | intro _ | split
    | dsimp only
end Sys2Proof.Machine
end

