-- ==== Sys2Proof/Laws/Touch/UsbPort.lean ====
section
/-! SUPPORT. What each operation of Machine/UsbPort.lean can touch. -/
set_option linter.unusedTactic false
set_option linter.unreachableTactic false
namespace Sys2Proof.Machine

theorem updUs_touch {fs : List Piece} {s0 : State} {b : BId} {f : Us → Us} {s : State} (sub : [.us] ⊆ fs) (h0 : Touch fs s0 s)
    : Touch fs s0 (updUs b f s) := by
  unfold updUs
  try dsimp only
  repeat' first
    | with_reducible assumption | intro _ | split | with_reducible refine Touch.upd ?_ ?_
    | (refine TouchB.mk (fun f nf => ?_) (Berth.memCanonical_same rfl rfl rfl); cases f <;> first | exact absurd (sub (by decide)) nf | exact True.intro | exact rfl)
    | dsimp only

theorem updDfu_touch {fs : List Piece} {s0 : State} {b : BId} {f : Dfu → Dfu} {s : State} (sub : [.us] ⊆ fs) (h0
    : Touch fs s0 s) : Touch fs s0 (updDfu b f s) := by
  unfold updDfu
  try dsimp only
  repeat' first
    | with_reducible assumption | with_reducible refine updUs_touch (subOf (by decide) sub) ?_ | intro _ | split
    | dsimp only

theorem logDfu_touch {fs : List Piece} {s0 : State} {b : BId} {ver : Nat} {s : State}
    (sub : [.out, .freeCtr, .rp, .log, .dk, .us] ⊆ fs) (h0 : Touch fs s0 s) : Touch fs s0 (logDfu b ver s) := by
  unfold logDfu
  try dsimp only
  repeat' first
    | with_reducible assumption | with_reducible refine logRec_touch (subOf (by decide) sub) ?_ | intro _ | split
    | dsimp only

theorem releaseAll_touch {fs : List Piece} {s0 : State} {gs : List Nat} {s : State} (sub : [.dk] ⊆ fs) (h0 : Touch fs s0 s)
    : Touch fs s0 (releaseAll gs s) := by
  unfold releaseAll
  try dsimp only
  repeat' first
    | with_reducible assumption | with_reducible refine deckRelease_touch (subOf (by decide) sub) ?_
    | with_reducible refine Touch.iter ?_ ?_ | intro _ | split | dsimp only

theorem dfuEnd_touch {fs : List Piece} {s0 : State} {b : BId} {status : Nat} {ver : Nat} {s : State}
    (sub : [.out, .freeCtr, .rp, .log, .dk, .us] ⊆ fs) (h0 : Touch fs s0 s) : Touch fs s0 (dfuEnd b status ver s) := by
  unfold dfuEnd
  try dsimp only
  repeat' first
    | with_reducible assumption | with_reducible refine updUs_touch (subOf (by decide) sub) ?_
    | with_reducible refine logDfu_touch (subOf (by decide) sub) ?_
    | with_reducible refine releaseAll_touch (subOf (by decide) sub) ?_ | intro _ | split | dsimp only

theorem dfuCut_touch {fs : List Piece} {s0 : State} {b : BId} {status : Nat} {s : State}
    (sub : [.out, .freeCtr, .rp, .log, .dk, .us] ⊆ fs) (h0 : Touch fs s0 s) : Touch fs s0 (dfuCut b status s) := by
  unfold dfuCut
  try dsimp only
  repeat' first
    | with_reducible assumption | with_reducible refine dfuEnd_touch (subOf (by decide) sub) ?_
    | with_reducible refine updDfu_touch (subOf (by decide) sub) ?_ | intro _ | split | dsimp only

theorem telClear_touch {fs : List Piece} {s0 : State} {b : BId} {s : State} (sub : [.dk, .us] ⊆ fs) (h0 : Touch fs s0 s)
    : Touch fs s0 (telClear b s) := by
  unfold telClear
  try dsimp only
  repeat' first
    | with_reducible assumption | with_reducible refine releaseAll_touch (subOf (by decide) sub) ?_
    | with_reducible refine updUs_touch (subOf (by decide) sub) ?_ | intro _ | split | dsimp only

theorem busState_touch {fs : List Piece} {s0 : State} {b : BId} {attached : Bool} {dev : UsbDev} {s : State}
    (sub : [.us] ⊆ fs) (h0 : Touch fs s0 s) : Touch fs s0 (busState b attached dev s) := by
  unfold busState
  try dsimp only
  repeat' first
    | with_reducible assumption | with_reducible refine updUs_touch (subOf (by decide) sub) ?_ | intro _ | split
    | dsimp only

theorem usbDetach_touch {fs : List Piece} {s0 : State} {b : BId} {s : State}
    (sub : [.out, .freeCtr, .rp, .log, .dk, .us] ⊆ fs) (h0 : Touch fs s0 s) : Touch fs s0 (usbDetach b s) := by
  unfold usbDetach
  try dsimp only
  repeat' first
    | with_reducible assumption | with_reducible refine telClear_touch (subOf (by decide) sub) ?_
    | with_reducible refine busState_touch (subOf (by decide) sub) ?_
    | with_reducible refine dfuCut_touch (subOf (by decide) sub) ?_ | intro _ | split | dsimp only

theorem usbFollow_touch {fs : List Piece} {s0 : State} {b : BId} {s : State}
    (sub : [.out, .freeCtr, .rp, .log, .dk, .us] ⊆ fs) (h0 : Touch fs s0 s) : Touch fs s0 (usbFollow b s) := by
  unfold usbFollow
  try dsimp only
  repeat' first
    | with_reducible assumption | with_reducible refine busState_touch (subOf (by decide) sub) ?_
    | with_reducible refine usbDetach_touch (subOf (by decide) sub) ?_ | intro _ | split | dsimp only

theorem vbusChange_touch {fs : List Piece} {s0 : State} {b : BId} {valid : Bool} {s : State}
    (sub : [.out, .freeCtr, .rp, .log, .dk, .us] ⊆ fs) (h0 : Touch fs s0 s) : Touch fs s0 (vbusChange b valid s) := by
  unfold vbusChange
  try dsimp only
  repeat' first
    | with_reducible assumption | with_reducible refine usbFollow_touch (subOf (by decide) sub) ?_
    | with_reducible refine updUs_touch (subOf (by decide) sub) ?_ | intro _ | split | dsimp only

theorem wake_touch {fs : List Piece} {s0 : State} {s : State} (sub : [.dev, .log, .cl, .tw] ⊆ fs) (h0 : Touch fs s0 s)
    : Touch fs s0 (wake s) := by
  unfold wake
  try dsimp only
  repeat' first
    | with_reducible assumption | with_reducible refine logPump_touch (subOf (by decide) sub) ?_
    | with_reducible refine Touch.iter ?_ ?_ | intro _ | split | with_reducible refine Touch.updAll ?_ ?_
    | (refine Touch.frame (by with_reducible assumption) ?_ ?_ ?_ ?_ ?_ <;> first | with_reducible rfl | (intro nf; first | with_reducible rfl | exact absurd (sub (by decide)) nf))
    | (refine TouchB.mk (fun f nf => ?_) (Berth.memCanonical_same rfl rfl rfl); cases f <;> first | exact absurd (sub (by decide)) nf | exact True.intro | exact rfl)
    | dsimp only

theorem usbReset_touch {fs : List Piece} {s0 : State} {b : BId} {hs : Bool} {s : State}
    (sub : [.out, .freeCtr, .dev, .rp, .log, .cl, .dk, .tw, .us] ⊆ fs) (h0 : Touch fs s0 s) : Touch fs s0 (usbReset b hs s)
    := by
  unfold usbReset
  try dsimp only
  repeat' first
    | with_reducible assumption | with_reducible refine telClear_touch (subOf (by decide) sub) ?_
    | with_reducible refine dfuCut_touch (subOf (by decide) sub) ?_
    | with_reducible refine wake_touch (subOf (by decide) sub) ?_
    | with_reducible refine updUs_touch (subOf (by decide) sub) ?_
    | with_reducible refine busState_touch (subOf (by decide) sub) ?_ | intro _ | split | dsimp only

theorem usbSuspend_touch {fs : List Piece} {s0 : State} {b : BId} {s : State} (sub : [.us] ⊆ fs) (h0 : Touch fs s0 s)
    : Touch fs s0 (usbSuspend b s) := by
  unfold usbSuspend
  try dsimp only
  repeat' first
    | with_reducible assumption | with_reducible refine updUs_touch (subOf (by decide) sub) ?_ | intro _ | split
    | dsimp only

theorem usbResume_touch {fs : List Piece} {s0 : State} {b : BId} {s : State} (sub : [.dev, .log, .cl, .tw, .us] ⊆ fs) (h0
    : Touch fs s0 s) : Touch fs s0 (usbResume b s) := by
  unfold usbResume
  try dsimp only
  repeat' first
    | with_reducible assumption | with_reducible refine wake_touch (subOf (by decide) sub) ?_
    | with_reducible refine updUs_touch (subOf (by decide) sub) ?_ | intro _ | split | dsimp only

theorem remoteWakeup_touch {fs : List Piece} {s0 : State} {b : BId} {s : State} (sub : [.out, .us] ⊆ fs) (h0 : Touch fs s0 s)
    : Touch fs s0 (remoteWakeup b s) := by
  unfold remoteWakeup
  try dsimp only
  repeat' first
    | with_reducible assumption | with_reducible refine State.emit_touch (subOf (by decide) sub) ?_
    | with_reducible refine updUs_touch (subOf (by decide) sub) ?_ | intro _ | split | dsimp only

theorem answer_touch {fs : List Piece} {s0 : State} {bs : List Byte} {len : Nat} {s : State} (sub : [.out] ⊆ fs) (h0
    : Touch fs s0 s) : Touch fs s0 (answer bs len s) := by
  unfold answer
  try dsimp only
  repeat' first
    | with_reducible assumption | with_reducible refine State.emit_touch (subOf (by decide) sub) ?_ | intro _
    | split | dsimp only

theorem request_touch {fs : List Piece} {s0 : State} {b : BId} {r : Option State} {s : State} (sub : [.out] ⊆ fs)
    (hr : ∀ t, r = some t → Touch fs s0 t) (h0 : Touch fs s0 s) : Touch fs s0 (request b r s) := by
  unfold request
  split
  · exact h0
  · split
    · exact hr _ rfl
    · exact State.emit_touch (subOf (by decide) sub) h0

theorem getStatus_touch {fs : List Piece} {s0 : State} {b : BId} {recip : Nat} {idx : Nat} {s : State} (sub : [.out] ⊆ fs) (h0
    : Touch fs s0 s) : Touch fs s0 (getStatus b recip idx s) := by
  unfold getStatus
  try dsimp only
  repeat' first
    | with_reducible assumption | with_reducible refine answer_touch (subOf (by decide) sub) ?_
    | (with_reducible refine request_touch (subOf (by decide) sub) ?_ ?_; first | (intro _ eq_; done) | (intro _ eq_; rw [Option.map_eq_some_iff] at eq_; obtain ⟨_, _, rfl⟩ := eq_) | (intro _ eq_; (repeat' (split at eq_)) <;> cases eq_) | skip)
    | intro _ | split | dsimp only

theorem setFeature_touch {fs : List Piece} {s0 : State} {b : BId} {on : Bool} {feature : Nat} {recip : Nat} {idx : Nat}
    {s : State} (sub : [.out, .dk, .us] ⊆ fs) (h0 : Touch fs s0 s) : Touch fs s0 (setFeature b on feature recip idx s) := by
  unfold setFeature
  try dsimp only
  repeat' first
    | with_reducible assumption
    | (with_reducible refine request_touch (subOf (by decide) sub) ?_ ?_; first | (intro _ eq_; done) | (intro _ eq_; rw [Option.map_eq_some_iff] at eq_; obtain ⟨_, _, rfl⟩ := eq_) | (intro _ eq_; (repeat' (split at eq_)) <;> cases eq_) | skip)
    | with_reducible refine updUs_touch (subOf (by decide) sub) ?_
    | with_reducible refine State.emit_touch (subOf (by decide) sub) ?_
    | with_reducible refine telClear_touch (subOf (by decide) sub) ?_ | intro _ | split | dsimp only

theorem setAddress_touch {fs : List Piece} {s0 : State} {b : BId} {a : Nat} {s : State} (sub : [.out, .us] ⊆ fs) (h0
    : Touch fs s0 s) : Touch fs s0 (setAddress b a s) := by
  unfold setAddress
  try dsimp only
  repeat' first
    | with_reducible assumption
    | (with_reducible refine request_touch (subOf (by decide) sub) ?_ ?_; first | (intro _ eq_; done) | (intro _ eq_; rw [Option.map_eq_some_iff] at eq_; obtain ⟨_, _, rfl⟩ := eq_) | (intro _ eq_; (repeat' (split at eq_)) <;> cases eq_) | skip)
    | with_reducible refine State.emit_touch (subOf (by decide) sub) ?_
    | with_reducible refine updUs_touch (subOf (by decide) sub) ?_ | intro _ | split | dsimp only

theorem getDescriptor_touch {fs : List Piece} {s0 : State} {b : BId} {ty : Nat} {i : Nat} {len : Nat} {s : State}
    (sub : [.out] ⊆ fs) (h0 : Touch fs s0 s) : Touch fs s0 (getDescriptor b ty i len s) := by
  unfold getDescriptor
  try dsimp only
  repeat' first
    | with_reducible assumption
    | (with_reducible refine request_touch (subOf (by decide) sub) ?_ ?_; first | (intro _ eq_; done) | (intro _ eq_; rw [Option.map_eq_some_iff] at eq_; obtain ⟨_, _, rfl⟩ := eq_) | (intro _ eq_; (repeat' (split at eq_)) <;> cases eq_) | skip)
    | with_reducible refine answer_touch (subOf (by decide) sub) ?_ | intro _ | split | dsimp only

theorem setConfiguration_touch {fs : List Piece} {s0 : State} {b : BId} {v : Nat} {s : State} (sub : [.out, .dk, .us] ⊆ fs)
    (h0 : Touch fs s0 s) : Touch fs s0 (setConfiguration b v s) := by
  unfold setConfiguration
  try dsimp only
  repeat' first
    | with_reducible assumption
    | (with_reducible refine request_touch (subOf (by decide) sub) ?_ ?_; first | (intro _ eq_; done) | (intro _ eq_; rw [Option.map_eq_some_iff] at eq_; obtain ⟨_, _, rfl⟩ := eq_) | (intro _ eq_; (repeat' (split at eq_)) <;> cases eq_) | skip)
    | with_reducible refine State.emit_touch (subOf (by decide) sub) ?_
    | with_reducible refine telClear_touch (subOf (by decide) sub) ?_
    | with_reducible refine updUs_touch (subOf (by decide) sub) ?_ | intro _ | split | dsimp only

theorem getInterface_touch {fs : List Piece} {s0 : State} {b : BId} {i : Nat} {s : State} (sub : [.out] ⊆ fs) (h0
    : Touch fs s0 s) : Touch fs s0 (getInterface b i s) := by
  unfold getInterface
  try dsimp only
  repeat' first
    | with_reducible assumption
    | (with_reducible refine request_touch (subOf (by decide) sub) ?_ ?_; first | (intro _ eq_; done) | (intro _ eq_; rw [Option.map_eq_some_iff] at eq_; obtain ⟨_, _, rfl⟩ := eq_) | (intro _ eq_; (repeat' (split at eq_)) <;> cases eq_) | skip)
    | with_reducible refine answer_touch (subOf (by decide) sub) ?_ | intro _ | split | dsimp only

theorem setInterface_touch {fs : List Piece} {s0 : State} {b : BId} {i : Nat} {alt : Nat} {s : State} (sub : [.out, .us] ⊆ fs)
    (h0 : Touch fs s0 s) : Touch fs s0 (setInterface b i alt s) := by
  unfold setInterface
  try dsimp only
  repeat' first
    | with_reducible assumption
    | (with_reducible refine request_touch (subOf (by decide) sub) ?_ ?_; first | (intro _ eq_; done) | (intro _ eq_; rw [Option.map_eq_some_iff] at eq_; obtain ⟨_, _, rfl⟩ := eq_) | (intro _ eq_; (repeat' (split at eq_)) <;> cases eq_) | skip)
    | with_reducible refine State.emit_touch (subOf (by decide) sub) ?_
    | with_reducible refine updUs_touch (subOf (by decide) sub) ?_ | intro _ | split | dsimp only

theorem telemetryIn_touch {fs : List Piece} {s0 : State} {b : BId} {s : State} (sub : [.out, .us] ⊆ fs) (h0 : Touch fs s0 s)
    : Touch fs s0 (telemetryIn b s) := by
  unfold telemetryIn
  try dsimp only
  repeat' first
    | with_reducible assumption | with_reducible refine State.emit_touch (subOf (by decide) sub) ?_
    | with_reducible refine updUs_touch (subOf (by decide) sub) ?_ | intro _ | split | dsimp only

theorem telPop_touch {fs : List Piece} {s0 : State} {b : BId} {y1 : Nat} {y2 : State} (sub : [.dk, .us] ⊆ fs) (h0
    : Touch fs s0 y2) : Touch fs s0 (telPop b y1 y2) := by
  induction y1 generalizing y2
  case zero => unfold telPop; exact h0
  rename_i kk ih
  unfold telPop
  try dsimp only
  repeat' first
    | with_reducible assumption | (with_reducible apply ih)
    | with_reducible refine releaseAll_touch (subOf (by decide) sub) ?_
    | with_reducible refine updUs_touch (subOf (by decide) sub) ?_ | intro _ | split | dsimp only

theorem telemetryAck_touch {fs : List Piece} {s0 : State} {b : BId} {s : State} (sub : [.dk, .us] ⊆ fs) (h0 : Touch fs s0 s)
    : Touch fs s0 (telemetryAck b s) := by
  unfold telemetryAck
  try dsimp only
  repeat' first
    | with_reducible assumption | with_reducible refine updUs_touch (subOf (by decide) sub) ?_
    | with_reducible refine telPop_touch (subOf (by decide) sub) ?_ | intro _ | split | dsimp only

theorem telPush_touch {fs : List Piece} {s0 : State} {req : ReqId} {w : Word} {s : State} (sub : [.freeCtr, .dk, .us] ⊆ fs)
    (h0 : Touch fs s0 s) : Touch fs s0 (telPush req w s) := by
  unfold telPush
  try dsimp only
  repeat' first
    | with_reducible assumption | with_reducible refine updUs_touch (subOf (by decide) sub) ?_
    | with_reducible refine telLossFirst_touch (subOf (by decide) sub) ?_
    | with_reducible refine State.updDk_touch (subOf (by decide) sub) ?_ | intro _ | split | dsimp only
end Sys2Proof.Machine
end

