-- ==== Sys2Proof/Laws/Touch/Dfu.lean ====
section
/-! SUPPORT. What each operation of Machine/Dfu.lean can touch. -/
set_option linter.unusedTactic false
set_option linter.unreachableTactic false
namespace Sys2Proof.Machine

theorem dfuPump_touch {fs : List Piece} {s0 : State} {b : BId} {s : State} (sub : [.out, .freeCtr, .rp, .log, .dk, .us] ⊆ fs)
    (h0 : Touch fs s0 s) : Touch fs s0 (dfuPump b s) := by
  unfold dfuPump
  try dsimp only
  repeat' first
    | with_reducible assumption | with_reducible refine dfuEnd_touch (subOf (by decide) sub) ?_
    | with_reducible refine updDfu_touch (subOf (by decide) sub) ?_ | intro _ | split | dsimp only

theorem dfuBlockDone_touch {fs : List Piece} {s0 : State} {b : BId} {s : State} (sub : [.dk, .us] ⊆ fs) (h0 : Touch fs s0 s)
    : Touch fs s0 (dfuBlockDone b s) := by
  unfold dfuBlockDone
  try dsimp only
  repeat' first
    | with_reducible assumption | with_reducible refine releaseAll_touch (subOf (by decide) sub) ?_
    | with_reducible refine updDfu_touch (subOf (by decide) sub) ?_ | intro _ | split | dsimp only

theorem flashFree_touch {fs : List Piece} {s0 : State} {logLast : Bool} {h : BId} {s : State}
    (sub : [.out, .freeCtr, .rp, .log, .dk, .us] ⊆ fs) (h0 : Touch fs s0 s) : Touch fs s0 (flashFree logLast h s) := by
  unfold flashFree
  try dsimp only
  repeat' first
    | with_reducible assumption | with_reducible refine dfuBlockDone_touch (subOf (by decide) sub) ?_
    | with_reducible refine dfuPump_touch (subOf (by decide) sub) ?_
    | with_reducible refine logPump_touch (subOf (by decide) sub) ?_ | intro _ | split | dsimp only

theorem logProgramDone_touch {fs : List Piece} {s0 : State} {h : BId} {s : State}
    (sub : [.out, .freeCtr, .rp, .log, .dk, .us, .flash] ⊆ fs) (h0 : Touch fs s0 s) : Touch fs s0 (logProgramDone h s) := by
  unfold logProgramDone
  try dsimp only
  repeat' first
    | with_reducible assumption | with_reducible refine TouchB.setFlash (memOf sub (by decide)) ?_
    | with_reducible exact flashProgram_wf | with_reducible exact flashErase_wf | with_reducible exact memWrite_wf
    | with_reducible exact memFilter_wf | (intro h; with_reducible exact memFold_wf h fun _ _ k => memSet_wf k rfl)
    | with_reducible refine State.updLog_touch (subOf (by decide) sub) ?_
    | with_reducible refine flashFree_touch (subOf (by decide) sub) ?_
    | with_reducible refine logRetireRecord_touch (subOf (by decide) sub) ?_ | intro _ | split
    | with_reducible refine Touch.upd ?_ ?_
    | (refine TouchB.mk (fun f nf => ?_) (Berth.memCanonical_same rfl rfl rfl); cases f <;> first | exact absurd (sub (by decide)) nf | exact True.intro | exact rfl)
    | dsimp only

theorem logEraseDone_touch {fs : List Piece} {s0 : State} {h : BId} {s : State}
    (sub : [.out, .freeCtr, .rp, .log, .dk, .us, .flash] ⊆ fs) (h0 : Touch fs s0 s) : Touch fs s0 (logEraseDone h s) := by
  unfold logEraseDone
  try dsimp only
  repeat' first
    | with_reducible assumption | with_reducible refine TouchB.setFlash (memOf sub (by decide)) ?_
    | with_reducible exact flashProgram_wf | with_reducible exact flashErase_wf | with_reducible exact memWrite_wf
    | with_reducible exact memFilter_wf | (intro h; with_reducible exact memFold_wf h fun _ _ k => memSet_wf k rfl)
    | with_reducible refine flashFree_touch (subOf (by decide) sub) ?_
    | with_reducible refine State.updLog_touch (subOf (by decide) sub) ?_ | intro _ | split
    | with_reducible refine Touch.upd ?_ ?_
    | (refine TouchB.mk (fun f nf => ?_) (Berth.memCanonical_same rfl rfl rfl); cases f <;> first | exact absurd (sub (by decide)) nf | exact True.intro | exact rfl)
    | dsimp only

theorem dfuEraseDone_touch {fs : List Piece} {s0 : State} {b : BId} {ok : Bool} {s : State}
    (sub : [.out, .freeCtr, .rp, .log, .dk, .us, .flash] ⊆ fs) (h0 : Touch fs s0 s) : Touch fs s0 (dfuEraseDone b ok s) := by
  unfold dfuEraseDone
  try dsimp only
  repeat' first
    | with_reducible assumption | with_reducible refine TouchB.setFlash (memOf sub (by decide)) ?_
    | with_reducible exact flashProgram_wf | with_reducible exact flashErase_wf | with_reducible exact memWrite_wf
    | with_reducible exact memFilter_wf | (intro h; with_reducible exact memFold_wf h fun _ _ k => memSet_wf k rfl)
    | with_reducible refine updDfu_touch (subOf (by decide) sub) ?_
    | with_reducible refine tornErase_touch (subOf (by decide) sub) ?_
    | with_reducible refine logPump_touch (subOf (by decide) sub) ?_
    | with_reducible refine dfuEnd_touch (subOf (by decide) sub) ?_
    | with_reducible refine flashFree_touch (subOf (by decide) sub) ?_ | intro _ | split
    | with_reducible refine Touch.upd ?_ ?_
    | (refine TouchB.mk (fun f nf => ?_) (Berth.memCanonical_same rfl rfl rfl); cases f <;> first | exact absurd (sub (by decide)) nf | exact True.intro | exact rfl)
    | dsimp only

theorem dfuProgramDone_touch {fs : List Piece} {s0 : State} {b : BId} {ok : Bool} {s : State}
    (sub : [.out, .freeCtr, .rp, .log, .dk, .us, .flash] ⊆ fs) (h0 : Touch fs s0 s) : Touch fs s0 (dfuProgramDone b ok s)
    := by
  unfold dfuProgramDone
  try dsimp only
  repeat' first
    | with_reducible assumption | with_reducible refine TouchB.setFlash (memOf sub (by decide)) ?_
    | with_reducible exact flashProgram_wf | with_reducible exact flashErase_wf | with_reducible exact memWrite_wf
    | with_reducible exact memFilter_wf | (intro h; with_reducible exact memFold_wf h fun _ _ k => memSet_wf k rfl)
    | with_reducible refine updDfu_touch (subOf (by decide) sub) ?_
    | with_reducible refine tornProgram_touch (subOf (by decide) sub) ?_
    | with_reducible refine logPump_touch (subOf (by decide) sub) ?_
    | with_reducible refine dfuEnd_touch (subOf (by decide) sub) ?_
    | with_reducible refine flashFree_touch (subOf (by decide) sub) ?_ | intro _ | split
    | with_reducible refine Touch.upd ?_ ?_
    | (refine TouchB.mk (fun f nf => ?_) (Berth.memCanonical_same rfl rfl rfl); cases f <;> first | exact absurd (sub (by decide)) nf | exact True.intro | exact rfl)
    | dsimp only

theorem dfuUnexpected_touch {fs : List Piece} {s0 : State} {b : BId} {s : State}
    (sub : [.out, .freeCtr, .rp, .log, .dk, .us] ⊆ fs) (h0 : Touch fs s0 s) : Touch fs s0 (dfuUnexpected b s) := by
  unfold dfuUnexpected
  try dsimp only
  repeat' first
    | with_reducible assumption | with_reducible refine dfuEnd_touch (subOf (by decide) sub) ?_
    | with_reducible refine updDfu_touch (subOf (by decide) sub) ?_
    | with_reducible refine State.emit_touch (subOf (by decide) sub) ?_ | intro _ | split | dsimp only

theorem dfuTake_touch {fs : List Piece} {s0 : State} {b : BId} {data : List Byte} {gs : List Nat} {s : State}
    (sub : [.out, .freeCtr, .rp, .log, .dk, .us] ⊆ fs) (h0 : Touch fs s0 s) : Touch fs s0 (dfuTake b data gs s) := by
  unfold dfuTake
  try dsimp only
  repeat' first
    | with_reducible assumption | with_reducible refine updDfu_touch (subOf (by decide) sub) ?_
    | with_reducible refine State.emit_touch (subOf (by decide) sub) ?_
    | with_reducible refine dfuBlockDone_touch (subOf (by decide) sub) ?_
    | with_reducible refine dfuPump_touch (subOf (by decide) sub) ?_ | intro _ | split | dsimp only

theorem dfuBlock_touch {fs : List Piece} {s0 : State} {b : BId} {num : Nat} {data : List Byte} {s : State}
    (sub : [.out, .freeCtr, .rp, .log, .dk, .us] ⊆ fs) (h0 : Touch fs s0 s) : Touch fs s0 (dfuBlock b num data s) := by
  unfold dfuBlock
  try dsimp only
  repeat' first
    | with_reducible assumption | with_reducible refine State.emit_touch (subOf (by decide) sub) ?_
    | with_reducible refine dfuEnd_touch (subOf (by decide) sub) ?_
    | with_reducible refine allocMany_touch (subOf (by decide) sub) ?_
    | with_reducible refine dfuTake_touch (subOf (by decide) sub) ?_ | intro _ | split
    | with_reducible refine allocMany_touch_eq (subOf (by decide) sub) (by with_reducible assumption) ?_
    | dsimp only

theorem dfuFirst_touch {fs : List Piece} {s0 : State} {b : BId} {num : Nat} {data : List Byte} {rdErr : Bool} {s : State}
    (sub : [.out, .freeCtr, .rp, .log, .dk, .us] ⊆ fs) (h0 : Touch fs s0 s) : Touch fs s0 (dfuFirst b num data rdErr s) := by
  unfold dfuFirst
  try dsimp only
  repeat' first
    | with_reducible assumption | with_reducible refine updDfu_touch (subOf (by decide) sub) ?_
    | with_reducible refine State.emit_touch (subOf (by decide) sub) ?_
    | with_reducible refine dfuEnd_touch (subOf (by decide) sub) ?_
    | with_reducible refine dfuBlock_touch (subOf (by decide) sub) ?_ | intro _ | split | dsimp only

theorem dfuDnload_touch {fs : List Piece} {s0 : State} {b : BId} {num : Nat} {data : List Byte} {rdErr : Bool} {s : State}
    (sub : [.out, .freeCtr, .rp, .log, .dk, .us] ⊆ fs) (h0 : Touch fs s0 s) : Touch fs s0 (dfuDnload b num data rdErr s) := by
  unfold dfuDnload
  try dsimp only
  repeat' first
    | with_reducible assumption | with_reducible refine dfuUnexpected_touch (subOf (by decide) sub) ?_
    | with_reducible refine dfuFirst_touch (subOf (by decide) sub) ?_
    | with_reducible refine State.emit_touch (subOf (by decide) sub) ?_
    | with_reducible refine updDfu_touch (subOf (by decide) sub) ?_
    | with_reducible refine dfuBlock_touch (subOf (by decide) sub) ?_ | intro _ | split | dsimp only

theorem dfuUpload_touch {fs : List Piece} {s0 : State} {b : BId} {len : Nat} {rdErr : Bool} {s : State}
    (sub : [.out, .freeCtr, .rp, .log, .dk, .us] ⊆ fs) (h0 : Touch fs s0 s) : Touch fs s0 (dfuUpload b len rdErr s) := by
  unfold dfuUpload
  try dsimp only
  repeat' first
    | with_reducible assumption | with_reducible refine State.emit_touch (subOf (by decide) sub) ?_
    | with_reducible refine dfuUnexpected_touch (subOf (by decide) sub) ?_
    | with_reducible refine updDfu_touch (subOf (by decide) sub) ?_ | intro _ | split | dsimp only

theorem dfuGetStatus_touch {fs : List Piece} {s0 : State} {b : BId} {s : State} (sub : [.out, .us] ⊆ fs) (h0 : Touch fs s0 s)
    : Touch fs s0 (dfuGetStatus b s) := by
  unfold dfuGetStatus
  try dsimp only
  repeat' first
    | with_reducible assumption | with_reducible refine State.emit_touch (subOf (by decide) sub) ?_
    | with_reducible refine updDfu_touch (subOf (by decide) sub) ?_ | intro _ | split | dsimp only

theorem dfuClrStatus_touch {fs : List Piece} {s0 : State} {b : BId} {s : State}
    (sub : [.out, .freeCtr, .rp, .log, .dk, .us] ⊆ fs) (h0 : Touch fs s0 s) : Touch fs s0 (dfuClrStatus b s) := by
  unfold dfuClrStatus
  try dsimp only
  repeat' first
    | with_reducible assumption | with_reducible refine State.emit_touch (subOf (by decide) sub) ?_
    | with_reducible refine updDfu_touch (subOf (by decide) sub) ?_
    | with_reducible refine dfuUnexpected_touch (subOf (by decide) sub) ?_ | intro _ | split | dsimp only

theorem dfuGetState_touch {fs : List Piece} {s0 : State} {b : BId} {s : State} (sub : [.out] ⊆ fs) (h0 : Touch fs s0 s)
    : Touch fs s0 (dfuGetState b s) := by
  unfold dfuGetState
  try dsimp only
  repeat' first
    | with_reducible assumption | with_reducible refine State.emit_touch (subOf (by decide) sub) ?_ | intro _
    | split | dsimp only

theorem dfuAbort_touch {fs : List Piece} {s0 : State} {b : BId} {s : State} (sub : [.out, .freeCtr, .rp, .log, .dk, .us] ⊆ fs)
    (h0 : Touch fs s0 s) : Touch fs s0 (dfuAbort b s) := by
  unfold dfuAbort
  try dsimp only
  repeat' first
    | with_reducible assumption | with_reducible refine State.emit_touch (subOf (by decide) sub) ?_
    | with_reducible refine dfuCut_touch (subOf (by decide) sub) ?_ | intro _ | split | dsimp only

theorem dfuPass_touch {fs : List Piece} {s0 : State} {b : BId} {ver : Nat} {s : State}
    (sub : [.out, .freeCtr, .rp, .log, .dk, .us] ⊆ fs) (h0 : Touch fs s0 s) : Touch fs s0 (dfuPass b ver s) := by
  unfold dfuPass
  try dsimp only
  repeat' first
    | with_reducible assumption | with_reducible refine updUs_touch (subOf (by decide) sub) ?_
    | with_reducible refine logDfu_touch (subOf (by decide) sub) ?_ | intro _ | split | dsimp only

theorem manifestationDone_touch {fs : List Piece} {s0 : State} {b : BId} {progOk : Bool} {same : Bool} {rdErr : Bool}
    {s : State} (sub : [.out, .freeCtr, .rp, .log, .dk, .us, .flash] ⊆ fs) (h0 : Touch fs s0 s)
    : Touch fs s0 (manifestationDone b progOk same rdErr s) := by
  unfold manifestationDone
  try dsimp only
  repeat' first
    | with_reducible assumption | with_reducible refine TouchB.setFlash (memOf sub (by decide)) ?_
    | with_reducible exact flashProgram_wf | with_reducible exact flashErase_wf | with_reducible exact memWrite_wf
    | with_reducible exact memFilter_wf | (intro h; with_reducible exact memFold_wf h fun _ _ k => memSet_wf k rfl)
    | with_reducible refine dfuEnd_touch (subOf (by decide) sub) ?_
    | with_reducible refine tornProgram_touch (subOf (by decide) sub) ?_
    | with_reducible refine dfuPass_touch (subOf (by decide) sub) ?_
    | with_reducible refine updDfu_touch (subOf (by decide) sub) ?_ | intro _ | split
    | with_reducible refine Touch.upd ?_ ?_
    | (refine TouchB.mk (fun f nf => ?_) (Berth.memCanonical_same rfl rfl rfl); cases f <;> first | exact absurd (sub (by decide)) nf | exact True.intro | exact rfl)
    | dsimp only

theorem dfuChartCut_touch {fs : List Piece} {s0 : State} {h : BId} {slotB : Bool} {s : State}
    (sub : [.out, .freeCtr, .rp, .log, .dk, .us] ⊆ fs) (h0 : Touch fs s0 s) : Touch fs s0 (dfuChartCut h slotB s) := by
  unfold dfuChartCut
  try dsimp only
  repeat' first
    | with_reducible assumption | with_reducible refine dfuEnd_touch (subOf (by decide) sub) ?_ | intro _ | split
    | dsimp only

theorem imageChecked_touch {fs : List Piece} {s0 : State} {h : BId} {unreadA : Bool} {unreadB : Bool} {rdErr : Bool}
    {s : State}
    (sub : [.out, .freeCtr, .sy, .rp, .rl, .log, .pw, .hw, .cl, .pl, .dk, .tw, .us, .ar, .pg, .tray, .tcm, .deck] ⊆ fs) (h0
    : Touch fs s0 s) : Touch fs s0 (imageChecked h unreadA unreadB rdErr s) := by
  unfold imageChecked
  try dsimp only
  repeat' first
    | with_reducible assumption | with_reducible refine flashFree_touch (subOf (by decide) sub) ?_
    | with_reducible refine imageCheckDone_touch (subOf (by decide) sub) ?_ | intro _ | split | dsimp only
end Sys2Proof.Machine
end

