-- ==== Sys2Proof/Laws/Touch/Chart.lean ====
section
/-! SUPPORT. What each operation of Machine/Chart.lean can touch. -/
set_option linter.unusedTactic false
set_option linter.unreachableTactic false
namespace Sys2Proof.Machine

theorem updCh_touch {fs : List Piece} {s0 : State} {b : BId} {f : Ch → Ch} {s : State} (sub : [.ch] ⊆ fs) (h0 : Touch fs s0 s)
    : Touch fs s0 (updCh b f s) := by
  unfold updCh
  try dsimp only
  repeat' first
    | with_reducible assumption | intro _ | split | with_reducible refine Touch.upd ?_ ?_
    | (refine TouchB.mk (fun f nf => ?_) (Berth.memCanonical_same rfl rfl rfl); cases f <;> first | exact absurd (sub (by decide)) nf | exact True.intro | exact rfl)
    | dsimp only

theorem setDist_touch {fs : List Piece} {s0 : State} {h : BId} {n : BId} {d : Dist} {s : State} (sub : [.tray] ⊆ fs) (h0
    : Touch fs s0 s) : Touch fs s0 (setDist h n d s) := by
  unfold setDist
  try dsimp only
  repeat' first
    | with_reducible assumption | with_reducible refine State.updTray_touch (subOf (by decide) sub) ?_ | intro _
    | split | dsimp only

theorem setStartFail_touch {fs : List Piece} {s0 : State} {b : BId} {code : Nat} {s : State} (sub : [.sy] ⊆ fs) (h0
    : Touch fs s0 s) : Touch fs s0 (setStartFail b code s) := by
  unfold setStartFail
  try dsimp only
  repeat' first
    | with_reducible assumption | intro _ | split | with_reducible refine Touch.upd ?_ ?_
    | (refine TouchB.mk (fun f nf => ?_) (Berth.memCanonical_same rfl rfl rfl); cases f <;> first | exact absurd (sub (by decide)) nf | exact True.intro | exact rfl)
    | dsimp only

theorem chCmdEnd_touch {fs : List Piece} {s0 : State} {h : BId} {cmd : Nat} {result : Nat} {s : State} (sub : [.ch] ⊆ fs) (h0
    : Touch fs s0 s) : Touch fs s0 (chCmdEnd h cmd result s) := by
  unfold chCmdEnd
  try dsimp only
  repeat' first
    | with_reducible assumption | with_reducible refine updCh_touch (subOf (by decide) sub) ?_ | intro _ | split
    | dsimp only

theorem chartLoad_touch {fs : List Piece} {s0 : State} {h : BId} {s : State} (sub : [.sy, .ch] ⊆ fs) (h0 : Touch fs s0 s)
    : Touch fs s0 (chartLoad h s) := by
  unfold chartLoad
  try dsimp only
  repeat' first
    | with_reducible assumption | with_reducible refine setStartFail_touch (subOf (by decide) sub) ?_
    | with_reducible refine updCh_touch (subOf (by decide) sub) ?_ | with_reducible refine Touch.iter ?_ ?_
    | intro _ | split | dsimp only

theorem chartPassed_touch {fs : List Piece} {s0 : State} {h : BId} {slotB : Bool} {s : State} (sub : [.ch, .tray] ⊆ fs) (h0
    : Touch fs s0 s) : Touch fs s0 (chartPassed h slotB s) := by
  unfold chartPassed
  try dsimp only
  repeat' first
    | with_reducible assumption | with_reducible refine updCh_touch (subOf (by decide) sub) ?_
    | with_reducible refine State.updTray_touch (subOf (by decide) sub) ?_ | intro _ | split | dsimp only

theorem chartBothFail_touch {fs : List Piece} {s0 : State} {h : BId} {s : State}
    (sub : [.freeCtr, .sy, .ch, .dk, .tw, .us] ⊆ fs) (h0 : Touch fs s0 s) : Touch fs s0 (chartBothFail h s) := by
  unfold chartBothFail
  try dsimp only
  repeat' first
    | with_reducible assumption | with_reducible refine updCh_touch (subOf (by decide) sub) ?_
    | with_reducible refine setStartFail_touch (subOf (by decide) sub) ?_
    | with_reducible refine attn_touch (subOf (by decide) sub) ?_
    | with_reducible refine chCmdEnd_touch (subOf (by decide) sub) ?_ | with_reducible refine Touch.iter ?_ ?_
    | intro _ | split | dsimp only

theorem chartSlot_touch {fs : List Piece} {s0 : State} {h : BId} {slotB : Bool} {other : Bool} {rdErr : Bool} {s : State}
    (sub : [.out, .freeCtr, .sy, .rp, .ch, .log, .dk, .tw, .us, .tray] ⊆ fs) (h0 : Touch fs s0 s)
    : Touch fs s0 (chartSlot h slotB other rdErr s) := by
  unfold chartSlot
  try dsimp only
  repeat' first
    | with_reducible assumption | with_reducible refine dfuChartCut_touch (subOf (by decide) sub) ?_
    | with_reducible refine chartPassed_touch (subOf (by decide) sub) ?_
    | with_reducible refine updCh_touch (subOf (by decide) sub) ?_
    | with_reducible refine chartBothFail_touch (subOf (by decide) sub) ?_ | intro _ | split | dsimp only

theorem holdMoored_touch {fs : List Piece} {s0 : State} {h : BId} {n : BId} {cause : Nat} {s : State}
    (sub : [.freeCtr, .sy, .ch, .dk, .tw, .us, .tray] ⊆ fs) (h0 : Touch fs s0 s) : Touch fs s0 (holdMoored h n cause s) := by
  unfold holdMoored
  try dsimp only
  repeat' first
    | with_reducible assumption | with_reducible refine State.updTray_touch (subOf (by decide) sub) ?_
    | with_reducible refine setStartFail_touch (subOf (by decide) sub) ?_
    | with_reducible refine updCh_touch (subOf (by decide) sub) ?_
    | with_reducible refine chCmdEnd_touch (subOf (by decide) sub) ?_
    | with_reducible refine attn_touch (subOf (by decide) sub) ?_ | intro _ | split | dsimp only

theorem rereadNext_touch {fs : List Piece} {s0 : State} {h : BId} {s : State} (sub : [.ch] ⊆ fs) (h0 : Touch fs s0 s)
    : Touch fs s0 (rereadNext h s) := by
  unfold rereadNext
  try dsimp only
  repeat' first
    | with_reducible assumption | with_reducible refine updCh_touch (subOf (by decide) sub) ?_ | intro _ | split
    | dsimp only

theorem redistribute_touch {fs : List Piece} {s0 : State} {h : BId} {n : BId} {s : State} (sub : [.ch, .tray] ⊆ fs) (h0
    : Touch fs s0 s) : Touch fs s0 (redistribute h n s) := by
  unfold redistribute
  try dsimp only
  repeat' first
    | with_reducible assumption | with_reducible refine State.updTray_touch (subOf (by decide) sub) ?_
    | with_reducible refine setDist_touch (subOf (by decide) sub) ?_
    | with_reducible refine rereadNext_touch (subOf (by decide) sub) ?_ | intro _ | split | dsimp only

theorem reread_touch {fs : List Piece} {s0 : State} {h : BId} {n : BId} {slotB : Bool} {other : Bool} {rdErr : Bool}
    {s : State} (sub : [.freeCtr, .sy, .ch, .dk, .tw, .us, .tray] ⊆ fs) (h0 : Touch fs s0 s)
    : Touch fs s0 (reread h n slotB other rdErr s) := by
  unfold reread
  try dsimp only
  repeat' first
    | with_reducible assumption | with_reducible refine rereadNext_touch (subOf (by decide) sub) ?_
    | with_reducible refine updCh_touch (subOf (by decide) sub) ?_
    | with_reducible refine setDist_touch (subOf (by decide) sub) ?_
    | with_reducible refine holdMoored_touch (subOf (by decide) sub) ?_ | intro _ | split | dsimp only

theorem slotCheckDone_touch {fs : List Piece} {s0 : State} {h : BId} {unreadA : Bool} {unreadB : Bool} {rdErr : Bool}
    {s : State} (sub : [.out, .freeCtr, .sy, .rp, .ch, .log, .dk, .tw, .us, .tray] ⊆ fs) (h0 : Touch fs s0 s)
    : Touch fs s0 (slotCheckDone h unreadA unreadB rdErr s) := by
  unfold slotCheckDone
  try dsimp only
  repeat' first
    | with_reducible assumption | with_reducible refine flashFree_touch (subOf (by decide) sub) ?_
    | with_reducible refine chartSlot_touch (subOf (by decide) sub) ?_
    | with_reducible refine reread_touch (subOf (by decide) sub) ?_ | intro _ | split | dsimp only

theorem chartDistribute_touch {fs : List Piece} {s0 : State} {h : BId} {s : State} (sub : [.out, .rp, .tray] ⊆ fs) (h0
    : Touch fs s0 s) : Touch fs s0 (chartDistribute h s) := by
  unfold chartDistribute
  try dsimp only
  repeat' first
    | with_reducible assumption | with_reducible refine State.updTray_touch (subOf (by decide) sub) ?_
    | with_reducible refine ringSend_touch (subOf (by decide) sub) ?_ | with_reducible refine Touch.iter ?_ ?_
    | intro _ | split | dsimp only

theorem chartStream_touch {fs : List Piece} {s0 : State} {b : BId} {bs : List Byte} {s : State} (sub : [.out, .rp, .ch] ⊆ fs)
    (h0 : Touch fs s0 s) : Touch fs s0 (chartStream b bs s) := by
  unfold chartStream
  try dsimp only
  repeat' first
    | with_reducible assumption | with_reducible refine updCh_touch (subOf (by decide) sub) ?_
    | with_reducible refine ringSend_touch (subOf (by decide) sub) ?_ | intro _ | split | dsimp only

theorem berthSignature_touch {fs : List Piece} {s0 : State} {b : BId} {s : State} (sub : [.out, .rp, .ch] ⊆ fs) (h0
    : Touch fs s0 s) : Touch fs s0 (berthSignature b s) := by
  unfold berthSignature
  try dsimp only
  repeat' first
    | with_reducible assumption | with_reducible refine ringSend_touch (subOf (by decide) sub) ?_
    | with_reducible refine updCh_touch (subOf (by decide) sub) ?_ | intro _ | split | dsimp only

theorem attemptFails_touch {fs : List Piece} {s0 : State} {h : BId} {n : BId} {slotB : Bool} {cause : Nat} {s : State}
    (sub : [.freeCtr, .sy, .ch, .dk, .tw, .us, .tray] ⊆ fs) (h0 : Touch fs s0 s)
    : Touch fs s0 (attemptFails h n slotB cause s) := by
  unfold attemptFails
  try dsimp only
  repeat' first
    | with_reducible assumption | with_reducible refine holdMoored_touch (subOf (by decide) sub) ?_
    | with_reducible refine setDist_touch (subOf (by decide) sub) ?_ | intro _ | split | dsimp only

theorem chartAck_touch {fs : List Piece} {s0 : State} {h : BId} {n : BId} {a : ChartAck} {s : State}
    (sub : [.freeCtr, .sy, .ch, .dk, .tw, .us, .tray] ⊆ fs) (h0 : Touch fs s0 s) : Touch fs s0 (chartAck h n a s) := by
  unfold chartAck
  try dsimp only
  repeat' first
    | with_reducible assumption | with_reducible refine attemptFails_touch (subOf (by decide) sub) ?_
    | with_reducible refine setDist_touch (subOf (by decide) sub) ?_ | intro _ | split | dsimp only

theorem chartAckTimeout_touch {fs : List Piece} {s0 : State} {h : BId} {n : BId} {s : State}
    (sub : [.freeCtr, .sy, .ch, .dk, .tw, .us, .tray] ⊆ fs) (h0 : Touch fs s0 s) : Touch fs s0 (chartAckTimeout h n s) := by
  unfold chartAckTimeout
  try dsimp only
  repeat' first
    | with_reducible assumption | with_reducible refine attemptFails_touch (subOf (by decide) sub) ?_ | intro _
    | split | dsimp only

theorem lockFields_touchB {fs : List Piece} {b : BId} {x : Berth} (sub : [.td, .rl, .cl, .ar, .dk, .hw, .tw, .us, .pw] ⊆ fs)
    : TouchB fs x (lockFields b x) :=
  ⟨fun f nf => by cases f <;> first | exact absurd (sub (by decide)) nf | exact True.intro | exact rfl, Berth.memCanonical_same rfl rfl rfl⟩

theorem lockBerth_touch {fs : List Piece} {s0 : State} {h : BId} {b : BId} {s : State}
    (sub : [.out, .freeCtr, .sy, .rp, .td, .ch, .rl, .log, .pw, .hw, .cl, .dk, .tw, .us, .ar] ⊆ fs) (h0 : Touch fs s0 s)
    : Touch fs s0 (lockBerth h b s) := by
  unfold lockBerth
  try dsimp only
  repeat' first
    | with_reducible assumption | with_reducible exact lockFields_touchB (subOf (by decide) sub)
    | with_reducible refine updCh_touch (subOf (by decide) sub) ?_
    | with_reducible refine State.updCl_touch (subOf (by decide) sub) ?_
    | with_reducible refine logStart_touch (subOf (by decide) sub) ?_
    | with_reducible refine logServe_touch (subOf (by decide) sub) ?_
    | with_reducible refine kickStart_touch (subOf (by decide) sub) ?_
    | with_reducible refine ropeTell_touch (subOf (by decide) sub) ?_
    | with_reducible refine usbFollow_touch (subOf (by decide) sub) ?_ | with_reducible refine Touch.iter ?_ ?_
    | intro _ | split | with_reducible refine Touch.upd ?_ ?_
    | (refine TouchB.mk (fun f nf => ?_) (Berth.memCanonical_same rfl rfl rfl); cases f <;> first | exact absurd (sub (by decide)) nf | exact True.intro | exact rfl)
    | dsimp only

theorem lockHarbour_touch {fs : List Piece} {s0 : State} {h : BId} {bs : List BId} {s : State}
    (sub : [.td, .pw, .pl, .dk, .tw, .tray] ⊆ fs) (h0 : Touch fs s0 s) : Touch fs s0 (lockHarbour h bs s) := by
  unfold lockHarbour
  try dsimp only
  repeat' first
    | with_reducible assumption | with_reducible refine State.updTray_touch (subOf (by decide) sub) ?_
    | with_reducible refine startImages_touch (subOf (by decide) sub) ?_
    | with_reducible refine setQuotas_touch (subOf (by decide) sub) ?_ | with_reducible refine Touch.iter ?_ ?_
    | intro _ | split | with_reducible refine Touch.upd ?_ ?_
    | (refine TouchB.mk (fun f nf => ?_) (Berth.memCanonical_same rfl rfl rfl); cases f <;> first | exact absurd (sub (by decide)) nf | exact True.intro | exact rfl)
    | dsimp only

theorem lockLate_touch {fs : List Piece} {s0 : State} {h : BId} {b : BId} {s : State}
    (sub : [.out, .freeCtr, .sy, .rp, .td, .ch, .rl, .log, .pw, .hw, .cl, .pl, .dk, .tw, .us, .ar] ⊆ fs) (h0 : Touch fs s0 s)
    : Touch fs s0 (lockLate h b s) := by
  unfold lockLate
  try dsimp only
  repeat' first
    | with_reducible assumption | with_reducible refine lockBerth_touch (subOf (by decide) sub) ?_
    | with_reducible refine setQuotas_touch (subOf (by decide) sub) ?_
    | with_reducible refine State.updPl_touch (subOf (by decide) sub) ?_
    | with_reducible refine imageOn_touch (subOf (by decide) sub) ?_
    | with_reducible refine chCmdEnd_touch (subOf (by decide) sub) ?_ | with_reducible refine Touch.iter ?_ ?_
    | intro _ | split | with_reducible refine Touch.upd ?_ ?_
    | (refine TouchB.mk (fun f nf => ?_) (Berth.memCanonical_same rfl rfl rfl); cases f <;> first | exact absurd (sub (by decide)) nf | exact True.intro | exact rfl)
    | dsimp only

theorem chartLock_touch {fs : List Piece} {s0 : State} {h : BId} {s : State}
    (sub : [.out, .freeCtr, .sy, .rp, .td, .ch, .rl, .log, .pw, .hw, .cl, .pl, .dk, .tw, .us, .ar, .tray] ⊆ fs) (h0
    : Touch fs s0 s) : Touch fs s0 (chartLock h s) := by
  unfold chartLock
  try dsimp only
  repeat' first
    | with_reducible assumption | with_reducible refine lockLate_touch (subOf (by decide) sub) ?_
    | with_reducible refine lockBerth_touch (subOf (by decide) sub) ?_
    | with_reducible refine chCmdEnd_touch (subOf (by decide) sub) ?_
    | with_reducible refine lockHarbour_touch (subOf (by decide) sub) ?_ | with_reducible refine Touch.iter ?_ ?_
    | intro _ | split | dsimp only

theorem fuseNext_touch {fs : List Piece} {s0 : State} {h : BId} {j : FuseJob} {s : State} (sub : [.ch] ⊆ fs) (h0
    : Touch fs s0 s) : Touch fs s0 (fuseNext h j s) := by
  unfold fuseNext
  try dsimp only
  repeat' first
    | with_reducible assumption | with_reducible refine updCh_touch (subOf (by decide) sub) ?_
    | with_reducible refine chCmdEnd_touch (subOf (by decide) sub) ?_ | intro _ | split | dsimp only

theorem burn_touch {fs : List Piece} {s0 : State} {j : FuseJob} {b : BId} {s : State} (sub : [.ch] ⊆ fs) (h0 : Touch fs s0 s)
    : Touch fs s0 (burn j b s) := by
  unfold burn
  try dsimp only
  repeat' first
    | with_reducible assumption | with_reducible refine updCh_touch (subOf (by decide) sub) ?_ | intro _ | split
    | dsimp only

theorem fuseBurnDone_touch {fs : List Piece} {s0 : State} {h : BId} {ok : Bool} {s : State} (sub : [.ch] ⊆ fs) (h0
    : Touch fs s0 s) : Touch fs s0 (fuseBurnDone h ok s) := by
  unfold fuseBurnDone
  try dsimp only
  repeat' first
    | with_reducible assumption | with_reducible refine fuseNext_touch (subOf (by decide) sub) ?_
    | with_reducible refine burn_touch (subOf (by decide) sub) ?_
    | with_reducible refine updCh_touch (subOf (by decide) sub) ?_ | intro _ | split | dsimp only

theorem chAct_touch {fs : List Piece} {s0 : State} {h : BId} {cmd : Nat} {arg : Nat} {s : State}
    (sub : [.sy, .ch, .tray] ⊆ fs) (h0 : Touch fs s0 s) : Touch fs s0 (chAct h cmd arg s) := by
  unfold chAct
  try dsimp only
  repeat' first
    | with_reducible assumption | with_reducible refine chartLoad_touch (subOf (by decide) sub) ?_
    | with_reducible refine chCmdEnd_touch (subOf (by decide) sub) ?_
    | with_reducible refine updCh_touch (subOf (by decide) sub) ?_
    | with_reducible refine redistribute_touch (subOf (by decide) sub) ?_
    | with_reducible refine fuseNext_touch (subOf (by decide) sub) ?_ | intro _ | split | dsimp only

theorem chCmd_touch {fs : List Piece} {s0 : State} {cmd : Nat} {req : ReqId} {arg : Nat} {guard : Nat} {s : State}
    (sub : [.sy, .ch, .tray] ⊆ fs) (h0 : Touch fs s0 s) : Touch fs s0 (chCmd cmd req arg guard s) := by
  unfold chCmd
  try dsimp only
  repeat' first
    | with_reducible assumption | with_reducible refine updCh_touch (subOf (by decide) sub) ?_
    | with_reducible refine chAct_touch (subOf (by decide) sub) ?_ | intro _ | split | dsimp only

theorem chartTakeover_touch {fs : List Piece} {s0 : State} {old : BId} {h : BId} {s : State} (sub : [.ch, .tray] ⊆ fs) (h0
    : Touch fs s0 s) : Touch fs s0 (chartTakeover old h s) := by
  unfold chartTakeover
  try dsimp only
  repeat' first
    | with_reducible assumption | with_reducible refine updCh_touch (subOf (by decide) sub) ?_
    | with_reducible refine State.updTray_touch (subOf (by decide) sub) ?_
    | with_reducible refine rereadNext_touch (subOf (by decide) sub) ?_
    | with_reducible refine setDist_touch (subOf (by decide) sub) ?_ | intro _ | split | dsimp only
end Sys2Proof.Machine
end

