-- ==== Sys2Proof/Laws/Touch/TwPort.lean ====
section
/-! SUPPORT. What each operation of Machine/TwPort.lean can touch. -/
set_option linter.unusedTactic false
set_option linter.unreachableTactic false
namespace Sys2Proof.Machine

theorem updTw_touch {fs : List Piece} {s0 : State} {b : BId} {f : Tw → Tw} {s : State} (sub : [.tw] ⊆ fs) (h0 : Touch fs s0 s)
    : Touch fs s0 (updTw b f s) := by
  unfold updTw
  try dsimp only
  repeat' first
    | with_reducible assumption | intro _ | split | with_reducible refine Touch.upd ?_ ?_
    | (refine TouchB.mk (fun f nf => ?_) (Berth.memCanonical_same rfl rfl rfl); cases f <;> first | exact absurd (sub (by decide)) nf | exact True.intro | exact rfl)
    | dsimp only

theorem twCount_touch {fs : List Piece} {s0 : State} {b : BId} {f : TwCnt → TwCnt} {s : State} (sub : [.tw] ⊆ fs) (h0
    : Touch fs s0 s) : Touch fs s0 (twCount b f s) := by
  unfold twCount
  try dsimp only
  repeat' first
    | with_reducible assumption | with_reducible refine updTw_touch (subOf (by decide) sub) ?_ | intro _ | split
    | dsimp only

theorem logTw_touch {fs : List Piece} {s0 : State} {b : BId} {kind : Nat} {sda : Bool} {events : Nat} {ms : Nat} {data : Nat}
    {s : State} (sub : [.out, .freeCtr, .rp, .log, .dk, .us] ⊆ fs) (h0 : Touch fs s0 s)
    : Touch fs s0 (logTw b kind sda events ms data s) := by
  unfold logTw
  try dsimp only
  repeat' first
    | with_reducible assumption | with_reducible refine logRec_touch (subOf (by decide) sub) ?_ | intro _ | split
    | dsimp only

theorem beacon_touch {fs : List Piece} {s0 : State} {b : BId} {s : State} (sub : [.tw] ⊆ fs) (h0 : Touch fs s0 s)
    : Touch fs s0 (beacon b s) := by
  unfold beacon
  try dsimp only
  repeat' first
    | with_reducible assumption | with_reducible refine updTw_touch (subOf (by decide) sub) ?_ | intro _ | split
    | dsimp only

theorem beaconEnd_touch {fs : List Piece} {s0 : State} {b : BId} {s : State} (sub : [.tw] ⊆ fs) (h0 : Touch fs s0 s)
    : Touch fs s0 (beaconEnd b s) := by
  unfold beaconEnd
  try dsimp only
  repeat' first
    | with_reducible assumption | with_reducible refine updTw_touch (subOf (by decide) sub) ?_ | intro _ | split
    | dsimp only

theorem beaconCut_touch {fs : List Piece} {s0 : State} {b : BId} {s : State} (sub : [.tw] ⊆ fs) (h0 : Touch fs s0 s)
    : Touch fs s0 (beaconCut b s) := by
  unfold beaconCut
  try dsimp only
  repeat' first
    | with_reducible assumption | with_reducible refine updTw_touch (subOf (by decide) sub) ?_ | intro _ | split
    | dsimp only

theorem beaconRepeat_touch {fs : List Piece} {s0 : State} {b : BId} {s : State} (sub : [.tw] ⊆ fs) (h0 : Touch fs s0 s)
    : Touch fs s0 (beaconRepeat b s) := by
  unfold beaconRepeat
  try dsimp only
  repeat' first
    | with_reducible assumption | with_reducible refine updTw_touch (subOf (by decide) sub) ?_ | intro _ | split
    | dsimp only

theorem arbEdge_touch {fs : List Piece} {s0 : State} {b : BId} {data : Nat} {s : State}
    (sub : [.out, .freeCtr, .rp, .log, .dk, .tw, .us] ⊆ fs) (h0 : Touch fs s0 s) : Touch fs s0 (arbEdge b data s) := by
  unfold arbEdge
  try dsimp only
  repeat' first
    | with_reducible assumption | with_reducible refine updTw_touch (subOf (by decide) sub) ?_
    | with_reducible refine logTw_touch (subOf (by decide) sub) ?_
    | with_reducible refine notice_touch (subOf (by decide) sub) ?_ | intro _ | split | dsimp only

theorem hostNotify_touch {fs : List Piece} {s0 : State} {b : BId} {e_ : NotifyEnd} {s : State}
    (sub : [.out, .freeCtr, .rp, .log, .dk, .tw, .us] ⊆ fs) (h0 : Touch fs s0 s) : Touch fs s0 (hostNotify b e_ s) := by
  unfold hostNotify
  try dsimp only
  repeat' first
    | with_reducible assumption | with_reducible refine State.emit_touch (subOf (by decide) sub) ?_
    | with_reducible refine updTw_touch (subOf (by decide) sub) ?_
    | with_reducible refine twCount_touch (subOf (by decide) sub) ?_
    | with_reducible refine arbEdge_touch (subOf (by decide) sub) ?_ | intro _ | split | dsimp only

theorem notifyRetry_touch {fs : List Piece} {s0 : State} {b : BId} {s : State} (sub : [.tw] ⊆ fs) (h0 : Touch fs s0 s)
    : Touch fs s0 (notifyRetry b s) := by
  unfold notifyRetry
  try dsimp only
  repeat' first
    | with_reducible assumption | with_reducible refine updTw_touch (subOf (by decide) sub) ?_ | intro _ | split
    | dsimp only

theorem backoffEnd_touch {fs : List Piece} {s0 : State} {b : BId} {s : State} (sub : [.tw] ⊆ fs) (h0 : Touch fs s0 s)
    : Touch fs s0 (backoffEnd b s) := by
  unfold backoffEnd
  try dsimp only
  repeat' first
    | with_reducible assumption | with_reducible refine updTw_touch (subOf (by decide) sub) ?_ | intro _ | split
    | dsimp only

theorem addressMatch_touch {fs : List Piece} {s0 : State} {b : BId} {s : State} (sub : [.out, .tw] ⊆ fs) (h0 : Touch fs s0 s)
    : Touch fs s0 (addressMatch b s) := by
  unfold addressMatch
  try dsimp only
  repeat' first
    | with_reducible assumption | with_reducible refine updTw_touch (subOf (by decide) sub) ?_
    | with_reducible refine State.emit_touch (subOf (by decide) sub) ?_ | intro _ | split | dsimp only

theorem stretchTimeout_touch {fs : List Piece} {s0 : State} {b : BId} {s : State}
    (sub : [.out, .freeCtr, .rp, .log, .dk, .tw, .us] ⊆ fs) (h0 : Touch fs s0 s) : Touch fs s0 (stretchTimeout b s) := by
  unfold stretchTimeout
  try dsimp only
  repeat' first
    | with_reducible assumption | with_reducible refine updTw_touch (subOf (by decide) sub) ?_
    | with_reducible refine State.emit_touch (subOf (by decide) sub) ?_
    | with_reducible refine logTw_touch (subOf (by decide) sub) ?_ | intro _ | split | dsimp only

theorem busHang_touch {fs : List Piece} {s0 : State} {b : BId} {sda : Bool} {ms : Nat} {s : State}
    (sub : [.out, .freeCtr, .rp, .log, .dk, .tw, .us] ⊆ fs) (h0 : Touch fs s0 s) : Touch fs s0 (busHang b sda ms s) := by
  unfold busHang
  try dsimp only
  repeat' first
    | with_reducible assumption | with_reducible refine logTw_touch (subOf (by decide) sub) ?_
    | with_reducible refine twCount_touch (subOf (by decide) sub) ?_ | intro _ | split | dsimp only

theorem twAttnSet_touch {fs : List Piece} {s0 : State} {req : ReqId} {fw : Bool} {s : State}
    (sub : [.freeCtr, .dk, .tw, .us] ⊆ fs) (h0 : Touch fs s0 s) : Touch fs s0 (twAttnSet req fw s) := by
  unfold twAttnSet
  try dsimp only
  repeat' first
    | with_reducible assumption | with_reducible refine attnAt_touch (subOf (by decide) sub) ?_ | intro _ | split
    | dsimp only
end Sys2Proof.Machine
end

