-- ==== Sys2Proof/Laws/Touch/Tide.lean ====
section
/-! SUPPORT. What each operation of Machine/Tide.lean can touch. -/
set_option linter.unusedTactic false
set_option linter.unreachableTactic false
namespace Sys2Proof.Machine

theorem updTd_touch {fs : List Piece} {s0 : State} {b : BId} {f : Td → Td} {s : State} (sub : [.td] ⊆ fs) (h0 : Touch fs s0 s)
    : Touch fs s0 (updTd b f s) := by
  unfold updTd
  try dsimp only
  repeat' first
    | with_reducible assumption | intro _ | split | with_reducible refine Touch.upd ?_ ?_
    | (refine TouchB.mk (fun f nf => ?_) (Berth.memCanonical_same rfl rfl rfl); cases f <;> first | exact absurd (sub (by decide)) nf | exact True.intro | exact rfl)
    | dsimp only

theorem tideStart_touch {fs : List Piece} {s0 : State} {b : BId} {s : State} (sub : [.td] ⊆ fs) (h0 : Touch fs s0 s)
    : Touch fs s0 (tideStart b s) := by
  unfold tideStart
  try dsimp only
  repeat' first
    | with_reducible assumption | with_reducible refine updTd_touch (subOf (by decide) sub) ?_ | intro _ | split
    | dsimp only

theorem loopLoss_touch {fs : List Piece} {s0 : State} {b : BId} {s : State} (sub : [.out, .rp, .td] ⊆ fs) (h0 : Touch fs s0 s)
    : Touch fs s0 (loopLoss b s) := by
  unfold loopLoss
  try dsimp only
  repeat' first
    | with_reducible assumption | with_reducible refine updTd_touch (subOf (by decide) sub) ?_
    | with_reducible refine notice_touch (subOf (by decide) sub) ?_ | intro _ | split | dsimp only

theorem loopEdge_touch {fs : List Piece} {s0 : State} {b : BId} {at0 : Nat} {s : State} (sub : [.td] ⊆ fs) (h0
    : Touch fs s0 s) : Touch fs s0 (loopEdge b at0 s) := by
  unfold loopEdge
  try dsimp only
  repeat' first
    | with_reducible assumption | with_reducible refine updTd_touch (subOf (by decide) sub) ?_ | intro _ | split
    | dsimp only

theorem tideTransition_touch {fs : List Piece} {s0 : State} {b : BId} {high : Bool} {s : State} (sub : [.td] ⊆ fs) (h0
    : Touch fs s0 s) : Touch fs s0 (tideTransition b high s) := by
  unfold tideTransition
  try dsimp only
  repeat' first
    | with_reducible assumption | with_reducible refine updTd_touch (subOf (by decide) sub) ?_ | intro _ | split
    | dsimp only

theorem tideCandidate_touch {fs : List Piece} {s0 : State} {b : BId} {s : State} (sub : [.out, .rp, .td] ⊆ fs) (h0
    : Touch fs s0 s) : Touch fs s0 (tideCandidate b s) := by
  unfold tideCandidate
  try dsimp only
  repeat' first
    | with_reducible assumption | with_reducible refine updTd_touch (subOf (by decide) sub) ?_
    | with_reducible refine loopEdge_touch (subOf (by decide) sub) ?_
    | with_reducible refine loopLoss_touch (subOf (by decide) sub) ?_ | intro _ | split | dsimp only

theorem tideMiss_touch {fs : List Piece} {s0 : State} {b : BId} {s : State} (sub : [.out, .rp, .td] ⊆ fs) (h0 : Touch fs s0 s)
    : Touch fs s0 (tideMiss b s) := by
  unfold tideMiss
  try dsimp only
  repeat' first
    | with_reducible assumption | with_reducible refine loopLoss_touch (subOf (by decide) sub) ?_
    | with_reducible refine updTd_touch (subOf (by decide) sub) ?_ | intro _ | split | dsimp only

theorem holdExpiry_touch {fs : List Piece} {s0 : State} {b : BId} {s : State} (sub : [.td] ⊆ fs) (h0 : Touch fs s0 s)
    : Touch fs s0 (holdExpiry b s) := by
  unfold holdExpiry
  try dsimp only
  repeat' first
    | with_reducible assumption | with_reducible refine updTd_touch (subOf (by decide) sub) ?_ | intro _ | split
    | dsimp only

theorem resyncCount_touch {fs : List Piece} {s0 : State} {b : BId} {s : State} (sub : [.td] ⊆ fs) (h0 : Touch fs s0 s)
    : Touch fs s0 (resyncCount b s).2.2 := by
  unfold resyncCount
  try dsimp only
  repeat' first
    | with_reducible assumption | with_reducible refine updTd_touch (subOf (by decide) sub) ?_ | intro _ | split
    | dsimp only

theorem resyncCount_touch_eq {fs : List Piece} {s0 : State} {b : BId} {s : State} {r0 r1} {t : State} (sub : [.td] ⊆ fs)
    (eq_ : resyncCount b s = (r0, r1, t)) (h0 : Touch fs s0 s) : Touch fs s0 t := by
  have := @resyncCount_touch fs s0 b s sub  h0
  rw [eq_] at this; exact this
end Sys2Proof.Machine
end

