-- ==== Sys2Proof/Laws/Touch/Ring.lean ====
section
/-! SUPPORT. What each operation of Machine/Ring.lean can touch. -/
set_option linter.unusedTactic false
set_option linter.unreachableTactic false
namespace Sys2Proof.Machine

theorem updSy_touch {fs : List Piece} {s0 : State} {b : BId} {f : Sy → Sy} {s : State} (sub : [.sy] ⊆ fs) (h0 : Touch fs s0 s)
    : Touch fs s0 (updSy b f s) := by
  unfold updSy
  try dsimp only
  repeat' first
    | with_reducible assumption | intro _ | split | with_reducible refine Touch.upd ?_ ?_
    | (refine TouchB.mk (fun f nf => ?_) (Berth.memCanonical_same rfl rfl rfl); cases f <;> first | exact absurd (sub (by decide)) nf | exact True.intro | exact rfl)
    | dsimp only

theorem updDev_touch {fs : List Piece} {s0 : State} {f : Dev → Dev} {s : State} (sub : [.dev] ⊆ fs) (h0 : Touch fs s0 s)
    : Touch fs s0 (updDev f s) := by
  unfold updDev
  try dsimp only
  repeat' first
    | with_reducible assumption | intro _ | split
    | (refine Touch.frame (by with_reducible assumption) ?_ ?_ ?_ ?_ ?_ <;> first | with_reducible rfl | (intro nf; first | with_reducible rfl | exact absurd (sub (by decide)) nf))
    | dsimp only

theorem hlRetire_touch {fs : List Piece} {s0 : State} {h : BId} {n : BId} {kind : Nat} {index : Nat} {rule : Nat}
    {events : Nat} {s : State} (sub : [.out, .freeCtr, .rp, .log, .dk, .tw, .us, .tray] ⊆ fs) (h0 : Touch fs s0 s)
    : Touch fs s0 (hlRetire h n kind index rule events s) := by
  unfold hlRetire
  try dsimp only
  repeat' first
    | with_reducible assumption | with_reducible refine State.updTray_touch (subOf (by decide) sub) ?_
    | with_reducible refine logRec_touch (subOf (by decide) sub) ?_
    | with_reducible refine attnAt_touch (subOf (by decide) sub) ?_ | intro _ | split | dsimp only

theorem relay_touch {fs : List Piece} {s0 : State} {b : BId} {f : Option Flit} {s : State} (sub : [.rp] ⊆ fs) (h0
    : Touch fs s0 s) : Touch fs s0 (relay b f s) := by
  unfold relay
  try dsimp only
  repeat' first
    | with_reducible assumption | with_reducible refine sendFlits_touch (subOf (by decide) sub) ?_ | intro _
    | split | dsimp only

theorem flitReceive_touch {fs : List Piece} {s0 : State} {b : BId} {p : Nat} {seq : Nat} {crcOk : Bool} {s : State}
    (sub : [.out, .sy, .rp] ⊆ fs) (h0 : Touch fs s0 s) : Touch fs s0 (flitReceive b p seq crcOk s) := by
  unfold flitReceive
  try dsimp only
  repeat' first
    | with_reducible assumption | with_reducible refine relay_touch (subOf (by decide) sub) ?_
    | with_reducible refine updSy_touch (subOf (by decide) sub) ?_
    | with_reducible refine updPort_touch (subOf (by decide) sub) ?_
    | with_reducible refine State.emit_touch (subOf (by decide) sub) ?_ | intro _ | split | dsimp only

theorem replayRequest_touch {fs : List Piece} {s0 : State} {b : BId} {p : Nat} {seq : Nat} {s : State}
    (sub : [.out, .sy, .rp] ⊆ fs) (h0 : Touch fs s0 s) : Touch fs s0 (replayRequest b p seq s) := by
  unfold replayRequest
  try dsimp only
  repeat' first
    | with_reducible assumption | with_reducible refine updSy_touch (subOf (by decide) sub) ?_
    | with_reducible refine State.emit_touch (subOf (by decide) sub) ?_
    | with_reducible refine updPort_touch (subOf (by decide) sub) ?_
    | with_reducible refine notice_touch (subOf (by decide) sub) ?_ | intro _ | split | dsimp only

theorem portTrained_touch {fs : List Piece} {s0 : State} {b : BId} {p : Nat} {s : State} (sub : [.rp] ⊆ fs) (h0
    : Touch fs s0 s) : Touch fs s0 (portTrained b p s) := by
  unfold portTrained
  try dsimp only
  repeat' first
    | with_reducible assumption | with_reducible refine updPort_touch (subOf (by decide) sub) ?_ | intro _ | split
    | dsimp only

theorem portsJoin_touch {fs : List Piece} {s0 : State} {b : BId} {s : State} (sub : [.dev, .rp] ⊆ fs) (h0 : Touch fs s0 s)
    : Touch fs s0 (portsJoin b s) := by
  unfold portsJoin
  try dsimp only
  repeat' first
    | with_reducible assumption | with_reducible refine updRp_touch (subOf (by decide) sub) ?_
    | with_reducible refine updDev_touch (subOf (by decide) sub) ?_ | intro _ | split | dsimp only

theorem sendTide_touch {fs : List Piece} {s0 : State} {h : BId} {s : State} (sub : [.out, .rp, .td] ⊆ fs) (h0 : Touch fs s0 s)
    : Touch fs s0 (sendTide h s) := by
  unfold sendTide
  try dsimp only
  repeat' first
    | with_reducible assumption | with_reducible refine updTd_touch (subOf (by decide) sub) ?_
    | with_reducible refine ringSend_touch (subOf (by decide) sub) ?_ | with_reducible refine Touch.foldl ?_ ?_
    | with_reducible refine Touch.foldl2 ?_ ?_ | intro _ | split | dsimp only

theorem chordResend_touch {fs : List Piece} {s0 : State} {n : BId} {s : State} (sub : [.out, .sy, .rp] ⊆ fs) (h0
    : Touch fs s0 s) : Touch fs s0 (chordResend n s) := by
  unfold chordResend
  try dsimp only
  repeat' first
    | with_reducible assumption | with_reducible refine updPort_touch (subOf (by decide) sub) ?_
    | with_reducible refine State.emit_touch (subOf (by decide) sub) ?_
    | with_reducible refine updSy_touch (subOf (by decide) sub) ?_ | with_reducible refine Touch.iter ?_ ?_
    | intro _ | split | dsimp only

theorem clockLoss_touch {fs : List Piece} {s0 : State} {b : BId} {edges : Nat} {s : State} (sub : [.sy] ⊆ fs) (h0
    : Touch fs s0 s) : Touch fs s0 (clockLoss b edges s) := by
  unfold clockLoss
  try dsimp only
  repeat' first
    | with_reducible assumption | with_reducible refine updSy_touch (subOf (by decide) sub) ?_ | intro _ | split
    | dsimp only

theorem switchDone_touch {fs : List Piece} {s0 : State} {b : BId} {s : State} (sub : [.out, .sy, .rp] ⊆ fs) (h0
    : Touch fs s0 s) : Touch fs s0 (switchDone b s) := by
  unfold switchDone
  try dsimp only
  repeat' first
    | with_reducible assumption | with_reducible refine ringRelease_touch (subOf (by decide) sub) ?_
    | with_reducible refine updSy_touch (subOf (by decide) sub) ?_ | intro _ | split | dsimp only

theorem standbySource_touch {fs : List Piece} {s0 : State} {b : BId} {s : State} (sub : [.out, .sy, .rp] ⊆ fs) (h0
    : Touch fs s0 s) : Touch fs s0 (standbySource b s) := by
  unfold standbySource
  try dsimp only
  repeat' first
    | with_reducible assumption | with_reducible refine ringRelease_touch (subOf (by decide) sub) ?_
    | with_reducible refine updSy_touch (subOf (by decide) sub) ?_ | intro _ | split
    | with_reducible refine Touch.updAll ?_ ?_
    | (refine TouchB.mk (fun f nf => ?_) (Berth.memCanonical_same rfl rfl rfl); cases f <;> first | exact absurd (sub (by decide)) nf | exact True.intro | exact rfl)
    | dsimp only

theorem clockBypass_touch {fs : List Piece} {s0 : State} {n : BId} {s : State} (sub : [.sy] ⊆ fs) (h0 : Touch fs s0 s)
    : Touch fs s0 (clockBypass n s) := by
  unfold clockBypass
  try dsimp only
  repeat' first
    | with_reducible assumption | with_reducible refine updSy_touch (subOf (by decide) sub) ?_
    | with_reducible refine Touch.iter ?_ ?_ | intro _ | split | dsimp only

theorem inertOutputs_touch {fs : List Piece} {s0 : State} {b : BId} {s : State} (sub : [.out, .rp, .rl, .pw, .cl] ⊆ fs) (h0
    : Touch fs s0 s) : Touch fs s0 (inertOutputs b s) := by
  unfold inertOutputs
  try dsimp only
  repeat' first
    | with_reducible assumption | with_reducible refine slotInert_touch (subOf (by decide) sub) ?_
    | with_reducible refine State.updRl_touch (subOf (by decide) sub) ?_
    | with_reducible refine zoneUpdate_touch (subOf (by decide) sub) ?_
    | with_reducible refine State.updCl_touch (subOf (by decide) sub) ?_ | intro _ | split | dsimp only

theorem leaveRing_touch {fs : List Piece} {s0 : State} {n : BId} {s : State} (sub : [.out, .dev, .sy, .rp, .dk] ⊆ fs) (h0
    : Touch fs s0 s) : Touch fs s0 (leaveRing n s) := by
  unfold leaveRing
  try dsimp only
  repeat' first
    | with_reducible assumption | with_reducible refine updDev_touch (subOf (by decide) sub) ?_
    | with_reducible refine deckLeave_touch (subOf (by decide) sub) ?_
    | with_reducible refine clockBypass_touch (subOf (by decide) sub) ?_
    | with_reducible refine chordResend_touch (subOf (by decide) sub) ?_ | intro _ | split | dsimp only

theorem enginesEnd_touch {fs : List Piece} {s0 : State} {b : BId} {s : State}
    (sub : [.out, .freeCtr, .sy, .rp, .rl, .log, .pw, .hw, .cl, .pl, .dk, .tw, .us, .ar, .pg, .tray, .deck] ⊆ fs) (h0
    : Touch fs s0 s) : Touch fs s0 (enginesEnd b s) := by
  unfold enginesEnd
  try dsimp only
  repeat' first
    | with_reducible assumption | with_reducible refine afterArray_touch (subOf (by decide) sub) ?_
    | with_reducible refine arLeave_touch (subOf (by decide) sub) ?_ | intro _ | split | dsimp only

theorem retired_touch {fs : List Piece} {s0 : State} {b : BId} {s : State}
    (sub : [.out, .freeCtr, .sy, .rp, .rl, .log, .pw, .hw, .cl, .pl, .dk, .tw, .us, .ar, .pg, .tray, .deck] ⊆ fs) (h0
    : Touch fs s0 s) : Touch fs s0 (retired b s) := by
  unfold retired
  try dsimp only
  repeat' first
    | with_reducible assumption | with_reducible refine enginesEnd_touch (subOf (by decide) sub) ?_
    | with_reducible refine inertOutputs_touch (subOf (by decide) sub) ?_
    | with_reducible refine updSy_touch (subOf (by decide) sub) ?_
    | with_reducible refine updRp_touch (subOf (by decide) sub) ?_ | intro _ | split | dsimp only

theorem harbourRetire_touch {fs : List Piece} {s0 : State} {h : BId} {n : BId} {rule : Nat} {events : Nat} {s : State}
    (sub : [.out, .freeCtr, .rp, .log, .dk, .tw, .us, .tray] ⊆ fs) (h0 : Touch fs s0 s)
    : Touch fs s0 (harbourRetire h n rule events s) := by
  unfold harbourRetire
  try dsimp only
  repeat' first
    | with_reducible assumption | with_reducible refine ringSend_touch (subOf (by decide) sub) ?_
    | with_reducible refine hlRetire_touch (subOf (by decide) sub) ?_ | intro _ | split | dsimp only

theorem retireOrder_touch {fs : List Piece} {s0 : State} {b : BId} {s : State}
    (sub : [.out, .freeCtr, .sy, .rp, .rl, .log, .pw, .hw, .svc, .cl, .pl, .dk, .dm, .tw, .us, .tray, .tcm, .deck] ⊆ fs) (h0
    : Touch fs s0 s) : Touch fs s0 (retireOrder b s) := by
  unfold retireOrder
  try dsimp only
  repeat' first
    | with_reducible assumption | with_reducible refine shutdown_touch (subOf (by decide) sub) ?_
    | with_reducible refine updSy_touch (subOf (by decide) sub) ?_ | intro _ | split | dsimp only

theorem sendBypass_touch {fs : List Piece} {s0 : State} {b : BId} {s : State} (sub : [.out, .sy, .rp] ⊆ fs) (h0
    : Touch fs s0 s) : Touch fs s0 (sendBypass b s) := by
  unfold sendBypass
  try dsimp only
  repeat' first
    | with_reducible assumption | with_reducible refine ringSend_touch (subOf (by decide) sub) ?_
    | with_reducible refine updSy_touch (subOf (by decide) sub) ?_ | intro _ | split | dsimp only

theorem bypassNotice_touch {fs : List Piece} {s0 : State} {b : BId} {s : State}
    (sub : [.out, .freeCtr, .sy, .rp, .rl, .log, .pw, .hw, .cl, .pl, .dk, .tw, .us, .ar, .pg, .tray, .deck] ⊆ fs) (h0
    : Touch fs s0 s) : Touch fs s0 (bypassNotice b s) := by
  unfold bypassNotice
  try dsimp only
  repeat' first
    | with_reducible assumption | with_reducible refine sendBypass_touch (subOf (by decide) sub) ?_
    | with_reducible refine retired_touch (subOf (by decide) sub) ?_ | intro _ | split | dsimp only

theorem boundExpiry_touch {fs : List Piece} {s0 : State} {b : BId} {s : State}
    (sub : [.out, .freeCtr, .sy, .rp, .rl, .log, .pw, .hw, .cl, .pl, .dk, .tw, .us, .ar, .pg, .tray, .deck] ⊆ fs) (h0
    : Touch fs s0 s) : Touch fs s0 (boundExpiry b s) := by
  unfold boundExpiry
  try dsimp only
  repeat' first
    | with_reducible assumption | with_reducible refine State.updRl_touch (subOf (by decide) sub) ?_
    | with_reducible refine bypassNotice_touch (subOf (by decide) sub) ?_
    | with_reducible refine inertOutputs_touch (subOf (by decide) sub) ?_
    | with_reducible refine shutdownEnd_touch (subOf (by decide) sub) ?_ | intro _ | split | dsimp only

theorem bypassSwitch_touch {fs : List Piece} {s0 : State} {b : BId} {s : State}
    (sub : [.out, .freeCtr, .dev, .sy, .rp, .rl, .log, .pw, .hw, .cl, .pl, .dk, .tw, .us, .ar, .pg, .tray, .deck] ⊆ fs) (h0
    : Touch fs s0 s) : Touch fs s0 (bypassSwitch b s) := by
  unfold bypassSwitch
  try dsimp only
  repeat' first
    | with_reducible assumption | with_reducible refine retired_touch (subOf (by decide) sub) ?_
    | with_reducible refine leaveRing_touch (subOf (by decide) sub) ?_ | intro _ | split | dsimp only

theorem silentDetect_touch {fs : List Piece} {s0 : State} {b : BId} {n : BId} {s : State} (sub : [.out, .sy, .rp] ⊆ fs) (h0
    : Touch fs s0 s) : Touch fs s0 (silentDetect b n s) := by
  unfold silentDetect
  try dsimp only
  repeat' first
    | with_reducible assumption | with_reducible refine ringSend_touch (subOf (by decide) sub) ?_
    | with_reducible refine updSy_touch (subOf (by decide) sub) ?_ | intro _ | split | dsimp only

theorem retireSilent_touch {fs : List Piece} {s0 : State} {h : BId} {n : BId} {s : State}
    (sub : [.out, .freeCtr, .dev, .sy, .rp, .log, .dk, .tw, .us, .tray] ⊆ fs) (h0 : Touch fs s0 s)
    : Touch fs s0 (retireSilent h n s) := by
  unfold retireSilent
  try dsimp only
  repeat' first
    | with_reducible assumption | with_reducible refine leaveRing_touch (subOf (by decide) sub) ?_
    | with_reducible refine harbourRetire_touch (subOf (by decide) sub) ?_ | intro _ | split | dsimp only

theorem silentReport_touch {fs : List Piece} {s0 : State} {h : BId} {n : BId} {s : State}
    (sub : [.out, .freeCtr, .dev, .sy, .rp, .log, .dk, .tw, .us, .tray] ⊆ fs) (h0 : Touch fs s0 s)
    : Touch fs s0 (silentReport h n s) := by
  unfold silentReport
  try dsimp only
  repeat' first
    | with_reducible assumption | with_reducible refine retireSilent_touch (subOf (by decide) sub) ?_
    | with_reducible refine updSy_touch (subOf (by decide) sub) ?_ | intro _ | split | dsimp only

theorem portsInert_touch {fs : List Piece} {s0 : State} {b : BId} {s : State}
    (sub : [.out, .freeCtr, .sy, .rp, .log, .dk, .tw, .us] ⊆ fs) (h0 : Touch fs s0 s) : Touch fs s0 (portsInert b s) := by
  unfold portsInert
  try dsimp only
  repeat' first
    | with_reducible assumption | with_reducible refine usbDetach_touch (subOf (by decide) sub) ?_
    | with_reducible refine updUs_touch (subOf (by decide) sub) ?_
    | with_reducible refine updSy_touch (subOf (by decide) sub) ?_
    | with_reducible refine updTw_touch (subOf (by decide) sub) ?_ | intro _ | split | dsimp only

theorem giveUpRole_touch {fs : List Piece} {s0 : State} {b : BId} {s : State}
    (sub : [.out, .freeCtr, .sy, .rp, .ch, .log, .dk, .tw, .us, .tray] ⊆ fs) (h0 : Touch fs s0 s)
    : Touch fs s0 (giveUpRole b s) := by
  unfold giveUpRole
  try dsimp only
  repeat' first
    | with_reducible assumption | with_reducible refine updSy_touch (subOf (by decide) sub) ?_
    | with_reducible refine portsInert_touch (subOf (by decide) sub) ?_
    | with_reducible refine updCh_touch (subOf (by decide) sub) ?_
    | with_reducible refine State.updLog_touch (subOf (by decide) sub) ?_
    | with_reducible refine deckRelease_touch (subOf (by decide) sub) ?_
    | with_reducible refine State.updTray_touch (subOf (by decide) sub) ?_ | with_reducible refine Touch.iter ?_ ?_
    | intro _ | split | dsimp only

theorem isolate_touch {fs : List Piece} {s0 : State} {b : BId} {s : State}
    (sub : [.out, .freeCtr, .sy, .rp, .ch, .rl, .log, .pw, .hw, .svc, .cl, .pl, .dk, .dm, .tw, .us, .ar, .pg, .tray, .tcm, .deck] ⊆ fs)
    (h0 : Touch fs s0 s) : Touch fs s0 (isolate b s) := by
  unfold isolate
  try dsimp only
  repeat' first
    | with_reducible assumption | with_reducible refine updSy_touch (subOf (by decide) sub) ?_
    | with_reducible refine giveUpRole_touch (subOf (by decide) sub) ?_
    | with_reducible refine shutdown_touch (subOf (by decide) sub) ?_
    | with_reducible refine enginesEnd_touch (subOf (by decide) sub) ?_
    | with_reducible refine slotInert_touch (subOf (by decide) sub) ?_ | intro _ | split | dsimp only

theorem silentIsolate_touch {fs : List Piece} {s0 : State} {b : BId} {s : State}
    (sub : [.out, .freeCtr, .sy, .rp, .ch, .rl, .log, .pw, .hw, .svc, .cl, .pl, .dk, .dm, .tw, .us, .ar, .pg, .tray, .tcm, .deck] ⊆ fs)
    (h0 : Touch fs s0 s) : Touch fs s0 (silentIsolate b s) := by
  unfold silentIsolate
  try dsimp only
  repeat' first
    | with_reducible assumption | with_reducible refine isolate_touch (subOf (by decide) sub) ?_ | intro _ | split
    | dsimp only

theorem noClockIsolate_touch {fs : List Piece} {s0 : State} {b : BId} {s : State}
    (sub : [.out, .freeCtr, .sy, .rp, .ch, .rl, .log, .pw, .hw, .svc, .cl, .pl, .dk, .dm, .tw, .us, .ar, .pg, .tray, .tcm, .deck] ⊆ fs)
    (h0 : Touch fs s0 s) : Touch fs s0 (noClockIsolate b s) := by
  unfold noClockIsolate
  try dsimp only
  repeat' first
    | with_reducible assumption | with_reducible refine isolate_touch (subOf (by decide) sub) ?_
    | with_reducible refine updSy_touch (subOf (by decide) sub) ?_ | intro _ | split | dsimp only

theorem isolatedReport_touch {fs : List Piece} {s0 : State} {h : BId} {n : BId} {s : State} (sub : [.tray] ⊆ fs) (h0
    : Touch fs s0 s) : Touch fs s0 (isolatedReport h n s) := by
  unfold isolatedReport
  try dsimp only
  repeat' first
    | with_reducible assumption | with_reducible refine State.updTray_touch (subOf (by decide) sub) ?_ | intro _
    | split | dsimp only

theorem releaseOrder_touch {fs : List Piece} {s0 : State} {b : BId} {s : State}
    (sub : [.out, .sy, .rp, .ch, .rl, .pw, .cl, .tray] ⊆ fs) (h0 : Touch fs s0 s) : Touch fs s0 (releaseOrder b s) := by
  unfold releaseOrder
  try dsimp only
  repeat' first
    | with_reducible assumption | with_reducible refine updSy_touch (subOf (by decide) sub) ?_
    | with_reducible refine inertOutputs_touch (subOf (by decide) sub) ?_
    | with_reducible refine updCh_touch (subOf (by decide) sub) ?_
    | with_reducible refine redistribute_touch (subOf (by decide) sub) ?_ | intro _ | split | dsimp only

theorem resync_touch {fs : List Piece} {s0 : State} {b : BId} {count : Nat} {h : ℤ} {s : State}
    (sub : [.out, .freeCtr, .rp, .td, .log, .dk, .tw, .us, .tray] ⊆ fs) (h0 : Touch fs s0 s)
    : Touch fs s0 (resync b count h s) := by
  unfold resync
  try dsimp only
  repeat' first
    | with_reducible assumption | with_reducible refine resyncCount_touch (subOf (by decide) sub) ?_
    | with_reducible refine updTd_touch (subOf (by decide) sub) ?_
    | with_reducible refine harbourRetire_touch (subOf (by decide) sub) ?_ | intro _ | split
    | with_reducible refine resyncCount_touch_eq (subOf (by decide) sub) (by with_reducible assumption) ?_
    | dsimp only

theorem align_touch {fs : List Piece} {s0 : State} {b : BId} {count : Nat} {h : ℤ} {s : State}
    (sub : [.out, .freeCtr, .rp, .td, .log, .dk, .tw, .us, .tray] ⊆ fs) (h0 : Touch fs s0 s) : Touch fs s0 (align b count h s)
    := by
  unfold align
  try dsimp only
  repeat' first
    | with_reducible assumption | with_reducible refine updTd_touch (subOf (by decide) sub) ?_
    | with_reducible refine harbourRetire_touch (subOf (by decide) sub) ?_
    | with_reducible refine resync_touch (subOf (by decide) sub) ?_ | intro _ | split | dsimp only

theorem markFlit_touch {fs : List Piece} {s0 : State} {b : BId} {w : BitVec 64} {sub_ : Nat} {s : State}
    (sub : [.out, .freeCtr, .sy, .rp, .td, .log, .dk, .tw, .us, .tray] ⊆ fs) (h0 : Touch fs s0 s)
    : Touch fs s0 (markFlit b w sub_ s) := by
  unfold markFlit
  try dsimp only
  repeat' first
    | with_reducible assumption | with_reducible refine updSy_touch (subOf (by decide) sub) ?_
    | with_reducible refine updTd_touch (subOf (by decide) sub) ?_
    | with_reducible refine align_touch (subOf (by decide) sub) ?_ | intro _ | split | dsimp only

theorem tideFlitReceive_touch {fs : List Piece} {s0 : State} {b : BId} {f : TideFlit} {sub_ : Nat} {s : State}
    (sub : [.out, .freeCtr, .sy, .rp, .td, .log, .dk, .tw, .us, .tray] ⊆ fs) (h0 : Touch fs s0 s)
    : Touch fs s0 (tideFlitReceive b f sub_ s) := by
  unfold tideFlitReceive
  try dsimp only
  repeat' first
    | with_reducible assumption | with_reducible refine markFlit_touch (subOf (by decide) sub) ?_
    | with_reducible refine updTd_touch (subOf (by decide) sub) ?_ | intro _ | split | dsimp only

theorem stateCopy_touch {fs : List Piece} {s0 : State} {h : BId} {s : State} (sub : [.sy, .td, .tw, .us, .pg, .tray] ⊆ fs) (h0
    : Touch fs s0 s) : Touch fs s0 (stateCopy h s) := by
  unfold stateCopy
  try dsimp only
  repeat' first
    | with_reducible assumption | intro _ | split | with_reducible refine Touch.upd ?_ ?_
    | (refine TouchB.mk (fun f nf => ?_) (Berth.memCanonical_same rfl rfl rfl); cases f <;> first | exact absurd (sub (by decide)) nf | exact True.intro | exact rfl)
    | dsimp only

theorem takeover_touch {fs : List Piece} {s0 : State} {b : BId} {s : State}
    (sub : [.out, .freeCtr, .dev, .sy, .rp, .td, .ch, .rl, .log, .pw, .hw, .cl, .pl, .dk, .tw, .us, .ar, .pg, .tray, .deck] ⊆ fs)
    (h0 : Touch fs s0 s) : Touch fs s0 (takeover b s) := by
  unfold takeover
  try dsimp only
  repeat' first
    | with_reducible assumption | with_reducible refine giveUpRole_touch (subOf (by decide) sub) ?_
    | with_reducible refine updSy_touch (subOf (by decide) sub) ?_
    | with_reducible refine State.updTray_touch (subOf (by decide) sub) ?_
    | with_reducible refine updTd_touch (subOf (by decide) sub) ?_
    | with_reducible refine updTw_touch (subOf (by decide) sub) ?_
    | with_reducible refine updUs_touch (subOf (by decide) sub) ?_
    | with_reducible refine usbFollow_touch (subOf (by decide) sub) ?_
    | with_reducible refine telClear_touch (subOf (by decide) sub) ?_
    | with_reducible refine logServe_touch (subOf (by decide) sub) ?_
    | with_reducible refine attnAt_touch (subOf (by decide) sub) ?_
    | with_reducible refine setQuotas_touch (subOf (by decide) sub) ?_
    | with_reducible refine policyTakeover_touch (subOf (by decide) sub) ?_
    | with_reducible refine imagesTakeover_touch (subOf (by decide) sub) ?_
    | with_reducible refine chartTakeover_touch (subOf (by decide) sub) ?_
    | with_reducible refine retireSilent_touch (subOf (by decide) sub) ?_
    | with_reducible refine sendTide_touch (subOf (by decide) sub) ?_ | with_reducible refine Touch.iter ?_ ?_
    | intro _ | split | dsimp only
end Sys2Proof.Machine
end

