-- ==== Sys2Proof/Laws/Touch/Start.lean ====
section
/-! SUPPORT. What each operation of Machine/Start.lean can touch. -/
set_option linter.unusedTactic false
set_option linter.unreachableTactic false
namespace Sys2Proof.Machine

theorem flashCut_touch {fs : List Piece} {s0 : State} {b : BId} {s : State} (sub : [.freeCtr, .flash] ⊆ fs) (h0
    : Touch fs s0 s) : Touch fs s0 (flashCut b s) := by
  unfold flashCut
  try dsimp only
  repeat' first
    | with_reducible assumption | with_reducible refine logCollapse_touch (subOf (by decide) sub) ?_
    | with_reducible refine tornErase_touch (subOf (by decide) sub) ?_
    | with_reducible refine tornProgram_touch (subOf (by decide) sub) ?_ | intro _ | split | dsimp only

theorem resetBerth_touchB {fs : List Piece} {now : Nat} {x : Berth}
    (sub : [.sy, .rp, .td, .ch, .rl, .log, .pw, .hw, .svc, .cl, .pl, .dk, .dm, .tw, .us, .ar, .pg, .hl, .tray, .tcm, .deck] ⊆ fs)
    : TouchB fs x (resetBerth now x) :=
  ⟨fun f nf => by cases f <;> first | exact absurd (sub (by decide)) nf | exact True.intro | exact rfl, fun h => by rw [Berth.memCanonical_iff] at *; exact ⟨rfl, rfl, h.2.2⟩⟩

theorem mainBlocks_touch {fs : List Piece} {s0 : State} {s : State}
    (sub : [.freeCtr, .dev, .sy, .rp, .td, .ch, .rl, .log, .pw, .hw, .svc, .cl, .pl, .dk, .dm, .tw, .us, .ar, .pg, .hl, .tray, .tcm, .deck, .flash] ⊆ fs)
    (h0 : Touch fs s0 s) : Touch fs s0 (mainBlocks s) := by
  have h1 : Touch fs s0 ((iter allB flashCut s).updAll fun _ x => resetBerth (iter allB flashCut s).now x) :=
    Touch.updAll (fun _ _ => resetBerth_touchB (subOf (by decide) sub))
      (Touch.iter (fun _ _ h => flashCut_touch (subOf (by decide) sub) h) h0)
  have key : ∀ u : State, Touch fs s0 u → Touch fs s0 { u with dev := { stby := u.dev.stby, pinLow := u.dev.pinLow, supplies := u.dev.supplies, tap := u.dev.tap, cells := u.dev.cells } } :=
    fun u hu => hu.frame rfl (fun _ => rfl) (fun _ => rfl) (fun _ => rfl) (fun nf => absurd (sub (by decide)) nf)
  unfold mainBlocks
  exact key _ h1

theorem mainReset_touch {fs : List Piece} {s0 : State} {bit : Nat} {s : State}
    (sub : [.freeCtr, .dev, .sy, .rp, .td, .ch, .rl, .log, .pw, .hw, .svc, .cl, .pl, .dk, .dm, .tw, .us, .ar, .pg, .hl, .tray, .tcm, .deck, .flash] ⊆ fs)
    (h0 : Touch fs s0 s) : Touch fs s0 (mainReset bit s) := by
  unfold mainReset
  try dsimp only
  repeat' first
    | with_reducible assumption | with_reducible refine updSy_touch (subOf (by decide) sub) ?_
    | with_reducible refine mainBlocks_touch (subOf (by decide) sub) ?_ | with_reducible refine Touch.iter ?_ ?_
    | intro _ | split | dsimp only

theorem resetRelease_touch {fs : List Piece} {s0 : State} {b : BId} {s : State} (sub : [.sy, .td] ⊆ fs) (h0 : Touch fs s0 s)
    : Touch fs s0 (resetRelease b s) := by
  unfold resetRelease
  try dsimp only
  repeat' first
    | with_reducible assumption | with_reducible refine updSy_touch (subOf (by decide) sub) ?_
    | with_reducible refine tideStart_touch (subOf (by decide) sub) ?_ | intro _ | split | dsimp only

theorem islandClear_touch {fs : List Piece} {s0 : State} {cause : Nat} {s : State} (sub : [.sy, .tw] ⊆ fs) (h0
    : Touch fs s0 s) : Touch fs s0 (islandClear cause s) := by
  unfold islandClear
  try dsimp only
  repeat' first
    | with_reducible assumption | with_reducible refine updSy_touch (subOf (by decide) sub) ?_
    | with_reducible refine Touch.iter ?_ ?_ | intro _ | split | with_reducible refine Touch.updAll ?_ ?_
    | (refine TouchB.mk (fun f nf => ?_) (Berth.memCanonical_same rfl rfl rfl); cases f <;> first | exact absurd (sub (by decide)) nf | exact True.intro | exact rfl)
    | dsimp only

theorem tapLoad_touch {fs : List Piece} {s0 : State} {i : TapInstr} {s : State}
    (sub : [.freeCtr, .dev, .sy, .rp, .td, .ch, .rl, .log, .pw, .hw, .svc, .cl, .pl, .dk, .dm, .tw, .us, .ar, .pg, .hl, .tray, .tcm, .deck, .flash] ⊆ fs)
    (h0 : Touch fs s0 s) : Touch fs s0 (tapLoad i s) := by
  unfold tapLoad
  try dsimp only
  repeat' first
    | with_reducible assumption | with_reducible refine mainReset_touch (subOf (by decide) sub) ?_
    | with_reducible refine updDev_touch (subOf (by decide) sub) ?_
    | with_reducible refine State.draw_touch (subOf (by decide) sub) ?_ | intro _ | split
    | with_reducible refine State.draw_touch_eq (subOf (by decide) sub) (by with_reducible assumption) ?_
    | dsimp only

theorem trainUnder_touch {fs : List Piece} {s0 : State} {b : BId} {n : BId} {s : State} (sub : [.sy, .td] ⊆ fs) (h0
    : Touch fs s0 s) : Touch fs s0 (trainUnder b n s) := by
  unfold trainUnder
  try dsimp only
  repeat' first
    | with_reducible assumption | with_reducible refine tideStart_touch (subOf (by decide) sub) ?_
    | with_reducible refine updSy_touch (subOf (by decide) sub) ?_ | intro _ | split | dsimp only

theorem claim_touch {fs : List Piece} {s0 : State} {b : BId} {reach : Nat} {s : State} (sub : [.dev, .sy, .td] ⊆ fs) (h0
    : Touch fs s0 s) : Touch fs s0 (claim b reach s) := by
  unfold claim
  try dsimp only
  repeat' first
    | with_reducible assumption | with_reducible refine updDev_touch (subOf (by decide) sub) ?_
    | with_reducible refine trainUnder_touch (subOf (by decide) sub) ?_
    | with_reducible refine updSy_touch (subOf (by decide) sub) ?_ | with_reducible refine Touch.iter ?_ ?_
    | intro _ | split | dsimp only

theorem claimB0_touch {fs : List Piece} {s0 : State} {reach : Nat} {s : State} (sub : [.dev, .sy, .td] ⊆ fs) (h0
    : Touch fs s0 s) : Touch fs s0 (claimB0 reach s) := by
  unfold claimB0
  try dsimp only
  repeat' first
    | with_reducible assumption | with_reducible refine claim_touch (subOf (by decide) sub) ?_ | intro _ | split
    | dsimp only

theorem strapDone_touch {fs : List Piece} {s0 : State} {b : BId} {addr : Nat} {boot : Nat} {inh : Bool} {unstable : Bool}
    {reach : Nat} {s : State} (sub : [.dev, .sy, .td] ⊆ fs) (h0 : Touch fs s0 s)
    : Touch fs s0 (strapDone b addr boot inh unstable reach s) := by
  unfold strapDone
  try dsimp only
  repeat' first
    | with_reducible assumption | with_reducible refine updSy_touch (subOf (by decide) sub) ?_
    | with_reducible refine claimB0_touch (subOf (by decide) sub) ?_ | intro _ | split | dsimp only

theorem pllLock_touch {fs : List Piece} {s0 : State} {b : BId} {reach : Nat} {s : State} (sub : [.dev, .sy, .td] ⊆ fs) (h0
    : Touch fs s0 s) : Touch fs s0 (pllLock b reach s) := by
  unfold pllLock
  try dsimp only
  repeat' first
    | with_reducible assumption | with_reducible refine updSy_touch (subOf (by decide) sub) ?_
    | with_reducible refine claimB0_touch (subOf (by decide) sub) ?_
    | with_reducible refine claim_touch (subOf (by decide) sub) ?_ | intro _ | split | dsimp only

theorem b4Wait_touch {fs : List Piece} {s0 : State} {reach : Nat} {s : State} (sub : [.dev, .sy, .td] ⊆ fs) (h0
    : Touch fs s0 s) : Touch fs s0 (b4Wait reach s) := by
  unfold b4Wait
  try dsimp only
  repeat' first
    | with_reducible assumption | with_reducible refine claim_touch (subOf (by decide) sub) ?_ | intro _ | split
    | dsimp only

theorem collision_touch {fs : List Piece} {s0 : State} {s : State} (sub : [.sy, .td] ⊆ fs) (h0 : Touch fs s0 s)
    : Touch fs s0 (collision s) := by
  unfold collision
  try dsimp only
  repeat' first
    | with_reducible assumption | with_reducible refine trainUnder_touch (subOf (by decide) sub) ?_
    | with_reducible refine updSy_touch (subOf (by decide) sub) ?_ | with_reducible refine Touch.iter ?_ ?_
    | intro _ | split | dsimp only

theorem elect_touch {fs : List Piece} {s0 : State} {h : BId} {s : State}
    (sub : [.out, .freeCtr, .sy, .rp, .td, .log, .dk, .tw, .us] ⊆ fs) (h0 : Touch fs s0 s) : Touch fs s0 (elect h s) := by
  unfold elect
  try dsimp only
  repeat' first
    | with_reducible assumption | with_reducible refine updTd_touch (subOf (by decide) sub) ?_
    | with_reducible refine updSy_touch (subOf (by decide) sub) ?_
    | with_reducible refine updTw_touch (subOf (by decide) sub) ?_
    | with_reducible refine usbFollow_touch (subOf (by decide) sub) ?_
    | with_reducible refine updUs_touch (subOf (by decide) sub) ?_ | intro _ | split
    | with_reducible refine Touch.updAll ?_ ?_
    | (refine TouchB.mk (fun f nf => ?_) (Berth.memCanonical_same rfl rfl rfl); cases f <;> first | exact absurd (sub (by decide)) nf | exact True.intro | exact rfl)
    | dsimp only

theorem windowEnd_touch {fs : List Piece} {s0 : State} {present : Nat} {segs : Nat} {chords : Nat} {s : State}
    (sub : [.out, .freeCtr, .dev, .sy, .rp, .td, .ch, .log, .dk, .tw, .us] ⊆ fs) (h0 : Touch fs s0 s)
    : Touch fs s0 (windowEnd present segs chords s) := by
  have key : ∀ (h : BId) (u : State), Touch fs s0 u → Touch fs s0 (if (syOf (elect h u) h).straps.boot == 0 then chartLoad h (elect h u) else elect h u) := by
    intro h u hu
    have := elect_touch (h := h) (subOf (by decide) sub) hu
    split
    · exact chartLoad_touch (subOf (by decide) sub) this
    · exact this
  unfold windowEnd
  split
  · exact h0
  · split
    · exact h0
    · refine key _ _ (Touch.updAll (fun b x => ?_) (updDev_touch (subOf (by decide) sub) h0))
      split
      · exact ⟨fun f nf => by cases f <;> first | exact absurd (sub (by decide)) nf | exact True.intro | exact rfl, Berth.memCanonical_same rfl rfl rfl⟩
      · split
        · exact ⟨fun f nf => by cases f <;> first | exact absurd (sub (by decide)) nf | exact True.intro | exact rfl, Berth.memCanonical_same rfl rfl rfl⟩
        · exact TouchB.refl

theorem backToTraining_touch {fs : List Piece} {s0 : State} {b : BId} {s : State}
    (sub : [.out, .freeCtr, .dev, .sy, .rp, .td, .ch, .log, .dk, .tw, .us, .tray] ⊆ fs) (h0 : Touch fs s0 s)
    : Touch fs s0 (backToTraining b s) := by
  unfold backToTraining
  try dsimp only
  repeat' first
    | with_reducible assumption | with_reducible refine State.updTray_touch (subOf (by decide) sub) ?_
    | with_reducible refine portsInert_touch (subOf (by decide) sub) ?_
    | with_reducible refine updDev_touch (subOf (by decide) sub) ?_ | intro _ | split
    | with_reducible refine Touch.upd ?_ ?_
    | (refine TouchB.mk (fun f nf => ?_) (Berth.memCanonical_same rfl rfl rfl); cases f <;> first | exact absurd (sub (by decide)) nf | exact True.intro | exact rfl)
    | dsimp only

theorem electionRepeat_touch {fs : List Piece} {s0 : State} {b : BId} {noClock : Bool} {s : State}
    (sub : [.out, .freeCtr, .dev, .sy, .rp, .td, .ch, .log, .dk, .tw, .us, .tray] ⊆ fs) (h0 : Touch fs s0 s)
    : Touch fs s0 (electionRepeat b noClock s) := by
  unfold electionRepeat
  try dsimp only
  repeat' first
    | with_reducible assumption | with_reducible refine updDev_touch (subOf (by decide) sub) ?_
    | with_reducible refine backToTraining_touch (subOf (by decide) sub) ?_
    | with_reducible refine claim_touch (subOf (by decide) sub) ?_ | with_reducible refine Touch.iter ?_ ?_
    | intro _ | split | dsimp only

theorem lateJoin_touch {fs : List Piece} {s0 : State} {b : BId} {segs : Nat} {chords : Nat} {s : State}
    (sub : [.sy, .rp, .td] ⊆ fs) (h0 : Touch fs s0 s) : Touch fs s0 (lateJoin b segs chords s) := by
  unfold lateJoin
  try dsimp only
  repeat' first
    | with_reducible assumption | with_reducible refine trainUnder_touch (subOf (by decide) sub) ?_
    | with_reducible refine updRp_touch (subOf (by decide) sub) ?_
    | with_reducible refine updSy_touch (subOf (by decide) sub) ?_
    | with_reducible refine updPort_touch (subOf (by decide) sub) ?_
    | with_reducible refine tideStart_touch (subOf (by decide) sub) ?_ | with_reducible refine Touch.iter ?_ ?_
    | intro _ | split | dsimp only

theorem rstOrder_touch {fs : List Piece} {s0 : State} {cmd : Nat} {req : ReqId} {guard : Nat} {act : State → State}
    {s : State} (sub : [.dev] ⊆ fs) (hf1 : ∀ t, Touch fs s0 t → Touch fs s0 (act t)) (h0 : Touch fs s0 s)
    : Touch fs s0 (rstOrder cmd req guard act s) := by
  unfold rstOrder
  try dsimp only
  repeat' first
    | with_reducible assumption | with_reducible refine updDev_touch (subOf (by decide) sub) ?_
    | with_reducible apply hf1 | intro _ | split | dsimp only

theorem controllerReset_touch {fs : List Piece} {s0 : State} {req : ReqId} {guard : Nat} {s : State}
    (sub : [.out, .freeCtr, .dev, .rp, .rl, .log, .pw, .hw, .svc, .cl, .pl, .dk, .dm, .tw, .us, .tray, .tcm, .deck] ⊆ fs) (h0
    : Touch fs s0 s) : Touch fs s0 (controllerReset req guard s) := by
  unfold controllerReset
  try dsimp only
  repeat' first
    | with_reducible assumption | with_reducible refine rstOrder_touch (subOf (by decide) sub) ?_ ?_
    | with_reducible refine shutdown_touch (subOf (by decide) sub) ?_
    | with_reducible refine updDev_touch (subOf (by decide) sub) ?_ | with_reducible refine Touch.iter ?_ ?_
    | intro _ | split | dsimp only

theorem sleepOrder_touch {fs : List Piece} {s0 : State} {req : ReqId} {guard : Nat} {s : State} (sub : [.dev, .cl, .ar] ⊆ fs)
    (h0 : Touch fs s0 s) : Touch fs s0 (sleepOrder req guard s) := by
  unfold sleepOrder
  try dsimp only
  repeat' first
    | with_reducible assumption | with_reducible refine rstOrder_touch (subOf (by decide) sub) ?_ ?_
    | with_reducible refine updDev_touch (subOf (by decide) sub) ?_
    | with_reducible refine arSleep_touch (subOf (by decide) sub) ?_ | with_reducible refine Touch.iter ?_ ?_
    | intro _ | split | with_reducible refine Touch.updAll ?_ ?_
    | (refine TouchB.mk (fun f nf => ?_) (Berth.memCanonical_same rfl rfl rfl); cases f <;> first | exact absurd (sub (by decide)) nf | exact True.intro | exact rfl)
    | dsimp only
end Sys2Proof.Machine
end

