-- ==== Sys2Proof/Laws/Touch/PowerMark.lean ====
section
/-! SUPPORT. What each operation of Machine/PowerMark.lean can touch. -/
set_option linter.unusedTactic false
set_option linter.unreachableTactic false
namespace Sys2Proof.Machine

theorem admitOne_touch {fs : List Piece} {s0 : State} {h n : BId} {ws : Win × State} (sub : [.tray, .pw] ⊆ fs) (h0
    : Touch fs s0 ws.2) : Touch fs s0 (admitOne h n ws).2 := by
  unfold admitOne
  dsimp only
  split
  · dsimp only; exact State.updTray_touch (subOf (by decide) sub) (setAdmit_touch (subOf (by decide) sub) h0)
  · exact h0

theorem grantOne_touch {fs : List Piece} {s0 : State} {h n : BId} {ws : Win × State} (sub : [.tray, .pw] ⊆ fs) (h0
    : Touch fs s0 ws.2) : Touch fs s0 (grantOne h n ws).2 := by
  unfold grantOne
  dsimp only
  split
  · exact h0
  · dsimp only; exact State.updPw_touch (subOf (by decide) sub) (State.updTray_touch (subOf (by decide) sub) h0)

theorem windowOpen_touch {fs : List Piece} {s0 : State} {h : BId} {s : State} (sub : [.pw, .tray] ⊆ fs) (h0 : Touch fs s0 s)
    : Touch fs s0 (windowOpen h s) := by
  unfold windowOpen
  try dsimp only
  repeat' first
    | with_reducible assumption | with_reducible refine admitOne_touch (subOf (by decide) sub) ?_
    | with_reducible refine grantOne_touch (subOf (by decide) sub) ?_
    | with_reducible refine State.updTray_touch (subOf (by decide) sub) ?_
    | with_reducible refine Touch.foldl ?_ ?_ | with_reducible refine Touch.foldl2 ?_ ?_ | intro _ | split
    | with_reducible refine Touch.updAll ?_ ?_
    | (refine TouchB.mk (fun f nf => ?_) (Berth.memCanonical_same rfl rfl rfl); cases f <;> first | exact absurd (sub (by decide)) nf | exact True.intro | exact rfl)
    | dsimp only

theorem grantsApply_touch {fs : List Piece} {s0 : State} {h : BId} {s : State} (sub : [.pw, .tray] ⊆ fs) (h0 : Touch fs s0 s)
    : Touch fs s0 (grantsApply h s) := by
  unfold grantsApply
  try dsimp only
  repeat' first
    | with_reducible assumption | with_reducible refine State.updTray_touch (subOf (by decide) sub) ?_
    | with_reducible refine setGrant_touch (subOf (by decide) sub) ?_
    | with_reducible refine setAdmit_touch (subOf (by decide) sub) ?_ | with_reducible refine Touch.iter ?_ ?_
    | intro _ | split | dsimp only

theorem rotMark_touch {fs : List Piece} {s0 : State} {h : BId} {s : State} (sub : [.tray] ⊆ fs) (h0 : Touch fs s0 s)
    : Touch fs s0 (rotMark h s) := by
  unfold rotMark
  try dsimp only
  repeat' first
    | with_reducible assumption | with_reducible refine State.updTray_touch (subOf (by decide) sub) ?_ | intro _
    | split | dsimp only

theorem partMark_touch {fs : List Piece} {s0 : State} {b : BId} {k : Nat} {s : State} (sub : [.out, .rl, .pw, .hw] ⊆ fs) (h0
    : Touch fs s0 s) : Touch fs s0 (partMark b k s) := by
  unfold partMark
  try dsimp only
  repeat' first
    | with_reducible assumption | with_reducible refine retarget_touch (subOf (by decide) sub) ?_
    | with_reducible refine orderStep_touch (subOf (by decide) sub) ?_ | intro _ | split | dsimp only

theorem slotMarkActs_touch {fs : List Piece} {s0 : State} {b : BId} {s : State} (sub : [.out, .rl, .pw, .hw] ⊆ fs) (h0
    : Touch fs s0 s) : Touch fs s0 (slotMarkActs b s) := by
  unfold slotMarkActs
  try dsimp only
  repeat' first
    | with_reducible assumption | with_reducible refine partMark_touch (subOf (by decide) sub) ?_
    | with_reducible refine State.updPw_touch (subOf (by decide) sub) ?_ | with_reducible refine Touch.iter ?_ ?_
    | intro _ | split | dsimp only

theorem shedTest_touch {fs : List Piece} {s0 : State} {h : BId} {s : State}
    (sub : [.out, .freeCtr, .rp, .rl, .log, .pw, .hw, .svc, .cl, .pl, .dk, .dm, .tw, .us, .tray, .tcm, .deck] ⊆ fs) (h0
    : Touch fs s0 s) : Touch fs s0 (shedTest h s) := by
  unfold shedTest
  try dsimp only
  repeat' first
    | with_reducible assumption | with_reducible refine logRec_touch (subOf (by decide) sub) ?_
    | with_reducible refine attn_touch (subOf (by decide) sub) ?_
    | with_reducible refine State.updTray_touch (subOf (by decide) sub) ?_
    | with_reducible refine withdraw_touch (subOf (by decide) sub) ?_
    | with_reducible refine shutdown_touch (subOf (by decide) sub) ?_
    | with_reducible refine State.updPw_touch (subOf (by decide) sub) ?_ | intro _ | split | dsimp only

theorem floorTest_touch {fs : List Piece} {s0 : State} {s : State} (sub : [.tray] ⊆ fs) (h0 : Touch fs s0 s)
    : Touch fs s0 (floorTest s) := by
  unfold floorTest
  try dsimp only
  repeat' first
    | with_reducible assumption | with_reducible refine State.onTray_touch (subOf (by decide) sub) ?_ | intro _
    | split | dsimp only

theorem averageSend_touch {fs : List Piece} {s0 : State} {b : BId} {s : State} (sub : [.out, .rp, .pw, .hl, .tray] ⊆ fs) (h0
    : Touch fs s0 s) : Touch fs s0 (averageSend b s) := by
  unfold averageSend
  try dsimp only
  repeat' first
    | with_reducible assumption | with_reducible refine State.updPw_touch (subOf (by decide) sub) ?_
    | with_reducible refine markAverageReceive_touch (subOf (by decide) sub) ?_
    | with_reducible refine ringSend_touch (subOf (by decide) sub) ?_ | intro _ | split
    | with_reducible refine Touch.upd ?_ ?_
    | (refine TouchB.mk (fun f nf => ?_) (Berth.memCanonical_same rfl rfl rfl); cases f <;> first | exact absurd (sub (by decide)) nf | exact True.intro | exact rfl)
    | dsimp only

theorem ledgerReason_touch {fs : List Piece} {s0 : State} {b : BId} {r : Nat} {s : State}
    (sub : [.out, .freeCtr, .rp, .log, .pw, .dk, .us] ⊆ fs) (h0 : Touch fs s0 s) : Touch fs s0 (ledgerReason b r s) := by
  unfold ledgerReason
  try dsimp only
  repeat' first
    | with_reducible assumption | with_reducible refine ledgerClose_touch (subOf (by decide) sub) ?_
    | with_reducible refine State.updPw_touch (subOf (by decide) sub) ?_ | intro _ | split | dsimp only

theorem ledgerEval_touch {fs : List Piece} {s0 : State} {b : BId} {s : State}
    (sub : [.out, .freeCtr, .rp, .log, .pw, .dk, .us] ⊆ fs) (h0 : Touch fs s0 s) : Touch fs s0 (ledgerEval b s) := by
  unfold ledgerEval
  try dsimp only
  repeat' first
    | with_reducible assumption | with_reducible refine ledgerReason_touch (subOf (by decide) sub) ?_
    | with_reducible refine State.updPw_touch (subOf (by decide) sub) ?_ | with_reducible refine Touch.iter ?_ ?_
    | intro _ | split | dsimp only
end Sys2Proof.Machine
end

