-- ==== Sys2Proof/Laws/Touch/RegMap.lean ====
section
/-! SUPPORT. What each operation of Machine/RegMap.lean can touch. -/
set_option linter.unusedTactic false
set_option linter.unreachableTactic false
namespace Sys2Proof.Machine

theorem updSnap_touch {fs : List Piece} {s0 : State} {b : BId} {f : Sy → Sy} {s : State} (sub : [.sy] ⊆ fs) (h0
    : Touch fs s0 s) : Touch fs s0 (updSnap b f s) := by
  unfold updSnap
  try dsimp only
  repeat' first
    | with_reducible assumption | intro _ | split | with_reducible refine Touch.upd ?_ ?_
    | (refine TouchB.mk (fun f nf => ?_) (Berth.memCanonical_same rfl rfl rfl); cases f <;> first | exact absurd (sub (by decide)) nf | exact True.intro | exact rfl)
    | dsimp only

theorem counterLow_touch {fs : List Piece} {s0 : State} {b : BId} {tray : Bool} {req : ReqId} {blk : Nat} {off : Nat}
    {s : State} (sub : [.sy] ⊆ fs) (h0 : Touch fs s0 s) : Touch fs s0 (counterLow b tray req blk off s).2 := by
  unfold counterLow
  try dsimp only
  repeat' first
    | with_reducible assumption | with_reducible refine updSnap_touch (subOf (by decide) sub) ?_ | intro _ | split
    | dsimp only

theorem counterLow_touch_eq {fs : List Piece} {s0 : State} {b : BId} {tray : Bool} {req : ReqId} {blk : Nat} {off : Nat}
    {s : State} {r0} {t : State} (sub : [.sy] ⊆ fs) (eq_ : counterLow b tray req blk off s = (r0, t)) (h0 : Touch fs s0 s)
    : Touch fs s0 t := by
  have := @counterLow_touch fs s0 b tray req blk off s sub  h0
  rw [eq_] at this; exact this

theorem counterHigh_touch {fs : List Piece} {s0 : State} {b : BId} {tray : Bool} {req : ReqId} {blk : Nat} {off : Nat}
    {s : State} (sub : [.sy] ⊆ fs) (h0 : Touch fs s0 s) : Touch fs s0 (counterHigh b tray req blk off s).2 := by
  unfold counterHigh
  try dsimp only
  repeat' first
    | with_reducible assumption | with_reducible refine updSnap_touch (subOf (by decide) sub) ?_ | intro _ | split
    | dsimp only

theorem counterHigh_touch_eq {fs : List Piece} {s0 : State} {b : BId} {tray : Bool} {req : ReqId} {blk : Nat} {off : Nat}
    {s : State} {r0} {t : State} (sub : [.sy] ⊆ fs) (eq_ : counterHigh b tray req blk off s = (r0, t)) (h0 : Touch fs s0 s)
    : Touch fs s0 t := by
  have := @counterHigh_touch fs s0 b tray req blk off s sub  h0
  rw [eq_] at this; exact this

theorem accErrRead_touch {fs : List Piece} {s0 : State} {b : BId} {s : State} (sub : [.sy] ⊆ fs) (h0 : Touch fs s0 s)
    : Touch fs s0 (accErrRead b s).2 := by
  unfold accErrRead
  try dsimp only
  repeat' first
    | with_reducible assumption | with_reducible refine updSnap_touch (subOf (by decide) sub) ?_ | intro _ | split
    | dsimp only

theorem accErrRead_touch_eq {fs : List Piece} {s0 : State} {b : BId} {s : State} {r0} {t : State} (sub : [.sy] ⊆ fs)
    (eq_ : accErrRead b s = (r0, t)) (h0 : Touch fs s0 s) : Touch fs s0 t := by
  have := @accErrRead_touch fs s0 b s sub  h0
  rw [eq_] at this; exact this

theorem faultRead_touch {fs : List Piece} {s0 : State} {b : BId} {s : State} (sub : [.rl] ⊆ fs) (h0 : Touch fs s0 s)
    : Touch fs s0 (faultRead b s).2 := by
  unfold faultRead
  try dsimp only
  repeat' first
    | with_reducible assumption | with_reducible refine State.updRl_touch (subOf (by decide) sub) ?_ | intro _
    | split | dsimp only

theorem faultRead_touch_eq {fs : List Piece} {s0 : State} {b : BId} {s : State} {r0} {t : State} (sub : [.rl] ⊆ fs)
    (eq_ : faultRead b s = (r0, t)) (h0 : Touch fs s0 s) : Touch fs s0 t := by
  have := @faultRead_touch fs s0 b s sub  h0
  rw [eq_] at this; exact this

theorem pwrRead_touch {fs : List Piece} {s0 : State} {b : BId} {s : State} (sub : [.pw] ⊆ fs) (h0 : Touch fs s0 s)
    : Touch fs s0 (pwrRead b s).2 := by
  unfold pwrRead
  try dsimp only
  repeat' first
    | with_reducible assumption | with_reducible refine State.updPw_touch (subOf (by decide) sub) ?_ | intro _
    | split | dsimp only

theorem pwrRead_touch_eq {fs : List Piece} {s0 : State} {b : BId} {s : State} {r0} {t : State} (sub : [.pw] ⊆ fs)
    (eq_ : pwrRead b s = (r0, t)) (h0 : Touch fs s0 s) : Touch fs s0 t := by
  have := @pwrRead_touch fs s0 b s sub  h0
  rw [eq_] at this; exact this

theorem regRead_touch {fs : List Piece} {s0 : State} {b : BId} {tray : Bool} {req : ReqId} {blk : Nat} {off : Nat} {s : State}
    (sub : [.out, .freeCtr, .sy, .rp, .rl, .log, .pw, .hw, .pl, .dk, .dm, .us, .deck] ⊆ fs) (h0 : Touch fs s0 s)
    : Touch fs s0 (regRead b tray req blk off s).2 := by
  unfold regRead
  try dsimp only
  repeat' first
    | with_reducible assumption | with_reducible refine accErrRead_touch (subOf (by decide) sub) ?_
    | with_reducible refine allocRead_touch (subOf (by decide) sub) ?_
    | with_reducible refine cplRead_touch (subOf (by decide) sub) ?_
    | with_reducible refine evqRead_touch (subOf (by decide) sub) ?_
    | with_reducible refine faultRead_touch (subOf (by decide) sub) ?_
    | with_reducible refine pwrRead_touch (subOf (by decide) sub) ?_
    | with_reducible refine counterLow_touch (subOf (by decide) sub) ?_
    | with_reducible refine counterHigh_touch (subOf (by decide) sub) ?_ | intro _ | split
    | with_reducible refine accErrRead_touch_eq (subOf (by decide) sub) (by with_reducible assumption) ?_
    | with_reducible refine allocRead_touch_eq (subOf (by decide) sub) (by with_reducible assumption) ?_
    | with_reducible refine cplRead_touch_eq (subOf (by decide) sub) (by with_reducible assumption) ?_
    | with_reducible refine evqRead_touch_eq (subOf (by decide) sub) (by with_reducible assumption) ?_
    | with_reducible refine faultRead_touch_eq (subOf (by decide) sub) (by with_reducible assumption) ?_
    | with_reducible refine pwrRead_touch_eq (subOf (by decide) sub) (by with_reducible assumption) ?_
    | with_reducible refine counterLow_touch_eq (subOf (by decide) sub) (by with_reducible assumption) ?_
    | with_reducible refine counterHigh_touch_eq (subOf (by decide) sub) (by with_reducible assumption) ?_
    | dsimp only

theorem regRead_touch_eq {fs : List Piece} {s0 : State} {b : BId} {tray : Bool} {req : ReqId} {blk : Nat} {off : Nat}
    {s : State} {r0} {t : State} (sub : [.out, .freeCtr, .sy, .rp, .rl, .log, .pw, .hw, .pl, .dk, .dm, .us, .deck] ⊆ fs)
    (eq_ : regRead b tray req blk off s = (r0, t)) (h0 : Touch fs s0 s) : Touch fs s0 t := by
  have := @regRead_touch fs s0 b tray req blk off s sub  h0
  rw [eq_] at this; exact this

theorem recordErr_touch {fs : List Piece} {s0 : State} {b : BId} {cause : Nat} {w : Who} {write : Bool} {a : Nat} {s : State}
    (sub : [.sy] ⊆ fs) (h0 : Touch fs s0 s) : Touch fs s0 (recordErr b cause w write a s) := by
  unfold recordErr
  try dsimp only
  repeat' first
    | with_reducible assumption | with_reducible refine updSnap_touch (subOf (by decide) sub) ?_ | intro _ | split
    | dsimp only

theorem readAt_touch {fs : List Piece} {s0 : State} {w : Who} {b : BId} {r : Reach} {size : Nat} {s : State}
    (sub : [.out, .freeCtr, .sy, .rp, .rl, .log, .pw, .hw, .pl, .dk, .dm, .us, .ar, .deck] ⊆ fs) (h0 : Touch fs s0 s)
    : Touch fs s0 (readAt w b r size s).2 := by
  unfold readAt
  try dsimp only
  repeat' first
    | with_reducible assumption | with_reducible refine regRead_touch (subOf (by decide) sub) ?_
    | with_reducible refine State.draw_touch (subOf (by decide) sub) ?_
    | with_reducible refine cellRead_touch (subOf (by decide) sub) ?_ | intro _ | split
    | with_reducible refine regRead_touch_eq (subOf (by decide) sub) (by with_reducible assumption) ?_
    | with_reducible refine State.draw_touch_eq (subOf (by decide) sub) (by with_reducible assumption) ?_
    | with_reducible refine cellRead_touch_eq (subOf (by decide) sub) (by with_reducible assumption) ?_
    | dsimp only

theorem readAt_touch_eq {fs : List Piece} {s0 : State} {w : Who} {b : BId} {r : Reach} {size : Nat} {s : State} {r0}
    {t : State} (sub : [.out, .freeCtr, .sy, .rp, .rl, .log, .pw, .hw, .pl, .dk, .dm, .us, .ar, .deck] ⊆ fs)
    (eq_ : readAt w b r size s = (r0, t)) (h0 : Touch fs s0 s) : Touch fs s0 t := by
  have := @readAt_touch fs s0 w b r size s sub  h0
  rw [eq_] at this; exact this

theorem memAt_touch {fs : List Piece} {s0 : State} {w : Who} {b : BId} {r : Reach} {size : Nat} {v : Word} {s : State}
    (sub : [.pl, .tcm, .deck] ⊆ fs) (h0 : Touch fs s0 s) : Touch fs s0 (memAt w b r size v s) := by
  unfold memAt
  try dsimp only
  repeat' first
    | with_reducible assumption | with_reducible refine TouchB.setTcm (memOf sub (by decide)) ?_
    | with_reducible refine TouchB.setDeck (memOf sub (by decide)) ?_ | with_reducible exact flashProgram_wf
    | with_reducible exact flashErase_wf | with_reducible exact memWrite_wf | with_reducible exact memFilter_wf
    | (intro h; with_reducible exact memFold_wf h fun _ _ k => memSet_wf k rfl)
    | with_reducible refine State.tcmWrite_touch (subOf (by decide) sub) ?_
    | with_reducible refine State.deckWrite_touch (subOf (by decide) sub) ?_ | intro _ | split
    | with_reducible refine Touch.upd ?_ ?_
    | (refine TouchB.mk (fun f nf => ?_) (Berth.memCanonical_same rfl rfl rfl); cases f <;> first | exact absurd (sub (by decide)) nf | exact True.intro | exact rfl)
    | dsimp only

theorem readAccess_touch {fs : List Piece} {s0 : State} {w : Who} {a : Nat} {size : Nat} {s : State}
    (sub : [.out, .freeCtr, .sy, .rp, .rl, .log, .pw, .hw, .pl, .dk, .dm, .us, .ar, .deck] ⊆ fs) (h0 : Touch fs s0 s)
    : Touch fs s0 (readAccess w a size s).2 := by
  unfold readAccess
  try dsimp only
  repeat' first
    | with_reducible assumption | with_reducible refine recordErr_touch (subOf (by decide) sub) ?_
    | with_reducible refine readAt_touch (subOf (by decide) sub) ?_ | intro _ | split
    | with_reducible refine readAt_touch_eq (subOf (by decide) sub) (by with_reducible assumption) ?_ | dsimp only

theorem readAccess_touch_eq {fs : List Piece} {s0 : State} {w : Who} {a : Nat} {size : Nat} {s : State} {r0} {t : State}
    (sub : [.out, .freeCtr, .sy, .rp, .rl, .log, .pw, .hw, .pl, .dk, .dm, .us, .ar, .deck] ⊆ fs)
    (eq_ : readAccess w a size s = (r0, t)) (h0 : Touch fs s0 s) : Touch fs s0 t := by
  have := @readAccess_touch fs s0 w a size s sub  h0
  rw [eq_] at this; exact this

theorem dropLate_touch {fs : List Piece} {s0 : State} {b : BId} {req : ReqId} {t_ : BId} {s : State} (sub : [.sy] ⊆ fs) (h0
    : Touch fs s0 s) : Touch fs s0 (dropLate b req t_ s) := by
  unfold dropLate
  try dsimp only
  repeat' first
    | with_reducible assumption | with_reducible refine updSnap_touch (subOf (by decide) sub) ?_ | intro _ | split
    | dsimp only
end Sys2Proof.Machine
end

