-- ==== Sys2Proof/Laws/Touch/Dma.lean ====
section
/-! SUPPORT. What each operation of Machine/Dma.lean can touch. -/
set_option linter.unusedTactic false
set_option linter.unreachableTactic false
namespace Sys2Proof.Machine

theorem dmaKick_touch {fs : List Piece} {s0 : State} {b : BId} {e_ : Nat} {s : State}
    (sub : [.out, .freeCtr, .rp, .log, .hw, .pl, .dk, .dm, .us, .deck] ⊆ fs) (h0 : Touch fs s0 s)
    : Touch fs s0 (dmaKick b e_ s) := by
  unfold dmaKick
  try dsimp only
  repeat' first
    | with_reducible assumption | with_reducible refine dmaStart_touch (subOf (by decide) sub) ?_ | intro _ | split
    | dsimp only

theorem tailWrite_touch {fs : List Piece} {s0 : State} {b : BId} {e_ : Nat} {req : ReqId} {tail : Nat} {s : State}
    (sub : [.out, .freeCtr, .rp, .log, .hw, .pl, .dk, .dm, .us, .deck] ⊆ fs) (h0 : Touch fs s0 s)
    : Touch fs s0 (tailWrite b e_ req tail s) := by
  unfold tailWrite
  try dsimp only
  repeat' first
    | with_reducible assumption | with_reducible refine dmaKick_touch (subOf (by decide) sub) ?_
    | with_reducible refine State.updDm_touch (subOf (by decide) sub) ?_ | intro _ | split | dsimp only

theorem burstRead_touch {fs : List Piece} {s0 : State} {b : BId} {y1 : Nat} {y2 : Nat} {y3 : State}
    (sub : [.out, .freeCtr, .sy, .rp, .rl, .log, .pw, .hw, .pl, .dk, .dm, .us, .ar, .deck] ⊆ fs) (h0 : Touch fs s0 y3)
    : Touch fs s0 (burstRead b y1 y2 y3).2 := by
  induction y2 generalizing y1 y3
  case zero => unfold burstRead; exact h0
  rename_i kk ih
  have ihp : ∀ {y1 : Nat} {y3 : State} {r} {u : State}, burstRead b y1 kk y3 = (r, u) → Touch fs s0 y3 → Touch fs s0 u := by
    intro y1 y3 r u eq h; have := @ih y1 y3 h; rw [eq] at this; exact this
  unfold burstRead
  try dsimp only
  repeat' first
    | with_reducible assumption | (with_reducible apply ih)
    | with_reducible refine readAccess_touch (subOf (by decide) sub) ?_ | intro _ | split
    | with_reducible refine readAccess_touch_eq (subOf (by decide) sub) (by with_reducible assumption) ?_
    | (with_reducible refine ihp (by with_reducible assumption) ?_) | dsimp only

theorem burstRead_touch_eq {fs : List Piece} {s0 : State} {b : BId} {y1 : Nat} {y2 : Nat} {y3 : State} {r0} {t : State}
    (sub : [.out, .freeCtr, .sy, .rp, .rl, .log, .pw, .hw, .pl, .dk, .dm, .us, .ar, .deck] ⊆ fs)
    (eq_ : burstRead b y1 y2 y3 = (r0, t)) (h0 : Touch fs s0 y3) : Touch fs s0 t := by
  have := @burstRead_touch fs s0 b y1 y2 y3 sub  h0
  rw [eq_] at this; exact this

theorem burstWrite_touch {fs : List Piece} {s0 : State} {b : BId} {y1 : Nat} {y2 : List Word} {y3 : State}
    (sub : [.sy, .pl, .tcm, .deck] ⊆ fs) (h0 : Touch fs s0 y3) : Touch fs s0 (burstWrite b y1 y2 y3).2 := by
  induction y2 generalizing y1 y3
  case nil => unfold burstWrite; exact h0
  rename_i x xs ih
  have ihp : ∀ {y1 : Nat} {y3 : State} {r} {u : State}, burstWrite b y1 xs y3 = (r, u) → Touch fs s0 y3 → Touch fs s0 u := by
    intro y1 y3 r u eq h; have := @ih y1 y3 h; rw [eq] at this; exact this
  unfold burstWrite
  try dsimp only
  repeat' first
    | with_reducible assumption | (with_reducible apply ih)
    | with_reducible refine recordErr_touch (subOf (by decide) sub) ?_
    | with_reducible refine memAt_touch (subOf (by decide) sub) ?_ | intro _ | split
    | (with_reducible refine ihp (by with_reducible assumption) ?_) | dsimp only

theorem burstWrite_touch_eq {fs : List Piece} {s0 : State} {b : BId} {y1 : Nat} {y2 : List Word} {y3 : State} {r0} {t : State}
    (sub : [.sy, .pl, .tcm, .deck] ⊆ fs) (eq_ : burstWrite b y1 y2 y3 = (r0, t)) (h0 : Touch fs s0 y3) : Touch fs s0 t := by
  have := @burstWrite_touch fs s0 b y1 y2 y3 sub  h0
  rw [eq_] at this; exact this

theorem burstWords_touch {fs : List Piece} {s0 : State} {b : BId} {e_ : Nat} {s : State}
    (sub : [.out, .freeCtr, .sy, .rp, .rl, .log, .pw, .hw, .pl, .dk, .dm, .us, .ar, .deck] ⊆ fs) (h0 : Touch fs s0 s)
    : Touch fs s0 (burstWords b e_ s).2 := by
  unfold burstWords
  try dsimp only
  repeat' first
    | with_reducible assumption | with_reducible refine burstRead_touch (subOf (by decide) sub) ?_ | intro _
    | split | with_reducible refine burstRead_touch_eq (subOf (by decide) sub) (by with_reducible assumption) ?_
    | dsimp only

theorem burstWords_touch_eq {fs : List Piece} {s0 : State} {b : BId} {e_ : Nat} {s : State} {r0} {t : State}
    (sub : [.out, .freeCtr, .sy, .rp, .rl, .log, .pw, .hw, .pl, .dk, .dm, .us, .ar, .deck] ⊆ fs)
    (eq_ : burstWords b e_ s = (r0, t)) (h0 : Touch fs s0 s) : Touch fs s0 t := by
  have := @burstWords_touch fs s0 b e_ s sub  h0
  rw [eq_] at this; exact this

theorem burstFlits_touch {fs : List Piece} {s0 : State} {b : BId} {e_ : Nat} {s : State} (sub : [.sy, .rp] ⊆ fs) (h0
    : Touch fs s0 s) : Touch fs s0 (burstFlits b e_ s) := by
  unfold burstFlits
  try dsimp only
  repeat' first
    | with_reducible assumption | with_reducible refine accessFlits_touch (subOf (by decide) sub) ?_
    | with_reducible refine dropLate_touch (subOf (by decide) sub) ?_ | intro _ | split | dsimp only

theorem burstDone_touch {fs : List Piece} {s0 : State} {b : BId} {e_ : Nat} {s : State}
    (sub : [.out, .freeCtr, .sy, .rp, .rl, .log, .pw, .hw, .pl, .dk, .dm, .us, .ar, .tcm, .deck] ⊆ fs) (h0 : Touch fs s0 s)
    : Touch fs s0 (burstDone b e_ s) := by
  unfold burstDone
  try dsimp only
  repeat' first
    | with_reducible assumption | with_reducible refine burstWords_touch (subOf (by decide) sub) ?_
    | with_reducible refine burstFlits_touch (subOf (by decide) sub) ?_
    | with_reducible refine dmaFault_touch (subOf (by decide) sub) ?_
    | with_reducible refine burstWrite_touch (subOf (by decide) sub) ?_
    | with_reducible refine State.updDm_touch (subOf (by decide) sub) ?_
    | with_reducible refine dmaDone_touch (subOf (by decide) sub) ?_
    | with_reducible refine dmaBoundary_touch (subOf (by decide) sub) ?_ | intro _ | split
    | with_reducible refine burstWords_touch_eq (subOf (by decide) sub) (by with_reducible assumption) ?_
    | with_reducible refine burstWrite_touch_eq (subOf (by decide) sub) (by with_reducible assumption) ?_
    | with_reducible refine dmaBoundary_touch_eq (subOf (by decide) sub) (by with_reducible assumption) ?_
    | dsimp only

theorem handTimeout_touch {fs : List Piece} {s0 : State} {b : BId} {e_ : Nat} {s : State}
    (sub : [.out, .freeCtr, .rp, .log, .pl, .dk, .dm, .us] ⊆ fs) (h0 : Touch fs s0 s) : Touch fs s0 (handTimeout b e_ s) := by
  unfold handTimeout
  try dsimp only
  repeat' first
    | with_reducible assumption | with_reducible refine dmaFault_touch (subOf (by decide) sub) ?_ | intro _ | split
    | dsimp only

theorem dmResult_touch {fs : List Piece} {s0 : State} {b : BId} {e_ : Nat} {cmd : Nat} {res : Nat} {req : ReqId} {s : State}
    (sub : [.dm] ⊆ fs) (h0 : Touch fs s0 s) : Touch fs s0 (dmResult b e_ cmd res req s) := by
  unfold dmResult
  try dsimp only
  repeat' first
    | with_reducible assumption | with_reducible refine State.updDm_touch (subOf (by decide) sub) ?_ | intro _
    | split | dsimp only

theorem dmOrder_touch {fs : List Piece} {s0 : State} {b : BId} {e_ : Nat} {req : ReqId} {cmd : Nat} {refuse : Nat}
    {act : State → State} {s : State} (sub : [.dm] ⊆ fs) (hf1 : ∀ t, Touch fs s0 t → Touch fs s0 (act t)) (h0 : Touch fs s0 s)
    : Touch fs s0 (dmOrder b e_ req cmd refuse act s) := by
  unfold dmOrder
  try dsimp only
  repeat' first
    | with_reducible assumption | with_reducible refine dmResult_touch (subOf (by decide) sub) ?_
    | with_reducible apply hf1 | intro _ | split | dsimp only

theorem dmResume_touch {fs : List Piece} {s0 : State} {b : BId} {e_ : Nat} {s : State}
    (sub : [.out, .freeCtr, .rp, .log, .hw, .pl, .dk, .dm, .us, .deck] ⊆ fs) (h0 : Touch fs s0 s)
    : Touch fs s0 (dmResume b e_ s) := by
  unfold dmResume
  try dsimp only
  repeat' first
    | with_reducible assumption | with_reducible refine dmaNext_touch (subOf (by decide) sub) ?_
    | with_reducible refine State.updDm_touch (subOf (by decide) sub) ?_
    | with_reducible refine dmaResumeSlot_touch (subOf (by decide) sub) ?_ | intro _ | split | dsimp only

theorem dmSkip_touch {fs : List Piece} {s0 : State} {b : BId} {e_ : Nat} {s : State}
    (sub : [.out, .freeCtr, .rp, .log, .hw, .pl, .dk, .dm, .us, .deck] ⊆ fs) (h0 : Touch fs s0 s)
    : Touch fs s0 (dmSkip b e_ s) := by
  unfold dmSkip
  try dsimp only
  repeat' first
    | with_reducible assumption | with_reducible refine dmaNext_touch (subOf (by decide) sub) ?_
    | with_reducible refine State.updDm_touch (subOf (by decide) sub) ?_ | intro _ | split | dsimp only

theorem dmFlush_touch {fs : List Piece} {s0 : State} {b : BId} {e_ : Nat} {s : State} (sub : [.dm] ⊆ fs) (h0 : Touch fs s0 s)
    : Touch fs s0 (dmFlush b e_ s) := by
  unfold dmFlush
  try dsimp only
  repeat' first
    | with_reducible assumption | with_reducible refine State.updDm_touch (subOf (by decide) sub) ?_
    | with_reducible refine Touch.foldl ?_ ?_ | with_reducible refine Touch.foldl2 ?_ ?_ | intro _ | split | dsimp only

theorem dmPreempt_touch {fs : List Piece} {s0 : State} {b : BId} {e_ : Nat} {i : Nat} {s : State}
    (sub : [.out, .freeCtr, .rp, .log, .hw, .pl, .dk, .dm, .us, .deck] ⊆ fs) (h0 : Touch fs s0 s)
    : Touch fs s0 (dmPreempt b e_ i s) := by
  unfold dmPreempt
  try dsimp only
  repeat' first
    | with_reducible assumption | with_reducible refine State.updDm_touch (subOf (by decide) sub) ?_
    | with_reducible refine dmaNext_touch (subOf (by decide) sub) ?_
    | with_reducible refine dmaBoundary_touch (subOf (by decide) sub) ?_ | intro _ | split
    | with_reducible refine dmaBoundary_touch_eq (subOf (by decide) sub) (by with_reducible assumption) ?_
    | dsimp only

theorem dmaResume_touch {fs : List Piece} {s0 : State} {b : BId} {e_ : Nat} {req : ReqId} {s : State}
    (sub : [.out, .freeCtr, .rp, .log, .hw, .pl, .dk, .dm, .us, .deck] ⊆ fs) (h0 : Touch fs s0 s)
    : Touch fs s0 (dmaResume b e_ req s) := by
  unfold dmaResume
  try dsimp only
  repeat' first
    | with_reducible assumption | with_reducible refine dmOrder_touch (subOf (by decide) sub) ?_ ?_
    | with_reducible refine dmResume_touch (subOf (by decide) sub) ?_ | intro _ | split | dsimp only

theorem dmaSkip_touch {fs : List Piece} {s0 : State} {b : BId} {e_ : Nat} {req : ReqId} {s : State}
    (sub : [.out, .freeCtr, .rp, .log, .hw, .pl, .dk, .dm, .us, .deck] ⊆ fs) (h0 : Touch fs s0 s)
    : Touch fs s0 (dmaSkip b e_ req s) := by
  unfold dmaSkip
  try dsimp only
  repeat' first
    | with_reducible assumption | with_reducible refine dmOrder_touch (subOf (by decide) sub) ?_ ?_
    | with_reducible refine dmSkip_touch (subOf (by decide) sub) ?_ | intro _ | split | dsimp only

theorem dmaFlush_touch {fs : List Piece} {s0 : State} {b : BId} {e_ : Nat} {req : ReqId} {s : State} (sub : [.dm] ⊆ fs) (h0
    : Touch fs s0 s) : Touch fs s0 (dmaFlush b e_ req s) := by
  unfold dmaFlush
  try dsimp only
  repeat' first
    | with_reducible assumption | with_reducible refine dmOrder_touch (subOf (by decide) sub) ?_ ?_
    | with_reducible refine dmFlush_touch (subOf (by decide) sub) ?_ | intro _ | split | dsimp only

theorem dmaPreempt_touch {fs : List Piece} {s0 : State} {b : BId} {e_ : Nat} {req : ReqId} {i : Nat} {s : State}
    (sub : [.out, .freeCtr, .rp, .log, .hw, .pl, .dk, .dm, .us, .deck] ⊆ fs) (h0 : Touch fs s0 s)
    : Touch fs s0 (dmaPreempt b e_ req i s) := by
  unfold dmaPreempt
  try dsimp only
  repeat' first
    | with_reducible assumption | with_reducible refine dmOrder_touch (subOf (by decide) sub) ?_ ?_
    | with_reducible refine dmPreempt_touch (subOf (by decide) sub) ?_ | intro _ | split | dsimp only
end Sys2Proof.Machine
end

