-- ==== Sys2Proof/Laws/Touch/Unretire.lean ====
section
/-! SUPPORT. What each operation of Machine/Unretire.lean can touch. -/
set_option linter.unusedTactic false
set_option linter.unreachableTactic false
namespace Sys2Proof.Machine

theorem updHl_touch {fs : List Piece} {s0 : State} {h : BId} {f : TrayHl → TrayHl} {s : State} (sub : [.tray] ⊆ fs) (h0
    : Touch fs s0 s) : Touch fs s0 (updHl h f s) := by
  unfold updHl
  try dsimp only
  repeat' first
    | with_reducible assumption | with_reducible refine State.updTray_touch (subOf (by decide) sub) ?_ | intro _
    | split | dsimp only

theorem logUnret_touch {fs : List Piece} {s0 : State} {h : BId} {result : Nat} {s : State}
    (sub : [.out, .freeCtr, .rp, .log, .dk, .us] ⊆ fs) (h0 : Touch fs s0 s) : Touch fs s0 (logUnret h result s) := by
  unfold logUnret
  try dsimp only
  repeat' first
    | with_reducible assumption | with_reducible refine logRec_touch (subOf (by decide) sub) ?_ | intro _ | split
    | dsimp only

theorem unretEnd_touch {fs : List Piece} {s0 : State} {h : BId} {result : Nat} {s : State}
    (sub : [.out, .freeCtr, .rp, .log, .dk, .us, .tray] ⊆ fs) (h0 : Touch fs s0 s) : Touch fs s0 (unretEnd h result s) := by
  unfold unretEnd
  try dsimp only
  repeat' first
    | with_reducible assumption | with_reducible refine updHl_touch (subOf (by decide) sub) ?_
    | with_reducible refine logUnret_touch (subOf (by decide) sub) ?_ | intro _ | split | dsimp only

theorem unretPort_touch {fs : List Piece} {s0 : State} {n : BId} {p : Nat} {s : State} (sub : [.rp] ⊆ fs) (h0 : Touch fs s0 s)
    : Touch fs s0 (unretPort n p s) := by
  unfold unretPort
  try dsimp only
  repeat' first
    | with_reducible assumption | with_reducible refine updPort_touch (subOf (by decide) sub) ?_ | intro _ | split
    | dsimp only

theorem unretTideIn_touch {fs : List Piece} {s0 : State} {n : BId} {s : State} (sub : [.td] ⊆ fs) (h0 : Touch fs s0 s)
    : Touch fs s0 (unretTideIn n s) := by
  unfold unretTideIn
  try dsimp only
  repeat' first
    | with_reducible assumption | with_reducible refine updTd_touch (subOf (by decide) sub) ?_ | intro _ | split
    | dsimp only

theorem unretBerth_touch {fs : List Piece} {s0 : State} {n : BId} {s : State}
    (sub : [.freeCtr, .sy, .rp, .td, .ch, .rl, .log, .pw, .hw, .svc, .cl, .pl, .dk, .dm, .tw, .us, .ar, .pg, .hl, .tray, .tcm, .deck, .flash] ⊆ fs)
    (h0 : Touch fs s0 s) : Touch fs s0 (unretBerth n s) := by
  unfold unretBerth
  try dsimp only
  repeat' first
    | with_reducible assumption
    | exact ⟨fun f nf => by cases f <;> first | exact absurd (sub (by decide)) nf | exact True.intro | exact rfl, fun h => by rw [Berth.memCanonical_iff] at *; exact ⟨rfl, rfl, h.2.2⟩⟩
    | with_reducible refine flashCut_touch (subOf (by decide) sub) ?_
    | with_reducible refine tideStart_touch (subOf (by decide) sub) ?_ | intro _ | split
    | with_reducible refine Touch.upd ?_ ?_
    | (refine TouchB.mk (fun f nf => ?_) (Berth.memCanonical_same rfl rfl rfl); cases f <;> first | exact absurd (sub (by decide)) nf | exact True.intro | exact rfl)
    | dsimp only

theorem unretSlot_touch {fs : List Piece} {s0 : State} {n : BId} {s : State}
    (sub : [.out, .freeCtr, .rp, .rl, .log, .hw, .pl, .dk, .us] ⊆ fs) (h0 : Touch fs s0 s) : Touch fs s0 (unretSlot n s) := by
  unfold unretSlot
  try dsimp only
  repeat' first
    | with_reducible assumption | with_reducible refine State.updRl_touch (subOf (by decide) sub) ?_
    | with_reducible refine State.updHw_touch (subOf (by decide) sub) ?_
    | with_reducible refine slotDown_touch (subOf (by decide) sub) ?_
    | with_reducible refine setLink_touch (subOf (by decide) sub) ?_ | intro _ | split | dsimp only

theorem unretAvs_touch {fs : List Piece} {s0 : State} {n : BId} {c : Nat} {s : State} (sub : [.out, .rl, .pw, .hw] ⊆ fs) (h0
    : Touch fs s0 s) : Touch fs s0 (unretAvs n c s) := by
  unfold unretAvs
  try dsimp only
  repeat' first
    | with_reducible assumption | with_reducible refine updAvs_touch (subOf (by decide) sub) ?_
    | with_reducible refine State.updPart_touch (subOf (by decide) sub) ?_
    | with_reducible refine writeTarget_touch (subOf (by decide) sub) ?_
    | with_reducible refine capsChanged_touch (subOf (by decide) sub) ?_ | with_reducible refine Touch.iter ?_ ?_
    | intro _ | split | dsimp only

theorem unretCool_touch {fs : List Piece} {s0 : State} {n : BId} {c : Nat} {s : State} (sub : [.out, .rp, .cl, .pl] ⊆ fs) (h0
    : Touch fs s0 s) : Touch fs s0 (unretCool n c s) := by
  unfold unretCool
  try dsimp only
  repeat' first
    | with_reducible assumption | with_reducible refine irq_touch (subOf (by decide) sub) ?_
    | with_reducible refine kickStart_touch (subOf (by decide) sub) ?_
    | with_reducible refine updCool_touch (subOf (by decide) sub) ?_ | intro _ | split | dsimp only

theorem unretRope_touch {fs : List Piece} {s0 : State} {n : BId} {r : Nat} {s : State} (sub : [.out, .rp, .cl, .pl] ⊆ fs) (h0
    : Touch fs s0 s) : Touch fs s0 (unretRope n r s) := by
  unfold unretRope
  try dsimp only
  repeat' first
    | with_reducible assumption | with_reducible refine irq_touch (subOf (by decide) sub) ?_
    | with_reducible refine ropeTell_touch (subOf (by decide) sub) ?_
    | with_reducible refine updRope_touch (subOf (by decide) sub) ?_ | intro _ | split | dsimp only

theorem unretColumn_touch {fs : List Piece} {s0 : State} {n : BId} {i : Nat} {s : State} (sub : [.ar] ⊆ fs) (h0
    : Touch fs s0 s) : Touch fs s0 (unretColumn n i s) := by
  unfold unretColumn
  try dsimp only
  repeat' first
    | with_reducible assumption | with_reducible refine updArr_touch (subOf (by decide) sub) ?_ | intro _ | split
    | dsimp only

theorem unretArray_touch {fs : List Piece} {s0 : State} {n : BId} {k : Nat} {s : State} (sub : [.ar] ⊆ fs) (h0
    : Touch fs s0 s) : Touch fs s0 (unretArray n k s) := by
  unfold unretArray
  try dsimp only
  repeat' first
    | with_reducible assumption | with_reducible refine updArr_touch (subOf (by decide) sub) ?_ | intro _ | split
    | dsimp only

theorem unretDma_touch {fs : List Piece} {s0 : State} {n : BId} {e_ : Nat} {s : State} (sub : [.dm] ⊆ fs) (h0 : Touch fs s0 s)
    : Touch fs s0 (unretDma n e_ s) := by
  unfold unretDma
  try dsimp only
  repeat' first
    | with_reducible assumption | with_reducible refine State.updDm_touch (subOf (by decide) sub) ?_
    | with_reducible refine dmFlush_touch (subOf (by decide) sub) ?_ | intro _ | split | dsimp only

theorem unretTwi_touch {fs : List Piece} {s0 : State} {n : BId} {s : State} (sub : [.tw] ⊆ fs) (h0 : Touch fs s0 s)
    : Touch fs s0 (unretTwi n s) := by
  unfold unretTwi
  try dsimp only
  repeat' first
    | with_reducible assumption | with_reducible refine updTw_touch (subOf (by decide) sub) ?_ | intro _ | split
    | dsimp only

theorem unretPilot_touch {fs : List Piece} {s0 : State} {n : BId} {s : State} (sub : [.pl] ⊆ fs) (h0 : Touch fs s0 s)
    : Touch fs s0 (unretPilot n s) := by
  unfold unretPilot
  try dsimp only
  repeat' first
    | with_reducible assumption | with_reducible refine State.updPl_touch (subOf (by decide) sub) ?_ | intro _
    | split | dsimp only

theorem unretCore_touch {fs : List Piece} {s0 : State} {n : BId} {c : Nat} {s : State} (sub : [.svc] ⊆ fs) (h0
    : Touch fs s0 s) : Touch fs s0 (unretCore n c s) := by
  unfold unretCore
  try dsimp only
  repeat' first
    | with_reducible assumption | with_reducible refine State.updSvc_touch (subOf (by decide) sub) ?_ | intro _
    | split | dsimp only

theorem unretAct_touch {fs : List Piece} {s0 : State} {n : BId} {kind : Nat} {index : Nat} {s : State}
    (sub : [.out, .freeCtr, .sy, .rp, .td, .ch, .rl, .log, .pw, .hw, .svc, .cl, .pl, .dk, .dm, .tw, .us, .ar, .pg, .hl, .tray, .tcm, .deck, .flash] ⊆ fs)
    (h0 : Touch fs s0 s) : Touch fs s0 (unretAct n kind index s) := by
  unfold unretAct
  try dsimp only
  repeat' first
    | with_reducible assumption | with_reducible refine unretPort_touch (subOf (by decide) sub) ?_
    | with_reducible refine unretTideIn_touch (subOf (by decide) sub) ?_
    | with_reducible refine unretBerth_touch (subOf (by decide) sub) ?_
    | with_reducible refine unretSlot_touch (subOf (by decide) sub) ?_
    | with_reducible refine unretAvs_touch (subOf (by decide) sub) ?_
    | with_reducible refine unretCool_touch (subOf (by decide) sub) ?_
    | with_reducible refine unretRope_touch (subOf (by decide) sub) ?_
    | with_reducible refine unretColumn_touch (subOf (by decide) sub) ?_
    | with_reducible refine unretArray_touch (subOf (by decide) sub) ?_
    | with_reducible refine unretDma_touch (subOf (by decide) sub) ?_
    | with_reducible refine unretTwi_touch (subOf (by decide) sub) ?_
    | with_reducible refine unretPilot_touch (subOf (by decide) sub) ?_
    | with_reducible refine unretCore_touch (subOf (by decide) sub) ?_ | intro _ | split | dsimp only

theorem unretire_touch {fs : List Piece} {s0 : State} {kind : Nat} {req : ReqId} {n : BId} {guard : Nat} {s : State}
    (sub : [.out, .freeCtr, .sy, .rp, .td, .ch, .rl, .log, .pw, .hw, .svc, .cl, .pl, .dk, .dm, .tw, .us, .ar, .pg, .hl, .tray, .tcm, .deck, .flash] ⊆ fs)
    (h0 : Touch fs s0 s) : Touch fs s0 (unretire kind req n guard s) := by
  unfold unretire
  try dsimp only
  repeat' first
    | with_reducible assumption | with_reducible refine updHl_touch (subOf (by decide) sub) ?_
    | with_reducible refine unretAct_touch (subOf (by decide) sub) ?_
    | with_reducible refine logUnret_touch (subOf (by decide) sub) ?_ | intro _ | split | dsimp only

theorem clearRet_touch {fs : List Piece} {s0 : State} {h : BId} {s : State} (sub : [.tray] ⊆ fs) (h0 : Touch fs s0 s)
    : Touch fs s0 (clearRet h s) := by
  unfold clearRet
  try dsimp only
  repeat' first
    | with_reducible assumption | with_reducible refine updHl_touch (subOf (by decide) sub) ?_ | intro _ | split
    | dsimp only

theorem unretAck_touch {fs : List Piece} {s0 : State} {h : BId} {s : State}
    (sub : [.out, .freeCtr, .rp, .log, .dk, .us, .tray] ⊆ fs) (h0 : Touch fs s0 s) : Touch fs s0 (unretAck h s) := by
  unfold unretAck
  try dsimp only
  repeat' first
    | with_reducible assumption | with_reducible refine unretEnd_touch (subOf (by decide) sub) ?_
    | with_reducible refine clearRet_touch (subOf (by decide) sub) ?_ | intro _ | split | dsimp only

theorem unretAckTimeout_touch {fs : List Piece} {s0 : State} {h : BId} {s : State}
    (sub : [.out, .freeCtr, .rp, .log, .dk, .us, .tray] ⊆ fs) (h0 : Touch fs s0 s) : Touch fs s0 (unretAckTimeout h s) := by
  unfold unretAckTimeout
  try dsimp only
  repeat' first
    | with_reducible assumption | with_reducible refine unretEnd_touch (subOf (by decide) sub) ?_ | intro _ | split
    | dsimp only

theorem admitTimeout_touch {fs : List Piece} {s0 : State} {h : BId} {s : State}
    (sub : [.out, .freeCtr, .sy, .rp, .log, .dk, .us, .tray] ⊆ fs) (h0 : Touch fs s0 s) : Touch fs s0 (admitTimeout h s) := by
  unfold admitTimeout
  try dsimp only
  repeat' first
    | with_reducible assumption | with_reducible refine unretEnd_touch (subOf (by decide) sub) ?_
    | with_reducible refine updSy_touch (subOf (by decide) sub) ?_ | intro _ | split | dsimp only

theorem admitBerth_touch {fs : List Piece} {s0 : State} {h : BId} {n : BId} {s : State}
    (sub : [.out, .freeCtr, .dev, .sy, .rp, .ch, .log, .dk, .us, .tray] ⊆ fs) (h0 : Touch fs s0 s)
    : Touch fs s0 (admitBerth h n s) := by
  unfold admitBerth
  try dsimp only
  repeat' first
    | with_reducible assumption | with_reducible refine updSy_touch (subOf (by decide) sub) ?_
    | with_reducible refine updDev_touch (subOf (by decide) sub) ?_
    | with_reducible refine updHl_touch (subOf (by decide) sub) ?_
    | with_reducible refine unretEnd_touch (subOf (by decide) sub) ?_
    | with_reducible refine redistribute_touch (subOf (by decide) sub) ?_ | intro _ | split | dsimp only
end Sys2Proof.Machine
end

