-- ==== Sys2Proof/Laws/Touch/RegWrite.lean ====
section
/-! SUPPORT. What each operation of Machine/RegWrite.lean can touch. -/
set_option linter.unusedTactic false
set_option linter.unreachableTactic false
namespace Sys2Proof.Machine

theorem snapWrite_touch {fs : List Piece} {s0 : State} {b : BId} {tray : Bool} {take : Bool} {release : Bool} {s : State}
    (sub : [.sy] ⊆ fs) (h0 : Touch fs s0 s) : Touch fs s0 (snapWrite b tray take release s) := by
  unfold snapWrite
  try dsimp only
  repeat' first
    | with_reducible assumption | with_reducible refine updSnap_touch (subOf (by decide) sub) ?_
    | with_reducible refine Touch.iter ?_ ?_ | intro _ | split | dsimp only

theorem writeSy_touch {fs : List Piece} {s0 : State} {b : BId} {tray : Bool} {req : ReqId} {off : Nat} {w : Word} {s : State}
    (sub : [.out, .freeCtr, .dev, .sy, .rp, .rl, .log, .pw, .hw, .svc, .cl, .pl, .dk, .dm, .tw, .us, .ar, .tray, .tcm, .deck] ⊆ fs)
    (h0 : Touch fs s0 s) : Touch fs s0 (writeSy b tray req off w s) := by
  unfold writeSy
  try dsimp only
  repeat' first
    | with_reducible assumption | with_reducible refine snapWrite_touch (subOf (by decide) sub) ?_
    | with_reducible refine updSnap_touch (subOf (by decide) sub) ?_
    | with_reducible refine controllerReset_touch (subOf (by decide) sub) ?_
    | with_reducible refine sleepOrder_touch (subOf (by decide) sub) ?_ | intro _ | split | dsimp only

theorem writeTd_touch {fs : List Piece} {s0 : State} {b : BId} {off : Nat} {w : Word} {s : State} (sub : [.td] ⊆ fs) (h0
    : Touch fs s0 s) : Touch fs s0 (writeTd b off w s) := by
  unfold writeTd
  try dsimp only
  repeat' first
    | with_reducible assumption | with_reducible refine updTd_touch (subOf (by decide) sub) ?_ | intro _ | split
    | dsimp only

theorem writeCh_touch {fs : List Piece} {s0 : State} {b : BId} {tray : Bool} {req : ReqId} {off : Nat} {w : Word} {s : State}
    (sub : [.sy, .ch, .tray] ⊆ fs) (h0 : Touch fs s0 s) : Touch fs s0 (writeCh b tray req off w s) := by
  unfold writeCh
  try dsimp only
  repeat' first
    | with_reducible assumption | with_reducible refine chCmd_touch (subOf (by decide) sub) ?_
    | with_reducible refine updCh_touch (subOf (by decide) sub) ?_ | intro _ | split | dsimp only

theorem writeDk_touch {fs : List Piece} {s0 : State} {b : BId} {req : ReqId} {off : Nat} {w : Word} {s : State}
    (sub : [.dk] ⊆ fs) (h0 : Touch fs s0 s) : Touch fs s0 (writeDk b req off w s) := by
  unfold writeDk
  try dsimp only
  repeat' first
    | with_reducible assumption | with_reducible refine freeWrite_touch (subOf (by decide) sub) ?_
    | with_reducible refine State.updDk_touch (subOf (by decide) sub) ?_ | intro _ | split | dsimp only

theorem ordWrite_touch {fs : List Piece} {s0 : State} {b : BId} {req : ReqId} {w : Word} {s : State} (sub : [.hw] ⊆ fs) (h0
    : Touch fs s0 s) : Touch fs s0 (ordWrite b req w s) := by
  unfold ordWrite
  try dsimp only
  repeat' first
    | with_reducible assumption | with_reducible refine mailboxOrder_touch (subOf (by decide) sub) ?_
    | with_reducible refine ordResult_touch (subOf (by decide) sub) ?_ | intro _ | split | dsimp only

theorem writeSvc_touch {fs : List Piece} {s0 : State} {b : BId} {req : ReqId} {off : Nat} {w : Word} {s : State}
    (sub : [.out, .freeCtr, .rp, .log, .pw, .hw, .svc, .pl, .dk, .dm, .tw, .us, .tcm, .deck] ⊆ fs) (h0 : Touch fs s0 s)
    : Touch fs s0 (writeSvc b req off w s) := by
  unfold writeSvc
  try dsimp only
  repeat' first
    | with_reducible assumption | with_reducible refine bringUp_touch (subOf (by decide) sub) ?_
    | with_reducible refine serviceReset_touch (subOf (by decide) sub) ?_
    | with_reducible refine svcAbort_touch (subOf (by decide) sub) ?_
    | with_reducible refine State.updSvc_touch (subOf (by decide) sub) ?_ | intro _ | split | dsimp only

theorem writeHw_touch {fs : List Piece} {s0 : State} {b : BId} {req : ReqId} {off : Nat} {w : Word} {s : State}
    (sub : [.out, .freeCtr, .rp, .log, .pw, .hw, .svc, .pl, .dk, .dm, .tw, .us, .tcm, .deck] ⊆ fs) (h0 : Touch fs s0 s)
    : Touch fs s0 (writeHw b req off w s) := by
  unfold writeHw
  try dsimp only
  repeat' first
    | with_reducible assumption | with_reducible refine State.updHw_touch (subOf (by decide) sub) ?_
    | with_reducible refine hwStart_touch (subOf (by decide) sub) ?_
    | with_reducible refine hwStop_touch (subOf (by decide) sub) ?_
    | with_reducible refine hwRetrainCmd_touch (subOf (by decide) sub) ?_
    | with_reducible refine ordWrite_touch (subOf (by decide) sub) ?_
    | with_reducible refine writeSvc_touch (subOf (by decide) sub) ?_ | intro _ | split | dsimp only

theorem writeRl_touch {fs : List Piece} {s0 : State} {b : BId} {req : ReqId} {off : Nat} {w : Word} {s : State}
    (sub : [.out, .freeCtr, .rp, .rl, .log, .pw, .hw, .svc, .cl, .pl, .dk, .dm, .tw, .us, .tray, .tcm, .deck] ⊆ fs) (h0
    : Touch fs s0 s) : Touch fs s0 (writeRl b req off w s) := by
  unfold writeRl
  try dsimp only
  repeat' first
    | with_reducible assumption | with_reducible refine powerUp_touch (subOf (by decide) sub) ?_
    | with_reducible refine slotShutdown_touch (subOf (by decide) sub) ?_
    | with_reducible refine thresholdWrite_touch (subOf (by decide) sub) ?_
    | with_reducible refine State.updRl_touch (subOf (by decide) sub) ?_ | intro _ | split | dsimp only

theorem writePwTray_touch {fs : List Piece} {s0 : State} {h : BId} {req : ReqId} {off : Nat} {w : Word} {s : State}
    (sub : [.out, .freeCtr, .rp, .log, .pw, .dk, .tw, .us, .tray] ⊆ fs) (h0 : Touch fs s0 s)
    : Touch fs s0 (writePwTray h req off w s) := by
  unfold writePwTray
  try dsimp only
  repeat' first
    | with_reducible assumption | with_reducible refine budgetWrite_touch (subOf (by decide) sub) ?_
    | with_reducible refine State.updTray_touch (subOf (by decide) sub) ?_
    | with_reducible refine grantReqSet_touch (subOf (by decide) sub) ?_ | intro _ | split | dsimp only

theorem writePw_touch {fs : List Piece} {s0 : State} {b : BId} {req : ReqId} {off : Nat} {w : Word} {s : State}
    (sub : [.out, .rl, .pw, .hw, .tray] ⊆ fs) (h0 : Touch fs s0 s) : Touch fs s0 (writePw b req off w s) := by
  unfold writePw
  try dsimp only
  repeat' first
    | with_reducible assumption | with_reducible refine State.updPw_touch (subOf (by decide) sub) ?_
    | with_reducible refine admitCancel_touch (subOf (by decide) sub) ?_
    | with_reducible refine admitReq_touch (subOf (by decide) sub) ?_
    | with_reducible refine retarget_touch (subOf (by decide) sub) ?_
    | with_reducible refine opReqSet_touch (subOf (by decide) sub) ?_ | with_reducible refine Touch.iter ?_ ?_
    | intro _ | split | dsimp only

theorem writeCl_touch {fs : List Piece} {s0 : State} {b : BId} {req : ReqId} {off : Nat} {w : Word} {s : State}
    (sub : [.cl] ⊆ fs) (h0 : Touch fs s0 s) : Touch fs s0 (writeCl b req off w s) := by
  unfold writeCl
  try dsimp only
  repeat' first
    | with_reducible assumption | with_reducible refine updCool_touch (subOf (by decide) sub) ?_
    | with_reducible refine dutyWrite_touch (subOf (by decide) sub) ?_ | intro _ | split | dsimp only

theorem writeLk_touch {fs : List Piece} {s0 : State} {b : BId} {req : ReqId} {off : Nat} {w : Word} {s : State}
    (sub : [.out, .freeCtr, .rp, .log, .cl, .dk, .us] ⊆ fs) (h0 : Touch fs s0 s) : Touch fs s0 (writeLk b req off w s) := by
  unfold writeLk
  try dsimp only
  repeat' first
    | with_reducible assumption | with_reducible refine lkClear_touch (subOf (by decide) sub) ?_
    | with_reducible refine updRope_touch (subOf (by decide) sub) ?_
    | with_reducible refine State.updCl_touch (subOf (by decide) sub) ?_ | intro _ | split | dsimp only

theorem writeAr_touch {fs : List Piece} {s0 : State} {b : BId} {req : ReqId} {off : Nat} {w : Word} {s : State}
    (sub : [.out, .freeCtr, .sy, .rp, .rl, .log, .pw, .hw, .cl, .pl, .dk, .tw, .us, .ar, .pg, .tray, .deck] ⊆ fs) (h0
    : Touch fs s0 s) : Touch fs s0 (writeAr b req off w s) := by
  unfold writeAr
  try dsimp only
  repeat' first
    | with_reducible assumption | with_reducible refine updAr_touch (subOf (by decide) sub) ?_
    | with_reducible refine afterArray_touch (subOf (by decide) sub) ?_
    | with_reducible refine arAbort_touch (subOf (by decide) sub) ?_
    | with_reducible refine arOrder_touch (subOf (by decide) sub) ?_ | intro _ | split | dsimp only

theorem writePg_touch {fs : List Piece} {s0 : State} {b : BId} {req : ReqId} {off : Nat} {w : Word} {s : State}
    (sub : [.out, .freeCtr, .sy, .rp, .rl, .log, .pw, .hw, .cl, .pl, .dk, .tw, .us, .ar, .pg, .tray, .deck] ⊆ fs) (h0
    : Touch fs s0 s) : Touch fs s0 (writePg b req off w s) := by
  unfold writePg
  try dsimp only
  repeat' first
    | with_reducible assumption | with_reducible refine unload_touch (subOf (by decide) sub) ?_
    | with_reducible refine promote_touch (subOf (by decide) sub) ?_
    | with_reducible refine pgOrder_touch (subOf (by decide) sub) ?_ ?_
    | with_reducible refine clearStats_touch (subOf (by decide) sub) ?_
    | with_reducible refine replaceOrder_touch (subOf (by decide) sub) ?_
    | with_reducible refine updPg_touch (subOf (by decide) sub) ?_ | intro _ | split | dsimp only

theorem writePl_touch {fs : List Piece} {s0 : State} {b : BId} {req : ReqId} {off : Nat} {w : Word} {s : State}
    (sub : [.out, .freeCtr, .sy, .rp, .log, .hw, .pl, .dk, .dm, .us, .tray, .deck] ⊆ fs) (h0 : Touch fs s0 s)
    : Touch fs s0 (writePl b req off w s) := by
  unfold writePl
  try dsimp only
  repeat' first
    | with_reducible assumption | with_reducible refine restartOrder_touch (subOf (by decide) sub) ?_
    | with_reducible refine State.updPl_touch (subOf (by decide) sub) ?_
    | with_reducible refine watchdogKick_touch (subOf (by decide) sub) ?_
    | with_reducible refine msipWrite_touch (subOf (by decide) sub) ?_
    | with_reducible refine loadOrder_touch (subOf (by decide) sub) ?_ | intro _ | split | dsimp only

theorem descWrite_touch {fs : List Piece} {s0 : State} {b : BId} {e_ : Nat} {i : Nat} {k : Nat} {req : ReqId} {w : Word}
    {s : State} (sub : [.dm] ⊆ fs) (h0 : Touch fs s0 s) : Touch fs s0 (descWrite b e_ i k req w s) := by
  unfold descWrite
  try dsimp only
  repeat' first
    | with_reducible assumption | with_reducible refine State.updDm_touch (subOf (by decide) sub) ?_ | intro _
    | split | dsimp only

theorem writeDm_touch {fs : List Piece} {s0 : State} {b : BId} {req : ReqId} {off : Nat} {w : Word} {s : State}
    (sub : [.out, .freeCtr, .rp, .log, .hw, .pl, .dk, .dm, .us, .deck] ⊆ fs) (h0 : Touch fs s0 s)
    : Touch fs s0 (writeDm b req off w s) := by
  unfold writeDm
  try dsimp only
  repeat' first
    | with_reducible assumption | with_reducible refine dmaResume_touch (subOf (by decide) sub) ?_
    | with_reducible refine dmaSkip_touch (subOf (by decide) sub) ?_
    | with_reducible refine dmaFlush_touch (subOf (by decide) sub) ?_
    | with_reducible refine dmaPreempt_touch (subOf (by decide) sub) ?_
    | with_reducible refine tailWrite_touch (subOf (by decide) sub) ?_
    | with_reducible refine descWrite_touch (subOf (by decide) sub) ?_ | intro _ | split | dsimp only

theorem writeTw_touch {fs : List Piece} {s0 : State} {b : BId} {req : ReqId} {off : Nat} {w : Word} {s : State}
    (sub : [.freeCtr, .dk, .tw, .us] ⊆ fs) (h0 : Touch fs s0 s) : Touch fs s0 (writeTw b req off w s) := by
  unfold writeTw
  try dsimp only
  repeat' first
    | with_reducible assumption | with_reducible refine updTw_touch (subOf (by decide) sub) ?_
    | with_reducible refine twAttnSet_touch (subOf (by decide) sub) ?_ | intro _ | split | dsimp only

theorem writeUs_touch {fs : List Piece} {s0 : State} {b : BId} {req : ReqId} {off : Nat} {w : Word} {s : State}
    (sub : [.out, .freeCtr, .rp, .log, .dk, .us] ⊆ fs) (h0 : Touch fs s0 s) : Touch fs s0 (writeUs b req off w s) := by
  unfold writeUs
  try dsimp only
  repeat' first
    | with_reducible assumption | with_reducible refine usbFollow_touch (subOf (by decide) sub) ?_
    | with_reducible refine updUs_touch (subOf (by decide) sub) ?_
    | with_reducible refine telPush_touch (subOf (by decide) sub) ?_ | intro _ | split | dsimp only

theorem writeHlTray_touch {fs : List Piece} {s0 : State} {h : BId} {req : ReqId} {off : Nat} {w : Word} {s : State}
    (sub : [.out, .freeCtr, .sy, .rp, .td, .ch, .rl, .log, .pw, .hw, .svc, .cl, .pl, .dk, .dm, .tw, .us, .ar, .pg, .hl, .tray, .tcm, .deck, .flash] ⊆ fs)
    (h0 : Touch fs s0 s) : Touch fs s0 (writeHlTray h req off w s) := by
  unfold writeHlTray
  try dsimp only
  repeat' first
    | with_reducible assumption | with_reducible refine updHl_touch (subOf (by decide) sub) ?_
    | with_reducible refine unretire_touch (subOf (by decide) sub) ?_ | intro _ | split | dsimp only

theorem writeHl_touch {fs : List Piece} {s0 : State} {b : BId} {req : ReqId} {off : Nat} {w : Word} {s : State}
    (sub : [.hl] ⊆ fs) (h0 : Touch fs s0 s) : Touch fs s0 (writeHl b req off w s) := by
  unfold writeHl
  try dsimp only
  repeat' first
    | with_reducible assumption | intro _ | split | with_reducible refine Touch.upd ?_ ?_
    | (refine TouchB.mk (fun f nf => ?_) (Berth.memCanonical_same rfl rfl rfl); cases f <;> first | exact absurd (sub (by decide)) nf | exact True.intro | exact rfl)
    | dsimp only

theorem regWrite_touch {fs : List Piece} {s0 : State} {b : BId} {tray : Bool} {req : ReqId} {blk : Nat} {off : Nat} {w : Word}
    {s : State}
    (sub : [.out, .freeCtr, .dev, .sy, .rp, .td, .ch, .rl, .log, .pw, .hw, .svc, .cl, .pl, .dk, .dm, .tw, .us, .ar, .pg, .hl, .tray, .tcm, .deck, .flash] ⊆ fs)
    (h0 : Touch fs s0 s) : Touch fs s0 (regWrite b tray req blk off w s) := by
  unfold regWrite
  try dsimp only
  repeat' first
    | with_reducible assumption | with_reducible refine writeSy_touch (subOf (by decide) sub) ?_
    | with_reducible refine writeTd_touch (subOf (by decide) sub) ?_
    | with_reducible refine writeCh_touch (subOf (by decide) sub) ?_
    | with_reducible refine writeDk_touch (subOf (by decide) sub) ?_
    | with_reducible refine writeHw_touch (subOf (by decide) sub) ?_
    | with_reducible refine writeRl_touch (subOf (by decide) sub) ?_
    | with_reducible refine writePwTray_touch (subOf (by decide) sub) ?_
    | with_reducible refine writePw_touch (subOf (by decide) sub) ?_
    | with_reducible refine writeCl_touch (subOf (by decide) sub) ?_
    | with_reducible refine writeLk_touch (subOf (by decide) sub) ?_
    | with_reducible refine writeAr_touch (subOf (by decide) sub) ?_
    | with_reducible refine writePg_touch (subOf (by decide) sub) ?_
    | with_reducible refine writePl_touch (subOf (by decide) sub) ?_
    | with_reducible refine writeDm_touch (subOf (by decide) sub) ?_
    | with_reducible refine writeTw_touch (subOf (by decide) sub) ?_
    | with_reducible refine writeUs_touch (subOf (by decide) sub) ?_
    | with_reducible refine writeHlTray_touch (subOf (by decide) sub) ?_
    | with_reducible refine writeHl_touch (subOf (by decide) sub) ?_ | intro _ | split | dsimp only

theorem writeAt_touch {fs : List Piece} {s0 : State} {w : Who} {b : BId} {r : Reach} {size : Nat} {v : Word} {s : State}
    (sub : [.out, .freeCtr, .dev, .sy, .rp, .td, .ch, .rl, .log, .pw, .hw, .svc, .cl, .pl, .dk, .dm, .tw, .us, .ar, .pg, .hl, .tray, .tcm, .deck, .flash] ⊆ fs)
    (h0 : Touch fs s0 s) : Touch fs s0 (writeAt w b r size v s) := by
  unfold writeAt
  try dsimp only
  repeat' first
    | with_reducible assumption | with_reducible refine regWrite_touch (subOf (by decide) sub) ?_
    | with_reducible refine memAt_touch (subOf (by decide) sub) ?_ | intro _ | split | dsimp only

theorem writeAccess_touch {fs : List Piece} {s0 : State} {w : Who} {a : Nat} {size : Nat} {v : Word} {s : State}
    (sub : [.out, .freeCtr, .dev, .sy, .rp, .td, .ch, .rl, .log, .pw, .hw, .svc, .cl, .pl, .dk, .dm, .tw, .us, .ar, .pg, .hl, .tray, .tcm, .deck, .flash] ⊆ fs)
    (h0 : Touch fs s0 s) : Touch fs s0 (writeAccess w a size v s).2 := by
  unfold writeAccess
  try dsimp only
  repeat' first
    | with_reducible assumption | with_reducible refine recordErr_touch (subOf (by decide) sub) ?_
    | with_reducible refine writeAt_touch (subOf (by decide) sub) ?_ | intro _ | split | dsimp only

theorem writeAccess_touch_eq {fs : List Piece} {s0 : State} {w : Who} {a : Nat} {size : Nat} {v : Word} {s : State} {r0}
    {t : State}
    (sub : [.out, .freeCtr, .dev, .sy, .rp, .td, .ch, .rl, .log, .pw, .hw, .svc, .cl, .pl, .dk, .dm, .tw, .us, .ar, .pg, .hl, .tray, .tcm, .deck, .flash] ⊆ fs)
    (eq_ : writeAccess w a size v s = (r0, t)) (h0 : Touch fs s0 s) : Touch fs s0 t := by
  have := @writeAccess_touch fs s0 w a size v s sub  h0
  rw [eq_] at this; exact this
end Sys2Proof.Machine
end

