-- ==== Sys2Proof/Laws/Touch/Access.lean ====
section
/-! SUPPORT. What each operation of Machine/Access.lean can touch. -/
set_option linter.unusedTactic false
set_option linter.unreachableTactic false
namespace Sys2Proof.Machine

theorem hostDid_touch {fs : List Piece} {s0 : State} {req : ReqId} {s : State} (sub : [.sy] ⊆ fs) (h0 : Touch fs s0 s)
    : Touch fs s0 (hostDid req s) := by
  unfold hostDid
  try dsimp only
  repeat' first
    | with_reducible assumption | with_reducible refine updSnap_touch (subOf (by decide) sub) ?_ | intro _ | split
    | dsimp only

theorem partyWrite_touch {fs : List Piece} {s0 : State} {w : Who} {a : Nat} {v : Word} {s : State}
    (sub : [.out, .freeCtr, .dev, .sy, .rp, .td, .ch, .rl, .log, .pw, .hw, .svc, .cl, .pl, .dk, .dm, .tw, .us, .ar, .pg, .hl, .tray, .tcm, .deck, .flash] ⊆ fs)
    (h0 : Touch fs s0 s) : Touch fs s0 (partyWrite w a v s) := by
  unfold partyWrite
  try dsimp only
  repeat' first
    | with_reducible assumption | with_reducible refine writeAccess_touch (subOf (by decide) sub) ?_
    | with_reducible refine hostDid_touch (subOf (by decide) sub) ?_ | intro _ | split
    | with_reducible refine writeAccess_touch_eq (subOf (by decide) sub) (by with_reducible assumption) ?_
    | dsimp only

theorem registerWrite_touch {fs : List Piece} {s0 : State} {req : ReqId} {own : BId} {addr : Word} {val : Word} {s : State}
    (sub : [.out, .freeCtr, .dev, .sy, .rp, .td, .ch, .rl, .log, .pw, .hw, .svc, .cl, .pl, .dk, .dm, .tw, .us, .ar, .pg, .hl, .tray, .tcm, .deck, .flash] ⊆ fs)
    (h0 : Touch fs s0 s) : Touch fs s0 (registerWrite req own addr val s) := by
  unfold registerWrite
  try dsimp only
  repeat' first
    | with_reducible assumption | with_reducible refine partyWrite_touch (subOf (by decide) sub) ?_ | intro _
    | split | dsimp only

theorem partyRead_touch {fs : List Piece} {s0 : State} {req : ReqId} {own : BId} {addr : Word} {sel : Nat → Bool}
    {rd : BId → Bool → Nat → Nat → State → Word × State} {s : State} (sub : [.out, .sy] ⊆ fs)
    (hf1 : ∀ x0 x1 x2 x3 t, Touch fs s0 t → Touch fs s0 (rd x0 x1 x2 x3 t).2) (h0 : Touch fs s0 s)
    : Touch fs s0 (partyRead req own addr sel rd s) := by
  unfold partyRead
  try dsimp only
  repeat' first
    | with_reducible assumption | with_reducible refine State.emit_touch (subOf (by decide) sub) ?_
    | with_reducible refine recordErr_touch (subOf (by decide) sub) ?_
    | with_reducible refine hostDid_touch (subOf (by decide) sub) ?_ | with_reducible apply hf1 | intro _ | split
    | dsimp only

theorem snapTake_touch {fs : List Piece} {s0 : State} {req : ReqId} {own : BId} {n : Option BId} {s : State}
    (sub : [.out, .freeCtr, .dev, .sy, .rp, .td, .ch, .rl, .log, .pw, .hw, .svc, .cl, .pl, .dk, .dm, .tw, .us, .ar, .pg, .hl, .tray, .tcm, .deck, .flash] ⊆ fs)
    (h0 : Touch fs s0 s) : Touch fs s0 (snapTake req own n s) := by
  unfold snapTake
  try dsimp only
  repeat' first
    | with_reducible assumption | with_reducible refine partyWrite_touch (subOf (by decide) sub) ?_ | intro _
    | split | dsimp only

theorem snapRelease_touch {fs : List Piece} {s0 : State} {req : ReqId} {own : BId} {n : Option BId} {s : State}
    (sub : [.out, .freeCtr, .dev, .sy, .rp, .td, .ch, .rl, .log, .pw, .hw, .svc, .cl, .pl, .dk, .dm, .tw, .us, .ar, .pg, .hl, .tray, .tcm, .deck, .flash] ⊆ fs)
    (h0 : Touch fs s0 s) : Touch fs s0 (snapRelease req own n s) := by
  unfold snapRelease
  try dsimp only
  repeat' first
    | with_reducible assumption | with_reducible refine partyWrite_touch (subOf (by decide) sub) ?_ | intro _
    | split | dsimp only

theorem snapExpiry_touch {fs : List Piece} {s0 : State} {b : BId} {s : State} (sub : [.sy] ⊆ fs) (h0 : Touch fs s0 s)
    : Touch fs s0 (snapExpiry b s) := by
  unfold snapExpiry
  try dsimp only
  repeat' first
    | with_reducible assumption | with_reducible refine updSnap_touch (subOf (by decide) sub) ?_ | intro _ | split
    | dsimp only

theorem carryOut_touch {fs : List Piece} {s0 : State} {b : BId} {r : Remote} {s : State}
    (sub : [.out, .freeCtr, .dev, .sy, .rp, .td, .ch, .rl, .log, .pw, .hw, .svc, .cl, .pl, .dk, .dm, .tw, .us, .ar, .pg, .hl, .tray, .tcm, .deck, .flash] ⊆ fs)
    (h0 : Touch fs s0 s) : Touch fs s0 (carryOut b r s).2 := by
  unfold carryOut
  try dsimp only
  repeat' first
    | with_reducible assumption | with_reducible refine writeAccess_touch (subOf (by decide) sub) ?_
    | with_reducible refine readAccess_touch (subOf (by decide) sub) ?_ | intro _ | split
    | with_reducible refine writeAccess_touch_eq (subOf (by decide) sub) (by with_reducible assumption) ?_
    | with_reducible refine readAccess_touch_eq (subOf (by decide) sub) (by with_reducible assumption) ?_
    | dsimp only

theorem carryOut_touch_eq {fs : List Piece} {s0 : State} {b : BId} {r : Remote} {s : State} {r0} {t : State}
    (sub : [.out, .freeCtr, .dev, .sy, .rp, .td, .ch, .rl, .log, .pw, .hw, .svc, .cl, .pl, .dk, .dm, .tw, .us, .ar, .pg, .hl, .tray, .tcm, .deck, .flash] ⊆ fs)
    (eq_ : carryOut b r s = (r0, t)) (h0 : Touch fs s0 s) : Touch fs s0 t := by
  have := @carryOut_touch fs s0 b r s sub  h0
  rw [eq_] at this; exact this
end Sys2Proof.Machine
end

