-- ==== Sys2Proof/Laws/Touch/Pilot.lean ====
section
/-! SUPPORT. What each operation of Machine/Pilot.lean can touch. -/
set_option linter.unusedTactic false
set_option linter.unreachableTactic false
namespace Sys2Proof.Machine

theorem raise_touch {fs : List Piece} {s0 : State} {b : BId} {code : Nat} {tval : Word} {s : State} (sub : [.pl] ⊆ fs) (h0
    : Touch fs s0 s) : Touch fs s0 (raise b code tval s) := by
  unfold raise
  try dsimp only
  repeat' first
    | with_reducible assumption | with_reducible refine State.updPl_touch (subOf (by decide) sub) ?_ | intro _
    | split | dsimp only

theorem remoteIssue_touch {fs : List Piece} {s0 : State} {b : BId} {r : Remote} {s : State} (sub : [.sy, .rp] ⊆ fs) (h0
    : Touch fs s0 s) : Touch fs s0 (remoteIssue b r s) := by
  unfold remoteIssue
  try dsimp only
  repeat' first
    | with_reducible assumption | with_reducible refine accessSend_touch (subOf (by decide) sub) ?_
    | with_reducible refine updSnap_touch (subOf (by decide) sub) ?_ | intro _ | split | dsimp only

theorem doLoad_touch {fs : List Piece} {s0 : State} {b : BId} {len : Nat} {size : Nat} {signed : Bool} {rd : Nat} {a : Word}
    {s : State} (sub : [.out, .freeCtr, .sy, .rp, .rl, .log, .pw, .hw, .pl, .dk, .dm, .us, .ar, .deck] ⊆ fs) (h0
    : Touch fs s0 s) : Touch fs s0 (doLoad b len size signed rd a s) := by
  unfold doLoad
  try dsimp only
  repeat' first
    | with_reducible assumption | with_reducible refine raise_touch (subOf (by decide) sub) ?_
    | with_reducible refine remoteIssue_touch (subOf (by decide) sub) ?_
    | with_reducible refine readAccess_touch (subOf (by decide) sub) ?_
    | with_reducible refine State.updPl_touch (subOf (by decide) sub) ?_ | intro _ | split
    | with_reducible refine readAccess_touch_eq (subOf (by decide) sub) (by with_reducible assumption) ?_
    | dsimp only

theorem doStore_touch {fs : List Piece} {s0 : State} {b : BId} {len : Nat} {size : Nat} {a : Word} {v : Word} {s : State}
    (sub : [.out, .freeCtr, .dev, .sy, .rp, .td, .ch, .rl, .log, .pw, .hw, .svc, .cl, .pl, .dk, .dm, .tw, .us, .ar, .pg, .hl, .tray, .tcm, .deck, .flash] ⊆ fs)
    (h0 : Touch fs s0 s) : Touch fs s0 (doStore b len size a v s) := by
  unfold doStore
  try dsimp only
  repeat' first
    | with_reducible assumption | with_reducible refine raise_touch (subOf (by decide) sub) ?_
    | with_reducible refine State.updPl_touch (subOf (by decide) sub) ?_
    | with_reducible refine remoteIssue_touch (subOf (by decide) sub) ?_
    | with_reducible refine writeAccess_touch (subOf (by decide) sub) ?_ | intro _ | split
    | with_reducible refine writeAccess_touch_eq (subOf (by decide) sub) (by with_reducible assumption) ?_
    | dsimp only

theorem doAtomic_touch {fs : List Piece} {s0 : State} {b : BId} {mis : Nat} {need : List Nat} {a : Word}
    {act : Nat → State → State} {s : State} (sub : [.sy, .pl] ⊆ fs) (hf1 : ∀ x0 t, Touch fs s0 t → Touch fs s0 (act x0 t)) (h0
    : Touch fs s0 s) : Touch fs s0 (doAtomic b mis need a act s) := by
  unfold doAtomic
  try dsimp only
  repeat' first
    | with_reducible assumption | with_reducible refine raise_touch (subOf (by decide) sub) ?_
    | with_reducible refine recordErr_touch (subOf (by decide) sub) ?_ | with_reducible apply hf1 | intro _ | split
    | dsimp only

theorem putOwn_touch {fs : List Piece} {s0 : State} {b : BId} {o : Nat} {v : Word} {s : State} (sub : [.pl, .tcm, .deck] ⊆ fs)
    (h0 : Touch fs s0 s) : Touch fs s0 (putOwn b o v s) := by
  unfold putOwn
  try dsimp only
  repeat' first
    | with_reducible assumption | with_reducible refine memAt_touch (subOf (by decide) sub) ?_ | intro _ | split
    | dsimp only

theorem doLr_touch {fs : List Piece} {s0 : State} {b : BId} {len : Nat} {rd : Nat} {o : Nat} {s : State} (sub : [.pl] ⊆ fs)
    (h0 : Touch fs s0 s) : Touch fs s0 (doLr b len rd o s) := by
  unfold doLr
  try dsimp only
  repeat' first
    | with_reducible assumption | intro _ | split | with_reducible refine Touch.upd ?_ ?_
    | (refine TouchB.mk (fun f nf => ?_) (Berth.memCanonical_same rfl rfl rfl); cases f <;> first | exact absurd (sub (by decide)) nf | exact True.intro | exact rfl)
    | dsimp only

theorem doSc_touch {fs : List Piece} {s0 : State} {b : BId} {len : Nat} {rd : Nat} {rs2 : Nat} {o : Nat} {s : State}
    (sub : [.pl, .tcm, .deck] ⊆ fs) (h0 : Touch fs s0 s) : Touch fs s0 (doSc b len rd rs2 o s) := by
  unfold doSc
  try dsimp only
  repeat' first
    | with_reducible assumption | with_reducible refine putOwn_touch (subOf (by decide) sub) ?_
    | with_reducible refine State.updPl_touch (subOf (by decide) sub) ?_ | intro _ | split | dsimp only

theorem doAmo_touch {fs : List Piece} {s0 : State} {b : BId} {len : Nat} {op : RvAmo} {rd : Nat} {rs2 : Nat} {o : Nat}
    {s : State} (sub : [.pl, .tcm, .deck] ⊆ fs) (h0 : Touch fs s0 s) : Touch fs s0 (doAmo b len op rd rs2 o s) := by
  unfold doAmo
  try dsimp only
  repeat' first
    | with_reducible assumption | with_reducible refine State.updPl_touch (subOf (by decide) sub) ?_
    | with_reducible refine putOwn_touch (subOf (by decide) sub) ?_ | intro _ | split | dsimp only

theorem rvExec_touch {fs : List Piece} {s0 : State} {b : BId} {i : Rv} {len : Nat} {s : State}
    (sub : [.out, .freeCtr, .dev, .sy, .rp, .td, .ch, .rl, .log, .pw, .hw, .svc, .cl, .pl, .dk, .dm, .tw, .us, .ar, .pg, .hl, .tray, .tcm, .deck, .flash] ⊆ fs)
    (h0 : Touch fs s0 s) : Touch fs s0 (rvExec b i len s) := by
  unfold rvExec
  try dsimp only
  repeat' first
    | with_reducible assumption | with_reducible refine State.updPl_touch (subOf (by decide) sub) ?_
    | with_reducible refine doLoad_touch (subOf (by decide) sub) ?_
    | with_reducible refine doStore_touch (subOf (by decide) sub) ?_
    | with_reducible refine doAtomic_touch (subOf (by decide) sub) ?_ ?_
    | with_reducible refine doLr_touch (subOf (by decide) sub) ?_
    | with_reducible refine doSc_touch (subOf (by decide) sub) ?_
    | with_reducible refine doAmo_touch (subOf (by decide) sub) ?_
    | with_reducible refine raise_touch (subOf (by decide) sub) ?_ | intro _ | split | dsimp only

theorem awake_touch {fs : List Piece} {s0 : State} {b : BId} {s : State} (sub : [.pl] ⊆ fs) (h0 : Touch fs s0 s)
    : Touch fs s0 (awake b s) := by
  unfold awake
  try dsimp only
  repeat' first
    | with_reducible assumption | with_reducible refine State.updPl_touch (subOf (by decide) sub) ?_ | intro _
    | split | dsimp only

theorem pilotInstruction_touch {fs : List Piece} {s0 : State} {b : BId} {s : State}
    (sub : [.out, .freeCtr, .dev, .sy, .rp, .td, .ch, .rl, .log, .pw, .hw, .svc, .cl, .pl, .dk, .dm, .tw, .us, .ar, .pg, .hl, .tray, .tcm, .deck, .flash] ⊆ fs)
    (h0 : Touch fs s0 s) : Touch fs s0 (pilotInstruction b s) := by
  unfold pilotInstruction
  try dsimp only
  repeat' first
    | with_reducible assumption | with_reducible refine raise_touch (subOf (by decide) sub) ?_
    | with_reducible refine awake_touch (subOf (by decide) sub) ?_
    | with_reducible refine rvExec_touch (subOf (by decide) sub) ?_ | intro _ | split | dsimp only

theorem csrExec_touch {fs : List Piece} {s0 : State} {b : BId} {op : RvCsr} {useImm : Bool} {rd : Nat} {rs1 : Nat} {n : Nat}
    {len : Nat} {s : State} (sub : [.pl] ⊆ fs) (h0 : Touch fs s0 s) : Touch fs s0 (csrExec b op useImm rd rs1 n len s) := by
  unfold csrExec
  try dsimp only
  repeat' first
    | with_reducible assumption | with_reducible refine raise_touch (subOf (by decide) sub) ?_
    | with_reducible refine State.updPl_touch (subOf (by decide) sub) ?_ | intro _ | split | dsimp only

theorem csrAccess_touch {fs : List Piece} {s0 : State} {b : BId} {s : State} (sub : [.pl] ⊆ fs) (h0 : Touch fs s0 s)
    : Touch fs s0 (csrAccess b s) := by
  unfold csrAccess
  try dsimp only
  repeat' first
    | with_reducible assumption | with_reducible refine csrExec_touch (subOf (by decide) sub) ?_
    | with_reducible refine awake_touch (subOf (by decide) sub) ?_ | intro _ | split | dsimp only

theorem fenceOp_touch {fs : List Piece} {s0 : State} {b : BId} {s : State} (sub : [.pl] ⊆ fs) (h0 : Touch fs s0 s)
    : Touch fs s0 (fenceOp b s) := by
  unfold fenceOp
  try dsimp only
  repeat' first
    | with_reducible assumption | with_reducible refine State.updPl_touch (subOf (by decide) sub) ?_
    | with_reducible refine awake_touch (subOf (by decide) sub) ?_ | intro _ | split | dsimp only

theorem wfiOp_touch {fs : List Piece} {s0 : State} {b : BId} {s : State} (sub : [.pl] ⊆ fs) (h0 : Touch fs s0 s)
    : Touch fs s0 (wfiOp b s) := by
  unfold wfiOp
  try dsimp only
  repeat' first
    | with_reducible assumption | with_reducible refine State.updPl_touch (subOf (by decide) sub) ?_ | intro _
    | split | dsimp only

theorem wfiTimeout_touch {fs : List Piece} {s0 : State} {b : BId} {s : State} (sub : [.pl] ⊆ fs) (h0 : Touch fs s0 s)
    : Touch fs s0 (wfiTimeout b s) := by
  unfold wfiTimeout
  try dsimp only
  repeat' first
    | with_reducible assumption | with_reducible refine awake_touch (subOf (by decide) sub) ?_ | intro _ | split
    | dsimp only

theorem interruptTaken_touch {fs : List Piece} {s0 : State} {b : BId} {s : State} (sub : [.pl] ⊆ fs) (h0 : Touch fs s0 s)
    : Touch fs s0 (interruptTaken b s) := by
  unfold interruptTaken
  try dsimp only
  repeat' first
    | with_reducible assumption | with_reducible refine State.updPl_touch (subOf (by decide) sub) ?_ | intro _
    | split | dsimp only

theorem mtimecmpMatch_touch {fs : List Piece} {s0 : State} {b : BId} {s : State} (sub : [.pl] ⊆ fs) (h0 : Touch fs s0 s)
    : Touch fs s0 (mtimecmpMatch b s) := by
  unfold mtimecmpMatch
  try dsimp only
  repeat' first
    | with_reducible assumption | with_reducible refine awake_touch (subOf (by decide) sub) ?_ | intro _ | split
    | dsimp only

theorem remoteEnd_touch {fs : List Piece} {s0 : State} {b : BId} {r : Remote} {res : Except Nat Word} {s : State}
    (sub : [.pl] ⊆ fs) (h0 : Touch fs s0 s) : Touch fs s0 (remoteEnd b r res s) := by
  unfold remoteEnd
  try dsimp only
  repeat' first
    | with_reducible assumption | with_reducible refine State.updPl_touch (subOf (by decide) sub) ?_ | intro _
    | split | dsimp only

theorem remoteReply_touch {fs : List Piece} {s0 : State} {b : BId} {t_ : BId} {late : Option ReqId} {s : State}
    (sub : [.out, .freeCtr, .dev, .sy, .rp, .td, .ch, .rl, .log, .pw, .hw, .svc, .cl, .pl, .dk, .dm, .tw, .us, .ar, .pg, .hl, .tray, .tcm, .deck, .flash] ⊆ fs)
    (h0 : Touch fs s0 s) : Touch fs s0 (remoteReply b t_ late s) := by
  unfold remoteReply
  try dsimp only
  repeat' first
    | with_reducible assumption | with_reducible refine accessSend_touch (subOf (by decide) sub) ?_
    | with_reducible refine carryOut_touch (subOf (by decide) sub) ?_
    | with_reducible refine updSnap_touch (subOf (by decide) sub) ?_
    | with_reducible refine dropLate_touch (subOf (by decide) sub) ?_
    | with_reducible refine remoteEnd_touch (subOf (by decide) sub) ?_ | intro _ | split
    | with_reducible refine carryOut_touch_eq (subOf (by decide) sub) (by with_reducible assumption) ?_
    | dsimp only

theorem timeOut_touch {fs : List Piece} {s0 : State} {b : BId} {rs : List Remote} {s : State} (sub : [.sy] ⊆ fs) (h0
    : Touch fs s0 s) : Touch fs s0 (timeOut b rs s) := by
  unfold timeOut
  try dsimp only
  repeat' first
    | with_reducible assumption | with_reducible refine updSnap_touch (subOf (by decide) sub) ?_
    | with_reducible refine recordErr_touch (subOf (by decide) sub) ?_ | intro _ | split | dsimp only

theorem ringTimeout_touch {fs : List Piece} {s0 : State} {b : BId} {t_ : BId} {who : LateAccess} {s : State}
    (sub : [.out, .freeCtr, .sy, .rp, .log, .pl, .dk, .dm, .us] ⊆ fs) (h0 : Touch fs s0 s)
    : Touch fs s0 (ringTimeout b t_ who s) := by
  unfold ringTimeout
  try dsimp only
  repeat' first
    | with_reducible assumption | with_reducible refine remoteEnd_touch (subOf (by decide) sub) ?_
    | with_reducible refine timeOut_touch (subOf (by decide) sub) ?_
    | with_reducible refine updSnap_touch (subOf (by decide) sub) ?_
    | with_reducible refine dmaFault_touch (subOf (by decide) sub) ?_ | intro _ | split | dsimp only
end Sys2Proof.Machine
end

