-- ==== Sys2Proof/Laws/Touch/Sounding.lean ====
section
/-! SUPPORT. What each operation of Machine/Sounding.lean can touch. -/
set_option linter.unusedTactic false
set_option linter.unreachableTactic false
namespace Sys2Proof.Machine

theorem updHlB_touch {fs : List Piece} {s0 : State} {b : BId} {f : Hl → Hl} {s : State} (sub : [.hl] ⊆ fs) (h0
    : Touch fs s0 s) : Touch fs s0 (updHlB b f s) := by
  unfold updHlB
  try dsimp only
  repeat' first
    | with_reducible assumption | intro _ | split | with_reducible refine Touch.upd ?_ ?_
    | (refine TouchB.mk (fun f nf => ?_) (Berth.memCanonical_same rfl rfl rfl); cases f <;> first | exact absurd (sub (by decide)) nf | exact True.intro | exact rfl)
    | dsimp only

theorem soundDrop_touch {fs : List Piece} {s0 : State} {b : BId} {s : State} (sub : [.hl] ⊆ fs) (h0 : Touch fs s0 s)
    : Touch fs s0 (soundDrop b s) := by
  unfold soundDrop
  try dsimp only
  repeat' first
    | with_reducible assumption | with_reducible refine updHlB_touch (subOf (by decide) sub) ?_ | intro _ | split
    | dsimp only

theorem soundStore_touch {fs : List Piece} {s0 : State} {h : BId} {n : BId} {bytes : List Byte} {s : State}
    (sub : [.freeCtr, .dk, .us, .tray] ⊆ fs) (h0 : Touch fs s0 s) : Touch fs s0 (soundStore h n bytes s) := by
  unfold soundStore
  try dsimp only
  repeat' first
    | with_reducible assumption | with_reducible refine telemetry_touch (subOf (by decide) sub) ?_
    | with_reducible refine updHl_touch (subOf (by decide) sub) ?_ | intro _ | split | dsimp only

theorem soundingArrive_touch {fs : List Piece} {s0 : State} {h : BId} {n : BId} {bytes : List Byte} {s : State}
    (sub : [.out, .freeCtr, .rp, .dk, .us, .tray] ⊆ fs) (h0 : Touch fs s0 s) : Touch fs s0 (soundingArrive h n bytes s) := by
  unfold soundingArrive
  try dsimp only
  repeat' first
    | with_reducible assumption | with_reducible refine deckAlloc_touch (subOf (by decide) sub) ?_
    | with_reducible refine deckRelease_touch (subOf (by decide) sub) ?_
    | with_reducible refine soundStore_touch (subOf (by decide) sub) ?_
    | with_reducible refine ringSend_touch (subOf (by decide) sub) ?_ | intro _ | split
    | with_reducible refine deckAlloc_touch_eq (subOf (by decide) sub) (by with_reducible assumption) ?_
    | dsimp only

theorem soundSend_touch {fs : List Piece} {s0 : State} {h : BId} {b : BId} {bytes : List Byte} {s : State}
    (sub : [.out, .freeCtr, .rp, .dk, .us, .hl, .tray] ⊆ fs) (h0 : Touch fs s0 s) : Touch fs s0 (soundSend h b bytes s) := by
  unfold soundSend
  try dsimp only
  repeat' first
    | with_reducible assumption | with_reducible refine soundingArrive_touch (subOf (by decide) sub) ?_
    | with_reducible refine ringSend_touch (subOf (by decide) sub) ?_
    | with_reducible refine deckAlloc_touch (subOf (by decide) sub) ?_
    | with_reducible refine deckRelease_touch (subOf (by decide) sub) ?_
    | with_reducible refine soundDrop_touch (subOf (by decide) sub) ?_ | intro _ | split
    | with_reducible refine deckAlloc_touch_eq (subOf (by decide) sub) (by with_reducible assumption) ?_
    | dsimp only

theorem soundingRound_touch {fs : List Piece} {s0 : State} {h : BId} {s : State} (sub : [.tray] ⊆ fs) (h0 : Touch fs s0 s)
    : Touch fs s0 (soundingRound h s) := by
  unfold soundingRound
  try dsimp only
  repeat' first
    | with_reducible assumption | with_reducible refine updHl_touch (subOf (by decide) sub) ?_ | intro _ | split
    | dsimp only

theorem soundingMark_touch {fs : List Piece} {s0 : State} {b : BId} {s : State}
    (sub : [.out, .freeCtr, .rp, .dk, .us, .hl, .tray] ⊆ fs) (h0 : Touch fs s0 s) : Touch fs s0 (soundingMark b s) := by
  unfold soundingMark
  try dsimp only
  repeat' first
    | with_reducible assumption | with_reducible refine updHlB_touch (subOf (by decide) sub) ?_
    | with_reducible refine soundSend_touch (subOf (by decide) sub) ?_ | intro _ | split | dsimp only

theorem soundingAttn_touch {fs : List Piece} {s0 : State} {h : BId} {s : State} (sub : [.freeCtr, .dk, .tw, .us, .tray] ⊆ fs)
    (h0 : Touch fs s0 s) : Touch fs s0 (soundingAttn h s) := by
  unfold soundingAttn
  try dsimp only
  repeat' first
    | with_reducible assumption | with_reducible refine attnAt_touch (subOf (by decide) sub) ?_
    | with_reducible refine updHl_touch (subOf (by decide) sub) ?_ | intro _ | split | dsimp only
end Sys2Proof.Machine
end

