-- ==== Sys2Proof/Laws/Touch/HostPaths.lean ====
section
/-! SUPPORT. What each operation of Machine/HostPaths.lean can touch. -/
set_option linter.unusedTactic false
set_option linter.unreachableTactic false
namespace Sys2Proof.Machine

theorem hostAccess_touch {fs : List Piece} {s0 : State} {req : ReqId} {late : BitVec 8} {write : Bool} {a : Nat} {v : Word}
    {s : State}
    (sub : [.out, .freeCtr, .dev, .sy, .rp, .td, .ch, .rl, .log, .pw, .hw, .svc, .cl, .pl, .dk, .dm, .tw, .us, .ar, .pg, .hl, .tray, .tcm, .deck, .flash] ⊆ fs)
    (h0 : Touch fs s0 s) : Touch fs s0 (hostAccess req late write a v s).2 := by
  unfold hostAccess
  try dsimp only
  repeat' first
    | with_reducible assumption | with_reducible refine updSnap_touch (subOf (by decide) sub) ?_
    | with_reducible refine recordErr_touch (subOf (by decide) sub) ?_
    | with_reducible refine accessFlits_touch (subOf (by decide) sub) ?_
    | with_reducible refine dropLate_touch (subOf (by decide) sub) ?_
    | with_reducible refine writeAccess_touch (subOf (by decide) sub) ?_
    | with_reducible refine hostDid_touch (subOf (by decide) sub) ?_
    | with_reducible refine readAccess_touch (subOf (by decide) sub) ?_ | intro _ | split
    | with_reducible refine writeAccess_touch_eq (subOf (by decide) sub) (by with_reducible assumption) ?_
    | with_reducible refine readAccess_touch_eq (subOf (by decide) sub) (by with_reducible assumption) ?_
    | dsimp only

theorem hostAccess_touch_eq {fs : List Piece} {s0 : State} {req : ReqId} {late : BitVec 8} {write : Bool} {a : Nat} {v : Word}
    {s : State} {r0} {t : State}
    (sub : [.out, .freeCtr, .dev, .sy, .rp, .td, .ch, .rl, .log, .pw, .hw, .svc, .cl, .pl, .dk, .dm, .tw, .us, .ar, .pg, .hl, .tray, .tcm, .deck, .flash] ⊆ fs)
    (eq_ : hostAccess req late write a v s = (r0, t)) (h0 : Touch fs s0 s) : Touch fs s0 t := by
  have := @hostAccess_touch fs s0 req late write a v s sub  h0
  rw [eq_] at this; exact this

theorem hostReads_touch {fs : List Piece} {s0 : State} {req : ReqId} {late : BitVec 8} {y2 : Nat} {y3 : Nat} {y4 : Nat}
    {y5 : State}
    (sub : [.out, .freeCtr, .dev, .sy, .rp, .td, .ch, .rl, .log, .pw, .hw, .svc, .cl, .pl, .dk, .dm, .tw, .us, .ar, .pg, .hl, .tray, .tcm, .deck, .flash] ⊆ fs)
    (h0 : Touch fs s0 y5) : Touch fs s0 (hostReads req late y2 y3 y4 y5).2 := by
  induction y2 generalizing y3 y4 y5
  case zero => unfold hostReads; exact h0
  rename_i kk ih
  have ihp : ∀ {y3 : Nat} {y4 : Nat} {y5 : State} {r} {u : State}, hostReads req late kk y3 y4 y5 = (r, u) → Touch fs s0 y5 → Touch fs s0 u := by
    intro y3 y4 y5 r u eq h; have := @ih y3 y4 y5 h; rw [eq] at this; exact this
  unfold hostReads
  try dsimp only
  repeat' first
    | with_reducible assumption | (with_reducible apply ih)
    | with_reducible refine hostAccess_touch (subOf (by decide) sub) ?_ | intro _ | split
    | with_reducible refine hostAccess_touch_eq (subOf (by decide) sub) (by with_reducible assumption) ?_
    | (with_reducible refine ihp (by with_reducible assumption) ?_) | dsimp only

theorem hostReads_touch_eq {fs : List Piece} {s0 : State} {req : ReqId} {late : BitVec 8} {y2 : Nat} {y3 : Nat} {y4 : Nat}
    {y5 : State} {r0} {t : State}
    (sub : [.out, .freeCtr, .dev, .sy, .rp, .td, .ch, .rl, .log, .pw, .hw, .svc, .cl, .pl, .dk, .dm, .tw, .us, .ar, .pg, .hl, .tray, .tcm, .deck, .flash] ⊆ fs)
    (eq_ : hostReads req late y2 y3 y4 y5 = (r0, t)) (h0 : Touch fs s0 y5) : Touch fs s0 t := by
  have := @hostReads_touch fs s0 req late y2 y3 y4 y5 sub  h0
  rw [eq_] at this; exact this

theorem hostWrites_touch {fs : List Piece} {s0 : State} {req : ReqId} {late : BitVec 8} {y2 : List Word} {y3 : Nat} {y4 : Nat}
    {y5 : State}
    (sub : [.out, .freeCtr, .dev, .sy, .rp, .td, .ch, .rl, .log, .pw, .hw, .svc, .cl, .pl, .dk, .dm, .tw, .us, .ar, .pg, .hl, .tray, .tcm, .deck, .flash] ⊆ fs)
    (h0 : Touch fs s0 y5) : Touch fs s0 (hostWrites req late y2 y3 y4 y5).2 := by
  induction y2 generalizing y3 y4 y5
  case nil => unfold hostWrites; exact h0
  rename_i x xs ih
  have ihp : ∀ {y3 : Nat} {y4 : Nat} {y5 : State} {r} {u : State}, hostWrites req late xs y3 y4 y5 = (r, u) → Touch fs s0 y5 → Touch fs s0 u := by
    intro y3 y4 y5 r u eq h; have := @ih y3 y4 y5 h; rw [eq] at this; exact this
  unfold hostWrites
  try dsimp only
  repeat' first
    | with_reducible assumption | (with_reducible apply ih)
    | with_reducible refine hostAccess_touch (subOf (by decide) sub) ?_ | intro _ | split
    | with_reducible refine hostAccess_touch_eq (subOf (by decide) sub) (by with_reducible assumption) ?_
    | (with_reducible refine ihp (by with_reducible assumption) ?_) | dsimp only

theorem hostWrites_touch_eq {fs : List Piece} {s0 : State} {req : ReqId} {late : BitVec 8} {y2 : List Word} {y3 : Nat}
    {y4 : Nat} {y5 : State} {r0} {t : State}
    (sub : [.out, .freeCtr, .dev, .sy, .rp, .td, .ch, .rl, .log, .pw, .hw, .svc, .cl, .pl, .dk, .dm, .tw, .us, .ar, .pg, .hl, .tray, .tcm, .deck, .flash] ⊆ fs)
    (eq_ : hostWrites req late y2 y3 y4 y5 = (r0, t)) (h0 : Touch fs s0 y5) : Touch fs s0 t := by
  have := @hostWrites_touch fs s0 req late y2 y3 y4 y5 sub  h0
  rw [eq_] at this; exact this

theorem twEnd_touch {fs : List Piece} {s0 : State} {b : BId} {cmd : Nat} {result : Nat} {index : Nat} {s : State}
    (sub : [.tw] ⊆ fs) (h0 : Touch fs s0 s) : Touch fs s0 (twEnd b cmd result index s) := by
  unfold twEnd
  try dsimp only
  repeat' first
    | with_reducible assumption | with_reducible refine updTw_touch (subOf (by decide) sub) ?_ | intro _ | split
    | dsimp only

theorem twSend_touch {fs : List Piece} {s0 : State} {b : BId} {cmd : Nat} {x : TwXact} {bs : List Byte} {s : State}
    (sub : [.out] ⊆ fs) (h0 : Touch fs s0 s) : Touch fs s0 (twSend b cmd x bs s) := by
  unfold twSend
  try dsimp only
  repeat' first
    | with_reducible assumption | with_reducible refine State.emit_touch (subOf (by decide) sub) ?_ | intro _
    | split | dsimp only

theorem twShape_touch {fs : List Piece} {s0 : State} {b : BId} {cmd : Nat} {code : Nat} {x : TwXact} {s : State}
    (sub : [.out, .tw] ⊆ fs) (h0 : Touch fs s0 s) : Touch fs s0 (twShape b cmd code x s) := by
  unfold twShape
  try dsimp only
  repeat' first
    | with_reducible assumption | with_reducible refine twEnd_touch (subOf (by decide) sub) ?_
    | with_reducible refine twCount_touch (subOf (by decide) sub) ?_
    | with_reducible refine twSend_touch (subOf (by decide) sub) ?_ | intro _ | split | dsimp only

theorem twWrite_touch {fs : List Piece} {s0 : State} {b : BId} {cmd : Nat} {pec : Option Bool} {act : State → State}
    {s : State} (sub : [.out, .tw] ⊆ fs) (hf1 : ∀ t, Touch fs s0 t → Touch fs s0 (act t)) (h0 : Touch fs s0 s)
    : Touch fs s0 (twWrite b cmd pec act s) := by
  unfold twWrite
  try dsimp only
  repeat' first
    | with_reducible assumption | with_reducible refine State.emit_touch (subOf (by decide) sub) ?_
    | with_reducible refine twEnd_touch (subOf (by decide) sub) ?_
    | with_reducible refine twCount_touch (subOf (by decide) sub) ?_ | with_reducible apply hf1 | intro _ | split
    | dsimp only

theorem twRun_touch {fs : List Piece} {s0 : State} {b : BId} {act : State → State} {s : State} (sub : [] ⊆ fs)
    (hf1 : ∀ t, Touch fs s0 t → Touch fs s0 (act t)) (h0 : Touch fs s0 s) : Touch fs s0 (twRun b act s) := by
  unfold twRun
  try dsimp only
  repeat' first
    | with_reducible assumption | with_reducible apply hf1 | intro _ | split | dsimp only

theorem twRead_touch {fs : List Piece} {s0 : State} {b : BId} {cmd : Nat} {block : Bool} {bs : List Byte} {x : TwXact}
    {s : State} (sub : [.out, .tw] ⊆ fs) (h0 : Touch fs s0 s) : Touch fs s0 (twRead b cmd block bs x s) := by
  unfold twRead
  try dsimp only
  repeat' first
    | with_reducible assumption | with_reducible refine twEnd_touch (subOf (by decide) sub) ?_
    | with_reducible refine twSend_touch (subOf (by decide) sub) ?_
    | with_reducible refine twShape_touch (subOf (by decide) sub) ?_ | intro _ | split | dsimp only

theorem twIdent_touch {fs : List Piece} {s0 : State} {b : BId} {x : TwXact} {s : State} (sub : [.out, .tw] ⊆ fs) (h0
    : Touch fs s0 s) : Touch fs s0 (twIdent b x s) := by
  unfold twIdent
  try dsimp only
  repeat' first
    | with_reducible assumption | with_reducible refine twRead_touch (subOf (by decide) sub) ?_ | intro _ | split
    | dsimp only

theorem twAttnClr_touch {fs : List Piece} {s0 : State} {b : BId} {x : TwXact} {s : State} (sub : [.out, .tw] ⊆ fs) (h0
    : Touch fs s0 s) : Touch fs s0 (twAttnClr b x s) := by
  unfold twAttnClr
  try dsimp only
  repeat' first
    | with_reducible assumption | with_reducible refine twWrite_touch (subOf (by decide) sub) ?_ ?_
    | with_reducible refine twEnd_touch (subOf (by decide) sub) ?_
    | with_reducible refine updTw_touch (subOf (by decide) sub) ?_
    | with_reducible refine twShape_touch (subOf (by decide) sub) ?_ | intro _ | split | dsimp only

theorem twWindowRead_touch {fs : List Piece} {s0 : State} {b : BId} {cmd : Nat} {a : Nat} {n : Nat} {late : BitVec 8}
    {x : TwXact} {s : State}
    (sub : [.out, .freeCtr, .dev, .sy, .rp, .td, .ch, .rl, .log, .pw, .hw, .svc, .cl, .pl, .dk, .dm, .tw, .us, .ar, .pg, .hl, .tray, .tcm, .deck, .flash] ⊆ fs)
    (h0 : Touch fs s0 s) : Touch fs s0 (twWindowRead b cmd a n late x s) := by
  unfold twWindowRead
  try dsimp only
  repeat' first
    | with_reducible assumption | with_reducible refine hostReads_touch (subOf (by decide) sub) ?_
    | with_reducible refine twEnd_touch (subOf (by decide) sub) ?_
    | with_reducible refine twSend_touch (subOf (by decide) sub) ?_ | intro _ | split
    | with_reducible refine hostReads_touch_eq (subOf (by decide) sub) (by with_reducible assumption) ?_
    | dsimp only

theorem twRd32_touch {fs : List Piece} {s0 : State} {b : BId} {late : BitVec 8} {x : TwXact} {s : State}
    (sub : [.out, .freeCtr, .dev, .sy, .rp, .td, .ch, .rl, .log, .pw, .hw, .svc, .cl, .pl, .dk, .dm, .tw, .us, .ar, .pg, .hl, .tray, .tcm, .deck, .flash] ⊆ fs)
    (h0 : Touch fs s0 s) : Touch fs s0 (twRd32 b late x s) := by
  unfold twRd32
  try dsimp only
  repeat' first
    | with_reducible assumption | with_reducible refine twWindowRead_touch (subOf (by decide) sub) ?_
    | with_reducible refine twShape_touch (subOf (by decide) sub) ?_ | intro _ | split | dsimp only

theorem twRdn_touch {fs : List Piece} {s0 : State} {b : BId} {late : BitVec 8} {x : TwXact} {s : State}
    (sub : [.out, .freeCtr, .dev, .sy, .rp, .td, .ch, .rl, .log, .pw, .hw, .svc, .cl, .pl, .dk, .dm, .tw, .us, .ar, .pg, .hl, .tray, .tcm, .deck, .flash] ⊆ fs)
    (h0 : Touch fs s0 s) : Touch fs s0 (twRdn b late x s) := by
  unfold twRdn
  try dsimp only
  repeat' first
    | with_reducible assumption | with_reducible refine twShape_touch (subOf (by decide) sub) ?_
    | with_reducible refine twWindowRead_touch (subOf (by decide) sub) ?_ | intro _ | split | dsimp only

theorem twWindowWrite_touch {fs : List Piece} {s0 : State} {b : BId} {cmd : Nat} {late : BitVec 8} {bs : List Byte}
    {pec : Option Bool} {s : State}
    (sub : [.out, .freeCtr, .dev, .sy, .rp, .td, .ch, .rl, .log, .pw, .hw, .svc, .cl, .pl, .dk, .dm, .tw, .us, .ar, .pg, .hl, .tray, .tcm, .deck, .flash] ⊆ fs)
    (h0 : Touch fs s0 s) : Touch fs s0 (twWindowWrite b cmd late bs pec s) := by
  unfold twWindowWrite
  try dsimp only
  repeat' first
    | with_reducible assumption | with_reducible refine twWrite_touch (subOf (by decide) sub) ?_ ?_
    | with_reducible refine hostWrites_touch (subOf (by decide) sub) ?_
    | with_reducible refine twEnd_touch (subOf (by decide) sub) ?_ | intro _ | split
    | with_reducible refine hostWrites_touch_eq (subOf (by decide) sub) (by with_reducible assumption) ?_
    | dsimp only

theorem twWr32_touch {fs : List Piece} {s0 : State} {b : BId} {late : BitVec 8} {x : TwXact} {s : State}
    (sub : [.out, .freeCtr, .dev, .sy, .rp, .td, .ch, .rl, .log, .pw, .hw, .svc, .cl, .pl, .dk, .dm, .tw, .us, .ar, .pg, .hl, .tray, .tcm, .deck, .flash] ⊆ fs)
    (h0 : Touch fs s0 s) : Touch fs s0 (twWr32 b late x s) := by
  unfold twWr32
  try dsimp only
  repeat' first
    | with_reducible assumption | with_reducible refine twWindowWrite_touch (subOf (by decide) sub) ?_
    | with_reducible refine twShape_touch (subOf (by decide) sub) ?_ | intro _ | split | dsimp only

theorem twWrn_touch {fs : List Piece} {s0 : State} {b : BId} {late : BitVec 8} {x : TwXact} {s : State}
    (sub : [.out, .freeCtr, .dev, .sy, .rp, .td, .ch, .rl, .log, .pw, .hw, .svc, .cl, .pl, .dk, .dm, .tw, .us, .ar, .pg, .hl, .tray, .tcm, .deck, .flash] ⊆ fs)
    (h0 : Touch fs s0 s) : Touch fs s0 (twWrn b late x s) := by
  unfold twWrn
  try dsimp only
  repeat' first
    | with_reducible assumption | with_reducible refine twWindowWrite_touch (subOf (by decide) sub) ?_
    | with_reducible refine twShape_touch (subOf (by decide) sub) ?_ | intro _ | split | dsimp only

theorem twReceive_touch {fs : List Piece} {s0 : State} {b : BId} {s : State} (sub : [.out, .tw] ⊆ fs) (h0 : Touch fs s0 s)
    : Touch fs s0 (twReceive b s) := by
  unfold twReceive
  try dsimp only
  repeat' first
    | with_reducible assumption | with_reducible refine twEnd_touch (subOf (by decide) sub) ?_
    | with_reducible refine State.emit_touch (subOf (by decide) sub) ?_ | intro _ | split | dsimp only

theorem twUnsupported_touch {fs : List Piece} {s0 : State} {b : BId} {code : Nat} {kind : Bool} {s : State}
    (sub : [.out, .tw] ⊆ fs) (h0 : Touch fs s0 s) : Touch fs s0 (twUnsupported b code kind s) := by
  unfold twUnsupported
  try dsimp only
  repeat' first
    | with_reducible assumption | with_reducible refine State.emit_touch (subOf (by decide) sub) ?_
    | with_reducible refine twCount_touch (subOf (by decide) sub) ?_ | intro _ | split | dsimp only

theorem twCut_touch {fs : List Piece} {s0 : State} {b : BId} {code : Nat} {mid : Bool} {s : State} (sub : [.tw] ⊆ fs) (h0
    : Touch fs s0 s) : Touch fs s0 (twCut b code mid s) := by
  unfold twCut
  try dsimp only
  repeat' first
    | with_reducible assumption | with_reducible refine twEnd_touch (subOf (by decide) sub) ?_
    | with_reducible refine updTw_touch (subOf (by decide) sub) ?_ | intro _ | split | dsimp only

theorem usLast_touch {fs : List Piece} {s0 : State} {b : BId} {breq : Nat} {result : Nat} {index : Nat} {reached : Bool}
    {s : State} (sub : [.us] ⊆ fs) (h0 : Touch fs s0 s) : Touch fs s0 (usLast b breq result index reached s) := by
  unfold usLast
  try dsimp only
  repeat' first
    | with_reducible assumption | with_reducible refine updUs_touch (subOf (by decide) sub) ?_ | intro _ | split
    | dsimp only

theorem usDone_touch {fs : List Piece} {s0 : State} {b : BId} {s : State} (sub : [.us] ⊆ fs) (h0 : Touch fs s0 s)
    : Touch fs s0 (usDone b s) := by
  unfold usDone
  try dsimp only
  repeat' first
    | with_reducible assumption | with_reducible refine updUs_touch (subOf (by decide) sub) ?_ | intro _ | split
    | dsimp only

theorem usShape_touch {fs : List Piece} {s0 : State} {b : BId} {breq : Nat} {s : State} (sub : [.out, .us] ⊆ fs) (h0
    : Touch fs s0 s) : Touch fs s0 (usShape b breq s) := by
  unfold usShape
  try dsimp only
  repeat' first
    | with_reducible assumption | with_reducible refine State.emit_touch (subOf (by decide) sub) ?_
    | with_reducible refine usLast_touch (subOf (by decide) sub) ?_ | intro _ | split | dsimp only

theorem vendorRead_touch {fs : List Piece} {s0 : State} {b : BId} {a : Nat} {len : Nat} {late : BitVec 8} {finished : Bool}
    {s : State}
    (sub : [.out, .freeCtr, .dev, .sy, .rp, .td, .ch, .rl, .log, .pw, .hw, .svc, .cl, .pl, .dk, .dm, .tw, .us, .ar, .pg, .hl, .tray, .tcm, .deck, .flash] ⊆ fs)
    (h0 : Touch fs s0 s) : Touch fs s0 (vendorRead b a len late finished s) := by
  unfold vendorRead
  try dsimp only
  repeat' first
    | with_reducible assumption
    | (with_reducible refine request_touch (subOf (by decide) sub) ?_ ?_; first | (intro _ eq_; done) | (intro _ eq_; rw [Option.map_eq_some_iff] at eq_; obtain ⟨_, _, rfl⟩ := eq_) | (intro _ eq_; (repeat' (split at eq_)) <;> cases eq_) | skip)
    | with_reducible refine usShape_touch (subOf (by decide) sub) ?_
    | with_reducible refine hostReads_touch (subOf (by decide) sub) ?_
    | with_reducible refine usLast_touch (subOf (by decide) sub) ?_
    | with_reducible refine usDone_touch (subOf (by decide) sub) ?_
    | with_reducible refine State.emit_touch (subOf (by decide) sub) ?_ | intro _ | split
    | with_reducible refine hostReads_touch_eq (subOf (by decide) sub) (by with_reducible assumption) ?_
    | dsimp only

theorem vendorWrite_touch {fs : List Piece} {s0 : State} {b : BId} {a : Nat} {ws : List Word} {odd : Nat} {late : BitVec 8}
    {started : Bool} {s : State}
    (sub : [.out, .freeCtr, .dev, .sy, .rp, .td, .ch, .rl, .log, .pw, .hw, .svc, .cl, .pl, .dk, .dm, .tw, .us, .ar, .pg, .hl, .tray, .tcm, .deck, .flash] ⊆ fs)
    (h0 : Touch fs s0 s) : Touch fs s0 (vendorWrite b a ws odd late started s) := by
  unfold vendorWrite
  try dsimp only
  repeat' first
    | with_reducible assumption
    | (with_reducible refine request_touch (subOf (by decide) sub) ?_ ?_; first | (intro _ eq_; done) | (intro _ eq_; rw [Option.map_eq_some_iff] at eq_; obtain ⟨_, _, rfl⟩ := eq_) | (intro _ eq_; (repeat' (split at eq_)) <;> cases eq_) | skip)
    | with_reducible refine usShape_touch (subOf (by decide) sub) ?_
    | with_reducible refine State.emit_touch (subOf (by decide) sub) ?_
    | with_reducible refine usLast_touch (subOf (by decide) sub) ?_
    | with_reducible refine updUs_touch (subOf (by decide) sub) ?_
    | with_reducible refine hostWrites_touch (subOf (by decide) sub) ?_
    | with_reducible refine usDone_touch (subOf (by decide) sub) ?_ | intro _ | split
    | with_reducible refine hostWrites_touch_eq (subOf (by decide) sub) (by with_reducible assumption) ?_
    | dsimp only

theorem vendorLast_touch {fs : List Piece} {s0 : State} {b : BId} {breq : Nat} {a : Word} {len : Nat} {s : State}
    (sub : [.out, .us] ⊆ fs) (h0 : Touch fs s0 s) : Touch fs s0 (vendorLast b breq a len s) := by
  unfold vendorLast
  try dsimp only
  repeat' first
    | with_reducible assumption
    | (with_reducible refine request_touch (subOf (by decide) sub) ?_ ?_; first | (intro _ eq_; done) | (intro _ eq_; rw [Option.map_eq_some_iff] at eq_; obtain ⟨_, _, rfl⟩ := eq_) | (intro _ eq_; (repeat' (split at eq_)) <;> cases eq_) | skip)
    | with_reducible refine usDone_touch (subOf (by decide) sub) ?_
    | with_reducible refine answer_touch (subOf (by decide) sub) ?_
    | with_reducible refine usShape_touch (subOf (by decide) sub) ?_ | intro _ | split | dsimp only
end Sys2Proof.Machine
end

