-- ==== Sys2Proof/Laws/Touch/Mark.lean ====
section
/-! SUPPORT. What each operation of Machine/Mark.lean can touch. -/
set_option linter.unusedTactic false
set_option linter.unreachableTactic false
namespace Sys2Proof.Machine

theorem heartbeatCount_touch {fs : List Piece} {s0 : State} {b : BId} {s : State} (sub : [.out, .sy, .rp] ⊆ fs) (h0
    : Touch fs s0 s) : Touch fs s0 (heartbeatCount b s) := by
  unfold heartbeatCount
  try dsimp only
  repeat' first
    | with_reducible assumption | with_reducible refine ringSend_touch (subOf (by decide) sub) ?_
    | with_reducible refine updSy_touch (subOf (by decide) sub) ?_ | intro _ | split | dsimp only

theorem silentRepeat_touch {fs : List Piece} {s0 : State} {b : BId} {s : State} (sub : [.out, .rp] ⊆ fs) (h0 : Touch fs s0 s)
    : Touch fs s0 (silentRepeat b s) := by
  unfold silentRepeat
  try dsimp only
  repeat' first
    | with_reducible assumption | with_reducible refine ringSend_touch (subOf (by decide) sub) ?_
    | with_reducible refine Touch.iter ?_ ?_ | intro _ | split | dsimp only

theorem hostActSend_touch {fs : List Piece} {s0 : State} {h : BId} {s : State}
    (sub : [.out, .freeCtr, .sy, .rp, .log, .cl, .dk, .us] ⊆ fs) (h0 : Touch fs s0 s) : Touch fs s0 (hostActSend h s) := by
  unfold hostActSend
  try dsimp only
  repeat' first
    | with_reducible assumption | with_reducible refine hostActNotice_touch (subOf (by decide) sub) ?_
    | with_reducible refine ringSend_touch (subOf (by decide) sub) ?_
    | with_reducible refine updSy_touch (subOf (by decide) sub) ?_ | intro _ | split | dsimp only

theorem activeSends_touch {fs : List Piece} {s0 : State} {b : BId} {s : State}
    (sub : [.out, .freeCtr, .rp, .log, .pw, .dk, .us, .hl, .tray] ⊆ fs) (h0 : Touch fs s0 s) : Touch fs s0 (activeSends b s)
    := by
  unfold activeSends
  try dsimp only
  repeat' first
    | with_reducible assumption | with_reducible refine logSend_touch (subOf (by decide) sub) ?_
    | with_reducible refine averageSend_touch (subOf (by decide) sub) ?_
    | with_reducible refine ringSend_touch (subOf (by decide) sub) ?_ | intro _ | split | dsimp only

theorem boundaryCounts_touch {fs : List Piece} {s0 : State} {b : BId} {s : State} (sub : [.svc, .dk] ⊆ fs) (h0
    : Touch fs s0 s) : Touch fs s0 (boundaryCounts b s) := by
  unfold boundaryCounts
  try dsimp only
  repeat' first
    | with_reducible assumption | with_reducible refine State.updSvc_touch (subOf (by decide) sub) ?_
    | with_reducible refine State.updDk_touch (subOf (by decide) sub) ?_ | intro _ | split | dsimp only

theorem boundaryOnce_touch {fs : List Piece} {s0 : State} {b : BId} {s : State}
    (sub : [.out, .freeCtr, .dev, .sy, .rp, .log, .pw, .svc, .cl, .pl, .dk, .tw, .us, .hl, .tray] ⊆ fs) (h0 : Touch fs s0 s)
    : Touch fs s0 (boundaryOnce b s) := by
  unfold boundaryOnce
  try dsimp only
  repeat' first
    | with_reducible assumption | with_reducible refine portsJoin_touch (subOf (by decide) sub) ?_
    | with_reducible refine silentRepeat_touch (subOf (by decide) sub) ?_
    | with_reducible refine heartbeatCount_touch (subOf (by decide) sub) ?_
    | with_reducible refine boundaryCounts_touch (subOf (by decide) sub) ?_
    | with_reducible refine soundingAttn_touch (subOf (by decide) sub) ?_
    | with_reducible refine hostActSend_touch (subOf (by decide) sub) ?_
    | with_reducible refine irq_touch (subOf (by decide) sub) ?_
    | with_reducible refine activeSends_touch (subOf (by decide) sub) ?_ | intro _ | split | dsimp only

theorem snapFreeze_touch {fs : List Piece} {s0 : State} {b : BId} {s : State} (sub : [.sy, .pl, .tray] ⊆ fs) (h0
    : Touch fs s0 s) : Touch fs s0 (snapFreeze b s) := by
  unfold snapFreeze
  try dsimp only
  repeat' first
    | with_reducible assumption | with_reducible refine updSy_touch (subOf (by decide) sub) ?_
    | with_reducible refine updHl_touch (subOf (by decide) sub) ?_
    | with_reducible refine irq_touch (subOf (by decide) sub) ?_ | intro _ | split | dsimp only

theorem harbourAdmits_touch {fs : List Piece} {s0 : State} {h : BId} {s : State}
    (sub : [.out, .freeCtr, .dev, .sy, .rp, .ch, .log, .dk, .us, .tray] ⊆ fs) (h0 : Touch fs s0 s)
    : Touch fs s0 (harbourAdmits h s) := by
  unfold harbourAdmits
  try dsimp only
  repeat' first
    | with_reducible assumption | with_reducible refine State.updTray_touch (subOf (by decide) sub) ?_
    | with_reducible refine ringSend_touch (subOf (by decide) sub) ?_
    | with_reducible refine admitBerth_touch (subOf (by decide) sub) ?_ | with_reducible refine Touch.iter ?_ ?_
    | intro _ | split | dsimp only

theorem harbourPower_touch {fs : List Piece} {s0 : State} {h : BId} {s : State}
    (sub : [.out, .freeCtr, .rp, .rl, .log, .pw, .hw, .svc, .cl, .pl, .dk, .dm, .tw, .us, .tray, .tcm, .deck] ⊆ fs) (h0
    : Touch fs s0 s) : Touch fs s0 (harbourPower h s) := by
  unfold harbourPower
  try dsimp only
  repeat' first
    | with_reducible assumption | with_reducible refine windowOpen_touch (subOf (by decide) sub) ?_
    | with_reducible refine floorTest_touch (subOf (by decide) sub) ?_
    | with_reducible refine shedTest_touch (subOf (by decide) sub) ?_
    | with_reducible refine grantsApply_touch (subOf (by decide) sub) ?_ | intro _ | split | dsimp only

theorem harbourActs_touch {fs : List Piece} {s0 : State} {h : BId} {s : State}
    (sub : [.out, .freeCtr, .dev, .sy, .rp, .td, .ch, .log, .dk, .tw, .us, .pg, .tray] ⊆ fs) (h0 : Touch fs s0 s)
    : Touch fs s0 (harbourActs h s) := by
  unfold harbourActs
  try dsimp only
  repeat' first
    | with_reducible assumption | with_reducible refine stateCopy_touch (subOf (by decide) sub) ?_
    | with_reducible refine sendTide_touch (subOf (by decide) sub) ?_
    | with_reducible refine harbourAdmits_touch (subOf (by decide) sub) ?_ | intro _ | split | dsimp only

theorem harbourWindow_touch {fs : List Piece} {s0 : State} {h : BId} {s : State}
    (sub : [.out, .freeCtr, .rp, .rl, .log, .pw, .hw, .svc, .cl, .pl, .dk, .dm, .tw, .us, .tray, .tcm, .deck] ⊆ fs) (h0
    : Touch fs s0 s) : Touch fs s0 (harbourWindow h s) := by
  unfold harbourWindow
  try dsimp only
  repeat' first
    | with_reducible assumption | with_reducible refine harbourPower_touch (subOf (by decide) sub) ?_
    | with_reducible refine rotMark_touch (subOf (by decide) sub) ?_ | intro _ | split | dsimp only

theorem arrayMark_touch {fs : List Piece} {s0 : State} {b : BId} {k : Nat} {s : State} (sub : [.ar] ⊆ fs) (h0 : Touch fs s0 s)
    : Touch fs s0 (arrayMark b k s) := by
  unfold arrayMark
  try dsimp only
  repeat' first
    | with_reducible assumption | with_reducible refine updArr_touch (subOf (by decide) sub) ?_ | intro _ | split
    | dsimp only

theorem scheduledActs_touch {fs : List Piece} {s0 : State} {s0_ : State} {b : BId} {s : State}
    (sub : [.out, .freeCtr, .dev, .sy, .rp, .td, .ch, .rl, .log, .pw, .hw, .svc, .cl, .pl, .dk, .dm, .tw, .us, .ar, .pg, .hl, .tray, .tcm, .deck] ⊆ fs)
    (h0 : Touch fs s0 s0_) (h1 : Touch fs s0 s) : Touch fs s0 (scheduledActs s0_ b s) := by
  unfold scheduledActs
  try dsimp only
  repeat' first
    | with_reducible assumption | with_reducible refine harbourWindow_touch (subOf (by decide) sub) ?_
    | with_reducible refine bypassSwitch_touch (subOf (by decide) sub) ?_
    | with_reducible refine harbourActs_touch (subOf (by decide) sub) ?_
    | with_reducible refine irq_touch (subOf (by decide) sub) ?_
    | with_reducible refine slotMarkActs_touch (subOf (by decide) sub) ?_
    | with_reducible refine imagesMark_touch (subOf (by decide) sub) ?_
    | with_reducible refine policyMark_touch (subOf (by decide) sub) ?_ ?_
    | with_reducible refine arrayMark_touch (subOf (by decide) sub) ?_
    | with_reducible refine ledgerEval_touch (subOf (by decide) sub) ?_
    | with_reducible refine soundingRound_touch (subOf (by decide) sub) ?_
    | with_reducible refine soundingMark_touch (subOf (by decide) sub) ?_ | with_reducible refine Touch.iter ?_ ?_
    | intro _ | split | dsimp only

theorem countMark_touch {fs : List Piece} {s0 : State} {b : BId} {s : State} (sub : [.td] ⊆ fs) (h0 : Touch fs s0 s)
    : Touch fs s0 (countMark b s) := by
  unfold countMark
  try dsimp only
  repeat' first
    | with_reducible assumption | with_reducible refine updTd_touch (subOf (by decide) sub) ?_ | intro _ | split
    | dsimp only

theorem oneMark_touch {fs : List Piece} {s0 : State} {b : BId} {s : State}
    (sub : [.out, .freeCtr, .dev, .sy, .rp, .td, .ch, .rl, .log, .pw, .hw, .svc, .cl, .pl, .dk, .dm, .tw, .us, .ar, .pg, .hl, .tray, .tcm, .deck] ⊆ fs)
    (h0 : Touch fs s0 s) : Touch fs s0 (oneMark b s) := by
  unfold oneMark
  try dsimp only
  repeat' first
    | with_reducible assumption | with_reducible refine scheduledActs_touch (subOf (by decide) sub) ?_ ?_
    | with_reducible refine countMark_touch (subOf (by decide) sub) ?_ | intro _ | split | dsimp only

theorem manyMarks_touch {fs : List Piece} {s0 : State} {b : BId} {y1 : Nat} {y2 : State}
    (sub : [.out, .freeCtr, .dev, .sy, .rp, .td, .ch, .rl, .log, .pw, .hw, .svc, .cl, .pl, .dk, .dm, .tw, .us, .ar, .pg, .hl, .tray, .tcm, .deck] ⊆ fs)
    (h0 : Touch fs s0 y2) : Touch fs s0 (manyMarks b y1 y2) := by
  induction y1 generalizing y2
  case zero => unfold manyMarks; exact h0
  rename_i kk ih
  unfold manyMarks
  try dsimp only
  repeat' first
    | with_reducible assumption | (with_reducible apply ih)
    | with_reducible refine oneMark_touch (subOf (by decide) sub) ?_ | intro _ | split | dsimp only

theorem markBoundary_touch {fs : List Piece} {s0 : State} {b : BId} {s : State}
    (sub : [.out, .freeCtr, .dev, .sy, .rp, .td, .ch, .rl, .log, .pw, .hw, .svc, .cl, .pl, .dk, .dm, .tw, .us, .ar, .pg, .hl, .tray, .tcm, .deck] ⊆ fs)
    (h0 : Touch fs s0 s) : Touch fs s0 (markBoundary b s) := by
  unfold markBoundary
  try dsimp only
  repeat' first
    | with_reducible assumption | with_reducible refine snapFreeze_touch (subOf (by decide) sub) ?_
    | with_reducible refine countMark_touch (subOf (by decide) sub) ?_
    | with_reducible refine updTd_touch (subOf (by decide) sub) ?_
    | with_reducible refine scheduledActs_touch (subOf (by decide) sub) ?_ ?_
    | with_reducible refine boundaryOnce_touch (subOf (by decide) sub) ?_
    | with_reducible refine manyMarks_touch (subOf (by decide) sub) ?_ | intro _ | split | dsimp only
end Sys2Proof.Machine
end

