-- ==== Sys2Proof/Laws/Touch/Orders.lean ====
section
/-! SUPPORT. What each operation of Machine/Orders.lean can touch. -/
set_option linter.unusedTactic false
set_option linter.unreachableTactic false
namespace Sys2Proof.Machine

theorem viaBus_touch {fs : List Piece} {s0 : State} {req : ReqId} {n : Option BId} {off : Nat} {act : State → State}
    {s : State} (sub : [.sy] ⊆ fs) (hf1 : ∀ t, Touch fs s0 t → Touch fs s0 (act t)) (h0 : Touch fs s0 s)
    : Touch fs s0 (viaBus req n off act s) := by
  unfold viaBus
  try dsimp only
  repeat' first
    | with_reducible assumption | with_reducible refine recordErr_touch (subOf (by decide) sub) ?_
    | with_reducible refine hostDid_touch (subOf (by decide) sub) ?_ | with_reducible apply hf1 | intro _ | split
    | dsimp only

theorem readBus_touch {fs : List Piece} {s0 : State} {req : ReqId} {own : BId} {a : Nat} {rd : State → Word × State}
    {s : State} (sub : [.out, .sy] ⊆ fs) (hf1 : ∀ t, Touch fs s0 t → Touch fs s0 (rd t).2) (h0 : Touch fs s0 s)
    : Touch fs s0 (readBus req own a rd s) := by
  unfold readBus
  try dsimp only
  repeat' first
    | with_reducible assumption | with_reducible refine State.emit_touch (subOf (by decide) sub) ?_
    | with_reducible refine recordErr_touch (subOf (by decide) sub) ?_
    | with_reducible refine hostDid_touch (subOf (by decide) sub) ?_ | with_reducible apply hf1 | intro _ | split
    | dsimp only
end Sys2Proof.Machine
end

