-- ==== Sys2Proof/Laws/Touch/Tick.lean ====
section
/-! SUPPORT. What each operation of Machine/Tick.lean can touch. -/
set_option linter.unusedTactic false
set_option linter.unreachableTactic false
namespace Sys2Proof.Machine

theorem berthRetry_touch {fs : List Piece} {s0 : State} {b : BId} {s : State}
    (sub : [.out, .freeCtr, .rp, .log, .hw, .svc, .pl, .dk, .dm, .us, .deck] ⊆ fs) (h0 : Touch fs s0 s)
    : Touch fs s0 (berthRetry b s) := by
  unfold berthRetry
  try dsimp only
  repeat' first
    | with_reducible assumption | with_reducible refine dmaPump_touch (subOf (by decide) sub) ?_
    | with_reducible refine svcRetry_touch (subOf (by decide) sub) ?_ | intro _ | split | dsimp only

theorem flashRetry_touch {fs : List Piece} {s0 : State} {b : BId} {s : State}
    (sub : [.out, .freeCtr, .rp, .log, .dk, .us] ⊆ fs) (h0 : Touch fs s0 s) : Touch fs s0 (flashRetry b s) := by
  unfold flashRetry
  try dsimp only
  repeat' first
    | with_reducible assumption | with_reducible refine flashFree_touch (subOf (by decide) sub) ?_ | intro _
    | split | dsimp only

theorem berthTick_touchB {fs : List Piece} {sl : Bool} {x : Berth} (sub : [.pl] ⊆ fs) : TouchB fs x (berthTick sl x) := by
  unfold berthTick
  split
  · exact TouchB.refl
  · exact ⟨fun f nf => by cases f <;> first | exact absurd (sub (by decide)) nf | exact True.intro | exact rfl, Berth.memCanonical_same rfl rfl rfl⟩

theorem tick_touch {fs : List Piece} {s0 : State} {s : State}
    (sub : [.out, .now, .freeCtr, .sy, .rp, .rl, .log, .pw, .hw, .svc, .cl, .pl, .dk, .dm, .tw, .us, .ar, .pg, .tray, .deck] ⊆ fs)
    (h0 : Touch fs s0 s) : Touch fs s0 (tick s) := by
  have h1 : Touch fs s0 { s with berths := s.berths.map (berthTick s.dev.sleep) } :=
    h0.trans <| Touch.berths rfl rfl rfl rfl fun c => by
      have : State.at { s with berths := s.berths.map (berthTick s.dev.sleep) } c = berthTick s.dev.sleep (s.at c) := by
        simp [State.at]
      rw [this]
      exact berthTick_touchB (subOf (by decide) sub)
  have key : ∀ u : State, Touch fs s0 u → Touch fs s0 { u with out := [], now := u.now + 1 } :=
    fun u hu => hu.frame rfl (fun nf => absurd (sub (by decide)) nf) (fun nf => absurd (sub (by decide)) nf) (fun _ => rfl) (fun _ => rfl)
  have h2 := key _ h1
  unfold tick
  dsimp only
  split
  · exact h2
  · exact Touch.iter (fun _ _ h => flashRetry_touch (subOf (by decide) sub) h)
      (loadersPump_touch (subOf (by decide) sub)
        (Touch.iter (fun _ _ h => berthRetry_touch (subOf (by decide) sub) h) h2))
end Sys2Proof.Machine
end

