-- ==== Sys2Proof/Laws/Touch/Step.lean ====
section
/-! SUPPORT. What each operation of Machine/Step.lean can touch. -/
set_option linter.unusedTactic false
set_option linter.unreachableTactic false
namespace Sys2Proof.Machine

theorem State.withFetchWord_touch {fs : List Piece} {s0 : State} {s : State} {nbits : Nat} {w : Nat} (sub : [] ⊆ fs) (h0
    : Touch fs s0 s) : Touch fs s0 (State.withFetchWord s nbits w) := by
  unfold State.withFetchWord
  try dsimp only
  repeat' first
    | with_reducible assumption | intro _ | split
    | (refine Touch.frame (by with_reducible assumption) ?_ ?_ ?_ ?_ ?_ <;> first | with_reducible rfl | (intro nf; first | with_reducible rfl | exact absurd (sub (by decide)) nf))
    | dsimp only
end Sys2Proof.Machine
end

