-- ==== Sys2Proof/Machine/Pins.lean ====
section
/-! DEFINITION. The output balls of the package and what drives them (R120, R122, R134, R437). -/
namespace Sys2Proof.Machine

/-- An output, or a group of outputs that leave the inert state together (R122). -/
inductive Ball where
  /-- RAIL_EN[11:0], and TRAY_EN as rail 12 -/
  | railEn (b : BId) (r : Fin 13)
  /-- AVS_CLK and AVS_MDATA of a controller -/
  | avs (b : BId) (c : Fin 2)
  | pwm (b : BId) (c : Fin 3)
  | valve (b : BId)
  /-- HWS_TXP and HWS_TXN -/
  | hawser (b : BId)
  /-- QSPI_CS_N, QSPI_SCK and QSPI_IO[3:0] of B0 or B4 -/
  | qspi (b : BId)
  /-- TW_SDA and TW_SCL -/
  | twSda (b : BId)
  | twScl (b : BId)
  /-- the D+ pull-up -/
  | usb (b : BId)
  | tdo
deriving DecidableEq, Repr

/-- What drives a ball: nothing, a level, or the signals of its controller. -/
inductive Drive where
  /-- high-impedance, released or off: the inert state of R122 -/
  | inert
  | level (high : Bool)
  | signal
deriving DecidableEq, Repr

/-- Number of a ball among the boundary cells. -/
def Ball.num : Ball → Nat
  | .railEn b r => 32 * b.val + r.val
  | .avs b c => 32 * b.val + 13 + c.val
  | .pwm b c => 32 * b.val + 15 + c.val
  | .valve b => 32 * b.val + 18
  | .hawser b => 32 * b.val + 19
  | .qspi b => 32 * b.val + 20
  | .twSda b => 32 * b.val + 21
  | .twScl b => 32 * b.val + 22
  | .usb b => 32 * b.val + 23
  | .tdo => 256

/-- A download or an upload of the harbour runs on berth b's flash (R437). -/
def dfuDrives (s : State) (b : BId) : Bool :=
  match s.harbour with
  | none => false
  | some h => altFlash (usOf s h).alt == b && ((dfuOf s h).active || (dfuOf s h).st == .uploadIdle)

/-- What the berth's own logic drives (R122, R134). No command leaves the test port in a Shift state, so TDO is inert. -/
def ownDrive (s : State) (ball : Ball) : Drive :=
  let on (c : Bool) (d : Drive) : Drive := if c then d else .inert
  match ball with
  | .railEn b r => on (vget (s.at b).rl.rails r.val).en (.level true)
  | .avs b c => on (vget (s.at b).pw.avs c.val).drv .signal
  | .pwm b c => on (vget (s.at b).cl.ch c.val).pwm.isSome .signal
  | .valve b => match (s.at b).cl.valveOut with
    | some v => .level v
    | none => .inert
  | .hawser b => on (s.at b).hw.tx.on .signal
  | .qspi b => on ((s.at b).sy.qspi || dfuDrives s b) .signal
  | .twSda b => on (s.at b).tw.sdaLow (.level false)
  | .twScl b => on (s.at b).tw.sclLow (.level false)
  | .usb b => on (s.at b).us.attached (.level true)
  | .tdo => .inert

/-- What drives a ball: the boundary cells under EXTEST and CLAMP, nothing under HIGHZ, else the berth's own logic (R120). -/
def ballDrive (s : State) (ball : Ball) : Drive :=
  match s.dev.tap, s.dev.cells with
  | .highz, _ => .inert
  | _, some n => (match Config.cellDrive n ball.num with
    | some v => .level v
    | none => .inert)
  | _, none => ownDrive s ball

end Sys2Proof.Machine
end

