-- ==== Sys2Proof/Tests/Slice0.lean ====
section
/-! SUPPORT. The model's own tests: small states, the spec's worked cases, commands that are not well formed, and, for every statement
with hypotheses, a theorem that names states and operands that meet them, clause by clause. -/
namespace Sys2Proof.Tests
set_option maxRecDepth 100000
open Sys2Proof Sys2Proof.Machine

/-! ### States -/

/-- Every berth out of reset and ACTIVE in a ring of eight, B0 harbour and clock source, one chart locked (B0 and B4 harbour-capable). -/
def base : State :=
  { State.reset with dev := { State.reset.dev with supplies := true, present := 255 } }.updAll fun b x => { x with
    sy := { x.sy with
      inReset := false, st := .active, isHarbour := b == 0, isSrc := b == 0, clkLocked := true, harbour := 0 }
    rp := { x.rp with ports := .replicate 4 { trained := true } }
    ch := { x.ch with locked := true, state := .locked, recs := [⟨1, 0, [0x000011FF, 5000, 0, 0]⟩] }
    log := { x.log with on := true }
    td := { x.td with running := true, synced := true }
    dk := { x.dk with inDeck := true, hand := .replicate 8 0x00400040 }
    tw := { x.tw with active := b == 0 }
    us := { x.us with active := b == 0 } }

def onDev (f : Dev → Dev) (s : State) : State := { s with dev := f s.dev }
def onSy (b : BId) (f : Sy → Sy) (s : State) : State := s.upd b fun x => { x with sy := f x.sy }
def onPort (b : BId) (p : Nat) (f : RingPort → RingPort) : State → State := updRp b fun y => { y with ports := vmod y.ports p f }

/-- `base` before the chart lock: every berth MOORED. -/
def moored : State := base.updAll fun _ x => { x with
  sy := { x.sy with st := .moored }, ch := { x.ch with locked := false, state := .distributing }, log := { x.log with on := false } }

def resetting : State := onDev (fun d => { d with rstBusy := true, tap := .extest }) base
def held2 : State := onSy 2 (fun y => { y with inReset := true }) base
def claim4 : State := onSy 0 (fun y => { y with isHarbour := false }) (onSy 4 (fun y => { y with
  st := .inert, pll := true, straps := ⟨4, 0, false, false, true⟩ }) base)
def collide : State := onSy 4 (fun y => { y with claims := true }) (onSy 0 (fun y => { y with claims := true }) base)
def windowEnd : State := onDev (fun d => { d with window := true }) (onSy 0 (fun y => { y with
  claims := true, st := .training, isHarbour := false }) base)
def electMoored : State := onSy 4 (fun y => { y with pll := true, straps := ⟨4, 0, false, false, true⟩ }) moored
def late3 : State := onSy 3 (fun y => { y with st := .inert }) base
def lateWindow : State := onDev (fun d => { d with window := true }) (onSy 0 (fun y => { y with isHarbour := false, claims := true }) late3)
def replay0 : State := onPort 0 1 (fun q => { q with txSeq := 40, replay := List.replicate 32 ⟨7, some 3, none⟩ }) base
def train2 : State := onPort 2 1 (fun q => { q with training := true, trained := false }) base
def retiring3 : State := onSy 3 (fun y => { y with retireOrder := true }) base
def retiringUp3 : State := retiring3.updRl 3 fun r => { r with slot := .up }
def bypass3 : State := onSy 3 (fun y => { y with bypassAt := some 0 }) base
def silent2 : State := onSy 2 (fun y => { y with silentMarks := 16, holdover := true }) base
def isolated3 : State := onSy 3 (fun y => { y with st := .isolated }) base
def silent4 : State := onSy 4 (fun y => { y with silentMarks := 4, holdover := true, pll := true }) base
def switch2 : State := onSy 2 (fun y => { y with switchTo := some .highNbr, holdover := true, clkLocked := false }) base

def onTd (b : BId) (f : Td → Td) (s : State) : State := s.upd b fun x => { x with td := f x.td }
def onCh (b : BId) (f : Ch → Ch) (s : State) : State := s.upd b fun x => { x with ch := f x.ch }
def onTray (b : BId) (f : Tray → Tray) (s : State) : State := s.upd b fun x => { x with tray := f x.tray }

def unlocked : State := base.updAll fun _ x => { x with log := { x.log with on := false } }
def erred : State := onSy 2 (fun y => { y with errCause := 3 }) base
def reserved2 : State := base.updPl 2 fun p => { p with resv := some 0x100 }
def latched : State := onSy 2 (fun y => { y with latch := vset y.latch 9 (some ⟨0x1010, 5⟩) }) base
def frozen2 : State := onTd 2 (fun t => { t with tide := 300 }) (onSy 2 (fun y => { y with snapFrozen := true, snapTide := 44 }) base)
def tideOn : State := onTd 0 (fun t => { t with ctrl := 1 }) base
def edge (l : Loop) (r : Option Nat) (losses : Nat) : State :=
  { onTd 0 (fun t => { t with edgeAt := some 500000, loop := l, ref := r, clean := true, losses := losses }) base with now := 510000 }
def edgeRetired : State := edge .inputRetired none 0
def edgeFirst : State := edge .free none 0
def edgeLocked : State := edge .locked (some (500000 * 2 ^ 32 - 1789569706666667)) 1
def edgeEarly : State := edge .locked (some (400000 * 2 ^ 32)) 0
def miss0 : State := edge .locked (some (100000 * 2 ^ 32)) 0
def missAcq : State := edge .acquire (some (100000 * 2 ^ 32)) 1
def missLocked : State := edge .locked (some (100000 * 2 ^ 32)) 1
def holdEnd : State := onTd 0 (fun t => { t with loop := .hold, holdTides := 50 }) base
def unsynced2 : State := onTd 2 (fun t => { t with synced := false }) base
def ahead2 : State := onTd 2 (fun t => { t with tide := 2, mark := 0 }) base
def checking (other : Bool) : State := onCh 0 (fun c => { c with state := .reading, load := .check false other, locked := false }) moored
def checkingA : State := checking true
def checkingB : State := checking false
def due3 : State := onTray 0 (fun t => { t with dist := vset t.dist 3 (.due true) }) moored
def sigDue4 : State := onCh 4 (fun c => { c with sigDue := true, stream := [1, 2] }) moored
def sent (n : BId) (first : Bool) (k : Nat) : State :=
  onTray 0 (fun t => { t with dist := vset t.dist n.val (.sent false first), attempts := vset t.attempts n.val k }) moored
def sent3 : State := sent 3 false 1
def sent4 : State := sent 4 false 3
def sentSig4 : State := sent 4 true 3
def agreed : State := onTray 0 (fun t => { t with dist := .replicate 8 .agreed }) moored
def lateAgreed : State := onSy 3 (fun y => { y with st := .moored }) (onCh 3 (fun c => { c with locked := false })
  (onTray 0 (fun t => { t with dist := .replicate 8 .agreed }) base))
def heldBerth3 : State := onTray 0 (fun t => { t with dist := vset t.dist 3 .held, moor := vset t.moor 3 2 }) base
def failedChart : State := onCh 0 (fun c => { c with state := .failed, locked := false }) moored
def rolled : State := onCh 0 (fun c => { c with rollback := 1 }) base
def keyed : State := onCh 4 (fun c => { c with keys := vset c.keys 2 5 }) (onCh 0 (fun c => { c with keys := vset c.keys 2 5 }) base)
def keyData1 : State := onCh 0 (fun c => { c with keyData := vset c.keyData 0 1 }) base
def burning (j : FuseJob) : State := onCh 0 (fun c => { c with busy := true, fuseJob := some j }) base
def burnCount : State := burning (.count 3 1 [4, 0])
def burnKey : State := burning (.key 3 1 [4, 0])
def burnRevoke : State := burning (.revoke 3 [4, 0])
def sleeping : State := onDev (fun d => { d with sleep := true }) base

/-- Berth 2 with four rails: rail 0 on AVSBus, rail 1 with power-good wait, rail 2 monitored, rail 3 after rail 1; partition 0 has
four steps. -/
def slot2 : State := (base.updRl 2 fun r => { r with
    graph0 := vset (vset (vset (vset r.graph0 0 0xFF05) 1 0xFF03) 2 0xFF01) 3 0xF101
    thr := vset (vset (vset r.thr 0 0x3FFF2064) 1 0x3FFF2064) 2 0x3FFF2064 }).upd 2 fun x => { x with
  ch := { x.ch with recs := x.ch.recs ++ [⟨5, 2, [0x07D00064, 500, 900, 900, 900, 900]⟩,
    ⟨14, 2, [4, 0x01F40258, 0x020801F4, 0x022603E8, 0x02580400]⟩] }
  cl := { x.cl with ch := .replicate 3 {} } }
def rail (r : Nat) (f : Rail → Rail) (s : State) : State := s.updRail 2 r f
def slotIs (st : SlotState) (s : State) : State := s.updRl 2 fun r => { r with slot := st }
def inputIs (i : Nat) (f : AdcIn → AdcIn) (s : State) : State := s.updRl 2 fun r => { r with ins := vmod r.ins i f }
def part (f : Part → Part) (s : State) : State := s.updPart 2 0 f

def powering : State := slotIs .powering (rail 0 (fun l => { l with st := .waiting }) (rail 1 (fun l => { l with st := .ramping, en := true })
  (rail 2 (fun l => { l with st := .waiting }) slot2)))
def ramping2 : State := inputIs 2 (fun n => { n with riseRun := 2 }) (rail 2 (fun l => { l with st := .ramping, en := true }) powering)
def last1 : State := rail 3 (fun l => { l with st := .up, en := true }) (rail 2 (fun l => { l with st := .up, en := true })
  (rail 0 (fun l => { l with st := .up, en := true }) powering))
def unmonitored2 : State := powering.updRl 2 fun r => { r with thr := vset r.thr 2 0x3FFF0064 }
def up2 : State := slotIs .up (rail 1 (fun l => { l with st := .up, en := true, pg := true }) last1)
def downStop : State := slotIs .retired slot2
def limits2 : State := inputIs 1 (fun n => { n with softLow := 2, softHigh := 2, hardLow := 2, hardHigh := 2 }) up2
def tripped2 : State := rail 1 (fun l => { l with trip := some 0 }) up2
def alert13 : State := inputIs 13 (fun n => { n with softLow := 2 }) (up2.updRl 2 fun r => { r with thr := vset r.thr 13 0x1FFF2064 })
def reading13 : State := inputIs 13 (fun n => { n with softLow := 1 }) alert13
def falling2 : State := slotIs .shutting (inputIs 2 (fun n => { n with offRun := 2 }) (rail 2 (fun l => { l with st := .falling }) slot2))
def fallingUn : State := rail 3 (fun l => { l with st := .falling }) falling2
def inHold : State := slotIs .faultHold slot2
def restarted : State := slot2.updRl 2 fun r => { r with faultSince := true, restartHist := [0, 0] }
def floorOver : State := onTray 0 (fun t => { t with pw := { t.pw with floorRun := 256 } }) base
def admitted2 : State := onTray 0 (fun t => { t with pw := { t.pw with
  admis := vset t.pw.admis 2 .admitted, grant := vset t.pw.grant 2 1000, budget := 2000 } }) base
def avs (w : AvsWrite) (fails : Nat) : State := (part (fun p => { p with acked := 700, setpoint := 700, target := 750, writing := true })
  up2).updPw 2 fun p => { p with avs := vmod p.avs 0 fun a => { a with queue := [w], hist := List.replicate fails 0 } }
def avs0 : State := avs ⟨0, 750, false, 0, false⟩ 0
def confirming (status : Bool) : State := avs0.updPw 2 fun p => { p with
  avs := vmod p.avs 0 fun a => { a with statusRead := status, confirm := some 0 } }
def avs2 : State := avs ⟨0, 750, false, 2, true⟩ 0
def avs2Many : State := avs ⟨0, 750, false, 2, true⟩ 8
def settling : State := part (fun p => { p with settling := some 700, target := 700 }) (inputIs 0 (fun n => { n with code := 4095 }) up2)
def unsettled : State := part (fun p => { p with settling := some 700, target := 700, tries := 2 }) up2
def trimming : State := { (part (fun p => { p with ready := true, target := 700, setpoint := 700, applied := 1 })
  (inputIs 0 (fun n => { n with code := 1500 }) up2)).updPw 2 (fun p => { p with trim := 0x1901 }) with now := 30000 }
def scanEnd : State := up2.updRl 2 fun r => { r with scanAt := 24 }
def hot : State := inputIs 20 (fun n => { n with code := 0xFFF }) ((part (fun p => { p with
    thermIns := [20], currIns := [20], ready := true, applied := 3, sTherm := 3, sCurr := 3 }) up2).updRl 2 fun r =>
  { r with thr := vset r.thr 20 0x2FF02064 }) |>.updPw 2 fun p => { p with bnd := 200 }
def cool : State := (inputIs 20 (fun n => { n with code := 0 }) hot).updPw 2 fun p => { p with clear := vset p.clear 20 100 }
def over2 : State := (part (fun p => { p with ready := true, applied := 3 }) up2).updPw 2 fun p => { p with
  grant := 10, avg := 11, overRun := 1 }
def under2 : State := up2.updPw 2 fun p => { p with grant := 32, avg := 30, underRun := 15 }

def rec0 : LogRec := ⟨2, 0, 7, 1, 2, 3, 4, 5, 6⟩
def onLog (f : LogSt → LogSt) : State := base.updLog 0 f
def deckOut : State := (base.updAll fun _ x => { x with dk := { x.dk with inDeck := false } })
def dropped3 : State := onLog fun l => { l with originDrop := vset l.originDrop 3 2, curBuf := some 5 }
def programming : State := onLog fun l => { l with busy := some (.record 0x02100020 rec0), queue := [([rec0], none)] }
def programming2 : State := onLog fun l => { l with busy := some (.record 0x02100020 rec0), queue := [([rec0, rec0], none)] }
def opening : State := onLog fun l => { l with busy := some (.sector 0x02100000 1 rec0) }
def erasing : State := (onLog fun l => { l with busy := some (.erase 0x02110000) }).upd 0 fun x => { x with flash := [(0x02110000, 1), (0x02120000, 2)] }
def finding : State := onLog fun l => { l with finding := true }

def cooling (b : BId) (c : Nat) (f : Cool → Cool) (s : State) : State := updCool b c f s
def fan2 : State := updCool 2 0 (fun k => { k with cfg0 := 0x03E80201, dmin := 30, st := .kick, edges := 1 }) base
def fanRun : State := updCool 2 0 (fun k => { k with st := .run, cmd := 400, valid := true, edges := 5, lastT := 100000000 }) fan2
def fanStall : State := updCool 2 0 (fun k => { k with st := .stalled, offPhase := true }) fan2
def fanTired : State := updCool 2 0 (fun k => { k with stallHist := List.replicate 5 0 }) fan2
def pump2 : State := updCool 2 1 (fun k => { k with cfg0 := 0x03E80002, st := .run, pos := 512, indexSeen := 1, fwd := 100, rev := 20 }) base
def pumpTired : State := updCool 2 1 (fun k => { k with encHist := List.replicate 16 0 }) pump2
def pumpTop : State := updCool 2 1 (fun k => { k with pos := 1023 }) pump2
def roped : State := (up2.updCl 2 fun x => { x with valve := 0x000006403, rope := vmod x.rope 1 fun r => { r with
  cfg := 0x2FF00010, st := .dry, wetRun := 2, openRun := 2 } })
def wetAgain : State := updRope 2 1 (fun r => { r with latch := true, st := .wet, dryRun := 2 }) roped
def ropeTired : State := updRope 2 1 (fun r => { r with hist := [0, 0, 0] }) roped
def latchedDry : State := updRope 2 1 (fun r => { r with latch := true }) roped

/-- Berth 2's array 1 VALID, in no graph; source and destination in TCM. -/
def arrays : State := updAr 2 (fun e => { e with src := 0x20000000, dst := 0x20001000 }) (updArr 2 1 (fun a => { a with st := .valid }) base)
def retiredCol : State := updArr 2 1 (fun a => { a with st := .degraded, ret := 1 }) arrays
def invalid1 : State := updArr 2 1 (fun a => { a with st := .invalid }) arrays
def ordered (cmd : Nat) (ph : ArPhase) (row : Nat) (t : List (Nat × Nat)) : State :=
  updAr 2 (fun e => { e with cmd := cmd, cmdArr := 1, phase := ph, row := row, target := t })
    (updArr 2 1 (fun a => { a with st := .busy }) arrays)
def verifying : State := ordered 2 .sense 254 [(152, 3)]
def asleep2 : State := onDev (fun d => { d with sleep := true }) verifying
def verifyLast : State := ordered 2 .sense 255 [(152, 3)]
def programRow : State := ordered 1 .sense 254 [(152, 3)]
def programRound : State := ordered 1 (.round 30) 254 [(152, 3)]
def programRound31 : State := ordered 1 (.round 31) 254 [(152, 3)]
/-- VERIFY whose source rows run past the end of the TCM from row 255 on. -/
def sourceless (cmd : Nat) : State := updAr 2 (fun e => { e with src := 0x20040000 - 255 * 24 }) (ordered cmd .sense 254 [(152, 3)])
def aborted : State := updAr 2 (fun e => { e with abort := true }) verifying
def abortedRound : State := updAr 2 (fun e => { e with abort := true }) programRound
/-- The levels of a row whose column 152 reads level 3, and all others 0. -/
def row3 : BitVec 640 := 3#640 <<< 608
def calDue1 : State := updArr 2 1 (fun a => { a with calRun := true }) arrays
def testDue1 : State := updArr 2 1 (fun a => { a with testDue := 1 }) arrays
/-- A calibration's deviations: the codes of levels 0, 5, 10 and 15 lie 0, 160, 320 and 480 above the nominal transfer. -/
def calCodes : BitVec 9216 := BitVec.ofNat 9216 ((upto 1024).foldl (fun t n => t <<< 9 + 160 * ((1023 - n) / 256)) 0)
def calRetries : State := updAr 2 (fun e => { e with gcfg := .replicate 4 0x00300000 }) calDue1
def closing : State := updAr 2 (fun e => { e with phase := .closeCal, cmdArr := 1 }) calDue1
/-- Array 1 whose data columns have all retired: its reference columns alone are tested. -/
def testRefs : State := updArr 2 1 (fun a => { a with st := .degraded, ret := BitVec.ofNat 160 (2 ^ 152 - 1) }) testDue1
def passing : State := updAr 2 (fun e => { e with phase := .pass, cmdArr := 1 }) arrays
def noCodes : Vector (BitVec 11520) 4 := .replicate 4 0

def image : GImage := {
  ver := 1, rollback := 1, keyIdx := 0, roleOk := 3, slotScope := false, cadence := 0, phase := 0
  feats := [⟨0, 3, 0, 0, 0, 1⟩], stages := [⟨0, 0, 1, false⟩, ⟨1, 1, 1, false⟩]
  layers := [⟨1, 1, 0, 0, 0, 1, 0, 255⟩, ⟨1, 1, 0, 0, 0, 1, 0, 255⟩], biases := [0, 0]
  tiles := [⟨0, 0, 0⟩, ⟨1, 0, 0⟩], binds := [], weights := 0, digest := [] }
def graph (g : Nat) (f : Graph → Graph) : State := updGraph 0 g (fun gr => f { gr with
  st := .running, img := some image, place := [⟨2, 1, 2, false⟩, ⟨3, 1, 2, false⟩] }) arrays
def infer (st : InfStep) : State := graph 0 fun gr => { gr with inf := some ⟨st, [5], [], [0], false, [false]⟩ }
def gathering : State := infer .gather
def travelling : State := infer (.travel 1)
def passing0 : State := infer (.pass 0 0)
def outputsReady : State := updGraph 0 0 (fun gr => { gr with st := .fallback }) (infer .outputs)
/-- The same with berth 3, which holds the second stage, ISOLATED. -/
def cutOff (s : State) : State := onSy 3 (fun y => { y with st := .isolated }) s
def stalled (n : Nat) : State := graph 0 fun gr => { gr with st := .stalled, stallMarks := n, inf := some ⟨.gather, [5], [], [0], false, [false]⟩ }
def stalled256 : State := stalled 256
def stalled255 : State := stalled 255
def loadedGraph : State := graph 0 fun gr => { gr with st := .loading }
def dummy : State := (updPg 0 (fun p => { p with dcmp := 1024, dagree := 1024 }) (graph 1 fun gr => { gr with cmpDue := true })).upd 0 fun x =>
  { x with ch := { x.ch with recs := x.ch.recs ++ [⟨13, 1, [0x10001]⟩, ⟨13, 0, [0]⟩] } }
def promotable : State := dummy.upd 0 fun x => { x with ch := { x.ch with recs := x.ch.recs.map fun r =>
  if r.ty == 13 then { r with body := [0x11] } else r } }
def swapping : State := updPg 0 (fun p => { p with swapDue := true }) dummy
def swapStarted : State := updGraph 0 1 (fun gr => { gr with inf := some ⟨.gather, [5], [], [0], false, [false]⟩ }) swapping
/-- A graph in FAILED whose image is in its store and whose arrays are in the role's set. -/
def again : State := (graph 0 fun gr => { gr with st := .failed, place := [], store := some 0 }).updAll fun _ x => { x with
  ch := { x.ch with recs := x.ch.recs ++ [⟨13, 1, [0x30011]⟩] } }
def ordersHeld : State := again.updAll fun _ x => { x with pg := { x.pg with ord := some default } }
def storeless : State := graph 1 fun gr => { gr with st := .failed, store := none }

def onHw (f : Hw → Hw) (s : State) : State := s.updHw 2 f
def onSvc (f : Svc → Svc) (s : State) : State := s.updSvc 2 f
def enabled : State := onHw (fun h => { h with cfg := h.cfg ||| 1 }) up2
/-- Berth 2's link is UP and locked; tag 5 carries a READ order of the mailbox of requester 9, tag 6 is quarantined with its
completion unread. -/
def order5 : Order := { op := .read, owner := .mailbox 9, len := 4 }
def linked : State := onHw (fun h => { h with
  link := .up, limit := 64, tags := vset (vset h.tags 5 (.used order5)) 6 (.quarantined (some 9))
  rx := { h.rx with lock := true, proven := true }, tx := { h.tx with on := true, acked := 254, replayBuf := [⟨2, 255, [1, 2, 3, 4, 5, 6]⟩] } }) enabled
def training2 : State := onHw (fun h => { h with link := .train, tx := { h.tx with on := true } }) enabled
/-- Berth 2 searches; the marker is in all but its last bit, at an offset that has had k hits. -/
def searching (k : Nat) : State := onHw (fun h => { h with rx := { h.rx with
  recent := marker <<< 1, seen := 31, pos := 7, hits := [(7, k)] } }) training2
def trainTired : State := onHw (fun h => { h with hist := [0, 0] }) training2
def unproven : State := onHw (fun h => { h with rx := { h.rx with proven := false, sinceLock := 8 } }) linked
def markerless : State := onHw (fun h => { h with rx := { h.rx with badMarkers := 8 } }) linked
def resent : State := onHw (fun h => { h with tx := { h.tx with resends := 3 } }) linked
def freqWaits : State := onHw (fun h => { h with freqRetry := [(1, 3)] }) linked
def payload : List Word := [2, 1, 2, 3, 4, 5, 6]
def frameOf (ps : List Word) (crc : Word) : Vector Word 9 :=
  let w := (scrambleAll true ps (BitVec.allOnes 58)).1
  Vector.ofFn fun i => if i.val = 0 then marker else if i.val = 8 then crc else (w[i.val - 1]?).getD 0
def goodFrame : Vector Word 9 := frameOf payload (crc32 (wordsBytes payload))
/-- A payload with reserved bit 31 of word 0 set. -/
def spoiled : List Word := [0x80000002, 1, 2, 3, 4, 5, 6]
def badBits : Vector Word 9 := frameOf spoiled (crc32 (wordsBytes spoiled))
def reservedFrame : List Word := badBits.toList
def badCrc : Vector Word 9 := frameOf payload 0
def badMarker : Vector Word 9 := .replicate 9 0
def front (m : RxMsg) : State := onHw (fun h => { h with rx := { h.rx with queue := [m] } }) linked
def reply5 : State := front ⟨3, 5, 1, 4, 0, [1, 2, 3, 4], 1⟩
def reply5Long : State := front ⟨3, 5, 1, 8, 0, [1, 2, 3, 4, 5, 6, 7, 8], 2⟩
def reply6 : State := front ⟨3, 6, 1, 0, 0, [], 1⟩
def event2 : State := front ⟨4, 0, 7, 2, 0, [1, 2], 1⟩
def eventFull : State := onHw (fun h => { h with evq := List.replicate 32 ⟨1, 0, 0⟩ }) event2
def eventNoBuf : State := event2.updDk 2 fun d => { d with inDeck := false }
def tagsFull : State := onHw (fun h => { h with tags := .replicate 64 (.used order5) }) linked
def completed : State := onHw (fun h => { h with cpl := [⟨63, 0x10, 256, 9⟩], evq := [⟨255, 511, 256⟩] }) linked

def waitsSlot : State := onSvc (fun v => { v with step := .waitSlot }) enabled
def serving2 (f : Svc → Svc) : State := onSvc (fun v => f { v with st := .service }) linked
def inService : State := serving2 id
def inStage (st : SvcStep) (busy : Bool) : State := onSvc (fun v => { v with st := .clocks, step := st, busy := busy }) linked
def polling2 : State := inStage (.poll .clocks) false
def busyCtrl : State := inStage (.ctrl .clocks) true
def resetting2 (st : SvcStep) : State := onSvc (fun v => { v with st := .resetting, step := st, rstLevel := 1 }) linked
def quiescing : State := resetting2 (.ctrl .quiesce)
def holdingReset : State := resetting2 .holding
def reporting2 : State := onSvc (fun v => { v with reporting := true, pollMarks := 8 }) linked
def flitUp : SlotFlit := { slot := .up, svc := .service }
def flitDown : SlotFlit := { slot := .down }
def same2 : State := onTray 0 (fun t => { t with slots := vset t.slots 2 flitDown }) base

/-- Berth 2's pilot runs with one instruction at the start of its TCM; x1 is 0x20000100, x2 is 0x20000203. -/
def core (w : Nat) (f : Pilot → Pilot) : State := base.upd 2 fun x => { x with
  tcm := memWrite ramD [] 0 (leBytes 4 w)
  pl := f { x.pl with st := .running, pc := 0x20000000, regs := vset (vset x.pl.regs 0 0x20000100) 1 0x20000203 } }
def coreAdd : State := core 0x002081B3 id
def coreBeq : State := core 0x00208463 id
def coreJalr : State := core 0x005100E7 id
def coreIll : State := core 0 id
def coreEcall : State := core 0x73 id
def coreUser : State := core 0x73 fun p => { p with
  machine := false, csr := { p.csr with pmpcfg := vset p.csr.pmpcfg 0 0x1F, pmpaddr := vset p.csr.pmpaddr 0 0x1FFFFFFF } }
def coreUserMret : State := coreUser.upd 2 fun x => { x with tcm := memWrite ramD [] 0 (leBytes 4 0x30200073) }
def coreEbreak : State := core 0x00100073 id
def coreMret : State := core 0x30200073 fun p => { p with csr := { p.csr with mppM := false, mepc := 8, mpie := true } }
def coreLw : State := core 0x00012283 id
def coreSw : State := core 0x00512023 id
def corePmp (w : Nat) : State := core w fun p => { p with csr := { p.csr with mprv := true } }
def coreLwPmp : State := corePmp 0x0000A283
def coreSwPmp : State := corePmp 0x0050A023
def coreLost : State := core 0 fun p => { p with pc := 0 }
def coreCsr : State := core 0x340092F3 id
def coreCsrRo : State := core 0xF14092F3 id
def coreFence : State := core 0x0FF0000F id
def coreFenceWaits : State := onSy 2 (fun y => { y with remotes := [⟨2, 0x43000000, 4, true, 1, 0x20000000, 4, 0, false⟩] }) coreFence
def coreWfi : State := core 0x10500073 id
def coreIrq : State := core 0x73 fun p => { p with msip := true, csr := { p.csr with msie := true, mie := true, mtvec := 0x20000001 } }
def coreTimer : State := core 0x73 fun p => { p with waiting := true, mtime := 5, mtimecmp := 5, csr := { p.csr with mtie := true } }
def loading3 : Remote := ⟨2, 0x43F01001, 4, false, 0, 0x20000000, 4, 5, false⟩
def storing3 : Remote := ⟨2, 0x43000000, 4, true, 1, 0x20000000, 4, 0, false⟩
def coreLoads : State := onSy 2 (fun y => { y with remotes := [loading3] }) (core 0x73 id)
def coreStores : State := onSy 2 (fun y => { y with remotes := [storing3] }) (core 0x73 id)

def readTcm : Remote := ⟨2, 0x43000100, 4, false, 0, 0x20000000, 4, 5, false⟩
def readDeck : Remote := { readTcm with addr := 0x43100100 }
def readReg : Remote := { readTcm with addr := 0x43F00000 }
def coreReads (r : Remote) : State := onSy 2 (fun y => { y with remotes := [r] }) (core 0x73 id)
def storedLate : State := onSy 2 (fun y => { y with timedOut := [storing3] }) base
def starting2 : State := base.upd 2 fun x => { x with
  tcm := [(3, 1), (4, 2)], pl := { x.pl with st := .loading, startDue := true, entry := 8, bodyLen := 4 } }
def restarted4 : State := core 0x73 fun p => { p with hist := [0, 0, 0, 0] }
def streaming (fails : Nat) : State := base.updPl 2 fun p => { p with st := .loading, stream := true, failedStreams := fails }
def streaming1 : State := streaming 1
def streaming2 : State := streaming 2
/-- A PILOT_FW region of slot A with an empty body. -/
def header : List Byte := List.replicate 8 7 ++ List.replicate 4 0 ++ List.replicate 52 9
def imaged : State := (streaming1.upd 0 fun x => { x with flash := memWrite flashD [] (regionBase false 0) header }).upd 0 fun x => { x with
  tray := { x.tray with img := { x.tray.img with roles := vset x.tray.img.roles 0 { ({} : ImgRole) with
    st := .loaded, store := true, rollback := 1, entry := 4, bodyLen := 0, digest := digestBytes (sha384 header) } } } }
def regionDue : State := (onTray 0 (fun t => { t with img := { t.img with job := .region 3 true [] true, busy := true } }) base)
def roleKnown : State := base.upd 0 fun x => { x with ch := { x.ch with recs := x.ch.recs ++ [⟨13, 3, [0]⟩] } }
def copying : State := imaged.updPl 2 fun p => { p with stream := false }
def fused : State := copying.upd 2 fun x => { x with ch := { x.ch with fuse := vset x.ch.fuse 1 2 } }

def handed2 : State := base.updDk 2 fun d => { d with held := [(511, ⟨2, 5⟩)] }
def noDeck : State := base.updDk 2 fun d => { d with inDeck := false }
def onDma (f : Dma → Dma) : State := base.updDm 2 1 f
def desc (op src dst len st : Nat) (d : Dma) : Dma :=
  { d with desc := vset (vset (vset (vset (vset d.desc 0 (wordOf op)) 1 (wordOf src)) 2 (wordOf dst)) 3 (wordOf len)) 7 (wordOf st) }
def queued : State := onDma fun d => desc 1 0x20000000 0x20001000 512 1 d
def running (len : Nat) : State := onDma fun d => { desc 1 0x20000000 0x20001000 len 2 d with st := .running, tail := 1 }
def running512 : State := running 512
def running256 : State := running 256
def faulty : State := onDma fun d => { desc 1 0x20000000 0x20001000 256 2 d with st := .running, tail := 1, desc := vset (desc 1 0 0x20001000 256 2 d).desc 1 0x10000000 }
def haltedDma : State := onDma fun d => { desc 1 0x20000000 0x20001000 512 3 d with st := .halted, tail := 1 }
def haltedEnd : State := onDma fun d => { d with st := .halted }
def streamRead (out : List (Nat × Nat × Nat × Nat)) : State := (onDma fun d => { desc 3 0 0 512 2 d with st := .running, tail := 1, out := out }).updDk 2 fun d =>
  { d with inDeck := false }
def waitsHand : State := streamRead []
def waitsOut : State := streamRead [(0, 256, 3, 4)]
def spareDesc : State := onDma fun d => { desc 1 0x20000000 0x20001000 512 2 d with st := .running, tail := 1, desc := vset (desc 1 0x20000000 0x20001000 512 2 d).desc 255 1 }

def onTw (b : BId) (f : Tw → Tw) (s : State) : State := s.upd b fun x => { x with tw := f x.tw }
def onUs (b : BId) (f : Us → Us) (s : State) : State := s.upd b fun x => { x with us := f x.us }
def attnTw : State := onSy 0 (fun y => { y with straps := ⟨0, 0, false, false, true⟩ }) (onTw 0 (fun t => { t with attn := 0x208 }) base)
def attnPec : State := onTw 0 (fun t => { t with cfg := t.cfg ||| 8 }) attnTw
def sigDue0 : State := onTw 0 (fun t => { t with sigDue := true, cfg := t.cfg &&& ~~~16#32 }) attnTw
def notifyDue : State := onTw 0 (fun t => { t with sigDue := true, cfg := t.cfg ||| 16 }) attnTw
def arbTired : State := onTw 0 (fun t => { t with arbHist := List.replicate 15 0 }) notifyDue
def beaconing : State := onTw 0 (fun t => { t with phase := .beacon, sdaLow := true }) sigDue0
def backoff0 : State := onTw 0 (fun t => { t with phase := .backoff }) notifyDue
def stretched : State := onTw 0 (fun t => { t with sclLow := true, waking := true }) sleeping
def sleepNack : State := onTw 0 (fun t => { t with cfg := t.cfg ||| 32 }) sleeping

def usb (d : UsbDev) (f : Us → Us) : State := onUs 0 (fun u => f { u with vbus := true, attached := true, dev := d }) base
def defaulted : State := usb .default id
def configured : State := usb .configured fun u => { u with config := 1, addr := 5, cfg := u.cfg ||| 0xC }
def suspended : State := usb .configured fun u => { u with susp := true, rwake := true, wakeReq := true }
def telRec2 (n : Nat) : TelRec := ⟨List.replicate n 7, [5], false⟩
def telemetered (n sent : Nat) : State := usb .configured fun u => { u with telQueue := [telRec2 n], telFlight := some 64, telSent := sent, cfg := u.cfg ||| 4 }
def tel128 : State := telemetered 128 0
def telLast : State := telemetered 128 64
def telQuiet : State := onUs 0 (fun u => { u with cfg := u.cfg ||| 4 }) configured
def telOff : State := onUs 0 (fun u => { u with cfg := u.cfg &&& ~~~4#32 }) configured
def pushes16 : State := onUs 0 (fun u => { u with telQueue := List.replicate 16 ⟨[], [], true⟩ }) telQuiet
def pushReady : State := telQuiet.updDk 2 fun d => { d with held := [(511, ⟨2, 5⟩)] }

def dfu (f : Dfu → Dfu) : State := onUs 0 (fun u => { u with cfg := u.cfg ||| 2, alt := 2, dfu := f u.dfu }) configured
def dfuIdle : State := dfu id
def dfuOfLog : State := onUs 0 (fun u => { u with alt := 10 }) dfuIdle
def dnIdle : State := dfu fun d => { d with st := .dnloadIdle, active := true, block := 1, len := 256, held := List.replicate 256 3, erasedTo := 0x10000, stagedAt := 256 }
def dnSync : State := dfu fun d => { d with st := .dnloadSync, active := true, op := some (.erase 0 (regionBase false 0)) }
def dfuErr : State := dfu fun d => { d with st := .error, status := 4 }
def dfuErase : State := dfu fun d => { d with st := .dnloadSync, active := true, op := some (.erase 0 0x10000) }
def dfuProg : State := dfu fun d => { d with st := .dnloadSync, active := true, op := some (.program 0 0x10000 [1, 2, 3]) }
def manifesting : State := dfu fun d => { d with st := .manifestSync, active := true, len := 64, held := header, erasedTo := 0x10000 }

def unret (n : BId) (f : Berth → Berth) (arg : Nat) : State :=
  onTray 0 (fun t => { t with hl := { t.hl with arg := vset t.hl.arg 9 arg } }) (base.upd n f)
def unPort : State := unret 2 (fun x => { x with rp := { x.rp with ports := vmod x.rp.ports 1 fun q => { q with retired := true, trained := false } } }) 1
def unTide : State := unret 4 (fun x => { x with td := { x.td with loop := .inputRetired } }) 0
def unBerth : State := onTray 0 (fun t => { t with hl := { t.hl with retired := 8 } })
  (unret 3 (fun x => { x with sy := { x.sy with st := .retired, inReset := true } }) 0)
def unSlot : State := unret 2 (fun x => { x with rl := { x.rl with slot := .retired }, hw := { x.hw with link := .retired } }) 0
def unAvs : State := unret 2 (fun x => { x with pw := { x.pw with avs := vmod x.pw.avs 1 fun a => { a with retired := true } } }) 1
def unCool : State := unret 2 (fun x => { x with cl := { x.cl with ch := vmod x.cl.ch 1 fun a => { a with st := .retired, cfg0 := 0x03E80002 } } }) 1
def unRope : State := unret 2 (fun x => { x with cl := { x.cl with rope := vmod x.cl.rope 1 fun a => { a with st := .retired } } }) 1
def unColumn : State := unret 2 (fun x => { x with ar := { x.ar with arr := vmod x.ar.arr 1 fun a => { a with ret := 8#160, st := .degraded } } }) 163
def unBusyColumn : State := updArr 2 1 (fun a => { a with st := .busy }) unColumn
def unArray : State := unret 2 (fun x => { x with ar := { x.ar with arr := vmod x.ar.arr 1 fun a => { a with st := .retired } } }) 1
def unDma : State := (unret 2 id 1).updDm 2 1 fun d => { d with st := .retired }
def unTwi : State := unret 4 (fun x => { x with tw := { x.tw with ctrlRetired := true } }) 0
def unPilot : State := unret 2 (fun x => { x with pl := { x.pl with st := .halted } }) 0
def unCore : State := unret 2 (fun x => { x with svc := { x.svc with runtimeOff := 1#1024 <<< 3 } }) 3
def busyUn (kind : Nat) : State := onTray 0 (fun t => { t with hl := { t.hl with busy := true, kind := kind, berth := 2, index := 1 } }) base
def busyUn1 : State := busyUn 1
def busyUn3 : State := busyUn 3
def late3m : State := onSy 3 (fun y => { y with st := .moored }) base
def noDeckAt : State := late3m.updAll fun _ x => { x with dk := { x.dk with inDeck := false } }
def loaded2 : State := onTd 2 (fun t => { t with load := some (7, 9) }) base
def endTide : State := onTd 2 (fun t => { t with mark := 255, tide := 3, pnNext := some 12, running := true }) base
def stopped2 : State := onTd 2 (fun t => { t with running := false }) base
def extest : State := onDev (fun d => { d with tap := .extest, stby := true }) base

/-- The state a command leaves. -/
def after (c : Instr) (s : State) : State := match Machine.exec c s with
  | .next t => t
  | _ => State.reset

/-- The first n bytes of the one reply a command sends. -/
def replied (n : Nat) (s : State) : List Byte := match s.out with
  | [.reply bs] => bs.take n
  | _ => []

/-! ### The spec's worked cases -/

/-- The worked case of chapter 02, per-tide dither: three steps of the register, and d for SPAN 31 after the first. -/
theorem test_dither_register : [lfsrStep 0xACE1, lfsrStep 0xE270, lfsrStep 0x7138] = [0xE270, 0x7138, 0x389C]
    ∧ ditherOf { ({} : Td) with ctrl := 4, ditherCfg := 31 } 0xE270 = 28 := by decide

/-- Chapter 01, closing the ring through a chord: B4 with B0 as source has d = 4. -/
theorem test_clock_order : clkOrder 4 0 = [.lowNbr, .lowChord, .highNbr, .highChord] := by decide

/-- Chapter 01: SY_RING_STAT of B4 after B3's retirement reads 0x0001_08F7. -/
theorem test_ring_stat : liveReg (onPort 4 0 (fun q => { q with trained := false }) (onDev (fun d => { d with present := 0xF7, skip := 8 })
    (onSy 3 (fun y => { y with st := .retired }) base))) 4 false 9 0 0x010 = some 0x000108F7 := by decide

/-- Chapter 01, reading a 64-bit counter: requester 0xA has read the low word and latched 0; the replay that carries into the high
word does not change what its high read returns, and the latch empties. -/
theorem test_counter_latch :
    let t := after (.counterHighRead 10 2 0x42F00034) (onSy 2 (fun y => { y with
      ringRetry := 2 ^ 32, latch := vset y.latch 10 (some ⟨0x030, 0⟩) }) base)
    t.out = [.value 0] ∧ vget (t.at 2).sy.latch 10 = none := by decide

/-- Chapter 05, the RAIL_FAULT record of S2, words 0 to 6. -/
theorem test_rail_fault_record : (recBytes ⟨0x0E, 2, 0x131, 0x30D40, 42, 350, 0x01080022, 0x00000955, 0x0000FFFF⟩).take 28
    = wordsBytes [0x020E5A3C, 0x00000131, 0x00030D40, 0x015E2A00, 0x01080022, 0x00000955, 0x0000FFFF] := by decide

/-- Chapter 06, the thermal trump on S3: word 0 of the closed THERMAL entry, and the slot mark of the step window. -/
theorem test_thermal_entry : ledgerW0 { reason := 3, parts := 1, stepFrom := .replicate 4 13, stepTo := .replicate 4 12 } = 0x00018D13
    ∧ (atSlotMark { ({} : Td) with stepWin := 0x1040, dith := 28, mark := 98 } 3
      && !atSlotMark { ({} : Td) with stepWin := 0x1040, dith := 28, mark := 97 } 3) = true := by decide

/-- Chapter 07, a fan that seizes: T = 240,000 COOL cycles at PPR 2 is 6,000 rpm. -/
theorem test_fan_speed : fanRpm { ({} : Cool) with cfg0 := 0x07D00201 } 240000 = 6000 := by decide

/-- Chapter 08, one logical output through a pass: A = 5,249 and X = 281 give D = 6,024, and the output 195. -/
theorem test_post_unit : (postD 5249 281).1 = 6024 ∧ postUnit 5249 281 (-1024) 40 10 1 0 0 0 = (195, false) := by decide

/-- Chapter 08, a drifting column: the calibration from means 24, 2,542, 5,018 and 7,488. -/
theorem test_calibration : calCandidate #v[24, 2542, 5018, 7488] = (some 0x41DA, 24)
    ∧ calAccepts #v[24, 2542, 5018, 7488] 3 = true := by decide

/-- Chapter 09, the promotion: 1,571 agreements of 1,600 meet MIN_CMP 1,536 and MIN_AGREE 1,000. -/
theorem test_agreement : statsPass (updPg 0 (fun p => { p with crit := 0x060003E8, dcmp := 1600, dagree := 1571 }) base) 0 0 = true
    ∧ statsPass (updPg 0 (fun p => { p with crit := 0x060003E8, dcmp := 1600, dagree := 1562 }) base) 0 0 = false := by decide

/-- Chapter 09, binding 3: graph output 4,120 scales to 1,587. -/
theorem test_binding_scale : scaleOut { (default : Binding) with oscale := 5, oshift := 4, obase := 300 } 4120 = 1587 := by decide

/-- Chapter 10, the READ order's header: P0 to P3. -/
theorem test_read_header : txP0 { ({} : Hw) with rx := { ({} : HwRx) with last := 0xFF } } 2 0 false = 0x40FF0002
    ∧ orderFrames 0 { op := .read, owner := .mailbox 3, addr := 0x100000000, len := 256 }
      = [(2, [0x01000100, 0, 1, 0, 0, 0])] := by decide

/-- Chapter 10: the completion of the READ reads 0x3100_0040. -/
theorem test_completion_word : (cplRead 2 (onHw (fun h => { h with cpl := [⟨0, 0, 256, 3⟩] }) base)).1 = 0x31000040 := by decide

/-- Chapter 11, resetting a hung cluster: QUIESCE carries 0x0001, and 0x0005 once the drain bound has passed. -/
theorem test_quiesce_words : fnArg0 (onSvc (fun v => { v with rstLevel := 1 }) base) 2 .quiesce = 1
    ∧ fnArg0 (onSvc (fun v => { v with rstLevel := 1, escalated := true }) base) 2 .quiesce = 5
    ∧ fnCode .quiesce = 7 := by decide

def scanned : State := (onSy 0 (fun y => { y with straps := ⟨2, 0, false, false, true⟩ }) base).updRl 2 fun r => { r with scans := 22500000000 }

/-- Chapter 13, reading a 64-bit counter in one transaction: what the port sends before its PEC. -/
theorem test_rdn_counter :
    let t := after (.rdn 0 0 (.call [0xC0, 0x53, 0xF0, 0x42, 2])) scanned
    replied 10 t = [0x09, 0x00, 0x00, 0xC1, 0x1A, 0x3D, 0x05, 0x00, 0x00, 0x00]
      ∧ (twOf t 0).cnt.xfer = 1 ∧ twLastWord (twOf t 0) = 0x00120000 := by decide

/-- Chapter 13: had B2 been retired, STATUS is 0x04 and the data bytes are 0. -/
theorem test_rdn_retired :
    let t := after (.rdn 0 0 (.call [0xC0, 0x53, 0xF0, 0x42, 2])) (onSy 2 (fun y => { y with st := .retired }) scanned)
    replied 10 t = [0x09, 0x04, 0, 0, 0, 0, 0, 0, 0, 0] ∧ twLastWord (twOf t 0) = 0x00120004 := by decide

/-- Chapter 13, a leak notified: the ATTN read returns 0x01, 0x00, and ATTN_CLR clears LEAK. -/
theorem test_attention :
    let s := onTw 0 (fun t => { t with attn := 1 }) scanned
    replied 2 (after (.attn 0 .readWord) s) = [0x01, 0x00]
      ∧ (twOf (after (.attnClr 0 (.writeWord 1 (some true))) s) 0).attn = 0 := by decide

/-- Chapter 15, a retired fan: P0 of the HL_RETIRE record, and the bit of HL_RET. -/
theorem test_retired_unit : unitWord 6 2 1 = 0x00010046 ∧ retBit 6 1 = some 4 := by decide

/-- Chapter 15: the order of the rack manager is accepted, and its acknowledgement leaves HL_UNRET_STAT at 0x000A_0046. -/
theorem test_unretire_fan :
    let t := after (.unretireAck 0) (after (.unretireCool 10 2 0x6B3D) (onTray 0 (fun t => { t with hl := { t.hl with
      arg := vset t.hl.arg 10 1, ret := vset t.hl.ret 2 0x10 } }) unCool))
    liveReg t 0 true 10 15 0x048 = some 0x000A0046 ∧ vget (t.at 0).tray.hl.ret 2 = 0 := by decide

/-- Chapter 15: the first word of a sounding of B2. -/
theorem test_sounding_head : (soundingBytes base 2).take 4 = leBytes 4 0x020153D1 ∧ (soundingBytes base 2).length = 256 := by decide

/-- The published check values of CRC-32 and of the SMBus PEC's CRC-8 over the digits 1 to 9. -/
theorem test_crc_checks : crc32 [0x31, 0x32, 0x33, 0x34, 0x35, 0x36, 0x37, 0x38, 0x39] = 0xCBF43926 ∧ pecOf [0x31, 0x32, 0x33, 0x34, 0x35, 0x36, 0x37, 0x38, 0x39] = 0xF4 := by decide

/-! ### Hypotheses of the statements over all states -/

/-- RetirementRule: N = 2 and W = 4, events in tides 1 and 6, the next one in tide 8. -/
theorem test_RetirementRule_hypotheses :
    [1, 6].Pairwise (· ≤ ·) ∧ (∀ e ∈ [1, 6], e ≤ 8)
    ∧ ∀ before e after, [1, 6] = before ++ e :: after → (histEvent (historyAfter 2 4 before) e 2 4).1 = false := by
  refine ⟨by decide, by decide, ?_⟩
  intro before e after h
  match before, h with
  | [], h => cases h; decide
  | [_], h => cases h; decide
  | _ :: _ :: _, h => simp at h

/-- StepRunsFront and MemoryStaysCanonical: a state with a command in front, its memory canonical and not empty, whose step
answers. -/
theorem test_StepRunsFront_hypotheses :
    { coreAdd with pending := [.pilotInstruction 2] }.pending = .pilotInstruction 2 :: []
    ∧ { coreAdd with pending := [.pilotInstruction 2] }.memCanonical = true ∧ (coreAdd.at 2).tcm ≠ []
    ∧ ∃ t, Machine.step { coreAdd with pending := [.pilotInstruction 2] } = .next t := by
  refine ⟨by decide, by decide, by decide, ?_⟩
  exact ⟨_, rfl⟩

/-- IdleTick: an empty queue. -/
theorem test_IdleTick_hypotheses : base.pending = [] := by decide

/-! ### Commands that are not well formed -/

theorem test_well_formed : Instr.wellFormed (.soundingArrive 0 2 (List.replicate 256 0)) = true
    ∧ Instr.wellFormed (.logBufferArrive 0 2 [rec0]) = true ∧ Instr.wellFormed (.slotFlitReceive 2 flitUp) = true := by decide

theorem test_ill_formed_record :
    [({ rec0 with ty := 0 } : LogRec), { rec0 with ty := 0xF0 }, { rec0 with ty := 0x12 }, { rec0 with origin := 16 }
      , { rec0 with seq := 2 ^ 32 }, { rec0 with tide := 2 ^ 40 }, { rec0 with mark := 256 }, { rec0 with sub := 2 ^ 16 }].all
      (fun r => !Instr.wellFormed (.logBufferArrive 0 2 [r])) = true
    ∧ Instr.wellFormed (.logBufferArrive 0 2 []) = false
    ∧ Instr.wellFormed (.logBufferArrive 0 2 (List.replicate 9 rec0)) = false
    ∧ Instr.wellFormed (.logHeadFound 0 [496]) = false := by decide

theorem test_ill_formed_flits :
    Instr.wellFormed (.slotFlitReceive 2 { flitUp with ready := 16 }) = false
    ∧ Instr.wellFormed (.slotFlitReceive 2 { flitUp with units := 32 }) = false
    ∧ Instr.wellFormed (.tideFlitReceive 2 (.mark 0x1000000000000000) 0) = false
    ∧ Instr.wellFormed (.tideFlitReceive 2 (.period 0x400000000000) 0) = false := by decide

theorem test_ill_formed_transactions :
    Instr.wellFormed (.wrn 0 0 (.blockWrite (List.replicate 256 0) none)) = false
    ∧ Instr.wellFormed (.rdn 0 0 (.call (List.replicate 256 0))) = false := by decide

theorem test_ill_formed_transfers (n : Nat) :
    Instr.wellFormed (.vendorWrite 0 0 (List.replicate (n + 0x4000) 0) 0 0 true) = false
    ∧ Instr.wellFormed (.dfuDnload 0 0 (List.replicate (n + 0x10000) 0) false) = false := by
  simp only [Instr.wellFormed, List.length_replicate, decide_eq_false_iff_not, Nat.not_lt]
  constructor <;> simp <;> omega

theorem test_ill_formed_reports :
    Instr.wellFormed (.chartAck 2 0 (.first [] 1 0 0)) = false
    ∧ Instr.wellFormed (.chartAck 2 0 (.first (List.replicate 48 0) 1 256 0)) = false
    ∧ Instr.wellFormed (.chartAck 2 0 (.first (List.replicate 48 0) 1 0 256)) = false
    ∧ Instr.wellFormed (.retirementNotice 0 2 1 4 0 0) = false ∧ Instr.wellFormed (.soundingArrive 0 2 []) = false := by decide

/-! ### Hypotheses of the statements by block -/

theorem test_MainResets_hypotheses :
    base.dev.stby = true
    ∧ resetting.dev.rstBusy = true
    ∧ (resetting.dev.tap = TapInstr.extest ∨ resetting.dev.tap = TapInstr.clamp ∨ resetting.dev.tap = TapInstr.highz)
    ∧ resetting.dev.tap ≠ TapInstr.clamp
    ∧ (TapInstr.sample ≠ .extest ∧ TapInstr.sample ≠ .clamp ∨ base.dev.cells ≠ none)
    ∧ ((TapInstr.extest = .extest ∨ TapInstr.extest = .clamp) ∧ base.dev.cells = none)
    ∧ (base.dev.tap = TapInstr.bypass ∨ base.dev.tap = TapInstr.idcode ∨ base.dev.tap = TapInstr.sample ∨ base.dev.tap = TapInstr.extest)
    ∧ (base.dev.tap = TapInstr.bypass ∨ base.dev.tap = TapInstr.idcode ∨ base.dev.tap = TapInstr.sample) := by
  and_intros <;> first | decide | rfl

theorem test_StartAndElection_hypotheses :
    held2.dev.supplies = true
    ∧ held2.dev.pinLow = false
    ∧ (held2.at 2).sy.inReset = true
    ∧ (base.at 0).sy.inReset = false
    ∧ (base.at 0).sy.straps.valid = false
    ∧ (base.at 4).sy.inReset = false
    ∧ candidate claim4 4 = true
    ∧ (claim4.at 4).sy.st = BerthState.inert
    ∧ (claim4.at 4).sy.claims = false
    ∧ claim4.harbour = none
    ∧ (collide.at 0).sy.claims = true
    ∧ (collide.at 4).sy.claims = true
    ∧ Tests.windowEnd.dev.window = true
    ∧ (0 = 0 ∨ 0 = 4 ∧ (Tests.windowEnd.at 0).sy.claims = false)
    ∧ (Tests.windowEnd.at 0).sy.claims = true
    ∧ (Tests.windowEnd.at 0).sy.st = BerthState.training
    ∧ trayLocked electMoored = false
    ∧ (electMoored.at 3).sy.st = BerthState.moored
    ∧ candidate electMoored 4 = true
    ∧ (electMoored.at 3).sy.harbour ≠ 4
    ∧ lateWindow.harbour = none
    ∧ (0 = 0 ∨ 0 = 4 ∧ (lateWindow.at 0).sy.claims = false)
    ∧ (lateWindow.at 0).sy.claims = true
    ∧ lateWindow.dev.window = true
    ∧ (lateWindow.at 3).sy.inReset = false
    ∧ (lateWindow.at 3).sy.st = BerthState.inert
    ∧ late3.harbour = some 0
    ∧ (late3.at 3).sy.inReset = false
    ∧ (late3.at 3).sy.st = BerthState.inert
    ∧ late3.dev.window = false
    ∧ nbit (late3.at 0).tray.hl.retired 3 = false := by
  and_intros <;> first | decide | rfl

theorem test_RingTransport_hypotheses :
    carries base 0 1 = true
    ∧ BitVec.toNat (0 : BitVec 8) = (portOf base 0 ↑(1 : Fin 4)).rxSeq
    ∧ (false = false ∨ BitVec.toNat (0 : BitVec 8) ≠ (portOf base 0 ↑(1 : Fin 4)).rxSeq)
    ∧ (portOf base 0 1).asked = false
    ∧ (true = false ∨ BitVec.toNat (255 : BitVec 8) ≠ (portOf base 0 ↑(1 : Fin 4)).rxSeq)
    ∧ carries replay0 0 1 = true
    ∧ 32 = ((portOf replay0 0 ↑(1 : Fin 4)).txSeq + 256 - BitVec.toNat (8 : BitVec 8)) % 256
    ∧ 32 ≤ (portOf replay0 0 1).replay.length
    ∧ (silent2.at 2).sy.holdover = true
    ∧ (portOf train2 2 1).training = true := by
  and_intros <;> first | decide | rfl

theorem test_BerthRetirement_hypotheses :
    (base.at 3).sy.retireOrder = false
    ∧ ((base.at 3).sy.st = BerthState.moored ∨ (base.at 3).sy.st = BerthState.active ∨ (base.at 3).sy.st = BerthState.isolated)
    ∧ (retiring3.at 3).sy.retireOrder = true
    ∧ (retiring3.at 3).sy.bypassAt = none
    ∧ slotDone retiring3 3 = true
    ∧ inRing retiring3 3 = true
    ∧ (retiringUp3.at 3).sy.retireOrder = true
    ∧ (retiringUp3.at 3).sy.bypassAt = none
    ∧ slotDone retiringUp3 3 = false
    ∧ inRing retiringUp3 3 = true
    ∧ (bypass3.at 3).sy.bypassAt = some 0
    ∧ 0 ≤ markCount (bypass3.at 3).td
    ∧ inRing base 2 = true
    ∧ inRing base 3 = true
    ∧ adjacent base 2 3 = true
    ∧ (base.at 0).sy.isHarbour = true
    ∧ inRing base 5 = true
    ∧ (base.at 2).sy.isHarbour = false := by
  and_intros <;> first | decide | rfl

theorem test_IsolationAndTakeover_hypotheses :
    trayLocked silent2 = true
    ∧ serving silent2 2 = true
    ∧ (silent2.at 2).sy.isHarbour = false
    ∧ 16 ≤ (silent2.at 2).sy.silentMarks
    ∧ ((silent2.at 2).sy.isSrc = true ∨ (silent2.at 2).sy.holdover = true)
    ∧ (base.at 0).sy.isHarbour = true
    ∧ nbit (base.at 0).tray.hl.retired 3 = false
    ∧ isolated3.harbour = some 0
    ∧ (isolated3.at 3).sy.st = BerthState.isolated
    ∧ isStandby silent4 4 = true
    ∧ 4 ≤ (silent4.at 4).sy.silentMarks := by
  and_intros <;> first | decide | rfl

theorem test_ForwardedClock_hypotheses :
    (base.at 2).sy.isSrc = false
    ∧ (base.at 2).sy.st ≠ BerthState.inert
    ∧ (switch2.at 2).sy.switchTo = some ClkIn.highNbr
    ∧ isStandby silent4 4 = true
    ∧ (silent4.at 4).sy.pll = true
    ∧ (silent4.at 4).sy.isSrc = false
    ∧ (silent4.at 4).sy.holdover = true := by
  and_intros <;> first | decide | rfl

theorem test_AccessErrors_hypotheses :
    access base { req := 2, own := some 2 } true ((0x00000000 : Word).toNat) 4 = Except.error (1, 2)
    ∧ access erred { req := 9, own := none } false ((0x42F00801 : Word).toNat) 4 = Except.error (1, 2) := by
  and_intros <;> first | decide | rfl

theorem test_RegisterWriteFields_hypotheses :
    access base { req := 9, own := none } true ((0x42F01020 : Word).toNat) 4 = Except.ok (2, Reach.reg false 1 32)
    ∧ access unlocked { req := 9, own := none } true ((0x42F01020 : Word).toNat) 4 = Except.ok (2, Reach.reg false 1 32) := by
  and_intros <;> first | decide | rfl

theorem test_MemoryWrite_hypotheses :
    (base.at 2).memCanonical = true
    ∧ access base { req := 2, own := some 2 } true ((0x2003FFFC : Word).toNat) 4 = Except.ok (2, Reach.tcm 262140)
    ∧ (reserved2.at 2).memCanonical = true
    ∧ access reserved2 { req := 9, own := none } true ((0x42000100 : Word).toNat) 4 = Except.ok (2, Reach.tcm 256)
    ∧ access base { req := 2, own := some 2 } true ((0x42100000 : Word).toNat) 4 = Except.ok (2, Reach.deck 0) := by
  and_intros <;> first | decide | rfl

theorem test_ReadsAndSnapshots_hypotheses :
    access base { req := 9, own := none } false ((0x42F01010 : Word).toNat) 4 = Except.ok (2, Reach.reg false 1 16)
    ∧ access latched { req := 9, own := none } false ((0x42F01014 : Word).toNat) 4 = Except.ok (2, Reach.reg false 1 20)
    ∧ vget (latched.at 2).sy.latch 9 = some { ctr := 4112, hi := 5 }
    ∧ access base { req := 9, own := none } false ((0x42F01014 : Word).toNat) 4 = Except.ok (2, Reach.reg false 1 20)
    ∧ vget (base.at 2).sy.latch 9 = none
    ∧ access erred { req := 9, own := none } false ((0x42F00040 : Word).toNat) 4 = Except.ok (2, Reach.reg false 0 64)
    ∧ access base { req := 9, own := none } true (snapAddr (some 2)) 4 = Except.ok (2, Reach.reg false 0 32)
    ∧ access base { req := 9, own := none } true (snapAddr none) 4 = Except.ok (0, Reach.reg true 0 32)
    ∧ reachable base 7 = true
    ∧ (frozen2.at 2).sy.snapFrozen = true
    ∧ (frozen2.at 2).sy.snapTide + 256 ≤ (frozen2.at 2).td.tide := by
  and_intros <;> first | decide | rfl

theorem test_TideLoop_hypotheses :
    inputOn base 0 = true
    ∧ (edgeEarly.at 0).td.edgeAt = some 500000
    ∧ { edgeFirst with now := 500001 }.now < 500000 + 25 * fld (loopFilt ({ edgeFirst with now := 500001 }.at 0)) 7 0
    ∧ (edgeRetired.at 0).td.edgeAt = some 500000
    ∧ 500000 + 25 * fld (loopFilt (edgeRetired.at 0)) 7 0 ≤ edgeRetired.now
    ∧ inputOn edgeRetired 0 = true
    ∧ (edgeRetired.at 0).td.loop = Loop.inputRetired
    ∧ (edgeFirst.at 0).td.edgeAt = some 500000
    ∧ 500000 + 25 * fld (loopFilt (edgeFirst.at 0)) 7 0 ≤ edgeFirst.now
    ∧ inputOn edgeFirst 0 = true
    ∧ (edgeFirst.at 0).td.loop ≠ Loop.inputRetired
    ∧ (edgeFirst.at 0).td.ref = none
    ∧ (edgeLocked.at 0).td.edgeAt = some 500000
    ∧ 500000 + 25 * fld (loopFilt (edgeLocked.at 0)) 7 0 ≤ edgeLocked.now
    ∧ inputOn edgeLocked 0 = true
    ∧ (edgeLocked.at 0).td.loop = Loop.locked
    ∧ (edgeLocked.at 0).td.ref = some (500000 * 2 ^ 32 - 1789569706666667)
    ∧ (edgeLocked.at 0).td.clean = true
    ∧ 500000 * 2 ^ 32 - 1789569706666667 + (loopWindow (edgeLocked.at 0)).1 ≤ 500000 * 2 ^ 32
    ∧ 500000 * 2 ^ 32 ≤ 500000 * 2 ^ 32 - 1789569706666667 + (loopWindow (edgeLocked.at 0)).2
    ∧ 500000 + 25 * fld (loopFilt (edgeEarly.at 0)) 7 0 ≤ edgeEarly.now
    ∧ inputOn edgeEarly 0 = true
    ∧ (edgeEarly.at 0).td.loop ≠ Loop.inputRetired
    ∧ (edgeEarly.at 0).td.ref = some (400000 * 2 ^ 32)
    ∧ (500000 * 2 ^ 32 < 400000 * 2 ^ 32 + (loopWindow (edgeEarly.at 0)).1 ∨ 400000 * 2 ^ 32 + (loopWindow (edgeEarly.at 0)).2 < 500000 * 2 ^ 32)
    ∧ (edgeEarly.at 0).td.losses + 1 < fld (loopFilt (edgeEarly.at 0)) 15 12
    ∧ (miss0.at 0).td.ref = some (100000 * 2 ^ 32)
    ∧ (miss0.at 0).td.losses + 1 < fld (loopFilt (miss0.at 0)) 15 12
    ∧ (missAcq.at 0).td.ref = some (100000 * 2 ^ 32)
    ∧ fld (loopFilt (missAcq.at 0)) 15 12 ≤ (missAcq.at 0).td.losses + 1
    ∧ (missAcq.at 0).td.loop = Loop.acquire
    ∧ (missLocked.at 0).td.ref = some (100000 * 2 ^ 32)
    ∧ fld (loopFilt (missLocked.at 0)) 15 12 ≤ (missLocked.at 0).td.losses + 1
    ∧ (missLocked.at 0).td.loop = Loop.locked
    ∧ fld (loopSlew (holdEnd.at 0)) 31 16 ≤ (holdEnd.at 0).td.holdTides
    ∧ (holdEnd.at 0).td.loop = Loop.hold := by
  and_intros <;> first | decide | rfl

/-- The distance of berth 2's boundary from the one that a flit of mark `count` from B0 tells, 0 RING cycles into the REF cycle. -/
def skew2 (s : State) (count : Nat) : Int := skewOf (s.at 2).td count (flitBoundary s.now 0 ((hops s 0 2).getD 0))

theorem test_TideFlits_hypotheses :
    (base.at 2).sy.isHarbour = false
    ∧ (serving base 2 = true ∨ (base.at 2).sy.st = BerthState.isolated)
    ∧ (serving isolated3 3 = true ∨ (isolated3.at 3).sy.st = BerthState.isolated)
    ∧ tideFlitOk (.mark 0x1000000000000000) = false ∧ tideFlitOk (.period 0x400000000000) = false
    ∧ tideFlitOk (.period 0x3FFFFFFFFFFF) = true ∧ (base.at 2).td.mark < 128
    ∧ tideFlitOk (.mark 0x0FFFFFFFFFFFFFFF) = true ∧ tideFlitOk (.mark 0) = true
    ∧ (unsynced2.at 2).td.synced = false
    ∧ (base.at 2).td.synced = true ∧ (base.at 2).td.held = false
    ∧ markCount (base.at 2).td = 0 ∧ (toNs (skew2 base 0)).natAbs ≤ 40
    ∧ markCount ({ base with now := 100 }.at 2).td = 0 ∧ 40 < (toNs (skew2 { base with now := 100 } 0)).natAbs
    ∧ (skew2 { base with now := 100 } 0).natAbs * 8 ≤ ({ base with now := 100 }.at 2).td.pn
    ∧ markCount (base.at 2).td + 1 < 2 ∧ (classEvent base 2 3 (base.at 2).td.syncHist).1 = false
    ∧ (ahead2.at 2).td.synced = true ∧ (ahead2.at 2).td.held = false
    ∧ 256 < markCount (ahead2.at 2).td ∧ markCount (ahead2.at 2).td ≤ 256 + 256
    ∧ (classEvent ahead2 2 3 (ahead2.at 2).td.syncHist).1 = false
    ∧ ahead2.harbour = some 0 ∧ 0 + 256 < markCount (ahead2.at 2).td
    ∧ nbit (ahead2.at 0).tray.hl.retired 2 = false ∧ (ahead2.at 0).sy.holdover = false := by
  and_intros <;> first | decide | rfl

theorem test_ChartSlotCheck_hypotheses :
    checkingA.harbour = some 0
    ∧ checkingA.dev.sleep = false
    ∧ (checkingA.at 0).ch.load = ChartLoad.check false true
    ∧ checkingB.harbour = some 0
    ∧ (checkingB.at 0).ch.load = ChartLoad.check false false := by
  and_intros <;> first | decide | rfl

theorem test_ChartStream_hypotheses :
    due3.harbour = some 0
    ∧ ((due3.at 0).ch.state = ChartState.distributing ∨ (due3.at 0).ch.locked = true)
    ∧ (moored.at 4).sy.st = BerthState.moored
    ∧ (moored.at 4).sy.isHarbour = false
    ∧ (sigDue4.at 4).ch.sigDue = true := by
  and_intros <;> first | decide | rfl

theorem test_ChartAgreementAndLock_hypotheses :
    sent3.harbour = some 0
    ∧ vget (sent3.at 0).tray.dist 3 = Dist.sent false false
    ∧ List.replicate 48 0 = (sent3.at 0).ch.digest
    ∧ 0 = (sent3.at 0).ch.ver
    ∧ 0 = (sent3.at 0).ch.rollback
    ∧ ([] ≠ (sent3.at 0).ch.digest ∨ 0 ≠ (sent3.at 0).ch.ver ∨ 0 ≠ (sent3.at 0).ch.rollback ∨ 0 < 0)
    ∧ sent4.harbour = some 0
    ∧ vget (sent4.at 0).tray.dist 4 = Dist.sent false false
    ∧ (List.replicate 48 0 ≠ (sent4.at 0).ch.digest ∨ 0 ≠ (sent4.at 0).ch.ver ∨ 0 ≠ (sent4.at 0).ch.rollback ∨ 0 < 1)
    ∧ sentSig4.harbour = some 0
    ∧ vget (sentSig4.at 0).tray.dist 4 = Dist.sent false true
    ∧ agreed.harbour = some 0
    ∧ (agreed.at 0).ch.locked = false
    ∧ (agreed.at 0).ch.state = ChartState.distributing
    ∧ (∀ (n : BId), n ≠ 0 ∧ nbit (agreed.at 0).populated ↑n = true → vget (agreed.at 0).tray.dist ↑n = Dist.agreed ∨ vget (agreed.at 0).tray.dist ↑n = Dist.held)
    ∧ lateAgreed.harbour = some 0
    ∧ (lateAgreed.at 0).ch.locked = true := by
  and_intros <;> first | decide | rfl

theorem test_ChartOrdersAndFuses_hypotheses :
    WritePasses base 9 none 8312
    ∧ base.harbour = some 0
    ∧ (base.at 0).ch.busy = false
    ∧ chRefuse base 0 1 (1) 0 9 ≠ 0
    ∧ chRefuse base 0 2 (8) 0 9 ≠ 0
    ∧ WritePasses base 10 none 8312
    ∧ chRefuse base 0 5 (↑(1 : Fin 16)) (BitVec.toNat (50343 : BitVec 16)) 10 ≠ 0
    ∧ chRefuse base 0 4 (↑(4 : Fin 16)) (BitVec.toNat (50343 : BitVec 16)) 9 ≠ 0
    ∧ chRefuse base 0 3 (↑(1 : Fin 16)) (BitVec.toNat (50342 : BitVec 16)) 9 ≠ 0
    ∧ WritePasses failedChart 9 none 8312
    ∧ failedChart.harbour = some 0
    ∧ (failedChart.at 0).ch.busy = false
    ∧ chRefuse failedChart 0 1 (0) 0 9 = 0
    ∧ WritePasses heldBerth3 9 none 8312
    ∧ heldBerth3.harbour = some 0
    ∧ (heldBerth3.at 0).ch.busy = false
    ∧ chRefuse heldBerth3 0 2 (3) 0 9 = 0
    ∧ vget (heldBerth3.at 0).tray.dist 3 = Dist.held
    ∧ (heldBerth3.at 0).ch.state = ChartState.locked
    ∧ WritePasses rolled 9 none 8312
    ∧ rolled.harbour = some 0
    ∧ (rolled.at 0).ch.busy = false
    ∧ chRefuse rolled 0 3 (↑(0 : Fin 16)) (BitVec.toNat (50343 : BitVec 16)) 9 = 0
    ∧ commitTarget rolled 0 0 = some 1
    ∧ vget (rolled.at 0).ch.fuse 0 < 1
    ∧ reachable rolled 0 = true
    ∧ WritePasses keyed 9 none 8312
    ∧ keyed.harbour = some 0
    ∧ (keyed.at 0).ch.busy = false
    ∧ chRefuse keyed 0 4 (↑(2 : Fin 16)) (BitVec.toNat (50343 : BitVec 16)) 9 = 0
    ∧ 4 ∈ keyBerths keyed
    ∧ nbit (keyed.at 4).ch.revoked 2 = false
    ∧ WritePasses keyData1 9 none 8312
    ∧ keyData1.harbour = some 0
    ∧ (keyData1.at 0).ch.busy = false
    ∧ chRefuse keyData1 0 5 (↑(3 : Fin 16)) (BitVec.toNat (50343 : BitVec 16)) 9 = 0
    ∧ 4 ∈ keyBerths keyData1
    ∧ 1 = BitVec.ofNat 384 (leNat (wordsBytes (keyData1.at 0).ch.keyData.toList))
    ∧ (keyBit keyData1 4 (3) 1).isSome = true
    ∧ (burnCount.at 0).ch.fuseJob = some (FuseJob.count 3 1 [4, 0])
    ∧ reachable burnCount 4 = true
    ∧ (burnKey.at 0).ch.fuseJob = some (FuseJob.key 3 1 [4, 0])
    ∧ reachable burnKey 4 = true
    ∧ keyBit burnKey 4 3 1 = some 0
    ∧ (burnRevoke.at 0).ch.fuseJob = some (FuseJob.revoke 3 [4, 0])
    ∧ reachable burnRevoke 4 = true := by
  and_intros <;> first | decide | rfl

theorem test_ResetOrders_hypotheses :
    WritePasses base 9 none 144
    ∧ base.harbour.isSome = true
    ∧ base.dev.rstBusy = false
    ∧ rstResult base 1 (BitVec.toNat (0 : BitVec 16)) 9 ≠ 0
    ∧ WritePasses base 2 none 144
    ∧ rstResult base 2 (BitVec.toNat (24186 : BitVec 16)) 2 ≠ 0
    ∧ rstResult base 1 (BitVec.toNat (24186 : BitVec 16)) 9 = 0
    ∧ WritePasses base 10 none 144
    ∧ rstResult base 2 (BitVec.toNat (24186 : BitVec 16)) 10 = 0
    ∧ sleeping.dev.sleep = true := by
  and_intros <;> first | decide | rfl

theorem test_SlotOrders_hypotheses :
    WritePasses slot2 2 (some 2) 20480
    ∧ ownOrHce 2 2 = true ∧ ownOrHce 2 11 = true
    ∧ powerUpResult slot2 2 = 0
    ∧ WritePasses base 2 (some 2) 20480 ∧ powerUpResult base 2 = 0
    ∧ WritePasses up2 11 (some 2) 20480
    ∧ powerUpResult up2 2 = 2
    ∧ WritePasses restarted 2 (some 2) 20480
    ∧ powerUpResult restarted 2 = 5
    ∧ WritePasses powering 2 (some 2) 20480
    ∧ ((powering.at 2).rl.slot = SlotState.powering ∨ (powering.at 2).rl.slot = SlotState.up)
    ∧ WritePasses up2 2 (some 2) 20480
    ∧ ((up2.at 2).rl.slot = SlotState.powering ∨ (up2.at 2).rl.slot = SlotState.up)
    ∧ (slot2.at 2).rl.slot ≠ SlotState.powering
    ∧ (slot2.at 2).rl.slot ≠ SlotState.up := by
  and_intros <;> first | decide | rfl

theorem test_RailStarts_hypotheses :
    (powering.at 2).rl.slot = SlotState.powering
    ∧ (vget (powering.at 2).rl.rails 0).st = RailState.waiting
    ∧ railAvs (powering.at 2) 0 = true
    ∧ (vget (powering.at 2).rl.rails 0).setAck = false
    ∧ (vget (powering.at 2).rl.rails 2).st = RailState.waiting
    ∧ (railAvs (powering.at 2) 2 = false ∨ (vget (powering.at 2).rl.rails 2).setAck = true)
    ∧ (railPgWait (powering.at 2) 2 = true ∨ monitored (powering.at 2) 2 = true)
    ∧ (unmonitored2.at 2).rl.slot = SlotState.powering
    ∧ (vget (unmonitored2.at 2).rl.rails 2).st = RailState.waiting
    ∧ (railAvs (unmonitored2.at 2) 2 = false ∨ (vget (unmonitored2.at 2).rl.rails 2).setAck = true)
    ∧ railPgWait (unmonitored2.at 2) 2 = false
    ∧ monitored (unmonitored2.at 2) 2 = false
    ∧ (last1.at 2).rl.slot = SlotState.powering
    ∧ railUsed (last1.at 2) 1 = true
    ∧ railPgWait (last1.at 2) 1 = true
    ∧ (vget (last1.at 2).rl.rails 1).st = RailState.ramping
    ∧ condReady (ramping2.at 2) (2) Cond.rise = true ∧ NoLower (ramping2.at 2) 2 := by
  and_intros <;> first | decide | rfl | (unfold NoLower; decide)

theorem test_RailFaultsAndOff_hypotheses :
    ((powering.at 2).rl.slot = SlotState.powering ∨ (powering.at 2).rl.slot = SlotState.up)
    ∧ (powering.at 2).rl.slot = SlotState.powering
    ∧ (vget (powering.at 2).rl.rails 0).st = RailState.waiting
    ∧ railAvs (powering.at 2) 0 = true
    ∧ (vget (powering.at 2).rl.rails 0).setAck = false
    ∧ ((up2.at 2).rl.slot = SlotState.powering ∨ (up2.at 2).rl.slot = SlotState.up)
    ∧ railUsed (up2.at 2) 1 = true
    ∧ railPgWait (up2.at 2) 1 = true
    ∧ (vget (up2.at 2).rl.rails 1).st = RailState.up
    ∧ railPgWait (powering.at 2) 1 = true
    ∧ (vget (powering.at 2).rl.rails 1).st = RailState.ramping
    ∧ ((ramping2.at 2).rl.slot = SlotState.powering ∨ (ramping2.at 2).rl.slot = SlotState.up)
    ∧ (ramping2.at 2).rl.slot = SlotState.powering
    ∧ railPgWait (ramping2.at 2) 2 = false
    ∧ monitored (ramping2.at 2) 2 = true
    ∧ (vget (ramping2.at 2).rl.rails 2).st = RailState.ramping
    ∧ ((limits2.at 2).rl.slot = SlotState.powering ∨ (limits2.at 2).rl.slot = SlotState.up)
    ∧ condReady (limits2.at 2) (1) Cond.softLow = true
    ∧ condReady (limits2.at 2) (1) Cond.softHigh = true
    ∧ condReady (limits2.at 2) (1) Cond.hardLow = true
    ∧ condReady (limits2.at 2) (1) Cond.hardHigh = true
    ∧ NoLower (limits2.at 2) 1
    ∧ railUsed (tripped2.at 2) 1 = true ∧ railPgWait (tripped2.at 2) 1 = true
    ∧ (vget (tripped2.at 2).rl.rails 1).trip = some (tripped2.at 2).rl.scans
    ∧ (vget (falling2.at 2).rl.rails 2).st = RailState.falling
    ∧ (vget (falling2.at 2).rl.rails 2).en = false
    ∧ monitored (falling2.at 2) 2 = true
    ∧ thrFilter (falling2.at 2) 2 ≤ (vget (falling2.at 2).rl.ins 2).offRun
    ∧ (vget (falling2.at 2).rl.rails 2).offOk = false
    ∧ (vget (falling2.at 2).rl.rails 2).timedOff = false
    ∧ (vget (fallingUn.at 2).rl.rails 3).st = RailState.falling
    ∧ (vget (fallingUn.at 2).rl.rails 3).en = false
    ∧ (vget (fallingUn.at 2).rl.rails 3).offOk = false
    ∧ (vget (fallingUn.at 2).rl.rails 3).timedOff = false
    ∧ (inHold.at 2).rl.slot = SlotState.faultHold
    ∧ up2.harbour = some 0 := by
  and_intros <;> first | decide | rfl | (unfold NoLower; decide)

theorem test_ReadingsAndThresholds_hypotheses :
    condReady (alert13.at 2) (13) Cond.softLow = true
    ∧ NoLower (alert13.at 2) 13
    ∧ ((held2.at 2).sy.inReset = true ∨ 0 ≠ (held2.at 2).rl.scanAt)
    ∧ ((up2.at 2).sy.inReset = true ∨ 13 ≠ (up2.at 2).rl.scanAt)
    ∧ (up2.at 2).sy.inReset = false ∧ 0 = (up2.at 2).rl.scanAt
    ∧ comparing (up2.at 2) = true ∧ thrFilter (up2.at 2) 0 ≠ 0
    ∧ ownOrHce 2 2 = true ∧ ownOrHce 2 11 = true
    ∧ WritePasses up2 2 (some 2) (20608 + 4 * 1)
    ∧ (up2.at 2).log.on = true
    ∧ tracked (up2.at 2) 1 = false
    ∧ fld 805314560 15 12 = thrFilter (up2.at 2) 1
    ∧ fld 805314560 31 28 = thrKind (up2.at 2) 1
    ∧ 0 = clampThr (up2.at 2) (1) (fld 805314560 11 0)
    ∧ 0 = clampThr (up2.at 2) (1) (fld 805314560 27 16)
    ∧ WritePasses up2 11 (some 2) (20608 + 4 * 1)
    ∧ fld 838869008 15 12 = thrFilter (up2.at 2) 1
    ∧ fld 838869008 31 28 = thrKind (up2.at 2) 1
    ∧ 16 = clampThr (up2.at 2) (1) (fld 838869008 11 0)
    ∧ 512 = clampThr (up2.at 2) (1) (fld 838869008 27 16)
    ∧ (ownOrHce 2 2 = false ∨ tracked (up2.at 2) 1 = true ∨ fld 838864912 15 12 ≠ thrFilter (up2.at 2) 1 ∨ fld 838864912 31 28 ≠ thrKind (up2.at 2) 1)
    ∧ (vget (up2.at 2).pw.parts 3).writing = false
    ∧ ((vget (up2.at 2).rl.rails 3).st = RailState.waiting ∧ railAvs (up2.at 2) 3 = true → (vget (up2.at 2).rl.rails 3).setAck = true) := by
  and_intros <;> first | decide | rfl | (unfold NoLower; decide)

theorem test_BudgetAndAdmission_hypotheses :
    base.harbour = some 0
    ∧ floorOver.harbour = some 0
    ∧ 256 ≤ (floorOver.at 0).tray.pw.floorRun
    ∧ admitted2.harbour = some 0
    ∧ WritePasses admitted2 9 none 24576
    ∧ (admitted2.at 0).ch.locked = true
    ∧ BitVec.toNat (5000 : BitVec 16) ≤ budgetMax (admitted2.at 0)
    ∧ WritePasses admitted2 10 none 24576
    ∧ BitVec.toNat (999 : BitVec 16) ≤ budgetMax (admitted2.at 0)
    ∧ budgetMax (admitted2.at 0) < BitVec.toNat (5001 : BitVec 16)
    ∧ WritePasses base 11 (some 2) 24832
    ∧ (base.at 0).ch.locked = true
    ∧ nbit (base.at 0).populated 2 = true
    ∧ vget (base.at 0).tray.pw.admis 2 = Admit.none
    ∧ WritePasses admitted2 2 (some 2) 24832
    ∧ vget (admitted2.at 0).tray.pw.admis 2 ≠ Admit.none
    ∧ (admitted2.at 2).rl.slot = SlotState.down
    ∧ up2.harbour = some 0
    ∧ WritePasses up2 2 (some 2) 24832
    ∧ (up2.at 2).rl.slot ≠ SlotState.down := by
  and_intros <;> first | decide | rfl

theorem test_SetpointsAndTrim_hypotheses :
    (avsOf avs0 2 0).queue = [{ rail := 0, mv := 750, powerUp := false, attempts := 0, statusFirst := false }]
    ∧ (avsOf avs0 2 0).retired = false
    ∧ avsReads (avsOf avs0 2 0) = false
    ∧ avs0.dev.sleep = false
    ∧ (avsOf avs2 2 0).queue = [{ rail := 0, mv := 750, powerUp := false, attempts := 2, statusFirst := true }]
    ∧ (avsOf avs2 2 0).retired = false
    ∧ avsReads (avsOf avs2 2 0) = false
    ∧ avs2.dev.sleep = false
    ∧ (classEvent avs2 2 5 (avsOf avs2 2 0).hist).1 = false
    ∧ (avsOf avs2Many 2 0).queue = [{ rail := 0, mv := 750, powerUp := false, attempts := 2, statusFirst := true }]
    ∧ (avsOf avs2Many 2 0).retired = false
    ∧ avsReads (avsOf avs2Many 2 0) = false
    ∧ avs2Many.dev.sleep = false
    ∧ (classEvent avs2Many 2 5 (avsOf avs2Many 2 0).hist).1 = true
    ∧ (avsOf (confirming true) 2 0).retired = false
    ∧ (avsOf (confirming true) 2 0).confirm = some 0
    ∧ (confirming true).dev.sleep = false
    ∧ (avsOf (confirming true) 2 0).statusRead = true
    ∧ (avsOf (confirming false) 2 0).retired = false
    ∧ (avsOf (confirming false) 2 0).confirm = some 0
    ∧ (confirming false).dev.sleep = false
    ∧ (avsOf (confirming false) 2 0).statusRead = false
    ∧ (avsOf (confirming false) 2 0).queue = [{ rail := 0, mv := 750, powerUp := false, attempts := 0, statusFirst := false }]
    ∧ (partOf settling 2 0).settling = some 700
    ∧ readingOk settling 2 (0) 700 = true
    ∧ (partOf unsettled 2 0).settling = some 700
    ∧ readingOk unsettled 2 (0) 700 = false
    ∧ (avsOf unsettled 2 (railAvsCtl (unsettled.at 2) 0)).retired = false
    ∧ (partOf unsettled 2 0).tries < 3
    ∧ bitAt (trimming.at 2).pw.trim 0 = true
    ∧ (trimming.at 2).rl.slot = SlotState.up
    ∧ trimSkips trimming 2 0 = false
    ∧ (partMv trimming 2 0 + 5 ≤ (partOf trimming 2 0).target ∨ (partOf trimming 2 0).target + 10 ≤ partMv trimming 2 0)
    ∧ trimTo trimming 2 0 ≠ (partOf trimming 2 0).setpoint
    ∧ (bitAt (up2.at 2).pw.trim 0 = false ∨ (up2.at 2).rl.slot ≠ SlotState.up) := by
  and_intros <;> first | decide | rfl

theorem test_PowerLoops_hypotheses :
    loopDue hot 2 (0) true = true
    ∧ loopDue hot 2 (0) false = true
    ∧ releaseDue cool 2 (0) true = true
    ∧ releaseDue cool 2 (0) false = true
    ∧ (partOf hot 2 0).ready = true
    ∧ (up2.at 2).rl.scanAt ≠ 24
    ∧ (scanEnd.at 2).rl.scanAt = 24
    ∧ overGrant (over2.at 2).pw = true
    ∧ (over2.at 2).pw.ogDone = false
    ∧ partUsed (over2.at 2) 2 0 = true
    ∧ (partOf over2 2 0).ready = true
    ∧ fld (over2.at 2).pw.og 7 0 ≤ (over2.at 2).pw.overRun + 1
    ∧ underGrant (under2.at 2).pw = true
    ∧ (under2.at 2).pw.ogDone = false
    ∧ partUsed (under2.at 2) 2 0 = true
    ∧ 16 ≤ (under2.at 2).pw.underRun + 1 := by
  and_intros <;> first | decide | rfl

theorem test_LogRegion_hypotheses :
    (deckOut.at 0).sy.isHarbour = true
    ∧ (deckOut.at 0).log.on = true
    ∧ (deckAlloc 0 3 false deckOut.begin).1 = none
    ∧ (base.at 0).sy.isHarbour = true
    ∧ (base.at 0).log.on = true
    ∧ (deckAlloc 0 3 false base.begin).1 ≠ none
    ∧ vget (base.at 0).log.originDrop 3 = 0
    ∧ (dropped3.at 0).sy.isHarbour = true
    ∧ (dropped3.at 0).log.on = true
    ∧ (deckAlloc 0 3 false dropped3.begin).1 ≠ none
    ∧ vget (dropped3.at 0).log.originDrop 3 ≠ 0
    ∧ (dropped3.at 0).log.lossDue = 0
    ∧ (dropped3.at 0).log.curBuf.isSome = true
    ∧ (programming.at 0).log.busy = some (LogOp.record 34603040 rec0)
    ∧ (programming.at 0).memCanonical = true
    ∧ programming.dev.sleep = false
    ∧ (programming.at 0).us.dfu.active = false
    ∧ (programming.at 0).log.queue = [([rec0], none)]
    ∧ (programming2.at 0).log.busy = some (LogOp.record 34603040 rec0)
    ∧ (programming2.at 0).memCanonical = true
    ∧ programming2.dev.sleep = false
    ∧ (programming2.at 0).us.dfu.active = false
    ∧ (programming2.at 0).log.queue = [([rec0, rec0], none)]
    ∧ (opening.at 0).log.busy = some (LogOp.sector 34603008 1 rec0)
    ∧ (opening.at 0).memCanonical = true
    ∧ opening.dev.sleep = false
    ∧ (Tests.erasing.at 0).log.busy = some (LogOp.erase 34668544)
    ∧ (finding.at 0).sy.isHarbour = true
    ∧ Tests.erasing.dev.sleep = false
    ∧ (finding.at 0).log.finding = true
    ∧ bestSector (finding.at 0).flash [] = none
    ∧ (finding.at 0).log.busy = none
    ∧ (finding.at 0).log.ops = []
    ∧ (finding.at 0).log.guard = false
    ∧ finding.dev.sleep = false
    ∧ flashReads (finding.at 0) = false
    ∧ dfuHolds (finding.at 0) 0 = false
    ∧ sectorErased (finding.at 0).flash logBase = true := by
  and_intros <;> first | decide | rfl

theorem test_CoolingMeasures_hypotheses :
    WritePasses fan2 2 (some 2) (28684 + 64 * 0)
    ∧ WritePasses fan2 11 (some 2) (28684 + 64 * 0)
    ∧ coolMode (coolOf fan2 2 0) ≠ 0
    ∧ (fan2.at 2).sy.st = BerthState.active
    ∧ ((coolOf fan2 2 0).st = CoolState.kick ∧ 1000 = 1000 ∨ ((coolOf fan2 2 0).st = CoolState.stalled ∧ 1000 = if (coolOf fan2 2 0).offPhase = true then 0 else 1000) ∨ (coolOf fan2 2 0).st = CoolState.run ∧ bitAt (boosted (fan2.at 2)) (coolZone (coolOf fan2 2 0)) = false ∧ (coolOf fan2 2 0).wdog = false ∧ fan2.dev.sleep = false ∧ 1000 = max (dutyFloor (coolOf fan2 2 0)) (coolOf fan2 2 0).cmd)
    ∧ coolMode (coolOf fanRun 2 0) ≠ 0
    ∧ (fanRun.at 2).sy.st = BerthState.active
    ∧ ((coolOf fanRun 2 0).st = CoolState.kick ∧ 400 = 1000 ∨ ((coolOf fanRun 2 0).st = CoolState.stalled ∧ 400 = if (coolOf fanRun 2 0).offPhase = true then 0 else 1000) ∨ (coolOf fanRun 2 0).st = CoolState.run ∧ bitAt (boosted (fanRun.at 2)) (coolZone (coolOf fanRun 2 0)) = false ∧ (coolOf fanRun 2 0).wdog = false ∧ fanRun.dev.sleep = false ∧ 400 = max (dutyFloor (coolOf fanRun 2 0)) (coolOf fanRun 2 0).cmd)
    ∧ coolMode (coolOf fanStall 2 0) ≠ 0
    ∧ (fanStall.at 2).sy.st = BerthState.active
    ∧ ((coolOf fanStall 2 0).st = CoolState.kick ∧ 0 = 1000 ∨ ((coolOf fanStall 2 0).st = CoolState.stalled ∧ 0 = if (coolOf fanStall 2 0).offPhase = true then 0 else 1000) ∨ (coolOf fanStall 2 0).st = CoolState.run ∧ bitAt (boosted (fanStall.at 2)) (coolZone (coolOf fanStall 2 0)) = false ∧ (coolOf fanStall 2 0).wdog = false ∧ fanStall.dev.sleep = false ∧ 0 = max (dutyFloor (coolOf fanStall 2 0)) (coolOf fanStall 2 0).cmd)
    ∧ coolMode (coolOf base 2 0) = 0
    ∧ coolMode (coolOf fan2 2 0) = 1
    ∧ measuring (coolOf fan2 2 0) = true
    ∧ coolMode (coolOf pumpTop 2 1) = 2
    ∧ measuring (coolOf pumpTop 2 1) = true
    ∧ coolMode (coolOf pumpTired 2 1) = 2
    ∧ measuring (coolOf pumpTired 2 1) = true
    ∧ coolMode (coolOf pump2 2 1) = 2
    ∧ measuring (coolOf pump2 2 1) = true := by
  and_intros <;> first | decide | rfl

theorem test_StallsAndWatchdogs_hypotheses :
    (coolOf fanStall 2 0).st = CoolState.stalled
    ∧ (coolOf fanStall 2 0).offPhase = true
    ∧ coolMode (coolOf fan2 2 0) ≠ 0
    ∧ (fan2.at 2).ch.locked = true
    ∧ (coolOf fan2 2 0).wdog = false
    ∧ (fan2.at 2).cl.silenceHeld = none
    ∧ (fan2.at 2).cl.noticeAt ≠ some fan2.now
    ∧ fan2.harbour = some 0
    ∧ (coolOf fan2 2 0).st = .kick
    ∧ (coolOf fanTired 2 0).st = .kick
    ∧ (coolOf fanRun 2 0).st = .run
    ∧ speedAt (coolOf fanRun 2 0) 4000000000 < minRpm (coolOf fanRun 2 0)
    ∧ (classEvent fanTired 2 7 (coolOf fanTired 2 0).stallHist).1 = true
    ∧ (classEvent fan2 2 7 (coolOf fan2 2 0).stallHist).1 = false := by
  and_intros <;> first | decide | rfl

theorem test_LeakRopes_hypotheses :
    ropeLive (ropeOf roped 2 1) = true
    ∧ fld (ropeOf roped 2 1).cfg 31 28 ≤ (ropeOf roped 2 1).wetRun
    ∧ (ropeOf roped 2 1).wetDone = false
    ∧ (ropeOf roped 2 1).latch = false
    ∧ (ropeOf roped 2 (1 - 1)).latch = false
    ∧ (roped.at 2).sy.st = .active
    ∧ (roped.at 2).sy.retireOrder = false
    ∧ bitAt (roped.at 2).cl.valve 0 = true
    ∧ ropeLive (ropeOf wetAgain 2 1) = true
    ∧ fld (ropeOf wetAgain 2 1).cfg 31 28 ≤ (ropeOf wetAgain 2 1).wetRun
    ∧ (ropeOf wetAgain 2 1).wetDone = false
    ∧ (ropeOf wetAgain 2 1).latch = true
    ∧ fld (ropeOf roped 2 1).cfg 31 28 ≤ (ropeOf roped 2 1).openRun
    ∧ (ropeOf roped 2 1).openDone = false
    ∧ ropeLive (ropeOf ropeTired 2 1) = true
    ∧ fld (ropeOf ropeTired 2 1).cfg 31 28 ≤ (ropeOf ropeTired 2 1).openRun
    ∧ (ropeOf ropeTired 2 1).openDone = false
    ∧ fld (ropeOf wetAgain 2 1).cfg 31 28 ≤ (ropeOf wetAgain 2 1).dryRun
    ∧ (ropeOf wetAgain 2 1).st ≠ RopeState.dry
    ∧ WritePasses latchedDry 9 (some 2) 32784
    ∧ (ropeOf latchedDry 2 1).latch = true
    ∧ (ropeOf latchedDry 2 1).st = RopeState.dry
    ∧ WritePasses latchedDry 2 (some 2) 32784
    ∧ (2 ≠ 9 ∧ 2 ≠ 10 ∨ fld (0x1EAC0001 : Word) 31 16 ≠ 7852 ∨ fld (0x1EAC0001 : Word) 0 0 = ↑(1 : Fin 2) ∧ (ropeOf latchedDry 2 ↑(1 : Fin 2)).latch = false ∨ fld (0x1EAC0001 : Word) 0 0 = ↑(1 : Fin 2) ∧ (ropeOf latchedDry 2 ↑(1 : Fin 2)).st ≠ RopeState.dry)
    ∧ WritePasses roped 10 (some 2) 32784
    ∧ (10 ≠ 9 ∧ 10 ≠ 10 ∨ fld (0x1EAC0001 : Word) 31 16 ≠ 7852 ∨ fld (0x1EAC0001 : Word) 0 0 = ↑(1 : Fin 2) ∧ (ropeOf roped 2 ↑(1 : Fin 2)).latch = false ∨ fld (0x1EAC0001 : Word) 0 0 = ↑(1 : Fin 2) ∧ (ropeOf roped 2 ↑(1 : Fin 2)).st ≠ RopeState.dry) := by
  and_intros <;> first | decide | rfl

theorem test_ArrayOrders_hypotheses :
    WritePasses arrays 2 (some 2) 36896
    ∧ LoaderQuiet arrays 2
    ∧ (arrays.at 2).ar.phase = ArPhase.idle
    ∧ arRefuse arrays 2 3 1 ≠ 0
    ∧ arRefuse arrays 2 5 0 ≠ 0
    ∧ WritePasses base 11 (some 2) 36896
    ∧ LoaderQuiet base 2
    ∧ (base.at 2).ar.phase = ArPhase.idle
    ∧ arRefuse base 2 2 0 ≠ 0
    ∧ arRefuse arrays 2 1 1 = 0
    ∧ ownOrEngine 2 2 = true
    ∧ ownOrEngine 2 9 = false
    ∧ WritePasses arrays 9 (some 2) 36896
    ∧ inRun arrays 2 1 = false
    ∧ WritePasses passing0 2 (some 2) 36896
    ∧ LoaderQuiet passing0 2
    ∧ (passing0.at 2).ar.phase = ArPhase.idle
    ∧ arRefuse passing0 2 2 1 = 0
    ∧ arRefuse passing0 2 1 1 = 0
    ∧ inRun passing0 2 1 = true
    ∧ (arrOf arrays 2 1).st ≠ .busy
    ∧ (planCopies (arrOf arrays 2 1)).2 = false
    ∧ arRefuse arrays 2 2 1 = 0
    ∧ WritePasses invalid1 2 (some 2) 36896
    ∧ LoaderQuiet invalid1 2
    ∧ (invalid1.at 2).ar.phase = ArPhase.idle
    ∧ arRefuse invalid1 2 3 1 = 0
    ∧ shortOuts (arrOf invalid1 2 1) = []
    ∧ WritePasses retiredCol 2 (some 2) 36896
    ∧ LoaderQuiet retiredCol 2
    ∧ (retiredCol.at 2).ar.phase = ArPhase.idle
    ∧ arRefuse retiredCol 2 3 1 = 0
    ∧ planCopies (arrOf retiredCol 2 1) = ([{ out := 0, copy := 0, pair := 72, src := 24 }], false)
    ∧ shortOuts (arrOf retiredCol 2 1) ≠ []
    ∧ inRun retiredCol 2 1 = false
    ∧ arRefuse arrays 2 4 1 = 0
    ∧ arRefuse arrays 2 5 1 = 0
    ∧ WritePasses verifying 2 (some 2) 36896
    ∧ LoaderQuiet verifying 2
    ∧ (verifying.at 2).ar.phase ≠ ArPhase.idle
    ∧ (arrOf verifying 2 1).st = .busy := by
  and_intros <;> first | decide | rfl

theorem test_ArrayRows_hypotheses :
    LoaderQuiet aborted 2
    ∧ aborted.dev.sleep = false
    ∧ (aborted.at 2).ar.cmdArr < 8
    ∧ (arrOf aborted 2 1).st = .busy
    ∧ LoaderQuiet asleep2 2
    ∧ asleep2.dev.sleep = true
    ∧ SourceRow verifying 2 255
    ∧ SourceRow programRow 2 255
    ∧ SourceRow programRound 2 255
    ∧ LoaderQuiet (sourceless 2) 2
    ∧ (sourceless 2).dev.sleep = false
    ∧ ((sourceless 2).at 2).ar.phase = .sense
    ∧ ((sourceless 2).at 2).ar.abort = false
    ∧ ((sourceless 2).at 2).ar.low = false
    ∧ ((sourceless 2).at 2).ar.sweep = false
    ∧ ((sourceless 2).at 2).ar.cmd ∈ [1, 2]
    ∧ offTarget ((sourceless 2).at 2).ar.target row3 0 = []
    ∧ ¬ SourceRow (sourceless 2) 2 255
    ∧ (aborted.at 2).ar.abort = true
    ∧ LoaderQuiet abortedRound 2
    ∧ (abortedRound.at 2).ar.abort = true
    ∧ LoaderQuiet verifying 2
    ∧ (verifying.at 2).ar.phase = ArPhase.sense
    ∧ (verifying.at 2).ar.abort = false
    ∧ (verifying.at 2).ar.low = false
    ∧ (verifying.at 2).ar.cmd = 2
    ∧ offTarget (verifying.at 2).ar.target row3 0 = []
    ∧ (verifying.at 2).ar.row < 255
    ∧ LoaderQuiet verifyLast 2
    ∧ (verifyLast.at 2).ar.phase = ArPhase.sense
    ∧ (verifyLast.at 2).ar.abort = false
    ∧ (verifyLast.at 2).ar.low = false
    ∧ (verifyLast.at 2).ar.cmd = 2
    ∧ offTarget (verifyLast.at 2).ar.target row3 0 = []
    ∧ 255 ≤ (verifyLast.at 2).ar.row
    ∧ offTarget (verifying.at 2).ar.target 0 0 ≠ []
    ∧ LoaderQuiet programRow 2
    ∧ (programRow.at 2).ar.phase = ArPhase.sense
    ∧ (programRow.at 2).ar.abort = false
    ∧ (programRow.at 2).ar.low = false
    ∧ (programRow.at 2).ar.cmd = 1
    ∧ offTarget (programRow.at 2).ar.target 0 0 ≠ []
    ∧ offTarget (programRow.at 2).ar.target row3 0 = []
    ∧ (programRow.at 2).ar.row < 255
    ∧ LoaderQuiet programRound 2
    ∧ (programRound.at 2).ar.phase = ArPhase.round 30
    ∧ (programRound.at 2).ar.abort = false
    ∧ offTarget (programRound.at 2).ar.target 0 0 ≠ []
    ∧ offTarget (programRound.at 2).ar.target row3 0 = []
    ∧ (programRound.at 2).ar.cmd = 1
    ∧ (programRound.at 2).ar.low = false
    ∧ (programRound.at 2).ar.row < 255
    ∧ LoaderQuiet programRound31 2
    ∧ (programRound31.at 2).ar.phase = ArPhase.round 31
    ∧ (programRound31.at 2).ar.abort = false
    ∧ 152 ∈ offTarget (programRound31.at 2).ar.target 0 0
    ∧ (aborted.at 2).ar.phase = .sense
    ∧ (programRound.at 2).ar.phase = .round 30 := by
  and_intros <;> first | decide | rfl

theorem test_calibration_of_codes : calMeans (arrOf calDue1 2 1) calCodes = #v[0, 2560, 5120, 7680]
    ∧ calAccepts #v[0, 2560, 5120, 7680] (testTol (calDue1.at 2) 1) = true := by decide

theorem test_calibration_refused : calMeans (arrOf calDue1 2 1) 0 = #v[0, 0, 0, 0]
    ∧ calAccepts #v[0, 0, 0, 0] (testTol (calDue1.at 2) 1) = false := by decide

theorem test_ArrayMeasures_hypotheses :
    LoaderQuiet calDue1 2
    ∧ (calDue1.at 2).ar.phase = ArPhase.idle
    ∧ (arrOf calDue1 2 1).calRun = true
    ∧ calDue1.dev.sleep = false
    ∧ ((arrOf calDue1 2 1).st = ArrSt.valid ∨ (arrOf calDue1 2 1).st = ArrSt.degraded)
    ∧ (arrOf calDue1 2 1).testDue = 0
    ∧ inRun calDue1 2 1 = false
    ∧ (calDue1.at 2).sy.holdover = false
    ∧ (arrOf calRetries 2 1).calTries + 1 ≤ testRetry (calRetries.at 2) 1
    ∧ LoaderQuiet calRetries 2
    ∧ (arrOf calRetries 2 1).calRun = true
    ∧ (arrOf calRetries 2 1).cells = (arrOf calDue1 2 1).cells
    ∧ calAccepts #v[0, 0, 0, 0] (testTol (calRetries.at 2) 1) = false
    ∧ testRetry (calDue1.at 2) 1 < (arrOf calDue1 2 1).calTries + 1
    ∧ LoaderQuiet closing 2
    ∧ (closing.at 2).ar.phase = ArPhase.closeCal
    ∧ (closing.at 2).ar.cmdArr = 1
    ∧ (closing.at 2).ar.abort = false
    ∧ (arrOf closing 2 1).calRun = true
    ∧ closing.dev.sleep = false
    ∧ (closing.at 2).sy.holdover = false
    ∧ LoaderQuiet arrays 2
    ∧ (arrOf arrays 2 1).calRun = false
    ∧ LoaderQuiet testDue1 2
    ∧ (testDue1.at 2).ar.phase = ArPhase.idle
    ∧ (arrOf testDue1 2 1).testDue ≠ 0
    ∧ ((arrOf testDue1 2 1).st = ArrSt.valid ∨ (arrOf testDue1 2 1).st = ArrSt.degraded)
    ∧ (arrOf testDue1 2 1).massDue = false
    ∧ testDue1.dev.sleep = false
    ∧ (testDue1.at 2).sy.holdover = false
    ∧ LoaderQuiet testRefs 2
    ∧ (testRefs.at 2).ar.phase = ArPhase.idle
    ∧ (arrOf testRefs 2 1).testDue ≠ 0
    ∧ (arrOf testRefs 2 1).st = ArrSt.degraded
    ∧ (arrOf testRefs 2 1).massDue = false
    ∧ testRefs.dev.sleep = false
    ∧ (testRefs.at 2).sy.holdover = false
    ∧ (∀ c ∈ testedCols (arrOf testRefs 2 1), badMasks (arrOf testRefs 2 1) (testTol (testRefs.at 2) 1) 0 c = 0)
    ∧ LoaderQuiet passing 2
    ∧ (passing.at 2).ar.phase = ArPhase.pass
    ∧ (passing.at 2).ar.cmdArr = 1
    ∧ passing.dev.sleep = false
    ∧ BitVec.toNat (passing.at 2).ar.dst < 537919488
    ∧ ReadPasses arrays 9 2 (1082130432 + 16777216 * 2 + 32768 * 1 + 128 * 255 + 4 * 19)
    ∧ ReadPasses verifying 2 2 (1082130432 + 16777216 * 2 + 32768 * 1 + 128 * 0 + 4 * 0)
    ∧ (arrOf verifying 2 1).st = .busy := by
  and_intros <;> first | decide | rfl

theorem test_Inference_hypotheses :
    (graphOf gathering 0 0).inf = some { step := InfStep.gather, feats := [5], input := [], outs := [0], sat := false, miss := [false] }
    ∧ (graphOf travelling 0 0).inf = some { step := InfStep.travel 1, feats := [5], input := [], outs := [0], sat := false, miss := [false] }
    ∧ layerBerth (graphOf travelling 0 0) 1 = some 3
    ∧ (graphOf passing0 0 0).inf = some { step := InfStep.pass 0 0, feats := [5], input := [], outs := [0], sat := false, miss := [false] }
    ∧ passHome passing0 2 0 = some 0
    ∧ passing0.dev.sleep = false
    ∧ stagesReached passing0 0 (graphOf passing0 0 0) = true
    ∧ stagesReached outputsReady 0 (graphOf outputsReady 0 0) = true
    ∧ stagesReached (cutOff passing0) 0 (graphOf (cutOff passing0) 0 0) = false
    ∧ passHome (cutOff passing0) 2 0 = some 0
    ∧ (graphOf (cutOff passing0) 0 0).inf = (graphOf passing0 0 0).inf
    ∧ stagesReached (cutOff outputsReady) 0 (graphOf (cutOff outputsReady) 0 0) = false
    ∧ (graphOf (cutOff outputsReady) 0 0).inf = (graphOf outputsReady 0 0).inf
    ∧ (graphOf outputsReady 0 0).inf = some { step := InfStep.outputs, feats := [5], input := [], outs := [0], sat := false, miss := [false] }
    ∧ (graphOf stalled256 0 0).inf = some { step := InfStep.gather, feats := [5], input := [], outs := [0], sat := false, miss := [false] }
    ∧ (graphOf stalled256 0 0).st = GSt.stalled
    ∧ 256 ≤ (graphOf stalled256 0 0).stallMarks
    ∧ (graphOf stalled255 0 0).inf = some { step := InfStep.gather, feats := [5], input := [], outs := [0], sat := false, miss := [false] }
    ∧ (graphOf stalled255 0 0).st = GSt.stalled
    ∧ (graphOf stalled255 0 0).stallMarks < 256 := by
  and_intros <;> first | decide | rfl

theorem test_PolicyOrdersAndDummy_hypotheses :
    WritePasses dummy 2 (some 0) 40960
    ∧ (dummy.at 0).sy.isHarbour = true
    ∧ (dummy.at 0).pg.swapDue = false
    ∧ WritePasses dummy 9 (some 0) 40960
    ∧ homes dummy 1 ≠ []
    ∧ WritePasses promotable 9 (some 0) 40960
    ∧ (promotable.at 0).sy.isHarbour = true
    ∧ (promotable.at 0).pg.swapDue = false
    ∧ homes promotable 1 ≠ []
    ∧ (∀ b ∈ homes promotable 1, (graphOf promotable b 1).st = GSt.running ∧ statsPass promotable 0 b = true)
    ∧ bindPass promotable 0 = true
    ∧ (∀ (b : BId), replaceable dummy (1) b = false)
    ∧ WritePasses storeless 10 (some 0) 40960
    ∧ (storeless.at 0).sy.isHarbour = true
    ∧ (storeless.at 0).pg.swapDue = false
    ∧ List.filter (replaceable storeless 1) allB = [0]
    ∧ placeAgain storeless 0 1 = none
    ∧ WritePasses again 10 (some 0) 40960
    ∧ (again.at 0).sy.isHarbour = true
    ∧ (again.at 0).pg.swapDue = false
    ∧ List.filter (replaceable again 0) allB = [0]
    ∧ placeAgain again 0 0 ≠ none
    ∧ List.filter (replaceable ordersHeld 0) allB = [0]
    ∧ placeAgain ordersHeld 0 0 ≠ none
    ∧ (∀ n, (ordersHeld.at n).pg.ord ≠ none)
    ∧ WritePasses ordersHeld 10 (some 0) 40960
    ∧ (ordersHeld.at 0).sy.isHarbour = true
    ∧ (ordersHeld.at 0).pg.swapDue = false
    ∧ (graphOf loadedGraph 0 0).st = GSt.loading
    ∧ (∀ p ∈ (graphOf loadedGraph 0 0).place, p.prog = 2)
    ∧ (graphOf dummy 0 1).cmpDue = true
    ∧ (swapping.at 0).sy.isHarbour = true
    ∧ (swapping.at 0).pg.swapDue = true
    ∧ (homes swapping 1).head? = some 0
    ∧ (graphOf swapping 0 1).inf = none
    ∧ (graphOf swapStarted 0 1).inf ≠ none
    ∧ (swapStarted.at 0).sy.isHarbour = true
    ∧ (swapStarted.at 0).pg.swapDue = true
    ∧ (homes swapStarted 1).head? = some 0
    ∧ (swapStarted.at 0).td.mark % 2 ^ (imgOf (graphOf swapStarted 0 1)).cadence = (imgOf (graphOf swapStarted 0 1)).phase
    ∧ (swapping.at 0).td.mark % 2 ^ (imgOf (graphOf swapping 0 1)).cadence = (imgOf (graphOf swapping 0 1)).phase := by
  and_intros <;> first | decide | rfl

theorem test_LinkOrders_hypotheses :
    WritePasses enabled 9 (some 2) 16392
    ∧ WritePasses linked 9 (some 2) 16392
    ∧ WritePasses linked 2 (some 2) 16392
    ∧ WritePasses enabled 2 (some 2) 16392
    ∧ startResult enabled 2 = 0
    ∧ WritePasses up2 11 (some 2) 16392
    ∧ startResult up2 2 ≠ 0
    ∧ lane (linked.at 2).hw = true
    ∧ lane (enabled.at 2).hw = false
    ∧ (linked.at 2).hw.link = LinkState.up
    ∧ WritePasses training2 11 (some 2) 16392
    ∧ (training2.at 2).hw.link ≠ LinkState.up := by
  and_intros <;> first | decide | rfl

theorem test_LockAndTimeouts_hypotheses :
    lane (training2.at 2).hw = true
    ∧ (training2.at 2).hw.rx.lock = false
    ∧ training2.dev.sleep = false
    ∧ (training2.at 2).hw.rx.seen < 31
    ∧ lane (searching 3 |>.at 2).hw = true
    ∧ ((searching 3).at 2).hw.rx.lock = false
    ∧ (searching 3).dev.sleep = false
    ∧ marker = (((searching 3).at 2).hw.rx.recent >>> 1) ||| (if (marker.getLsbD 31 != bitAt ((searching 3).at 2).hw.cfg 2) = true then 0x80000000#32 else 0#32)
    ∧ 31 ≤ ((searching 3).at 2).hw.rx.seen
    ∧ ((searching 3).at 2).hw.rx.excluded ≠ some ((searching 3).at 2).hw.rx.pos
    ∧ hitsOf ((searching 3).at 2).hw.rx ((searching 3).at 2).hw.rx.pos = 3
    ∧ lane (searching 2 |>.at 2).hw = true
    ∧ ((searching 2).at 2).hw.rx.lock = false
    ∧ (searching 2).dev.sleep = false
    ∧ marker = (((searching 2).at 2).hw.rx.recent >>> 1) ||| (if (marker.getLsbD 31 != bitAt ((searching 2).at 2).hw.cfg 2) = true then 0x80000000#32 else 0#32)
    ∧ 31 ≤ ((searching 2).at 2).hw.rx.seen
    ∧ ((searching 2).at 2).hw.rx.excluded ≠ some ((searching 2).at 2).hw.rx.pos
    ∧ hitsOf ((searching 2).at 2).hw.rx ((searching 2).at 2).hw.rx.pos < 3
    ∧ (unproven.at 2).hw.rx.lock = true
    ∧ (unproven.at 2).hw.rx.proven = false
    ∧ 8 ≤ (unproven.at 2).hw.rx.sinceLock
    ∧ (markerless.at 2).hw.rx.lock = true
    ∧ 8 ≤ (markerless.at 2).hw.rx.badMarkers
    ∧ (linked.at 2).hw.link = LinkState.up
    ∧ (linked.at 2).hw.tx.replayBuf = [{ ftype := 2, fseq := 255, words := [1, 2, 3, 4, 5, 6] }]
    ∧ (linked.at 2).hw.tx.resends + 1 ≤ fld (linked.at 2).hw.cfg 17 16
    ∧ (resent.at 2).hw.link = LinkState.up
    ∧ (resent.at 2).hw.tx.replayBuf = [{ ftype := 2, fseq := 255, words := [1, 2, 3, 4, 5, 6] }]
    ∧ fld (resent.at 2).hw.cfg 17 16 < (resent.at 2).hw.tx.resends + 1
    ∧ (resent.at 2).hw.tx.blame ≠ some 255
    ∧ ((training2.at 2).hw.link = LinkState.train ∨ (training2.at 2).hw.link = LinkState.retrain)
    ∧ ((trainTired.at 2).hw.link = LinkState.train ∨ (trainTired.at 2).hw.link = LinkState.retrain)
    ∧ vget (linked.at 2).hw.tags 5 = TagSt.used order5
    ∧ order5.owner = OrdOwner.mailbox 9
    ∧ headerWaits (linked.at 2).hw.tx 5 = false
    ∧ List.find? (fun y => y.1 == 1) (freqWaits.at 2).hw.freqRetry = some (1, 3)
    ∧ (freqWaits.at 2).rl.slot = SlotState.up := by
  and_intros <;> first | decide | rfl

theorem test_Frames_hypotheses :
    sleeping.dev.sleep = true
    ∧ linked.dev.sleep = false
    ∧ training2.dev.sleep = false
    ∧ frameReserved (payload[0]?.getD 0) (payload[1]?.getD 0) = false
    ∧ reservedFrame = invert (bitAt (linked.at 2).hw.cfg 2) Tests.badBits.toList
    ∧ reservedFrame[0]?.getD 0 = marker
    ∧ reservedFrame[8]?.getD 0 = crc32 (wordsBytes (scrambleAll false (List.take 7 (List.drop 1 reservedFrame)) (linked.at 2).hw.rx.hist).1)
    ∧ (scrambleAll false (List.take 7 (List.drop 1 reservedFrame)) (linked.at 2).hw.rx.hist).1 = spoiled
    ∧ frameReserved (spoiled[0]?.getD 0) (spoiled[1]?.getD 0) = true
    ∧ (linked.at 2).hw.rx.lock = true
    ∧ lane (linked.at 2).hw = true
    ∧ invert false badMarker.toList = invert (bitAt (linked.at 2).hw.cfg 2) badMarker.toList
    ∧ (scrambleAll false (List.take 7 (List.drop 1 badMarker.toList)) (BitVec.allOnes 58)).1 = (scrambleAll false (List.take 7 (List.drop 1 (invert false badMarker.toList))) (linked.at 2).hw.rx.hist).1
    ∧ (invert (bitAt (linked.at 2).hw.cfg 2) badMarker.toList)[0]?.getD 0 ≠ marker
    ∧ (invert (bitAt (linked.at 2).hw.cfg 2) badCrc.toList)[0]?.getD 0 = marker
    ∧ (invert (bitAt (linked.at 2).hw.cfg 2) badCrc.toList)[8]?.getD 0 ≠ crc32 (wordsBytes (scrambleAll false (List.take 7 (List.drop 1 (invert (bitAt (linked.at 2).hw.cfg 2) badCrc.toList))) (linked.at 2).hw.rx.hist).1)
    ∧ Tests.goodFrame.toList = invert (bitAt (linked.at 2).hw.cfg 2) Tests.goodFrame.toList
    ∧ payload = (scrambleAll false (List.take 7 (List.drop 1 Tests.goodFrame.toList)) (linked.at 2).hw.rx.hist).1
    ∧ (2 : Word) = payload[0]?.getD (0 : Word)
    ∧ Tests.goodFrame.toList[0]?.getD 0 = marker
    ∧ Tests.goodFrame.toList[8]?.getD 0 = crc32 (wordsBytes payload)
    ∧ (linked.at 2).hw.link = LinkState.up
    ∧ fld 2 15 8 = ((linked.at 2).hw.rx.last + 1) % 256
    ∧ 0 < window (linked.at 2).hw.rx
    ∧ (linked.at 2).hw.tx.on = true
    ∧ (training2.at 2).hw.tx.on = true
    ∧ (base.at 2).hw.tx.on = false := by
  and_intros <;> first | decide | rfl

theorem test_MessagesAndMailbox_hypotheses :
    rxFront (reply5.at 2).hw 3 = some { kind := 3, tag := 5, op := 1, len := 4, status := 0, data := [1, 2, 3, 4], frames := 1 }
    ∧ vget (reply5.at 2).hw.tags 5 = TagSt.used order5
    ∧ order5.owner = OrdOwner.mailbox 9
    ∧ replyFits order5 { kind := 3, tag := 5, op := 1, len := 4, status := 0, data := [1, 2, 3, 4], frames := 1 } = true
    ∧ rxFront (reply5Long.at 2).hw 3 = some { kind := 3, tag := 5, op := 1, len := 8, status := 0, data := [1, 2, 3, 4, 5, 6, 7, 8], frames := 2 }
    ∧ vget (reply5Long.at 2).hw.tags 5 = TagSt.used order5
    ∧ replyFits order5 { kind := 3, tag := 5, op := 1, len := 8, status := 0, data := [1, 2, 3, 4, 5, 6, 7, 8], frames := 2 } = false
    ∧ rxFront (reply6.at 2).hw 3 = some { kind := 3, tag := 6, op := 1, len := 0, status := 0, data := [], frames := 1 }
    ∧ vget (reply6.at 2).hw.tags 6 = TagSt.quarantined (some 9)
    ∧ rxFront (event2.at 2).hw 4 = some { kind := 4, tag := 0, op := 7, len := 2, status := 0, data := [1, 2], frames := 1 }
    ∧ (event2.at 2).hw.evq.length < 32
    ∧ (deckAlloc 2 0 false event2.begin).1 = some ((deckAlloc 2 0 false event2.begin).1.getD 0)
    ∧ rxFront (eventFull.at 2).hw 4 = some { kind := 4, tag := 0, op := 7, len := 2, status := 0, data := [1, 2], frames := 1 }
    ∧ 32 ≤ (eventFull.at 2).hw.evq.length
    ∧ rxFront (eventNoBuf.at 2).hw 4 = some { kind := 4, tag := 0, op := 7, len := 2, status := 0, data := [1, 2], frames := 1 }
    ∧ (eventNoBuf.at 2).hw.evq.length < 32
    ∧ (deckAlloc 2 0 false eventNoBuf.begin).1 = none
    ∧ WritePasses up2 9 (some 2) 16452
    ∧ linkOpen (up2.at 2).hw = false
    ∧ WritePasses linked 9 (some 2) 16452
    ∧ linkOpen (linked.at 2).hw = true
    ∧ (linked.at 2).dk.inDeck = true
    ∧ tagFor (linked.at 2).hw (OrdOwner.mailbox 9) = some 0
    ∧ WritePasses tagsFull 9 (some 2) 16452
    ∧ linkOpen (tagsFull.at 2).hw = true
    ∧ (tagsFull.at 2).dk.inDeck = true
    ∧ tagFor (tagsFull.at 2).hw (OrdOwner.mailbox 9) = none
    ∧ ReadPasses base 9 2 (regAddr (some 2) 16464)
    ∧ (base.at 2).hw.cpl = []
    ∧ ReadPasses completed 9 2 (regAddr (some 2) 16464)
    ∧ (completed.at 2).hw.cpl = [{ tag := 63, status := 16, len := 256, req := 9 }]
    ∧ ReadPasses base 9 2 (regAddr (some 2) 16468)
    ∧ (base.at 2).hw.evq = []
    ∧ ReadPasses completed 9 2 (regAddr (some 2) 16468)
    ∧ (completed.at 2).hw.evq = [{ code := 255, buf := 511, len := 256 }] := by
  and_intros <;> first | decide | rfl

theorem test_ServiceOrders_hypotheses :
    WritePasses enabled 2 (some 2) 16896
    ∧ ((enabled.at 2).svc.st = SvcState.off ∨ (enabled.at 2).svc.st = SvcState.failed)
    ∧ ((enabled.at 2).rl.slot = SlotState.powering ∨ (enabled.at 2).rl.slot = SlotState.up)
    ∧ bitAt (enabled.at 2).hw.cfg 0 = true
    ∧ (enabled.at 2).hw.link = LinkState.off
    ∧ WritePasses linked 2 (some 2) 16896
    ∧ (linked.at 2).svc.st ≠ SvcState.resetting
    ∧ ((linked.at 2).svc.st ≠ SvcState.off ∧ (linked.at 2).svc.st ≠ SvcState.failed ∨ (linked.at 2).rl.slot ≠ SlotState.powering ∧ (linked.at 2).rl.slot ≠ SlotState.up ∨ bitAt (linked.at 2).hw.cfg 0 = false ∨ (linked.at 2).hw.link ≠ LinkState.off)
    ∧ WritePasses inService 2 (some 2) 16896
    ∧ (inService.at 2).svc.st = SvcState.service
    ∧ (linked.at 2).svc.st ≠ SvcState.service
    ∧ WritePasses polling2 2 (some 2) 16896
    ∧ (isStage (polling2.at 2).svc.st = true ∨ (polling2.at 2).svc.st = SvcState.resetting)
    ∧ isStage (linked.at 2).svc.st = false
    ∧ WritePasses linked 9 (some 2) 16896
    ∧ WritePasses quiescing 2 (some 2) 16896
    ∧ (quiescing.at 2).svc.st = SvcState.resetting
    ∧ WritePasses waitsSlot 2 (some 2) 16896
    ∧ (waitsSlot.at 2).svc.step = SvcStep.waitSlot
    ∧ (waitsSlot.at 2).svc.st = SvcState.off
    ∧ (waitsSlot.at 2).rl.slot = SlotState.up
    ∧ (waitsSlot.at 2).hw.link = LinkState.off
    ∧ bitAt (waitsSlot.at 2).hw.cfg 0 = true := by
  and_intros <;> first | decide | rfl

theorem test_ServiceWaitsAndReports_hypotheses :
    (polling2.at 2).svc.step = SvcStep.poll CtrlFn.clocks
    ∧ (busyCtrl.at 2).svc.busy = true
    ∧ (busyCtrl.at 2).svc.step = SvcStep.ctrl CtrlFn.clocks
    ∧ tagFor (busyCtrl.at 2).hw (OrdOwner.service ((busyCtrl.at 2).svc.num + 1)) = some 0
    ∧ isStage (stageOf (polling2.at 2).svc) = true
    ∧ (quiescing.at 2).svc.st = SvcState.resetting
    ∧ inQuiesce (quiescing.at 2).svc.step = true
    ∧ (quiescing.at 2).svc.rstAbsorb = false
    ∧ (quiescing.at 2).svc.escalated = false
    ∧ (holdingReset.at 2).svc.step = SvcStep.holding
    ∧ (reporting2.at 2).svc.reporting = true
    ∧ fld (reporting2.at 2).svc.dispCfg 7 0 ≤ (reporting2.at 2).svc.pollMarks
    ∧ base.harbour = some 0
    ∧ (base.at 2).sy.st = BerthState.active
    ∧ (flitUp.slot = SlotState.powering ∨ flitUp.slot = SlotState.up ∨ flitUp.slot = SlotState.shutting)
    ∧ (vget (base.at 0).tray.pw.admis 2 = Admit.none ∨ vget (base.at 0).tray.pw.admis 2 = Admit.waiting)
    ∧ admitted2.harbour = some 0
    ∧ (admitted2.at 2).sy.st = BerthState.active
    ∧ (flitDown.slot = SlotState.down ∨ flitDown.slot = SlotState.faultHold ∨ flitDown.slot = SlotState.retired)
    ∧ (vget (admitted2.at 0).tray.pw.admis 2 = Admit.admitted ∨ vget (admitted2.at 0).tray.pw.admis 2 = Admit.unadmitted)
    ∧ same2.harbour = some 0
    ∧ (same2.at 2).sy.st = BerthState.active
    ∧ vget (same2.at 0).tray.slots 2 = flitDown
    ∧ (flitDown.slot = SlotState.powering ∨ flitDown.slot = SlotState.up ∨ flitDown.slot = SlotState.shutting ↔ vget (same2.at 0).tray.pw.admis 2 = Admit.admitted ∨ vget (same2.at 0).tray.pw.admis 2 = Admit.unadmitted) := by
  and_intros <;> first | decide | rfl

theorem test_PilotExecution_hypotheses :
    coreReady coreAdd 2 = true
    ∧ fetch (coreAdd.at 2) 2 = Fetched.op (Rv.alu RvAlu.add 3 1 2) 4
    ∧ coreReady coreBeq 2 = true
    ∧ fetch (coreBeq.at 2) 2 = Fetched.op (Rv.branch RvCond.eq (1) (2) 8) 4
    ∧ coreReady coreJalr 2 = true
    ∧ fetch (coreJalr.at 2) 2 = Fetched.op (Rv.jalr (1) (2) 5) 4
    ∧ coreReady coreIll 2 = true
    ∧ fetch (coreIll.at 2) 2 = Fetched.illegal
    ∧ coreReady coreLost 2 = true
    ∧ fetch (coreLost.at 2) 2 = Fetched.fault 0
    ∧ coreReady coreEcall 2 = true
    ∧ fetch (coreEcall.at 2) 2 = Fetched.op Rv.ecall 4
    ∧ coreReady coreUser 2 = true
    ∧ fetch (coreUser.at 2) 2 = Fetched.op Rv.ecall 4
    ∧ coreReady coreEbreak 2 = true
    ∧ fetch (coreEbreak.at 2) 2 = Fetched.op Rv.ebreak 4
    ∧ coreReady coreUserMret 2 = true
    ∧ fetch (coreUserMret.at 2) 2 = Fetched.op Rv.mret 4
    ∧ coreReady coreLw 2 = true
    ∧ fetch (coreLw.at 2) 2 = Fetched.op (Rv.load 4 false 5 2 0) 4
    ∧ coreReady coreLwPmp 2 = true
    ∧ fetch (coreLwPmp.at 2) 2 = Fetched.op (Rv.load 4 false 5 1 0) 4
    ∧ coreReady coreSw 2 = true
    ∧ fetch (coreSw.at 2) 2 = Fetched.op (Rv.store 4 2 5 0) 4
    ∧ coreReady coreSwPmp 2 = true
    ∧ fetch (coreSwPmp.at 2) 2 = Fetched.op (Rv.store 4 1 5 0) 4
    ∧ coreReady coreMret 2 = true
    ∧ fetch (coreMret.at 2) 2 = Fetched.op Rv.mret 4
    ∧ (coreMret.at 2).pl.machine = true
    ∧ (coreEcall.at 2).pl.machine = true
    ∧ (coreUser.at 2).pl.machine = false
    ∧ (coreUserMret.at 2).pl.machine = false
    ∧ getX (coreLw.at 2).pl 2 = 0x20000203
    ∧ getX (coreSw.at 2).pl 2 = 0x20000203
    ∧ getX (coreLwPmp.at 2).pl 1 = 0x20000100
    ∧ getX (coreSwPmp.at 2).pl 1 = 0x20000100
    ∧ pmpOk (coreLwPmp.at 2).pl.csr (dataPriv (coreLwPmp.at 2).pl) 0x20000100 4 0 = false
    ∧ pmpOk (coreSwPmp.at 2).pl.csr (dataPriv (coreSwPmp.at 2).pl) 0x20000100 4 1 = false := by
  and_intros <;> first | decide | rfl

theorem test_PilotWaits_hypotheses :
    coreReady coreCsr 2 = true
    ∧ fetch (coreCsr.at 2) 2 = Fetched.op (Rv.csr RvCsr.write false (5) (1) 832) 4
    ∧ csrGet 2 (coreCsr.at 2).pl 832 = some 0
    ∧ (coreCsr.at 2).pl.machine = true
    ∧ coreReady coreCsrRo 2 = true
    ∧ fetch (coreCsrRo.at 2) 2 = Fetched.op (Rv.csr RvCsr.write false (5) (1) 3860) 4
    ∧ csrGet 2 (coreCsrRo.at 2).pl 3860 = some 2
    ∧ coreReady coreFence 2 = true
    ∧ fetch (coreFence.at 2) 2 = Fetched.op Rv.fence 4
    ∧ coreReady coreFenceWaits 2 = true
    ∧ fetch (coreFenceWaits.at 2) 2 = Fetched.op Rv.fence 4
    ∧ coreReady coreWfi 2 = true
    ∧ fetch (coreWfi.at 2) 2 = Fetched.op Rv.wfi 4
    ∧ coreReady coreIrq 2 = true
    ∧ pendingIrq (coreIrq.at 2).pl = some 3
    ∧ ((coreIrq.at 2).pl.machine = false ∨ (coreIrq.at 2).pl.csr.mie = true)
    ∧ (coreTimer.at 2).pl.st = PilotState.running
    ∧ coreTimer.dev.sleep = false
    ∧ (coreTimer.at 2).pl.csr.mtie = true
    ∧ base.isHbr 0 = true
    ∧ isRemote base (hostWho 11) 0x43000000 = true
    ∧ (coreLoads.at 2).sy.remotes.find? (fun r => lateTarget coreLoads 2 r == some 3) = some loading3
    ∧ loading3.req = (pilotWho 2).req
    ∧ loading3.write = false
    ∧ access coreLoads (pilotWho 2) false loading3.addr loading3.size = Except.error (3, 3)
    ∧ (coreStores.at 2).sy.remotes.find? (fun r => lateTarget coreStores 2 r == some 3) = some storing3
    ∧ storing3.req = (pilotWho 2).req
    ∧ access coreStores (pilotWho 2) true storing3.addr storing3.size = .ok (3, .tcm 0)
    ∧ storing3.write = true
    ∧ (coreStores.at 3).memCanonical = true
    ∧ ((coreReads readTcm).at 2).sy.remotes.find? (fun r => lateTarget (coreReads readTcm) 2 r == some 3) = some readTcm
    ∧ readTcm.req = (pilotWho 2).req
    ∧ readTcm.write = false
    ∧ readTcm.rd = (5 : Fin 32).val
    ∧ access (coreReads readTcm) (pilotWho 2) false readTcm.addr readTcm.size = .ok (3, .tcm 0x100)
    ∧ ((coreReads readDeck).at 2).sy.remotes.find? (fun r => lateTarget (coreReads readDeck) 2 r == some 3) = some readDeck
    ∧ readDeck.write = false
    ∧ access (coreReads readDeck) (pilotWho 2) false readDeck.addr readDeck.size = .ok (3, .deck 0x100)
    ∧ ((coreReads readReg).at 2).sy.remotes.find? (fun r => lateTarget (coreReads readReg) 2 r == some 3) = some readReg
    ∧ readReg.write = false
    ∧ access (coreReads readReg) (pilotWho 2) false readReg.addr readReg.size = .ok (3, .reg 0 0 0)
    ∧ (base.at 2).sy.remotes.find? (fun r => lateTarget base 2 r == some 3) = none
    ∧ (storedLate.at 2).sy.timedOut.find? (fun r => r.req == 2 && lateTarget storedLate 2 r == some 3) = some storing3
    ∧ whoOf storing3.req 2 = some (pilotWho 2)
    ∧ access storedLate (pilotWho 2) true storing3.addr storing3.size = .ok (3, .tcm 0)
    ∧ (storedLate.at 3).memCanonical = true := by
  and_intros <;> first | decide | rfl

theorem test_PilotRestarts_hypotheses :
    (starting2.at 2).pl.startDue = true
    ∧ starting2.dev.sleep = false
    ∧ streaming1.dev.sleep = false
    ∧ streaming2.dev.sleep = false
    ∧ imaged.dev.sleep = false
    ∧ WritePasses base 5 (some 2) 45104
    ∧ WritePasses base 9 (some 2) 45104
    ∧ WritePasses base 2 (some 2) 45068
    ∧ WritePasses base 9 (some 2) 45068
    ∧ (coreLoads.at 2).pl.st = PilotState.running
    ∧ (restarted4.at 2).pl.st = PilotState.running
    ∧ (streaming1.at 2).pl.stream = true
    ∧ (streaming1.at 2).pl.failedStreams + 1 < 3
    ∧ (streaming2.at 2).pl.stream = true
    ∧ 3 ≤ (streaming2.at 2).pl.failedStreams + 1
    ∧ (imaged.at 2).pl.stream = true
    ∧ imaged.harbour = some 0
    ∧ (vget (imaged.at 0).tray.img.roles 0).store = true
    ∧ digestBytes (sha384 (imageBytes imaged 0 0 (vget (imaged.at 0).tray.img.roles 0).slotB)) = (vget (imaged.at 0).tray.img.roles 0).digest
    ∧ vget (imaged.at 2).ch.fuse 1 ≤ (vget (imaged.at 0).tray.img.roles 0).rollback
    ∧ coreLoads.dev.sleep = false
    ∧ WritePasses restarted4 9 (some 2) 0xB004 := by
  and_intros <;> first | decide | rfl

theorem test_RestartOrders_hypotheses :
    WritePasses base 2 (some 2) 45060
    ∧ (3 = 3 ∧ 2 ≠ 9 ∧ 2 ≠ 10 ∧ 2 ≠ 11 ∨ 3 = 2 ∧ (2 = 9 ∨ 2 = 10 ∨ 2 = 11) ∧ (32343 : BitVec 16) ≠ (32343 : BitVec 16) ∨ 3 = 1 ∧ (2 = 9 ∨ 2 = 10 ∨ 2 = 11) ∧ (32343 : BitVec 16) = (32343 : BitVec 16) ∧ (base.at 2).pl.st ≠ PilotState.running)
    ∧ WritePasses base 11 (some 2) 45060
    ∧ (2 = 3 ∧ 11 ≠ 9 ∧ 11 ≠ 10 ∧ 11 ≠ 11 ∨ 2 = 2 ∧ (11 = 9 ∨ 11 = 10 ∨ 11 = 11) ∧ (32342 : BitVec 16) ≠ (32343 : BitVec 16) ∨ 2 = 1 ∧ (11 = 9 ∨ 11 = 10 ∨ 11 = 11) ∧ (32342 : BitVec 16) = (32343 : BitVec 16) ∧ (base.at 2).pl.st ≠ PilotState.running)
    ∧ WritePasses base 10 (some 2) 45060
    ∧ (1 = 3 ∧ 10 ≠ 9 ∧ 10 ≠ 10 ∧ 10 ≠ 11 ∨ 1 = 2 ∧ (10 = 9 ∨ 10 = 10 ∨ 10 = 11) ∧ (32343 : BitVec 16) ≠ (32343 : BitVec 16) ∨ 1 = 1 ∧ (10 = 9 ∨ 10 = 10 ∨ 10 = 11) ∧ (32343 : BitVec 16) = (32343 : BitVec 16) ∧ (base.at 2).pl.st ≠ PilotState.running)
    ∧ WritePasses coreLoads 9 (some 2) 45060
    ∧ (coreLoads.at 2).pl.st = PilotState.running
    ∧ WritePasses restarted4 9 (some 2) 45060
    ∧ (restarted4.at 2).pl.st = PilotState.running := by
  and_intros <;> first | decide | rfl

theorem test_ImageLoads_hypotheses :
    regionDue.isHbr 0 = true
    ∧ (regionDue.at 0).tray.img.job = ImgJob.region (3) true [] true
    ∧ (regionDue.at 0).tray.img.todo = []
    ∧ (regionDue.at 0).tray.img.order = none
    ∧ regionDue.dev.sleep = false
    ∧ 1 = imageCheck regionDue 0 (3) true (true || if true = true then false else false)
    ∧ base.isHbr 0 = true
    ∧ WritePasses base 9 (some 0) 45312
    ∧ (base.at 0).tray.img.busy = false
    ∧ WritePasses base 2 (some 0) 45312
    ∧ (4 = 4 ∧ 2 ≠ 9 ∧ 2 ≠ 10 ∨ 4 = 2 ∧ (2 = 9 ∨ 2 = 10) ∧ (29094 : BitVec 16) ≠ (29094 : BitVec 16) ∨ 4 = 1 ∧ (2 = 9 ∨ 2 = 10) ∧ (29094 : BitVec 16) = (29094 : BitVec 16) ∧ ((base.at 0).ch.locked = false ∨ (base.at 0).hasRec 13 ↑(3 : Fin 4) = false))
    ∧ (2 = 4 ∧ 9 ≠ 9 ∧ 9 ≠ 10 ∨ 2 = 2 ∧ (9 = 9 ∨ 9 = 10) ∧ (0 : BitVec 16) ≠ (29094 : BitVec 16) ∨ 2 = 1 ∧ (9 = 9 ∨ 9 = 10) ∧ (0 : BitVec 16) = (29094 : BitVec 16) ∧ ((base.at 0).ch.locked = false ∨ (base.at 0).hasRec 13 ↑(3 : Fin 4) = false))
    ∧ WritePasses base 10 (some 0) 45312
    ∧ (1 = 4 ∧ 10 ≠ 9 ∧ 10 ≠ 10 ∨ 1 = 2 ∧ (10 = 9 ∨ 10 = 10) ∧ (29094 : BitVec 16) ≠ (29094 : BitVec 16) ∨ 1 = 1 ∧ (10 = 9 ∨ 10 = 10) ∧ (29094 : BitVec 16) = (29094 : BitVec 16) ∧ ((base.at 0).ch.locked = false ∨ (base.at 0).hasRec 13 ↑(3 : Fin 4) = false))
    ∧ roleKnown.isHbr 0 = true
    ∧ WritePasses roleKnown 10 (some 0) 45312
    ∧ (roleKnown.at 0).tray.img.busy = false
    ∧ (roleKnown.at 0).ch.locked = true
    ∧ (roleKnown.at 0).hasRec 13 3 = true
    ∧ (roleKnown.at 0).tray.img.job = ImgJob.idle
    ∧ (roleKnown.at 0).tray.img.todo = []
    ∧ copying.isHbr 0 = true
    ∧ (copying.at 2).ch.locked = true
    ∧ (copying.at 2).sy.st = BerthState.active
    ∧ (copying.at 2).pl.st = PilotState.loading
    ∧ (copying.at 2).pl.stream = false
    ∧ digestBytes (sha384 header) = (vget (copying.at 0).tray.img.roles 0).digest
    ∧ vget (copying.at 2).ch.fuse 1 ≤ (vget (copying.at 0).tray.img.roles 0).rollback
    ∧ fused.isHbr 0 = true
    ∧ (fused.at 2).ch.locked = true
    ∧ (fused.at 2).sy.st = BerthState.active
    ∧ (fused.at 2).pl.st = PilotState.loading
    ∧ (fused.at 2).pl.stream = false
    ∧ (vget (fused.at 0).tray.img.roles 0).rollback < vget (fused.at 2).ch.fuse 1 := by
  and_intros <;> first | decide | rfl

theorem test_DeckBuffers_hypotheses :
    allocClass base 2 2 = some 5
    ∧ chooseShare base { berth := 2, cls := 5 } true = some (2, false)
    ∧ freeBufs base 2 ≠ []
    ∧ allocClass noDeck 2 2 = some 5
    ∧ chooseShare noDeck { berth := 2, cls := 5 } false = none
    ∧ allocClass base 2 9 = none
    ∧ WritePasses handed2 2 (some 2) 12296
    ∧ mayRelease handed2 2 1535 = true
    ∧ (1024 / 512 ≠ 2 ∨ mayRelease handed2 2 1024 = false)
    ∧ ReadPasses base 2 2 (regAddr (some 2) 0x3000)
    ∧ ReadPasses noDeck 2 2 (regAddr (some 2) 0x3004)
    ∧ ReadPasses base 9 2 (regAddr (some 2) 0x3004) := by
  and_intros <;> first | decide | rfl

theorem test_DmaEngines_hypotheses :
    WritePasses queued 9 (some 2) (49164 + 64 * 1)
    ∧ (ownOrHce 2 9 = false ∨ (1 + 32 - (dmaOf queued 2 1).head) % 32 < ((dmaOf queued 2 1).tail + 32 - (dmaOf queued 2 1).head) % 32)
    ∧ WritePasses running512 2 (some 2) (49164 + 64 * 1)
    ∧ (ownOrHce 2 2 = false ∨ (0 + 32 - (dmaOf running512 2 1).head) % 32 < ((dmaOf running512 2 1).tail + 32 - (dmaOf running512 2 1).head) % 32)
    ∧ ((dmaOf running512 2 1).tail + 32 - (dmaOf running512 2 1).head) % 32 ≤ (31 + 32 - (dmaOf running512 2 1).head) % 32
    ∧ ((dmaOf running512 2 1).st ≠ DmaState.idle ∨ (dmaOf running512 2 1).head = 31)
    ∧ WritePasses queued 2 (some 2) (49164 + 64 * 1)
    ∧ ((dmaOf queued 2 1).tail + 32 - (dmaOf queued 2 1).head) % 32 ≤ (1 + 32 - (dmaOf queued 2 1).head) % 32
    ∧ (dmaOf queued 2 1).st = DmaState.idle
    ∧ (dmaOf queued 2 1).head ≠ 1
    ∧ slotSt (dmaOf queued 2 1) (dmaOf queued 2 1).head = 1
    ∧ descCheck 2 (dmaOf queued 2 1) (dmaOf queued 2 1).head = none
    ∧ isHws (dmaOf queued 2 1) (dmaOf queued 2 1).head = false
    ∧ bursting (dmaOf running512 2 1) = true
    ∧ running512.dev.sleep = false
    ∧ (match (burstWords 2 1 (burstFlits 2 1 running512.begin)).1 with | .ok bs => bs == List.replicate 256 0 | .error _ => false) = true
    ∧ (burstWrite 2 0x20001000 (List.replicate 64 0) (burstWords 2 1 (burstFlits 2 1 running512.begin)).2).1 = none
    ∧ dmaOf (burstWrite 2 536875008 (List.replicate 64 0) (burstWords 2 1 (burstFlits 2 1 running512.begin)).2).2 2 1 = dmaOf running512 2 1
    ∧ bursting (dmaOf faulty 2 1) = true
    ∧ faulty.dev.sleep = false
    ∧ (match (burstWords 2 1 (burstFlits 2 1 faulty.begin)).1 with | .ok _ => false | .error c => c == 1) = true
    ∧ dmaOf (burstWords 2 1 (burstFlits 2 1 faulty.begin)).2 2 1 = dmaOf faulty 2 1
    ∧ (dmaOf faulty 2 1).out = []
    ∧ handWaits waitsHand 2 1 = true
    ∧ (dmaOf waitsHand 2 1).out = []
    ∧ handWaits waitsOut 2 1 = true
    ∧ (dmaOf waitsOut 2 1).out ≠ []
    ∧ WritePasses base 2 (some 2) (49156 + 64 * 1)
    ∧ WritePasses running512 11 (some 2) (49156 + 64 * 1)
    ∧ WritePasses haltedDma 11 (some 2) (49156 + 64 * 1)
    ∧ (dmaOf haltedDma 2 1).st = DmaState.halted
    ∧ (dmaOf haltedDma 2 1).pre = none
    ∧ descCheck 2 (dmaOf haltedDma 2 1) (dmaOf haltedDma 2 1).cur = none
    ∧ isHws (dmaOf haltedDma 2 1) (dmaOf haltedDma 2 1).cur = false
    ∧ WritePasses haltedEnd 11 (some 2) (49156 + 64 * 1)
    ∧ (dmaOf haltedEnd 2 1).st = DmaState.halted
    ∧ (dmaOf haltedEnd 2 1).pre = none
    ∧ (dmaOf haltedEnd 2 1).susp = none
    ∧ (dmaOf haltedEnd 2 1).head = (dmaOf haltedEnd 2 1).tail
    ∧ ((dmaOf haltedDma 2 1).st = DmaState.halted ∨ (dmaOf haltedDma 2 1).st = DmaState.idle)
    ∧ WritePasses spareDesc 11 (some 2) (49156 + 64 * 1)
    ∧ preemptRefuse (dmaOf spareDesc 2 1) 31 = 0
    ∧ (dmaOf spareDesc 2 1).st = DmaState.running
    ∧ isHws (dmaOf spareDesc 2 1) (dmaOf spareDesc 2 1).cur = false
    ∧ preemptRefuse (dmaOf running512 2 1) 31 ≠ 0
    ∧ (dmaOf base 2 1).st ≠ .halted
    ∧ (dmaOf running512 2 1).st = .running := by
  and_intros <;> first | decide | rfl

theorem test_TwoWirePort_hypotheses :
    twOnBus attnTw 0 = true
    ∧ (Instr.last 0 TwXact.readWord, 31, leBytes 2 (BitVec.toNat (twLastWord (twOf attnTw 0)))) ∈ [(Instr.last 0 TwXact.readWord, 31, leBytes 2 (BitVec.toNat (twLastWord (twOf attnTw 0)))), (Instr.attn 0 TwXact.readWord, 32, leBytes 2 (attnPending (twOf attnTw 0)))]
    ∧ (Instr.attn 0 TwXact.readWord, 32, leBytes 2 (attnPending (twOf attnTw 0))) ∈ [(Instr.last 0 TwXact.readWord, 31, leBytes 2 (BitVec.toNat (twLastWord (twOf attnTw 0)))), (Instr.attn 0 TwXact.readWord, 32, leBytes 2 (attnPending (twOf attnTw 0)))]
    ∧ (some true = some true ∨ some true = none ∧ bitAt (twOf attnTw 0).cfg 3 = false)
    ∧ bitAt (twOf attnTw 0).cfg 3 = false
    ∧ twOnBus attnPec 0 = true
    ∧ twOnBus attnTw 4 = false := by
  and_intros <;> first | decide | rfl

theorem test_TwoWireSignals_hypotheses :
    WritePasses base 0 none 53264
    ∧ base.harbour = some 0
    ∧ WritePasses base 11 none 53264
    ∧ WritePasses base 2 none 53264
    ∧ signalReady sigDue0 0 false = true
    ∧ (twOf beaconing 0).phase = TwPhase.beacon
    ∧ twActive sigDue0 0 = true
    ∧ (sigDue0.at 0).ch.locked = true
    ∧ bitAt (twOf sigDue0 0).cfg 4 = false
    ∧ attnPending (twOf sigDue0 0) ≠ 0
    ∧ signalReady notifyDue 0 true = true
    ∧ (twOf notifyDue 0).notifyWait = false
    ∧ signalReady arbTired 0 true = true
    ∧ (twOf arbTired 0).notifyWait = false
    ∧ (twOf backoff0 0).phase = TwPhase.backoff
    ∧ sleeping.dev.sleep = true
    ∧ twActive sleeping 0 = true
    ∧ (twOf sleeping 0).waking = false
    ∧ (twOf stretched 0).waking = true
    ∧ sleepNack.dev.sleep = true
    ∧ twActive sleepNack 0 = true
    ∧ (twOf stretched 0).sclLow = true
    ∧ twActive base 0 = true
    ∧ twActive base 4 = false := by
  and_intros <;> first | decide | rfl

theorem test_UsbBusAndTelemetry_hypotheses :
    (usOf base 0).active = true
    ∧ bitAt (usOf base 0).cfg 0 = true
    ∧ (usOf base 0).attached = false
    ∧ (usOf dnSync 0).attached = true
    ∧ (usOf manifesting 0).attached = true
    ∧ (usOf dnSync 0).susp = false
    ∧ (usOf suspended 0).susp = true
    ∧ (usOf suspended 0).rwake = true
    ∧ (usOf suspended 0).wakeReq = true
    ∧ isConf telOff 0 = true
    ∧ (bitAt (usOf telOff 0).cfg 2 = false ∨ (usOf telOff 0).halt81 = true)
    ∧ isConf telQuiet 0 = true
    ∧ bitAt (usOf telQuiet 0).cfg 2 = true
    ∧ (usOf telQuiet 0).halt81 = false
    ∧ telBytesDue (usOf telQuiet 0) = []
    ∧ (usOf telQuiet 0).zlpDue = false
    ∧ isConf tel128 0 = true
    ∧ bitAt (usOf tel128 0).cfg 2 = true
    ∧ (usOf tel128 0).halt81 = false
    ∧ (telBytesDue (usOf tel128 0) ≠ [] ∨ (usOf tel128 0).zlpDue = true)
    ∧ 64 = (usOf tel128 0).telFlight.getD (min (bulkSize tel128 0) (telBytesDue (usOf tel128 0)).length)
    ∧ (usOf tel128 0).telFlight = some 64
    ∧ (usOf tel128 0).telQueue = [telRec2 128]
    ∧ (usOf tel128 0).telSent + 64 < (telRec2 128).bytes.length
    ∧ (usOf telLast 0).telFlight = some 64
    ∧ (usOf telLast 0).telQueue = [telRec2 128]
    ∧ (telRec2 128).bytes.length = (usOf telLast 0).telSent + 64
    ∧ WritePasses base 9 none 57380
    ∧ base.harbour = some 0
    ∧ WritePasses pushes16 2 none 57380
    ∧ pushes16.harbour = some 0
    ∧ 16 ≤ pushesQueued (usOf pushes16 0)
    ∧ WritePasses telOff 2 none 57380
    ∧ telOff.harbour = some 0
    ∧ pushesQueued (usOf telOff 0) < 16
    ∧ telOn telOff 0 3 = false
    ∧ WritePasses telQuiet 2 none 57380
    ∧ telQuiet.harbour = some 0
    ∧ pushesQueued (usOf telQuiet 0) < 16
    ∧ telOn telQuiet 0 3 = true
    ∧ holderOf telQuiet 0 ≠ some (pushHand 0 2)
    ∧ WritePasses pushReady 2 none 57380
    ∧ pushReady.harbour = some 0
    ∧ pushesQueued (usOf pushReady 0) < 16
    ∧ telOn pushReady 0 3 = true
    ∧ holderOf pushReady 1535 = some (pushHand 0 2)
    ∧ (pushReady.at (bid (1535 / 512))).dk.inDeck = true
    ∧ (∀ e ∈ (pushReady.at (bid (1535 / 512))).dk.handed, e.1 ≠ 1535 % 512)
    ∧ (usOf pushReady 0).telLoss = 0 := by
  and_intros <;> first | decide | rfl

theorem test_UsbRequests_hypotheses :
    onBus configured 0 = true
    ∧ onBus tel128 0 = true
    ∧ isConf tel128 0 = true
    ∧ onBus defaulted 0 = true
    ∧ (usOf tel128 0).dev ≠ UsbDev.default
    ∧ onBus dfuIdle 0 = true
    ∧ isConf dfuIdle 0 = true
    ∧ (usOf dfuIdle 0).dfu.st = DfuState.idle
    ∧ (isConf dfuIdle 0 = false ∨ 1 = 1#8 ∧ ((usOf dfuIdle 0).dfu.st ≠ DfuState.idle ∨ 21#8 < 22) ∨ 1 ≠ 1#8 ∧ (2#8 < 1 ∨ 22 ≠ 0#8))
    ∧ (isConf defaulted 0 = false ∨ 0 = 1#8 ∧ ((usOf defaulted 0).dfu.st ≠ DfuState.idle ∨ 21#8 < 0) ∨ 0 ≠ 1#8 ∧ (2#8 < 0 ∨ 0 ≠ 0#8))
    ∧ onBus dnIdle 0 = true
    ∧ (isConf dnIdle 0 = false ∨ 1 = 1#8 ∧ ((usOf dnIdle 0).dfu.st ≠ DfuState.idle ∨ 21#8 < 2) ∨ 1 ≠ 1#8 ∧ (2#8 < 1 ∨ 2 ≠ 0#8))
    ∧ (isConf dnIdle 0 = false ∨ 3 = 1#8 ∧ ((usOf dnIdle 0).dfu.st ≠ DfuState.idle ∨ 21#8 < 0) ∨ 3 ≠ 1#8 ∧ (2#8 < 3 ∨ 0 ≠ 0#8))
    ∧ isConf configured 0 = true
    ∧ bitAt (usOf configured 0).cfg 3 = true := by
  and_intros <;> first | decide | rfl

theorem test_FirmwareUpgrade_hypotheses :
    isConf dfuIdle 0 = true
    ∧ bitAt (usOf dfuIdle 0).cfg 1 = true
    ∧ (dfuOf dfuIdle 0).st = DfuState.idle
    ∧ refuseOf dfuIdle 0 true ≠ 0
    ∧ isConf dfuOfLog 0 = true
    ∧ bitAt (usOf dfuOfLog 0).cfg 1 = true
    ∧ (dfuOf dfuOfLog 0).st = DfuState.idle
    ∧ refuseOf dfuOfLog 0 false ≠ 0
    ∧ isConf dnIdle 0 = true
    ∧ bitAt (usOf dnIdle 0).cfg 1 = true
    ∧ (dfuOf dnIdle 0).st = DfuState.dnloadIdle
    ∧ BitVec.toNat (5 : BitVec 16) ≠ (dfuOf dnIdle 0).block
    ∧ (dfuOf dnIdle 0).active = true
    ∧ BitVec.toNat (1 : BitVec 16) = (dfuOf dnIdle 0).block
    ∧ (dfuOf dnIdle 0).len + [1, 2, 3].length ≤ targetSize ((usOf dnIdle 0).alt % 11)
    ∧ flashThere dnIdle (altFlash (usOf dnIdle 0).alt) = true
    ∧ (allocMany 0 6 true 1 dnIdle.begin).1.isSome = true
    ∧ flashThere dfuIdle (altFlash (usOf dfuIdle 0).alt) = true
    ∧ 16 = min (min (BitVec.toNat (16 : BitVec 16)) 4096) (targetSize ((usOf dfuIdle 0).alt % 11))
    ∧ isConf dnSync 0 = true
    ∧ bitAt (usOf dnSync 0).cfg 1 = true
    ∧ isConf dfuErr 0 = true
    ∧ bitAt (usOf dfuErr 0).cfg 1 = true
    ∧ (dfuOf dfuErr 0).st = DfuState.error
    ∧ (dfuOf dnSync 0).active = true
    ∧ ((dfuOf dnSync 0).st = DfuState.dnloadSync ∨ (dfuOf dnSync 0).st = DfuState.dnloadIdle ∨ (dfuOf dnSync 0).st = DfuState.dnBusy)
    ∧ isConf configured 0 = true
    ∧ dfuErase.dev.sleep = false
    ∧ dfuProg.dev.sleep = false
    ∧ manifesting.dev.sleep = false
    ∧ (dfuOf dfuErase 0).op = some (DfuOp.erase 0 65536)
    ∧ (dfuOf dfuProg 0).op = some (DfuOp.program 0 65536 [1, 2, 3])
    ∧ (dfuOf manifesting 0).st = DfuState.manifestSync
    ∧ (dfuOf manifesting 0).op = none
    ∧ 0 = altFlash (usOf manifesting 0).alt
    ∧ flashThere manifesting 0 = true
    ∧ targetOff 2 = targetOff ((usOf manifesting 0).alt % 11) := by
  and_intros <;> first | decide | rfl

theorem test_UnretiresAndSoundings_hypotheses :
    base.isHbr 0 = true
    ∧ WritePasses base 9 none 61508
    ∧ (base.at 0).tray.hl.busy = false
    ∧ 0 = vget (base.at 0).tray.hl.arg 9 % 65536
    ∧ WritePasses base 2 none 61508
    ∧ 0 = vget (base.at 0).tray.hl.arg 2 % 65536
    ∧ unPort.isHbr 0 = true
    ∧ WritePasses unPort 9 none 61508
    ∧ (unPort.at 0).tray.hl.busy = false
    ∧ 1 = vget (unPort.at 0).tray.hl.arg 9 % 65536
    ∧ unTide.isHbr 0 = true
    ∧ WritePasses unTide 9 none 61508
    ∧ (unTide.at 0).tray.hl.busy = false
    ∧ 0 = vget (unTide.at 0).tray.hl.arg 9 % 65536
    ∧ unBerth.isHbr 0 = true
    ∧ WritePasses unBerth 9 none 61508
    ∧ (unBerth.at 0).tray.hl.busy = false
    ∧ 0 = vget (unBerth.at 0).tray.hl.arg 9 % 65536
    ∧ unSlot.isHbr 0 = true
    ∧ WritePasses unSlot 9 none 61508
    ∧ (unSlot.at 0).tray.hl.busy = false
    ∧ 0 = vget (unSlot.at 0).tray.hl.arg 9 % 65536
    ∧ unAvs.isHbr 0 = true
    ∧ WritePasses unAvs 9 none 61508
    ∧ (unAvs.at 0).tray.hl.busy = false
    ∧ 1 = vget (unAvs.at 0).tray.hl.arg 9 % 65536
    ∧ unCool.isHbr 0 = true
    ∧ WritePasses unCool 9 none 61508
    ∧ (unCool.at 0).tray.hl.busy = false
    ∧ 1 = vget (unCool.at 0).tray.hl.arg 9 % 65536
    ∧ unRope.isHbr 0 = true
    ∧ WritePasses unRope 9 none 61508
    ∧ (unRope.at 0).tray.hl.busy = false
    ∧ 1 = vget (unRope.at 0).tray.hl.arg 9 % 65536
    ∧ unColumn.isHbr 0 = true
    ∧ WritePasses unColumn 9 none 61508
    ∧ (unColumn.at 0).tray.hl.busy = false
    ∧ 163 = vget (unColumn.at 0).tray.hl.arg 9 % 65536
    ∧ unArray.isHbr 0 = true
    ∧ WritePasses unArray 9 none 61508
    ∧ (unArray.at 0).tray.hl.busy = false
    ∧ 1 = vget (unArray.at 0).tray.hl.arg 9 % 65536
    ∧ unDma.isHbr 0 = true
    ∧ WritePasses unDma 9 none 61508
    ∧ (unDma.at 0).tray.hl.busy = false
    ∧ 1 = vget (unDma.at 0).tray.hl.arg 9 % 65536
    ∧ unTwi.isHbr 0 = true
    ∧ WritePasses unTwi 9 none 61508
    ∧ (unTwi.at 0).tray.hl.busy = false
    ∧ 0 = vget (unTwi.at 0).tray.hl.arg 9 % 65536
    ∧ unPilot.isHbr 0 = true
    ∧ WritePasses unPilot 9 none 61508
    ∧ (unPilot.at 0).tray.hl.busy = false
    ∧ 0 = vget (unPilot.at 0).tray.hl.arg 9 % 65536
    ∧ unCore.isHbr 0 = true
    ∧ WritePasses unCore 9 none 61508
    ∧ (unCore.at 0).tray.hl.busy = false
    ∧ 3 = vget (unCore.at 0).tray.hl.arg 9 % 65536
    ∧ unretRefuse unPort 0 2 1 1 9 0x6B3D = 0
    ∧ unretRefuse unTide 0 4 2 0 9 0x6B3D = 0
    ∧ unretRefuse unBerth 0 3 3 0 9 0x6B3D = 0
    ∧ unretRefuse unSlot 0 2 4 0 9 0x6B3D = 0
    ∧ unretRefuse unAvs 0 2 5 1 9 0x6B3D = 0
    ∧ unretRefuse unCool 0 2 6 1 9 0x6B3D = 0
    ∧ unretRefuse unRope 0 2 7 1 9 0x6B3D = 0
    ∧ unretRefuse unColumn 0 2 8 163 9 0x6B3D = 0
    ∧ unretRefuse unArray 0 2 9 1 9 0x6B3D = 0
    ∧ unretRefuse unDma 0 2 10 1 9 0x6B3D = 0
    ∧ unretRefuse unTwi 0 4 11 0 9 0x6B3D = 0
    ∧ unretRefuse unPilot 0 2 12 0 9 0x6B3D = 0
    ∧ unretRefuse unCore 0 2 13 3 9 0x6B3D = 0
    ∧ unretRefuse base 0 2 1 0 9 0x6B3D ≠ 0
    ∧ unretRefuse base 0 2 1 0 2 0x6B3D ≠ 0
    ∧ (arrOf unColumn 2 (163 / 160)).st ≠ .busy
    ∧ unBusyColumn.isHbr 0 = true
    ∧ WritePasses unBusyColumn 9 none 61508
    ∧ (unBusyColumn.at 0).tray.hl.busy = false
    ∧ 163 = vget (unBusyColumn.at 0).tray.hl.arg 9 % 65536
    ∧ unretRefuse unBusyColumn 0 2 8 163 9 0x6B3D = 0
    ∧ (arrOf unBusyColumn 2 (163 / 160)).st = .busy
    ∧ busyUn1.isHbr 0 = true
    ∧ (busyUn1.at 0).tray.hl.busy = true
    ∧ (busyUn1.at 0).tray.hl.kind ≠ 3
    ∧ busyUn3.isHbr 0 = true
    ∧ (busyUn3.at 0).tray.hl.busy = true
    ∧ (busyUn3.at 0).tray.hl.kind = 3
    ∧ late3m.isHbr 0 = true
    ∧ noDeckAt.isHbr 0 = true
    ∧ (noDeckAt.at 3).sy.st = BerthState.moored
    ∧ chooseShare noDeckAt { berth := 0, cls := 3 } false = none
    ∧ (late3m.at 3).sy.st = BerthState.moored
    ∧ (base.at 3).sy.st ≠ BerthState.moored
    ∧ (base.at 3).sy.st ≠ .moored
    ∧ (late3m.at 3).sy.st = .moored := by
  and_intros <;> first | decide | rfl

theorem test_MarkBoundaries_hypotheses :
    ((stopped2.at 2).td.running = false ∨ (stopped2.at 2).td.held = true)
    ∧ (base.at 2).td.running = true
    ∧ (base.at 2).td.held = false
    ∧ (endTide.at 2).td.running = true
    ∧ (endTide.at 2).td.held = false
    ∧ (endTide.at 2).td.load = none
    ∧ (base.at 0).td.running = true
    ∧ (base.at 0).td.held = false
    ∧ (base.at 0).td.load = none
    ∧ (loaded2.at 2).td.running = true
    ∧ (loaded2.at 2).td.held = false
    ∧ (loaded2.at 2).td.load = some (7, 9)
    ∧ (loaded2.at 2).td.mark < 256
    ∧ markCount (loaded2.at 2).td < 7 * 256 + 9 := by
  and_intros <;> first | decide | rfl

theorem test_StateAfterReset_hypotheses :
    extest.dev.stby = true
    ∧ resetting.dev.rstBusy = true
    ∧ (extest.dev.tap = TapInstr.extest ∨ extest.dev.tap = TapInstr.clamp ∨ extest.dev.tap = TapInstr.highz)
    ∧ extest.dev.tap ≠ TapInstr.idcode := by
  and_intros <;> first | decide | rfl

end Sys2Proof.Tests
end

/-! What a main reset, by any cause, leaves in the ring side and the SY_ block of every berth (R46). -/
namespace Sys2Proof.Machine

/-! ### Updates of every berth, and steps over lists -/

@[simp] theorem State.updAll_at {s : State} {f : BId → Berth → Berth} {b : BId} :
    (s.updAll f).at b = f b (s.at b) := by
  simp only [State.updAll, allB, List.foldl_cons, List.foldl_nil, State.upd_at]
  fin_cases b <;> rfl

theorem iter_induction {α : Type} {P : State → Prop} {f : α → State → State} {xs : List α} {s : State}
    (hs : P s) (hf : ∀ x t, P t → P (f x t)) : P (iter xs f s) :=
  List.foldlRecOn xs _ hs fun t ht x _ => hf x t ht

/-! ### The start-up state of a berth -/

/-- The SY_ block and the ring side hold their reset values, but for what the standby island keeps: the cause of the last reset and
the origin of its RTC counter (R114, R117). -/
structure Berth.Untrained (x : Berth) : Prop where
  sy : ∃ cause rtcFrom : Nat, x.sy = { cause := cause, rtcFrom := rtcFrom }
  rp : x.rp = {}

/-- Every berth is in its start-up state. -/
def State.Untrained (s : State) : Prop := ∀ b, (s.at b).Untrained

theorem resetBerth_untrained (now : Nat) (x : Berth) : (resetBerth now x).Untrained := ⟨⟨_, _, rfl⟩, rfl⟩

/-- The standby island's registers are no part of the start-up state. -/
theorem Berth.Untrained.withIsland {x y : Berth} (h : x.Untrained) {cause rtcFrom : Nat}
    (hsy : y.sy = { x.sy with cause := cause, rtcFrom := rtcFrom }) (hrp : y.rp = x.rp) : y.Untrained := by
  obtain ⟨_, _, hx⟩ := h.sy
  exact ⟨⟨cause, rtcFrom, by rw [hsy, hx]⟩, hrp.trans h.rp⟩

theorem State.Untrained.updCause {s : State} (h : s.Untrained) (b : BId) (f : Nat → Nat) :
    (updSy b (fun y => { y with cause := f y.cause }) s).Untrained := by
  intro c
  rw [updSy_at]
  split
  · exact (h c).withIsland rfl rfl
  · exact h c

theorem State.reset_untrained : State.reset.Untrained := by
  intro b
  have hb : State.reset.at b = if b.val % 4 == 0 then { sy := { cause := 1 } } else {} := by
    simp only [State.reset, State.at, Fin.getElem_fin, Vector.getElem_ofFn]
  rw [hb]
  split
  · exact ⟨⟨1, 0, rfl⟩, rfl⟩
  · exact ⟨⟨0, 0, rfl⟩, rfl⟩

/-! ### The operations of a reset lead there -/

/-- The device's own state and the queue of commands are no part of the start-up state. -/
theorem State.Untrained.withDev {s : State} (h : s.Untrained) (d : Dev) : State.Untrained { s with dev := d } := h

theorem State.Untrained.withPending {s : State} (h : s.Untrained) (cs : List Instr) :
    State.Untrained { s with pending := cs } := h

theorem State.Untrained.updDev {s : State} (h : s.Untrained) (f : Dev → Dev) : (updDev f s).Untrained := h.withDev _

theorem State.Untrained.draw {s : State} (h : s.Untrained) : s.draw.2.Untrained := h

theorem updAll_resetBerth_untrained (now : Nat) (s : State) : (s.updAll fun _ x => resetBerth now x).Untrained := by
  intro b
  rw [State.updAll_at]
  exact resetBerth_untrained now (s.at b)

theorem mainBlocks_untrained (s : State) : (mainBlocks s).Untrained :=
  (updAll_resetBerth_untrained _ (iter allB flashCut s)).withDev _

theorem mainReset_untrained (bit : Nat) (s : State) : (mainReset bit s).Untrained :=
  iter_induction (mainBlocks_untrained s) fun b _ h => h.updCause b (· ||| 2 ^ bit)

theorem islandClear_untrained (cause : Nat) {s : State} (h : s.Untrained) : (islandClear cause s).Untrained := by
  refine iter_induction (fun b => ?_) fun b _ ht => ht.updCause b fun _ => cause
  rw [State.updAll_at]
  exact (h b).withIsland rfl rfl

/-- Leaving EXTEST, CLAMP or HIGHZ is a main reset (R120); what follows it concerns the test port alone. -/
theorem tapLoad_untrained {i : TapInstr} {s : State}
    (old : s.dev.tap = .extest ∨ s.dev.tap = .clamp ∨ s.dev.tap = .highz) (leaves : s.dev.tap ≠ i) :
    (tapLoad i s).Untrained := by
  have hleaves : ((s.dev.tap == .extest || s.dev.tap == .clamp || s.dev.tap == .highz) && s.dev.tap != i) = true := by
    simpa [or_assoc] using ⟨old, leaves⟩
  simp only [tapLoad, hleaves, if_true]
  split
  · exact ((mainReset_untrained 4 s).updDev _).draw.updDev _
  · exact (mainReset_untrained 4 s).updDev _

/-! ### What the start-up state reads as -/

theorem portOf_of_untrained {s : State} {b : BId} (h : (s.at b).Untrained) (p : Fin 4) :
    portOf s b p.val = {} := by
  simp [portOf, vget, h.rp]

/-- A berth in its start-up state reads as R46 says. -/
theorem State.Untrained.untrainedRing {s : State} (h : s.Untrained) : UntrainedRing s := by
  intro b
  obtain ⟨cause, rtcFrom, hsy⟩ := (h b).sy
  refine ⟨by rw [hsy], ?ringStat, ?ports, by rw [hsy], by rw [hsy], ?latches, ?counters⟩
  case ringStat => simp [liveReg, readSy, hsy]
  case ports => exact fun p => by rw [portOf_of_untrained (h b)]
  case latches => exact fun q => by simp [vget, hsy]
  case counters => simp [liveReg, readSy, hsy, lo64, hi64, wordOf]

/-- A command whose outcome has every berth in its start-up state answers as R46 says. -/
theorem answers_untrainedRing {c : Instr} {s u t : State} (run : exec c s = ran u t) (h : t.Untrained) :
    Answers c s UntrainedRing :=
  ⟨{ t with pending := u.pending }, run, (h.withPending u.pending).untrainedRing⟩

/-! ### The commands that reset the device -/

section
variable (s : State)

theorem exec_mainSupplyLoss (stby : s.dev.stby = true) :
    exec .mainSupplyLoss s = ran s.begin (mainReset 1 (updDev (fun d => { d with supplies := false }) s.begin)) := by
  change execMainSupplyLoss s = _
  rw [execMainSupplyLoss, if_pos (show s.begin.dev.stby = true from stby)]

theorem exec_resetNAssert (stby : s.dev.stby = true) :
    exec .resetNAssert s = ran s.begin (mainReset 2 (updDev (fun d => { d with pinLow := true }) s.begin)) := by
  change execResetNAssert s = _
  rw [execResetNAssert, if_pos (show s.begin.dev.stby = true from stby)]

theorem exec_controllerResetFire (busy : s.dev.rstBusy = true) :
    exec .controllerResetFire s = ran s.begin (mainReset 3 s.begin) := by
  change execControllerResetFire s = _
  rw [execControllerResetFire, if_pos (show s.begin.dev.rstBusy = true from busy)]

theorem exec_vddStbyLoss : exec .vddStbyLoss s =
    ran s (updDev (fun d => { d with stby := false, supplies := false }) (islandClear 0 (mainBlocks s.begin))) := rfl

theorem exec_vddStbyReset : exec .vddStbyReset s =
    ran s (updDev (fun d => { d with stby := true }) (islandClear 1 (mainBlocks s.begin))) := rfl

theorem exec_tapInstructionLoad (i : TapInstr) : exec (.tapInstructionLoad i) s = ran s (tapLoad i s.begin) := rfl

theorem exec_tapTestLogicReset : exec .tapTestLogicReset s = ran s (tapLoad .idcode s.begin) := rfl

end

/-- Settles O55: power-on starts from the start-up state, and each cause of a main reset ends in it. -/
theorem stateAfterReset : Obligations.StateAfterReset := by
  refine ⟨State.reset_untrained.untrainedRing, fun s =>
    ⟨?supplyLoss, ?resetPin, ?standbyRise, ?standbyLoss, ?controllerReset, ?testLogicReset, ?instructionLoad⟩⟩
  case supplyLoss =>
    exact fun stby => answers_untrainedRing (exec_mainSupplyLoss s stby) (mainReset_untrained 1 _)
  case resetPin =>
    exact fun stby => answers_untrainedRing (exec_resetNAssert s stby) (mainReset_untrained 2 _)
  case standbyRise =>
    exact answers_untrainedRing (exec_vddStbyReset s) ((islandClear_untrained 1 (mainBlocks_untrained _)).updDev _)
  case standbyLoss =>
    exact answers_untrainedRing (exec_vddStbyLoss s) ((islandClear_untrained 0 (mainBlocks_untrained _)).updDev _)
  case controllerReset =>
    exact fun busy => answers_untrainedRing (exec_controllerResetFire s busy) (mainReset_untrained 3 _)
  case testLogicReset =>
    intro old
    have leaves : s.dev.tap ≠ .idcode := by
      rcases old with tap | tap | tap <;> simp [tap]
    exact answers_untrainedRing (exec_tapTestLogicReset s) (tapLoad_untrained (s := s.begin) old leaves)
  case instructionLoad =>
    rintro i ⟨old, leaves⟩
    exact answers_untrainedRing (exec_tapInstructionLoad s i) (tapLoad_untrained (s := s.begin) old leaves)

end Sys2Proof.Machine

/-! What the orders to HW_SVC_CMD do (R340): BRING_UP, the reset of a unit, ABORT; and the start of MGMT (R341). -/
namespace Sys2Proof.Machine

/-! ### An order through a register -/

section
variable {s : State} {b : BId} {req : ReqId}

@[simp] theorem hwOf_begin : hwOf s.begin b = hwOf s b := rfl

theorem cplRead_fst_begin : (cplRead b s.begin).1 = (cplRead b s).1 := by
  simp only [cplRead, hwOf_begin]
  cases (hwOf s b).cpl <;> rfl

theorem evqRead_fst_begin : (evqRead b req s.begin).1 = (evqRead b req s).1 := by
  simp only [evqRead, hwOf_begin]
  cases (hwOf s b).evq <;> rfl

theorem readHw_begin {off : Nat} : readHw s.begin b req off = readHw s b req off := by
  simp only [readHw, cplRead_fst_begin, evqRead_fst_begin]
  rfl

theorem liveReg_begin {tray : Bool} {blk off : Nat} : liveReg s.begin b tray req blk off = liveReg s b tray req blk off := by
  simp only [liveReg, readHw_begin]
  rfl

/-- The tests of R39 do not look at the outputs of the command before. -/
theorem access_begin {w : Who} {write : Bool} {a size : Nat} : access s.begin w write a size = access s w write a size := by
  simp only [access, reachAt, liveReg_begin]
  rfl

end

section
variable {s : State} {req : ReqId} {n : Option BId} {off : Nat} {act : State → State}

theorem viaBus_of_writePasses (pass : WritePasses s req n off) :
    viaBus req n off act s.begin = hostDid req (act s.begin) := by
  unfold WritePasses passes at pass
  unfold viaBus
  split at pass
  case h_2 => exact absurd pass Bool.false_ne_true
  case h_1 w who =>
    split at pass
    case h_2 => exact absurd pass Bool.false_ne_true
    case h_1 r ok => simp only [who, access_begin, ok]

/-- An order that passes the tests of R39 answers in what its rule makes of the state, but for the host activity. -/
theorem answers_viaBus {c : Instr} {P : State → Prop} (pass : WritePasses s req n off)
    (run : exec c s = ran s (viaBus req n off act s.begin)) (h : ∀ t, Touch [.sy] (act s.begin) t → P t) :
    Answers c s P := by
  rw [viaBus_of_writePasses pass] at run
  have bus : Touch [.sy] (act s.begin) (hostDid req (act s.begin)) := hostDid_touch (by decide) Touch.refl
  exact ⟨_, run, h _ <| bus.frame rfl (fun _ => rfl) (fun _ => rfl) (fun _ => rfl) fun _ => rfl⟩

/-- Such an order changes nothing but the outputs, the host activity, and what its rule touches. -/
theorem agreeOff_of_order {fs : List Piece} {u t : State} (rule : Touch fs s.begin u) (bus : Touch [.sy] u t) :
    AgreeOff (.out :: .sy :: fs) s t := by
  have start : Touch (.out :: .sy :: fs) s s.begin := State.begin_touch (by simp) Touch.refl
  exact ((start.trans (rule.mono (by simp))).trans (bus.mono (by simp))).all

end

/-! ### An order of a DMA engine that fails -/

section
variable {s : State} {b c : BId} {e : Nat}

theorem dmaOf_updDm (lt : e < 2) {f : Dma → Dma} : dmaOf (s.updDm b e f) b e = f (dmaOf s b e) := by
  simp [dmaOf, lt]

/-- While a fault waits for the orders in flight, the engine issues none. -/
theorem dmaPump_of_flt {n : Nat} (flt : (dmaOf s b e).flt.isSome = true) : dmaPump b e n s = s := by
  have stays : dmaIssue b e s = (false, s) := by simp [dmaIssue, flt]
  cases n with
  | zero => rfl
  | succ n => simp only [dmaPump, stays]

/-- An order of a DMA engine that fails changes nothing on the link: its fault keeps the engine from further orders. -/
theorem dmaOrderDone_failed_touch {tag status : Nat} {data : List Byte} (lt : e < 2) (failed : status ≠ 0) :
    Touch [.out, .freeCtr, .rp, .log, .pl, .dk, .dm, .us, .tcm, .deck] s (dmaOrderDone b e tag status data s) := by
  have bad : (status == 0) = false := by simpa using failed
  unfold dmaOrderDone
  split
  · exact Touch.refl
  next off len g _ _ =>
    extract_lets i taken moved freed faulted d
    have touched : Touch [.dk, .dm] s faulted := by
      have taken_touch : Touch [.dk, .dm] s taken := State.updDm_touch (by decide) Touch.refl
      have moved_eq : moved = taken := by simp only [moved, bad, Bool.false_and]
      have freed_touch : Touch [.dk, .dm] s freed := deckRelease_touch (by decide) (moved_eq ▸ taken_touch)
      simp only [faulted, bad, Bool.false_eq_true, if_false]
      split
      · exact freed_touch
      · exact State.updDm_touch (by decide) freed_touch
    have flt : (dmaOf faulted b e).flt.isSome = true := by
      simp only [faulted, bad, Bool.false_eq_true, if_false]
      split
      · assumption
      · rw [dmaOf_updDm lt]; rfl
    obtain ⟨⟨code, acc, st⟩, fault⟩ := Option.isSome_iff_exists.mp flt
    split
    · rw [dmaPump_of_flt flt]
      exact touched.mono (by decide)
    · simp only [d, fault]
      exact dmaHalt_touch (by decide) (touched.mono (by decide))

/-! ### The state of the link -/

/-- A change that leaves the hawser's block alone leaves the link's state. -/
theorem Touch.link {fs : List Piece} {t : State} (h : Touch fs s t) (n : Piece.hw ∉ fs) : (t.at c).hw.link = (s.at c).hw.link :=
  congrArg Hw.link (h.at_hw n c)

theorem updHw_link {f : Hw → Hw} (keeps : ∀ h, (f h).link = h.link) : ((s.updHw b f).at c).hw.link = (s.at c).hw.link := by
  rw [State.updHw_at]
  split
  · exact keeps _
  · rfl

theorem enqueue_link {tag : Nat} {o : Order} {h : Hw} : (enqueue tag o h).link = h.link := by
  unfold enqueue
  cases o.op <;> rfl

theorem issueHw_link {o : Order} : ((issueHw b o s).at c).hw.link = (s.at c).hw.link := by
  unfold issueHw issue
  cases tagFor (s.at b).hw o.owner with
  | some g => exact updHw_link fun _ => enqueue_link
  | none => exact updHw_link fun _ => rfl

theorem sendFreq_link {k st : Nat} : ((sendFreq b k st s).at c).hw.link = (s.at c).hw.link :=
  issueHw_link.trans (updHw_link fun _ => rfl)

theorem freeTag_link {tag : Nat} : ((freeTag b tag s).at c).hw.link = (s.at c).hw.link := updHw_link fun _ => rfl

theorem pushCpl_link {p : Cpl} : ((pushCpl b p s).at c).hw.link = (s.at c).hw.link := by
  have raised : Touch [.pl] (s.updHw b fun h => { h with cpl := h.cpl ++ [p] }) (pushCpl b p s) :=
    irq_touch (by decide) Touch.refl
  exact (raised.link (by decide)).trans (updHw_link fun _ => rfl)

/-- What becomes of an order in flight when the link stops leaves the link's state alone (R329). -/
theorem linkDownTag_link {tag : Nat} : ((linkDownTag b tag s).at c).hw.link = (s.at c).hw.link := by
  unfold linkDownTag
  split
  next o _ =>
    split
    · exact pushCpl_link.trans (updHw_link fun _ => rfl)
    next engine _ =>
      exact ((dmaOrderDone_failed_touch engine.isLt (by decide)).link (by decide)).trans freeTag_link
    · exact Eq.trans (updHw_link (by exact fun _ => rfl)) freeTag_link
    · exact ((freeSvcBuf_touch (fs := [.dk]) (by decide) Touch.refl).link (by decide)).trans freeTag_link
  · exact updHw_link fun _ => rfl
  · exact freeTag_link
  · rfl

theorem iter_linkDownTag_link {tags : List Nat} : ((iter tags (linkDownTag b) s).at c).hw.link = (s.at c).hw.link :=
  iter_induction (P := fun t => (t.at c).hw.link = (s.at c).hw.link) rfl fun _ _ kept => linkDownTag_link.trans kept

theorem setLink_link {new : LinkState} {cause : Nat} : ((setLink b new cause s).at b).hw.link = new := by
  have after : Touch [.out, .freeCtr, .rp, .log, .pl, .dk, .us] (s.updHw b fun h => { h with link := new })
      (setLink b new cause s) := by
    unfold setLink
    dsimp only
    split
    · exact Touch.refl
    have raised {u : State} : Touch [.out, .freeCtr, .rp, .log, .pl, .dk, .us] u (irq b 14 u) :=
      irq_touch (by decide) Touch.refl
    split
    · exact raised
    · exact logLink_touch (by decide) raised
  rw [after.link (by decide)]
  simp

/-- A stopped link is OFF, or RETIRED as before (R329). -/
theorem linkStop_off_link :
    ((linkStop b .off s).at b).hw.link = .off ∨ ((linkStop b .off s).at b).hw.link = .retired := by
  unfold linkStop
  extract_lets h stopped downed gone cleared idle
  split
  next down => simpa [h] using down
  · left
    have freed : Touch [.dk] idle (iter gone freeSvcBuf idle) :=
      Touch.iter (fun _ _ => freeSvcBuf_touch (by decide)) Touch.refl
    have idled : Touch [.svc] cleared idle := State.updSvc_touch (by decide) Touch.refl
    have cleared_link : (cleared.at b).hw.link = (downed.at b).hw.link := by
      simp only [cleared, State.updHw_at, if_true]
    have downed_link : (downed.at b).hw.link = (stopped.at b).hw.link := by
      simp only [downed, iter_linkDownTag_link]
    rw [freed.link (by decide), idled.link (by decide), cleared_link, downed_link]
    exact setLink_link

/-! ### Readiness -/

/-- A change of one entry: entry j is changed, or it is as it was. -/
theorem vget_vmod_or {α : Type} [Inhabited α] {n i j : Nat} {v : Vector α n} {f : α → α} :
    vget (vmod v i f) j = f (vget v j) ∨ vget (vmod v i f) j = vget v j := by
  by_cases same : i = j
  · subst same
    by_cases inside : i < n
    · exact .inl (vget_vmod_self inside)
    · exact .inr (by simp [vmod, vset, vget, inside])
  · exact .inr (vget_vmod_ne same)

theorem partOf_updPart_or {j k : Nat} {f : Part → Part} :
    partOf (s.updPart b k f) b j = f (partOf s b j) ∨ partOf (s.updPart b k f) b j = partOf s b j := by
  simp only [partOf, State.updPart_eq, State.updPw_at, if_true]
  exact vget_vmod_or

theorem updPart_ready {j k : Nat} {f : Part → Part} (keeps : ∀ p, (f p).ready = p.ready) :
    (partOf (s.updPart b k f) b j).ready = (partOf s b j).ready := by
  rcases partOf_updPart_or (s := s) (b := b) (j := j) (k := k) (f := f) with changed | same
  · rw [changed, keeps]
  · rw [same]

/-- An order for a step changes no partition's readiness. -/
theorem orderStep_ready {j k st : Nat} : (partOf (orderStep b k st s) b j).ready = (partOf s b j).ready := by
  have sent {u : State} : Touch [.hw] u (sendFreq b k st u) := sendFreq_touch (by decide) Touch.refl
  unfold orderStep partOf
  rw [sent.at_pw (by decide)]
  exact updPart_ready fun _ => rfl

/-- What the withdrawal of readiness does to partition k (R347). -/
def withdrawPart (b : BId) (mask k : Nat) (s : State) : State :=
  if nbit mask k && (partOf s b k).ready then
    State.updPart (if (partOf s b k).applied > 0 then orderStep b k 0 s else s) b k
      fun p => { p with ready := false, raiseTo := none }
  else s

theorem withdrawReady_eq {mask : Nat} : withdrawReady b mask s = iter (upto 4) (withdrawPart b mask) s := rfl

theorem withdrawPart_ready_self {mask k : Nat} (lt : k < 4) (named : nbit mask k = true) :
    (partOf (withdrawPart b mask k s) b k).ready = false := by
  unfold withdrawPart
  split
  · simp [partOf, lt]
  next still => simpa [named] using still

theorem withdrawPart_ready_other {mask j k : Nat} (off : (partOf s b j).ready = false) :
    (partOf (withdrawPart b mask k s) b j).ready = false := by
  unfold withdrawPart
  split
  case isFalse => exact off
  case isTrue =>
    rcases partOf_updPart_or with changed | same
    · rw [changed]
    · rw [same]
      split
      · rw [orderStep_ready, off]
      · exact off

/-- A property that the step of one item brings about and every step keeps holds after the iteration. -/
theorem iter_reaches {α : Type} {P : State → Prop} {f : α → State → State} {xs : List α} {x : α} (mem : x ∈ xs)
    (brings : ∀ t, P (f x t)) (keeps : ∀ y t, P t → P (f y t)) : P (iter xs f s) := by
  induction xs generalizing s with
  | nil => exact absurd mem List.not_mem_nil
  | cons y ys ih =>
    rcases List.mem_cons.mp mem with rfl | later
    · exact iter_induction (xs := ys) (brings s) keeps
    · exact ih later

theorem withdrawReady_ready {mask k : Nat} (lt : k < 4) (named : nbit mask k = true) :
    (partOf (withdrawReady b mask s) b k).ready = false :=
  withdrawReady_eq ▸ iter_reaches (P := fun t => (partOf t b k).ready = false) (List.mem_range.mpr lt)
    (fun _ => withdrawPart_ready_self lt named) fun _ _ => withdrawPart_ready_other

theorem withdrawPart_link {mask k : Nat} : ((withdrawPart b mask k s).at c).hw.link = (s.at c).hw.link := by
  have changed {u : State} {f : Part → Part} : Touch [.pw] u (u.updPart b k f) := State.updPart_touch (by decide) Touch.refl
  unfold withdrawPart
  split
  · rw [changed.link (by decide)]
    split
    · exact sendFreq_link.trans (changed.link (by decide))
    · rfl
  · rfl

theorem withdrawReady_link {mask : Nat} : ((withdrawReady b mask s).at c).hw.link = (s.at c).hw.link :=
  withdrawReady_eq ▸ iter_induction (P := fun t => (t.at c).hw.link = (s.at c).hw.link) rfl fun _ _ kept =>
    withdrawPart_link.trans kept

end

/-! ### What the engine's operations leave in its block -/

section
variable {s : State} {b c : BId} {req : ReqId}

@[simp] theorem svcResult_svc {cmd res : Nat} : ((svcResult b cmd res req s).at b).svc =
    { (s.at b).svc with lastCmd := cmd, cmdResult := res, cmdReq := req.val } := by
  simp [svcResult]

/-- A change to another state than FAILED raises no attention. -/
theorem setSvc_touch_of_ne_failed {st : SvcState} (ne : st ≠ .failed) : Touch [.svc, .pl] s (setSvc b st s) := by
  have calm : (st == .failed) = false := by simpa using ne
  have set : Touch [.svc, .pl] s (s.updSvc b fun v => { v with st := st }) := State.updSvc_touch (by decide) Touch.refl
  simp only [setSvc, calm, Bool.false_and, Bool.false_eq_true, if_false]
  split
  · exact set
  · exact irq_touch (by decide) set

/-- The interrupt and the attention that follow a change of the service state leave the engine's block alone. -/
theorem setSvc_touch_after {st : SvcState} : Touch [.freeCtr, .pl, .dk, .tw, .us]
    (s.updSvc b fun v => { v with st := st }) (setSvc b st s) := by
  unfold setSvc
  extract_lets old set raised
  have raised_touch : Touch [.freeCtr, .pl, .dk, .tw, .us] set raised := by
    unfold raised
    split
    · exact Touch.refl
    · exact irq_touch (by decide) Touch.refl
  split
  · exact attn_touch (by decide) raised_touch
  · exact raised_touch

@[simp] theorem setSvc_svc {st : SvcState} : ((setSvc b st s).at b).svc = { (s.at b).svc with st := st } := by
  rw [setSvc_touch_after.at_svc (by decide)]
  simp

theorem stepOrder_ctrl {f : CtrlFn} {num : Nat} (step : (s.at b).svc.step = .ctrl f) :
    ∃ o, stepOrder s b num = some o ∧ o.op = .ctrl :=
  ⟨_, by simp only [stepOrder, step]; rfl, rfl⟩

/-- Going to a CTRL step issues one order, which takes no buffer (R338). -/
theorem svcGo_ctrl {f : CtrlFn} : ∃ o : Order, svcGo b (.ctrl f) s = issueHw b o
    ((s.updSvc b fun v => { v with step := .ctrl f }).updSvc b fun v => { v with num := v.num + 1, busy := false }) := by
  unfold svcGo svcSend
  extract_lets numbered
  obtain ⟨o, order, ctrl⟩ := stepOrder_ctrl (s := numbered) (b := b) (f := f) (num := (numbered.at b).svc.num)
    (by simp [numbered])
  exact ⟨o, by simp only [order, svcIssue, ctrl]; rfl⟩

theorem svcGo_ctrl_touch {f : CtrlFn} : Touch [.svc, .hw] s (svcGo b (.ctrl f) s) := by
  obtain ⟨o, run⟩ := svcGo_ctrl (s := s) (b := b) (f := f)
  rw [run]
  exact issueHw_touch (by decide) (State.updSvc_touch (by decide) (State.updSvc_touch (by decide) Touch.refl))

theorem svcGo_ctrl_svc {f : CtrlFn} : ((svcGo b (.ctrl f) s).at b).svc =
    { (s.at b).svc with step := .ctrl f, num := (s.at b).svc.num + 1, busy := false } := by
  obtain ⟨o, run⟩ := svcGo_ctrl (s := s) (b := b) (f := f)
  have issued {u : State} : Touch [.hw] u (issueHw b o u) := issueHw_touch (by decide) Touch.refl
  rw [run, issued.at_svc (by decide)]
  simp

/-! ### A failure of the engine (R348) -/

/-- What a failure does after readiness is withdrawn reaches neither the link nor the partitions. -/
theorem svcFailed_touch_withdrawn {code : Nat} :
    Touch [.out, .freeCtr, .rp, .log, .svc, .pl, .dk, .tw, .us] (withdrawReady b 15 s) (svcFailed b code s) := by
  unfold svcFailed
  extract_lets v withdrawn staged logged failed
  have staged_touch : Touch [.out, .freeCtr, .rp, .log, .svc, .pl, .dk, .tw, .us] withdrawn staged := by
    unfold staged
    split
    · exact stageDone_touch (by decide) Touch.refl
    · exact Touch.refl
  have logged_touch : Touch [.out, .freeCtr, .rp, .log, .svc, .pl, .dk, .tw, .us] withdrawn logged := by
    unfold logged
    split
    · exact logReset_touch (by decide) staged_touch
    · exact staged_touch
  exact setSvc_touch (by decide) (State.updSvc_touch (by decide) logged_touch)

theorem svcFailed_svc {code : Nat} :
    ((svcFailed b code s).at b).svc.st = .failed ∧ ((svcFailed b code s).at b).svc.fail = code := by
  simp [svcFailed]

theorem svcFailed_link {code : Nat} : ((svcFailed b code s).at c).hw.link = (s.at c).hw.link :=
  (svcFailed_touch_withdrawn.link (by decide)).trans withdrawReady_link

theorem svcFailed_ready {code : Nat} (k : Fin 4) : (partOf (svcFailed b code s) b k.val).ready = false := by
  unfold partOf
  rw [svcFailed_touch_withdrawn.at_pw (by decide)]
  exact withdrawReady_ready k.isLt (by fin_cases k <;> rfl)

theorem svcFail_svc {code : Nat} :
    ((svcFail b code s).at b).svc.st = .failed ∧ ((svcFail b code s).at b).svc.fail = code := by
  rw [svcFail]
  exact svcFailed_svc

theorem svcFail_ready {code : Nat} (k : Fin 4) : (partOf (svcFail b code s) b k.val).ready = false := by
  rw [svcFail]
  exact svcFailed_ready k

theorem svcFail_link {code : Nat} :
    ((svcFail b code s).at b).hw.link = .off ∨ ((svcFail b code s).at b).hw.link = .retired := by
  rw [svcFail, svcFailed_link]
  exact linkStop_off_link

/-! ### The start of a reset (R349) -/

/-- What HW_SVC_RST and the history of the core hold of a reset that starts. -/
def resetNote (b : BId) (level unit : Nat) (absorb : Bool) (s : State) : State :=
  let s := s.updSvc b fun v => { v with
    rst := vmod v.rst level sinc, rstLevel := level, rstUnit := unit, rstAbsorb := absorb, escalated := false
    since := s.now, detail := 0, chipStage := .off }
  if level == 0 then coreEvent b unit s else s

/-- The partitions whose readiness a reset withdraws. -/
def resetWithdraw (b : BId) (level unit : Nat) (s : State) : State :=
  if level == 2 then withdrawReady b (2 ^ unit) s else if level == 3 then withdrawReady b 15 s else s

variable {level unit : Nat} {absorb : Bool}

theorem resetStart_eq : resetStart b level unit absorb s =
    svcGo b (.ctrl .quiesce) (resetWithdraw b level unit (setSvc b .resetting (resetNote b level unit absorb s))) := rfl

theorem resetNote_touch : Touch [.svc] s (resetNote b level unit absorb s) := by
  unfold resetNote
  have noted {f : Svc → Svc} : Touch [.svc] s (s.updSvc b f) := State.updSvc_touch (by decide) Touch.refl
  dsimp only
  split
  · exact coreEvent_touch (by decide) noted
  · exact noted

theorem resetNote_svc : ∃ hist, ((resetNote b level unit absorb s).at b).svc = { (s.at b).svc with
    rst := vmod (s.at b).svc.rst level sinc, rstLevel := level, rstUnit := unit, rstAbsorb := absorb
    escalated := false, since := s.now, detail := 0, chipStage := .off, coreHist := hist } := by
  refine ⟨((resetNote b level unit absorb s).at b).svc.coreHist, ?_⟩
  unfold resetNote
  dsimp only
  split
  · simp [coreEvent]
  · simp

theorem resetWithdraw_touch : Touch [.pw, .hw] s (resetWithdraw b level unit s) := by
  unfold resetWithdraw
  split
  · exact withdrawReady_touch (by decide) Touch.refl
  split
  · exact withdrawReady_touch (by decide) Touch.refl
  · exact Touch.refl

theorem resetWithdraw_partition : resetWithdraw b 2 unit s = withdrawReady b (2 ^ unit) s := rfl

theorem resetWithdraw_chip : resetWithdraw b 3 unit s = withdrawReady b 15 s := rfl

theorem resetWithdraw_ready {k : Fin 4} (named : level = 3 ∨ level = 2 ∧ unit = k.val) :
    (partOf (resetWithdraw b level unit s) b k.val).ready = false := by
  rcases named with chip | ⟨partition, own⟩
  · subst chip
    rw [resetWithdraw_chip]
    exact withdrawReady_ready k.isLt (by fin_cases k <;> rfl)
  · subst partition own
    rw [resetWithdraw_partition]
    exact withdrawReady_ready k.isLt Nat.testBit_two_pow_self

/-- The order of QUIESCE takes no buffer, and a reset raises no attention. -/
theorem resetStart_touch_noBuffer : Touch [.svc, .pl, .hw, .pw] s (resetStart b level unit absorb s) := by
  have noted : Touch [.svc, .pl, .hw, .pw] s (resetNote b level unit absorb s) := resetNote_touch.mono (by decide)
  have resetting {u : State} : Touch [.svc, .pl, .hw, .pw] u (setSvc b .resetting u) :=
    (setSvc_touch_of_ne_failed (by decide)).mono (by decide)
  have withdrawn {u : State} : Touch [.svc, .pl, .hw, .pw] u (resetWithdraw b level unit u) :=
    resetWithdraw_touch.mono (by decide)
  have quiesce {u : State} : Touch [.svc, .pl, .hw, .pw] u (svcGo b (.ctrl .quiesce) u) := svcGo_ctrl_touch.mono (by decide)
  rw [resetStart_eq]
  exact noted.trans (resetting.trans (withdrawn.trans quiesce))

theorem resetStart_svc : ∃ hist, ((resetStart b level unit absorb s).at b).svc = { (s.at b).svc with
    st := .resetting, step := .ctrl .quiesce, num := (s.at b).svc.num + 1, busy := false
    rst := vmod (s.at b).svc.rst level sinc, rstLevel := level, rstUnit := unit, rstAbsorb := absorb
    escalated := false, since := s.now, detail := 0, chipStage := .off, coreHist := hist } := by
  obtain ⟨hist, noted⟩ := resetNote_svc (s := s) (b := b) (level := level) (unit := unit) (absorb := absorb)
  refine ⟨hist, ?_⟩
  rw [resetStart_eq, svcGo_ctrl_svc, resetWithdraw_touch.at_svc (by decide), setSvc_svc, noted]

theorem resetStart_ready {k : Fin 4} (named : level = 3 ∨ level = 2 ∧ unit = k.val) :
    (partOf (resetStart b level unit absorb s) b k.val).ready = false := by
  unfold partOf
  rw [resetStart_eq, svcGo_ctrl_touch.at_pw (by decide)]
  exact resetWithdraw_ready named

end
/-! ### What each order does (R340) -/

section
variable {s : State} {b : BId} {req : ReqId}

theorem svcOpen_iff : svcOpen s b req = true ↔ ownOrEngine b req = true ∧ (s.at b).svc.st ≠ .resetting := by
  simp [svcOpen, ownOrEngine]

theorem svcOpen_of_own (own : ownOrEngine b req = true) (idle : (s.at b).svc.st ≠ .resetting) : svcOpen s b req = true :=
  svcOpen_iff.mpr ⟨own, idle⟩

theorem svcOpen_of_foreign (foreign : ownOrEngine b req = false) : svcOpen s b req = false :=
  Bool.eq_false_iff.mpr fun taken => Bool.eq_false_iff.mp foreign (svcOpen_iff.mp taken).1

theorem svcOpen_of_resetting (resetting : (s.at b).svc.st = .resetting) : svcOpen s b req = false :=
  Bool.eq_false_iff.mpr fun taken => (svcOpen_iff.mp taken).2 resetting

/-- The state in which BRING_UP is accepted (R340). -/
def MayBringUp (s : State) (b : BId) : Prop :=
  ((s.at b).svc.st = .off ∨ (s.at b).svc.st = .failed) ∧ ((s.at b).rl.slot = .powering ∨ (s.at b).rl.slot = .up)
    ∧ bitAt (s.at b).hw.cfg 0 = true ∧ (s.at b).hw.link = .off

theorem bringUp_closed (closed : svcOpen s b req = false) : bringUp b req s = s := by
  simp [bringUp, closed]

theorem bringUp_accepted (taken : svcOpen s b req = true) (may : MayBringUp s b) : bringUp b req s =
    svcResult b 1 0 req (setSvc b .off (s.updSvc b fun v => { v with runs := sinc v.runs, fail := 0, step := .waitSlot })) := by
  obtain ⟨st, slot, enabled, link⟩ := may
  simp [bringUp, taken, st, slot, enabled, link]

theorem bringUp_refused (taken : svcOpen s b req = true) (may : ¬ MayBringUp s b) :
    bringUp b req s = svcResult b 1 1 req s := by
  simp only [bringUp, taken, Bool.not_true, Bool.false_eq_true, if_false]
  exact if_neg fun test => may (by simpa [MayBringUp, and_assoc] using test)

variable {level unit : Nat} {absorb : Bool}

theorem serviceReset_closed (closed : svcOpen s b req = false) : serviceReset b req level unit absorb s = s := by
  simp [serviceReset, closed]

theorem serviceReset_accepted (own : ownOrEngine b req = true) (serves : (s.at b).svc.st = .service)
    (unit_lt : unit < unitCount level) :
    serviceReset b req level unit absorb s = resetStart b level unit absorb (svcResult b 2 0 req s) := by
  have taken : svcOpen s b req = true := svcOpen_of_own own (by simp [serves])
  simp [serviceReset, taken, serves, unit_lt]

theorem serviceReset_noUnit (own : ownOrEngine b req = true) (serves : (s.at b).svc.st = .service)
    (unit_ge : unitCount level ≤ unit) : serviceReset b req level unit absorb s = svcResult b 2 3 req s := by
  have taken : svcOpen s b req = true := svcOpen_of_own own (by simp [serves])
  simp [serviceReset, taken, serves, unit_ge]

theorem serviceReset_refused (taken : svcOpen s b req = true) (idle : (s.at b).svc.st ≠ .service) :
    serviceReset b req level unit absorb s = svcResult b 2 1 req s := by
  simp [serviceReset, taken, idle]

theorem svcAbort_foreign (foreign : ownOrEngine b req = false) : svcAbort b req s = s := by
  have guard : (req.val == b.val || req == 11) = false := foreign
  simp [svcAbort, guard]

theorem svcAbort_accepted (own : ownOrEngine b req = true)
    (runs : isStage (s.at b).svc.st = true ∨ (s.at b).svc.st = .resetting) :
    svcAbort b req s = svcResult b 3 0 req (svcFail b 0x0C s) := by
  have guard : (req.val == b.val || req == 11) = true := own
  rcases runs with stage | resetting
  · simp [svcAbort, guard, stage]
  · simp [svcAbort, guard, resetting]

theorem svcAbort_refused (own : ownOrEngine b req = true) (noStage : isStage (s.at b).svc.st = false)
    (idle : (s.at b).svc.st ≠ .resetting) : svcAbort b req s = svcResult b 3 1 req s := by
  have guard : (req.val == b.val || req == 11) = true := own
  simp [svcAbort, guard, noStage, idle]

end

/-! ### What each order answers -/

section
variable {s : State} {b : BId} {req : ReqId} {n : Option BId} {off : Nat} {act : State → State} {c : Instr}

/-- An order without effect leaves the state as it was, but for the host activity. -/
theorem answers_ignored (pass : WritePasses s req n off) (run : exec c s = ran s (viaBus req n off act s.begin))
    (rule : act s.begin = s.begin) : Answers c s fun t => AgreeOff [.out, .sy] s t :=
  answers_viaBus pass run fun _ bus => agreeOff_of_order (fs := []) Touch.refl (rule ▸ bus)

/-- An order of which only the result is recorded. -/
theorem answers_svcResult {cmd res : Nat} (pass : WritePasses s req n off)
    (run : exec c s = ran s (viaBus req n off act s.begin)) (rule : act s.begin = svcResult b cmd res req s.begin) :
    Answers c s fun t => AgreeOff [.out, .sy, .svc] s t
      ∧ (t.at b).svc = { (s.at b).svc with lastCmd := cmd, cmdResult := res, cmdReq := req.val } := by
  refine answers_viaBus pass run fun t bus => ?_
  rw [rule] at bus
  refine ⟨agreeOff_of_order (svcResult_touch (by decide) Touch.refl) bus, ?_⟩
  rw [bus.at_svc (by decide), svcResult_svc, State.begin_at]

variable (pass : WritePasses s req (some b) 0x4200) (own : ownOrEngine b req = true)
include pass own

theorem answers_bringUp_accepted (may : MayBringUp s b) :
    Answers (.bringUp b req) s fun t => AgreeOff [.out, .sy, .svc, .pl] s t ∧ (t.at b).svc = { (s.at b).svc with
      st := .off, fail := 0, step := .waitSlot, runs := sinc (s.at b).svc.runs
      lastCmd := 1, cmdResult := 0, cmdReq := req.val } := by
  have idle : (s.at b).svc.st ≠ .resetting := by
    rcases may.1 with st | st <;> simp [st]
  refine answers_viaBus pass rfl fun t bus => ?_
  rw [bringUp_accepted (s := s.begin) (svcOpen_of_own own idle) may] at bus
  refine ⟨agreeOff_of_order (svcResult_touch (by decide) ?_) bus, ?_⟩
  · have noted {f : Svc → Svc} : Touch [.svc, .pl] s.begin (s.begin.updSvc b f) := State.updSvc_touch (by decide) Touch.refl
    exact noted.trans (setSvc_touch_of_ne_failed (by decide))
  · rw [bus.at_svc (by decide)]
    simp

theorem answers_serviceReset_accepted {level : Fin 4} {unit : Fin 1024} {absorb : Bool}
    (serves : (s.at b).svc.st = .service) (unit_lt : unit.val < unitCount level.val) :
    Answers (.serviceReset b req level unit absorb) s fun t => AgreeOff [.out, .sy, .svc, .pl, .hw, .pw] s t
      ∧ (t.at b).svc.st = .resetting ∧ (t.at b).svc.step = .ctrl .quiesce ∧ (t.at b).svc.rstLevel = level.val
      ∧ (t.at b).svc.rstUnit = unit.val ∧ (t.at b).svc.rstAbsorb = absorb ∧ (t.at b).svc.since = s.now
      ∧ (t.at b).svc.rst = vmod (s.at b).svc.rst level.val sinc ∧ (t.at b).svc.lastCmd = 2 ∧ (t.at b).svc.cmdResult = 0
      ∧ ∀ k : Fin 4, level = 3 ∨ level = 2 ∧ unit.val = k.val → (partOf t b k.val).ready = false := by
  refine answers_viaBus pass rfl fun t bus => ?_
  rw [serviceReset_accepted (s := s.begin) own serves unit_lt] at bus
  have recorded : Touch [.svc, .pl, .hw, .pw] s.begin (svcResult b 2 0 req s.begin) := svcResult_touch (by decide) Touch.refl
  have now : (svcResult b 2 0 req s.begin).now = s.now := recorded.at_now (by decide)
  obtain ⟨hist, svc⟩ := resetStart_svc (s := svcResult b 2 0 req s.begin) (b := b) (level := level.val) (unit := unit.val)
    (absorb := absorb)
  rw [← bus.at_svc (by decide), svcResult_svc, now, State.begin_at] at svc
  refine ⟨agreeOff_of_order (recorded.trans resetStart_touch_noBuffer) bus, ?_⟩
  simp only [svc, true_and]
  intro k named
  unfold partOf
  rw [bus.at_pw (by decide)]
  exact resetStart_ready (named.imp (congrArg Fin.val) fun ⟨partition, same⟩ => ⟨congrArg Fin.val partition, same⟩)

theorem answers_serviceAbort_accepted (runs : isStage (s.at b).svc.st = true ∨ (s.at b).svc.st = .resetting) :
    Answers (.serviceAbort b req) s fun t =>
      (t.at b).svc.st = .failed ∧ (t.at b).svc.fail = 0x0C ∧ (t.at b).svc.lastCmd = 3 ∧ (t.at b).svc.cmdResult = 0
        ∧ ((t.at b).hw.link = .off ∨ (t.at b).hw.link = .retired) ∧ ∀ k : Fin 4, (partOf t b k.val).ready = false := by
  refine answers_viaBus pass rfl fun t bus => ?_
  rw [svcAbort_accepted (s := s.begin) own runs] at bus
  have recorded : Touch [.svc] (svcFail b 0x0C s.begin) (svcResult b 3 0 req (svcFail b 0x0C s.begin)) :=
    svcResult_touch (by decide) Touch.refl
  obtain ⟨st, fail⟩ := svcFail_svc (s := s.begin) (b := b) (code := 0x0C)
  have svc := (bus.at_svc (by decide) b).trans svcResult_svc
  refine ⟨by rw [svc, st], by rw [svc, fail], by rw [svc], by rw [svc], ?link, fun k => ?ready⟩
  case link =>
    rw [bus.link (by decide), recorded.link (by decide)]
    exact svcFail_link
  case ready =>
    unfold partOf
    rw [bus.at_pw (by decide), recorded.at_pw (by decide)]
    exact svcFail_ready k

end

/-! ### The start of MGMT (R341) -/

section
variable {s : State} {b : BId}

theorem linkStart_accepted (startable : startResult s b = 0) :
    linkStart b s = startTraining b (setLink b .train 0 s) := by
  simp [linkStart, startable]

theorem startTraining_link : ((startTraining b s).at b).hw.link = (s.at b).hw.link := updHw_link fun _ => rfl

theorem linkStart_link (startable : startResult s b = 0) : ((linkStart b s).at b).hw.link = .train := by
  rw [linkStart_accepted startable, startTraining_link, setLink_link]

theorem linkStart_svc : ((linkStart b s).at b).svc = (s.at b).svc :=
  (linkStart_touch (fs := [.out, .freeCtr, .rp, .log, .hw, .pl, .dk, .us]) (by decide) Touch.refl).at_svc (by decide) b

theorem startResult_zero (link : (s.at b).hw.link = .off) (enabled : bitAt (s.at b).hw.cfg 0 = true)
    (slot : (s.at b).rl.slot = .up) : startResult s b = 0 := by
  simp [startResult, link, enabled, slot]

/-- Outside a reset, a stage that starts is the engine's state. -/
theorem stageStart_svc {st : SvcState} (outside : (s.at b).svc.st ≠ .resetting) :
    ((stageStart b st s).at b).svc = { (s.at b).svc with st := st, stageSince := s.now, detail := 0 } := by
  simp [stageStart, outside]

theorem startMgmt_waits (train : ((linkStart b (stageStart b .mgmt s)).at b).hw.link = .train) :
    startMgmt b s = (linkStart b (stageStart b .mgmt s)).updSvc b fun v => { v with step := .waitLink } := by
  simp [startMgmt, train]

theorem answers_mgmtStart (step : (s.at b).svc.step = .waitSlot) (st : (s.at b).svc.st = .off)
    (slot : (s.at b).rl.slot = .up) (link : (s.at b).hw.link = .off) (enabled : bitAt (s.at b).hw.cfg 0 = true) :
    Answers (.mgmtStart b) s fun t => (t.at b).svc.st = .mgmt ∧ (t.at b).svc.step = .waitLink
      ∧ (t.at b).svc.stageSince = s.now ∧ (t.at b).hw.link = .train := by
  have staged : Touch [.freeCtr, .svc, .pl, .dk, .tw, .us] s.begin (stageStart b .mgmt s.begin) :=
    stageStart_touch (by decide) Touch.refl
  have startable : startResult (stageStart b .mgmt s.begin) b = 0 :=
    startResult_zero (by rw [staged.at_hw (by decide)]; exact link) (by rw [staged.at_hw (by decide)]; exact enabled)
      (by rw [staged.at_rl (by decide)]; exact slot)
  have train := linkStart_link startable
  have run : mgmtStart b s.begin = startMgmt b s.begin := by simp [mgmtStart, step, slot]
  have stage : ((stageStart b .mgmt s.begin).at b).svc = _ := stageStart_svc (s := s.begin) (by simp [st])
  refine ⟨_, rfl, ?_⟩
  change ((mgmtStart b s.begin).at b).svc.st = _ ∧ ((mgmtStart b s.begin).at b).svc.step = _
    ∧ ((mgmtStart b s.begin).at b).svc.stageSince = _ ∧ ((mgmtStart b s.begin).at b).hw.link = _
  rw [run, startMgmt_waits train]
  simp [linkStart_svc, stage, train]

end

/-- Settles O38: each order answers by the clause of R340 that its requester and the engine's state select; an accepted one is traced
through the engine's operations. -/
theorem serviceOrders : Obligations.ServiceOrders := by
  intro s b req pass
  refine ⟨fun own => ⟨?accepted, ?refused, fun level unit absorb => ⟨?reset, ?noUnit, ?notServing⟩, ?aborted, ?noAbort⟩,
    ?foreign, ?busy, ?mgmt⟩
  case accepted => exact answers_bringUp_accepted pass own
  case refused =>
    rintro ⟨idle, unfit⟩
    have may : ¬ MayBringUp s b := by
      rintro ⟨st, slot, enabled, link⟩
      rcases unfit with ⟨notOff, notFailed⟩ | ⟨notPowering, notUp⟩ | disabled | linked
      · exact st.elim notOff notFailed
      · exact slot.elim notPowering notUp
      · simp [enabled] at disabled
      · exact linked link
    exact answers_svcResult pass rfl (bringUp_refused (s := s.begin) (svcOpen_of_own own idle) may)
  case reset => exact fun ⟨serves, unit_lt⟩ => answers_serviceReset_accepted pass own serves unit_lt
  case noUnit =>
    exact fun ⟨serves, unit_ge⟩ => answers_svcResult pass rfl (serviceReset_noUnit (s := s.begin) own serves unit_ge)
  case notServing =>
    exact fun ⟨notService, idle⟩ =>
      answers_svcResult pass rfl (serviceReset_refused (s := s.begin) (svcOpen_of_own own idle) notService)
  case aborted => exact answers_serviceAbort_accepted pass own
  case noAbort =>
    exact fun ⟨noStage, idle⟩ => answers_svcResult pass rfl (svcAbort_refused (s := s.begin) own noStage idle)
  case foreign =>
    intro foreign level unit absorb i mem
    simp only [List.mem_cons, List.not_mem_nil, or_false] at mem
    rcases mem with rfl | rfl | rfl
    · exact answers_ignored pass rfl (bringUp_closed (svcOpen_of_foreign foreign))
    · exact answers_ignored pass rfl (serviceReset_closed (svcOpen_of_foreign foreign))
    · exact answers_ignored pass rfl (svcAbort_foreign foreign)
  case busy =>
    intro resetting level unit absorb i mem
    simp only [List.mem_cons, List.not_mem_nil, or_false] at mem
    rcases mem with rfl | rfl
    · exact answers_ignored pass rfl (bringUp_closed (svcOpen_of_resetting (s := s.begin) resetting))
    · exact answers_ignored pass rfl (serviceReset_closed (svcOpen_of_resetting (s := s.begin) resetting))
  case mgmt => exact fun ⟨step, st, slot, link, enabled⟩ => answers_mgmtStart step st slot link enabled

end Sys2Proof.Machine

/-! What a RESTART order to PL_CMD does (R371): refused with a result in PL_STAT, or the restart of the pilot (R369, R370). -/
namespace Sys2Proof.Machine

/-! ### What reports leave of the pilots -/

section
variable {s : State} {b c : BId}

@[simp] theorem logRec_pl {ty : Nat} {p0 p1 p2 : Word} : ((logRec b ty p0 p1 p2 s).at c).pl = (s.at c).pl :=
  (logRec_touch (fs := [.out, .freeCtr, .rp, .log, .dk, .us]) (by decide) Touch.refl).at_pl (by decide) c

@[simp] theorem notice_pl {kind index rule events : Nat} : ((notice b kind index rule events s).at c).pl = (s.at c).pl :=
  (notice_touch (fs := [.out, .rp]) (by decide) Touch.refl).at_pl (by decide) c

end

/-! ### What the stop of the DMA engines leaves of the pilots -/

section
variable {s t u : State} {b : BId} {e : Nat}

/-- Every pilot of t is as in s, but for its pending interrupts. -/
def PilotsKept (s t : State) : Prop := ∀ c, ∃ pend : Word, (t.at c).pl = { (s.at c).pl with irqPend := pend }

theorem PilotsKept.trans (h : PilotsKept s t) (k : PilotsKept t u) : PilotsKept s u := fun c => by
  obtain ⟨_, first⟩ := h c
  obtain ⟨pend, second⟩ := k c
  exact ⟨pend, by rw [second, first]⟩

theorem PilotsKept.of_eq (same : ∀ c, (t.at c).pl = (s.at c).pl) : PilotsKept s t := fun c => ⟨_, same c⟩

/-- A change that leaves the pilots' block alone keeps them. -/
theorem Touch.pilotsKept {fs : List Piece} (h : Touch fs s t) (n : Piece.pl ∉ fs) : PilotsKept s t := .of_eq (h.at_pl n)

theorem irq_pilotsKept {bit : Nat} : PilotsKept s (irq b bit s) := by
  intro c
  simp only [irq, State.updPl_at]
  split
  · exact ⟨_, rfl⟩
  · exact ⟨_, rfl⟩

/-- Of a pilot, the halt of a DMA engine changes the pending interrupts alone (R395). -/
theorem dmaHalt_pilotsKept {code acc status : Nat} : PilotsKept s (dmaHalt b e code acc status s) := by
  unfold dmaHalt
  extract_lets i counts ev retire halted raised logged
  have halted_touch : Touch [.dm] s halted := State.updDm_touch (by decide) Touch.refl
  have logged_kept : PilotsKept s logged :=
    ((halted_touch.pilotsKept (by decide)).trans irq_pilotsKept).trans (.of_eq fun _ => logRec_pl)
  split
  · exact logged_kept.trans (.of_eq fun _ => notice_pl)
  · exact logged_kept

/-- A halt that is due takes effect at the burst boundary, before a pre-emption (R394). -/
theorem dmaBoundary_of_haltDue (due : (dmaOf s b e).haltDue = true) :
    dmaBoundary b e s = (true, dmaHalt b e 0xB 0 0 s) := by
  simp [dmaBoundary, due]

theorem dmaPilotReset_pilotsKept (lt : e < 2) : PilotsKept s (dmaPilotReset b e s) := by
  unfold dmaPilotReset
  extract_lets d ordered
  have ordered_touch : Touch [.dm] s ordered := State.updDm_touch (by decide) Touch.refl
  have ordered_kept : PilotsKept s ordered := ordered_touch.pilotsKept (by decide)
  split
  case isTrue => exact .of_eq fun _ => rfl
  split
  · rw [dmaBoundary_of_haltDue (by simp only [ordered, dmaOf_updDm lt])]
    exact ordered_kept.trans dmaHalt_pilotsKept
  · exact ordered_kept

end

/-! ### A restart of a pilot (R369, R370) -/

section
variable {s : State} {b : BId} {cause : Nat}

theorem pilotHalt_pl {rule events : Nat} : ((pilotHalt b rule events s).at b).pl = { (s.at b).pl with
    st := .halted, lastCause := 4, startDue := false, stream := false, retry := false } := by
  simp [pilotHalt]

/-- A restarted pilot has its CSRs reset and the result of the last order as before, and is loaded again or halted. -/
structure Pilot.Restarted (old new : Pilot) : Prop where
  csr : new.csr = {}
  lastResult : new.lastResult = old.lastResult
  st : new.st = .loading ∧ new.stream = true ∨ new.st = .halted ∧ new.stream = false

theorem pilotRestart_restarted : ((s.at b).pl).Restarted ((pilotRestart b cause s).at b).pl := by
  unfold pilotRestart
  extract_lets p counted before ev stopped forgotten released
  have forgotten_kept : PilotsKept stopped forgotten := .of_eq fun c => by
    simp only [forgotten, State.upd_at]
    split <;> rfl
  have released_touch : Touch [.dk, .hw] _ released :=
    discardOrders_touch (by decide) (releaseHand_touch (by decide) Touch.refl)
  have released_kept : PilotsKept stopped released :=
    ((forgotten_kept.trans (dmaPilotReset_pilotsKept (by decide))).trans (dmaPilotReset_pilotsKept (by decide))).trans
      (released_touch.pilotsKept (by decide))
  obtain ⟨pend, released_pl⟩ := released_kept b
  simp only [stopped, State.updPl_at, if_true] at released_pl
  split
  case isTrue =>
    rw [pilotHalt_pl, released_pl]
    exact ⟨rfl, rfl, .inr ⟨rfl, rfl⟩⟩
  case isFalse =>
    rw [logRec_pl, released_pl]
    exact ⟨rfl, rfl, .inl ⟨rfl, rfl⟩⟩

end

/-! ### The order (R371) -/

section
variable {s : State} {b : BId} {req : ReqId} {guard : Nat}

/-- The requesters from which a RESTART order is taken. -/
def MayRestart (req : ReqId) : Prop := req = 9 ∨ req = 10 ∨ req = 11

/-- The result of a RESTART order: 3, 2 and 1 refuse the requester, the guard and the pilot's state, judged in this order; 0 takes
the order. -/
def restartResult (s : State) (b : BId) (req : ReqId) (guard : Nat) : Nat :=
  if !(req == 9 || req == 10 || req == 11) then 3 else if guard != 0x7E57 then 2
    else if (s.at b).pl.st != .running then 1 else 0

/-- The result of an order in PL_STAT. -/
def noteRestart (b : BId) (res : Nat) (s : State) : State := s.updPl b fun p => { p with lastResult := res }

@[simp] theorem noteRestart_pl {res : Nat} : ((noteRestart b res s).at b).pl = { (s.at b).pl with lastResult := res } := by
  simp [noteRestart]

theorem noteRestart_pl_ne {res : Nat} {n : BId} (ne : n ≠ b) : ((noteRestart b res s).at n).pl = (s.at n).pl := by
  simp [noteRestart, ne.symm]

theorem restartOrder_eq : restartOrder b req guard s =
    if restartResult s b req guard == 0 then pilotRestart b 2 (noteRestart b (restartResult s b req guard) s)
    else noteRestart b (restartResult s b req guard) s := rfl

theorem restartOrder_refused {res : Nat} (refused : restartResult s b req guard = res) (ne : res ≠ 0) :
    restartOrder b req guard s = noteRestart b res s := by
  simp [restartOrder_eq, refused, ne]

theorem restartOrder_taken (taken : restartResult s b req guard = 0) :
    restartOrder b req guard s = pilotRestart b 2 (noteRestart b 0 s) := by
  simp [restartOrder_eq, taken]

theorem restartResult_foreign (foreign : ¬ MayRestart req) : restartResult s b req guard = 3 := by
  have test : (!(req == 9 || req == 10 || req == 11)) = true := by simpa [MayRestart, and_assoc] using foreign
  simp only [restartResult, test, if_true]

theorem restartResult_of_mayRestart (may : MayRestart req) : restartResult s b req guard =
    if guard != 0x7E57 then 2 else if (s.at b).pl.st != .running then 1 else 0 := by
  have test : (!(req == 9 || req == 10 || req == 11)) = false := by rcases may with rfl | rfl | rfl <;> rfl
  simp only [restartResult, test, Bool.false_eq_true, if_false]

theorem restartResult_guard (may : MayRestart req) (wrong : guard ≠ 0x7E57) : restartResult s b req guard = 2 := by
  simp [restartResult_of_mayRestart may, wrong]

theorem restartResult_state (may : MayRestart req) (idle : (s.at b).pl.st ≠ .running) :
    restartResult s b req 0x7E57 = 1 := by
  simp [restartResult_of_mayRestart may, idle]

theorem restartResult_taken (may : MayRestart req) (runs : (s.at b).pl.st = .running) :
    restartResult s b req 0x7E57 = 0 := by
  simp [restartResult_of_mayRestart may, runs]

/-- PL_STAT [3:2] reads as the result of the last order. -/
theorem liveReg_plStat_lastResult :
    (liveReg s b false req 0xB 0x000).map (fun w => fld w 3 2) = some ((s.at b).pl.lastResult % 4) := by
  simp only [liveReg, readPl, Option.map_some, fld, pack, List.foldl_cons, List.foldl_nil, BitVec.toNat_ofNat]
  congr 1
  omega

end

section
variable {s : State} {b : BId} {req : ReqId} {guard : BitVec 16} (pass : WritePasses s req (some b) 0xB004)
include pass

theorem answers_restart_refused {res : Nat} (refused : restartResult s b req guard.toNat = res) (pos : 0 < res) (lt : res < 4) :
    Answers (.restart b req guard) s fun t => AgreeOff [.out, .sy, .pl] s t
      ∧ (t.at b).pl = { (s.at b).pl with lastResult := res }
      ∧ (liveReg t b false req 0xB 0x000).map (fun w => fld w 3 2) = some res
      ∧ ∀ n, n ≠ b → (t.at n).pl = (s.at n).pl := by
  refine answers_viaBus pass rfl fun t bus => ?_
  rw [restartOrder_refused (s := s.begin) refused pos.ne'] at bus
  have noted : (t.at b).pl = { (s.at b).pl with lastResult := res } := (bus.at_pl (by decide) b).trans noteRestart_pl
  refine ⟨agreeOff_of_order (State.updPl_touch (by decide) Touch.refl) bus, noted, ?stat, fun n ne => ?others⟩
  case stat => rw [liveReg_plStat_lastResult, noted, Nat.mod_eq_of_lt lt]
  case others => exact (bus.at_pl (by decide) n).trans (noteRestart_pl_ne ne)

theorem answers_restart_taken (taken : restartResult s b req guard.toNat = 0) :
    Answers (.restart b req guard) s fun t => (t.at b).pl.lastResult = 0 ∧ (t.at b).pl.csr = {}
      ∧ ((t.at b).pl.st = .loading ∧ (t.at b).pl.stream = true ∨ (t.at b).pl.st = .halted ∧ (t.at b).pl.stream = false) := by
  refine answers_viaBus pass rfl fun t bus => ?_
  rw [restartOrder_taken (s := s.begin) taken] at bus
  rw [bus.at_pl (by decide)]
  obtain ⟨csr, lastResult, st⟩ := pilotRestart_restarted (s := noteRestart b 0 s.begin) (b := b) (cause := 2)
  exact ⟨lastResult.trans (by simp), csr, st⟩

end

/-- Settles O43: the requester, the guard and the pilot's state, judged in this order, give the result that the order leaves in
PL_STAT; an order taken is the restart of R369. -/
theorem restartOrders : Obligations.RestartOrders := by
  intro s b req guard pass
  refine ⟨?refused, ?taken⟩
  case refused =>
    rintro res (⟨rfl, not9, not10, not11⟩ | ⟨rfl, may, wrong⟩ | ⟨rfl, may, rfl, idle⟩)
    · have foreign : ¬ MayRestart req := by simp [MayRestart, not9, not10, not11]
      exact answers_restart_refused pass (restartResult_foreign foreign) (by decide) (by decide)
    · have wrong_nat : guard.toNat ≠ 0x7E57 := fun same => wrong (BitVec.eq_of_toNat_eq same)
      exact answers_restart_refused pass (restartResult_guard may wrong_nat) (by decide) (by decide)
    · exact answers_restart_refused pass (restartResult_state may idle) (by decide) (by decide)
  case taken =>
    rintro ⟨may, rfl, runs⟩
    exact answers_restart_taken pass (restartResult_taken may runs)

end Sys2Proof.Machine

/-! The history rule (R455): the N most recent events decide as the full record of events. -/
namespace Sys2Proof.Machine

/-! ### Events in the window -/

section
variable {h : Hist} {x t w n : Nat}

theorem inWindow_cons_of_in (late : t < x + w) (upto : x ≤ t) : inWindow (x :: h) t w = inWindow h t w + 1 := by
  simp [inWindow, late, upto]

theorem inWindow_eq_zero (early : ∀ x ∈ h, x + w ≤ t) : inWindow h t w = 0 := by
  simpa [inWindow] using fun x mem late => absurd late (early x mem).not_gt

theorem inWindow_reverse : inWindow h.reverse t w = inWindow h t w := by
  simp [inWindow, List.filter_reverse]

/-- With the newest event first, nothing past the first event that has left the window lies in it: the N newest events show
whether N events do. -/
theorem le_inWindow_take_iff (falling : h.Pairwise (· ≥ ·)) (upto : ∀ x ∈ h, x ≤ t) :
    n ≤ inWindow (h.take n) t w ↔ n ≤ inWindow h t w := by
  induction h generalizing n with
  | nil => simp
  | cons x older ih =>
    obtain ⟨newest, falling⟩ := List.pairwise_cons.mp falling
    obtain ⟨upto_x, upto⟩ := List.forall_mem_cons.mp upto
    cases n with
    | zero => simp
    | succ n =>
      by_cases late : t < x + w
      · rw [List.take_succ_cons, inWindow_cons_of_in late upto_x, inWindow_cons_of_in late upto_x]
        simpa using ih falling upto
      · have early : ∀ y ∈ x :: older, y + w ≤ t :=
          List.forall_mem_cons.mpr ⟨by omega, fun y mem => by have := newest y mem; omega⟩
        rw [inWindow_eq_zero early, inWindow_eq_zero fun y mem => early y (List.mem_of_mem_take mem)]

end

/-! ### One event -/

section
variable {h : Hist} {t n w : Nat}

theorem histEvent_retires_iff : (histEvent h t n w).1 = true ↔ n ≤ inWindow h t w := by
  unfold histEvent
  split <;> simp [*]

theorem histEvent_snd_of_retires (retires : (histEvent h t n w).1 = true) : (histEvent h t n w).2 = h := by
  rw [histEvent, if_pos (histEvent_retires_iff.mp retires)]

theorem histEvent_snd_of_stays (stays : (histEvent h t n w).1 = false) : (histEvent h t n w).2 = (t :: h).take n := by
  have few : ¬ inWindow h t w ≥ n := fun many => by simp [histEvent_retires_iff.mpr many] at stays
  rw [histEvent, if_neg few]

end

/-! ### A record of events -/

theorem take_cons_take {α : Type} {a : α} {l : List α} {n : Nat} : (a :: l.take n).take n = (a :: l).take n := by
  cases n with
  | zero => rfl
  | succ n => simp [List.take_take]

/-- None of the events in tides es, oldest first, retires a unit that keeps N entries and looks back W tides. -/
def NoneRetires (n w : Nat) (es : List Nat) : Prop :=
  ∀ before e after, es = before ++ e :: after → (histEvent (historyAfter n w before) e n w).1 = false

section
variable {n w t e : Nat} {es : List Nat}

theorem NoneRetires.of_append {after : List Nat} (keeps : NoneRetires n w (es ++ after)) : NoneRetires n w es :=
  fun before e rest split => keeps before e (rest ++ after) (by simp [split])

theorem historyAfter_concat : historyAfter n w (es ++ [e]) = (histEvent (historyAfter n w es) e n w).2 := by
  simp [historyAfter]

/-- The history is the N most recent of all events, newest first. -/
theorem historyAfter_eq_take (keeps : NoneRetires n w es) : historyAfter n w es = es.reverse.take n := by
  induction es using List.reverseRecOn with
  | nil => simp [historyAfter]
  | append_singleton es e ih =>
    rw [historyAfter_concat, histEvent_snd_of_stays (keeps es e [] rfl), ih keeps.of_append, take_cons_take,
      List.reverse_concat]

theorem histEvent_historyAfter_retires_iff (rising : es.Pairwise (· ≤ ·)) (upto : ∀ e ∈ es, e ≤ t)
    (keeps : NoneRetires n w es) :
    (histEvent (historyAfter n w es) t n w).1 = true ↔ n ≤ inWindow es t w := by
  have falling : es.reverse.Pairwise (· ≥ ·) := List.pairwise_reverse.mpr rising
  rw [histEvent_retires_iff, historyAfter_eq_take keeps, le_inWindow_take_iff falling (by simpa using upto),
    inWindow_reverse]

theorem histEvent_historyAfter_snd_of_stays (keeps : NoneRetires n w es)
    (stays : (histEvent (historyAfter n w es) t n w).1 = false) :
    (histEvent (historyAfter n w es) t n w).2 = (t :: es.reverse).take n := by
  rw [histEvent_snd_of_stays stays, historyAfter_eq_take keeps, take_cons_take]

theorem inWindow_eq_length_filter : inWindow es t w = (es.filter fun e => decide (t < e + w ∧ e ≤ t)).length := by
  simp [inWindow]

end

/-- Settles O52: while no event retires the unit, its history is the N newest of all events; as tides only rise, these are N in
the window exactly if the full record has N there. -/
theorem retirementRule : Obligations.RetirementRule := by
  refine ⟨?record, ?classes⟩
  case record =>
    rintro n w t es ⟨rising, upto, keeps⟩
    refine ⟨?_, histEvent_snd_of_retires, histEvent_historyAfter_snd_of_stays keeps⟩
    rw [histEvent_historyAfter_retires_iff rising upto keeps, inWindow_eq_length_filter]
  case classes => exact fun s b cls h => ⟨rfl, rfl⟩

end Sys2Proof.Machine

/-! Every command completes within its own part of the state, and every step keeps memory canonical. -/
namespace Sys2Proof.Machine
-- One thread elaborates what follows: the check counts the stack of every waiting thread as memory.
set_option Elab.async false

/-! ### What a command touches -/

section
variable {fs : List Piece} {s s0 t u : State}

theorem out_mem_touches (c : Instr) : Piece.out ∈ touches c := by
  cases c <;> exact List.mem_cons_self

theorem ite_touch {p : Prop} [Decidable p] (ht : Touch fs s t) (hu : Touch fs s u) : Touch fs s (if p then t else u) := by
  split
  · exact ht
  · exact hu

/-- An un-retire order reaches no more than its record, the harbour's order registers, and what its kind's rule reaches (R460). -/
theorem unretire_touch_of_act {kind guard : Nat} {req : ReqId} {n : BId} (sub : [.out, .freeCtr, .rp, .log, .dk, .us, .tray] ⊆ fs)
    (act : ∀ i t, Touch fs s0 t → Touch fs s0 (unretAct n kind i t)) (h0 : Touch fs s0 s) :
    Touch fs s0 (unretire kind req n guard s) := by
  unfold unretire
  split
  · exact h0
  next h _ =>
    extract_lets index r noted
    have noted_touch : Touch fs s0 noted := updHl_touch (subOf (by decide) sub) h0
    split
    · exact h0
    split
    · exact act index noted noted_touch
    split
    · exact noted_touch
    · exact logUnret_touch (subOf (by decide) sub) noted_touch

end

/-- Every command runs to an end within the parts of the state that its row reaches: command by command, the rule about what its
operation touches. -/
theorem exec_touches (c : Instr) (s : State) : ∃ u, exec c s = ran s u ∧ Touch (touches c) s u := by
  have start : Touch (touches c) s s.begin := State.begin_touch (by simp [out_mem_touches c]) Touch.refl
  cases c with (dsimp only [touches] at start ⊢)
  | mainSupplyGood => exact ⟨_, rfl, ite_touch (updDev_touch (by decide) start) start⟩
  | mainResetRelease => exact ⟨_, rfl, resetRelease_touch (by decide) start⟩
  | mainSupplyLoss => exact ⟨_, rfl, ite_touch (mainReset_touch (by decide) (updDev_touch (by decide) start)) start⟩
  | vddStbyReset =>
    exact ⟨_, rfl, updDev_touch (by decide) (islandClear_touch (by decide) (mainBlocks_touch (by decide) start))⟩
  | resetNAssert => exact ⟨_, rfl, ite_touch (mainReset_touch (by decide) (updDev_touch (by decide) start)) start⟩
  | tapInstructionLoad => exact ⟨_, rfl, tapLoad_touch (by decide) start⟩
  | tapTestLogicReset => exact ⟨_, rfl, tapLoad_touch (by decide) start⟩
  | strapSampleDone => exact ⟨_, rfl, strapDone_touch (by decide) start⟩
  | pllLock => exact ⟨_, rfl, pllLock_touch (by decide) start⟩
  | b4ClaimWaitExpiry => exact ⟨_, rfl, b4Wait_touch (by decide) start⟩
  | claimCollision => exact ⟨_, rfl, collision_touch (by decide) start⟩
  | trainingWindowEnd => exact ⟨_, rfl, windowEnd_touch (by decide) start⟩
  | electionRepeat => exact ⟨_, rfl, electionRepeat_touch (by decide) start⟩
  | lateBerthJoin => exact ⟨_, rfl, lateJoin_touch (by decide) start⟩
  | markBoundary => exact ⟨_, rfl, markBoundary_touch (by decide) start⟩
  | markAverageReceive => exact ⟨_, rfl, markAverageReceive_touch (by decide) start⟩
  | floorOverSet => exact ⟨_, rfl, floorOverSet_touch (by decide) start⟩
  | silentMarksTakeover => exact ⟨_, rfl, takeover_touch (by decide) start⟩
  | flitReceive => exact ⟨_, rfl, flitReceive_touch (by decide) start⟩
  | replayRequest => exact ⟨_, rfl, replayRequest_touch (by decide) start⟩
  | ringTimeout => exact ⟨_, rfl, ringTimeout_touch (by decide) start⟩
  | remoteReplyReceive => exact ⟨_, rfl, remoteReply_touch (by decide) start⟩
  | berthRetireOrder => exact ⟨_, rfl, retireOrder_touch (by decide) start⟩
  | bypassNotice => exact ⟨_, rfl, bypassNotice_touch (by decide) start⟩
  | shutdownBoundExpiry => exact ⟨_, rfl, boundExpiry_touch (by decide) start⟩
  | bypassSwitch => exact ⟨_, rfl, bypassSwitch_touch (by decide) start⟩
  | silentBerthDetect => exact ⟨_, rfl, silentDetect_touch (by decide) start⟩
  | silentBerthReport => exact ⟨_, rfl, silentReport_touch (by decide) start⟩
  | silentMarksIsolate => exact ⟨_, rfl, silentIsolate_touch (by decide) start⟩
  | noClockIsolate => exact ⟨_, rfl, noClockIsolate_touch (by decide) start⟩
  | isolatedReport => exact ⟨_, rfl, isolatedReport_touch (by decide) start⟩
  | releaseOrder => exact ⟨_, rfl, releaseOrder_touch (by decide) start⟩
  | clockInputLoss => exact ⟨_, rfl, clockLoss_touch (by decide) start⟩
  | clockSwitchoverDone => exact ⟨_, rfl, switchDone_touch (by decide) start⟩
  | standbyClockSource => exact ⟨_, rfl, standbySource_touch (by decide) start⟩
  | registerWrite => exact ⟨_, rfl, registerWrite_touch (by decide) start⟩
  | counterLowRead => exact ⟨_, rfl, partyRead_touch (by decide) (fun _ _ _ _ _ => counterLow_touch (by decide)) start⟩
  | counterHighRead => exact ⟨_, rfl, partyRead_touch (by decide) (fun _ _ _ _ _ => counterHigh_touch (by decide)) start⟩
  | accErrRead => exact ⟨_, rfl, partyRead_touch (by decide) (fun _ _ _ _ _ => accErrRead_touch (by decide)) start⟩
  | snapTake => exact ⟨_, rfl, snapTake_touch (by decide) start⟩
  | snapRelease => exact ⟨_, rfl, snapRelease_touch (by decide) start⟩
  | snapshotExpiry => exact ⟨_, rfl, snapExpiry_touch (by decide) start⟩
  | tideInTransition => exact ⟨_, rfl, tideTransition_touch (by decide) start⟩
  | tideCandidate => exact ⟨_, rfl, tideCandidate_touch (by decide) start⟩
  | tideMiss => exact ⟨_, rfl, tideMiss_touch (by decide) start⟩
  | tideHoldExpiry => exact ⟨_, rfl, holdExpiry_touch (by decide) start⟩
  | tideFlitReceive => exact ⟨_, rfl, tideFlitReceive_touch (by decide) start⟩
  | chartSlotCheckDone => exact ⟨_, rfl, slotCheckDone_touch (by decide) start⟩
  | chartDistribute => exact ⟨_, rfl, chartDistribute_touch (by decide) start⟩
  | chartStreamReceive => exact ⟨_, rfl, chartStream_touch (by decide) start⟩
  | berthSignatureCheckDone => exact ⟨_, rfl, berthSignature_touch (by decide) start⟩
  | chartAck => exact ⟨_, rfl, chartAck_touch (by decide) start⟩
  | chartAckTimeout => exact ⟨_, rfl, chartAckTimeout_touch (by decide) start⟩
  | chartLock => exact ⟨_, rfl, chartLock_touch (by decide) start⟩
  | reload => exact ⟨_, rfl, viaBus_touch (by decide) (fun _ => chCmd_touch (by decide)) start⟩
  | redistribute => exact ⟨_, rfl, viaBus_touch (by decide) (fun _ => chCmd_touch (by decide)) start⟩
  | commitRb => exact ⟨_, rfl, viaBus_touch (by decide) (fun _ => chCmd_touch (by decide)) start⟩
  | revokeKey => exact ⟨_, rfl, viaBus_touch (by decide) (fun _ => chCmd_touch (by decide)) start⟩
  | progKey => exact ⟨_, rfl, viaBus_touch (by decide) (fun _ => chCmd_touch (by decide)) start⟩
  | fuseBurnDone => exact ⟨_, rfl, fuseBurnDone_touch (by decide) start⟩
  | controllerReset => exact ⟨_, rfl, viaBus_touch (by decide) (fun _ => controllerReset_touch (by decide)) start⟩
  | controllerResetFire => exact ⟨_, rfl, ite_touch (mainReset_touch (by decide) start) start⟩
  | sleep => exact ⟨_, rfl, viaBus_touch (by decide) (fun _ => sleepOrder_touch (by decide)) start⟩
  | sleepWake => exact ⟨_, rfl, wake_touch (by decide) start⟩
  | pilotStart => exact ⟨_, rfl, pilotStart_touch (by decide) start⟩
  | powerUp => exact ⟨_, rfl, viaBus_touch (by decide) (fun _ => powerUp_touch (by decide)) start⟩
  | shutdown => exact ⟨_, rfl, viaBus_touch (by decide) (fun _ => slotShutdown_touch (by decide)) start⟩
  | railOnDelayExpiry => exact ⟨_, rfl, onDelayEnd_touch (by decide) start⟩
  | avsSetTimeout => exact ⟨_, rfl, avsSetTimeout_touch (by decide) start⟩
  | powerGoodRise => exact ⟨_, rfl, powerGoodRise_touch (by decide) start⟩
  | powerGoodDrop => exact ⟨_, rfl, powerGoodDrop_touch (by decide) start⟩
  | pgTimeout => exact ⟨_, rfl, pgTimeout_touch (by decide) start⟩
  | rampTimeout => exact ⟨_, rfl, rampTimeout_touch (by decide) start⟩
  | adcConversion => exact ⟨_, rfl, adcConversion_touch (by decide) start⟩
  | thresholdConfirm => exact ⟨_, rfl, thresholdConfirm_touch (by decide) start⟩
  | railTrumpReceive => exact ⟨_, rfl, railTrumpReceive_touch (by decide) start⟩
  | railOffConfirm => exact ⟨_, rfl, railOffConfirm_touch (by decide) start⟩
  | railOffTimeout => exact ⟨_, rfl, railOffTimeout_touch (by decide) start⟩
  | faultHoldEnd => exact ⟨_, rfl, faultHoldEnd_touch (by decide) start⟩
  | thresholdWrite => exact ⟨_, rfl, viaBus_touch (by decide) (fun _ => thresholdWrite_touch (by decide)) start⟩
  | setpointTransitionEnd => exact ⟨_, rfl, transitionEnd_touch (by decide) start⟩
  | logBufferArrive => exact ⟨_, rfl, logBufferArrive_touch (by decide) start⟩
  | logProgramDone => exact ⟨_, rfl, logProgramDone_touch (by decide) start⟩
  | logEraseDone => exact ⟨_, rfl, logEraseDone_touch (by decide) start⟩
  | logHeadFound => exact ⟨_, rfl, logHeadFound_touch (by decide) start⟩
  | pwBudgetWrite => exact ⟨_, rfl, viaBus_touch (by decide) (fun _ => budgetWrite_touch (by decide)) start⟩
  | admitReq => exact ⟨_, rfl, viaBus_touch (by decide) (fun _ => admitReq_touch (by decide)) start⟩
  | admitCancel => exact ⟨_, rfl, viaBus_touch (by decide) (fun _ => admitCancel_touch (by decide)) start⟩
  | avsResponse => exact ⟨_, rfl, avsResponse_touch (by decide) start⟩
  | avsResponseTimeout => exact ⟨_, rfl, avsTimeout_touch (by decide) start⟩
  | voltageSettle => exact ⟨_, rfl, voltageSettle_touch (by decide) start⟩
  | settleTimeout => exact ⟨_, rfl, settleTimeout_touch (by decide) start⟩
  | voltageTrimTick => exact ⟨_, rfl, trimTick_touch (by decide) start⟩
  | thermalLoopStep => exact ⟨_, rfl, thermalLoopStep_touch (by decide) start⟩
  | thermalCapRelease => exact ⟨_, rfl, thermalCapRelease_touch (by decide) start⟩
  | scanComplete => exact ⟨_, rfl, scanComplete_touch (by decide) start⟩
  | overGrantLower => exact ⟨_, rfl, overGrantLower_touch (by decide) start⟩
  | underGrantRaise => exact ⟨_, rfl, underGrantRaise_touch (by decide) start⟩
  | dutyCommandWrite => exact ⟨_, rfl, viaBus_touch (by decide) (fun _ => dutyWrite_touch (by decide)) start⟩
  | tachEdge => exact ⟨_, rfl, tachEdge_touch (by decide) start⟩
  | encoderChange => exact ⟨_, rfl, encoderChange_touch (by decide) start⟩
  | indexEdge => exact ⟨_, rfl, indexEdge_touch (by decide) start⟩
  | pumpSpeedGate => exact ⟨_, rfl, .iter (fun _ _ => pumpGate_touch (by decide)) start⟩
  | kickTimeout => exact ⟨_, rfl, kickTimeout_touch (by decide) start⟩
  | stallDetect => exact ⟨_, rfl, stallDetect_touch (by decide) start⟩
  | stallRetry => exact ⟨_, rfl, stallRetry_touch (by decide) start⟩
  | retryOffEnd => exact ⟨_, rfl, retryOffEnd_touch (by decide) start⟩
  | zoneBoostNotice => exact ⟨_, rfl, zoneNotice_touch (by decide) start⟩
  | hostActNotice => exact ⟨_, rfl, hostActNotice_touch (by decide) start⟩
  | hostSilenceExpiry => exact ⟨_, rfl, silenceExpiry_touch (by decide) start⟩
  | leakTrump => exact ⟨_, rfl, leakTrump_touch (by decide) start⟩
  | leakTrumpReceive => exact ⟨_, rfl, leakTrumpReceive_touch (by decide) start⟩
  | ropeOpen => exact ⟨_, rfl, ropeOpen_touch (by decide) start⟩
  | ropeDry => exact ⟨_, rfl, ropeDry_touch (by decide) start⟩
  | ropeStateNotice => exact ⟨_, rfl, ropeNotice_touch (by decide) start⟩
  | lkClear => exact ⟨_, rfl, viaBus_touch (by decide) (fun _ => lkClear_touch (by decide)) start⟩
  | prog =>
    exact ⟨_, rfl, viaBus_touch (by decide) (fun _ h => afterArray_touch (by decide) (arOrder_touch (by decide) h)) start⟩
  | verify =>
    exact ⟨_, rfl, viaBus_touch (by decide) (fun _ h => afterArray_touch (by decide) (arOrder_touch (by decide) h)) start⟩
  | repair =>
    exact ⟨_, rfl, viaBus_touch (by decide) (fun _ h => afterArray_touch (by decide) (arOrder_touch (by decide) h)) start⟩
  | cal =>
    exact ⟨_, rfl, viaBus_touch (by decide) (fun _ h => afterArray_touch (by decide) (arOrder_touch (by decide) h)) start⟩
  | pass =>
    exact ⟨_, rfl, viaBus_touch (by decide) (fun _ h => afterArray_touch (by decide) (arOrder_touch (by decide) h)) start⟩
  | abort =>
    exact ⟨_, rfl, viaBus_touch (by decide) (fun _ h => afterArray_touch (by decide) (arAbort_touch (by decide) h)) start⟩
  | rowSenseDone => exact ⟨_, rfl, afterArray_touch (by decide) (rowSenseDone_touch (by decide) start)⟩
  | progRoundDone => exact ⟨_, rfl, afterArray_touch (by decide) (progRoundDone_touch (by decide) start)⟩
  | cellWindowRead => exact ⟨_, rfl, readBus_touch (by decide) (fun _ => cellRead_touch (by decide)) start⟩
  | arrayPassDone => exact ⟨_, rfl, arrayPassDone_touch (by decide) start⟩
  | calibrationDone => exact ⟨_, rfl, afterArray_touch (by decide) (calibrationDone_touch (by decide) start)⟩
  | testSlot => exact ⟨_, rfl, afterArray_touch (by decide) (testSlot_touch (by decide) start)⟩
  | stageOutputReceive => exact ⟨_, rfl, stageReceive_touch (by decide) start⟩
  | featureReceive => exact ⟨_, rfl, featureReceive_touch (by decide) start⟩
  | bindingsFormed => exact ⟨_, rfl, bindingsFormed_touch (by decide) start⟩
  | fallbackEntry => exact ⟨_, rfl, fallbackEntry_touch (by decide) start⟩
  | policyLoadDone => exact ⟨_, rfl, loadComplete_touch (by decide) start⟩
  | unload => exact ⟨_, rfl, viaBus_touch (by decide) (fun _ => unload_touch (by decide)) start⟩
  | promote => exact ⟨_, rfl, viaBus_touch (by decide) (fun _ => promote_touch (by decide)) start⟩
  | statsClear =>
    exact ⟨_, rfl, viaBus_touch (by decide) (fun _ => pgOrder_touch (by decide) fun _ => clearStats_touch (by decide)) start⟩
  | replace => exact ⟨_, rfl, viaBus_touch (by decide) (fun _ => replaceOrder_touch (by decide)) start⟩
  | promoteSwap => exact ⟨_, rfl, promoteSwap_touch (by decide) start⟩
  | dummyCompare => exact ⟨_, rfl, dummyCompare_touch (by decide) start⟩
  | start => exact ⟨_, rfl, viaBus_touch (by decide) (fun _ => hwStart_touch (by decide)) start⟩
  | stop => exact ⟨_, rfl, viaBus_touch (by decide) (fun _ => hwStop_touch (by decide)) start⟩
  | retrain => exact ⟨_, rfl, viaBus_touch (by decide) (fun _ => hwRetrainCmd_touch (by decide)) start⟩
  | rxLock => exact ⟨_, rfl, rxLock_touch (by decide) start⟩
  | falseLock => exact ⟨_, rfl, falseLock_touch (by decide) start⟩
  | falseLockExclusionEnd => exact ⟨_, rfl, updRx_touch (by decide) start⟩
  | lockLost => exact ⟨_, rfl, lockLost_touch (by decide) start⟩
  | frameReceive => exact ⟨_, rfl, frameReceive_touch (by decide) start⟩
  | txFrameBoundary => exact ⟨_, rfl, txBoundary_touch (by decide) start⟩
  | ackTimeout => exact ⟨_, rfl, ackTimeout_touch (by decide) start⟩
  | trainTimeout => exact ⟨_, rfl, trainTimeout_touch (by decide) start⟩
  | replyReceive => exact ⟨_, rfl, replyReceive_touch (by decide) start⟩
  | eventReceive => exact ⟨_, rfl, eventReceive_touch (by decide) start⟩
  | replyTimeout => exact ⟨_, rfl, replyTimeout_touch (by decide) start⟩
  | freqResend => exact ⟨_, rfl, freqResend_touch (by decide) start⟩
  | mailboxRead => exact ⟨_, rfl, viaBus_touch (by decide) (fun _ => mailboxOrder_touch (by decide)) start⟩
  | mailboxWrite => exact ⟨_, rfl, viaBus_touch (by decide) (fun _ => mailboxOrder_touch (by decide)) start⟩
  | mailboxCtrl => exact ⟨_, rfl, viaBus_touch (by decide) (fun _ => mailboxOrder_touch (by decide)) start⟩
  | mailboxFreq => exact ⟨_, rfl, viaBus_touch (by decide) (fun _ => mailboxOrder_touch (by decide)) start⟩
  | hwCplRead => exact ⟨_, rfl, readBus_touch (by decide) (fun _ => cplRead_touch (by decide)) start⟩
  | hwEvqRead => exact ⟨_, rfl, readBus_touch (by decide) (fun _ => evqRead_touch (by decide)) start⟩
  | bringUp => exact ⟨_, rfl, viaBus_touch (by decide) (fun _ => bringUp_touch (by decide)) start⟩
  | serviceReset => exact ⟨_, rfl, viaBus_touch (by decide) (fun _ => serviceReset_touch (by decide)) start⟩
  | serviceAbort => exact ⟨_, rfl, viaBus_touch (by decide) (fun _ => svcAbort_touch (by decide)) start⟩
  | mgmtStart => exact ⟨_, rfl, mgmtStart_touch (by decide) start⟩
  | statusPoll => exact ⟨_, rfl, statusPoll_touch (by decide) start⟩
  | busyReissue => exact ⟨_, rfl, busyReissue_touch (by decide) start⟩
  | stageTimeout => exact ⟨_, rfl, stageTimeout_touch (by decide) start⟩
  | drainEscalate => exact ⟨_, rfl, drainEscalate_touch (by decide) start⟩
  | resetHoldEnd => exact ⟨_, rfl, resetHoldEnd_touch (by decide) start⟩
  | resetTimeout => exact ⟨_, rfl, resetTimeout_touch (by decide) start⟩
  | reportPoll => exact ⟨_, rfl, reportPoll_touch (by decide) start⟩
  | slotFlitReceive => exact ⟨_, rfl, slotFlitReceive_touch (by decide) start⟩
  | pilotInstruction => exact ⟨_, rfl, pilotInstruction_touch (by decide) start⟩
  | csrAccess => exact ⟨_, rfl, csrAccess_touch (by decide) start⟩
  | fence => exact ⟨_, rfl, fenceOp_touch (by decide) start⟩
  | wfi => exact ⟨_, rfl, wfiOp_touch (by decide) start⟩
  | wfiTimeout => exact ⟨_, rfl, wfiTimeout_touch (by decide) start⟩
  | interruptTaken => exact ⟨_, rfl, interruptTaken_touch (by decide) start⟩
  | msipWrite => exact ⟨_, rfl, viaBus_touch (by decide) (fun _ => msipWrite_touch (by decide)) start⟩
  | watchdogKick => exact ⟨_, rfl, viaBus_touch (by decide) (fun _ => watchdogKick_touch (by decide)) start⟩
  | pilotWatchdogExpiry => exact ⟨_, rfl, watchdogExpiry_touch (by decide) start⟩
  | restart => exact ⟨_, rfl, viaBus_touch (by decide) (fun _ => restartOrder_touch (by decide)) start⟩
  | restartStreamDone => exact ⟨_, rfl, streamDone_touch (by decide) start⟩
  | imageCheckDone => exact ⟨_, rfl, imageChecked_touch (by decide) start⟩
  | imageCopyReceive => exact ⟨_, rfl, imageCopyReceive_touch (by decide) start⟩
  | load => exact ⟨_, rfl, viaBus_touch (by decide) (fun _ => loadOrder_touch (by decide)) start⟩
  | dkAllocAny => exact ⟨_, rfl, readBus_touch (by decide) (fun _ => allocRead_touch (by decide)) start⟩
  | dkAllocLocal => exact ⟨_, rfl, readBus_touch (by decide) (fun _ => allocRead_touch (by decide)) start⟩
  | dkFree => exact ⟨_, rfl, viaBus_touch (by decide) (fun _ => freeWrite_touch (by decide)) start⟩
  | dmTailWrite => exact ⟨_, rfl, viaBus_touch (by decide) (fun _ => tailWrite_touch (by decide)) start⟩
  | dmaBurstDone => exact ⟨_, rfl, burstDone_touch (by decide) start⟩
  | dmaHandTimeout => exact ⟨_, rfl, handTimeout_touch (by decide) start⟩
  | dmaResume => exact ⟨_, rfl, viaBus_touch (by decide) (fun _ => dmaResume_touch (by decide)) start⟩
  | skip => exact ⟨_, rfl, viaBus_touch (by decide) (fun _ => dmaSkip_touch (by decide)) start⟩
  | flush => exact ⟨_, rfl, viaBus_touch (by decide) (fun _ => dmaFlush_touch (by decide)) start⟩
  | preempt => exact ⟨_, rfl, viaBus_touch (by decide) (fun _ => dmaPreempt_touch (by decide)) start⟩
  | ident => exact ⟨_, rfl, twRun_touch (by decide) (fun _ => twIdent_touch (by decide)) start⟩
  | rd32 => exact ⟨_, rfl, twRun_touch (by decide) (fun _ => twRd32_touch (by decide)) start⟩
  | wr32 => exact ⟨_, rfl, twRun_touch (by decide) (fun _ => twWr32_touch (by decide)) start⟩
  | rdn => exact ⟨_, rfl, twRun_touch (by decide) (fun _ => twRdn_touch (by decide)) start⟩
  | wrn => exact ⟨_, rfl, twRun_touch (by decide) (fun _ => twWrn_touch (by decide)) start⟩
  | last => exact ⟨_, rfl, twRun_touch (by decide) (fun _ => twRead_touch (by decide)) start⟩
  | attn => exact ⟨_, rfl, twRun_touch (by decide) (fun _ => twRead_touch (by decide)) start⟩
  | attnClr => exact ⟨_, rfl, twRun_touch (by decide) (fun _ => twAttnClr_touch (by decide)) start⟩
  | receiveByte => exact ⟨_, rfl, twRun_touch (by decide) (fun _ => twReceive_touch (by decide)) start⟩
  | quickCommand => exact ⟨_, rfl, twRun_touch (by decide) (fun _ => State.emit_touch (by decide)) start⟩
  | unsupportedCommand => exact ⟨_, rfl, twRun_touch (by decide) (fun _ => twUnsupported_touch (by decide)) start⟩
  | transactionCut => exact ⟨_, rfl, twRun_touch (by decide) (fun _ => twCut_touch (by decide)) start⟩
  | twAttnSet => exact ⟨_, rfl, viaBus_touch (by decide) (fun _ => twAttnSet_touch (by decide)) start⟩
  | beacon => exact ⟨_, rfl, beacon_touch (by decide) start⟩
  | beaconEnd => exact ⟨_, rfl, beaconEnd_touch (by decide) start⟩
  | beaconCut => exact ⟨_, rfl, beaconCut_touch (by decide) start⟩
  | beaconRepeat => exact ⟨_, rfl, beaconRepeat_touch (by decide) start⟩
  | hostNotify => exact ⟨_, rfl, hostNotify_touch (by decide) start⟩
  | notifyRetry => exact ⟨_, rfl, notifyRetry_touch (by decide) start⟩
  | backoffEnd => exact ⟨_, rfl, backoffEnd_touch (by decide) start⟩
  | sleepAddressMatch => exact ⟨_, rfl, addressMatch_touch (by decide) start⟩
  | stretchTimeout => exact ⟨_, rfl, stretchTimeout_touch (by decide) start⟩
  | busHang => exact ⟨_, rfl, busHang_touch (by decide) start⟩
  | vendorRead => exact ⟨_, rfl, vendorRead_touch (by decide) start⟩
  | vendorWrite => exact ⟨_, rfl, vendorWrite_touch (by decide) start⟩
  | vendorLast => exact ⟨_, rfl, vendorLast_touch (by decide) start⟩
  | getStatus => exact ⟨_, rfl, getStatus_touch (by decide) start⟩
  | clearFeature => exact ⟨_, rfl, setFeature_touch (by decide) start⟩
  | setFeature => exact ⟨_, rfl, setFeature_touch (by decide) start⟩
  | setAddress => exact ⟨_, rfl, setAddress_touch (by decide) start⟩
  | getDescriptor => exact ⟨_, rfl, getDescriptor_touch (by decide) start⟩
  | getConfiguration =>
    exact ⟨_, rfl, request_touch (by decide) (fun _ e => Option.some.inj e ▸ answer_touch (by decide) start) start⟩
  | setConfiguration => exact ⟨_, rfl, setConfiguration_touch (by decide) start⟩
  | getInterface => exact ⟨_, rfl, getInterface_touch (by decide) start⟩
  | setInterface => exact ⟨_, rfl, setInterface_touch (by decide) start⟩
  | setDescriptor => exact ⟨_, rfl, request_touch (by decide) nofun start⟩
  | synchFrame => exact ⟨_, rfl, request_touch (by decide) nofun start⟩
  | dfuDnload => exact ⟨_, rfl, dfuDnload_touch (by decide) start⟩
  | dfuUpload => exact ⟨_, rfl, dfuUpload_touch (by decide) start⟩
  | dfuGetstatus => exact ⟨_, rfl, dfuGetStatus_touch (by decide) start⟩
  | dfuClrstatus => exact ⟨_, rfl, dfuClrStatus_touch (by decide) start⟩
  | dfuGetstate => exact ⟨_, rfl, dfuGetState_touch (by decide) start⟩
  | dfuAbort => exact ⟨_, rfl, dfuAbort_touch (by decide) start⟩
  | dfuDetach => exact ⟨_, rfl, ite_touch (State.emit_touch (by decide) start) start⟩
  | dfuEraseDone => exact ⟨_, rfl, dfuEraseDone_touch (by decide) start⟩
  | dfuProgramDone => exact ⟨_, rfl, dfuProgramDone_touch (by decide) start⟩
  | manifestationDone => exact ⟨_, rfl, manifestationDone_touch (by decide) start⟩
  | usbBusReset => exact ⟨_, rfl, usbReset_touch (by decide) start⟩
  | usbSuspend => exact ⟨_, rfl, usbSuspend_touch (by decide) start⟩
  | usbResume => exact ⟨_, rfl, usbResume_touch (by decide) start⟩
  | vbusChange => exact ⟨_, rfl, vbusChange_touch (by decide) start⟩
  | remoteWakeup => exact ⟨_, rfl, remoteWakeup_touch (by decide) start⟩
  | telemetryIn => exact ⟨_, rfl, telemetryIn_touch (by decide) start⟩
  | telemetryPacketAck => exact ⟨_, rfl, telemetryAck_touch (by decide) start⟩
  | usTelPush => exact ⟨_, rfl, viaBus_touch (by decide) (fun _ => telPush_touch (by decide)) start⟩
  | retirementNotice => exact ⟨_, rfl, ite_touch (hlRetire_touch (by decide) start) start⟩
  | unretireRingPort =>
    exact ⟨_, rfl, viaBus_touch (by decide) (fun _ => unretire_touch_of_act (by decide) fun _ _ => unretPort_touch
      (by decide)) start⟩
  | unretireTideIn =>
    exact ⟨_, rfl, viaBus_touch (by decide) (fun _ => unretire_touch_of_act (by decide)
      fun _ _ => unretTideIn_touch (by decide)) start⟩
  | unretireBerth =>
    exact ⟨_, rfl, viaBus_touch (by decide) (fun _ => unretire_touch_of_act (by decide) fun _ _ => unretBerth_touch
      (by decide)) start⟩
  | unretireSlot =>
    exact ⟨_, rfl, viaBus_touch (by decide) (fun _ => unretire_touch_of_act (by decide) fun _ _ => unretSlot_touch
      (by decide)) start⟩
  | unretireAvsbus =>
    exact ⟨_, rfl, viaBus_touch (by decide) (fun _ => unretire_touch_of_act (by decide) fun _ _ => unretAvs_touch
      (by decide)) start⟩
  | unretireCool =>
    exact ⟨_, rfl, viaBus_touch (by decide) (fun _ => unretire_touch_of_act (by decide) fun _ _ => unretCool_touch
      (by decide)) start⟩
  | unretireRope =>
    exact ⟨_, rfl, viaBus_touch (by decide) (fun _ => unretire_touch_of_act (by decide) fun _ _ => unretRope_touch
      (by decide)) start⟩
  | unretireColumn =>
    exact ⟨_, rfl, viaBus_touch (by decide) (fun _ => unretire_touch_of_act (by decide)
      fun _ _ => unretColumn_touch (by decide)) start⟩
  | unretireArray =>
    exact ⟨_, rfl, viaBus_touch (by decide) (fun _ => unretire_touch_of_act (by decide) fun _ _ => unretArray_touch
      (by decide)) start⟩
  | unretireDma =>
    exact ⟨_, rfl, viaBus_touch (by decide) (fun _ => unretire_touch_of_act (by decide) fun _ _ => unretDma_touch
      (by decide)) start⟩
  | unretireTwiCtrl =>
    exact ⟨_, rfl, viaBus_touch (by decide) (fun _ => unretire_touch_of_act (by decide) fun _ _ => unretTwi_touch
      (by decide)) start⟩
  | unretirePilot =>
    exact ⟨_, rfl, viaBus_touch (by decide) (fun _ => unretire_touch_of_act (by decide) fun _ _ => unretPilot_touch
      (by decide)) start⟩
  | unretireCore =>
    exact ⟨_, rfl, viaBus_touch (by decide) (fun _ => unretire_touch_of_act (by decide) fun _ _ => unretCore_touch
      (by decide)) start⟩
  | unretireAck => exact ⟨_, rfl, unretAck_touch (by decide) start⟩
  | unretireAckTimeout => exact ⟨_, rfl, unretAckTimeout_touch (by decide) start⟩
  | berthAdmitTimeout => exact ⟨_, rfl, admitTimeout_touch (by decide) start⟩
  | soundingArrive => exact ⟨_, rfl, soundingArrive_touch (by decide) start⟩
  | soundingDropNotice => exact ⟨_, rfl, ite_touch (soundDrop_touch (by decide) start) start⟩
  | resetNRelease => exact ⟨_, rfl, updDev_touch (by decide) start⟩
  | writeGuardChange => exact ⟨_, rfl, writeGuardChange_touch (by decide) start⟩
  | mtimecmpMatch => exact ⟨_, rfl, mtimecmpMatch_touch (by decide) start⟩
  | pwmPeriodStart => exact ⟨_, rfl, pwmPeriodStart_touch (by decide) start⟩
  | ringPortTrained => exact ⟨_, rfl, portTrained_touch (by decide) start⟩
  | vddStbyLoss => exact ⟨_, rfl, updDev_touch (by decide) (islandClear_touch (by decide) (mainBlocks_touch (by decide) start))⟩

/-- The queue is no part of a change. -/
theorem Touch.withPending {fs : List Piece} {s u : State} (h : Touch fs s u) (cs : List Instr) :
    Touch fs s { u with pending := cs } :=
  h.frame rfl (fun _ => rfl) (fun _ => rfl) (fun _ => rfl) fun _ => rfl

/-- Settles O59: the queue stays since a command runs beside it; the frame is what the command's operation touches. -/
theorem commandFrames : Obligations.CommandFrames := by
  intro c s
  obtain ⟨u, run, touched⟩ := exec_touches c s
  exact ⟨_, run, rfl, (touched.withPending s.pending).all⟩

theorem exec_keeps_memCanonical {c : Instr} {s t : State} (canonical : s.memCanonical = true) (run : exec c s = .next t) :
    t.memCanonical = true := by
  obtain ⟨u, ends, touched⟩ := exec_touches c s
  obtain rfl : { u with pending := s.pending } = t := Host.Outcome.next.inj (ends.symm.trans run)
  exact (touched.withPending s.pending).mem canonical

theorem tick_keeps_memCanonical {s : State} (canonical : s.memCanonical = true) : (tick s).memCanonical = true :=
  (tick_touch (List.Subset.refl _) Touch.refl).mem canonical

theorem step_idle {s : State} (idle : s.pending = []) : step s = .next (tick s) := by simp only [step, idle]

/-- Settles O57. -/
theorem stepRunsFront : Obligations.StepRunsFront := by
  intro c rest s front
  simp only [step, front]

/-- Settles O60: a step is one command or one cycle of REF, and each keeps the canonical form. -/
theorem memoryStaysCanonical : Obligations.MemoryStaysCanonical := by
  intro s t canonical run
  cases queue : s.pending with
  | nil =>
    obtain rfl : tick s = t := Host.Outcome.next.inj ((step_idle queue).symm.trans run)
    exact tick_keeps_memCanonical canonical
  | cons c rest =>
    exact exec_keeps_memCanonical (s := { s with pending := rest }) canonical ((stepRunsFront c rest s queue).symm.trans run)

/-! ### Register reset values -/

theorem forall_of_forall_mem_pairs {α β : Type} {l : List (α × β)} {P : α → β → Prop} (h : ∀ p ∈ l, P p.1 p.2) :
    ∀ x y, (x, y) ∈ l → P x y := fun x y mem => h (x, y) mem

/-- The register at an offset (0x1000 × block + offset) of berth b, or of the tray-wide space, reads v right after power-on. -/
abbrev ReadsAtReset (b : BId) (tray : Bool) (off v : Nat) : Prop :=
  liveReg State.reset b tray 0 (off / 4096) (off % 4096) = some (BitVec.ofNat 32 v)

set_option maxRecDepth 2000 in
/-- Settles O56: each register of the table is read in the state after power-on. -/
theorem resetRegisters : Obligations.ResetRegisters := by
  refine ⟨by decide, rfl, by decide, fun b => forall_of_forall_mem_pairs (P := ReadsAtReset b false) ?own, ?tray⟩
  case own =>
    revert b
    decide
  case tray =>
    rintro b off v ⟨capable, mem⟩
    refine forall_of_forall_mem_pairs (P := ReadsAtReset b true) ?_ off v mem
    rcases capable with rfl | rfl
    · decide
    · decide

end Sys2Proof.Machine

/-! How a command's outcome is read off its operation: the state it ends in is the operation's, but for the queue. -/
namespace Sys2Proof.Machine
set_option Elab.async false

/-- State t is u but for the queue of commands. -/
structure EndsAs (u t : State) : Prop where
  at_eq : ∀ c, t.at c = u.at c
  out : t.out = u.out
  now : t.now = u.now
  freeCtr : t.freeCtr = u.freeCtr
  dev : t.dev = u.dev

/-- Nothing outside berth b differs, but for what was sent out. -/
structure Within (b : BId) (s t : State) : Prop where
  now : t.now = s.now
  freeCtr : t.freeCtr = s.freeCtr
  dev : t.dev = s.dev
  at_ne : ∀ c, c ≠ b → t.at c = s.at c

section
variable {c : Instr} {s t u v : State} {b : BId} {P : State → Prop} {fs : List Piece}

/-- A command answers in what its operation makes of the state. -/
theorem answers_of_run (run : exec c s = ran s u) (h : ∀ t, t.pending = s.pending → EndsAs u t → P t) : Answers c s P :=
  ⟨_, run, h _ rfl ⟨fun _ => rfl, rfl, rfl, rfl, rfl⟩⟩

theorem EndsAs.touch (e : EndsAs u t) : Touch fs u t :=
  Touch.berths e.out e.now e.freeCtr e.dev fun c => e.at_eq c ▸ TouchB.refl

/-- What the operation leaves alone, the command does. -/
theorem EndsAs.agreeOff (e : EndsAs u t) (h : Touch fs s u) : AgreeOff fs s t := (h.trans e.touch).all

/-- The start of a command drops the outputs of the one before. -/
theorem begin_touch_out (mem : Piece.out ∈ fs) : Touch fs s s.begin := State.begin_touch (by simpa using mem) Touch.refl

/-- An operation that runs from the start of the command changes nothing but the outputs and what it touches. -/
theorem EndsAs.agreeOff_begin (e : EndsAs u t) (mem : Piece.out ∈ fs) (h : Touch fs s.begin u) : AgreeOff fs s t :=
  e.agreeOff ((begin_touch_out mem).trans h)

theorem Within.refl : Within b s s := ⟨rfl, rfl, rfl, fun _ _ => rfl⟩

theorem Within.trans (h : Within b s t) (k : Within b t u) : Within b s u :=
  ⟨k.now.trans h.now, k.freeCtr.trans h.freeCtr, k.dev.trans h.dev, fun c ne => (k.at_ne c ne).trans (h.at_ne c ne)⟩

theorem Within.ofBegin (h : Within b s.begin t) : Within b s t := ⟨h.now, h.freeCtr, h.dev, h.at_ne⟩

theorem Within.upd {f : Berth → Berth} : Within b s (s.upd b f) := ⟨rfl, rfl, rfl, fun _ ne => State.upd_at_ne ne.symm⟩

theorem Within.emit {o : Output} : Within b s (s.emit o) := ⟨rfl, rfl, rfl, fun _ _ => rfl⟩

theorem Within.ite {p : Prop} [Decidable p] (ht : Within b s t) (hu : Within b s u) : Within b s (if p then t else u) := by
  split
  · exact ht
  · exact hu

theorem Within.iter {α : Type} {xs : List α} {f : α → State → State} (h : ∀ x t, Within b t (f x t)) :
    Within b s (iter xs f s) := iter_induction Within.refl fun x t kept => kept.trans (h x t)

/-- What the operation leaves of the other berths, the command does. -/
theorem EndsAs.keeps (e : EndsAs u t) (queue : t.pending = s.pending) (h : Within b s u) : Keeps [b] s t :=
  ⟨queue, e.now.trans h.now, e.freeCtr.trans h.freeCtr, e.dev.trans h.dev,
    fun c out => (e.at_eq c).trans (h.at_ne c (by simpa using out))⟩

end

end Sys2Proof.Machine

/-! What starts and ends a main reset (R112 to R120). -/
namespace Sys2Proof.Machine
set_option Elab.async false

section
variable {s t u : State} {b : BId}

/-! ### The blocks after a main reset -/

@[simp] theorem State.updAll_dev {f : BId → Berth → Berth} : (s.updAll f).dev = s.dev := by
  simp only [State.updAll, allB, List.foldl_cons, List.foldl_nil, State.upd_dev]

theorem iter_nil {α : Type} {f : α → State → State} : iter [] f s = s := rfl

theorem iter_cons {α : Type} {f : α → State → State} {x : α} {xs : List α} : iter (x :: xs) f s = iter xs f (f x s) := rfl

theorem iter_flashCut_touch : Touch [.freeCtr, .log, .flash] s (iter allB flashCut s) :=
  Touch.iter (fun _ _ => flashCut_touch (by decide)) Touch.refl

theorem mainBlocks_eq : mainBlocks s =
    updDev (fun d => { stby := d.stby, pinLow := d.pinLow, supplies := d.supplies, tap := d.tap, cells := d.cells })
      ((iter allB flashCut s).updAll fun _ x => resetBerth (iter allB flashCut s).now x) := rfl

/-- A main reset spares fuses, keys, flash and the island of every berth (R113). -/
theorem mainBlocks_at : (mainBlocks s).at b = resetBerth s.now ((iter allB flashCut s).at b) := by
  rw [mainBlocks_eq, updDev_at, State.updAll_at, iter_flashCut_touch.at_now (by decide)]

/-- Only SY_RST_CAUSE on B0 and B4 tells by which cause the blocks were reset (R117). -/
theorem mainReset_at {bit : Nat} : (mainReset bit s).at b = { (mainBlocks s).at b with
    sy := { ((mainBlocks s).at b).sy with
      cause := if b = 0 ∨ b = 4 then ((mainBlocks s).at b).sy.cause ||| 2 ^ bit else ((mainBlocks s).at b).sy.cause } } := by
  simp only [mainReset, iter, List.foldl_cons, List.foldl_nil, updSy_at]
  by_cases b0 : b = 0
  · subst b0; simp
  by_cases b4 : b = 4
  · subst b4; simp
  simp [b0, b4, Ne.symm b0, Ne.symm b4]

theorem mainReset_dev {bit : Nat} : (mainReset bit s).dev = { stby := s.dev.stby, pinLow := s.dev.pinLow, supplies := s.dev.supplies, tap := s.dev.tap, cells := s.dev.cells } := by
  have spared : (iter allB flashCut s).dev = s.dev := iter_flashCut_touch.at_dev (by decide)
  simp only [mainReset, iter_cons, iter_nil, updSy_dev, mainBlocks_eq, updDev_dev, State.updAll_dev, spared]

theorem mainReset_inMainReset {bit : Nat} : InMainReset bit s (mainReset bit s) := by
  have chart (b : BId) : ((iter allB flashCut s).at b).ch = (s.at b).ch := iter_flashCut_touch.at_ch (by decide) b
  refine ⟨fun b => ?_, ?_, ?_⟩
  · rw [mainReset_at, mainBlocks_at, ← chart b]
    generalize (iter allB flashCut s).at b = x
    exact ⟨rfl, rfl, rfl, rfl, rfl, rfl, rfl, rfl⟩
  · simp [mainReset_at, nbit]
  · simp [mainReset_at, nbit]

/-- What a main reset leaves does not hang on outputs, supplies or pins of the state before, nor on those after. -/
theorem InMainReset.of_berths {bit : Nat} {v : State} (h : InMainReset bit u v) (before : ∀ b, (s.at b).ch = (u.at b).ch)
    (after : ∀ b, t.at b = v.at b) : InMainReset bit s t := by
  obtain ⟨blocks, cause0, cause4⟩ := h
  exact ⟨fun b => by rw [after, before]; exact blocks b, by rw [after]; exact cause0, by rw [after]; exact cause4⟩

/-! ### The test port (R120) -/

/-- The instructions under which leaving is a main reset. -/
abbrev Drives (i : TapInstr) : Prop := i = .extest ∨ i = .clamp ∨ i = .highz

/-- Leaving EXTEST, CLAMP or HIGHZ is a main reset; of the rest the new instruction concerns the test port alone. -/
theorem tapLoad_at_of_leaves {i : TapInstr} (old : Drives s.dev.tap) (leaves : s.dev.tap ≠ i) :
    (∀ b, (tapLoad i s).at b = (mainReset 4 s).at b) ∧ (tapLoad i s).dev.tap = i := by
  have test : ((s.dev.tap == .extest || s.dev.tap == .clamp || s.dev.tap == .highz) && s.dev.tap != i) = true := by
    simpa [or_assoc] using ⟨old, leaves⟩
  simp only [tapLoad, test, if_true]
  split
  · simp
  · simp

theorem tapLoad_of_stays {i : TapInstr} (stays : s.dev.tap = .bypass ∨ s.dev.tap = .idcode ∨ s.dev.tap = .sample ∨ s.dev.tap = i) :
    tapLoad i s = if (i == .extest || i == .clamp) && s.dev.cells.isNone then
        updDev (fun d => { d with tap := i, cells := some s.freeCtr }) s.draw.2
      else updDev (fun d => { d with tap := i }) s := by
  have test : ((s.dev.tap == .extest || s.dev.tap == .clamp || s.dev.tap == .highz) && s.dev.tap != i) = false := by
    rcases stays with tap | tap | tap | tap <;> simp [tap]
  simp only [tapLoad, test, Bool.false_eq_true, if_false]
  rfl

theorem tapLoad_plain {i : TapInstr} (stays : s.dev.tap = .bypass ∨ s.dev.tap = .idcode ∨ s.dev.tap = .sample ∨ s.dev.tap = i)
    (held : i ≠ .extest ∧ i ≠ .clamp ∨ s.dev.cells ≠ none) : tapLoad i s = updDev (fun d => { d with tap := i }) s := by
  have test : ((i == .extest || i == .clamp) && s.dev.cells.isNone) = false := by
    rcases held with ⟨notExtest, notClamp⟩ | cells
    · simp [notExtest, notClamp]
    · simp [Option.isNone_eq_false_iff.mpr (Option.isSome_iff_ne_none.mpr cells)]
  rw [tapLoad_of_stays stays, test]
  rfl

theorem tapLoad_drives {i : TapInstr} (stays : s.dev.tap = .bypass ∨ s.dev.tap = .idcode ∨ s.dev.tap = .sample ∨ s.dev.tap = i)
    (drives : i = .extest ∨ i = .clamp) (cells : s.dev.cells = none) :
    tapLoad i s = updDev (fun d => { d with tap := i, cells := some s.freeCtr }) s.draw.2 := by
  have test : ((i == .extest || i == .clamp) && s.dev.cells.isNone) = true := by
    rcases drives with rfl | rfl <;> simp [cells]
  rw [tapLoad_of_stays stays, test]
  rfl

end

/-! ### What each command answers -/

section
variable {s : State}

/-- A command that resets the main blocks by cause `bit` from a state with the same charts. -/
theorem answers_mainReset {c : Instr} {u v : State} {bit : Nat} {Q : Dev → Prop} (run : exec c s = ran s v)
    (blocks : ∀ b, v.at b = (mainReset bit u).at b) (before : ∀ b, (s.at b).ch = (u.at b).ch) (dev : Q v.dev) :
    Answers c s fun t => InMainReset bit s t ∧ Q t.dev :=
  answers_of_run run fun _ _ e =>
    ⟨mainReset_inMainReset.of_berths before fun b => (e.at_eq b).trans (blocks b), e.dev ▸ dev⟩

/-- A command that changes the device's own state alone. -/
theorem answers_updDev {c : Instr} {f : Dev → Dev} (run : exec c s = ran s (updDev f s.begin)) :
    Answers c s fun t => t.dev = f s.dev ∧ AgreeOff [.out, .dev] s t :=
  answers_of_run run fun _ _ e => ⟨e.dev, e.agreeOff_begin (by decide) (updDev_touch (by decide) Touch.refl)⟩

theorem exec_mainSupplyGood (stby : s.dev.stby = true) :
    exec .mainSupplyGood s = ran s (updDev (fun d => { d with supplies := true }) s.begin) := by
  change ran s (if s.begin.dev.stby = true then _ else _) = _
  rw [if_pos (show s.begin.dev.stby = true from stby)]

theorem islandClear_at {cause : Nat} {b : BId} : (islandClear cause s).at b = { s.at b with
    sy := { (s.at b).sy with cause := if b = 0 ∨ b = 4 then cause else 0, rtcFrom := s.now }
    tw := { (s.at b).tw with busMid := false } } := by
  simp only [islandClear, iter, List.foldl_cons, List.foldl_nil, updSy_at, State.updAll_at]
  by_cases b0 : b = 0
  · subst b0; simp
  by_cases b4 : b = 4
  · subst b4; simp
  simp [b0, b4, Ne.symm b0, Ne.symm b4]

/-- The fall and the rise of VDD_STBY reset the main blocks and the island (R114). -/
theorem islandClear_mainBlocks_at {cause : Nat} {b : BId} :
    ((islandClear cause (mainBlocks s)).at b).sy.inReset = true
      ∧ ((islandClear cause (mainBlocks s)).at b).sy.cause = (if b = 0 ∨ b = 4 then cause else 0)
      ∧ ((islandClear cause (mainBlocks s)).at b).ch.fuse = (s.at b).ch.fuse
      ∧ ((islandClear cause (mainBlocks s)).at b).ch.keys = (s.at b).ch.keys := by
  have chart : ((iter allB flashCut s).at b).ch = (s.at b).ch := iter_flashCut_touch.at_ch (by decide) b
  rw [islandClear_at, mainBlocks_at, ← chart]
  generalize (iter allB flashCut s).at b = x
  exact ⟨rfl, rfl, rfl, rfl⟩

end

/-- Settles O1: each cause leads to the main reset, or to a change of the device's own state alone. -/
theorem mainResets : Obligations.MainResets := by
  refine ⟨fun s => ⟨?supplyGood, ?supplyLoss, ?pinLow, ?pinHigh, ?controllerReset, ?leave, ?load, ?testReset, ?idle⟩,
    fun s => ⟨?standbyLoss, ?standbyRise⟩⟩
  case supplyGood => exact fun stby => answers_updDev (exec_mainSupplyGood stby)
  case supplyLoss =>
    exact fun stby => answers_mainReset (Q := fun d => d.supplies = false) (exec_mainSupplyLoss s stby) (fun _ => rfl) (fun _ => rfl)
      (by rw [mainReset_dev]; rfl)
  case pinLow =>
    exact fun stby => answers_mainReset (Q := fun d => d.pinLow = true) (exec_resetNAssert s stby) (fun _ => rfl) (fun _ => rfl)
      (by rw [mainReset_dev]; rfl)
  case pinHigh => exact answers_updDev (f := fun d => { d with pinLow := false }) rfl
  case controllerReset =>
    exact fun busy => answers_mainReset (Q := fun d => d.rstBusy = false) (exec_controllerResetFire s busy) (fun _ => rfl)
      (fun _ => rfl) (by rw [mainReset_dev])
  case leave =>
    rintro i ⟨old, leaves⟩
    obtain ⟨blocks, tap⟩ := tapLoad_at_of_leaves (s := s.begin) old leaves
    exact answers_mainReset (Q := fun d => d.tap = i) (exec_tapInstructionLoad s i) blocks (fun _ => rfl) tap
  case load =>
    refine fun i stays => ⟨fun held => ?_, fun ⟨drives, cells⟩ => ?_⟩
    · exact answers_updDev (by rw [exec_tapInstructionLoad, tapLoad_plain (s := s.begin) stays held])
    · refine answers_of_run (exec_tapInstructionLoad s i) fun t _ e => ?_
      rw [tapLoad_drives (s := s.begin) stays drives cells] at e
      exact ⟨e.dev, e.agreeOff_begin (by decide) (updDev_touch (by decide) (State.draw_touch (by decide) Touch.refl))⟩
  case testReset =>
    intro old
    have leaves : s.dev.tap ≠ .idcode := by rcases old with tap | tap | tap <;> simp [tap]
    obtain ⟨blocks, tap⟩ := tapLoad_at_of_leaves (s := s.begin) old leaves
    obtain ⟨t, run, reset, -⟩ := answers_mainReset (s := s) (Q := fun _ => True) (exec_tapTestLogicReset s) blocks (fun _ => rfl) trivial
    exact ⟨t, run, reset⟩
  case idle =>
    intro idle
    refine answers_of_run (exec_tapTestLogicReset s) fun t _ e => ?_
    rw [tapLoad_plain (s := s.begin) (idle.imp id (Or.imp id Or.inl)) (.inl ⟨by decide, by decide⟩)] at e
    exact e.agreeOff_begin (by decide) (updDev_touch (by decide) Touch.refl)
  case standbyLoss =>
    refine answers_of_run (exec_vddStbyLoss s) fun t _ e => ⟨by rw [e.dev]; rfl, by rw [e.dev]; rfl, fun b => ?_⟩
    rw [e.at_eq, updDev_at]
    exact (islandClear_mainBlocks_at (s := s.begin)).1
  case standbyRise =>
    have island {b : BId} := islandClear_mainBlocks_at (s := s.begin) (cause := 1) (b := b)
    refine answers_of_run (exec_vddStbyReset s) fun t _ e =>
      ⟨by rw [e.dev]; rfl, by rw [e.at_eq, updDev_at]; exact island.2.1, by rw [e.at_eq, updDev_at]; exact island.2.1, fun b => ?_⟩
    obtain ⟨inReset, -, fuse, keys⟩ := island (b := b)
    rw [e.at_eq, updDev_at]
    exact ⟨inReset, fuse, keys⟩

end Sys2Proof.Machine

/-! The start of the berths and the election of the harbour (R112, R124 to R131). -/
namespace Sys2Proof.Machine
set_option Elab.async false

theorem sub_self {fs : List Piece} : fs ⊆ fs := List.Subset.refl fs

section
variable {s t : State} {b c n h : BId} {reach : Nat}

/-! ### Training under a clock (R127, R128) -/

/-- The SY_ block of a berth that takes its first clock from claimant b. -/
def trainedSy (b n : BId) (y : Sy) : Sy :=
  { y with
    st := .training, step := 2, clkSrc := b, isSrc := false, claims := false, order := clkOrder n b
    clkIn := (clkOrder n b).headD .lowNbr, clkLocked := true, holdover := false }

theorem tideStart_sy : ((tideStart b s).at c).sy = (s.at c).sy := (tideStart_touch sub_self .refl).at_sy (by decide) c

theorem tideStart_within : Within b s (tideStart b s) := by
  unfold tideStart
  exact .ite .refl .upd

theorem trainUnder_sy : ((trainUnder b n s).at c).sy = if n = c then trainedSy b n (s.at c).sy else (s.at c).sy := by
  rw [trainUnder, tideStart_sy, updSy_at]
  split
  · rfl
  · rfl

theorem trainUnder_within : Within n s (trainUnder b n s) := Within.trans .upd tideStart_within

/-- What a claim leaves of every berth: the straps and the PLL, and that a berth does not hold the harbour role. -/
structure ClaimKeeps (s t : State) : Prop where
  straps : ∀ c, (t.at c).sy.straps = (s.at c).sy.straps
  pll : ∀ c, (t.at c).sy.pll = (s.at c).sy.pll
  isHarbour : ∀ c, (t.at c).sy.isHarbour = (s.at c).sy.isHarbour
  training : ∀ c, (s.at c).sy.st = .training → (t.at c).sy.st = .training
  dev : t.dev = s.dev

theorem ClaimKeeps.refl : ClaimKeeps s s := ⟨fun _ => rfl, fun _ => rfl, fun _ => rfl, fun _ => id, rfl⟩

theorem ClaimKeeps.trans {u : State} (h : ClaimKeeps s t) (k : ClaimKeeps t u) : ClaimKeeps s u :=
  ⟨fun c => (k.straps c).trans (h.straps c), fun c => (k.pll c).trans (h.pll c),
    fun c => (k.isHarbour c).trans (h.isHarbour c), fun c m => k.training c (h.training c m), k.dev.trans h.dev⟩

theorem trainUnder_keeps : ClaimKeeps s (trainUnder b n s) := by
  have dev : (trainUnder b n s).dev = s.dev := trainUnder_within.dev
  refine ⟨fun c => ?_, fun c => ?_, fun c => ?_, fun c m => ?_, dev⟩ <;> rw [trainUnder_sy] <;> split <;> first | rfl | exact m

/-- The claim of one of the berths that it reaches, as far as it takes effect. -/
def claimOne (b n : BId) (t : State) : State :=
  let y := syOf t n
  if y.inReset || !(y.st == .inert || y.st == .training) || y.claims || follows t n b then t else trainUnder b n t

theorem claim_eq : claim b reach s = updSy b (fun y => { y with claims := true, isSrc := true }) (trainUnder b b
    (iter (allB.filter fun n => n != b && nbit reach n.val) (claimOne b) (updDev (fun d => { d with window := true }) s))) := rfl

theorem claimOne_keeps : ClaimKeeps t (claimOne b n t) := by
  unfold claimOne
  dsimp only
  split
  · exact .refl
  · exact trainUnder_keeps

theorem claim_keeps : ClaimKeeps (updDev (fun d => { d with window := true }) s) (claim b reach s) := by
  have reached : ClaimKeeps (updDev (fun d => { d with window := true }) s)
      (iter (allB.filter fun n => n != b && nbit reach n.val) (claimOne b) (updDev (fun d => { d with window := true }) s)) :=
    iter_induction .refl fun _ _ kept => kept.trans claimOne_keeps
  rw [claim_eq]
  refine (reached.trans trainUnder_keeps).trans ⟨fun c => ?_, fun c => ?_, fun c => ?_, fun c m => ?_, rfl⟩ <;>
    rw [updSy_at] <;> split <;> first | rfl | exact m

theorem claim_claimant : ((claim b reach s).at b).sy.claims = true ∧ ((claim b reach s).at b).sy.isSrc = true
    ∧ ((claim b reach s).at b).sy.st = .training := by
  rw [claim_eq, updSy_at, if_pos rfl]
  simp only [trainUnder_sy, if_true, trainedSy, and_self]

theorem claimB0_straps : ((claimB0 reach s).at c).sy.straps = (s.at c).sy.straps := by
  unfold claimB0
  split
  · exact claim_keeps.straps c
  · rfl

theorem claimB0_pll : ((claimB0 reach s).at c).sy.pll = (s.at c).sy.pll := by
  unfold claimB0
  split
  · exact claim_keeps.pll c
  · rfl

/-! ### What starts on a berth -/

theorem hasLoop_iff : hasLoop b = true ↔ b = 0 ∨ b = 4 := by simp [hasLoop]

theorem answers_mainResetRelease (supplies : s.dev.supplies = true) (pin : s.dev.pinLow = false)
    (inReset : (s.at b).sy.inReset = true) : Answers (.mainResetRelease b) s fun t =>
      (t.at b).sy = { (s.at b).sy with inReset := false, step := 1 } ∧ Keeps [b] s t := by
  have released : resetRelease b s.begin = if hasLoop b then tideStart b (updSy b (fun y => { y with inReset := false, step := 1 }) s.begin)
      else updSy b (fun y => { y with inReset := false, step := 1 }) s.begin := by
    simp [resetRelease, syOf, supplies, pin, inReset]
  refine answers_of_run rfl fun t queue e => ⟨?_, e.keeps queue (released ▸ .ofBegin (.ite (.trans .upd tideStart_within) .upd))⟩
  rw [e.at_eq, released]
  split
  · rw [tideStart_sy, updSy_at, if_pos rfl]; rfl
  · rw [updSy_at, if_pos rfl]; rfl

theorem answers_strapSampleDone {addr : Fin 8} {boot : Fin 4} {inh unstable : Bool} {reach : BitVec 8} (capable : b = 0 ∨ b = 4)
    (out : (s.at b).sy.inReset = false) (fresh : (s.at b).sy.straps.valid = false) :
    Answers (.strapSampleDone b addr boot inh unstable reach) s fun t =>
      (t.at b).sy.straps = ⟨addr.val, boot.val, inh, unstable, true⟩ := by
  refine answers_of_run rfl fun t _ e => ?_
  have sampled : ((updSy b (fun y => { y with straps := ⟨addr.val, boot.val, inh, unstable, true⟩ }) s.begin).at b).sy.straps =
      ⟨addr.val, boot.val, inh, unstable, true⟩ := by simp
  rw [e.at_eq, strapDone, syOf, State.begin_at, hasLoop_iff.mpr capable, out, fresh]
  rw [if_neg (by decide)]
  split
  · rw [claimB0_straps, sampled]
  · exact sampled

theorem answers_pllLock {reach : BitVec 8} (capable : b = 0 ∨ b = 4) (out : (s.at b).sy.inReset = false) :
    Answers (.pllLock b reach) s fun t => (t.at b).sy.pll = true := by
  refine answers_of_run rfl fun t _ e => ?_
  have locked : ((updSy b (fun y => { y with pll := true, clkLocked := y.clkLocked || y.isSrc }) s.begin).at b).sy.pll = true := by simp
  rw [e.at_eq, pllLock, syOf, State.begin_at, hasLoop_iff.mpr capable, out]
  rw [if_neg (by decide)]
  dsimp only
  split
  · rw [claimB0_pll, locked]
  split
  · exact (claim_keeps.pll b).trans locked
  · exact locked

theorem answers_b4ClaimWaitExpiry {reach : BitVec 8} (cand : candidate s 4 = true) (inert : (s.at 4).sy.st = .inert)
    (silent : (s.at 4).sy.claims = false) (nobody : s.harbour = none) : Answers (.b4ClaimWaitExpiry reach) s fun t =>
      t.dev = { s.dev with window := true } ∧ (t.at 4).sy.claims = true ∧ (t.at 4).sy.isSrc = true ∧ (t.at 4).sy.st = .training := by
  have claimed : b4Wait reach.toNat s.begin = claim 4 reach.toNat s.begin := by
    have cand' : candidate s.begin 4 = true := cand
    have nobody' : s.begin.harbour = none := nobody
    simp [b4Wait, syOf, cand', inert, silent, nobody']
  refine answers_of_run rfl fun t _ e => ?_
  rw [e.at_eq, e.dev, claimed]
  exact ⟨claim_keeps.dev, claim_claimant⟩

/-! ### The end of a collision (R127) -/

/-- Training berths one after another under B0. -/
theorem iter_trainUnder_sy {xs : List BId} (distinct : xs.Nodup) : ((iter xs (trainUnder b) s).at c).sy =
    if c ∈ xs then trainedSy b c (s.at c).sy else (s.at c).sy := by
  induction xs generalizing s with
  | nil => simp [iter_nil]
  | cons x xs ih =>
    obtain ⟨fresh, distinct⟩ := List.nodup_cons.mp distinct
    rw [iter_cons, ih distinct, trainUnder_sy]
    by_cases same : x = c
    · subst same; simp [fresh]
    · simp [same, Ne.symm same]

theorem iter_trainUnder_at_of_not_mem {xs : List BId} (out : c ∉ xs) : (iter xs (trainUnder b) s).at c = s.at c := by
  induction xs generalizing s with
  | nil => rfl
  | cons x xs ih =>
    obtain ⟨ne, out⟩ := List.ne_and_not_mem_of_not_mem_cons out
    rw [iter_cons, ih out, trainUnder_within.at_ne c ne]

theorem collision_eq (c0 : (s.at 0).sy.claims = true) (c4 : (s.at 4).sy.claims = true) : collision s =
    updSy 4 (fun y => { y with holdover := true, clkLocked := false, switchTo := some y.clkIn }) (trainUnder 0 4
      (iter (allB.filter fun n => n != 4 && (syOf s n).st == .training && (syOf s n).clkSrc == 4) (trainUnder 0) s)) := by
  simp [collision, syOf, c0, c4]

theorem answers_claimCollision (c0 : (s.at 0).sy.claims = true) (c4 : (s.at 4).sy.claims = true) : Answers .claimCollision s fun t =>
    (t.at 4).sy.claims = false ∧ (t.at 4).sy.isSrc = false ∧ (t.at 4).sy.clkSrc = 0 ∧ (t.at 4).sy.st = .training
      ∧ AgreeOff [.out, .sy, .td] s t ∧ ∀ n, n ≠ 4 →
        if (s.at n).sy.st = .training ∧ (s.at n).sy.clkSrc = 4 then (t.at n).sy.clkSrc = 0 ∧ (t.at n).sy.st = .training
        else t.at n = s.at n := by
  refine answers_of_run rfl fun t _ e => ?_
  rw [collision_eq (s := s.begin) c0 c4] at e
  have sy4 {u : State} : ((updSy 4 (fun y => { y with holdover := true, clkLocked := false, switchTo := some y.clkIn })
      (trainUnder 0 4 u)).at 4).sy = { trainedSy 0 4 (u.at 4).sy with
        holdover := true, clkLocked := false, switchTo := some (trainedSy 0 4 (u.at 4).sy).clkIn } := by
    rw [updSy_at, if_pos rfl, trainUnder_sy, if_pos rfl]
  refine ⟨by rw [e.at_eq, sy4]; rfl, by rw [e.at_eq, sy4]; rfl, by rw [e.at_eq, sy4]; rfl, by rw [e.at_eq, sy4]; rfl, e.agreeOff_begin (by decide) ?_, fun n ne => ?_⟩
  · exact updSy_touch (by decide) (trainUnder_touch (by decide)
      (Touch.iter (fun _ _ => trainUnder_touch (by decide)) .refl))
  have elsewhere : ∀ u : State, (updSy 4 (fun y => { y with holdover := true, clkLocked := false, switchTo := some y.clkIn })
      (trainUnder 0 4 u)).at n = u.at n := fun u => by rw [updSy_at, if_neg ne.symm, trainUnder_within.at_ne n ne]
  rw [e.at_eq, elsewhere]
  split
  next clocked =>
    have mem : n ∈ allB.filter fun n => n != 4 && (syOf s.begin n).st == .training && (syOf s.begin n).clkSrc == 4 := by
      simp [syOf, ne, clocked, show n ∈ allB by fin_cases n <;> decide]
    rw [iter_trainUnder_sy ((by decide : allB.Nodup).filter _), if_pos mem]
    exact ⟨rfl, rfl⟩
  next other =>
    rw [iter_trainUnder_at_of_not_mem (by simpa [syOf, ne] using fun _ => not_and.mp other), State.begin_at]

/-! ### The election (R129, R130) -/

theorem elect_dev : (elect h s).dev = s.dev := (elect_touch sub_self .refl).at_dev (by decide)

theorem elect_active : ((elect h s).at h).tw.active = true := by
  rw [elect, (usbFollow_touch sub_self .refl).at_tw (by decide), (updUs_touch sub_self .refl).at_tw (by decide), updTw_at, if_pos rfl]

theorem find_claimant (first : h = 0 ∨ h = 4 ∧ (s.at 0).sy.claims = false) (claims : (s.at h).sy.claims = true) :
    ([0, 4].find? fun b => (syOf s b).claims) = some h := by
  rcases first with rfl | ⟨rfl, silent⟩
  · simp [syOf, claims]
  · simp [syOf, claims, silent]

/-- What the end of the window makes of the berths before the election (R128). -/
def windowClosed (h : BId) (present segs chords : Nat) (s : State) : State :=
  let here (b : BId) : Bool := (syOf s b).st == .training && (b == h || nbit present b.val)
  let mask := maskOf 8 fun n => here (bid n)
  let cands := maskOf 8 fun n => candidate s (bid n)
  let s := updDev (fun d => { d with
    window := false, present := mask, skip := 255 - mask, elections := min 15 (d.elections + 1), candidates := cands }) s
  s.updAll fun b x =>
    if inRing s b then { x with
      rp := { x.rp with ports := trainPorts segs chords b }
      sy := { x.sy with st := .moored, step := 3, claims := false, silentMarks := 0 } }
    else if x.sy.st == .training then { x with sy := { x.sy with st := .inert, step := 1, clkLocked := false } }
    else x

theorem windowEnd_eq {present segs chords : Nat} (claimant : ([0, 4].find? fun b => (syOf s b).claims) = some h)
    (window : s.dev.window = true) : windowEnd present segs chords s =
      if (syOf (elect h (windowClosed h present segs chords s)) h).straps.boot == 0
      then chartLoad h (elect h (windowClosed h present segs chords s)) else elect h (windowClosed h present segs chords s) := by
  simp only [windowEnd, windowClosed, claimant, window, Bool.not_true, Bool.false_eq_true, if_false]

theorem maskOf_succ {k : Nat} {p : Nat → Bool} : maskOf (k + 1) p = 2 ^ k * b2n (p k) + maskOf k p := by
  simp only [maskOf, upto, List.range_succ, List.foldl_append, List.foldl_cons, List.foldl_nil]
  rw [Nat.add_comm, Nat.mul_comm]

theorem maskOf_lt {k : Nat} {p : Nat → Bool} : maskOf k p < 2 ^ k := by
  induction k with
  | zero => exact Nat.one_pos
  | succ k ih =>
    have bit : b2n (p k) ≤ 1 := by cases p k <;> decide
    rw [maskOf_succ, Nat.pow_succ]
    nlinarith

theorem nbit_maskOf {k i : Nat} {p : Nat → Bool} : nbit (maskOf k p) i = (decide (i < k) && p i) := by
  induction k with
  | zero => simp [maskOf, upto, nbit]
  | succ k ih =>
    rw [nbit, maskOf_succ, Nat.testBit_two_pow_mul_add _ maskOf_lt]
    rcases Nat.lt_trichotomy i k with lt | rfl | gt
    · rw [if_pos lt]
      simpa [nbit, lt, Nat.lt_succ_of_lt lt] using ih
    · cases bit : p i <;> simp [b2n]
    · have high : (b2n (p k)).testBit (i - k) = false :=
        Nat.testBit_lt_two_pow (Nat.lt_of_lt_of_le (by cases p k <;> decide : b2n (p k) < 2) (by
          calc 2 = 2 ^ 1 := rfl
            _ ≤ 2 ^ (i - k) := Nat.pow_le_pow_right (by decide) (by omega)))
      rw [if_neg (by omega), high]
      simp [show ¬ i < k + 1 by omega]

theorem windowClosed_dev {present segs chords : Nat} : (windowClosed h present segs chords s).dev = { s.dev with
    window := false, present := maskOf 8 fun n => (syOf s (bid n)).st == .training && (bid n == h || nbit present (bid n).val)
    skip := 255 - maskOf 8 fun n => (syOf s (bid n)).st == .training && (bid n == h || nbit present (bid n).val)
    elections := min 15 (s.dev.elections + 1), candidates := maskOf 8 fun n => candidate s (bid n) } := by
  rw [windowClosed, State.updAll_dev, updDev_dev]

theorem bid_val : bid b.val = b := by
  simp [bid]

/-- Loading the chart leaves the device's own state and the host ports. -/
theorem answers_trainingWindowEnd {present segs chords : BitVec 8} (window : s.dev.window = true)
    (first : h = 0 ∨ h = 4 ∧ (s.at 0).sy.claims = false) (claims : (s.at h).sy.claims = true) (training : (s.at h).sy.st = .training) :
    Answers (.trainingWindowEnd present segs chords) s fun t => t.dev.window = false
      ∧ t.dev.elections = min 15 (s.dev.elections + 1) ∧ nbit t.dev.present h.val = true ∧ (t.at h).tw.active = true := by
  refine answers_of_run rfl fun t _ e => ?_
  have ran := windowEnd_eq (s := s.begin) (present := present.toNat) (segs := segs.toNat) (chords := chords.toNat)
    (find_claimant first claims) window
  rw [ran] at e
  have elected : ∀ u : State, Touch [.sy, .ch] (elect h (windowClosed h present.toNat segs.toNat chords.toNat s.begin)) u →
      EndsAs u t → t.dev = (windowClosed h present.toNat segs.toNat chords.toNat s.begin).dev ∧ (t.at h).tw.active = true :=
    fun u loaded e => ⟨by rw [e.dev, loaded.at_dev (by decide), elect_dev], by
      rw [e.at_eq, loaded.at_tw (by decide), elect_active]⟩
  have outcome : t.dev = (windowClosed h present.toNat segs.toNat chords.toNat s.begin).dev ∧ (t.at h).tw.active = true := by
    split at e
    · exact elected _ (chartLoad_touch sub_self .refl) e
    · exact elected _ .refl e
  rw [outcome.1, windowClosed_dev]
  refine ⟨rfl, rfl, ?_, outcome.2⟩
  dsimp only
  rw [nbit_maskOf, bid_val, syOf, State.begin_at, training]
  simp

/-! ### A repeated election (R130) -/

/-- The SY_ block of a berth that returns to TRAINING. -/
def returnedSy (qspi lostRole : Bool) (y : Sy) : Sy :=
  { y with
    st := .training, step := 2, fail := 0, isHarbour := false, silentMarks := 0, joining := false, claims := false
    lostRole := lostRole, qspi := qspi }

theorem portsInert_sy : ((portsInert b s).at c).sy = if b = c then { (s.at c).sy with qspi := false } else (s.at c).sy := by
  have detached : ((usbDetach b s).at c).sy = (s.at c).sy := (usbDetach_touch sub_self .refl).at_sy (by decide) c
  rw [portsInert, (updTw_touch sub_self .refl).at_sy (by decide), updSy_at, apply_ite Berth.sy,
    (updUs_touch sub_self .refl).at_sy (by decide), detached]

/-- The host ports of a berth that holds the harbour role go inert as it returns to TRAINING. -/
def roleDropped (b : BId) (s : State) : State := if s.isHbr b then (portsInert b s).updTray b fun _ => {} else s

theorem roleDropped_touch : Touch [.out, .freeCtr, .sy, .rp, .log, .dk, .tw, .us, .tray] s (roleDropped b s) :=
  ite_touch (State.updTray_touch (by decide) (portsInert_touch (by decide) .refl)) .refl

theorem roleDropped_sy : ∃ q, ((roleDropped b s).at c).sy = { (s.at c).sy with qspi := q } := by
  unfold roleDropped
  split
  · rw [(State.updTray_touch sub_self .refl).at_sy (by decide), portsInert_sy]
    split
    · exact ⟨_, rfl⟩
    · exact ⟨_, rfl⟩
  · exact ⟨_, rfl⟩

theorem backToTraining_eq : backToTraining b s = if !(serving s b || (syOf s b).st == .training) then s else
    (updDev (fun d => { d with present := d.present &&& (255 - 2 ^ b.val) }) (roleDropped b s)).upd b fun x => { x with
      sy := { x.sy with st := .training, step := 2, fail := 0, isHarbour := false, silentMarks := 0, joining := false, claims := false
                        lostRole := x.sy.lostRole || s.isHbr b }
      td := { x.td with synced := false, held := false, load := none }
      ch := chartDiscard x.ch } := rfl

/-- A berth that serves returns to TRAINING and leaves the ring. -/
theorem backToTraining_of_moored (moored : (s.at b).sy.st = .moored) :
    (∃ q l, ((backToTraining b s).at b).sy = returnedSy q l (s.at b).sy)
      ∧ (backToTraining b s).dev = { s.dev with present := s.dev.present &&& (255 - 2 ^ b.val) } := by
  obtain ⟨q, dropped⟩ := roleDropped_sy (s := s) (b := b) (c := b)
  have serves : (!(serving s b || (syOf s b).st == .training)) = false := by simp [serving, syOf, moored]
  rw [backToTraining_eq, serves, if_neg Bool.false_ne_true]
  refine ⟨⟨q, (s.at b).sy.lostRole || s.isHbr b, ?_⟩, ?_⟩
  · rw [State.upd_at_self, updDev_at, dropped]
    rfl
  · rw [State.upd_dev, updDev_dev, roleDropped_touch.at_dev (by decide)]

/-- What a return to TRAINING leaves of every berth. -/
structure BackKeeps (s t : State) : Prop where
  sy : ∀ c, (t.at c).sy = (s.at c).sy ∨ ∃ q l, (t.at c).sy = returnedSy q l (s.at c).sy
  dev : ∃ mask, t.dev = { s.dev with present := s.dev.present &&& mask }

theorem BackKeeps.refl : BackKeeps s s := ⟨fun _ => .inl rfl, ⟨s.dev.present, by rw [Nat.and_self]⟩⟩

theorem BackKeeps.trans {u : State} (h : BackKeeps s t) (k : BackKeeps t u) : BackKeeps s u := by
  obtain ⟨m, hm⟩ := h.dev
  obtain ⟨m', hm'⟩ := k.dev
  refine ⟨fun c => ?_, ⟨m &&& m', by rw [hm', hm, Nat.and_assoc]⟩⟩
  rcases h.sy c with same | ⟨q, l, back⟩
  · rw [← same]; exact k.sy c
  · rcases k.sy c with same | ⟨q', l', again⟩
    · exact .inr ⟨q, l, same.trans back⟩
    · exact .inr ⟨q', l', by rw [again, back]; rfl⟩

theorem backToTraining_keeps : BackKeeps s (backToTraining b s) := by
  rw [backToTraining_eq]
  split
  · exact .refl
  refine ⟨fun c => ?_, ⟨255 - 2 ^ b.val, by rw [State.upd_dev, updDev_dev, roleDropped_touch.at_dev (by decide)]⟩⟩
  obtain ⟨q, dropped⟩ := roleDropped_sy (s := s) (b := b) (c := c)
  by_cases same : b = c
  · subst same
    refine .inr ⟨q, (s.at b).sy.lostRole || s.isHbr b, ?_⟩
    rw [State.upd_at_self, updDev_at, dropped]
    rfl
  · rw [State.upd_at_ne same, updDev_at]
    unfold roleDropped
    split
    · rw [(State.updTray_touch sub_self .refl).at_sy (by decide), portsInert_sy, if_neg same]
      exact .inl rfl
    · exact .inl rfl

theorem BackKeeps.inReset (h : BackKeeps s t) (c : BId) : (t.at c).sy.inReset = (s.at c).sy.inReset := by
  rcases h.sy c with same | ⟨q, l, back⟩
  · rw [same]
  · rw [back]; rfl

theorem BackKeeps.pll (h : BackKeeps s t) (c : BId) : (t.at c).sy.pll = (s.at c).sy.pll := by
  rcases h.sy c with same | ⟨q, l, back⟩
  · rw [same]
  · rw [back]; rfl

theorem BackKeeps.straps (h : BackKeeps s t) (c : BId) : (t.at c).sy.straps = (s.at c).sy.straps := by
  rcases h.sy c with same | ⟨q, l, back⟩
  · rw [same]
  · rw [back]; rfl

theorem BackKeeps.training (h : BackKeeps s t) (training : (s.at c).sy.st = .training) : (t.at c).sy.st = .training := by
  rcases h.sy c with same | ⟨q, l, back⟩
  · rw [same, training]
  · rw [back]; rfl

theorem BackKeeps.noHarbour (h : BackKeeps s t) (other : (s.at c).sy.isHarbour = false) : (t.at c).sy.isHarbour = false := by
  rcases h.sy c with same | ⟨q, l, back⟩
  · rw [same, other]
  · rw [back]; rfl

/-- The state after berth b has judged the harbour lost: it trains again, and the former harbour is excluded. -/
def judgedLost (b : BId) (s : State) : State :=
  updDev (fun d => { d with excluded := d.excluded ||| 2 ^ (syOf s b).harbour.val }) (backToTraining b s)

theorem electionRepeat_eq (unlocked : trayLocked s = false) (moored : (s.at b).sy.st = .moored) : electionRepeat b true s =
    if candidate (judgedLost b s) 4 then
      claim 4 0xFF (updDev (fun d => { d with skip := 0 }) (iter allB backToTraining (judgedLost b s)))
    else judgedLost b s := by
  unfold electionRepeat
  exact if_neg (by simp [syOf, unlocked, moored])

theorem nbit_and_mask {p : Nat} : nbit (p &&& (255 - 2 ^ b.val)) b.val = false := by
  have off : (255 - 2 ^ b.val).testBit b.val = false := by fin_cases b <;> rfl
  simp [nbit, off]

theorem judgedLost_spec (moored : (s.at b).sy.st = .moored) : ((judgedLost b s).at b).sy.st = .training
    ∧ ((judgedLost b s).at b).sy.isHarbour = false ∧ nbit (judgedLost b s).dev.present b.val = false
    ∧ nbit (judgedLost b s).dev.excluded (s.at b).sy.harbour.val = true := by
  obtain ⟨⟨q, l, back⟩, dev⟩ := backToTraining_of_moored moored
  rw [judgedLost, updDev_at, updDev_dev, back, dev]
  exact ⟨rfl, rfl, nbit_and_mask, by simp [nbit, syOf]⟩

theorem candidate_judgedLost (cand : candidate s 4 = true) (other : (s.at b).sy.harbour ≠ 4) :
    candidate (judgedLost b s) 4 = true := by
  have kept : BackKeeps s (backToTraining b s) := backToTraining_keeps
  obtain ⟨mask, dev⟩ := kept.dev
  have open4 : (2 ^ (s.at b).sy.harbour.val).testBit 4 = false := by
    generalize (s.at b).sy.harbour = h at other
    fin_cases h <;> first | rfl | exact absurd rfl other
  simp only [candidate, judgedLost, syOf, updDev_at, updDev_dev, kept.inReset, kept.pll, kept.straps, dev] at cand ⊢
  simpa [nbit, open4] using cand

theorem answers_electionRepeat (unlocked : trayLocked s = false) (moored : (s.at b).sy.st = .moored) :
    Answers (.electionRepeat b true) s fun t => nbit t.dev.excluded (s.at b).sy.harbour.val = true
      ∧ (t.at b).sy.st = .training ∧ (t.at b).sy.isHarbour = false ∧ nbit t.dev.present b.val = false
      ∧ (candidate s 4 = true ∧ (s.at b).sy.harbour ≠ 4 → t.dev.window = true ∧ (t.at 4).sy.claims = true) := by
  refine answers_of_run rfl fun t _ e => ?_
  rw [electionRepeat_eq (s := s.begin) unlocked moored] at e
  obtain ⟨training, role, present, excluded⟩ := judgedLost_spec (s := s.begin) moored
  split at e
  case isTrue claims4 =>
    have back : BackKeeps (judgedLost b s.begin) (iter allB backToTraining (judgedLost b s.begin)) :=
      iter_induction .refl fun _ _ kept => kept.trans backToTraining_keeps
    have claimed := claim_keeps (b := 4) (reach := 0xFF)
      (s := updDev (fun d => { d with skip := 0 }) (iter allB backToTraining (judgedLost b s.begin)))
    obtain ⟨mask, dev⟩ := back.dev
    have dev' := e.dev.trans claimed.dev
    rw [updDev_dev, updDev_dev, dev] at dev'
    have stays := claimed.training b
    have role' := claimed.isHarbour b
    rw [updDev_at, updDev_at] at stays role'
    rw [dev', e.at_eq, e.at_eq]
    refine ⟨excluded, stays (back.training training), role'.trans (back.noHarbour role), ?_, fun _ => ⟨rfl, claim_claimant.1⟩⟩
    have off : (judgedLost b s.begin).dev.present.testBit b.val = false := present
    simp [nbit, off]
  case isFalse noClaim =>
    rw [e.dev, e.at_eq]
    exact ⟨excluded, training, role, present, fun ⟨cand, other⟩ => absurd (candidate_judgedLost (s := s.begin) cand other) noClaim⟩

/-! ### A berth that joins late (R128, R131) -/

/-- The SY_ block of a berth that joins a ring whose harbour's clock comes from berth src. -/
def joinedSy (b src : BId) (y : Sy) : Sy :=
  { y with
    st := .training, step := 2, joining := true, clkSrc := src, order := clkOrder b src, clkIn := (clkOrder b src).headD .lowNbr
    clkLocked := true, holdover := false }

/-- The port at the other end of port p of the joining berth opens where it trained. -/
def openPeer (b : BId) (p : Nat) (t : State) : State :=
  updPort (portPeer b p) (portBack p) (fun q => if q.retired then q else { q with trained := (portOf t b p).trained }) t

theorem openPeers_touch : Touch [.rp] s (iter (upto 4) (openPeer b) s) :=
  Touch.iter (fun _ _ => updPort_touch (by decide)) .refl

theorem lateJoin_eq {segs chords : Nat} (harbour : s.harbour = some h) (out : (s.at b).sy.inReset = false)
    (inert : (s.at b).sy.st = .inert) (closed : s.dev.window = false) (back : nbit (s.at h).tray.hl.retired b.val = false) :
    lateJoin b segs chords s = tideStart b (iter (upto 4) (openPeer b)
      (updSy b (joinedSy b (syOf s h).clkSrc) (updRp b (fun y => { y with ports := trainPorts segs chords b }) s))) := by
  have joins : ((syOf s b).inReset || (syOf s b).st != .inert || s.dev.window
      || nbit (s.at h).tray.hl.retired b.val && !(syOf s b).joining) = false := by simp [syOf, out, inert, closed, back]
  simp only [lateJoin, harbour, joins, Bool.false_eq_true, if_false]
  rfl

theorem answers_lateBerthJoin {segs chords : BitVec 8} (harbour : s.harbour = some h) (out : (s.at b).sy.inReset = false)
    (inert : (s.at b).sy.st = .inert) (closed : s.dev.window = false) (back : nbit (s.at h).tray.hl.retired b.val = false) :
    Answers (.lateBerthJoin b segs chords) s fun t => (t.at b).sy.st = .training ∧ (t.at b).sy.joining = true
      ∧ (t.at b).sy.clkSrc = (s.at h).sy.clkSrc ∧ AgreeOff [.out, .sy, .rp, .td] s t := by
  refine answers_of_run rfl fun t _ e => ?_
  rw [lateJoin_eq (s := s.begin) harbour out inert closed back] at e
  have sy : (t.at b).sy = joinedSy b (s.at h).sy.clkSrc (s.at b).sy := by
    rw [e.at_eq, tideStart_sy, openPeers_touch.at_sy (by decide), updSy_at, if_pos rfl, (updRp_touch sub_self .refl).at_sy (by decide)]
    rfl
  refine ⟨by rw [sy]; rfl, by rw [sy]; rfl, by rw [sy]; rfl, e.agreeOff_begin (by decide) ?_⟩
  exact tideStart_touch (by decide) ((updSy_touch (by decide) (updRp_touch (by decide) .refl)).trans (openPeers_touch.mono (by decide)))

theorem answers_lateBerthJoin_training {segs chords : BitVec 8} (nobody : s.harbour = none)
    (first : c = 0 ∨ c = 4 ∧ (s.at 0).sy.claims = false) (claims : (s.at c).sy.claims = true) (window : s.dev.window = true)
    (out : (s.at b).sy.inReset = false) (inert : (s.at b).sy.st = .inert) :
    Answers (.lateBerthJoin b segs chords) s fun t => (t.at b).sy.st = .training ∧ (t.at b).sy.clkSrc = c
      ∧ AgreeOff [.out, .sy, .td] s t := by
  refine answers_of_run rfl fun t _ e => ?_
  have joined : lateJoin b segs.toNat chords.toNat s.begin = trainUnder c b s.begin := by
    have claimant := find_claimant (s := s.begin) first claims
    have nobody : s.begin.harbour = none := nobody
    rw [lateJoin, nobody, claimant]
    exact if_pos (by simp [syOf, window, out, inert])
  rw [joined] at e
  have sy : (t.at b).sy = trainedSy c b (s.at b).sy := by rw [e.at_eq, trainUnder_sy, if_pos rfl]; rfl
  exact ⟨by rw [sy]; rfl, by rw [sy]; rfl, e.agreeOff_begin (by decide) (trainUnder_touch (by decide) .refl)⟩

end

/-- Settles O2: each start command is traced through its operation; claims and returns leave what the next command asks of a berth. -/
theorem startAndElection : Obligations.StartAndElection := by
  refine ⟨fun s => ⟨?release, ?straps, ?pll, ?claim4, ?collides⟩, fun s => ⟨?window, ?again, ?late, ?joins⟩⟩
  case release => exact fun b ⟨supplies, pin, inReset⟩ => answers_mainResetRelease supplies pin inReset
  case straps => exact fun b addr boot inh unstable reach ⟨capable, out, fresh⟩ => answers_strapSampleDone capable out fresh
  case pll => exact fun b reach ⟨capable, out⟩ => answers_pllLock capable out
  case claim4 => exact fun reach ⟨cand, inert, silent, nobody⟩ => answers_b4ClaimWaitExpiry cand inert silent nobody
  case collides => exact fun ⟨c0, c4⟩ => answers_claimCollision c0 c4
  case window => exact fun present segs chords h ⟨window, first, claims, training⟩ =>
    answers_trainingWindowEnd window first claims training
  case again => exact fun b ⟨unlocked, moored⟩ => answers_electionRepeat unlocked moored
  case late => exact fun b h segs chords ⟨harbour, out, inert, closed, back⟩ => answers_lateBerthJoin harbour out inert closed back
  case joins => exact fun b c segs chords ⟨nobody, first, claims, window, out, inert⟩ =>
    answers_lateBerthJoin_training nobody first claims window out inert

end Sys2Proof.Machine

/-! Sending on the ring: what a berth's ports, its berth and the outputs hold afterwards (R20, R29). -/
namespace Sys2Proof.Machine
set_option Elab.async false

section
variable {s t : State} {b : BId} {p : Nat}

theorem updSy_within {f : Sy → Sy} : Within b s (updSy b f s) := by unfold updSy; exact .upd

theorem updRp_within {f : Rp → Rp} : Within b s (updRp b f s) := by unfold updRp; exact .upd

theorem updPort_within {f : RingPort → RingPort} : Within b s (updPort b p f s) := by rw [updPort_eq]; exact updRp_within

end

section
variable {s t u : State} {b c x src : BId} {dst : Option BId} {fs : List Flit} {m : Msg} {p q : Nat}

/-- The ports of t are those of s but for what they have sent: sequence numbers and replay buffers. -/
def PortsSent (s t : State) : Prop :=
  ∀ c p, ∃ tx rep, portOf t c p = { portOf s c p with txSeq := tx, replay := rep }

theorem PortsSent.refl : PortsSent s s := fun _ _ => ⟨_, _, rfl⟩

theorem PortsSent.trans (h : PortsSent s t) (k : PortsSent t u) : PortsSent s u := fun c p => by
  obtain ⟨_, _, first⟩ := h c p
  obtain ⟨tx, rep, second⟩ := k c p
  exact ⟨tx, rep, by rw [second, first]⟩

theorem portOf_of_rp (same : (t.at c).rp = (s.at c).rp) : portOf t c p = portOf s c p := by rw [portOf, portOf, same]

theorem EndsAs.portOf_eq (e : EndsAs u t) : portOf t c p = portOf u c p := portOf_of_rp (by rw [e.at_eq])

theorem State.emit_portOf {o : Output} : portOf (s.emit o) c p = portOf s c p := rfl

theorem portOf_updPort_self {f : RingPort → RingPort} (lt : p < 4) : portOf (updPort b p f s) b p = f (portOf s b p) := by
  simp [portOf, lt]

theorem portOf_updPort_ne {f : RingPort → RingPort} (ne : b ≠ c) : portOf (updPort b p f s) c q = portOf s c q := by
  simp [portOf, ne]

theorem portOf_updPort_or {f : RingPort → RingPort} :
    portOf (updPort b p f s) c q = f (portOf s c q) ∨ portOf (updPort b p f s) c q = portOf s c q := by
  by_cases same : b = c
  · subst same
    simp only [portOf, updPort_eq, updRp_at, if_true]
    exact vget_vmod_or
  · exact .inr (portOf_updPort_ne same)

theorem updPort_portSends_portsSent : PortsSent s (updPort b p (portSends fs) s) := fun c q => by
  rcases portOf_updPort_or (s := s) (b := b) (p := p) (c := c) (q := q) (f := portSends fs) with sent | same
  · exact ⟨_, _, sent⟩
  · exact ⟨_, _, same⟩

theorem sendFlits_portsSent : PortsSent s (sendFlits src dst fs x s) :=
  iter_induction .refl fun _ _ sent => sent.trans updPort_portSends_portsSent

@[simp] theorem sendFlits_out : (sendFlits src dst fs x s).out = s.out := (sendFlits_touch sub_self .refl).at_out (by decide)

theorem sendFlits_within : Within x s (sendFlits src dst fs x s) := Within.iter fun _ _ => updPort_within

theorem updRp_portsSent_held {held : List (Option BId × Msg) → List (Option BId × Msg)} :
    PortsSent s (updRp b (fun y => { y with held := held y.held }) s) := fun c p => by
  refine ⟨(portOf s c p).txSeq, (portOf s c p).replay, ?_⟩
  simp only [portOf, updRp_at]
  split
  · rfl
  · rfl

theorem ringPut_portsSent : PortsSent s (ringPut src dst m s) := sendFlits_portsSent

theorem ringSend_portsSent : PortsSent s (ringSend src dst m s) := by
  unfold ringSend
  split
  · exact updRp_portsSent_held (held := (· ++ [(dst, m)]))
  · exact ringPut_portsSent

theorem ringPut_out : (ringPut src dst m s).out = s.out ++ [.ring src dst m] := by
  rw [ringPut, State.emit_out, sendFlits_out]

theorem ringPut_within : Within src s (ringPut src dst m s) := sendFlits_within.trans .emit

theorem ringSend_within : Within src s (ringSend src dst m s) := .ite updRp_within ringPut_within

theorem ringSend_of_clock (clock : (s.at src).sy.holdover = false) : ringSend src dst m s = ringPut src dst m s := by
  rw [ringSend, clock, if_neg Bool.false_ne_true]

theorem ringSend_out_of_clock (clock : (s.at src).sy.holdover = false) :
    (ringSend src dst m s).out = s.out ++ [.ring src dst m] := by
  rw [ringSend_of_clock clock, ringPut_out]

/-- What was sent out stays sent out. -/
theorem mem_ringSend_out {o : Output} (mem : o ∈ s.out) : o ∈ (ringSend src dst m s).out := by
  unfold ringSend
  split
  · exact mem
  · rw [ringPut_out]; exact List.mem_append_left _ mem

theorem ringSend_sy : ((ringSend src dst m s).at c).sy = (s.at c).sy := (ringSend_touch sub_self .refl).at_sy (by decide) c

end

/-! ### Flits in and out of sequence (R20, R21) -/

section
variable {s t u : State} {b : BId} {p : Nat} {seq : Nat}

theorem carries_begin {q : Nat} : carries s.begin b q = carries s b q := rfl

theorem portOf_begin {q : Nat} : portOf s.begin b q = portOf s b q := rfl

/-- Berth b after a flit in sequence at port p, before it is relayed. -/
def flitTaken (b : BId) (p : Nat) (s : State) : State :=
  updSy b (fun y => { y with silentSeen := y.silentSeen &&& (255 - 2 ^ (portPeer b p).val) })
    (updPort b p (fun q => { q with rxSeq := (q.rxSeq + 1) % 256, asked := false }) s)

theorem flitReceive_inSequence (runs : carries s b p = true) (next : seq = (portOf s b p).rxSeq) :
    flitReceive b p seq true s = relay b (flitAt (portOf s (portPeer b p) (portBack p)) seq) (flitTaken b p s) := by
  simp only [flitReceive, runs, next, Bool.not_true, Bool.false_eq_true, if_false, BEq.rfl, Bool.and_self, if_true]
  rfl

theorem relay_within {f : Option Flit} : Within b s (relay b f s) := by
  unfold relay
  split
  · exact .ite .refl sendFlits_within
  · exact .refl

theorem relay_portsSent {f : Option Flit} : PortsSent s (relay b f s) := by
  unfold relay
  split
  · split
    · exact .refl
    · exact sendFlits_portsSent
  · exact .refl

theorem relay_out {f : Option Flit} : (relay b f s).out = s.out := (relay_touch sub_self .refl).at_out (by decide)

theorem portOf_flitTaken (lt : p < 4) : portOf (flitTaken b p s) b p =
    { portOf s b p with rxSeq := ((portOf s b p).rxSeq + 1) % 256, asked := false } := by
  rw [flitTaken, portOf_of_rp ((updSy_touch sub_self .refl).at_rp (by decide) b), portOf_updPort_self lt]

theorem flitTaken_within : Within b s (flitTaken b p s) := updPort_within.trans updSy_within

theorem flitReceive_outOfSequence {crcOk : Bool} (runs : carries s b p = true) (bad : crcOk = false ∨ seq ≠ (portOf s b p).rxSeq)
    (fresh : (portOf s b p).asked = false) : flitReceive b p seq crcOk s =
      (updPort b p (fun q => { q with asked := true }) s).emit (.replayReq b p (portOf s b p).rxSeq) := by
  have test : (crcOk && seq == (portOf s b p).rxSeq) = false := by rcases bad with bad | bad <;> simp [bad]
  simp [flitReceive, runs, test, fresh]

/-- A replay that is served: its flits go out again and count in SY_RING_RETRY. -/
theorem replayRequest_served {n : Nat} (runs : carries s b p = true) (back : n = ((portOf s b p).txSeq + 256 - seq) % 256)
    (pos : 0 < n) (le : n ≤ (portOf s b p).replay.length) :
    .resend b p seq n ((portOf s b p).replay.drop ((portOf s b p).replay.length - n)) ∈ (replayRequest b p seq s).out
      ∧ ((replayRequest b p seq s).at b).sy.ringRetry = ((s.at b).sy.ringRetry + n) % 2 ^ 64 := by
  have test : (!carries s b p || n == 0 || decide (n > (portOf s b p).replay.length)) = false := by
    simp [runs, pos.ne', le]
  unfold replayRequest
  extract_lets q n' ev counted sent noted
  have same : n' = n := back.symm
  rw [same, if_neg (by simpa only [q] using Bool.eq_false_iff.mp test)]
  have mem : Output.resend b p seq n (q.replay.drop (q.replay.length - n)) ∈ noted.out := by
    simp [noted, sent, counted, same]
  have retry : (noted.at b).sy.ringRetry = ((s.at b).sy.ringRetry + n) % 2 ^ 64 := by
    simp [noted, sent, counted, same]
  split
  · exact ⟨mem_ringSend_out mem, by rw [notice, ringSend_sy, retry]⟩
  · exact ⟨mem, retry⟩

theorem portPeer_ne {p : Fin 4} : portPeer b p.val ≠ b := by
  revert b p
  decide

end

/-- Settles O3: what a port receives and sends again changes the berth of that port alone; without a clock nothing passes. -/
theorem ringTransport : Obligations.RingTransport := by
  refine ⟨fun s b p seq runs => ⟨?inSequence, ?outOfSequence, ?replay⟩, fun s b p seq crcOk holdover => ⟨?noFlit, ?noReplay⟩,
    fun s b p training => ?trained⟩
  case inSequence =>
    intro next
    refine answers_of_run rfl fun t queue e => ?_
    rw [flitReceive_inSequence (s := s.begin) runs next] at e
    obtain ⟨tx, rep, sent⟩ := relay_portsSent (s := flitTaken b p.val s.begin) (b := b)
      (f := flitAt (portOf s.begin (portPeer b p.val) (portBack p.val)) seq.toNat) b p.val
    have port : portOf t b p.val = _ := e.portOf_eq.trans (sent.trans (by rw [portOf_flitTaken p.isLt]))
    refine ⟨by rw [port]; rfl, by rw [port], by rw [e.out, relay_out]; rfl, e.keeps queue (.ofBegin (flitTaken_within.trans relay_within)), e.agreeOff_begin (by decide) ?_⟩
    exact relay_touch (by decide) (updSy_touch (by decide) (updPort_touch (by decide) .refl))
  case outOfSequence =>
    rintro crcOk ⟨bad, fresh⟩
    refine answers_of_run rfl fun t queue e => ?_
    rw [flitReceive_outOfSequence (s := s.begin) runs bad fresh] at e
    have port : portOf t b p.val = { portOf s b p.val with asked := true } :=
      by rw [e.portOf_eq, State.emit_portOf, portOf_updPort_self p.isLt, portOf_begin]
    exact ⟨e.out, by rw [port], by rw [port], e.keeps queue (.ofBegin (updPort_within.trans .emit))⟩
  case replay =>
    rintro n ⟨back, pos, le⟩
    obtain ⟨mem, retry⟩ := replayRequest_served (s := s.begin) runs back pos le
    refine answers_of_run rfl fun t _ e => ⟨?_, ?_, e.agreeOff_begin (by decide) (replayRequest_touch (by decide) .refl)⟩
    · rw [e.out]; exact mem
    · rw [e.at_eq]; exact retry
  case noFlit =>
    have still : flitReceive b p.val seq.toNat crcOk s.begin = s.begin := by simp [flitReceive, carries, syOf, holdover]
    exact ⟨_, congrArg (ran s) still, rfl⟩
  case noReplay =>
    have still : replayRequest b p.val seq.toNat s.begin = s.begin := by simp [replayRequest, carries, syOf, holdover]
    exact ⟨_, congrArg (ran s) still, rfl⟩
  case trained =>
    refine answers_of_run rfl fun t queue e => ?_
    have joined : portTrained b p.val s.begin = updPort (portPeer b p.val) (portBack p.val)
        (fun q => if q.retired then q else { q with training := false, ready := true, replay := [], txSeq := 0, rxSeq := 0, asked := false })
        (updPort b p.val
          (fun q => { q with training := false, ready := true, replay := [], txSeq := 0, rxSeq := 0, asked := false }) s.begin) := by
      unfold portTrained
      exact if_neg (by simpa [portOf_begin] using training)
    rw [joined] at e
    have port : portOf t b p.val =
        { portOf s b p.val with training := false, ready := true, replay := [], txSeq := 0, rxSeq := 0, asked := false } :=
      by rw [e.portOf_eq, portOf_updPort_ne portPeer_ne, portOf_updPort_self p.isLt, portOf_begin]
    refine ⟨by rw [port], by rw [port], by rw [port], by rw [port], queue, e.now, e.freeCtr, e.dev, fun c out => ?_⟩
    have away : c ≠ b ∧ c ≠ portPeer b p.val := by simpa using out
    rw [e.at_eq, updPort_eq, updPort_eq, updRp_at, if_neg away.2.symm, updRp_at, if_neg away.1.symm, State.begin_at]

end Sys2Proof.Machine

/-! The engines and loaders in the background leave every berth its state in SY_ and its pilot (R137, R247, R287). -/
namespace Sys2Proof.Machine
set_option Elab.async false

/-- What acts in the background leaves of every berth: of SY_ all but the outcome of the image loads, and of the pilot all but its
pending interrupts and its reservation. -/
structure Background (s t : State) : Prop where
  sy : ∀ c, ∃ fail images, (t.at c).sy = { (s.at c).sy with fail := fail, images := images }
  pl : ∀ c, ∃ pend resv, (t.at c).pl = { (s.at c).pl with irqPend := pend, resv := resv }

section
variable {r s t : State} {b c home : BId} {fs : List Piece}

theorem Background.refl : Background s s := ⟨fun _ => ⟨_, _, rfl⟩, fun _ => ⟨_, _, rfl⟩⟩

theorem Background.trans {u : State} (h : Background s t) (k : Background t u) : Background s u := by
  refine ⟨fun c => ?_, fun c => ?_⟩
  · obtain ⟨_, _, first⟩ := h.sy c
    obtain ⟨f, i, second⟩ := k.sy c
    exact ⟨f, i, by rw [second, first]⟩
  · obtain ⟨_, _, first⟩ := h.pl c
    obtain ⟨p, v, second⟩ := k.pl c
    exact ⟨p, v, by rw [second, first]⟩

theorem Background.touch (h : Background r s) (k : Touch fs s t) (sy : .sy ∉ fs := by decide) (pl : .pl ∉ fs := by decide) :
    Background r t :=
  h.trans ⟨fun c => ⟨_, _, k.at_sy sy c⟩, fun c => ⟨_, _, k.at_pl pl c⟩⟩

theorem Background.iter {α : Type} {xs : List α} {f : α → State → State} (h : Background r s)
    (step : ∀ x t, Background r t → Background r (f x t)) : Background r (iter xs f s) := iter_induction h fun x t => step x t

theorem Background.ite {p : Prop} [Decidable p] (ht : Background r s) (hu : Background r t) :
    Background r (if p then s else t) := by
  split
  · exact ht
  · exact hu

/-! ### What acts in the background -/

theorem irq_background {bit : Nat} (h : Background r s) : Background r (irq b bit s) := by
  refine h.trans ⟨fun c => ⟨_, _, (irq_touch sub_self .refl).at_sy (by decide) c⟩, fun c => ?_⟩
  rw [irq, State.updPl, State.upd_at]
  split
  · exact ⟨_, _, rfl⟩
  · exact ⟨_, _, rfl⟩

theorem breakResv_pl {x : Berth} {o n : Nat} : ∃ resv, (x.breakResv o n).pl = { x.pl with resv := resv } := by
  unfold Berth.breakResv
  split
  · split
    · exact ⟨_, rfl⟩
    · exact ⟨_, rfl⟩
  · exact ⟨_, rfl⟩

theorem deckWrite_background {o : Nat} {bs : List Byte} (h : Background r s) : Background r (s.deckWrite b o bs) := by
  refine h.trans ⟨fun c => ⟨_, _, (State.deckWrite_touch sub_self .refl).at_sy (by decide) c⟩, fun c => ?_⟩
  rw [State.deckWrite, State.upd_at]
  split
  · obtain ⟨resv, kept⟩ := breakResv_pl (x := { s.at c with deck := memWrite ramD (s.at c).deck o bs }) (o := 0x100000 + o) (n := bs.length)
    exact ⟨_, resv, kept⟩
  · exact ⟨_, _, rfl⟩

theorem startFail_background {role : Nat} (h : Background r s) : Background r (startFail role s) := by
  refine h.iter fun b t k => ?_
  dsimp only
  split
  · refine k.trans ⟨fun c => ?_, fun c => ?_⟩ <;> rw [State.upd_at] <;> split
    all_goals exact ⟨_, _, rfl⟩
  · exact k

theorem roleFails_background {role : Nat} (h : Background r s) : Background r (roleFails role s) :=
  .ite h (startFail_background (h.touch (setImgSt_touch sub_self .refl)))

/-! ### Array orders -/

theorem arEnd_background {result : Nat} {st : ArrSt} (h : Background r s) : Background r (arEnd b result st s) := by
  unfold arEnd
  extract_lets e s1 s2
  have ended : Background r s1 := .ite (h.touch (updArr_touch sub_self .refl)) h
  exact irq_background ((ended.touch (updAr_touch sub_self .refl)).touch (logRec_touch sub_self .refl))

theorem arFail_background {half : Bool} {result : Nat} (h : Background r s) : Background r (arFail b half result s) :=
  arEnd_background (.ite (h.touch (updArr_touch sub_self .refl)) h)

theorem startRow_background {row : Nat} (h : Background r s) : Background r (startRow b row s) := by
  unfold startRow
  extract_lets e a fresh n src bytes s1
  split
  · exact arFail_background (h.touch (updAr_touch sub_self .refl))
  · have read : Background r s1 := .ite (h.touch (updAr_touch sub_self .refl)) h
    exact read.touch (updAr_touch sub_self .refl)

theorem startProg_background {k first : Nat} (h : Background r s) : Background r (startProg b k first s) := by
  unfold startProg
  extract_lets pl s1 s2 s3
  have planned : Background r s2 := (h.touch (updArr_touch sub_self .refl)).touch (updAr_touch sub_self .refl)
  have noted : Background r s3 := .ite (planned.touch (arrEvent_touch sub_self .refl)) planned
  exact .ite (arEnd_background noted) (startRow_background noted)

theorem startRepair_background {k : Nat} (h : Background r s) : Background r (startRepair b k s) := by
  unfold startRepair
  extract_lets a pl s1 s2
  have planned : Background r s1 := h.touch (updAr_touch sub_self .refl)
  have noted : Background r s2 := .ite (planned.touch (arrEvent_touch sub_self .refl)) planned
  exact .ite (arEnd_background noted) (.ite (arFail_background noted) (.ite (arEnd_background noted) (startRow_background noted)))

theorem orderStart_background (h : Background r s) : Background r (orderStart b s) := by
  unfold orderStart
  extract_lets e
  split
  · exact h
  · split
    · exact startProg_background h
    · exact startRow_background h
    · exact startRepair_background h

theorem arOrder_background {req : ReqId} {cmd k first : Nat} (h : Background r s) : Background r (arOrder b req cmd k first s) := by
  unfold arOrder
  extract_lets rf s1 s2
  have noted : Background r s1 := h.touch (arResult_touch sub_self .refl)
  have begun : Background r s2 := noted.touch (arBegin_touch sub_self .refl)
  split
  · exact h
  · split
    · exact h.touch (arResult_touch sub_self .refl)
    · split
      · exact arEnd_background ((h.touch (arResult_touch sub_self .refl)).touch (updAr_touch sub_self .refl))
      · split
        · exact noted.touch (updArr_touch sub_self .refl)
        · split
          · exact begun.touch (updAr_touch sub_self .refl)
          · exact orderStart_background (begun.touch (updAr_touch sub_self .refl))

theorem runEnds_background {pl : List Place} (h : Background r s) : Background r (runEnds pl s) := by
  refine h.iter fun p t k => ?_
  dsimp only
  split
  · exact k
  · have left : Background r (iter (arrOf t p.berth p.arr).retPend (fun c u => applyRetire p.berth p.arr c u) t) :=
      k.iter fun _ _ k => k.touch (applyRetire_touch sub_self .refl)
    exact orderStart_background (.ite (left.touch (arrRetire_touch sub_self .refl)) left)

theorem arLeave_background (h : Background r s) : Background r (arLeave b s) := by
  unfold arLeave
  refine Background.touch ?_ (updAr_touch sub_self .refl)
  split
  · exact h
  · exact arFail_background h

/-! ### Graphs and their loads -/

theorem dropInf_background {g : Nat} (h : Background r s) : Background r (dropInf b g s) :=
  runEnds_background (h.touch (updGraph_touch sub_self .refl))

theorem setGst_background {g cause : Nat} {st : GSt} (h : Background r s) : Background r (setGst b g st cause s) := by
  unfold setGst
  extract_lets old s1 s2
  have set : Background r s1 := h.touch (updGraph_touch sub_self .refl)
  have told : Background r s2 := .ite (set.touch (attn_touch sub_self .refl)) set
  exact .ite set (irq_background (told.touch (logRec_touch sub_self .refl)))

theorem emptyGraph_background {g cause : Nat} (h : Background r s) : Background r (emptyGraph b g cause s) :=
  (setGst_background (dropInf_background h)).touch (updGraph_touch sub_self .refl)

theorem replaceFails_background {g cause : Nat} (h : Background r s) : Background r (replaceFails b g cause s) :=
  (setGst_background ((dropInf_background h).touch (updGraph_touch sub_self .refl))).touch (writeSafe_touch sub_self .refl)

theorem loadAborted_background {g berth : Nat} (h : Background r s) : Background r (loadAborted g berth home s) := by
  unfold loadAborted
  extract_lets gr n
  have told := ((h.touch (State.draw_touch sub_self .refl)).touch (updPg_touch (b := n) (f := fun p =>
    { p with errCode := 8, errTarget := g, errBerth := berth, errIndex := 0xFFFF }) sub_self .refl)).touch
    (logLoad_touch (b := n) (g := g) (code := 8) (berth := berth) (gr := gr) (img := imgOf gr) sub_self .refl)
  exact startFail_background ((told.iter fun _ _ k => emptyGraph_background k).touch (setImgSt_touch sub_self .refl))

theorem tileFailed_background {g i : Nat} (h : Background r s) : Background r (tileFailed home g i s) := by
  unfold tileFailed
  extract_lets gr
  split
  · exact h
  · extract_lets s1
    have noted : Background r s1 := h.touch (updGraph_touch sub_self .refl)
    split
    · exact noted.touch (updGraph_touch sub_self .refl)
    · exact .ite (loadAborted_background noted) (replaceFails_background noted)

theorem loaderDone_background (h : Background r s) : Background r (loaderDone b s) := by
  unfold loaderDone
  split
  · exact h
  · split
    · exact h
    · extract_lets s1 gr
      have freed : Background r s1 :=
        (h.touch (updPg_touch sub_self .refl)).iter fun _ _ k => k.touch (deckRelease_touch sub_self .refl)
      split
      · exact freed
      · exact .ite freed (.ite (tileFailed_background freed)
          ((freed.touch (updGraph_touch sub_self .refl)).touch (setProg_touch sub_self .refl)))

theorem loaderStart_background {g i : Nat} (h : Background r s) : Background r (loaderStart b home g i s) := by
  unfold loaderStart
  extract_lets gr k n bs
  split
  · exact tileFailed_background h
  · split
    · exact h
    · rename_i j u took
      extract_lets s1 verify s2 s3
      have held : Background r u := h.touch (takeRun_touch_some sub_self took .refl)
      have stored : Background r s1 := deckWrite_background (held.touch (dataSend_touch sub_self .refl))
      have ready : Background r s3 := ((stored.touch (updAr_touch sub_self .refl)).touch (setProg_touch sub_self .refl)).touch
        (updPg_touch sub_self .refl)
      exact loaderDone_background (arOrder_background ready)

theorem loaderPump_background {n : Nat} (h : Background r s) : Background r (loaderPump b n s) := by
  induction n generalizing s with
  | zero => exact h
  | succ n ih =>
    unfold loaderPump
    split
    · exact h
    · split
      · exact h
      · extract_lets s'
        have started : Background r s' := loaderStart_background h
        exact .ite started (ih started)

theorem loadersPump_background (h : Background r s) : Background r (loadersPump s) :=
  h.iter fun _ _ k => loaderPump_background k

theorem afterArray_background (h : Background r s) : Background r (afterArray b s) := by
  unfold afterArray
  split
  · exact loaderPump_background h
  · exact loadersPump_background (loaderDone_background h)

theorem enginesEnd_background (h : Background r s) : Background r (enginesEnd b s) := afterArray_background (arLeave_background h)

/-! ### A takeover places and loads graphs again (R293, R298) -/

theorem rePlace_background {g cause : Nat} (h : Background r s) : Background r (rePlace b g cause s) := by
  unfold rePlace
  extract_lets gr
  split
  · exact .ite (loadAborted_background h) (replaceFails_background h)
  · dsimp only
    exact loadersPump_background (setGst_background ((dropInf_background h).touch (updGraph_touch sub_self .refl)))

theorem startLoad_background {g cause : Nat} {img : GImage} {base : Option Nat} {pl : List Place} (h : Background r s) :
    Background r (startLoad b g img base pl cause s) :=
  setGst_background (h.touch (updGraph_touch sub_self .refl))

theorem unloadTarget_background {g : Nat} (h : Background r s) : Background r (unloadTarget g s) := by
  unfold unloadTarget
  extract_lets s1
  have emptied : Background r s1 := h.iter fun _ _ k => emptyGraph_background (k.touch (writeSafe_touch sub_self .refl))
  exact .ite (emptied.touch (clearStats_touch sub_self .refl)) emptied

theorem policyLoad_background {g base : Nat} {role : ImgRole} {bs : List Byte} (h : Background r s) :
    Background r (policyLoad b g base role bs s) := by
  have refused {u : State} {code berth i : Nat} {img : GImage} (k : Background r u) :
      Background r (loadRefused b g code berth i img u) := k.touch (loadRefused_touch sub_self .refl)
  have takes {u : State} {v : ImgRole} (k : Background r u) : Background r (loadersPump (roleTakes (g + 1) v u)) :=
    loadersPump_background (k.touch (roleTakes_touch sub_self .refl))
  unfold policyLoad
  extract_lets image img busy v
  split
  · exact refused h
  · split
    · exact roleFails_background (refused h)
    · have drawn : Background r s.draw.2 := h.touch (State.draw_touch sub_self .refl)
      dsimp only
      have slots {xs : List BId} {store : Option Nat} {place : BId → List Place} : Background r (iter xs (fun b t =>
          startLoad b g img store (place b) (s.draw.1.toNat % 256) t) (unloadTarget g s.draw.2)) :=
        (unloadTarget_background drawn).iter fun _ _ k => startLoad_background k
      split
      · split
        · exact roleFails_background (refused drawn)
        · exact takes slots
      · split
        · exact roleFails_background (refused drawn)
        · exact takes (startLoad_background (unloadTarget_background drawn))

theorem reload_background {g : Nat} (h : Background r s) : Background r (reload b g s) := by
  unfold reload
  split
  · exact h
  · dsimp only
    split
    · exact loadAborted_background h
    · exact policyLoad_background (h.iter fun _ _ k => emptyGraph_background k)

theorem policyTakeover_background (h : Background r s) : Background r (policyTakeover b s) := by
  have graphs {f : Nat → BId → State → Graph → Graph} {bs : List BId} {u : State} (k : Background r u) : Background r (Machine.iter [0, 1]
      (fun g t => Machine.iter bs (fun b u => updGraph b g (f g b u) u) t) u) :=
    k.iter fun _ _ k => k.iter fun _ _ k => k.touch (updGraph_touch sub_self .refl)
  unfold policyTakeover
  extract_lets copy s1 s2 s3
  have own : Background r s1 := graphs (f := fun _ _ _ gr => if (imgOf gr).slotScope then gr else {}) h
  have taken : Background r s2 := own.iter fun g t k => by
    dsimp only
    exact .ite k (k.touch (updGraph_touch sub_self .refl))
  have stores : Background r s3 := graphs (f := fun _ _ u gr => { gr with store := gr.img.bind (findStore u) }) taken
  exact stores.iter fun g t k => by
    dsimp only
    exact .ite (rePlace_background k) (reload_background k)

end

end Sys2Proof.Machine

/-! Retirement, isolation, the takeover and the forwarded clock (R18, R24 to R31). -/
namespace Sys2Proof.Machine
set_option Elab.async false

section
variable {s t u : State} {b c n h : BId} {fs : List Piece}

/-! ### Retirement (R24, R25) -/

@[simp] theorem inRing_begin : inRing s.begin n = inRing s n := rfl

@[simp] theorem adjacent_begin : adjacent s.begin b n = adjacent s b n := rfl

theorem nbit_or_self {m : Nat} : nbit (m ||| 2 ^ b.val) b.val = true := by
  rw [nbit, Nat.testBit_or, Nat.testBit_two_pow_self, Bool.or_true]

theorem leaveRing_dev : (leaveRing n s).dev =
    { s.dev with present := s.dev.present &&& (255 - 2 ^ n.val), skip := s.dev.skip ||| 2 ^ n.val } := by
  unfold leaveRing
  exact (deckLeave_touch (fs := [.out, .sy, .rp, .dk]) (by decide) (clockBypass_touch (by decide) (chordResend_touch (by decide) .refl))).at_dev
    (by decide)

theorem leaveRing_bypassed : nbit (leaveRing n s).dev.present n.val = false ∧ nbit (leaveRing n s).dev.skip n.val = true := by
  rw [leaveRing_dev]
  exact ⟨nbit_and_mask, nbit_or_self⟩

theorem retired_sy : ((retired b s).at b).sy.st = .retired ∧ ((retired b s).at b).sy.bypassAt = none := by
  unfold retired
  simp only [updRp_at, updSy_at, if_true, and_self]

theorem retired_dev : (retired b s).dev = s.dev := (retired_touch sub_self .refl).at_dev (by decide)

theorem sendBypass_sy : ((sendBypass b s).at b).sy = { (s.at b).sy with bypassAt := some (markCount (s.at b).td + 3) } := by
  rw [sendBypass, ringSend_sy, updSy_at, if_pos rfl]
  rfl

theorem sendBypass_within : Within b s (sendBypass b s) := updSy_within.trans ringSend_within

theorem bypassNotice_of_done (order : (s.at b).sy.retireOrder = true) (noBypass : (s.at b).sy.bypassAt = none) (done : slotDone s b = true)
    (ring : inRing s b = true) : bypassNotice b s = sendBypass b s := by
  simp [bypassNotice, syOf, order, noBypass, done, ring]

theorem inertOutputs_rails : ((inertOutputs b s).at b).rl.rails = (s.at b).rl.rails.map fun l => { l with en := false } := by
  unfold inertOutputs
  extract_lets s1
  rw [(zoneUpdate_touch sub_self .refl).at_rl (by decide), (State.updCl_touch sub_self .refl).at_rl (by decide),
    (slotInert_touch sub_self .refl).at_rl (by decide), State.updRl_at, if_pos rfl]

theorem bypassNotice_rl (ring : inRing s b = true) : ((bypassNotice b s).at c).rl = (s.at c).rl := by
  unfold bypassNotice
  dsimp only
  rw [if_pos ring]
  split
  · rfl
  · exact (sendBypass_touch sub_self .refl).at_rl (by decide) c

theorem boundExpiry_rails_off (order : (s.at b).sy.retireOrder = true) (noBypass : (s.at b).sy.bypassAt = none)
    (up : slotDone s b = false) (ring : inRing s b = true) (r : Fin 13) :
    (vget ((boundExpiry b s).at b).rl.rails r.val).en = false := by
  have run : boundExpiry b s = bypassNotice b (inertOutputs b (shutdownEnd b (s.updRl b fun r =>
      { r with rails := r.rails.map fun l => { l with st := .off, en := false } }))) := by
    unfold boundExpiry
    exact if_neg (by simp [syOf, order, noBypass, up])
  have kept : inRing (inertOutputs b (shutdownEnd b (s.updRl b fun r =>
      { r with rails := r.rails.map fun l => { l with st := .off, en := false } }))) b = true := by
    unfold inRing at ring ⊢
    rw [(inertOutputs_touch sub_self .refl).at_dev (by decide), (shutdownEnd_touch sub_self .refl).at_dev (by decide)]
    exact ring
  rw [run, bypassNotice_rl kept, inertOutputs_rails]
  simp [vget]

end

/-- Settles O4: a retirement keeps to its order, shutdown, notice and switch; a silent berth is reported and bypassed. -/
theorem berthRetirement : Obligations.BerthRetirement := by
  refine fun s b => ⟨?order, ?notice, ?bound, ?switch, ?detect, ?report, ?keep⟩
  case order =>
    rintro ⟨noOrder, st⟩
    refine answers_of_run rfl fun t queue e => ?_
    have run : retireOrder b s.begin = shutdown b false 0x13 15 (updSy b (fun y => { y with retireOrder := true }) s.begin) := by
      unfold retireOrder
      exact if_neg (by rcases st with st | st | st <;> simp [syOf, noOrder, st])
    rw [run] at e
    rw [e.at_eq, (shutdown_touch sub_self .refl).at_sy (by decide), updSy_at, if_pos rfl]
    rfl
  case notice =>
    rintro ⟨order, noBypass, done, ring⟩
    refine answers_of_run rfl fun t queue e => ?_
    rw [bypassNotice_of_done (s := s.begin) order noBypass done ring] at e
    refine ⟨fun clock => ?_, by rw [e.at_eq, sendBypass_sy]; rfl, e.keeps queue (.ofBegin sendBypass_within)⟩
    rw [e.out, sendBypass, ringSend_out_of_clock]
    · rfl
    · simpa using clock
  case bound =>
    rintro ⟨order, noBypass, up, ring⟩
    refine answers_of_run rfl fun t queue e => ?_
    exact fun r => by rw [e.at_eq]; exact boundExpiry_rails_off (s := s.begin) order noBypass up ring r
  case switch =>
    rintro k ⟨at_, reached⟩
    refine answers_of_run rfl fun t queue e => ?_
    have run : bypassSwitch b s.begin = retired b (leaveRing b s.begin) := by
      unfold bypassSwitch
      rw [show (syOf s.begin b).bypassAt = some k from at_]
      exact if_neg (Nat.not_lt.mpr reached)
    rw [run] at e
    obtain ⟨st, noBypass⟩ := retired_sy (s := leaveRing b s.begin) (b := b)
    rw [e.at_eq, e.dev, retired_dev]
    exact ⟨st, noBypass, leaveRing_bypassed⟩
  case detect =>
    rintro n ⟨here, there, next⟩
    refine answers_of_run rfl fun t queue e => ?_
    have run : silentDetect b n s.begin = ringSend b (some (s.at b).sy.harbour) (.silentBerth n)
        (updSy b (fun y => { y with silentSeen := y.silentSeen ||| 2 ^ n.val }) s.begin) := by
      unfold silentDetect
      exact if_neg (by simp [here, there, next])
    rw [run] at e
    refine ⟨fun clock => ?_, ?_, e.keeps queue (.ofBegin (updSy_within.trans ringSend_within))⟩
    · rw [e.out, ringSend_out_of_clock]
      · rfl
      · simpa using clock
    · rw [e.at_eq, ringSend_sy, updSy_at, if_pos rfl]
      rfl
  case report =>
    rintro n ⟨harbour, ne, ring⟩
    refine answers_of_run rfl fun t queue e => ?_
    have run : silentReport b n s.begin = leaveRing n (harbourRetire b n 0x24 0 s.begin) := by
      unfold silentReport
      rw [if_pos (show s.begin.isHbr b = true from harbour)]
      exact if_neg (by simpa [ne] using ring)
    rw [run] at e
    rw [e.dev]
    exact leaveRing_bypassed.1
  case keep =>
    intro n other
    refine answers_of_run rfl fun t queue e => ?_
    have run : silentReport b n s.begin = updSy b (fun y => { y with silentKnown := y.silentKnown ||| 2 ^ n.val }) s.begin := by
      unfold silentReport
      exact if_neg (by simpa [State.isHbr] using other)
    rw [run] at e
    exact ⟨by rw [e.at_eq, updSy_at, if_pos rfl]; rfl, e.keeps queue (.ofBegin updSy_within)⟩

section
variable {r s t u : State} {b c n h src : BId} {fs : List Piece}

/-! ### What waits for the end of holdover (R29) -/

theorem updPort_held {p : Nat} {f : RingPort → RingPort} : ((updPort b p f s).at c).rp.held = (s.at c).rp.held := by
  rw [updPort_eq, updRp_at]
  split
  · rfl
  · rfl

theorem ringPut_held {dst : Option BId} {m : Msg} : ((ringPut src dst m s).at c).rp.held = (s.at c).rp.held := by
  rw [ringPut, State.emit_at, sendFlits]
  exact iter_induction (P := fun t => (t.at c).rp.held = (s.at c).rp.held) rfl fun _ _ kept => updPort_held.trans kept

theorem mem_ringSend_held {dst : Option BId} {m : Msg} {e : Option BId × Msg} (mem : e ∈ (s.at c).rp.held) :
    e ∈ ((ringSend src dst m s).at c).rp.held := by
  unfold ringSend
  split
  · rw [updRp_at]
    split
    · exact List.mem_append_left _ mem
    · exact mem
  · rw [ringPut_held]
    exact mem

/-- A message is sent out, or waits for the end of holdover. -/
def SentOrHeld (b : BId) (m : Msg) (t : State) : Prop :=
  if (t.at b).sy.holdover then (none, m) ∈ (t.at b).rp.held else Output.ring b none m ∈ t.out

theorem ringSend_sentOrHeld {m : Msg} : SentOrHeld b m (ringSend b none m s) := by
  unfold SentOrHeld
  rw [ringSend_sy]
  split
  case isTrue held => simp [ringSend, held]
  case isFalse clock =>
    rw [ringSend_out_of_clock (by simpa using clock)]
    simp

theorem SentOrHeld.ringSend {m k : Msg} (h : SentOrHeld b m s) : SentOrHeld b m (ringSend b none k s) := by
  unfold SentOrHeld at h ⊢
  rw [ringSend_sy]
  split
  case isTrue held => rw [if_pos held] at h; exact mem_ringSend_held h
  case isFalse clock => rw [if_neg clock] at h; exact mem_ringSend_out h

theorem sendTide_sentOrHeld : ∃ w, SentOrHeld b (.tide w) (sendTide b s) := by
  refine ⟨tideFlit s b, ?_⟩
  unfold sendTide
  dsimp only
  split
  · exact ringSend_sentOrHeld.ringSend
  · exact ringSend_sentOrHeld

theorem ringRelease_sy : ((ringRelease b s).at c).sy = (s.at c).sy := (ringRelease_touch sub_self .refl).at_sy (by decide) c

theorem ringRelease_eq : ringRelease b s =
    iter (s.at b).rp.held (fun e t => ringPut b e.1 e.2 t) (updRp b (fun y => { y with held := [] }) s) := rfl

theorem ringRelease_within : Within b s (ringRelease b s) := by
  rw [ringRelease_eq]
  exact updRp_within.trans (Within.iter fun _ _ => ringPut_within)

theorem ringRelease_held : ((ringRelease b s).at b).rp.held = [] := by
  rw [ringRelease_eq]
  refine iter_induction (P := fun t => (t.at b).rp.held = []) ?_ fun _ _ kept => ringPut_held.trans kept
  rw [updRp_at, if_pos rfl]

@[simp] theorem trayLocked_begin : trayLocked s.begin = trayLocked s := rfl

@[simp] theorem serving_begin : serving s.begin b = serving s b := rfl

/-! ### Isolation and takeover (R18, R27) -/

theorem giveUpRole_sy : ∃ q, ((giveUpRole b s).at b).sy = if s.isHbr b then
    { (s.at b).sy with qspi := q, isHarbour := false, lostRole := true } else (s.at b).sy := by
  unfold giveUpRole
  by_cases holds : s.isHbr b = true
  · obtain ⟨q, inert⟩ : ∃ q, ((portsInert b s).at b).sy = { (s.at b).sy with qspi := q } := ⟨_, portsInert_sy.trans (if_pos rfl)⟩
    refine ⟨q, ?_⟩
    simp only [holds, Bool.not_true, Bool.false_eq_true, if_false, if_true]
    rw [(State.updTray_touch sub_self .refl).at_sy (by decide), (Touch.iter (fun _ _ => deckRelease_touch sub_self) .refl).at_sy (by decide),
      (State.updLog_touch sub_self .refl).at_sy (by decide), (updCh_touch sub_self .refl).at_sy (by decide), updSy_at, if_pos rfl, inert]
  · exact ⟨false, by simp only [holds, Bool.not_false, if_true]; rfl⟩

theorem isolate_sy : ∃ f i, ((isolate b s).at b).sy =
    { ((giveUpRole b s).at b).sy with st := .isolated, fail := f, images := i } := by
  obtain ⟨f, i, same⟩ := (enginesEnd_background (b := b) (.refl (s := updSy b (fun y => { y with st := .isolated }) (giveUpRole b s)))).sy b
  have rest : Touch [.out, .freeCtr, .rp, .rl, .log, .pw, .hw, .svc, .cl, .pl, .dk, .dm, .tw, .us, .tray, .tcm, .deck]
      (enginesEnd b (updSy b (fun y => { y with st := .isolated }) (giveUpRole b s))) (isolate b s) :=
    ite_touch (slotInert_touch (by decide) (shutdown_touch (by decide) .refl)) (shutdown_touch (by decide) .refl)
  exact ⟨f, i, by rw [rest.at_sy (by decide), same, updSy_at, if_pos rfl]⟩

theorem isolate_st : ((isolate b s).at b).sy.st = .isolated := by
  obtain ⟨_, _, isolated⟩ := isolate_sy (s := s) (b := b)
  rw [isolated]

/-- A berth that isolates itself gives up the harbour role, and its clock stays as it was. -/
theorem isolate_role : ((isolate b s).at b).sy.isHarbour = false ∧ ((isolate b s).at b).sy.clkLocked = (s.at b).sy.clkLocked := by
  obtain ⟨_, _, isolated⟩ := isolate_sy (s := s) (b := b)
  obtain ⟨_, gone⟩ := giveUpRole_sy (s := s) (b := b)
  rw [isolated, gone]
  split
  case isTrue => exact ⟨rfl, rfl⟩
  case isFalse other => exact ⟨by simpa [State.isHbr] using other, rfl⟩

/-- No berth's role or harbour differs. -/
structure SameRoles (s t : State) : Prop where
  isHarbour : ∀ c, (t.at c).sy.isHarbour = (s.at c).sy.isHarbour
  harbour : ∀ c, (t.at c).sy.harbour = (s.at c).sy.harbour

theorem SameRoles.refl : SameRoles s s := ⟨fun _ => rfl, fun _ => rfl⟩

theorem SameRoles.trans (h : SameRoles s t) (k : SameRoles t u) : SameRoles s u :=
  ⟨fun c => (k.isHarbour c).trans (h.isHarbour c), fun c => (k.harbour c).trans (h.harbour c)⟩

theorem SameRoles.of_sy (same : ∀ c, (t.at c).sy.isHarbour = (s.at c).sy.isHarbour ∧ (t.at c).sy.harbour = (s.at c).sy.harbour) :
    SameRoles s t := ⟨fun c => (same c).1, fun c => (same c).2⟩

theorem Touch.sameRoles (h : Touch fs s t) (n : .sy ∉ fs := by decide) : SameRoles s t := .of_sy fun c => by
  rw [h.at_sy n c]
  exact ⟨rfl, rfl⟩

theorem Background.sameRoles (h : Background s t) : SameRoles s t := .of_sy fun c => by
  obtain ⟨_, _, same⟩ := h.sy c
  rw [same]
  exact ⟨rfl, rfl⟩

theorem SameRoles.touch (h : SameRoles r s) (k : Touch fs s t) (n : .sy ∉ fs := by decide) : SameRoles r t := h.trans (k.sameRoles n)

theorem SameRoles.background (h : SameRoles r s) (k : Background s t) : SameRoles r t := h.trans k.sameRoles

theorem updSy_sameRoles {f : Sy → Sy} (hf : ∀ y, (f y).isHarbour = y.isHarbour ∧ (f y).harbour = y.harbour) :
    SameRoles s (updSy b f s) := .of_sy fun c => by
  rw [updSy_at]
  split
  · exact hf _
  · exact ⟨rfl, rfl⟩

theorem SameRoles.iter {α : Type} {xs : List α} {f : α → State → State} (h : SameRoles r s) (step : ∀ x t, SameRoles t (f x t)) :
    SameRoles r (iter xs f s) := iter_induction h fun x t kept => kept.trans (step x t)

theorem chordResend_sameRoles : SameRoles s (chordResend n s) := by
  refine .iter .refl fun e t => ?_
  extract_lets fs q t1
  have sent : SameRoles t t1 := Touch.sameRoles (updPort_touch (fs := [.rp]) (by decide) (updPort_touch (by decide) .refl))
  have counted := sent.trans (updSy_sameRoles (b := e.1) (f := fun y => { y with ringRetry := (y.ringRetry + fs.length) % 2 ^ 64 })
    fun _ => ⟨rfl, rfl⟩)
  split
  · exact .refl
  · exact counted.trans (Touch.sameRoles (fs := [.out]) (State.emit_touch (by decide) .refl))

theorem clockBypass_sameRoles : SameRoles s (clockBypass n s) := by
  refine .iter .refl fun c t => ?_
  dsimp only
  split
  · exact .refl
  · split
    · split
      · exact updSy_sameRoles fun _ => ⟨rfl, rfl⟩
      · exact .refl
    · split
      · exact .refl
      · split
        · exact updSy_sameRoles fun _ => ⟨rfl, rfl⟩
        · exact updSy_sameRoles fun _ => ⟨rfl, rfl⟩

theorem leaveRing_sameRoles : SameRoles s (leaveRing n s) := by
  unfold leaveRing
  extract_lets s1
  have away : SameRoles s s1 := (updDev_touch (fs := [.dev]) (by decide) .refl).sameRoles
  exact (away.trans (chordResend_sameRoles.trans clockBypass_sameRoles)).trans (deckLeave_touch sub_self .refl).sameRoles

theorem retireSilent_sameRoles : SameRoles s (retireSilent h n s) := by
  unfold retireSilent
  split
  · exact .refl
  · exact ((harbourRetire_touch sub_self .refl).sameRoles).trans leaveRing_sameRoles

/-- Berth b as the standby that takes the role from its harbour. -/
def roleTaken (b : BId) (s : State) : State :=
  updSy b (fun y => { y with isHarbour := true, harbour := b, silentMarks := 0, qspi := true }) (giveUpRole (syOf s b).harbour s)

/-- A takeover ends with the new harbour's first heartbeat; after the role is taken, no role changes. -/
theorem takeover_eq (standby : isStandby s b = true) (silent : 4 ≤ (s.at b).sy.silentMarks) :
    ∃ u, takeover b s = sendTide b u ∧ SameRoles (roleTaken b s) u := by
  refine ⟨_, if_neg (by simp [standby, syOf, silent]), ?_⟩
  refine SameRoles.iter ?_ fun _ _ => retireSilent_sameRoles
  refine .touch (.background ?_ (policyTakeover_background .refl)) (setQuotas_touch sub_self .refl)
  refine .touch (.touch ?_ (chartTakeover_touch sub_self .refl)) (imagesTakeover_touch sub_self .refl)
  refine .touch (.touch ?_ (logServe_touch sub_self .refl)) (attnAt_touch sub_self .refl)
  refine .touch (.touch ?_ (telClear_touch sub_self .refl)) (usbFollow_touch sub_self .refl)
  refine .touch (.touch ?_ (updTw_touch sub_self .refl)) (updUs_touch sub_self .refl)
  exact .touch (.touch .refl (State.updTray_touch sub_self .refl)) (updTd_touch sub_self .refl)

theorem takeover_roles (standby : isStandby s b = true) (silent : 4 ≤ (s.at b).sy.silentMarks) :
    ((takeover b s).at b).sy.isHarbour = true ∧ ((takeover b s).at b).sy.harbour = b := by
  obtain ⟨u, run, roles⟩ := takeover_eq standby silent
  have sent : SameRoles u (sendTide b u) := (sendTide_touch sub_self .refl).sameRoles
  rw [run, (roles.trans sent).isHarbour, (roles.trans sent).harbour, roleTaken, updSy_at, if_pos rfl]
  exact ⟨rfl, rfl⟩

theorem takeover_heartbeat (standby : isStandby s b = true) (silent : 4 ≤ (s.at b).sy.silentMarks) :
    ∃ w, SentOrHeld b (.tide w) (takeover b s) := by
  obtain ⟨u, run, -⟩ := takeover_eq standby silent
  rw [run]
  exact sendTide_sentOrHeld

theorem rereadNext_locked : ((rereadNext h s).at c).ch.locked = (s.at c).ch.locked := by
  unfold rereadNext
  split
  · rfl
  · split
    · rfl
    · rw [updCh_at]
      split
      · rfl
      · rfl

theorem setDist_ch {d : Dist} : ((setDist h n d s).at c).ch = (s.at c).ch := (setDist_touch sub_self .refl).at_ch (by decide) c

theorem redistribute_locked : ((redistribute h n s).at c).ch.locked = (s.at c).ch.locked := by
  unfold redistribute
  extract_lets s1
  have same : (s1.at c).ch = (s.at c).ch := (State.updTray_touch sub_self .refl).at_ch (by decide) c
  split
  · rfl
  · split
    · rw [setDist_ch, same]
    · split
      · rw [rereadNext_locked, setDist_ch, same]
      · rw [same]

/-- A released berth before the harbour sends it the chart again: MOORED under harbour h, without chart. -/
def releasedBerth (h b : BId) (s : State) : State :=
  updCh b (fun c => { c with state := .none, locked := false, agree := false, slot := none })
    (updSy b (fun y => { y with st := .moored, silentMarks := 0, harbour := h }) (inertOutputs b s))

theorem releasedBerth_at : ((releasedBerth h b s).at b).sy.st = .moored ∧ ((releasedBerth h b s).at b).sy.harbour = h
    ∧ ((releasedBerth h b s).at b).ch.locked = false := by
  rw [releasedBerth, updCh_at, if_pos rfl, updSy_at, if_pos rfl]
  exact ⟨rfl, rfl, rfl⟩

end

/-- Settles O5: an isolated berth keeps its state through the shutdown of its engines, and a new harbour its role through its start. -/
theorem isolationAndTakeover : Obligations.IsolationAndTakeover := by
  refine ⟨fun s b => ⟨?silent, ?noClock, ?report, ?release⟩, ?takeover⟩
  case silent =>
    rintro ⟨locked, serves, other, marks⟩
    refine answers_of_run rfl fun t queue e => ?_
    have run : silentIsolate b s.begin = isolate b s.begin :=
      if_pos (by simpa [State.isHbr, other, syOf] using ⟨⟨locked, serves⟩, marks⟩)
    rw [run] at e
    rw [e.at_eq, isolate_st]
  case noClock =>
    rintro ⟨locked, serves, source⟩
    refine answers_of_run rfl fun t queue e => ?_
    have run : noClockIsolate b s.begin =
        isolate b (updSy b (fun y => { y with clkLocked := false, pll := y.pll && !y.isSrc }) s.begin) :=
      if_neg (by rcases source with source | source <;> simp [syOf, locked, serves, source])
    rw [run] at e
    obtain ⟨role, clock⟩ := isolate_role (b := b) (s := updSy b (fun y => { y with clkLocked := false, pll := y.pll && !y.isSrc }) s.begin)
    rw [e.at_eq, isolate_st, role, clock, updSy_at, if_pos rfl]
    exact ⟨rfl, rfl, rfl⟩
  case report =>
    rintro n ⟨harbour, fresh⟩
    refine answers_of_run rfl fun t queue e => ?_
    have run : isolatedReport b n s.begin = s.begin.updTray b fun t => { t with release := t.release ||| 2 ^ n.val } :=
      if_pos (by simp [State.isHbr, harbour, fresh])
    rw [run] at e
    exact ⟨by rw [e.at_eq, State.updTray_at, if_pos rfl]; rfl, e.keeps queue (.ofBegin .upd)⟩
  case release =>
    rintro h ⟨harbour, isolated⟩
    refine answers_of_run rfl fun t queue e => ?_
    have run : releaseOrder b s.begin = redistribute h b (releasedBerth h b s.begin) := by
      unfold releaseOrder
      rw [show s.begin.harbour = some h from harbour]
      exact if_neg (by simp [syOf, isolated])
    have within := e.agreeOff_begin (fs := [.out, .sy, .rp, .ch, .rl, .pw, .cl, .tray]) (by decide) (releaseOrder_touch (by decide) .refl)
    rw [run] at e
    obtain ⟨moored, under, unlocked⟩ := releasedBerth_at (s := s.begin) (h := h) (b := b)
    refine ⟨?_, ?_, ?_, within⟩
    · rw [e.at_eq, (redistribute_touch sub_self .refl).at_sy (by decide), moored]
    · rw [e.at_eq, (redistribute_touch sub_self .refl).at_sy (by decide), under]
    · rw [e.at_eq, redistribute_locked, unlocked]
  case takeover =>
    rintro s b ⟨standby, silent⟩
    refine answers_of_run rfl fun t queue e => ?_
    obtain ⟨role, own⟩ := takeover_roles (s := s.begin) standby silent
    obtain ⟨w, heartbeat⟩ := takeover_heartbeat (s := s.begin) standby silent
    refine ⟨by rw [e.at_eq, role], by rw [e.at_eq, own], w, ?_⟩
    rw [e.at_eq, e.out]
    exact heartbeat

/-- Settles O6. -/
theorem forwardedClock : Obligations.ForwardedClock := by
  refine fun s b => ⟨?loss, ?switch, ?standby⟩
  case loss =>
    rintro edges ⟨notSource, st⟩
    refine answers_of_run rfl fun t queue e => ?_
    have run : clockLoss b edges.toNat s.begin = updSy b (fun y => { y with
        holdover := true, clkLocked := false, switchTo := pickInput s.begin b edges.toNat }) s.begin := by
      unfold clockLoss
      exact if_neg (by simp [syOf, notSource, st])
    rw [run] at e
    exact ⟨e.keeps queue (.ofBegin updSy_within), by rw [e.at_eq, updSy_at, if_pos rfl]; rfl⟩
  case switch =>
    intro i due
    refine answers_of_run rfl fun t queue e => ?_
    have run : switchDone b s.begin = ringRelease b (updSy b (fun y => { y with
        clkIn := i, switchTo := none, holdover := false, clkLocked := true, clkSwitch := sinc y.clkSwitch, holdEnd := some s.now }) s.begin) := by
      unfold switchDone
      rw [show (syOf s.begin b).switchTo = some i from due]
      rfl
    rw [run] at e
    refine ⟨e.keeps queue (.ofBegin (updSy_within.trans ringRelease_within)), ?_, by rw [e.at_eq, ringRelease_held]⟩
    rw [e.at_eq, ringRelease_sy, updSy_at, if_pos rfl]
    rfl
  case standby =>
    rintro ⟨standby, pll, notSource, holdover⟩
    refine answers_of_run rfl fun t queue e => ?_
    have run : standbySource b s.begin = ringRelease b (updSy b (fun y => { y with
        isSrc := true, holdover := false, clkLocked := true, switchTo := none, holdEnd := some s.now })
        (s.begin.updAll fun n x => { x with sy := { x.sy with
          clkSrc := b, isSrc := false, order := if n == b then x.sy.order else clkOrder n b } })) :=
      if_neg (by simp [syOf, pll, notSource, holdover, show isStandby s.begin b = true from standby])
    have within := e.agreeOff_begin (fs := [.out, .sy, .rp]) (by decide) (standbySource_touch (by decide) .refl)
    rw [run] at e
    refine ⟨?_, ?_, fun n => ⟨?_, fun ne => ?_⟩, within⟩
    · rw [e.at_eq, ringRelease_sy, updSy_at, if_pos rfl]
    · rw [e.at_eq, ringRelease_sy, updSy_at, if_pos rfl]
    · rw [e.at_eq, ringRelease_sy, updSy_at, State.updAll_at]
      split
      · rfl
      · rfl
    · rw [e.at_eq, ringRelease_sy, updSy_at, if_neg ne.symm, State.updAll_at]

end Sys2Proof.Machine

/-! Accesses of every party: errors, the fields of a register, memory, and the reads that do more than return a value (R10 to R13,
R36, R39, R43 to R45). -/
namespace Sys2Proof.Machine
set_option Elab.async false

section
variable {s t u : State} {b c h : BId} {req : ReqId} {own : BId} {w : Who}

/-! ### Who accesses -/

theorem req_of_whoOf (who : whoOf req own = some w) : w.req = req := by
  unfold whoOf at who
  split at who
  case isTrue lt =>
    obtain rfl := Option.some.inj who
    exact Fin.ext (by simp [pilotWho, bid, Nat.mod_eq_of_lt lt])
  case isFalse =>
    split at who
    case isTrue dma =>
      obtain rfl := Option.some.inj who
      exact (by simpa using dma : req = 8).symm
    case isFalse =>
      split at who
      · obtain rfl := Option.some.inj who
        rfl
      · cases who

theorem own_of_whoOf (who : whoOf 8 own = some w) : w.own = some own := by
  obtain rfl : dmaWho own = w := Option.some.inj who
  rfl

theorem hostDid_within_sy : Touch [.sy] s (hostDid req s) := hostDid_touch sub_self .refl

@[simp] theorem hostDid_out : (hostDid req s).out = s.out := hostDid_within_sy.at_out (by decide)

/-- A completed access is host activity at most: it changes no other part of SY_. -/
theorem hostDid_sy : ∃ act, ((hostDid req s).at c).sy = { (s.at c).sy with hostAct := act } := by
  unfold hostDid
  split
  · split
    · rw [updSnap_at]
      split
      · exact ⟨_, rfl⟩
      · exact ⟨_, rfl⟩
    · exact ⟨_, rfl⟩
  · exact ⟨_, rfl⟩

/-! ### Access errors (R39) -/

theorem updSnap_within {f : Sy → Sy} : Within b s (updSnap b f s) := by unfold updSnap; exact .upd

/-- What an access error leaves at the berth that records it, where it is the first, and where one is recorded already. -/
theorem recordErr_sy {cause : Nat} {write : Bool} {addr : Word} (who : whoOf req own = some w) :
    ((s.at h).sy.errCause = 0 → ((recordErr h cause w write addr.toNat s).at h).sy = { (s.at h).sy with
        errCause := cause, errReq := req.val, errWrite := write, errAddr := addr, errOrigin := if req = 8 then own.val else 0 })
      ∧ ((s.at h).sy.errCause ≠ 0 → ((recordErr h cause w write addr.toNat s).at h).sy = { (s.at h).sy with errOver := true }) := by
  have origin : (if req == 8 then (w.own.getD 0).val else 0) = if req = 8 then own.val else 0 := by
    by_cases dma : req = 8
    · subst dma
      simp [own_of_whoOf who]
    · simp [dma]
  have address : wordOf addr.toNat = addr := by simp [wordOf]
  rw [recordErr, updSnap_at, if_pos rfl]
  refine ⟨fun first => ?_, fun later => ?_⟩
  · simp only [first, bne_self_eq_false, Bool.false_eq_true, if_false, req_of_whoOf who, address, origin]
  · simp only [bne_iff_ne.mpr later, if_true]

theorem registerWrite_of_error {cause : Nat} {addr val : Word} (who : whoOf req own = some w)
    (fails : access s w true addr.toNat 4 = .error (cause, h)) :
    registerWrite req own addr val s = recordErr h cause w true addr.toNat s := by
  simp only [registerWrite, who, partyWrite, writeAccess, fails]

theorem registerWrite_of_ok {addr val : Word} {r : Reach} (who : whoOf req own = some w)
    (passes : access s w true addr.toNat 4 = .ok (b, r)) :
    registerWrite req own addr val s = hostDid req (writeAt w b r 4 val s) := by
  simp only [registerWrite, who, partyWrite, writeAccess, passes, req_of_whoOf who]

section
variable {addr : Word} {sel : Nat → Bool} {rd : BId → Bool → Nat → Nat → State → Word × State}

theorem partyRead_of_error {cause : Nat} (who : whoOf req own = some w) (fails : access s w false addr.toNat 4 = .error (cause, h)) :
    partyRead req own addr sel rd s = (recordErr h cause w false addr.toNat s).emit (.value 0) := by
  simp only [partyRead, who, fails]

theorem partyRead_of_ok {tray : Bool} {blk off : Nat} (who : whoOf req own = some w)
    (passes : access s w false addr.toNat 4 = .ok (b, .reg tray blk off)) (picked : sel (4096 * blk + off) = true) :
    partyRead req own addr sel rd s = (hostDid req (rd b tray blk off s).2).emit (.value (rd b tray blk off s).1) := by
  simp only [partyRead, who, passes, picked, if_true]

end

end

/-- Settles O7: the failed write records its error, and the failed read records it and returns 0. -/
theorem accessErrors : Obligations.AccessErrors := by
  intro s req own h addr w c who
  obtain ⟨firstWrite, laterWrite⟩ := recordErr_sy (s := s.begin) (h := h) (cause := c) (write := true) (addr := addr) who
  obtain ⟨firstRead, laterRead⟩ := recordErr_sy (s := s.begin) (h := h) (cause := c) (write := false) (addr := addr) who
  have touched {write : Bool} : Touch [.out, .sy] s.begin (recordErr h c w write addr.toNat s.begin) := recordErr_touch (by decide) .refl
  have within {write : Bool} : Within h s (recordErr h c w write addr.toNat s.begin) := .ofBegin (by unfold recordErr; exact updSnap_within)
  refine ⟨fun val fails => ?_, fun fails i mem => ?_⟩
  · refine answers_of_run (u := recordErr h c w true addr.toNat s.begin) ?_ fun t queue e => ?_
    · exact congrArg (ran s) (registerWrite_of_error who (access_begin.trans fails))
    · refine ⟨e.keeps queue within, e.agreeOff_begin (by decide) touched, e.out, fun first => ?_, fun later => ?_⟩
      · rw [e.at_eq, firstWrite first]; rfl
      · rw [e.at_eq, laterWrite later]; rfl
  · have run : exec i s = ran s ((recordErr h c w false addr.toNat s.begin).emit (.value 0)) := by
      have fails' : access s.begin w false addr.toNat 4 = .error (c, h) := access_begin.trans fails
      rcases List.mem_cons.mp mem with rfl | mem
      · exact congrArg (ran s) (partyRead_of_error who fails')
      rcases List.mem_cons.mp mem with rfl | mem
      · exact congrArg (ran s) (partyRead_of_error who fails')
      · obtain rfl := List.mem_singleton.mp mem
        exact congrArg (ran s) (partyRead_of_error who fails')
    refine answers_of_run run fun t queue e => ?_
    refine ⟨e.keeps queue (within.trans .emit), e.agreeOff_begin (by decide) (State.emit_touch (by decide) touched), e.out, fun first => ?_,
      fun later => ?_⟩
    · rw [e.at_eq, State.emit_at, firstRead first]; rfl
    · rw [e.at_eq, State.emit_at, laterRead later]; rfl

/-! ### Fields of a register (R12, R13) -/

section
variable {w n : Word} {hi lo hi' lo' : Nat}

theorem fld_lt : fld n hi lo < 2 ^ (hi + 1 - lo) := Nat.mod_lt _ (by positivity)

theorem pow_field (le : lo ≤ hi) : 2 ^ lo * 2 ^ (hi + 1 - lo) = 2 ^ (hi + 1) := by rw [← pow_add, Nat.add_sub_cancel' (by omega)]

/-- A word is the bits above a field, the field, and the bits below. -/
theorem toNat_eq_fld (le : lo ≤ hi) :
    w.toNat = w.toNat / 2 ^ (hi + 1) * 2 ^ (hi + 1) + fld w hi lo * 2 ^ lo + w.toNat % 2 ^ lo := by
  have low := Nat.div_add_mod' w.toNat (2 ^ lo)
  have high := Nat.div_add_mod' (w.toNat / 2 ^ lo) (2 ^ (hi + 1 - lo))
  rw [Nat.div_div_eq_div_mul, pow_field le] at high
  calc w.toNat = (w.toNat / 2 ^ (hi + 1) * 2 ^ (hi + 1 - lo) + fld w hi lo) * 2 ^ lo + w.toNat % 2 ^ lo := by rw [fld, high, low]
    _ = _ := by rw [add_mul, mul_assoc, mul_comm (2 ^ (hi + 1 - lo)), pow_field le]

theorem field_le (le : lo ≤ hi) {v : Nat} (lt : v < 2 ^ (hi + 1 - lo)) {r : Nat} (low : r < 2 ^ lo) : v * 2 ^ lo + r < 2 ^ (hi + 1) := by
  have step : (v + 1) * 2 ^ lo ≤ 2 ^ (hi + 1 - lo) * 2 ^ lo := Nat.mul_le_mul_right _ lt
  rw [mul_comm (2 ^ (hi + 1 - lo)), pow_field le, add_mul, one_mul] at step
  omega

/-- A merge changes the bits of the field alone. -/
theorem mergeFld_toNat (le : lo ≤ hi) (lt : hi < 32) : (mergeFld w n hi lo).toNat =
    w.toNat / 2 ^ (hi + 1) * 2 ^ (hi + 1) + (fld n hi lo * 2 ^ lo + w.toNat % 2 ^ lo) := by
  have split := toNat_eq_fld (w := w) le
  have field := field_le le (fld_lt (n := n)) (Nat.mod_lt w.toNat (Nat.two_pow_pos lo))
  have bound : w.toNat / 2 ^ (hi + 1) * 2 ^ (hi + 1) + 2 ^ (hi + 1) ≤ 2 ^ 32 := by
    have top : w.toNat / 2 ^ (hi + 1) < 2 ^ (32 - (hi + 1)) := by
      rw [Nat.div_lt_iff_lt_mul (by positivity), ← pow_add, Nat.sub_add_cancel (by omega)]
      exact w.isLt
    have whole : 2 ^ (32 - (hi + 1)) * 2 ^ (hi + 1) = 2 ^ 32 := by rw [← pow_add, Nat.sub_add_cancel (by omega)]
    calc _ = (w.toNat / 2 ^ (hi + 1) + 1) * 2 ^ (hi + 1) := by ring
      _ ≤ _ := whole ▸ Nat.mul_le_mul_right _ top
  rw [mergeFld, BitVec.toNat_ofNat, Nat.mod_eq_of_lt] <;> omega

theorem fld_eq_mod_div (le : lo ≤ hi) : fld w hi lo = w.toNat % 2 ^ (hi + 1) / 2 ^ lo := by
  rw [fld, ← pow_field le, Nat.mod_mul_right_div_self]

theorem mergeFld_mod (le : lo ≤ hi) (lt : hi < 32) :
    (mergeFld w n hi lo).toNat % 2 ^ (hi + 1) = fld n hi lo * 2 ^ lo + w.toNat % 2 ^ lo := by
  rw [mergeFld_toNat le lt, Nat.mul_add_mod_of_lt (field_le le fld_lt (Nat.mod_lt _ (by positivity)))]

theorem mergeFld_div (le : lo ≤ hi) (lt : hi < 32) :
    (mergeFld w n hi lo).toNat / 2 ^ (hi + 1) = w.toNat / 2 ^ (hi + 1) := by
  rw [mergeFld_toNat le lt, mul_comm, Nat.mul_add_div (by positivity),
    Nat.div_eq_of_lt (field_le le fld_lt (Nat.mod_lt _ (by positivity))), add_zero]

theorem fld_mergeFld_self (le : lo ≤ hi) (lt : hi < 32) : fld (mergeFld w n hi lo) hi lo = fld n hi lo := by
  rw [fld_eq_mod_div le, mergeFld_mod le lt, mul_comm, Nat.mul_add_div (by positivity),
    Nat.div_eq_of_lt (Nat.mod_lt _ (by positivity)), add_zero]

theorem fld_mergeFld_below (le : lo ≤ hi) (lt : hi < 32) (le' : lo' ≤ hi') (below : hi' < lo) :
    fld (mergeFld w n hi lo) hi' lo' = fld w hi' lo' := by
  have low : (mergeFld w n hi lo).toNat % 2 ^ lo = w.toNat % 2 ^ lo := by
    rw [← Nat.mod_mod_of_dvd _ (pow_dvd_pow 2 (show lo ≤ hi + 1 by omega)), mergeFld_mod le lt, mul_comm, Nat.mul_add_mod, Nat.mod_mod]
  have dvd : 2 ^ (hi' + 1) ∣ 2 ^ lo := pow_dvd_pow 2 below
  rw [fld_eq_mod_div le', fld_eq_mod_div le', ← Nat.mod_mod_of_dvd _ dvd, low, Nat.mod_mod_of_dvd _ dvd]

theorem fld_mergeFld_above (le : lo ≤ hi) (lt : hi < 32) (above : hi < lo') :
    fld (mergeFld w n hi lo) hi' lo' = fld w hi' lo' := by
  have split : 2 ^ lo' = 2 ^ (hi + 1) * 2 ^ (lo' - (hi + 1)) := by rw [← pow_add, Nat.add_sub_cancel' above]
  rw [fld, fld, split, ← Nat.div_div_eq_div_mul, mergeFld_div le lt, Nat.div_div_eq_div_mul]

/-- The register after one field's turn in a write of n. -/
def putFld (f : Fld) (w n : Word) : Word := if f.ok (fld n f.hi f.lo) then mergeFld w n f.hi f.lo else w

theorem setFlds_cons {f : Fld} {fs : List Fld} : setFlds (f :: fs) w n = setFlds fs (putFld f w n) n := rfl

theorem fld_putFld_self {f : Fld} (le : f.lo ≤ f.hi) (lt : f.hi < 32) :
    fld (putFld f w n) f.hi f.lo = if f.ok (fld n f.hi f.lo) then fld n f.hi f.lo else fld w f.hi f.lo := by
  unfold putFld
  split
  · exact fld_mergeFld_self le lt
  · rfl

theorem fld_putFld_other {f : Fld} (le : f.lo ≤ f.hi) (lt : f.hi < 32) (away : lo ≤ hi ∧ hi < f.lo ∨ f.hi < lo) :
    fld (putFld f w n) hi lo = fld w hi lo := by
  unfold putFld
  split
  · rcases away with ⟨le', below⟩ | above
    · exact fld_mergeFld_below le lt le' below
    · exact fld_mergeFld_above le lt above
  · rfl

/-- Each field of TD_FILT takes its value unless that is reserved, and its reserved bits stay. -/
theorem setFlds_filt (v : Word) (put : v = setFlds [anyFld 7 0, rangeFld 11 8 2 15, rangeFld 15 12 1 15, rangeFld 23 16 1 255] w n) :
    fld v 7 0 = fld n 7 0
      ∧ fld v 11 8 = (if 2 ≤ fld n 11 8 then fld n 11 8 else fld w 11 8)
      ∧ fld v 15 12 = (if 1 ≤ fld n 15 12 then fld n 15 12 else fld w 15 12)
      ∧ fld v 23 16 = (if 1 ≤ fld n 23 16 then fld n 23 16 else fld w 23 16)
      ∧ fld v 31 24 = fld w 31 24 := by
  have range {hi lo a z : Nat} {x : Word} (le : lo ≤ hi) (lt : hi < 32) (whole : 2 ^ (hi + 1 - lo) ≤ z + 1) :
      fld (putFld (rangeFld hi lo a z) x n) hi lo = if a ≤ fld n hi lo then fld n hi lo else fld x hi lo := by
    have within : fld n hi lo ≤ z := Nat.le_of_lt_succ (fld_lt.trans_le whole)
    exact (fld_putFld_self (f := rangeFld hi lo a z) le lt).trans (by simp [rangeFld, within])
  subst put
  simp only [setFlds_cons, show ∀ x : Word, setFlds [] x n = x from fun _ => rfl]
  refine ⟨?_, ?_, ?_, ?_, ?_⟩
  · simp (disch := decide) only [fld_putFld_other]
    exact fld_putFld_self (f := anyFld 7 0) (by decide) (by decide)
  · simp (disch := decide) only [fld_putFld_other, range]
  · simp (disch := decide) only [fld_putFld_other, range]
  · simp (disch := decide) only [fld_putFld_other, range]
  · simp (disch := decide) only [fld_putFld_other]

end

/-- TD_FILT of berth b after a write. -/
def filtAfter (s : State) (b : BId) (val : Word) : Word :=
  if (s.at b).log.on then (s.at b).td.filt
  else setFlds [anyFld 7 0, rangeFld 11 8 2 15, rangeFld 15 12 1 15, rangeFld 23 16 1 255] (s.at b).td.filt val

theorem writeTd_filt {s : State} {b n : BId} {val : Word} : ((writeTd b 0x020 val s).at n).td =
    if b = n then { (s.at b).td with filt := filtAfter s b val } else (s.at n).td := by
  unfold writeTd filtAfter
  by_cases locked : (s.at b).log.on = true
  · simp only [open', locked, Bool.not_true, Bool.not_false, if_true]
    split
    case isTrue same => rw [same]
    case isFalse => rfl
  · simp only [open', locked, Bool.not_false, Bool.not_true, Bool.false_eq_true, if_false, updTd_at, apply_ite Berth.td]
    rfl

/-- Settles O8: the write puts the fields of TD_FILT before lock, and leaves them afterwards. -/
theorem registerWriteFields : Obligations.RegisterWriteFields := by
  intro s req own b addr val w tray who passes
  have run : registerWrite req own addr val s.begin = hostDid req (writeTd b 0x020 val s.begin) :=
    registerWrite_of_ok who (access_begin.trans passes)
  have touched : Touch [.out, .sy, .td] s.begin (hostDid req (writeTd b 0x020 val s.begin)) :=
    hostDid_touch (by decide) (writeTd_touch (by decide) .refl)
  refine answers_of_run (congrArg (ran s) run) fun t queue e => ?_
  have td (n : BId) : (t.at n).td = ((writeTd b 0x020 val s.begin).at n).td := by
    rw [e.at_eq, hostDid_within_sy.at_td (by decide)]
  refine ⟨e.agreeOff_begin (by decide) touched, ?_, fun n ne => ?_, ?_, fun locked => ?_, fun unlocked => ?_⟩
  · rw [e.out, hostDid_out, (writeTd_touch sub_self .refl).at_out (by decide)]
    rfl
  · rw [td, writeTd_filt, if_neg ne.symm]
    rfl
  · rw [td, writeTd_filt, if_pos rfl]
    rfl
  · rw [td, writeTd_filt, if_pos rfl, filtAfter, if_pos (show (s.begin.at b).log.on = true from locked)]
    rfl
  · refine setFlds_filt (w := (s.at b).td.filt) _ ?_
    rw [td, writeTd_filt, if_pos rfl, filtAfter, if_neg (by simpa using unlocked)]
    rfl

end Sys2Proof.Machine

/-! What a word written to memory stores (R36, R39, R364), and the reads and orders that do more than return a value (R39, R43 to R45). -/
namespace Sys2Proof.Machine
set_option Elab.async false

section
variable {d v : Byte} {m : Mem} {a c : Nat} {bs : List Byte} {o : Option Nat}

/-- Bytes written in canonical memory read back. -/
theorem memGet_memWrite (wf : memWf d none m = true) (i : Nat) (lt : i < bs.length) : memGet d (memWrite d m a bs) (a + i) = bs[i] := by
  induction bs generalizing m a i with
  | nil => exact absurd lt (Nat.not_lt_zero i)
  | cons v vs ih =>
    have stored : memWf d none (memSet d m a v) = true := memSet_wf wf rfl
    cases i with
    | zero =>
      exact (memGet_memWrite_out (.inl (Nat.lt_add_one a))).trans (memGet_memSet_self wf)
    | succ i =>
      rw [memWrite, show a + (i + 1) = a + 1 + i by omega, ih stored i (Nat.lt_of_succ_lt_succ lt)]
      rfl

theorem memRead_memWrite (wf : memWf d none m = true) : memRead d (memWrite d m a bs) a bs.length = bs := by
  refine List.ext_getElem (by simp [memRead, upto]) fun i _ lt => ?_
  simp only [memRead, upto, List.getElem_map, List.getElem_range]
  exact memGet_memWrite wf i lt

end

section
variable {s : State} {b n : BId} {x : Berth} {w : Who} {val : Word} {o : Nat}

/-- The reservation that outlives a write of n bytes at window offset o by another party (R364). -/
def Pilot.resvAfter (p : Pilot) (o n : Nat) : Option Nat := p.resv.filter fun a => !(a < o + n && o < a + 4)

theorem breakResv_eq {o n : Nat} : x.breakResv o n = { x with pl := { x.pl with resv := x.pl.resvAfter o n } } := by
  unfold Berth.breakResv
  split
  case h_1 a held =>
    split
    case isTrue meets =>
      have gone : x.pl.resvAfter o n = none := by simpa [Pilot.resvAfter, held] using meets
      rw [gone]
    case isFalse away =>
      have kept : x.pl.resvAfter o n = x.pl.resv := by simpa [Pilot.resvAfter, held, imp_iff_not_or] using away
      rw [kept]
  case h_2 free =>
    have kept : x.pl.resvAfter o n = x.pl.resv := by simp [Pilot.resvAfter, free]
    rw [kept]

/-- The reservation of berth b's pilot after party w has written n bytes there: its own writes leave it. -/
def resvBy (w : Who) (b : BId) (p : Pilot) (o n : Nat) : Option Nat := if w.req.val == b.val then p.resv else p.resvAfter o n

theorem memAt_tcm : (memAt w b (.tcm o) 4 val s).at n = if b = n then { s.at n with
    tcm := memWrite ramD (s.at n).tcm o (leBytes 4 val.toNat)
    pl := { (s.at n).pl with resv := resvBy w b (s.at n).pl o 4 } } else s.at n := by
  by_cases own : w.req.val = b.val
  · simp only [memAt, resvBy, beq_iff_eq, own, if_true, State.upd_at]
  · simp only [memAt, resvBy, beq_iff_eq, own, if_false, State.tcmWrite, State.upd_at, breakResv_eq]
    rfl

theorem memAt_deck : (memAt w b (.deck o) 4 val s).at n = if b = n then { s.at n with
    deck := memWrite ramD (s.at n).deck o (leBytes 4 val.toNat)
    pl := { (s.at n).pl with resv := resvBy w b (s.at n).pl (0x100000 + o) 4 } } else s.at n := by
  by_cases own : w.req.val = b.val
  · simp only [memAt, resvBy, beq_iff_eq, own, if_true, State.upd_at]
  · simp only [memAt, resvBy, beq_iff_eq, own, if_false, State.deckWrite, State.upd_at, breakResv_eq]
    rfl

theorem resvBy_or {p : Pilot} : resvBy w b p o 4 = p.resv ∨ resvBy w b p o 4 = none := by
  unfold resvBy Pilot.resvAfter
  split
  · exact .inl rfl
  · cases p.resv with
    | none => exact .inl rfl
    | some a => simp only [Option.filter]; split <;> simp

theorem resvBy_ends {p : Pilot} {a : Nat} (foreign : w.req.val ≠ b.val) (held : p.resv = some a) (meets : a < o + 4 ∧ o < a + 4) :
    resvBy w b p o 4 = none := by
  simp [resvBy, foreign, Pilot.resvAfter, held, meets]

end

theorem leBytes_length {k n : Nat} : (leBytes k n).length = k := by
  induction k generalizing n with
  | zero => rfl
  | succ k ih => rw [leBytes, List.length_cons, ih]

/-- A part in which two states agree need not be named. -/
theorem AgreeOff.narrow {fs gs : List Piece} {f : Piece} {s t : State} (h : AgreeOff fs s t) (same : f.same s t)
    (sub : ∀ g ∈ fs, g = f ∨ g ∈ gs) : AgreeOff gs s t := fun g out => by
  by_cases inside : g ∈ fs
  · exact ((sub g inside).resolve_right out) ▸ same
  · exact h g inside

/-- A write to memory that passes the tests answers in what the store makes of the state, but for the host activity. -/
theorem answers_memAt {s : State} {req : ReqId} {own b : BId} {addr val : Word} {w : Who} {r : Reach} {P : State → Prop}
    (who : whoOf req own = some w) (passes : access s w true addr.toNat 4 = .ok (b, r))
    (stores : writeAt w b r 4 val s.begin = memAt w b r 4 val s.begin)
    (h : ∀ t, AgreeOff [.out, .sy, .pl, .tcm, .deck] s t → Touch [.sy] (memAt w b r 4 val s.begin) t → P t) :
    Answers (.registerWrite req own addr val) s P := by
  have run : registerWrite req own addr val s.begin = hostDid req (memAt w b r 4 val s.begin) := by
    rw [registerWrite_of_ok who (access_begin.trans passes), stores]
  refine answers_of_run (congrArg (ran s) run) fun t _ e => h t ?_ (hostDid_within_sy.trans e.touch)
  exact e.agreeOff_begin (by decide) (hostDid_touch (by decide) (memAt_touch (by decide) .refl))

/-- Settles O9: the write is the store of its bytes, and ends the reservation that it meets. -/
theorem memoryWrite : Obligations.MemoryWrite := by
  rintro s req own b addr val w o ⟨who, canonical⟩
  have four : (leBytes 4 val.toNat).length = 4 := leBytes_length
  simp only [Berth.memCanonical, Bool.and_eq_true] at canonical
  obtain ⟨⟨tcmWf, deckWf⟩, -⟩ := canonical
  refine ⟨fun passes => ?tcm, fun passes => ?deck⟩
  case tcm =>
    refine answers_memAt who passes rfl fun t agree rest => ?_
    have deck : Piece.deck.same s t := fun n => by
      change (t.at n).deck = (s.at n).deck
      rw [rest.at_deck (by decide), memAt_tcm]
      split
      · rfl
      · rfl
    have other (n : BId) (ne : n ≠ b) : (memAt w b (.tcm o) 4 val s.begin).at n = s.at n := by rw [memAt_tcm, if_neg ne.symm]; rfl
    have pl : (t.at b).pl = { (s.at b).pl with resv := resvBy w b (s.at b).pl o 4 } := by
      rw [rest.at_pl (by decide), memAt_tcm, if_pos rfl]; rfl
    have tcm : (t.at b).tcm = memWrite ramD (s.at b).tcm o (leBytes 4 val.toNat) := by
      rw [rest.at_tcm (by decide), memAt_tcm, if_pos rfl]; rfl
    refine ⟨?_, fun a out => ?_, fun n ne => ?_, ?_, ?_, fun a ⟨foreign, held, meets⟩ => ?_, agree.narrow deck (by decide)⟩
    · rw [tcm]
      exact four ▸ memRead_memWrite tcmWf
    · rw [tcm]
      exact memGet_memWrite_out (four.symm ▸ out)
    · rw [rest.at_tcm (by decide), rest.at_pl (by decide), other n ne]
      exact ⟨rfl, rfl⟩
    · rw [pl]
    · rw [pl]
      exact resvBy_or
    · rw [pl]
      exact resvBy_ends (req_of_whoOf who ▸ foreign) held meets
  case deck =>
    refine answers_memAt who passes rfl fun t agree rest => ?_
    have tcm : Piece.tcm.same s t := fun n => by
      change (t.at n).tcm = (s.at n).tcm
      rw [rest.at_tcm (by decide), memAt_deck]
      split
      · rfl
      · rfl
    have other (n : BId) (ne : n ≠ b) : (memAt w b (.deck o) 4 val s.begin).at n = s.at n := by rw [memAt_deck, if_neg ne.symm]; rfl
    have deck : (t.at b).deck = memWrite ramD (s.at b).deck o (leBytes 4 val.toNat) := by
      rw [rest.at_deck (by decide), memAt_deck, if_pos rfl]; rfl
    refine ⟨?_, fun a out => ?_, fun n ne => ?_, agree.narrow tcm (by decide)⟩
    · rw [deck]
      exact four ▸ memRead_memWrite deckWf
    · rw [deck]
      exact memGet_memWrite_out (four.symm ▸ out)
    · rw [rest.at_deck (by decide), rest.at_pl (by decide), other n ne]
      exact ⟨rfl, rfl⟩

end Sys2Proof.Machine

/-! The reads that do more than return a value, and snapshots (R39, R43 to R45). -/
namespace Sys2Proof.Machine
set_option Elab.async false

section
variable {s t : State} {b c n : BId} {req : ReqId} {own : BId} {w : Who} {tray : Bool} {blk off : Nat}

@[simp] theorem regValue_begin : regValue s.begin b tray req blk off = regValue s b tray req blk off := by
  rw [regValue, regValue, liveReg_begin]
  rfl

/-- A read that picks the register answers in what it does, but for the host activity, and returns its value. -/
theorem answers_partyRead {i : Instr} {addr : Word} {sel : Nat → Bool} {rd : BId → Bool → Nat → Nat → State → Word × State} {v : Word}
    {u : State} {P : State → Prop} (run : exec i s = ran s (partyRead req own addr sel rd s.begin))
    (who : whoOf req own = some w) (passes : access s w false addr.toNat 4 = .ok (b, .reg tray blk off))
    (picked : sel (4096 * blk + off) = true) (reads : rd b tray blk off s.begin = (v, u)) (touched : Touch [.sy] s.begin u)
    (h : ∀ t, t.out = [.value v] → AgreeOff [.out, .sy] s t →
      (∀ n, ∃ act, (t.at n).sy = { (u.at n).sy with hostAct := act }) → P t) : Answers i s P := by
  rw [partyRead_of_ok who (access_begin.trans passes) picked, reads] at run
  refine answers_of_run run fun t _ e => h t ?_ ?_ fun n => ?_
  · rw [e.out, State.emit_out, hostDid_out, touched.at_out (by decide)]
    rfl
  · exact e.agreeOff_begin (by decide) (State.emit_touch (by decide) (hostDid_touch (by decide) (touched.mono (by decide))))
  · rw [e.at_eq, State.emit_at]
    exact hostDid_sy

theorem updSnap_sy {f : Sy → Sy} : ((updSnap b f s).at c).sy = if b = c then f (s.at c).sy else (s.at c).sy := by
  rw [updSnap_at, apply_ite Berth.sy]

/-! ### Snapshots -/

theorem mem_allB : b ∈ allB := by
  revert b
  decide

theorem partyWrite_snap {v : Word} (who : whoOf req own = some w) {a : Nat} (passes : access s w true a 4 = .ok (b, .reg tray 0 0x020)) :
    partyWrite w a v s = hostDid req (snapWrite b tray (bitAt v 0) (bitAt v 1) s) := by
  simp only [partyWrite, writeAccess, passes, req_of_whoOf who]
  rfl

theorem snapWrite_touch_sy {take release : Bool} : Touch [.sy] s (snapWrite b tray take release s) := snapWrite_touch sub_self .refl

/-- An order to SY_SNAP answers in the snapshot's rule, but for the host activity. -/
theorem answers_snap {i : Instr} {v : Word} {a : Nat} {P : State → Prop} (run : exec i s = ran s (partyWrite w a v s.begin))
    (who : whoOf req own = some w) (passes : access s w true a 4 = .ok (b, .reg tray 0 0x020))
    (h : ∀ t, AgreeOff [.out, .sy] s t →
      (∀ n, ∃ act, (t.at n).sy = { ((snapWrite b tray (bitAt v 0) (bitAt v 1) s.begin).at n).sy with hostAct := act }) → P t) :
    Answers i s P := by
  rw [partyWrite_snap who (access_begin.trans passes)] at run
  refine answers_of_run run fun t _ e => h t ?_ fun n => ?_
  · exact e.agreeOff_begin (by decide) (hostDid_touch (by decide) (snapWrite_touch (by decide) .refl))
  · rw [e.at_eq]
    exact hostDid_sy

theorem snapWrite_take_sy : ((snapWrite b false true false s).at b).sy = { (s.at b).sy with
    snapPend := true, snapExpired := false, snapAt := none, snapTray := false, snapBerths := 0 } := by
  simp [snapWrite, snapBerths, iter_cons, iter_nil]

theorem snapWrite_release_sy :
    ((snapWrite b false false true s).at b).sy = { (s.at b).sy with snapFrozen := false, frozen := [] } := by
  simp [snapWrite, iter_cons, iter_nil]

/-- What TAKE leaves of berth n where its order reaches it. -/
def Armed (at' : Option Nat) (y : Sy) : Prop := y.snapPend = true ∧ y.snapExpired = false ∧ y.snapAt = at'

theorem snapTake_reaches (mem : n ∈ snapBerths s b tray) :
    Armed (if tray then some (markCount (tdOf s b) + 1) else none) ((snapWrite b tray true false s).at n).sy := by
  refine iter_reaches (P := fun t => Armed _ (t.at n).sy) mem (fun t => ?_) fun m t armed => ?_
  · rw [updSnap_sy, if_pos rfl]
    exact ⟨rfl, rfl, rfl⟩
  · rw [updSnap_sy]
    by_cases same : m = n
    · rw [if_pos same]
      exact ⟨rfl, rfl, rfl⟩
    · rw [if_neg same]
      exact armed

theorem snapRelease_reaches (mem : n ∈ (if tray then allB else [b])) :
    ((snapWrite b tray false true s).at n).sy.snapFrozen = false ∧ ((snapWrite b tray false true s).at n).sy.frozen = [] := by
  refine iter_reaches (P := fun t => (t.at n).sy.snapFrozen = false ∧ (t.at n).sy.frozen = []) mem (fun t => ?_) fun m t free => ?_
  · rw [updSnap_sy, if_pos rfl]
    exact ⟨rfl, rfl⟩
  · rw [updSnap_sy]
    split
    · exact ⟨rfl, rfl⟩
    · exact free

end

/-- Settles O10: each read and order is its own change of SY_; a tray-wide snapshot order reaches every berth it names. -/
theorem readsAndSnapshots : Obligations.ReadsAndSnapshots := by
  refine ⟨fun s req own b addr w tray blk off who passes => ⟨fun low => ?low, fun l ⟨high, latched, ctr⟩ => ?latch,
    fun ⟨high, empty⟩ => ?live, fun key => ?err⟩, fun s req own b w who => ⟨fun passes => ⟨?take, ?release⟩, fun passes =>
    ⟨?takeTray, ?releaseTray⟩, fun ⟨frozen, due⟩ => ?expiry⟩⟩
  case low =>
    refine answers_partyRead rfl who passes low rfl (updSnap_touch sub_self .refl) fun t out agree sy => ?_
    obtain ⟨_, sy⟩ := sy b
    refine ⟨out.trans (by rw [regValue_begin]), agree, ?_, fun q ne => ?_⟩
    · rw [sy, updSnap_sy, if_pos rfl, regValue_begin]
      exact vget_vset_self req.isLt
    · rw [sy, updSnap_sy, if_pos rfl]
      exact vget_vset_ne (Fin.val_ne_of_ne ne.symm)
  case latch =>
    have reads : counterHigh b tray req blk off s.begin =
        (l.hi, updSnap b (fun y => { y with latch := vset y.latch req.val none }) s.begin) := by
      simp [counterHigh, latched, ctr]
    refine answers_partyRead rfl who passes high reads (updSnap_touch sub_self .refl) fun t out agree sy => ⟨out, agree, ?_⟩
    obtain ⟨_, sy⟩ := sy b
    rw [sy, updSnap_sy, if_pos rfl]
    exact vget_vset_self req.isLt
  case live =>
    have reads : counterHigh b tray req blk off s.begin = ((regValue s b tray req blk off).getD 0, s.begin) := by
      simp [counterHigh, empty]
    exact answers_partyRead rfl who passes high reads .refl fun t out agree _ => ⟨out, agree⟩
  case err =>
    refine answers_partyRead rfl who passes (beq_iff_eq.mpr key) rfl (updSnap_touch sub_self .refl) fun t out agree sy => ?_
    obtain ⟨_, sy⟩ := sy b
    refine ⟨out.trans (by rw [liveReg_begin]), agree, ?_⟩
    rw [sy, updSnap_sy, if_pos rfl]
    exact ⟨rfl, rfl⟩
  case take =>
    have run : exec (.snapTake req own (some b)) s = ran s (partyWrite w (snapAddr (some b)) 1 s.begin) := by
      rw [show exec (.snapTake req own (some b)) s = ran s (snapTake req own (some b) s.begin) from rfl, snapTake, who]
    refine answers_snap run who passes fun t agree sy => ?_
    obtain ⟨_, sy⟩ := sy b
    rw [sy, show bitAt 1 0 = true from rfl, show bitAt 1 1 = false from rfl, snapWrite_take_sy]
    exact ⟨rfl, rfl, rfl, agree⟩
  case release =>
    have run : exec (.snapRelease req own (some b)) s = ran s (partyWrite w (snapAddr (some b)) 2 s.begin) := by
      rw [show exec (.snapRelease req own (some b)) s = ran s (snapRelease req own (some b) s.begin) from rfl, snapRelease, who]
    refine answers_snap run who passes fun t agree sy => ?_
    obtain ⟨_, sy⟩ := sy b
    rw [sy, show bitAt 2 0 = false from rfl, show bitAt 2 1 = true from rfl, snapWrite_release_sy]
    exact ⟨rfl, rfl, rfl, agree⟩
  case takeTray =>
    have run : exec (.snapTake req own none) s = ran s (partyWrite w (snapAddr none) 1 s.begin) := by
      rw [show exec (.snapTake req own none) s = ran s (snapTake req own none s.begin) from rfl, snapTake, who]
    refine answers_snap run who passes fun t agree sy => ⟨agree, fun n reach => ?_⟩
    obtain ⟨_, sy⟩ := sy n
    have mem : n ∈ snapBerths s.begin b true := List.mem_filter.mpr ⟨mem_allB, reach⟩
    obtain ⟨pend, -, at'⟩ := snapTake_reaches mem
    rw [sy, show bitAt 1 0 = true from rfl, show bitAt 1 1 = false from rfl]
    exact ⟨pend, at'⟩
  case releaseTray =>
    have run : exec (.snapRelease req own none) s = ran s (partyWrite w (snapAddr none) 2 s.begin) := by
      rw [show exec (.snapRelease req own none) s = ran s (snapRelease req own none s.begin) from rfl, snapRelease, who]
    refine answers_snap run who passes fun t agree sy => ⟨agree, fun n => ?_⟩
    obtain ⟨_, sy⟩ := sy n
    have free := snapRelease_reaches (s := s.begin) (b := b) (n := n) (tray := true) mem_allB
    rw [sy, show bitAt 2 0 = false from rfl, show bitAt 2 1 = true from rfl]
    exact free
  case expiry =>
    refine answers_of_run rfl fun t queue e => ?_
    have run : snapExpiry b s.begin = updSnap b (fun y => { y with snapFrozen := false, frozen := [], snapExpired := true }) s.begin :=
      if_pos (by simp [frozen, due])
    rw [run] at e
    exact ⟨e.keeps queue (.ofBegin updSnap_within), e.agreeOff_begin (by decide) (updSnap_touch (by decide) .refl),
      by rw [e.at_eq, updSnap_sy, if_pos rfl]; rfl⟩

end Sys2Proof.Machine

/-! The tide loop and TIDE flits (R48 to R53, R59 to R61). -/
namespace Sys2Proof.Machine
set_option Elab.async false

section
variable {s t : State} {b c h n : BId} {at0 r : Nat} {f : Td → Td}

theorem updTd_td : ((updTd b f s).at c).td = if b = c then f (s.at c).td else (s.at c).td := by
  rw [updTd_at, apply_ite Berth.td]

theorem updTd_td_self : ((updTd b f s).at b).td = f (s.at b).td := updTd_td.trans (if_pos rfl)

theorem updTd_within : Within b s (updTd b f s) := by unfold updTd; exact .upd

theorem updTd_harbour : (updTd b f s).harbour = s.harbour := by
  have sy (c : BId) : ((updTd b f s).at c).sy = (s.at c).sy := (updTd_touch sub_self .refl).at_sy (by decide) c
  rw [State.harbour, State.harbour, sy, sy]

theorem classEvent_congr {cls : Nat} {hist : Hist} (harbour : t.harbour = s.harbour) (ch : (t.at b).ch = (s.at b).ch)
    (tide : ∀ c, (t.at c).td.tide = (s.at c).td.tide) : classEvent t b cls hist = classEvent s b cls hist := by
  simp only [classEvent, retireNW, State.hTide, harbour, ch, tide]

/-- A change that keeps the tide counts moves no window of a fault class (R62, R455). -/
theorem classEvent_updTd {cls : Nat} {hist : Hist} (keeps : ∀ t, (f t).tide = t.tide) :
    classEvent (updTd b f s) c cls hist = classEvent s c cls hist := by
  refine classEvent_congr updTd_harbour ((updTd_touch sub_self .refl).at_ch (by decide) c) fun c => ?_
  rw [updTd_td]
  split
  · exact keeps _
  · rfl

/-! ### The tide loop (R48 to R53) -/

theorem loopFilt_updTd (keeps : ∀ t, (f t).filt = t.filt) : loopFilt ((updTd b f s).at c) = loopFilt (s.at c) := by
  have log : ((updTd b f s).at c).log = (s.at c).log := (updTd_touch sub_self .refl).at_log (by decide) c
  have filt : ((updTd b f s).at c).td.filt = (s.at c).td.filt := by
    rw [updTd_td]
    split
    · exact keeps _
    · rfl
  rw [loopFilt, loopFilt, log, filt]

/-- One more miss or rejection in a row. -/
def lossNoted (b : BId) (s : State) : State := updTd b (fun t => { t with losses := t.losses + 1 }) s

theorem lossNoted_td : ((lossNoted b s).at b).td = { (s.at b).td with losses := (s.at b).td.losses + 1 } := updTd_td_self

theorem lossNoted_filt : loopFilt ((lossNoted b s).at b) = loopFilt (s.at b) := loopFilt_updTd fun _ => rfl

theorem lossNoted_isHbr : (lossNoted b s).isHbr b = s.isHbr b := by
  rw [State.isHbr, State.isHbr, lossNoted, (updTd_touch sub_self .refl).at_sy (by decide)]

theorem lossNoted_within : Within b s (lossNoted b s) := updTd_within

/-- The end of LOCKED: HOLD, or INPUT_RETIRED with a notice where the events of the input say so (R53, R457). -/
def tideLockLost (b : BId) (u : State) : State :=
  let ev := classEvent u b 2 (tdOf u b).inHist
  let st : Loop := if ev.1 then .inputRetired else .hold
  let v := updTd b (fun t => { loopDrop (u.isHbr b) st t with lockLoss := sinc t.lockLoss, inHist := ev.2.1, holdTides := 0 }) u
  if ev.1 then notice b 2 0 2 ev.2.2 v else v

/-- LOSS_COUNT misses or rejections in a row. -/
def lossActs (b : BId) (u : State) : State :=
  match (tdOf u b).loop with
  | .acquire => updTd b (loopDrop (u.isHbr b) (if (tdOf u b).fromHold then .hold else .free)) u
  | .locked => tideLockLost b u
  | _ => u

theorem loopLoss_eq : loopLoss b s =
    if (tdOf (lossNoted b s) b).losses < fld (loopFilt ((lossNoted b s).at b)) 15 12 then lossNoted b s
    else lossActs b (lossNoted b s) := rfl

theorem loopLoss_stays (few : (s.at b).td.losses + 1 < fld (loopFilt (s.at b)) 15 12) : loopLoss b s = lossNoted b s := by
  rw [loopLoss_eq, lossNoted_filt, tdOf, lossNoted_td, if_pos few]

theorem loopLoss_ends (many : fld (loopFilt (s.at b)) 15 12 ≤ (s.at b).td.losses + 1) : loopLoss b s = lossActs b (lossNoted b s) := by
  rw [loopLoss_eq, lossNoted_filt, tdOf, lossNoted_td, if_neg (Nat.not_lt.mpr many)]

theorem lossActs_acquire (acquire : (s.at b).td.loop = .acquire) :
    lossActs b s = updTd b (loopDrop (s.isHbr b) (if (s.at b).td.fromHold then .hold else .free)) s := by
  rw [lossActs, tdOf, acquire]

theorem tideLockLost_td : ((tideLockLost b s).at b).td.ref = none ∧ ((tideLockLost b s).at b).td.lockLoss = sinc (s.at b).td.lockLoss
    ∧ ((tideLockLost b s).at b).td.loop = (if (classEvent s b 2 (s.at b).td.inHist).1 then .inputRetired else .hold) := by
  unfold tideLockLost
  extract_lets ev st v
  have told : ((if ev.1 then notice b 2 0 2 ev.2.2 v else v).at b).td = (v.at b).td :=
    (ite_touch (fs := [.out, .rp]) (notice_touch (by decide) .refl) .refl).at_td (by decide) b
  rw [told, updTd_td_self]
  exact ⟨rfl, rfl, rfl⟩

theorem tideLockLost_within : Within b s (tideLockLost b s) := by
  unfold tideLockLost
  exact .ite (updTd_within.trans ringSend_within) updTd_within

theorem lossNoted_inHist : classEvent (lossNoted b s) b 2 ((lossNoted b s).at b).td.inHist = classEvent s b 2 (s.at b).td.inHist := by
  rw [lossNoted_td]
  exact classEvent_updTd fun _ => rfl

/-- The level has held for the filter time: what the candidate comes to, the edge being out of the filter. -/
def candidateActs (b : BId) (at0 : Nat) (s : State) : State :=
  if (tdOf s b).loop == .inputRetired then updTd b (fun t => { t with edgeOk := sinc t.edgeOk }) s
  else if (match (tdOf s b).ref with
      | none => true
      | some r => decide (r + (loopWindow (s.at b)).1 ≤ at0 * 2 ^ 32) && decide (at0 * 2 ^ 32 ≤ r + (loopWindow (s.at b)).2)) then
    loopEdge b at0 s
  else loopLoss b (updTd b (fun t => { t with edgeRej := sinc t.edgeRej }) s)

theorem tideCandidate_held (edge : (s.at b).td.edgeAt = some at0) (late : at0 + glitchTime (s.at b) ≤ s.now)
    (on : inputOn s b = true) : tideCandidate b s = candidateActs b at0 (updTd b (fun t => { t with edgeAt := none }) s) := by
  have on' : inputOn (updTd b (fun t => { t with edgeAt := none }) s) b = true := by
    simpa [inputOn, tdOf, loopCtrl] using on
  unfold tideCandidate
  simp only [tdOf, edge, if_neg (Nat.not_lt.mpr late), on', Bool.not_true, Bool.false_eq_true, if_false]
  rfl

theorem classEvent_begin {cls : Nat} {hist : Hist} : classEvent s.begin b cls hist = classEvent s b cls hist := rfl

/-- Berth b once the edge at its filter has left it. -/
def edgeLeft (b : BId) (s : State) : State := updTd b (fun t => { t with edgeAt := none }) s

theorem edgeLeft_td : ((edgeLeft b s).at b).td = { (s.at b).td with edgeAt := none } := updTd_td_self

theorem edgeLeft_filt : loopFilt ((edgeLeft b s).at b) = loopFilt (s.at b) := loopFilt_updTd fun _ => rfl

theorem edgeLeft_window : loopWindow ((edgeLeft b s).at b) = loopWindow (s.at b) := by
  rw [loopWindow, loopWindow, edgeLeft_filt, edgeLeft_td]

/-- A candidate outside the window is rejected. -/
def edgeRejected (b : BId) (s : State) : State := updTd b (fun t => { t with edgeRej := sinc t.edgeRej }) s

theorem edgeRejected_td : ((edgeRejected b s).at b).td = { (s.at b).td with edgeRej := sinc (s.at b).td.edgeRej } := updTd_td_self

theorem edgeRejected_filt : loopFilt ((edgeRejected b s).at b) = loopFilt (s.at b) := loopFilt_updTd fun _ => rfl

theorem candidateActs_retired (retired : (s.at b).td.loop = .inputRetired) :
    candidateActs b at0 s = updTd b (fun t => { t with edgeOk := sinc t.edgeOk }) s := if_pos (by simp [tdOf, retired])

theorem candidateActs_first (notRetired : (s.at b).td.loop ≠ .inputRetired) (first : (s.at b).td.ref = none) :
    candidateActs b at0 s = loopEdge b at0 s :=
  (if_neg (by simpa [tdOf] using notRetired)).trans (if_pos (by simp [tdOf, first]))

theorem candidateActs_inside (notRetired : (s.at b).td.loop ≠ .inputRetired) (ref : (s.at b).td.ref = some r)
    (lower : r + (loopWindow (s.at b)).1 ≤ at0 * 2 ^ 32) (upper : at0 * 2 ^ 32 ≤ r + (loopWindow (s.at b)).2) :
    candidateActs b at0 s = loopEdge b at0 s :=
  (if_neg (by simpa [tdOf] using notRetired)).trans (if_pos (by simp only [tdOf, ref, lower, upper, decide_true, Bool.and_self]))

theorem candidateActs_outside (notRetired : (s.at b).td.loop ≠ .inputRetired) (ref : (s.at b).td.ref = some r)
    (outside : at0 * 2 ^ 32 < r + (loopWindow (s.at b)).1 ∨ r + (loopWindow (s.at b)).2 < at0 * 2 ^ 32) :
    candidateActs b at0 s = loopLoss b (edgeRejected b s) := by
  refine (if_neg (by simpa [tdOf] using notRetired)).trans (if_neg ?_)
  simp only [tdOf, ref, Bool.and_eq_true, decide_eq_true_eq]
  omega

theorem loopEdge_within : Within b s (loopEdge b at0 s) := by
  unfold loopEdge
  exact updTd_within

theorem loopEdge_first (first : (s.at b).td.ref = none) : ((loopEdge b at0 s).at b).td = { (s.at b).td with
    edgeOk := sinc (s.at b).td.edgeOk, ref := some (at0 * 2 ^ 32), clean := true, losses := 0, periods := []
    fromHold := (s.at b).td.loop == .hold, loop := .acquire } := by
  rw [loopEdge, updTd_td_self]
  simp only [first]

theorem loopEdge_locked (locked : (s.at b).td.loop = .locked) (ref : (s.at b).td.ref = some r) (clean : (s.at b).td.clean = true) :
    ((loopEdge b at0 s).at b).td.loop = .locked ∧ ((loopEdge b at0 s).at b).td.ref = some (at0 * 2 ^ 32)
      ∧ ((loopEdge b at0 s).at b).td.losses = 0 ∧ ((loopEdge b at0 s).at b).td.edgeOk = sinc (s.at b).td.edgeOk
      ∧ ((loopEdge b at0 s).at b).td.p = (7 * (s.at b).td.p + (at0 * 2 ^ 32 - r)) / 8 := by
  rw [loopEdge, updTd_td_self]
  simp only [ref, clean, if_true, loopPeriod, locked]
  split
  · exact ⟨rfl, rfl, rfl, rfl, rfl⟩
  · exact ⟨rfl, rfl, rfl, rfl, rfl⟩

/-- A window without an edge moves the reference point on by a period. -/
def windowMissed (b : BId) (r : Nat) (s : State) : State := updTd b (fun t => { t with
  ref := some (r + if (tdOf s b).loop == .locked then (tdOf s b).p else (tdOf s b).pn), clean := false, periods := [] }) s

theorem windowMissed_td : ((windowMissed b r s).at b).td = { (s.at b).td with
    ref := some (r + if (s.at b).td.loop = .locked then (s.at b).td.p else (s.at b).td.pn), clean := false, periods := [] } := by
  rw [windowMissed, updTd_td_self]
  simp [tdOf]

theorem windowMissed_inHist :
    classEvent (windowMissed b r s) b 2 ((windowMissed b r s).at b).td.inHist = classEvent s b 2 (s.at b).td.inHist := by
  rw [windowMissed_td]
  exact classEvent_updTd fun _ => rfl

theorem windowMissed_filt : loopFilt ((windowMissed b r s).at b) = loopFilt (s.at b) := loopFilt_updTd fun _ => rfl

theorem tideMiss_eq (ref : (s.at b).td.ref = some r) : tideMiss b s = loopLoss b (windowMissed b r s) := by
  simp only [tideMiss, tdOf, ref]
  rfl

theorem loopLoss_within : Within b s (loopLoss b s) := by
  rw [loopLoss_eq]
  refine .ite lossNoted_within (lossNoted_within.trans ?_)
  unfold lossActs
  split
  · exact updTd_within
  · exact tideLockLost_within
  · exact .refl

end

/-- Settles O11: an edge is filtered, judged against the window and taken or rejected; losses in a row end the loop's state. -/
theorem tideLoop : Obligations.TideLoop := by
  refine fun s b => ⟨fun high on => ?transition, fun at0 ⟨edge, early⟩ => ?early, fun at0 ⟨edge, late, on⟩ => ?candidate,
    fun r ref => ?miss, fun ⟨due, hold⟩ => ?expiry⟩
  case transition =>
    refine answers_of_run rfl fun t queue e => ?_
    have run : tideTransition b high s.begin = updTd b (fun t => { t with
        edgeAt := if high = !bitAt (loopCtrl (s.at b)) 1 then t.edgeAt.or (some s.now) else none }) s.begin := by
      unfold tideTransition
      rw [if_neg (by simpa using show inputOn s.begin b = true from on)]
      by_cases rises : high = !bitAt (loopCtrl (s.at b)) 1
      · simp only [rises, State.begin_at, BEq.rfl, if_true, State.begin_now]
      · simp only [beq_eq_false_iff_ne.mpr rises, rises, State.begin_at, Bool.false_eq_true, if_false]
    rw [run] at e
    exact ⟨e.keeps queue (.ofBegin updTd_within), e.agreeOff_begin (by decide) (updTd_touch (by decide) .refl),
      by rw [e.at_eq, updTd_td_self]; rfl⟩
  case early =>
    have run : tideCandidate b s.begin = s.begin := by
      simp only [tideCandidate, tdOf, State.begin_at, edge, glitchTime, State.begin_now]
      exact if_pos early
    exact ⟨_, congrArg (ran s) run, rfl⟩
  case candidate =>
    have run : tideCandidate b s.begin = candidateActs b at0 (edgeLeft b s.begin) := tideCandidate_held (s := s.begin) edge late on
    have answers {P : State → Prop} {u : State} (acts : candidateActs b at0 (edgeLeft b s.begin) = u) (within : Within b (edgeLeft b s.begin) u)
        (h : ∀ t, Keeps [b] s t → (t.at b).td = (u.at b).td → P t) : Answers (.tideCandidate b) s P :=
      answers_of_run (congrArg (ran s) (run.trans acts)) fun t queue e =>
        h t (e.keeps queue (.ofBegin (updTd_within.trans within))) (by rw [e.at_eq])
    have left : ((edgeLeft b s.begin).at b).td = { (s.at b).td with edgeAt := none } := edgeLeft_td
    have window : loopWindow ((edgeLeft b s.begin).at b) = loopWindow (s.at b) := edgeLeft_window
    refine ⟨fun retired => ?_, fun ⟨notRetired, first⟩ => ?_, fun r ⟨locked, ref, clean, lower, upper⟩ => ?_,
      fun r ⟨notRetired, ref, outside, few⟩ => ?_⟩
    · refine answers (candidateActs_retired (by rw [left, retired])) updTd_within fun t keeps td => ⟨?_, keeps⟩
      rw [td, updTd_td_self, left]
    · refine answers (candidateActs_first (by rw [left]; exact notRetired) (by rw [left, first])) loopEdge_within fun t keeps td => ⟨keeps, ?_⟩
      rw [td, loopEdge_first (by rw [left, first]), left]
    · refine answers (candidateActs_inside (by simp [left, locked]) (by rw [left, ref]) (by rw [window]; exact lower)
        (by rw [window]; exact upper)) loopEdge_within fun t keeps td => ⟨keeps, ?_⟩
      have edge := loopEdge_locked (s := edgeLeft b s.begin) (at0 := at0) (by rw [left, locked]) (by rw [left, ref]) (by rw [left, clean])
      rw [left] at edge
      rw [td]
      exact edge
    · have few' : ((edgeRejected b (edgeLeft b s.begin)).at b).td.losses + 1
          < fld (loopFilt ((edgeRejected b (edgeLeft b s.begin)).at b)) 15 12 := by
        rw [edgeRejected_filt, edgeLeft_filt, edgeRejected_td, left]
        exact few
      refine answers (candidateActs_outside (by rw [left]; exact notRetired) (by rw [left, ref]) (by rw [window]; exact outside))
        (updTd_within.trans loopLoss_within) fun t keeps td => ⟨keeps, ?_⟩
      rw [td, loopLoss_stays few', lossNoted_td, edgeRejected_td, left]
  case miss =>
    have run : tideMiss b s.begin = loopLoss b (windowMissed b r s.begin) := tideMiss_eq ref
    have missed : ((windowMissed b r s.begin).at b).td = _ := windowMissed_td
    have filt : loopFilt ((windowMissed b r s.begin).at b) = loopFilt (s.at b) := windowMissed_filt
    have answers {P : State → Prop} (h : ∀ t, Keeps [b] s t → (t.at b).td = ((loopLoss b (windowMissed b r s.begin)).at b).td → P t) :
        Answers (.tideMiss b) s P :=
      answers_of_run (congrArg (ran s) run) fun t queue e =>
        h t (e.keeps queue (.ofBegin (updTd_within.trans loopLoss_within))) (by rw [e.at_eq])
    refine ⟨fun few => answers fun t keeps td => ⟨keeps, ?_⟩, fun ⟨many, acquire⟩ => answers fun t keeps td => ⟨keeps, ?_⟩,
      fun ⟨many, locked⟩ => answers fun t keeps td => ⟨keeps, ?_⟩⟩
    · rw [td, loopLoss_stays (by rw [filt, missed]; exact few), lossNoted_td, missed]
      rfl
    · rw [td, loopLoss_ends (by rw [filt, missed]; exact many), lossActs_acquire (by rw [lossNoted_td, missed]; exact acquire), updTd_td_self,
        lossNoted_td, missed]
      exact ⟨rfl, rfl⟩
    · have lost : lossActs b (lossNoted b (windowMissed b r s.begin)) = tideLockLost b (lossNoted b (windowMissed b r s.begin)) := by
        rw [lossActs, tdOf, lossNoted_td, missed, show (s.begin.at b).td.loop = .locked from locked]
      have spec := tideLockLost_td (s := lossNoted b (windowMissed b r s.begin)) (b := b)
      rw [td, loopLoss_ends (by rw [filt, missed]; exact many), lost]
      rw [lossNoted_inHist, windowMissed_inHist, lossNoted_td, missed] at spec
      exact spec
  case expiry =>
    refine answers_of_run rfl fun t queue e => ?_
    have run : holdExpiry b s.begin = updTd b (loopDrop (s.isHbr b) .free) s.begin := by
      refine (if_neg (Nat.not_lt.mpr due)).trans ?_
      rw [tdOf, State.begin_at, hold]
      rfl
    rw [run] at e
    exact ⟨e.keeps queue (.ofBegin updTd_within), by rw [e.at_eq, updTd_td_self]; exact ⟨rfl, rfl⟩⟩

end Sys2Proof.Machine

/-! TIDE flits at a berth that is not the harbour (R5, R59 to R61). -/
namespace Sys2Proof.Machine
set_option Elab.async false

section
variable {s t u : State} {b c n src : BId} {count : Nat} {h d : Int} {f : Td → Td}

/-- Berth b as a mark flit of berth src tells it: heard, and its skew measured. -/
def flitHeard (b src : BId) (count : Nat) (h : Int) (s : State) : State :=
  updTd b (fun t => { t with skew := toNs (skewOf t count h) })
    (updSy b (fun y => { y with heard := true, harbour := src }) s)

theorem flitHeard_td : ((flitHeard b src count h s).at b).td = { (s.at b).td with skew := toNs (skewOf (s.at b).td count h) } := by
  rw [flitHeard, updTd_td_self, (updSy_touch sub_self .refl).at_td (by decide)]

theorem flitHeard_sy : ((flitHeard b src count h s).at c).sy =
    if b = c then { (s.at c).sy with heard := true, harbour := src } else (s.at c).sy := by
  rw [flitHeard, (updTd_touch sub_self .refl).at_sy (by decide), updSy_at, apply_ite Berth.sy]

theorem flitHeard_within : Within b s (flitHeard b src count h s) := updSy_within.trans updTd_within

theorem flitHeard_harbour : (flitHeard b src count h s).harbour = s.harbour := by
  have role (c : BId) : ((flitHeard b src count h s).at c).sy.isHarbour = (s.at c).sy.isHarbour := by
    rw [flitHeard_sy]
    split
    · rfl
    · rfl
  rw [State.harbour, State.harbour, role, role]

/-- What a berth does on a flit it has heard. -/
def flitActs (b : BId) (tide mark : Nat) (h : Int) (s : State) : State :=
  let t := tdOf s b
  let count := tide * 256 + mark
  if !t.synced then updTd b (fun t => takeBoundary h { t with tide := tide, mark := mark, synced := true }) s
  else if !t.held then align b count h s
  else if count == markCount t then updTd b (takeBoundary h) s
  else if count > markCount t then align b count h (updTd b (takeBoundary h) s)
  else if markCount t > count + 256 then align b count h s
  else s

theorem markFlit_eq {w : BitVec 64} {sub : Nat} : markFlit b w sub s =
    flitActs b (w.toNat % 2 ^ 40) (w.toNat / 2 ^ 40 % 256)
      (flitBoundary s.now sub ((hops s (bid (w.toNat / 2 ^ 56 % 8)) b).getD 0))
      (flitHeard b (bid (w.toNat / 2 ^ 56 % 8)) (w.toNat % 2 ^ 40 * 256 + w.toNat / 2 ^ 40 % 256)
        (flitBoundary s.now sub ((hops s (bid (w.toNat / 2 ^ 56 % 8)) b).getD 0)) s) := rfl

theorem flitActs_first {tide mark : Nat} (first : (s.at b).td.synced = false) : flitActs b tide mark h s =
    updTd b (fun t => takeBoundary h { t with tide := tide, mark := mark, synced := true }) s := if_pos (by simp [tdOf, first])

theorem flitActs_runs {tide mark : Nat} (synced : (s.at b).td.synced = true) (runs : (s.at b).td.held = false) :
    flitActs b tide mark h s = align b (tide * 256 + mark) h s :=
  (if_neg (by simp [tdOf, synced])).trans (if_pos (by simp [tdOf, runs]))

theorem flitActs_ahead {tide mark : Nat} (synced : (s.at b).td.synced = true) (ahead : tide * 256 + mark + 256 < markCount (s.at b).td) :
    flitActs b tide mark h s = align b (tide * 256 + mark) h s := by
  refine (if_neg (by simp [tdOf, synced])).trans ?_
  split
  · rfl
  · rw [if_neg (by simp only [tdOf, beq_iff_eq]; omega), if_neg (by simp only [tdOf]; omega), if_pos (by simpa only [tdOf] using ahead)]

/-! ### What an alignment does (R60, R61) -/

theorem align_none (eq : alignOf (s.at b).td count h = .none) : align b count h s = s := by
  simp only [align, tdOf, eq]

theorem align_slew (eq : alignOf (s.at b).td count h = .slew) :
    align b count h s = updTd b (fun t => slewFor t count (skewOf t count h)) s := by
  simp only [align, tdOf, eq]

theorem align_resync (eq : alignOf (s.at b).td count h = .resync) : align b count h s = resync b count h s := by
  simp only [align, tdOf, eq]

theorem align_far (eq : alignOf (s.at b).td count h = .far) (harbour : s.harbour = some n) :
    align b count h s = harbourRetire n b 0x24 0 s := by
  simp only [align, tdOf, eq, harbour]

theorem alignOf_same {x : Td} (same : markCount x = count) : alignOf x count h =
    if (toNs (skewOf x count h)).natAbs ≤ 40 then .none else if (skewOf x count h).natAbs * 8 ≤ x.pn then .slew else .resync := by
  simp [alignOf, same]

theorem alignOf_behind {x : Td} (behind : markCount x + 1 < count) : alignOf x count h = .resync := by
  unfold alignOf
  dsimp only
  rw [if_neg (by simp only [Bool.or_eq_true, Bool.and_eq_true, beq_iff_eq]; omega), if_neg (by omega)]

theorem alignOf_ahead {x : Td} (ahead : count < markCount x) (near : markCount x ≤ count + 256) : alignOf x count h = .resync := by
  unfold alignOf
  dsimp only
  rw [if_neg (by simp only [Bool.or_eq_true, Bool.and_eq_true, beq_iff_eq]; omega), if_neg (by omega)]

theorem alignOf_far {x : Td} (far : count + 256 < markCount x) : alignOf x count h = .far := by
  unfold alignOf
  dsimp only
  rw [if_neg (by simp only [Bool.or_eq_true, Bool.and_eq_true, beq_iff_eq]; omega), if_pos (by omega)]

theorem slewFor_same {x : Td} (same : markCount x = count) :
    slewFor x count d = { x with slewLeft := d - x.slewNow, slewBy := 64 } := by
  rw [slewFor, if_pos (beq_iff_eq.mpr same.symm)]

theorem resyncAct_behind {x : Td} (behind : markCount x < count) :
    resyncAct count h x = { x with load := some (loadCount count h x), held := false } :=
  (if_neg (by simp only [beq_iff_eq]; omega)).trans (if_pos behind)

theorem resyncAct_ahead {x : Td} (ahead : count < markCount x) : resyncAct count h x = { x with held := true, load := none } :=
  (if_neg (by simp only [beq_iff_eq]; omega)).trans (if_neg (by omega))

theorem isHarbour_of_harbour (harbour : s.harbour = some n) : (s.at n).sy.isHarbour = true := by
  unfold State.harbour at harbour
  split at harbour
  case isTrue zero => exact Option.some.inj harbour ▸ zero
  case isFalse =>
    split at harbour
    case isTrue four => exact Option.some.inj harbour ▸ four
    case isFalse => cases harbour

/-- A resynchronisation that does not retire the berth. -/
theorem resync_stays (stays : (classEvent s b 3 (s.at b).td.syncHist).1 = false) : ∃ hist, resync b count h s =
    updTd b (resyncAct count h) (updTd b (fun t => { t with resync := sinc t.resync, syncHist := hist }) s) := by
  refine ⟨(classEvent s b 3 (s.at b).td.syncHist).2.1, ?_⟩
  simp only [resync, resyncCount, tdOf, stays]

theorem resync_within (stays : (classEvent s b 3 (s.at b).td.syncHist).1 = false) : Within b s (resync b count h s) := by
  obtain ⟨_, run⟩ := resync_stays (count := count) (h := h) stays
  rw [run]
  exact updTd_within.trans updTd_within

theorem flitHeard_classEvent {cls : Nat} {hist : Hist} :
    classEvent (flitHeard b src count h s) c cls hist = classEvent s c cls hist := by
  have ch : ((flitHeard b src count h s).at c).ch = (s.at c).ch :=
    (updTd_touch (fs := [.sy, .td]) (by decide) (updSy_touch (by decide) .refl)).at_ch (by decide) c
  refine classEvent_congr flitHeard_harbour ch fun c => ?_
  rw [flitHeard, updTd_td, (updSy_touch sub_self .refl).at_td (by decide)]
  split
  · rfl
  · rfl

theorem harbourRetire_sends (ne : b ≠ n) (serves : nbit (s.at n).tray.hl.retired b.val = false) (clock : (s.at n).sy.holdover = false)
    {rule events : Nat} : .ring n (some b) .retireOrder ∈ (harbourRetire n b rule events s).out := by
  have run : harbourRetire n b rule events s = ringSend n (some b) .retireOrder (hlRetire n b 3 0 rule events s) :=
    if_neg (by simp [ne, serves])
  have same : ((hlRetire n b 3 0 rule events s).at n).sy = (s.at n).sy := (hlRetire_touch sub_self .refl).at_sy (by decide) n
  rw [run, ringSend_out_of_clock (by rw [same, clock])]
  simp

end

/-- Settles O12: each line of the table of R60 and R61 is one case of the alignment. -/
theorem tideFlits : Obligations.TideFlits := by
  rintro s b w sub count h d ⟨other, listens, rfl, rfl, rfl⟩
  have guard {f : TideFlit} (ok : tideFlitOk f = true) : ¬ (s.begin.isHbr b
      || !(serving s.begin b || (syOf s.begin b).st == .isolated) || !tideFlitOk f) = true := by
    rcases listens with listens | listens <;> simp [State.isHbr, other, ok, syOf, listens]
  refine ⟨fun f bad => ?bad, fun ok => ?period, fun ok => ?mark⟩
  case bad =>
    have run : tideFlitReceive b f sub.val s.begin = s.begin := if_pos (by simp [bad])
    exact ⟨_, congrArg (ran s) run, rfl⟩
  case period =>
    refine answers_of_run (congrArg (ran s) (if_neg (guard ok))) fun t queue e => ?_
    refine ⟨e.keeps queue (.ofBegin updTd_within), e.agreeOff_begin (by decide) (updTd_touch (by decide) .refl), ?_⟩
    rw [e.at_eq, updTd_td_self]
    by_cases early : (s.at b).td.mark < 128
    · simp only [takeDither, State.begin_at, early, if_true, and_self]
    · simp only [takeDither, State.begin_at, early, if_false, and_self]
  case mark =>
    have run : tideFlitReceive b (.mark w) sub.val s.begin = _ := (if_neg (guard ok)).trans markFlit_eq
    generalize bid (w.toNat / 2 ^ 56 % 8) = src at run ⊢
    generalize w.toNat % 2 ^ 40 = tide at run ⊢
    generalize w.toNat / 2 ^ 40 % 256 = mark at run ⊢
    change tideFlitReceive b (.mark w) sub.val s.begin = flitActs b tide mark (flitBoundary s.now sub.val ((hops s src b).getD 0))
      (flitHeard b src (tide * 256 + mark) (flitBoundary s.now sub.val ((hops s src b).getD 0)) s.begin) at run
    generalize flitBoundary s.now sub.val ((hops s src b).getD 0) = h at run ⊢
    have td : ((flitHeard b src (tide * 256 + mark) h s.begin).at b).td = _ := flitHeard_td
    have answers {P : State → Prop} {u : State} (acts : flitActs b tide mark h (flitHeard b src (tide * 256 + mark) h s.begin) = u)
        (within : Within b (flitHeard b src (tide * 256 + mark) h s.begin) u)
        (p : ∀ t, Keeps [b] s t → (t.at b).td = (u.at b).td → (t.at b).sy = (u.at b).sy → P t) :
        Answers (.tideFlitReceive b (.mark w) sub) s P :=
      answers_of_run (congrArg (ran s) (run.trans acts)) fun t queue e =>
        p t (e.keeps queue (.ofBegin (flitHeard_within.trans within))) (by rw [e.at_eq]) (by rw [e.at_eq])
    refine ⟨fun first => ?_, fun ⟨synced, runs, same, near⟩ => ?_, fun ⟨synced, runs, same, off, near⟩ => ?_,
      fun ⟨synced, runs, behind, stays⟩ => ?_, fun ⟨synced, runs, ahead, near, stays⟩ => ?_,
      fun n ⟨harbour, synced, far, serves, clock⟩ => ?_⟩
    · refine answers (flitActs_first (by rw [td]; exact first)) updTd_within fun t keeps td' sy => ⟨keeps, ?_⟩
      rw [td', updTd_td_self, sy, (updTd_touch sub_self .refl).at_sy (by decide), flitHeard_sy, if_pos rfl]
      exact ⟨rfl, rfl, rfl, rfl, rfl⟩
    · have eq : alignOf ((flitHeard b src (tide * 256 + mark) h s.begin).at b).td (tide * 256 + mark) h = .none := by
        rw [td]
        exact (alignOf_same same).trans (if_pos near)
      refine answers ((flitActs_runs (by rw [td]; exact synced) (by rw [td]; exact runs)).trans (align_none eq)) .refl
        fun t keeps td' sy => ⟨keeps, td'.trans td, ?_⟩
      rw [sy, flitHeard_sy, if_pos rfl]
    · have eq : alignOf ((flitHeard b src (tide * 256 + mark) h s.begin).at b).td (tide * 256 + mark) h = .slew := by
        rw [td]
        exact (alignOf_same same).trans ((if_neg (Nat.not_le.mpr off)).trans (if_pos near))
      refine answers ((flitActs_runs (by rw [td]; exact synced) (by rw [td]; exact runs)).trans (align_slew eq)) updTd_within
        fun t keeps td' sy => ⟨keeps, ?_⟩
      rw [td', updTd_td_self, td]
      exact slewFor_same same
    · have eq : alignOf ((flitHeard b src (tide * 256 + mark) h s.begin).at b).td (tide * 256 + mark) h = .resync := by
        rw [td]
        exact alignOf_behind behind
      have stays' : (classEvent (flitHeard b src (tide * 256 + mark) h s.begin) b 3
          ((flitHeard b src (tide * 256 + mark) h s.begin).at b).td.syncHist).1 = false := by rw [flitHeard_classEvent, td]; exact stays
      refine answers ((flitActs_runs (by rw [td]; exact synced) (by rw [td]; exact runs)).trans (align_resync eq)) (resync_within stays')
        fun t keeps td' sy => ⟨keeps, ?_⟩
      obtain ⟨hist, resynced⟩ := resync_stays (count := tide * 256 + mark) (h := h) stays'
      rw [td', resynced, updTd_td_self, updTd_td_self, td, resyncAct_behind]
      · exact ⟨rfl, rfl, rfl⟩
      · exact Nat.lt_of_succ_lt behind
    · have eq : alignOf ((flitHeard b src (tide * 256 + mark) h s.begin).at b).td (tide * 256 + mark) h = .resync := by
        rw [td]
        exact alignOf_ahead ahead near
      have stays' : (classEvent (flitHeard b src (tide * 256 + mark) h s.begin) b 3
          ((flitHeard b src (tide * 256 + mark) h s.begin).at b).td.syncHist).1 = false := by rw [flitHeard_classEvent, td]; exact stays
      refine answers ((flitActs_runs (by rw [td]; exact synced) (by rw [td]; exact runs)).trans (align_resync eq)) (resync_within stays')
        fun t keeps td' sy => ⟨keeps, ?_⟩
      obtain ⟨hist, resynced⟩ := resync_stays (count := tide * 256 + mark) (h := h) stays'
      rw [td', resynced, updTd_td_self, updTd_td_self, td, resyncAct_ahead]
      · exact ⟨rfl, rfl, rfl⟩
      · exact ahead
    · have ne : b ≠ n := fun same => by
        have role : (s.at n).sy.isHarbour = true := isHarbour_of_harbour harbour
        rw [← same, other] at role
        cases role
      have eq : alignOf ((flitHeard b src (tide * 256 + mark) h s.begin).at b).td (tide * 256 + mark) h = .far := by
        rw [td]
        exact alignOf_far far
      have acts : flitActs b tide mark h (flitHeard b src (tide * 256 + mark) h s.begin) =
          harbourRetire n b 0x24 0 (flitHeard b src (tide * 256 + mark) h s.begin) :=
        (flitActs_ahead (by rw [td]; exact synced) (by rw [td]; exact far)).trans (align_far eq (flitHeard_harbour.trans harbour))
      refine answers_of_run (congrArg (ran s) (run.trans acts)) fun t queue e => ?_
      have tray : ((flitHeard b src (tide * 256 + mark) h s.begin).at n).tray = (s.at n).tray :=
        (updTd_touch (fs := [.sy, .td]) (by decide) (updSy_touch (by decide) .refl)).at_tray (by decide) n
      rw [e.out]
      refine harbourRetire_sends ne (by rw [tray]; exact serves) ?_
      rw [flitHeard_sy, if_neg ne]
      exact clock

end Sys2Proof.Machine

/-! The boundary of a mark (R47, R55, R61, R62, R65). -/
namespace Sys2Proof.Machine
set_option Elab.async false

/-- What the acts of a mark leave of every berth's generator: all but the dither's LFSR and the number of the next flit. -/
def ClocksKept (s t : State) : Prop := ∀ c, ∃ lfsr seq, (t.at c).td = { (s.at c).td with lfsr := lfsr, flitSeq := seq }

section
variable {r s t u s0 : State} {b c n : BId} {fs : List Piece} {f : Td → Td}

theorem ClocksKept.refl : ClocksKept s s := fun _ => ⟨_, _, rfl⟩

theorem ClocksKept.trans (h : ClocksKept s t) (k : ClocksKept t u) : ClocksKept s u := fun c => by
  obtain ⟨_, _, first⟩ := h c
  obtain ⟨l, q, second⟩ := k c
  exact ⟨l, q, by rw [second, first]⟩

theorem ClocksKept.touch (h : ClocksKept r s) (k : Touch fs s t) (n : .td ∉ fs := by decide) : ClocksKept r t :=
  h.trans fun c => ⟨_, _, k.at_td n c⟩

theorem ClocksKept.ite {p : Prop} [Decidable p] (ht : ClocksKept r s) (hu : ClocksKept r t) : ClocksKept r (if p then s else t) := by
  split
  · exact ht
  · exact hu

theorem sendTide_clocksKept (h : ClocksKept r s) : ClocksKept r (sendTide b s) := by
  unfold sendTide
  extract_lets fs s1
  have numbered : ClocksKept r s1 := h.trans fun c => by
    rw [updTd_td]
    split
    · exact ⟨_, _, rfl⟩
    · exact ⟨_, _, rfl⟩
  exact iter_induction (f := fun f t => ringSend b none (.tide f) t) numbered fun _ _ k => k.touch (ringSend_touch sub_self .refl)

theorem stateCopy_clocksKept (h : ClocksKept r s) : ClocksKept r (stateCopy b s) := by
  unfold stateCopy
  split
  · exact h
  · refine h.trans fun c => ?_
    rw [State.upd_at, apply_ite Berth.td]
    split
    · exact ⟨_, _, rfl⟩
    · exact ⟨_, _, rfl⟩

theorem harbourActs_clocksKept (h : ClocksKept r s) : ClocksKept r (harbourActs b s) :=
  .ite (stateCopy_clocksKept (sendTide_clocksKept (h.touch (harbourAdmits_touch sub_self .refl)))) h

/-! The features of an inference come from the state before the boundary's acts, whatever that is. -/

theorem sample_touches {g mark : Nat} : Touch [.rp, .pg] s (sample s0 b g mark s) := by
  unfold sample
  refine updGraph_touch (by decide) (Touch.iter (fun _ _ k => ?_) (updPg_touch (by decide) .refl))
  exact accessSend_touch (by decide) k

theorem startMark'_touches {g mark : Nat} :
    Touch [.out, .freeCtr, .rp, .log, .pl, .dk, .tw, .us, .ar, .pg] s (startMark' s0 b mark g s) := by
  have sampled (g : Nat) := (sample_touches (s := s) (s0 := s0) (b := b) (g := g) (mark := mark)).mono
    (show [.rp, .pg] ⊆ [.out, .freeCtr, .rp, .log, .pl, .dk, .tw, .us, .ar, .pg] by decide)
  unfold startMark'
  exact ite_touch .refl (ite_touch (begun_touch (by decide) (sampled g)) (ite_touch (sampled 1) .refl))

theorem policyMark_touches {mark : Nat} :
    Touch [.out, .freeCtr, .sy, .rp, .rl, .log, .pw, .hw, .cl, .pl, .dk, .tw, .us, .ar, .pg, .tray, .deck] s (policyMark s0 b mark s) := by
  unfold policyMark
  refine Touch.iter (fun g u k => k.trans (startMark'_touches.mono (by decide))) (Touch.iter (fun g u k => ?_) (Touch.iter (fun g u k => ?_)
    (Touch.iter (fun g u k => ?_) .refl)))
  · exact ite_touch (rePlace_touch (by decide) k) k
  · exact commit_touch (by decide) k
  · exact updGraph_touch (by decide) k

theorem scheduledActs_clocksKept (h : ClocksKept r s) : ClocksKept r (scheduledActs s0 b s) := by
  unfold scheduledActs
  extract_lets t s1 s2 s3 s4 s5 s6 s7
  have acted : ClocksKept r s1 :=
    ((harbourActs_clocksKept h).touch (bypassSwitch_touch sub_self .refl)).touch (harbourWindow_touch sub_self .refl)
  have marked : ClocksKept r s2 := .ite (acted.touch (irq_touch sub_self .refl)) acted
  have slotted : ClocksKept r s3 := .ite (marked.touch (slotMarkActs_touch sub_self .refl)) marked
  have graphs : ClocksKept r s4 := (slotted.touch policyMark_touches).touch (imagesMark_touch sub_self .refl)
  have arrays : ClocksKept r s5 := iter_induction graphs fun _ _ k => k.touch (arrayMark_touch sub_self .refl)
  have ledger : ClocksKept r s6 := arrays.touch (ledgerEval_touch sub_self .refl)
  have sounded : ClocksKept r s7 := .ite (ledger.touch (soundingRound_touch sub_self .refl)) ledger
  exact sounded.touch (soundingMark_touch sub_self .refl)

theorem snapFreeze_clocksKept (h : ClocksKept r s) : ClocksKept r (snapFreeze b s) := h.touch (snapFreeze_touch sub_self .refl)

theorem boundaryOnce_clocksKept (h : ClocksKept r s) : ClocksKept r (boundaryOnce b s) := h.touch (boundaryOnce_touch sub_self .refl)

/-! ### The count of marks -/

theorem tideZero_spec {hbr locked : Bool} {x : Td} : (tideZero hbr locked x).tide = (x.tide + 1) % 2 ^ 40
    ∧ (tideZero hbr locked x).mark = x.mark ∧ (tideZero hbr locked x).load = x.load
    ∧ (hbr = false → (tideZero hbr locked x).pn = x.pnNext.getD x.pn ∧ (tideZero hbr locked x).pnNext = none) := by
  unfold tideZero
  cases hbr with
  | true => cases locked <;> exact ⟨rfl, rfl, rfl, fun h => Bool.noConfusion h⟩
  | false => exact ⟨rfl, rfl, rfl, fun _ => ⟨rfl, rfl⟩⟩

theorem countUp_last {hbr locked : Bool} {x : Td} (last : x.mark = 255) :
    countUp hbr locked x = tideZero hbr locked { x with mark := 0 } := if_pos (by simp [last])

theorem countUp_inside {hbr locked : Bool} {x : Td} (inside : x.mark ≠ 255) : countUp hbr locked x = { x with mark := x.mark + 1 } :=
  if_neg (by simpa using inside)

theorem countUp_count {hbr locked : Bool} {x : Td} (mark : x.mark < 256) (room : markCount x + 1 < 2 ^ 48) :
    markCount (countUp hbr locked x) = markCount x + 1 ∧ (countUp hbr locked x).mark < 256 ∧ (countUp hbr locked x).load = x.load := by
  unfold markCount at room ⊢
  by_cases last : x.mark = 255
  · obtain ⟨tide, zero, load, -⟩ := tideZero_spec (hbr := hbr) (locked := locked) (x := { x with mark := 0 })
    rw [countUp_last last, tide, zero, load]
    refine ⟨?_, by dsimp only; omega, rfl⟩
    have wraps : (x.tide + 1) % 2 ^ 40 = x.tide + 1 := Nat.mod_eq_of_lt (by omega)
    change (x.tide + 1) % 2 ^ 40 * 256 + 0 = _
    omega
  · rw [countUp_inside last]
    exact ⟨by dsimp only; omega, by dsimp only; omega, rfl⟩

theorem countUp_spec {hbr locked : Bool} {x : Td} : (countUp hbr locked x).mark = (if x.mark = 255 then 0 else x.mark + 1)
    ∧ (countUp hbr locked x).tide = (if x.mark = 255 then (x.tide + 1) % 2 ^ 40 else x.tide)
    ∧ (x.mark = 255 → hbr = false → (countUp hbr locked x).pn = x.pnNext.getD x.pn ∧ (countUp hbr locked x).pnNext = none)
    ∧ (x.mark ≠ 255 → (countUp hbr locked x).pn = x.pn) := by
  by_cases last : x.mark = 255
  · obtain ⟨tide, zero, -, pn⟩ := tideZero_spec (hbr := hbr) (locked := locked) (x := { x with mark := 0 })
    rw [countUp_last last, if_pos last, if_pos last]
    exact ⟨zero, tide, fun _ => pn, fun inside => absurd last inside⟩
  · rw [countUp_inside last, if_neg last, if_neg last]
    exact ⟨rfl, rfl, fun h => absurd h last, fun _ => rfl⟩

theorem countMark_td : ((countMark b s).at b).td = countUp (s.isHbr b) (s.at b).log.on (s.at b).td := updTd_td_self

theorem countMark_td_ne (ne : n ≠ b) : ((countMark b s).at n).td = (s.at n).td := updTd_td.trans (if_neg ne.symm)

theorem oneMark_td : ∃ lfsr seq, ((oneMark b s).at n).td = { ((countMark b s).at n).td with lfsr := lfsr, flitSeq := seq } :=
  scheduledActs_clocksKept .refl n

/-- Marks that go by advance the count of their berth, one each. -/
theorem manyMarks_count {k : Nat} (mark : (s.at b).td.mark < 256) (room : markCount (s.at b).td + k < 2 ^ 48) :
    markCount ((manyMarks b k s).at b).td = markCount (s.at b).td + k ∧ ((manyMarks b k s).at b).td.mark < 256
      ∧ ((manyMarks b k s).at b).td.load = (s.at b).td.load := by
  induction k generalizing s with
  | zero => exact ⟨(Nat.add_zero _).symm, mark, rfl⟩
  | succ k ih =>
    obtain ⟨_, _, one⟩ := oneMark_td (s := s) (b := b) (n := b)
    obtain ⟨count, lt, load⟩ := countUp_count (hbr := s.isHbr b) (locked := (s.at b).log.on) mark (by omega)
    rw [← countMark_td] at count lt load
    have same : markCount ((oneMark b s).at b).td = markCount (s.at b).td + 1 := by rw [one]; exact count
    obtain ⟨count', lt', load'⟩ := ih (s := oneMark b s) (by rw [one]; exact lt) (by omega)
    exact ⟨count'.trans (by omega), lt', load'.trans (by rw [one]; exact load)⟩

/-- The count, the mark's boundary and the period of another berth do not move. -/
def SameClock (x y : Td) : Prop := y.mark = x.mark ∧ y.tide = x.tide ∧ y.markStart = x.markStart ∧ y.pn = x.pn

theorem manyMarks_other {k : Nat} (ne : n ≠ b) : SameClock (s.at n).td ((manyMarks b k s).at n).td := by
  induction k generalizing s with
  | zero => exact ⟨rfl, rfl, rfl, rfl⟩
  | succ k ih =>
    obtain ⟨_, _, one⟩ := oneMark_td (s := s) (b := b) (n := n)
    obtain ⟨mark, tide, start, pn⟩ := ih (s := oneMark b s)
    rw [one, countMark_td_ne ne] at mark tide start pn
    exact ⟨mark, tide, start, pn⟩

/-- The first mark of a boundary: its count, then its acts. -/
def firstMark (b : BId) (s : State) : State :=
  scheduledActs s b (boundaryOnce b (snapFreeze b (countMark b (updTd b (fun t => { t with load := none }) s))))

theorem firstMark_now : (firstMark b s).now = s.now :=
  (scheduledActs_touch sub_self .refl (boundaryOnce_touch (by decide) (snapFreeze_touch (by decide) (countMark_touch (by decide)
    (updTd_touch (by decide) .refl))))).at_now (by decide)

theorem firstMark_td : ∃ lfsr seq, ((firstMark b s).at b).td =
    { countUp (s.isHbr b) (s.at b).log.on { (s.at b).td with load := none } with lfsr := lfsr, flitSeq := seq } := by
  obtain ⟨l, q, kept⟩ := scheduledActs_clocksKept (s0 := s) (b := b) (boundaryOnce_clocksKept (b := b) (snapFreeze_clocksKept (b := b)
    (.refl (s := countMark b (updTd b (fun t => { t with load := none }) s))))) b
  refine ⟨l, q, kept.trans ?_⟩
  rw [countMark_td, updTd_td_self, State.isHbr, (updTd_touch sub_self .refl).at_sy (by decide),
    (updTd_touch sub_self .refl).at_log (by decide)]
  rfl

theorem firstMark_other (ne : n ≠ b) : SameClock (s.at n).td ((firstMark b s).at n).td := by
  obtain ⟨l, q, kept⟩ := scheduledActs_clocksKept (s0 := s) (b := b) (boundaryOnce_clocksKept (b := b) (snapFreeze_clocksKept (b := b)
    (.refl (s := countMark b (updTd b (fun t => { t with load := none }) s))))) n
  rw [countMark_td_ne ne, updTd_td, if_neg ne.symm] at kept
  rw [firstMark, kept]
  exact ⟨rfl, rfl, rfl, rfl⟩

theorem markBoundary_eq (runs : (s.at b).td.running = true) (free : (s.at b).td.held = false) : markBoundary b s =
    updTd b (beginMark (firstMark b s).now) (manyMarks b (marksPassed (s.at b).td - 1) (firstMark b s)) :=
  if_neg (by simp [tdOf, runs, free])

end

/-- Settles O54: the count goes up first; no act of the mark touches it again, and no other berth's. -/
theorem markBoundaries : Obligations.MarkBoundaries := by
  refine fun s b => ⟨fun still => ?still, fun ⟨runs, free⟩ => ?runs⟩
  case still =>
    refine answers_of_run rfl fun t queue e => ?_
    have run : markBoundary b s.begin = s.begin := if_pos (by rcases still with still | still <;> simp [tdOf, still])
    rw [run] at e
    exact ⟨e.agreeOff_begin (by decide) .refl, e.out⟩
  case runs =>
    have run : markBoundary b s.begin = updTd b (beginMark s.now)
        (manyMarks b (marksPassed (s.at b).td - 1) (firstMark b s.begin)) := by
      rw [markBoundary_eq (s := s.begin) runs free, firstMark_now]
      rfl
    refine ⟨fun n ne => ?_, fun noLoad => ?_, fun tide mark ⟨load, markLt, tideLt, ownLt, ahead⟩ => ?_⟩
    · refine answers_of_run (congrArg (ran s) run) fun t queue e => ?_
      obtain ⟨mark, tide, start, pn⟩ := firstMark_other (s := s.begin) ne
      obtain ⟨mark', tide', start', pn'⟩ := manyMarks_other (s := firstMark b s.begin) (k := marksPassed (s.at b).td - 1) ne
      rw [e.at_eq, updTd_td, if_neg ne.symm]
      exact ⟨mark'.trans mark, tide'.trans tide, start'.trans start, pn'.trans pn⟩
    · refine answers_of_run (congrArg (ran s) run) fun t queue e => ?_
      have once : marksPassed (s.at b).td - 1 = 0 := by simp [marksPassed, noLoad]
      obtain ⟨_, _, first⟩ := firstMark_td (s := s.begin) (b := b)
      rw [e.at_eq, updTd_td_self, once, manyMarks, first]
      obtain ⟨mark, tide, pn, pnLater⟩ := countUp_spec (hbr := s.isHbr b) (locked := (s.at b).log.on) (x := { (s.at b).td with load := none })
      exact ⟨rfl, mark, tide, fun ⟨last, other⟩ => pn last other, pnLater⟩
    · refine answers_of_run (congrArg (ran s) run) fun t queue e => ?_
      rw [e.at_eq, updTd_td_self]
      obtain ⟨_, _, first⟩ := firstMark_td (s := s.begin) (b := b)
      have passed : marksPassed (s.at b).td = tide * 256 + mark - markCount (s.at b).td := by
        simp only [marksPassed, load]
        omega
      have room : tide * 256 + mark < 2 ^ 48 := by omega
      obtain ⟨count, lt, none'⟩ := countUp_count (hbr := s.isHbr b) (locked := (s.at b).log.on) (x := { (s.at b).td with load := none }) ownLt
        (show markCount (s.at b).td + 1 < 2 ^ 48 by omega)
      have start : markCount ((firstMark b s.begin).at b).td = markCount (s.at b).td + 1
          ∧ ((firstMark b s.begin).at b).td.mark < 256 ∧ ((firstMark b s.begin).at b).td.load = none := by
        rw [first]
        exact ⟨count, lt, none'⟩
      obtain ⟨startCount, startLt, startLoad⟩ := start
      obtain ⟨count', lt', load'⟩ := manyMarks_count (s := firstMark b s.begin) (b := b) (k := marksPassed (s.at b).td - 1) startLt (by omega)
      have target : markCount ((manyMarks b (marksPassed (s.at b).td - 1) (firstMark b s.begin)).at b).td = tide * 256 + mark := by omega
      unfold markCount at target
      refine ⟨?_, ?_, load'.trans startLoad, rfl⟩
      · change ((manyMarks b (marksPassed (s.at b).td - 1) (firstMark b s.begin)).at b).td.tide = tide
        omega
      · change ((manyMarks b (marksPassed (s.at b).td - 1) (firstMark b s.begin)).at b).td.mark = mark
        omega

end Sys2Proof.Machine

/-! The end of a chart slot check, the chart stream and its acknowledgements (R93 to R97). -/
namespace Sys2Proof.Machine
set_option Elab.async false

section
variable {r s t u : State} {b c h n : BId} {slotB other rdErr : Bool} {bit cmd result code idx : Nat} {d : Dist} {f : Ch → Ch}

/-! ### The chart's state of a berth -/

theorem updCh_ch : ((updCh b f s).at c).ch = if b = c then f (s.at c).ch else (s.at c).ch := by
  rw [updCh_at, apply_ite Berth.ch]

theorem updCh_ch_self : ((updCh b f s).at b).ch = f (s.at b).ch := updCh_ch.trans (if_pos rfl)

theorem updCh_ch_ne (ne : b ≠ c) : ((updCh b f s).at c).ch = (s.at c).ch := updCh_ch.trans (if_neg ne)

theorem updCh_within : Within b s (updCh b f s) := by unfold updCh; exact .upd

/-- The end of an order to CH_CMD leaves nothing of the berth's chart but the order's own fields changed (R107). -/
theorem chCmdEnd_ch : ∃ busy result' redistFor, ((chCmdEnd h cmd result s).at c).ch =
    { (s.at c).ch with busy := busy, result := result', redistFor := redistFor } := by
  unfold chCmdEnd
  extract_lets ch
  by_cases runs : (ch.busy && ch.lastCmd == cmd) = true
  · rw [if_pos runs, updCh_ch]
    split
    · exact ⟨_, _, _, rfl⟩
    · exact ⟨_, _, _, rfl⟩
  · rw [if_neg runs]
    exact ⟨_, _, _, rfl⟩

theorem setStartFail_sameRoles : SameRoles s (setStartFail b code s) :=
  updSy_sameRoles (b := b) (f := fun y => { y with fail := code }) fun _ => ⟨rfl, rfl⟩

theorem SameRoles.harbour_eq (h : SameRoles s t) : t.harbour = s.harbour := by
  rw [State.harbour, State.harbour, h.isHarbour, h.isHarbour]

theorem nbit_or_bit {a : Nat} : nbit (a ||| 2 ^ bit) bit = true := by simp [nbit]

/-- An attention bit is set on the harbour (R412). -/
theorem attnAt_sets : nbit ((attnAt h bit s).at h).tw.attn bit = true := by
  unfold attnAt
  extract_lets tw fresh s1 s2
  have told : (s2.at h).tw = (s1.at h).tw := (telemetry_touch sub_self .refl).at_tw (by decide) h
  have marked : nbit (s1.at h).tw.attn bit = true := by
    simp only [s1, State.upd_at, if_true]
    exact nbit_or_bit
  split
  · rw [State.upd_at, if_pos rfl, told]
    exact marked
  · exact marked

theorem attn_sets (harbour : s.harbour = some h) : nbit ((attn bit s).at h).tw.attn bit = true := by
  rw [attn, harbour]
  exact attnAt_sets

/-! ### The end of a slot check (R93, R94, R96) -/

/-- The harbour's chart once a slot with these bytes has passed. -/
def passedCh (bs : List Byte) (slotB : Bool) (c : Ch) : Ch :=
  { chartFields bs (fun _ => true) c with state := .distributing, load := .idle, slot := some slotB }

/-- The tray once a slot has passed: every populated berth but the harbour is due. -/
def dueTray (populated : Nat) (h : BId) (slotB : Bool) (t : Tray) : Tray :=
  { t with
    dist := Vector.ofFn fun i => if i.val != h.val && nbit populated i.val then .due slotB else .none
    moor := .replicate 8 0, attempts := .replicate 8 0 }

theorem chartPassed_eq : chartPassed h slotB u = (updCh h (passedCh (slotChart u h slotB) slotB) u).updTray h
    (dueTray ((updCh h (passedCh (slotChart u h slotB) slotB) u).at h).populated h slotB) := rfl

theorem chartPassed_ch : ((chartPassed h slotB u).at h).ch = passedCh (slotChart u h slotB) slotB (u.at h).ch := by
  rw [chartPassed_eq, (State.updTray_touch sub_self .refl).at_ch (by decide) h, updCh_ch_self]

/-- Every other populated berth of the harbour's chart is due the slot that has passed (R96). -/
theorem chartPassed_dist : vget ((chartPassed h slotB u).at h).tray.dist n.val =
    if n ≠ h ∧ nbit ((chartPassed h slotB u).at h).populated n.val = true then .due slotB else .none := by
  have populated : ((chartPassed h slotB u).at h).populated =
      ((updCh h (passedCh (slotChart u h slotB) slotB) u).at h).populated := by
    rw [Berth.populated, Berth.populated, Berth.recWord, Berth.recWord, chartPassed_ch, updCh_ch_self]
  rw [populated, chartPassed_eq, State.updTray_at, if_pos rfl]
  simp [vget, dueTray, Fin.ext_iff]

/-- The harbour's chart once a slot has failed, the loader turning to the other slot. -/
def failedCh (ch : Ch) (slotB : Bool) (code idx now : Nat) : Ch :=
  { ch with errCode := code, errSlot := slotB, errIndex := idx, loadFail := sinc ch.loadFail, readSince := now
            load := .check (!slotB) false }

theorem chartBothFail_ch : ∃ busy result' redistFor, ((chartBothFail h s).at h).ch = { (s.at h).ch with
    state := .failed, load := .idle, busy := busy, result := result', redistFor := redistFor } := by
  unfold chartBothFail
  extract_lets s1 s2
  obtain ⟨busy, result', redistFor, ended⟩ := chCmdEnd_ch (h := h) (cmd := 1) (result := 0) (s := s2) (c := h)
  have told : ((attn 5 (chCmdEnd h 1 0 s2)).at h).ch = ((chCmdEnd h 1 0 s2).at h).ch := (attn_touch sub_self .refl).at_ch (by decide) h
  have marked : (s2.at h).ch = (s1.at h).ch :=
    (Touch.iter (f := fun b t => if (t.at b).sy.st == .moored then setStartFail b 1 t else t) (fs := [.sy])
      (fun b t k => ite_touch (setStartFail_touch (by decide) k) k) .refl).at_ch (by decide) h
  refine ⟨busy, result', redistFor, ?_⟩
  rw [told, ended, marked, updCh_ch_self]

theorem chartBothFail_attn (harbour : s.harbour = some h) : nbit ((chartBothFail h s).at h).tw.attn 5 = true := by
  unfold chartBothFail
  extract_lets s1 s2
  have marked : SameRoles s s2 := by
    refine .iter (Touch.sameRoles (updCh_touch sub_self .refl)) fun b t => ?_
    split
    · exact setStartFail_sameRoles
    · exact .refl
  exact attn_sets ((marked.touch (chCmdEnd_touch sub_self .refl)).harbour_eq.trans harbour)

theorem chartSlot_passes (passes : chartCheck (dfuChartCut h slotB s) h slotB rdErr = none) :
    chartSlot h slotB other rdErr s = chartPassed h slotB (dfuChartCut h slotB s) := by
  unfold chartSlot
  extract_lets u
  rw [passes]

theorem chartSlot_fails (fails : chartCheck (dfuChartCut h slotB s) h slotB rdErr = some (code, idx)) :
    chartSlot h slotB other rdErr s = if other then
      updCh h (failedCh · slotB code idx (dfuChartCut h slotB s).now) (dfuChartCut h slotB s)
    else chartBothFail h (updCh h (failedCh · slotB code idx (dfuChartCut h slotB s).now) (dfuChartCut h slotB s)) := by
  unfold chartSlot
  extract_lets u
  rw [fails]
  rfl

theorem slotCheckDone_check {unA unB : Bool} (role : s.isHbr h = true) (awake : s.dev.sleep = false)
    (load : (s.at h).ch.load = .check slotB other) : slotCheckDone h unA unB rdErr s =
      flashFree true h (chartSlot h slotB other (rdErr || (if slotB then unB else unA)) s) := by
  rw [slotCheckDone, role, awake, chOf, load]
  rfl

/-- The flash that is free for the log and a download leaves the chart, the tray and the attention bits alone. -/
theorem EndsAs.freed (e : EndsAs (flashFree true h u) t) :
    (t.at c).ch = (u.at c).ch ∧ (t.at c).tray = (u.at c).tray ∧ (t.at c).tw = (u.at c).tw := by
  have freed : Touch [.out, .freeCtr, .rp, .log, .dk, .us] u (flashFree true h u) := flashFree_touch sub_self .refl
  rw [e.at_eq]
  exact ⟨freed.at_ch (by decide) c, freed.at_tray (by decide) c, freed.at_tw (by decide) c⟩

/-- Settles O13: the check's outcome stands at the harbour, in the state in which the flash is free again. -/
theorem chartSlotCheck : Obligations.ChartSlotCheck := by
  unfold Obligations.ChartSlotCheck
  intro s h unA unB rdErr slotB other u ⟨harbour, awake, load, eq⟩
  have role : s.begin.isHbr h = true := isHarbour_of_harbour harbour
  have run := slotCheckDone_check (rdErr := rdErr) (unA := unA) (unB := unB) role awake load
  have cut : Touch [.out, .freeCtr, .rp, .log, .dk, .us] s.begin u := eq ▸ dfuChartCut_touch sub_self .refl
  have ch : (u.at h).ch = (s.at h).ch := cut.at_ch (by decide) h
  refine answers_of_run (congrArg (ran s) run) fun t queue e => ?_
  obtain ⟨ch', tray, tw⟩ := e.freed (c := h)
  cases check : chartCheck u h slotB (rdErr || (if slotB then unB else unA)) with
  | none =>
    rw [chartSlot_passes (eq ▸ check), ← eq] at e ch' tray
    refine ⟨by rw [ch', chartPassed_ch]; rfl, by rw [ch', chartPassed_ch]; rfl, by rw [ch', chartPassed_ch]; rfl,
      by rw [ch', chartPassed_ch]; rfl, fun n => ?_, ?_⟩
    · rw [tray, chartPassed_dist, Berth.populated, Berth.populated, Berth.recWord, Berth.recWord, ch']
    · exact e.agreeOff_begin (by decide) (flashFree_touch (by decide) (chartPassed_touch (by decide) (cut.mono (by decide))))
  | some failure =>
    obtain ⟨code, idx⟩ := failure
    rw [chartSlot_fails (eq ▸ check), ← eq] at ch' tw
    cases other with
    | true =>
      rw [if_pos rfl, updCh_ch_self, ch] at ch'
      rw [ch']
      exact ⟨rfl, rfl, rfl, rfl, fun _ => ⟨rfl, rfl⟩, fun no => absurd no (by decide)⟩
    | false =>
      rw [if_neg Bool.false_ne_true] at ch' tw
      obtain ⟨busy, result', redistFor, failed⟩ := chartBothFail_ch (h := h) (s := updCh h (failedCh · slotB code idx u.now) u)
      have kept : SameRoles s.begin (updCh h (failedCh · slotB code idx u.now) u) := cut.sameRoles.touch (updCh_touch sub_self .refl)
      rw [failed, updCh_ch_self, ch] at ch'
      rw [ch', tw]
      exact ⟨rfl, rfl, rfl, rfl, fun no => absurd no (by decide), fun _ => ⟨rfl, rfl, chartBothFail_attn (kept.harbour_eq.trans harbour)⟩⟩

/-! ### The chart stream and its acknowledgement (R96) -/

/-- Where a berth's distribution stands once the charts that are due have been sent. -/
def Dist.afterSend : Dist → Dist
  | .due sl => .sent sl false
  | d => d

/-- How many attempts a berth has had once the charts that are due have been sent. -/
def Dist.attemptsAfter (d : Dist) (k : Nat) : Nat :=
  match d with
  | .due _ => k + 1
  | _ => k

/-- One berth's turn in CHART_DISTRIBUTE. -/
def sendDue (h n : BId) (t : State) : State :=
  match distOf t n with
  | .due b =>
    ringSend h (some n) (.chart (slotChart (t.updTray h fun y => { y with
      dist := vset y.dist n.val (.sent b false), attempts := vset y.attempts n.val (vget y.attempts n.val + 1) }) h b))
      (t.updTray h fun y => { y with
        dist := vset y.dist n.val (.sent b false), attempts := vset y.attempts n.val (vget y.attempts n.val + 1) })
  | _ => t

theorem chartDistribute_eq (role : s.isHbr h = true) (on : (s.at h).ch.state = .distributing ∨ (s.at h).ch.locked = true) :
    chartDistribute h s = iter allB (sendDue h) s := by
  unfold chartDistribute
  extract_lets c
  rw [if_neg]
  · rfl
  · rw [role]
    rcases on with on | on <;> simp [c, chOf, on]

theorem tray_of_harbour (harbour : s.harbour = some h) : s.tray = (s.at h).tray := by rw [State.tray, harbour]

theorem distOf_of_harbour (harbour : s.harbour = some h) : distOf s n = vget (s.at h).tray.dist n.val := by
  rw [distOf, tray_of_harbour harbour]

theorem slotChart_congr (flash : (t.at h).flash = (s.at h).flash) : slotChart t h slotB = slotChart s h slotB := by
  unfold slotChart flashAt
  rw [flash]

/-- A state in which `x` has not had its turn yet, its turn, and a state after it. -/
theorem iter_turn {α : Type} {P Q : State → Prop} {f : α → State → State} {xs : List α} {x : α} (mem : x ∈ xs) (distinct : xs.Nodup)
    (hs : P s) (before : ∀ y t, y ≠ x → P t → P (f y t)) (turn : ∀ t, P t → Q (f x t)) (after : ∀ y t, y ≠ x → Q t → Q (f y t)) :
    Q (iter xs f s) := by
  induction xs generalizing s with
  | nil => exact absurd mem List.not_mem_nil
  | cons y ys ih =>
    obtain ⟨out, distinct'⟩ := List.nodup_cons.mp distinct
    rw [iter_cons]
    by_cases same : y = x
    · subst same
      refine List.foldlRecOn ys _ (turn s hs) fun u hu z mem' => after z u (fun eq => out (eq ▸ mem')) hu
    · exact ih (List.mem_of_ne_of_mem (Ne.symm same) mem) distinct' (before y s same hs)

theorem allB_nodup : allB.Nodup := by decide

/-- The harbour's tray once the chart in a slot is on its way to berth n. -/
def sentTray (n : BId) (sl : Bool) (y : Tray) : Tray :=
  { y with dist := vset y.dist n.val (.sent sl false), attempts := vset y.attempts n.val (vget y.attempts n.val + 1) }

theorem sendDue_due {sl : Bool} (due : distOf s n = .due sl) : sendDue h n s =
    ringSend h (some n) (.chart (slotChart (s.updTray h (sentTray n sl)) h sl)) (s.updTray h (sentTray n sl)) := by
  rw [sendDue, due]
  rfl

theorem sendDue_not_due (no : ∀ sl, distOf s n ≠ .due sl) : sendDue h n s = s := by
  unfold sendDue
  split
  case h_1 sl due => exact absurd due (no sl)
  case h_2 => rfl

/-- A berth's turn changes its own entries of the harbour's tray, and sends it the chart that is due. -/
structure Sends (h n : BId) (s t : State) : Prop where
  touch : Touch [.out, .rp, .tray] s t
  others : ∀ k : BId, k ≠ n → vget (t.at h).tray.dist k.val = vget (s.at h).tray.dist k.val
    ∧ vget (t.at h).tray.attempts k.val = vget (s.at h).tray.attempts k.val
  own : vget (t.at h).tray.dist n.val = (vget (s.at h).tray.dist n.val).afterSend
    ∧ vget (t.at h).tray.attempts n.val = (vget (s.at h).tray.dist n.val).attemptsAfter (vget (s.at h).tray.attempts n.val)
  more : ∀ o ∈ s.out, o ∈ t.out
  sent : (s.at h).sy.holdover = false → ∀ sl, vget (s.at h).tray.dist n.val = .due sl →
    .ring h (some n) (.chart (slotChart s h sl)) ∈ t.out

theorem sendDue_sends (harbour : s.harbour = some h) : Sends h n s (sendDue h n s) := by
  by_cases due : ∃ sl, vget (s.at h).tray.dist n.val = .due sl
  · obtain ⟨sl, due⟩ := due
    rw [sendDue_due ((distOf_of_harbour harbour).trans due)]
    have tray : ((ringSend h (some n) (.chart (slotChart (s.updTray h (sentTray n sl)) h sl)) (s.updTray h (sentTray n sl))).at h).tray
        = sentTray n sl (s.at h).tray := by
      rw [(ringSend_touch sub_self .refl).at_tray (by decide) h, State.updTray_at, if_pos rfl]
    refine ⟨ringSend_touch (by decide) (State.updTray_touch (by decide) .refl), fun k ne => ?_, ?_, fun o mem => mem_ringSend_out mem,
      fun clock sl' due' => ?_⟩
    · rw [tray]
      exact ⟨vget_vset_ne (Fin.val_ne_of_ne ne.symm), vget_vset_ne (Fin.val_ne_of_ne ne.symm)⟩
    · rw [tray, due]
      exact ⟨vget_vset_self n.isLt, vget_vset_self n.isLt⟩
    · obtain rfl : sl = sl' := Dist.due.inj (due.symm.trans due')
      rw [ringSend_out_of_clock, slotChart_congr]
      · exact List.mem_append_right _ (List.mem_singleton.mpr rfl)
      · exact (State.updTray_touch sub_self .refl).at_flash (by decide) h
      · rw [(State.updTray_touch sub_self .refl).at_sy (by decide) h]
        exact clock
  · have no (sl : Bool) : vget (s.at h).tray.dist n.val ≠ .due sl := fun eq => due ⟨sl, eq⟩
    rw [sendDue_not_due fun sl => distOf_of_harbour harbour ▸ no sl]
    refine ⟨.refl, fun _ _ => ⟨rfl, rfl⟩, ?_, fun _ mem => mem, fun _ sl is => absurd is (no sl)⟩
    cases at_n : vget (s.at h).tray.dist n.val with
    | due sl => exact absurd at_n (no sl)
    | _ => exact ⟨rfl, rfl⟩

theorem Touch.harbour_eq {fs : List Piece} (k : Touch fs s t) (out : .sy ∉ fs := by decide) : t.harbour = s.harbour :=
  (k.sameRoles out).harbour_eq

/-- Before its turn a berth's entries stand as they were. -/
structure BeforeSend (h n : BId) (s t : State) : Prop where
  touch : Touch [.out, .rp, .tray] s t
  own : vget (t.at h).tray.dist n.val = vget (s.at h).tray.dist n.val
    ∧ vget (t.at h).tray.attempts n.val = vget (s.at h).tray.attempts n.val

/-- After its turn a berth has been sent the chart that was due. -/
structure AfterSend (h n : BId) (s t : State) : Prop where
  touch : Touch [.out, .rp, .tray] s t
  own : vget (t.at h).tray.dist n.val = (vget (s.at h).tray.dist n.val).afterSend
    ∧ vget (t.at h).tray.attempts n.val = (vget (s.at h).tray.dist n.val).attemptsAfter (vget (s.at h).tray.attempts n.val)
  sent : (s.at h).sy.holdover = false → ∀ sl, vget (s.at h).tray.dist n.val = .due sl →
    .ring h (some n) (.chart (slotChart s h sl)) ∈ t.out

/-- Every berth that is due is sent the chart of the passing slot (R96). -/
theorem iter_sendDue (harbour : s.harbour = some h) : AfterSend h n s (iter allB (sendDue h) s) := by
  refine iter_turn (P := BeforeSend h n s) (x := n) mem_allB allB_nodup ⟨.refl, rfl, rfl⟩ (fun y t ne before => ?_)
    (fun t before => ?_) fun y t ne done => ?_
  · have sends := sendDue_sends (n := y) (before.touch.harbour_eq.trans harbour)
    obtain ⟨dist, attempts⟩ := sends.others n ne.symm
    exact ⟨before.touch.trans sends.touch, dist.trans before.own.1, attempts.trans before.own.2⟩
  · have sends := sendDue_sends (n := n) (before.touch.harbour_eq.trans harbour)
    obtain ⟨dist, attempts⟩ := sends.own
    obtain ⟨dist', attempts'⟩ := before.own
    refine ⟨before.touch.trans sends.touch, ⟨dist.trans (by rw [dist']), attempts.trans (by rw [dist', attempts'])⟩, fun clock sl due => ?_⟩
    have chart : slotChart t h sl = slotChart s h sl := slotChart_congr (before.touch.at_flash (by decide) h)
    rw [← chart]
    exact sends.sent (by rw [before.touch.at_sy (by decide)]; exact clock) sl (dist'.trans due)
  · have sends := sendDue_sends (n := y) (done.touch.harbour_eq.trans harbour)
    obtain ⟨dist, attempts⟩ := sends.others n ne.symm
    exact ⟨done.touch.trans sends.touch, ⟨dist.trans done.own.1, attempts.trans done.own.2⟩,
      fun clock sl due => sends.more _ (done.sent clock sl due)⟩

/-- A moored berth's chart once it has the stream. -/
def streamCh (b : BId) (bs : List Byte) (c : Ch) : Ch := { chartFields bs (keepsRec b) c with state := .distributing, stream := bs }

/-- The moored berth holds the stream's chart. -/
def streamed (b : BId) (bs : List Byte) (s : State) : State := updCh b (streamCh b bs) s

/-- It notes whether its own check of key and signature is due. -/
def sigNoted (b : BId) (s : State) : State := updCh b (fun c => { c with sigDue := hbrCap (s.at b) b }) s

/-- A berth's first acknowledgement, of the chart it holds. -/
def firstAck (c : Ch) : ChartAck := .first c.digest c.ver c.rollback (vget c.fuse 0)

theorem chartStream_moored {bs : List Byte} (moored : (s.at b).sy.st = .moored) (other : (s.at b).sy.isHarbour = false) :
    chartStream b bs s = ringSend b (some ((sigNoted b (streamed b bs s)).at b).sy.harbour)
      (.chartAck (firstAck (chOf (streamed b bs s) b))) (sigNoted b (streamed b bs s)) :=
  if_neg (by simp [moored, State.isHbr, other])

theorem sigNoted_streamed_ch {bs : List Byte} : ((sigNoted b (streamed b bs s)).at b).ch =
    { streamCh b bs (s.at b).ch with sigDue := hbrCap ((sigNoted b (streamed b bs s)).at b) b } := by
  have recs : ((sigNoted b (streamed b bs s)).at b).ch.recs = ((streamed b bs s).at b).ch.recs := by
    rw [sigNoted, updCh_ch_self]
  have cap : hbrCap ((sigNoted b (streamed b bs s)).at b) b = hbrCap ((streamed b bs s).at b) b := by
    rw [hbrCap, hbrCap, Berth.recWord, Berth.recWord, recs]
  rw [cap, sigNoted, updCh_ch_self, streamed, updCh_ch_self]

theorem hbrCap_congr {x y : Berth} (recs : x.ch.recs = y.ch.recs) : hbrCap x b = hbrCap y b := by
  rw [hbrCap, hbrCap, Berth.recWord, Berth.recWord, recs]

/-- The berth's check of key and signature is over. -/
def sigChecked (b : BId) (s : State) : State := updCh b (fun c => { c with sigDue := false, stream := [] }) s

theorem berthSignature_due (due : (s.at b).ch.sigDue = true) : berthSignature b s =
    ringSend b (some (s.at b).sy.harbour) (.chartAck (.sig (chartAuthentic (s.at b) (s.at b).ch.stream))) (sigChecked b s) :=
  if_neg (by simp [chOf, due])

/-- Settles O14: the distribution is one turn for each berth; the berth's own part is two changes of its chart and a message. -/
theorem chartStream_holds : Obligations.ChartStream := by
  unfold Obligations.ChartStream
  intro s h b bs
  refine ⟨fun ⟨harbour, on⟩ => ?_, fun ⟨moored, other⟩ => ?_, fun due => ?_⟩
  · refine answers_of_run (congrArg (ran s) (chartDistribute_eq (s := s.begin) (isHarbour_of_harbour harbour) on)) fun t queue e => ?_
    have sent (n : BId) := iter_sendDue (n := n) (s := s.begin) harbour
    refine ⟨e.agreeOff_begin (by decide) (sent 0).touch, fun n => ⟨fun sl due => ?_, fun no => ?_⟩⟩
    · obtain ⟨dist, attempts⟩ := (sent n).own
      rw [State.begin_at, due] at dist attempts
      rw [e.at_eq, e.out]
      exact ⟨dist, attempts, fun clock => (sent n).sent clock sl due⟩
    · obtain ⟨dist, -⟩ := (sent n).own
      rw [e.at_eq, dist, State.begin_at]
      cases at_n : vget (s.at h).tray.dist n.val with
      | due sl => exact absurd at_n (no sl)
      | _ => rfl
  · refine answers_of_run (congrArg (ran s) (chartStream_moored (s := s.begin) (bs := bs) moored other)) fun t queue e => ?_
    have touch : Touch [.ch] s.begin (sigNoted b (streamed b bs s.begin)) := updCh_touch (by decide) (updCh_touch sub_self .refl)
    have sent : (t.at b).ch = ((sigNoted b (streamed b bs s.begin)).at b).ch :=
      (Touch.trans (ringSend_touch sub_self .refl) e.touch).at_ch (by decide) b
    have ch := sent.trans sigNoted_streamed_ch
    refine ⟨e.keeps queue (.ofBegin ((updCh_within.trans updCh_within).trans ringSend_within)),
      e.agreeOff_begin (by decide) (ringSend_touch (by decide) (touch.mono (by decide))), by rw [ch]; rfl, by rw [ch]; rfl, by rw [ch]; rfl,
      fun rs ok => ?_, ?_, fun clock => ?_⟩
    · rw [ch]
      simp [streamCh, chartFields, ok]
    · rw [hbrCap_congr (congrArg Ch.recs sent), ch]
    · rw [e.out, ringSend_out_of_clock, touch.at_sy (by decide), touch.at_out (by decide), chOf, streamed, updCh_ch_self]
      · rfl
      · rw [touch.at_sy (by decide)]
        exact clock
  · refine answers_of_run (congrArg (ran s) (berthSignature_due (s := s.begin) due)) fun t queue e => ?_
    have touch : Touch [.ch] s.begin (sigChecked b s.begin) := updCh_touch sub_self .refl
    have sent : (t.at b).ch = ((sigChecked b s.begin).at b).ch := (Touch.trans (ringSend_touch sub_self .refl) e.touch).at_ch (by decide) b
    refine ⟨e.keeps queue (.ofBegin (updCh_within.trans ringSend_within)), sent.trans updCh_ch_self, fun clock => ?_⟩
    rw [e.out, ringSend_out_of_clock, touch.at_out (by decide)]
    · rfl
    · rw [touch.at_sy (by decide)]
      exact clock

end

end Sys2Proof.Machine

/-! Acknowledgements of the chart, held berths and the chart lock (R96 to R98). -/
namespace Sys2Proof.Machine
set_option Elab.async false

section
variable {r s t u : State} {b c h n : BId} {sl first ok : Bool} {cause rb fuse cmd result : Nat} {w : Word} {d : Dist} {dg : List Byte}

/-! ### The harbour judges an acknowledgement (R96, R97) -/

theorem setDist_within : Within h s (setDist h n d s) := by unfold setDist State.updTray; exact .upd

theorem setDist_dist : vget ((setDist h n d s).at h).tray.dist n.val = d := by
  rw [setDist, State.updTray_at, if_pos rfl]
  exact vget_vset_self n.isLt

theorem setStartFail_fail : ((setStartFail b cause s).at b).sy.fail = cause := by
  rw [setStartFail, State.upd_at, if_pos rfl]

/-- A berth that is held moored: its entry of the tray, the cause and its start's failure (R97). -/
theorem holdMoored_holds : vget ((holdMoored h n cause s).at h).tray.dist n.val = .held
    ∧ vget ((holdMoored h n cause s).at h).tray.moor n.val = cause ∧ ((holdMoored h n cause s).at n).sy.fail = 2 := by
  unfold holdMoored
  extract_lets s1 s2 s3
  have marked : Touch [.sy, .ch] s1 s2 := setStartFail_touch (by decide) (updCh_touch (by decide) .refl)
  have ended : Touch [.freeCtr, .ch, .dk, .tw, .us] s2 (attn 5 s3) :=
    attn_touch (by decide) (ite_touch (chCmdEnd_touch (by decide) .refl) .refl)
  have tray : ((attn 5 s3).at h).tray = (s1.at h).tray :=
    (ended.at_tray (by decide) h).trans (marked.at_tray (by decide) h)
  rw [tray, ended.at_sy (by decide) n, State.updTray_at, if_pos rfl]
  exact ⟨vget_vset_self n.isLt, vget_vset_self n.isLt, setStartFail_fail⟩

theorem attemptFails_again (few : vget (s.at h).tray.attempts n.val < 3) :
    attemptFails h n sl cause s = setDist h n (.due sl) s := if_neg (Nat.not_le.mpr few)

theorem attemptFails_held (many : 3 ≤ vget (s.at h).tray.attempts n.val) :
    attemptFails h n sl cause s = holdMoored h n cause s := if_pos many

/-- An attempt that has failed: the berth is due again, or held after three attempts. -/
theorem EndsAs.attemptFailed (e : EndsAs (attemptFails h n sl cause s.begin) t) :
    (vget (s.at h).tray.attempts n.val < 3 → vget (t.at h).tray.dist n.val = .due sl ∧ AgreeOff [.out, .tray] s t)
    ∧ (3 ≤ vget (s.at h).tray.attempts n.val → vget (t.at h).tray.dist n.val = .held ∧ (t.at n).sy.fail = 2
        ∧ vget (t.at h).tray.moor n.val = cause) := by
  refine ⟨fun few => ?_, fun many => ?_⟩
  · rw [attemptFails_again (s := s.begin) few] at e
    rw [e.at_eq]
    exact ⟨setDist_dist, e.agreeOff_begin (by decide) (setDist_touch (by decide) .refl)⟩
  · rw [attemptFails_held (s := s.begin) many] at e
    obtain ⟨held, moor, fail⟩ := holdMoored_holds (h := h) (n := n) (cause := cause) (s := s.begin)
    rw [e.at_eq, e.at_eq]
    exact ⟨held, fail, moor⟩

theorem chartAck_first (harbour : s.harbour = some h) (sent : vget (s.at h).tray.dist n.val = .sent sl false) :
    chartAck h n (.first dg w rb fuse) s =
      if dg ≠ (s.at h).ch.digest ∨ w ≠ (s.at h).ch.ver ∨ rb ≠ (s.at h).ch.rollback then attemptFails h n sl 1 s
      else if fuse > rb then attemptFails h n sl 2 s
      else setDist h n (if hbrCap (s.at h) n then .sent sl true else .agreed) s := by
  have role : s.isHbr h = true := isHarbour_of_harbour harbour
  unfold chartAck
  extract_lets c
  rw [role, distOf_of_harbour harbour, sent, Bool.not_true, if_neg Bool.false_ne_true]
  by_cases wrong : dg ≠ (s.at h).ch.digest ∨ w ≠ (s.at h).ch.ver ∨ rb ≠ (s.at h).ch.rollback
  · rw [if_pos wrong]
    exact if_pos (by simpa [c, chOf, or_assoc] using wrong)
  · rw [if_neg wrong]
    exact if_neg (by simpa [c, chOf, or_assoc] using wrong)

theorem chartAck_sig (harbour : s.harbour = some h) (sent : vget (s.at h).tray.dist n.val = .sent sl true) :
    chartAck h n (.sig true) s = setDist h n .agreed s := by
  have role : s.isHbr h = true := isHarbour_of_harbour harbour
  unfold chartAck
  rw [role, distOf_of_harbour harbour, sent]
  rfl

theorem chartAckTimeout_sent (harbour : s.harbour = some h) (sent : vget (s.at h).tray.dist n.val = .sent sl first) :
    chartAckTimeout h n s = attemptFails h n sl (if first then 3 else 4) s := by
  have role : s.isHbr h = true := isHarbour_of_harbour harbour
  unfold chartAckTimeout
  rw [role, distOf_of_harbour harbour, sent]
  rfl

/-! ### The chart lock (R98) -/

/-- A berth has locked the chart and is ACTIVE. -/
structure LockedActive (n : BId) (s : State) : Prop where
  locked : (s.at n).ch.locked = true
  state : (s.at n).ch.state = .locked
  active : (s.at n).sy.st = .active

theorem LockedActive.touch {fs : List Piece} (l : LockedActive n s) (k : Touch fs s t) (sy : .sy ∉ fs := by decide)
    (ch : .ch ∉ fs := by decide) : LockedActive n t := by
  refine ⟨?_, ?_, ?_⟩
  · rw [k.at_ch ch]; exact l.locked
  · rw [k.at_ch ch]; exact l.state
  · rw [k.at_sy sy]; exact l.active

theorem LockedActive.chCmdEnd (l : LockedActive n s) : LockedActive n (chCmdEnd h cmd result s) := by
  obtain ⟨busy, result', redistFor, ch⟩ := chCmdEnd_ch (h := h) (cmd := cmd) (result := result) (s := s) (c := n)
  refine ⟨?_, ?_, ?_⟩
  · rw [ch]; exact l.locked
  · rw [ch]; exact l.state
  · rw [(chCmdEnd_touch sub_self .refl).at_sy (by decide)]; exact l.active

theorem lockFields_kept {x : Berth} : (lockFields b x).ch = x.ch ∧ (lockFields b x).sy = x.sy := ⟨rfl, rfl⟩

/-- Berth b has its RWL values, those it has locked before if it comes back from isolation. -/
def fieldsLocked (b : BId) (s : State) : State := if (s.at b).log.on then s else s.upd b (lockFields b)

/-- Berth b holds the locked chart. -/
def chartLocked (h b : BId) (s : State) : State :=
  updCh b (fun c => { c with state := .locked, locked := true, agree := true, slot := (chOf s h).slot, stream := [], sigDue := false }) s

/-- Berth b is ACTIVE. -/
def activated (b : BId) (s : State) : State :=
  s.upd b fun x => { x with sy := { x.sy with st := .active, fail := if x.sy.fail ≤ 2 then 0 else x.sy.fail } }

theorem activated_ch : ((activated b s).at c).ch = (s.at c).ch := by
  rw [activated, State.upd_at]
  split <;> rfl

/-- What the lock starts on the berth leaves its chart and its state alone. -/
theorem lockBerth_acts : Touch [.out, .freeCtr, .rp, .log, .cl, .dk, .us] (activated b (chartLocked h b (fieldsLocked b s)))
    (lockBerth h b s) := by
  unfold lockBerth
  extract_lets first s1 s2 s3 s4 s5 s6 s7 s8
  have started : Touch [.out, .freeCtr, .rp, .log, .cl, .dk, .us] s3 s5 := logStart_touch (by decide) (State.updCl_touch (by decide) .refl)
  have written : Touch [.out, .freeCtr, .rp, .log, .cl, .dk, .us] s3 s6 := ite_touch (logServe_touch (by decide) started) started
  have cooled : Touch [.out, .freeCtr, .rp, .log, .cl, .dk, .us] s3 s7 :=
    .iter (fun c u k => ite_touch (kickStart_touch (by decide) k) k) written
  exact usbFollow_touch (by decide) (.iter (fun c u k => ite_touch (ropeTell_touch (by decide) k) k) cooled)

theorem fieldsLocked_kept : ((fieldsLocked b s).at c).ch = (s.at c).ch ∧ ((fieldsLocked b s).at c).sy = (s.at c).sy := by
  unfold fieldsLocked
  split
  · exact ⟨rfl, rfl⟩
  · rw [State.upd_at]
    split
    · exact lockFields_kept
    · exact ⟨rfl, rfl⟩

theorem lockBerth_locks : LockedActive b (lockBerth h b s) := by
  refine .touch ⟨?_, ?_, ?_⟩ lockBerth_acts
  · rw [activated_ch, chartLocked, updCh_ch_self]
  · rw [activated_ch, chartLocked, updCh_ch_self]
  · rw [activated, State.upd_at, if_pos rfl]

/-- The lock of another berth leaves a locked berth's chart and state alone. -/
theorem lockBerth_other (ne : b ≠ n) (l : LockedActive n s) : LockedActive n (lockBerth h b s) := by
  have kept : (activated b (chartLocked h b (fieldsLocked b s))).at n = (fieldsLocked b s).at n := by
    rw [activated, State.upd_at_ne ne, chartLocked, updCh_at, if_neg ne]
  obtain ⟨ch, sy⟩ := fieldsLocked_kept (b := b) (c := n) (s := s)
  refine .touch ⟨?_, ?_, ?_⟩ lockBerth_acts
  · rw [kept, ch]; exact l.locked
  · rw [kept, ch]; exact l.state
  · rw [kept, sy]; exact l.active

theorem lockBerth_keeps (l : LockedActive n s) : LockedActive n (lockBerth h b s) := by
  by_cases same : b = n
  · exact same ▸ lockBerth_locks
  · exact lockBerth_other same l

theorem imageOn_keeps {role : Nat} (l : LockedActive n s) : LockedActive n (imageOn b role s) := by
  have ch : ((imageOn b role s).at n).ch = (s.at n).ch := (imageOn_touch sub_self .refl).at_ch (by decide) n
  have st : ((imageOn b role s).at n).sy.st = (s.at n).sy.st := by
    unfold imageOn
    extract_lets s1
    have first : (s1.at n).sy.st = (s.at n).sy.st := by
      rw [State.upd_at]
      split <;> rfl
    split
    · rw [State.upd_at, apply_ite Berth.sy, apply_ite Sy.st, ite_self]
      exact first
    · exact first
  exact ⟨ch ▸ l.locked, ch ▸ l.state, st ▸ l.active⟩

/-- What a berth that joins after the first lock takes up once it has locked. -/
theorem lockLate_keeps (l : LockedActive n (lockBerth h b s)) : LockedActive n (lockLate h b s) := by
  unfold lockLate
  extract_lets d s1 s2 s3 ready s4 s5
  have quotas : LockedActive n s3 :=
    l.touch (fs := [.td, .dk]) (setQuotas_touch (by decide) (updTd_touch (f := fun y => { y with dith := d, lfsr := (s1.at h).td.lfsr }) (by decide) .refl))
  have loading : LockedActive n s4 := by
    unfold s4
    split
    · exact quotas.touch (State.updPl_touch sub_self .refl)
    · exact quotas
  have images : LockedActive n s5 := iter_induction loading fun r u k => by
    split
    · exact imageOn_keeps k
    · exact k
  split
  · exact images.chCmdEnd
  · exact images

/-- The berths that agree and wait for the lock. -/
def agreedBerths (s : State) : List BId := allB.filter fun n => distOf s n == .agreed && (s.at n).sy.st == .moored && !(chOf s n).locked

theorem mem_agreedBerths (harbour : s.harbour = some h) (agreed : vget (s.at h).tray.dist n.val = .agreed)
    (moored : (s.at n).sy.st = .moored) (unlocked : (s.at n).ch.locked = false) : n ∈ agreedBerths s := by
  refine List.mem_filter.mpr ⟨mem_allB, ?_⟩
  simp [distOf_of_harbour harbour, agreed, moored, chOf, unlocked]

theorem chartLock_first (role : s.isHbr h = true) (unlocked : (s.at h).ch.locked = false) (distributing : (s.at h).ch.state = .distributing)
    (all : ((chartBerths s h).all fun n => distOf s n == .agreed || distOf s n == .held) = true) :
    chartLock h s = chCmdEnd h 1 0 (lockHarbour h (h :: agreedBerths s) (iter (h :: agreedBerths s) (lockBerth h) s)) := by
  unfold chartLock
  extract_lets c agreed s1
  have off : c.locked = false := unlocked
  have on : (c.state == .distributing) = true := by simp [c, chOf, distributing]
  have go : (c.state == .distributing && (chartBerths s h).all fun n => distOf s n == .agreed || distOf s n == .held) = true := by
    rw [on, all, Bool.and_self]
  rw [role, Bool.not_true, if_neg Bool.false_ne_true, off, if_neg Bool.false_ne_true, if_pos go]
  rfl

theorem chartLock_later (role : s.isHbr h = true) (locked : (s.at h).ch.locked = true) :
    chartLock h s = iter (agreedBerths s) (lockLate h) s := by
  unfold chartLock
  extract_lets c agreed s1
  have off : c.locked = true := locked
  rw [role, Bool.not_true, if_neg Bool.false_ne_true, off, if_pos rfl]
  rfl

/-- Settles O15: the acknowledgement is judged in the harbour's tray; each berth of the lock is ACTIVE after its turn and stays so. -/
theorem chartAgreementAndLock : Obligations.ChartAgreementAndLock := by
  unfold Obligations.ChartAgreementAndLock
  refine ⟨fun s h n sl harbour => ⟨fun dg ver rb fuse ⟨sent, good⟩ => ?_, fun dg ver rb fuse ⟨sent, bad⟩ => ?_, fun sent => ?_,
    fun first sent => ?_⟩, fun s h harbour => ⟨fun ⟨unlocked, distributing, all⟩ => ?_, fun locked => ?_⟩⟩
  · obtain ⟨rfl, rfl, rfl, low⟩ := good
    have run : chartAck h n (.first (s.at h).ch.digest (s.at h).ch.ver (s.at h).ch.rollback fuse) s.begin =
        setDist h n (if hbrCap (s.at h) n then .sent sl true else .agreed) s.begin :=
      (chartAck_first (s := s.begin) harbour sent).trans ((if_neg (by simp)).trans (if_neg (Nat.not_lt.mpr low)))
    refine answers_of_run (congrArg (ran s) run) fun t queue e => ?_
    refine ⟨e.keeps queue (.ofBegin setDist_within), e.agreeOff_begin (by decide) (setDist_touch (by decide) .refl), ?_⟩
    rw [e.at_eq]
    exact setDist_dist
  · by_cases wrong : dg ≠ (s.at h).ch.digest ∨ ver ≠ (s.at h).ch.ver ∨ rb ≠ (s.at h).ch.rollback
    · have run := (chartAck_first (s := s.begin) (fuse := fuse) harbour sent).trans (if_pos wrong)
      refine answers_of_run (congrArg (ran s) run) fun t queue e => ?_
      rw [if_neg (by tauto)]
      exact e.attemptFailed
    · have high : fuse > rb := by tauto
      have run := (chartAck_first (s := s.begin) (fuse := fuse) harbour sent).trans ((if_neg wrong).trans (if_pos high))
      refine answers_of_run (congrArg (ran s) run) fun t queue e => ?_
      rw [if_pos (by tauto)]
      exact e.attemptFailed
  · refine answers_of_run (congrArg (ran s) (chartAck_sig (s := s.begin) harbour sent)) fun t queue e => ?_
    refine ⟨?_, e.keeps queue (.ofBegin setDist_within), e.agreeOff_begin (by decide) (setDist_touch (by decide) .refl)⟩
    rw [e.at_eq]
    exact setDist_dist
  · exact answers_of_run (congrArg (ran s) (chartAckTimeout_sent (s := s.begin) harbour sent)) fun t queue e => e.attemptFailed
  · have berths : ((chartBerths s.begin h).all fun n => distOf s.begin n == .agreed || distOf s.begin n == .held) = true := by
      refine List.all_eq_true.mpr fun n mem => ?_
      obtain ⟨-, other⟩ := List.mem_filter.mp mem
      simp only [Bool.and_eq_true, bne_iff_ne, State.begin_at] at other
      rw [distOf_of_harbour (s := s.begin) harbour, Bool.or_eq_true, beq_iff_eq, beq_iff_eq]
      exact all n other
    have run := chartLock_first (s := s.begin) (isHarbour_of_harbour harbour) unlocked distributing berths
    refine answers_of_run (congrArg (ran s) run) fun t queue e => ?_
    have lock (n : BId) (mem : n ∈ h :: agreedBerths s.begin) : LockedActive n t :=
      .touch (.chCmdEnd (.touch (iter_reaches mem (fun _ => lockBerth_locks) fun _ _ => lockBerth_keeps) (lockHarbour_touch sub_self .refl)))
        (e.touch (fs := []))
    obtain ⟨locked, state, active⟩ := lock h List.mem_cons_self
    refine ⟨locked, state, active, fun n ⟨agreed, moored, unlocked'⟩ => ?_⟩
    have done := lock n (List.mem_cons_of_mem _ (mem_agreedBerths (s := s.begin) harbour agreed moored unlocked'))
    exact ⟨done.locked, done.active⟩
  · refine answers_of_run (congrArg (ran s) (chartLock_later (s := s.begin) (isHarbour_of_harbour harbour) locked)) fun t queue e => ?_
    intro n ⟨agreed, moored, unlocked'⟩
    have mem := mem_agreedBerths (s := s.begin) harbour agreed moored unlocked'
    have done : LockedActive n t := .touch (iter_reaches mem (fun _ => lockLate_keeps lockBerth_locks)
      fun _ _ k => lockLate_keeps (lockBerth_keeps k)) (e.touch (fs := []))
    exact ⟨done.locked, done.active⟩

end

end Sys2Proof.Machine

/-! Orders to CH_CMD and the burning of fuses (R100, R104 to R107). -/
namespace Sys2Proof.Machine
set_option Elab.async false

section
variable {r s t u : State} {b c h n : BId} {j : FuseJob} {req : ReqId} {cmd arg guard cls k slot result : Nat} {d : Dist}

/-! ### The next fuse of an order (R104 to R106) -/

/-- Berth b has no fuse left for a job, or cannot be reached. -/
def fuseSkips (s : State) (j : FuseJob) (b : BId) : Bool := !reachable s b || !fuseOpen s j b

/-- Berths of a job that are passed over leave it short where it is a counter's. -/
def fuseLeft (s : State) (j : FuseJob) : Bool :=
  (((fuseBerths j).takeWhile (fuseSkips s j)).any fun b => fuseOpen s j b) && fuseOrder j == 3

/-- The order has noted whether it is short. -/
def shortNoted (h : BId) (j : FuseJob) (s : State) : State := updCh h (fun c => { c with fuseShort := c.fuseShort || fuseLeft s j }) s

/-- The order has no berth left. -/
def jobDone (h : BId) (s : State) : State := updCh h (fun c => { c with fuseJob := none }) s

/-- The order goes on at the first berth that has a fuse to burn. -/
def jobOn (h : BId) (j : FuseJob) (s : State) : State := updCh h (fun c => { c with fuseJob := some j }) s

theorem fuseNext_eq : fuseNext h j s =
    if ((fuseBerths j).dropWhile (fuseSkips s j)).isEmpty then
      chCmdEnd h (fuseOrder j) (if (chOf (shortNoted h j s) h).fuseShort then 5 else 0) (jobDone h (shortNoted h j s))
    else jobOn h (withBerths j ((fuseBerths j).dropWhile (fuseSkips s j))) (shortNoted h j s) := rfl

theorem shortNoted_ch : ∃ short, ((shortNoted h j s).at c).ch = { (s.at c).ch with fuseShort := short }
    ∧ ((s.at c).ch.fuseShort = true → short = true) := by
  rw [shortNoted, updCh_ch]
  split
  · exact ⟨_, rfl, fun was => by rw [was, Bool.true_or]⟩
  · exact ⟨_, rfl, id⟩

/-- The choice of the next fuse changes the order's own fields alone, and an order that is short stays so. -/
theorem fuseNext_ch : ∃ short job busy result' redistFor, ((fuseNext h j s).at c).ch =
      { (s.at c).ch with fuseShort := short, fuseJob := job, busy := busy, result := result', redistFor := redistFor }
    ∧ ((s.at c).ch.fuseShort = true → short = true) := by
  obtain ⟨short, noted, stays⟩ := shortNoted_ch (h := h) (j := j) (s := s) (c := c)
  rw [fuseNext_eq]
  split
  · obtain ⟨busy, result', redistFor, ended⟩ := chCmdEnd_ch (h := h) (cmd := fuseOrder j)
      (result := if (chOf (shortNoted h j s) h).fuseShort then 5 else 0) (s := jobDone h (shortNoted h j s)) (c := c)
    rw [ended, jobDone, updCh_ch, noted]
    split
    · exact ⟨_, _, _, _, _, rfl, stays⟩
    · exact ⟨_, _, _, _, _, rfl, stays⟩
  · rw [jobOn, updCh_ch, noted]
    split
    · exact ⟨_, _, _, _, _, rfl, stays⟩
    · exact ⟨_, _, _, _, _, rfl, stays⟩

theorem mem_dropWhile_of_not {α : Type} {p : α → Bool} {xs : List α} {x : α} (mem : x ∈ xs) (no : p x = false) : x ∈ xs.dropWhile p := by
  rw [← List.takeWhile_append_dropWhile (p := p) (l := xs), List.mem_append] at mem
  rcases mem with taken | dropped
  · rw [List.mem_takeWhile_imp taken] at no
    cases no
  · exact dropped

/-- An order sets out on a berth it can reach that has a fuse to burn. -/
theorem fuseNext_goes (mem : b ∈ fuseBerths j) (reach : reachable s b = true) (opens : fuseOpen s j b = true) :
    ((fuseNext h j s).at h).ch.fuseJob = some (withBerths j ((fuseBerths j).dropWhile (fuseSkips s j)))
    ∧ b ∈ (fuseBerths j).dropWhile (fuseSkips s j) ∧ ((fuseNext h j s).at h).ch.busy = (s.at h).ch.busy := by
  have goes : b ∈ (fuseBerths j).dropWhile (fuseSkips s j) := mem_dropWhile_of_not mem (by simp [fuseSkips, reach, opens])
  obtain ⟨short, noted, -⟩ := shortNoted_ch (h := h) (j := j) (s := s) (c := h)
  have left : ((fuseBerths j).dropWhile (fuseSkips s j)).isEmpty = false := by
    rw [List.isEmpty_eq_false_iff]
    exact List.ne_nil_of_mem goes
  rw [fuseNext_eq, left, if_neg Bool.false_ne_true, jobOn, updCh_ch_self, noted]
  exact ⟨rfl, goes, rfl⟩

/-! ### One fuse burns (R104) -/

/-- The order's job, the berth whose turn it is in front. -/
structure JobAt (s : State) (h b : BId) (j : FuseJob) (bs : List BId) : Prop where
  job : (s.at h).ch.fuseJob = some j
  front : fuseBerths j = b :: bs

theorem fuseBurnDone_burns {bs : List BId} (at_b : JobAt s h b j bs) (reach : reachable s b = true) :
    fuseBurnDone h true s = fuseNext h j (burn j b s) := by
  rw [fuseBurnDone, chOf, at_b.job]
  simp only [at_b.front, reach, if_true]

theorem fuseBurnDone_fails {bs : List BId} (at_b : JobAt s h b j bs) :
    fuseBurnDone h false s = fuseNext h (withBerths j bs) (updCh h (fun c => { c with fuseShort := true }) s) := by
  rw [fuseBurnDone, chOf, at_b.job]
  simp only [at_b.front, Bool.false_eq_true, if_false]

/-- A fuse of the job burns in berth b's chart. -/
theorem fuseNext_fuses : ((fuseNext h j s).at c).ch.fuse = (s.at c).ch.fuse ∧ ((fuseNext h j s).at c).ch.keys = (s.at c).ch.keys
    ∧ ((fuseNext h j s).at c).ch.revoked = (s.at c).ch.revoked := by
  obtain ⟨_, _, _, _, _, ch, -⟩ := fuseNext_ch (h := h) (j := j) (s := s) (c := c)
  rw [ch]
  exact ⟨rfl, rfl, rfl⟩

/-! ### Orders to CH_CMD (R107) -/

/-- The order stands in CH_CMD with its result. -/
def ordered (h : BId) (cmd : Nat) (req : ReqId) (result : Nat) (s : State) : State :=
  updCh h (fun c => { c with lastCmd := cmd, cmdReq := req.val, result := result, busy := result == 0, fuseShort := false }) s

theorem chCmd_eq (harbour : s.harbour = some h) (idle : (s.at h).ch.busy = false) : chCmd cmd req arg guard s =
    if chRefuse s h cmd arg guard req == 0 then chAct h cmd arg (ordered h cmd req (chRefuse s h cmd arg guard req) s)
    else ordered h cmd req (chRefuse s h cmd arg guard req) s := by
  rw [chCmd, harbour]
  exact if_neg (by simp [chOf, idle])

theorem chCmd_refused (harbour : s.harbour = some h) (idle : (s.at h).ch.busy = false)
    (refused : chRefuse s h cmd arg guard req ≠ 0) :
    chCmd cmd req arg guard s = ordered h cmd req (chRefuse s h cmd arg guard req) s :=
  (chCmd_eq harbour idle).trans (if_neg (by simpa using refused))

theorem chCmd_accepted (harbour : s.harbour = some h) (idle : (s.at h).ch.busy = false)
    (accepted : chRefuse s h cmd arg guard req = 0) : chCmd cmd req arg guard s = chAct h cmd arg (ordered h cmd req 0 s) := by
  rw [chCmd_eq harbour idle, accepted]
  rfl

theorem ordered_ch : ((ordered h cmd req result s).at h).ch = { (s.at h).ch with
    lastCmd := cmd, cmdReq := req.val, result := result, busy := result == 0, fuseShort := false } := updCh_ch_self

theorem ordered_touch : Touch [.ch] s (ordered h cmd req result s) := updCh_touch sub_self .refl

theorem fuseOpen_ordered : fuseOpen (ordered h cmd req result s) j b = fuseOpen s j b := by
  have same : ((ordered h cmd req result s).at b).ch.fuse = (s.at b).ch.fuse
      ∧ ((ordered h cmd req result s).at b).ch.keys = (s.at b).ch.keys
      ∧ ((ordered h cmd req result s).at b).ch.revoked = (s.at b).ch.revoked := by
    rw [ordered, updCh_ch]
    split
    · exact ⟨rfl, rfl, rfl⟩
    · exact ⟨rfl, rfl, rfl⟩
  obtain ⟨fuse, keys, revoked⟩ := same
  cases j with
  | count => exact decide_eq_decide.mpr (by rw [chOf, chOf, fuse])
  | key => simp only [fuseOpen, keyBit, chOf, keys]
  | revoke => simp only [fuseOpen, chOf, revoked]

theorem reachable_ordered : reachable (ordered h cmd req result s) b = reachable s b := by
  rw [reachable, reachable, inRing, inRing, ordered_touch.at_sy (by decide), ordered_touch.at_dev (by decide)]

/-- A refused order leaves its result, and nothing else. -/
theorem answers_chCmd_refused {i : Instr} (run : exec i s = ran s (viaBus req none 0x2078 (chCmd cmd req arg guard) s.begin))
    (pass : WritePasses s req none 0x2078) (harbour : s.harbour = some h) (idle : (s.at h).ch.busy = false)
    (refused : chRefuse s h cmd arg guard req ≠ 0) : Answers i s fun t => AgreeOff [.out, .ch, .sy] s t ∧ (t.at h).ch =
      { (s.at h).ch with lastCmd := cmd, cmdReq := req.val, result := chRefuse s h cmd arg guard req, busy := false, fuseShort := false } := by
  refine answers_viaBus pass run fun t bus => ?_
  have acts : chCmd cmd req arg guard s.begin = ordered h cmd req (chRefuse s h cmd arg guard req) s.begin :=
    chCmd_refused (s := s.begin) harbour idle refused
  rw [acts] at bus
  refine ⟨(begin_touch_out (by decide)).trans (.trans (updCh_touch (by decide) .refl) (bus.mono (by decide))) |>.all, ?_⟩
  rw [bus.at_ch (by decide), ordered_ch, beq_false_of_ne refused]
  rfl

/-- An accepted order acts on the state in which CH_CMD holds it. -/
theorem answers_chCmd_accepted {i : Instr} {P : State → Prop}
    (run : exec i s = ran s (viaBus req none 0x2078 (chCmd cmd req arg guard) s.begin))
    (pass : WritePasses s req none 0x2078) (harbour : s.harbour = some h) (idle : (s.at h).ch.busy = false)
    (accepted : chRefuse s h cmd arg guard req = 0)
    (h : ∀ t, Touch [.sy] (chAct h cmd arg (ordered h cmd req 0 s.begin)) t → P t) : Answers i s P := by
  refine answers_viaBus pass run fun t bus => h t ?_
  rwa [chCmd_accepted (s := s.begin) harbour idle accepted] at bus

/-- A fuse order sets out on every berth it can reach that has a fuse to burn. -/
theorem fuseOrder_goes {t : State} (bus : Touch [.sy] (fuseNext h j (ordered h cmd req 0 s.begin)) t) (mem : b ∈ fuseBerths j)
    (reach : reachable s b = true) (opens : fuseOpen s j b = true) : AgreeOff [.out, .ch, .sy] s t ∧ (t.at h).ch.busy = true
      ∧ ∃ bs, (t.at h).ch.fuseJob = some (withBerths j bs) ∧ b ∈ bs := by
  obtain ⟨job, goes, busy⟩ := fuseNext_goes (h := h) (s := ordered h cmd req 0 s.begin) mem (reachable_ordered.trans reach)
    (fuseOpen_ordered.trans opens)
  rw [ordered_ch] at busy
  rw [bus.at_ch (by decide)]
  refine ⟨(begin_touch_out (by decide)).trans (.trans (fuseNext_touch (by decide) (ordered_touch.mono (by decide))) (bus.mono (by decide)))
    |>.all, busy, _, job, goes⟩

theorem chartLoad_ch : ((chartLoad h s).at h).ch = { (s.at h).ch with state := .reading, load := .start, readSince := s.now } := by
  have fails : Touch [.sy] s (iter allB (fun b t => if (t.at b).sy.fail == 1 then setStartFail b 0 t else t) s) :=
    .iter (fun b t k => ite_touch (setStartFail_touch (by decide) k) k) .refl
  unfold chartLoad
  extract_lets s1
  have now : s1.now = s.now := fails.at_now (by decide)
  have ch : (s1.at h).ch = (s.at h).ch := fails.at_ch (by decide) h
  rw [updCh_ch_self, ch, now]

/-- What an accepted REDISTRIBUTE needs (R107). -/
theorem redistribute_accepted (accepted : chRefuse s h 2 arg guard req = 0) : (s.at h).ch.locked = true ∧ arg ≤ 7 ∧ arg ≠ h.val
    ∧ nbit (s.at h).populated arg = true := by
  unfold chRefuse at accepted
  extract_lets c stateOk at accepted
  split_ifs at accepted with _ _ locked bad
  have good : chArgBad s h 2 arg = false := by simpa using bad
  simp only [chArgBad, Bool.or_eq_false_iff, decide_eq_false_iff_not, beq_eq_false_iff_ne, Bool.not_eq_false'] at good
  obtain ⟨⟨small, other⟩, populated⟩ := good
  exact ⟨by simpa [stateOk, c, chOf] using locked, by omega, other, populated⟩

/-- The berth's attempts and cause start afresh. -/
def attemptsCleared (n : BId) (t : Tray) : Tray := { t with attempts := vset t.attempts n.val 0, moor := vset t.moor n.val 0 }

theorem redistribute_again (other : n ≠ h) (populated : nbit (s.at h).populated n.val = true) (state : (s.at h).ch.state = .locked)
    (locked : (s.at h).ch.locked = true) :
    redistribute h n s = rereadNext h (setDist h n .reread (s.updTray h (attemptsCleared n))) := by
  have ch : ((s.updTray h (attemptsCleared n)).at h).ch = (s.at h).ch := (State.updTray_touch sub_self .refl).at_ch (by decide) h
  have cleared : ((chOf (s.updTray h (attemptsCleared n)) h).state == .distributing) = false := by
    rw [chOf, ch, state]
    rfl
  have held : (chOf (s.updTray h (attemptsCleared n)) h).locked = true := by rw [chOf, ch, locked]
  have goes : ¬(n == h || !nbit (s.at h).populated n.val) = true := by simp [other, populated]
  exact (if_neg goes).trans ((if_neg (Bool.eq_false_iff.mp cleared)).trans (if_pos held))

theorem rereadNext_ch : ∃ load, ((rereadNext h s).at c).ch = { (s.at c).ch with load := load } := by
  unfold rereadNext
  split
  · exact ⟨_, rfl⟩
  · split
    · exact ⟨_, rfl⟩
    · rw [updCh_ch]
      split
      · exact ⟨_, rfl⟩
      · exact ⟨_, rfl⟩

/-- The end of the running REDISTRIBUTE waits for berth n. -/
def waitsFor (h n : BId) (s : State) : State := updCh h (fun c => { c with redistFor := some n }) s

theorem Touch.tray_eq {fs : List Piece} (k : Touch fs s t) (sy : .sy ∉ fs := by decide) (tray : .tray ∉ fs := by decide) :
    t.tray = s.tray := by
  rw [State.tray, State.tray, k.harbour_eq sy]
  cases s.harbour with
  | none => rfl
  | some h => exact k.at_tray tray h

theorem waitsFor_touch : Touch [.ch] s (waitsFor h n s) := updCh_touch sub_self .refl

theorem chAct_redistribute (held : distOf s (bid arg) = .held) :
    chAct h 2 arg s = redistribute h (bid arg) (waitsFor h (bid arg) s) := by
  have kept : distOf (waitsFor h (bid arg) s) (bid arg) = .held := by rw [distOf, waitsFor_touch.tray_eq]; exact held
  have agreed : ¬(distOf s (bid arg) == .agreed) = true := by rw [held]; decide
  have due : (distOf (waitsFor h (bid arg) s) (bid arg) == .none || distOf (waitsFor h (bid arg) s) (bid arg) == .held) = true := by
    rw [kept]; rfl
  exact (if_neg agreed).trans (if_pos due)

/-- The state in which an accepted REDISTRIBUTE acts. -/
def redistOrdered (h : BId) (arg : Nat) (req : ReqId) (s : State) : State := waitsFor h (bid arg) (ordered h 2 req 0 s)

theorem redistOrdered_touch : Touch [.ch] s (redistOrdered h arg req s) := ordered_touch.trans waitsFor_touch

theorem redistOrdered_ch : ((redistOrdered h arg req s).at h).ch = { (s.at h).ch with
    lastCmd := 2, cmdReq := req.val, result := 0, busy := true, fuseShort := false, redistFor := some (bid arg) } := by
  rw [redistOrdered, waitsFor, updCh_ch_self, ordered_ch]
  rfl

/-- A held berth whose locked slot is read again (R100). -/
theorem redistribute_held (accepted : chRefuse s h 2 arg guard req = 0) (state : (s.at h).ch.state = .locked) :
    redistribute h (bid arg) (redistOrdered h arg req s) =
      rereadNext h (setDist h (bid arg) .reread ((redistOrdered h arg req s).updTray h (attemptsCleared (bid arg)))) := by
  obtain ⟨locked, small, other, populated⟩ := redistribute_accepted accepted
  have val : (bid arg).val = arg := Nat.mod_eq_of_lt (Nat.lt_succ_of_le small)
  refine redistribute_again (fun eq => other (eq ▸ val.symm)) ?_ ?_ ?_
  · rw [val, Berth.populated, Berth.recWord, redistOrdered_ch]
    exact populated
  · rw [redistOrdered_ch, state]
  · rw [redistOrdered_ch, locked]

theorem commitTarget_ordered {cls : Nat} : commitTarget (ordered h cmd req result s) h cls = commitTarget s h cls := by
  have tray : (ordered h cmd req result s).tray = s.tray := ordered_touch.tray_eq
  have pg (b : BId) : ((ordered h cmd req result s).at b).pg = (s.at b).pg := ordered_touch.at_pg (by decide) b
  unfold commitTarget
  simp only [tray, chOf, ordered_ch, graphOf, pg]

theorem keyBerths_ordered : keyBerths (ordered h cmd req result s) = keyBerths s :=
  List.filter_congr fun _ _ => reachable_ordered

/-- Settles O16: an order stands in CH_CMD with its result, and an accepted one acts on the state that holds it. -/
theorem chartOrdersAndFuses : Obligations.ChartOrdersAndFuses := by
  unfold Obligations.ChartOrdersAndFuses
  refine ⟨fun s h req arg guard ⟨pass, harbour, idle⟩ => ⟨fun cmd i ⟨mem, refused⟩ => ?_, fun cmd i ⟨mem, refused⟩ => ?_,
    fun accepted => ?_, fun ⟨accepted, held, state⟩ => ?_, fun k ⟨accepted, target, opens, reach⟩ => ?_,
    fun b ⟨accepted, mem, unburnt⟩ => ?_, fun b data ⟨accepted, mem, eq, opens⟩ => ?_⟩,
    fun s h b bs => ⟨fun cls k ⟨job, lt, reach⟩ => ?_, fun slot data i ⟨job, lt, reach, bit⟩ => ?_, fun slot ⟨job, reach⟩ => ?_,
      fun j ⟨job, front⟩ => ?_⟩⟩
  · simp only [List.mem_cons, Prod.mk.injEq, List.not_mem_nil, or_false] at mem
    rcases mem with ⟨rfl, rfl⟩ | ⟨rfl, rfl⟩
    · exact answers_chCmd_refused rfl pass harbour idle refused
    · exact answers_chCmd_refused rfl pass harbour idle refused
  · simp only [List.mem_cons, Prod.mk.injEq, List.not_mem_nil, or_false] at mem
    rcases mem with ⟨rfl, rfl⟩ | ⟨rfl, rfl⟩ | ⟨rfl, rfl⟩
    · exact answers_chCmd_refused rfl pass harbour idle refused
    · exact answers_chCmd_refused rfl pass harbour idle refused
    · exact answers_chCmd_refused rfl pass harbour idle refused
  · refine answers_chCmd_accepted rfl pass harbour idle accepted fun t bus => ?_
    have acts : chAct h 1 arg.val (ordered h 1 req 0 s.begin) = chartLoad h (ordered h 1 req 0 s.begin) := rfl
    rw [acts] at bus
    refine ⟨(begin_touch_out (by decide)).trans (.trans (chartLoad_touch (by decide) (ordered_touch.mono (by decide)))
      (bus.mono (by decide))) |>.all, ?_⟩
    rw [bus.at_ch (by decide), chartLoad_ch, ordered_ch]
    exact ⟨rfl, rfl, rfl, rfl⟩
  · refine answers_chCmd_accepted rfl pass harbour idle accepted fun t bus => ?_
    obtain ⟨-, small, -, -⟩ := redistribute_accepted accepted
    have val : (bid arg.val).val = arg.val := Nat.mod_eq_of_lt (Nat.lt_succ_of_le small)
    have dist : distOf (ordered h 2 req 0 s.begin) (bid arg.val) = .held := by
      rw [distOf, ordered_touch.tray_eq, tray_of_harbour (s := s.begin) harbour, val]
      exact held
    have acts : chAct h 2 arg.val (ordered h 2 req 0 s.begin) = rereadNext h (setDist h (bid arg.val) .reread
        ((redistOrdered h arg.val req s.begin).updTray h (attemptsCleared (bid arg.val)))) :=
      (chAct_redistribute dist).trans (redistribute_held (s := s.begin) accepted state)
    rw [acts] at bus
    have own : Touch [.tray] (redistOrdered h arg.val req s.begin) (setDist h (bid arg.val) .reread
        ((redistOrdered h arg.val req s.begin).updTray h (attemptsCleared (bid arg.val)))) :=
      setDist_touch sub_self (State.updTray_touch sub_self .refl)
    obtain ⟨load, ch⟩ := rereadNext_ch (h := h) (c := h) (s := setDist h (bid arg.val) .reread
        ((redistOrdered h arg.val req s.begin).updTray h (attemptsCleared (bid arg.val))))
    rw [own.at_ch (by decide), redistOrdered_ch] at ch
    refine ⟨(begin_touch_out (by decide)).trans (.trans (redistOrdered_touch.mono (by decide)) (.trans (own.mono (by decide))
      (.trans (rereadNext_touch (by decide) .refl) (bus.mono (by decide))))) |>.all, ?_⟩
    rw [bus.at_ch (by decide), ch, bus.at_tray (by decide), (rereadNext_touch sub_self .refl).at_tray (by decide), setDist,
      State.updTray_at, if_pos rfl, State.updTray_at, if_pos rfl]
    refine ⟨?_, ?_, ?_, rfl, rfl⟩
    · exact (congrArg _ val.symm).trans (vget_vset_self (bid arg.val).isLt)
    · exact (congrArg _ val.symm).trans (vget_vset_self (bid arg.val).isLt)
    · exact (congrArg _ val.symm).trans (vget_vset_self (bid arg.val).isLt)
  · refine answers_chCmd_accepted rfl pass harbour idle accepted fun t bus => ?_
    have acts : chAct h 3 arg.val (ordered h 3 req 0 s.begin) = fuseNext h (.count arg.val k ((allB.reverse.filter fun b => b != h
        && distOf (ordered h 3 req 0 s.begin) b == .agreed) ++ [h])) (ordered h 3 req 0 s.begin) := by
      have k' : commitTarget (ordered h 3 req 0 s.begin) h arg.val = some k := commitTarget_ordered.trans target
      unfold chAct
      extract_lets c n
      simp only [k', Option.getD_some]
      rfl
    rw [acts] at bus
    exact fuseOrder_goes bus (List.mem_append_right _ (List.mem_singleton.mpr rfl)) reach (decide_eq_true opens)
  · refine answers_chCmd_accepted rfl pass harbour idle accepted fun t bus => ?_
    have acts : chAct h 4 arg.val (ordered h 4 req 0 s.begin) =
      fuseNext h (.revoke arg.val (keyBerths (ordered h 4 req 0 s.begin))) (ordered h 4 req 0 s.begin) := rfl
    rw [acts, keyBerths_ordered] at bus
    have reach : reachable s b = true := (List.mem_filter.mp mem).2
    exact fuseOrder_goes bus mem reach (by simpa [fuseOpen, chOf] using unburnt)
  · refine answers_chCmd_accepted rfl pass harbour idle accepted fun t bus => ?_
    have acts : chAct h 5 arg.val (ordered h 5 req 0 s.begin) =
        fuseNext h (.key arg.val data (keyBerths (ordered h 5 req 0 s.begin))) (ordered h 5 req 0 s.begin) := by
      have keyData : (chOf (ordered h 5 req 0 s.begin) h).keyData = (s.at h).ch.keyData := by rw [chOf, ordered_ch]; rfl
      subst eq
      rw [← keyData]
      rfl
    rw [acts, keyBerths_ordered] at bus
    have reach : reachable s b = true := (List.mem_filter.mp mem).2
    exact fuseOrder_goes bus mem reach opens
  · have at_b : JobAt s.begin h b (.count cls k (b :: bs)) bs := ⟨job, rfl⟩
    refine answers_of_run (congrArg (ran s) (fuseBurnDone_burns at_b reach)) fun t queue e => ?_
    refine ⟨e.agreeOff_begin (by decide) (fuseNext_touch (by decide) (burn_touch (by decide) .refl)), ?_⟩
    obtain ⟨fuse, keys, -⟩ := fuseNext_fuses (h := h) (j := .count cls k (b :: bs)) (s := burn (.count cls k (b :: bs)) b s.begin) (c := b)
    rw [e.at_eq, fuse, keys, burn, updCh_ch_self]
    refine ⟨vget_vmod_self lt, rfl, fun n ne => ?_⟩
    rw [e.at_eq, fuseNext_fuses.1, burn, updCh_ch_ne ne.symm]
    rfl
  · have at_b : JobAt s.begin h b (.key slot data (b :: bs)) bs := ⟨job, rfl⟩
    refine answers_of_run (congrArg (ran s) (fuseBurnDone_burns at_b reach)) fun t queue e => ?_
    refine ⟨e.agreeOff_begin (by decide) (fuseNext_touch (by decide) (burn_touch (by decide) .refl)), ?_⟩
    have burnt : burn (.key slot data (b :: bs)) b s.begin =
        updCh b (fun c => { c with keys := vmod c.keys slot fun k => k ||| (1#384 <<< i) }) s.begin := by
      have bit' : keyBit s.begin b slot data = some i := bit
      rw [burn, bit']
    obtain ⟨fuse, keys, -⟩ := fuseNext_fuses (h := h) (j := .key slot data (b :: bs)) (s := burn (.key slot data (b :: bs)) b s.begin) (c := b)
    rw [e.at_eq, fuse, keys, burnt, updCh_ch_self]
    exact ⟨vget_vmod_self lt, rfl⟩
  · have at_b : JobAt s.begin h b (.revoke slot (b :: bs)) bs := ⟨job, rfl⟩
    refine answers_of_run (congrArg (ran s) (fuseBurnDone_burns at_b reach)) fun t queue e => ?_
    refine ⟨e.agreeOff_begin (by decide) (fuseNext_touch (by decide) (burn_touch (by decide) .refl)), ?_⟩
    obtain ⟨-, -, revoked⟩ := fuseNext_fuses (h := h) (j := .revoke slot (b :: bs)) (s := burn (.revoke slot (b :: bs)) b s.begin) (c := b)
    rw [e.at_eq, revoked, burn, updCh_ch_self]
    exact nbit_or_bit
  · refine answers_of_run (congrArg (ran s) (fuseBurnDone_fails (s := s.begin) ⟨job, front⟩)) fun t queue e => ?_
    refine ⟨e.agreeOff_begin (by decide) (fuseNext_touch (by decide) (updCh_touch (by decide) .refl)), ?_, fun n => ?_⟩
    · obtain ⟨short, _, _, _, _, ch, stays⟩ := fuseNext_ch (h := h) (j := withBerths j bs)
        (s := updCh h (fun c => { c with fuseShort := true }) s.begin) (c := h)
      rw [updCh_ch_self] at stays
      rw [e.at_eq, ch, stays rfl]
    · obtain ⟨fuse, keys, -⟩ := fuseNext_fuses (h := h) (j := withBerths j bs)
        (s := updCh h (fun c => { c with fuseShort := true }) s.begin) (c := n)
      rw [e.at_eq, fuse, keys, updCh_ch]
      split
      · exact ⟨rfl, rfl⟩
      · exact ⟨rfl, rfl⟩

end

end Sys2Proof.Machine

/-! Orders to SY_RST_CMD and the wake from SLEEP (R115, R116, R119). -/
namespace Sys2Proof.Machine
set_option Elab.async false

section
variable {s t : State} {b c : BId} {req : ReqId} {cmd guard : Nat} {act : State → State}

/-- What leaves all but the outputs alone from the start of the command on does so over the command. -/
theorem Touch.agreeOff_begin {fs : List Piece} (k : Touch fs s.begin t) (mem : Piece.out ∈ fs := by decide) : AgreeOff fs s t :=
  ((begin_touch_out mem).trans k).all

/-- The order stands in SY_RST_CMD with its result. -/
def rstOrdered (cmd : Nat) (req : ReqId) (result : Nat) (s : State) : State :=
  updDev (fun d => { d with rstCmd := cmd, rstReq := req.val, rstResult := result }) s

theorem rstOrder_eq (harbour : s.harbour.isSome = true) (idle : s.dev.rstBusy = false) : rstOrder cmd req guard act s =
    if rstResult s cmd guard req == 0 then act (rstOrdered cmd req (rstResult s cmd guard req) s)
    else rstOrdered cmd req (rstResult s cmd guard req) s :=
  if_neg (by simp [idle, Option.isSome_iff_ne_none.mp harbour])

theorem rstOrder_refused (harbour : s.harbour.isSome = true) (idle : s.dev.rstBusy = false) (refused : rstResult s cmd guard req ≠ 0) :
    rstOrder cmd req guard act s = rstOrdered cmd req (rstResult s cmd guard req) s :=
  (rstOrder_eq harbour idle).trans (if_neg (by simpa using refused))

theorem rstOrder_accepted (harbour : s.harbour.isSome = true) (idle : s.dev.rstBusy = false) (accepted : rstResult s cmd guard req = 0) :
    rstOrder cmd req guard act s = act (rstOrdered cmd req 0 s) := by
  rw [rstOrder_eq harbour idle, accepted]
  rfl

/-- A refused order leaves its result, and nothing else. -/
theorem answers_rstOrder_refused {i : Instr} (run : exec i s = ran s (viaBus req none 0x0090 (rstOrder cmd req guard act) s.begin))
    (pass : WritePasses s req none 0x0090) (harbour : s.harbour.isSome = true) (idle : s.dev.rstBusy = false)
    (refused : rstResult s cmd guard req ≠ 0) : Answers i s fun t => AgreeOff [.out, .dev, .sy] s t ∧
      t.dev = { s.dev with rstCmd := cmd, rstReq := req.val, rstResult := rstResult s cmd guard req } := by
  refine answers_viaBus pass run fun t bus => ?_
  have acts : rstOrder cmd req guard act s.begin = rstOrdered cmd req (rstResult s cmd guard req) s.begin :=
    rstOrder_refused (s := s.begin) harbour idle refused
  rw [acts] at bus
  exact ⟨Touch.agreeOff_begin (.trans (updDev_touch (by decide) .refl) (bus.mono (by decide))), bus.at_dev (by decide)⟩

/-- An accepted order acts on the state in which SY_RST_CMD holds it. -/
theorem answers_rstOrder_accepted {i : Instr} {P : State → Prop}
    (run : exec i s = ran s (viaBus req none 0x0090 (rstOrder cmd req guard act) s.begin)) (pass : WritePasses s req none 0x0090)
    (harbour : s.harbour.isSome = true) (idle : s.dev.rstBusy = false) (accepted : rstResult s cmd guard req = 0)
    (h : ∀ t, Touch [.sy] (act (rstOrdered cmd req 0 s.begin)) t → P t) : Answers i s P := by
  refine answers_viaBus pass run fun t bus => h t ?_
  rwa [rstOrder_accepted (s := s.begin) harbour idle accepted] at bus

/-- What an accepted CONTROLLER_RESET starts: every ACTIVE berth shuts its slot down (R119). -/
def resetBegins (s : State) : State :=
  iter allB (fun b t => if (syOf t b).st == .active then shutdown b false 0x12 15 t else t) (updDev (fun d => { d with rstBusy := true }) s)

theorem resetBegins_dev : (resetBegins s).dev = { s.dev with rstBusy := true } :=
  (Touch.iter (fs := [.out, .freeCtr, .rp, .rl, .log, .pw, .hw, .svc, .cl, .pl, .dk, .dm, .tw, .us, .tray, .tcm, .deck])
    (f := fun b t => if (syOf t b).st == .active then shutdown b false 0x12 15 t else t)
    (fun _ _ k => ite_touch (shutdown_touch (by decide) k) k) .refl).at_dev (by decide)

/-- The device sleeps: the silence timers stand still (R115, R225). -/
def asleep (s : State) : State :=
  (updDev (fun d => { d with sleep := true }) s).updAll fun _ x => { x with cl := { x.cl with
    silenceHeld := some (s.now - x.cl.silenceFrom) } }

/-- The device is awake: every silence timer restarts, and the two-wire target has its pins back (R116). -/
def awoken (s : State) : State :=
  { s with dev := { s.dev with sleep := false } }.updAll fun _ x => { x with
    cl := { x.cl with silenceFrom := s.now, silenceHeld := none }, tw := { x.tw with sclLow := false, waking := false } }

theorem wake_asleep (sleep : s.dev.sleep = true) : wake s = iter allB logPump (awoken s) := if_pos sleep

theorem iter_arSleep_touch : Touch [.ar] s (iter allB arSleep s) := .iter (fun _ _ k => arSleep_touch sub_self k) .refl

theorem iter_logPump_touch : Touch [.log] s (iter allB logPump s) := .iter (fun _ _ k => logPump_touch sub_self k) .refl

/-- A berth whose cooling and two-wire parts alone change. -/
theorem TouchB.cl_tw {x : Berth} {cl : Cl} {tw : Tw} : TouchB [.cl, .tw] x { x with cl := cl, tw := tw } := by
  refine TouchB.mk (fun f out => ?_) (Berth.memCanonical_same rfl rfl rfl)
  cases f
  case cl => exact absurd (by decide) out
  case tw => exact absurd (by decide) out
  all_goals simp [Piece.sameB]

theorem TouchB.cl {x : Berth} {cl : Cl} : TouchB [.cl] x { x with cl := cl } := by
  refine TouchB.mk (fun f out => ?_) (Berth.memCanonical_same rfl rfl rfl)
  cases f
  case cl => exact absurd (by decide) out
  all_goals simp [Piece.sameB]

theorem asleep_touch : Touch [.dev, .cl] s (asleep s) :=
  .trans (updDev_touch (by decide) .refl) (Touch.mono (by decide) (Touch.updAll (fun _ _ => TouchB.cl) .refl))

theorem awoken_touch : Touch [.dev, .cl, .tw] s (awoken s) :=
  .trans (updDev_touch (f := fun d => { d with sleep := false }) (by decide) .refl)
    (Touch.mono (by decide) (Touch.updAll (fun _ _ => TouchB.cl_tw) .refl))

/-- Settles O17. -/
theorem resetOrders : Obligations.ResetOrders := by
  unfold Obligations.ResetOrders
  refine fun s req guard => ⟨fun cmd i ⟨pass, harbour, idle, mem, refused⟩ => ?_, fun ⟨pass, harbour, idle, accepted⟩ => ?_,
    fun ⟨pass, harbour, idle, accepted⟩ => ?_, fun sleep => ?_⟩
  · simp only [List.mem_cons, Prod.mk.injEq, List.not_mem_nil, or_false] at mem
    rcases mem with ⟨rfl, rfl⟩ | ⟨rfl, rfl⟩
    · exact answers_rstOrder_refused (act := resetBegins) rfl pass harbour idle refused
    · exact answers_rstOrder_refused (act := fun s => iter allB arSleep (asleep s)) rfl pass harbour idle refused
  · refine answers_rstOrder_accepted (act := resetBegins) rfl pass harbour idle accepted fun t bus => ?_
    rw [bus.at_dev (by decide), resetBegins_dev]
    rfl
  · refine answers_rstOrder_accepted (act := fun s => iter allB arSleep (asleep s)) rfl pass harbour idle accepted fun t bus => ?_
    refine ⟨Touch.agreeOff_begin (.trans (updDev_touch (by decide) .refl) (.trans (asleep_touch.mono (by decide))
      (.trans (iter_arSleep_touch.mono (by decide)) (bus.mono (by decide))))), ?_, fun b => ?_⟩
    · rw [bus.at_dev (by decide), iter_arSleep_touch.at_dev (by decide)]
      rfl
    · rw [bus.at_cl (by decide), iter_arSleep_touch.at_cl (by decide), asleep, State.updAll_at]
      rfl
  · refine answers_of_run (congrArg (ran s) (wake_asleep (s := s.begin) sleep)) fun t queue e => ?_
    refine ⟨e.agreeOff_begin (by decide) (.trans (awoken_touch.mono (by decide)) (iter_logPump_touch.mono (by decide))), ?_, fun b => ?_⟩
    · rw [e.dev, iter_logPump_touch.at_dev (by decide)]
      rfl
    · rw [e.at_eq, iter_logPump_touch.at_cl (by decide), iter_logPump_touch.at_tw (by decide), awoken, State.updAll_at]
      exact ⟨rfl, rfl⟩

end

end Sys2Proof.Machine

/-! What the log, the DMA engines, the link and the service engine do in passing: they add outputs, and leave every berth its state in
SY_ and its pilot. -/
namespace Sys2Proof.Machine
set_option Elab.async false

/-- A change in passing: the berths keep their state and their pilots but for what acts in the background, and nothing sent out is lost. -/
structure Calm (s t : State) : Prop where
  background : Background s t
  more : ∀ o ∈ s.out, o ∈ t.out

section
variable {r s t : State} {b c : BId} {fs : List Piece}

theorem Calm.refl : Calm s s := ⟨.refl, fun _ mem => mem⟩

theorem Calm.trans {u : State} (h : Calm s t) (k : Calm t u) : Calm s u :=
  ⟨h.background.trans k.background, fun o mem => k.more o (h.more o mem)⟩

theorem Calm.touch (h : Calm r s) (k : Touch fs s t) (sy : .sy ∉ fs := by decide) (pl : .pl ∉ fs := by decide)
    (out : .out ∉ fs := by decide) : Calm r t :=
  ⟨h.background.touch k sy pl, fun o mem => by rw [k.at_out out]; exact h.more o mem⟩

/-- A change in the background that sends nothing. -/
theorem Calm.silent (h : Calm r s) (k : Background s t) (same : t.out = s.out) : Calm r t :=
  ⟨h.background.trans k, fun o mem => by rw [same]; exact h.more o mem⟩

theorem Calm.iter {α : Type} {xs : List α} {f : α → State → State} (h : Calm r s) (step : ∀ x t, Calm r t → Calm r (f x t)) :
    Calm r (iter xs f s) := iter_induction h fun x t => step x t

theorem Calm.ite {p : Prop} [Decidable p] (ht : Calm r s) (hu : Calm r t) : Calm r (if p then s else t) := by
  split
  · exact ht
  · exact hu

/-! ### Messages and records -/

theorem ringSend_calm {dst : Option BId} {m : Msg} (h : Calm r s) : Calm r (ringSend b dst m s) :=
  ⟨h.background.touch (ringSend_touch sub_self .refl), fun o mem => mem_ringSend_out (h.more o mem)⟩

theorem notice_calm {kind index rule events : Nat} (h : Calm r s) : Calm r (notice b kind index rule events s) := ringSend_calm h

theorem irq_calm {bit : Nat} (h : Calm r s) : Calm r (irq b bit s) := h.silent (irq_background .refl) (irq_touch sub_self .refl |>.at_out (by decide))

theorem logSend_calm (h : Calm r s) : Calm r (logSend b s) := by
  unfold logSend
  extract_lets l t1 t2
  have emptied : Calm r t1 := h.touch (State.updLog_touch sub_self .refl)
  have sent : Calm r t2 := ringSend_calm emptied
  split
  · exact h
  · split
    · exact emptied.touch (logTake_touch sub_self .refl)
    · cases l.curBuf with
      | some g => exact sent.touch (deckRelease_touch sub_self .refl)
      | none => exact sent

theorem logPush_calm {ty : Nat} {p0 p1 p2 : Word} (h : Calm r s) : Calm r (logPush b ty p0 p1 p2 s) := by
  unfold logPush
  extract_lets x s1
  have pushed : Calm r s1 := h.touch (State.updLog_touch sub_self .refl)
  exact .ite (logSend_calm pushed) pushed

theorem logLoss_calm (h : Calm r s) : Calm r (logLoss b s) := .ite h (logPush_calm (h.touch (State.updLog_touch sub_self .refl)))

theorem logOpen_calm {ok : Bool} (h : Calm r s) (eq : logOpen b s = (ok, t)) : Calm r t := h.touch (logOpen_touch_eq sub_self eq .refl)

theorem logDropOne_calm (h : Calm r s) : Calm r (logDropOne b s) := h.touch (logDropOne_touch sub_self .refl)

theorem logRec_calm {ty : Nat} {p0 p1 p2 : Word} (h : Calm r s) : Calm r (logRec b ty p0 p1 p2 s) := by
  unfold logRec
  split
  · exact h
  · split
    case h_1 t first => exact logDropOne_calm (logOpen_calm h first)
    case h_2 t first =>
      have noted := logLoss_calm (b := b) (logOpen_calm h first)
      split
      case h_1 u second => exact logPush_calm (logOpen_calm noted second)
      case h_2 u second => exact logDropOne_calm (logOpen_calm noted second)

/-! ### The DMA engines (R390 to R395) -/

theorem updDm_calm {e : Nat} {f : Dma → Dma} (h : Calm r s) : Calm r (s.updDm b e f) := h.touch (State.updDm_touch sub_self .refl)

theorem deckRelease_calm {g : Nat} (h : Calm r s) : Calm r (deckRelease g s) := h.touch (deckRelease_touch sub_self .refl)

theorem bufWrite_calm {g : Nat} {bs : List Byte} (h : Calm r s) : Calm r (bufWrite g bs s) :=
  h.silent (deckWrite_background .refl) ((bufWrite_touch sub_self .refl).at_out (by decide))

theorem dmaHalt_calm {e code acc status : Nat} (h : Calm r s) : Calm r (dmaHalt b e code acc status s) := by
  unfold dmaHalt
  extract_lets i counts ev retire s1 s2 s3
  have recorded : Calm r s3 := logRec_calm (irq_calm (updDm_calm h))
  exact .ite (notice_calm recorded) recorded

theorem dmaFault_calm {e code acc status : Nat} (h : Calm r s) : Calm r (dmaFault b e code acc status s) :=
  .ite (dmaHalt_calm h) (updDm_calm h)

theorem deckAlloc_calm {cls : Nat} {buf : Option Nat} {p : Bool} (h : Calm r s) (eq : deckAlloc b cls p s = (buf, t)) : Calm r t :=
  h.touch (deckAlloc_touch_eq sub_self eq .refl)

theorem issue_calm {o : Order} {tag : Option Nat} (h : Calm r s) (eq : issue b o s = (tag, t)) : Calm r t :=
  h.touch (issue_touch_eq sub_self eq .refl)

theorem dmaIssue_calm {e : Nat} (h : Calm r s) : Calm r (dmaIssue b e s).2 := by
  unfold dmaIssue
  extract_lets d i len link
  split
  · exact h
  split
  · exact dmaFault_calm h
  split
  · exact h
  split
  case h_1 t alloc => exact deckAlloc_calm h alloc
  case h_2 g t alloc =>
    extract_lets data t1 o
    have filled : Calm r t1 := .ite (bufWrite_calm (deckAlloc_calm h alloc)) (deckAlloc_calm h alloc)
    split
    case h_1 tag u issued => exact updDm_calm (issue_calm filled issued)
    case h_2 u issued => exact deckRelease_calm (issue_calm filled issued)

theorem dmaPump_calm {e k : Nat} (h : Calm r s) : Calm r (dmaPump b e k s) := by
  induction k generalizing s with
  | zero => exact h
  | succ k ih =>
    have issued := dmaIssue_calm (b := b) (e := e) h
    unfold dmaPump
    split
    case h_1 t eq => rw [eq] at issued; exact ih issued
    case h_2 t eq => rw [eq] at issued; exact issued

theorem dmaStart_calm {e i : Nat} (h : Calm r s) : Calm r (dmaStart b e i s) := by
  unfold dmaStart
  extract_lets s1 d
  have begun : Calm r s1 := updDm_calm h
  split
  · exact dmaFault_calm begun
  · split
    · exact dmaFault_calm begun
    · exact dmaPump_calm (updDm_calm begun)

theorem dmaResumeSlot_calm {e i : Nat} (h : Calm r s) : Calm r (dmaResumeSlot b e i s) := by
  unfold dmaResumeSlot
  extract_lets s1
  have begun : Calm r s1 := updDm_calm h
  split
  · exact dmaFault_calm begun
  · exact dmaPump_calm (updDm_calm begun)

theorem dmaNext_calm {e : Nat} (h : Calm r s) : Calm r (dmaNext b e s) := by
  unfold dmaNext
  extract_lets d
  split
  · exact dmaStart_calm (updDm_calm h)
  · split
    · exact dmaResumeSlot_calm (updDm_calm h)
    · exact .ite (updDm_calm h) (dmaStart_calm h)

theorem dmaBoundary_calm {e : Nat} (h : Calm r s) : Calm r (dmaBoundary b e s).2 := by
  unfold dmaBoundary
  extract_lets d
  split
  · dsimp only
    exact dmaHalt_calm h
  · split
    · dsimp only
      exact dmaNext_calm (updDm_calm h)
    · exact h

theorem dmaDone_calm {e : Nat} (h : Calm r s) : Calm r (dmaDone b e s) := by
  unfold dmaDone
  extract_lets i want s1 s2 s3 d
  have ended : Calm r s1 := updDm_calm h
  have told : Calm r s2 := .ite (irq_calm ended) ended
  have next : Calm r s3 := dmaNext_calm told
  split
  · exact next
  · exact .ite (dmaHalt_calm next) (updDm_calm next)

theorem tcmWrite_background {o : Nat} {bs : List Byte} (h : Background r s) : Background r (s.tcmWrite b o bs) := by
  refine h.trans ⟨fun c => ⟨_, _, (State.tcmWrite_touch sub_self .refl).at_sy (by decide) c⟩, fun c => ?_⟩
  rw [State.tcmWrite, State.upd_at]
  split
  · obtain ⟨resv, kept⟩ := breakResv_pl (x := { s.at c with tcm := memWrite ramD (s.at c).tcm o bs }) (o := o) (n := bs.length)
    exact ⟨_, resv, kept⟩
  · exact ⟨_, _, rfl⟩

theorem localWrite_calm {g : DmaRegion} {bs : List Byte} (h : Calm r s) : Calm r (localWrite b g bs s) := by
  cases g with
  | tcm o => exact h.silent (tcmWrite_background .refl) ((State.tcmWrite_touch sub_self .refl).at_out (by decide))
  | deck k o => exact h.silent (deckWrite_background .refl) ((State.deckWrite_touch sub_self .refl).at_out (by decide))
  | regs o => exact h

theorem dmaOrderDone_calm {e tag status : Nat} {data : List Byte} (h : Calm r s) : Calm r (dmaOrderDone b e tag status data s) := by
  unfold dmaOrderDone
  split
  · exact h
  case h_2 off len g tag' found =>
    extract_lets i s1 s2 s3 s4 d
    have gone : Calm r s1 := updDm_calm h
    have stored : Calm r s2 := by
      unfold s2
      split
      · exact localWrite_calm gone
      · exact gone
    have released : Calm r s3 := deckRelease_calm stored
    have noted : Calm r s4 := .ite (updDm_calm released) (.ite released (updDm_calm released))
    split
    · exact dmaPump_calm noted
    · split
      · exact dmaHalt_calm noted
      · have bound := dmaBoundary_calm (b := b) (e := e) noted
        split
        · exact dmaDone_calm noted
        · split
          case h_1 t eq => rw [eq] at bound; exact bound
          case h_2 t eq => rw [eq] at bound; exact dmaPump_calm bound

/-! ### The link and the service engine -/

theorem pushCpl_calm {entry : Cpl} (h : Calm r s) : Calm r (pushCpl b entry s) := irq_calm (h.touch (State.updHw_touch sub_self .refl))

theorem updHw_calm {f : Hw → Hw} (h : Calm r s) : Calm r (s.updHw b f) := h.touch (State.updHw_touch sub_self .refl)

theorem freeTag_calm {tag : Nat} (h : Calm r s) : Calm r (freeTag b tag s) := h.touch (freeTag_touch sub_self .refl)

theorem freeSvcBuf_calm {o : Order} (h : Calm r s) : Calm r (freeSvcBuf o s) := h.touch (freeSvcBuf_touch sub_self .refl)

theorem linkDownTag_calm {tag : Nat} (h : Calm r s) : Calm r (linkDownTag b tag s) := by
  unfold linkDownTag
  split
  case h_1 o =>
    split
    · exact pushCpl_calm (updHw_calm h)
    · exact dmaOrderDone_calm (freeTag_calm h)
    · exact updHw_calm (freeTag_calm h)
    · exact freeSvcBuf_calm (freeTag_calm h)
  · exact updHw_calm h
  · exact freeTag_calm h
  · exact h

theorem logLink_calm {old new : LinkState} {cause : Nat} {failed : Bool} (h : Calm r s) : Calm r (logLink b old new cause failed s) :=
  logRec_calm h

theorem setLink_calm {new : LinkState} {cause : Nat} (h : Calm r s) : Calm r (setLink b new cause s) := by
  unfold setLink
  extract_lets old s1 s2
  have set : Calm r s1 := updHw_calm h
  have told : Calm r s2 := irq_calm set
  exact .ite set (.ite told (logLink_calm told))

theorem updSvc_calm {f : Svc → Svc} (h : Calm r s) : Calm r (s.updSvc b f) := h.touch (State.updSvc_touch sub_self .refl)

theorem linkStop_calm {dst : LinkState} (h : Calm r s) : Calm r (linkStop b dst s) := by
  unfold linkStop
  extract_lets hw s1 s2 gone s3 s4
  have down : Calm r s2 := .iter (setLink_calm h) fun _ _ k => linkDownTag_calm k
  exact .ite (.ite (setLink_calm h) h) (.iter (updSvc_calm (updHw_calm down)) fun _ _ k => freeSvcBuf_calm k)

theorem attn_calm {bit : Nat} (h : Calm r s) : Calm r (attn bit s) := h.touch (attn_touch sub_self .refl)

theorem setSvc_calm {st : SvcState} (h : Calm r s) : Calm r (setSvc b st s) := by
  unfold setSvc
  extract_lets old s1 s2
  have set : Calm r s1 := updSvc_calm h
  have told : Calm r s2 := .ite set (irq_calm set)
  exact .ite (attn_calm told) told

theorem withdrawReady_calm {mask : Nat} (h : Calm r s) : Calm r (withdrawReady b mask s) := h.touch (withdrawReady_touch sub_self .refl)

theorem stageDone_calm {fail : Nat} (h : Calm r s) : Calm r (stageDone b fail s) := by
  unfold stageDone
  exact logRec_calm (updSvc_calm h)

theorem svcFailed_calm {code : Nat} (h : Calm r s) : Calm r (svcFailed b code s) := by
  unfold svcFailed
  extract_lets v s1 s2 s3 s4
  have lowered : Calm r s1 := withdrawReady_calm h
  have staged : Calm r s2 := .ite (stageDone_calm lowered) lowered
  have reset : Calm r s3 := .ite (logRec_calm staged) staged
  exact setSvc_calm (updSvc_calm reset)

theorem svcSlotDown_calm (h : Calm r s) : Calm r (svcSlotDown b s) := by
  unfold svcSlotDown
  extract_lets v s1
  have idle : Calm r s1 := updSvc_calm h
  exact .ite (svcFailed_calm h) (.ite (setSvc_calm (withdrawReady_calm idle)) idle)

theorem ledgerClose_calm {k : Nat} (h : Calm r s) : Calm r (ledgerClose b k s) := by
  unfold ledgerClose
  split
  · exact h
  · extract_lets e s1
    exact logRec_calm (h.touch (State.updPw_touch sub_self .refl))

theorem ledgerCloseAll_calm (h : Calm r s) : Calm r (ledgerCloseAll b s) := by
  unfold ledgerCloseAll
  extract_lets s1
  have closed : Calm r s1 := .iter h fun _ _ k => ledgerClose_calm k
  exact closed.touch (State.updPw_touch sub_self .refl)

end

end Sys2Proof.Machine

/-! The rail sequencer's part of a berth: releases, the shutdown walk, shutdowns and rail faults (R149 to R160). -/
namespace Sys2Proof.Machine
set_option Elab.async false

section
variable {r s t u : State} {b c : BId} {k cause first n : Nat} {st : SlotState} {early kind fault : Bool} {f : Rl → Rl} {x y z : Rl}

/-! ### Rules of the state's parts -/

theorem updRl_rl : ((s.updRl b f).at b).rl = f (s.at b).rl := by rw [State.updRl_at, if_pos rfl]

theorem updRail_rl {g : Rail → Rail} : ((s.updRail b k g).at b).rl = { (s.at b).rl with rails := vmod (s.at b).rl.rails k g } := updRl_rl

theorem updRl_calm (h : Calm r s) : Calm r (s.updRl b f) := h.touch (State.updRl_touch sub_self .refl)

theorem logRail_calm {ty rail input code reading limit : Nat} {timeout : Bool} (h : Calm r s) :
    Calm r (logRail b ty rail input code kind reading limit timeout early s) := logRec_calm h

theorem logRail_rl {ty rail input code reading limit : Nat} {timeout : Bool} :
    ((logRail b ty rail input code kind reading limit timeout early s).at b).rl = (s.at b).rl :=
  (logRail_touch sub_self .refl).at_rl (by decide) b

theorem irq_rl {bit : Nat} : ((irq b bit s).at b).rl = (s.at b).rl := (irq_touch sub_self .refl).at_rl (by decide) b

/-- The slot is in its new state; ELAPSED starts where that is a change (R163). -/
theorem setSlotState_rl : ((setSlotState b st s).at b).rl =
    { (s.at b).rl with slot := st, since := if (s.at b).rl.slot = st then (s.at b).rl.since else s.now } := by
  unfold setSlotState
  by_cases same : (s.at b).rl.slot = st
  · rw [if_pos (by simp [same]), if_pos same, ← same]
  · rw [if_neg (by simp [same]), if_neg same, irq_rl, updRl_rl]

theorem setSlotState_calm (h : Calm r s) : Calm r (setSlotState b st s) := .ite h (irq_calm (updRl_calm h))

theorem clearTrumps_rl : ∃ trumps, ((clearTrumps b s).at b).rl = { (s.at b).rl with trumps := trumps } := by
  unfold clearTrumps
  dsimp only
  split
  · exact ⟨_, updRl_rl⟩
  · exact ⟨_, rfl⟩

theorem clearTrumps_calm (h : Calm r s) : Calm r (clearTrumps b s) := .ite (updRl_calm h) h

/-! ### Releases -/

/-- What the walk leaves as it is while it releases rails: the slot, what it holds of faults, and every rail that is not enabled. -/
structure Released (x y : Rl) : Prop where
  slot : y.slot = x.slot
  kindFault : y.kindFault = x.kindFault
  cause : y.cause = x.cause
  stuck : y.stuck = x.stuck
  fltCode : y.fltCode = x.fltCode
  faultShut : y.faultShut = x.faultShut
  evt : y.evt = x.evt
  pgEvt : y.pgEvt = x.pgEvt
  off : ∀ k, (vget x.rails k).en = false → vget y.rails k = vget x.rails k
  trip : ∀ k, (vget y.rails k).trip = (vget x.rails k).trip

theorem Released.refl : Released x x := ⟨rfl, rfl, rfl, rfl, rfl, rfl, rfl, rfl, fun _ _ => rfl, fun _ => rfl⟩

theorem Released.of_eq (eq : y = x) : Released x y := eq ▸ .refl

theorem Released.trans (h : Released x y) (k : Released y z) : Released x z where
  slot := k.slot.trans h.slot
  kindFault := k.kindFault.trans h.kindFault
  cause := k.cause.trans h.cause
  stuck := k.stuck.trans h.stuck
  fltCode := k.fltCode.trans h.fltCode
  faultShut := k.faultShut.trans h.faultShut
  evt := k.evt.trans h.evt
  pgEvt := k.pgEvt.trans h.pgEvt
  off := fun i no => (k.off i (by rw [h.off i no]; exact no)).trans (h.off i no)
  trip := fun i => (k.trip i).trans (h.trip i)

/-- Rail l released. -/
def fallen (early : Bool) (l : Rail) : Rail := { l with en := false, st := .falling, early := early, offOk := false, timedOff := false }

theorem releaseRail_eq : releaseRail b k early s = if (railOf s b k).en then
    (s.updRail b k (fallen early)).updRl b fun x => { x with ins := vmod x.ins k fun i => { i with offRun := 0 } } else s := rfl

theorem vget_vmod {α : Type} [Inhabited α] {n i j : Nat} {v : Vector α n} {g : α → α} (lt : i < n) :
    vget (vmod v i g) j = if i = j then g (vget v j) else vget v j := by
  by_cases same : i = j
  · rw [if_pos same, ← same, vget_vmod_self lt]
  · rw [if_neg same, vget_vmod_ne same]

theorem vget_eq_default {α : Type} [Inhabited α] {n i : Nat} {v : Vector α n} (out : n ≤ i) : vget v i = default := by
  rw [vget, Vector.getElem?_eq_none out]
  rfl

/-- A rail that is enabled is one of the thirteen. -/
theorem lt_of_enabled (on : (vget x.rails k).en = true) : k < 13 := by
  by_contra out
  rw [vget_eq_default (Nat.le_of_not_lt out)] at on
  cases on

theorem releaseRail_released : Released (s.at b).rl ((releaseRail b k early s).at b).rl := by
  rw [releaseRail_eq]
  by_cases on : (railOf s b k).en = true
  · have lt : k < 13 := lt_of_enabled on
    rw [if_pos on, updRl_rl, updRail_rl]
    refine ⟨rfl, rfl, rfl, rfl, rfl, rfl, rfl, rfl, fun i no => ?_, fun i => ?_⟩
    · refine vget_vmod_ne fun same => ?_
      rw [railOf, same, no] at on
      cases on
    · rw [vget_vmod lt]
      split
      · rfl
      · rfl
  · rw [if_neg on]
    exact .refl

theorem releaseRail_en : (vget ((releaseRail b k early s).at b).rl.rails k).en = false := by
  rw [releaseRail_eq]
  by_cases on : (railOf s b k).en = true
  · have lt : k < 13 := lt_of_enabled on
    rw [if_pos on, updRl_rl, updRail_rl, vget_vmod_self lt]
    rfl
  · rw [if_neg on]
    exact Bool.eq_false_iff.mpr on

theorem releaseRail_calm (h : Calm r s) : Calm r (releaseRail b k early s) := h.touch (releaseRail_touch sub_self .refl)

/-! ### The shutdown walk (R155, R156) -/

/-- The state in which a slot ends its walk. -/
def walkEnd (x : Rl) : SlotState := if x.stuck || x.retireAtEnd then .retired else if x.kindFault then .faultHold else .down

/-- The rails' part of a berth once its walk has ended. -/
def endedRl (x : Rl) (since : Nat) (trumps : List TrumpSrc) : Rl :=
  { x with cause := if x.stuck then 0x0C else x.cause, slot := walkEnd x, since := since, stuck := false, retireAtEnd := false
           trumps := trumps }

theorem shutdownEnd_rl : ∃ since trumps, ((shutdownEnd b s).at b).rl = endedRl (s.at b).rl since trumps := by
  unfold shutdownEnd
  extract_lets x st stuck s1 s2 s3 s4 s5 s6 s7 s8 away
  obtain ⟨trumps, cleared⟩ := clearTrumps_rl (b := b) (s := if away then slotInert b s8 else s8)
  have inert : ((if away then slotInert b s8 else s8).at b).rl = (s8.at b).rl :=
    (ite_touch (fs := [.pw, .cl]) (slotInert_touch (by decide) .refl) .refl).at_rl (by decide) b
  have tail : (s8.at b).rl = (s4.at b).rl := by
    have closed : Touch [.out, .freeCtr, .rp, .log, .pw, .dk, .us, .tray] s4 s6 :=
      partsRestart_touch (by decide) (State.updPw_touch (by decide) (withdraw_touch (by decide) (ledgerCloseAll_touch (by decide) .refl)))
    have shed : Touch [.out, .freeCtr, .rp, .log, .pw, .dk, .us, .tray] s4 s7 := State.onTray_touch (by decide) closed
    have told : Touch [.out, .freeCtr, .rp, .log, .pw, .dk, .us, .tray] s4 s8 := ite_touch (notice_touch (by decide) shed) shed
    exact told.at_rl (by decide) b
  have set : (s4.at b).rl = { (s1.at b).rl with
      slot := st, since := if (s1.at b).rl.slot = st then (s1.at b).rl.since else s1.now, stuck := false, retireAtEnd := false } := by
    have logged : (s3.at b).rl = (s2.at b).rl := logRail_rl
    rw [updRl_rl, logged, setSlotState_rl]
  have held : (s1.at b).rl = { x.rl with cause := if stuck then 0x0C else x.rl.cause } := by
    refine updRl_rl.trans ?_
    split
    · rfl
    · rfl
  exact ⟨_, trumps, by rw [cleared, inert, tail, set, held]; rfl⟩

theorem logSlotDown_calm (h : Calm r s) : Calm r (logSlotDown b kind s) := logRail_calm h

theorem shutdownEnd_calm (h : Calm r s) : Calm r (shutdownEnd b s) := by
  unfold shutdownEnd
  extract_lets x st stuck s1 s2 s3 s4 s5 s6 s7 s8 away
  have slot : Calm r s4 := updRl_calm (logSlotDown_calm (setSlotState_calm (updRl_calm h)))
  have closed : Calm r s5 := (ledgerCloseAll_calm slot).touch (withdraw_touch sub_self .refl)
  have parts : Calm r s6 := closed.touch (partsRestart_touch sub_self (State.updPw_touch sub_self .refl))
  have shed : Calm r s7 := parts.touch (State.onTray_touch sub_self .refl)
  have told : Calm r s8 := .ite (notice_calm shed) shed
  exact clearTrumps_calm (.ite (told.touch (slotInert_touch sub_self .refl)) told)

/-- Where a walk leaves the slot: in its place, or at the walk's end. -/
structure Walked (x y : Rl) : Prop where
  slot : y.slot = x.slot ∨ y.slot = .retired ∨ y.slot = if x.kindFault then .faultHold else .down
  kindFault : y.kindFault = x.kindFault
  cause : x.stuck = false → y.cause = x.cause
  stuck : x.stuck = true → y.stuck = true ∨ y.slot = .retired
  fltCode : y.fltCode = x.fltCode
  faultShut : y.faultShut = x.faultShut
  evt : y.evt = x.evt
  pgEvt : y.pgEvt = x.pgEvt
  off : ∀ k, (vget x.rails k).en = false → vget y.rails k = vget x.rails k
  trip : ∀ k, (vget y.rails k).trip = (vget x.rails k).trip

theorem Released.walked (h : Released x y) : Walked x y where
  slot := .inl h.slot
  kindFault := h.kindFault
  cause := fun _ => h.cause
  stuck := fun was => .inl (h.stuck.trans was)
  fltCode := h.fltCode
  faultShut := h.faultShut
  evt := h.evt
  pgEvt := h.pgEvt
  off := h.off
  trip := h.trip

theorem Released.then (h : Released x y) (k : Walked y z) : Walked x z where
  slot := by rw [← h.slot, ← h.kindFault]; exact k.slot
  kindFault := k.kindFault.trans h.kindFault
  cause := fun no => (k.cause (h.stuck.trans no)).trans h.cause
  stuck := fun was => k.stuck (h.stuck.trans was)
  fltCode := k.fltCode.trans h.fltCode
  faultShut := k.faultShut.trans h.faultShut
  evt := k.evt.trans h.evt
  pgEvt := k.pgEvt.trans h.pgEvt
  off := fun i no => (k.off i (by rw [h.off i no]; exact no)).trans (h.off i no)
  trip := fun i => (k.trip i).trans (h.trip i)

theorem shutdownEnd_walked : Walked (s.at b).rl ((shutdownEnd b s).at b).rl := by
  obtain ⟨since, trumps, ended⟩ := shutdownEnd_rl (b := b) (s := s)
  rw [ended]
  refine ⟨.inr ?_, rfl, fun no => ?_, fun was => .inr ?_, rfl, rfl, rfl, rfl, fun _ _ => rfl, fun _ => rfl⟩
  · dsimp only [endedRl, walkEnd]
    split
    · exact .inl rfl
    · exact .inr rfl
  · dsimp only [endedRl]
    rw [no]
    rfl
  · dsimp only [endedRl, walkEnd]
    rw [was]
    rfl

theorem walk_walked : Walked (s.at b).rl ((walk b n s).at b).rl := by
  induction n generalizing s with
  | zero => exact Released.refl.walked
  | succ n ih =>
    unfold walk
    extract_lets x
    split
    · exact shutdownEnd_walked
    case h_2 k =>
      extract_lets s1 l s2
      have released : Released (s.at b).rl (s1.at b).rl := releaseRail_released
      have logged : Released (s.at b).rl (s2.at b).rl := released.trans (.of_eq logRail_rl)
      split
      · split
        · exact logged.then shutdownEnd_walked
        · refine logged.then (Released.then (y := ((s2.updRl b fun l => { l with pos := l.pos + 1 }).at b).rl) ?_ ih)
          rw [updRl_rl]
          exact ⟨rfl, rfl, rfl, rfl, rfl, rfl, rfl, rfl, fun _ _ => rfl, fun _ => rfl⟩
      · exact released.walked

theorem walk_calm (h : Calm r s) : Calm r (walk b n s) := by
  induction n generalizing s with
  | zero => exact h
  | succ n ih =>
    unfold walk
    extract_lets x
    split
    · exact shutdownEnd_calm h
    case h_2 k =>
      extract_lets s1 l s2
      have released : Calm r s1 := releaseRail_calm h
      have logged : Calm r s2 := logRail_calm released
      exact .ite (.ite (shutdownEnd_calm logged) (ih (updRl_calm logged))) released

/-! ### Shutdowns and rail faults (R150, R154, R160) -/

theorem vget_map {α β : Type} [Inhabited α] [Inhabited β] {n i : Nat} {v : Vector α n} {g : α → β} (outside : g default = default) :
    vget (v.map g) i = g (vget v i) := by
  by_cases lt : i < n
  · simp [vget, lt]
  · rw [vget_eq_default (Nat.le_of_not_lt lt), vget_eq_default (Nat.le_of_not_lt lt), outside]

/-- A WAITING rail returns to OFF. -/
def waitingOff (l : Rail) : Rail := if l.st == .waiting then { l with st := .off } else l

theorem waitingOff_kept {l : Rail} : (waitingOff l).en = l.en ∧ (waitingOff l).trip = l.trip := by
  unfold waitingOff
  split
  · exact ⟨rfl, rfl⟩
  · exact ⟨rfl, rfl⟩

/-- The rails' part at the start of a shutdown. -/
def begunRl (fault : Bool) (cause first : Nat) (r : Rl) : Rl :=
  { r with kindFault := fault, cause := cause, firstRail := if fault then first else r.firstRail, pos := 0
           rails := r.rails.map waitingOff
           faultShut := if fault then sinc r.faultShut else r.faultShut
           faultSince := r.faultSince || fault }

/-- What the start of a shutdown leaves of the rails: none newly enabled, none of their trips lost. -/
structure Begun (fault : Bool) (cause : Nat) (x y : Rl) : Prop where
  slot : y.slot = .shutting
  kindFault : y.kindFault = fault
  cause_eq : y.cause = cause
  stuck : y.stuck = x.stuck
  fltCode : y.fltCode = x.fltCode
  faultShut : fault = false → y.faultShut = x.faultShut
  evt : y.evt = x.evt
  pgEvt : y.pgEvt = x.pgEvt
  en : ∀ k, (vget x.rails k).en = false → (vget y.rails k).en = false
  trip : ∀ k, (vget y.rails k).trip = (vget x.rails k).trip

theorem begunRl_begun : Begun fault cause x { begunRl fault cause first x with slot := .shutting, since := n } where
  slot := rfl
  kindFault := rfl
  cause_eq := rfl
  stuck := rfl
  fltCode := rfl
  faultShut := fun no => by rw [no]; rfl
  evt := rfl
  pgEvt := rfl
  en := fun k no => by
    have same : vget (x.rails.map waitingOff) k = waitingOff (vget x.rails k) := vget_map rfl
    exact (congrArg Rail.en same).trans (waitingOff_kept.1.trans no)
  trip := fun k => by
    have same : vget (x.rails.map waitingOff) k = waitingOff (vget x.rails k) := vget_map rfl
    exact (congrArg Rail.trip same).trans waitingOff_kept.2

/-- What a shutdown has brought about: a walk from the state in which it began, its first rail released. -/
structure ShutBy (fault : Bool) (cause first : Nat) (x y : Rl) : Prop where
  slot : y.slot = .shutting ∨ y.slot = .retired ∨ y.slot = if fault then .faultHold else .down
  kindFault : y.kindFault = fault
  cause_eq : x.stuck = false → y.cause = cause
  fltCode : y.fltCode = x.fltCode
  faultShut : fault = false → y.faultShut = x.faultShut
  evt : y.evt = x.evt
  pgEvt : y.pgEvt = x.pgEvt
  en : ∀ k, (vget x.rails k).en = false → (vget y.rails k).en = false
  trip : ∀ k, (vget y.rails k).trip = (vget x.rails k).trip
  first_off : first < 13 → (vget y.rails first).en = false

theorem Begun.shutBy (h : Begun fault cause x y) (k : Walked y z) (off : first < 13 → (vget y.rails first).en = false) :
    ShutBy fault cause first x z where
  slot := by rw [← h.slot, ← h.kindFault]; exact k.slot
  kindFault := k.kindFault.trans h.kindFault
  cause_eq := fun no => (k.cause (h.stuck.trans no)).trans h.cause_eq
  fltCode := k.fltCode.trans h.fltCode
  faultShut := fun no => k.faultShut.trans (h.faultShut no)
  evt := k.evt.trans h.evt
  pgEvt := k.pgEvt.trans h.pgEvt
  en := fun i no => by rw [k.off i (h.en i no)]; exact h.en i no
  trip := fun i => (k.trip i).trans (h.trip i)
  first_off := fun lt => by rw [k.off first (off lt)]; exact off lt

theorem Begun.released (h : Begun fault cause x y) (k : Released y z) : Begun fault cause x z where
  slot := k.slot.trans h.slot
  kindFault := k.kindFault.trans h.kindFault
  cause_eq := k.cause.trans h.cause_eq
  stuck := k.stuck.trans h.stuck
  fltCode := k.fltCode.trans h.fltCode
  faultShut := fun no => k.faultShut.trans (h.faultShut no)
  evt := k.evt.trans h.evt
  pgEvt := k.pgEvt.trans h.pgEvt
  en := fun i no => by rw [k.off i (h.en i no)]; exact h.en i no
  trip := fun i => (k.trip i).trans (h.trip i)

/-- The first rail of a shutdown is released at once. -/
def firstReleased (b : BId) (first : Nat) (s : State) : State := if first < 13 then releaseRail b first true s else s

theorem firstReleased_released : Released (s.at b).rl ((firstReleased b first s).at b).rl := by
  unfold firstReleased
  split
  · exact releaseRail_released
  · exact .refl

theorem firstReleased_en (lt : first < 13) : (vget ((firstReleased b first s).at b).rl.rails first).en = false := by
  rw [firstReleased, if_pos lt]
  exact releaseRail_en

theorem firstReleased_calm (h : Calm r s) : Calm r (firstReleased b first s) := .ite (releaseRail_calm h) h

theorem startShutdown_shutBy : ShutBy fault cause first (s.at b).rl ((startShutdown b fault cause first s).at b).rl := by
  unfold startShutdown
  extract_lets s1 s2 s3 s4 s5 s6 s7 s8
  have slot : ∃ since, (s2.at b).rl = { begunRl fault cause first (s.at b).rl with slot := .shutting, since := since } :=
    ⟨_, setSlotState_rl.trans (by rw [updRl_rl]; rfl)⟩
  have kept : (s7.at b).rl = (s2.at b).rl := by
    have logged : (s3.at b).rl = (s2.at b).rl := logRail_rl
    have stopped : (s4.at b).rl = (s3.at b).rl := (linkStop_touch sub_self .refl).at_rl (by decide) b
    have orders : (s5.at b).rl = (s4.at b).rl := (State.updHw_touch sub_self .refl).at_rl (by decide) b
    have service : (s6.at b).rl = (s5.at b).rl := (svcSlotDown_touch sub_self .refl).at_rl (by decide) b
    have parts : (s7.at b).rl = (s6.at b).rl := (State.updPw_touch sub_self .refl).at_rl (by decide) b
    rw [parts, service, orders, stopped, logged]
  obtain ⟨since, begun⟩ := slot
  have start : Begun fault cause (s.at b).rl (s7.at b).rl := by
    rw [kept, begun]
    exact begunRl_begun
  exact (start.released (firstReleased_released (first := first))).shutBy walk_walked fun lt => firstReleased_en lt

theorem startShutdown_calm (h : Calm r s) : Calm r (startShutdown b fault cause first s) := by
  unfold startShutdown
  extract_lets s1 s2 s3 s4 s5 s6 s7 s8
  have logged : Calm r s3 := logRail_calm (setSlotState_calm (updRl_calm h))
  have orders : Calm r s5 := updHw_calm (linkStop_calm logged)
  have parts : Calm r s7 := (svcSlotDown_calm orders).touch (State.updPw_touch sub_self .refl)
  exact walk_calm (firstReleased_calm parts)

theorem shutdown_of_on (on : (s.at b).rl.slot = .powering ∨ (s.at b).rl.slot = .up) :
    shutdown b fault cause first s = startShutdown b fault cause first s := by
  unfold shutdown
  rcases on with on | on
  · rw [on]
  · rw [on]

theorem shutdown_of_off (powering : (s.at b).rl.slot ≠ .powering) (up : (s.at b).rl.slot ≠ .up) : shutdown b false cause first s = s := by
  unfold shutdown
  split
  case h_1 eq => exact absurd eq powering
  case h_2 eq => exact absurd eq up
  case h_3 => rfl
  case h_4 => rfl

/-- A shutdown loses no count of a rail's events. -/
theorem shutdown_pgEvt : ((shutdown b fault cause first s).at b).rl.pgEvt = (s.at b).rl.pgEvt := by
  unfold shutdown
  split
  · exact startShutdown_shutBy.pgEvt
  · exact startShutdown_shutBy.pgEvt
  · split
    · rfl
    · extract_lets was s1 s2 s3
      have asked : (s2.at b).rl.pgEvt = (s.at b).rl.pgEvt := by
        unfold s2
        split
        · rfl
        · rw [logRail_rl, updRl_rl]
      have shut : ((walk b 14 (firstReleased b first s2)).at b).rl.pgEvt = (s2.at b).rl.pgEvt :=
        (firstReleased_released.then walk_walked).pgEvt
      exact shut.trans asked
  · rfl

theorem shutdown_calm (h : Calm r s) : Calm r (shutdown b fault cause first s) := by
  unfold shutdown
  split
  · exact startShutdown_calm h
  · exact startShutdown_calm h
  · split
    · exact h
    · extract_lets was s1 s2 s3
      have asked : Calm r s2 := .ite h (logRail_calm (updRl_calm h))
      exact walk_calm (firstReleased_calm asked)
  · exact h

/-- The rails' part once a trump condition stands recorded in RL_FAULT (R150). -/
def faultNoted (src : TrumpSrc) (code rail input : Nat) (r : Rl) : Rl :=
  { r with fltCode := if r.fltCode == 0 then code else r.fltCode
           fltRail := if r.fltCode == 0 then rail else r.fltRail
           fltInput := if r.fltCode == 0 then input else r.fltInput
           fltOver := r.fltOver || r.fltCode != 0
           trumps := r.trumps ++ [src]
           ins := match src with
             | .input i => vmod r.ins i fun x => { x with clearRun := 0 }
             | _ => r.ins }

/-- The trump is recorded and logged, and the harbour is told. -/
def faultTold (b : BId) (src : TrumpSrc) (code rail input reading limit : Nat) (respond : Bool) (s : State) : State :=
  let s := irq b 8 (s.updRl b (faultNoted src code rail input))
  let s := logRail b 0x0E rail input code (respond && powered (s.at b).rl.slot) reading limit false false s
  ringSend b (some (s.at b).sy.harbour) (.railTrump b) s

section
variable {src : TrumpSrc} {code rail input reading limit : Nat} {respond : Bool}

theorem railFault_eq : railFault b src code rail input reading limit first respond s =
    if respond then shutdown b true code first (faultTold b src code rail input reading limit respond s)
    else faultTold b src code rail input reading limit respond s := rfl

theorem faultTold_rl : ((faultTold b src code rail input reading limit respond s).at b).rl = faultNoted src code rail input (s.at b).rl := by
  unfold faultTold
  extract_lets s1 s2
  have sent : ((ringSend b (some (s2.at b).sy.harbour) (.railTrump b) s2).at b).rl = (s2.at b).rl :=
    (ringSend_touch sub_self .refl).at_rl (by decide) b
  have logged : (s2.at b).rl = (s1.at b).rl := logRail_rl
  rw [sent, logged, irq_rl, updRl_rl]

theorem faultTold_calm (h : Calm r s) : Calm r (faultTold b src code rail input reading limit respond s) :=
  ringSend_calm (logRail_calm (irq_calm (updRl_calm h)))

theorem faultTold_out (clock : (s.at b).sy.holdover = false) : Output.ring b (some (s.at b).sy.harbour) (.railTrump b) ∈
    (faultTold b src code rail input reading limit respond s).out := by
  unfold faultTold
  extract_lets s1 s2
  have sy : (s2.at b).sy = (s.at b).sy :=
    (logRail_touch (fs := [.out, .freeCtr, .rp, .log, .dk, .us, .rl, .pl]) (by decide)
      (irq_touch (by decide) (State.updRl_touch (by decide) .refl))).at_sy (by decide) b
  rw [sy, ringSend_out_of_clock (by rw [sy]; exact clock)]
  exact List.mem_append_right _ (List.mem_singleton.mpr rfl)

theorem railFault_calm (h : Calm r s) : Calm r (railFault b src code rail input reading limit first respond s) := by
  rw [railFault_eq]
  exact .ite (shutdown_calm (faultTold_calm h)) (faultTold_calm h)

theorem railFault_shutBy (on : (s.at b).rl.slot = .powering ∨ (s.at b).rl.slot = .up) :
    ShutBy true code first (faultNoted src code rail input (s.at b).rl)
      ((railFault b src code rail input reading limit first true s).at b).rl := by
  have on' : ((faultTold b src code rail input reading limit true s).at b).rl.slot = .powering
      ∨ ((faultTold b src code rail input reading limit true s).at b).rl.slot = .up := by
    rw [faultTold_rl]
    exact on
  rw [railFault_eq, if_pos rfl, shutdown_of_on on', ← faultTold_rl (reading := reading) (limit := limit) (respond := true)]
  exact startShutdown_shutBy

/-- A fault of a slot that is POWERING or UP begins a fault shutdown (R150, R154). -/
theorem railFault_faulted (on : (s.at b).rl.slot = .powering ∨ (s.at b).rl.slot = .up) :
    Faulted b code s (railFault b src code rail input reading limit first true s) := by
  have shut := railFault_shutBy (src := src) (code := code) (rail := rail) (input := input) (reading := reading) (limit := limit)
    (first := first) on
  have more : Calm (faultTold b src code rail input reading limit true s) (railFault b src code rail input reading limit first true s) := by
    rw [railFault_eq, if_pos rfl]
    exact shutdown_calm .refl
  refine ⟨?_, shut.kindFault, ?_, fun clock => more.more _ (faultTold_out clock)⟩
  · rcases shut.slot with slot | slot | slot
    · exact .inl slot
    · exact .inr (.inr slot)
    · exact .inr (.inl slot)
  · rw [shut.fltCode]
    simp [faultNoted]

end

end

end Sys2Proof.Machine

/-! What faults a rail, released rails, the fault hold and rail trumps (R142 to R160, R177). -/
namespace Sys2Proof.Machine
set_option Elab.async false

section
variable {s t u : State} {b c h n : BId} {r i code : Nat} {c' : Cond}

/-- A fault from a state that tells the same of RL_FAULT, the slot and the clock. -/
theorem Faulted.of_same {x : State} (f : Faulted b code u t) (e : EndsAs t x) (flt : (u.at b).rl.fltCode = (s.at b).rl.fltCode)
    (sy : (u.at b).sy = (s.at b).sy) : Faulted b code s x := by
  obtain ⟨slot, kind, noted, told⟩ := f
  rw [Faulted, e.at_eq, e.out, ← flt, ← sy]
  exact ⟨slot, kind, noted, told⟩

theorem faultNoted_pgEvt {src : TrumpSrc} {rail input : Nat} {x : Rl} : (faultNoted src code rail input x).pgEvt = x.pgEvt := rfl

/-- A count of rail r's events is moved on. -/
def pgCounted (b : BId) (r : Nat) (f : PgEvt → PgEvt) (s : State) : State := s.updRl b fun x => { x with pgEvt := vmod x.pgEvt r f }

theorem pgCounted_sy {f : PgEvt → PgEvt} : ((pgCounted b r f s).at b).sy = (s.at b).sy := (State.updRl_touch sub_self .refl).at_sy (by decide) b

theorem avsSetTimeout_eq (on : (s.at b).rl.slot = .powering) (waits : (railOf s b r).st = .waiting) (avs : railAvs (s.at b) r = true)
    (no : (railOf s b r).setAck = false) : avsSetTimeout b r s =
      railFault b (.rail r) 0x0B r 31 0 0 15 true (pgCounted b r (fun e => { e with avs := sinc8 e.avs }) s) :=
  if_pos (by simp [on, waits, avs, no])

theorem lastReading_pgCounted {f : PgEvt → PgEvt} : lastReading (pgCounted b r f s) b r = lastReading s b r := by
  rw [lastReading, inOf, pgCounted, updRl_rl]
  rfl

theorem pgTimeout_eq (on : (s.at b).rl.slot = .powering) (pg : railPgWait (s.at b) r = true) (ramps : (railOf s b r).st = .ramping) :
    pgTimeout b r s = railFault b (.pg r) 0x09 r r (lastReading s b r) 0 r true
      (pgCounted b r (fun e => { e with timeout := sinc8 e.timeout }) s) := by
  unfold pgTimeout
  extract_lets x s1
  have reading : lastReading s1 b r = lastReading s b r := lastReading_pgCounted
  rw [if_pos (by simp [x, on, pg, ramps]), reading]
  rfl

theorem rampTimeout_eq (on : (s.at b).rl.slot = .powering) (pg : railPgWait (s.at b) r = false) (mon : monitored (s.at b) r = true)
    (ramps : (railOf s b r).st = .ramping) : rampTimeout b r s = railFault b (.rail r) 0x0A r r (lastReading s b r) 0 r true
      (pgCounted b r (fun e => { e with ramp := sinc8 e.ramp }) s) := by
  unfold rampTimeout
  extract_lets x s1
  have reading : lastReading s1 b r = lastReading s b r := lastReading_pgCounted
  rw [if_pos (by simp [x, on, pg, mon, ramps]), reading]
  rfl

/-- The rail's power-good input reads low. -/
def pgLow (b : BId) (r : Nat) (s : State) : State := s.updRail b r fun l => { l with pg := false, trip := none }

theorem powerGoodDrop_eq (used : railUsed (s.at b) r = true) (pg : railPgWait (s.at b) r = true)
    (counts : (railOf s b r).st = .up ∧ (s.at b).rl.slot ≠ .shutting ∨ (railOf s b r).trip = some (s.at b).rl.scans) :
    powerGoodDrop b r s = railFault b (.pg r) 0x08 r r (lastReading s b r) 0 r true
      (pgCounted b r (fun e => { e with drop := sinc8 e.drop }) (pgLow b r s)) := by
  unfold powerGoodDrop
  extract_lets x l s1 s2
  have reading : lastReading s2 b r = lastReading s b r := by
    have low : lastReading s1 b r = lastReading s b r := by
      rw [lastReading, inOf, updRail_rl]
      rfl
    exact lastReading_pgCounted.trans low
  have counts' : (railUsed x r && railPgWait x r && ((l.st == .up && x.rl.slot != .shutting) || l.trip == some x.rl.scans)) = true := by
    rcases counts with ⟨up, on⟩ | trip
    · simp [x, l, used, pg, up, on]
    · simp [x, l, used, pg, trip]
  rw [if_pos counts', reading]
  rfl

/-! ### Threshold conditions (R146, R150, R160) -/

theorem iter_same {α : Type} {xs : List α} {f : α → State → State} (same : ∀ x ∈ xs, f x s = s) : iter xs f s = s := by
  induction xs with
  | nil => rfl
  | cons x xs ih =>
    rw [iter_cons, same x List.mem_cons_self]
    exact ih fun y mem => same y (List.mem_cons_of_mem _ mem)

theorem confirmOne_not (no : condReady (s.at b) i c' = false) : confirmOne b i c' s = s := if_neg (by rw [no]; decide)

/-- A condition is confirmed where nothing stands confirmed below it. -/
theorem thresholdConfirm_eq (ready : condReady (s.at b) i c' = true) (lower : NoLower (s.at b) i) :
    thresholdConfirm b i c' s = confirmed b i c' s := by
  have first : iter (upto i) (fun j => iter [.softLow, .softHigh, .hardLow, .hardHigh] (confirmOne b j)) s = s :=
    iter_same fun j mem => iter_same fun k mem' => confirmOne_not (lower j (List.mem_range.mp mem) k mem')
  rw [thresholdConfirm, if_pos ready, first, confirmOne, if_pos ready]

/-- Condition c' of input i is marked answered. -/
def condDone : Cond → AdcIn → AdcIn
  | .softLow, n => { n with softLowDone := true }
  | .softHigh, n => { n with softHighDone := true }
  | .hardLow, n => { n with hardLowDone := true }
  | .hardHigh, n => { n with hardHighDone := true }
  | .rise, n => n

/-- A count of input i's events is moved on for the condition. -/
def condCount : Cond → InEvt → InEvt
  | .softLow, e => { e with low := sinc8 e.low }
  | .softHigh, e => { e with high := sinc8 e.high }
  | .hardLow, e => { e with hard := sinc8 e.hard }
  | .hardHigh, e => { e with hard := sinc8 e.hard }
  | .rise, e => e

/-- The condition is marked answered and counted. -/
def condNoted (b : BId) (i : Nat) (c : Cond) (s : State) : State :=
  countEvt b i (condCount c) (s.updRl b fun r => { r with ins := vmod r.ins i (condDone c) })

/-- The state in which a rail's limit faults it. -/
def tripped (b : BId) (i : Nat) (c : Cond) (s : State) : State := railTrip b i (condNoted b i c s)

/-- The code of a rail input's condition (R150). -/
def condCode : Cond → Nat
  | .softLow => 1
  | .softHigh => 2
  | .hardLow => 3
  | .hardHigh => 4
  | .rise => 0

/-- The limit that a rail input's condition has crossed. -/
def condLimit (x : Berth) (i : Nat) : Cond → Nat
  | .softLow => (softLimits x i).1
  | .softHigh => (softLimits x i).2
  | .hardLow => hardLow x i
  | .hardHigh => hardHigh x i
  | .rise => 0

/-- A limit of a rail's own input faults the rail (R150). -/
theorem confirmed_rail (low : i ≤ 12) (limit : c' ≠ .rise) : confirmed b i c' s =
    railFault b (.input i) (condCode c') i i (inOf s b i).code (condLimit (s.at b) i c') i true (tripped b i c' s) := by
  cases c' with
  | rise => exact absurd rfl limit
  | _ => exact if_pos low

theorem tripped_rl : ((tripped b i c' s).at b).rl = { (s.at b).rl with
    ins := vmod (s.at b).rl.ins i (condDone c'), evt := vmod (s.at b).rl.evt i (condCount c')
    rails := vmod (s.at b).rl.rails i fun l => { l with trip := some (s.at b).rl.scans } } := by
  rw [tripped, railTrip, updRail_rl, condNoted, countEvt, updRl_rl, updRl_rl]

theorem tripped_sy : ((tripped b i c' s).at b).sy = (s.at b).sy :=
  (railTrip_touch (fs := [.rl]) (by decide) (countEvt_touch (by decide) (State.updRl_touch (by decide) .refl))).at_sy (by decide) b

/-! ### Released rails, the fault hold and rail trumps (R151, R155, R156, R159, R177) -/

/-- A released rail reads below OFF. -/
def offConfirmed (b : BId) (r : Nat) (s : State) : State := s.updRail b r fun l => { l with st := .off, offOk := true }

theorem railOffConfirm_eq (falling : (railOf s b r).st = .falling) (mon : monitored (s.at b) r = true)
    (runs : thrFilter (s.at b) r ≤ (inOf s b r).offRun) : railOffConfirm b r s =
      if (s.at b).rl.slot == .shutting then walk b 14 (offConfirmed b r s) else clearTrumps b (offConfirmed b r s) :=
  if_pos (by simp [falling, mon, runs])

/-- A monitored rail that has not come off sticks; another counts as off (R155, R156). -/
def offTimedOut (b : BId) (r : Nat) (s : State) : State :=
  if monitored (s.at b) r then
    countEvt b r (fun e => { e with offTo := sinc8 e.offTo })
      ((s.updRail b r fun l => { l with timedOff := true }).updRl b fun y => { y with stuck := true })
  else s.updRail b r fun l => { l with st := .off }

theorem railOffTimeout_eq (falling : (railOf s b r).st = .falling) (off : (railOf s b r).offOk = false)
    (timed : (railOf s b r).timedOff = false) : railOffTimeout b r s =
      if (s.at b).rl.slot == .shutting then walk b 14 (offTimedOut b r s) else offTimedOut b r s :=
  if_pos (by simp [falling, off, timed])

theorem clearTrumps_down (down : (s.at b).rl.slot = .down) : clearTrumps b s =
    s.updRl b fun r => { r with trumps := r.trumps.filter fun x => !trumpClear (s.at b) x } := if_pos (by simp [down])

theorem trumpClear_congr {x y : Berth} {k : TrumpSrc} (ins : y.rl.ins = x.rl.ins) (rails : y.rl.rails = x.rl.rails)
    (thr : y.rl.thr = x.rl.thr) : trumpClear y k = trumpClear x k := by
  cases k with
  | input i => exact decide_eq_decide.mpr (by rw [thrFilter, thrFilter, ins, thr])
  | pg r => simp only [trumpClear, rails]
  | rail r => simp only [trumpClear, rails]

theorem slotDown_rl (other : (s.at b).rl.slot ≠ .down) :
    ((slotDown b s).at b).rl = { (s.at b).rl with slot := .down, since := s.now } := by
  have logged : ((slotDown b s).at b).rl = ((setSlotState b .down s).at b).rl := logRail_rl
  rw [logged, setSlotState_rl, if_neg other]

theorem onTray_eq {f : Tray → Tray} (harbour : s.harbour = some h) : s.onTray f = s.updTray h f := by
  rw [State.onTray, harbour]

theorem setAdmit_tray {a : Admit} (harbour : s.harbour = some h) : ((setAdmit n a s).at h).tray =
    { (s.at h).tray with pw := { (s.at h).tray.pw with admis := vset (s.at h).tray.pw.admis n.val a } } := by
  unfold setAdmit
  rw [onTray_eq harbour, (State.updPw_touch sub_self .refl).at_tray (by decide), State.updTray_at, if_pos rfl]

theorem setGrant_tray {g : Nat} (harbour : s.harbour = some h) : ((setGrant n g s).at h).tray =
    { (s.at h).tray with pw := { (s.at h).tray.pw with grant := vset (s.at h).tray.pw.grant n.val g } } := by
  unfold setGrant
  rw [onTray_eq harbour, (State.updPw_touch sub_self .refl).at_tray (by decide), State.updTray_at, if_pos rfl]

/-- The slot's new grant is dropped before its admission is withdrawn. -/
def grantDropped (n : BId) (s : State) : State := s.onTray fun t => { t with pw := { t.pw with newGrant := vset t.pw.newGrant n.val none } }

theorem grantDropped_harbour : (grantDropped n s).harbour = s.harbour := (State.onTray_touch sub_self .refl).harbour_eq

theorem withdraw_eq {trump : Bool} : withdraw n trump s =
    if vget s.tray.pw.admis n.val == .none && vget s.tray.pw.grant n.val == 0 then s
    else if trump && !downish ((setGrant n 0 (setAdmit n .none (grantDropped n s))).at n).rl.slot then
      (setGrant n 0 (setAdmit n .none (grantDropped n s))).updPw n fun p => { p with trumped := true }
    else setGrant n 0 (setAdmit n .none (grantDropped n s)) := rfl

/-- A withdrawn slot has no admission and no grant (R177). -/
theorem withdraw_admits {trump : Bool} (harbour : s.harbour = some h) : vget ((withdraw n trump s).at h).tray.pw.admis n.val = .none
    ∧ vget ((withdraw n trump s).at h).tray.pw.grant n.val = 0 := by
  have taken : vget ((setGrant n 0 (setAdmit n .none (grantDropped n s))).at h).tray.pw.admis n.val = .none
      ∧ vget ((setGrant n 0 (setAdmit n .none (grantDropped n s))).at h).tray.pw.grant n.val = 0 := by
    have role : (setAdmit n .none (grantDropped n s)).harbour = some h :=
      ((setAdmit_touch sub_self .refl).harbour_eq.trans grantDropped_harbour).trans harbour
    rw [setGrant_tray role, setAdmit_tray (grantDropped_harbour.trans harbour)]
    exact ⟨vget_vset_self n.isLt, vget_vset_self n.isLt⟩
  rw [withdraw_eq]
  split
  case isTrue nothing =>
    rw [tray_of_harbour harbour, Bool.and_eq_true, beq_iff_eq, beq_iff_eq] at nothing
    exact nothing
  case isFalse =>
    split
    · rw [(State.updPw_touch sub_self .refl).at_tray (by decide)]
      exact taken
    · exact taken

/-- Settles O20: every fault sets out from a state that differs in its counts alone, and the walk leaves released rails as they are. -/
theorem railFaultsAndOff : Obligations.RailFaultsAndOff := by
  unfold Obligations.RailFaultsAndOff
  refine ⟨fun s b on => ⟨fun r ⟨powering, waits, avs, no⟩ => ?_, fun r ⟨used, pg, up⟩ => ?_, fun r ⟨powering, pg, ramps⟩ => ?_,
    fun r ⟨powering, pg, mon, ramps⟩ => ?_, fun i c code ⟨mem, low, ready, lower⟩ => ?_⟩, fun s b r ⟨used, pg, trip⟩ => ?_,
    fun s b r => ⟨fun ⟨falling, off, mon, runs⟩ => ?_, fun ⟨falling, off, offOk, timed⟩ => ?_, fun hold => ?_, fun h harbour => ?_⟩⟩
  · refine answers_of_run (congrArg (ran s) (avsSetTimeout_eq (s := s.begin) powering waits avs no)) fun t queue e => ?_
    refine Faulted.of_same (railFault_faulted ?_) e ?_ pgCounted_sy
    · rw [pgCounted, updRl_rl]; exact on
    · rw [pgCounted, updRl_rl]; rfl
  · have notShutting : (s.at b).rl.slot ≠ .shutting := by rcases on with on | on <;> rw [on] <;> decide
    refine answers_of_run (congrArg (ran s) (powerGoodDrop_eq (s := s.begin) used pg (.inl ⟨up, notShutting⟩))) fun t queue e => ?_
    have on' : ((pgCounted b r.val (fun e => { e with drop := sinc8 e.drop }) (pgLow b r.val s.begin)).at b).rl.slot = .powering
        ∨ ((pgCounted b r.val (fun e => { e with drop := sinc8 e.drop }) (pgLow b r.val s.begin)).at b).rl.slot = .up := by
      rw [pgCounted, updRl_rl, pgLow, updRail_rl]; exact on
    refine ⟨Faulted.of_same (railFault_faulted on') e ?_ ?_, ?_⟩
    · rw [pgCounted, updRl_rl, pgLow, updRail_rl]; rfl
    · exact pgCounted_sy.trans ((State.updRail_touch sub_self .refl).at_sy (by decide) b)
    · rw [e.at_eq]
      exact (railFault_shutBy on').first_off (Nat.lt_succ_of_lt r.isLt)
  · refine answers_of_run (congrArg (ran s) (pgTimeout_eq (s := s.begin) powering pg ramps)) fun t queue e => ?_
    have on' : ((pgCounted b r.val (fun e => { e with timeout := sinc8 e.timeout }) s.begin).at b).rl.slot = .powering
        ∨ ((pgCounted b r.val (fun e => { e with timeout := sinc8 e.timeout }) s.begin).at b).rl.slot = .up := by
      rw [pgCounted, updRl_rl]; exact on
    refine ⟨Faulted.of_same (railFault_faulted on') e ?_ pgCounted_sy, ?_⟩
    · rw [pgCounted, updRl_rl]; rfl
    · rw [e.at_eq]
      exact (railFault_shutBy on').first_off (Nat.lt_succ_of_lt r.isLt)
  · refine answers_of_run (congrArg (ran s) (rampTimeout_eq (s := s.begin) powering pg mon ramps)) fun t queue e => ?_
    have on' : ((pgCounted b r.val (fun e => { e with ramp := sinc8 e.ramp }) s.begin).at b).rl.slot = .powering
        ∨ ((pgCounted b r.val (fun e => { e with ramp := sinc8 e.ramp }) s.begin).at b).rl.slot = .up := by
      rw [pgCounted, updRl_rl]; exact on
    refine ⟨Faulted.of_same (railFault_faulted on') e ?_ pgCounted_sy, ?_⟩
    · rw [pgCounted, updRl_rl]; rfl
    · rw [e.at_eq]
      exact (railFault_shutBy on').first_off r.isLt
  · have limit : c ≠ .rise ∧ condCode c = code := by
      simp only [List.mem_cons, Prod.mk.injEq, List.not_mem_nil, or_false] at mem
      rcases mem with ⟨rfl, rfl⟩ | ⟨rfl, rfl⟩ | ⟨rfl, rfl⟩ | ⟨rfl, rfl⟩
      · exact ⟨by decide, rfl⟩
      · exact ⟨by decide, rfl⟩
      · exact ⟨by decide, rfl⟩
      · exact ⟨by decide, rfl⟩
    obtain ⟨notRise, rfl⟩ := limit
    have run := (thresholdConfirm_eq (s := s.begin) ready lower).trans (confirmed_rail low notRise)
    refine answers_of_run (congrArg (ran s) run) fun t queue e => ?_
    have on' : ((tripped b i.val c s.begin).at b).rl.slot = .powering ∨ ((tripped b i.val c s.begin).at b).rl.slot = .up := by
      rw [tripped_rl]; exact on
    have shut := railFault_shutBy (src := .input i.val) (code := condCode c) (rail := i.val) (input := i.val)
      (reading := (inOf s.begin b i.val).code) (limit := condLimit (s.begin.at b) i.val c) (first := i.val) on'
    refine ⟨Faulted.of_same (railFault_faulted on') e ?_ tripped_sy, ?_, ?_⟩
    · rw [tripped_rl]; rfl
    · rw [e.at_eq]
      exact shut.first_off (Nat.lt_succ_of_le low)
    · rw [e.at_eq]
      refine (shut.trip i.val).trans ?_
      rw [tripped_rl]
      exact congrArg Rail.trip (vget_vmod_self (Nat.lt_succ_of_le low))
  · refine answers_of_run (congrArg (ran s) (powerGoodDrop_eq (s := s.begin) used pg (.inr trip))) fun t queue e => ?_
    rw [e.at_eq, railFault_eq, if_pos rfl, shutdown_pgEvt, congrArg Rl.pgEvt faultTold_rl, faultNoted_pgEvt, pgCounted, updRl_rl, pgLow, updRail_rl]
    exact congrArg PgEvt.drop (vget_vmod_self (Nat.lt_succ_of_lt r.isLt))
  · refine answers_of_run (congrArg (ran s) (railOffConfirm_eq (s := s.begin) falling mon runs)) fun t queue e => ?_
    have rail : vget ((offConfirmed b r.val s.begin).at b).rl.rails r.val =
        { vget (s.at b).rl.rails r.val with st := .off, offOk := true } := by
      rw [offConfirmed, updRail_rl]
      exact vget_vmod_self r.isLt
    have kept : vget (t.at b).rl.rails r.val = vget ((offConfirmed b r.val s.begin).at b).rl.rails r.val := by
      rw [e.at_eq]
      split
      · exact walk_walked.off r.val (by rw [rail]; exact off)
      · obtain ⟨trumps, cleared⟩ := clearTrumps_rl (b := b) (s := offConfirmed b r.val s.begin)
        rw [cleared]
    rw [kept, rail]
    exact ⟨rfl, rfl, off⟩
  · refine answers_of_run (congrArg (ran s) (railOffTimeout_eq (s := s.begin) falling offOk timed)) fun t queue e => ?_
    have stays : Walked ((offTimedOut b r.val s.begin).at b).rl (t.at b).rl := by
      rw [e.at_eq]
      split
      · exact walk_walked
      · exact Released.refl.walked
    refine ⟨fun mon => ?_, fun mon => ?_⟩
    · have rl : ((offTimedOut b r.val s.begin).at b).rl = { (s.at b).rl with
          rails := vmod (s.at b).rl.rails r.val fun l => { l with timedOff := true }, stuck := true
          evt := vmod (s.at b).rl.evt r.val fun e => { e with offTo := sinc8 e.offTo } } := by
        have mon' : monitored (s.begin.at b) r.val = true := mon
        rw [offTimedOut, if_pos mon', countEvt, updRl_rl, updRl_rl, updRail_rl]
        rfl
      have rail : vget ((offTimedOut b r.val s.begin).at b).rl.rails r.val = { vget (s.at b).rl.rails r.val with timedOff := true } := by
        rw [rl]
        exact vget_vmod_self r.isLt
      refine ⟨?_, stays.stuck (by rw [rl]), ?_⟩
      · rw [stays.off r.val (by rw [rail]; exact off), rail]
      · rw [stays.evt, rl]
        exact congrArg InEvt.offTo (vget_vmod_self (Nat.lt_trans r.isLt (by decide)))
    · have rail : vget ((offTimedOut b r.val s.begin).at b).rl.rails r.val = { vget (s.at b).rl.rails r.val with st := .off } := by
        rw [offTimedOut, if_neg (by rw [State.begin_at, mon]; decide), updRail_rl]
        exact vget_vmod_self r.isLt
      rw [stays.off r.val (by rw [rail]; exact off), rail]
  · have run : faultHoldEnd b s.begin = clearTrumps b (slotDown b s.begin) := if_pos (by simp [hold])
    refine answers_of_run (congrArg (ran s) run) fun t queue e => ?_
    have down := slotDown_rl (b := b) (s := s.begin) (by rw [State.begin_at, hold]; decide)
    have cleared := clearTrumps_down (b := b) (s := slotDown b s.begin) (by rw [down])
    refine ⟨e.agreeOff_begin (by decide) (clearTrumps_touch (by decide) (slotDown_touch (by decide) .refl)), ?_⟩
    rw [e.at_eq, cleared, updRl_rl, down]
    refine ⟨rfl, rfl, ?_⟩
    have same (k : TrumpSrc) : trumpClear ((slotDown b s.begin).at b) k = trumpClear (s.at b) k :=
      trumpClear_congr (by rw [down]; rfl) (by rw [down]; rfl) (by rw [down]; rfl)
    simp only [same]
    rfl
  · refine answers_of_run rfl fun t queue e => ?_
    have role : (withdraw b true s.begin).harbour = some h := (withdraw_touch sub_self .refl).harbour_eq.trans harbour
    obtain ⟨admis, grant⟩ := withdraw_admits (n := b) (trump := true) (s := s.begin) harbour
    have tray : ((railTrumpReceive b s.begin).at h).tray = ((withdraw b true s.begin).at h).tray :=
      (attn_touch sub_self .refl).at_tray (by decide) h
    rw [e.at_eq, tray]
    exact ⟨admis, grant, attn_sets role⟩

end

end Sys2Proof.Machine

/-! Orders to a slot and the start of its rails (R140 to R144, R159). -/
namespace Sys2Proof.Machine
set_option Elab.async false

section
variable {r s t u : State} {b c h : BId} {k n code : Nat} {req : ReqId} {x y z : Rl}

/-! ### The rails that start (R141, R142) -/

theorem thrSet_rl {low high : Nat} : ∃ thr, ((thrSet b k low high s).at b).rl = { (s.at b).rl with thr := thr } := by
  unfold thrSet
  extract_lets x l hi w
  split
  · exact ⟨_, updRl_rl⟩
  · exact ⟨_, rfl⟩

theorem track_rl {old new : Nat} : ∃ thr, ((track b k old new s).at b).rl = { (s.at b).rl with thr := thr } := by
  unfold track
  extract_lets x a
  split
  · exact thrSet_rl
  · exact ⟨_, rfl⟩

/-- A rail that starts waits for its delay and its setpoint. -/
def waitingRail (l : Rail) : Rail := { st := .waiting, pg := l.pg }

theorem startRail_rl : ∃ ins wide thr, ((startRail b k s).at b).rl = { (s.at b).rl with
    rails := vmod (s.at b).rl.rails k fun _ => waitingRail (railOf s b k), ins := ins, wide := wide, thr := thr } := by
  unfold startRail
  extract_lets x s1 s2 mv s3
  have begun : (s2.at b).rl = { (s.at b).rl with
      rails := vmod (s.at b).rl.rails k fun _ => waitingRail (railOf s b k)
      ins := vmod (s.at b).rl.ins k fun i => { i with riseRun := 0 } } := by
    rw [updRl_rl, updRail_rl]
    rfl
  split
  · obtain ⟨thr, tracked⟩ := track_rl (b := b) (k := k) (old := (vget x.pw.parts k).target) (new := mv)
      (s := s3.updPart b k fun p => { p with target := mv })
    have target : ((s3.updPart b k fun p => { p with target := mv }).at b).rl = (s3.at b).rl :=
      (State.updPart_touch sub_self .refl).at_rl (by decide) b
    refine ⟨(s3.at b).rl.ins, (s3.at b).rl.wide, thr, ?_⟩
    rw [(avsWrite_touch sub_self .refl).at_rl (by decide), tracked, target, updRl_rl, begun]
  · exact ⟨_, _, _, begun⟩

/-- What the start of rails leaves as it is: the slot, its orders, and every rail that is not OFF. -/
structure Starting (x y : Rl) : Prop where
  slot : y.slot = x.slot
  result : y.result = x.result
  powerups : y.powerups = x.powerups
  graph0 : y.graph0 = x.graph0
  on : ∀ k, (vget x.rails k).st ≠ .off → vget y.rails k = vget x.rails k

theorem Starting.refl : Starting x x := ⟨rfl, rfl, rfl, rfl, fun _ _ => rfl⟩

theorem Starting.trans (h : Starting x y) (k : Starting y z) : Starting x z where
  slot := k.slot.trans h.slot
  result := k.result.trans h.result
  powerups := k.powerups.trans h.powerups
  graph0 := k.graph0.trans h.graph0
  on := fun i no => (k.on i (by rw [h.on i no]; exact no)).trans (h.on i no)

/-- Rail k's turn in the start of the rails. -/
def startTurn (b : BId) (k : Nat) (t : State) : State :=
  if railUsed (t.at b) k && (vget (t.at b).rl.rails k).st == .off && depUp (t.at b) (railDepA (t.at b) k)
    && depUp (t.at b) (railDepB (t.at b) k) then startRail b k t else t

theorem startRails_eq (powering : (s.at b).rl.slot = .powering) : startRails b s = iter (upto 13) (startTurn b) s :=
  if_neg (by simp [powering])

theorem startRails_off (other : (s.at b).rl.slot ≠ .powering) : startRails b s = s := if_pos (by simp [other])

/-- A rail's turn changes no other rail. -/
theorem startTurn_other {q : Nat} (ne : k ≠ q) : vget ((startTurn b k s).at b).rl.rails q = vget (s.at b).rl.rails q := by
  unfold startTurn
  split
  · obtain ⟨ins, wide, thr, started⟩ := startRail_rl (b := b) (k := k) (s := s)
    rw [started]
    exact vget_vmod_ne ne
  · rfl

theorem startTurn_starting : Starting (s.at b).rl ((startTurn b k s).at b).rl := by
  unfold startTurn
  split
  case isTrue go =>
    obtain ⟨ins, wide, thr, started⟩ := startRail_rl (b := b) (k := k) (s := s)
    rw [started]
    refine ⟨rfl, rfl, rfl, rfl, fun q on => vget_vmod_ne fun same => ?_⟩
    simp only [Bool.and_eq_true, beq_iff_eq] at go
    exact on (same ▸ go.1.1.2)
  case isFalse => exact .refl

theorem iter_startTurn_starting {ks : List Nat} : Starting (s.at b).rl ((iter ks (startTurn b) s).at b).rl :=
  iter_induction (P := fun t => Starting (s.at b).rl (t.at b).rl) .refl fun _ _ h => h.trans startTurn_starting

theorem startRails_starting : Starting (s.at b).rl ((startRails b s).at b).rl := by
  by_cases powering : (s.at b).rl.slot = .powering
  · rw [startRails_eq powering]
    exact iter_startTurn_starting
  · rw [startRails_off powering]
    exact .refl

/-- Whether a rail waits for no other (R141). -/
def dependsOnNone (x : Berth) (k : Nat) : Bool := railDepA x k == 15 && railDepB x k == 15

/-- While no rail is UP: the rails' part under the same graph, rail k still OFF or with its turn behind it. -/
structure NoneUp (x : Rl) (y : Rl) : Prop where
  slot : y.slot = x.slot
  result : y.result = x.result
  powerups : y.powerups = x.powerups
  graph0 : y.graph0 = x.graph0
  low : ∀ q, (vget y.rails q).st ≠ .up

theorem startTurn_st (lt : k < 13) (off : (vget (s.at b).rl.rails k).st = .off) (low : ∀ q, (vget (s.at b).rl.rails q).st ≠ .up) :
    (vget ((startTurn b k s).at b).rl.rails k).st =
      if railUsed (s.at b) k = true ∧ dependsOnNone (s.at b) k = true then .waiting else .off := by
  have dep (d : Nat) : depUp (s.at b) d = (d == 15) := by
    rw [depUp, beq_false_of_ne (low d), Bool.or_false]
  unfold startTurn
  have both : (railDepA (s.at b) k == 15 && railDepB (s.at b) k == 15) = dependsOnNone (s.at b) k := rfl
  rw [dep, dep, beq_iff_eq.mpr off, Bool.and_true, Bool.and_assoc, both]
  by_cases go : railUsed (s.at b) k = true ∧ dependsOnNone (s.at b) k = true
  · obtain ⟨ins, wide, thr, started⟩ := startRail_rl (b := b) (k := k) (s := s)
    rw [if_pos go, if_pos (Bool.and_eq_true_iff.mpr go), started, vget_vmod_self lt]
    rfl
  · rw [if_neg go, if_neg (fun both => go (Bool.and_eq_true_iff.mp both))]
    exact off

theorem startTurn_noneUp (h : NoneUp x (s.at b).rl) : NoneUp x ((startTurn b k s).at b).rl := by
  have turn := startTurn_starting (b := b) (k := k) (s := s)
  refine ⟨turn.slot.trans h.slot, turn.result.trans h.result, turn.powerups.trans h.powerups, turn.graph0.trans h.graph0, fun q => ?_⟩
  unfold startTurn
  split
  · obtain ⟨ins, wide, thr, started⟩ := startRail_rl (b := b) (k := k) (s := s)
    rw [started]
    rcases vget_vmod_or (v := (s.at b).rl.rails) (i := k) (j := q) (f := fun _ => waitingRail (railOf s b k)) with start | same
    · rw [start]
      intro up
      cases up
    · rw [same]
      exact h.low q
  · exact h.low q

/-- The rails start that wait for no other, and those alone, where every rail is OFF. -/
theorem startRails_st (powering : (s.at b).rl.slot = .powering) (off : ∀ q, (vget (s.at b).rl.rails q).st = .off) :
    NoneUp (s.at b).rl ((startRails b s).at b).rl ∧ ∀ k : Fin 13, (vget ((startRails b s).at b).rl.rails k.val).st =
      if railUsed (s.at b) k.val = true ∧ dependsOnNone (s.at b) k.val = true then .waiting else .off := by
  have low : NoneUp (s.at b).rl (s.at b).rl := ⟨rfl, rfl, rfl, rfl, fun q => by rw [off q]; decide⟩
  have same {t : State} (h : NoneUp (s.at b).rl (t.at b).rl) (k : Nat) :
      railUsed (t.at b) k = railUsed (s.at b) k ∧ dependsOnNone (t.at b) k = dependsOnNone (s.at b) k := by
    simp only [railUsed, dependsOnNone, railDepA, railDepB, h.graph0, and_self]
  rw [startRails_eq powering]
  refine ⟨iter_induction (P := fun t => NoneUp (s.at b).rl (t.at b).rl) low fun _ _ h => startTurn_noneUp h, fun k => ?_⟩
  have done := iter_turn (f := startTurn b) (s := s) (x := k.val) (xs := upto 13)
    (P := fun t => NoneUp (s.at b).rl (t.at b).rl ∧ (vget (t.at b).rl.rails k.val).st = .off)
    (Q := fun t => NoneUp (s.at b).rl (t.at b).rl ∧ (vget (t.at b).rl.rails k.val).st =
      if railUsed (s.at b) k.val = true ∧ dependsOnNone (s.at b) k.val = true then .waiting else .off)
    (List.mem_range.mpr k.isLt) List.nodup_range ⟨low, off k.val⟩
    (fun y t ne ⟨h, st⟩ => ⟨startTurn_noneUp h, by rw [startTurn_other ne]; exact st⟩)
    (fun t ⟨h, st⟩ => ⟨startTurn_noneUp h, by rw [startTurn_st k.isLt st h.low, (same h k.val).1, (same h k.val).2]⟩)
    (fun y t ne ⟨h, st⟩ => ⟨startTurn_noneUp h, by rw [startTurn_other ne]; exact st⟩)
  exact done.2

/-! ### The slot is UP (R144) -/

/-- Every used rail is UP. -/
def allUp (x : Berth) : Bool := (usedRails x).all fun r => (vget x.rl.rails r).st == .up

theorem slotUpCheck_waits (no : ¬((s.at b).rl.slot = .powering ∧ allUp (s.at b) = true)) : slotUpCheck b s = s :=
  if_neg fun go => no (by simpa [allUp] using go)

theorem slotUpCheck_up (powering : (s.at b).rl.slot = .powering) (up : allUp (s.at b) = true) : ((slotUpCheck b s).at b).rl =
    { (s.at b).rl with slot := .up, since := s.now, faultSince := false } := by
  have go : ((s.at b).rl.slot == .powering && (usedRails (s.at b)).all fun r => (vget (s.at b).rl.rails r).st == .up) = true := by
    rw [powering]; exact up
  have eq : slotUpCheck b s = logRail b 0x0A 15 31 0 false 0 0 false false
      ((setSlotState b .up s).updRl b fun r => { r with faultSince := false }) := if_pos go
  rw [eq, logRail_rl, updRl_rl, setSlotState_rl, if_neg (by rw [powering]; decide)]

theorem allUp_iff {x : Berth} : allUp x = true ↔ ∀ k : Fin 13, railUsed x k.val = true → (vget x.rl.rails k.val).st = .up := by
  simp only [allUp, usedRails, List.all_eq_true, List.mem_filter, beq_iff_eq, and_imp]
  exact ⟨fun h k used => h k.val (List.mem_range.mpr k.isLt) used, fun h k mem used => h ⟨k, List.mem_range.mp mem⟩ used⟩

/-- What the check for UP leaves of the rails. -/
theorem slotUpCheck_rails : ((slotUpCheck b s).at b).rl.rails = (s.at b).rl.rails := by
  by_cases go : (s.at b).rl.slot = .powering ∧ allUp (s.at b) = true
  · rw [slotUpCheck_up go.1 go.2]
  · rw [slotUpCheck_waits go]

/-! ### POWER_UP and SHUTDOWN (R140, R141, R154, R159) -/

/-- The rails' part once POWER_UP is accepted. -/
def acceptedRl (hist : Hist) (r : Rl) : Rl :=
  { r with result := 0, powerups := sinc r.powerups
           restarts := if r.faultSince then sinc r.restarts else r.restarts
           restartHist := if r.faultSince then hist else r.restartHist
           rails := r.rails.map fun l => { pg := l.pg } }

/-- The state in which the rails of an accepted POWER_UP start. -/
def powered' (b : BId) (s : State) : State :=
  let ev := classEvent s b 6 (s.at b).rl.restartHist
  let s := s.updRl b (acceptedRl ev.2.1)
  let s := s.updCl b fun c =>
    { c with valveOut := if bitAt c.valve 0 then some (!bitAt c.valve 1) else c.valveOut }
  let s := partsRestart b (s.updPw b fun p => { p with avs := p.avs.map fun a => { a with drv := true } })
  let s := setSlotState b .powering s
  unadmitted b (logRail b 0x08 15 31 0 false 0 0 false false s)

theorem powerUpAccept_eq : powerUpAccept b s = slotUpCheck b (startRails b (powered' b s)) := rfl

theorem powered_rl (down : (s.at b).rl.slot = .down) : ∃ hist since, ((powered' b s).at b).rl =
    { acceptedRl hist (s.at b).rl with slot := .powering, since := since } := by
  unfold powered'
  extract_lets ev s1 s2 s3 s4
  have parts : (s3.at b).rl = (s1.at b).rl :=
    (partsRestart_touch (fs := [.pw, .cl]) (by decide) (State.updPw_touch (by decide) (State.updCl_touch (by decide) .refl))).at_rl (by decide) b
  refine ⟨ev.2.1, s3.now, ?_⟩
  rw [(unadmitted_touch sub_self .refl).at_rl (by decide), logRail_rl, setSlotState_rl, parts, updRl_rl, if_neg]
  rw [acceptedRl, down]
  decide

theorem powerUp_eq (own : ownOrHce b req = true) : powerUp b req s =
    if powerUpResult s b == 0 then powerUpAccept b s
    else if powerUpResult s b == 5 then
      retireSlot b 0x17 6 (restartEvents (logRail b 0x11 15 31 (powerUpResult s b) false 0 0 false false
        (s.updRl b fun r => { r with result := powerUpResult s b })) b) (logRail b 0x11 15 31 (powerUpResult s b) false 0 0 false false
        (s.updRl b fun r => { r with result := powerUpResult s b }))
    else logRail b 0x11 15 31 (powerUpResult s b) false 0 0 false false (s.updRl b fun r => { r with result := powerUpResult s b }) := by
  rw [powerUp, own]
  rfl

theorem powerUp_accepted (own : ownOrHce b req = true) (accepted : powerUpResult s b = 0) : powerUp b req s = powerUpAccept b s :=
  (powerUp_eq own).trans (if_pos (by simp [accepted]))

/-- A refused POWER_UP leaves its result and a record. -/
def refusedUp (b : BId) (code : Nat) (s : State) : State :=
  logRail b 0x11 15 31 code false 0 0 false false (s.updRl b fun r => { r with result := code })

theorem refusedUp_rl : ((refusedUp b code s).at b).rl = { (s.at b).rl with result := code } := logRail_rl.trans updRl_rl

theorem refusedUp_touch : Touch [.out, .freeCtr, .rp, .rl, .log, .dk, .us] s (refusedUp b code s) :=
  logRail_touch (by decide) (State.updRl_touch (by decide) .refl)

theorem powerUp_refused (own : ownOrHce b req = true) (refused : powerUpResult s b ≠ 0) (stays : powerUpResult s b ≠ 5) :
    powerUp b req s = refusedUp b (powerUpResult s b) s :=
  (powerUp_eq own).trans ((if_neg (by simpa using refused)).trans (if_neg (by simpa using stays)))

theorem powerUp_retires (own : ownOrHce b req = true) (retires : powerUpResult s b = 5) :
    powerUp b req s = retireSlot b 0x17 6 (restartEvents (refusedUp b 5 s) b) (refusedUp b 5 s) := by
  rw [powerUp_eq own, retires]
  rfl

theorem down_of_powerUpResult (free : powerUpResult s b = 0 ∨ powerUpResult s b = 5) : (s.at b).rl.slot = .down := by
  unfold powerUpResult at free
  cases slot : (s.at b).rl.slot with
  | down => rfl
  | _ => simp [slot] at free

theorem retireNW_congr {x y : Berth} {cls : Nat} (ch : y.ch = x.ch) : retireNW y cls = retireNW x cls := by
  unfold retireNW
  rw [ch]

theorem hTide_congr (harbour : t.harbour = s.harbour) (td : ∀ c, (t.at c).td = (s.at c).td) : t.hTide b = s.hTide b := by
  unfold State.hTide
  rw [harbour]
  cases s.harbour with
  | none => dsimp only; rw [td]
  | some h => dsimp only; rw [td]

theorem restartEvents_refusedUp : restartEvents (refusedUp b code s) b = restartEvents s b := by
  unfold restartEvents
  rw [refusedUp_rl, hTide_congr refusedUp_touch.harbour_eq fun c => refusedUp_touch.at_td (by decide) c,
    retireNW_congr (refusedUp_touch.at_ch (by decide) b)]

/-- A slot that is off is retired at once: the notice, its state and the record. -/
def retiredNow (b : BId) (cause rule events : Nat) (s : State) : State :=
  withdraw b false (logSlotDown b false (setSlotState b .retired ((notice b 4 0 rule events s).updRl b fun r => { r with cause := cause })))

theorem retireSlot_down {cause rule events : Nat} (down : (s.at b).rl.slot = .down) :
    retireSlot b cause rule events s = retiredNow b cause rule events s := by
  have kept : ((notice b 4 0 rule events s).at b).rl = (s.at b).rl := (notice_touch sub_self .refl).at_rl (by decide) b
  unfold retireSlot
  extract_lets s1
  rw [show (s1.at b).rl.slot = .down from (congrArg Rl.slot kept).trans down]
  rfl

theorem retiredNow_rl {cause rule events : Nat} : ((retiredNow b cause rule events s).at b).rl.result = (s.at b).rl.result
    ∧ ((retiredNow b cause rule events s).at b).rl.slot = .retired := by
  have kept : ((notice b 4 0 rule events s).at b).rl = (s.at b).rl := (notice_touch sub_self .refl).at_rl (by decide) b
  have logged {k : Bool} {u : State} : ((logSlotDown b k u).at b).rl = (u.at b).rl := logRail_rl
  rw [retiredNow, (withdraw_touch sub_self .refl).at_rl (by decide), logged, setSlotState_rl, updRl_rl, kept]
  exact ⟨rfl, rfl⟩

theorem retiredNow_out {cause rule events : Nat} (clock : (s.at b).sy.holdover = false) :
    .ring b (some (s.at b).sy.harbour) (.retireNotice 4 0 rule events) ∈ (retiredNow b cause rule events s).out := by
  have sent : .ring b (some (s.at b).sy.harbour) (.retireNotice 4 0 rule events) ∈ (notice b 4 0 rule events s).out := by
    rw [notice, ringSend_out_of_clock clock]
    exact List.mem_append_right _ (List.mem_singleton.mpr rfl)
  have calm : Calm (notice b 4 0 rule events s) (retiredNow b cause rule events s) :=
    (logSlotDown_calm (setSlotState_calm (updRl_calm .refl))).touch (withdraw_touch sub_self .refl)
  exact calm.more _ sent

/-- Settles O18: an accepted POWER_UP is a start of rails from a state in which none is on; the others leave the rails alone. -/
theorem slotOrders : Obligations.SlotOrders := by
  unfold Obligations.SlotOrders
  intro s b req ⟨pass, own⟩
  refine ⟨fun accepted => ?_, fun code ⟨result, refused, stays⟩ => ?_, fun retires => ?_, fun on => ?_, fun ⟨powering, up⟩ => ?_⟩
  · refine answers_viaBus (act := powerUp b req) pass rfl fun t bus => ?_
    have down : (s.begin.at b).rl.slot = .down := down_of_powerUpResult (.inl accepted)
    rw [powerUp_accepted (s := s.begin) own accepted, powerUpAccept_eq] at bus
    obtain ⟨hist, since, rl⟩ := powered_rl (b := b) (s := s.begin) down
    have off (q : Nat) : (vget ((powered' b s.begin).at b).rl.rails q).st = .off := by
      have same : vget ((s.at b).rl.rails.map fun l : Rail => ({ pg := l.pg } : Rail)) q = { pg := (vget (s.at b).rl.rails q).pg } :=
        vget_map rfl
      rw [rl]
      exact congrArg Rail.st same
    obtain ⟨start, st⟩ := startRails_st (b := b) (s := powered' b s.begin) (by rw [rl]) off
    have used (k : Nat) : railUsed ((startRails b (powered' b s.begin)).at b) k = railUsed (s.at b) k := by
      rw [railUsed, start.graph0, rl]
      rfl
    have used' (k : Nat) : railUsed ((powered' b s.begin).at b) k = railUsed (s.at b) k := by
      rw [railUsed, rl]
      rfl
    have depends (k : Nat) : dependsOnNone ((powered' b s.begin).at b) k = dependsOnNone (s.at b) k := by
      simp only [dependsOnNone, railDepA, railDepB, rl, acceptedRl]
      rfl
    have rails : (t.at b).rl.rails = ((startRails b (powered' b s.begin)).at b).rl.rails := by
      rw [bus.at_rl (by decide), slotUpCheck_rails]
    have slot : (t.at b).rl.slot = (if ∃ r : Fin 13, railUsed (s.at b) r.val = true then .powering else .up)
        ∧ (t.at b).rl.result = 0 ∧ (t.at b).rl.powerups = sinc (s.at b).rl.powerups := by
      have powering : ((startRails b (powered' b s.begin)).at b).rl.slot = .powering := by rw [start.slot, rl]
      have result : ((startRails b (powered' b s.begin)).at b).rl.result = 0 := by rw [start.result, rl]; rfl
      have powerups : ((startRails b (powered' b s.begin)).at b).rl.powerups = sinc (s.at b).rl.powerups := by
        rw [start.powerups, rl]; rfl
      rw [bus.at_rl (by decide)]
      by_cases some' : ∃ r : Fin 13, railUsed (s.at b) r.val = true
      · obtain ⟨k, on⟩ := some'
        rw [slotUpCheck_waits fun go => start.low k.val (allUp_iff.mp go.2 k ((used k.val).trans on)), if_pos ⟨k, on⟩]
        exact ⟨powering, result, powerups⟩
      · rw [slotUpCheck_up powering (allUp_iff.mpr fun k on => absurd ⟨k, (used k.val).symm.trans on⟩ some'), if_neg some']
        exact ⟨rfl, result, powerups⟩
    refine ⟨slot.1, slot.2.1, slot.2.2, fun k => ?_⟩
    rw [rails, st k, used', depends]
    simp only [dependsOnNone, Bool.and_eq_true, beq_iff_eq]
  · refine answers_viaBus (act := powerUp b req) pass rfl fun t bus => ?_
    subst result
    rw [powerUp_refused (s := s.begin) own refused stays] at bus
    rw [bus.at_rl (by decide), refusedUp_rl]
    rfl
  · refine answers_viaBus (act := powerUp b req) pass rfl fun t bus => ?_
    have down : (s.begin.at b).rl.slot = .down := down_of_powerUpResult (.inr retires)
    rw [powerUp_retires (s := s.begin) own retires, restartEvents_refusedUp, retireSlot_down (by rw [refusedUp_rl]; exact down)] at bus
    have sy : ((refusedUp b 5 s.begin).at b).sy = (s.at b).sy := refusedUp_touch.at_sy (by decide) b
    obtain ⟨result, slot⟩ := retiredNow_rl (b := b) (cause := 0x17) (rule := 6) (events := restartEvents s.begin b) (s := refusedUp b 5 s.begin)
    refine ⟨?_, ?_, fun clock => ?_⟩
    · rw [bus.at_rl (by decide), result, refusedUp_rl]
    · rw [bus.at_rl (by decide), slot]
    · rw [bus.at_out (by decide), ← sy]
      exact retiredNow_out (by rw [sy]; exact clock)
  · refine answers_viaBus (act := slotShutdown b req) pass rfl fun t bus => ?_
    have acts : slotShutdown b req s.begin = startShutdown b false 0x10 15 s.begin :=
      (if_pos own).trans (shutdown_of_on (s := s.begin) on)
    rw [acts] at bus
    have shut := startShutdown_shutBy (b := b) (fault := false) (cause := 0x10) (first := 15) (s := s.begin)
    rw [bus.at_rl (by decide)]
    refine ⟨?_, shut.kindFault, shut.faultShut rfl, shut.cause_eq⟩
    rcases shut.slot with slot | slot | slot
    · exact .inl slot
    · exact .inr (.inr slot)
    · exact .inr (.inl slot)
  · refine answers_viaBus (act := slotShutdown b req) pass rfl fun t bus => ?_
    have acts : slotShutdown b req s.begin = s.begin := (if_pos own).trans (shutdown_of_off (s := s.begin) powering up)
    rw [acts] at bus
    exact (bus.mono (by decide)).agreeOff_begin

end

end Sys2Proof.Machine

/-! The start of a rail: delay, setpoint, enable and power good (R141 to R143). -/
namespace Sys2Proof.Machine
set_option Elab.async false

section
variable {s t : State} {b : BId} {k : Nat}

theorem railOf_updRail {f : Rail → Rail} (lt : k < 13) : railOf (s.updRail b k f) b k = f (railOf s b k) := by
  rw [railOf, updRail_rl]
  exact vget_vmod_self lt

theorem updRl_within {f : Rl → Rl} : Within b s (s.updRl b f) := .upd

theorem updRail_within {f : Rail → Rail} : Within b s (s.updRail b k f) := updRl_within

/-! ### A rail is UP (R143, R144) -/

/-- Rail k's state is UP, before what waited for it starts. -/
def markedUp (b : BId) (k : Nat) (s : State) : State :=
  let s := s.updRail b k fun l => { l with st := .up }
  logRail b 0x09 k (if k < 13 then k else 31) 0 false (lastReading s b k) (railUpLimit (s.at b) k) false false s

theorem railUp_eq : railUp b k s = slotUpCheck b (startRails b (markedUp b k s)) := rfl

theorem markedUp_rl : ((markedUp b k s).at b).rl =
    { (s.at b).rl with rails := vmod (s.at b).rl.rails k fun l => { l with st := .up } } := logRail_rl.trans updRail_rl

theorem railUp_rails : ((railUp b k s).at b).rl.rails = ((startRails b (markedUp b k s)).at b).rl.rails := by
  rw [railUp_eq, slotUpCheck_rails]

/-- The rail is UP and keeps its enable and its power-good input. -/
theorem railUp_rail (lt : k < 13) : vget ((railUp b k s).at b).rl.rails k = { railOf s b k with st := .up } := by
  have marked : vget ((markedUp b k s).at b).rl.rails k = { railOf s b k with st := .up } := by
    rw [markedUp_rl]
    exact vget_vmod_self lt
  rw [railUp_rails, startRails_starting.on k (by rw [marked]; intro no; cases no), marked]

/-- The slot is UP once the last used rail is. -/
theorem railUp_slot (lt : k < 13) (powering : (s.at b).rl.slot = .powering)
    (others : ∀ q : Fin 13, q.val ≠ k ∧ railUsed (s.at b) q.val = true → (vget (s.at b).rl.rails q.val).st = .up) :
    ((railUp b k s).at b).rl.slot = .up := by
  have start := startRails_starting (b := b) (s := markedUp b k s)
  have all : allUp ((startRails b (markedUp b k s)).at b) = true := by
    refine allUp_iff.mpr fun q used => ?_
    have up : (vget ((markedUp b k s).at b).rl.rails q.val).st = .up := by
      rw [markedUp_rl]
      by_cases same : k = q.val
      · rw [← same]
        exact congrArg Rail.st (vget_vmod_self lt)
      · rw [railUsed, start.graph0, markedUp_rl] at used
        exact (congrArg Rail.st (vget_vmod_ne same)).trans (others q ⟨Ne.symm same, used⟩)
    rw [start.on q.val (by rw [up]; decide), up]
  rw [railUp_eq, slotUpCheck_up (by rw [start.slot, markedUp_rl]; exact powering) all]

/-! ### The enable is driven (R141, R142) -/

/-- Rail l driven. -/
def drivenRail (l : Rail) : Rail := { l with st := .ramping, en := true, offOk := false, timedOff := false, trip := none }

/-- The rail's enable is driven, and it ramps. -/
def driven (b : BId) (k : Nat) (s : State) : State :=
  (s.updRail b k drivenRail).updRl b fun l => { l with ins := vmod l.ins k fun i => { i with riseRun := 0, offRun := 0 } }

theorem driveRail_eq : driveRail b k s =
    if !railPgWait (s.at b) k && !monitored (s.at b) k then railUp b k (driven b k s) else driven b k s := rfl

theorem driven_rl : ((driven b k s).at b).rl = { (s.at b).rl with
    rails := vmod (s.at b).rl.rails k drivenRail, ins := vmod (s.at b).rl.ins k fun i => { i with riseRun := 0, offRun := 0 } } := by
  rw [driven, updRl_rl, updRail_rl]

theorem driven_rail (lt : k < 13) : vget ((driven b k s).at b).rl.rails k = drivenRail (railOf s b k) := by
  rw [driven_rl]
  exact vget_vmod_self lt

/-- The rail's delay has ended. -/
def delayed (b : BId) (k : Nat) (s : State) : State := s.updRail b k fun l => { l with delayDone := true }

theorem delayed_rail (lt : k < 13) : railOf (delayed b k s) b k = { railOf s b k with delayDone := true } := railOf_updRail lt

theorem onDelayEnd_eq (powering : (s.at b).rl.slot = .powering) (waits : (railOf s b k).st = .waiting) :
    onDelayEnd b k s = driveIfReady b k (delayed b k s) := if_pos (by simp [powering, waits])

theorem delayed_rl : ((delayed b k s).at b).rl =
    { (s.at b).rl with rails := vmod (s.at b).rl.rails k fun l => { l with delayDone := true } } := updRail_rl

theorem driveIfReady_waits (avs : railAvs (s.at b) k = true) (no : (railOf s b k).setAck = false) : driveIfReady b k s = s :=
  if_neg (by simp [avs, no])

theorem driveIfReady_drives (powering : (s.at b).rl.slot = .powering) (waits : (railOf s b k).st = .waiting)
    (done : (railOf s b k).delayDone = true) (set : railAvs (s.at b) k = false ∨ (railOf s b k).setAck = true) :
    driveIfReady b k s = driveRail b k s := by
  refine if_pos ?_
  rcases set with avs | ack
  · simp [powering, waits, done, avs]
  · simp [powering, waits, done, ack]

/-- The delay of a rail that is otherwise ready ends: its enable is driven. -/
theorem onDelayEnd_drives (lt : k < 13) (powering : (s.at b).rl.slot = .powering) (waits : (railOf s b k).st = .waiting)
    (set : railAvs (s.at b) k = false ∨ (railOf s b k).setAck = true) : onDelayEnd b k s = driveRail b k (delayed b k s) := by
  refine (onDelayEnd_eq powering waits).trans (driveIfReady_drives ?_ ?_ ?_ ?_)
  · rw [delayed_rl]
    exact powering
  · rw [delayed_rail lt]
    exact waits
  · rw [delayed_rail lt]
  · rw [delayed_rail lt, railAvs, delayed_rl]
    exact set

theorem delayed_waits : railPgWait ((delayed b k s).at b) k = railPgWait (s.at b) k ∧ monitored ((delayed b k s).at b) k = monitored (s.at b) k := by
  rw [railPgWait, monitored, thrFilter, delayed_rl]
  exact ⟨rfl, rfl⟩

/-- A rail's power-good input reads high. -/
def pgHigh (b : BId) (k : Nat) (s : State) : State := s.updRail b k fun l => { l with pg := true }

theorem powerGoodRise_eq (lt : k < 13) (powering : (s.at b).rl.slot = .powering) (used : railUsed (s.at b) k = true)
    (waits : railPgWait (s.at b) k = true) (ramps : (railOf s b k).st = .ramping) :
    powerGoodRise b k s = clearTrumps b (railUp b k (pgHigh b k s)) := by
  unfold powerGoodRise
  extract_lets x s1 s2
  have ramps' : (railOf s1 b k).st = .ramping := (congrArg Rail.st (railOf_updRail lt)).trans ramps
  have up : s2 = railUp b k s1 := if_pos (by simp [x, powering, used, waits, ramps'])
  rw [up]
  rfl

theorem confirmed_rise : confirmed b k .rise s = railUp b k s := rfl

/-- Settles O19: a driven rail ramps, and is UP with its power good, its crossing of LOW, or at once where neither is awaited. -/
theorem railStarts : Obligations.RailStarts := by
  unfold Obligations.RailStarts
  refine fun s b => ⟨fun r ⟨powering, waits⟩ => ⟨fun ⟨avs, no⟩ => ?_, fun ⟨set, awaits⟩ => ?_, fun ⟨set, pg, mon⟩ => ?_⟩,
    fun r ⟨powering, used, waits, ramps⟩ => ?_, fun i ⟨ready, lower⟩ => ?_⟩
  · have stays : driveIfReady b r.val (delayed b r.val s.begin) = delayed b r.val s.begin := by
      refine driveIfReady_waits ?_ ?_
      · rw [railAvs, delayed_rl]
        exact avs
      · rw [delayed_rail r.isLt]
        exact no
    refine answers_of_run (congrArg (ran s) ((onDelayEnd_eq (s := s.begin) powering waits).trans stays)) fun t queue e => ?_
    refine ⟨e.keeps queue (.ofBegin updRail_within), ?_⟩
    rw [e.at_eq]
    exact delayed_rail (s := s.begin) r.isLt
  · have run := onDelayEnd_drives (s := s.begin) r.isLt powering waits set
    have ramps : driveRail b r.val (delayed b r.val s.begin) = driven b r.val (delayed b r.val s.begin) := by
      rw [driveRail_eq, delayed_waits.1, delayed_waits.2]
      refine if_neg ?_
      rcases awaits with pg | mon
      · simp [pg]
      · simp [mon]
    refine answers_of_run (congrArg (ran s) (run.trans ramps)) fun t queue e => ?_
    refine ⟨e.keeps queue (.ofBegin (updRail_within.trans (updRail_within.trans updRl_within))), ?_, ?_, ?_⟩
    · rw [e.at_eq, driven_rail r.isLt]
      rfl
    · rw [e.at_eq, driven_rail r.isLt]
      rfl
    · rw [e.at_eq, driven_rl, delayed_rl]
      exact powering
  · have run := onDelayEnd_drives (s := s.begin) r.isLt powering waits set
    have up : driveRail b r.val (delayed b r.val s.begin) = railUp b r.val (driven b r.val (delayed b r.val s.begin)) := by
      rw [driveRail_eq, delayed_waits.1, delayed_waits.2]
      exact if_pos (by simp [pg, mon])
    refine answers_of_run (congrArg (ran s) (run.trans up)) fun t queue e => ?_
    rw [e.at_eq, railUp_rail r.isLt, railOf, driven_rail r.isLt]
    exact ⟨rfl, rfl⟩
  · have lt : r.val < 13 := Nat.lt_succ_of_lt r.isLt
    refine answers_of_run (congrArg (ran s) (powerGoodRise_eq (s := s.begin) lt powering used waits ramps)) fun t queue e => ?_
    obtain ⟨trumps, cleared⟩ := clearTrumps_rl (b := b) (s := railUp b r.val (pgHigh b r.val s.begin))
    have high : ((pgHigh b r.val s.begin).at b).rl = { (s.at b).rl with rails := vmod (s.at b).rl.rails r.val fun l => { l with pg := true } } :=
      updRail_rl
    rw [e.at_eq, cleared]
    dsimp only
    refine ⟨?_, ?_, fun others => ?_⟩
    · rw [railUp_rail lt, pgHigh, railOf_updRail lt]
    · rw [railUp_rail lt]
    · refine railUp_slot (s := pgHigh b r.val s.begin) lt (by rw [high]; exact powering) fun q ⟨ne, used'⟩ => ?_
      rw [railUsed, high] at used'
      rw [high]
      exact (congrArg Rail.st (vget_vmod_ne (Ne.symm ne))).trans (others q ⟨ne, used'⟩)
  · have run : thresholdConfirm b i.val .rise s.begin = railUp b i.val s.begin :=
      (thresholdConfirm_eq (s := s.begin) ready lower).trans confirmed_rise
    refine answers_of_run (congrArg (ran s) run) fun t queue e => ?_
    have low : i.val ≤ 12 := by
      simp only [condReady, Bool.and_eq_true, decide_eq_true_eq] at ready
      exact ready.2.1.1.1
    rw [e.at_eq, railUp_rail (Nat.lt_succ_of_le low)]

end

end Sys2Proof.Machine

/-! Readings, their runs, alerts and thresholds (R145, R146, R150, R152, R153). -/
namespace Sys2Proof.Machine
set_option Elab.async false

section
variable {s t : State} {b : BId} {i code low high : Nat} {req : ReqId} {w : Word} {x : Berth}

/-! ### A reading (R145, R146) -/

/-- The reading stands in its input and the ADC goes on to the next. -/
def readingTaken (b : BId) (i code : Nat) (s : State) : State :=
  s.updRl b fun r => { r with ins := vset r.ins i (adcNext (s.at b) i code), scanAt := i + 1 }

/-- A reading of a rope's input moves the rope's runs too (R229). -/
def ropeRead (b : BId) (i code : Nat) (compares : Bool) (s : State) : State :=
  if (i == 20 || i == 21) && compares then s.updCl b fun c => { c with rope := vmod c.rope (i - 20) fun r => ropeNext r code } else s

theorem adcConversion_out (out : (s.at b).sy.inReset = true ∨ i ≠ (s.at b).rl.scanAt) : adcConversion b i code s = s := by
  refine if_pos ?_
  rcases out with reset | order
  · simp [reset]
  · simp [order]

theorem adcConversion_in (out : (s.at b).sy.inReset = false) (turn : i = (s.at b).rl.scanAt) : adcConversion b i code s =
    clearTrumps b (ropeRead b i code (comparing (s.at b)) (readingTaken b i code s)) := by
  unfold adcConversion
  extract_lets x s1 s2
  rw [if_neg (by simp [x, out, turn])]
  rfl

theorem clearTrumps_within : Within b s (clearTrumps b s) := .ite updRl_within .refl

theorem ropeRead_within {compares : Bool} : Within b s (ropeRead b i code compares s) := .ite (by unfold State.updCl; exact .upd) .refl

theorem ropeRead_rl {compares : Bool} : ((ropeRead b i code compares s).at b).rl = (s.at b).rl :=
  (ite_touch (fs := [.cl]) (State.updCl_touch (by decide) .refl) .refl).at_rl (by decide) b

theorem adcNext_reading : (adcNext x i code).code = code ∧ (adcNext x i code).valid = true := by
  unfold adcNext
  extract_lets n n' f soft mSL mSH mHL mHH inside l
  split
  · exact ⟨rfl, rfl⟩
  · exact ⟨rfl, rfl⟩

theorem runNext_eq {armed : Bool} {met : Prop} [Decidable met] {run filter : Nat} :
    runNext (armed && decide met) run filter = if armed = true ∧ met then min (run + 1) filter else 0 := by
  rw [runNext]
  simp only [Bool.and_eq_true, decide_eq_true_eq]

theorem adcNext_runs (compares : comparing x = true) (filter : thrFilter x i ≠ 0) (rope : i ≠ 20 ∧ i ≠ 21) :
    (adcNext x i code).softLow = (if lowArmed x i = true ∧ code < (softLimits x i).1
      then min ((vget x.rl.ins i).softLow + 1) (thrFilter x i) else 0)
    ∧ (adcNext x i code).hardHigh = (if hardHighArmed x i = true ∧ hardHigh x i < code
      then min ((vget x.rl.ins i).hardHigh + 1) (thrFilter x i) else 0) := by
  unfold adcNext
  extract_lets n n' f soft mSL mSH mHL mHH inside l
  rw [if_neg (by simp [f, compares, filter, rope])]
  exact ⟨runNext_eq, runNext_eq⟩

/-! ### An alert (R150) -/

theorem confirmed_softLow_alert (big : 12 < i) : confirmed b i .softLow s =
    alert b i 0x0E (softLimits (s.at b) i).1 (condNoted b i .softLow s) := if_neg (Nat.not_le.mpr big)

theorem condNoted_rl {c : Cond} : ((condNoted b i c s).at b).rl = { (s.at b).rl with
    ins := vmod (s.at b).rl.ins i (condDone c), evt := vmod (s.at b).rl.evt i (condCount c) } := by
  rw [condNoted, countEvt, updRl_rl, updRl_rl]

theorem alert_low_rl {limit : Nat} : ((alert b i 0x0E limit s).at b).rl = (s.at b).rl := by
  unfold alert
  extract_lets x rail kind s1
  exact logRail_rl

/-! ### Writes of thresholds (R152) -/

/-- A word packed from four fields, for positions and widths that the kernel does not evaluate. -/
theorem pack_four {v0 v1 v2 v3 a0 a1 a2 a3 w0 w1 w2 w3 : Nat} : pack [(v0, a0, w0), (v1, a1, w1), (v2, a2, w2), (v3, a3, w3)] =
    BitVec.ofNat 32 (0 + v0 % 2 ^ w0 * 2 ^ a0 + v1 % 2 ^ w1 * 2 ^ a1 + v2 % 2 ^ w2 * 2 ^ a2 + v3 % 2 ^ w3 * 2 ^ a3) := rfl

/-- A threshold word. -/
def thrWord (low filter high kind : Nat) : Word := pack [(low, 0, 12), (filter, 12, 4), (high, 16, 12), (kind, 28, 4)]

theorem thrWord_toNat {filter kind : Nat} (hl : low < 2 ^ 12) (hf : filter < 2 ^ 4) (hh : high < 2 ^ 12) (hk : kind < 2 ^ 4) :
   (thrWord low filter high kind).toNat = low + filter * 2 ^ 12 + high * 2 ^ 16 + kind * 2 ^ 28 := by
  rw [thrWord, pack_four, BitVec.toNat_ofNat, Nat.mod_eq_of_lt hl, Nat.mod_eq_of_lt hf, Nat.mod_eq_of_lt hh, Nat.mod_eq_of_lt hk, Nat.mod_eq_of_lt]
  · rw [pow_zero, mul_one, zero_add]
  · omega

theorem thrWord_fields {filter kind : Nat} (hl : low < 2 ^ 12) (hf : filter < 2 ^ 4) (hh : high < 2 ^ 12) (hk : kind < 2 ^ 4) :
    fld (thrWord low filter high kind) 11 0 = low ∧ fld (thrWord low filter high kind) 15 12 = filter
    ∧ fld (thrWord low filter high kind) 27 16 = high ∧ fld (thrWord low filter high kind) 31 28 = kind := by
  have value := thrWord_toNat hl hf hh hk
  simp only [fld, value]
  omega

theorem clampThr_lt {v : Nat} : clampThr x i v < 2 ^ 12 := lt_of_le_of_lt (Nat.min_le_right _ _) fld_lt

/-- What a write of LOW and HIGH leaves of an input's threshold word. -/
theorem thrSet_fields (lt : i < 24) : thrLow ((thrSet b i low high s).at b) i =
      (if clampThr (s.at b) i low < clampThr (s.at b) i high then clampThr (s.at b) i low else thrLow (s.at b) i)
    ∧ thrHigh ((thrSet b i low high s).at b) i =
      (if clampThr (s.at b) i low < clampThr (s.at b) i high then clampThr (s.at b) i high else thrHigh (s.at b) i)
    ∧ thrFilter ((thrSet b i low high s).at b) i = thrFilter (s.at b) i ∧ thrKind ((thrSet b i low high s).at b) i = thrKind (s.at b) i := by
  unfold thrSet
  extract_lets x l h w
  by_cases order : l < h
  · have word : vget ((s.updRl b fun r => { r with thr := vset r.thr i w }).at b).rl.thr i = w := by
      rw [updRl_rl]
      exact vget_vset_self lt
    rw [if_pos order, if_pos order, if_pos order, thrLow, thrHigh, thrFilter, thrKind, word]
    obtain ⟨low', filter', high', kind'⟩ := thrWord_fields (low := l) (filter := thrFilter x i) (high := h) (kind := thrKind x i)
      clampThr_lt fld_lt clampThr_lt fld_lt
    exact ⟨low', high', filter', kind'⟩
  · rw [if_neg order, if_neg order, if_neg order]
    exact ⟨rfl, rfl, rfl, rfl⟩

/-- Readings and thresholds of an input follow its threshold word. -/
theorem thr_congr {y : Berth} (thr : y.rl.thr = x.rl.thr) : thrLow y i = thrLow x i ∧ thrHigh y i = thrHigh x i
    ∧ thrFilter y i = thrFilter x i ∧ thrKind y i = thrKind x i := by
  simp only [thrLow, thrHigh, thrFilter, thrKind, thr, and_self]

/-- A write of LOW and HIGH widens the running soft limits of a partition's input with them (R153). -/
def thrWidened (b : BId) (i : Nat) (s : State) : State :=
  if i < 4 then
    s.updRl b fun r => { r with wide := vmod r.wide i (Option.map fun v => (min v.1 (thrLow (s.at b) i), max v.2 (thrHigh (s.at b) i))) }
  else s

theorem thresholdWrite_eq (on : (s.at b).log.on = true) (own : ownOrHce b req = true) (free : tracked (s.at b) i = false)
    (filter : fld w 15 12 = thrFilter (s.at b) i) (kind : fld w 31 28 = thrKind (s.at b) i) : thresholdWrite b req i w s =
      if clampThr (s.at b) i (fld w 11 0) < clampThr (s.at b) i (fld w 27 16) then
        logRail b 0x10 (if i ≤ 12 then i else 15) i 0 false
          (thrLow ((thrWidened b i (thrSet b i (fld w 11 0) (fld w 27 16) s)).at b) i)
          (thrHigh ((thrWidened b i (thrSet b i (fld w 11 0) (fld w 27 16) s)).at b) i) false false
          (thrWidened b i (thrSet b i (fld w 11 0) (fld w 27 16) s))
      else thrWidened b i (thrSet b i (fld w 11 0) (fld w 27 16) s) := by
  unfold thresholdWrite
  extract_lets x old k n s1 lo hi s2
  have filter' : fld w 15 12 = fld old 15 12 := filter
  have kind' : fld w 31 28 = fld old 31 28 := kind
  have held : ¬(fld w 15 12 != fld old 15 12 || fld w 31 28 != fld old 31 28 || !ownOrHce b req || tracked x i) = true := by
    simp [x, filter', kind', own, free]
  rw [if_neg (by simp [x, on]), if_neg held]
  rfl

theorem thrWidened_thr : ((thrWidened b i s).at b).rl.thr = (s.at b).rl.thr := by
  unfold thrWidened
  split
  · rw [updRl_rl]
  · rfl

theorem thresholdWrite_held (on : (s.at b).log.on = true) (refused : ownOrHce b req = false ∨ tracked (s.at b) i = true
    ∨ fld w 15 12 ≠ thrFilter (s.at b) i ∨ fld w 31 28 ≠ thrKind (s.at b) i) : thresholdWrite b req i w s = s := by
  unfold thresholdWrite
  extract_lets x old k n s1 lo hi s2
  have held : (fld w 15 12 != fld old 15 12 || fld w 31 28 != fld old 31 28 || !ownOrHce b req || tracked x i) = true := by
    rcases refused with own | follows | filter | kind
    · simp [own]
    · simp [x, follows]
    · have filter' : fld w 15 12 ≠ fld old 15 12 := filter
      simp [filter']
    · have kind' : fld w 31 28 ≠ fld old 31 28 := kind
      simp [kind']
  rw [if_neg (by simp [x, on]), if_pos held]

/-- Settles O21. -/
theorem readingsAndThresholds : Obligations.ReadingsAndThresholds := by
  unfold Obligations.ReadingsAndThresholds
  refine fun s b i => ⟨fun code out => ?_, fun code ⟨out, turn⟩ => ?_, fun ⟨big, ready, lower⟩ => ?_,
    fun req w l h ⟨pass, own, on, free, filter, kind, hl, hh⟩ => ?_, fun req w ⟨pass, on, refused⟩ => ?_, fun k ⟨still, set⟩ => ?_⟩
  · exact ⟨_, congrArg (ran s) (adcConversion_out (s := s.begin) out), rfl⟩
  · refine answers_of_run (congrArg (ran s) (adcConversion_in (s := s.begin) out turn)) fun t queue e => ?_
    obtain ⟨trumps, cleared⟩ := clearTrumps_rl (b := b)
      (s := ropeRead b i.val code.val (comparing (s.begin.at b)) (readingTaken b i.val code.val s.begin))
    have rl : (t.at b).rl = { (s.at b).rl with
        ins := vset (s.at b).rl.ins i.val (adcNext (s.at b) i.val code.val), scanAt := i.val + 1, trumps := trumps } := by
      rw [e.at_eq, cleared, ropeRead_rl, readingTaken, updRl_rl]
      rfl
    have input : vget (t.at b).rl.ins i.val = adcNext (s.at b) i.val code.val := by
      rw [rl]
      exact vget_vset_self i.isLt
    rw [input]
    refine ⟨e.keeps queue (.ofBegin ((updRl_within.trans ropeRead_within).trans clearTrumps_within)), by rw [rl],
      adcNext_reading.1, adcNext_reading.2, fun ⟨compares, filter, rope⟩ => adcNext_runs compares filter rope⟩
  · have run : thresholdConfirm b i.val .softLow s.begin =
        alert b i.val 0x0E (softLimits (s.begin.at b) i.val).1 (condNoted b i.val .softLow s.begin) :=
      (thresholdConfirm_eq (s := s.begin) ready lower).trans (confirmed_softLow_alert big)
    refine answers_of_run (congrArg (ran s) run) fun t queue e => ?_
    rw [e.at_eq, alert_low_rl, condNoted_rl]
    exact ⟨rfl, congrArg AdcIn.softLowDone (vget_vmod_self i.isLt), congrArg InEvt.low (vget_vmod_self i.isLt)⟩
  · refine answers_viaBus (act := thresholdWrite b req i.val w) pass rfl fun t bus => ?_
    rw [thresholdWrite_eq (s := s.begin) on own free filter kind] at bus
    have thr : (t.at b).rl.thr = ((thrSet b i.val (fld w 11 0) (fld w 27 16) s.begin).at b).rl.thr := by
      rw [bus.at_rl (by decide)]
      split
      · rw [logRail_rl, thrWidened_thr]
      · rw [thrWidened_thr]
    obtain ⟨low, high, filter', kind'⟩ := thr_congr (i := i.val) thr
    rw [low, high, filter', kind', hl, hh]
    exact thrSet_fields (s := s.begin) i.isLt
  · refine answers_viaBus (act := thresholdWrite b req i.val w) pass rfl fun t bus => ?_
    rw [thresholdWrite_held (s := s.begin) on refused] at bus
    exact (bus.mono (by decide)).agreeOff_begin
  · have run : transitionEnd b k.val s.begin = s.begin.updRl b fun r => { r with wide := vset r.wide k.val none } := by
      refine if_neg ?_
      by_cases waits : (vget (s.at b).rl.rails k.val).st = .waiting ∧ railAvs (s.at b) k.val = true
      · simp [partOf, railOf, still, set waits]
      · simpa [partOf, railOf, still] using fun st avs => absurd ⟨st, avs⟩ waits
    refine answers_of_run (congrArg (ran s) run) fun t queue e => ?_
    refine ⟨e.keeps queue (.ofBegin updRl_within), ?_⟩
    rw [e.at_eq, updRl_rl]
    rfl

end

end Sys2Proof.Machine

/-! The budget, its trump and admission (R173 to R182). -/
namespace Sys2Proof.Machine
set_option Elab.async false

section
variable {s t u : State} {b h n : BId} {w : Nat} {req : ReqId} {f : Tray → Tray}

theorem updTray_within : Within h s (s.updTray h f) := .upd

theorem updTray_tray : ((s.updTray h f).at h).tray = f (s.at h).tray := by rw [State.updTray_at, if_pos rfl]

theorem updTray_harbour : (s.updTray h f).harbour = s.harbour := (State.updTray_touch sub_self .refl).harbour_eq

theorem updPw_tray {g : Pw → Pw} : ((s.updPw b g).at h).tray = (s.at h).tray := (State.updPw_touch sub_self .refl).at_tray (by decide) h

/-! ### The budget trump (R180) -/

/-- Whether the harbour counts a slot as admitted. -/
def hasGrant (p : TrayPw) (n : BId) : Bool := vget p.admis n.val == .admitted || vget p.admis n.val == .unadmitted

/-- A slot's grant after a budget trump. -/
def grantAfter (x : Berth) (budget : Nat) (n : BId) : Nat :=
  if hasGrant x.tray.pw n then cutGrant x n.val (vget x.tray.pw.grant n.val) budget (grantSum x.tray) else vget x.tray.pw.grant n.val

/-- A slot's turn in a budget trump of harbour h, whose berth stood as x. -/
def cutTurn (h : BId) (x : Berth) (budget : Nat) (n : BId) (t : State) : State :=
  if hasGrant x.tray.pw n then
    let c := cutGrant x n.val (vget x.tray.pw.grant n.val) budget (grantSum x.tray)
    let t := t.updTray h fun y => { y with pw := { y.pw with newGrant := vmod y.pw.newGrant n.val (Option.map fun v => min v c) } }
    setGrant n c (if c < vget x.tray.pw.grant n.val then t.updPw n fun q => { q with cutSince := true } else t)
  else t

theorem budgetTrump_eq : budgetTrump h w s = attn 2 ((iter allB (cutTurn h (s.at h) w) s).updTray h fun y =>
    { y with pw := { y.pw with budgetCut := sinc y.pw.budgetCut } }) := rfl

theorem cutTurn_touch {x : Berth} : Touch [.pw, .tray] s (cutTurn h x w n s) := by
  unfold cutTurn
  refine ite_touch ?_ .refl
  extract_lets c t
  have cut : Touch [.pw, .tray] s t := State.updTray_touch (by decide) .refl
  exact setGrant_touch (by decide) (ite_touch (State.updPw_touch (by decide) cut) cut)

/-- A turn leaves of the harbour's tray all but the slot's own grants. -/
theorem cutTurn_tray {x : Berth} (harbour : s.harbour = some h) : ∃ newGrant grant,
    ((cutTurn h x w n s).at h).tray.pw = { (s.at h).tray.pw with newGrant := newGrant, grant := grant }
    ∧ (∀ k : BId, k ≠ n → vget grant k.val = vget (s.at h).tray.pw.grant k.val)
    ∧ (vget (s.at h).tray.pw.grant n.val = vget x.tray.pw.grant n.val → vget grant n.val = grantAfter x w n) := by
  unfold cutTurn grantAfter
  by_cases has : hasGrant x.tray.pw n = true
  · rw [if_pos has, if_pos has]
    extract_lets c t
    have touch : Touch [.pw, .tray] s (if c < vget x.tray.pw.grant n.val then t.updPw n fun q => { q with cutSince := true } else t) :=
      ite_touch (State.updPw_touch (by decide) (State.updTray_touch (by decide) .refl)) (State.updTray_touch (by decide) .refl)
    have tray : ((if c < vget x.tray.pw.grant n.val then t.updPw n fun q => { q with cutSince := true } else t).at h).tray = (t.at h).tray := by
      split
      · exact updPw_tray
      · rfl
    rw [setGrant_tray (touch.harbour_eq.trans harbour), tray, updTray_tray]
    exact ⟨_, _, rfl, fun k ne => vget_vset_ne (Fin.val_ne_of_ne ne.symm), fun _ => vget_vset_self n.isLt⟩
  · rw [if_neg has, if_neg has]
    exact ⟨_, _, rfl, fun _ _ => rfl, id⟩

/-- Slot n's grant is g, within a budget trump that began at s. -/
structure CutTo (h n : BId) (g : Nat) (s t : State) : Prop where
  touch : Touch [.pw, .tray] s t
  own : vget (t.at h).tray.pw.grant n.val = g
  budget : (t.at h).tray.pw.budget = (s.at h).tray.pw.budget
  budgetCut : (t.at h).tray.pw.budgetCut = (s.at h).tray.pw.budgetCut

theorem CutTo.other {g : Nat} {k : BId} (c : CutTo h n g s t) (harbour : s.harbour = some h) (ne : k ≠ n) :
    CutTo h n g s (cutTurn h (s.at h) w k t) := by
  obtain ⟨_, _, tray, others, -⟩ := cutTurn_tray (x := s.at h) (w := w) (n := k) (c.touch.harbour_eq.trans harbour)
  refine ⟨c.touch.trans cutTurn_touch, ?_, ?_, ?_⟩
  · rw [tray]; exact (others n ne.symm).trans c.own
  · rw [tray]; exact c.budget
  · rw [tray]; exact c.budgetCut

/-- Every slot has the grant that the budget leaves it, once all have had their turn. -/
theorem iter_cutTurn (harbour : s.harbour = some h) : CutTo h n (grantAfter (s.at h) w n) s (iter allB (cutTurn h (s.at h) w) s) := by
  refine iter_turn (P := CutTo h n (vget (s.at h).tray.pw.grant n.val) s) (x := n) mem_allB allB_nodup ⟨.refl, rfl, rfl, rfl⟩
    (fun k t ne c => c.other harbour ne) (fun t c => ?_) fun k t ne c => c.other harbour ne
  obtain ⟨_, _, tray, -, own⟩ := cutTurn_tray (x := s.at h) (w := w) (n := n) (c.touch.harbour_eq.trans harbour)
  refine ⟨c.touch.trans cutTurn_touch, ?_, ?_, ?_⟩
  · rw [tray]; exact own c.own
  · rw [tray]; exact c.budget
  · rw [tray]; exact c.budgetCut

/-- A budget trump cuts every grant, counts itself and raises attention (R180). -/
theorem budgetTrump_cuts (harbour : s.harbour = some h) : (∀ n : BId, vget ((budgetTrump h w s).at h).tray.pw.grant n.val = grantAfter (s.at h) w n)
    ∧ ((budgetTrump h w s).at h).tray.pw.budget = (s.at h).tray.pw.budget
    ∧ ((budgetTrump h w s).at h).tray.pw.budgetCut = sinc (s.at h).tray.pw.budgetCut
    ∧ nbit ((budgetTrump h w s).at h).tw.attn 2 = true := by
  have cut (n : BId) := iter_cutTurn (n := n) (w := w) harbour
  have role : ((iter allB (cutTurn h (s.at h) w) s).updTray h fun y =>
      { y with pw := { y.pw with budgetCut := sinc y.pw.budgetCut } }).harbour = some h :=
    updTray_harbour.trans ((cut 0).touch.harbour_eq.trans harbour)
  rw [budgetTrump_eq, (attn_touch sub_self .refl).at_tray (by decide), updTray_tray]
  exact ⟨fun n => (cut n).own, (cut 0).budget, congrArg sinc (cut 0).budgetCut, attn_sets role⟩

/-! ### Writes of the budget (R173, R180) -/

/-- The harbour holds the new budget. -/
def budgetSet (h : BId) (w : Nat) (s : State) : State := s.updTray h fun y => { y with pw := { y.pw with budget := w } }

/-- The new budget takes effect on the grants. -/
def budgetActs (h : BId) (w : Nat) (s : State) : State :=
  if w < grantSum (s.at h).tray then budgetTrump h w (budgetSet h w s) else budgetSet h w s

theorem budgetWrite_eq (harbour : s.harbour = some h) (host : req = 9 ∨ req = 10) (locked : (s.at h).ch.locked = true)
    (le : w ≤ budgetMax (s.at h)) : ∃ log : State → State, (∀ t, Touch [.out, .freeCtr, .rp, .log, .dk, .us] t (log t))
      ∧ budgetWrite req w s = log (budgetActs h w s) := by
  have go : ¬(!(req == 9 || req == 10) || !(s.at h).ch.locked || decide (w > budgetMax (s.at h))) = true := by
    have le' : ¬budgetMax (s.at h) < w := Nat.not_lt.mpr le
    rcases host with rfl | rfl
    · simp [locked, le']
    · simp [locked, le']
  rw [budgetWrite, harbour]
  refine ⟨fun t => if w == (s.at h).tray.pw.budget && !(decide (w < grantSum (s.at h).tray)) then t
    else logRec h 0x22 (pack [(w, 0, 16), ((s.at h).tray.pw.budget, 16, 16)]) (pack [(grantSum (t.at h).tray, 0, 16)])
      (wordOf req.val) t, fun t => ite_touch .refl (logRec_touch (by decide) .refl), if_neg go⟩

theorem budgetWrite_held (refused : budgetMax (s.at h) < w) (harbour : s.harbour = some h) : budgetWrite req w s = s := by
  rw [budgetWrite, harbour]
  exact if_pos (by simp [refused])

theorem grantAfter_eq {x : Berth} (same : x.tray.pw.admis = (s.at h).tray.pw.admis) (grant : x.tray.pw.grant = (s.at h).tray.pw.grant)
    (ch : x.ch = (s.at h).ch) : grantAfter x w n =
      if vget (s.at h).tray.pw.admis n.val = .admitted ∨ vget (s.at h).tray.pw.admis n.val = .unadmitted
      then max (grantMin (s.at h) n.val) (vget (s.at h).tray.pw.grant n.val * w / grantSum (s.at h).tray)
      else vget (s.at h).tray.pw.grant n.val := by
  unfold grantAfter hasGrant cutGrant grantMin Berth.recWord grantSum
  rw [same, grant, ch]
  simp only [Bool.or_eq_true, beq_iff_eq]

/-! ### Admission (R175, R177) -/

theorem setAdmit_pw {a : Admit} (harbour : s.harbour = some h) : ((setAdmit n a s).at n).pw = { (s.at n).pw with admis := a } := by
  unfold setAdmit
  rw [onTray_eq harbour, State.updPw_at, if_pos rfl, (State.updTray_touch sub_self .refl).at_pw (by decide)]

theorem mayAdmit (own : req.val = b.val ∨ req = 11) : (req.val == b.val || req == 11) = true := by
  rcases own with own | own
  · simp [own]
  · simp [own]

/-- Settles O22. -/
theorem budgetAndAdmission : Obligations.BudgetAndAdmission := by
  unfold Obligations.BudgetAndAdmission
  refine fun s h harbour => ⟨fun n w => ?_, fun run => ?_, fun req w ⟨pass, host, locked⟩ => ⟨fun le => ?_, fun high => ?_⟩,
    fun b req ⟨pass, own⟩ => ⟨fun ⟨locked, populated, free⟩ => ?_, fun taken => ?_, fun down => ?_, fun on => ?_⟩⟩
  · refine answers_of_run (congrArg (ran s) (onTray_eq (s := s.begin) harbour)) fun t queue e => ?_
    refine ⟨e.keeps queue (.ofBegin updTray_within), ?_⟩
    rw [e.at_eq, updTray_tray]
    rfl
  · have acts : floorOverSet s.begin = s.begin.updTray h fun t => { t with pw := { t.pw with floorOver := true } } := by
      refine (if_pos ?_).trans (onTray_eq (s := s.begin) harbour)
      rw [tray_of_harbour (s := s.begin) harbour]
      exact run
    refine answers_of_run (congrArg (ran s) acts) fun t queue e => ?_
    refine ⟨e.keeps queue (.ofBegin updTray_within), ?_⟩
    rw [e.at_eq, updTray_tray]
    rfl
  · refine answers_viaBus (act := budgetWrite req w.toNat) pass rfl fun t bus => ?_
    obtain ⟨log, logs, acts⟩ := budgetWrite_eq (s := s.begin) (req := req) harbour host locked le
    rw [acts] at bus
    have tray : (t.at h).tray = ((budgetActs h w.toNat s.begin).at h).tray := by
      rw [bus.at_tray (by decide), (logs _).at_tray (by decide)]
    have set : ((budgetSet h w.toNat s.begin).at h).tray = { (s.at h).tray with pw := { (s.at h).tray.pw with budget := w.toNat } } :=
      updTray_tray
    by_cases cut : w.toNat < grantSum (s.at h).tray
    · have cuts := budgetTrump_cuts (w := w.toNat) (s := budgetSet h w.toNat s.begin) (h := h) (updTray_harbour.trans harbour)
      have trump : budgetActs h w.toNat s.begin = budgetTrump h w.toNat (budgetSet h w.toNat s.begin) := if_pos cut
      obtain ⟨grant, budget, count, attn⟩ := cuts
      rw [tray, trump]
      refine ⟨by rw [budget, set], fun under => absurd cut (Nat.not_lt.mpr under), fun _ n => ⟨?_, ?_, ?_⟩⟩
      · rw [grant]
        exact grantAfter_eq (by rw [set]) (by rw [set]) ((State.updTray_touch sub_self .refl).at_ch (by decide) h)
      · rw [count, set]
      · rw [bus.at_tw (by decide), (logs _).at_tw (by decide), trump]
        exact attn
    · have quiet : budgetActs h w.toNat s.begin = budgetSet h w.toNat s.begin := if_neg cut
      rw [tray, quiet, set]
      exact ⟨rfl, fun _ => rfl, fun no => absurd no cut⟩
  · refine answers_viaBus (act := budgetWrite req w.toNat) pass rfl fun t bus => ?_
    rw [budgetWrite_held (s := s.begin) high harbour] at bus
    exact (bus.mono (by decide)).agreeOff_begin
  · refine answers_viaBus (act := admitReq b req) pass rfl fun t bus => ?_
    have acts : admitReq b req s.begin = setAdmit b .waiting s.begin := by
      have role : s.begin.harbour = some h := harbour
      have go : ((req.val == b.val || req == 11) && (s.begin.at h).ch.locked && nbit (s.begin.at h).populated b.val
          && vget s.begin.tray.pw.admis b.val == .none) = true := by
        rw [mayAdmit own, tray_of_harbour role]
        simp [locked, populated, free]
      rw [admitReq, role]
      exact if_pos go
    rw [acts] at bus
    refine ⟨(Touch.trans (setAdmit_touch (by decide) .refl) (bus.mono (by decide))).agreeOff_begin, ?_, ?_⟩
    · rw [bus.at_tray (by decide), setAdmit_tray (s := s.begin) harbour]
      exact vget_vset_self b.isLt
    · rw [bus.at_pw (by decide), setAdmit_pw (s := s.begin) harbour]
      rfl
  · refine answers_viaBus (act := admitReq b req) pass rfl fun t bus => ?_
    have acts : admitReq b req s.begin = s.begin := by
      have role : s.begin.harbour = some h := harbour
      rw [admitReq, role]
      refine if_neg ?_
      rw [tray_of_harbour role]
      simp [taken]
    rw [acts] at bus
    exact (bus.mono (by decide)).agreeOff_begin
  · refine answers_viaBus (act := admitCancel b req) pass rfl fun t bus => ?_
    have acts : admitCancel b req s.begin = withdraw b false s.begin := by
      refine if_pos ?_
      rw [mayAdmit own]
      simp [down]
    rw [acts] at bus
    obtain ⟨admis, grant⟩ := withdraw_admits (n := b) (trump := false) (s := s.begin) harbour
    refine ⟨(Touch.trans (withdraw_touch (by decide) .refl) (bus.mono (by decide))).agreeOff_begin, ?_, ?_⟩
    · rw [bus.at_tray (by decide)]
      exact admis
    · rw [bus.at_tray (by decide)]
      exact grant
  · refine answers_viaBus (act := admitCancel b req) pass rfl fun t bus => ?_
    have acts : admitCancel b req s.begin = s.begin := if_neg (by simp [on])
    rw [acts] at bus
    exact (bus.mono (by decide)).agreeOff_begin

end

end Sys2Proof.Machine

/-! Setpoints, steps and caps of the partitions, and the loops that move the caps (R183 to R201). -/
namespace Sys2Proof.Machine
set_option Elab.async false

section
variable {s t u : State} {b : BId} {c d j k r mv st tries : Nat} {up : Bool} {w : AvsWrite} {ws : List AvsWrite}

/-! ### Partitions and controllers -/

theorem updPw_pw {f : Pw → Pw} : ((s.updPw b f).at b).pw = f (s.at b).pw := by rw [State.updPw_at, if_pos rfl]

theorem updPw_within {f : Pw → Pw} : Within b s (s.updPw b f) := .upd

theorem updPart_within {f : Part → Part} : Within b s (s.updPart b k f) := updPw_within

theorem updAvs_within {f : Avs → Avs} : Within b s (updAvs b c f s) := updPw_within

theorem partOf_updPart_self {f : Part → Part} (lt : k < 4) : partOf (s.updPart b k f) b k = f (partOf s b k) := by
  rw [partOf, State.updPart_eq, updPw_pw]
  exact vget_vmod_self lt

/-- A change of a partition that leaves its applied step. -/
theorem updPart_applied {f : Part → Part} (keeps : ∀ p, (f p).applied = p.applied) :
    (partOf (s.updPart b k f) b j).applied = (partOf s b j).applied := by
  rcases partOf_updPart_or (s := s) (b := b) (j := j) (k := k) (f := f) with eq | eq
  · rw [eq, keeps]
  · rw [eq]

theorem partOf_updPart_ne {f : Part → Part} (ne : j ≠ k) : partOf (s.updPart b k f) b j = partOf s b j := by
  rw [partOf, State.updPart_eq, updPw_pw]
  exact vget_vmod_ne ne.symm

theorem avsOf_updPart {f : Part → Part} : avsOf (s.updPart b k f) b c = avsOf s b c := by
  rw [avsOf, State.updPart_eq, updPw_pw]
  rfl

theorem avsOf_updAvs_self {f : Avs → Avs} (lt : c < 2) : avsOf (updAvs b c f s) b c = f (avsOf s b c) := by
  rw [avsOf, updAvs, updPw_pw]
  exact vget_vmod_self lt

theorem avsOf_updAvs_or {f : Avs → Avs} : avsOf (updAvs b c f s) b d = f (avsOf s b d) ∨ avsOf (updAvs b c f s) b d = avsOf s b d := by
  rw [avsOf, updAvs, updPw_pw]
  exact vget_vmod_or

theorem parts_updAvs {f : Avs → Avs} : ((updAvs b c f s).at b).pw.parts = (s.at b).pw.parts := by
  rw [updAvs, updPw_pw]

theorem partOf_updAvs {f : Avs → Avs} : partOf (updAvs b c f s) b k = partOf s b k := congrArg (vget · k) parts_updAvs

/-! ### What work on partition k's setpoint leaves (R185 to R194) -/

/-- A controller but for its queue and its reads. -/
structure SameCtl (a a' : Avs) : Prop where
  retired : a'.retired = a.retired
  fail : a'.fail = a.fail

/-- A partition's readiness and caps. -/
structure SameCaps (p q : Part) : Prop where
  ready : q.ready = p.ready
  sTherm : q.sTherm = p.sTherm
  sCurr : q.sCurr = p.sCurr
  sPwr : q.sPwr = p.sPwr
  thermIns : q.thermIns = p.thermIns
  currIns : q.currIns = p.currIns

/-- Berth b works on partition k's setpoint or step: it leaves the partition's caps, the other partitions, and of the controllers
all but their queues and reads. -/
structure Works (b : BId) (k : Nat) (s t : State) : Prop where
  within : Within b s t
  caps : SameCaps (partOf s b k) (partOf t b k)
  others : ∀ j, j ≠ k → partOf t b j = partOf s b j
  controllers : ∀ d, SameCtl (avsOf s b d) (avsOf t b d)

theorem Works.refl : Works b k s s := ⟨.refl, ⟨rfl, rfl, rfl, rfl, rfl, rfl⟩, fun _ _ => rfl, fun _ => ⟨rfl, rfl⟩⟩

theorem Works.trans (h : Works b k s t) (h' : Works b k t u) : Works b k s u := by
  refine ⟨h.within.trans h'.within, ?_, fun j ne => (h'.others j ne).trans (h.others j ne),
    fun d => ⟨(h'.controllers d).retired.trans (h.controllers d).retired, (h'.controllers d).fail.trans (h.controllers d).fail⟩⟩
  have one := h.caps
  have two := h'.caps
  exact ⟨two.ready.trans one.ready, two.sTherm.trans one.sTherm, two.sCurr.trans one.sCurr, two.sPwr.trans one.sPwr,
    two.thermIns.trans one.thermIns, two.currIns.trans one.currIns⟩

theorem Works.ite {p : Prop} [Decidable p] (ht : Works b k s t) (hu : Works b k s u) : Works b k s (if p then t else u) := by
  split
  · exact ht
  · exact hu

/-- A change within the partitions' block that keeps partitions and controllers is such work, as is one of another block. -/
theorem Works.of_pw (within : Within b s t) (parts : (t.at b).pw.parts = (s.at b).pw.parts)
    (controllers : ∀ d, SameCtl (avsOf s b d) (avsOf t b d)) : Works b k s t := by
  have same (j : Nat) : partOf t b j = partOf s b j := congrArg (vget · j) parts
  exact ⟨within, same k ▸ ⟨rfl, rfl, rfl, rfl, rfl, rfl⟩, fun j _ => same j, controllers⟩

theorem Works.of_same (within : Within b s t) (pw : (t.at b).pw = (s.at b).pw) : Works b k s t :=
  .of_pw within (congrArg Pw.parts pw) fun d => by rw [avsOf, avsOf, pw]; exact ⟨rfl, rfl⟩

theorem updPart_works {f : Part → Part} (keeps : ∀ p, SameCaps p (f p)) : Works b k s (s.updPart b k f) := by
  refine ⟨updPart_within, ?_, fun j ne => partOf_updPart_ne ne, fun d => by rw [avsOf_updPart]; exact ⟨rfl, rfl⟩⟩
  rcases partOf_updPart_or (s := s) (b := b) (j := k) (k := k) (f := f) with eq | eq
  · rw [eq]
    exact keeps _
  · rw [eq]
    exact ⟨rfl, rfl, rfl, rfl, rfl, rfl⟩

theorem updAvs_works {f : Avs → Avs} (keeps : ∀ a, SameCtl a (f a)) : Works b k s (updAvs b c f s) := by
  refine .of_pw updAvs_within parts_updAvs fun d => ?_
  rcases avsOf_updAvs_or (s := s) (b := b) (c := c) (d := d) (f := f) with eq | eq
  · rw [eq]
    exact keeps _
  · rw [eq]
    exact ⟨rfl, rfl⟩

/-! ### A controller sends (R185, R186) -/

theorem avsSend_nil (empty : (avsOf s b c).queue = []) : avsSend b c s = s := by
  unfold avsSend
  rw [show (vget (s.at b).pw.avs c).queue = [] from empty]

theorem avsSend_status (front : (avsOf s b c).queue = w :: ws) (first : w.statusFirst = true) : avsSend b c s =
    (updAvs b c (fun a => { a with queue := { w with statusFirst := false } :: ws, statusRead := true, confirm := some w.rail }) s).emit
      (.avsStatus b c) := by
  unfold avsSend
  rw [show (vget (s.at b).pw.avs c).queue = w :: ws from front]
  exact if_pos first

theorem avsSend_write (front : (avsOf s b c).queue = w :: ws) (first : w.statusFirst = false) : avsSend b c s =
    (updAvs b c (fun a => { a with txn := sinc a.txn }) s).emit (.avsWrite b c (railAvsSel (s.at b) w.rail) w.mv) := by
  unfold avsSend
  rw [show (vget (s.at b).pw.avs c).queue = w :: ws from front]
  exact if_neg (by simp [first])

theorem SameCtl.refl {a : Avs} : SameCtl a a := ⟨rfl, rfl⟩

theorem emit_works {o : Output} : Works b k s (s.emit o) := .of_same .emit rfl

theorem avsSend_works : Works b k s (avsSend b c s) := by
  cases front : (avsOf s b c).queue with
  | nil =>
    rw [avsSend_nil front]
    exact .refl
  | cons w ws =>
    cases first : w.statusFirst with
    | true =>
      rw [avsSend_status front first]
      refine Works.trans (updAvs_works ?_) emit_works
      exact fun _ => ⟨rfl, rfl⟩
    | false =>
      rw [avsSend_write front first]
      refine Works.trans (updAvs_works ?_) emit_works
      exact fun _ => ⟨rfl, rfl⟩

theorem avsSend_parts : ((avsSend b c s).at b).pw.parts = (s.at b).pw.parts := by
  cases front : (avsOf s b c).queue with
  | nil => rw [avsSend_nil front]
  | cons w ws =>
    cases first : w.statusFirst with
    | true => rw [avsSend_status front first]; exact parts_updAvs
    | false => rw [avsSend_write front first]; exact parts_updAvs

theorem avsSend_part : partOf (avsSend b c s) b k = partOf s b k := congrArg (vget · k) avsSend_parts

theorem avsSend_length (lt : c < 2) : (avsOf (avsSend b c s) b c).queue.length = (avsOf s b c).queue.length := by
  cases front : (avsOf s b c).queue with
  | nil => rw [avsSend_nil front, front]
  | cons w ws =>
    cases first : w.statusFirst with
    | true =>
      rw [avsSend_status front first]
      exact congrArg (fun a : Avs => a.queue.length) (avsOf_updAvs_self lt)
    | false =>
      rw [avsSend_write front first]
      exact (congrArg (fun a : Avs => a.queue.length) (avsOf_updAvs_self (f := fun a => { a with txn := sinc a.txn }) lt)).trans
        (congrArg List.length front)

/-! ### A setpoint write is queued (R186) -/

/-- The write joins its controller's queue, and the partition's setpoint is in writing. -/
def queued (b : BId) (r mv : Nat) (up : Bool) (tries : Nat) (s : State) : State :=
  let s' := updAvs b (railAvsCtl (s.at b) r) (fun a => { a with queue := a.queue ++ [⟨r, mv, up, tries, false⟩] }) s
  if up then s' else s'.updPart b r fun q => { q with writing := true }

theorem avsWrite_eq (takes : (avsOf s b (railAvsCtl (s.at b) r)).retired = false) : ∃ idle : Bool,
    avsWrite b r mv up tries s =
      if idle then avsSend b (railAvsCtl (s.at b) r) (queued b r mv up tries s) else queued b r mv up tries s :=
  ⟨_, if_neg (by rw [show (vget (s.at b).pw.avs (railAvsCtl (s.at b) r)).retired = false from takes]; decide)⟩

theorem queued_works : Works b r s (queued b r mv up tries s) := by
  unfold queued
  have joins : Works b r s (updAvs b (railAvsCtl (s.at b) r) (fun a => { a with queue := a.queue ++ [⟨r, mv, up, tries, false⟩] }) s) :=
    updAvs_works fun _ => ⟨rfl, rfl⟩
  exact .ite joins (joins.trans (updPart_works fun _ => ⟨rfl, rfl, rfl, rfl, rfl, rfl⟩))

theorem avsWrite_works : Works b r s (avsWrite b r mv up tries s) := by
  cases takes : (avsOf s b (railAvsCtl (s.at b) r)).retired with
  | true =>
    rw [show avsWrite b r mv up tries s = s from if_pos takes]
    exact .refl
  | false =>
    obtain ⟨idle, eq⟩ := avsWrite_eq (mv := mv) (up := up) (tries := tries) takes
    exact eq ▸ .ite (queued_works.trans avsSend_works) queued_works

/-- A write that its controller takes stands as in writing, and the partition is otherwise as it was. -/
theorem avsWrite_part (takes : (avsOf s b (railAvsCtl (s.at b) r)).retired = false) (lt : r < 4) :
    partOf (avsWrite b r mv false tries s) b r = { partOf s b r with writing := true } := by
  have joins : partOf (queued b r mv false tries s) b r = { partOf s b r with writing := true } := by
    refine (partOf_updPart_self lt).trans ?_
    rw [partOf_updAvs]
  obtain ⟨idle, eq⟩ := avsWrite_eq (mv := mv) (up := false) (tries := tries) takes
  rw [eq]
  split
  · exact avsSend_part.trans joins
  · exact joins

/-- Whether or not its controller takes it, a write leaves the applied step. -/
theorem avsWrite_applied : (partOf (avsWrite b r mv up tries s) b r).applied = (partOf s b r).applied := by
  have joins : (partOf (queued b r mv up tries s) b r).applied = (partOf s b r).applied := by
    unfold queued
    extract_lets s'
    have kept : partOf s' b r = partOf s b r := partOf_updAvs
    rw [← kept]
    cases up with
    | true => rfl
    | false => exact updPart_applied fun _ => rfl
  cases takes : (avsOf s b (railAvsCtl (s.at b) r)).retired with
  | true => rw [show avsWrite b r mv up tries s = s from if_pos takes]
  | false =>
    obtain ⟨idle, eq⟩ := avsWrite_eq (mv := mv) (up := up) (tries := tries) takes
    rw [eq]
    split
    · exact (congrArg Part.applied avsSend_part).trans joins
    · exact joins

/-! ### Targets, orders and caps (R190 to R195) -/

theorem updRl_works {f : Rl → Rl} : Works b k s (s.updRl b f) :=
  .of_same updRl_within (by rw [State.updRl_at, if_pos rfl])

theorem updHw_works {f : Hw → Hw} : Works b k s (s.updHw b f) :=
  .of_same .upd (by rw [State.updHw_at, if_pos rfl])

theorem thrSet_works {i low high : Nat} : Works b k s (thrSet b i low high s) := .ite updRl_works .refl

theorem track_works {old t : Nat} : Works b k s (track b r old t s) := .ite thrSet_works .refl

theorem writeTarget_works {t : Nat} {raise : Option Nat} : Works b k s (writeTarget b k t raise s) := by
  unfold writeTarget
  extract_lets x w p l
  have target : Works b k s p := updPart_works fun _ => ⟨rfl, rfl, rfl, rfl, rfl, rfl⟩
  exact ((target.trans updRl_works).trans track_works).trans avsWrite_works

/-- A change of the rails' block leaves the partitions. -/
theorem partOf_of_rl (h : Touch [.rl] s t) : partOf t b k = partOf s b k := by
  rw [partOf, partOf, h.at_pw (by decide)]

theorem writeTarget_applied {t : Nat} {raise : Option Nat} : (partOf (writeTarget b k t raise s) b k).applied = (partOf s b k).applied := by
  unfold writeTarget
  extract_lets x w p l
  have rails : partOf (track b k (vget x.pw.parts k).target t l) b k = partOf p b k :=
    partOf_of_rl (track_touch (by decide) (State.updRl_touch (by decide) .refl))
  rw [avsWrite_applied, rails]
  exact updPart_applied fun _ => rfl

theorem retarget_works : Works b k s (retarget b k s) :=
  .ite .refl (.ite (updPart_works fun _ => ⟨rfl, rfl, rfl, rfl, rfl, rfl⟩) writeTarget_works)

theorem retarget_applied : (partOf (retarget b k s) b k).applied = (partOf s b k).applied := by
  unfold retarget
  extract_lets x p st t a up
  split
  · rfl
  · split
    · exact updPart_applied fun _ => rfl
    · exact writeTarget_applied

theorem updHw_within {f : Hw → Hw} : Within b s (s.updHw b f) := .upd

theorem issue_within {o : Order} : Within b s (issue b o s).2 := by
  unfold issue
  split
  · exact updHw_within
  · exact .refl

theorem issueHw_within {o : Order} : Within b s (issueHw b o s) := by
  have sent : Within b s (issue b o s).2 := issue_within
  unfold issueHw
  split
  case h_1 t eq =>
    rw [eq] at sent
    exact sent
  case h_2 t eq =>
    rw [eq] at sent
    exact sent.trans .upd

theorem sendFreq_works : Works b k s (sendFreq b r st s) :=
  updHw_works.trans (.of_same issueHw_within ((issueHw_touch sub_self .refl).at_pw (by decide) b))

theorem orderStep_works : Works b k s (orderStep b k st s) := by
  unfold orderStep
  extract_lets p high s'
  have ordered : Works b k s s' := updPart_works fun _ => ⟨rfl, rfl, rfl, rfl, rfl, rfl⟩
  exact ordered.trans sendFreq_works

theorem orderStep_applied (lt : k < 4) : (partOf (orderStep b k st s) b k).applied = st := by
  unfold orderStep
  extract_lets p high s'
  rw [partOf, (sendFreq_touch sub_self .refl).at_pw (by decide)]
  exact congrArg Part.applied (partOf_updPart_self lt)

/-- Partition k's lowering is noted, with the step it counts from. -/
def lowering (b : BId) (k : Nat) (s : State) : State :=
  s.updPart b k fun q => { q with lowAt := some s.now, lowFrom := stepFrom s (partOf s b k) }

theorem capsChanged_eq : capsChanged b k s = if !(partOf s b k).ready then s
    else if capOf (s.at b) k < (partOf s b k).applied then
      retarget b k (orderStep b k (effective (s.at b) b.val k) (lowering b k s))
    else retarget b k s := rfl

theorem lowering_works : Works b k s (lowering b k s) := updPart_works fun _ => ⟨rfl, rfl, rfl, rfl, rfl, rfl⟩

theorem capsChanged_works : Works b k s (capsChanged b k s) := by
  rw [capsChanged_eq]
  exact .ite .refl (.ite ((lowering_works.trans orderStep_works).trans retarget_works) retarget_works)

/-- A ready partition stands at or below every cap once a change of caps has taken effect. -/
theorem capsChanged_applied (lt : k < 4) (ready : (partOf s b k).ready = true) :
    (partOf (capsChanged b k s) b k).applied ≤ capOf (s.at b) k := by
  rw [capsChanged_eq, if_neg (by simp [ready])]
  by_cases low : capOf (s.at b) k < (partOf s b k).applied
  · rw [if_pos low, retarget_applied, orderStep_applied lt]
    exact Nat.min_le_right _ _
  · rw [if_neg low, retarget_applied]
    exact Nat.le_of_not_lt low

theorem capOf_le : capOf (s.at b) k ≤ (partOf s b k).sTherm ∧ capOf (s.at b) k ≤ (partOf s b k).sCurr
    ∧ capOf (s.at b) k ≤ (partOf s b k).sPwr := by
  simp only [capOf, partOf]
  omega

/-! ### The loops (R198) -/

/-- A thermal or current cap falls by one. -/
def capFalls (n : Nat) (temp : Bool) (p : Part) : Part :=
  if temp then { p with sTherm := p.sTherm - 1, thermLow := n } else { p with sCurr := p.sCurr - 1, currLow := n }

/-- A thermal or current cap is released. -/
def capFreed (temp : Bool) (p : Part) : Part :=
  if temp then { p with sTherm := 31, thermIns := [] } else { p with sCurr := 31, currIns := [] }

theorem thermalLoopStep_eq {temp : Bool} (due : loopDue s b k temp = true) :
    thermalLoopStep b k temp s = capsChanged b k (s.updPart b k (capFalls ((s.at b).pw.bnd + 1) temp)) := if_pos due

theorem thermalCapRelease_eq {temp : Bool} (due : releaseDue s b k temp = true) :
    thermalCapRelease b k temp s = capsChanged b k (s.updPart b k (capFreed temp)) := if_pos due

/-- What a change of partition k followed by a change of caps makes of the partition. -/
theorem capsChanged_updPart {f : Part → Part} (lt : k < 4) :
    Within b s (capsChanged b k (s.updPart b k f))
    ∧ SameCaps (f (partOf s b k)) (partOf (capsChanged b k (s.updPart b k f)) b k)
    ∧ (∀ j, j ≠ k → partOf (capsChanged b k (s.updPart b k f)) b j = partOf s b j)
    ∧ ((f (partOf s b k)).ready = true → (partOf (capsChanged b k (s.updPart b k f)) b k).applied ≤ (f (partOf s b k)).sTherm
      ∧ (partOf (capsChanged b k (s.updPart b k f)) b k).applied ≤ (f (partOf s b k)).sCurr
      ∧ (partOf (capsChanged b k (s.updPart b k f)) b k).applied ≤ (f (partOf s b k)).sPwr) := by
  have works : Works b k (s.updPart b k f) (capsChanged b k (s.updPart b k f)) := capsChanged_works
  have own : partOf (s.updPart b k f) b k = f (partOf s b k) := partOf_updPart_self lt
  refine ⟨updPart_within.trans works.within, own ▸ works.caps,
    fun j ne => (works.others j ne).trans (partOf_updPart_ne ne), fun ready => ?_⟩
  have under := capsChanged_applied lt (own ▸ ready : (partOf (s.updPart b k f) b k).ready = true)
  obtain ⟨therm, curr, pwr⟩ := capOf_le (s := s.updPart b k f) (b := b) (k := k)
  rw [own] at therm curr pwr
  exact ⟨under.trans therm, under.trans curr, under.trans pwr⟩

/-! ### The power loop (R200, R201) -/

/-- The power loop has acted at the coming boundary. -/
def loopActed (b : BId) (s : State) : State := s.updPw b fun p => { p with ogDone := true }

theorem partOf_loopActed : partOf (loopActed b s) b k = partOf s b k := by
  rw [partOf, loopActed, updPw_pw]
  rfl

/-- Partition k's turn in a lowering of the power cap. -/
def lowerPower (b : BId) (cut : Bool) (k : Nat) (t : State) : State :=
  capsChanged b k (t.updPart b k fun q => { q with sPwr := min q.sPwr (stepFrom t q - 1), pwrBudget := cut })

/-- Partition k's turn in a raise of the power cap. -/
def raisePower (b : BId) (k : Nat) (t : State) : State :=
  capsChanged b k (t.updPart b k fun q => { q with sPwr := min 31 (q.sPwr + 1) })

theorem overGrantLower_eq (over' : overGrant (s.at b).pw = true) (fresh : (s.at b).pw.ogDone = false)
    (long : fld (s.at b).pw.og 7 0 ≤ (s.at b).pw.overRun + 1) : overGrantLower b s =
      iter ((upto 4).filter (partUsed ((loopActed b s).at b) b.val)) (lowerPower b (s.at b).pw.cutSince) (loopActed b s) :=
  if_pos (by simp [over', fresh, long])

theorem underGrantRaise_eq (under : underGrant (s.at b).pw = true) (fresh : (s.at b).pw.ogDone = false)
    (long : 16 ≤ (s.at b).pw.underRun + 1) : underGrantRaise b s =
      iter ((upto 4).filter (partUsed ((loopActed b s).at b) b.val)) (raisePower b) (loopActed b s) :=
  if_pos (by simp [under, fresh, long])

theorem mem_usedParts (k : Fin 4) (used : partUsed (s.at b) b.val k.val = true) :
    k.val ∈ (upto 4).filter (partUsed ((loopActed b s).at b) b.val) := by
  refine List.mem_filter.mpr ⟨List.mem_range.mpr k.isLt, ?_⟩
  unfold partUsed stepCount Berth.recWord at used ⊢
  rw [loopActed, (State.updPw_touch sub_self .refl).at_ch (by decide)]
  exact used

theorem usedParts_nodup {x : Berth} {slot : Nat} : ((upto 4).filter (partUsed x slot)).Nodup := List.Nodup.filter _ List.nodup_range

theorem capTurn_within {f : Part → Part} : Within b s (capsChanged b k (s.updPart b k f)) :=
  updPart_within.trans capsChanged_works.within

/-- Turns that each change their own partition's caps: partition k ends as its own turn leaves it. -/
theorem caps_turn {turns : Nat → State → State} {g : Nat → State → Part → Part} (k : Fin 4) {xs : List Nat} (mem : k.val ∈ xs)
    (distinct : xs.Nodup) (turn : ∀ j t, turns j t = capsChanged b j (t.updPart b j (g j t)))
    (same : ∀ t, t.now = s.now → g k.val t = g k.val s) :
    SameCaps (g k.val s (partOf s b k.val)) (partOf (iter xs turns s) b k.val)
    ∧ ((g k.val s (partOf s b k.val)).ready = true →
        (partOf (iter xs turns s) b k.val).applied ≤ (g k.val s (partOf s b k.val)).sPwr) := by
  refine iter_turn (x := k.val) (P := fun t => t.now = s.now ∧ partOf t b k.val = partOf s b k.val)
    (Q := fun t => SameCaps (g k.val s (partOf s b k.val)) (partOf t b k.val)
      ∧ ((g k.val s (partOf s b k.val)).ready = true → (partOf t b k.val).applied ≤ (g k.val s (partOf s b k.val)).sPwr))
    mem distinct ⟨rfl, rfl⟩ (fun j t ne ⟨now, part⟩ => ?_) (fun t ⟨now, part⟩ => ?_) (fun j t ne q => ?_)
  · rw [turn j t, (capTurn_within (f := g j t)).now]
    refine ⟨now, ?_⟩
    rw [(capsChanged_works).others k.val ne.symm, partOf_updPart_ne ne.symm, part]
  · obtain ⟨-, caps, -, bound⟩ := capsChanged_updPart (b := b) (s := t) (f := g k.val t) k.isLt
    rw [turn k.val t, ← part, ← same t now]
    exact ⟨caps, fun ready => (bound ready).2.2⟩
  · rw [turn j t, (capsChanged_works).others k.val ne.symm, partOf_updPart_ne ne.symm]
    exact q

/-! ### The scan's estimate (R200) -/

theorem scanComplete_idle (no : (s.at b).rl.scanAt ≠ 24) : scanComplete b s = s := if_pos (by simpa using no)

/-- The scan is counted. -/
def scanCounted (r : Rl) : Rl := { r with scans := (r.scans + 1) % 2 ^ 64, scanAt := 0 }

/-- The scan's estimate joins the mark's. -/
def estimated (x : Berth) (p : Pw) : Pw := { p with
  estSum := p.estSum + powerEstimate x, estCnt := p.estCnt + 1
  partialPwr := (currentIns x).any fun i => !contributes x i }

theorem scanComplete_eq (full : (s.at b).rl.scanAt = 24) :
    scanComplete b s = (s.updRl b scanCounted).updPw b (estimated (s.at b)) := if_neg (by simp [full])

/-- Settles O24: a change of caps leaves a ready partition at or below each of them. -/
theorem powerLoops : Obligations.PowerLoops := by
  unfold Obligations.PowerLoops
  refine fun s b => ⟨fun k due => ?_, fun k due => ?_, fun k due => ?_, fun k due => ?_, fun part => ?_, fun full => ?_,
    fun ⟨high, fresh, long⟩ => ?_, fun ⟨low, fresh, long⟩ => ?_⟩
  · refine answers_of_run (congrArg (ran s) (thermalLoopStep_eq (s := s.begin) due)) fun t queue e => ?_
    obtain ⟨within, caps, -, bound⟩ := capsChanged_updPart (b := b) (s := s.begin) (f := capFalls ((s.at b).pw.bnd + 1) true) k.isLt
    refine ⟨e.keeps queue (.ofBegin within), ?_⟩
    unfold partOf at caps bound ⊢
    rw [e.at_eq]
    exact ⟨caps.sTherm, caps.sCurr, fun ready => caps.sTherm ▸ (bound ready).1⟩
  · refine answers_of_run (congrArg (ran s) (thermalLoopStep_eq (s := s.begin) due)) fun t queue e => ?_
    obtain ⟨within, caps, -, bound⟩ := capsChanged_updPart (b := b) (s := s.begin) (f := capFalls ((s.at b).pw.bnd + 1) false) k.isLt
    refine ⟨e.keeps queue (.ofBegin within), ?_⟩
    unfold partOf at caps bound ⊢
    rw [e.at_eq]
    exact ⟨caps.sCurr, caps.sTherm, fun ready => caps.sCurr ▸ (bound ready).2.1⟩
  · refine answers_of_run (congrArg (ran s) (thermalCapRelease_eq (s := s.begin) due)) fun t queue e => ?_
    obtain ⟨within, caps, -, -⟩ := capsChanged_updPart (b := b) (s := s.begin) (f := capFreed true) k.isLt
    refine ⟨e.keeps queue (.ofBegin within), ?_⟩
    unfold partOf at caps ⊢
    rw [e.at_eq]
    exact ⟨caps.sTherm, caps.thermIns⟩
  · refine answers_of_run (congrArg (ran s) (thermalCapRelease_eq (s := s.begin) due)) fun t queue e => ?_
    obtain ⟨within, caps, -, -⟩ := capsChanged_updPart (b := b) (s := s.begin) (f := capFreed false) k.isLt
    refine ⟨e.keeps queue (.ofBegin within), ?_⟩
    unfold partOf at caps ⊢
    rw [e.at_eq]
    exact ⟨caps.sCurr, caps.currIns⟩
  · exact ⟨_, congrArg (ran s) (scanComplete_idle (s := s.begin) part), rfl⟩
  · refine answers_of_run (congrArg (ran s) (scanComplete_eq (s := s.begin) full)) fun t queue e => ?_
    have touch : Touch [.out, .rl, .pw] s.begin ((s.begin.updRl b scanCounted).updPw b (estimated (s.begin.at b))) :=
      State.updPw_touch (by decide) (State.updRl_touch (by decide) .refl)
    refine ⟨e.keeps queue (.ofBegin (updRl_within.trans updPw_within)), e.agreeOff_begin (by decide) touch, ?_, ?_⟩
    · rw [e.at_eq, (State.updPw_touch sub_self .refl).at_rl (by decide), updRl_rl]
      rfl
    · rw [e.at_eq, updPw_pw, (State.updRl_touch sub_self .refl).at_pw (by decide)]
      rfl
  · refine answers_of_run (congrArg (ran s) (overGrantLower_eq (s := s.begin) high fresh long)) fun t queue e => ?_
    refine ⟨e.keeps queue (.ofBegin (updPw_within.trans (.iter fun j u => capTurn_within))), fun k used => ?_⟩
    obtain ⟨caps, bound⟩ := caps_turn (b := b) (turns := lowerPower b (s.at b).pw.cutSince) (s := loopActed b s.begin)
      (g := fun _ t q => { q with sPwr := min q.sPwr (stepFrom t q - 1), pwrBudget := (s.at b).pw.cutSince }) k
      (mem_usedParts k used) usedParts_nodup (fun _ _ => rfl) (fun t now => by unfold stepFrom; rw [now])
    rw [partOf_loopActed] at caps bound
    unfold partOf at caps bound ⊢
    rw [e.at_eq]
    exact ⟨caps.sPwr, fun ready => caps.sPwr ▸ bound ready⟩
  · refine answers_of_run (congrArg (ran s) (underGrantRaise_eq (s := s.begin) low fresh long)) fun t queue e => ?_
    refine ⟨e.keeps queue (.ofBegin (updPw_within.trans (.iter fun j u => capTurn_within))), fun k used => ?_⟩
    obtain ⟨caps, -⟩ := caps_turn (b := b) (turns := raisePower b) (s := loopActed b s.begin)
      (g := fun _ _ q => { q with sPwr := min 31 (q.sPwr + 1) }) k
      (mem_usedParts k used) usedParts_nodup (fun _ _ => rfl) (fun _ _ => rfl)
    rw [partOf_loopActed] at caps
    unfold partOf at caps ⊢
    rw [e.at_eq]
    exact caps.sPwr

end

end Sys2Proof.Machine

/-! AVSBus answers, settling and trim (R185 to R187, R196, R207). -/
namespace Sys2Proof.Machine
set_option Elab.async false

section
variable {s t u : State} {b : BId} {c : Fin 2} {j k r mv ack : Nat} {crcOk : Bool} {w : AvsWrite} {ws : List AvsWrite}

/-! ### A controller's answers (R185, R186) -/

/-- The acknowledgement field of a controller's last answer. -/
def ackSeen (b : BId) (c : Nat) (ack : Nat) (s : State) : State := updAvs b c (fun a => { a with lastAck := ack }) s

theorem ackSeen_avs : avsOf (ackSeen b c.val ack s) b c.val = { avsOf s b c.val with lastAck := ack } := avsOf_updAvs_self c.isLt

theorem ackSeen_within : Within b s (ackSeen b c.val ack s) := updAvs_within

theorem ackSeen_parts : ((ackSeen b c.val ack s).at b).pw.parts = (s.at b).pw.parts := parts_updAvs

/-- The state in which an attempt's end is judged: after an answer its acknowledgement is seen. -/
inductive Heard (b : BId) (c : Fin 2) (s : State) : State → Prop where
  | answer (ack : Nat) : Heard b c s (ackSeen b c.val ack s)
  | silence : Heard b c s s

/-- Of a controller an answer changes what was acknowledged. -/
theorem Heard.spec (h : Heard b c s t) : Within b s t ∧ Touch [.pw] s t ∧ t.out = s.out ∧ (t.at b).pw.parts = (s.at b).pw.parts
    ∧ ∃ ack, avsOf t b c.val = { avsOf s b c.val with lastAck := ack } := by
  cases h with
  | answer ack => exact ⟨ackSeen_within, updAvs_touch sub_self .refl, rfl, ackSeen_parts, ack, ackSeen_avs⟩
  | silence => exact ⟨.refl, .refl, rfl, rfl, (avsOf s b c.val).lastAck, rfl⟩

theorem avsResponse_reads (drives : (avsOf s b c.val).retired = false) (awake : s.dev.sleep = false)
    (reads : avsReads (avsOf s b c.val) = true) : avsResponse b c.val crcOk ack s = avsReadDone b c.val (ackSeen b c.val ack s) :=
  (if_neg (by simp [drives, awake])).trans (if_pos reads)

theorem avsTimeout_reads (drives : (avsOf s b c.val).retired = false) (awake : s.dev.sleep = false)
    (reads : avsReads (avsOf s b c.val) = true) : avsTimeout b c.val s = avsReadDone b c.val s :=
  (if_neg (by simp [drives, awake])).trans (if_pos reads)

section
variable (front : (avsOf s b c.val).queue = w :: ws) (drives : (avsOf s b c.val).retired = false)
  (writes : avsReads (avsOf s b c.val) = false) (awake : s.dev.sleep = false)
include front drives writes awake

theorem avsResponse_acked : avsResponse b c.val true 0 s = avsAcked b c.val (ackSeen b c.val 0 s) :=
  ((if_neg (by simp [drives, awake])).trans ((if_neg (by simp [writes])).trans (if_neg (by simp [front])))).trans (if_pos rfl)

theorem avsResponse_failed (fails : crcOk = false ∨ ack ≠ 0) :
    avsResponse b c.val crcOk ack s = avsFailed b c.val (ackSeen b c.val ack s) := by
  refine ((if_neg (by simp [drives, awake])).trans ((if_neg (by simp [writes])).trans (if_neg (by simp [front])))).trans (if_neg ?_)
  rcases fails with crc | ne
  · simp [crc]
  · simp [ne]

theorem avsTimeout_failed : avsTimeout b c.val s = avsFailed b c.val s :=
  (if_neg (by simp [drives, awake])).trans ((if_neg (by simp [writes])).trans (if_neg (by simp [front])))

end

/-! ### A setpoint is acknowledged (R142, R187) -/

/-- A partition whose setpoint write is acknowledged. -/
def ackedPart (w : AvsWrite) (more : Bool) (p : Part) : Part :=
  { p with setpoint := w.mv, acked := w.mv, writing := more && !w.powerUp, tries := w.attempts + 1
           settling := if w.powerUp then none else some w.mv }

/-- The write at the front leaves its controller's queue, acknowledged. -/
def frontAcked (b : BId) (c : Nat) (w : AvsWrite) (ws : List AvsWrite) (s : State) : State :=
  (updAvs b c (fun a => { a with queue := ws }) s).updPart b w.rail (ackedPart w (ws.any fun v => v.rail == w.rail))

theorem avsAcked_eq (front : (avsOf s b c.val).queue = w :: ws) (later : w.powerUp = false) :
    avsAcked b c.val s = avsSend b c.val (frontAcked b c.val w ws s) := by
  unfold avsAcked
  split
  case h_1 eq => exact absurd (eq.symm.trans front) (by simp)
  case h_2 w' ws' eq =>
  cases eq.symm.trans front
  extract_lets s1 more s2 s3
  have kept : s3 = s2 := if_neg (by simp [later])
  rw [kept]
  rfl

theorem frontAcked_part (lt : w.rail < 4) :
    partOf (frontAcked b c.val w ws s) b w.rail = ackedPart w (ws.any fun v => v.rail == w.rail) (partOf s b w.rail) := by
  rw [frontAcked, partOf_updPart_self lt, partOf_updAvs]

theorem frontAcked_avs : avsOf (frontAcked b c.val w ws s) b c.val = { avsOf s b c.val with queue := ws } := by
  rw [frontAcked, avsOf_updPart, avsOf_updAvs_self c.isLt]

/-! ### An attempt fails (R185, R186) -/

/-- The failed attempt is counted, and the reads that follow it are asked for. -/
def failNoted (b : BId) (c : Nat) (w : AvsWrite) (queue : List AvsWrite) (s : State) : State :=
  updAvs b c (fun a => { a with fail := sinc a.fail, statusRead := true, confirm := some w.rail, queue := queue }) s

theorem failNoted_avs {queue : List AvsWrite} : avsOf (failNoted b c.val w queue s) b c.val =
    { avsOf s b c.val with fail := sinc (avsOf s b c.val).fail, statusRead := true, confirm := some w.rail, queue := queue } :=
  avsOf_updAvs_self c.isLt

theorem avsFailed_retries (front : (avsOf s b c.val).queue = w :: ws) (drives : (avsOf s b c.val).retired = false)
    (few : w.attempts + 1 < 3) : avsFailed b c.val s =
      (failNoted b c.val w ({ w with attempts := w.attempts + 1 } :: ws) s).emit (.avsStatus b c.val) := by
  have noted : (updAvs b c.val (fun a => { a with
      fail := sinc a.fail, statusRead := true, confirm := some w.rail
      queue := if w.attempts + 1 ≥ 3 then ws else { w with attempts := w.attempts + 1 } :: ws }) s) =
      failNoted b c.val w ({ w with attempts := w.attempts + 1 } :: ws) s := by
    rw [if_neg (Nat.not_le.mpr few)]
    rfl
  unfold avsFailed
  split
  case h_1 eq => exact absurd (eq.symm.trans front) (by simp)
  case h_2 w' ws' eq =>
  cases eq.symm.trans front
  extract_lets n s1 s2
  have stays : s2 = s1 := if_neg (Nat.not_le.mpr few)
  rw [stays, show s1 = _ from noted, if_neg (by rw [failNoted_avs]; simp [drives])]

/-- The third failure's end, once the write has been given up. -/
def statusAsked (b : BId) (c : Nat) (s : State) : State := if (avsOf s b c).retired then s else s.emit (.avsStatus b c)

theorem avsFailed_gives (front : (avsOf s b c.val).queue = w :: ws) (many : 3 ≤ w.attempts + 1) :
    avsFailed b c.val s = statusAsked b c.val (avsGiveUp b c.val w (failNoted b c.val w ws s)) := by
  have noted : (updAvs b c.val (fun a => { a with
      fail := sinc a.fail, statusRead := true, confirm := some w.rail
      queue := if w.attempts + 1 ≥ 3 then ws else { w with attempts := w.attempts + 1 } :: ws }) s) = failNoted b c.val w ws s := by
    rw [if_pos many]
    rfl
  unfold avsFailed
  split
  case h_1 eq => exact absurd (eq.symm.trans front) (by simp)
  case h_2 w' ws' eq =>
  cases eq.symm.trans front
  extract_lets n s1 s2
  have gives : s2 = avsGiveUp b c.val w s1 := if_pos many
  rw [gives, show s1 = _ from noted]
  rfl

/-- The setpoint of a write given up: the lower of the written and the acknowledged value, where one was acknowledged (R186). -/
def fallBack (w : AvsWrite) (acked : Nat) : Nat := if acked == 0 then w.mv else min acked w.mv

/-- The write is given up and counted in its controller's history. -/
def givenUp (b : BId) (c : Nat) (w : AvsWrite) (s : State) : State :=
  let s' := s.updPart b w.rail fun p =>
    { p with setpoint := fallBack w (partOf s b w.rail).acked, raiseTo := none
             writing := (avsOf s b c).queue.any fun v => v.rail == w.rail && !v.powerUp }
  updAvs b c (fun a => { a with hist := (classEvent s' b 5 (avsOf s' b c).hist).2.1 }) s'

theorem givenUp_avs : ∃ hist, avsOf (givenUp b c.val w s) b c.val = { avsOf s b c.val with hist := hist } := by
  unfold givenUp
  extract_lets s' a
  have kept : avsOf s' b c.val = avsOf s b c.val := avsOf_updPart
  exact ⟨(classEvent s' b 5 (avsOf s' b c.val).hist).2.1, by rw [avsOf_updAvs_self c.isLt, kept]⟩

theorem givenUp_setpoint (lt : w.rail < 4) :
    (partOf (givenUp b c.val w s) b w.rail).setpoint = fallBack w (partOf s b w.rail).acked := by
  unfold givenUp
  extract_lets s'
  rw [partOf_updAvs, partOf_updPart_self lt]

theorem givenUp_touch : Touch [.pw] s (givenUp b c.val w s) := updAvs_touch sub_self (State.updPart_touch sub_self .refl)

/-- Giving a write up retires its controller where its history says so. -/
theorem avsGiveUp_eq : ∃ log : State → State, (∀ t, Touch [.out, .freeCtr, .rp, .log, .dk, .us] t (log t)) ∧ ∃ n,
    avsGiveUp b c.val w s =
      if (classEvent s b 5 (avsOf s b c.val).hist).1 then avsRetire b c.val n (log (givenUp b c.val w s)) else log (givenUp b c.val w s) := by
  unfold avsGiveUp
  extract_lets last s1 ev s2 s3
  have same : ev = classEvent s b 5 (avsOf s b c.val).hist := by
    have part : Touch [.pw] s s1 := State.updPart_touch sub_self .refl
    rw [show ev = classEvent s1 b 5 (avsOf s1 b c.val).hist from rfl, show avsOf s1 b c.val = avsOf s b c.val from avsOf_updPart]
    exact classEvent_congr part.harbour_eq (part.at_ch (by decide) b) fun d => congrArg Td.tide (part.at_td (by decide) d)
  refine ⟨fun t => logRec b 0x21 (pack [(c.val, 0, 1), (railAvsSel (t.at b) w.rail, 4, 4), (w.mv, 16, 16)])
    (pack [(last, 0, 16), ((avsOf t b c.val).lastAck, 16, 2)]) (wordOf (min (ev.2.2 + 1) 255)) t,
    fun t => logRec_touch sub_self .refl, ev.2.2, ?_⟩
  rw [← same]
  rfl

/-- A retired controller stays so. -/
theorem avsRetire_retired {n : Nat} : (avsOf (avsRetire b c.val n s) b c.val).retired = true := by
  unfold avsRetire
  extract_lets s1 s2
  refine iter_induction (P := fun t => (avsOf t b c.val).retired = true) ?_ fun k t retired => ?_
  · have told : Touch [.out, .rp] s1 s2 := notice_touch (by decide) .refl
    rw [avsOf, told.at_pw (by decide)]
    exact congrArg Avs.retired (avsOf_updAvs_self c.isLt)
  · rw [(capsChanged_works.controllers c.val).retired, avsOf_updPart]
    exact retired

/-! ### The reads that follow a failure (R185, R186) -/

theorem avsReadDone_target (asked : (avsOf s b c.val).statusRead = true) (rail : (avsOf s b c.val).confirm = some r) :
    avsReadDone b c.val s =
      (updAvs b c.val (fun a => { a with statusRead := false }) s).emit (.avsTarget b c.val (railAvsSel (s.at b) r)) := by
  unfold avsReadDone
  dsimp only
  rw [asked, rail]

theorem avsReadDone_next (read : (avsOf s b c.val).statusRead = false) :
    avsReadDone b c.val s = avsSend b c.val (updAvs b c.val (fun a => { a with statusRead := false, confirm := none }) s) := by
  unfold avsReadDone
  dsimp only
  rw [read]

/-! ### Settling (R187) -/

theorem voltageSettle_eq (moves : (partOf s b k).settling = some mv) (reads : readingOk s b k mv = true) : voltageSettle b k s =
    s.updPart b k fun p => { p with settling := none, settledAt := s.now, settled := p.settled || (mv == p.target && !p.writing) } := by
  unfold voltageSettle
  rw [moves]
  exact if_pos reads

/-- A change of partition k's voltage has not settled, which its controller counts as a failed write. -/
def unsettled (b : BId) (k : Nat) (s : State) : State :=
  updAvs b (railAvsCtl (s.at b) k) (fun a => { a with fail := sinc a.fail }) (s.updPart b k fun p => { p with settling := none })

/-- The write is queued again, behind a read of the controller's status. -/
def requeued (b : BId) (k : Nat) (w : AvsWrite) (c : Nat) (s : State) : State :=
  (updAvs b c (fun a => { a with queue := a.queue ++ [w] }) s).updPart b k fun p => { p with writing := true }

theorem railAvsCtl_lt {x : Berth} : railAvsCtl x k < 2 := fld_lt

theorem unsettled_avs : avsOf (unsettled b k s) b (railAvsCtl (s.at b) k) =
    { avsOf s b (railAvsCtl (s.at b) k) with fail := sinc (avsOf s b (railAvsCtl (s.at b) k)).fail } := by
  rw [unsettled, avsOf_updAvs_self railAvsCtl_lt, avsOf_updPart]

theorem settleTimeout_eq (moves : (partOf s b k).settling = some mv) (off : readingOk s b k mv = false)
    (drives : (avsOf s b (railAvsCtl (s.at b) k)).retired = false) (few : (partOf s b k).tries < 3) : ∃ idle : Bool,
    settleTimeout b k s =
      let c := railAvsCtl (s.at b) k
      let u := requeued b k ⟨k, mv, false, (partOf s b k).tries, true⟩ c (unsettled b k s)
      if idle then avsSend b c u else u := by
  unfold settleTimeout
  split
  case h_1 eq => exact absurd (eq.symm.trans moves) (by simp)
  case h_2 mv' eq =>
  cases eq.symm.trans moves
  rw [if_neg (by simp [off])]
  extract_lets c n s1 idle s2 s3 u
  refine ⟨idle, ?_⟩
  rw [if_neg (by rw [show s1 = unsettled b k s from rfl, unsettled_avs]; simp [drives]), if_neg (Nat.not_le.mpr few)]
  rfl

theorem requeued_works {w : AvsWrite} {c : Nat} : Works b k s (requeued b k w c s) := by
  have joins : Works b k s (updAvs b c (fun a => { a with queue := a.queue ++ [w] }) s) := updAvs_works fun _ => ⟨rfl, rfl⟩
  exact joins.trans (updPart_works fun _ => ⟨rfl, rfl, rfl, rfl, rfl, rfl⟩)

/-! ### Trim (R196) -/

/-- The full scales and the trim register are the same. -/
structure SameScales (b : BId) (s t : State) : Prop where
  vfs : (t.at b).pw.vfs = (s.at b).pw.vfs
  trim : (t.at b).pw.trim = (s.at b).pw.trim

theorem SameScales.refl : SameScales b s s := ⟨rfl, rfl⟩

theorem SameScales.trans (h : SameScales b s t) (i : SameScales b t u) : SameScales b s u := ⟨i.vfs.trans h.vfs, i.trim.trans h.trim⟩

theorem updAvs_scales {c : Nat} {f : Avs → Avs} : SameScales b s (updAvs b c f s) := by
  constructor
  · rw [updAvs, updPw_pw]
  · rw [updAvs, updPw_pw]

theorem updPart_scales {f : Part → Part} : SameScales b s (s.updPart b k f) := by
  constructor
  · rw [State.updPart_eq, updPw_pw]
  · rw [State.updPart_eq, updPw_pw]

theorem emit_scales {o : Output} : SameScales b s (s.emit o) := ⟨rfl, rfl⟩

theorem avsSend_scales {c : Nat} : SameScales b s (avsSend b c s) := by
  cases front : (avsOf s b c).queue with
  | nil =>
    rw [avsSend_nil front]
    exact .refl
  | cons w ws =>
    cases first : w.statusFirst with
    | true =>
      rw [avsSend_status front first]
      exact updAvs_scales.trans emit_scales
    | false =>
      rw [avsSend_write front first]
      exact updAvs_scales.trans emit_scales

theorem avsWrite_scales : SameScales b s (avsWrite b r mv false 0 s) := by
  cases takes : (avsOf s b (railAvsCtl (s.at b) r)).retired with
  | true =>
    rw [show avsWrite b r mv false 0 s = s from if_pos takes]
    exact .refl
  | false =>
    obtain ⟨idle, eq⟩ := avsWrite_eq (mv := mv) (up := false) (tries := 0) takes
    have joins : SameScales b s (queued b r mv false 0 s) := updAvs_scales.trans updPart_scales
    rw [eq]
    split
    · exact joins.trans avsSend_scales
    · exact joins

/-- Partition k's soft limits are kept while its setpoint moves (R153). -/
def widened (b : BId) (k : Nat) (t : State) : State :=
  t.updRl b fun r => { r with wide := vset r.wide k (some (softLimits (t.at b) k)) }

/-- A trim of partition k. -/
def trimTurn (b : BId) (k : Nat) (t : State) : State :=
  if trimSkips t b k || trimTo t b k == (partOf t b k).setpoint then t
  else avsWrite b k (trimTo t b k) false 0 (widened b k t)

theorem trimTick_eq (trims : bitAt (s.at b).pw.trim 0 = true) (up : (s.at b).rl.slot = .up) :
    trimTick b s = iter (upto 4) (trimTurn b) s := if_neg (by simp [trims, up])

theorem trimTick_idle (off : bitAt (s.at b).pw.trim 0 = false ∨ (s.at b).rl.slot ≠ .up) : trimTick b s = s := by
  refine if_pos ?_
  rcases off with off | off
  · simp [off]
  · simp [off]

/-- What the trim of partition k reads is the same. -/
structure TrimSame (b : BId) (k : Nat) (s t : State) : Prop where
  now : t.now = s.now
  ch : (t.at b).ch = (s.at b).ch
  thr : (t.at b).rl.thr = (s.at b).rl.thr
  ins : (t.at b).rl.ins = (s.at b).rl.ins
  graph0 : (t.at b).rl.graph0 = (s.at b).rl.graph0
  wide : vget (t.at b).rl.wide k = vget (s.at b).rl.wide k
  vfs : (t.at b).pw.vfs = (s.at b).pw.vfs
  trim : (t.at b).pw.trim = (s.at b).pw.trim
  part : partOf t b k = partOf s b k
  retired : ∀ d, (avsOf t b d).retired = (avsOf s b d).retired

theorem TrimSame.refl : TrimSame b k s s := ⟨rfl, rfl, rfl, rfl, rfl, rfl, rfl, rfl, rfl, fun _ => rfl⟩

theorem TrimSame.trans (h : TrimSame b k s t) (i : TrimSame b k t u) : TrimSame b k s u :=
  ⟨i.now.trans h.now, i.ch.trans h.ch, i.thr.trans h.thr, i.ins.trans h.ins, i.graph0.trans h.graph0, i.wide.trans h.wide,
    i.vfs.trans h.vfs, i.trim.trans h.trim, i.part.trans h.part, fun d => (i.retired d).trans (h.retired d)⟩

theorem TrimSame.skips (h : TrimSame b k s t) : trimSkips t b k = trimSkips s b k := by
  unfold trimSkips partUsed stepCount Berth.recWord monitored thrFilter railAvsCtl
  rw [h.ch, h.thr, h.graph0, h.part, h.retired, h.now]

theorem TrimSame.to (h : TrimSame b k s t) : trimTo t b k = trimTo s b k := by
  unfold trimTo partMv inOf codeToMv fullScale partVmax guardFloor stepVmin Berth.recWord
  dsimp only
  rw [h.ch, h.ins, h.vfs, h.trim, h.part]

theorem TrimSame.limits (h : TrimSame b k s t) : softLimits (t.at b) k = softLimits (s.at b) k := by
  unfold softLimits thrLow thrHigh
  rw [h.wide, h.thr]

theorem trimTurn_same (ne : k ≠ j) : TrimSame b k s (trimTurn b j s) := by
  unfold trimTurn
  split
  · exact .refl
  have works : Works b j (widened b j s) (avsWrite b j (trimTo s b j) false 0 (widened b j s)) := avsWrite_works
  have touch : Touch [.out, .pw] (widened b j s) (avsWrite b j (trimTo s b j) false 0 (widened b j s)) := avsWrite_touch sub_self .refl
  have rails : Touch [.rl] s (widened b j s) := State.updRl_touch sub_self .refl
  have scales : SameScales b (widened b j s) (avsWrite b j (trimTo s b j) false 0 (widened b j s)) := avsWrite_scales
  have pwSame : ((widened b j s).at b).pw = (s.at b).pw := rails.at_pw (by decide) b
  have rl : ((avsWrite b j (trimTo s b j) false 0 (widened b j s)).at b).rl = _ := (touch.at_rl (by decide) b).trans updRl_rl
  refine ⟨works.within.now, (touch.at_ch (by decide) b).trans (rails.at_ch (by decide) b), ?_, ?_, ?_, ?_, ?_, ?_,
    (works.others k ne).trans (partOf_of_rl rails), fun d => (works.controllers d).retired.trans ?_⟩
  · rw [rl]
  · rw [rl]
  · rw [rl]
  · rw [rl]
    exact vget_vset_ne ne.symm
  · rw [scales.vfs, pwSame]
  · rw [scales.trim, pwSame]
  · rw [avsOf, pwSame]
    rfl

/-- A partition that is to be trimmed has a write and its soft limits kept. -/
theorem trimTurn_trims (k : Fin 4) (go : trimSkips s b k.val = false) (moves : trimTo s b k.val ≠ (partOf s b k.val).setpoint) :
    (partOf (trimTurn b k.val s) b k.val).writing = true
    ∧ vget ((trimTurn b k.val s).at b).rl.wide k.val = some (softLimits (s.at b) k.val) := by
  have rails : Touch [.rl] s (widened b k.val s) := State.updRl_touch sub_self .refl
  have ctl : railAvsCtl ((widened b k.val s).at b) k.val = railAvsCtl (s.at b) k.val := by
    rw [railAvsCtl, widened, updRl_rl]
    rfl
  have drives : (avsOf (widened b k.val s) b (railAvsCtl ((widened b k.val s).at b) k.val)).retired = false := by
    rw [ctl, avsOf, rails.at_pw (by decide)]
    simp only [trimSkips, Bool.or_eq_false_iff] at go
    exact go.1.1.1.1.1.2
  rw [trimTurn, if_neg (by simp [go, moves])]
  refine ⟨congrArg Part.writing (avsWrite_part drives k.isLt), ?_⟩
  rw [(avsWrite_touch sub_self .refl).at_rl (by decide), widened, updRl_rl]
  exact vget_vset_self k.isLt

/-! ### The obligation -/

/-- The end of an attempt at a controller that writes: an answer that refuses it, or none. -/
theorem failed_runs {i : Instr} (front : (avsOf s b c.val).queue = w :: ws) (drives : (avsOf s b c.val).retired = false)
    (writes : avsReads (avsOf s b c.val) = false) (awake : s.dev.sleep = false) {crcOk : Bool} {ack : Fin 4}
    (ends : i = .avsResponse b c crcOk ack ∧ (crcOk = false ∨ ack ≠ 0) ∨ i = .avsResponseTimeout b c) :
    ∃ u, Heard b c s.begin u ∧ exec i s = ran s (avsFailed b c.val u) := by
  rcases ends with ⟨rfl, fails⟩ | rfl
  · have fails' : crcOk = false ∨ ack.val ≠ 0 := fails.imp_right fun ne eq => ne (Fin.ext eq)
    exact ⟨_, .answer ack.val, congrArg (ran s) (avsResponse_failed (s := s.begin) front drives writes awake fails')⟩
  · exact ⟨_, .silence, congrArg (ran s) (avsTimeout_failed (s := s.begin) front drives writes awake)⟩

/-- The end of a read at a controller, answered or not. -/
theorem read_runs {i : Instr} (drives : (avsOf s b c.val).retired = false) (reads : avsReads (avsOf s b c.val) = true)
    (awake : s.dev.sleep = false) {crcOk : Bool} {ack : Fin 4} (ends : i = .avsResponse b c crcOk ack ∨ i = .avsResponseTimeout b c) :
    ∃ u, Heard b c s.begin u ∧ exec i s = ran s (avsReadDone b c.val u) := by
  rcases ends with rfl | rfl
  · exact ⟨_, .answer ack.val, congrArg (ran s) (avsResponse_reads (s := s.begin) drives awake reads)⟩
  · exact ⟨_, .silence, congrArg (ran s) (avsTimeout_reads (s := s.begin) drives awake reads)⟩

/-- The third failure, once the write has been given up and its controller is not retired. -/
theorem givesUp_spec (lt : w.rail < 4) (drives : (avsOf s b c.val).retired = false)
    (keeps : (classEvent s b 5 (avsOf s b c.val).hist).1 = false) : ∃ u,
    avsGiveUp b c.val w (failNoted b c.val w ws s) = u ∧ (avsOf u b c.val).queue = ws ∧ (avsOf u b c.val).retired = false
    ∧ (avsOf u b c.val).fail = sinc (avsOf s b c.val).fail ∧ (partOf u b w.rail).setpoint = fallBack w (partOf s b w.rail).acked := by
  obtain ⟨log, touch, n, eq⟩ := avsGiveUp_eq (b := b) (c := c) (w := w) (s := failNoted b c.val w ws s)
  obtain ⟨hist, avs⟩ := givenUp_avs (b := b) (c := c) (w := w) (s := failNoted b c.val w ws s)
  have noted : Touch [.pw] s (failNoted b c.val w ws s) := updAvs_touch sub_self .refl
  have same : classEvent (failNoted b c.val w ws s) b 5 (avsOf (failNoted b c.val w ws s) b c.val).hist =
      classEvent s b 5 (avsOf s b c.val).hist := by
    rw [failNoted_avs]
    exact classEvent_congr noted.harbour_eq (noted.at_ch (by decide) b) fun d => congrArg Td.tide (noted.at_td (by decide) d)
  have pw : ((log (givenUp b c.val w (failNoted b c.val w ws s))).at b).pw = _ := (touch _).at_pw (by decide) b
  refine ⟨log (givenUp b c.val w (failNoted b c.val w ws s)), eq.trans (if_neg (by rw [same, keeps]; decide)), ?_⟩
  unfold avsOf partOf
  rw [pw]
  have setpoint := givenUp_setpoint (b := b) (c := c) (s := failNoted b c.val w ws s) lt
  rw [show partOf (failNoted b c.val w ws s) b w.rail = partOf s b w.rail from partOf_updAvs] at setpoint
  have ctl : vget ((givenUp b c.val w (failNoted b c.val w ws s)).at b).pw.avs c.val = _ := avs
  rw [ctl, failNoted_avs]
  exact ⟨rfl, drives, rfl, setpoint⟩

/-- The third failure where the history retires the controller. -/
theorem givesUp_retires (leaves : (classEvent s b 5 (avsOf s b c.val).hist).1 = true) :
    (avsOf (avsGiveUp b c.val w (failNoted b c.val w ws s)) b c.val).retired = true := by
  obtain ⟨log, -, n, eq⟩ := avsGiveUp_eq (b := b) (c := c) (w := w) (s := failNoted b c.val w ws s)
  have noted : Touch [.pw] s (failNoted b c.val w ws s) := updAvs_touch sub_self .refl
  have same : classEvent (failNoted b c.val w ws s) b 5 (avsOf (failNoted b c.val w ws s) b c.val).hist =
      classEvent s b 5 (avsOf s b c.val).hist := by
    rw [failNoted_avs]
    exact classEvent_congr noted.harbour_eq (noted.at_ch (by decide) b) fun d => congrArg Td.tide (noted.at_td (by decide) d)
  rw [eq, same, if_pos leaves]
  exact avsRetire_retired

theorem Heard.classEvent (h : Heard b c s t) : classEvent t b 5 (avsOf t b c.val).hist = classEvent s b 5 (avsOf s b c.val).hist := by
  obtain ⟨-, touch, -, -, ack, avs⟩ := h.spec
  rw [avs]
  exact classEvent_congr touch.harbour_eq (touch.at_ch (by decide) b) fun d => congrArg Td.tide (touch.at_td (by decide) d)

theorem EndsAs.avs (e : EndsAs u t) {d : Nat} : avsOf t b d = avsOf u b d := by rw [avsOf, e.at_eq, avsOf]

theorem EndsAs.part (e : EndsAs u t) : partOf t b k = partOf u b k := by rw [partOf, e.at_eq, partOf]

theorem avsOf_emit {o : Output} {d : Nat} : avsOf (s.emit o) b d = avsOf s b d := rfl

/-- An acknowledged setpoint write (R186, R187). -/
theorem acked_answers (front : (avsOf s b c.val).queue = w :: ws) (drives : (avsOf s b c.val).retired = false)
    (writes : avsReads (avsOf s b c.val) = false) (lt : w.rail < 4) (awake : s.dev.sleep = false) (later : w.powerUp = false) :
    Answers (.avsResponse b c true 0) s fun t => Keeps [b] s t
      ∧ (partOf t b w.rail).setpoint = w.mv ∧ (partOf t b w.rail).acked = w.mv ∧ (partOf t b w.rail).settling = some w.mv
      ∧ (avsOf t b c.val).queue.length = ws.length ∧ (avsOf t b c.val).fail = (avsOf s b c.val).fail := by
  have seen := ackSeen_avs (b := b) (c := c) (ack := 0) (s := s.begin)
  have front' : (avsOf (ackSeen b c.val 0 s.begin) b c.val).queue = w :: ws := (congrArg Avs.queue seen).trans front
  have run := (avsResponse_acked (s := s.begin) front drives writes awake).trans (avsAcked_eq front' later)
  refine answers_of_run (congrArg (ran s) run) fun t queue e => ?_
  have works := avsSend_works (b := b) (c := c.val) (k := w.rail) (s := frontAcked b c.val w ws (ackSeen b c.val 0 s.begin))
  have part := (avsSend_part (c := c.val) (s := frontAcked b c.val w ws (ackSeen b c.val 0 s.begin))).trans (frontAcked_part (b := b) lt)
  have within : Within b s.begin (frontAcked b c.val w ws (ackSeen b c.val 0 s.begin)) :=
    ackSeen_within.trans (updAvs_within.trans updPart_within)
  refine ⟨e.keeps queue (.ofBegin (within.trans works.within)), ?_⟩
  rw [e.part, e.avs, part, avsSend_length c.isLt, (works.controllers c.val).fail, frontAcked_avs, seen]
  exact ⟨rfl, rfl, if_neg (by simp [later]), rfl, rfl⟩

/-- An attempt that fails: it is made again, or the write is given up, and the controller perhaps retires (R186). -/
theorem failed_answers {i : Instr} {crcOk : Bool} {ack : Fin 4} (front : (avsOf s b c.val).queue = w :: ws)
    (drives : (avsOf s b c.val).retired = false) (writes : avsReads (avsOf s b c.val) = false) (lt : w.rail < 4) (awake : s.dev.sleep = false)
    (ends : i = .avsResponse b c crcOk ack ∧ (crcOk = false ∨ ack ≠ 0) ∨ i = .avsResponseTimeout b c) :
    (w.attempts + 1 < 3 → Answers i s fun t => Keeps [b] s t ∧ t.out = [.avsStatus b c.val]
      ∧ (avsOf t b c.val).queue = { w with attempts := w.attempts + 1 } :: ws ∧ (avsOf t b c.val).statusRead = true
      ∧ (avsOf t b c.val).confirm = some w.rail ∧ (avsOf t b c.val).fail = sinc (avsOf s b c.val).fail ∧ (t.at b).pw.parts = (s.at b).pw.parts)
    ∧ (3 ≤ w.attempts + 1 ∧ (classEvent s b 5 (avsOf s b c.val).hist).1 = false → Answers i s fun t =>
      (avsOf t b c.val).queue = ws ∧ (avsOf t b c.val).fail = sinc (avsOf s b c.val).fail
        ∧ (avsOf t b c.val).retired = false ∧ (partOf t b w.rail).setpoint =
          (if (partOf s b w.rail).acked = 0 then w.mv else min (partOf s b w.rail).acked w.mv)
        ∧ .avsStatus b c.val ∈ t.out)
    ∧ (3 ≤ w.attempts + 1 ∧ (classEvent s b 5 (avsOf s b c.val).hist).1 = true → Answers i s fun t =>
      (avsOf t b c.val).retired = true) := by
  obtain ⟨u, heard, run⟩ := failed_runs front drives writes awake ends
  obtain ⟨within, touch, out, parts, ack', avs⟩ := heard.spec
  have front' : (avsOf u b c.val).queue = w :: ws := (congrArg Avs.queue avs).trans front
  have drives' : (avsOf u b c.val).retired = false := (congrArg Avs.retired avs).trans drives
  have failed : (avsOf u b c.val).fail = (avsOf s b c.val).fail := by
    rw [avs]
    rfl
  have class' : classEvent u b 5 (avsOf u b c.val).hist = classEvent s b 5 (avsOf s b c.val).hist :=
    heard.classEvent.trans (classEvent_congr rfl rfl fun _ => rfl)
  refine ⟨fun few => ?_, fun ⟨many, keeps⟩ => ?_, fun ⟨many, leaves⟩ => ?_⟩
  · rw [avsFailed_retries front' drives' few] at run
    refine answers_of_run run fun t queue e => ?_
    refine ⟨e.keeps queue (.ofBegin (within.trans (updAvs_within.trans .emit))), e.out.trans (congrArg (· ++ _) out), ?_⟩
    rw [e.avs, e.at_eq, avsOf_emit, failNoted_avs]
    exact ⟨rfl, rfl, rfl, congrArg sinc failed, parts_updAvs.trans parts⟩
  · rw [avsFailed_gives front' many] at run
    obtain ⟨v, gives, queue', retired, fail, setpoint⟩ := givesUp_spec (ws := ws) lt drives' (class' ▸ keeps)
    rw [gives, statusAsked, retired, if_neg (by decide)] at run
    refine answers_of_run run fun t queue e => ?_
    have acked : partOf u b w.rail = partOf s b w.rail := congrArg (vget · w.rail) parts
    rw [failed] at fail
    rw [acked, fallBack] at setpoint
    simp only [beq_iff_eq] at setpoint
    rw [e.avs, e.part]
    exact ⟨queue', fail, retired, setpoint, by rw [e.out]; exact List.mem_append_right _ List.mem_cons_self⟩
  · rw [avsFailed_gives front' many] at run
    have retired := givesUp_retires (b := b) (c := c) (w := w) (ws := ws) (s := u) (class' ▸ leaves)
    rw [statusAsked, if_pos retired] at run
    refine answers_of_run run fun t queue e => ?_
    rw [e.avs]
    exact retired

/-- The reads that follow a failed attempt (R185, R186). -/
theorem read_answers {i : Instr} {crcOk : Bool} {ack : Fin 4} (drives : (avsOf s b c.val).retired = false)
    (rail : (avsOf s b c.val).confirm = some r) (awake : s.dev.sleep = false)
    (ends : i = .avsResponse b c crcOk ack ∨ i = .avsResponseTimeout b c) :
    ((avsOf s b c.val).statusRead = true → Answers i s fun t => Keeps [b] s t ∧ AgreeOff [.out, .pw] s t
      ∧ t.out = [.avsTarget b c.val (railAvsSel (s.at b) r)] ∧ (avsOf t b c.val).queue = (avsOf s b c.val).queue
      ∧ (avsOf t b c.val).statusRead = false ∧ (avsOf t b c.val).confirm = some r)
    ∧ (∀ w ws, (avsOf s b c.val).statusRead = false ∧ (avsOf s b c.val).queue = w :: ws ∧ w.statusFirst = false →
      Answers i s fun t => Keeps [b] s t ∧ t.out = [.avsWrite b c.val (railAvsSel (s.at b) w.rail) w.mv]
        ∧ avsReads (avsOf t b c.val) = false) := by
  have reads : avsReads (avsOf s b c.val) = true := by rw [avsReads, rail, Option.isSome_some, Bool.or_true]
  obtain ⟨u, heard, run⟩ := read_runs drives reads awake ends
  obtain ⟨within, touch, out, -, ack', avs⟩ := heard.spec
  have rl : (u.at b).rl = (s.at b).rl := touch.at_rl (by decide) b
  refine ⟨fun asked => ?_, fun w ws ⟨read, front, later⟩ => ?_⟩
  · rw [avsReadDone_target ((congrArg Avs.statusRead avs).trans asked) ((congrArg Avs.confirm avs).trans rail), railAvsSel, rl] at run
    refine answers_of_run run fun t queue e => ?_
    have sends : Touch [.out, .pw] s.begin ((updAvs b c.val (fun a => { a with statusRead := false }) u).emit
        (.avsTarget b c.val (railAvsSel (s.at b) r))) :=
      State.emit_touch (by decide) (updAvs_touch (by decide) (touch.mono (by decide)))
    refine ⟨e.keeps queue (.ofBegin (within.trans (updAvs_within.trans .emit))), e.agreeOff_begin (by decide) sends,
      e.out.trans (congrArg (· ++ _) out), ?_⟩
    rw [e.avs, avsOf_emit, avsOf_updAvs_self c.isLt, avs]
    exact ⟨rfl, rfl, rail⟩
  · have next : avsOf (updAvs b c.val (fun a => { a with statusRead := false, confirm := none }) u) b c.val =
      { avsOf u b c.val with statusRead := false, confirm := none } := avsOf_updAvs_self c.isLt
    have front' : (avsOf (updAvs b c.val (fun a => { a with statusRead := false, confirm := none }) u) b c.val).queue = w :: ws :=
      (congrArg Avs.queue next).trans ((congrArg Avs.queue avs).trans front)
    have rl' : ((updAvs b c.val (fun a => { a with statusRead := false, confirm := none }) u).at b).rl = (s.at b).rl :=
      ((updAvs_touch sub_self .refl).at_rl (by decide) b).trans rl
    rw [avsReadDone_next ((congrArg Avs.statusRead avs).trans read), avsSend_write front' later, railAvsSel, rl'] at run
    refine answers_of_run run fun t queue e => ?_
    refine ⟨e.keeps queue (.ofBegin (within.trans (updAvs_within.trans (updAvs_within.trans .emit)))),
      e.out.trans (congrArg (· ++ _) out), ?_⟩
    rw [e.avs, avsOf_emit, avsOf_updAvs_self c.isLt, next]
    rfl

/-- A voltage change that does not settle in time is written again (R187). -/
theorem unsettled_answers (k : Fin 4) (moves : (partOf s b k.val).settling = some mv) (off : readingOk s b k.val mv = false)
    (drives : (avsOf s b (railAvsCtl (s.at b) k.val)).retired = false) (few : (partOf s b k.val).tries < 3) :
    Answers (.settleTimeout b k) s fun t => Keeps [b] s t ∧ (partOf t b k.val).settling = none
      ∧ (partOf t b k.val).writing = true
      ∧ (avsOf t b (railAvsCtl (s.at b) k.val)).fail = sinc (avsOf s b (railAvsCtl (s.at b) k.val)).fail := by
  obtain ⟨idle, run⟩ := settleTimeout_eq (s := s.begin) moves off drives few
  refine answers_of_run (congrArg (ran s) run) fun t queue e => ?_
  dsimp only at e
  have within : Within b s.begin (unsettled b k.val s.begin) := updPart_within.trans updAvs_within
  have again := requeued_works (b := b) (k := k.val) (s := unsettled b k.val s.begin) (c := railAvsCtl (s.at b) k.val)
    (w := ⟨k.val, mv, false, (partOf s b k.val).tries, true⟩)
  have part : partOf (requeued b k.val ⟨k.val, mv, false, (partOf s b k.val).tries, true⟩ (railAvsCtl (s.at b) k.val)
      (unsettled b k.val s.begin)) b k.val = { partOf s b k.val with settling := none, writing := true } := by
    rw [requeued, partOf_updPart_self k.isLt, partOf_updAvs, unsettled, partOf_updAvs, partOf_updPart_self k.isLt]
    rfl
  have fail := (again.controllers (railAvsCtl (s.at b) k.val)).fail
  rw [show avsOf (unsettled b k.val s.begin) b (railAvsCtl (s.at b) k.val) = _ from unsettled_avs] at fail
  cases idle with
  | true =>
    have sent := avsSend_works (b := b) (k := k.val) (c := railAvsCtl (s.at b) k.val) (s :=
      requeued b k.val ⟨k.val, mv, false, (partOf s b k.val).tries, true⟩ (railAvsCtl (s.at b) k.val) (unsettled b k.val s.begin))
    refine ⟨e.keeps queue (.ofBegin (within.trans (again.within.trans sent.within))), ?_⟩
    rw [e.part, e.avs]
    refine ⟨(congrArg Part.settling (avsSend_part.trans part)), congrArg Part.writing (avsSend_part.trans part), ?_⟩
    exact ((sent.controllers _).fail).trans fail
  | false =>
    refine ⟨e.keeps queue (.ofBegin (within.trans again.within)), ?_⟩
    rw [e.part, e.avs]
    exact ⟨congrArg Part.settling part, congrArg Part.writing part, fail⟩

/-- Settles O23: answers on AVSBus, settling and trim. -/
theorem setpointsAndTrim : Obligations.SetpointsAndTrim := by
  unfold Obligations.SetpointsAndTrim
  refine ⟨fun s b c w ws ⟨front, drives, writes, lt, awake⟩ =>
      ⟨acked_answers front drives writes lt awake, fun crcOk ack i ends => failed_answers front drives writes lt awake ends⟩,
    fun s b c r ⟨drives, rail, awake⟩ crcOk ack i ends => read_answers drives rail awake ends,
    fun s b => ⟨fun k mv ⟨moves, reads⟩ => ?_, fun k mv ⟨moves, off, drives, few⟩ => unsettled_answers k moves off drives few,
      fun ⟨trims, up⟩ => ?_, fun off => ?_⟩⟩
  · refine answers_of_run (congrArg (ran s) (voltageSettle_eq (s := s.begin) moves reads)) fun t queue e => ?_
    refine ⟨e.keeps queue (.ofBegin updPart_within), e.agreeOff_begin (by decide) (State.updPart_touch (by decide) .refl), ?_⟩
    rw [e.part]
    exact partOf_updPart_self (s := s.begin) k.isLt
  · refine answers_of_run (congrArg (ran s) (trimTick_eq (s := s.begin) trims up)) fun t queue e => ?_
    refine ⟨e.keeps queue (.ofBegin (.iter fun j u => .ite .refl (updRl_within.trans (avsWrite_works).within))),
      fun k go ⟨_, moves⟩ => ?_⟩
    rw [e.part, e.at_eq]
    refine iter_turn (x := k.val) (P := TrimSame b k.val s.begin) (Q := fun t => (partOf t b k.val).writing = true
      ∧ vget (t.at b).rl.wide k.val = some (softLimits (s.at b) k.val)) (List.mem_range.mpr k.isLt) List.nodup_range
      .refl (fun j u ne same => same.trans (trimTurn_same ne.symm)) (fun u same => ?_) (fun j u ne ⟨writing, wide⟩ => ?_)
    · obtain ⟨writing, wide⟩ := trimTurn_trims (b := b) (s := u) k (same.skips.trans go) (by rw [same.to, same.part]; exact moves)
      exact ⟨writing, wide.trans (congrArg some same.limits)⟩
    · have same := trimTurn_same (b := b) (s := u) ne.symm
      exact ⟨(congrArg Part.writing same.part).trans writing, same.wide.trans wide⟩
  · refine answers_of_run (congrArg (ran s) (trimTick_idle (s := s.begin) off)) fun t queue e => ?_
    exact e.agreeOff_begin (by decide) .refl

end

end Sys2Proof.Machine

/-! The log region of the harbour's flash (R165 to R169). -/
namespace Sys2Proof.Machine
set_option Elab.async false

section
variable {s t u : State} {b h o : BId} {own : Bool} {recs : List LogRec} {buf : Option Nat}

/-! ### The log writer's steps -/

theorem updLog_log {f : LogSt → LogSt} : ((s.updLog h f).at h).log = f (s.at h).log := by rw [State.updLog_at, if_pos rfl]

theorem updLog_within {f : LogSt → LogSt} : Within h s (s.updLog h f) := .upd

/-- The fields of a log writer that starting its next flash operation sets. -/
structure Pumped (l l' : LogSt) : Prop where
  on : l'.on = l.on
  drop : l'.drop = l.drop
  lossDue : l'.lossDue = l.lossDue
  cur : l'.cur = l.cur
  curBuf : l'.curBuf = l.curBuf
  queue : l'.queue = l.queue
  originDrop : l'.originDrop = l.originDrop
  finding : l'.finding = l.finding
  ready : l'.ready = l.ready
  sector : l'.sector = l.sector
  gen : l'.gen = l.gen
  torn : l'.torn = l.torn
  guard : l'.guard = l.guard

theorem Pumped.refl {l : LogSt} : Pumped l l := ⟨rfl, rfl, rfl, rfl, rfl, rfl, rfl, rfl, rfl, rfl, rfl, rfl, rfl⟩

theorem Pumped.trans {l l' l'' : LogSt} (h : Pumped l l') (i : Pumped l' l'') : Pumped l l'' :=
  ⟨i.on.trans h.on, i.drop.trans h.drop, i.lossDue.trans h.lossDue, i.cur.trans h.cur, i.curBuf.trans h.curBuf, i.queue.trans h.queue,
    i.originDrop.trans h.originDrop, i.finding.trans h.finding, i.ready.trans h.ready, i.sector.trans h.sector, i.gen.trans h.gen,
    i.torn.trans h.torn, i.guard.trans h.guard⟩

theorem updLog_pumped {f : LogSt → LogSt} (keeps : ∀ l, Pumped l (f l)) : Pumped (s.at b).log ((s.updLog h f).at b).log := by
  rw [State.updLog_at]
  split
  · exact keeps _
  · exact .refl

theorem logOpenSector_pumped {off gen : Nat} : Pumped (s.at b).log ((logOpenSector h off gen s).at b).log :=
  updLog_pumped fun _ => ⟨rfl, rfl, rfl, rfl, rfl, rfl, rfl, rfl, rfl, rfl, rfl, rfl, rfl⟩

theorem logStartOp_pumped : Pumped (s.at b).log ((logStartOp h s).at b).log := by
  refine updLog_pumped fun l => ?_
  cases l.ops with
  | nil => exact .refl
  | cons op ops => exact ⟨rfl, rfl, rfl, rfl, rfl, rfl, rfl, rfl, rfl, rfl, rfl, rfl, rfl⟩

theorem logPump_pumped : Pumped (s.at b).log ((logPump h s).at b).log := by
  unfold logPump
  extract_lets l
  split
  · exact .refl
  split
  · exact logStartOp_pumped
  split
  · exact .refl
  split
  · split
    · exact logOpenSector_pumped.trans logStartOp_pumped
    · exact updLog_pumped fun _ => ⟨rfl, rfl, rfl, rfl, rfl, rfl, rfl, rfl, rfl, rfl, rfl, rfl, rfl⟩
  · exact .refl

/-- The queue with a buffer of records added. -/
def withRecords (l : LogSt) (own : Bool) (recs : List LogRec) (buf : Option Nat) : LogSt :=
  if l.awaitReset && own then { l with queue := (recs, buf) :: l.queue, awaitReset := false }
  else { l with queue := l.queue ++ [(recs, buf)] }

theorem logTake_pumped : Pumped (withRecords (s.at h).log own recs buf) ((logTake h own recs buf s).at h).log := by
  unfold logTake
  extract_lets s'
  have told : Touch [.freeCtr, .dk, .us] s' (iter recs (fun r t => telemetry 1 (recBytes r) t) s') :=
    .iter (fun r t kept => telemetry_touch sub_self kept) .refl
  have pumped := logPump_pumped (b := h) (h := h) (s := iter recs (fun r t => telemetry 1 (recBytes r) t) s')
  rw [told.at_log (by decide), show (s'.at h).log = _ from updLog_log] at pumped
  exact pumped

/-- The records join the queue. -/
theorem mem_withRecords {l : LogSt} : (recs, buf) ∈ (withRecords l own recs buf).queue := by
  unfold withRecords
  split
  · exact List.mem_cons_self
  · exact List.mem_append_right _ List.mem_cons_self

theorem logSend_nil (empty : (s.at h).log.cur = []) : logSend h s = s := if_pos (by rw [empty]; rfl)

theorem logSend_harbour (some : (s.at h).log.cur ≠ []) (role : s.isHbr h = true) : logSend h s =
    logTake h true (s.at h).log.cur (s.at h).log.curBuf (s.updLog h fun l => { l with cur := [], curBuf := none }) := by
  unfold logSend
  extract_lets l t
  rw [if_neg (by simpa [l] using some), if_pos role]

theorem logRec_eq {ty : Nat} {p0 p1 p2 : Word} {g : Nat} (on : (s.at h).log.on = true) (opened : (s.at h).log.curBuf = some g)
    (none : (s.at h).log.lossDue = 0) : logRec h ty p0 p1 p2 s = logPush h ty p0 p1 p2 s := by
  have open' : logOpen h s = (true, s) := by
    unfold logOpen
    rw [opened]
  have loss : logLoss h s = s := if_pos (by rw [none]; rfl)
  unfold logRec
  rw [if_neg (by simp [on]), open']
  dsimp only
  rw [loss, open']

/-! ### Arrivals (R165) -/

theorem vset_eq_vmod {α : Type} [Inhabited α] {n i : Nat} {v : Vector α n} {f : α → α} : vmod v i f = vset v i (f (vget v i)) := rfl

section
variable (role : s.isHbr h = true) (on : (s.at h).log.on = true)
include role on

theorem logBufferArrive_full (full : deckAlloc h 3 false s = (none, t)) :
    logBufferArrive h o recs s = logArriveDrop h o recs.length t := by
  unfold logBufferArrive
  rw [if_neg (by rw [role, on]; decide), full]

theorem logBufferArrive_takes {g : Nat} (taken : deckAlloc h 3 false s = (some g, t)) (told : logOriginLoss h o t = (true, u)) :
    logBufferArrive h o recs s = logTake h false recs (some g) u := by
  unfold logBufferArrive
  rw [if_neg (by rw [role, on]; decide), taken]
  dsimp only
  rw [told]

end

theorem logOriginLoss_none (kept : vget (s.at h).log.originDrop o.val = 0) : logOriginLoss h o s = (true, s) :=
  if_pos (by rw [kept]; rfl)

/-- The arriving records join the queue's end. -/
theorem withRecords_other {l : LogSt} : withRecords l false recs buf = { l with queue := l.queue ++ [(recs, buf)] } :=
  if_neg (by simp)

/-- The LOSS record for what the harbour dropped of berth o. -/
def lossRec (h o : BId) (s : State) : LogRec := mkRec s h 0x04 (wordOf (vget (s.at h).log.originDrop o.val)) (wordOf o.val) 0

/-- The LOSS record in the part-filled buffer. -/
def lossPushed (h o : BId) (s : State) : State :=
  s.updLog h fun l => { l with seq := (l.seq + 1) % 2 ^ 32, cur := l.cur ++ [lossRec h o s] }

theorem lossPushed_log : ((lossPushed h o s).at h).log =
    { (s.at h).log with seq := ((s.at h).log.seq + 1) % 2 ^ 32, cur := (s.at h).log.cur ++ [lossRec h o s] } := updLog_log

/-- What the harbour holds once the LOSS record of berth o waits in its queue. -/
structure LossQueued (h : BId) (r : LogRec) (s : State) : Prop where
  queued : ∃ rs g, (rs, g) ∈ (s.at h).log.queue ∧ r ∈ rs
  lossDue : (s.at h).log.lossDue = 0
  cur : (s.at h).log.cur = []

theorem withRecords_kept {l : LogSt} : (withRecords l own recs buf).lossDue = l.lossDue ∧ (withRecords l own recs buf).cur = l.cur
    ∧ (withRecords l own recs buf).originDrop = l.originDrop := by
  unfold withRecords
  split
  · exact ⟨rfl, rfl, rfl⟩
  · exact ⟨rfl, rfl, rfl⟩

/-- The harbour's part-filled buffer with the LOSS record goes to its queue. -/
theorem logSend_loss {r : LogRec} (role : s.isHbr h = true) (mem : r ∈ (s.at h).log.cur) (told : (s.at h).log.lossDue = 0) :
    LossQueued h r (logSend h s) ∧ ((logSend h s).at h).log.originDrop = (s.at h).log.originDrop := by
  have pumped := logTake_pumped (h := h) (own := true) (recs := (s.at h).log.cur) (buf := (s.at h).log.curBuf)
    (s := s.updLog h fun l => { l with cur := [], curBuf := none })
  rw [updLog_log] at pumped
  obtain ⟨lossDue, cur, originDrop⟩ := withRecords_kept (own := true) (recs := (s.at h).log.cur) (buf := (s.at h).log.curBuf)
    (l := { (s.at h).log with cur := [], curBuf := none })
  rw [logSend_harbour (List.ne_nil_of_mem mem) role]
  refine ⟨⟨⟨(s.at h).log.cur, (s.at h).log.curBuf, ?_, mem⟩, pumped.lossDue.trans (lossDue.trans told), pumped.cur.trans cur⟩,
    pumped.originDrop.trans originDrop⟩
  rw [pumped.queue]
  exact mem_withRecords

/-- With the LOSS record told and berth o's count cleared, the arriving buffer may follow. -/
theorem logOriginLoss_told {g : Nat} (role : s.isHbr h = true) (on : (s.at h).log.on = true) (opened : (s.at h).log.curBuf = some g)
    (none' : (s.at h).log.lossDue = 0) (due : vget (s.at h).log.originDrop o.val ≠ 0) : ∃ u,
    logOriginLoss h o s = (true, u) ∧ LossQueued h (lossRec h o s) u ∧ vget (u.at h).log.originDrop o.val = 0 := by
  have push : logRec h 0x04 (wordOf (vget (s.at h).log.originDrop o.val)) (wordOf o.val) 0 s =
      if ((lossPushed h o s).at h).log.cur.length ≥ 8 then logSend h (lossPushed h o s) else lossPushed h o s :=
    logRec_eq on opened none'
  have pushedRole : (lossPushed h o s).isHbr h = true :=
    (congrArg Sy.isHarbour ((State.updLog_touch (fs := [.log]) sub_self .refl).at_sy (by decide) h)).trans role
  have pushedMem : lossRec h o s ∈ ((lossPushed h o s).at h).log.cur := by
    rw [lossPushed_log]
    exact List.mem_append_right _ List.mem_cons_self
  have pushedDue : ((lossPushed h o s).at h).log.lossDue = 0 := by
    rw [lossPushed_log]
    exact none'
  unfold logOriginLoss
  extract_lets n s1
  rw [if_neg (by simpa [n] using due)]
  by_cases full : ((lossPushed h o s).at h).log.cur.length ≥ 8
  · obtain ⟨queued, -⟩ := logSend_loss pushedRole pushedMem pushedDue
    rw [show s1 = logSend h (lossPushed h o s) from push.trans (if_pos full)]
    rw [if_neg (by rw [queued.lossDue]; decide), logSend_nil (by rw [updLog_log]; exact queued.cur)]
    refine ⟨_, rfl, ?_, ?_⟩
    · constructor
      all_goals rw [updLog_log]
      · exact queued.queued
      · exact queued.lossDue
      · exact queued.cur
    · rw [updLog_log]
      exact vget_vset_self o.isLt
  · rw [show s1 = lossPushed h o s from push.trans (if_neg full)]
    rw [if_neg (by rw [pushedDue]; decide)]
    have clearedRole : ((lossPushed h o s).updLog h fun l => { l with originDrop := vset l.originDrop o.val 0 }).isHbr h = true :=
      (congrArg Sy.isHarbour ((State.updLog_touch (fs := [.log]) sub_self .refl).at_sy (by decide) h)).trans pushedRole
    obtain ⟨queued, drop⟩ := logSend_loss (r := lossRec h o s) clearedRole (by rw [updLog_log]; exact pushedMem) (by rw [updLog_log]; exact pushedDue)
    refine ⟨_, rfl, queued, ?_⟩
    rw [drop, updLog_log]
    exact vget_vset_self o.isLt

/-! ### The region's head (R167, R169) -/

/-- A log writer's sector, its generation and its torn slots. -/
structure SameRegion (l l' : LogSt) : Prop where
  sector : l'.sector = l.sector
  gen : l'.gen = l.gen
  torn : l'.torn = l.torn

theorem SameRegion.refl {l : LogSt} : SameRegion l l := ⟨rfl, rfl, rfl⟩

theorem SameRegion.trans {l l' l'' : LogSt} (h : SameRegion l l') (i : SameRegion l' l'') : SameRegion l l'' :=
  ⟨i.sector.trans h.sector, i.gen.trans h.gen, i.torn.trans h.torn⟩

theorem Pumped.region {l l' : LogSt} (h : Pumped l l') : SameRegion l l' := ⟨h.sector, h.gen, h.torn⟩

/-- The region's head of berth c is the same. -/
def RegionKept (c : BId) (s t : State) : Prop := SameRegion (s.at c).log (t.at c).log

theorem RegionKept.refl {c : BId} : RegionKept c s s := SameRegion.refl

theorem RegionKept.trans {c : BId} (h : RegionKept c s t) (i : RegionKept c t u) : RegionKept c s u := SameRegion.trans h i

theorem RegionKept.of_touch {c : BId} {fs : List Piece} (h : Touch fs s t) (out : Piece.log ∉ fs) : RegionKept c s t := by
  rw [RegionKept, h.at_log out]
  exact .refl

theorem updLog_region {c : BId} {f : LogSt → LogSt} (keeps : ∀ l, SameRegion l (f l)) : RegionKept c s (s.updLog b f) := by
  rw [RegionKept, State.updLog_at]
  split
  · exact keeps _
  · exact .refl

theorem withRecords_region {l : LogSt} : SameRegion l (withRecords l own recs buf) := by
  unfold withRecords
  split
  · exact ⟨rfl, rfl, rfl⟩
  · exact ⟨rfl, rfl, rfl⟩

theorem logTake_region {c : BId} : RegionKept c s (logTake b own recs buf s) := by
  unfold logTake
  extract_lets s'
  have told : Touch [.freeCtr, .dk, .us] s' (iter recs (fun r t => telemetry 1 (recBytes r) t) s') :=
    .iter (fun r t kept => telemetry_touch sub_self kept) .refl
  have joined : RegionKept c s s' := updLog_region fun l => withRecords_region (own := own) (recs := recs) (buf := buf)
  exact (joined.trans (.of_touch told (by decide))).trans logPump_pumped.region

theorem logSend_region {c : BId} : RegionKept c s (logSend b s) := by
  unfold logSend
  extract_lets l t
  have cleared : RegionKept c s t := updLog_region fun _ => ⟨rfl, rfl, rfl⟩
  split
  · exact .refl
  split
  · exact cleared.trans logTake_region
  · have sent : RegionKept c s (ringSend b (some (s.at b).sy.harbour) (.logBuffer l.cur) t) :=
      cleared.trans (.of_touch (ringSend_touch sub_self .refl) (by decide))
    split
    · exact sent.trans (.of_touch (deckRelease_touch sub_self .refl) (by decide))
    · exact sent

theorem logPush_region {c : BId} {ty : Nat} {p0 p1 p2 : Word} : RegionKept c s (logPush b ty p0 p1 p2 s) := by
  unfold logPush
  extract_lets r s'
  have pushed : RegionKept c s s' := updLog_region fun _ => ⟨rfl, rfl, rfl⟩
  split
  · exact pushed.trans logSend_region
  · exact pushed

theorem logLoss_region {c : BId} : RegionKept c s (logLoss b s) := by
  unfold logLoss
  extract_lets n
  have told : RegionKept c s (s.updLog b fun l => { l with lossDue := 0 }) := updLog_region fun _ => ⟨rfl, rfl, rfl⟩
  split
  · exact .refl
  · exact told.trans logPush_region

theorem logOpen_region {c : BId} : RegionKept c s (logOpen b s).2 := by
  unfold logOpen
  split
  · exact .refl
  · split
    case h_1 g t eq =>
      have taken : RegionKept c s t := .of_touch (deckAlloc_touch_eq sub_self eq .refl) (by decide)
      exact taken.trans (updLog_region fun _ => ⟨rfl, rfl, rfl⟩)
    case h_2 t eq => exact .of_touch (deckAlloc_touch_eq sub_self eq .refl) (by decide)

theorem logDropOne_region {c : BId} : RegionKept c s (logDropOne b s) := updLog_region fun _ => ⟨rfl, rfl, rfl⟩

theorem logRec_region {c : BId} {ty : Nat} {p0 p1 p2 : Word} : RegionKept c s (logRec b ty p0 p1 p2 s) := by
  have first := logOpen_region (s := s) (b := b) (c := c)
  unfold logRec
  split
  · exact .refl
  split
  case h_1 t eq =>
    rw [eq] at first
    exact first.trans logDropOne_region
  case h_2 t eq =>
    rw [eq] at first
    have second := logOpen_region (s := logLoss b t) (b := b) (c := c)
    split
    case h_1 u eq' =>
      rw [eq'] at second
      exact ((first.trans logLoss_region).trans second).trans logPush_region
    case h_2 u eq' =>
      rw [eq'] at second
      exact ((first.trans logLoss_region).trans second).trans logDropOne_region

theorem dfuEnd_region {c : BId} {status ver : Nat} : RegionKept c s (dfuEnd b status ver s) := by
  unfold dfuEnd
  extract_lets gs s'
  have ended : Touch [.dk, .us] s (releaseAll gs s') := releaseAll_touch (by decide) (updUs_touch (by decide) .refl)
  exact RegionKept.trans (.of_touch ended (by decide)) logRec_region

theorem dfuPump_region {c : BId} : RegionKept c s (dfuPump b s) := by
  unfold dfuPump
  extract_lets u d base f n
  split
  · exact .refl
  split
  · exact dfuEnd_region
  split
  · exact .refl
  split
  · exact .of_touch (updDfu_touch sub_self .refl) (by decide)
  split
  · exact .refl
  · exact .of_touch (updDfu_touch sub_self .refl) (by decide)

theorem flashFree_region {c : BId} : RegionKept c s (flashFree true h s) := by
  have pumped : RegionKept c s (dfuPump h s) := dfuPump_region
  exact (pumped.trans (.of_touch (dfuBlockDone_touch sub_self .refl) (by decide))).trans logPump_pumped.region

/-- With no download the log alone goes on, and keeps its queue. -/
theorem flashFree_queue (idle : (s.at h).us.dfu.active = false) : ((flashFree true h s).at h).log.queue = (s.at h).log.queue := by
  have stays : dfuPump h s = s := if_pos (by simp [usOf, idle])
  have done : Touch [.dk, .us] s (dfuBlockDone h s) := dfuBlockDone_touch sub_self .refl
  have pumped := logPump_pumped (b := h) (h := h) (s := dfuBlockDone h s)
  rw [show flashFree true h s = logPump h (dfuBlockDone h (dfuPump h s)) from rfl, stays, pumped.queue, done.at_log (by decide)]

/-! ### Programs and erases (R167, R169) -/

/-- One byte's program. -/
def programByte (off : Nat) (m : Mem) (e : Nat × Byte) : Mem := memSet flashD m (off + e.1) (memGet flashD m (off + e.1) &&& e.2)

theorem flashProgram_eq {off : Nat} {bs : List Byte} {m : Mem} : flashProgram off bs m = ((upto bs.length).zip bs).foldl (programByte off) m := rfl

/-- Programs elsewhere leave a byte. -/
theorem memGet_program_out {off a : Nat} {xs : List (Nat × Byte)} {m : Mem} (out : ∀ e ∈ xs, off + e.1 ≠ a) :
    memGet flashD (xs.foldl (programByte off) m) a = memGet flashD m a := by
  induction xs generalizing m with
  | nil => rfl
  | cons e xs ih =>
    rw [List.foldl_cons, ih fun e' mem => out e' (List.mem_cons_of_mem _ mem)]
    exact memGet_memSet_ne (Ne.symm (out e List.mem_cons_self))

/-- A program clears bits of the byte it names. -/
theorem memGet_program {off : Nat} {xs : List (Nat × Byte)} {m : Mem} {e : Nat × Byte} (wf : memWf flashD none m = true)
    (distinct : (xs.map Prod.fst).Nodup) (mem : e ∈ xs) :
    memGet flashD (xs.foldl (programByte off) m) (off + e.1) = memGet flashD m (off + e.1) &&& e.2 := by
  induction xs generalizing m with
  | nil => exact absurd mem List.not_mem_nil
  | cons x xs ih =>
    obtain ⟨new, distinct'⟩ := List.nodup_cons.mp (List.map_cons ▸ distinct : (x.1 :: xs.map Prod.fst).Nodup)
    rw [List.foldl_cons]
    rcases List.mem_cons.mp mem with rfl | later
    · rw [memGet_program_out fun e' mem' eq => new (List.mem_map.mpr ⟨e', mem', by omega⟩)]
      exact memGet_memSet_self wf
    · have ne : e.1 ≠ x.1 := fun eq => new (eq ▸ List.mem_map_of_mem later)
      rw [ih (m := programByte off m x) (memSet_wf wf rfl) distinct' later]
      exact congrArg (· &&& e.2) (memGet_memSet_ne (by omega))

theorem zip_upto {bs : List Byte} : ((upto bs.length).zip bs).map Prod.fst = upto bs.length :=
  List.map_fst_zip (by simp [upto])

theorem flashProgram_out {off a : Nat} {bs : List Byte} {m : Mem} (out : a < off ∨ off + bs.length ≤ a) :
    memGet flashD (flashProgram off bs m) a = memGet flashD m a := by
  rw [flashProgram_eq]
  refine memGet_program_out fun e mem eq => ?_
  have lt := List.mem_range.mp (List.of_mem_zip mem).1
  omega

/-- Bytes programmed into erased flash stand there. -/
theorem memRead_flashProgram {off : Nat} {bs : List Byte} {m : Mem} (wf : memWf flashD none m = true)
    (erased : ∀ i, i < bs.length → memGet flashD m (off + i) = 0xFF) : memRead flashD (flashProgram off bs m) off bs.length = bs := by
  refine List.ext_getElem (by simp [memRead, upto]) fun i lt lt' => ?_
  have mem : (i, bs[i]) ∈ (upto bs.length).zip bs := by
    refine List.mem_iff_getElem.mpr ⟨i, by simp [upto, lt'], ?_⟩
    simp [upto]
  have byte := memGet_program (off := off) wf (by rw [zip_upto]; exact List.nodup_range) mem
  rw [← flashProgram_eq, erased i lt'] at byte
  simp only [memRead, upto, List.getElem_map, List.getElem_range]
  refine byte.trans ?_
  show BitVec.allOnes 8 &&& bs[i] = bs[i]
  exact BitVec.allOnes_and

theorem recBytes_length {r : LogRec} : (recBytes r).length = 32 := by
  simp [recBytes, wordsBytes, leBytes_length]

theorem memGet_filter {m : Mem} {p : Nat → Bool} {a : Nat} :
    memGet flashD (m.filter fun c => p c.1) a = if p a then memGet flashD m a else flashD := by
  induction m with
  | nil => split <;> rfl
  | cons e m ih =>
    obtain ⟨k, v⟩ := e
    by_cases keep : p k = true
    · rw [List.filter_cons_of_pos (p := fun c : Host.Cell => p c.1) keep]
      simp only [memGet, ih]
      by_cases same : k = a
      · rw [if_pos same, if_pos same, if_pos (same ▸ keep)]
      · rw [if_neg same, if_neg same]
    · rw [List.filter_cons_of_neg (p := fun c : Host.Cell => p c.1) keep, ih]
      simp only [memGet]
      by_cases same : k = a
      · rw [if_neg (same ▸ keep), if_neg (same ▸ keep)]
      · rw [if_neg same]

theorem memGet_flashErase {off n a : Nat} {m : Mem} :
    memGet flashD (flashErase off n m) a = if off ≤ a ∧ a < off + n then 0xFF else memGet flashD m a := by
  refine (memGet_filter (p := fun k => !(decide (off ≤ k) && decide (k < off + n)))).trans ?_
  by_cases inside : off ≤ a ∧ a < off + n
  · rw [if_pos inside, if_neg (by simp [inside])]
  · rw [if_neg inside, if_pos (by simp only [Bool.not_eq_true', Bool.and_eq_false_iff, decide_eq_false_iff_not]; omega)]

theorem upd_flash {f : Mem → Mem} : ((s.upd h fun x => { x with flash := f x.flash }).at h).flash = f (s.at h).flash := by
  rw [State.upd_at, if_pos rfl]

theorem upd_flash_log {f : Mem → Mem} : ((s.upd h fun x => { x with flash := f x.flash }).at h).log = (s.at h).log := by
  rw [State.upd_at, if_pos rfl]

/-- A record stands in flash h. -/
def recWritten (h : BId) (off : Nat) (r : LogRec) (s : State) : State := s.upd h fun x => { x with flash := flashProgram off (recBytes r) x.flash }

/-- What the log's next operation, and the download's, leave. -/
theorem flashFree_flash : ((flashFree true h s).at h).flash = (s.at h).flash :=
  (flashFree_touch (fs := [.out, .freeCtr, .rp, .log, .dk, .us]) sub_self .refl).at_flash (by decide) h

/-- The record's program has ended. -/
def recordDone (h : BId) (off : Nat) (r : LogRec) (s : State) : State := (recWritten h off r s).updLog h fun l => { l with busy := none }

/-- The program of a SECTOR record has ended. -/
def sectorDone (h : BId) (off g : Nat) (r : LogRec) (s : State) : State :=
  (recWritten h off r s).updLog h fun l => { l with busy := none, sector := some off, gen := g, slotN := 1, torn := 0 }

theorem logProgramDone_record {off : Nat} {r : LogRec} (awake : s.dev.sleep = false) (busy : (s.at h).log.busy = some (.record off r)) :
    logProgramDone h s = flashFree true h (logRetireRecord h (recordDone h off r s)) := by
  unfold logProgramDone
  rw [if_neg (by rw [awake]; decide), busy]
  rfl

theorem logProgramDone_sector {off g : Nat} {r : LogRec} (awake : s.dev.sleep = false) (busy : (s.at h).log.busy = some (.sector off g r)) :
    logProgramDone h s = flashFree true h (sectorDone h off g r s) := by
  unfold logProgramDone
  rw [if_neg (by rw [awake]; decide), busy]
  rfl

theorem logEraseDone_eq {off : Nat} (awake : s.dev.sleep = false) (busy : (s.at h).log.busy = some (.erase off)) :
    logEraseDone h s = flashFree true h ((s.upd h fun x => { x with flash := flashErase off 0x10000 x.flash }).updLog h
      fun l => { l with busy := none }) := by
  unfold logEraseDone
  rw [if_neg (by rw [awake]; decide), busy]

theorem logRetireRecord_one {r0 : LogRec} {g : Option Nat} {q : List (List LogRec × Option Nat)}
    (front : (s.at h).log.queue = ([r0], g) :: q) : ((logRetireRecord h s).at h).log.queue = q := by
  unfold logRetireRecord
  rw [front]
  dsimp only
  cases g with
  | none => rw [updLog_log]
  | some g => rw [(deckRelease_touch sub_self .refl).at_log (by decide), updLog_log]

theorem logRetireRecord_more {r0 r1 : LogRec} {rs : List LogRec} {g : Option Nat} {q : List (List LogRec × Option Nat)}
    (front : (s.at h).log.queue = (r0 :: r1 :: rs, g) :: q) : ((logRetireRecord h s).at h).log.queue = (r1 :: rs, g) :: q := by
  unfold logRetireRecord
  rw [front]
  dsimp only
  rw [updLog_log]

theorem recordDone_log {off : Nat} {r : LogRec} : ((recordDone h off r s).at h).log = { (s.at h).log with busy := none } := by
  rw [recordDone, updLog_log, recWritten, upd_flash_log]

/-! ### The obligation -/

theorem flash_wf {x : Berth} (canonical : x.memCanonical = true) : memWf flashD none x.flash = true := by
  simp only [Berth.memCanonical, Bool.and_eq_true] at canonical
  exact canonical.2

theorem written_reads {off : Nat} {r : LogRec} (canonical : (s.at h).memCanonical = true) (same : (t.at h).flash = flashProgram off (recBytes r) (s.at h).flash)
    (erased : ∀ i, i < 32 → memGet flashD (s.at h).flash (off + i) = 0xFF) : memRead flashD (t.at h).flash off 32 = recBytes r := by
  have read := memRead_flashProgram (off := off) (bs := recBytes r) (flash_wf canonical) (by rw [recBytes_length]; exact erased)
  rw [recBytes_length] at read
  rw [same, read]

/-- A record's program completes: it stands in flash, and leaves the queue (R167, R168). -/
theorem record_answers {off : Nat} {r : LogRec} (busy : (s.at h).log.busy = some (.record off r))
    (canonical : (s.at h).memCanonical = true) (awake : s.dev.sleep = false) : Answers (.logProgramDone h) s fun t =>
      ((∀ i, i < 32 → memGet flashD (s.at h).flash (off + i) = 0xFF) → memRead flashD (t.at h).flash off 32 = recBytes r)
      ∧ (∀ a, a < off ∨ off + 32 ≤ a → memGet flashD (t.at h).flash a = memGet flashD (s.at h).flash a)
      ∧ ((s.at h).us.dfu.active = false →
          (∀ r0 g q, (s.at h).log.queue = ([r0], g) :: q → (t.at h).log.queue = q)
          ∧ (∀ r0 r1 rs g q, (s.at h).log.queue = (r0 :: r1 :: rs, g) :: q → (t.at h).log.queue = (r1 :: rs, g) :: q)) := by
  refine answers_of_run (congrArg (ran s) (logProgramDone_record (s := s.begin) awake busy)) fun t queue e => ?_
  have retired : Touch [.log, .dk] (recordDone h off r s.begin) (logRetireRecord h (recordDone h off r s.begin)) :=
    logRetireRecord_touch sub_self .refl
  have noted : Touch [.log] (recWritten h off r s.begin) (recordDone h off r s.begin) := State.updLog_touch sub_self .refl
  have same : (t.at h).flash = flashProgram off (recBytes r) (s.at h).flash := by
    rw [e.at_eq, flashFree_flash, retired.at_flash (by decide), noted.at_flash (by decide), recWritten, upd_flash]
    rfl
  refine ⟨written_reads canonical same, fun a out => ?_, fun idle => ?_⟩
  · rw [same, flashProgram_out (by rw [recBytes_length]; exact out)]
  · have idle' : ((logRetireRecord h (recordDone h off r s.begin)).at h).us.dfu.active = false := by
      rw [retired.at_us (by decide), noted.at_us (by decide), recWritten, State.upd_at, if_pos rfl]
      exact idle
    rw [e.at_eq, flashFree_queue idle']
    refine ⟨fun r0 g q front => logRetireRecord_one (r0 := r0) (g := g) ?_, fun r0 r1 rs g q front => logRetireRecord_more (r0 := r0) ?_⟩
    · rw [recordDone_log]
      exact front
    · rw [recordDone_log]
      exact front

/-- A SECTOR record's program completes: its sector is the log's (R166, R167). -/
theorem sector_answers {off g : Nat} {r : LogRec} (busy : (s.at h).log.busy = some (.sector off g r))
    (canonical : (s.at h).memCanonical = true) (awake : s.dev.sleep = false) : Answers (.logProgramDone h) s fun t =>
      (t.at h).log.sector = some off ∧ (t.at h).log.gen = g ∧ (t.at h).log.torn = 0
        ∧ ((∀ i, i < 32 → memGet flashD (s.at h).flash (off + i) = 0xFF) → memRead flashD (t.at h).flash off 32 = recBytes r) := by
  refine answers_of_run (congrArg (ran s) (logProgramDone_sector (s := s.begin) awake busy)) fun t queue e => ?_
  have noted : Touch [.log] (recWritten h off r s.begin) (sectorDone h off g r s.begin) := State.updLog_touch sub_self .refl
  have same : (t.at h).flash = flashProgram off (recBytes r) (s.at h).flash := by
    rw [e.at_eq, flashFree_flash, noted.at_flash (by decide), recWritten, upd_flash]
    rfl
  have head : SameRegion ((sectorDone h off g r s.begin).at h).log (t.at h).log := by
    rw [e.at_eq]
    exact flashFree_region
  rw [sectorDone, updLog_log] at head
  exact ⟨head.sector, head.gen, head.torn, written_reads canonical same⟩

/-- A sector's erase completes (R167). -/
theorem erase_answers {off : Nat} (busy : (s.at h).log.busy = some (.erase off)) (awake : s.dev.sleep = false) :
    Answers (.logEraseDone h) s fun t => AgreeOff [.out, .freeCtr, .rp, .log, .dk, .us, .flash] s t
      ∧ ∀ a, memGet flashD (t.at h).flash a = if off ≤ a ∧ a < off + 0x10000 then 0xFF else memGet flashD (s.at h).flash a := by
  have touch : Touch [.out, .freeCtr, .rp, .log, .dk, .us, .flash] s.begin (logEraseDone h s.begin) := logEraseDone_touch sub_self .refl
  refine answers_of_run rfl fun t queue e => ⟨e.agreeOff_begin (by decide) touch, fun a => ?_⟩
  rw [e.at_eq, logEraseDone_eq (s := s.begin) awake busy, flashFree_flash,
    (State.updLog_touch (fs := [.log]) sub_self .refl).at_flash (by decide), upd_flash, memGet_flashErase]
  rfl

/-- The head search's end (R169). -/
def headRead (h : BId) (s : State) : State := s.updLog h fun l => { l with finding := false, ready := true }

/-- The head as found. -/
def headAt (h : BId) (failed : List Nat) (off g : Nat) (m : Mem) (s : State) : State :=
  s.updLog h fun l => { l with sector := some off, gen := g, slotN := headSlot m failed off, torn := tornSlots m failed off }

section
variable {failed : List Nat} (role : s.isHbr h = true) (finding : (s.at h).log.finding = true)
include role finding

theorem logHeadFound_none (none' : bestSector (s.at h).flash failed = none) :
    logHeadFound h failed s = logPump h (logOpenSector h logBase 1 (headRead h s)) := by
  unfold logHeadFound
  rw [if_neg (by rw [role, finding]; decide)]
  dsimp only
  rw [none']
  rfl

theorem logHeadFound_some {off g : Nat} (found : bestSector (s.at h).flash failed = some (off, g)) :
    ∃ n, logHeadFound h failed s = logPump h (if n ≥ 2048
      then logOpenSector h (nextSector off) (g + 1) (headAt h failed off g (s.at h).flash (headRead h s))
      else headAt h failed off g (s.at h).flash (headRead h s)) := by
  unfold logHeadFound
  rw [if_neg (by rw [role, finding]; decide)]
  dsimp only
  rw [found]
  exact ⟨headSlot (s.at h).flash failed off, rfl⟩

end

theorem logPump_starts {op : LogOp} {ops : List LogOp} (idle : (s.at h).log.busy = none) (open' : (s.at h).log.guard = false)
    (awake : s.dev.sleep = false) (reads : flashReads (s.at h) = false) (holds : dfuHolds (s.at h) h = false)
    (waits : (s.at h).log.ops = op :: ops) : ((logPump h s).at h).log.busy = some op := by
  have starts : logPump h s = logStartOp h s := by
    unfold logPump
    extract_lets l
    rw [if_neg (by simp [l, idle, open', awake, reads, holds]), if_pos (by simp [l, waits])]
  rw [starts, logStartOp, updLog_log, waits]

theorem opensSector_ops (none' : (s.at h).log.ops = []) : ((logOpenSector h logBase 1 (headRead h s)).at h).log.ops =
    (if sectorErased (s.at h).flash logBase then [] else [LogOp.erase logBase])
      ++ [.sector logBase 1 (mkRec (headRead h s) h 0x01 (wordOf 1) (wordOf logSectors) 0), .erase (nextSector logBase)] := by
  rw [logOpenSector, updLog_log]
  dsimp only
  rw [headRead, updLog_log, (State.updLog_touch (fs := [.log]) sub_self .refl).at_flash (by decide)]
  rw [none']
  rfl

/-- The head search ends (R169): the sector with the highest generation is the log's; where there is none, the region is opened at its
start. -/
theorem head_answers {failed : List Nat} (role : s.isHbr h = true) (finding : (s.at h).log.finding = true) :
    Answers (.logHeadFound h failed) s fun t =>
      AgreeOff [.out, .log] s t ∧ (t.at h).log.finding = false ∧ (t.at h).log.ready = true
      ∧ (∀ off g, bestSector (s.at h).flash failed = some (off, g) → (t.at h).log.sector = some off ∧ (t.at h).log.gen = g
          ∧ (t.at h).log.torn = tornSlots (s.at h).flash failed off)
      ∧ (bestSector (s.at h).flash failed = none ∧ (s.at h).log.busy = none ∧ (s.at h).log.ops = [] ∧ (s.at h).log.guard = false
          ∧ s.dev.sleep = false ∧ flashReads (s.at h) = false ∧ dfuHolds (s.at h) h = false →
          (sectorErased (s.at h).flash logBase = false → (t.at h).log.busy = some (.erase logBase))
          ∧ (sectorErased (s.at h).flash logBase = true → ∃ r, (t.at h).log.busy = some (.sector logBase 1 r))) := by
  have touch : Touch [.out, .log] s.begin (logHeadFound h failed s.begin) := logHeadFound_touch (by decide) .refl
  refine answers_of_run rfl fun t queue e => ⟨e.agreeOff_begin (by decide) touch, ?_⟩
  rw [e.at_eq]
  cases best : bestSector (s.at h).flash failed with
  | none =>
    have run := logHeadFound_none (s := s.begin) role finding best
    have pumped : Pumped ((headRead h s.begin).at h).log ((logHeadFound h failed s.begin).at h).log :=
      run ▸ logOpenSector_pumped.trans logPump_pumped
    rw [headRead, updLog_log] at pumped
    refine ⟨pumped.finding, pumped.ready, fun _ _ no => (by cases no), fun ⟨_, idle, none', open', awake, reads, holds⟩ => ?_⟩
    have opened : Touch [.log] s.begin (logOpenSector h logBase 1 (headRead h s.begin)) :=
      logOpenSector_touch sub_self (State.updLog_touch sub_self .refl)
    have starts {op : LogOp} {ops : List LogOp} (waits : ((logOpenSector h logBase 1 (headRead h s.begin)).at h).log.ops = op :: ops) :
        ((logHeadFound h failed s.begin).at h).log.busy = some op := by
      rw [run]
      refine logPump_starts ?_ ?_ (by rw [opened.at_dev (by decide)]; exact awake) ?_ ?_ waits
      · rw [logOpenSector, updLog_log, headRead, updLog_log]
        exact idle
      · rw [logOpenSector_pumped.guard, headRead, updLog_log]
        exact open'
      · rw [flashReads, opened.at_ch (by decide), opened.at_tray (by decide)]
        exact reads
      · rw [dfuHolds, opened.at_us (by decide)]
        exact holds
    have ops := opensSector_ops (s := s.begin) (h := h) none'
    refine ⟨fun dirty => ?_, fun erased => ?_⟩
    · rw [show sectorErased (s.begin.at h).flash logBase = false from dirty, if_neg (by decide)] at ops
      exact starts ops
    · rw [show sectorErased (s.begin.at h).flash logBase = true from erased, if_pos rfl] at ops
      exact ⟨_, starts ops⟩
  | some found =>
    obtain ⟨off, g⟩ := found
    obtain ⟨n, run⟩ := logHeadFound_some (s := s.begin) role finding best
    have pumped : Pumped ((headAt h failed off g (s.at h).flash (headRead h s.begin)).at h).log ((logHeadFound h failed s.begin).at h).log := by
      rw [run]
      refine Pumped.trans ?_ logPump_pumped
      split
      · exact logOpenSector_pumped
      · exact .refl
    rw [headAt, updLog_log, headRead, updLog_log] at pumped
    refine ⟨pumped.finding, pumped.ready, fun off' g' eq => ?_, fun ⟨no, _⟩ => by cases no⟩
    cases eq
    have torn := pumped.torn
    dsimp only at torn
    exact ⟨pumped.sector, pumped.gen, torn⟩

/-- The write guard as a supply's level sets it. -/
def guarded (below : Bool) (s : State) : State := s.updAll fun _ x => { x with log := { x.log with guard := below } }

theorem guarded_log {below : Bool} : ((guarded below s).at b).log = { (s.at b).log with guard := below } := by
  rw [guarded, State.updAll_at]

theorem writeGuardChange_eq {below : Bool} :
    writeGuardChange below s = iter allB (fun b t => if t.isHbr b then logPump b t else t) (guarded below s) := rfl

theorem logPump_guarded (held : (s.at h).log.guard = true) : logPump h s = s := by
  unfold logPump
  extract_lets l
  rw [if_pos (by simp [l, held])]

/-- Settles O25: the harbour's log region. -/
theorem logRegion : Obligations.LogRegion := by
  unfold Obligations.LogRegion
  refine fun s h => ⟨fun o recs ⟨role, on⟩ => ⟨fun full => ?_, fun ⟨free, told⟩ => ?_, fun ⟨free, due, none', opened⟩ => ?_⟩,
    fun off r ⟨busy, canonical, awake⟩ => record_answers busy canonical awake,
    fun off g r ⟨busy, canonical, awake⟩ => sector_answers busy canonical awake,
    fun off ⟨busy, awake⟩ => erase_answers busy awake, fun failed ⟨role, finding⟩ => head_answers role finding, ?_, ?_⟩
  · obtain ⟨u, eq⟩ : ∃ u, deckAlloc h 3 false s.begin = (none, u) := ⟨_, Prod.ext full rfl⟩
    have taken : Touch [.freeCtr, .dk] s.begin u := deckAlloc_touch_eq sub_self eq .refl
    refine answers_of_run (congrArg (ran s) (logBufferArrive_full (s := s.begin) role on eq)) fun t queue e => ?_
    rw [e.at_eq, logArriveDrop, updLog_log, taken.at_log (by decide)]
    rfl
  · obtain ⟨g, some'⟩ := Option.ne_none_iff_exists'.mp free
    obtain ⟨u, eq⟩ : ∃ u, deckAlloc h 3 false s.begin = (some g, u) := ⟨_, Prod.ext some' rfl⟩
    have taken : Touch [.freeCtr, .dk] s.begin u := deckAlloc_touch_eq sub_self eq .refl
    have log : (u.at h).log = (s.at h).log := taken.at_log (by decide) h
    have run := logBufferArrive_takes (recs := recs) (s := s.begin) role on eq (logOriginLoss_none (by rw [log]; exact told))
    refine answers_of_run (congrArg (ran s) run) fun t queue e => ?_
    have pumped := logTake_pumped (h := h) (own := false) (recs := recs) (buf := some g) (s := u)
    rw [withRecords_other, log] at pumped
    rw [e.at_eq]
    exact ⟨pumped.drop, g, pumped.queue⟩
  · obtain ⟨g, some'⟩ := Option.ne_none_iff_exists'.mp free
    obtain ⟨g', open'⟩ := Option.isSome_iff_exists.mp opened
    obtain ⟨u, eq⟩ : ∃ u, deckAlloc h 3 false s.begin = (some g, u) := ⟨_, Prod.ext some' rfl⟩
    have taken : Touch [.freeCtr, .dk] s.begin u := deckAlloc_touch_eq sub_self eq .refl
    have log : (u.at h).log = (s.at h).log := taken.at_log (by decide) h
    obtain ⟨v, told, queued, zero⟩ := logOriginLoss_told (o := o) (s := u)
      ((congrArg Sy.isHarbour (taken.at_sy (by decide) h)).trans role) (by rw [log]; exact on) (by rw [log]; exact open')
      (by rw [log]; exact none') (by rw [log]; exact due)
    have run := logBufferArrive_takes (recs := recs) (s := s.begin) role on eq told
    refine answers_of_run (congrArg (ran s) run) fun t queue e => ?_
    have pumped := logTake_pumped (h := h) (own := false) (recs := recs) (buf := some g) (s := v)
    rw [withRecords_other] at pumped
    obtain ⟨rs, b', mem, mem'⟩ := queued.queued
    rw [e.at_eq]
    refine ⟨(congrArg (vget · o.val) pumped.originDrop).trans zero, (v.at h).log.queue, g, pumped.queue, lossRec h o u, rs, b', mem, mem', rfl, ?_, rfl⟩
    rw [lossRec, log]
    rfl
  · have stays : iter allB (fun b t => if t.isHbr b then logPump b t else t) (guarded true s.begin) = guarded true s.begin := by
      refine iter_induction (P := fun t => t = guarded true s.begin) rfl fun b t same => ?_
      subst same
      split
      · exact logPump_guarded (congrArg LogSt.guard guarded_log)
      · rfl
    have touch : Touch [.out, .log] s.begin (writeGuardChange true s.begin) := writeGuardChange_touch (by decide) .refl
    refine answers_of_run rfl fun t queue e => ⟨e.agreeOff_begin (by decide) touch, fun b => ?_⟩
    rw [e.at_eq, writeGuardChange_eq, stays, guarded_log]
    rfl
  · have touch : Touch [.out, .log] s.begin (writeGuardChange false s.begin) := writeGuardChange_touch (by decide) .refl
    refine answers_of_run rfl fun t queue e => ⟨e.agreeOff_begin (by decide) touch, fun b => ?_⟩
    have freed : ((guarded false s.begin).at b).log.guard = false := by rw [guarded_log]
    rw [e.at_eq, writeGuardChange_eq]
    refine iter_induction (P := fun t => (t.at b).log.guard = false) freed fun c t held => ?_
    have kept := logPump_pumped (b := b) (h := c) (s := t)
    split
    · exact kept.guard.trans held
    · exact held

end

end Sys2Proof.Machine

/-! Duty, fan speed, and the pump's position and speed (R211 to R217). -/
namespace Sys2Proof.Machine
set_option Elab.async false

section
variable {s t u : State} {b : BId} {c : Fin 3} {d j : Nat} {f : Cool → Cool}

/-! ### Channels -/

theorem updCl_cl {g : Cl → Cl} : ((s.updCl b g).at b).cl = g (s.at b).cl := by rw [State.updCl_at, if_pos rfl]

theorem updCl_within {g : Cl → Cl} : Within b s (s.updCl b g) := .upd

theorem updCool_within : Within b s (updCool b d f s) := updCl_within

theorem coolOf_updCool : coolOf (updCool b c.val f s) b c.val = f (coolOf s b c.val) := by
  rw [coolOf, updCool, updCl_cl]
  exact vget_vmod_self c.isLt

theorem coolOf_updCool_ne (ne : j ≠ d) : coolOf (updCool b d f s) b j = coolOf s b j := by
  rw [coolOf, updCool, updCl_cl]
  exact vget_vmod_ne ne.symm

/-- Whatever leaves the cooling block leaves its channels. -/
theorem coolOf_of_touch {fs : List Piece} (h : Touch fs s t) (out : Piece.cl ∉ fs) : coolOf t b j = coolOf s b j := by
  rw [coolOf, h.at_cl out, coolOf]

theorem EndsAs.cool (e : EndsAs u t) : coolOf t b j = coolOf u b j := by rw [coolOf, e.at_eq, coolOf]

/-- The zones' update leaves the channels. -/
theorem zoneUpdate_cool : coolOf (zoneUpdate b s) b j = coolOf s b j := by
  unfold zoneUpdate
  extract_lets z
  split
  · rfl
  · rw [coolOf_of_touch (ringSend_touch sub_self .refl) (by decide), coolOf, updCl_cl, coolOf]

theorem zoneUpdate_within : Within b s (zoneUpdate b s) := .ite .refl (updCl_within.trans ringSend_within)

/-! ### A speed measurement (R218, R219) -/

/-- A channel that has reached its speed. -/
def reachedSpeed (k : Cool) : Cool :=
  { k with reached := true, st := if k.st == .kick || (k.st == .stalled && !k.offPhase) then .run else k.st }

theorem speedMeasured_eq {speed : Nat} : speedMeasured b d speed s =
    if speed ≥ minRpm (coolOf s b d) && !(coolOf s b d).reverse then zoneUpdate b (updCool b d reachedSpeed s) else s := rfl

theorem speedMeasured_within {speed : Nat} : Within b s (speedMeasured b d speed s) :=
  .ite (updCool_within.trans zoneUpdate_within) .refl

theorem speedMeasured_ne {speed : Nat} (ne : j ≠ d) : coolOf (speedMeasured b d speed s) b j = coolOf s b j := by
  rw [speedMeasured_eq]
  split
  · rw [zoneUpdate_cool, coolOf_updCool_ne ne]
  · rfl

theorem speedMeasured_cool {speed : Nat} : coolOf (speedMeasured b c.val speed s) b c.val =
    if speed ≥ minRpm (coolOf s b c.val) && !(coolOf s b c.val).reverse then reachedSpeed (coolOf s b c.val) else coolOf s b c.val := by
  rw [speedMeasured_eq]
  split
  · rw [zoneUpdate_cool, coolOf_updCool]
  · rfl

/-- A channel but for its state and whether it has reached its speed. -/
structure SameMeasures (k l : Cool) : Prop where
  lastT : l.lastT = k.lastT
  edgeAt : l.edgeAt = k.edgeAt
  edges : l.edges = k.edges
  rpm : l.rpm = k.rpm
  reverse : l.reverse = k.reverse
  fwd : l.fwd = k.fwd
  rev : l.rev = k.rev

theorem speedMeasured_same {speed : Nat} : SameMeasures (coolOf s b c.val) (coolOf (speedMeasured b c.val speed s) b c.val) := by
  rw [speedMeasured_cool]
  split
  · exact ⟨rfl, rfl, rfl, rfl, rfl, rfl, rfl⟩
  · exact ⟨rfl, rfl, rfl, rfl, rfl, rfl, rfl⟩

/-! ### Edges (R214 to R216) -/

/-- A fan's tachometer edge, n COOL cycles after the one before. -/
def edgeSeen (n now : Nat) (k : Cool) : Cool :=
  { k with edges := k.edges + 1, edgeAt := now, lastT := if k.edges ≥ 1 then max 1 n else 0, valid := k.valid || k.edges ≥ 1 }

theorem tachEdge_eq {n : Nat} (fan : coolMode (coolOf s b d) = 1) (measures : measuring (coolOf s b d) = true) : tachEdge b d n s =
    let s' := updCool b d (edgeSeen n s.now) s
    if (coolOf s' b d).valid then speedMeasured b d (fanRpm (coolOf s' b d) n) s' else s' := if_neg (by simp [fan, measures])

theorem encoderEvent_eq : encoderEvent b d s =
    let ev := classEvent s b 8 (coolOf s b d).encHist
    let s' := updCool b d (fun k => { k with encHist := ev.2.1 }) s
    if ev.1 then coolRetire b d 8 ev.2.2 s' else s' := rfl

/-- A retired channel. -/
def retiredCool (k : Cool) : Cool :=
  { k with st := .retired, offPhase := false, valid := false, lastT := 0, rpm := 0, reverse := false, fwd := 0, rev := 0 }

theorem coolRetire_cool {cls events : Nat} : coolOf (coolRetire b c.val cls events s) b c.val = retiredCool (coolOf s b c.val) := by
  unfold coolRetire
  extract_lets s1 s2
  have told : coolOf (notice b 0x06 c.val cls events (zoneUpdate b s2)) b c.val = coolOf (zoneUpdate b s2) b c.val :=
    coolOf_of_touch (notice_touch sub_self .refl) (by decide)
  have logged : coolOf s2 b c.val = coolOf s1 b c.val := coolOf_of_touch (logRec_touch sub_self .refl) (by decide)
  rw [told, zoneUpdate_cool, logged]
  exact coolOf_updCool

/-- An ENCODER event leaves the position and the counts, and may retire the channel (R222). -/
theorem encoderEvent_cool : ∃ k, coolOf (encoderEvent b c.val s) b c.val = k ∧ k.encErr = (coolOf s b c.val).encErr
    ∧ k.pos = (coolOf s b c.val).pos ∧ k.revs = (coolOf s b c.val).revs ∧ k.idxErr = (coolOf s b c.val).idxErr
    ∧ ((classEvent s b 8 (coolOf s b c.val).encHist).1 = true → k.st = .retired) := by
  refine ⟨_, rfl, ?_⟩
  rw [encoderEvent_eq]
  dsimp only
  split
  · rw [coolRetire_cool, coolOf_updCool]
    exact ⟨rfl, rfl, rfl, rfl, fun _ => rfl⟩
  case isFalse no =>
    rw [coolOf_updCool]
    exact ⟨rfl, rfl, rfl, rfl, fun yes => absurd yes no⟩

/-- Whether a pump's index edge comes far from position 0. -/
def indexOff (k : Cool) : Bool := k.indexSeen ≥ 1 && 4 < k.pos && k.pos < 1020

/-- A pump's index edge. -/
def indexSet (bad : Bool) (k : Cool) : Cool :=
  { k with pos := 0, revs := (k.revs + 1) % 65536, indexSeen := k.indexSeen + 1, idxErr := if bad then sinc k.idxErr else k.idxErr }

section
variable (pump : coolMode (coolOf s b d) = 2) (measures : measuring (coolOf s b d) = true)
include pump measures

theorem encoderChange_eq {e : EncChange} : encoderChange b d e s = match e with
    | .forward => updCool b d (fun k => { k with pos := (k.pos + 1) % 1024, fwd := k.fwd + 1 }) s
    | .reverse => updCool b d (fun k => { k with pos := (k.pos + 1023) % 1024, rev := k.rev + 1 }) s
    | .both => encoderEvent b d (updCool b d (fun k => { k with encErr := sinc k.encErr }) s) := if_neg (by simp [pump, measures])

theorem indexEdge_eq : indexEdge b d s =
    let s' := updCool b d (indexSet (indexOff (coolOf s b d))) s
    if indexOff (coolOf s b d) then encoderEvent b d s' else s' := if_neg (by simp [pump, measures])

end

/-! ### The pump's gate (R217) -/

/-- A pump's gate ends. -/
def gateEnded (k : Cool) : Cool :=
  { k with rpm := pumpRpm k.fwd k.rev, reverse := k.rev > k.fwd, valid := true, fwd := 0, rev := 0 }

theorem pumpGate_eq : pumpGate b d s = if coolMode (coolOf s b d) != 2 || !measuring (coolOf s b d) then s
    else speedMeasured b d (pumpRpm (coolOf s b d).fwd (coolOf s b d).rev) (updCool b d gateEnded s) := rfl

theorem pumpGate_within : Within b s (pumpGate b d s) := by
  rw [pumpGate_eq]
  exact .ite .refl (updCool_within.trans speedMeasured_within)

theorem pumpGate_ne (ne : j ≠ d) : coolOf (pumpGate b d s) b j = coolOf s b j := by
  rw [pumpGate_eq]
  split
  · rfl
  · rw [speedMeasured_ne ne, coolOf_updCool_ne ne]

theorem pumpGate_cool (pump : coolMode (coolOf s b c.val) = 2) (measures : measuring (coolOf s b c.val) = true) :
    SameMeasures (gateEnded (coolOf s b c.val)) (coolOf (pumpGate b c.val s) b c.val) := by
  rw [pumpGate_eq, if_neg (by simp [pump, measures]), ← coolOf_updCool (s := s) (b := b) (c := c) (f := gateEnded)]
  exact speedMeasured_same

/-! ### Duties (R211 to R213) -/

theorem dutyWrite_takes {req : ReqId} {w : Word} (own : req.val = b.val ∨ req = 11) (le : fld w 9 0 ≤ 1000) :
    dutyWrite b d req w s = updCool b d (fun k => { k with cmd := max (fld w 9 0) (dutyFloor k) }) s :=
  if_neg (by rw [mayAdmit own]; simp [le])

theorem dutyWrite_refuses {req : ReqId} {w : Word} (no : req.val ≠ b.val ∧ req ≠ 11 ∨ 1000 < fld w 9 0) : dutyWrite b d req w s = s := by
  refine if_pos ?_
  rcases no with ⟨other, host⟩ | high
  · simp [other, host]
  · simp [high]

theorem appliedDuty_active (used : coolMode (coolOf s b d) ≠ 0) (active : (s.at b).sy.st = .active) {v : Nat}
    (duty : (coolOf s b d).st = .kick ∧ v = 1000 ∨ (coolOf s b d).st = .stalled ∧ v = (if (coolOf s b d).offPhase then 0 else 1000)
      ∨ (coolOf s b d).st = .run ∧ bitAt (boosted (s.at b)) (coolZone (coolOf s b d)) = false ∧ (coolOf s b d).wdog = false
        ∧ s.dev.sleep = false ∧ v = max (dutyFloor (coolOf s b d)) (coolOf s b d).cmd) : appliedDuty s b d = v := by
  unfold appliedDuty
  extract_lets x k base
  have used' : (coolMode k == 0) = false := beq_false_of_ne used
  have active' : (!(x.sy.st == .active || x.sy.st == .isolated)) = false := by simp [x, active]
  rw [used', active', if_neg (by decide)]
  rcases duty with ⟨kick, rfl⟩ | ⟨stalled, rfl⟩ | ⟨run, boost, wdog, awake, rfl⟩
  · have st : k.st = .kick := kick
    simp [st]
  · have st : k.st = .stalled := stalled
    simp [st]
    rfl
  · have st : k.st = .run := run
    have wdog' : k.wdog = false := wdog
    have boost' : bitAt (boosted x) (coolZone k) = false := boost
    have act : x.sy.st = .active := active
    simp [st, wdog', boost', awake, act]
    rfl

/-- The output of a channel in its new period. -/
def pwmSet (on : Bool) (v : Nat) (k : Cool) : Cool := { k with pwm := if on then some v else none }

theorem pwmPeriodStart_eq : pwmPeriodStart b d s =
    updCool b d (pwmSet (coolMode (coolOf s b d) != 0 && ((s.at b).sy.st == .active || (s.at b).sy.st == .isolated)) (appliedDuty s b d)) s := rfl

/-! ### The obligation -/

/-- A tachometer edge of a measuring fan (R214, R218). -/
theorem tach_answers (n : BitVec 32) (fan : coolMode (coolOf s b c.val) = 1) (measures : measuring (coolOf s b c.val) = true) :
    Answers (.tachEdge b c n) s fun t =>
      Keeps [b] s t ∧ (coolOf t b c.val).edges = (coolOf s b c.val).edges + 1 ∧ (coolOf t b c.val).edgeAt = s.now
        ∧ (coolOf t b c.val).lastT = (if 1 ≤ (coolOf s b c.val).edges then max 1 n.toNat else 0)
        ∧ ((coolOf s b c.val).st = .kick ∧ 1 ≤ (coolOf s b c.val).edges ∧ (coolOf s b c.val).reverse = false
            ∧ minRpm (coolOf s b c.val) ≤ min 65535 (2880000000 / (max 1 (coolPpr (coolOf s b c.val)) * max 1 n.toNat)) →
          (coolOf t b c.val).st = .run ∧ (coolOf t b c.val).reached = true) := by
  refine answers_of_run (congrArg (ran s) (tachEdge_eq (s := s.begin) (n := n.toNat) fan measures)) fun t queue e => ?_
  dsimp only at e
  have seen : coolOf (updCool b c.val (edgeSeen n.toNat s.begin.now) s.begin) b c.val = edgeSeen n.toNat s.now (coolOf s b c.val) :=
    coolOf_updCool
  rw [e.cool]
  by_cases valid : (coolOf (updCool b c.val (edgeSeen n.toNat s.begin.now) s.begin) b c.val).valid = true
  · rw [if_pos valid, seen] at e
    rw [if_pos valid, seen]
    have same := speedMeasured_same (b := b) (c := c) (speed := fanRpm (edgeSeen n.toNat s.now (coolOf s b c.val)) n.toNat)
      (s := updCool b c.val (edgeSeen n.toNat s.begin.now) s.begin)
    rw [seen] at same
    refine ⟨e.keeps queue (.ofBegin (updCool_within.trans speedMeasured_within)), same.edges, same.edgeAt, same.lastT,
      fun ⟨kick, _, forward, fast⟩ => ?_⟩
    rw [speedMeasured_cool, seen, if_pos ?_]
    · refine ⟨if_pos ?_, rfl⟩
      rw [show (edgeSeen n.toNat s.now (coolOf s b c.val)).st = .kick from kick]
      rfl
    · rw [show (edgeSeen n.toNat s.now (coolOf s b c.val)).reverse = false from forward]
      exact Bool.and_eq_true_iff.mpr ⟨decide_eq_true fast, rfl⟩
  · rw [if_neg valid] at e
    rw [if_neg valid, seen]
    refine ⟨e.keeps queue (.ofBegin updCool_within), rfl, rfl, rfl, fun ⟨_, before, _⟩ => absurd ?_ valid⟩
    rw [seen]
    simp [edgeSeen, before]

/-- The edges and the gate of a measuring pump (R215 to R217). -/
theorem pump_answers (pump : coolMode (coolOf s b c.val) = 2) (measures : measuring (coolOf s b c.val) = true) :
    (Answers (.encoderChange b c .forward) s fun t => Keeps [b] s t ∧ coolOf t b c.val = { coolOf s b c.val with
      pos := ((coolOf s b c.val).pos + 1) % 1024, fwd := (coolOf s b c.val).fwd + 1 })
    ∧ (Answers (.encoderChange b c .reverse) s fun t => Keeps [b] s t ∧ coolOf t b c.val = { coolOf s b c.val with
      pos := ((coolOf s b c.val).pos + 1023) % 1024, rev := (coolOf s b c.val).rev + 1 })
    ∧ (Answers (.encoderChange b c .both) s fun t => (coolOf t b c.val).encErr = sinc (coolOf s b c.val).encErr
      ∧ (coolOf t b c.val).pos = (coolOf s b c.val).pos
      ∧ ((classEvent s b 8 (coolOf s b c.val).encHist).1 = true → (coolOf t b c.val).st = .retired))
    ∧ (Answers (.indexEdge b c) s fun t => (coolOf t b c.val).pos = 0
      ∧ (coolOf t b c.val).revs = ((coolOf s b c.val).revs + 1) % 65536
      ∧ (coolOf t b c.val).idxErr = if 1 ≤ (coolOf s b c.val).indexSeen ∧ 4 < (coolOf s b c.val).pos
          ∧ (coolOf s b c.val).pos < 1020 then sinc (coolOf s b c.val).idxErr else (coolOf s b c.val).idxErr)
    ∧ (Answers (.pumpSpeedGate b) s fun t => Keeps [b] s t ∧ (coolOf t b c.val).rpm =
          (max (coolOf s b c.val).fwd (coolOf s b c.val).rev - min (coolOf s b c.val).fwd (coolOf s b c.val).rev) * 600 / 1024
      ∧ ((coolOf t b c.val).reverse = true ↔ (coolOf s b c.val).fwd < (coolOf s b c.val).rev)
      ∧ (coolOf t b c.val).fwd = 0 ∧ (coolOf t b c.val).rev = 0) := by
  refine ⟨?_, ?_, ?_, ?_, ?_⟩
  · refine answers_of_run (congrArg (ran s) (encoderChange_eq (s := s.begin) pump measures)) fun t queue e => ?_
    exact ⟨e.keeps queue (.ofBegin updCool_within), e.cool.trans (coolOf_updCool (s := s.begin))⟩
  · refine answers_of_run (congrArg (ran s) (encoderChange_eq (s := s.begin) pump measures)) fun t queue e => ?_
    exact ⟨e.keeps queue (.ofBegin updCool_within), e.cool.trans (coolOf_updCool (s := s.begin))⟩
  · refine answers_of_run (congrArg (ran s) (encoderChange_eq (s := s.begin) pump measures)) fun t queue e => ?_
    obtain ⟨k, eq, encErr, pos, -, -, retires⟩ := encoderEvent_cool (b := b) (c := c)
      (s := updCool b c.val (fun k => { k with encErr := sinc k.encErr }) s.begin)
    have touch : Touch [.cl] s.begin (updCool b c.val (fun k => { k with encErr := sinc k.encErr }) s.begin) :=
      updCool_touch sub_self .refl
    rw [coolOf_updCool] at encErr pos retires
    rw [classEvent_congr touch.harbour_eq (touch.at_ch (by decide) b) fun n => congrArg Td.tide (touch.at_td (by decide) n)] at retires
    rw [e.cool, eq]
    exact ⟨encErr, pos, retires⟩
  · refine answers_of_run (congrArg (ran s) (indexEdge_eq (s := s.begin) pump measures)) fun t queue e => ?_
    dsimp only at e
    have set : coolOf (updCool b c.val (indexSet (indexOff (coolOf s b c.val))) s.begin) b c.val =
        indexSet (indexOff (coolOf s b c.val)) (coolOf s b c.val) := coolOf_updCool
    have bad : indexOff (coolOf s b c.val) = true ↔ 1 ≤ (coolOf s b c.val).indexSeen ∧ 4 < (coolOf s b c.val).pos ∧ (coolOf s b c.val).pos < 1020 := by
      simp [indexOff, and_assoc]
    have count : (indexSet (indexOff (coolOf s b c.val)) (coolOf s b c.val)).idxErr = if 1 ≤ (coolOf s b c.val).indexSeen
        ∧ 4 < (coolOf s b c.val).pos ∧ (coolOf s b c.val).pos < 1020 then sinc (coolOf s b c.val).idxErr else (coolOf s b c.val).idxErr :=
      if_congr bad rfl rfl
    rw [e.cool]
    split
    · obtain ⟨k, eq, -, pos, revs, idxErr, -⟩ := encoderEvent_cool (b := b) (c := c)
        (s := updCool b c.val (indexSet (indexOff (coolOf s b c.val))) s.begin)
      rw [set] at pos revs idxErr
      refine ⟨(congrArg Cool.pos eq).trans pos, (congrArg Cool.revs eq).trans revs, ((congrArg Cool.idxErr eq).trans idxErr).trans count⟩
    · exact ⟨congrArg Cool.pos set, congrArg Cool.revs set, (congrArg Cool.idxErr set).trans count⟩
  · refine answers_of_run rfl fun t queue e => ?_
    have gate : SameMeasures (gateEnded (coolOf s b c.val)) (coolOf (iter (upto 3) (pumpGate b) s.begin) b c.val) := by
      refine iter_turn (x := c.val) (P := fun u => coolOf u b c.val = coolOf s b c.val)
        (Q := fun u => SameMeasures (gateEnded (coolOf s b c.val)) (coolOf u b c.val)) (List.mem_range.mpr c.isLt) List.nodup_range
        rfl (fun j u ne same => (pumpGate_ne ne.symm).trans same) (fun u same => ?_) (fun j u ne same => ?_)
      · rw [← same]
        exact pumpGate_cool (by rw [same]; exact pump) (by rw [same]; exact measures)
      · rw [pumpGate_ne ne.symm]
        exact same
    refine ⟨e.keeps queue (.ofBegin (.iter fun j u => pumpGate_within)), ?_⟩
    rw [e.cool, gate.rpm, gate.reverse, gate.fwd, gate.rev]
    exact ⟨rfl, decide_eq_true_iff, rfl, rfl⟩

/-- Settles O26: the measures of a cooling channel. -/
theorem coolingMeasures : Obligations.CoolingMeasures := by
  unfold Obligations.CoolingMeasures
  refine fun s b c => ⟨fun req w pass => ⟨fun ⟨own, le⟩ => ?_, fun no => ?_⟩, fun v ⟨used, active, duty⟩ => ?_, fun off => ?_,
    fun n ⟨fan, measures⟩ => tach_answers n fan measures, fun ⟨pump, measures⟩ => pump_answers pump measures⟩
  · refine answers_viaBus (act := dutyWrite b c.val req w) pass rfl fun t bus => ?_
    rw [dutyWrite_takes own le] at bus
    refine ⟨(Touch.trans (updCool_touch (by decide) .refl) (bus.mono (by decide))).agreeOff_begin, ?_⟩
    exact (coolOf_of_touch bus (by decide)).trans coolOf_updCool
  · refine answers_viaBus (act := dutyWrite b c.val req w) pass rfl fun t bus => ?_
    rw [dutyWrite_refuses no] at bus
    exact (bus.mono (by decide)).agreeOff_begin
  · refine answers_of_run (congrArg (ran s) pwmPeriodStart_eq) fun t queue e => ?_
    refine ⟨e.keeps queue (.ofBegin updCool_within), ?_⟩
    have applied : appliedDuty s.begin b c.val = v := appliedDuty_active (s := s.begin) used active duty
    have on : (coolMode (coolOf s.begin b c.val) != 0 && ((s.begin.at b).sy.st == .active || (s.begin.at b).sy.st == .isolated)) = true := by
      have act : (s.begin.at b).sy.st = .active := active
      have used' : (coolMode (coolOf s.begin b c.val) != 0) = true := bne_iff_ne.mpr used
      rw [act, used']
      rfl
    rw [e.cool, coolOf_updCool, applied, on]
    rfl
  · refine answers_of_run (congrArg (ran s) pwmPeriodStart_eq) fun t queue e => ?_
    refine ⟨e.keeps queue (.ofBegin updCool_within), ?_⟩
    have unused : (coolMode (coolOf s.begin b c.val) != 0) = false := bne_eq_false_iff_eq.mpr off
    rw [e.cool, coolOf_updCool, unused]
    rfl

end

end Sys2Proof.Machine

/-! Stalls, boosted zones and the host-silence watchdog (R219 to R226). -/
namespace Sys2Proof.Machine
set_option Elab.async false

section
variable {s t u : State} {b m : BId} {c : Fin 3} {d j n : Nat}

/-! ### Stalls (R219 to R222) -/

/-- A stall is counted. -/
def stallCounted (b : BId) (d : Nat) (s : State) : State :=
  updCool b d (fun k => { k with stallCnt := sinc k.stallCnt, stallHist := (classEvent s b 7 (coolOf s b d).stallHist).2.1 }) s

theorem stall_eq {failed : Bool} {e : Nat} : ∃ log : State → State, (∀ t, Touch [.out, .freeCtr, .rp, .log, .dk, .us] t (log t))
    ∧ stall b d failed e s = if (classEvent s b 7 (coolOf s b d).stallHist).1
      then coolRetire b d 7 (classEvent s b 7 (coolOf s b d).stallHist).2.2 (log (stallCounted b d s))
      else zoneUpdate b (updCool b d (fun k => { k with st := .stalled, offPhase := false }) (log (stallCounted b d s))) :=
  ⟨fun t => logRec b 0x28 (pack [(d, 0, 2), (coolMode (coolOf s b d), 2, 2), (b2n failed, 4, 1),
      (min ((classEvent s b 7 (coolOf s b d).stallHist).2.2 + 1) 255, 8, 8)])
    (pack [(speedAt (coolOf s b d) e, 0, 16), (appliedDuty s b d, 16, 10)]) (wordOf (minRpm (coolOf s b d))) t,
    fun _ => logRec_touch sub_self .refl, rfl⟩

/-- What a stall leaves of its channel. -/
structure Stalled (k : Cool) (retires : Bool) (l : Cool) : Prop where
  stallCnt : l.stallCnt = sinc k.stallCnt
  stalled : retires = false → l.st = .stalled ∧ l.offPhase = false
  retired : retires = true → l.st = .retired

theorem stall_cool {failed : Bool} {e : Nat} : Stalled (coolOf s b c.val) (classEvent s b 7 (coolOf s b c.val).stallHist).1
    (coolOf (stall b c.val failed e s) b c.val) := by
  obtain ⟨log, logs, eq⟩ := stall_eq (s := s) (b := b) (d := c.val) (failed := failed) (e := e)
  have counted : coolOf (log (stallCounted b c.val s)) b c.val =
      { coolOf s b c.val with stallCnt := sinc (coolOf s b c.val).stallCnt
                              stallHist := (classEvent s b 7 (coolOf s b c.val).stallHist).2.1 } :=
    (coolOf_of_touch (logs _) (by decide)).trans coolOf_updCool
  rw [eq]
  split
  case isTrue retires =>
    rw [coolRetire_cool, counted]
    exact ⟨rfl, fun no => absurd (retires.symm.trans no) (by decide), fun _ => rfl⟩
  case isFalse stays =>
    rw [zoneUpdate_cool, coolOf_updCool, counted]
    exact ⟨rfl, fun _ => ⟨rfl, rfl⟩, fun yes => absurd yes stays⟩

/-- A retirement's notice goes to the harbour, unless the berth is in holdover (R29, R222). -/
theorem coolRetire_out {cls events : Nat} (clock : (s.at b).sy.holdover = false) :
    .ring b (some (s.at b).sy.harbour) (.retireNotice 6 d cls events) ∈ (coolRetire b d cls events s).out := by
  unfold coolRetire
  extract_lets s1 s2
  have touch : Touch [.out, .freeCtr, .rp, .log, .cl, .dk, .us] s (zoneUpdate b s2) :=
    zoneUpdate_touch (by decide) (logRec_touch (by decide) (updCool_touch (by decide) .refl))
  have sy : ((zoneUpdate b s2).at b).sy = (s.at b).sy := touch.at_sy (by decide) b
  rw [notice, ringSend_out_of_clock (by rw [sy]; exact clock), sy]
  exact List.mem_append_right _ List.mem_cons_self

theorem stall_out {failed : Bool} {e : Nat} (clock : (s.at b).sy.holdover = false)
    (retires : (classEvent s b 7 (coolOf s b d).stallHist).1 = true) :
    .ring b (some (s.at b).sy.harbour) (.retireNotice 6 d 7 (classEvent s b 7 (coolOf s b d).stallHist).2.2) ∈ (stall b d failed e s).out := by
  obtain ⟨log, logs, eq⟩ := stall_eq (s := s) (b := b) (d := d) (failed := failed) (e := e)
  have sy : ((log (stallCounted b d s)).at b).sy = (s.at b).sy :=
    ((logs _).at_sy (by decide) b).trans ((updCool_touch sub_self .refl).at_sy (by decide) b)
  rw [eq, if_pos retires, ← sy]
  exact coolRetire_out (by rw [sy]; exact clock)

theorem kickTimeout_eq {e : Nat} (kick : (coolOf s b d).st = .kick) : kickTimeout b d e s = stall b d true e s := if_pos (by simp [kick])

theorem stallDetect_eq {e : Nat} (run : (coolOf s b d).st = .run)
    (slow : speedAt (coolOf s b d) e < minRpm (coolOf s b d) ∨ (coolOf s b d).reverse = true) :
    stallDetect b d e s = stall b d false e s := by
  refine if_pos ?_
  rcases slow with slow | back
  · simp [run, slow]
  · simp [run, back]

/-- A stall, however it is found, counts and stalls its channel or retires it. -/
theorem stall_answers {i : Instr} {failed : Bool} (run : exec i s = ran s (stall b c.val failed n s.begin)) :
    Answers i s fun t => (coolOf t b c.val).stallCnt = sinc (coolOf s b c.val).stallCnt
      ∧ ((classEvent s b 7 (coolOf s b c.val).stallHist).1 = false → (coolOf t b c.val).st = .stalled
          ∧ (coolOf t b c.val).offPhase = false)
      ∧ ((classEvent s b 7 (coolOf s b c.val).stallHist).1 = true → (coolOf t b c.val).st = .retired
          ∧ ((s.at b).sy.holdover = false → .ring b (some (s.at b).sy.harbour)
              (.retireNotice 6 c.val 7 (classEvent s b 7 (coolOf s b c.val).stallHist).2.2) ∈ t.out))
      ∧ AgreeOff [.out, .freeCtr, .rp, .cl, .log, .dk, .us] s t := by
  have touch : Touch [.out, .freeCtr, .rp, .cl, .log, .dk, .us] s.begin (stall b c.val failed n s.begin) := stall_touch (by decide) .refl
  have same : classEvent s.begin b 7 (coolOf s.begin b c.val).stallHist = classEvent s b 7 (coolOf s b c.val).stallHist :=
    classEvent_congr rfl rfl fun _ => rfl
  refine answers_of_run run fun t queue e => ?_
  have stalled := stall_cool (s := s.begin) (b := b) (c := c) (failed := failed) (e := n)
  rw [e.cool]
  rw [same] at stalled
  refine ⟨stalled.stallCnt, stalled.stalled, fun retires => ⟨stalled.retired retires, fun clock => ?_⟩, e.agreeOff_begin (by decide) touch⟩
  have told := stall_out (s := s.begin) (b := b) (d := c.val) (failed := failed) (e := n) clock (same ▸ retires)
  rw [same] at told
  rw [e.out]
  exact told

theorem kickStart_cool : ∃ k, coolOf (kickStart b c.val s) b c.val = k ∧ k.st = .kick ∧ k.offPhase = false
    ∧ k.kicks = sinc (coolOf s b c.val).kicks := by
  refine ⟨_, rfl, ?_⟩
  unfold kickStart
  rw [zoneUpdate_cool, coolOf_updCool]
  exact ⟨rfl, rfl, rfl⟩

/-! ### The host-silence watchdog (R225, R226) -/

theorem wdogEnd_ends : (coolOf (wdogEnd b c.val s) b c.val).wdog = false := by
  unfold wdogEnd
  extract_lets k s'
  split
  case isTrue idle => simpa [k] using idle
  case isFalse => rw [coolOf_updCool]

theorem wdogEnd_ne (ne : j ≠ d) : coolOf (wdogEnd b d s) b j = coolOf s b j := by
  unfold wdogEnd
  extract_lets k s'
  split
  · rfl
  · rw [coolOf_updCool_ne ne]
    exact coolOf_of_touch (logRec_touch sub_self .refl) (by decide)

/-- The silence timer restarts. -/
def silenceRestart (s : State) (x : Cl) : Cl := { x with silenceFrom := s.now, noticeAt := some s.now, silenceHeld := x.silenceHeld.map fun _ => 0 }

theorem hostActNotice_eq : hostActNotice b s =
    (iter (upto 3) (wdogEnd b) s).updCl b (silenceRestart (iter (upto 3) (wdogEnd b) s)) := rfl

theorem hostActNotice_cool : coolOf (hostActNotice b s) b j = coolOf (iter (upto 3) (wdogEnd b) s) b j := by
  rw [hostActNotice_eq]
  generalize iter (upto 3) (wdogEnd b) s = u
  rw [coolOf, updCl_cl, coolOf]
  rfl

/-- A channel whose watchdog has expired. -/
def expired (k : Cool) : Cool :=
  { k with wdog := true, hold := if bitAt k.cfg0 2 then max (dutyFloor k) k.cmd else 0 }

/-- A channel's watchdog expires. -/
def expiredAt (b : BId) (d : Nat) (s : State) : State := updCool b d (fun k => { k with wdog := true, hold := (expired (coolOf s b d)).hold }) s

theorem expiredAt_cool : coolOf (expiredAt b c.val s) b c.val = expired (coolOf s b c.val) := coolOf_updCool

theorem silenceExpiry_eq (used : coolMode (coolOf s b d) ≠ 0) (locked : (s.at b).ch.locked = true) (fresh : (coolOf s b d).wdog = false)
    (runs : (s.at b).cl.silenceHeld = none) (late : (s.at b).cl.noticeAt ≠ some s.now) :
    ∃ log : State → State, (∀ t, Touch [.out, .freeCtr, .rp, .log, .dk, .us] t (log t))
      ∧ silenceExpiry b d s = attn 10 (log (expiredAt b d s)) :=
  ⟨fun t => logRec b 0x2D (pack [(d, 0, 2), (b2n (bitAt (coolOf s b d).cfg0 2), 2, 1), (1, 3, 1)]) (wordOf (fld (coolOf s b d).cfg1 31 16))
      (pack [((expired (coolOf s b d)).hold, 0, 10)]) t, fun _ => logRec_touch sub_self .refl,
    if_neg (by simp [used, locked, fresh, runs, late])⟩

/-- Settles O27: stalls, boosted zones, silence and watchdogs. -/
theorem stallsAndWatchdogs : Obligations.StallsAndWatchdogs := by
  unfold Obligations.StallsAndWatchdogs
  refine ⟨fun s b c e => ⟨fun i found => ?_, fun stalled => ?_, fun ⟨stalled, off⟩ => ?_, fun m z ne => ?_⟩,
    fun s b => ⟨?_, fun c h ⟨used, locked, fresh, runs, late, harbour⟩ => ?_⟩⟩
  · rcases found with ⟨rfl, kick⟩ | ⟨rfl, run, slow⟩
    · exact stall_answers (congrArg (ran s) (kickTimeout_eq (s := s.begin) kick))
    · exact stall_answers (congrArg (ran s) (stallDetect_eq (s := s.begin) run slow))
  · have run : stallRetry b c.val s.begin = updCool b c.val (fun k => { k with offPhase := true }) s.begin :=
      if_pos (beq_iff_eq.mpr stalled)
    refine answers_of_run (congrArg (ran s) run) fun t queue e => ?_
    exact ⟨e.keeps queue (.ofBegin updCool_within), e.cool.trans (coolOf_updCool (s := s.begin))⟩
  · have run : retryOffEnd b c.val s.begin = kickStart b c.val s.begin :=
      if_pos (Bool.and_eq_true_iff.mpr ⟨beq_iff_eq.mpr stalled, off⟩)
    refine answers_of_run (congrArg (ran s) run) fun t queue e => ?_
    obtain ⟨k, eq, st, phase, kicks⟩ := kickStart_cool (s := s.begin) (b := b) (c := c)
    rw [e.cool, eq]
    exact ⟨e.keeps queue (.ofBegin (updCool_within.trans zoneUpdate_within)), st, phase, kicks⟩
  · have run : zoneNotice b m z s.begin = s.begin.updCl b fun x => { x with boost := vset x.boost m.val z } :=
      if_neg (by simpa using ne)
    refine answers_of_run (congrArg (ran s) run) fun t queue e => ?_
    refine ⟨e.keeps queue (.ofBegin updCl_within), ?_⟩
    rw [e.at_eq, updCl_cl]
    rfl
  · have ended : Touch [.out, .freeCtr, .rp, .log, .cl, .dk, .us] s.begin (iter (upto 3) (wdogEnd b) s.begin) :=
      .iter (fun j u kept => wdogEnd_touch sub_self kept) .refl
    have touch : Touch [.out, .freeCtr, .rp, .cl, .log, .dk, .us] s.begin (hostActNotice b s.begin) := hostActNotice_touch (by decide) .refl
    refine answers_of_run rfl fun t queue e => ⟨?_, fun c => ?_, e.agreeOff_begin (by decide) touch⟩
    · rw [e.at_eq, hostActNotice_eq, updCl_cl]
      show (iter (upto 3) (wdogEnd b) s.begin).now = s.now
      exact ended.at_now (by decide)
    · have idle : (coolOf (iter (upto 3) (wdogEnd b) s.begin) b c.val).wdog = false := by
        refine iter_turn (x := c.val) (P := fun _ => True) (Q := fun u => (coolOf u b c.val).wdog = false) (List.mem_range.mpr c.isLt)
          List.nodup_range trivial (fun _ _ _ _ => trivial) (fun u _ => wdogEnd_ends) (fun j u ne idle => ?_)
        rw [wdogEnd_ne ne.symm]
        exact idle
      rw [e.cool, hostActNotice_cool]
      exact idle
  · obtain ⟨log, logs, run⟩ := silenceExpiry_eq (s := s.begin) used locked fresh runs late
    refine answers_of_run (congrArg (ran s) run) fun t queue e => ?_
    have set : Touch [.cl] s.begin (expiredAt b c.val s.begin) := updCool_touch sub_self .refl
    have told : Touch [.freeCtr, .dk, .tw, .us] (log (expiredAt b c.val s.begin)) (attn 10 (log (expiredAt b c.val s.begin))) :=
      attn_touch sub_self .refl
    rw [e.cool, e.at_eq]
    refine ⟨?_, attn_sets (((logs _).harbour_eq.trans set.harbour_eq).trans harbour)⟩
    rw [coolOf_of_touch told (by decide), coolOf_of_touch (logs _) (by decide), expiredAt_cool]
    rfl

end

end Sys2Proof.Machine

/-! The leak ropes (R229 to R234). -/
namespace Sys2Proof.Machine
set_option Elab.async false

section
variable {s t u : State} {b m : BId} {r : Fin 2} {j n : Nat} {o : Output}

/-! ### A shutdown leaves the ropes -/

/-- A berth's cooling and leak blocks but for the valve's output, which is released only where the berth is not ACTIVE or retires. -/
structure Vented (b : BId) (s t : State) : Prop where
  sy : (t.at b).sy = (s.at b).sy
  cl : ∃ v, (t.at b).cl = { (s.at b).cl with valveOut := v }
  stays : (s.at b).sy.st = .active → (s.at b).sy.retireOrder = false → (t.at b).cl = (s.at b).cl

theorem Vented.of_same (sy : (t.at b).sy = (s.at b).sy) (cl : (t.at b).cl = (s.at b).cl) : Vented b s t := ⟨sy, ⟨_, cl⟩, fun _ _ => cl⟩

theorem Vented.of_touch {fs : List Piece} (h : Touch fs s t) (noSy : Piece.sy ∉ fs) (noCl : Piece.cl ∉ fs) : Vented b s t :=
  .of_same (h.at_sy noSy b) (h.at_cl noCl b)

theorem Vented.refl : Vented b s s := .of_same rfl rfl

theorem Vented.trans (h : Vented b s t) (i : Vented b t u) : Vented b s u := by
  obtain ⟨v, one⟩ := h.cl
  obtain ⟨w, two⟩ := i.cl
  refine ⟨i.sy.trans h.sy, ⟨w, by rw [two, one]⟩, fun active order => ?_⟩
  exact (i.stays (by rw [h.sy]; exact active) (by rw [h.sy]; exact order)).trans (h.stays active order)

theorem shutdownEnd_vented : Vented b s (shutdownEnd b s) := by
  unfold shutdownEnd
  extract_lets x st stuck s1 s2 s3 s4 s5 s6 s7 s8 away
  have ended : Touch [.out, .freeCtr, .rp, .rl, .log, .pw, .pl, .dk, .us, .tray] s s4 :=
    State.updRl_touch (by decide) (logSlotDown_touch (by decide) (setSlotState_touch (by decide) (State.updRl_touch (by decide) .refl)))
  have closed : Touch [.out, .freeCtr, .rp, .rl, .log, .pw, .pl, .dk, .us, .tray] s s7 :=
    State.onTray_touch (by decide) (partsRestart_touch (by decide) (State.updPw_touch (by decide)
      (withdraw_touch (by decide) (ledgerCloseAll_touch (by decide) ended))))
  have told : Touch [.out, .freeCtr, .rp, .rl, .log, .pw, .pl, .dk, .us, .tray] s s8 := ite_touch (notice_touch (by decide) closed) closed
  have cleared (v : State) : Vented b v (clearTrumps b v) := .of_touch (clearTrumps_touch sub_self .refl) (by decide) (by decide)
  have sy : (s8.at b).sy = (s.at b).sy := told.at_sy (by decide) b
  have cl : (s8.at b).cl = (s.at b).cl := told.at_cl (by decide) b
  refine Vented.trans (Vented.trans (.of_same sy cl) ?_) (cleared _)
  by_cases leaves : away = true
  · rw [if_pos leaves]
    have inert : ((slotInert b s8).at b).cl = { (s8.at b).cl with valveOut := none } := by
      rw [slotInert, (State.updPw_touch (fs := [.pw]) sub_self .refl).at_cl (by decide), updCl_cl]
    refine ⟨(slotInert_touch (fs := [.pw, .cl]) (by decide) .refl).at_sy (by decide) b, ⟨none, inert⟩, fun active order => ?_⟩
    exact absurd leaves (by simp [away, active, order])
  · rw [if_neg leaves]
    exact .refl

theorem walk_vented : Vented b s (walk b n s) := by
  induction n generalizing s with
  | zero => exact .refl
  | succ n ih =>
    unfold walk
    extract_lets x
    split
    · exact shutdownEnd_vented
    case h_2 k =>
      extract_lets s1 l s2
      have released : Vented b s s1 := .of_touch (releaseRail_touch sub_self .refl) (by decide) (by decide)
      have logged : Vented b s s2 := released.trans (.of_touch (logRail_touch sub_self .refl) (by decide) (by decide))
      have moved : Vented b s (s2.updRl b fun l => { l with pos := l.pos + 1 }) :=
        logged.trans (.of_touch (State.updRl_touch (fs := [.rl]) sub_self .refl) (by decide) (by decide))
      split
      · split
        · exact logged.trans shutdownEnd_vented
        · exact moved.trans ih
      · exact released

theorem firstReleased_vented {first : Nat} : Vented b s (firstReleased b first s) := by
  unfold firstReleased
  split
  · exact .of_touch (releaseRail_touch sub_self .refl) (by decide) (by decide)
  · exact .refl

variable {fault : Bool} {cause first : Nat}

theorem startShutdown_vented : Vented b s (startShutdown b fault cause first s) := by
  unfold startShutdown
  extract_lets s1 s2 s3 s4 s5 s6 s7 s8
  have begun : Touch [.out, .freeCtr, .rp, .rl, .log, .pw, .hw, .svc, .pl, .dk, .dm, .tw, .us, .tcm, .deck] s s7 :=
    State.updPw_touch (by decide) (svcSlotDown_touch (by decide) (State.updHw_touch (by decide) (linkStop_touch (by decide)
      (logRail_touch (by decide) (setSlotState_touch (by decide) (State.updRl_touch (by decide) .refl))))))
  have start : Vented b s s7 := .of_touch begun (by decide) (by decide)
  exact (start.trans (firstReleased_vented (first := first))).trans walk_vented

theorem shutdown_vented : Vented b s (shutdown b fault cause first s) := by
  unfold shutdown
  split
  · exact startShutdown_vented
  · exact startShutdown_vented
  · split
    · exact .refl
    · extract_lets was s1 s2 s3
      have asked : Vented b s s2 := by
        unfold s2
        split
        · exact .refl
        · exact .of_touch (fs := [.out, .freeCtr, .rp, .rl, .log, .dk, .us])
            (logRail_touch (by decide) (State.updRl_touch (by decide) .refl)) (by decide) (by decide)
      exact (asked.trans (firstReleased_vented (first := first))).trans walk_vented
  · exact .refl

theorem gateCheck_vented : Vented b s (gateCheck b s) := by
  unfold gateCheck
  split
  · split
    · exact .refl
    · exact shutdown_vented
  · split
    · exact .refl
    · exact shutdown_vented
  · exact .refl

/-- The slot is neither POWERING nor UP. -/
def SlotOff (x : Rl) : Prop := x.slot ≠ .powering ∧ x.slot ≠ .up

theorem Walked.slotOff {x y : Rl} (h : Walked x y) (off : SlotOff x) : SlotOff y := by
  rcases h.slot with same | retired | ended
  · rw [SlotOff, same]
    exact off
  · rw [SlotOff, retired]
    exact ⟨by decide, by decide⟩
  · rw [SlotOff, ended]
    split
    · exact ⟨by decide, by decide⟩
    · exact ⟨by decide, by decide⟩

theorem ShutBy.slotOff {x y : Rl} (h : ShutBy fault cause first x y) : SlotOff y := by
  rcases h.slot with shut | retired | ended
  · rw [SlotOff, shut]
    exact ⟨by decide, by decide⟩
  · rw [SlotOff, retired]
    exact ⟨by decide, by decide⟩
  · rw [SlotOff, ended]
    cases fault with
    | true => exact ⟨by decide, by decide⟩
    | false => exact ⟨by decide, by decide⟩

/-- After a shutdown was asked for the slot is neither POWERING nor UP. -/
theorem shutdown_slotOff : SlotOff ((shutdown b fault cause first s).at b).rl := by
  unfold shutdown
  split
  · exact startShutdown_shutBy.slotOff
  · exact startShutdown_shutBy.slotOff
  case h_3 shutting =>
    have off : SlotOff (s.at b).rl := by
      rw [SlotOff, shutting]
      exact ⟨by decide, by decide⟩
    split
    · exact off
    · extract_lets was s1 s2 s3
      have asked : (s2.at b).rl.slot = (s.at b).rl.slot := by
        unfold s2
        split
        · rfl
        · rw [logRail_rl, updRl_rl]
      exact ((firstReleased_released (first := first)).then walk_walked).slotOff (by rw [SlotOff, asked]; exact off)
  case h_4 powering up _ => exact ⟨fun eq => powering eq, fun eq => up eq⟩

/-! ### The ropes' own steps (R229, R230) -/

variable {f : Rope → Rope}

theorem updRope_within : Within b s (updRope b j f s) := updCl_within

theorem ropeOf_updRope : ropeOf (updRope b r.val f s) b r.val = f (ropeOf s b r.val) := by
  rw [ropeOf, updRope, updCl_cl]
  exact vget_vmod_self r.isLt

theorem ropeOf_updRope_ne (ne : j ≠ n) : ropeOf (updRope b n f s) b j = ropeOf s b j := by
  rw [ropeOf, updRope, updCl_cl]
  exact vget_vmod_ne ne.symm

theorem ropeOf_of_touch {fs : List Piece} (h : Touch fs s t) (out : Piece.cl ∉ fs) : ropeOf t b j = ropeOf s b j := by
  rw [ropeOf, h.at_cl out, ropeOf]

theorem Vented.ropeOf (h : Vented b s t) : ropeOf t b j = ropeOf s b j := by
  obtain ⟨v, cl⟩ := h.cl
  rw [Machine.ropeOf, cl, Machine.ropeOf]

theorem EndsAs.rope (e : EndsAs u t) : ropeOf t b j = ropeOf u b j := by rw [ropeOf, e.at_eq, ropeOf]

/-- The own copy of a rope's state and latch. -/
def ropeSeen (b : BId) (j : Nat) (s : State) : State := s.updCl b fun x =>
  { x with ropeView := vset x.ropeView (2 * b.val + j) (ropeOf s b j).st, latchView := vset x.latchView (2 * b.val + j) (ropeOf s b j).latch }

theorem ropeTell_eq : ropeTell b j s = ringSend b none (.ropeState j (ropeOf s b j).st (ropeOf s b j).latch) (ropeSeen b j s) := rfl

theorem ropeSeen_sy : ((ropeSeen b j s).at b).sy = (s.at b).sy := (State.updCl_touch (fs := [.cl]) sub_self .refl).at_sy (by decide) b

theorem ropeTell_within : Within b s (ropeTell b j s) := updCl_within.trans ringSend_within

theorem ropeTell_rope {k : Nat} : ropeOf (ropeTell b j s) b k = ropeOf s b k := by
  rw [ropeTell_eq, ropeOf_of_touch (ringSend_touch sub_self .refl) (by decide), ropeOf, ropeSeen, updCl_cl]
  rfl

theorem ropeTell_valveOut : ((ropeTell b j s).at b).cl.valveOut = (s.at b).cl.valveOut := by
  rw [ropeTell_eq, (ringSend_touch sub_self .refl).at_cl (by decide), ropeSeen, updCl_cl]

/-- Every berth is told, unless the berth is in holdover (R29). -/
theorem ropeTell_out (clock : (s.at b).sy.holdover = false) : (ropeTell b j s).out =
    s.out ++ [.ring b none (.ropeState j (ropeOf s b j).st (ropeOf s b j).latch)] := by
  rw [ropeTell_eq, ringSend_out_of_clock (by rw [ropeSeen_sy]; exact clock)]
  rfl

/-! ### A wet rope (R232, R233) -/

/-- A confirmed wet reading. -/
def wetted (p : Rope) : Rope := { p with st := .wet, wetDone := true, wetCnt := sinc8 p.wetCnt }

/-- The rope's latch is set and the valve driven, where it is fitted. -/
def leakLatched (b : BId) (j : Nat) (s : State) : State :=
  (updRope b j (fun p => { p with latch := true, latchScan := (s.at b).rl.scans }) (updRope b j wetted s)).updCl b fun c =>
    { c with valveOut := if bitAt c.valve 0 then some (bitAt c.valve 1) else c.valveOut }

/-- The berth's own slot is shut down and every berth is told. -/
def leakTold (b : BId) (j : Nat) (s : State) : State :=
  leakRecord b j (ringSend b none (.leakTrump (fld (s.at b).cl.valve 15 8)) (shutdown b true 0x15 15 (ropeTell b j (leakLatched b j s))))

section
variable (live : ropeLive (ropeOf s b j) = true) (long : fld (ropeOf s b j).cfg 31 28 ≤ (ropeOf s b j).wetRun)
  (fresh : (ropeOf s b j).wetDone = false)
include live long fresh

theorem leakTrump_first (dry : (ropeOf s b j).latch = false) (other : (ropeOf s b (1 - j)).latch = false) (ne : 1 - j ≠ j) :
    leakTrump b j s = if (leakTold b j s).isHbr b then leakAtHarbour (fld (s.at b).cl.valve 15 8) (leakTold b j s) else leakTold b j s := by
  unfold leakTrump
  extract_lets p x mask s1 rope once s2 s3 s4 s5 s6
  have none' : once = false := by
    have same : rope = ropeOf s b (1 - j) := ropeOf_updRope_ne ne
    have unlatched : rope.latch = false := same ▸ other
    simp [once, unlatched]
  rw [if_neg (by simp [p, live, long, fresh]), if_neg (by simp [p, dry]), if_neg (by simp [none'])]
  rfl

theorem leakTrump_again (latched : (ropeOf s b j).latch = true) :
    leakTrump b j s = leakRecord b j (ropeTell b j (updRope b j wetted s)) := by
  unfold leakTrump
  extract_lets p x mask s1
  rw [if_neg (by simp [p, live, long, fresh]), if_pos latched]
  rfl

end

theorem leakLatched_cl : ((leakLatched b j s).at b).cl = { (s.at b).cl with
    rope := vmod (vmod (s.at b).cl.rope j wetted) j fun p => { p with latch := true, latchScan := (s.at b).rl.scans }
    valveOut := if bitAt (s.at b).cl.valve 0 then some (bitAt (s.at b).cl.valve 1) else (s.at b).cl.valveOut } := by
  rw [leakLatched, updCl_cl, updRope, updCl_cl, updRope, updCl_cl]

theorem leakLatched_rope : ropeOf (leakLatched b r.val s) b r.val =
    { wetted (ropeOf s b r.val) with latch := true, latchScan := (s.at b).rl.scans } := by
  rw [ropeOf, leakLatched_cl]
  dsimp only
  rw [vget_vmod_self r.isLt, vget_vmod_self r.isLt]
  rfl

theorem leakLatched_touch : Touch [.cl] s (leakLatched b j s) :=
  State.updCl_touch sub_self (updRope_touch sub_self (updRope_touch sub_self .refl))

theorem leakTold_vented : Vented b (ropeTell b j (leakLatched b j s)) (leakTold b j s) := by
  refine Vented.trans (shutdown_vented (fault := true) (cause := 0x15) (first := 15)) ?_
  refine .of_touch (fs := [.out, .freeCtr, .rp, .log, .dk, .us]) (leakRecord_touch (by decide) (ringSend_touch (by decide) .refl)) (by decide) (by decide)

theorem leakTold_rl : ((leakTold b j s).at b).rl = ((shutdown b true 0x15 15 (ropeTell b j (leakLatched b j s))).at b).rl :=
  (leakRecord_touch (fs := [.out, .freeCtr, .rp, .log, .dk, .us]) (by decide) (ringSend_touch (by decide) .refl)).at_rl (by decide) b

theorem latchTold_touch : Touch [.out, .rp, .cl] s (ropeTell b j (leakLatched b j s)) :=
  ropeTell_touch (by decide) (leakLatched_touch.mono (by decide))

theorem leakTold_out (clock : (s.at b).sy.holdover = false) :
    .ring b none (.leakTrump (fld (s.at b).cl.valve 15 8)) ∈ (leakTold b j s).out := by
  have sy : ((shutdown b true 0x15 15 (ropeTell b j (leakLatched b j s))).at b).sy = (s.at b).sy :=
    shutdown_vented.sy.trans (latchTold_touch.at_sy (by decide) b)
  refine (logRec_calm (b := b) (s := ringSend b none (.leakTrump (fld (s.at b).cl.valve 15 8))
    (shutdown b true 0x15 15 (ropeTell b j (leakLatched b j s)))) .refl).more _ ?_
  rw [ringSend_out_of_clock (by rw [sy]; exact clock)]
  exact List.mem_append_right _ List.mem_cons_self

/-! ### The harbour's part (R177, R232, R412) -/

/-- A withdrawal leaves the other slots' admissions and grants. -/
theorem withdraw_ne {h k i : BId} {trump : Bool} (harbour : s.harbour = some h) (ne : k ≠ i) :
    vget ((withdraw i trump s).at h).tray.pw.admis k.val = vget (s.at h).tray.pw.admis k.val
    ∧ vget ((withdraw i trump s).at h).tray.pw.grant k.val = vget (s.at h).tray.pw.grant k.val := by
  have away : i.val ≠ k.val := Fin.val_ne_of_ne ne.symm
  have dropped : ((grantDropped i s).at h).tray.pw.admis = (s.at h).tray.pw.admis
      ∧ ((grantDropped i s).at h).tray.pw.grant = (s.at h).tray.pw.grant := by
    rw [grantDropped, onTray_eq harbour, updTray_tray]
    exact ⟨rfl, rfl⟩
  have taken : ((setGrant i 0 (setAdmit i .none (grantDropped i s))).at h).tray.pw.admis = vset (s.at h).tray.pw.admis i.val .none
      ∧ ((setGrant i 0 (setAdmit i .none (grantDropped i s))).at h).tray.pw.grant = vset (s.at h).tray.pw.grant i.val 0 := by
    have role : (setAdmit i .none (grantDropped i s)).harbour = some h :=
      ((setAdmit_touch sub_self .refl).harbour_eq.trans grantDropped_harbour).trans harbour
    rw [setGrant_tray role, setAdmit_tray (grantDropped_harbour.trans harbour)]
    exact ⟨congrArg (vset · i.val .none) dropped.1, congrArg (vset · i.val 0) dropped.2⟩
  rw [withdraw_eq]
  split
  · exact ⟨rfl, rfl⟩
  · split
    · rw [updPw_tray, taken.1, taken.2]
      exact ⟨vget_vset_ne away, vget_vset_ne away⟩
    · rw [taken.1, taken.2]
      exact ⟨vget_vset_ne away, vget_vset_ne away⟩

/-- Slot k's turn in the withdrawals of a leak trump. -/
def leakWithdraws (mask : Nat) (k : BId) (t : State) : State := if nbit mask k.val then withdraw k true t else t

theorem leakAtHarbour_eq {mask : Nat} : leakAtHarbour mask s = attn 0 (iter allB (leakWithdraws mask) s) := rfl

theorem leakWithdraws_touch {mask : Nat} {k : BId} : Touch [.pw, .tray] s (leakWithdraws mask k s) :=
  ite_touch (withdraw_touch (by decide) .refl) .refl

/-- Every slot of the mask loses admission and grant. -/
theorem leakAtHarbour_withdraws {h k : BId} {mask : Nat} (harbour : s.harbour = some h) (named : nbit mask k.val = true) :
    vget ((leakAtHarbour mask s).at h).tray.pw.admis k.val = .none ∧ vget ((leakAtHarbour mask s).at h).tray.pw.grant k.val = 0 := by
  rw [leakAtHarbour_eq, (attn_touch sub_self .refl).at_tray (by decide)]
  refine (iter_turn (x := k) (P := fun t => t.harbour = some h) (Q := fun t => t.harbour = some h
    ∧ vget (t.at h).tray.pw.admis k.val = .none ∧ vget (t.at h).tray.pw.grant k.val = 0) mem_allB allB_nodup harbour
    (fun i t _ role => leakWithdraws_touch.harbour_eq.trans role) (fun t role => ?_) (fun i t ne ⟨role, admis, grant⟩ => ?_)).2
  · refine ⟨leakWithdraws_touch.harbour_eq.trans role, ?_⟩
    rw [leakWithdraws, if_pos named]
    exact withdraw_admits role
  · refine ⟨leakWithdraws_touch.harbour_eq.trans role, ?_⟩
    unfold leakWithdraws
    split
    · obtain ⟨sameA, sameG⟩ := withdraw_ne (trump := true) role (Ne.symm ne)
      exact ⟨sameA.trans admis, sameG.trans grant⟩
    · exact ⟨admis, grant⟩

theorem leakAtHarbour_attn {h : BId} {mask : Nat} (harbour : s.harbour = some h) : nbit ((leakAtHarbour mask s).at h).tw.attn 0 = true := by
  rw [leakAtHarbour_eq]
  refine attn_sets ?_
  exact iter_induction (P := fun t => t.harbour = some h) harbour fun i t role => leakWithdraws_touch.harbour_eq.trans role

/-! ### The obligation -/

theorem fin2_flip : 1 - r.val ≠ r.val := by omega

/-- A rope that is wet for the first time (R232, R233). -/
theorem leakTrump_answers (live : ropeLive (ropeOf s b r.val) = true) (long : fld (ropeOf s b r.val).cfg 31 28 ≤ (ropeOf s b r.val).wetRun)
    (fresh : (ropeOf s b r.val).wetDone = false) (dry : (ropeOf s b r.val).latch = false) (other : (ropeOf s b (1 - r.val)).latch = false) :
    Answers (.leakTrump b r) s fun t => (ropeOf t b r.val).st = .wet ∧ (ropeOf t b r.val).latch = true
      ∧ ((s.at b).sy.holdover = false → .ring b none (.leakTrump (fld (s.at b).cl.valve 15 8)) ∈ t.out)
      ∧ (t.at b).rl.slot ≠ .powering ∧ (t.at b).rl.slot ≠ .up
      ∧ ((s.at b).rl.slot = .powering ∨ (s.at b).rl.slot = .up → (t.at b).rl.kindFault = true)
      ∧ ((s.at b).sy.st = .active ∧ (s.at b).sy.retireOrder = false ∧ bitAt (s.at b).cl.valve 0 = true →
          (t.at b).cl.valveOut = some (bitAt (s.at b).cl.valve 1)) := by
  refine answers_of_run (congrArg (ran s) (leakTrump_first (s := s.begin) live long fresh dry other fin2_flip)) fun t queue e => ?_
  have touch : Touch [.freeCtr, .pw, .dk, .tw, .us, .tray] (leakTold b r.val s.begin) (if (leakTold b r.val s.begin).isHbr b
      then leakAtHarbour (fld (s.begin.at b).cl.valve 15 8) (leakTold b r.val s.begin) else leakTold b r.val s.begin) :=
    ite_touch (leakAtHarbour_touch sub_self .refl) .refl
  have rope : ropeOf (leakTold b r.val s.begin) b r.val = _ := leakTold_vented.ropeOf.trans (ropeTell_rope.trans leakLatched_rope)
  have rl : (t.at b).rl = ((shutdown b true 0x15 15 (ropeTell b r.val (leakLatched b r.val s.begin))).at b).rl := by
    rw [e.at_eq, touch.at_rl (by decide), leakTold_rl]
  have before : ((ropeTell b r.val (leakLatched b r.val s.begin)).at b).rl = (s.at b).rl := latchTold_touch.at_rl (by decide) b
  rw [e.rope, ropeOf_of_touch touch (by decide), rope, rl]
  refine ⟨rfl, rfl, fun clock => ?_, shutdown_slotOff.1, shutdown_slotOff.2, fun on => ?_, fun ⟨active, order, fitted⟩ => ?_⟩
  · rw [e.out, touch.at_out (by decide)]
    exact leakTold_out (s := s.begin) clock
  · rw [shutdown_of_on (by rw [before]; exact on)]
    exact startShutdown_shutBy.kindFault
  · have sy : ((ropeTell b r.val (leakLatched b r.val s.begin)).at b).sy = (s.at b).sy := latchTold_touch.at_sy (by decide) b
    rw [e.at_eq, touch.at_cl (by decide), leakTold_vented.stays (by rw [sy]; exact active) (by rw [sy]; exact order),
      ropeTell_valveOut, leakLatched_cl]
    exact if_pos fitted

/-! ### Open and dry ropes (R229, R231) -/

/-- A confirmed open reading. -/
def openNoted (b : BId) (j : Nat) (s : State) : State := updRope b j (fun p =>
  { p with st := if (classEvent s b 9 (ropeOf s b j).hist).1 then .retired else .openCircuit, openDone := true
           openCnt := sinc8 p.openCnt, hist := (classEvent s b 9 (ropeOf s b j).hist).2.1 }) s

theorem ropeOpen_eq (live : ropeLive (ropeOf s b j) = true) (long : fld (ropeOf s b j).cfg 31 28 ≤ (ropeOf s b j).openRun)
    (fresh : (ropeOf s b j).openDone = false) : ∃ told : State → State, (∀ t, Touch [.out, .freeCtr, .rp, .log, .dk, .us] t (told t))
      ∧ ropeOpen b j s = gateCheck b (ropeTell b j (told (openNoted b j s))) := by
  unfold ropeOpen
  extract_lets p ev s1 s2 s3
  rw [if_neg (by simp [p, live, long, fresh])]
  exact ⟨fun t => if ev.1 then notice b 0x07 j 0x09 ev.2.2 (logRec b 0x2B (pack [(j, 0, 1), (b2n ev.1, 8, 1)])
      (pack [((inOf t b (20 + j)).code, 0, 12), (fld p.cfg 27 16, 16, 12)]) (wordOf (min (ev.2.2 + 1) 255)) t)
    else logRec b 0x2B (pack [(j, 0, 1), (b2n ev.1, 8, 1)])
      (pack [((inOf t b (20 + j)).code, 0, 12), (fld p.cfg 27 16, 16, 12)]) (wordOf (min (ev.2.2 + 1) 255)) t,
    fun t => ite_touch (notice_touch (by decide) (logRec_touch sub_self .refl)) (logRec_touch sub_self .refl), rfl⟩

theorem ropeDry_eq (live : ropeLive (ropeOf s b j) = true) (long : fld (ropeOf s b j).cfg 31 28 ≤ (ropeOf s b j).dryRun)
    (wet : (ropeOf s b j).st ≠ .dry) : ropeDry b j s = ropeTell b j (updRope b j (fun p => { p with st := .dry }) s) :=
  if_neg (by simp [live, long, wet])

/-! ### LK_CLEAR (R233) -/

theorem lkClear_eq {req : ReqId} {w : Word} (host : req = 9 ∨ req = 10) (key : fld w 31 16 = 0x1EAC) (names : fld w 0 0 = j)
    (latched : (ropeOf s b j).latch = true) (dry : (ropeOf s b j).st = .dry) : lkClear b req w s =
      ropeTell b j (logRec b 0x2C (pack [(j, 0, 1), (req.val, 8, 4)]) 0 0 (updRope b j (fun p => { p with latch := false }) s)) := by
  subst names
  refine if_neg ?_
  rcases host with rfl | rfl
  · simp [key, latched, dry]
  · simp [key, latched, dry]

theorem lkClear_refuses {req : ReqId} {w : Word} (no : req ≠ 9 ∧ req ≠ 10 ∨ fld w 31 16 ≠ 0x1EAC
    ∨ fld w 0 0 = j ∧ (ropeOf s b j).latch = false ∨ fld w 0 0 = j ∧ (ropeOf s b j).st ≠ .dry) : lkClear b req w s = s := by
  refine if_pos ?_
  rcases no with ⟨nine, ten⟩ | key | ⟨rfl, open'⟩ | ⟨rfl, wet⟩
  · simp [nine, ten]
  · simp [key]
  · simp [open']
  · simp [wet]

/-- Settles O28: wet, open and dry ropes, the other berths' views, and LK_CLEAR. -/
theorem leakRopes : Obligations.LeakRopes := by
  unfold Obligations.LeakRopes
  refine fun s b r => ⟨fun ⟨live, long, fresh⟩ => ⟨fun ⟨dry, other⟩ => leakTrump_answers live long fresh dry other, fun latched => ?_⟩,
    fun m mask ne => ?_, fun ⟨live, long, fresh⟩ => ?_, fun ⟨live, long, wet⟩ => ?_, fun m st latch ne => ?_,
    fun req w pass => ⟨fun ⟨host, key, names, latched, dry⟩ => ?_, fun no => ?_⟩⟩
  · refine answers_of_run (congrArg (ran s) (leakTrump_again (s := s.begin) live long fresh latched)) fun t queue e => ?_
    have record : Touch [.out, .freeCtr, .rp, .log, .dk, .us] (ropeTell b r.val (updRope b r.val wetted s.begin))
        (leakRecord b r.val (ropeTell b r.val (updRope b r.val wetted s.begin))) := leakRecord_touch sub_self .refl
    have told : Touch [.out, .rp, .cl] s.begin (ropeTell b r.val (updRope b r.val wetted s.begin)) :=
      ropeTell_touch sub_self (updRope_touch (by decide) .refl)
    rw [e.rope, e.at_eq, ropeOf_of_touch record (by decide), ropeTell_rope, ropeOf_updRope, record.at_rl (by decide), told.at_rl (by decide),
      record.at_cl (by decide), ropeTell_valveOut, updRope, updCl_cl]
    exact ⟨rfl, latched, rfl, rfl⟩
  · have run : leakTrumpReceive b m mask.toNat s.begin =
        let u := if nbit mask.toNat b.val then shutdown b true 0x15 15 s.begin else s.begin
        if u.isHbr b then leakAtHarbour mask.toNat u else u := if_neg (by simpa using ne)
    refine answers_of_run (congrArg (ran s) run) fun t queue e => ?_
    dsimp only at e
    have shut : Touch [.out, .freeCtr, .rp, .rl, .log, .pw, .hw, .svc, .cl, .pl, .dk, .dm, .tw, .us, .tray, .tcm, .deck] s.begin
        (if nbit mask.toNat b.val then shutdown b true 0x15 15 s.begin else s.begin) := ite_touch (shutdown_touch sub_self .refl) .refl
    refine ⟨fun named => ?_, fun harbour => ?_⟩
    · have touch : Touch [.freeCtr, .pw, .dk, .tw, .us, .tray] (shutdown b true 0x15 15 s.begin) (if (shutdown b true 0x15 15 s.begin).isHbr b
          then leakAtHarbour mask.toNat (shutdown b true 0x15 15 s.begin) else shutdown b true 0x15 15 s.begin) :=
        ite_touch (leakAtHarbour_touch sub_self .refl) .refl
      rw [if_pos named] at e
      rw [e.at_eq, touch.at_rl (by decide)]
      exact shutdown_slotOff
    · have role : (if nbit mask.toNat b.val then shutdown b true 0x15 15 s.begin else s.begin).harbour = some b := shut.harbour_eq.trans harbour
      have holds : (if nbit mask.toNat b.val then shutdown b true 0x15 15 s.begin else s.begin).isHbr b = true := isHarbour_of_harbour role
      rw [if_pos holds] at e
      rw [e.at_eq]
      exact ⟨leakAtHarbour_attn role, fun n named => leakAtHarbour_withdraws role named⟩
  · obtain ⟨told, tells, run⟩ := ropeOpen_eq (s := s.begin) live long fresh
    refine answers_of_run (congrArg (ran s) run) fun t queue e => ?_
    have same : classEvent s.begin b 9 (ropeOf s.begin b r.val).hist = classEvent s b 9 (ropeOf s b r.val).hist :=
      classEvent_congr rfl rfl fun _ => rfl
    rw [e.rope, gateCheck_vented.ropeOf, ropeTell_rope, ropeOf_of_touch (tells _) (by decide), openNoted, ropeOf_updRope, same]
    exact ⟨rfl, rfl, rfl⟩
  · refine answers_of_run (congrArg (ran s) (ropeDry_eq (s := s.begin) live long wet)) fun t queue e => ?_
    have dried : ropeOf (updRope b r.val (fun p => { p with st := .dry }) s.begin) b r.val = { ropeOf s b r.val with st := .dry } :=
      ropeOf_updRope
    refine ⟨e.keeps queue (.ofBegin (updRope_within.trans ropeTell_within)), ?_, fun clock => ?_⟩
    · rw [e.rope, ropeTell_rope, dried]
    · have sy : ((updRope b r.val (fun p => { p with st := .dry }) s.begin).at b).sy = (s.at b).sy :=
        (updRope_touch (fs := [.cl]) sub_self .refl).at_sy (by decide) b
      rw [e.out, ropeTell_out (by rw [sy]; exact clock), dried]
      rfl
  · have run : ropeNotice b m r.val st latch s.begin = gateCheck b (s.begin.updCl b fun x =>
        { x with ropeView := vset x.ropeView (2 * m.val + r.val) st, latchView := vset x.latchView (2 * m.val + r.val) latch }) :=
      if_neg (by simpa using ne)
    refine answers_of_run (congrArg (ran s) run) fun t queue e => ?_
    obtain ⟨v, cl⟩ := (gateCheck_vented (b := b) (s := s.begin.updCl b fun x =>
        { x with ropeView := vset x.ropeView (2 * m.val + r.val) st, latchView := vset x.latchView (2 * m.val + r.val) latch })).cl
    rw [e.at_eq, cl, updCl_cl]
    have lt : 2 * m.val + r.val < 16 := by omega
    exact ⟨vget_vset_self lt, vget_vset_self lt⟩
  · refine answers_viaBus (act := lkClear b req w) pass rfl fun t bus => ?_
    rw [lkClear_eq (s := s.begin) host key names latched dry] at bus
    have cleared : Touch [.out, .freeCtr, .rp, .log, .dk, .us] (updRope b r.val (fun p => { p with latch := false }) s.begin)
        (logRec b 0x2C (pack [(r.val, 0, 1), (req.val, 8, 4)]) 0 0 (updRope b r.val (fun p => { p with latch := false }) s.begin)) :=
      logRec_touch sub_self .refl
    have rope : ropeOf (logRec b 0x2C (pack [(r.val, 0, 1), (req.val, 8, 4)]) 0 0 (updRope b r.val (fun p => { p with latch := false }) s.begin))
        b r.val = { ropeOf s b r.val with latch := false } := (ropeOf_of_touch cleared (by decide)).trans ropeOf_updRope
    refine ⟨(ropeOf_of_touch bus (by decide)).trans (ropeTell_rope.trans rope), fun clock => ?_⟩
    have sy := (cleared.at_sy (by decide) b).trans ((updRope_touch (fs := [.cl]) sub_self .refl).at_sy (by decide) b)
    rw [bus.at_out (by decide), ropeTell_out (by rw [sy]; exact clock), rope, dry]
    exact List.mem_append_right _ List.mem_cons_self
  · refine answers_viaBus (act := lkClear b req w) pass rfl fun t bus => ?_
    rw [lkClear_refuses (s := s.begin) no] at bus
    exact (bus.mono (by decide)).agreeOff_begin

end

end Sys2Proof.Machine

/-! The orders to AR_CMD (R250 to R252, R255 to R257, R260). -/
namespace Sys2Proof.Machine
set_option Elab.async false

section
variable {s t u : State} {b : BId} {k : Fin 8} {j n cmd first r : Nat} {req : ReqId}

/-! ### Arrays and the engine -/

theorem updAr_ar {f : Ar → Ar} : ((updAr b f s).at b).ar = f (s.at b).ar := by rw [updAr, State.upd_at, if_pos rfl]

theorem arrOf_updAr {f : Ar → Ar} (keeps : ∀ e, (f e).arr = e.arr) : arrOf (updAr b f s) b j = arrOf s b j := by
  rw [arrOf, updAr_ar, keeps, arrOf]

theorem updArr_ar {f : Arr → Arr} : ((updArr b j f s).at b).ar = { (s.at b).ar with arr := vmod (s.at b).ar.arr j f } := updAr_ar

theorem arrOf_updArr {f : Arr → Arr} (lt : j < 8) : arrOf (updArr b j f s) b j = f (arrOf s b j) := by
  rw [arrOf, updArr_ar]
  exact vget_vmod_self lt

theorem arrOf_updArr_ne {f : Arr → Arr} (ne : n ≠ j) : arrOf (updArr b j f s) b n = arrOf s b n := by
  rw [arrOf, updArr_ar]
  exact vget_vmod_ne ne.symm

theorem EndsAs.arr (e : EndsAs u t) : arrOf t b j = arrOf u b j := by rw [arrOf, e.at_eq, arrOf]

theorem arrOf_of_touch {fs : List Piece} (h : Touch fs s t) (out : Piece.ar ∉ fs) : arrOf t b j = arrOf s b j := by
  rw [arrOf, h.at_ar out, arrOf]

/-! ### A quiet loader (R287) -/

theorem nextTile_congr (pg : ∀ c, (t.at c).pg = (s.at c).pg) : nextTile t b = nextTile s b := by
  unfold nextTile graphOf
  simp only [pg]

theorem inRun_congr (pg : ∀ c, (t.at c).pg = (s.at c).pg) : inRun t b j = inRun s b j := by
  unfold inRun
  simp only [pg]

/-- Where no graph waits for the loader, nothing follows an act of the engine. -/
theorem afterArray_quiet {fs : List Piece} (quiet : LoaderQuiet s b) (h : Touch fs s t) (out : Piece.pg ∉ fs) : afterArray b t = t := by
  obtain ⟨free, none'⟩ := quiet
  have ord : (t.at b).pg.ord = none := by rw [h.at_pg out]; exact free
  have tile : nextTile t b = none := (nextTile_congr (h.at_pg out)).trans none'
  unfold afterArray
  rw [ord]
  dsimp only
  unfold loaderPump
  split
  · rfl
  · rw [tile]

/-! ### The engine's orders (R250, R251) -/

/-- AR_CMD_STAT of an order of CMD code cmd. -/
def resultSet (cmd k res : Nat) (req : ReqId) (e : Ar) : Ar := { e with lastCmd := cmd, cmdArr := k, result := res, cmdReq := req.val }

theorem arResult_ar {res : Nat} : ((arResult b cmd j res req s).at b).ar = resultSet cmd j res req (s.at b).ar := updAr_ar

theorem arrOf_arResult {res : Nat} : arrOf (arResult b cmd j res req s) b n = arrOf s b n := arrOf_updAr fun _ => rfl

/-- The engine's registers at an order's start. -/
def engineBegun (cmd first : Nat) (req : ReqId) (now : Nat) (e : Ar) : Ar :=
  { e with cmd := cmd, ordReq := req.val, rowFirst := first, sweep := false, low := false, abort := false, since := now
           copy := [], target := [], plan := [], newPairs := [], noSpare := false, failed := false }

/-- An array that an order makes BUSY. -/
def arrBegun (a : Arr) : Arr :=
  { a with st := .busy, seqRun := .replicate 160 0, calDue := false, calRun := false, massDue := false, massDone := false, testDue := 0 }

theorem arBegin_eq : arBegin b cmd j first req s =
    if cmd == 5 then updAr b (engineBegun cmd first req s.now) s else updArr b j arrBegun (updAr b (engineBegun cmd first req s.now) s) := rfl

theorem arOrder_refuses (no : ownOrEngine b req = false ∨ (s.at b).ar.phase ≠ .idle) : arOrder b req cmd j first s = s := by
  refine if_pos ?_
  rcases no with other | busy
  · simp [other]
  · simp [busy]

theorem arAbort_takes (own : ownOrEngine b req = true) (busy : (arrOf s b j).st = .busy) :
    arAbort b req j s = updAr b (fun e => { e with lastCmd := 6, cmdReq := req.val, abort := true }) s :=
  if_neg (by simp [own, arrSt, busy])

theorem arAbort_refuses (no : ownOrEngine b req = false ∨ (arrOf s b j).st ≠ .busy) : arAbort b req j s = s := by
  refine if_pos ?_
  rcases no with other | free
  · simp [other]
  · simp [arrSt, free]

/-- The engine's note of a REPAIR with nothing to repair. -/
def repairWhole (req : ReqId) (now : Nat) (e : Ar) : Ar := { e with cmd := 3, ordReq := req.val, since := now }

section
variable (own : ownOrEngine b req = true) (idle : (s.at b).ar.phase = .idle)
include own idle

theorem arOrder_result (bad : arRefuse s b cmd j ≠ 0) : arOrder b req cmd j first s = arResult b cmd j (arRefuse s b cmd j) req s := by
  unfold arOrder
  rw [if_neg (by simp [own, idle]), if_pos (by simpa using bad)]

/-- A REPAIR of an array without a short output ends at once (R257). -/
theorem arOrder_whole (good : arRefuse s b 3 j = 0) (whole : shortOuts (arrOf s b j) = []) : arOrder b req 3 j first s =
    arEnd b 0x0C (arrSt s b j) (updAr b (repairWhole req s.now) (arResult b 3 j 0 req s)) := by
  unfold arOrder
  rw [if_neg (by simp [own, idle]), if_neg (by simp [good]), if_pos (by simp [whole])]
  rfl

theorem arOrder_cal (good : arRefuse s b 4 j = 0) : arOrder b req 4 j first s = updArr b j calOrder (arResult b 4 j 0 req s) := by
  unfold arOrder
  rw [if_neg (by simp [own, idle]), if_neg (by simp [good]), if_neg (by simp)]
  rfl

/-- The engine waits for the pass. -/
def passBegun (b : BId) (req : ReqId) (j : Nat) (s : State) : State := arBegin b 5 j 0 req (arResult b 5 j 0 req s)

theorem arOrder_pass (good : arRefuse s b 5 j = 0) : arOrder b req 5 j first s =
    updAr b (fun e => { e with phase := .pass, input := arRead (passBegun b req j s) b e.src.toNat 256 }) (passBegun b req j s) := by
  unfold arOrder
  rw [if_neg (by simp [own, idle]), if_neg (by simp [good]), if_neg (by simp)]
  rfl

/-- PROG, VERIFY or REPAIR is taken. -/
def orderTaken (b : BId) (req : ReqId) (cmd j first : Nat) (s : State) : State :=
  updAr b (fun e => { e with phase := .start }) (arBegin b cmd j first req (arResult b cmd j 0 req s))

theorem arOrder_starts (good : arRefuse s b cmd j = 0) (kind : cmd = 1 ∨ cmd = 2 ∨ cmd = 3) (short : cmd = 3 → shortOuts (arrOf s b j) ≠ []) :
    arOrder b req cmd j first s = orderStart b (orderTaken b req cmd j (if cmd == 1 then first else 0) s) := by
  unfold arOrder
  rw [if_neg (by simp [own, idle]), if_neg (by simp [good])]
  rcases kind with rfl | rfl | rfl
  · rw [if_neg (by simp)]
    rfl
  · rw [if_neg (by simp)]
    rfl
  · rw [if_neg (by simp [short rfl])]
    rfl

end

/-! ### Rows and ends (R251, R255) -/

/-- The engine and the order's array once the order has ended. -/
def endedAr (result : Nat) (st : ArrSt) (e : Ar) : Ar :=
  { (if (vget e.arr e.cmdArr).st == .busy then { e with arr := vmod e.arr e.cmdArr fun a => { unretCols a with st := st } } else e) with
    phase := .idle, result := result, abort := false, copy := [], target := [], plan := [], newPairs := [], input := [] }

theorem arEnd_ar {result : Nat} {st : ArrSt} : ((arEnd b result st s).at b).ar = endedAr result st (s.at b).ar := by
  unfold arEnd
  extract_lets e s1 s2
  have ended : (s2.at b).ar = endedAr result st (s.at b).ar := by
    rw [show (s2.at b).ar = _ from updAr_ar]
    unfold s1 endedAr
    by_cases busy : ((arrOf s b e.cmdArr).st == .busy) = true
    · rw [if_pos busy, updArr_ar, if_pos (show ((vget (s.at b).ar.arr (s.at b).ar.cmdArr).st == .busy) = true from busy)]
    · rw [if_neg busy, if_neg (show ¬((vget (s.at b).ar.arr (s.at b).ar.cmdArr).st == .busy) = true from busy)]
  rw [(irq_touch sub_self .refl).at_ar (by decide), (logRec_touch sub_self .refl).at_ar (by decide), ended]

/-- What every order's end leaves of the engine. -/
structure Ended (result : Nat) (e e' : Ar) : Prop where
  phase : e'.phase = .idle
  result : e'.result = result
  rowReg : e'.rowReg = e.rowReg
  acc : e'.acc = e.acc
  passes : e'.passes = e.passes

theorem endedAr_ended {result : Nat} {st : ArrSt} {e : Ar} : Ended result e (endedAr result st e) := by
  unfold endedAr
  split
  · exact ⟨rfl, rfl, rfl, rfl, rfl⟩
  · exact ⟨rfl, rfl, rfl, rfl, rfl⟩

/-- A BUSY array takes the order's last state. -/
theorem endedAr_st {result : Nat} {st : ArrSt} {e : Ar} (lt : e.cmdArr < 8) (busy : (vget e.arr e.cmdArr).st = .busy) :
    (vget (endedAr result st e).arr e.cmdArr).st = st := by
  unfold endedAr
  rw [if_pos (beq_iff_eq.mpr busy)]
  exact congrArg Arr.st (vget_vmod_self lt)

/-- An order that stops within the rows it programs. -/
def withinRows (half : Bool) (e : Ar) : Bool :=
  half && (e.cmd == 1 || e.cmd == 3) && (match e.phase with | .sense | .round _ => true | _ => false)

/-- A PROG or REPAIR that stops within its rows leaves the array half done. -/
def halfNoted (half : Bool) (e : Ar) : Ar :=
  if withinRows half e = true then { e with arr := vmod e.arr e.cmdArr fun a => { a with halfDone := true } } else e

theorem arFail_ar {half : Bool} {result : Nat} : ((arFail b half result s).at b).ar = endedAr result .invalid (halfNoted half (s.at b).ar) := by
  unfold arFail
  extract_lets e within
  rw [arEnd_ar]
  by_cases noted : within = true
  · rw [if_pos noted, updArr_ar]
    exact congrArg (endedAr result .invalid) (if_pos noted).symm
  · rw [if_neg noted]
    exact congrArg (endedAr result .invalid) (if_neg noted).symm

/-- What the note keeps of the engine. -/
structure HalfKept (e e' : Ar) : Prop where
  cmdArr : e'.cmdArr = e.cmdArr
  rowReg : e'.rowReg = e.rowReg
  acc : e'.acc = e.acc
  passes : e'.passes = e.passes

theorem halfNoted_kept {half : Bool} {e : Ar} : HalfKept e (halfNoted half e) := by
  by_cases within : withinRows half e = true
  · rw [halfNoted, if_pos within]
    exact ⟨rfl, rfl, rfl, rfl⟩
  · rw [halfNoted, if_neg within]
    exact ⟨rfl, rfl, rfl, rfl⟩

theorem halfNoted_st {half : Bool} {e : Ar} (lt : e.cmdArr < 8) : (vget (halfNoted half e).arr e.cmdArr).st = (vget e.arr e.cmdArr).st := by
  by_cases within : withinRows half e = true
  · rw [halfNoted, if_pos within]
    dsimp only
    rw [vget_vmod_self lt]
  · rw [halfNoted, if_neg within]

theorem arFail_ended {half : Bool} {result : Nat} : Ended result (s.at b).ar ((arFail b half result s).at b).ar := by
  have ended : Ended result (halfNoted half (s.at b).ar) ((arFail b half result s).at b).ar := by
    rw [arFail_ar]
    exact endedAr_ended
  have kept := halfNoted_kept (half := half) (e := (s.at b).ar)
  exact ⟨ended.phase, ended.result, ended.rowReg.trans kept.rowReg, ended.acc.trans kept.acc, ended.passes.trans kept.passes⟩

/-- A stopped order's BUSY array is INVALID. -/
theorem arFail_st {half : Bool} {result : Nat} (lt : (s.at b).ar.cmdArr < 8) (busy : (arrOf s b (s.at b).ar.cmdArr).st = .busy) :
    (arrOf (arFail b half result s) b (s.at b).ar.cmdArr).st = .invalid := by
  rw [arrOf, arFail_ar]
  generalize noted : halfNoted half (s.at b).ar = e
  have same : e.cmdArr = (s.at b).ar.cmdArr := noted ▸ halfNoted_kept.cmdArr
  have st : (vget e.arr (s.at b).ar.cmdArr).st = .busy := noted ▸ (halfNoted_st lt).trans busy
  rw [← same] at lt st ⊢
  exact endedAr_st lt st

/-- Whether the engine reads row r of the source (R251, R256). -/
def rowFresh (e : Ar) (r : Nat) : Bool :=
  e.cmd != 3 && (!e.sweep && !e.low || e.sweep && r < e.rowFirst || e.low && e.newPairs.isEmpty)

theorem startRow_fails (fresh : rowFresh (s.at b).ar r = true) (away : ¬SourceRow s b r) :
    startRow b r s = arFail b true 0x0B (updAr b (fun e => { e with phase := .sense }) s) := by
  refine if_pos (Bool.and_eq_true_iff.mpr ⟨fresh, ?_⟩)
  rw [Bool.not_eq_true']
  exact Bool.eq_false_iff.mpr away

/-- The engine's registers while row r is sensed. -/
structure Senses (r : Nat) (e e' : Ar) : Prop where
  phase : e'.phase = .sense
  row : e'.row = r
  cmd : e'.cmd = e.cmd
  cmdArr : e'.cmdArr = e.cmdArr
  result : e'.result = e.result
  rowReg : e'.rowReg = e.rowReg
  plan : e'.plan = e.plan
  arr : e'.arr = e.arr

theorem startRow_senses (stays : rowFresh (s.at b).ar r = true → SourceRow s b r) : Senses r (s.at b).ar ((startRow b r s).at b).ar := by
  unfold startRow
  extract_lets e a fresh n src bytes s1
  have go : ¬(fresh && !arRange src n) = true := by
    intro both
    obtain ⟨reads, away⟩ := Bool.and_eq_true_iff.mp both
    have inside : arRange src n = true := stays reads
    rw [inside] at away
    exact absurd away (by decide)
  rw [if_neg go, updAr_ar]
  unfold s1
  split
  · rw [updAr_ar]
    exact ⟨rfl, rfl, rfl, rfl, rfl, rfl, rfl, rfl⟩
  · exact ⟨rfl, rfl, rfl, rfl, rfl, rfl, rfl, rfl⟩

/-- Every row of a source that the order's test has passed can be read. -/
theorem arRange_row {a m : Nat} (whole : arSource a (256 * m) = true) (lt : r < 256) : arRange (a + m * r) m = true := by
  have under : m * r + m ≤ 256 * m := by nlinarith
  simp only [arSource, arRange, Bool.and_eq_true, Bool.or_eq_true, decide_eq_true_eq] at whole ⊢
  omega

/-- An accepted PROG or VERIFY has a source whose every row can be read (R251). -/
theorem sourceRow_of_accepted (kind : cmd = 1 ∨ cmd = 2) (good : arRefuse s b cmd j = 0) (lt : r < 256) :
    arRange ((s.at b).ar.src.toNat + logicalN (arrOf s b j).calMode * r) (logicalN (arrOf s b j).calMode) = true := by
  refine arRange_row ?_ lt
  unfold arRefuse at good
  extract_lets x st n stOk argOk at good
  have ok : argOk = true := by
    by_contra no
    rw [Bool.not_eq_true] at no
    rw [no] at good
    split at good
    · exact absurd good (by decide)
    · split at good
      · exact absurd good (by decide)
      · exact absurd good (by decide)
  rcases kind with rfl | rfl
  · exact ok
  · exact ok


/-! ### Orders that start (R252, R257) -/

theorem taken_touch : Touch [.ar] s (orderTaken b req cmd j first s) :=
  updAr_touch sub_self (arBegin_touch sub_self (arResult_touch sub_self .refl))

/-- What PROG, VERIFY and REPAIR make of the engine. -/
structure Taken (b : BId) (cmd j first : Nat) (s t : State) : Prop where
  phase : (t.at b).ar.phase = .start
  cmd : (t.at b).ar.cmd = cmd
  cmdArr : (t.at b).ar.cmdArr = j
  result : (t.at b).ar.result = 0
  rowFirst : (t.at b).ar.rowFirst = first
  sweep : (t.at b).ar.sweep = false
  low : (t.at b).ar.low = false
  src : (t.at b).ar.src = (s.at b).ar.src
  arr : arrOf t b j = arrBegun (arrOf s b j)

theorem orderTaken_taken (lt : j < 8) (rows : cmd ≠ 5) : Taken b cmd j first s (orderTaken b req cmd j first s) := by
  have ar : ((orderTaken b req cmd j first s).at b).ar = { engineBegun cmd first req s.now (resultSet cmd j 0 req (s.at b).ar) with
      arr := vmod (s.at b).ar.arr j arrBegun, phase := .start } := by
    rw [orderTaken, arBegin_eq, if_neg (by simpa using rows), updAr_ar, updArr_ar, updAr_ar, arResult_ar]
    rfl
  refine ⟨congrArg Ar.phase ar, congrArg Ar.cmd ar, congrArg Ar.cmdArr ar, congrArg Ar.result ar, congrArg Ar.rowFirst ar,
    congrArg Ar.sweep ar, congrArg Ar.low ar, (congrArg Ar.src ar).trans rfl, ?_⟩
  rw [arrOf, ar]
  exact vget_vmod_self lt

theorem orderStart_waits (run : inRun s b (s.at b).ar.cmdArr = true) : orderStart b s = s := if_pos (by rw [run, Bool.or_true])

theorem orderStart_starts (phase : (s.at b).ar.phase = .start) (idle : inRun s b (s.at b).ar.cmdArr = false) : orderStart b s =
    match (s.at b).ar.cmd with
    | 1 => startProg b (s.at b).ar.cmdArr (s.at b).ar.rowFirst s
    | 2 => startRow b 0 s
    | _ => startRepair b (s.at b).ar.cmdArr s := if_neg (by simp [phase, idle])

/-- The engine's registers at a PROG's start. -/
def progAr (first : Nat) (pl : List Repair × Bool) (e : Ar) : Ar :=
  { e with noSpare := pl.2, rowReg := first, newPairs := if first == 0 then [] else pl.1.map (·.pair) }

/-- Short outputs take their spare pairs. -/
def pairsTaken (plan : List Repair) (a : Arr) : Arr := { a with map := plan.foldl (fun m p => vset m (3 * p.out + p.copy) p.pair) a.map }

/-- The array once PROG has given its short outputs their pairs. -/
def progPaired (b : BId) (j first : Nat) (pl : List Repair × Bool) (s : State) : State :=
  updAr b (progAr first pl) (updArr b j (pairsTaken pl.1) s)

theorem progPaired_arr {pl : List Repair × Bool} (lt : j < 8) : arrOf (progPaired b j first pl s) b j = pairsTaken pl.1 (arrOf s b j) :=
  (arrOf_updAr (f := progAr first pl) fun _ => rfl).trans (arrOf_updArr lt)

theorem startProg_eq (enough : (planCopies (arrOf s b j)).2 = false) (lt : j < 8) (busy : (arrOf s b j).st = .busy) :
    startProg b j first s = startRow b first (progPaired b j first (planCopies (arrOf s b j)) s) := by
  have fine : arrSt (progPaired b j first (planCopies (arrOf s b j)) s) b j = .busy := by
    rw [arrSt, progPaired_arr lt]
    exact busy
  unfold startProg
  extract_lets pl s1 s2 s3
  have same : s3 = progPaired b j first pl s := if_neg (by simp [pl, enough])
  rw [same, if_neg (by rw [fine]; decide)]

/-- The engine's registers at a REPAIR's start. -/
def repairAr (pl : List Repair × Bool) (e : Ar) : Ar := { e with plan := pl.1, noSpare := pl.2, rowReg := 0 }

theorem startRepair_eq (enough : (planCopies (arrOf s b j)).2 = false) (busy : (arrOf s b j).st = .busy)
    (copies : (planCopies (arrOf s b j)).1 ≠ []) (sources : ∀ p ∈ (planCopies (arrOf s b j)).1, p.src < 76) :
    startRepair b j s = startRow b 0 (updAr b (repairAr (planCopies (arrOf s b j))) s) := by
  have fine : arrSt (updAr b (repairAr (planCopies (arrOf s b j))) s) b j = .busy := by
    rw [arrSt, arrOf_updAr (f := repairAr (planCopies (arrOf s b j))) fun _ => rfl]
    exact busy
  unfold startRepair
  extract_lets a pl s1 s2
  have same : s2 = updAr b (repairAr pl) s := if_neg (by simp [pl, a, enough])
  rw [same, if_neg (by rw [fine]; decide), if_neg ?_, if_neg ?_]
  · simpa [List.isEmpty_iff] using copies
  · simpa [List.any_eq_true] using sources

/-- A state whose engine holds an accepted order's source and mode can read every row (R251). -/
theorem sourceRow_ready (kind : cmd = 1 ∨ cmd = 2) (good : arRefuse s b cmd j = 0) (lt : r < 256) (cmdArr : (t.at b).ar.cmdArr = j)
    (src : (t.at b).ar.src = (s.at b).ar.src) (mode : (arrOf t b j).calMode = (arrOf s b j).calMode) : SourceRow t b r := by
  have whole := sourceRow_of_accepted kind good lt
  unfold SourceRow
  rw [cmdArr, src, mode]
  exact whole

/-- The engine at the first row of an order on the BUSY array j. -/
structure Sensing (b : BId) (cmd j r : Nat) (t : State) : Prop where
  phase : (t.at b).ar.phase = .sense
  row : (t.at b).ar.row = r
  cmd : (t.at b).ar.cmd = cmd
  cmdArr : (t.at b).ar.cmdArr = j
  result : (t.at b).ar.result = 0
  busy : (arrOf t b j).st = .busy

theorem Sensing.of_bus (at' : Sensing b cmd j r s) (bus : Touch [.sy] s t) : Sensing b cmd j r t := by
  have ar := bus.at_ar (by decide) b
  exact ⟨by rw [ar]; exact at'.phase, by rw [ar]; exact at'.row, by rw [ar]; exact at'.cmd, by rw [ar]; exact at'.cmdArr,
    by rw [ar]; exact at'.result, by rw [arrOf_of_touch bus (by decide)]; exact at'.busy⟩

theorem startRow_sensing (stays : rowFresh (s.at b).ar r = true → SourceRow s b r) (is : (s.at b).ar.cmd = cmd) (on : (s.at b).ar.cmdArr = j)
    (result : (s.at b).ar.result = 0) (busy : (arrOf s b j).st = .busy) : Sensing b cmd j r (startRow b r s) := by
  have senses := startRow_senses stays
  exact ⟨senses.phase, senses.row, senses.cmd.trans is, senses.cmdArr.trans on, senses.result.trans result,
    by rw [arrOf, senses.arr]; exact busy⟩

section
variable (taken : Taken b cmd j first s t) (free : inRun t b j = false)
include taken free

theorem prog_sensing (lt : j < 8) (row : first < 256) (is : cmd = 1) (good : arRefuse s b 1 j = 0)
    (enough : (planCopies (arrOf s b j)).2 = false) : Sensing b cmd j first (orderStart b t) := by
  have busy : (arrOf t b j).st = .busy := congrArg Arr.st taken.arr
  have plans : planCopies (arrOf t b j) = planCopies (arrOf s b j) := (congrArg planCopies taken.arr).trans rfl
  rw [orderStart_starts taken.phase (by rw [taken.cmdArr]; exact free), taken.cmd, taken.cmdArr, taken.rowFirst, is]
  change Sensing b 1 j first (startProg b j first t)
  rw [startProg_eq (by rw [plans]; exact enough) lt busy]
  have ar : ((progPaired b j first (planCopies (arrOf t b j)) t).at b).ar =
      progAr first (planCopies (arrOf t b j)) ((updArr b j (pairsTaken (planCopies (arrOf t b j)).1) t).at b).ar := updAr_ar
  have paired := progPaired_arr (b := b) (first := first) (s := t) (pl := planCopies (arrOf t b j)) lt
  rw [updArr_ar] at ar
  refine startRow_sensing (fun _ => sourceRow_ready (.inl rfl) good row ?_ ?_ ?_) ?_ ?_ ?_ ?_
  · exact (congrArg Ar.cmdArr ar).trans taken.cmdArr
  · exact (congrArg Ar.src ar).trans taken.src
  · exact (congrArg Arr.calMode paired).trans ((congrArg Arr.calMode taken.arr).trans rfl)
  · exact (congrArg Ar.cmd ar).trans (taken.cmd.trans is)
  · exact (congrArg Ar.cmdArr ar).trans taken.cmdArr
  · exact (congrArg Ar.result ar).trans taken.result
  · exact (congrArg Arr.st paired).trans busy

theorem verify_sensing (is : cmd = 2) (good : arRefuse s b 2 j = 0) : Sensing b cmd j 0 (orderStart b t) := by
  rw [orderStart_starts taken.phase (by rw [taken.cmdArr]; exact free), taken.cmd, is]
  exact startRow_sensing (fun _ => sourceRow_ready (.inr rfl) good (by decide) taken.cmdArr taken.src ((congrArg Arr.calMode taken.arr).trans rfl))
    (taken.cmd.trans is) taken.cmdArr taken.result (congrArg Arr.st taken.arr)

theorem repair_sensing (is : cmd = 3) {plan : List Repair} (plans : planCopies (arrOf s b j) = (plan, false)) (copies : plan ≠ [])
    (sources : ∀ p ∈ plan, p.src < 76) :
    Sensing b cmd j 0 (orderStart b t) ∧ ((orderStart b t).at b).ar.plan = plan := by
  have busy : (arrOf t b j).st = .busy := congrArg Arr.st taken.arr
  have same : planCopies (arrOf t b j) = (plan, false) := ((congrArg planCopies taken.arr).trans rfl).trans plans
  rw [orderStart_starts taken.phase (by rw [taken.cmdArr]; exact free), taken.cmd, taken.cmdArr, is]
  change Sensing b 3 j 0 (startRepair b j t) ∧ ((startRepair b j t).at b).ar.plan = plan
  rw [startRepair_eq (by rw [same]) busy (by rw [same]; exact copies) (by rw [same]; exact sources), same]
  have ar : ((updAr b (repairAr (plan, false)) t).at b).ar = repairAr (plan, false) (t.at b).ar := updAr_ar
  have cmdIs : ((updAr b (repairAr (plan, false)) t).at b).ar.cmd = 3 := (congrArg Ar.cmd ar).trans (taken.cmd.trans is)
  have own : rowFresh ((updAr b (repairAr (plan, false)) t).at b).ar 0 = true → SourceRow (updAr b (repairAr (plan, false)) t) b 0 := by
    intro fresh
    rw [rowFresh, cmdIs] at fresh
    exact absurd fresh (by simp)
  refine ⟨startRow_sensing own cmdIs ((congrArg Ar.cmdArr ar).trans taken.cmdArr) ((congrArg Ar.result ar).trans taken.result) ?_, ?_⟩
  · rw [arrOf_updAr (f := repairAr (plan, false)) fun _ => rfl]
    exact busy
  · exact (startRow_senses own).plan.trans (congrArg Ar.plan ar)

end

/-- An order that is not of a BUSY array leaves the arrays at its end. -/
theorem arrOf_arEnd {result : Nat} {st : ArrSt} (free : (arrOf s b (s.at b).ar.cmdArr).st ≠ .busy) : arrOf (arEnd b result st s) b n = arrOf s b n := by
  rw [arrOf, arEnd_ar, endedAr, if_neg (by simpa [arrOf] using free), arrOf]

theorem free_of_repair (good : arRefuse s b 3 j = 0) : (arrOf s b j).st ≠ .busy := by
  intro busy
  unfold arRefuse at good
  extract_lets x st n stOk argOk at good
  have bad : stOk = false := by
    unfold stOk st arrSt
    rw [busy]
    rfl
  rw [bad] at good
  split at good
  · exact absurd good (by decide)
  · rw [if_pos (by decide)] at good
    exact absurd good (by decide)

/-! ### Answers -/

theorem begin_quiet (quiet : LoaderQuiet s b) : LoaderQuiet s.begin b :=
  ⟨quiet.1, (nextTile_congr fun _ => rfl).trans quiet.2⟩

/-- An order to AR_CMD answers in what the engine makes of it, where the loader is quiet. -/
theorem answers_arOrder {i : Instr} {P : State → Prop} {fs : List Piece} {order : State → State} (pass : WritePasses s req (some b) 0x9020)
    (quiet : LoaderQuiet s b) (within : Touch fs s.begin (order s.begin)) (out : Piece.pg ∉ fs)
    (run : exec i s = ran s (viaBus req (some b) 0x9020 (fun t => afterArray b (order t)) s.begin))
    (h : ∀ t, Touch [.sy] (order s.begin) t → P t) : Answers i s P := by
  refine answers_viaBus (act := fun t => afterArray b (order t)) pass run fun t bus => h t ?_
  rw [show afterArray b (order s.begin) = order s.begin from afterArray_quiet (begin_quiet quiet) within out] at bus
  exact bus

/-- The orders that `arOrder` judges, with their codes and first rows. -/
inductive OrderCode (b : BId) (req : ReqId) (k : Fin 8) (first : Fin 256) : Nat → Nat → Instr → Prop
  | prog : OrderCode b req k first 1 first.val (.prog b req k first)
  | verify : OrderCode b req k first 2 0 (.verify b req k)
  | repair : OrderCode b req k first 3 0 (.repair b req k)
  | cal : OrderCode b req k first 4 0 (.cal b req k)
  | pass : OrderCode b req k first 5 0 (.pass b req k)

variable {fst : Nat} {first' : Fin 256} {i : Instr} {P : State → Prop}

theorem OrderCode.run (code : OrderCode b req k first' cmd fst i) :
    exec i s = ran s (viaBus req (some b) 0x9020 (fun t => afterArray b (arOrder b req cmd k.val fst t)) s.begin) := by
  cases code <;> rfl

theorem OrderCode.answers (code : OrderCode b req k first' cmd fst i) (pass : WritePasses s req (some b) 0x9020) (quiet : LoaderQuiet s b)
    (h : ∀ t, Touch [.sy] (arOrder b req cmd k.val fst s.begin) t → P t) : Answers i s P :=
  answers_arOrder pass quiet (arOrder_touch sub_self .refl) (by decide) code.run h

end

/-- Settles O29: an accepted order starts the engine on the array as it stands. -/
theorem arrayOrders : Obligations.ArrayOrders := by
  unfold Obligations.ArrayOrders
  rintro s b req k first ⟨pass, quiet⟩
  have lt : k.val < 8 := k.isLt
  have freed : ∀ t n, Touch [.ar] s.begin t → inRun s b n = false → inRun t b n = false :=
    fun t n h free => (inRun_congr (h.at_pg (by decide))).trans ((inRun_congr fun _ => rfl).trans free)
  refine ⟨fun no i mem => ?_, fun ⟨own, busy⟩ => ?_, fun no => ?_, fun ⟨own, idle⟩ => ⟨?_, ?_, ?_, ?_, ?_, ?_, ?_, ?_⟩⟩
  · obtain ⟨cmd, fst, code⟩ : ∃ cmd fst, OrderCode b req k first cmd fst i := by
      fin_cases mem
      exacts [⟨_, _, .prog⟩, ⟨_, _, .verify⟩, ⟨_, _, .repair⟩, ⟨_, _, .cal⟩, ⟨_, _, .pass⟩]
    refine code.answers pass quiet fun t bus => ?_
    rw [arOrder_refuses (s := s.begin) no] at bus
    exact (bus.mono (by decide)).agreeOff_begin
  · refine answers_arOrder (order := arAbort b req k.val) pass quiet (arAbort_touch sub_self .refl) (by decide) rfl fun t bus => ?_
    rw [arAbort_takes (s := s.begin) own busy] at bus
    exact ⟨(Touch.trans (updAr_touch (by decide) .refl) (bus.mono (by decide)) : Touch [.out, .ar, .sy] s.begin t).agreeOff_begin, (bus.at_ar (by decide) b).trans updAr_ar⟩
  · refine answers_arOrder (order := arAbort b req k.val) pass quiet (arAbort_touch sub_self .refl) (by decide) rfl fun t bus => ?_
    rw [arAbort_refuses (s := s.begin) no] at bus
    exact (bus.mono (by decide)).agreeOff_begin
  · rintro cmd i ⟨mem, bad⟩
    obtain ⟨fst, code⟩ : ∃ fst, OrderCode b req k first cmd fst i := by
      fin_cases mem
      exacts [⟨_, .prog⟩, ⟨_, .verify⟩, ⟨_, .repair⟩, ⟨_, .cal⟩, ⟨_, .pass⟩]
    refine code.answers pass quiet fun t bus => ?_
    rw [arOrder_result (s := s.begin) own idle bad] at bus
    exact ⟨(Touch.trans (arResult_touch (by decide) .refl) (bus.mono (by decide)) : Touch [.out, .ar, .sy] s.begin t).agreeOff_begin, (bus.at_ar (by decide) b).trans arResult_ar⟩
  · rintro cmd i ⟨mem, good, run⟩
    obtain ⟨fst, kind, code⟩ : ∃ fst, (cmd = 1 ∨ cmd = 2) ∧ OrderCode b req k first cmd fst i := by
      fin_cases mem
      exacts [⟨_, .inl rfl, .prog⟩, ⟨_, .inr rfl, .verify⟩]
    refine code.answers pass quiet fun t bus => ?_
    rw [arOrder_starts (s := s.begin) own idle good (by omega) (by omega)] at bus
    have taken := orderTaken_taken (s := s.begin) (b := b) (req := req) (first := if cmd == 1 then fst else 0) lt (show cmd ≠ 5 by omega)
    have within : Touch [.ar] s.begin _ := taken_touch (b := b) (req := req) (cmd := cmd) (j := k.val) (first := if cmd == 1 then fst else 0)
    have waits : inRun _ b _ = true := (inRun_congr (j := k.val) (within.at_pg (by decide))).trans ((inRun_congr fun _ => rfl).trans run)
    rw [orderStart_waits (by rw [taken.cmdArr]; exact waits)] at bus
    have ar := bus.at_ar (by decide) b
    have framed : Touch [.out, .ar, .sy] s.begin t := (within.mono (by decide)).trans (bus.mono (by decide))
    exact ⟨framed.agreeOff_begin, (congrArg Ar.phase ar).trans taken.phase, (congrArg Ar.cmd ar).trans taken.cmd,
      (congrArg Ar.cmdArr ar).trans taken.cmdArr, (congrArg Ar.result ar).trans taken.result,
      (congrArg Arr.st ((arrOf_of_touch bus (by decide)).trans taken.arr))⟩
  · rintro ⟨good, enough, free⟩
    refine OrderCode.prog.answers pass quiet fun t bus => ?_
    rw [arOrder_starts (s := s.begin) (cmd := 1) (j := k.val) own idle good (.inl rfl) (by omega)] at bus
    have taken : Taken b 1 k.val first.val s.begin _ := orderTaken_taken (req := req) lt (by decide)
    have sensing := (prog_sensing taken (freed _ _ taken_touch free) lt first.isLt rfl good enough).of_bus bus
    exact ⟨sensing.phase, sensing.row, sensing.cmd, sensing.cmdArr, sensing.result, sensing.busy⟩
  · rintro ⟨good, free⟩
    refine (OrderCode.verify (first := first)).answers pass quiet fun t bus => ?_
    rw [arOrder_starts (s := s.begin) (cmd := 2) (j := k.val) own idle good (.inr (.inl rfl)) (by omega)] at bus
    have taken : Taken b 2 k.val 0 s.begin _ := orderTaken_taken (req := req) lt (by decide)
    have sensing := (verify_sensing taken (freed _ _ taken_touch free) rfl good).of_bus bus
    exact ⟨sensing.phase, sensing.row, sensing.cmd, sensing.cmdArr, sensing.result, sensing.busy⟩
  · rintro ⟨good, whole⟩
    refine (OrderCode.repair (first := first)).answers pass quiet fun t bus => ?_
    rw [arOrder_whole (s := s.begin) own idle good whole] at bus
    have kept : ∀ n, arrOf (updAr b (repairWhole req s.begin.now) (arResult b 3 k.val 0 req s.begin)) b n = arrOf s b n :=
      fun n => (arrOf_updAr (f := repairWhole req s.begin.now) fun _ => rfl).trans arrOf_arResult
    have ar : ((updAr b (repairWhole req s.begin.now) (arResult b 3 k.val 0 req s.begin)).at b).ar.cmdArr = k.val := by
      rw [updAr_ar, arResult_ar]
      rfl
    have ends := bus.at_ar (by decide) b
    have ended := ends.trans arEnd_ar
    refine ⟨(congrArg Ar.phase ended).trans endedAr_ended.phase, (congrArg Ar.result ended).trans endedAr_ended.result, ?_⟩
    rw [arrOf_of_touch bus (by decide), arrOf_arEnd (by rw [ar, kept]; exact free_of_repair good), kept]
  · rintro plan ⟨good, plans, copies, free, short, sources⟩
    refine (OrderCode.repair (first := first)).answers pass quiet fun t bus => ?_
    rw [arOrder_starts (s := s.begin) (cmd := 3) (j := k.val) own idle good (.inr (.inr rfl)) (fun _ => short)] at bus
    have taken : Taken b 3 k.val 0 s.begin _ := orderTaken_taken (req := req) lt (by decide)
    obtain ⟨sensing, planned⟩ := repair_sensing taken (freed _ _ taken_touch free) rfl plans copies sources
    have at' := sensing.of_bus bus
    exact ⟨at'.phase, at'.row, (congrArg Ar.plan (bus.at_ar (by decide) b)).trans planned, at'.busy⟩
  · intro good
    refine (OrderCode.cal (first := first)).answers pass quiet fun t bus => ?_
    rw [arOrder_cal (s := s.begin) own idle good] at bus
    have arr : arrOf t b k.val = calOrder (arrOf s b k.val) :=
      (arrOf_of_touch bus (by decide)).trans ((arrOf_updArr lt).trans (congrArg calOrder arrOf_arResult))
    have framed : Touch [.out, .ar, .sy] s.begin t :=
      .trans (updArr_touch (by decide) (arResult_touch (by decide) .refl)) (bus.mono (by decide))
    refine ⟨framed.agreeOff_begin, ?_, arr, congrArg Arr.calDue arr⟩
    rw [bus.at_ar (by decide) b, updArr_ar, arResult_ar]
    rfl
  · intro good
    refine (OrderCode.pass (first := first)).answers pass quiet fun t bus => ?_
    rw [arOrder_pass (s := s.begin) own idle good] at bus
    have begun : Touch [.ar] s.begin (passBegun b req k.val s.begin) := arBegin_touch sub_self (arResult_touch sub_self .refl)
    have src : ((passBegun b req k.val s.begin).at b).ar = engineBegun 5 0 req s.now (resultSet 5 k.val 0 req (s.at b).ar) := by
      rw [passBegun, arBegin_eq, if_pos (by decide), updAr_ar, arResult_ar]
      rfl
    have framed : Touch [.out, .ar, .sy] s.begin t := .trans (updAr_touch (by decide) (begun.mono (by decide))) (bus.mono (by decide))
    have ends := (bus.at_ar (by decide) b).trans updAr_ar
    refine ⟨framed.agreeOff_begin, congrArg Ar.phase ends, (congrArg Ar.input ends).trans ?_, (congrArg Ar.result ends).trans (congrArg Ar.result src)⟩
    change arRead (passBegun b req k.val s.begin) b ((passBegun b req k.val s.begin).at b).ar.src.toNat 256 = _
    rw [src, arRead, begun.at_tcm (by decide), begun.at_deck (by decide)]
    rfl

end Sys2Proof.Machine

/-! Rows of an order that sense and are programmed (R252, R253, R255, R256). -/
namespace Sys2Proof.Machine
set_option Elab.async false

section
variable {s t u : State} {b : BId} {w : BitVec 640} {mid : BitVec 160} {j n r : Nat}

/-! ### The sensed row -/

/-- The cells of row r as they sense. -/
def cellsTaken (w : BitVec 640) (r : Nat) (a : Arr) : Arr :=
  { a with cells := memWrite 0 a.cells (160 * r) ((upto 160).map fun c => BitVec.ofNat 8 (levelAt w c)) }

/-- The engine once row r's cells are taken. -/
def rowTaken (w : BitVec 640) (e : Ar) : Ar := { e with arr := vmod e.arr e.cmdArr (cellsTaken w e.row) }

theorem takeRow_ar : ((takeRow b w s).at b).ar = rowTaken w (s.at b).ar := updArr_ar

theorem takeRow_cmdArr : ((takeRow b w s).at b).ar.cmdArr = (s.at b).ar.cmdArr := by rw [takeRow_ar, rowTaken]

theorem takeRow_src : ((takeRow b w s).at b).ar.src = (s.at b).ar.src := by rw [takeRow_ar, rowTaken]

theorem takeRow_target : ((takeRow b w s).at b).ar.target = (s.at b).ar.target := by rw [takeRow_ar, rowTaken]

theorem takeRow_row : ((takeRow b w s).at b).ar.row = (s.at b).ar.row := by rw [takeRow_ar, rowTaken]

theorem takeRow_low : ((takeRow b w s).at b).ar.low = (s.at b).ar.low := by rw [takeRow_ar, rowTaken]

theorem takeRow_sweep : ((takeRow b w s).at b).ar.sweep = (s.at b).ar.sweep := by rw [takeRow_ar, rowTaken]

theorem takeRow_cmd : ((takeRow b w s).at b).ar.cmd = (s.at b).ar.cmd := by rw [takeRow_ar, rowTaken]

theorem takeRow_st : (arrOf (takeRow b w s) b j).st = (arrOf s b j).st := by
  rw [arrOf, takeRow_ar, arrOf, rowTaken]
  dsimp only
  rcases vget_vmod_or (v := (s.at b).ar.arr) (i := (s.at b).ar.cmdArr) (j := j) (f := cellsTaken w (s.at b).ar.row) with new | old
  · rw [new, cellsTaken]
  · rw [old]

theorem takeRow_calMode : (arrOf (takeRow b w s) b j).calMode = (arrOf s b j).calMode := by
  rw [arrOf, takeRow_ar, arrOf, rowTaken]
  dsimp only
  rcases vget_vmod_or (v := (s.at b).ar.arr) (i := (s.at b).ar.cmdArr) (j := j) (f := cellsTaken w (s.at b).ar.row) with new | old
  · rw [new, cellsTaken]
  · rw [old]

theorem sourceRow_congr (cmdArr : (t.at b).ar.cmdArr = (s.at b).ar.cmdArr) (src : (t.at b).ar.src = (s.at b).ar.src)
    (mode : (arrOf t b (s.at b).ar.cmdArr).calMode = (arrOf s b (s.at b).ar.cmdArr).calMode) : SourceRow t b r ↔ SourceRow s b r := by
  unfold SourceRow
  rw [cmdArr, src, mode]

theorem takeRow_source : SourceRow (takeRow b w s) b r ↔ SourceRow s b r :=
  sourceRow_congr takeRow_cmdArr takeRow_src takeRow_calMode

/-! ### The next row -/

/-- PROG's row register moves on. -/
def rowNoted (e : Ar) : Ar := { e with rowReg := (e.row + 1) % 256 }

/-- The engine's registers as a row is complete. -/
def rowCounted (b : BId) (s : State) : State := if (s.at b).ar.cmd == 1 && !(s.at b).ar.low then updAr b rowNoted s else s

theorem rowCounted_ar : ((rowCounted b s).at b).ar = if (s.at b).ar.cmd == 1 && !(s.at b).ar.low then rowNoted (s.at b).ar else (s.at b).ar := by
  unfold rowCounted
  split
  · exact updAr_ar
  · rfl

/-- What the count keeps of the engine. -/
structure Counted (e e' : Ar) : Prop where
  cmd : e'.cmd = e.cmd
  sweep : e'.sweep = e.sweep
  low : e'.low = e.low
  src : e'.src = e.src
  cmdArr : e'.cmdArr = e.cmdArr
  arr : e'.arr = e.arr
  rowReg : e.cmd = 1 → e.low = false → e'.rowReg = (e.row + 1) % 256

theorem rowCounted_counted : Counted (s.at b).ar ((rowCounted b s).at b).ar := by
  rw [rowCounted_ar]
  split
  · exact ⟨rfl, rfl, rfl, rfl, rfl, rfl, fun _ _ => rfl⟩
  · next no => exact ⟨rfl, rfl, rfl, rfl, rfl, rfl, fun cmd low => absurd (by rw [cmd, low]; rfl) no⟩

theorem rowCounted_source : SourceRow (rowCounted b s) b r ↔ SourceRow s b r := by
  have counted := rowCounted_counted (s := s) (b := b)
  refine sourceRow_congr counted.cmdArr counted.src ?_
  rw [arrOf, counted.arr, arrOf]

theorem nextRow_starts (low : (s.at b).ar.low = false) (lt : (s.at b).ar.row < 255) :
    nextRow b s = startRow b ((s.at b).ar.row + 1) (rowCounted b s) := by
  unfold nextRow
  extract_lets e s1
  rw [if_neg (by simp [e, low]), if_pos lt]
  rfl

theorem nextRow_closes (low : (s.at b).ar.low = false) (cmd : (s.at b).ar.cmd = 2) (last : 255 ≤ (s.at b).ar.row) :
    nextRow b s = arClosing b s := by
  unfold nextRow
  extract_lets e s1
  have same : s1 = s := if_neg (by simp [e, cmd])
  rw [if_neg (by simp [e, low]), if_neg (by simpa [e] using last), if_neg (by simp [e, cmd]), if_neg (by simp [e, cmd]), if_neg (by simp [e, cmd]), same]

section
variable (low : (s.at b).ar.low = false) (lt : (s.at b).ar.row < 255)
include low lt

theorem nextRow_goes (source : SourceRow s b ((s.at b).ar.row + 1)) :
    Senses ((s.at b).ar.row + 1) ((rowCounted b s).at b).ar ((nextRow b s).at b).ar := by
  rw [nextRow_starts low lt]
  exact startRow_senses fun _ => rowCounted_source.mpr source

theorem nextRow_rowReg (source : SourceRow s b ((s.at b).ar.row + 1)) (cmd : (s.at b).ar.cmd = 1) :
    ((nextRow b s).at b).ar.rowReg = (s.at b).ar.row + 1 := by
  rw [(nextRow_goes low lt source).rowReg, rowCounted_counted.rowReg cmd low, Nat.mod_eq_of_lt (by omega)]

theorem nextRow_stops (sweep : (s.at b).ar.sweep = false) (cmd : (s.at b).ar.cmd = 1 ∨ (s.at b).ar.cmd = 2)
    (away : ¬SourceRow s b ((s.at b).ar.row + 1)) :
    ((nextRow b s).at b).ar.phase = .idle ∧ ((nextRow b s).at b).ar.result = 0x0B := by
  have counted := rowCounted_counted (s := s) (b := b)
  have fresh : rowFresh ((rowCounted b s).at b).ar ((s.at b).ar.row + 1) = true := by
    unfold rowFresh
    rw [counted.cmd, counted.sweep, counted.low, sweep, low]
    rcases cmd with is | is <;> simp [is]
  rw [nextRow_starts low lt, startRow_fails fresh (rowCounted_source.not.mpr away)]
  exact ⟨arFail_ended.phase, arFail_ended.result⟩

end

theorem arClosing_phase : ((arClosing b s).at b).ar.phase = .closeCal := congrArg Ar.phase updAr_ar

theorem arClosing_calRun (lt : (s.at b).ar.cmdArr < 8) : (arrOf (arClosing b s) b (s.at b).ar.cmdArr).calRun = true := by
  unfold arClosing
  extract_lets k s1
  have closing : arrOf (updAr b (fun e => { e with phase := .closeCal }) s1) b k = arrOf s1 b k := by
    rw [arrOf, updAr_ar, arrOf]
  exact (congrArg Arr.calRun closing).trans (congrArg Arr.calRun (arrOf_updArr lt))

/-! ### A row sense and a program round complete -/

theorem rowSenseDone_sleeps (sleep : s.dev.sleep = true) : rowSenseDone b w mid s = s := if_pos (by rw [sleep, Bool.or_true])

theorem progRoundDone_sleeps (sleep : s.dev.sleep = true) : progRoundDone b w mid s = s := by
  unfold progRoundDone
  extract_lets e
  split
  · exact if_pos sleep
  · rfl

section
variable (phase : (s.at b).ar.phase = .sense) (awake : s.dev.sleep = false)
include phase awake

theorem rowSenseDone_aborts (abort : (s.at b).ar.abort = true) : rowSenseDone b w mid s = arFail b true 9 (takeRow b w s) := by
  unfold rowSenseDone
  rw [if_neg (by simp [phase, awake]), if_pos abort]

variable (abort : (s.at b).ar.abort = false)
include abort

theorem rowSenseDone_verify (cmd : (s.at b).ar.cmd = 2) : rowSenseDone b w mid s =
    if (offTarget (s.at b).ar.target w mid).isEmpty then nextRow b (takeRow b w s)
    else arFail b false 6 (updAr b (fun e => { e with rowReg := e.row }) (takeRow b w s)) := by
  unfold rowSenseDone
  rw [if_neg (by simp [phase, awake]), if_neg (by simp [abort]), if_neg (by simp [cmd]), if_pos (by simp [cmd])]

theorem rowSenseDone_prog (cmd : (s.at b).ar.cmd = 1) (low : (s.at b).ar.low = false) : rowSenseDone b w mid s =
    if (offTarget (s.at b).ar.target w mid).isEmpty then nextRow b (takeRow b w s)
    else updAr b (fun e => { e with phase := .round 0 }) (takeRow b w s) := by
  unfold rowSenseDone
  rw [if_neg (by simp [phase, awake]), if_neg (by simp [abort]), if_neg (by simp [cmd]), if_neg (by simp [cmd, low]), progSense, takeRow_target]

end

section
variable (phase : (s.at b).ar.phase = .round n) (awake : s.dev.sleep = false)
include phase awake

theorem progRoundDone_eq : progRoundDone b w mid s =
    if (s.at b).ar.abort then arFail b true 9 (takeRow b w s)
    else if (offTarget (s.at b).ar.target w mid).isEmpty then nextRow b (takeRow b w s)
    else if n + 1 < 32 then updAr b (fun e => { e with phase := .round (n + 1) }) (takeRow b w s)
    else progFailed b (offTarget (s.at b).ar.target w mid) (takeRow b w s) := by
  unfold progRoundDone
  extract_lets e
  split
  case h_1 n' eq =>
    cases eq.symm.trans phase
    exact if_neg (by simp [awake])
  case h_2 other => exact absurd phase (other n)

end

/-- A reference column that fails both series ends the order (R253). -/
theorem progFailed_reference {cols : List Nat} {c : Nat} (mem : c ∈ cols) (reference : 152 ≤ c) :
    ((progFailed b cols s).at b).ar.phase = .idle ∧ ((progFailed b cols s).at b).ar.result = 5 := by
  unfold progFailed
  extract_lets k s1
  rw [if_pos (List.any_eq_true.mpr ⟨c, mem, by simpa using reference⟩)]
  exact ⟨arFail_ended.phase, arFail_ended.result⟩

/-! ### Answers -/

theorem answers_rows {i : Instr} {P : State → Prop} {fs : List Piece} (quiet : LoaderQuiet s b) (within : Touch fs s.begin u) (out : Piece.pg ∉ fs)
    (run : exec i s = ran s (afterArray b u)) (h : ∀ t, EndsAs u t → P t) : Answers i s P := by
  refine answers_of_run run fun t queue ends => h t ?_
  rw [afterArray_quiet (begin_quiet quiet) within out] at ends
  exact ends

end

/-- What ends the rows' clauses: the engine's last registers, read in the answer. -/
theorem EndsAs.ar {u t : State} {b : BId} (e : EndsAs u t) : (t.at b).ar = (u.at b).ar := by rw [e.at_eq]

section
variable {s : State} {b : BId} {w : BitVec 640} {mid : BitVec 160}

theorem answers_rowSense {P : State → Prop} (quiet : LoaderQuiet s b) (h : ∀ t, EndsAs (rowSenseDone b w mid s.begin) t → P t) :
    Answers (.rowSenseDone b w mid) s P := answers_rows quiet (rowSenseDone_touch sub_self .refl) (by decide) rfl h

theorem answers_progRound {P : State → Prop} (quiet : LoaderQuiet s b) (h : ∀ t, EndsAs (progRoundDone b w mid s.begin) t → P t) :
    Answers (.progRoundDone b w mid) s P := answers_rows quiet (progRoundDone_touch sub_self .refl) (by decide) rfl h

theorem begin_onTarget (on : offTarget (s.at b).ar.target w mid = []) : (offTarget (s.begin.at b).ar.target w mid).isEmpty = true :=
  List.isEmpty_iff.mpr on

/-- An order that ABORT stops (R255). -/
theorem aborted_row {t : State} (ends : EndsAs (arFail b true 9 (takeRow b w s.begin)) t) : (t.at b).ar.phase = .idle ∧ (t.at b).ar.result = 9
    ∧ ((s.at b).ar.cmdArr < 8 ∧ (arrOf s b (s.at b).ar.cmdArr).st = .busy → (arrOf t b (s.at b).ar.cmdArr).st = .invalid) := by
  refine ⟨(congrArg Ar.phase ends.ar).trans arFail_ended.phase, (congrArg Ar.result ends.ar).trans arFail_ended.result, fun ⟨lt, busy⟩ => ?_⟩
  have failed := arFail_st (s := takeRow b w s.begin) (b := b) (half := true) (result := 9) (by rw [takeRow_cmdArr]; exact lt)
    (by rw [takeRow_cmdArr, takeRow_st]; exact busy)
  rw [ends.arr]
  rw [takeRow_cmdArr] at failed
  exact failed

section
variable (low : (s.at b).ar.low = false) (lt : (s.at b).ar.row < 255)
include low lt

/-- The row after a taken one. -/
theorem taken_goes {t : State} (source : SourceRow s b ((s.at b).ar.row + 1)) (ends : EndsAs (nextRow b (takeRow b w s.begin)) t) :
    (t.at b).ar.phase = .sense ∧ (t.at b).ar.row = (s.at b).ar.row + 1 ∧ ((s.at b).ar.cmd = 1 → (t.at b).ar.rowReg = (s.at b).ar.row + 1) := by
  have low' : ((takeRow b w s.begin).at b).ar.low = false := takeRow_low.trans low
  have row : ((takeRow b w s.begin).at b).ar.row = (s.at b).ar.row := takeRow_row
  have lt' : ((takeRow b w s.begin).at b).ar.row < 255 := by rw [row]; exact lt
  have source' : SourceRow (takeRow b w s.begin) b (((takeRow b w s.begin).at b).ar.row + 1) := by
    rw [row]
    exact takeRow_source.mpr source
  have senses := nextRow_goes low' lt' source'
  rw [ends.ar]
  refine ⟨senses.phase, senses.row.trans (congrArg (· + 1) row), fun cmd => ?_⟩
  exact (nextRow_rowReg low' lt' source' (takeRow_cmd.trans cmd)).trans (congrArg (· + 1) row)

theorem taken_stops {t : State} (sweep : (s.at b).ar.sweep = false) (cmd : (s.at b).ar.cmd = 1 ∨ (s.at b).ar.cmd = 2)
    (away : ¬SourceRow s b ((s.at b).ar.row + 1)) (ends : EndsAs (nextRow b (takeRow b w s.begin)) t) :
    (t.at b).ar.phase = .idle ∧ (t.at b).ar.result = 0x0B := by
  have row : ((takeRow b w s.begin).at b).ar.row = (s.at b).ar.row := takeRow_row
  rw [ends.ar]
  refine nextRow_stops (takeRow_low.trans low) (by rw [row]; exact lt) (takeRow_sweep.trans sweep) (by rw [takeRow_cmd]; exact cmd) ?_
  rw [row, takeRow_source]
  exact away

end

end

/-- Settles O30: a row that senses is judged on the engine as the row's cells have been taken. -/
theorem arrayRows : Obligations.ArrayRows := by
  unfold Obligations.ArrayRows
  intro s b w mid quiet
  refine ⟨fun sleep i mem => ?_, fun awake => ⟨?_, ?_, ?_⟩⟩
  · fin_cases mem
    · refine answers_rowSense quiet fun t ends => ?_
      rw [rowSenseDone_sleeps (s := s.begin) sleep] at ends
      exact ends.agreeOff (begin_touch_out (by decide))
    · refine answers_progRound quiet fun t ends => ?_
      rw [progRoundDone_sleeps (s := s.begin) sleep] at ends
      exact ends.agreeOff (begin_touch_out (by decide))
  · rintro i (⟨rfl, phase⟩ | ⟨rfl, n, phase⟩) abort
    · refine answers_rowSense quiet fun t ends => ?_
      rw [rowSenseDone_aborts (s := s.begin) phase awake abort] at ends
      exact aborted_row ends
    · refine answers_progRound quiet fun t ends => ?_
      rw [progRoundDone_eq (s := s.begin) phase awake, if_pos (show (s.begin.at b).ar.abort = true from abort)] at ends
      exact aborted_row ends
  · rintro ⟨phase, abort, low⟩
    refine ⟨fun ⟨cmd, off, lt, source⟩ => ?_, fun ⟨cmd, sweep, off, lt, away⟩ => ?_, fun ⟨cmd, off, last⟩ => ?_, fun ⟨cmd, off⟩ => ?_,
      fun ⟨cmd, off⟩ => ?_, fun ⟨cmd, off, lt, source⟩ => ?_⟩
    all_goals refine answers_rowSense quiet fun t ends => ?_
    · rw [rowSenseDone_verify (s := s.begin) phase awake abort cmd, if_pos (begin_onTarget off)] at ends
      obtain ⟨sense, row, -⟩ := taken_goes low lt source ends
      exact ⟨sense, row⟩
    · have either : (s.at b).ar.cmd = 1 ∨ (s.at b).ar.cmd = 2 := by simpa using cmd
      refine taken_stops (w := w) low lt sweep either away ?_
      rcases either with is | is
      · rwa [rowSenseDone_prog (s := s.begin) phase awake abort is low, if_pos (begin_onTarget off)] at ends
      · rwa [rowSenseDone_verify (s := s.begin) phase awake abort is, if_pos (begin_onTarget off)] at ends
    · rw [rowSenseDone_verify (s := s.begin) phase awake abort cmd, if_pos (begin_onTarget off),
        nextRow_closes (s := takeRow b w s.begin) (takeRow_low.trans low) (takeRow_cmd.trans cmd) (by rw [takeRow_row]; exact last)] at ends
      refine ⟨(congrArg Ar.phase ends.ar).trans arClosing_phase, fun lt => ?_⟩
      have runs := arClosing_calRun (s := takeRow b w s.begin) (b := b) (by rw [takeRow_cmdArr]; exact lt)
      rw [takeRow_cmdArr] at runs
      rw [ends.arr]
      exact runs
    · rw [rowSenseDone_verify (s := s.begin) phase awake abort cmd, if_neg (by simpa [List.isEmpty_iff] using off)] at ends
      refine ⟨(congrArg Ar.phase ends.ar).trans arFail_ended.phase, (congrArg Ar.result ends.ar).trans arFail_ended.result, ?_⟩
      rw [ends.ar, arFail_ended.rowReg, updAr_ar]
      exact takeRow_row
    · rw [rowSenseDone_prog (s := s.begin) phase awake abort cmd low, if_neg (by simpa [List.isEmpty_iff] using off)] at ends
      rw [ends.ar, updAr_ar]
      exact ⟨rfl, takeRow_row⟩
    · rw [rowSenseDone_prog (s := s.begin) phase awake abort cmd low, if_pos (begin_onTarget off)] at ends
      obtain ⟨sense, row, noted⟩ := taken_goes low lt source ends
      exact ⟨sense, row, noted cmd⟩
  · rintro n ⟨phase, abort⟩
    have rounds := progRoundDone_eq (s := s.begin) (b := b) (w := w) (mid := mid) phase awake
    rw [if_neg (show ¬((s.begin.at b).ar.abort = true) by rw [show (s.begin.at b).ar.abort = false from abort]; decide)] at rounds
    refine ⟨fun ⟨off, lt⟩ => ?_, fun ⟨off, cmd, low, lt, source⟩ => ?_, fun c ⟨mem, reference, last⟩ => ?_⟩
    all_goals refine answers_progRound quiet fun t ends => ?_
    · rw [rounds, if_neg (by simpa [List.isEmpty_iff] using off), if_pos lt] at ends
      rw [ends.ar, updAr_ar]
    · rw [rounds, if_pos (begin_onTarget off)] at ends
      obtain ⟨sense, row, -⟩ := taken_goes low lt source ends
      exact ⟨sense, row⟩
    · have off : offTarget (s.at b).ar.target w mid ≠ [] := List.ne_nil_of_mem mem
      rw [rounds, if_neg (by simpa [List.isEmpty_iff] using off), if_neg (by omega)] at ends
      rw [ends.ar]
      exact progFailed_reference mem reference

end Sys2Proof.Machine

/-! Calibrations, test slots, diagnostic passes and reads of a cell window (R243, R245, R249, R250, R259, R263, R264). -/
namespace Sys2Proof.Machine
set_option Elab.async false

section
variable {s t u : State} {b : BId} {j n k c : Nat} {i : Instr} {P : State → Prop} {req : ReqId} {own : BId}

/-! ### Reads at an address of their own -/

theorem readBus_of_passes {a : Nat} {rd : State → Word × State} (pass : ReadPasses s req own a) :
    readBus req own a rd s.begin = (hostDid req (rd s.begin).2).emit (.value (rd s.begin).1) := by
  unfold ReadPasses passes at pass
  unfold readBus
  split at pass
  case h_2 => exact absurd pass Bool.false_ne_true
  case h_1 w who =>
    split at pass
    case h_2 => exact absurd pass Bool.false_ne_true
    case h_1 r ok => simp only [who, access_begin, ok]

/-- A read that passes the tests of R39 returns its value, in what its rule makes of the state, but for the host activity. -/
theorem answers_readBus {a : Nat} {rd : State → Word × State} {v : Word} (pass : ReadPasses s req own a)
    (run : exec i s = ran s (readBus req own a rd s.begin)) (reads : rd s.begin = (v, u))
    (h : ∀ t, t.out = u.out ++ [.value v] → Touch [.out, .sy] u t → P t) : Answers i s P := by
  rw [readBus_of_passes pass, reads] at run
  refine answers_of_run run fun t _ e => h t ?_ ?_
  · rw [e.out, State.emit_out, hostDid_out]
  · exact (State.emit_touch (by decide) (hostDid_touch (by decide) .refl)).trans e.touch

/-! ### Calibrations (R259) -/

section
variable {k : Fin 8} {ds : BitVec 9216} {m : Vector Nat 4}

/-- A calibration at an idle mark or by the schedule is taken. -/
structure CalFree (s : State) (b : BId) (k : Fin 8) : Prop where
  run : (arrOf s b k.val).calRun = true
  awake : s.dev.sleep = false
  clock : (s.at b).sy.holdover = false
  idle : (s.at b).ar.phase = .idle
  live : (arrOf s b k.val).st = .valid ∨ (arrOf s b k.val).st = .degraded
  order : (arrOf s b k.val).massDue = true ∨ (arrOf s b k.val).testDue = 0
  free : inRun s b k.val = false

theorem calibrationDone_stays (no : (arrOf s b k.val).calRun = false ∨ s.dev.sleep = true) : calibrationDone b k.val ds s = s := by
  refine if_pos ?_
  rcases no with none' | sleep
  · rw [none']
    simp
  · rw [sleep]
    simp

theorem calibrationDone_accepts (is : CalFree s b k) (good : calAccepts (calMeans (arrOf s b k.val) ds) (testTol (s.at b) k.val) = true) :
    calibrationDone b k.val ds s = updArr b k.val (calAccepted (s.at b) (calCandidate (calMeans (arrOf s b k.val) ds))) s := by
  obtain ⟨run, awake, clock, idle, live, order, free⟩ := is
  unfold calibrationDone
  extract_lets x a closing c free' s1
  have open' : closing = false := by simp [closing, x, idle]
  have goes : free' = true := by
    unfold free' a
    rw [free]
    rcases live with st | st <;> rcases order with o | o <;> simp [st, o]
  rw [if_neg (by simp [awake, a, run, goes]), if_neg (by simp [open']), if_neg (by simp [x, clock]), if_pos good, if_neg (by simp [open'])]

theorem calibrationDone_closes (run : (arrOf s b k.val).calRun = true) (awake : s.dev.sleep = false) (clock : (s.at b).sy.holdover = false)
    (phase : (s.at b).ar.phase = .closeCal) (on : (s.at b).ar.cmdArr = k.val) (go : (s.at b).ar.abort = false)
    (good : calAccepts (calMeans (arrOf s b k.val) ds) (testTol (s.at b) k.val) = true) :
    calibrationDone b k.val ds s = updAr b (fun e => { e with phase := .closeTest })
      (updArr b k.val (calAccepted (s.at b) (calCandidate (calMeans (arrOf s b k.val) ds))) s) := by
  unfold calibrationDone
  extract_lets x a closing c free' s1
  have closes : closing = true := by simp [closing, x, phase, on]
  rw [if_neg (by simp [awake, a, run, closes]), if_neg (by simp [x, go]), if_neg (by simp [x, clock]), if_pos good, if_pos closes]

/-- The record of a calibration's rejection (R259). -/
def calFailed (b : BId) (k : Nat) (c : Option Nat × Nat) (s : State) : State :=
  logRec b 0x33 (wordOf k) (pack [(c.1.getD (s.draw).1.toNat, 0, 16)]) (pack [(c.2, 0, 16)])
    (updArr b k (calRejected false (testRetry (s.at b) k)) (s.draw).2)

theorem calibrationDone_rejects (is : CalFree s b k) (bad : calAccepts (calMeans (arrOf s b k.val) ds) (testTol (s.at b) k.val) = false) :
    calibrationDone b k.val ds s =
      if (arrOf s b k.val).calTries + 1 ≤ testRetry (s.at b) k.val then calFailed b k.val (calCandidate (calMeans (arrOf s b k.val) ds)) s
      else arrEvent b k.val 4 (calFailed b k.val (calCandidate (calMeans (arrOf s b k.val) ds)) s) := by
  obtain ⟨run, awake, clock, idle, live, order, free⟩ := is
  unfold calibrationDone
  extract_lets x a closing c free' s1
  have open' : closing = false := by simp [closing, x, idle]
  have goes : free' = true := by
    unfold free' a
    rw [free]
    rcases live with st | st <;> rcases order with o | o <;> simp [st, o]
  rw [if_neg (by simp [awake, a, run, goes]), if_neg (by simp [open']), if_neg (by simp [x, clock]), if_neg (by simp [bad, x, a]), open', calFailed]
  rfl

end

/-! ### Array events (R265, R266) -/

/-- The array as the event is counted. -/
def eventCounted (hist : Hist) (late : Bool) (a : Arr) : Arr :=
  { a with arrEvt := sinc a.arrEvt, hist := hist, gone := a.gone || late, st := if a.st == .busy || late then a.st else .invalid }

/-- A retired array. -/
def arrGone (a : Arr) : Arr := { a with st := .retired, gone := false, calDue := false, calRun := false, testDue := 0 }

/-- An ARRAY event leaves the array counted, or counted and retired. -/
theorem arrEvent_arr (lt : k < 8) {cause : Nat} : ∃ hist late, (late = true → inRun s b k = true) ∧
    (arrOf (arrEvent b k cause s) b k = eventCounted hist late (arrOf s b k)
      ∨ arrOf (arrEvent b k cause s) b k = arrGone (eventCounted hist late (arrOf s b k))) := by
  unfold arrEvent
  extract_lets a ev late s1 s2
  refine ⟨ev.2.1, late, fun is => (Bool.and_eq_true_iff.mp is).2, ?_⟩
  have counted : arrOf s2 b k = eventCounted ev.2.1 late (arrOf s b k) :=
    (arrOf_of_touch (logRec_touch sub_self .refl) (by decide)).trans (arrOf_updArr lt)
  split
  · exact .inl counted
  · rw [arrOf_of_touch (notice_touch sub_self .refl) (by decide)]
    split
    · exact .inl counted
    · exact .inr ((arrOf_updArr lt).trans (congrArg arrGone counted))

/-! ### Test slots (R263, R264) -/

theorem iter_mem_induction {α : Type} {P : State → Prop} {f : α → State → State} {xs : List α} (start : P s)
    (turn : ∀ t, P t → ∀ x ∈ xs, P (f x t)) : P (iter xs f s) := List.foldlRecOn xs _ start turn

/-- The test count stands at T, and the tests due at D unless the array is retired. -/
structure TestKept (T D : Nat) (a : Arr) : Prop where
  tests : a.tests = T
  due : a.testDue = D ∨ a.st = .retired

variable {T D : Nat}

theorem updArr_testKept {f : Arr → Arr} (h : ∀ a, (f a).tests = a.tests ∧ (f a).testDue = a.testDue ∧ (a.st = .retired → (f a).st = .retired))
    (kept : TestKept T D (arrOf s b k)) : TestKept T D (arrOf (updArr b k f s) b k) := by
  obtain ⟨tests, due, retired⟩ := h (arrOf s b k)
  have either : arrOf (updArr b k f s) b k = f (arrOf s b k) ∨ arrOf (updArr b k f s) b k = arrOf s b k := by
    unfold arrOf
    rw [updArr_ar]
    exact vget_vmod_or
  rcases either with new | old
  · rw [new]
    exact ⟨tests.trans kept.tests, kept.due.imp due.trans retired⟩
  · rw [old]
    exact kept

theorem touch_testKept {fs : List Piece} (h : Touch fs s t) (out : Piece.ar ∉ fs) (kept : TestKept T D (arrOf s b k)) :
    TestKept T D (arrOf t b k) := by
  rw [arrOf_of_touch h out]
  exact kept

/-- An event of an array that is not retired leaves its tests, or retires it. -/
theorem arrEvent_testKept (lt : k < 8) {cause : Nat} (live : (arrOf s b k).st ≠ .retired) (kept : TestKept T D (arrOf s b k)) :
    TestKept T D (arrOf (arrEvent b k cause s) b k) := by
  obtain ⟨hist, late, -, counted | gone⟩ := arrEvent_arr (s := s) (b := b) (cause := cause) lt
  · rw [counted]
    exact ⟨kept.tests, .inl (kept.due.resolve_right live)⟩
  · rw [gone]
    exact ⟨kept.tests, .inr rfl⟩

/-- The columns retired of an array. -/
def columnGone (c : Nat) (a : Arr) : Arr := { a with ret := a.ret ||| (1#160 <<< c), retPend := a.retPend.filter (· != c) }

theorem applyRetire_testKept (lt : k < 8) (kept : TestKept T D (arrOf s b k)) : TestKept T D (arrOf (applyRetire b k c s) b k) := by
  unfold applyRetire
  extract_lets s1 a
  have left : TestKept T D (arrOf s1 b k) := updArr_testKept (fun _ => ⟨rfl, rfl, id⟩) kept
  split
  · exact left
  · next inUse =>
    have live : (arrOf s1 b k).st ≠ .retired := by
      intro retired
      exact inUse (by simp [a, retired])
    split
    · exact arrEvent_testKept lt live left
    · rw [arrOf_updArr lt]
      exact ⟨left.tests, .inl (left.due.resolve_right live)⟩

theorem colEvent_testKept (lt : k < 8) {force : Bool} {e code masks : Nat} (kept : TestKept T D (arrOf s b k)) :
    TestKept T D (arrOf (colEvent b k c force e code masks s) b k) := by
  unfold colEvent
  extract_lets a ev retire s1 s2
  have counted : TestKept T D (arrOf s1 b k) := updArr_testKept (fun _ => ⟨rfl, rfl, id⟩) kept
  have logged : TestKept T D (arrOf s2 b k) := touch_testKept (logRec_touch sub_self .refl) (by decide) counted
  split
  · unfold retireCol
    extract_lets s3
    have noticed : TestKept T D (arrOf s3 b k) := touch_testKept (notice_touch sub_self .refl) (by decide) logged
    split
    · exact updArr_testKept (fun _ => ⟨rfl, rfl, id⟩) noticed
    · exact applyRetire_testKept lt noticed
  · exact logged

theorem testCol_testKept (lt : k < 8) {cs : BitVec 5760} {wait : Bool} (live : c < 152 ∨ (arrOf s b k).st ≠ .retired)
    (kept : TestKept T D (arrOf s b k)) : TestKept T D (arrOf (testCol b k cs wait c s) b k) := by
  unfold testCol
  extract_lets x a masks m0 n s1
  split
  · exact updArr_testKept (fun _ => ⟨rfl, rfl, id⟩) kept
  · split
    · exact updArr_testKept (fun _ => ⟨rfl, rfl, id⟩) kept
    · split
      · exact updArr_testKept (fun _ => ⟨rfl, rfl, id⟩) kept
      · have fresh : TestKept T D (arrOf s1 b k) := updArr_testKept (fun _ => ⟨rfl, rfl, id⟩) kept
        split
        · next reference =>
          refine arrEvent_testKept lt ?_ fresh
          unfold s1
          rw [arrOf_updArr lt]
          exact live.resolve_left (by omega)
        · exact colEvent_testKept lt fresh

/-- A test of the engine's own mark is taken. -/
structure TestFree (s : State) (b : BId) (k : Nat) : Prop where
  idle : (s.at b).ar.phase = .idle
  due : (arrOf s b k).testDue ≠ 0
  live : (arrOf s b k).st = .valid ∨ (arrOf s b k).st = .degraded
  order : (arrOf s b k).massDue = false
  awake : s.dev.sleep = false
  clock : (s.at b).sy.holdover = false

/-- The columns that mismatch in a test slot. -/
def badCols (s : State) (b : BId) (k : Nat) (cs : BitVec 5760) : List Nat :=
  ((testedCols (arrOf s b k)).map (badMasks (arrOf s b k) (testTol (s.at b) k) cs)).filter (· != 0)

/-- Whether a slot's mismatches are a mass mismatch (R264). -/
def massIn (s : State) (b : BId) (k : Nat) (cs : BitVec 5760) : Bool := (arrOf s b k).calMode && (badCols s b k cs).length ≥ 8

/-- The array's calibration is asked for by a mass mismatch (R264). -/
def massNoted (mass : Bool) (a : Arr) : Arr := { (if mass then calOrder a else a) with massDue := mass, massDone := false }

/-- The state whose columns a test slot judges. -/
def slotCounted (b : BId) (k : Nat) (cs : BitVec 5760) (s : State) : State :=
  updArr b k (massNoted (massIn s b k cs)) (testCount b k (badCols s b k cs) s)

/-- A reference column is judged while the array is not retired. -/
def referenceCol (b : BId) (k : Nat) (cs : BitVec 5760) (wait : Bool) (c : Nat) (t : State) : State :=
  if (arrOf t b k).st == .retired then t else testCol b k cs wait c t

theorem testSlot_eq {cs : BitVec 5760} (is : TestFree s b k) : testSlot b k cs s =
    iter ((testedCols (arrOf s b k)).filter (· ≥ 152)) (referenceCol b k cs (massIn s b k cs && !(arrOf s b k).massDone))
      (iter ((testedCols (arrOf s b k)).filter (· < 152)) (testCol b k cs (massIn s b k cs && !(arrOf s b k).massDone)) (slotCounted b k cs s)) := by
  obtain ⟨idle, due, live, order, awake, clock⟩ := is
  unfold testSlot
  extract_lets x a tol cols bad s1 mass s2 wait s3
  rw [if_neg (by simp [awake]), if_neg (by simp [x, idle]), if_neg ?_, if_neg (by simp [x, clock])]
  · rfl
  · rcases live with st | st <;> simp [a, due, order, st]

theorem slotCounted_arr (lt : k < 8) {cs : BitVec 5760} : arrOf (slotCounted b k cs s) b k = massNoted (massIn s b k cs)
    { arrOf s b k with tests := sinc (arrOf s b k).tests
                       mismatch := sadd (arrOf s b k).mismatch ((badCols s b k cs).foldl (fun t m => t + bits4 m) 0)
                       testDue := (arrOf s b k).testDue - 1 } :=
  (arrOf_updArr lt).trans (congrArg (massNoted _) (arrOf_updArr lt))

theorem massNoted_kept {mass : Bool} {a : Arr} : (massNoted mass a).tests = a.tests ∧ (massNoted mass a).testDue = a.testDue := by
  unfold massNoted
  cases mass <;> exact ⟨rfl, rfl⟩

theorem testSlot_testKept (lt : k < 8) {cs : BitVec 5760} (is : TestFree s b k) :
    TestKept (sinc (arrOf s b k).tests) ((arrOf s b k).testDue - 1) (arrOf (testSlot b k cs s) b k) := by
  have start : TestKept (sinc (arrOf s b k).tests) ((arrOf s b k).testDue - 1) (arrOf (slotCounted b k cs s) b k) := by
    rw [slotCounted_arr lt]
    obtain ⟨tests, due⟩ := massNoted_kept (mass := massIn s b k cs) (a := { arrOf s b k with
      tests := sinc (arrOf s b k).tests
      mismatch := sadd (arrOf s b k).mismatch ((badCols s b k cs).foldl (fun t m => t + bits4 m) 0), testDue := (arrOf s b k).testDue - 1 })
    exact ⟨tests, .inl due⟩
  rw [testSlot_eq is]
  refine iter_mem_induction (P := fun t => TestKept (sinc (arrOf s b k).tests) ((arrOf s b k).testDue - 1) (arrOf t b k))
    (iter_mem_induction (P := fun t => TestKept (sinc (arrOf s b k).tests) ((arrOf s b k).testDue - 1) (arrOf t b k)) start
      fun t kept c mem => testCol_testKept lt (.inl ?_) kept) fun t kept c _ => ?_
  · simpa using (List.mem_filter.mp mem).2
  · unfold referenceCol
    split
    · exact kept
    · next live => exact testCol_testKept lt (.inr (by simpa using live)) kept

/-- Two arrays are alike but for the sequences of their tests. -/
structure SameBut (s t : State) (b : BId) (k : Nat) : Prop where
  arr : ∃ r, arrOf t b k = { arrOf s b k with seqRun := r }
  tol : testTol (t.at b) k = testTol (s.at b) k

theorem SameBut.masks {cs : BitVec 5760} (same : SameBut s t b k) :
    badMasks (arrOf t b k) (testTol (t.at b) k) cs c = badMasks (arrOf s b k) (testTol (s.at b) k) cs c := by
  obtain ⟨⟨r, arr⟩, tol⟩ := same
  rw [arr, tol]
  rfl

theorem updArr_tol {f : Arr → Arr} : testTol ((updArr b n f s).at b) k = testTol (s.at b) k := by
  unfold testTol arrGroup
  rw [updArr_ar]

/-- A column that senses as expected leaves the array but for its sequence. -/
theorem testCol_same (lt : k < 8) {cs : BitVec 5760} {wait : Bool} (good : badMasks (arrOf s b k) (testTol (s.at b) k) cs c = 0)
    (same : SameBut s t b k) : SameBut s (testCol b k cs wait c t) b k := by
  have stays : testCol b k cs wait c t = updArr b k (fun a => { a with seqRun := vset (arrOf t b k).seqRun c 0 }) t :=
    if_pos (by rw [same.masks, good]; rfl)
  obtain ⟨⟨r, arr⟩, tol⟩ := same
  rw [stays]
  refine ⟨⟨vset (arrOf t b k).seqRun c 0, ?_⟩, updArr_tol.trans tol⟩
  rw [arrOf_updArr lt, arr]

theorem SameBut.refl : SameBut s s b k := ⟨⟨_, rfl⟩, rfl⟩

theorem badCols_nil {cs : BitVec 5760} (good : ∀ c ∈ testedCols (arrOf s b k), badMasks (arrOf s b k) (testTol (s.at b) k) cs c = 0) :
    badCols s b k cs = [] := by
  refine List.filter_eq_nil_iff.mpr fun m mem => ?_
  obtain ⟨c, tested, rfl⟩ := List.mem_map.mp mem
  simp [good c tested]

/-- The counts of a test slot play no part in its codes. -/
theorem badMasks_counted {a : Arr} {tol tests miss due : Nat} {cs : BitVec 5760} :
    badMasks (massNoted false { a with tests := tests, mismatch := miss, testDue := due }) tol cs c = badMasks a tol cs c := rfl

/-- A slot without a mismatch leaves the array's state and its mismatches. -/
theorem testSlot_good (lt : k < 8) {cs : BitVec 5760} (is : TestFree s b k)
    (good : ∀ c ∈ testedCols (arrOf s b k), badMasks (arrOf s b k) (testTol (s.at b) k) cs c = 0) :
    (arrOf (testSlot b k cs s) b k).st = (arrOf s b k).st ∧ (arrOf (testSlot b k cs s) b k).mismatch = sadd (arrOf s b k).mismatch 0 := by
  have none' := badCols_nil good
  have few : massIn s b k cs = false := by rw [massIn, none']; simp
  have start := slotCounted_arr (s := s) (b := b) (cs := cs) lt
  rw [none', few] at start
  have tol : testTol ((slotCounted b k cs s).at b) k = testTol (s.at b) k := updArr_tol.trans updArr_tol
  have still : ∀ c ∈ testedCols (arrOf s b k),
      badMasks (arrOf (slotCounted b k cs s) b k) (testTol ((slotCounted b k cs s).at b) k) cs c = 0 := by
    intro c mem
    rw [start, tol, badMasks_counted]
    exact good c mem
  have ends : SameBut (slotCounted b k cs s) (testSlot b k cs s) b k := by
    rw [testSlot_eq is]
    refine iter_mem_induction (P := fun t => SameBut (slotCounted b k cs s) t b k)
      (iter_mem_induction (P := fun t => SameBut (slotCounted b k cs s) t b k) .refl fun t same c mem => ?_) fun t same c mem => ?_
    · exact testCol_same lt (still c (List.mem_filter.mp mem).1) same
    · unfold referenceCol
      split
      · exact same
      · exact testCol_same lt (still c (List.mem_filter.mp mem).1) same
  obtain ⟨⟨r, arr⟩, -⟩ := ends
  rw [arr, start]
  exact ⟨rfl, rfl⟩

/-! ### Diagnostic passes (R250) -/

/-- The array and the inputs of a diagnostic pass. -/
def diagPass (e : Ar) (ds : BitVec 11520) : List PassArr := [(vget e.arr e.cmdArr, e.input.map (·.toNat), ds)]

theorem takePass_ar {chained : Bool} {arrs : List PassArr} : ((takePass b chained arrs s).at b).ar = { (s.at b).ar with
    acc := laneSums chained (s.at b).ar.acc arrs, xsum := (if chained then (s.at b).ar.xsum else 0) + inputSum arrs
    passes := ((s.at b).ar.passes + (arrs.filter fun p => passesOn p.1).length) % 2 ^ 64 } := updAr_ar

theorem arWrite_ar {a : Nat} {bs : List Byte} : ((arWrite b a bs s).at b).ar = (s.at b).ar :=
  (arWrite_touch (fs := [.pl, .tcm, .deck]) (by decide) .refl).at_ar (by decide) b

/-- The engine's note of a saturated lane. -/
def satNoted (sat : Bool) (e : Ar) : Ar := { e with sat := sat }

theorem passDone_eq (phase : (s.at b).ar.phase = .pass) (awake : s.dev.sleep = false) {ds : BitVec 11520} : ∃ (lanes : List Nat) (sat : Bool),
    lanes.length = logicalN (vget (s.at b).ar.arr (s.at b).ar.cmdArr).calMode ∧
    passDone b ds s = arEnd b 0 (vget (s.at b).ar.arr (s.at b).ar.cmdArr).st (updAr b (satNoted sat)
      (arWrite b (s.at b).ar.dst.toNat (lanes.flatMap (leBytes 4)) (takePass b false (diagPass (s.at b).ar ds) s))) := by
  unfold passDone
  rw [if_neg (by simp [phase, awake])]
  exact ⟨_, _, by simp [upto]; rfl, rfl⟩

theorem tcmWrite_tcm {o : Nat} {bs : List Byte} : ((s.tcmWrite b o bs).at b).tcm = memWrite ramD (s.at b).tcm o bs := by
  simp only [State.tcmWrite, State.upd_at, if_true, breakResv_eq]

theorem laneBytes_length {lanes : List Nat} : (lanes.flatMap (leBytes 4)).length = 4 * lanes.length := by
  induction lanes with
  | nil => rfl
  | cons v vs ih => rw [List.flatMap_cons, List.length_append, ih, leBytes_length, List.length_cons]; ring

/-- What a diagnostic pass leaves. -/
structure Passed (b : BId) (ds : BitVec 11520) (s t : State) : Prop where
  phase : (t.at b).ar.phase = .idle
  result : (t.at b).ar.result = 0
  acc : (t.at b).ar.acc = laneSums false (s.at b).ar.acc (diagPass (s.at b).ar ds)
  passes : (t.at b).ar.passes = ((s.at b).ar.passes + ((diagPass (s.at b).ar ds).filter fun p => passesOn p.1).length) % 2 ^ 64
  tcm : ∀ a, a < (s.at b).ar.dst.toNat - 0x20000000 ∨
    (s.at b).ar.dst.toNat - 0x20000000 + 4 * logicalN (vget (s.at b).ar.arr (s.at b).ar.cmdArr).calMode ≤ a →
      memGet ramD (t.at b).tcm a = memGet ramD (s.at b).tcm a
  deck : (t.at b).deck = (s.at b).deck
  flash : (t.at b).flash = (s.at b).flash

theorem passDone_passed (phase : (s.at b).ar.phase = .pass) (awake : s.dev.sleep = false) (low : (s.at b).ar.dst.toNat < 0x20100000)
    {ds : BitVec 11520} : Passed b ds s (passDone b ds s) := by
  obtain ⟨lanes, sat, count, eq⟩ := passDone_eq phase awake (ds := ds)
  rw [eq]
  generalize taken : takePass b false (diagPass (s.at b).ar ds) s = u
  have inTcm : arWrite b (s.at b).ar.dst.toNat (lanes.flatMap (leBytes 4)) u =
      u.tcmWrite b ((s.at b).ar.dst.toNat - 0x20000000) (lanes.flatMap (leBytes 4)) := if_pos low
  have pass : Touch [.ar] s u := taken ▸ takePass_touch sub_self .refl
  have wrote : Touch [.pl, .tcm] u (arWrite b (s.at b).ar.dst.toNat (lanes.flatMap (leBytes 4)) u) := by
    rw [inTcm]
    exact State.tcmWrite_touch sub_self .refl
  generalize written : arWrite b (s.at b).ar.dst.toNat (lanes.flatMap (leBytes 4)) u = v at wrote inTcm ⊢
  have noted : Touch [.ar] v (updAr b (satNoted sat) v) := updAr_touch sub_self .refl
  have lanesAr : (v.at b).ar = _ := (wrote.at_ar (by decide) b).trans ((congrArg (fun z => (State.at z b).ar) taken.symm).trans takePass_ar)
  have last : ((updAr b (satNoted sat) v).at b).ar = satNoted sat (v.at b).ar := updAr_ar
  have ended : Ended 0 ((updAr b (satNoted sat) v).at b).ar
      ((arEnd b 0 (vget (s.at b).ar.arr (s.at b).ar.cmdArr).st (updAr b (satNoted sat) v)).at b).ar := by
    rw [arEnd_ar]
    exact endedAr_ended
  have rest : Touch [.out, .freeCtr, .rp, .log, .pl, .dk, .us, .ar] (updAr b (satNoted sat) v)
    (arEnd b 0 (vget (s.at b).ar.arr (s.at b).ar.cmdArr).st (updAr b (satNoted sat) v)) := arEnd_touch sub_self .refl
  rw [last] at ended
  have acc : (v.at b).ar.acc = laneSums false (s.at b).ar.acc (diagPass (s.at b).ar ds) := by rw [lanesAr]
  have passes : (v.at b).ar.passes = ((s.at b).ar.passes + ((diagPass (s.at b).ar ds).filter fun p => passesOn p.1).length) % 2 ^ 64 := by
    rw [lanesAr]
  refine ⟨ended.phase, ended.result, ended.acc.trans acc, ended.passes.trans passes, fun a outside => ?_, ?_, ?_⟩
  · rw [rest.at_tcm (by decide), noted.at_tcm (by decide), inTcm, tcmWrite_tcm, pass.at_tcm (by decide)]
    refine memGet_memWrite_out ?_
    rw [laneBytes_length, count]
    exact outside
  · rw [rest.at_deck (by decide), noted.at_deck (by decide), wrote.at_deck (by decide), pass.at_deck (by decide)]
  · rw [rest.at_flash (by decide), noted.at_flash (by decide), wrote.at_flash (by decide), pass.at_flash (by decide)]

/-! ### Cell windows (R249) -/

theorem cellRead_blank {r w : Nat} {v : Word} (no : (arrOf s b k).st = .busy ∨ (arrOf s b k).st = .retired) : cellRead b k r w v s = (0, s) := by
  refine if_pos ?_
  rcases no with st | st <;> simp [st]

theorem cellRead_value {r w : Nat} {v : Word} (reads : ¬((arrOf s b k).st = .busy ∨ (arrOf s b k).st = .retired)) :
    (cellRead b k r w v s).1 = v := by
  unfold cellRead
  rw [if_neg (by simpa using reads)]

/-! ### The arrays after a calibration -/

theorem calAccepted_gain {x : Berth} {m : Vector Nat 4} {tol : Nat} {a : Arr} (good : calAccepts m tol = true) :
    some (calAccepted x (calCandidate m) a).gain = (calCandidate m).1 := by
  unfold calAccepts at good
  unfold calAccepted
  split at good
  case h_1 g o eq => rw [eq]; rfl
  case h_2 => exact absurd good Bool.false_ne_true

theorem calFailed_touch {c : Option Nat × Nat} : Touch [.out, .freeCtr, .rp, .log, .dk, .us, .ar] s (calFailed b k c s) :=
  logRec_touch (by decide) (updArr_touch (by decide) (State.draw_touch (by decide) .refl))

theorem calFailed_arr (lt : k < 8) {c : Option Nat × Nat} :
    arrOf (calFailed b k c s) b k = calRejected false (testRetry (s.at b) k) (arrOf s b k) :=
  (arrOf_of_touch (logRec_touch sub_self .refl) (by decide)).trans (arrOf_updArr lt)

/-- An event of a live array that no run uses makes it INVALID. -/
theorem eventCounted_st {hist : Hist} {retry : Nat} {a : Arr} (live : a.st = .valid ∨ a.st = .degraded) :
    (eventCounted hist false (calRejected false retry a)).st = .invalid := by
  refine if_neg ?_
  rcases live with st | st <;> simp [calRejected, st]

end

/-- Settles O31: a calibration, a test slot and a pass change the array and the engine by their own rule. -/
theorem arrayMeasures : Obligations.ArrayMeasures := by
  unfold Obligations.ArrayMeasures
  intro s b k
  have lt : k.val < 8 := k.isLt
  refine ⟨?_, ?_, ?_, ?_, ?_⟩
  · rintro ds m ⟨quiet, run, rfl, awake, clock⟩
    refine ⟨fun ⟨idle, live, order, free⟩ => ?_, fun ⟨phase, on, go, good⟩ => ?_⟩
    · have is : CalFree s.begin b k := ⟨run, awake, clock, idle, live, order, (inRun_congr fun _ => rfl).trans free⟩
      refine ⟨fun good => ?_, fun bad => ?_⟩
      · refine answers_rows quiet (calibrationDone_touch sub_self .refl) (by decide) rfl fun t ends => ?_
        rw [calibrationDone_accepts is good] at ends
        have arr : arrOf t b k.val = calAccepted (s.at b) (calCandidate (calMeans (arrOf s b k.val) ds)) (arrOf s b k.val) :=
          ends.arr.trans (arrOf_updArr lt)
        refine ⟨ends.agreeOff_begin (by decide) (updArr_touch (by decide) .refl), ?_⟩
        rw [arr]
        exact ⟨calAccepted_gain good, rfl, rfl, rfl, rfl, rfl⟩
      · refine answers_rows quiet (calibrationDone_touch sub_self .refl) (by decide) rfl fun t ends => ?_
        rw [calibrationDone_rejects is bad] at ends
        have failed : arrOf (calFailed b k.val (calCandidate (calMeans (arrOf s.begin b k.val) ds)) s.begin) b k.val =
            calRejected false (testRetry (s.at b) k.val) (arrOf s b k.val) := calFailed_arr lt
        by_cases more : (arrOf s b k.val).calTries + 1 ≤ testRetry (s.at b) k.val
        · rw [if_pos (show (arrOf s.begin b k.val).calTries + 1 ≤ testRetry (s.begin.at b) k.val from more)] at ends
          rw [ends.arr, failed]
          exact ⟨rfl, rfl, rfl, rfl, fun _ => ⟨by simp [calRejected, more], rfl⟩, fun less => absurd more (by omega)⟩
        · rw [if_neg (show ¬(arrOf s.begin b k.val).calTries + 1 ≤ testRetry (s.begin.at b) k.val from more)] at ends
          have still : Touch [.out, .freeCtr, .rp, .log, .dk, .us, .ar] s.begin _ :=
            calFailed_touch (b := b) (k := k.val) (c := calCandidate (calMeans (arrOf s.begin b k.val) ds))
          obtain ⟨hist, late, busy, cases'⟩ := arrEvent_arr (s := calFailed b k.val (calCandidate (calMeans (arrOf s.begin b k.val) ds)) s.begin)
            (b := b) (cause := 4) lt
          have prompt : late = false := Bool.eq_false_iff.mpr fun is' => by
            have inRun' := busy is'
            rw [inRun_congr (still.at_pg (by decide))] at inRun'
            exact absurd (inRun'.symm.trans ((inRun_congr fun _ => rfl).trans free)) (by decide)
          rw [ends.arr]
          rw [failed, prompt] at cases'
          rcases cases' with counted | gone
          · rw [counted]
            exact ⟨rfl, rfl, rfl, rfl, fun less => absurd less more, fun _ => .inl (eventCounted_st live)⟩
          · rw [gone]
            exact ⟨rfl, rfl, rfl, rfl, fun less => absurd less more, fun _ => .inr rfl⟩
    · refine answers_rows quiet (calibrationDone_touch sub_self .refl) (by decide) rfl fun t ends => ?_
      rw [calibrationDone_closes (s := s.begin) run awake clock phase on go good] at ends
      have arr : arrOf t b k.val = calAccepted (s.at b) (calCandidate (calMeans (arrOf s b k.val) ds)) (arrOf s b k.val) :=
        ends.arr.trans ((arrOf_updAr (f := fun e => { e with phase := .closeTest }) fun _ => rfl).trans (arrOf_updArr lt))
      refine ⟨ends.agreeOff_begin (by decide) (updAr_touch (by decide) (updArr_touch (by decide) .refl)),
        (congrArg Ar.phase ends.ar).trans (congrArg Ar.phase updAr_ar), ?_⟩
      rw [arr]
      exact calAccepted_gain good
  · rintro ds ⟨quiet, no⟩
    refine answers_rows quiet (calibrationDone_touch sub_self .refl) (by decide) rfl fun t ends => ?_
    rw [calibrationDone_stays (s := s.begin) no] at ends
    exact ends.agreeOff (begin_touch_out (by decide))
  · rintro cs ⟨quiet, idle, due, live, order, awake, clock⟩
    have is : TestFree s.begin b k.val := ⟨idle, due, live, order, awake, clock⟩
    refine answers_rows quiet (testSlot_touch sub_self .refl) (by decide) rfl fun t ends => ?_
    have kept := testSlot_testKept lt (cs := cs) is
    rw [← ends.arr] at kept
    refine ⟨kept.tests, kept.due, fun good => ?_⟩
    rw [ends.arr]
    exact testSlot_good lt is good
  · rintro ds ⟨quiet, phase, on, awake, low⟩
    have lanes : ds.toList.getD 0 0 = ds[0] := by simp [List.getD]
    have run : exec (.arrayPassDone b .diag ds) s = ran s (afterArray b (passDone b ds[0] s.begin)) := by
      rw [← lanes]
      exact congrArg (ran s) (if_neg (by rw [show s.begin.dev.sleep = false from awake]; decide))
    refine answers_rows quiet (passDone_touch sub_self .refl) (by decide) run fun t ends => ?_
    obtain ⟨idle, result, acc, passes, tcm, deck, flash⟩ := passDone_passed (s := s.begin) (b := b) (ds := ds[0]) phase awake low
    have named : diagPass (s.begin.at b).ar ds[0] = [(arrOf s b k.val, (s.at b).ar.input.map (·.toNat), ds[0])] := by
      rw [← on]
      rfl
    rw [ends.ar, ends.at_eq b]
    refine ⟨idle, result, acc.trans (congrArg _ named), passes.trans ?_, fun a outside => tcm a ?_, deck, flash⟩
    · rw [named]
      cases on' : passesOn (arrOf s b k.val) <;> simp [on', b2n]
    · rw [← on] at outside
      exact outside
  · intro req r w v pass
    refine answers_readBus pass rfl (Prod.mk.eta (p := cellRead b k.val r.val w.val v s.begin)).symm fun t out within => ?_
    have read : Touch [.out, .sy, .ar] s.begin t := .trans (cellRead_touch (by decide) .refl) (within.mono (by decide))
    have quiet : (cellRead b k.val r.val w.val v s.begin).2.out = [] := (cellRead_touch (fs := [.ar]) sub_self .refl).at_out (by decide)
    refine ⟨read.agreeOff_begin, ?_⟩
    rw [out, quiet, List.nil_append]
    split
    · next no => rw [cellRead_blank (s := s.begin) no]
    · next yes => rw [cellRead_value (s := s.begin) yes]

end Sys2Proof.Machine

/-! Policy graphs: an inference from its features to its outputs, and the fallback (R271, R272, R274, R289 to R291). -/
namespace Sys2Proof.Machine
set_option Elab.async false

section
variable {s t u : State} {b c h n : BId} {g m j : Nat} {gr : Graph} {i : Infer}

/-! ### Graphs of a berth -/

theorem updPg_pg {f : Pg → Pg} : ((updPg b f s).at n).pg = if b = n then f (s.at n).pg else (s.at n).pg := by
  rw [updPg_at, apply_ite Berth.pg]

theorem updPg_pg_self {f : Pg → Pg} : ((updPg b f s).at b).pg = f (s.at b).pg := by rw [updPg_pg, if_pos rfl]

theorem updPg_pg_ne {f : Pg → Pg} (ne : n ≠ b) : ((updPg b f s).at n).pg = (s.at n).pg := by rw [updPg_pg, if_neg ne.symm]

theorem updGraph_pg {f : Graph → Graph} : ((updGraph b g f s).at n).pg =
    if b = n then { (s.at n).pg with graph := vmod (s.at n).pg.graph g f } else (s.at n).pg := updPg_pg

theorem updGraph_pg_self {f : Graph → Graph} : ((updGraph b g f s).at b).pg = { (s.at b).pg with graph := vmod (s.at b).pg.graph g f } := updPg_pg_self

theorem updGraph_pg_ne {f : Graph → Graph} (ne : n ≠ b) : ((updGraph b g f s).at n).pg = (s.at n).pg := updPg_pg_ne ne

theorem graphOf_updGraph {f : Graph → Graph} (lt : g < 2) : graphOf (updGraph b g f s) b g = f (graphOf s b g) := by
  rw [graphOf, updGraph_pg_self]
  exact vget_vmod_self lt

theorem graphOf_updGraph_ne {f : Graph → Graph} (ne : b ≠ n ∨ g ≠ m) : graphOf (updGraph b g f s) n m = graphOf s n m := by
  rw [graphOf, updGraph_pg, graphOf]
  by_cases same : b = n
  · rw [if_pos same]
    exact vget_vmod_ne (ne.resolve_left (not_not.mpr same))
  · rw [if_neg same]

theorem graphOf_updPg {f : Pg → Pg} (keeps : ∀ p, (f p).graph = p.graph) : graphOf (updPg b f s) n m = graphOf s n m := by
  rw [graphOf, updPg_pg, graphOf]
  split
  · rw [keeps]
  · rfl

theorem graphOf_of_pg (pg : (t.at n).pg = (s.at n).pg) : graphOf t n m = graphOf s n m := by rw [graphOf, pg, graphOf]

theorem graphOf_of_touch {fs : List Piece} (k : Touch fs s t) (out : Piece.pg ∉ fs) : graphOf t n m = graphOf s n m :=
  graphOf_of_pg (k.at_pg out n)

theorem EndsAs.graph (e : EndsAs u t) : graphOf t n m = graphOf u n m := graphOf_of_pg (by rw [e.at_eq])

/-! ### Graph states (R291) -/

/-- A state change alters the state in the graph, and nothing else of the policy block. -/
theorem setGst_pg {st : GSt} {cause : Nat} : ((setGst h g st cause s).at n).pg = ((updGraph h g (fun gr => { gr with st := st }) s).at n).pg := by
  unfold setGst
  extract_lets old s1 s2
  split
  · rfl
  · have attention : (s2.at n).pg = (s1.at n).pg := by
      unfold s2
      split
      · exact (attn_touch (fs := [.freeCtr, .dk, .tw, .us]) (by decide) .refl).at_pg (by decide) n
      · rfl
    rw [(irq_touch sub_self .refl).at_pg (by decide), (logRec_touch sub_self .refl).at_pg (by decide), attention]

theorem graphOf_setGst {st : GSt} {cause : Nat} (lt : g < 2) : graphOf (setGst h g st cause s) h g = { graphOf s h g with st := st } :=
  (graphOf_of_pg setGst_pg).trans (graphOf_updGraph lt)

theorem graphOf_setGst_ne {st : GSt} {cause : Nat} (ne : h ≠ n ∨ g ≠ m) : graphOf (setGst h g st cause s) n m = graphOf s n m :=
  (graphOf_of_pg setGst_pg).trans (graphOf_updGraph_ne ne)

/-- An inference that ends without a commit ends in the graph, and alters nothing else of the policy block. -/
theorem dropInf_pg : ((dropInf h g s).at n).pg = ((updGraph h g (fun gr => { gr with inf := none }) s).at n).pg :=
  (runEnds_touch sub_self .refl).at_pg (by decide) n

theorem graphOf_dropInf (lt : g < 2) : graphOf (dropInf h g s) h g = { graphOf s h g with inf := none } :=
  (graphOf_of_pg dropInf_pg).trans (graphOf_updGraph lt)

/-- The graph of an incomplete inference (R290, R291). -/
structure Incomplete (gr gr' : Graph) : Prop where
  inf : gr'.inf = none
  incomplete : gr'.incomplete = sinc gr.incomplete
  st : gr'.st = if gr.st = .running then .stalled else gr.st
  runs : gr'.runs = gr.runs
  img : gr'.img = gr.img

theorem incomplete_graph (lt : g < 2) {late : Bool} : Incomplete (graphOf s h g) (graphOf (incomplete h g late s) h g) := by
  unfold incomplete
  extract_lets s1 s2
  have counted : graphOf s1 h g = { graphOf s h g with
      inf := none, incomplete := sinc (graphOf s h g).incomplete, overrun := sadd (graphOf s h g).overrun (b2n late) } := by
    rw [show graphOf s1 h g = _ from graphOf_updGraph lt, graphOf_dropInf lt]
  have dummy : graphOf s2 h g = graphOf s1 h g := by
    unfold s2
    split
    · exact graphOf_updPg fun _ => rfl
    · rfl
  rw [dummy, counted]
  split
  · next running =>
    rw [graphOf_setGst lt, graphOf_updGraph lt, dummy, counted]
    have is : (graphOf s h g).st = .running := beq_iff_eq.mp running
    exact ⟨rfl, rfl, (if_pos is).symm, rfl, rfl⟩
  · next other =>
    rw [dummy, counted]
    have is : (graphOf s h g).st ≠ .running := by simpa using other
    exact ⟨rfl, rfl, (if_neg is).symm, rfl, rfl⟩

/-! ### The output unit (R274, R275) -/

/-- Two policy blocks are alike but for formed and committed values and the counts of the output unit. -/
structure OutsOnly (p p' : Pg) : Prop where
  graph : ∀ g, ∃ o c, vget p'.graph g = { vget p.graph g with outs := o, committed := c }
  rest : ∃ gs su cl wf, p' = { p with graph := gs, suppress := su, clamp := cl, wfail := wf }

theorem OutsOnly.refl {p : Pg} : OutsOnly p p := ⟨fun _ => ⟨_, _, rfl⟩, ⟨_, _, _, _, rfl⟩⟩

theorem OutsOnly.trans {p q r : Pg} (k : OutsOnly p q) (l : OutsOnly q r) : OutsOnly p r := by
  refine ⟨fun g => ?_, ?_⟩
  · obtain ⟨_, _, e⟩ := k.graph g
    obtain ⟨o, c, e'⟩ := l.graph g
    exact ⟨o, c, by rw [e', e]⟩
  · obtain ⟨_, _, _, _, rfl⟩ := k.rest
    obtain ⟨gs, su, cl, wf, rfl⟩ := l.rest
    exact ⟨gs, su, cl, wf, rfl⟩

/-- Values are formed and written on berth h at most. -/
structure Writes (h : BId) (s t : State) : Prop where
  own : OutsOnly (s.at h).pg (t.at h).pg
  others : ∀ c, c ≠ h → (t.at c).pg = (s.at c).pg

theorem Writes.refl : Writes h s s := ⟨.refl, fun _ _ => rfl⟩

theorem Writes.trans (k : Writes h s t) (l : Writes h t u) : Writes h s u :=
  ⟨k.own.trans l.own, fun c ne => (l.others c ne).trans (k.others c ne)⟩

theorem Writes.of_touch {fs : List Piece} (k : Touch fs s t) (out : Piece.pg ∉ fs) : Writes h s t :=
  ⟨by rw [k.at_pg out]; exact .refl, fun c _ => k.at_pg out c⟩

theorem Writes.iter {α : Type} {f : α → State → State} {xs : List α} (turn : ∀ x t, Writes h t (f x t)) : Writes h s (iter xs f s) :=
  iter_induction .refl fun x _ k => k.trans (turn x _)

theorem Writes.graph (k : Writes h s t) : ∃ o c, graphOf t h g = { graphOf s h g with outs := o, committed := c } := k.own.graph g

theorem updGraph_writes {f : Graph → Graph} (keeps : ∀ a, ∃ o c, f a = { a with outs := o, committed := c }) : Writes h s (updGraph h g f s) := by
  refine ⟨?_, fun c ne => updGraph_pg_ne ne⟩
  rw [updGraph_pg_self]
  refine ⟨fun m => ?_, ⟨_, _, _, _, rfl⟩⟩
  dsimp only
  rcases vget_vmod_or (v := (s.at h).pg.graph) (i := g) (j := m) (f := f) with new | old
  · rw [new]
    exact keeps _
  · rw [old]
    exact ⟨_, _, rfl⟩

theorem updPg_writes {f : Pg → Pg} (keeps : ∀ p, ∃ su cl wf, f p = { p with suppress := su, clamp := cl, wfail := wf }) :
    Writes h s (updPg h f s) := by
  refine ⟨?_, fun c ne => updPg_pg_ne ne⟩
  rw [updPg_pg_self]
  obtain ⟨su, cl, wf, eq⟩ := keeps (s.at h).pg
  rw [eq]
  exact ⟨fun _ => ⟨_, _, rfl⟩, ⟨_, su, cl, wf, rfl⟩⟩

theorem putOut_writes {k kind : Nat} {o : OutVal} : Writes h s (putOut h g k kind o s) :=
  (updGraph_writes fun _ => ⟨_, _, rfl⟩).trans (updPg_writes fun _ => ⟨_, _, _, rfl⟩)

theorem formAll_writes {v : Binding → Int} : Writes h s (formAll h g v s) := .iter fun _ _ => putOut_writes

theorem setCommitted_writes {k v : Nat} : Writes h s (setCommitted h g k v s) := updGraph_writes fun _ => ⟨_, _, rfl⟩

theorem writeBinding_writes {keep : Bool} {k : Nat} : Writes h s (writeBinding h keep k s) := by
  unfold writeBinding
  extract_lets gr'
  split
  · extract_lets partner w s1 s2
    split
    · exact .refl
    · split
      · exact updPg_writes fun _ => ⟨_, _, _, rfl⟩
      · split
        · exact updPg_writes fun _ => ⟨_, _, _, rfl⟩
        · have wrote : Writes h s s1 := .of_touch (unitWrite_touch sub_self .refl) (by decide)
          have committed : Writes h s s2 := wrote.trans setCommitted_writes
          split
          · exact wrote
          · clear_value w partner
            cases partner with
            | none => exact committed
            | some j =>
              cases w with
              | none => exact committed
              | some v => exact committed.trans setCommitted_writes
  · exact .refl

theorem writeAll_writes {keep : Bool} : Writes h s (writeAll h keep s) := .iter fun _ _ => writeBinding_writes

theorem writeSafe_writes : Writes h s (writeSafe h g s) := by
  unfold writeSafe
  split
  · exact formAll_writes.trans writeAll_writes
  · exact .refl

/-! ### Features and passes (R271 to R273) -/

/-- The inference once its features are gathered. -/
def gathered (s : State) (h : BId) (gr : Graph) (i : Infer) : Infer :=
  { i with
    step := .pass 0 0
    input := ((imgOf gr).feats.zip (i.feats.zip i.miss)).map fun e => featValue e.1 (if featMissed s h gr e.1 then 0 else e.2.1) }

/-- What the gathering leaves of the policy block. -/
structure Gathers (h : BId) (g : Nat) (i : Infer) (s t : State) : Prop where
  graph : graphOf t h g = { graphOf s h g with inf := some (gathered s h (graphOf s h g) i) }
  rest : ∃ gs n, (t.at h).pg = { (s.at h).pg with graph := gs, featMiss := n }
  others : ∀ c, c ≠ h → t.at c = s.at c

theorem gatherDone_gathers (lt : g < 2) (run : (graphOf s h g).inf = some i) : Gathers h g i s (gatherDone h g s) := by
  unfold gatherDone
  extract_lets gr'
  split
  case h_1 eq => exact absurd (eq.symm.trans run) (by simp)
  case h_2 i' eq =>
    cases eq.symm.trans run
    extract_lets fs gone input s1
    have missed : graphOf s1 h g = graphOf s h g := graphOf_updPg fun _ => rfl
    refine ⟨?_, ?_, fun c ne => ?_⟩
    · rw [graphOf_updGraph lt, missed]
      rfl
    · rw [updGraph_pg_self, show (s1.at h).pg = _ from updPg_pg_self]
      exact ⟨_, _, rfl⟩
    · rw [updGraph_eq]
      unfold s1
      rw [updPg_at, if_neg ne.symm, updPg_at, if_neg ne.symm]

theorem featureReceive_gathers (lt : g < 2) (run : (graphOf s h g).inf = some i) (at' : i.step = .gather) : Gathers h g i s (featureReceive h g s) := by
  unfold featureReceive
  rw [run]
  dsimp only
  rw [if_pos (by rw [at']; rfl)]
  exact gatherDone_gathers lt run

theorem updPg_within {f : Pg → Pg} : Within b s (updPg b f s) := .upd

theorem gatherDone_within : Within h s (gatherDone h g s) := by
  unfold gatherDone
  extract_lets gr'
  split
  · exact .refl
  · exact updPg_within.trans updPg_within

theorem featureReceive_within : Within h s (featureReceive h g s) := by
  unfold featureReceive
  split
  · split
    · exact gatherDone_within
    · exact .refl
  · exact .refl

/-- A home's turn as a stage's output arrives on berth b. -/
def stageTurn (b : BId) (g : Nat) (h : BId) (t : State) : State :=
  match (graphOf t h g).inf with
  | some i => (match i.step with
    | .travel j =>
      if layerBerth (graphOf t h g) j == some b then
        updGraph h g (fun gr => { gr with inf := some { i with step := .pass j 0 } }) t
      else t
    | _ => t)
  | none => t

theorem stageReceive_eq : stageReceive b g s = iter allB (stageTurn b g) s := rfl

theorem stageTurn_others (ne : c ≠ h) : graphOf (stageTurn b g c t) h g = graphOf t h g := by
  unfold stageTurn
  split
  · split
    · split
      · exact graphOf_updGraph_ne (.inl ne)
      · rfl
    · rfl
  · rfl

theorem stageTurn_own (lt : g < 2) (run : (graphOf t h g).inf = some i) (step : i.step = .travel j) (on : layerBerth (graphOf t h g) j = some b) :
    (graphOf (stageTurn b g h t) h g).inf = some { i with step := .pass j 0 } := by
  unfold stageTurn
  rw [run]
  dsimp only
  rw [step]
  dsimp only
  rw [if_pos (by rw [on]; simp), graphOf_updGraph lt]

theorem stageReceive_inf (lt : g < 2) (run : (graphOf s h g).inf = some i) (step : i.step = .travel j) (on : layerBerth (graphOf s h g) j = some b) :
    (graphOf (stageReceive b g s) h g).inf = some { i with step := .pass j 0 } := by
  rw [stageReceive_eq]
  exact iter_turn (P := fun t => graphOf t h g = graphOf s h g) (Q := fun t => (graphOf t h g).inf = some { i with step := .pass j 0 })
    mem_allB allB_nodup rfl (fun y t ne same => (stageTurn_others ne).trans same)
    (fun t same => stageTurn_own lt (by rw [same]; exact run) step (by rw [same]; exact on))
    (fun y t ne kept => by rw [stageTurn_others ne]; exact kept)

theorem graphPass_cut (run : (graphOf s h g).inf = some i) (cut : stagesReached s h (graphOf s h g) = false) {c : Nat} {ds : Vector (BitVec 11520) 4} :
    graphPass b h g j c ds s = incomplete h g false s := by
  unfold graphPass
  extract_lets gr'
  rw [show gr'.inf = some i from run]
  exact if_pos (by rw [cut]; rfl)

/-- The outputs of a pass leave their berth where the next layer is on another. -/
def passLeaves (st : InfStep) (n : Nat) (b : BId) (gr : Graph) (s : State) : State :=
  match st with
  | .travel k => dataSend n b ((layerBerth gr k).getD b) s
  | _ => s

theorem passLeaves_touch {st : InfStep} {n : Nat} : Touch [.rp] s (passLeaves st n b gr s) := by
  unfold passLeaves
  split
  · exact dataSend_touch sub_self .refl
  · exact .refl

theorem graphPass_step (lt : g < 2) (run : (graphOf s h g).inf = some i) (reach : stagesReached s h (graphOf s h g) = true) {c : Nat}
    {ds : Vector (BitVec 11520) 4} :
    (graphOf (graphPass b h g j c ds s) h g).inf.map (·.step) = some (afterPass (graphOf s h g) j c) := by
  unfold graphPass
  extract_lets gr' img st done last
  split
  case h_1 eq => exact absurd (eq.symm.trans run) (by simp)
  case h_2 i' eq =>
    rw [if_neg (by rw [reach]; decide)]
    extract_lets s1 outs sat new inf s2 s3
    have left : Touch [.rp] s2 s3 := passLeaves_touch (st := st)
    rw [graphOf_of_touch (runEnds_touch sub_self .refl) (by decide), graphOf_of_touch left (by decide), show graphOf s2 h g = _ from graphOf_updGraph lt]
    rfl

theorem arrayPassDone_eq (home : passHome s b g = some h) (awake : s.dev.sleep = false) (run : (graphOf s h g).inf = some i) {c : Nat}
    (step : i.step = .pass j c) (k : Fin 2) (is : k.val = g) {ds : Vector (BitVec 11520) 4} :
    arrayPassDone b (if k = 0 then .policy else .dummy) ds s = graphPass b h g j c ds s := by
  unfold arrayPassDone
  extract_lets run'
  have runs : run' g = graphPass b h g j c ds s := by
    unfold run'
    rw [home]
    dsimp only
    rw [run]
    dsimp only
    rw [step]
  rw [if_neg (by rw [awake]; decide)]
  subst is
  fin_cases k
  · exact runs
  · exact runs

/-! ### Outputs and the fallback (R274, R290, R291) -/

theorem bindingsFormed_cut (run : (graphOf s h g).inf = some i) (step : i.step = .outputs) (cut : stagesReached s h (graphOf s h g) = false) :
    bindingsFormed h g s = incomplete h g false s := by
  unfold bindingsFormed
  extract_lets gr'
  rw [show gr'.inf = some i from run]
  dsimp only
  rw [if_neg (by rw [step]; decide)]
  exact if_pos (by rw [cut]; rfl)

/-- The state whose values are formed. -/
def valuesFormed (h : BId) (g : Nat) (i : Infer) (s : State) : State :=
  updGraph h g (fun gr => { gr with inf := some { i with step := .complete } })
    (formAll h g (fun bd => scaleOut bd ((i.outs[bd.srcOut]?).getD 0)) s)

theorem bindingsFormed_eq (run : (graphOf s h g).inf = some i) (step : i.step = .outputs) (reach : stagesReached s h (graphOf s h g) = true) :
    bindingsFormed h g s = if (graphOf s h g).st == .stalled || (graphOf s h g).st == .fallback then setGst h g .running 6 (valuesFormed h g i s)
      else valuesFormed h g i s := by
  unfold bindingsFormed
  extract_lets gr'
  rw [show gr'.inf = some i from run]
  dsimp only
  rw [if_neg (by rw [step]; decide), if_neg (by rw [reach]; decide)]
  rfl

theorem valuesFormed_graph (lt : g < 2) : (graphOf (valuesFormed h g i s) h g).inf = some { i with step := .complete }
    ∧ (graphOf (valuesFormed h g i s) h g).st = (graphOf s h g).st := by
  rw [valuesFormed, graphOf_updGraph lt]
  obtain ⟨o, c, eq⟩ := (formAll_writes (g := g) (h := h) (s := s) (v := fun bd => scaleOut bd ((i.outs[bd.srcOut]?).getD 0))).graph (g := g)
  exact ⟨rfl, by rw [eq]⟩

theorem bindingsFormed_graph (lt : g < 2) (run : (graphOf s h g).inf = some i) (step : i.step = .outputs)
    (reach : stagesReached s h (graphOf s h g) = true) : (graphOf (bindingsFormed h g s) h g).inf = some { i with step := .complete }
      ∧ (graphOf (bindingsFormed h g s) h g).st =
        if (graphOf s h g).st = .stalled ∨ (graphOf s h g).st = .fallback then .running else (graphOf s h g).st := by
  obtain ⟨inf, st⟩ := valuesFormed_graph (s := s) (h := h) (i := i) lt
  rw [bindingsFormed_eq run step reach]
  by_cases back : (graphOf s h g).st = .stalled ∨ (graphOf s h g).st = .fallback
  · rw [if_pos (by simpa using back), if_pos back, graphOf_setGst lt]
    exact ⟨inf, rfl⟩
  · rw [if_neg (by simpa using back), if_neg back]
    exact ⟨inf, st⟩

theorem fallbackEntry_enters (lt : g < 2) (stalled : (graphOf s h g).st = .stalled) (long : 256 ≤ (graphOf s h g).stallMarks) :
    (graphOf (fallbackEntry h g s) h g).st = .fallback := by
  unfold fallbackEntry
  rw [if_pos (by simp [stalled, long])]
  obtain ⟨o, c, eq⟩ := (writeSafe_writes (g := g) (h := h) (s := setGst h g .fallback 2 s)).graph (g := g)
  rw [eq, graphOf_setGst lt]

theorem fallbackEntry_waits (short : (graphOf s h g).stallMarks < 256) : fallbackEntry h g s = s := if_neg (by simp [short])

end

/-- Settles O32: a graph goes through its features, passes and outputs, and a cut inference counts as incomplete. -/
theorem inference : Obligations.Inference := by
  unfold Obligations.Inference
  intro s h b g i run
  have lt : g.val < 2 := g.isLt
  refine ⟨fun step => ?_, fun j ⟨step, on⟩ => ?_, fun j c ds ⟨step, home, awake, reach⟩ => ?_, fun ⟨step, reach⟩ => ?_, ?_,
    fun ⟨stalled, long⟩ => ?_, fun ⟨_, short⟩ => ?_⟩
  · refine answers_of_run (u := featureReceive h g.val s.begin) rfl fun t queue e => ⟨e.keeps queue (.ofBegin featureReceive_within),
      e.agreeOff_begin (by decide) (featureReceive_touch (by decide) .refl), ?_⟩
    rw [e.graph, (featureReceive_gathers (s := s.begin) lt run step).graph]
    rfl
  · refine answers_of_run (u := stageReceive b g.val s.begin) rfl fun t queue e =>
      ⟨e.agreeOff_begin (by decide) (stageReceive_touch (by decide) .refl), ?_⟩
    rw [e.graph]
    exact stageReceive_inf (s := s.begin) lt run step on
  · refine answers_of_run (u := graphPass b h g.val j c ds s.begin) ?_ fun t queue e =>
      ⟨?_, e.agreeOff_begin (by decide) (graphPass_touch (by decide) .refl)⟩
    · exact congrArg (ran s) (arrayPassDone_eq (s := s.begin) home awake run step g rfl)
    · rw [e.graph]
      exact graphPass_step (s := s.begin) lt run reach
  · refine answers_of_run (u := bindingsFormed h g.val s.begin) rfl fun t queue e => ?_
    rw [e.graph]
    exact bindingsFormed_graph (s := s.begin) lt run step reach
  · rintro x ⟨cut, how⟩
    have answer : exec x s = ran s (incomplete h g.val false s.begin) := by
      rcases how with ⟨rfl, step⟩ | ⟨⟨ds, j, c, rfl, step⟩, home, awake⟩
      · exact congrArg (ran s) (bindingsFormed_cut (s := s.begin) run step cut)
      · exact congrArg (ran s) ((arrayPassDone_eq (s := s.begin) home awake run step g rfl).trans (graphPass_cut (s := s.begin) run cut))
    refine answers_of_run answer fun t queue e => ?_
    have ended := incomplete_graph (s := s.begin) (h := h) (late := false) lt
    rw [e.graph]
    exact ⟨ended.inf, ended.incomplete, ended.st⟩
  · refine answers_of_run (u := fallbackEntry h g.val s.begin) rfl fun t queue e => ?_
    rw [e.graph]
    exact fallbackEntry_enters (s := s.begin) lt stalled long
  · refine answers_of_run (u := s.begin) ?_ fun t queue e => e.agreeOff (begin_touch_out (by decide))
    exact congrArg (ran s) (fallbackEntry_waits (s := s.begin) short)

end Sys2Proof.Machine

/-! Orders to PG_CMD, loaded graphs, the dummy and its promotion (R287, R288, R293, R295 to R297). -/
namespace Sys2Proof.Machine
set_option Elab.async false

section
variable {s t u : State} {b c h n : BId} {g m cmd : Nat} {req : ReqId} {refuse guard : Nat} {act : State → State} {toPilot : Bool}

/-! ### Orders (R296) -/

/-- PG_CMD_STAT of an order. -/
def pgOrdered (cmd res : Nat) (req : ReqId) (p : Pg) : Pg := { p with lastCmd := cmd, result := res, cmdReq := req.val }

theorem pgResult_pg {res : Nat} : ((pgResult h cmd res req s).at n).pg = if h = n then pgOrdered cmd res req (s.at n).pg else (s.at n).pg := updPg_pg

theorem pgResult_pg_self {res : Nat} : ((pgResult h cmd res req s).at h).pg = pgOrdered cmd res req (s.at h).pg := by rw [pgResult_pg, if_pos rfl]

theorem graphOf_pgResult {res : Nat} : graphOf (pgResult h cmd res req s) n m = graphOf s n m := graphOf_updPg fun _ => rfl

theorem homes_congr (same : ∀ n, graphOf t n g = graphOf s n g) : homes t g = homes s g := by
  unfold homes
  simp only [same]

section
variable (harbour : (s.at h).sy.isHarbour = true) (free : (s.at h).pg.swapDue = false)
include harbour free

/-- An order of a requester that PG_CMD does not take (R296). -/
theorem pgOrder_denied (no : req ≠ 9 ∧ req ≠ 10 ∧ (toPilot = true → req.val ≠ h.val)) :
    pgOrder h req cmd toPilot refuse act s = pgResult h cmd 4 req s := by
  obtain ⟨host, usb, pilot⟩ := no
  unfold pgOrder
  rw [if_neg (by simp [State.isHbr, harbour, free]), if_pos]
  cases toPilot
  · simp [host, usb]
  · simp [host, usb, pilot rfl]

variable (own : req = 9 ∨ req = 10)
include own

theorem pgOrder_refused (bad : refuse ≠ 0) : pgOrder h req cmd toPilot refuse act s = pgResult h cmd refuse req s := by
  unfold pgOrder
  rw [if_neg (by simp [State.isHbr, harbour, free]), if_neg (by rcases own with rfl | rfl <;> simp), if_pos (by simpa using bad)]

theorem pgOrder_taken (good : refuse = 0) : pgOrder h req cmd toPilot refuse act s = act (pgResult h cmd 0 req s) := by
  unfold pgOrder
  rw [if_neg (by simp [State.isHbr, harbour, free]), if_neg (by rcases own with rfl | rfl <;> simp), if_neg (by simp [good])]

end

/-! ### What acts on graphs keep of the policy block -/

/-- The order's registers of the policy block stay, and so does a graph without an inference. -/
structure OrderKept (s t : State) : Prop where
  lastCmd : ∀ n, (t.at n).pg.lastCmd = (s.at n).pg.lastCmd
  result : ∀ n, (t.at n).pg.result = (s.at n).pg.result
  inf : ∀ n g, (graphOf s n g).inf = none → (graphOf t n g).inf = none

theorem OrderKept.refl : OrderKept s s := ⟨fun _ => rfl, fun _ => rfl, fun _ _ k => k⟩

theorem OrderKept.trans (k : OrderKept s t) (l : OrderKept t u) : OrderKept s u :=
  ⟨fun n => (l.lastCmd n).trans (k.lastCmd n), fun n => (l.result n).trans (k.result n), fun n g free => l.inf n g (k.inf n g free)⟩

theorem OrderKept.of_pg (pg : ∀ n, (t.at n).pg = (s.at n).pg) : OrderKept s t :=
  ⟨fun n => by rw [pg], fun n => by rw [pg], fun n g free => by rw [graphOf_of_pg (pg n)]; exact free⟩

theorem OrderKept.of_touch {fs : List Piece} (k : Touch fs s t) (out : Piece.pg ∉ fs) : OrderKept s t := .of_pg (k.at_pg out)

theorem OrderKept.iter {α : Type} {f : α → State → State} {xs : List α} (turn : ∀ x t, OrderKept t (f x t)) : OrderKept s (iter xs f s) :=
  iter_induction .refl fun x _ k => k.trans (turn x _)

theorem updPg_kept {f : Pg → Pg} (keeps : ∀ p, (f p).lastCmd = p.lastCmd ∧ (f p).result = p.result ∧ (f p).graph = p.graph) :
    OrderKept s (updPg b f s) := by
  refine ⟨fun n => ?_, fun n => ?_, fun n g free => ?_⟩
  · rw [updPg_pg]
    split
    · exact (keeps _).1
    · rfl
  · rw [updPg_pg]
    split
    · exact (keeps _).2.1
    · rfl
  · rw [graphOf_updPg fun p => (keeps p).2.2]
    exact free

theorem updGraph_kept {f : Graph → Graph} (keeps : ∀ a, a.inf = none → (f a).inf = none) : OrderKept s (updGraph b g f s) := by
  refine ⟨fun n => ?_, fun n => ?_, fun n m free => ?_⟩
  · rw [updGraph_pg]
    split
    · rfl
    · rfl
  · rw [updGraph_pg]
    split
    · rfl
    · rfl
  · rw [graphOf, updGraph_pg]
    split
    · dsimp only
      rcases vget_vmod_or (v := (s.at n).pg.graph) (i := g) (j := m) (f := f) with new | old
      · rw [new]
        exact keeps _ free
      · rw [old]
        exact free
    · exact free

theorem setGst_kept {st : GSt} {cause : Nat} : OrderKept s (setGst h g st cause s) :=
  .trans (updGraph_kept (f := fun gr => { gr with st := st }) fun _ k => k) (.of_pg fun _ => setGst_pg)

theorem dropInf_kept : OrderKept s (dropInf h g s) := .trans (updGraph_kept (f := fun gr => { gr with inf := none }) fun _ _ => rfl) (.of_pg fun _ => dropInf_pg)

theorem emptyGraph_kept {cause : Nat} : OrderKept s (emptyGraph h g cause s) :=
  (dropInf_kept.trans setGst_kept).trans (updGraph_kept fun _ k => k)

theorem Writes.kept (k : Writes h s t) : OrderKept s t := by
  obtain ⟨⟨graph, gs, su, cl, wf, own⟩, others⟩ := k
  refine ⟨fun n => ?_, fun n => ?_, fun n g free => ?_⟩
  · by_cases same : n = h
    · rw [same, own]
    · rw [others n same]
  · by_cases same : n = h
    · rw [same, own]
    · rw [others n same]
  · by_cases same : n = h
    · obtain ⟨o, c, eq⟩ := graph g
      rw [same] at free ⊢
      rw [show graphOf t h g = _ from eq]
      exact free
    · rw [graphOf_of_pg (others n same)]
      exact free

theorem replaceFails_kept {cause : Nat} : OrderKept s (replaceFails h g cause s) := by
  unfold replaceFails
  extract_lets s1
  have unplaced : OrderKept s s1 := dropInf_kept.trans (updGraph_kept fun _ k => k)
  exact (unplaced.trans setGst_kept).trans writeSafe_writes.kept

theorem loadAborted_kept {k : Nat} : OrderKept s (loadAborted g k h s) := by
  unfold loadAborted
  extract_lets gr h'
  split
  next f s1 drawn =>
  extract_lets s2 s3
  have draw : OrderKept s s1 := by
    rw [show s1 = (s.draw).2 by rw [drawn]]
    exact .of_touch (State.draw_touch (fs := [.freeCtr]) sub_self .refl) (by decide)
  have noted : OrderKept s s2 := draw.trans (updPg_kept fun _ => ⟨rfl, rfl, rfl⟩)
  have logged : OrderKept s s3 := noted.trans (.of_touch (logLoad_touch sub_self .refl) (by decide))
  refine .trans ?_ (.of_touch (startFail_touch sub_self .refl) (by decide))
  refine .trans ?_ (.of_touch (setImgSt_touch sub_self .refl) (by decide))
  exact logged.trans (.iter fun _ _ => emptyGraph_kept)

theorem tileFailed_kept {k : Nat} : OrderKept s (tileFailed h g k s) := by
  unfold tileFailed
  extract_lets gr
  split
  · exact .refl
  · extract_lets s1
    have marked : OrderKept s s1 := updGraph_kept fun _ k => k
    split
    · exact marked.trans (updGraph_kept fun _ k => k)
    · split
      · exact marked.trans loadAborted_kept
      · exact marked.trans replaceFails_kept

theorem setProg_kept {k v : Nat} : OrderKept s (setProg h g k v s) := updGraph_kept fun _ k => k

theorem loaderDone_kept : OrderKept s (loaderDone b s) := by
  unfold loaderDone
  split
  · exact .refl
  · split
    · exact .refl
    · extract_lets s1 gr
      have freed : OrderKept s s1 := by
        refine .trans ?_ (.iter (f := fun i t => deckRelease (512 * b.val + i) t) fun _ _ => .of_touch (deckRelease_touch sub_self .refl) (by decide))
        exact updPg_kept fun _ => ⟨rfl, rfl, rfl⟩
      split
      · exact freed
      · split
        · exact freed
        · split
          · exact freed.trans tileFailed_kept
          · refine .trans ?_ setProg_kept
            exact .trans freed (updGraph_kept fun _ k => k)

theorem loaderStart_kept {k : Nat} : OrderKept s (loaderStart b h g k s) := by
  unfold loaderStart
  extract_lets gr k' n' bs
  split
  · exact tileFailed_kept
  · split
    · exact .refl
    · next i v taken =>
      extract_lets s1 verify s2 s3
      have held : OrderKept s v := .of_touch (takeRun_touch_some sub_self taken .refl) (by decide)
      have sent : OrderKept v s1 := .of_touch (State.deckWrite_touch (fs := [.rp, .pl, .deck]) (by decide) (dataSend_touch (by decide) .refl)) (by decide)
      have source : OrderKept s1 s2 := .of_touch (updAr_touch sub_self .refl) (by decide)
      have ordered : OrderKept s2 s3 := .trans setProg_kept (updPg_kept fun _ => ⟨rfl, rfl, rfl⟩)
      refine .trans ?_ loaderDone_kept
      refine .trans ?_ (.of_touch (arOrder_touch sub_self .refl) (by decide))
      exact ((held.trans sent).trans source).trans ordered

theorem loaderPump_kept {k : Nat} : OrderKept s (loaderPump b k s) := by
  induction k generalizing s with
  | zero => exact .refl
  | succ k ih =>
    unfold loaderPump
    split
    · exact .refl
    · split
      · exact .refl
      · next h' g' j eq =>
        extract_lets s'
        have started : OrderKept s s' := loaderStart_kept
        split
        · exact started
        · exact started.trans ih

theorem loadersPump_kept : OrderKept s (loadersPump s) := .iter fun _ _ => loaderPump_kept

/-- A loader with an order in progress waits (R287). -/
theorem loadersPump_waits (busy : ∀ n, (s.at n).pg.ord ≠ none) : loadersPump s = s := by
  unfold loadersPump
  refine iter_induction (P := fun t => t = s) rfl fun b t same => ?_
  rw [same]
  refine if_pos ?_
  rw [Option.isSome_iff_ne_none.mpr (busy b), Bool.true_or]

/-! ### Placements (R286, R293) -/

/-- What a placement reads. -/
structure SamePlaces (s t : State) : Prop where
  ar : ∀ c, (t.at c).ar = (s.at c).ar
  sy : ∀ c, (t.at c).sy = (s.at c).sy
  ch : ∀ c, (t.at c).ch = (s.at c).ch
  graph : ∀ c, (t.at c).pg.graph = (s.at c).pg.graph
  swapped : ∀ c, (t.at c).pg.swapped = (s.at c).pg.swapped
  dev : t.dev = s.dev

variable {img : GImage} {bad : List (Nat × Nat)}

theorem SamePlaces.graphOf (k : SamePlaces s t) : graphOf t n m = graphOf s n m := by rw [Machine.graphOf, k.graph, Machine.graphOf]

theorem SamePlaces.live (k : SamePlaces s t) : live t n = live s n := by rw [Machine.live, Machine.live, inRing, inRing, k.sy, k.dev]

theorem SamePlaces.recWord (k : SamePlaces s t) {ty inst w : Nat} : (t.at n).recWord ty inst w = (s.at n).recWord ty inst w := by
  unfold Berth.recWord
  rw [k.ch]

theorem SamePlaces.availArrs (k : SamePlaces s t) : availArrs t g bad = availArrs s g bad := by
  funext n cal
  unfold Machine.availArrs inSet dummyMask holdsTile groupMode arrGroup
  simp only [k.ar, k.swapped, k.graphOf]

theorem SamePlaces.placeTray (k : SamePlaces s t) : placeTray t h g img bad = placeTray s h g img bad := by
  unfold Machine.placeTray placeOrder roleMax roleSplit
  simp only [k.availArrs, k.recWord, k.live]

theorem SamePlaces.placeSlot (k : SamePlaces s t) : placeSlot t b g img bad = placeSlot s b g img bad := by
  unfold Machine.placeSlot
  rw [k.availArrs]

theorem SamePlaces.updGraph (k : SamePlaces s t) {f : Graph → Graph} : SamePlaces (updGraph h g f s) (updGraph h g f t) := by
  refine ⟨fun c => ?_, fun c => ?_, fun c => ?_, fun c => ?_, fun c => ?_, k.dev⟩
  · exact (updGraph_touch sub_self .refl |>.at_ar (by decide) c).trans ((k.ar c).trans (updGraph_touch sub_self .refl |>.at_ar (by decide) c).symm)
  · exact (updGraph_touch sub_self .refl |>.at_sy (by decide) c).trans ((k.sy c).trans (updGraph_touch sub_self .refl |>.at_sy (by decide) c).symm)
  · exact (updGraph_touch sub_self .refl |>.at_ch (by decide) c).trans ((k.ch c).trans (updGraph_touch sub_self .refl |>.at_ch (by decide) c).symm)
  · rw [updGraph_pg, updGraph_pg]
    split
    · exact congrArg (fun v => vmod v g f) (k.graph c)
    · exact k.graph c
  · rw [updGraph_pg, updGraph_pg]
    split
    · exact k.swapped c
    · exact k.swapped c

theorem SamePlaces.placeAgain (k : SamePlaces s t) : placeAgain t h g = placeAgain s h g := by
  unfold Machine.placeAgain
  dsimp only
  rw [k.graphOf, k.live, k.updGraph.placeSlot, k.updGraph.placeTray]

theorem pgResult_samePlaces {res : Nat} : SamePlaces s (pgResult h cmd res req s) := by
  have touched : Touch [.pg] s (pgResult h cmd res req s) := pgResult_touch sub_self .refl
  refine ⟨touched.at_ar (by decide), touched.at_sy (by decide), touched.at_ch (by decide), fun c => ?_, fun c => ?_, touched.at_dev (by decide)⟩
  · rw [pgResult_pg]
    split
    · rfl
    · rfl
  · rw [pgResult_pg]
    split
    · rfl
    · rfl

theorem begin_samePlaces : SamePlaces s s.begin := ⟨fun _ => rfl, fun _ => rfl, fun _ => rfl, fun _ => rfl, fun _ => rfl, rfl⟩

/-! ### Acts on one graph (R290, R291, R296) -/

/-- An act on graph g of berth h: besides it, only the berth's counts of missed features and incomplete inferences differ. -/
structure ActsOn (h : BId) (g : Nat) (s t : State) : Prop where
  rest : ∃ gs fm di, (t.at h).pg = { (s.at h).pg with graph := gs, featMiss := fm, dinc := di }
  graphs : ∀ m, m ≠ g → graphOf t h m = graphOf s h m
  others : ∀ c, c ≠ h → (t.at c).pg = (s.at c).pg

theorem ActsOn.refl : ActsOn h g s s := ⟨⟨_, _, _, rfl⟩, fun _ _ => rfl, fun _ _ => rfl⟩

theorem ActsOn.trans (k : ActsOn h g s t) (l : ActsOn h g t u) : ActsOn h g s u := by
  refine ⟨?_, fun m ne => (l.graphs m ne).trans (k.graphs m ne), fun c ne => (l.others c ne).trans (k.others c ne)⟩
  obtain ⟨_, _, _, e⟩ := k.rest
  obtain ⟨gs, fm, di, e'⟩ := l.rest
  exact ⟨gs, fm, di, by rw [e', e]⟩

theorem ActsOn.of_pg (pg : ∀ c, (t.at c).pg = (s.at c).pg) : ActsOn h g s t :=
  ⟨⟨_, _, _, pg h⟩, fun _ _ => graphOf_of_pg (pg h), fun c _ => pg c⟩

theorem updGraph_actsOn {f : Graph → Graph} : ActsOn h g s (updGraph h g f s) :=
  ⟨⟨_, _, _, updGraph_pg_self⟩, fun _ ne => graphOf_updGraph_ne (.inr ne.symm), fun _ ne => updGraph_pg_ne ne⟩

theorem setGst_actsOn {st : GSt} {cause : Nat} : ActsOn h g s (setGst h g st cause s) :=
  .trans (updGraph_actsOn (f := fun gr => { gr with st := st })) (.of_pg fun _ => setGst_pg)

theorem dropInf_actsOn : ActsOn h g s (dropInf h g s) :=
  .trans (updGraph_actsOn (f := fun gr => { gr with inf := none })) (.of_pg fun _ => dropInf_pg)

theorem incomplete_actsOn {late : Bool} : ActsOn h g s (incomplete h g late s) := by
  unfold incomplete
  extract_lets s1 s2
  have dropped : ActsOn h g s s1 := .trans dropInf_actsOn updGraph_actsOn
  have counted : ActsOn h g s s2 := by
    unfold s2
    split
    · refine dropped.trans ⟨⟨_, _, _, updPg_pg_self⟩, fun _ _ => graphOf_updPg fun _ => rfl, fun _ ne => updPg_pg_ne ne⟩
    · exact dropped
  split
  · refine .trans ?_ setGst_actsOn
    exact .trans counted updGraph_actsOn
  · exact counted

theorem gatherDone_actsOn : ActsOn h g s (gatherDone h g s) := by
  unfold gatherDone
  extract_lets gr
  split
  · exact .refl
  · refine .trans ?_ updGraph_actsOn
    exact ⟨⟨_, _, _, updPg_pg_self⟩, fun _ _ => graphOf_updPg fun _ => rfl, fun _ ne => updPg_pg_ne ne⟩

theorem gatherDone_graph (lt : g < 2) : ∃ i, graphOf (gatherDone h g s) h g = { graphOf s h g with inf := i } := by
  cases run : (graphOf s h g).inf with
  | none =>
    have stays : gatherDone h g s = s := by
      unfold gatherDone
      extract_lets gr
      rw [show gr.inf = none from run]
    rw [stays]
    exact ⟨_, rfl⟩
  | some i => exact ⟨_, (gatherDone_gathers lt run).graph⟩

theorem begun_actsOn : ActsOn h g s (begun h g s) := by
  unfold begun
  extract_lets gr s1
  have counted : ActsOn h g s s1 := updGraph_actsOn
  split
  · exact counted.trans incomplete_actsOn
  · split
    · exact counted
    · exact counted.trans gatherDone_actsOn

/-- An inference that begins is counted as a run, complete or not (R289). -/
theorem begun_graph (lt : g < 2) : (graphOf (begun h g s) h g).runs = sinc (graphOf s h g).runs
    ∧ (graphOf (begun h g s) h g).img = (graphOf s h g).img := by
  unfold begun
  extract_lets gr s1
  have counted : graphOf s1 h g = { graphOf s h g with runs := sinc (graphOf s h g).runs } := graphOf_updGraph lt
  split
  · have ended := incomplete_graph (s := s1) (h := h) (late := false) lt
    rw [counted] at ended
    exact ⟨ended.runs, ended.img⟩
  · split
    · rw [counted]
      exact ⟨rfl, rfl⟩
    · obtain ⟨i, eq⟩ := gatherDone_graph (s := s1) (h := h) lt
      rw [eq, counted]
      exact ⟨rfl, rfl⟩

theorem emptyGraph_actsOn {cause : Nat} : ActsOn h g s (emptyGraph h g cause s) := by
  unfold emptyGraph
  extract_lets s1
  exact .trans (dropInf_actsOn.trans setGst_actsOn) updGraph_actsOn

theorem emptyGraph_graph (lt : g < 2) {cause : Nat} : (graphOf (emptyGraph h g cause s) h g).st = .empty
    ∧ (graphOf (emptyGraph h g cause s) h g).place = [] := by
  unfold emptyGraph
  extract_lets s1
  rw [graphOf_updGraph lt]
  exact ⟨by rw [show graphOf s1 h g = _ from graphOf_setGst lt], rfl⟩

/-! ### UNLOAD and REPLACE (R293, R296) -/

/-- A home's turn in an UNLOAD. -/
def unloadTurn (g : Nat) (b : BId) (u : State) : State := emptyGraph b g 4 (writeSafe b g u)

theorem unloadTurn_kept : OrderKept s (unloadTurn g b s) := writeSafe_writes.kept.trans emptyGraph_kept

theorem unloadTurn_others (ne : n ≠ b) : ((unloadTurn g b s).at n).pg = (s.at n).pg :=
  (emptyGraph_actsOn.others n ne).trans ((writeSafe_writes (g := g)).others n ne)

theorem unloadTurns_graph (lt : g < 2) {hs : List BId} (mem : n ∈ hs) (distinct : hs.Nodup) :
    (graphOf (iter hs (unloadTurn g) s) n g).st = .empty ∧ (graphOf (iter hs (unloadTurn g) s) n g).place = [] :=
  iter_turn (P := fun _ => True) (Q := fun t => (graphOf t n g).st = .empty ∧ (graphOf t n g).place = []) mem distinct trivial
    (fun _ _ _ _ => trivial) (fun _ _ => emptyGraph_graph lt) fun y t ne done => by
      rw [graphOf_of_pg (unloadTurn_others ne.symm)]
      exact done

/-- The graph as it is placed anew. -/
def placedAnew (pl : List Place) (kept : Nat → Place → Bool) (gr : Graph) : Graph :=
  { gr with
    place := pl.zipIdx.map fun e => { e.1 with keep := kept e.2 e.1 }, bad := [], progN := 0, verN := 0
    stallMarks := if gr.st == .stalled then gr.stallMarks else 0 }

/-- The state of a graph that is placed anew. -/
def anewSt (st : GSt) : GSt := if st == .loading || st == .failed then .loading else .stalled

/-- The one graph that can be placed anew is not loading. -/
theorem replaceable_live (only : allB.filter (replaceable s g) = [b]) : (graphOf s b g).st ≠ .loading
    ∧ anewSt (graphOf s b g).st = if (graphOf s b g).st = .failed then .loading else .stalled := by
  have mem : b ∈ allB.filter (replaceable s g) := by rw [only]; exact List.mem_singleton_self b
  have can := (List.mem_filter.mp mem).2
  unfold replaceable at can
  unfold anewSt
  cases st : (graphOf s b g).st <;> simp_all

theorem rePlace_fails {cause : Nat} (none' : placeAgain s h g = none) (st : (graphOf s h g).st ≠ .loading) : rePlace h g cause s = replaceFails h g cause s := by
  unfold rePlace
  extract_lets gr
  rw [none']
  exact if_neg (by simpa [gr] using st)

theorem replaceFails_graph (lt : g < 2) {cause : Nat} : (graphOf (replaceFails h g cause s) h g).st = .failed
    ∧ (graphOf (replaceFails h g cause s) h g).place = [] := by
  unfold replaceFails
  extract_lets s1
  obtain ⟨o, c, eq⟩ := (writeSafe_writes (g := g) (h := h) (s := setGst h g .failed cause s1)).graph (g := g)
  rw [eq, graphOf_setGst lt, show graphOf s1 h g = _ from graphOf_updGraph lt]
  exact ⟨rfl, rfl⟩

/-- The graph of berth h placed anew. -/
def replaced (h : BId) (g : Nat) (st : GSt) (cause : Nat) (pl : List Place) (kept : Nat → Place → Bool) (s : State) : State :=
  setGst h g st cause (updGraph h g (placedAnew pl kept) (dropInf h g s))

variable {st : GSt} {cause : Nat} {pl : List Place} {kept : Nat → Place → Bool}

theorem replaced_kept : OrderKept s (replaced h g st cause pl kept s) := by
  unfold replaced
  refine .trans ?_ setGst_kept
  exact .trans dropInf_kept (updGraph_kept fun _ k => k)

theorem replaced_graph (lt : g < 2) :
    graphOf (replaced h g st cause pl kept s) h g = { placedAnew pl kept { graphOf s h g with inf := none } with st := st } := by
  rw [replaced, graphOf_setGst lt, graphOf_updGraph lt, graphOf_dropInf lt]

theorem replaced_ord : ((replaced h g st cause pl kept s).at n).pg.ord = (s.at n).pg.ord := by
  unfold replaced
  rw [setGst_pg, updGraph_pg, updGraph_pg, dropInf_pg, updGraph_pg]
  split <;> rfl

theorem pgResult_ord {res : Nat} : ((pgResult h cmd res req s).at n).pg.ord = (s.at n).pg.ord := by
  rw [pgResult_pg]
  split <;> rfl

theorem placedAnew_map {α : Type} {f : Place → α} {gr : Graph} (same : ∀ p k, f { p with keep := k } = f p) :
    (placedAnew pl kept gr).place.map f = pl.map f := by
  unfold placedAnew
  dsimp only
  rw [List.map_map]
  have each : (f ∘ fun e : Place × Nat => { e.1 with keep := kept e.2 e.1 }) = f ∘ Prod.fst := funext fun e => same _ _
  rw [each, ← List.map_map, List.zipIdx_map_fst]

theorem rePlace_places (again : placeAgain s h g = some pl) : ∃ kept, rePlace h g cause s =
    loadersPump (replaced h g (anewSt (graphOf s h g).st) cause pl kept s) := by
  unfold rePlace
  extract_lets gr
  rw [again]
  exact ⟨_, rfl⟩

theorem replaceable_iff : replaceable s g h = true ↔ (graphOf s h g).st = .stalled ∨ (graphOf s h g).st = .fallback ∨ (graphOf s h g).st = .failed := by
  simp [replaceable, or_assoc]

/-! ### The dummy's promotion (R297) -/

/-- The old policy in the dummy's place. -/
def swappedOut (d : Graph) : Graph := { st := d.st, runs := d.runs, incomplete := d.incomplete, overrun := d.overrun, satCnt := d.satCnt }

/-- The dummy in the policy's place. -/
def swappedIn (p d : Graph) : Graph :=
  { d with st := p.st, cmpDue := false, runs := p.runs, incomplete := p.incomplete, overrun := p.overrun, satCnt := p.satCnt }

/-- A promotion is counted. -/
def promoted (p : Pg) : Pg := { p with swapped := !p.swapped, promotions := sinc8 p.promotions }

/-- The two graphs of berth b exchanged. -/
def exchanged (b : BId) (s : State) : State :=
  updGraph b 1 (fun _ => swappedOut (graphOf (dropInf b 0 s) b 1))
    (updGraph b 0 (fun _ => swappedIn (graphOf (dropInf b 0 s) b 0) (graphOf (dropInf b 0 s) b 1)) (dropInf b 0 s))

/-- Their states once they are exchanged. -/
def exchangedSt (b : BId) (s : State) : State :=
  setGst b 1 .empty 5 (setGst b 0 (if (graphOf (dropInf b 0 s) b 1).st == .empty then .empty else .running) 5 (exchanged b s))

theorem swapBerth_eq : swapBerth b s = if (graphOf (dropInf b 0 s) b 1).inf.isSome then begun b 0 (updPg b promoted (exchangedSt b s))
    else updPg b promoted (exchangedSt b s) := rfl

theorem dropped_dummy : graphOf (dropInf b 0 s) b 1 = graphOf s b 1 := dropInf_actsOn.graphs 1 (by decide)

theorem exchangedSt_dummy : graphOf (exchangedSt b s) b 1 = { swappedOut (graphOf s b 1) with st := .empty } := by
  rw [exchangedSt, graphOf_setGst (by decide), graphOf_setGst_ne (.inr (by decide)), exchanged, graphOf_updGraph (by decide), dropped_dummy]

theorem exchangedSt_policy : graphOf (exchangedSt b s) b 0 = { swappedIn { graphOf s b 0 with inf := none } (graphOf s b 1) with
    st := if (graphOf s b 1).st == .empty then .empty else .running } := by
  rw [exchangedSt, graphOf_setGst_ne (.inr (by decide)), graphOf_setGst (by decide), exchanged, graphOf_updGraph_ne (.inr (by decide)),
    graphOf_updGraph (by decide), dropped_dummy, graphOf_dropInf (by decide)]

/-- Only the graphs of berth b's policy block differ. -/
structure GraphsOnly (b : BId) (s t : State) : Prop where
  own : ∃ gs, (t.at b).pg = { (s.at b).pg with graph := gs }
  others : ∀ c, c ≠ b → (t.at c).pg = (s.at c).pg

theorem GraphsOnly.trans (k : GraphsOnly b s t) (l : GraphsOnly b t u) : GraphsOnly b s u := by
  obtain ⟨⟨_, e⟩, o⟩ := k
  obtain ⟨⟨gs, e'⟩, o'⟩ := l
  exact ⟨⟨gs, by rw [e', e]⟩, fun c ne => (o' c ne).trans (o c ne)⟩

theorem updGraph_graphsOnly {f : Graph → Graph} : GraphsOnly b s (updGraph b g f s) := ⟨⟨_, updGraph_pg_self⟩, fun _ ne => updGraph_pg_ne ne⟩

theorem GraphsOnly.of_pg (k : GraphsOnly b s t) (pg : ∀ c, (u.at c).pg = (t.at c).pg) : GraphsOnly b s u :=
  ⟨by rw [pg]; exact k.own, fun c ne => (pg c).trans (k.others c ne)⟩

theorem setGst_graphsOnly {st : GSt} {cause : Nat} : GraphsOnly b s (setGst b g st cause s) :=
  GraphsOnly.of_pg (updGraph_graphsOnly (f := fun gr => { gr with st := st })) fun _ => setGst_pg

theorem dropInf_graphsOnly : GraphsOnly b s (dropInf b g s) :=
  GraphsOnly.of_pg (updGraph_graphsOnly (f := fun gr => { gr with inf := none })) fun _ => dropInf_pg

theorem exchangedSt_graphsOnly : GraphsOnly b s (exchangedSt b s) := by
  unfold exchangedSt exchanged
  refine .trans ?_ setGst_graphsOnly
  refine .trans ?_ setGst_graphsOnly
  refine .trans ?_ updGraph_graphsOnly
  exact dropInf_graphsOnly.trans updGraph_graphsOnly

/-- A berth once the swap has taken place there. -/
structure Swapped (b : BId) (s t : State) : Prop where
  empty : (graphOf t b 1).st = .empty
  img : (graphOf t b 0).img = (graphOf s b 1).img
  swapped : (t.at b).pg.swapped = !(s.at b).pg.swapped
  promotions : (t.at b).pg.promotions = sinc8 (s.at b).pg.promotions
  still : (graphOf s b 1).inf = none → (graphOf t b 0).runs = (graphOf s b 0).runs
    ∧ (graphOf t b 0).st = if (graphOf s b 1).st = .empty then .empty else .running
  begins : (graphOf s b 1).inf ≠ none → (graphOf t b 0).runs = sinc (graphOf s b 0).runs
  swapDue : (t.at b).pg.swapDue = (s.at b).pg.swapDue

theorem swapBerth_others (ne : n ≠ b) : ((swapBerth b s).at n).pg = (s.at n).pg := by
  have counted : ((updPg b promoted (exchangedSt b s)).at n).pg = (s.at n).pg := (updPg_pg_ne ne).trans (exchangedSt_graphsOnly.others n ne)
  rw [swapBerth_eq]
  split
  · exact (begun_actsOn.others n ne).trans counted
  · exact counted

theorem swapBerth_swapped : Swapped b s (swapBerth b s) := by
  have graphs : ∀ m, graphOf (updPg b promoted (exchangedSt b s)) b m = graphOf (exchangedSt b s) b m :=
    fun m => graphOf_updPg (f := promoted) fun _ => rfl
  have policy := (graphs 0).trans exchangedSt_policy
  have dummy := (graphs 1).trans exchangedSt_dummy
  have pg : ((updPg b promoted (exchangedSt b s)).at b).pg = promoted ((exchangedSt b s).at b).pg := updPg_pg_self
  obtain ⟨gs, own⟩ := (exchangedSt_graphsOnly (b := b) (s := s)).own
  rw [own] at pg
  rw [swapBerth_eq, dropped_dummy]
  cases run : (graphOf s b 1).inf with
  | none =>
    rw [if_neg (by simp)]
    refine ⟨?_, ?_, ?_, ?_, fun _ => ⟨?_, ?_⟩, fun some' => absurd run some', ?_⟩
    · rw [dummy]
    · rw [policy]; rfl
    · rw [pg]; rfl
    · rw [pg]; rfl
    · rw [policy]; rfl
    · rw [policy]; simp
    · rw [pg]; rfl
  | some i =>
    rw [if_pos (by simp)]
    have acts := begun_actsOn (h := b) (g := 0) (s := updPg b promoted (exchangedSt b s))
    obtain ⟨runs, img⟩ := begun_graph (h := b) (g := 0) (s := updPg b promoted (exchangedSt b s)) (by decide)
    obtain ⟨gs', fm, di, rest⟩ := acts.rest
    refine ⟨?_, ?_, ?_, ?_, fun none' => absurd (run.symm.trans none') (by simp), fun _ => ?_, ?_⟩
    · rw [acts.graphs 1 (by decide), dummy]
    · rw [img, policy]; rfl
    · rw [rest, pg]; rfl
    · rw [rest, pg]; rfl
    · rw [runs, policy]; rfl
    · rw [rest, pg]; rfl

/-- The swap on every berth. -/
theorem swapAll : Swapped n s (iter allB swapBerth s) := by
  refine iter_turn (P := fun t => (t.at n).pg = (s.at n).pg) (Q := Swapped n s) mem_allB allB_nodup rfl
    (fun y t ne same => (swapBerth_others ne.symm).trans same) (fun t same => ?_) (fun y t ne done => ?_)
  · obtain ⟨empty, img, swapped, promotions, still, begins, swapDue⟩ := swapBerth_swapped (b := n) (s := t)
    rw [same] at swapped promotions swapDue
    rw [graphOf_of_pg (s := s) same] at img still begins
    rw [graphOf_of_pg (s := s) same] at still begins
    exact ⟨empty, img, swapped, promotions, still, begins, swapDue⟩
  · obtain ⟨empty, img, swapped, promotions, still, begins, swapDue⟩ := done
    have pg := swapBerth_others (s := t) ne.symm
    exact ⟨by rw [graphOf_of_pg pg]; exact empty, by rw [graphOf_of_pg pg]; exact img, by rw [pg]; exact swapped, by rw [pg]; exact promotions,
      by rw [graphOf_of_pg pg]; exact still, by rw [graphOf_of_pg pg]; exact begins, by rw [pg]; exact swapDue⟩

theorem promoteSwap_eq (harbour : (s.at h).sy.isHarbour = true) (due : (s.at h).pg.swapDue = true) (first : (homes s 1).head? = some b)
    (start : (s.at h).td.mark % 2 ^ (imgOf (graphOf s b 1)).cadence = (imgOf (graphOf s b 1)).phase) : ∃ w0 w1 w2,
    promoteSwap h s = logRec h 0x3A w0 w1 w2 (iter allB swapBerth (updPg h (fun p => { p with swapDue := false }) s)) := by
  unfold promoteSwap
  rw [first]
  dsimp only [Option.map_some]
  rw [if_neg (by simp [State.isHbr, harbour, due]), if_neg (by simp [start])]
  exact ⟨_, _, _, rfl⟩

/-! ### Loaded graphs and the dummy's comparison (R288, R295) -/

theorem imageOn_images : ((imageOn b m s).at n).sy.images = if b = n then (s.at n).sy.images ||| 2 ^ m else (s.at n).sy.images := by
  unfold imageOn
  extract_lets s1
  have first : ((s1.at n).sy.images) = if b = n then (s.at n).sy.images ||| 2 ^ m else (s.at n).sy.images := by
    unfold s1
    rw [State.upd_at]
    split
    · rfl
    · rfl
  split
  · rw [State.upd_at, ← first]
    split
    · rfl
    · rfl
  · exact first

theorem imageOn_marks (lt : (b = n ∨ nbit (s.at n).sy.images m = true)) : nbit ((imageOn b m s).at n).sy.images m = true := by
  rw [imageOn_images]
  split
  · rw [nbit, Nat.testBit_or, Nat.testBit_two_pow_self, Bool.or_true]
  · next ne => exact lt.resolve_left ne

/-- What the end of a load leaves (R288). -/
theorem loadComplete_eq (loading : (graphOf s h g).st = .loading) (passed : ∀ p ∈ (graphOf s h g).place, p.prog = 2) : ∃ cause,
    loadComplete h g s =
      (fun s' => if (homes s' g).all fun b => (graphOf s' b g).st != .loading then setImgSt (g + 1) .loaded s' else s')
        ((fun s' => if (imgOf (graphOf s h g)).slotScope then imageOn h (g + 1) s' else iter allB (fun b t => imageOn b (g + 1) t) s')
          (logLoad h g 0 0 (graphOf s h g) (imgOf (graphOf s h g)) (setGst h g .running cause (s.draw).2))) := by
  unfold loadComplete
  extract_lets gr
  rw [if_neg (by simpa [gr, loading] using passed)]
  exact ⟨_, rfl⟩

/-- A comparison is counted in the policy block (R295). -/
def compared (ds : List (Nat × Nat)) (p : Pg) : Pg :=
  { p with
    dcmp := sinc p.dcmp
    dagree := sadd p.dagree (b2n (ds.all fun d => d.2 ≤ tolOf p d.1))
    ddis := Vector.ofFn fun i => sadd (vget p.ddis i.val) (b2n (ds.any fun d => d.1 == i.val + 1 && d.2 > tolOf p (i.val + 1)))
    dmaxdev := Vector.ofFn fun i => ds.foldl (fun t d => if d.1 == i.val + 1 then max t d.2 else t) (vget p.dmaxdev i.val) }

theorem dummyCompare_eq (due : (graphOf s h 1).cmpDue = true) :
    dummyCompare h s = updPg h (compared (deviations s h)) (updGraph h 1 (fun gr => { gr with cmpDue := false }) s) := if_neg (by simp [due])

theorem compared_ddis {ds : List (Nat × Nat)} {p : Pg} (k : Fin 6) : vget (compared ds p).ddis k.val =
    sadd (vget p.ddis k.val) (b2n (ds.any fun d => d.1 == k.val + 1 && d.2 > tolOf p (k.val + 1))) := by
  simp [compared, vget]

/-- A load that is complete runs, and its image is marked as loaded. -/
theorem loadComplete_runs (lt : g < 2) (loading : (graphOf s h g).st = .loading) (passed : ∀ p ∈ (graphOf s h g).place, p.prog = 2) :
    (graphOf (loadComplete h g s) h g).st = .running ∧ nbit ((loadComplete h g s).at h).sy.images (g + 1) = true := by
  obtain ⟨cause, eq⟩ := loadComplete_eq loading passed
  rw [eq]
  generalize noted : logLoad h g 0 0 (graphOf s h g) (imgOf (graphOf s h g)) (setGst h g .running cause (s.draw).2) = u
  have runs : (graphOf u h g).st = .running := by
    rw [← noted, graphOf_of_touch (logLoad_touch sub_self .refl) (by decide), graphOf_setGst lt]
  dsimp only
  generalize marked : (if (imgOf (graphOf s h g)).slotScope then imageOn h (g + 1) u else iter allB (fun b t => imageOn b (g + 1) t) u) = v
  have vSt : (graphOf v h g).st = .running ∧ nbit (v.at h).sy.images (g + 1) = true := by
    rw [← marked]
    split
    · exact ⟨by rw [graphOf_of_touch (imageOn_touch sub_self .refl) (by decide)]; exact runs, imageOn_marks (.inl rfl)⟩
    · refine ⟨?_, ?_⟩
      · refine iter_induction (P := fun t => (graphOf t h g).st = .running) runs fun b t kept => ?_
        rw [graphOf_of_touch (imageOn_touch sub_self .refl) (by decide)]
        exact kept
      · exact iter_turn (P := fun _ => True) (Q := fun t => nbit (t.at h).sy.images (g + 1) = true) mem_allB allB_nodup trivial
          (fun _ _ _ _ => trivial) (fun _ _ => imageOn_marks (.inl rfl)) fun _ _ _ kept => imageOn_marks (.inr kept)
  split
  · refine ⟨by rw [graphOf_of_touch (setImgSt_touch sub_self .refl) (by decide)]; exact vSt.1, ?_⟩
    rw [(setImgSt_touch sub_self .refl).at_sy (by decide)]
    exact vSt.2
  · exact vSt

theorem clearStats_at : ((clearStats s).at n).pg.dcmp = 0 ∧ ((clearStats s).at n).pg.dagree = 0 ∧ ((clearStats s).at n).pg.dinc = 0 := by
  unfold clearStats
  refine iter_turn (P := fun _ => True) (x := n)
    (Q := fun t => (t.at n).pg.dcmp = 0 ∧ (t.at n).pg.dagree = 0 ∧ (t.at n).pg.dinc = 0) mem_allB allB_nodup trivial
    (fun _ _ _ _ => trivial) (fun t _ => ?_) fun y t ne done => ?_
  · rw [updPg_pg_self]
    exact ⟨rfl, rfl, rfl⟩
  · rw [updPg_pg_ne ne.symm]
    exact done

theorem clearStats_kept : OrderKept s (clearStats s) := .iter fun _ _ => updPg_kept fun _ => ⟨rfl, rfl, rfl⟩

end

/-- The orders that `pgOrder` judges, with their codes. -/
inductive PgCode (h : BId) (req : ReqId) (g : Fin 2) (guard : BitVec 16) : Nat → Bool → Instr → Prop
  | unload : PgCode h req g guard 1 true (.unload h req g guard)
  | promote : PgCode h req g guard 2 false (.promote h req guard)
  | statsClear : PgCode h req g guard 3 true (.statsClear h req)
  | replace : PgCode h req g guard 4 true (.replace h req g)

theorem pgCode_denied {s : State} {h : BId} {req : ReqId} {g : Fin 2} {guard : BitVec 16} {cmd : Nat} {toPilot : Bool} {i : Instr}
    (code : PgCode h req g guard cmd toPilot i) (harbour : (s.at h).sy.isHarbour = true) (free : (s.at h).pg.swapDue = false)
    (no : req ≠ 9 ∧ req ≠ 10 ∧ (toPilot = true → req.val ≠ h.val)) : ∃ act, act s.begin = pgResult h cmd 4 req s.begin ∧
      exec i s = ran s (viaBus req (some h) 0xA000 act s.begin) := by
  cases code with
  | unload => exact ⟨unload h req g.val guard.toNat, pgOrder_denied (s := s.begin) harbour free no, rfl⟩
  | promote => exact ⟨promote h req guard.toNat, pgOrder_denied (s := s.begin) harbour free no, rfl⟩
  | statsClear => exact ⟨pgOrder h req 3 true 0 clearStats, pgOrder_denied (s := s.begin) harbour free no, rfl⟩
  | replace => exact ⟨replaceOrder h req g.val, pgOrder_denied (s := s.begin) harbour free no, rfl⟩

theorem homes_begin {s : State} {g : Nat} : homes s.begin g = homes s g := homes_congr fun _ => rfl

theorem homes_ordered {s : State} {h : BId} {cmd res g : Nat} {req : ReqId} : homes (pgResult h cmd res req s.begin) g = homes s g :=
  (homes_congr fun _ => graphOf_pgResult).trans homes_begin

section
variable {s : State} {h b : BId} {req : ReqId} {g guard : Nat} (harbour : (s.at h).sy.isHarbour = true) (free : (s.at h).pg.swapDue = false)
  (own : req = 9 ∨ req = 10)
include harbour free own

theorem unload_refused (wrong : guard ≠ 0x9A6D) : unload h req g guard s.begin = pgResult h 1 2 req s.begin := by
  rw [unload, if_pos (by simpa using wrong), pgOrder_refused (s := s.begin) harbour free own (by decide)]

theorem promote_refused (wrong : guard ≠ 0x9A6D) : promote h req guard s.begin = pgResult h 2 2 req s.begin := by
  unfold promote
  extract_lets hs
  rw [if_pos (by simpa using wrong), pgOrder_refused (s := s.begin) harbour free own (by decide)]

theorem unload_taken (good : guard = 0x9A6D) (live : homes s g ≠ []) :
    unload h req g guard s.begin = iter (homes s g) (unloadTurn g) (pgResult h 1 0 req s.begin) := by
  rw [unload, pgOrder_taken (s := s.begin) harbour free own]
  · rw [homes_ordered]
    rfl
  · rw [if_neg (by simp [good]), homes_begin, if_neg (by simpa [List.isEmpty_iff] using live)]

theorem promote_taken (good : guard = 0x9A6D) (live : homes s 1 ≠ []) (ready : ∀ b ∈ homes s 1, (graphOf s b 1).st = .running ∧ statsPass s h b = true)
    (meets : bindPass s h = true) :
    promote h req guard s.begin = updPg h (fun p => { p with swapDue := true }) (pgResult h 2 0 req s.begin) := by
  unfold promote
  extract_lets hs
  have same : hs = homes s 1 := homes_begin
  have run : hs.any (fun b => (graphOf s.begin b 1).st != .running) = false := by
    rw [same, List.any_eq_false]
    intro b mem
    simp [show (graphOf s.begin b 1).st = .running from (ready b mem).1]
  have stats : hs.any (fun b => !statsPass s.begin h b) = false := by
    rw [same, List.any_eq_false]
    intro b mem
    simp [show statsPass s.begin h b = true from (ready b mem).2]
  have bind : bindPass s.begin h = true := by
    unfold bindPass
    rw [homes_begin]
    exact meets
  rw [pgOrder_taken (s := s.begin) harbour free own]
  rw [if_neg (by simp [good]), if_neg (by rw [run, same]; simpa [List.isEmpty_iff] using live), if_neg (by rw [stats]; decide),
    if_neg (by rw [bind]; decide)]

theorem replaceOrder_none (none' : ∀ b, replaceable s g b = false) : replaceOrder h req g s.begin = pgResult h 4 1 req s.begin := by
  have code : (if allB.any (replaceable s.begin g) then 0 else 1) = 1 := if_neg (by
    rw [List.any_eq_true]
    rintro ⟨b, _, can⟩
    exact absurd (can.symm.trans (none' b)) (by decide))
  rw [replaceOrder, code, pgOrder_refused (s := s.begin) harbour free own (by decide)]

/-- A re-placement of the one graph that can be placed anew. -/
theorem replaceOrder_one (only : allB.filter (replaceable s g) = [b]) :
    replaceOrder h req g s.begin = rePlace b g 3 (pgResult h 4 0 req s.begin) := by
  have mem : b ∈ allB.filter (replaceable s g) := by rw [only]; exact List.mem_singleton_self b
  have code : (if allB.any (replaceable s.begin g) then 0 else 1) = 0 :=
    if_pos (List.any_eq_true.mpr ⟨b, mem_allB, (List.mem_filter.mp mem).2⟩)
  have same : replaceable (pgResult h 4 0 req s.begin) g = replaceable s g := by
    funext n
    rw [replaceable, graphOf_pgResult]
    rfl
  rw [replaceOrder, code, pgOrder_taken (s := s.begin) harbour free own rfl, same, only]
  rfl

end

/-- A refused order leaves its result, and nothing else in the policy block. -/
theorem pgResult_answers {s t : State} {h : BId} {cmd res : Nat} {req : ReqId} (bus : Touch [.sy] (pgResult h cmd res req s.begin) t) :
    AgreeOff [.out, .sy, .pg] s t ∧ (t.at h).pg = { (s.at h).pg with lastCmd := cmd, result := res, cmdReq := req.val } := by
  have framed : Touch [.out, .sy, .pg] s.begin t := .trans (pgResult_touch (by decide) .refl) (bus.mono (by decide))
  exact ⟨framed.agreeOff_begin, (bus.at_pg (by decide) h).trans pgResult_pg_self⟩

/-- Settles O33: an order to PG_CMD is refused with its result, or acts on the graphs one by one. -/
theorem policyOrdersAndDummy : Obligations.PolicyOrdersAndDummy := by
  unfold Obligations.PolicyOrdersAndDummy
  refine ⟨fun s h req g guard ⟨pass, harbour, free⟩ => ⟨fun cmd i how => ?_, fun own => ?_⟩, fun s h => ⟨fun g ⟨loading, passed⟩ => ?_, fun due => ?_, ?_⟩⟩
  · obtain ⟨toPilot, code, no⟩ : ∃ toPilot, PgCode h req g guard cmd toPilot i ∧ (req ≠ 9 ∧ req ≠ 10 ∧ (toPilot = true → req.val ≠ h.val)) := by
      rcases how with ⟨mem, host, usb, pilot⟩ | ⟨is, host, usb⟩
      · fin_cases mem
        exacts [⟨_, .unload, host, usb, fun _ => pilot⟩, ⟨_, .statsClear, host, usb, fun _ => pilot⟩, ⟨_, .replace, host, usb, fun _ => pilot⟩]
      · cases is
        exact ⟨_, .promote, host, usb, fun no => absurd no (by decide)⟩
    obtain ⟨act, denied, run⟩ := pgCode_denied code harbour free no
    refine answers_viaBus pass run fun t bus => ?_
    rw [denied] at bus
    exact pgResult_answers bus
  · have lt : g.val < 2 := g.isLt
    refine ⟨fun cmd i ⟨mem, bad⟩ => ?_, fun ⟨good, live⟩ => ?_, fun ⟨good, live, ready, meets⟩ => ?_, ?_, fun none' => ?_, fun b ⟨only, none'⟩ => ?_,
      fun b pl ⟨only, again⟩ => ?_⟩
    · have wrong : guard.toNat ≠ 0x9A6D := fun eq => bad (BitVec.eq_of_toNat_eq eq)
      fin_cases mem
      · refine answers_viaBus (act := unload h req g.val guard.toNat) pass rfl fun t bus => ?_
        rw [unload_refused harbour free own wrong] at bus
        exact pgResult_answers bus
      · refine answers_viaBus (act := promote h req guard.toNat) pass rfl fun t bus => ?_
        rw [promote_refused harbour free own wrong] at bus
        exact pgResult_answers bus
    · refine answers_viaBus (act := unload h req g.val guard.toNat) pass rfl fun t bus => ?_
      rw [unload_taken harbour free own (by rw [good]; rfl) live] at bus
      have kept : OrderKept (pgResult h 1 0 req s.begin) (iter (homes s g.val) (unloadTurn g.val) (pgResult h 1 0 req s.begin)) :=
        .iter fun _ _ => unloadTurn_kept
      refine ⟨?_, fun b => ?_⟩
      · rw [bus.at_pg (by decide) h]
        refine (kept.result h).trans ?_
        rw [pgResult_pg_self]
        rfl
      · by_cases home : b ∈ homes s g.val
        · refine .inl ?_
          rw [graphOf_of_touch bus (by decide)]
          exact unloadTurns_graph lt home (allB_nodup.filter _)
        · exact .inr home
    · refine answers_viaBus (act := promote h req guard.toNat) pass rfl fun t bus => ?_
      rw [promote_taken harbour free own (by rw [good]; rfl) live ready meets] at bus
      have framed : Touch [.out, .sy, .pg] s.begin t :=
        .trans (updPg_touch (by decide) (pgResult_touch (by decide) .refl)) (bus.mono (by decide))
      refine ⟨framed.agreeOff_begin, ?_⟩
      rw [bus.at_pg (by decide) h, updPg_pg_self, pgResult_pg_self]
      rfl
    · refine answers_viaBus (act := pgOrder h req 3 true 0 clearStats) pass rfl fun t bus => ?_
      rw [pgOrder_taken (s := s.begin) harbour free own rfl] at bus
      have framed : Touch [.out, .sy, .pg] s.begin t :=
        .trans (clearStats_touch (by decide) (pgResult_touch (by decide) .refl)) (bus.mono (by decide))
      refine ⟨framed.agreeOff_begin, ?_, fun b => ?_⟩
      · rw [bus.at_pg (by decide) h]
        refine (clearStats_kept.result h).trans ?_
        rw [pgResult_pg_self]
        rfl
      · rw [bus.at_pg (by decide) b]
        exact clearStats_at
    · refine answers_viaBus (act := replaceOrder h req g.val) pass rfl fun t bus => ?_
      rw [replaceOrder_none harbour free own none'] at bus
      exact pgResult_answers bus
    · refine answers_viaBus (act := replaceOrder h req g.val) pass rfl fun t bus => ?_
      have again : placeAgain (pgResult h 4 0 req s.begin) b g.val = none := pgResult_samePlaces.placeAgain.trans (begin_samePlaces.placeAgain.trans none')
      rw [replaceOrder_one harbour free own only, rePlace_fails again (by rw [graphOf_pgResult]; exact (replaceable_live only).1)] at bus
      have kept := replaceFails_kept (h := b) (g := g.val) (cause := 3) (s := pgResult h 4 0 req s.begin)
      refine ⟨?_, ?_⟩
      · rw [bus.at_pg (by decide) h]
        refine (kept.result h).trans ?_
        rw [pgResult_pg_self]
        rfl
      · rw [graphOf_of_touch bus (by decide)]
        exact replaceFails_graph lt
    · refine answers_viaBus (act := replaceOrder h req g.val) pass rfl fun t bus => ?_
      have again' : placeAgain (pgResult h 4 0 req s.begin) b g.val = some pl :=
        pgResult_samePlaces.placeAgain.trans (begin_samePlaces.placeAgain.trans again)
      obtain ⟨kept, places⟩ := rePlace_places (cause := 3) again'
      rw [replaceOrder_one harbour free own only, places] at bus
      have pumped := replaced_kept (h := b) (g := g.val) (cause := 3) (st := anewSt (graphOf (pgResult h 4 0 req s.begin) b g.val).st) (pl := pl)
        (kept := kept) (s := pgResult h 4 0 req s.begin)
      have order : ((pgResult h 4 0 req s.begin).at h).pg = pgOrdered 4 0 req (s.begin.at h).pg := pgResult_pg_self
      have pg := bus.at_pg (by decide)
      refine ⟨?_, ?_, ?_, fun waits => ?_⟩
      · rw [pg h]
        exact ((pumped.trans loadersPump_kept).result h).trans (congrArg Pg.result order)
      · rw [pg h]
        exact ((pumped.trans loadersPump_kept).lastCmd h).trans (congrArg Pg.lastCmd order)
      · rw [graphOf_of_touch bus (by decide)]
        exact loadersPump_kept.inf b g.val (by rw [replaced_graph lt]; rfl)
      · rw [loadersPump_waits fun n => by rw [replaced_ord, pgResult_ord]; exact waits n] at bus
        rw [graphOf_of_touch bus (by decide), replaced_graph lt, graphOf_pgResult]
        refine ⟨(replaceable_live only).2, ?_, ?_⟩
        · exact placedAnew_map (gr := { graphOf s b g.val with inf := none }) fun _ _ => rfl
        · exact placedAnew_map (gr := { graphOf s b g.val with inf := none }) fun _ _ => rfl
  · refine answers_of_run (u := loadComplete h g.val s.begin) rfl fun t queue e => ?_
    rw [e.graph, e.at_eq h]
    exact loadComplete_runs (s := s.begin) g.isLt loading passed
  · refine answers_of_run (u := dummyCompare h s.begin) rfl fun t queue e => ?_
    rw [dummyCompare_eq (s := s.begin) due] at e
    refine ⟨e.keeps queue (.ofBegin (.trans updPg_within updPg_within)),
      e.agreeOff_begin (by decide) (updPg_touch (by decide) (updGraph_touch (by decide) .refl)), ?_, ?_⟩
    · rw [e.graph, graphOf_updPg (f := compared (deviations s.begin h)) fun _ => rfl, graphOf_updGraph (by decide)]
    · rw [e.at_eq h, updPg_pg_self, updGraph_pg_self]
      exact ⟨rfl, rfl, compared_ddis⟩
  · rintro b ⟨harbour, due, first, start⟩
    refine answers_of_run (u := promoteSwap h s.begin) rfl fun t queue e => ?_
    obtain ⟨w0, w1, w2, eq⟩ := promoteSwap_eq (s := s.begin) harbour due first start
    rw [eq] at e
    have logged : ∀ n, (t.at n).pg = ((iter allB swapBerth (updPg h (fun p => { p with swapDue := false }) s.begin)).at n).pg := fun n => by
      rw [e.at_eq n]
      exact (logRec_touch sub_self .refl).at_pg (by decide) n
    have swapped := fun n => swapAll (n := n) (s := updPg h (fun p => { p with swapDue := false }) s.begin)
    have graphs : ∀ n m, graphOf (updPg h (fun p => { p with swapDue := false }) s.begin) n m = graphOf s n m :=
      fun n m => graphOf_updPg fun _ => rfl
    refine ⟨?_, fun n => ?_⟩
    · rw [logged, (swapped h).swapDue, updPg_pg_self]
    · obtain ⟨empty, img, turned, count, still, begins, -⟩ := swapped n
      rw [graphs] at img still begins
      rw [graphs] at still begins
      rw [graphOf_of_pg (logged n), graphOf_of_pg (logged n), logged n]
      refine ⟨empty, img, turned.trans ?_, count.trans ?_, still, begins⟩
      · rw [updPg_pg]
        split <;> rfl
      · rw [updPg_pg]
        split <;> rfl

end Sys2Proof.Machine

/-! The hawser link (chapter 10): what issuing orders, completing them and stopping the link do to it. -/
namespace Sys2Proof.Machine
set_option Elab.async false

section
variable {r s t u : State} {b c : BId} {h k l : Hw} {fs : List Piece}

theorem updHw_hw {f : Hw → Hw} : ((s.updHw b f).at b).hw = f (s.at b).hw := by rw [State.updHw, State.upd_at, if_pos rfl]

theorem EndsAs.hw (e : EndsAs u t) : (t.at b).hw = (u.at b).hw := by rw [e.at_eq]

/-! ### Issuing orders (R323, R326) -/

/-- What issuing orders may change of a link: free tags are taken, messages join their queues, orders wait or wait no longer. Where the link
takes no orders, no tag and no queue changes. -/
structure Issued (h k : Hw) : Prop where
  rest : ∃ tags tx waiting retry, k = { h with tags := tags, tx := tx, waiting := waiting, freqRetry := retry }
  queues : ∃ f c w, k.tx = { h.tx with freqQ := f, ctrlQ := c, rwQ := w }
  busy : ∀ i, tagBusy (vget h.tags i) = true → vget k.tags i = vget h.tags i
  closed : linkOpen h = false → k.tags = h.tags ∧ k.tx = h.tx

theorem Issued.refl : Issued h h := ⟨⟨_, _, _, _, rfl⟩, ⟨_, _, _, rfl⟩, fun _ _ => rfl, fun _ => ⟨rfl, rfl⟩⟩

theorem Issued.link (a : Issued h k) : k.link = h.link := by
  obtain ⟨⟨_, _, _, _, eq⟩, -, -, -⟩ := a
  rw [eq]

theorem Issued.open_eq (a : Issued h k) : linkOpen k = linkOpen h := by rw [linkOpen, a.link, linkOpen]

theorem Issued.trans (a : Issued h k) (e : Issued k l) : Issued h l := by
  refine ⟨?_, ?_, fun i busy => ?_, fun shut => ?_⟩
  · obtain ⟨_, _, _, _, eq⟩ := a.rest
    obtain ⟨tags, tx, waiting, retry, eq'⟩ := e.rest
    exact ⟨tags, tx, waiting, retry, by rw [eq', eq]⟩
  · obtain ⟨_, _, _, eq⟩ := a.queues
    obtain ⟨f, c, w, eq'⟩ := e.queues
    exact ⟨f, c, w, by rw [eq', eq]⟩
  · have kept := a.busy i busy
    exact (e.busy i (by rw [kept]; exact busy)).trans kept
  · obtain ⟨tags, tx⟩ := a.closed shut
    obtain ⟨tags', tx'⟩ := e.closed (a.open_eq.trans shut)
    exact ⟨tags'.trans tags, tx'.trans tx⟩

theorem Issued.of_queues {waiting : List Order} {retry : List (Nat × Nat)} : Issued h { h with waiting := waiting, freqRetry := retry } :=
  ⟨⟨_, _, _, _, rfl⟩, ⟨_, _, _, rfl⟩, fun _ _ => rfl, fun _ => ⟨rfl, rfl⟩⟩

theorem tagFor_free {w : OrdOwner} {i : Nat} (taken : tagFor h w = some i) : i < 64 ∧ tagBusy (vget h.tags i) = false ∧ linkOpen h = true := by
  unfold tagFor at taken
  obtain ⟨can, found⟩ := Option.ite_none_right_eq_some.mp taken
  refine ⟨List.mem_range.mp (List.mem_of_find?_eq_some found), ?_, (Bool.and_eq_true_iff.mp can).1⟩
  simpa using List.find?_some found

/-- An order that takes a tag joins the queue of its class. -/
theorem enqueue_eq {o : Order} {i : Nat} : ∃ f c w, enqueue i o h =
    { h with tags := vset h.tags i (.used o), tx := { h.tx with freqQ := f, ctrlQ := c, rwQ := w } } := by
  unfold enqueue
  extract_lets m h'
  split
  · exact ⟨_, _, _, rfl⟩
  · exact ⟨_, _, _, rfl⟩
  · exact ⟨_, _, _, rfl⟩

theorem enqueue_issued {o : Order} {w : OrdOwner} {i : Nat} (taken : tagFor h w = some i) : Issued h (enqueue i o h) := by
  obtain ⟨-, free, isOpen⟩ := tagFor_free taken
  obtain ⟨f, c, q, eq⟩ := enqueue_eq (o := o) (i := i) (h := h)
  rw [eq]
  refine ⟨⟨_, _, _, _, rfl⟩, ⟨f, c, q, rfl⟩, fun j busy => vget_vset_ne ?_, fun shut => absurd (isOpen.symm.trans shut) (by decide)⟩
  rintro rfl
  rw [free] at busy
  exact absurd busy (by decide)

/-- Berth b's link has issued orders at most. -/
def Issues (b : BId) (s t : State) : Prop := Issued (s.at b).hw (t.at b).hw

theorem Issues.refl : Issues b s s := Issued.refl

theorem Issues.trans (a : Issues b r s) (e : Issues b s t) : Issues b r t := Issued.trans a e

theorem Issues.touch (a : Issues b r s) (e : Touch fs s t) (hw : Piece.hw ∉ fs := by decide) : Issues b r t := by
  unfold Issues
  rw [e.at_hw hw]
  exact a

theorem Issues.iter {α : Type} {xs : List α} {f : α → State → State} (a : Issues b r s) (step : ∀ x t, Issues b r t → Issues b r (f x t)) :
    Issues b r (iter xs f s) := iter_induction a fun x t => step x t

theorem Issues.ite {p : Prop} [Decidable p] (a : Issues b r s) (e : Issues b r t) : Issues b r (if p then s else t) := by
  split
  · exact a
  · exact e

theorem updHw_issues {f : Hw → Hw} (a : Issues b r s) (keeps : ∀ h, ∃ waiting retry, f h = { h with waiting := waiting, freqRetry := retry }) :
    Issues b r (s.updHw b f) := by
  refine a.trans ?_
  unfold Issues
  rw [updHw_hw]
  obtain ⟨waiting, retry, eq⟩ := keeps (s.at b).hw
  rw [eq]
  exact .of_queues

/-- An order takes the lowest free tag, or none and nothing changes. -/
theorem issue_eq {o : Order} : issue b o s = match tagFor (s.at b).hw o.owner with
    | some i => (some i, s.updHw b (enqueue i o))
    | none => (none, s) := rfl

theorem issue_issues {o : Order} {tag : Option Nat} (a : Issues b r s) (eq : issue b o s = (tag, t)) : Issues b r t := by
  rw [issue_eq] at eq
  split at eq
  case h_1 i taken =>
    cases eq
    refine a.trans ?_
    unfold Issues
    rw [updHw_hw]
    exact enqueue_issued taken
  case h_2 => cases eq; exact a

theorem issueHw_issues {o : Order} (a : Issues b r s) : Issues b r (issueHw b o s) := by
  unfold issueHw
  split
  case h_1 i t eq => exact issue_issues a eq
  case h_2 t eq => exact updHw_issues (issue_issues a eq) fun _ => ⟨_, _, rfl⟩

theorem issueWaiting_issues (a : Issues b r s) : Issues b r (issueWaiting b s) := by
  unfold issueWaiting
  exact (updHw_issues a fun _ => ⟨_, _, rfl⟩).iter fun _ _ => issueHw_issues

theorem sendFreq_issues {p st : Nat} (a : Issues b r s) : Issues b r (sendFreq b p st s) := by
  unfold sendFreq
  exact issueHw_issues (updHw_issues a fun _ => ⟨_, _, rfl⟩)

theorem updPart_issues {p : Nat} {f : Part → Part} (a : Issues b r s) : Issues b r (s.updPart b p f) := a.touch (State.updPart_touch sub_self .refl)

theorem orderStep_issues {p st : Nat} (a : Issues b r s) : Issues b r (orderStep b p st s) := by
  unfold orderStep
  exact sendFreq_issues (updPart_issues a)

theorem withdrawReady_issues {mask : Nat} (a : Issues b r s) : Issues b r (withdrawReady b mask s) := by
  unfold withdrawReady
  refine a.iter fun p t kept => ?_
  split
  · extract_lets u
    have lowered : Issues b r u := .ite (orderStep_issues kept) kept
    exact updPart_issues lowered
  · exact kept

/-! ### The DMA engines (R390 to R395) -/

theorem logRec_issues {ty : Nat} {p0 p1 p2 : Word} (a : Issues b r s) : Issues b r (logRec c ty p0 p1 p2 s) := a.touch (logRec_touch sub_self .refl)

theorem irq_issues {bit : Nat} (a : Issues b r s) : Issues b r (irq c bit s) := a.touch (irq_touch sub_self .refl)

theorem updDm_issues {e : Nat} {f : Dma → Dma} (a : Issues b r s) : Issues b r (s.updDm c e f) := a.touch (State.updDm_touch sub_self .refl)

theorem deckRelease_issues {g : Nat} (a : Issues b r s) : Issues b r (deckRelease g s) := a.touch (deckRelease_touch sub_self .refl)

theorem bufWrite_issues {g : Nat} {bs : List Byte} (a : Issues b r s) : Issues b r (bufWrite g bs s) := a.touch (bufWrite_touch sub_self .refl)

theorem dmaHalt_issues {e code acc status : Nat} (a : Issues b r s) : Issues b r (dmaHalt b e code acc status s) := a.touch (dmaHalt_touch sub_self .refl)

theorem dmaFault_issues {e code acc status : Nat} (a : Issues b r s) : Issues b r (dmaFault b e code acc status s) := a.touch (dmaFault_touch sub_self .refl)

theorem deckAlloc_issues {cls : Nat} {buf : Option Nat} {p : Bool} (a : Issues b r s) (eq : deckAlloc b cls p s = (buf, t)) : Issues b r t :=
  a.touch (deckAlloc_touch_eq sub_self eq .refl)

theorem dmaIssue_issues {e : Nat} (a : Issues b r s) : Issues b r (dmaIssue b e s).2 := by
  unfold dmaIssue
  extract_lets d i len link
  split
  · exact a
  split
  · exact dmaFault_issues a
  split
  · exact a
  split
  case h_1 t alloc => exact deckAlloc_issues a alloc
  case h_2 g t alloc =>
    extract_lets data t1 o
    have filled : Issues b r t1 := .ite (bufWrite_issues (deckAlloc_issues a alloc)) (deckAlloc_issues a alloc)
    split
    case h_1 tag u issued => exact updDm_issues (issue_issues filled issued)
    case h_2 u issued => exact deckRelease_issues (issue_issues filled issued)

theorem dmaPump_issues {e n : Nat} (a : Issues b r s) : Issues b r (dmaPump b e n s) := by
  induction n generalizing s with
  | zero => exact a
  | succ n ih =>
    have issued := dmaIssue_issues (b := b) (e := e) a
    unfold dmaPump
    split
    case h_1 t eq => rw [eq] at issued; exact ih issued
    case h_2 t eq => rw [eq] at issued; exact issued

theorem dmaStart_issues {e i : Nat} (a : Issues b r s) : Issues b r (dmaStart b e i s) := by
  unfold dmaStart
  extract_lets s1 d
  have begun : Issues b r s1 := updDm_issues a
  split
  · exact dmaFault_issues begun
  · split
    · exact dmaFault_issues begun
    · exact dmaPump_issues (updDm_issues begun)

theorem dmaResumeSlot_issues {e i : Nat} (a : Issues b r s) : Issues b r (dmaResumeSlot b e i s) := by
  unfold dmaResumeSlot
  extract_lets s1
  have begun : Issues b r s1 := updDm_issues a
  split
  · exact dmaFault_issues begun
  · exact dmaPump_issues (updDm_issues begun)

theorem dmaNext_issues {e : Nat} (a : Issues b r s) : Issues b r (dmaNext b e s) := by
  unfold dmaNext
  extract_lets d
  split
  · exact dmaStart_issues (updDm_issues a)
  · split
    · exact dmaResumeSlot_issues (updDm_issues a)
    · exact .ite (updDm_issues a) (dmaStart_issues a)

theorem dmaBoundary_issues {e : Nat} (a : Issues b r s) : Issues b r (dmaBoundary b e s).2 := by
  unfold dmaBoundary
  extract_lets d
  split
  · dsimp only
    exact dmaHalt_issues a
  · split
    · dsimp only
      exact dmaNext_issues (updDm_issues a)
    · exact a

theorem dmaDone_issues {e : Nat} (a : Issues b r s) : Issues b r (dmaDone b e s) := by
  unfold dmaDone
  extract_lets i want s1 s2 s3 d
  have ended : Issues b r s1 := updDm_issues a
  have told : Issues b r s2 := .ite (irq_issues ended) ended
  have next : Issues b r s3 := dmaNext_issues told
  split
  · exact next
  · exact .ite (dmaHalt_issues next) (updDm_issues next)

theorem localWrite_issues {g : DmaRegion} {bs : List Byte} (a : Issues b r s) : Issues b r (localWrite b g bs s) := a.touch (localWrite_touch sub_self .refl)

theorem dmaOrderDone_issues {e tag status : Nat} {data : List Byte} (a : Issues b r s) : Issues b r (dmaOrderDone b e tag status data s) := by
  unfold dmaOrderDone
  split
  · exact a
  case h_2 off len g tag' found =>
    extract_lets i s1 s2 s3 s4 d
    have gone : Issues b r s1 := updDm_issues a
    have stored : Issues b r s2 := by
      unfold s2
      split
      · exact localWrite_issues gone
      · exact gone
    have released : Issues b r s3 := deckRelease_issues stored
    have noted : Issues b r s4 := .ite (updDm_issues released) (.ite released (updDm_issues released))
    split
    · exact dmaPump_issues noted
    · split
      · exact dmaHalt_issues noted
      · have bound := dmaBoundary_issues (b := b) (e := e) noted
        split
        · exact dmaDone_issues noted
        · split
          case h_1 t eq => rw [eq] at bound; exact bound
          case h_2 t eq => rw [eq] at bound; exact dmaPump_issues bound

theorem tagsMoved_issues (a : Issues b r s) : Issues b r (tagsMoved b s) := dmaPump_issues (dmaPump_issues (issueWaiting_issues a))

/-! ### The service engine (R348) -/

theorem svcFailed_issues {code : Nat} (a : Issues b r s) : Issues b r (svcFailed b code s) := by
  unfold svcFailed
  extract_lets v s1 s2 s3 s4
  have lowered : Issues b r s1 := withdrawReady_issues a
  have staged : Issues b r s2 := .ite (lowered.touch (stageDone_touch sub_self .refl)) lowered
  have reset : Issues b r s3 := .ite (staged.touch (logReset_touch sub_self .refl)) staged
  have idle : Issues b r s4 := reset.touch (State.updSvc_touch sub_self .refl)
  exact idle.touch (setSvc_touch sub_self .refl)

theorem svcSlotDown_issues (a : Issues b r s) : Issues b r (svcSlotDown b s) := by
  unfold svcSlotDown
  extract_lets v s1
  have idle : Issues b r s1 := a.touch (State.updSvc_touch sub_self .refl)
  exact .ite (svcFailed_issues a) (.ite ((withdrawReady_issues idle).touch (setSvc_touch sub_self .refl)) idle)

/-! ### A link that stops (R329) -/

/-- What the end of a link's orders may change. Where it takes no orders, no tag comes into use. -/
structure OrdersEnd (h k : Hw) : Prop where
  rest : ∃ tags tx waiting retry cpl ff, k =
    { h with tags := tags, tx := tx, waiting := waiting, freqRetry := retry, cpl := cpl, cnt := { h.cnt with freqFail := ff } }
  queues : ∃ f c w, k.tx = { h.tx with freqQ := f, ctrlQ := c, rwQ := w }
  closed : linkOpen h = false → ∀ i o, vget k.tags i = .used o → vget h.tags i = .used o

theorem OrdersEnd.refl : OrdersEnd h h := ⟨⟨_, _, _, _, _, _, rfl⟩, ⟨_, _, _, rfl⟩, fun _ _ _ eq => eq⟩

theorem OrdersEnd.open_eq (a : OrdersEnd h k) : linkOpen k = linkOpen h := by
  obtain ⟨⟨_, _, _, _, _, _, eq⟩, -, -⟩ := a
  rw [eq, linkOpen, linkOpen]

theorem OrdersEnd.trans (a : OrdersEnd h k) (e : OrdersEnd k l) : OrdersEnd h l := by
  refine ⟨?_, ?_, fun shut i o eq => a.closed shut i o (e.closed (a.open_eq.trans shut) i o eq)⟩
  · obtain ⟨_, _, _, _, _, _, eq⟩ := a.rest
    obtain ⟨tags, tx, waiting, retry, cpl, ff, eq'⟩ := e.rest
    exact ⟨tags, tx, waiting, retry, cpl, ff, by rw [eq', eq]⟩
  · obtain ⟨_, _, _, eq⟩ := a.queues
    obtain ⟨f, c, w, eq'⟩ := e.queues
    exact ⟨f, c, w, by rw [eq', eq]⟩

theorem Issued.orders (a : Issued h k) : OrdersEnd h k := by
  obtain ⟨⟨tags, tx, waiting, retry, eq⟩, queues, -, closed⟩ := a
  refine ⟨⟨tags, tx, waiting, retry, h.cpl, h.cnt.freqFail, eq⟩, queues, fun shut i o eq' => ?_⟩
  rwa [(closed shut).1] at eq'

theorem vset_out {α : Type} {n i : Nat} {v : Vector α n} {x : α} (out : ¬i < n) : vset v i x = v := by
  unfold vset
  exact Vector.setIfInBounds_eq_of_size_le (by omega)

/-- A tag that leaves use. -/
theorem vset_orders {i : Nat} {st : TagSt} (out : ∀ o, st ≠ .used o) {retry : List (Nat × Nat)} {cpl : List Cpl} {ff : Nat} :
    OrdersEnd h { h with tags := vset h.tags i st, freqRetry := retry, cpl := cpl, cnt := { h.cnt with freqFail := ff } } := by
  refine ⟨⟨_, _, _, _, _, _, rfl⟩, ⟨_, _, _, rfl⟩, fun _ j o eq => ?_⟩
  by_cases same : i = j
  · subst same
    by_cases inside : i < 64
    · exact absurd ((vget_vset_self inside).symm.trans eq) (out o)
    · dsimp only at eq
      rwa [vset_out inside] at eq
  · exact (vget_vset_ne same).symm.trans eq

/-- Berth b's link has ended orders at most. -/
def Downs (b : BId) (s t : State) : Prop := OrdersEnd (s.at b).hw (t.at b).hw

theorem Downs.refl : Downs b s s := OrdersEnd.refl

theorem Downs.trans (a : Downs b r s) (e : Downs b s t) : Downs b r t := OrdersEnd.trans a e

theorem Issues.downs (a : Issues b s t) : Downs b s t := Issued.orders a

theorem Downs.of_touch (e : Touch fs s t) (hw : Piece.hw ∉ fs := by decide) : Downs b s t := (Issues.refl.touch e hw).downs

/-- A tag of berth b leaves use. -/
theorem freedTag_downs {i : Nat} {st : TagSt} (out : ∀ o, st ≠ .used o) : Downs b s (s.updHw b fun h => { h with tags := vset h.tags i st }) := by
  unfold Downs
  rw [updHw_hw]
  exact vset_orders out

theorem freeTag_downs {i : Nat} : Downs b s (freeTag b i s) := freedTag_downs fun _ => by simp

theorem pushCpl_downs {e : Cpl} : Downs b s (pushCpl b e s) := by
  refine .trans ?_ (.of_touch (irq_touch sub_self .refl))
  unfold Downs
  rw [updHw_hw]
  exact ⟨⟨_, _, _, _, _, (s.at b).hw.cnt.freqFail, rfl⟩, ⟨_, _, _, rfl⟩, fun _ _ _ eq => eq⟩

/-- A FREQ order that has not completed is counted and sent again. -/
def freqKept (p st : Nat) (h : Hw) : Hw :=
  { h with cnt := { h.cnt with freqFail := sinc h.cnt.freqFail }, freqRetry := h.freqRetry.filter (fun x => x.1 != p) ++ [(p, st)] }

theorem freqKept_downs {p st : Nat} : Downs b s (s.updHw b (freqKept p st)) := by
  unfold Downs
  rw [updHw_hw]
  exact ⟨⟨_, _, _, _, _, _, rfl⟩, ⟨_, _, _, rfl⟩, fun _ _ _ eq => eq⟩

theorem freeSvcBuf_downs {o : Order} : Downs b s (freeSvcBuf o s) := .of_touch (freeSvcBuf_touch sub_self .refl)

theorem linkDownTag_downs {i : Nat} : Downs b s (linkDownTag b i s) := by
  unfold linkDownTag
  split
  case h_1 o =>
    split
    · exact .trans (freedTag_downs fun _ => by simp) pushCpl_downs
    · exact freeTag_downs.trans (dmaOrderDone_issues .refl).downs
    · exact freeTag_downs.trans freqKept_downs
    · exact freeTag_downs.trans freeSvcBuf_downs
  · exact freedTag_downs fun _ => by simp
  · exact freeTag_downs
  · exact .refl

/-- A tag that leaves use stays out of use where the link takes no orders. -/
theorem Downs.out (a : Downs b s t) (shut : linkOpen (s.at b).hw = false) {i : Nat} (out : ∀ o, vget (s.at b).hw.tags i ≠ .used o) :
    ∀ o, vget (t.at b).hw.tags i ≠ .used o := fun o eq => out o (a.closed shut i o eq)

theorem freedTag_out {i : Nat} (lt : i < 64) {st : TagSt} (out : ∀ o, st ≠ .used o) :
    ∀ o, vget ((s.updHw b fun h => { h with tags := vset h.tags i st }).at b).hw.tags i ≠ .used o := by
  intro o
  rw [updHw_hw]
  dsimp only
  rw [vget_vset_self lt]
  exact out o

theorem linkDownTag_out {i : Nat} (lt : i < 64) (shut : linkOpen (s.at b).hw = false) : ∀ o, vget ((linkDownTag b i s).at b).hw.tags i ≠ .used o := by
  have freed : ∀ o, vget ((freeTag b i s).at b).hw.tags i ≠ .used o := freedTag_out lt fun _ => by simp
  have still : linkOpen ((freeTag b i s).at b).hw = false := freeTag_downs.open_eq.trans shut
  unfold linkDownTag
  split
  case h_1 o eq =>
    split
    case h_1 req own =>
      have done : ∀ o, vget ((s.updHw b fun h => { h with tags := vset h.tags i (.done req) }).at b).hw.tags i ≠ .used o :=
        freedTag_out lt fun _ => by simp
      have shut' : linkOpen ((s.updHw b fun h => { h with tags := vset h.tags i (.done req) }).at b).hw = false := by
        rw [updHw_hw]
        exact shut
      exact pushCpl_downs.out shut' done
    · exact (dmaOrderDone_issues .refl).downs.out still freed
    · exact freqKept_downs.out still freed
    · exact freeSvcBuf_downs.out still freed
  · exact freedTag_out lt fun _ => by simp
  · exact freed
  · next used _ _ => exact fun o eq => used o eq

/-- What a link that stops leaves of itself. -/
structure LinkStopped (dst : LinkState) (h k : Hw) : Prop where
  link : k.link = dst
  tx : k.tx = { trainId := h.tx.trainId }
  rx : k.rx = {}
  trainFail : k.cnt.trainFail = h.cnt.trainFail
  out : ∀ i, i < 64 → ∀ o, vget k.tags i ≠ .used o

theorem setLink_hw {st : LinkState} {cause : Nat} : ((setLink b st cause s).at b).hw = { (s.at b).hw with link := st } := by
  unfold setLink
  extract_lets old s1 s2
  have set : (s1.at b).hw = { (s.at b).hw with link := st } := updHw_hw
  have told : (s2.at b).hw = (s1.at b).hw := (irq_touch sub_self .refl).at_hw (by decide) b
  split
  · exact set
  · split
    · exact told.trans set
    · exact ((logLink_touch sub_self .refl).at_hw (by decide) b).trans (told.trans set)

theorem upto_nodup {n : Nat} : (upto n).Nodup := List.nodup_range

theorem mem_upto {i n : Nat} (lt : i < n) : i ∈ upto n := List.mem_range.mpr lt

theorem downTags_out {is : List Nat} (shut : linkOpen (s.at b).hw = false) {i : Nat} (mem : i ∈ is) (lt : i < 64) :
    linkOpen ((iter is (linkDownTag b) s).at b).hw = false ∧ ∀ o, vget ((iter is (linkDownTag b) s).at b).hw.tags i ≠ .used o := by
  have still : ∀ {is : List Nat} {u : State}, linkOpen (u.at b).hw = false ∧ (∀ o, vget (u.at b).hw.tags i ≠ .used o) →
      linkOpen ((iter is (linkDownTag b) u).at b).hw = false ∧ ∀ o, vget ((iter is (linkDownTag b) u).at b).hw.tags i ≠ .used o := fun {is u} k =>
    iter_induction (P := fun t => linkOpen (t.at b).hw = false ∧ ∀ o, vget (t.at b).hw.tags i ≠ .used o) k
      fun j t k => ⟨linkDownTag_downs.open_eq.trans k.1, linkDownTag_downs.out k.1 k.2⟩
  induction is generalizing s with
  | nil => exact absurd mem List.not_mem_nil
  | cons j js ih =>
    rw [iter_cons]
    have shut' : linkOpen ((linkDownTag b j s).at b).hw = false := linkDownTag_downs.open_eq.trans shut
    by_cases same : i = j
    · subst same
      exact still ⟨shut', linkDownTag_out lt shut⟩
    · exact ih shut' (List.mem_of_ne_of_mem same mem)

theorem linkStop_stops {dst : LinkState} (on : (s.at b).hw.link ≠ .off ∧ (s.at b).hw.link ≠ .retired) (closed : linkOpen { (s.at b).hw with link := dst } = false) :
    LinkStopped dst (s.at b).hw ((linkStop b dst s).at b).hw := by
  unfold linkStop
  extract_lets h s1 s2 gone s3 s4
  have set : (s1.at b).hw = { (s.at b).hw with link := dst } := setLink_hw
  have shut : linkOpen (s1.at b).hw = false := by rw [set]; exact closed
  have downs : Downs b s1 s2 := iter_induction (P := Downs b s1) .refl fun i t kept => kept.trans linkDownTag_downs
  have out : ∀ i, i < 64 → ∀ o, vget (s2.at b).hw.tags i ≠ .used o := fun i lt => by
    have both := downTags_out (is := upto 64) shut (mem_upto lt) lt
    unfold s2
    exact both.2
  clear_value s2
  rw [if_neg (by simpa [h, or_iff_not_imp_left] using on)]
  have freed : Touch [.dk] s4 (iter gone freeSvcBuf s4) := Touch.iter (fun _ _ => freeSvcBuf_touch sub_self) .refl
  have last : ((iter gone freeSvcBuf s4).at b).hw = (s4.at b).hw := freed.at_hw (by decide) b
  have svc : (s4.at b).hw = (s3.at b).hw := (State.updSvc_touch sub_self .refl).at_hw (by decide) b
  have cleared : (s3.at b).hw = { (s2.at b).hw with tx := { trainId := (s2.at b).hw.tx.trainId }, rx := {}, waiting := (s2.at b).hw.waiting.filter isFreq } :=
    updHw_hw
  obtain ⟨_, _, _, _, _, _, eq⟩ := downs.rest
  obtain ⟨_, _, _, queues⟩ := downs.queues
  rw [last, svc, cleared]
  refine ⟨?_, ?_, rfl, ?_, out⟩
  · rw [eq, set]
  · dsimp only
    rw [queues, set]
  · dsimp only
    rw [eq, set]

end

end Sys2Proof.Machine

/-! The orders to HW_CMD (R327, R329, R330). -/
namespace Sys2Proof.Machine
set_option Elab.async false

section
variable {s t u : State} {b : BId} {req : ReqId}

/-- HW_CMD's registers after an order. -/
def hwOrdered (cmd res : Nat) (req : ReqId) (h : Hw) : Hw := { h with lastCmd := cmd, cmdResult := res, cmdReq := req.val }

theorem hwResult_hw {cmd res : Nat} : ((hwResult b cmd res req s).at b).hw = hwOrdered cmd res req (s.at b).hw := updHw_hw

/-! ### Trainings (R310, R327) -/

/-- What a training's start makes of the link. -/
structure Trained (h k : Hw) : Prop where
  rest : ∃ grace tx rx, k = { h with grace := grace, tx := tx, rx := rx }
  tx : k.tx = { h.tx with on := true, hist := BitVec.allOnes 58, trailing := 0, replayPos := none, trainId := (h.tx.trainId + 1) % 2 ^ 32 }
  rx : k.rx = { h.rx with validTrain := 0, readyTrain := 0, localReady := false, remoteReady := false }

theorem startTraining_trained : Trained (s.at b).hw ((startTraining b s).at b).hw := by
  unfold startTraining
  extract_lets grace
  rw [updHw_hw]
  exact ⟨⟨_, _, _, rfl⟩, rfl, rfl⟩

/-- What a retraining makes of the link. -/
def retrainNoted (cause : Nat) (h : Hw) : Hw := { h with lastCause := cause, cnt := { h.cnt with retrains := sinc h.cnt.retrains }, link := .retrain }

theorem hwRetrain_trained {cause : Nat} : Trained (retrainNoted cause (s.at b).hw) ((hwRetrain b cause s).at b).hw := by
  unfold hwRetrain
  extract_lets s1
  have noted : ((setLink b .retrain cause s1).at b).hw = retrainNoted cause (s.at b).hw := by
    rw [setLink_hw, show (s1.at b).hw = _ from updHw_hw]
    rfl
  have trained := startTraining_trained (s := setLink b .retrain cause s1) (b := b)
  rw [noted] at trained
  exact trained

/-! ### HW_CMD -/

theorem hwStart_denied (no : ownOrEngine b req = false) : hwStart b req s = s := if_neg (by rw [no]; decide)

theorem hwStop_denied (no : ownOrEngine b req = false) : hwStop b req s = s := if_pos (by rw [no]; rfl)

theorem hwRetrainCmd_denied (no : ownOrEngine b req = false) : hwRetrainCmd b req s = s := if_pos (by rw [no]; rfl)

section
variable (own : ownOrEngine b req = true)
include own

theorem hwStart_starts (good : startResult s b = 0) :
    hwStart b req s = hwResult b 1 0 req (startTraining b (setLink b .train 0 s)) := by
  unfold hwStart linkStart
  rw [if_pos own, if_pos (by rw [good]; rfl), good]

theorem hwStart_refused (bad : startResult s b ≠ 0) : hwStart b req s = hwResult b 1 (startResult s b) req s := by
  unfold hwStart linkStart
  rw [if_pos own, if_neg (by simpa using bad)]

theorem hwStop_idle (off : lane (s.at b).hw = false) : hwStop b req s = hwResult b 2 1 req s := by
  unfold hwStop
  rw [if_neg (by rw [own]; decide), if_neg (by rw [hwOf, off]; decide)]

theorem hwRetrainCmd_up (up : (s.at b).hw.link = .up) : hwRetrainCmd b req s = hwResult b 3 0 req (hwRetrain b 5 s) := by
  unfold hwRetrainCmd
  rw [if_neg (by rw [own]; decide), if_pos (by rw [hwOf, up]; rfl)]

theorem hwRetrainCmd_down (down : (s.at b).hw.link ≠ .up) : hwRetrainCmd b req s = hwResult b 3 1 req s := by
  unfold hwRetrainCmd
  rw [if_neg (by rw [own]; decide), if_neg (by simpa [hwOf] using down)]

/-- STOP ends the link's orders, and nothing that follows starts one. -/
theorem hwStop_stops (on : lane (s.at b).hw = true) : ∃ h, LinkStopped .off (s.at b).hw h
    ∧ ∃ waiting retry, ((hwStop b req s).at b).hw = hwOrdered 2 0 req { h with waiting := waiting, freqRetry := retry } := by
  have used : (s.at b).hw.link ≠ .off ∧ (s.at b).hw.link ≠ .retired := by
    unfold lane at on
    cases link : (s.at b).hw.link <;> simp_all
  have stopped := linkStop_stops (s := s) (b := b) (dst := .off) used rfl
  refine ⟨_, stopped, ?_⟩
  unfold hwStop
  rw [if_neg (by rw [own]; decide), if_pos (show lane (hwOf s b) = true from on)]
  extract_lets s1 v s2
  have issued : Issues b s1 s2 := .ite (svcFailed_issues .refl) .refl
  obtain ⟨tags, tx⟩ := issued.closed (by rw [linkOpen, stopped.link]; rfl)
  obtain ⟨_, _, waiting, retry, eq⟩ := issued.rest
  refine ⟨waiting, retry, ?_⟩
  rw [hwResult_hw, eq]
  have same : (s2.at b).hw.tags = (s1.at b).hw.tags ∧ (s2.at b).hw.tx = (s1.at b).hw.tx := ⟨tags, tx⟩
  rw [eq] at same
  obtain ⟨tags', tx'⟩ := same
  dsimp only at tags' tx'
  rw [tags', tx']

end

/-- An order that only leaves its result. -/
theorem hwResult_answers {cmd res : Nat} (bus : Touch [.sy] (hwResult b cmd res req s.begin) t) :
    AgreeOff [.out, .sy, .hw] s t ∧ (t.at b).hw = { (s.at b).hw with lastCmd := cmd, cmdResult := res, cmdReq := req.val } := by
  have framed : Touch [.out, .sy, .hw] s.begin t := .trans (hwResult_touch (by decide) .refl) (bus.mono (by decide))
  exact ⟨framed.agreeOff_begin, (bus.at_hw (by decide) b).trans hwResult_hw⟩

end

/-- Settles O34: START, STOP and RETRAIN act on the link by its state, or leave their result. -/
theorem linkOrders : Obligations.LinkOrders := by
  unfold Obligations.LinkOrders
  refine fun s b req pass => ⟨fun no i mem => ?_, fun own => ⟨fun good => ?_, fun bad => ?_, fun on => ?_, fun off => ?_, fun up => ?_, fun down => ?_⟩⟩
  · fin_cases mem
    · refine answers_viaBus (act := hwStart b req) pass rfl fun t bus => ?_
      rw [hwStart_denied no] at bus
      exact (bus.mono (by decide)).agreeOff_begin
    · refine answers_viaBus (act := hwStop b req) pass rfl fun t bus => ?_
      rw [hwStop_denied no] at bus
      exact (bus.mono (by decide)).agreeOff_begin
    · refine answers_viaBus (act := hwRetrainCmd b req) pass rfl fun t bus => ?_
      rw [hwRetrainCmd_denied no] at bus
      exact (bus.mono (by decide)).agreeOff_begin
  · refine answers_viaBus (act := hwStart b req) pass rfl fun t bus => ?_
    rw [hwStart_starts (s := s.begin) own good] at bus
    have trained := startTraining_trained (s := setLink b .train 0 s.begin) (b := b)
    rw [setLink_hw] at trained
    obtain ⟨⟨_, _, _, eq⟩, tx, -⟩ := trained
    rw [bus.at_hw (by decide) b, hwResult_hw]
    refine ⟨congrArg Hw.link eq, ?_, ?_, rfl, rfl⟩
    · exact congrArg HwTx.on tx
    · exact congrArg HwTx.trainId tx
  · refine answers_viaBus (act := hwStart b req) pass rfl fun t bus => ?_
    rw [hwStart_refused (s := s.begin) own bad] at bus
    exact hwResult_answers bus
  · refine answers_viaBus (act := hwStop b req) pass rfl fun t bus => ?_
    obtain ⟨h, ⟨link, tx, rx, -, out⟩, waiting, retry, eq⟩ := hwStop_stops (s := s.begin) own on
    rw [bus.at_hw (by decide) b, eq]
    exact ⟨link, congrArg HwTx.on tx, congrArg HwRx.lock rx, rfl, fun k o => out k.val k.isLt o⟩
  · refine answers_viaBus (act := hwStop b req) pass rfl fun t bus => ?_
    rw [hwStop_idle (s := s.begin) own off] at bus
    exact hwResult_answers bus
  · refine answers_viaBus (act := hwRetrainCmd b req) pass rfl fun t bus => ?_
    rw [hwRetrainCmd_up (s := s.begin) own up] at bus
    obtain ⟨⟨_, _, _, eq⟩, tx, -⟩ := hwRetrain_trained (s := s.begin) (b := b) (cause := 5)
    rw [bus.at_hw (by decide) b, hwResult_hw]
    have tags : ((hwRetrain b 5 s.begin).at b).hw.tags = (s.at b).hw.tags := by rw [eq]; rfl
    have replay : ((hwRetrain b 5 s.begin).at b).hw.tx.replayBuf = (s.at b).hw.tx.replayBuf := by rw [tx]; rfl
    exact ⟨congrArg Hw.link eq, congrArg Hw.lastCause eq, rfl, congrArg (fun h => h.cnt.retrains) eq, tags, replay⟩
  · refine answers_viaBus (act := hwRetrainCmd b req) pass rfl fun t bus => ?_
    rw [hwRetrainCmd_down (s := s.begin) own down] at bus
    exact hwResult_answers bus

end Sys2Proof.Machine

/-! The search for lock, false lock, replays, failed trainings and orders that time out (R307 to R309, R313, R316, R317, R325, R326). -/
namespace Sys2Proof.Machine
set_option Elab.async false

section
variable {s t u : State} {b : BId} {r : HwRx} {d : Bool} {w : Word}

/-! ### The search for lock (R307) -/

theorem updRx_hw {f : HwRx → HwRx} : ((updRx b f s).at b).hw = { (s.at b).hw with rx := f (s.at b).hw.rx } := updHw_hw

theorem updTx_hw {f : HwTx → HwTx} : ((updTx b f s).at b).hw = { (s.at b).hw with tx := f (s.at b).hw.tx } := updHw_hw

theorem cntHw_hw {f : HwCnt → HwCnt} : ((cntHw b f s).at b).hw = { (s.at b).hw with cnt := f (s.at b).hw.cnt } := updHw_hw

theorem updRx_within {f : HwRx → HwRx} : Within b s (updRx b f s) := updHw_within

theorem updTx_within {f : HwTx → HwTx} : Within b s (updTx b f s) := updHw_within

theorem cntHw_within {f : HwCnt → HwCnt} : Within b s (cntHw b f s) := updHw_within

/-- The 32 most recent bits with bit d. -/
def recentWith (r : HwRx) (d : Bool) : Word := (r.recent >>> 1) ||| (if d then 0x80000000#32 else 0)

/-- Bit d adds a hit to its offset. -/
def bitHits (r : HwRx) (d : Bool) : Bool := recentWith r d == marker && min (r.seen + 1) 32 == 32 && r.excluded != some r.pos

theorem searchBit_eq : searchBit r d = { r with
    recent := recentWith r d, seen := min (r.seen + 1) 32, pos := (r.pos + 1) % 288
    hits := if bitHits r d then (r.pos, hitsOf r r.pos + 1) :: r.hits.filter fun h => h.1 != r.pos else r.hits.filter fun h => h.1 != r.pos } := rfl

theorem bitHits_of (is : recentWith r d = marker) (seen : 31 ≤ r.seen) (open' : r.excluded ≠ some r.pos) : bitHits r d = true := by
  unfold bitHits
  rw [is, Nat.min_eq_right (by omega)]
  simpa using open'

theorem bitHits_not (no : recentWith r d ≠ marker ∨ r.seen < 31 ∨ r.excluded = some r.pos) : bitHits r d = false := by
  rw [Bool.eq_false_iff]
  intro hit
  unfold bitHits at hit
  simp only [Bool.and_eq_true, beq_iff_eq, bne_iff_ne] at hit
  obtain ⟨⟨is, seen⟩, open'⟩ := hit
  rcases no with other | few | out
  · exact other is
  · omega
  · exact open' out

theorem hitsOf_cons {n o : Nat} {hs : List (Nat × Nat)} (eq : r.hits = (o, n) :: hs) : hitsOf r o = n := by
  unfold hitsOf
  rw [eq]
  simp

theorem hitsOf_filter_ne {o p : Nat} {q : HwRx} (eq : q.hits = r.hits.filter fun h => h.1 != p) (ne : o ≠ p) : hitsOf q o = hitsOf r o := by
  unfold hitsOf
  rw [eq, List.find?_filter]
  refine congrArg (fun x : Option (Nat × Nat) => (x.map (·.2)).getD 0) (congrArg (fun f => List.find? f r.hits) (funext fun h => ?_))
  by_cases same : h.1 = o
  · simp [same, ne]
  · simp [same]

theorem hitsOf_filter_self {p : Nat} {q : HwRx} (eq : q.hits = r.hits.filter fun h => h.1 != p) : hitsOf q p = 0 := by
  unfold hitsOf
  rw [eq, List.find?_filter, List.find?_eq_none.mpr ?_]
  · rfl
  · intro h _
    simp

theorem searchBit_hit (hit : bitHits r d = true) : hitsOf (searchBit r d) r.pos = hitsOf r r.pos + 1 := by
  refine hitsOf_cons (hs := r.hits.filter fun h => h.1 != r.pos) ?_
  rw [searchBit_eq]
  exact if_pos hit

theorem searchBit_miss (miss : bitHits r d = false) : (searchBit r d).hits = r.hits.filter fun h => h.1 != r.pos := by
  rw [searchBit_eq]
  exact if_neg (by rw [miss]; decide)

theorem rxSearch_one : rxSearch [d] r = if hitsOf (searchBit r d) r.pos ≥ 4 then lockAt r.pos [] (searchBit r d) else searchBit r d := rfl

theorem rxLock_eq (on : lane (s.at b).hw = true) (free : (s.at b).hw.rx.lock = false) (awake : s.dev.sleep = false) :
    rxLock b [d] s = updRx b (rxSearch [d != bitAt (s.at b).hw.cfg 2]) s := by
  unfold rxLock
  extract_lets h
  exact if_pos (by simp [h, hwOf, on, free, awake])

/-! ### False lock and the loss of lock (R308, R309) -/

theorem falseLock_eq (lock : (s.at b).hw.rx.lock = true) (fresh : (s.at b).hw.rx.proven = false) (long : 8 ≤ (s.at b).hw.rx.sinceLock) :
    falseLock b s = cntHw b (fun c => { c with falseLock := sinc c.falseLock })
      (updRx b (fun r => { r with lock := false, excluded := some r.offset, sinceLock := 0, badMarkers := 0, hits := [] }) s) := by
  unfold falseLock
  extract_lets r
  exact if_pos (by simp [r, hwOf, lock, fresh, long])

/-- The receiver without its lock. -/
def unlocked (r : HwRx) : HwRx := { r with lock := false, badMarkers := 0, proven := false, validTrain := 0, readyTrain := 0 }

theorem lockLost_eq (lock : (s.at b).hw.rx.lock = true) (bad : 8 ≤ (s.at b).hw.rx.badMarkers) : ∃ v,
    (v.at b).hw = { (s.at b).hw with rx := unlocked (s.at b).hw.rx } ∧
      lockLost b s = if (s.at b).hw.link == .up then hwRetrain b 1 v else v := by
  refine ⟨trainBreak b (updRx b (fun r => { r with lock := false, badMarkers := 0, proven := false }) s), ?_, ?_⟩
  · rw [trainBreak, updRx_hw, updRx_hw]
    rfl
  · unfold lockLost
    extract_lets h v
    exact if_pos (by simp [h, hwOf, lock, bad])

/-! ### Replays (R316, R317) -/

section
variable {f : TxFrame} {fs : List TxFrame} (up : (s.at b).hw.link = .up) (oldest : (s.at b).hw.tx.replayBuf = f :: fs)
include up oldest

theorem ackTimeout_eq : ackTimeout b s =
    if (s.at b).hw.tx.resends + 1 > fld (s.at b).hw.cfg 17 16 then
      if (s.at b).hw.tx.blame == some f.fseq then trainFailed b 2 s
      else hwRetrain b 2 (updTx b (fun t => { t with blame := some f.fseq }) s)
    else updTx b (fun t => { t with resends := t.resends + 1, replayPos := some 0 }) s := by
  unfold ackTimeout replayStart
  rw [if_pos (by rw [hwOf, up]; rfl)]
  extract_lets h
  rw [show h.tx.replayBuf = f :: fs from oldest]
  rfl

end

/-! ### Failed trainings (R313, R328) -/

theorem startShutdown_issues (retired : (s.at b).hw.link = .retired) {fault : Bool} {cause first : Nat} : Issues b s (startShutdown b fault cause first s) := by
  unfold startShutdown
  extract_lets s1 s2 s3 s4 s5 s6 s7 s8
  have before : Issues b s s3 := ((Issues.refl.touch (State.updRl_touch sub_self .refl)).touch (setSlotState_touch sub_self .refl)).touch (logRail_touch sub_self .refl)
  have stays : s4 = s3 := by
    have link : (s3.at b).hw.link = .retired := (Issued.link before).trans retired
    unfold s4 linkStop
    extract_lets h
    rw [if_pos (by simp [h, link]), if_neg (by rw [Bool.and_eq_true]; rintro ⟨no, _⟩; exact absurd no (by decide))]
  have cleared : Issues b s s5 := updHw_issues (stays ▸ before) fun _ => ⟨_, _, rfl⟩
  have down : Issues b s s6 := svcSlotDown_issues cleared
  have power : Issues b s s7 := down.touch (State.updPw_touch sub_self .refl)
  have released : Issues b s s8 := .ite (power.touch (releaseRail_touch sub_self .refl)) power
  exact released.touch (walk_touch sub_self .refl)

theorem shutdown_issues (retired : (s.at b).hw.link = .retired) {fault : Bool} {cause first : Nat} : Issues b s (shutdown b fault cause first s) := by
  unfold shutdown
  split
  · exact startShutdown_issues retired
  · exact startShutdown_issues retired
  · split
    · exact .refl
    · extract_lets was told s1 s2
      have told : Issues b s s1 := .ite .refl ((Issues.refl.touch (State.updRl_touch sub_self .refl)).touch (logRail_touch sub_self .refl))
      have released : Issues b s s2 := .ite (told.touch (releaseRail_touch sub_self .refl)) told
      exact released.touch (walk_touch sub_self .refl)
  · exact .refl

theorem retireSlot_issues (retired : (s.at b).hw.link = .retired) {cause rule events : Nat} : Issues b s (retireSlot b cause rule events s) := by
  unfold retireSlot
  extract_lets s1
  have noticed : Issues b s s1 := Issues.refl.touch (notice_touch sub_self .refl)
  have marked : Issues b s (s1.updRl b fun r => { r with retireAtEnd := true }) := noticed.touch (State.updRl_touch sub_self .refl)
  have walks : Issues b s (shutdown b false 0x13 15 (s1.updRl b fun r => { r with retireAtEnd := true })) :=
    marked.trans (shutdown_issues ((Issued.link marked).trans retired))
  split
  · exact walks
  · exact walks
  · exact walks
  · exact noticed
  · exact (((noticed.touch (State.updRl_touch sub_self .refl)).touch (setSlotState_touch sub_self .refl)).touch (logSlotDown_touch sub_self .refl)).touch
      (withdraw_touch sub_self .refl)

/-- A retired link stays retired, and its failed trainings stay counted. -/
theorem hwRetire_retires (on : (s.at b).hw.link ≠ .off ∧ (s.at b).hw.link ≠ .retired) {events : Nat} :
    ((hwRetire b events s).at b).hw.link = .retired ∧ ((hwRetire b events s).at b).hw.cnt.trainFail = (s.at b).hw.cnt.trainFail := by
  unfold hwRetire
  extract_lets s1
  obtain ⟨link, -, -, fails, -⟩ := linkStop_stops (dst := .retired) on rfl
  have issued : Issues b s1 (withdraw b true (retireSlot b 0x13 4 events s1)) := (retireSlot_issues link).touch (withdraw_touch sub_self .refl)
  obtain ⟨_, _, _, _, eq⟩ := issued.rest
  refine ⟨(Issued.link issued).trans link, ?_⟩
  rw [eq]
  exact fails

/-- The link after a failed training is counted, and charged unless a holdover excuses it. -/
def trainingFailed (grace : Bool) (hist : Hist) (h : Hw) : Hw :=
  { h with cnt := { h.cnt with trainFail := sinc h.cnt.trainFail }, hist := if grace then h.hist else hist }

/-- A training that failed begins anew, or retires the link. -/
theorem trainFailed_fails {cause : Nat} (tries : (s.at b).hw.link = .train ∨ (s.at b).hw.link = .retrain) :
    ((trainFailed b cause s).at b).hw.cnt.trainFail = sinc (s.at b).hw.cnt.trainFail
      ∧ ((s.at b).hw.grace = true ∨ (classEvent s b 4 (s.at b).hw.hist).1 = false →
        ((trainFailed b cause s).at b).hw.link = .retrain ∧ ((trainFailed b cause s).at b).hw.lastCause = cause
          ∧ ((trainFailed b cause s).at b).hw.tx.trainId = ((s.at b).hw.tx.trainId + 1) % 2 ^ 32)
      ∧ ((s.at b).hw.grace = false ∧ (classEvent s b 4 (s.at b).hw.hist).1 = true → ((trainFailed b cause s).at b).hw.link = .retired) := by
  unfold trainFailed
  extract_lets s1 grace ev s2 old retire s3 s4
  have counted : (s1.at b).hw = { (s.at b).hw with cnt := { (s.at b).hw.cnt with trainFail := sinc (s.at b).hw.cnt.trainFail } } := cntHw_hw
  have framed : Touch [.hw] s s1 := cntHw_touch sub_self .refl
  have excused : grace = (s.at b).hw.grace := by
    unfold grace hwOf
    rw [counted]
  have event : ev = classEvent s b 4 (s.at b).hw.hist := by
    unfold ev hwOf
    rw [counted]
    exact classEvent_congr framed.harbour_eq (framed.at_ch (by decide) b) fun c => congrArg Td.tide (framed.at_td (by decide) c)
  have noted : (s2.at b).hw = trainingFailed grace ev.2.1 (s.at b).hw := by
    unfold s2
    cases grace
    · rw [if_neg (by decide), updHw_hw, counted]
      rfl
    · rw [if_pos rfl, counted]
      rfl
  have logged : (s3.at b).hw = trainingFailed grace ev.2.1 (s.at b).hw :=
    (Touch.at_hw (logLink_touch (s := s2) sub_self .refl) (by decide) b).trans noted
  have was : old = (s.at b).hw.link := by
    unfold old hwOf
    rw [noted]
    rfl
  have retires : retire = (ev.1 && !grace) := rfl
  rw [event, excused] at retires
  clear_value s1 grace ev s2 old retire s3
  split
  case isTrue yes =>
    have on : (s3.at b).hw.link ≠ .off ∧ (s3.at b).hw.link ≠ .retired := by
      rw [show (s3.at b).hw.link = (s.at b).hw.link from (congrArg Hw.link logged).trans rfl]
      rcases tries with link | link <;> simp [link]
    obtain ⟨link, fails⟩ := hwRetire_retires on (events := ev.2.2)
    refine ⟨fails.trans (congrArg (fun h : Hw => h.cnt.trainFail) logged), fun no => ?_, fun _ => link⟩
    rw [retires] at yes
    rcases no with no | no <;> simp [no] at yes
  case isFalse no =>
    have link : (s4.at b).hw = { (s3.at b).hw with link := .retrain } := by
      unfold s4
      split
      case isTrue same =>
        have already : (s3.at b).hw.link = .retrain := ((congrArg Hw.link logged).trans rfl).trans (was.symm.trans (by simpa using same))
        rw [← already]
      case isFalse => exact (Touch.at_hw (irq_touch sub_self .refl) (by decide) b).trans updHw_hw
    rw [logged] at link
    obtain ⟨⟨_, _, _, eq⟩, tx, -⟩ := startTraining_trained (b := b)
      (s := s4.updHw b fun h => { h with lastCause := cause, cnt := { h.cnt with retrains := sinc h.cnt.retrains } })
    rw [updHw_hw, link] at eq tx
    refine ⟨congrArg (fun h : Hw => h.cnt.trainFail) eq, fun _ => ⟨congrArg Hw.link eq, congrArg Hw.lastCause eq, congrArg HwTx.trainId tx⟩, fun yes => ?_⟩
    rw [retires] at no
    exact absurd (by simp [yes]) no

theorem trainTimeout_eq (tries : (s.at b).hw.link = .train ∨ (s.at b).hw.link = .retrain) : trainTimeout b s = trainFailed b 6 s := by
  unfold trainTimeout
  extract_lets l
  exact if_pos (by rcases tries with link | link <;> simp [l, hwOf, link])

/-! ### Orders without a reply (R325, R326) -/

/-- A mailbox order that timed out: its tag quarantined, its entry in HW_CPL. -/
def mailExpired (tag : Nat) (r : ReqId) (h : Hw) : Hw :=
  { h with cnt := { h.cnt with timeouts := sinc h.cnt.timeouts }, tags := vset h.tags tag (.quarantined (Option.some r)), cpl := h.cpl ++ [⟨tag, 0x10, 0, r⟩] }

theorem pushCpl_hw {c : Cpl} : ((pushCpl b c s).at b).hw = { (s.at b).hw with cpl := (s.at b).hw.cpl ++ [c] } :=
  (Touch.at_hw (irq_touch sub_self .refl) (by decide) b).trans updHw_hw

theorem complete_mailbox {o : Order} {q : ReqId} {tag status : Nat} {d : List Byte} {timeout : Bool} (owner : o.owner = .mailbox q) :
    ∃ v, (v.at b).hw = ((endTag b tag o timeout s).at b).hw ∧ complete b tag o timeout status d s = pushCpl b ⟨tag, status, if status == 0 then d.length else 0, q⟩ v := by
  unfold complete
  extract_lets s1 s2
  have freed : (s1.at b).hw = ((endTag b tag o timeout s).at b).hw := Touch.at_hw (freeSvcBuf_touch sub_self .refl) (by decide) b
  rw [owner]
  refine ⟨s2, ?_, rfl⟩
  unfold s2
  split
  case isTrue => exact (Touch.at_hw (bufWrite_touch sub_self .refl) (by decide) b).trans freed
  case isFalse => exact freed

theorem endTag_mailbox {o : Order} {q : ReqId} {tag : Nat} {timeout : Bool} (owner : o.owner = .mailbox q) :
    ((endTag b tag o timeout s).at b).hw =
      { (s.at b).hw with tags := vset (s.at b).hw.tags tag (if timeout then .quarantined (Option.some q) else .done q) } := by
  unfold endTag
  rw [updHw_hw, owner]
  cases timeout <;> rfl

theorem complete_timeout {o : Order} {q : ReqId} {tag : Nat} (owner : o.owner = .mailbox q) :
    ((complete b tag o true 0x10 [] s).at b).hw =
      { (s.at b).hw with tags := vset (s.at b).hw.tags tag (.quarantined (Option.some q)), cpl := (s.at b).hw.cpl ++ [⟨tag, 0x10, 0, q⟩] } := by
  obtain ⟨v, same, eq⟩ := complete_mailbox (s := s) (b := b) (tag := tag) (status := 0x10) (d := []) (timeout := true) owner
  rw [eq, pushCpl_hw, same, endTag_mailbox owner]
  rfl

/-- An order of a mailbox without a reply is counted, its tag quarantined and its timeout entered in HW_CPL; the tags that this
moves leave both alone. -/
theorem replyTimeout_expires {o : Order} {q : ReqId} {tag : Nat} (small : tag < 64) (used : vget (s.at b).hw.tags tag = .used o) (owner : o.owner = .mailbox q)
    (up : (s.at b).hw.link = .up) (sent : headerWaits (s.at b).hw.tx tag = false) :
    vget ((replyTimeout b tag s).at b).hw.tags tag = .quarantined (Option.some q)
      ∧ ((replyTimeout b tag s).at b).hw.cpl = (s.at b).hw.cpl ++ [⟨tag, 0x10, 0, q⟩]
      ∧ ((replyTimeout b tag s).at b).hw.cnt.timeouts = sinc (s.at b).hw.cnt.timeouts := by
  unfold replyTimeout
  extract_lets h s1
  split
  case h_2 no => exact absurd used (no o)
  case h_1 w eq =>
  cases eq.symm.trans used
  rw [if_neg (by simp [h, hwOf, up, sent])]
  extract_lets s2 s3
  have logged : (s2.at b).hw = { (s.at b).hw with cnt := { (s.at b).hw.cnt with timeouts := sinc (s.at b).hw.cnt.timeouts } } :=
    (Touch.at_hw (logRec_touch sub_self .refl) (by decide) b).trans cntHw_hw
  have expired : (s3.at b).hw = mailExpired tag q (s.at b).hw := by
    unfold s3
    rw [complete_timeout owner, logged]
    rfl
  clear_value s1 s2 s3
  have quarantined : vget (mailExpired tag q (s.at b).hw).tags tag = .quarantined (Option.some q) := vget_vset_self small
  split
  case isTrue =>
    obtain ⟨⟨_, _, _, kept⟩, -, -⟩ := hwRetrain_trained (s := s3) (b := b) (cause := 4)
    rw [kept, expired]
    exact ⟨quarantined, rfl, rfl⟩
  case isFalse =>
    obtain ⟨⟨_, _, _, _, kept⟩, -, busy, -⟩ := tagsMoved_issues (b := b) (Issues.refl (s := s3))
    have held := busy tag (by rw [expired, quarantined]; rfl)
    refine ⟨held.trans (by rw [expired, quarantined]), ?_, ?_⟩
    · rw [kept, expired]
      rfl
    · rw [kept, expired]
      rfl

theorem sendFreq_within {p st : Nat} : Within b s (sendFreq b p st s) := by
  unfold sendFreq
  extract_lets x codes s1
  exact .trans updHw_within issueHw_within

/-- A FREQ order is sent: no resend of its partition waits, and where a tag is free it takes it. -/
theorem sendFreq_sent {p st : Nat} : (∀ y ∈ ((sendFreq b p st s).at b).hw.freqRetry, y.1 ≠ p)
    ∧ ∀ g, tagFor (s.at b).hw (.freq p st) = Option.some g →
      ∃ o, vget ((sendFreq b p st s).at b).hw.tags g = .used o ∧ o.op = .freq ∧ o.owner = .freq p st := by
  unfold sendFreq
  extract_lets x codes s1
  have dropped : (s1.at b).hw = { (s.at b).hw with freqRetry := (s.at b).hw.freqRetry.filter fun y => y.1 != p } := updHw_hw
  have same : tagFor (s1.at b).hw (.freq p st) = tagFor (s.at b).hw (.freq p st) := by
    rw [dropped]
    rfl
  clear_value s1
  unfold issueHw issue
  dsimp only
  rw [same]
  have clear : ∀ y ∈ (s1.at b).hw.freqRetry, y.1 ≠ p := by
    rw [dropped]
    intro y mem
    simpa using (List.mem_filter.mp mem).2
  cases taken : tagFor (s.at b).hw (.freq p st) with
  | none =>
    dsimp only
    rw [updHw_hw]
    exact ⟨clear, fun g no => nomatch no⟩
  | some g =>
    dsimp only
    rw [updHw_hw]
    obtain ⟨small, -, -⟩ := tagFor_free taken
    obtain ⟨_, _, _, eq⟩ := enqueue_eq (h := (s1.at b).hw) (i := g) (o := { op := .freq, owner := .freq p st, args := wordOf p :: bytesWords codes 4 })
    rw [eq]
    refine ⟨clear, fun g' is => ?_⟩
    cases is
    exact ⟨_, vget_vset_self small, rfl, rfl⟩

end

/-- Settles O35: the search for lock and its ends, replays, failed trainings and orders that time out. -/
theorem lockAndTimeouts : Obligations.LockAndTimeouts := by
  unfold Obligations.LockAndTimeouts
  refine ⟨fun s b => ⟨?_, ?_, ?_, ?_⟩, fun s b => ⟨?_, ?_, ?_, ?_⟩⟩
  · rintro d _ _ ⟨on, free, awake, rfl, rfl⟩
    have found : rxLock b [d] s.begin = updRx b (rxSearch [d != bitAt (s.at b).hw.cfg 2]) s.begin := rxLock_eq on free awake
    have run : exec (.rxLock b d []) s = ran s (updRx b (rxSearch [d != bitAt (s.at b).hw.cfg 2]) s.begin) := congrArg (ran s) found
    have framed : ∀ {f : HwRx → HwRx}, Touch [.out, .hw] s.begin (updRx b f s.begin) := updRx_touch (by decide) .refl
    refine ⟨?_, ?_, ?_⟩
    · rintro ⟨is, seen, fresh, three⟩
      refine answers_of_run run fun t queue e => ?_
      have hit := bitHits_of is seen fresh
      refine ⟨e.keeps queue (.ofBegin updRx_within), e.agreeOff_begin (by decide) framed, ?_⟩
      rw [e.hw, updRx_hw, State.begin_at, rxSearch_one, if_pos (by rw [searchBit_hit hit]; omega)]
      exact ⟨rfl, rfl, rfl, rfl, rfl⟩
    · rintro ⟨is, seen, fresh, few⟩
      refine answers_of_run run fun t queue e => ?_
      have hit := bitHits_of is seen fresh
      refine ⟨e.keeps queue (.ofBegin updRx_within), e.agreeOff_begin (by decide) framed, ?_⟩
      rw [e.hw, updRx_hw, State.begin_at, rxSearch_one, if_neg (by rw [searchBit_hit hit]; omega)]
      exact ⟨free, rfl, rfl, searchBit_hit hit⟩
    · intro no
      refine answers_of_run run fun t queue e => ?_
      have miss := searchBit_miss (bitHits_not no)
      have none' := hitsOf_filter_self miss
      refine ⟨e.keeps queue (.ofBegin updRx_within), e.agreeOff_begin (by decide) framed, ?_⟩
      rw [e.hw, updRx_hw, State.begin_at, rxSearch_one, if_neg (by rw [none']; omega)]
      exact ⟨free, rfl, rfl, none', fun o ne => hitsOf_filter_ne miss ne⟩
  · rintro ⟨lock, fresh, long⟩
    refine answers_of_run (congrArg (ran s) (falseLock_eq (s := s.begin) lock fresh long)) fun t queue e => ?_
    refine ⟨e.keeps queue (.ofBegin (.trans updRx_within cntHw_within)), ?_⟩
    rw [e.hw, cntHw_hw, updRx_hw]
    exact ⟨rfl, rfl⟩
  · refine answers_of_run (u := updRx b (fun r => { r with excluded := none }) s.begin) rfl fun t queue e => ?_
    refine ⟨e.keeps queue (.ofBegin updRx_within), ?_⟩
    rw [e.hw, updRx_hw]
    rfl
  · rintro ⟨lock, bad⟩
    obtain ⟨v, rx, eq⟩ := lockLost_eq (s := s.begin) lock bad
    refine answers_of_run (congrArg (ran s) eq) fun t _ e => ?_
    rw [e.hw]
    by_cases up : (s.at b).hw.link = .up
    · rw [if_pos (by rw [State.begin_at, up]; rfl), if_pos up]
      obtain ⟨⟨_, _, _, kept⟩, -, lost⟩ := hwRetrain_trained (s := v) (b := b) (cause := 1)
      rw [rx] at kept lost
      exact ⟨congrArg HwRx.lock lost, congrArg HwRx.validTrain lost, congrArg HwRx.readyTrain lost, congrArg Hw.link kept, fun _ => congrArg Hw.lastCause kept⟩
    · rw [if_neg (by simpa using up), if_neg up, rx]
      exact ⟨rfl, rfl, rfl, rfl, fun yes => absurd yes up⟩
  · rintro f fs ⟨up, oldest⟩
    have eq := ackTimeout_eq (s := s.begin) up oldest
    refine ⟨fun more => ?_, fun ⟨over', other⟩ => ?_⟩
    · rw [if_neg (by exact Nat.not_lt.mpr more)] at eq
      refine answers_of_run (congrArg (ran s) eq) fun t queue e => ?_
      refine ⟨e.keeps queue (.ofBegin updTx_within), ?_⟩
      rw [e.hw, updTx_hw]
      rfl
    · rw [if_pos (by exact over'), if_neg (by simpa using other)] at eq
      refine answers_of_run (congrArg (ran s) eq) fun t _ e => ?_
      obtain ⟨⟨_, _, _, kept⟩, tx, -⟩ := hwRetrain_trained (s := updTx b (fun t => { t with blame := Option.some f.fseq }) s.begin) (b := b) (cause := 2)
      rw [updTx_hw] at kept tx
      rw [e.hw]
      exact ⟨congrArg Hw.link kept, congrArg Hw.lastCause kept, congrArg HwTx.blame tx, (congrArg HwTx.replayBuf tx).trans oldest⟩
  · intro tries
    refine answers_of_run (congrArg (ran s) (trainTimeout_eq (s := s.begin) tries)) fun t _ e => ?_
    rw [e.hw]
    exact trainFailed_fails (s := s.begin) tries
  · rintro tag o q ⟨used, owner, up, sent⟩
    refine answers_of_run (u := replyTimeout b tag.val s.begin) rfl fun t _ e => ?_
    rw [e.hw]
    exact replyTimeout_expires (s := s.begin) tag.isLt used owner up sent
  · rintro p x ⟨waits, on⟩
    have eq : freqResend b p.val s.begin = sendFreq b p.val x.2 s.begin := by
      unfold freqResend
      split
      case h_1 y found =>
        cases found.symm.trans waits
        exact if_pos (by rw [State.begin_at, on]; rfl)
      case h_2 found => exact nomatch found.symm.trans waits
    refine answers_of_run (congrArg (ran s) eq) fun t queue e => ?_
    refine ⟨e.keeps queue (.ofBegin sendFreq_within), ?_⟩
    rw [e.hw]
    exact sendFreq_sent (s := s.begin)

end Sys2Proof.Machine

/-! Received frames and the frame sent at each boundary (R303 to R306, R309, R315, R319). -/
namespace Sys2Proof.Machine
set_option Elab.async false

section
variable {s t u : State} {b : BId} {raw ws ps : List Word} {p0 : Word} {fill : Nat}

/-! ### Received frames (R304, R305, R309, R315) -/

/-- The receiver once it has descrambled a frame. -/
def heard (hist : BitVec 58) (r : HwRx) : HwRx := { r with hist := hist, sinceLock := if r.proven then r.sinceLock else r.sinceLock + 1 }

/-- The receiver of a frame whose marker stands. -/
def marked (hist : BitVec 58) (r : HwRx) : HwRx := { heard hist r with badMarkers := 0 }

/-- The receiver of a frame whose marker does not stand. -/
def unmarked (hist : BitVec 58) (r : HwRx) : HwRx := { heard hist r with badMarkers := r.badMarkers + 1 }

/-- The receiver of a CRC-valid frame. -/
def proved (hist : BitVec 58) (r : HwRx) : HwRx := { marked hist r with proven := true }

/-- Counts a frame that fails its CRC. -/
def crcCounted (c : HwCnt) : HwCnt := { c with crcErr := sinc c.crcErr }

/-- The counters with the elastic buffer's at n. -/
def elasticAt (n : Nat) (c : HwCnt) : HwCnt := { c with elastic := n }

/-- Counts a CRC-valid frame. -/
def rxfCounted (c : HwCnt) : HwCnt := { c with rxf := (c.rxf + 1) % 2 ^ 64 }

theorem frameReceive_asleep (asleep : s.dev.sleep = true) : frameReceive b raw fill s = s := by
  unfold frameReceive
  extract_lets
  exact if_pos (by simp [asleep])

/-- Berth b's link with another receiver and other counters, and nothing else changed but outputs. -/
def Receives (b : BId) (s t : State) (rx : HwRx) (cnt : HwCnt) : Prop := Within b s t ∧ (t.at b).hw = { (s.at b).hw with rx := rx, cnt := cnt }

theorem Receives.rx {r : HwRx} {c : HwCnt} {f : HwRx → HwRx} (a : Receives b s t r c) : Receives b s (updRx b f t) (f r) c := by
  obtain ⟨within, eq⟩ := a
  refine ⟨within.trans updRx_within, ?_⟩
  rw [updRx_hw, eq]

theorem Receives.cnt {r : HwRx} {c : HwCnt} {f : HwCnt → HwCnt} (a : Receives b s t r c) : Receives b s (cntHw b f t) r (f c) := by
  obtain ⟨within, eq⟩ := a
  refine ⟨within.trans cntHw_within, ?_⟩
  rw [cntHw_hw, eq]

theorem Receives.refl : Receives b s s (s.at b).hw.rx (s.at b).hw.cnt := ⟨.refl, rfl⟩

/-- A bad frame asks for a replay and counts that at most. -/
theorem Receives.badFrame {r : HwRx} {c : HwCnt} (a : Receives b s t r c) : ∃ n,
    Receives b s (badFrame b t) { r with validTrain := 0, readyTrain := 0, nakOut := true } { c with nakSent := n } := by
  have broken : Receives b s (trainBreak b t) { r with validTrain := 0, readyTrain := 0 } c := a.rx
  unfold Machine.badFrame setNak hwOf
  split
  case isTrue asked =>
    refine ⟨c.nakSent, ?_⟩
    obtain ⟨within, eq⟩ := broken
    rw [eq] at asked
    refine ⟨within, eq.trans ?_⟩
    dsimp only at asked
    rw [← asked]
  case isFalse => exact ⟨_, broken.rx.cnt⟩

/-- The elastic buffer counts what it deletes or inserts. -/
theorem Receives.elastic {r : HwRx} {c : HwCnt} {idle : Bool} (a : Receives b s t r c) : ∃ n,
    Receives b s (elastic b idle fill t) r (elasticAt n c) := by
  unfold Machine.elastic
  split
  case isTrue => exact ⟨sinc c.elastic, a.cnt⟩
  case isFalse => exact ⟨c.elastic, a⟩

theorem lane_on {h : Hw} (on : lane h = true) : h.link ≠ .off ∧ h.link ≠ .retired := by
  unfold lane at on
  cases link : h.link <;> simp_all

section
variable (lock : (s.at b).hw.rx.lock = true) (on : lane (s.at b).hw = true) (awake : s.dev.sleep = false)
  (words : ws = invert (bitAt (s.at b).hw.cfg 2) raw) (plain : ps = (scrambleAll false ((ws.drop 1).take 7) (s.at b).hw.rx.hist).1)
include lock on awake words plain

theorem frameReceive_unmarked (bad : (ws[0]?).getD 0 ≠ marker) : ∃ hist v,
    Receives b s v (unmarked hist (s.at b).hw.rx) (s.at b).hw.cnt ∧ frameReceive b raw fill s = badFrame b v := by
  subst words plain
  unfold frameReceive
  extract_lets h ws dp ps p0 s1 s2 s3 s4
  have hears : Receives b s s1 (heard dp.2 (s.at b).hw.rx) (s.at b).hw.cnt := Receives.refl.rx (f := heard dp.2)
  have counts : Receives b s _ (unmarked dp.2 (s.at b).hw.rx) (s.at b).hw.cnt := hears.rx (f := fun r => { r with badMarkers := r.badMarkers + 1 })
  refine ⟨_, _, counts, ?_⟩
  rw [if_neg (by simp [h, hwOf, lock, awake, lane_on on]), if_pos (show ((ws[0]?).getD 0 != marker) = true from bne_iff_ne.mpr bad)]

theorem frameReceive_corrupt (good : (ws[0]?).getD 0 = marker) (bad : (ws[8]?).getD 0 ≠ crc32 (wordsBytes ps)) : ∃ hist v,
    Receives b s v (marked hist (s.at b).hw.rx) (crcCounted (s.at b).hw.cnt) ∧ frameReceive b raw fill s = badFrame b v := by
  subst words plain
  unfold frameReceive
  extract_lets h ws dp ps p0 s1 s2 s3 s4
  have hears : Receives b s s1 (heard dp.2 (s.at b).hw.rx) (s.at b).hw.cnt := Receives.refl.rx (f := heard dp.2)
  have marks : Receives b s s2 (marked dp.2 (s.at b).hw.rx) (s.at b).hw.cnt := hears.rx
  have counts := marks.cnt (f := crcCounted)
  refine ⟨_, _, counts, ?_⟩
  rw [if_neg (by simp [h, hwOf, lock, awake, lane_on on]), if_neg (show ¬((ws[0]?).getD 0 != marker) = true by rw [bne_iff_ne, not_not]; exact good), if_pos (show ((ws[8]?).getD 0 != crc32 (wordsBytes ps)) = true from bne_iff_ne.mpr bad)]
  rfl

theorem frameReceive_valid (good : (ws[0]?).getD 0 = marker) (crc : (ws[8]?).getD 0 = crc32 (wordsBytes ps)) : ∃ hist n v,
    Receives b s v (proved hist (s.at b).hw.rx) (elasticAt n (rxfCounted (s.at b).hw.cnt))
      ∧ frameReceive b raw fill s = if frameReserved ((ps[0]?).getD 0) ((ps[1]?).getD 0) then badFrame b (protoErr b v) else goodFrame b ps v := by
  subst words plain
  unfold frameReceive
  extract_lets h ws dp ps p0 s1 s2 s3 s4
  have hears : Receives b s s1 (heard dp.2 (s.at b).hw.rx) (s.at b).hw.cnt := Receives.refl.rx (f := heard dp.2)
  have marks : Receives b s s2 (marked dp.2 (s.at b).hw.rx) (s.at b).hw.cnt := hears.rx
  have counts : Receives b s s3 (proved dp.2 (s.at b).hw.rx) (rxfCounted (s.at b).hw.cnt) := marks.rx.cnt (f := rxfCounted)
  obtain ⟨n, buffered⟩ := counts.elastic (idle := fld p0 3 0 == 0) (fill := fill)
  refine ⟨_, n, s4, buffered, ?_⟩
  rw [if_neg (by simp [h, hwOf, lock, awake, lane_on on]), if_neg (show ¬((ws[0]?).getD 0 != marker) = true by rw [bne_iff_ne, not_not]; exact good), if_neg (show ¬((ws[8]?).getD 0 != crc32 (wordsBytes ps)) = true by rw [bne_iff_ne, not_not]; exact crc)]
  rfl

end

/-! ### The next frame in sequence (R314, R315) -/

/-- What taking a message's frame may change of a link: the message under assembly, the receive queue, the count of malformed frames. -/
def Assembles (b : BId) (s t : State) : Prop := ∃ asm queue n, Receives b s t { (s.at b).hw.rx with asm := asm, queue := queue } { (s.at b).hw.cnt with proto := n }

theorem Assembles.of_receives {r : HwRx} {c : HwCnt} (a : Receives b s t r c) (e : Assembles b t u) : ∃ asm queue n,
    Receives b s u { r with asm := asm, queue := queue } { c with proto := n } := by
  obtain ⟨within, eq⟩ := a
  obtain ⟨asm, queue, n, within', eq'⟩ := e
  refine ⟨asm, queue, n, within.trans within', ?_⟩
  rw [eq', eq]

theorem Assembles.refl : Assembles b s s := ⟨_, _, _, Receives.refl⟩

theorem Assembles.proto (a : Assembles b s t) : Assembles b s (protoErr b t) := by
  obtain ⟨_, _, _, rec⟩ := a
  exact ⟨_, _, _, rec.cnt⟩

theorem Assembles.discard (a : Assembles b s t) : Assembles b s (updRx b (fun r => { r with asm := none }) t) := by
  obtain ⟨_, _, _, rec⟩ := a
  exact ⟨_, _, _, rec.rx⟩

theorem Assembles.completes {m : RxMsg} (a : Assembles b s t) : Assembles b s (updRx b (rxComplete m) t) := by
  obtain ⟨_, queue, _, rec⟩ := a
  by_cases full : m.data.length ≥ m.len
  · have eq : rxComplete m = fun r => { r with asm := none, queue := r.queue ++ [{ m with data := m.data.take m.len }] } := funext fun _ => if_pos full
    rw [eq]
    exact ⟨_, _, _, rec.rx⟩
  · have eq : rxComplete m = fun r => { r with asm := Option.some m } := funext fun _ => if_neg full
    rw [eq]
    exact ⟨_, _, _, rec.rx⟩

theorem rxHeader_assembles {kind : Nat} : Assembles b s (rxHeader b kind ps s) := by
  unfold rxHeader
  extract_lets p s1 m
  have before : Assembles b s s1 := by
    unfold s1
    split
    · exact Assembles.refl.discard.proto
    · exact .refl
  split
  · exact before.proto
  · exact before.completes

theorem rxData_assembles : Assembles b s (rxData b ps s) := by
  unfold rxData
  split
  · exact Assembles.refl.proto
  · exact Assembles.refl.completes

/-- The receiver once it has taken the frame with sequence number fseq. -/
def inSequence (fseq : Nat) (r : HwRx) : HwRx := { r with last := fseq, nakOut := false }

/-- The next frame in sequence is taken where the window is open. -/
theorem seqFrame_next (next : fld ((ps[0]?).getD 0) 15 8 = ((s.at b).hw.rx.last + 1) % 256) (room : 0 < window (s.at b).hw.rx) : ∃ asm queue n,
    Receives b s (seqFrame b ps s) { inSequence (fld ((ps[0]?).getD 0) 15 8) (s.at b).hw.rx with asm := asm, queue := queue } { (s.at b).hw.cnt with proto := n } := by
  unfold seqFrame
  extract_lets p0 fseq r d s1
  have taken : Receives b s s1 (inSequence fseq (s.at b).hw.rx) (s.at b).hw.cnt := Receives.refl.rx (f := inSequence fseq)
  have first : d = 0 := by
    unfold d fseq r hwOf
    rw [next]
    omega
  rw [if_pos (by rw [first]; simpa [r, hwOf] using room)]
  refine Assembles.of_receives taken ?_
  split
  · exact rxData_assembles
  · exact Assembles.refl.discard.proto
  · exact rxHeader_assembles

/-- The header of a frame that asks for no replay. -/
theorem takeHeader_ack {p0 : Word} (calm : bitAt p0 4 = false) : ∃ tx, Within b s (takeHeader b p0 s) ∧ ((takeHeader b p0 s).at b).hw = { (s.at b).hw with tx := tx }
    ∧ tx.acked = fld p0 23 16 ∧ tx.remoteWin = fld p0 30 24 := by
  unfold takeHeader ackTo
  extract_lets ack nak s1 h go s2
  rw [if_neg (by simp [go, nak, calm])]
  have acks : ∃ tx, (s1.at b).hw = { (s.at b).hw with tx := tx } ∧ tx.acked = ack ∧ tx.remoteWin = fld p0 30 24 := by
    unfold s1
    rw [updTx_hw, updTx_hw]
    exact ⟨_, rfl, rfl, rfl⟩
  obtain ⟨tx, eq, acked, win⟩ := acks
  have noted := updTx_hw (s := s1) (b := b) (f := fun t => { t with nakSeen := nak, nakAck := if (go || !nak || !t.nakSeen) = true then ack else t.nakAck })
  rw [eq] at noted
  exact ⟨_, .trans (.trans updTx_within updTx_within) updTx_within, noted, acked, win⟩

/-- The next sequenced frame on an UP link: its header is taken and its message continued. -/
theorem goodFrame_next (up : (s.at b).hw.link = .up) (ty : 2 ≤ fld ((ps[0]?).getD 0) 3 0) (calm : bitAt ((ps[0]?).getD 0) 4 = false)
    (next : fld ((ps[0]?).getD 0) 15 8 = ((s.at b).hw.rx.last + 1) % 256) (room : 0 < window (s.at b).hw.rx) : ∃ tx asm queue n,
    Within b s (goodFrame b ps s) ∧ ((goodFrame b ps s).at b).hw = { (s.at b).hw with
      rx := { inSequence (fld ((ps[0]?).getD 0) 15 8) (s.at b).hw.rx with asm := asm, queue := queue }, tx := tx, cnt := { (s.at b).hw.cnt with proto := n } }
      ∧ tx.acked = fld ((ps[0]?).getD 0) 23 16 ∧ tx.remoteWin = fld ((ps[0]?).getD 0) 30 24 := by
  obtain ⟨tx, within, eq, acked, win⟩ := takeHeader_ack (s := s) (b := b) calm
  obtain ⟨asm, queue, n, within', eq'⟩ := seqFrame_next (s := takeHeader b ((ps[0]?).getD 0) s) (b := b) (by rw [eq]; exact next) (by rw [eq]; exact room)
  have same : goodFrame b ps s = seqFrame b ps (takeHeader b ((ps[0]?).getD 0) s) := by
    unfold goodFrame
    extract_lets p0 s1 h s2
    have open' : h.link = .up := by
      unfold h hwOf s1 p0
      rw [eq]
      exact up
    have stays : s2 = s1 := if_neg (by simp [open'])
    rw [if_neg (by rw [beq_iff_eq]; unfold p0; omega), if_neg (by rw [beq_iff_eq]; unfold p0; omega), stays]
  rw [same]
  refine ⟨tx, asm, queue, n, within.trans within', ?_, acked, win⟩
  rw [eq', eq]

/-! ### The frame sent at each boundary (R303 to R305, R310, R316, R319) -/

theorem scrambleAll_length {tx : Bool} {ws : List Word} {h : BitVec 58} : (scrambleAll tx ws h).1.length = ws.length := by
  induction ws generalizing h with
  | nil => rfl
  | cons w ws ih => exact congrArg (· + 1) ih

theorem invert_length {inv : Bool} : (invert inv ws).length = ws.length := by
  unfold invert
  split
  · exact List.length_map _
  · rfl

theorem invert_head {inv : Bool} {w : Word} : (invert inv (w :: ws)).head? = some (if inv then ~~~ w else w) := by
  cases inv <;> rfl

/-- Berth b has sent one frame of n words. -/
structure Sent (b : BId) (n : Nat) (s t : State) : Prop where
  within : Within b s t
  counts : (t.at b).hw.cnt.txf = ((s.at b).hw.cnt.txf + 1) % 2 ^ 64
  frame : ∃ ws, t.out = s.out ++ [.frame b ws] ∧ ws.head? = some (if bitAt (s.at b).hw.cfg 1 then ~~~ marker else marker) ∧ ws.length = n

theorem sendFrame_sent {ftype fseq : Nat} {ready : Bool} {body : List Word} : Sent b (body.length + 3) s (sendFrame b ftype fseq ready body s) := by
  unfold sendFrame
  extract_lets h ps sc s1 s2
  have counts : ((s2.emit (.frame b (invert (bitAt h.cfg 1) (marker :: sc.1 ++ [crc32 (wordsBytes ps)])))).at b).hw.cnt.txf = ((s.at b).hw.cnt.txf + 1) % 2 ^ 64 := by
    rw [State.emit_at]
    unfold s2 s1
    rw [cntHw_hw, updTx_hw]
  refine ⟨.trans (.trans updTx_within cntHw_within) .emit, counts, invert (bitAt h.cfg 1) (marker :: (sc.1 ++ [crc32 (wordsBytes ps)])), rfl, invert_head, ?_⟩
  rw [invert_length, List.length_cons, List.length_append, scrambleAll_length, List.length_cons]
  rfl

/-- What precedes a frame leaves the configuration, the count and the outputs. -/
theorem Sent.after {n : Nat} (within : Within b s t) (cfg : (t.at b).hw.cfg = (s.at b).hw.cfg) (cnt : (t.at b).hw.cnt.txf = (s.at b).hw.cnt.txf)
    (out : t.out = s.out) (sent : Sent b n t u) : Sent b n s u := by
  obtain ⟨within', counts, frame⟩ := sent
  rw [cnt] at counts
  rw [cfg, out] at frame
  exact ⟨within.trans within', counts, frame⟩

theorem Sent.afterTx {n : Nat} {f : HwTx → HwTx} (sent : Sent b n (updTx b f s) u) : Sent b n s u :=
  .after updTx_within (by rw [updTx_hw]) (by rw [updTx_hw]) rfl sent

theorem sendNew_sent : ∃ n, Sent b n s (sendNew b s) := by
  unfold sendNew
  extract_lets t0 t
  split
  · exact ⟨_, sendFrame_sent⟩
  · split
    · exact ⟨_, sendFrame_sent⟩
    · exact ⟨_, .afterTx sendFrame_sent⟩

theorem sendReplay_sent {i : Nat} : ∃ n, Sent b n s (sendReplay b i s) := by
  unfold sendReplay
  extract_lets t
  split
  · obtain ⟨n, sent⟩ := sendNew_sent (s := updTx b (fun t => { t with replayPos := none }) s) (b := b)
    exact ⟨n, .afterTx sent⟩
  · split
    · exact ⟨_, sendFrame_sent⟩
    · exact ⟨_, .afterTx (.after cntHw_within (by rw [cntHw_hw]) (by rw [cntHw_hw]) rfl sendFrame_sent)⟩

theorem txBoundary_off (off : (s.at b).hw.tx.on = false) : txBoundary b s = s := by
  unfold txBoundary
  extract_lets h
  exact if_pos (by simp [h, hwOf, off])

theorem txBoundary_asleep (asleep : s.dev.sleep = true) : txBoundary b s = s := by
  unfold txBoundary
  extract_lets h
  exact if_pos (by simp [asleep])

theorem txBoundary_sent (on : (s.at b).hw.tx.on = true) (awake : s.dev.sleep = false) : ∃ n, Sent b n s (txBoundary b s) ∧ ((s.at b).hw.link ≠ .up → n = 9) := by
  unfold txBoundary
  extract_lets h
  rw [if_neg (by simp [h, hwOf, on, awake])]
  split
  case isTrue => exact ⟨_, sendFrame_sent, fun _ => rfl⟩
  case isFalse up =>
    have isUp : (s.at b).hw.link = .up := by simpa [h, hwOf] using up
    have any : ∀ {t}, (∃ n, Sent b n s t) → ∃ n, Sent b n s t ∧ ((s.at b).hw.link ≠ .up → n = 9) :=
      fun ⟨n, sent⟩ => ⟨n, sent, fun no => absurd isUp no⟩
    apply any
    split
    · exact ⟨_, .afterTx sendFrame_sent⟩
    · split
      · exact ⟨_, sendFrame_sent⟩
      · split
        · exact sendReplay_sent
        · exact sendNew_sent

end

/-- Settles O36: a received frame is judged by its marker, CRC, reserved bits and sequence, and each boundary sends one frame. -/
theorem frames : Obligations.Frames := by
  unfold Obligations.Frames
  refine fun s b raw fill ws ps p0 => ⟨fun asleep i mem => ?_, ?_, ?_, fun off => ?_⟩
  · fin_cases mem
    · refine answers_of_run (u := s.begin) (congrArg (ran s) (frameReceive_asleep (s := s.begin) asleep)) fun t _ e => ?_
      exact e.agreeOff_begin (by decide) .refl
    · refine answers_of_run (u := s.begin) (congrArg (ran s) (txBoundary_asleep (s := s.begin) asleep)) fun t _ e => ?_
      exact e.agreeOff_begin (by decide) .refl
  · rintro ⟨awake, lock, on, words, plain, rfl⟩
    refine ⟨fun bad => ?_, fun ⟨good, bad⟩ => ?_, fun ⟨good, crc, reserved⟩ => ?_, fun ⟨good, crc, up, ty, calm, clean, next, room⟩ => ?_⟩
    · obtain ⟨hist, v, heard, eq⟩ := frameReceive_unmarked (s := s.begin) (fill := fill.val) lock on awake words plain bad
      refine answers_of_run (congrArg (ran s) eq) fun t queue e => ?_
      obtain ⟨n, within, hw⟩ := heard.badFrame
      refine ⟨e.keeps queue (.ofBegin within), ?_⟩
      rw [e.hw, hw]
      exact ⟨rfl, rfl, rfl, rfl⟩
    · obtain ⟨hist, v, heard, eq⟩ := frameReceive_corrupt (s := s.begin) (fill := fill.val) lock on awake words plain good bad
      refine answers_of_run (congrArg (ran s) eq) fun t queue e => ?_
      obtain ⟨n, within, hw⟩ := heard.badFrame
      refine ⟨e.keeps queue (.ofBegin within), ?_⟩
      rw [e.hw, hw]
      exact ⟨rfl, rfl, rfl, rfl, rfl⟩
    · obtain ⟨hist, m, v, heard, eq⟩ := frameReceive_valid (s := s.begin) (fill := fill.val) lock on awake words plain good crc
      rw [if_pos reserved] at eq
      refine answers_of_run (congrArg (ran s) eq) fun t queue e => ?_
      obtain ⟨n, within, hw⟩ := Receives.badFrame (t := protoErr b v) heard.cnt
      refine ⟨e.keeps queue (.ofBegin within), ?_⟩
      rw [e.hw, hw]
      exact ⟨rfl, rfl, rfl, rfl⟩
    · obtain ⟨hist, m, v, heard, eq⟩ := frameReceive_valid (s := s.begin) (fill := fill.val) lock on awake words plain good crc
      rw [if_neg (by rw [clean]; decide)] at eq
      refine answers_of_run (congrArg (ran s) eq) fun t queue e => ?_
      obtain ⟨within, hw⟩ := heard
      obtain ⟨tx, asm, q, n, within', hw', acked, win⟩ := goodFrame_next (s := v) (b := b) (ps := ps) (by rw [hw]; exact up) ty calm (by rw [hw]; exact next) (by rw [hw]; exact room)
      refine ⟨e.keeps queue (.ofBegin (within.trans within')), ?_⟩
      rw [e.hw, hw', hw]
      exact ⟨rfl, rfl, rfl, acked, win, rfl⟩
  · rintro ⟨on, awake⟩
    obtain ⟨n, ⟨within, counts, fs, out, head, length⟩, nine⟩ := txBoundary_sent (s := s.begin) (b := b) on awake
    refine answers_of_run (u := txBoundary b s.begin) rfl fun t queue e => ?_
    refine ⟨e.keeps queue (.ofBegin within), ?_, fs, e.out.trans out, head, fun down => length.trans (nine down)⟩
    rw [e.hw]
    exact counts
  · refine answers_of_run (u := s.begin) (congrArg (ran s) (txBoundary_off (s := s.begin) off)) fun t _ e => ?_
    exact ⟨e.agreeOff_begin (by decide) .refl, e.out⟩

end Sys2Proof.Machine

/-! The messages at the front of the receive queue, mailbox orders and the queues HW_CPL and HW_EVQ (R318, R321 to R323, R325, R331, R332). -/
namespace Sys2Proof.Machine
set_option Elab.async false

theorem Answers.imp {s : State} {i : Instr} {P Q : State → Prop} (a : Answers i s P) (h : ∀ t, P t → Q t) : Answers i s Q := by
  obtain ⟨t, run, p⟩ := a
  exact ⟨t, run, h t p⟩

section
variable {s t u : State} {b : BId} {m : RxMsg} {o : Order} {req : ReqId}

/-! ### A REPLY (R323, R325) -/

theorem rxPop_hw : ((rxPop b s).at b).hw = { (s.at b).hw with rx := { (s.at b).hw.rx with queue := (s.at b).hw.rx.queue.drop 1 } } := updRx_hw

theorem replyReceive_eq (front : rxFront (s.at b).hw 3 = some m) : replyReceive b s = replyTo b m (rxPop b s) := by
  unfold replyReceive
  split
  case h_1 n eq => cases eq.symm.trans front; rfl
  case h_2 eq => exact nomatch eq.symm.trans front

theorem replyTo_used (used : vget (s.at b).hw.tags m.tag = .used o) :
    replyTo b m s = if replyFits o m then tagsMoved b (complete b m.tag o false m.status m.data s) else protoErr b s := by
  unfold replyTo
  split
  case h_1 n eq => cases eq.symm.trans used; rfl
  case h_2 eq => exact nomatch eq.symm.trans used
  case h_3 no _ => exact absurd used (no o)

/-- The tag of a quarantined mailbox order ends, and its late reply is counted. -/
def lateReply (tag : Nat) (r : ReqId) (h : Hw) : Hw :=
  { h with tags := vset h.tags tag (.done r), cnt := { h.cnt with late := sinc h.cnt.late } }

theorem replyTo_late {r : ReqId} (late : vget (s.at b).hw.tags m.tag = .quarantined (some r)) : ∃ v,
    (v.at b).hw = lateReply m.tag r (s.at b).hw ∧ replyTo b m s = tagsMoved b v := by
  unfold replyTo
  split
  case h_1 n eq => exact nomatch eq.symm.trans late
  case h_2 u eq =>
    cases eq.symm.trans late
    refine ⟨_, ?_, rfl⟩
    rw [cntHw_hw, updHw_hw]
    rfl
  case h_3 no => exact absurd late (no _)

/-- A tag that ended and its entry stay while others move. -/
theorem tagsMoved_keeps {tag : Nat} {r : ReqId} (done : vget (s.at b).hw.tags tag = .done r) :
    vget ((tagsMoved b s).at b).hw.tags tag = .done r ∧ ((tagsMoved b s).at b).hw.cpl = (s.at b).hw.cpl
      ∧ ((tagsMoved b s).at b).hw.rx = (s.at b).hw.rx ∧ ((tagsMoved b s).at b).hw.cnt = (s.at b).hw.cnt := by
  obtain ⟨⟨_, _, _, _, kept⟩, -, busy, -⟩ := tagsMoved_issues (b := b) (Issues.refl (s := s))
  refine ⟨(busy tag (by rw [done]; rfl)).trans done, ?_, ?_, ?_⟩
  · rw [kept]
  · rw [kept]
  · rw [kept]

/-- A mailbox order that a REPLY completes: its tag is done, its entry is in HW_CPL. -/
theorem complete_reply {r : ReqId} {tag status : Nat} {d : List Byte} (owner : o.owner = .mailbox r) :
    ((complete b tag o false status d s).at b).hw = { (s.at b).hw with
      tags := vset (s.at b).hw.tags tag (.done r), cpl := (s.at b).hw.cpl ++ [⟨tag, status, if status == 0 then d.length else 0, r⟩] } := by
  obtain ⟨v, same, eq⟩ := complete_mailbox (s := s) (b := b) (tag := tag) (status := status) (d := d) (timeout := false) owner
  rw [eq, pushCpl_hw, same, endTag_mailbox owner]
  rfl

/-! ### An EVENT (R318, R332) -/

theorem irq_pends {bit : Nat} (small : bit < 32) : bitAt ((irq b bit s).at b).pl.irqPend bit = true := by
  unfold irq bitAt
  rw [State.updPl_at, if_pos rfl]
  simp [small]

theorem eventReceive_full (full : 32 ≤ (s.at b).hw.evq.length) : eventReceive b s = s := by
  unfold eventReceive
  split
  case h_1 => rfl
  case h_2 => exact if_pos full

section
variable (front : rxFront (s.at b).hw 4 = some m)
include front

theorem eventReceive_waits (room : (s.at b).hw.evq.length < 32) (refused : (deckAlloc b 0 false s).1 = none) : eventReceive b s = (deckAlloc b 0 false s).2 := by
  unfold eventReceive
  split
  case h_1 eq => exact nomatch eq.symm.trans front
  case h_2 =>
    rw [if_neg (show ¬(hwOf s b).evq.length ≥ 32 from Nat.not_le.mpr room)]
    split
    case h_1 t eq => rw [eq]
    case h_2 g t eq => rw [eq] at refused; exact nomatch refused

theorem eventReceive_enters {g : Nat} (room : (s.at b).hw.evq.length < 32) (given : (deckAlloc b 0 false s).1 = some g) : ∃ v,
    (v.at b).hw = { (s.at b).hw with rx := { (s.at b).hw.rx with queue := (s.at b).hw.rx.queue.drop 1 }, evq := (s.at b).hw.evq ++ [⟨m.op, g % 512, m.len⟩] }
      ∧ eventReceive b s = irq b 3 v := by
  unfold eventReceive
  split
  case h_1 eq => exact nomatch eq.symm.trans front
  case h_2 n eq =>
    cases eq.symm.trans front
    rw [if_neg (show ¬(hwOf s b).evq.length ≥ 32 from Nat.not_le.mpr room)]
    split
    case h_1 t eq => rw [eq] at given; exact nomatch given
    case h_2 g' t eq =>
      rw [eq] at given
      cases given
      refine ⟨_, ?_, rfl⟩
      have kept : (t.at b).hw = (s.at b).hw := (deckAlloc_touch_eq (fs := [.freeCtr, .dk]) sub_self eq .refl).at_hw (by decide) b
      rw [updHw_hw, Touch.at_hw (bufWrite_touch sub_self .refl) (by decide) b, rxPop_hw, kept]

end

/-! ### The mailbox (R331) -/

/-- A mailbox with the result of an order. -/
def resultOf (tag : Option Nat) (code : Nat) (m : Mailbox) : Mailbox := { m with resTag := tag.getD 0, resAcc := tag.isSome, resCode := code }

theorem ordResult_hw {tag : Option Nat} {code : Nat} :
    ((ordResult b req tag code s).at b).hw = { (s.at b).hw with mbox := vmod (s.at b).hw.mbox req.val (resultOf tag code) } := updHw_hw

theorem mboxOf_ordResult {tag : Option Nat} {code : Nat} : mboxOf (ordResult b req tag code s) b req = resultOf tag code (mboxOf s b req) := by
  unfold mboxOf hwOf
  rw [ordResult_hw]
  exact vget_vmod_self req.isLt

/-- The end of a mailbox order: its result, and the tags the link has then. -/
theorem ordResult_answers {tag : Option Nat} {code : Nat} (framed : Touch [.hw] s.begin u) (bus : Touch [.sy] (ordResult b req tag code u) t) :
    AgreeOff [.out, .sy, .hw] s t ∧ mboxOf t b req = resultOf tag code (mboxOf u b req) ∧ (t.at b).hw.tags = (u.at b).hw.tags := by
  have same : (t.at b).hw = ((ordResult b req tag code u).at b).hw := bus.at_hw (by decide) b
  have whole : Touch [.out, .sy, .hw] s.begin t := .trans (ordResult_touch (by decide) (framed.mono (by decide))) (bus.mono (by decide))
  refine ⟨whole.agreeOff_begin, ?_, ?_⟩
  · rw [← mboxOf_ordResult]
    unfold mboxOf hwOf
    rw [same]
  · rw [same, ordResult_hw]

/-- The order built from a mailbox. -/
def mailOrder (s : State) (b : BId) (req : ReqId) (op : OrdOp) (len : Nat) : Order :=
  let m := mboxOf s b req
  let rw := op == .read || op == .write
  { op := op, owner := .mailbox req, addr := if rw then m.addrLo.toNat + 2 ^ 32 * fld m.addrHi 7 0 else 0
    len := if rw then len else 0, buf := fld m.buf 8 0
    data := if op == .write then bufRead s (512 * b.val + fld m.buf 8 0) len else []
    args := if op == .ctrl then m.arg.toList else [] }

/-- Whether a mailbox order's length fits its operation. -/
def lenFits (op : OrdOp) (len : Nat) : Bool := if op == .read || op == .write then decide (1 ≤ len ∧ len ≤ 256) else len == 0

section
variable {op : OrdOp} {len : Nat}

theorem mailboxOrder_shut (shut : linkOpen (s.at b).hw = false) : mailboxOrder b req op len s = ordResult b req none 2 s := by
  unfold mailboxOrder
  extract_lets
  exact if_pos (by simp [hwOf, shut])

section
variable (isOpen : linkOpen (s.at b).hw = true)
include isOpen

theorem mailboxOrder_bad (bad : lenFits op len = false ∨ op = .freq) : mailboxOrder b req op len s = ordResult b req none 3 s := by
  unfold mailboxOrder
  extract_lets m rw lenOk
  rw [if_neg (by simp [hwOf, isOpen]), if_pos]
  rcases bad with bad | bad
  · simp [show lenOk = false from bad]
  · simp [bad]

theorem mailboxOrder_issues (fits : lenFits op len = true) (known : op ≠ .freq) (deck : (s.at b).dk.inDeck = true ∨ op = .ctrl) :
    mailboxOrder b req op len s = match issue b (mailOrder s b req op len) s with
      | (some t, u) => ordResult b req (some t) 0 u
      | (none, u) => ordResult b req none 1 u := by
  unfold mailboxOrder
  extract_lets m rw lenOk buf o
  rw [if_neg (by simp [hwOf, isOpen]), if_neg]
  · rfl
  · rw [show lenOk = true from fits]
    rcases deck with deck | deck
    · simp [deck, known]
    · simp [rw, deck]

end
end
section
variable {op : OrdOp} {len : Nat} (isOpen : linkOpen (s.at b).hw = true) (fits : lenFits op len = true) (known : op ≠ .freq)
  (deck : (s.at b).dk.inDeck = true ∨ op = .ctrl)
include isOpen fits known deck

theorem mailboxOrder_taken {g : Nat} (free : tagFor (s.at b).hw (.mailbox req) = some g) :
    mailboxOrder b req op len s = ordResult b req (some g) 0 (s.updHw b (enqueue g (mailOrder s b req op len))) := by
  rw [mailboxOrder_issues isOpen fits known deck, issue, show tagFor (s.at b).hw (mailOrder s b req op len).owner = some g from free]

theorem mailboxOrder_noTag (full : tagFor (s.at b).hw (.mailbox req) = none) : mailboxOrder b req op len s = ordResult b req none 1 s := by
  rw [mailboxOrder_issues isOpen fits known deck, issue, show tagFor (s.at b).hw (mailOrder s b req op len).owner = none from full]

end

/-- The order that each of the four mailbox instructions gives. -/
inductive MailCode (b : BId) (req : ReqId) (len : Fin 512) : Instr → OrdOp → Prop
  | read : MailCode b req len (.mailboxRead b req len) .read
  | write : MailCode b req len (.mailboxWrite b req len) .write
  | ctrl : MailCode b req len (.mailboxCtrl b req len) .ctrl
  | freq : MailCode b req len (.mailboxFreq b req len) .freq

section
variable {i : Instr} {op : OrdOp} {len : Fin 512} {P : State → Prop} (code : MailCode b req len i op) (pass : WritePasses s req (some b) 0x4044)
include code pass

theorem answers_mailbox (h : ∀ t, Touch [.sy] (mailboxOrder b req op len.val s.begin) t → P t) : Answers i s P := by
  cases code
  · exact answers_viaBus (act := mailboxOrder b req .read len.val) pass rfl h
  · exact answers_viaBus (act := mailboxOrder b req .write len.val) pass rfl h
  · exact answers_viaBus (act := mailboxOrder b req .ctrl len.val) pass rfl h
  · exact answers_viaBus (act := mailboxOrder b req .freq len.val) pass rfl h

/-- A mailbox order that is refused leaves its result and takes no tag. -/
theorem answers_mailbox_refused {res : Nat} (eq : mailboxOrder b req op len.val s.begin = ordResult b req none res s.begin) : Answers i s fun t =>
    AgreeOff [.out, .sy, .hw] s t ∧ (mboxOf t b req).resCode = res ∧ (mboxOf t b req).resAcc = false ∧ (t.at b).hw.tags = (s.at b).hw.tags := by
  refine answers_mailbox code pass fun t bus => ?_
  rw [eq] at bus
  obtain ⟨framed, box, tags⟩ := ordResult_answers .refl bus
  rw [box]
  exact ⟨framed, rfl, rfl, tags⟩

/-- A mailbox order that takes a tag leaves it as its result and is issued under it. -/
theorem answers_mailbox_taken {g : Nat} (isOpen : linkOpen (s.at b).hw = true) (fits : lenFits op len.val = true) (known : op ≠ .freq)
    (deck : (s.at b).dk.inDeck = true ∨ op = .ctrl) (free : tagFor (s.at b).hw (.mailbox req) = some g) : Answers i s fun t =>
    AgreeOff [.out, .sy, .hw] s t ∧ (mboxOf t b req).resCode = 0 ∧ (mboxOf t b req).resAcc = true ∧ (mboxOf t b req).resTag = g
      ∧ vget (t.at b).hw.tags g = .used (mailOrder s b req op len.val) := by
  refine answers_mailbox code pass fun t bus => ?_
  rw [mailboxOrder_taken (s := s.begin) isOpen fits known deck free] at bus
  obtain ⟨framed, box, tags⟩ := ordResult_answers (State.updHw_touch sub_self .refl) bus
  rw [box, tags, updHw_hw]
  obtain ⟨_, _, _, eq⟩ := enqueue_eq (h := (s.at b).hw) (i := g) (o := mailOrder s b req op len.val)
  refine ⟨framed, rfl, rfl, rfl, ?_⟩
  rw [show enqueue g (mailOrder s.begin b req op len.val) (s.begin.at b).hw = _ from eq]
  exact vget_vset_self (tagFor_free free).1

end

/-! ### HW_CPL and HW_EVQ (R331, R332) -/

theorem cplRead_none (empty : (s.at b).hw.cpl = []) : cplRead b s = (0, s) := by
  unfold cplRead
  split
  case h_1 => rfl
  case h_2 eq => exact nomatch eq.symm.trans empty

theorem evqRead_none (empty : (s.at b).hw.evq = []) : evqRead b req s = (0, s) := by
  unfold evqRead
  split
  case h_1 => rfl
  case h_2 eq => exact nomatch eq.symm.trans empty

theorem cplRead_first {c : Cpl} {cs : List Cpl} (front : (s.at b).hw.cpl = c :: cs) : ∃ v, (v.at b).hw.cpl = cs ∧ cplRead b s =
    (pack [(c.tag, 0, 6), (1, 6, 1), (c.status, 8, 8), (c.len, 16, 9), (c.req.val, 28, 4)], tagsMoved b v) := by
  unfold cplRead
  split
  case h_1 eq => exact nomatch eq.symm.trans front
  case h_2 eq =>
    cases eq.symm.trans front
    refine ⟨_, ?_, rfl⟩
    rw [updHw_hw]

theorem tagsMoved_cpl : ((tagsMoved b s).at b).hw.cpl = (s.at b).hw.cpl := by
  obtain ⟨⟨_, _, _, _, kept⟩, -, -, -⟩ := tagsMoved_issues (b := b) (Issues.refl (s := s))
  rw [kept]

theorem evqRead_first {e : Evt} {es : List Evt} (front : (s.at b).hw.evq = e :: es) : ∃ v,
    evqRead b req s = (pack [(e.code, 0, 8), (1, 8, 1), (e.buf, 9, 9), (e.len, 18, 9)], v) ∧ v.out = s.out ∧ Touch [.hw, .dk] s v
      ∧ (v.at b).hw = { (s.at b).hw with evq := es } ∧ (e.buf, req) ∈ (v.at b).dk.handed := by
  unfold evqRead
  split
  case h_1 eq => exact nomatch eq.symm.trans front
  case h_2 eq =>
    cases eq.symm.trans front
    refine ⟨_, rfl, rfl, State.updDk_touch (by decide) (State.updHw_touch (by decide) .refl), ?_, ?_⟩
    · rw [Touch.at_hw (State.updDk_touch sub_self .refl) (by decide) b, updHw_hw]
    · rw [State.updDk_at, if_pos rfl]
      exact List.mem_cons_self

end

/-- Settles O37: replies and events at the front of the receive queue, mailbox orders, and the reads of both queues. -/
theorem messagesAndMailbox : Obligations.MessagesAndMailbox := by
  unfold Obligations.MessagesAndMailbox
  refine ⟨fun s b m => ⟨?_, fun front => ⟨?_, fun full => ?_, ?_⟩⟩, fun s b req len => ⟨fun pass => ⟨fun i mem shut => ?_, fun isOpen => ?_, ?_, ?_⟩, ?_, ?_⟩⟩
  · rintro ⟨front, small⟩
    have reply := replyReceive_eq (s := s.begin) front
    refine ⟨?_, ?_, fun q late => ?_⟩
    · rintro o q ⟨used, owner, fits⟩
      rw [replyTo_used (s := rxPop b s.begin) (o := o) (by rw [rxPop_hw]; exact used), if_pos fits] at reply
      refine answers_of_run (congrArg (ran s) reply) fun t _ e => ?_
      have done := complete_reply (s := rxPop b s.begin) (b := b) (tag := m.tag) (status := m.status) (d := m.data) owner
      obtain ⟨tag, cpl, rx, -⟩ := tagsMoved_keeps (s := complete b m.tag o false m.status m.data (rxPop b s.begin)) (b := b) (tag := m.tag) (r := q)
        (by rw [done]; exact vget_vset_self small)
      rw [e.hw]
      refine ⟨tag, ?_, ?_⟩
      · rw [cpl, done, rxPop_hw]
        simp
      · rw [rx, done, rxPop_hw]
        rfl
    · rintro o ⟨used, unfit⟩
      rw [replyTo_used (s := rxPop b s.begin) (o := o) (by rw [rxPop_hw]; exact used), if_neg (by rw [unfit]; decide)] at reply
      refine answers_of_run (congrArg (ran s) reply) fun t queue e => ?_
      refine ⟨e.keeps queue (.ofBegin (.trans updRx_within cntHw_within)), ?_⟩
      rw [e.hw, protoErr, cntHw_hw, rxPop_hw]
      rfl
    · obtain ⟨v, done, eq⟩ := replyTo_late (s := rxPop b s.begin) (b := b) (m := m) (r := q) (by rw [rxPop_hw]; exact late)
      rw [eq] at reply
      refine answers_of_run (congrArg (ran s) reply) fun t _ e => ?_
      obtain ⟨tag, cpl, -, cnt⟩ := tagsMoved_keeps (s := v) (b := b) (tag := m.tag) (r := q) (by rw [done]; exact vget_vset_self small)
      rw [e.hw]
      refine ⟨tag, ?_, ?_⟩
      · rw [cnt, done, rxPop_hw]
        rfl
      · rw [cpl, done, rxPop_hw]
        rfl
  · rintro g ⟨room, given⟩
    obtain ⟨v, hw, eq⟩ := eventReceive_enters (s := s.begin) front room given
    refine answers_of_run (congrArg (ran s) eq) fun t _ e => ?_
    have same : ((irq b 3 v).at b).hw = (v.at b).hw := Touch.at_hw (irq_touch sub_self .refl) (by decide) b
    refine ⟨?_, ?_, ?_⟩
    · rw [e.hw, same, hw]
      rfl
    · rw [e.hw, same, hw]
      rfl
    · rw [e.at_eq]
      exact irq_pends (by decide)
  · refine answers_of_run (congrArg (ran s) (eventReceive_full (s := s.begin) full)) fun t _ e => ?_
    exact e.agreeOff_begin (by decide) .refl
  · rintro ⟨room, refused⟩
    refine answers_of_run (congrArg (ran s) (eventReceive_waits (s := s.begin) front room refused)) fun t _ e => ?_
    rw [e.hw]
    exact Touch.at_hw (deckAlloc_touch (fs := [.freeCtr, .dk]) sub_self .refl) (by decide) b
  · have refused : ∀ {op}, MailCode b req len i op → _ := fun code => answers_mailbox_refused code pass (mailboxOrder_shut (s := s.begin) shut)
    fin_cases mem
    · exact refused .read
    · exact refused .write
    · exact refused .ctrl
    · exact refused .freq
  · exact answers_mailbox_refused .freq pass (mailboxOrder_bad (s := s.begin) isOpen (.inr rfl))
  · rintro i op ⟨mem, isOpen, deck⟩
    have mails : MailCode b req len i op ∧ (op = .read ∨ op = .write) := by
      simp only [List.mem_cons, Prod.mk.injEq, List.not_mem_nil, or_false] at mem
      rcases mem with ⟨rfl, rfl⟩ | ⟨rfl, rfl⟩
      · exact ⟨.read, .inl rfl⟩
      · exact ⟨.write, .inr rfl⟩
    obtain ⟨code, kind⟩ := mails
    have known : op ≠ .freq := by rcases kind with rfl | rfl <;> decide
    have bytes : (op == .read || op == .write) = true := by rcases kind with rfl | rfl <;> rfl
    have fits : lenFits op len.val = decide (1 ≤ len.val ∧ len.val ≤ 256) := if_pos bytes
    refine ⟨fun good => ⟨fun g free => ?_, fun full => ?_⟩, fun bad => ?_⟩
    · refine Answers.imp (answers_mailbox_taken code pass isOpen (fits.trans (decide_eq_true good)) known (.inl deck) free) fun t ⟨framed, res, acc, tag, used⟩ => ?_
      refine ⟨framed, res, acc, tag, _, used, rfl, rfl, ?_, ?_⟩
      · exact if_pos bytes
      · exact if_pos bytes
    · exact answers_mailbox_refused code pass (mailboxOrder_noTag (s := s.begin) isOpen (fits.trans (decide_eq_true good)) known (.inl deck) full)
    · have unfit : lenFits op len.val = false := fits.trans (decide_eq_false (by omega))
      exact Answers.imp (answers_mailbox_refused code pass (mailboxOrder_bad (s := s.begin) isOpen (.inl unfit))) fun t ⟨framed, res, _, tags⟩ => ⟨framed, res, tags⟩
  · rintro g ⟨isOpen, zero, free⟩
    have fits : lenFits .ctrl len.val = true := by rw [zero]; rfl
    exact Answers.imp (answers_mailbox_taken .ctrl pass isOpen fits (by decide) (.inr rfl) free)
      fun t ⟨framed, res, _, tag, used⟩ => ⟨framed, res, tag, _, used, rfl, rfl⟩
  · intro pass
    refine ⟨fun empty => ?_, fun c cs front => ?_⟩
    · refine answers_readBus (u := s.begin) pass rfl (cplRead_none (s := s.begin) empty) fun t out within => ?_
      exact ⟨within.agreeOff_begin, out⟩
    · obtain ⟨v, rest, eq⟩ := cplRead_first (s := s.begin) front
      refine answers_readBus pass rfl eq fun t out within => ?_
      refine ⟨?_, ?_⟩
      · rw [within.at_hw (by decide) b, tagsMoved_cpl, rest]
      · rw [out]
        exact List.mem_append_right _ List.mem_cons_self
  · intro pass
    refine ⟨fun empty => ?_, fun e es front => ?_⟩
    · refine answers_readBus (u := s.begin) pass rfl (evqRead_none (s := s.begin) empty) fun t out within => ?_
      exact ⟨within.agreeOff_begin, out⟩
    · obtain ⟨v, eq, sent, touch, hw, handed⟩ := evqRead_first (s := s.begin) (req := req) front
      refine answers_readBus pass rfl eq fun t out within => ?_
      refine ⟨Touch.agreeOff_begin (.trans (touch.mono (by decide)) (within.mono (by decide))), ?_, ?_, ?_⟩
      · rw [within.at_hw (by decide) b, hw]
        rfl
      · rw [within.at_dk (by decide) b]
        exact handed
      · rw [out, sent]
        rfl

end Sys2Proof.Machine

/-! The waits and bounds of the service engine, the poll of the report block, and slot flits (R339, R341, R348, R349, R351, R354, R356 to R358). -/
namespace Sys2Proof.Machine
set_option Elab.async false

section
variable {s t u : State} {b : BId} {o : Order} {f : CtrlFn}

/-! ### Orders of the engine (R339, R342) -/

theorem updSvc_within {g : Svc → Svc} : Within b s (s.updSvc b g) := .upd

theorem updSvc_svc {g : Svc → Svc} : ((s.updSvc b g).at b).svc = g (s.at b).svc := by
  rw [State.updSvc_at, if_pos rfl]

/-- An order of the engine waits for a buffer or for a tag, or has one. -/
def Lands (b : BId) (o : Order) (t : State) : Prop :=
  o ∈ (t.at b).svc.want ∨ o ∈ (t.at b).hw.waiting ∨ ∃ k : Fin 64, vget (t.at b).hw.tags k.val = .used o

theorem issueHw_taken {g : Nat} (free : tagFor (s.at b).hw o.owner = some g) : vget ((issueHw b o s).at b).hw.tags g = .used o := by
  unfold issueHw issue
  rw [free]
  dsimp only
  rw [updHw_hw]
  obtain ⟨_, _, _, eq⟩ := enqueue_eq (h := (s.at b).hw) (i := g) (o := o)
  rw [eq]
  exact vget_vset_self (tagFor_free free).1

theorem issueHw_lands : Lands b o (issueHw b o s) := by
  cases free : tagFor (s.at b).hw o.owner with
  | some g => exact .inr (.inr ⟨⟨g, (tagFor_free free).1⟩, issueHw_taken free⟩)
  | none =>
    refine .inr (.inl ?_)
    unfold issueHw issue
    rw [free]
    dsimp only
    rw [updHw_hw]
    exact List.mem_append_right _ List.mem_cons_self

/-- A READ of the engine is issued, with a buffer of its own, or waits. -/
theorem svcIssue_read (read : o.op = .read) : (∃ g, Lands b { o with buf := g } (svcIssue b o s)) ∧ Touch [.freeCtr, .hw, .svc, .dk] s (svcIssue b o s) := by
  unfold svcIssue
  rw [if_pos (by rw [read]; rfl)]
  split
  case h_1 g t eq =>
    have alloc : Touch [.freeCtr, .hw, .svc, .dk] s t := deckAlloc_touch_eq (by decide) eq .refl
    extract_lets t'
    have stays : t' = t := if_neg (by rw [read]; decide)
    rw [stays]
    exact ⟨⟨g, issueHw_lands⟩, issueHw_touch (by decide) alloc⟩
  case h_2 t eq =>
    have alloc : Touch [.freeCtr, .hw, .svc, .dk] s t := deckAlloc_touch_eq (by decide) eq .refl
    refine ⟨⟨o.buf, .inl ?_⟩, State.updSvc_touch (by decide) alloc⟩
    rw [updSvc_svc]
    exact List.mem_append_right _ List.mem_cons_self

/-- Orders of the engine that wait are all that an order changes of the engine. -/
theorem svcIssue_svc : ∃ want, ((svcIssue b o s).at b).svc = { (s.at b).svc with want := want } := by
  unfold svcIssue
  split
  case isFalse => exact ⟨_, Touch.at_svc (issueHw_touch sub_self .refl) (by decide) b⟩
  case isTrue =>
    split
    case h_1 g t eq =>
      have alloc : (t.at b).svc = (s.at b).svc := (deckAlloc_touch_eq (fs := [.freeCtr, .dk]) sub_self eq .refl).at_svc (by decide) b
      extract_lets t'
      have wrote : (t'.at b).svc = (t.at b).svc := (ite_touch (bufWrite_touch sub_self .refl) .refl : Touch [.pl, .deck] t t').at_svc (by decide) b
      exact ⟨_, ((Touch.at_svc (issueHw_touch sub_self .refl) (by decide) b).trans wrote).trans alloc⟩
    case h_2 t eq =>
      have alloc : (t.at b).svc = (s.at b).svc := (deckAlloc_touch_eq (fs := [.freeCtr, .dk]) sub_self eq .refl).at_svc (by decide) b
      rw [updSvc_svc, alloc]
      exact ⟨_, rfl⟩

/-- The engine before it sends the order of its step. -/
def numbered (v : Svc) : Svc := { v with num := v.num + 1, busy := false }

/-- The CTRL order of a function. -/
def ctrlOrder (s : State) (b : BId) (f : CtrlFn) (num : Nat) : Order :=
  { op := .ctrl, owner := .service num, args := [pack [(fnCode f, 0, 16), (fnArg0 s b f, 16, 16)], wordOf (fnArg (s.at b).svc f), 0, 0, 0] }

theorem numbered_at : (s.updSvc b numbered).at b = { s.at b with svc := numbered (s.at b).svc } := by
  rw [State.updSvc_at, if_pos rfl]

theorem linksMask_numbered : linksMask (s.updSvc b numbered) b = linksMask s b := by
  have framed : Touch [.svc] s (s.updSvc b numbered) := State.updSvc_touch (by decide) .refl
  have slots : ∀ c, ((s.updSvc b numbered).at c).rl = (s.at c).rl := fun c => framed.at_rl (by decide) c
  unfold linksMask
  rw [framed.tray_eq, numbered_at]
  simp only [slots]
  rfl

theorem fnArg0_numbered : fnArg0 (s.updSvc b numbered) b f = fnArg0 s b f := by
  unfold fnArg0
  rw [linksMask_numbered, numbered_at]
  rfl

theorem fnArg_numbered {v : Svc} : fnArg (numbered v) f = fnArg v f := rfl

theorem ctrlOrder_numbered {n : Nat} : ctrlOrder (s.updSvc b numbered) b f n = ctrlOrder s b f n := by
  unfold ctrlOrder
  rw [fnArg0_numbered, numbered_at]
  rfl

theorem stepOrder_of_ctrl {n : Nat} (step : (s.at b).svc.step = .ctrl f) : stepOrder s b n = some (ctrlOrder s b f n) := by
  simp only [stepOrder, step]
  rfl

theorem svcSend_ctrl (step : (s.at b).svc.step = .ctrl f) : svcSend b s = issueHw b (ctrlOrder s b f ((s.at b).svc.num + 1)) (s.updSvc b numbered) := by
  have order : stepOrder (s.updSvc b numbered) b ((s.updSvc b numbered).at b).svc.num = some (ctrlOrder s b f ((s.at b).svc.num + 1)) := by
    rw [stepOrder_of_ctrl (f := f) (by rw [numbered_at]; exact step), ctrlOrder_numbered, numbered_at]
    rfl
  unfold svcSend
  extract_lets s1
  rw [show stepOrder s1 b (s1.at b).svc.num = _ from order]
  rfl

/-- The engine polls the status word: one READ under the next number. -/
theorem svcGo_status : (∃ g, Lands b { readOrder ((s.at b).svc.num + 1) 0x10 4 with buf := g } (svcGo b (.status f) s))
    ∧ Touch [.freeCtr, .hw, .svc, .dk] s (svcGo b (.status f) s) ∧ ((svcGo b (.status f) s).at b).svc.step = .status f
    ∧ ((svcGo b (.status f) s).at b).svc.num = (s.at b).svc.num + 1 := by
  unfold svcGo svcSend
  extract_lets _ s1
  have svc : (s1.at b).svc = { (s.at b).svc with step := .status f, num := (s.at b).svc.num + 1, busy := false } := by
    unfold s1
    rw [updSvc_svc, updSvc_svc]
  have order : stepOrder s1 b (s1.at b).svc.num = some (readOrder ((s.at b).svc.num + 1) 0x10 4) := by
    simp only [stepOrder, svc]
  rw [order]
  dsimp only
  obtain ⟨lands, touch⟩ := svcIssue_read (s := s1) (b := b) (o := readOrder ((s.at b).svc.num + 1) 0x10 4) rfl
  have framed : Touch [.freeCtr, .hw, .svc, .dk] s s1 := State.updSvc_touch (by decide) (State.updSvc_touch (by decide) .refl)
  obtain ⟨want, engine⟩ := svcIssue_svc (s := s1) (b := b) (o := readOrder ((s.at b).svc.num + 1) 0x10 4)
  refine ⟨lands, framed.trans touch, ?_, ?_⟩
  · rw [engine, svc]
  · rw [engine, svc]

theorem svcGo_ctrl_within : Within b s (svcGo b (.ctrl f) s) := by
  obtain ⟨o, run⟩ := svcGo_ctrl (s := s) (b := b) (f := f)
  rw [run]
  exact .trans (.trans updSvc_within updSvc_within) issueHw_within

theorem statusPoll_eq (step : (s.at b).svc.step = .poll f) : statusPoll b s = svcGo b (.status f) s := by
  unfold statusPoll
  rw [step]

/-! ### Failures of the engine (R348, R351) -/

theorem linkStop_fails {dst : LinkState} : ((linkStop b dst s).at b).svc.fails = (s.at b).svc.fails := by
  unfold linkStop
  extract_lets h s1 s2 gone s3 s4
  split
  · have stays : Touch [.out, .freeCtr, .rp, .log, .hw, .pl, .dk, .us] s (if (dst == .retired && h.link == .off) = true then setLink b .retired 0 s else s) :=
      ite_touch (setLink_touch sub_self .refl) .refl
    rw [stays.at_svc (by decide) b]
  · have down : Touch [.out, .freeCtr, .rp, .log, .hw, .pl, .dk, .dm, .us, .tcm, .deck] s s3 :=
      State.updHw_touch (by decide) (Touch.iter (fun _ _ h => linkDownTag_touch sub_self h) (setLink_touch (by decide) .refl))
    have cleared : Touch [.dk] s4 (iter gone freeSvcBuf s4) := Touch.iter (fun _ _ h => freeSvcBuf_touch sub_self h) .refl
    rw [cleared.at_svc (by decide) b]
    unfold s4
    rw [updSvc_svc, down.at_svc (by decide) b]

theorem stageDone_fails {code : Nat} : ((stageDone b code s).at b).svc.fails = (s.at b).svc.fails := by
  unfold stageDone
  extract_lets v st us p2 s1
  have logged : ∀ {ty p0 p1 p2}, ((logRec b ty p0 p1 p2 s1).at b).svc = (s1.at b).svc := Touch.at_svc (logRec_touch sub_self .refl) (by decide) b
  rw [logged]
  unfold s1
  rw [updSvc_svc]

theorem svcFail_fails {code : Nat} : ((svcFail b code s).at b).svc.fails = sinc (s.at b).svc.fails := by
  unfold svcFail svcFailed
  extract_lets v s1 s2 s3 s4
  have staged : (s2.at b).svc.fails = (s.at b).svc.fails := by
    have ready : (s1.at b).svc = ((linkStop b .off s).at b).svc := Touch.at_svc (withdrawReady_touch sub_self .refl) (by decide) b
    unfold s2
    split
    · rw [stageDone_fails, ready, linkStop_fails]
    · rw [ready, linkStop_fails]
  have logged : (s3.at b).svc = (s2.at b).svc :=
    (ite_touch (logReset_touch sub_self .refl) .refl : Touch [.out, .freeCtr, .rp, .log, .dk, .us] s2 s3).at_svc (by decide) b
  rw [setSvc_svc]
  unfold s4
  rw [updSvc_svc]
  dsimp only
  rw [logged, staged]

theorem drainEscalate_eq (st : (s.at b).svc.st = .resetting) (quiesces : inQuiesce (s.at b).svc.step = true) (hard : (s.at b).svc.rstAbsorb = false)
    (first : (s.at b).svc.escalated = false) : drainEscalate b s =
      svcGo b (.ctrl .quiesce) (s.updSvc b fun v => { v with escalated := true, drainEsc := sinc v.drainEsc }) := by
  unfold drainEscalate
  extract_lets v
  exact if_pos (by simp [v, st, quiesces, hard, first])

theorem reportPoll_eq (on : (s.at b).svc.reporting = true) (due : fld (s.at b).svc.dispCfg 7 0 ≤ (s.at b).svc.pollMarks) : reportPoll b s =
    svcIssue b { op := .read, owner := .report, addr := 0x1000, len := 64 } (s.updSvc b fun v => { v with pollMarks := 0 }) := by
  unfold reportPoll
  extract_lets v
  exact if_pos (by simp [v, on, due])

end

/-! ### Slot flits (R356 to R358) -/

section
variable {s t u : State} {h n : BId} {f : SlotFlit}

/-- The flit of slot n in berth x's view. -/
def flitSeen (n : BId) (f : SlotFlit) (x : Berth) : Berth := { x with svc := { x.svc with peer := vset x.svc.peer n.val (some f.svc) } }

/-- The state once the flit of slot n has arrived at every berth. -/
def flitArrives (n : BId) (f : SlotFlit) (s : State) : State := s.updAll fun _ => flitSeen n f

theorem flitArrives_at (c : BId) : (flitArrives n f s).at c = flitSeen n f (s.at c) := State.updAll_at

theorem flitArrives_touch : Touch [.svc] s (flitArrives n f s) :=
  Touch.updAll (fun _ _ => ⟨fun p nf => by cases p <;> first | exact absurd (by decide) nf | exact True.intro | exact rfl, Berth.memCanonical_same rfl rfl rfl⟩) .refl

/-- The admission that the harbour corrects for the flit of slot n. -/
def flitAdmits (h n : BId) (f : SlotFlit) (s : State) : State :=
  let a := vget (s.at h).tray.pw.admis n.val
  if powered f.slot && (a == .none || a == .waiting) then
    stateFix h n f a 1 (setGrant n (grantMin (s.at h) n.val) (setAdmit n .unadmitted s))
  else if !powered f.slot && (a == .admitted || a == .unadmitted) then stateFix h n f a 2 (withdraw n false s)
  else s

/-- Whether the copy that the harbour holds differs from the flit. -/
def flitDiffers (c f : SlotFlit) : Bool := c.units != f.units || c.svc != f.svc || c.ready != f.ready || c.hwRetired != f.hwRetired

/-- The harbour holds the flit of slot n. -/
def flitHolds (h n : BId) (f : SlotFlit) (s : State) : State := s.updTray h fun t => { t with slots := vset t.slots n.val f }

theorem flitCompare_eq : flitCompare h n f s = flitHolds h n f (if flitDiffers (vget (s.at h).tray.slots n.val) f then
    stateFix h n f (vget (s.at h).tray.pw.admis n.val) 3 (flitAdmits h n f s) else flitAdmits h n f s) := rfl

theorem stateFix_peer {a : Admit} {k : Nat} {c : BId} : ((stateFix h n f a k s).at c).svc.peer = (s.at c).svc.peer := by
  unfold stateFix
  rw [Touch.at_svc (logRec_touch sub_self .refl) (by decide) c, State.updSvc_at]
  split
  next eq => subst eq; rfl
  next => rfl

theorem flitAdmits_peer {c : BId} : ((flitAdmits h n f s).at c).svc.peer = (s.at c).svc.peer := by
  unfold flitAdmits
  extract_lets a
  split
  · rw [stateFix_peer]
    exact congrArg Svc.peer (Touch.at_svc (setGrant_touch sub_self (setAdmit_touch sub_self .refl)) (by decide) c)
  · split
    · rw [stateFix_peer]
      exact congrArg Svc.peer (Touch.at_svc (withdraw_touch sub_self .refl) (by decide) c)
    · rfl

/-- A comparison changes no view of a slot. -/
theorem flitCompare_peer {c : BId} : ((flitCompare h n f s).at c).svc.peer = (s.at c).svc.peer := by
  rw [flitCompare_eq, flitHolds, Touch.at_svc (State.updTray_touch sub_self .refl) (by decide) c]
  split
  · exact stateFix_peer.trans flitAdmits_peer
  · exact flitAdmits_peer

/-- What follows the correction of the admission: a record, and the flit held. -/
theorem flitCompare_after : ∃ v, Touch [.out, .freeCtr, .rp, .log, .svc, .dk, .us] (flitAdmits h n f s) v ∧ flitCompare h n f s = flitHolds h n f v :=
  ⟨_, ite_touch (stateFix_touch sub_self .refl) .refl, flitCompare_eq⟩

theorem flitHolds_tray : ((flitHolds h n f s).at h).tray = { (s.at h).tray with slots := vset (s.at h).tray.slots n.val f } := by
  rw [flitHolds, State.updTray_at, if_pos rfl]

theorem flitCompare_slots : vget ((flitCompare h n f s).at h).tray.slots n.val = f := by
  rw [flitCompare_eq, flitHolds_tray]
  exact vget_vset_self n.isLt

theorem flitCompare_pw : ((flitCompare h n f s).at h).tray.pw = ((flitAdmits h n f s).at h).tray.pw
    ∧ ((flitCompare h n f s).at n).pw = ((flitAdmits h n f s).at n).pw := by
  obtain ⟨v, after, eq⟩ := flitCompare_after (h := h) (n := n) (f := f) (s := s)
  rw [eq, flitHolds_tray, after.at_tray (by decide) h]
  exact ⟨rfl, (Touch.at_pw (State.updTray_touch sub_self .refl) (by decide) n).trans (after.at_pw (by decide) n)⟩

theorem setGrant_pw {g : Nat} (harbour : s.harbour = some h) : ((setGrant n g s).at n).pw = { (s.at n).pw with grant := g } := by
  unfold setGrant
  rw [onTray_eq harbour, State.updPw_at, if_pos rfl, (State.updTray_touch sub_self .refl).at_pw (by decide)]

/-- A powered slot without an admission is one that the harbour has not admitted. -/
theorem flitAdmits_powered (harbour : s.harbour = some h) (on : powered f.slot = true)
    (out : vget (s.at h).tray.pw.admis n.val = .none ∨ vget (s.at h).tray.pw.admis n.val = .waiting) :
    vget ((flitAdmits h n f s).at h).tray.pw.admis n.val = .unadmitted ∧ ((flitAdmits h n f s).at n).pw.admis = .unadmitted
      ∧ vget ((flitAdmits h n f s).at h).tray.pw.grant n.val = grantMin (s.at h) n.val := by
  unfold flitAdmits
  extract_lets a
  rw [if_pos (by rcases out with out | out <;> simp [a, out, on])]
  have role : (setAdmit n .unadmitted s).harbour = some h := (setAdmit_touch sub_self .refl).harbour_eq.trans harbour
  have after {v : State} {k : Nat} : Touch [.out, .freeCtr, .rp, .log, .svc, .dk, .us] v (stateFix h n f a k v) := stateFix_touch sub_self .refl
  rw [after.at_tray (by decide), after.at_pw (by decide), setGrant_tray role, setGrant_pw role, setAdmit_tray harbour, setAdmit_pw harbour]
  exact ⟨vget_vset_self n.isLt, rfl, vget_vset_self n.isLt⟩

/-- A slot that is down has no admission. -/
theorem flitAdmits_down (harbour : s.harbour = some h) (off : powered f.slot = false)
    (held : vget (s.at h).tray.pw.admis n.val = .admitted ∨ vget (s.at h).tray.pw.admis n.val = .unadmitted) :
    vget ((flitAdmits h n f s).at h).tray.pw.admis n.val = .none ∧ vget ((flitAdmits h n f s).at h).tray.pw.grant n.val = 0 := by
  unfold flitAdmits
  extract_lets a
  rw [if_neg (by simp [off]), if_pos (by rcases held with held | held <;> simp [a, held, off])]
  have after {v : State} {k : Nat} : Touch [.out, .freeCtr, .rp, .log, .svc, .dk, .us] v (stateFix h n f a k v) := stateFix_touch sub_self .refl
  rw [after.at_tray (by decide)]
  exact withdraw_admits harbour

theorem vset_vget {α : Type} [Inhabited α] {k : Nat} {v : Vector α k} {i : Nat} (small : i < k) : vset v i (vget v i) = v := by
  refine Vector.ext fun j lt => ?_
  unfold vset vget
  rw [Vector.getElem_setIfInBounds lt]
  split
  case isTrue eq =>
    subst eq
    rw [Vector.getElem?_eq_getElem small, Option.getD_some]
  case isFalse => rfl

/-- A flit that agrees with all that the harbour holds of its slot changes nothing. -/
theorem flitCompare_agrees (same : vget (s.at h).tray.slots n.val = f) (agrees : powered f.slot = true ↔
    vget (s.at h).tray.pw.admis n.val = .admitted ∨ vget (s.at h).tray.pw.admis n.val = .unadmitted) : Touch [] s (flitCompare h n f s) := by
  have admits : flitAdmits h n f s = s := by
    unfold flitAdmits
    extract_lets a
    change _ ↔ a = .admitted ∨ a = .unadmitted at agrees
    clear_value a
    cases on : powered f.slot
    · rw [on] at agrees
      cases a
      · rfl
      · rfl
      · exact absurd (agrees.mpr (.inl rfl)) (by decide)
      · exact absurd (agrees.mpr (.inr rfl)) (by decide)
    · obtain rfl | rfl := agrees.mp on
      · rfl
      · rfl
  have same' : flitDiffers f f = false := by simp [flitDiffers]
  rw [flitCompare_eq, same, same', if_neg (by decide), admits]
  refine Touch.berths rfl rfl rfl rfl fun c => ?_
  rw [flitHolds, State.updTray_at]
  split
  case isFalse => exact .refl
  case isTrue is =>
    subst is
    have held : vset (s.at h).tray.slots n.val f = (s.at h).tray.slots := by
      rw [← same]
      exact vset_vget n.isLt
    rw [held]
    exact .refl

/-- The flit of slot n at a harbour that holds its berth ACTIVE. -/
theorem slotFlitReceive_active (harbour : s.harbour = some h) (active : (s.at n).sy.st = .active) :
    slotFlitReceive n f s = flitCompare h n f (flitArrives n f s) := by
  have framed : Touch [.svc] s (flitArrives n f s) := flitArrives_touch
  unfold slotFlitReceive
  extract_lets s1
  rw [show s1.harbour = some h from framed.harbour_eq.trans harbour]
  exact if_pos (by rw [show (s1.at n).sy = (s.at n).sy from framed.at_sy (by decide) n, active]; rfl)

theorem slotFlitReceive_peer {c : BId} : vget ((slotFlitReceive n f s).at c).svc.peer n.val = some f.svc := by
  have seen : vget ((flitArrives n f s).at c).svc.peer n.val = some f.svc := by
    rw [flitArrives_at]
    exact vget_vset_self n.isLt
  unfold slotFlitReceive
  extract_lets s1
  split
  · split
    · rw [flitCompare_peer]
      exact seen
    · exact seen
  · exact seen

theorem powered_on (on : f.slot = .powering ∨ f.slot = .up ∨ f.slot = .shutting) : powered f.slot = true := by
  rcases on with on | on | on <;> rw [on] <;> rfl

theorem powered_off (off : f.slot = .down ∨ f.slot = .faultHold ∨ f.slot = .retired) : powered f.slot = false := by
  rcases off with off | off | off <;> rw [off] <;> rfl

theorem powered_iff : powered f.slot = true ↔ f.slot = .powering ∨ f.slot = .up ∨ f.slot = .shutting := by
  simp [powered, or_assoc]

end

/-- Settles O39: the waits and bounds of the engine, the poll of the report block, and slot flits at every berth and at the harbour. -/
theorem serviceWaitsAndReports : Obligations.ServiceWaitsAndReports := by
  unfold Obligations.ServiceWaitsAndReports
  refine ⟨fun s b => ⟨fun f step => ?_, ?_, fun stage => ?_, ?_, fun step => ?_, fun st => ?_⟩, fun s => ⟨?_, fun n f => ⟨?_, ?_⟩⟩⟩
  · refine answers_of_run (congrArg (ran s) (statusPoll_eq (s := s.begin) step)) fun t _ e => ?_
    obtain ⟨⟨g, lands⟩, touch, st, num⟩ := svcGo_status (s := s.begin) (b := b) (f := f)
    rw [e.at_eq]
    exact ⟨e.agreeOff_begin (by decide) (touch.mono (by decide)), st, num, _, rfl, rfl, rfl, rfl, lands⟩
  · rintro f g ⟨busy, step, free⟩
    have eq : busyReissue b s.begin = issueHw b (ctrlOrder s.begin b f ((s.at b).svc.num + 1)) (s.begin.updSvc b numbered) := by
      rw [busyReissue, if_pos (by exact busy)]
      exact svcSend_ctrl (s := s.begin) step
    refine answers_of_run (congrArg (ran s) eq) fun t queue e => ?_
    refine ⟨e.keeps queue (.ofBegin (.trans updSvc_within issueHw_within)), ?_, ctrlOrder s b f ((s.at b).svc.num + 1), ?_, rfl, rfl, rfl⟩
    · rw [e.at_eq, Touch.at_svc (issueHw_touch sub_self .refl) (by decide) b, updSvc_svc]
      rfl
    · rw [e.hw]
      refine issueHw_taken ?_
      rw [Touch.at_hw (State.updSvc_touch sub_self .refl) (by decide) b]
      exact free
  · have eq : stageTimeout b s.begin = svcFail b (if (s.at b).hw.link == .up then 3 else 1) s.begin := if_pos stage
    refine answers_of_run (congrArg (ran s) eq) fun t _ e => ?_
    rw [e.at_eq]
    obtain ⟨st, fail⟩ := svcFail_svc (s := s.begin) (b := b) (code := if (s.at b).hw.link == .up then 3 else 1)
    refine ⟨st, fail.trans ?_, svcFail_fails, fun k => ?_⟩
    · simp only [beq_iff_eq]
    · rw [partOf, e.at_eq]
      exact svcFail_ready k
  · rintro ⟨st, quiesces, hard, first⟩
    refine answers_of_run (congrArg (ran s) (drainEscalate_eq (s := s.begin) st quiesces hard first)) fun t queue e => ?_
    refine ⟨e.keeps queue (.ofBegin (.trans updSvc_within svcGo_ctrl_within)), ?_⟩
    rw [e.at_eq, svcGo_ctrl_svc, updSvc_svc]
    rfl
  · have eq : resetHoldEnd b s.begin = svcGo b (.ctrl .resetRelease) s.begin := if_pos (by rw [State.begin_at, step]; rfl)
    refine answers_of_run (congrArg (ran s) eq) fun t queue e => ?_
    refine ⟨e.keeps queue (.ofBegin svcGo_ctrl_within), ?_⟩
    rw [e.at_eq, svcGo_ctrl_svc]
    rfl
  · have eq : resetTimeout b s.begin = svcFail b 3 s.begin := if_pos (by rw [State.begin_at, st]; rfl)
    refine answers_of_run (congrArg (ran s) eq) fun t _ e => ?_
    rw [e.at_eq]
    obtain ⟨failed, fail⟩ := svcFail_svc (s := s.begin) (b := b) (code := 3)
    refine ⟨failed, fail, svcFail_fails, fun k => ?_⟩
    rw [partOf, e.at_eq]
    exact svcFail_ready k
  · rintro b ⟨on, due⟩
    refine answers_of_run (congrArg (ran s) (reportPoll_eq (s := s.begin) on due)) fun t _ e => ?_
    obtain ⟨⟨g, lands⟩, touch⟩ := svcIssue_read (b := b) (s := s.begin.updSvc b fun v => { v with pollMarks := 0 })
      (o := { op := .read, owner := .report, addr := 0x1000, len := 64 }) rfl
    obtain ⟨want, engine⟩ := svcIssue_svc (b := b) (s := s.begin.updSvc b fun v => { v with pollMarks := 0 })
      (o := { op := .read, owner := .report, addr := 0x1000, len := 64 })
    rw [e.at_eq]
    refine ⟨e.agreeOff_begin (by decide) ((State.updSvc_touch (by decide) .refl).trans (touch.mono (by decide))), ?_, _, rfl, rfl, rfl, rfl, lands⟩
    rw [engine, updSvc_svc]
  · refine answers_of_run (u := slotFlitReceive n f s.begin) rfl fun t _ e c => ?_
    rw [e.at_eq]
    exact slotFlitReceive_peer
  · rintro h ⟨harbour, active⟩
    have eq := slotFlitReceive_active (s := s.begin) (f := f) harbour active
    have framed : Touch [.svc] s.begin (flitArrives n f s.begin) := flitArrives_touch
    have role : (flitArrives n f s.begin).harbour = some h := framed.harbour_eq.trans harbour
    have tray : ((flitArrives n f s.begin).at h).tray = (s.at h).tray := framed.at_tray (by decide) h
    refine ⟨?_, ?_, ?_, ?_⟩
    · refine answers_of_run (congrArg (ran s) eq) fun t _ e => ?_
      rw [e.at_eq]
      exact flitCompare_slots
    · rintro ⟨on, out⟩
      refine answers_of_run (congrArg (ran s) eq) fun t _ e => ?_
      obtain ⟨admis, copy, grant⟩ := flitAdmits_powered role (powered_on on) (by rw [tray]; exact out)
      obtain ⟨pw, own⟩ := flitCompare_pw (h := h) (n := n) (f := f) (s := flitArrives n f s.begin)
      rw [e.at_eq, e.at_eq, pw, own]
      refine ⟨admis, copy, grant.trans ?_⟩
      rw [flitArrives_at]
      rfl
    · rintro ⟨off, held⟩
      refine answers_of_run (congrArg (ran s) eq) fun t _ e => ?_
      obtain ⟨admis, grant⟩ := flitAdmits_down role (powered_off off) (by rw [tray]; exact held)
      rw [e.at_eq, flitCompare_pw.1]
      exact ⟨admis, grant⟩
    · rintro ⟨same, agrees⟩
      refine answers_of_run (congrArg (ran s) eq) fun t _ e => ?_
      have still := flitCompare_agrees (s := flitArrives n f s.begin) (h := h) (n := n) (f := f) (by rw [tray]; exact same) (by rw [tray, powered_iff]; exact agrees)
      refine ⟨e.agreeOff (framed.trans (still.mono (by decide))), ?_⟩
      rw [e.at_eq, still.at_svc (by decide) h, flitArrives_at]
      rfl

end Sys2Proof.Machine

/-! The pilot core executes the instruction at its pc, or traps (R362, R364, R367). -/
namespace Sys2Proof.Machine
set_option Elab.async false

section
variable {s t u : State} {b : BId} {p : Pilot} {v : Word} {len : Nat}

/-! ### Registers and the retirement of an instruction (R362) -/

theorem updPl_pl {f : Pilot → Pilot} : ((s.updPl b f).at b).pl = f (s.at b).pl := by
  rw [State.updPl_at, if_pos rfl]

theorem updPl_within {f : Pilot → Pilot} : Within b s (s.updPl b f) := .upd

theorem countRetired_csr : ∃ n, countRetired p = { p with csr := { p.csr with minstret := n } } := by
  unfold countRetired
  split
  · exact ⟨p.csr.minstret, rfl⟩
  · exact ⟨_, rfl⟩

theorem setX_regs {i : Nat} : ∃ r, setX i v p = { p with regs := r } := by
  unfold setX
  split
  · exact ⟨p.regs, rfl⟩
  · exact ⟨_, rfl⟩

theorem getX_congr {q : Pilot} {i : Nat} (same : q.regs = p.regs) : getX q i = getX p i := by rw [getX, getX, same]

theorem getX_setX_self {i : Fin 32} (some' : i ≠ 0) : getX (setX i.val v p) i.val = v := by
  have pos : (i.val == 0) = false := beq_eq_false_iff_ne.mpr fun z => some' (Fin.ext z)
  unfold getX setX
  rw [pos]
  exact vget_vset_self (by omega)

theorem getX_setX_other {i j : Fin 32} (other : j ≠ i ∨ j = 0) : getX (setX i.val v p) j.val = getX p j.val := by
  by_cases zero : j = 0
  · subst zero
    rfl
  have apart : j.val ≠ i.val := fun eq => (other.resolve_right zero) (Fin.ext eq)
  have pos : j.val ≠ 0 := fun z => zero (Fin.ext z)
  unfold getX setX
  rw [beq_eq_false_iff_ne.mpr pos]
  by_cases none' : i.val = 0
  · rw [none']
    rfl
  · rw [beq_eq_false_iff_ne.mpr none']
    exact vget_vset_ne (by omega)

/-- What the retirement of an instruction that writes register rd changes. -/
theorem retire_setX {rd : Fin 32} : (retire len (setX rd.val v p)).pc = p.pc + wordOf len ∧ (retire len (setX rd.val v p)).machine = p.machine
    ∧ (rd ≠ 0 → getX (retire len (setX rd.val v p)) rd.val = v)
    ∧ ∀ j : Fin 32, j ≠ rd ∨ j = 0 → getX (retire len (setX rd.val v p)) j.val = getX p j.val := by
  obtain ⟨n, counted⟩ := countRetired_csr (p := setX rd.val v p)
  obtain ⟨r, set⟩ := setX_regs (p := p) (v := v) (i := rd.val)
  have regs : (retire len (setX rd.val v p)).regs = (setX rd.val v p).regs := by
    unfold retire
    rw [counted]
  refine ⟨?_, ?_, fun some' => ?_, fun j other => ?_⟩
  · unfold retire
    rw [set]
  · unfold retire
    rw [counted, set]
  · rw [getX_congr regs, getX_setX_self some']
  · rw [getX_congr regs, getX_setX_other other]

/-- The core after an indirect jump that links to `next`. -/
def jumps (rd rs1 : Fin 32) (imm next : Word) (p : Pilot) : Pilot :=
  { setX rd.val next (countRetired p) with pc := (getX p rs1.val + imm) &&& 0xFFFFFFFE }

theorem jumps_core {rd rs1 : Fin 32} {imm next : Word} : (jumps rd rs1 imm next p).pc = (getX p rs1.val + imm) &&& 0xFFFFFFFE
    ∧ (rd ≠ 0 → getX (jumps rd rs1 imm next p) rd.val = next)
    ∧ ∀ j : Fin 32, j ≠ rd ∨ j = 0 → getX (jumps rd rs1 imm next p) j.val = getX p j.val := by
  obtain ⟨n, counted⟩ := countRetired_csr (p := p)
  have linked : (jumps rd rs1 imm next p).regs = (setX rd.val next (countRetired p)).regs := rfl
  refine ⟨rfl, fun some' => ?_, fun j other => ?_⟩
  · rw [getX_congr linked, getX_setX_self some']
  · rw [getX_congr linked, getX_setX_other other, counted]
    rfl

/-! ### The instruction at the pc (R362, R364) -/

/-- The core with WFI's wait ended. -/
def unstalled (p : Pilot) : Pilot := { p with waiting := false }

/-- Whether an instruction has a command of its own. -/
def ownCommand : Rv → Bool
  | .csr _ _ _ _ _ | .fence | .wfi => true
  | _ => false

section
variable (ready : coreReady s b = true)
include ready

theorem pilotInstruction_op {i : Rv} (found : fetch (s.at b) b = .op i len) (plain : ownCommand i = false) :
    pilotInstruction b s = rvExec b i len (awake b s) := by
  unfold pilotInstruction
  rw [if_neg (by simp [ready]), found]
  cases i
  case csr => exact nomatch plain
  case fence => exact nomatch plain
  case wfi => exact nomatch plain
  all_goals rfl

theorem pilotInstruction_illegal (found : fetch (s.at b) b = .illegal) : pilotInstruction b s = raise b 2 0 (awake b s) := by
  unfold pilotInstruction
  rw [if_neg (by simp [ready]), found]

theorem pilotInstruction_fault {a : Word} (found : fetch (s.at b) b = .fault a) : pilotInstruction b s = raise b 1 a (awake b s) := by
  unfold pilotInstruction
  rw [if_neg (by simp [ready]), found]

end

/-- An instruction that changes the core alone. -/
theorem answers_pilot {f : Pilot → Pilot} (runs : pilotInstruction b s.begin = (awake b s.begin).updPl b f) : Answers (.pilotInstruction b) s fun t =>
    Keeps [b] s t ∧ AgreeOff [.out, .pl] s t ∧ (t.at b).pl = f (unstalled (s.at b).pl) := by
  refine answers_of_run (congrArg (ran s) runs) fun t queue e => ?_
  refine ⟨e.keeps queue (.ofBegin (.trans updPl_within updPl_within)), ?_, ?_⟩
  · exact e.agreeOff_begin (by decide) (State.updPl_touch (by decide) (State.updPl_touch (by decide) .refl))
  · rw [e.at_eq, updPl_pl, awake, updPl_pl]
    rfl

/-- An instruction of the core alone, by what it does to the core. -/
theorem answers_rv {i : Rv} {f : Pilot → Pilot} (ready : coreReady s b = true) (found : fetch (s.at b) b = .op i len) (plain : ownCommand i = false)
    (does : rvExec b i len (awake b s.begin) = (awake b s.begin).updPl b f) : Answers (.pilotInstruction b) s fun t =>
    Keeps [b] s t ∧ AgreeOff [.out, .pl] s t ∧ (t.at b).pl = f (unstalled (s.at b).pl) :=
  answers_pilot ((pilotInstruction_op (s := s.begin) ready found plain).trans does)

/-! ### Traps (R362, R364, R367) -/

theorem awake_pl : ((awake b s).at b).pl = unstalled (s.at b).pl := updPl_pl

/-- An instruction that ends in an exception. -/
def Raises (s : State) (b : BId) (cause : Nat) (tval : Word) : Prop := pilotInstruction b s = raise b cause tval (awake b s)

theorem answers_raises {cause : Nat} {tval : Word} (raises : Raises s.begin b cause tval) : Answers (.pilotInstruction b) s fun t =>
    AgreeOff [.out, .pl] s t ∧ (t.at b).pl.regs = (s.at b).pl.regs
        ∧ (t.at b).pl.pc = wordOf ((s.at b).pl.csr.mtvec.toNat / 4 * 4) ∧ (t.at b).pl.machine = true ∧ (t.at b).pl.resv = none
        ∧ (t.at b).pl.csr = { (s.at b).pl.csr with
            mepc := (s.at b).pl.pc, mcause := wordOf cause, mtval := tval
            mpie := (s.at b).pl.csr.mie, mie := false, mppM := (s.at b).pl.machine } := by
  refine (answers_pilot raises).imp fun t ⟨_, framed, pl⟩ => ?_
  rw [pl]
  exact ⟨framed, rfl, rfl, rfl, rfl, rfl⟩

section
variable {size rd rs1 rs2 : Nat} {signed : Bool} {imm : Word} (ready : coreReady s b = true)
include ready

theorem load_raises (found : fetch (s.at b) b = .op (.load size signed rd rs1 imm) len) {cause : Nat}
    (bad : (getX (s.at b).pl rs1 + imm).toNat % size ≠ 0 ∧ cause = 4
      ∨ (getX (s.at b).pl rs1 + imm).toNat % size = 0
        ∧ pmpOk (s.at b).pl.csr (dataPriv (s.at b).pl) (getX (s.at b).pl rs1 + imm).toNat size 0 = false ∧ cause = 5) :
    Raises s b cause (getX (s.at b).pl rs1 + imm) := by
  have load : rvExec b (.load size signed rd rs1 imm) len (awake b s) = doLoad b len size signed rd (getX (s.at b).pl rs1 + imm) (awake b s) := by
    have reg : getX ((awake b s).at b).pl rs1 = getX (s.at b).pl rs1 := by
      rw [awake_pl]
      rfl
    rw [← reg]
    rfl
  refine (pilotInstruction_op ready found rfl).trans (load.trans ?_)
  unfold doLoad
  extract_lets p
  rcases bad with ⟨odd, rfl⟩ | ⟨even, denied, rfl⟩
  · exact if_pos (by simpa using odd)
  · have allowed : pmpOk p.csr (dataPriv p) (getX (s.at b).pl rs1 + imm).toNat size 0 = false := by
      unfold p
      rw [awake_pl]
      exact denied
    rw [if_neg (by simpa using even), if_pos (by rw [allowed]; rfl)]

theorem store_raises (found : fetch (s.at b) b = .op (.store size rs1 rs2 imm) len) {cause : Nat}
    (bad : (getX (s.at b).pl rs1 + imm).toNat % size ≠ 0 ∧ cause = 6
      ∨ (getX (s.at b).pl rs1 + imm).toNat % size = 0
        ∧ pmpOk (s.at b).pl.csr (dataPriv (s.at b).pl) (getX (s.at b).pl rs1 + imm).toNat size 1 = false ∧ cause = 7) :
    Raises s b cause (getX (s.at b).pl rs1 + imm) := by
  have store : rvExec b (.store size rs1 rs2 imm) len (awake b s)
      = doStore b len size (getX (s.at b).pl rs1 + imm) (getX ((awake b s).at b).pl rs2) (awake b s) := by
    have reg : getX ((awake b s).at b).pl rs1 = getX (s.at b).pl rs1 := by
      rw [awake_pl]
      rfl
    rw [← reg]
    rfl
  refine (pilotInstruction_op ready found rfl).trans (store.trans ?_)
  unfold doStore
  extract_lets p
  rcases bad with ⟨odd, rfl⟩ | ⟨even, denied, rfl⟩
  · exact if_pos (by simpa using odd)
  · have allowed : pmpOk p.csr (dataPriv p) (getX (s.at b).pl rs1 + imm).toNat size 1 = false := by
      unfold p
      rw [awake_pl]
      exact denied
    rw [if_neg (by simpa using even), if_pos (by rw [allowed]; rfl)]

theorem ecall_raises (found : fetch (s.at b) b = .op .ecall len) : Raises s b (if (s.at b).pl.machine = true then 11 else 8) 0 := by
  refine (pilotInstruction_op ready found rfl).trans ?_
  have mode : ((awake b s).at b).pl.machine = (s.at b).pl.machine := by
    rw [awake_pl]
    rfl
  rw [← mode]
  rfl

theorem mret_raises (found : fetch (s.at b) b = .op .mret len) (user : (s.at b).pl.machine = false) : Raises s b 2 0 := by
  refine (pilotInstruction_op ready found rfl).trans (if_neg ?_)
  rw [awake_pl]
  exact Bool.eq_false_iff.mp user

end

end

/-- Settles O40: each form of instruction, and each exception, changes the core as its row says. -/
theorem pilotExecution : Obligations.PilotExecution := by
  unfold Obligations.PilotExecution
  refine fun s b len ready => ⟨fun op rd rs1 rs2 found => ?_, fun c rs1 rs2 off found => ?_, fun rd rs1 imm found => ?_, ?_, ?_⟩
  · refine (answers_rv (f := fun p => retire len (setX rd.val (rvAlu op (getX ((awake b s.begin).at b).pl rs1.val) (getX ((awake b s.begin).at b).pl rs2.val)) p))
      ready found rfl rfl).imp fun t ⟨keeps, framed, pl⟩ => ?_
    obtain ⟨pc, mode, self, others⟩ := retire_setX (len := len) (rd := rd) (p := unstalled (s.at b).pl)
      (v := rvAlu op (getX ((awake b s.begin).at b).pl rs1.val) (getX ((awake b s.begin).at b).pl rs2.val))
    rw [pl]
    refine ⟨keeps, framed, pc, mode, fun some' => (self some').trans ?_, others⟩
    rw [awake_pl]
    rfl
  · have regs : ∀ k, getX ((awake b s.begin).at b).pl k = getX (s.at b).pl k := fun k => by
      rw [awake_pl]
      rfl
    by_cases takes : rvCond c (getX (s.at b).pl rs1.val) (getX (s.at b).pl rs2.val) = true
    · refine (answers_rv (f := fun p => { countRetired p with pc := p.pc + off }) ready found rfl ?_).imp fun t ⟨_, framed, pl⟩ => ?_
      · exact if_pos (by rw [regs, regs]; exact takes)
      · obtain ⟨n, counted⟩ := countRetired_csr (p := unstalled (s.at b).pl)
        rw [pl, counted, if_pos takes]
        exact ⟨framed, rfl, rfl⟩
    · refine (answers_rv (f := retire len) ready found rfl ?_).imp fun t ⟨_, framed, pl⟩ => ?_
      · exact if_neg (by rw [regs, regs]; exact takes)
      · obtain ⟨n, counted⟩ := countRetired_csr (p := unstalled (s.at b).pl)
        rw [pl, retire, counted, if_neg takes]
        exact ⟨framed, rfl, rfl⟩
  · have next : ((awake b s.begin).at b).pl.pc = (s.at b).pl.pc := by
      rw [awake_pl]
      rfl
    refine (answers_rv (f := jumps rd rs1 imm ((s.at b).pl.pc + wordOf len)) ready found rfl ?_).imp fun t ⟨_, framed, pl⟩ => ?_
    · rw [← next]
      rfl
    · obtain ⟨pc, self, others⟩ := jumps_core (p := unstalled (s.at b).pl) (rd := rd) (rs1 := rs1) (imm := imm) (next := (s.at b).pl.pc + wordOf len)
      rw [pl]
      exact ⟨framed, pc, self, others⟩
  · rintro i cause tval ⟨found, kind⟩
    refine answers_raises ?_
    rcases kind with ⟨rfl, rfl, rfl⟩ | ⟨rfl, rfl⟩ | ⟨rfl, rfl, rfl⟩ | ⟨rfl, rfl, rfl⟩ | ⟨rfl, user, rfl, rfl⟩
      | ⟨size, sg, rd, rs1, imm, rfl, rfl, bad⟩ | ⟨size, rs1, rs2, imm, rfl, rfl, bad⟩
    · exact pilotInstruction_illegal (s := s.begin) ready found
    · exact pilotInstruction_fault (s := s.begin) ready found
    · exact ecall_raises (s := s.begin) ready found
    · exact pilotInstruction_op (s := s.begin) ready found rfl
    · exact mret_raises (s := s.begin) ready found user
    · exact load_raises (s := s.begin) ready found bad
    · exact store_raises (s := s.begin) ready found bad
  · rintro ⟨found, mode⟩
    refine (answers_rv (f := fun p => doMret (countRetired p)) ready found rfl ?_).imp fun t ⟨_, framed, pl⟩ => ?_
    · refine if_pos ?_
      rw [awake_pl]
      exact mode
    · obtain ⟨n, counted⟩ := countRetired_csr (p := unstalled (s.at b).pl)
      rw [pl, counted]
      exact ⟨framed, rfl, rfl, rfl, rfl⟩

end Sys2Proof.Machine

/-! Which accesses reach what does not depend on the accesses that wait (R22, R36, R39). -/
namespace Sys2Proof.Machine
set_option Elab.async false

section
variable {s t : State} {b : BId} {tray : Bool} {req : ReqId} {off blk : Nat}

/-! ### Which registers are mapped (R36) -/

theorem readTd_mapped : (readTd s b off).isSome = (readTd t b off).isSome := by
  unfold readTd
  dsimp only
  split <;> simp only [Option.isSome_some, Option.isSome_none]

theorem readSy_mapped : (readSy s b tray off).isSome = (readSy t b tray off).isSome := by
  unfold readSy
  dsimp only
  split <;> simp only [apply_ite Option.isSome, Option.isSome_some, Option.isSome_none]

theorem readCh_mapped : (readCh s b tray off).isSome = (readCh t b tray off).isSome := by
  unfold readCh
  dsimp only
  split
  case h_12 => split <;> simp only [apply_ite Option.isSome, Option.isSome_some, Option.isSome_none]
  all_goals simp only [apply_ite Option.isSome, Option.isSome_some, Option.isSome_none]

theorem readDk_mapped : (readDk s b req off).isSome = (readDk t b req off).isSome := by
  unfold readDk
  dsimp only
  split
  case h_9 => split <;> simp only [Option.isSome_some, Option.isSome_none]
  all_goals simp only [Option.isSome_some]

theorem readSvc_mapped : (readSvc s b off).isSome = (readSvc t b off).isSome := by
  unfold readSvc
  dsimp only
  split
  case h_15 => split <;> simp only [Option.isSome_some, Option.isSome_none]
  all_goals simp only [Option.isSome_some]

theorem readHw_mapped : (readHw s b req off).isSome = (readHw t b req off).isSome := by
  unfold readHw
  dsimp only
  split
  case h_20 =>
    split
    case h_3 => exact readSvc_mapped
    all_goals simp only [Option.isSome_some]
  all_goals simp only [Option.isSome_some]

theorem readRl_mapped : (readRl s b off).isSome = (readRl t b off).isSome := by
  unfold readRl
  dsimp only
  split
  case h_17 =>
    split
    case h_5 => split <;> simp only [Option.isSome_some, Option.isSome_none]
    all_goals simp only [Option.isSome_some]
  all_goals simp only [Option.isSome_some]

theorem readPw_mapped : (readPw s b off).isSome = (readPw t b off).isSome := by
  unfold readPw
  dsimp only
  split
  case h_11 =>
    split
    case h_5 =>
      split
      case h_5 => split <;> simp only [Option.isSome_some, Option.isSome_none]
      all_goals simp only [Option.isSome_some]
    all_goals simp only [Option.isSome_some]
  all_goals simp only [Option.isSome_some]

theorem readPwTray_mapped : (readPwTray s b off).isSome = (readPwTray t b off).isSome := by
  unfold readPwTray
  dsimp only
  split
  case h_8 => split <;> simp only [Option.isSome_some, Option.isSome_none]
  all_goals simp only [Option.isSome_some]

theorem readCl_mapped : (readCl s b off).isSome = (readCl t b off).isSome := by
  unfold readCl
  dsimp only
  split
  case h_3 =>
    split
    case isTrue => rfl
    case isFalse => split <;> simp only [Option.isSome_some, Option.isSome_none]
  all_goals simp only [Option.isSome_some]

theorem readLk_mapped : (readLk s b off).isSome = (readLk t b off).isSome := by
  unfold readLk
  dsimp only
  split <;> simp only [Option.isSome_some, Option.isSome_none]

theorem readAr_mapped : (readAr s b req off).isSome = (readAr t b req off).isSome := by
  unfold readAr
  dsimp only
  split
  case h_10 =>
    split
    case h_1 => simp only [Option.isSome_some]
    case h_2 =>
      split
      case isTrue => rfl
      case isFalse =>
        split
        case h_10 => simp only [Option.isSome_map]
        all_goals simp only [Option.isSome_some]
  all_goals simp only [Option.isSome_some]

theorem readPg_mapped : (readPg s b req off).isSome = (readPg t b req off).isSome := by
  unfold readPg
  dsimp only
  split
  case h_16 =>
    split
    case h_5 => split <;> simp only [Option.isSome_some, Option.isSome_none]
    all_goals simp only [Option.isSome_some]
  all_goals simp only [Option.isSome_some]

theorem readImg_mapped : (readImg s b off).isSome = (readImg t b off).isSome := by
  unfold readImg
  dsimp only
  split
  case h_4 => split <;> simp only [Option.isSome_some, Option.isSome_none]
  all_goals simp only [Option.isSome_some]

theorem readPl_mapped : (readPl s b off).isSome = (readPl t b off).isSome := by
  unfold readPl
  dsimp only
  split
  case h_16 =>
    split
    case isTrue => rfl
    case isFalse => simp only [apply_ite Option.isSome, Option.isSome_map, ite_self, readImg_mapped (s := s) (t := t)]
  all_goals simp only [Option.isSome_some]

theorem readDm_mapped : (readDm s b off).isSome = (readDm t b off).isSome := by
  unfold readDm
  dsimp only
  split
  case isTrue => split <;> simp only [Option.isSome_some, Option.isSome_none]
  case isFalse => simp only [Option.isSome_map]

theorem readTw_mapped : (readTw s b off).isSome = (readTw t b off).isSome := by
  unfold readTw
  dsimp only
  split
  case h_7 => simp only [Option.isSome_map]
  all_goals simp only [Option.isSome_some]

theorem readUs_mapped : (readUs s b req off).isSome = (readUs t b req off).isSome := by
  unfold readUs
  dsimp only
  split <;> simp only [Option.isSome_some, Option.isSome_none]

theorem readHl_mapped : (readHl s b off).isSome = (readHl t b off).isSome := by
  unfold readHl
  dsimp only
  split
  case h_4 => simp only [Option.isSome_map]
  all_goals simp only [Option.isSome_some]

theorem readHlTray_mapped : (readHlTray s b req off).isSome = (readHlTray t b req off).isSome := by
  unfold readHlTray
  dsimp only
  split
  case h_9 => split <;> simp only [Option.isSome_some, Option.isSome_none]
  all_goals simp only [Option.isSome_some]

theorem liveReg_mapped : (liveReg s b tray req blk off).isSome = (liveReg t b tray req blk off).isSome := by
  unfold liveReg
  split
  case h_1 => exact readSy_mapped
  case h_2 => exact readTd_mapped
  case h_3 => exact readCh_mapped
  case h_4 => exact readDk_mapped
  case h_5 => exact readHw_mapped
  case h_6 => exact readRl_mapped
  case h_7 =>
    split
    · rfl
    · exact readPw_mapped
  case h_8 =>
    split
    · exact readPwTray_mapped
    · rfl
  case h_9 => exact readCl_mapped
  case h_10 => exact readLk_mapped
  case h_11 => exact readAr_mapped
  case h_12 => exact readPg_mapped
  case h_13 => exact readPl_mapped
  case h_14 => exact readDm_mapped
  case h_15 =>
    split
    · exact readTw_mapped
    · rfl
  case h_16 =>
    split
    · exact readUs_mapped
    · rfl
  case h_17 =>
    split
    · rfl
    · exact readHl_mapped
  case h_18 =>
    split
    · exact readHlTray_mapped
    · rfl
  case h_19 => rfl

theorem reachAt_mapped : reachAt s b tray req off = reachAt t b tray req off := by
  have same {blk o : Nat} {r : Reach} : (liveReg s b tray req blk o).map (fun _ => r) = (liveReg t b tray req blk o).map (fun _ => r) := by
    have mapped := liveReg_mapped (s := s) (t := t) (b := b) (tray := tray) (req := req) (blk := blk) (off := o)
    cases first : liveReg s b tray req blk o <;> cases second : liveReg t b tray req blk o <;> simp_all
  unfold reachAt
  simp only [same]

end

/-! ### The tests of an access (R39) -/

/-- Two states that differ in the accesses that wait, or that timed out, alone. -/
structure SameTests (s t : State) : Prop where
  rest : Touch [.sy] s t
  sy : ∀ c, ∃ rs ts, (t.at c).sy = { (s.at c).sy with remotes := rs, timedOut := ts }

section
variable {s t u : State} {b : BId} {w : Who} {write : Bool} {a size : Nat}

theorem SameTests.trans (h : SameTests s t) (k : SameTests t u) : SameTests s u := by
  refine ⟨h.rest.trans k.rest, fun c => ?_⟩
  obtain ⟨_, _, first⟩ := h.sy c
  obtain ⟨rs, ts, second⟩ := k.sy c
  exact ⟨rs, ts, by rw [second, first]⟩

theorem updSnap_sameTests {f : Sy → Sy} (keeps : ∀ y, ∃ rs ts, f y = { y with remotes := rs, timedOut := ts }) : SameTests s (updSnap b f s) := by
  refine ⟨updSnap_touch sub_self .refl, fun c => ?_⟩
  rw [updSnap_sy]
  split
  · exact keeps _
  · exact ⟨_, _, rfl⟩

section
variable (same : SameTests s t)
include same

theorem SameTests.at_st (c : BId) : (t.at c).sy.st = (s.at c).sy.st := by
  obtain ⟨_, _, eq⟩ := same.sy c
  rw [eq]

theorem SameTests.harbour_eq : t.harbour = s.harbour := by
  have role : ∀ c, (t.at c).sy.isHarbour = (s.at c).sy.isHarbour := fun c => by
    obtain ⟨_, _, eq⟩ := same.sy c
    rw [eq]
  simp only [State.harbour, role]

theorem SameTests.linkOk_eq {p : Nat} : linkOk t b p = linkOk s b p := by
  simp only [linkOk, inRing, portOf, same.rest.at_dev (by decide), same.rest.at_rp (by decide)]

theorem SameTests.wayTo_eq {up : Bool} {d x : BId} {k : Nat} : wayTo t up d k x = wayTo s up d k x := by
  have hop : ∀ x, hopTo t up d x = hopTo s up d x := fun x => by
    simp only [hopTo, chordUsed, same.linkOk_eq, same.rest.at_dev (by decide)]
    rfl
  induction k generalizing x with
  | zero => rfl
  | succ k ih => simp only [wayTo, hop, ih]

theorem SameTests.answers_eq : answers t w b = answers s w b := by
  simp only [answers, reachable, inRing, hops, route, same.wayTo_eq, same.at_st, same.harbour_eq, same.rest.at_dev (by decide)]

theorem SameTests.accessTarget_eq : accessTarget t w a = accessTarget s w a := by
  simp only [accessTarget, addrWindow, same.harbour_eq]

theorem SameTests.lateTarget_eq {r : Remote} : lateTarget t b r = lateTarget s b r := by
  simp only [lateTarget, same.accessTarget_eq]

theorem SameTests.trayPopulated_eq : trayPopulated t = trayPopulated s := by
  simp only [trayPopulated, Berth.populated, Berth.recWord, same.harbour_eq, same.rest.at_ch (by decide)]

theorem SameTests.access_eq : access t w write a size = access s w write a size := by
  have reach : ∀ {c tray o}, reachAt t c tray w.req o = reachAt s c tray w.req o := reachAt_mapped
  simp only [access, addrWindow, errHome, reach, same.answers_eq, same.harbour_eq, same.trayPopulated_eq, same.at_st, same.rest.at_dk (by decide)]

end
end
end Sys2Proof.Machine

/-! CSR instructions, FENCE, WFI, interrupts, and accesses over the ring that time out or are answered (R22, R23, R362, R363, R366). -/
namespace Sys2Proof.Machine
set_option Elab.async false

section
variable {s t u : State} {b n m : BId} {p : Pilot} {v : Word} {len : Nat}

/-! ### CSR instructions (R363) -/

theorem csrGet_unstalled {k : Nat} : csrGet b (unstalled p) k = csrGet b p k := rfl

theorem getX_unstalled {i : Nat} : getX (unstalled p) i = getX p i := rfl

section
variable (ready : coreReady s b = true)
include ready

theorem csrAccess_eq {op : RvCsr} {imm : Bool} {rd rs1 k : Nat} (found : fetch (s.at b) b = .op (.csr op imm rd rs1 k) len) :
    csrAccess b s = csrExec b op imm rd rs1 k len (awake b s) := by
  unfold csrAccess
  rw [if_neg (by simp [ready]), found]

theorem fenceOp_eq (found : fetch (s.at b) b = .op .fence len) : fenceOp b s = if unacked s b then s else (awake b s).updPl b (retire len) := by
  unfold fenceOp
  rw [found]
  simp only [ready, Bool.not_true, Bool.false_or]

theorem wfiOp_eq (found : fetch (s.at b) b = .op .wfi len) :
    wfiOp b s = s.updPl b fun p => { retire len p with waiting := (pendingIrq p).isNone } := by
  unfold wfiOp
  rw [if_neg (by simp [ready]), found]

theorem interruptTaken_eq {k : Nat} (pends : pendingIrq (s.at b).pl = some k) (enabled : (s.at b).pl.machine = false ∨ (s.at b).pl.csr.mie = true) :
    interruptTaken b s = s.updPl b (trap true k 0) := by
  unfold interruptTaken
  dsimp only
  rw [pends]
  exact if_pos (by rcases enabled with e | e <;> simp [ready, e])

end

section
variable {rd rs1 : Fin 32} {k : Nat} {old : Word} (got : csrGet b (s.at b).pl k = some old)
include got

/-- A write of a CSR by the machine's own mode. -/
def csrWritten (len rd k : Nat) (old v : Word) (p : Pilot) : Pilot := { retire len (setX rd old p) with csr := csrPut k v (retire len (setX rd old p)).csr }

theorem csrExec_write (mode : (s.at b).pl.machine = true) (open' : k / 1024 ≠ 3) :
    csrExec b .write false rd.val rs1.val k len (awake b s) = (awake b s).updPl b (csrWritten len rd.val k old (getX (s.at b).pl rs1.val)) := by
  unfold csrExec
  extract_lets p writes v bad
  have core : p = unstalled (s.at b).pl := awake_pl
  have found : csrGet b p k = some old := by rw [core, csrGet_unstalled, got]
  have good : bad = false := by simp [bad, core, unstalled, mode, open']
  have value : v = getX (s.at b).pl rs1.val := by simp [v, core, getX_unstalled]
  rw [found, good, value]
  rfl

theorem csrExec_readOnly (closed : k / 1024 = 3) : csrExec b .write false rd.val rs1.val k len (awake b s) = raise b 2 0 (awake b s) := by
  unfold csrExec
  extract_lets p writes v bad
  have core : p = unstalled (s.at b).pl := awake_pl
  have found : csrGet b p k = some old := by rw [core, csrGet_unstalled, got]
  have denied : bad = true := by simp [bad, writes, closed]
  rw [found, denied]
  rfl

end

theorem csrWritten_core {rd : Fin 32} {k : Nat} {old : Word} : (rd ≠ 0 → getX (csrWritten len rd.val k old v (unstalled p)) rd.val = old)
    ∧ (csrWritten len rd.val k old v (unstalled p)).pc = p.pc + wordOf len
    ∧ (csrWritten len rd.val k old v (unstalled p)).csr = csrPut k v (countRetired p).csr := by
  obtain ⟨pc, -, self, -⟩ := retire_setX (len := len) (rd := rd) (v := old) (p := unstalled p)
  obtain ⟨r, set⟩ := setX_regs (p := unstalled p) (v := old) (i := rd.val)
  have csr : (retire len (setX rd.val old (unstalled p))).csr = (countRetired p).csr := by
    unfold retire
    rw [set]
    unfold countRetired unstalled
    dsimp only
    split
    · rfl
    · rfl
  refine ⟨fun some' => self some', pc, ?_⟩
  unfold csrWritten
  rw [csr]

/-! ### Accesses over the ring (R22, R23) -/

/-- Party w accesses for requester q of berth b. -/
theorem whoOf_pilot {r : Remote} (own : r.req = (pilotWho b).req) : whoOf r.req b = some (pilotWho b) := by
  rw [own]
  unfold whoOf
  rw [if_pos (by exact b.isLt)]
  exact congrArg (fun c => some (pilotWho c)) (Fin.ext (Nat.mod_eq_of_lt b.isLt))

theorem updSnap_own {f : Sy → Sy} : ((updSnap b f s).at b).sy = f (s.at b).sy := by
  rw [updSnap_sy, if_pos rfl]

/-- The state in which an answered access is carried out: it waits no longer, and earlier ones of its requester that timed out have no
effect any more (R23). -/
def remoteTaken (b n : BId) (r : Remote) (s : State) : State :=
  updSnap b (fun y => { y with remotes := y.remotes.erase r }) (dropLate b r.req n s)

/-- The accesses that timed out and may still reach berth n, but for those of requester q. -/
def lateKept (s : State) (b n : BId) (q : ReqId) (r : Remote) : Bool := !(r.req == q && lateTarget s b r == some n)

theorem remoteTaken_sameTests {r : Remote} : SameTests s (remoteTaken b n r s) :=
  .trans (updSnap_sameTests fun _ => ⟨_, _, rfl⟩) (updSnap_sameTests fun _ => ⟨_, _, rfl⟩)

theorem remoteTaken_sy {r : Remote} : ((remoteTaken b n r s).at b).sy = { (s.at b).sy with
    remotes := (s.at b).sy.remotes.erase r, timedOut := (s.at b).sy.timedOut.filter (lateKept s b n r.req) } := by
  unfold remoteTaken dropLate
  rw [updSnap_own, updSnap_own]
  rfl

theorem remoteReply_eq {r : Remote} (found : (s.at b).sy.remotes.find? (fun r => lateTarget s b r == some n) = some r) :
    remoteReply b n none s = remoteEnd b r (carryOut b r (remoteTaken b n r s)).1 (accessSend 101 n b (carryOut b r (remoteTaken b n r s)).2) := by
  unfold remoteReply
  dsimp only
  rw [found]
  rfl

theorem remoteReply_none (found : (s.at b).sy.remotes.find? (fun r => lateTarget s b r == some n) = none) : remoteReply b n none s = s := by
  unfold remoteReply
  dsimp only
  rw [found]

theorem remoteReply_late {q : ReqId} {r : Remote}
    (found : (s.at b).sy.timedOut.find? (fun r => r.req == q && lateTarget s b r == some n) = some r) :
    remoteReply b n (some q) s = accessSend 101 n b (carryOut b r (updSnap b (fun y => { y with timedOut := y.timedOut.erase r }) s)).2 := by
  unfold remoteReply
  dsimp only
  rw [found]

section
variable {r : Remote} {w : Who} (who : whoOf r.req b = some w)
include who

theorem carryOut_error {c : Nat} {h : BId} (read : r.write = false) (fails : access s w false r.addr r.size = .error (c, h)) :
    carryOut b r s = (.error c, recordErr h c w false r.addr s) := by
  unfold carryOut readAccess
  rw [who]
  dsimp only
  rw [if_neg (by rw [read]; decide), fails]

theorem carryOut_read {reach : Reach} (read : r.write = false) (reaches : access s w false r.addr r.size = .ok (m, reach)) :
    carryOut b r s = (.ok (readAt w m reach r.size s).1, (readAt w m reach r.size s).2) := by
  unfold carryOut readAccess
  rw [who]
  dsimp only
  rw [if_neg (by rw [read]; decide), reaches]

theorem carryOut_store {o : Nat} (write : r.write = true) (reaches : access s w true r.addr r.size = .ok (m, .tcm o)) :
    carryOut b r s = (.ok 0, memAt w m (.tcm o) r.size r.data s) := by
  unfold carryOut writeAccess
  rw [who]
  dsimp only
  rw [if_pos write, reaches]
  rfl

end

/-! ### What carrying out an access leaves of a core -/

/-- Every berth keeps the accesses that wait there, and every core its pc. -/
def PcsKept (s t : State) : Prop := ∀ c, (t.at c).sy.remotes = (s.at c).sy.remotes ∧ (t.at c).pl.pc = (s.at c).pl.pc

theorem PcsKept.refl : PcsKept s s := fun _ => ⟨rfl, rfl⟩

theorem PcsKept.trans (h : PcsKept s t) (k : PcsKept t u) : PcsKept s u := fun c =>
  ⟨(k c).1.trans (h c).1, (k c).2.trans (h c).2⟩

theorem Touch.pcsKept {fs : List Piece} (h : Touch fs s t) (sy : .sy ∉ fs := by decide) (pl : .pl ∉ fs := by decide) : PcsKept s t := fun c =>
  ⟨congrArg Sy.remotes (h.at_sy sy c), congrArg Pilot.pc (h.at_pl pl c)⟩

theorem Background.pcsKept (h : Background s t) : PcsKept s t := fun c => by
  obtain ⟨_, _, sy⟩ := h.sy c
  obtain ⟨_, _, pl⟩ := h.pl c
  rw [sy, pl]
  exact ⟨rfl, rfl⟩

theorem updSnap_pcsKept {f : Sy → Sy} (keeps : ∀ y, (f y).remotes = y.remotes) : PcsKept s (updSnap b f s) := fun c => by
  refine ⟨?_, congrArg Pilot.pc (Touch.at_pl (updSnap_touch sub_self .refl) (by decide) c)⟩
  rw [updSnap_sy]
  split
  · exact keeps _
  · rfl

theorem tagsMoved_calm (h : Calm s t) : Calm s (tagsMoved b t) := by
  have waiting : Calm s (issueWaiting b t) := h.touch (issueWaiting_touch sub_self .refl)
  unfold tagsMoved
  exact dmaPump_calm (dmaPump_calm waiting)

theorem cplRead_pcsKept : PcsKept s (cplRead b s).2 := by
  unfold cplRead
  split
  · exact .refl
  · extract_lets s1
    have taken : Calm s s1 := updHw_calm .refl
    dsimp only
    exact (tagsMoved_calm taken).background.pcsKept

theorem regRead_pcsKept {tray : Bool} {req : ReqId} {blk off : Nat} : PcsKept s (regRead b tray req blk off s).2 := by
  unfold regRead
  extract_lets key
  split
  · exact updSnap_pcsKept fun _ => rfl
  split
  · exact Touch.pcsKept (allocRead_touch sub_self .refl)
  split
  · exact Touch.pcsKept (allocRead_touch sub_self .refl)
  split
  · exact cplRead_pcsKept
  split
  · exact Touch.pcsKept (evqRead_touch sub_self .refl)
  split
  · exact Touch.pcsKept (faultRead_touch sub_self .refl)
  split
  · exact Touch.pcsKept (pwrRead_touch sub_self .refl)
  split
  · exact updSnap_pcsKept fun _ => rfl
  split
  · unfold counterHigh
    split
    · split
      · exact updSnap_pcsKept fun _ => rfl
      · exact .refl
    · exact .refl
  · exact .refl

theorem readAt_pcsKept {w : Who} {reach : Reach} {size : Nat} : PcsKept s (readAt w b reach size s).2 := by
  unfold readAt
  split
  · exact regRead_pcsKept
  · exact .refl
  · exact .refl
  · exact Touch.pcsKept (fs := [.freeCtr, .ar]) (cellRead_touch (by decide) (State.draw_touch (by decide) .refl))

/-! ### The end of an access (R22, R23) -/

theorem recordErr_keeps {c : Nat} {h k : BId} {w : Who} {write : Bool} {a : Nat} : ((recordErr h c w write a s).at k).sy.remotes = (s.at k).sy.remotes
    ∧ ((recordErr h c w write a s).at k).sy.timedOut = (s.at k).sy.timedOut := by
  unfold recordErr
  rw [updSnap_sy]
  split
  case isFalse => exact ⟨rfl, rfl⟩
  case isTrue =>
    split
    · exact ⟨rfl, rfl⟩
    · exact ⟨rfl, rfl⟩

/-- A load that completes. -/
theorem remoteEnd_load {r : Remote} {val : Word} (read : r.write = false) :
    remoteEnd b r (.ok val) s = s.updPl b fun p => retire r.len (setX r.rd (loadValue r.size r.signed val) p) := by
  unfold remoteEnd
  exact if_neg (by rw [read]; decide)

theorem remoteEnd_store {r : Remote} {val : Word} (write : r.write = true) : remoteEnd b r (.ok val) s = s := by
  unfold remoteEnd
  exact if_pos write

/-- The core at the instruction of an access that faults. -/
def faultsAt (r : Remote) (p : Pilot) : Pilot := trap false (if r.write then 7 else 5) (wordOf r.addr) { p with pc := r.pc }

theorem faultsAt_mcause {r : Remote} : (faultsAt r p).csr.mcause = if r.write = true then 7 else 5 := by
  unfold faultsAt trap
  dsimp only
  split <;> rfl

theorem remoteEnd_fault {r : Remote} {c : Nat} : remoteEnd b r (.error c) s = s.updPl b (faultsAt r) := rfl

theorem timeOut_eq {r : Remote} {rs : List Remote} {w : Who} (who : whoOf r.req b = some w) :
    timeOut b (r :: rs) s = updSnap b (fun y => { y with timedOut := y.timedOut ++ r :: rs }) (recordErr b 5 w r.write r.addr s) := by
  unfold timeOut
  dsimp only
  rw [who]

theorem timeOut_sy {r : Remote} {w : Who} (who : whoOf r.req b = some w) : ((timeOut b [r] s).at b).sy.remotes = (s.at b).sy.remotes
    ∧ ((timeOut b [r] s).at b).sy.timedOut = (s.at b).sy.timedOut ++ [r] := by
  obtain ⟨remotes, timed⟩ := recordErr_keeps (s := s) (c := 5) (h := b) (k := b) (w := w) (write := r.write) (a := r.addr)
  rw [timeOut_eq who, updSnap_own]
  exact ⟨remotes, congrArg (· ++ [r]) timed⟩

/-- A store to TCM writes its bytes; of a pilot it ends a reservation at most. -/
theorem memAt_tcm_any {w : Who} {o size : Nat} {val : Word} : ((memAt w m (.tcm o) size val s).at m).tcm = memWrite ramD (s.at m).tcm o (leBytes size val.toNat) := by
  unfold memAt
  extract_lets bs
  split
  · dsimp only
    rw [State.upd_at, if_pos rfl]
  · dsimp only
    rw [State.tcmWrite, State.upd_at, if_pos rfl, breakResv_eq]

theorem memAt_tcm_touch {w : Who} {o size : Nat} {val : Word} : Touch [.tcm, .pl] s (memAt w m (.tcm o) size val s) := by
  unfold memAt
  extract_lets bs
  split
  · exact Touch.upd .refl fun x => TouchB.setTcm (by decide) memWrite_wf
  · exact State.tcmWrite_touch (by decide) .refl

theorem memAt_tcm_calm {w : Who} {o size : Nat} {val : Word} : Background s (memAt w m (.tcm o) size val s) := by
  unfold memAt
  extract_lets bs
  split
  · dsimp only
    refine ⟨fun c => ?_, fun c => ?_⟩
    · rw [State.upd_at]
      split
      · exact ⟨_, _, rfl⟩
      · exact ⟨_, _, rfl⟩
    · rw [State.upd_at]
      split
      · exact ⟨_, _, rfl⟩
      · exact ⟨_, _, rfl⟩
  · exact tcmWrite_background .refl

/-- What a store to TCM leaves there. -/
theorem memAt_tcm_reads {w : Who} {o size : Nat} {val : Word} (wf : (s.at m).memCanonical = true) :
    memRead ramD ((memAt w m (.tcm o) size val s).at m).tcm o size = leBytes size val.toNat
      ∧ ∀ a, a < o ∨ o + size ≤ a → memGet ramD ((memAt w m (.tcm o) size val s).at m).tcm a = memGet ramD (s.at m).tcm a := by
  have long : (leBytes size val.toNat).length = size := leBytes_length
  rw [memAt_tcm_any]
  refine ⟨?_, fun a out => memGet_memWrite_out (long.symm ▸ out)⟩
  have back := memRead_memWrite (a := o) (bs := leBytes size val.toNat) (Berth.memCanonical_iff.mp wf).1
  rwa [long] at back

theorem accessSend_touch' {k : Nat} {a c : BId} : Touch [.rp] s (accessSend k a c s) := accessSend_touch sub_self .refl

/-- A store that reaches a TCM, and its acknowledgement. -/
theorem storeArrives_facts {v : State} {k : BId} {w : Who} {o size : Nat} {val : Word} :
    Touch [.tcm, .pl, .rp] v (accessSend 101 b k (memAt w m (.tcm o) size val v)) ∧ Background v (accessSend 101 b k (memAt w m (.tcm o) size val v))
      ∧ ((v.at m).memCanonical = true → memRead ramD ((accessSend 101 b k (memAt w m (.tcm o) size val v)).at m).tcm o size = leBytes size val.toNat
        ∧ ∀ a, a < o ∨ o + size ≤ a →
          memGet ramD ((accessSend 101 b k (memAt w m (.tcm o) size val v)).at m).tcm a = memGet ramD (v.at m).tcm a) := by
  refine ⟨accessSend_touch (by decide) (memAt_tcm_touch.mono (by decide)), memAt_tcm_calm.touch accessSend_touch', fun wf => ?_⟩
  rw [accessSend_touch'.at_tcm (by decide) m]
  exact memAt_tcm_reads wf

theorem SameTests.canonical (same : SameTests s t) (wf : (s.at m).memCanonical = true) : (t.at m).memCanonical = true := by
  rw [Berth.memCanonical_iff] at wf ⊢
  rw [same.rest.at_tcm (by decide), same.rest.at_deck (by decide), same.rest.at_flash (by decide)]
  exact wf

end

section
variable {s : State} {b n : BId} {r : Remote} (found : (s.at b).sy.remotes.find? (fun r => lateTarget s b r == some n) = some r)
  (own : r.req = (pilotWho b).req)
include found own

/-- The pilot's access to berth n gets no reply. -/
theorem ringTimeout_pilot : ∃ v : State, ringTimeout b n .pilot s = v.updPl b (faultsAt r) ∧ (v.at b).pl = (s.at b).pl
    ∧ (v.at b).sy.remotes = (s.at b).sy.remotes.erase r ∧ (v.at b).sy.timedOut = (s.at b).sy.timedOut ++ [r] := by
  refine ⟨timeOut b [r] (updSnap b (fun y => { y with remotes := y.remotes.erase r }) s), ?_, ?_, ?_⟩
  · unfold ringTimeout
    dsimp only
    rw [found]
    rfl
  · exact Touch.at_pl (timeOut_touch sub_self (updSnap_touch sub_self .refl)) (by decide) b
  · obtain ⟨remotes, timed⟩ := timeOut_sy (s := updSnap b (fun y => { y with remotes := y.remotes.erase r }) s) (whoOf_pilot own)
    rw [remotes, timed, updSnap_own]
    exact ⟨rfl, rfl⟩

/-- A load that its target refuses ends in an access fault. -/
theorem remoteReply_refused {c : Nat × BId} (read : r.write = false) (fails : access s (pilotWho b) false r.addr r.size = .error c) : ∃ v : State,
    remoteReply b n none s = v.updPl b (faultsAt r) ∧ (v.at b).pl = (s.at b).pl ∧ (v.at b).sy.remotes = (s.at b).sy.remotes.erase r := by
  have refused := carryOut_error (s := remoteTaken b n r s) (whoOf_pilot own) read (remoteTaken_sameTests.access_eq.trans fails)
  refine ⟨_, (remoteReply_eq found).trans (by rw [refused, remoteEnd_fault]), ?_, ?_⟩
  · rw [accessSend_touch'.at_pl (by decide), Touch.at_pl (recordErr_touch sub_self .refl) (by decide) b, remoteTaken_sameTests.rest.at_pl (by decide)]
  · rw [accessSend_touch'.at_sy (by decide), recordErr_keeps.1, remoteTaken_sy]

/-- A load that its target answers completes. -/
theorem remoteReply_loads {m : BId} {reach : Reach} (read : r.write = false) (reaches : access s (pilotWho b) false r.addr r.size = .ok (m, reach)) :
    remoteReply b n none s = (accessSend 101 n b (readAt (pilotWho b) m reach r.size (remoteTaken b n r s)).2).updPl b
      fun p => retire r.len (setX r.rd (loadValue r.size r.signed (readAt (pilotWho b) m reach r.size (remoteTaken b n r s)).1) p) := by
  have done := carryOut_read (s := remoteTaken b n r s) (whoOf_pilot own) read (remoteTaken_sameTests.access_eq.trans reaches)
  rw [remoteReply_eq found, done, remoteEnd_load read]

/-- A load of memory: its value, and what it leaves. -/
theorem remoteReply_memory {m : BId} {reach : Reach} {bytes : List Byte} (read : r.write = false)
    (reaches : access s (pilotWho b) false r.addr r.size = .ok (m, reach))
    (still : readAt (pilotWho b) m reach r.size (remoteTaken b n r s) = (wordOf (leNat bytes), remoteTaken b n r s)) : ∃ v : State,
    remoteReply b n none s = v.updPl b (fun p => retire r.len (setX r.rd (loadValue r.size r.signed (wordOf (leNat bytes))) p))
      ∧ Touch [.sy, .rp] s v ∧ (v.at b).sy = ((remoteTaken b n r s).at b).sy := by
  refine ⟨_, (remoteReply_loads found own read reaches).trans (by rw [still]), ?_, accessSend_touch'.at_sy (by decide) b⟩
  exact accessSend_touch (by decide) (remoteTaken_sameTests.rest.mono (by decide))

/-- A store reaches its target. -/
theorem remoteReply_stores {m : BId} {o : Nat} (write : r.write = true) (reaches : access s (pilotWho b) true r.addr r.size = .ok (m, .tcm o)) :
    remoteReply b n none s = accessSend 101 n b (memAt (pilotWho b) m (.tcm o) r.size r.data (remoteTaken b n r s)) := by
  have done := carryOut_store (s := remoteTaken b n r s) (whoOf_pilot own) write (remoteTaken_sameTests.access_eq.trans reaches)
  rw [remoteReply_eq found, done, remoteEnd_store write]

end
/-- The accesses of the pilot and of the engines that are answered, or answered late. -/
theorem remoteReplies {s : State} {b n : BId} : RemoteReplies s b n := by
  refine ⟨?_, fun none' => ?_, ?_⟩
  · rintro r ⟨found, own⟩
    refine ⟨?_, ?_, ?_, ?_⟩
    · rintro c ⟨read, fails⟩
      obtain ⟨v, eq, pl, remotes⟩ := remoteReply_refused (s := s.begin) found own read (access_begin.trans fails)
      refine answers_of_run (congrArg (ran s) eq) fun t _ e => ?_
      rw [e.at_eq, updPl_pl, Touch.at_sy (State.updPl_touch sub_self .refl) (by decide) b, pl, faultsAt, read]
      exact ⟨rfl, rfl, remotes⟩
    · rintro m o rd bytes ⟨read, dest, kind⟩
      have memory : ∃ reach, access s (pilotWho b) false r.addr r.size = .ok (m, reach)
          ∧ readAt (pilotWho b) m reach r.size (remoteTaken b n r s.begin) = (wordOf (leNat bytes), remoteTaken b n r s.begin) := by
        have rest : Touch [.sy] s.begin (remoteTaken b n r s.begin) := remoteTaken_sameTests.rest
        rcases kind with ⟨reaches, rfl⟩ | ⟨reaches, rfl⟩
        · refine ⟨_, reaches, ?_⟩
          rw [readAt, rest.at_tcm (by decide) m]
          rfl
        · refine ⟨_, reaches, ?_⟩
          rw [readAt, rest.at_deck (by decide) m]
          rfl
      obtain ⟨reach, reaches, still⟩ := memory
      obtain ⟨v, eq, framed, sy⟩ := remoteReply_memory (s := s.begin) found own read (access_begin.trans reaches) still
      refine answers_of_run (congrArg (ran s) eq) fun t _ e => ?_
      obtain ⟨pc, -, self, others⟩ := retire_setX (len := r.len) (rd := rd) (p := (v.at b).pl) (v := loadValue r.size r.signed (wordOf (leNat bytes)))
      have core : (v.at b).pl = (s.at b).pl := framed.at_pl (by decide) b
      rw [e.at_eq, updPl_pl, Touch.at_sy (State.updPl_touch sub_self .refl) (by decide) b, sy, remoteTaken_sy]
      rw [core] at pc self others ⊢
      rw [dest]
      exact ⟨e.agreeOff_begin (by decide) (State.updPl_touch (by decide) (framed.mono (by decide))), rfl, pc, rfl, self, others⟩
    · rintro m reach ⟨read, reaches, -⟩
      refine answers_of_run (congrArg (ran s) (remoteReply_loads (s := s.begin) found own read (access_begin.trans reaches))) fun t _ e => ?_
      have kept : PcsKept (remoteTaken b n r s.begin) (accessSend 101 n b (readAt (pilotWho b) m reach r.size (remoteTaken b n r s.begin)).2) :=
        readAt_pcsKept.trans accessSend_touch'.pcsKept
      have core : ((remoteTaken b n r s.begin).at b).pl = (s.at b).pl := remoteTaken_sameTests.rest.at_pl (by decide) b
      obtain ⟨remotes, pc⟩ := kept b
      rw [remoteTaken_sy] at remotes
      rw [core] at pc
      rw [e.at_eq, updPl_pl, Touch.at_sy (State.updPl_touch sub_self .refl) (by decide) b]
      refine ⟨remotes, ?_⟩
      obtain ⟨_, set⟩ := setX_regs (i := r.rd)
        (v := loadValue r.size r.signed (readAt (pilotWho b) m reach r.size (remoteTaken b n r s.begin)).1)
        (p := ((accessSend 101 n b (readAt (pilotWho b) m reach r.size (remoteTaken b n r s.begin)).2).at b).pl)
      rw [retire, set, ← pc]
    · rintro m o ⟨write, reaches, wf⟩
      refine answers_of_run (congrArg (ran s) (remoteReply_stores (s := s.begin) found own write (access_begin.trans reaches))) fun t _ e => ?_
      have taken : SameTests s.begin (remoteTaken b n r s.begin) := remoteTaken_sameTests
      obtain ⟨framed, core, tcm⟩ := storeArrives_facts (b := n) (k := b) (v := remoteTaken b n r s.begin) (w := pilotWho b) (m := m) (o := o)
        (size := r.size) (val := r.data)
      obtain ⟨back, others⟩ := tcm (taken.canonical wf)
      obtain ⟨_, _, pl⟩ := core.pl b
      rw [e.at_eq, e.at_eq, framed.at_sy (by decide) b, remoteTaken_sy, pl, taken.rest.at_pl (by decide) b]
      refine ⟨e.agreeOff_begin (by decide) ((taken.rest.mono (by decide)).trans (framed.mono (by decide))), rfl, rfl, back, fun a out => ?_⟩
      rw [others a out, taken.rest.at_tcm (by decide) m]
      rfl
  · refine answers_of_run (congrArg (ran s) (remoteReply_none (s := s.begin) none')) fun t _ e => ?_
    exact e.agreeOff_begin (by decide) .refl
  · rintro q w r m o ⟨found, who, write, reaches, wf⟩
    have taken : SameTests s.begin (updSnap b (fun y => { y with timedOut := y.timedOut.erase r }) s.begin) := updSnap_sameTests fun _ => ⟨_, _, rfl⟩
    have done := carryOut_store who write (taken.access_eq.trans (access_begin.trans reaches))
    have late := remoteReply_late (s := s.begin) found
    rw [done] at late
    refine answers_of_run (congrArg (ran s) late) fun t _ e => ?_
    obtain ⟨framed, core, tcm⟩ := storeArrives_facts (b := n) (k := b) (v := updSnap b (fun y => { y with timedOut := y.timedOut.erase r }) s.begin) (w := w) (m := m) (o := o)
      (size := r.size) (val := r.data)
    obtain ⟨_, _, pl⟩ := core.pl b
    rw [e.at_eq, e.at_eq, framed.at_sy (by decide) b, updSnap_own, pl, taken.rest.at_pl (by decide) b]
    exact ⟨e.agreeOff_begin (by decide) ((taken.rest.mono (by decide)).trans (framed.mono (by decide))), rfl, rfl, rfl, (tcm (taken.canonical wf)).1⟩

/-- Settles O41: CSR instructions, FENCE, WFI and interrupts, and accesses over the ring that time out or are answered. -/
theorem pilotWaits : Obligations.PilotWaits := by
  unfold Obligations.PilotWaits
  refine fun s b len => ⟨fun ready => ⟨?_, fun found => ?_, fun found => ?_, ?_⟩, ?_, ?_, ?_, ?_, fun n => remoteReplies⟩
  · rintro rd rs1 k old ⟨found, got⟩
    have run := csrAccess_eq (s := s.begin) ready found
    refine ⟨fun ⟨mode, open'⟩ => ?_, fun closed => ?_⟩
    · rw [csrExec_write (s := s.begin) got mode open'] at run
      refine answers_of_run (congrArg (ran s) run) fun t _ e => ?_
      obtain ⟨self, pc, csr⟩ := csrWritten_core (len := len) (rd := rd) (k := k) (old := old) (v := getX (s.at b).pl rs1.val) (p := (s.at b).pl)
      rw [e.at_eq, updPl_pl, awake_pl]
      exact ⟨e.agreeOff_begin (by decide) (State.updPl_touch (by decide) (State.updPl_touch (by decide) .refl)), self, pc, csr⟩
    · rw [csrExec_readOnly (s := s.begin) got closed] at run
      refine answers_of_run (congrArg (ran s) run) fun t _ e => ?_
      rw [e.at_eq, raise, updPl_pl, awake_pl]
      exact ⟨e.agreeOff_begin (by decide) (State.updPl_touch (by decide) (State.updPl_touch (by decide) .refl)), rfl, rfl, rfl⟩
  · have eq := fenceOp_eq (s := s.begin) ready found
    refine answers_of_run (congrArg (ran s) eq) fun t _ e => ?_
    by_cases waits : unacked s b = false
    · rw [if_neg (by rw [show unacked s.begin b = unacked s b from rfl, waits]; decide)] at e
      obtain ⟨_, counted⟩ := countRetired_csr (p := unstalled (s.at b).pl)
      rw [if_pos waits, e.at_eq, updPl_pl, awake_pl]
      refine ⟨e.agreeOff_begin (by decide) (State.updPl_touch (by decide) (State.updPl_touch (by decide) .refl)), ?_, rfl⟩
      rw [retire, show (s.begin.at b).pl = (s.at b).pl from rfl, counted]
      rfl
    · rw [if_pos (show unacked s.begin b = true from Bool.eq_true_of_not_eq_false waits)] at e
      rw [if_neg waits, e.at_eq]
      exact ⟨e.agreeOff_begin (by decide) .refl, rfl, rfl⟩
  · refine answers_of_run (congrArg (ran s) (wfiOp_eq (s := s.begin) ready found)) fun t _ e => ?_
    rw [e.at_eq, updPl_pl]
    exact ⟨e.agreeOff_begin (by decide) (State.updPl_touch (by decide) .refl), rfl, rfl⟩
  · rintro k ⟨pends, enabled⟩
    refine answers_of_run (congrArg (ran s) (interruptTaken_eq (s := s.begin) ready pends enabled)) fun t _ e => ?_
    rw [e.at_eq, updPl_pl]
    refine ⟨e.agreeOff_begin (by decide) (State.updPl_touch (by decide) .refl), rfl, rfl, rfl, rfl, rfl, rfl, ?_⟩
    unfold trap
    dsimp only
    rw [Bool.true_and]
    split
    case isTrue vectored => rw [if_pos (show bitAt (s.at b).pl.csr.mtvec 0 = true from vectored)]; rfl
    case isFalse direct =>
      rw [if_neg (show ¬bitAt (s.at b).pl.csr.mtvec 0 = true from direct)]
      exact (BitVec.add_zero _).symm
  · rintro ⟨runs, on⟩
    have eq : wfiTimeout b s.begin = awake b s.begin := if_pos (by simp [runs, on])
    refine answers_of_run (congrArg (ran s) eq) fun t _ e => ?_
    rw [e.at_eq, awake_pl]
    exact ⟨e.agreeOff_begin (by decide) (State.updPl_touch (by decide) .refl), rfl⟩
  · rintro ⟨runs, on, enabled⟩
    have eq : mtimecmpMatch b s.begin = if (s.at b).pl.mtimecmp ≤ (s.at b).pl.mtime then awake b s.begin else s.begin := by
      unfold mtimecmpMatch
      simp only [State.begin_at, State.begin_dev, runs, on, enabled, beq_self_eq_true, Bool.not_false, Bool.true_and, Bool.and_true]
      by_cases due : (s.at b).pl.mtimecmp ≤ (s.at b).pl.mtime
      · rw [if_pos due]
        exact if_pos (decide_eq_true due)
      · rw [if_neg due]
        exact if_neg (fun yes => due (of_decide_eq_true yes))
    refine answers_of_run (congrArg (ran s) eq) fun t _ e => ?_
    refine ⟨e.agreeOff_begin (by decide) (ite_touch (State.updPl_touch (by decide) .refl) .refl), ?_⟩
    rw [e.at_eq]
    by_cases due : (s.at b).pl.mtimecmp ≤ (s.at b).pl.mtime
    · rw [if_pos due, awake_pl, decide_eq_false (Nat.not_lt.mpr due), Bool.and_false]
      rfl
    · rw [if_neg due, decide_eq_true (Nat.not_le.mp due), Bool.and_true]
      rfl
  · rintro n write addr data ⟨hbr, far⟩
    have eq : ringTimeout b n (.engine write addr data) s.begin
        = timeOut b [{ req := 11, addr := addr.toNat, size := 4, write := write, data := data }] s.begin := by
      unfold ringTimeout
      exact if_pos (by rw [Bool.and_eq_true]; exact ⟨hbr, far⟩)
    refine answers_of_run (congrArg (ran s) eq) fun t _ e => ?_
    rw [e.at_eq]
    exact ⟨e.agreeOff_begin (by decide) (timeOut_touch (by decide) .refl), (timeOut_sy (w := hostWho 11) rfl).2⟩
  · rintro n r ⟨found, own⟩
    obtain ⟨v, eq, pl, remotes, timed⟩ := ringTimeout_pilot (s := s.begin) found own
    refine answers_of_run (congrArg (ran s) eq) fun t _ e => ?_
    rw [e.at_eq, updPl_pl, Touch.at_sy (State.updPl_touch sub_self .refl) (by decide) b, pl, remotes, timed]
    exact ⟨rfl, rfl, rfl, rfl, faultsAt_mcause, rfl⟩

end Sys2Proof.Machine

/-! The start of a pilot, its software interrupt, watchdog and restarts (R365, R366, R368 to R370). -/
namespace Sys2Proof.Machine
set_option Elab.async false

section
variable {s t u : State} {b n : BId} {hand h : Hand} {i : Nat}

/-! ### A hand without buffers (R369, R381) -/

/-- No buffer is charged to a hand. -/
def FreeOf (hand : Hand) (s : State) : Prop := ∀ n, ∀ e ∈ (s.at n).dk.held, e.2 ≠ hand

theorem FreeOf.touch {fs : List Piece} (free : FreeOf hand s) (k : Touch fs s t) (dk : .dk ∉ fs := by decide) : FreeOf hand t := fun n e mem => by
  rw [k.at_dk dk n] at mem
  exact free n e mem

theorem FreeOf.ite {p : Prop} [Decidable p] (ht : FreeOf hand s) (hu : FreeOf hand t) : FreeOf hand (if p then s else t) := by
  split
  · exact ht
  · exact hu

theorem FreeOf.iter {α : Type} {xs : List α} {f : α → State → State} (free : FreeOf hand s) (step : ∀ x t, FreeOf hand t → FreeOf hand (f x t)) :
    FreeOf hand (Machine.iter xs f s) := iter_induction free fun x t => step x t

theorem FreeOf.updDk {f : Dk → Dk} (free : FreeOf hand s) (keeps : ∀ d, (∀ e ∈ d.held, e.2 ≠ hand) → ∀ e ∈ (f d).held, e.2 ≠ hand) :
    FreeOf hand (s.updDk b f) := fun n => by
  rw [State.updDk_at]
  split
  · exact keeps _ (free n)
  · exact free n

theorem mem_insHeld {l : List (Nat × Hand)} {e : Nat × Hand} (mem : e ∈ insHeld i h l) : e = (i, h) ∨ e ∈ l := by
  induction l with
  | nil => exact .inl (List.mem_singleton.mp mem)
  | cons x xs ih =>
    unfold insHeld at mem
    split at mem
    · exact List.mem_cons.mp mem
    · rcases List.mem_cons.mp mem with rfl | later
      · exact .inr List.mem_cons_self
      · exact Or.imp_right (List.mem_cons_of_mem x) (ih later)

theorem deckRelease_freeOf {g : Nat} (free : FreeOf hand s) : FreeOf hand (deckRelease g s) :=
  free.updDk fun _ kept e mem => kept e (List.mem_filter.mp mem).1

section
variable (ne : h ≠ hand)
include ne

theorem takeFrom_freeOf {draw : Bool} (free : FreeOf hand s) : FreeOf hand (takeFrom s n h draw).2 := by
  unfold takeFrom
  split
  · exact free
  · split
    next v s1 drawn =>
    have same : FreeOf hand s1 := free.touch (State.draw_touch_eq (fs := [.freeCtr]) sub_self drawn .refl)
    refine FreeOf.updDk (FreeOf.updDk same fun d kept e mem => ?_) fun d kept => kept
    rcases mem_insHeld mem with rfl | old
    · exact ne
    · exact kept e old

end

section
variable {cls : Nat} (ne : Hand.mk b cls ≠ hand)
include ne

theorem deckAlloc_freeOf {any : Bool} (free : FreeOf hand s) : FreeOf hand (deckAlloc b cls any s).2 := by
  unfold deckAlloc
  split
  · exact takeFrom_freeOf ne free
  · exact free

theorem allocMany_freeOf {any : Bool} {k : Nat} (free : FreeOf hand s) : FreeOf hand (allocMany b cls any k s).2 := by
  induction k generalizing s with
  | zero => exact free
  | succ k ih =>
    have first := deckAlloc_freeOf ne (any := any) free
    unfold allocMany
    split
    next t eq =>
      rw [eq] at first
      exact first
    next g t eq =>
      rw [eq] at first
      have rest := ih first
      split
      next gs u eq' =>
        rw [eq'] at rest
        exact rest
      next u eq' =>
        rw [eq'] at rest
        exact deckRelease_freeOf rest

end

/-! ### Records and telemetry take none (R165, R445, R446) -/

section
variable {berth : BId} {cls : Nat} (log : cls ≠ 3) (tel : cls ≠ 6)

theorem hand_ne {c d : BId} {k j : Nat} (ne : j ≠ k) : Hand.mk c k ≠ Hand.mk d j := fun same => ne (congrArg Hand.cls same).symm

theorem us_freeOf {f : Berth → Berth} (free : FreeOf hand s) (keeps : ∀ x, (f x).dk = x.dk) : FreeOf hand (s.upd b f) := fun n => by
  rw [State.upd_at]
  split
  · rw [keeps]
    exact free n
  · exact free n

section
include tel

theorem telPut_freeOf {kind : Nat} {bytes : List Byte} (free : FreeOf ⟨berth, cls⟩ s) : FreeOf ⟨berth, cls⟩ (telPut b kind bytes s) := by
  unfold telPut
  extract_lets all
  have taken := allocMany_freeOf (hand_ne tel (c := b) (d := berth)) (any := true) (k := (all.length + 255) / 256) free
  split
  next gs t eq =>
    rw [eq] at taken
    exact us_freeOf taken fun _ => rfl
  next t eq =>
    rw [eq] at taken
    exact us_freeOf taken fun _ => rfl

theorem telLossFirst_freeOf (free : FreeOf ⟨berth, cls⟩ s) : FreeOf ⟨berth, cls⟩ (telLossFirst b s) := by
  unfold telLossFirst
  extract_lets n bytes
  split
  · exact free
  · have taken := allocMany_freeOf (hand_ne tel (c := b) (d := berth)) (any := true) (k := 1) free
    split
    next gs t eq =>
      rw [eq] at taken
      exact us_freeOf taken fun _ => rfl
    next t eq =>
      rw [eq] at taken
      exact taken

theorem telemetry_freeOf {kind : Nat} {bytes : List Byte} (free : FreeOf ⟨berth, cls⟩ s) : FreeOf ⟨berth, cls⟩ (telemetry kind bytes s) := by
  unfold telemetry
  split
  · exact free
  · exact .ite (telPut_freeOf tel (telLossFirst_freeOf tel free)) free

theorem logTake_freeOf {own : Bool} {recs : List LogRec} {buf : Option Nat} (free : FreeOf ⟨berth, cls⟩ s) :
    FreeOf ⟨berth, cls⟩ (logTake b own recs buf s) := by
  unfold logTake
  extract_lets s1
  have queued : FreeOf ⟨berth, cls⟩ s1 := free.touch (State.updLog_touch sub_self .refl)
  exact FreeOf.touch (queued.iter fun _ _ => telemetry_freeOf tel) (logPump_touch sub_self .refl)

theorem logSend_freeOf (free : FreeOf ⟨berth, cls⟩ s) : FreeOf ⟨berth, cls⟩ (logSend b s) := by
  unfold logSend
  extract_lets l t1 t2
  have emptied : FreeOf ⟨berth, cls⟩ t1 := free.touch (State.updLog_touch sub_self .refl)
  have sent : FreeOf ⟨berth, cls⟩ t2 := emptied.touch (ringSend_touch sub_self .refl)
  split
  · exact free
  · split
    · exact logTake_freeOf tel emptied
    · cases l.curBuf with
      | some g => exact deckRelease_freeOf sent
      | none => exact sent

theorem logPush_freeOf {ty : Nat} {p0 p1 p2 : Word} (free : FreeOf ⟨berth, cls⟩ s) : FreeOf ⟨berth, cls⟩ (logPush b ty p0 p1 p2 s) := by
  unfold logPush
  extract_lets x s1
  have pushed : FreeOf ⟨berth, cls⟩ s1 := free.touch (State.updLog_touch sub_self .refl)
  exact .ite (logSend_freeOf tel pushed) pushed

theorem logLoss_freeOf (free : FreeOf ⟨berth, cls⟩ s) : FreeOf ⟨berth, cls⟩ (logLoss b s) :=
  .ite free (logPush_freeOf tel (free.touch (State.updLog_touch sub_self .refl)))

include log

omit tel in
theorem logOpen_freeOf (free : FreeOf ⟨berth, cls⟩ s) : FreeOf ⟨berth, cls⟩ (logOpen b s).2 := by
  unfold logOpen
  split
  · exact free
  · have taken := deckAlloc_freeOf (hand_ne log (c := b) (d := berth)) (any := false) free
    split
    next g t eq =>
      rw [eq] at taken
      dsimp only at taken ⊢
      exact taken.touch (State.updLog_touch sub_self .refl)
    next t eq =>
      rw [eq] at taken
      exact taken

/-- A record takes buffers of the log writer's and of the telemetry's hands alone. -/
theorem logRec_freeOf {ty : Nat} {p0 p1 p2 : Word} (free : FreeOf ⟨berth, cls⟩ s) : FreeOf ⟨berth, cls⟩ (logRec b ty p0 p1 p2 s) := by
  unfold logRec
  split
  · exact free
  · have opened := logOpen_freeOf log (b := b) free
    split
    next t eq =>
      rw [eq] at opened
      exact opened.touch (logDropOne_touch sub_self .refl)
    next t eq =>
      rw [eq] at opened
      have again := logOpen_freeOf log (b := b) (logLoss_freeOf tel (b := b) opened)
      split
      next u eq' =>
        rw [eq'] at again
        exact logPush_freeOf tel again
      next u eq' =>
        rw [eq'] at again
        exact again.touch (logDropOne_touch sub_self .refl)

end
end

/-- What becomes of a berth's deck when a hand's buffers are released (R369, R386). -/
def releasedHeld (h : Hand) (d : Dk) : Dk :=
  let gone := (d.held.filter fun e => e.2 == h).map (·.1)
  { d with held := d.held.filter fun e => e.2 != h
           drawn := d.drawn.filter fun i => !gone.contains i
           handed := d.handed.filter fun e => !gone.contains e.1 }

theorem releaseHand_freeOf : FreeOf hand (releaseHand hand s) := fun n => by
  change ∀ e ∈ ((iter allB (fun n t => t.updDk n (releasedHeld hand)) s).at n).dk.held, e.2 ≠ hand
  refine iter_reaches (P := fun t => ∀ e ∈ (t.at n).dk.held, e.2 ≠ hand) mem_allB (x := n) (fun t e mem => ?_) fun c t free e mem => ?_
  · rw [State.updDk_at, if_pos rfl] at mem
    exact ne_of_beq_false (Bool.not_eq_true' _ |>.mp (List.mem_filter.mp mem).2)
  · rw [State.updDk_at] at mem
    split at mem
    · exact free e (List.mem_filter.mp mem).1
    · exact free e mem

end

/-! ### A restart (R369, R370) -/

section
variable {s t u : State} {b n : BId} {cause : Nat}

/-- Pilot b has restarted: its CSRs and interrupts are reset, the crash registers hold where it stood, its accesses over the ring and
its buffers are gone, and it is loaded again or, with too many restarts, halted. -/
structure RestartsPilot (b : BId) (cause : Nat) (s t : State) : Prop where
  csr : (t.at b).pl.csr = {}
  irqEn : (t.at b).pl.irqEn = 0
  msip : (t.at b).pl.msip = false
  mtimecmp : (t.at b).pl.mtimecmp = 2 ^ 64 - 1
  crash : (t.at b).pl.crash = (s.at b).pl.csr.mcause
  crashPc : (t.at b).pl.crashPc = (s.at b).pl.csr.mepc
  restarts : (t.at b).pl.restarts = sinc (s.at b).pl.restarts
  remotes : (t.at b).sy.remotes = []
  free : FreeOf ⟨b, 5⟩ t
  loaded : (histEvent (s.at b).pl.hist (s.hTide b) 4 600).1 = false → (t.at b).pl.st = .loading ∧ (t.at b).pl.lastCause = cause
    ∧ (t.at b).pl.stream = true
  halted : (histEvent (s.at b).pl.hist (s.hTide b) 4 600).1 = true → (t.at b).pl.st = .halted ∧ (t.at b).pl.lastCause = 4
    ∧ (t.at b).pl.stream = false

theorem RestartsPilot.after (r : RestartsPilot b cause s t) (pl : (u.at b).pl = (t.at b).pl)
    (remotes : (u.at b).sy.remotes = (t.at b).sy.remotes) (dk : ∀ n, (u.at n).dk = (t.at n).dk) : RestartsPilot b cause s u where
  csr := by rw [pl]; exact r.csr
  irqEn := by rw [pl]; exact r.irqEn
  msip := by rw [pl]; exact r.msip
  mtimecmp := by rw [pl]; exact r.mtimecmp
  crash := by rw [pl]; exact r.crash
  crashPc := by rw [pl]; exact r.crashPc
  restarts := by rw [pl]; exact r.restarts
  remotes := remotes.trans r.remotes
  free := fun n => by rw [dk]; exact r.free n
  loaded := by rw [pl]; exact r.loaded
  halted := by rw [pl]; exact r.halted

theorem RestartsPilot.before (r : RestartsPilot b cause u t) (csr : (u.at b).pl.csr = (s.at b).pl.csr)
    (restarts : (u.at b).pl.restarts = (s.at b).pl.restarts) (hist : (u.at b).pl.hist = (s.at b).pl.hist)
    (tide : u.hTide b = s.hTide b) : RestartsPilot b cause s t where
  csr := r.csr
  irqEn := r.irqEn
  msip := r.msip
  mtimecmp := r.mtimecmp
  crash := csr ▸ r.crash
  crashPc := csr ▸ r.crashPc
  restarts := restarts ▸ r.restarts
  remotes := r.remotes
  free := r.free
  loaded := hist ▸ tide ▸ r.loaded
  halted := hist ▸ tide ▸ r.halted

/-- The pilot's block once its core has stopped to be loaded again (R369). -/
def stoppedPilot (hist : Hist) (cause : Nat) (p : Pilot) : Pilot :=
  { p with st := .loading, lastCause := cause, crash := p.csr.mcause, crashPc := p.csr.mepc, restarts := sinc p.restarts, hist := hist
           irqEn := 0, msip := false, mtimecmp := 0xFFFFFFFFFFFFFFFF, csr := {}, resv := none, waiting := false, startDue := false
           failedStreams := 0, stream := true, retry := false }

/-- The pilot's block after one restart too many (R370). -/
def haltedPilot (p : Pilot) : Pilot := { p with st := .halted, lastCause := 4, startDue := false, stream := false, retry := false }

section
variable {pend : Word} {hist : Hist} (remotes : (t.at b).sy.remotes = []) (free : FreeOf ⟨b, 5⟩ t)
include remotes free

theorem RestartsPilot.of_loaded (few : (histEvent (s.at b).pl.hist (s.hTide b) 4 600).1 = false)
    (pl : (t.at b).pl = { stoppedPilot hist cause (s.at b).pl with irqPend := pend }) : RestartsPilot b cause s t where
  csr := congrArg Pilot.csr pl
  irqEn := congrArg Pilot.irqEn pl
  msip := congrArg Pilot.msip pl
  mtimecmp := congrArg Pilot.mtimecmp pl
  crash := congrArg Pilot.crash pl
  crashPc := congrArg Pilot.crashPc pl
  restarts := congrArg Pilot.restarts pl
  remotes := remotes
  free := free
  loaded := fun _ => ⟨congrArg Pilot.st pl, congrArg Pilot.lastCause pl, congrArg Pilot.stream pl⟩
  halted := fun many => absurd (few.symm.trans many) Bool.false_ne_true

theorem RestartsPilot.of_halted (many : (histEvent (s.at b).pl.hist (s.hTide b) 4 600).1 = true)
    (pl : (t.at b).pl = haltedPilot { stoppedPilot hist cause (s.at b).pl with irqPend := pend }) : RestartsPilot b cause s t where
  csr := congrArg Pilot.csr pl
  irqEn := congrArg Pilot.irqEn pl
  msip := congrArg Pilot.msip pl
  mtimecmp := congrArg Pilot.mtimecmp pl
  crash := congrArg Pilot.crash pl
  crashPc := congrArg Pilot.crashPc pl
  restarts := congrArg Pilot.restarts pl
  remotes := remotes
  free := free
  loaded := fun few => absurd (few.symm.trans many) Bool.false_ne_true
  halted := fun _ => ⟨congrArg Pilot.st pl, congrArg Pilot.lastCause pl, congrArg Pilot.stream pl⟩

end

theorem pilotRestart_restarts (counted : cause ≠ 3) : RestartsPilot b cause s (pilotRestart b cause s) := by
  unfold pilotRestart
  extract_lets p isCounted before ev stopped forgotten released
  have counts : isCounted = true := bne_iff_ne.mpr counted
  have stopped_pl : (stopped.at b).pl = stoppedPilot ev.2 cause p := by
    simp only [stopped, State.updPl_at, if_true, counts]
    rfl
  have forgotten_kept : PilotsKept stopped forgotten := .of_eq fun c => by
    simp only [forgotten, State.upd_at]
    split <;> rfl
  have forgotten_remotes : (forgotten.at b).sy.remotes = [] := by simp only [forgotten, State.upd_at, if_true]
  have engines : Touch _ forgotten (dmaPilotReset b 1 (dmaPilotReset b 0 forgotten)) :=
    dmaPilotReset_touch sub_self (dmaPilotReset_touch sub_self .refl)
  have given : Touch [.dk, .hw] _ released := discardOrders_touch (by decide) (releaseHand_touch (by decide) Touch.refl)
  obtain ⟨pend, released_pl⟩ := ((forgotten_kept.trans (dmaPilotReset_pilotsKept (by decide))).trans
    (dmaPilotReset_pilotsKept (by decide))).trans (given.pilotsKept (by decide)) b
  rw [stopped_pl] at released_pl
  have remotes : (released.at b).sy.remotes = [] := by
    rw [given.at_sy (by decide) b, engines.at_sy (by decide) b, forgotten_remotes]
  have free : FreeOf ⟨b, 5⟩ released := releaseHand_freeOf.touch (discardOrders_touch sub_self .refl)
  cases many : ev.1
  case false =>
    rw [if_neg (by simp)]
    exact .of_loaded ((congrArg Sy.remotes ((logRec_touch sub_self .refl).at_sy (by decide) b)).trans remotes)
      (logRec_freeOf (by decide) (by decide) free) many (logRec_pl.trans released_pl)
  case true =>
    rw [if_pos (by simp [counts])]
    refine .of_halted ((congrArg Sy.remotes ((pilotHalt_touch sub_self .refl).at_sy (by decide) b)).trans remotes) ?_ many
      (pilotHalt_pl.trans (by rw [released_pl]; rfl))
    exact FreeOf.touch (logRec_freeOf (by decide) (by decide) (free.touch (State.updPl_touch sub_self .refl))) (notice_touch sub_self .refl)

/-- A restart on the watchdog's expiry, and one that an order asks for (R368, R371). -/
theorem watchdogExpiry_restarts (runs : (s.at b).pl.st = .running) (awake : s.dev.sleep = false) :
    RestartsPilot b 1 s (watchdogExpiry b s) := by
  unfold watchdogExpiry
  rw [if_neg (by simp [runs, awake])]
  have counted : Touch [.pl] s (s.updPl b fun p => { p with wdogExp := sinc p.wdogExp }) := State.updPl_touch sub_self .refl
  refine (pilotRestart_restarts (by decide)).before ?_ ?_ ?_ (hTide_congr counted.harbour_eq fun c => counted.at_td (by decide) c)
  all_goals rw [State.updPl_at, if_pos rfl]

theorem restartOrder_restarts {req : ReqId} (may : MayRestart req) (runs : (s.at b).pl.st = .running) :
    RestartsPilot b 2 s (restartOrder b req 0x7E57 s) := by
  rw [restartOrder_taken (restartResult_taken may runs)]
  have noted : Touch [.pl] s (noteRestart b 0 s) := State.updPl_touch sub_self .refl
  refine (pilotRestart_restarts (by decide)).before ?_ ?_ ?_ (hTide_congr noted.harbour_eq fun c => noted.at_td (by decide) c)
  all_goals rw [noteRestart_pl]

end

/-! ### The start (R365) -/

section
variable {s t : State} {b : BId}

theorem upd_upd {f g : Berth → Berth} : (s.upd b f).upd b g = s.upd b fun x => g (f x) := by
  unfold State.upd
  simp [State.at]

/-- The registers at the start: a0 the berth, a1 whether it is the harbour, a2 the length of the body. -/
def startRegs (b : BId) (x : Berth) : Vector Word 31 :=
  (((Vector.replicate 31 (0 : Word)).set 9 (wordOf b.val)).set 10 (wordOf (b2n x.sy.isHarbour))).set 11 (wordOf x.pl.bodyLen)

/-- The pilot's block once its core runs. -/
def startedPilot (b : BId) (now : Nat) (x : Berth) : Pilot :=
  { x.pl with st := .running, startDue := false, regs := startRegs b x, pc := wordOf (0x20000000 + x.pl.entry), machine := true, csr := {}
              resv := none, waiting := false, wdog := 1000, kickAt := now }

/-- A berth whose pilot has started. -/
def startedBerth (b : BId) (now : Nat) (x : Berth) : Berth :=
  { x with tcm := x.tcm.filter fun c => c.1 < x.pl.bodyLen, pl := startedPilot b now x }

theorem pilotStart_eq (due : (s.at b).pl.startDue = true) (awake : s.dev.sleep = false) :
    pilotStart b s = s.upd b (startedBerth b s.now) := by
  unfold pilotStart
  extract_lets x regs1 regs s1
  rw [if_neg (by simp [x, due, awake])]
  have same : s.upd b (startedBerth b s.now) = s.upd b fun _ => startedBerth b s.now (s.at b) := rfl
  rw [same]
  exact upd_upd

end

/-! ### The stream (R369, R370) -/

section
variable {s t : State} {b h : BId}

/-- The pilot's block after a failed stream. -/
def failedStream (p : Pilot) : Pilot := { p with stream := false, retry := true, failedStreams := p.failedStreams + 1 }

theorem streamDone_failed (streams : (s.at b).pl.stream = true) (awake : s.dev.sleep = false) :
    streamDone b true s = if (s.at b).pl.failedStreams + 1 ≥ 3
      then pilotHalt b 0x22 (restartWindow (s.updPl b failedStream) b) (s.updPl b failedStream) else s.updPl b failedStream := by
  unfold streamDone
  extract_lets r bytes c s1
  have none' : bytes = [] := by
    simp only [bytes]
    split
    · simp
    · rfl
  have failed : s1 = s.updPl b failedStream := by
    simp only [s1, none', List.isEmpty_nil, if_true]
    rfl
  rw [if_neg (by simp [streams, awake]), if_neg (by simp [none']), failed, State.updPl_at, if_pos rfl]
  rfl

theorem imageBytes_ne_nil {role : Nat} {slotB : Bool} : (imageBytes s h role slotB).isEmpty = false := by
  rw [imageBytes, flashAt, memRead, List.isEmpty_eq_false_iff_exists_mem]
  exact ⟨_, List.mem_map.mpr ⟨0, mem_upto (by omega), rfl⟩⟩

/-- A pilot whose copy has passed starts at the next mark boundary (R376). -/
def copiedPilot (r : ImgRole) (p : Pilot) : Pilot :=
  { p with entry := r.entry, bodyLen := r.bodyLen, startDue := true, stream := false, retry := false, failedStreams := 0 }

theorem pilotCopy_passes {bytes : List Byte} {r : ImgRole} (role : r = vget s.tray.img.roles 0)
    (digest : digestBytes (sha384 bytes) = r.digest) (fuse : vget (s.at b).ch.fuse 1 ≤ r.rollback) :
    pilotCopy b bytes s = (true, imageOn b 0 ((s.tcmWrite b 0 ((bytes.drop 64).take 262144)).updPl b (copiedPilot r))) := by
  subst role
  unfold pilotCopy
  extract_lets r ok s1
  exact if_pos (by simp [ok, r, digest, fuse])

theorem streamDone_passes {r : ImgRole} (streams : (s.at b).pl.stream = true) (awake : s.dev.sleep = false) (harbour : s.harbour = some h)
    (role : r = vget s.tray.img.roles 0) (store : r.store = true)
    (digest : digestBytes (sha384 (imageBytes s h 0 r.slotB)) = r.digest) (fuse : vget (s.at b).ch.fuse 1 ≤ r.rollback) :
    streamDone b false s =
      imageOn b 0 ((s.tcmWrite b 0 (((imageBytes s h 0 r.slotB).drop 64).take 262144)).updPl b (copiedPilot r)) := by
  unfold streamDone
  extract_lets q bytes c s1
  have read : bytes = imageBytes s h 0 r.slotB := by
    simp only [bytes, harbour, q, ← role, store]
    rfl
  have copied : c = _ := (congrArg (fun l => pilotCopy b l s) read).trans (pilotCopy_passes role digest fuse)
  rw [if_neg (by simp [streams, awake]), copied, read, imageBytes_ne_nil]
  rfl

end

theorem msipWrite_pl {s : State} {b : BId} {req : ReqId} {on : Bool} : ((msipWrite b req on s).at b).pl =
    if req.val < 8 ∨ req = 11 then { (s.at b).pl with msip := on } else (s.at b).pl := by
  simp only [msipWrite, Bool.or_eq_true, decide_eq_true_eq, beq_iff_eq]
  split
  · rw [State.updPl_at, if_pos rfl]
  · rfl

theorem watchdogKick_pl {s : State} {b : BId} {req : ReqId} {key : BitVec 16} : ((watchdogKick b req key.toNat s).at b).pl =
    if req.val = b.val ∧ key = 0x4B1C then { (s.at b).pl with kickAt := s.now } else (s.at b).pl := by
  have keyed : key.toNat = 0x4B1C ↔ key = 0x4B1C := by
    rw [← BitVec.toNat_inj]
    rfl
  simp only [watchdogKick, Bool.and_eq_true, beq_iff_eq, keyed]
  split
  · rw [State.updPl_at, if_pos rfl]
  · rfl

theorem hostDid_remotes {s : State} {c : BId} {req : ReqId} : ((hostDid req s).at c).sy.remotes = (s.at c).sy.remotes := by
  obtain ⟨act, same⟩ := hostDid_sy (s := s) (c := c) (req := req)
  rw [same]

/-- What the obligation says of a restarted pilot. -/
theorem RestartsPilot.says {s t : State} {b : BId} {cause : Nat} (r : RestartsPilot b cause s t) :
    (t.at b).pl.csr = {} ∧ (t.at b).pl.irqEn = 0 ∧ (t.at b).pl.msip = false ∧ (t.at b).pl.mtimecmp = 2 ^ 64 - 1
      ∧ (t.at b).pl.crash = (s.at b).pl.csr.mcause ∧ (t.at b).pl.crashPc = (s.at b).pl.csr.mepc
      ∧ (t.at b).pl.restarts = sinc (s.at b).pl.restarts ∧ (t.at b).sy.remotes = []
      ∧ (∀ n, ∀ e ∈ (t.at n).dk.held, e.2 ≠ ⟨b, 5⟩)
      ∧ ((histEvent (s.at b).pl.hist (s.hTide b) 4 600).1 = false → (t.at b).pl.st = .loading
          ∧ (t.at b).pl.lastCause = cause ∧ (t.at b).pl.stream = true)
      ∧ ((histEvent (s.at b).pl.hist (s.hTide b) 4 600).1 = true → (t.at b).pl.st = .halted ∧ (t.at b).pl.lastCause = 4
          ∧ (t.at b).pl.stream = false) :=
  ⟨r.csr, r.irqEn, r.msip, r.mtimecmp, r.crash, r.crashPc, r.restarts, r.remotes, r.free, r.loaded, r.halted⟩

/-- Settles O42: the start, the software interrupt, the watchdog and the restarts of a pilot, by what each operation does to its block. -/
theorem pilotRestarts : Obligations.PilotRestarts := by
  unfold Obligations.PilotRestarts
  intro s b
  refine ⟨fun ⟨due, awake⟩ => ?_, fun req on pass => ?_, fun req key pass => ?_, fun i cause ⟨runs, what⟩ => ?_, fun ⟨streams, awake⟩ =>
    ⟨fun few => ?_, fun many => ?_, fun h r ⟨harbour, role, store, digest, fuse⟩ => ?_⟩⟩
  · refine answers_of_run (run := congrArg (ran s) (pilotStart_eq (s := s.begin) due awake)) fun t queue e => ?_
    have berth : t.at b = startedBerth b s.now (s.at b) := by
      rw [e.at_eq, State.upd_at, if_pos rfl]
      rfl
    refine ⟨e.keeps queue (.ofBegin .upd), ?_⟩
    rw [berth]
    refine ⟨rfl, rfl, rfl, rfl, rfl, rfl, rfl, rfl, rfl, fun c => ?_⟩
    simp [startedBerth]
  · refine answers_viaBus (act := msipWrite b req on) pass rfl fun t bus => ⟨agreeOff_of_order (msipWrite_touch sub_self .refl) bus, ?_⟩
    rw [bus.at_pl (by decide), msipWrite_pl]
    rfl
  · refine answers_viaBus (act := watchdogKick b req key.toNat) pass rfl fun t bus => ⟨agreeOff_of_order (watchdogKick_touch sub_self .refl) bus, ?_⟩
    rw [bus.at_pl (by decide), watchdogKick_pl]
    rfl
  · rcases what with ⟨rfl, awake, rfl⟩ | ⟨req, rfl, may, pass, rfl⟩
    · exact answers_of_run (run := rfl) fun t _ e => ((watchdogExpiry_restarts (s := s.begin) runs awake).after (by rw [e.at_eq])
        (by rw [e.at_eq]) (fun c => by rw [e.at_eq])).says
    · have run : exec (.restart b req 0x7E57) s = ran s (hostDid req (restartOrder b req 0x7E57 s.begin)) :=
        congrArg (ran s) (viaBus_of_writePasses pass)
      have bus : Touch [.sy] (restartOrder b req 0x7E57 s.begin) (hostDid req (restartOrder b req 0x7E57 s.begin)) := hostDid_touch sub_self .refl
      exact answers_of_run (run := run) fun t _ e => ((restartOrder_restarts (s := s.begin) may runs).after
        (by rw [e.at_eq, bus.at_pl (by decide)]) (by rw [e.at_eq, hostDid_remotes]) (fun c => by rw [e.at_eq, bus.at_dk (by decide)])).says
  · have stops : streamDone b true s.begin = s.begin.updPl b failedStream :=
      (streamDone_failed (s := s.begin) streams awake).trans (if_neg (show ¬ (s.at b).pl.failedStreams + 1 ≥ 3 by omega))
    refine answers_of_run (run := congrArg (ran s) stops) fun t queue e => ⟨e.keeps queue (.ofBegin updPl_within), ?_⟩
    rw [e.at_eq, State.updPl_at, if_pos rfl]
    rfl
  · have stops : streamDone b true s.begin = _ := (streamDone_failed (s := s.begin) streams awake).trans (if_pos many)
    refine answers_of_run (run := congrArg (ran s) stops) fun t _ e => ?_
    rw [e.at_eq, pilotHalt_pl]
    exact ⟨rfl, rfl, rfl, rfl⟩
  · have passes : streamDone b false s.begin = _ := streamDone_passes (s := s.begin) (h := h) streams awake harbour
      (role.trans (by rw [tray_of_harbour (s := s.begin) harbour]; rfl)) store digest fuse
    refine answers_of_run (run := congrArg (ran s) passes) fun t _ e => ?_
    rw [e.at_eq, (imageOn_touch sub_self .refl).at_pl (by decide), State.updPl_at, if_pos rfl]
    exact ⟨rfl, rfl, rfl, rfl⟩

end Sys2Proof.Machine

/-! The image loads (R374 to R378) where two berths hold the harbour role: the tray-wide state stands at the first of them. -/
namespace Sys2Proof.Machine
set_option Elab.async false

/-- The harbour B0 has no region to check; B4 holds the role as well, with a LOAD order's region of PILOT_FW to check. -/
def twoHarbours : State :=
  (({} : State).upd 0 fun x => { x with sy := { x.sy with isHarbour := true } }).upd 4 fun x => { x with
    sy := { x.sy with isHarbour := true }
    tray := { x.tray with img := { x.tray.img with job := .region 0 false [] true } } }

theorem imageCheckDone_idle {s : State} {h : BId} {ua ub rdErr : Bool} (idle : s.tray.img.job = .idle) : imageCheckDone h ua ub rdErr s = s := by
  unfold imageCheckDone
  extract_lets check
  rw [idle]
  exact ite_self s

/-- Refutes O44: the tray-wide state stands at the first berth that holds the role, so of two such berths the second checks no region
and its loader's job stays, although the read of the region failed. -/
theorem not_imageLoads : ¬ Obligations.ImageLoads := by
  unfold Obligations.ImageLoads
  intro all
  obtain ⟨checks, -⟩ := all twoHarbours 4 rfl
  obtain ⟨u, run, ends⟩ := checks 0 false false false true 1 ⟨rfl, rfl, rfl, rfl, rfl⟩
  have idle : imageChecked 4 false false true twoHarbours.begin = flashFree true 4 twoHarbours.begin :=
    (if_neg (by decide)).trans (congrArg _ (imageCheckDone_idle rfl))
  have ended : ((flashFree true 4 twoHarbours.begin).at 4).tray = (twoHarbours.at 4).tray :=
    (flashFree_touch sub_self .refl).at_tray (by decide) 4
  cases run.symm.trans (congrArg (ran twoHarbours) idle)
  have job : ((flashFree true 4 twoHarbours.begin).at 4).tray.img.job = .idle := congrArg Img.job (ends.1 (by decide)).2
  rw [ended] at job
  exact nomatch job

end Sys2Proof.Machine

/-! Allocation and release of deck buffers (R380 to R385). -/
namespace Sys2Proof.Machine
set_option Elab.async false

section
variable {s t u : State} {b n : BId} {req : ReqId} {h : Hand} {i : Nat} {any draw : Bool}

/-! ### Held and free buffers (R380) -/

theorem find_insHeld {l : List (Nat × Hand)} (free : ∀ e ∈ l, e.1 ≠ i) : (insHeld i h l).find? (fun e => e.1 == i) = some (i, h) := by
  induction l with
  | nil => simp [insHeld]
  | cons x xs ih =>
    have other : x.1 ≠ i := free x List.mem_cons_self
    unfold insHeld
    split
    · simp
    · rw [List.find?_cons_of_neg (by simpa using other)]
      exact ih fun e mem => free e (List.mem_cons_of_mem x mem)

theorem mem_freeBufs : i ∈ freeBufs s n ↔ i < 512 ∧ ∀ e ∈ heldOf s n, e.1 ≠ i := by
  simp [freeBufs, upto]

/-- The berth and the place of a device-wide buffer number. -/
theorem bid_share (lt : i < 512) : bid ((512 * n.val + i) / 512) = n := by
  have berth : (512 * n.val + i) / 512 = n.val := by omega
  rw [berth]
  exact Fin.ext (Nat.mod_eq_of_lt n.isLt)

theorem holderOf_share (lt : i < 512) : holderOf s (512 * n.val + i) = ((heldOf s n).find? fun e => e.1 == i).map (·.2) := by
  have place : (512 * n.val + i) % 512 = i := by omega
  rw [holderOf, bid_share lt, place]

/-! ### Allocation (R381, R384) -/

/-- A buffer that was free is held by a hand. -/
structure TakenBy (n : BId) (h : Hand) (i : Nat) (s t : State) : Prop where
  free : i ∈ freeBufs s n
  holder : holderOf t (512 * n.val + i) = some h
  taken : i ∉ freeBufs t n

theorem heldOf_peak {f : Dk → Dk} (keeps : ∀ d, (f d).held = d.held) : heldOf (s.updDk b f) n = heldOf s n := by
  rw [heldOf, State.updDk_at]
  split
  · exact keeps _
  · rfl

theorem takenBy_insHeld (free : i ∈ freeBufs s n) (held : heldOf t n = insHeld i h (heldOf s n)) : TakenBy n h i s t := by
  obtain ⟨lt, apart⟩ := mem_freeBufs.mp free
  have found : (heldOf t n).find? (fun e => e.1 == i) = some (i, h) := by
    rw [held]
    exact find_insHeld apart
  refine ⟨free, by rw [holderOf_share lt, found]; rfl, fun still => ?_⟩
  exact (mem_freeBufs.mp still).2 _ (List.mem_of_find?_eq_some found) rfl

/-- The free buffer that a free value picks (notes entry 8). -/
def pickOf (l : List Nat) (v : BitVec 64) : Nat := (l[v.toNat % l.length]?).getD (l.headD 0)

theorem pickOf_mem {l : List Nat} {v : BitVec 64} (some' : l ≠ []) : pickOf l v ∈ l := by
  have lt : v.toNat % l.length < l.length := Nat.mod_lt _ (List.length_pos_of_ne_nil some')
  rw [pickOf, List.getElem?_eq_getElem lt]
  exact List.getElem_mem lt

theorem takeFrom_takes (some' : freeBufs s n ≠ []) : ∃ k, (takeFrom s n h draw).1 = some (512 * n.val + k)
    ∧ TakenBy n h k s (takeFrom s n h draw).2 := by
  obtain ⟨f, fs, free⟩ := List.exists_cons_of_ne_nil some'
  have mem : pickOf (f :: fs) s.draw.1 ∈ freeBufs s n := by
    rw [free]
    exact pickOf_mem (List.cons_ne_nil f fs)
  unfold takeFrom
  rw [free]
  refine ⟨pickOf (f :: fs) s.draw.1, rfl, takenBy_insHeld mem ?_⟩
  refine (heldOf_peak ?_).trans ?_
  · exact fun _ => rfl
  · rw [heldOf, State.updDk_at, if_pos rfl]
    rfl

theorem allocRead_takes {c : Nat} {lend : Bool} (cls : allocClass s b req = some c) (share : chooseShare s ⟨b, c⟩ any = some (n, lend))
    (some' : freeBufs s n ≠ []) : ∃ k, (allocRead b req any s).1 = allocWord (512 * n.val + k)
      ∧ TakenBy n ⟨b, c⟩ k s (allocRead b req any s).2 := by
  obtain ⟨k, number, taken⟩ := takeFrom_takes (h := ⟨b, c⟩) (draw := lend) some'
  have alloc : deckAlloc b c any s = takeFrom s n ⟨b, c⟩ lend := by
    unfold deckAlloc
    rw [share]
  refine ⟨k, ?_⟩
  unfold allocRead
  rw [cls]
  dsimp only
  rw [alloc]
  split
  case h_1 g t eq =>
    rw [eq] at number taken
    cases number
    exact ⟨rfl, taken⟩
  case h_2 t eq =>
    rw [eq] at number
    exact nomatch number

theorem allocRead_denied {c : Nat} (cls : allocClass s b req = some c) (share : chooseShare s ⟨b, c⟩ any = none) :
    allocRead b req any s = (0, s.updDk b fun d => { d with deny := vmod d.deny c sinc }) := by
  have none' : deckAlloc b c any s = (none, s) := by
    unfold deckAlloc
    rw [share]
  unfold allocRead
  rw [cls]
  dsimp only
  rw [none']

theorem allocRead_foreign (cls : allocClass s b req = none) : allocRead b req any s = (0, s) := by
  unfold allocRead
  rw [cls]

theorem TakenBy.dk (k : TakenBy n h i s t) (same : ∀ c, (u.at c).dk = (t.at c).dk) : TakenBy n h i s u := by
  have held : ∀ c, heldOf u c = heldOf t c := fun c => by rw [heldOf, same, heldOf]
  refine ⟨k.free, ?_, ?_⟩
  · rw [holderOf, held]
    exact k.holder
  · rw [freeBufs, held]
    exact k.taken

/-! ### Release (R385) -/

/-- The share of a berth without one of its buffers. -/
def withoutBuf (i : Nat) (d : Dk) : Dk :=
  { d with held := d.held.filter fun e => e.1 != i, drawn := d.drawn.filter fun j => j != i, handed := d.handed.filter fun e => e.1 != i }

theorem deckRelease_eq {g : Nat} : deckRelease g s = s.updDk (bid (g / 512)) (withoutBuf (g % 512)) := rfl

theorem holderOf_release {g : Nat} : holderOf (deckRelease g s) g = none := by
  rw [holderOf, heldOf, deckRelease_eq, State.updDk_at, if_pos rfl, withoutBuf]
  simp

theorem holderOf_release_ne {g k : Nat} (lt : g < 4096) (lt' : k < 4096) (ne : k ≠ g) : holderOf (deckRelease g s) k = holderOf s k := by
  unfold holderOf heldOf
  rw [deckRelease_eq, State.updDk_at]
  split
  next same =>
    have berth : g / 512 = k / 512 := by
      have val := congrArg Fin.val same
      simp only [bid, Fin.ofNat] at val
      omega
    have place : k % 512 ≠ g % 512 := by omega
    rw [← same, withoutBuf]
    dsimp only
    rw [List.find?_filter]
    congr 2
    funext e
    by_cases hit : e.1 = k % 512
    · simp [hit, place]
    · simp [hit]
  next => rfl

end

/-- A read that passes leaves alone what its rule does, but for the outputs and the host activity. -/
theorem read_agreeOff {s t u : State} {fs : List Piece} (sub : [.out, .sy] ⊆ fs) (rule : Touch fs s.begin u) (bus : Touch [.out, .sy] u t) :
    AgreeOff fs s t :=
  (((begin_touch_out (sub List.mem_cons_self)).trans rule).trans (bus.mono sub)).all

/-- Settles O45: an allocation read takes a free buffer of the chosen share for the hand, and a release takes it from its holder alone. -/
theorem deckBuffers : Obligations.DeckBuffers := by
  unfold Obligations.DeckBuffers
  intro s b req
  have reads {i : Instr} {any : Bool} {v : Word} {u : State} {P : State → Prop}
      (which : i = Instr.dkAllocAny b req ∧ any = true ∧ ReadPasses s req b (regAddr (some b) 0x3000)
        ∨ i = .dkAllocLocal b req ∧ any = false ∧ ReadPasses s req b (regAddr (some b) 0x3004))
      (word : allocRead b req any s.begin = (v, u)) (h : ∀ t, t.out = [.value v] → Touch [.out, .sy] u t → P t) : Answers i s P := by
    have out : u.out = [] := (allocRead_touch_eq sub_self word .refl).at_out (by decide)
    rcases which with ⟨rfl, rfl, pass⟩ | ⟨rfl, rfl, pass⟩
    · exact answers_readBus pass rfl word fun t value => h t (by rw [value, out]; rfl)
    · exact answers_readBus pass rfl word fun t value => h t (by rw [value, out]; rfl)
  refine ⟨fun i any which => ⟨fun c n lend ⟨cls, share, some'⟩ => ?_, fun c ⟨cls, share⟩ => ?_, fun cls => ?_⟩, fun g pass =>
    ⟨fun ⟨berth, may⟩ => ?_, fun refused => ?_⟩⟩
  · obtain ⟨k, word, taken⟩ := allocRead_takes (s := s.begin) (any := any) cls share some'
    refine reads which (v := allocWord (512 * n.val + k)) (u := (allocRead b req any s.begin).2) (Prod.ext word rfl) fun t value bus => ⟨read_agreeOff (by decide) (allocRead_touch (by decide) .refl) bus, k, taken.free, value, ?_⟩
    have after := taken.dk fun c => bus.at_dk (by decide) c
    exact ⟨after.holder, after.taken⟩
  · refine reads which (allocRead_denied (s := s.begin) cls share) fun t value bus =>
      ⟨read_agreeOff (by decide) (State.updDk_touch (by decide) .refl) bus, value, ?_⟩
    rw [bus.at_dk (by decide), State.updDk_at, if_pos rfl]
    rfl
  · exact reads which (allocRead_foreign (s := s.begin) cls) fun t value bus => ⟨read_agreeOff (by decide) .refl bus, value⟩
  · refine answers_viaBus (act := freeWrite b req g.val) pass rfl fun t bus => ?_
    have freed : freeWrite b req g.val s.begin = deckRelease g.val s.begin := if_pos (by
      rw [berth, beq_self_eq_true, Bool.true_and]
      exact may)
    rw [freed] at bus
    have held : ∀ k, holderOf t k = holderOf (deckRelease g.val s.begin) k := fun k => by
      rw [holderOf, heldOf, bus.at_dk (by decide)]
      rfl
    refine ⟨agreeOff_of_order (deckRelease_touch sub_self .refl) bus, by rw [held, holderOf_release], ?_, fun k ne => ?_⟩
    · rw [bus.at_dk (by decide), deckRelease_eq, State.updDk_at]
      split
      · rfl
      · rfl
    · rw [held, holderOf_release_ne g.isLt k.isLt fun same => ne (Fin.ext same)]
      rfl
  · refine answers_viaBus (act := freeWrite b req g.val) pass rfl fun t bus => ?_
    have kept : freeWrite b req g.val s.begin = s.begin.updDk b fun d => { d with badFree := sinc d.badFree } := if_neg fun both => by
      obtain ⟨berth, may⟩ := Bool.and_eq_true _ _ |>.mp both
      exact refused.elim (fun ne => ne (beq_iff_eq.mp berth)) fun no => absurd (may.symm.trans no) Bool.noConfusion
    rw [kept] at bus
    refine ⟨agreeOff_of_order (State.updDk_touch sub_self .refl) bus, ?_⟩
    rw [bus.at_dk (by decide), State.updDk_at, if_pos rfl]
    rfl

end Sys2Proof.Machine

/-! The DMA engines: the queue, bursts, the wait for a buffer, and the orders to DM_CMD (R389 to R396). -/
namespace Sys2Proof.Machine
set_option Elab.async false

section
variable {s t u : State} {b : BId} {e i j n : Nat} {d : Dma} {req : ReqId}

/-! ### Descriptors (R389) -/

theorem vget_default {α : Type} [Inhabited α] {n i : Nat} {v : Vector α n} (out : n ≤ i) : vget v i = default := by
  simp [vget, Nat.not_lt.mpr out]

/-- A field of a word that is not 0 lies in a descriptor slot that there is. -/
theorem descW_lt {w hi lo : Nat} (some' : fld (descW d i w) hi lo ≠ 0) : 8 * i + w < 256 := by
  by_contra out
  refine some' ?_
  rw [descW, vget_default (by omega)]
  exact Nat.zero_mod _ ▸ congrArg (· % _) (Nat.zero_div _)

theorem slot_lt_of_st {k : Nat} (st : slotSt d i = k) (some' : k ≠ 0) : i < 32 := by
  have lt := descW_lt (d := d) (i := i) (st ▸ some')
  omega

theorem slot_lt_of_check (ok : descCheck b d i = none) : i < 32 := by
  by_contra out
  have op : dOp d i = 0 := by
    rw [dOp, descW, vget_default (by omega)]
    rfl
  unfold descCheck at ok
  extract_lets op' src dst len hws needZero resv srcR dstR ok' at ok
  rw [if_pos (by simp [op', op])] at ok
  exact nomatch ok

section
variable {st flt acc status : Nat}

theorem setSlot_word (lt : i < 32) : descW (setSlot i st flt acc status d) i 7 =
    pack [(st, 0, 3), (flt, 8, 4), (acc, 12, 4), (status, 16, 8)] := vget_vset_self (by omega)

theorem setSlot_other {w : Nat} (ne : i ≠ j ∨ w ≠ 7) (lt : w < 8) : descW (setSlot i st flt acc status d) j w = descW d j w :=
  vget_vset_ne (by omega)

/-- STATE and FAULT of the last word of a slot. -/
theorem slotWord_fields (hs : st < 8) (hf : flt < 16) : fld (pack [(st, 0, 3), (flt, 8, 4), (acc, 12, 4), (status, 16, 8)]) 2 0 = st
    ∧ fld (pack [(st, 0, 3), (flt, 8, 4), (acc, 12, 4), (status, 16, 8)]) 11 8 = flt := by
  simp only [pack_four, fld, BitVec.toNat_ofNat]
  omega

theorem setSlot_st (lt : i < 32) (hs : st < 8) (hf : flt < 16) : slotSt (setSlot i st flt acc status d) i = st := by
  rw [slotSt, setSlot_word lt]
  exact (slotWord_fields hs hf).1

theorem setSlot_st_ne (ne : i ≠ j) : slotSt (setSlot i st flt acc status d) j = slotSt d j := by
  rw [slotSt, setSlot_other (.inl ne) (by omega), slotSt]

theorem setSlot_resume : dResume (setSlot i st flt acc status d) j = dResume d j := by
  rw [dResume, setSlot_other (.inr (by omega)) (by omega), dResume]

theorem setSlot_isHws : isHws (setSlot i st flt acc status d) j = isHws d j := by
  rw [isHws, dOp, setSlot_other (.inr (by omega)) (by omega), isHws, dOp]

end

theorem setResume_resume (lt : i < 32) : dResume (setResume i n d) i = n % 2 ^ 24 := by
  have word : descW (setResume i n d) i 6 = pack [(n, 0, 24)] := vget_vset_self (by omega)
  have one : pack [(n, 0, 24)] = BitVec.ofNat 32 (0 + n % 2 ^ 24 * 2 ^ 0) := rfl
  rw [dResume, word, one]
  simp only [fld, BitVec.toNat_ofNat]
  omega

/-! ### An engine without hawser orders -/

/-- COPY and FILL descriptors issue no hawser order. -/
theorem dmaPump_of_not_hws (no : isHws (dmaOf s b e) (dmaOf s b e).cur = false) : dmaPump b e n s = s := by
  have stays : dmaIssue b e s = (false, s) := by simp [dmaIssue, no]
  cases n with
  | zero => rfl
  | succ n => simp only [dmaPump, stays]

/-- The engine's block once it runs a slot: at the start, and after the check. -/
def engaged (i : Nat) (d : Dma) : Dma := { d with cur := i, st := .running, flt := none, doneOff := [] }
def running (i : Nat) (d : Dma) : Dma := { setSlot i 2 0 0 0 (engaged i d) with nextOff := dResume d i }

theorem running_slot (lt : i < 32) : slotSt (running i d) i = 2 := setSlot_st (d := engaged i d) lt (by omega) (by omega)

theorem updDm_updDm {f g : Dma → Dma} (lt : e < 2) : (s.updDm b e f).updDm b e g = s.updDm b e fun d => g (f d) := by
  have twice : ∀ v : Vector Dma 2, vmod (vmod v e f) e g = vmod v e fun d => g (f d) := fun v => by
    rw [vmod, vget_vmod_self lt, vmod, vmod, vset, vset, vset, Vector.setIfInBounds_setIfInBounds]
  unfold State.updDm
  rw [upd_upd]
  exact congrArg (s.upd b) (funext fun x => congrArg (fun v => ({ x with dm := v } : Berth)) (twice x.dm))

section
variable (lt : e < 2) (check : descCheck b (dmaOf s b e) i = none) (no : isHws (dmaOf s b e) i = false)
include lt check no

theorem dmaResumeSlot_runs : dmaResumeSlot b e i s = s.updDm b e (running i) := by
  have engagedAt : dmaOf (s.updDm b e (engaged i)) b e = engaged i (dmaOf s b e) := dmaOf_updDm lt
  have pumped : dmaPump b e 8 (s.updDm b e (running i)) = s.updDm b e (running i) :=
    dmaPump_of_not_hws (by rw [dmaOf_updDm lt]; exact setSlot_isHws.trans no)
  rw [← pumped]
  change (match descCheck b (dmaOf (s.updDm b e (engaged i)) b e) i with
    | some c => dmaFault b e c 0 0 (s.updDm b e (engaged i))
    | none => dmaPump b e 8 ((s.updDm b e (engaged i)).updDm b e fun d => { setSlot i 2 0 0 0 d with nextOff := dResume d i })) = _
  rw [engagedAt]
  have ok : descCheck b (engaged i (dmaOf s b e)) i = none := check
  rw [ok]
  dsimp only
  rw [updDm_updDm lt]
  rfl

theorem dmaStart_runs (queued : slotSt (dmaOf s b e) i = 1) : dmaStart b e i s = s.updDm b e (running i) := by
  have engagedAt : dmaOf (s.updDm b e (engaged i)) b e = engaged i (dmaOf s b e) := dmaOf_updDm lt
  have same : dmaStart b e i s = dmaResumeSlot b e i s := by
    change (if slotSt (dmaOf (s.updDm b e (engaged i)) b e) i != 1 then dmaFault b e 0xA 0 0 (s.updDm b e (engaged i))
      else dmaResumeSlot b e i s) = _
    rw [engagedAt]
    have first : slotSt (engaged i (dmaOf s b e)) i = 1 := queued
    exact if_neg (by rw [first]; decide)
  rw [same, dmaResumeSlot_runs lt check no]

end

/-! ### The queue (R390) -/

section
variable {tail : Nat}

theorem tailWrite_stays (no : ownOrHce b req = false ∨ (tail + 32 - (dmaOf s b e).head) % 32 <
    ((dmaOf s b e).tail + 32 - (dmaOf s b e).head) % 32) : tailWrite b e req tail s = s := if_neg fun both => by
  obtain ⟨own, more⟩ := Bool.and_eq_true _ _ |>.mp both
  exact no.elim (fun foreign => absurd (own.symm.trans foreign) Bool.noConfusion) fun less => absurd (of_decide_eq_true more) (Nat.not_le.mpr less)

/-- The engine's block with the written tail. -/
def tailed (tail : Nat) (d : Dma) : Dma := { d with tail := tail }

theorem tailWrite_taken (lt : tail < 32) (own : ownOrHce b req = true) (grows : ((dmaOf s b e).tail + 32 - (dmaOf s b e).head) % 32 ≤
    (tail + 32 - (dmaOf s b e).head) % 32) : tailWrite b e req tail s = dmaKick b e (s.updDm b e (tailed tail)) := by
  have cut : tail % 32 = tail := Nat.mod_eq_of_lt lt
  unfold tailWrite
  extract_lets d
  rw [if_pos (by simp [own, d, grows]), cut]
  rfl

variable (lt : e < 2)
include lt

theorem tailKick_stays (busy : (dmaOf s b e).st ≠ .idle ∨ (dmaOf s b e).head = tail) :
    dmaKick b e (s.updDm b e (tailed tail)) = s.updDm b e (tailed tail) := by
  unfold dmaKick
  extract_lets d
  refine if_neg ?_
  simp only [d, dmaOf_updDm lt, tailed]
  rcases busy with runs | empty
  · simp [runs]
  · simp [empty]

theorem tailKick_starts (idle : (dmaOf s b e).st = .idle) (some' : (dmaOf s b e).head ≠ tail) (queued : slotSt (dmaOf s b e) (dmaOf s b e).head = 1)
    (check : descCheck b (dmaOf s b e) (dmaOf s b e).head = none) (no : isHws (dmaOf s b e) (dmaOf s b e).head = false) :
    dmaKick b e (s.updDm b e (tailed tail)) = s.updDm b e fun d => running (dmaOf s b e).head (tailed tail d) := by
  have at' : dmaOf (s.updDm b e (tailed tail)) b e = tailed tail (dmaOf s b e) := dmaOf_updDm lt
  unfold dmaKick
  extract_lets d
  rw [if_pos (by simp [d, at', tailed, idle, some'])]
  have starts := dmaStart_runs (s := s.updDm b e (tailed tail)) (b := b) (i := (dmaOf s b e).head) lt (at' ▸ check) (at' ▸ no) (at' ▸ queued)
  rw [updDm_updDm lt] at starts
  have head : d.head = (dmaOf s b e).head := by simp only [d, at', tailed]
  rw [← starts, head]

end

/-! ### Faults (R395) -/

/-- The engine's block once the fault of its slot takes effect. -/
def haltedDma (code acc status : Nat) (st : DmaState) (hist : Hist) (d : Dma) : Dma :=
  { setSlot d.cur 5 code acc status d with st := st, flt := none, haltDue := false, doneOff := [], faults := sinc d.faults, hist := hist }

section
variable {code acc status : Nat}

theorem dmaHalt_dma (lt : e < 2) : ∃ st hist, (st = .halted ∨ st = .retired)
    ∧ dmaOf (dmaHalt b e code acc status s) b e = haltedDma code acc status st hist (dmaOf s b e) := by
  unfold dmaHalt
  extract_lets i counts ev retire s1 s2 s3
  have changed : dmaOf s1 b e = haltedDma code acc status (if retire then .retired else .halted) (if counts then ev.2.1 else (dmaOf s b e).hist)
      (dmaOf s b e) := dmaOf_updDm lt
  refine ⟨if retire then .retired else .halted, if counts then ev.2.1 else (dmaOf s b e).hist, ?_, ?_⟩
  · cases retire
    · exact .inl rfl
    · exact .inr rfl
  · have irqs : Touch [.pl] s1 s2 := irq_touch sub_self .refl
    have logged : Touch _ s2 s3 := logRec_touch sub_self .refl
    have noted : Touch _ s3 (if retire then notice b 0x0A e 0x0C ev.2.2 s3 else s3) :=
      ite_touch (fs := [.out, .rp]) (notice_touch sub_self .refl) .refl
    rw [← changed, dmaOf, noted.at_dm (by decide), logged.at_dm (by decide), irqs.at_dm (by decide)]
    rfl

end

theorem dmaFault_now {code acc status : Nat} (quiet : (dmaOf s b e).out = []) : dmaFault b e code acc status s = dmaHalt b e code acc status s :=
  if_pos (by rw [quiet]; rfl)

theorem dmaFault_later {code acc status : Nat} (busy : (dmaOf s b e).out ≠ []) : dmaFault b e code acc status s =
    s.updDm b e fun d => if d.flt.isSome then d else { d with flt := some (code, acc, status) } := if_neg (by simpa using busy)

/-! ### Descriptors done (R390) -/

/-- The count of an engine's descriptors that ended DONE stands. -/
def DoneKept (b : BId) (e : Nat) (s t : State) : Prop := (dmaOf t b e).done = (dmaOf s b e).done

theorem DoneKept.trans (h : DoneKept b e s t) (k : DoneKept b e t u) : DoneKept b e s u := Eq.trans k h

theorem DoneKept.touch {fs : List Piece} (h : DoneKept b e s t) (k : Touch fs t u) (dm : .dm ∉ fs := by decide) : DoneKept b e s u :=
  h.trans (by rw [DoneKept, dmaOf, k.at_dm dm, dmaOf])

section
variable (lt : e < 2)
include lt

theorem DoneKept.updDm {f : Dma → Dma} (h : DoneKept b e s t) (keeps : ∀ d, (f d).done = d.done) : DoneKept b e s (t.updDm b e f) :=
  h.trans (by rw [DoneKept, dmaOf_updDm lt, keeps])

theorem dmaHalt_doneKept {code acc status : Nat} (h : DoneKept b e s t) : DoneKept b e s (dmaHalt b e code acc status t) := by
  obtain ⟨st, hist, -, same⟩ := dmaHalt_dma (s := t) (b := b) (code := code) (acc := acc) (status := status) lt
  exact h.trans (by rw [DoneKept, same]; rfl)

theorem dmaFault_doneKept {code acc status : Nat} (h : DoneKept b e s t) : DoneKept b e s (dmaFault b e code acc status t) := by
  unfold dmaFault
  split
  · exact dmaHalt_doneKept lt h
  · exact h.updDm lt fun d => by split <;> rfl

theorem dmaIssue_doneKept (h : DoneKept b e s t) : DoneKept b e s (dmaIssue b e t).2 := by
  unfold dmaIssue
  extract_lets d i len link
  split
  · exact h
  split
  · exact dmaFault_doneKept lt h
  split
  · exact h
  split
  case h_1 t1 alloc => exact h.touch (deckAlloc_touch_eq sub_self alloc .refl)
  case h_2 g t1 alloc =>
    extract_lets data t2 o
    have taken : DoneKept b e s t1 := h.touch (deckAlloc_touch_eq sub_self alloc .refl)
    have filled : DoneKept b e s t2 := taken.touch (fs := [.pl, .deck]) (ite_touch (bufWrite_touch sub_self .refl) .refl)
    split
    case h_1 tag v issued => exact (filled.touch (issue_touch_eq sub_self issued .refl)).updDm lt fun _ => rfl
    case h_2 v issued => exact (filled.touch (issue_touch_eq sub_self issued .refl)).touch (deckRelease_touch sub_self .refl)

theorem dmaPump_doneKept (h : DoneKept b e s t) : DoneKept b e s (dmaPump b e n t) := by
  induction n generalizing t with
  | zero => exact h
  | succ n ih =>
    have issued := dmaIssue_doneKept lt h
    unfold dmaPump
    split
    next t1 eq =>
      rw [eq] at issued
      exact ih issued
    next t1 eq =>
      rw [eq] at issued
      exact issued

theorem dmaResumeSlot_doneKept (h : DoneKept b e s t) : DoneKept b e s (dmaResumeSlot b e i t) := by
  have engaged' : DoneKept b e s (t.updDm b e (engaged i)) := h.updDm lt fun _ => rfl
  unfold dmaResumeSlot
  extract_lets t1 t2
  split
  · exact dmaFault_doneKept lt engaged'
  · exact dmaPump_doneKept lt (engaged'.updDm lt fun _ => rfl)

theorem dmaStart_doneKept (h : DoneKept b e s t) : DoneKept b e s (dmaStart b e i t) := by
  have engaged' : DoneKept b e s (t.updDm b e (engaged i)) := h.updDm lt fun _ => rfl
  unfold dmaStart
  extract_lets t1 d t2
  split
  · exact dmaFault_doneKept lt engaged'
  · split
    · exact dmaFault_doneKept lt engaged'
    · exact dmaPump_doneKept lt (engaged'.updDm lt fun _ => rfl)

theorem dmaNext_doneKept (h : DoneKept b e s t) : DoneKept b e s (dmaNext b e t) := by
  unfold dmaNext
  extract_lets d
  split
  · exact dmaStart_doneKept lt (h.updDm lt fun _ => rfl)
  · split
    · exact dmaResumeSlot_doneKept lt (h.updDm lt fun _ => rfl)
    · split
      · exact h.updDm lt fun _ => rfl
      · exact dmaStart_doneKept lt h

/-- The end of a descriptor counts it. -/
theorem dmaDone_done : (dmaOf (dmaDone b e s) b e).done = sinc (dmaOf s b e).done := by
  unfold dmaDone
  extract_lets i want s1 s2 s3 d
  have counted : (dmaOf s1 b e).done = sinc (dmaOf s b e).done := by rw [show dmaOf s1 b e = _ from dmaOf_updDm lt]
  have kept : DoneKept b e s1 s3 := dmaNext_doneKept lt (DoneKept.touch (fs := [.pl]) rfl (ite_touch (irq_touch sub_self .refl) .refl))
  rw [← counted]
  change DoneKept b e s1 _
  split
  · exact kept
  · split
    · exact dmaHalt_doneKept lt kept
    · exact kept.updDm lt fun _ => rfl

end

/-! ### Bursts (R392) -/

theorem resume_lt : dResume d i < 2 ^ 24 := fld_lt

/-- A burst ends within its descriptor. -/
theorem burst_lt : dResume d i + burstLen d i < 2 ^ 24 := by
  have total : dLen d i < 2 ^ 24 := fld_lt
  have from' : dResume d i < 2 ^ 24 := resume_lt
  unfold burstLen
  omega

/-- The engine's block after a burst. -/
def bursted (d : Dma) : Dma := { setResume d.cur (dResume d d.cur + burstLen d d.cur) d with bytes := d.bytes + burstLen d d.cur }

theorem bursted_resume (lt : d.cur < 32) : dResume (bursted d) d.cur = dResume d d.cur + burstLen d d.cur :=
  (setResume_resume lt).trans (Nat.mod_eq_of_lt burst_lt)

theorem updDm_congr {f g : Dma → Dma} (same : f (dmaOf s b e) = g (dmaOf s b e)) : s.updDm b e f = s.updDm b e g := by
  have vector : vmod (s.at b).dm e f = vmod (s.at b).dm e g := congrArg (vset (s.at b).dm e) same
  rw [State.updDm, State.upd, vector]
  rfl

/-- A burst of the running descriptor is awaited. -/
structure Bursts (s : State) (b : BId) (e : Nat) (d : Dma) : Prop where
  lt : e < 2
  at_eq : dmaOf s b e = d
  on : bursting d = true
  awake : s.dev.sleep = false

theorem bursting_parts (on : bursting d = true) : d.st = .running ∧ isHws d d.cur = false ∧ slotSt d d.cur = 2 ∧ d.flt = none := by
  simpa [bursting, and_assoc] using on

theorem Bursts.cur_lt (r : Bursts s b e d) : d.cur < 32 := slot_lt_of_st (bursting_parts r.on).2.2.1 (by decide)

section
variable (r : Bursts s b e d)
include r

theorem burstDone_fails {c : Nat} (read : burstWords b e (burstFlits b e s) = (.error c, u)) : burstDone b e s = dmaFault b e 5 c 0 u := by
  unfold burstDone
  extract_lets d' i n
  rw [if_neg (by simp [d', r.at_eq, r.on, r.awake]), read]

theorem burstDone_written {bs : List Byte} {v : State} (read : burstWords b e (burstFlits b e s) = (.ok bs, u))
    (write : burstWrite b ((descW d d.cur 2).toNat + dResume d d.cur) (bytesWords bs (bs.length / 4)) u = (none, v))
    (kept : dmaOf v b e = d) : burstDone b e s = if dResume d d.cur + burstLen d d.cur ≥ dLen d d.cur
      then dmaDone b e (v.updDm b e bursted) else (dmaBoundary b e (v.updDm b e bursted)).2 := by
  unfold burstDone
  extract_lets d' i n
  rw [if_neg (by simp [d', r.at_eq, r.on, r.awake]), read]
  dsimp only
  have same : d' = d := r.at_eq
  have cur : i = d.cur := congrArg Dma.cur same
  have len : n = burstLen d d.cur := by simp only [n, same, cur]
  rw [same, cur, len, write]
  dsimp only
  have advanced : (v.updDm b e fun x => { setResume d.cur (dResume x d.cur + burstLen d d.cur) x with bytes := x.bytes + burstLen d d.cur }) =
      v.updDm b e bursted := updDm_congr (by rw [kept]; rfl)
  rw [advanced, dmaOf_updDm r.lt, kept, bursted_resume r.cur_lt]

theorem burstDone_goes {bs : List Byte} {v : State} (read : burstWords b e (burstFlits b e s) = (.ok bs, u))
    (write : burstWrite b ((descW d d.cur 2).toNat + dResume d d.cur) (bytesWords bs (bs.length / 4)) u = (none, v))
    (kept : dmaOf v b e = d) (more : dResume d d.cur + burstLen d d.cur < dLen d d.cur) (pre : d.pre = none) (halt : d.haltDue = false) :
    burstDone b e s = v.updDm b e bursted := by
  have at' : dmaOf (v.updDm b e bursted) b e = bursted d := (dmaOf_updDm r.lt).trans (congrArg bursted kept)
  have none' : (bursted d).haltDue = false ∧ (bursted d).pre = none := ⟨halt, pre⟩
  rw [burstDone_written r read write kept, if_neg (Nat.not_le.mpr more)]
  simp only [dmaBoundary, at', none'.1, none'.2, Bool.false_eq_true, if_false, Option.isSome_none, Bool.false_and]

theorem burstDone_ends {bs : List Byte} {v : State} (read : burstWords b e (burstFlits b e s) = (.ok bs, u))
    (write : burstWrite b ((descW d d.cur 2).toNat + dResume d d.cur) (bytesWords bs (bs.length / 4)) u = (none, v))
    (kept : dmaOf v b e = d) (whole : dLen d d.cur ≤ dResume d d.cur + burstLen d d.cur) :
    (dmaOf (burstDone b e s) b e).done = sinc d.done := by
  have at' : dmaOf (v.updDm b e bursted) b e = bursted d := (dmaOf_updDm r.lt).trans (congrArg bursted kept)
  rw [burstDone_written r read write kept, if_pos whole, dmaDone_done r.lt, at']
  rfl

end

/-! ### The wait for a buffer (R395) -/

theorem chooseShare_begin {h : Hand} {any : Bool} : chooseShare s.begin h any = chooseShare s h any := rfl

theorem takeFrom_begin {h : Hand} {draw : Bool} {n : BId} : (takeFrom s.begin n h draw).1 = (takeFrom s n h draw).1 := by
  have free : freeBufs s.begin n = freeBufs s n := rfl
  unfold takeFrom
  rw [free]
  split <;> rfl

theorem handWaits_begin : handWaits s.begin b e = handWaits s b e := by
  have alloc : (deckAlloc b (1 + e) false s.begin).1 = (deckAlloc b (1 + e) false s).1 := by
    unfold deckAlloc
    rw [chooseShare_begin]
    split
    · exact takeFrom_begin
    · rfl
  unfold handWaits
  rw [alloc]
  rfl

/-- An engine that waits for a buffer of its hand runs a hawser descriptor without a fault. -/
theorem handWaits_parts (waits : handWaits s b e = true) : slotSt (dmaOf s b e) (dmaOf s b e).cur = 2 ∧ (dmaOf s b e).flt = none := by
  simp only [handWaits, Bool.and_eq_true, beq_iff_eq, Option.isNone_iff_eq_none] at waits
  obtain ⟨⟨⟨⟨⟨⟨-, -⟩, slot⟩, -⟩, -⟩, flt⟩, -⟩ := waits
  exact ⟨slot, flt⟩

/-! ### Orders to DM_CMD (R396) -/

/-- The engine's block with the order and its result. -/
def answeredDma (cmd res : Nat) (req : ReqId) (d : Dma) : Dma := { d with lastCmd := cmd, cmdResult := res, cmdReq := req.val }

section
variable {cmd refuse : Nat} {act : State → State} (own : ownOrHce b req = true)
include own

theorem dmOrder_refused (refused : refuse ≠ 0) : dmOrder b e req cmd refuse act s = s.updDm b e (answeredDma cmd refuse req) := by
  unfold dmOrder
  rw [if_neg (by simp [own]), if_pos (bne_iff_ne.mpr refused)]
  rfl

theorem dmOrder_taken (ok : refuse = 0) : dmOrder b e req cmd refuse act s = act (s.updDm b e (answeredDma cmd 0 req)) := by
  unfold dmOrder
  rw [if_neg (by simp [own]), if_neg (by simp [ok])]
  rfl

end

section
variable (lt : e < 2)
include lt

theorem dmResume_runs (pre : (dmaOf s b e).pre = none) (check : descCheck b (dmaOf s b e) (dmaOf s b e).cur = none)
    (no : isHws (dmaOf s b e) (dmaOf s b e).cur = false) : dmResume b e s = s.updDm b e (running (dmaOf s b e).cur) := by
  unfold dmResume
  extract_lets d
  rw [if_neg (by simp [d, pre])]
  exact dmaResumeSlot_runs lt check no

/-- The engine's block once it skips its slot with an empty queue. -/
def skipped (d : Dma) : Dma := { d with st := .idle, preRun := false }

theorem dmSkip_idles (pre : (dmaOf s b e).pre = none) (susp : (dmaOf s b e).susp = none) (empty : (dmaOf s b e).head = (dmaOf s b e).tail) :
    dmSkip b e s = s.updDm b e skipped := by
  unfold dmSkip dmaNext
  simp only [dmaOf_updDm lt, pre, susp, empty, bne_self_eq_false, Bool.and_false, Bool.false_eq_true, if_false, beq_self_eq_true, if_true]
  rw [updDm_updDm lt]
  exact updDm_congr (by simp [skipped, empty])

theorem dmPreempt_waits {i : Nat} (runs : (dmaOf s b e).st = .running) (no : isHws (dmaOf s b e) (dmaOf s b e).cur = false) :
    dmPreempt b e i s = s.updDm b e fun d => { d with pre := some i } := by
  unfold dmPreempt
  extract_lets s1 d
  have at' : d = { dmaOf s b e with pre := some i } := dmaOf_updDm lt
  rw [if_neg (by simp [at', runs]), if_neg]
  have no' : isHws d d.cur = false := by
    rw [at']
    exact no
  simp [no']

end

/-- A slot that the flush reaches: QUEUED and SUSPENDED ones are FREE. -/
def flushSlot (d : Dma) (i : Nat) : Dma := if slotSt d i == 1 || slotSt d i == 3 then setSlot i 0 0 0 0 d else d

theorem flushSlot_waits (waits : slotSt d i = 1 ∨ slotSt d i = 3) : flushSlot d i = setSlot i 0 0 0 0 d := if_pos (by simpa using waits)

theorem flushSlot_other (no : ¬ (slotSt d i = 1 ∨ slotSt d i = 3)) : flushSlot d i = d := if_neg (by simpa using no)

theorem flushSlot_kept : dResume (flushSlot d i) j = dResume d j ∧ (flushSlot d i).head = d.head ∧ (flushSlot d i).tail = d.tail
    ∧ (flushSlot d i).cmdResult = d.cmdResult := by
  unfold flushSlot
  split
  · exact ⟨setSlot_resume, rfl, rfl, rfl⟩
  · exact ⟨rfl, rfl, rfl, rfl⟩

theorem flushSlot_st (lt : i < 32) : slotSt (flushSlot d i) j = if i = j ∧ (slotSt d j = 1 ∨ slotSt d j = 3) then 0 else slotSt d j := by
  by_cases waits : slotSt d i = 1 ∨ slotSt d i = 3
  · rw [flushSlot_waits waits]
    by_cases same : i = j
    · rw [← same, setSlot_st lt (by omega) (by omega), if_pos ⟨rfl, waits⟩]
    · rw [setSlot_st_ne same, if_neg fun both => same both.1]
  · rw [flushSlot_other waits, if_neg fun (both : i = j ∧ _) => waits (both.1 ▸ both.2)]

theorem flushSlots_kept {xs : List Nat} : dResume (xs.foldl flushSlot d) j = dResume d j ∧ (xs.foldl flushSlot d).head = d.head
    ∧ (xs.foldl flushSlot d).tail = d.tail ∧ (xs.foldl flushSlot d).cmdResult = d.cmdResult := by
  induction xs generalizing d with
  | nil => exact ⟨rfl, rfl, rfl, rfl⟩
  | cons x xs ih =>
    obtain ⟨resume, head, tail, result⟩ := ih (d := flushSlot d x)
    obtain ⟨resume', head', tail', result'⟩ := flushSlot_kept (d := d) (i := x) (j := j)
    exact ⟨resume.trans resume', head.trans head', tail.trans tail', result.trans result'⟩

theorem flushSlots_st {xs : List Nat} (lt : ∀ x ∈ xs, x < 32) : slotSt (xs.foldl flushSlot d) j =
    if j ∈ xs ∧ (slotSt d j = 1 ∨ slotSt d j = 3) then 0 else slotSt d j := by
  induction xs generalizing d with
  | nil => simp
  | cons x xs ih =>
    rw [List.foldl_cons, ih fun y mem => lt y (List.mem_cons_of_mem x mem), flushSlot_st (lt x List.mem_cons_self)]
    by_cases same : x = j
    · subst same
      by_cases waits : slotSt d x = 1 ∨ slotSt d x = 3
      · simp [waits]
      · simp [waits]
    · simp [same, Ne.symm same]

/-- The engine's block after a flush. -/
def flushed (d : Dma) : Dma :=
  { (upto 32).foldl flushSlot d with
    st := .idle, pre := none, preRun := false, susp := none, head := ((upto 32).foldl flushSlot d).tail, flt := none, haltDue := false }

theorem dmFlush_eq : dmFlush b e s = s.updDm b e flushed := rfl

end

/-- Settles O46: the queue of a DMA engine, its bursts, the wait for a buffer and the orders to DM_CMD, by the engine's block after each. -/
theorem dmaEngines : Obligations.DmaEngines := by
  unfold Obligations.DmaEngines
  intro s b e req d eq
  have at' : dmaOf s.begin b e.val = d := eq.symm
  have lt : e.val < 2 := e.isLt
  have dma {f : Dma → Dma} {t : State} (bus : Touch [.sy] (s.begin.updDm b e.val f) t) : dmaOf t b e.val = f d := by
    rw [dmaOf, bus.at_dm (by decide)]
    exact (dmaOf_updDm lt).trans (congrArg f at')
  have changed {f : Dma → Dma} {t : State} (bus : Touch [.sy] (s.begin.updDm b e.val f) t) : AgreeOff [.out, .sy, .dm] s t :=
    agreeOff_of_order (State.updDm_touch sub_self .refl) bus
  refine ⟨fun tail pass => ⟨fun no => ?_, fun ⟨own, grows⟩ => ⟨fun busy => ?_, fun ⟨idle, some', queued, check, no⟩ => ?_⟩⟩,
    fun ⟨on, awake⟩ => ⟨fun bs u v ⟨read, write, kept⟩ => ⟨fun ⟨more, pre, halt⟩ => ?_, fun whole => ?_⟩, fun c u ⟨read, kept, quiet⟩ => ?_⟩,
    fun waits => ⟨fun quiet => ?_, fun busy => ?_⟩,
    fun ⟨pass, own⟩ => ⟨fun i cmd which => ?_, fun ⟨halted, pre, check, no⟩ => ?_, fun ⟨halted, pre, susp, empty⟩ => ?_, fun st => ?_,
      fun slot => ⟨fun ⟨ok, runs, no⟩ => ?_, fun refused => ?_⟩⟩⟩
  · have stays : tailWrite b e.val req tail.val s.begin = s.begin := tailWrite_stays (by rw [at']; exact no)
    exact answers_viaBus (act := tailWrite b e.val req tail.val) pass rfl fun t bus => agreeOff_of_order (fs := []) .refl (stays ▸ bus)
  · have written : tailWrite b e.val req tail.val s.begin = s.begin.updDm b e.val (tailed tail.val) :=
      (tailWrite_taken tail.isLt own (by rw [at']; exact grows)).trans (tailKick_stays lt (by rw [at']; exact busy))
    refine answers_viaBus (act := tailWrite b e.val req tail.val) pass rfl fun t bus => ?_
    rw [written] at bus
    exact ⟨changed bus, dma bus⟩
  · have written : tailWrite b e.val req tail.val s.begin = _ := (tailWrite_taken tail.isLt own (by rw [at']; exact grows)).trans
      (tailKick_starts lt (by rw [at']; exact idle) (by rw [at']; exact some') (by rw [at']; exact queued) (by rw [at']; exact check)
        (by rw [at']; exact no))
    refine answers_viaBus (act := tailWrite b e.val req tail.val) pass rfl fun t bus => ?_
    rw [written, at'] at bus
    rw [dma bus]
    exact ⟨changed bus, rfl, rfl, running_slot (slot_lt_of_st queued (by decide)), rfl⟩
  · have goes := burstDone_goes ⟨lt, at', on, awake⟩ read write kept more pre halt
    refine answers_of_run (run := congrArg (ran s) goes) fun t _ ends => ?_
    have after : dmaOf t b e.val = bursted d := by
      rw [dmaOf, ends.at_eq]
      exact (dmaOf_updDm lt).trans (congrArg bursted kept)
    rw [after]
    exact ⟨bursted_resume (slot_lt_of_st (bursting_parts on).2.2.1 (by decide)), rfl, (bursting_parts on).1⟩
  · have counted := burstDone_ends ⟨lt, at', on, awake⟩ read write kept whole
    refine answers_of_run (run := rfl) fun t _ ends => ?_
    rw [dmaOf, ends.at_eq]
    exact counted
  · have fails : burstDone b e.val s.begin = dmaHalt b e.val 5 c 0 u :=
      (burstDone_fails ⟨lt, at', on, awake⟩ read).trans (dmaFault_now (by rw [kept]; exact quiet))
    obtain ⟨st, hist, which, halted⟩ := dmaHalt_dma (s := u) (b := b) (code := 5) (acc := c) (status := 0) lt
    refine answers_of_run (run := congrArg (ran s) fails) fun t _ ends => ?_
    have after : dmaOf t b e.val = haltedDma 5 c 0 st hist d := by
      rw [dmaOf, ends.at_eq]
      exact halted.trans (by rw [kept])
    rw [after]
    exact ⟨which, rfl, setSlot_st (slot_lt_of_st (bursting_parts on).2.2.1 (by decide)) (by decide) (by decide)⟩
  · have fails : handTimeout b e.val s.begin = dmaHalt b e.val 9 0 0 s.begin :=
      (if_pos (handWaits_begin.trans waits)).trans (dmaFault_now (by rw [at']; exact quiet))
    obtain ⟨slot, -⟩ := handWaits_parts waits
    obtain ⟨st, hist, which, halted⟩ := dmaHalt_dma (s := s.begin) (b := b) (code := 9) (acc := 0) (status := 0) lt
    rw [at'] at halted
    refine answers_of_run (run := congrArg (ran s) fails) fun t _ ends => ?_
    have after : dmaOf t b e.val = haltedDma 9 0 0 st hist d := by
      rw [dmaOf, ends.at_eq]
      exact halted
    have word : descW (haltedDma 9 0 0 st hist d) d.cur 7 = _ := setSlot_word (d := d) (slot_lt_of_st (eq ▸ slot) (by decide))
    rw [after, word]
    exact ⟨which, rfl, (slotWord_fields (by decide) (by decide)).2⟩
  · have later : handTimeout b e.val s.begin = _ := (if_pos (handWaits_begin.trans waits)).trans (dmaFault_later (by rw [at']; exact busy))
    obtain ⟨-, flt⟩ := handWaits_parts waits
    refine answers_of_run (run := congrArg (ran s) later) fun t queue ends => ⟨ends.keeps queue (.ofBegin .upd), ?_⟩
    rw [dmaOf, ends.at_eq]
    refine (dmaOf_updDm lt).trans ?_
    rw [at', if_neg (by simp [eq, flt])]
  · rcases which with ⟨rfl, rfl, no⟩ | ⟨rfl, rfl, no⟩ | ⟨rfl, rfl, no, busy⟩
    · have refused : dmaResume b e.val req s.begin = s.begin.updDm b e.val (answeredDma 1 1 req) := by
        unfold dmaResume
        rw [at', if_neg (by simpa using no)]
        exact dmOrder_refused own (by decide)
      refine answers_viaBus (act := dmaResume b e.val req) pass rfl fun t bus => ?_
      rw [refused] at bus
      exact ⟨changed bus, dma bus⟩
    · have refused : dmaSkip b e.val req s.begin = s.begin.updDm b e.val (answeredDma 2 1 req) := by
        unfold dmaSkip
        rw [at', if_neg (by simpa using no)]
        exact dmOrder_refused own (by decide)
      refine answers_viaBus (act := dmaSkip b e.val req) pass rfl fun t bus => ?_
      rw [refused] at bus
      exact ⟨changed bus, dma bus⟩
    · have refused : dmaFlush b e.val req s.begin = s.begin.updDm b e.val (answeredDma 3 1 req) := by
        unfold dmaFlush
        extract_lets st
        rw [if_neg (by simp [st, at', no, busy])]
        exact dmOrder_refused own (by decide)
      refine answers_viaBus (act := dmaFlush b e.val req) pass rfl fun t bus => ?_
      rw [refused] at bus
      exact ⟨changed bus, dma bus⟩
  · have taken : dmaResume b e.val req s.begin = s.begin.updDm b e.val fun x => running d.cur (answeredDma 1 0 req x) := by
      have after : dmaOf (s.begin.updDm b e.val (answeredDma 1 0 req)) b e.val = answeredDma 1 0 req d := (dmaOf_updDm lt).trans (by rw [at'])
      unfold dmaResume
      rw [dmOrder_taken own (by rw [at', halted]; rfl), dmResume_runs lt (by rw [after]; exact pre) (by rw [after]; exact check)
        (by rw [after]; exact no), after, updDm_updDm lt]
      rfl
    refine answers_viaBus (act := dmaResume b e.val req) pass rfl fun t bus => ?_
    rw [taken] at bus
    rw [dma bus]
    exact ⟨changed bus, rfl, running_slot (slot_lt_of_check check), rfl, rfl⟩
  · have taken : dmaSkip b e.val req s.begin = s.begin.updDm b e.val fun x => skipped (answeredDma 2 0 req x) := by
      have after : dmaOf (s.begin.updDm b e.val (answeredDma 2 0 req)) b e.val = answeredDma 2 0 req d := (dmaOf_updDm lt).trans (by rw [at'])
      unfold dmaSkip
      rw [dmOrder_taken own (by rw [at', halted]; rfl), dmSkip_idles lt (by rw [after]; exact pre) (by rw [after]; exact susp)
        (by rw [after]; exact empty), updDm_updDm lt]
    refine answers_viaBus (act := dmaSkip b e.val req) pass rfl fun t bus => ?_
    rw [taken] at bus
    exact ⟨changed bus, dma bus⟩
  · have taken : dmaFlush b e.val req s.begin = s.begin.updDm b e.val fun x => flushed (answeredDma 3 0 req x) := by
      unfold dmaFlush
      extract_lets st'
      have order : (st' == .halted || st' == .idle) = true := by
        rw [show st' = d.st from congrArg Dma.st at']
        rcases st with halted | idle
        · rw [halted]
          rfl
        · rw [idle]
          rfl
      rw [dmOrder_taken own (if_pos order), dmFlush_eq, updDm_updDm lt]
    refine answers_viaBus (act := dmaFlush b e.val req) pass rfl fun t bus => ?_
    rw [taken] at bus
    have kept (j : Nat) := flushSlots_kept (d := answeredDma 3 0 req d) (j := j) (xs := upto 32)
    rw [dma bus]
    obtain ⟨-, -, tail, result⟩ := kept 0
    refine ⟨changed bus, rfl, tail, tail, result, fun i => ⟨(kept i.val).1, ?_⟩⟩
    have st' := flushSlots_st (d := answeredDma 3 0 req d) (j := i.val) fun x (mem : x ∈ upto 32) => List.mem_range.mp mem
    exact st'.trans (if_congr ⟨fun both => both.2, fun waits => ⟨mem_upto i.isLt, waits⟩⟩ rfl rfl)
  · have taken : dmaPreempt b e.val req slot.val s.begin = s.begin.updDm b e.val fun x => { answeredDma 4 0 req x with pre := some slot.val } := by
      have after : dmaOf (s.begin.updDm b e.val (answeredDma 4 0 req)) b e.val = answeredDma 4 0 req d := (dmaOf_updDm lt).trans (by rw [at'])
      unfold dmaPreempt
      rw [dmOrder_taken own (by rw [at', ok]), dmPreempt_waits lt (by rw [after]; exact runs) (by rw [after]; exact no), updDm_updDm lt]
    refine answers_viaBus (act := dmaPreempt b e.val req slot.val) pass rfl fun t bus => ?_
    rw [taken] at bus
    exact ⟨changed bus, dma bus⟩
  · have taken : dmaPreempt b e.val req slot.val s.begin = s.begin.updDm b e.val (answeredDma 4 (preemptRefuse d slot.val) req) := by
      unfold dmaPreempt
      rw [at']
      exact dmOrder_refused own refused
    refine answers_viaBus (act := dmaPreempt b e.val req slot.val) pass rfl fun t bus => ?_
    rw [taken] at bus
    exact ⟨changed bus, dma bus⟩

end Sys2Proof.Machine

/-! The transactions of the two-wire port and their results (R402, R405 to R409, R424). -/
namespace Sys2Proof.Machine
set_option Elab.async false

/-! ### Bits cleared from a number -/

theorem and_mod_two_le {a m : Nat} : (a &&& m) % 2 ≤ a % 2 := by
  rcases Nat.mod_two_eq_zero_or_one (a &&& m) with even | odd
  · omega
  · have both : (a &&& m).testBit 0 = true := by simp [odd]
    rw [Nat.testBit_and, Bool.and_eq_true, Nat.testBit_zero] at both
    have own : a % 2 = 1 := of_decide_eq_true both.1
    omega

/-- The bits of a number less those that it shares with a mask. -/
theorem nbit_sub_and {a m i : Nat} : nbit (a - (a &&& m)) i = (nbit a i && !nbit m i) := by
  unfold nbit
  have le : a &&& m ≤ a := Nat.and_le_left
  have low := and_mod_two_le (a := a) (m := m)
  induction i generalizing a m with
  | zero =>
    rw [Nat.testBit_zero, Nat.testBit_zero, Nat.testBit_zero]
    rcases Nat.mod_two_eq_zero_or_one a with ha | ha
    · have diff : (a - (a &&& m)) % 2 = 0 := by omega
      simp [diff, ha]
    · rcases Nat.mod_two_eq_zero_or_one m with hm | hm
      · have other : (a &&& m) % 2 ≤ m % 2 := Nat.and_comm m a ▸ and_mod_two_le
        have diff : (a - (a &&& m)) % 2 = 1 := by omega
        simp [diff, ha, hm]
      · have one : (a &&& m) % 2 = 1 := by simp [ha, hm]
        have diff : (a - (a &&& m)) % 2 = 0 := by omega
        simp [diff, ha, hm]
  | succ i ih =>
    have half : (a - (a &&& m)) / 2 = a / 2 - (a / 2 &&& m / 2) := by
      rw [← Nat.and_div_two]
      omega
    rw [Nat.testBit_succ, Nat.testBit_succ, Nat.testBit_succ, half]
    exact ih Nat.and_le_left and_mod_two_le

section
variable {s t u : State} {b : BId} {cmd : Nat} {x : TwXact} {bs : List Byte} {P : State → Prop} {i : Instr}

/-! ### The port's block -/

theorem updTw_tw {f : Tw → Tw} : ((updTw b f s).at b).tw = f (s.at b).tw := by
  rw [updTw, State.upd_at, if_pos rfl]

theorem updTw_within {f : Tw → Tw} : Within b s (updTw b f s) := .upd

/-- A command to a port that is on the bus. -/
theorem answers_twRun {act : State → State} (on : twOnBus s b = true) (run : exec i s = ran s (twRun b act s.begin))
    (h : ∀ t, t.pending = s.pending → EndsAs (act s.begin) t → P t) : Answers i s P := by
  have acts : twRun b act s.begin = act s.begin := if_pos on
  exact answers_of_run (run.trans (congrArg (ran s) acts)) h

/-- What changes the port alone and answers on its bus. -/
structure OnPort (b : BId) (s t : State) : Prop where
  within : Within b s t
  touch : Touch [.out, .tw] s t

theorem OnPort.trans (h : OnPort b s t) (k : OnPort b t u) : OnPort b s u := ⟨h.within.trans k.within, h.touch.trans k.touch⟩

theorem updTw_onPort {f : Tw → Tw} : OnPort b s (updTw b f s) := ⟨.upd, updTw_touch (by decide) .refl⟩

theorem emit_onPort {o : Output} : OnPort b s (s.emit o) := ⟨.emit, State.emit_touch (by decide) .refl⟩

theorem twEnd_onPort {res idx : Nat} : OnPort b s (twEnd b cmd res idx s) := updTw_onPort

theorem OnPort.ends (p : OnPort b s.begin u) (queue : t.pending = s.pending) (e : EndsAs u t) : Keeps [b] s t ∧ AgreeOff [.out, .tw] s t :=
  ⟨e.keeps queue (.ofBegin p.within), e.agreeOff_begin (by decide) p.touch⟩

theorem EndsAs.tw (e : EndsAs u t) : twOf t b = twOf u b := by rw [twOf, e.at_eq, twOf]

/-- The port's block at the end of a transaction (R408). -/
def endedTw (cmd res idx : Nat) (t : Tw) : Tw :=
  { t with lastCmd := cmd, lastResult := res, lastIndex := idx, busMid := false, phase := if t.phase == .busy then .idle else t.phase
           cnt := if res == 0 then { t.cnt with xfer := sinc t.cnt.xfer } else t.cnt }

theorem twEnd_tw {res idx : Nat} : twOf (twEnd b cmd res idx s) b = endedTw cmd res idx (twOf s b) := updTw_tw

theorem wordsBytes_length {ws : List Word} : (wordsBytes ws).length = 4 * ws.length := by
  induction ws with
  | nil => rfl
  | cons w ws ih =>
    have step : wordsBytes (w :: ws) = leBytes 4 w.toNat ++ wordsBytes ws := rfl
    rw [step, List.length_append, ih, leBytes_length, List.length_cons]
    omega

/-! ### What each transaction does -/

/-- The answer to a read: the bytes, then the PEC of the transaction (R405). -/
def twReply (s : State) (b : BId) (cmd : Nat) (x : TwXact) (bs : List Byte) : Output := .reply (bs ++ [pecOf (twHead s b cmd x ++ bs)])

theorem twRead_block : twRead b cmd true bs .blockRead s =
    twEnd b cmd 0 0 (s.emit (twReply s b cmd .blockRead (BitVec.ofNat 8 bs.length :: bs))) := rfl

theorem twRead_word : twRead b cmd false bs .readWord s = twEnd b cmd 0 0 (s.emit (twReply s b cmd .readWord bs)) := rfl

/-- A read of fixed bytes answers them and ends with RESULT OK. -/
theorem answers_twReply {o : Output} {act : State → State} (on : twOnBus s b = true) (run : exec i s = ran s (twRun b act s.begin))
    (reads : act s.begin = twEnd b cmd 0 0 (s.begin.emit o)) :
    Answers i s fun t => Keeps [b] s t ∧ AgreeOff [.out, .tw] s t ∧ t.out = [o] ∧ twOf t b = endedTw cmd 0 0 (twOf s b) :=
  answers_twRun on run fun t queue e => by
    rw [reads] at e
    obtain ⟨keeps, agree⟩ := (emit_onPort.trans twEnd_onPort).ends queue e
    refine ⟨keeps, agree, e.out.trans rfl, ?_⟩
    rw [e.tw, twEnd_tw]
    rfl

theorem answers_twReadWord {act : State → State} (on : twOnBus s b = true) (run : exec i s = ran s (twRun b act s.begin))
    (reads : act s.begin = twRead b cmd false bs .readWord s.begin) :
    Answers i s fun t => Keeps [b] s t ∧ AgreeOff [.out, .tw] s t ∧ t.out = [.reply (bs ++ [pecOf (twHead s b cmd .readWord ++ bs)])]
      ∧ (twOf t b).attn = (twOf s b).attn ∧ (twOf t b).lastCmd = cmd ∧ (twOf t b).lastResult = 0 :=
  (answers_twReply (o := twReply s b cmd .readWord bs) on run (reads.trans twRead_word)).imp fun t ⟨keeps, agree, out, tw⟩ => by
    rw [tw]
    exact ⟨keeps, agree, out, rfl, rfl, rfl⟩

/-- The mask of ATTN_CLR clears its bits of TW_ATTN (R406). -/
def clearedTw (m : BitVec 16) (u : Tw) : Tw := { u with attn := u.attn - (u.attn &&& (m.toNat % 2048)) }

theorem clearedTw_attn {m : BitVec 16} {u : Tw} {k : Fin 11} :
    nbit (endedTw 0x21 0 0 (clearedTw m u)).attn k.val = (nbit u.attn k.val && !m.getLsbD k.val) := by
  have low : nbit (m.toNat % 2048) k.val = m.getLsbD k.val := by
    have power : (2048 : Nat) = 2 ^ 11 := rfl
    rw [nbit, power, Nat.testBit_mod_two_pow, decide_eq_true k.isLt, Bool.true_and]
    rfl
  exact nbit_sub_and.trans (by rw [low])

theorem twWrite_met {pec : Option Bool} {act : State → State} (met : pec = some true ∨ pec = none ∧ bitAt (twOf s b).cfg 3 = false) :
    twWrite b cmd pec act s = act s := by
  rcases met with rfl | ⟨rfl, off⟩
  · rfl
  · exact if_neg (by simp [off])

theorem twWrite_missing {act : State → State} (needs : bitAt (twOf s b).cfg 3 = true) : twWrite b cmd none act s = twEnd b cmd 0x12 0 s :=
  if_pos needs

/-- The port's block after a shape error. -/
def shapeTw (cmd code : Nat) (t : Tw) : Tw := endedTw cmd code 0 { t with cnt := { t.cnt with lenErr := sinc t.cnt.lenErr } }

theorem twShape_onPort {code : Nat} : OnPort b s (twShape b cmd code x s) ∧ twOf (twShape b cmd code x s) b = shapeTw cmd code (twOf s b) := by
  have counted : OnPort b s (twEnd b cmd code 0 (twCount b (fun c => { c with lenErr := sinc c.lenErr }) s)) :=
    OnPort.trans updTw_onPort twEnd_onPort
  have ended : twOf (twEnd b cmd code 0 (twCount b (fun c => { c with lenErr := sinc c.lenErr }) s)) b = shapeTw cmd code (twOf s b) := by
    rw [twEnd_tw, twOf, twCount, updTw_tw]
    rfl
  cases x with
  | writeWord w pec => exact ⟨counted, ended⟩
  | readWord => exact ⟨counted.trans emit_onPort, ended⟩
  | blockWrite bs pec => exact ⟨counted, ended⟩
  | blockRead => exact ⟨counted.trans emit_onPort, ended⟩
  | call bs => exact ⟨counted.trans emit_onPort, ended⟩

/-- A shape error accesses nothing. -/
theorem answers_twShape {code : Nat} {act : State → State} (on : twOnBus s b = true) (run : exec i s = ran s (twRun b act s.begin))
    (shape : act s.begin = twShape b cmd code x s.begin) (bad : code ≠ 0) :
    Answers i s fun t => Keeps [b] s t ∧ AgreeOff [.out, .tw] s t ∧ (twOf t b).lastResult = code
      ∧ (twOf t b).cnt.lenErr = sinc (twOf s b).cnt.lenErr ∧ (twOf t b).cnt.xfer = (twOf s b).cnt.xfer :=
  answers_twRun on run fun t queue e => by
    rw [shape] at e
    obtain ⟨keeps, agree⟩ := twShape_onPort.1.ends queue e
    have fails : (code == 0) = false := by simpa using bad
    rw [e.tw, twShape_onPort.2]
    refine ⟨keeps, agree, rfl, ?_, ?_⟩
    · simp only [shapeTw, endedTw, fails]
      rfl
    · simp only [shapeTw, endedTw, fails]
      rfl

end

section
variable {s t u : State} {b : BId} {cmd n a : Nat} {x : TwXact} {bs : List Byte} {i : Instr} {late : BitVec 8} {act : State → State}

/-! ### Window accesses (R409) and a transaction cut short (R424) -/

/-- STATUS and the words of a window read. -/
def windowBytes (n : Nat) (r : Series) : List Byte := BitVec.ofNat 8 (1 + 4 * n) :: BitVec.ofNat 8 r.cause :: wordsBytes r.words

theorem twWindowRead_eq {r : Series × State} (reads : r = hostReads 10 late n a 0 s) : twWindowRead b cmd a n late x s =
    twEnd b cmd r.1.cause r.1.index (r.2.emit (twReply r.2 b cmd x (windowBytes n r.1))) := by
  rw [reads]
  rfl

theorem answers_twWindowRead {r : Series × State} (on : twOnBus s b = true) (run : exec i s = ran s (twRun b act s.begin))
    (reads : act s.begin = twWindowRead b cmd a n late x s.begin) (came : r = hostReads 10 late n a 0 s.begin) : Answers i s fun t =>
      .reply (windowBytes n r.1 ++ [pecOf (twHead r.2 b cmd x ++ windowBytes n r.1)]) ∈ t.out
      ∧ (twOf t b).lastCmd = cmd ∧ (twOf t b).lastResult = r.1.cause ∧ (twOf t b).lastIndex = r.1.index :=
  answers_twRun on run fun t _ e => by
    rw [reads, twWindowRead_eq came] at e
    have out : t.out = r.2.out ++ [twReply r.2 b cmd x (windowBytes n r.1)] := e.out
    rw [out, e.tw, twEnd_tw]
    exact ⟨List.mem_append_right _ List.mem_cons_self, rfl, rfl, rfl⟩

theorem answers_twWindowWrite {r : Series × State} (on : twOnBus s b = true) (run : exec i s = ran s (twRun b act s.begin))
    (writes : act s.begin = twWindowWrite b cmd late bs (some true) s.begin)
    (came : r = hostWrites 10 late (bytesWords (bs.drop 4) (bs.length / 4 - 1)) (natAt bs 0 4) 0 s.begin) : Answers i s fun t =>
      (twOf t b).lastCmd = cmd ∧ (twOf t b).lastResult = r.1.cause ∧ (twOf t b).lastIndex = r.1.index
      ∧ (∀ n, n ≠ b → t.at n = r.2.at n) ∧ (t.at b).sy = (r.2.at b).sy ∧ (t.at b).td = (r.2.at b).td :=
  answers_twRun on run fun t _ e => by
    have ends : twWindowWrite b cmd late bs (some true) s.begin = twEnd b cmd r.1.cause r.1.index r.2 := by
      rw [came]
      rfl
    rw [writes, ends] at e
    have touch : Touch [.tw] r.2 (twEnd b cmd r.1.cause r.1.index r.2) := updTw_touch sub_self .refl
    rw [e.tw, twEnd_tw]
    refine ⟨rfl, rfl, rfl, fun n ne => (e.at_eq n).trans (updTw_within.at_ne n ne), ?_, ?_⟩
    · rw [e.at_eq, touch.at_sy (by decide)]
    · rw [e.at_eq, touch.at_td (by decide)]

theorem twCut_onPort {code : Nat} {mid : Bool} : OnPort b s (twCut b code mid s) := by
  unfold twCut
  extract_lets s1
  cases mid
  · exact twEnd_onPort
  · rw [if_pos rfl]
    exact twEnd_onPort.trans updTw_onPort

theorem twCut_tw {code : Nat} {mid : Bool} : (twOf (twCut b code mid s) b).lastCmd = code ∧ (twOf (twCut b code mid s) b).lastResult = 0x14
    ∧ (twOf (twCut b code mid s) b).busMid = mid ∧ (twOf (twCut b code mid s) b).cnt = (twOf s b).cnt := by
  have ended : ((twEnd b code 0x14 0 s).at b).tw = endedTw code 0x14 0 (twOf s b) := twEnd_tw
  unfold twCut
  extract_lets s1
  cases mid
  · rw [if_neg Bool.false_ne_true, twOf, ended]
    exact ⟨rfl, rfl, rfl, rfl⟩
  · rw [if_pos rfl, twOf, updTw_tw, ended]
    exact ⟨rfl, rfl, rfl, rfl⟩

end

/-- Settles O47: each transaction's answer, its result in TW_LAST and what it leaves alone. -/
theorem twoWirePort : Obligations.TwoWirePort := by
  unfold Obligations.TwoWirePort
  intro s b
  refine ⟨fun on => ⟨fun d ident => ?_, fun i cmd d mem => ?_, fun m pec met => ?_, fun m => ⟨?_, fun needs => ?_⟩,
    fun i cmd late bs n r ⟨which, reads⟩ => ?_, fun i cmd late bs r ⟨which, writes⟩ => ?_, fun i late bs pec code which => ?_,
    ?_, ?_, fun code kind bad => ?_, fun code mid => ?_⟩, fun off x late code kind i mem => ?_⟩
  · have length : d.length = 12 := by rw [ident, wordsBytes_length]; rfl
    have reads : twIdent b .blockRead s.begin = twEnd b 1 0 0 (s.begin.emit (twReply s b 1 .blockRead (12 :: d))) := by
      rw [twIdent, liveReg_begin, liveReg_begin, liveReg_begin, ← ident, twRead_block, length]
      rfl
    exact (answers_twReply on rfl reads).imp fun t ⟨keeps, agree, out, tw⟩ => ⟨keeps, agree, out, by rw [tw]; rfl, by rw [tw]; rfl, by rw [tw]; rfl⟩
  · simp only [List.mem_cons, Prod.mk.injEq, List.not_mem_nil, or_false] at mem
    rcases mem with ⟨rfl, rfl, rfl⟩ | ⟨rfl, rfl, rfl⟩
    · exact answers_twReadWord (act := fun t => twRead b 0x1F false (leBytes 2 (twLastWord (twOf t b)).toNat) .readWord t) on rfl rfl
    · exact answers_twReadWord (act := fun t => twRead b 0x20 false (leBytes 2 (attnPending (twOf t b))) .readWord t) on rfl rfl
  · refine answers_twRun on rfl fun t queue e => ?_
    have clears : twAttnClr b (.writeWord m pec) s.begin = twEnd b 0x21 0 0 (updTw b (clearedTw m) s.begin) :=
      twWrite_met (s := s.begin) (cmd := 0x21) (act := fun t => twEnd b 0x21 0 0 (updTw b (clearedTw m) t)) met
    rw [clears] at e
    obtain ⟨keeps, agree⟩ := (updTw_onPort.trans twEnd_onPort).ends queue e
    have tw : twOf t b = endedTw 0x21 0 0 (clearedTw m (twOf s b)) := by
      rw [e.tw, twEnd_tw, twOf, updTw_tw]
      rfl
    rw [tw]
    exact ⟨keeps, agree, rfl, fun k => clearedTw_attn⟩
  · refine answers_twRun on rfl fun t queue e => ?_
    have tw : twOf t b = endedTw 0x21 0x11 0 { twOf s b with cnt := { (twOf s b).cnt with pecErr := sinc (twOf s b).cnt.pecErr } } := by
      rw [e.tw]
      refine twEnd_tw.trans ?_
      rw [twOf, twCount, updTw_tw]
      rfl
    rw [tw]
    exact ⟨e.out, rfl, rfl, rfl⟩
  · refine answers_twRun on rfl fun t queue e => ?_
    have refused : twAttnClr b (.writeWord m none) s.begin = twEnd b 0x21 0x12 0 s.begin := if_pos needs
    rw [e.tw, refused, twEnd_tw]
    exact ⟨rfl, rfl⟩
  · rcases which with ⟨x, rfl, len, rfl, rfl, rfl⟩ | ⟨len, rfl, least, most, rfl, rfl⟩
    · exact answers_twWindowRead (act := twRd32 b late (.call x)) on rfl (if_pos (by simpa using len)) reads
    · have five : ¬ (bs.length != 5) = true := by simpa using len
      have count : ¬ (natAt bs 4 1 == 0 || decide (natAt bs 4 1 > 32)) = true := by
        simp only [Bool.or_eq_true, beq_iff_eq, decide_eq_true_eq]
        omega
      exact answers_twWindowRead (act := twRdn b late (.call bs)) on rfl ((if_neg five).trans (if_neg count)) reads
  · rcases which with ⟨len, rfl, rfl⟩ | ⟨words, least, most, rfl, rfl⟩
    · exact answers_twWindowWrite (act := twWr32 b late (.blockWrite bs (some true))) on rfl (if_pos (by simpa using len)) writes
    · exact answers_twWindowWrite (act := twWrn b late (.blockWrite bs (some true))) on rfl (if_pos (by simp [words, least, most])) writes
  · simp only [List.mem_singleton] at which
    rcases which with ⟨rfl, len, rfl⟩ | ⟨rfl, len, rfl⟩ | ⟨rfl, len, count, rfl⟩ | ⟨rfl, len, rfl⟩ | ⟨rfl, len, rfl⟩
    · exact answers_twShape on rfl (if_neg (by simpa using len)) (by decide)
    · exact answers_twShape on rfl (if_pos (by simpa using len)) (by decide)
    · refine answers_twShape on rfl ((if_neg (by simp [len])).trans (if_pos ?_)) (by decide)
      rcases count with zero | many
      · simp [zero]
      · simp [many]
    · exact answers_twShape on rfl (if_neg (by simpa using len)) (by decide)
    · refine answers_twShape on rfl (if_neg fun ok => ?_) (by decide)
      simp only [Bool.and_eq_true, beq_iff_eq, decide_eq_true_eq] at ok
      omega
  · refine answers_twRun on rfl fun t queue e => ?_
    obtain ⟨keeps, agree⟩ := (emit_onPort.trans twEnd_onPort).ends queue e
    exact ⟨keeps, agree, e.out⟩
  · exact answers_twRun on rfl fun t queue e => ⟨e.agreeOff_begin (by decide) (State.emit_touch (by decide) .refl), e.out⟩
  · refine answers_twRun on rfl fun t queue e => ?_
    have refused : twUnsupported b code.toNat kind s.begin =
        (twCount b (fun c => { c with nack := sinc c.nack }) s.begin).emit .nack := if_pos (by
      rcases bad with rfl | unknown
      · rfl
      · simp [unknown])
    rw [refused] at e
    refine ⟨e.keeps queue (.ofBegin (updTw_within.trans .emit)), e.out, ?_⟩
    have counted : twOf (twCount b (fun c => { c with nack := sinc c.nack }) s.begin) b = _ := updTw_tw
    rw [e.tw]
    exact counted
  · refine answers_twRun on rfl fun t queue e => ?_
    obtain ⟨keeps, agree⟩ := twCut_onPort.ends queue e
    obtain ⟨cmd, res, inside, cnt⟩ := twCut_tw (s := s.begin) (b := b) (code := code.toNat) (mid := mid)
    rw [e.tw]
    exact ⟨keeps, agree, cmd, res, inside, cnt⟩
  · have nothing : exec i s = ran s s.begin := by
      simp only [List.mem_cons, List.not_mem_nil, or_false] at mem
      rcases mem with rfl | rfl | rfl | rfl | rfl | rfl | rfl | rfl | rfl | rfl | rfl | rfl
      all_goals exact congrArg (ran s) (if_neg (by rw [show twOnBus s.begin b = false from off]; decide))
    exact answers_of_run nothing fun t _ e => ⟨e.agreeOff_begin (by decide) .refl, e.out⟩

end Sys2Proof.Machine

/-! Attention and its signals, the beacon and the notify, the wake by address and a bus that hangs (R412 to R418, R422). -/
namespace Sys2Proof.Machine
set_option Elab.async false

section
variable {s t u : State} {b h : BId} {req : ReqId} {i : Instr} {P : State → Prop}

theorem attnAt_attn {bit : Nat} : ((attnAt h bit s).at h).tw.attn = (s.at h).tw.attn ||| 2 ^ bit := by
  unfold attnAt
  extract_lets tw fresh s1 s2
  have told : (s2.at h).tw = (s1.at h).tw := (telemetry_touch sub_self .refl).at_tw (by decide) h
  have marked : (s1.at h).tw.attn = (s.at h).tw.attn ||| 2 ^ bit := by
    simp only [s1, State.upd_at, if_true]
  split
  · rw [State.upd_at, if_pos rfl, told]
    exact marked
  · exact marked

theorem twAttnSet_taken (harbour : s.harbour = some h) (own : req.val = h.val ∨ req = 11) : twAttnSet req true s = attnAt h 9 s := by
  unfold twAttnSet
  rw [harbour]
  exact if_pos (by simpa using own)

theorem twAttnSet_stays {fw : Bool} (harbour : s.harbour = some h) (no : fw = false ∨ req.val ≠ h.val ∧ req ≠ 11) : twAttnSet req fw s = s := by
  unfold twAttnSet
  rw [harbour]
  refine if_neg fun both => ?_
  obtain ⟨set, own⟩ := Bool.and_eq_true _ _ |>.mp both
  rcases no with rfl | ⟨pilot, engine⟩
  · exact Bool.false_ne_true set
  · simp only [Bool.or_eq_true, beq_iff_eq] at own
    exact own.elim pilot engine

/-- A command that changes the port's block by f, and nothing but it. -/
theorem answers_updTw {f : Tw → Tw} (run : exec i s = ran s (updTw b f s.begin)) :
    Answers i s fun t => Keeps [b] s t ∧ twOf t b = f (twOf s b) :=
  answers_of_run run fun t queue e => by
    refine ⟨e.keeps queue (.ofBegin updTw_within), ?_⟩
    rw [e.tw, twOf, updTw_tw]
    rfl

/-! ### The notify (R415, R416) -/

/-- What a notify sends: its own address and the pending causes. -/
def notifyOut (s : State) (b : BId) : Output := .reply ([0x10, BitVec.ofNat 8 (2 * twAddr s b)] ++ leBytes 2 (attnPending (twOf s b)))

/-- A notify may go out. -/
structure Notifies (s : State) (b : BId) : Prop where
  ready : signalReady s b true = true
  free : (twOf s b).notifyWait = false

theorem Notifies.due (n : Notifies s b) : (twOf s b).sigDue = true := by
  have parts := n.ready
  simp only [signalReady, Bool.and_eq_true] at parts
  obtain ⟨⟨⟨⟨⟨-, due⟩, -⟩, -⟩, -⟩, -⟩ := parts
  exact due

/-- How the port's block ends a notify that no other sender cuts at an edge. -/
def notifiedTw (e : NotifyEnd) (t : Tw) : Tw :=
  match e with
  | .delivered => { t with sigDue := false, edgeRun := 0, phase := .idle, cnt := { t.cnt with notify := sinc t.cnt.notify } }
  | .refused => { t with notifyWait := true, phase := .idle, cnt := { t.cnt with notifyNak := sinc t.cnt.notifyNak } }
  | .lost => { t with cnt := { t.cnt with arbLost := sinc t.cnt.arbLost } }
  | .edge => t

theorem hostNotify_plain {e : NotifyEnd} (n : Notifies s b) (plain : e ≠ .edge) :
    hostNotify b e s = updTw b (notifiedTw e) (s.emit (notifyOut s b)) := by
  unfold hostNotify
  extract_lets t data s1
  rw [if_neg (by simp [n.ready, t, n.free])]
  cases e with
  | delivered => rfl
  | refused => rfl
  | lost => rfl
  | edge => exact absurd rfl plain

/-- A notify that ends otherwise than at an edge. -/
theorem answers_notify {e : NotifyEnd} (n : Notifies s.begin b) (plain : e ≠ .edge) :
    Answers (.hostNotify b e) s fun t => Keeps [b] s t ∧ twOf t b = notifiedTw e (twOf s b) :=
  answers_of_run (run := congrArg (ran s) (hostNotify_plain n plain)) fun t queue ends => by
    refine ⟨ends.keeps queue (.ofBegin (Within.trans .emit updTw_within)), ?_⟩
    rw [ends.tw, twOf, updTw_tw]
    rfl

theorem hostNotify_edge (n : Notifies s b) : hostNotify b .edge s = arbEdge b (attnPending (twOf s b)) (s.emit (notifyOut s b)) := by
  unfold hostNotify
  extract_lets t data s1
  rw [if_neg (by simp [n.ready, t, n.free])]
  rfl

theorem logTw_touch' {kind events ms data : Nat} {sda : Bool} : Touch [.out, .freeCtr, .rp, .log, .dk, .us] s (logTw b kind sda events ms data s) :=
  logRec_touch sub_self .refl

theorem logTw_tw {kind events ms data : Nat} {sda : Bool} : twOf (logTw b kind sda events ms data s) b = twOf s b := by
  rw [twOf, logTw_touch'.at_tw (by decide), twOf]

/-- The port's block after an arbitration lost at an edge (R416), before it may retire. -/
def edgeTw (hist : Hist) (t : Tw) : Tw :=
  { t with phase := .backoff, edgeRun := min (t.edgeRun + 1) 7, cnt := { t.cnt with arbEdge := sinc t.cnt.arbEdge }, arbHist := hist }

theorem arbEdge_tw {data : Nat} : twOf (arbEdge b data s) b = if (classEvent s b 13 (twOf s b).arbHist).1 = true
    then { edgeTw (classEvent s b 13 (twOf s b).arbHist).2.1 (twOf s b) with ctrlRetired := true, phase := .idle }
    else edgeTw (classEvent s b 13 (twOf s b).arbHist).2.1 (twOf s b) := by
  unfold arbEdge
  extract_lets ev s1 s2 s3
  have counted : twOf s2 b = edgeTw ev.2.1 (twOf s b) := logTw_tw.trans updTw_tw
  split
  · have noted : Touch [.out, .rp] (logTw b 2 false (ev.2.2 + 1) 0 0 s3) (notice b 0x0B 0 0x0D ev.2.2 (logTw b 2 false (ev.2.2 + 1) 0 0 s3)) :=
      notice_touch sub_self .refl
    rw [twOf, noted.at_tw (by decide)]
    refine logTw_tw.trans (updTw_tw.trans ?_)
    rw [← twOf, counted]
  · exact counted

theorem arbEdge_calm {r : State} {data : Nat} (k : Calm r s) : Calm r (arbEdge b data s) := by
  unfold arbEdge
  extract_lets ev s1 s2 s3
  have counted : Calm r s1 := k.touch (updTw_touch sub_self .refl)
  have logged : Calm r s2 := logRec_calm counted
  exact .ite (notice_calm (logRec_calm (logged.touch (updTw_touch sub_self .refl)))) logged

/-! ### The wake by address (R418) -/

/-- The port's block once the island matcher has seen its address. -/
def wakingTw (t : Tw) : Tw :=
  { t with waking := true, sclLow := t.sclLow || !bitAt t.cfg 5, cnt := if !t.waking then { t.cnt with wake := sinc t.cnt.wake } else t.cnt }

theorem wakingTw_wake {t : Tw} : (wakingTw t).cnt.wake = if t.waking = true then t.cnt.wake else sinc t.cnt.wake := by
  unfold wakingTw
  cases t.waking
  · rfl
  · rfl

theorem addressMatch_eq (asleep : s.dev.sleep = true) (active : twActive s b = true) : addressMatch b s =
    if bitAt (twOf s b).cfg 5 then (updTw b wakingTw s).emit .nack else updTw b wakingTw s := by
  unfold addressMatch
  extract_lets t first s1
  rw [if_neg (by simp [asleep, active])]
  rfl

theorem addressMatch_wakes (asleep : s.dev.sleep = true) (active : twActive s b = true) : OnPort b s (addressMatch b s)
    ∧ twOf (addressMatch b s) b = wakingTw (twOf s b)
    ∧ (addressMatch b s).out = if bitAt (twOf s b).cfg 5 then s.out ++ [.nack] else s.out := by
  rw [addressMatch_eq asleep active]
  split
  · exact ⟨updTw_onPort.trans emit_onPort, updTw_tw, rfl⟩
  · exact ⟨updTw_onPort, updTw_tw, rfl⟩

/-- The port's block once the matcher has let SCL go. -/
def releasedTw (t : Tw) : Tw := { t with sclLow := false, cnt := { t.cnt with stretchTo := sinc t.cnt.stretchTo } }

theorem stretchTimeout_eq (held : (twOf s b).sclLow = true) : stretchTimeout b s =
    (logTw b 4 false (arbEvents (updTw b releasedTw s) b) 0 0 (updTw b releasedTw s)).emit .nack := if_neg (by rw [held]; decide)

end

/-- Settles O48: what each signal of the port does to its block, and what it sends. -/
theorem twoWireSignals : Obligations.TwoWireSignals := by
  unfold Obligations.TwoWireSignals
  intro s b
  refine ⟨fun req h fw ⟨pass, harbour⟩ => ⟨fun ⟨set, own⟩ => ?_, fun no => ?_⟩, fun ready => ?_, fun phase => ⟨?_, ?_⟩,
    fun ⟨active, locked, mode, pending⟩ => ?_, fun ⟨ready, free⟩ => ⟨fun e => ?_, ?_, ?_, ?_, ?_⟩, ?_, fun phase => ?_,
    fun ⟨asleep, active⟩ => ?_, fun held => ?_, fun sda ms => ⟨fun active => ?_, fun off => ?_⟩⟩
  · subst set
    refine answers_viaBus (act := twAttnSet req true) pass rfl fun t bus => ?_
    rw [twAttnSet_taken (s := s.begin) harbour own] at bus
    have rule : Touch [.freeCtr, .dk, .tw, .us] s.begin (attnAt h 9 s.begin) := attnAt_touch sub_self .refl
    refine ⟨?_, ?_⟩
    · exact read_agreeOff (by decide) (rule.mono (by decide)) (bus.mono (by decide))
    · rw [twOf, bus.at_tw (by decide), attnAt_attn]
      rfl
  · refine answers_viaBus (act := twAttnSet req fw) pass rfl fun t bus => ?_
    rw [twAttnSet_stays (s := s.begin) harbour no] at bus
    exact agreeOff_of_order (fs := []) .refl bus
  · exact answers_updTw (f := fun t => { t with phase := .beacon, sdaLow := true }) (congrArg (ran s) (if_pos ready))
  · exact answers_updTw (f := fun t => { t with phase := .idle, sdaLow := false, sigDue := false, cnt := { t.cnt with beacon := sinc t.cnt.beacon } })
      (congrArg (ran s) (if_neg (by rw [show (twOf s.begin b).phase = .beacon from phase]; decide)))
  · exact answers_updTw (f := fun t => { t with phase := .idle, sdaLow := false, cnt := { t.cnt with beaconCut := sinc t.cnt.beaconCut } })
      (congrArg (ran s) (if_neg (by rw [show (twOf s.begin b).phase = .beacon from phase]; decide)))
  · have due : (twActive s.begin b && (s.begin.at b).ch.locked && !bitAt (twOf s.begin b).cfg 4 && attnPending (twOf s.begin b) != 0) = true := by
      rw [show twActive s.begin b = true from active, show (s.begin.at b).ch.locked = true from locked,
        show bitAt (twOf s.begin b).cfg 4 = false from mode, bne_iff_ne.mpr (show attnPending (twOf s.begin b) ≠ 0 from pending)]
      rfl
    exact answers_updTw (f := fun t => { t with sigDue := true }) (congrArg (ran s) (if_pos due))
  · have notifies : Notifies s.begin b := ⟨ready, free⟩
    refine answers_of_run (run := rfl) fun t _ ends => ?_
    rw [ends.out]
    have sent : notifyOut s b ∈ (s.begin.emit (notifyOut s b)).out := List.mem_append_right _ List.mem_cons_self
    by_cases edge : e = .edge
    · rw [edge, hostNotify_edge notifies]
      exact (arbEdge_calm .refl).more _ sent
    · rw [hostNotify_plain notifies edge]
      exact sent
  · exact answers_notify ⟨ready, free⟩ (by decide)
  · exact answers_notify ⟨ready, free⟩ (by decide)
  · exact answers_notify ⟨ready, free⟩ (by decide)
  · have notifies : Notifies s.begin b := ⟨ready, free⟩
    refine answers_of_run (run := congrArg (ran s) (hostNotify_edge notifies)) fun t _ ends => ?_
    have tw : twOf t b = _ := ends.tw.trans arbEdge_tw
    rw [show twOf (s.begin.emit (notifyOut s.begin b)) b = twOf s b from rfl,
      show classEvent (s.begin.emit (notifyOut s.begin b)) b 13 (twOf s b).arbHist = classEvent s b 13 (twOf s b).arbHist from rfl] at tw
    cases retires : (classEvent s b 13 (twOf s b).arbHist).1
    · rw [tw, retires, if_neg Bool.false_ne_true]
      exact ⟨rfl, rfl, notifies.due, fun _ => ⟨rfl, rfl⟩, (nomatch ·)⟩
    · rw [tw, retires, if_pos rfl]
      exact ⟨rfl, rfl, notifies.due, (nomatch ·), fun _ => ⟨rfl, rfl⟩⟩
  · exact answers_updTw (f := fun t => { t with notifyWait := false }) rfl
  · exact answers_updTw (f := fun t => { t with phase := .idle }) (congrArg (ran s) (if_pos (by rw [show (twOf s.begin b).phase = .backoff from phase]; rfl)))
  · obtain ⟨port, tw, out⟩ := addressMatch_wakes (s := s.begin) asleep active
    refine answers_of_run (run := rfl) fun t queue ends => ⟨ends.keeps queue (.ofBegin port.within), ?_, ?_⟩
    · rw [ends.dev, port.within.dev]
      exact asleep
    · rw [ends.tw, tw, ends.out, out]
      refine ⟨rfl, wakingTw_wake, fun cfg => ⟨?_, ?_⟩, fun cfg => ⟨?_, ?_⟩⟩
      · exact if_pos cfg
      · exact (congrArg _ (show (!bitAt (twOf s b).cfg 5) = false by rw [cfg]; rfl)).trans (Bool.or_false _)
      · exact if_neg (by rw [show bitAt (twOf s.begin b).cfg 5 = false from cfg]; decide)
      · exact (congrArg _ (show (!bitAt (twOf s b).cfg 5) = true by rw [cfg]; rfl)).trans (Bool.or_true _)
  · refine answers_of_run (run := congrArg (ran s) (stretchTimeout_eq (s := s.begin) held)) fun t _ ends => ?_
    have tw : twOf t b = releasedTw (twOf s b) := ends.tw.trans (logTw_tw.trans updTw_tw)
    rw [tw, ends.out]
    exact ⟨rfl, rfl, rfl, List.mem_append_right _ List.mem_cons_self⟩
  · have hangs : busHang b sda ms.toNat s.begin = logTw b 3 sda (arbEvents s.begin b) ms.toNat 0
        (twCount b (fun c => { c with hang := sinc c.hang }) s.begin) := if_neg (by rw [show twActive s.begin b = true from active]; decide)
    refine answers_of_run (run := congrArg (ran s) hangs) fun t _ ends => ?_
    have tw : twOf t b = { twOf s b with cnt := { (twOf s b).cnt with hang := sinc (twOf s b).cnt.hang } } :=
      ends.tw.trans (logTw_tw.trans updTw_tw)
    rw [tw]
    refine ⟨rfl, rfl, ends.agreeOff_begin (by decide) ?_⟩
    exact (updTw_touch (by decide) .refl).trans (logTw_touch'.mono (by decide))
  · have stays : busHang b sda ms.toNat s.begin = s.begin := if_pos (by rw [show twActive s.begin b = false from off]; rfl)
    exact answers_of_run (run := congrArg (ran s) stays) fun t _ ends => ⟨ends.agreeOff_begin (by decide) .refl, ends.out⟩

end Sys2Proof.Machine

/-! VBUS, bus reset, suspend, resume and remote wakeup of the USB port, and telemetry (R116, R427, R445 to R449). -/
namespace Sys2Proof.Machine
set_option Elab.async false

section
variable {r s t u : State} {b c h : BId} {req : ReqId} {i : Instr} {fs : List Piece}

/-! ### Records queued for endpoint 0x81 (R445, R446) -/

/-- The ports are kept but for the telemetry records that are queued or dropped. -/
def TelKept (s t : State) : Prop := ∀ c, ∃ q seq drop loss,
  (t.at c).us = { (s.at c).us with telQueue := q, telSeq := seq, telDrop := drop, telLoss := loss }

theorem TelKept.refl : TelKept s s := fun _ => ⟨_, _, _, _, rfl⟩

theorem TelKept.trans (k : TelKept s t) (l : TelKept t u) : TelKept s u := fun c => by
  obtain ⟨_, _, _, _, first⟩ := k c
  obtain ⟨q, seq, drop, loss, second⟩ := l c
  exact ⟨q, seq, drop, loss, by rw [second, first]⟩

theorem TelKept.touch (k : TelKept r s) (l : Touch fs s t) (us : .us ∉ fs := by decide) : TelKept r t :=
  k.trans fun c => ⟨_, _, _, _, l.at_us us c⟩

theorem TelKept.ite {p : Prop} [Decidable p] (k : TelKept r s) (l : TelKept r t) : TelKept r (if p then s else t) := by
  split
  · exact k
  · exact l

theorem TelKept.queue {f : Berth → Berth} (k : TelKept r s)
    (queues : ∀ x, ∃ q seq drop loss, (f x).us = { x.us with telQueue := q, telSeq := seq, telDrop := drop, telLoss := loss }) :
    TelKept r (s.upd b f) := k.trans fun c => by
  rw [State.upd_at]
  split
  · exact queues _
  · exact ⟨_, _, _, _, rfl⟩

theorem telPut_telKept {kind : Nat} {bytes : List Byte} (k : TelKept r s) : TelKept r (telPut b kind bytes s) := by
  unfold telPut
  extract_lets all
  split
  next gs t eq => exact (k.touch (allocMany_touch_eq sub_self eq .refl)).queue fun x => ⟨_, _, _, _, rfl⟩
  next t eq => exact (k.touch (allocMany_touch_eq sub_self eq .refl)).queue fun x => ⟨_, _, _, _, rfl⟩

theorem telLossFirst_telKept (k : TelKept r s) : TelKept r (telLossFirst b s) := by
  unfold telLossFirst
  extract_lets n bytes
  split
  · exact k
  · split
    next gs t eq => exact (k.touch (allocMany_touch_eq sub_self eq .refl)).queue fun x => ⟨_, _, _, _, rfl⟩
    next t eq => exact k.touch (allocMany_touch_eq sub_self eq .refl)

theorem telemetry_telKept {kind : Nat} {bytes : List Byte} (k : TelKept r s) : TelKept r (telemetry kind bytes s) := by
  unfold telemetry
  split
  · exact k
  · exact .ite (telPut_telKept (telLossFirst_telKept k)) k

theorem logTake_telKept {own : Bool} {recs : List LogRec} {buf : Option Nat} (k : TelKept r s) : TelKept r (logTake b own recs buf s) := by
  unfold logTake
  extract_lets s1
  have queued : TelKept r s1 := k.touch (State.updLog_touch sub_self .refl)
  exact TelKept.touch (iter_induction queued fun _ _ => telemetry_telKept) (logPump_touch sub_self .refl)

theorem logSend_telKept (k : TelKept r s) : TelKept r (logSend b s) := by
  unfold logSend
  extract_lets l t1 t2
  have emptied : TelKept r t1 := k.touch (State.updLog_touch sub_self .refl)
  have sent : TelKept r t2 := emptied.touch (ringSend_touch sub_self .refl)
  split
  · exact k
  · split
    · exact logTake_telKept emptied
    · cases l.curBuf with
      | some g => exact sent.touch (deckRelease_touch sub_self .refl)
      | none => exact sent

theorem logPush_telKept {ty : Nat} {p0 p1 p2 : Word} (k : TelKept r s) : TelKept r (logPush b ty p0 p1 p2 s) := by
  unfold logPush
  extract_lets x s1
  have pushed : TelKept r s1 := k.touch (State.updLog_touch sub_self .refl)
  exact .ite (logSend_telKept pushed) pushed

theorem logLoss_telKept (k : TelKept r s) : TelKept r (logLoss b s) :=
  .ite k (logPush_telKept (k.touch (State.updLog_touch sub_self .refl)))

/-- A record changes the ports by the telemetry that it generates alone. -/
theorem logRec_telKept {ty : Nat} {p0 p1 p2 : Word} (k : TelKept r s) : TelKept r (logRec b ty p0 p1 p2 s) := by
  unfold logRec
  split
  · exact k
  · split
    next t eq => exact (k.touch (logOpen_touch_eq sub_self eq .refl)).touch (logDropOne_touch sub_self .refl)
    next t eq =>
      have told := logLoss_telKept (b := b) (k.touch (logOpen_touch_eq sub_self eq .refl))
      split
      next v eq' => exact logPush_telKept (told.touch (logOpen_touch_eq sub_self eq' .refl))
      next v eq' => exact (told.touch (logOpen_touch_eq sub_self eq' .refl)).touch (logDropOne_touch sub_self .refl)

theorem logDfu_telKept {ver : Nat} (k : TelKept r s) : TelKept r (logDfu b ver s) := logRec_telKept k

/-! ### The port's block -/

theorem updUs_us {f : Us → Us} : ((updUs b f s).at b).us = f (s.at b).us := by
  rw [updUs, State.upd_at, if_pos rfl]

theorem updUs_within {f : Us → Us} : Within b s (updUs b f s) := .upd

theorem EndsAs.us (e : EndsAs u t) : usOf t b = usOf u b := by rw [usOf, e.at_eq, usOf]

/-! ### Attachment and bus reset (R427, R449) -/

/-- The port's block on the bus: detached, powered, or default after a bus reset. -/
def busUs (attached : Bool) (dev : UsbDev) (u : Us) : Us :=
  { u with attached := attached, dev := dev, susp := false, rwake := false, addr := 0, config := 0, halt81 := false, testMode := 0
           hs := false, wakeReq := false }

theorem busState_us {attached : Bool} {dev : UsbDev} : usOf (busState b attached dev s) b = busUs attached dev (usOf s b) := updUs_us

/-- The port's block without telemetry. -/
def clearedUs (u : Us) : Us := { u with telQueue := [], telSeq := 0, telSent := 0, telFlight := none, zlpDue := false }

theorem releaseAll_us {gs : List Nat} : usOf (releaseAll gs s) b = usOf s b := (releaseAll_touch sub_self .refl).at_us (by decide) b

theorem telClear_us : usOf (telClear b s) b = clearedUs (usOf s b) := releaseAll_us.trans updUs_us

/-- The download's block once it has ended without passing (R441). -/
def endedDfu (status : Nat) (d : Dfu) : Dfu :=
  { d with st := if status == 0 then .idle else .error, status := status, active := false, held := [], staged := [], bufs := [] }

theorem dfuEnd_us {status ver : Nat} : ∃ q seq drop loss, usOf (dfuEnd b status ver s) b = { usOf s b with
    dfuFail := sinc (usOf s b).dfuFail, dfu := endedDfu status (usOf s b).dfu, telQueue := q, telSeq := seq, telDrop := drop, telLoss := loss } := by
  unfold dfuEnd
  extract_lets gs s1
  have ended : usOf (releaseAll gs s1) b = { usOf s b with dfuFail := sinc (usOf s b).dfuFail, dfu := endedDfu status (usOf s b).dfu } :=
    releaseAll_us.trans updUs_us
  obtain ⟨q, seq, drop, loss, same⟩ := logDfu_telKept (b := b) (ver := ver) (TelKept.refl (s := releaseAll gs s1)) b
  refine ⟨q, seq, drop, loss, same.trans ?_⟩
  rw [← usOf, ended]

/-- What a cut of a download leaves of the port's block (R449): but for the download and telemetry, all of it. -/
structure CutUs (status : Nat) (old new : Us) : Prop where
  kept : ∃ q seq drop loss, new = { old with dfuFail := new.dfuFail, dfu := new.dfu, telQueue := q, telSeq := seq, telDrop := drop, telLoss := loss }
  ends : old.dfu.active = true ∧ old.dfu.st ≠ .manifestSync → new.dfuFail = sinc old.dfuFail ∧ new.dfu = endedDfu status old.dfu

theorem dfuCut_cut {status : Nat} : CutUs status (usOf s b) (usOf (dfuCut b status s) b) := by
  unfold dfuCut
  extract_lets d
  split
  next manifest => exact ⟨⟨_, _, _, _, rfl⟩, fun ⟨_, no⟩ => absurd (beq_iff_eq.mp manifest) no⟩
  next =>
    split
    next runs =>
      obtain ⟨q, seq, drop, loss, same⟩ := dfuEnd_us (s := s) (b := b) (status := status) (ver := 0)
      rw [same]
      exact ⟨⟨q, seq, drop, loss, rfl⟩, fun _ => ⟨rfl, rfl⟩⟩
    next idle =>
      have none' : ¬ ((usOf s b).dfu.active = true ∧ (usOf s b).dfu.st ≠ .manifestSync) := fun both => idle both.1
      split
      · have ended : usOf (updDfu b (fun d => { d with st := .idle }) s) b = { usOf s b with dfu := { (usOf s b).dfu with st := .idle } } := updUs_us
        rw [ended]
        exact ⟨⟨_, _, _, _, rfl⟩, fun both => absurd both none'⟩
      · exact ⟨⟨_, _, _, _, rfl⟩, fun both => absurd both none'⟩

theorem vbusChange_ball {v : Bool} (ball : b = 0 ∨ b = 4) : vbusChange b v s = usbFollow b (updUs b (fun u => { u with vbus := v }) s) :=
  if_pos (by simpa using ball)

theorem usbFollow_powers (active : (usOf s b).active = true) (enabled : bitAt (usOf s b).cfg 0 = true) (away : (usOf s b).attached = false) :
    usbFollow b (updUs b (fun u => { u with vbus := true }) s) = busState b true .powered (updUs b (fun u => { u with vbus := true }) s) := by
  have valid : usOf (updUs b (fun u => { u with vbus := true }) s) b = { usOf s b with vbus := true } := updUs_us
  unfold usbFollow
  extract_lets u on
  rw [if_pos (by simp [on, u, valid, active, enabled]), if_neg (by simp [u, valid, away])]

theorem usbFollow_detaches (off : (usOf s b).vbus = false) : usbFollow b s = usbDetach b s := by
  unfold usbFollow
  extract_lets u on
  exact if_neg (by simp [on, u, off])

/-- The port's block after a detach (R427): off the bus, without telemetry, its download cut. -/
theorem usbDetach_us (attached : (usOf s b).attached = true) : ∃ cut, CutUs 0 (usOf s b) cut
    ∧ usOf (usbDetach b s) b = clearedUs (busUs false .detached cut) := by
  refine ⟨_, dfuCut_cut, ?_⟩
  rw [usbDetach, if_pos attached, telClear_us, busState_us]

theorem pumpAll_touch : Touch [.log] s (iter allB logPump s) := .iter (fun _ _ => logPump_touch sub_self) .refl

/-- The device has left SLEEP. -/
theorem wake_awake : (wake s).dev.sleep = false := by
  unfold wake
  split
  · extract_lets s1
    rw [pumpAll_touch.at_dev (by decide)]
    rfl
  next awake => exact eq_false_of_ne_true awake

theorem wake_us : usOf (wake s) b = usOf s b := (wake_touch sub_self .refl).at_us (by decide) b

theorem usbReset_awake {hs : Bool} (attached : (usOf s b).attached = true) : (usbReset b hs s).dev.sleep = false := by
  unfold usbReset
  extract_lets s1
  have cleared : Touch [.out, .freeCtr, .rp, .log, .dk, .us] (wake s) s1 := telClear_touch (by decide) (dfuCut_touch sub_self .refl)
  have after : Touch [.us] s1 (updUs b (fun u => { u with hs := hs, busReset := sinc u.busReset }) (busState b true .default s1)) :=
    (updUs_touch sub_self .refl).trans (updUs_touch sub_self .refl)
  rw [if_neg (by simp [attached]), after.at_dev (by decide), cleared.at_dev (by decide)]
  exact wake_awake

/-- A command that changes the port's block by f, and nothing but it. -/
theorem answers_updUs {f : Us → Us} (run : exec i s = ran s (updUs b f s.begin)) :
    Answers i s fun t => Keeps [b] s t ∧ usOf t b = f (usOf s b) :=
  answers_of_run run fun t pending e => by
    refine ⟨e.keeps pending (.ofBegin updUs_within), ?_⟩
    rw [e.us, usOf, updUs_us]
    rfl

theorem usbReset_us {hs : Bool} (attached : (usOf s b).attached = true) : ∃ cut, CutUs 0x0C (usOf s b) cut ∧ usOf (usbReset b hs s) b =
    { busUs true .default (clearedUs cut) with hs := hs, busReset := sinc cut.busReset } := by
  refine ⟨usOf (dfuCut b 0x0C (wake s)) b, ?_, ?_⟩
  · have cut := dfuCut_cut (s := wake s) (b := b) (status := 0x0C)
    rw [wake_us] at cut
    exact cut
  · unfold usbReset
    extract_lets s1
    rw [if_neg (by simp [attached]), usOf, updUs_us, ← usOf, busState_us]
    simp only [s1, telClear_us]
    rfl

/-! ### Packets on endpoint 0x81 (R446) -/

theorem isConf_begin : isConf s.begin b = isConf s b := rfl

/-- An IN token where there is nothing to send, or a packet, or a stall. -/
theorem telemetryIn_stalls (conf : isConf s b = true) (off : bitAt (usOf s b).cfg 2 = false ∨ (usOf s b).halt81 = true) :
    telemetryIn b s = s.emit .stall := by
  unfold telemetryIn
  extract_lets u due n
  rw [if_neg (by simp [conf]), if_pos]
  rcases off with cfg | halt
  · simp [u, cfg]
  · simp [u, halt]

section
variable (conf : isConf s b = true) (on : bitAt (usOf s b).cfg 2 = true) (open' : (usOf s b).halt81 = false)
include conf on open'

theorem telemetryIn_naks (none' : telBytesDue (usOf s b) = []) (zlp : (usOf s b).zlpDue = false) : telemetryIn b s = s.emit .nack := by
  unfold telemetryIn
  extract_lets u due n
  rw [if_neg (by simp [conf]), if_neg (by simp [u, on, open']), if_pos (by simp [u, due, none', zlp])]

theorem telemetryIn_sends {n : Nat} (some' : telBytesDue (usOf s b) ≠ [] ∨ (usOf s b).zlpDue = true)
    (size : n = (usOf s b).telFlight.getD (min (bulkSize s b) (telBytesDue (usOf s b)).length)) :
    telemetryIn b s = (updUs b (fun u => { u with telFlight := some n }) s).emit (.reply ((telBytesDue (usOf s b)).take n)) := by
  subst size
  unfold telemetryIn
  extract_lets u due n
  rw [if_neg (by simp [conf]), if_neg (by simp [u, on, open']), if_neg]
  rcases some' with bytes | zlp
  · simp [u, due, bytes]
  · simp [u, zlp]

end

/-- The port's block with a packet acknowledged, before the records that it covers are released. -/
def ackedUs (n : Nat) (u : Us) : Us := { u with telFlight := none, telSent := u.telSent + n }

/-- The port's block with a zero-length packet due where the queue is empty after a full packet. -/
def zlpUs (full : Bool) (u : Us) : Us := { u with zlpDue := u.telQueue.isEmpty && full }

theorem zlpUs_waits {full : Bool} {u : Us} {r : TelRec} {rs : List TelRec} (queue : u.telQueue = r :: rs) :
    zlpUs full u = { u with zlpDue := false } := by
  have some' : u.telQueue.isEmpty = false := by rw [queue]; rfl
  rw [zlpUs, some']
  rfl

/-- The port's block with the record at the front released. -/
def poppedUs (r : TelRec) (rs : List TelRec) (u : Us) : Us :=
  { u with telQueue := rs, telSent := u.telSent - r.bytes.length, telRec := sinc u.telRec }

theorem telemetryAck_eq {n : Nat} (flight : (usOf s b).telFlight = some n) : telemetryAck b s =
    updUs b (zlpUs (n == bulkSize s b))
      (telPop b (usOf (updUs b (ackedUs n) s) b).telQueue.length (updUs b (ackedUs n) s)) := by
  unfold telemetryAck
  rw [flight]
  rfl

theorem telPop_within {r : TelRec} {rs : List TelRec} {k : Nat} (queue : (usOf s b).telQueue = r :: rs) (part : (usOf s b).telSent < r.bytes.length) :
    telPop b (k + 1) s = s := by
  unfold telPop
  rw [queue]
  exact if_neg (Nat.not_le.mpr part)

theorem telPop_record {r : TelRec} {rs : List TelRec} {k : Nat} (queue : (usOf s b).telQueue = r :: rs) (whole : r.bytes.length ≤ (usOf s b).telSent) :
    telPop b (k + 1) s = telPop b k (releaseAll r.bufs (updUs b (poppedUs r rs) s)) := by
  conv_lhs => unfold telPop
  rw [queue]
  exact if_pos whole

theorem holderOf_release_none {g k : Nat} (none' : holderOf s k = none) : holderOf (deckRelease g s) k = none := by
  unfold holderOf heldOf at none' ⊢
  rw [Option.map_eq_none_iff, List.find?_eq_none] at none' ⊢
  intro e mem
  rw [deckRelease_eq, State.updDk_at] at mem
  split at mem
  · exact none' e (List.mem_filter.mp mem).1
  · exact none' e mem

theorem holderOf_releaseAll {gs : List Nat} {g : Nat} (mem : g ∈ gs) : holderOf (releaseAll gs s) g = none :=
  iter_reaches (P := fun t => holderOf t g = none) (f := fun g t => deckRelease g t) mem (fun _ => holderOf_release)
    fun _ _ none' => holderOf_release_none none'

/-! ### A pushed buffer (R447) -/

/-- What US_TEL_PUSH_STAT shows of a push: 1 too many are queued, 2 the records are off, 3 the buffer is not the pusher's, 0 taken. -/
def pushResult (s : State) (h : BId) (req : ReqId) (g : Nat) : Nat :=
  if pushesQueued (usOf s h) ≥ 16 then 1 else if !telOn s h 3 then 2
  else if !(holderOf s g == some (pushHand h req) && (s.at (bid (g / 512))).dk.inDeck
    && !((s.at (bid (g / 512))).dk.handed.any fun e => e.1 == g % 512)) then 3 else 0

/-- The port's block with the result of a push. -/
def pushNoted (req : ReqId) (res : Nat) (u : Us) : Us := { u with pushStat := vset u.pushStat req.val res }

section
variable {w : Word} (harbour : s.harbour = some h)
include harbour

theorem telPush_stays (bad : 8 ≤ req.val ∧ req ≠ 11 ∨ fld w 20 12 = 0 ∨ 256 < fld w 20 12) : telPush req w s = s := by
  unfold telPush
  rw [harbour]
  refine if_pos ?_
  rcases bad with ⟨low, engine⟩ | zero | many
  · simp [low, engine]
  · simp [between, zero]
  · simp [between, many]

variable (may : req.val < 8 ∨ req = 11) (least : 1 ≤ fld w 20 12) (most : fld w 20 12 ≤ 256)
include may least most

theorem telPush_eq : telPush req w s = if pushResult s h req (fld w 11 0) != 0 then updUs h (pushNoted req (pushResult s h req (fld w 11 0))) s
    else
      let s1 := telLossFirst h (updUs h (pushNoted req (pushResult s h req (fld w 11 0))) s)
      let bytes := telBytes s1 h 3 (fld w 27 24) (bufRead s1 (fld w 11 0) (fld w 20 12))
      let s2 := s1.updDk (bid (fld w 11 0 / 512)) fun d => { d with handed := (fld w 11 0 % 512, 11) :: d.handed }
      updUs h (fun u => { u with telQueue := u.telQueue ++ [⟨bytes, [fld w 11 0], true⟩], telSeq := (u.telSeq + 1) % 2 ^ 32 }) s2 := by
  unfold telPush
  rw [harbour]
  refine (if_neg ?_).trans rfl
  have who : (decide (req.val < 8) || req == 11) = true := by simpa using may
  simp [who, between, least, most]

theorem telPush_noted {res : Nat} (result : pushResult s h req (fld w 11 0) = res) (bad : res ≠ 0) :
    telPush req w s = updUs h (pushNoted req res) s := by
  rw [telPush_eq harbour may least most, result]
  exact if_pos (bne_iff_ne.mpr bad)

end

theorem pushResult_full {g : Nat} (full : 16 ≤ pushesQueued (usOf s h)) : pushResult s h req g = 1 := if_pos full

section
variable {g : Nat} (room : pushesQueued (usOf s h) < 16)
include room

theorem pushResult_off (off : telOn s h 3 = false) : pushResult s h req g = 2 := by
  rw [pushResult, if_neg (Nat.not_le.mpr room), off]
  rfl

theorem pushResult_foreign (on : telOn s h 3 = true) (foreign : holderOf s g ≠ some (pushHand h req)) : pushResult s h req g = 3 := by
  rw [pushResult, if_neg (Nat.not_le.mpr room), on, if_neg (by decide), if_pos]
  rw [beq_eq_false_iff_ne.mpr foreign]
  rfl

theorem pushResult_ok (on : telOn s h 3 = true) (own : holderOf s g = some (pushHand h req)) (deck : (s.at (bid (g / 512))).dk.inDeck = true)
    (free : ∀ e ∈ (s.at (bid (g / 512))).dk.handed, e.1 ≠ g % 512) : pushResult s h req g = 0 := by
  have none' : ((s.at (bid (g / 512))).dk.handed.any fun e => e.1 == g % 512) = false := by simpa using free
  rw [pushResult, if_neg (Nat.not_le.mpr room), on, if_neg (by decide), own, deck, none']
  exact if_neg (by simp)

end

/-- The record that a push queues, and the port's block with it. -/
def pushedRec (s : State) (h : BId) (w : Word) : TelRec :=
  ⟨telBytes s h 3 (fld w 27 24) (bufRead s (fld w 11 0) (fld w 20 12)), [fld w 11 0], true⟩

theorem telLossFirst_none (told : (usOf s h).telLoss = 0) : telLossFirst h s = s := by
  unfold telLossFirst
  extract_lets n bytes
  exact if_pos (by rw [show n = 0 from told]; rfl)

theorem telPush_queued_touch {w : Word} (harbour : s.harbour = some h) (may : req.val < 8 ∨ req = 11) (least : 1 ≤ fld w 20 12)
    (most : fld w 20 12 ≤ 256) (ok : pushResult s h req (fld w 11 0) = 0) (told : (usOf s h).telLoss = 0) :
    Touch [.us, .dk] s (telPush req w s) := by
  have noted : usOf (updUs h (pushNoted req 0) s) h = pushNoted req 0 (usOf s h) := updUs_us
  rw [telPush_eq harbour may least most, ok, if_neg (by decide), telLossFirst_none (by rw [noted]; exact told)]
  exact updUs_touch (by decide) (State.updDk_touch (by decide) (updUs_touch (by decide) .refl))

/-- A push that is taken queues its record, and hands the buffer over to the port. -/
theorem telPush_queued {w : Word} (harbour : s.harbour = some h) (may : req.val < 8 ∨ req = 11) (least : 1 ≤ fld w 20 12) (most : fld w 20 12 ≤ 256)
    (ok : pushResult s h req (fld w 11 0) = 0) (told : (usOf s h).telLoss = 0) :
    usOf (telPush req w s) h = { pushNoted req 0 (usOf s h) with
      telQueue := (usOf s h).telQueue ++ [pushedRec s h w], telSeq := ((usOf s h).telSeq + 1) % 2 ^ 32 }
    ∧ (fld w 11 0 % 512, (11 : ReqId)) ∈ ((telPush req w s).at (bid (fld w 11 0 / 512))).dk.handed := by
  have noted : usOf (updUs h (pushNoted req 0) s) h = pushNoted req 0 (usOf s h) := updUs_us
  rw [telPush_eq harbour may least most, ok, if_neg (by decide), telLossFirst_none (by rw [noted]; exact told)]
  extract_lets s1 bytes s2
  have other : Touch [.us] s s1 := updUs_touch sub_self .refl
  have handed : Touch [.dk] s1 s2 := State.updDk_touch sub_self .refl
  have same : bytes = (pushedRec s h w).bytes := by
    have payload : bufRead s1 (fld w 11 0) (fld w 20 12) = bufRead s (fld w 11 0) (fld w 20 12) := by
      rw [bufRead, other.at_deck (by decide), bufRead]
    have seq : (s1.at h).us.telSeq = (s.at h).us.telSeq := (congrArg Us.telSeq noted).trans rfl
    simp only [bytes, pushedRec, telBytes, payload, seq, other.at_td (by decide)]
  have block : (s2.at h).us = pushNoted req 0 (usOf s h) := (handed.at_us (by decide) h).trans noted
  refine ⟨?_, ?_⟩
  · rw [usOf, updUs_us, block, same]
    rfl
  · have kept : Touch [.us] s2 (updUs h (fun u => { u with
        telQueue := u.telQueue ++ [⟨bytes, [fld w 11 0], true⟩], telSeq := (u.telSeq + 1) % 2 ^ 32 }) s2) := updUs_touch sub_self .refl
    rw [kept.at_dk (by decide)]
    simp only [s2, State.updDk_at, if_true]
    exact List.mem_cons_self

end

/-- A push that is not taken leaves its result in US_TEL_PUSH_STAT alone. -/
theorem answers_telPush_noted {s : State} {h : BId} {req : ReqId} {w : Word} {res : Nat} (pass : WritePasses s req none 0xE024)
    (harbour : s.harbour = some h) (may : req.val < 8 ∨ req = 11) (least : 1 ≤ fld w 20 12) (most : fld w 20 12 ≤ 256)
    (result : pushResult s.begin h req (fld w 11 0) = res) (bad : res ≠ 0) : Answers (.usTelPush req w) s fun t =>
      AgreeOff [.out, .sy, .us] s t ∧ usOf t h = { usOf s h with pushStat := vset (usOf s h).pushStat req.val res } := by
  refine answers_viaBus (act := telPush req w) pass rfl fun t bus => ?_
  rw [telPush_noted (s := s.begin) harbour may least most result bad] at bus
  refine ⟨agreeOff_of_order (updUs_touch sub_self .refl) bus, ?_⟩
  rw [usOf, bus.at_us (by decide), updUs_us]
  rfl

/-- Settles O49: attachment, bus events and telemetry by the port's block after each. -/
theorem usbBusAndTelemetry : Obligations.UsbBusAndTelemetry := by
  unfold Obligations.UsbBusAndTelemetry
  refine ⟨fun s b => ⟨fun ball => ⟨fun ⟨active, enabled, away⟩ => ?_, ?_⟩, fun v other => ?_, fun attached => ⟨fun hs => ?_, fun awake => ?_⟩,
    fun susp => ?_, fun ⟨susp, rwake, wakeReq⟩ => ?_⟩,
    fun s b => ⟨fun conf => ⟨fun off => ?_, fun ⟨on, open'⟩ => ⟨fun ⟨none', zlp⟩ => ?_, fun n ⟨some', size⟩ => ?_⟩⟩,
      fun n r rs ⟨flight, queue⟩ => ⟨fun part => ?_, fun ⟨last, whole⟩ => ?_⟩,
      fun req w h g ⟨pass, harbour, buf⟩ => ⟨fun bad => ?_, fun ⟨may, least, most⟩ => ⟨fun full => ?_, fun ⟨room, off⟩ => ?_,
        fun ⟨room, on, foreign⟩ => ?_, fun ⟨room, on, own, deck, free, told⟩ => ?_⟩⟩⟩⟩
  · have powers : vbusChange b true s.begin = busState b true .powered (updUs b (fun u => { u with vbus := true }) s.begin) :=
      (vbusChange_ball ball).trans (usbFollow_powers active enabled away)
    refine answers_of_run (run := congrArg (ran s) powers) fun t queue e => ⟨e.keeps queue (.ofBegin (updUs_within.trans updUs_within)), ?_⟩
    rw [e.us, busState_us, usOf, updUs_us]
    exact ⟨rfl, rfl, rfl, rfl, rfl⟩
  · have off : usOf (updUs b (fun u => { u with vbus := false }) s.begin) b = { usOf s b with vbus := false } := updUs_us
    have follows : vbusChange b false s.begin = usbDetach b (updUs b (fun u => { u with vbus := false }) s.begin) :=
      (vbusChange_ball ball).trans (usbFollow_detaches (by rw [off]))
    refine answers_of_run (run := congrArg (ran s) follows) fun t _ e => ?_
    rw [e.us]
    cases attached : (usOf s b).attached
    · have stays : usbDetach b (updUs b (fun u => { u with vbus := false }) s.begin) = updUs b (fun u => { u with vbus := false }) s.begin :=
        if_neg (by rw [off]; simp [attached])
      rw [stays, off]
      exact ⟨rfl, attached, (nomatch ·)⟩
    · obtain ⟨cut, is, same⟩ := usbDetach_us (s := updUs b (fun u => { u with vbus := false }) s.begin) (b := b) (by rw [off]; exact attached)
      rw [off] at is
      obtain ⟨q, seq, drop, loss, kept⟩ := is.kept
      rw [same]
      refine ⟨?_, rfl, fun _ => ⟨rfl, rfl, rfl, fun runs => ?_⟩⟩
      · rw [kept]
        rfl
      · obtain ⟨fail, dfu⟩ := is.ends runs
        exact ⟨congrArg Dfu.active dfu, congrArg Dfu.st dfu, fail⟩
  · have stays : vbusChange b v s.begin = s.begin := if_neg (by simp [other])
    exact answers_of_run (run := congrArg (ran s) stays) fun t _ e => e.agreeOff_begin (by decide) .refl
  · refine answers_of_run (run := rfl) fun t _ e => ?_
    obtain ⟨cut, is, same⟩ := usbReset_us (s := s.begin) (b := b) (hs := hs) attached
    obtain ⟨q, seq, drop, loss, kept⟩ := is.kept
    rw [e.us, e.dev, same]
    refine ⟨usbReset_awake attached, rfl, rfl, rfl, rfl, rfl, rfl, rfl, ?_, fun runs => ?_⟩
    · rw [kept]
      rfl
    · obtain ⟨-, dfu⟩ := is.ends runs
      exact ⟨congrArg Dfu.st dfu, congrArg Dfu.status dfu, congrArg Dfu.active dfu⟩
  · have suspends : usbSuspend b s.begin = updUs b (fun u => { u with susp := true, suspends := sinc u.suspends }) s.begin := if_pos (by
      rw [show (usOf s.begin b).attached = true from attached, show (usOf s.begin b).susp = false from awake]
      rfl)
    exact answers_updUs (i := .usbSuspend b) (f := fun u => { u with susp := true, suspends := sinc u.suspends }) (congrArg (ran s) suspends)
  · have resumes : usbResume b s.begin = wake (updUs b (fun u => { u with susp := false, wakeReq := false }) s.begin) := if_pos susp
    refine answers_of_run (run := congrArg (ran s) resumes) fun t _ e => ⟨e.agreeOff_begin (by decide) ?_, ?_, ?_⟩
    · exact wake_touch (by decide) (updUs_touch (by decide) .refl)
    · rw [e.dev]
      exact wake_awake
    · rw [e.us, wake_us]
      exact updUs_us
  · have signals : remoteWakeup b s.begin = (updUs b (fun u => { u with wakeReq := false }) s.begin).emit (.resume b) := if_pos (by
      rw [show (usOf s.begin b).susp = true from susp, show (usOf s.begin b).rwake = true from rwake,
        show (usOf s.begin b).wakeReq = true from wakeReq]
      rfl)
    refine answers_of_run (run := congrArg (ran s) signals) fun t pending e => ⟨e.keeps pending (.ofBegin (updUs_within.trans .emit)), ?_, e.out⟩
    have taken : usOf (updUs b (fun u => { u with wakeReq := false }) s.begin) b = { usOf s b with wakeReq := false } := updUs_us
    exact e.us.trans taken
  · exact answers_of_run (run := congrArg (ran s) (telemetryIn_stalls (s := s.begin) conf off)) fun t _ e =>
      ⟨e.agreeOff_begin (by decide) (State.emit_touch (by decide) .refl), e.out⟩
  · exact answers_of_run (run := congrArg (ran s) (telemetryIn_naks (s := s.begin) conf on open' none' zlp)) fun t _ e =>
      ⟨e.agreeOff_begin (by decide) (State.emit_touch (by decide) .refl), e.out⟩
  · refine answers_of_run (run := congrArg (ran s) (telemetryIn_sends (s := s.begin) conf on open' some' size)) fun t pending e =>
      ⟨e.keeps pending (.ofBegin (updUs_within.trans .emit)), e.out, ?_⟩
    have sent : usOf (updUs b (fun u => { u with telFlight := some n }) s.begin) b = { usOf s b with telFlight := some n } := updUs_us
    exact e.us.trans sent
  · have acked : usOf (updUs b (ackedUs n) s.begin) b = ackedUs n (usOf s b) := updUs_us
    have waits : (usOf (updUs b (ackedUs n) s.begin) b).telQueue = r :: rs := by rw [acked]; exact queue
    have stays : telPop b (usOf (updUs b (ackedUs n) s.begin) b).telQueue.length (updUs b (ackedUs n) s.begin) = updUs b (ackedUs n) s.begin := by
      rw [waits, List.length_cons]
      exact telPop_within waits (by rw [acked]; exact part)
    have run : telemetryAck b s.begin = _ := telemetryAck_eq (s := s.begin) flight
    rw [stays] at run
    refine answers_of_run (run := congrArg (ran s) run) fun t pending e => ⟨e.keeps pending (.ofBegin (updUs_within.trans updUs_within)), ?_⟩
    rw [e.us, usOf, updUs_us, ← usOf, acked, zlpUs_waits (u := ackedUs n (usOf s b)) queue]
    rfl
  · subst last
    have acked : usOf (updUs b (ackedUs n) s.begin) b = ackedUs n (usOf s b) := updUs_us
    have waits : (usOf (updUs b (ackedUs n) s.begin) b).telQueue = [r] := by rw [acked]; exact queue
    have run : telemetryAck b s.begin = _ := telemetryAck_eq (s := s.begin) flight
    rw [waits, List.length_singleton, telPop_record waits (by rw [acked]; exact whole.le)] at run
    have popped : usOf (updUs b (zlpUs (n == bulkSize s.begin b)) (releaseAll r.bufs (updUs b (poppedUs r []) (updUs b (ackedUs n) s.begin)))) b =
        zlpUs (n == bulkSize s b) (poppedUs r [] (ackedUs n (usOf s b))) := by
      rw [usOf, updUs_us, ← usOf, releaseAll_us, usOf, updUs_us, ← usOf, acked]
      rfl
    refine answers_of_run (run := rfl) fun t _ e => ⟨e.agreeOff_begin (by decide) (telemetryAck_touch (by decide) .refl), ?_⟩
    have block : usOf t b = zlpUs (n == bulkSize s b) (poppedUs r [] (ackedUs n (usOf s b))) :=
      e.us.trans ((congrArg (fun v : State => usOf v b) run).trans popped)
    have none' : (ackedUs n (usOf s b)).telSent - r.bytes.length = 0 := Nat.sub_eq_zero_of_le whole.ge
    rw [block]
    refine ⟨rfl, none', rfl, Bool.true_and _, fun g mem => ?_⟩
    have freed : holderOf (releaseAll r.bufs (updUs b (poppedUs r []) (updUs b (ackedUs n) s.begin))) g = none := holderOf_releaseAll mem
    have kept : Touch [.us] _ (updUs b (zlpUs (n == bulkSize s.begin b)) (telPop b 0 (releaseAll r.bufs (updUs b (poppedUs r [])
      (updUs b (ackedUs n) s.begin))))) := updUs_touch sub_self .refl
    rw [holderOf, heldOf, e.at_eq, run, kept.at_dk (by decide)]
    exact freed
  · refine answers_viaBus (act := telPush req w) pass rfl fun t bus => ?_
    rw [telPush_stays (s := s.begin) harbour bad] at bus
    exact agreeOff_of_order (fs := []) .refl bus
  · exact answers_telPush_noted pass harbour may least most (pushResult_full (s := s.begin) full) (by decide)
  · exact answers_telPush_noted pass harbour may least most (pushResult_off (s := s.begin) room off) (by decide)
  · exact answers_telPush_noted pass harbour may least most (pushResult_foreign (s := s.begin) room on (buf ▸ foreign)) (by decide)
  · subst buf
    have ok : pushResult s.begin h req (fld w 11 0) = 0 := pushResult_ok (s := s.begin) room on own deck free
    obtain ⟨block, handed⟩ := telPush_queued (s := s.begin) harbour may least most ok told
    have rule := telPush_queued_touch (s := s.begin) harbour may least most ok told
    refine answers_viaBus (act := telPush req w) pass rfl fun t bus => ⟨?_, ?_⟩
    · exact read_agreeOff (by decide) (rule.mono (by decide)) (bus.mono (by decide))
    · rw [usOf, bus.at_us (by decide), ← usOf, block, bus.at_dk (by decide)]
      exact ⟨rfl, rfl, vget_vset_self req.isLt, handed⟩

end Sys2Proof.Machine

/-! USB standard requests and the vendor requests of interface 0 (R429 to R433). -/
namespace Sys2Proof.Machine
set_option Elab.async false

section
variable {s t u : State} {b : BId} {i : Instr} {P : State → Prop} {r : Option State}

/-! ### Requests on the bus -/

/-- A request that the port stalls leaves everything but its answer alone. -/
theorem answers_stall (on : onBus s b = true) (run : exec i s = ran s (request b r s.begin)) (none' : r = none) :
    Answers i s fun t => AgreeOff [.out] s t ∧ t.out = [.stall] := by
  subst none'
  have stalls : request b none s.begin = s.begin.emit .stall := if_neg (by rw [show onBus s.begin b = true from on]; decide)
  exact answers_of_run (run.trans (congrArg (ran s) stalls)) fun t _ e =>
    ⟨e.agreeOff_begin (by decide) (State.emit_touch (by decide) .refl), e.out⟩

/-- A request that the port takes. -/
theorem answers_request (on : onBus s b = true) (run : exec i s = ran s (request b r s.begin)) (taken : r = some u)
    (h : ∀ t, t.pending = s.pending → EndsAs u t → P t) : Answers i s P := by
  subst taken
  have takes : request b (some u) s.begin = u := if_neg (by rw [show onBus s.begin b = true from on]; decide)
  exact answers_of_run (run.trans (congrArg (ran s) takes)) h

/-- A request that answers bytes and changes nothing. -/
theorem answers_bytes {o : Output} (on : onBus s b = true) (run : exec i s = ran s (request b r s.begin)) (taken : r = some (s.begin.emit o)) :
    Answers i s fun t => AgreeOff [.out] s t ∧ t.out = [o] :=
  answers_request on run taken fun _ _ e => ⟨e.agreeOff_begin (by decide) (State.emit_touch (by decide) .refl), e.out⟩

/-- A request that changes the port's block and is acknowledged. -/
theorem answers_acked {f : Us → Us} (on : onBus s b = true) (run : exec i s = ran s (request b r s.begin))
    (taken : r = some ((updUs b f s.begin).emit .ack)) : Answers i s fun t => Keeps [b] s t ∧ t.out = [.ack] ∧ usOf t b = f (usOf s b) :=
  answers_request on run taken fun t pending e => by
    refine ⟨e.keeps pending (.ofBegin (updUs_within.trans .emit)), e.out, ?_⟩
    have changed : usOf (updUs b f s.begin) b = f (usOf s b) := updUs_us
    exact e.us.trans changed

/-- A request that also discards the telemetry queue. -/
theorem answers_cleared {f : Us → Us} (on : onBus s b = true) (run : exec i s = ran s (request b r s.begin))
    (taken : r = some ((telClear b (updUs b f s.begin)).emit .ack)) :
    Answers i s fun t => t.out = [.ack] ∧ usOf t b = clearedUs (f (usOf s b)) :=
  answers_request on run taken fun t _ e => by
    have silent : (telClear b (updUs b f s.begin)).out = [] := (telClear_touch sub_self .refl).at_out (by decide)
    have changed : usOf (updUs b f s.begin) b = f (usOf s b) := updUs_us
    refine ⟨e.out.trans (congrArg (fun l => l ++ [Output.ack]) silent), e.us.trans ?_⟩
    exact telClear_us.trans (congrArg clearedUs changed)

/-! ### Vendor requests (R431 to R433) -/

/-- The port's block with US_LAST of a vendor READ or WRITE. -/
def lastUs (breq res idx : Nat) (reached : Bool) (u : Us) : Us :=
  { u with lastReq := breq, lastResult := res, lastIndex := idx, lastCount := if reached then (u.lastCount + 1) % 256 else u.lastCount }

theorem not_conf_false (conf : isConf s b = true) : ¬ (!isConf s.begin b) = true := by
  rw [show isConf s.begin b = true from conf]
  decide

/-- A vendor request of the wrong shape is stalled. -/
theorem answers_usShape {breq : Nat} {act : State} (run : act = usShape b breq s.begin) (is : exec i s = ran s act := by rfl) :
    Answers i s fun t => AgreeOff [.out, .us] s t ∧ t.out = [.stall] ∧ (usOf t b).lastResult = 0x10 := by
  subst run
  refine answers_of_run is fun t _ e => ⟨?_, e.out, ?_⟩
  · exact e.agreeOff_begin (by decide) (State.emit_touch (by decide) (updUs_touch (by decide) .refl))
  · have last : usOf (usLast b breq 0x10 0 false s.begin) b = lastUs breq 0x10 0 false (usOf s b) := updUs_us
    rw [e.us]
    exact congrArg Us.lastResult last

theorem usLast_us {breq res idx : Nat} {reached : Bool} : usOf (usLast b breq res idx reached s) b = lastUs breq res idx reached (usOf s b) :=
  updUs_us

section
variable {a len : Nat} {late : BitVec 8} {r : Series × State} (conf : isConf s b = true)
  (shape : ¬ (len % 4 != 0 || decide (len < 8) || decide (len > 512)) = true) (reads : r = hostReads 9 late (len / 4 - 1) a 0 s.begin)
include conf shape reads

/-- A READ whose data stage is cut, and one that completes. -/
theorem vendorRead_cut : vendorRead b a len late false s.begin = usLast b 1 r.1.cause r.1.index true r.2 := by
  subst reads
  exact (if_neg (not_conf_false conf)).trans (if_neg shape)

theorem vendorRead_answers : vendorRead b a len late true s.begin = usDone b ((usLast b 1 r.1.cause r.1.index true r.2).emit
    (.reply (wordsBytes (usLastWord (usOf (usLast b 1 r.1.cause r.1.index true r.2) b) :: r.1.words)))) := by
  subst reads
  exact (if_neg (not_conf_false conf)).trans (if_neg shape)

end

section
variable {a : Nat} {ws : List Word} {late : BitVec 8} (conf : isConf s b = true)
  (shape : ws ≠ [] ∧ ws.length ≤ 128) (on : bitAt (usOf s b).cfg 3 = true)
include conf shape on

/-- A WRITE up to its status stage. -/
theorem vendorWrite_taken {started : Bool} : vendorWrite b a ws 0 late started s.begin =
    if !started then updUs b (fun u => { u with cut := sinc u.cut }) (usLast b 2 0x14 0 false s.begin)
    else (usDone b (usLast b 2 (hostWrites 9 late ws a 0 s.begin).1.cause (hostWrites 9 late ws a 0 s.begin).1.index true
      (hostWrites 9 late ws a 0 s.begin).2)).emit .ack := by
  have fits : ¬ ((0 : Nat) != 0 || ws.isEmpty || decide (ws.length > 128)) = true := by simp [shape]
  exact (if_neg (not_conf_false conf)).trans ((if_neg fits).trans (if_neg (by rw [show bitAt (usOf s.begin b).cfg 3 = true from on]; decide)))

end

end

/-- Settles O50: what each standard request and each vendor request of interface 0 answers, and what it does to the port's block. -/
theorem usbRequests : Obligations.UsbRequests := by
  unfold Obligations.UsbRequests
  intro s b on
  refine ⟨?_, fun recip idx which => ?_, fun i on' mem => ?_, fun conf => ?_, fun a => ?_, fun ty i len => ?_, ?_,
    fun dev => ⟨?_, ?_, fun v many => ?_⟩, fun i => ?_, fun alt ⟨conf, idle, le⟩ => ?_, fun i alt which => ?_, fun i mem => ?_,
    fun conf => ⟨fun addr len late fin r ⟨whole, least, most, reads⟩ => ?_, fun addr len late fin bad => ?_,
      fun addr ws late r ⟨some', few, on', writes⟩ => ?_, fun addr ws late ⟨some', few, on'⟩ => ?_, fun addr ws odd late st bad => ?_, ?_⟩⟩
  · have low : leBytes 2 (1 + 2 * b2n (usOf s b).rwake) = [BitVec.ofNat 8 (1 + 2 * b2n (usOf s b).rwake), 0] := by
      cases (usOf s b).rwake
      · rfl
      · rfl
    exact answers_bytes on rfl (congrArg (fun l => some (answer l 2 s.begin)) low)
  · refine answers_stall on rfl ?_
    rcases which with rfl | ⟨rfl, ctrl, back, bulk⟩ | ⟨rfl, far⟩
    · rfl
    · have away : ∀ n : BitVec 8, idx ≠ n → (idx.toNat == n.toNat) = false := fun n ne =>
        beq_eq_false_iff_ne.mpr fun same => ne (BitVec.eq_of_toNat_eq same)
      have control : (idx.toNat == 0 || idx.toNat == 0x80) = false := Bool.or_eq_false_iff.mpr ⟨away 0 ctrl, away 0x80 back⟩
      have stream : (idx.toNat == 0x81) = false := away 0x81 bulk
      exact (if_neg (by rw [control]; decide)).trans (if_neg (by rw [stream, Bool.false_and]; decide))
    · have large : decide (idx.toNat ≤ 2) = false := decide_eq_false (Nat.not_le.mpr far)
      exact if_neg (by rw [large, Bool.and_false]; decide)
  · simp only [List.mem_cons, Prod.mk.injEq, List.not_mem_nil, or_false] at mem
    rcases mem with ⟨rfl, rfl⟩ | ⟨rfl, rfl⟩
    · exact answers_acked (f := fun u => { u with rwake := false }) on rfl rfl
    · exact answers_acked (f := fun u => { u with rwake := true }) on rfl rfl
  · exact (answers_cleared (f := fun u => { u with halt81 := true }) on rfl (if_pos ((Bool.and_eq_true _ _).mpr ⟨rfl, conf⟩))).imp
      fun t ⟨out, us⟩ => ⟨out, by rw [us]; rfl, by rw [us]; rfl, by rw [us]; rfl⟩
  · exact (answers_acked (f := fun u => { u with
      addr := a.val, dev := if u.dev == .configured then .configured else if a.val == 0 then .default else .address }) on rfl rfl).imp
      fun t ⟨keeps, out, us⟩ => ⟨keeps, out, by rw [us], fun other => by
        have zero : (a.val == 0) = true ↔ a = 0 := by rw [beq_iff_eq, Fin.ext_iff]; rfl
        rw [us]
        exact (if_neg (by simpa using other)).trans (if_congr zero rfl rfl)⟩
  · cases desc : descriptor s b ty.toNat i.toNat with
    | none => exact answers_stall on rfl (congrArg (Option.map fun d => answer d len.toNat s.begin) desc)
    | some d => exact answers_bytes on rfl (congrArg (Option.map fun d => answer d len.toNat s.begin) desc)
  · exact answers_bytes on rfl rfl
  · have may : ((1#8).toNat ≤ 1 && (usOf s.begin b).dev != .default) = true := bne_iff_ne.mpr dev
    exact (answers_cleared (f := fun u => { u with config := 1, dev := .configured, halt81 := false }) on rfl (if_pos may)).imp
      fun t ⟨out, us⟩ => ⟨out, by rw [us]; rfl, by rw [us]; rfl, by rw [us]; rfl, by rw [us]; rfl⟩
  · have may : ((0#8).toNat ≤ 1 && (usOf s.begin b).dev != .default) = true := bne_iff_ne.mpr dev
    exact (answers_cleared (f := fun u => { u with config := 0, dev := .address, halt81 := false }) on rfl (if_pos may)).imp
      fun t ⟨out, us⟩ => ⟨out, by rw [us]; rfl, by rw [us]; rfl⟩
  · exact answers_stall on rfl (if_neg (by
      have large : ¬ v.toNat ≤ 1 := Nat.not_le.mpr many
      simp [large]))
  · have one : (i.toNat == 1) = true ↔ i = 1#8 := by rw [beq_iff_eq, ← BitVec.toNat_inj]; rfl
    have alt : (if i.toNat == 1 then (usOf s b).alt else 0) = if i = 1#8 then (usOf s b).alt else 0 := if_congr one rfl rfl
    by_cases listed : isConf s b = true ∧ i ≤ 2#8
    · rw [if_pos listed]
      refine answers_bytes on rfl ((if_pos ?_).trans ?_)
      · exact (Bool.and_eq_true _ _).mpr ⟨listed.1, decide_eq_true listed.2⟩
      · exact congrArg (fun n => some (answer [BitVec.ofNat 8 n] 1 s.begin)) alt
    · rw [if_neg listed]
      refine answers_stall on rfl (if_neg fun both => listed ?_)
      obtain ⟨conf, le⟩ := (Bool.and_eq_true _ _).mp both
      exact ⟨conf, of_decide_eq_true le⟩
  · refine answers_acked (f := fun u => { u with alt := alt.toNat }) on rfl ?_
    have may : ((usOf s.begin b).dfu.st == .idle && decide (alt.toNat ≤ 21)) = true :=
      (Bool.and_eq_true _ _).mpr ⟨beq_iff_eq.mpr idle, decide_eq_true le⟩
    exact (if_neg (by rw [show isConf s.begin b = true from conf]; decide)).trans ((if_pos rfl).trans (if_pos may))
  · refine answers_stall on rfl ?_
    by_cases conf : isConf s b = true
    · refine (if_neg (by rw [show isConf s.begin b = true from conf]; decide)).trans ?_
      rcases which with no | ⟨rfl, busy⟩ | ⟨other, far⟩
      · exact absurd (conf.symm.trans no) Bool.noConfusion
      · refine (if_pos rfl).trans (if_neg fun both => ?_)
        obtain ⟨idle, le⟩ := (Bool.and_eq_true _ _).mp both
        exact busy.elim (fun ne => ne (beq_iff_eq.mp idle)) fun lt => Nat.not_le.mpr lt (of_decide_eq_true le)
      · have ne : ¬ (i.toNat == 1) = true := fun one => other (BitVec.eq_of_toNat_eq (beq_iff_eq.mp one))
        refine (if_neg ne).trans (if_neg fun both => ?_)
        obtain ⟨le, zero⟩ := (Bool.and_eq_true _ _).mp both
        exact far.elim (fun lt => Nat.not_le.mpr lt (of_decide_eq_true le)) fun some' => some' (BitVec.eq_of_toNat_eq (beq_iff_eq.mp zero))
    · exact if_pos (by simpa [isConf_begin] using conf)
  · simp only [List.mem_cons, List.not_mem_nil, or_false] at mem
    rcases mem with rfl | rfl
    · exact answers_stall on rfl rfl
    · exact answers_stall on rfl rfl
  · have shape : ¬ (len.toNat % 4 != 0 || decide (len.toNat < 8) || decide (len.toNat > 512)) = true := by
      simp only [Bool.or_eq_true, bne_iff_ne, decide_eq_true_eq]
      omega
    cases fin
    · refine answers_of_run (run := congrArg (ran s) (vendorRead_cut conf shape reads)) fun t _ e => ?_
      rw [e.us, usLast_us]
      exact ⟨rfl, rfl, rfl, (nomatch ·)⟩
    · refine answers_of_run (run := congrArg (ran s) (vendorRead_answers conf shape reads)) fun t _ e => ?_
      have done' : usOf t b = { usOf (usLast b 1 r.1.cause r.1.index true r.2) b with
          ctrlXfer := sinc (usOf (usLast b 1 r.1.cause r.1.index true r.2) b).ctrlXfer } := e.us.trans updUs_us
      rw [done', e.out]
      refine ⟨?_, ?_, ?_, fun _ => ⟨_, List.mem_append_right _ List.mem_cons_self, rfl⟩⟩
      all_goals rw [usLast_us]; rfl
  · have shape : (len.toNat % 4 != 0 || decide (len.toNat < 8) || decide (len.toNat > 512)) = true := by
      simp only [Bool.or_eq_true, bne_iff_ne, decide_eq_true_eq]
      omega
    exact answers_usShape ((if_neg (not_conf_false conf)).trans (if_pos shape))
  · refine answers_of_run (run := congrArg (ran s) ((vendorWrite_taken conf ⟨some', few⟩ on').trans (if_neg (by decide)))) fun t _ e => ?_
    rw [← writes] at e
    have done' : usOf (usDone b (usLast b 2 r.1.cause r.1.index true r.2)) b = { usOf (usLast b 2 r.1.cause r.1.index true r.2) b with
        ctrlXfer := sinc (usOf (usLast b 2 r.1.cause r.1.index true r.2) b).ctrlXfer } := updUs_us
    rw [show usOf t b = _ from e.us.trans done', e.out, usLast_us]
    exact ⟨rfl, rfl, rfl, List.mem_append_right _ List.mem_cons_self⟩
  · refine answers_of_run (run := congrArg (ran s) ((vendorWrite_taken conf ⟨some', few⟩ on').trans (if_pos rfl))) fun t _ e => ?_
    have cut : usOf t b = { lastUs 2 0x14 0 false (usOf s b) with cut := sinc (usOf s b).cut } := by
      refine e.us.trans (updUs_us.trans ?_)
      rw [← usOf, usLast_us]
      rfl
    rw [cut]
    exact ⟨e.agreeOff_begin (by decide) (updUs_touch (by decide) (updUs_touch (by decide) .refl)), e.out, rfl, rfl⟩
  · have shape : (odd.val != 0 || ws.isEmpty || decide (ws.length > 128)) = true := by
      simp only [Bool.or_eq_true, bne_iff_ne, decide_eq_true_eq, List.isEmpty_iff]
      rcases bad with odd' | none' | many
      · exact .inl (.inl fun zero => odd' (Fin.ext zero))
      · exact .inl (.inr none')
      · exact .inr many
    exact answers_usShape ((if_neg (not_conf_false conf)).trans (if_pos shape))
  · have answers : vendorLast b 3 0 4 s.begin = usDone b (s.begin.emit (.reply (leBytes 4 (usLastWord (usOf s b)).toNat))) :=
      (if_neg (not_conf_false conf)).trans (if_pos rfl)
    refine answers_of_run (run := congrArg (ran s) answers) fun t _ e => ⟨?_, e.out, ?_⟩
    · exact e.agreeOff_begin (by decide) (updUs_touch (by decide) (State.emit_touch (by decide) .refl))
    · have counted : usOf (usDone b (s.begin.emit (.reply (leBytes 4 (usLastWord (usOf s b)).toNat)))) b = _ := updUs_us
      rw [e.us, counted]
      rfl

end Sys2Proof.Machine

/-! Device Firmware Upgrade: its requests, its flash operations and manifestation (R435, R438 to R442). -/
namespace Sys2Proof.Machine
set_option Elab.async false

section
variable {s t u : State} {b f : BId} {status ver n : Nat} {rdErr : Bool} {data : List Byte} {gs : List Nat} {fs : List Piece}

/-! ### The download's block -/

theorem EndsAs.dfu (e : EndsAs u t) : dfuOf t b = dfuOf u b := congrArg Us.dfu e.us

theorem updDfu_us {g : Dfu → Dfu} : usOf (updDfu b g s) b = { usOf s b with dfu := g (usOf s b).dfu } := updUs_us

theorem updDfu_dfu {g : Dfu → Dfu} : dfuOf (updDfu b g s) b = g (dfuOf s b) := congrArg Us.dfu updDfu_us

theorem updDfu_within {g : Dfu → Dfu} : Within b s (updDfu b g s) := updUs_within

/-- A download that has ended without passing, and the count of such (R441). -/
theorem dfuEnd_dfu : dfuOf (dfuEnd b status ver s) b = endedDfu status (dfuOf s b)
    ∧ (usOf (dfuEnd b status ver s) b).dfuFail = sinc (usOf s b).dfuFail := by
  obtain ⟨q, seq, drop, loss, same⟩ := dfuEnd_us (s := s) (b := b) (status := status) (ver := ver)
  rw [dfuOf, same]
  exact ⟨rfl, rfl⟩

theorem dfuEnd_touch' : Touch [.out, .freeCtr, .rp, .log, .dk, .us] s (dfuEnd b status ver s) := dfuEnd_touch sub_self .refl

theorem Touch.dfu (k : Touch fs s t) (us : .us ∉ fs := by decide) : dfuOf t b = dfuOf s b := by
  rw [dfuOf, usOf, k.at_us us, dfuOf, usOf]

/-! ### Requests (R435, R438, R439) -/

/-- The interface answers requests with DFU_EN 1. -/
structure DfuOn (s : State) (b : BId) : Prop where
  conf : isConf s b = true
  on : bitAt (usOf s b).cfg 1 = true

theorem dfuDnload_first (on : DfuOn s b) (idle : (dfuOf s b).st = .idle) (some' : data ≠ []) (few : data.length ≤ 4096)
    (refused : refuseOf s b rdErr ≠ 0) : dfuDnload b n data rdErr s =
      (dfuEnd b 1 0 (updDfu b (fun _ => { refuse := refuseOf s b rdErr, op := (dfuOf s b).op }) s)).emit .stall := by
  unfold dfuDnload
  rw [if_neg (by simp [on.conf]), idle]
  dsimp only
  rw [if_neg (by simp [some', few])]
  exact if_pos (bne_iff_ne.mpr refused)

section
variable (on : DfuOn s b) (idle : (dfuOf s b).st = .dnloadIdle)
include on idle

theorem dfuDnload_ends : dfuDnload b n [] rdErr s = (updDfu b (fun d => { d with st := .manifestSync }) s).emit .ack := by
  unfold dfuDnload
  rw [if_neg (by simp [on.conf]), idle]
  dsimp only
  rw [if_neg (by simp [on.on])]
  rfl

theorem dfuDnload_block (some' : data ≠ []) (few : data.length ≤ 4096) : dfuDnload b n data rdErr s = dfuBlock b n data s := by
  unfold dfuDnload
  rw [if_neg (by simp [on.conf]), idle]
  dsimp only
  rw [if_neg (by simp [on.on]), if_neg (Nat.not_lt.mpr few), if_neg (by simpa using some')]

end

theorem dfuBlock_apart (apart : n ≠ (dfuOf s b).block) : dfuBlock b n data s = (dfuEnd b 0x0F 0 s).emit .stall := if_pos (bne_iff_ne.mpr apart)

theorem dfuBlock_taken (next : n = (dfuOf s b).block) (fits : (dfuOf s b).len + data.length ≤ targetSize ((usOf s b).alt % 11))
    (alloc : allocMany b 6 true ((data.length + 255) / 256) s = (some gs, u)) : dfuBlock b n data s = dfuTake b data gs u := by
  unfold dfuBlock
  extract_lets d
  rw [if_neg (by simp [d, next]), if_neg (Nat.not_lt.mpr fits), alloc]

/-- What the flash operations of a download leave of its block: the state of the interface, and the bytes received. -/
structure DfuKept (b : BId) (s t : State) : Prop where
  touch : Touch [.dk, .us] s t
  st : (dfuOf t b).st = (dfuOf s b).st
  block : (dfuOf t b).block = (dfuOf s b).block
  len : (dfuOf t b).len = (dfuOf s b).len
  held : (dfuOf t b).held = (dfuOf s b).held

theorem DfuKept.refl : DfuKept b s s := ⟨.refl, rfl, rfl, rfl, rfl⟩

theorem DfuKept.trans (k : DfuKept b s t) (l : DfuKept b t u) : DfuKept b s u :=
  ⟨k.touch.trans l.touch, l.st.trans k.st, l.block.trans k.block, l.len.trans k.len, l.held.trans k.held⟩

theorem DfuKept.updDfu {g : Dfu → Dfu} (keeps : ∀ d, (g d).st = d.st ∧ (g d).block = d.block ∧ (g d).len = d.len ∧ (g d).held = d.held) :
    DfuKept b s (updDfu b g s) := by
  obtain ⟨st, block, len, held⟩ := keeps (dfuOf s b)
  exact ⟨updDfu_touch (by decide) .refl, by rw [updDfu_dfu, st], by rw [updDfu_dfu, block], by rw [updDfu_dfu, len], by rw [updDfu_dfu, held]⟩

/-- Where the target's flash can be reached, the pump ends no download. -/
theorem dfuPump_kept (there : flashThere s (altFlash (usOf s b).alt) = true) : DfuKept b s (dfuPump b s) := by
  unfold dfuPump
  extract_lets u d base f n
  split
  · exact .refl
  split
  next away => exact absurd there (by simpa using away)
  split
  · exact .refl
  split
  · exact .updDfu fun _ => ⟨rfl, rfl, rfl, rfl⟩
  split
  · exact .refl
  · exact .updDfu fun _ => ⟨rfl, rfl, rfl, rfl⟩

theorem dfuBlockDone_kept : DfuKept b s (dfuBlockDone b s) := by
  unfold dfuBlockDone
  extract_lets d
  split
  · have freed : DfuKept b s (updDfu b (fun d => { d with bufs := [] }) s) := .updDfu fun _ => ⟨rfl, rfl, rfl, rfl⟩
    have released : Touch [.dk] _ (releaseAll d.bufs (updDfu b (fun d => { d with bufs := [] }) s)) := releaseAll_touch sub_self .refl
    exact freed.trans ⟨released.mono (by decide), by rw [released.dfu], by rw [released.dfu], by rw [released.dfu], by rw [released.dfu]⟩
  · exact .refl

theorem Touch.flashThere_eq (k : Touch fs s t) (sy : .sy ∉ fs := by decide) (dev : .dev ∉ fs := by decide) : flashThere t f = flashThere s f := by
  rw [flashThere, flashThere, reachable, reachable, inRing, inRing, k.at_sy sy, k.at_dev dev]

/-- The download's block with a block's bytes (R439). -/
def takenDfu (data : List Byte) (gs : List Nat) (d : Dfu) : Dfu :=
  { d with active := true, st := .dnloadSync, block := (d.block + 1) % 65536, len := d.len + data.length
           held := d.held ++ data.take (256 - d.held.length), staged := d.staged ++ data.drop (256 - d.held.length)
           bufs := d.bufs ++ gs, eraseBlk := false }

theorem dfuTake_eq : dfuTake b data gs s = (dfuBlockDone b (dfuPump b (updDfu b (takenDfu data gs) s))).emit .ack := by
  have same : updDfu b (takenDfu data gs) s = updDfu b (fun d => { d with
      active := true, st := .dnloadSync, block := (d.block + 1) % 65536, len := d.len + data.length
      held := d.held ++ data.take (256 - (dfuOf s b).held.length), staged := d.staged ++ data.drop (256 - (dfuOf s b).held.length)
      bufs := d.bufs ++ gs, eraseBlk := false }) s := rfl
  rw [same]
  rfl

/-- A block taken into a download whose target's flash can be reached. -/
theorem dfuTake_kept (there : flashThere s (altFlash (usOf s b).alt) = true) :
    DfuKept b (updDfu b (takenDfu data gs) s) (dfuBlockDone b (dfuPump b (updDfu b (takenDfu data gs) s))) := by
  have taken : Touch [.us] s (updDfu b (takenDfu data gs) s) := updDfu_touch sub_self .refl
  refine (dfuPump_kept ?_).trans dfuBlockDone_kept
  rw [taken.flashThere_eq, updDfu_us]
  exact there

section
variable (on : DfuOn s b)
include on

theorem dfuUpload_first {len : Nat} (idle : (dfuOf s b).st = .idle) (there : flashThere s (altFlash (usOf s b).alt) = true)
    (size : n = min (min len 4096) (targetSize ((usOf s b).alt % 11))) : dfuUpload b len false s =
      (updDfu b (fun d => { d with st := if n < min len 4096 then .idle else .uploadIdle, upPos := n }) s).emit
        (.reply (flashAt s (altFlash (usOf s b).alt) (targetOff ((usOf s b).alt % 11)) n)) := by
  have first : (usOf s b).dfu.st = .idle := idle
  subst size
  unfold dfuUpload
  extract_lets u t pos n
  have zero : pos = 0 := by simp only [pos, u, first]; rfl
  rw [if_neg (by simp [on.conf]), if_neg (by simp [u, on.on]), if_neg (by simp [u, first]), if_neg (by simp [u, there])]
  simp only [n, zero, Nat.sub_zero, Nat.zero_add, Nat.add_zero]
  rfl

theorem dfuGetStatus_eq : dfuGetStatus b s = (updDfu b (fun d => { d with st := dfuAfterStatus (dfuOf s b) }) s).emit
    (.reply (BitVec.ofNat 8 (dfuOf s b).status :: leBytes 3 (dfuPollMs (usOf s b) (dfuAfterStatus (dfuOf s b)))
      ++ [BitVec.ofNat 8 (dfuCode (dfuAfterStatus (dfuOf s b))), 0])) := by
  unfold dfuGetStatus
  extract_lets u st
  rw [if_neg (by simp [on.conf]), if_neg (by simp [u, on.on])]
  rfl

theorem dfuClrStatus_error (error : (dfuOf s b).st = .error) :
    dfuClrStatus b s = (updDfu b (fun d => { d with st := .idle, status := 0 }) s).emit .ack := by
  unfold dfuClrStatus
  rw [if_neg (by simp [on.conf]), if_neg (by simp [on.on]), if_pos (by rw [error]; rfl)]

theorem dfuAbort_error (error : (dfuOf s b).st = .error) : dfuAbort b s = s.emit .stall := by
  unfold dfuAbort
  rw [if_neg (by simp [on.conf]), if_neg (by simp [on.on]), if_pos (by rw [error]; rfl)]

theorem dfuGetState_eq : dfuGetState b s = s.emit (.reply [BitVec.ofNat 8 (dfuCode (dfuOf s b).st)]) := by
  unfold dfuGetState
  rw [if_neg (by simp [on.conf]), on.on]
  rfl

theorem dfuAbort_cuts (active : (dfuOf s b).active = true) (st : (dfuOf s b).st ≠ .error) (early : (dfuOf s b).st ≠ .manifestSync) :
    dfuAbort b s = (dfuEnd b 0 0 s).emit .ack := by
  have cuts : dfuCut b 0 s = dfuEnd b 0 0 s := by
    unfold dfuCut
    extract_lets d
    rw [if_neg (show ¬ (d.st == .manifestSync) = true from fun same => early (beq_iff_eq.mp same)), if_pos (show d.active = true from active)]
  unfold dfuAbort
  rw [if_neg (by simp [on.conf]), if_neg (by simp [on.on]), if_neg (by simpa using st), cuts]

end

/-! ### Flash operations (R439, R441) -/

/-- A download without its flash operation. -/
def opDone (b : BId) (s : State) : State := updDfu b (fun d => { d with op := none }) s

theorem opDone_touch : Touch [.us] s (opDone b s) := updDfu_touch sub_self .refl

theorem opDone_dfu : dfuOf (opDone b s) b = { dfuOf s b with op := none } := updDfu_dfu

/-- A berth's flash with a sector erased, and with bytes programmed. -/
def erasedAt (off : Nat) (x : Berth) : Berth := { x with flash := flashErase off 0x10000 x.flash }
def programmedAt (off : Nat) (bs : List Byte) (x : Berth) : Berth := { x with flash := flashProgram off bs x.flash }

/-- What follows an operation that completes, and one that does not. -/
def opPassed (b : BId) (g : State → State) (s : State) : State :=
  if !(dfuOf s b).active then logPump b s else flashFree false b (g s)
def opFailed (b : BId) (status : Nat) (s : State) : State :=
  if !(dfuOf s b).active then logPump b s else logPump b (dfuEnd b status 0 s)

theorem opPassed_flash {g : State → State} (k : Touch [.us] s (g s)) : ((opPassed b g s).at f).flash = (s.at f).flash := by
  have free : Touch _ (g s) (flashFree false b (g s)) := flashFree_touch sub_self .refl
  unfold opPassed
  split
  · exact (logPump_touch sub_self .refl).at_flash (by decide) f
  · rw [free.at_flash (by decide), k.at_flash (by decide)]

theorem opFailed_dfu (active : (dfuOf s b).active = true) : dfuOf (opFailed b status s) b = endedDfu status (dfuOf s b) := by
  have pumped : Touch [.log] (dfuEnd b status 0 s) (logPump b (dfuEnd b status 0 s)) := logPump_touch sub_self .refl
  unfold opFailed
  rw [if_neg (by rw [active]; decide), pumped.dfu]
  exact dfuEnd_dfu.1

section
variable {off : Nat} {bs : List Byte} (awake : s.dev.sleep = false)
include awake

section
variable (op : (dfuOf s b).op = some (.erase f off))
include op

theorem dfuEraseDone_passed : dfuEraseDone b true s =
    opPassed b (updDfu b fun d => { d with erasedTo := d.erasedTo + 0x10000 }) ((opDone b s).upd f (erasedAt off)) := by
  unfold dfuEraseDone
  rw [if_neg (by simp [awake]), op]
  rfl

theorem dfuEraseDone_failed : dfuEraseDone b false s = opFailed b 4 (tornErase f off (opDone b s)) := by
  unfold dfuEraseDone
  rw [if_neg (by simp [awake]), op]
  simp only [Bool.false_eq_true, if_false, Bool.not_false, if_true, opFailed, opDone]
  exact if_congr Iff.rfl rfl rfl

end

section
variable (op : (dfuOf s b).op = some (.program f off bs))
include op

theorem dfuProgramDone_passed : dfuProgramDone b true s = opPassed b id ((opDone b s).upd f (programmedAt off bs)) := by
  unfold dfuProgramDone
  rw [if_neg (by simp [awake]), op]
  rfl

theorem dfuProgramDone_failed : dfuProgramDone b false s = opFailed b 6 (tornProgram f off bs (opDone b s)) := by
  unfold dfuProgramDone
  rw [if_neg (by simp [awake]), op]
  simp only [Bool.false_eq_true, if_false, Bool.not_false, if_true, opFailed, opDone]
  exact if_congr Iff.rfl rfl rfl

end

end

/-! ### Manifestation (R440) -/

section
variable {base : Nat} (manifest : (dfuOf s b).st = .manifestSync) (op : (dfuOf s b).op = none) (awake : s.dev.sleep = false)
  (flash : f = altFlash (usOf s b).alt) (there : flashThere s f = true) (place : base = targetOff ((usOf s b).alt % 11))
include manifest op awake flash there place

theorem manifestation_torn : manifestationDone b false false rdErr s =
    dfuEnd b 6 (natAt (dfuOf s b).held 0x0C 4) (tornProgram f base (dfuOf s b).held s) := by
  subst flash place
  unfold manifestationDone
  extract_lets u f' t base ver s1 c s2
  rw [if_neg (by simp [u, show (usOf s b).dfu.st = .manifestSync from manifest, show (usOf s b).dfu.op = none from op, awake]),
    if_neg (by simp [f', u, there])]
  rfl

theorem manifestation_differs : manifestationDone b true false rdErr s =
    dfuEnd b 7 (natAt (dfuOf s b).held 0x0C 4) (s.upd f (programmedAt base (dfuOf s b).held)) := by
  subst flash place
  unfold manifestationDone
  extract_lets u f' t base ver s1 c s2
  rw [if_neg (by simp [u, show (usOf s b).dfu.st = .manifestSync from manifest, show (usOf s b).dfu.op = none from op, awake]),
    if_neg (by simp [f', u, there])]
  rfl

theorem manifestation_checked {c : Nat} (check : downloadCheck (s.upd f (programmedAt base (dfuOf s b).held)) b f ((usOf s b).alt % 11) rdErr = c) :
    manifestationDone b true true rdErr s =
      if c == 0 then dfuPass b (natAt (dfuOf s b).held 0x0C 4) (s.upd f (programmedAt base (dfuOf s b).held))
      else dfuEnd b 2 (natAt (dfuOf s b).held 0x0C 4)
        (updDfu b (fun d => { d with check := c }) ((s.upd f (programmedAt base (dfuOf s b).held)).upd f (erasedAt base))) := by
  subst flash place check
  unfold manifestationDone
  extract_lets u f' t base ver s1 c s2
  rw [if_neg (by simp [u, show (usOf s b).dfu.st = .manifestSync from manifest, show (usOf s b).dfu.op = none from op, awake]),
    if_neg (by simp [f', u, there])]
  rfl

end

/-- A download that has passed its check (R440). -/
theorem dfuPass_us : (dfuOf (dfuPass b ver s) b).st = .idle ∧ (dfuOf (dfuPass b ver s) b).status = 0
    ∧ (usOf (dfuPass b ver s) b).dfuDone = sinc (usOf s b).dfuDone := by
  unfold dfuPass
  extract_lets s1
  obtain ⟨q, seq, drop, loss, same⟩ := logDfu_telKept (b := b) (ver := ver) (TelKept.refl (s := s1)) b
  have passed : (s1.at b).us = { usOf s b with
      dfuDone := sinc (usOf s b).dfuDone, dfu := { (usOf s b).dfu with st := .idle, status := 0, active := false, held := [] } } := updUs_us
  rw [dfuOf, usOf, same, passed]
  exact ⟨rfl, rfl, rfl⟩

theorem dfuPass_touch' : Touch [.out, .freeCtr, .rp, .log, .dk, .us] s (dfuPass b ver s) :=
  logDfu_touch sub_self (updUs_touch (by decide) .refl)

theorem upd_flash_us {g : Berth → Berth} (us : ∀ x, (g x).us = x.us) : usOf (s.upd f g) b = usOf s b := by
  rw [usOf, State.upd_at]
  split
  · exact us _
  · rfl

end

/-- Settles O51: each DFU request, flash operation and manifestation by what it leaves of the download's block and of the flash. -/
theorem firmwareUpgrade : Obligations.FirmwareUpgrade := by
  unfold Obligations.FirmwareUpgrade
  intro s b
  refine ⟨fun ⟨conf, on⟩ => ⟨fun num rdErr data ⟨idle, some', few, refused⟩ => ?_, fun rdErr idle => ?_, fun num rdErr data ⟨idle, some', few, apart⟩ => ?_,
    fun num rdErr data gs u ⟨idle, active, some', few, next, fits, there, alloc⟩ => ?_, fun len n ⟨idle, there, size⟩ => ?_, fun st after => ?_,
    fun error => ⟨?_, ?_⟩, ?_, fun ⟨active, st⟩ => ?_⟩, fun conf => ?_, fun f off ⟨op, awake⟩ => ⟨?_, fun active => ?_⟩,
    fun f off bs ⟨op, awake⟩ => ⟨?_, fun active => ?_⟩,
    fun f base ⟨manifest, op, awake, flash, there, place⟩ => ⟨fun rdErr => ?_, fun rdErr => ?_, fun rdErr u is => ?_⟩⟩
  · have dfuOn : DfuOn s.begin b := ⟨conf, on⟩
    refine answers_of_run (run := congrArg (ran s) (dfuDnload_first dfuOn idle some' few refused)) fun t _ e => ?_
    obtain ⟨dfu, fail⟩ := dfuEnd_dfu (b := b) (status := 1) (ver := 0)
      (s := updDfu b (fun _ => { refuse := refuseOf s.begin b rdErr, op := (dfuOf s.begin b).op }) s.begin)
    rw [updDfu_dfu] at dfu
    rw [updDfu_us] at fail
    have kept : Touch [.out, .freeCtr, .rp, .log, .dk, .us] s.begin (dfuEnd b 1 0
      (updDfu b (fun _ => { refuse := refuseOf s.begin b rdErr, op := (dfuOf s.begin b).op }) s.begin)) :=
      dfuEnd_touch sub_self (updDfu_touch (by decide) .refl)
    refine ⟨?_, ?_, ?_, ?_, ?_, fun f => ?_⟩
    · rw [e.out]
      exact List.mem_append_right _ List.mem_cons_self
    · rw [e.dfu]
      exact congrArg Dfu.st dfu
    · rw [e.dfu]
      exact congrArg Dfu.status dfu
    · rw [e.dfu]
      exact congrArg Dfu.refuse dfu
    · rw [e.us]
      exact fail
    · rw [e.at_eq]
      exact kept.at_flash (by decide) f
  · refine answers_of_run (run := congrArg (ran s) (dfuDnload_ends (s := s.begin) (n := 0) ⟨conf, on⟩ idle)) fun t pending e =>
      ⟨e.keeps pending (.ofBegin (updDfu_within.trans .emit)), e.out, ?_⟩
    have ended : dfuOf (updDfu b (fun d => { d with st := .manifestSync }) s.begin) b = { dfuOf s b with st := .manifestSync } := updDfu_dfu
    exact e.dfu.trans ended
  · refine answers_of_run (run := congrArg (ran s)
      ((dfuDnload_block (s := s.begin) ⟨conf, on⟩ idle some' few).trans (dfuBlock_apart apart))) fun t _ e => ?_
    have ended : dfuOf t b = endedDfu 0x0F (dfuOf s b) := e.dfu.trans dfuEnd_dfu.1
    rw [e.out, ended]
    exact ⟨List.mem_append_right _ List.mem_cons_self, rfl, rfl, rfl⟩
  · have taken : Touch [.freeCtr, .dk] s.begin u := allocMany_touch_eq sub_self alloc .refl
    have us : usOf u b = usOf s b := taken.at_us (by decide) b
    have kept := dfuTake_kept (s := u) (b := b) (data := data) (gs := gs) (by rw [taken.flashThere_eq, us]; exact there)
    have run : dfuDnload b num.toNat data rdErr s.begin = _ := ((dfuDnload_block (s := s.begin) ⟨conf, on⟩ idle some' few).trans
      (dfuBlock_taken next fits alloc)).trans dfuTake_eq
    have block : dfuOf (updDfu b (takenDfu data gs) u) b = takenDfu data gs (dfuOf s b) := updDfu_dfu.trans (by rw [dfuOf, us, ← dfuOf])
    have changed : Touch [.us] u (updDfu b (takenDfu data gs) u) := updDfu_touch sub_self .refl
    refine answers_of_run (run := congrArg (ran s) run) fun t _ e => ?_
    have dfu : dfuOf t b = dfuOf (dfuBlockDone b (dfuPump b (updDfu b (takenDfu data gs) u))) b := e.dfu
    rw [dfu, kept.st, kept.block, kept.len, kept.held, block]
    refine ⟨?_, rfl, rfl, rfl, rfl, fun f => ?_⟩
    · have silent : (dfuBlockDone b (dfuPump b (updDfu b (takenDfu data gs) u))).out = [] := by
        rw [kept.touch.at_out (by decide), changed.at_out (by decide), taken.at_out (by decide)]
        rfl
      exact e.out.trans (congrArg (fun l => l ++ [Output.ack]) silent)
    · rw [e.at_eq, State.emit_at, kept.touch.at_flash (by decide), changed.at_flash (by decide), taken.at_flash (by decide)]
      rfl
  · refine answers_of_run (run := congrArg (ran s) (dfuUpload_first (s := s.begin) ⟨conf, on⟩ idle there size)) fun t pending e =>
      ⟨e.keeps pending (.ofBegin (updDfu_within.trans .emit)), e.out, ?_⟩
    have read : dfuOf (updDfu b (fun d => { d with st := if n < min len.toNat 4096 then .idle else .uploadIdle, upPos := n }) s.begin) b = _ := updDfu_dfu
    rw [show dfuOf t b = _ from e.dfu.trans read]
    exact ⟨rfl, rfl⟩
  · subst after
    refine answers_of_run (run := congrArg (ran s) (dfuGetStatus_eq (s := s.begin) ⟨conf, on⟩)) fun t pending e =>
      ⟨e.keeps pending (.ofBegin (updDfu_within.trans .emit)), ?_, e.out⟩
    have moved : dfuOf (updDfu b (fun d => { d with st := dfuAfterStatus (dfuOf s b) }) s.begin) b = { dfuOf s b with st := dfuAfterStatus (dfuOf s b) } := updDfu_dfu
    exact e.dfu.trans moved
  · refine answers_of_run (run := congrArg (ran s) (dfuClrStatus_error (s := s.begin) ⟨conf, on⟩ error)) fun t pending e =>
      ⟨e.keeps pending (.ofBegin (updDfu_within.trans .emit)), e.out, ?_⟩
    have cleared : dfuOf (updDfu b (fun d => { d with st := .idle, status := 0 }) s.begin) b = { dfuOf s b with st := .idle, status := 0 } := updDfu_dfu
    exact e.dfu.trans cleared
  · exact answers_of_run (run := congrArg (ran s) (dfuAbort_error (s := s.begin) ⟨conf, on⟩ error)) fun t _ e =>
      ⟨e.agreeOff_begin (by decide) (State.emit_touch (by decide) .refl), e.out⟩
  · exact answers_of_run (run := congrArg (ran s) (dfuGetState_eq (s := s.begin) ⟨conf, on⟩)) fun t _ e =>
      ⟨e.agreeOff_begin (by decide) (State.emit_touch (by decide) .refl), e.out⟩
  · have early : (dfuOf s b).st ≠ .error ∧ (dfuOf s b).st ≠ .manifestSync := by
      rcases st with is | is | is
      all_goals rw [is]; decide
    refine answers_of_run (run := congrArg (ran s) (dfuAbort_cuts (s := s.begin) ⟨conf, on⟩ active early.1 early.2)) fun t _ e => ?_
    have ended : dfuOf t b = endedDfu 0 (dfuOf s b) := e.dfu.trans dfuEnd_dfu.1
    rw [e.out, ended, e.us]
    exact ⟨List.mem_append_right _ List.mem_cons_self, rfl, rfl, rfl, (dfuEnd_dfu (s := s.begin)).2⟩
  · have stalls : (if isConf s.begin b then s.begin.emit .stall else s.begin) = s.begin.emit .stall := if_pos conf
    exact answers_of_run (run := congrArg (ran s) stalls) fun t _ e =>
      ⟨e.agreeOff_begin (by decide) (State.emit_touch (by decide) .refl), e.out⟩
  · refine answers_of_run (run := congrArg (ran s) (dfuEraseDone_passed (s := s.begin) awake op)) fun t _ e => ?_
    rw [e.at_eq, opPassed_flash (updDfu_touch sub_self .refl), State.upd_at, if_pos rfl, erasedAt, opDone_touch.at_flash (by decide)]
    rfl
  · refine answers_of_run (run := congrArg (ran s) (dfuEraseDone_failed (s := s.begin) awake op)) fun t _ e => ?_
    have torn : dfuOf (tornErase f off (opDone b s.begin)) b = { dfuOf s b with op := none } :=
      ((tornErase_touch sub_self .refl : Touch [.freeCtr, .flash] _ _).dfu).trans opDone_dfu
    rw [e.dfu, opFailed_dfu (by rw [torn]; exact active)]
    exact ⟨rfl, rfl, rfl⟩
  · refine answers_of_run (run := congrArg (ran s) (dfuProgramDone_passed (s := s.begin) awake op)) fun t _ e => ?_
    rw [e.at_eq, opPassed_flash .refl, State.upd_at, if_pos rfl, programmedAt, opDone_touch.at_flash (by decide)]
    rfl
  · refine answers_of_run (run := congrArg (ran s) (dfuProgramDone_failed (s := s.begin) awake op)) fun t _ e => ?_
    have torn : dfuOf (tornProgram f off bs (opDone b s.begin)) b = { dfuOf s b with op := none } :=
      ((tornProgram_touch sub_self .refl : Touch [.freeCtr, .flash] _ _).dfu).trans opDone_dfu
    rw [e.dfu, opFailed_dfu (by rw [torn]; exact active)]
    exact ⟨rfl, rfl, rfl⟩
  · refine answers_of_run (run := congrArg (ran s) (manifestation_torn (s := s.begin) manifest op awake flash there place)) fun t _ e => ?_
    rw [e.dfu, dfuEnd_dfu.1]
    exact ⟨rfl, rfl⟩
  · refine answers_of_run (run := congrArg (ran s) (manifestation_differs (s := s.begin) manifest op awake flash there place)) fun t _ e => ?_
    rw [e.dfu, dfuEnd_dfu.1, e.at_eq, dfuEnd_touch'.at_flash (by decide), State.upd_at, if_pos rfl]
    exact ⟨rfl, rfl, rfl⟩
  · have same : s.begin.upd f (programmedAt base (dfuOf s b).held) = u.begin := by rw [is]; rfl
    have check : downloadCheck (s.begin.upd f (programmedAt base (dfuOf s.begin b).held)) b f ((usOf s.begin b).alt % 11) rdErr =
        downloadCheck u b f ((usOf s b).alt % 11) rdErr := (congrArg (fun v : State => downloadCheck v b f ((usOf s b).alt % 11) rdErr) same).trans rfl
    have run := manifestation_checked (s := s.begin) manifest op awake flash there place check
    have us : usOf u b = usOf s b := by
      rw [is]
      exact upd_flash_us fun _ => rfl
    refine answers_of_run (run := congrArg (ran s) run) fun t _ e => ⟨fun zero => ?_, fun bad => ?_⟩
    · rw [show dfuOf s.begin b = dfuOf s b from rfl, same, zero, if_pos (beq_self_eq_true (0 : Nat))] at e
      obtain ⟨st, status, passed⟩ := dfuPass_us (s := u.begin) (b := b) (ver := natAt (dfuOf s b).held 0x0C 4)
      refine ⟨by rw [e.dfu, st], by rw [e.dfu, status], ?_, ?_⟩
      · rw [e.us, passed, ← us]
        rfl
      · rw [e.at_eq, dfuPass_touch'.at_flash (by decide)]
        rfl
    · rw [show dfuOf s.begin b = dfuOf s b from rfl, same, if_neg (by simpa using bad)] at e
      rw [e.dfu, dfuEnd_dfu.1, updDfu_dfu, e.at_eq, dfuEnd_touch'.at_flash (by decide)]
      refine ⟨rfl, rfl, rfl, ?_⟩
      have checked : Touch [.us] (u.begin.upd f (erasedAt base)) (updDfu b (fun d => { d with check := downloadCheck u b f ((usOf s b).alt % 11) rdErr })
        (u.begin.upd f (erasedAt base))) := updDfu_touch sub_self .refl
      rw [checked.at_flash (by decide), State.upd_at, if_pos rfl]
      rfl

end Sys2Proof.Machine

/-! The un-retire orders and soundings (R457 to R468) where two berths hold the harbour role: an order is kept at the first of them. -/
namespace Sys2Proof.Machine
set_option Elab.async false

/-- Refutes O53: an un-retire order without its guard, refused as such, leaves its kind and result at the first berth that holds the
role, so of two such berths the second keeps the order it had. -/
theorem not_unretiresAndSoundings : ¬ Obligations.UnretiresAndSoundings := by
  unfold Obligations.UnretiresAndSoundings
  rintro ⟨all, -⟩
  obtain ⟨-, orders, -⟩ := all twoHarbours 4 rfl
  have pass : WritePasses twoHarbours 9 none 0xF044 := by decide
  have refused : 2 = unretRefuse twoHarbours 4 0 1 0 9 0 := by decide
  obtain ⟨refuse, -⟩ := orders 9 0 0 (.unretireRingPort 9 0 0) 1 0 2 ⟨pass, rfl, .head _, rfl, refused⟩
  obtain ⟨t, run, -, ordered⟩ := refuse (by decide)
  have run' : exec (.unretireRingPort 9 0 0) twoHarbours = ran twoHarbours (hostDid 9 (unretire 1 9 0 0 twoHarbours.begin)) :=
    congrArg (ran twoHarbours) (viaBus_of_writePasses pass)
  have kept : ((hostDid 9 (unretire 1 9 0 0 twoHarbours.begin)).at 4).tray.hl.kind = 0 :=
    congrArg (·.hl.kind) ((hostDid_touch sub_self .refl).at_tray (by decide) 4)
  cases run.symm.trans run'
  have kind : 0 = 1 := kept.symm.trans (congrArg TrayHl.kind ordered)
  exact absurd kind (by decide)

end Sys2Proof.Machine

/-! What acts in the background of a REF cycle, and all that it does in passing, puts no command on the queue. -/
namespace Sys2Proof.Machine
set_option Elab.async false

section
variable {s t : State} {b h home src x a : BId} {dst : Option BId} {req : ReqId} {e k g n i c code acc status cls res first cause role cmd : Nat}

theorem iter_pending {α : Type} {xs : List α} {f : α → State → State} (step : ∀ x t, (f x t).pending = t.pending) :
    (iter xs f s).pending = s.pending :=
  iter_induction (P := fun t => t.pending = s.pending) rfl fun x t same => (step x t).trans same

theorem pending_of_eq {α : Type} {a : α} {r : α × State} (eq : r = (a, t)) : t.pending = r.2.pending :=
  congrArg (·.2.pending) eq.symm

/-! ### The hawser orders of the run-time engine and the deck buffers -/

@[simp] theorem issue_pending {o : Order} : (issue b o s).2.pending = s.pending := by
  unfold issue
  split <;> simp

@[simp] theorem issueHw_pending {o : Order} : (issueHw b o s).pending = s.pending := by
  unfold issueHw
  split
  case h_1 t eq => simp [pending_of_eq eq]
  case h_2 t eq => simp [pending_of_eq eq]

@[simp] theorem State.deckWrite_pending {o : Nat} {bs : List Byte} : (State.deckWrite s b o bs).pending = s.pending := rfl

@[simp] theorem bufWrite_pending {bs : List Byte} : (bufWrite g bs s).pending = s.pending := rfl

@[simp] theorem takeFrom_pending {n : BId} {h : Hand} {dr : Bool} : (takeFrom s n h dr).2.pending = s.pending := by
  unfold takeFrom
  split
  · rfl
  · simp

@[simp] theorem deckAlloc_pending {any : Bool} : (deckAlloc b cls any s).2.pending = s.pending := by
  unfold deckAlloc
  split <;> simp

@[simp] theorem svcIssue_pending {o : Order} : (svcIssue b o s).pending = s.pending := by
  unfold svcIssue
  split
  · split
    case h_1 g t eq => simp [apply_ite State.pending, pending_of_eq eq]
    case h_2 t eq => simp [pending_of_eq eq]
  · simp

@[simp] theorem svcRetry_pending : (svcRetry b s).pending = s.pending := by
  unfold svcRetry
  simp [iter_pending]

@[simp] theorem deckRelease_pending : (deckRelease g s).pending = s.pending := rfl

/-! ### Messages, telemetry and log records -/

@[simp] theorem updPort_pending {p : Nat} {f : RingPort → RingPort} : (updPort b p f s).pending = s.pending := rfl

@[simp] theorem sendFlits_pending {fs : List Flit} : (sendFlits src dst fs x s).pending = s.pending :=
  iter_pending fun _ _ => updPort_pending

@[simp] theorem ringPut_pending {m : Msg} : (ringPut src dst m s).pending = s.pending := by simp [ringPut]

@[simp] theorem ringSend_pending {m : Msg} : (ringSend src dst m s).pending = s.pending := by simp [ringSend, apply_ite State.pending]

@[simp] theorem notice_pending {kind index rule events : Nat} : (notice b kind index rule events s).pending = s.pending := by
  simp [notice]

@[simp] theorem allocMany_pending {b : BId} {cls : Nat} {any : Bool} {n : Nat} : (allocMany b cls any n s).2.pending = s.pending := by
  induction n generalizing s with
  | zero => rfl
  | succ n ih =>
    unfold allocMany
    split
    case h_1 t eq => simp [pending_of_eq eq]
    case h_2 g t eq =>
      split
      case h_1 gs u eq' => simp [pending_of_eq eq', ih, pending_of_eq eq]
      case h_2 u eq' => simp [pending_of_eq eq', ih, pending_of_eq eq]

@[simp] theorem telLossFirst_pending : (telLossFirst h s).pending = s.pending := by
  unfold telLossFirst
  extract_lets n bytes
  split
  · rfl
  · split
    case h_1 gs t eq => simp [pending_of_eq eq]
    case h_2 t eq => simp [pending_of_eq eq]

@[simp] theorem telPut_pending {kind : Nat} {payload : List Byte} : (telPut h kind payload s).pending = s.pending := by
  unfold telPut
  extract_lets bytes
  split
  case h_1 gs t eq => simp [pending_of_eq eq]
  case h_2 t eq => simp [pending_of_eq eq]

@[simp] theorem telemetry_pending {kind : Nat} {payload : List Byte} : (telemetry kind payload s).pending = s.pending := by
  unfold telemetry
  split
  · rfl
  · simp [apply_ite State.pending]

@[simp] theorem logOpenSector_pending {off gen : Nat} : (logOpenSector h off gen s).pending = s.pending := rfl

@[simp] theorem logStartOp_pending : (logStartOp h s).pending = s.pending := rfl

@[simp] theorem logPump_pending : (logPump h s).pending = s.pending := by
  unfold logPump
  extract_lets
  (repeat' split) <;> simp [*]

@[simp] theorem logTake_pending {own : Bool} {recs : List LogRec} {buf : Option Nat} : (logTake h own recs buf s).pending = s.pending := by
  unfold logTake
  simp [iter_pending]

@[simp] theorem logSend_pending : (logSend b s).pending = s.pending := by
  unfold logSend
  extract_lets l t u
  split
  · rfl
  · split
    · simp [t]
    · split <;> simp [u, t]

@[simp] theorem logPush_pending {ty : Nat} {p0 p1 p2 : Word} : (logPush b ty p0 p1 p2 s).pending = s.pending := by
  simp [logPush, apply_ite State.pending]

@[simp] theorem logLoss_pending : (logLoss b s).pending = s.pending := by simp [logLoss, apply_ite State.pending]

@[simp] theorem logDropOne_pending : (logDropOne b s).pending = s.pending := rfl

@[simp] theorem logOpen_pending : (logOpen b s).2.pending = s.pending := by
  unfold logOpen
  split
  · rfl
  · split
    case h_1 g t eq => simp [pending_of_eq eq]
    case h_2 t eq => simp [pending_of_eq eq]

@[simp] theorem logRec_pending {ty : Nat} {p0 p1 p2 : Word} : (logRec b ty p0 p1 p2 s).pending = s.pending := by
  unfold logRec
  split
  · rfl
  · split
    case h_1 t eq => simp [pending_of_eq eq]
    case h_2 t eq =>
      split
      case h_1 u eq' => simp [pending_of_eq eq', pending_of_eq eq]
      case h_2 u eq' => simp [pending_of_eq eq', pending_of_eq eq]

/-! ### The DMA engines -/

@[simp] theorem irq_pending {bit : Nat} : (irq b bit s).pending = s.pending := rfl

@[simp] theorem dmaHalt_pending : (dmaHalt b e code acc status s).pending = s.pending := by simp [dmaHalt, apply_ite State.pending]

@[simp] theorem dmaFault_pending : (dmaFault b e code acc status s).pending = s.pending := by simp [dmaFault, apply_ite State.pending]

@[simp] theorem dmaIssue_pending : (dmaIssue b e s).2.pending = s.pending := by
  unfold dmaIssue
  extract_lets d i len link
  split
  · rfl
  split
  · simp
  split
  · rfl
  split
  case h_1 t eq => simp [pending_of_eq eq]
  case h_2 g t eq =>
    extract_lets data t1 o
    have filled : t1.pending = s.pending := by simp [t1, apply_ite State.pending, pending_of_eq eq]
    split
    case h_1 tag u eq' => simp [pending_of_eq eq', filled]
    case h_2 u eq' => simp [pending_of_eq eq', filled]

@[simp] theorem dmaPump_pending {b : BId} {e n : Nat} : (dmaPump b e n s).pending = s.pending := by
  induction n generalizing s with
  | zero => rfl
  | succ n ih =>
    unfold dmaPump
    split
    case h_1 t eq => simp [ih, pending_of_eq eq]
    case h_2 t eq => simp [pending_of_eq eq]

@[simp] theorem berthRetry_pending : (berthRetry b s).pending = s.pending := by simp [berthRetry]

/-! ### The array engine -/

@[simp] theorem updArr_pending {f : Arr → Arr} : (updArr b k f s).pending = s.pending := rfl

@[simp] theorem arEnd_pending {result : Nat} {st : ArrSt} : (arEnd b result st s).pending = s.pending := by
  simp [arEnd, apply_ite State.pending]

@[simp] theorem arFail_pending {half : Bool} {result : Nat} : (arFail b half result s).pending = s.pending := by
  simp [arFail, apply_ite State.pending]

@[simp] theorem startRow_pending {r : Nat} : (startRow b r s).pending = s.pending := by simp [startRow, apply_ite State.pending]

@[simp] theorem arrRetire_pending : (arrRetire b k s).pending = s.pending := rfl

@[simp] theorem arrEvent_pending : (arrEvent b k cause s).pending = s.pending := by simp [arrEvent, apply_ite State.pending]

@[simp] theorem startRepair_pending : (startRepair b k s).pending = s.pending := by simp [startRepair, apply_ite State.pending]

@[simp] theorem startProg_pending : (startProg b k first s).pending = s.pending := by simp [startProg, apply_ite State.pending]

@[simp] theorem orderStart_pending : (orderStart b s).pending = s.pending := by
  unfold orderStart
  extract_lets
  (repeat' split) <;> simp [*]

@[simp] theorem arBegin_pending : (arBegin b cmd k first req s).pending = s.pending := by simp [arBegin, apply_ite State.pending]

@[simp] theorem arResult_pending : (arResult b cmd k res req s).pending = s.pending := rfl

@[simp] theorem arOrder_pending : (arOrder b req cmd k first s).pending = s.pending := by simp [arOrder, apply_ite State.pending]

/-! ### Graphs, their outputs and what these move -/

@[simp] theorem updGraph_pending {f : Graph → Graph} : (updGraph h g f s).pending = s.pending := rfl

@[simp] theorem setProg_pending {t : Nat} : (setProg home g t n s).pending = s.pending := rfl

@[simp] theorem attnAt_pending {bit : Nat} : (attnAt h bit s).pending = s.pending := by simp [attnAt, apply_ite State.pending]

@[simp] theorem attn_pending {bit : Nat} : (attn bit s).pending = s.pending := by
  unfold attn
  split <;> simp

@[simp] theorem setGst_pending {st : GSt} : (setGst h g st cause s).pending = s.pending := by simp [setGst, apply_ite State.pending]

@[simp] theorem putOut_pending {kind : Nat} {o : OutVal} : (putOut h g i kind o s).pending = s.pending := rfl

@[simp] theorem formAll_pending {v : Binding → Int} : (formAll h g v s).pending = s.pending := iter_pending fun _ _ => putOut_pending

@[simp] theorem setCommitted_pending {v : Nat} : (setCommitted h g i v s).pending = s.pending := rfl

@[simp] theorem logRail_pending {ty rail input : Nat} {kind : Bool} {reading limit : Nat} {timeout early : Bool} :
    (logRail b ty rail input code kind reading limit timeout early s).pending = s.pending := by
  simp [logRail]

@[simp] theorem thrSet_pending {low high : Nat} : (thrSet b i low high s).pending = s.pending := by simp [thrSet, apply_ite State.pending]

@[simp] theorem thresholdWrite_pending {w : Word} : (thresholdWrite b req i w s).pending = s.pending := by
  simp [thresholdWrite, apply_ite State.pending]

@[simp] theorem sendFreq_pending {st : Nat} : (sendFreq b k st s).pending = s.pending := by simp [sendFreq]

@[simp] theorem State.updPart_pending {f : Part → Part} : (State.updPart s b k f).pending = s.pending := rfl

@[simp] theorem orderStep_pending {st : Nat} : (orderStep b k st s).pending = s.pending := by simp [orderStep]

@[simp] theorem track_pending {old t : Nat} : (track b k old t s).pending = s.pending := by simp [track, apply_ite State.pending]

@[simp] theorem avsSend_pending : (avsSend b c s).pending = s.pending := by
  unfold avsSend
  split
  · rfl
  · split <;> simp

@[simp] theorem avsWrite_pending {r mv : Nat} {powerUp : Bool} {tries : Nat} : (avsWrite b r mv powerUp tries s).pending = s.pending := by
  simp [avsWrite, apply_ite State.pending]

@[simp] theorem writeTarget_pending {t : Nat} {up : Option Nat} : (writeTarget b k t up s).pending = s.pending := by simp [writeTarget]

@[simp] theorem retarget_pending : (retarget b k s).pending = s.pending := by simp [retarget, apply_ite State.pending]

@[simp] theorem capsChanged_pending : (capsChanged b k s).pending = s.pending := by simp [capsChanged, apply_ite State.pending]

@[simp] theorem opReqSet_pending {step margin : Option Nat} : (opReqSet b k step margin s).pending = s.pending := by simp [opReqSet]

@[simp] theorem updCool_pending {f : Cool → Cool} : (updCool b c f s).pending = s.pending := rfl

@[simp] theorem dutyWrite_pending {w : Word} : (dutyWrite b c req w s).pending = s.pending := by simp [dutyWrite, apply_ite State.pending]

@[simp] theorem State.onTray_pending {f : Tray → Tray} : (State.onTray s f).pending = s.pending := by
  unfold State.onTray
  split <;> simp

@[simp] theorem grantReqSet_pending {v : Nat} : (grantReqSet n v s).pending = s.pending := by simp [grantReqSet]

@[simp] theorem unitWrite_pending {gr : Graph} {bd : Binding} {v : Nat} {w : Option Nat} :
    (unitWrite h gr bd v w s).pending = s.pending := by
  unfold unitWrite
  split <;> simp

@[simp] theorem writeBinding_pending {keep : Bool} : (writeBinding h keep i s).pending = s.pending := by
  unfold writeBinding
  extract_lets gr
  split
  case h_1 bd o _ _ =>
    extract_lets partner w written kept
    split
    · rfl
    split
    · simp
    split
    · simp
    split
    · simp [written]
    · have same : kept.pending = s.pending := by simp [kept, written]
      clear_value partner w kept
      split
      · simp [same]
      · exact same
  case h_2 => rfl

@[simp] theorem writeAll_pending {keep : Bool} : (writeAll h keep s).pending = s.pending := iter_pending fun _ _ => writeBinding_pending

@[simp] theorem writeSafe_pending : (writeSafe h g s).pending = s.pending := by simp [writeSafe, apply_ite State.pending]

/-! ### The ends of runs, and the loaders -/

@[simp] theorem applyRetire_pending : (applyRetire b k c s).pending = s.pending := by simp [applyRetire, apply_ite State.pending]

@[simp] theorem runEnds_pending {pl : List Place} : (runEnds pl s).pending = s.pending := iter_pending fun p t => by
    dsimp only
    split
    · rfl
    · simp [apply_ite State.pending, iter_pending]

@[simp] theorem dropInf_pending : (dropInf h g s).pending = s.pending := by simp [dropInf]

@[simp] theorem replaceFails_pending : (replaceFails h g cause s).pending = s.pending := by simp [replaceFails]

@[simp] theorem emptyGraph_pending : (emptyGraph h g cause s).pending = s.pending := by simp [emptyGraph]

@[simp] theorem setImgSt_pending {st : ImgState} : (setImgSt role st s).pending = s.pending := by simp [setImgSt]

@[simp] theorem startFail_pending : (startFail role s).pending = s.pending := iter_pending fun b t => by
    dsimp only
    split
    · rfl
    · rfl

@[simp] theorem logLoad_pending {berth : Nat} {gr : Graph} {img : GImage} : (logLoad b g code berth gr img s).pending = s.pending := by
  simp [logLoad]

@[simp] theorem loadAborted_pending {berth : Nat} : (loadAborted g berth home s).pending = s.pending := by
  simp [loadAborted, iter_pending]

@[simp] theorem tileFailed_pending {t : Nat} : (tileFailed home g t s).pending = s.pending := by
  unfold tileFailed
  extract_lets gr
  split
  · rfl
  · extract_lets failed
    split
    · simp [failed]
    · simp [failed, apply_ite State.pending]

@[simp] theorem loaderDone_pending : (loaderDone b s).pending = s.pending := by
  unfold loaderDone
  split
  · rfl
  case h_2 o _ =>
    split
    · rfl
    extract_lets freed gr
    have same : freed.pending = s.pending := (iter_pending fun _ _ => deckRelease_pending).trans updPg_pending
    split
    · exact same
    · simp [apply_ite State.pending, same]

@[simp] theorem dataSend_pending : (dataSend n a b s).pending = s.pending := by simp [dataSend, apply_ite State.pending]

theorem takeExact_pending {b : BId} {i : Nat} (eq : takeExact b i s = some t) : t.pending = s.pending := by
  unfold takeExact at eq
  split at eq
  · obtain rfl := Option.some.inj eq
    rfl
  · exact nomatch eq

theorem takeRun_pending {b : BId} {n i : Nat} (eq : takeRun b n s = some (i, t)) : t.pending = s.pending := by
  unfold takeRun at eq
  split at eq
  · exact nomatch eq
  case h_2 j _ =>
    have taken : ∀ o : Option State, o = (upto n).foldl (fun t k => t.bind (takeExact b (j + k))) (some s) →
        ∀ u, o = some u → u.pending = s.pending := by
      rintro o rfl
      refine List.foldlRecOn (motive := fun o : Option State => ∀ u, o = some u → u.pending = s.pending) _ _
        (fun u h => congrArg State.pending (Option.some.inj h.symm)) fun o ih k _ u h => ?_
      obtain ⟨v, rfl, h⟩ := Option.bind_eq_some_iff.mp h
      exact (takeExact_pending h).trans (ih v rfl)
    obtain ⟨u, run, h⟩ := Option.map_eq_some_iff.mp eq
    obtain ⟨-, rfl⟩ := Prod.mk.inj h
    exact taken _ rfl u run

@[simp] theorem loaderStart_pending {t : Nat} : (loaderStart b home g t s).pending = s.pending := by
  unfold loaderStart
  extract_lets gr k n bs
  split
  · simp
  split
  · rfl
  case h_2 i t eq => simp [takeRun_pending eq]

@[simp] theorem loaderPump_pending {b : BId} {n : Nat} : (loaderPump b n s).pending = s.pending := by
  induction n generalizing s with
  | zero => rfl
  | succ n ih =>
    unfold loaderPump
    split
    · rfl
    split
    · rfl
    · simp [apply_ite State.pending, ih]

@[simp] theorem loadersPump_pending : (loadersPump s).pending = s.pending := iter_pending fun _ _ => loaderPump_pending

/-! ### The flash of the harbour -/

@[simp] theorem updDfu_pending {f : Dfu → Dfu} : (updDfu b f s).pending = s.pending := rfl

@[simp] theorem releaseAll_pending {gs : List Nat} : (releaseAll gs s).pending = s.pending := iter_pending fun _ _ => deckRelease_pending

@[simp] theorem logDfu_pending {ver : Nat} : (logDfu b ver s).pending = s.pending := by simp [logDfu]

@[simp] theorem dfuEnd_pending {ver : Nat} : (dfuEnd b status ver s).pending = s.pending := by simp [dfuEnd]

@[simp] theorem dfuPump_pending : (dfuPump b s).pending = s.pending := by simp [dfuPump, apply_ite State.pending]

@[simp] theorem dfuBlockDone_pending : (dfuBlockDone b s).pending = s.pending := by simp [dfuBlockDone, apply_ite State.pending]

@[simp] theorem flashFree_pending {logLast : Bool} : (flashFree logLast h s).pending = s.pending := by
  simp [flashFree, apply_ite State.pending]

@[simp] theorem flashRetry_pending : (flashRetry b s).pending = s.pending := by
  unfold flashRetry
  split <;> simp


end

end Sys2Proof.Machine

/-! A step on an empty queue: one REF cycle (R366, R115). -/
namespace Sys2Proof.Machine
set_option Elab.async false

section
variable {r s t : State} {b : BId}

/-- The state in which one REF cycle has passed and nothing in the background has acted yet. -/
def clocked (s : State) : State := { s with out := [], now := s.now + 1, berths := s.berths.map (berthTick s.dev.sleep) }

/-- What acts in the background in a REF cycle outside SLEEP. -/
def background (s : State) : State := iter allB flashRetry (loadersPump (iter allB berthRetry s))

theorem tick_eq : tick s = if s.dev.sleep then clocked s else background (clocked s) := rfl

theorem clocked_at : (clocked s).at b = berthTick s.dev.sleep (s.at b) := by simp [clocked, State.at]

theorem pilotTick_mtime {sleep : Bool} {p : Pilot} : (pilotTick sleep p).mtime = (p.mtime + 1) % 2 ^ 64 := by
  unfold pilotTick
  extract_lets p'
  split <;> rfl

theorem clocked_mtime :
    ((clocked s).at b).pl.mtime = if (s.at b).sy.inReset = true then (s.at b).pl.mtime else ((s.at b).pl.mtime + 1) % 2 ^ 64 := by
  rw [clocked_at, berthTick]
  split
  · rfl
  · exact pilotTick_mtime

theorem clocked_touch : Touch [.out, .now, .pl] s (clocked s) := by
  have berths : Touch [.out, .now, .pl] s { s with berths := s.berths.map (berthTick s.dev.sleep) } :=
    .berths rfl rfl rfl rfl fun c => by
      rw [show State.at { s with berths := s.berths.map (berthTick s.dev.sleep) } c = berthTick s.dev.sleep (s.at c) from clocked_at]
      exact berthTick_touchB (by decide)
  exact berths.frame rfl (absurd (by decide)) (absurd (by decide)) (fun _ => rfl) fun _ => rfl

/-! ### The background -/

theorem issueHw_calm {o : Order} (h : Calm r s) : Calm r (issueHw b o s) := h.touch (issueHw_touch sub_self .refl)

theorem svcIssue_calm {o : Order} (h : Calm r s) : Calm r (svcIssue b o s) := by
  unfold svcIssue
  split
  · split
    case h_1 g t eq =>
      have taken : Calm r t := deckAlloc_calm h eq
      exact issueHw_calm (.ite (bufWrite_calm taken) taken)
    case h_2 t eq => exact updSvc_calm (deckAlloc_calm h eq)
  · exact issueHw_calm h

theorem svcRetry_calm (h : Calm r s) : Calm r (svcRetry b s) := Calm.iter (updSvc_calm h) fun _ _ => svcIssue_calm

theorem berthRetry_calm (h : Calm r s) : Calm r (berthRetry b s) := dmaPump_calm (dmaPump_calm (svcRetry_calm h))

theorem background_background : Background s (background s) :=
  have retried : Background s (iter allB berthRetry s) := (Calm.iter .refl fun _ _ => berthRetry_calm).background
  .iter (loadersPump_background retried) fun _ _ h => h.touch (flashRetry_touch sub_self .refl)

theorem background_mtime : ((background s).at b).pl.mtime = (s.at b).pl.mtime := by
  obtain ⟨_, _, same⟩ := background_background.pl (s := s) b
  rw [same]

theorem background_touch : Touch [.out, .freeCtr, .sy, .rp, .rl, .log, .pw, .hw, .svc, .cl, .pl, .dk, .dm, .tw, .us, .ar, .pg, .tray, .deck]
    s (background s) :=
  .iter (fun _ _ h => flashRetry_touch (by decide) h)
    (loadersPump_touch (by decide) (.iter (fun _ _ h => berthRetry_touch (by decide) h) .refl))

theorem background_pending : (background s).pending = s.pending :=
  (iter_pending fun _ _ => flashRetry_pending).trans (loadersPump_pending.trans (iter_pending fun _ _ => berthRetry_pending))

end

/-- Settles O58: the clock counts, and what acts in the background after it leaves PL_MTIME and the queue alone. -/
theorem idleTick : Obligations.IdleTick := by
  intro s idle
  have touch : Touch _ s (tick s) := tick_touch sub_self .refl
  have pending : (tick s).pending = s.pending := by
    rw [tick_eq]
    split
    · rfl
    · exact background_pending
  have now : (tick s).now = s.now + 1 := by
    rw [tick_eq]
    split
    · rfl
    · exact background_touch.at_now (by decide)
  refine ⟨tick s, step_idle idle, pending.trans idle, now, touch.at_dev (by decide), touch.all, fun sleep => ?_, fun b => ?_⟩
  · rw [tick_eq, if_pos sleep]
    exact clocked_touch.all
  · rw [tick_eq]
    split
    · exact clocked_mtime
    · exact background_mtime.trans clocked_mtime

end Sys2Proof.Machine
